-- ==== Sys2Proof/Word.lean ====
section
/-! DEFINITION. The word types that software, the image and the wire see (00_scope.md, "Notation and units"). -/

namespace Sys2Proof

/-- One byte, the unit of every address (R322). -/
abbrev Byte := BitVec 8

/-- A 32-bit word: an FP32 pattern (R69) or a 32-bit field. -/
abbrev Word32 := BitVec 32

/-- A register (R566) or a 64-bit field of a record. -/
abbrev Word64 := BitVec 64

/-- An instruction word of a tile's stream (R130, R483), a hub or link schedule entry (R332, R382). -/
abbrev Word256 := BitVec 256

/-- A 256 B granule, arrival or flit (R327, R152, R367), byte 0 in bits [7:0]. -/
abbrev Granule := BitVec 2048

end Sys2Proof
end

