-- ==== Sys2Proof/Syntax.lean ====
section
/-! DEFINITION. The commands of the block: the operand types they carry, the image they name, and the one
inductive `Instr`, one constructor for each row of spec/opcode_table.json. -/

namespace Sys2Proof

/-! ### The image (14_image.md): raw words where the spec gives a layout, decoded fields where it gives only names -/

/-- One tick plan (R477): the 64 B header, 16 fence words, the data-fence entries and the slot entries. -/
structure PlanImg where
  hdr : BitVec 512
  fences : List Word64
  dfences : List (BitVec 128)
  slots : List (BitVec 256)
  /-- The plan's offset in the section. -/
  off : Nat
  deriving DecidableEq, Repr

/-- The instruction stream of one tile for one module class (R469, R483). -/
structure StreamImg where
  cls : Nat
  tile : Nat
  words : List Word256
  deriving DecidableEq, Repr

/-- The command schedule of one hub die for one plan and module class (R332). -/
structure HubSchedImg where
  cls : Nat
  hub : Nat
  plan : Nat
  words : List Word256
  deriving DecidableEq, Repr

/-- The slot schedule of one link die for one plan and module class (R382). -/
structure LinkSchedImg where
  cls : Nat
  die : Nat
  plan : Nat
  words : List Word256
  deriving DecidableEq, Repr

/-- One refresh round of a solver job table: the sweep cycles of SD0 to SD3 and the 128 B job entries (R479). -/
structure RoundImg where
  sweeps : List Nat
  jobs : List (BitVec 1024)
  /-- The offset of the round's first job entry in the section. -/
  off : Nat
  deriving DecidableEq, Repr

/-- The solver job table of one STEP plan (R226, R479). -/
structure SolverJobsImg where
  plan : Nat
  rounds : List RoundImg
  deriving DecidableEq, Repr

/-- One state-map entry, field by field (the table under "The state map"; the spec gives its bits no places). -/
structure TensorEnt where
  tensor : Nat
  role : Nat
  fmt : Nat
  parent : Nat
  ruleSet : Nat
  rows : Nat
  cols : Nat
  row0 : Nat
  row1 : Nat
  col0 : Nat
  col1 : Nat
  owners : List Nat
  even : Nat
  odd : Nat
  home : Nat
  aux : Nat
  tier : Nat
  lagged : Bool
  d : Nat
  gather : Nat
  maskKind : Nat
  mask : Nat
  block : Nat
  wb : Nat
  tieGroup : Nat
  useIdx : Nat
  beta : Word32
  w : Word32
  staleLim : Nat
  solver : Nat
  reservedZero : Bool
  /-- Padding columns of the whole matrix (R175): the spec gives the state map no field for them. -/
  padCols : Nat := 0
  /-- The product format of a factor statistic's contributions (R212): the spec gives the state map no field for it. -/
  prodFmt : Nat := 1
  /-- The further matrices that a shared A serves (R220): the spec gives them no field. -/
  serves : List Nat := []
  deriving DecidableEq, Repr

/-- One rule set (R270). -/
structure RuleSet where
  rule : Nat
  sched : Nat
  mfmt : Nat
  beta1 : Word32
  alpha1 : Word32
  lambda : Word32
  eps : Word32
  pfmt : Nat
  bias1 : Bool
  bias2 : Bool
  deriving DecidableEq, Repr

/-- One segment of a learning-rate schedule (R274). -/
structure LrSeg where
  t0 : Nat
  eta0 : Word32
  slope : Word32
  deriving DecidableEq, Repr

/-- One reduction plan: its 32 B entry and its 16 B part entries (R480). -/
structure RedPlanImg where
  ent : BitVec 256
  parts : List (BitVec 128)
  deriving DecidableEq, Repr

/-- One record of a DATA section: destination address and bytes. -/
structure DataRec where
  dest : Nat
  bytes : List Byte
  deriving DecidableEq, Repr

/-- One directory entry (R469), with whether its section's SCRC checks. -/
structure DirEnt where
  typ : Nat
  common : Bool
  cls : Nat
  index : Nat
  offset : Nat
  length : Nat
  entries : Nat
  scrcOk : Bool
  deriving DecidableEq, Repr

/-- A Miohan image file (14_image.md). The results of the computations that run over raw file bytes are carried beside it: the
CRCs and the content hash, and of the SIGNATURE section (R474), whose key point, zero bytes, r and s stand in it, the SHA-384
digests of the point and of the signed message and whether (r, s) verifies that message against the point. -/
structure ImageFile where
  header : BitVec 2048
  hcrcOk : Bool
  fileLen : Nat
  hashOk : Bool
  sigPoint : BitVec 776
  sigZero : BitVec 248
  sigR : BitVec 384
  sigS : BitVec 384
  keyDigest : BitVec 384
  msgDigest : BitVec 384
  sigOk : Bool
  dir : List DirEnt
  plans : List (Option PlanImg)
  layouts : List (BitVec 768)
  streams : List StreamImg
  hubScheds : List HubSchedImg
  linkScheds : List LinkSchedImg
  solverJobs : List SolverJobsImg
  stateMap : List TensorEnt
  ruleSets : List RuleSet
  lrScheds : List (List LrSeg)
  redPlans : List RedPlanImg
  limits : BitVec 512
  moduleMapHdr : BitVec 256
  modules : List Word64
  data : List DataRec
  deriving DecidableEq, Repr

/-! ### Operands of vector-engine words that the spec gives no bits -/

/-- What the elements of a SUMSQ source are (R277, R280, R283, R286): FP32 words in address order; the elements of a bucket of a
weight tensor, in row order from a row of the shard on, its masked rows left out; or one word for each row of a weight tensor's
shard from a row on, those of masked rows left out. -/
inductive SumSrc
  | words
  | bucket (tensor row : Nat)
  | rows (tensor row : Nat)
  deriving DecidableEq, Repr

/-- Whether address A and address B of a vector-engine word name operand-SRAM lines of the tile rather than memory, and what a
SUMSQ takes its elements from. -/
structure VeLoc where
  aSram : Bool
  bSram : Bool
  src : SumSrc := .words
  deriving DecidableEq, Repr

/-- What an UPDATE's schedule delivers besides its slot: the reduction plan whose target holds the sum S of r (R280). -/
structure UpdAux where
  sPlan : Nat
  deriving DecidableEq, Repr

/-- Every operand of a vector-engine word that the spec gives no bits, as a late issue of the word has them: the places of
its source and target, scale bytes, ι, the length of a TREE target, whether a SUMSQ source is a reduced bucket, the
destinations of LOOKUP_ADD and ROWCOL, the inputs of an UPDATE, and the content that a link delivers. -/
structure VeArgs where
  loc : VeLoc
  scales : Nat
  iota : Word32
  elems : Nat
  bucket : Bool
  dest : Nat
  rDst : Nat
  cDst : Nat
  aux : List UpdAux
  arrival : List Word32
  deriving DecidableEq, Repr

/-- What a late issue finds beside the word and its cycle: the scheduled cycle of the tile's next instruction, when it has one,
and the word's operands (R114). -/
structure LateWork where
  nextDue : Option Nat
  args : VeArgs
  deriving DecidableEq, Repr

/-! ### Operands of the memory side and the links -/

/-- The error in one 64 B codeword of a granule as an attempt reads it (R339): the codeword, 0 to 3; the 16-bit symbols hit, 0
to 31 of its data and 32 to 35 of its check bits, each with the bits that differ; and whether the check misses a pattern
beyond two symbols. -/
structure WordErr where
  word : Nat
  syms : List (Nat × Nat)
  missed : Bool := false
  deriving DecidableEq, Repr

/-- One attempt of an HBM access (R336, R339): whether a parity check fails, the errors in the codewords of a read, and the lane
position that the check attributes them to (R349; command-address lanes from 256 on). -/
structure Attempt where
  parity : Bool := false
  errs : List WordErr := []
  lane : Option Nat := none
  deriving DecidableEq, Repr

/-- Where the flit of a frame comes from: a fabric port with this content; the frame delivered on an incoming link in the same
slot and window (R382, R383); the hi halves of a gathered tensor's shard from an element on (R404, R405); or the checksum of
one of its chunks (R320). -/
inductive FlitSrc
  | data (flit : Granule)
  | forward (inLink : Nat)
  | hi (tensor first : Nat)
  | checksum (tensor chunk : Nat)
  deriving DecidableEq, Repr

/-- What a receiver does with a delivered flit besides handing it to a fabric port: nothing; it lands at an address of a
gather region (R404, R405); it is the checksum of a gathered chunk of an owning module's shard, which lies at an address
(R320); it is an ELASTIC frame for another module, and goes on by a link (R381); it is a child's sum of token counts, or the N that
comes down from the master (R396). -/
inductive FlitUse
  | port
  | gather (addr : Nat)
  | checksum (tensor chunk addr owner : Nat)
  | onward (link : Nat)
  | count
  | total
  deriving DecidableEq, Repr

/-- What a receiver's own count and schedule say of the frame in a slot: SEQ, KIND and SLOT (R370). -/
structure FrameDue where
  seq : Nat
  kind : Nat
  slot : Nat
  deriving DecidableEq, Repr

/-- A frame as a receiver has it: its 2,176 bits as they came in (R369), and what becomes of its flit. -/
structure FrameSeen where
  raw : BitVec 2176
  use : FlitUse
  deriving DecidableEq, Repr

/-- A combined health record (R392, R393): a module's own word with those of its children. -/
structure HealthRec where
  step : Nat := 0
  tShadow : Nat := 0
  loss : Nat := 0
  updates : Nat := 0
  tokens : Nat := 0
  flags : Nat := 0
  modules : Nat := 0
  mismatch : Bool := false
  missing : Bool := false
  deriving DecidableEq, Repr

/-- What the ports find when they train and enumerate at a reset: the strap MADDR (R617), the host port's mode, lanes and
flit mode (R416), and each memory expander's position, generation and capacity in GiB, generation 0 when it offers only unsupported
options (R360), and the HBM lanes whose eye margin falls below Kazjor's training limit, by stack, channel and
lane position with the command-address lanes from 256 on (R348); whether a CXL 1.1 port comes up with its HDM window (R416). -/
structure PortsIn where
  maddr : Nat
  mode : Nat
  width : Nat
  flit : Bool
  expanders : List (Nat × Nat × Nat)
  low : List (Nat × Nat × Nat) := []
  hdm : Bool := true
  deriving DecidableEq, Repr

/-- How a job start or resume meets its orchard: the absolute cycle of the first tick edge and the master's seed (R59 to
R62, R103). -/
structure JobJoin where
  edge : Nat
  seed : Nat
  deriving DecidableEq, Repr

/-- How one 4 KiB piece of a transfer ends at the host or the far device (R449, R451). -/
inductive DmaResult
  | ok
  | pageFault
  | error
  deriving DecidableEq, Repr

/-- Where a management message comes in: transport 0 I3C, 1 SMBus, 2 PCIe VDM to PF0 (R462), and the target address of a
sideband transport (R617). -/
structure MgmtPort where
  transport : Nat
  addr : Nat
  deriving DecidableEq, Repr

/-- A management message as the hull understands it (R462, R464): PLDM types 0 and 2, SPDM's requests, and the rest. -/
inductive MgmtMsg
  | pldmBase (command : Nat)
  | pldmSensor (id : Nat)
  | pldmState (id : Nat)
  | pldmOther (typ : Nat)
  | spdmVersion
  | spdmCapabilities
  | spdmAlgorithms
  | spdmDigests
  | spdmCertificate
  | spdmChallenge (nonce : Nat)
  | spdmMeasurements (index : Nat)
  | spdmSession
  deriving DecidableEq, Repr

/-- What lies outside the module when a register write starts an action: whether a record's write to the cartridge or to
the boot flash fails (R545), whether READ_RECORD's transfer succeeds (R564), whether FIELD_CLOSE's key and signature check
(R596), and which elements of the fuse then read blown, 7 unless a sag cuts the blow short (R597). -/
structure Outer where
  cartFails : Bool
  flashFails : Bool
  readOk : Bool
  sigOk : Bool
  elements : Nat
  deriving DecidableEq, Repr

/-! ### The hoard cartridge (16_power.md) -/

/-- The committed control record (R295). -/
structure Ccr where
  parity : Bool := false
  t : Nat := 0
  step : Nat := 0
  mean : Nat := 0
  var : Nat := 0
  count : Nat := 0
  hold : Bool := false
  replays : Nat := 0
  /-- The number of the last step that committed, which an export's header names (R290); none before the first. -/
  lastStep : Option Nat := none
  deriving DecidableEq, Repr

/-- A critical record, section by section (R544). -/
structure CritRec where
  kind : Nat
  trunc : Nat
  seq : Nat
  cartId : Nat
  serial : Nat
  tick : Nat
  cause : Nat
  control : List (Nat × Nat × Nat × Ccr)
  token : List Word64
  layout : Nat
  orch : Word64
  hbmLanes : List (Nat × Nat)
  hbmBad : List Nat
  linkLanes : List (Nat × Nat × Nat)
  gens : List (Nat × Nat × Nat × Nat × Nat)
  stale : List (Nat × Nat × Nat)
  faults : List (Nat × Word64)
  deriving DecidableEq, Repr

/-- The generation header of an area (the table under "Harvests"). -/
structure GenHdr where
  state : Nat := 0
  genSeq : Nat := 0
  t : Nat := 0
  step : Nat := 0
  tick : Nat := 0
  imageId : Nat := 0
  imageHash : Nat := 0
  cartId : Nat := 0
  modNum : Nat := 0
  orchard : Nat := 0
  length : Nat := 0
  gcrcOk : Bool := false
  deriving DecidableEq, Repr

/-- A hoard cartridge (R547 to R551). -/
structure Cart where
  id : Nat := 0
  /-- Its answer to the challenge verifies. -/
  genuine : Bool := false
  written : Nat := 0
  slots : List (Option CritRec) := []
  gen0 : GenHdr := {}
  gen1 : GenHdr := {}
  /-- The export streams of the areas, behind their headers, keyed by cartridge byte offset (R547). -/
  bytes : List (Nat × Byte) := []
  deriving DecidableEq, Repr

/-- The commands: one constructor for each row of spec/opcode_table.json. An operand `at_` is the absolute CCLK cycle on
which the command arrives or the event comes about. -/
inductive Instr
  /-- At a tick edge the applied token's decision, bank parity, plan, spare substitution and tick count take effect together on cycle 0 of the new tick (R21). -/
  | tickEdge
  /-- On a fence cycle each block checks its scheduled items due by that fence and reports any miss as class B without moving later cycles (R37). -/
  | fenceCheck (fence : Nat) (stalled : List Nat)
  /-- On a data fence cycle the hull checks its staging buffer or prefetch is complete, with input late or the tensor's policy deciding a miss (R44). -/
  | dataFenceCheck (idx : Nat)
  /-- At the ingest close the local token and slot counts are taken and sent up the tree (R396). -/
  | ingestClose
  /-- At INGEST_END every module holds N, writes the slot counts to the tiles and computes ν or sets the empty-step bit (R202). -/
  | ingestEnd (others : Nat)
  /-- At LOSS each module forms ℓ from the orchard loss sum and tests it against the committed μ and σ² (R298). -/
  | lossFence (sum : Word32)
  /-- At HEALTH the module starts its combined health record towards the master in its CONTROL slot (R392). -/
  | healthSend
  /-- A delivered child health record is combined with the module's own by summing, ORing and setting MISMATCH or MISSING (R393). -/
  | healthRecord (at_ link : Nat) (r : Option HealthRec)
  /-- A delivered commit token frame is checked, forwarded to children and held for the closing edge (R394). -/
  | commitToken (at_ : Nat) (frame : Option (BitVec 256 × BitVec 256))
  /-- The master sends the tick marker on cycle TICK_PERIOD − LEAD (R62). -/
  | markerSend
  /-- A received tick marker fixes the next edge at c + LEAD − PATH and is forwarded, with a difference from prediction of 2 cyc or more being an alignment fault (R62). -/
  | marker (at_ tick : Nat)
  /-- With no marker by the predicted edge the module takes its own edge and counts a lost marker, class B, or class C for a second in a row (R64). -/
  | markerLost
  /-- A received abort notice is forwarded on every tree link and ends the job at the next edge (R410). -/
  | abortNotice (at_ link origin cause : Nat)
  /-- A received orchard capture notice arms a capture on cycle CYCLE of tick TICK (R517). -/
  | captureNotice (at_ tick cycle : Nat)
  /-- At the start of a phase with a new layout index the routes, slot maps and die mappings are swapped in 4,096 cyc (R402). -/
  | layoutSwitch (phase : Nat)
  /-- A streaming pod instruction loads its stationary block, streams rows of A and writes output rows into its accumulator tile (R120). -/
  | mmStream (tile : Nat) (w : Word256)
  /-- An in-cell pod instruction accumulates its output tile over its feed length and drains it to accumulator SRAM (R124). -/
  | mmIncell (tile : Nat) (w : Word256)
  /-- An instruction refetched after a parity failure issues when it arrives and is a class B late-issue fault (R114). -/
  | lateIssue (tile : Nat) (w : Word256) (cycle : Nat) (late : LateWork)
  /-- A LOAD instruction reads lines from HBM into operand SRAM and sets their format tag (R483). -/
  | load (tile : Nat) (w : Word256)
  /-- A READOUT instruction moves an accumulator tile to HBM or operand SRAM, as FP32 or as pairs (R185). -/
  | readout (tile : Nat) (w : Word256)
  /-- A chain transfer copies an accumulator tile bit for bit into a destination tile and sets its chain mark on completion (R161). -/
  | chain (tile : Nat) (w : Word256) (arrival : List Word32)
  /-- A CONVERT instruction converts elements between formats with one rounding, optionally scaling by ν or ι (R94). -/
  | convert (tile : Nat) (w : Word256) (loc : VeLoc) (scales : Nat) (iota : Word32)
  /-- A SCALE instruction computes FP8 block scale bytes by the image's rule (R76). -/
  | scale (tile : Nat) (w : Word256) (loc : VeLoc)
  /-- A TREE instruction adds a plan's part slots in the fixed pairwise tree order (R157). -/
  | tree (tile : Nat) (w : Word256) (elems : Nat)
  /-- A SUMSQ instruction forms a partial sum of squares combined under its reduction plan (R283). -/
  | sumsq (tile : Nat) (w : Word256) (loc : VeLoc) (bucket : Bool)
  /-- A LOOKUP_ADD instruction adds token gradient rows into bucket rows by token id (R196). -/
  | lookupAdd (tile : Nat) (w : Word256) (dest : Nat)
  /-- A ROWCOL instruction forms the r and c contributions of one bucket (R211). -/
  | rowcol (tile : Nat) (w : Word256) (rDst cDst : Nat)
  /-- An UPDATE instruction applies the tensor's rule and common tail to one bucket, reading the read bank and writing the other (R278). -/
  | update (tile : Nat) (w : Word256) (aux : List UpdAux)
  /-- A COPY instruction copies masked or untrained state unchanged from the read bank to the written bank (R190). -/
  | copy (tile : Nat) (w : Word256)
  /-- A DECAY instruction writes each statistic element as decayed old value plus weighted contribution, symmetrically for factor blocks (R215). -/
  | decay (tile : Nat) (w : Word256)
  /-- An EWISE instruction applies an element-wise function in FP32 with defined overflow and exception rules (R625). -/
  | ewise (tile : Nat) (w : Word256) (loc : VeLoc)
  /-- The END word ends a tile's instruction stream for the tick (R483). -/
  | endStream (tile : Nat) (w : Word256)
  /-- A scheduled HBM granule read delivers to its port on c + 484 whatever its first attempt found (R334). -/
  | hubRead (at_ stack granule : Nat) (a : Attempt)
  /-- A scheduled HBM granule write issues its command on c + 48 and is visible to reads from c + 256 (R335). -/
  | hubWrite (at_ stack granule : Nat) (data : Granule) (a : Attempt)
  /-- A failed access is repeated in the retry slot of the next window, class A on success, an overrun otherwise (R336). -/
  | hubRetry (stack granule : Nat) (a : Attempt)
  /-- An arrival at a MAIN target stores or adds its 64 elements in part order, completing on a + 496 (R152). -/
  | atomicAdd (at_ stack granule plan part : Nat) (data : Granule)
  /-- A refresh window carries refresh commands and interface training on every pseudo-channel (R330). -/
  | refresh (window : Nat)
  /-- In a background slot scrub writes back a queued or corrected granule or reads the next granule of its pass (R344). -/
  | scrub (at_ stack : Nat) (a : Attempt)
  /-- An ELASTIC hub window serves elastic traffic, including lent memory, in arrival order (R363). -/
  | elasticWindow (at_ stack granule : Nat) (write : Option Granule) (a : Attempt)
  /-- A scheduled DATA, CONTROL or MARKER frame is sent in its slot for delivery 1,536 cyc later (R372). -/
  | linkSend (at_ link kind : Nat) (src : FlitSrc)
  /-- A received frame is decoded and corrected, with a NAK set for an uncorrectable one, and delivered on its fixed cycle (R372). -/
  | frameReceived (at_ link : Nat) (due : FrameDue) (seen : FrameSeen)
  /-- A received NAK makes the sender repeat the named frame as a RETRY frame in the retry slot (R373). -/
  | nak (at_ link seq : Nat)
  /-- A link that loses lock or gets 8 uncorrectable frames in a row goes down, class C, and delivers every later frame lost (R380). -/
  | linkDown (at_ link : Nat)
  /-- An ELASTIC frame is carried hop by hop under credit and repeated in a later ELASTIC slot on failure (R381). -/
  | elasticFrame (at_ link : Nat) (ok : Bool) (flit : Granule)
  /-- Link training measures propagation, exchanges module, link and image hash, and brings the link into a mode (R376). -/
  | linkTraining (at_ link mode : Nat) (legacy : Bool) (prop neighbour nlink hash : Nat)
  /-- The descriptor engine reads a job's result descriptor 363 scyc before its start edge (R239). -/
  | solverDescRead (job : Nat)
  /-- At its start edge a ROOT, INV_NS or INV_CHOL job decides warm, cold or not started and runs its operation sequence (R255). -/
  | solverJobStart (job : Nat)
  /-- A converged job writes its result to the free buffer and publishes by writing the descriptor with STATE VALID (R259). -/
  | publish (die c0 : Nat)
  /-- At the deadline edge an unfinished job stops, issues a carry and raises the solver interrupt (R263). -/
  | deadlineMiss (die c0 : Nat)
  /-- At its sweep cycle each solver die copies the descriptors of its home blocks that no job of the round names (R260). -/
  | carrySweep (die : Nat)
  /-- An uncorrectable solver SRAM or datapath error is class B and ends any job on the gang as FAULTED (R266). -/
  | solverDatapathFault (at_ die : Nat) (cracker : Option Nat) (corrected : Bool)
  /-- A pod parity failure is a class B pod fault implicating its physical pod (R499). -/
  | podFault (at_ tile lpod : Nat)
  /-- A parity failure in a free spare retires it, class A, and stops the shadow check (R501). -/
  | spareParity (at_ tile : Nat)
  /-- The spare's recomputation of a sampled instruction is compared with the pod's result against the error bound (R509). -/
  | shadowCompare (tile : Nat) (w : Word256) (seq : Nat) (seen : List Word32)
  /-- A difference between the hull dies' outputs holds them idle and starts a reload from the mirrored record, class B (R504). -/
  | lockstepMismatch (at_ : Nat)
  /-- The reload completes on c + 16,384, rebuilding hull state from the mirror and other dies, and the hull resumes (R505). -/
  | lockstepReloadDone (checks : Bool)
  /-- An attend timer expiring takes its block's class D action and posts a FAULT event (R496). -/
  | attendExpiry (page : Nat)
  /-- A class D action not complete 100 ms after it began is a class E fault (R497). -/
  | classDTimeout (at_ page : Nat) (cartFails flashFails : Bool)
  /-- A class E fault stops the clocks, records the cause and runs the critical save, after which only a power cycle leaves the state (R498). -/
  | terminalStop (at_ cause window : Nat) (cartFails flashFails : Bool)
  /-- On the capture cycle every register is latched into its _SNAP copy with one capture ID (R513). -/
  | capture
  /-- A rising edge on CAPTURE_IN triggers a capture 32 cyc after it is seen (R514). -/
  | captureIn (at_ : Nat)
  /-- An input below 44.0 V for 2 µs while armed stops the clocks and writes the critical record on hold-up energy (R541). -/
  | sag (at_ : Nat) (cartFails flashFails bankLasts : Bool)
  /-- An input above 62 V for 10 µs is a terminal class E fault (R533). -/
  | overVoltage (at_ : Nat) (cartFails flashFails : Bool)
  /-- An input current above 330 A for 100 µs is a terminal class E fault (R533). -/
  | overCurrent (at_ : Nat) (cartFails flashFails : Bool)
  /-- An internal rail out of tolerance for 10 µs is a terminal class E fault (R533). -/
  | railFault (at_ : Nat) (cartFails flashFails : Bool)
  /-- An input below 40.0 V for 2 µs enters reset with the effects of a cold reset, without a record (R532). -/
  | inputLowReset (at_ : Nat)
  /-- The hold-up is armed once the bus stands at 45.0 V or more and the bank is not below its floor or is overridden (R539). -/
  | holdupArmed (at_ : Nat)
  /-- Package power averaged over a 1 ms window above 12.0 kW sets OVER_LIMIT and raises class C (R534). -/
  | powerOverLimit (at_ : Nat)
  /-- A sensor crossing its warning limit sets its warning bit and raises class C (R621). -/
  | thermalWarn (at_ sensor : Nat) (value : Word32)
  /-- A junction or stack over its terminal limit for 1 ms is a class E fault with CAUSE 5 (R621). -/
  | thermalTerminal (at_ sensor : Nat) (value : Word32) (cartFails flashFails : Bool)
  /-- Loss of lock of the selected clock source during a job is a class D fault with a job reset (R618). -/
  | clkLost (at_ : Nat)
  /-- EN_MOD low for 2 µs runs the save sequence with a SHUTDOWN record and switches the power stage off (R612). -/
  | enDrop (at_ : Nat) (cartFails flashFails : Bool)
  /-- The input below 36 V or EN_MOD low for 10 ms is a power cycle, returning by cold reset (R531). -/
  | powerCycle (at_ : Nat)
  /-- Cold reset charges and measures the hold-up bank, runs the pod test, reads the newest record and clears all but K-class fields (R535). -/
  | coldReset (at_ time : Nat) (fails : List Nat) (ports : PortsIn)
  /-- PERST# or RST_MOD_N low for 1 µs causes a warm reset that clears W, F and J fields and keeps HBM (R614). -/
  | warmReset (at_ : Nat)
  /-- An in-band Hot Reset or host link-down acts as an FLR of every function plus the port's own reset (R559). -/
  | hotReset (at_ : Nat)
  /-- An FLR of PF0 resets its mailbox, trace and telemetry FIFOs and F-class fields (R421). -/
  | flrPf0 (at_ : Nat)
  /-- An FLR of PF1 aborts the running job, resets command and event queues, stops DMA 0–11 and clears J-class fields (R421). -/
  | flrPf1 (at_ : Nat)
  /-- An FLR of PF2 stops engines 12–13 and abandons a harvest in progress (R421). -/
  | flrPf2 (at_ : Nat)
  /-- An FLR of PF3 clears bench state, aborts a bench command and draws a new nonce (R421). -/
  | flrPf3 (at_ : Nat)
  /-- A 64 B write to the command port enters command ingress as one word, or is dropped and counted (R458). -/
  | commandWord (at_ offset size : Nat) (word : BitVec 512)
  /-- The hull takes a whole command packet in FIFO order, checks it and dispatches it by opcode (R426). -/
  | commandPacket (at_ : Nat) (join : JobJoin)
  /-- A gap marker taken by the hull completes any partial packet MALFORMED and posts a DROPPED event (R458). -/
  | dropped (at_ : Nat)
  /-- LOAD_IMAGE accepts an image for an EMPTY context and starts its verification (R484). -/
  | loadImage (at_ ctx tag source length : Nat)
  /-- Verification ends, leaving the context LOADED with its tables built, or EMPTY with a LOADER refusal (R486). -/
  | loadImageDone (at_ ctx : Nat) (image : ImageFile)
  /-- UNLOAD_IMAGE returns a LOADED context to EMPTY (R422). -/
  | unloadImage (at_ ctx tag : Nat)
  /-- START_JOB checks power and orchard conditions, optionally loads a state, initialises state and runs tick 0 (R387). -/
  | startJob (at_ ctx tag seed src len : Nat) (join : JobJoin)
  /-- INGEST checks a micro-batch declaration in code order and accepts it for DMA or refuses it (R198). -/
  | ingest (at_ ctx tag step source tokens bytes slot : Nat)
  /-- The end of a micro-batch's DMA transfer posts COMMAND_DONE, withdrawing acceptance on error (R428). -/
  | ingestDone (at_ ctx step slot : Nat) (ok : Bool)
  /-- EXPORT accepts an export of the committed bank and requests fallow ticks, or refuses with BUSY (R289). -/
  | exportCmd (at_ ctx tag kind : Nat) (bufs : List (Nat × Nat))
  /-- At an allowed edge the accepted export starts streaming (R289). -/
  | exportStart (at_ : Nat)
  /-- When every region and directory is written the header is written last and the export completes (R293). -/
  | exportDone (at_ : Nat)
  /-- PREEMPT AT_EDGE arranges a pre-emption at the closing edge of the named tick, or completes LATE or BUSY (R431). -/
  | preemptAtEdge (at_ ctx tag tick : Nat)
  /-- PREEMPT NOW on a single module stops scheduled items after 1,024 cyc, abandons the written bank and saves (R432). -/
  | preemptNow (at_ ctx tag : Nat)
  /-- The save area write completes, the context becomes PREEMPTED and a PREEMPTED event is posted (R431). -/
  | preempted
  /-- RESUME restores the save area, re-pins host ranges and runs the job-start procedure (R433). -/
  | resume (at_ ctx tag : Nat)
  /-- The restore and job-start complete and the first tick after resume runs (R433). -/
  | resumed (join : JobJoin)
  /-- END_JOB ends a RUNNING or PREEMPTED job as a job reset (R559). -/
  | endJob (at_ ctx tag : Nat)
  /-- PIN requests and pins translations of a host range, or completes PIN_FULL (R443). -/
  | pin (at_ ctx tag addr len : Nat)
  /-- UNPIN releases the pinned translations of a host range (R425). -/
  | unpin (at_ ctx tag addr len : Nat)
  /-- An ATS invalidation drops entries, or is held to the next edge when it hits a pinned entry of the running context (R444). -/
  | atsInvalidation (at_ fn addr len tag : Nat)
  /-- A DMA engine serves its queues in turn, 4 KiB at a time, advancing each descriptor's OFFSET (R448). -/
  | dmaChunk (at_ eng : Nat) (res : DmaResult)
  /-- A page-group response resumes a parked descriptor on success or ends it with an error (R445). -/
  | priResponse (at_ grp : Nat) (ok : Bool)
  /-- A slow-tier prefetch copies a tensor's home into its pair buffer, waiting for a dirty occupant's write-back (R355). -/
  | prefetch (at_ tensor : Nat)
  /-- A write-back copies a dirty tensor's committed buffer to its home, making it clean (R357). -/
  | writeBack (at_ tensor : Nat)
  /-- Loss of an expander during a job fails every transfer to it and raises class C (R361). -/
  | expanderLost (at_ expander : Nat) (removed : Bool)
  /-- A lender that stops answering makes each borrower raise class C (R364). -/
  | lenderLost (at_ lender : Nat)
  /-- A producer writes a whole packet into a queue when room allows, or drops it and counts it (R454). -/
  | fifoPacketWrite (at_ fifo typ ctx : Nat) (payload : List (BitVec 112))
  /-- A consumer takes the whole packets that the synced packet count shows (R455). -/
  | fifoPacketTake (at_ fifo seen : Nat) (join : JobJoin)
  /-- A queue holding a whole packet untaken for EVQ_CFG.IDLE µs fires its idle timeout (R456). -/
  | idleTimeout (fifo : Nat)
  /-- A mismatch between the two copies of a queue pointer resets both sides and posts a RESET gap marker (R457). -/
  | ptrMismatch (at_ fifo : Nat)
  /-- The ring writer copies a whole packet into the host ring, advances EVQ_TAIL and raises the vector on the moderation count (R459). -/
  | ringWrite (at_ fifo : Nat)
  /-- The ring writer raises the vector when 50 µs pass after an entry with no interrupt posted (R459). -/
  | ringInterruptTimer (fifo : Nat)
  /-- A write of GO sends the mailbox request to the hull, or sets COLLISION while BUSY (R463). -/
  | mailboxGo (at_ : Nat)
  /-- The hull writes the response and sets DONE (R463). -/
  | mailboxDone (at_ : Nat) (msg : MgmtMsg)
  /-- An MCTP message over I3C, SMBus or PCIe VDM is handled as PLDM or SPDM (R462). -/
  | mctpMessage (at_ : Nat) (port : MgmtPort) (msg : MgmtMsg)
  /-- A write of COMMIT_HOLD.RELEASE on the master marks HOLD for release in the next token (R313). -/
  | holdRelease
  /-- A write of HULL_CAPTURE.NOW triggers a capture 32 cyc later (R514). -/
  | captureNow (at_ : Nat)
  /-- A write of ARM_EDGE arms the tick-edge capture trigger (R514). -/
  | armEdge
  /-- A write of DISARM disarms the edge capture trigger (R523). -/
  | disarm
  /-- A write of REARM releases held snap copies (R516). -/
  | rearm
  /-- A write of SEND on the master sends an orchard capture notice, or sets CAPTURE_REJECT (R517). -/
  | captureSend
  /-- A write of ATTEND.ACK stops the attend timer and acknowledges earlier class C faults (R495). -/
  | attendAck (page : Nat)
  /-- A write of CAP_CFG.OVERRIDE while below floor lifts the job refusal until cold reset (R537). -/
  | capOverride
  /-- A write of SLV_PIVOT_PTR.CLEAR empties the pivot log and zeroes its counts (R269). -/
  | pivotLogClear (die : Nat)
  /-- A write to HOST_HDMi is applied only if the piece would not overlap an enabled piece, else HDM_CONFLICT is set (R418). -/
  | hdmWrite (at_ piece : Nat) (value : Word64)
  /-- A write of TICK_CLKSRC.SRC selects a new clock source and clears LOCKED until lock (R59). -/
  | clksrcWrite (at_ src : Nat)
  /-- CCLK locks to the selected source and LOCKED becomes 1 within 10 ms (R59). -/
  | clkLocked (at_ : Nat)
  /-- A power request for IDLE gates clocks and stops the tick, or is refused (R526). -/
  | pwrIdle
  /-- A power request for FALLOW powers off compute, solver and link dies with HBM in self-refresh, or is refused (R526). -/
  | pwrFallow
  /-- A power request for DORMANT leaves only hull, power dies and minimal hub logic powered, or is refused (R526). -/
  | pwrDormant
  /-- A power request for OFF writes a SHUTDOWN record and switches the power stage off (R530). -/
  | pwrOff (cartFails flashFails : Bool)
  /-- A PF1 or PF2 command in a low-power state wakes the Nelig to RUN, retraining interfaces and links (R528). -/
  | wake (at_ : Nat)
  /-- The wake completes, restoring RUN and after DORMANT resetting tile and cracker registers and retesting pods (R529). -/
  | wakeDone (fails : List Nat)
  /-- HRD_CMD HARVEST makes a harvest due at the next opening edge (R552). -/
  | harvest
  /-- A due harvest starts at the opening edge of a no-step tick, writing its area's header invalid first (R553). -/
  | harvestStart
  /-- A harvest that has written and flushed its stream marks its header complete and writes a HARVEST record (R556). -/
  | harvestDone (at_ : Nat) (cartFails flashFails : Bool)
  /-- An FLR, job end, abort, pre-emption, removal or class E abandons a harvest, leaving its area invalid (R555). -/
  | harvestAbandoned
  /-- HRD_CMD RELEASE flushes the cartridge and powers its slot down, or is refused (R550). -/
  | release
  /-- HRD_CMD READ_RECORD copies the newest critical record to a host buffer (R564). -/
  | readRecord (ok : Bool)
  /-- HRD_CMD AUTHENTICATE runs the cartridge challenge again (R548). -/
  | authenticate
  /-- An inserted cartridge is identified and authenticated, setting AUTH_FAIL when it does not verify (R548). -/
  | cartridgeInsert (c : Cart)
  /-- Removal without release is a class C fault and abandons any harvest (R550). -/
  | cartridgeRemoved
  /-- A routine SHUTDOWN, LANE or HARVEST record is written through DMA engine 14, with RECORD_FAILED on failure on both media (R546). -/
  | routineRecord (kind : Nat) (cartFails flashFails : Bool)
  /-- MARGIN_HBM reports the eye margins and physical lane of an HBM lane position (R587). -/
  | marginHbm (arg : Word64)
  /-- MARGIN_LINK reports the eye margins and physical lane of a link lane (R587). -/
  | marginLink (arg : Word64)
  /-- LANE_RETURN_HBM returns a retired HBM lane to the spare pool and writes a LANE record (R588). -/
  | laneReturnHbm (arg : Word64) (outer : Outer)
  /-- LANE_RETURN_LINK returns a retired link lane to the spare pool and writes a LANE record (R588). -/
  | laneReturnLink (arg : Word64) (outer : Outer)
  /-- PPR repairs one HBM row through the IEEE 1500 port and clears the stack's poison entries (R589). -/
  | ppr (arg : Word64)
  /-- SCAN_ENTER stops a chain group's clocks and connects its scan chains (R590). -/
  | scanEnter (arg : Word64)
  /-- ENROLL blows the owner-key digest into fuses once (R586). -/
  | enroll
  /-- A verified FIELD_CLOSE blows the close fuse and shuts every bench path (R597). -/
  | fieldClose (outer : Outer)
  /-- A TAP instruction loaded into the instruction register selects its data register, with EXTEST taking the pins (R593). -/
  | tapInstruction (code : BitVec 8)
  /-- Reaching Test-Logic-Reset after EXTEST causes a warm reset (R594). -/
  | tapReset (at_ : Nat) (ports : PortsIn)
  /-- The bench trace port takes a copy of a selected signal as a record, or drops it (R595). -/
  | traceRecord (at_ source data : Nat) (full : Bool)
  /-- A write through a set, clear or toggle alias changes each field by its access code in one cycle (R571). -/
  | aliasWrite (at_ view off : Nat) (value : Word64) (outer : Outer)
  /-- A write to a register without behaviour of its own stores, ignores or flags by access code (R8). -/
  | regWrite (at_ via off size : Nat) (value : BitVec 512) (outer : Outer)
  /-- A read of a register with RC fields samples and clears them on one cycle (R574). -/
  | regReadClear (at_ via off size : Nat)
  /-- A register access arriving during a lockstep reload is held and started when the reload completes (R577). -/
  | accessReloadHeld (at_ via off size : Nat) (write : Option Word64) (outer : Outer)
  /-- An entry into IDLE, FALLOW or DORMANT completes after its entry time, clearing PWR_STATE.TRANSITION and setting STATE (R526). -/
  | powerStateEntered
  /-- When RST_MOD_N rises (or PERST# is deasserted) the warm reset is released 10 µs later and the module comes out of reset (R614). -/
  | warmResetRelease (at_ : Nat) (ports : PortsIn)
  /-- A host CXL.mem read or write through the HDM window reaches its staging buffer as elastic traffic (R419). -/
  | hdmAccess (at_ offset len : Nat) (write : Option (List Byte))
  /-- A host CXL.cache snoop arrives and always finds the line invalid (R417). -/
  | snoop (at_ addr : Nat)
  /-- A read of a powered-off domain, of an unmapped offset or of the wrong size or alignment returns all ones or 0 and sets HULL_ACC_STS with a HULL_ACC_FIRST record (R578). -/
  | accessError (at_ via off size : Nat) (write : Option Word64) (outer : Outer)
  /-- Every 1 ms the sensors are sampled and PWR_INPUT updated, and every 100 ms a telemetry record of type 0x80 is posted (R623). -/
  | sensorSample (at_ : Nat) (readings : List (Nat × Word32))
  /-- An input above 60 V, up to 62 V, sets PWR_STS.OVER_LIMIT while the module keeps operating (R532). -/
  | outsideRating (at_ : Nat)
  /-- A TAP data-register update under BENCH_REG, HBM1500 or BENCH_SCAN performs the PF3 register access, IEEE 1500 access or scan load, or leaves the register unchanged when R594 refuses it (R593). -/
  | tapDataRegister (at_ value : Nat) (write : Bool) (outer : Outer)
  /-- An ATS translation completion from the host enters the ATC, completing a PIN once every page holds a translation or letting a resumed descriptor proceed (R443). -/
  | translationCompletion (at_ fn eng q addr size : Nat) (granted : Bool)
  /-- A stream word with an undefined opcode is a stream fault: it runs its cycles without writing, tags its accumulator tile invalid, sets the non-finite bit and raises class C (R115). -/
  | undefinedOpcode (tile : Nat) (w : Word256)
  deriving DecidableEq, Repr

end Sys2Proof
end

