-- ==== Sys2Proof/Config.lean ====
section
/-! DEFINITION. The values the manual leaves open: opaque constants that no proof can evaluate.
Every use is logged under notes/assumptions. -/

namespace Sys2Proof.Config

/-- The opaque source of free values: value number `n`. The state's counter `fresh` says which number is next. -/
opaque free : Nat → Nat

/-- e^x in FP32 for a finite x that does not overflow (R483: the same bits on every unit, but no formula). -/
opaque expF : Sys2Proof.Word32 → Sys2Proof.Word32

/-- The reciprocal square root in FP32 of a positive finite value (R483). -/
opaque rsqrtF : Sys2Proof.Word32 → Sys2Proof.Word32

/-- sigmoid(x) in FP32 for a finite x (R483). -/
opaque sigmoidF : Sys2Proof.Word32 → Sys2Proof.Word32

/-- The scale byte that scale rule `code` gives the 128 elements of a block (R76: Limmi chooses the rule). -/
opaque scaleByte : Nat → List Sys2Proof.Word32 → Sys2Proof.Byte

/-- The FP32 value that a vector-engine conversion takes where an FP8 block's scale byte is 0 or 255, which the spec calls
invalid and gives no value for: of source and target format, element and scale byte (R74, R75). -/
opaque badScale : Nat → Nat → Nat → Nat → Sys2Proof.Word32

/-- The number of the physical lane that serves an HBM lane position: the position's key, and 0 while no spare stands in
for it or 1 + the spare's index (R587: the spec numbers no physical lanes). -/
opaque physLane : Nat → Nat → Nat

/-- The hard repair resources of one HBM bank beyond the first (R589 gives no number). -/
opaque pprMore : Nat

/-- Hard repair resources of one HBM bank when new: at least one (DEDUCED: R589 says that a bank may have none left). -/
def pprPerBank : Nat := pprMore + 1

/-- The granules of a stack that lie in a row: stack, channel, pseudo-channel, bank, row (R328 places no banks or rows). -/
opaque rowGranules : Nat → Nat → Nat → Nat → Nat → List Nat

/-- Bits [56:8] of the address at which the hull places a context's translation table: context, level, index (R435, R436). -/
opaque tablePlace : Nat → Nat → Nat → Nat

/-- The scrambler's state as a frame meets it: link, active lane, absolute cycle (R369 gives no seed). -/
opaque scrambler : Nat → Nat → Nat → Nat

/-- Which sub-master, of those one hop nearer to the super-master, a sub-master's cascade link leads to, where the image and
this module's own links leave more than one (R389, R471: the image names a parent link and no cable). -/
opaque cascadeUp : Nat → Nat

/-- STEP in the header of an export of a context in which no step has committed (R290 names the last committed step). -/
opaque noStepYet : Nat

end Sys2Proof.Config
end

