-- ==== Sys2Proof/Machine/RegMap.lean ====
section
/-! DEFINITION. The register map: every register field of the spec's register tables, with its place,
access code, survival class and reset value (R8 to R11, R566 to R570), and the constant that names each field.
A register is keyed by its PF0 BAR0 offset in the normal view (R568, R569); the registers of the bench
function's BAR are keyed from 2^29 on. -/

namespace Sys2Proof.Machine

/-- The access codes of R8. -/
inductive Access
  | rw | ro | rc | w1p | rwl
  deriving DecidableEq, Repr

/-- The survival classes of R11, from most to least durable. -/
inductive Survives
  | k | c | w | f | j
  deriving DecidableEq, Repr

/-- One field of a register: bits `[lo + wd - 1 : lo]`. -/
structure FieldDesc where
  lo : Nat
  wd : Nat
  acc : Access
  surv : Survives
  reset : Nat
  deriving DecidableEq, Repr

/-- The register blocks of R568 and R569; `bench` is PF3's BAR and `page` the fault page of any window or tile. -/
inductive Block
  | hull | tick | pwr | hrd | host | mmu | dma | evq | hub | lnk | slv | cd | tile | bench | page
  deriving DecidableEq, Repr

/-- A register, or `count` copies of it `stride` bytes apart, at offset `off` of its block. -/
structure RegDesc where
  block : Block
  off : Nat
  count : Nat
  stride : Nat
  fields : List FieldDesc
  deriving DecidableEq, Repr

/-- A named field: the key of its register (copy 0 of its block), its place, and the spacing of its copies. -/
structure Fld where
  base : Nat
  lo : Nat
  wd : Nat
  stride : Nat
  deriving DecidableEq, Repr

/-- The field of die or window copy `k` of its block. -/
def Fld.die (f : Fld) (k : Nat) : Fld := { f with base := f.base + k * 0x1000000 }

/-- The field of register copy `i`. -/
def Fld.ix (f : Fld) (i : Nat) : Fld := { f with base := f.base + i * f.stride }

/-- The field of tile `n`, numbered 0 to 79 (R15). -/
def Fld.tile (f : Fld) (n : Nat) : Fld :=
  { f with base := f.base + (n / 10) * 0x1000000 + (n % 10) * 0x40000 }

/-- The field of the fault page of block window `p` for `p` below 28, of tile `p - 28` from there (R521, R569). -/
def Fld.pageOf (f : Fld) (p : Nat) : Fld :=
  if p < 28 then f.die p
  else { f with base := f.base - 0x3C0000 + 0x14100000 + ((p - 28) / 10) * 0x1000000 + ((p - 28) % 10) * 0x40000 }

/-- The registers of block `hull` (06_training_flow.md R205, 09_update_rules.md R294, 10_state_banks.md R321, 11_memory.md R366,
12_orchard.md R415, 13_host.md R466, 14_image.md R487, 15_faults.md R523, 17_registers.md R582, 17_registers.md R583). -/
def regMapHull : List RegDesc :=
  [/- HULL_ID -/
    ⟨.hull, 0x0, 1, 8, [⟨0, 16, .ro, .k, 161⟩, ⟨16, 16, .ro, .k, 9238⟩, ⟨32, 8, .ro, .k, 1⟩, ⟨40, 1, .ro, .k, 0⟩, ⟨41, 1, .ro, .k, 0⟩, ⟨42, 1, .ro, .k, 1⟩]⟩,
   /- HULL_SERIAL -/
    ⟨.hull, 0x8, 1, 8, [⟨0, 64, .ro, .k, 0⟩]⟩,
   /- HULL_ACC_STS -/
    ⟨.hull, 0x10, 1, 8, [⟨0, 1, .rc, .f, 0⟩, ⟨1, 1, .rc, .f, 0⟩, ⟨2, 1, .rc, .f, 0⟩, ⟨3, 1, .rc, .f, 0⟩, ⟨4, 1, .rc, .f, 0⟩, ⟨5, 1, .rc, .f, 0⟩]⟩,
   /- HULL_ACC_INT_EN -/
    ⟨.hull, 0x18, 1, 8, [⟨0, 1, .rw, .f, 0⟩, ⟨1, 1, .rw, .f, 0⟩, ⟨2, 1, .rw, .f, 0⟩, ⟨3, 1, .rw, .f, 0⟩, ⟨4, 1, .rw, .f, 0⟩, ⟨5, 1, .rw, .f, 0⟩]⟩,
   /- HULL_ACC_FIRST -/
    ⟨.hull, 0x20, 1, 8, [⟨0, 29, .rc, .f, 0⟩, ⟨29, 2, .rc, .f, 0⟩, ⟨31, 3, .rc, .f, 0⟩, ⟨34, 1, .rc, .f, 0⟩, ⟨35, 28, .rc, .f, 0⟩, ⟨63, 1, .rc, .f, 0⟩]⟩,
   /- HULL_ACC_CNT -/
    ⟨.hull, 0x28, 1, 8, [⟨0, 24, .ro, .w, 0⟩, ⟨24, 16, .ro, .w, 0⟩, ⟨40, 16, .ro, .w, 0⟩]⟩,
   /- HULL_INGEST_STS -/
    ⟨.hull, 0x300, 1, 8, [⟨0, 1, .rc, .f, 0⟩, ⟨1, 1, .rc, .f, 0⟩, ⟨2, 1, .rc, .f, 0⟩]⟩,
   /- HULL_INGEST_INT_EN -/
    ⟨.hull, 0x308, 1, 8, [⟨0, 1, .rw, .f, 0⟩, ⟨1, 1, .rw, .f, 0⟩, ⟨2, 1, .rw, .f, 0⟩]⟩,
   /- HULL_INGEST_FIRST -/
    ⟨.hull, 0x310, 1, 8, [⟨0, 10, .rc, .f, 0⟩, ⟨10, 3, .rc, .f, 0⟩, ⟨16, 32, .rc, .f, 0⟩, ⟨48, 15, .rc, .f, 0⟩, ⟨63, 1, .rc, .f, 0⟩]⟩,
   /- HULL_INGEST_CNT -/
    ⟨.hull, 0x318, 1, 8, [⟨0, 32, .ro, .w, 0⟩, ⟨32, 32, .ro, .w, 0⟩]⟩,
   /- HULL_TOKENS -/
    ⟨.hull, 0x320, 1, 8, [⟨0, 32, .ro, .j, 0⟩]⟩,
   /- HULL_TOKEN_SUM -/
    ⟨.hull, 0x328, 1, 8, [⟨0, 48, .ro, .j, 0⟩, ⟨48, 1, .ro, .j, 0⟩]⟩] ++
  [/- HULL_NORM -/
    ⟨.hull, 0x330, 1, 8, [⟨0, 32, .ro, .j, 0⟩, ⟨32, 1, .ro, .j, 0⟩]⟩,
   /- HULL_EXPORT_STS -/
    ⟨.hull, 0x340, 1, 8, [⟨0, 1, .rc, .f, 0⟩, ⟨1, 1, .rc, .f, 0⟩, ⟨2, 1, .rc, .f, 0⟩]⟩,
   /- HULL_EXPORT_INT_EN -/
    ⟨.hull, 0x348, 1, 8, [⟨0, 1, .rw, .f, 0⟩, ⟨1, 1, .rw, .f, 0⟩, ⟨2, 1, .rw, .f, 0⟩]⟩,
   /- HULL_EXPORT -/
    ⟨.hull, 0x350, 1, 8, [⟨0, 1, .ro, .f, 0⟩, ⟨1, 1, .ro, .f, 0⟩, ⟨2, 1, .ro, .f, 0⟩, ⟨8, 40, .ro, .f, 0⟩]⟩,
   /- COMMIT_BANK -/
    ⟨.hull, 0x400, 1, 8, [⟨0, 1, .ro, .j, 0⟩, ⟨8, 8, .ro, .j, 0⟩]⟩,
   /- COMMIT_T -/
    ⟨.hull, 0x408, 1, 8, [⟨0, 64, .ro, .j, 0⟩]⟩,
   /- COMMIT_STEP -/
    ⟨.hull, 0x410, 1, 8, [⟨0, 64, .ro, .j, 0⟩]⟩,
   /- COMMIT_STS -/
    ⟨.hull, 0x418, 1, 8, [⟨0, 1, .rc, .f, 0⟩, ⟨1, 1, .rc, .f, 0⟩, ⟨2, 1, .rc, .f, 0⟩, ⟨3, 1, .rc, .f, 0⟩, ⟨4, 1, .rc, .f, 0⟩, ⟨5, 1, .rc, .f, 0⟩, ⟨6, 1, .rc, .f, 0⟩, ⟨7, 1, .rc, .f, 0⟩, ⟨8, 1, .rc, .f, 0⟩, ⟨9, 1, .rc, .f, 0⟩, ⟨10, 1, .rc, .f, 0⟩]⟩,
   /- COMMIT_INT_EN -/
    ⟨.hull, 0x420, 1, 8, [⟨0, 1, .rw, .f, 0⟩, ⟨1, 1, .rw, .f, 0⟩, ⟨2, 1, .rw, .f, 0⟩, ⟨3, 1, .rw, .f, 0⟩, ⟨4, 1, .rw, .f, 0⟩, ⟨5, 1, .rw, .f, 0⟩, ⟨6, 1, .rw, .f, 0⟩, ⟨7, 1, .rw, .f, 0⟩, ⟨8, 1, .rw, .f, 0⟩, ⟨9, 1, .rw, .f, 0⟩, ⟨10, 1, .rw, .f, 0⟩]⟩,
   /- COMMIT_HOLD -/
    ⟨.hull, 0x428, 1, 8, [⟨0, 1, .ro, .j, 0⟩, ⟨1, 1, .w1p, .j, 0⟩, ⟨2, 2, .ro, .j, 0⟩, ⟨4, 1, .ro, .j, 0⟩, ⟨8, 32, .ro, .j, 0⟩]⟩,
   /- COMMIT_LOSS0 -/
    ⟨.hull, 0x430, 1, 8, [⟨0, 32, .ro, .j, 0⟩, ⟨32, 32, .ro, .j, 0⟩]⟩,
   /- COMMIT_LOSS1 -/
    ⟨.hull, 0x438, 1, 8, [⟨0, 32, .ro, .j, 0⟩, ⟨32, 32, .ro, .j, 0⟩]⟩] ++
  [/- COMMIT_CNT0 -/
    ⟨.hull, 0x440, 1, 8, [⟨0, 32, .ro, .w, 0⟩, ⟨32, 32, .ro, .w, 0⟩]⟩,
   /- COMMIT_CNT1 -/
    ⟨.hull, 0x448, 1, 8, [⟨0, 24, .ro, .w, 0⟩, ⟨24, 16, .ro, .w, 0⟩, ⟨40, 12, .ro, .w, 0⟩, ⟨52, 12, .ro, .w, 0⟩]⟩,
   /- COMMIT_LAG -/
    ⟨.hull, 0x450, 1, 8, [⟨0, 20, .ro, .j, 0⟩, ⟨20, 20, .ro, .w, 0⟩, ⟨40, 20, .ro, .w, 0⟩, ⟨60, 3, .ro, .j, 0⟩]⟩,
   /- COMMIT_TOKEN -/
    ⟨.hull, 0x460, 4, 8, [⟨0, 64, .ro, .j, 0⟩]⟩,
   /- COMMIT_HEALTH -/
    ⟨.hull, 0x480, 5, 8, [⟨0, 64, .ro, .j, 0⟩]⟩,
   /- HULL_SLOW_STS -/
    ⟨.hull, 0x600, 1, 8, [⟨0, 1, .rc, .f, 0⟩, ⟨1, 1, .rc, .f, 0⟩, ⟨2, 1, .rc, .f, 0⟩, ⟨3, 1, .rc, .f, 0⟩, ⟨4, 1, .rc, .f, 0⟩]⟩,
   /- HULL_SLOW_INT_EN -/
    ⟨.hull, 0x608, 1, 8, [⟨0, 1, .rw, .f, 0⟩, ⟨1, 1, .rw, .f, 0⟩, ⟨2, 1, .rw, .f, 0⟩, ⟨3, 1, .rw, .f, 0⟩, ⟨4, 1, .rw, .f, 0⟩]⟩,
   /- HULL_SLOW_FIRST -/
    ⟨.hull, 0x610, 1, 8, [⟨0, 20, .rc, .f, 0⟩, ⟨20, 1, .rc, .f, 0⟩, ⟨21, 4, .rc, .f, 0⟩, ⟨25, 3, .rc, .f, 0⟩, ⟨31, 32, .rc, .f, 0⟩, ⟨63, 1, .rc, .f, 0⟩]⟩,
   /- HULL_SLOW_CNT -/
    ⟨.hull, 0x618, 1, 8, [⟨0, 24, .ro, .w, 0⟩, ⟨24, 24, .ro, .w, 0⟩, ⟨48, 16, .ro, .w, 0⟩]⟩,
   /- HULL_SLOW_EXP -/
    ⟨.hull, 0x620, 4, 8, [⟨0, 1, .ro, .w, 0⟩, ⟨1, 1, .ro, .w, 0⟩, ⟨2, 2, .ro, .w, 0⟩, ⟨8, 12, .ro, .w, 0⟩]⟩,
   /- HULL_SLOW_LEND -/
    ⟨.hull, 0x640, 1, 8, [⟨0, 1, .ro, .j, 0⟩, ⟨1, 16, .ro, .j, 0⟩]⟩,
   /- HULL_ORCH -/
    ⟨.hull, 0x700, 1, 8, [⟨0, 16, .rwl, .w, 0⟩, ⟨16, 17, .rwl, .w, 1⟩, ⟨33, 1, .ro, .j, 0⟩, ⟨34, 1, .ro, .j, 0⟩, ⟨35, 4, .ro, .j, 0⟩, ⟨39, 8, .ro, .j, 0⟩, ⟨47, 3, .ro, .j, 0⟩]⟩] ++
  [/- HULL_ORCH_CNT -/
    ⟨.hull, 0x708, 1, 8, [⟨0, 32, .ro, .w, 0⟩, ⟨32, 24, .ro, .w, 0⟩, ⟨56, 8, .ro, .w, 0⟩]⟩,
   /- HULL_ORCH_STS -/
    ⟨.hull, 0x710, 1, 8, [⟨0, 1, .rc, .f, 0⟩, ⟨1, 1, .rc, .f, 0⟩, ⟨2, 1, .rc, .f, 0⟩]⟩,
   /- HULL_ORCH_INT_EN -/
    ⟨.hull, 0x718, 1, 8, [⟨0, 1, .rw, .f, 0⟩, ⟨1, 1, .rw, .f, 0⟩, ⟨2, 1, .rw, .f, 0⟩]⟩,
   /- HULL_ORCH_ABORT -/
    ⟨.hull, 0x720, 1, 8, [⟨0, 16, .rc, .f, 0⟩, ⟨16, 3, .rc, .f, 0⟩, ⟨19, 32, .rc, .f, 0⟩, ⟨63, 1, .rc, .f, 0⟩]⟩,
   /- HULL_CTX -/
    ⟨.hull, 0x800, 4, 8, [⟨0, 2, .ro, .c, 0⟩, ⟨2, 1, .ro, .c, 0⟩, ⟨3, 32, .ro, .c, 0⟩]⟩,
   /- HULL_MBOX -/
    ⟨.hull, 0x900, 1, 8, [⟨0, 13, .rw, .f, 0⟩, ⟨13, 13, .ro, .f, 0⟩, ⟨26, 1, .w1p, .f, 0⟩, ⟨27, 1, .ro, .f, 0⟩, ⟨28, 1, .rc, .f, 0⟩, ⟨29, 1, .rc, .f, 0⟩]⟩,
   /- HULL_LOAD_STS -/
    ⟨.hull, 0xa00, 1, 8, [⟨0, 1, .rc, .f, 0⟩, ⟨1, 1, .rc, .f, 0⟩]⟩,
   /- HULL_LOAD_INT_EN -/
    ⟨.hull, 0xa08, 1, 8, [⟨0, 1, .rw, .f, 0⟩, ⟨1, 1, .rw, .f, 0⟩]⟩,
   /- HULL_LOAD_FIRST -/
    ⟨.hull, 0xa10, 1, 8, [⟨0, 16, .rc, .f, 0⟩, ⟨16, 8, .rc, .f, 0⟩, ⟨24, 7, .rc, .f, 0⟩, ⟨31, 1, .rc, .f, 0⟩, ⟨32, 16, .rc, .f, 0⟩, ⟨48, 2, .rc, .f, 0⟩, ⟨63, 1, .rc, .f, 0⟩]⟩,
   /- HULL_LOAD_WHERE -/
    ⟨.hull, 0xa18, 1, 8, [⟨0, 40, .rc, .f, 0⟩, ⟨40, 23, .rc, .f, 0⟩, ⟨63, 1, .rc, .f, 0⟩]⟩,
   /- HULL_FAULT_STS -/
    ⟨.hull, 0xb00, 1, 8, [⟨0, 1, .rc, .f, 0⟩, ⟨1, 1, .rc, .f, 0⟩, ⟨2, 1, .rc, .f, 0⟩, ⟨3, 1, .rc, .f, 0⟩, ⟨4, 1, .rc, .f, 0⟩]⟩,
   /- HULL_FAULT_INT_EN -/
    ⟨.hull, 0xb08, 1, 8, [⟨0, 1, .rw, .f, 0⟩, ⟨1, 1, .rw, .f, 0⟩, ⟨2, 1, .rw, .f, 0⟩, ⟨3, 1, .rw, .f, 0⟩, ⟨4, 1, .rw, .f, 0⟩]⟩] ++
  [/- HULL_NF_FIRST -/
    ⟨.hull, 0xb10, 1, 8, [⟨0, 5, .rc, .f, 0⟩, ⟨5, 4, .rc, .f, 0⟩, ⟨9, 40, .rc, .f, 0⟩, ⟨49, 14, .rc, .f, 0⟩, ⟨63, 1, .rc, .f, 0⟩]⟩,
   /- HULL_HEALTH_CNT -/
    ⟨.hull, 0xb18, 1, 8, [⟨0, 24, .ro, .w, 0⟩, ⟨24, 16, .ro, .w, 0⟩, ⟨40, 12, .ro, .w, 0⟩, ⟨52, 12, .ro, .w, 0⟩]⟩,
   /- HULL_LOCKSTEP -/
    ⟨.hull, 0xb20, 1, 8, [⟨0, 16, .ro, .w, 0⟩, ⟨16, 40, .ro, .w, 0⟩]⟩,
   /- HULL_TERMINAL -/
    ⟨.hull, 0xb28, 1, 8, [⟨0, 3, .ro, .c, 0⟩, ⟨3, 5, .ro, .c, 0⟩, ⟨8, 40, .ro, .c, 0⟩, ⟨63, 1, .ro, .c, 0⟩]⟩,
   /- HULL_CAPTURE -/
    ⟨.hull, 0xc00, 1, 8, [⟨0, 1, .w1p, .w, 0⟩, ⟨1, 1, .w1p, .w, 0⟩, ⟨2, 1, .w1p, .w, 0⟩, ⟨3, 1, .w1p, .w, 0⟩, ⟨4, 40, .rw, .w, 0⟩, ⟨44, 1, .rw, .w, 0⟩]⟩,
   /- HULL_CAPTURE_CFG -/
    ⟨.hull, 0xc08, 1, 8, [⟨0, 1, .rw, .w, 1⟩, ⟨1, 3, .rw, .w, 7⟩, ⟨4, 1, .rw, .w, 0⟩, ⟨5, 1, .rw, .w, 1⟩, ⟨6, 1, .rw, .w, 0⟩, ⟨7, 1, .rw, .w, 0⟩, ⟨8, 1, .rw, .w, 0⟩]⟩,
   /- HULL_CAPTURE_ID -/
    ⟨.hull, 0xc10, 1, 8, [⟨0, 32, .ro, .w, 0⟩, ⟨32, 5, .ro, .w, 0⟩, ⟨37, 1, .ro, .w, 0⟩, ⟨38, 1, .ro, .w, 0⟩, ⟨39, 1, .ro, .j, 0⟩, ⟨40, 16, .ro, .w, 0⟩]⟩,
   /- HULL_CAPTURE_CYC -/
    ⟨.hull, 0xc18, 1, 8, [⟨0, 40, .ro, .w, 0⟩, ⟨40, 24, .ro, .w, 0⟩]⟩,
   /- HULL_CAPTURE_AT0 -/
    ⟨.hull, 0xc20, 1, 8, [⟨0, 64, .rw, .j, 0⟩]⟩,
   /- HULL_CAPTURE_AT1 -/
    ⟨.hull, 0xc28, 1, 8, [⟨0, 40, .rw, .j, 0⟩, ⟨40, 1, .w1p, .j, 0⟩]⟩]

/-- The registers of block `tick` (02_tick.md R67). -/
def regMapTick : List RegDesc :=
  [/- TICK_CLKSRC -/
    ⟨.tick, 0x0, 1, 8, [⟨0, 5, .rwl, .w, 0⟩, ⟨8, 1, .ro, .w, 0⟩]⟩,
   /- TICK_PERIOD -/
    ⟨.tick, 0x8, 1, 8, [⟨0, 40, .ro, .j, 0⟩]⟩,
   /- TICK_COUNT -/
    ⟨.tick, 0x10, 1, 8, [⟨0, 64, .ro, .j, 0⟩]⟩,
   /- TICK_CYCLE -/
    ⟨.tick, 0x18, 1, 8, [⟨0, 40, .ro, .j, 0⟩]⟩,
   /- TICK_PLAN -/
    ⟨.tick, 0x20, 1, 8, [⟨0, 4, .ro, .j, 0⟩, ⟨4, 2, .ro, .j, 0⟩, ⟨8, 4, .ro, .j, 0⟩, ⟨12, 2, .ro, .j, 0⟩, ⟨14, 1, .ro, .j, 0⟩, ⟨16, 4, .ro, .j, 0⟩]⟩,
   /- TICK_LEAD -/
    ⟨.tick, 0x28, 1, 8, [⟨0, 24, .ro, .j, 0⟩, ⟨24, 24, .ro, .j, 0⟩, ⟨48, 1, .ro, .j, 0⟩]⟩,
   /- TICK_ALIGN -/
    ⟨.tick, 0x30, 1, 8, [⟨0, 8, .ro, .j, 0⟩, ⟨8, 16, .ro, .w, 0⟩, ⟨24, 16, .ro, .w, 0⟩]⟩,
   /- TICK_STS -/
    ⟨.tick, 0x38, 1, 8, [⟨0, 1, .rc, .f, 0⟩, ⟨1, 1, .rc, .f, 0⟩, ⟨2, 1, .rc, .f, 0⟩, ⟨3, 1, .rc, .f, 0⟩, ⟨4, 1, .rc, .f, 0⟩, ⟨5, 1, .rc, .f, 0⟩, ⟨6, 1, .rc, .f, 0⟩, ⟨7, 1, .rc, .f, 0⟩]⟩,
   /- TICK_INT_EN -/
    ⟨.tick, 0x40, 1, 8, [⟨0, 1, .rw, .f, 0⟩, ⟨1, 1, .rw, .f, 0⟩, ⟨2, 1, .rw, .f, 0⟩, ⟨3, 1, .rw, .f, 0⟩, ⟨4, 1, .rw, .f, 0⟩, ⟨5, 1, .rw, .f, 0⟩, ⟨6, 1, .rw, .f, 0⟩, ⟨7, 1, .rw, .f, 0⟩]⟩,
   /- TICK_FENCE_MISS -/
    ⟨.tick, 0x48, 1, 8, [⟨0, 4, .rc, .f, 0⟩, ⟨4, 10, .rc, .f, 0⟩, ⟨14, 1, .rc, .f, 0⟩, ⟨16, 4, .rc, .f, 0⟩, ⟨20, 5, .rc, .f, 0⟩, ⟨25, 32, .rc, .f, 0⟩, ⟨63, 1, .rc, .f, 0⟩]⟩,
   /- TICK_CNT -/
    ⟨.tick, 0x50, 1, 8, [⟨0, 24, .ro, .w, 0⟩, ⟨24, 20, .ro, .w, 0⟩, ⟨44, 20, .ro, .w, 0⟩]⟩,
   /- TICK_STARVE -/
    ⟨.tick, 0x100, 4, 8, [⟨0, 16, .ro, .j, 0⟩, ⟨16, 16, .ro, .j, 0⟩, ⟨32, 16, .ro, .j, 0⟩, ⟨48, 16, .ro, .w, 0⟩]⟩]

/-- The registers of block `pwr` (16_power.md R563, 20_module.md R624). -/
def regMapPwr : List RegDesc :=
  [/- PWR_STS -/
    ⟨.pwr, 0x0, 1, 8, [⟨0, 1, .rc, .f, 0⟩, ⟨1, 1, .rc, .f, 0⟩, ⟨2, 1, .rc, .f, 0⟩, ⟨3, 1, .rc, .f, 0⟩, ⟨4, 1, .rc, .f, 0⟩, ⟨5, 1, .rc, .f, 0⟩, ⟨6, 1, .rc, .f, 0⟩, ⟨7, 1, .rc, .f, 0⟩]⟩,
   /- PWR_INT_EN -/
    ⟨.pwr, 0x8, 1, 8, [⟨0, 1, .rw, .f, 0⟩, ⟨1, 1, .rw, .f, 0⟩, ⟨2, 1, .rw, .f, 0⟩, ⟨3, 1, .rw, .f, 0⟩, ⟨4, 1, .rw, .f, 0⟩, ⟨5, 1, .rw, .f, 0⟩, ⟨6, 1, .rw, .f, 0⟩, ⟨7, 1, .rw, .f, 0⟩]⟩,
   /- PWR_STATE -/
    ⟨.pwr, 0x10, 1, 8, [⟨0, 3, .ro, .w, 0⟩, ⟨3, 3, .rw, .w, 0⟩, ⟨6, 1, .w1p, .w, 0⟩, ⟨7, 1, .ro, .w, 0⟩, ⟨8, 1, .ro, .c, 0⟩]⟩,
   /- PWR_RESTORE_STS -/
    ⟨.pwr, 0x18, 1, 8, [⟨0, 4, .rc, .c, 1⟩, ⟨4, 4, .rc, .c, 15⟩, ⟨8, 8, .rc, .c, 0⟩, ⟨16, 4, .rc, .c, 0⟩, ⟨20, 1, .rc, .c, 1⟩, ⟨21, 1, .rc, .c, 1⟩, ⟨22, 1, .rc, .c, 0⟩, ⟨23, 1, .rc, .c, 0⟩]⟩,
   /- PWR_INPUT -/
    ⟨.pwr, 0x20, 1, 8, [⟨0, 16, .ro, .w, 0⟩, ⟨16, 16, .ro, .w, 0⟩, ⟨32, 16, .ro, .w, 0⟩, ⟨48, 16, .ro, .w, 0⟩]⟩,
   /- PWR_CRIT -/
    ⟨.pwr, 0x28, 1, 8, [⟨0, 32, .ro, .c, 0⟩, ⟨32, 3, .ro, .c, 0⟩, ⟨35, 1, .ro, .c, 0⟩, ⟨36, 1, .ro, .c, 0⟩, ⟨37, 3, .ro, .c, 0⟩, ⟨63, 1, .ro, .c, 0⟩]⟩,
   /- PWR_CNT -/
    ⟨.pwr, 0x30, 1, 8, [⟨0, 24, .ro, .w, 0⟩, ⟨24, 16, .ro, .w, 0⟩, ⟨40, 16, .ro, .w, 0⟩, ⟨56, 8, .ro, .w, 0⟩]⟩,
   /- PWR_DOM -/
    ⟨.pwr, 0x100, 5, 8, [⟨0, 64, .ro, .w, 0⟩]⟩,
   /- PWR_PODS -/
    ⟨.pwr, 0x140, 5, 8, [⟨0, 4, .ro, .w, 0⟩, ⟨4, 4, .ro, .w, 0⟩, ⟨8, 4, .ro, .w, 0⟩, ⟨12, 4, .ro, .w, 0⟩, ⟨16, 4, .ro, .w, 0⟩, ⟨20, 4, .ro, .w, 0⟩, ⟨24, 4, .ro, .w, 0⟩, ⟨28, 4, .ro, .w, 0⟩, ⟨32, 4, .ro, .w, 0⟩, ⟨36, 4, .ro, .w, 0⟩, ⟨40, 4, .ro, .w, 0⟩, ⟨44, 4, .ro, .w, 0⟩, ⟨48, 4, .ro, .w, 0⟩, ⟨52, 4, .ro, .w, 0⟩, ⟨56, 4, .ro, .w, 0⟩, ⟨60, 4, .ro, .w, 0⟩]⟩,
   /- CAP_MEAS -/
    ⟨.pwr, 0x200, 1, 8, [⟨0, 16, .ro, .c, 9000⟩, ⟨16, 16, .ro, .c, 900⟩, ⟨32, 1, .ro, .c, 0⟩, ⟨33, 1, .ro, .c, 0⟩, ⟨34, 1, .ro, .c, 0⟩]⟩,
   /- CAP_CFG -/
    ⟨.pwr, 0x208, 1, 8, [⟨0, 1, .w1p, .c, 0⟩]⟩,
   /- PWR_ENV_STS -/
    ⟨.pwr, 0x300, 1, 8, [⟨0, 1, .rc, .f, 0⟩, ⟨1, 1, .rc, .f, 0⟩, ⟨2, 1, .rc, .f, 0⟩, ⟨3, 1, .rc, .f, 0⟩, ⟨4, 1, .rc, .f, 0⟩, ⟨5, 1, .rc, .f, 0⟩]⟩] ++
  [/- PWR_ENV_INT_EN -/
    ⟨.pwr, 0x308, 1, 8, [⟨0, 1, .rw, .f, 0⟩, ⟨1, 1, .rw, .f, 0⟩, ⟨2, 1, .rw, .f, 0⟩, ⟨3, 1, .rw, .f, 0⟩, ⟨4, 1, .rw, .f, 0⟩, ⟨5, 1, .rw, .f, 0⟩]⟩,
   /- PWR_ENV_FIRST -/
    ⟨.pwr, 0x310, 1, 8, [⟨0, 16, .rc, .f, 0⟩, ⟨16, 32, .rc, .f, 0⟩, ⟨48, 3, .rc, .f, 0⟩, ⟨63, 1, .rc, .f, 0⟩]⟩,
   /- PWR_COOLANT -/
    ⟨.pwr, 0x318, 1, 8, [⟨0, 16, .ro, .w, 0⟩, ⟨16, 16, .ro, .w, 0⟩, ⟨32, 16, .ro, .w, 0⟩]⟩]

/-- The registers of block `hrd` (16_power.md R565). -/
def regMapHrd : List RegDesc :=
  [/- HRD_STS -/
    ⟨.hrd, 0x0, 1, 8, [⟨0, 1, .rc, .f, 0⟩, ⟨1, 1, .rc, .f, 0⟩, ⟨2, 1, .rc, .f, 0⟩, ⟨3, 1, .rc, .f, 0⟩, ⟨4, 1, .rc, .f, 0⟩, ⟨5, 1, .rc, .f, 0⟩, ⟨6, 1, .rc, .f, 0⟩, ⟨7, 1, .rc, .f, 0⟩, ⟨8, 1, .rc, .f, 0⟩, ⟨9, 1, .rc, .f, 0⟩]⟩,
   /- HRD_INT_EN -/
    ⟨.hrd, 0x8, 1, 8, [⟨0, 1, .rw, .f, 0⟩, ⟨1, 1, .rw, .f, 0⟩, ⟨2, 1, .rw, .f, 0⟩, ⟨3, 1, .rw, .f, 0⟩, ⟨4, 1, .rw, .f, 0⟩, ⟨5, 1, .rw, .f, 0⟩, ⟨6, 1, .rw, .f, 0⟩, ⟨7, 1, .rw, .f, 0⟩, ⟨8, 1, .rw, .f, 0⟩, ⟨9, 1, .rw, .f, 0⟩]⟩,
   /- HRD_ID -/
    ⟨.hrd, 0x10, 1, 8, [⟨0, 64, .ro, .c, 0⟩]⟩,
   /- HRD_STATE -/
    ⟨.hrd, 0x18, 1, 8, [⟨0, 1, .ro, .w, 0⟩, ⟨1, 1, .ro, .w, 0⟩, ⟨2, 1, .ro, .w, 0⟩, ⟨3, 1, .ro, .w, 0⟩, ⟨4, 1, .ro, .w, 0⟩, ⟨5, 1, .ro, .w, 0⟩, ⟨6, 1, .ro, .j, 0⟩]⟩,
   /- HRD_LIFE -/
    ⟨.hrd, 0x20, 1, 8, [⟨0, 40, .ro, .c, 0⟩, ⟨40, 10, .ro, .c, 0⟩]⟩,
   /- HRD_CMD -/
    ⟨.hrd, 0x28, 1, 8, [⟨0, 3, .rw, .f, 0⟩, ⟨3, 1, .w1p, .f, 0⟩, ⟨4, 1, .ro, .f, 0⟩, ⟨5, 3, .ro, .f, 0⟩]⟩,
   /- HRD_ADDR -/
    ⟨.hrd, 0x30, 1, 8, [⟨0, 57, .rw, .f, 0⟩]⟩,
   /- HRD_GEN_INFO -/
    ⟨.hrd, 0x40, 2, 16, [⟨0, 1, .ro, .w, 0⟩, ⟨1, 1, .ro, .w, 0⟩, ⟨2, 32, .ro, .w, 0⟩]⟩,
   /- HRD_GEN_T -/
    ⟨.hrd, 0x48, 2, 16, [⟨0, 64, .ro, .w, 0⟩]⟩,
   /- HRD_HARVEST -/
    ⟨.hrd, 0x60, 1, 8, [⟨0, 1, .ro, .f, 0⟩, ⟨1, 1, .ro, .f, 0⟩, ⟨2, 40, .ro, .f, 0⟩]⟩,
   /- HRD_CNT -/
    ⟨.hrd, 0x68, 1, 8, [⟨0, 24, .ro, .w, 0⟩, ⟨24, 16, .ro, .w, 0⟩, ⟨40, 16, .ro, .w, 0⟩, ⟨56, 8, .ro, .w, 0⟩]⟩]

/-- The registers of block `host` (13_host.md R465). -/
def regMapHost : List RegDesc :=
  [/- HOST_LINK -/
    ⟨.host, 0x0, 1, 8, [⟨0, 3, .ro, .w, 0⟩, ⟨3, 5, .ro, .w, 0⟩, ⟨8, 1, .ro, .w, 0⟩]⟩,
   /- HOST_STS -/
    ⟨.host, 0x8, 1, 8, [⟨0, 1, .rc, .f, 0⟩, ⟨1, 1, .rc, .f, 0⟩, ⟨2, 1, .rc, .f, 0⟩]⟩,
   /- HOST_INT_EN -/
    ⟨.host, 0x10, 1, 8, [⟨0, 1, .rw, .f, 0⟩, ⟨1, 1, .rw, .f, 0⟩, ⟨2, 1, .rw, .f, 0⟩]⟩,
   /- HOST_HDM -/
    ⟨.host, 0x40, 4, 8, [⟨0, 1, .rwl, .w, 0⟩, ⟨1, 4, .rwl, .w, 0⟩, ⟨5, 6, .rwl, .w, 0⟩]⟩]

/-- The registers of block `mmu` (13_host.md R465). -/
def regMapMmu : List RegDesc :=
  [/- MMU_STS -/
    ⟨.mmu, 0x0, 1, 8, [⟨0, 1, .rc, .f, 0⟩, ⟨1, 1, .rc, .f, 0⟩, ⟨2, 1, .rc, .f, 0⟩]⟩,
   /- MMU_INT_EN -/
    ⟨.mmu, 0x8, 1, 8, [⟨0, 1, .rw, .f, 0⟩, ⟨1, 1, .rw, .f, 0⟩, ⟨2, 1, .rw, .f, 0⟩]⟩,
   /- MMU_FAULT_FIRST -/
    ⟨.mmu, 0x10, 1, 8, [⟨0, 57, .rc, .f, 0⟩, ⟨57, 2, .rc, .f, 0⟩, ⟨59, 2, .rc, .f, 0⟩, ⟨63, 1, .rc, .f, 0⟩]⟩,
   /- MMU_ATC -/
    ⟨.mmu, 0x18, 1, 8, [⟨0, 14, .ro, .j, 0⟩, ⟨14, 12, .ro, .j, 0⟩, ⟨26, 1, .ro, .j, 0⟩, ⟨27, 10, .ro, .j, 0⟩]⟩,
   /- MMU_ROOT -/
    ⟨.mmu, 0x100, 4, 8, [⟨0, 57, .ro, .j, 0⟩, ⟨63, 1, .ro, .j, 0⟩]⟩]

/-- The registers of block `dma` (13_host.md R465). -/
def regMapDma : List RegDesc :=
  [/- DMA_STS -/
    ⟨.dma, 0x0, 1, 8, [⟨0, 1, .rc, .f, 0⟩, ⟨1, 1, .rc, .f, 0⟩, ⟨2, 1, .rc, .f, 0⟩]⟩,
   /- DMA_INT_EN -/
    ⟨.dma, 0x8, 1, 8, [⟨0, 1, .rw, .f, 0⟩, ⟨1, 1, .rw, .f, 0⟩, ⟨2, 1, .rw, .f, 0⟩]⟩,
   /- DMA_CNT -/
    ⟨.dma, 0x10, 1, 8, [⟨0, 32, .ro, .w, 0⟩, ⟨32, 16, .ro, .w, 0⟩, ⟨48, 16, .ro, .w, 0⟩]⟩,
   /- DMA_PARK -/
    ⟨.dma, 0x200, 64, 8, [⟨0, 40, .ro, .f, 0⟩, ⟨40, 9, .ro, .f, 0⟩, ⟨49, 1, .ro, .f, 0⟩]⟩]

/-- The registers of block `evq` (13_host.md R466). -/
def regMapEvq : List RegDesc :=
  [/- EVQ_STS -/
    ⟨.evq, 0x0, 1, 8, [⟨0, 4, .rc, .f, 0⟩, ⟨4, 4, .rc, .f, 0⟩, ⟨8, 4, .rc, .f, 0⟩, ⟨12, 1, .rc, .f, 0⟩]⟩,
   /- EVQ_INT_EN -/
    ⟨.evq, 0x8, 1, 8, [⟨0, 4, .rw, .f, 0⟩, ⟨4, 4, .rw, .f, 0⟩, ⟨8, 4, .rw, .f, 0⟩, ⟨12, 1, .rw, .f, 0⟩]⟩,
   /- EVQ_CMD_CREDIT -/
    ⟨.evq, 0x10, 1, 8, [⟨0, 11, .ro, .f, 1023⟩, ⟨11, 32, .ro, .f, 0⟩]⟩,
   /- EVQ_EVMASK -/
    ⟨.evq, 0x18, 1, 8, [⟨0, 1, .rw, .f, 0⟩]⟩,
   /- EVQ_RING -/
    ⟨.evq, 0x100, 4, 64, [⟨0, 57, .rw, .f, 0⟩]⟩,
   /- EVQ_CFG -/
    ⟨.evq, 0x108, 4, 64, [⟨0, 5, .rw, .f, 6⟩, ⟨5, 1, .rw, .f, 0⟩, ⟨6, 16, .rw, .f, 1000⟩, ⟨22, 12, .rw, .f, 1⟩]⟩,
   /- EVQ_HEAD -/
    ⟨.evq, 0x110, 4, 64, [⟨0, 20, .rw, .f, 0⟩]⟩,
   /- EVQ_TAIL -/
    ⟨.evq, 0x118, 4, 64, [⟨0, 20, .ro, .f, 0⟩]⟩,
   /- EVQ_LEVEL -/
    ⟨.evq, 0x120, 4, 64, [⟨0, 15, .ro, .f, 0⟩, ⟨15, 16, .ro, .f, 0⟩, ⟨31, 32, .ro, .f, 0⟩]⟩]

/-- The registers of block `hub` (05_reduction.md R172, 11_memory.md R365). -/
def regMapHub : List RegDesc :=
  [/- HUB_STS -/
    ⟨.hub, 0x0, 1, 8, [⟨0, 1, .rc, .f, 0⟩, ⟨1, 1, .rc, .f, 0⟩, ⟨2, 1, .rc, .f, 0⟩, ⟨3, 1, .rc, .f, 0⟩, ⟨4, 1, .rc, .f, 0⟩, ⟨5, 1, .rc, .f, 0⟩, ⟨6, 1, .rc, .f, 0⟩, ⟨7, 1, .rc, .f, 0⟩, ⟨8, 1, .rc, .f, 0⟩, ⟨9, 1, .rc, .f, 0⟩]⟩,
   /- HUB_INT_EN -/
    ⟨.hub, 0x8, 1, 8, [⟨0, 1, .rw, .f, 0⟩, ⟨1, 1, .rw, .f, 0⟩, ⟨2, 1, .rw, .f, 0⟩, ⟨3, 1, .rw, .f, 0⟩, ⟨4, 1, .rw, .f, 0⟩, ⟨5, 1, .rw, .f, 0⟩, ⟨6, 1, .rw, .f, 0⟩, ⟨7, 1, .rw, .f, 0⟩, ⟨8, 1, .rw, .f, 0⟩, ⟨9, 1, .rw, .f, 0⟩]⟩,
   /- HUB_ERR_FIRST -/
    ⟨.hub, 0x10, 1, 8, [⟨0, 2, .rc, .f, 0⟩, ⟨2, 5, .rc, .f, 0⟩, ⟨7, 1, .rc, .f, 0⟩, ⟨8, 3, .rc, .f, 0⟩, ⟨31, 32, .rc, .f, 0⟩, ⟨63, 1, .rc, .f, 0⟩]⟩,
   /- HUB_ERR_ADDR -/
    ⟨.hub, 0x18, 1, 8, [⟨0, 28, .rc, .f, 0⟩, ⟨63, 1, .rc, .f, 0⟩]⟩,
   /- HUB_SCHED -/
    ⟨.hub, 0x20, 1, 8, [⟨0, 1, .ro, .j, 0⟩, ⟨1, 32, .ro, .j, 0⟩]⟩,
   /- HUB_SCRUB -/
    ⟨.hub, 0x28, 1, 8, [⟨0, 28, .ro, .c, 0⟩, ⟨28, 2, .ro, .c, 0⟩, ⟨30, 32, .ro, .c, 0⟩]⟩,
   /- HUB_POISON_PTR -/
    ⟨.hub, 0x30, 1, 8, [⟨0, 9, .ro, .c, 0⟩]⟩,
   /- HUB_CNT -/
    ⟨.hub, 0x38, 1, 8, [⟨0, 24, .ro, .w, 0⟩, ⟨24, 16, .ro, .w, 0⟩, ⟨40, 16, .ro, .w, 0⟩, ⟨56, 8, .ro, .c, 0⟩]⟩,
   /- HUB_RED_STS -/
    ⟨.hub, 0x800, 1, 8, [⟨0, 1, .rc, .f, 0⟩, ⟨1, 1, .rc, .f, 0⟩, ⟨2, 1, .rc, .f, 0⟩]⟩,
   /- HUB_RED_INT_EN -/
    ⟨.hub, 0x808, 1, 8, [⟨0, 1, .rw, .f, 0⟩, ⟨1, 1, .rw, .f, 0⟩, ⟨2, 1, .rw, .f, 0⟩]⟩,
   /- HUB_RED_FIRST -/
    ⟨.hub, 0x810, 1, 8, [⟨0, 12, .rc, .f, 0⟩, ⟨12, 16, .rc, .f, 0⟩, ⟨28, 2, .rc, .f, 0⟩, ⟨30, 2, .rc, .f, 0⟩, ⟨32, 31, .rc, .f, 0⟩, ⟨63, 1, .rc, .f, 0⟩]⟩,
   /- HUB_RED_CNT0 -/
    ⟨.hub, 0x818, 1, 8, [⟨0, 44, .ro, .w, 0⟩, ⟨44, 20, .ro, .w, 0⟩]⟩] ++
  [/- HUB_RED_CNT1 -/
    ⟨.hub, 0x820, 1, 8, [⟨0, 22, .ro, .w, 0⟩, ⟨22, 21, .ro, .w, 0⟩, ⟨43, 21, .ro, .w, 0⟩]⟩,
   /- HUB_ECC -/
    ⟨.hub, 0x1000, 128, 8, [⟨0, 32, .ro, .w, 0⟩, ⟨32, 16, .ro, .w, 0⟩, ⟨48, 16, .ro, .w, 0⟩]⟩,
   /- HUB_LANE -/
    ⟨.hub, 0x1400, 128, 8, [⟨0, 3, .ro, .c, 0⟩, ⟨3, 1, .ro, .c, 0⟩, ⟨4, 1, .ro, .c, 0⟩]⟩,
   /- HUB_STACK -/
    ⟨.hub, 0x1800, 4, 8, [⟨0, 1, .ro, .w, 0⟩, ⟨1, 1, .ro, .c, 0⟩, ⟨2, 8, .ro, .w, 0⟩, ⟨10, 1, .ro, .w, 0⟩]⟩,
   /- HUB_POISON -/
    ⟨.hub, 0x2000, 256, 8, [⟨0, 28, .ro, .c, 0⟩, ⟨28, 2, .ro, .c, 0⟩, ⟨30, 1, .ro, .c, 0⟩, ⟨63, 1, .ro, .c, 0⟩]⟩]

/-- The registers of block `lnk` (12_orchard.md R414). -/
def regMapLnk : List RegDesc :=
  [/- LNK_STS -/
    ⟨.lnk, 0x0, 1, 8, [⟨0, 1, .rc, .f, 0⟩, ⟨1, 1, .rc, .f, 0⟩, ⟨2, 1, .rc, .f, 0⟩, ⟨3, 1, .rc, .f, 0⟩, ⟨4, 1, .rc, .f, 0⟩, ⟨5, 1, .rc, .f, 0⟩, ⟨6, 1, .rc, .f, 0⟩]⟩,
   /- LNK_INT_EN -/
    ⟨.lnk, 0x8, 1, 8, [⟨0, 1, .rw, .f, 0⟩, ⟨1, 1, .rw, .f, 0⟩, ⟨2, 1, .rw, .f, 0⟩, ⟨3, 1, .rw, .f, 0⟩, ⟨4, 1, .rw, .f, 0⟩, ⟨5, 1, .rw, .f, 0⟩, ⟨6, 1, .rw, .f, 0⟩]⟩,
   /- LNK_ERR_FIRST -/
    ⟨.lnk, 0x10, 1, 8, [⟨0, 2, .rc, .f, 0⟩, ⟨2, 3, .rc, .f, 0⟩, ⟨5, 5, .rc, .f, 0⟩, ⟨10, 3, .rc, .f, 0⟩, ⟨31, 32, .rc, .f, 0⟩, ⟨63, 1, .rc, .f, 0⟩]⟩,
   /- LNK_STATE -/
    ⟨.lnk, 0x100, 4, 8, [⟨0, 2, .ro, .w, 0⟩, ⟨2, 1, .ro, .w, 0⟩, ⟨3, 1, .ro, .c, 0⟩, ⟨4, 1, .ro, .c, 0⟩, ⟨5, 8, .ro, .w, 0⟩, ⟨13, 16, .ro, .w, 0⟩, ⟨29, 4, .ro, .w, 0⟩, ⟨33, 1, .ro, .j, 0⟩, ⟨34, 1, .ro, .j, 0⟩]⟩,
   /- LNK_CNT_A -/
    ⟨.lnk, 0x200, 4, 16, [⟨0, 40, .ro, .w, 0⟩, ⟨40, 24, .ro, .w, 0⟩]⟩,
   /- LNK_CNT_B -/
    ⟨.lnk, 0x208, 4, 16, [⟨0, 24, .ro, .w, 0⟩, ⟨24, 20, .ro, .w, 0⟩, ⟨44, 12, .ro, .w, 0⟩, ⟨56, 8, .ro, .c, 0⟩]⟩]

/-- The registers of block `slv` (08_crackers.md R269). -/
def regMapSlv : List RegDesc :=
  [/- SLV_STS -/
    ⟨.slv, 0x0, 1, 8, [⟨0, 1, .rc, .f, 0⟩, ⟨1, 1, .rc, .f, 0⟩, ⟨2, 1, .rc, .f, 0⟩, ⟨3, 1, .rc, .f, 0⟩, ⟨4, 1, .rc, .f, 0⟩, ⟨5, 1, .rc, .f, 0⟩, ⟨6, 1, .rc, .f, 0⟩, ⟨7, 1, .rc, .f, 0⟩, ⟨8, 1, .rc, .f, 0⟩, ⟨9, 1, .rc, .f, 0⟩]⟩,
   /- SLV_INT_EN -/
    ⟨.slv, 0x8, 1, 8, [⟨0, 1, .ro, .f, 1⟩, ⟨1, 1, .rw, .f, 0⟩, ⟨2, 1, .rw, .f, 0⟩, ⟨3, 1, .rw, .f, 0⟩, ⟨4, 1, .rw, .f, 0⟩, ⟨5, 1, .rw, .f, 0⟩, ⟨6, 1, .rw, .f, 0⟩, ⟨7, 1, .rw, .f, 0⟩, ⟨8, 1, .rw, .f, 0⟩, ⟨9, 1, .rw, .f, 0⟩]⟩,
   /- SLV_EVT_FIRST -/
    ⟨.slv, 0x10, 1, 8, [⟨0, 20, .rc, .f, 0⟩, ⟨20, 12, .rc, .f, 0⟩, ⟨32, 8, .rc, .f, 0⟩, ⟨40, 4, .rc, .f, 0⟩, ⟨44, 3, .rc, .f, 0⟩, ⟨47, 16, .rc, .f, 0⟩, ⟨63, 1, .rc, .f, 0⟩]⟩,
   /- SLV_EVT_RESID -/
    ⟨.slv, 0x18, 1, 8, [⟨0, 32, .rc, .f, 0⟩, ⟨32, 12, .rc, .f, 0⟩, ⟨44, 12, .rc, .f, 0⟩, ⟨63, 1, .rc, .f, 0⟩]⟩,
   /- SLV_PIVOT_PTR -/
    ⟨.slv, 0x20, 1, 8, [⟨0, 5, .ro, .f, 0⟩, ⟨5, 16, .ro, .f, 0⟩, ⟨21, 1, .w1p, .f, 0⟩]⟩,
   /- SLV_PIVOT_LOG -/
    ⟨.slv, 0x40, 16, 8, [⟨0, 20, .ro, .f, 0⟩, ⟨20, 12, .ro, .f, 0⟩, ⟨32, 11, .ro, .f, 0⟩, ⟨43, 3, .ro, .f, 0⟩, ⟨46, 1, .ro, .f, 0⟩, ⟨47, 16, .ro, .f, 0⟩, ⟨63, 1, .ro, .f, 0⟩]⟩,
   /- SLV_CNT0 -/
    ⟨.slv, 0x100, 1, 8, [⟨0, 32, .ro, .w, 0⟩, ⟨32, 32, .ro, .w, 0⟩]⟩,
   /- SLV_CNT1 -/
    ⟨.slv, 0x108, 1, 8, [⟨0, 16, .ro, .w, 0⟩, ⟨16, 16, .ro, .w, 0⟩, ⟨32, 16, .ro, .w, 0⟩, ⟨48, 16, .ro, .w, 0⟩]⟩,
   /- SLV_CNT2 -/
    ⟨.slv, 0x110, 1, 8, [⟨0, 24, .ro, .w, 0⟩, ⟨24, 24, .ro, .w, 0⟩, ⟨48, 16, .ro, .w, 0⟩]⟩,
   /- SLV_CNT3 -/
    ⟨.slv, 0x118, 1, 8, [⟨0, 40, .ro, .w, 0⟩, ⟨40, 8, .ro, .w, 0⟩, ⟨48, 16, .ro, .w, 0⟩]⟩,
   /- SLV_CNT4 -/
    ⟨.slv, 0x120, 1, 8, [⟨0, 32, .ro, .w, 0⟩, ⟨32, 16, .ro, .w, 0⟩, ⟨48, 16, .ro, .w, 0⟩]⟩,
   /- SLV_CRK -/
    ⟨.slv, 0x200, 8, 8, [⟨0, 12, .ro, .j, 0⟩, ⟨12, 12, .ro, .j, 0⟩, ⟨24, 3, .ro, .j, 0⟩, ⟨27, 8, .ro, .j, 0⟩, ⟨35, 2, .ro, .j, 0⟩, ⟨37, 1, .ro, .j, 0⟩]⟩]

/-- The registers of block `cd` (07_curvature.md R229, 09_update_rules.md R294). -/
def regMapCd : List RegDesc :=
  [/- CD_STAT_STS -/
    ⟨.cd, 0x400, 1, 8, [⟨0, 1, .rc, .f, 0⟩, ⟨1, 1, .rc, .f, 0⟩]⟩,
   /- CD_STAT_INT_EN -/
    ⟨.cd, 0x408, 1, 8, [⟨0, 1, .rw, .f, 0⟩, ⟨1, 1, .rw, .f, 0⟩]⟩,
   /- CD_STAT_FIRST -/
    ⟨.cd, 0x410, 1, 8, [⟨0, 20, .rc, .f, 0⟩, ⟨20, 36, .rc, .f, 0⟩, ⟨56, 2, .rc, .f, 0⟩, ⟨63, 1, .rc, .f, 0⟩]⟩,
   /- CD_STAT_CNT -/
    ⟨.cd, 0x418, 1, 8, [⟨0, 32, .ro, .w, 0⟩, ⟨32, 32, .ro, .w, 0⟩]⟩,
   /- CD_UPD_STS -/
    ⟨.cd, 0x500, 1, 8, [⟨0, 1, .rc, .f, 0⟩, ⟨1, 1, .rc, .f, 0⟩, ⟨2, 1, .rc, .f, 0⟩, ⟨3, 1, .rc, .f, 0⟩]⟩,
   /- CD_UPD_INT_EN -/
    ⟨.cd, 0x508, 1, 8, [⟨0, 1, .rw, .f, 0⟩, ⟨1, 1, .rw, .f, 0⟩, ⟨2, 1, .rw, .f, 0⟩, ⟨3, 1, .rw, .f, 0⟩]⟩,
   /- CD_UPD_FIRST -/
    ⟨.cd, 0x510, 1, 8, [⟨0, 20, .rc, .f, 0⟩, ⟨20, 36, .rc, .f, 0⟩, ⟨56, 2, .rc, .f, 0⟩, ⟨58, 1, .rc, .f, 0⟩, ⟨63, 1, .rc, .f, 0⟩]⟩,
   /- CD_UPD_CNT0 -/
    ⟨.cd, 0x518, 1, 8, [⟨0, 32, .ro, .w, 0⟩, ⟨32, 32, .ro, .w, 0⟩]⟩,
   /- CD_UPD_CNT1 -/
    ⟨.cd, 0x520, 1, 8, [⟨0, 32, .ro, .w, 0⟩, ⟨32, 32, .ro, .w, 0⟩]⟩]

/-- The registers of block `tile` (04_pods.md R146, 15_faults.md R524). -/
def regMapTile : List RegDesc :=
  [/- TILE_STS -/
    ⟨.tile, 0x0, 1, 8, [⟨0, 1, .rc, .f, 0⟩, ⟨1, 1, .rc, .f, 0⟩, ⟨2, 1, .rc, .f, 0⟩, ⟨3, 1, .rc, .f, 0⟩, ⟨4, 1, .rc, .f, 0⟩, ⟨5, 1, .rc, .f, 0⟩, ⟨6, 1, .rc, .f, 0⟩, ⟨7, 1, .rc, .f, 0⟩]⟩,
   /- TILE_INT_EN -/
    ⟨.tile, 0x8, 1, 8, [⟨0, 1, .rw, .f, 0⟩, ⟨1, 1, .rw, .f, 0⟩, ⟨2, 1, .rw, .f, 0⟩, ⟨3, 1, .rw, .f, 0⟩, ⟨4, 1, .rw, .f, 0⟩, ⟨5, 1, .rw, .f, 0⟩, ⟨6, 1, .rw, .f, 0⟩, ⟨7, 1, .rw, .f, 0⟩]⟩,
   /- TILE_EXC_FIRST -/
    ⟨.tile, 0x10, 1, 8, [⟨0, 3, .rc, .f, 0⟩, ⟨3, 4, .rc, .f, 0⟩, ⟨7, 3, .rc, .f, 0⟩, ⟨10, 8, .rc, .f, 0⟩, ⟨18, 32, .rc, .f, 0⟩, ⟨50, 9, .rc, .f, 0⟩, ⟨59, 2, .rc, .f, 0⟩, ⟨63, 1, .rc, .f, 0⟩]⟩,
   /- TILE_SEQ -/
    ⟨.tile, 0x18, 1, 8, [⟨0, 32, .ro, .j, 0⟩, ⟨32, 13, .ro, .j, 0⟩, ⟨45, 19, .ro, .w, 0⟩]⟩,
   /- TILE_SPARE -/
    ⟨.tile, 0x20, 1, 8, [⟨0, 1, .ro, .c, 0⟩, ⟨1, 1, .ro, .w, 0⟩, ⟨2, 1, .ro, .c, 0⟩, ⟨3, 15, .ro, .c, 0⟩]⟩,
   /- TILE_POD -/
    ⟨.tile, 0x28, 1, 8, [⟨0, 1, .ro, .c, 0⟩, ⟨1, 3, .ro, .c, 0⟩, ⟨4, 1, .ro, .c, 0⟩, ⟨5, 23, .ro, .w, 0⟩, ⟨28, 24, .ro, .w, 0⟩, ⟨52, 8, .ro, .c, 0⟩]⟩,
   /- TILE_SHADOW -/
    ⟨.tile, 0x30, 1, 8, [⟨0, 1, .rw, .w, 1⟩, ⟨1, 5, .rw, .w, 6⟩, ⟨6, 2, .rw, .w, 2⟩]⟩,
   /- TILE_SHADOW_CNT -/
    ⟨.tile, 0x38, 1, 8, [⟨0, 24, .ro, .w, 0⟩, ⟨24, 24, .ro, .w, 0⟩, ⟨48, 16, .ro, .w, 0⟩]⟩,
   /- TILE_PHASE_TIME -/
    ⟨.tile, 0x1000, 512, 8, [⟨0, 64, .ro, .w, 0⟩]⟩,
   /- TILE_FMT_SHARE -/
    ⟨.tile, 0x2000, 2048, 8, [⟨0, 64, .ro, .w, 0⟩]⟩]

/-- The registers of block `bench` (18_bench.md R591, 18_bench.md R592). -/
def regMapBench : List RegDesc :=
  [/- BENCH_STS -/
    ⟨.bench, 0x0, 1, 8, [⟨0, 1, .rc, .f, 0⟩, ⟨1, 1, .rc, .f, 0⟩, ⟨2, 1, .rc, .f, 0⟩]⟩,
   /- BENCH_CTL -/
    ⟨.bench, 0x8, 1, 8, [⟨0, 1, .rw, .f, 0⟩, ⟨1, 5, .rw, .f, 0⟩, ⟨6, 3, .ro, .w, 7⟩]⟩,
   /- BENCH_CMD -/
    ⟨.bench, 0x10, 1, 8, [⟨0, 4, .rw, .f, 0⟩, ⟨4, 1, .w1p, .f, 0⟩, ⟨5, 1, .ro, .f, 0⟩, ⟨6, 4, .ro, .f, 0⟩]⟩,
   /- BENCH_ARG -/
    ⟨.bench, 0x18, 1, 8, [⟨0, 64, .rw, .f, 0⟩]⟩,
   /- BENCH_MARGIN -/
    ⟨.bench, 0x20, 1, 8, [⟨0, 16, .ro, .f, 0⟩, ⟨16, 16, .ro, .f, 0⟩, ⟨32, 8, .ro, .f, 0⟩, ⟨40, 1, .ro, .f, 0⟩]⟩,
   /- FUSE_STS -/
    ⟨.bench, 0x30, 1, 8, [⟨0, 3, .ro, .k, 0⟩, ⟨3, 1, .ro, .k, 0⟩, ⟨4, 4, .ro, .k, 15⟩]⟩,
   /- FUSE_NONCE -/
    ⟨.bench, 0x40, 4, 8, [⟨0, 64, .ro, .f, 0⟩]⟩,
   /- BENCH_POD_MAP -/
    ⟨.bench, 0x1000, 80, 8, [⟨0, 4, .ro, .c, 0⟩, ⟨4, 4, .ro, .c, 1⟩, ⟨8, 4, .ro, .c, 2⟩, ⟨12, 4, .ro, .c, 3⟩, ⟨16, 4, .ro, .c, 4⟩, ⟨20, 4, .ro, .c, 5⟩, ⟨24, 4, .ro, .c, 6⟩, ⟨28, 4, .ro, .c, 7⟩, ⟨32, 9, .ro, .c, 0⟩, ⟨41, 1, .ro, .c, 1⟩, ⟨42, 4, .ro, .c, 8⟩]⟩]

/-- The registers of block `page` (15_faults.md R521). -/
def regMapPage : List RegDesc :=
  [/- ATTEND -/
    ⟨.page, 0x0, 1, 8, [⟨0, 1, .ro, .w, 0⟩, ⟨1, 1, .w1p, .w, 0⟩, ⟨2, 1, .rc, .w, 0⟩, ⟨6, 16, .ro, .w, 0⟩, ⟨22, 24, .ro, .w, 0⟩, ⟨46, 6, .ro, .w, 0⟩]⟩,
   /- ATTEND_CFG -/
    ⟨.page, 0x8, 1, 8, [⟨0, 16, .rw, .w, 50⟩]⟩,
   /- FAULT_CNT -/
    ⟨.page, 0x10, 1, 8, [⟨0, 24, .ro, .w, 0⟩, ⟨24, 24, .ro, .w, 0⟩, ⟨48, 16, .ro, .w, 0⟩]⟩,
   /- SNAP_ID -/
    ⟨.page, 0x18, 1, 8, [⟨0, 32, .ro, .w, 0⟩, ⟨32, 1, .ro, .w, 0⟩, ⟨33, 1, .ro, .w, 0⟩]⟩]

/-- The registers of one block. -/
def blockRegs : Block → List RegDesc
  | .hull => regMapHull
  | .tick => regMapTick
  | .pwr => regMapPwr
  | .hrd => regMapHrd
  | .host => regMapHost
  | .mmu => regMapMmu
  | .dma => regMapDma
  | .evq => regMapEvq
  | .hub => regMapHub
  | .lnk => regMapLnk
  | .slv => regMapSlv
  | .cd => regMapCd
  | .tile => regMapTile
  | .bench => regMapBench
  | .page => regMapPage

/-- The block that window `w` of BAR0 holds (R568). -/
def blockOfWindow (w : Nat) : Option Block :=
  match w with
  | 0 => some .hull | 1 => some .tick | 2 => some .pwr | 3 => some .hrd
  | 4 => some .host | 5 => some .mmu | 6 => some .dma | 7 => some .evq
  | _ =>
    if w < 12 then some .hub else if w < 16 then some .lnk else if w < 20 then some .slv
    else if w < 28 then some .cd else none

/-- Block and offset of a key, in the normal view (R568, R569, R521). -/
def locate (key : Nat) : Option (Block × Nat) :=
  if 0x20000000 ≤ key then some (.bench, key - 0x20000000)
  else
    let w := key / 0x1000000
    let o := key % 0x1000000
    if 20 ≤ w && w < 28 && 0x100000 ≤ o && o < 0x380000 then
      let t := (o - 0x100000) % 0x40000
      if 0x3F000 ≤ t then some (.page, t - 0x3F000) else some (.tile, t)
    else if 0x3FF000 ≤ o && o < 0x400000 then
      (if w < 28 then some (.page, o - 0x3FF000) else none)
    else (blockOfWindow w).map (fun b => (b, o))

/-- Does the description cover offset `o`? -/
def RegDesc.covers (d : RegDesc) (o : Nat) : Bool :=
  d.off ≤ o && o < d.off + d.count * d.stride && (o - d.off) % d.stride == 0

/-- The description of the register at a key; none at an offset that holds no register (R570). -/
def findReg (key : Nat) : Option RegDesc :=
  match locate key with
  | none => none
  | some (b, o) => (blockRegs b).find? (fun d => d.covers o)

/-- The reset value that a list of fields gives a register (R10). -/
def fieldsReset : List FieldDesc → Nat
  | [] => 0
  | f :: fs => f.reset * 2 ^ f.lo + fieldsReset fs

/-- The value of a register at reset; an offset that holds no register reads 0 (R570). -/
def resetOf (key : Nat) : Word64 :=
  match findReg key with
  | none => 0
  | some d => BitVec.ofNat 64 (fieldsReset d.fields)

/-- The mask of the bits of a field. -/
def fieldMask (f : FieldDesc) : Word64 := BitVec.ofNat 64 ((2 ^ f.wd - 1) * 2 ^ f.lo)

/-- TICK_CLKSRC.SRC (R67). -/
def TICK_CLKSRC_SRC : Fld := ⟨0x1000000, 0, 5, 8⟩
/-- TICK_CLKSRC.LOCKED (R67). -/
def TICK_CLKSRC_LOCKED : Fld := ⟨0x1000000, 8, 1, 8⟩
/-- TICK_CLKSRC, the whole register (R67). -/
def TICK_CLKSRC : Fld := ⟨0x1000000, 0, 64, 8⟩
/-- TICK_PERIOD.PERIOD (R67). -/
def TICK_PERIOD_PERIOD : Fld := ⟨0x1000008, 0, 40, 8⟩
/-- TICK_PERIOD, the whole register (R67). -/
def TICK_PERIOD : Fld := ⟨0x1000008, 0, 64, 8⟩
/-- TICK_COUNT.COUNT (R67). -/
def TICK_COUNT_COUNT : Fld := ⟨0x1000010, 0, 64, 8⟩
/-- TICK_COUNT, the whole register (R67). -/
def TICK_COUNT : Fld := ⟨0x1000010, 0, 64, 8⟩
/-- TICK_CYCLE.CYCLE (R67). -/
def TICK_CYCLE_CYCLE : Fld := ⟨0x1000018, 0, 40, 8⟩
/-- TICK_CYCLE, the whole register (R67). -/
def TICK_CYCLE : Fld := ⟨0x1000018, 0, 64, 8⟩
/-- TICK_PLAN.CUR (R67). -/
def TICK_PLAN_CUR : Fld := ⟨0x1000020, 0, 4, 8⟩
/-- TICK_PLAN.CUR_KIND (R67). -/
def TICK_PLAN_CUR_KIND : Fld := ⟨0x1000020, 4, 2, 8⟩
/-- TICK_PLAN.NEXT (R67). -/
def TICK_PLAN_NEXT : Fld := ⟨0x1000020, 8, 4, 8⟩
/-- TICK_PLAN.NEXT_KIND (R67). -/
def TICK_PLAN_NEXT_KIND : Fld := ⟨0x1000020, 12, 2, 8⟩
/-- TICK_PLAN.NEXT_VALID (R67). -/
def TICK_PLAN_NEXT_VALID : Fld := ⟨0x1000020, 14, 1, 8⟩
/-- TICK_PLAN.PHASE (R67). -/
def TICK_PLAN_PHASE : Fld := ⟨0x1000020, 16, 4, 8⟩
/-- TICK_PLAN, the whole register (R67). -/
def TICK_PLAN : Fld := ⟨0x1000020, 0, 64, 8⟩
/-- TICK_LEAD.LEAD (R67). -/
def TICK_LEAD_LEAD : Fld := ⟨0x1000028, 0, 24, 8⟩
/-- TICK_LEAD.PATH (R67). -/
def TICK_LEAD_PATH : Fld := ⟨0x1000028, 24, 24, 8⟩
/-- TICK_LEAD.MASTER (R67). -/
def TICK_LEAD_MASTER : Fld := ⟨0x1000028, 48, 1, 8⟩
/-- TICK_LEAD, the whole register (R67). -/
def TICK_LEAD : Fld := ⟨0x1000028, 0, 64, 8⟩
/-- TICK_ALIGN.LAST_ERR (R67). -/
def TICK_ALIGN_LAST_ERR : Fld := ⟨0x1000030, 0, 8, 8⟩
/-- TICK_ALIGN.ALIGN_FAULTS (R67). -/
def TICK_ALIGN_ALIGN_FAULTS : Fld := ⟨0x1000030, 8, 16, 8⟩
/-- TICK_ALIGN.MARKERS_LOST (R67). -/
def TICK_ALIGN_MARKERS_LOST : Fld := ⟨0x1000030, 24, 16, 8⟩
/-- TICK_ALIGN, the whole register (R67). -/
def TICK_ALIGN : Fld := ⟨0x1000030, 0, 64, 8⟩
/-- TICK_STS.FENCE_MISS (R67). -/
def TICK_STS_FENCE_MISS : Fld := ⟨0x1000038, 0, 1, 8⟩
/-- TICK_STS.DATA_FENCE_MISS (R67). -/
def TICK_STS_DATA_FENCE_MISS : Fld := ⟨0x1000038, 1, 1, 8⟩
/-- TICK_STS.ALIGN_FAULT (R67). -/
def TICK_STS_ALIGN_FAULT : Fld := ⟨0x1000038, 2, 1, 8⟩
/-- TICK_STS.MARKER_LOST (R67). -/
def TICK_STS_MARKER_LOST : Fld := ⟨0x1000038, 3, 1, 8⟩
/-- TICK_STS.TOKEN_ABSENT (R67). -/
def TICK_STS_TOKEN_ABSENT : Fld := ⟨0x1000038, 4, 1, 8⟩
/-- TICK_STS.PROMOTED (R67). -/
def TICK_STS_PROMOTED : Fld := ⟨0x1000038, 5, 1, 8⟩
/-- TICK_STS.SERVICE_REQ (R67). -/
def TICK_STS_SERVICE_REQ : Fld := ⟨0x1000038, 6, 1, 8⟩
/-- TICK_STS.FALLOW_FORCED (R67). -/
def TICK_STS_FALLOW_FORCED : Fld := ⟨0x1000038, 7, 1, 8⟩
/-- TICK_STS, the whole register (R67). -/
def TICK_STS : Fld := ⟨0x1000038, 0, 64, 8⟩
/-- TICK_INT_EN.FENCE_MISS (R67). -/
def TICK_INT_EN_FENCE_MISS : Fld := ⟨0x1000040, 0, 1, 8⟩
/-- TICK_INT_EN.DATA_FENCE_MISS (R67). -/
def TICK_INT_EN_DATA_FENCE_MISS : Fld := ⟨0x1000040, 1, 1, 8⟩
/-- TICK_INT_EN.ALIGN_FAULT (R67). -/
def TICK_INT_EN_ALIGN_FAULT : Fld := ⟨0x1000040, 2, 1, 8⟩
/-- TICK_INT_EN.MARKER_LOST (R67). -/
def TICK_INT_EN_MARKER_LOST : Fld := ⟨0x1000040, 3, 1, 8⟩
/-- TICK_INT_EN.TOKEN_ABSENT (R67). -/
def TICK_INT_EN_TOKEN_ABSENT : Fld := ⟨0x1000040, 4, 1, 8⟩
/-- TICK_INT_EN.PROMOTED (R67). -/
def TICK_INT_EN_PROMOTED : Fld := ⟨0x1000040, 5, 1, 8⟩
/-- TICK_INT_EN.SERVICE_REQ (R67). -/
def TICK_INT_EN_SERVICE_REQ : Fld := ⟨0x1000040, 6, 1, 8⟩
/-- TICK_INT_EN.FALLOW_FORCED (R67). -/
def TICK_INT_EN_FALLOW_FORCED : Fld := ⟨0x1000040, 7, 1, 8⟩
/-- TICK_INT_EN, the whole register (R67). -/
def TICK_INT_EN : Fld := ⟨0x1000040, 0, 64, 8⟩
/-- TICK_FENCE_MISS.FENCE (R67). -/
def TICK_FENCE_MISS_FENCE : Fld := ⟨0x1000048, 0, 4, 8⟩
/-- TICK_FENCE_MISS.DFENCE (R67). -/
def TICK_FENCE_MISS_DFENCE : Fld := ⟨0x1000048, 4, 10, 8⟩
/-- TICK_FENCE_MISS.IS_DATA (R67). -/
def TICK_FENCE_MISS_IS_DATA : Fld := ⟨0x1000048, 14, 1, 8⟩
/-- TICK_FENCE_MISS.PLAN (R67). -/
def TICK_FENCE_MISS_PLAN : Fld := ⟨0x1000048, 16, 4, 8⟩
/-- TICK_FENCE_MISS.SOURCE (R67). -/
def TICK_FENCE_MISS_SOURCE : Fld := ⟨0x1000048, 20, 5, 8⟩
/-- TICK_FENCE_MISS.TICK (R67). -/
def TICK_FENCE_MISS_TICK : Fld := ⟨0x1000048, 25, 32, 8⟩
/-- TICK_FENCE_MISS.VALID (R67). -/
def TICK_FENCE_MISS_VALID : Fld := ⟨0x1000048, 63, 1, 8⟩
/-- TICK_FENCE_MISS, the whole register (R67). -/
def TICK_FENCE_MISS : Fld := ⟨0x1000048, 0, 64, 8⟩
/-- TICK_CNT.FENCE_MISSES (R67). -/
def TICK_CNT_FENCE_MISSES : Fld := ⟨0x1000050, 0, 24, 8⟩
/-- TICK_CNT.SERVICE_TICKS (R67). -/
def TICK_CNT_SERVICE_TICKS : Fld := ⟨0x1000050, 24, 20, 8⟩
/-- TICK_CNT.FALLOW_TICKS (R67). -/
def TICK_CNT_FALLOW_TICKS : Fld := ⟨0x1000050, 44, 20, 8⟩
/-- TICK_CNT, the whole register (R67). -/
def TICK_CNT : Fld := ⟨0x1000050, 0, 64, 8⟩
/-- TICK_STARVE.COUNT (R67). -/
def TICK_STARVE_COUNT : Fld := ⟨0x1000100, 0, 16, 8⟩
/-- TICK_STARVE.THRESHOLD (R67). -/
def TICK_STARVE_THRESHOLD : Fld := ⟨0x1000100, 16, 16, 8⟩
/-- TICK_STARVE.QUANTUM (R67). -/
def TICK_STARVE_QUANTUM : Fld := ⟨0x1000100, 32, 16, 8⟩
/-- TICK_STARVE.PROMOTIONS (R67). -/
def TICK_STARVE_PROMOTIONS : Fld := ⟨0x1000100, 48, 16, 8⟩
/-- TICK_STARVE, the whole register (R67). -/
def TICK_STARVE : Fld := ⟨0x1000100, 0, 64, 8⟩
/-- TILE_STS.INVALID (R146). -/
def TILE_STS_INVALID : Fld := ⟨0x14100000, 0, 1, 8⟩
/-- TILE_STS.FMT_MISMATCH (R146). -/
def TILE_STS_FMT_MISMATCH : Fld := ⟨0x14100000, 1, 1, 8⟩
/-- TILE_STS.STREAM_FAULT (R146). -/
def TILE_STS_STREAM_FAULT : Fld := ⟨0x14100000, 2, 1, 8⟩
/-- TILE_STS.LATE_ISSUE (R146). -/
def TILE_STS_LATE_ISSUE : Fld := ⟨0x14100000, 3, 1, 8⟩
/-- TILE_STS.CHAIN_MISSING (R146). -/
def TILE_STS_CHAIN_MISSING : Fld := ⟨0x14100000, 4, 1, 8⟩
/-- TILE_STS.SPARE_TAKEN (R146). -/
def TILE_STS_SPARE_TAKEN : Fld := ⟨0x14100000, 5, 1, 8⟩
/-- TILE_STS.SPARE_EXHAUSTED (R146). -/
def TILE_STS_SPARE_EXHAUSTED : Fld := ⟨0x14100000, 6, 1, 8⟩
/-- TILE_STS.SHADOW_MISMATCH (R146). -/
def TILE_STS_SHADOW_MISMATCH : Fld := ⟨0x14100000, 7, 1, 8⟩
/-- TILE_STS, the whole register (R146). -/
def TILE_STS : Fld := ⟨0x14100000, 0, 64, 8⟩
/-- TILE_INT_EN.INVALID (R146). -/
def TILE_INT_EN_INVALID : Fld := ⟨0x14100008, 0, 1, 8⟩
/-- TILE_INT_EN.FMT_MISMATCH (R146). -/
def TILE_INT_EN_FMT_MISMATCH : Fld := ⟨0x14100008, 1, 1, 8⟩
/-- TILE_INT_EN.STREAM_FAULT (R146). -/
def TILE_INT_EN_STREAM_FAULT : Fld := ⟨0x14100008, 2, 1, 8⟩
/-- TILE_INT_EN.LATE_ISSUE (R146). -/
def TILE_INT_EN_LATE_ISSUE : Fld := ⟨0x14100008, 3, 1, 8⟩
/-- TILE_INT_EN.CHAIN_MISSING (R146). -/
def TILE_INT_EN_CHAIN_MISSING : Fld := ⟨0x14100008, 4, 1, 8⟩
/-- TILE_INT_EN.SPARE_TAKEN (R146). -/
def TILE_INT_EN_SPARE_TAKEN : Fld := ⟨0x14100008, 5, 1, 8⟩
/-- TILE_INT_EN.SPARE_EXHAUSTED (R146). -/
def TILE_INT_EN_SPARE_EXHAUSTED : Fld := ⟨0x14100008, 6, 1, 8⟩
/-- TILE_INT_EN.SHADOW_MISMATCH (R146). -/
def TILE_INT_EN_SHADOW_MISMATCH : Fld := ⟨0x14100008, 7, 1, 8⟩
/-- TILE_INT_EN, the whole register (R146). -/
def TILE_INT_EN : Fld := ⟨0x14100008, 0, 64, 8⟩
/-- TILE_EXC_FIRST.DIE (R146). -/
def TILE_EXC_FIRST_DIE : Fld := ⟨0x14100010, 0, 3, 8⟩
/-- TILE_EXC_FIRST.TILE (R146). -/
def TILE_EXC_FIRST_TILE : Fld := ⟨0x14100010, 3, 4, 8⟩
/-- TILE_EXC_FIRST.LPOD (R146). -/
def TILE_EXC_FIRST_LPOD : Fld := ⟨0x14100010, 7, 3, 8⟩
/-- TILE_EXC_FIRST.ACC (R146). -/
def TILE_EXC_FIRST_ACC : Fld := ⟨0x14100010, 10, 8, 8⟩
/-- TILE_EXC_FIRST.SEQ (R146). -/
def TILE_EXC_FIRST_SEQ : Fld := ⟨0x14100010, 18, 32, 8⟩
/-- TILE_EXC_FIRST.BLOCK (R146). -/
def TILE_EXC_FIRST_BLOCK : Fld := ⟨0x14100010, 50, 9, 8⟩
/-- TILE_EXC_FIRST.CAUSE (R146). -/
def TILE_EXC_FIRST_CAUSE : Fld := ⟨0x14100010, 59, 2, 8⟩
/-- TILE_EXC_FIRST.VALID (R146). -/
def TILE_EXC_FIRST_VALID : Fld := ⟨0x14100010, 63, 1, 8⟩
/-- TILE_EXC_FIRST, the whole register (R146). -/
def TILE_EXC_FIRST : Fld := ⟨0x14100010, 0, 64, 8⟩
/-- TILE_SEQ.LAST (R146). -/
def TILE_SEQ_LAST : Fld := ⟨0x14100018, 0, 32, 8⟩
/-- TILE_SEQ.BUF_FILL (R146). -/
def TILE_SEQ_BUF_FILL : Fld := ⟨0x14100018, 32, 13, 8⟩
/-- TILE_SEQ.REFETCHES (R146). -/
def TILE_SEQ_REFETCHES : Fld := ⟨0x14100018, 45, 19, 8⟩
/-- TILE_SEQ, the whole register (R146). -/
def TILE_SEQ : Fld := ⟨0x14100018, 0, 64, 8⟩
/-- TILE_SPARE.IN_USE (R146). -/
def TILE_SPARE_IN_USE : Fld := ⟨0x14100020, 0, 1, 8⟩
/-- TILE_SPARE.SHADOW_ACTIVE (R146). -/
def TILE_SPARE_SHADOW_ACTIVE : Fld := ⟨0x14100020, 1, 1, 8⟩
/-- TILE_SPARE.EXHAUSTED (R146). -/
def TILE_SPARE_EXHAUSTED : Fld := ⟨0x14100020, 2, 1, 8⟩
/-- TILE_SPARE.SUBSTITUTIONS (R146). -/
def TILE_SPARE_SUBSTITUTIONS : Fld := ⟨0x14100020, 3, 15, 8⟩
/-- TILE_SPARE, the whole register (R146). -/
def TILE_SPARE : Fld := ⟨0x14100020, 0, 64, 8⟩
/-- TILE_POD.UNSERVED (R524). -/
def TILE_POD_UNSERVED : Fld := ⟨0x14100028, 0, 1, 8⟩
/-- TILE_POD.LPOD (R524). -/
def TILE_POD_LPOD : Fld := ⟨0x14100028, 1, 3, 8⟩
/-- TILE_POD.SPARE_LOST (R524). -/
def TILE_POD_SPARE_LOST : Fld := ⟨0x14100028, 4, 1, 8⟩
/-- TILE_POD.POD_FAULTS (R524). -/
def TILE_POD_POD_FAULTS : Fld := ⟨0x14100028, 5, 23, 8⟩
/-- TILE_POD.ABSENT (R524). -/
def TILE_POD_ABSENT : Fld := ⟨0x14100028, 28, 24, 8⟩
/-- TILE_POD.UNSERVED_MASK (R524). -/
def TILE_POD_UNSERVED_MASK : Fld := ⟨0x14100028, 52, 8, 8⟩
/-- TILE_POD, the whole register (R524). -/
def TILE_POD : Fld := ⟨0x14100028, 0, 64, 8⟩
/-- TILE_SHADOW.EN (R524). -/
def TILE_SHADOW_EN : Fld := ⟨0x14100030, 0, 1, 8⟩
/-- TILE_SHADOW.LOG2_RATE (R524). -/
def TILE_SHADOW_LOG2_RATE : Fld := ⟨0x14100030, 1, 5, 8⟩
/-- TILE_SHADOW.MODE (R524). -/
def TILE_SHADOW_MODE : Fld := ⟨0x14100030, 6, 2, 8⟩
/-- TILE_SHADOW, the whole register (R524). -/
def TILE_SHADOW : Fld := ⟨0x14100030, 0, 64, 8⟩
/-- TILE_SHADOW_CNT.SAMPLED (R524). -/
def TILE_SHADOW_CNT_SAMPLED : Fld := ⟨0x14100038, 0, 24, 8⟩
/-- TILE_SHADOW_CNT.SKIPPED (R524). -/
def TILE_SHADOW_CNT_SKIPPED : Fld := ⟨0x14100038, 24, 24, 8⟩
/-- TILE_SHADOW_CNT.MISMATCHES (R524). -/
def TILE_SHADOW_CNT_MISMATCHES : Fld := ⟨0x14100038, 48, 16, 8⟩
/-- TILE_SHADOW_CNT, the whole register (R524). -/
def TILE_SHADOW_CNT : Fld := ⟨0x14100038, 0, 64, 8⟩
/-- TILE_PHASE_TIME.COUNT (R146). -/
def TILE_PHASE_TIME_COUNT : Fld := ⟨0x14101000, 0, 64, 8⟩
/-- TILE_PHASE_TIME, the whole register (R146). -/
def TILE_PHASE_TIME : Fld := ⟨0x14101000, 0, 64, 8⟩
/-- TILE_FMT_SHARE.COUNT (R146). -/
def TILE_FMT_SHARE_COUNT : Fld := ⟨0x14102000, 0, 64, 8⟩
/-- TILE_FMT_SHARE, the whole register (R146). -/
def TILE_FMT_SHARE : Fld := ⟨0x14102000, 0, 64, 8⟩
/-- HUB_RED_STS.ORDER_FAULT (R172). -/
def HUB_RED_STS_ORDER_FAULT : Fld := ⟨0x8000800, 0, 1, 8⟩
/-- HUB_RED_STS.NAN_GEN (R172). -/
def HUB_RED_STS_NAN_GEN : Fld := ⟨0x8000800, 1, 1, 8⟩
/-- HUB_RED_STS.SATURATED (R172). -/
def HUB_RED_STS_SATURATED : Fld := ⟨0x8000800, 2, 1, 8⟩
/-- HUB_RED_STS, the whole register (R172). -/
def HUB_RED_STS : Fld := ⟨0x8000800, 0, 64, 8⟩
/-- HUB_RED_INT_EN.ORDER_FAULT (R172). -/
def HUB_RED_INT_EN_ORDER_FAULT : Fld := ⟨0x8000808, 0, 1, 8⟩
/-- HUB_RED_INT_EN.NAN_GEN (R172). -/
def HUB_RED_INT_EN_NAN_GEN : Fld := ⟨0x8000808, 1, 1, 8⟩
/-- HUB_RED_INT_EN.SATURATED (R172). -/
def HUB_RED_INT_EN_SATURATED : Fld := ⟨0x8000808, 2, 1, 8⟩
/-- HUB_RED_INT_EN, the whole register (R172). -/
def HUB_RED_INT_EN : Fld := ⟨0x8000808, 0, 64, 8⟩
/-- HUB_RED_FIRST.PLAN (R172). -/
def HUB_RED_FIRST_PLAN : Fld := ⟨0x8000810, 0, 12, 8⟩
/-- HUB_RED_FIRST.PART (R172). -/
def HUB_RED_FIRST_PART : Fld := ⟨0x8000810, 12, 16, 8⟩
/-- HUB_RED_FIRST.STACK (R172). -/
def HUB_RED_FIRST_STACK : Fld := ⟨0x8000810, 28, 2, 8⟩
/-- HUB_RED_FIRST.CAUSE (R172). -/
def HUB_RED_FIRST_CAUSE : Fld := ⟨0x8000810, 30, 2, 8⟩
/-- HUB_RED_FIRST.TICK (R172). -/
def HUB_RED_FIRST_TICK : Fld := ⟨0x8000810, 32, 31, 8⟩
/-- HUB_RED_FIRST.VALID (R172). -/
def HUB_RED_FIRST_VALID : Fld := ⟨0x8000810, 63, 1, 8⟩
/-- HUB_RED_FIRST, the whole register (R172). -/
def HUB_RED_FIRST : Fld := ⟨0x8000810, 0, 64, 8⟩
/-- HUB_RED_CNT0.ARRIVALS (R172). -/
def HUB_RED_CNT0_ARRIVALS : Fld := ⟨0x8000818, 0, 44, 8⟩
/-- HUB_RED_CNT0.ORDER_FAULTS (R172). -/
def HUB_RED_CNT0_ORDER_FAULTS : Fld := ⟨0x8000818, 44, 20, 8⟩
/-- HUB_RED_CNT0, the whole register (R172). -/
def HUB_RED_CNT0 : Fld := ⟨0x8000818, 0, 64, 8⟩
/-- HUB_RED_CNT1.SATURATED (R172). -/
def HUB_RED_CNT1_SATURATED : Fld := ⟨0x8000820, 0, 22, 8⟩
/-- HUB_RED_CNT1.NAN_GEN (R172). -/
def HUB_RED_CNT1_NAN_GEN : Fld := ⟨0x8000820, 22, 21, 8⟩
/-- HUB_RED_CNT1.NAN_PROP (R172). -/
def HUB_RED_CNT1_NAN_PROP : Fld := ⟨0x8000820, 43, 21, 8⟩
/-- HUB_RED_CNT1, the whole register (R172). -/
def HUB_RED_CNT1 : Fld := ⟨0x8000820, 0, 64, 8⟩
/-- HUB_STS.RETRY_OVERRUN (R365). -/
def HUB_STS_RETRY_OVERRUN : Fld := ⟨0x8000000, 0, 1, 8⟩
/-- HUB_STS.WRITE_OVERRUN (R365). -/
def HUB_STS_WRITE_OVERRUN : Fld := ⟨0x8000000, 1, 1, 8⟩
/-- HUB_STS.POISON_READ (R365). -/
def HUB_STS_POISON_READ : Fld := ⟨0x8000000, 2, 1, 8⟩
/-- HUB_STS.PERSISTENT_UE (R365). -/
def HUB_STS_PERSISTENT_UE : Fld := ⟨0x8000000, 3, 1, 8⟩
/-- HUB_STS.POISON_FULL (R365). -/
def HUB_STS_POISON_FULL : Fld := ⟨0x8000000, 4, 1, 8⟩
/-- HUB_STS.SCRUB_UE (R365). -/
def HUB_STS_SCRUB_UE : Fld := ⟨0x8000000, 5, 1, 8⟩
/-- HUB_STS.LANE_RETIRED (R365). -/
def HUB_STS_LANE_RETIRED : Fld := ⟨0x8000000, 6, 1, 8⟩
/-- HUB_STS.LANE_EXHAUSTED (R365). -/
def HUB_STS_LANE_EXHAUSTED : Fld := ⟨0x8000000, 7, 1, 8⟩
/-- HUB_STS.CQ_OVERFLOW (R365). -/
def HUB_STS_CQ_OVERFLOW : Fld := ⟨0x8000000, 8, 1, 8⟩
/-- HUB_STS.SCRUB_PASS (R365). -/
def HUB_STS_SCRUB_PASS : Fld := ⟨0x8000000, 9, 1, 8⟩
/-- HUB_STS, the whole register (R365). -/
def HUB_STS : Fld := ⟨0x8000000, 0, 64, 8⟩
/-- HUB_INT_EN.RETRY_OVERRUN (R365). -/
def HUB_INT_EN_RETRY_OVERRUN : Fld := ⟨0x8000008, 0, 1, 8⟩
/-- HUB_INT_EN.WRITE_OVERRUN (R365). -/
def HUB_INT_EN_WRITE_OVERRUN : Fld := ⟨0x8000008, 1, 1, 8⟩
/-- HUB_INT_EN.POISON_READ (R365). -/
def HUB_INT_EN_POISON_READ : Fld := ⟨0x8000008, 2, 1, 8⟩
/-- HUB_INT_EN.PERSISTENT_UE (R365). -/
def HUB_INT_EN_PERSISTENT_UE : Fld := ⟨0x8000008, 3, 1, 8⟩
/-- HUB_INT_EN.POISON_FULL (R365). -/
def HUB_INT_EN_POISON_FULL : Fld := ⟨0x8000008, 4, 1, 8⟩
/-- HUB_INT_EN.SCRUB_UE (R365). -/
def HUB_INT_EN_SCRUB_UE : Fld := ⟨0x8000008, 5, 1, 8⟩
/-- HUB_INT_EN.LANE_RETIRED (R365). -/
def HUB_INT_EN_LANE_RETIRED : Fld := ⟨0x8000008, 6, 1, 8⟩
/-- HUB_INT_EN.LANE_EXHAUSTED (R365). -/
def HUB_INT_EN_LANE_EXHAUSTED : Fld := ⟨0x8000008, 7, 1, 8⟩
/-- HUB_INT_EN.CQ_OVERFLOW (R365). -/
def HUB_INT_EN_CQ_OVERFLOW : Fld := ⟨0x8000008, 8, 1, 8⟩
/-- HUB_INT_EN.SCRUB_PASS (R365). -/
def HUB_INT_EN_SCRUB_PASS : Fld := ⟨0x8000008, 9, 1, 8⟩
/-- HUB_INT_EN, the whole register (R365). -/
def HUB_INT_EN : Fld := ⟨0x8000008, 0, 64, 8⟩
/-- HUB_ERR_FIRST.STACK (R365). -/
def HUB_ERR_FIRST_STACK : Fld := ⟨0x8000010, 0, 2, 8⟩
/-- HUB_ERR_FIRST.CHANNEL (R365). -/
def HUB_ERR_FIRST_CHANNEL : Fld := ⟨0x8000010, 2, 5, 8⟩
/-- HUB_ERR_FIRST.PCH (R365). -/
def HUB_ERR_FIRST_PCH : Fld := ⟨0x8000010, 7, 1, 8⟩
/-- HUB_ERR_FIRST.CAUSE (R365). -/
def HUB_ERR_FIRST_CAUSE : Fld := ⟨0x8000010, 8, 3, 8⟩
/-- HUB_ERR_FIRST.TICK (R365). -/
def HUB_ERR_FIRST_TICK : Fld := ⟨0x8000010, 31, 32, 8⟩
/-- HUB_ERR_FIRST.VALID (R365). -/
def HUB_ERR_FIRST_VALID : Fld := ⟨0x8000010, 63, 1, 8⟩
/-- HUB_ERR_FIRST, the whole register (R365). -/
def HUB_ERR_FIRST : Fld := ⟨0x8000010, 0, 64, 8⟩
/-- HUB_ERR_ADDR.GRANULE (R365). -/
def HUB_ERR_ADDR_GRANULE : Fld := ⟨0x8000018, 0, 28, 8⟩
/-- HUB_ERR_ADDR.VALID (R365). -/
def HUB_ERR_ADDR_VALID : Fld := ⟨0x8000018, 63, 1, 8⟩
/-- HUB_ERR_ADDR, the whole register (R365). -/
def HUB_ERR_ADDR : Fld := ⟨0x8000018, 0, 64, 8⟩
/-- HUB_SCHED.LOADED (R365). -/
def HUB_SCHED_LOADED : Fld := ⟨0x8000020, 0, 1, 8⟩
/-- HUB_SCHED.ENTRIES (R365). -/
def HUB_SCHED_ENTRIES : Fld := ⟨0x8000020, 1, 32, 8⟩
/-- HUB_SCHED, the whole register (R365). -/
def HUB_SCHED : Fld := ⟨0x8000020, 0, 64, 8⟩
/-- HUB_SCRUB.CURSOR (R365). -/
def HUB_SCRUB_CURSOR : Fld := ⟨0x8000028, 0, 28, 8⟩
/-- HUB_SCRUB.STACK (R365). -/
def HUB_SCRUB_STACK : Fld := ⟨0x8000028, 28, 2, 8⟩
/-- HUB_SCRUB.PASSES (R365). -/
def HUB_SCRUB_PASSES : Fld := ⟨0x8000028, 30, 32, 8⟩
/-- HUB_SCRUB, the whole register (R365). -/
def HUB_SCRUB : Fld := ⟨0x8000028, 0, 64, 8⟩
/-- HUB_POISON_PTR.COUNT (R365). -/
def HUB_POISON_PTR_COUNT : Fld := ⟨0x8000030, 0, 9, 8⟩
/-- HUB_POISON_PTR, the whole register (R365). -/
def HUB_POISON_PTR : Fld := ⟨0x8000030, 0, 64, 8⟩
/-- HUB_CNT.RETRIES (R365). -/
def HUB_CNT_RETRIES : Fld := ⟨0x8000038, 0, 24, 8⟩
/-- HUB_CNT.OVERRUNS (R365). -/
def HUB_CNT_OVERRUNS : Fld := ⟨0x8000038, 24, 16, 8⟩
/-- HUB_CNT.POISON_READS (R365). -/
def HUB_CNT_POISON_READS : Fld := ⟨0x8000038, 40, 16, 8⟩
/-- HUB_CNT.LANES_RETIRED (R365). -/
def HUB_CNT_LANES_RETIRED : Fld := ⟨0x8000038, 56, 8, 8⟩
/-- HUB_CNT, the whole register (R365). -/
def HUB_CNT : Fld := ⟨0x8000038, 0, 64, 8⟩
/-- HUB_ECC.CORRECTED (R365). -/
def HUB_ECC_CORRECTED : Fld := ⟨0x8001000, 0, 32, 8⟩
/-- HUB_ECC.UNCORRECTABLE (R365). -/
def HUB_ECC_UNCORRECTABLE : Fld := ⟨0x8001000, 32, 16, 8⟩
/-- HUB_ECC.WRITTEN_BACK (R365). -/
def HUB_ECC_WRITTEN_BACK : Fld := ⟨0x8001000, 48, 16, 8⟩
/-- HUB_ECC, the whole register (R365). -/
def HUB_ECC : Fld := ⟨0x8001000, 0, 64, 8⟩
/-- HUB_LANE.DATA_SPARES (R365). -/
def HUB_LANE_DATA_SPARES : Fld := ⟨0x8001400, 0, 3, 8⟩
/-- HUB_LANE.CA_SPARE (R365). -/
def HUB_LANE_CA_SPARE : Fld := ⟨0x8001400, 3, 1, 8⟩
/-- HUB_LANE.EXHAUSTED (R365). -/
def HUB_LANE_EXHAUSTED : Fld := ⟨0x8001400, 4, 1, 8⟩
/-- HUB_LANE, the whole register (R365). -/
def HUB_LANE : Fld := ⟨0x8001400, 0, 64, 8⟩
/-- HUB_STACK.TRAINED (R365). -/
def HUB_STACK_TRAINED : Fld := ⟨0x8001800, 0, 1, 8⟩
/-- HUB_STACK.SELF_REFRESH (R365). -/
def HUB_STACK_SELF_REFRESH : Fld := ⟨0x8001800, 1, 1, 8⟩
/-- HUB_STACK.TEMP (R365). -/
def HUB_STACK_TEMP : Fld := ⟨0x8001800, 2, 8, 8⟩
/-- HUB_STACK.HOT (R365). -/
def HUB_STACK_HOT : Fld := ⟨0x8001800, 10, 1, 8⟩
/-- HUB_STACK, the whole register (R365). -/
def HUB_STACK : Fld := ⟨0x8001800, 0, 64, 8⟩
/-- HUB_POISON.GRANULE (R365). -/
def HUB_POISON_GRANULE : Fld := ⟨0x8002000, 0, 28, 8⟩
/-- HUB_POISON.STACK (R365). -/
def HUB_POISON_STACK : Fld := ⟨0x8002000, 28, 2, 8⟩
/-- HUB_POISON.PERSISTENT (R365). -/
def HUB_POISON_PERSISTENT : Fld := ⟨0x8002000, 30, 1, 8⟩
/-- HUB_POISON.VALID (R365). -/
def HUB_POISON_VALID : Fld := ⟨0x8002000, 63, 1, 8⟩
/-- HUB_POISON, the whole register (R365). -/
def HUB_POISON : Fld := ⟨0x8002000, 0, 64, 8⟩
/-- HULL_INGEST_STS.REFUSED (R205). -/
def HULL_INGEST_STS_REFUSED : Fld := ⟨0x300, 0, 1, 8⟩
/-- HULL_INGEST_STS.SLOT_MISSING (R205). -/
def HULL_INGEST_STS_SLOT_MISSING : Fld := ⟨0x300, 1, 1, 8⟩
/-- HULL_INGEST_STS.EMPTY_STEP (R205). -/
def HULL_INGEST_STS_EMPTY_STEP : Fld := ⟨0x300, 2, 1, 8⟩
/-- HULL_INGEST_STS, the whole register (R205). -/
def HULL_INGEST_STS : Fld := ⟨0x300, 0, 64, 8⟩
/-- HULL_INGEST_INT_EN.REFUSED (R205). -/
def HULL_INGEST_INT_EN_REFUSED : Fld := ⟨0x308, 0, 1, 8⟩
/-- HULL_INGEST_INT_EN.SLOT_MISSING (R205). -/
def HULL_INGEST_INT_EN_SLOT_MISSING : Fld := ⟨0x308, 1, 1, 8⟩
/-- HULL_INGEST_INT_EN.EMPTY_STEP (R205). -/
def HULL_INGEST_INT_EN_EMPTY_STEP : Fld := ⟨0x308, 2, 1, 8⟩
/-- HULL_INGEST_INT_EN, the whole register (R205). -/
def HULL_INGEST_INT_EN : Fld := ⟨0x308, 0, 64, 8⟩
/-- HULL_INGEST_FIRST.SLOT (R205). -/
def HULL_INGEST_FIRST_SLOT : Fld := ⟨0x310, 0, 10, 8⟩
/-- HULL_INGEST_FIRST.REASON (R205). -/
def HULL_INGEST_FIRST_REASON : Fld := ⟨0x310, 10, 3, 8⟩
/-- HULL_INGEST_FIRST.TOKENS (R205). -/
def HULL_INGEST_FIRST_TOKENS : Fld := ⟨0x310, 16, 32, 8⟩
/-- HULL_INGEST_FIRST.STEP (R205). -/
def HULL_INGEST_FIRST_STEP : Fld := ⟨0x310, 48, 15, 8⟩
/-- HULL_INGEST_FIRST.VALID (R205). -/
def HULL_INGEST_FIRST_VALID : Fld := ⟨0x310, 63, 1, 8⟩
/-- HULL_INGEST_FIRST, the whole register (R205). -/
def HULL_INGEST_FIRST : Fld := ⟨0x310, 0, 64, 8⟩
/-- HULL_INGEST_CNT.ACCEPTED (R205). -/
def HULL_INGEST_CNT_ACCEPTED : Fld := ⟨0x318, 0, 32, 8⟩
/-- HULL_INGEST_CNT.REFUSED (R205). -/
def HULL_INGEST_CNT_REFUSED : Fld := ⟨0x318, 32, 32, 8⟩
/-- HULL_INGEST_CNT, the whole register (R205). -/
def HULL_INGEST_CNT : Fld := ⟨0x318, 0, 64, 8⟩
/-- HULL_TOKENS.LOCAL (R205). -/
def HULL_TOKENS_LOCAL : Fld := ⟨0x320, 0, 32, 8⟩
/-- HULL_TOKENS, the whole register (R205). -/
def HULL_TOKENS : Fld := ⟨0x320, 0, 64, 8⟩
/-- HULL_TOKEN_SUM.SUM (R205). -/
def HULL_TOKEN_SUM_SUM : Fld := ⟨0x328, 0, 48, 8⟩
/-- HULL_TOKEN_SUM.VALID (R205). -/
def HULL_TOKEN_SUM_VALID : Fld := ⟨0x328, 48, 1, 8⟩
/-- HULL_TOKEN_SUM, the whole register (R205). -/
def HULL_TOKEN_SUM : Fld := ⟨0x328, 0, 64, 8⟩
/-- HULL_NORM.NU (R205). -/
def HULL_NORM_NU : Fld := ⟨0x330, 0, 32, 8⟩
/-- HULL_NORM.VALID (R205). -/
def HULL_NORM_VALID : Fld := ⟨0x330, 32, 1, 8⟩
/-- HULL_NORM, the whole register (R205). -/
def HULL_NORM : Fld := ⟨0x330, 0, 64, 8⟩
/-- HULL_EXPORT_STS.DONE (R294). -/
def HULL_EXPORT_STS_DONE : Fld := ⟨0x340, 0, 1, 8⟩
/-- HULL_EXPORT_STS.ABORTED (R294). -/
def HULL_EXPORT_STS_ABORTED : Fld := ⟨0x340, 1, 1, 8⟩
/-- HULL_EXPORT_STS.BUSY (R294). -/
def HULL_EXPORT_STS_BUSY : Fld := ⟨0x340, 2, 1, 8⟩
/-- HULL_EXPORT_STS, the whole register (R294). -/
def HULL_EXPORT_STS : Fld := ⟨0x340, 0, 64, 8⟩
/-- HULL_EXPORT_INT_EN.DONE (R294). -/
def HULL_EXPORT_INT_EN_DONE : Fld := ⟨0x348, 0, 1, 8⟩
/-- HULL_EXPORT_INT_EN.ABORTED (R294). -/
def HULL_EXPORT_INT_EN_ABORTED : Fld := ⟨0x348, 1, 1, 8⟩
/-- HULL_EXPORT_INT_EN.BUSY (R294). -/
def HULL_EXPORT_INT_EN_BUSY : Fld := ⟨0x348, 2, 1, 8⟩
/-- HULL_EXPORT_INT_EN, the whole register (R294). -/
def HULL_EXPORT_INT_EN : Fld := ⟨0x348, 0, 64, 8⟩
/-- HULL_EXPORT.ACTIVE (R294). -/
def HULL_EXPORT_ACTIVE : Fld := ⟨0x350, 0, 1, 8⟩
/-- HULL_EXPORT.KIND (R294). -/
def HULL_EXPORT_KIND : Fld := ⟨0x350, 1, 1, 8⟩
/-- HULL_EXPORT.STARTED (R294). -/
def HULL_EXPORT_STARTED : Fld := ⟨0x350, 2, 1, 8⟩
/-- HULL_EXPORT.DONE_4K (R294). -/
def HULL_EXPORT_DONE_4K : Fld := ⟨0x350, 8, 40, 8⟩
/-- HULL_EXPORT, the whole register (R294). -/
def HULL_EXPORT : Fld := ⟨0x350, 0, 64, 8⟩
/-- COMMIT_BANK.BANK_PARITY (R321). -/
def COMMIT_BANK_BANK_PARITY : Fld := ⟨0x400, 0, 1, 8⟩
/-- COMMIT_BANK.REPLAYS (R321). -/
def COMMIT_BANK_REPLAYS : Fld := ⟨0x400, 8, 8, 8⟩
/-- COMMIT_BANK, the whole register (R321). -/
def COMMIT_BANK : Fld := ⟨0x400, 0, 64, 8⟩
/-- COMMIT_T.T (R321). -/
def COMMIT_T_T : Fld := ⟨0x408, 0, 64, 8⟩
/-- COMMIT_T, the whole register (R321). -/
def COMMIT_T : Fld := ⟨0x408, 0, 64, 8⟩
/-- COMMIT_STEP.STEP (R321). -/
def COMMIT_STEP_STEP : Fld := ⟨0x410, 0, 64, 8⟩
/-- COMMIT_STEP, the whole register (R321). -/
def COMMIT_STEP : Fld := ⟨0x410, 0, 64, 8⟩
/-- COMMIT_STS.REPLAY (R321). -/
def COMMIT_STS_REPLAY : Fld := ⟨0x418, 0, 1, 8⟩
/-- COMMIT_STS.SKIP (R321). -/
def COMMIT_STS_SKIP : Fld := ⟨0x418, 1, 1, 8⟩
/-- COMMIT_STS.HOLD_ENTERED (R321). -/
def COMMIT_STS_HOLD_ENTERED : Fld := ⟨0x418, 2, 1, 8⟩
/-- COMMIT_STS.T_ADOPTED (R321). -/
def COMMIT_STS_T_ADOPTED : Fld := ⟨0x418, 3, 1, 8⟩
/-- COMMIT_STS.CHECKSUM (R321). -/
def COMMIT_STS_CHECKSUM : Fld := ⟨0x418, 4, 1, 8⟩
/-- COMMIT_STS.REPLAY_LIMIT (R321). -/
def COMMIT_STS_REPLAY_LIMIT : Fld := ⟨0x418, 5, 1, 8⟩
/-- COMMIT_STS.HEALTH_MISSING (R321). -/
def COMMIT_STS_HEALTH_MISSING : Fld := ⟨0x418, 6, 1, 8⟩
/-- COMMIT_STS.MISMATCH (R321). -/
def COMMIT_STS_MISMATCH : Fld := ⟨0x418, 7, 1, 8⟩
/-- COMMIT_STS.SPIKE (R321). -/
def COMMIT_STS_SPIKE : Fld := ⟨0x418, 8, 1, 8⟩
/-- COMMIT_STS.LAG_OVERRUN (R321). -/
def COMMIT_STS_LAG_OVERRUN : Fld := ⟨0x418, 9, 1, 8⟩
/-- COMMIT_STS.NOT_MASTER (R321). -/
def COMMIT_STS_NOT_MASTER : Fld := ⟨0x418, 10, 1, 8⟩
/-- COMMIT_STS, the whole register (R321). -/
def COMMIT_STS : Fld := ⟨0x418, 0, 64, 8⟩
/-- COMMIT_INT_EN.REPLAY (R321). -/
def COMMIT_INT_EN_REPLAY : Fld := ⟨0x420, 0, 1, 8⟩
/-- COMMIT_INT_EN.SKIP (R321). -/
def COMMIT_INT_EN_SKIP : Fld := ⟨0x420, 1, 1, 8⟩
/-- COMMIT_INT_EN.HOLD_ENTERED (R321). -/
def COMMIT_INT_EN_HOLD_ENTERED : Fld := ⟨0x420, 2, 1, 8⟩
/-- COMMIT_INT_EN.T_ADOPTED (R321). -/
def COMMIT_INT_EN_T_ADOPTED : Fld := ⟨0x420, 3, 1, 8⟩
/-- COMMIT_INT_EN.CHECKSUM (R321). -/
def COMMIT_INT_EN_CHECKSUM : Fld := ⟨0x420, 4, 1, 8⟩
/-- COMMIT_INT_EN.REPLAY_LIMIT (R321). -/
def COMMIT_INT_EN_REPLAY_LIMIT : Fld := ⟨0x420, 5, 1, 8⟩
/-- COMMIT_INT_EN.HEALTH_MISSING (R321). -/
def COMMIT_INT_EN_HEALTH_MISSING : Fld := ⟨0x420, 6, 1, 8⟩
/-- COMMIT_INT_EN.MISMATCH (R321). -/
def COMMIT_INT_EN_MISMATCH : Fld := ⟨0x420, 7, 1, 8⟩
/-- COMMIT_INT_EN.SPIKE (R321). -/
def COMMIT_INT_EN_SPIKE : Fld := ⟨0x420, 8, 1, 8⟩
/-- COMMIT_INT_EN.LAG_OVERRUN (R321). -/
def COMMIT_INT_EN_LAG_OVERRUN : Fld := ⟨0x420, 9, 1, 8⟩
/-- COMMIT_INT_EN.NOT_MASTER (R321). -/
def COMMIT_INT_EN_NOT_MASTER : Fld := ⟨0x420, 10, 1, 8⟩
/-- COMMIT_INT_EN, the whole register (R321). -/
def COMMIT_INT_EN : Fld := ⟨0x420, 0, 64, 8⟩
/-- COMMIT_HOLD.IN_FORCE (R321). -/
def COMMIT_HOLD_IN_FORCE : Fld := ⟨0x428, 0, 1, 8⟩
/-- COMMIT_HOLD.RELEASE (R321). -/
def COMMIT_HOLD_RELEASE : Fld := ⟨0x428, 1, 1, 8⟩
/-- COMMIT_HOLD.POLICY (R321). -/
def COMMIT_HOLD_POLICY : Fld := ⟨0x428, 2, 2, 8⟩
/-- COMMIT_HOLD.RELEASE_PENDING (R321). -/
def COMMIT_HOLD_RELEASE_PENDING : Fld := ⟨0x428, 4, 1, 8⟩
/-- COMMIT_HOLD.SINCE (R321). -/
def COMMIT_HOLD_SINCE : Fld := ⟨0x428, 8, 32, 8⟩
/-- COMMIT_HOLD, the whole register (R321). -/
def COMMIT_HOLD : Fld := ⟨0x428, 0, 64, 8⟩
/-- COMMIT_LOSS0.LAST (R321). -/
def COMMIT_LOSS0_LAST : Fld := ⟨0x430, 0, 32, 8⟩
/-- COMMIT_LOSS0.MEAN (R321). -/
def COMMIT_LOSS0_MEAN : Fld := ⟨0x430, 32, 32, 8⟩
/-- COMMIT_LOSS0, the whole register (R321). -/
def COMMIT_LOSS0 : Fld := ⟨0x430, 0, 64, 8⟩
/-- COMMIT_LOSS1.VAR (R321). -/
def COMMIT_LOSS1_VAR : Fld := ⟨0x438, 0, 32, 8⟩
/-- COMMIT_LOSS1.COUNT (R321). -/
def COMMIT_LOSS1_COUNT : Fld := ⟨0x438, 32, 32, 8⟩
/-- COMMIT_LOSS1, the whole register (R321). -/
def COMMIT_LOSS1 : Fld := ⟨0x438, 0, 64, 8⟩
/-- COMMIT_CNT0.COMMITS (R321). -/
def COMMIT_CNT0_COMMITS : Fld := ⟨0x440, 0, 32, 8⟩
/-- COMMIT_CNT0.SKIPS (R321). -/
def COMMIT_CNT0_SKIPS : Fld := ⟨0x440, 32, 32, 8⟩
/-- COMMIT_CNT0, the whole register (R321). -/
def COMMIT_CNT0 : Fld := ⟨0x440, 0, 64, 8⟩
/-- COMMIT_CNT1.REPLAYS (R321). -/
def COMMIT_CNT1_REPLAYS : Fld := ⟨0x448, 0, 24, 8⟩
/-- COMMIT_CNT1.HOLDS (R321). -/
def COMMIT_CNT1_HOLDS : Fld := ⟨0x448, 24, 16, 8⟩
/-- COMMIT_CNT1.T_ADOPTIONS (R321). -/
def COMMIT_CNT1_T_ADOPTIONS : Fld := ⟨0x448, 40, 12, 8⟩
/-- COMMIT_CNT1.CHECKSUM_MISMATCHES (R321). -/
def COMMIT_CNT1_CHECKSUM_MISMATCHES : Fld := ⟨0x448, 52, 12, 8⟩
/-- COMMIT_CNT1, the whole register (R321). -/
def COMMIT_CNT1 : Fld := ⟨0x448, 0, 64, 8⟩
/-- COMMIT_LAG.PARKED_TENSORS (R321). -/
def COMMIT_LAG_PARKED_TENSORS : Fld := ⟨0x450, 0, 20, 8⟩
/-- COMMIT_LAG.STALE_STEPS (R321). -/
def COMMIT_LAG_STALE_STEPS : Fld := ⟨0x450, 20, 20, 8⟩
/-- COMMIT_LAG.APPLIES (R321). -/
def COMMIT_LAG_APPLIES : Fld := ⟨0x450, 40, 20, 8⟩
/-- COMMIT_LAG.MAX_PARKED (R321). -/
def COMMIT_LAG_MAX_PARKED : Fld := ⟨0x450, 60, 3, 8⟩
/-- COMMIT_LAG, the whole register (R321). -/
def COMMIT_LAG : Fld := ⟨0x450, 0, 64, 8⟩
/-- HULL_SLOW_STS.PREFETCH_LATE (R366). -/
def HULL_SLOW_STS_PREFETCH_LATE : Fld := ⟨0x600, 0, 1, 8⟩
/-- HULL_SLOW_STS.EXPANDER_LOST (R366). -/
def HULL_SLOW_STS_EXPANDER_LOST : Fld := ⟨0x600, 1, 1, 8⟩
/-- HULL_SLOW_STS.LENDER_LOST (R366). -/
def HULL_SLOW_STS_LENDER_LOST : Fld := ⟨0x600, 2, 1, 8⟩
/-- HULL_SLOW_STS.TRANSFER_ERROR (R366). -/
def HULL_SLOW_STS_TRANSFER_ERROR : Fld := ⟨0x600, 3, 1, 8⟩
/-- HULL_SLOW_STS.WB_ABANDONED (R366). -/
def HULL_SLOW_STS_WB_ABANDONED : Fld := ⟨0x600, 4, 1, 8⟩
/-- HULL_SLOW_STS, the whole register (R366). -/
def HULL_SLOW_STS : Fld := ⟨0x600, 0, 64, 8⟩
/-- HULL_SLOW_INT_EN.PREFETCH_LATE (R366). -/
def HULL_SLOW_INT_EN_PREFETCH_LATE : Fld := ⟨0x608, 0, 1, 8⟩
/-- HULL_SLOW_INT_EN.EXPANDER_LOST (R366). -/
def HULL_SLOW_INT_EN_EXPANDER_LOST : Fld := ⟨0x608, 1, 1, 8⟩
/-- HULL_SLOW_INT_EN.LENDER_LOST (R366). -/
def HULL_SLOW_INT_EN_LENDER_LOST : Fld := ⟨0x608, 2, 1, 8⟩
/-- HULL_SLOW_INT_EN.TRANSFER_ERROR (R366). -/
def HULL_SLOW_INT_EN_TRANSFER_ERROR : Fld := ⟨0x608, 3, 1, 8⟩
/-- HULL_SLOW_INT_EN.WB_ABANDONED (R366). -/
def HULL_SLOW_INT_EN_WB_ABANDONED : Fld := ⟨0x608, 4, 1, 8⟩
/-- HULL_SLOW_INT_EN, the whole register (R366). -/
def HULL_SLOW_INT_EN : Fld := ⟨0x608, 0, 64, 8⟩
/-- HULL_SLOW_FIRST.TENSOR (R366). -/
def HULL_SLOW_FIRST_TENSOR : Fld := ⟨0x610, 0, 20, 8⟩
/-- HULL_SLOW_FIRST.SOURCE (R366). -/
def HULL_SLOW_FIRST_SOURCE : Fld := ⟨0x610, 20, 1, 8⟩
/-- HULL_SLOW_FIRST.UNIT (R366). -/
def HULL_SLOW_FIRST_UNIT : Fld := ⟨0x610, 21, 4, 8⟩
/-- HULL_SLOW_FIRST.CAUSE (R366). -/
def HULL_SLOW_FIRST_CAUSE : Fld := ⟨0x610, 25, 3, 8⟩
/-- HULL_SLOW_FIRST.TICK (R366). -/
def HULL_SLOW_FIRST_TICK : Fld := ⟨0x610, 31, 32, 8⟩
/-- HULL_SLOW_FIRST.VALID (R366). -/
def HULL_SLOW_FIRST_VALID : Fld := ⟨0x610, 63, 1, 8⟩
/-- HULL_SLOW_FIRST, the whole register (R366). -/
def HULL_SLOW_FIRST : Fld := ⟨0x610, 0, 64, 8⟩
/-- HULL_SLOW_CNT.LATE (R366). -/
def HULL_SLOW_CNT_LATE : Fld := ⟨0x618, 0, 24, 8⟩
/-- HULL_SLOW_CNT.WRITEBACKS (R366). -/
def HULL_SLOW_CNT_WRITEBACKS : Fld := ⟨0x618, 24, 24, 8⟩
/-- HULL_SLOW_CNT.ABANDONED (R366). -/
def HULL_SLOW_CNT_ABANDONED : Fld := ⟨0x618, 48, 16, 8⟩
/-- HULL_SLOW_CNT, the whole register (R366). -/
def HULL_SLOW_CNT : Fld := ⟨0x618, 0, 64, 8⟩
/-- HULL_SLOW_LEND.LENDER (R366). -/
def HULL_SLOW_LEND_LENDER : Fld := ⟨0x640, 0, 1, 8⟩
/-- HULL_SLOW_LEND.BORROWING (R366). -/
def HULL_SLOW_LEND_BORROWING : Fld := ⟨0x640, 1, 16, 8⟩
/-- HULL_SLOW_LEND, the whole register (R366). -/
def HULL_SLOW_LEND : Fld := ⟨0x640, 0, 64, 8⟩
/-- HULL_ORCH.MODULE (R415). -/
def HULL_ORCH_MODULE : Fld := ⟨0x700, 0, 16, 8⟩
/-- HULL_ORCH.SIZE (R415). -/
def HULL_ORCH_SIZE : Fld := ⟨0x700, 16, 17, 8⟩
/-- HULL_ORCH.MASTER (R415). -/
def HULL_ORCH_MASTER : Fld := ⟨0x700, 33, 1, 8⟩
/-- HULL_ORCH.SUBMASTER (R415). -/
def HULL_ORCH_SUBMASTER : Fld := ⟨0x700, 34, 1, 8⟩
/-- HULL_ORCH.LAYOUT (R415). -/
def HULL_ORCH_LAYOUT : Fld := ⟨0x700, 35, 4, 8⟩
/-- HULL_ORCH.DEPTH (R415). -/
def HULL_ORCH_DEPTH : Fld := ⟨0x700, 39, 8, 8⟩
/-- HULL_ORCH.REFUSE (R415). -/
def HULL_ORCH_REFUSE : Fld := ⟨0x700, 47, 3, 8⟩
/-- HULL_ORCH, the whole register (R415). -/
def HULL_ORCH : Fld := ⟨0x700, 0, 64, 8⟩
/-- HULL_ORCH_CNT.STEP_TICKS (R415). -/
def HULL_ORCH_CNT_STEP_TICKS : Fld := ⟨0x708, 0, 32, 8⟩
/-- HULL_ORCH_CNT.B_TICKS (R415). -/
def HULL_ORCH_CNT_B_TICKS : Fld := ⟨0x708, 32, 24, 8⟩
/-- HULL_ORCH_CNT.ABORTS (R415). -/
def HULL_ORCH_CNT_ABORTS : Fld := ⟨0x708, 56, 8, 8⟩
/-- HULL_ORCH_CNT, the whole register (R415). -/
def HULL_ORCH_CNT : Fld := ⟨0x708, 0, 64, 8⟩
/-- HULL_ORCH_STS.ABORT_SENT (R415). -/
def HULL_ORCH_STS_ABORT_SENT : Fld := ⟨0x710, 0, 1, 8⟩
/-- HULL_ORCH_STS.ABORT_RECEIVED (R415). -/
def HULL_ORCH_STS_ABORT_RECEIVED : Fld := ⟨0x710, 1, 1, 8⟩
/-- HULL_ORCH_STS.JOB_REFUSED (R415). -/
def HULL_ORCH_STS_JOB_REFUSED : Fld := ⟨0x710, 2, 1, 8⟩
/-- HULL_ORCH_STS, the whole register (R415). -/
def HULL_ORCH_STS : Fld := ⟨0x710, 0, 64, 8⟩
/-- HULL_ORCH_INT_EN.ABORT_SENT (R415). -/
def HULL_ORCH_INT_EN_ABORT_SENT : Fld := ⟨0x718, 0, 1, 8⟩
/-- HULL_ORCH_INT_EN.ABORT_RECEIVED (R415). -/
def HULL_ORCH_INT_EN_ABORT_RECEIVED : Fld := ⟨0x718, 1, 1, 8⟩
/-- HULL_ORCH_INT_EN.JOB_REFUSED (R415). -/
def HULL_ORCH_INT_EN_JOB_REFUSED : Fld := ⟨0x718, 2, 1, 8⟩
/-- HULL_ORCH_INT_EN, the whole register (R415). -/
def HULL_ORCH_INT_EN : Fld := ⟨0x718, 0, 64, 8⟩
/-- HULL_ORCH_ABORT.ORIGIN (R415). -/
def HULL_ORCH_ABORT_ORIGIN : Fld := ⟨0x720, 0, 16, 8⟩
/-- HULL_ORCH_ABORT.CAUSE (R415). -/
def HULL_ORCH_ABORT_CAUSE : Fld := ⟨0x720, 16, 3, 8⟩
/-- HULL_ORCH_ABORT.TICK (R415). -/
def HULL_ORCH_ABORT_TICK : Fld := ⟨0x720, 19, 32, 8⟩
/-- HULL_ORCH_ABORT.VALID (R415). -/
def HULL_ORCH_ABORT_VALID : Fld := ⟨0x720, 63, 1, 8⟩
/-- HULL_ORCH_ABORT, the whole register (R415). -/
def HULL_ORCH_ABORT : Fld := ⟨0x720, 0, 64, 8⟩
/-- HULL_MBOX.REQ_LEN (R466). -/
def HULL_MBOX_REQ_LEN : Fld := ⟨0x900, 0, 13, 8⟩
/-- HULL_MBOX.RSP_LEN (R466). -/
def HULL_MBOX_RSP_LEN : Fld := ⟨0x900, 13, 13, 8⟩
/-- HULL_MBOX.GO (R466). -/
def HULL_MBOX_GO : Fld := ⟨0x900, 26, 1, 8⟩
/-- HULL_MBOX.BUSY (R466). -/
def HULL_MBOX_BUSY : Fld := ⟨0x900, 27, 1, 8⟩
/-- HULL_MBOX.DONE (R466). -/
def HULL_MBOX_DONE : Fld := ⟨0x900, 28, 1, 8⟩
/-- HULL_MBOX.COLLISION (R466). -/
def HULL_MBOX_COLLISION : Fld := ⟨0x900, 29, 1, 8⟩
/-- HULL_MBOX, the whole register (R466). -/
def HULL_MBOX : Fld := ⟨0x900, 0, 64, 8⟩
/-- HULL_LOAD_STS.REFUSED (R487). -/
def HULL_LOAD_STS_REFUSED : Fld := ⟨0xa00, 0, 1, 8⟩
/-- HULL_LOAD_STS.LOADED (R487). -/
def HULL_LOAD_STS_LOADED : Fld := ⟨0xa00, 1, 1, 8⟩
/-- HULL_LOAD_STS, the whole register (R487). -/
def HULL_LOAD_STS : Fld := ⟨0xa00, 0, 64, 8⟩
/-- HULL_LOAD_INT_EN.REFUSED (R487). -/
def HULL_LOAD_INT_EN_REFUSED : Fld := ⟨0xa08, 0, 1, 8⟩
/-- HULL_LOAD_INT_EN.LOADED (R487). -/
def HULL_LOAD_INT_EN_LOADED : Fld := ⟨0xa08, 1, 1, 8⟩
/-- HULL_LOAD_INT_EN, the whole register (R487). -/
def HULL_LOAD_INT_EN : Fld := ⟨0xa08, 0, 64, 8⟩
/-- HULL_LOAD_FIRST.CODE (R487). -/
def HULL_LOAD_FIRST_CODE : Fld := ⟨0xa10, 0, 16, 8⟩
/-- HULL_LOAD_FIRST.TYPE (R487). -/
def HULL_LOAD_FIRST_TYPE : Fld := ⟨0xa10, 16, 8, 8⟩
/-- HULL_LOAD_FIRST.INDEX (R487). -/
def HULL_LOAD_FIRST_INDEX : Fld := ⟨0xa10, 24, 7, 8⟩
/-- HULL_LOAD_FIRST.COMMON (R487). -/
def HULL_LOAD_FIRST_COMMON : Fld := ⟨0xa10, 31, 1, 8⟩
/-- HULL_LOAD_FIRST.CLASS (R487). -/
def HULL_LOAD_FIRST_CLASS : Fld := ⟨0xa10, 32, 16, 8⟩
/-- HULL_LOAD_FIRST.CTX (R487). -/
def HULL_LOAD_FIRST_CTX : Fld := ⟨0xa10, 48, 2, 8⟩
/-- HULL_LOAD_FIRST.VALID (R487). -/
def HULL_LOAD_FIRST_VALID : Fld := ⟨0xa10, 63, 1, 8⟩
/-- HULL_LOAD_FIRST, the whole register (R487). -/
def HULL_LOAD_FIRST : Fld := ⟨0xa10, 0, 64, 8⟩
/-- HULL_LOAD_WHERE.OFFSET (R487). -/
def HULL_LOAD_WHERE_OFFSET : Fld := ⟨0xa18, 0, 40, 8⟩
/-- HULL_LOAD_WHERE.CYCLE (R487). -/
def HULL_LOAD_WHERE_CYCLE : Fld := ⟨0xa18, 40, 23, 8⟩
/-- HULL_LOAD_WHERE.VALID (R487). -/
def HULL_LOAD_WHERE_VALID : Fld := ⟨0xa18, 63, 1, 8⟩
/-- HULL_LOAD_WHERE, the whole register (R487). -/
def HULL_LOAD_WHERE : Fld := ⟨0xa18, 0, 64, 8⟩
/-- HULL_FAULT_STS.LOCKSTEP (R523). -/
def HULL_FAULT_STS_LOCKSTEP : Fld := ⟨0xb00, 0, 1, 8⟩
/-- HULL_FAULT_STS.NONFINITE (R523). -/
def HULL_FAULT_STS_NONFINITE : Fld := ⟨0xb00, 1, 1, 8⟩
/-- HULL_FAULT_STS.CAPTURE_TAKEN (R523). -/
def HULL_FAULT_STS_CAPTURE_TAKEN : Fld := ⟨0xb00, 2, 1, 8⟩
/-- HULL_FAULT_STS.CAPTURE_MISSED (R523). -/
def HULL_FAULT_STS_CAPTURE_MISSED : Fld := ⟨0xb00, 3, 1, 8⟩
/-- HULL_FAULT_STS.CAPTURE_REJECT (R523). -/
def HULL_FAULT_STS_CAPTURE_REJECT : Fld := ⟨0xb00, 4, 1, 8⟩
/-- HULL_FAULT_STS, the whole register (R523). -/
def HULL_FAULT_STS : Fld := ⟨0xb00, 0, 64, 8⟩
/-- HULL_FAULT_INT_EN.LOCKSTEP (R523). -/
def HULL_FAULT_INT_EN_LOCKSTEP : Fld := ⟨0xb08, 0, 1, 8⟩
/-- HULL_FAULT_INT_EN.NONFINITE (R523). -/
def HULL_FAULT_INT_EN_NONFINITE : Fld := ⟨0xb08, 1, 1, 8⟩
/-- HULL_FAULT_INT_EN.CAPTURE_TAKEN (R523). -/
def HULL_FAULT_INT_EN_CAPTURE_TAKEN : Fld := ⟨0xb08, 2, 1, 8⟩
/-- HULL_FAULT_INT_EN.CAPTURE_MISSED (R523). -/
def HULL_FAULT_INT_EN_CAPTURE_MISSED : Fld := ⟨0xb08, 3, 1, 8⟩
/-- HULL_FAULT_INT_EN.CAPTURE_REJECT (R523). -/
def HULL_FAULT_INT_EN_CAPTURE_REJECT : Fld := ⟨0xb08, 4, 1, 8⟩
/-- HULL_FAULT_INT_EN, the whole register (R523). -/
def HULL_FAULT_INT_EN : Fld := ⟨0xb08, 0, 64, 8⟩
/-- HULL_NF_FIRST.WINDOW (R523). -/
def HULL_NF_FIRST_WINDOW : Fld := ⟨0xb10, 0, 5, 8⟩
/-- HULL_NF_FIRST.TILE (R523). -/
def HULL_NF_FIRST_TILE : Fld := ⟨0xb10, 5, 4, 8⟩
/-- HULL_NF_FIRST.CYCLE (R523). -/
def HULL_NF_FIRST_CYCLE : Fld := ⟨0xb10, 9, 40, 8⟩
/-- HULL_NF_FIRST.TICK (R523). -/
def HULL_NF_FIRST_TICK : Fld := ⟨0xb10, 49, 14, 8⟩
/-- HULL_NF_FIRST.VALID (R523). -/
def HULL_NF_FIRST_VALID : Fld := ⟨0xb10, 63, 1, 8⟩
/-- HULL_NF_FIRST, the whole register (R523). -/
def HULL_NF_FIRST : Fld := ⟨0xb10, 0, 64, 8⟩
/-- HULL_HEALTH_CNT.NONFINITE (R523). -/
def HULL_HEALTH_CNT_NONFINITE : Fld := ⟨0xb18, 0, 24, 8⟩
/-- HULL_HEALTH_CNT.SPIKES (R523). -/
def HULL_HEALTH_CNT_SPIKES : Fld := ⟨0xb18, 24, 16, 8⟩
/-- HULL_HEALTH_CNT.LOSS_NONFINITE (R523). -/
def HULL_HEALTH_CNT_LOSS_NONFINITE : Fld := ⟨0xb18, 40, 12, 8⟩
/-- HULL_HEALTH_CNT.EMPTY_STEPS (R523). -/
def HULL_HEALTH_CNT_EMPTY_STEPS : Fld := ⟨0xb18, 52, 12, 8⟩
/-- HULL_HEALTH_CNT, the whole register (R523). -/
def HULL_HEALTH_CNT : Fld := ⟨0xb18, 0, 64, 8⟩
/-- HULL_LOCKSTEP.MISMATCHES (R523). -/
def HULL_LOCKSTEP_MISMATCHES : Fld := ⟨0xb20, 0, 16, 8⟩
/-- HULL_LOCKSTEP.LAST_CYCLE (R523). -/
def HULL_LOCKSTEP_LAST_CYCLE : Fld := ⟨0xb20, 16, 40, 8⟩
/-- HULL_LOCKSTEP, the whole register (R523). -/
def HULL_LOCKSTEP : Fld := ⟨0xb20, 0, 64, 8⟩
/-- HULL_TERMINAL.CAUSE (R523). -/
def HULL_TERMINAL_CAUSE : Fld := ⟨0xb28, 0, 3, 8⟩
/-- HULL_TERMINAL.WINDOW (R523). -/
def HULL_TERMINAL_WINDOW : Fld := ⟨0xb28, 3, 5, 8⟩
/-- HULL_TERMINAL.CYCLE (R523). -/
def HULL_TERMINAL_CYCLE : Fld := ⟨0xb28, 8, 40, 8⟩
/-- HULL_TERMINAL.VALID (R523). -/
def HULL_TERMINAL_VALID : Fld := ⟨0xb28, 63, 1, 8⟩
/-- HULL_TERMINAL, the whole register (R523). -/
def HULL_TERMINAL : Fld := ⟨0xb28, 0, 64, 8⟩
/-- HULL_CAPTURE.NOW (R523). -/
def HULL_CAPTURE_NOW : Fld := ⟨0xc00, 0, 1, 8⟩
/-- HULL_CAPTURE.ARM_EDGE (R523). -/
def HULL_CAPTURE_ARM_EDGE : Fld := ⟨0xc00, 1, 1, 8⟩
/-- HULL_CAPTURE.REARM (R523). -/
def HULL_CAPTURE_REARM : Fld := ⟨0xc00, 2, 1, 8⟩
/-- HULL_CAPTURE.DISARM (R523). -/
def HULL_CAPTURE_DISARM : Fld := ⟨0xc00, 3, 1, 8⟩
/-- HULL_CAPTURE.OFFSET (R523). -/
def HULL_CAPTURE_OFFSET : Fld := ⟨0xc00, 4, 40, 8⟩
/-- HULL_CAPTURE.EVERY (R523). -/
def HULL_CAPTURE_EVERY : Fld := ⟨0xc00, 44, 1, 8⟩
/-- HULL_CAPTURE, the whole register (R523). -/
def HULL_CAPTURE : Fld := ⟨0xc00, 0, 64, 8⟩
/-- HULL_CAPTURE_CFG.HOLD (R523). -/
def HULL_CAPTURE_CFG_HOLD : Fld := ⟨0xc08, 0, 1, 8⟩
/-- HULL_CAPTURE_CFG.FAULT_MIN (R523). -/
def HULL_CAPTURE_CFG_FAULT_MIN : Fld := ⟨0xc08, 1, 3, 8⟩
/-- HULL_CAPTURE_CFG.PIN_EN (R523). -/
def HULL_CAPTURE_CFG_PIN_EN : Fld := ⟨0xc08, 4, 1, 8⟩
/-- HULL_CAPTURE_CFG.ORCH_EN (R523). -/
def HULL_CAPTURE_CFG_ORCH_EN : Fld := ⟨0xc08, 5, 1, 8⟩
/-- HULL_CAPTURE_CFG.TRACE_A (R523). -/
def HULL_CAPTURE_CFG_TRACE_A : Fld := ⟨0xc08, 6, 1, 8⟩
/-- HULL_CAPTURE_CFG.TRACE_B (R523). -/
def HULL_CAPTURE_CFG_TRACE_B : Fld := ⟨0xc08, 7, 1, 8⟩
/-- HULL_CAPTURE_CFG.TRACE_SUBST (R523). -/
def HULL_CAPTURE_CFG_TRACE_SUBST : Fld := ⟨0xc08, 8, 1, 8⟩
/-- HULL_CAPTURE_CFG, the whole register (R523). -/
def HULL_CAPTURE_CFG : Fld := ⟨0xc08, 0, 64, 8⟩
/-- HULL_CAPTURE_ID.ID (R523). -/
def HULL_CAPTURE_ID_ID : Fld := ⟨0xc10, 0, 32, 8⟩
/-- HULL_CAPTURE_ID.SOURCES (R523). -/
def HULL_CAPTURE_ID_SOURCES : Fld := ⟨0xc10, 32, 5, 8⟩
/-- HULL_CAPTURE_ID.HELD (R523). -/
def HULL_CAPTURE_ID_HELD : Fld := ⟨0xc10, 37, 1, 8⟩
/-- HULL_CAPTURE_ID.ARMED_EDGE (R523). -/
def HULL_CAPTURE_ID_ARMED_EDGE : Fld := ⟨0xc10, 38, 1, 8⟩
/-- HULL_CAPTURE_ID.ARMED_ORCH (R523). -/
def HULL_CAPTURE_ID_ARMED_ORCH : Fld := ⟨0xc10, 39, 1, 8⟩
/-- HULL_CAPTURE_ID.MISSED (R523). -/
def HULL_CAPTURE_ID_MISSED : Fld := ⟨0xc10, 40, 16, 8⟩
/-- HULL_CAPTURE_ID, the whole register (R523). -/
def HULL_CAPTURE_ID : Fld := ⟨0xc10, 0, 64, 8⟩
/-- HULL_CAPTURE_CYC.CYCLE (R523). -/
def HULL_CAPTURE_CYC_CYCLE : Fld := ⟨0xc18, 0, 40, 8⟩
/-- HULL_CAPTURE_CYC.TICK (R523). -/
def HULL_CAPTURE_CYC_TICK : Fld := ⟨0xc18, 40, 24, 8⟩
/-- HULL_CAPTURE_CYC, the whole register (R523). -/
def HULL_CAPTURE_CYC : Fld := ⟨0xc18, 0, 64, 8⟩
/-- HULL_CAPTURE_AT0.TICK (R523). -/
def HULL_CAPTURE_AT0_TICK : Fld := ⟨0xc20, 0, 64, 8⟩
/-- HULL_CAPTURE_AT0, the whole register (R523). -/
def HULL_CAPTURE_AT0 : Fld := ⟨0xc20, 0, 64, 8⟩
/-- HULL_CAPTURE_AT1.CYCLE (R523). -/
def HULL_CAPTURE_AT1_CYCLE : Fld := ⟨0xc28, 0, 40, 8⟩
/-- HULL_CAPTURE_AT1.SEND (R523). -/
def HULL_CAPTURE_AT1_SEND : Fld := ⟨0xc28, 40, 1, 8⟩
/-- HULL_CAPTURE_AT1, the whole register (R523). -/
def HULL_CAPTURE_AT1 : Fld := ⟨0xc28, 0, 64, 8⟩
/-- HULL_ID.STEPPING (R582). -/
def HULL_ID_STEPPING : Fld := ⟨0x0, 0, 16, 8⟩
/-- HULL_ID.PRODUCT (R582). -/
def HULL_ID_PRODUCT : Fld := ⟨0x0, 16, 16, 8⟩
/-- HULL_ID.FAMILY (R582). -/
def HULL_ID_FAMILY : Fld := ⟨0x0, 32, 8, 8⟩
/-- HULL_ID.FIELD_CLOSED (R582). -/
def HULL_ID_FIELD_CLOSED : Fld := ⟨0x0, 40, 1, 8⟩
/-- HULL_ID.OWNER_ENROLLED (R582). -/
def HULL_ID_OWNER_ENROLLED : Fld := ⟨0x0, 41, 1, 8⟩
/-- HULL_ID.BENCH_PRESENT (R582). -/
def HULL_ID_BENCH_PRESENT : Fld := ⟨0x0, 42, 1, 8⟩
/-- HULL_ID, the whole register (R582). -/
def HULL_ID : Fld := ⟨0x0, 0, 64, 8⟩
/-- HULL_SERIAL.SERIAL (R582). -/
def HULL_SERIAL_SERIAL : Fld := ⟨0x8, 0, 64, 8⟩
/-- HULL_SERIAL, the whole register (R582). -/
def HULL_SERIAL : Fld := ⟨0x8, 0, 64, 8⟩
/-- HULL_ACC_STS.OFF (R583). -/
def HULL_ACC_STS_OFF : Fld := ⟨0x10, 0, 1, 8⟩
/-- HULL_ACC_STS.ALIAS (R583). -/
def HULL_ACC_STS_ALIAS : Fld := ⟨0x10, 1, 1, 8⟩
/-- HULL_ACC_STS.LOCKED (R583). -/
def HULL_ACC_STS_LOCKED : Fld := ⟨0x10, 2, 1, 8⟩
/-- HULL_ACC_STS.SIZE (R583). -/
def HULL_ACC_STS_SIZE : Fld := ⟨0x10, 3, 1, 8⟩
/-- HULL_ACC_STS.UNMAPPED (R583). -/
def HULL_ACC_STS_UNMAPPED : Fld := ⟨0x10, 4, 1, 8⟩
/-- HULL_ACC_STS.RELOAD_HELD (R583). -/
def HULL_ACC_STS_RELOAD_HELD : Fld := ⟨0x10, 5, 1, 8⟩
/-- HULL_ACC_STS, the whole register (R583). -/
def HULL_ACC_STS : Fld := ⟨0x10, 0, 64, 8⟩
/-- HULL_ACC_INT_EN.OFF (R583). -/
def HULL_ACC_INT_EN_OFF : Fld := ⟨0x18, 0, 1, 8⟩
/-- HULL_ACC_INT_EN.ALIAS (R583). -/
def HULL_ACC_INT_EN_ALIAS : Fld := ⟨0x18, 1, 1, 8⟩
/-- HULL_ACC_INT_EN.LOCKED (R583). -/
def HULL_ACC_INT_EN_LOCKED : Fld := ⟨0x18, 2, 1, 8⟩
/-- HULL_ACC_INT_EN.SIZE (R583). -/
def HULL_ACC_INT_EN_SIZE : Fld := ⟨0x18, 3, 1, 8⟩
/-- HULL_ACC_INT_EN.UNMAPPED (R583). -/
def HULL_ACC_INT_EN_UNMAPPED : Fld := ⟨0x18, 4, 1, 8⟩
/-- HULL_ACC_INT_EN.RELOAD_HELD (R583). -/
def HULL_ACC_INT_EN_RELOAD_HELD : Fld := ⟨0x18, 5, 1, 8⟩
/-- HULL_ACC_INT_EN, the whole register (R583). -/
def HULL_ACC_INT_EN : Fld := ⟨0x18, 0, 64, 8⟩
/-- HULL_ACC_FIRST.OFFSET (R583). -/
def HULL_ACC_FIRST_OFFSET : Fld := ⟨0x20, 0, 29, 8⟩
/-- HULL_ACC_FIRST.FUNCTION (R583). -/
def HULL_ACC_FIRST_FUNCTION : Fld := ⟨0x20, 29, 2, 8⟩
/-- HULL_ACC_FIRST.CAUSE (R583). -/
def HULL_ACC_FIRST_CAUSE : Fld := ⟨0x20, 31, 3, 8⟩
/-- HULL_ACC_FIRST.WRITE (R583). -/
def HULL_ACC_FIRST_WRITE : Fld := ⟨0x20, 34, 1, 8⟩
/-- HULL_ACC_FIRST.TICK (R583). -/
def HULL_ACC_FIRST_TICK : Fld := ⟨0x20, 35, 28, 8⟩
/-- HULL_ACC_FIRST.VALID (R583). -/
def HULL_ACC_FIRST_VALID : Fld := ⟨0x20, 63, 1, 8⟩
/-- HULL_ACC_FIRST, the whole register (R583). -/
def HULL_ACC_FIRST : Fld := ⟨0x20, 0, 64, 8⟩
/-- HULL_ACC_CNT.OFF (R583). -/
def HULL_ACC_CNT_OFF : Fld := ⟨0x28, 0, 24, 8⟩
/-- HULL_ACC_CNT.REFUSED (R583). -/
def HULL_ACC_CNT_REFUSED : Fld := ⟨0x28, 24, 16, 8⟩
/-- HULL_ACC_CNT.HELD (R583). -/
def HULL_ACC_CNT_HELD : Fld := ⟨0x28, 40, 16, 8⟩
/-- HULL_ACC_CNT, the whole register (R583). -/
def HULL_ACC_CNT : Fld := ⟨0x28, 0, 64, 8⟩
/-- COMMIT_TOKEN.DATA (R321). -/
def COMMIT_TOKEN_DATA : Fld := ⟨0x460, 0, 64, 8⟩
/-- COMMIT_TOKEN, the whole register (R321). -/
def COMMIT_TOKEN : Fld := ⟨0x460, 0, 64, 8⟩
/-- COMMIT_HEALTH.DATA (R321). -/
def COMMIT_HEALTH_DATA : Fld := ⟨0x480, 0, 64, 8⟩
/-- COMMIT_HEALTH, the whole register (R321). -/
def COMMIT_HEALTH : Fld := ⟨0x480, 0, 64, 8⟩
/-- HULL_SLOW_EXP.PRESENT (R366). -/
def HULL_SLOW_EXP_PRESENT : Fld := ⟨0x620, 0, 1, 8⟩
/-- HULL_SLOW_EXP.UP (R366). -/
def HULL_SLOW_EXP_UP : Fld := ⟨0x620, 1, 1, 8⟩
/-- HULL_SLOW_EXP.GEN (R366). -/
def HULL_SLOW_EXP_GEN : Fld := ⟨0x620, 2, 2, 8⟩
/-- HULL_SLOW_EXP.CAPACITY (R366). -/
def HULL_SLOW_EXP_CAPACITY : Fld := ⟨0x620, 8, 12, 8⟩
/-- HULL_SLOW_EXP, the whole register (R366). -/
def HULL_SLOW_EXP : Fld := ⟨0x620, 0, 64, 8⟩
/-- HULL_CTX.STATE (R466). -/
def HULL_CTX_STATE : Fld := ⟨0x800, 0, 2, 8⟩
/-- HULL_CTX.TRAIL (R466). -/
def HULL_CTX_TRAIL : Fld := ⟨0x800, 2, 1, 8⟩
/-- HULL_CTX.TICK (R466). -/
def HULL_CTX_TICK : Fld := ⟨0x800, 3, 32, 8⟩
/-- HULL_CTX, the whole register (R466). -/
def HULL_CTX : Fld := ⟨0x800, 0, 64, 8⟩
/-- CD_STAT_STS.NONFINITE (R229). -/
def CD_STAT_STS_NONFINITE : Fld := ⟨0x14000400, 0, 1, 8⟩
/-- CD_STAT_STS.SATURATED (R229). -/
def CD_STAT_STS_SATURATED : Fld := ⟨0x14000400, 1, 1, 8⟩
/-- CD_STAT_STS, the whole register (R229). -/
def CD_STAT_STS : Fld := ⟨0x14000400, 0, 64, 8⟩
/-- CD_STAT_INT_EN.NONFINITE (R229). -/
def CD_STAT_INT_EN_NONFINITE : Fld := ⟨0x14000408, 0, 1, 8⟩
/-- CD_STAT_INT_EN.SATURATED (R229). -/
def CD_STAT_INT_EN_SATURATED : Fld := ⟨0x14000408, 1, 1, 8⟩
/-- CD_STAT_INT_EN, the whole register (R229). -/
def CD_STAT_INT_EN : Fld := ⟨0x14000408, 0, 64, 8⟩
/-- CD_STAT_FIRST.TENSOR (R229). -/
def CD_STAT_FIRST_TENSOR : Fld := ⟨0x14000410, 0, 20, 8⟩
/-- CD_STAT_FIRST.ELEMENT (R229). -/
def CD_STAT_FIRST_ELEMENT : Fld := ⟨0x14000410, 20, 36, 8⟩
/-- CD_STAT_FIRST.CAUSE (R229). -/
def CD_STAT_FIRST_CAUSE : Fld := ⟨0x14000410, 56, 2, 8⟩
/-- CD_STAT_FIRST.VALID (R229). -/
def CD_STAT_FIRST_VALID : Fld := ⟨0x14000410, 63, 1, 8⟩
/-- CD_STAT_FIRST, the whole register (R229). -/
def CD_STAT_FIRST : Fld := ⟨0x14000410, 0, 64, 8⟩
/-- CD_STAT_CNT.NONFINITE (R229). -/
def CD_STAT_CNT_NONFINITE : Fld := ⟨0x14000418, 0, 32, 8⟩
/-- CD_STAT_CNT.SATURATED (R229). -/
def CD_STAT_CNT_SATURATED : Fld := ⟨0x14000418, 32, 32, 8⟩
/-- CD_STAT_CNT, the whole register (R229). -/
def CD_STAT_CNT : Fld := ⟨0x14000418, 0, 64, 8⟩
/-- CD_UPD_STS.NONFINITE (R294). -/
def CD_UPD_STS_NONFINITE : Fld := ⟨0x14000500, 0, 1, 8⟩
/-- CD_UPD_STS.SATURATED (R294). -/
def CD_UPD_STS_SATURATED : Fld := ⟨0x14000500, 1, 1, 8⟩
/-- CD_UPD_STS.IDENTITY (R294). -/
def CD_UPD_STS_IDENTITY : Fld := ⟨0x14000500, 2, 1, 8⟩
/-- CD_UPD_STS.GRAFT_ZERO (R294). -/
def CD_UPD_STS_GRAFT_ZERO : Fld := ⟨0x14000500, 3, 1, 8⟩
/-- CD_UPD_STS, the whole register (R294). -/
def CD_UPD_STS : Fld := ⟨0x14000500, 0, 64, 8⟩
/-- CD_UPD_INT_EN.NONFINITE (R294). -/
def CD_UPD_INT_EN_NONFINITE : Fld := ⟨0x14000508, 0, 1, 8⟩
/-- CD_UPD_INT_EN.SATURATED (R294). -/
def CD_UPD_INT_EN_SATURATED : Fld := ⟨0x14000508, 1, 1, 8⟩
/-- CD_UPD_INT_EN.IDENTITY (R294). -/
def CD_UPD_INT_EN_IDENTITY : Fld := ⟨0x14000508, 2, 1, 8⟩
/-- CD_UPD_INT_EN.GRAFT_ZERO (R294). -/
def CD_UPD_INT_EN_GRAFT_ZERO : Fld := ⟨0x14000508, 3, 1, 8⟩
/-- CD_UPD_INT_EN, the whole register (R294). -/
def CD_UPD_INT_EN : Fld := ⟨0x14000508, 0, 64, 8⟩
/-- CD_UPD_FIRST.TENSOR (R294). -/
def CD_UPD_FIRST_TENSOR : Fld := ⟨0x14000510, 0, 20, 8⟩
/-- CD_UPD_FIRST.ELEMENT (R294). -/
def CD_UPD_FIRST_ELEMENT : Fld := ⟨0x14000510, 20, 36, 8⟩
/-- CD_UPD_FIRST.CAUSE (R294). -/
def CD_UPD_FIRST_CAUSE : Fld := ⟨0x14000510, 56, 2, 8⟩
/-- CD_UPD_FIRST.ROLE (R294). -/
def CD_UPD_FIRST_ROLE : Fld := ⟨0x14000510, 58, 1, 8⟩
/-- CD_UPD_FIRST.VALID (R294). -/
def CD_UPD_FIRST_VALID : Fld := ⟨0x14000510, 63, 1, 8⟩
/-- CD_UPD_FIRST, the whole register (R294). -/
def CD_UPD_FIRST : Fld := ⟨0x14000510, 0, 64, 8⟩
/-- CD_UPD_CNT0.NONFINITE (R294). -/
def CD_UPD_CNT0_NONFINITE : Fld := ⟨0x14000518, 0, 32, 8⟩
/-- CD_UPD_CNT0.SATURATED (R294). -/
def CD_UPD_CNT0_SATURATED : Fld := ⟨0x14000518, 32, 32, 8⟩
/-- CD_UPD_CNT0, the whole register (R294). -/
def CD_UPD_CNT0 : Fld := ⟨0x14000518, 0, 64, 8⟩
/-- CD_UPD_CNT1.IDENTITY (R294). -/
def CD_UPD_CNT1_IDENTITY : Fld := ⟨0x14000520, 0, 32, 8⟩
/-- CD_UPD_CNT1.GRAFT_ZERO (R294). -/
def CD_UPD_CNT1_GRAFT_ZERO : Fld := ⟨0x14000520, 32, 32, 8⟩
/-- CD_UPD_CNT1, the whole register (R294). -/
def CD_UPD_CNT1 : Fld := ⟨0x14000520, 0, 64, 8⟩
/-- SLV_STS.DEADLINE_MISS (R269). -/
def SLV_STS_DEADLINE_MISS : Fld := ⟨0x10000000, 0, 1, 8⟩
/-- SLV_STS.REFUSED (R269). -/
def SLV_STS_REFUSED : Fld := ⟨0x10000000, 1, 1, 8⟩
/-- SLV_STS.SOFT_FAIL (R269). -/
def SLV_STS_SOFT_FAIL : Fld := ⟨0x10000000, 2, 1, 8⟩
/-- SLV_STS.NOT_STARTED (R269). -/
def SLV_STS_NOT_STARTED : Fld := ⟨0x10000000, 3, 1, 8⟩
/-- SLV_STS.BYPASS_SET (R269). -/
def SLV_STS_BYPASS_SET : Fld := ⟨0x10000000, 4, 1, 8⟩
/-- SLV_STS.STALE_LIMIT (R269). -/
def SLV_STS_STALE_LIMIT : Fld := ⟨0x10000000, 5, 1, 8⟩
/-- SLV_STS.PIVOT_FLAGGED (R269). -/
def SLV_STS_PIVOT_FLAGGED : Fld := ⟨0x10000000, 6, 1, 8⟩
/-- SLV_STS.RESCALED (R269). -/
def SLV_STS_RESCALED : Fld := ⟨0x10000000, 7, 1, 8⟩
/-- SLV_STS.PIVOT_LOG_FULL (R269). -/
def SLV_STS_PIVOT_LOG_FULL : Fld := ⟨0x10000000, 8, 1, 8⟩
/-- SLV_STS.DATAPATH_FAULT (R269). -/
def SLV_STS_DATAPATH_FAULT : Fld := ⟨0x10000000, 9, 1, 8⟩
/-- SLV_STS, the whole register (R269). -/
def SLV_STS : Fld := ⟨0x10000000, 0, 64, 8⟩
/-- SLV_INT_EN.DEADLINE_MISS (R269). -/
def SLV_INT_EN_DEADLINE_MISS : Fld := ⟨0x10000008, 0, 1, 8⟩
/-- SLV_INT_EN.REFUSED (R269). -/
def SLV_INT_EN_REFUSED : Fld := ⟨0x10000008, 1, 1, 8⟩
/-- SLV_INT_EN.SOFT_FAIL (R269). -/
def SLV_INT_EN_SOFT_FAIL : Fld := ⟨0x10000008, 2, 1, 8⟩
/-- SLV_INT_EN.NOT_STARTED (R269). -/
def SLV_INT_EN_NOT_STARTED : Fld := ⟨0x10000008, 3, 1, 8⟩
/-- SLV_INT_EN.BYPASS_SET (R269). -/
def SLV_INT_EN_BYPASS_SET : Fld := ⟨0x10000008, 4, 1, 8⟩
/-- SLV_INT_EN.STALE_LIMIT (R269). -/
def SLV_INT_EN_STALE_LIMIT : Fld := ⟨0x10000008, 5, 1, 8⟩
/-- SLV_INT_EN.PIVOT_FLAGGED (R269). -/
def SLV_INT_EN_PIVOT_FLAGGED : Fld := ⟨0x10000008, 6, 1, 8⟩
/-- SLV_INT_EN.RESCALED (R269). -/
def SLV_INT_EN_RESCALED : Fld := ⟨0x10000008, 7, 1, 8⟩
/-- SLV_INT_EN.PIVOT_LOG_FULL (R269). -/
def SLV_INT_EN_PIVOT_LOG_FULL : Fld := ⟨0x10000008, 8, 1, 8⟩
/-- SLV_INT_EN.DATAPATH_FAULT (R269). -/
def SLV_INT_EN_DATAPATH_FAULT : Fld := ⟨0x10000008, 9, 1, 8⟩
/-- SLV_INT_EN, the whole register (R269). -/
def SLV_INT_EN : Fld := ⟨0x10000008, 0, 64, 8⟩
/-- SLV_EVT_FIRST.TENSOR (R269). -/
def SLV_EVT_FIRST_TENSOR : Fld := ⟨0x10000010, 0, 20, 8⟩
/-- SLV_EVT_FIRST.BLOCK (R269). -/
def SLV_EVT_FIRST_BLOCK : Fld := ⟨0x10000010, 20, 12, 8⟩
/-- SLV_EVT_FIRST.ITERS (R269). -/
def SLV_EVT_FIRST_ITERS : Fld := ⟨0x10000010, 32, 8, 8⟩
/-- SLV_EVT_FIRST.CAUSE (R269). -/
def SLV_EVT_FIRST_CAUSE : Fld := ⟨0x10000010, 40, 4, 8⟩
/-- SLV_EVT_FIRST.CRACKER (R269). -/
def SLV_EVT_FIRST_CRACKER : Fld := ⟨0x10000010, 44, 3, 8⟩
/-- SLV_EVT_FIRST.TICK (R269). -/
def SLV_EVT_FIRST_TICK : Fld := ⟨0x10000010, 47, 16, 8⟩
/-- SLV_EVT_FIRST.VALID (R269). -/
def SLV_EVT_FIRST_VALID : Fld := ⟨0x10000010, 63, 1, 8⟩
/-- SLV_EVT_FIRST, the whole register (R269). -/
def SLV_EVT_FIRST : Fld := ⟨0x10000010, 0, 64, 8⟩
/-- SLV_EVT_RESID.RESID (R269). -/
def SLV_EVT_RESID_RESID : Fld := ⟨0x10000018, 0, 32, 8⟩
/-- SLV_EVT_RESID.JOB (R269). -/
def SLV_EVT_RESID_JOB : Fld := ⟨0x10000018, 32, 12, 8⟩
/-- SLV_EVT_RESID.ROUND (R269). -/
def SLV_EVT_RESID_ROUND : Fld := ⟨0x10000018, 44, 12, 8⟩
/-- SLV_EVT_RESID.VALID (R269). -/
def SLV_EVT_RESID_VALID : Fld := ⟨0x10000018, 63, 1, 8⟩
/-- SLV_EVT_RESID, the whole register (R269). -/
def SLV_EVT_RESID : Fld := ⟨0x10000018, 0, 64, 8⟩
/-- SLV_PIVOT_PTR.COUNT (R269). -/
def SLV_PIVOT_PTR_COUNT : Fld := ⟨0x10000020, 0, 5, 8⟩
/-- SLV_PIVOT_PTR.LOST (R269). -/
def SLV_PIVOT_PTR_LOST : Fld := ⟨0x10000020, 5, 16, 8⟩
/-- SLV_PIVOT_PTR.CLEAR (R269). -/
def SLV_PIVOT_PTR_CLEAR : Fld := ⟨0x10000020, 21, 1, 8⟩
/-- SLV_PIVOT_PTR, the whole register (R269). -/
def SLV_PIVOT_PTR : Fld := ⟨0x10000020, 0, 64, 8⟩
/-- SLV_CNT0.STARTED (R269). -/
def SLV_CNT0_STARTED : Fld := ⟨0x10000100, 0, 32, 8⟩
/-- SLV_CNT0.PUBLISHED (R269). -/
def SLV_CNT0_PUBLISHED : Fld := ⟨0x10000100, 32, 32, 8⟩
/-- SLV_CNT0, the whole register (R269). -/
def SLV_CNT0 : Fld := ⟨0x10000100, 0, 64, 8⟩
/-- SLV_CNT1.DEADLINE_MISSES (R269). -/
def SLV_CNT1_DEADLINE_MISSES : Fld := ⟨0x10000108, 0, 16, 8⟩
/-- SLV_CNT1.REFUSED (R269). -/
def SLV_CNT1_REFUSED : Fld := ⟨0x10000108, 16, 16, 8⟩
/-- SLV_CNT1.SOFT_FAILS (R269). -/
def SLV_CNT1_SOFT_FAILS : Fld := ⟨0x10000108, 32, 16, 8⟩
/-- SLV_CNT1.NOT_STARTED (R269). -/
def SLV_CNT1_NOT_STARTED : Fld := ⟨0x10000108, 48, 16, 8⟩
/-- SLV_CNT1, the whole register (R269). -/
def SLV_CNT1 : Fld := ⟨0x10000108, 0, 64, 8⟩
/-- SLV_CNT2.RESCALES (R269). -/
def SLV_CNT2_RESCALES : Fld := ⟨0x10000110, 0, 24, 8⟩
/-- SLV_CNT2.PIVOT_FLAGS (R269). -/
def SLV_CNT2_PIVOT_FLAGS : Fld := ⟨0x10000110, 24, 24, 8⟩
/-- SLV_CNT2.BYPASSES (R269). -/
def SLV_CNT2_BYPASSES : Fld := ⟨0x10000110, 48, 16, 8⟩
/-- SLV_CNT2, the whole register (R269). -/
def SLV_CNT2 : Fld := ⟨0x10000110, 0, 64, 8⟩
/-- SLV_CNT3.CONV_VANISHED (R269). -/
def SLV_CNT3_CONV_VANISHED : Fld := ⟨0x10000118, 0, 40, 8⟩
/-- SLV_CNT3.DATAPATH_FAULTS (R269). -/
def SLV_CNT3_DATAPATH_FAULTS : Fld := ⟨0x10000118, 40, 8, 8⟩
/-- SLV_CNT3.STALE_LIMITS (R269). -/
def SLV_CNT3_STALE_LIMITS : Fld := ⟨0x10000118, 48, 16, 8⟩
/-- SLV_CNT3, the whole register (R269). -/
def SLV_CNT3 : Fld := ⟨0x10000118, 0, 64, 8⟩
/-- SLV_CNT4.PUB_SATURATED (R269). -/
def SLV_CNT4_PUB_SATURATED : Fld := ⟨0x10000120, 0, 32, 8⟩
/-- SLV_CNT4.PUB_SUBNORMAL (R269). -/
def SLV_CNT4_PUB_SUBNORMAL : Fld := ⟨0x10000120, 32, 16, 8⟩
/-- SLV_CNT4.ECC_CORRECTED (R269). -/
def SLV_CNT4_ECC_CORRECTED : Fld := ⟨0x10000120, 48, 16, 8⟩
/-- SLV_CNT4, the whole register (R269). -/
def SLV_CNT4 : Fld := ⟨0x10000120, 0, 64, 8⟩
/-- SLV_PIVOT_LOG.TENSOR (R269). -/
def SLV_PIVOT_LOG_TENSOR : Fld := ⟨0x10000040, 0, 20, 8⟩
/-- SLV_PIVOT_LOG.BLOCK (R269). -/
def SLV_PIVOT_LOG_BLOCK : Fld := ⟨0x10000040, 20, 12, 8⟩
/-- SLV_PIVOT_LOG.COLUMN (R269). -/
def SLV_PIVOT_LOG_COLUMN : Fld := ⟨0x10000040, 32, 11, 8⟩
/-- SLV_PIVOT_LOG.LEVEL (R269). -/
def SLV_PIVOT_LOG_LEVEL : Fld := ⟨0x10000040, 43, 3, 8⟩
/-- SLV_PIVOT_LOG.CAUSE (R269). -/
def SLV_PIVOT_LOG_CAUSE : Fld := ⟨0x10000040, 46, 1, 8⟩
/-- SLV_PIVOT_LOG.TICK (R269). -/
def SLV_PIVOT_LOG_TICK : Fld := ⟨0x10000040, 47, 16, 8⟩
/-- SLV_PIVOT_LOG.VALID (R269). -/
def SLV_PIVOT_LOG_VALID : Fld := ⟨0x10000040, 63, 1, 8⟩
/-- SLV_PIVOT_LOG, the whole register (R269). -/
def SLV_PIVOT_LOG : Fld := ⟨0x10000040, 0, 64, 8⟩
/-- SLV_CRK.JOB (R269). -/
def SLV_CRK_JOB : Fld := ⟨0x10000200, 0, 12, 8⟩
/-- SLV_CRK.ROUND (R269). -/
def SLV_CRK_ROUND : Fld := ⟨0x10000200, 12, 12, 8⟩
/-- SLV_CRK.STAGE (R269). -/
def SLV_CRK_STAGE : Fld := ⟨0x10000200, 24, 3, 8⟩
/-- SLV_CRK.ITER (R269). -/
def SLV_CRK_ITER : Fld := ⟨0x10000200, 27, 8, 8⟩
/-- SLV_CRK.GANG (R269). -/
def SLV_CRK_GANG : Fld := ⟨0x10000200, 35, 2, 8⟩
/-- SLV_CRK.LEAD (R269). -/
def SLV_CRK_LEAD : Fld := ⟨0x10000200, 37, 1, 8⟩
/-- SLV_CRK, the whole register (R269). -/
def SLV_CRK : Fld := ⟨0x10000200, 0, 64, 8⟩
/-- LNK_STS.OVERRUN (R414). -/
def LNK_STS_OVERRUN : Fld := ⟨0xc000000, 0, 1, 8⟩
/-- LNK_STS.LANE_RETIRED (R414). -/
def LNK_STS_LANE_RETIRED : Fld := ⟨0xc000000, 1, 1, 8⟩
/-- LNK_STS.LANE_EXHAUSTED (R414). -/
def LNK_STS_LANE_EXHAUSTED : Fld := ⟨0xc000000, 2, 1, 8⟩
/-- LNK_STS.LINK_DOWN (R414). -/
def LNK_STS_LINK_DOWN : Fld := ⟨0xc000000, 3, 1, 8⟩
/-- LNK_STS.NEIGHBOUR_MISMATCH (R414). -/
def LNK_STS_NEIGHBOUR_MISMATCH : Fld := ⟨0xc000000, 4, 1, 8⟩
/-- LNK_STS.TOO_LONG (R414). -/
def LNK_STS_TOO_LONG : Fld := ⟨0xc000000, 5, 1, 8⟩
/-- LNK_STS.ABORT_SEEN (R414). -/
def LNK_STS_ABORT_SEEN : Fld := ⟨0xc000000, 6, 1, 8⟩
/-- LNK_STS, the whole register (R414). -/
def LNK_STS : Fld := ⟨0xc000000, 0, 64, 8⟩
/-- LNK_INT_EN.OVERRUN (R414). -/
def LNK_INT_EN_OVERRUN : Fld := ⟨0xc000008, 0, 1, 8⟩
/-- LNK_INT_EN.LANE_RETIRED (R414). -/
def LNK_INT_EN_LANE_RETIRED : Fld := ⟨0xc000008, 1, 1, 8⟩
/-- LNK_INT_EN.LANE_EXHAUSTED (R414). -/
def LNK_INT_EN_LANE_EXHAUSTED : Fld := ⟨0xc000008, 2, 1, 8⟩
/-- LNK_INT_EN.LINK_DOWN (R414). -/
def LNK_INT_EN_LINK_DOWN : Fld := ⟨0xc000008, 3, 1, 8⟩
/-- LNK_INT_EN.NEIGHBOUR_MISMATCH (R414). -/
def LNK_INT_EN_NEIGHBOUR_MISMATCH : Fld := ⟨0xc000008, 4, 1, 8⟩
/-- LNK_INT_EN.TOO_LONG (R414). -/
def LNK_INT_EN_TOO_LONG : Fld := ⟨0xc000008, 5, 1, 8⟩
/-- LNK_INT_EN.ABORT_SEEN (R414). -/
def LNK_INT_EN_ABORT_SEEN : Fld := ⟨0xc000008, 6, 1, 8⟩
/-- LNK_INT_EN, the whole register (R414). -/
def LNK_INT_EN : Fld := ⟨0xc000008, 0, 64, 8⟩
/-- LNK_ERR_FIRST.LINK (R414). -/
def LNK_ERR_FIRST_LINK : Fld := ⟨0xc000010, 0, 2, 8⟩
/-- LNK_ERR_FIRST.CAUSE (R414). -/
def LNK_ERR_FIRST_CAUSE : Fld := ⟨0xc000010, 2, 3, 8⟩
/-- LNK_ERR_FIRST.SLOT (R414). -/
def LNK_ERR_FIRST_SLOT : Fld := ⟨0xc000010, 5, 5, 8⟩
/-- LNK_ERR_FIRST.KIND (R414). -/
def LNK_ERR_FIRST_KIND : Fld := ⟨0xc000010, 10, 3, 8⟩
/-- LNK_ERR_FIRST.TICK (R414). -/
def LNK_ERR_FIRST_TICK : Fld := ⟨0xc000010, 31, 32, 8⟩
/-- LNK_ERR_FIRST.VALID (R414). -/
def LNK_ERR_FIRST_VALID : Fld := ⟨0xc000010, 63, 1, 8⟩
/-- LNK_ERR_FIRST, the whole register (R414). -/
def LNK_ERR_FIRST : Fld := ⟨0xc000010, 0, 64, 8⟩
/-- LNK_STATE.MODE (R414). -/
def LNK_STATE_MODE : Fld := ⟨0xc000100, 0, 2, 8⟩
/-- LNK_STATE.LEGACY (R414). -/
def LNK_STATE_LEGACY : Fld := ⟨0xc000100, 2, 1, 8⟩
/-- LNK_STATE.SPARE_RX (R414). -/
def LNK_STATE_SPARE_RX : Fld := ⟨0xc000100, 3, 1, 8⟩
/-- LNK_STATE.EXHAUSTED_RX (R414). -/
def LNK_STATE_EXHAUSTED_RX : Fld := ⟨0xc000100, 4, 1, 8⟩
/-- LNK_STATE.PROP (R414). -/
def LNK_STATE_PROP : Fld := ⟨0xc000100, 5, 8, 8⟩
/-- LNK_STATE.NEIGHBOUR (R414). -/
def LNK_STATE_NEIGHBOUR : Fld := ⟨0xc000100, 13, 16, 8⟩
/-- LNK_STATE.NEIGHBOUR_LINK (R414). -/
def LNK_STATE_NEIGHBOUR_LINK : Fld := ⟨0xc000100, 29, 4, 8⟩
/-- LNK_STATE.TREE_PARENT (R414). -/
def LNK_STATE_TREE_PARENT : Fld := ⟨0xc000100, 33, 1, 8⟩
/-- LNK_STATE.TREE_CHILD (R414). -/
def LNK_STATE_TREE_CHILD : Fld := ⟨0xc000100, 34, 1, 8⟩
/-- LNK_STATE, the whole register (R414). -/
def LNK_STATE : Fld := ⟨0xc000100, 0, 64, 8⟩
/-- LNK_CNT_A.FRAMES (R414). -/
def LNK_CNT_A_FRAMES : Fld := ⟨0xc000200, 0, 40, 16⟩
/-- LNK_CNT_A.CORRECTED (R414). -/
def LNK_CNT_A_CORRECTED : Fld := ⟨0xc000200, 40, 24, 16⟩
/-- LNK_CNT_A, the whole register (R414). -/
def LNK_CNT_A : Fld := ⟨0xc000200, 0, 64, 16⟩
/-- LNK_CNT_B.RETRANSMITS (R414). -/
def LNK_CNT_B_RETRANSMITS : Fld := ⟨0xc000208, 0, 24, 16⟩
/-- LNK_CNT_B.OVERRUNS (R414). -/
def LNK_CNT_B_OVERRUNS : Fld := ⟨0xc000208, 24, 20, 16⟩
/-- LNK_CNT_B.DOWNS (R414). -/
def LNK_CNT_B_DOWNS : Fld := ⟨0xc000208, 44, 12, 16⟩
/-- LNK_CNT_B.LANES_RETIRED (R414). -/
def LNK_CNT_B_LANES_RETIRED : Fld := ⟨0xc000208, 56, 8, 16⟩
/-- LNK_CNT_B, the whole register (R414). -/
def LNK_CNT_B : Fld := ⟨0xc000208, 0, 64, 16⟩
/-- HOST_LINK.MODE (R465). -/
def HOST_LINK_MODE : Fld := ⟨0x4000000, 0, 3, 8⟩
/-- HOST_LINK.WIDTH (R465). -/
def HOST_LINK_WIDTH : Fld := ⟨0x4000000, 3, 5, 8⟩
/-- HOST_LINK.FLIT (R465). -/
def HOST_LINK_FLIT : Fld := ⟨0x4000000, 8, 1, 8⟩
/-- HOST_LINK, the whole register (R465). -/
def HOST_LINK : Fld := ⟨0x4000000, 0, 64, 8⟩
/-- HOST_STS.HDM_CONFLICT (R465). -/
def HOST_STS_HDM_CONFLICT : Fld := ⟨0x4000008, 0, 1, 8⟩
/-- HOST_STS.AER_CORR (R465). -/
def HOST_STS_AER_CORR : Fld := ⟨0x4000008, 1, 1, 8⟩
/-- HOST_STS.AER_UNCORR (R465). -/
def HOST_STS_AER_UNCORR : Fld := ⟨0x4000008, 2, 1, 8⟩
/-- HOST_STS, the whole register (R465). -/
def HOST_STS : Fld := ⟨0x4000008, 0, 64, 8⟩
/-- HOST_INT_EN.HDM_CONFLICT (R465). -/
def HOST_INT_EN_HDM_CONFLICT : Fld := ⟨0x4000010, 0, 1, 8⟩
/-- HOST_INT_EN.AER_CORR (R465). -/
def HOST_INT_EN_AER_CORR : Fld := ⟨0x4000010, 1, 1, 8⟩
/-- HOST_INT_EN.AER_UNCORR (R465). -/
def HOST_INT_EN_AER_UNCORR : Fld := ⟨0x4000010, 2, 1, 8⟩
/-- HOST_INT_EN, the whole register (R465). -/
def HOST_INT_EN : Fld := ⟨0x4000010, 0, 64, 8⟩
/-- HOST_HDM.EN (R465). -/
def HOST_HDM_EN : Fld := ⟨0x4000040, 0, 1, 8⟩
/-- HOST_HDM.STACK (R465). -/
def HOST_HDM_STACK : Fld := ⟨0x4000040, 1, 4, 8⟩
/-- HOST_HDM.BASE (R465). -/
def HOST_HDM_BASE : Fld := ⟨0x4000040, 5, 6, 8⟩
/-- HOST_HDM, the whole register (R465). -/
def HOST_HDM : Fld := ⟨0x4000040, 0, 64, 8⟩
/-- MMU_STS.XLATE_FAULT (R465). -/
def MMU_STS_XLATE_FAULT : Fld := ⟨0x5000000, 0, 1, 8⟩
/-- MMU_STS.INVAL_HELD (R465). -/
def MMU_STS_INVAL_HELD : Fld := ⟨0x5000000, 1, 1, 8⟩
/-- MMU_STS.RING_LOST (R465). -/
def MMU_STS_RING_LOST : Fld := ⟨0x5000000, 2, 1, 8⟩
/-- MMU_STS, the whole register (R465). -/
def MMU_STS : Fld := ⟨0x5000000, 0, 64, 8⟩
/-- MMU_INT_EN.XLATE_FAULT (R465). -/
def MMU_INT_EN_XLATE_FAULT : Fld := ⟨0x5000008, 0, 1, 8⟩
/-- MMU_INT_EN.INVAL_HELD (R465). -/
def MMU_INT_EN_INVAL_HELD : Fld := ⟨0x5000008, 1, 1, 8⟩
/-- MMU_INT_EN.RING_LOST (R465). -/
def MMU_INT_EN_RING_LOST : Fld := ⟨0x5000008, 2, 1, 8⟩
/-- MMU_INT_EN, the whole register (R465). -/
def MMU_INT_EN : Fld := ⟨0x5000008, 0, 64, 8⟩
/-- MMU_FAULT_FIRST.ADDR (R465). -/
def MMU_FAULT_FIRST_ADDR : Fld := ⟨0x5000010, 0, 57, 8⟩
/-- MMU_FAULT_FIRST.CTX (R465). -/
def MMU_FAULT_FIRST_CTX : Fld := ⟨0x5000010, 57, 2, 8⟩
/-- MMU_FAULT_FIRST.CAUSE (R465). -/
def MMU_FAULT_FIRST_CAUSE : Fld := ⟨0x5000010, 59, 2, 8⟩
/-- MMU_FAULT_FIRST.VALID (R465). -/
def MMU_FAULT_FIRST_VALID : Fld := ⟨0x5000010, 63, 1, 8⟩
/-- MMU_FAULT_FIRST, the whole register (R465). -/
def MMU_FAULT_FIRST : Fld := ⟨0x5000010, 0, 64, 8⟩
/-- MMU_ATC.ENTRIES (R465). -/
def MMU_ATC_ENTRIES : Fld := ⟨0x5000018, 0, 14, 8⟩
/-- MMU_ATC.PINNED (R465). -/
def MMU_ATC_PINNED : Fld := ⟨0x5000018, 14, 12, 8⟩
/-- MMU_ATC.HOLDING (R465). -/
def MMU_ATC_HOLDING : Fld := ⟨0x5000018, 26, 1, 8⟩
/-- MMU_ATC.PRI_OUT (R465). -/
def MMU_ATC_PRI_OUT : Fld := ⟨0x5000018, 27, 10, 8⟩
/-- MMU_ATC, the whole register (R465). -/
def MMU_ATC : Fld := ⟨0x5000018, 0, 64, 8⟩
/-- MMU_ROOT.ROOT (R465). -/
def MMU_ROOT_ROOT : Fld := ⟨0x5000100, 0, 57, 8⟩
/-- MMU_ROOT.LOADED (R465). -/
def MMU_ROOT_LOADED : Fld := ⟨0x5000100, 63, 1, 8⟩
/-- MMU_ROOT, the whole register (R465). -/
def MMU_ROOT : Fld := ⟨0x5000100, 0, 64, 8⟩
/-- DMA_STS.PARKED (R465). -/
def DMA_STS_PARKED : Fld := ⟨0x6000000, 0, 1, 8⟩
/-- DMA_STS.FAULT (R465). -/
def DMA_STS_FAULT : Fld := ⟨0x6000000, 1, 1, 8⟩
/-- DMA_STS.LATE_RESPONSE (R465). -/
def DMA_STS_LATE_RESPONSE : Fld := ⟨0x6000000, 2, 1, 8⟩
/-- DMA_STS, the whole register (R465). -/
def DMA_STS : Fld := ⟨0x6000000, 0, 64, 8⟩
/-- DMA_INT_EN.PARKED (R465). -/
def DMA_INT_EN_PARKED : Fld := ⟨0x6000008, 0, 1, 8⟩
/-- DMA_INT_EN.FAULT (R465). -/
def DMA_INT_EN_FAULT : Fld := ⟨0x6000008, 1, 1, 8⟩
/-- DMA_INT_EN.LATE_RESPONSE (R465). -/
def DMA_INT_EN_LATE_RESPONSE : Fld := ⟨0x6000008, 2, 1, 8⟩
/-- DMA_INT_EN, the whole register (R465). -/
def DMA_INT_EN : Fld := ⟨0x6000008, 0, 64, 8⟩
/-- DMA_CNT.PARKS (R465). -/
def DMA_CNT_PARKS : Fld := ⟨0x6000010, 0, 32, 8⟩
/-- DMA_CNT.FAULTS (R465). -/
def DMA_CNT_FAULTS : Fld := ⟨0x6000010, 32, 16, 8⟩
/-- DMA_CNT.LATE_RESPONSES (R465). -/
def DMA_CNT_LATE_RESPONSES : Fld := ⟨0x6000010, 48, 16, 8⟩
/-- DMA_CNT, the whole register (R465). -/
def DMA_CNT : Fld := ⟨0x6000010, 0, 64, 8⟩
/-- DMA_PARK.OFFSET (R465). -/
def DMA_PARK_OFFSET : Fld := ⟨0x6000200, 0, 40, 8⟩
/-- DMA_PARK.PRG (R465). -/
def DMA_PARK_PRG : Fld := ⟨0x6000200, 40, 9, 8⟩
/-- DMA_PARK.PARKED (R465). -/
def DMA_PARK_PARKED : Fld := ⟨0x6000200, 49, 1, 8⟩
/-- DMA_PARK, the whole register (R465). -/
def DMA_PARK : Fld := ⟨0x6000200, 0, 64, 8⟩
/-- EVQ_STS.IDLE (R466). -/
def EVQ_STS_IDLE : Fld := ⟨0x7000000, 0, 4, 8⟩
/-- EVQ_STS.PTR_MISMATCH (R466). -/
def EVQ_STS_PTR_MISMATCH : Fld := ⟨0x7000000, 4, 4, 8⟩
/-- EVQ_STS.DROP (R466). -/
def EVQ_STS_DROP : Fld := ⟨0x7000000, 8, 4, 8⟩
/-- EVQ_STS.PORT_ERROR (R466). -/
def EVQ_STS_PORT_ERROR : Fld := ⟨0x7000000, 12, 1, 8⟩
/-- EVQ_STS, the whole register (R466). -/
def EVQ_STS : Fld := ⟨0x7000000, 0, 64, 8⟩
/-- EVQ_INT_EN.IDLE (R466). -/
def EVQ_INT_EN_IDLE : Fld := ⟨0x7000008, 0, 4, 8⟩
/-- EVQ_INT_EN.PTR_MISMATCH (R466). -/
def EVQ_INT_EN_PTR_MISMATCH : Fld := ⟨0x7000008, 4, 4, 8⟩
/-- EVQ_INT_EN.DROP (R466). -/
def EVQ_INT_EN_DROP : Fld := ⟨0x7000008, 8, 4, 8⟩
/-- EVQ_INT_EN.PORT_ERROR (R466). -/
def EVQ_INT_EN_PORT_ERROR : Fld := ⟨0x7000008, 12, 1, 8⟩
/-- EVQ_INT_EN, the whole register (R466). -/
def EVQ_INT_EN : Fld := ⟨0x7000008, 0, 64, 8⟩
/-- EVQ_CMD_CREDIT.FREE (R466). -/
def EVQ_CMD_CREDIT_FREE : Fld := ⟨0x7000010, 0, 11, 8⟩
/-- EVQ_CMD_CREDIT.PORT_ERRORS (R466). -/
def EVQ_CMD_CREDIT_PORT_ERRORS : Fld := ⟨0x7000010, 11, 32, 8⟩
/-- EVQ_CMD_CREDIT, the whole register (R466). -/
def EVQ_CMD_CREDIT : Fld := ⟨0x7000010, 0, 64, 8⟩
/-- EVQ_EVMASK.TICK (R466). -/
def EVQ_EVMASK_TICK : Fld := ⟨0x7000018, 0, 1, 8⟩
/-- EVQ_EVMASK, the whole register (R466). -/
def EVQ_EVMASK : Fld := ⟨0x7000018, 0, 64, 8⟩
/-- EVQ_RING.BASE (R466). -/
def EVQ_RING_BASE : Fld := ⟨0x7000100, 0, 57, 64⟩
/-- EVQ_RING, the whole register (R466). -/
def EVQ_RING : Fld := ⟨0x7000100, 0, 64, 64⟩
/-- EVQ_CFG.LOG2 (R466). -/
def EVQ_CFG_LOG2 : Fld := ⟨0x7000108, 0, 5, 64⟩
/-- EVQ_CFG.EN (R466). -/
def EVQ_CFG_EN : Fld := ⟨0x7000108, 5, 1, 64⟩
/-- EVQ_CFG.IDLE (R466). -/
def EVQ_CFG_IDLE : Fld := ⟨0x7000108, 6, 16, 64⟩
/-- EVQ_CFG.MODERATE (R466). -/
def EVQ_CFG_MODERATE : Fld := ⟨0x7000108, 22, 12, 64⟩
/-- EVQ_CFG, the whole register (R466). -/
def EVQ_CFG : Fld := ⟨0x7000108, 0, 64, 64⟩
/-- EVQ_HEAD.HEAD (R466). -/
def EVQ_HEAD_HEAD : Fld := ⟨0x7000110, 0, 20, 64⟩
/-- EVQ_HEAD, the whole register (R466). -/
def EVQ_HEAD : Fld := ⟨0x7000110, 0, 64, 64⟩
/-- EVQ_TAIL.TAIL (R466). -/
def EVQ_TAIL_TAIL : Fld := ⟨0x7000118, 0, 20, 64⟩
/-- EVQ_TAIL, the whole register (R466). -/
def EVQ_TAIL : Fld := ⟨0x7000118, 0, 64, 64⟩
/-- EVQ_LEVEL.WORDS (R466). -/
def EVQ_LEVEL_WORDS : Fld := ⟨0x7000120, 0, 15, 64⟩
/-- EVQ_LEVEL.PACKETS (R466). -/
def EVQ_LEVEL_PACKETS : Fld := ⟨0x7000120, 15, 16, 64⟩
/-- EVQ_LEVEL.DROPPED (R466). -/
def EVQ_LEVEL_DROPPED : Fld := ⟨0x7000120, 31, 32, 64⟩
/-- EVQ_LEVEL, the whole register (R466). -/
def EVQ_LEVEL : Fld := ⟨0x7000120, 0, 64, 64⟩
/-- PWR_STS.STATE_REFUSED (R563). -/
def PWR_STS_STATE_REFUSED : Fld := ⟨0x2000000, 0, 1, 8⟩
/-- PWR_STS.OVER_LIMIT (R563). -/
def PWR_STS_OVER_LIMIT : Fld := ⟨0x2000000, 1, 1, 8⟩
/-- PWR_STS.CAP_DEGRADED (R563). -/
def PWR_STS_CAP_DEGRADED : Fld := ⟨0x2000000, 2, 1, 8⟩
/-- PWR_STS.CAP_BELOW_FLOOR (R563). -/
def PWR_STS_CAP_BELOW_FLOOR : Fld := ⟨0x2000000, 3, 1, 8⟩
/-- PWR_STS.JOB_POWER (R563). -/
def PWR_STS_JOB_POWER : Fld := ⟨0x2000000, 4, 1, 8⟩
/-- PWR_STS.RECORD_DONE (R563). -/
def PWR_STS_RECORD_DONE : Fld := ⟨0x2000000, 5, 1, 8⟩
/-- PWR_STS.RECORD_FAILED (R563). -/
def PWR_STS_RECORD_FAILED : Fld := ⟨0x2000000, 6, 1, 8⟩
/-- PWR_STS.WOKE (R563). -/
def PWR_STS_WOKE : Fld := ⟨0x2000000, 7, 1, 8⟩
/-- PWR_STS, the whole register (R563). -/
def PWR_STS : Fld := ⟨0x2000000, 0, 64, 8⟩
/-- PWR_INT_EN.STATE_REFUSED (R563). -/
def PWR_INT_EN_STATE_REFUSED : Fld := ⟨0x2000008, 0, 1, 8⟩
/-- PWR_INT_EN.OVER_LIMIT (R563). -/
def PWR_INT_EN_OVER_LIMIT : Fld := ⟨0x2000008, 1, 1, 8⟩
/-- PWR_INT_EN.CAP_DEGRADED (R563). -/
def PWR_INT_EN_CAP_DEGRADED : Fld := ⟨0x2000008, 2, 1, 8⟩
/-- PWR_INT_EN.CAP_BELOW_FLOOR (R563). -/
def PWR_INT_EN_CAP_BELOW_FLOOR : Fld := ⟨0x2000008, 3, 1, 8⟩
/-- PWR_INT_EN.JOB_POWER (R563). -/
def PWR_INT_EN_JOB_POWER : Fld := ⟨0x2000008, 4, 1, 8⟩
/-- PWR_INT_EN.RECORD_DONE (R563). -/
def PWR_INT_EN_RECORD_DONE : Fld := ⟨0x2000008, 5, 1, 8⟩
/-- PWR_INT_EN.RECORD_FAILED (R563). -/
def PWR_INT_EN_RECORD_FAILED : Fld := ⟨0x2000008, 6, 1, 8⟩
/-- PWR_INT_EN.WOKE (R563). -/
def PWR_INT_EN_WOKE : Fld := ⟨0x2000008, 7, 1, 8⟩
/-- PWR_INT_EN, the whole register (R563). -/
def PWR_INT_EN : Fld := ⟨0x2000008, 0, 64, 8⟩
/-- PWR_STATE.STATE (R563). -/
def PWR_STATE_STATE : Fld := ⟨0x2000010, 0, 3, 8⟩
/-- PWR_STATE.TARGET (R563). -/
def PWR_STATE_TARGET : Fld := ⟨0x2000010, 3, 3, 8⟩
/-- PWR_STATE.GO (R563). -/
def PWR_STATE_GO : Fld := ⟨0x2000010, 6, 1, 8⟩
/-- PWR_STATE.TRANSITION (R563). -/
def PWR_STATE_TRANSITION : Fld := ⟨0x2000010, 7, 1, 8⟩
/-- PWR_STATE.ARMED (R563). -/
def PWR_STATE_ARMED : Fld := ⟨0x2000010, 8, 1, 8⟩
/-- PWR_STATE, the whole register (R563). -/
def PWR_STATE : Fld := ⟨0x2000010, 0, 64, 8⟩
/-- PWR_RESTORE_STS.KIND (R563). -/
def PWR_RESTORE_STS_KIND : Fld := ⟨0x2000018, 0, 4, 8⟩
/-- PWR_RESTORE_STS.CLEARED (R563). -/
def PWR_RESTORE_STS_CLEARED : Fld := ⟨0x2000018, 4, 4, 8⟩
/-- PWR_RESTORE_STS.TILE_LOST (R563). -/
def PWR_RESTORE_STS_TILE_LOST : Fld := ⟨0x2000018, 8, 8, 8⟩
/-- PWR_RESTORE_STS.CRACKER_LOST (R563). -/
def PWR_RESTORE_STS_CRACKER_LOST : Fld := ⟨0x2000018, 16, 4, 8⟩
/-- PWR_RESTORE_STS.HBM_LOST (R563). -/
def PWR_RESTORE_STS_HBM_LOST : Fld := ⟨0x2000018, 20, 1, 8⟩
/-- PWR_RESTORE_STS.CONTEXTS_LOST (R563). -/
def PWR_RESTORE_STS_CONTEXTS_LOST : Fld := ⟨0x2000018, 21, 1, 8⟩
/-- PWR_RESTORE_STS.POD_RETEST (R563). -/
def PWR_RESTORE_STS_POD_RETEST : Fld := ⟨0x2000018, 22, 1, 8⟩
/-- PWR_RESTORE_STS.MORE (R563). -/
def PWR_RESTORE_STS_MORE : Fld := ⟨0x2000018, 23, 1, 8⟩
/-- PWR_RESTORE_STS, the whole register (R563). -/
def PWR_RESTORE_STS : Fld := ⟨0x2000018, 0, 64, 8⟩
/-- PWR_INPUT.VIN (R563). -/
def PWR_INPUT_VIN : Fld := ⟨0x2000020, 0, 16, 8⟩
/-- PWR_INPUT.IIN (R563). -/
def PWR_INPUT_IIN : Fld := ⟨0x2000020, 16, 16, 8⟩
/-- PWR_INPUT.PIN (R563). -/
def PWR_INPUT_PIN : Fld := ⟨0x2000020, 32, 16, 8⟩
/-- PWR_INPUT.PKG (R563). -/
def PWR_INPUT_PKG : Fld := ⟨0x2000020, 48, 16, 8⟩
/-- PWR_INPUT, the whole register (R563). -/
def PWR_INPUT : Fld := ⟨0x2000020, 0, 64, 8⟩
/-- PWR_CRIT.SEQ (R563). -/
def PWR_CRIT_SEQ : Fld := ⟨0x2000028, 0, 32, 8⟩
/-- PWR_CRIT.KIND (R563). -/
def PWR_CRIT_KIND : Fld := ⟨0x2000028, 32, 3, 8⟩
/-- PWR_CRIT.MEDIUM (R563). -/
def PWR_CRIT_MEDIUM : Fld := ⟨0x2000028, 35, 1, 8⟩
/-- PWR_CRIT.TRUNCATED (R563). -/
def PWR_CRIT_TRUNCATED : Fld := ⟨0x2000028, 36, 1, 8⟩
/-- PWR_CRIT.CAUSE (R563). -/
def PWR_CRIT_CAUSE : Fld := ⟨0x2000028, 37, 3, 8⟩
/-- PWR_CRIT.VALID (R563). -/
def PWR_CRIT_VALID : Fld := ⟨0x2000028, 63, 1, 8⟩
/-- PWR_CRIT, the whole register (R563). -/
def PWR_CRIT : Fld := ⟨0x2000028, 0, 64, 8⟩
/-- PWR_CNT.OVER_LIMIT (R563). -/
def PWR_CNT_OVER_LIMIT : Fld := ⟨0x2000030, 0, 24, 8⟩
/-- PWR_CNT.WAKES (R563). -/
def PWR_CNT_WAKES : Fld := ⟨0x2000030, 24, 16, 8⟩
/-- PWR_CNT.RECORDS (R563). -/
def PWR_CNT_RECORDS : Fld := ⟨0x2000030, 40, 16, 8⟩
/-- PWR_CNT.RECORD_FAILURES (R563). -/
def PWR_CNT_RECORD_FAILURES : Fld := ⟨0x2000030, 56, 8, 8⟩
/-- PWR_CNT, the whole register (R563). -/
def PWR_CNT : Fld := ⟨0x2000030, 0, 64, 8⟩
/-- CAP_MEAS.CAP_UF (R563). -/
def CAP_MEAS_CAP_UF : Fld := ⟨0x2000200, 0, 16, 8⟩
/-- CAP_MEAS.TIME (R563). -/
def CAP_MEAS_TIME : Fld := ⟨0x2000200, 16, 16, 8⟩
/-- CAP_MEAS.DEGRADED (R563). -/
def CAP_MEAS_DEGRADED : Fld := ⟨0x2000200, 32, 1, 8⟩
/-- CAP_MEAS.BELOW_FLOOR (R563). -/
def CAP_MEAS_BELOW_FLOOR : Fld := ⟨0x2000200, 33, 1, 8⟩
/-- CAP_MEAS.OVERRIDDEN (R563). -/
def CAP_MEAS_OVERRIDDEN : Fld := ⟨0x2000200, 34, 1, 8⟩
/-- CAP_MEAS, the whole register (R563). -/
def CAP_MEAS : Fld := ⟨0x2000200, 0, 64, 8⟩
/-- CAP_CFG.OVERRIDE (R563). -/
def CAP_CFG_OVERRIDE : Fld := ⟨0x2000208, 0, 1, 8⟩
/-- CAP_CFG, the whole register (R563). -/
def CAP_CFG : Fld := ⟨0x2000208, 0, 64, 8⟩
/-- PWR_ENV_STS.COOLANT_WARN (R624). -/
def PWR_ENV_STS_COOLANT_WARN : Fld := ⟨0x2000300, 0, 1, 8⟩
/-- PWR_ENV_STS.FLOW_LOW (R624). -/
def PWR_ENV_STS_FLOW_LOW : Fld := ⟨0x2000300, 1, 1, 8⟩
/-- PWR_ENV_STS.DIE_WARN (R624). -/
def PWR_ENV_STS_DIE_WARN : Fld := ⟨0x2000300, 2, 1, 8⟩
/-- PWR_ENV_STS.CART_WARN (R624). -/
def PWR_ENV_STS_CART_WARN : Fld := ⟨0x2000300, 3, 1, 8⟩
/-- PWR_ENV_STS.CLK_LOST (R624). -/
def PWR_ENV_STS_CLK_LOST : Fld := ⟨0x2000300, 4, 1, 8⟩
/-- PWR_ENV_STS.EN_DROP (R624). -/
def PWR_ENV_STS_EN_DROP : Fld := ⟨0x2000300, 5, 1, 8⟩
/-- PWR_ENV_STS, the whole register (R624). -/
def PWR_ENV_STS : Fld := ⟨0x2000300, 0, 64, 8⟩
/-- PWR_ENV_INT_EN.COOLANT_WARN (R624). -/
def PWR_ENV_INT_EN_COOLANT_WARN : Fld := ⟨0x2000308, 0, 1, 8⟩
/-- PWR_ENV_INT_EN.FLOW_LOW (R624). -/
def PWR_ENV_INT_EN_FLOW_LOW : Fld := ⟨0x2000308, 1, 1, 8⟩
/-- PWR_ENV_INT_EN.DIE_WARN (R624). -/
def PWR_ENV_INT_EN_DIE_WARN : Fld := ⟨0x2000308, 2, 1, 8⟩
/-- PWR_ENV_INT_EN.CART_WARN (R624). -/
def PWR_ENV_INT_EN_CART_WARN : Fld := ⟨0x2000308, 3, 1, 8⟩
/-- PWR_ENV_INT_EN.CLK_LOST (R624). -/
def PWR_ENV_INT_EN_CLK_LOST : Fld := ⟨0x2000308, 4, 1, 8⟩
/-- PWR_ENV_INT_EN.EN_DROP (R624). -/
def PWR_ENV_INT_EN_EN_DROP : Fld := ⟨0x2000308, 5, 1, 8⟩
/-- PWR_ENV_INT_EN, the whole register (R624). -/
def PWR_ENV_INT_EN : Fld := ⟨0x2000308, 0, 64, 8⟩
/-- PWR_ENV_FIRST.SENSOR (R624). -/
def PWR_ENV_FIRST_SENSOR : Fld := ⟨0x2000310, 0, 16, 8⟩
/-- PWR_ENV_FIRST.VALUE (R624). -/
def PWR_ENV_FIRST_VALUE : Fld := ⟨0x2000310, 16, 32, 8⟩
/-- PWR_ENV_FIRST.CAUSE (R624). -/
def PWR_ENV_FIRST_CAUSE : Fld := ⟨0x2000310, 48, 3, 8⟩
/-- PWR_ENV_FIRST.VALID (R624). -/
def PWR_ENV_FIRST_VALID : Fld := ⟨0x2000310, 63, 1, 8⟩
/-- PWR_ENV_FIRST, the whole register (R624). -/
def PWR_ENV_FIRST : Fld := ⟨0x2000310, 0, 64, 8⟩
/-- PWR_COOLANT.INLET (R624). -/
def PWR_COOLANT_INLET : Fld := ⟨0x2000318, 0, 16, 8⟩
/-- PWR_COOLANT.OUTLET (R624). -/
def PWR_COOLANT_OUTLET : Fld := ⟨0x2000318, 16, 16, 8⟩
/-- PWR_COOLANT.FLOW (R624). -/
def PWR_COOLANT_FLOW : Fld := ⟨0x2000318, 32, 16, 8⟩
/-- PWR_COOLANT, the whole register (R624). -/
def PWR_COOLANT : Fld := ⟨0x2000318, 0, 64, 8⟩
/-- PWR_DOM.ON (R563). -/
def PWR_DOM_ON : Fld := ⟨0x2000100, 0, 64, 8⟩
/-- PWR_DOM, the whole register (R563). -/
def PWR_DOM : Fld := ⟨0x2000100, 0, 64, 8⟩
/-- PWR_PODS.PODS_0 (R563). -/
def PWR_PODS_PODS_0 : Fld := ⟨0x2000140, 0, 4, 8⟩
/-- PWR_PODS.PODS_1 (R563). -/
def PWR_PODS_PODS_1 : Fld := ⟨0x2000140, 4, 4, 8⟩
/-- PWR_PODS.PODS_2 (R563). -/
def PWR_PODS_PODS_2 : Fld := ⟨0x2000140, 8, 4, 8⟩
/-- PWR_PODS.PODS_3 (R563). -/
def PWR_PODS_PODS_3 : Fld := ⟨0x2000140, 12, 4, 8⟩
/-- PWR_PODS.PODS_4 (R563). -/
def PWR_PODS_PODS_4 : Fld := ⟨0x2000140, 16, 4, 8⟩
/-- PWR_PODS.PODS_5 (R563). -/
def PWR_PODS_PODS_5 : Fld := ⟨0x2000140, 20, 4, 8⟩
/-- PWR_PODS.PODS_6 (R563). -/
def PWR_PODS_PODS_6 : Fld := ⟨0x2000140, 24, 4, 8⟩
/-- PWR_PODS.PODS_7 (R563). -/
def PWR_PODS_PODS_7 : Fld := ⟨0x2000140, 28, 4, 8⟩
/-- PWR_PODS.PODS_8 (R563). -/
def PWR_PODS_PODS_8 : Fld := ⟨0x2000140, 32, 4, 8⟩
/-- PWR_PODS.PODS_9 (R563). -/
def PWR_PODS_PODS_9 : Fld := ⟨0x2000140, 36, 4, 8⟩
/-- PWR_PODS.PODS_10 (R563). -/
def PWR_PODS_PODS_10 : Fld := ⟨0x2000140, 40, 4, 8⟩
/-- PWR_PODS.PODS_11 (R563). -/
def PWR_PODS_PODS_11 : Fld := ⟨0x2000140, 44, 4, 8⟩
/-- PWR_PODS.PODS_12 (R563). -/
def PWR_PODS_PODS_12 : Fld := ⟨0x2000140, 48, 4, 8⟩
/-- PWR_PODS.PODS_13 (R563). -/
def PWR_PODS_PODS_13 : Fld := ⟨0x2000140, 52, 4, 8⟩
/-- PWR_PODS.PODS_14 (R563). -/
def PWR_PODS_PODS_14 : Fld := ⟨0x2000140, 56, 4, 8⟩
/-- PWR_PODS.PODS_15 (R563). -/
def PWR_PODS_PODS_15 : Fld := ⟨0x2000140, 60, 4, 8⟩
/-- PWR_PODS, the whole register (R563). -/
def PWR_PODS : Fld := ⟨0x2000140, 0, 64, 8⟩
/-- HRD_STS.AUTH_FAIL (R565). -/
def HRD_STS_AUTH_FAIL : Fld := ⟨0x3000000, 0, 1, 8⟩
/-- HRD_STS.LIFE_WARN (R565). -/
def HRD_STS_LIFE_WARN : Fld := ⟨0x3000000, 1, 1, 8⟩
/-- HRD_STS.WORN (R565). -/
def HRD_STS_WORN : Fld := ⟨0x3000000, 2, 1, 8⟩
/-- HRD_STS.TOO_LARGE (R565). -/
def HRD_STS_TOO_LARGE : Fld := ⟨0x3000000, 3, 1, 8⟩
/-- HRD_STS.REMOVED (R565). -/
def HRD_STS_REMOVED : Fld := ⟨0x3000000, 4, 1, 8⟩
/-- HRD_STS.HARVEST_DONE (R565). -/
def HRD_STS_HARVEST_DONE : Fld := ⟨0x3000000, 5, 1, 8⟩
/-- HRD_STS.HARVEST_ABANDONED (R565). -/
def HRD_STS_HARVEST_ABANDONED : Fld := ⟨0x3000000, 6, 1, 8⟩
/-- HRD_STS.NO_CARTRIDGE (R565). -/
def HRD_STS_NO_CARTRIDGE : Fld := ⟨0x3000000, 7, 1, 8⟩
/-- HRD_STS.SAVE_FALLBACK (R565). -/
def HRD_STS_SAVE_FALLBACK : Fld := ⟨0x3000000, 8, 1, 8⟩
/-- HRD_STS.RELEASED (R565). -/
def HRD_STS_RELEASED : Fld := ⟨0x3000000, 9, 1, 8⟩
/-- HRD_STS, the whole register (R565). -/
def HRD_STS : Fld := ⟨0x3000000, 0, 64, 8⟩
/-- HRD_INT_EN.AUTH_FAIL (R565). -/
def HRD_INT_EN_AUTH_FAIL : Fld := ⟨0x3000008, 0, 1, 8⟩
/-- HRD_INT_EN.LIFE_WARN (R565). -/
def HRD_INT_EN_LIFE_WARN : Fld := ⟨0x3000008, 1, 1, 8⟩
/-- HRD_INT_EN.WORN (R565). -/
def HRD_INT_EN_WORN : Fld := ⟨0x3000008, 2, 1, 8⟩
/-- HRD_INT_EN.TOO_LARGE (R565). -/
def HRD_INT_EN_TOO_LARGE : Fld := ⟨0x3000008, 3, 1, 8⟩
/-- HRD_INT_EN.REMOVED (R565). -/
def HRD_INT_EN_REMOVED : Fld := ⟨0x3000008, 4, 1, 8⟩
/-- HRD_INT_EN.HARVEST_DONE (R565). -/
def HRD_INT_EN_HARVEST_DONE : Fld := ⟨0x3000008, 5, 1, 8⟩
/-- HRD_INT_EN.HARVEST_ABANDONED (R565). -/
def HRD_INT_EN_HARVEST_ABANDONED : Fld := ⟨0x3000008, 6, 1, 8⟩
/-- HRD_INT_EN.NO_CARTRIDGE (R565). -/
def HRD_INT_EN_NO_CARTRIDGE : Fld := ⟨0x3000008, 7, 1, 8⟩
/-- HRD_INT_EN.SAVE_FALLBACK (R565). -/
def HRD_INT_EN_SAVE_FALLBACK : Fld := ⟨0x3000008, 8, 1, 8⟩
/-- HRD_INT_EN.RELEASED (R565). -/
def HRD_INT_EN_RELEASED : Fld := ⟨0x3000008, 9, 1, 8⟩
/-- HRD_INT_EN, the whole register (R565). -/
def HRD_INT_EN : Fld := ⟨0x3000008, 0, 64, 8⟩
/-- HRD_ID.ID (R565). -/
def HRD_ID_ID : Fld := ⟨0x3000010, 0, 64, 8⟩
/-- HRD_ID, the whole register (R565). -/
def HRD_ID : Fld := ⟨0x3000010, 0, 64, 8⟩
/-- HRD_STATE.PRESENT (R565). -/
def HRD_STATE_PRESENT : Fld := ⟨0x3000018, 0, 1, 8⟩
/-- HRD_STATE.LINK_UP (R565). -/
def HRD_STATE_LINK_UP : Fld := ⟨0x3000018, 1, 1, 8⟩
/-- HRD_STATE.AUTHENTICATED (R565). -/
def HRD_STATE_AUTHENTICATED : Fld := ⟨0x3000018, 2, 1, 8⟩
/-- HRD_STATE.RELEASED (R565). -/
def HRD_STATE_RELEASED : Fld := ⟨0x3000018, 3, 1, 8⟩
/-- HRD_STATE.WORN (R565). -/
def HRD_STATE_WORN : Fld := ⟨0x3000018, 4, 1, 8⟩
/-- HRD_STATE.HARVEST_ACTIVE (R565). -/
def HRD_STATE_HARVEST_ACTIVE : Fld := ⟨0x3000018, 5, 1, 8⟩
/-- HRD_STATE.HARVEST_DUE (R565). -/
def HRD_STATE_HARVEST_DUE : Fld := ⟨0x3000018, 6, 1, 8⟩
/-- HRD_STATE, the whole register (R565). -/
def HRD_STATE : Fld := ⟨0x3000018, 0, 64, 8⟩
/-- HRD_LIFE.WRITTEN_GB (R565). -/
def HRD_LIFE_WRITTEN_GB : Fld := ⟨0x3000020, 0, 40, 8⟩
/-- HRD_LIFE.PERMILLE (R565). -/
def HRD_LIFE_PERMILLE : Fld := ⟨0x3000020, 40, 10, 8⟩
/-- HRD_LIFE, the whole register (R565). -/
def HRD_LIFE : Fld := ⟨0x3000020, 0, 64, 8⟩
/-- HRD_CMD.OP (R565). -/
def HRD_CMD_OP : Fld := ⟨0x3000028, 0, 3, 8⟩
/-- HRD_CMD.GO (R565). -/
def HRD_CMD_GO : Fld := ⟨0x3000028, 3, 1, 8⟩
/-- HRD_CMD.BUSY (R565). -/
def HRD_CMD_BUSY : Fld := ⟨0x3000028, 4, 1, 8⟩
/-- HRD_CMD.RESULT (R565). -/
def HRD_CMD_RESULT : Fld := ⟨0x3000028, 5, 3, 8⟩
/-- HRD_CMD, the whole register (R565). -/
def HRD_CMD : Fld := ⟨0x3000028, 0, 64, 8⟩
/-- HRD_ADDR.ADDR (R565). -/
def HRD_ADDR_ADDR : Fld := ⟨0x3000030, 0, 57, 8⟩
/-- HRD_ADDR, the whole register (R565). -/
def HRD_ADDR : Fld := ⟨0x3000030, 0, 64, 8⟩
/-- HRD_HARVEST.ACTIVE (R565). -/
def HRD_HARVEST_ACTIVE : Fld := ⟨0x3000060, 0, 1, 8⟩
/-- HRD_HARVEST.AREA (R565). -/
def HRD_HARVEST_AREA : Fld := ⟨0x3000060, 1, 1, 8⟩
/-- HRD_HARVEST.WRITTEN_4K (R565). -/
def HRD_HARVEST_WRITTEN_4K : Fld := ⟨0x3000060, 2, 40, 8⟩
/-- HRD_HARVEST, the whole register (R565). -/
def HRD_HARVEST : Fld := ⟨0x3000060, 0, 64, 8⟩
/-- HRD_CNT.HARVESTS (R565). -/
def HRD_CNT_HARVESTS : Fld := ⟨0x3000068, 0, 24, 8⟩
/-- HRD_CNT.ABANDONED (R565). -/
def HRD_CNT_ABANDONED : Fld := ⟨0x3000068, 24, 16, 8⟩
/-- HRD_CNT.AUTH_FAILS (R565). -/
def HRD_CNT_AUTH_FAILS : Fld := ⟨0x3000068, 40, 16, 8⟩
/-- HRD_CNT.REMOVALS (R565). -/
def HRD_CNT_REMOVALS : Fld := ⟨0x3000068, 56, 8, 8⟩
/-- HRD_CNT, the whole register (R565). -/
def HRD_CNT : Fld := ⟨0x3000068, 0, 64, 8⟩
/-- HRD_GEN_INFO.COMPLETE (R565). -/
def HRD_GEN_INFO_COMPLETE : Fld := ⟨0x3000040, 0, 1, 16⟩
/-- HRD_GEN_INFO.WRITING (R565). -/
def HRD_GEN_INFO_WRITING : Fld := ⟨0x3000040, 1, 1, 16⟩
/-- HRD_GEN_INFO.GEN_SEQ (R565). -/
def HRD_GEN_INFO_GEN_SEQ : Fld := ⟨0x3000040, 2, 32, 16⟩
/-- HRD_GEN_INFO, the whole register (R565). -/
def HRD_GEN_INFO : Fld := ⟨0x3000040, 0, 64, 16⟩
/-- HRD_GEN_T.T (R565). -/
def HRD_GEN_T_T : Fld := ⟨0x3000048, 0, 64, 16⟩
/-- HRD_GEN_T, the whole register (R565). -/
def HRD_GEN_T : Fld := ⟨0x3000048, 0, 64, 16⟩
/-- BENCH_STS.CMD_DONE (R592). -/
def BENCH_STS_CMD_DONE : Fld := ⟨0x20000000, 0, 1, 8⟩
/-- BENCH_STS.TRACE_DROP (R592). -/
def BENCH_STS_TRACE_DROP : Fld := ⟨0x20000000, 1, 1, 8⟩
/-- BENCH_STS.SCAN_ACTIVE (R592). -/
def BENCH_STS_SCAN_ACTIVE : Fld := ⟨0x20000000, 2, 1, 8⟩
/-- BENCH_STS, the whole register (R592). -/
def BENCH_STS : Fld := ⟨0x20000000, 0, 64, 8⟩
/-- BENCH_CTL.TRACE_EN (R592). -/
def BENCH_CTL_TRACE_EN : Fld := ⟨0x20000008, 0, 1, 8⟩
/-- BENCH_CTL.TRACE_SEL (R592). -/
def BENCH_CTL_TRACE_SEL : Fld := ⟨0x20000008, 1, 5, 8⟩
/-- BENCH_CTL.SCAN_GROUP (R592). -/
def BENCH_CTL_SCAN_GROUP : Fld := ⟨0x20000008, 6, 3, 8⟩
/-- BENCH_CTL, the whole register (R592). -/
def BENCH_CTL : Fld := ⟨0x20000008, 0, 64, 8⟩
/-- BENCH_CMD.OP (R592). -/
def BENCH_CMD_OP : Fld := ⟨0x20000010, 0, 4, 8⟩
/-- BENCH_CMD.GO (R592). -/
def BENCH_CMD_GO : Fld := ⟨0x20000010, 4, 1, 8⟩
/-- BENCH_CMD.BUSY (R592). -/
def BENCH_CMD_BUSY : Fld := ⟨0x20000010, 5, 1, 8⟩
/-- BENCH_CMD.RESULT (R592). -/
def BENCH_CMD_RESULT : Fld := ⟨0x20000010, 6, 4, 8⟩
/-- BENCH_CMD, the whole register (R592). -/
def BENCH_CMD : Fld := ⟨0x20000010, 0, 64, 8⟩
/-- BENCH_ARG.ARG (R592). -/
def BENCH_ARG_ARG : Fld := ⟨0x20000018, 0, 64, 8⟩
/-- BENCH_ARG, the whole register (R592). -/
def BENCH_ARG : Fld := ⟨0x20000018, 0, 64, 8⟩
/-- BENCH_MARGIN.HEIGHT (R592). -/
def BENCH_MARGIN_HEIGHT : Fld := ⟨0x20000020, 0, 16, 8⟩
/-- BENCH_MARGIN.WIDTH (R592). -/
def BENCH_MARGIN_WIDTH : Fld := ⟨0x20000020, 16, 16, 8⟩
/-- BENCH_MARGIN.PHYS (R592). -/
def BENCH_MARGIN_PHYS : Fld := ⟨0x20000020, 32, 8, 8⟩
/-- BENCH_MARGIN.RETIRED (R592). -/
def BENCH_MARGIN_RETIRED : Fld := ⟨0x20000020, 40, 1, 8⟩
/-- BENCH_MARGIN, the whole register (R592). -/
def BENCH_MARGIN : Fld := ⟨0x20000020, 0, 64, 8⟩
/-- FUSE_STS.CLOSE_ELEMENTS (R592). -/
def FUSE_STS_CLOSE_ELEMENTS : Fld := ⟨0x20000030, 0, 3, 8⟩
/-- FUSE_STS.OWNER_ENROLLED (R592). -/
def FUSE_STS_OWNER_ENROLLED : Fld := ⟨0x20000030, 3, 1, 8⟩
/-- FUSE_STS.PPR_LEFT (R592). -/
def FUSE_STS_PPR_LEFT : Fld := ⟨0x20000030, 4, 4, 8⟩
/-- FUSE_STS, the whole register (R592). -/
def FUSE_STS : Fld := ⟨0x20000030, 0, 64, 8⟩
/-- FUSE_NONCE.NONCE (R592). -/
def FUSE_NONCE_NONCE : Fld := ⟨0x20000040, 0, 64, 8⟩
/-- FUSE_NONCE, the whole register (R592). -/
def FUSE_NONCE : Fld := ⟨0x20000040, 0, 64, 8⟩
/-- BENCH_POD_MAP.LPOD_0 (R591). -/
def BENCH_POD_MAP_LPOD_0 : Fld := ⟨0x20001000, 0, 4, 8⟩
/-- BENCH_POD_MAP.LPOD_1 (R591). -/
def BENCH_POD_MAP_LPOD_1 : Fld := ⟨0x20001000, 4, 4, 8⟩
/-- BENCH_POD_MAP.LPOD_2 (R591). -/
def BENCH_POD_MAP_LPOD_2 : Fld := ⟨0x20001000, 8, 4, 8⟩
/-- BENCH_POD_MAP.LPOD_3 (R591). -/
def BENCH_POD_MAP_LPOD_3 : Fld := ⟨0x20001000, 12, 4, 8⟩
/-- BENCH_POD_MAP.LPOD_4 (R591). -/
def BENCH_POD_MAP_LPOD_4 : Fld := ⟨0x20001000, 16, 4, 8⟩
/-- BENCH_POD_MAP.LPOD_5 (R591). -/
def BENCH_POD_MAP_LPOD_5 : Fld := ⟨0x20001000, 20, 4, 8⟩
/-- BENCH_POD_MAP.LPOD_6 (R591). -/
def BENCH_POD_MAP_LPOD_6 : Fld := ⟨0x20001000, 24, 4, 8⟩
/-- BENCH_POD_MAP.LPOD_7 (R591). -/
def BENCH_POD_MAP_LPOD_7 : Fld := ⟨0x20001000, 28, 4, 8⟩
/-- BENCH_POD_MAP.RETIRED (R591). -/
def BENCH_POD_MAP_RETIRED : Fld := ⟨0x20001000, 32, 9, 8⟩
/-- BENCH_POD_MAP.SPARE_FREE (R591). -/
def BENCH_POD_MAP_SPARE_FREE : Fld := ⟨0x20001000, 41, 1, 8⟩
/-- BENCH_POD_MAP.SPARE (R591). -/
def BENCH_POD_MAP_SPARE : Fld := ⟨0x20001000, 42, 4, 8⟩
/-- BENCH_POD_MAP, the whole register (R591). -/
def BENCH_POD_MAP : Fld := ⟨0x20001000, 0, 64, 8⟩
/-- ATTEND.RUNNING (R521). -/
def ATTEND_RUNNING : Fld := ⟨0x3ff000, 0, 1, 8⟩
/-- ATTEND.ACK (R521). -/
def ATTEND_ACK : Fld := ⟨0x3ff000, 1, 1, 8⟩
/-- ATTEND.EXPIRED (R521). -/
def ATTEND_EXPIRED : Fld := ⟨0x3ff000, 2, 1, 8⟩
/-- ATTEND.REMAIN (R521). -/
def ATTEND_REMAIN : Fld := ⟨0x3ff000, 6, 16, 8⟩
/-- ATTEND.OFFSET (R521). -/
def ATTEND_OFFSET : Fld := ⟨0x3ff000, 22, 24, 8⟩
/-- ATTEND.BIT (R521). -/
def ATTEND_BIT : Fld := ⟨0x3ff000, 46, 6, 8⟩
/-- ATTEND, the whole register (R521). -/
def ATTEND : Fld := ⟨0x3ff000, 0, 64, 8⟩
/-- ATTEND_CFG.TIMEOUT (R521). -/
def ATTEND_CFG_TIMEOUT : Fld := ⟨0x3ff008, 0, 16, 8⟩
/-- ATTEND_CFG, the whole register (R521). -/
def ATTEND_CFG : Fld := ⟨0x3ff008, 0, 64, 8⟩
/-- FAULT_CNT.C_RAISED (R521). -/
def FAULT_CNT_C_RAISED : Fld := ⟨0x3ff010, 0, 24, 8⟩
/-- FAULT_CNT.C_ACKED (R521). -/
def FAULT_CNT_C_ACKED : Fld := ⟨0x3ff010, 24, 24, 8⟩
/-- FAULT_CNT.D_TAKEN (R521). -/
def FAULT_CNT_D_TAKEN : Fld := ⟨0x3ff010, 48, 16, 8⟩
/-- FAULT_CNT, the whole register (R521). -/
def FAULT_CNT : Fld := ⟨0x3ff010, 0, 64, 8⟩
/-- SNAP_ID.ID (R521). -/
def SNAP_ID_ID : Fld := ⟨0x3ff018, 0, 32, 8⟩
/-- SNAP_ID.OFF (R521). -/
def SNAP_ID_OFF : Fld := ⟨0x3ff018, 32, 1, 8⟩
/-- SNAP_ID.VALID (R521). -/
def SNAP_ID_VALID : Fld := ⟨0x3ff018, 33, 1, 8⟩
/-- SNAP_ID, the whole register (R521). -/
def SNAP_ID : Fld := ⟨0x3ff018, 0, 64, 8⟩

end Sys2Proof.Machine
end

