-- ==== Sys2Proof/Machine/State.lean ====
section
/-! DEFINITION. The state of the module: everything the spec names, as plain data. Sparse contents are canonical
tables (Machine/Tab.lean). Registers live in one table keyed by their place in the register map; what a register
shows that another part of the state already holds is computed when it is read (Machine/RegAccess.lean). -/

namespace Sys2Proof.Machine

/-- Why a run stops. -/
inductive Fault
  /-- An HBM command names an address that the address map leaves without memory (R322, R323). Safe: the machine stops
  where the spec gives no access. Raised by HUB_READ, HUB_WRITE, ATOMIC_ADD, SCRUB and ELASTIC_WINDOW. -/
  | noSuchAddress
  deriving DecidableEq, Repr

/-- Why the model has no meaning for a command. -/
inductive Refusal
  /-- The command's meaning is not written. Safe: nothing is claimed of it. -/
  | notModelled (mnemonic : String)
  deriving DecidableEq, Repr

/-- A LAGGED tensor's parked bucket set: the buckets' elements with the t, STEP and ν of their step (R315, R316). -/
structure Parked where
  t : Nat
  step : Nat
  nu : Nat
  buckets : List (Nat × List Nat)
  deriving DecidableEq, Repr

/-- The lag entry of one LAGGED tensor in one bank (R315). -/
structure LagEnt where
  flip : Bool := false
  parked : List Parked := []
  deriving DecidableEq, Repr

/-- What a module sends up or down the tree on a cycle of its own: its combined health record (R392), the sum of its subtree's
token counts, or, from the master, N (R396). -/
inductive TreeSend
  | health | count | total
  deriving DecidableEq, Repr

/-- What happens to a step within its tick: the inputs of the health word (R301) and the tick's own bookkeeping. -/
structure TickRun where
  /-- A job's ticks run on this module. -/
  active : Bool := false
  /-- The tick runs its step (false in a no-step tick and under R66). -/
  stepRuns : Bool := false
  /-- The step of this tick is a replay (R141). -/
  isReplay : Bool := false
  faultB : Bool := false
  faultC : Bool := false
  nonfinite : Bool := false
  emptyStep : Bool := false
  noStep : Bool := false
  spike : Bool := false
  lossNonfinite : Bool := false
  serviceReq : Bool := false
  fallowReq : Bool := false
  checksum : Bool := false
  lagOverrun : Bool := false
  /-- The health word has been sent; later faults belong to the next tick (R302). -/
  healthSent : Bool := false
  lateB : Bool := false
  lateC : Bool := false
  lateChecksum : Bool := false
  lateLag : Bool := false
  /-- Bucket updates completed or parked by HEALTH (R188, R301). -/
  updates : Nat := 0
  /-- ℓ of this step, when it was formed (R298). -/
  loss : Option Nat := none
  /-- A fence was missed in this tick (R41). -/
  fenceMissed : Bool := false
  /-- Activities 0 to 2 that received their promotion quantum in this tick (R48). -/
  served : List Nat := []
  /-- Activities promoted at this tick's opening edge and placed (R49, R50). -/
  placed : List Nat := []
  /-- Scheduled items whose completion is still to come: block window, completion cycle, fence (R37). -/
  items : List (Nat × Nat × Nat) := []
  /-- Slots accepted or refused, counted at INGEST_END (R135, R202). -/
  ingestEnded : Bool := false
  closeTaken : Bool := false
  /-- Buckets that a row lookup has begun and that no update or park has used up: address and tensor (R186, R196). -/
  lookups : List (Nat × Nat) := []
  /-- Tree frames of this module that are still to go, with their cycles (R392, R396). -/
  treeDue : List (Nat × TreeSend) := []
  /-- The token counts that the children's frames have brought (R396). -/
  childTokens : Nat := 0
  deriving DecidableEq, Repr

/-- The running of the job on this module between its edges. -/
structure JobRun where
  /-- The context that is RUNNING. -/
  ctx : Option Nat := none
  seed : Nat := 0
  /-- The token held from the commit window, with the copy carried beside it (R65, R394). -/
  token : Option (BitVec 256 × Option (BitVec 256)) := none
  /-- The last token this module sent, held or applied: the copy of the next frame (R65). -/
  lastToken : Option (BitVec 256) := none
  /-- Consecutive edges without a token (R66). -/
  tokensMissed : Nat := 0
  /-- Consecutive edges without a marker (R64). -/
  markersLost : Nat := 0
  /-- The absolute cycle of the job's first tick edge, from which SCLK edges count (R26). -/
  firstEdge : Nat := 0
  /-- The absolute cycle of the next edge that a marker fixed (R62). -/
  markerEdge : Option Nat := none
  /-- The next edge was taken without a marker: the tick it opens carries class B (R64). -/
  lostAtEdge : Bool := false
  /-- The combined health of this module and its children so far (R393). -/
  health : HealthRec := {}
  /-- Links whose child's record has arrived in this commit window. -/
  childrenSeen : List Nat := []
  /-- A child's T_SHADOW differed from this module's t in this tick (R304, R311). -/
  tDiff : Bool := false
  releasePending : Bool := false
  /-- ℓ of the last step run on this module, held for a late COMMIT (R300). -/
  lastLoss : Option Nat := none
  /-- The number and the plan of the last step that ran, and whether its replay is pending (R307, R628). -/
  lastPlan : Option (Nat × Nat) := none
  replayPending : Bool := false
  /-- An abort is under way: the module that began it and its cause (R410). -/
  aborting : Option (Nat × Nat) := none
  /-- A pre-emption is arranged for the closing edge of this tick count, for reasons (bit 0 command, bit 1
  invalidation) (R431, R444). -/
  preemptAt : Option (Nat × Nat) := none
  /-- Accepted micro-batches: step, slot, tokens, and whether the data is complete in staging (R198 to R201). -/
  verdicts : List (Nat × Nat × Nat × Bool) := []
  /-- Micro-batches refused at ingest: step, slot and code; the verdict is final for its step (R201). -/
  refused : List (Nat × Nat × Nat) := []
  /-- Lag entries of LAGGED tensors: tensor and bank (false even) to entry (R315). -/
  lag : List (Nat × Bool × LagEnt) := []
  /-- LAGGED tensors that park their buckets in this step (R316). -/
  parking : List Nat := []
  /-- Local slot counts and tokens taken at the ingest close (R396). -/
  localTokens : Nat := 0
  localSlots : List (Nat × Nat) := []
  /-- Does the plan that the last token named answer a service request (R29)? None where neither the token nor the health
  that passed here tells. -/
  serviceCall : Option Bool := some false
  /-- Tokens and sums gathered up the tree so far. -/
  treeTokens : Nat := 0
  /-- The layout in force (R402). -/
  layout : Nat := 0
  /-- Capture notices held: tick and cycle (R517). -/
  captureAt : Option (Nat × Nat) := none
  /-- The capture notice that this master sends after the token of the tick before the one that it names (R517). -/
  captureOut : Option (Nat × Nat) := none
  deriving DecidableEq, Repr

/-- The state of a job context (R422). -/
inductive CtxState
  | empty | loaded | running | preempted
  deriving DecidableEq, Repr

/-! ### Slow tier (11) -/

/-- The residency of one slow-tier tensor (R354 to R357). -/
structure Resid where
  tensor : Nat
  resident : Bool := false
  dirty : Bool := false
  /-- A prefetch or a write-back is running. -/
  prefetching : Bool := false
  writing : Bool := false
  deriving DecidableEq, Repr

/-- What a pre-emption saves and RESUME restores (R431, R433). -/
structure Saved where
  ccr : Ccr
  job : JobRun
  tickCount : Nat
  plan : Nat
  pins : List (Nat × Nat)
  slow : List Resid
  /-- The registers COMMIT_HOLD, COMMIT_LOSS0, COMMIT_TOKEN and COMMIT_HEALTH, all of class J (R321). -/
  commit : List (Nat × Word64)
  deriving DecidableEq, Repr

/-- One job context: its image, the committed control record its committed bank stands under, its save area (R422, R289). -/
structure Ctx where
  state : CtxState := .empty
  /-- A LOAD_IMAGE for the context has been accepted and not completed (R422). -/
  loading : Bool := false
  image : Option ImageFile := none
  ccr : Ccr := {}
  seed : Nat := 0
  /-- Lag entries of its LAGGED tensors, kept while it does not run (R315). -/
  lag : List (Nat × Bool × LagEnt) := []
  /-- Micro-batches accepted while it is LOADED (R425): step, slot, tokens, data complete. -/
  verdicts : List (Nat × Nat × Nat × Bool) := []
  /-- Micro-batches refused while it is LOADED: step, slot and code (R201). -/
  refused : List (Nat × Nat × Nat) := []
  /-- Residency of its slow-tier tensors, kept after its job (R354, R358). -/
  slow : List Resid := []
  saved : Option Saved := none
  deriving DecidableEq, Repr

/-- What a logical pod's next instruction must wait for (R121, R126, R127). -/
structure PodHist where
  /-- 0 no instruction in this tick, 1 streaming, 2 in-cell. -/
  mode : Nat := 0
  start : Nat := 0
  /-- Issue-slot cycles of the last instruction: max(M, 128), or F. -/
  occ : Nat := 0
  /-- The cycle on which the last instruction's last output is usable. -/
  usable : Nat := 0
  /-- The same of the instruction before it. -/
  prevUsable : Nat := 0
  deriving DecidableEq, Repr

/-- What is known of an accumulator tile's timing in this tick (R122, R125, R162). -/
structure AccHist where
  /-- Start of the last streaming instruction that writes it. -/
  streamStart : Option Nat := none
  /-- The cycle on which the last pod instruction's results in it are usable. -/
  usable : Nat := 0
  /-- The cycle on which an in-cell instruction's results in it are usable. -/
  cellUsable : Nat := 0
  /-- The cycle on which the last chain transfer into it completed (R161). -/
  chainAt : Nat := 0
  /-- The sequence number of the last instruction that set its written mark. -/
  writer : Option Nat := none
  deriving DecidableEq, Repr

/-- A write to part of an operand line: the cycle it lands on, the line's key, the place and content of the bits, and
the format tag it leaves (R92). -/
structure LineWrite where
  at_ : Nat
  key : Nat
  lo : Nat
  wd : Nat
  v : Nat
  tag : Nat
  deriving DecidableEq, Repr

/-- What an accumulator element held before something landed in it on a cycle, for what took it earlier (R120, R125). -/
structure AccOld where
  key : Nat
  at_ : Nat
  old : Word32
  deriving DecidableEq, Repr

/-- Memory that a vector-engine word or a hub access writes in this tick: bytes `[lo, hi)`, complete on a cycle (R158, R162). -/
structure MemSpan where
  lo : Nat
  hi : Nat
  done : Nat
  deriving DecidableEq, Repr

/-- What is under way towards an accumulator tile. -/
inductive FlightKind
  /-- A streaming instruction (R120). -/
  | stream
  /-- An in-cell instruction (R124). -/
  | incell
  /-- A chain transfer with the content it carries and its invalid tag (R161). -/
  | chain (content : List Word32) (tagged : Bool)
  deriving DecidableEq, Repr

/-- A pod instruction or chain transfer between its start and its last usable result: its tile and word, its start
cycle, its sequence number, and the cycle on which all of it has landed or, if it is late, it is abandoned (R114). -/
structure Flight where
  kind : FlightKind
  tile : Nat
  word : Word256
  start : Nat
  seq : Nat
  done : Nat
  /-- At its start it set the written mark where that was clear, or consumed the chain mark (R111, R132). -/
  set : Bool := false
  took : Bool := false
  deriving DecidableEq, Repr

/-- The tiles' memories and marks. Tile n is 0 to 79 (R15). -/
structure Tiles where
  /-- Operand SRAM lines of 256 B, keyed n·2^17 + line. -/
  opLine : List (Nat × Granule) := []
  /-- Format tag of each operand line (R92), same keys. -/
  opTag : List (Nat × Nat) := []
  /-- The writes to operand lines made in this tick, in the order of the cycles they land on (R601, R602). -/
  lines : List LineWrite := []
  /-- The pod instructions and chain transfers under way, oldest first. -/
  flights : List Flight := []
  /-- Accumulator SRAM elements, keyed n·2^22 + acc·2^14 + row·128 + column. -/
  acc : List (Nat × Word32) := []
  /-- What accumulator elements held before what has landed since something under way took them, newest first. -/
  accOld : List AccOld := []
  /-- What the words of this tick and the hub have written to memory, or still write (R158, R162). -/
  spans : List MemSpan := []
  /-- Marks of each accumulator tile, keyed n·256 + acc: bit 0 invalid, bit 1 written, bit 2 chain (R110). -/
  mark : List (Nat × Nat) := []
  /-- Actual token count of each slot, keyed n·1024 + slot (R135). -/
  slotCnt : List (Nat × Nat) := []
  /-- Sequence number of the next instruction, keyed n (R113). -/
  seqNext : List (Nat × Nat) := []
  /-- Timing of each logical pod, keyed n·8 + pod. -/
  pod : List (Nat × PodHist) := []
  /-- Timing of each accumulator tile, keyed n·256 + acc. -/
  accHist : List (Nat × AccHist) := []
  /-- Tiles whose stream has reached END in this tick (R483). -/
  ended : List Nat := []
  /-- Pod faults of this tick that the next edge answers: tile and logical pod (R500). -/
  podPend : List (Nat × Nat) := []
  /-- The cycle until which a tile's shadow check is busy (R508). -/
  shadowBusy : List (Nat × Nat) := []
  deriving DecidableEq, Repr

/-- The attend timer of one block: the absolute expiry cycle, and the first unacknowledged class C bit (R495, R521). -/
structure Attend where
  expiry : Option Nat := none
  /-- A class C fault raised since the last ACK: status offset and bit. -/
  first : Option (Nat × Nat) := none
  /-- Abort cause that its expiry gives (R410, R415), and the FIFO for window 7 (R496). -/
  cause : Nat := 5
  fifo : Nat := 0
  deriving DecidableEq, Repr

/-- A queue that crosses clock domains (R452 to R457). Items are 128-bit words, or 64 B words for command ingress. -/
structure Fifo where
  items : List (BitVec 512) := []
  /-- Drops since the last gap marker (R454). -/
  dropped : Nat := 0
  /-- The absolute cycle since which a whole packet has waited untaken (R456). -/
  waitingSince : Option Nat := none
  /-- Events that fell due in a lockstep reload, with type, context and payload: they are posted after it (R505). -/
  late : List (Nat × Nat × List Nat) := []
  deriving DecidableEq, Repr

/-- A host ring's writer state (R459): packets placed since the last raise. -/
structure Ring where
  sinceRaise : Nat := 0
  /-- The cycle of the first entry written since the last interrupt. -/
  pendingEntry : Option Nat := none
  /-- The ring has lost its translation and stands (R444). -/
  lost : Bool := false
  deriving DecidableEq, Repr

/-- What leaves the module. -/
inductive Out
  /-- MSI-X message of a function's vector (R494). -/
  | msix (fn vec : Nat)
  /-- An MSI-X message that fell due in a lockstep reload: it goes out on the cycle on which the reload completes (R505). -/
  | msixAt (cycle fn vec : Nat)
  /-- A frame's content sent in a link's slot: link, cycle, kind, words (R372, R382). -/
  | frame (link cycle kind : Nat) (words : List Nat)
  /-- The symbols of a frame on the wire: link, cycle, and the PAM4 levels on active lanes 0 and 1 (R369). -/
  | wire (link cycle : Nat) (lane0 lane1 : List Nat)
  /-- CAPTURE_OUT goes high for 64 cyc from this cycle (R615). -/
  | captureOut (cycle : Nat)
  /-- A register access completes on a cycle with this data (R576). -/
  | regReply (cycle : Nat) (data : Word64)
  /-- Any other answer of the module, by name and numbers. -/
  | msg (what : String) (args : List Nat)
  deriving DecidableEq, Repr

/-- The capture machinery (R514 to R518): captures that wait for their cycle with their trigger sources, the local
capture count, and whether the edge trigger's capture of this tick is placed. -/
structure Capture where
  pend : List (Nat × Nat) := []
  localCount : Nat := 0
  deriving DecidableEq, Repr

/-! ### Memory side, links, solver (11, 12, 08) -/

/-- The claim of a retry slot: the access that failed its first attempt, with the data of a write (R336). -/
structure RetryEnt where
  stack : Nat
  pch : Nat
  window : Nat
  granule : Nat
  issued : Nat
  write : Option Granule
  served : Bool := false
  deriving DecidableEq, Repr

/-- A scheduled write on its way: its data stand in memory from cycle `due` on (R335). -/
structure HubWrite where
  stack : Nat
  granule : Nat
  due : Nat
  data : Granule
  deriving DecidableEq, Repr

/-- What the hub dies hold besides their registers. Stacks are numbered 0 to 15 over the module. -/
structure HubSt where
  /-- The correction queues: stack and granule, oldest first, at most 64 of a stack (R340). -/
  corrQ : List (Nat × Nat) := []
  /-- Granules that scrub's own reads corrected and still has to write back: stack and granule (R344). -/
  scrubQ : List (Nat × Nat) := []
  /-- Retry slots claimed in this tick, served or not (R336, R337). -/
  retry : List RetryEnt := []
  /-- Poisoned granules that have caused a class B fault: stack and granule (R342). -/
  hit : List (Nat × Nat) := []
  /-- Scheduled writes issued and not yet in memory (R335). -/
  writes : List HubWrite := []
  /-- Errors attributed to a lane: lane key, and the windows of those within the last 2^20 (R349). -/
  laneErr : List (Nat × List Nat) := []
  /-- The lane map: lane position key to the spare in use (R348). -/
  laneMap : List (Nat × Nat) := []
  /-- Retired physical lanes, by key (R348, R351). -/
  laneBad : List Nat := []
  /-- Lane changes that the next edge makes: position key and spare (R349, R18). -/
  swaps : List (Nat × Nat) := []
  /-- The next part expected of a chunk: plan, chunk address, part index (R154). -/
  part : List (Nat × Nat × Nat) := []
  /-- A lane map waits to be recorded in the next no-step tick (R351). -/
  laneDirty : Bool := false
  /-- Errors that this module has met in serving lent memory (R364). -/
  lentErrors : Nat := 0
  /-- Per-bank repair resources used: bank key and count (R589). -/
  pprUsed : List (Nat × Nat) := []
  deriving DecidableEq, Repr

/-- A received frame that could not be corrected and waits for its retry: SEQ, window, slot and kind, the cycle on which its slot
began at the sender, and what its flit is for (R373). -/
structure LinkWait where
  seq : Nat
  win : Nat
  slot : Nat
  kind : Nat
  sent : Nat
  use : FlitUse
  deriving DecidableEq, Repr

/-- A received frame on its way to its delivery cycle: kind, whether it is lost, its flit, and what that is for (R372, R374). -/
structure FlitDue where
  at_ : Nat
  kind : Nat
  lost : Bool
  flit : Option Nat
  use : FlitUse
  deriving DecidableEq, Repr

/-- One direction pair of an Abxisel link. -/
structure LinkSt where
  /-- SEQ of the frame in the first slot of this tick (R370). -/
  seq : Nat := 0
  /-- Frames sent that a NAK can still name: SEQ, window, slot, kind, content. -/
  sent : List (Nat × Nat × Nat × Nat × Nat) := []
  /-- NAKs to set in the next frames of the reverse direction, oldest first: the SEQ that each names (R373). -/
  naks : List Nat := []
  /-- Consecutive received frames that could not be corrected (R380). -/
  badRun : Nat := 0
  /-- Windows whose retry slot is claimed: true for the sending side (R373). -/
  retry : List (Bool × Nat) := []
  /-- Frames received in error that wait for their retry. -/
  waiting : List LinkWait := []
  /-- Frames that wait for their delivery cycle. -/
  landing : List FlitDue := []
  /-- The cycle and flit of the newest DATA frame delivered, which a FORWARD sends on (R382, R383). -/
  last : Option (Nat × Nat) := none
  /-- Symbol errors attributed to a receive lane: lane, and the windows of those within the last 2^20 (R377). -/
  laneErr : List (Nat × List Nat) := []
  /-- Retired physical lanes: direction (0 transmit, 1 receive) and lane 0 to 2 (R377). -/
  laneBad : List (Nat × Nat) := []
  /-- Lane served by the spare: direction and position (R377). -/
  spareFor : List (Nat × Nat) := []
  /-- Changes that the next edge makes: direction and position. -/
  swaps : List (Nat × Nat) := []
  /-- Directions without a free spare that need one (R378). -/
  exhausted : List Nat := []
  /-- Credit left for ELASTIC frames (R381). -/
  credit : Nat := 32
  /-- ELASTIC frames that wait for a slot, the oldest first, with one to be repeated at their head (R381). -/
  elasticQ : List Nat := []
  /-- The neighbour's image hash learnt in training (R473). -/
  hash : Nat := 0
  deriving DecidableEq, Repr

/-- Something that happens within a solver job: its scyc after the start edge, what (0 rescale, 1 flagged pivot,
2 elements vanished), and its column, level and cause, or a count. -/
structure SlvEv where
  off : Nat
  what : Nat
  column : Nat := 0
  level : Nat := 0
  cause : Nat := 0
  deriving DecidableEq, Repr

/-- How a solver job would end if no deadline came: at `off` scyc after its start, publishing when `cause` is none. -/
structure SlvOut where
  cause : Option Nat
  off : Nat
  iters : Nat := 0
  resid : Nat := 0
  reg : Nat := 0
  rescales : Nat := 0
  evs : List SlvEv := []
  /-- Ends of iterations: scyc after the start and the residual computed. -/
  iterEnds : List (Nat × Nat) := []
  /-- Stage changes: scyc after the start and the STAGE code entered (R269). -/
  stages : List (Nat × Nat) := []
  /-- The published matrix, row-major, as SQ64 integers at E_X. -/
  result : List Int := []
  deriving DecidableEq, Repr

/-- A job between its start edge and its end (R255, R262). -/
structure SlvJob where
  ent : BitVec 1024
  /-- Start and deadline edges, in absolute scyc. -/
  start : Nat
  deadline : Nat
  /-- The descriptor that landed at the start edge (R239). -/
  prev : BitVec 512
  out : SlvOut
  deriving DecidableEq, Repr

/-- A carry that a job's end has issued (R261), or a copy of a carry sweep (R260), whose gang is empty: its gang's die, first
cracker and size, the absolute scyc on which it completes, the descriptor it writes and where, and the stale limit it is held to. -/
structure Carry where
  die : Nat
  c0 : Nat
  gang : Nat
  at_ : Nat
  addr : Nat
  desc : BitVec 512
  limit : Nat
  deriving DecidableEq, Repr

/-- What the solver dies hold besides their registers. -/
structure SolverSt where
  /-- Descriptors read for jobs to come: statistic tensor, block, descriptor (R239). -/
  landed : List (Nat × Nat × BitVec 512) := []
  jobs : List SlvJob := []
  /-- Carries on their way to memory. -/
  carries : List Carry := []
  /-- Subnormal published elements of each die that do not make up a unit of SLV_CNT4.PUB_SUBNORMAL (R269). -/
  subRem : List (Nat × Nat) := []
  deriving DecidableEq, Repr

/-! ### Host side (13) -/

/-- A translation in the address translation cache (R441 to R443): function, first host page address, page size, and
the contexts (4 for a ring) that pin it. -/
structure AtcEnt where
  fn : Nat
  addr : Nat
  size : Nat
  pins : List Nat
  deriving DecidableEq, Repr

/-- A PIN that waits for translations, or a range that it pinned (R443). -/
structure PinReq where
  ctx : Nat
  tag : Nat
  addr : Nat
  len : Nat
  done : Bool
  deriving DecidableEq, Repr

/-- What a DMA descriptor is for (R446). -/
inductive DmaKind
  | ingest (step slot : Nat) | exportOut | loadImage | stateLoad | prefetch (tensor : Nat) | writeBack (tensor : Nat)
  | harvest | readRecord | save | restore | record
  deriving DecidableEq, Repr

/-- A DMA descriptor (R447) in a queue. -/
structure Desc where
  eng : Nat
  q : Nat
  ctx : Nat
  kind : DmaKind
  src : Nat
  dst : Nat
  length : Nat
  fenced : Bool := false
  crc : Bool := false
  dfence : Nat := 0
  tag : Nat := 0
  offset : Nat := 0
  /-- 0 running, 1 done, 2 parked, 3 fault, 4 abandoned. -/
  status : Nat := 0
  prg : Nat := 0
  crc32 : Nat := 0
  deriving DecidableEq, Repr

/-- An export that has been accepted (R289, R429). -/
structure Export where
  ctx : Nat
  kind : Nat
  tag : Nat
  bufs : List (Nat × Nat)
  started : Bool := false
  /-- The tick count, bank and control record at its start. -/
  tick : Nat := 0
  ccr : Ccr := {}
  deriving DecidableEq, Repr

/-- A START_JOB or RESUME, LOAD_IMAGE, or pre-emption whose completion is to come. -/
structure PendCmd where
  opcode : Nat
  ctx : Nat
  tag : Nat
  arg : Nat := 0
  deriving DecidableEq, Repr

/-- A save area being written after a pre-emption (R431, R432): its context, mode (0 edge, 1 mid-tick), reasons (bit 0
command, bit 1 invalidation), whether the step was declined, the last tick, the plan to resume with, and its completion cycle. -/
structure Saving where
  ctx : Nat
  mode : Nat
  reason : Nat
  declined : Bool
  tick : Nat
  plan : Nat
  doneAt : Nat
  deriving DecidableEq, Repr

/-- What the host side of the hull holds besides its registers. -/
structure HostSt where
  saving : Option Saving := none
  /-- Words of a command packet taken without their END word (R458). -/
  partials : List (BitVec 512) := []
  atc : List AtcEnt := []
  pins : List PinReq := []
  /-- Page request groups outstanding: group, engine, queue (R445). -/
  pri : List (Nat × Nat × Nat) := []
  /-- Groups whose descriptor has been abandoned (R445). -/
  priGone : List Nat := []
  priNext : Nat := 0
  /-- Invalidations held to the next edge: function, address, length, tag (R444). -/
  held : List (Nat × Nat × Nat × Nat) := []
  descs : List Desc := []
  /-- The queue that each DMA engine served last (R448). -/
  turn : List (Nat × Nat) := []
  exp : Option Export := none
  cmds : List PendCmd := []
  /-- Lenders that have stopped answering in this job (R364). -/
  lendersLost : List Nat := []
  /-- The mailbox buffers, keyed by hull-window offset (R463). -/
  mbox : List (Nat × Byte) := []
  deriving DecidableEq, Repr

/-! ### Power, records and the cartridge (16, 20) -/

/-- Why the module stands still. -/
inductive Halt
  /-- It does not. -/
  | no
  /-- A class E stop (R498), with its cause code, or the stop of R612. -/
  | stopped (cause : Nat)
  /-- The power stage is off (R530, R612). -/
  | off
  /-- Held in reset: the input below 40 V (R532), left by cold reset, or a warm reset pin (R614). -/
  | inReset (cold : Bool)
  deriving DecidableEq, Repr

/-- What the power dies and the pins hold besides their registers. -/
structure PowerSt where
  halt : Halt := .no
  /-- The cycle of the class E stop, and the SEQ of the record that it wrote (R498, R622). -/
  stopAt : Nat := 0
  stopSeq : Option Nat := none
  /-- The strap MADDR as cold reset sampled it (R617). -/
  maddr : Nat := 0
  /-- The host port came up in CXL 1.1 without the HDM window (R416). -/
  hdmAbsent : Bool := false
  /-- The bus stands at 45.0 V or more (R539). -/
  busUp : Bool := false
  /-- The power state that an entry or a wake is leading to, and its completion cycle (R526). -/
  trans : Option (Nat × Nat) := none
  /-- A lockstep reload completes on this cycle; the completion of the last one (R504, R497). -/
  reload : Option Nat := none
  reloaded : Option Nat := none
  /-- Class D actions that wait for the job's end: page and the cycle on which they began (R497). -/
  classD : List (Nat × Nat) := []
  /-- Sensors whose warning has been raised, with the cycle since which the reading is back inside its limit (R622). -/
  warned : List (Nat × Option Nat) := []
  /-- The cycle of the last telemetry records (R623). -/
  telemetryAt : Nat := 0
  /-- LIFE_WARN has been raised since the last cold reset (R549). -/
  lifeWarned : Bool := false
  /-- Windows whose domains are lost until a wake (R578): none of it in the registers. -/
  alert : Bool := false
  /-- CAPTURE_OUT is high until this cycle (R615). -/
  captureOut : Nat := 0
  /-- Sensor readings, FP32, by id (R623). -/
  sensors : List (Nat × Nat) := []
  cart : Option Cart := none
  flash : List (Option CritRec) := [none, none]
  /-- T of the newest complete generation of the running job, or its t at job start (R552). -/
  harvestBase : Nat := 0
  /-- A harvest command is due at the next opening edge (R552). -/
  harvestAsked : Bool := false
  /-- The control record and tick of a harvest in progress. -/
  harvestCcr : Ccr := {}
  harvestTick : Nat := 0
  deriving DecidableEq, Repr

/-! ### Bench (18) and the register router (17) -/

/-- What the bench paths hold besides their registers. -/
structure BenchSt where
  /-- The SHA-384 digest of the owner's key, once enrolled (R475, R586). -/
  owner : Option (BitVec 384) := none
  /-- The fuse buffer, bytes 0 to 255 (R586, R596). -/
  fuseBuf : BitVec 2048 := 0
  /-- The scan buffer (R590), by byte. -/
  scan : List (Nat × Byte) := []
  /-- The instruction in force in the TAP (R593), and whether EXTEST holds the pins (R594). -/
  ir : Nat := 0x01
  extest : Bool := false
  /-- The TAP data register, as last captured or updated. -/
  dr : Nat := 0
  /-- The stack that HBM1500 selects. -/
  hbmSel : Nat := 0
  /-- Records dropped since the last gap record of the trace port (R595). -/
  dropped : Nat := 0
  deriving DecidableEq, Repr

/-- The register router: when each window is free again, the reads in flight, and accesses held by a reload (R575). -/
structure Router where
  busy : List (Nat × Nat) := []
  reads : List Nat := []
  /-- A reset has cleared the RWL registers, all of class W, since an image was last loaded: they can be written (R8). -/
  rwlOpen : Bool := false
  deriving DecidableEq, Repr

/-- The whole state of the module. -/
structure State where
  /-- The absolute CCLK cycle. -/
  now : Nat := 0
  /-- The absolute cycle of the last tick edge (R5). -/
  edgeAt : Nat := 0
  /-- The commands that wait, first in, first out. -/
  pending : List Instr := []
  /-- The registers, keyed by their place (R568). -/
  regs : List (Nat × Word64) := []
  /-- What the registers held at the last capture, keyed as they are (R513, R522); SNAP_ID of each page says whether its
  copies hold it. -/
  snaps : List (Nat × Word64) := []
  /-- Memory over the device virtual address space (R322). -/
  mem : List (Nat × Byte) := []
  ccr : Ccr := {}
  /-- The mirrored control records of PD0 and PD1 (R14, R295). -/
  mirror0 : Ccr := {}
  mirror1 : Ccr := {}
  run : TickRun := {}
  job : JobRun := {}
  ctxs : List Ctx := [{}, {}, {}, {}]
  tiles : Tiles := {}
  /-- Attend timers of the block windows and tiles, keyed by fault page (R495). -/
  attend : List (Nat × Attend) := []
  /-- The four FIFOs of R452. -/
  fifos : List Fifo := [{}, {}, {}, {}]
  rings : List Ring := [{}, {}]
  cap : Capture := {}
  hub : HubSt := {}
  links : List LinkSt := List.replicate 16 {}
  solver : SolverSt := {}
  host : HostSt := {}
  slow : List Resid := []
  power : PowerSt := {}
  bench : BenchSt := {}
  router : Router := {}
  /-- What has left the module, oldest first. -/
  outbox : List Out := []
  /-- The number of the next free value: the model's own field, no part of the spec. -/
  fresh : Nat := 0
  deriving DecidableEq, Repr

/-- The module right after reset: every register at its reset value, every other field as declared. -/
def State.reset : State := {}

end Sys2Proof.Machine
end

