-- ==== Sys2Proof/Machine/Tab.lean ====
section
/-! DEFINITION. Sparse tables: the one representation of everything that is addressed by a number
(registers, memory, SRAM words, tags). A table lists only the keys whose value differs from the
table's default, in strictly rising order, so that equal contents are equal data. -/

namespace Sys2Proof.Machine

/-- The value at key `k`; an unlisted key reads as `d k`. -/
def tabGet {β : Type} (d : Nat → β) : List (Nat × β) → Nat → β
  | [], k => d k
  | (a, v) :: r, k => if a = k then v else tabGet d r k

/-- Write `v` at key `k`, keeping the canonical form: writing the default removes the entry. -/
def tabPut {β : Type} [DecidableEq β] (d : Nat → β) : List (Nat × β) → Nat → β → List (Nat × β)
  | [], k, v => if v = d k then [] else [(k, v)]
  | (a, w) :: r, k, v =>
    if k < a then (if v = d k then (a, w) :: r else (k, v) :: (a, w) :: r)
    else if k = a then (if v = d k then r else (k, v) :: r)
    else (a, w) :: tabPut d r k v

/-- Every listed key at or above `lo` is strictly above the one before it, and no value is the default. -/
def tabWfFrom {β : Type} [DecidableEq β] (d : Nat → β) : Nat → List (Nat × β) → Bool
  | _, [] => true
  | lo, (a, v) :: r => decide (lo ≤ a) && decide (v ≠ d a) && tabWfFrom d (a + 1) r

/-- The canonical form of a table. -/
def tabWf {β : Type} [DecidableEq β] (d : Nat → β) (t : List (Nat × β)) : Bool := tabWfFrom d 0 t

/-- Apply `f` to every listed entry, dropping the entries that come to the default. -/
def tabAdjust {β : Type} [DecidableEq β] (d : Nat → β) (f : Nat → β → β) : List (Nat × β) → List (Nat × β)
  | [] => []
  | (a, v) :: r => if f a v = d a then tabAdjust d f r else (a, f a v) :: tabAdjust d f r

/-- Bring every key that `p` selects back to its default. -/
def tabClear {β : Type} (p : Nat → Bool) : List (Nat × β) → List (Nat × β)
  | [] => []
  | (a, v) :: r => if p a then tabClear p r else (a, v) :: tabClear p r

/-- Write the values `vs` at consecutive keys from `k`. -/
def tabPutList {β : Type} [DecidableEq β] (d : Nat → β) (t : List (Nat × β)) (k : Nat) : List β → List (Nat × β)
  | [] => t
  | v :: vs => tabPutList d (tabPut d t k v) (k + 1) vs

/-- The `n` values from key `k` on. -/
def tabGetList {β : Type} (d : Nat → β) (t : List (Nat × β)) (k : Nat) : Nat → List β
  | 0 => []
  | n + 1 => tabGet d t k :: tabGetList d t (k + 1) n

end Sys2Proof.Machine
end

