-- ==== Sys2Proof/Machine/Ops.lean ====
section
/-! DEFINITION. The named operations over registers, memory and time that every meaning is written with. -/

namespace Sys2Proof.Machine

/-! ### Registers -/

/-- The stored value of the register at a key (R566). -/
def State.regGet (s : State) (key : Nat) : Word64 := tabGet resetOf s.regs key

/-- Store a whole register. -/
def State.regPut (s : State) (key : Nat) (v : Word64) : State := { s with regs := tabPut resetOf s.regs key v }

/-- Read bits `[lo + wd - 1 : lo]` of a word. -/
def getBits (v lo wd : Nat) : Nat := v / 2 ^ lo % 2 ^ wd

/-- Replace bits `[lo + wd - 1 : lo]` of a word by the low bits of `x`. -/
def putBits (v lo wd x : Nat) : Nat := v - getBits v lo wd * 2 ^ lo + x % 2 ^ wd * 2 ^ lo

/-- The stored value of a field. -/
def State.fget (s : State) (f : Fld) : Nat := getBits (s.regGet f.base).toNat f.lo f.wd

/-- Is the (one-bit) field set? -/
def State.fbit (s : State) (f : Fld) : Bool := s.fget f != 0

/-- Store a field; the other bits of its register keep their values. -/
def State.fset (s : State) (f : Fld) (x : Nat) : State :=
  s.regPut f.base (BitVec.ofNat 64 (putBits (s.regGet f.base).toNat f.lo f.wd x))

/-- Add to a counter field, saturating. -/
def State.fadd (s : State) (f : Fld) (n : Nat) : State := s.fset f (min (s.fget f + n) (2 ^ f.wd - 1))

/-- Store several fields in turn. -/
def State.fsetAll (s : State) : List (Fld × Nat) → State
  | [] => s
  | (f, x) :: r => (s.fset f x).fsetAll r

/-- Take a _FIRST record: only while its VALID field is 0 (R488). -/
def State.record (s : State) (valid : Fld) (fs : List (Fld × Nat)) : State :=
  if s.fbit valid then s else (s.fsetAll fs).fset valid 1

/-! ### Time -/

/-- Move the clock to an absolute cycle that a command names; the clock never runs back. -/
def State.advance (s : State) (cycle : Nat) : State := { s with now := max s.now cycle }

/-- The tick-relative cycle (R5). -/
def State.cyc (s : State) : Nat := s.now - s.edgeAt

/-- The tick-relative cycle while a job runs, else 0. -/
def State.relCyc (s : State) : Nat := if s.run.active then s.cyc else 0

/-- TICK_COUNT (R67). -/
def State.tickCount (s : State) : Nat := s.fget TICK_COUNT_COUNT

/-! ### Memory (R322) -/

/-- What an unlisted byte of memory reads as. -/
def memDefault (_ : Nat) : Byte := 0

/-- One byte of memory. -/
def State.rd8 (s : State) (a : Nat) : Byte := tabGet memDefault s.mem a

/-- Write one byte of memory. -/
def State.wr8 (s : State) (a : Nat) (v : Byte) : State := { s with mem := tabPut memDefault s.mem a v }

/-- The little-endian number in `n` bytes from `a`. -/
def State.rdN (s : State) (a : Nat) : Nat → Nat
  | 0 => 0
  | n + 1 => (s.rd8 a).toNat + 256 * s.rdN (a + 1) n

/-- Write the `n` low bytes of `v` from `a`, little-endian. -/
def State.wrN (s : State) (a : Nat) : Nat → Nat → State
  | 0, _ => s
  | n + 1, v => (s.wr8 a (BitVec.ofNat 8 v)).wrN (a + 1) n (v / 256)

/-- Write a list of bytes from `a`. -/
def State.wrBytes (s : State) (a : Nat) : List Byte → State
  | [] => s
  | b :: bs => (s.wr8 a b).wrBytes (a + 1) bs

/-- Bring every byte from `a` up to `b` (exclusive) to 0. -/
def State.zero (s : State) (a b : Nat) : State :=
  { s with mem := tabClear (fun k => decide (a ≤ k) && decide (k < b)) s.mem }

/-! ### Outputs and free values -/

/-- Something leaves the module. -/
def State.emit (s : State) (o : Out) : State := { s with outbox := s.outbox ++ [o] }

/-- The next free value: a number that nothing constrains. -/
def State.freeVal (s : State) : Nat := Config.free s.fresh

/-- The state after a free value has been drawn. -/
def State.drawn (s : State) : State := { s with fresh := s.fresh + 1 }

/-! ### Lists -/

/-- Replace element `i` of a list by `f` of it. -/
def modAt {α : Type} (f : α → α) : Nat → List α → List α
  | _, [] => []
  | 0, a :: r => f a :: r
  | n + 1, a :: r => a :: modAt f n r

/-- Put `v` at key `k` of an association list, replacing what was there. -/
def assocPut {α : Type} (l : List (Nat × α)) (k : Nat) (v : α) : List (Nat × α) :=
  match l with
  | [] => [(k, v)]
  | (a, w) :: r => if a == k then (k, v) :: r else (a, w) :: assocPut r k v

/-- The value at key `k` of an association list. -/
def assocGet {α : Type} (l : List (Nat × α)) (k : Nat) : Option α :=
  match l with
  | [] => none
  | (a, w) :: r => if a == k then some w else assocGet r k

/-- The numbers from `lo`, `n` of them. -/
def range' (lo : Nat) : Nat → List Nat
  | 0 => []
  | n + 1 => lo :: range' (lo + 1) n

/-- The elements of a list with their indices from `i`. -/
def indexed {α : Type} : List α → Nat → List (Nat × α)
  | [], _ => []
  | a :: r, i => (i, a) :: indexed r (i + 1)

/-- Ceiling division. -/
def ceilDiv (a b : Nat) : Nat := (a + b - 1) / b

/-! ### Contexts -/

/-- The context record of a number, an empty one out of range. -/
def State.ctx (s : State) (c : Nat) : Ctx := s.ctxs.getD c {}

/-- Change a context record. -/
def State.setCtx (s : State) (c : Nat) (f : Ctx → Ctx) : State := { s with ctxs := modAt f c s.ctxs }

/-- The image of the running job. -/
def State.image (s : State) : Option ImageFile :=
  match s.job.ctx with
  | some c => (s.ctx c).image
  | none => none

/-- Change the tick's run record. -/
def State.withRun (s : State) (f : TickRun → TickRun) : State := { s with run := f s.run }

/-- Change the job record. -/
def State.withJob (s : State) (f : JobRun → JobRun) : State := { s with job := f s.job }

/-- Change the power record. -/
def State.withPower (s : State) (f : PowerSt → PowerSt) : State := { s with power := f s.power }

/-- Change the tiles. -/
def State.withTiles (s : State) (f : Tiles → Tiles) : State := { s with tiles := f s.tiles }

end Sys2Proof.Machine
end

