-- ==== Sys2Proof/Machine/Fec.lean ====
section
/-! DEFINITION. The physical layer of an Abxisel frame (R369, R370): GF(2^8), the two interleaved RS(136, 130) codewords,
the units on the active lanes, Gray-coded PAM4 and the scrambler, and what a receiver's decoder makes of a frame. A frame is a
list of 272 bytes: 4 of header, 256 of flit, 12 of parity. -/

namespace Sys2Proof.Machine

/-! ### GF(2^8) with x^8 + x^4 + x^3 + x^2 + 1 -/

/-- Multiplication by α, a root of the field polynomial. -/
def gfDouble (a : Nat) : Nat := if 128 ≤ a then Nat.xor (2 * a) 0x11D else 2 * a

/-- The product of two elements over the low `k` bits of the second. -/
def gfMulBits (a b : Nat) : Nat → Nat
  | 0 => 0
  | k + 1 => Nat.xor (if b % 2 == 1 then a else 0) (gfMulBits (gfDouble a) (b / 2) k)

/-- The product of two elements. -/
def gfMul (a b : Nat) : Nat := gfMulBits a b 8

/-- α^k. -/
def gfPow : Nat → Nat
  | 0 => 1
  | k + 1 => gfDouble (gfPow k)

/-- The inverse of a nonzero element: a^254, as the product of a^2, a^4 to a^128. -/
def gfInv (a : Nat) : Nat :=
  ((range' 0 7).foldl (fun (p : Nat × Nat) _ => let q := gfMul p.1 p.1; (q, gfMul p.2 q)) (a, 1)).2

/-! ### RS(136, 130) -/

/-- The product of (x + r) for the elements `r` of a list, its coefficients from the lowest power. -/
def gfRoots : List Nat → List Nat
  | [] => [1]
  | r :: l =>
    let p := gfRoots l
    List.zipWith Nat.xor (0 :: p) (p.map (gfMul r) ++ [0])

/-- The coefficients x^5 to x^0 of the generator, the product of (x − α^i) for i from 0 to 5. -/
def rsGen : List Nat := ((gfRoots ((range' 0 6).map gfPow)).take 6).reverse

/-- The 6 parity bytes of a codeword's 130 bytes: the remainder of their polynomial, its first byte the highest power, times
x^6 by the generator. -/
def rsParity (bytes : List Nat) : List Nat :=
  bytes.foldl (fun p b =>
    let fb := Nat.xor b (p.headD 0)
    List.zipWith Nat.xor (p.drop 1 ++ [0]) (rsGen.map (gfMul fb))) [0, 0, 0, 0, 0, 0]

/-- The value of a codeword's polynomial at x. -/
def rsAt (word : List Nat) (x : Nat) : Nat := word.foldl (fun a b => Nat.xor (gfMul a x) b) 0

/-- The six syndromes of a word: 0 on a codeword. -/
def rsSyndromes (word : List Nat) : List Nat := (range' 0 6).map (fun i => rsAt word (gfPow i))

/-- The determinant of the leading matrix of syndromes S(i + j) of order 1 to 3. -/
def rsDet (s : List Nat) (n : Nat) : Nat :=
  let e (i : Nat) := s.getD i 0
  let m (l : List Nat) := l.foldl gfMul 1
  let sum (l : List Nat) := l.foldl Nat.xor 0
  if n == 1 then e 0
  else if n == 2 then sum [m [e 0, e 2], m [e 1, e 1]]
  else sum [m [e 0, e 2, e 4], m [e 0, e 3, e 3], m [e 1, e 1, e 4], m [e 2, e 2, e 2]]

/-- The coefficients, from the lowest power, of the polynomial whose roots are the places of `n` errors: the solution of the
linear equations in the syndromes, by Cramer's rule. -/
def rsLocator (s : List Nat) (n : Nat) : List Nat :=
  let e (i : Nat) := s.getD i 0
  let m (l : List Nat) := l.foldl gfMul 1
  let sum (l : List Nat) := l.foldl Nat.xor 0
  let d := gfInv (rsDet s n)
  if n == 1 then [gfMul d (e 1), 1]
  else if n == 2 then
    [gfMul d (sum [m [e 1, e 3], m [e 2, e 2]]), gfMul d (sum [m [e 0, e 3], m [e 1, e 2]]), 1]
  else
    [gfMul d (sum [m [e 1, e 3, e 5], m [e 1, e 4, e 4], m [e 2, e 2, e 5], m [e 3, e 3, e 3]]),
     gfMul d (sum [m [e 0, e 3, e 5], m [e 0, e 4, e 4], m [e 1, e 2, e 5], m [e 1, e 3, e 4], m [e 2, e 2, e 4], m [e 2, e 3, e 3]]),
     gfMul d (sum [m [e 0, e 2, e 5], m [e 0, e 3, e 4], m [e 1, e 1, e 5], m [e 1, e 2, e 4], m [e 1, e 3, e 3], m [e 2, e 2, e 3]]),
     1]

/-- The value of a polynomial, its coefficients from the lowest power. -/
def gfEval (p : List Nat) (x : Nat) : Nat := p.foldr (fun c a => Nat.xor c (gfMul a x)) 0

/-- The value of the error at one of the places: the syndromes weighed by the polynomial that is 0 at every other place. -/
def rsValue (s places : List Nat) (x : Nat) : Nat :=
  let q := gfRoots (places.filter (fun y => y != x))
  gfMul (gfInv (gfEval q x)) ((List.zipWith gfMul q s).foldl Nat.xor 0)

/-- A received word of 136 bytes corrected of up to 3 byte errors, with the indices corrected; none when no codeword lies
that near. -/
def rsDecode (word : List Nat) : Option (List Nat × List Nat) :=
  let s := rsSyndromes word
  if s.all (fun x => x == 0) then some (word, [])
  else
    let n := if rsDet s 3 != 0 then 3 else if rsDet s 2 != 0 then 2 else 1
    let l := rsLocator s n
    let hits := (range' 0 136).filter (fun i => gfEval l (gfPow (135 - i)) == 0)
    let places := hits.map (fun i => gfPow (135 - i))
    let out := ((range' 0 136).zip word).map (fun p =>
      if hits.contains p.1 then Nat.xor p.2 (rsValue s places (gfPow (135 - p.1))) else p.2)
    if hits.length == n && (rsSyndromes out).all (fun x => x == 0) then some (out, hits) else none

/-! ### Frames -/

/-- Every second element of a list. -/
def evens : List Nat → List Nat
  | [] => []
  | [a] => [a]
  | a :: _ :: r => a :: evens r

/-- The elements of two lists in turn. -/
def weave : List Nat → List Nat → List Nat
  | [], l => l
  | a :: r, l => match l with | [] => a :: r | b :: q => a :: b :: weave r q

/-- `n` bytes of a number, from the lowest. -/
def byteList : Nat → Nat → List Nat
  | 0, _ => []
  | n + 1, v => v % 256 :: byteList n (v / 256)

/-- The number whose bytes a list gives, from the lowest. -/
def ofBytes : List Nat → Nat
  | [] => 0
  | b :: r => b + 256 * ofBytes r

/-- The frame of a header and a flit: codeword A of the even-numbered bytes, B of the odd, their parity bytes in turn. -/
def frameBytes (hdr flit : Nat) : List Nat :=
  let b := byteList 4 hdr ++ byteList 256 flit
  b ++ weave (rsParity (evens b)) (rsParity (evens (b.drop 1)))

/-- The bits of a byte, most significant first. -/
def byteBits (b : Nat) : List Nat := (range' 0 8).map (fun i => getBits b (7 - i) 1)

/-- The bits that active lane 0 or 1 carries of a frame: every second 2-byte unit, most significant bit first. A unit is
a 16-bit number, its first byte the low one. -/
def laneBits (lane : Nat) : List Nat → List Nat
  | a :: b :: c :: d :: r => (if lane == 0 then byteBits b ++ byteBits a else byteBits d ++ byteBits c) ++ laneBits lane r
  | _ => []

/-- The bits after the additive scrambler x^58 + x^39 + 1 in a state (its bit 0 the last bit put in). -/
def scramble : Nat → List Nat → List Nat
  | _, [] => []
  | s, b :: r =>
    let k := Nat.xor (getBits s 57 1) (getBits s 38 1)
    Nat.xor b k :: scramble ((2 * s + k) % 2 ^ 58) r

/-- PAM4 levels of pairs of bits, Gray-coded: 00, 01, 11, 10 for 0 to 3. -/
def grayPam4 : List Nat → List Nat
  | a :: b :: r => (2 * a + Nat.xor a b) :: grayPam4 r
  | _ => []

/-- The symbols of a frame on one active lane, from the scrambler state that it meets. -/
def laneSymbols (lane scr : Nat) (bytes : List Nat) : List Nat := grayPam4 (scramble scr (laneBits lane bytes))

/-! ### Reception -/

/-- The frame's fields that its reception needs (R370). -/
structure FrameIn where
  seq : Nat
  kind : Nat
  slot : Nat
  nak : Option Nat
  laneSwap : Bool
  flit : Nat
  deriving DecidableEq, Repr

/-- What FEC makes of a received frame (R369, R372): the symbols corrected, by active lane, or a failure. -/
inductive Fec
  | clean
  | corrected (lanes : List Nat)
  | failed
  deriving DecidableEq, Repr

/-- The 260 bytes of header and flit after correction, and what the decoder made of the frame: an error in a codeword's byte
is attributed to the active lane of its unit (R377). -/
def rxDecode (bytes : List Nat) : List Nat × Fec :=
  match rsDecode (evens bytes), rsDecode (evens (bytes.drop 1)) with
  | some a, some b =>
    let lanes := (a.2 ++ b.2).map (fun i => i % 2)
    ((weave a.1 b.1).take 260, if lanes.isEmpty then .clean else .corrected lanes)
  | _, _ => (bytes.take 260, .failed)

/-- The fields of a frame's 260 bytes. -/
def frameFields (bytes : List Nat) : FrameIn :=
  let h := ofBytes (bytes.take 4)
  { seq := getBits h 0 8, kind := getBits h 8 3, slot := getBits h 11 5,
    nak := if getBits h 16 1 == 1 then some (getBits h 17 8) else none,
    laneSwap := getBits h 25 1 == 1, flit := ofBytes (bytes.drop 4) }

end Sys2Proof.Machine
end

