-- ==== Sys2Proof/Machine/Flags.lean ====
section
/-! DEFINITION. Status bits, interrupts, events and the fault classes A, B and C (15_faults.md, R488 to R496, R511;
the queue rules R454 to R461). A block is named by its fault page: 0 to 27 a window, 28 + n tile n. -/

namespace Sys2Proof.Machine

/-- The block window that a page lies in. -/
def pageWindow (p : Nat) : Nat := if p < 28 then p else 20 + (p - 28) / 10

/-- The tile within its die, or 15 when the page is no tile's. -/
def pageTile (p : Nat) : Nat := if p < 28 then 15 else (p - 28) % 10

/-- The key of the page's first register. -/
def pageBase (p : Nat) : Nat :=
  if p < 28 then p * 0x1000000 else (20 + (p - 28) / 10) * 0x1000000 + 0x100000 + (p - 28) % 10 * 0x40000

/-- The offsets of the status registers that have an enable register, which lies 8 bytes after each. -/
def stsOffsets (p : Nat) : List Nat :=
  if p == 0 then [0x10, 0x300, 0x340, 0x418, 0x600, 0x710, 0xA00, 0xB00]
  else if p == 1 then [0x38]
  else if p == 2 then [0x0, 0x300]
  else if p == 4 then [0x8]
  else if p < 8 then [0x0]
  else if p < 12 then [0x0, 0x800]
  else if p < 20 then [0x0]
  else if p < 28 then [0x400, 0x500]
  else [0x0]

/-- The OR over the block's status registers of (_STS AND _INT_EN) (R494). -/
def State.irqLine (s : State) (p : Nat) : Bool :=
  (stsOffsets p).any (fun o => (s.regGet (pageBase p + o)) &&& (s.regGet (pageBase p + o + 8)) != 0)

/-- The function and vector of a block's MSI-X message (R494). -/
def pageVector (p : Nat) : Nat × Nat :=
  if p == 3 then (2, 0) else if p == 6 then (1, 0) else if p == 7 then (1, 1)
  else if p < 28 then (0, p) else (0, 32 + (p - 28))

/-- Is a lockstep reload in progress (R504)? -/
def State.reloading (s : State) : Bool := s.power.reload.isSome

/-- Send an MSI-X message; one due in a reload goes out when the reload completes (R505). -/
def State.msix (s : State) (fn vec : Nat) : State :=
  s.emit (match s.power.reload with | some c => .msixAt c fn vec | none => .msix fn vec)

/-- Compare the block's interrupt line before and after a change, and send the message on a rise (R494). -/
def State.irqEdge (before after : State) (p : Nat) : State :=
  if !before.irqLine p && after.irqLine p then after.msix (pageVector p).1 (pageVector p).2 else after

/-- Set a status bit of block `p`. -/
def State.setSts (s : State) (p : Nat) (f : Fld) : State := State.irqEdge s (s.fset f 1) p

/-! ### Queues -/

/-- Entries of each FIFO (R452). -/
def fifoEntries (f : Nat) : Nat := if f == 0 then 1024 else if f == 1 then 4096 else if f == 2 then 16384 else 512

/-- A FIFO by index. -/
def State.fifo (s : State) (f : Nat) : Fifo := s.fifos.getD f {}

/-- Change a FIFO. -/
def State.setFifo (s : State) (f : Nat) (g : Fifo → Fifo) : State := { s with fifos := modAt g f s.fifos }

/-- The words with END set: whole packets held (R455). -/
def Fifo.packets (q : Fifo) : Nat := (q.items.filter (fun w => w.toNat / 256 % 2 == 1)).length

/-- An event word (R460): type, END, word index, context and payload bits at their places. -/
def evWord (typ : Nat) (last : Bool) (word ctx payload : Nat) : BitVec 512 :=
  BitVec.ofNat 512 (typ % 256 + (if last then 256 else 0) + word % 8 * 512 + ctx % 4 * 4096 + payload)

/-- The gap marker of FIFOs 1 to 3 (R461). -/
def gapWord (tick count : Nat) (rst : Bool) : BitVec 512 :=
  evWord 0 true 0 0 (tick % 2 ^ 32 * 2 ^ 16 + min count (2 ^ 32 - 1) * 2 ^ 48 + (if rst then 2 ^ 80 else 0))

/-- Append words to a FIFO that holds a whole packet from then on. -/
def Fifo.push (q : Fifo) (ws : List (BitVec 512)) (now : Nat) : Fifo :=
  { q with items := q.items ++ ws, waitingSince := some (q.waitingSince.getD now) }

/-- A producer's whole packet: written when room allows with its gap marker, else dropped and counted (R454). -/
def State.post (s : State) (f : Nat) (ws : List (BitVec 512)) : State :=
  let q := s.fifo f
  if q.items.length + ws.length + 1 ≤ fifoEntries f then
    let gap := if q.dropped == 0 then [] else [gapWord s.tickCount q.dropped false]
    s.setFifo f (fun q => { q.push (gap ++ ws) s.now with dropped := 0 })
  else
    State.irqEdge s (((s.setFifo f (fun q => { q with dropped := q.dropped + 1 })).fadd (EVQ_LEVEL_DROPPED.ix f) 1).fset
      EVQ_STS_DROP (Nat.lor (s.fget EVQ_STS_DROP) (2 ^ f))) 7

/-- The words of an event packet: payloads at their bit places, the tick count added to word 0 (R460). -/
def evPacket (typ ctx tick : Nat) : Nat → List Nat → List (BitVec 512)
  | _, [] => []
  | i, [p] => [evWord typ true i ctx (p + if i == 0 then tick % 2 ^ 32 * 2 ^ 16 else 0)]
  | i, p :: q :: r =>
    evWord typ false i ctx (p + if i == 0 then tick % 2 ^ 32 * 2 ^ 16 else 0) :: evPacket typ ctx tick (i + 1) (q :: r)

/-- Post an event into the event egress FIFO (R461); one due in a reload is posted after it (R505). -/
def State.event (s : State) (typ ctx : Nat) (payload : List Nat) : State :=
  if s.reloading then s.setFifo 1 (fun q => { q with late := q.late ++ [(typ, ctx, payload)] })
  else s.post 1 (evPacket typ ctx s.tickCount 0 payload)

/-- The reload is over: the events that fell due in it are posted (R505). -/
def State.reloadOver (s : State) : State :=
  (s.fifo 1).late.foldl (fun s e => s.event e.1 e.2.1 e.2.2)
    ((s.withPower (fun p => { p with reload := none })).setFifo 1 (fun q => { q with late := [] }))

/-- Post a record into the trace FIFO (R520). -/
def State.trace (s : State) (typ ctx : Nat) (payload : Nat) : State :=
  s.post 2 (evPacket typ ctx s.tickCount 0 [payload])

/-- The context that events of the running job carry; 0 when none runs. -/
def State.evCtx (s : State) : Nat := s.job.ctx.getD 0

/-! ### Capture triggers (R514 to R516) -/

/-- A capture trigger with its absolute capture cycle: held copies ignore it, a capture not yet latched within 32 cyc
takes it in, and otherwise it waits for its cycle. -/
def State.capTrigger (s : State) (cycle src : Nat) : State :=
  if s.fbit HULL_CAPTURE_CFG_HOLD && s.fbit HULL_CAPTURE_ID_HELD then
    (s.fadd HULL_CAPTURE_ID_MISSED 1).setSts 0 HULL_FAULT_STS_CAPTURE_MISSED
  else
    match s.cap.pend.find? (fun p => decide (p.1 ≤ cycle) && decide (cycle ≤ p.1 + 32)) with
    | some p =>
      { s with cap := { s.cap with pend := s.cap.pend.map (fun q => if q == p then (q.1, Nat.lor q.2 src) else q) } }
    | none => { s with cap := { s.cap with pend := s.cap.pend ++ [(cycle, src)] } }

/-- A fault of a class at or above FAULT_MIN triggers a capture 32 cyc later (R514). -/
def State.capFault (s : State) (cls : Nat) : State :=
  if s.fget HULL_CAPTURE_CFG_FAULT_MIN ≤ cls && s.fget HULL_CAPTURE_CFG_FAULT_MIN ≤ 4 then s.capTrigger (s.now + 32) 4
  else s

/-! ### The fault classes -/

/-- The FAULT_AB trace record of a class A or B status bit (R520). -/
def State.traceAB (s : State) (cls p : Nat) (f : Fld) : State :=
  if s.fbit (if cls == 0 then HULL_CAPTURE_CFG_TRACE_A else HULL_CAPTURE_CFG_TRACE_B) then
    s.trace 0x81 s.evCtx (cls * 2 ^ 48 + pageWindow p * 2 ^ 49 + f.lo * 2 ^ 54 + f.base % 0x1000000 * 2 ^ 62
      + s.relCyc % 2 ^ 40 * 2 ^ 86)
  else s

/-- A class A fault without a status bit: it only triggers (R489, R514). -/
def State.classA (s : State) : State := s.capFault 0

/-- A class A fault whose source has a status bit. -/
def State.classASts (s : State) (p : Nat) (f : Fld) : State := ((s.setSts p f).traceAB 0 p f).capFault 0

/-- FAULT_B of the tick to which R302 attributes a fault. -/
def State.markB (s : State) : State :=
  if s.run.healthSent then s.withRun (fun r => { r with lateB := true }) else s.withRun (fun r => { r with faultB := true })

/-- FAULT_C of the tick to which R302 attributes a fault. -/
def State.markC (s : State) : State :=
  if s.run.healthSent then s.withRun (fun r => { r with lateC := true }) else s.withRun (fun r => { r with faultC := true })

/-- A class B fault without a status bit of its own (R490). -/
def State.classB (s : State) : State := s.markB.capFault 1

/-- A class B fault whose source has a status bit (R490). -/
def State.classBSts (s : State) (p : Nat) (f : Fld) : State := ((s.setSts p f).traceAB 1 p f).classB

/-- The attend record of a block. -/
def State.attendOf (s : State) (p : Nat) : Attend := (assocGet s.attend p).getD {}

/-- Start the attend timer when it is idle, and keep the first unacknowledged bit (R495, R521). -/
def State.attendStart (s : State) (p : Nat) (f : Fld) (cause fifo : Nat) : State :=
  let a := s.attendOf p
  let b : Attend :=
    { expiry := some (a.expiry.getD (s.now + s.fget (ATTEND_CFG_TIMEOUT.pageOf p) * 2000000)),
      first := some (a.first.getD (f.base % 0x1000000, f.lo)),
      cause := if a.expiry.isSome then a.cause else cause,
      fifo := if a.expiry.isSome then a.fifo else fifo }
  { s with attend := assocPut s.attend p b }

/-- The FAULT event (R461). -/
def State.faultEvent (s : State) (cls p : Nat) (off bit : Nat) : State :=
  s.event 8 s.evCtx [cls * 2 ^ 48 + pageWindow p * 2 ^ 51 + bit * 2 ^ 56 + off % 0x1000000 * 2 ^ 64]

/-- A class C fault: status bit and interrupt, FAULT event, attend timer, health bit and count (R491, R495). `cause`
is the abort cause that an expiry would give (R415), `fifo` the FIFO whose fault it is (R496). -/
def State.classCWith (s : State) (p : Nat) (f : Fld) (cause fifo : Nat) : State :=
  (((((s.setSts p f).faultEvent 2 p f.base f.lo).attendStart p f cause fifo).markC).fadd
    (FAULT_CNT_C_RAISED.pageOf p) 1).capFault 2

/-- A class C fault of an ordinary source. -/
def State.classC (s : State) (p : Nat) (f : Fld) : State := s.classCWith p f 5 0

/-- Set the module's non-finite health bit from block `p`; the first time in a tick is recorded (R511). -/
def State.setNonfinite (s : State) (p : Nat) : State :=
  if s.run.nonfinite then s
  else
    let s := s.withRun (fun r => { r with nonfinite := true })
    let s := s.record HULL_NF_FIRST_VALID
      [(HULL_NF_FIRST_WINDOW, pageWindow p), (HULL_NF_FIRST_TILE, pageTile p),
       (HULL_NF_FIRST_CYCLE, s.cyc), (HULL_NF_FIRST_TICK, s.tickCount)]
    s.setSts 0 HULL_FAULT_STS_NONFINITE

end Sys2Proof.Machine
end

