-- ==== Sys2Proof/Machine/Fp.lean ====
section
/-! DEFINITION. Floating-point arithmetic: formats, exact values, rounding, conversions, the bfloat pair and
stochastic rounding (03_formats.md, R68 to R105; R118, R625). Every operation computes the exact value as an
integer times a power of two and rounds once. -/

namespace Sys2Proof.Machine

/-- A floating-point format of R69: widths, bias, and its special magnitude patterns. -/
structure FpFmt where
  wd : Nat
  frac : Nat
  bias : Nat
  maxFin : Nat
  inf : Option Nat
  nan : Nat
  deriving DecidableEq, Repr

/-- FP32 (R69). -/
def fmtFp32 : FpFmt := ⟨32, 23, 127, 0x7F7FFFFF, some 0x7F800000, 0x7FC00000⟩
/-- BF16 (R69). -/
def fmtBf16 : FpFmt := ⟨16, 7, 127, 0x7F7F, some 0x7F80, 0x7FC0⟩
/-- FP16 (R69). -/
def fmtFp16 : FpFmt := ⟨16, 10, 15, 0x7BFF, some 0x7C00, 0x7E00⟩
/-- FP8 E4M3: no infinity, and only the all-ones magnitude is NaN (R69). -/
def fmtE4m3 : FpFmt := ⟨8, 3, 7, 0x7E, none, 0x7F⟩
/-- FP8 E5M2 (R69). -/
def fmtE5m2 : FpFmt := ⟨8, 2, 15, 0x7B, some 0x7C, 0x7E⟩

/-- A floating-point datum: NaN, an infinity, or the finite value `± m · 2^e` (a zero keeps its sign, R71). -/
inductive FVal
  | nan
  | inf (neg : Bool)
  | fin (neg : Bool) (m : Nat) (e : Int)
  deriving DecidableEq, Repr

/-- The events that a conversion or an operation counts (R95 to R98, R118, R625). -/
structure FpEv where
  sat : Bool := false
  van : Bool := false
  sub : Bool := false
  nanGen : Bool := false
  nanProp : Bool := false
  deriving DecidableEq, Repr

/-- No event. -/
def FpEv.zero : FpEv := {}

/-- The events of either. -/
def FpEv.or (a b : FpEv) : FpEv :=
  ⟨a.sat || b.sat, a.van || b.van, a.sub || b.sub, a.nanGen || b.nanGen, a.nanProp || b.nanProp⟩

/-- A rounded result: its encoding, its events and whether the rounding was inexact. -/
structure FpRes where
  bits : Nat
  ev : FpEv
  inexact : Bool
  deriving DecidableEq, Repr

/-- The value of an encoding (R69, R70). -/
def fpDecode (f : FpFmt) (b : Nat) : FVal :=
  let neg := (b / 2 ^ (f.wd - 1)) % 2 == 1
  let mag := b % 2 ^ (f.wd - 1)
  let x := mag / 2 ^ f.frac
  let fr := mag % 2 ^ f.frac
  if f.inf == some mag then .inf neg
  else if f.maxFin < mag then .nan
  else if x == 0 then .fin neg fr (1 - (f.bias : Int) - f.frac)
  else .fin neg (fr + 2 ^ f.frac) ((x : Int) - f.bias - f.frac)

/-- Put the sign on a magnitude pattern. -/
def fpSigned (f : FpFmt) (neg : Bool) (mag : Nat) : Nat := if neg then 2 ^ (f.wd - 1) + mag else mag

/-- Round `n · 2^e` to an integer multiple of `2^q`, nearest with ties to even; with the inexact flag. -/
def rneTo (n : Nat) (e q : Int) : Nat × Bool :=
  if q ≤ e then (n * 2 ^ (e - q).toNat, false)
  else
    let d := (q - e).toNat
    let sig := n / 2 ^ d
    let rem := n % 2 ^ d
    let half := 2 ^ (d - 1)
    (if rem > half || (rem == half && sig % 2 == 1) then sig + 1 else sig, rem != 0)

/-- The magnitude pattern of `n · 2^e` rounded once to the format with an unbounded exponent (R94, R95). -/
def fpRoundMag (f : FpFmt) (n : Nat) (e : Int) : Nat × Bool :=
  if n == 0 then (0, false)
  else
    let q := max (e + (Nat.log2 n : Int) - f.frac) (1 - (f.bias : Int) - f.frac)
    let r := rneTo n e q
    (((q + f.bias + f.frac).toNat - 1) * 2 ^ f.frac + r.1, r.2)

/-- Round a finite value once to the format: saturation, vanishing and subnormal results are flagged (R94, R95, R98). -/
def fpRound (f : FpFmt) (neg : Bool) (n : Nat) (e : Int) : FpRes :=
  let r := fpRoundMag f n e
  if f.maxFin < r.1 then ⟨fpSigned f neg f.maxFin, { sat := true }, true⟩
  else ⟨fpSigned f neg r.1,
    { van := r.1 == 0 && n != 0, sub := r.1 != 0 && decide (r.1 < 2 ^ f.frac) }, r.2⟩

/-- Conversion of a value into a floating-point target (R94 to R98). -/
def fpEncode (f : FpFmt) : FVal → FpRes
  | .nan => ⟨f.nan, { nanProp := true }, false⟩
  | .inf neg =>
    match f.inf with
    | some i => ⟨fpSigned f neg i, {}, false⟩
    | none => ⟨f.nan, { nanGen := true }, false⟩
  | .fin neg m e => fpRound f neg m e

/-- Scale a value by `2^k`, exactly (R74, R77). -/
def FVal.scale (k : Int) : FVal → FVal
  | .fin s m e => .fin s m (e + k)
  | v => v

/-- Is the value a NaN? -/
def FVal.isNan : FVal → Bool
  | .nan => true
  | _ => false

/-- Is the value a zero of either sign? -/
def FVal.isZero : FVal → Bool
  | .fin _ m _ => m == 0
  | _ => false

/-- Is the value NaN or infinite? -/
def FVal.nonfinite : FVal → Bool
  | .fin _ _ _ => false
  | _ => true

/-- The value with its sign flipped. -/
def FVal.neg : FVal → FVal
  | .nan => .nan
  | .inf s => .inf (!s)
  | .fin s m e => .fin (!s) m e

/-- The value's magnitude. -/
def FVal.abs : FVal → FVal
  | .nan => .nan
  | .inf _ => .inf false
  | .fin _ m e => .fin false m e

/-- The signed integer mantissa at exponent `q`, for `q` at or below the value's own exponent. -/
def mantAt (s : Bool) (m : Nat) (e q : Int) : Int :=
  let k := (m : Int) * 2 ^ (e - q).toNat
  if s then -k else k

/-- Exact comparison `a < b` of two finite values. -/
def finLt (s : Bool) (m : Nat) (e : Int) (s' : Bool) (m' : Nat) (e' : Int) : Bool :=
  let q := min e e'
  decide (mantAt s m e q < mantAt s' m' e' q)

/-- `a < b` for two values that are not NaN; false when either is NaN. -/
def FVal.lt : FVal → FVal → Bool
  | .fin s m e, .fin s' m' e' => finLt s m e s' m' e'
  | .inf true, .inf false => true
  | .inf true, .fin _ _ _ => true
  | .fin _ _ _, .inf false => true
  | _, _ => false

/-- The exact sum of two values, and whether it was an invalid `∞ − ∞`. An exact cancellation gives +0. -/
def FVal.add : FVal → FVal → FVal × Bool
  | .nan, _ => (.nan, false)
  | _, .nan => (.nan, false)
  | .inf s, .inf s' => if s == s' then (.inf s, false) else (.nan, true)
  | .inf s, .fin _ _ _ => (.inf s, false)
  | .fin _ _ _, .inf s => (.inf s, false)
  | .fin s m e, .fin s' m' e' =>
    if m == 0 && m' == 0 then (.fin (s && s') 0 0, false)
    else
      let q := min e e'
      let t := mantAt s m e q + mantAt s' m' e' q
      (.fin (decide (t < 0)) t.natAbs q, false)

/-- The exact product of two values, and whether it was an invalid `0 · ∞`. -/
def FVal.mul : FVal → FVal → FVal × Bool
  | .nan, _ => (.nan, false)
  | _, .nan => (.nan, false)
  | .inf s, .inf s' => (.inf (s != s'), false)
  | .inf s, .fin s' m' _ => if m' == 0 then (.nan, true) else (.inf (s != s'), false)
  | .fin s m _, .inf s' => if m == 0 then (.nan, true) else (.inf (s != s'), false)
  | .fin s m e, .fin s' m' e' => (.fin (s != s') (m * m') (e + e'), false)

/-- Round an exact result to FP32 under R118 and R625; `inv` marks an invalid operation, `prop` a NaN operand. -/
def fpFinish (v : FVal × Bool) (prop : Bool) : FpRes :=
  match v.1 with
  | .nan => ⟨fmtFp32.nan, { nanGen := v.2 && !prop, nanProp := prop }, false⟩
  | w => fpEncode fmtFp32 w

/-- The FP32 datum of a word. -/
def f32 (w : Nat) : FVal := fpDecode fmtFp32 w

/-- FP32 addition with one RNE rounding (R116, R118, R625). -/
def fpAdd (a b : Nat) : FpRes := fpFinish ((f32 a).add (f32 b)) ((f32 a).isNan || (f32 b).isNan)

/-- FP32 subtraction. -/
def fpSub (a b : Nat) : FpRes := fpFinish ((f32 a).add (f32 b).neg) ((f32 a).isNan || (f32 b).isNan)

/-- FP32 multiplication with one RNE rounding (R625). -/
def fpMul (a b : Nat) : FpRes := fpFinish ((f32 a).mul (f32 b)) ((f32 a).isNan || (f32 b).isNan)

/-- FP32 fused multiply-add `a · b + c` with one RNE rounding (R625). -/
def fpFma (a b c : Nat) : FpRes :=
  let p := (f32 a).mul (f32 b)
  let t := p.1.add (f32 c)
  fpFinish (t.1, p.2 || t.2) ((f32 a).isNan || (f32 b).isNan || (f32 c).isNan)

/-- The exact quotient `m · 2^e / (m' · 2^e')` with enough bits and a sticky bit to round once. -/
def quotMag (m : Nat) (e : Int) (m' : Nat) (e' : Int) : Nat × Int :=
  let k := 64 + Nat.log2 m'
  let n := m * 2 ^ k
  (2 * (n / m') + (if n % m' == 0 then 0 else 1), e - e' - k - 1)

/-- FP32 division with one RNE rounding and the special cases of R625. -/
def fpDiv (a b : Nat) : FpRes :=
  match f32 a, f32 b with
  | .nan, _ => ⟨fmtFp32.nan, { nanProp := true }, false⟩
  | _, .nan => ⟨fmtFp32.nan, { nanProp := true }, false⟩
  | .inf _, .inf _ => ⟨fmtFp32.nan, { nanGen := true }, false⟩
  | .inf s, .fin s' _ _ => fpEncode fmtFp32 (.inf (s != s'))
  | .fin s _ _, .inf s' => fpEncode fmtFp32 (.fin (s != s') 0 0)
  | .fin s m e, .fin s' m' e' =>
    if m' == 0 then
      (if m == 0 then ⟨fmtFp32.nan, { nanGen := true }, false⟩ else fpEncode fmtFp32 (.inf (s != s')))
    else
      let q := quotMag m e m' e'
      fpRound fmtFp32 (s != s') q.1 q.2

/-- Integer square root by bits from bit `k` down: the largest `r` with `r² ≤ n`, `r < 2^(k+1)`. -/
def isqrtBits (n : Nat) : Nat → Nat → Nat
  | 0, r => if (r + 1) * (r + 1) ≤ n then r + 1 else r
  | k + 1, r =>
    let c := r + 2 ^ (k + 1)
    isqrtBits n k (if c * c ≤ n then c else r)

/-- The integer square root of `n`. -/
def isqrt (n : Nat) : Nat := isqrtBits n (Nat.log2 n / 2 + 1) 0

/-- FP32 square root with one RNE rounding; a negative nonzero operand is invalid (R625). -/
def fpSqrt (a : Nat) : FpRes :=
  match f32 a with
  | .nan => ⟨fmtFp32.nan, { nanProp := true }, false⟩
  | .inf s => if s then ⟨fmtFp32.nan, { nanGen := true }, false⟩ else fpEncode fmtFp32 (.inf false)
  | .fin s m e =>
    if m == 0 then fpEncode fmtFp32 (.fin s 0 0)
    else if s then ⟨fmtFp32.nan, { nanGen := true }, false⟩
    else
      let k : Nat := if e % 2 == 0 then 64 else 65
      let n := m * 2 ^ k
      let r := isqrt n
      fpRound fmtFp32 false (2 * r + (if r * r == n then 0 else 1)) ((e - k) / 2 - 1)

/-- FP32 maximum; a NaN operand gives the canonical NaN (R625). -/
def fpMax (a b : Nat) : FpRes :=
  if (f32 a).isNan || (f32 b).isNan then ⟨fmtFp32.nan, { nanProp := true }, false⟩
  else if (f32 a).lt (f32 b) || ((f32 a).isZero && (f32 b).isZero && 0x80000000 ≤ a) then ⟨b, {}, false⟩
  else ⟨a, {}, false⟩

/-- FP32 reciprocal (R625). -/
def fpRecip (a : Nat) : FpRes := fpDiv 0x3F800000 a

/-- FP32 exponential: special cases and overflow of R625; every other value is the opaque `Config.expF`. -/
def fpExp (a : Nat) : FpRes :=
  match f32 a with
  | .nan => ⟨fmtFp32.nan, { nanProp := true }, false⟩
  | .inf s => if s then ⟨0, {}, false⟩ else fpEncode fmtFp32 (.inf false)
  | .fin s m _ =>
    if m == 0 then ⟨0x3F800000, {}, false⟩
    else if !s && decide (0x42B17218 ≤ a) then ⟨fmtFp32.maxFin, { sat := true }, true⟩
    else ⟨(Config.expF (BitVec.ofNat 32 a)).toNat, {}, true⟩

/-- FP32 reciprocal square root: special cases of R625; positive finite operands are the opaque `Config.rsqrtF`. -/
def fpRsqrt (a : Nat) : FpRes :=
  match f32 a with
  | .nan => ⟨fmtFp32.nan, { nanProp := true }, false⟩
  | .inf s => if s then ⟨fmtFp32.nan, { nanGen := true }, false⟩ else ⟨0, {}, false⟩
  | .fin s m _ =>
    if m == 0 then fpEncode fmtFp32 (.inf s)
    else if s then ⟨fmtFp32.nan, { nanGen := true }, false⟩
    else ⟨(Config.rsqrtF (BitVec.ofNat 32 a)).toNat, {}, true⟩

/-- FP32 `x · sigmoid(x)`: sigmoid is the opaque `Config.sigmoidF` on nonzero finite x, and the product rounds once (R483). -/
def fpSilu (a : Nat) : FpRes :=
  match f32 a with
  | .nan => ⟨fmtFp32.nan, { nanProp := true }, false⟩
  | .inf s => fpMul a (if s then 0 else 0x3F800000)
  | .fin _ m _ => fpMul a (if m == 0 then 0x3F000000 else (Config.sigmoidF (BitVec.ofNat 32 a)).toNat)

/-- The value of a BP32 element: the exact sum of its halves (R78); two zero halves carry the sign of hi (R71). DESIGN CHOICE
(R80 has a pair that breaks the invariant used as stored, and the spec gives no value to infinite halves of opposite sign):
such a pair is a NaN source. -/
def bp32Val (w : Nat) : FVal :=
  match fpDecode fmtBf16 (w / 0x10000 % 0x10000), fpDecode fmtBf16 (w % 0x10000) with
  | .fin s 0 _, .fin _ 0 _ => .fin s 0 0
  | hi, lo => (hi.add lo).1

/-- The value of an SQ64 element `q · 2^e` (R85). -/
def sq64Val (q : Int) (e : Int) : FVal := .fin (decide (q < 0)) q.natAbs e

/-- The last step of R83: where `lo` is exactly half an ulp of an odd `hi`, step to the even neighbour. -/
def renormTie (hi lo : Nat) : Nat × Nat :=
  let x := max (hi % 0x8000 / 128) 1
  let half : Bool := match fpDecode fmtBf16 (lo % 0x8000) with
    | .fin _ m e => m != 0 && (rneTo m e ((x : Int) - 135) == (1, false))
    | _ => false
  if half && hi % 2 == 1 && hi % 0x8000 == 0x7F7F && hi / 0x8000 == lo / 0x8000 then
    (hi, lo / 0x8000 * 0x8000 + 0x7AFF)
  else if half && hi % 2 == 1 then
    let s := ((fpDecode fmtBf16 hi).add ((fpDecode fmtBf16 lo).scale 1)).1
    ((fpEncode fmtBf16 s).bits, if lo / 0x8000 == 1 then lo - 0x8000 else lo + 0x8000)
  else (hi, lo)

/-- The renormaliser of R83 on an exact finite value; `neg` is sign(v), also for a zero. -/
def renormFin (neg : Bool) (m : Nat) (e : Int) : FpRes :=
  if !(finLt false m e false 511 119) then
    ⟨(fpSigned fmtBf16 neg 0x7F7F) * 0x10000, { sat := true }, true⟩
  else
    let h := fpRound fmtBf16 neg m e
    let r := ((FVal.fin neg m e).add (fpDecode fmtBf16 h.bits).neg).1
    let l := fpEncode fmtBf16 r
    let t := renormTie h.bits l.bits
    let hi := if t.1 % 0x8000 == 0 then fpSigned fmtBf16 neg 0 else t.1
    let lo := if t.2 % 0x8000 == 0 || hi % 0x8000 == 0 then 0 else t.2
    ⟨hi * 0x10000 + lo,
      { van := hi % 0x8000 == 0 && m != 0, sub := hi % 0x8000 != 0 && decide (hi % 0x8000 < 128) }, l.inexact⟩

/-- The renormaliser of R83 on the exact sum of two FP32 values. -/
def renorm (a b : Nat) : FpRes :=
  match f32 a, f32 b with
  | .nan, _ => ⟨0x7FC00000, { nanProp := true }, false⟩
  | _, .nan => ⟨0x7FC00000, { nanProp := true }, false⟩
  | .inf s, .inf s' =>
    if s == s' then ⟨fpSigned fmtBf16 s 0x7F80 * 0x10000, {}, false⟩ else ⟨0x7FC00000, { nanGen := true }, false⟩
  | .inf s, .fin _ _ _ => ⟨fpSigned fmtBf16 s 0x7F80 * 0x10000, {}, false⟩
  | .fin _ _ _, .inf s => ⟨fpSigned fmtBf16 s 0x7F80 * 0x10000, {}, false⟩
  | .fin s m e, .fin s' m' e' =>
    match (FVal.add (.fin s m e) (.fin s' m' e')).1 with
    | .fin t n q => renormFin (if m == 0 && m' == 0 then s else t) n q
    | _ => ⟨0x7FC00000, {}, false⟩

/-- The renormaliser on one value of any floating-point source (R82, R83, R93). -/
def renormVal : FVal → FpRes
  | .nan => ⟨0x7FC00000, { nanProp := true }, false⟩
  | .inf s => ⟨fpSigned fmtBf16 s 0x7F80 * 0x10000, {}, false⟩
  | .fin s m e => renormFin s m e

/-- Conversion of an FP32 value to SQ64 at exponent `e` (R88, R89): none for a non-finite input; the element,
whether it is a range breach, and whether a nonzero input vanished. -/
def toSq64 (x : FVal) (e : Int) : Option (Int × Bool × Bool) :=
  match x with
  | .fin s m q =>
    let r := (rneTo m q e).1
    some (if s then -(r : Int) else r, decide (2 ^ 62 ≤ r), r == 0 && m != 0)
  | _ => none

/-- Narrow an accumulator value `v · 2^es` to SQ64 at exponent `ec`, with the range-breach flag (R87). -/
def narrowSq64 (v : Int) (es ec : Int) : Int × Bool :=
  let r := (rneTo v.natAbs es ec).1
  (if v < 0 then -(r : Int) else r, decide (2 ^ 62 ≤ r))

/-- The mixing function of R104. -/
def srMix (z : Nat) : Nat :=
  let z := Nat.xor z (z / 2 ^ 31)
  let z := z * 0xa3c59ac23d4e8f1b % 2 ^ 64
  let z := Nat.xor z (z / 2 ^ 29)
  let z := z * 0x8e5b7c21f6d3a947 % 2 ^ 64
  Nat.xor z (z / 2 ^ 32)

/-- The 16-bit value of R104 for one element. -/
def srRnd (seed t tensor index : Nat) : Nat :=
  let z := srMix (Nat.xor t 0x5a17c3e90b6d24f1)
  let z := srMix (Nat.xor z seed)
  let z := srMix (Nat.xor z ((tensor * 2 ^ 44 + index) % 2 ^ 64))
  z % 0x10000

/-- Stochastic rounding of an FP32 word to BF16 (R102). -/
def srBf16 (x rnd : Nat) : FpRes :=
  match f32 x with
  | .fin s m _ =>
    let p := (x % 0x80000000 + rnd) % 0x80000000 / 0x10000
    let y := if 0x7F80 ≤ p then 0x7F7F else p
    ⟨fpSigned fmtBf16 s y,
      { sat := decide (0x7F80 ≤ p), van := y == 0 && m != 0, sub := y != 0 && decide (y < 128) },
      m != 0 && x % 0x10000 != 0⟩
  | v => fpEncode fmtBf16 v

end Sys2Proof.Machine
end

