-- ==== Sys2Proof/Machine/Operands.lean ====
section
/-! DEFINITION. Operand forms: the fields of a stream word (R130, R483), the operand SRAM lines and their elements
in every format and orientation (R106 to R109), the accumulator SRAM and its marks (R110), and what an issue does to
a tile's sequencer (R113). -/

namespace Sys2Proof.Machine

/-! ### Fields of a stream word -/

/-- Bits `[lo + wd - 1 : lo]` of a stream word. -/
def wbits (w : Word256) (lo wd : Nat) : Nat := getBits w.toNat lo wd

def wOpcode (w : Word256) : Nat := wbits w 0 8
def wLpod (w : Word256) : Nat := wbits w 8 3
def wAdd (w : Word256) : Bool := wbits w 11 1 == 1
def wFmt (w : Word256) : Nat := wbits w 12 4
def wPhase (w : Word256) : Nat := wbits w 16 4
def wFence (w : Word256) : Nat := wbits w 20 4
def wAcc (w : Word256) : Nat := wbits w 24 8
def wChain (w : Word256) : Bool := wbits w 32 1 == 1
def wMaskKind (w : Word256) : Nat := wbits w 33 2
def wTA (w : Word256) : Bool := wbits w 35 1 == 1
def wTB (w : Word256) : Bool := wbits w 36 1 == 1
def wPass (w : Word256) : Nat := wbits w 37 2
def wRows (w : Word256) : Nat := wbits w 40 7 + 1
def wTokDim (w : Word256) : Nat := wbits w 47 2
def wIssue (w : Word256) : Nat := wbits w 64 40
def wKlen (w : Word256) : Nat := wbits w 104 16 + 1
def wALine (w : Word256) : Nat := wbits w 128 17
def wBLine (w : Word256) : Nat := wbits w 145 17
def wAScale (w : Word256) : Nat := wbits w 162 17
def wBScale (w : Word256) : Nat := wbits w 192 17
def wMaskLine (w : Word256) : Nat := wbits w 209 17
def wSlot (w : Word256) : Nat := wbits w 226 10
def wTokBase (w : Word256) : Nat := wbits w 236 20
/-- Family field X of a word that is no pod word (R483). -/
def wX (w : Word256) : Nat := wbits w 32 32
/-- Family field Y (R483). -/
def wY (w : Word256) : Nat := wbits w 104 24
/-- Address A (R483). -/
def wA (w : Word256) : Nat := wbits w 128 57
/-- Address B (R483). -/
def wB (w : Word256) : Nat := wbits w 192 57

/-- The absolute cycle of a word's ISSUE in the current tick (R113). -/
def State.issueAbs (s : State) (w : Word256) : Nat := s.edgeAt + wIssue w

/-! ### Operand SRAM -/

/-- Key of operand line `l` of tile `n`. -/
def lineKey (n l : Nat) : Nat := n * 2 ^ 17 + l

/-- Insert a line write behind those that land no later. -/
def insLine (w : LineWrite) : List LineWrite → List LineWrite
  | [] => [w]
  | v :: r => if v.at_ ≤ w.at_ then v :: insLine w r else w :: v :: r

/-- The writes of this tick that have landed in operand line `l` of tile `n` by absolute cycle `x`, in order. -/
def State.lineWrites (s : State) (n l x : Nat) : List LineWrite :=
  s.tiles.lines.filter (fun w => w.key == lineKey n l && decide (w.at_ ≤ x))

/-- A line with one write landed in it. -/
def LineWrite.land (w : LineWrite) (g : Granule) : Granule := BitVec.ofNat 2048 (putBits g.toNat w.lo w.wd w.v)

/-- The content of operand line `l` of tile `n` on absolute cycle `x`: what it held when the tick opened, and every write
that has landed in it since (R601, R602). -/
def State.opLineAt (s : State) (n l x : Nat) : Granule :=
  (s.lineWrites n l x).foldl (fun g w => w.land g) (tabGet (fun _ => 0) s.tiles.opLine (lineKey n l))

/-- The format tag of an operand line on absolute cycle `x`: that of the write which last filled it (R92). DESIGN CHOICE (the spec
gives a line that nothing has filled neither code nor content): code 0 and content 0. -/
def State.opTagAt (s : State) (n l x : Nat) : Nat :=
  (s.lineWrites n l x).foldl (fun _ w => w.tag) (tabGet (fun _ => 0) s.tiles.opTag (lineKey n l))

/-- Write bits `[lo + wd - 1 : lo]` of an operand line, landing on absolute cycle `x`, and set its format tag (R92). -/
def State.setOpBits (s : State) (n l lo wd v tag x : Nat) : State :=
  s.withTiles (fun t => { t with lines := insLine ⟨x, lineKey n l, lo, wd, v, tag⟩ t.lines })

/-- Fill an operand line on absolute cycle `x` and set its format tag (R92). -/
def State.setOpLine (s : State) (n l : Nat) (v : Granule) (tag x : Nat) : State := s.setOpBits n l 0 2048 v.toNat tag x

/-- Bits `[lo + wd - 1 : lo]` of a line on absolute cycle `x`. -/
def State.opBits (s : State) (n l x lo wd : Nat) : Nat := getBits (s.opLineAt n l x).toNat lo wd

/-- Bring one write of the tick that ends into the line it fills. -/
def Tiles.landLine (t : Tiles) (w : LineWrite) : Tiles :=
  { t with opLine := tabPut (fun _ => 0) t.opLine w.key (w.land (tabGet (fun _ => 0) t.opLine w.key)),
           opTag := tabPut (fun _ => 0) t.opTag w.key w.tag }

/-- The tiles on a tick edge at absolute cycle `x`: operand lines keep what has landed, what is still on its way lands
later, and nothing else is under way (R110). -/
def Tiles.landLines (t : Tiles) (x : Nat) : Tiles :=
  let u := (t.lines.filter (fun w => decide (w.at_ ≤ x))).foldl Tiles.landLine t
  { u with lines := t.lines.filter (fun w => decide (x < w.at_)), flights := [], accOld := [], spans := [] }

/-- The tiles with nothing under way: operand lines keep what has landed by absolute cycle `x`, and no more will land. -/
def Tiles.dropFlights (t : Tiles) (x : Nat) : Tiles := { t.landLines x with lines := [] }

/-- The tiles with no bookkeeping of a tick. -/
def Tiles.dropTick (t : Tiles) : Tiles :=
  { t with ended := [], shadowBusy := [], mark := [], pod := [], accHist := [], seqNext := [], slotCnt := [] }

/-- Is the format code one of FP8? -/
def isFp8 (f : Nat) : Bool := f == 3 || f == 4

/-- Reduction indices per stored block (R109; 128 in every format but FP8). -/
def blockLen (f : Nat) : Nat := if isFp8 f then 256 else 128

/-- The floating-point format of a format code of R68 (codes 0 to 4). -/
def fpFmtOf (f : Nat) : FpFmt :=
  if f == 1 then fmtBf16 else if f == 2 then fmtFp16 else if f == 3 then fmtE4m3 else if f == 4 then fmtE5m2 else fmtFp32

/-- Line and bit offset of element (row `r`, position `e`) of stored block `b` of a 16-bit, FP8 or BP32 operand (R106, R78). -/
def elemPlace (f base b r e : Nat) : Nat × Nat :=
  if f == 5 then (base + 256 * b + 2 * r + e / 64, 32 * (e % 64))
  else if isFp8 f then (base + 128 * b + r, 8 * e)
  else (base + 128 * b + r, 16 * e)

/-- Place of the operand element at output index `i` and reduction index `k`; `along` is whether lines run along the
reduction (A flag 0, B flag 1; R107). -/
def operandPlace (f base : Nat) (along : Bool) (i k : Nat) : Nat × Nat :=
  let bl := blockLen f
  if along then elemPlace f base (k / bl) i (k % bl) else elemPlace f base (k / bl) (k % bl) i

/-- A product operand's value, taken on absolute cycle `x`: none where its scale byte is invalid (R75). `half` picks the
BP32 half: 0 lo, 1 hi. -/
def State.operand (s : State) (n f base scale : Nat) (along : Bool) (half i k x : Nat) : Option FVal :=
  let p := operandPlace f base along i k
  if f == 5 then some (fpDecode fmtBf16 (s.opBits n p.1 x (p.2 + 16 * half) 16))
  else if isFp8 f then
    let b := s.opBits n (scale + k / 256) x (8 * (2 * i + k % 256 / 128)) 8
    if b == 0 || b == 255 then none
    else some ((fpDecode (fpFmtOf f) (s.opBits n p.1 x p.2 8)).scale ((b : Int) - 127))
  else some (fpDecode (fpFmtOf f) (s.opBits n p.1 x p.2 16))

/-! ### Accumulator SRAM -/

/-- Key of an accumulator element. -/
def accKey (n a r c : Nat) : Nat := n * 2 ^ 22 + a * 2 ^ 14 + r * 128 + c

/-- One FP32 element of an accumulator tile. -/
def State.accEl (s : State) (n a r c : Nat) : Nat := (tabGet (fun _ => (0 : Word32)) s.tiles.acc (accKey n a r c)).toNat

/-- Is something under way towards the accumulator tile of an element's key? -/
def Tiles.accUnderWay (t : Tiles) (key : Nat) : Bool := t.flights.any (fun f => f.tile * 256 + wAcc f.word == key / 2 ^ 14)

/-- Write one element of an accumulator tile, usable on absolute cycle `x`; what it held stays known while something under way
or an earlier cycle may still want it. -/
def State.setAccEl (s : State) (n a r c v x : Nat) : State :=
  let k := accKey n a r c
  s.withTiles (fun t => { t with
    acc := tabPut (fun _ => (0 : Word32)) t.acc k (BitVec.ofNat 32 v),
    accOld := if decide (s.now < x) || t.accUnderWay k then ⟨k, x, tabGet (fun _ => 0) t.acc k⟩ :: t.accOld else t.accOld })

/-- An accumulator element on absolute cycle `x`, of what has landed: what it held before the first landing after that cycle, or
what it holds. -/
def State.accBase (s : State) (n a r c x : Nat) : Nat :=
  match (s.tiles.accOld.filter (fun o => o.key == accKey n a r c && decide (x < o.at_))).getLast? with
  | some o => o.old.toNat
  | none => s.accEl n a r c

/-- Forget what accumulator elements held where nothing can want it any more. -/
def State.accSweep (s : State) : State :=
  s.withTiles (fun t => { t with accOld := t.accOld.filter (fun o => decide (s.now < o.at_) || t.accUnderWay o.key) })

/-- Do `n` bytes of memory from `a` on touch the control region, which only the hull writes (R324, R326)? -/
def inControlRegion (a n : Nat) : Bool := decide (a < 0xC00000000) && decide (0xBC0000000 < a + n)

/-- A word has written bytes `[lo, lo + n)` of memory, the last of them on cycle `x` (R158, R162). -/
def State.wrote (s : State) (lo n x : Nat) : State := s.withTiles (fun t => { t with spans := ⟨lo, lo + n, x⟩ :: t.spans })

/-- Is a write of this tick to bytes `[lo, hi)` of memory still to complete on cycle `x` (R162)? -/
def State.writing (s : State) (lo hi x : Nat) : Bool :=
  s.tiles.spans.any (fun m => decide (m.lo < hi) && decide (lo < m.hi) && decide (x < m.done))

/-- Does what this tick has written, complete by cycle `x`, cover bytes `[lo, hi)` (R158)? `fuel` bounds the pieces. -/
def coveredBy (spans : List MemSpan) (x : Nat) : Nat → Nat → Nat → Bool
  | 0, lo, hi => decide (hi ≤ lo)
  | k + 1, lo, hi =>
    decide (hi ≤ lo) || match spans.find? (fun m => decide (m.lo ≤ lo) && decide (lo < m.hi) && decide (m.done ≤ x)) with
      | some m => coveredBy spans x k m.hi hi
      | none => false

/-- The marks of an accumulator tile: bit 0 invalid, bit 1 written, bit 2 chain (R110). -/
def State.accMark (s : State) (n a : Nat) : Nat := tabGet (fun _ => 0) s.tiles.mark (n * 256 + a)

/-- Set the marks of an accumulator tile. -/
def State.setAccMark (s : State) (n a m : Nat) : State :=
  s.withTiles (fun t => { t with mark := tabPut (fun _ => 0) t.mark (n * 256 + a) m })

def State.accInvalid (s : State) (n a : Nat) : Bool := getBits (s.accMark n a) 0 1 == 1
def State.accWritten (s : State) (n a : Nat) : Bool := getBits (s.accMark n a) 1 1 == 1
def State.accChain (s : State) (n a : Nat) : Bool := getBits (s.accMark n a) 2 1 == 1

/-- Give one mark (bit `b`) of an accumulator tile a value. -/
def State.accMarkBit (s : State) (n a b : Nat) (v : Bool) : State :=
  s.setAccMark n a (putBits (s.accMark n a) b 1 (if v then 1 else 0))

/-! ### The tile's counters and sequencer -/

/-- The fault page of tile `n`. -/
def tilePage (n : Nat) : Nat := 28 + n

/-- Add to TILE_PHASE_TIME of logical pod `p`, phase `h`, kind `k` (R141). -/
def State.phaseTime (s : State) (n p h k amount : Nat) : State :=
  s.fadd ((TILE_PHASE_TIME_COUNT.ix (64 * p + 4 * h + k)).tile n) amount

/-- Add to TILE_FMT_SHARE of source `src`, format `f`, phase `h`, event `e` (R143). -/
def State.fmtShare (s : State) (n src f h e amount : Nat) : State :=
  if amount == 0 || 7 ≤ f then s else s.fadd ((TILE_FMT_SHARE_COUNT.ix (1024 * src + 128 * f + 8 * h + e)).tile n) amount

/-- Sequence number that the tile's next instruction gets (R113). -/
def State.seqNext (s : State) (n : Nat) : Nat := tabGet (fun _ => 0) s.tiles.seqNext n

/-- The completion cycle of an item that is abandoned: later than any fence. -/
def neverDone : Nat := 2 ^ 64

/-- A scheduled item of block window `w` completes on a cycle, due by a fence (R37). -/
def State.item (s : State) (w done fence : Nat) : State :=
  s.withRun (fun r => { r with items := r.items ++ [(w, done, fence)] })

/-- Record an exception of the instruction with sequence number `seq` in TILE_EXC_FIRST (R139). -/
def State.excFirst (s : State) (n lpod acc seq block cause : Nat) : State :=
  s.record (TILE_EXC_FIRST_VALID.tile n)
    [(TILE_EXC_FIRST_DIE.tile n, n / 10), (TILE_EXC_FIRST_TILE.tile n, n % 10), (TILE_EXC_FIRST_LPOD.tile n, lpod),
     (TILE_EXC_FIRST_ACC.tile n, acc), (TILE_EXC_FIRST_SEQ.tile n, seq),
     (TILE_EXC_FIRST_BLOCK.tile n, block), (TILE_EXC_FIRST_CAUSE.tile n, cause)]

/-- Set the invalid tag of an output tile: NaN generated, the health bit, TILE_STS.INVALID and TILE_EXC_FIRST (R139). -/
def State.tagInvalid (s : State) (n a lpod fmt phase seq block cause : Nat) : State :=
  let s := s.accMarkBit n a 0 true
  let s := s.fmtShare n 0 fmt phase 4 1
  let s := s.setSts (tilePage n) (TILE_STS_INVALID.tile n)
  let s := s.excFirst n lpod a seq block cause
  s.setNonfinite (tilePage n)

/-- The invalid tag on the tile that a word names, for cause 3 of TILE_EXC_FIRST (R115, R92, R132). -/
def State.tagWord (s : State) (n : Nat) (w : Word256) (seq : Nat) : State :=
  s.tagInvalid n (wAcc w) (wLpod w) (wFmt w) (wPhase w) seq 0 3

/-- A stream fault of the instruction with sequence number `seq` (R115): the named tile is tagged invalid, the health bit
is set and class C is raised. -/
def State.streamFaultAt (s : State) (n : Nat) (w : Word256) (seq : Nat) : State :=
  (s.tagWord n w seq).classC (tilePage n) (TILE_STS_STREAM_FAULT.tile n)

/-- A stream fault of the instruction just issued. -/
def State.streamFault (s : State) (n : Nat) (w : Word256) : State := s.streamFaultAt n w (s.fget (TILE_SEQ_LAST.tile n))

/-- Counts of elements and of the events of R95 to R98 and R625. -/
structure EvCnt where
  prod : Nat := 0
  sat : Nat := 0
  van : Nat := 0
  sub : Nat := 0
  nanGen : Nat := 0
  nanProp : Nat := 0
  deriving DecidableEq, Repr

/-- Count one result. -/
def EvCnt.add (c : EvCnt) (e : FpEv) : EvCnt :=
  { prod := c.prod + 1, sat := c.sat + e.sat.toNat, van := c.van + e.van.toNat, sub := c.sub + e.sub.toNat,
    nanGen := c.nanGen + e.nanGen.toNat, nanProp := c.nanProp + e.nanProp.toNat }

/-- Count a vector engine's arithmetic exceptions under source 1, format code 0 (R159, R625), and set the
health bit for a NaN it generates (R99). -/
def State.veEvents (s : State) (n phase : Nat) (c : EvCnt) : State :=
  let s := s.fmtShare n 1 0 phase 0 c.prod
  let s := s.fmtShare n 1 0 phase 1 c.sat
  let s := s.fmtShare n 1 0 phase 2 c.van
  let s := s.fmtShare n 1 0 phase 3 c.sub
  let s := s.fmtShare n 1 0 phase 4 c.nanGen
  let s := s.fmtShare n 1 0 phase 5 c.nanProp
  if c.nanGen == 0 then s else s.setNonfinite (tilePage n)

/-- Count a conversion's events against its target format (R95 to R100, R143). -/
def State.convEvents (s : State) (n fmt phase : Nat) (c : EvCnt) : State :=
  let s := s.fmtShare n 1 fmt phase 0 c.prod
  let s := s.fmtShare n 1 fmt phase 1 c.sat
  let s := s.fmtShare n 1 fmt phase 2 c.van
  let s := s.fmtShare n 1 fmt phase 3 c.sub
  let s := s.fmtShare n 1 fmt phase 4 c.nanGen
  let s := s.fmtShare n 1 fmt phase 5 c.nanProp
  if c.nanGen == 0 then s else s.setNonfinite (tilePage n)

/-- A module of role LENDER runs no training work (R362). -/
def State.isLender (s : State) : Bool := s.fbit HULL_SLOW_LEND_LENDER

/-- Do tile `n`'s stream words run: in a tick that runs its step, or one of another kind than STEP, before the tile's END
(R66, R483)?; a lender's run nothing in a STEP tick
(R362). -/
def State.streamRuns (s : State) (n : Nat) : Bool :=
  s.run.active && ((s.run.stepRuns && !s.isLender) || s.fget TICK_PLAN_CUR_KIND != 0) && !s.tiles.ended.contains n

/-! ### Elements in memory -/

/-- Bytes per element of a format code. -/
def fmtBytes (f : Nat) : Nat := if f == 0 || f == 5 then 4 else if isFp8 f then 1 else if f == 6 then 8 else 2

/-- Read a granule (256 B) of memory. -/
def State.rdGranule (s : State) (a : Nat) : Granule := BitVec.ofNat 2048 (s.rdN a 256)

/-- Write a granule of memory. -/
def State.wrGranule (s : State) (a : Nat) (g : Granule) : State := s.wrN a 256 g.toNat

end Sys2Proof.Machine
end

