-- ==== Sys2Proof/Machine/Image.lean ====
section
/-! DEFINITION. Reading the loaded image: plans and fences (R477), limits (R482), the module map (R471), the state
map, rule sets and learning-rate schedules (R270 to R274), reduction plans (R480), and the step's scalars. -/

namespace Sys2Proof.Machine

/-- Bits of a bit vector of any width. -/
def bvBits {n : Nat} (v : BitVec n) (lo wd : Nat) : Nat := getBits v.toNat lo wd

/-! ### The header -/

def imgId (f : ImageFile) : Nat := bvBits f.header 64 64
def imgStepping (f : ImageFile) : Nat := bvBits f.header 128 16
def imgOrchard (f : ImageFile) : Nat := bvBits f.header 320 32
def imgTick0 (f : ImageFile) : Nat := bvBits f.header 384 4
def imgHash (f : ImageFile) : Nat := bvBits f.header 512 256

/-! ### Tick plans (R477) -/

def planKind (p : PlanImg) : Nat := bvBits p.hdr 0 8
def planNfence (p : PlanImg) : Nat := bvBits p.hdr 8 8
def planNdfence (p : PlanImg) : Nat := bvBits p.hdr 16 16
def planNslot (p : PlanImg) : Nat := bvBits p.hdr 32 16
def planNwave (p : PlanImg) : Nat := bvBits p.hdr 48 8
def planSuccessor (p : PlanImg) : Nat := bvBits p.hdr 56 8
def fenceOff (w : Word64) : Nat := bvBits w 0 40
def fenceKind (w : Word64) : Nat := bvBits w 40 3
def fenceSlack (w : Word64) : Bool := bvBits w 43 1 == 1
def fenceLayout (w : Word64) : Nat := bvBits w 44 4
def dfCycle (d : BitVec 128) : Nat := bvBits d 0 40
def dfKind (d : BitVec 128) : Nat := bvBits d 40 2
def dfTensor (d : BitVec 128) : Nat := bvBits d 42 20
def dfBuffer (d : BitVec 128) : Nat := bvBits d 64 57
def slotMaxTok (e : BitVec 256) : Nat := bvBits e 0 32
def slotBpt (e : BitVec 256) : Nat := bvBits e 32 32
def slotStaging (e : BitVec 256) : Nat := bvBits e 64 64
def slotDfence (e : BitVec 256) : Nat := bvBits e 128 16
def slotWave (e : BitVec 256) : Nat := bvBits e 144 8
def slotFwd (e : BitVec 256) : Nat := bvBits e 160 16
def slotStagingLen (e : BitVec 256) : Nat := bvBits e 192 64

/-- The fences a plan uses. -/
def planFences (p : PlanImg) : List Word64 := p.fences.take (planNfence p)

/-- The offset of the plan's EDGE fence, its tick period (R32). -/
def planPeriod (p : PlanImg) : Nat := match (planFences p).getLast? with | some w => fenceOff w | none => 0

/-- The offset of the plan's fence of a kind, 0 when it has none. -/
def planFenceOf (p : PlanImg) (kind : Nat) : Nat :=
  match (planFences p).find? (fun w => fenceKind w == kind) with | some w => fenceOff w | none => 0

/-- The index of the phase that holds a tick-relative cycle. -/
def planPhaseAt (p : PlanImg) (c : Nat) : Nat := ((planFences p).filter (fun w => decide (fenceOff w ≤ c))).length

/-- The SLACK cycles of a plan (R50). -/
def planSlack (p : PlanImg) : Nat :=
  ((planFences p).foldl (fun (acc : Nat × Nat) w =>
    (fenceOff w, acc.2 + if fenceSlack w then fenceOff w - acc.1 else 0)) (0, 0)).2

/-- Plan number `i` of an image. -/
def imgPlan (f : ImageFile) (i : Nat) : Option PlanImg := (f.plans.getD i none)

/-- The lowest-numbered plan of a kind. -/
def imgLowestFrom (f : ImageFile) (kind i : Nat) : Nat → Option Nat
  | 0 => none
  | k + 1 =>
    match imgPlan f i with
    | some p => if planKind p == kind then some i else imgLowestFrom f kind (i + 1) k
    | none => imgLowestFrom f kind (i + 1) k

/-- The lowest-numbered plan of a kind among the 16. -/
def imgLowest (f : ImageFile) (kind : Nat) : Option Nat := imgLowestFrom f kind 0 16

/-- The plan a service tick uses: the lowest SERVICE plan, or a FALLOW plan (R29). -/
def imgServicePlan (f : ImageFile) : Nat := ((imgLowest f 2).orElse (fun _ => imgLowest f 1)).getD 0

/-- The lowest-numbered FALLOW plan. -/
def imgFallowPlan (f : ImageFile) : Nat := (imgLowest f 1).getD 0

/-! ### Limits (R482) -/

def limLead (f : ImageFile) : Nat := bvBits f.limits 0 32
def limReplay (f : ImageFile) : Nat := bvBits f.limits 32 8
def limPolicy (f : ImageFile) : Nat := bvBits f.limits 40 8
def limChecksumS (f : ImageFile) : Nat := bvBits f.limits 48 8
def limLossK (f : ImageFile) : Nat := bvBits f.limits 64 32
def limLossAlpha (f : ImageFile) : Nat := bvBits f.limits 96 32
def limLossW (f : ImageFile) : Nat := bvBits f.limits 128 16
def limThresh (f : ImageFile) (a : Nat) : Nat := if a < 3 then bvBits f.limits (160 + 16 * a) 16 else bvBits f.limits 208 16
def limQuantum (f : ImageFile) (a : Nat) : Nat := if a < 3 then bvBits f.limits (224 + 16 * a) 16 else 0
def limHarvestInterval (f : ImageFile) : Nat := bvBits f.limits 288 32

/-! ### The module map (R471, R391) -/

def mapRate (f : ImageFile) : Nat := bvBits f.moduleMapHdr 8 8
def modClass (w : Word64) : Nat := bvBits w 0 16
def modRole (w : Word64) : Nat := bvBits w 16 8
def modParentLink (w : Word64) : Nat := bvBits w 24 8
def modDepth (w : Word64) : Nat := bvBits w 32 8
def modSub (w : Word64) : Nat := bvBits w 40 16

/-- The map entry of a module. -/
def imgModule (f : ImageFile) (m : Nat) : Word64 := f.modules.getD m 0

/-- The orchard master: the module that the header names, or the sub-master of sub-orchard 0, at the root of its tree (R389). -/
def imgMaster (f : ImageFile) : Nat :=
  if bvBits f.header 352 32 != 0xFFFFFFFF then bvBits f.header 352 32
  else (f.modules.findIdx? (fun w => modSub w == 0 && modParentLink w == 255)).getD 0

/-- The tree depth H: the greatest DEPTH of any module (R391). -/
def imgDepth (f : ImageFile) : Nat := f.modules.foldl (fun h w => max h (modDepth w)) 0

/-- The hop in cyc (R367, R395). -/
def imgHop (f : ImageFile) : Nat := if mapRate f == 0 then 1536 else 2560

/-- The window in cyc (R371). -/
def imgWindow (f : ImageFile) : Nat := if mapRate f == 0 then 256 else 512

/-- The fixed cost of the commit window (R395). -/
def imgFixed (f : ImageFile) : Nat := if mapRate f == 0 then 2048 else 2560

/-- The minimum of a commit window: 2 · H · hop + fixed (R395). -/
def imgCommitMin (f : ImageFile) : Nat := 2 * imgDepth f * imgHop f + imgFixed f

/-- The start of slot `k` within a window (R371). -/
def slotStart (win k : Nat) : Nat := k * win / 25

/-! ### The state map -/

/-- The entry of a tensor id and role. -/
def imgTensor (f : ImageFile) (id role : Nat) : Option TensorEnt :=
  f.stateMap.find? (fun t => t.tensor == id && t.role == role)

/-- The entry of a role that serves a weight tensor, a shared A among the matrices that it names (R220). -/
def imgChild (f : ImageFile) (parent role : Nat) : Option TensorEnt :=
  f.stateMap.find? (fun t => (t.parent == parent || t.serves.contains parent) && t.role == role)

/-- The weight entry of a tensor id. -/
def imgWeight (f : ImageFile) (id : Nat) : Option TensorEnt := imgTensor f id 0

/-- Does a module own the tensor (R403)? -/
def owns (t : TensorEnt) (m : Nat) : Bool := t.owners.contains m

/-- The image as a module reads it: of a tensor held in several shards, the entry of its own shard comes first. -/
def imgSeenBy (f : ImageFile) (m : Nat) : ImageFile :=
  { f with stateMap := f.stateMap.filter (fun t => owns t m) ++ f.stateMap.filter (fun t => !owns t m) }

/-- The image of the running job as this module reads it. -/
def State.myImage (s : State) : Option ImageFile := s.image.map (fun f => imgSeenBy f (s.fget HULL_ORCH_MODULE))

/-- The first left block that a statistic's shard holds, in the numbering over the whole matrix (R209): the shards above it
hold ⌈rows / B⌉ left blocks each. Right blocks are the shard's own buckets. -/
def firstBlock (f : ImageFile) (t : TensorEnt) : Nat :=
  if t.role == 4 || t.role == 7 then
    ((f.stateMap.filter (fun e => e.tensor == t.tensor && e.role == t.role && e.col0 == t.col0 && decide (e.row0 < t.row0))).map
      (fun e => ceilDiv (e.row1 - e.row0) (2 ^ t.block))).foldl (· + ·) 0
  else 0

/-- Is row `i` (of the whole tensor) trained (R189): 1 means trained? -/
def rowTrained (t : TensorEnt) (i : Nat) : Bool :=
  if t.maskKind == 1 then getBits t.mask i 1 == 1
  else if t.maskKind == 2 then getBits t.mask (i / 128) 1 == 1
  else true

/-- Blocks that a module holds of a factor statistic (R208, R209). -/
def factorBlocks (t : TensorEnt) : Nat :=
  if t.role == 4 || t.role == 7 then ceilDiv (t.row1 - t.row0) (2 ^ t.block)
  else if t.role == 5 || t.role == 6 then ceilDiv (t.col1 - t.col0) (2 ^ t.block) else 0

/-- The dimension of block `b` of a statistic. -/
def blockDim (t : TensorEnt) (b : Nat) : Nat :=
  let side := if t.role == 4 || t.role == 7 then t.row1 - t.row0 else t.col1 - t.col0
  min (2 ^ t.block) (side - b * 2 ^ t.block)

/-- Bytes of one bank of a tensor's shard. -/
def bankBytes (t : TensorEnt) : Nat :=
  if t.role ≤ 1 then (t.row1 - t.row0) * (t.col1 - t.col0) * fmtBytes t.fmt
  else if t.role == 2 then 4 * (t.row1 - t.row0)
  else if t.role == 3 then 4 * (t.col1 - t.col0)
  else 4 * 2 ^ t.block * 2 ^ t.block * factorBlocks t

/-- m_live: the rows that train (R211, R216). -/
def mLive (t : TensorEnt) : Nat := ((range' 0 t.rows).filter (rowTrained t)).length

/-- n_live: the columns that are not padding (R175, R211, R216). -/
def nLive (t : TensorEnt) : Nat := t.cols - t.padCols

/-- RNE to FP32 of 1 / n (R203, R216). -/
def recipNat (n : Nat) : Nat := if n == 0 then 0x7F800000 else
  let q := quotMag 1 0 n 0
  (fpRound fmtFp32 false q.1 q.2).bits

/-- RNE to FP32 of a natural number (R274). -/
def natToFp32 (n : Nat) : Nat := (fpRound fmtFp32 false n 0).bits

/-! ### Step scalars (R273, R274) -/

/-- fp32_pow of R273 over the bits of `k` from bit `i` down. -/
def fpPowBits (beta k : Nat) : Nat → Nat → Nat
  | 0, y => y
  | i + 1, y =>
    let y2 := (fpMul y y).bits
    fpPowBits beta k i (if getBits k i 1 == 1 then (fpMul y2 beta).bits else y2)

/-- fp32_pow of R273. -/
def fpPow (beta k : Nat) : Nat := fpPowBits beta k (Nat.log2 k + 1) 0x3F800000

/-- η at update count `t` (R274). -/
def lrEta (segs : List LrSeg) (t : Nat) : Nat :=
  match (segs.filter (fun g => decide (g.t0 ≤ t))).getLast? with
  | some g => (fpAdd g.eta0.toNat (fpMul g.slope.toNat (natToFp32 (t - g.t0))).bits).bits
  | none => 0

/-- The learning rate of a rule set at `t`. -/
def ruleEta (f : ImageFile) (rs : RuleSet) (t : Nat) : Nat := lrEta (f.lrScheds.getD rs.sched []) t

/-- ηλ (R273). -/
def ruleEtaLambda (f : ImageFile) (rs : RuleSet) (t : Nat) : Nat := (fpMul (ruleEta f rs t) rs.lambda.toNat).bits

/-- 1 / round(1 − y), the bias correction of R273. -/
def biasRecip (y : Nat) : Nat := (fpDiv 0x3F800000 (fpSub 0x3F800000 y).bits).bits

/-- b1 (R273). -/
def ruleB1 (rs : RuleSet) (t : Nat) : Nat :=
  if rs.bias1 && rs.beta1.toNat != 0 then biasRecip (fpPow rs.beta1.toNat (t + 1)) else 0x3F800000

/-- b2, with β_c the decay of the matrix's c tensor (R273). -/
def ruleB2 (rs : RuleSet) (betaC t : Nat) : Nat :=
  if rs.bias2 && 1 ≤ t then biasRecip (fpPow betaC t) else 0x3F800000

/-! ### Banks (R296, R315) -/

/-- The lag entry of a tensor in a bank (false even). -/
def State.lagEnt (s : State) (tensor : Nat) (bank : Bool) : LagEnt :=
  match s.job.lag.find? (fun e => e.1 == tensor && e.2.1 == bank) with | some e => e.2.2 | none => {}

/-- Set the lag entry of a tensor in a bank. -/
def State.setLag (s : State) (tensor : Nat) (bank : Bool) (e : LagEnt) : State :=
  s.withJob (fun j => { j with lag := (tensor, bank, e) :: j.lag.filter (fun x => !(x.1 == tensor && x.2.1 == bank)) })

/-- The bank (false even) that the step reads for a tensor: BANK_PARITY xor FLIP (R296). -/
def State.readsOdd (s : State) (t : TensorEnt) : Bool :=
  if t.lagged then s.ccr.parity != (s.lagEnt t.parent s.ccr.parity).flip else s.ccr.parity

/-- Base address of the bank that the step reads (R22). -/
def State.readBase (s : State) (t : TensorEnt) : Nat := if s.readsOdd t then t.odd else t.even

/-- Base address of the bank that the step writes (R22). -/
def State.writeBase (s : State) (t : TensorEnt) : Nat := if s.readsOdd t then t.even else t.odd

/-- ν while it is valid (R203, R205). -/
def State.nu (s : State) : Option Nat := if s.fbit HULL_NORM_VALID then some (s.fget HULL_NORM_NU) else none

/-- Where the step finds what a word reads at an address: of a state tensor that the module owns, the place in whichever of its
two banks the word names stands for the same place of the bank that the step reads (R22); any other address stands as it is.
Of several slow-tier tensors that share a pair, the resident one is meant (R354). -/
def State.statePlace (s : State) (a : Nat) : Nat :=
  let hit (t : TensorEnt) (b : Nat) : Bool := decide (b ≤ a) && decide (a < b + bankBytes t)
  let held : List TensorEnt := match s.myImage with
    | some f => f.stateMap.filter (fun t => t.role != 8 && owns t (s.fget HULL_ORCH_MODULE) && (hit t t.even || hit t t.odd))
    | none => []
  match (held.find? (fun t => t.tier == 0 || s.slow.any (fun r => r.tensor == t.tensor && r.resident))).orElse (fun _ => held.head?) with
  | some t => s.readBase t + if hit t t.even then a - t.even else a - t.odd
  | none => a

/-! ### The tile's sequencer (R113) -/

/-- The stream of tile `n` in the module's class (R469). -/
def State.tileStream (s : State) (n : Nat) : List Word256 :=
  match s.image with
  | some f =>
    ((f.streams.find? (fun x => x.cls == modClass (imgModule f (s.fget HULL_ORCH_MODULE)) && x.tile == n)).map StreamImg.words).getD []
  | none => []

/-- The sequence number of a word (R113): its place in the tile's stream. A word that the stream does not hold takes the next
number. -/
def State.seqOf (s : State) (n : Nat) (w : Word256) : Nat := ((s.tileStream n).idxOf? w).getD (s.seqNext n)

/-- The ISSUE cycle of the next word after `w` on the same logical pod, where the tile's stream holds one (R114). -/
def State.podNext (s : State) (n : Nat) (w : Word256) : Option Nat :=
  ((((s.tileStream n).dropWhile (fun v => v != w)).drop 1).find? (fun v =>
    (wOpcode v == 0x10 || wOpcode v == 0x11) && wLpod v == wLpod w)).map s.issueAbs

/-- Issue word `w` of tile `n` on an absolute cycle: the clock, the sequence number and TILE_SEQ.LAST (R113). -/
def State.issue (s : State) (n : Nat) (w : Word256) (cycle : Nat) : State :=
  let s := s.advance cycle
  let q := s.seqOf n w
  (s.fset (TILE_SEQ_LAST.tile n) q).withTiles (fun t => { t with seqNext := tabPut (fun _ => 0) t.seqNext n (max (s.seqNext n) (q + 1)) })

/-- The current plan of the running job. -/
def State.curPlan (s : State) : Option PlanImg :=
  match s.image with | some f => imgPlan f (s.fget TICK_PLAN_CUR) | none => none

/-! ### Data fences (R40, R43, R44) -/

/-- Is the staging buffer of a slot complete (R44)? -/
def State.slotReady (s : State) (slot : Nat) : Bool :=
  s.job.verdicts.any (fun v => v.1 == s.ccr.step && v.2.1 == slot && v.2.2.2)

/-- Was the slot's micro-batch of this step refused, so that the step goes on without it (R199)? -/
def State.slotRefused (s : State) (slot : Nat) : Bool := s.job.refused.any (fun v => v.1 == s.ccr.step && v.2.1 == slot)

/-- Slots of a plan whose data fence is `i`. -/
def planSlotsOf (p : PlanImg) (i : Nat) : List Nat :=
  (range' 0 p.slots.length).filter (fun k => slotDfence (p.slots.getD k 0) == i)

/-- The slots whose staging buffer a host-input fence of a plan checks (R43, R44): those that name it, or, for a fence that no
slot of its plan names, those of any plan that stage into its BUFFER. -/
def fenceSlots (f : ImageFile) (p : PlanImg) (i : Nat) : List Nat :=
  if (planSlotsOf p i).isEmpty then
    (f.plans.flatMap (fun q => match q with
      | some q => (range' 0 q.slots.length).filter (fun k => slotStaging (q.slots.getD k 0) == dfBuffer (p.dfences.getD i 0))
      | none => [])).dedup
  else planSlotsOf p i

/-- Is host input still missing from the buffer that a fence checks (R44): a slot that is neither complete nor refused, or,
where no slot stages there, a transfer into the buffer that has not ended? -/
def State.inputLate (s : State) (f : ImageFile) (p : PlanImg) (i : Nat) : Bool :=
  let ks := fenceSlots f p i
  if ks.isEmpty then s.host.descs.any (fun d => d.dst == dfBuffer (p.dfences.getD i 0) && d.status != 1)
  else ks.any (fun k => !s.slotReady k && !s.slotRefused k)

/-- Is the prefetch of a slow-tier tensor complete (R355)? -/
def State.prefetched (s : State) (id : Nat) : Bool :=
  s.slow.any (fun r => r.tensor == id && r.resident && !r.prefetching)

end Sys2Proof.Machine
end

