-- ==== Sys2Proof/Machine/Pods.lean ====
section
/-! DEFINITION. The pods: what MM_STREAM and MM_INCELL do (04_pods.md, R106 to R146; R75, R81, R92, R503). An
instruction that starts is a flight of its tile until its last output is usable: it takes each operand on the cycle that
R120 and R124 give, and its outputs land when they are usable. A reader of an accumulator tile in between sees the rows
that are usable by then. -/

namespace Sys2Proof.Machine

/-- One product term: its exact value, the cause of an invalid event (R137, R75), and whether an operand was NaN. -/
structure Term where
  v : FVal
  bad : Option Nat
  nanOp : Bool
  deriving DecidableEq, Repr

/-- The product of two operand values; none is an element whose block has an invalid scale byte (R75, R77, R137, R138). -/
def termOf (a b : Option FVal) : Term :=
  match a, b with
  | some x, some y =>
    if x.isNan || y.isNan then ⟨.nan, none, true⟩
    else
      let p := x.mul y
      if p.2 then ⟨.nan, some 0, false⟩ else ⟨p.1, none, false⟩
  | _, _ => ⟨.nan, some 2, false⟩

/-- A running sum: none before the first product (R116). -/
structure RunSum where
  val : Option Nat
  sat : Bool := false
  inexact : Bool := false
  bad : Option (Nat × Nat) := none
  nanOp : Bool := false
  deriving DecidableEq, Repr

/-- Add one term at reduction index `k`: one RNE rounding, saturation instead of overflow (R116, R118, R137, R138). -/
def RunSum.add (st : RunSum) (k : Nat) (t : Term) : RunSum :=
  let sum : FVal × Bool := match st.val with
    | none => (t.v, false)
    | some x => (f32 x).add t.v
  let r := fpEncode fmtFp32 sum.1
  let bad : Option (Nat × Nat) :=
    if st.bad.isSome then st.bad
    else match t.bad with
      | some c => some (c, k / 128)
      | none => if sum.2 then some (1, k / 128) else none
  { val := some r.bits, sat := st.sat || r.ev.sat, inexact := st.inexact || r.inexact, bad := bad,
    nanOp := st.nanOp || t.nanOp }

/-- The passes of an instruction: which half of A and of B each reads (R81, R128, R129). -/
def podPasses (stream : Bool) (w : Word256) : List (Nat × Nat) :=
  if wFmt w == 5 then
    (if stream then (if wPass w == 0 then [(0, 1)] else if wPass w == 1 then [(1, 0)] else [(1, 1)])
     else [(0, 1), (1, 0), (1, 1)])
  else [(1, 1)]

/-- Token count of the instruction's slot on this tile (R135). -/
def State.slotCount (s : State) (n slot : Nat) : Nat := tabGet (fun _ => 0) s.tiles.slotCnt (n * 1024 + slot)

/-- Is token position TOK_BASE + `i` at or beyond the slot's count (R136)? -/
def State.padded (s : State) (n : Nat) (w : Word256) (i : Nat) : Bool :=
  decide (s.slotCount n (wSlot w) ≤ wTokBase w + i)

/-- The reduction indices an instruction takes, in order: padded ones are skipped (R116, R136). -/
def State.redIndices (s : State) (n : Nat) (w : Word256) : List Nat :=
  let ks := range' 0 (wKlen w)
  if wTokDim w == 2 then ks.filter (fun k => !s.padded n w k) else ks

/-- The feed length F (R124). -/
def feedLen (w : Word256) : Nat :=
  if wFmt w == 5 then 3 * wKlen w else if isFp8 (wFmt w) then ceilDiv (wKlen w) 2 else wKlen w

/-- Issue-slot cycles: max(M, 128) in streaming mode, F in-cell (R141). -/
def podOcc (stream : Bool) (w : Word256) : Nat := if stream then max (wRows w) 128 else feedLen w

/-- The cycle on which the last output of an instruction started on `c` is usable (R120, R124). -/
def podUsable (stream : Bool) (w : Word256) (c : Nat) : Nat :=
  if stream then c + 262 + (wRows w - 1) else c + feedLen w + 390

/-- The cycle on which an instruction started on `c` takes index `k` of its feed, in pass `p` (R124, R128, R117). -/
def feedCycle (w : Word256) (c p k : Nat) : Nat :=
  if wFmt w == 5 then c + p * wKlen w + k else if isFp8 (wFmt w) then c + k / 2 else c + k

/-- The cycle on which output row `i` takes its elements of A at reduction index `k` (R120, R124). -/
def aCycle (stream : Bool) (w : Word256) (c p i k : Nat) : Nat := if stream then c + i else feedCycle w c p k

/-- The cycle on which reduction index `k` of B is taken: streaming, in the stationary load of the 128 cycles before the
start (R120). -/
def bCycle (stream : Bool) (w : Word256) (c p k : Nat) : Nat :=
  if stream then c - 128 + (if isFp8 (wFmt w) then k / 2 else k) else feedCycle w c p k

/-- The cycle on which accumulator row `i` is read when ADD is set: with the row, or before the in-cell preload (R120,
R125). -/
def initCycle (stream : Bool) (c i : Nat) : Nat := if stream then c + i else c - 134

/-- The cycle on which output row `i` is usable (R120, R124). -/
def rowUsable (stream : Bool) (w : Word256) (c i : Nat) : Nat := if stream then c + 262 + i else podUsable false w c

/-- The sum of output element (i, j) of an instruction started on `c`, over the passes and reduction indices, from `init`
(R116, R128). -/
def State.elemSum (s : State) (stream : Bool) (n : Nat) (w : Word256) (c : Nat) (ks : List Nat) (i j : Nat)
    (init : Option Nat) : RunSum :=
  let passes := podPasses stream w
  (passes.zip (range' 0 passes.length)).foldl (fun st h => ks.foldl (fun st k =>
      st.add k (termOf
        (s.operand n (wFmt w) (wALine w) (wAScale w) (!wTA w) h.1.1 i k (aCycle stream w c h.2 i k))
        (s.operand n (wFmt w) (wBLine w) (wBScale w) (wTB w) h.1.2 j k (bCycle stream w c h.2 k)))) st)
    { val := init }

/-- Is row `i` masked (R133)? The mask line is taken with the row. -/
def State.rowMasked (s : State) (stream : Bool) (n : Nat) (w : Word256) (c i : Nat) : Bool :=
  let x := if stream then c + i else c
  if wMaskKind w == 1 then s.opBits n (wMaskLine w) x i 1 == 0
  else if wMaskKind w == 2 then s.opBits n (wMaskLine w) x 0 1 == 0
  else false

/-- Is output row `i` padded (R136)? -/
def State.rowPadded (s : State) (n : Nat) (w : Word256) (i : Nat) : Bool := wTokDim w == 1 && s.padded n w i

/-- What an instruction counts (R143). -/
structure PodTot where
  prod : Nat := 0
  sat : Nat := 0
  van : Nat := 0
  sub : Nat := 0
  bad : Option (Nat × Nat) := none
  nanOp : Bool := false
  deriving DecidableEq, Repr

/-- Count one written element: produced, and at most one of saturated, vanished and subnormal (R143). DESIGN CHOICE (the
spec does not say which of several invalid elements TILE_EXC_FIRST records): the first in row-major order. -/
def PodTot.count (t : PodTot) (r : RunSum) (bits : Nat) : PodTot :=
  let mag := bits % 0x80000000
  let van := !r.sat && mag == 0 && r.inexact
  let sub := !r.sat && mag != 0 && decide (mag < 0x800000)
  { prod := t.prod + 1, sat := t.sat + (if r.sat then 1 else 0), van := t.van + (if van then 1 else 0),
    sub := t.sub + (if sub then 1 else 0), bad := if t.bad.isSome then t.bad else r.bad, nanOp := t.nanOp || r.nanOp }

/-- Does row `i` form its products: neither masked (R133) nor padded under TOK_DIM 1 (R136)? -/
def State.rowLive (s : State) (stream : Bool) (n : Nat) (w : Word256) (c i : Nat) : Bool :=
  !s.rowMasked stream n w c i && !s.rowPadded n w i

/-- The operand lines of one operand with `count` output indices, each with the cycle after `c` on which it is first taken
(R92, R107): `first` gives the cycle of an output index and a reduction index. DESIGN CHOICE (R92 does not say on which of its
takes of a line an instruction finds the code): on the first one, and on no later pass or repeated take. -/
def operandLines (f base : Nat) (along : Bool) (count klen : Nat) (first : Nat → Nat → Nat) : List (Nat × Nat) :=
  let es := if f == 5 then [0, 64] else [0]
  let bl := blockLen f
  if along then
    (range' 0 (ceilDiv klen bl)).flatMap (fun b => (range' 0 count).flatMap (fun i =>
      es.map (fun e => ((elemPlace f base b i e).1, first i (b * bl + e)))))
  else (range' 0 klen).flatMap (fun k => es.map (fun e => ((elemPlace f base (k / bl) (k % bl) e).1, first 0 k)))

/-- Does an operand line that is taken by absolute cycle `x` carry another format than the instruction's (R92)? DESIGN
CHOICE: the lines of A and B are operand lines; scale and mask lines, which hold no elements of a format, are not. -/
def State.fmtMismatch (s : State) (stream : Bool) (n : Nat) (w : Word256) (c x : Nat) : Bool :=
  (operandLines (wFmt w) (wALine w) (!wTA w) (wRows w) (wKlen w) (fun i k => aCycle stream w c 0 i k) ++
   operandLines (wFmt w) (wBLine w) (wTB w) 128 (wKlen w) (fun _ k => bCycle stream w c 0 k)).any
    (fun l => decide (l.2 ≤ x) && s.opTagAt n l.1 l.2 != wFmt w)

/-- The first cycle from `c` on, up to `x`, on which an instruction takes an operand line of another format (R92). -/
def State.mismatchAt (s : State) (stream : Bool) (n : Nat) (w : Word256) (c x : Nat) : Option Nat :=
  ((operandLines (wFmt w) (wALine w) (!wTA w) (wRows w) (wKlen w) (fun i k => aCycle stream w c 0 i k) ++
    operandLines (wFmt w) (wBLine w) (wTB w) 128 (wKlen w) (fun _ k => bCycle stream w c 0 k)).filter
      (fun l => decide (l.2 ≤ x) && s.opTagAt n l.1 l.2 != wFmt w)).foldl
    (fun m l => some (match m with | some y => min y (max c l.2) | none => max c l.2)) none

/-- The cycle on which a flight comes to its end: its own, or that on which it meets an operand line of another format. -/
def State.flightDue (s : State) (f : Flight) : Nat :=
  let pod (stream : Bool) : Nat := (s.mismatchAt stream f.tile f.word f.start f.done).getD f.done
  match f.kind with
  | .stream => pod true
  | .incell => pod false
  | .chain _ _ => f.done

/-- Element (i, j) of accumulator tile `a` on absolute cycle `x`, given the flights towards it, newest first: what the
newest that has a usable row `i` by then leaves there, over what the older ones and the tile's own SRAM hold. -/
def State.accElOver (s : State) (n a i j x : Nat) : List Flight → Nat
  | [] => s.accBase n a i j x
  | f :: r =>
    let w := f.word
    let pod (stream : Bool) : Nat :=
      if i < wRows w && decide (rowUsable stream w f.start i ≤ min x f.done) && !s.fmtMismatch stream n w f.start x then
        if s.rowLive stream n w f.start i then
          ((s.elemSum stream n w f.start (s.redIndices n w) i j
            (if wAdd w then some (s.accElOver n a i j (initCycle stream f.start i) r) else none)).val).getD 0
        else if wAdd w then s.accElOver n a i j x r
        else 0
      else s.accElOver n a i j x r
    match f.kind with
    | .stream => pod true
    | .incell => pod false
    | .chain content _ => if f.done ≤ x then (content.getD (128 * i + j) 0).toNat else s.accElOver n a i j x r

/-- The invalid tag of accumulator tile `a` on absolute cycle `x`, given the flights towards it, newest first: an instruction
clears it before its first write when ADD is 0, and sets it with the first invalid row that it writes (R111, R139, R140). -/
def State.accTagOver (s : State) (n a x : Nat) : List Flight → Bool
  | [] => s.accInvalid n a
  | f :: r =>
    let w := f.word
    let pod (stream : Bool) : Bool :=
      let rows := (range' 0 (wRows w)).filter (fun i => decide (rowUsable stream w f.start i ≤ min x f.done))
      if rows.isEmpty || s.fmtMismatch stream n w f.start x then s.accTagOver n a x r
      else (wAdd w && s.accTagOver n a x r) || rows.any (fun i => s.rowLive stream n w f.start i && (range' 0 128).any (fun j =>
        (s.elemSum stream n w f.start (s.redIndices n w) i j
          (if wAdd w then some (s.accElOver n a i j (initCycle stream f.start i) r) else none)).bad.isSome))
    match f.kind with
    | .stream => pod true
    | .incell => pod false
    | .chain _ tagged => if f.done ≤ x then tagged else s.accTagOver n a x r

/-- The flights towards accumulator tile `a` of tile `n`, newest first. -/
def State.flightsTo (s : State) (n a : Nat) : List Flight :=
  (s.tiles.flights.filter (fun f => f.tile == n && wAcc f.word == a)).reverse

/-- Element (i, j) of an accumulator tile as a reader on absolute cycle `x` finds it. -/
def State.accElAt (s : State) (n a i j x : Nat) : Nat := s.accElOver n a i j x (s.flightsTo n a)

/-- Compute and write one output element of row `i`; `older` are the flights before this one (R116, R134). -/
def State.podElem (stream : Bool) (n : Nat) (w : Word256) (c : Nat) (older : List Flight) (ks : List Nat) (i : Nat)
    (live : Bool) (acc : State × PodTot) (j : Nat) : State × PodTot :=
  let s := acc.1
  if live then
    let r := s.elemSum stream n w c ks i j
      (if wAdd w then some (s.accElOver n (wAcc w) i j (initCycle stream c i) older) else none)
    let bits := r.val.getD 0
    (s.setAccEl n (wAcc w) i j bits (rowUsable stream w c i), acc.2.count r bits)
  else if wAdd w then acc
  else (s.setAccEl n (wAcc w) i j 0 (rowUsable stream w c i), acc.2)

/-- Compute and write the output rows `rows` of an instruction started on `c` (R123, R134). -/
def State.podRows (s : State) (stream : Bool) (n : Nat) (w : Word256) (c : Nat) (older : List Flight) (rows : List Nat) :
    State × PodTot :=
  let ks := s.redIndices n w
  rows.foldl (fun acc i =>
      let live := s.rowLive stream n w c i
      (range' 0 128).foldl (State.podElem stream n w c older ks i live) acc)
    (s, {})

/-- Operand lines that a block of A or B and its scale vector take from their first line on (R78, R106 to R109). -/
def podLines (w : Word256) (along : Bool) (count : Nat) : Nat :=
  let f := wFmt w
  let per := if f == 5 then 256 else 128
  let last := ceilDiv (wKlen w) (blockLen f) - 1
  let used := if along then count else wKlen w - last * blockLen f
  per * last + (if f == 5 then 2 * used else used)

/-- Are field values outside the ranges of "The pod instruction word" (R115, R130, R131)? DESIGN CHOICE (R130 gives the range of
a block's first line alone): a block, scale vector or row mask that runs past line 98,303, the tile's last, is out of range too. -/
def podFieldsBad (stream : Bool) (w : Word256) : Bool :=
  let f := wFmt w
  f == 0 || 5 < f || wMaskKind w == 3 || wTokDim w == 3 || wPass w == 3
  || (wPass w != 0 && !(stream && f == 5))
  || (!stream && wRows w != 128)
  || (stream && blockLen f < wKlen w)
  || (isFp8 f && wKlen w % 2 == 1)
  || 98304 ≤ wALine w || 98304 ≤ wBLine w
  || 98304 < wALine w + podLines w (!wTA w) (wRows w) || 98304 < wBLine w + podLines w (wTB w) 128
  || (isFp8 f && (98304 < wAScale w + ceilDiv (wKlen w) 256 || 98304 < wBScale w + ceilDiv (wKlen w) 256))
  || (!isFp8 f && (wAScale w != 0 || wBScale w != 0))
  || (wMaskKind w != 0 && 98304 ≤ wMaskLine w)
  || (wChain w && !wAdd w)
  || (wTokDim w != 0 && wSlot w == 1023)
  || wbits w 39 1 != 0 || wbits w 49 15 != 0 || wbits w 120 8 != 0 || wbits w 179 13 != 0

/-- Do FP8 operands lie with their lines across the reduction (R109)? -/
def fp8OrientBad (w : Word256) : Bool := isFp8 (wFmt w) && (wTA w || !wTB w)

/-- Timing state of a logical pod. -/
def State.podHist (s : State) (n p : Nat) : PodHist := tabGet (fun _ => {}) s.tiles.pod (n * 8 + p)

/-- Timing state of an accumulator tile. -/
def State.accHist (s : State) (n a : Nat) : AccHist := tabGet (fun _ => {}) s.tiles.accHist (n * 256 + a)

/-- Does the instruction meet a dependency that the timing rules forbid (R115, R121, R122, R124 to R127)? A chain
instruction takes the chain value, so only its pod's rules and R122 bear on it. -/
def State.podDepBad (s : State) (stream : Bool) (n : Nat) (w : Word256) (c : Nat) : Bool :=
  let h := s.podHist n (wLpod w)
  let a := s.accHist n (wAcc w)
  if stream then
    (h.mode == 1 && decide (c < h.start + h.occ))
    || (h.mode == 2 && decide (c < h.usable + 128))
    || (wAdd w && (match a.streamStart with | some t => decide (c < t + 262) | none => false))
    || (wAdd w && decide (c < a.cellUsable))
  else
    let pre := if wAdd w then 134 else 0
    (h.mode == 1 && decide (c < h.usable + pre))
    || (h.mode == 2 && (decide (c < h.start + h.occ) || decide (c < h.prevUsable + pre)))
    || (wAdd w && decide (c < a.usable + 134))

/-- Keep the timing of a logical pod whose instruction is scheduled on `c`, whatever comes of it: an instruction that faults
completes its cycles (R115, R503). -/
def State.podTiming (s : State) (stream : Bool) (n : Nat) (w : Word256) (c : Nat) : State :=
  let h := s.podHist n (wLpod w)
  s.withTiles (fun t => { t with
    pod := tabPut (fun _ => {}) t.pod (n * 8 + wLpod w)
      { mode := if stream then 1 else 2, start := c, occ := podOcc stream w, usable := podUsable stream w c,
        prevUsable := h.usable } })

/-- Keep the timing of the accumulator tile that an instruction scheduled on `c` writes (R122, R125, R126). -/
def State.accTiming (s : State) (stream : Bool) (n : Nat) (w : Word256) (c : Nat) : State :=
  let a := s.accHist n (wAcc w)
  s.withTiles (fun t => { t with
    accHist := tabPut (fun _ => {}) t.accHist (n * 256 + wAcc w)
      { a with
        streamStart := if stream then some c else a.streamStart, usable := max a.usable (podUsable stream w c),
        cellUsable := if stream then a.cellUsable else max a.cellUsable (podUsable stream w c) } })

/-- Padded cycles among the first `occ` issue-slot cycles of an instruction: padded rows when streaming, padded reduction
indices in-cell, half a cycle each in FP8, rounded up (R142). -/
def State.padCycles (s : State) (stream : Bool) (n : Nat) (w : Word256) (occ : Nat) : Nat :=
  if wTokDim w == 1 && stream then ((range' 0 (wRows w)).filter (fun i => decide (i < occ) && s.padded n w i)).length
  else if wTokDim w == 2 && !stream then
    let p := ((range' 0 (wKlen w)).filter (fun k => decide (feedCycle w 0 0 k < occ) && s.padded n w k)).length
    if isFp8 (wFmt w) then ceilDiv p 2 else p
  else 0

/-- Count the `occ` issue-slot cycles that an instruction has as busy and padded, or as replaying in a replay (R141, R142). -/
def State.podTime (s : State) (stream : Bool) (n : Nat) (w : Word256) (occ : Nat) : State :=
  let pad := s.padCycles stream n w occ
  if s.run.isReplay then s.phaseTime n (wLpod w) (wPhase w) 3 occ
  else (s.phaseTime n (wLpod w) (wPhase w) 0 (occ - pad)).phaseTime n (wLpod w) (wPhase w) 1 pad

/-- Is the logical pod unserved (R503)? -/
def State.unserved (s : State) (n p : Nat) : Bool := getBits (s.fget (TILE_POD_UNSERVED_MASK.tile n)) p 1 == 1

/-- An instruction to an unserved pod: class B, counted, nothing written and no mark changed (R503). -/
def State.podAbsent (s : State) (n : Nat) : State := (s.fadd (TILE_POD_ABSENT.tile n) 1).classB

/-- A chain instruction finds the chain mark clear at its start, or at the start of its preload (R132). -/
def State.chainClear (s : State) (stream : Bool) (n : Nat) (w : Word256) (c : Nat) : Bool :=
  !s.accChain n (wAcc w) || (!stream && decide (c < (s.accHist n (wAcc w)).chainAt + 134))

/-- A chain instruction whose tile's chain mark is clear: nothing written, invalid tag, class B (R132). -/
def State.chainMissing (s : State) (n : Nat) (w : Word256) : State :=
  (s.tagWord n w (s.fget (TILE_SEQ_LAST.tile n))).classBSts (tilePage n) (TILE_STS_CHAIN_MISSING.tile n)

/-- An operand line of another format: not executed, invalid tag, class C (R92). -/
def State.podMismatch (s : State) (n : Nat) (w : Word256) (seq : Nat) : State :=
  (s.tagWord n w seq).classC (tilePage n) (TILE_STS_FMT_MISMATCH.tile n)

/-- The marks at the start: ADD = 0 sets written; CHAIN consumes the chain mark and leaves the tile written (R111, R112, R132). -/
def State.podMarks (s : State) (n : Nat) (w : Word256) (seq : Nat) : State :=
  let a := wAcc w
  if wAdd w && !wChain w then s
  else
    let s := (if wChain w then s.accMarkBit n a 2 false else s).accMarkBit n a 1 true
    let h := s.accHist n a
    s.withTiles (fun t => { t with accHist := tabPut (fun _ => {}) t.accHist (n * 256 + a) { h with writer := some seq } })

/-- The marks of a flight that turns out not to execute are as if it had not started (R92): the written mark that it alone set is
clear, and the chain mark that it took is set. -/
def State.podUnmark (s : State) (f : Flight) : State :=
  let a := wAcc f.word
  let s := if f.set && (s.accHist f.tile a).writer == some f.seq then s.accMarkBit f.tile a 1 false else s
  if f.took then s.accMarkBit f.tile a 2 true else s

/-- Count and report what the written elements of the instruction with sequence number `seq` brought (R139, R143). -/
def State.podReport (s : State) (n : Nat) (w : Word256) (seq : Nat) (t : PodTot) : State :=
  let f := wFmt w
  let h := wPhase w
  let s := s.fmtShare n 0 f h 0 t.prod
  let s := s.fmtShare n 0 f h 1 t.sat
  let s := s.fmtShare n 0 f h 2 t.van
  let s := s.fmtShare n 0 f h 3 t.sub
  match t.bad with
  | some (cause, block) => s.tagInvalid n (wAcc w) (wLpod w) f h seq block cause
  | none => s.fmtShare n 0 f h 5 (if t.nanOp then 1 else 0)

/-- The rows that an instruction started on `c` has made usable by cycle `x`. DESIGN CHOICE (R114 does not say which results
of an abandoned instruction stand): the rows usable by the cycle on which it is abandoned do, the others are not written. -/
def podRowsBy (stream : Bool) (w : Word256) (c x : Nat) : List Nat :=
  (range' 0 (wRows w)).filter (fun i => decide (rowUsable stream w c i ≤ x))

/-- A new flight of tile `n` begins. -/
def State.takeOff (s : State) (f : Flight) : State := s.withTiles (fun t => { t with flights := t.flights ++ [f] })

/-- A pod instruction starts on absolute cycle `c`; `limit` is where a late one is abandoned (R114). DESIGN CHOICE (the spec
gives no order where one instruction meets several faults): an unserved pod, then a stream fault, then a format mismatch,
then a clear chain mark; a chain instruction that one of them stops leaves its tile's mark as it was. A late instruction
keeps the place that its ISSUE gave it in its pod's and its tile's timing, so that it makes no fault of a later one. -/
def State.podRun (s : State) (stream : Bool) (n : Nat) (w : Word256) (c : Nat) (limit : Option Nat) : State :=
  let usable := podUsable stream w c
  let done := match limit with | some l => max c (min usable l) | none => usable
  let s := s.issue n w c
  let s := s.podTime stream n w (min (podOcc stream w) (match limit with | some l => l - c | none => podOcc stream w))
  let s := s.item (20 + n / 10) (if done < usable then neverDone else usable) (wFence w)
  let fault := podFieldsBad stream w || fp8OrientBad w || (wAdd w && !wChain w && !s.accWritten n (wAcc w))
    || (limit.isNone && s.podDepBad stream n w c)
  let s := s.podTiming stream n w (s.issueAbs w)
  if s.unserved n (wLpod w) then s.podAbsent n
  else if fault then s.streamFault n w
  else if s.fmtMismatch stream n w c c then s.podMismatch n w (s.fget (TILE_SEQ_LAST.tile n))
  else if wChain w && s.chainClear stream n w c then s.chainMissing n w
  else
    let q := s.fget (TILE_SEQ_LAST.tile n)
    ((s.accTiming stream n w (s.issueAbs w)).podMarks n w q).takeOff
      { kind := if stream then .stream else .incell, tile := n, word := w, start := c, seq := q, done := done,
        set := !s.accWritten n (wAcc w), took := wChain w }

/-- A pod instruction's outputs land; `older` are the flights before it. An operand line of another format that it met on
the way keeps it from executing (R92); otherwise ADD = 0 clears the invalid tag before what the instruction itself brings (R111). -/
def State.landPod (s : State) (stream : Bool) (f : Flight) (older : List Flight) : State :=
  if s.fmtMismatch stream f.tile f.word f.start f.done then (s.podUnmark f).podMismatch f.tile f.word f.seq
  else
    let s := if wAdd f.word then s else s.accMarkBit f.tile (wAcc f.word) 0 false
    let r := s.podRows stream f.tile f.word f.start older (podRowsBy stream f.word f.start f.done)
    r.1.podReport f.tile f.word f.seq r.2

/-- Fill an accumulator tile from FP32 words in row-major order, on absolute cycle `x`. -/
def State.accFill (s : State) (n a x : Nat) (src : Nat → Nat) : State :=
  (range' 0 128).foldl (fun s i => (range' 0 128).foldl (fun s j => s.setAccEl n a i j (src (128 * i + j)) x) s) s

/-- A chain transfer completes: its content, its invalid tag and the chain mark; a mark still set is a stream fault (R161,
R164). -/
def State.landChain (s : State) (f : Flight) (content : List Word32) (tagged : Bool) : State :=
  let n := f.tile
  let a := wAcc f.word
  if s.accChain n a then s.streamFaultAt n f.word f.seq
  else
    let s := (s.accFill n a f.done (fun k => (content.getD k 0).toNat)).accMarkBit n a 0 tagged
    let h := s.accHist n a
    (s.accMarkBit n a 2 true).withTiles (fun t => { t with
      accHist := tabPut (fun _ => {}) t.accHist (n * 256 + a) { h with chainAt := f.done } })

/-- The flights before a flight, newest first, of its accumulator tile. -/
def State.olderThan (s : State) (f : Flight) : List Flight :=
  ((s.tiles.flights.takeWhile (fun q => q != f)).filter (fun q => q.tile == f.tile && wAcc q.word == wAcc f.word)).reverse

/-- A flight comes to its end. -/
def State.land (s : State) (f : Flight) : State :=
  let older := s.olderThan f
  let s := s.withTiles (fun t => { t with flights := t.flights.filter (fun q => q != f) })
  (match f.kind with
  | .stream => s.landPod true f older
  | .incell => s.landPod false f older
  | .chain content tagged => s.landChain f content tagged).accSweep

end Sys2Proof.Machine
end

