-- ==== Sys2Proof/Machine/Vector.lean ====
section
/-! DEFINITION. The vector-engine and transfer words of a tile's stream: LOAD, READOUT, CHAIN, CONVERT, SCALE, TREE,
SUMSQ, LOOKUP_ADD, ROWCOL, UPDATE, COPY, DECAY, EWISE and END (R483, R625, and the chapters that own each). Addresses
name device memory; VeLoc says where a word means operand-SRAM lines instead. A word takes its operands and lands its
results on the cycles of R602; what it writes to memory stands there from its issue. `lim` is the cycle on which a late
word stops (R39, R114): what would come later is not written. -/

namespace Sys2Proof.Machine

/-! ### Elements wherever they lie -/

/-- Read element `i` of `wd` bits from memory at `a`, or from the operand lines from `a` on, taken on absolute cycle `x`. -/
def State.rdEl (s : State) (n : Nat) (sram : Bool) (a wd i x : Nat) : Nat :=
  if sram then s.opBits n (a + i * wd / 2048) x (i * wd % 2048) wd else s.rdN (a + i * (wd / 8)) (wd / 8)

/-- Write element `i` likewise, landing on absolute cycle `x`; an operand line takes format tag `tag` (R92). -/
def State.wrEl (s : State) (n : Nat) (sram : Bool) (a wd tag i v x : Nat) : State :=
  if sram then s.setOpBits n (a + i * wd / 2048) (i * wd % 2048) wd v tag x else s.wrN (a + i * (wd / 8)) (wd / 8) v

/-- Does a result that lands on cycle `x` come before a late word stops (R39)? -/
def inTime (lim : Option Nat) (x : Nat) : Bool := match lim with | some l => decide (x ≤ l) | none => true

/-- Bits per element of a format code. -/
def fmtWidth (f : Nat) : Nat := 8 * fmtBytes f

/-- The value of an element of a source format; FP8 takes its block's scale byte (R74). -/
def srcVal (f x scale : Nat) : FVal :=
  if f == 5 then bp32Val x
  else if isFp8 f then (fpDecode (fpFmtOf f) x).scale ((scale : Int) - 127)
  else fpDecode (fpFmtOf f) x

/-- Is a block's scale byte invalid (R75)? -/
def scaleBad (x : Nat) : Bool := x == 0 || x == 255

/-- The hi half of a pair as the BF16 value it is (R93): a NaN becomes the canonical one and counts as propagated, a nonzero
subnormal counts as such (R97, R98). -/
def hiHalf (x : Nat) : FpRes := fpEncode fmtBf16 (fpDecode fmtBf16 (x / 0x10000))

/-- One conversion (R93 to R98): the exact value rounded once to the target, an FP8 target after division by the scale.
With an invalid scale byte the value is free. -/
def convert (src dst x scaleIn scaleOut : Nat) : FpRes :=
  if src == 5 && dst == 1 then hiHalf x
  else if isFp8 src && scaleBad scaleIn then fpEncode (fpFmtOf dst) (f32 (Config.badScale src dst x scaleIn).toNat)
  else if isFp8 dst && scaleBad scaleOut then fpEncode (fpFmtOf dst) (f32 (Config.badScale src dst x scaleOut).toNat)
  else
    let v := srcVal src x scaleIn
    if dst == 5 then renormVal v
    else if isFp8 dst then fpEncode (fpFmtOf dst) (v.scale (127 - (scaleOut : Int)))
    else fpEncode (fpFmtOf dst) v

/-- The conversions of R93 that a vector engine makes. -/
def convPairOk (src dst : Nat) : Bool :=
  match src with
  | 0 => [1, 2, 3, 4, 5].contains dst
  | 1 => [0, 5, 2, 3, 4].contains dst
  | 2 => [0, 1, 3, 4].contains dst
  | 3 => [0, 1, 2].contains dst
  | 4 => [0, 1, 2].contains dst
  | 5 => [0, 1].contains dst
  | _ => false

/-- Begin a vector-engine word on an absolute cycle: issue, and the cycle of its last result against its fence (R602). -/
def State.veBegin (s : State) (n : Nat) (w : Word256) (c latency occ : Nat) (lim : Option Nat) : State :=
  let last := c + latency + (occ - 1)
  (s.issue n w c).item (20 + n / 10) (if inTime lim last then last else neverDone) (wFence w)

/-! ### Field ranges of the words (R115, R483) -/

/-- Do `lines` operand lines from `first` on run past the last of the tile's 98,304? -/
def pastSram (first lines : Nat) : Bool := decide (98304 < first + lines)

/-- A LOAD that runs past operand SRAM. -/
def loadBad (w : Word256) : Bool := pastSram (getBits (wX w) 0 17) (wY w + 1)

/-- A READOUT of more rows than a tile has, to a format that R483 does not give it, past operand SRAM, or of a partial sum
that a spill would narrow, convert or renormalise (R147). -/
def readoutBad (w : Word256) : Bool :=
  let sram := getBits (wX w) 2 1 == 1
  let f := if getBits (wX w) 1 1 == 1 then 5 else wFmt w
  decide (127 < wY w) || (getBits (wX w) 0 1 == 1 && (sram || f != 0)) || !(f == 0 || f == 5 || (sram && convPairOk 0 f))
  || (sram && pastSram (getBits (wX w) 3 17) (if isFp8 f then wY w + 1 else (wY w + 1) * (fmtWidth f / 16)))

/-- A CHAIN from no source of R483: source code 3, or a tile number that a die does not have. -/
def chainBad (w : Word256) : Bool :=
  getBits (wX w) 0 2 == 3 || (getBits (wX w) 0 2 == 0 && decide (9 < getBits (wX w) 5 4))

/-- An EWISE of no function of R483, or whose destination runs past operand SRAM. -/
def ewiseBad (w : Word256) : Bool := decide (8 < getBits (wX w) 0 8) || pastSram (getBits (wX w) 8 17) (wY w + 1)

/-- A source or target of `e` elements of `wd` bits that runs past operand SRAM. -/
def elsBad (sram : Bool) (a wd e : Nat) : Bool := sram && pastSram a (ceilDiv (e * wd) 2048)

/-- A target of `e` elements of `wd` bits that runs past operand SRAM, or that lies in the control region, which scheduled work
never writes (R326). DEDUCED (the spec gives such a word no effect of its own): its address is out of range (R115). -/
def dstBad (sram : Bool) (a wd e : Nat) : Bool := elsBad sram a wd e || (!sram && inControlRegion a (e * wd / 8))

/-- A word that writes `e` elements of `wd` bits to memory completes on cycle `last`, or never where it stops before (R158). -/
def State.memSpan (s : State) (sram : Bool) (a wd e last : Nat) (lim : Option Nat) : State :=
  if sram then s else s.wrote a (e * wd / 8) (if inTime lim last then last else neverDone)

/-! ### LOAD, READOUT, CHAIN -/

/-- Where a LOAD from a factor's result buffers reads: whichever of the two the word names, the buffer that the block's
descriptor in the bank that the step reads selects (R257, R258); any other address stands as it is. -/
def State.factorPlace (s : State) (a : Nat) : Nat :=
  match s.myImage with
  | none => a
  | some f =>
    let find (g : TensorEnt → Nat) : Option (TensorEnt × Nat × Nat) :=
      (f.stateMap.filter (fun d => d.role == 8 && owns d (s.fget HULL_ORCH_MODULE))).findSome? (fun d =>
        (f.stateMap.find? (fun t => t.tensor == d.tensor && 4 ≤ t.role && t.role ≤ 7)).bind (fun t =>
          let side := if t.role == 4 || t.role == 7 then t.row1 - t.row0 else t.col1 - t.col0
          let b := 4 * 2 ^ t.block * 2 ^ t.block
          if g d ≤ a && a < g d + b * ceilDiv side (2 ^ t.block) then some (d, b, a - g d) else none))
    match (find TensorEnt.home).orElse (fun _ => find TensorEnt.aux) with
    | some (d, b, off) =>
      let e := s.readBase d + 64 * (off / b)
      let w := s.rdN e 8
      if w % 4 == 1 then s.rdN (e + 32 + 8 * getBits w 2 1) 8 + off % b else a
    | none => a

/-- LOAD: lines from memory into operand SRAM, line `i` landing 488 + i cycles after the issue, with their format tag; state is
read from the bank that the step reads (R22, R483, R92, R602). -/
def State.veLoad (s : State) (n : Nat) (w : Word256) (c : Nat) (lim : Option Nat) : State :=
  let lines := wY w + 1
  let l0 := getBits (wX w) 0 17
  let s := s.veBegin n w c 488 lines lim
  if loadBad w then s.streamFault n w
  else ((range' 0 lines).filter (fun i => inTime lim (c + 488 + i))).foldl (fun s i =>
    s.setOpLine n (l0 + i) (s.rdGranule (s.statePlace (s.factorPlace (wA w + 256 * i)))) (wFmt w) (c + 488 + i)) s

/-- One read-out element: FP32 as it is, a pair through the renormaliser, or a conversion (R82, R147, R483). -/
def readoutEl (f : Nat) (pair : Bool) (x : Nat) : FpRes :=
  if pair || f == 5 then renorm x 0 else if f == 0 then ⟨x, {}, false⟩ else convert 0 f x 127 127

/-- READOUT: rows of an accumulator tile to memory or operand SRAM, as FP32, pairs or converted; row `i` is read, with the tile's
invalid tag, `i` cycles after the issue and usable 16 later (R82, R140, R147, R185, R602). DESIGN CHOICE (R110 carries no contents
over as an input and names neither a value nor a fault): of a tile that nothing wrote in this tick, a READOUT or a chain transfer
reads what an earlier tick left. -/
def State.veReadout (s : State) (n : Nat) (w : Word256) (c : Nat) (lim : Option Nat) : State :=
  let rows := (range' 0 (wY w + 1)).filter (fun i => inTime lim (c + 16 + i))
  let pair := getBits (wX w) 1 1 == 1
  let sram := getBits (wX w) 2 1 == 1
  let line := getBits (wX w) 3 17
  let f := if pair then 5 else wFmt w
  let wd := fmtWidth f
  let s := s.veBegin n w c 16 (wY w + 1) lim
  if readoutBad w || (!sram && inControlRegion (wA w) ((wY w + 1) * 16 * wd)) then s.streamFault n w
  else
    let fs := s.flightsTo n (wAcc w)
    let el (i j : Nat) : Nat := s.accElOver n (wAcc w) i j (c + i) fs
    let r := rows.foldl (fun (acc : State × EvCnt) i =>
      (range' 0 128).foldl (fun (acc : State × EvCnt) j =>
        let r := readoutEl f pair (el i j)
        let place := if sram then (if isFp8 f then line + i else line + i * (wd / 16)) else wA w + i * 16 * wd
        (acc.1.wrEl n sram place wd f j r.bits (c + 16 + i), acc.2.add r.ev)) acc) (s, {})
    let t := r.1.memSpan sram (wA w) wd (128 * (wY w + 1)) (c + 16 + wY w) lim
    let nans := (rows.filter (fun i => s.accTagOver n (wAcc w) (c + i) fs)).foldl (fun k i =>
      k + ((range' 0 128).filter (fun j => (f32 (el i j)).isNan)).length) 0
    if f == 0 then t.fmtShare n 1 0 (wPhase w) 5 nans else t.convEvents n f (wPhase w) r.2

/-- All elements of an accumulator tile on absolute cycle `x`, row by row. -/
def State.accContent (s : State) (n a x : Nat) : List Word32 :=
  let fs := s.flightsTo n a
  (range' 0 128).flatMap (fun i => (range' 0 128).map (fun j => BitVec.ofNat 32 (s.accElOver n a i j x fs)))

/-- Is an accumulator tile still to be written by what is under way on cycle `x` (R162)? -/
def State.accBusy (s : State) (n a x : Nat) : Bool := (s.flightsTo n a).any (fun f => decide (x < f.done))

/-- CHAIN: one accumulator tile into ACC, bit for bit. The content leaves its source on the issue cycle and lands, with the
chain mark, on the cycle of R162; a transfer from a tile or a spill whose results are still to come is a stream fault (R161, R162,
R164, R149). `arrival` is the content of a transfer that a link delivers on this cycle. -/
def State.veChain (s : State) (n : Nat) (w : Word256) (c : Nat) (arrival : List Word32) (lim : Option Nat) : State :=
  let kind := getBits (wX w) 0 2
  let src := 10 * getBits (wX w) 2 3 + getBits (wX w) 5 4
  let sacc := getBits (wX w) 9 8
  let lat := if kind == 1 then 612 else if kind == 2 then 0 else if src / 10 == n / 10 then 192 else 640
  let s := s.veBegin n w c lat 1 lim
  if chainBad w || (kind == 0 && s.accBusy src sacc c) || (kind == 1 && s.writing (wA w) (wA w + 65536) c) then s.streamFault n w
  else if inTime lim (c + lat) then
    let content := if kind == 0 then s.accContent src sacc c
      else if kind == 1 then (range' 0 16384).map (fun k => BitVec.ofNat 32 (s.rdN (wA w + 4 * k) 4))
      else (range' 0 16384).map (fun k => arrival.getD k 0)
    let f : Flight := { kind := .chain content (kind == 0 && s.accTagOver src sacc c (s.flightsTo src sacc)), tile := n, word := w, start := c,
                        seq := s.fget (TILE_SEQ_LAST.tile n), done := c + lat }
    if kind == 2 then s.land f else s.takeOff f
  else s

/-! ### CONVERT, SCALE, TREE, SUMSQ -/

/-- The FP32 element a CONVERT reads, multiplied by ν and by ι when the word says so (R187, R483). -/
def convSource (nu iota : Option Nat) (x : Nat) (c : EvCnt) : Nat × EvCnt :=
  let a := match nu with | some v => let r := fpMul x v; (r.bits, c.add r.ev) | none => (x, c)
  match iota with | some v => let r := fpMul a.1 v; (r.bits, a.2.add r.ev) | none => a

/-- CONVERT (R93 to R100, R187), of state from the bank that the step reads (R22, R287): `scales` is the scale-byte vector of an
FP8 source or target, `iota` the ι of the word. -/
def State.veConvert (s : State) (n : Nat) (w : Word256) (c : Nat) (loc : VeLoc) (scales : Nat) (iota : Word32)
    (lim : Option Nat) : State :=
  let src := getBits (wX w) 0 4
  let dst := wFmt w
  let useNu := getBits (wX w) 4 1 == 1
  let useIota := getBits (wX w) 5 1 == 1
  let e := 64 * (wY w + 1)
  let lat := if useNu || useIota then 16 else 12
  let s := s.veBegin n w c lat (ceilDiv e 1024) lim
  if !convPairOk src dst || ((useNu || useIota) && src != 0) || elsBad loc.aSram (wA w) (fmtWidth src) e
      || dstBad loc.bSram (wB w) (fmtWidth dst) e then s.streamFault n w
  else
    let a := if loc.aSram then wA w else s.statePlace (wA w)
    let nu := if useNu then s.nu else none
    let io := if useIota then some iota.toNat else none
    let r := ((range' 0 e).filter (fun i => inTime lim (c + lat + i / 1024))).foldl (fun (acc : State × EvCnt × EvCnt) i =>
      let x := convSource nu io (s.rdEl n loc.aSram a (fmtWidth src) i (c + i / 1024)) acc.2.2
      let sc := (s.rd8 (scales + i / 128)).toNat
      let r := convert src dst x.1 sc sc
      (acc.1.wrEl n loc.bSram (wB w) (fmtWidth dst) dst i r.bits (c + lat + i / 1024), acc.2.1.add r.ev, x.2)) (s, {}, {})
    let t := r.1.memSpan loc.bSram (wB w) (fmtWidth dst) e (c + lat + (e - 1) / 1024) lim
    (t.convEvents n dst (wPhase w) r.2.1).veEvents n (wPhase w) r.2.2

/-- SCALE: one scale byte for each 128-element block, by the image's rule (R76): the rule is Limmi's, so the byte is
the opaque `Config.scaleByte` of the rule code and the elements. DESIGN CHOICE (the word names one FMT and no format of the
source): the source holds FP32 elements, and FMT is the tag that filled operand lines take. -/
def State.veScale (s : State) (n : Nat) (w : Word256) (c : Nat) (loc : VeLoc) (lim : Option Nat) : State :=
  let blocks := wY w + 1
  let s := s.veBegin n w c 16 (ceilDiv blocks 16) lim
  if elsBad loc.aSram (wA w) 32 (128 * blocks) || dstBad loc.bSram (wB w) 8 blocks then s.streamFault n w
  else
    let a := if loc.aSram then wA w else s.statePlace (wA w)
    (((range' 0 blocks).filter (fun b => inTime lim (c + 16 + b / 16))).foldl (fun s b =>
      let xs := (range' 0 128).map (fun i => BitVec.ofNat 32 (s.rdEl n loc.aSram a 32 (128 * b + i) (c + b / 16)))
      s.wrEl n loc.bSram (wB w) 8 (wFmt w) b (Config.scaleByte (getBits (wX w) 0 8) xs).toNat (c + 16 + b / 16)) s).memSpan
        loc.bSram (wB w) 8 blocks (c + 16 + (blocks - 1) / 16) lim

/-- One level of the pairwise tree, left to right; an odd element moves up unchanged (R157). -/
def treeLevel : List Nat → EvCnt → List Nat × EvCnt
  | a :: b :: r, c =>
    let x := fpAdd a b
    let t := treeLevel r (c.add x.ev)
    (x.bits :: t.1, t.2)
  | l, c => (l, c)

/-- tree_sum of R157 by levels; `fuel` bounds the levels. -/
def treeSum : Nat → List Nat → EvCnt → Nat × EvCnt
  | 0, l, c => (l.headD 0, c)
  | k + 1, l, c =>
    match l with
    | [] => (0, c)
    | [x] => (x, c)
    | l => let t := treeLevel l c; treeSum k t.1 t.2

/-- A reduction plan of an image (R480). -/
def imgRedPlan (f : ImageFile) (id : Nat) : Option RedPlanImg := f.redPlans.find? (fun p => bvBits p.ent 0 16 == id)

/-- Write FP32 element `i` of a plan's target, a memory region or an accumulator tile, usable on cycle `x` (R480). -/
def State.redTarget (s : State) (p : RedPlanImg) (i v x : Nat) : State :=
  let t := bvBits p.ent 64 64
  if getBits t 63 1 == 1 then s.setAccEl (10 * getBits t 0 3 + getBits t 3 4) (getBits t 7 8) (i / 128) (i % 128) v x
  else s.wrN (getBits t 0 57 + 4 * i) 4 v

/-- FP32 element `i` of a plan's target on cycle `x`. -/
def State.redValue (s : State) (p : RedPlanImg) (i x : Nat) : Nat :=
  let t := bvBits p.ent 64 64
  if getBits t 63 1 == 1 then s.accElAt (10 * getBits t 0 3 + getBits t 3 4) (getBits t 7 8) (i / 128) (i % 128) x
  else s.rdN (getBits t 0 57 + 4 * i) 4

/-- The data fences of the running plan over an address (R43, R44). -/
def State.fencesOver (s : State) (a : Nat) : List Nat :=
  match s.image, s.curPlan with
  | some f, some p =>
    (range' 0 p.dfences.length).filter (fun i =>
      let x := p.dfences.getD i 0
      if dfKind x == 1 then
        f.stateMap.any (fun t => t.tensor == dfTensor x && decide (dfBuffer x ≤ a) && decide (a < dfBuffer x + bankBytes t))
      else
        p.slots.any (fun e => slotDfence e == i && decide (slotStaging e ≤ a) && decide (a < slotStaging e + slotStagingLen e)) ||
          dfBuffer x == a)
  | _, _ => []

/-- Does an address lie under a data fence? -/
def State.fenced (s : State) (a : Nat) : Bool := !(s.fencesOver a).isEmpty

/-- Is a data fence over an address not met on an absolute cycle: not yet due, or its buffer not complete (R44)? -/
def State.fenceOpen (s : State) (a c : Nat) : Bool :=
  match s.image, s.curPlan with
  | some f, some p => (s.fencesOver a).any (fun i =>
      let x := p.dfences.getD i 0
      decide (c < s.edgeAt + dfCycle x) || (if dfKind x == 1 then !s.prefetched (dfTensor x) else s.inputLate f p i))
  | _, _ => false

/-- Is a part slot of `n` bytes complete on cycle `c` (R158): what this tick has written to it covers it, or it lies under data
fences, which are met? -/
def State.slotComplete (s : State) (a n c : Nat) : Bool :=
  !s.fenceOpen a c && (s.fenced a || coveredBy s.tiles.spans c s.tiles.spans.length a (a + n)) && !s.writing a (a + n) c

/-- TREE: the part slots of a plan added in tree order into its target (R157 to R159). It does not start on a part slot that is not
complete, which is a fence miss (R158, R37). DESIGN CHOICE (neither the word nor the plan gives the target's length): `elems`, an
operand of the command. -/
def State.veTree (s : State) (n : Nat) (w : Word256) (c elems : Nat) (lim : Option Nat) : State :=
  match s.image.bind (fun f => imgRedPlan f (getBits (wX w) 0 12)) with
  | none => (s.issue n w c).streamFault n w
  | some p =>
    let parts := p.parts.map (fun e => bvBits e 64 57)
    let np := parts.length
    let lat := 484 + 8 * (Nat.log2 (np - 1) + 1)
    let t := bvBits p.ent 64 64
    if getBits t 63 1 == 0 && inControlRegion (getBits t 0 57) (4 * elems) then (s.issue n w c).streamFault n w
    else if !parts.all (fun a => s.slotComplete a (4 * elems) c) then (s.issue n w c).item (20 + n / 10) neverDone (wFence w)
    else
    let s := s.veBegin n w c lat ((np - 1) * ceilDiv elems 2048) lim
    let r := ((range' 0 elems).filter (fun i => inTime lim (c + lat + i / 2048))).foldl (fun (acc : State × EvCnt) i =>
      let t := treeSum (Nat.log2 np + 1) (parts.map (fun a => s.rdN (a + 4 * i) 4)) acc.2
      (acc.1.redTarget p i t.1 (c + lat + i / 2048), t.2)) (s, {})
    (r.1.memSpan (getBits t 63 1 == 1) (getBits t 0 57) 32 elems (c + lat + (elems - 1) / 2048) lim).veEvents n (wPhase w) r.2

/-- One sequential FP32 sum, the first term taken as it is (R116, R625). -/
def seqSum : List Nat → EvCnt → Nat × EvCnt
  | [], c => (0, c)
  | x :: r, c => r.foldl (fun (acc : Nat × EvCnt) y => let t := fpAdd acc.1 y; (t.bits, acc.2.add t.ev)) (x, c)

/-- The bucket element as every consumer reads it: round(x · ν) while ν is valid (R187, R204). -/
def readNu (nu : Option Nat) (x : Nat) (c : EvCnt) : Nat × EvCnt :=
  match nu with | some v => let r := fpMul x v; (r.bits, c.add r.ev) | none => (x, c)

/-! ### Buckets in memory -/

/-- Byte offset of element (i, j) of a bucket of `rows` rows and `wb` columns: accumulator tiles of 128 × 128 one after
another, as READOUT leaves them; a one-row bucket (R177) is a plain vector. -/
def bucketOff (rows wb i j : Nat) : Nat :=
  if rows == 1 then 4 * j else ((i / 128) * (wb / 128) + j / 128) * 65536 + (i % 128) * 512 + (j % 128) * 4

/-- Rows that the module's shard of a tensor holds. -/
def shardRows (t : TensorEnt) : Nat := t.row1 - t.row0

/-- The elements of a SUMSQ source, each with its place in the order that they are taken in: what lies at address A as words, or
the live rows of a bucket or of a row vector of a weight tensor, in increasing row order (R277, R280, R286). State is read from the
bank that the step reads (R22). -/
def State.sumEls (s : State) (n : Nat) (loc : VeLoc) (a e c : Nat) : List Nat :=
  let place := if loc.aSram then a else s.statePlace a
  let weight (id : Nat) : Option TensorEnt := s.myImage.bind (fun f => imgWeight f id)
  match loc.src with
  | .words => (range' 0 e).map (fun k => s.rdEl n loc.aSram place 32 k (c + k / 1024))
  | .bucket id row =>
    (match weight id with
    | some t => ((range' 0 e).filter (fun k => rowTrained t (t.row0 + row + k / 2 ^ t.wb))).map (fun k =>
        s.rdN (a + bucketOff (shardRows t) (2 ^ t.wb) (row + k / 2 ^ t.wb) (k % 2 ^ t.wb)) 4)
    | none => [])
  | .rows id row =>
    (match weight id with
    | some t => ((range' 0 e).filter (fun k => rowTrained t (t.row0 + row + k))).map (fun k =>
        s.rdEl n loc.aSram place 32 k (c + k / 1024))
    | none => [])

/-- SUMSQ: a partial sum, of squares when the word says so, in increasing index order, for the plan that the word names (R283,
R483); `bucket` says the source is a reduced bucket, read under R187. -/
def State.veSumsq (s : State) (n : Nat) (w : Word256) (c : Nat) (loc : VeLoc) (bucket : Bool) (lim : Option Nat) : State :=
  let e := 64 * (wY w + 1)
  let square := getBits (wX w) 12 1 == 1
  let last := c + 12 + (ceilDiv e 1024 - 1)
  let plan := s.image.bind (fun f => imgRedPlan f (getBits (wX w) 0 12))
  let s := s.veBegin n w c 12 (ceilDiv e 1024) lim
  if plan.isNone || (loc.src == .words && elsBad loc.aSram (wA w) 32 e) || dstBad loc.bSram (wB w) 32 1 then s.streamFault n w
  else if inTime lim last then
    let xs := (s.sumEls n loc (wA w) e c).foldl (fun (acc : List Nat × EvCnt) v =>
      let x := readNu (if bucket then s.nu else none) v acc.2
      if square then let q := fpMul x.1 x.1; (acc.1 ++ [q.bits], x.2.add q.ev) else (acc.1 ++ [x.1], x.2)) ([], {})
    let t := seqSum xs.1 xs.2
    ((s.wrEl n loc.bSram (wB w) 32 (wFmt w) 0 t.1 last).memSpan loc.bSram (wB w) 32 1 last lim).veEvents n (wPhase w) t.2
  else s

/-- A tensor's bucket of `words` FP32 words that a lookup's first word brings to +0 (R196). The bucket holds its slot until its
update completes or it is parked; after that a lookup into the slot begins another bucket (R186). -/
def State.beginBucket (s : State) (dest tensor words : Nat) : State :=
  if s.run.lookups.contains (dest, tensor) then s
  else (s.zero dest (dest + 4 * words)).withRun (fun r =>
    { r with lookups := (dest, tensor) :: r.lookups.filter (fun x => x.1 != dest) })

/-- A bucket leaves its pool slot (R186). -/
def State.freeSlot (s : State) (slot : Nat) : State :=
  s.withRun (fun r => { r with lookups := r.lookups.filter (fun x => x.1 != slot) })

/-- LOOKUP_ADD: each token's gradient row added to the bucket row of its id, one rounding each, in a bucket that begins at
+0; a masked row forms no gradient (R190, R193, R196). `dest` is the bucket; ids are 32-bit words, row numbers of the whole
tensor. -/
def State.veLookup (s : State) (n : Nat) (w : Word256) (c dest : Nat) (lim : Option Nat) : State :=
  let tokens := wY w + 1
  let s := s.veBegin n w c 8 (8 * tokens) lim
  match s.myImage.bind (fun f => imgWeight f (getBits (wX w) 0 20)) with
  | none => s.streamFault n w
  | some t =>
    let wb := 2 ^ t.wb
    if inControlRegion dest (4 * shardRows t * wb) then s.streamFault n w
    else
    let s := s.beginBucket dest t.tensor (shardRows t * wb)
    let r := ((range' 0 tokens).filter (fun k => inTime lim (c + 8 + 8 * k + 7))).foldl (fun (acc : State × EvCnt) k =>
      let id := s.rdN (wB w + 4 * k) 4
      if t.row0 ≤ id && id < t.row1 && rowTrained t id then
        (range' 0 wb).foldl (fun (acc : State × EvCnt) j =>
          let a := dest + bucketOff (shardRows t) wb (id - t.row0) j
          let x := fpAdd (acc.1.rdN a 4) (s.rdN (wA w + 4 * (k * wb + j)) 4)
          (acc.1.wrN a 4 x.bits, acc.2.add x.ev)) acc
      else acc) (s, {})
    (r.1.memSpan false dest 32 (shardRows t * wb) (c + 8 + 8 * wY w + 7) lim).veEvents n (wPhase w) r.2

/-- ROWCOL: the r and c contributions of one bucket, squares summed in order (R211, R213). `rDst` holds one word per
row, continued over buckets from bucket 0; `cDst` one word per column. The column sums come with the last row. -/
def State.veRowcol (s : State) (n : Nat) (w : Word256) (c rDst cDst : Nat) (lim : Option Nat) : State :=
  match s.myImage.bind (fun f => imgWeight f (getBits (wX w) 0 20)) with
  | none => (s.issue n w c).streamFault n w
  | some t =>
    let wb := 2 ^ t.wb
    let m := shardRows t
    let doR := getBits (wX w) 20 1 == 1
    let doC := getBits (wX w) 21 1 == 1
    let s := s.veBegin n w c 24 (m * wb / 1024) lim
    if (doR && inControlRegion rDst (4 * m)) || (doC && inControlRegion cDst (4 * wb)) then s.streamFault n w
    else
    let q (i j : Nat) (ev : EvCnt) : Nat × EvCnt :=
      let g := readNu s.nu (s.rdN (wA w + bucketOff m wb i j) 4) ev
      let r := fpMul g.1 g.1
      (r.bits, g.2.add r.ev)
    let row (acc : State × EvCnt) (i : Nat) : State × EvCnt :=
      let start : Option Nat := if wY w == 0 then none else some (acc.1.rdN (rDst + 4 * i) 4)
      let t := (range' 0 wb).foldl (fun (a : Option Nat × EvCnt) j =>
        let x := q i j a.2
        match a.1 with
        | none => (some x.1, x.2)
        | some y => let z := fpAdd y x.1; (some z.bits, x.2.add z.ev)) (start, acc.2)
      (acc.1.wrN (rDst + 4 * i) 4 (t.1.getD 0), t.2)
    let col (acc : State × EvCnt) (j : Nat) : State × EvCnt :=
      let t := ((range' 0 m).filter (fun i => rowTrained t (t.row0 + i))).foldl (fun (a : Option Nat × EvCnt) i =>
        let x := q i j a.2
        match a.1 with
        | none => (some x.1, x.2)
        | some y => let z := fpAdd y x.1; (some z.bits, x.2.add z.ev)) (none, acc.2)
      (acc.1.wrN (cDst + 4 * j) 4 (t.1.getD 0), t.2)
    let rows := (range' 0 m).filter (fun i => inTime lim (c + 24 + i * wb / 1024))
    let r1 := if doR then rows.foldl row (s, {}) else (s, {})
    let r2 := if doC && inTime lim (c + 24 + (m * wb / 1024 - 1)) then (range' 0 wb).foldl col r1 else r1
    let last := c + 24 + (m * wb / 1024 - 1)
    let t1 := if doR then r2.1.memSpan false rDst 32 m last lim else r2.1
    (if doC then t1.memSpan false cDst 32 wb last lim else t1).veEvents n (wPhase w) r2.2

/-! ### COPY and DECAY -/

/-- Place and bytes of row `i` of a state tensor's shard in its bank: rows of W or momentum; one FP32 word of r or c; of a
factor, rows of its blocks one after another, the last left block as short as it is (R209, R292). -/
def rowPlace (t : TensorEnt) (i : Nat) : Nat × Nat :=
  if t.role ≤ 1 then ((t.col1 - t.col0) * fmtBytes t.fmt * i, (t.col1 - t.col0) * fmtBytes t.fmt)
  else if t.role ≤ 3 then (4 * i, 4)
  else
    let b := 2 ^ t.block
    let side := if t.role == 4 || t.role == 7 then t.row1 - t.row0 else t.col1 - t.col0
    let nb := min b (side - i / b * b)
    (4 * (i / b * b * b + i % b * nb), 4 * nb)

/-- The row of a state tensor's shard that lies at an offset of its bank. -/
def rowAtOff (t : TensorEnt) (off : Nat) : Nat :=
  if t.role ≤ 3 then off / max (rowPlace t 0).2 1
  else
    let b := 2 ^ t.block
    let k := off / (4 * b * b)
    k * b + off % (4 * b * b) / max (rowPlace t (k * b)).2 1

/-- Is row `i` of the shard of tensor `t` copied unchanged: masked in its matrix (R190, R218)? -/
def State.rowCopied (s : State) (t : TensorEnt) (i : Nat) : Bool :=
  match s.myImage.bind (fun f => imgWeight f t.parent) with
  | none => false
  | some p =>
    if t.role == 3 || t.role == 5 || t.role == 6 then mLive p == 0 else !rowTrained p (t.row0 + i)

/-- The rows that the shard of a state tensor holds: those of W, or, for c, Rf and A, its columns. -/
def stateRows (t : TensorEnt) : Nat :=
  if t.role == 3 || t.role == 5 || t.role == 6 then t.col1 - t.col0 else t.row1 - t.row0

/-- Copy `n` bytes of memory. -/
def State.copyBytes (s : State) (src dst : Nat) : Nat → State
  | 0 => s
  | n + 1 => (s.wr8 dst (s.rd8 src)).copyBytes (src + 1) (dst + 1) n

/-- May the update stream and the decay pass write this tensor in this tick: in a step that runs, when the module owns it and
its bucket is not parked (R221, R275, R276, R316)? -/
def State.mayWrite (s : State) (t : TensorEnt) : Bool :=
  s.run.stepRuns && owns t (s.fget HULL_ORCH_MODULE) && !(t.role ≤ 1 && s.job.parking.contains t.parent)

/-- Record a statistic or update event's element (R225, R288). -/
def elemCause (v : FVal) (sat : Bool) : Option Nat :=
  match v with
  | .nan => some 0
  | .inf _ => some 1
  | .fin _ _ _ => if sat then some 2 else none

/-- A statistic element written as NaN, infinity or saturated: counted, recorded, and the health bit (R225). -/
def State.statEvent (s : State) (n tensor elem bits : Nat) (sat : Bool) : State :=
  let d := n / 10
  match elemCause (f32 bits) sat with
  | none => s
  | some cause =>
    let s := s.record (CD_STAT_FIRST_VALID.die d)
      [(CD_STAT_FIRST_TENSOR.die d, tensor), (CD_STAT_FIRST_ELEMENT.die d, elem), (CD_STAT_FIRST_CAUSE.die d, cause)]
    if cause == 2 then (s.fadd (CD_STAT_CNT_SATURATED.die d) 1).setSts (20 + d) (CD_STAT_STS_SATURATED.die d)
    else ((s.fadd (CD_STAT_CNT_NONFINITE.die d) 1).setSts (20 + d) (CD_STAT_STS_NONFINITE.die d)).setNonfinite (20 + d)

/-- The events of a statistic's row that is copied, element by element (R225): of a weight or momentum tensor, none. -/
def State.copyEvents (s : State) (n : Nat) (t : TensorEnt) (i : Nat) : State :=
  let p := rowPlace t i
  let b := 2 ^ t.block
  let g0 := if t.role == 2 || t.role == 4 || t.role == 7 then t.row0 else t.col0
  let gidx (k : Nat) : Nat := if t.role ≤ 3 then g0 + i else (g0 + i) * t.cols + g0 + i / b * b + k
  if t.role ≤ 1 then s
  else (range' 0 (p.2 / 4)).foldl (fun s k => s.statEvent n t.tensor (gidx k) (s.rdN (s.readBase t + p.1 + 4 * k) 4) false) s

/-- COPY: masked or untrained rows unchanged from the read bank to the written bank, with the events of a statistic's elements
(R190, R192, R218, R225). A names the first row in either bank (R22). -/
def State.veCopy (s : State) (n : Nat) (w : Word256) (c : Nat) (lim : Option Nat) : State :=
  let rows := 128 * (wY w + 1)
  match s.myImage.bind (fun f => f.stateMap.find? (fun t => t.tensor == getBits (wX w) 0 20)) with
  | none => (s.issue n w c).streamFault n w
  | some t =>
    let i0 := rowAtOff t (s.statePlace (wA w) - s.readBase t)
    let gran (i : Nat) : Nat := ((rowPlace t (i0 + i)).1 - (rowPlace t i0).1) / 256
    let s := s.veBegin n w c 484 (gran rows) lim
    ((range' 0 rows).filter (fun i => s.mayWrite t && decide (i0 + i < stateRows t) && s.rowCopied t (i0 + i) &&
      inTime lim (c + 484 + gran i))).foldl (fun s i =>
        let p := rowPlace t (i0 + i)
        (s.copyBytes (s.readBase t + p.1) (s.writeBase t + p.1) p.2).copyEvents n t (i0 + i)) s

/-- decay of R215. -/
def decayVal (sv x beta kappa : Nat) (c : EvCnt) : Nat × Bool × EvCnt :=
  let y := fpMul beta sv
  let z := fpMul kappa x
  let r := fpAdd y.bits z.bits
  (r.bits, y.ev.sat || z.ev.sat || r.ev.sat, ((c.add y.ev).add z.ev).add r.ev)

/-- κ of a statistic (R215, R216). -/
def State.kappa (s : State) (t : TensorEnt) (p : TensorEnt) : Nat :=
  if t.role == 2 then (fpMul t.w.toNat (recipNat (nLive p))).bits
  else if t.role == 3 then (fpMul t.w.toNat (recipNat (mLive p))).bits
  else if t.role == 6 || t.role == 7 then
    (match s.nu with | some v => (fpMul t.w.toNat v).bits | none => t.w.toNat)
  else t.w.toNat

/-- Write one statistic element: decayed with its contribution, or copied; whatever its value, its event is taken (R215,
R218, R225). -/
def State.decayEl (s : State) (n : Nat) (t : TensorEnt) (kappa : Nat) (copied : Bool) (off gidx x : Nat) (c : EvCnt) :
    State × EvCnt × Nat × Bool :=
  let sv := s.rdN (s.readBase t + 4 * off) 4
  if copied then ((s.wrN (s.writeBase t + 4 * off) 4 sv).statEvent n t.tensor gidx sv false, c, sv, false)
  else
    let r := decayVal sv x t.beta.toNat kappa c
    ((s.wrN (s.writeBase t + 4 * off) 4 r.1).statEvent n t.tensor gidx r.1 r.2.1, r.2.2, r.1, r.2.1)

/-- DECAY (R215, R217, R218, R225): 128 elements of r or c from element 128 · Y on, or block Y of a factor, its upper
triangle computed and written to both halves; the contribution lies at A. -/
def State.veDecay (s : State) (n : Nat) (w : Word256) (c : Nat) (lim : Option Nat) : State :=
  match s.myImage.bind (fun f => (f.stateMap.find? (fun t => t.tensor == getBits (wX w) 0 20 && 2 ≤ t.role && t.role ≤ 7)).bind
      (fun t => (imgWeight f t.parent).map (fun p => (t, p)))) with
  | none => (s.issue n w c).streamFault n w
  | some (t, p) =>
    let k := s.kappa t p
    let may := s.mayWrite t
    if t.role ≤ 3 then
      let s := s.veBegin n w c 16 1 lim
      let lim' := if t.role == 2 then t.row1 - t.row0 else t.col1 - t.col0
      let g0 := if t.role == 2 then t.row0 else t.col0
      let r := ((range' 0 128).filter (fun i => may && inTime lim (c + 16) && decide (128 * wY w + i < lim'))).foldl
        (fun (acc : State × EvCnt) i =>
          let e := 128 * wY w + i
          let o := acc.1.decayEl n t k (s.rowCopied t e) e (g0 + e) (s.rdN (wA w + 4 * i) 4) acc.2
          (o.1, o.2.1)) (s, {})
      r.1.veEvents n (wPhase w) r.2
    else
      let b := 2 ^ t.block
      let side := if t.role == 4 || t.role == 7 then t.row1 - t.row0 else t.col1 - t.col0
      let nb := min b (side - wY w * b)
      let base := wY w * b * b
      let s := s.veBegin n w c 16 (ceilDiv (nb * (nb + 1) / 2) 1024) lim
      let g0 := (if t.role == 4 || t.role == 7 then t.row0 else t.col0) + wY w * b
      let before (i i2 : Nat) : Nat := i * nb - i * (i - 1) / 2 + (i2 - i)
      let r := (range' 0 nb).foldl (fun (acc : State × EvCnt) i =>
        ((range' i (nb - i)).filter (fun i2 => may && inTime lim (c + 16 + before i i2 / 1024))).foldl
          (fun (acc : State × EvCnt) i2 =>
            let cp := acc.1.rowCopied t (wY w * b + i) || acc.1.rowCopied t (wY w * b + i2)
            let o := acc.1.decayEl n t k cp (base + i * nb + i2) ((g0 + i) * t.cols + g0 + i2)
              (s.rdN (wA w + 4 * (i * nb + i2)) 4) acc.2
            if i == i2 then (o.1, o.2.1)
            else ((o.1.wrN (s.writeBase t + 4 * (base + i2 * nb + i)) 4 o.2.2.1).statEvent n t.tensor
              ((g0 + i2) * t.cols + g0 + i) o.2.2.1 o.2.2.2, o.2.1)) acc) (s, {})
      r.1.veEvents n (wPhase w) r.2

/-! ### UPDATE -/

/-- An update write of NaN, infinity or a saturated value: counted, recorded, and the health bit (R288). -/
def State.updEvent (s : State) (n tensor elem role : Nat) (v : FVal) (sat : Bool) : State :=
  let d := n / 10
  match elemCause v sat with
  | none => s
  | some cause =>
    let s := s.record (CD_UPD_FIRST_VALID.die d)
      [(CD_UPD_FIRST_TENSOR.die d, tensor), (CD_UPD_FIRST_ELEMENT.die d, elem), (CD_UPD_FIRST_CAUSE.die d, cause),
       (CD_UPD_FIRST_ROLE.die d, role)]
    if cause == 2 then (s.fadd (CD_UPD_CNT0_SATURATED.die d) 1).setSts (20 + d) (CD_UPD_STS_SATURATED.die d)
    else ((s.fadd (CD_UPD_CNT0_NONFINITE.die d) 1).setSts (20 + d) (CD_UPD_STS_NONFINITE.die d)).setNonfinite (20 + d)

/-- fact of R279. -/
def factDir (g ri cj invMeanR b2 eps : Nat) (cold : Bool) (c : EvCnt) : Nat × EvCnt :=
  let v := if cold then let q := fpMul g g; (q.bits, c.add q.ev)
    else
      let a := fpMul ri cj
      let b := fpMul a.bits invMeanR
      let d := fpMul b.bits b2
      (d.bits, ((c.add a.ev).add b.ev).add d.ev)
  let e := fpAdd v.1 eps
  let q := fpSqrt e.bits
  let r := fpDiv g q.bits
  (r.bits, ((v.2.add e.ev).add q.ev).add r.ev)

/-- The old element pair of an update: weight bits and momentum bits, and the events so far. -/
structure UpdEl where
  weight : Nat
  mom : Nat
  wEv : FpEv := {}
  mEv : FpEv := {}
  ev : EvCnt := {}
  deriving DecidableEq, Repr

/-- tail of R278 for one element, the BF16 and BP32 values it reads converted to FP32 with their events (R100): momentum, bias
correction, decoupled decay, and the write of pair or stochastic BF16. -/
def updTail (rs : RuleSet) (pair : Bool) (eta etaL b1 rnd u : Nat) (x : UpdEl) : UpdEl :=
  let mr : FpRes := if rs.mfmt == 1 then fpEncode fmtFp32 (fpDecode fmtBf16 x.mom) else ⟨x.mom, {}, false⟩
  let m0 := mr.bits
  let p1 := fpMul rs.beta1.toNat m0
  let p2 := fpMul rs.alpha1.toNat u
  let m := fpAdd p1.bits p2.bits
  let sb := fpMul m.bits b1
  let sv := if rs.mfmt == 0 then u else sb.bits
  let c0 := if rs.mfmt == 1 then x.ev.add mr.ev else x.ev
  let c1 := if rs.mfmt == 0 then c0 else (((c0.add p1.ev).add p2.ev).add m.ev).add sb.ev
  let hi := x.weight / 0x10000 * 0x10000
  let lo := x.weight % 0x10000 * 0x10000
  let wr0 : FpRes := fpEncode fmtFp32 (if pair then bp32Val x.weight else fpDecode fmtBf16 x.weight)
  let wv := wr0.bits
  let c2 := c1.add wr0.ev
  let q1 := fpMul etaL wv
  let q2 := fpMul eta sv
  let q := fpAdd q1.bits q2.bits
  let delta := if (f32 q.bits).isNan then q.bits else Nat.xor q.bits 0x80000000
  let l := fpAdd (if pair then lo else wv) delta
  let wr := if pair then renorm hi l.bits else srBf16 l.bits rnd
  let mw := if rs.mfmt == 1 then fpEncode fmtBf16 (f32 m.bits) else ⟨m.bits, { sat := m.ev.sat }, false⟩
  { weight := wr.bits, mom := if rs.mfmt == 0 then x.mom else mw.bits, wEv := wr.ev, mEv := mw.ev,
    ev := (((c2.add q1.ev).add q2.ev).add q.ev).add l.ev }

/-- The descriptor STATE and UHASH of factor block `b` of a statistic in the bank that the step reads (R257). -/
def State.factorDesc (s : State) (f : ImageFile) (stat b : Nat) : Option (Nat × Nat) :=
  (imgTensor f stat 8).map (fun t =>
    let a := s.readBase t + 64 * b
    (s.rdN a 8 % 4, s.rdN (a + 12) 4))

/-- The block's current structure: the UHASH of the image's job entries that name it (R282). -/
def imgUhash (f : ImageFile) (stat b : Nat) : Option Nat :=
  (f.solverJobs.flatMap (fun j => j.rounds.flatMap (fun r => r.jobs))).findSome? (fun j =>
    if bvBits j 64 20 == stat && bvBits j 84 12 == b then some (bvBits j 384 32) else none)

/-- Is a factor side applied as the identity (R282)? -/
def State.identitySide (s : State) (f : ImageFile) (stat b : Nat) : Bool :=
  match s.factorDesc f stat b with
  | none => true
  | some (st, uh) =>
    let first := match f.stateMap.find? (fun t => t.tensor == stat && t.role != 8) with
      | some t => firstBlock f t
      | none => 0
    st != 1 || (imgUhash f stat (b + first)).getD uh != uh

/-- Everything an UPDATE of one bucket uses that does not change from element to element. -/
structure UpdCtx where
  t : TensorEnt
  rs : RuleSet
  mom : Option TensorEnt
  rT : Option TensorEnt
  cT : Option TensorEnt
  /-- The statistics whose published results are L and R. -/
  lT : Option TensorEnt
  fT : Option TensorEnt
  wb : Nat
  bucket : Nat
  /-- Which left blocks, and whether the right one, are applied as the identity (R282). -/
  leftIds : List Bool
  rightId : Bool
  seed : Nat
  tcount : Nat
  betaC : Nat
  invMeanR : Nat
  cold : Bool
  deriving Repr

/-- One application of a bucket set: its own step's scalars, the elements of a parked bucket, the direction D of a factored rule
row by row, and its grafting scale (R283, R317). -/
structure UpdSet where
  nu : Option Nat
  eta : Nat
  etaL : Nat
  b1 : Nat
  b2 : Nat
  parked : Option (List Nat)
  dir : List (List Nat) := []
  k : Nat := 0
  zero : Bool := false
  graftZero : Bool := false
  ev : EvCnt := {}
  deriving Repr

/-- The grafting scale of R283: k and whether n_D is +0, and whether GRAFT_ZERO is to be set. -/
def graftScale (sf sd : Nat) : Nat × Bool × Bool :=
  let nf := (fpSqrt sf).bits
  let nd := (fpSqrt sd).bits
  if nd == 0 then (0, true, nf != 0) else ((fpDiv nf nd).bits, false, false)

/-- The bucket element (i, j) of one application, read under its ν (R187, R317). -/
def State.updGrad (s : State) (x : UpdCtx) (st : UpdSet) (slot i j : Nat) (c : EvCnt) : Nat × EvCnt :=
  readNu st.nu (match st.parked with
    | some l => l.getD (i * x.wb + j) 0
    | none => s.rdN (slot + bucketOff (shardRows x.t) x.wb i j) 4) c

/-- FACT's direction of element (i, j) (R279). -/
def State.updFact (s : State) (x : UpdCtx) (st : UpdSet) (g i j : Nat) (c : EvCnt) : Nat × EvCnt :=
  let ri := match x.rT with | some r => s.rdN (s.readBase r + 4 * i) 4 | none => 0
  let cj := match x.cT with | some cc => s.rdN (s.readBase cc + 4 * (x.bucket * x.wb + j)) 4 | none => 0
  factDir g ri cj x.invMeanR st.b2 x.rs.eps.toNat x.cold c

/-- Element (i, k) of the published result of block `b` of a statistic, a BP32 word in the buffer that the block's descriptor in
the bank that the step reads selects (R257, R258, R281). -/
def State.factorEl (s : State) (f : ImageFile) (st : TensorEnt) (b i k : Nat) : Nat :=
  match imgTensor f st.tensor 8 with
  | some d =>
    let a := s.readBase d + 64 * b
    s.rdN (s.rdN (a + 32 + 8 * getBits (s.rdN a 8) 2 1) 8 + 4 * (i * blockDim st b + k)) 4
  | none => 0

/-- An FP32 value as an operand of the preconditioning products, as a BP32 word (R281): converted once to BF16, in the hi half, or
renormalised. -/
def prodOperand (pfmt x : Nat) : Nat := if pfmt == 5 then (renorm x 0).bits else (convert 0 1 x 127 127).bits * 0x10000

/-- The sum of the products of `n` operand pairs, in the BF16 or the pair form of PFMT, one rounding per addition (R81, R116,
R281). DESIGN CHOICE (the cut of a BP32 product into instructions fixes the order of its passes, and no word of UPDATE names it,
R119, R213): each pass runs over all of the terms. -/
def prodSum (pfmt n : Nat) (a b : Nat → Nat) : Nat :=
  let half (h w : Nat) : Option FVal := some (fpDecode fmtBf16 (getBits w (16 * h) 16))
  let passes := if pfmt == 5 then [(0, 1), (1, 0), (1, 1)] else [(1, 1)]
  ((passes.foldl (fun st h => (range' 0 n).foldl (fun st k => st.add k (termOf (half h.1 (a k)) (half h.2 (b k)))) st)
    ({ val := none } : RunSum)).val).getD 0

/-- D = L · G_b · R row by row: P_a = L_a · G_(a,b), then D_a = P_a · R; a side that runs as the identity passes its input on
unchanged (R281, R282, R284). -/
def State.updFactored (s : State) (f : ImageFile) (x : UpdCtx) (g : Nat → Nat → Nat) : List (List Nat) :=
  (range' 0 (shardRows x.t)).map (fun i =>
    let p : List Nat := match x.lT with
      | some l =>
        let b := 2 ^ l.block
        if x.leftIds.getD (i / b) true then (range' 0 x.wb).map (g i)
        else (range' 0 x.wb).map (fun j => prodSum x.rs.pfmt (blockDim l (i / b)) (fun k => s.factorEl f l (i / b) (i % b) k)
          (fun k => prodOperand x.rs.pfmt (g (i / b * b + k) j)))
      | none => (range' 0 x.wb).map (g i)
    match x.fT with
    | some r =>
      if x.rightId then p
      else (range' 0 x.wb).map (fun j => prodSum x.rs.pfmt x.wb (fun k => prodOperand x.rs.pfmt (p.getD k 0))
        (fun k => s.factorEl f r x.bucket k j))
    | none => p)

/-- Σ round(v · v) over the live rows of a bucket and its columns, in increasing row order (R277, R283, R286). DESIGN CHOICE (the
plan that combines the pieces of a bucket's norms is no part of the word): one sequential sum. -/
def State.liveSquares (s : State) (x : UpdCtx) (v : Nat → Nat → EvCnt → Nat × EvCnt) (c : EvCnt) : Nat × EvCnt :=
  let rows := (range' 0 (shardRows x.t)).filter (fun i => rowTrained x.t (x.t.row0 + i))
  let q := rows.foldl (fun (acc : List Nat × EvCnt) i => (range' 0 x.wb).foldl (fun (acc : List Nat × EvCnt) j =>
    let y := v i j acc.2
    let z := fpMul y.1 y.1
    (z.bits :: acc.1, y.2.add z.ev)) acc) ([], c)
  seqSum q.1.reverse q.2

/-- An application with its direction and grafting scale (R281 to R284). -/
def State.updFormed (s : State) (f : ImageFile) (x : UpdCtx) (slot : Nat) (st : UpdSet) : UpdSet :=
  let g (i j : Nat) : Nat := (s.updGrad x st slot i j {}).1
  if x.rs.rule == 1 || x.rs.rule == 2 then
    let d := s.updFactored f x g
    if x.rs.rule == 1 then
      let nf := s.liveSquares x (fun i j c => s.updFact x st (g i j) i j c) {}
      let nd := s.liveSquares x (fun i j c => ((d.getD i []).getD j 0, c)) nf.2
      let k := graftScale nf.1 nd.1
      { st with dir := d, k := k.1, zero := k.2.1, graftZero := k.2.2, ev := nd.2 }
    else { st with dir := d }
  else st

/-- The direction u of element (i, j) under the rule (R279 to R285). -/
def State.updDir (s : State) (x : UpdCtx) (st : UpdSet) (slot i j : Nat) (c : EvCnt) : Nat × EvCnt :=
  let g := s.updGrad x st slot i j c
  let d := (st.dir.getD i []).getD j 0
  if x.rs.rule == 0 then s.updFact x st g.1 i j g.2
  else if x.rs.rule == 1 then
    (if st.zero then (0, g.2) else let r := fpMul d st.k; (r.bits, g.2.add r.ev))
  else if x.rs.rule == 2 then (d, g.2)
  else g

/-- Bytes of a momentum element under a rule set (R272). -/
def momBytes (rs : RuleSet) : Nat := if rs.mfmt == 1 then 2 else 4

/-- Place of element (i, j) of the bucket within the module's shard of its tensor, in elements. -/
def UpdCtx.idx (x : UpdCtx) (i j : Nat) : Nat := i * (x.t.col1 - x.t.col0) + x.bucket * x.wb + j

/-- The same within the whole tensor. -/
def UpdCtx.gidx (x : UpdCtx) (i j : Nat) : Nat := (x.t.row0 + i) * x.t.cols + x.t.col0 + x.bucket * x.wb + j

/-- One element after every application in turn, from the bank that the step reads: an untrained row's as it was (R190, R275,
R277, R278, R317). `slot` is the bucket. -/
def State.updEl (s : State) (x : UpdCtx) (sets : List UpdSet) (slot i j : Nat) : UpdEl :=
  let wbytes := fmtBytes x.t.fmt
  let mbytes := momBytes x.rs
  let w0 := s.rdN (s.readBase x.t + x.idx i j * wbytes) wbytes
  let m0 := match x.mom with | some mt => s.rdN (s.readBase mt + x.idx i j * mbytes) mbytes | none => 0
  let e0 : UpdEl := { weight := w0, mom := m0 }
  if rowTrained x.t (x.t.row0 + i) then sets.foldl (fun (e : UpdEl) st =>
      let u := s.updDir x st slot i j e.ev
      updTail x.rs (x.t.fmt == 5) st.eta st.etaL st.b1 (srRnd x.seed x.tcount x.t.tensor (x.gidx i j)) u.1 { e with ev := u.2 }) e0
    else e0

/-- Update one element: one read, one write, and the events of what is written (R275, R277, R288). -/
def State.updElem (s : State) (n : Nat) (w : Word256) (x : UpdCtx) (sets : List UpdSet) (i j : Nat) : State :=
  let gidx := x.gidx i j
  let wbytes := fmtBytes x.t.fmt
  let mbytes := momBytes x.rs
  let e := s.updEl x sets (wA w) i j
  let s1 := s.wrN (s.writeBase x.t + x.idx i j * wbytes) wbytes e.weight
  let s2 := match x.mom with | some mt => s1.wrN (s.writeBase mt + x.idx i j * mbytes) mbytes e.mom | none => s1
  if !rowTrained x.t (x.t.row0 + i) then s2
  else
    let s3 := s2.updEvent n x.t.tensor gidx 0 (if x.t.fmt == 5 then bp32Val e.weight else fpDecode fmtBf16 e.weight) e.wEv.sat
    let s4 := match x.mom with
      | some mt => s3.updEvent n mt.tensor gidx 1 (if x.rs.mfmt == 1 then fpDecode fmtBf16 e.mom else f32 e.mom) e.mEv.sat
      | none => s3
    let s5 := s4.convEvents n x.t.fmt (wPhase w) (({} : EvCnt).add e.wEv)
    (if x.rs.mfmt == 1 then s5.convEvents n 1 (wPhase w) (({} : EvCnt).add e.mEv) else s5).veEvents n (wPhase w) e.ev

/-- The scalars of one application (R273, R317). -/
def updSet (f : ImageFile) (rs : RuleSet) (betaC t : Nat) (nu : Option Nat) (parked : Option (List Nat)) : UpdSet :=
  { nu := nu, eta := ruleEta f rs t, etaL := ruleEtaLambda f rs t, b1 := ruleB1 rs t, b2 := ruleB2 rs betaC t, parked := parked }

/-- Park the bucket of a LAGGED tensor: its elements, unnormalised, join the written bank's lag entry (R316). -/
def State.parkBucket (s : State) (t : TensorEnt) (bucket slot : Nat) : State :=
  let m := shardRows t
  let wb := 2 ^ t.wb
  let els := (range' 0 m).flatMap (fun i => (range' 0 wb).map (fun j => s.rdN (slot + bucketOff m wb i j) 4))
  let e := s.lagEnt t.tensor (!s.ccr.parity)
  let parked := match e.parked.reverse with
    | [] => []
    | p :: r => ({ p with buckets := p.buckets ++ [(bucket, els)] } :: r).reverse
  s.setLag t.tensor (!s.ccr.parity) { e with parked := parked }

/-- Count the factor sides that run as the identity: the right block of this bucket, and the left blocks with bucket 0
(R282: per block per step). -/
def State.countIdentity (s : State) (n : Nat) (f : ImageFile) (t : TensorEnt) (rs : RuleSet) (bucket : Nat) : State :=
  if rs.rule == 1 || rs.rule == 2 then
    let lRole := if rs.rule == 1 then 4 else 7
    let rRole := if rs.rule == 1 then 5 else 6
    let right := match imgChild f t.tensor rRole with
      | some rt => if s.identitySide f rt.tensor bucket then 1 else 0
      | none => 0
    let left := match imgChild f t.tensor lRole with
      | some lt => if bucket == 0 then
          ((range' 0 (ceilDiv (shardRows t) (2 ^ lt.block))).filter (fun a => s.identitySide f lt.tensor a)).length else 0
      | none => 0
    if left + right == 0 then s
    else (s.fadd (CD_UPD_CNT1_IDENTITY.die (n / 10)) (left + right)).setSts (20 + n / 10) (CD_UPD_STS_IDENTITY.die (n / 10))
  else s

/-- Count a bucket update completed or parked by HEALTH (R188, R301). -/
def State.countUpdate (s : State) : State :=
  if s.run.healthSent then s else s.withRun (fun r => { r with updates := r.updates + 1 })

/-- What an update of bucket `bucket` of tensor `t` under a rule set uses for every element; the target of plan `sPlan` holds the
sum of the statistic r on cycle `c` (R279, R280, R282). -/
def State.updCtx (s : State) (f : ImageFile) (t : TensorEnt) (rs : RuleSet) (bucket sPlan c : Nat) : UpdCtx :=
  let cT := imgChild f t.tensor 3
  let sum := match imgRedPlan f sPlan with | some p => s.redValue p 0 c | none => 0
  let meanR := (fpMul sum (recipNat (mLive t))).bits
  let lT := imgChild f t.tensor (if rs.rule == 1 then 4 else 7)
  let fT := imgChild f t.tensor (if rs.rule == 1 then 5 else 6)
  { t := t, rs := rs, mom := if rs.mfmt == 0 then none else imgChild f t.tensor 1, rT := imgChild f t.tensor 2, cT := cT,
    lT := lT, fT := fT, wb := 2 ^ t.wb, bucket := bucket,
    leftIds := match lT with | some l => (range' 0 (factorBlocks l)).map (fun b => s.identitySide f l.tensor b) | none => [],
    rightId := match fT with | some r => s.identitySide f r.tensor bucket | none => true,
    seed := s.job.seed, tcount := s.ccr.t, betaC := match cT with | some x => x.beta.toNat | none => 0,
    invMeanR := (fpDiv 0x3F800000 meanR).bits, cold := s.ccr.t == 0 || meanR == 0 }

/-- The applications of an update of the bucket in `slot`, the parked ones of a LAGGED tensor before the step's own (R283,
R317). -/
def State.updSets (s : State) (f : ImageFile) (x : UpdCtx) (slot : Nat) : List UpdSet :=
  let old := if x.t.lagged then (s.lagEnt x.t.tensor s.ccr.parity).parked else []
  (old.map (fun p => updSet f x.rs x.betaC p.t (some p.nu) (some ((assocGet p.buckets x.bucket).getD []))) ++
    [updSet f x.rs x.betaC s.ccr.t s.nu none]).map (s.updFormed f x slot)

/-- The rule set of a tensor. -/
def imgRule (f : ImageFile) (t : TensorEnt) : RuleSet := f.ruleSets.getD t.ruleSet ⟨3, 0, 0, 0, 0, 0, 0, 1, false, false⟩

/-- UPDATE: the tensor's rule and common tail over one bucket, from the bank the step reads to the other (R275 to
R288, R316, R317). -/
def State.veUpdate (s : State) (n : Nat) (w : Word256) (c : Nat) (aux : List UpdAux) (lim : Option Nat) : State :=
  match s.myImage.bind (fun f => (imgWeight f (getBits (wX w) 0 20)).map (fun t => (f, t))) with
  | none => (s.issue n w c).streamFault n w
  | some (f, t) =>
    let rs := imgRule f t
    let wb := 2 ^ t.wb
    let rate := if rs.rule ≤ 1 then 256 else 512
    let lat := if t.fmt == 5 then 40 else 48
    let occ := ceilDiv (shardRows t * wb) rate
    let s := s.veBegin n w c lat occ lim
    let whole := inTime lim (c + lat + (occ - 1))
    if !(s.run.stepRuns && owns t (s.fget HULL_ORCH_MODULE)) then s
    else if s.job.parking.contains t.tensor then
      (if whole then ((s.parkBucket t (wY w) (wA w)).freeSlot (wA w)).countUpdate else s)
    else
      let x := s.updCtx f t rs (wY w) (aux.getLastD ⟨0⟩).sPlan c
      let sets := s.updSets f x (wA w)
      let s := s.countIdentity n f t rs (wY w)
      let s := sets.foldl (fun s st => (if st.graftZero then
          (s.fadd (CD_UPD_CNT1_GRAFT_ZERO.die (n / 10)) 1).setSts (20 + n / 10) (CD_UPD_STS_GRAFT_ZERO.die (n / 10)) else s).veEvents
        n (wPhase w) st.ev) s
      let s := (range' 0 (shardRows t)).foldl (fun s i =>
        ((range' 0 wb).filter (fun j => inTime lim (c + lat + (i * wb + j) / rate))).foldl (fun s j =>
          s.updElem n w x sets i j) s) s
      if whole then (s.freeSlot (wA w)).countUpdate else s

/-! ### EWISE and END -/

/-- One element of an EWISE function (R483, R625): `d` is what the destination held, the third operand of a fused
multiply-add and the mask of a select. -/
def ewiseFn (fn a b d : Nat) : FpRes :=
  if fn == 0 then fpAdd a b
  else if fn == 1 then fpMul a b
  else if fn == 2 then fpFma a b d
  else if fn == 3 then fpExp a
  else if fn == 4 then fpRecip a
  else if fn == 5 then fpRsqrt a
  else if fn == 6 then fpMax a b
  else if fn == 7 then fpSilu a
  else ⟨if d % 2 == 1 then a else b, {}, false⟩

/-- EWISE: an element-wise FP32 function into operand lines (R483, R625); the destination is its third operand. -/
def State.veEwise (s : State) (n : Nat) (w : Word256) (c : Nat) (loc : VeLoc) (lim : Option Nat) : State :=
  let fn := getBits (wX w) 0 8
  let dst := getBits (wX w) 8 17
  let e := 64 * (wY w + 1)
  let slow := fn == 3 || fn == 4 || fn == 5 || fn == 7
  let rate := if slow then 512 else 2048
  let lat := if slow then 24 else 8
  let s := s.veBegin n w c lat (ceilDiv e rate) lim
  if ewiseBad w || elsBad loc.aSram (wA w) 32 e || elsBad loc.bSram (wB w) 32 e then s.streamFault n w
  else
    let a := if loc.aSram then wA w else s.statePlace (wA w)
    let b := if loc.bSram then wB w else s.statePlace (wB w)
    let r := ((range' 0 e).filter (fun i => inTime lim (c + lat + i / rate))).foldl (fun (acc : State × EvCnt) i =>
      let k := c + i / rate
      let x := ewiseFn fn (s.rdEl n loc.aSram a 32 i k) (s.rdEl n loc.bSram b 32 i k) (s.rdEl n true dst 32 i k)
      (acc.1.wrEl n true dst 32 (wFmt w) i x.bits (k + lat), acc.2.add x.ev)) (s, {})
    r.1.veEvents n (wPhase w) r.2

/-- END: the tile's stream stops for the tick (R483). -/
def State.veEnd (s : State) (n : Nat) (w : Word256) (c : Nat) : State :=
  (s.issue n w c).withTiles (fun t => { t with ended := n :: t.ended })

end Sys2Proof.Machine
end

