-- ==== Sys2Proof/Machine/Frames.lean ====
section
/-! DEFINITION. The records of the state by name, the slots of a link and the frames that leave in them (R369 to R373), and what
goes on the tree (R391 to R398). -/

namespace Sys2Proof.Machine

def State.withHost (s : State) (f : HostSt → HostSt) : State := { s with host := f s.host }
def State.withHub (s : State) (f : HubSt → HubSt) : State := { s with hub := f s.hub }
def State.withBench (s : State) (f : BenchSt → BenchSt) : State := { s with bench := f s.bench }
def State.withSolver (s : State) (f : SolverSt → SolverSt) : State := { s with solver := f s.solver }

/-- Change link `l` (0 to 15). -/
def State.withLink (s : State) (l : Nat) (f : LinkSt → LinkSt) : State := { s with links := modAt f l s.links }

/-- Link `l` (0 to 15). -/
def State.link (s : State) (l : Nat) : LinkSt := s.links.getD l {}

/-! ### Link schedules (R382) -/

/-- The entries of a schedule before its END, with their byte offsets. -/
def schedWords (l : List Word256) : List (Nat × Word256) :=
  ((indexed l 0).takeWhile (fun y => wbits y.2 0 4 != 0)).map (fun y => (32 * y.1, y.2))

def kOp (w : Word256) : Nat := wbits w 0 4
def kLink (w : Word256) : Nat := wbits w 4 2
def kCycle (w : Word256) : Nat := wbits w 8 40
def kSlot (w : Word256) : Nat := wbits w 48 5
def kCount (w : Word256) : Nat := wbits w 56 20 + 1
def kStride (w : Word256) : Nat := wbits w 76 8
def kPort (w : Word256) : Nat := wbits w 84 8
def kPlan (w : Word256) : Nat := wbits w 92 12
def kPart (w : Word256) : Nat := wbits w 104 16
def kFence (w : Word256) : Nat := wbits w 120 4
def kInLink (w : Word256) : Nat := wbits w 124 4

/-- The frames of an entry: link of the module, window and slot. -/
def kFrames (win die : Nat) (w : Word256) : List (Nat × Nat × Nat) :=
  (range' 0 (kCount w)).map (fun k => (4 * die + kLink w, kCycle w / win + k * (if kOp w == 5 then 1 else kStride w), kSlot w))

/-- The slots that the image's CONTROL and MARKER entries use (R391: one index on every tree link). -/
def treeSlots (f : ImageFile) : List Nat :=
  (f.linkScheds.flatMap (fun c => (schedWords c.words).filterMap (fun w =>
    if kOp w.2 == 3 || kOp w.2 == 4 then some (kSlot w.2) else none))).dedup

/-- Windows between a frame's start and its delivery (R367, R371). -/
def hopWindows (f : ImageFile) : Nat := imgHop f / imgWindow f

/-! ### Links and slots (R367, R371, R372, R391) -/

/-- A link's LNK_STATE field. -/
def lnkFld (f : Fld) (l : Nat) : Fld := (f.die (l / 4)).ix (l % 4)

/-- The links to the tree children, as LNK_STATE shows them. -/
def State.childLinks (s : State) : List Nat := (range' 0 16).filter (fun l => s.fbit (lnkFld LNK_STATE_TREE_CHILD l))

/-- Every tree link. -/
def State.treeLinks (s : State) : List Nat :=
  (range' 0 16).filter (fun l => s.fbit (lnkFld LNK_STATE_TREE_CHILD l) || s.fbit (lnkFld LNK_STATE_TREE_PARENT l))

/-- The fault page of a link's die. -/
def lnkPage (l : Nat) : Nat := 12 + l / 4

/-- Link rate: true at legacy rate. -/
def State.lnkLegacy (s : State) (l : Nat) : Bool := s.fbit (lnkFld LNK_STATE_LEGACY l)

/-- Window length of a link (R371). -/
def State.lnkWin (s : State) (l : Nat) : Nat := if s.lnkLegacy l then 512 else 256

/-- Hop of a link (R372). -/
def State.lnkHop (s : State) (l : Nat) : Nat := if s.lnkLegacy l then 2560 else 1536

/-- Window and slot of a tick-relative cycle on a link (R371). -/
def State.lnkSlot (s : State) (l c : Nat) : Nat × Nat :=
  let w := s.lnkWin l
  (c / w, ((range' 0 25).filter (fun k => decide (slotStart w k ≤ c % w))).length - 1)

/-- Does a cycle lie in the last whole window of a link before the tick edge (R377)? -/
def State.lastWindow (s : State) (l c : Nat) : Bool :=
  (s.lnkSlot l (c - s.edgeAt)).1 + 1 == s.fget TICK_PERIOD_PERIOD / s.lnkWin l

/-- Every link that leads to the tree parent. -/
def State.parentLinks (s : State) : List Nat := (range' 0 16).filter (fun l => s.fbit (lnkFld LNK_STATE_TREE_PARENT l))

/-- The cycle on which slot `k` of window `w` of this tick begins on a link. -/
def State.slotCycle (s : State) (l w k : Nat) : Nat := s.edgeAt + s.lnkWin l * w + slotStart (s.lnkWin l) k

/-- Is a cycle the start of one of slots 0 to 23 of a whole window of this tick (R371)? -/
def State.slotOpen (s : State) (l c : Nat) : Bool :=
  let p := s.lnkSlot l (c - s.edgeAt)
  decide (s.edgeAt ≤ c) && c == s.slotCycle l p.1 p.2 && p.2 != 24 &&
    decide ((p.1 + 1) * s.lnkWin l ≤ s.fget TICK_PERIOD_PERIOD)

/-- The first window whose slot `k` begins at or after a tick-relative cycle (R392). -/
def slotAfter (win k c : Nat) : Nat := if c ≤ c / win * win + slotStart win k then c / win else c / win + 1

/-- The slot index of the tree's frames, one for the whole orchard (R391); 0 where the image schedules none. -/
def treeSlot (f : ImageFile) : Nat := (treeSlots f).headD 0

/-- The cycle of the first tree slot at or after an absolute cycle (R392, R394). -/
def State.treeCycle (s : State) (f : ImageFile) (c : Nat) : Nat :=
  s.edgeAt + imgWindow f * slotAfter (imgWindow f) (treeSlot f) (c - s.edgeAt) + slotStart (imgWindow f) (treeSlot f)

/-- The entries of the running plan's schedule of a link's die, other than RECEIVE. -/
def State.linkWords (s : State) (l : Nat) : List Word256 :=
  match s.image with
  | none => []
  | some f => (f.linkScheds.filter (fun c => c.cls == modClass (imgModule f (s.fget HULL_ORCH_MODULE)) && c.die == l / 4 &&
      c.plan == s.fget TICK_PLAN_CUR)).flatMap (fun c => ((schedWords c.words).map (fun y => y.2)).filter (fun w => kLink w == l % 4))

/-- Does the schedule send a frame on a link in a slot? -/
def State.slotSends (s : State) (l w k : Nat) : Bool :=
  (s.linkWords l).any (fun x => kOp x != 6 && (kFrames (s.lnkWin l) (l / 4) x).contains (l, w, k))

/-- The cycles of a link's CONTROL slots from an absolute cycle on, as the schedule names them. -/
def State.controlCycles (s : State) (l c : Nat) : List Nat :=
  ((s.linkWords l).flatMap (fun x => if kOp x == 3 then
    (kFrames (s.lnkWin l) (l / 4) x).map (fun y => s.slotCycle l y.2.1 y.2.2) else [])).filter (fun y => decide (c ≤ y))

/-! ### Frames (R369, R370, R373, R377) -/

/-- Does slot `k` of window `w` begin before slot `k'` of window `w'`? -/
def slotBefore (w k w' k' : Nat) : Bool := decide (25 * w + k < 25 * w' + k')

/-- Windows from a frame to its retry slot (R373). -/
def State.retryWindows (s : State) (l : Nat) : Nat := if s.lnkLegacy l then 2 else 3

/-- SEQ of the frame in the slot that begins on a cycle: every slot carries a frame, and a RETRY frame is not counted (R370). -/
def State.seqAt (s : State) (l c : Nat) : Nat :=
  let p := s.lnkSlot l (c - s.edgeAt)
  let retries := ((s.link l).retry.filter (fun r => r.1 && slotBefore (r.2 + s.retryWindows l) 24 p.1 p.2)).length
  ((s.link l).seq + 25 * p.1 + p.2 - retries) % 256

/-- A frame leaves in a slot (R369, R370): header and flit, the oldest pending NAK with it and LANE_SWAP in the last window
before an edge that changes the lane map; its symbols go out on the two active lanes. -/
def State.putFrame (s : State) (l c seq kind slot flit : Nat) : State :=
  let k := s.link l
  let nak := match k.naks with | n :: _ => 65536 + n * 131072 | [] => 0
  let hdr := seq % 256 + kind * 256 + slot * 2048 + nak + (!k.swaps.isEmpty && s.lastWindow l c).toNat * 2 ^ 25
  let b := frameBytes hdr flit
  ((s.withLink l (fun k => { k with naks := k.naks.drop 1 })).emit (.frame l c kind [hdr, flit])).emit
    (.wire l c (laneSymbols 0 (Config.scrambler l 0 c) b) (laneSymbols 1 (Config.scrambler l 1 c) b))

/-- A scheduled frame is sent in the slot that begins on cycle `c` (R372): a NAK can name it until its retry slot has passed. -/
def State.linkSend (s : State) (l c kind flit : Nat) : State :=
  let p := s.lnkSlot l (c - s.edgeAt)
  let seq := s.seqAt l c
  let s := s.withLink l (fun k => { k with sent := (seq, p.1, p.2, kind, flit) :: k.sent.filter (fun e => e.1 != seq) })
  s.putFrame l c seq kind p.2 flit

/-- A tree frame is sent in the slot that begins on cycle `c`, on each of some links (R391). -/
def State.sendFrames (s : State) (links : List Nat) (c kind flit : Nat) : State :=
  links.foldl (fun s l => s.linkSend l c kind flit) s

/-- A NAK leaves in the next frame of the reverse direction (R373): in the first slot that begins when the frame of the slot
that began on cycle `c` has been checked, 112 cyc and the propagation later (R372). Where the schedule sends no frame in that
slot, its frame is IDLE. -/
def State.nakLeaves (s : State) (l c : Nat) : State :=
  let t := c + 112 + s.fget (lnkFld LNK_STATE_PROP l) - s.edgeAt
  let p := s.lnkSlot l t
  let n := if s.edgeAt + t == s.slotCycle l p.1 p.2 then p else if p.2 == 24 then (p.1 + 1, 0) else (p.1, p.2 + 1)
  if s.slotSends l n.1 n.2 then s
  else
    let e := s.slotCycle l n.1 n.2
    s.putFrame l e (s.seqAt l e) 0 n.2 0

/-- The slots of a tick that has lasted `n` cycles have carried their frames: SEQ goes on from there, and nothing of the tick is
left (R370, R399). DESIGN CHOICE: the IDLE frames of a last, partial window count like any others. -/
def State.linksTurn (s : State) (n : Nat) : State :=
  (range' 0 16).foldl (fun s l =>
    let q := if n == 0 then (s.link l).seq else s.seqAt l (s.edgeAt + n - 1) + 1
    s.withLink l (fun k => { k with seq := q % 256, retry := [], waiting := [], sent := [], naks := [] })) s

/-! ### What tree frames carry -/

/-- Fields of a flit, from byte 0 on: the bytes of each, and its value, little-endian. DESIGN CHOICE: a record of the tree stands
at byte 0 of its frame's flit; R393 gives the health record's bytes, and nothing gives a place to any other. -/
def packFlit : List (Nat × Nat) → Nat
  | [] => 0
  | (n, v) :: r => v % 256 ^ n + 256 ^ n * packFlit r

/-- The combined health record (R393). -/
def healthFlit (h : HealthRec) : Nat :=
  packFlit [(8, h.step), (8, h.tShadow), (4, h.loss), (4, h.updates), (8, h.tokens), (4, h.flags), (4, h.modules),
    (1, h.mismatch.toNat + 2 * h.missing.toNat)]

/-- An abort notice: the module that began it and the cause (R410). -/
def noticeFlit (origin cause : Nat) : Nat := packFlit [(4, origin), (4, cause)]

/-- An abort notice goes out in every CONTROL slot of every tree link from cycle `c` to the closing edge (R410). -/
def State.sendNotice (s : State) (c origin cause : Nat) : State :=
  s.treeLinks.foldl (fun s l => (s.controlCycles l c).foldl (fun s y => s.linkSend l y 2 (noticeFlit origin cause)) s) s

end Sys2Proof.Machine
end

