-- ==== Sys2Proof/Machine/Job.lean ====
section
/-! DEFINITION. What ends things: the clearing of survival classes, the job reset, function level resets, class D
actions, critical records and the class E stop (R420, R421, R496 to R498, R544 to R546, R555, R559 to R562), with the
events that answer host commands (R426, R461). -/

namespace Sys2Proof.Machine

/-! ### Halts -/

/-- Does the module run: neither stopped by class E, nor off, nor held in reset (R498, R530, R532, R614)? -/
def State.runs (s : State) : Bool := match s.power.halt with | .no => true | _ => false

/-- A step of the running module; a halted module ignores the command (R498, R543). -/
def State.live (s : State) (t : State → State) : State := if s.runs then t s else s

/-! ### Clearing registers by survival class (R10, R11, R420, R560, R561) -/

/-- The function whose FLR clears the F-class fields of the register at a key (R420, R452). -/
def resetOwner (key : Nat) : Nat :=
  if 0x20000000 ≤ key then 3
  else if key / 0x1000000 == 3 then 2
  else if key == 0x900 || (0x7000180 ≤ key && key < 0x7000200) then 0
  else 1

/-- Give the fields that `p` selects their reset values. -/
def clearFields (p : FieldDesc → Bool) : List FieldDesc → Nat → Nat
  | [], v => v
  | f :: fs, v => clearFields p fs (if p f then putBits v f.lo f.wd f.reset else v)

/-- Give every register field that `p` selects its reset value. -/
def State.clearRegs (s : State) (p : Nat → FieldDesc → Bool) : State :=
  { s with regs := tabAdjust resetOf (fun k v =>
      match findReg k with
      | some d => BitVec.ofNat 64 (clearFields (p k) d.fields v.toNat)
      | none => v) s.regs }

/-- EVQ_STS and EVQ_INT_EN hold bits of every FIFO, 2 and 3 of them PF0's (R420, R452, R466): after an FLR of PF0 (0) or
PF1 (1), the bits that the other function owns stand as in `s`. -/
def State.evqKeep (s t : State) (fn : Nat) : State :=
  let keep : Word64 := if fn == 0 then ~~~0xCCC else if fn == 1 then 0xCCC else ~~~0
  [EVQ_STS.base, EVQ_INT_EN.base].foldl (fun (t : State) k => t.regPut k (s.regGet k &&& keep)) t

/-- Clear the F-class fields that a function owns. -/
def State.clearF (s : State) (fn : Nat) : State :=
  s.evqKeep (s.clearRegs (fun k f => f.surv == .f && resetOwner k == fn)) fn

/-- The registers of the committed control record show it from now on, while no job runs: J-class fields keep their values
until they are cleared (R11, R321). -/
def State.keepRecord (s : State) : State :=
  s.fsetAll [(COMMIT_BANK_BANK_PARITY, s.ccr.parity.toNat), (COMMIT_BANK_REPLAYS, s.ccr.replays), (COMMIT_T_T, s.ccr.t),
    (COMMIT_STEP_STEP, s.ccr.step), (COMMIT_HOLD_IN_FORCE, s.ccr.hold.toNat), (COMMIT_LOSS0_MEAN, s.ccr.mean),
    (COMMIT_LOSS1_VAR, s.ccr.var), (COMMIT_LOSS1_COUNT, s.ccr.count)]

/-- Clear every J-class field. -/
def State.clearJ (s : State) : State := s.clearRegs (fun _ f => f.surv == .j)

/-- Write PWR_RESTORE_STS (R562): kind, classes cleared (bits C, W, F, J), and what was lost. -/
def State.restoreSts (s : State) (kind cleared tiles crackers : Nat) (hbm ctxs retest : Bool) : State :=
  let more := s.fget PWR_RESTORE_STS_KIND != 0
  s.fsetAll [(PWR_RESTORE_STS_KIND, kind), (PWR_RESTORE_STS_CLEARED, cleared), (PWR_RESTORE_STS_TILE_LOST, tiles),
    (PWR_RESTORE_STS_CRACKER_LOST, crackers), (PWR_RESTORE_STS_HBM_LOST, hbm.toNat),
    (PWR_RESTORE_STS_CONTEXTS_LOST, ctxs.toNat), (PWR_RESTORE_STS_POD_RETEST, retest.toNat),
    (PWR_RESTORE_STS_MORE, more.toNat)]

/-! ### Completions (R426, R461) -/

/-- COMMAND_DONE. -/
def State.commandDone (s : State) (ctx tag opcode status detail : Nat) : State :=
  s.event 1 ctx [tag % 2 ^ 32 * 2 ^ 48 + opcode % 256 * 2 ^ 80 + status % 256 * 2 ^ 88 + detail % 2 ^ 32 * 2 ^ 96]

/-- EXPORT_DONE: result 0 done, 1 aborted, 2 busy. -/
def State.exportEvent (s : State) (ctx result kind written4k tag : Nat) (c : Ccr) : State :=
  s.event 4 ctx [result * 2 ^ 48 + kind % 2 * 2 ^ 50 + written4k % 2 ^ 48 * 2 ^ 80,
    c.t % 2 ^ 64 * 2 ^ 16 + tag % 2 ^ 32 * 2 ^ 80, c.step % 2 ^ 64 * 2 ^ 16]

/-- ABORT (R411, R461). -/
def State.abortEvent (s : State) (origin cause : Nat) : State :=
  s.event 5 s.evCtx [origin % 2 ^ 16 * 2 ^ 48 + cause * 2 ^ 64 + s.ccr.parity.toNat * 2 ^ 67,
    s.ccr.t % 2 ^ 64 * 2 ^ 16, s.ccr.step % 2 ^ 64 * 2 ^ 16]

/-- The commands of a context that are still to complete end ABANDONED (R426, R434). -/
def State.abandonCmds (s : State) (p : PendCmd → Bool) : State :=
  let gone := s.host.cmds.filter p
  gone.foldl (fun s c => s.commandDone c.ctx c.tag c.opcode 14 0)
    (s.withHost (fun h => { h with cmds := h.cmds.filter (fun c => !p c) }))

/-! ### Exports, harvests and DMA (R289, R446, R451, R555) -/

/-- Abandon the accepted export: ABORTED, its completion and its event (R289). -/
def State.abandonExport (s : State) : State :=
  match s.host.exp with
  | none => s
  | some e =>
    let s := s.withHost (fun h => { h with exp := none, descs := h.descs.filter (fun d => d.kind != .exportOut) })
    let s := s.setSts 0 HULL_EXPORT_STS_ABORTED
    let w := s.fget HULL_EXPORT_DONE_4K
    let s := s.fsetAll [(HULL_EXPORT_ACTIVE, 0), (HULL_EXPORT_STARTED, 0)]
    (s.commandDone e.ctx e.tag 5 14 0).exportEvent e.ctx 1 e.kind w e.tag (if e.started then e.ccr else (s.ctx e.ctx).ccr)

/-- Key of DMA_PARK of an engine's queue. -/
def dmaPark (f : Fld) (eng q : Nat) : Fld := f.ix (4 * eng + q)

/-- Abandon the descriptors that `p` selects: their groups are no longer answered, and an INGEST completes
ABANDONED (R445, R451). -/
def State.abandonDescs (s : State) (p : Desc → Bool) : State :=
  let gone := s.host.descs.filter p
  let s := s.withHost (fun h => { h with
    descs := h.descs.filter (fun d => !p d),
    priGone := h.priGone ++ (gone.filter (fun d => d.status == 2)).map (fun d => d.prg),
    pri := h.pri.filter (fun g => !(gone.any (fun d => d.status == 2 && d.prg == g.1))) })
  let s := gone.foldl (fun s d => s.fset (dmaPark DMA_PARK_PARKED d.eng d.q) 0) s
  gone.foldl (fun s d => match d.kind with | .ingest _ _ => s.commandDone d.ctx d.tag 4 14 0 | _ => s) s

/-- Abandon a harvest in progress: its area's header stays at STATE 0, and it stays due unless class E ends it (R555). -/
def State.abandonHarvest (s : State) (stayDue : Bool) : State :=
  if s.fbit HRD_HARVEST_ACTIVE then
    let area := s.fget HRD_HARVEST_AREA
    let s := s.withHost (fun h => { h with descs := h.descs.filter (fun d => d.kind != .harvest) })
    let s := s.fsetAll [(HRD_HARVEST_ACTIVE, 0), (HRD_HARVEST_WRITTEN_4K, 0), (HRD_STATE_HARVEST_ACTIVE, 0),
      (HRD_GEN_INFO_WRITING.ix area, 0), (HRD_STATE_HARVEST_DUE, stayDue.toNat)]
    (s.fadd HRD_CNT_ABANDONED 1).setSts 3 HRD_STS_HARVEST_ABANDONED
  else s

/-! ### Job end (R410, R411, R496, R559, R561) -/

/-- Nothing of a job or its ticks goes on: run, job, tiles' tick state and what is under way in them, solver jobs (R267),
links' tree roles. Operand lines keep what has landed. -/
def State.stopTicks (s : State) : State :=
  { s with run := {}, job := {}, solver := { subRem := s.solver.subRem },
           power := { s.power with classD := [] },
           host := { s.host with saving := none },
           hub := { s.hub with retry := [], part := [] },
           links := s.links.map (fun (k : LinkSt) => { k with retry := [], waiting := [], landing := [], sent := [], naks := [] }),
           tiles := (s.tiles.dropFlights s.now).dropTick }

/-- The running context returns to LOADED with its committed control record (R561). -/
def State.ctxToLoaded (s : State) : State :=
  match s.job.ctx with
  | none => s
  | some c => s.setCtx c (fun x =>
      { x with
        state := .loaded, ccr := s.ccr, seed := s.job.seed, lag := s.job.lag, slow := s.slow, saved := none })

/-- A context whose save or restore has not ended returns to LOADED (R434). -/
def State.savesAbandoned (s : State) : State :=
  { s with ctxs := s.ctxs.map (fun x => if x.state == .running then { x with state := .loaded, saved := none } else x) }

/-- Answer every held invalidation (R434, R444). -/
def State.answerHeld (s : State) : State :=
  let held := s.host.held
  held.foldl (fun s h => s.emit (.msg "ATS_INVALIDATION_COMPLETE" [h.1, h.2.1, h.2.2.1, h.2.2.2]))
    (s.withHost (fun x => { x with
      held := [],
      atc := x.atc.filter (fun e => !held.any (fun h => h.1 == e.fn && decide (e.addr < h.2.1 + h.2.2.1) &&
        decide (h.2.1 < e.addr + e.size))) }))

/-- MMU_ATC goes to its reset value with the J-class fields (R10, R11): held invalidations are answered, the cache and its
pins are empty, and the page request groups outstanding are answered by nobody (R445). -/
def State.emptyAtc (s : State) : State :=
  s.answerHeld.withHost (fun h => { h with
    atc := [], pins := [], pri := [], priGone := h.priGone ++ h.pri.map (fun g => g.1) })

/-- A job reset: the running job ends, every J-class field is cleared, and the context returns to LOADED. `kind` is the
kind that PWR_RESTORE_STS reports: 8 job reset, 9 orchard abort. -/
def State.jobReset (s : State) (kind : Nat) : State :=
  let c := s.job.ctx
  let s := s.abandonCmds (fun p => some p.ctx == c && (p.opcode == 3 || p.opcode == 6 || p.opcode == 7))
  let s := if s.host.exp.any (fun e => some e.ctx == c) then s.abandonExport else s
  let s := s.abandonHarvest true
  let s := s.abandonDescs (fun d => some d.ctx == c && d.eng < 12)
  let s := s.ctxToLoaded.savesAbandoned.stopTicks.clearJ.emptyAtc
  s.restoreSts kind 8 0 0 false false false

/-- The module ends its job by abort: abort notice, event, record and count (R410, R411, R415), then the job reset.
`origin` is the module that began it, `tick` the tick count of the edge. -/
def State.abortJob (s : State) (origin cause tick : Nat) : State :=
  let s := s.abortEvent origin cause
  let s := s.fadd HULL_ORCH_CNT_ABORTS 1
  let s := s.record HULL_ORCH_ABORT_VALID
    [(HULL_ORCH_ABORT_ORIGIN, origin), (HULL_ORCH_ABORT_CAUSE, cause), (HULL_ORCH_ABORT_TICK, tick)]
  s.jobReset (if origin == s.fget HULL_ORCH_MODULE then 8 else 9)

/-- Begin an abort that ends the job at the next tick edge: the notice goes out on every tree link until then (R410). -/
def State.beginAbort (s : State) (cause : Nat) : State :=
  if s.job.ctx.isNone || s.job.aborting.isSome then s
  else
    let me := s.fget HULL_ORCH_MODULE
    let s := s.withJob (fun j => { j with aborting := some (me, cause) })
    (s.setSts 0 HULL_ORCH_STS_ABORT_SENT).sendNotice s.now me cause

/-- The job is about to end at once by FLR or job reset: its partners get the notice of R410 with cause 4, DEDUCED: in the
CONTROL slots that are left of the tick. -/
def State.noticeOut (s : State) : State :=
  if 1 < s.fget HULL_ORCH_SIZE then s.sendNotice s.now (s.fget HULL_ORCH_MODULE) 4 else s

/-- ABORT_SENT, where the ended job had partners (R410, R415). -/
def State.noticeSts (s : State) : State :=
  if 1 < s.fget HULL_ORCH_SIZE then s.setSts 0 HULL_ORCH_STS_ABORT_SENT else s

/-! ### Function level resets (R421) -/

/-- Empty a FIFO and its ring's writer (R421). -/
def State.resetFifo (s : State) (f : Nat) : State :=
  let s := s.setFifo f (fun _ => {})
  if f == 1 || f == 2 then { s with rings := modAt (fun _ => {}) (f - 1) s.rings } else s

def State.flrPf0 (s : State) : State :=
  ((((s.resetFifo 2).resetFifo 3).withHost (fun h => { h with mbox := [] })).clearF 0).restoreSts 4 4 0 0 false false false

/-- What a PF1 FLR does to the running job, before its registers are cleared. -/
def State.flrPf1Job (s : State) : State :=
  let ran := s.job.ctx.isSome
  let s := if ran then s.noticeOut else s
  let s := (s.withHost (fun h => { h with cmds := [] })).abandonExport
  let s := s.abandonDescs (fun d => decide (d.eng < 12))
  let s := (s.abandonHarvest true).ctxToLoaded.savesAbandoned.stopTicks
  let s := s.evqKeep (s.clearRegs (fun k f => f.surv == .j || (f.surv == .f && resetOwner k == 1))) 1
  let s := { s with ctxs := s.ctxs.map (fun x => { x with loading := false }) }
  if ran then s.noticeSts else s

def State.flrPf1 (s : State) : State :=
  let s := s.flrPf1Job
  let s := ((s.resetFifo 0).resetFifo 1).withHost (fun h => { h with partials := [] })
  s.emptyAtc.restoreSts 5 12 0 0 false false false

def State.flrPf2 (s : State) : State :=
  let was := s.fbit HRD_HARVEST_ACTIVE
  let s := (s.abandonHarvest true).abandonDescs (fun d => d.eng == 12 || d.eng == 13)
  let s := s.clearF 2
  let s := if was then s.setSts 3 HRD_STS_HARVEST_ABANDONED else s
  s.restoreSts 6 4 0 0 false false false

/-- A fresh nonce for FIELD_CLOSE (R592): four free values. -/
def State.newNonce (s : State) : State :=
  (range' 0 4).foldl (fun s i => (s.fset (FUSE_NONCE_NONCE.ix i) s.freeVal).drawn) s

def State.flrPf3 (s : State) : State :=
  let busy := s.fbit BENCH_CMD_BUSY
  let s := s.clearF 3
  let s := if busy then s.fset BENCH_CMD_RESULT 9 else s
  (s.newNonce.withBench (fun b => { b with fuseBuf := 0 })).restoreSts 7 4 0 0 false false false

/-! ### Critical records (R544 to R546) -/

/-- The SEQ of a slot, 0 when it holds no valid record. -/
def slotSeq (r : Option CritRec) : Nat := match r with | some c => c.seq | none => 0

/-- The newest record and its medium (0 cartridge, 1 boot flash) (R546). -/
def State.newestRec (s : State) : Option (CritRec × Nat) :=
  let cart := match s.power.cart with | some c => c.slots | none => []
  let best (l : List (Option CritRec)) : Option CritRec :=
    l.foldl (fun b r => match r, b with
      | some x, some y => if y.seq < x.seq then some x else some y
      | some x, none => some x
      | none, _ => b) none
  match best cart, best s.power.flash with
  | some x, some y => if x.seq < y.seq then some (y, 1) else some (x, 0)
  | some x, none => some (x, 0)
  | none, some y => some (y, 1)
  | none, none => none

/-- Is the cartridge usable for records: present, authenticated and not released (R543, R548, R550)? -/
def State.cartUsable (s : State) : Bool :=
  s.power.cart.isSome && s.fbit HRD_STATE_PRESENT && s.fbit HRD_STATE_AUTHENTICATED && !s.fbit HRD_STATE_RELEASED

/-- Base of the descriptor array of a statistic in the bank (false even) named. -/
def descBase (t : TensorEnt) (odd : Bool) : Nat := if odd then t.odd else t.even

/-- The STALE bytes of every committed factor descriptor of the running context (R541, section 4 of R544). -/
def State.staleList (s : State) : List (Nat × Nat × Nat) :=
  match s.myImage with
  | none => []
  | some f =>
    (f.stateMap.filter (fun t => t.role == 8)).flatMap (fun d =>
      match f.stateMap.find? (fun t => t.tensor == d.tensor && 4 ≤ t.role && t.role ≤ 7) with
      | some t => (range' 0 (factorBlocks t)).map (fun b =>
          (d.tensor, b, (s.rd8 (descBase d s.ccr.parity + 64 * b + 1)).toNat))
      | none => [])

/-- A context's state code (R466). -/
def ctxCode (c : CtxState) : Nat :=
  match c with | .empty => 0 | .loaded => 1 | .running => 2 | .preempted => 3

/-- The committed control record of a context: the running job's own, or the one it keeps. -/
def State.ctxCcr (s : State) (c : Nat) : Ccr :=
  if s.job.ctx == some c then s.ccr
  else match (s.ctx c).saved with | some v => v.ccr | none => (s.ctx c).ccr

/-- The contents of the FAULTS section: every register of class W, C or F that is not at its reset value, with the
fault pages and _FIRST records among them. -/
def State.faultList (s : State) : List (Nat × Word64) :=
  s.regs.filter (fun e => match findReg e.1 with
    | some d => d.fields.any (fun f => f.surv == .w || f.surv == .f || f.surv == .c)
    | none => false)

/-- TRUNC of a record on a medium: the FAULTS section never fits whole (the tiles' W-class counters alone exceed it),
and the STALENESS section is cut when it exceeds the room (R544, R545). -/
def recTrunc (flash : Bool) (blocks : Nat) : Nat :=
  let room := if flash then 32768 - 64 - (8 + 1024) - (8 + 4352) - (8 + 128) - 8 else 524288
  32 + if room < 8 * blocks then 16 else 0

/-- Assemble a critical record of a kind with a cause (R544), to stand on a medium. -/
def State.critRec (s : State) (kind cause : Nat) (flash : Bool) : CritRec :=
  let stale := s.staleList
  let seq := match s.newestRec with | some (r, _) => r.seq + 1 | none => 1
  { kind := kind, trunc := recTrunc flash stale.length, seq := seq, cartId := s.fget HRD_ID_ID,
    serial := s.fget HULL_SERIAL_SERIAL, tick := if s.job.ctx.isSome then s.tickCount else 0, cause := cause,
    control := (range' 0 4).map (fun c => (ctxCode (s.ctx c).state,
      (match (s.ctx c).image with | some f => imgId f | none => 0),
      (match (s.ctx c).image with | some f => imgHash f | none => 0), s.ctxCcr c)),
    token := (range' 0 4).map (fun i => s.regGet (COMMIT_TOKEN.ix i).base),
    layout := s.job.layout, orch := s.regGet HULL_ORCH.base,
    hbmLanes := (s.hub.laneMap ++ s.hub.swaps.filter (fun e => e.2 != 255)).filter (fun e => s.hub.laneBad.contains e.1), hbmBad := s.hub.laneBad,
    linkLanes := ((range' 0 16).zip s.links).flatMap (fun p =>
      ((p.2.spareFor ++ p.2.swaps).filter (fun q => p.2.laneBad.contains q)).map (fun q => (p.1, q.1, q.2)) ++
        (if s.fbit (lnkFld LNK_STATE_EXHAUSTED_RX p.1) then [(p.1, 1, 3)] else [])),
    gens := match s.power.cart with
      | some c => [(c.gen0.state, c.gen0.genSeq, c.gen0.t, c.gen0.step, c.gen0.imageId),
                   (c.gen1.state, c.gen1.genSeq, c.gen1.t, c.gen1.step, c.gen1.imageId)]
      | none => [],
    stale := if flash then stale.take ((32768 - 64 - 1032 - 4360 - 136 - 8) / 8) else stale.take 65536,
    faults := if flash then [] else s.faultList }

/-- Replace slot `i` of a medium. -/
def slotPut (l : List (Option CritRec)) (i : Nat) (r : Option CritRec) : List (Option CritRec) := modAt (fun _ => r) i l

/-- Report a record in PWR_CRIT (R546, R563). -/
def State.reportRec (s : State) (r : CritRec) (medium : Nat) : State :=
  s.fsetAll [(PWR_CRIT_SEQ, r.seq), (PWR_CRIT_KIND, r.kind), (PWR_CRIT_MEDIUM, medium),
    (PWR_CRIT_TRUNCATED, if r.trunc == 0 then 0 else 1), (PWR_CRIT_CAUSE, r.cause), (PWR_CRIT_VALID, 1)]

/-- Write a record to the boot flash: slot SEQ mod 2, the other slot erased afterwards (R545). -/
def State.recToFlash (s : State) (kind cause : Nat) : State :=
  let r := s.critRec kind cause true
  let s := s.withPower (fun p => { p with flash := slotPut [none, none] (r.seq % 2) (some r) })
  (s.setSts 3 HRD_STS_SAVE_FALLBACK).reportRec r 1

/-- Write a record to the cartridge: slot SEQ mod 8 (R545). -/
def State.recToCart (s : State) (kind cause : Nat) : State :=
  let r := s.critRec kind cause false
  (s.withPower (fun p => { p with cart := p.cart.map (fun c =>
    { c with slots := slotPut (if c.slots.length == 8 then c.slots else List.replicate 8 none) (r.seq % 8) (some r),
             written := c.written + 1048576 }) })).reportRec r 0

/-- Write a record to the medium R543 and R545 choose; false when both media fail. -/
def State.writeRec (s : State) (kind cause : Nat) (cartFails flashFails : Bool) : State × Bool :=
  if s.cartUsable && !cartFails then (s.recToCart kind cause, true)
  else if !flashFails then (s.recToFlash kind cause, true) else (s, false)

/-- A routine record (kinds 2 to 4): RECORD_DONE, or RECORD_FAILED and class C (R546). -/
def State.routineRec (s : State) (kind : Nat) (cartFails flashFails : Bool) : State :=
  let r := s.writeRec kind 0 cartFails flashFails
  if r.2 then ((r.1.fadd PWR_CNT_RECORDS 1).setSts 2 PWR_STS_RECORD_DONE)
  else ((r.1.fadd PWR_CNT_RECORD_FAILURES 1).classC 2 PWR_STS_RECORD_FAILED)

/-! ### Class E (R497, R498, R541, R543) -/

/-- Everything stops, and nothing that is under way comes about any more: run, solver jobs, flights, scheduled writes and frames. -/
def State.stopAll (s : State) : State :=
  { s with run := {}, solver := {}, tiles := s.tiles.dropFlights s.now, hub := { s.hub with writes := [] },
           links := s.links.map (fun (k : LinkSt) => { k with waiting := [], landing := [] }) }

/-- The class E stop with a cause and, for cause 3, a window: HULL_TERMINAL, the FAULT event, the critical save of
kind `kind`, and then nothing runs until the power is cycled. HBM is off and its contents are lost (R541, R561). -/
def State.terminal (s : State) (cause window kind : Nat) (cartFails flashFails saved : Bool) : State :=
  if s.runs then
    let s := s.fsetAll [(HULL_TERMINAL_CAUSE, cause), (HULL_TERMINAL_WINDOW, if cause == 3 then window else 0),
      (HULL_TERMINAL_CYCLE, if s.job.ctx.isSome then s.cyc else 0), (HULL_TERMINAL_VALID, 1)]
    let s := s.reloadOver.faultEvent 4 0 0xB28 0
    let s := s.capFault 4
    let s := s.abandonHarvest false
    let r := if saved then s.writeRec kind cause cartFails flashFails else (s, false)
    let seq := if r.2 then r.1.newestRec.map (fun x => x.1.seq) else none
    let s := r.1.stopAll.zero 0 0x10000000000
    s.withPower (fun p => { p with halt := .stopped cause, alert := true, trans := none, stopAt := s.now, stopSeq := seq })
  else s

/-- Give the record of a SEQ another cause. -/
def recCause (seq cause : Nat) (l : List (Option CritRec)) : List (Option CritRec) :=
  l.map (fun r => r.map (fun c => if c.seq == seq then { c with cause := cause } else c))

/-- Another condition of R497 falls on the cycle of a class E stop: the lowest code stands (R622). -/
def State.terminalTie (s : State) (at_ cause window : Nat) : State :=
  match s.power.halt with
  | .stopped c =>
    if c ≤ cause || at_ != s.power.stopAt then s
    else
      let s := s.fsetAll [(HULL_TERMINAL_CAUSE, cause), (HULL_TERMINAL_WINDOW, if cause == 3 then window else 0)]
      let s := s.withPower (fun p => { p with halt := .stopped cause })
      match s.power.stopSeq with
      | some q => (s.fset PWR_CRIT_CAUSE cause).withPower (fun p => { p with
          flash := recCause q cause p.flash, cart := p.cart.map (fun x => { x with slots := recCause q cause x.slots }) })
      | none => s
  | _ => s

/-- A condition of R497 with its code: a step of the running module, or of one that stopped on this very cycle (R622). -/
def State.liveE (s : State) (at_ cause window : Nat) (t : State → State) : State :=
  if s.runs then t s else s.terminalTie at_ cause window

/-! ### Class D (R492, R496) -/

/-- The class D action of the block of page `p`: count and event are the caller's. -/
def State.classDAction (s : State) (p fifo cause : Nat) : State :=
  if p == 3 then s.flrPf2
  else if p == 7 then (if fifo < 2 then s.flrPf1 else s.flrPf0)
  else if s.job.ctx.isSome then s.beginAbort cause
  else
    let s := s.clearRegs (fun k f => f.surv == .j &&
      (if p < 28 then k / 0x1000000 == p else k / 0x40000 == pageBase p / 0x40000))
    if p == 5 then s.emptyAtc else s

/-- A class D fault whose source is page `p` (R492): count, FAULT event of class 3, and the action. -/
def State.classD (s : State) (p off bit cause : Nat) : State :=
  let s := s.fadd (FAULT_CNT_D_TAKEN.pageOf p) 1
  let s := (s.faultEvent 3 p off bit).capFault 3
  let s := if s.job.ctx.isSome && p != 3 && p != 7 then
      s.withPower (fun q => { q with classD := q.classD ++ [(p, s.now)] }) else s
  s.classDAction p (s.attendOf p).fifo cause

end Sys2Proof.Machine
end

