-- ==== Sys2Proof/Machine/Export.lean ====
section
/-! DEFINITION. Export streams: their bytes (R289 to R293), the reading of one back as a state load (R430, R558), and
the state initialisation of a fresh job (R481). -/

namespace Sys2Proof.Machine

/-! ### Bytes and CRC-32C -/

/-- `n` bytes of a number, little-endian. -/
def leBytes : Nat → Nat → List Byte
  | 0, _ => []
  | n + 1, v => BitVec.ofNat 8 v :: leBytes n (v / 256)

/-- One bit of the reflected CRC-32C (polynomial 0x82F63B78). -/
def crcStep (c : Nat) : Nat := if c % 2 == 1 then Nat.xor (c / 2) 0x82F63B78 else c / 2

/-- One byte of the CRC. -/
def crcByte (c : Nat) (b : Byte) : Nat :=
  let x := Nat.xor c b.toNat
  crcStep (crcStep (crcStep (crcStep (crcStep (crcStep (crcStep (crcStep x)))))))

/-- CRC-32C of a list of bytes. -/
def crc32c (l : List Byte) : Nat := Nat.xor (l.foldl crcByte 0xFFFFFFFF) 0xFFFFFFFF

/-- `n` bytes of memory from `a`. -/
def State.rdBytes (s : State) (a n : Nat) : List Byte := tabGetList memDefault s.mem a n

/-! ### Where a state tensor's committed value lies -/

/-- The bank's base that a control record and lag entries select for a tensor; false even (R296). -/
def commitOdd (c : Ccr) (lag : List (Nat × Bool × LagEnt)) (t : TensorEnt) : Bool :=
  if t.lagged then
    match lag.find? (fun e => e.1 == t.parent && e.2.1 == c.parity) with
    | some e => c.parity != e.2.2.flip
    | none => c.parity
  else c.parity

/-- Is the slow-tier tensor resident (R354)? -/
def State.resident (s : State) (id : Nat) : Bool := s.slow.any (fun r => r.tensor == id && r.resident)

/-- Base address of a tensor's committed value (R296, R358). -/
def State.commitBase (s : State) (c : Ccr) (lag : List (Nat × Bool × LagEnt)) (t : TensorEnt) : Nat :=
  if t.tier != 0 && t.role != 8 && !s.resident t.tensor then t.home
  else if commitOdd c lag t then t.odd else t.even

/-- Lag entries of a context. -/
def State.ctxLag (s : State) (c : Nat) : List (Nat × Bool × LagEnt) :=
  if s.job.ctx == some c then s.job.lag
  else match (s.ctx c).saved with | some v => v.job.lag | none => (s.ctx c).lag

/-- The statistic that a role-8 entry serves. -/
def statOf (f : ImageFile) (id : Nat) : Option TensorEnt :=
  f.stateMap.find? (fun t => t.tensor == id && 4 ≤ t.role && t.role ≤ 7)

/-! ### The stream -/

/-- One exported tensor: the directory fields of R291 but OFFSET, LENGTH and DCRC, and its data. -/
structure ExpEnt where
  tensor : Nat
  role : Nat
  fmt : Nat
  block : Nat
  rows : Nat
  cols : Nat
  row0 : Nat
  row1 : Nat
  col0 : Nat
  col1 : Nat
  aux : Nat
  data : List Byte
  /-- Where the data are read, in their order: an address, the bytes read there, and the bytes of data that they give. -/
  src : List (Nat × Nat × Nat) := []
  deriving DecidableEq, Repr

/-- The identifying fields of an entry, which a state load compares (R430). -/
def ExpEnt.key (e : ExpEnt) : List Nat := [e.tensor, e.role, e.fmt, e.block, e.rows, e.cols, e.row0, e.row1, e.col0, e.col1]

/-- The factor results of a statistic: each block's descriptor with its buffer addresses written as 0, then the
elements of the selected buffer when it is VALID (R292). -/
def State.factorData (s : State) (c : Ccr) (d t : TensorEnt) : List Byte :=
  (range' 0 (factorBlocks t)).flatMap (fun b =>
    let a := descBase d c.parity + 64 * b
    let w0 := s.rdN a 8
    let n := blockDim t b
    let buf := if getBits w0 2 1 == 1 then s.rdN (a + 40) 8 else s.rdN (a + 32) 8
    s.rdBytes a 32 ++ List.replicate 16 0 ++ s.rdBytes (a + 48) 16 ++
      (if w0 % 4 == 1 then s.rdBytes buf (4 * n * n) else []))

/-- Where the data of a tensor's own entry are read (R292). -/
def State.tensorSrc (s : State) (f : ImageFile) (c : Ccr) (lag : List (Nat × Bool × LagEnt)) (t : TensorEnt) : List (Nat × Nat × Nat) :=
  let base := s.commitBase c lag t
  let one (a n : Nat) : Nat × Nat × Nat := (a, n, n)
  if t.role ≤ 1 then [one base ((t.row1 - t.row0) * (t.col1 - t.col0) * fmtBytes t.fmt)]
  else if t.role == 2 then [one base (4 * (t.row1 - t.row0))]
  else if t.role == 3 then [one base (4 * (t.col1 - t.col0))]
  else if t.role ≤ 7 then
    (range' 0 (factorBlocks t)).map (fun b => one (base + 4 * 2 ^ t.block * 2 ^ t.block * b) (4 * blockDim t b * blockDim t b))
  else match statOf f t.tensor with
    | some st => (range' 0 (factorBlocks st)).flatMap (fun b =>
      let a := descBase t c.parity + 64 * b
      let w0 := s.rdN a 8
      let n := blockDim st b
      one a 64 :: (if w0 % 4 == 1 then [one (if getBits w0 2 1 == 1 then s.rdN (a + 40) 8 else s.rdN (a + 32) 8) (4 * n * n)] else []))
    | none => []

/-- The data of a tensor's own entry (R292). -/
def State.tensorData (s : State) (f : ImageFile) (c : Ccr) (lag : List (Nat × Bool × LagEnt)) (t : TensorEnt) : List Byte :=
  let base := s.commitBase c lag t
  if t.role ≤ 1 then s.rdBytes base ((t.row1 - t.row0) * (t.col1 - t.col0) * fmtBytes t.fmt)
  else if t.role == 2 then s.rdBytes base (4 * (t.row1 - t.row0))
  else if t.role == 3 then s.rdBytes base (4 * (t.col1 - t.col0))
  else if t.role ≤ 7 then
    (range' 0 (factorBlocks t)).flatMap (fun b =>
      s.rdBytes (base + 4 * 2 ^ t.block * 2 ^ t.block * b) (4 * blockDim t b * blockDim t b))
  else match statOf f t.tensor with | some st => s.factorData c t st | none => []

/-- The entry of a state tensor (R291); a role-8 entry takes its shape from its statistic. -/
def State.tensorExp (s : State) (f : ImageFile) (c : Ccr) (lag : List (Nat × Bool × LagEnt)) (t : TensorEnt) : ExpEnt :=
  let sh := if t.role == 8 then (statOf f t.tensor).getD t else t
  { tensor := t.tensor, role := t.role, fmt := if t.role == 8 then 5 else if 2 ≤ t.role then 0 else t.fmt,
    block := if t.role ≤ 3 then 0 else 2 ^ sh.block, rows := sh.rows, cols := sh.cols,
    row0 := sh.row0, row1 := sh.row1, col0 := sh.col0, col1 := sh.col1,
    aux := if t.role == 8 then sh.role else 0, data := s.tensorData f c lag t, src := s.tensorSrc f c lag t }

/-- The parked buckets of a LAGGED weight's shard, numbered from its first column (R176), one entry each (role 9). -/
def parkedExp (c : Ccr) (lag : List (Nat × Bool × LagEnt)) (t : TensorEnt) : List ExpEnt :=
  if t.lagged && t.role == 0 then
    match lag.find? (fun e => e.1 == t.tensor && e.2.1 == c.parity) with
    | none => []
    | some e => e.2.2.parked.flatMap (fun p => p.buckets.map (fun b =>
        { tensor := t.tensor, role := 9, fmt := 0, block := 0, rows := t.rows, cols := t.cols, row0 := t.row0,
          row1 := t.row1, col0 := t.col0 + b.1 * 2 ^ t.wb, col1 := min t.col1 (t.col0 + (b.1 + 1) * 2 ^ t.wb), aux := p.step % 2 ^ 32,
          data := b.2.flatMap (fun v => leBytes 4 v) }))
  else []

/-- A WORKING entry: the hi half in PAIR mode, the element in COMPACT mode, as BF16. -/
def State.workingExp (s : State) (f : ImageFile) (c : Ccr) (lag : List (Nat × Bool × LagEnt)) (t : TensorEnt) : ExpEnt :=
  let base := s.commitBase c lag t
  let count := (t.row1 - t.row0) * (t.col1 - t.col0)
  { s.tensorExp f c lag t with
    fmt := 1,
    src := [(base, count * fmtBytes t.fmt, 2 * count)],
    data := if t.fmt == 5 then (range' 0 count).flatMap (fun i => s.rdBytes (base + 4 * i + 2) 2) else s.rdBytes base (2 * count) }

/-- Insert by tensor id and then role. -/
def expInsert (e : ExpEnt) : List ExpEnt → List ExpEnt
  | [] => [e]
  | x :: r => if e.tensor < x.tensor || (e.tensor == x.tensor && e.role < x.role) then e :: x :: r else x :: expInsert e r

/-- Every entry of an export of a kind (0 FULL, 1 WORKING) of module `m` under an image (R291). -/
def State.expEnts (s : State) (f : ImageFile) (c : Ccr) (lag : List (Nat × Bool × LagEnt)) (m kind : Nat) : List ExpEnt :=
  let f := imgSeenBy f m
  let own := f.stateMap.filter (fun t => owns t m)
  let l := if kind == 0 then own.map (s.tensorExp f c lag) ++ own.flatMap (parkedExp c lag)
    else (own.filter (fun t => t.role == 0)).map (s.workingExp f c lag)
  l.foldl (fun acc e => expInsert e acc) []

/-- Round up to a multiple of 64. -/
def up64 (n : Nat) : Nat := (n + 63) / 64 * 64

/-- The 80 B directory entries and the padded data regions, from a data offset on. -/
def expLay : List ExpEnt → Nat → List Byte × List Byte
  | [], _ => ([], [])
  | e :: r, off =>
    let len := e.data.length
    let d := leBytes 4 (e.tensor + e.role * 2 ^ 20 + e.fmt * 2 ^ 24) ++ leBytes 4 e.block ++ leBytes 8 e.rows ++
      leBytes 8 e.cols ++ leBytes 8 e.row0 ++ leBytes 8 e.row1 ++ leBytes 8 e.col0 ++ leBytes 8 e.col1 ++
      leBytes 8 off ++ leBytes 8 len ++ leBytes 4 (crc32c e.data) ++ leBytes 4 e.aux
    let rest := expLay r (up64 (off + len))
    (d ++ rest.1, e.data ++ List.replicate (up64 (off + len) - (off + len)) 0 ++ rest.2)

/-- Where the data regions of an export are read: the stream offset, the address, the bytes read and the bytes of data. -/
def expReads : List ExpEnt → Nat → List (Nat × Nat × Nat × Nat)
  | [], _ => []
  | e :: r, off =>
    (e.src.foldl (fun (acc : List (Nat × Nat × Nat × Nat) × Nat) x => (acc.1 ++ [(acc.2, x)], acc.2 + x.2.2)) ([], off)).1 ++
      expReads r (up64 (off + e.data.length))

/-- The memory that bytes `lo` to `hi` of an export's stream are read from, by address and length. -/
def State.expSources (s : State) (f : ImageFile) (c : Ccr) (lag : List (Nat × Bool × LagEnt)) (kind lo hi : Nat) : List (Nat × Nat) :=
  let ents := s.expEnts f c lag (s.fget HULL_ORCH_MODULE) kind
  (expReads ents (up64 (128 + 80 * ents.length))).flatMap (fun x =>
    let n := x.2.2.2
    let a := max lo x.1 - x.1
    let z := min hi (x.1 + n) - x.1
    if a < z then [(x.2.1 + a * x.2.2.1 / n, (z - a) * x.2.2.1 / n)] else [])

/-- The stream of an export (R290 to R292): header, directory at offset 128, data regions. DESIGN CHOICE (R80 leaves what a
failed check of the pair invariant does to the chapter on faults, which says nothing of it): a pair that breaks the invariant
is exported as stored, and has no other effect. -/
def State.expStream (s : State) (f : ImageFile) (c : Ccr) (lag : List (Nat × Bool × LagEnt)) (kind tick seed : Nat) : List Byte :=
  let m := s.fget HULL_ORCH_MODULE
  let ents := s.expEnts f c lag m kind
  let dataOff := up64 (128 + 80 * ents.length)
  let lay := expLay ents dataOff
  let h := leBytes 4 0x58454C4E ++ leBytes 2 1 ++ leBytes 1 kind ++ leBytes 1 c.parity.toNat ++ leBytes 8 (imgId f) ++
    leBytes 32 (imgHash f) ++ leBytes 8 c.t ++ leBytes 8 (c.lastStep.getD Config.noStepYet) ++ leBytes 8 tick ++ leBytes 4 m ++
    leBytes 4 (s.fget HULL_ORCH_SIZE) ++ leBytes 2 (s.fget HULL_ID_STEPPING) ++ leBytes 2 0 ++ leBytes 4 ents.length ++
    leBytes 8 128 ++ leBytes 8 dataOff ++ leBytes 8 (dataOff + lay.2.length) ++ leBytes 8 seed ++ leBytes 4 0
  h ++ leBytes 4 (crc32c h) ++ lay.1 ++ List.replicate (dataOff - (128 + 80 * ents.length)) 0 ++ lay.2

/-- TOTAL of an export. -/
def State.expTotal (s : State) (f : ImageFile) (c : Ccr) (lag : List (Nat × Bool × LagEnt)) (kind : Nat) : Nat :=
  (s.expStream f c lag kind 0 0).length

/-! ### A state load (R430, R558) -/

/-- A number in a byte stream. -/
def streamN (l : List Byte) (off n : Nat) : Nat :=
  (l.drop off).take n |>.foldr (fun b acc => b.toNat + 256 * acc) 0

/-- Read a directory entry with its data and whether its DCRC checks. -/
def loadEnt (l : List Byte) (off : Nat) : ExpEnt × Bool :=
  let w := streamN l off 4
  let dOff := streamN l (off + 56) 8
  let len := streamN l (off + 64) 8
  let data := (l.drop dOff).take len
  ({ tensor := getBits w 0 20, role := getBits w 20 4, fmt := getBits w 24 4, block := streamN l (off + 4) 4,
     rows := streamN l (off + 8) 8, cols := streamN l (off + 16) 8, row0 := streamN l (off + 24) 8,
     row1 := streamN l (off + 32) 8, col0 := streamN l (off + 40) 8, col1 := streamN l (off + 48) 8,
     aux := streamN l (off + 76) 4, data := data },
   data.length == len && crc32c data == streamN l (off + 72) 4)

/-- The entries of a stream that is a valid FULL export of this module under the image, else none (R430). -/
def State.loadEnts (s : State) (f : ImageFile) (l : List Byte) : Option (List ExpEnt) :=
  let n := streamN l 84 4
  let dir := streamN l 88 8
  let es := (range' 0 n).map (fun i => loadEnt l (dir + 80 * i))
  let want := (s.expEnts f {} [] (s.fget HULL_ORCH_MODULE) 0).map ExpEnt.key
  let got := (es.filter (fun e => e.1.role != 9)).map (fun e => e.1.key)
  if streamN l 0 4 == 0x58454C4E && crc32c (l.take 124) == streamN l 124 4 && es.all (fun e => e.2) &&
      streamN l 6 1 == 0 && streamN l 8 8 == imgId f && streamN l 16 32 == imgHash f &&
      streamN l 72 4 == s.fget HULL_ORCH_MODULE && streamN l 76 4 == s.fget HULL_ORCH_SIZE && got == want &&
      es.all (fun e => e.1.role != 9 || (imgWeight (imgSeenBy f (s.fget HULL_ORCH_MODULE)) e.1.tensor).any (fun t =>
        t.lagged && owns t (s.fget HULL_ORCH_MODULE)))
  then some (es.map (fun e => e.1)) else none

/-- Address of result buffer `k` of block `b` (the state map's HOME and AUX for role 8). -/
def bufAddr (d : TensorEnt) (st : TensorEnt) (k b : Nat) : Nat :=
  (if k == 0 then d.home else d.aux) + 4 * 2 ^ st.block * 2 ^ st.block * b

/-- Write the descriptors and results of a loaded role-8 entry into the even bank. -/
def State.loadFactors (s : State) (d st : TensorEnt) : Nat → Nat → List Byte → State
  | 0, _, _ => s
  | k + 1, b, l =>
    let w0 := streamN l 0 8
    let n := blockDim st b
    let a := d.even + 64 * b
    let s := s.wrBytes a (l.take 32)
    let s := ((s.wrN (a + 32) 8 (bufAddr d st 0 b)).wrN (a + 40) 8 (bufAddr d st 1 b)).wrN (a + 48) 16 0
    if w0 % 4 == 1 then
      let res := (l.drop 64).take (4 * n * n)
      (s.wrBytes (bufAddr d st (getBits w0 2 1) b) res).loadFactors d st k (b + 1) (l.drop (64 + 4 * n * n))
    else s.loadFactors d st k (b + 1) (l.drop 64)

/-- Write one loaded entry into the even bank, a slow-tier tensor into its home (R481). -/
def State.loadOne (s : State) (f : ImageFile) (e : ExpEnt) : State :=
  if e.role == 9 then
    match imgWeight f e.tensor with
    | none => s
    | some t =>
      let lag := s.lagEnt t.tensor false
      let b := ((e.col0 - t.col0) / 2 ^ t.wb, (range' 0 (e.data.length / 4)).map (fun i => streamN e.data (4 * i) 4))
      match lag.parked.reverse with
      | p :: r =>
        if p.step % 2 ^ 32 == e.aux then
          s.setLag t.tensor false { lag with parked := ({ p with buckets := p.buckets ++ [b] } :: r).reverse }
        else (s.setLag t.tensor false { lag with parked := lag.parked ++ [⟨s.freeVal, e.aux, s.freeVal % 2 ^ 32, [b]⟩] }).drawn
      | [] => (s.setLag t.tensor false { lag with parked := [⟨s.freeVal, e.aux, s.freeVal % 2 ^ 32, [b]⟩] }).drawn
  else
    match imgTensor f e.tensor e.role with
    | none => s
    | some t =>
      if t.role == 8 then
        match statOf f t.tensor with | some st => s.loadFactors t st (factorBlocks st) 0 e.data | none => s
      else if 4 ≤ t.role then
        ((range' 0 (factorBlocks t)).foldl (fun (acc : State × List Byte) b =>
          let len := 4 * blockDim t b * blockDim t b
          (acc.1.wrBytes (t.even + 4 * 2 ^ t.block * 2 ^ t.block * b) (acc.2.take len), acc.2.drop len)) (s, e.data)).1
      else s.wrBytes (if t.tier == 0 then t.even else t.home) e.data

/-! ### State initialisation (R481) -/

/-- Every element of the even bank at +0, every factor descriptor EMPTY with its buffer addresses. -/
def State.initTensor (s : State) (f : ImageFile) (t : TensorEnt) : State :=
  if t.role == 8 then
    match statOf f t.tensor with
    | none => s
    | some st => (range' 0 (factorBlocks st)).foldl (fun s b =>
        ((s.wrN (t.even + 64 * b) 32 0).wrN (t.even + 64 * b + 32) 8 (bufAddr t st 0 b)).wrN
          (t.even + 64 * b + 40) 24 (bufAddr t st 1 b)) s
  else
    let a := if t.tier == 0 then t.even else t.home
    s.zero a (a + bankBytes t)

/-- Copy every DATA record to its destination. -/
def State.copyData (s : State) (f : ImageFile) : State := f.data.foldl (fun s d => s.wrBytes d.dest d.bytes) s

/-- State initialisation without a state load. -/
def State.initState (s : State) (f : ImageFile) : State :=
  let m := s.fget HULL_ORCH_MODULE
  let f := imgSeenBy f m
  let s := (f.stateMap.filter (fun t => owns t m)).foldl (fun s t => s.initTensor f t) s
  (s.withJob (fun j => { j with lag := [] })).copyData f

end Sys2Proof.Machine
end

