-- ==== Sys2Proof/Machine/Commit.lean ====
section
/-! DEFINITION. The commit protocol of one module (R295 to R313, R392 to R394): the loss test, the health word and its
combination, the commit token, the master's decision, and what an edge that applies a token changes. -/

namespace Sys2Proof.Machine

/-! ### The loss (R298 to R300) -/

/-- loss_test: 0 ok, 1 spike, 2 nonfinite (R299). -/
def lossTest (f : ImageFile) (c : Ccr) (l : Nat) : Nat :=
  if (f32 l).nonfinite then 2
  else if c.count < limLossW f then 0
  else
    let thr := (fpAdd c.mean (fpMul (limLossK f) (fpSqrt c.var).bits).bits).bits
    if (f32 thr).lt (f32 l) then 1 else 0

/-- loss_commit (R299). -/
def lossCommit (f : ImageFile) (c : Ccr) (l : Nat) : Ccr :=
  let a := limLossAlpha f
  let d := (fpSub l c.mean).bits
  { c with
    mean := (fpAdd c.mean (fpMul a d).bits).bits,
    var := (fpMul (fpSub 0x3F800000 a).bits (fpAdd c.var (fpMul a (fpMul d d).bits).bits).bits).bits,
    count := min (c.count + 1) (2 ^ 32 - 1) }

/-! ### The commit token (R304) -/

def tokStep (k : BitVec 256) : Nat := bvBits k 0 64
def tokT (k : BitVec 256) : Nat := bvBits k 64 64
def tokTick (k : BitVec 256) : Nat := bvBits k 128 64
/-- 0 COMMIT, 1 SKIP, 2 REPLAY, 3 NONE. -/
def tokDecision (k : BitVec 256) : Nat := bvBits k 192 2
def tokPlan (k : BitVec 256) : Nat := bvBits k 194 4
def tokHold (k : BitVec 256) : Bool := bvBits k 198 1 == 1
def tokAdopt (k : BitVec 256) : Bool := bvBits k 199 1 == 1
def tokCause (k : BitVec 256) : Nat := bvBits k 200 8
def tokReplays (k : BitVec 256) : Nat := bvBits k 208 8

/-- The token of its fields. -/
def mkToken (step t tick decision plan : Nat) (hold adopt : Bool) (cause replays : Nat) : BitVec 256 :=
  BitVec.ofNat 256 (step % 2 ^ 64 + t % 2 ^ 64 * 2 ^ 64 + tick % 2 ^ 64 * 2 ^ 128 + decision % 4 * 2 ^ 192
    + plan % 16 * 2 ^ 194 + hold.toNat * 2 ^ 198 + adopt.toNat * 2 ^ 199 + cause % 256 * 2 ^ 200
    + min replays 255 * 2 ^ 208)

/-! ### The health word and record (R301, R393) -/

/-- Does the current tick carry a step by its plan? -/
def State.stepTick (s : State) : Bool := s.run.active && s.fget TICK_PLAN_CUR_KIND == 0

/-- The fallow request: forced harvest, harvest in progress, or an export of the running context (R53, R289, R553). -/
def State.fallowWanted (s : State) : Bool :=
  s.run.fallowReq || s.fbit HRD_HARVEST_ACTIVE || s.host.exp.any (fun e => some e.ctx == s.job.ctx)

/-- The flag bits of the health word. -/
def State.healthFlags (s : State) : Nat :=
  let r := s.run
  (r.faultB || r.checksum || r.lagOverrun).toNat + 2 * r.faultC.toNat + 4 * r.nonfinite.toNat + 8 * r.emptyStep.toNat
    + 16 * r.noStep.toNat + 32 * r.spike.toNat + 64 * r.lossNonfinite.toNat + 128 * r.serviceReq.toNat
    + 256 * s.fallowWanted.toNat + 512 * r.checksum.toNat + 1024 * r.lagOverrun.toNat

/-- The local token count that the health word carries: 0 in a tick that runs no step. -/
def State.healthTokens (s : State) : Nat := if s.run.stepRuns then s.job.localTokens else 0

/-- The five registers of the health word (R301, R321). -/
def State.healthWord (s : State) : List Nat :=
  [s.ccr.step % 2 ^ 64, s.ccr.t % 2 ^ 64, s.fget HULL_ORCH_MODULE + s.healthTokens % 2 ^ 32 * 2 ^ 32,
   s.run.loss.getD 0 + s.run.updates % 2 ^ 32 * 2 ^ 32, s.healthFlags]

/-- Add this module's own word to the record being combined. -/
def State.ownHealth (s : State) : HealthRec :=
  let h := s.job.health
  { h with
    step := s.ccr.step, tShadow := s.ccr.t, loss := s.run.loss.getD 0,
    updates := min (h.updates + s.run.updates) (2 ^ 32 - 1), tokens := h.tokens + s.healthTokens,
    flags := Nat.lor h.flags s.healthFlags, modules := h.modules + 1 }

/-- Combine a child's record (R393): `size` is the size of the child's subtree, none of a lost record sets MISSING. -/
def State.childHealth (s : State) (size : Nat) (r : Option HealthRec) : HealthRec :=
  let h := s.job.health
  match r with
  | none => { h with missing := true }
  | some r =>
    { h with
      updates := min (h.updates + r.updates) (2 ^ 32 - 1), tokens := h.tokens + r.tokens,
      flags := Nat.lor h.flags r.flags, modules := h.modules + r.modules,
      mismatch := h.mismatch || r.mismatch || r.step != s.ccr.step || r.tShadow != s.ccr.t
        || r.loss != s.run.loss.getD 0,
      missing := h.missing || r.missing || r.modules != size }

/-! ### The decision (R305 to R308) -/

/-- What R303 gives the master: fault_b, nonfinite, … by flag bit, with MISMATCH and MISSING. -/
def State.combinedMismatch (s : State) : Bool :=
  s.job.health.mismatch ||
    (s.run.stepRuns && s.fbit HULL_TOKEN_SUM_VALID && s.job.health.tokens != s.fget HULL_TOKEN_SUM_SUM)

/-- MISSING, the master's own word included. -/
def State.combinedMissing (s : State) : Bool :=
  s.job.health.missing || s.job.health.modules != s.fget HULL_ORCH_SIZE

/-- A flag bit of the combined health. -/
def State.combinedFlag (s : State) (b : Nat) : Bool := getBits s.job.health.flags b 1 == 1

/-- Is the loss bad under the policy (R305)? -/
def State.lossBad (s : State) (f : ImageFile) : Bool :=
  s.combinedFlag 6 || (s.combinedFlag 5 && limPolicy f != 0)

/-- The token of the tick before the running one, where this module knows it and has not applied it (R65, R66). -/
def State.missedToken (s : State) : Option (BitVec 256) :=
  if s.job.tokensMissed == 0 then none
  else match s.job.lastToken with
    | some k => if tokTick k + 1 == s.tickCount then some k else none
    | none => none

/-- The kind of a plan of the running image. -/
def State.kindOf (s : State) (plan : Nat) : Nat :=
  match s.image.bind (fun f => imgPlan f plan) with | some p => planKind p | none => 0

/-- Is a step of the orchard to be decided? The tick carries one by its plan; of a tick that this module opened without its
token, by the plan that the token named, or, when there was none, unless HOLD is in force (R66, R305, R312). -/
def State.stepDue (s : State) : Bool :=
  s.run.active && (if s.run.noStep then
    (match s.missedToken with
      | some k => s.kindOf (tokPlan k) == 0
      | none => !s.ccr.hold)
    else s.stepTick)

/-- The decision code for the closing tick (R305). -/
def State.decision (s : State) (f : ImageFile) : Nat :=
  if !s.stepDue then 3
  else if s.combinedMissing || s.combinedFlag 0 || s.combinedFlag 4 || s.combinedMismatch then 2
  else if s.combinedFlag 2 || s.combinedFlag 3 || s.lossBad f then 1
  else 0

/-- HOLD after the edge (R305). -/
def State.holdAfter (s : State) (f : ImageFile) : Bool :=
  if !s.stepDue then s.ccr.hold && !s.job.releasePending
  else s.ccr.hold || (s.decision f != 2 && s.lossBad f && limPolicy f == 2)

/-- CAUSE: the inputs that drove the decision (R304). -/
def State.causeBits (s : State) (f : ImageFile) : Nat :=
  if !s.stepDue then (if s.ccr.hold && s.job.releasePending then 128 else 0)
  else if s.decision f == 2 then
    (s.combinedFlag 0 || s.combinedMissing).toNat + 2 * (s.combinedFlag 4).toNat + 4 * s.combinedMismatch.toNat
  else if s.decision f == 1 then
    8 * (s.combinedFlag 2).toNat + 16 * (s.combinedFlag 3).toNat
      + 32 * (s.combinedFlag 5 && limPolicy f != 0).toNat + 64 * (s.combinedFlag 6).toNat
  else 0

/-- The plan `n` SUCCESSORs after a plan. -/
def succPlan (f : ImageFile) (p : Nat) : Nat → Nat
  | 0 => p
  | n + 1 => succPlan f (match imgPlan f p with | some q => planSuccessor q | none => 0) n

/-- The plan of a step (R307, R628): that of its first run, SUCCESSOR after SUCCESSOR from the last step that ran, or from
the lowest-numbered STEP plan for the job's first step `next`. -/
def planOfStep (f : ImageFile) (last : Option (Nat × Nat)) (next step : Nat) : Nat :=
  match last with
  | some (q, p) => succPlan f p (step - q)
  | none => succPlan f ((imgLowest f 0).getD 0) (step - next)

/-- The last step that ran with its plan, the running tick's step included. -/
def State.stepRun (s : State) : Option (Nat × Nat) :=
  if s.run.stepRuns then some (s.ccr.step, s.fget TICK_PLAN_CUR) else s.job.lastPlan


/-- The master's statuses of its decision: missing words, a mismatch, the replay limit (R303, R308). -/
def State.decisionSts (s : State) (f : ImageFile) (k : BitVec 256) : State :=
  let s := if s.combinedMissing then s.setSts 0 COMMIT_STS_HEALTH_MISSING else s
  let s := if s.combinedMismatch then s.setSts 0 COMMIT_STS_MISMATCH else s
  if tokDecision k == 2 && decide (limReplay f ≤ tokReplays k) then s.classCWith 0 COMMIT_STS_REPLAY_LIMIT 1 0 else s

/-! ### What an edge that applies a token changes (R309 to R311) -/

/-- The committed control record after a token; `loss` is ℓ of the step decided. -/
def ccrApply (f : ImageFile) (c : Ccr) (k : BitVec 256) (loss : Option Nat) : Ccr :=
  let d := tokDecision k
  let c1 : Ccr := match d, loss with
    | 0, some l => lossCommit f c l
    | _, _ => c
  { c1 with
    parity := if d == 0 then !c.parity else c.parity,
    t := tokT k,
    step := if d ≤ 1 then c.step + 1 else c.step,
    hold := tokHold k,
    replays := if d == 2 then tokReplays k else if d == 3 then c.replays else 0,
    lastStep := if d == 0 then some c.step else c.lastStep }

/-- The committed control record as the orchard's other modules hold it: with the token of the tick before, where this module
knows it and has not applied it. -/
def State.ccrDue (s : State) (f : ImageFile) : Ccr :=
  match s.missedToken with | some k => ccrApply f s.ccr k s.job.lastLoss | none => s.ccr

/-- NEXT_PLAN (R307). -/
def State.nextPlan (s : State) (f : ImageFile) : Nat :=
  let c := s.ccrDue f
  if s.holdAfter f then imgFallowPlan f
  else if s.combinedFlag 8 then imgFallowPlan f
  else if s.combinedFlag 7 then imgServicePlan f
  else planOfStep f s.stepRun c.step (c.step + if s.decision f ≤ 1 then 1 else 0)

/-- The master's token for the closing tick (R304 to R307). -/
def State.masterToken (s : State) (f : ImageFile) : BitVec 256 :=
  let d := s.decision f
  let c := s.ccrDue f
  mkToken c.step (c.t + if d == 0 then 1 else 0) s.tickCount d (s.nextPlan f) (s.holdAfter f)
    (s.job.health.mismatch && s.job.tDiff) (s.causeBits f)
    (if d == 2 then c.replays + 1 else if d == 3 then c.replays else 0)

/-- Does the plan that a token names answer a service request (R29)? Where the image has no SERVICE plan the token names a FALLOW
plan for it; the master knows what it answers, and any other module knows it when HOLD or a fallow request of its own subtree
accounts for the plan. -/
def State.serviceNamed (s : State) (f : ImageFile) (k : BitVec 256) : Option Bool :=
  if (imgLowest f 2).isSome || s.kindOf (tokPlan k) != 1 || tokHold k || s.combinedFlag 8 then some false
  else if s.fbit HULL_ORCH_MASTER then some (s.combinedFlag 7) else none

/-- Hold a token for the closing edge and show the plan it names (R394, R67). -/
def State.holdToken (s : State) (f : ImageFile) (k : BitVec 256) (copy : Option (BitVec 256)) : State :=
  let call := s.serviceNamed f k
  let s := s.withJob (fun j => { j with token := some (k, copy), lastToken := some k, serviceCall := call })
  s.fsetAll [(TICK_PLAN_NEXT, tokPlan k), (TICK_PLAN_NEXT_KIND, s.kindOf (tokPlan k)), (TICK_PLAN_NEXT_VALID, 1)]

/-- Does the module adopt the token's T (R311)? -/
def adopts (c : Ccr) (k : BitVec 256) : Bool := tokT k != c.t + (if tokDecision k == 0 then 1 else 0)

/-- Parked sets of a tensor's lag entry in the bank that a control record commits. -/
def State.parkedOf (s : State) (c : Ccr) (t : Nat) : Nat := (s.lagEnt t c.parity).parked.length

/-- The LAGGED weights that this module owns. -/
def State.laggedWeights (s : State) (f : ImageFile) : List Nat :=
  ((f.stateMap.filter (fun t => t.role == 0 && t.lagged && owns t (s.fget HULL_ORCH_MODULE))).map (fun t => t.tensor))

/-- What COMMIT_LAG shows of the committed bank (R321). -/
def State.lagShow (s : State) (f : ImageFile) : State :=
  let now := (s.laggedWeights f).map (fun t => s.parkedOf s.ccr t)
  s.fsetAll [(COMMIT_LAG_PARKED_TENSORS, (now.filter (fun n => n != 0)).length), (COMMIT_LAG_MAX_PARKED, now.foldl max 0)]

/-- COMMIT_LAG after an edge (R319, R321): `before` is the control record that the edge replaced. -/
def State.lagCounts (s : State) (f : ImageFile) (before : Ccr) (committed : Bool) : State :=
  let ts := s.laggedWeights f
  let now := ts.map (fun t => s.parkedOf s.ccr t)
  let s := s.lagShow f
  if committed then
    let applied := ts.foldl (fun a t =>
      let b := s.parkedOf before t
      if s.parkedOf s.ccr t == 0 then a + b else a) 0
    (s.fadd COMMIT_LAG_STALE_STEPS (now.filter (fun n => n != 0)).length).fadd COMMIT_LAG_APPLIES applied
  else s

/-- A write-back of a tensor that flips starts again from its first byte. -/
def restarted (flips : Nat → Bool) (d : Desc) : Desc :=
  match d.kind with
  | .writeBack id => bif flips id then { d with offset := 0 } else d
  | _ => d

/-- A COMMIT flips the committed bank of every resident slow-tier tensor but the parked ones: it is dirty, and a
write-back of it is abandoned and starts again, from its first byte (R356, R357). -/
def State.slowCommit (s : State) (f : ImageFile) : State :=
  let flips (id : Nat) : Bool :=
    match f.stateMap.find? (fun t => t.tensor == id && t.role != 8) with
    | some t => !(t.lagged && s.job.parking.contains t.parent)
    | none => true
  let gone := (s.slow.filter (fun r => r.resident && r.writing && flips r.tensor)).length
  let upd (r : Resid) : Resid := if r.resident && flips r.tensor then { r with dirty := true } else r
  let s := { s with slow := s.slow.map upd }
  let s := s.withHost (fun h => { h with descs := h.descs.map (restarted flips) })
  if gone == 0 then s else (s.fadd HULL_SLOW_CNT_ABANDONED gone).setSts 0 HULL_SLOW_STS_WB_ABANDONED

/-- The ingest verdicts of a step are released at the edge that ends it (R201, R309). -/
def State.releaseStep (s : State) (step : Nat) : State :=
  s.withJob (fun j => { j with
    verdicts := j.verdicts.filter (fun v => v.1 != step), refused := j.refused.filter (fun v => v.1 != step) })

/-- The mirrored records follow every change on the same edge (R295). -/
def State.mirror (s : State) : State := { s with mirror0 := s.ccr, mirror1 := s.ccr }

/-- One token takes effect (R309, R311), with the registers and events that report it. -/
def State.applyToken (s : State) (f : ImageFile) (k : BitVec 256) (loss : Option Nat) : State :=
  let old := s.ccr
  let d := tokDecision k
  let new := ccrApply f old k loss
  let s := { s with ccr := new }
  let s := s.mirror
  let s := if d == 0 then s.fadd COMMIT_CNT0_COMMITS 1
    else if d == 1 then (s.fadd COMMIT_CNT0_SKIPS 1).setSts 0 COMMIT_STS_SKIP
    else if d == 2 then (s.fadd COMMIT_CNT1_REPLAYS 1).setSts 0 COMMIT_STS_REPLAY else s
  let s := if !old.hold && new.hold then
      ((s.fadd COMMIT_CNT1_HOLDS 1).fset COMMIT_HOLD_SINCE (s.tickCount + 1)).setSts 0 COMMIT_STS_HOLD_ENTERED else s
  let s := if adopts old k then (s.fadd COMMIT_CNT1_T_ADOPTIONS 1).classBSts 0 COMMIT_STS_T_ADOPTED else s
  let s := if d == 0 then s.slowCommit f else s
  let s := s.lagCounts f old (d == 0)
  let s := if d ≤ 1 then s.releaseStep old.step else s
  let s := (range' 0 4).foldl (fun s i => s.fset (COMMIT_TOKEN_DATA.ix i) (bvBits k (64 * i) 64)) s
  let s := s.withJob (fun j =>
    { j with
      lastToken := some k,
      replayPending := if d == 2 then true else if d ≤ 1 then false else j.replayPending,
      releasePending := if d == 3 && tokCause k ≥ 128 then false else j.releasePending })
  let s := s.fset COMMIT_HOLD_RELEASE_PENDING s.job.releasePending.toNat
  if s.fbit EVQ_EVMASK_TICK then
    s.event 10 s.evCtx [d * 2 ^ 48 + tokPlan k * 2 ^ 50 + (tokHold k).toNat * 2 ^ 54 + tokT k * 2 ^ 64]
  else s

/-! ### Loss, health word and release -/

/-- The loss sum Λ is due (R298, R299): ℓ = round(Λ · ν) is formed and tested. -/
def State.lossFence (s : State) (sum : Word32) : State :=
  match s.image, s.nu with
  | some f, some nu =>
    if s.run.stepRuns then
      let l := (fpMul sum.toNat nu).bits
      let v := lossTest f s.ccr l
      let s := s.withRun (fun r => { r with loss := some l, spike := v == 1, lossNonfinite := v == 2 })
      let s := s.fset COMMIT_LOSS0_LAST l
      let s := s.withJob (fun j => { j with lastLoss := some l })
      let s := if v == 2 then s.setNonfinite 0 else s
      if v == 0 then s else s.setSts 0 COMMIT_STS_SPIKE
    else s
  | _, _ => s

/-- The health word is taken (R301, R392). -/
def State.healthSend (s : State) : State :=
  let w := s.healthWord
  let s := (range' 0 5).foldl (fun s i => s.fset (COMMIT_HEALTH_DATA.ix i) (w.getD i 0)) s
  let h := s.ownHealth
  let s := s.withJob (fun j => { j with health := h })
  s.withRun (fun r => { r with healthSent := true })

/-- The release request of R313. -/
def State.holdRelease (s : State) : State :=
  if !s.fbit HULL_ORCH_MASTER then s.setSts 0 COMMIT_STS_NOT_MASTER
  else if s.ccr.hold && s.job.ctx.isSome then
    (s.withJob (fun j => { j with releasePending := true })).fset COMMIT_HOLD_RELEASE_PENDING 1
  else s

end Sys2Proof.Machine
end

