-- ==== Sys2Proof/Machine/Delivery.lean ====
section
/-! DEFINITION. What comes of a received frame: gathered copies and their checksums (R320, R403 to R406), delivery on its cycle
(R372), overrun and loss (R374, R380), and what the module itself sends on the tree (R392, R396). -/

namespace Sys2Proof.Machine

/-- The first link event of a die (R414). -/
def State.lnkFirst (s : State) (l cause slot kind : Nat) : State :=
  let k := l / 4
  s.record (LNK_ERR_FIRST_VALID.die k)
    [(LNK_ERR_FIRST_LINK.die k, l % 4), (LNK_ERR_FIRST_CAUSE.die k, cause), (LNK_ERR_FIRST_SLOT.die k, slot),
     (LNK_ERR_FIRST_KIND.die k, kind), (LNK_ERR_FIRST_TICK.die k, s.tickCount)]

/-! ### Gathered copies (R320, R403 to R406) -/

/-- The base address from which an owner sends the hi halves of a gathered tensor: LEAD the committed bank; TRAIL the bank that
the step writes, and in a tick without a step, as R406 has it, the committed bank. -/
def State.gatherBase (s : State) (t : TensorEnt) : Nat :=
  if t.gather == 2 && s.run.stepRuns then s.writeBase t else s.commitBase s.ccr s.job.lag t

/-- The hi halves of `n` elements of a shard from element `first` on, as many as it has: 2 B each, in the shard's order. -/
def State.hiHalves (s : State) (t : TensorEnt) (first n : Nat) : List Byte :=
  let count := (t.row1 - t.row0) * (t.col1 - t.col0)
  (range' first (min n (count - first))).flatMap (fun i =>
    s.rdBytes (s.gatherBase t + i * fmtBytes t.fmt + (fmtBytes t.fmt - 2)) 2)

/-- Is chunk `c` of a tensor's gathered copies sampled in this step (R320)? -/
def State.sampled (s : State) (f : ImageFile) (tensor c : Nat) : Bool :=
  srRnd s.job.seed s.ccr.t tensor c % 2 ^ limChecksumS f == 0

/-- The gathered tensor that this module owns, by its id. -/
def State.gathered (s : State) (tensor : Nat) : Option (ImageFile × TensorEnt) :=
  match s.myImage with
  | some f => match imgWeight f tensor with
    | some t => if t.gather != 0 && owns t (s.fget HULL_ORCH_MODULE) then some (f, t) else none
    | none => none
  | none => none

/-- The flit of a scheduled frame, none when it has none to send: a checksum is sent only of a sampled chunk, which holds the
hi halves of 2,048 elements. DESIGN CHOICE: the CRC-32C stands in bytes 0 to 3 of its flit. -/
def State.flitOf (s : State) (src : FlitSrc) : Option Nat :=
  match src with
  | .data flit => some flit.toNat
  | .forward l => match (s.link l).last with | some x => if x.1 == s.now then some x.2 else none | none => none
  | .hi tensor first => (s.gathered tensor).map (fun p => ofBytes ((s.hiHalves p.2 first 128).map (fun b => b.toNat)))
  | .checksum tensor c =>
    match s.gathered tensor with
    | some (f, t) => if s.sampled f tensor c then some (crc32c (s.hiHalves t (2048 * c) 2048)) else none
    | none => none

/-- A gathered copy's checksum differs: class B with CHECKSUM, in the tick to which R302 attributes it. -/
def State.checksumBad (s : State) : State :=
  let s := if s.run.healthSent then s.withRun (fun r => { r with lateChecksum := true })
    else s.withRun (fun r => { r with checksum := true })
  (s.fadd COMMIT_CNT1_CHECKSUM_MISMATCHES 1).classBSts 0 COMMIT_STS_CHECKSUM

/-- What is done with a delivered flit (R320, R404, R405): a gathered one lands in its gather region, and a checksum is
compared with that of the 4 KiB that landed, or of as many bytes as the last chunk of its owner's shard has. An ELASTIC frame
for another module joins the queue of its next link (R381); a child's token count joins the subtree's sum, and N goes on down
the tree (R396). -/
def State.useFlit (s : State) (use : FlitUse) (flit : Nat) : State :=
  match use with
  | .port => s
  | .gather a => s.wrGranule a (BitVec.ofNat 2048 flit)
  | .onward l => s.withLink l (fun k => { k with elasticQ := k.elasticQ ++ [flit] })
  | .count => s.withRun (fun r => { r with childTokens := r.childTokens + flit % 2 ^ 64 })
  | .total => s.sendFrames s.childLinks s.now 2 (packFlit [(8, flit)])
  | .checksum tensor c a owner =>
    match s.image with
    | some f => match imgWeight (imgSeenBy f owner) tensor with
      | some t =>
        let n := min 4096 (2 * ((t.row1 - t.row0) * (t.col1 - t.col0) - 2048 * c))
        if s.sampled f tensor c && crc32c (s.rdBytes a n) != flit % 2 ^ 32 then s.checksumBad else s
      | none => s
    | none => s

/-! ### Delivery (R372, R374, R375, R380) -/

/-- The fabric port, reduction plan and part that the schedule's RECEIVE entry names for the frame delivered on a link on a
cycle, zeros where it has none (R382). -/
def State.receivedBy (s : State) (l c : Nat) : List Nat :=
  let p := s.lnkSlot l (c - s.edgeAt)
  match (s.linkWords l).find? (fun x => kOp x == 6 && (kFrames (s.lnkWin l) (l / 4) x).contains (l, p.1, p.2)) with
  | some x => [kPort x, kPlan x, kPart x]
  | none => [0, 0, 0]

/-- A frame reaches its delivery cycle, lost or not, and its flit is used (R372, R374): it can be sent on (R383), it goes to the
port of its RECEIVE entry, and to what it is for. -/
def State.landFlit (s : State) (l : Nat) (x : FlitDue) : State :=
  let s := s.withLink l (fun k =>
    { k with
      landing := k.landing.erase x,
      last := if x.kind == 1 then x.flit.map (fun v => (x.at_, v)) else k.last })
  let s := s.emit (.msg "FRAME_DELIVER" ([l, x.at_, x.kind, x.lost.toNat] ++ s.receivedBy l x.at_ ++ x.flit.toList))
  match x.flit with | some v => s.useFlit x.use v | none => s

/-- A frame sent in the slot that began on cycle `c` is delivered a hop later (R372). -/
def State.frameDeliver (s : State) (l c kind : Nat) (lost : Bool) (use : FlitUse) (flit : Option Nat) : State :=
  s.withLink l (fun k => { k with landing := k.landing ++ [⟨c + s.lnkHop l, kind, lost, flit, use⟩] })

/-- An overrun frame: class B, delivered lost with undefined content (R374). `cause` 0 slot taken, 1 retry failed. -/
def State.frameOverrun (s : State) (l c slot kind cause : Nat) (use : FlitUse) : State :=
  let s := (s.fadd (lnkFld LNK_CNT_B_OVERRUNS l) 1).lnkFirst l cause slot kind
  let s := s.classBSts (lnkPage l) (LNK_STS_OVERRUN.die (l / 4))
  if kind == 1 then (s.frameDeliver l c kind true use (some s.freeVal)).drawn else s.frameDeliver l c kind true .port none

/-- A frame that waited for its retry has its delivery cycle, and no RETRY frame has answered it: it overruns (R374, R380). -/
def State.unanswered (s : State) (l : Nat) (x : LinkWait) : State :=
  (s.withLink l (fun k => { k with waiting := k.waiting.erase x })).frameOverrun l x.sent x.slot x.kind 1 x.use

/-! ### The tree (R392, R396) -/

/-- The cycle on which a module's combined record of something taken on a tick-relative cycle goes up: slot k of window
ω + v · (H − d) (R392). -/
def State.upCycle (s : State) (f : ImageFile) (c : Nat) : Nat :=
  let w := imgWindow f
  s.edgeAt + w * (slotAfter w (treeSlot f) c + hopWindows f * (imgDepth f - modDepth (imgModule f (s.fget HULL_ORCH_MODULE)))) +
    slotStart w (treeSlot f)

/-- Something is to go on the tree on a cycle. -/
def State.treeAt (s : State) (c : Nat) (what : TreeSend) : State := s.withRun (fun r => { r with treeDue := r.treeDue ++ [(c, what)] })

/-- The module's own tree frame goes out on its cycle; during a lockstep reload it does not (R506). A child whose record has not
come by then is missing from it (R393). -/
def State.treeSend (s : State) (x : Nat × TreeSend) : State :=
  let s := s.withRun (fun r => { r with treeDue := r.treeDue.erase x })
  if s.reloading then s
  else
    match x.2 with
    | .health =>
      let gone := s.childLinks.any (fun l => !s.job.childrenSeen.contains l)
      let s := s.withJob (fun j => { j with health := { j.health with missing := j.health.missing || gone } })
      s.sendFrames s.parentLinks x.1 2 (healthFlit s.job.health)
    | .count => s.sendFrames s.parentLinks x.1 2 (packFlit [(8, s.job.localTokens + s.run.childTokens)])
    | .total => s.sendFrames s.childLinks x.1 2 (packFlit [(8, s.job.localTokens + s.run.childTokens)])

/-- The module's health record is due on the tree (R392); the master has none to send. -/
def State.healthUp (s : State) (f : ImageFile) : State :=
  if s.fbit HULL_ORCH_MASTER then s
  else s.treeAt (s.upCycle f (match s.curPlan with | some p => planFenceOf p 3 | none => s.cyc)) .health

/-- The token count taken at the ingest close, on tick-relative cycle `c`, is due on the tree: its subtree's sum goes up, and
from the master N comes down, as long after it holds the sum as a token may (R394, R396). -/
def State.countUp (s : State) (f : ImageFile) (c : Nat) : State :=
  if s.fbit HULL_ORCH_MASTER then s.treeAt (s.treeCycle f (s.upCycle f c + 512)) .total else s.treeAt (s.upCycle f c) .count

end Sys2Proof.Machine
end

