-- ==== Sys2Proof/Machine/Solver.lean ====
section
/-! DEFINITION. The root solver (08_crackers.md): the operations and their scyc, SQ64 matrix arithmetic, the course of a
job from its start edge, and what its commands do: descriptor read, start, publish, deadline, carry, sweep, fault (R230 to
R269). A started job is held with what is still to come of it; each event and an end without a publish come about on their
own scyc (Machine/Due.lean). -/

namespace Sys2Proof.Machine

/-! ### The job entry (R479) -/

def slvJob (e : BitVec 1024) : Nat := bvBits e 0 12
def slvRound (e : BitVec 1024) : Nat := bvBits e 16 12
def slvDie (e : BitVec 1024) : Nat := bvBits e 32 2
def slvC0 (e : BitVec 1024) : Nat := bvBits e 34 3
def slvGangLog (e : BitVec 1024) : Nat := bvBits e 37 2
def slvGang (e : BitVec 1024) : Nat := 2 ^ slvGangLog e
def slvKind (e : BitVec 1024) : Nat := bvBits e 40 2
def slvPcode (e : BitVec 1024) : Nat := bvBits e 42 2
def slvProbe (e : BitVec 1024) : Bool := bvBits e 44 1 == 1
def slvCold (e : BitVec 1024) : Bool := bvBits e 45 1 == 1
def slvN (e : BitVec 1024) : Nat := bvBits e 48 12
def slvTensor (e : BitVec 1024) : Nat := bvBits e 64 20
def slvBlock (e : BitVec 1024) : Nat := bvBits e 84 12
def signed8 (v : Nat) : Int := if v < 128 then v else (v : Int) - 256
def slvEA (e : BitVec 1024) : Int := signed8 (bvBits e 96 8)
def slvEX (e : BitVec 1024) : Int := signed8 (bvBits e 104 8)
def slvStaleLim (e : BitVec 1024) : Nat := bvBits e 112 8
def slvIWarm (e : BitVec 1024) : Nat := bvBits e 120 8
def slvICold (e : BitVec 1024) : Nat := bvBits e 128 8
def slvShift (e : BitVec 1024) : Nat := bvBits e 192 32
def slvTau (e : BitVec 1024) : Nat := bvBits e 224 32
def slvDelta0 (e : BitVec 1024) : Nat := bvBits e 256 32
def slvTol (e : BitVec 1024) : Nat := bvBits e 288 32
def slvTolLoose (e : BitVec 1024) : Nat := bvBits e 320 32
def slvShash (e : BitVec 1024) : Nat := bvBits e 352 32
def slvUhash (e : BitVec 1024) : Nat := bvBits e 384 32
def slvStart (e : BitVec 1024) : Nat := bvBits e 448 40
def slvDeadline (e : BitVec 1024) : Nat := bvBits e 512 40
/-- log2 p: 1, 2 or 3 for ROOT, 0 for the inverse kinds. -/
def slvLogP (e : BitVec 1024) : Nat := if slvKind e == 0 then slvPcode e + 1 else 0

/-! ### Operations and their scyc (R241, R608) -/

def opConv (n g : Nat) : Nat := 371 + ceilDiv (n * (n + 1)) (64 * g)
def opShift (n : Nat) : Nat := n / 64 + 16
def opGersh (n g : Nat) : Nat := ceilDiv (n * (n + 1)) (128 * g) + 24
def opFrob (n g : Nat) : Nat := opGersh n g
def opProd (n g : Nat) : Nat := ceilDiv (n / 64 * (n / 64 + 1)) (2 * g) * n + 160
def opPanel (n g k : Nat) : Nat := ceilDiv (32 * (n / 64 - k) * (n / 64 - k + 1)) g + 192
def opChol (n g : Nat) : Nat := ceilDiv (64 * (n / 64) * (n / 64 + 1) * (n / 64 + 2)) (6 * g) + 192 * (n / 64)
def opTrinv (n g : Nat) : Nat := opChol n g
def opLtl (n g : Nat) : Nat := ceilDiv (64 * (n / 64) * (n / 64 + 1) * (n / 64 + 2)) (6 * g) + 160
def opSetupCold (n g : Nat) : Nat := ceilDiv (n * (n + 1)) (64 * g) + 24
def opWload (n g : Nat) : Nat := opConv n g
/-- PUB, its last 40 scyc the descriptor write. -/
def opPub (n g : Nat) : Nat := ceilDiv (n * n) (32 * g) + 420
def opIter (kind lp n g : Nat) : Nat :=
  if kind == 0 then (lp + 2) * opProd n g + opFrob n g else 2 * opProd n g + opFrob n g

/-- The cold budget (R256). -/
def coldBudget (e : BitVec 1024) : Nat :=
  let n := slvN e
  let g := slvGang e
  3 * opConv n g + opShift n + (if slvProbe e then opChol n g else 0) + opGersh n g + opSetupCold n g +
    slvICold e * opIter (slvKind e) (slvLogP e) n g + opPub n g

/-! ### SQ64 matrices (R86, R87, R234, R235), row by row -/

abbrev Mat := List (List Int)

def mat (n : Nat) (f : Nat → Nat → Int) : Mat := (range' 0 n).map (fun i => (range' 0 n).map (fun j => f i j))

def Mat.at (m : Mat) (i j : Nat) : Int := (m.getD i []).getD j 0

def Mat.transpose (m : Mat) : Mat := mat m.length (fun i j => m.at j i)

def dot : List Int → List Int → Int
  | a :: r, b :: q => a * b + dot r q
  | _, _ => 0

/-- sym(P · Q): the exact sums of the elements with i ≤ j, each written to (j, i) as well; `q` is given by columns. -/
def symProd (p q : Mat) : Mat :=
  mat p.length (fun i j => dot (p.getD (min i j) []) (q.getD (max i j) []))

/-- Narrow every element, with whether one gives |q| ≥ 2^62 (R87, R236). -/
def narrowMat (m : Mat) (es ec : Int) : Mat × Bool :=
  (m.map (fun r => r.map (fun v => (narrowSq64 v es ec).1)), m.any (fun r => r.any (fun v => (narrowSq64 v es ec).2)))

def addDiag (m : Mat) (d : Int) : Mat := mat m.length (fun i j => if i == j then m.at i j + d else m.at i j)

/-- A diagonal element stands at |q| ≥ 2^62 (R245). -/
def diagBreach (m : Mat) : Bool := (range' 0 m.length).any (fun i => decide (2 ^ 62 ≤ (m.at i i).natAbs))

def trace (m : Mat) : Int := ((range' 0 m.length).map (fun i => m.at i i)).foldl (· + ·) 0

/-- max over i of (a_ii + Σ_(j≠i) |a_ij|), exactly (GERSH). -/
def gersh (m : Mat) : Int :=
  let b (i : Nat) : Int := m.at i i + ((range' 0 m.length).foldl (fun t j => if i == j then t else t + (m.at i j).natAbs) 0)
  (range' 1 (m.length - 1)).foldl (fun x i => max x (b i)) (b 0)

/-- Σ of the squared elements of M − I with M at exponent −61 (R238). -/
def frobSq (m : Mat) : Nat :=
  (m.zip (range' 0 m.length)).foldl (fun t ri => (ri.1.zip (range' 0 m.length)).foldl (fun t vj =>
    let d := if ri.2 == vj.2 then vj.1 - 2 ^ 61 else vj.1
    t + d.natAbs * d.natAbs) t) 0

/-- The FP32 value nearest the exact norm √(S · 2^−122) (R238). -/
def residBits (s : Nat) : Nat :=
  let n := s * 2 ^ 64
  let r := isqrt n
  (fpRound fmtFp32 false (2 * r + if r * r == n then 0 else 1) (-94)).bits

/-- Is √(S · 2^−122) ≤ an FP32 tolerance, exactly? -/
def normLe (s tol : Nat) : Bool :=
  match f32 tol with
  | .fin neg m e =>
    let k := 2 * e + 122
    !neg && decide (s * 2 ^ (-k).toNat ≤ m * m * 2 ^ k.toNat)
  | .inf neg => !neg
  | .nan => false

/-- Nearest integer to `a / b`, ties to even. -/
def rneDiv (a : Int) (b : Nat) : Int :=
  let q := a.natAbs / b
  let r := a.natAbs % b
  let v : Nat := if 2 * r > b || (2 * r == b && q % 2 == 1) then q + 1 else q
  if a < 0 then -(v : Int) else v

/-- Nearest integer to √m. -/
def rneSqrt (m : Nat) : Nat :=
  let r := isqrt m
  if r * r + r < m then r + 1 else r

/-! ### Conversion (R88, R241 to R243) -/

/-- What a conversion of a block's upper triangle finds. -/
structure ConvRes where
  nonfinite : Bool
  breach : Bool
  vanished : Nat
  m : Mat

/-- Convert at exponent `e`; `x` gives the element values. -/
def convMat (n : Nat) (e : Int) (x : Nat → Nat → FVal) : ConvRes :=
  let rows := (range' 0 n).map (fun i => (range' i (n - i)).map (fun j => toSq64 (x i j) e))
  let any (p : Option (Int × Bool × Bool) → Bool) : Bool := rows.any (fun r => r.any p)
  let up : List (List Int) := rows.map (fun r => r.map (fun o => match o with | some v => v.1 | none => 0))
  let m := mat n (fun i j => (up.getD (min i j) []).getD (max i j - min i j) 0)
  { nonfinite := any (fun o => o.isNone),
    breach := any (fun o => match o with | some v => v.2.1 | none => false) || decide (2 ^ 62 ≤ trace m),
    vanished := rows.foldl (fun t r => r.foldl (fun t o => match o with | some v => if v.2.2 then t + 1 else t | none => t) t) 0,
    m := m }

/-! ### Cholesky (R246, R247) -/

inductive CholRes
  /-- The columns of L. -/
  | ok (cols : Mat)
  /-- A flagged pivot: its column, and whether it is not positive. -/
  | flag (col : Nat) (notPos : Bool)
  /-- A narrowing in this column diverged. -/
  | div (col : Nat)

/-- Factorise from column `j` on, `k` columns to go; `sh` is 2^(e_A' − 2 e_L), `cols` the columns done. -/
def cholFrom (a : Mat) (tau sh : Int) : Nat → Nat → Mat → CholRes
  | 0, _, cols => .ok cols
  | k + 1, j, cols =>
    let acc := cols.foldl (fun acc (c : List Int) =>
      let cj := c.getD j 0
      (acc.zip c).map (fun p => p.1 - p.2 * cj)) ((a.getD j []).map (fun v => v * sh))
    let pv := acc.getD j 0
    if pv ≤ 0 then .flag j true
    else if pv < tau * sh then .flag j false
    else
      let l := rneSqrt pv.toNat
      let col : List Int := (acc.zip (range' 0 acc.length)).map (fun p =>
        if p.2 < j then 0 else if p.2 == j then (l : Int) else rneDiv p.1 l)
      if col.any (fun v => decide (2 ^ 62 ≤ v.natAbs)) then .div j
      else cholFrom a tau sh k (j + 1) (cols ++ [col])

/-- e_L of R237. -/
def expL (ea : Int) : Int := ea / 2 - 30

/-- The exponent of Y = L^−1. -/
def expY (ex : Int) : Int := (ex + 1) / 2 - 30

def cholesky (a : Mat) (tau ea : Int) : CholRes := cholFrom a tau (2 ^ (ea - 2 * expL ea).toNat) a.length 0 []

/-- Column `j` of Y, from the rows of L. -/
def trinvCol (rows : Mat) (k : Int) (j : Nat) : List Int :=
  (range' 0 rows.length).foldl (fun ys i =>
    let row := rows.getD i []
    let lii := (row.getD i 0).toNat
    if i < j then ys ++ [0]
    else if i == j then ys ++ [if 0 ≤ k then rneDiv (2 ^ k.toNat) lii else rneDiv 1 (lii * 2 ^ (-k).toNat)]
    else ys ++ [-(rneDiv (dot row ys) lii)]) []

/-- Y by columns: exponents e_L and e_Y. -/
def trinv (cols : Mat) (el ey : Int) : Mat :=
  let rows := cols.transpose
  (range' 0 cols.length).map (fun j => trinvCol rows (-(el + ey)) j)

/-! ### Iterations (R250 to R254): errors carry the number of products run when a narrowing diverges -/

/-- A sym product narrowed at `ec`, the `k`-th of its sequence. -/
def prodN (k : Nat) (p q : Mat) (es ec : Int) : Except Nat Mat :=
  if ec < -128 || 127 < ec then .error k
  else
    let r := narrowMat (symProd p q) es ec
    if r.2 then .error k else .ok r.1

/-- Square `c` times at exponent −60, from the `k`-th product on. -/
def squares : Nat → Nat → Mat → Except Nat Mat
  | 0, _, w => .ok w
  | c + 1, k, w =>
    match prodN k w w (-120) (-60) with
    | .error e => .error e
    | .ok w => squares c (k + 1) w

/-- One ROOT iteration (R250). -/
def rootIter (lp : Nat) (ex : Int) (x m : Mat) : Except Nat (Mat × Mat) :=
  let en : Int := -61 - lp
  let nn := addDiag (m.map (fun r => r.map (fun v => -v))) ((2 ^ lp + 1) * 2 ^ 61)
  match prodN 1 x nn (ex + en) ex with
  | .error e => .error e
  | .ok x' =>
    match prodN 2 nn nn (2 * en) (-60) with
    | .error e => .error e
    | .ok w =>
      match squares (lp - 1) 3 w with
      | .error e => .error e
      | .ok w =>
        match prodN (lp + 2) w m (-121) (-61) with
        | .error e => .error e
        | .ok m' => .ok (x', m')

/-- One INV_NS iteration (R251): the new X and the T of the old one. -/
def nsIter (ea ex : Int) (x a : Mat) : Except Nat (Mat × Mat) :=
  match prodN 1 a x (ea + ex) (-61) with
  | .error e => .error e
  | .ok t =>
    match prodN 2 x (addDiag (t.map (fun r => r.map (fun v => -v))) (2 ^ 62)) (ex - 61) ex with
    | .error e => .error e
    | .ok x' => .ok (x', t)

/-- The warm setup's powers of X (R253): square `c` times from X^(2^k) at exponent `e`. -/
def warmPowers (ex : Int) : Nat → Nat → Mat → Except Nat Mat
  | 0, _, y => .ok y
  | c + 1, k, y =>
    let e (k : Nat) : Int := 2 ^ k * ex + (2 ^ k - 1) * 61
    match prodN (k + 1) y y (2 * e k) (e (k + 1)) with
    | .error d => .error d
    | .ok y => warmPowers ex c (k + 1) y

/-! ### The course of a job -/

/-- How far a job has come. -/
structure SlvTr where
  off : Nat := 0
  evs : List SlvEv := []
  reg : Nat := 0
  rescales : Nat := 0
  iters : Nat := 0
  resid : Nat := 0
  iterEnds : List (Nat × Nat) := []
  stages : List (Nat × Nat) := [(0, 1)]

def SlvTr.run (t : SlvTr) (n : Nat) : SlvTr := { t with off := t.off + n }
def SlvTr.stage (t : SlvTr) (c : Nat) : SlvTr := { t with stages := t.stages ++ [(t.off, c)] }
def SlvTr.ev (t : SlvTr) (what col lvl cause : Nat) : SlvTr := { t with evs := t.evs ++ [⟨t.off, what, col, lvl, cause⟩] }

/-- The job ends now with a cause of R262. -/
def SlvTr.stop (t : SlvTr) (cause : Nat) : SlvOut :=
  { cause := some cause, off := t.off, iters := t.iters, resid := t.resid, reg := t.reg, rescales := t.rescales,
    evs := t.evs, iterEnds := t.iterEnds, stages := t.stages }

/-- The job writes out X: the descriptor write, its last stage, is issued 40 scyc before PUB ends. -/
def SlvTr.publish (t : SlvTr) (n g : Nat) (x : Mat) : SlvOut :=
  let t := t.stage 5
  { cause := none, off := t.off + opPub n g - 40, iters := t.iters, resid := t.resid, reg := t.reg, rescales := t.rescales,
    evs := t.evs, iterEnds := t.iterEnds, stages := t.stages ++ [(t.off + opPub n g - 40, 6)], result := x.flatten }

/-- CONV with its rescales (R243, R244): `k` rescales left. -/
def convRun (n g : Nat) (blk : Nat → Nat → FVal) : Nat → Int → SlvTr → Except SlvOut (Int × Mat × SlvTr)
  | k, e, t =>
    let c := convMat n e blk
    let t := (t.run (opConv n g)).ev 2 c.vanished 0 0
    if c.nonfinite then .error (t.stop 2)
    else if !c.breach then .ok (e, c.m, t)
    else
      match k with
      | 0 => .error (t.stop 1)
      | k + 1 =>
        if 127 ≤ e then .error (t.stop 1)
        else convRun n g blk k (e + 1) ({ t with rescales := t.rescales + 1 }.ev 0 0 0 0)

/-- The factorisation with its regularisation levels (R247, R248): `k` levels left above `lvl`. -/
def cholRun (n g : Nat) (tau d0 ea : Int) : Nat → Nat → Mat → SlvTr → Except SlvOut (Mat × Mat × SlvTr)
  | k, lvl, a, t =>
    match cholesky a tau ea with
    | .ok cols => .ok (a, cols, { t.run (opChol n g) with reg := lvl })
    | .div j => .error ((t.run (((range' 0 (j / 64 + 1)).map (opPanel n g)).foldl (· + ·) 0)).stop 4)
    | .flag j notPos =>
      let t := (t.run (((range' 0 (j / 64 + 1)).map (opPanel n g)).foldl (· + ·) 0)).ev 1 j lvl notPos.toNat
      match k with
      | 0 => .error ({ t with reg := lvl }.stop 3)
      | k + 1 =>
        let mult : Int := if lvl == 0 then 1 else 9 * 10 ^ (lvl - 1)
        let a := addDiag a (mult * d0)
        let t := t.run (opShift n)
        if diagBreach a then .error (t.stop 4) else cholRun n g tau d0 ea k (lvl + 1) a t

/-- The iterations (R254), `k` left of the budget. -/
def iterRun (e : BitVec 1024) (ea : Int) (a : Mat) : Nat → Mat → Mat → SlvTr → SlvOut
  | 0, _, _, t => t.stop 5
  | k + 1, x, m, t =>
    let n := slvN e
    let g := slvGang e
    let root := slvKind e == 0
    match (if root then rootIter (slvLogP e) (slvEX e) x m else nsIter ea (slvEX e) x a) with
    | .error c => (t.run (c * opProd n g)).stop 4
    | .ok (x', m') =>
      let s := frobSq m'
      let t := t.run (opIter (slvKind e) (slvLogP e) n g)
      let t := { t with iters := t.iters + 1, resid := residBits s, iterEnds := t.iterEnds ++ [(t.off, residBits s)] }
      if normLe s (slvTol e) then t.publish n g x'
      else if k == 0 then (if normLe s (slvTolLoose e) then t.publish n g x' else t.stop 5)
      else iterRun e ea a k x' m' t

/-- The warm setup and the iterations after it (R253). -/
def warmRun (e : BitVec 1024) (ea : Int) (a : Mat) (prev : Nat → Nat → FVal) (t : SlvTr) : SlvOut :=
  let n := slvN e
  let g := slvGang e
  let lp := slvLogP e
  let c := convMat n (slvEX e) prev
  let t := (t.run (opWload n g)).ev 2 c.vanished 0 0
  if c.nonfinite then t.stop 2
  else if (mat n (fun i j => c.m.at i j)).any (fun r => r.any (fun v => decide (2 ^ 62 ≤ v.natAbs))) then t.stop 4
  else if slvKind e == 0 then
    match warmPowers (slvEX e) lp 0 c.m with
    | .error k => (t.run (k * opProd n g)).stop 4
    | .ok y =>
      match prodN (lp + 1) y a (2 ^ lp * slvEX e + (2 ^ lp - 1) * 61 + ea) (-61) with
      | .error k => (t.run (k * opProd n g)).stop 4
      | .ok m => iterRun e ea a (slvIWarm e) c.m m ((t.run ((lp + 1) * opProd n g)).stage 4)
  else iterRun e ea a (slvIWarm e) c.m [] (t.stage 4)

/-- Smallest k with c ≤ 2^k, for c ≥ 1. -/
def ceilLog2 (c : Nat) : Nat := if c ≤ 1 then 0 else Nat.log2 (c - 1) + 1

/-- The cold setup and the iterations after it (R252). -/
def coldRun (e : BitVec 1024) (ea : Int) (a : Mat) (t : SlvTr) : SlvOut :=
  let n := slvN e
  let g := slvGang e
  let p : Int := 2 ^ slvLogP e
  let t := t.run (opGersh n g)
  let c := min (trace a) (gersh a)
  if c ≤ 0 then t.stop 6
  else
    let k0 := ea + ceilLog2 c.toNat
    let k := if slvKind e == 0 then p * (-((-k0) / p)) else k0
    let x0 := -(k / p) - slvEX e
    let t := t.run (opSetupCold n g)
    if x0 < 0 || 60 < x0 then t.stop 4
    else
      let x := mat n (fun i j => if i == j then 2 ^ x0.toNat else 0)
      let m := narrowMat a (ea - k) (-61)
      if slvKind e == 0 && m.2 then t.stop 4
      else iterRun e ea a (slvICold e) x m.1 (t.stage 4)

/-- The course of a job from its start edge, as if no deadline came (R241 to R256): `window` is the scyc from its start
edge to its deadline edge, `warmable` describes the landed descriptor. A SHIFT, TAU or DELTA0 that is not finite is a
non-finite input of a conversion (R89, R245). -/
def slvCourse (e : BitVec 1024) (window : Nat) (warmable : Bool) (blk prev : Nat → Nat → FVal) : SlvOut :=
  let n := slvN e
  let g := slvGang e
  let inv := slvKind e == 2
  let warm := !inv && warmable && !slvCold e
  let t0 : SlvTr := {}
  if !inv && !warm && decide (window < coldBudget e) then t0.stop 7
  else
    match convRun n g blk 2 (slvEA e) t0 with
    | .error o => o
    | .ok (ea, a, t) =>
      match toSq64 (f32 (slvShift e)) ea, toSq64 (f32 (slvTau e)) ea, toSq64 (f32 (slvDelta0 e)) ea with
      | some sh, some tau, some d0 =>
        let t := t.ev 2 (sh.2.2.toNat + tau.2.2.toNat + d0.2.2.toNat) 0 0
        if sh.2.1 || tau.2.1 || d0.2.1 then t.stop 4
        else
          let a := addDiag a sh.1
          let t := (t.stage (if inv then 7 else 2)).run (opShift n)
          if diagBreach a then t.stop 4
          else if inv then
            match cholRun n g tau.1 d0.1 ea 4 0 a t with
            | .error o => o
            | .ok (_, cols, t) =>
              let t := t.run (opTrinv n g)
              let y := trinv cols (expL ea) (expY (slvEX e))
              if y.any (fun r => r.any (fun v => decide (2 ^ 62 ≤ v.natAbs))) then t.stop 4
              else
                let x := narrowMat (symProd y y) (2 * expY (slvEX e)) (slvEX e)
                let t := t.run (opLtl n g)
                if x.2 then t.stop 4 else t.publish n g x.1
          else if slvProbe e then
            match cholRun n g tau.1 d0.1 ea 4 0 a t with
            | .error o => o
            | .ok (a, _, t) => if warm then warmRun e ea a prev (t.stage 3) else coldRun e ea a (t.stage 3)
          else if warm then warmRun e ea a prev (t.stage 3) else coldRun e ea a (t.stage 3)
      | _, _, _ => t.stop 2

/-! ### Descriptors and time -/

/-- The absolute scyc of the first SCLK edge at or after an absolute cycle, counted from the job's first edge (R7, R26). -/
def State.scycAt (s : State) (c : Nat) : Nat := ceilDiv (3 * (c - s.job.firstEdge)) 4

/-- The absolute cycle on which an absolute scyc has come (R7). -/
def State.cycAt (s : State) (sc : Nat) : Nat := s.job.firstEdge + ceilDiv (4 * sc) 3

/-- The round's jobs of the running STEP tick that name statistics this module holds (R226). -/
def State.roundJobs (s : State) (f : ImageFile) : List (BitVec 1024) :=
  match f.solverJobs.find? (fun j => j.plan == s.fget TICK_PLAN_CUR) with
  | some j => (j.rounds.getD (s.ccr.t % j.rounds.length) ⟨[], [], 0⟩).jobs
  | none => []

def slvStat (f : ImageFile) (e : BitVec 1024) : Option TensorEnt := statOf f (slvTensor e)

/-- The statistic's entry and its descriptor entry, when this module holds them. -/
def State.slvEnts (s : State) (f : ImageFile) (e : BitVec 1024) : Option (TensorEnt × TensorEnt) :=
  let f := imgSeenBy f (s.fget HULL_ORCH_MODULE)
  match slvStat f e, imgTensor f (slvTensor e) 8 with
  | some t, some d => if owns t (s.fget HULL_ORCH_MODULE) then some (t, d) else none
  | _, _ => none

/-- A descriptor at an address. -/
def State.descAt (s : State) (a : Nat) : BitVec 512 := BitVec.ofNat 512 (s.rdN a 64)

/-- Place of a block's descriptor within its array. -/
def descOff (f : ImageFile) (t : TensorEnt) (b : Nat) : Nat := 64 * (b - firstBlock f t)

def dscState (d : BitVec 512) : Nat := bvBits d 0 2
def dscBuf (d : BitVec 512) : Nat := bvBits d 2 1
def dscStale (d : BitVec 512) : Nat := bvBits d 8 8
def dscShash (d : BitVec 512) : Nat := bvBits d 64 32
def dscUhash (d : BitVec 512) : Nat := bvBits d 96 32
def dscBufAddr (d : BitVec 512) (k : Nat) : Nat := bvBits d (256 + 64 * k) 57

/-- A descriptor write stores a STALE value above its limit: class C (R265). -/
def State.staleCheck (s : State) (die stale limit : Nat) : State :=
  if limit < stale then
    (s.fadd (SLV_CNT3_STALE_LIMITS.die die) 1).classC (16 + die) (SLV_STS_STALE_LIMIT.die die)
  else s

/-! ### The commands -/

/-- SOLVER_DESC_READ: the descriptor engine reads the descriptor of the job with this index; it lands on the start edge. -/
def State.solverDescRead (s : State) (f : ImageFile) (e : BitVec 1024) : State :=
  match s.slvEnts f e with
  | none => s
  | some (t, d) =>
    let v := s.descAt (s.readBase d + descOff f t (slvBlock e))
    s.withSolver (fun x => { x with landed := x.landed ++ [(slvTensor e, slvBlock e, v)] })

def State.slvFind (s : State) (f : ImageFile) (job : Nat) : Option (BitVec 1024) :=
  (s.roundJobs f).find? (fun e => slvJob e == job)

/-- The absolute cycle of a job's descriptor read, 363 scyc before its start edge (R239). -/
def State.descReadCycle (s : State) (e : BitVec 1024) : Nat := s.cycAt (s.scycAt (s.edgeAt + slvStart e) - 363)

/-- The absolute cycle of a job's start edge (R239). -/
def State.startCycle (s : State) (e : BitVec 1024) : Nat := s.cycAt (s.scycAt (s.edgeAt + slvStart e))

/-- The crackers of a job's gang. -/
def gang (e : BitVec 1024) : List Nat := range' (slvC0 e) (slvGang e)

/-- One of the events within a job (R243, R247, R269). -/
def State.slvEvent (s : State) (e : BitVec 1024) (v : SlvEv) : State :=
  let k := slvDie e
  if v.what == 0 then
    (s.fadd (SLV_CNT2_RESCALES.die k) 1).setSts (16 + k) (SLV_STS_RESCALED.die k)
  else if v.what == 1 then
    let s := (s.fadd (SLV_CNT2_PIVOT_FLAGS.die k) 1).setSts (16 + k) (SLV_STS_PIVOT_FLAGGED.die k)
    let n := s.fget (SLV_PIVOT_PTR_COUNT.die k)
    if n < 16 then
      (s.fsetAll [((SLV_PIVOT_LOG_TENSOR.die k).ix n, slvTensor e), ((SLV_PIVOT_LOG_BLOCK.die k).ix n, slvBlock e),
        ((SLV_PIVOT_LOG_COLUMN.die k).ix n, v.column), ((SLV_PIVOT_LOG_LEVEL.die k).ix n, v.level),
        ((SLV_PIVOT_LOG_CAUSE.die k).ix n, v.cause), ((SLV_PIVOT_LOG_TICK.die k).ix n, s.tickCount),
        ((SLV_PIVOT_LOG_VALID.die k).ix n, 1), (SLV_PIVOT_PTR_COUNT.die k, n + 1)])
    else (s.fadd (SLV_PIVOT_PTR_LOST.die k) 1).setSts (16 + k) (SLV_STS_PIVOT_LOG_FULL.die k)
  else s.fadd (SLV_CNT3_CONV_VANISHED.die k) v.column

/-- The carry that a job's end issues (R261), to complete on absolute scyc `done`: with whether it sets BYPASS over VALID, and
its STALE. -/
def State.carry (s : State) (f : ImageFile) (j : SlvJob) (done : Nat) : State × Bool × Nat :=
  let e := j.ent
  let keep := dscState j.prev == 1 && dscUhash j.prev == slvUhash e
  let stale := min (dscStale j.prev + 1) 255
  let st := if keep then 1 else 2
  let v := putBits (putBits j.prev.toNat 8 8 stale) 0 2 st
  let byp := dscState j.prev == 1 && !keep
  match s.slvEnts f e with
  | none => (s, byp, stale)
  | some (t, d) =>
    let c : Carry :=
      { die := slvDie e, c0 := slvC0 e, gang := slvGang e, at_ := done, addr := s.writeBase d + descOff f t (slvBlock e),
        desc := BitVec.ofNat 512 v, limit := slvStaleLim e }
    (s.withSolver (fun x => { x with carries := x.carries ++ [c] }), byp, stale)

/-- A carry completes (R261, R265). -/
def State.landCarry (s : State) (c : Carry) : State :=
  let s := s.withSolver (fun x => { x with carries := x.carries.filter (fun q => q != c) })
  let s := (s.wrN c.addr 64 c.desc.toNat).staleCheck c.die (dscStale c.desc) c.limit
  (range' c.c0 c.gang).foldl (fun s k => s.fset ((SLV_CRK_STAGE.die c.die).ix k) 0) s

/-- A job ends without publishing: outcome bit and count, record, event, carry (R262 to R266, R269). `at_` is the scyc
after its start edge; a deadline's carry is issued on the SCLK cycle after the deadline edge (R263). -/
def State.slvEnd (s : State) (f : ImageFile) (j : SlvJob) (cause at_ : Nat) : State :=
  let e := j.ent
  let k := slvDie e
  let done := j.out.iterEnds.filter (fun i => decide (i.1 ≤ at_))
  let iters := done.length
  let resid := match done.getLast? with | some i => i.2 | none => 0
  let s := s.withSolver (fun x => { x with jobs := x.jobs.filter (fun q => q.ent != j.ent) })
  let s := (gang e).foldl (fun s c => s.fsetAll [((SLV_CRK_STAGE.die k).ix c, 6), ((SLV_CRK_ITER.die k).ix c, iters)]) s
  let s := if cause == 0 then (s.fadd (SLV_CNT1_DEADLINE_MISSES.die k) 1).setSts (16 + k) (SLV_STS_DEADLINE_MISS.die k)
    else if cause ≤ 2 then (s.fadd (SLV_CNT1_REFUSED.die k) 1).setSts (16 + k) (SLV_STS_REFUSED.die k)
    else if cause ≤ 6 then (s.fadd (SLV_CNT1_SOFT_FAILS.die k) 1).setSts (16 + k) (SLV_STS_SOFT_FAIL.die k)
    else if cause == 7 then (s.fadd (SLV_CNT1_NOT_STARTED.die k) 1).setSts (16 + k) (SLV_STS_NOT_STARTED.die k)
    else s
  let r := s.carry f j ((if cause == 0 then j.deadline + 1 else j.start + at_) + 40)
  let s := if r.2.1 then (r.1.fadd (SLV_CNT2_BYPASSES.die k) 1).setSts (16 + k) (SLV_STS_BYPASS_SET.die k) else r.1
  let s := if s.fbit (SLV_EVT_FIRST_VALID.die k) || s.fbit (SLV_EVT_RESID_VALID.die k) then s
    else s.fsetAll [(SLV_EVT_FIRST_TENSOR.die k, slvTensor e), (SLV_EVT_FIRST_BLOCK.die k, slvBlock e),
      (SLV_EVT_FIRST_ITERS.die k, iters), (SLV_EVT_FIRST_CAUSE.die k, cause), (SLV_EVT_FIRST_CRACKER.die k, slvC0 e),
      (SLV_EVT_FIRST_TICK.die k, s.tickCount), (SLV_EVT_FIRST_VALID.die k, 1), (SLV_EVT_RESID_RESID.die k, resid),
      (SLV_EVT_RESID_JOB.die k, slvJob e), (SLV_EVT_RESID_ROUND.die k, slvRound e), (SLV_EVT_RESID_VALID.die k, 1)]
  s.event 3 s.evCtx
    [slvTensor e * 2 ^ 48 + slvBlock e * 2 ^ 68 + cause * 2 ^ 80 + k * 2 ^ 84 + iters * 2 ^ 88 + resid * 2 ^ 96,
     slvJob e * 2 ^ 16 + slvRound e * 2 ^ 28 + r.2.2 * 2 ^ 40 + r.2.1.toNat * 2 ^ 48]

/-- The jobs that hold crackers of a job's gang (R240). -/
def State.gangJobs (s : State) (e : BitVec 1024) : List SlvJob :=
  s.solver.jobs.filter (fun j => slvDie j.ent == slvDie e && (gang e).any (fun c => (gang j.ent).contains c))

/-- The job that runs on a cracker of a die, if any. -/
def State.slvOn (s : State) (die cracker : Nat) : Option SlvJob :=
  s.solver.jobs.find? (fun j => slvDie j.ent == die && (gang j.ent).contains cracker)

/-- Write BP32 elements from an address, counting saturated and subnormal ones. -/
def State.pubElems (s : State) (ex : Int) (a : Nat) : List Int → Nat → Nat → State × Nat × Nat
  | [], sat, sub => (s, sat, sub)
  | q :: r, sat, sub =>
    let b := renormVal (sq64Val q ex)
    (s.wrN a 4 b.bits).pubElems ex (a + 4) r (sat + b.ev.sat.toNat) (sub + b.ev.sub.toNat)

/-- The publish (R258, R259): the result into the free buffer, then the descriptor of the bank that the step writes. -/
def State.publish (s : State) (f : ImageFile) (j : SlvJob) : State :=
  let e := j.ent
  let k := slvDie e
  match s.slvEnts f e with
  | none => s
  | some (t, d) =>
    let buf := if dscState j.prev == 1 then 1 - dscBuf j.prev else 0
    let addr := dscBufAddr j.prev buf
    let r := s.pubElems (slvEX e) addr j.out.result 0 0
    let s := r.1
    let rem := (assocGet s.solver.subRem k).getD 0 + r.2.2
    let s := (s.fadd (SLV_CNT4_PUB_SATURATED.die k) r.2.1).fadd (SLV_CNT4_PUB_SUBNORMAL.die k) (rem / 65536)
    let w0 := 1 + buf * 4 + slvN e * 2 ^ 16 + slvKind e * 2 ^ 28 + slvPcode e * 2 ^ 30 + bvBits e 104 8 * 2 ^ 32
    let w1 := slvShash e + slvUhash e * 2 ^ 32
    let w3 := (if slvKind e == 2 then 0 else j.out.resid) + j.out.iters * 2 ^ 32 + j.out.reg * 2 ^ 40 + j.out.rescales * 2 ^ 43
    let a := s.writeBase d + descOff f t (slvBlock e)
    let s := (((s.wrN a 8 w0).wrN (a + 8) 8 w1).wrN (a + 16) 8 s.ccr.t).wrN (a + 24) 8 w3
    let s := ((s.wrN (a + 32) 8 (dscBufAddr j.prev 0)).wrN (a + 40) 8 (dscBufAddr j.prev 1)).wrN (a + 48) 16 0
    let s := s.withSolver (fun x => { x with jobs := x.jobs.filter (fun q => q.ent != j.ent), subRem := assocPut x.subRem k (rem % 65536) })
    let s := (gang e).foldl (fun s c => s.fsetAll [((SLV_CRK_STAGE.die k).ix c, 0), ((SLV_CRK_ITER.die k).ix c, j.out.iters)]) s
    s.fadd (SLV_CNT0_PUBLISHED.die k) 1

/-- Does the job's descriptor write go out before its deadline edge (R263)? -/
def SlvJob.publishes (j : SlvJob) : Bool := j.out.cause.isNone && decide (j.start + j.out.off < j.deadline)

/-- Does the deadline edge come before the job has ended (R262, R263)? -/
def SlvJob.misses (j : SlvJob) : Bool :=
  match j.out.cause with
  | some _ => decide (j.deadline < j.start + j.out.off)
  | none => decide (j.deadline ≤ j.start + j.out.off)

/-- A job whose deadline edge has gone by has ended: as PUBLISHED where its publish write was issued before that edge, else as a
deadline miss (R262, R263). -/
def State.slvExpire (s : State) (f : ImageFile) (j : SlvJob) : State :=
  if j.publishes then s.publish f j else s.slvEnd f j 0 (j.deadline - j.start)

/-- The job's start edge (R239, R240, R255): a job whose deadline edge has gone by has ended, and on a gang that is free the
job starts; its course is fixed from here. -/
def State.solverStart (s : State) (f : ImageFile) (e : BitVec 1024) : State :=
  let start := s.scycAt (s.edgeAt + slvStart e)
  let s := ((s.gangJobs e).filter (fun j => decide (j.deadline < start))).foldl (fun s j => s.slvExpire f j) s
  match s.slvEnts f e with
  | none => s
  | some (t, d) =>
    if !(s.gangJobs e).isEmpty then s
    else
    let k := slvDie e
    let dead := s.scycAt (s.edgeAt + slvDeadline e)
    let prev := match s.solver.landed.find? (fun l => l.1 == slvTensor e && l.2.1 == slvBlock e) with
      | some l => l.2.2
      | none => s.descAt (s.readBase d + descOff f t (slvBlock e))
    let n := slvN e
    let b := slvBlock e - firstBlock f t
    let base := s.readBase t + 4 * 2 ^ t.block * 2 ^ t.block * b
    let pbase := dscBufAddr prev (dscBuf prev)
    let usable := dscState prev == 1 && dscUhash prev == slvUhash e
    let out := slvCourse e (dead - start) (usable && dscShash prev == slvShash e)
      (fun i j => f32 (s.rdN (base + 4 * (i * n + j)) 4)) (fun i j => bp32Val (s.rdN (pbase + 4 * (i * n + j)) 4))
    let j : SlvJob := { ent := e, start := start, deadline := dead, prev := prev, out := out }
    let s := s.withSolver (fun x =>
      { x with
        landed := x.landed.filter (fun l => !(l.1 == slvTensor e && l.2.1 == slvBlock e)), jobs := x.jobs ++ [j] })
    let s := s.fadd (SLV_CNT0_STARTED.die k) 1
    (gang e).foldl (fun s c => s.fsetAll [((SLV_CRK_JOB.die k).ix c, slvJob e), ((SLV_CRK_ROUND.die k).ix c, slvRound e),
      ((SLV_CRK_STAGE.die k).ix c, 1), ((SLV_CRK_ITER.die k).ix c, 0), ((SLV_CRK_GANG.die k).ix c, slvGangLog e),
      ((SLV_CRK_LEAD.die k).ix c, if c == slvC0 e then 1 else 0)]) s

/-- The crackers of the jobs under way are idle, with the iterations that each has completed by scyc `sc`: a pre-emption stops
them (R267, R269). -/
def State.slvStop (s : State) (sc : Nat) : State :=
  let s := s.solver.carries.foldl (fun s c => (range' c.c0 c.gang).foldl (fun s k => s.fset ((SLV_CRK_STAGE.die c.die).ix k) 0) s) s
  s.solver.jobs.foldl (fun s j =>
    let k := slvDie j.ent
    let iters := (j.out.iterEnds.filter (fun i => decide (j.start + i.1 ≤ sc))).length
    (gang j.ent).foldl (fun s c => s.fsetAll [((SLV_CRK_STAGE.die k).ix c, 0), ((SLV_CRK_ITER.die k).ix c, iters)]) s) s

/-- An event within a job comes about, and is no longer to come. -/
def State.slvNext (s : State) (e : BitVec 1024) (v : SlvEv) : State :=
  let s := s.withSolver (fun x => { x with jobs := x.jobs.map (fun j =>
    if j.ent == e then { j with out := { j.out with evs := j.out.evs.erase v } } else j) })
  s.slvEvent e v

/-- The sweep of a die copies the descriptors of its home blocks that no job of the round names, read as the sweep starts on scyc
`start`; the `i`-th of them stands in the other bank 403 + i scyc later (R260). -/
def State.carrySweep (s : State) (f : ImageFile) (die start : Nat) : State :=
  let jobs := s.roundJobs f
  let f := imgSeenBy f (s.fget HULL_ORCH_MODULE)
  let stats := f.stateMap.filter (fun t => 4 ≤ t.role && t.role ≤ 7 && t.solver == die && owns t (s.fget HULL_ORCH_MODULE))
  let home := stats.flatMap (fun t => match imgTensor f t.tensor 8 with
    | none => []
    | some d => ((range' 0 (factorBlocks t)).filter (fun b =>
        !jobs.any (fun e => slvTensor e == t.tensor && slvBlock e == b + firstBlock f t))).map (fun b => (t, d, b)))
  let copies : List Carry := (home.zip (range' 0 home.length)).map (fun x =>
    { die := die, c0 := 0, gang := 0, at_ := start + 404 + x.2, addr := s.writeBase x.1.2.1 + 64 * x.1.2.2,
      desc := s.descAt (s.readBase x.1.2.1 + 64 * x.1.2.2), limit := x.1.1.staleLim })
  s.withSolver (fun x => { x with carries := x.carries ++ copies })

/-- The sweep cycle of a die in this tick's round (R479). -/
def State.sweepCycle (s : State) (f : ImageFile) (die : Nat) : Nat :=
  match f.solverJobs.find? (fun j => j.plan == s.fget TICK_PLAN_CUR) with
  | some j => (j.rounds.getD (s.ccr.t % j.rounds.length) ⟨[], [], 0⟩).sweeps.getD die 0
  | none => 0

/-- SOLVER_DATAPATH_FAULT (R266): on a cycle, in a cracker (none: SRAM outside every running job's extent). A corrected
single-bit error is class A and only counts. -/
def State.solverFault (s : State) (die : Nat) (cracker : Option Nat) (corrected : Bool) : State :=
  if corrected then (s.fadd (SLV_CNT4_ECC_CORRECTED.die die) 1).classA
  else
    let s := (s.fadd (SLV_CNT3_DATAPATH_FAULTS.die die) 1).classBSts (16 + die) (SLV_STS_DATAPATH_FAULT.die die)
    let sc := s.scycAt s.now
    match s.image, cracker.bind (fun c => s.slvOn die c) with
    | some f, some j =>
      let endAt := if j.publishes then j.start + j.out.off + 39 else j.deadline
      if sc ≤ endAt then s.slvEnd f j 8 (sc - j.start) else s
    | _, _ => s

/-- PIVOT_LOG_CLEAR: the CLEAR bit empties the log of a die (R269). -/
def State.pivotLogClear (s : State) (die : Nat) : State :=
  let s := (range' 0 16).foldl (fun s i => s.fset ((SLV_PIVOT_LOG.die die).ix i) 0) s
  s.fsetAll [(SLV_PIVOT_PTR_COUNT.die die, 0), (SLV_PIVOT_PTR_LOST.die die, 0)]

end Sys2Proof.Machine
end

