-- ==== Sys2Proof/Machine/Due.lean ====
section
/-! DEFINITION. What comes about as time passes without a command of its own: pod instructions and chain transfers land
(R120, R124, R161), solver jobs reach their events and end without a publish (R243, R247, R262), carries complete (R261),
scheduled writes reach memory (R335), frames their delivery (R372, R374), and tree frames leave (R392, R396).
A command that names a cycle first lets everything due by that cycle happen, in the order of the cycles. -/

namespace Sys2Proof.Machine

/-! ### Scheduled writes (R335, R341, R345) -/

/-- Device virtual address of a granule of a stack (R322, R323). -/
def granuleAddr (stack g : Nat) : Nat := stack * 0x1000000000 + g * 256

/-- Does poison entry `j` of hub `k` hold the granule? -/
def State.poisonIs (s : State) (k stack g j : Nat) : Bool :=
  s.fbit ((HUB_POISON_VALID.die k).ix j) && s.fget ((HUB_POISON_GRANULE.die k).ix j) == g
    && s.fget ((HUB_POISON_STACK.die k).ix j) == stack % 4

/-- The entry that holds a granule. -/
def State.poisonAt (s : State) (stack g : Nat) : Option Nat :=
  (range' 0 256).find? (fun j => s.poisonIs (stack / 4) stack g j)

/-- An entry leaves the table. -/
def State.poisonDrop (s : State) (stack g : Nat) : State :=
  let k := stack / 4
  match s.poisonAt stack g with
  | none => s
  | some j =>
    let s := s.regPut ((HUB_POISON.die k).ix j).base 0
    let s := s.withHub (fun h => { h with hit := h.hit.filter (fun p => p != (stack, g)) })
    s.fset (HUB_POISON_PTR_COUNT.die k) (s.fget (HUB_POISON_PTR_COUNT.die k) - 1)

/-- A scheduled write of a granule takes effect: the granule, and its poison entry goes (R335, R341). Nothing is stored in the
control region, which only the hull writes (R326; DEDUCED: the loader refuses a schedule that would). -/
def State.hubStore (s : State) (stack g : Nat) (data : Granule) : State :=
  if inControlRegion (granuleAddr stack g) 256 then s else (s.wrGranule (granuleAddr stack g) data).poisonDrop stack g

/-- A write that was on its way takes effect. -/
def State.landWrite (s : State) (w : HubWrite) : State :=
  (s.withHub (fun h => { h with writes := h.writes.filter (fun x => x != w) })).hubStore w.stack w.granule w.data

/-- Something that is due on a cycle. -/
inductive Due
  /-- A flight of a tile comes to its end. -/
  | flight (f : Flight)
  /-- An event within a solver job. -/
  | slvEvent (ent : BitVec 1024) (v : SlvEv)
  /-- A solver job ends without a publish, before its deadline, with its cause. -/
  | slvEnd (j : SlvJob) (cause : Nat)
  /-- A carry completes. -/
  | carry (c : Carry)
  /-- A scheduled write reaches memory. -/
  | write (w : HubWrite)
  /-- A received frame has its delivery cycle. -/
  | flit (l : Nat) (x : FlitDue)
  /-- A frame that waits for its retry has its delivery cycle. -/
  | unanswered (l : Nat) (x : LinkWait)
  /-- The module's own frame leaves on the tree. -/
  | tree (x : Nat × TreeSend)
  deriving DecidableEq, Repr

/-- What is still to come of a solver job, in order. -/
def State.jobDues (s : State) (j : SlvJob) : List (Nat × Due) :=
  (j.out.evs.filter (fun v => decide (j.start + v.off ≤ j.deadline))).map (fun v =>
    (s.cycAt (j.start + v.off), Due.slvEvent j.ent v)) ++
  (match j.out.cause with
    | some c => if j.start + j.out.off ≤ j.deadline then [(s.cycAt (j.start + j.out.off), Due.slvEnd j c)] else []
    | none => [])

/-- Everything under way, each with its absolute cycle. -/
def State.dues (s : State) : List (Nat × Due) :=
  s.tiles.flights.map (fun f => (s.flightDue f, Due.flight f)) ++ s.solver.jobs.flatMap (fun j => s.jobDues j) ++
    s.solver.carries.map (fun c => (s.cycAt c.at_, Due.carry c)) ++ s.hub.writes.map (fun w => (w.due, Due.write w)) ++
    ((range' 0 16).zip s.links).flatMap (fun k => k.2.landing.map (fun x => (x.at_, Due.flit k.1 x)) ++
      k.2.waiting.map (fun x => (x.sent + s.lnkHop k.1, Due.unanswered k.1 x))) ++
    s.run.treeDue.map (fun x => (x.1, Due.tree x))

/-- What is due by an absolute cycle. -/
def State.dueBy (s : State) (c : Nat) : List (Nat × Due) := s.dues.filter (fun d => decide (d.1 ≤ c))

/-- The first of the earliest of a list of things due. -/
def firstDue : List (Nat × Due) → Option (Nat × Due)
  | [] => none
  | d :: r => match firstDue r with | some e => if d.1 ≤ e.1 then some d else some e | none => some d

/-- One thing comes about on its cycle. -/
def State.comeAbout (s : State) (d : Nat × Due) : State :=
  let s := s.advance d.1
  match d.2 with
  | .flight f => s.land f
  | .slvEvent e v => s.slvNext e v
  | .slvEnd j cause =>
    match s.image, s.solver.jobs.find? (fun q => q.ent == j.ent) with
    | some f, some q => s.slvEnd f q cause q.out.off
    | _, _ => s.withSolver (fun x => { x with jobs := x.jobs.filter (fun q => q.ent != j.ent) })
  | .carry c => s.landCarry c
  | .write w => s.landWrite w
  | .flit l x => s.landFlit l x
  | .unanswered l x => s.unanswered l x
  | .tree x => s.treeSend x

/-- At most `k` things due by a cycle come about, the earliest first. -/
def State.settle (c : Nat) : Nat → State → State
  | 0, s => s
  | k + 1, s => match firstDue (s.dueBy c) with | some d => State.settle c k (s.comeAbout d) | none => s

/-- Time comes to an absolute cycle: what is due by it happens, a job's end bringing its carry with it, and the clock stands
there. -/
def State.upTo (s : State) (c : Nat) : State := (State.settle c (2 * (s.dueBy c).length) s).advance c

end Sys2Proof.Machine
end

