-- ==== Sys2Proof/Machine/Crackers.lean ====
section
/-! DEFINITION. The meanings of the root solver's commands (08_crackers.md, R239 to R269): each lets what is due by its cycle
come about and does its work there. -/

namespace Sys2Proof.Machine

/-- A solver command of the running step on the job with this index. -/
def State.onJob (s : State) (job : Nat) (f : ImageFile → BitVec 1024 → State) : State :=
  match s.image with
  | some img => if s.run.stepRuns then
      match s.slvFind img job with | some e => f img e | none => s
    else s
  | none => s

/-- SOLVER_DESC_READ. -/
def execSolverDescRead (job : Nat) (s : State) : Host.Outcome State Fault Refusal :=
  .next (s.live (fun s => s.onJob job (fun f e => (s.upTo (s.descReadCycle e)).solverDescRead f e)))

/-- SOLVER_JOB_START: what ends the job on its start edge ends it there. -/
def execSolverJobStart (job : Nat) (s : State) : Host.Outcome State Fault Refusal :=
  .next (s.live (fun s => s.onJob job (fun f e =>
    ((s.upTo (s.startCycle e)).solverStart f e).upTo (s.startCycle e))))

/-- PUBLISH: the job led by cracker `c0` of a die, when its descriptor write is issued before its deadline edge (R263). -/
def execPublish (die c0 : Nat) (s : State) : Host.Outcome State Fault Refusal :=
  .next (s.live (fun s =>
    match s.image, s.slvOn die c0 with
    | some f, some j => if j.publishes then (s.upTo (s.cycAt (j.start + j.out.off + 40))).publish f j else s
    | _, _ => s))

/-- DEADLINE_MISS: the deadline edge arrives before the job has ended (R263); the gang stops on the cycle after it. -/
def execDeadlineMiss (die c0 : Nat) (s : State) : Host.Outcome State Fault Refusal :=
  .next (s.live (fun s =>
    match s.image, s.slvOn die c0 with
    | some f, some j =>
      if j.misses then (s.upTo (s.cycAt (j.deadline + 1))).slvEnd f j 0 (j.deadline - j.start) else s
    | _, _ => s))

/-- CARRY_SWEEP of a solver die. -/
def execCarrySweep (die : Nat) (s : State) : Host.Outcome State Fault Refusal :=
  .next (s.live (fun s =>
    match s.image with
    | some f => if s.run.stepRuns then
        let start := s.scycAt (s.edgeAt + s.sweepCycle f die)
        (s.upTo (s.cycAt start)).carrySweep f die start
      else s
    | none => s))

/-- SOLVER_DATAPATH_FAULT. -/
def execSolverDatapathFault (at_ die : Nat) (cracker : Option Nat) (corrected : Bool) (s : State) :
    Host.Outcome State Fault Refusal :=
  .next (s.live (fun s => if die < 4 then (s.upTo at_).solverFault die cracker corrected else s))

/-- PIVOT_LOG_CLEAR. -/
def execPivotLogClear (die : Nat) (s : State) : Host.Outcome State Fault Refusal :=
  .next (s.live (fun s => if die < 4 then s.pivotLogClear die else s))

end Sys2Proof.Machine
end

