-- ==== Sys2Proof/Machine/Orchard.lean ====
section
/-! DEFINITION. The orchard: its wirings and tree (R384, R385, R389, R391), the job-start conditions (R387), tick markers
(R62 to R64), tree traffic (R392 to R394), abort and capture notices (R410, R517), and the layout switch (R402). -/

namespace Sys2Proof.Machine

/-! ### Wirings -/

def mapWiring (f : ImageFile) : Nat := bvBits f.moduleMapHdr 0 8
def mapSubs (f : ImageFile) : Nat := bvBits f.moduleMapHdr 16 16 + 1
def mapDim (f : ImageFile) (i : Nat) : Nat := bvBits f.moduleMapHdr (32 + 32 * i) 32

/-- The modules of a sub-orchard, in module order (R389). -/
def subModules (f : ImageFile) (sub : Nat) : List Nat :=
  (range' 0 f.modules.length).filter (fun m => modSub (imgModule f m) == sub)

/-- Place of a module within its sub-orchard. -/
def subPlace (f : ImageFile) (m : Nat) : Nat :=
  ((subModules f (modSub (imgModule f m))).filter (fun c => decide (c < m))).length

/-- The far end of a torus link: place and link (R384). -/
def torusPeer (x y z p l : Nat) : Option (Nat × Nat) :=
  let d := l / 4
  let n := if d == 0 then x else if d == 1 then y else z
  let unit := if d == 0 then 1 else if d == 1 then x else x * y
  if 12 ≤ l || n ≤ 1 then none
  else
    let c := p / unit % n
    let up := l % 4 < 2
    let c' := if up then (c + 1) % n else (c + n - 1) % n
    some (p - c * unit + c' * unit, if up then l + 2 else l - 2)

/-- The far end of a port among `n` units of `ports` ports: unit and port (R385). -/
def unitPeer (n ports g j : Nat) : Option (Nat × Nat) :=
  if n ≤ 1 then none
  else
    let q := n - 1
    if ports / q * q ≤ j then none
    else
      let g' := (g + 1 + j % q) % n
      some (g', j / q * q + (g + 2 * n - g' - 1) % n)

/-- The far end of a dragonfly link: place and link (R385). -/
def dragonPeer (g1 g2 p l : Nat) : Option (Nat × Nat) :=
  let a := p % 8
  let g := p / 8 % g1
  let grove := p / (8 * g1)
  if l < 7 then some (p - a + (a + l + 1) % 8, 6 - l)
  else if l < 9 then
    (unitPeer g1 16 g (2 * a + (l - 7))).map (fun u => (8 * g1 * grove + 8 * u.1 + u.2 / 2, 7 + u.2 % 2))
  else
    (unitPeer g2 896 grove (56 * g + 7 * a + (l - 9))).map
      (fun u => (8 * g1 * u.1 + 8 * (u.2 / 56) + u.2 % 56 / 7, 9 + u.2 % 56 % 7))

/-- The module and link at the far end of a module's link under the image's wiring. -/
def linkPeer (f : ImageFile) (m l : Nat) : Option (Nat × Nat) :=
  let p := subPlace f m
  let r := if mapWiring f == 0 then torusPeer (mapDim f 0) (mapDim f 1) (mapDim f 2) p l
    else dragonPeer (mapDim f 0) (mapDim f 1) p l
  r.map (fun u => ((subModules f (modSub (imgModule f m))).getD u.1 0, u.2))

/-! ### The tree (R391) -/

/-- The parent of a module, none on the master or behind a cascade link. -/
def treeParent (f : ImageFile) (m : Nat) : Option (Nat × Nat) :=
  let l := modParentLink (imgModule f m)
  if l == 255 then none else linkPeer f m l

/-- Does link `l` of module `m` lead to a tree child within its sub-orchard? -/
def childLink (f : ImageFile) (m l : Nat) : Bool :=
  match linkPeer f m l with
  | some (c, l') => modParentLink (imgModule f c) == l' && c < f.modules.length
  | none => false

/-- Does link `l` of this module, which the wiring does not use, lead to a sub-master whose parent link is a cascade link: the
module and link that training found there (R376, R389)? -/
def State.cascadeChild (s : State) (f : ImageFile) (l : Nat) : Bool :=
  let m := s.fget HULL_ORCH_MODULE
  let c := s.fget (lnkFld LNK_STATE_NEIGHBOUR l)
  let l' := s.fget (lnkFld LNK_STATE_NEIGHBOUR_LINK l)
  decide (1 < mapSubs f) && (linkPeer f m l).isNone && decide (2 ≤ s.fget (lnkFld LNK_STATE_MODE l)) &&
    decide (c < f.modules.length) && modParentLink (imgModule f c) == l' && (linkPeer f c l').isNone &&
    modSub (imgModule f c) != modSub (imgModule f m)

/-- The sub-masters one hop nearer to the super-master than sub-master `m` (R389): the root of each sub-orchard's tree. -/
def cascadeTops (f : ImageFile) (m : Nat) : List Nat :=
  (range' 0 f.modules.length).filter (fun c => modDepth (imgModule f c) + 1 == modDepth (imgModule f m) &&
    modSub (imgModule f c) != modSub (imgModule f m) && (treeParent f c).isNone)

/-- The parent of a module in the one tree of a cascaded orchard (R389, R391): by the wiring; across a cascade link of this
module, as training found it; and elsewhere one of the sub-masters one hop nearer, which of several the image does not say. -/
def State.treeUp (s : State) (f : ImageFile) (m : Nat) : Option Nat :=
  let up := modParentLink (imgModule f m)
  if up == 255 then none
  else
    match treeParent f m with
    | some p => some p.1
    | none =>
      if m == s.fget HULL_ORCH_MODULE then some (s.fget (lnkFld LNK_STATE_NEIGHBOUR up))
      else if (range' 0 16).any (fun l => s.cascadeChild f l && s.fget (lnkFld LNK_STATE_NEIGHBOUR l) == m) then
        some (s.fget HULL_ORCH_MODULE)
      else
        let l := cascadeTops f m
        l[Config.cascadeUp m % l.length]?

/-- Does the path of parents from `m` reach `c` within `k` hops? -/
def State.reaches (s : State) (f : ImageFile) (c m : Nat) : Nat → Bool
  | 0 => m == c
  | k + 1 => m == c || (match s.treeUp f m with | some p => s.reaches f c p k | none => false)

/-- The size of a module's subtree, cascaded sub-orchards included. -/
def State.subtreeSize (s : State) (f : ImageFile) (c : Nat) : Nat :=
  ((range' 0 f.modules.length).filter (fun m => s.reaches f c m (imgDepth f))).length

/-- PATH of a module: its depth times the hop (R60). -/
def imgPath (f : ImageFile) (m : Nat) : Nat := modDepth (imgModule f m) * imgHop f

/-! ### Job-start conditions (R387) -/

/-- The links that the image uses on a module: its tree links and those of its link schedules. -/
def usedLinks (f : ImageFile) (m : Nat) : List Nat :=
  let cls := modClass (imgModule f m)
  (range' 0 16).filter (fun l =>
    modParentLink (imgModule f m) == l || childLink f m l ||
    f.linkScheds.any (fun c => c.cls == cls && c.die == l / 4 &&
      c.words.any (fun w => getBits w.toNat 0 4 != 0 && getBits w.toNat 4 2 == l % 4)) ||
    f.linkScheds.any (fun c => c.cls == cls && c.words.any (fun w => getBits w.toNat 0 4 == 2 && getBits w.toNat 124 4 == l)))

/-- Does a link lead where the wiring says? Cascade joins and the extra routes of links 12 to 15 are not checked. -/
def State.linkLeads (s : State) (f : ImageFile) (m l : Nat) : Bool :=
  match linkPeer f m l with
  | some (c, l') => s.fget (lnkFld LNK_STATE_NEIGHBOUR l) == c && s.fget (lnkFld LNK_STATE_NEIGHBOUR_LINK l) == l'
  | none => decide (12 ≤ l) || mapSubs f != 1

/-- Does every commit window of the image have its minimum (R35, R395)? -/
def windowsOk (f : ImageFile) : Bool :=
  f.plans.all (fun p => match p with
    | some p => decide (planFenceOf p 3 + imgCommitMin f ≤ planPeriod p)
    | none => true)

/-- The first condition of R387 that fails, 0 when all hold. -/
def State.jobRefusal (s : State) (f : ImageFile) : Nat :=
  let m := s.fget HULL_ORCH_MODULE
  let used := usedLinks f m
  if s.fget HULL_ORCH_SIZE != imgOrchard f || imgOrchard f ≤ m then 1
  else if !used.all (fun l => decide (2 ≤ s.fget (lnkFld LNK_STATE_MODE l)) && s.fget (lnkFld LNK_STATE_LEGACY l) == mapRate f) then 2
  else if !used.all (fun l => s.linkLeads f m l) then 3
  else if !used.all (fun l => decide (s.fget (lnkFld LNK_STATE_PROP l) ≤ 160)) then 4
  else if m != imgMaster f && !s.fbit TICK_CLKSRC_LOCKED then 5
  else if limLead f < imgPath f m + 1024 then 6
  else if !windowsOk f then 7
  else 0

/-- A refused job start: its code, status and, for code 3, the links that lead elsewhere. -/
def State.jobRefused (s : State) (f : ImageFile) (code : Nat) : State :=
  let m := s.fget HULL_ORCH_MODULE
  let s := (s.fset HULL_ORCH_REFUSE code).setSts 0 HULL_ORCH_STS_JOB_REFUSED
  if code == 3 then
    ((usedLinks f m).filter (fun l => !s.linkLeads f m l)).foldl (fun s l =>
      (s.setSts (12 + l / 4) (LNK_STS_NEIGHBOUR_MISMATCH.die (l / 4))).record (LNK_ERR_FIRST_VALID.die (l / 4))
        [(LNK_ERR_FIRST_LINK.die (l / 4), l % 4), (LNK_ERR_FIRST_CAUSE.die (l / 4), 5), (LNK_ERR_FIRST_SLOT.die (l / 4), 0),
         (LNK_ERR_FIRST_KIND.die (l / 4), 0), (LNK_ERR_FIRST_TICK.die (l / 4), s.tickCount)]) s
  else s

/-- The registers that an accepted job start sets: role, depth, lead, path, tree links (R391, R61, R60). -/
def State.orchStart (s : State) (f : ImageFile) : State :=
  let m := s.fget HULL_ORCH_MODULE
  let w := imgModule f m
  let master := m == imgMaster f
  let sub := decide (1 < mapSubs f) &&
    (modParentLink w == 255 || (treeParent f m).isNone || (treeParent f m).any (fun p => modSub (imgModule f p.1) != modSub w))
  let s := s.fsetAll [(HULL_ORCH_MASTER, master.toNat), (HULL_ORCH_SUBMASTER, sub.toNat), (HULL_ORCH_DEPTH, imgDepth f),
    (HULL_ORCH_REFUSE, 0), (TICK_LEAD_LEAD, limLead f), (TICK_LEAD_PATH, imgPath f m), (TICK_LEAD_MASTER, master.toNat),
    (HULL_SLOW_LEND_LENDER, modRole w)]
  (range' 0 16).foldl (fun s l =>
    (s.fset (lnkFld LNK_STATE_TREE_PARENT l) (modParentLink w == l).toNat).fset (lnkFld LNK_STATE_TREE_CHILD l)
      (childLink f m l || s.cascadeChild f l).toNat) s

/-! ### Markers (R62 to R64) -/

/-- The edge that the module predicts from its own count (R63). -/
def State.predictedEdge (s : State) : Nat := s.edgeAt + s.fget TICK_PERIOD_PERIOD

/-- The master sends the marker on its cycle TICK_PERIOD − LEAD. -/
def State.markerSend (s : State) : State :=
  if s.run.active && s.fbit HULL_ORCH_MASTER then
    let c := s.predictedEdge - s.fget TICK_LEAD_LEAD
    (s.upTo c).sendFrames s.childLinks c 3 (packFlit [(8, s.tickCount + 1)])
  else s

/-- MARKER_SEND. -/
def execMarkerSend (s : State) : Host.Outcome State Fault Refusal := .next (s.live (fun s => s.markerSend))

/-- A marker for the next tick arrives on absolute cycle `c` (R62, R63). -/
def State.marker (s : State) (c tick : Nat) : State :=
  if s.run.active && !s.fbit HULL_ORCH_MASTER && tick == s.tickCount + 1 && s.job.markerEdge.isNone then
    let s := (s.upTo c).sendFrames s.childLinks c 3 (packFlit [(8, tick)])
    let e := c + s.fget TICK_LEAD_LEAD - s.fget TICK_LEAD_PATH
    let p := s.predictedEdge
    let s := s.withJob (fun j => { j with markerEdge := some e, markersLost := 0 })
    if 2 ≤ (e - p) + (p - e) then (s.fadd TICK_ALIGN_ALIGN_FAULTS 1).classBSts 1 TICK_STS_ALIGN_FAULT else s
  else s

/-- MARKER. -/
def execMarker (at_ tick : Nat) (s : State) : Host.Outcome State Fault Refusal :=
  .next (s.live (fun s => s.marker at_ tick))

/-- No marker has arrived by the predicted edge (R64); once for an edge. -/
def State.markerMissed (s : State) : State :=
  if s.run.active && !s.fbit HULL_ORCH_MASTER && s.job.markerEdge.isNone && !s.job.lostAtEdge then
    let s := s.upTo s.predictedEdge
    let n := s.job.markersLost + 1
    let s := s.withJob (fun j => { j with lostAtEdge := true, markersLost := n })
    let s := s.fadd TICK_ALIGN_MARKERS_LOST 1
    if 2 ≤ n then s.classCWith 1 TICK_STS_MARKER_LOST 3 0
    else ((s.setSts 1 TICK_STS_MARKER_LOST).traceAB 1 1 TICK_STS_MARKER_LOST).capFault 1
  else s

/-- MARKER_LOST. -/
def execMarkerLost (s : State) : Host.Outcome State Fault Refusal := .next (s.live (fun s => s.markerMissed))

/-! ### Health and token on the tree (R393, R394) -/

/-- The child at the far end of a link: the wiring's, or across a cascade the neighbour that training found. -/
def State.childAt (s : State) (f : ImageFile) (l : Nat) : Nat :=
  match linkPeer f (s.fget HULL_ORCH_MODULE) l with
  | some (c, _) => c
  | none => s.fget (lnkFld LNK_STATE_NEIGHBOUR l)

/-- HEALTH_RECORD: a child's record, none when its frame is lost (R393). -/
def execHealthRecord (at_ link : Nat) (r : Option HealthRec) (s : State) : Host.Outcome State Fault Refusal :=
  .next (s.live (fun s =>
    match s.image with
    | none => s
    | some f =>
      if s.run.active && !s.reloading && !s.job.childrenSeen.contains link then
        let s := s.upTo at_
        let h := s.childHealth (s.subtreeSize f (s.childAt f link)) r
        let d := match r with | some r => r.tShadow != s.ccr.t | none => false
        s.withJob (fun j => { j with health := h, childrenSeen := link :: j.childrenSeen, tDiff := j.tDiff || d })
      else s))

/-- A token with its copy as a flit: 32 B each (R304, R394). -/
def tokenFlit (k copy : BitVec 256) : Nat := packFlit [(32, k.toNat), (32, copy.toNat)]

/-- A capture notice as a flit (R517). -/
def captureFlit (tick cycle : Nat) : Nat := packFlit [(8, tick), (8, cycle)]

/-- The capture notice that the master holds to send goes out in the first tree slot after a cycle, in the tick before the one that
it names (R517). -/
def State.noticeAfter (s : State) (f : ImageFile) (c : Nat) : State :=
  match s.job.captureOut with
  | some (tick, cycle) =>
    if tick == s.tickCount + 1 then
      (s.withJob (fun j => { j with captureOut := none })).sendFrames s.childLinks (s.treeCycle f (c + 1)) 2 (captureFlit tick cycle)
    else s
  | none => s

/-- The token of the closing tick at this module: the master decides and sends it in the first tree slot from then on, any other
module checks the frame that it was given and forwards it (R394, R65). DESIGN CHOICE (R65 does not say what stands for the copy
when no token was sent in the tick before): a copy of zeros, which is no token. -/
def State.commitToken (s : State) (f : ImageFile) (c : Nat) (frame : Option (BitVec 256 × BitVec 256)) : State :=
  if s.job.token.isSome then s
  else if s.fbit HULL_ORCH_MASTER then
    let s := s.upTo c
    let k := s.masterToken f
    let copy := match s.job.lastToken with | some q => if tokTick q + 1 == s.tickCount then some q else none | none => none
    let c' := s.treeCycle f c
    let s := ((s.decisionSts f k).sendFrames s.childLinks c' 2 (tokenFlit k (copy.getD 0))).noticeAfter f c'
    s.holdToken f k copy
  else
    match frame with
    | none => s.upTo c
    | some (k, copy) =>
      let s := (s.upTo c).sendFrames s.childLinks c 2 (tokenFlit k copy)
      if tokTick k == s.tickCount then s.holdToken f k (if copy == 0 then none else some copy) else s

/-- COMMIT_TOKEN: `frame` is the delivered token and its copy, none when the frame is lost; the master forms its own. -/
def execCommitToken (at_ : Nat) (frame : Option (BitVec 256 × BitVec 256)) (s : State) :
    Host.Outcome State Fault Refusal :=
  .next (s.live (fun s =>
    match s.image with
    | some f => if s.run.active && !s.reloading then s.commitToken f at_ frame else s
    | none => s))

/-! ### Notices (R410, R517) -/

/-- ABORT_NOTICE: another module's notice arrives on a link. -/
def execAbortNotice (at_ link origin cause : Nat) (s : State) : Host.Outcome State Fault Refusal :=
  .next (s.live (fun s =>
    if s.run.active then
      let s := (s.upTo at_).setSts (12 + link % 16 / 4) (LNK_STS_ABORT_SEEN.die (link % 16 / 4))
      if s.job.aborting.isSome then s
      else
        let s := s.withJob (fun j => { j with aborting := some (origin, cause) })
        (s.setSts 0 HULL_ORCH_STS_ABORT_RECEIVED).sendNotice at_ origin cause
    else s))

/-- Hold a capture notice for a coming tick (R517). -/
def State.holdNotice (s : State) (tick cycle : Nat) : State :=
  if s.fbit HULL_CAPTURE_CFG_ORCH_EN then
    (s.withJob (fun j => { j with captureAt := some (tick, cycle) })).fset HULL_CAPTURE_ID_ARMED_ORCH 1
  else s

/-- CAPTURE_NOTICE: the notice is held and forwarded. -/
def execCaptureNotice (at_ tick cycle : Nat) (s : State) : Host.Outcome State Fault Refusal :=
  .next (s.live (fun s =>
    if s.run.active then
      let s := s.upTo at_
      (s.sendFrames s.childLinks at_ 2 (captureFlit tick cycle)).holdNotice tick cycle
    else s))

/-- A write of SEND (R517): ignored off the master; refused for a tick too near or a cycle beyond some plan's period. -/
def State.captureSend (s : State) : State :=
  if s.fbit HULL_ORCH_MASTER && s.job.ctx.isSome then
    let tick := s.fget HULL_CAPTURE_AT0_TICK
    let cycle := s.fget HULL_CAPTURE_AT1_CYCLE
    let below := match s.image with
      | some f => f.plans.all (fun p => match p with | some p => decide (cycle < planPeriod p) | none => true)
      | none => false
    if s.tickCount + 2 ≤ tick && below then
      (s.withJob (fun j => { j with captureOut := some (tick, cycle) })).holdNotice tick cycle
    else s.setSts 0 HULL_FAULT_STS_CAPTURE_REJECT
  else s

/-! ### Layouts (R33, R400 to R402, R478) -/

/-- The degree between modules of axis `a` of a layout entry: 0 D, 1 T, 2 P, 3 S, 4 E. -/
def layDegree (l : BitVec 768) (a : Nat) : Nat := bvBits l (32 * a) 32

/-- The axes of a layout entry, fastest first. -/
def layOrder (l : BitVec 768) : List Nat := (range' 0 5).map (fun i => bvBits l (160 + 8 * i) 8)

/-- The STEP modules in increasing module number: lenders are skipped (R401). -/
def stepModules (f : ImageFile) : List Nat :=
  (range' 0 f.modules.length).filter (fun m => modRole (imgModule f m) == 0)

/-- The rank of a STEP module (R401). -/
def stepRank (f : ImageFile) (m : Nat) : Nat := ((stepModules f).filter (fun c => decide (c < m))).length

/-- The coordinate of rank `q` on axis `a`, by mixed radix in the layout's axis order (R401). -/
def layCoord (l : BitVec 768) (q a : Nat) : Nat :=
  q / (((layOrder l).takeWhile (fun b => b != a)).foldl (fun u b => u * layDegree l b) 1) % layDegree l a

/-- The data index of a STEP module under a layout of the image: its D coordinate (R401). -/
def dataIndex (f : ImageFile) (lay m : Nat) : Nat := layCoord (f.layouts.getD lay 0) (stepRank f m) 0

/-- The module that computes part `j` of a reduction plan. -/
def partModule (p : RedPlanImg) (j : Nat) : Nat := bvBits (p.parts.getD j 0) 0 32

/-- Is a reduction plan the relay of R408 under a layout: a MAIN plan over the D axis whose part i is the module that lies
i + 1 places after the owner, the module of the last part? -/
def isRelay (f : ImageFile) (lay : Nat) (p : RedPlanImg) : Bool :=
  let d := layDegree (f.layouts.getD lay 0) 0
  let o := dataIndex f lay (partModule p (d - 1))
  bvBits p.ent 16 8 == 0 && decide (1 < d) && p.parts.length == d &&
    (range' 0 d).all (fun j => dataIndex f lay (partModule p j) == (o + 1 + j) % d)

/-- The part that this module holds of a relay plan, none for any other plan (R408). -/
def State.relayPart (s : State) (f : ImageFile) (p : RedPlanImg) : Option Nat :=
  if isRelay f s.job.layout p then
    (range' 0 p.parts.length).find? (fun j => partModule p j == s.fget HULL_ORCH_MODULE)
  else none

/-- The layout index of a phase of a plan: its closing fence carries it. -/
def phaseLayout (p : PlanImg) (i : Nat) : Nat := fenceLayout ((planFences p).getD i 0)

/-- The first cycle of a phase. -/
def phaseStart (p : PlanImg) : Nat → Nat
  | 0 => 0
  | i + 1 => fenceOff ((planFences p).getD i 0)

/-- LAYOUT_SWITCH at the start of phase `phase`: 4,096 cyc when its layout differs from the one in force (R402). -/
def execLayoutSwitch (phase : Nat) (s : State) : Host.Outcome State Fault Refusal :=
  .next (s.live (fun s =>
    match s.curPlan with
    | none => s
    | some p =>
      if s.run.active && phase < planNfence p && phaseLayout p phase != s.job.layout then
        let s := s.upTo (s.edgeAt + phaseStart p phase + 4096)
        let l := phaseLayout p phase
        (s.withJob (fun j => { j with layout := l })).fset HULL_ORCH_LAYOUT l
      else s))

end Sys2Proof.Machine
end

