-- ==== Sys2Proof/Machine/Hub.lean ====
section
/-! DEFINITION. The memory side: scheduled reads and writes with their retry slots (R334 to R338), ECC, poison and scrub
(R339 to R346), lanes (R347 to R351), atomic adds (R152 to R155) and refresh windows (R330). -/

namespace Sys2Proof.Machine

/-! ### Places -/

/-- Granules of a stack (R327). -/
def stackGranules : Nat := 201326592

/-- Channel of a granule (R328). -/
def granCh (g : Nat) : Nat := g % 32
/-- Pseudo-channel number within the stack: 2 · channel + pseudo-channel (R328, R332). -/
def granPch (g : Nat) : Nat := 2 * (g % 32) + g / 32 % 2
/-- The fault page of a stack's hub. -/
def hubPage (stack : Nat) : Nat := 8 + stack / 4

/-! ### The hub command schedules (R329 to R332) -/

def hOp (w : Word256) : Nat := wbits w 0 4
def hStack (w : Word256) : Nat := wbits w 4 2
def hCycle (w : Word256) : Nat := wbits w 8 40
def hGran (w : Word256) : Nat := wbits w 48 28
def hCount (w : Word256) : Nat := wbits w 76 20 + 1
def hStride (w : Word256) : Nat := wbits w 96 8
def hPlan (w : Word256) : Nat := wbits w 112 12
def hFence (w : Word256) : Nat := wbits w 124 4
def hPch (w : Word256) : Nat := wbits w 144 64

/-- Is the entry a granule access (READ or WRITE)? -/
def hAccess (w : Word256) : Bool := hOp w == 1 || hOp w == 2

/-- The fabric port of an access entry's requester (R332). -/
def hPort (w : Word256) : Nat := wbits w 104 8

/-- The granules of an entry with their cycles. -/
def hGrans (w : Word256) : List (Nat × Nat) :=
  (range' 0 (hCount w)).map (fun k => (hGran w + k, hCycle w + k * hStride w))

/-- Command slots that an access entry takes: stack, pseudo-channel and slot number counted from the tick edge. -/
def hSlots (w : Word256) : List (Nat × Nat × Nat) :=
  (hGrans w).map (fun g => (hStack w, granPch g.1, (g.2 + 48) / 16))

/-- Slots that a window entry takes. -/
def hTakes (w : Word256) (slot : Nat × Nat × Nat) : Bool :=
  4 ≤ hOp w && hOp w ≤ 7 && hStack w == slot.1 && getBits (hPch w) slot.2.1 1 == 1 &&
  decide (hCycle w / 128 ≤ slot.2.2 / 8) && decide (slot.2.2 / 8 < hCycle w / 128 + hCount w)

/-- Arrivals of an ADD entry: stack, granule and landing cycle. -/
def hAdds (w : Word256) : List (Nat × Nat × Nat) :=
  if hOp w == 3 then (hGrans w).map (fun g => (hStack w, g.1, g.2)) else []

/-- The command slots that an entry takes. DEDUCED (R156 counts an atomic add against the command schedule and gives its
slots no place): an arrival on cycle `a` reads its chunk as a read issued on `a` does, and writes it as late as a write that
is visible on a + 496 does. -/
def hCommands (w : Word256) : List (Nat × Nat × Nat) :=
  if hAccess w then hSlots w
  else (hAdds w).flatMap (fun a => [(a.1, granPch a.2.1, (a.2.2 + 48) / 16), (a.1, granPch a.2.1, (a.2.2 + 288) / 16)])

/-- Is a slot, counted from the tick edge, the retry slot of its window or one of a refresh window (R329, R330)? -/
def slotReserved (k : Nat) : Bool := k % 8 == 7 || k / 8 % 15 == 14

/-- Does a cycle lie in a phase flagged SLACK? -/
def inSlack (p : PlanImg) (c : Nat) : Bool :=
  match (planFences p)[planPhaseAt p c]? with | some w => fenceSlack w | none => false

/-- The first MCLK edge at or after a cycle: hub work starts there. MCLK is half of CCLK, and its edges count from the
job's first tick edge (R26 to R28). -/
def State.mclkAt (s : State) (c : Nat) : Nat := c + (c - s.job.firstEdge) % 2

/-- The schedule of a stack under the running plan, before its END. -/
def State.stackSched (s : State) (stack : Nat) : List Word256 :=
  match s.image with
  | none => []
  | some f =>
    (((f.hubScheds.filter (fun h => h.cls == modClass (imgModule f (s.fget HULL_ORCH_MODULE)) && h.hub == stack / 4 &&
      h.plan == s.fget TICK_PLAN_CUR)).flatMap (fun h => h.words.takeWhile (fun w => hOp w != 0)))).filter
        (fun w => hStack w == stack % 4)

/-- The slot number, counted from the tick edge, in which an absolute cycle lies (R329). -/
def State.hubSlot (s : State) (c : Nat) : Nat := (c - s.edgeAt) / 16

/-- Is a slot an access slot: one of slots 0 to 6 of a whole window that is no refresh window (R329, R330, R344)? -/
def State.accessSlot (s : State) (k : Nat) : Bool :=
  decide (k % 8 < 7) && k / 8 % 15 != 14 && decide ((k / 8 + 1) * 128 ≤ s.fget TICK_PERIOD_PERIOD)

/-- Does a window entry with op `op` take a slot of a stack's pseudo-channel? -/
def State.inWindow (s : State) (op stack pch k : Nat) : Bool :=
  (s.stackSched stack).any (fun w => hOp w == op && hTakes w (stack % 4, pch, k))

/-- Does an entry of the schedule take a slot: a granule access or an atomic add's commands, or a window for other work than
background work? -/
def State.slotTaken (s : State) (stack pch k : Nat) : Bool :=
  (s.stackSched stack).any (fun w => (hOp w ≤ 3 && (hCommands w).contains (stack % 4, pch, k)) ||
    (hOp w != 5 && hTakes w (stack % 4, pch, k)))

/-- May a slot of a pseudo-channel carry background work (R344): in a BACKGROUND window, a SLACK phase or a tick that is no
STEP tick, in an access slot that nothing takes? -/
def State.backgroundSlot (s : State) (stack pch c : Nat) : Bool :=
  let k := s.hubSlot c
  s.accessSlot k && !s.slotTaken stack pch k &&
    (s.fget TICK_PLAN_CUR_KIND != 0 || s.inWindow 5 stack pch k ||
      (match s.curPlan with | some p => inSlack p (c - s.edgeAt) | none => false))

/-! ### Register places -/

/-- A hub register field of a stack's channel. -/
def chanFld (f : Fld) (stack g : Nat) : Fld := (f.die (stack / 4)).ix (32 * (stack % 4) + granCh g)

/-- Does a stack and granule name memory? -/
def granOk (stack g : Nat) : Bool := decide (stack < 16) && decide (g < stackGranules)

/-- The first memory error, taken while both VALID bits are 0 (R365). -/
def State.hubFirst (s : State) (stack g cause : Nat) : State :=
  let k := stack / 4
  if s.fbit (HUB_ERR_FIRST_VALID.die k) || s.fbit (HUB_ERR_ADDR_VALID.die k) then s
  else s.fsetAll [(HUB_ERR_FIRST_STACK.die k, stack % 4), (HUB_ERR_FIRST_CHANNEL.die k, granCh g),
    (HUB_ERR_FIRST_PCH.die k, granPch g % 2), (HUB_ERR_FIRST_CAUSE.die k, cause),
    (HUB_ERR_FIRST_TICK.die k, s.tickCount), (HUB_ERR_FIRST_VALID.die k, 1),
    (HUB_ERR_ADDR_GRANULE.die k, if cause == 5 || cause == 6 then 0 else g), (HUB_ERR_ADDR_VALID.die k, 1)]

/-! ### Poison (R341 to R343) -/

/-- A granule enters the poison table; a full table records nothing and raises class C (R341, R343). -/
def State.poisonAdd (s : State) (stack g : Nat) : State :=
  let k := stack / 4
  if (s.poisonAt stack g).isSome then s
  else
    match (range' 0 256).find? (fun j => !s.fbit ((HUB_POISON_VALID.die k).ix j)) with
    | none => s.classC (8 + k) (HUB_STS_POISON_FULL.die k)
    | some j =>
      (s.fsetAll [((HUB_POISON_GRANULE.die k).ix j, g), ((HUB_POISON_STACK.die k).ix j, stack % 4),
        ((HUB_POISON_PERSISTENT.die k).ix j, 0), ((HUB_POISON_VALID.die k).ix j, 1)]).fset
        (HUB_POISON_PTR_COUNT.die k) (s.fget (HUB_POISON_PTR_COUNT.die k) + 1)

/-- A poisoned granule causes a class B fault; the second time makes the entry persistent (R342). -/
def State.poisonHit (s : State) (stack g : Nat) : State :=
  let k := stack / 4
  match s.poisonAt stack g with
  | none => s
  | some j =>
    if s.hub.hit.contains (stack, g) then
      (s.fset ((HUB_POISON_PERSISTENT.die k).ix j) 1).classC (8 + k) (HUB_STS_PERSISTENT_UE.die k) |>.hubFirst stack g 3
    else s.withHub (fun h => { h with hit := (stack, g) :: h.hit })

/-- The contents of a granule are no longer known: a free value. -/
def State.granuleLost (s : State) (stack g : Nat) : State :=
  (s.wrGranule (granuleAddr stack g) (BitVec.ofNat 2048 s.freeVal)).drawn

/-! ### Lanes (R347 to R350) -/

/-- The key of a lane position: stack, channel, and the lane with command-address lanes from 256 on. -/
def laneKey (stack ch lane : Nat) : Nat := stack * 2 ^ 20 + ch * 2 ^ 12 + lane

/-- The spares of a lane's kind that its channel has free (R347): of the 4 data spares, or the one command-address spare, those
that serve no position and that no waiting change takes; and after them the lanes that the bench function returned and whose
positions a spare still serves (R588), numbered from 4 by their position. -/
def State.sparesFree (s : State) (stack ch lane : Nat) : List Nat :=
  let ca := decide (256 ≤ lane)
  let same (key : Nat) : Bool := key / 2 ^ 12 == laneKey stack ch 0 / 2 ^ 12 && decide (256 ≤ key % 2 ^ 12) == ca
  let taken := (s.hub.laneMap ++ s.hub.swaps).filter (fun p => same p.1 && p.2 != 255)
  let back := (s.hub.laneMap.filter (fun p => same p.1 && !s.hub.laneBad.contains p.1)).map (fun p => 4 + p.1 % 2 ^ 12)
  ((range' 0 (if ca then 1 else 4)) ++ back).filter (fun i => !taken.any (fun p => p.2 == i))

/-- A lane has its sixteenth error: a spare takes its place at the next edge, or the channel is exhausted (R349, R350). -/
def State.laneRetire (s : State) (stack g lane : Nat) : State :=
  let k := stack / 4
  let key := laneKey stack (granCh g) lane
  match s.sparesFree stack (granCh g) lane with
  | spare :: _ =>
    let s := s.withHub (fun h => { h with swaps := h.swaps ++ [(key, spare)], laneBad := h.laneBad ++ [key] })
    ((s.fadd (HUB_CNT_LANES_RETIRED.die k) 1).setSts (8 + k) (HUB_STS_LANE_RETIRED.die k)).hubFirst stack g 5
  | [] =>
    let s := s.withHub (fun h => { h with swaps := h.swaps ++ [(key, 255)] })
    ((s.fset (chanFld HUB_LANE_EXHAUSTED stack g) 1).classC (8 + k) (HUB_STS_LANE_EXHAUSTED.die k)).hubFirst stack g 6

/-- An error is attributed to a lane: 16 within 2^20 windows retire it (R349). -/
def State.laneError (s : State) (stack g : Nat) (lane : Option Nat) : State :=
  match lane with
  | none => s
  | some l =>
    let key := laneKey stack (granCh g) l
    let w := s.now / 128
    let l' := w :: ((assocGet s.hub.laneErr key).getD []).filter (fun v => decide (w < v + 2 ^ 20))
    let rest := s.hub.laneErr.filter (fun e => e.1 != key)
    if 16 ≤ l'.length then (s.withHub (fun h => { h with laneErr := rest })).laneRetire stack g l
    else s.withHub (fun h => { h with laneErr := (key, l') :: rest })

/-- The lane changes that wait for the edge take effect (R349, R351, R520). -/
def State.hubSwaps (s : State) : State :=
  let swaps := s.hub.swaps
  let s := s.withHub (fun h => { h with swaps := [] })
  swaps.foldl (fun s p =>
    let stack := p.1 / 2 ^ 20
    let ch := p.1 / 2 ^ 12 % 2 ^ 8
    let k := stack / 4
    let ca := decide (256 ≤ p.1 % 2 ^ 12)
    let s := if p.2 == 255 then s
      else
        let s := s.withHub (fun h => { h with laneMap := assocPut h.laneMap p.1 p.2, laneDirty := true })
        if ca then s.fset (chanFld HUB_LANE_CA_SPARE stack ch) 1
        else s.fset (chanFld HUB_LANE_DATA_SPARES stack ch) (s.fget (chanFld HUB_LANE_DATA_SPARES stack ch) + 1)
    if s.fbit HULL_CAPTURE_CFG_TRACE_SUBST then
      s.trace 0x82 s.evCtx (2 ^ 48 + k * 2 ^ 50 + (32 * (stack % 4) + ch) * 2 ^ 53 + (p.2 == 255).toNat * 2 ^ 62)
    else s) s

/-! ### ECC (R339, R340) -/

/-- The bits that differ in symbol `k` of codeword `w` of an attempt. -/
def symErr (a : Attempt) (w k : Nat) : Nat :=
  (a.errs.flatMap (fun e => if e.word == w then e.syms else [])).foldl
    (fun x p => if p.1 == k then Nat.xor x (p.2 % 65536) else x) 0

/-- The symbols of a codeword that are hit: its data have 32, its check bits 4. -/
def symsHit (a : Attempt) (w : Nat) : Nat := ((range' 0 36).filter (fun k => symErr a w k != 0)).length

/-- A codeword that the code corrects: its error lies in one symbol (R339). -/
def eccFixes (a : Attempt) (w : Nat) : Bool := symsHit a w == 1

/-- A codeword whose error the code detects: one in two symbols, and one in more that it does not miss (R339). -/
def eccFails (a : Attempt) (w : Nat) : Bool :=
  symsHit a w == 2 || (decide (2 < symsHit a w) && !a.errs.any (fun e => e.word == w && e.missed))

/-- Codewords of a granule that an attempt corrects. -/
def attCorrected (a : Attempt) : Nat := ((range' 0 4).filter (eccFixes a)).length

/-- Does an attempt find an uncorrectable codeword? -/
def attUe (a : Attempt) : Bool := (range' 0 4).any (eccFails a)

/-- Does a read's attempt fail its check (R336)? -/
def attFails (a : Attempt) : Bool := a.parity || attUe a

/-- What an attempt reads of a granule's contents, after any correction that the code allows: one symbol's error is put right,
an error in more stays (R338, R339). -/
def attData (a : Attempt) (g : Granule) : Granule :=
  (range' 0 4).foldl (fun g w =>
    if symsHit a w < 2 then g
    else (range' 0 32).foldl (fun (g : Granule) k => g ^^^ BitVec.ofNat 2048 (symErr a w k * 2 ^ (512 * w + 16 * k))) g) g

/-- A correction is counted, attributed and queued for scrub (R340). -/
def State.eccCorrected (s : State) (stack g words : Nat) (lane : Option Nat) (queue : Bool) : State :=
  let k := stack / 4
  let s := (s.fadd (chanFld HUB_ECC_CORRECTED stack g) words).laneError stack g lane
  if !queue || s.hub.corrQ.contains (stack, g) then s
  else if (s.hub.corrQ.filter (fun p => p.1 == stack)).length < 64 then
    s.withHub (fun h => { h with corrQ := h.corrQ ++ [(stack, g)] })
  else s.setSts (8 + k) (HUB_STS_CQ_OVERFLOW.die k)

/-- A first attempt that failed its check is counted, before any retry (R365), and attributed. -/
def State.eccFailed (s : State) (stack g : Nat) (ue : Bool) (lane : Option Nat) : State :=
  let s := if ue then s.fadd (chanFld HUB_ECC_UNCORRECTABLE stack g) 1 else s
  s.laneError stack g lane

/-! ### Reads and writes (R334 to R338) -/

/-- The fabric port to which the schedule sends a granule read on an absolute cycle (R332). -/
def State.readPort (s : State) (stack g c : Nat) : Nat :=
  match (s.stackSched stack).find? (fun w => hOp w == 1 && (hGrans w).contains (g, c - s.edgeAt)) with
  | some w => hPort w
  | none => 0

/-- The read's granule reaches its destination port on c + 484 with the given data (R334). DESIGN CHOICE: a read that the
schedule does not hold goes to port 0. -/
def State.deliver (s : State) (stack g c : Nat) (data : Granule) : State :=
  s.emit (.msg "HUB_DELIVER" [stack, g, c + 484, data.toNat, s.readPort stack g c])

/-- The granule that memory holds. -/
def State.granule (s : State) (stack g : Nat) : Granule := s.rdGranule (granuleAddr stack g)

/-- A read overruns (R337, R338, R341), with what its last attempt read: class B; an uncorrectable one poisons the granule, and
that entry has caused a class B fault once. -/
def State.readOverrun (s : State) (stack g c : Nat) (a : Attempt) : State :=
  let k := stack / 4
  let s := s.fadd (HUB_CNT_OVERRUNS.die k) 1
  let s := if attUe a then (s.poisonAdd stack g).poisonHit stack g else s
  let s := (s.hubFirst stack g 0).classBSts (8 + k) (HUB_STS_RETRY_OVERRUN.die k)
  s.deliver stack g c (attData a (s.granule stack g))

/-- A write overruns (R337, R338, R341): class B, and its granule is poisoned with undefined contents. -/
def State.writeOverrun (s : State) (stack g : Nat) : State :=
  let k := stack / 4
  let s := (s.fadd (HUB_CNT_OVERRUNS.die k) 1).hubFirst stack g 1
  ((s.classBSts (8 + k) (HUB_STS_WRITE_OVERRUN.die k)).poisonAdd stack g).granuleLost stack g

/-- A write that is issued takes the granule out of the correction queues (R345). -/
def State.unqueue (s : State) (stack g : Nat) : State :=
  let keep := fun (p : Nat × Nat) => p != (stack, g)
  s.withHub (fun h => { h with corrQ := h.corrQ.filter keep, scrubQ := h.scrubQ.filter keep })

/-- A first attempt fails: it claims the retry slot of the next window, or overruns when that is taken (R336, R337). -/
def State.claimRetry (s : State) (stack g c : Nat) (write : Option Granule) (a : Attempt) : State :=
  let w := (c + 48 - s.edgeAt) / 128
  if s.hub.retry.any (fun r => r.stack == stack && r.pch == granPch g && r.window == w) then
    if write.isSome then s.writeOverrun stack g else s.readOverrun stack g c a
  else
    let r : RetryEnt := { stack := stack, pch := granPch g, window := w, granule := g, issued := c, write := write }
    s.withHub (fun h => { h with retry := h.retry ++ [r] })

/-- A read delivers what a successful attempt read, with a correction counted and queued (R334, R340). -/
def State.readData (s : State) (stack g c : Nat) (a : Attempt) : State :=
  let n := attCorrected a
  let s := if n == 0 then s else s.eccCorrected stack g n a.lane true
  s.deliver stack g c (attData a (s.granule stack g))

/-- A scheduled read of a granule issued on cycle `c` (R334, R340, R342). -/
def State.hubRead (s : State) (stack g c : Nat) (a : Attempt) : State :=
  let s := s.upTo c
  let k := stack / 4
  if (s.poisonAt stack g).isSome then
    let s := (s.fadd (HUB_CNT_POISON_READS.die k) 1).poisonHit stack g
    ((s.classBSts (8 + k) (HUB_STS_POISON_READ.die k)).hubFirst stack g 2).deliver stack g c (attData a (s.granule stack g))
  else if attFails a then (s.eccFailed stack g (attUe a) a.lane).claimRetry stack g c none a
  else s.readData stack g c a

/-- A scheduled write of a granule issued on cycle `c` (R335, R336): it stands in memory for reads issued on c + 256 or later, and
is complete then for what reads it as a part slot or a spill (R158, R162). -/
def State.hubWrite (s : State) (stack g c : Nat) (data : Granule) (a : Attempt) : State :=
  let s := (s.upTo c).unqueue stack g
  if a.parity then (s.eccFailed stack g false a.lane).claimRetry stack g c (some data) a
  else (s.withHub (fun h => { h with writes := h.writes ++ [⟨stack, g, c + 256, data⟩] })).wrote (granuleAddr stack g) 256 (c + 256)

/-- HUB_READ. -/
def execHubRead (at_ stack granule : Nat) (a : Attempt) (s : State) : Host.Outcome State Fault Refusal :=
  if granOk stack granule then
    .next (s.live (fun s => if s.run.active then s.hubRead stack granule (s.mclkAt at_) a else s))
  else .fault .noSuchAddress

/-- HUB_WRITE. -/
def execHubWrite (at_ stack granule : Nat) (data : Granule) (a : Attempt) (s : State) :
    Host.Outcome State Fault Refusal :=
  if granOk stack granule then
    .next (s.live (fun s => if s.run.active then s.hubWrite stack granule (s.mclkAt at_) data a else s))
  else .fault .noSuchAddress

/-- The repeat of a failed access in its retry slot: class A on success, an overrun otherwise (R336, R337). DEDUCED: a repeated
write stands in memory from c + 256 on, as R335 has it of every write. -/
def State.hubRetry (s : State) (stack g : Nat) (a : Attempt) : State :=
  match s.hub.retry.find? (fun r => r.stack == stack && r.granule == g && !r.served) with
  | none => s
  | some r =>
    let s := s.withHub (fun h => { h with retry := h.retry.map (fun x => if x == r then { x with served := true } else x) })
    let good (s : State) : State := (s.fadd (HUB_CNT_RETRIES.die (stack / 4)) 1).classA
    match r.write with
    | some d =>
      let s := s.upTo (r.issued + 256)
      if a.parity then (s.laneError stack g a.lane).writeOverrun stack g
      else ((good s).hubStore stack g d).wrote (granuleAddr stack g) 256 (r.issued + 256)
    | none =>
      let s := s.upTo (r.issued + 424)
      if attFails a then (s.laneError stack g a.lane).readOverrun stack g r.issued a
      else (good s).readData stack g r.issued a

/-- HUB_RETRY. -/
def execHubRetry (stack granule : Nat) (a : Attempt) (s : State) : Host.Outcome State Fault Refusal :=
  .next (s.live (fun s => if s.run.active then s.hubRetry stack granule a else s))

/-! ### Atomic adds (R152 to R155) -/

/-- The part that this module holds of a plan that is a relay, none for any other plan (R408). -/
def State.ownRelayPart (s : State) (plan : Nat) : Option Nat :=
  match s.image with
  | some f => (imgRedPlan f plan).bind (fun p => s.relayPart f p)
  | none => none

/-- The part index that a chunk expects next (R154). A relay's chunk at the module of part j expects the partial of parts 0
to j − 1, which the module of part j − 1 sends under its own index; DEDUCED from R408. -/
def State.nextPart (s : State) (plan addr : Nat) : Nat :=
  match s.hub.part.find? (fun p => p.1 == plan && p.2.1 == addr) with
  | some p => p.2.2
  | none => match s.ownRelayPart plan with | some j => j - 1 | none => 0

/-- The first reduction event of a hub (R172). -/
def State.redFirst (s : State) (stack plan part cause : Nat) : State :=
  let k := stack / 4
  s.record (HUB_RED_FIRST_VALID.die k)
    [(HUB_RED_FIRST_PLAN.die k, plan), (HUB_RED_FIRST_PART.die k, part), (HUB_RED_FIRST_STACK.die k, stack % 4),
     (HUB_RED_FIRST_CAUSE.die k, cause), (HUB_RED_FIRST_TICK.die k, s.tickCount)]

/-- Parts of a reduction plan of the running image. -/
def State.planParts (s : State) (plan : Nat) : Nat :=
  match s.image.bind (fun f => imgRedPlan f plan) with | some p => bvBits p.ent 32 32 | none => 0

/-- The 64 elements of an arrival added at a chunk, with their events. -/
def State.addElems (s : State) (addr : Nat) (data : Granule) : State × EvCnt :=
  (range' 0 64).foldl (fun (acc : State × EvCnt) i =>
    let r := fpAdd (acc.1.rdN (addr + 4 * i) 4) (bvBits data (32 * i) 32)
    (acc.1.wrN (addr + 4 * i) 4 r.bits, acc.2.add r.ev)) (s, {})

/-- An arrival lands on cycle `c` (R152 to R154) and is complete 496 cycles later (R155). Nothing is added in the control region
(R326; DEDUCED). DEDUCED: the store of part 0 is a scheduled write of the whole granule and takes it out of the poison table
(R341). DESIGN CHOICE, where R154 and R172 are silent: after its last part a chunk expects part 0 again, and at a relay no
further arrival in the tick; an arrival that both saturates an element and generates a NaN is recorded in HUB_RED_FIRST as
saturated; the store of part 0, which is no addition, counts no propagated NaN. -/
def State.atomicAdd (s : State) (stack g c plan part : Nat) (data : Granule) : State :=
  let s := s.upTo c
  let k := stack / 4
  let addr := granuleAddr stack g
  let want := s.nextPart plan addr
  if part % 65536 != want % 65536 then
    ((s.fadd (HUB_RED_CNT0_ORDER_FAULTS.die k) 1).redFirst stack plan part 0).classBSts (8 + k)
      (HUB_RED_STS_ORDER_FAULT.die k)
  else
    let relay := s.ownRelayPart plan
    let next := if relay.isSome then s.planParts plan else if want + 1 == s.planParts plan then 0 else want + 1
    let s := s.withHub (fun h => { h with part := (plan, addr, next) :: h.part.filter (fun p => !(p.1 == plan && p.2.1 == addr)) })
    let s := ((s.fadd (HUB_RED_CNT0_ARRIVALS.die k) 1).unqueue stack g).wrote addr 256 (c + 496)
    if relay.isNone && want == 0 then s.hubStore stack g data
    else if inControlRegion addr 256 then s
    else
      let r := s.addElems addr data
      let s := r.1
      let s := if r.2.sat == 0 then s
        else ((s.fadd (HUB_RED_CNT1_SATURATED.die k) r.2.sat).setSts (8 + k) (HUB_RED_STS_SATURATED.die k)).redFirst stack plan part 2
      let s := if r.2.nanProp == 0 then s else s.fadd (HUB_RED_CNT1_NAN_PROP.die k) 1
      if r.2.nanGen == 0 then s
      else (((s.fadd (HUB_RED_CNT1_NAN_GEN.die k) 1).setSts (8 + k) (HUB_RED_STS_NAN_GEN.die k)).redFirst stack plan part 1).setNonfinite (8 + k)

/-- ATOMIC_ADD. -/
def execAtomicAdd (at_ stack granule plan part : Nat) (data : Granule) (s : State) : Host.Outcome State Fault Refusal :=
  if granOk stack granule then
    .next (s.live (fun s => if s.run.active then s.atomicAdd stack granule (s.mclkAt at_) plan part data else s))
  else .fault .noSuchAddress

/-! ### Refresh, scrub, elastic windows -/

/-- REFRESH: the refresh window runs to its end; the stack's contents and its training stand (R330, R347). -/
def execRefresh (window : Nat) (s : State) : Host.Outcome State Fault Refusal :=
  .next (s.live (fun s =>
    if s.run.active && window % 15 == 14 then s.upTo (s.edgeAt + 128 * (window + 1)) else s))

/-- The cursor of a hub's pass moves on (R344, R365). -/
def State.scrubNext (s : State) (k : Nat) : State :=
  let c := s.fget (HUB_SCRUB_CURSOR.die k) + 1
  if c < stackGranules then s.fset (HUB_SCRUB_CURSOR.die k) c
  else
    let st := s.fget (HUB_SCRUB_STACK.die k)
    let s := (s.fset (HUB_SCRUB_CURSOR.die k) 0).fset (HUB_SCRUB_STACK.die k) ((st + 1) % 4)
    let s := if st == 3 then s.fadd (HUB_SCRUB_PASSES.die k) 1 else s
    s.setSts (8 + k) (HUB_STS_SCRUB_PASS.die k)

/-- The granule that scrub serves next on a stack: the correction queue's oldest, then a correction of its own, then the
cursor of its pass (R344). -/
def State.scrubTarget (s : State) (stack : Nat) : Nat :=
  match s.hub.corrQ.find? (fun p => p.1 == stack) with
  | some p => p.2
  | none => match s.hub.scrubQ.find? (fun p => p.1 == stack) with
    | some p => p.2
    | none => s.fget (HUB_SCRUB_CURSOR.die (stack / 4))

/-- Scrub takes a background slot of a stack (R344): the correction queue, then its own corrections, then its pass. -/
def State.scrub (s : State) (stack : Nat) (a : Attempt) : State :=
  let k := stack / 4
  match s.hub.corrQ.find? (fun p => p.1 == stack) with
  | some p =>
    (s.withHub (fun h => { h with corrQ := h.corrQ.filter (fun q => q != p) })).fadd (chanFld HUB_ECC_WRITTEN_BACK stack p.2) 1
  | none =>
    match s.hub.scrubQ.find? (fun p => p.1 == stack) with
    | some p =>
      (s.withHub (fun h => { h with scrubQ := h.scrubQ.filter (fun q => q != p) })).fadd (chanFld HUB_ECC_WRITTEN_BACK stack p.2) 1
    | none =>
      if s.fget (HUB_SCRUB_STACK.die k) != stack % 4 then s
      else
        let g := s.fget (HUB_SCRUB_CURSOR.die k)
        let s :=
          if attFails a then
            let s := s.eccFailed stack g (attUe a) a.lane
            if attUe a then ((s.setSts (8 + k) (HUB_STS_SCRUB_UE.die k)).hubFirst stack g 4).poisonAdd stack g else s
          else if attCorrected a == 0 then s
          else (s.eccCorrected stack g (attCorrected a) a.lane false).withHub (fun h => { h with scrubQ := h.scrubQ ++ [(stack, g)] })
        s.scrubNext k

/-- SCRUB, in a background slot of the pseudo-channel that it serves; anywhere else it does nothing (R47, R344). -/
def execScrub (at_ stack : Nat) (a : Attempt) (s : State) : Host.Outcome State Fault Refusal :=
  if stack < 16 then .next (s.live (fun s =>
    let c := s.mclkAt at_
    let s := s.upTo c
    if s.run.active && s.backgroundSlot stack (granPch (s.scrubTarget stack)) c then s.scrub stack a else s))
  else .fault .noSuchAddress

end Sys2Proof.Machine
end

