-- ==== Sys2Proof/Machine/Links.lean ====
section
/-! DEFINITION. The Abxisel links: frames sent and received, retransmits and overruns, lanes, link loss, elastic frames and
training (R367 to R381). -/

namespace Sys2Proof.Machine

/-- LINK_SEND: a DATA, CONTROL or MARKER frame, at the start of one of slots 0 to 23 of a whole window; at any other cycle there
is no frame to send (R371). -/
def execLinkSend (at_ link kind : Nat) (src : FlitSrc) (s : State) : Host.Outcome State Fault Refusal :=
  .next (s.live (fun s =>
    if s.run.active && link < 16 && 1 ≤ kind && kind ≤ 3 then
      let s := s.upTo at_
      if s.slotOpen link at_ then (match s.flitOf src with | some flit => s.linkSend link at_ kind flit | none => s) else s
    else s))

/-- A link goes down (R380). What waits in it for an ELASTIC slot ends with an error to its requester (R381). -/
def State.linkDown (s : State) (l : Nat) : State :=
  let s := s.fset (lnkFld LNK_STATE_MODE l) 0
  let s := (s.link l).elasticQ.foldl (fun s v => s.emit (.msg "ELASTIC_LINK_ERROR" [l, v])) s
  let s := s.withLink l (fun k => { k with elasticQ := [], credit := 32 })
  let s := (s.fadd (lnkFld LNK_CNT_B_DOWNS l) 1).lnkFirst l 4 0 0
  (s.withLink l (fun k => { k with badRun := 0 })).classCWith (lnkPage l) (LNK_STS_LINK_DOWN.die (l / 4)) 2 0

/-- LINK_DOWN: the link loses lock. -/
def execLinkDown (at_ link : Nat) (s : State) : Host.Outcome State Fault Refusal :=
  .next (s.live (fun s =>
    let s := s.upTo at_
    if link < 16 && s.fget (lnkFld LNK_STATE_MODE link) != 0 then s.linkDown link else s))

/-- A corrected symbol is attributed to a receive lane; 64 within 2^20 windows retire it (R377, R378). A lane that is already
retired and waits for the edge is retired once. -/
def State.lnkLaneError (s : State) (l lane : Nat) : State :=
  let k := s.link l
  let w := s.now / s.lnkWin l
  let l' := w :: ((assocGet k.laneErr lane).getD []).filter (fun v => decide (w < v + 2 ^ 20))
  let rest := k.laneErr.filter (fun e => e.1 != lane)
  if k.swaps.contains (1, lane) then s
  else if l'.length < 64 then s.withLink l (fun k => { k with laneErr := (lane, l') :: rest })
  else
    let s := s.withLink l (fun k => { k with laneErr := rest })
    if s.fbit (lnkFld LNK_STATE_SPARE_RX l) || !k.swaps.isEmpty then
      let s := s.fset (lnkFld LNK_STATE_EXHAUSTED_RX l) 1
      let s := (s.withLink l (fun k => { k with exhausted := k.exhausted ++ [1] })).lnkFirst l 3 0 0
      s.classC (lnkPage l) (LNK_STS_LANE_EXHAUSTED.die (l / 4))
    else
      let s := s.withLink l (fun k => { k with swaps := k.swaps ++ [(1, lane)], laneBad := k.laneBad ++ [(1, lane)] })
      let s := (s.fadd (lnkFld LNK_CNT_B_LANES_RETIRED l) 1).lnkFirst l 2 0 0
      s.setSts (lnkPage l) (LNK_STS_LANE_RETIRED.die (l / 4))

/-- The link lane changes that wait for the edge take effect (R377, R379, R520). -/
def State.linkSwaps (s : State) : State :=
  (range' 0 16).foldl (fun s l =>
    let k := s.link l
    let s := s.withLink l (fun k => { k with swaps := [], spareFor := k.spareFor ++ k.swaps, exhausted := [] })
    let s := if k.swaps.isEmpty then s else s.withHub (fun h => { h with laneDirty := true })
    let s := if k.swaps.any (fun p => p.1 == 1) then s.fset (lnkFld LNK_STATE_SPARE_RX l) 1 else s
    if s.fbit HULL_CAPTURE_CFG_TRACE_SUBST then
      let rec_ (s : State) (x : Nat) : State :=
        s.trace 0x82 s.evCtx (2 * 2 ^ 48 + l / 4 * 2 ^ 50 + l % 4 * 2 ^ 53 + x * 2 ^ 62)
      let s := k.swaps.foldl (fun s _ => rec_ s 0) s
      k.exhausted.foldl (fun s _ => rec_ s 1) s
    else s) s


/-- A received NAK: the named frame is repeated in slot 24 of window w + 3 (w + 2 at legacy rate), once for a window
(R373). -/
def State.nakSeen (s : State) (l seq : Nat) : State :=
  match (s.link l).sent.find? (fun e => e.1 == seq) with
  | none => s
  | some (_, w, _, _, flit) =>
    if (s.link l).retry.contains (true, w) then s
    else
      let c := s.slotCycle l (w + s.retryWindows l) 24
      (s.withLink l (fun k => { k with retry := (true, w) :: k.retry })).putFrame l c seq 4 24 flit

/-- NAK. -/
def execNak (at_ link seq : Nat) (s : State) : Host.Outcome State Fault Refusal :=
  .next (s.live (fun s => if s.run.active && link < 16 then (s.upTo at_).nakSeen link seq else s))

/-- A scheduled frame that FEC could not correct is named by a NAK; it waits for the retry slot of its window, or overruns where
that is taken (R373, R374). -/
def State.frameFailed (s : State) (l c : Nat) (f : FrameDue) (use : FlitUse) : State :=
  let p := s.lnkSlot l (c - s.edgeAt)
  let s := (s.withLink l (fun k => { k with badRun := k.badRun + 1, naks := k.naks ++ [f.seq] })).nakLeaves l c
  let s := if (s.link l).retry.contains (false, p.1) then s.frameOverrun l c f.slot f.kind 0 use
    else s.withLink l (fun k =>
      { k with
        retry := (false, p.1) :: k.retry,
        waiting := k.waiting ++ [⟨f.seq, p.1, f.slot, f.kind, c, use⟩] })
  if (s.link l).badRun == 8 then s.linkDown l else s

/-- A RETRY frame, with its flit when it could be read, answers the frame that waits for it (R373 to R375). -/
def State.frameRetried (s : State) (l seq : Nat) (flit : Option Nat) : State :=
  match (s.link l).waiting.find? (fun e => e.seq == seq) with
  | none => s
  | some e =>
    let s := s.withLink l (fun k => { k with waiting := k.waiting.erase e })
    match flit with
    | some v => ((s.fadd (lnkFld LNK_CNT_B_RETRANSMITS l) 1).classA).frameDeliver l e.sent e.kind false e.use (some v)
    | none => s.frameOverrun l e.sent e.slot e.kind 1 e.use

/-- Is a kind that of a scheduled frame: DATA, CONTROL or MARKER? -/
def scheduledKind (k : Nat) : Bool := decide (1 ≤ k) && decide (k ≤ 3)

/-- A frame says that its sender's lane map changes at the next edge (R370, R377): this end moves to the spare too. DESIGN CHOICE:
no field names the lane, and which of the two transmit lanes it is, is free; an end whose own change waits for that edge, or
whose spare is in use, has no more to do. -/
def State.laneSwapSeen (s : State) (l : Nat) : State :=
  let k := s.link l
  if !k.swaps.isEmpty || k.spareFor.any (fun p => p.1 == 0) then s
  else
    let place := (0, s.freeVal % 2)
    (s.withLink l (fun k => { k with swaps := [place], laneBad := k.laneBad ++ [place] })).drawn

/-- An ELASTIC frame comes in: it goes on by its next link, or is for this module (R381). -/
def State.elasticIn (s : State) (l flit : Nat) (use : FlitUse) : State :=
  match use with
  | .onward m => s.useFlit (.onward m) flit
  | _ => s.emit (.msg "ELASTIC_IN" [l, flit])

/-- A frame that could be read is taken: its NAK, its LANE_SWAP, and its flit by its kind (R370, R372, R373, R381). -/
def State.frameTaken (s : State) (l c : Nat) (f : FrameIn) (use : FlitUse) : State :=
  let s := match f.nak with | some n => s.nakSeen l n | none => s
  let s := if f.laneSwap then s.laneSwapSeen l else s
  if scheduledKind f.kind then s.frameDeliver l c f.kind false use (some f.flit)
  else if f.kind == 4 then s.frameRetried l f.seq (some f.flit)
  else if f.kind == 5 then s.elasticIn l f.flit use
  else s

/-- The frame due in the slot that began on cycle `c` at the sender is received as 272 bytes (R369, R372 to R375, R380). -/
def State.frameReceived (s : State) (l c : Nat) (due : FrameDue) (raw : BitVec 2176) (use : FlitUse) : State :=
  let s := s.fadd (lnkFld LNK_CNT_A_FRAMES l) 1
  if s.fget (lnkFld LNK_STATE_MODE l) == 0 then
    (if scheduledKind due.kind then s.frameOverrun l c due.slot due.kind 1 use else s)
  else
    let d := rxDecode (byteList 272 raw.toNat)
    match d.2 with
    | .failed =>
      if scheduledKind due.kind then s.frameFailed l c due use
      else
        let s := s.withLink l (fun k => { k with badRun := k.badRun + 1 })
        let s := if due.kind == 4 then s.frameRetried l due.seq none else s
        if (s.link l).badRun == 8 then s.linkDown l else s
    | .corrected lanes =>
      let s := s.withLink l (fun k => { k with badRun := 0 })
      (lanes.foldl (fun s lane => s.lnkLaneError l lane) (s.fadd (lnkFld LNK_CNT_A_CORRECTED l) 1)).frameTaken l c
        (frameFields d.1) use
    | .clean => (s.withLink l (fun k => { k with badRun := 0 })).frameTaken l c (frameFields d.1) use

/-- FRAME_RECEIVED: `seen.raw` holds the frame's bytes, byte 0 lowest, as they leave the lanes' descramblers. -/
def execFrameReceived (at_ link : Nat) (due : FrameDue) (seen : FrameSeen) (s : State) :
    Host.Outcome State Fault Refusal :=
  .next (s.live (fun s =>
    if s.run.active && link < 16 then (s.upTo at_).frameReceived link at_ due seen.raw seen.use else s))

/-- An ELASTIC slot: the oldest waiting elastic frame of the link, or this one, goes out; a failed frame is repeated in a later
slot (R381). It takes a credit of the 32 when it first goes out. DESIGN CHOICE: the credit comes back when the frame has got
through; R381 does not say when. -/
def State.elasticFrame (s : State) (l c : Nat) (ok : Bool) (flit : Granule) : State :=
  let q := (s.link l).elasticQ ++ [flit.toNat]
  let s := s.withLink l (fun k => { k with elasticQ := if ok then q.drop 1 else q, credit := if ok then 32 else 31 })
  s.putFrame l c (s.seqAt l c) 5 (s.lnkSlot l (c - s.edgeAt)).2 (q.headD 0)

/-- ELASTIC_FRAME, at the start of one of slots 0 to 23 of a whole window; the retry slot is never given to one (R47, R371,
R381). A frame that meets no such slot waits for the next. -/
def execElasticFrame (at_ link : Nat) (ok : Bool) (flit : Granule) (s : State) : Host.Outcome State Fault Refusal :=
  .next (s.live (fun s =>
    let s := s.upTo at_
    if 16 ≤ link then s
    else if s.slotOpen link at_ && s.fget (lnkFld LNK_STATE_MODE link) != 0 then s.elasticFrame link at_ ok flit
    else s.withLink link (fun k => { k with elasticQ := k.elasticQ ++ [flit.toNat] })))

/-- A link trains: its propagation is measured and module, link and image hash are exchanged (R376, R387, R473). A link
that is too long stays out of deterministic mode. A lane that the bench function has returned serves again (R588). -/
def State.linkTrained (s : State) (l mode : Nat) (legacy : Bool) (prop neighbour nlink hash : Nat) : State :=
  let far := 160 < prop
  let s := s.fsetAll [(lnkFld LNK_STATE_MODE l, if far then min mode 2 else mode), (lnkFld LNK_STATE_LEGACY l, legacy.toNat),
    (lnkFld LNK_STATE_PROP l, min prop 255), (lnkFld LNK_STATE_NEIGHBOUR l, neighbour),
    (lnkFld LNK_STATE_NEIGHBOUR_LINK l, nlink)]
  let s := s.withLink l (fun k =>
    { k with
      hash := hash, badRun := 0, seq := 0, sent := [], waiting := [], landing := [], retry := [], naks := [],
      spareFor := k.spareFor.filter (fun p => k.laneBad.contains p) })
  if far then (s.setSts (lnkPage l) (LNK_STS_TOO_LONG.die (l / 4))).lnkFirst l 6 0 0 else s

/-- LINK_TRAINING, while no job runs (R380). -/
def execLinkTraining (at_ link mode : Nat) (legacy : Bool) (prop neighbour nlink hash : Nat) (s : State) :
    Host.Outcome State Fault Refusal :=
  .next (s.live (fun s =>
    let s := s.upTo at_
    if link < 16 && s.job.ctx.isNone then s.linkTrained link (mode % 4) legacy prop neighbour nlink hash else s))

end Sys2Proof.Machine
end

