-- ==== Sys2Proof/Machine/Tick.lean ====
section
/-! DEFINITION. The tick: fences and data fences (R37 to R45), ingest close and INGEST_END (R200 to R204, R396), and the
tick edge with everything that takes effect at it (R21): token, starvation and promotion (R48 to R55), pod and lane
substitution (R500, R503, R349, R377), job end, pre-emption, harvest due, and the tick that opens. -/

namespace Sys2Proof.Machine

/-! ### Fences (R37 to R41) -/

/-- A miss is counted, recorded when it is the first of the tick, and is a class B fault (R37, R40, R45). -/
def State.fenceMiss (s : State) (fence dfence : Nat) (isData : Bool) (window : Nat) : State :=
  let first := !s.run.fenceMissed
  let s := s.withRun (fun r => { r with fenceMissed := true })
  let s := s.fadd TICK_CNT_FENCE_MISSES 1
  let s := if first then s.record TICK_FENCE_MISS_VALID
      [(TICK_FENCE_MISS_FENCE, if isData then 0 else fence), (TICK_FENCE_MISS_DFENCE, if isData then dfence else 0),
       (TICK_FENCE_MISS_IS_DATA, isData.toNat), (TICK_FENCE_MISS_PLAN, s.fget TICK_PLAN_CUR),
       (TICK_FENCE_MISS_SOURCE, window), (TICK_FENCE_MISS_TICK, s.tickCount)]
    else s
  s.classBSts 1 (if isData then TICK_STS_DATA_FENCE_MISS else TICK_STS_FENCE_MISS)

/-- The windows with items due by a fence that are not complete on its cycle. DESIGN CHOICE (R37 has the block report the miss;
it fixes neither a count by item nor an order of blocks): a window with several late items makes one miss, and the misses of
one fence come in ascending window order. -/
def State.lateWindows (s : State) (fence c : Nat) (stalled : List Nat) : List Nat :=
  (range' 0 28).filter (fun w => stalled.contains w ||
    s.run.items.any (fun i => i.1 == w && i.2.2 == fence && decide (c < i.2.1)))

/-- What tile items of window `w` still have under way towards a fence stops on its cycle `c` (R39). -/
def State.stopLate (s : State) (fence c w : Nat) : State :=
  s.withTiles (fun t => { t with flights := t.flights.map (fun f =>
    if 20 + f.tile / 10 == w && wFence f.word == fence then { f with done := min f.done c } else f) })

/-- The check on a fence's cycle: each block with a late item reports a miss, and the item stops (R37, R39). -/
def State.fenceCheck (s : State) (fence : Nat) (stalled : List Nat) : State :=
  match s.curPlan with
  | none => s
  | some p =>
    if fence < planNfence p then
      let c := s.edgeAt + fenceOff (p.fences.getD fence 0)
      let s := s.upTo c
      let late := s.lateWindows fence c stalled
      let s := s.withRun (fun r => { r with items := r.items.filter (fun i => i.2.2 != fence) })
      (late.foldl (fun s w => (s.stopLate fence c w).fenceMiss fence 0 false w) s).upTo c
    else s

/-- FENCE_CHECK: `stalled` are the block windows held past their slot by a fault that the schedule cannot show. -/
def execFenceCheck (fence : Nat) (stalled : List Nat) (s : State) : Host.Outcome State Fault Refusal :=
  .next (s.live (fun s => if s.run.active then s.fenceCheck fence stalled else s))

/-! ### Data fences (R44, R45, R314 to R318) -/

/-- The first slow-tier event (R366). -/
def State.slowFirst (s : State) (tensor source unit cause : Nat) : State :=
  s.record HULL_SLOW_FIRST_VALID
    [(HULL_SLOW_FIRST_TENSOR, tensor), (HULL_SLOW_FIRST_SOURCE, source), (HULL_SLOW_FIRST_UNIT, unit),
     (HULL_SLOW_FIRST_CAUSE, cause), (HULL_SLOW_FIRST_TICK, s.tickCount)]

/-- Source and unit of a tensor's home: 0 an expander of 2 TiB, 1 a lender of 1 TiB (R322). -/
def homeUnit (t : TensorEnt) : Nat × Nat :=
  if t.tier == 1 then (0, (t.home - 0x100000000000) / 0x20000000000) else (1, (t.home - 0x200000000000) / 0x10000000000)

/-- A step parks a LAGGED tensor (R316). -/
def State.park (s : State) (weight : Nat) : State :=
  if s.job.parking.contains weight then s
  else
    let e := s.lagEnt weight s.ccr.parity
    let p : Parked := { t := s.ccr.t, step := s.ccr.step, nu := s.nu.getD 0, buckets := [] }
    let s := s.setLag weight (!s.ccr.parity) { flip := !e.flip, parked := e.parked ++ [p] }
    s.withJob (fun j => { j with parking := weight :: j.parking })

/-- A prefetch is incomplete at its data fence (R314, R316, R318, R359). -/
def State.prefetchLate (s : State) (t : TensorEnt) (i : Nat) : State :=
  let u := homeUnit t
  let s := ((s.fadd HULL_SLOW_CNT_LATE 1).slowFirst t.tensor u.1 u.2 0).setSts 0 HULL_SLOW_STS_PREFETCH_LATE
  if t.lagged && s.run.stepRuns then
    if (s.lagEnt t.parent s.ccr.parity).parked.length < t.d then s.park t.parent
    else
      let s := if s.run.healthSent then s.withRun (fun r => { r with lateLag := true })
        else s.withRun (fun r => { r with lagOverrun := true })
      (s.setSts 0 COMMIT_STS_LAG_OVERRUN).fenceMiss 0 i true 0
  else s.fenceMiss 0 i true 0

/-- The check on a data fence's cycle, in a tick of any kind; a fence whose buffer is not complete makes one miss (R40, R41,
R44). A lender takes no batch, and misses none (R362). -/
def State.dataFenceCheck (s : State) (i : Nat) : State :=
  match s.curPlan, s.image with
  | some p, some f =>
    if i < planNdfence p then
      let d := p.dfences.getD i 0
      let s := s.upTo (s.edgeAt + dfCycle d)
      if dfKind d == 0 then (if s.inputLate f p i && !s.isLender then s.fenceMiss 0 i true 0 else s)
      else
        match (imgSeenBy f (s.fget HULL_ORCH_MODULE)).stateMap.find? (fun t => t.tensor == dfTensor d && t.role != 8) with
        | some t => if s.prefetched t.tensor then s else s.prefetchLate t i
        | none => s
    else s
  | _, _ => s

/-- DATA_FENCE_CHECK. -/
def execDataFenceCheck (idx : Nat) (s : State) : Host.Outcome State Fault Refusal :=
  .next (s.live (fun s => if s.run.active && !s.reloading then s.dataFenceCheck idx else s))

/-! ### Ingest close and INGEST_END (R200, R202 to R204, R396) -/

/-- Declared tokens of the accepted micro-batch of a slot for a step, if any. -/
def State.slotAccepted (s : State) (step slot : Nat) : Option Nat :=
  (s.job.verdicts.find? (fun v => v.1 == step && v.2.1 == slot)).map (fun v => v.2.2.1)

/-- The slots of the step whose micro-batch has neither been accepted nor refused at the close (R199, R200, R396). -/
def State.silentSlots (s : State) (p : PlanImg) : List Nat :=
  (range' 0 (planNslot p)).filter (fun k =>
    !s.slotRefused k && !s.job.verdicts.any (fun v => v.1 == s.ccr.step && v.2.1 == k))

/-- The slot counts at the close: of each slot, the tokens of its accepted micro-batch (R135, R396). -/
def State.slotsTaken (s : State) (p : PlanImg) : List (Nat × Nat) :=
  (range' 0 (planNslot p)).map (fun k => (k, (s.slotAccepted s.ccr.step k).getD 0))

/-- A slot held no accepted micro-batch at the close: input late, class B (R200, R205). -/
def State.slotMissing (s : State) (slot : Nat) : State :=
  (s.record HULL_INGEST_FIRST_VALID
    [(HULL_INGEST_FIRST_SLOT, slot), (HULL_INGEST_FIRST_REASON, 7), (HULL_INGEST_FIRST_TOKENS, 0),
     (HULL_INGEST_FIRST_STEP, s.ccr.step)]).classBSts 0 HULL_INGEST_STS_SLOT_MISSING

/-- The local token and slot counts are taken and go up the tree (R396). -/
def State.ingestClose (s : State) (f : ImageFile) (p : PlanImg) : State :=
  if s.run.closeTaken || !s.run.stepRuns then s
  else
    let s := s.upTo (s.edgeAt + (planFenceOf p 1 - imgCommitMin f))
    let s := s.withRun (fun r => { r with closeTaken := true })
    let l := if s.isLender then [] else s.slotsTaken p
    let n := (l.map (fun x => x.2)).foldl (· + ·) 0
    let s := if s.isLender then s else (s.silentSlots p).foldl (fun s k => s.slotMissing k) s
    let s := (s.withJob (fun j => { j with localTokens := n, localSlots := l })).fset HULL_TOKENS_LOCAL n
    s.countUp f (planFenceOf p 1 - imgCommitMin f)

/-- INGEST_CLOSE. -/
def execIngestClose (s : State) : Host.Outcome State Fault Refusal :=
  .next (s.live (fun s =>
    match s.image, s.curPlan with
    | some f, some p => if s.run.active && !s.reloading then s.ingestClose f p else s
    | _, _ => s))

/-- Every tile holds the slot counts that were taken at the ingest close (R135, R202, R396). -/
def State.slotCounts (s : State) : State :=
  let counts := s.job.localSlots
  s.withTiles (fun t => { t with slotCnt := (range' 0 80).foldl (fun acc n =>
    counts.foldl (fun acc kc => tabPut (fun _ => 0) acc (n * 1024 + kc.1) kc.2) acc) t.slotCnt })

/-- INGEST_END: N is the local count with the counts of the orchard's other modules (R202 to R204). -/
def State.ingestEnd (s : State) (f : ImageFile) (p : PlanImg) (others : Nat) : State :=
  let s := s.ingestClose f p
  if s.run.ingestEnded || !s.run.stepRuns then s
  else
    let s := s.upTo (s.edgeAt + planFenceOf p 1)
    let s := s.withRun (fun r => { r with ingestEnded := true })
    let n := s.job.localTokens + if s.fget HULL_ORCH_SIZE ≤ 1 then 0 else others
    let s := s.slotCounts.fsetAll [(HULL_TOKEN_SUM_SUM, n), (HULL_TOKEN_SUM_VALID, 1)]
    if n == 0 then
      (s.withRun (fun r => { r with emptyStep := true })).setSts 0 HULL_INGEST_STS_EMPTY_STEP
    else
      let nu := recipNat n
      let s := s.fsetAll [(HULL_NORM_NU, nu), (HULL_NORM_VALID, 1)]
      s.job.parking.foldl (fun s t =>
        let e := s.lagEnt t (!s.ccr.parity)
        match e.parked.reverse with
        | q :: r => s.setLag t (!s.ccr.parity) { e with parked := ({ q with nu := nu } :: r).reverse }
        | [] => s) s

/-- INGEST_END. -/
def execIngestEnd (others : Nat) (s : State) : Host.Outcome State Fault Refusal :=
  .next (s.live (fun s =>
    match s.image, s.curPlan with
    | some f, some p => if s.run.active && !s.reloading then s.ingestEnd f p others else s
    | _, _ => s))

/-! ### LOSS and HEALTH (R298, R301, R392) -/

/-- LOSS_FENCE. -/
def execLossFence (sum : Word32) (s : State) : Host.Outcome State Fault Refusal :=
  .next (s.live (fun s => if s.run.active && !s.reloading then
    (match s.curPlan with | some p => s.upTo (s.edgeAt + planFenceOf p 2) | none => s).lossFence sum else s))

/-- HEALTH_SEND. -/
def execHealthSend (s : State) : Host.Outcome State Fault Refusal :=
  .next (s.live (fun s => if s.run.active && !s.reloading && !s.run.healthSent then
    let s := (match s.curPlan with | some p => s.upTo (s.edgeAt + planFenceOf p 3) | none => s).healthSend
    match s.image with | some f => s.healthUp f | none => s
    else s))

/-! ### Pods at the edge (R500, R503, R144) -/

/-- A SUBSTITUTION trace record of a tile (R520). -/
def State.traceSubst (s : State) (n : Nat) (exhausted : Bool) : State :=
  if s.fbit HULL_CAPTURE_CFG_TRACE_SUBST then
    s.trace 0x82 s.evCtx (n / 10 * 2 ^ 50 + n % 10 * 2 ^ 53 + exhausted.toNat * 2 ^ 62)
  else s

/-- The physical pod that serves a logical pod of a tile, by the pod map (R17, R583). -/
def podMapFld (n p : Nat) : Fld :=
  let f := BENCH_POD_MAP_LPOD_0.ix n
  { f with lo := 4 * p }

/-- Retire a physical pod of a tile. -/
def State.podRetire (s : State) (n phys : Nat) : State :=
  s.fset (BENCH_POD_MAP_RETIRED.ix n) (Nat.lor (s.fget (BENCH_POD_MAP_RETIRED.ix n)) (2 ^ phys))

/-- The spare of a tile takes logical pod `p` (R500). -/
def State.podTake (s : State) (n p : Nat) : State :=
  let s := s.podRetire n (s.fget (podMapFld n p))
  let s := s.fsetAll [(podMapFld n p, s.fget (BENCH_POD_MAP_SPARE.ix n)), (BENCH_POD_MAP_SPARE_FREE.ix n, 0),
    (BENCH_POD_MAP_SPARE.ix n, 15), (TILE_SPARE_IN_USE.tile n, 1)]
  (((s.fadd (TILE_SPARE_SUBSTITUTIONS.tile n) 1).setSts (tilePage n) (TILE_STS_SPARE_TAKEN.tile n))).traceSubst n false

/-- A tile without a usable spare loses logical pod `p` (R503). -/
def State.podExhaust (s : State) (n p : Nat) : State :=
  if getBits (s.fget (TILE_POD_UNSERVED_MASK.tile n)) p 1 == 1 then s
  else
    let s := (s.podRetire n (s.fget (podMapFld n p))).fset (podMapFld n p) 15
    let s := if s.fbit (TILE_POD_UNSERVED.tile n) then s
      else s.fsetAll [(TILE_POD_UNSERVED.tile n, 1), (TILE_POD_LPOD.tile n, p), (TILE_SPARE_EXHAUSTED.tile n, 1)]
    let s := s.fset (TILE_POD_UNSERVED_MASK.tile n) (Nat.lor (s.fget (TILE_POD_UNSERVED_MASK.tile n)) (2 ^ p))
    (s.classC (tilePage n) (TILE_STS_SPARE_EXHAUSTED.tile n)).traceSubst n true

/-- The pod faults of the ending tick are answered, tile by tile, lower logical index first. -/
def State.podEdge (s : State) : State :=
  let pend := s.tiles.podPend
  let s := s.withTiles (fun t => { t with podPend := [] })
  (range' 0 80).foldl (fun s n =>
    ((range' 0 8).filter (fun p => pend.contains (n, p))).foldl (fun s p =>
      if s.fbit (BENCH_POD_MAP_SPARE_FREE.ix n) && !s.fbit (TILE_POD_SPARE_LOST.tile n) then s.podTake n p
      else s.podExhaust n p) s) s

/-! ### Background activities (R48 to R54) -/

/-- The windows of the plan that are BACKGROUND windows of some stack, as window indices (R346). -/
def bgWindows (f : ImageFile) (cls plan : Nat) : List Nat :=
  ((f.hubScheds.filter (fun h => h.cls == cls && h.plan == plan)).flatMap (fun h =>
    ((schedWords h.words).filter (fun w => hOp w.2 == 5)).flatMap (fun w => range' (hCycle w.2 / 128) (hCount w.2)))).dedup

/-- Quantum of an activity, in cyc. -/
def State.quantum (s : State) (a : Nat) : Nat := s.fget (TICK_STARVE_QUANTUM.ix a) * 4096

/-- The SLACK phases of a plan, as spans of cycles (R50). -/
def slackSpans (p : PlanImg) : List (Nat × Nat) :=
  ((planFences p).foldl (fun (acc : Nat × List (Nat × Nat)) w =>
    (fenceOff w, if fenceSlack w then acc.2 ++ [(acc.1, fenceOff w)] else acc.2)) (0, [])).2

/-- The part of some spans that lies from offset `lo` up to `hi`, counting their cycles one after another. -/
def spanPart : List (Nat × Nat) → Nat → Nat → List (Nat × Nat)
  | [], _, _ => []
  | (a, b) :: r, lo, hi => (min b (a + lo), min b (a + hi)) :: spanPart r (lo - (b - a)) (hi - (b - a))

/-- Cycles of a span that lie in some spans apart from one another. -/
def spanMeet (l : List (Nat × Nat)) (x : Nat × Nat) : Nat :=
  (l.map (fun y => min x.2 y.2 - max x.1 y.1)).foldl (· + ·) 0

/-- Cycles that lie in some spans or in some others, each list's own apart from one another. -/
def spanUnion (l m : List (Nat × Nat)) : Nat :=
  (l.map (fun x => x.2 - x.1 - spanMeet m x)).foldl (· + ·) ((m.map (fun x => x.2 - x.1)).foldl (· + ·) 0)

/-- Has an activity pending work? DESIGN CHOICE (R48 speaks of pending work during the ending tick): work counts as pending
when it is pending at the edge. -/
def State.bgPending (s : State) (a : Nat) : Bool :=
  if a == 0 then true
  else if a == 1 then s.slow.any (fun r => r.dirty)
  else !(s.fifo 3).items.isEmpty

/-- Cycles that an activity was served in the ending STEP tick (R48, R346): scrub in the BACKGROUND windows and in the SLACK
cycles that R50 places for no other activity, each cycle once; scrub's own promoted quantum comes first. DESIGN CHOICE (the spec
gives write-back and telemetry no place of their own in a STEP tick): they are served there only when they are promoted and
placed. -/
def State.bgServed (s : State) (f : ImageFile) (p : PlanImg) (a : Nat) : Nat :=
  let placed := s.run.placed
  if a == 0 then
    let taken := (placed.filter (fun b => b != 0)).foldl (fun n b => n + s.quantum b) 0
    let own := if placed.contains 0 then s.quantum 0 else 0
    let slack := slackSpans p
    spanUnion (spanPart slack 0 own ++ spanPart slack (own + taken) (planSlack p))
      ((bgWindows f (modClass (imgModule f (s.fget HULL_ORCH_MODULE))) (s.fget TICK_PLAN_CUR)).map (fun w =>
        (min (128 * w) (planPeriod p), min (128 * w + 128) (planPeriod p))))
  else if placed.contains a then s.quantum a else 0

/-- The starvation counters of activities 0 to 2 at an edge (R48, R41, R54). -/
def State.starve (s : State) (f : ImageFile) (p : PlanImg) : State :=
  let stepKind := s.fget TICK_PLAN_CUR_KIND == 0
  (range' 0 3).foldl (fun s a =>
    let ok := !s.bgPending a ||
      (if stepKind then decide (s.quantum a ≤ s.bgServed f p a) else !s.run.fenceMissed)
    s.fset (TICK_STARVE_COUNT.ix a) (if ok then 0 else min (s.fget (TICK_STARVE_COUNT.ix a) + 1) 65535)) s

/-- Place promoted activities into `room` slack cycles in priority order: those placed, and whether one was left (R50). -/
def placeList (q : Nat → Nat) : Nat → List Nat → List Nat × Bool
  | _, [] => ([], false)
  | room, a :: r => if q a ≤ room then
      let x := placeList q (room - q a) r
      (a :: x.1, x.2)
    else ([], true)

/-- Promotion into the STEP tick that opens (R49 to R51). -/
def State.promote (s : State) (p : PlanImg) : State :=
  let up := (range' 0 3).filter (fun a => decide (s.fget (TICK_STARVE_THRESHOLD.ix a) ≤ s.fget (TICK_STARVE_COUNT.ix a)))
  if up.isEmpty then s
  else
    let pl := placeList (fun a => s.quantum a) (planSlack p) up
    let noSlack := !(planFences p).any fenceSlack
    let s := up.foldl (fun s a => s.fadd (TICK_STARVE_PROMOTIONS.ix a) 1) s
    let s := s.setSts 1 TICK_STS_PROMOTED
    let s := s.withRun (fun r => { r with placed := if noSlack then [] else pl.1, serviceReq := pl.2 || noSlack })
    if pl.2 || noSlack then s.setSts 1 TICK_STS_SERVICE_REQ else s

/-! ### Harvest due and forced fallow ticks (R53, R552, R554) -/

/-- Would a harvest be due by its interval or by command at an opening edge (R552)? -/
def State.harvestWanted (s : State) (f : ImageFile) : Bool :=
  s.fbit HRD_STATE_HARVEST_DUE || s.power.harvestAsked ||
    (limHarvestInterval f != 0 && decide (s.power.harvestBase + limHarvestInterval f ≤ s.ccr.t + 1))

/-- The greatest export stream that an area holds (R554). -/
def harvestMax : Nat := 7679463124992

/-- A wanted harvest is not due until its condition clears (R554). -/
def State.harvestWaits (s : State) : State :=
  let due := s.fbit HRD_STATE_HARVEST_DUE
  (s.fset HRD_STATE_HARVEST_DUE 0).withPower (fun p => { p with harvestAsked := p.harvestAsked || due })

/-- The edge makes a harvest due, or says why it is not (R552, R554). -/
def State.harvestDue (s : State) (f : ImageFile) : State :=
  if !s.harvestWanted f || s.fbit HRD_HARVEST_ACTIVE then s
  else if !s.cartUsable then s.harvestWaits.setSts 3 HRD_STS_NO_CARTRIDGE
  else if s.fbit HRD_STATE_WORN then s.harvestWaits.setSts 3 HRD_STS_WORN
  else if harvestMax < s.expTotal f s.ccr s.job.lag 0 then
    let s := s.harvestWaits
    if s.fbit HRD_STS_TOO_LARGE then s else s.classC 3 HRD_STS_TOO_LARGE
  else (s.fset HRD_STATE_HARVEST_DUE 1).withPower (fun p => { p with harvestAsked := false })

/-- The deferral counter of a due harvest, and the fallow ticks it forces (R53). `was` is whether it was due before this
edge, `stepOpens` whether the edge opens a STEP tick. -/
def State.harvestDefer (s : State) (was stepOpens : Bool) : State :=
  if !s.fbit HRD_STATE_HARVEST_DUE then s.fset (TICK_STARVE_COUNT.ix 3) 0
  else
    let n := s.fget (TICK_STARVE_COUNT.ix 3)
    let ceil := s.fget (TICK_STARVE_THRESHOLD.ix 3)
    let n' := if was && stepOpens && !s.fbit HRD_HARVEST_ACTIVE then min (n + 1) 65535 else n
    let s := s.fset (TICK_STARVE_COUNT.ix 3) n'
    let s := if n < ceil && ceil ≤ n' then (s.fadd (TICK_STARVE_PROMOTIONS.ix 3) 1).setSts 1 TICK_STS_FALLOW_FORCED else s
    s.withRun (fun r => { r with fallowReq := decide (ceil ≤ n') })

/-! ### Pre-emption (R431, R432) -/

/-- No tick's bookkeeping remains in the tiles and hubs: operand lines keep what has landed, and TILE_SEQ.LAST shows an
instruction of the tick that opens or none (R110, R146). -/
def State.tickless (s : State) : State :=
  let s := s.withHub (fun h => { h with retry := [], part := [] })
  let s := (s.tiles.seqNext.map (fun e => e.1)).foldl (fun (s : State) n => s.fset (TILE_SEQ_LAST.tile n) 0) s
  s.withTiles (fun t => (t.landLines s.now).dropTick)

/-- The module runs no further tick and starts to write the save area (R431); a lockstep reload holds the save (R609). -/
def State.takePreempt (s : State) (mode reason : Nat) (declined : Bool) (tick plan c : Nat) : State :=
  match s.job.ctx with
  | none => s
  | some ctx =>
    let s := s.abandonHarvest true
    let s := s.withJob (fun j =>
      { j with
        token := none, preemptAt := none, markerEdge := none, health := {}, childrenSeen := [], captureAt := none, captureOut := none,
        replayPending := j.replayPending || declined,
        lastPlan := if declined then some (s.ccr.step, plan) else j.lastPlan })
    let from_ := match s.power.reload with | some r => max c r | none => c
    let sv : Saving := ⟨ctx, mode, reason, declined, tick, plan, from_ + 131072⟩
    let s := s.withHost (fun h => { h with saving := some sv })
    let s := s.slvStop (s.scycAt c)
    let s := if mode == 0 then s else s.linksTurn (c - s.edgeAt)
    let s := { s with run := {}, solver := { subRem := s.solver.subRem } }
    let s := s.fsetAll [(TICK_PLAN_NEXT_VALID, 0), (HULL_TOKEN_SUM_VALID, 0), (HULL_NORM_VALID, 0)]
    s.tickless

/-! ### The edge (R21) -/

/-- What the closing edge counts of the ending tick's health word (R512, R415). -/
def State.countTick (s : State) (sent : Bool) : State :=
  let fl := if sent then (s.regGet (COMMIT_HEALTH.ix 4).base).toNat else 0
  let step := s.fget TICK_PLAN_CUR_KIND == 0
  let s := if step then
      (((s.fadd HULL_HEALTH_CNT_NONFINITE (getBits fl 2 1)).fadd HULL_HEALTH_CNT_SPIKES (getBits fl 5 1)).fadd
        HULL_HEALTH_CNT_LOSS_NONFINITE (getBits fl 6 1)).fadd HULL_HEALTH_CNT_EMPTY_STEPS (getBits fl 3 1)
    else s
  let s := s.fadd HULL_ORCH_CNT_B_TICKS (getBits fl 0 1)
  if step && s.run.stepRuns && !s.isLender then s.fadd HULL_ORCH_CNT_STEP_TICKS 1 else s

/-- The tokens that the module holds take effect, the copy first when the edge before had none and it is that edge's (R65,
R309). -/
def State.edgeTokens (s : State) (f : ImageFile) : State :=
  match s.job.token with
  | none => s
  | some (k, copy) =>
    let s := match copy with
      | some k0 => if s.job.tokensMissed != 0 && tokTick k0 + 1 == tokTick k then s.applyToken f k0 s.job.lastLoss else s
      | none => s
    let s := s.applyToken f k (if s.job.tokensMissed != 0 then s.job.lastLoss else s.run.loss)
    s.withJob (fun j => { j with tokensMissed := 0 })

/-- The edge finds no token (R66): class C, and class D the second time in a row. -/
def State.edgeNoToken (s : State) : State :=
  let n := s.job.tokensMissed + 1
  let s := s.withJob (fun j => { j with tokensMissed := n })
  let s := s.classC 1 TICK_STS_TOKEN_ABSENT
  if 2 ≤ n then s.classD 1 0x38 4 0 else s

/-- The registers of the tick that opens (R67). -/
def State.openRegs (s : State) (f : ImageFile) (plan count : Nat) : State :=
  let p := imgPlan f plan
  let kind := match p with | some p => planKind p | none => 0
  s.fsetAll [(TICK_COUNT_COUNT, count), (TICK_PERIOD_PERIOD, match p with | some p => planPeriod p | none => 0),
    (TICK_PLAN_CUR, plan), (TICK_PLAN_CUR_KIND, kind), (TICK_PLAN_NEXT_VALID, 0), (TICK_PLAN_PHASE, 0),
    (HULL_TOKEN_SUM_VALID, 0), (HULL_NORM_VALID, 0)]

/-- The lag entry that the step will write stands for an application until the step parks (R317). -/
def State.openLag (s : State) (f : ImageFile) : State :=
  let s := s.withJob (fun j => { j with parking := [] })
  (s.laggedWeights f).foldl (fun s t =>
    s.setLag t (!s.ccr.parity) { flip := (s.lagEnt t s.ccr.parity).flip, parked := [] }) s

/-- Captures that the opening edge arms: the edge trigger and an orchard notice (R514, R517). -/
def State.openCaptures (s : State) (c count : Nat) : State :=
  let off := s.fget HULL_CAPTURE_OFFSET
  let s := if s.fbit HULL_CAPTURE_ID_ARMED_EDGE && decide (off < s.fget TICK_PERIOD_PERIOD) then
      let s := if s.fbit HULL_CAPTURE_EVERY then s else s.fset HULL_CAPTURE_ID_ARMED_EDGE 0
      s.capTrigger (c + off) 2
    else s
  match s.job.captureAt with
  | some (tick, cycle) =>
    if tick == count then
      let s := (s.withJob (fun j => { j with captureAt := none })).fset HULL_CAPTURE_ID_ARMED_ORCH 0
      s.capTrigger (c + cycle) 16
    else s
  | none => s

/-- A STEP tick that opens ends an export that streams from the running context (R289). -/
def State.openExport (s : State) : State :=
  if s.host.exp.any (fun e => e.started && some e.ctx == s.job.ctx) then s.abandonExport else s

/-- The tick that opens counts as a service tick or as a fallow tick (R29, R54). Where neither the token nor the health that
passed here tells a service tick under a FALLOW plan from a fallow tick, which of the two counts is free. -/
def State.countKind (s : State) (kind : Nat) : State :=
  if kind == 2 then s.fadd TICK_CNT_SERVICE_TICKS 1
  else if kind == 1 then
    (match s.job.serviceCall with
      | some true => s.fadd TICK_CNT_SERVICE_TICKS 1
      | some false => s.fadd TICK_CNT_FALLOW_TICKS 1
      | none => (s.fadd (if s.freeVal % 2 == 1 then TICK_CNT_SERVICE_TICKS else TICK_CNT_FALLOW_TICKS) 1).drawn)
  else s

/-- Open a tick on cycle `c` under a plan; `runs` is whether it runs its step when the plan is a STEP plan. -/
def State.openTick (s : State) (f : ImageFile) (c count plan : Nat) (runs : Bool) : State :=
  let old := s.run
  let wasDue := s.fbit HRD_STATE_HARVEST_DUE
  let p := imgPlan f plan
  let kind := match p with | some p => planKind p | none => 0
  let s := { s with edgeAt := c }
  let s := s.openRegs f plan count
  let s := if runs then s.countKind kind else s
  let r : TickRun :=
    { active := true, stepRuns := runs && kind == 0, isReplay := runs && kind == 0 && s.job.replayPending, noStep := !runs,
      faultB := old.lateB || s.job.lostAtEdge || old.lateChecksum || old.lateLag, faultC := old.lateC,
      checksum := old.lateChecksum, lagOverrun := old.lateLag }
  let s := { s with run := r }
  let s := s.withJob (fun j =>
    { j with
      token := none, markerEdge := none, lostAtEdge := false, health := {}, childrenSeen := [], tDiff := false,
      localTokens := 0, localSlots := [] })
  let s := s.tickless
  let s := if runs && kind == 0 then (s.openLag f).openExport else s
  let s := match p with
    | some p => if kind == 0 then s.promote p else s
    | none => s
  let s := (s.harvestDue f).harvestDefer wasDue (kind == 0)
  s.openCaptures c count

/-- What takes effect on the first cycle of a tick besides its token: pod, HBM lane and link lane substitutions (R18, R21). -/
def State.edgeSwaps (s : State) : State := ((s.podEdge).hubSwaps).linkSwaps

/-- Everything that takes effect together on cycle 0 of the new tick (R21). DESIGN CHOICE (the spec does not say what
TICK_ALIGN.LAST_ERR shows after an edge taken without a marker): it keeps the value of the last edge that had one. -/
def State.tickEdge (s : State) (f : ImageFile) : State :=
  let s := s.markerMissed
  let c := s.job.markerEdge.getD s.predictedEdge
  let err := (c - s.predictedEdge, s.predictedEdge - c)
  let s := s.upTo c
  let s := s.linksTurn (c - s.edgeAt)
  let s := if s.job.markerEdge.isSome then
      s.fset TICK_ALIGN_LAST_ERR (if err.2 != 0 then 256 - min err.2 127 else min err.1 127) else s
  let sent := s.run.healthSent
  let s := s.withRun (fun r => { r with healthSent := true })
  let count := s.tickCount + 1
  let s := s.countTick sent
  let s := match imgPlan f (s.fget TICK_PLAN_CUR) with | some p => s.starve f p | none => s
  let s := if s.run.stepRuns then s.withJob (fun j => { j with lastPlan := some (s.ccr.step, s.fget TICK_PLAN_CUR) }) else s
  let held := s.job.token
  let has := held.isSome && !s.reloading
  let plan := match held with | some (k, _) => if has then tokPlan k else s.fget TICK_PLAN_CUR | none => s.fget TICK_PLAN_CUR
  let s := if has then s.edgeTokens f else s
  let s := s.edgeSwaps
  let aborting := s.job.aborting
  let s := if has then s else s.edgeNoToken
  match aborting with
  | some (o, cause) => s.abortJob o cause count
  | none =>
    match s.job.preemptAt with
    | some (tick, reason) =>
      if tick == s.tickCount then
        let s := s.takePreempt 0 reason false s.tickCount plan c
        s.answerHeld
      else s.openTick f c count plan has
    | none => s.openTick f c count plan has

/-- TICK_EDGE. -/
def execTickEdge (s : State) : Host.Outcome State Fault Refusal :=
  .next (s.live (fun s =>
    match s.image with
    | some f => if s.run.active then s.tickEdge f else s
    | none => s))

end Sys2Proof.Machine
end

