-- ==== Sys2Proof/Machine/Faults.lean ====
section
/-! DEFINITION. Pod faults and the shadow check (R499 to R510), hull lockstep (R504 to R506), attend timers and class D
and E (R495 to R498), and the capture triggers (R514 to R517). -/

namespace Sys2Proof.Machine

/-! ### Pods (R499, R501) -/

/-- A parity failure in the physical pod that serves a logical pod. -/
def State.podFault (s : State) (n p : Nat) : State :=
  if s.unserved n p then s
  else
    let s := (s.fadd (TILE_POD_POD_FAULTS.tile n) 1).classB
    s.withTiles (fun t => { t with podPend := if t.podPend.contains (n, p) then t.podPend else t.podPend ++ [(n, p)] })

/-- POD_FAULT on a cycle, in a tile's logical pod. -/
def execPodFault (at_ tile lpod : Nat) (s : State) : Host.Outcome State Fault Refusal :=
  .next (s.live (fun s => if tile < 80 && lpod < 8 then (s.upTo at_).podFault tile lpod else s))

/-- Is the tile's spare free: not in use, not lost, not retired? -/
def State.spareUsable (s : State) (n : Nat) : Bool :=
  s.fbit (BENCH_POD_MAP_SPARE_FREE.ix n) && !s.fbit (TILE_SPARE_IN_USE.tile n) && !s.fbit (TILE_POD_SPARE_LOST.tile n)

/-- A parity failure in a free spare retires it (R501). -/
def State.spareParity (s : State) (n : Nat) : State :=
  if s.spareUsable n then
    let s := s.podRetire n (s.fget (BENCH_POD_MAP_SPARE.ix n))
    ((s.fadd (TILE_POD_POD_FAULTS.tile n) 1).fsetAll [(TILE_POD_SPARE_LOST.tile n, 1), (BENCH_POD_MAP_SPARE_FREE.ix n, 0),
      (BENCH_POD_MAP_SPARE.ix n, 15)]).classA
  else s

/-- SPARE_PARITY. -/
def execSpareParity (at_ tile : Nat) (s : State) : Host.Outcome State Fault Refusal :=
  .next (s.live (fun s => if tile < 80 then (s.upTo at_).spareParity tile else s))

/-! ### The shadow check (R507 to R510) -/

/-- Does the tile's shadow check run (R524)? -/
def State.shadowActive (s : State) (n : Nat) : Bool :=
  s.fbit (TILE_SHADOW_EN.tile n) && !s.fbit (TILE_SPARE_IN_USE.tile n) && !s.fbit (TILE_POD_SPARE_LOST.tile n)

/-- Eligible instructions (R507). -/
def shadowEligible (w : Word256) : Bool :=
  (wOpcode w == 0x10 || wOpcode w == 0x11) && (wFmt w == 1 || wFmt w == 2) && !wAdd w && !wChain w && wMaskKind w == 0 &&
  wTokDim w == 0 && decide (wKlen w ≤ 2048)

/-- Sampled on this tile (R507). -/
def State.shadowSampled (s : State) (n seq : Nat) : Bool :=
  let k := 2 ^ min (s.fget (TILE_SHADOW_LOG2_RATE.tile n)) 16
  seq % k == n % k

/-- Round a nonnegative value up to an FP32 value (R509). -/
def roundUp32 : FVal → FVal
  | .fin _ m e =>
    if m == 0 then .fin false 0 0
    else
      let q := max (e + (Nat.log2 m : Int) - 23) (-149)
      if q ≤ e then .fin false m e
      else
        let d := (q - e).toNat
        let v := ceilDiv m (2 ^ d)
        if v * 2 ^ (q + 149).toNat < 2 ^ 277 then .fin false v q else .inf false
  | .inf _ => .inf false
  | .nan => .nan

/-- The exact products of an element in increasing k, its operands as the instruction started on `c` takes them. -/
def State.shadowTerms (s : State) (n : Nat) (w : Word256) (c i j : Nat) : List FVal :=
  (range' 0 (wKlen w)).map (fun k =>
    (termOf (s.operand n (wFmt w) (wALine w) (wAScale w) (!wTA w) 1 i k (aCycle (wOpcode w == 0x10) w c 0 i k))
      (s.operand n (wFmt w) (wBLine w) (wBScale w) (wTB w) 1 j k (bCycle (wOpcode w == 0x10) w c 0 k))).v)

/-- Does the result `r` of an element mismatch (R509)? u is 2^−24. -/
def shadowMismatch (k : Nat) (terms : List FVal) (r : FVal) : Bool :=
  let exact : FVal := terms.foldl (fun (a t : FVal) => (a.add t).1) (.fin false 0 0)
  let big : FVal := terms.foldl (fun (a t : FVal) => roundUp32 (a.add t.abs).1) (.fin false 0 0)
  if r.isNan || exact.isNan then r.isNan != exact.isNan
  else
    let diff := ((r.add exact.neg).1).abs
    let bound := (((FVal.fin false (k + 2) (-24)).mul big).1.add (.fin false k (-149))).1
    bound.lt diff

/-- The elements of a sampled instruction; `seen` overrides the result that the accumulator holds, element by element. -/
def State.shadowBad (s : State) (n : Nat) (w : Word256) (seen : List Word32) : Bool :=
  let stream := wOpcode w == 0x10
  let c := s.issueAbs w
  (range' 0 (wRows w)).any (fun i => (range' 0 128).any (fun j =>
    let r := match seen[i * 128 + j]? with
      | some v => v.toNat
      | none => s.accElAt n (wAcc w) i j (rowUsable stream w c i)
    let sum := s.elemSum stream n w c (range' 0 (wKlen w)) i j none
    !sum.sat && shadowMismatch (wKlen w) (s.shadowTerms n w c i j) (f32 r)))

/-- The action of a mismatch (R510). -/
def State.shadowAct (s : State) (n : Nat) : State :=
  let mode := s.fget (TILE_SHADOW_MODE.tile n)
  let s := s.fadd (TILE_SHADOW_CNT_MISMATCHES.tile n) 1
  if mode == 0 then s.setSts (tilePage n) (TILE_STS_SHADOW_MISMATCH.tile n)
  else
    let s := if mode == 1 then s else s.classBSts (tilePage n) (TILE_STS_SHADOW_MISMATCH.tile n)
    s.classC (tilePage n) (TILE_STS_SHADOW_MISMATCH.tile n)

/-- The spare's recomputation of one instruction. -/
def State.shadowCompare (s : State) (n : Nat) (w : Word256) (seq : Nat) (seen : List Word32) : State :=
  if s.shadowActive n && shadowEligible w && s.shadowSampled n seq then
    let done := s.issueAbs w + 3 * wKlen w + 524
    let busy := match assocGet s.tiles.shadowBusy n with | some c => decide (s.issueAbs w < c) | none => false
    let late := match s.curPlan with
      | some p => decide (s.edgeAt + planFenceOf p 3 ≤ done)
      | none => true
    if busy || late then s.fadd (TILE_SHADOW_CNT_SKIPPED.tile n) 1
    else
      let s := (s.upTo done).withTiles (fun t => { t with shadowBusy := assocPut t.shadowBusy n done })
      let s := s.fadd (TILE_SHADOW_CNT_SAMPLED.tile n) 1
      if s.shadowBad n w seen then s.shadowAct n else s
  else s

/-- SHADOW_COMPARE of the instruction `w` with sequence number `seq`. -/
def execShadowCompare (tile : Nat) (w : Word256) (seq : Nat) (seen : List Word32) (s : State) :
    Host.Outcome State Fault Refusal :=
  .next (s.live (fun s => if tile < 80 && s.run.active then s.shadowCompare tile w seq seen else s))

/-! ### Lockstep (R504 to R506, R497) -/

/-- A lockstep mismatch on the current cycle. -/
def State.lockstep (s : State) : State :=
  let second := s.reloading || (match s.power.reloaded with | some c => decide (s.now ≤ c + 16777216) | none => false)
  let s := (s.fadd HULL_LOCKSTEP_MISMATCHES 1).fset HULL_LOCKSTEP_LAST_CYCLE s.relCyc
  let s := s.classBSts 0 HULL_FAULT_STS_LOCKSTEP
  if second then s.terminal 1 0 1 false false true
  else
    (s.withPower (fun p => { p with reload := some (s.now + 16384) })).withJob (fun j => { j with token := none })

/-- LOCKSTEP_MISMATCH. -/
def execLockstepMismatch (at_ : Nat) (s : State) : Host.Outcome State Fault Refusal :=
  .next (s.live (fun s => (s.upTo at_).lockstep))

/-- The reload completes; `checks` says that both mirrored records pass their check (R497, R505). -/
def State.reloadDone (s : State) (checks : Bool) : State :=
  match s.power.reload with
  | none => s
  | some c =>
    let s := s.upTo c
    if !checks || s.mirror0 != s.mirror1 then s.terminal 2 0 1 false false true
    else
      let s := if s.job.ctx.isSome then { s with ccr := s.mirror0 } else s
      s.reloadOver.withPower (fun p => { p with reloaded := some c })

/-- LOCKSTEP_RELOAD_DONE. -/
def execLockstepReloadDone (checks : Bool) (s : State) : Host.Outcome State Fault Refusal :=
  .next (s.live (fun s => s.reloadDone checks))

/-! ### Attend timers and class D (R495 to R497) -/

/-- The attend timer of a page expires. -/
def State.attendExpiry (s : State) (p : Nat) : State :=
  let a := s.attendOf p
  match a.expiry with
  | none => s
  | some c =>
    let s := s.upTo c
    let s := { s with attend := assocPut s.attend p { a with expiry := none } }
    let s := s.fset (ATTEND_EXPIRED.pageOf p) 1
    let f := a.first.getD (0, 0)
    s.classD p f.1 f.2 a.cause

/-- ATTEND_EXPIRY. -/
def execAttendExpiry (page : Nat) (s : State) : Host.Outcome State Fault Refusal :=
  .next (s.live (fun s => s.attendExpiry page))

/-- A write of 1 to ATTEND.ACK (R495). -/
def State.attendAck (s : State) (p : Nat) : State :=
  let a := s.attendOf p
  let s := s.fadd (FAULT_CNT_C_ACKED.pageOf p) 1
  { s with attend := assocPut s.attend p { a with expiry := none, first := none } }

/-- ATTEND_ACK. -/
def execAttendAck (page : Nat) (s : State) : Host.Outcome State Fault Refusal :=
  .next (s.live (fun s => if page < 108 then s.attendAck page else s))

/-- CLASS_D_TIMEOUT: a class D action of a page that began 100 ms ago or more is not complete (R497). -/
def execClassDTimeout (at_ page : Nat) (cartFails flashFails : Bool) (s : State) : Host.Outcome State Fault Refusal :=
  .next (s.live (fun s =>
    let s := s.upTo at_
    if s.power.classD.any (fun d => d.1 == page && decide (d.2 + 200000000 ≤ s.now)) then
      s.terminal 3 (pageWindow page) 1 cartFails flashFails true
    else s))

/-- TERMINAL_STOP: a class E fault with its cause code; the critical save runs with the media as they answer (R498). -/
def execTerminalStop (at_ cause window : Nat) (cartFails flashFails : Bool) (s : State) : Host.Outcome State Fault Refusal :=
  .next (s.liveE at_ cause window (fun s => (s.upTo at_).terminal cause window 1 cartFails flashFails true))

/-! ### Capture triggers (R514, R516, R517, R523) -/

/-- CAPTURE_IN: the synchronised edge is first seen on this cycle. -/
def execCaptureIn (at_ : Nat) (s : State) : Host.Outcome State Fault Refusal :=
  .next (s.live (fun s =>
    let s := s.upTo at_
    if s.fbit HULL_CAPTURE_CFG_PIN_EN then s.capTrigger (s.now + 32) 8 else s))

/-- A write of 1 to HULL_CAPTURE.NOW. -/
def State.captureNow (s : State) : State := s.capTrigger (s.now + 32) 1

/-- CAPTURE_NOW: the write reaches the hull on this cycle. -/
def execCaptureNow (at_ : Nat) (s : State) : Host.Outcome State Fault Refusal :=
  .next (s.live (fun s => (s.upTo at_).captureNow))

def State.armEdge (s : State) : State := s.fset HULL_CAPTURE_ID_ARMED_EDGE 1
def State.disarm (s : State) : State := s.fset HULL_CAPTURE_ID_ARMED_EDGE 0
def State.rearm (s : State) : State := s.fset HULL_CAPTURE_ID_HELD 0

/-- ARM_EDGE. -/
def execArmEdge (s : State) : Host.Outcome State Fault Refusal := .next (s.live (fun s => s.armEdge))

/-- DISARM. -/
def execDisarm (s : State) : Host.Outcome State Fault Refusal := .next (s.live (fun s => s.disarm))

/-- REARM. -/
def execRearm (s : State) : Host.Outcome State Fault Refusal := .next (s.live (fun s => s.rearm))

/-- CAPTURE_SEND: a write of HULL_CAPTURE_AT1.SEND. -/
def execCaptureSend (s : State) : Host.Outcome State Fault Refusal := .next (s.live (fun s => s.captureSend))

/-- HOLD_RELEASE: a write of COMMIT_HOLD.RELEASE. -/
def execHoldRelease (s : State) : Host.Outcome State Fault Refusal := .next (s.live (fun s => s.holdRelease))

end Sys2Proof.Machine
end

