-- ==== Sys2Proof/Machine/Hoard.lean ====
section
/-! DEFINITION. The hoard cartridge: identity, life, the HRD_CMD operations, harvests, removal, and the routine records
(R546 to R556, R564). -/

namespace Sys2Proof.Machine

/-! ### Identity and life (R548, R549) -/

/-- Generation registers of an area (R565). -/
def State.genRegs (s : State) (area : Nat) (g : GenHdr) : State :=
  let ok := g.state == 1 && g.gcrcOk
  s.fsetAll [(HRD_GEN_INFO_COMPLETE.ix area, ok.toNat), (HRD_GEN_INFO_GEN_SEQ.ix area, g.genSeq),
    (HRD_GEN_T_T.ix area, if ok then g.t else 0)]

/-- HRD_LIFE and what 95 % and 100 % of the rated 60 PB bring (R549). -/
def State.lifeUpdate (s : State) : State :=
  match s.power.cart with
  | none => s
  | some c =>
    let s := s.fsetAll [(HRD_LIFE_WRITTEN_GB, c.written / 1000000000), (HRD_LIFE_PERMILLE, min 1023 (c.written / 60000000000000))]
    let s := if 57000000000000000 ≤ c.written && !s.power.lifeWarned then
        (s.withPower (fun p => { p with lifeWarned := true })).classC 3 HRD_STS_LIFE_WARN
      else s
    if 60000000000000000 ≤ c.written && !s.fbit HRD_STATE_WORN then (s.fset HRD_STATE_WORN 1).classC 3 HRD_STS_WORN else s

/-- The hull reads the cartridge's identity and runs the challenge (R548). -/
def State.identify (s : State) : State :=
  match s.power.cart with
  | none =>
    (s.fsetAll [(HRD_STATE_PRESENT, 0), (HRD_STATE_LINK_UP, 0), (HRD_STATE_AUTHENTICATED, 0), (HRD_STATE_WORN, 0),
      (HRD_ID_ID, 0), (HRD_LIFE, 0), (HRD_GEN_INFO, 0), (HRD_GEN_INFO.ix 1, 0), (HRD_GEN_T, 0), (HRD_GEN_T.ix 1, 0)])
  | some c =>
    let s := s.fsetAll [(HRD_STATE_PRESENT, 1), (HRD_STATE_LINK_UP, 1), (HRD_STATE_AUTHENTICATED, c.genuine.toNat)]
    if c.genuine then
      (((s.fset HRD_ID_ID c.id).genRegs 0 c.gen0).genRegs 1 c.gen1).lifeUpdate
    else
      ((s.fset HRD_ID_ID 0).fadd HRD_CNT_AUTH_FAILS 1).classC 3 HRD_STS_AUTH_FAIL

/-- CARTRIDGE_INSERT: the slot must be empty; insertion clears RELEASED (R550). -/
def execCartridgeInsert (c : Cart) (s : State) : Host.Outcome State Fault Refusal :=
  .next (s.live (fun s =>
    if s.power.cart.isSome then s
    else (((s.withPower (fun p => { p with cart := some c })).fset HRD_STATE_RELEASED 0).identify)))

/-- CARTRIDGE_REMOVED: without a release it is a class C fault and abandons any harvest (R550, R555). -/
def execCartridgeRemoved (s : State) : Host.Outcome State Fault Refusal :=
  .next (s.live (fun s =>
    if s.power.cart.isNone then s
    else
      let released := s.fbit HRD_STATE_RELEASED
      let s := if released then s else s.abandonHarvest true
      let s := (s.withPower (fun p => { p with cart := none })).identify
      if released then s else (s.fadd HRD_CNT_REMOVALS 1).classC 3 HRD_STS_REMOVED))

/-! ### Routine records (R546, R351, R379) -/

/-- A routine record, and what writing it does to the cartridge's life. -/
def State.record' (s : State) (kind : Nat) (cartFails flashFails : Bool) : State :=
  (s.routineRec kind cartFails flashFails).lifeUpdate

/-- The tick is a no-step tick, or no tick runs. -/
def State.noStepNow (s : State) : Bool := !s.run.active || s.fget TICK_PLAN_CUR_KIND != 0

/-- ROUTINE_RECORD: SHUTDOWN 2, LANE 3 (after a lane map change, in a no-step tick), HARVEST 4. -/
def execRoutineRecord (kind : Nat) (cartFails flashFails : Bool) (s : State) : Host.Outcome State Fault Refusal :=
  .next (s.live (fun s =>
    if kind == 3 then
      if s.hub.laneDirty && s.noStepNow then
        (s.withHub (fun h => { h with laneDirty := false })).record' 3 cartFails flashFails
      else s
    else if kind == 2 || kind == 4 then s.record' kind cartFails flashFails else s))

/-! ### HRD_CMD (R564) -/

/-- An HRD_CMD operation completes with a result; PF2's vector is raised. -/
def State.hrdResult (s : State) (op r : Nat) : State :=
  (s.fsetAll [(HRD_CMD_OP, op), (HRD_CMD_BUSY, 0), (HRD_CMD_RESULT, r)]).msix 2 0

/-- Write `n` bytes of free values from `a`. -/
def State.wrFree (s : State) (a : Nat) : Nat → State
  | 0 => s
  | n + 1 => ((s.wr8 a (BitVec.ofNat 8 s.freeVal)).drawn).wrFree (a + 1) n

/-- The known bytes of a record's header (R544). -/
def critHeader (r : CritRec) : List Byte :=
  leBytes 4 0x52434C4E ++ leBytes 2 1 ++ leBytes 1 r.kind ++ leBytes 1 r.trunc ++ leBytes 8 r.seq ++ leBytes 8 r.cartId ++
  leBytes 8 r.serial ++ leBytes 8 r.tick

/-- READ_RECORD copies the newest record to the host buffer: the header as R544 lays it out; its LENGTH and CRCs, and
the sections, to whose contents the spec gives no byte places, are free values. -/
def State.readRecord (s : State) (ok : Bool) : State :=
  match s.newestRec with
  | none => s.hrdResult 3 6
  | some (r, _) =>
    if !ok then s.hrdResult 3 5
    else
      let a := s.fget HRD_ADDR_ADDR
      let s := (((s.wrBytes a (critHeader r)).wrFree (a + 40) 4).wrBytes (a + 44) (leBytes 1 r.cause ++ List.replicate 11 0)).wrFree
        (a + 56) 8
      let len := s.freeVal % (1048576 - 63)
      (s.drawn.wrFree (a + 64) len).hrdResult 3 0

/-- One HRD_CMD operation; `ok` is whether READ_RECORD's transfer succeeds. -/
def State.hrdRun (s : State) (op : Nat) (ok : Bool) : State :=
  let present := s.power.cart.isSome
  if op == 1 then
    if !s.cartUsable then s.hrdResult 1 2
    else if s.fbit HRD_STATE_WORN then s.hrdResult 1 4
    else (s.withPower (fun p => { p with harvestAsked := true })).hrdResult 1 0
  else if op == 2 then
    if !present || s.fbit HRD_STATE_RELEASED then s.hrdResult 2 2
    else if s.fbit HRD_HARVEST_ACTIVE then s.hrdResult 2 3
    else ((s.fsetAll [(HRD_STATE_RELEASED, 1), (HRD_STATE_LINK_UP, 0)]).setSts 3 HRD_STS_RELEASED).hrdResult 2 0
  else if op == 3 then s.readRecord ok
  else
    if !present || s.fbit HRD_STATE_RELEASED then s.hrdResult 4 2
    else
      let s := s.identify
      s.hrdResult 4 (if s.fbit HRD_STATE_AUTHENTICATED then 0 else 7)

/-- Start a wake to RUN, when the module is in, or entering, a low-power state (R527, R528). -/
def State.wake (s : State) : State :=
  let wakeTime (p : Nat) : Nat := if p == 1 then 20000 else if p == 2 then 6000000 else 500000000
  let go (s : State) (p c : Nat) : State :=
    ((s.fsetAll [(PWR_STATE_STATE, p), (PWR_STATE_TRANSITION, 1)]).withPower (fun x =>
      { x with trans := some (0, c + wakeTime p) })).emit (.msg "WAKE" [])
  match s.power.trans with
  | some (0, _) => s
  | some (p, c) => go s p (max s.now c)
  | none => if s.fget PWR_STATE_STATE == 0 then s else go s (s.fget PWR_STATE_STATE) s.now

/-- Does the module stand in RUN, in no transition? -/
def State.inRun (s : State) : Bool := s.fget PWR_STATE_STATE == 0 && s.power.trans.isNone

/-- GO with an operation: ignored while BUSY; in a low-power state it wakes the module and runs then (R527, R564). -/
def State.hrdGo (s : State) (op : Nat) (ok : Bool) : State :=
  if s.fbit HRD_CMD_BUSY then s
  else if op == 0 || 4 < op then s
  else if s.inRun then s.hrdRun op ok
  else (s.fsetAll [(HRD_CMD_OP, op), (HRD_CMD_BUSY, 1)]).wake

/-- HARVEST. -/
def execHarvest (s : State) : Host.Outcome State Fault Refusal := .next (s.live (fun s => s.hrdGo 1 true))

/-- RELEASE. -/
def execRelease (s : State) : Host.Outcome State Fault Refusal := .next (s.live (fun s => s.hrdGo 2 true))

/-- READ_RECORD: `ok` is whether its transfer to the host succeeds. -/
def execReadRecord (ok : Bool) (s : State) : Host.Outcome State Fault Refusal := .next (s.live (fun s => s.hrdGo 3 ok))

/-- AUTHENTICATE. -/
def execAuthenticate (s : State) : Host.Outcome State Fault Refusal := .next (s.live (fun s => s.hrdGo 4 true))

/-! ### Harvests (R551 to R556) -/

/-- The header of an area. -/
def cartGen (c : Cart) (area : Nat) : GenHdr := if area == 0 then c.gen0 else c.gen1

/-- The cartridge byte offset of an area (R547). -/
def areaBase (area : Nat) : Nat := 0x40000000 + area * 7679463129088

/-- The area a harvest writes: the one that does not hold the newest complete generation (R551). -/
def cartHarvestArea (c : Cart) : Nat :=
  let ok (g : GenHdr) : Bool := g.state == 1 && g.gcrcOk
  if ok c.gen0 && (!ok c.gen1 || decide (c.gen1.genSeq < c.gen0.genSeq)) then 1 else 0

/-- The due harvest starts at the opening edge of a no-step tick: its area's header first (R551, R553). -/
def State.harvestStart (s : State) (f : ImageFile) : State :=
  match s.power.cart with
  | none => s
  | some c =>
    let area := cartHarvestArea c
    let g : GenHdr :=
      { state := 0, genSeq := (cartGen c (1 - area)).genSeq + 1, t := s.ccr.t, step := s.ccr.step,
        tick := s.tickCount, imageId := imgId f, imageHash := imgHash f, cartId := c.id,
        modNum := s.fget HULL_ORCH_MODULE, orchard := s.fget HULL_ORCH_SIZE,
        length := s.expTotal f s.ccr s.job.lag 0, gcrcOk := true }
    let s := s.withPower (fun p =>
      { p with
        cart := some (if area == 0 then { c with gen0 := g } else { c with gen1 := g }),
        harvestCcr := s.ccr, harvestTick := s.tickCount })
    let d : Desc := { eng := 12, q := 0, ctx := s.job.ctx.getD 0, kind := .harvest, src := 0, dst := areaBase area + 4096, length := g.length }
    let s := s.withHost (fun h => { h with descs := h.descs ++ [d] })
    (s.fsetAll [(HRD_HARVEST_ACTIVE, 1), (HRD_HARVEST_AREA, area), (HRD_HARVEST_WRITTEN_4K, 0), (HRD_STATE_HARVEST_ACTIVE, 1),
      (HRD_STATE_HARVEST_DUE, 0)]).fsetAll [(HRD_GEN_INFO_COMPLETE.ix area, 0), (HRD_GEN_INFO_WRITING.ix area, 1),
      (HRD_GEN_INFO_GEN_SEQ.ix area, g.genSeq), (HRD_GEN_T_T.ix area, 0)]

/-- HARVEST_START, on the opening edge's cycle. -/
def execHarvestStart (s : State) : Host.Outcome State Fault Refusal :=
  .next (s.live (fun s =>
    match s.image with
    | some f =>
      if s.run.active && s.now == s.edgeAt && s.fget TICK_PLAN_CUR_KIND != 0 && s.fbit HRD_STATE_HARVEST_DUE &&
        !s.fbit HRD_HARVEST_ACTIVE && s.cartUsable && !s.fbit HRD_STATE_WORN then s.harvestStart f else s
    | none => s))

/-- Write a list of bytes into the cartridge. -/
def cartWrite (t : List (Nat × Byte)) (k : Nat) (l : List Byte) : List (Nat × Byte) := tabPutList memDefault t k l

/-- The harvest has written and flushed its stream (R551, R556). -/
def State.harvestDone (s : State) (f : ImageFile) (cartFails flashFails : Bool) : State :=
  match s.power.cart with
  | none => s
  | some c =>
    let area := s.fget HRD_HARVEST_AREA
    let data := s.expStream f s.power.harvestCcr s.job.lag 0 s.power.harvestTick s.job.seed
    let g := { cartGen c area with state := 1, length := data.length }
    let c := { c with bytes := cartWrite c.bytes (areaBase area + 4096) data, written := c.written + data.length + 8192 }
    let s := s.withPower (fun p =>
      { p with cart := some (if area == 0 then { c with gen0 := g } else { c with gen1 := g }), harvestBase := g.t })
    let s := s.withHost (fun h => { h with descs := h.descs.filter (fun d => d.kind != .harvest) })
    let s := s.fsetAll [(HRD_HARVEST_ACTIVE, 0), (HRD_HARVEST_WRITTEN_4K, ceilDiv (data.length + 4096) 4096),
      (HRD_STATE_HARVEST_ACTIVE, 0), (HRD_GEN_INFO_WRITING.ix area, 0)]
    let s := ((s.genRegs area g).fadd HRD_CNT_HARVESTS 1).setSts 3 HRD_STS_HARVEST_DONE
    s.record' 4 cartFails flashFails

/-- HARVEST_DONE. -/
def execHarvestDone (at_ : Nat) (cartFails flashFails : Bool) (s : State) : Host.Outcome State Fault Refusal :=
  .next (s.live (fun s =>
    match s.image with
    | some f =>
      let s := s.upTo at_
      if s.fbit HRD_HARVEST_ACTIVE then s.harvestDone f cartFails flashFails else s
    | none => s))

/-- HARVEST_ABANDONED: a harvest in progress ends with its area invalid and stays due (R555). -/
def execHarvestAbandoned (s : State) : Host.Outcome State Fault Refusal := .next (s.live (fun s => s.abandonHarvest true))

end Sys2Proof.Machine
end

