-- ==== Sys2Proof/Machine/Power.lean ====
section
/-! DEFINITION. Power: the terminal conditions and the sag (R532 to R543), the hold-up (R535 to R539), power states and
wakes (R525 to R531), the environment (R612, R618, R621 to R624), and the resets (R559 to R562, R614). -/

namespace Sys2Proof.Machine

/-! ### Terminal power conditions (R533, R540, R541) -/

/-- The bank falls below the converter floor during the write: the slot that was being written holds no valid record
(R629). -/
def State.recordCut (s : State) (cartFails : Bool) : State :=
  let seq := match s.newestRec with | some (r, _) => r.seq + 1 | none => 1
  if s.cartUsable && !cartFails then
    s.withPower (fun p => { p with cart := p.cart.map (fun c => { c with slots := slotPut c.slots (seq % 8) none }) })
  else s.withPower (fun p => { p with flash := slotPut p.flash (seq % 2) none })

/-- A sag while armed (R540, R541). `bankLasts` says whether the energy lasts when the override is in force (R629). -/
def State.sag (s : State) (cartFails flashFails bankLasts : Bool) : State :=
  if s.fbit PWR_STATE_ARMED then
    let s := s.fset PWR_STATE_ARMED 0
    if bankLasts || !s.fbit CAP_MEAS_OVERRIDDEN then s.terminal 4 0 0 cartFails flashFails true
    else (s.terminal 4 0 0 cartFails flashFails false).recordCut cartFails
  else s

/-- SAG. -/
def execSag (at_ : Nat) (cartFails flashFails bankLasts : Bool) (s : State) : Host.Outcome State Fault Refusal :=
  .next (s.liveE at_ (if s.fbit PWR_STATE_ARMED then 4 else 7) 0 (fun s => (s.upTo at_).sag cartFails flashFails bankLasts))

/-- OVER_VOLTAGE. -/
def execOverVoltage (at_ : Nat) (cartFails flashFails : Bool) (s : State) : Host.Outcome State Fault Refusal :=
  .next (s.liveE at_ 4 0 (fun s => (s.upTo at_).terminal 4 0 1 cartFails flashFails true))

/-- OVER_CURRENT. -/
def execOverCurrent (at_ : Nat) (cartFails flashFails : Bool) (s : State) : Host.Outcome State Fault Refusal :=
  .next (s.liveE at_ 4 0 (fun s => (s.upTo at_).terminal 4 0 1 cartFails flashFails true))

/-- RAIL_FAULT. -/
def execRailFault (at_ : Nat) (cartFails flashFails : Bool) (s : State) : Host.Outcome State Fault Refusal :=
  .next (s.liveE at_ 4 0 (fun s => (s.upTo at_).terminal 4 0 1 cartFails flashFails true))

/-! ### Hold-up (R537, R539) -/

/-- The bank may arm: it is not below its floor, or is overridden. -/
def State.bankOk (s : State) : Bool := !s.fbit CAP_MEAS_BELOW_FLOOR || s.fbit CAP_MEAS_OVERRIDDEN

/-- Arm the hold-up when both conditions of R539 hold. -/
def State.arm (s : State) : State := if s.power.busUp && s.bankOk then s.fset PWR_STATE_ARMED 1 else s

/-- HOLDUP_ARMED: the bus stands at 45.0 V or more. -/
def execHoldupArmed (at_ : Nat) (s : State) : Host.Outcome State Fault Refusal :=
  .next (s.live (fun s => ((s.upTo at_).withPower (fun p => { p with busUp := true })).arm))

/-- A write of 1 to CAP_CFG.OVERRIDE (R537). -/
def State.capOverride (s : State) : State :=
  if s.fbit CAP_MEAS_BELOW_FLOOR then (s.fset CAP_MEAS_OVERRIDDEN 1).arm else s

/-- CAP_OVERRIDE. -/
def execCapOverride (s : State) : Host.Outcome State Fault Refusal := .next (s.live (fun s => s.capOverride))

/-- POWER_OVER_LIMIT: a 1 ms window above 12.0 kW (R534). -/
def execPowerOverLimit (at_ : Nat) (s : State) : Host.Outcome State Fault Refusal :=
  .next (s.live (fun s => ((s.upTo at_).fadd PWR_CNT_OVER_LIMIT 1).classC 2 PWR_STS_OVER_LIMIT))

/-- OUTSIDE_RATING: an input above 60 V, up to 62 V (R532). -/
def execOutsideRating (at_ : Nat) (s : State) : Host.Outcome State Fault Refusal :=
  .next (s.live (fun s => (s.upTo at_).classC 2 PWR_STS_OVER_LIMIT))

/-! ### Sensors (R621 to R624) -/

/-- Compare an FP32 reading with a whole number. -/
def readAbove (v limit : Nat) : Bool := (FVal.fin false limit 0).lt (f32 v)
def readBelow (v limit : Nat) : Bool := (f32 v).lt (.fin false limit 0)

/-- The warning of a sensor id (R621): its PWR_ENV_FIRST cause and whether a reading is past its limit; stacks 0x200 on
warn in the hub (cause none). -/
def sensorWarns (id v : Nat) : Option (Option Nat × Bool) :=
  if id == 0x10 then some (some 0, readBelow v 17 || readAbove v 40)
  else if id == 0x12 then some (some 1, readBelow v 8)
  else if 0x100 ≤ id && id < 0x116 then some (some 2, readAbove v 100)
  else if 0x200 ≤ id && id < 0x210 then some (none, readAbove v 95)
  else if id == 0x300 then some (some 3, readAbove v 70)
  else none

/-- The status bit of a PWR_ENV_FIRST cause. -/
def envSts (cause : Nat) : Fld :=
  if cause == 0 then PWR_ENV_STS_COOLANT_WARN else if cause == 1 then PWR_ENV_STS_FLOW_LOW
  else if cause == 2 then PWR_ENV_STS_DIE_WARN else PWR_ENV_STS_CART_WARN

/-- The first environment event. -/
def State.envFirst (s : State) (sensor value cause : Nat) : State :=
  s.record PWR_ENV_FIRST_VALID [(PWR_ENV_FIRST_SENSOR, sensor), (PWR_ENV_FIRST_VALUE, value), (PWR_ENV_FIRST_CAUSE, cause)]

/-- HUB_STACK of stack `k`. -/
def stackFld (f : Fld) (k : Nat) : Fld := (f.die (k / 4)).ix (k % 4)

/-- A sensor's reading crosses its warning limit: raised again only after 1 s back inside it (R622). -/
def State.thermalWarn (s : State) (id v : Nat) : State :=
  match sensorWarns id v with
  | some (cause, true) =>
    let again := match assocGet s.power.warned id with
      | none => true
      | some (some c) => decide (c + 2000000000 ≤ s.now)
      | some none => false
    let s := s.withPower (fun p => { p with warned := assocPut p.warned id none, sensors := assocPut p.sensors id v })
    if again then
      match cause with
      | some c => (s.envFirst id v c).classC 2 (envSts c)
      | none => s.classC (8 + (id - 0x200) / 4) (stackFld HUB_STACK_HOT (id - 0x200))
    else s
  | _ => s

/-- THERMAL_WARN. -/
def execThermalWarn (at_ sensor : Nat) (value : Word32) (s : State) : Host.Outcome State Fault Refusal :=
  .next (s.live (fun s => (s.upTo at_).thermalWarn sensor value.toNat))

/-- Is a reading terminal: a junction above 115 °C or a stack above 105 °C (R621)? -/
def thermalPast (id v : Nat) : Bool :=
  (decide (0x100 ≤ id) && decide (id < 0x116) && readAbove v 115) ||
    (decide (0x200 ≤ id) && decide (id < 0x210) && readAbove v 105)

/-- A junction above 115 °C or a stack above 105 °C for 1 ms (R621). -/
def State.thermalTerminal (s : State) (id v : Nat) (cartFails flashFails : Bool) : State :=
  if thermalPast id v then (s.envFirst id v 6).terminal 5 0 1 cartFails flashFails true else s

/-- THERMAL_TERMINAL. -/
def execThermalTerminal (at_ sensor : Nat) (value : Word32) (cartFails flashFails : Bool) (s : State) :
    Host.Outcome State Fault Refusal :=
  .next (s.liveE at_ (if thermalPast sensor value.toNat then 5 else 7) 0 (fun s =>
    (s.upTo at_).thermalTerminal sensor value.toNat cartFails flashFails))

/-- A reading in units of 1/`k`, to the nearest unit, in 16 bits. -/
def unitsOf (v k : Nat) : Nat :=
  match f32 v with
  | .fin false m e => min 65535 (rneTo (m * k) e 0).1
  | .inf false => 65535
  | _ => 0

/-- The readings of a sample take effect in the registers that show them (R563, R624, HUB_STACK). -/
def State.sensorRegs (s : State) (id v : Nat) : State :=
  if id == 1 then s.fset PWR_INPUT_VIN (unitsOf v 100)
  else if id == 2 then s.fset PWR_INPUT_IIN (unitsOf v 100)
  else if id == 3 then s.fset PWR_INPUT_PIN (unitsOf v 1)
  else if id == 4 then s.fset PWR_INPUT_PKG (unitsOf v 1)
  else if id == 0x10 then s.fset PWR_COOLANT_INLET (unitsOf v 100)
  else if id == 0x11 then s.fset PWR_COOLANT_OUTLET (unitsOf v 100)
  else if id == 0x12 then s.fset PWR_COOLANT_FLOW (unitsOf v 100)
  else if 0x200 ≤ id && id < 0x210 then
    s.fsetAll [(stackFld HUB_STACK_TEMP (id - 0x200), min 255 (unitsOf v 1)), (stackFld HUB_STACK_HOT (id - 0x200), (readAbove v 95).toNat)]
  else s

/-- A warned sensor's reading is back inside its limit, or past it again. -/
def State.sensorInside (s : State) (id v : Nat) : State :=
  match assocGet s.power.warned id, sensorWarns id v with
  | some since, some (_, past) =>
    s.withPower (fun p => { p with warned := assocPut p.warned id (if past then none else some (since.getD s.now)) })
  | _, _ => s

/-- The sensors are sampled; every 100 ms each reading goes out as a telemetry record (R461, R623). -/
def State.sensorSample (s : State) (readings : List (Nat × Word32)) : State :=
  let s := readings.foldl (fun s r =>
    ((s.withPower (fun p => { p with sensors := assocPut p.sensors r.1 r.2.toNat })).sensorRegs r.1 r.2.toNat).sensorInside
      r.1 r.2.toNat) s
  if s.power.telemetryAt + 200000000 ≤ s.now then
    let s := s.withPower (fun p => { p with telemetryAt := s.now })
    readings.foldl (fun s r => s.post 3 [evWord 0x80 true 0 0
      (r.1 % 65536 * 2 ^ 16 + r.2.toNat * 2 ^ 32 + s.tickCount % 2 ^ 32 * 2 ^ 64)]) s
  else s

/-- SENSOR_SAMPLE. -/
def execSensorSample (at_ : Nat) (readings : List (Nat × Word32)) (s : State) : Host.Outcome State Fault Refusal :=
  .next (s.live (fun s => (s.upTo at_).sensorSample readings))

/-! ### Clock source (R59, R618) -/

/-- A write of TICK_CLKSRC.SRC: reserved values and the value in force aside, LOCKED reads 0 until lock (R59, R67). -/
def State.clksrcWrite (s : State) (src : Nat) : State :=
  if 16 < src then s else s.fsetAll [(TICK_CLKSRC_SRC, src), (TICK_CLKSRC_LOCKED, 0)]

/-- Is the selected source present and within its rating: REFCLK by the sender's word, a link when it is trained in
management or deterministic mode? -/
def State.clkUsable (s : State) : Bool :=
  let src := s.fget TICK_CLKSRC_SRC
  if src == 0 then true
  else 2 ≤ s.fget (lnkFld LNK_STATE_MODE (src - 1))

/-- CLK_LOCKED: CCLK has locked to the selected source. -/
def execClkLocked (at_ : Nat) (s : State) : Host.Outcome State Fault Refusal :=
  .next (s.live (fun s =>
    let s := s.upTo at_
    if s.clkUsable then s.fset TICK_CLKSRC_LOCKED 1 else s))

/-- Loss of lock of the selected source; during a job it is a class D fault, whose status bit the power block holds and
whose action, a job reset, is the tick block's (R618). -/
def State.clkLost (s : State) : State :=
  let s := s.fset TICK_CLKSRC_LOCKED 0
  if s.job.ctx.isSome then
    ((s.envFirst 0 0 4).setSts 2 PWR_ENV_STS_CLK_LOST).classD 2 0x300 4 5
  else s

/-- CLK_LOST. -/
def execClkLost (at_ : Nat) (s : State) : Host.Outcome State Fault Refusal :=
  .next (s.live (fun s => (s.upTo at_).clkLost))

/-! ### Cold reset (R535, R536, R546, R559, R561) -/

/-- Everything but the K-class fields, the fuses, the flash, the cartridge and memory outside HBM is lost. -/
def State.coldClear (s : State) : State :=
  let t := (s.clearRegs (fun _ f => f.surv != .k)).zero 0 0x10000000000
  { State.reset with
    now := s.now, pending := s.pending, regs := t.regs, mem := t.mem, outbox := s.outbox, fresh := s.fresh,
    power := { flash := s.power.flash, cart := s.power.cart, sensors := s.power.sensors },
    hub := { pprUsed := s.hub.pprUsed },
    bench := { owner := s.bench.owner } }

/-- PF3 leaves enumeration at the next warm or cold reset of a closed module (R597). -/
def State.benchGone (s : State) : State := if s.fbit HULL_ID_FIELD_CLOSED then s.fset HULL_ID_BENCH_PRESENT 0 else s

/-- The power-up pod test: `fails` are the physical pods that fail it, as 9 · tile + pod (R502). -/
def State.podTest (s : State) (fails : List Nat) : State :=
  (range' 0 80).foldl (fun s n =>
    let bad (p : Nat) : Bool := fails.contains (9 * n + p)
    if (range' 0 9).any bad then
      let mask := (range' 0 9).foldl (fun m p => if bad p then m + 2 ^ p else m) 0
      let s := s.fset (BENCH_POD_MAP_RETIRED.ix n) mask
      let s := if bad 8 then s.fsetAll [(TILE_POD_SPARE_LOST.tile n, 1), (BENCH_POD_MAP_SPARE_FREE.ix n, 0), (BENCH_POD_MAP_SPARE.ix n, 15)]
        else s
      ((range' 0 8).filter bad).foldl (fun s p =>
        if s.fbit (BENCH_POD_MAP_SPARE_FREE.ix n) then
          s.fsetAll [(podMapFld n p, 8), (BENCH_POD_MAP_SPARE_FREE.ix n, 0), (BENCH_POD_MAP_SPARE.ix n, 15), (TILE_SPARE_IN_USE.tile n, 1)]
        else
          let s := s.fset (podMapFld n p) 15
          let s := if s.fbit (TILE_POD_UNSERVED.tile n) then s
            else s.fsetAll [(TILE_POD_UNSERVED.tile n, 1), (TILE_POD_LPOD.tile n, p), (TILE_SPARE_EXHAUSTED.tile n, 1)]
          s.fset (TILE_POD_UNSERVED_MASK.tile n) (Nat.lor (s.fget (TILE_POD_UNSERVED_MASK.tile n)) (2 ^ p))) s
    else s) s

/-- HBM and links train from the newest record's lane maps, and the record is reported (R351, R379, R546). -/
def State.takeRecord (s : State) : State :=
  match s.newestRec with
  | none => s
  | some (r, medium) =>
    let s := s.reportRec r medium
    let s := s.withHub (fun h => { h with laneMap := r.hbmLanes, laneBad := r.hbmBad })
    let s := r.hbmBad.foldl (fun s e =>
      let stack := e / 2 ^ 20
      let ch := e / 2 ^ 12 % 2 ^ 8
      if 256 ≤ e % 2 ^ 12 then s.fset (chanFld HUB_LANE_CA_SPARE stack ch) 1
      else s.fset (chanFld HUB_LANE_DATA_SPARES stack ch) (s.fget (chanFld HUB_LANE_DATA_SPARES stack ch) + 1)) s
    r.linkLanes.foldl (fun s e =>
      if e.2.2 == 3 then s.fset (lnkFld LNK_STATE_EXHAUSTED_RX e.1) 1
      else
      let s := s.withLink e.1 (fun (k : LinkSt) =>
        { k with spareFor := k.spareFor ++ [e.2], laneBad := k.laneBad ++ [e.2] })
      if e.2.1 == 1 then s.fset (lnkFld LNK_STATE_SPARE_RX e.1) 1 else s) s

/-- The measurement of the bank: `time` is its rise from 20.0 V to 40.0 V in units of 100 µs (R535, R536). -/
def State.capMeasure (s : State) (time : Nat) : State :=
  let uf := min 65535 (10 * time)
  let s := s.fsetAll [(CAP_MEAS_CAP_UF, uf), (CAP_MEAS_TIME, min 65535 time),
    (CAP_MEAS_DEGRADED, if 5400 ≤ uf && uf < 7200 then 1 else 0), (CAP_MEAS_BELOW_FLOOR, if uf < 5400 then 1 else 0)]
  if uf < 5400 then s.classC 2 PWR_STS_CAP_BELOW_FLOOR
  else if uf < 7200 then s.classC 2 PWR_STS_CAP_DEGRADED else s

/-- At the training of a cold reset a lane's margin falls below the limit: a free spare replaces it at once, or its channel is
exhausted (R348, R350). -/
def State.laneTrain (s : State) (e : Nat × Nat × Nat) : State :=
  let stack := e.1 % 16
  let ch := e.2.1 % 32
  let lane := e.2.2 % 4096
  let k := stack / 4
  let key := laneKey stack ch lane
  if s.hub.laneBad.contains key then s
  else
    match s.sparesFree stack ch lane with
    | i :: _ =>
      let s := s.withHub (fun h => { h with laneMap := assocPut h.laneMap key i, laneBad := h.laneBad ++ [key], laneDirty := true })
      if 256 ≤ lane then s.fset (chanFld HUB_LANE_CA_SPARE stack ch) 1
      else s.fset (chanFld HUB_LANE_DATA_SPARES stack ch) (s.fget (chanFld HUB_LANE_DATA_SPARES stack ch) + 1)
    | [] => ((s.fset (chanFld HUB_LANE_EXHAUSTED stack ch) 1).classC (8 + k) (HUB_STS_LANE_EXHAUSTED.die k)).hubFirst stack ch 6

/-- HBM interface training completes: a lane that the bench function has returned serves its position again (R588), and of the
training of a cold reset the lanes below the limit are retired; a warm reset retires nothing (R348, R351). -/
def State.trained (s : State) (low : List (Nat × Nat × Nat)) : State :=
  let s := (range' 0 16).foldl (fun s k => s.fset (stackFld HUB_STACK_TRAINED k) 1) s
  let s := s.withHub (fun h => { h with laneMap := h.laneMap.filter (fun p => h.laneBad.contains p.1) })
  low.foldl (fun s e => s.laneTrain e) s

/-- The host port trains and the memory port's expanders are enumerated (R360, R416). -/
def State.portsTrain (s : State) (p : PortsIn) : State :=
  let s := s.fsetAll [(HOST_LINK_MODE, p.mode), (HOST_LINK_WIDTH, p.width), (HOST_LINK_FLIT, p.flit.toNat)]
  let s := s.withPower (fun q => { q with hdmAbsent := p.mode == 4 && !p.hdm })
  let s := (range' 0 4).foldl (fun s i => s.fset (HULL_SLOW_EXP.ix i) 0) s
  p.expanders.foldl (fun s e =>
    let up := decide (1 ≤ e.2.1) && decide (e.2.1 ≤ 2) && decide (e.2.2 ≤ 2048)
    if 4 ≤ e.1 then s
    else s.fsetAll [(HULL_SLOW_EXP_PRESENT.ix e.1, 1), (HULL_SLOW_EXP_UP.ix e.1, up.toNat),
      (HULL_SLOW_EXP_GEN.ix e.1, if up then e.2.1 else 0), (HULL_SLOW_EXP_CAPACITY.ix e.1, if up then e.2.2 else 0)]) s

/-- Cold reset, after power-on, a power cycle, or an input that was below 40 V. MADDR is sampled (R617). -/
def State.coldReset (s : State) (time : Nat) (fails : List Nat) (ports : PortsIn) : State :=
  let s := ((s.coldClear.benchGone.podTest fails).takeRecord).trained ports.low
  let s := s.withPower (fun p => { p with maddr := ports.maddr % 8 })
  ((s.newNonce.identify).capMeasure time).portsTrain ports

/-- Does the module wait for a cold reset? -/
def State.coldWaits (s : State) : Bool :=
  match s.power.halt with | .off => true | .inReset c => c | _ => false

/-- COLD_RESET. -/
def execColdReset (at_ time : Nat) (fails : List Nat) (ports : PortsIn) (s : State) : Host.Outcome State Fault Refusal :=
  .next (if s.coldWaits then (s.upTo at_).coldReset time fails ports else s)

/-- INPUT_LOW_RESET: the input below 40.0 V holds the module in reset with a cold reset's effects (R532). -/
def execInputLowReset (at_ : Nat) (s : State) : Host.Outcome State Fault Refusal :=
  .next (match s.power.halt with
    | .no => (s.upTo at_).coldClear.withPower (fun p => { p with halt := .inReset true })
    | .inReset _ => (s.upTo at_).coldClear.withPower (fun p => { p with halt := .inReset true })
    | _ => s)

/-- POWER_CYCLE: nothing answers until the cold reset (R531, R612). -/
def execPowerCycle (at_ : Nat) (s : State) : Host.Outcome State Fault Refusal :=
  .next ((s.upTo at_).coldClear.withPower (fun p => { p with halt := .off }))

/-- EN_DROP: the sequence of R541 with a SHUTDOWN record; the module then stays stopped (R612). -/
def State.enDrop (s : State) (cartFails flashFails : Bool) : State :=
  let s := ((s.envFirst 0 0 5).setSts 2 PWR_ENV_STS_EN_DROP).abandonHarvest false
  let s := (s.writeRec 2 0 cartFails flashFails).1.stopAll
  (s.zero 0 0x10000000000).withPower (fun p => { p with halt := .stopped 0 })

/-- EN_DROP. -/
def execEnDrop (at_ : Nat) (cartFails flashFails : Bool) (s : State) : Host.Outcome State Fault Refusal :=
  .next (s.live (fun s => (s.upTo at_).enDrop cartFails flashFails))

/-! ### Warm and hot resets and FLRs (R421, R559 to R562, R614) -/

/-- What every function's FLR together brings, less the report. -/
def State.allFlr (s : State) : State := ((s.flrPf1.flrPf0).flrPf2).flrPf3

/-- What outside the registers a warm reset takes: attention timers, half-read words, the tiles' memories, the rings, the
register path. -/
def State.shellGone (s : State) : State :=
  { s with attend := [], snaps := [], tiles := { podPend := s.tiles.podPend }, rings := [{}, {}], router := { rwlOpen := true } }

/-- The effects of a warm reset (R561). -/
def State.warmReset (s : State) : State :=
  let before := s.regGet PWR_RESTORE_STS.base
  let s := s.allFlr
  let s := s.clearRegs (fun _ f => f.surv == .w || f.surv == .f || f.surv == .j)
  let s := s.shellGone
  let s := (range' 0 16).foldl (fun s k => s.fset (stackFld HUB_STACK_SELF_REFRESH k) 1) s
  let s := { s with cap := { s.cap with pend := [] } }
  let s := (s.withBench (fun b => { b with fuseBuf := 0, scan := [] })).benchGone
  let s := s.withPower (fun p => { p with trans := none, reload := none, reloaded := none, warned := [], classD := [] })
  (s.regPut PWR_RESTORE_STS.base before).restoreSts 2 14 0 0 false false false

/-- WARM_RESET: held until its release (R614). -/
def execWarmReset (at_ : Nat) (s : State) : Host.Outcome State Fault Refusal :=
  .next (s.live (fun s => (s.upTo at_).warmReset.withPower (fun p => { p with halt := .inReset false })))

/-- WARM_RESET_RELEASE: 10 µs after RST_MOD_N rises the module comes out of reset; the cartridge is challenged (R548). -/
def execWarmResetRelease (at_ : Nat) (ports : PortsIn) (s : State) : Host.Outcome State Fault Refusal :=
  .next (match s.power.halt with
    | .inReset false =>
      let s := s.upTo at_
      let s := (s.upTo (s.now + 20000)).withPower (fun p => { p with halt := .no })
      let s := (range' 0 16).foldl (fun s k => s.fset (stackFld HUB_STACK_SELF_REFRESH k) 0) s
      ((s.trained []).identify).portsTrain ports
    | _ => s)

/-- HOT_RESET: an FLR of every function (R559). -/
def State.hotReset (s : State) : State :=
  let before := s.regGet PWR_RESTORE_STS.base
  ((s.allFlr.clearJ).regPut PWR_RESTORE_STS.base before).restoreSts 3 12 0 0 false false false

/-- HOT_RESET. -/
def execHotReset (at_ : Nat) (s : State) : Host.Outcome State Fault Refusal :=
  .next (s.live (fun s => (s.upTo at_).hotReset))

/-- FLR_PF0. -/
def execFlrPf0 (at_ : Nat) (s : State) : Host.Outcome State Fault Refusal := .next (s.live (fun s => (s.upTo at_).flrPf0))

/-- FLR_PF1. -/
def execFlrPf1 (at_ : Nat) (s : State) : Host.Outcome State Fault Refusal := .next (s.live (fun s => (s.upTo at_).flrPf1))

/-- FLR_PF2. -/
def execFlrPf2 (at_ : Nat) (s : State) : Host.Outcome State Fault Refusal := .next (s.live (fun s => (s.upTo at_).flrPf2))

/-- FLR_PF3. -/
def execFlrPf3 (at_ : Nat) (s : State) : Host.Outcome State Fault Refusal := .next (s.live (fun s => (s.upTo at_).flrPf3))

/-! ### Power states (R526 to R530) -/

/-- What refuses a request for a low-power state (R526). -/
def State.powerBusy (s : State) : Bool :=
  s.job.ctx.isSome || s.ctxs.any (fun c => c.state == .running || c.loading) || s.fbit HRD_HARVEST_ACTIVE ||
  s.host.exp.isSome || s.host.saving.isSome || !s.host.cmds.isEmpty || s.fbit HRD_CMD_BUSY

/-- A refused request. -/
def State.powerRefused (s : State) : State := s.setSts 2 PWR_STS_STATE_REFUSED

/-- GO with a target of IDLE 1, FALLOW 2 or DORMANT 3. -/
def State.powerEnter (s : State) (target : Nat) : State :=
  if s.powerBusy || !s.inRun then s.powerRefused
  else
    let time := if target == 1 then 4096 else if target == 2 then 2000000 else 40000000
    (s.fset PWR_STATE_TRANSITION 1).withPower (fun p => { p with trans := some (target, s.now + time) })

/-- GO with a target of OFF: a SHUTDOWN record, then the power stage switches off (R530). -/
def State.powerOff (s : State) (cartFails flashFails : Bool) : State :=
  if s.powerBusy || !s.inRun then s.powerRefused
  else (s.record' 2 cartFails flashFails).coldClear.withPower (fun p => { p with halt := .off })

/-- A write of PWR_STATE.GO with the TARGET that stands. -/
def State.powerGo (s : State) (target : Nat) (cartFails flashFails : Bool) : State :=
  if target == 1 || target == 2 || target == 3 then s.powerEnter target
  else if target == 4 then s.powerOff cartFails flashFails else s

/-- PWR_IDLE. -/
def execPwrIdle (s : State) : Host.Outcome State Fault Refusal := .next (s.live (fun s => (s.fset PWR_STATE_TARGET 1).powerEnter 1))

/-- PWR_FALLOW. -/
def execPwrFallow (s : State) : Host.Outcome State Fault Refusal := .next (s.live (fun s => (s.fset PWR_STATE_TARGET 2).powerEnter 2))

/-- PWR_DORMANT. -/
def execPwrDormant (s : State) : Host.Outcome State Fault Refusal := .next (s.live (fun s => (s.fset PWR_STATE_TARGET 3).powerEnter 3))

/-- PWR_OFF. -/
def execPwrOff (cartFails flashFails : Bool) (s : State) : Host.Outcome State Fault Refusal :=
  .next (s.live (fun s => (s.fset PWR_STATE_TARGET 4).powerOff cartFails flashFails))

/-- POWER_STATE_ENTERED: the entry completes; SRAM contents are lost in FALLOW and DORMANT (R528). -/
def State.powerEntered (s : State) : State :=
  match s.power.trans with
  | some (p, c) =>
    if p == 0 then s
    else
      let s := ((s.upTo c).fsetAll [(PWR_STATE_STATE, p), (PWR_STATE_TRANSITION, 0)]).withPower (fun x => { x with trans := none })
      if p == 1 then s
      else
        let s := s.withTiles (fun t => { podPend := t.podPend })
        (range' 0 16).foldl (fun s k => s.fset (stackFld HUB_STACK_SELF_REFRESH k) 1) s
  | none => s

/-- POWER_STATE_ENTERED. -/
def execPowerStateEntered (s : State) : Host.Outcome State Fault Refusal := .next (s.live (fun s => s.powerEntered))

/-- WAKE. -/
def execWake (at_ : Nat) (s : State) : Host.Outcome State Fault Refusal := .next (s.live (fun s => (s.upTo at_).wake))

/-- The registers that DORMANT loses: the tiles' and the crackers' own (R529). -/
def dormantLost (k : Nat) : Bool :=
  (decide (0x14000000 ≤ k) && decide (k < 0x1C000000) && decide (0x100000 ≤ k % 0x1000000)) ||
  (decide (0x10000000 ≤ k) && decide (k < 0x14000000) && decide (0x200 ≤ k % 0x1000000) && decide (k % 0x1000000 < 0x240))

/-- No tile has an attend timer running or a fault unacknowledged: their ATTEND registers are at reset (R529). -/
def State.tileAttendGone (s : State) : State := { s with attend := s.attend.filter (fun e => decide (e.1 < 28)) }

/-- The _SNAP copies of the crackers' registers are at their reset value 0 with them (R522, R529). -/
def State.crkSnapsGone (s : State) : State :=
  let keys := (range' 0 4).flatMap (fun k => (range' 0 8).map (fun c => ((SLV_CRK.die k).ix c).base))
  { s with snaps := keys.foldl (fun t k => tabPut resetOf t k 0) s.snaps }

/-- The wake completes (R528, R529, R562); a hoard command that caused it runs now (R527). -/
def State.wakeDone (s : State) (fails : List Nat) : State :=
  match s.power.trans with
  | some (0, c) =>
    let from_ := s.fget PWR_STATE_STATE
    let s := ((s.upTo c).fsetAll [(PWR_STATE_STATE, 0), (PWR_STATE_TRANSITION, 0)]).withPower (fun x => { x with trans := none })
    let s := (range' 0 16).foldl (fun s k => s.fset (stackFld HUB_STACK_SELF_REFRESH k) 0) s
    let s := if from_ == 3 then
        ((s.clearRegs (fun k _ => dormantLost k)).clearRegs (fun k _ => decide (BENCH_POD_MAP.base ≤ k) &&
          decide (k < BENCH_POD_MAP.base + 640))).podTest fails
        |>.tileAttendGone |>.crkSnapsGone
      else s
    let s := (s.fadd PWR_CNT_WAKES 1).setSts 2 PWR_STS_WOKE
    let s := s.restoreSts (9 + from_) 0 (if from_ == 3 then 255 else 0) (if from_ == 3 then 15 else 0) false false (from_ == 3)
    if s.fbit HRD_CMD_BUSY then (s.fset HRD_CMD_BUSY 0).hrdRun (s.fget HRD_CMD_OP) true else s
  | _ => s

/-- WAKE_DONE; `fails` are the pods that fail the test of R502 after DORMANT. -/
def execWakeDone (fails : List Nat) (s : State) : Host.Outcome State Fault Refusal := .next (s.live (fun s => s.wakeDone fails))

end Sys2Proof.Machine
end

