-- ==== Sys2Proof/Machine/Queues.lean ====
section
/-! DEFINITION. The clock-crossing queues: the command port, producers and gap markers, idle timeouts, pointer
mismatches, and the ring writers (R452 to R461). -/

namespace Sys2Proof.Machine

/-- The one-bit field of FIFO `f` within a four-bit field of EVQ_STS. -/
def fifoBit (g : Fld) (f : Nat) : Fld := { g with lo := g.lo + f, wd := 1 }

/-- Do the functional ports stand: EXTEST has not taken the pins (R594)? -/
def State.portsUp (s : State) : Bool := !s.bench.extest

/-! ### The command port (R458) -/

/-- The gap marker of command ingress: OPCODE 0, END, and the number of words dropped in bytes 8 to 11. -/
def cmdGap (n : Nat) : BitVec 512 := BitVec.ofNat 512 (256 + min n (2 ^ 32 - 1) * 2 ^ 64)

/-- END of a command word. -/
def cmdEnd (w : BitVec 512) : Bool := bvBits w 8 1 == 1

/-- Command ingress takes a word that finds two entries free, its gap marker ahead of it; else it drops the word. -/
def State.commandWord (s : State) (w : BitVec 512) : State :=
  let q := s.fifo 0
  if fifoEntries 0 < q.items.length + 2 then
    let s := (s.setFifo 0 (fun q => { q with dropped := q.dropped + 1 })).fadd (EVQ_LEVEL_DROPPED.ix 0) 1
    s.setSts 7 (fifoBit EVQ_STS_DROP 0)
  else
    let ws := (if q.dropped == 0 then [] else [cmdGap q.dropped]) ++ [w]
    let whole := ws.any cmdEnd
    let s := s.setFifo 0 (fun q =>
      { q with
        items := q.items ++ ws, dropped := 0,
        waitingSince := if whole then some (q.waitingSince.getD s.now) else q.waitingSince })
    s.wake

/-- A write to the command port of `size` bytes at window-7 offset `offset`. -/
def State.portWrite (s : State) (offset size : Nat) (w : BitVec 512) : State :=
  if offset < 0x100000 || 0x110000 ≤ offset then s
  else if size != 64 || offset % 64 != 0 then (s.fadd EVQ_CMD_CREDIT_PORT_ERRORS 1).setSts 7 EVQ_STS_PORT_ERROR
  else s.commandWord w

/-- COMMAND_WORD: one transaction of the host at the command port. -/
def execCommandWord (at_ offset size : Nat) (word : BitVec 512) (s : State) : Host.Outcome State Fault Refusal :=
  .next (s.live (fun s => if s.portsUp then (s.upTo at_).portWrite offset size word else s))

/-! ### Producers (R454, R460, R461) -/

/-- A whole packet of a producer: command words one by one into FIFO 0 (R458), else event words whose payload bits
[127:16] are given; word 0 carries the tick count in its place, and TICK events need their mask (R461). -/
def State.packetWrite (s : State) (f typ ctx : Nat) (payload : List (BitVec 112)) : State :=
  if payload.isEmpty || 8 < payload.length || 3 < f || f == 0 then s
  else if f == 1 && typ % 256 == 10 && !s.fbit EVQ_EVMASK_TICK then s
  else
    let ps := payload.map (fun p => p.toNat * 2 ^ 16)
    let ps := match ps with
      | p :: r => (p - getBits p 16 32 * 2 ^ 16) :: r
      | [] => []
    if f == 1 then s.event typ ctx ps else s.post f (evPacket typ ctx s.tickCount 0 ps)

/-- FIFO_PACKET_WRITE into event egress, trace egress or telemetry; command ingress is written by COMMAND_WORD. -/
def execFifoPacketWrite (at_ fifo typ ctx : Nat) (payload : List (BitVec 112)) (s : State) :
    Host.Outcome State Fault Refusal :=
  .next (s.live (fun s => (s.upTo at_).packetWrite fifo typ ctx payload))

/-! ### Consumers (R455) -/

/-- The first whole packet of a list of items, as `isEnd` shows it, and the rest. -/
def splitPacket (isEnd : BitVec 512 → Bool) : List (BitVec 512) → Option (List (BitVec 512) × List (BitVec 512))
  | [] => none
  | w :: r => if isEnd w then some ([w], r) else (splitPacket isEnd r).map (fun p => (w :: p.1, p.2))

/-- A consumer takes the first whole packet of a FIFO. -/
def State.takePacket (s : State) (f : Nat) : Option (List (BitVec 512) × State) :=
  (splitPacket cmdEnd (s.fifo f).items).map (fun p => (p.1, s.setFifo f (fun q =>
    { q with items := p.2, waitingSince := if p.2.any cmdEnd then some s.now else none })))

/-- The management firmware takes up to `n` whole packets of telemetry. -/
def State.telemetryTake (s : State) : Nat → State
  | 0 => s
  | n + 1 =>
    match s.takePacket 3 with
    | some (ws, s) => (s.emit (.msg "TELEMETRY" (ws.map (fun w => w.toNat)))).telemetryTake n
    | none => s

/-! ### Idle timeout and pointer mismatch (R456, R457) -/

/-- A FIFO has held a whole packet untaken for EVQ_CFG.IDLE µs. -/
def State.idleTimeout (s : State) (f : Nat) : State :=
  let us := s.fget (EVQ_CFG_IDLE.ix f)
  match (s.fifo f).waitingSince with
  | some c =>
    if us == 0 || 3 < f then s
    else
      let s := s.upTo (c + 2000 * us)
      let s := s.setFifo f (fun q => { q with waitingSince := some s.now })
      if f == 0 then s.classCWith 7 (fifoBit EVQ_STS_IDLE 0) 5 0 else s.setSts 7 (fifoBit EVQ_STS_IDLE f)
  | none => s

/-- IDLE_TIMEOUT. -/
def execIdleTimeout (fifo : Nat) (s : State) : Host.Outcome State Fault Refusal :=
  .next (s.live (fun s => s.idleTimeout fifo))

/-- The two copies of a pointer or count differ: both sides reset, and a gap marker with RESET comes first. -/
def State.ptrMismatch (s : State) (f : Nat) : State :=
  if 3 < f then s
  else
    let n := (s.fifo f).packets
    let w := if f == 0 then cmdGap n else gapWord s.tickCount n true
    let s := s.setFifo f (fun q => { q with items := [w], waitingSince := some s.now })
    if f < 2 then s.classCWith 7 (fifoBit EVQ_STS_PTR_MISMATCH f) 5 f else s.classASts 7 (fifoBit EVQ_STS_PTR_MISMATCH f)

/-- PTR_MISMATCH. -/
def execPtrMismatch (at_ fifo : Nat) (s : State) : Host.Outcome State Fault Refusal :=
  .next (s.live (fun s => (s.upTo at_).ptrMismatch fifo))

/-! ### Rings (R459) -/

/-- Entries of a ring: 2^k with k from EVQ_CFG.LOG2, taken between 6 and 20. -/
def State.ringSize (s : State) (f : Nat) : Nat := 2 ^ (min 20 (max 6 (s.fget (EVQ_CFG_LOG2.ix f))))

/-- A ring's writer state. -/
def State.ring (s : State) (f : Nat) : Ring := s.rings.getD (f - 1) {}

/-- Change a ring's writer state. -/
def State.setRing (s : State) (f : Nat) (g : Ring → Ring) : State := { s with rings := modAt g (f - 1) s.rings }

/-- Is the ring set up, with its base in the host window, and not stopped? -/
def State.ringOn (s : State) (f : Nat) : Bool :=
  s.fbit (EVQ_CFG_EN.ix f) && getBits (s.fget (EVQ_RING_BASE.ix f)) 56 1 == 1 && !(s.ring f).lost

/-- Entries that EVQ_HEAD leaves free. -/
def State.ringRoom (s : State) (f : Nat) : Nat :=
  s.ringSize f - (s.fget (EVQ_TAIL_TAIL.ix f) + 1048576 - s.fget (EVQ_HEAD_HEAD.ix f)) % 1048576

/-- The vector of a ring's function (R494). -/
def ringVector (f : Nat) : Nat × Nat := if f == 1 then (1, 2) else (0, 112)

/-- Raise a ring's vector; the count starts again. -/
def State.ringRaise (s : State) (f : Nat) : State :=
  (s.setRing f (fun r => { r with sinceRaise := 0, pendingEntry := none })).msix (ringVector f).1 (ringVector f).2

/-- Write one entry at the tail, and move the tail on. -/
def State.ringEntry (s : State) (f : Nat) (w : BitVec 512) : State :=
  let t := s.fget (EVQ_TAIL_TAIL.ix f)
  let s := s.wrN (s.fget (EVQ_RING_BASE.ix f) + 16 * (t % s.ringSize f)) 16 w.toNat
  s.fset (EVQ_TAIL_TAIL.ix f) (t + 1)

/-- Write a packet's entries from the tail on. -/
def State.ringEntries (s : State) (f : Nat) (ws : List (BitVec 512)) : State :=
  ws.foldl (fun s w => s.ringEntry f w) s

/-- The ring writer copies the first whole packet of its FIFO when it fits. -/
def State.ringWrite (s : State) (f : Nat) : State :=
  if s.ringOn f then
    match splitPacket cmdEnd (s.fifo f).items with
    | none => s
    | some (ws, _) =>
      if s.ringRoom f < ws.length then s
      else
        match s.takePacket f with
        | none => s
        | some (ws, s) =>
          let s := s.ringEntries f ws
          let s := s.setRing f (fun r =>
            { r with sinceRaise := r.sinceRaise + 1, pendingEntry := some (r.pendingEntry.getD s.now) })
          let m := s.fget (EVQ_CFG_MODERATE.ix f)
          if m != 0 && m ≤ (s.ring f).sinceRaise then s.ringRaise f else s
  else s

/-- RING_WRITE. -/
def execRingWrite (at_ fifo : Nat) (s : State) : Host.Outcome State Fault Refusal :=
  .next (s.live (fun s => if (fifo == 1 || fifo == 2) && !s.reloading then (s.upTo at_).ringWrite fifo else s))

/-- 50 µs without an interrupt after an entry was written. -/
def State.ringTimer (s : State) (f : Nat) : State :=
  match (s.ring f).pendingEntry with
  | some c => (s.upTo (c + 100000)).ringRaise f
  | none => s

/-- RING_INTERRUPT_TIMER. -/
def execRingInterruptTimer (fifo : Nat) (s : State) : Host.Outcome State Fault Refusal :=
  .next (s.live (fun s => if fifo == 1 || fifo == 2 then s.ringTimer fifo else s))

end Sys2Proof.Machine
end

