-- ==== Sys2Proof/Machine/LoadTile.lean ====
section
/-! DEFINITION. The image loader, part one: a failure, and the checks that the words of one tile's stream decide alone (R90,
R91, R109, R112, R113, R121, R122, R126, R127, R129, R131, R160, R164, R179, R183, R483). -/

namespace Sys2Proof.Machine

/-- One failure: its refusal code (R485), the section, the byte offset of the entry within it (none where the decoded
image does not carry the entry's byte place), and the tick-relative cycle of a timing failure (R487). -/
structure LoadFail where
  code : Nat
  typ : Nat
  cls : Nat := 0
  index : Nat := 0
  offset : Option Nat := some 0
  cycle : Nat := 0
  deriving DecidableEq, Repr

/-- The failure when a condition holds. -/
def failIf (b : Bool) (e : LoadFail) : List LoadFail := if b then [e] else []

/-! ### Words (R130, R483) -/

def isPodWord (w : Word256) : Bool := wOpcode w == 0x10 || wOpcode w == 0x11
def isStream (w : Word256) : Bool := wOpcode w == 0x10

/-- The opcodes of R483. -/
def opcodeKnown (o : Nat) : Bool :=
  [0x00, 0x10, 0x11, 0x20, 0x21, 0x22, 0x30, 0x31, 0x40, 0x41, 0x42, 0x43, 0x50, 0x51, 0x52, 0x60].contains o

/-- Reserved bits or codes of a word. -/
def wordReserved (w : Word256) : Bool :=
  if isPodWord w then
    wbits w 39 1 != 0 || wbits w 49 15 != 0 || wbits w 120 8 != 0 || wbits w 179 13 != 0 || 6 < wFmt w || wMaskKind w == 3
  else wbits w 8 4 != 0 || wbits w 185 7 != 0 || wbits w 249 7 != 0 || 6 < wFmt w

/-- A vector-engine word's own fields (R483, R93): opcode known, fields in their ranges, conversion pair, END all 0. -/
def veFieldBad (w : Word256) : Bool :=
  let o := wOpcode w
  !opcodeKnown o || (o == 0 && (wX w != 0 || wY w != 0 || wA w != 0 || wB w != 0)) ||
  (o == 0x20 && loadBad w) || (o == 0x21 && readoutBad w) || (o == 0x22 && chainBad w) ||
  (o == 0x30 && !convPairOk (getBits (wX w) 0 4) (wFmt w)) || (o == 0x60 && ewiseBad w)

/-- Is a word a contribution to a weight-gradient bucket, or to A or Gc, which are formed alike (R178, R212)? -/
def isContribution (w : Word256) : Bool := wOpcode w == 0x11 && wTA w && !wTB w && wTokDim w == 2

/-- Cycles from a CHAIN word of a tile of die `die` to its completion (R162); what a link delivers comes on its ISSUE. -/
def chainLat (die : Nat) (w : Word256) : Nat :=
  let k := getBits (wX w) 0 2
  if k == 1 then 612 else if k == 2 then 0 else if getBits (wX w) 2 3 == die then 192 else 640

/-! ### What a stream has done so far -/

/-- Operand lines that one word of a stream fills: line `first + i` at cycle `at_ + i / per`, with a format code, from memory
at `src` on when a LOAD fills them; `nu` says that they hold what was read under ν, or what comes of that (R92, R187, R602). -/
structure Fill where
  first : Nat
  count : Nat
  fmt : Nat
  at_ : Nat
  per : Nat
  src : Option Nat := none
  nu : Bool := false
  deriving DecidableEq, Repr

/-- The operand lines that a vector-engine word fills. DEDUCED: an address below 98,304 names an operand line. The scale bytes of 256
blocks fill a line, and a partial sum one word of a line. -/
def wordFills (w : Word256) : List Fill :=
  let o := wOpcode w
  let c := wIssue w
  let b := wB w
  let e := 64 * (wY w + 1)
  if o == 0x20 then [{ first := getBits (wX w) 0 17, count := wY w + 1, fmt := wFmt w, at_ := c + 488, per := 1, src := some (wA w) }]
  else if o == 0x21 && getBits (wX w) 2 1 == 1 then
    let f := if getBits (wX w) 1 1 == 1 then 5 else wFmt w
    let per := if isFp8 f then 1 else fmtWidth f / 16
    [{ first := getBits (wX w) 3 17, count := (wY w + 1) * per, fmt := f, at_ := c + 16, per := per }]
  else if o == 0x30 && decide (b < 98304) then
    let wd := fmtWidth (wFmt w)
    [{ first := b, count := ceilDiv (e * wd) 2048, fmt := wFmt w, at_ := c + (if getBits (wX w) 4 2 == 0 then 12 else 16),
       per := max (wd / 2) 1, nu := getBits (wX w) 4 1 == 1 }]
  else if o == 0x60 then
    let slow := [3, 4, 5, 7].contains (getBits (wX w) 0 8)
    [{ first := getBits (wX w) 8 17, count := wY w + 1, fmt := wFmt w, at_ := c + (if slow then 24 else 8),
       per := if slow then 8 else 32 }]
  else if o == 0x31 && decide (b < 98304) then
    (range' 0 (ceilDiv (wY w + 1) 256)).map (fun i => { first := b + i, count := 1, fmt := wFmt w, at_ := c + 16 + 16 * i, per := 1 })
  else if o == 0x41 && decide (b < 98304) then
    [{ first := b, count := 1, fmt := wFmt w, at_ := c + 12 + (ceilDiv e 1024 - 1), per := 1 }]
  else []

/-- What the words of a stream have left on an accumulator tile: whether a pod word has named it, the last streaming start,
the cycle by which all its outputs are usable, the chain values delivered to it and not consumed, and the passes of its running
pair-mode reduction with the blocks they took (R112, R122, R126, R129, R164). -/
structure AccSt where
  seen : Bool := false
  stream : Option Nat := none
  usable : Nat := 0
  chains : List Nat := []
  passes : List (Nat × Nat) := []
  deriving DecidableEq, Repr

/-- What the words of a stream leave for the checks of later ones: the last ISSUE; by pod, its last two words; by accumulator
tile, its history; the write cycles of every pod word; the ISSUE and unit of the words of the last cycle; and the lines that
every word of the stream fills, newest first. -/
structure StreamSt where
  last : Nat := 0
  pods : List (Nat × Word256 × Option Word256) := []
  accs : List (Nat × AccSt) := []
  writes : List (Nat × Nat × Nat × Nat) := []
  ats : List (Nat × Nat) := []
  fills : List Fill := []
  deriving DecidableEq, Repr

/-- The history of an accumulator tile. -/
def StreamSt.acc (st : StreamSt) (a : Nat) : AccSt := (assocGet st.accs a).getD {}

/-- Replace it. -/
def StreamSt.setAcc (st : StreamSt) (a : Nat) (x : AccSt) : StreamSt :=
  { st with accs := (a, x) :: st.accs.filter (fun y => y.1 != a) }

/-- The fill that a reader of an operand line on cycle `x` finds: the one that landed last. -/
def StreamSt.fillOf (st : StreamSt) (line x : Nat) : Option Fill :=
  (st.fills.filter (fun f => decide (f.first ≤ line) && decide (line < f.first + f.count) &&
    decide (f.at_ + (line - f.first) / f.per ≤ x))).foldl (fun b f => match b with
      | none => some f
      | some g => if g.at_ + (line - g.first) / g.per < f.at_ + (line - f.first) / f.per then some f else b) none

/-- What names a stored block whose first line is taken on cycle `x`: the memory that a LOAD brought it from, or else its line. -/
def StreamSt.lineName (st : StreamSt) (line x : Nat) : Nat :=
  match (st.fillOf line x).bind (fun f => f.src.map (fun a => a + 256 * (line - f.first))) with
  | some a => 2 * a + 1
  | none => 2 * line

/-- What names the stored blocks of A and B that a streaming word takes. -/
def StreamSt.blockName (st : StreamSt) (w : Word256) : Nat :=
  st.lineName (wALine w) (wIssue w) * 2 ^ 60 + st.lineName (wBLine w) (wIssue w - 128)

/-- The cycles on which a pod word writes its accumulator tile: the first and the last (R120, R124). -/
def podWrites (w : Word256) : Nat × Nat :=
  let c := wIssue w
  if isStream w then (c + 261, c + 260 + wRows w) else (c + feedLen w + 256, c + feedLen w + 389)

/-- Does an operand line hold another format than the pod word's when it is taken (R90, R91)? -/
def StreamSt.fmtBad (st : StreamSt) (w : Word256) : Bool :=
  let s := isStream w
  let c := wIssue w
  (operandLines (wFmt w) (wALine w) (!wTA w) (wRows w) (wKlen w) (fun i k => aCycle s w c 0 i k) ++
   operandLines (wFmt w) (wBLine w) (wTB w) 128 (wKlen w) (fun _ k => bCycle s w c 0 k)).any (fun l =>
    match st.fillOf l.1 l.2 with | some f => f.fmt != wFmt w | none => false)

/-- Do the mode and cycle rules of one pod allow the word after the pod's earlier ones (R121, R126, R127)? -/
def podGapOk (w p : Word256) (before : Option Word256) : Bool :=
  let c := wIssue w
  let u := podUsable (isStream p) p (wIssue p)
  let pre := if wAdd w then 134 else 0
  if isStream w then
    if isStream p then decide (wIssue p + max (wRows p) 128 ≤ c) else decide (u + 128 ≤ c)
  else if isStream p then decide (u + pre ≤ c)
  else decide (wIssue p + feedLen p ≤ c) &&
    (match before with | some q => decide (podUsable (isStream q) q (wIssue q) + pre ≤ c) | none => true)

/-- Does a pod word begin a new pair-mode reduction on its tile: with ADD = 0, or with a chain value before pass 0? -/
def beginsPasses (w : Word256) : Bool := !wAdd w || (wChain w && wPass w == 0)

/-- The blocks that pass `p` of a tile's running reduction has taken, in order. -/
def AccSt.blocksOf (a : AccSt) (p : Nat) : List Nat := (a.passes.filter (fun x => x.1 == p)).map (fun x => x.2)

/-- Has a tile's pair-mode reduction left blocks of pass 0 out of pass 1 or 2 where it ends (R129)? -/
def AccSt.passShort (a : AccSt) : Bool :=
  !(a.blocksOf 0).isEmpty && (decide ((a.blocksOf 1).length < (a.blocksOf 0).length) ||
    decide ((a.blocksOf 2).length < (a.blocksOf 0).length))

/-- Does a streaming pair-mode word break the pass order: a pass after a later one, over other blocks or the blocks in another
order than pass 0 took, a pass before the one below it has taken every block, or a new reduction before the last is done (R129,
R163)? -/
def StreamSt.passBad (st : StreamSt) (w : Word256) : Bool :=
  let a := st.acc (wAcc w)
  let p := wPass w
  isStream w && wFmt w == 5 &&
  if beginsPasses w then a.passShort
  else a.passes.any (fun x => decide (p < x.1)) ||
    (decide (0 < p) && !(a.blocksOf 0).isEmpty && ((a.blocksOf 0)[(a.blocksOf p).length]? != some (st.blockName w) ||
      decide ((a.blocksOf (p - 1)).length < (a.blocksOf 0).length)))

/-- The chain value that a pod word consumes: one delivered by its start, or by the start of its preload (R132). -/
def chainTaken (w : Word256) (l : List Nat) : Option Nat :=
  (l.filter (fun t => decide (t + (if isStream w then 0 else 134) ≤ wIssue w))).head?

/-- The failures of a pod word after the state of the stream before it, in increasing code. -/
def podWordFails (e : LoadFail) (st : StreamSt) (w : Word256) : List LoadFail :=
  let c := wIssue w
  let a := st.acc (wAcc w)
  let wr := podWrites w
  let pod := st.pods.find? (fun x => x.1 == wLpod w)
  failIf (wordReserved w) { e with code := 0xA } ++
  failIf (wFmt w == 0 || wFmt w == 6 || st.fmtBad w) { e with code := 0x201 } ++
  failIf (podFieldsBad (isStream w) w) { e with code := 0x202 } ++
  failIf ((!a.seen && wAdd w && !wChain w) || st.writes.any (fun x => x.1 == wAcc w && x.2.1 != wLpod w &&
    decide (x.2.2.1 ≤ wr.2) && decide (wr.1 ≤ x.2.2.2))) { e with code := 0x203 } ++
  failIf (decide (c < st.last) || st.ats.contains (c, wLpod w) ||
    (match pod with | some x => !podGapOk w x.2.1 x.2.2 | none => false) ||
    (wAdd w && (if isStream w then (match a.stream with | some t => decide (c < t + 262) | none => false)
      else decide (c < a.usable + 134)))) { e with code := 0x204, cycle := c } ++
  failIf (st.passBad w) { e with code := 0x205 } ++
  failIf (fp8OrientBad w || (isFp8 (wFmt w) && !isStream w)) { e with code := 0x206 } ++
  failIf (if wChain w then (chainTaken w a.chains).isNone else a.chains.any (fun t => decide (t ≤ c))) { e with code := 0x402 }

/-- The stream state after a word of a tile of die `die`. -/
def StreamSt.next (st : StreamSt) (die : Nat) (w : Word256) : StreamSt :=
  let c := wIssue w
  let a := st.acc (wAcc w)
  if isPodWord w then
    let wr := podWrites w
    let st := st.setAcc (wAcc w)
      { a with
        seen := true, stream := if isStream w then some c else a.stream,
        usable := max a.usable (podUsable (isStream w) w c),
        chains := if wChain w then (match chainTaken w a.chains with | some t => a.chains.erase t | none => a.chains) else a.chains,
        passes := (if beginsPasses w then [] else a.passes) ++ (if wFmt w == 5 && isStream w then [(wPass w, st.blockName w)] else []) }
    { st with
      last := max st.last c, ats := (c, wLpod w) :: st.ats.filter (fun x => x.1 == c),
      writes := (wAcc w, wLpod w, wr.1, wr.2) :: st.writes,
      pods := (wLpod w, w, (st.pods.find? (fun x => x.1 == wLpod w)).map (fun x => x.2.1)) ::
        st.pods.filter (fun x => x.1 != wLpod w) }
  else
    let st := { st with last := max st.last c, ats := (c, 8) :: st.ats.filter (fun x => x.1 == c) }
    if wOpcode w == 0x22 then st.setAcc (wAcc w) { a with chains := a.chains ++ [c + chainLat die w] }
    else st

/-- Is the chain value that a tile still holds consumed before cycle `t`, by a chain word among the rest of the stream? -/
def consumedBefore (acc held t : Nat) (rest : List Word256) : Bool :=
  rest.any (fun w => isPodWord w && wChain w && wAcc w == acc && decide (held ≤ wIssue w) && decide (wIssue w < t))

/-- The failures of a vector-engine word. END is issued to no unit and has no place in the ISSUE order (R113), and with it every
pair-mode reduction that has begun is done, as it is where a finished result is read out (R129). DESIGN CHOICE (R164 does not say
which chain value is the previous one where two transfers of different latency cross): the one that issued first. -/
def veWordFails (e : LoadFail) (die : Nat) (st : StreamSt) (w : Word256) (rest : List Word256) : List LoadFail :=
  let c := wIssue w
  let a := st.acc (wAcc w)
  let t := c + chainLat die w
  failIf (wordReserved w) { e with code := 0xA } ++
  failIf (wOpcode w != 0 && (decide (c < st.last) || st.ats.contains (c, 8))) { e with code := 0x204, cycle := c } ++
  failIf ((wOpcode w == 0x21 && getBits (wX w) 0 1 == 0 && a.passShort) ||
    (wOpcode w == 0 && st.accs.any (fun x => x.2.passShort))) { e with code := 0x205 } ++
  failIf (veFieldBad w) { e with code := 0x20A } ++
  failIf (wOpcode w == 0x22 && a.chains.any (fun h => !consumedBefore (wAcc w) h t rest)) { e with code := 0x402 }

/-- The failures of a stream's words from word `i` on; a stream ends with its first END. -/
def wordsFails (e : LoadFail) (die : Nat) : List Word256 → Nat → StreamSt → List LoadFail
  | [], i, _ => [{ e with code := 0x20A, offset := some (32 * i) }]
  | w :: r, i, st =>
    let e := { e with offset := some (32 * i) }
    if isPodWord w then podWordFails e st w ++ wordsFails e die r (i + 1) (st.next die w)
    else veWordFails e die st w r ++ (if wOpcode w == 0 then [] else wordsFails e die r (i + 1) (st.next die w))

/-- What the words of a stream before its END fill, newest first, and nothing else done. -/
def streamFills (ws : List Word256) : StreamSt :=
  { fills := ((ws.takeWhile (fun w => wOpcode w != 0)).flatMap (fun w => if isPodWord w then [] else wordFills w)).reverse }

/-- One STREAM section's own failures. -/
def streamFails (x : StreamImg) : List LoadFail :=
  wordsFails { code := 0, typ := 3, cls := x.cls, index := x.tile } (x.tile / 10) x.words 0 (streamFills x.words)

end Sys2Proof.Machine
end

