-- ==== Sys2Proof/Machine/LoadOwn.lean ====
section
/-! DEFINITION. The image loader, part two: the checks that the header, the directory or one section alone decides,
but for the streams (R467 to R475, R477 to R485). Each check answers the list of its failures in increasing offset. -/

namespace Sys2Proof.Machine

/-! ### The directory (R469, R470) -/

/-- Section types. -/
def typKnown (t : Nat) : Bool := (decide (1 ≤ t) && decide (t ≤ 13)) || t == 0x7F || t == 0xFF

/-- Per-class column: 0 no, 1 yes, 2 either. -/
def typPerClass (t : Nat) : Nat := if t == 3 || t == 4 || t == 5 then 1 else if t == 13 || t == 0x7F then 2 else 0

/-- Classes of the image. -/
def imgClasses (f : ImageFile) : Nat := bvBits f.header 144 16 + 1

/-- Module numbers of the map. -/
def imgModules (f : ImageFile) : List Nat := range' 0 f.modules.length

/-- The numbers of the STEP plans. -/
def stepPlans (f : ImageFile) : List Nat :=
  (range' 0 16).filter (fun i => match imgPlan f i with | some p => planKind p == 0 | none => false)

/-- How many sections of a type, class and index the directory names. -/
def dirCount (f : ImageFile) (t cls idx : Nat) : Nat :=
  (f.dir.filter (fun d => d.typ == t && d.cls == cls && d.index == idx)).length

/-- Every required section stands once. -/
def dirRequired (f : ImageFile) : Bool :=
  [1, 2, 7, 8, 9, 10, 11, 12, 0xFF].all (fun t => (f.dir.filter (fun d => d.typ == t)).length == 1) &&
  (range' 0 (imgClasses f)).all (fun c =>
    (range' 0 80).all (fun n => dirCount f 3 c n == 1) && (range' 0 4).all (fun h => dirCount f 4 c h != 0 && dirCount f 5 c h != 0)) &&
  (stepPlans f).all (fun p => dirCount f 6 0 p == 1)

/-- A directory entry is in order by itself. -/
def dirEntOk (f : ImageFile) (d : DirEnt) : Bool :=
  typKnown d.typ && (typPerClass d.typ == 2 || d.common == (typPerClass d.typ == 0)) && (!d.common || d.cls == 0) &&
  d.offset % 64 == 0 && d.offset + d.length ≤ bvBits f.header 256 64 && d.scrcOk &&
  (d.typ != 0xFF || f.dir.all (fun e => e.offset ≤ d.offset))

/-- Two sections overlap. -/
def dirOverlap (a b : DirEnt) : Bool := decide (a.offset < b.offset + b.length) && decide (b.offset < a.offset + a.length)

/-- The directory's failures; its offsets are within the file. -/
def dirFails (f : ImageFile) : List LoadFail :=
  let base := bvBits f.header 192 64
  let l := indexed f.dir 0
  failIf (bvBits f.header 160 32 != f.dir.length || !dirRequired f) { code := 5, typ := 0, offset := some base } ++
  l.flatMap (fun d => failIf (!dirEntOk f d.2 || l.any (fun e => e.1 < d.1 && dirOverlap e.2 d.2))
    { code := 5, typ := 0, offset := some (base + 32 * d.1) })

/-! ### The header (R467, R468, R474, R475, R484) -/

/-- What precedes the sections, in order: header, format, stepping, length, directory, hash, signature. -/
def State.headFails (s : State) (f : ImageFile) (length : Nat) : List LoadFail :=
  failIf (bvBits f.header 0 32 != 0x484F494D || bvBits f.header 48 16 != 256 || !f.hcrcOk || bvBits f.header 388 124 != 0
    || bvBits f.header 832 1184 != 0) { code := 1, typ := 0 } ++
  failIf (bvBits f.header 32 16 != 3) { code := 2, typ := 0, offset := some 4 } ++
  failIf (imgStepping f != s.fget HULL_ID_STEPPING) { code := 3, typ := 0, offset := some 16 } ++
  failIf (bvBits f.header 256 64 != length) { code := 4, typ := 0, offset := some 32 } ++
  dirFails f ++
  failIf (!f.hashOk) { code := 6, typ := 0, offset := some 64 } ++
  failIf (bvBits f.sigPoint 0 8 != 4 || f.sigZero != 0 || !s.fbit HULL_ID_OWNER_ENROLLED || s.bench.owner != some f.keyDigest ||
    !f.sigOk) { code := 7, typ := 0xFF }

/-! ### Tick plans (R29, R31, R32, R181, R197, R477) -/

/-- Reserved bits of a plan are 0 and its codes are defined. -/
def planReserved (p : PlanImg) : Bool :=
  bvBits p.hdr 192 320 != 0 || 2 < planKind p ||
  p.fences.any (fun w => bvBits w 48 16 != 0) || (planFences p).any (fun w => 4 < fenceKind w) ||
  (p.fences.drop (planNfence p)).any (fun w => w != 0) ||
  p.dfences.any (fun d => bvBits d 62 2 != 0 || bvBits d 121 7 != 0 || 1 < dfKind d) ||
  p.slots.any (fun e => bvBits e 152 8 != 0 || bvBits e 176 16 != 0)

/-- Do the fence offsets strictly increase? -/
def rising : List Nat → Bool
  | a :: b :: r => decide (a < b) && rising (b :: r)
  | _ => true

/-- The offset of fence `j` of a plan within the section. -/
def fencePlace (p : PlanImg) (j : Nat) : Nat := p.off + 64 + 8 * j

/-- Fences of a kind before fence `j`. -/
def fencesBefore (p : PlanImg) (kind j : Nat) : Nat := (((planFences p).take j).filter (fun w => fenceKind w == kind)).length

/-- Is fence `j` out of order (R31): not above the fence before it, HEALTH or EDGE anywhere but second-last and last or another
kind there, an INGEST_END or LOSS in a plan of another kind than STEP, a second one, or a LOSS before INGEST_END? -/
def fenceBad (p : PlanImg) (j : Nat) (w : Word64) : Bool :=
  let n := planNfence p
  let k := fenceKind w
  (decide (0 < j) && decide (fenceOff w ≤ fenceOff ((planFences p).getD (j - 1) 0))) ||
  (k == 3) != (j + 2 == n) || (k == 4) != (j + 1 == n) ||
  ((k == 1 || k == 2) && (planKind p != 0 || 0 < fencesBefore p k j)) || (k == 2 && fencesBefore p 1 j == 0)

/-- The failures of a plan's fences, each with the fence's offset (R31, R36). -/
def fenceFails (p : PlanImg) : List LoadFail :=
  let n := planNfence p
  failIf (n < 2 || 16 < n || p.fences.length != 16 || (planKind p == 0 && (fencesBefore p 1 n == 0 || fencesBefore p 2 n == 0)))
    { code := 0x102, typ := 1, offset := some p.off } ++
  (indexed (planFences p) 0).flatMap (fun x => failIf (fenceBad p x.1 x.2) { code := 0x102, typ := 1, offset := some (fencePlace p x.1) })

/-- R181 and R197. -/
def slotsOk (p : PlanImg) : Bool :=
  if planKind p != 0 then planNslot p == 0 && planNwave p == 0 && p.slots.isEmpty
  else decide (1 ≤ planNwave p) && decide (planNwave p ≤ 64) && p.slots.length == planNslot p && decide (planNslot p ≤ 1023) &&
    p.slots.all (fun e => decide (1 ≤ slotMaxTok e) && decide (slotMaxTok e ≤ 2 ^ 20) && decide (1 ≤ slotBpt e) &&
      decide (slotBpt e ≤ 65536) && decide (slotWave e < planNwave p) && decide (slotDfence e < planNdfence p) &&
      decide (slotMaxTok e * slotBpt e ≤ slotStagingLen e))

/-- The TICK_PLANS section's own failures, each with the plan's offset. -/
def planFails (f : ImageFile) : List LoadFail :=
  failIf ((imgLowest f 0).isNone || (imgLowest f 1).isNone) { code := 0x101, typ := 1 } ++
  f.plans.flatMap (fun x => match x with
    | none => []
    | some p =>
      let e : LoadFail := { code := 0xA, typ := 1, offset := some p.off }
      failIf (planReserved p || (planKind p != 0 && planSuccessor p != 0)) e ++ fenceFails p ++
      failIf (decide (planPeriod p < 2 ^ 20))
        { e with code := 0x103, offset := some (fencePlace p (planNfence p - 1)), cycle := planPeriod p } ++
      failIf (p.dfences.length != planNdfence p || 1024 < planNdfence p) { e with code := 0x106 } ++
      failIf (!slotsOk p) { e with code := 0x107 })

/-! ### Layouts (R478) -/

def layoutFails (f : ImageFile) : List LoadFail :=
  (indexed f.layouts 0).flatMap (fun x =>
    failIf (bvBits x.2 232 24 != 0 || bvBits x.2 336 176 != 0 || bvBits x.2 640 128 != 0)
      { code := 0xA, typ := 2, offset := some (96 * x.1) })

/-! ### Hub schedules (R155, R156, R332, R333) -/

/-- Has a list two equal elements? -/
def dupl {α : Type} [BEq α] : List α → Bool
  | [] => false
  | a :: r => r.contains a || dupl r

/-- One HUB_SCHED section's own failures (R155, R156, R330, R333). -/
def hubFails (h : HubSchedImg) : List LoadFail :=
  let e : LoadFail := { code := 0, typ := 4, cls := h.cls, index := h.hub }
  let l := indexed h.words 0
  let adds := l.flatMap (fun x => (indexed (hAdds x.2) 0).map (fun a => (x.1, a.1, a.2)))
  l.flatMap (fun x =>
    let w := x.2
    let e := { e with offset := some (32 * x.1) }
    failIf (7 < hOp w || wbits w 6 2 != 0 || wbits w 208 48 != 0 || (hOp w != 3 && (wbits w 128 16 != 0 || hPlan w != 0)) ||
      ((hAccess w || hOp w == 3) && hPch w != 0) || (decide (4 ≤ hOp w) && decide (hOp w ≤ 7) && (hGran w != 0 || hStride w != 0)))
      { e with code := 0xA } ++
    failIf ((hOp w != 0 && 0 < x.1 && hCycle w < hCycle (h.words.getD (x.1 - 1) 0)) ||
      ((hAccess w || hOp w == 3) && (hStride w == 0 || (hGrans w).any (fun g => decide (stackGranules ≤ g.1)))) ||
      (hCommands w).any (fun k => slotReserved k.2.2) ||
      (hAccess w && (hGrans w).any (fun g => (g.2 + 48) % 16 != 0)) ||
      dupl (hCommands w) || (hCommands w).any (fun k => l.any (fun y => hTakes y.2 k ||
        (decide (y.1 < x.1) && (hCommands y.2).contains k))) ||
      (indexed (hAdds w) 0).any (fun a => adds.any (fun b => !(b.1 == x.1 && b.2.1 == a.1) && b.2.2.1 == a.2.1 &&
          b.2.2.2.1 == a.2.2.1 && decide (b.2.2.2.2 ≤ a.2.2.2) && decide (a.2.2.2 < b.2.2.2.2 + 496)) ||
        decide (2 < (adds.filter (fun b => b.2.2.1 == a.2.1 && b.2.2.2.2 == a.2.2.2)).length)))
      { e with code := 0x302, cycle := hCycle w })

/-! ### Link schedules (R382) -/

/-- One LINK_SCHED section's own failures. -/
def linkFails (c : LinkSchedImg) : List LoadFail :=
  let e : LoadFail := { code := 0, typ := 5, cls := c.cls, index := c.die }
  (indexed c.words 0).flatMap (fun x =>
    let w := x.2
    let e := { e with offset := some (32 * x.1) }
    failIf (6 < kOp w || wbits w 6 2 != 0 || wbits w 53 3 != 0 || wbits w 128 128 != 0 || (kOp w != 6 && (kPlan w != 0 || kPart w != 0)))
      { e with code := 0xA } ++
    failIf (kOp w != 0 && (23 < kSlot w || kStride w == 0 || (0 < x.1 && kCycle w < kCycle (c.words.getD (x.1 - 1) 0))))
      { e with code := 0x303, cycle := kCycle w })

/-! ### Solver job tables (R226, R227, R230, R231, R479) -/

/-- Working set of a job in bytes (R231). -/
def slvWork (e : BitVec 1024) : Nat :=
  let n := slvN e
  (if slvKind e == 2 then 2 else 3) * 4 * n * (n + 1) + 1024 * n

def slvSramBase (e : BitVec 1024) : Nat := bvBits e 576 26
def slvSramLen (e : BitVec 1024) : Nat := bvBits e 640 27

/-- Ranges of R479 and R230. -/
def jobFieldBad (e : BitVec 1024) (round idx : Nat) : Bool :=
  slvJob e != idx || slvRound e != round || 2 < slvKind e || (slvKind e == 0) == (slvPcode e == 3) ||
  slvN e < 128 || 2048 < slvN e || slvN e % 128 != 0 || slvC0 e % slvGang e != 0 || slvStaleLim e == 0 ||
  (slvKind e != 2 && (slvIWarm e == 0 || slvICold e == 0)) || slvDeadline e ≤ slvStart e

/-- Reserved bits of a job entry. -/
def jobReserved (e : BitVec 1024) : Bool :=
  bvBits e 12 4 != 0 || bvBits e 28 4 != 0 || bvBits e 39 1 != 0 || bvBits e 46 2 != 0 || bvBits e 60 4 != 0 ||
  bvBits e 136 24 != 0 || bvBits e 416 32 != 0 || bvBits e 488 24 != 0 || bvBits e 552 24 != 0 || bvBits e 602 38 != 0 ||
  bvBits e 667 357 != 0

/-- One SOLVER_JOBS section's own failures. -/
def jobsFails (j : SolverJobsImg) : List LoadFail :=
  let e : LoadFail := { code := 0, typ := 6, index := j.plan }
  failIf (j.rounds.isEmpty || 4096 < j.rounds.length) { e with code := 0x601 } ++
  (indexed j.rounds 0).flatMap (fun r => (indexed r.2.jobs 0).flatMap (fun x =>
    let before := r.2.jobs.take x.1
    let w := x.2
    let e := { e with offset := some (r.2.off + 128 * x.1) }
    failIf (jobReserved w) { e with code := 0xA } ++
    failIf (before.any (fun b => slvTensor b == slvTensor w && slvBlock b == slvBlock w)) { e with code := 0x601 } ++
    failIf (slvSramLen w < slvWork w || 67108864 < slvSramBase w + slvSramLen w) { e with code := 0x602 } ++
    failIf (jobFieldBad w r.1 x.1) { e with code := 0x606 }))

/-! ### The state map (R175, R176, R206 to R209, R216, R272, R325, R403, R405, R418) -/

/-- FP32 bits lie in a range by value, a negative zero being zero (R71): 0 ≤ v < 1, or 0 < v ≤ 1. -/
def fpIn01 (v : Nat) (openLow : Bool) : Bool :=
  if openLow then decide (0 < v) && decide (v ≤ 0x3F800000) else decide (v < 0x3F800000) || v == 0x80000000

/-- Is a range of addresses memory outside the control region, or a device address within its capacity (R325)? -/
def State.regionOk (s : State) (a len : Nat) : Bool :=
  let b := a + len
  if b ≤ 0x10000000000 then
    a / 0x1000000000 == (b - 1) / 0x1000000000 && decide ((b - 1) % 0x1000000000 < 0xC00000000) &&
    (decide (b ≤ 0xBC0000000) || decide (0xC00000000 ≤ a))
  else if 0x100000000000 ≤ a && b ≤ 0x180000000000 then
    let x := (a - 0x100000000000) / 0x20000000000
    decide ((a - 0x100000000000) % 0x20000000000 + len ≤ s.fget (HULL_SLOW_EXP_CAPACITY.ix x) * 0x40000000)
  else if 0x200000000000 ≤ a && b ≤ 0x300000000000 then
    let o := a % 0x10000000000
    o / 0x1000000000 == (o + len - 1) / 0x1000000000 && decide ((o + len - 1) % 0x1000000000 < 0xC00000000) &&
    (decide (o + len ≤ 0xBC0000000) || decide (0xC00000000 ≤ o))
  else false

/-- Does a range lie inside an enabled HDM piece, wholly or in part (R418)? -/
def State.inHdm (s : State) (a len : Nat) : Bool :=
  (range' 0 4).any (fun i =>
    let base := s.fget (HOST_HDM_STACK.ix i) * 0x1000000000 + s.fget (HOST_HDM_BASE.ix i) * 0x40000000
    s.fbit (HOST_HDM_EN.ix i) && decide (a < base + 0x400000000) && decide (base < a + len))

/-- The regions that a state-map entry names: address and length. -/
def tensorRegions (f : ImageFile) (t : TensorEnt) : List (Nat × Nat) :=
  if t.role == 8 then
    match statOf f t.tensor with
    | some st =>
      let n := factorBlocks st
      let b := 4 * 2 ^ st.block * 2 ^ st.block * n
      [(t.even, 64 * n), (t.odd, 64 * n), (t.home, b), (t.aux, b)]
    | none => []
  else
    let n := bankBytes t
    [(t.even, n), (t.odd, n)] ++ (if t.tier == 0 then [] else [(t.home, n)])

/-- Does a range lie in HBM (R322)? -/
def inHbm (r : Nat × Nat) : Bool := decide (r.1 + r.2 ≤ 2 ^ 40)

/-- Is a slow-tier home in the window of its tier (R322)? -/
def homeOk (t : TensorEnt) : Bool :=
  if t.tier == 1 then decide (0x100000000000 ≤ t.home) && decide (t.home < 0x180000000000)
  else if t.tier == 2 then decide (0x200000000000 ≤ t.home) && decide (t.home < 0x300000000000) else true

/-- Is a length of a layer matrix not a multiple of 128 (R175)? A vector parameter is one row (R177). DEDUCED (the state map gives
the whole tensor's shape, and r and c are columns and rows of their own): r may be one column wide and c one row high, as they may
stand under the shape of their matrix. -/
def sidesBad (t : TensorEnt) : Bool :=
  (t.rows != 1 && (t.rows % 128 != 0 || t.row0 % 128 != 0 || t.row1 % 128 != 0)) ||
  (!(t.role == 2 && t.cols == 1) && (t.cols % 128 != 0 || t.col0 % 128 != 0 || t.col1 % 128 != 0)) ||
  t.rows < t.row1 || t.cols < t.col1 || t.row1 ≤ t.row0 || t.col1 ≤ t.col0

/-- Is a weight tied to others: TIE_GROUP names a tied tensor (R193)? -/
def tied (t : TensorEnt) : Bool := t.tieGroup != 0xFFFFF

/-- The uses of a weight's tied tensor. -/
def tieUses (f : ImageFile) (t : TensorEnt) : List TensorEnt :=
  f.stateMap.filter (fun u => u.role == 0 && tied t && u.tieGroup == t.tieGroup)

/-- Are the uses of a tied tensor not 2 to 16 with indices from 0, over one column partition under one train mask (R193)? -/
def tieBad (f : ImageFile) (t : TensorEnt) : Bool :=
  let us := tieUses f t
  let ns := (us.map (fun u => u.useIdx)).dedup
  tied t && (ns.length < 2 || 16 < ns.length || !(range' 0 ns.length).all (fun k => ns.contains k) ||
    us.any (fun u => u.rows != t.rows || u.cols != t.cols || u.wb != t.wb || u.maskKind != t.maskKind || u.mask != t.mask))

/-- The STATE_MAP section's own failures; an entry's statistic or parent is another section's or entry's matter. -/
def State.mapFails (s : State) (f : ImageFile) : List LoadFail :=
  (indexed f.stateMap 0).flatMap (fun x =>
    let t := x.2
    let e : LoadFail := { code := 0, typ := 7, offset := some (128 * x.1) }
    let stat := 4 ≤ t.role && t.role ≤ 7
    let regs := tensorRegions f t
    failIf (!t.reservedZero || 8 < t.role || 6 < t.fmt || t.tier == 3 || t.gather == 3 || t.maskKind == 3) { e with code := 0xA } ++
    failIf (t.owners.any (fun m => modRole (imgModule f m) == 1)) { e with code := 8 } ++
    failIf (stat && !([1, 2, 5].contains t.prodFmt)) { e with code := 0x206 } ++
    failIf (t.role == 0 && tieBad f t) { e with code := 0x20C } ++
    failIf (regs.any (fun r => r.2 != 0 && !s.regionOk r.1 r.2) || !homeOk t ||
      ((t.role ≤ 1 || t.role == 8) && ((regs.take 2).any (fun r => r.2 != 0 && !inHbm r)))) { e with code := 0x301 } ++
    failIf (regs.any (fun r => r.2 != 0 && s.inHdm r.1 r.2)) { e with code := 0x305 } ++
    failIf (2 ≤ t.role && t.role ≤ 7 && (t.tier != 0 || t.fmt != 0 || !regs.all inHbm)) { e with code := 0x501 } ++
    failIf (2 ≤ t.role && t.role ≤ 7 && (!fpIn01 t.beta.toNat false || !fpIn01 t.w.toNat true)) { e with code := 0x502 } ++
    failIf (t.role ≤ 7 && (sidesBad t ||
      (t.role == 0 && (t.wb < 7 || 11 < t.wb || (t.col1 - t.col0) % 2 ^ t.wb != 0)) ||
      (stat && (t.block < 7 || 11 < t.block)))) { e with code := 0x503 } ++
    failIf (t.role == 0 && t.fmt != 1 && t.fmt != 5) { e with code := 0x504 } ++
    failIf (t.owners.isEmpty || (t.gather == 2 && t.lagged) || (t.lagged && (t.d < 1 || 4 < t.d))) { e with code := 0x506 } ++
    failIf (x.1 != 0 && (f.stateMap.getD (x.1 - 1) t).tensor > t.tensor) { e with code := 0x503 })

/-! ### Rule sets, schedules, reductions, limits, module map (R160, R270, R271, R274, R471, R480, R482) -/

/-- R270 and R271. -/
def ruleSetOk (r : RuleSet) : Bool :=
  decide (r.rule ≤ 3) && decide (r.sched ≤ 15) && decide (r.mfmt ≤ 2) && fpIn01 r.beta1.toNat false &&
  decide (0 < r.alpha1.toNat) && decide (r.alpha1.toNat < 0x7F800000) && (decide (r.lambda.toNat < 0x7F800000) || r.lambda.toNat == 0x80000000) &&
  (decide (2 ≤ r.rule) || (decide (0 < r.eps.toNat) && decide (r.eps.toNat < 0x7F800000))) &&
  (r.pfmt == 1 || r.pfmt == 5) && (r.rule != 2 || r.mfmt == 0)

def ruleFails (f : ImageFile) : List LoadFail :=
  failIf (256 < f.ruleSets.length) { code := 0x504, typ := 8 } ++
  f.ruleSets.flatMap (fun r => failIf (!ruleSetOk r) { code := 0x504, typ := 8, offset := none })

def lrFails (f : ImageFile) : List LoadFail :=
  failIf (16 < f.lrScheds.length) { code := 0x505, typ := 9 } ++
  f.lrScheds.flatMap (fun l => failIf (l.isEmpty || 64 < l.length || (l.map (fun g => g.t0)).headD 1 != 0 ||
    !rising (l.map (fun g => g.t0))) { code := 0x505, typ := 9, offset := none })

/-- A CHAIN plan's parts follow one another from index 0 (R160). -/
def chainParts : List (BitVec 128) → Nat → Bool
  | [], _ => true
  | p :: r, k => bvBits p 64 32 == k && decide (k < bvBits p 96 32) && chainParts r (bvBits p 96 32)

def redFails (f : ImageFile) : List LoadFail :=
  (indexed f.redPlans 0).flatMap (fun x =>
    let e : LoadFail := { code := 0, typ := 10, offset := some (32 * x.1) }
    let p := bvBits x.2.ent 32 32
    let m := bvBits x.2.ent 16 8
    failIf (2 < m || 6 < bvBits x.2.ent 24 8 || bvBits x.2.ent 192 64 != 0 || x.2.parts.any (fun q => bvBits q 48 16 != 0))
      { e with code := 0xA } ++
    failIf (x.2.parts.any (fun q => 7 < bvBits q 32 8 || 9 < bvBits q 40 8) ||
      (bvBits x.2.ent 127 1 == 1 && 9 < bvBits x.2.ent 67 4) || 4095 < bvBits x.2.ent 0 16 || p < 2 ||
      (if m == 1 then 1024 else 65536) < p || x.2.parts.length != p ||
      (x.1 != 0 && bvBits (f.redPlans.getD (x.1 - 1) x.2).ent 0 16 ≥ bvBits x.2.ent 0 16)) { e with code := 0x401 } ++
    failIf (m == 2 && !chainParts x.2.parts 0) { e with code := 0x402 })

/-- R482. -/
def limitFails (f : ImageFile) : List LoadFail :=
  let v := f.limits
  failIf (bvBits v 56 8 != 0 || bvBits v 144 16 != 0 || bvBits v 272 16 != 0 || bvBits v 320 192 != 0) { code := 0xA, typ := 11 } ++
  failIf (2 ^ 24 ≤ limLead f || limReplay f == 0 || 2 < limPolicy f || 16 < limChecksumS f ||
    (range' 0 4).any (fun a => limThresh f a == 0)) { code := 0x701, typ := 11 }

/-- The parent path of a module ends at the master with its DEPTH (R391). -/
def treeOk (f : ImageFile) (m : Nat) : Bool :=
  let w := imgModule f m
  if m == imgMaster f then modParentLink w == 255 && modDepth w == 0
  else match treeParent f m with
    | some p => decide (p.1 < f.modules.length) && modDepth w == modDepth (imgModule f p.1) + 1
    | none => decide (1 < mapSubs f) && modParentLink w != 255 && modDepth w != 0

/-- R471, R384, R385, R389: the numbers of the map agree. -/
def moduleFails (f : ImageFile) : List LoadFail :=
  let d (i : Nat) : Nat := mapDim f i
  let per := if mapWiring f == 0 then d 0 * d 1 * d 2 else 8 * d 0 * d 1
  failIf (1 < mapWiring f || 1 < mapRate f || bvBits f.moduleMapHdr 128 128 != 0) { code := 0xA, typ := 12 } ++
  failIf (f.modules.length != imgOrchard f || f.modules.length ≤ imgMaster f || 256 < mapSubs f ||
    !(range' 0 (mapSubs f)).all (fun u => (subModules f u).length == per) ||
    (mapWiring f == 1 && (16 < d 0 || 512 < d 1))) { code := 8, typ := 12 } ++
  (imgModules f).flatMap (fun m =>
    let w := imgModule f m
    let e : LoadFail := { code := 8, typ := 12, offset := some (32 + 8 * m) }
    failIf (imgClasses f ≤ modClass w || 1 < modRole w || mapSubs f ≤ modSub w || !treeOk f m) e ++
    failIf (bvBits w 56 8 != 0) { e with code := 0xA })

/-- DATA records lie where an image may place anything (R325, R418). -/
def State.dataFails (s : State) (f : ImageFile) : List LoadFail :=
  f.data.flatMap (fun d =>
    let e : LoadFail := { code := 0, typ := 13, offset := none }
    failIf (d.bytes.length != 0 && !s.regionOk d.dest d.bytes.length) { e with code := 0x301 } ++
    failIf (d.bytes.length != 0 && s.inHdm d.dest d.bytes.length) { e with code := 0x305 })

/-- The failures that the section of a directory entry alone decides. -/
def State.ownFails (s : State) (f : ImageFile) (d : DirEnt) : List LoadFail :=
  if d.typ == 1 then planFails f
  else if d.typ == 2 then layoutFails f
  else if d.typ == 3 then (f.streams.filter (fun x => x.cls == d.cls && x.tile == d.index)).flatMap streamFails
  else if d.typ == 4 then (f.hubScheds.filter (fun x => x.cls == d.cls && x.hub == d.index)).flatMap hubFails
  else if d.typ == 5 then (f.linkScheds.filter (fun x => x.cls == d.cls && x.die == d.index)).flatMap linkFails
  else if d.typ == 6 then (f.solverJobs.filter (fun x => x.plan == d.index)).flatMap jobsFails
  else if d.typ == 7 then s.mapFails f
  else if d.typ == 8 then ruleFails f
  else if d.typ == 9 then lrFails f
  else if d.typ == 10 then redFails f
  else if d.typ == 11 then limitFails f
  else if d.typ == 12 then moduleFails f
  else if d.typ == 13 then s.dataFails f
  else []

end Sys2Proof.Machine
end

