-- ==== Sys2Proof/Machine/LoadWork.lean ====
section
/-! DEFINITION. The image loader, part three: what the words and entries of an image occupy in time and in memory: spans of
scheduled work, occupancy and latency of the vector engine's words (R602), the accesses to HBM that they need of the hub
schedules (R603, R604), read ports of operand SRAM (R604), pool slots (R186) and solver windows (R240, R627). -/

namespace Sys2Proof.Machine

/-- A failure of the section that a directory entry names. -/
def dirFail (d : DirEnt) (code : Nat) (offset : Option Nat) (cycle : Nat) : LoadFail :=
  { code := code, typ := d.typ, cls := d.cls, index := d.index, offset := offset, cycle := cycle }

/-! ### Sections by class, plan and directory entry -/

/-- The STEP plans with their numbers. -/
def stepImgs (f : ImageFile) : List (Nat × PlanImg) :=
  (stepPlans f).filterMap (fun i => (imgPlan f i).map (fun p => (i, p)))

/-- The words of a stream before its END, with their byte offsets. -/
def wordsBeforeEnd (x : StreamImg) : List (Nat × Word256) :=
  ((indexed x.words 0).takeWhile (fun y => wOpcode y.2 != 0)).map (fun y => (32 * y.1, y.2))

/-- The streams that a directory entry names. -/
def dirStreams (f : ImageFile) (d : DirEnt) : List StreamImg := f.streams.filter (fun x => x.cls == d.cls && x.tile == d.index)

/-- Their words, with byte offsets. -/
def dirStream (f : ImageFile) (d : DirEnt) : List (Nat × Word256) := (dirStreams f d).flatMap wordsBeforeEnd

/-- The words of every stream of a class, with their tiles. -/
def classWords (f : ImageFile) (cls : Nat) : List (Nat × Word256) :=
  (f.streams.filter (fun x => x.cls == cls)).flatMap (fun x => (wordsBeforeEnd x).map (fun y => (x.tile, y.2)))

/-- The hub schedules that a directory entry names, with their plans. -/
def dirHub (f : ImageFile) (d : DirEnt) : List (HubSchedImg × Option PlanImg) :=
  (f.hubScheds.filter (fun x => x.cls == d.cls && x.hub == d.index)).map (fun x => (x, imgPlan f x.plan))

/-- The link schedules that a directory entry names, with their plans. -/
def dirLink (f : ImageFile) (d : DirEnt) : List (LinkSchedImg × Option PlanImg) :=
  (f.linkScheds.filter (fun x => x.cls == d.cls && x.die == d.index)).map (fun x => (x, imgPlan f x.plan))

/-- The hub entries of a class for a plan, with their hub dies. -/
def classHub (f : ImageFile) (cls plan : Nat) : List (Nat × Word256) :=
  (f.hubScheds.filter (fun h => h.cls == cls && h.plan == plan)).flatMap (fun h => (schedWords h.words).map (fun w => (h.hub, w.2)))

/-- The solver jobs that a directory entry names, with their plan and byte offset. -/
def dirJobs (f : ImageFile) (d : DirEnt) : List (Nat × Nat × BitVec 1024) :=
  (f.solverJobs.filter (fun x => x.plan == d.index)).flatMap (fun x => x.rounds.flatMap (fun r =>
    (indexed r.jobs 0).map (fun j => (x.plan, r.off + 128 * j.1, j.2))))

/-- The offset of fence `i` of a plan, 0 when it has none. -/
def planFenceAt (p : PlanImg) (i : Nat) : Nat := match (planFences p)[i]? with | some w => fenceOff w | none => 0

/-- The modules of a class. -/
def classModules (f : ImageFile) (cls : Nat) : List Nat := (imgModules f).filter (fun m => modClass (imgModule f m) == cls)

/-- The image as the modules of a class read it. -/
def classImage (f : ImageFile) (cls : Nat) : ImageFile :=
  match (classModules f cls).head? with | some m => imgSeenBy f m | none => f

/-- The address of a granule of a hub die's stack (R322). -/
def granAddr (hub stack g : Nat) : Nat := (4 * hub + stack) * 2 ^ 36 + 256 * g

/-- Two ranges overlap. -/
def meet (a n b m : Nat) : Bool := decide (0 < n) && decide (0 < m) && decide (a < b + m) && decide (b < a + n)

/-! ### Solver jobs in time (R240, R627) -/

/-- The phases of a tick edge in the common period that the timing checks of solver jobs run over (R627). -/
def edgePhases (f : ImageFile) : List Nat :=
  if f.plans.all (fun p => match p with | some p => planPeriod p % 4 == 0 | none => true) then [0] else [0, 1, 2, 3]

/-- The scyc of the first SCLK edge at or after a tick-relative cyc, for a tick edge `r` cyc after a common edge. -/
def scycOf (r c : Nat) : Nat := ceilDiv (3 * (r + c)) 4

/-- The tick-relative cyc of an SCLK edge. -/
def cycOfScyc (r k : Nat) : Nat := ceilDiv (4 * k) 3 - r

/-- The scyc on which the latest possible descriptor write of a job completes (R240). -/
def slvLatest (r : Nat) (e : BitVec 1024) : Nat := scycOf r (slvDeadline e) + 41

/-- The latest cyc, over the phases of the image, by which a job's descriptor write is complete. -/
def slvEndCyc (f : ImageFile) (e : BitVec 1024) : Nat := (edgePhases f).foldl (fun m r => max m (cycOfScyc r (slvLatest r e))) 0

/-- Descriptors that the carry sweep of a die of module `m` writes in a round (R260). -/
def sweepCount (f : ImageFile) (m : Nat) (r : RoundImg) (die : Nat) : Nat :=
  (f.stateMap.filter (fun t => decide (4 ≤ t.role) && decide (t.role ≤ 7) && t.solver == die && owns t m)).foldl (fun n t =>
    n + ((range' (firstBlock f t) (factorBlocks t)).filter (fun b =>
      !r.jobs.any (fun j => slvTensor j == t.tensor && slvBlock j == b))).length) 0

/-- The most that any module's sweep of a die writes. -/
def sweepMost (f : ImageFile) (r : RoundImg) (die : Nat) : Nat := (imgModules f).foldl (fun k m => max k (sweepCount f m r die)) 0

/-- The latest cyc on which a sweep of `k` descriptors that starts on cyc `c` completes. -/
def sweepEndCyc (f : ImageFile) (c k : Nat) : Nat := (edgePhases f).foldl (fun m r => max m (cycOfScyc r (scycOf r c + 403 + k))) 0

/-! ### The vector engine's words (R602) -/

/-- Elements of a plan's target, as far as the image gives them. DEDUCED (a reduction plan names no length): an accumulator
tile has 16,384, and a region one 256 B chunk of 64. -/
def redElems (f : ImageFile) (id : Nat) : Nat :=
  match imgRedPlan f id with | some p => if bvBits p.ent 127 1 == 1 then 16384 else 64 | none => 64

/-- Parts of a plan. -/
def redParts (f : ImageFile) (id : Nat) : Nat := match imgRedPlan f id with | some p => p.parts.length | none => 0

/-- The granules of memory that a COPY moves. -/
def copyGrans (f : ImageFile) (w : Word256) : Nat :=
  match f.stateMap.find? (fun t => t.tensor == getBits (wX w) 0 20) with
  | some t => ceilDiv (128 * (wY w + 1) * (rowPlace t 0).2) 256
  | none => 1

/-- Elements that a DECAY computes: 128 of r or c, or the upper triangle of a block. -/
def decayElems (f : ImageFile) (w : Word256) : Nat :=
  match f.stateMap.find? (fun t => t.tensor == getBits (wX w) 0 20 && 2 ≤ t.role && t.role ≤ 7) with
  | some t => if t.role ≤ 3 then 128 else let n := blockDim t (wY w); n * (n + 1) / 2
  | none => 1

/-- Elements of a weight's bucket. -/
def bucketElems (f : ImageFile) (id : Nat) : Nat := match imgWeight f id with | some t => shardRows t * 2 ^ t.wb | none => 0

/-- Elements per cycle of an UPDATE (R602). -/
def updRate (f : ImageFile) (id : Nat) : Nat :=
  match (imgWeight f id).bind (fun t => f.ruleSets[t.ruleSet]?) with | some r => if r.rule ≤ 1 then 256 else 512 | none => 512

/-- Occupancy and latency of a vector-engine word of a tile of die `die` (R602). -/
def veTimes (f : ImageFile) (die : Nat) (w : Word256) : Nat × Nat :=
  let e := 64 * (wY w + 1)
  let o := wOpcode w
  let id := getBits (wX w) 0 20
  if o == 0x20 then (wY w + 1, 488)
  else if o == 0x21 then (wY w + 1, 16)
  else if o == 0x22 then (1, chainLat die w)
  else if o == 0x30 then (ceilDiv e 1024, if getBits (wX w) 4 2 == 0 then 12 else 16)
  else if o == 0x31 then (ceilDiv (wY w + 1) 16, 16)
  else if o == 0x40 then
    let k := getBits (wX w) 0 12
    ((redParts f k - 1) * ceilDiv (redElems f k) 2048, 484 + 8 * (Nat.log2 (redParts f k - 1) + 1))
  else if o == 0x41 then (ceilDiv e 1024, 12)
  else if o == 0x42 then (8 * (wY w + 1), 8)
  else if o == 0x43 then (bucketElems f id / 1024, 24)
  else if o == 0x50 then
    (ceilDiv (bucketElems f id) (updRate f id), match imgWeight f id with | some t => if t.fmt == 5 then 40 else 48 | none => 40)
  else if o == 0x51 then (copyGrans f w, 484)
  else if o == 0x52 then (ceilDiv (decayElems f w) 1024, 16)
  else if o == 0x60 then
    let slow := [3, 4, 5, 7].contains (getBits (wX w) 0 8)
    (ceilDiv e (if slow then 512 else 2048), if slow then 24 else 8)
  else (0, 0)

/-- The first cycle of a word's work: a streaming word's stationary load and an in-cell word's preload come before its ISSUE (R120,
R125). -/
def wordFirst (w : Word256) : Nat :=
  if !isPodWord w then wIssue w else if isStream w then wIssue w - 128 else if wAdd w then wIssue w - 134 else wIssue w

/-- The cycle on which the last result of a word of a tile is usable. -/
def wordLast (f : ImageFile) (die : Nat) (w : Word256) : Nat :=
  if isPodWord w then podUsable (isStream w) w (wIssue w) else wIssue w + (veTimes f die w).2 + ((veTimes f die w).1 - 1)

/-! ### Accesses to HBM (R603, R604) -/

/-- The granule accesses that a word needs on the hub schedules: whether it writes, the address, and the cycle. DEDUCED: the
rows of a bucket are read in the order in which they are consumed, 484 cycles before; a chain value comes in 256 granules, two
a cycle. What an image does not fix is not judged: banks, which change with the parity, and places of CONVERT, SCALE, SUMSQ
and EWISE that may be operand lines. -/
def wordAccesses (f : ImageFile) (w : Word256) : List (Bool × Nat × Nat) :=
  let o := wOpcode w
  let c := wIssue w
  let bucket (rate : Nat) : List (Bool × Nat × Nat) :=
    match imgWeight f (getBits (wX w) 0 20) with
    | none => []
    | some t =>
      let wb := 2 ^ t.wb
      (range' 0 (shardRows t)).flatMap (fun i => (range' 0 (wb / 64)).map (fun k =>
        (false, wA w + bucketOff (shardRows t) wb i (64 * k), c - 484 + (i * wb + 64 * k) / rate)))
  if o == 0x20 then (range' 0 (wY w + 1)).map (fun i => (false, wA w + 256 * i, c + i))
  else if o == 0x21 && getBits (wX w) 2 1 == 0 then
    let n := if getBits (wX w) 1 1 == 1 then 512 else 16 * fmtWidth (wFmt w)
    (range' 0 (wY w + 1)).flatMap (fun i => (range' 0 (n / 256)).map (fun k => (true, wA w + n * i + 256 * k, c + 16 + i)))
  else if o == 0x22 && getBits (wX w) 0 2 == 1 then (range' 0 256).map (fun k => (false, wA w + 256 * k, c + k / 2))
  else if o == 0x40 then
    match imgRedPlan f (getBits (wX w) 0 12) with
    | some p => p.parts.map (fun q => (false, bvBits q 64 57, c))
    | none => []
  else if o == 0x43 then bucket 1024
  else if o == 0x50 then bucket (updRate f (getBits (wX w) 0 20))
  else []

/-- Does a class's hub schedule for a plan make an access? -/
def scheduled (f : ImageFile) (cls plan : Nat) (a : Bool × Nat × Nat) : Bool :=
  (classHub f cls plan).any (fun h => hOp h.2 == (if a.1 then 2 else 1) &&
    (hGrans h.2).any (fun g => granAddr h.1 (hStack h.2) g.1 == a.2.1 / 256 * 256 && g.2 == a.2.2))

/-! ### Read ports of operand SRAM (R604) -/

/-- Read ports of a tile's operand SRAM that its pods use on a cycle: one for the rows of A and one for the stationary load or
the columns of B, of each pod at work (R120, R124). -/
def podPorts (ws : List Word256) (x : Nat) : Nat :=
  (ws.filter isPodWord).foldl (fun n w =>
    let c := wIssue w
    if isStream w then n + (decide (c ≤ x) && decide (x < c + wRows w)).toNat + (decide (c ≤ x + 128) && decide (x < c)).toNat
    else n + 2 * (decide (c ≤ x) && decide (x < c + feedLen w)).toNat) 0

/-- Does a vector-engine word read operand lines: a source below 98,304, or the third operand of an EWISE that has one? -/
def readsLines (w : Word256) : Bool :=
  let o := wOpcode w
  ([0x30, 0x31, 0x41, 0x60].contains o && decide (wA w < 98304)) || (o == 0x60 && (decide (wB w < 98304) ||
    [2, 8].contains (getBits (wX w) 0 8)))

/-- Does a vector-engine word find all 16 read ports taken by pods on a cycle on which it reads operand lines? -/
def portsTaken (f : ImageFile) (ws : List Word256) (w : Word256) : Bool :=
  readsLines w && (range' (wIssue w) (veTimes f 0 w).1).any (fun x => decide (16 ≤ podPorts ws x))

/-! ### Pool slots (R186) -/

/-- The pool slots of a class: for each UPDATE its address, its length, its ISSUE, its last cycle and the weight. -/
def poolUses (f : ImageFile) (cls : Nat) : List (Nat × Nat × Nat × Nat × TensorEnt) :=
  (classWords f cls).filterMap (fun x =>
    if wOpcode x.2 == 0x50 then
      (imgWeight f (getBits (wX x.2) 0 20)).map (fun t =>
        (wA x.2, 4 * shardRows t * 2 ^ t.wb, wIssue x.2, wordLast f (x.1 / 10) x.2, t))
    else none)

/-- Does a word leave a finished bucket in memory: a READOUT to HBM that is no spill? -/
def fillsPool (w : Word256) : Bool := wOpcode w == 0x21 && getBits (wX w) 0 1 == 0 && getBits (wX w) 2 1 == 0

/-- Bytes that a READOUT writes. -/
def readoutLen (w : Word256) : Nat := (wY w + 1) * (if getBits (wX w) 1 1 == 1 then 512 else 16 * fmtWidth (wFmt w))

/-! ### Spans of scheduled work -/

/-- The scheduled work of a section: offset, plan, first and last cycle. -/
def workSpans (f : ImageFile) (d : DirEnt) : List (Option Nat × PlanImg × Nat × Nat) :=
  if d.typ == 3 then
    (dirStream f d).flatMap (fun w => (stepImgs f).map (fun p =>
      (some w.1, p.2, wordFirst w.2, wordLast (classImage f d.cls) (d.index / 10) w.2)))
  else if d.typ == 4 then
    (dirHub f d).flatMap (fun x => match x.2 with
      | none => []
      | some p => ((schedWords x.1.words).filter (fun w => decide (hOp w.2 ≤ 3))).flatMap (fun w =>
          (hGrans w.2).map (fun g => (some w.1, p, g.2, g.2 + if hOp w.2 == 1 then 484 else if hOp w.2 == 2 then 256 else 496))))
  else if d.typ == 5 then
    (dirLink f d).flatMap (fun x => match x.2 with
      | none => []
      | some p => ((schedWords x.1.words).filter (fun w => [1, 2, 3, 4, 6].contains (kOp w.2))).flatMap (fun w =>
          (range' 0 (kCount w.2)).map (fun k =>
            let c := kCycle w.2 + k * kStride w.2 * imgWindow f
            (some w.1, p, c, if kOp w.2 == 6 then c else c + imgHop f))))
  else if d.typ == 6 then
    (dirJobs f d).flatMap (fun j => match imgPlan f j.1 with
      | some p => [(some j.2.1, p, slvStart j.2.2, slvEndCyc f j.2.2)]
      | none => []) ++
    (match imgPlan f d.index with
      | some p => (f.solverJobs.filter (fun x => x.plan == d.index)).flatMap (fun x => (indexed x.rounds 0).flatMap (fun r =>
          (range' 0 4).flatMap (fun die =>
            let k := sweepMost f r.2 die
            let c := r.2.sweeps.getD die 0
            if k == 0 then [] else [(some (16 + 48 * r.1), p, c, sweepEndCyc f c k)])))
      | none => [])
  else []

/-- The SLACK phases of a plan: first cycle and the cycle after the last. -/
def slackPhases (p : PlanImg) : List (Nat × Nat) :=
  (indexed (planFences p) 0).filterMap (fun x =>
    if fenceSlack x.2 then some (if x.1 == 0 then 0 else planFenceAt p (x.1 - 1), fenceOff x.2) else none)

/-- The cycle before which the layout switch of a cycle's phase is not over, 0 when the phase begins with none (R33). DEDUCED:
a first phase begins with one when some plan of the image, which may have the tick before, ends in another layout. -/
def switchEnd (f : ImageFile) (p : PlanImg) (c : Nat) : Nat :=
  let i := planPhaseAt p c
  if i == 0 then
    if f.plans.any (fun q => match q with
      | some q => phaseLayout q (planNfence q - 1) != phaseLayout p 0
      | none => false) then 4096 else 0
  else if phaseLayout p i != phaseLayout p (i - 1) then planFenceAt p (i - 1) + 4096 else 0

end Sys2Proof.Machine
end

