-- ==== Sys2Proof/Machine/LoadSpan.lean ====
section
/-! DEFINITION. The image loader, part four: the checks that span sections, in increasing refusal code (R29 to R43, R112,
R131, R135, R147 to R164, R176, R186, R189, R195, R206 to R220, R226 to R240, R256, R260, R272, R274, R325, R333, R383, R398,
R403, R406, R418, R423, R472, R484, R604, R626, R627), and the acceptance or refusal of an image (R486, R487). Each check
answers its failures for one directory entry. No check has the code PIN: the tables that the hull builds give PIN to every
region that scheduled work touches (R437), so that no scheduled access lies outside them. -/

namespace Sys2Proof.Machine

/-! ### Footprint and overlap (R423, R472) -/

/-- Bytes of an image that a module of a class keeps. -/
def keptBytes (f : ImageFile) (cls : Nat) : Nat :=
  (f.dir.filter (fun d => d.common || d.cls == cls)).foldl (fun n d => n + d.length) 0

/-- The class of this module under an image. -/
def State.ownClass (s : State) (f : ImageFile) : Nat := modClass (imgModule f (s.fget HULL_ORCH_MODULE))

/-- The images of the other resident contexts. -/
def State.residents (s : State) : List ImageFile := s.ctxs.filterMap (fun c => if c.state == .empty then none else c.image)

/-- The regions of slots: section type, address and length. -/
def slotRegions (f : ImageFile) : List (Nat × Nat) :=
  f.plans.flatMap (fun p => match p with
    | some p => p.slots.map (fun e => (slotStaging e, slotStagingLen e))
    | none => [])

/-- The regions of a module's own tensors, with the entry's offset. -/
def State.ownRegions (s : State) (f : ImageFile) : List (Nat × Nat × Nat) :=
  ((indexed f.stateMap 0).filter (fun x => owns x.2 (s.fget HULL_ORCH_MODULE))).flatMap (fun x =>
    (tensorRegions f x.2).map (fun r => (128 * x.1, r.1, r.2)))

/-- The regions of every other resident context. -/
def State.residentRegions (s : State) : List (Nat × Nat) :=
  s.residents.flatMap (fun g => (s.ownRegions g).map (fun r => (r.2.1, r.2.2)) ++ slotRegions g)

def State.footprintFails (s : State) (f : ImageFile) (d : DirEnt) : List LoadFail :=
  let others := s.residentRegions
  if d.typ == 1 then
    failIf (2 ^ 29 < keptBytes f (s.ownClass f) + (s.residents.map (fun g => keptBytes g (s.ownClass g))).foldl (· + ·) 0)
      { code := 9, typ := 0, offset := none } ++
    failIf ((slotRegions f).any (fun r => others.any (fun o => meet r.1 r.2 o.1 o.2))) (dirFail d 9 none 0)
  else if d.typ == 7 then
    (s.ownRegions f).flatMap (fun r => failIf (others.any (fun o => meet r.2.1 r.2.2 o.1 o.2)) (dirFail d 9 (some r.1) 0))
  else []

/-! ### Tick plans (R29, R30, R33, R34, R36, R398, R406) -/

/-- R30, R406 and the successors (R307). -/
def planSetFails (f : ImageFile) (d : DirEnt) : List LoadFail :=
  if d.typ == 1 then
    failIf (match imgPlan f (imgTick0 f) with
      | some p => planKind p == 2 || (planKind p != 1 && f.stateMap.any (fun t => t.gather == 2))
      | none => true) (dirFail d 0x101 (some (8 * imgTick0 f)) 0) ++
    (stepImgs f).flatMap (fun p => failIf (!(stepPlans f).contains (planSuccessor p.2)) (dirFail d 0x101 (some p.2.off) 0))
  else []

/-- The slots that the image's MARKER entries name. -/
def markerSlots (f : ImageFile) : List Nat :=
  f.linkScheds.flatMap (fun c => (schedWords c.words).filterMap (fun w => if kOp w.2 == 4 then some (kSlot w.2) else none))

/-- R398: the failing fence is the plan's EDGE. -/
def periodFails (f : ImageFile) (d : DirEnt) : List LoadFail :=
  if d.typ == 1 then
    let win := imgWindow f
    f.plans.flatMap (fun p => match p with
      | none => []
      | some p =>
        let c := planPeriod p - limLead f
        failIf ((markerSlots f).any (fun k => decide (planPeriod p < limLead f) || c % win != slotStart win k ||
          decide (planPeriod p < (c / win + 1) * win))) (dirFail d 0x103 (some (fencePlace p (planNfence p - 1))) c))
  else []

/-- A failure that a fence of a plan names (R36). -/
def planFail (p : PlanImg) (j code cycle : Nat) : LoadFail :=
  { code := code, typ := 1, offset := some (fencePlace p j), cycle := cycle }

/-- The scheduled work of the whole image on a plan: first and last cycle. -/
def planWork (f : ImageFile) (p : PlanImg) : List (Nat × Nat) :=
  (f.dir.flatMap (workSpans f)).filterMap (fun w => if w.2.1 == p then some w.2.2 else none)

/-- R34: no scheduled work starts in a SLACK phase or runs into one; what completes on the fence that opens one is complete by it
(R37). The fence that ends the phase is named (R36). -/
def slackFails (f : ImageFile) (d : DirEnt) : List LoadFail :=
  if d.typ == 1 then
    f.plans.flatMap (fun p => match p with
      | none => []
      | some p =>
        let ws := planWork f p
        (indexed (planFences p) 0).flatMap (fun x =>
          let first := if x.1 == 0 then 0 else planFenceAt p (x.1 - 1)
          match (if fenceSlack x.2 then ws.filter (fun w => decide (first < w.2) && decide (w.1 < fenceOff x.2)) else []) with
          | w :: _ => [planFail p x.1 0x104 w.1]
          | [] => []))
  else []

/-- The vector-engine words of every stream, each with the image that its class reads, its tile and the word before it. -/
def engineWords (f : ImageFile) : List (ImageFile × Nat × Option Word256 × Word256) :=
  (f.dir.filter (fun d => d.typ == 3)).flatMap (fun d =>
    let g := classImage f d.cls
    let ve := ((dirStream f d).filter (fun w => !isPodWord w.2)).map (fun w => w.2)
    (ve.zip (none :: ve.map some)).map (fun x => (g, d.index, x.2, x.1)))

/-- R33, R36 and R602: work before the end of a layout switch, vector-engine words that overlap, and completions after the fence,
by plan and fence. -/
def overrunFails (f : ImageFile) (d : DirEnt) : List LoadFail :=
  if d.typ == 1 then
    f.plans.flatMap (fun p => match p with
      | none => []
      | some p =>
        ((planWork f p).filter (fun w => decide (w.1 < switchEnd f p w.1))).map (fun w => planFail p (planPhaseAt p w.1) 0x105 w.1)) ++
    (stepImgs f).flatMap (fun p => (engineWords f).flatMap (fun x =>
      let w := x.2.2.2
      failIf (match x.2.2.1 with
        | some v => decide (wIssue w < wIssue v + (veTimes x.1 (x.2.1 / 10) v).1)
        | none => false) (planFail p.2 (planPhaseAt p.2 (wIssue w)) 0x105 (wIssue w)) ++
      failIf (decide (planFenceAt p.2 (wFence w) < wordLast x.1 (x.2.1 / 10) w)) (planFail p.2 (wFence w) 0x105 (wIssue w))))
  else []

/-! ### Data fences (R43) -/

/-- The slots of every plan. -/
def allSlots (f : ImageFile) : List (BitVec 256) := f.plans.flatMap (fun p => match p with | some p => p.slots | none => [])

/-- The regions that data fence `i` of a plan guards: of host input, the staging buffers of the slots that name it, or else of
the slots of any plan that stage into its BUFFER, or else the granule there; of a prefetch, the pair region of its tensor. -/
def dfRegions (f : ImageFile) (p : PlanImg) (i : Nat) (x : BitVec 128) : List (Nat × Nat) :=
  if dfKind x == 1 then
    (f.stateMap.filter (fun t => t.tensor == dfTensor x && t.tier != 0)).map (fun t => (dfBuffer x, bankBytes t))
  else
    let own := p.slots.filter (fun e => slotDfence e == i)
    let l := if own.isEmpty then (allSlots f).filter (fun e => slotStaging e == dfBuffer x) else own
    if l.isEmpty then [(dfBuffer x, 256)] else l.map (fun e => (slotStaging e, slotStagingLen e))

/-- The regions that a plan's data fences guard: address, length and cycle. -/
def fencedRegions (f : ImageFile) (p : PlanImg) : List (Nat × Nat × Nat) :=
  (indexed p.dfences 0).flatMap (fun x => (dfRegions f p x.1 x.2).map (fun r => (r.1, r.2, dfCycle x.2)))

/-- R43. -/
def dataFenceFails (f : ImageFile) (d : DirEnt) : List LoadFail :=
  if d.typ == 4 then
    (dirHub f d).flatMap (fun x => match x.2 with
      | none => []
      | some p =>
        let rs := fencedRegions f p
        ((schedWords x.1.words).filter (fun w => hOp w.2 == 1)).flatMap (fun w =>
          failIf ((hGrans w.2).any (fun g => rs.any (fun r =>
            meet (granAddr x.1.hub (hStack w.2) g.1) 256 r.1 r.2.1 && decide (g.2 < r.2.2)))) (dirFail d 0x106 (some w.1) (hCycle w.2))))
  else []

/-! ### Streams against the plans (R131, R135, R163, R604, R626) -/

/-- PHASE, FENCE and the usable cycle of a pod word (R131). -/
def podFieldFails (f : ImageFile) (d : DirEnt) : List LoadFail :=
  if d.typ == 3 then
    ((dirStream f d).filter (fun w => isPodWord w.2)).flatMap (fun w => (stepImgs f).flatMap (fun p =>
      failIf (wPhase w.2 != planPhaseAt p.2 (wIssue w.2) || decide (wFence w.2 < wPhase w.2) || decide (planNfence p.2 ≤ wFence w.2) ||
        decide (planFenceAt p.2 (wFence w.2) < podUsable (isStream w.2) w.2 (wIssue w.2))) (dirFail d 0x202 (some w.1) (wIssue w.2))))
  else []

/-- Does a CHAIN word move a chain value between tiles or modules, rather than reload a wave's spill? -/
def movesChain (w : Word256) : Bool := wOpcode w == 0x22 && getBits (wX w) 0 2 != 1

/-- The tile that a CHAIN word takes its value from, when it is one. -/
def chainSource (w : Word256) : Option (Nat × Nat) :=
  if wOpcode w == 0x22 && getBits (wX w) 0 2 == 0 then
    some (10 * getBits (wX w) 2 3 + getBits (wX w) 5 4, getBits (wX w) 9 8)
  else none

/-- The pod words of a tile on an accumulator tile, in stream order. -/
def accWords (ws : List Word256) (acc : Nat) : List Word256 := ws.filter (fun w => isPodWord w && wAcc w == acc)

/-- The words of a tile of a class. -/
def tileWords (f : ImageFile) (cls tile : Nat) : List Word256 :=
  ((classWords f cls).filter (fun x => x.1 == tile)).map (fun x => x.2)

/-- The first word of a reduction on an accumulator tile: ADD = 0, or a chain value taken. -/
def beginsSum (w : Word256) : Bool := !wAdd w || wChain w

/-- The cycle of the first word of the reduction that is under way on an accumulator tile on cycle `c`. -/
def sumStart (ws : List Word256) (acc c : Nat) : Option Word256 :=
  ((accWords ws acc).filter (fun w => beginsSum w && decide (wIssue w ≤ c))).getLast?

/-- Is the reduction that a word on a tile belongs to a part of a chain: begun with a value that a transfer moved there, or left by
one to another tile (R160, R163)? A wave's reload from its spill (R148, R214) is no part of a chain. -/
def inChain (f : ImageFile) (cls tile : Nat) (ws : List Word256) (w : Word256) : Bool :=
  let acc := wAcc w
  let next := (((accWords ws acc).filter (fun v => beginsSum v && decide (wIssue w < wIssue v))).head?).map wIssue
  (match sumStart ws acc (wIssue w) with
    | some v => wChain v && ((ws.filter (fun x => wOpcode x == 0x22 && wAcc x == acc &&
        decide (wIssue x + chainLat (tile / 10) x ≤ wIssue v))).getLast?).any movesChain
    | none => false) ||
  (classWords f cls).any (fun v => chainSource v.2 == some (tile, acc) && decide (wIssue w ≤ wIssue v.2) &&
    (match next with | some c => decide (wIssue v.2 < c) | none => true))

/-- Is a part of a plan formed on a tile of a class? -/
def partOn (f : ImageFile) (cls tile : Nat) (q : BitVec 128) : Bool :=
  modClass (imgModule f (bvBits q 0 32)) == cls && 10 * bvBits q 32 8 + bvBits q 40 8 == tile

/-- The steps that a CHAIN plan's value takes: from part to part, and of a BP32 plan from the last part back to part 0 for the
next pass (R160, R163); whether the step is that one, the part that gives and the part that takes. -/
def chainSteps (r : RedPlanImg) : List (Bool × BitVec 128 × BitVec 128) :=
  if bvBits r.ent 16 8 != 2 then []
  else (r.parts.zip (r.parts.drop 1)).map (fun q => (false, q)) ++
    (if bvBits r.ent 24 8 == 5 then (match r.parts.getLast?, r.parts.head? with
      | some a, some b => [(true, a, b)]
      | _, _ => []) else [])

/-- The steps of the image's CHAIN plans onto a tile of a class, from a given tile where one is given. -/
def stepsTo (f : ImageFile) (cls tile : Nat) (src : Option Nat) : List (Bool × Bool) :=
  f.redPlans.flatMap (fun r => ((chainSteps r).filter (fun q => partOn f cls tile q.2.2 && (match src with
    | some t => partOn f cls t q.2.1
    | none => true))).map (fun q => (q.1, (r.parts.head?).any (fun h => h == q.2.1))))

/-- R163: no part of a chain over BP32 is formed in-cell, and each pass runs through all parts before the next one begins: what
a transfer brings is taken up in the same pass, and after the last part in the next. -/
def passFails (f : ImageFile) (d : DirEnt) : List LoadFail :=
  if d.typ == 3 then
    let ws := (dirStream f d).map (fun w => w.2)
    let bp (w : Word256) : Bool := isPodWord w && wFmt w == 5
    let whole := f.redPlans.any (fun r => bvBits r.ent 16 8 == 2 && bvBits r.ent 24 8 == 5 && r.parts.any (partOn f d.cls d.index)) &&
      !ws.any (fun w => bp w && isStream w)
    (dirStream f d).flatMap (fun w =>
      failIf ((bp w.2 && !isStream w.2 && (whole || inChain f d.cls d.index ws w.2)) ||
        (match chainSource w.2 with
          | some (src, acc) =>
            let given := ((accWords (tileWords f d.cls src) acc).filter (fun v => decide (wIssue v ≤ wIssue w.2))).getLast?
            let taken := ((accWords ws (wAcc w.2)).filter (fun v => wChain v &&
              decide (wIssue w.2 + chainLat (d.index / 10) w.2 ≤ wIssue v))).head?
            let back := (stepsTo f d.cls d.index (some src)).all (fun q => q.1)
            (match given, taken with
              | some g, some t => bp g && isStream g && bp t && isStream t && wPass t != wPass g + back.toNat
              | _, _ => false)
          | none => false)) (dirFail d 0x205 (some w.1) 0))
  else []

/-! ### Live buckets (R183) -/

/-- The live spans of the buckets of a tile of a class: accumulator tile, ISSUE of the first contribution of a wave, and the cycle
on which the bucket is gone: its read-out or spill is complete, or a transfer has taken its part on (R160). -/
def liveSpans (f : ImageFile) (cls tile : Nat) : List (Nat × Nat × Nat) :=
  let cl := classWords f cls
  let ws := tileWords f cls tile
  (ws.filter (fun w => isContribution w && beginsSum w)).map (fun w =>
    let outs := (ws.filter (fun v => wOpcode v == 0x21 && wAcc v == wAcc w && decide (wIssue w ≤ wIssue v))).map (fun v =>
        wIssue v + 16 + wY v) ++
      (cl.filter (fun v => chainSource v.2 == some (tile, wAcc w) && decide (wIssue w ≤ wIssue v.2))).map (fun v => wIssue v.2)
    (wAcc w, wIssue w, (outs.foldl (fun m c => some (match m with | some x => min x c | none => c)) none).getD (2 ^ 40)))

/-- The cycles over which a word of a tile writes an accumulator tile, other than as a contribution: first and last. -/
def accWrites (f : ImageFile) (die : Nat) (w : Word256) : List (Nat × Nat × Nat) :=
  if isPodWord w then (if isContribution w then [] else [(wAcc w, podWrites w)])
  else if wOpcode w == 0x22 then [(wAcc w, wIssue w + chainLat die w, wIssue w + chainLat die w)]
  else []

/-- The accumulator tiles of a tile of a class that the TREE words of the class write: tile number and cycles (R480). -/
def treeWrites (f : ImageFile) (cls tile : Nat) : List (Nat × Nat × Nat) :=
  (classWords f cls).filterMap (fun x =>
    if wOpcode x.2 != 0x40 then none
    else (imgRedPlan f (getBits (wX x.2) 0 12)).bind (fun r =>
      let t := bvBits r.ent 64 64
      if getBits t 63 1 == 1 && 10 * getBits t 0 3 + getBits t 3 4 == tile then
        some (getBits t 7 8, wIssue x.2 + (veTimes f (x.1 / 10) x.2).2, wordLast f (x.1 / 10) x.2)
      else none))

/-- R183: nothing but the bucket's own contributions writes a live bucket's tile, and no second bucket begins on it. A tile number
has 8 bits, so the tiles in use are never more than 256. -/
def liveFails (f : ImageFile) (d : DirEnt) : List LoadFail :=
  if d.typ == 3 then
    let g := classImage f d.cls
    let ls := liveSpans g d.cls d.index
    let hit (x : Nat × Nat × Nat) : Bool := ls.any (fun l => l.1 == x.1 && decide (l.2.1 ≤ x.2.2) && decide (x.2.1 ≤ l.2.2))
    (dirStream f d).flatMap (fun w =>
      failIf ((accWrites g (d.index / 10) w.2).any hit || (isContribution w.2 && beginsSum w.2 &&
        ls.any (fun l => l.1 == wAcc w.2 && decide (l.2.1 < wIssue w.2) && decide (wIssue w.2 ≤ l.2.2))))
        (dirFail d 0x207 (some w.1) (wIssue w.2))) ++
    (treeWrites g d.cls d.index).flatMap (fun x => failIf (hit x) (dirFail d 0x207 none x.2.1))
  else []

/-- Is memory at an address a factor's result buffer? -/
def inFactor (f : ImageFile) (a : Nat) : Bool :=
  f.stateMap.any (fun t => t.role == 8 && ((tensorRegions f t).drop 2).any (fun r => decide (r.1 ≤ a) && decide (a < r.1 + r.2)))

/-- Where the words of a stream have left what comes of a bucket read under ν or of a factor: operand lines, accumulator tiles, and
memory, by address and length (R187, R281, R626). -/
structure NuSt where
  lines : StreamSt := {}
  accs : List Nat := []
  mems : List (Nat × Nat) := []

/-- Are `n` bytes of memory at an address of a factor, a pool slot, or what came of either? -/
def NuSt.memNu (st : NuSt) (f : ImageFile) (cls a n : Nat) : Bool :=
  inFactor f a || (poolUses f cls).any (fun u => meet u.1 u.2.1 a n) || st.mems.any (fun m => meet m.1 m.2 a n)

/-- Does a source of `n` bytes, operand lines below 98,304, hold such values on cycle `x`? -/
def NuSt.srcNu (st : NuSt) (f : ImageFile) (cls a n x : Nat) : Bool :=
  if a < 98304 then (range' a (ceilDiv n 256)).any (fun l => ((st.lines.fillOf l x).map Fill.nu).getD false)
  else st.memNu f cls a n

/-- Does a word use a bucket under ν, a factor, or what came of them (R187, R626)? -/
def NuSt.uses (st : NuSt) (f : ImageFile) (cls : Nat) (w : Word256) : Bool :=
  let o := wOpcode w
  let c := wIssue w
  let e := 64 * (wY w + 1)
  if isPodWord w then
    let s := isStream w
    (operandLines (wFmt w) (wALine w) (!wTA w) (wRows w) (wKlen w) (fun i k => aCycle s w c 0 i k) ++
      operandLines (wFmt w) (wBLine w) (wTB w) 128 (wKlen w) (fun _ k => bCycle s w c 0 k)).any (fun l =>
        ((st.lines.fillOf l.1 l.2).map Fill.nu).getD false)
  else if o == 0x20 then st.memNu f cls (wA w) (256 * (wY w + 1))
  else if o == 0x21 then st.accs.contains (wAcc w)
  else if o == 0x30 then getBits (wX w) 4 1 == 1 || st.srcNu f cls (wA w) (e * fmtBytes (getBits (wX w) 0 4)) c
  else if o == 0x31 then st.srcNu f cls (wA w) (512 * (wY w + 1)) c
  else if o == 0x40 then (imgRedPlan f (getBits (wX w) 0 12)).any (fun r => r.parts.any (fun q => st.memNu f cls (bvBits q 64 57) 4))
  else if o == 0x41 then st.srcNu f cls (wA w) (4 * e) c
  else if o == 0x60 then st.srcNu f cls (wA w) (4 * e) c || st.srcNu f cls (wB w) (4 * e) c
  else [0x43, 0x50, 0x52].contains o

/-- What a word leaves of such values. -/
def NuSt.next (st : NuSt) (f : ImageFile) (cls : Nat) (w : Word256) : NuSt :=
  let u := st.uses f cls w
  let fills := if isPodWord w then [] else (wordFills w).map (fun x => { x with nu := u })
  let st := { st with lines := { st.lines with fills := fills ++ st.lines.fills } }
  if isPodWord w then
    { st with accs := if u then wAcc w :: st.accs else if beginsSum w then st.accs.filter (fun a => a != wAcc w) else st.accs }
  else if !u then st
  else if wOpcode w == 0x21 && getBits (wX w) 2 1 == 0 then { st with mems := (wA w, readoutLen w) :: st.mems }
  else if [0x30, 0x31, 0x41].contains (wOpcode w) && decide (98304 ≤ wB w) then
    { st with mems := (wB w, if wOpcode w == 0x41 then 4 else 64 * (wY w + 1) * fmtBytes (wFmt w)) :: st.mems }
  else st

/-- The words of a stream, each with what those before it have left. -/
def nuWalk (f : ImageFile) (cls : Nat) : List (Nat × Word256) → NuSt → List (Nat × Word256 × NuSt)
  | [], _ => []
  | w :: r, st => (w.1, w.2, st) :: nuWalk f cls r (st.next f cls w.2)

/-- R135 and R626. -/
def tokenFails (f : ImageFile) (d : DirEnt) : List LoadFail :=
  if d.typ == 3 then
    let g := classImage f d.cls
    (nuWalk g d.cls (dirStream f d) {}).flatMap (fun w => (stepImgs f).flatMap (fun p =>
      failIf (decide (wIssue w.2.1 < planFenceOf p.2 1) && ((isPodWord w.2.1 && wTokDim w.2.1 != 0) || w.2.2.uses g d.cls w.2.1))
        (dirFail d 0x208 (some w.1) (wIssue w.2.1))))
  else []

/-! ### Masks (R189) -/

/-- The bits that DATA sections put at an address, when one holds them. -/
def dataBits (f : ImageFile) (a bytes : Nat) : Option Nat :=
  (f.data.find? (fun r => decide (r.dest ≤ a) && decide (a + bytes ≤ r.dest + r.bytes.length))).map (fun r =>
    ((r.bytes.drop (a - r.dest)).take bytes).reverse.foldl (fun n b => 256 * n + b.toNat) 0)

/-- The weight and the first of 128 rows that an address of a pool slot is for, or of a part slot of a plan whose target is one, as
the uses of a tie and exchanged parts are (R186, R194). -/
def slotGradient (f : ImageFile) (cls a : Nat) : Option (TensorEnt × Nat) :=
  let own (b base : Nat) : Option (TensorEnt × Nat) :=
    ((poolUses f cls).find? (fun u => decide (u.1 ≤ b) && decide (b < u.1 + u.2.1))).map (fun u =>
      let t := u.2.2.2.2
      (t, t.row0 + (a - base + (b - u.1)) / 65536 / (2 ^ t.wb / 128) * 128))
  (own a a).orElse (fun _ => f.redPlans.findSome? (fun r =>
    if bvBits r.ent 127 1 == 1 then none
    else r.parts.findSome? (fun q =>
      let s := bvBits q 64 57
      if s != 0 && decide (s ≤ a) then (own (bvBits r.ent 64 57) s).filter (fun x => decide (a < s + 4 * shardRows x.1 * 2 ^ x.1.wb))
      else none)))

/-- The weight and the first of the 128 rows that an accumulator tile's contributions from cycle `c` on are for: by the READOUT that
leaves the finished bucket; a wave's spill is followed to the tile that reloads it (R148). `fuel` bounds the waves. -/
def gradientOf (f : ImageFile) (cls : Nat) : Nat → Nat → Nat → Nat → Option (TensorEnt × Nat)
  | 0, _, _, _ => none
  | k + 1, tile, acc, c =>
    ((tileWords f cls tile).find? (fun r => wOpcode r == 0x21 && wAcc r == acc && decide (c ≤ wIssue r))).bind (fun r =>
      if fillsPool r then slotGradient f cls (wA r)
      else ((classWords f cls).find? (fun v => wOpcode v.2 == 0x22 && getBits (wX v.2) 0 2 == 1 && wA v.2 == wA r &&
        decide (wIssue r < wIssue v.2))).bind (fun v => gradientOf f cls k v.1 (wAcc v.2) (wIssue v.2)))

/-- Does a contribution's mask disagree with the train mask of the 128 rows that it writes? The mask's bits are those of a DATA
section, and a line that no DATA section gives holds none. -/
def maskBad (f : ImageFile) (st : StreamSt) (t : TensorEnt) (row : Nat) (w : Word256) : Bool :=
  wMaskKind w != t.maskKind ||
  (wMaskKind w != 0 &&
    match (st.fillOf (wMaskLine w) (wIssue w)).bind (fun x => x.src.bind (fun a => dataBits f (a + 256 * (wMaskLine w - x.first)) 16)) with
    | some m =>
      if wMaskKind w == 1 then m != getBits t.mask row 128 else getBits m 0 1 != getBits t.mask (row / 128) 1
    | none => true)

/-- R189. -/
def maskFails (f : ImageFile) (d : DirEnt) : List LoadFail :=
  if d.typ == 3 then
    let g := classImage f d.cls
    let ws := dirStream f d
    let st := streamFills (ws.map (fun w => w.2))
    (ws.filter (fun w => isContribution w.2)).flatMap (fun w => match gradientOf g d.cls 65 d.index (wAcc w.2) (wIssue w.2) with
      | some x => failIf (maskBad g st x.1 x.2 w.2) (dirFail d 0x209 (some w.1) 0)
      | none => [])
  else []

/-! ### Product formats of the factor statistics (R212) -/

/-- R212: the pod words whose sums a DECAY takes as a factor's contribution have the format that the statistic names. -/
def statFmtFails (f : ImageFile) (d : DirEnt) : List LoadFail :=
  if d.typ == 3 then
    let g := classImage f d.cls
    let cl := classWords g d.cls
    let ws := (dirStream f d).map (fun w => w.2)
    let contribs := cl.filterMap (fun x => if wOpcode x.2 != 0x52 then none else
      (g.stateMap.find? (fun t => t.tensor == getBits (wX x.2) 0 20 && 4 ≤ t.role && t.role ≤ 7)).map (fun t =>
        (wA x.2, 4 * blockDim t (wY x.2) * blockDim t (wY x.2), t.prodFmt)))
    (dirStream f d).flatMap (fun w => failIf (isPodWord w.2 && ws.any (fun r => fillsPool r && wAcc r == wAcc w.2 &&
      decide (wIssue w.2 ≤ wIssue r) && (accWords ws (wAcc r)).all (fun v => !(beginsSum v && decide (wIssue w.2 < wIssue v) &&
        decide (wIssue v ≤ wIssue r))) &&
      contribs.any (fun k => meet k.1 k.2.1 (wA r) (readoutLen r) && k.2.2 != wFmt w.2))) (dirFail d 0x206 (some w.1) 0))
  else []

/-! ### Accesses, pool slots and ties (R186, R195, R604) -/

/-- R604. -/
def veFieldFails (f : ImageFile) (d : DirEnt) : List LoadFail :=
  if d.typ == 3 then
    let g := classImage f d.cls
    let ws := dirStream f d
    (ws.filter (fun w => !isPodWord w.2)).flatMap (fun w =>
      failIf (portsTaken g (ws.map (fun v => v.2)) w.2 || (stepImgs f).any (fun p =>
        (wordAccesses g w.2).any (fun a => !scheduled f d.cls p.1 a))) (dirFail d 0x20A (some w.1) (wIssue w.2)))
  else []

/-- Does a class's hub schedule for some STEP plan read bytes of memory on a cycle from `x` to `y`? -/
def readBetween (f : ImageFile) (cls a n x y : Nat) : Bool :=
  (stepImgs f).any (fun p => (classHub f cls p.1).any (fun h => hOp h.2 == 1 && (hGrans h.2).any (fun g =>
    meet (granAddr h.1 (hStack h.2) g.1) 256 a n && decide (x ≤ g.2) && decide (g.2 ≤ y))))

/-- R186: what a READOUT finds in its pool slot has been updated or parked before it is overwritten; what no UPDATE of the class
reads, the use of a tie or what is exchanged to its owner, has been read out of its slot. -/
def poolFails (f : ImageFile) (d : DirEnt) : List LoadFail :=
  if d.typ == 3 then
    let g := classImage f d.cls
    let us := poolUses g d.cls
    let rs := (classWords f d.cls).filter (fun x => fillsPool x.2)
    let slot (a : Nat) : Bool := (slotGradient g d.cls a).isSome
    ((dirStream f d).filter (fun w => fillsPool w.2 && slot (wA w.2))).flatMap (fun w =>
      let inSlot := us.filter (fun u => meet u.1 u.2.1 (wA w.2) (readoutLen w.2))
      failIf (rs.any (fun r => (r.1 != d.index || r.2 != w.2) && decide (wIssue r.2 ≤ wIssue w.2) &&
        meet (wA r.2) (readoutLen r.2) (wA w.2) (readoutLen w.2) &&
        !(if inSlot.isEmpty then readBetween f d.cls (wA r.2) (readoutLen r.2) (wIssue r.2) (wIssue w.2)
          else inSlot.any (fun u => decide (wIssue r.2 ≤ u.2.2.1) && decide (u.2.2.2.1 < wIssue w.2 + 16)))))
        (dirFail d 0x20B (some w.1) (wIssue w.2)))
  else []

/-- The arrivals of a class's schedule for a plan in a range of memory: reduction plan, granule address, landing cycle. -/
def arrivalsIn (f : ImageFile) (cls plan a len : Nat) : List (Nat × Nat × Nat) :=
  (classHub f cls plan).flatMap (fun h => if hOp h.2 != 3 then [] else
    ((hGrans h.2).filter (fun g => meet (granAddr h.1 (hStack h.2) g.1) 256 a len)).map (fun g =>
      (hPlan h.2, granAddr h.1 (hStack h.2) g.1, g.2)))

/-- Is the bucket of a tied tensor not yet summed on a cycle at any of `n` bytes from `a` of its pool slot: a use's part is still to
come or not yet visible there, or none comes at all (R155, R195)? -/
def tieOpen (f : ImageFile) (cls plan a n x : Nat) : Bool :=
  let l := arrivalsIn f cls plan a n
  l.isEmpty || l.any (fun b => decide (x < b.2.2 + 496))

/-- The words that may read a bucket, with the bytes and the first cycle of their read. -/
def bucketReads (w : Word256) : List (Nat × Nat × Nat) :=
  let o := wOpcode w
  let c := wIssue w
  if o == 0x20 then [(wA w, 256 * (wY w + 1), c)]
  else if o == 0x30 || o == 0x41 || o == 0x60 then [(wA w, 256 * (wY w + 1), c - 484)]
  else if o == 0x43 || o == 0x50 then [(wA w, 256, c - 484)]
  else []

/-- R195: no consumer reads a tied tensor's bucket before the sum of its last use is complete; and the uses of a tied tensor are
the parts of a MAIN plan into that slot (R194). -/
def tieFails (f : ImageFile) (d : DirEnt) : List LoadFail :=
  let g := classImage f d.cls
  let us := (poolUses g d.cls).filter (fun u => tied u.2.2.2.2 && u.2.2.2.2.useIdx == 0)
  if d.typ == 3 then
    (dirStream f d).flatMap (fun w =>
      let reads := bucketReads w.2 ++ (if wOpcode w.2 != 0x40 then [] else match imgRedPlan g (getBits (wX w.2) 0 12) with
        | some r => r.parts.map (fun q => (bvBits q 64 57, 256, wIssue w.2))
        | none => [])
      reads.flatMap (fun x => (us.filter (fun u => meet u.1 u.2.1 x.1 x.2.1)).flatMap (fun u =>
        failIf (!f.redPlans.any (fun r => bvBits r.ent 16 8 == 0 && bvBits r.ent 127 1 == 0 &&
            meet (bvBits r.ent 64 57) 256 u.1 u.2.1 && r.parts.length == (tieUses g u.2.2.2.2).length) ||
          (stepImgs f).any (fun p => tieOpen f d.cls p.1 u.1 u.2.1 x.2.2))
          (dirFail d 0x20C (some w.1) (wIssue w.2)))))
  else if d.typ == 4 then
    (dirHub f d).flatMap (fun x => (schedWords x.1.words).flatMap (fun w =>
      failIf (hOp w.2 == 1 && (hGrans w.2).any (fun k =>
        let a := granAddr x.1.hub (hStack w.2) k.1
        us.any (fun u => meet u.1 u.2.1 a 256) && tieOpen f d.cls x.1.plan a 256 k.2)) (dirFail d 0x20C (some w.1) (hCycle w.2))))
  else []

/-! ### Reductions (R150, R157, R158, R160 to R164) -/

/-- The method of a reduction plan of the image, none where it has no such plan: 0 MAIN, 1 TREE, 2 CHAIN. -/
def redMethod (f : ImageFile) (id : Nat) : Option Nat := (imgRedPlan f id).map (fun p => bvBits p.ent 16 8)

/-- Does a CHAIN plan carry its value on to a tile of a class, from a given tile where one is given? -/
def chainPlanned (f : ImageFile) (cls tile : Nat) (src : Option Nat) : Bool := !(stepsTo f cls tile src).isEmpty

/-- The tile whose partial sum a CHAIN word reloads from HBM: that of the spill at its address (R148). -/
def spillSource (f : ImageFile) (cls : Nat) (w : Word256) : Option Nat :=
  if wOpcode w == 0x22 && getBits (wX w) 0 2 == 1 then
    (((classWords f cls).filter (fun v => wOpcode v.2 == 0x21 && getBits (wX v.2) 0 1 == 1 && wA v.2 == wA w &&
      decide (wIssue v.2 ≤ wIssue w))).getLast?).map (fun v => v.1)
  else none

/-- Are all part slots of a TREE plan complete on a cycle: a scheduled write or arrival into each, or a data fence over it, is, and
none that has begun is not (R158)? -/
def partsReady (f : ImageFile) (cls : Nat) (p : Nat × PlanImg) (r : RedPlanImg) (c : Nat) : Bool :=
  let len := if bvBits r.ent 127 1 == 1 then 65536 else 256
  r.parts.all (fun q =>
    let a := bvBits q 64 57
    let ws : List (Nat × Nat) := (classHub f cls p.1).flatMap (fun h => if hOp h.2 == 2 || hOp h.2 == 3 then
      ((hGrans h.2).filter (fun g => meet (granAddr h.1 (hStack h.2) g.1) 256 a len)).map (fun g =>
        (g.2, g.2 + if hOp h.2 == 2 then 256 else 496)) else [])
    let fs := (fencedRegions f p.2).filter (fun x => meet x.1 x.2.1 a len)
    (ws.any (fun w => decide (w.2 ≤ c)) || fs.any (fun x => decide (x.2.2 ≤ c))) &&
    !ws.any (fun w => decide (w.1 ≤ c) && decide (c < w.2)) && !fs.any (fun x => decide (c < x.2.2)))

/-- Reduction plans that entries name exist and have the method that the entry runs; tiles and modules of plans exist; values
go from tile to tile under CHAIN plans only; and a TREE starts with its part slots complete (R150, R157, R158). -/
def reductionFails (f : ImageFile) (d : DirEnt) : List LoadFail :=
  if d.typ == 3 then
    (dirStream f d).flatMap (fun w =>
      let id := getBits (wX w.2) 0 12
      failIf ((wOpcode w.2 == 0x40 && (redMethod f id != some 1 || (stepImgs f).any (fun p =>
            match imgRedPlan f id with | some r => !partsReady f d.cls p r (wIssue w.2) | none => true))) ||
          (wOpcode w.2 == 0x41 && !(redMethod f id == some 0 || redMethod f id == some 1)) ||
          (movesChain w.2 && !chainPlanned f d.cls d.index ((chainSource w.2).map (fun x => x.1))) ||
          (match spillSource f d.cls w.2 with | some s => s != d.index && !chainPlanned f d.cls d.index (some s) | none => false))
        (dirFail d 0x401 (some w.1) (wIssue w.2)))
  else if d.typ == 4 then
    (dirHub f d).flatMap (fun x => (schedWords x.1.words).flatMap (fun w =>
      failIf (hOp w.2 == 3 && redMethod f (hPlan w.2) != some 0) (dirFail d 0x401 (some w.1) 0)))
  else if d.typ == 10 then
    (indexed f.redPlans 0).flatMap (fun x =>
      failIf (x.2.parts.any (fun q => decide (f.modules.length ≤ bvBits q 0 32)) ||
        (bvBits x.2.ent 127 1 == 1 && decide (f.modules.length ≤ bvBits x.2.ent 96 16))) (dirFail d 0x401 (some (32 * x.1)) 0))
  else []

/-- Does the reduction that a transfer takes from a tile begin as its part of the plan must: part 0 with ADD = 0, a later part, or
part 0 of a BP32 plan in a later pass, with CHAIN = 1 (R160, R163)? -/
def partBegins (f : ImageFile) (cls tile src acc c : Nat) : Bool :=
  match sumStart (tileWords f cls src) acc c with
  | none => true
  | some g =>
    let steps := stepsTo f cls tile (some src)
    if steps.all (fun q => q.2) then !wChain g || (wFmt g == 5 && wPass g != 0) || steps.isEmpty
    else if steps.all (fun q => !q.2) then wChain g
    else true

/-- R160 and R162: a transfer leaves a tile on which nothing is still to land, and takes a part that began as its plan says. -/
def chainFails (f : ImageFile) (d : DirEnt) : List LoadFail :=
  if d.typ == 3 then
    let cl := classWords f d.cls
    (dirStream f d).flatMap (fun w => match chainSource w.2 with
      | none => failIf (match spillSource f d.cls w.2 with
          | some s => cl.any (fun v => v.1 == s && wOpcode v.2 == 0x21 && wA v.2 == wA w.2 && decide (wIssue v.2 ≤ wIssue w.2) &&
              decide (wIssue w.2 < wIssue v.2 + 16 + wY v.2))
          | none => false) (dirFail d 0x402 (some w.1) (wIssue w.2))
      | some src => failIf (cl.any (fun v => v.1 == src.1 && wAcc v.2 == src.2 && decide (wIssue v.2 ≤ wIssue w.2) &&
          (isPodWord v.2 && decide (wIssue w.2 < podUsable (isStream v.2) v.2 (wIssue v.2)) ||
            wOpcode v.2 == 0x22 && decide (wIssue w.2 < wIssue v.2 + chainLat (v.1 / 10) v.2))) ||
          !partBegins f d.cls d.index src.1 src.2 (wIssue w.2))
          (dirFail d 0x402 (some w.1) (wIssue w.2)))
  else []

/-! ### Regions (R325, R326, R418) -/

/-- Does a granule lie in the control region? -/
def inControl (hub stack g : Nat) : Bool :=
  hub == 0 && stack == 0 && decide (0xBC0000000 ≤ 256 * g) && decide (256 * g < 0xC00000000)

/-- Slot and fence buffers, plan targets and part slots, and scheduled writes. -/
def State.regionFails (s : State) (f : ImageFile) (d : DirEnt) : List LoadFail :=
  if d.typ == 1 then
    failIf ((slotRegions f).any (fun r => !s.regionOk r.1 r.2) ||
      f.plans.any (fun p => match p with
        | some p => (fencedRegions f p).any (fun x => !s.regionOk x.1 x.2.1) || p.dfences.any (fun x => !s.regionOk (dfBuffer x) 1)
        | none => false)) (dirFail d 0x301 none 0)
  else if d.typ == 3 then
    (dirStream f d).flatMap (fun w =>
      failIf ([0x30, 0x31, 0x41].contains (wOpcode w.2) && decide (98304 ≤ wB w.2) && inControlRegion (wB w.2)
        (if wOpcode w.2 == 0x30 then 64 * (wY w.2 + 1) * fmtBytes (wFmt w.2) else if wOpcode w.2 == 0x31 then wY w.2 + 1 else 4))
        (dirFail d 0x301 (some w.1) 0))
  else if d.typ == 4 then
    (dirHub f d).flatMap (fun x => (schedWords x.1.words).flatMap (fun w =>
      failIf ((hOp w.2 == 2 || hOp w.2 == 3) && (hGrans w.2).any (fun g => inControl x.1.hub (hStack w.2) g.1 || decide (stackGranules ≤ g.1)))
        (dirFail d 0x301 (some w.1) (hCycle w.2))))
  else if d.typ == 10 then
    (indexed f.redPlans 0).flatMap (fun x =>
      failIf ((bvBits x.2.ent 127 1 == 0 && !s.regionOk (bvBits x.2.ent 64 57) 256) ||
        (bvBits x.2.ent 16 8 != 2 && x.2.parts.any (fun q => bvBits q 64 64 != 0 &&
          !s.regionOk (bvBits q 64 57) (if bvBits x.2.ent 127 1 == 1 then 65536 else 256)))) (dirFail d 0x301 (some (32 * x.1)) 0))
  else []

/-- Slot buffers and plan targets outside HDM. -/
def State.hdmFails (s : State) (f : ImageFile) (d : DirEnt) : List LoadFail :=
  if d.typ == 1 then failIf ((slotRegions f).any (fun r => s.inHdm r.1 r.2)) (dirFail d 0x305 none 0)
  else if d.typ == 10 then
    (indexed f.redPlans 0).flatMap (fun x =>
      failIf (bvBits x.2.ent 127 1 == 0 && s.inHdm (bvBits x.2.ent 64 57) 256) (dirFail d 0x305 (some (32 * x.1)) 0))
  else []

/-! ### Hub schedules (R232, R333) -/

/-- Pseudo-channels that solver lanes of a class's schedules for a plan have to themselves in a window, of the stacks given: each
counts once, and none that another window takes as well. -/
def lanePch (f : ImageFile) (cls plan win : Nat) (onStack : Nat → Bool) : Nat :=
  let covers (h : Nat × Word256) (k i : Nat) : Bool := 4 * h.1 + hStack h.2 == k && getBits (hPch h.2) i 1 == 1 &&
    decide (hCycle h.2 / 128 ≤ win) && decide (win < hCycle h.2 / 128 + hCount h.2)
  let hs := classHub f cls plan
  (range' 0 16).foldl (fun n k => if !onStack k then n else n + ((range' 0 64).filter (fun i =>
    hs.any (fun h => hOp h.2 == 7 && covers h k i) &&
    !hs.any (fun h => 4 ≤ hOp h.2 && hOp h.2 ≤ 6 && covers h k i))).length) 0

/-- The stacks in which a job's block and its result lie. -/
def jobStacks (f : ImageFile) (e : BitVec 1024) : List Nat :=
  ((f.stateMap.filter (fun t => t.tensor == slvTensor e)).flatMap (fun t => (tensorRegions f t).map (fun r => r.1 / 2 ^ 36))).dedup

/-- The windows of a job, from its start to the completion of its descriptor write. -/
def jobWindows (f : ImageFile) (e : BitVec 1024) : List Nat :=
  range' (slvStart e / 128) (slvEndCyc f e / 128 + 1 - slvStart e / 128)

/-- Does a solver lane serve a job in a window, beside every other job of the round at work then (R232)? DEDUCED: a cracker's 128 B
of read and of write per scyc are 192 B a cyc, and of a pseudo-channel's 16 B a cyc the retry slot of each window is not free
(R329), which leaves 14; a job's own lane lies on the stacks that hold its block and its result. -/
def laneServes (f : ImageFile) (cls plan : Nat) (round : List (BitVec 1024)) (e : BitVec 1024) (win : Nat) : Bool :=
  let busy := round.filter (fun j => (jobWindows f j).contains win)
  decide (192 * (busy.map slvGang).foldl (· + ·) 0 ≤ 14 * lanePch f cls plan win (fun _ => true)) &&
  decide (192 * slvGang e ≤ 14 * lanePch f cls plan win (fun k => (jobStacks f e).contains k))

def hubSpanFails (f : ImageFile) (d : DirEnt) : List LoadFail :=
  if d.typ == 4 then
    (dirHub f d).flatMap (fun x => match x.2 with
      | none => [dirFail d 0x302 (some 0) 0]
      | some p => (schedWords x.1.words).flatMap (fun w =>
          let done := if hOp w.2 == 1 then 484 else if hOp w.2 == 2 then 256 else 496
          failIf ((hCommands w.2).any (fun k => decide (planPeriod p < (k.2.2 / 8 + 2) * 128)) ||
            (decide (hOp w.2 ≤ 3) && (decide (planNfence p ≤ hFence w.2) ||
              (hGrans w.2).any (fun g => decide (planFenceAt p (hFence w.2) < g.2 + done)))))
            (dirFail d 0x302 (some w.1) (hCycle w.2))))
  else if d.typ == 6 then
    (f.solverJobs.filter (fun x => x.plan == d.index)).flatMap (fun x => x.rounds.flatMap (fun r =>
      (indexed r.jobs 0).flatMap (fun j => failIf ((range' 0 (imgClasses f)).any (fun c =>
        !((jobWindows f j.2).all (fun w => laneServes f c x.plan r.jobs j.2 w))))
        (dirFail d 0x302 (some (r.off + 128 * j.1)) (slvStart j.2)))))
  else []

/-! ### Link schedules (R371, R382, R383) -/

/-- The outgoing frames of a class's schedules for a plan, by entry kinds. -/
def classFrames (f : ImageFile) (cls plan : Nat) (kinds : List Nat) : List (Nat × Nat × Nat) :=
  (f.linkScheds.filter (fun c => c.cls == cls && c.plan == plan)).flatMap (fun c =>
    ((schedWords c.words).filter (fun w => kinds.contains (kOp w.2))).flatMap (fun w => kFrames (imgWindow f) c.die w.2))

/-- Is a frame delivered at module `m` on a link in a slot, by a SEND or FORWARD of the module at its far end? Nothing is delivered
on a link that the wiring does not name. -/
def delivered (f : ImageFile) (m plan link win slot : Nat) : Bool :=
  match linkPeer f m link with
  | none => false
  | some (c, l) => decide (hopWindows f ≤ win) &&
      (classFrames f (modClass (imgModule f c)) plan [1, 2]).contains (l, win - hopWindows f, slot)

/-- May a link of a module be a cascade link: one that the wiring leaves free, at the root of a sub-orchard's tree (R389)? -/
def cascadeMay (f : ImageFile) (m l : Nat) : Bool :=
  decide (1 < mapSubs f) && (linkPeer f m l).isNone && (treeParent f m).isNone

/-- Does the wiring join a link of a module to another module of the orchard (R384, R385, R390)? -/
def linkWired (f : ImageFile) (m l : Nat) : Bool :=
  (linkPeer f m l).isSome || cascadeMay f m l ||
    (12 ≤ l && f.layouts.any (fun y => (range' 0 5).any (fun a => bvBits y (256 + 16 * a + l) 1 == 1)))

/-- Is the `k`-th frame of a SEND, in its slot on a cycle, fed in time: of the hub reads that bring granules to its fabric port, as
many as the frames that have left from there are delivered (R334, R383)? A port to which no hub read leads is fed by a tile. -/
def sendFed (f : ImageFile) (cls plan : Nat) (ws : List (Nat × Word256)) (w : Word256) (c : Nat) : Bool :=
  let reads := (classHub f cls plan).filter (fun h => hOp h.2 == 1 && hPort h.2 == kPort w)
  let sent := (ws.filter (fun y => kOp y.2 == 1 && kPort y.2 == kPort w)).flatMap (fun y =>
    (range' 0 (kCount y.2)).map (fun k => kCycle y.2 + k * kStride y.2 * imgWindow f))
  reads.isEmpty || decide ((sent.filter (fun x => decide (x ≤ c))).length ≤
    ((reads.flatMap (fun h => hGrans h.2)).filter (fun g => decide (g.2 + 484 ≤ c))).length)

/-- The layout switches of a plan: the cycles on which they begin. -/
def planSwitches (p : PlanImg) : List Nat :=
  let l := planFences p
  (l.zip (l.drop 1)).filterMap (fun x => if fenceLayout x.1 != fenceLayout x.2 then some (fenceOff x.1) else none)

def linkSpanFails (f : ImageFile) (d : DirEnt) : List LoadFail :=
  if d.typ == 5 then
    let win := imgWindow f
    (dirLink f d).flatMap (fun x => match x.2 with
      | none => [dirFail d 0x303 (some 0) 0]
      | some p =>
        let ws := schedWords x.1.words
        let out := [1, 2, 3, 4, 5]
        ws.flatMap (fun w =>
          let fr := kFrames win x.1.die w.2
          let before := (ws.filter (fun y => decide (y.1 < w.1) && (kOp y.2 == 6) == (kOp w.2 == 6))).flatMap (fun y => kFrames win x.1.die y.2)
          let last := kCycle w.2 + (kCount w.2 - 1) * kStride w.2 * win
          let ms := classModules f x.1.cls
          failIf (kCycle w.2 % win != slotStart win (kSlot w.2) || dupl fr || fr.any before.contains ||
            (kOp w.2 == 1 && (range' 0 (kCount w.2)).any (fun k =>
              !sendFed f x.1.cls x.1.plan ws w.2 (kCycle w.2 + k * kStride w.2 * win))) ||
            (out.contains (kOp w.2) && ms.any (fun m => !linkWired f m (4 * x.1.die + kLink w.2))) ||
            ((kOp w.2 == 3 || kOp w.2 == 4) && decide (1 < (treeSlots f).length)) ||
            (kOp w.2 == 2 && ms.any (fun m => !fr.all (fun k => delivered f m x.1.plan (kInLink w.2) k.2.1 k.2.2))) ||
            (kOp w.2 == 6 && ms.any (fun m => !fr.all (fun k => delivered f m x.1.plan k.1 k.2.1 k.2.2))) ||
            ((kOp w.2 == 3 || kOp w.2 == 4) && ms.any (fun m =>
              !(modParentLink (imgModule f m) == 4 * x.1.die + kLink w.2 || childLink f m (4 * x.1.die + kLink w.2) ||
                cascadeMay f m (4 * x.1.die + kLink w.2)))) ||
            (out.contains (kOp w.2) && kOp w.2 != 5 && (decide (planNfence p ≤ kFence w.2) ||
              decide (planFenceAt p (kFence w.2) < last + imgHop f) || decide (planPeriod p ≤ last + imgHop f))) ||
            (kOp w.2 == 6 && (decide (planNfence p ≤ kFence w.2) || decide (planFenceAt p (kFence w.2) < last) ||
              decide (planPeriod p ≤ last))) ||
            (kOp w.2 == 5 && decide (planPeriod p < (kCycle w.2 / win + kCount w.2) * win)) ||
            ((kOp w.2 == 1 || kOp w.2 == 2) && fr.any (fun k => (planSwitches p).any (fun a =>
              let c := k.2.1 * win + slotStart win k.2.2
              decide (c < a + 4096) && decide (a < c + imgHop f)))))
            (dirFail d 0x303 (some w.1) (kCycle w.2))))
  else []

/-! ### The state map and its rules (R176, R206, R208, R210, R216, R219, R220, R272, R274, R403) -/

/-- Has a weight an entry of a role? -/
def hasRole (f : ImageFile) (t : TensorEnt) (role : Nat) : Bool := (imgChild f t.tensor role).isSome

/-- The roles of the statistics that a rule keeps (R206, R270). -/
def ruleStats (rule : Nat) : List Nat := if rule == 0 then [2, 3] else if rule == 1 then [2, 3, 4, 5] else if rule == 2 then [6, 7] else []

/-- R206; a shared A stands under its first matrix (R220), and of a tied tensor only use 0 keeps statistics (R219). -/
def statsOk (f : ImageFile) (t : TensorEnt) : Bool :=
  let want := if tied t && t.useIdx != 0 then []
    else match f.ruleSets[t.ruleSet]? with | some r => ruleStats r.rule | none => []
  [2, 3, 4, 5, 6, 7].all (fun r => hasRole f t r == want.contains r)

def statFails (f : ImageFile) (d : DirEnt) : List LoadFail :=
  if d.typ == 7 then
    (indexed f.stateMap 0).flatMap (fun x =>
      failIf ((x.2.role == 0 && !statsOk f x.2) || (x.2.role != 0 && x.2.role != 8 && (imgWeight f x.2.parent).isNone) ||
        (x.2.role == 8 && (statOf f x.2.tensor).isNone)) (dirFail d 0x501 (some (128 * x.1)) 0))
  else []

/-- R216: r and c of a matrix without a live column, while a row of it trains. A row that trains is live. -/
def decayFails (f : ImageFile) (d : DirEnt) : List LoadFail :=
  if d.typ == 7 then
    (indexed f.stateMap 0).flatMap (fun x =>
      failIf ((x.2.role == 2 || x.2.role == 3) && (match imgWeight f x.2.parent with
        | some p => nLive p == 0 && mLive p != 0
        | none => false)) (dirFail d 0x502 (some (128 * x.1)) 0))
  else []

/-- Does a range of rows lie in one shard of a matrix, from a left-block boundary to another: whole blocks of `b` rows below the
shard's start, or its end (R209, R210)? DEDUCED: what one entry holds of a statistic are blocks of one shard. -/
def leftRange (f : ImageFile) (id b row0 row1 : Nat) : Bool :=
  f.stateMap.any (fun t => t.tensor == id && t.role == 0 && decide (t.row0 ≤ row0) && decide (row1 ≤ t.row1) &&
    (row0 - t.row0) % b == 0 && (row1 == t.row1 || (row1 - t.row0) % b == 0))

/-- Is a column a bucket boundary of a matrix with bucket width `b` (R208)? -/
def bucketEdge (f : ImageFile) (id b col : Nat) : Bool :=
  f.stateMap.any (fun t => t.tensor == id && t.role == 0 && decide (t.col0 ≤ col) && decide (col ≤ t.col1) && (col - t.col0) % b == 0)

/-- Has an entry of a KRON or KFAC matrix another block size than the bucket width (R176, R208, R220), a row range that a
left-block boundary does not begin and end (R210), or right blocks that are not the buckets (R208)? An entry of another shape than
its matrix's has no rows of it. -/
def blockBad (f : ImageFile) (t p : TensorEnt) : Bool :=
  let b := 2 ^ p.wb
  match f.ruleSets[p.ruleSet]? with
  | some r => (r.rule == 1 || r.rule == 2) &&
      ((decide (4 ≤ t.role) && decide (t.role ≤ 7) && t.block != p.wb) ||
        ([0, 1, 2, 4, 7].contains t.role && !leftRange f p.tensor b t.row0 t.row1) ||
        ((t.role == 5 || t.role == 6) && !(bucketEdge f p.tensor b t.col0 && bucketEdge f p.tensor b t.col1)))
  | none => false

/-- The matrices that an entry serves. -/
def servedBy (t : TensorEnt) : List Nat := t.parent :: t.serves

def blockFails (f : ImageFile) (d : DirEnt) : List LoadFail :=
  if d.typ == 7 then
    (indexed f.stateMap 0).flatMap (fun x =>
      failIf (x.2.role ≤ 7 && (servedBy x.2).any (fun id => match imgWeight f id with | some p => blockBad f x.2 p | none => false))
        (dirFail d 0x503 (some (128 * x.1)) 0))
  else []

/-- A weight's rule set exists, and its momentum is as the rule set says. -/
def ruleSpanFails (f : ImageFile) (d : DirEnt) : List LoadFail :=
  if d.typ == 7 then
    (indexed f.stateMap 0).flatMap (fun x =>
      failIf (x.2.role == 0 && (match f.ruleSets[x.2.ruleSet]? with
        | none => true
        | some r => match imgChild f x.2.tensor 1 with
          | none => r.mfmt != 0
          | some m => r.mfmt == 0 || m.fmt != (if r.mfmt == 1 then 1 else 0))) (dirFail d 0x504 (some (128 * x.1)) 0))
  else []

def lrSpanFails (f : ImageFile) (d : DirEnt) : List LoadFail :=
  if d.typ == 8 then f.ruleSets.flatMap (fun r => failIf (f.lrScheds.length ≤ r.sched) (dirFail d 0x505 none 0)) else []

/-- Owners are modules of the orchard; that none is a lender is the state map's own check (R362). -/
def gatherFails (f : ImageFile) (d : DirEnt) : List LoadFail :=
  if d.typ == 7 then
    (indexed f.stateMap 0).flatMap (fun x =>
      failIf (x.2.owners.any (fun m => decide (imgOrchard f ≤ m))) (dirFail d 0x506 (some (128 * x.1)) 0))
  else []

/-! ### Solver jobs across rounds and plans (R226, R227, R233, R240, R260, R282) -/

/-- Every job of the image. -/
def allJobs (f : ImageFile) : List (BitVec 1024) := f.solverJobs.flatMap (fun j => j.rounds.flatMap (fun r => r.jobs))

def roundFails (f : ImageFile) (d : DirEnt) : List LoadFail :=
  if d.typ == 6 then
    let own := f.solverJobs.filter (fun x => x.plan == d.index)
    failIf (own.any (fun x => f.solverJobs.any (fun y => y.rounds.length != x.rounds.length))) (dirFail d 0x601 (some 0) 0) ++
    (dirJobs f d).flatMap (fun j => failIf (
      !f.stateMap.any (fun t => t.tensor == slvTensor j.2.2 && decide (4 ≤ t.role) && decide (t.role ≤ 7) &&
        decide (firstBlock f t ≤ slvBlock j.2.2) && decide (slvBlock j.2.2 < firstBlock f t + factorBlocks t) &&
        blockDim t (slvBlock j.2.2 - firstBlock f t) == slvN j.2.2) ||
      (allJobs f).any (fun k => slvTensor k == slvTensor j.2.2 && slvBlock k == slvBlock j.2.2 && slvUhash k != slvUhash j.2.2))
      (dirFail d 0x601 (some j.2.1) 0))
  else if d.typ == 7 then
    (indexed f.stateMap 0).flatMap (fun x =>
      failIf (decide (4 ≤ x.2.role) && decide (x.2.role ≤ 7) && !(range' (firstBlock f x.2) (factorBlocks x.2)).all (fun b =>
        (allJobs f).any (fun k => slvTensor k == x.2.tensor && slvBlock k == b))) (dirFail d 0x601 (some (128 * x.1)) 0))
  else []

/-- The warm or INV_CHOL budget (R256). -/
def warmBudget (e : BitVec 1024) : Nat :=
  let n := slvN e
  let g := slvGang e
  if slvKind e == 2 then 3 * opConv n g + opShift n + opChol n g + opTrinv n g + opLtl n g + opPub n g
  else 3 * opConv n g + opShift n + (if slvProbe e then opChol n g else 0) + opWload n g +
    (if slvKind e == 0 then (slvLogP e + 1) * opProd n g else 0) + slvIWarm e * opIter (slvKind e) (slvLogP e) n g + opPub n g

/-- Two jobs' windows on one die overlap, at some phase (R231). -/
def jobsMeet (f : ImageFile) (a b : BitVec 1024) : Bool :=
  slvDie a == slvDie b && (edgePhases f).any (fun r =>
    decide (scycOf r (slvStart a) < slvLatest r b) && decide (scycOf r (slvStart b) < slvLatest r a))

/-- The gangs share a cracker. -/
def gangsMeet (a b : BitVec 1024) : Bool :=
  slvDie a == slvDie b && decide (slvC0 a < slvC0 b + slvGang b) && decide (slvC0 b < slvC0 a + slvGang a)

/-- Each job of a directory entry's rounds: its plan, its byte offset, the jobs before it in its round, and itself. -/
def dirJobsBefore (f : ImageFile) (d : DirEnt) : List (Nat × Nat × List (BitVec 1024) × BitVec 1024) :=
  (f.solverJobs.filter (fun x => x.plan == d.index)).flatMap (fun x => x.rounds.flatMap (fun r =>
    (indexed r.jobs 0).map (fun j => (x.plan, r.off + 128 * j.1, r.jobs.take j.1, j.2))))

/-- Extents of jobs whose windows overlap (R231). -/
def extentFails (f : ImageFile) (d : DirEnt) : List LoadFail :=
  if d.typ == 6 then
    (dirJobsBefore f d).flatMap (fun j => failIf (j.2.2.1.any (fun b => jobsMeet f b j.2.2.2 &&
      meet (slvSramBase b) (slvSramLen b) (slvSramBase j.2.2.2) (slvSramLen j.2.2.2))) (dirFail d 0x602 (some j.2.1) (slvStart j.2.2.2)))
  else []

/-- R233 and R240. -/
def windowFails (f : ImageFile) (d : DirEnt) : List LoadFail :=
  if d.typ == 6 then
    (dirJobsBefore f d).flatMap (fun j => failIf ((match imgPlan f j.1 with
      | some p => decide (planFenceOf p 3 < slvEndCyc f j.2.2.2)
      | none => true) || j.2.2.1.any (fun b => gangsMeet b j.2.2.2 && jobsMeet f b j.2.2.2))
      (dirFail d 0x603 (some j.2.1) (slvDeadline j.2.2.2)))
  else []

/-- R256. -/
def budgetFails (f : ImageFile) (d : DirEnt) : List LoadFail :=
  if d.typ == 6 then
    (dirJobs f d).flatMap (fun j => let e := j.2.2; failIf ((edgePhases f).any (fun r =>
      decide (scycOf r (slvDeadline e) < scycOf r (slvStart e) + warmBudget e) ||
      (slvCold e && slvKind e != 2 && decide (scycOf r (slvDeadline e) < scycOf r (slvStart e) + coldBudget e))))
      (dirFail d 0x604 (some j.2.1) (slvDeadline e)))
  else []

/-- R260: a sweep that has anything to write completes before HEALTH. -/
def sweepFails (f : ImageFile) (d : DirEnt) : List LoadFail :=
  if d.typ == 6 then
    match imgPlan f d.index with
    | none => []
    | some p => (f.solverJobs.filter (fun x => x.plan == d.index)).flatMap (fun x => (indexed x.rounds 0).flatMap (fun r =>
        (range' 0 4).flatMap (fun die =>
          let k := sweepMost f r.2 die
          let c := r.2.sweeps.getD die 0
          failIf (k != 0 && decide (planFenceOf p 3 ≤ sweepEndCyc f c k)) (dirFail d 0x605 (some (16 + 48 * r.1)) c))))
  else []

/-! ### The loader (R484 to R487) -/

/-- The spanning checks, in increasing code. -/
def State.spanChecks (s : State) (f : ImageFile) : List (DirEnt → List LoadFail) :=
  [s.footprintFails f, planSetFails f, periodFails f, slackFails f, overrunFails f, dataFenceFails f, podFieldFails f,
   passFails f, statFmtFails f, liveFails f, tokenFails f, maskFails f, veFieldFails f, poolFails f, tieFails f, s.regionFails f, hubSpanFails f,
   linkSpanFails f, s.hdmFails f, reductionFails f, chainFails f, statFails f, decayFails f, blockFails f,
   ruleSpanFails f, lrSpanFails f, gatherFails f, roundFails f, extentFails f,
   windowFails f, budgetFails f, sweepFails f]

/-- The first failure of an image, none when it is accepted (R484). -/
def State.imageFail (s : State) (f : ImageFile) (length : Nat) : Option LoadFail :=
  ((s.headFails f length).head?.orElse (fun _ => (f.dir.flatMap (fun d => s.ownFails f d)).head?)).orElse (fun _ =>
    ((s.spanChecks f).flatMap (fun c => f.dir.flatMap c)).head?)

/-- Record a refusal; an offset that the decoded image does not carry is a free value (R487). -/
def State.loadRecord (s : State) (c : Nat) (f : ImageFile) (e : LoadFail) : State :=
  if s.fbit HULL_LOAD_FIRST_VALID || s.fbit HULL_LOAD_WHERE_VALID then s
  else
    let off := e.offset.getD s.freeVal
    let s := if e.offset.isNone then s.drawn else s
    let common := f.dir.any (fun d => d.typ == e.typ && d.cls == e.cls && d.index == e.index && d.common)
    s.fsetAll [(HULL_LOAD_FIRST_CODE, e.code), (HULL_LOAD_FIRST_TYPE, e.typ), (HULL_LOAD_FIRST_INDEX, e.index),
      (HULL_LOAD_FIRST_COMMON, common.toNat), (HULL_LOAD_FIRST_CLASS, e.cls), (HULL_LOAD_FIRST_CTX, c),
      (HULL_LOAD_FIRST_VALID, 1), (HULL_LOAD_WHERE_OFFSET, off), (HULL_LOAD_WHERE_CYCLE, e.cycle / 2 ^ 17),
      (HULL_LOAD_WHERE_VALID, 1)]

/-- Refuse an image: nothing of it is kept (R486). -/
def State.loadRefuse (s : State) (c tag : Nat) (f : ImageFile) (e : LoadFail) : State :=
  let s := (s.setCtx c (fun x => { x with loading := false })).loadRecord c f e
  (s.setSts 0 HULL_LOAD_STS_REFUSED).commandDone c tag 1 9 (e.code + e.typ * 65536)

/-- Accept an image (R486): the context is LOADED and keeps the image. -/
def State.loadAccept (s : State) (c tag : Nat) (f : ImageFile) : State :=
  let s := s.setCtx c (fun _ => { state := .loaded, image := some f })
  let s := { s with router := { s.router with rwlOpen := false } }
  let s := s.fset (HULL_CTX_TRAIL.ix c) (f.stateMap.any (fun t => t.gather == 2)).toNat
  (s.setSts 0 HULL_LOAD_STS_LOADED).commandDone c tag 1 0 0

end Sys2Proof.Machine
end

