-- ==== Sys2Proof/Machine/Streams.lean ====
section
/-! DEFINITION. The meanings of the words of a tile's stream (R113 to R115, R130, R483): what is due by a word's ISSUE comes
about, then the word runs. A word runs as the command that its OPCODE names; under any other it names no instruction. -/

namespace Sys2Proof.Machine

/-- Does tile `n` run word `w` as the instruction with opcode `op`? -/
def State.runsWord (s : State) (n : Nat) (w : Word256) (op : Nat) : Bool := s.streamRuns n && wOpcode w == op

/-- The state on a word's ISSUE cycle, with everything due by then come about. -/
def State.atIssue (s : State) (w : Word256) : State := s.upTo (s.issueAbs w)

/-- The opcodes of R483. -/
def opcodes : List Nat :=
  [0x00, 0x10, 0x11, 0x20, 0x21, 0x22, 0x30, 0x31, 0x40, 0x41, 0x42, 0x43, 0x50, 0x51, 0x52, 0x60]

/-- MM_STREAM on tile `tile` (R120). Tile streams run only in a job's ticks. -/
def execMmStream (tile : Nat) (w : Word256) (s : State) : Host.Outcome State Fault Refusal :=
  .next (if s.runsWord tile w 0x10 then (s.atIssue w).podRun true tile w (s.issueAbs w) none else s)

/-- MM_INCELL on tile `tile` (R124). -/
def execMmIncell (tile : Nat) (w : Word256) (s : State) : Host.Outcome State Fault Refusal :=
  .next (if s.runsWord tile w 0x11 then (s.atIssue w).podRun false tile w (s.issueAbs w) none else s)

/-- LOAD. -/
def execLoad (tile : Nat) (w : Word256) (s : State) : Host.Outcome State Fault Refusal :=
  .next (if s.runsWord tile w 0x20 then (s.atIssue w).veLoad tile w (s.issueAbs w) none else s)

/-- READOUT. -/
def execReadout (tile : Nat) (w : Word256) (s : State) : Host.Outcome State Fault Refusal :=
  .next (if s.runsWord tile w 0x21 then (s.atIssue w).veReadout tile w (s.issueAbs w) none else s)

/-- CHAIN. -/
def execChain (tile : Nat) (w : Word256) (arrival : List Word32) (s : State) : Host.Outcome State Fault Refusal :=
  .next (if s.runsWord tile w 0x22 then (s.atIssue w).veChain tile w (s.issueAbs w) arrival none else s)

/-- CONVERT. -/
def execConvert (tile : Nat) (w : Word256) (loc : VeLoc) (scales : Nat) (iota : Word32) (s : State) :
    Host.Outcome State Fault Refusal :=
  .next (if s.runsWord tile w 0x30 then (s.atIssue w).veConvert tile w (s.issueAbs w) loc scales iota none else s)

/-- SCALE. -/
def execScale (tile : Nat) (w : Word256) (loc : VeLoc) (s : State) : Host.Outcome State Fault Refusal :=
  .next (if s.runsWord tile w 0x31 then (s.atIssue w).veScale tile w (s.issueAbs w) loc none else s)

/-- TREE. -/
def execTree (tile : Nat) (w : Word256) (elems : Nat) (s : State) : Host.Outcome State Fault Refusal :=
  .next (if s.runsWord tile w 0x40 then (s.atIssue w).veTree tile w (s.issueAbs w) elems none else s)

/-- SUMSQ. -/
def execSumsq (tile : Nat) (w : Word256) (loc : VeLoc) (bucket : Bool) (s : State) :
    Host.Outcome State Fault Refusal :=
  .next (if s.runsWord tile w 0x41 then (s.atIssue w).veSumsq tile w (s.issueAbs w) loc bucket none else s)

/-- LOOKUP_ADD. -/
def execLookupAdd (tile : Nat) (w : Word256) (dest : Nat) (s : State) : Host.Outcome State Fault Refusal :=
  .next (if s.runsWord tile w 0x42 then (s.atIssue w).veLookup tile w (s.issueAbs w) dest none else s)

/-- ROWCOL. -/
def execRowcol (tile : Nat) (w : Word256) (rDst cDst : Nat) (s : State) : Host.Outcome State Fault Refusal :=
  .next (if s.runsWord tile w 0x43 then (s.atIssue w).veRowcol tile w (s.issueAbs w) rDst cDst none else s)

/-- UPDATE. -/
def execUpdate (tile : Nat) (w : Word256) (aux : List UpdAux) (s : State) : Host.Outcome State Fault Refusal :=
  .next (if s.runsWord tile w 0x50 then (s.atIssue w).veUpdate tile w (s.issueAbs w) aux none else s)

/-- COPY. -/
def execCopy (tile : Nat) (w : Word256) (s : State) : Host.Outcome State Fault Refusal :=
  .next (if s.runsWord tile w 0x51 then (s.atIssue w).veCopy tile w (s.issueAbs w) none else s)

/-- DECAY. -/
def execDecay (tile : Nat) (w : Word256) (s : State) : Host.Outcome State Fault Refusal :=
  .next (if s.runsWord tile w 0x52 then (s.atIssue w).veDecay tile w (s.issueAbs w) none else s)

/-- EWISE. -/
def execEwise (tile : Nat) (w : Word256) (loc : VeLoc) (s : State) : Host.Outcome State Fault Refusal :=
  .next (if s.runsWord tile w 0x60 then (s.atIssue w).veEwise tile w (s.issueAbs w) loc none else s)

/-- END. -/
def execEndStream (tile : Nat) (w : Word256) (s : State) : Host.Outcome State Fault Refusal :=
  .next (if s.runsWord tile w 0x00 then (s.atIssue w).veEnd tile w (s.issueAbs w) else s)

/-- UNDEFINED_OPCODE: a stream fault (R115). -/
def execUndefinedOpcode (tile : Nat) (w : Word256) (s : State) : Host.Outcome State Fault Refusal :=
  .next (if s.streamRuns tile && !opcodes.contains (wOpcode w) then
    ((s.atIssue w).issue tile w (s.issueAbs w)).streamFault tile w else s)

/-- The word that a late issue runs on cycle `c`, by its opcode (R114, R483), with the operands it has beside its bits; it
stops on cycle `lim`. -/
def State.runWord (s : State) (n : Nat) (w : Word256) (c : Nat) (lim : Option Nat) (a : VeArgs) : State :=
  match wOpcode w with
  | 0x00 => s.veEnd n w c
  | 0x10 => s.podRun true n w c lim
  | 0x11 => s.podRun false n w c lim
  | 0x20 => s.veLoad n w c lim
  | 0x21 => s.veReadout n w c lim
  | 0x22 => s.veChain n w c a.arrival lim
  | 0x30 => s.veConvert n w c a.loc a.scales a.iota lim
  | 0x31 => s.veScale n w c a.loc lim
  | 0x40 => s.veTree n w c a.elems lim
  | 0x41 => s.veSumsq n w c a.loc a.bucket lim
  | 0x42 => s.veLookup n w c a.dest lim
  | 0x43 => s.veRowcol n w c a.rDst a.cDst lim
  | 0x50 => s.veUpdate n w c a.aux lim
  | 0x51 => s.veCopy n w c lim
  | 0x52 => s.veDecay n w c lim
  | 0x60 => s.veEwise n w c a.loc lim
  | _ => (s.issue n w c).streamFault n w

/-- The cycle of a word's fence in the running plan, none where no plan runs. -/
def State.fenceCycle (s : State) (w : Word256) : Option Nat :=
  s.curPlan.map (fun p => s.edgeAt + fenceOff ((planFences p).getD (wFence w) 0))

/-- LATE_ISSUE: the refetched word issues when it arrives on cycle `cycle`; the delay, up to the cycle on which the next word of
its pod is due, counts as waiting cycles of its logical pod, class B (R114, R141). It stops on its fence's cycle (R39), a pod word on
the cycle on which the next word of its pod is due where that comes first: the one that the tile's stream holds, or
`late.nextDue` for a word that the stream does not hold. -/
def execLateIssue (tile : Nat) (w : Word256) (cycle : Nat) (late : LateWork) (s : State) :
    Host.Outcome State Fault Refusal :=
  .next (if s.streamRuns tile then
    let pod := wOpcode w == 0x10 || wOpcode w == 0x11
    let due := if pod then (s.podNext tile w).orElse (fun _ => late.nextDue) else none
    let lim := match s.fenceCycle w, due with
      | some f, some d => some (min d f)
      | some f, none => some f
      | none, d => d
    let s := s.upTo cycle
    let s := (s.fadd (TILE_SEQ_REFETCHES.tile tile) 1).classBSts (tilePage tile) (TILE_STS_LATE_ISSUE.tile tile)
    let s := if pod then s.phaseTime tile (wLpod w) (wPhase w) 2 (min cycle (due.getD cycle) - s.issueAbs w) else s
    s.runWord tile w cycle lim late.args
  else s)

end Sys2Proof.Machine
end

