-- ==== Sys2Proof/Machine/HostCmd.lean ====
section
/-! DEFINITION. Host commands: images, job start, ingest, exports, pre-emption and resume, job end, pins
(R198 to R201, R289, R293, R387, R416, R422 to R434, R443, R538, R558, R628). -/

namespace Sys2Proof.Machine

/-! ### Contexts -/

/-- Is a context in one of these states, with no LOAD_IMAGE in progress (R422, R425)? -/
def State.cmdAllowed (s : State) (c : Nat) (l : List CtxState) : Bool := !(s.ctx c).loading && l.contains (s.ctx c).state

/-- Does a context run, or a resume restore one (R422)? -/
def State.jobBusy (s : State) : Bool := s.ctxs.any (fun x => x.state == .running) || s.host.cmds.any (fun p => p.opcode == 7)

/-- Add a command whose completion is to come. -/
def State.pendCmd (s : State) (op c tag arg : Nat) : State :=
  s.withHost (fun h => { h with cmds := h.cmds ++ [⟨op, c, tag, arg⟩] })

/-- Queue a DMA descriptor. -/
def State.addDesc (s : State) (d : Desc) : State := s.withHost (fun h => { h with descs := h.descs ++ [d] })

/-- Drop the descriptors that `p` selects. -/
def State.dropDescs (s : State) (p : Desc → Bool) : State := s.withHost (fun h => { h with descs := h.descs.filter (fun d => !p d) })

/-- The micro-batches accepted for a context (R425, R434). -/
def State.ctxVerdicts (s : State) (c : Nat) : List (Nat × Nat × Nat × Bool) :=
  if s.job.ctx == some c then s.job.verdicts
  else match (s.ctx c).saved with | some v => v.job.verdicts | none => (s.ctx c).verdicts

/-- Change them. -/
def State.setVerdicts (s : State) (c : Nat) (g : List (Nat × Nat × Nat × Bool) → List (Nat × Nat × Nat × Bool)) : State :=
  if s.job.ctx == some c then s.withJob (fun j => { j with verdicts := g j.verdicts })
  else s.setCtx c (fun x => match x.saved with
    | some v => { x with saved := some { v with job := { v.job with verdicts := g v.job.verdicts } } }
    | none => { x with verdicts := g x.verdicts })

/-- The micro-batches refused for a context, each with its code (R201). -/
def State.ctxRefused (s : State) (c : Nat) : List (Nat × Nat × Nat) :=
  if s.job.ctx == some c then s.job.refused
  else match (s.ctx c).saved with | some v => v.job.refused | none => (s.ctx c).refused

/-- Keep one more. -/
def State.keepRefused (s : State) (c : Nat) (r : Nat × Nat × Nat) : State :=
  if s.job.ctx == some c then s.withJob (fun j => { j with refused := j.refused ++ [r] })
  else s.setCtx c (fun x => match x.saved with
    | some v => { x with saved := some { v with job := { v.job with refused := v.job.refused ++ [r] } } }
    | none => { x with refused := x.refused ++ [r] })

/-! ### LOAD_IMAGE, LOAD_IMAGE_DONE, UNLOAD_IMAGE -/

/-- LOAD_IMAGE is accepted for an EMPTY context, and its file is read through queue 2 of engine `c` (R446). -/
def State.loadImage (s : State) (c tag source length : Nat) : State :=
  if s.cmdAllowed c [.empty] then
    let s := (s.setCtx c (fun x => { x with loading := true })).pendCmd 1 c tag length
    s.addDesc { eng := c, q := 2, ctx := c, kind := .loadImage, src := source, dst := 0xBC0000000, length := length, tag := tag }
  else s.commandDone c tag 1 3 0

/-- LOAD_IMAGE. -/
def execLoadImage (at_ ctx tag source length : Nat) (s : State) : Host.Outcome State Fault Refusal :=
  .next (s.live (fun s => (s.upTo at_).loadImage (ctx % 4) tag source length))

/-- The file has been read and its verification ends. -/
def State.loadImageDone (s : State) (c : Nat) (f : ImageFile) : State :=
  match s.host.cmds.find? (fun p => p.opcode == 1 && p.ctx == c) with
  | none => s
  | some p =>
    let s := (s.withHost (fun h => { h with cmds := h.cmds.filter (fun x => x != p) })).dropDescs
      (fun d => d.ctx == c && d.kind == .loadImage)
    match s.imageFail f p.arg with
    | none => s.loadAccept c p.tag f
    | some e => s.loadRefuse c p.tag f e

/-- LOAD_IMAGE_DONE: `image` is the file that stands at the command's SOURCE. -/
def execLoadImageDone (at_ ctx : Nat) (image : ImageFile) (s : State) : Host.Outcome State Fault Refusal :=
  .next (s.live (fun s => (s.upTo at_).loadImageDone (ctx % 4) image))

/-- Pinned entries follow the ranges that the contexts pin; a ring's own pin stands (R442, R443). -/
def State.repin (s : State) : State :=
  s.withHost (fun h => { h with atc := h.atc.map (fun e =>
    if e.fn == 1 then
      { e with pins := (range' 0 4).filter (fun c => h.pins.any (fun p => p.ctx == c && meet p.addr p.len e.addr e.size)) ++
          e.pins.filter (fun c => c == 4) }
    else e) })

/-- Release every range that a context pins. -/
def State.unpinCtx (s : State) (c : Nat) : State := (s.withHost (fun h => { h with pins := h.pins.filter (fun p => p.ctx != c) })).repin

/-- UNLOAD_IMAGE returns a LOADED context to EMPTY. -/
def State.unloadImage (s : State) (c tag : Nat) : State :=
  if s.cmdAllowed c [.loaded] then
    let s := if s.host.exp.any (fun e => e.ctx == c) then s.abandonExport else s
    let s := (s.abandonDescs (fun d => d.ctx == c && d.eng < 12)).unpinCtx c
    ((s.setCtx c (fun _ => {})).fsetAll [(HULL_CTX_TRAIL.ix c, 0)]).commandDone c tag 2 0 0
  else s.commandDone c tag 2 3 0

/-- UNLOAD_IMAGE. -/
def execUnloadImage (at_ ctx tag : Nat) (s : State) : Host.Outcome State Fault Refusal :=
  .next (s.live (fun s => (s.upTo at_).unloadImage (ctx % 4) tag))

/-! ### Job start (R59 to R62, R297, R387, R406, R416, R430, R437, R438, R481, R538, R558) -/

/-- R538: DETAIL of a POWER refusal, 0 when the hold-up allows a job. -/
def State.powerDetail (s : State) : Nat := if !s.bankOk then 2 else if !s.fbit PWR_STATE_ARMED then 1 else 0

/-- The entries of a hub die's schedules for a class. -/
def hubEntries (f : ImageFile) (cls hub : Nat) : Nat :=
  ((f.hubScheds.filter (fun h => h.cls == cls && h.hub == hub)).map (fun h => (schedWords h.words).length)).foldl (· + ·) 0

/-- Lenders that the image maps into a module (R366). -/
def State.borrows (s : State) (f : ImageFile) : Nat :=
  (f.stateMap.filter (fun t => owns t (s.fget HULL_ORCH_MODULE) && t.tier == 2)).foldl (fun m t =>
    Nat.lor m (2 ^ (homeUnit t).2)) 0

/-- The slow-tier tensors of a module. -/
def State.slowTensors (s : State) (f : ImageFile) : List Resid :=
  (f.stateMap.filter (fun t => owns t (s.fget HULL_ORCH_MODULE) && t.tier != 0 && t.role != 8)).map (fun t => { tensor := t.tensor })

/-- The registers that the image's limits and schedules give at a job's start (R48, R299, R438, R366). -/
def State.jobRegs (s : State) (f : ImageFile) (c : Nat) : State :=
  let cls := s.ownClass f
  let s := (range' 0 4).foldl (fun s a => s.fsetAll [(TICK_STARVE_THRESHOLD.ix a, limThresh f a), (TICK_STARVE_QUANTUM.ix a, limQuantum f a)]) s
  let s := (range' 0 4).foldl (fun s h => s.fsetAll [(HUB_SCHED_LOADED.die h, 1), (HUB_SCHED_ENTRIES.die h, hubEntries f cls h)]) s
  s.fsetAll [(COMMIT_HOLD_POLICY, limPolicy f), (MMU_ROOT_ROOT.ix c, 0xBF0000000 + c * 0x2000000), (MMU_ROOT_LOADED.ix c, 1),
    (HULL_SLOW_LEND_BORROWING, s.borrows f)]

/-- The context runs: its first tick opens on the edge that the tick distribution gives, with every substitution that waits for
an edge (R21). DESIGN CHOICE (R26 counts common edges from the first tick edge of the job and does not say what a resume does):
they count anew from the first tick edge after a resume. -/
def State.runFrom (s : State) (f : ImageFile) (c edge count plan : Nat) : State :=
  let s := (s.jobRegs f c).setCtx c (fun x => { x with state := .running, saved := none })
  let s := s.upTo (max edge s.now)
  let s := s.withJob (fun j => { j with firstEdge := s.now })
  (s.mirror.edgeSwaps.lagShow f).openTick f s.now count plan true

/-- The seed in force: the master's (R103). -/
def State.seedFor (s : State) (f : ImageFile) (own : Nat) (join : JobJoin) : Nat :=
  if s.fget HULL_ORCH_MODULE == imgMaster f then own else join.seed

/-- The bytes that LOAD_SRC names: an export in memory, or a generation of the cartridge (R430, R558). -/
def State.loadBytes (s : State) (src len : Nat) : Option (List Byte) :=
  if getBits src 63 1 == 1 then
    match s.power.cart with
    | none => none
    | some c =>
      let g := cartGen c (src % 2)
      if s.cartUsable && src - src % 2 == 2 ^ 63 && g.state == 1 && g.gcrcOk && g.cartId == c.id then
        some (tabGetList memDefault c.bytes (areaBase (src % 2) + 4096) g.length)
      else none
  else some (s.rdBytes src len)

/-- Take over what an accepted job start brings: control record, seed, the context's accepted micro-batches. -/
def State.jobBegin (s : State) (f : ImageFile) (c seed : Nat) (ccr : Ccr) : State :=
  let v := (s.ctx c).verdicts
  let r := (s.ctx c).refused
  let s := s.setCtx c (fun x => { x with verdicts := [], refused := [] })
  { s with
    ccr := ccr, job := { ctx := some c, seed := seed, verdicts := v, refused := r }, run := {}, solver := {}, slow := s.slowTensors f,
    power := { s.power with harvestBase := ccr.t, harvestAsked := false },
    host := { s.host with lendersLost := [] } }

/-- A fresh job, or a job that begins with a state load. -/
def State.startAccepted (s : State) (f : ImageFile) (c tag seed src len : Nat) (join : JobJoin) : State :=
  if src == 0 then
    let s := ((s.orchStart f).jobBegin f c (s.seedFor f seed join) {}).initState f
    (s.commandDone c tag 3 0 0).runFrom f c join.edge 0 (imgTick0 f)
  else
    match s.loadBytes src len with
    | none => s.commandDone c tag 3 10 0
    | some l =>
      match s.loadEnts f l with
      | none => s.commandDone c tag 3 10 0
      | some es =>
        let s := (s.orchStart f).jobBegin f c (s.seedFor f (streamN l 112 8) join)
          { t := streamN l 48 8, step := streamN l 56 8, lastStep := some (streamN l 56 8) }
        let s := (es.foldl (fun s e => s.loadOne (imgSeenBy f (s.fget HULL_ORCH_MODULE)) e) s).copyData f
        (s.commandDone c tag 3 0 0).runFrom f c join.edge 0 (imgTick0 f)

/-- START_JOB with its checks in order. -/
def State.startJob (s : State) (c tag seed src len : Nat) (join : JobJoin) : State :=
  match (s.ctx c).image with
  | none => s.commandDone c tag 3 3 0
  | some f =>
    if !s.cmdAllowed c [.loaded] || s.fbit BENCH_STS_SCAN_ACTIVE then s.commandDone c tag 3 3 0
    else if s.jobBusy then s.commandDone c tag 3 4 0
    else if s.powerDetail != 0 then s.commandDone c tag 3 15 s.powerDetail
    else if s.fget HOST_LINK_WIDTH == 1 || s.fget HOST_LINK_WIDTH == 2 then s.commandDone c tag 3 7 0
    else
      let code := s.jobRefusal f
      if code != 0 then (s.jobRefused f code).commandDone c tag 3 13 code
      else s.startAccepted f c tag seed src len join

/-- START_JOB. -/
def execStartJob (at_ ctx tag seed src len : Nat) (join : JobJoin) (s : State) : Host.Outcome State Fault Refusal :=
  .next (s.live (fun s => (s.upTo at_).startJob (ctx % 4) tag seed src len join))

/-! ### INGEST (R197 to R201, R396, R427, R428, R628) -/

/-- The next step to run of a context (R198). -/
def State.nextStep (s : State) (c : Nat) : Nat :=
  if s.job.ctx == some c then s.ccr.step
  else match (s.ctx c).saved with | some v => v.ccr.step | none => 0

/-- The plan of a step of a context: of the next step to run, or of the one beyond (R628). A tick that this module opened without
its token leaves STEP behind, and moves the plan of no step. -/
def State.planFor (s : State) (f : ImageFile) (c step : Nat) : Nat :=
  let last := if s.job.ctx == some c then s.stepRun else match (s.ctx c).saved with | some v => v.job.lastPlan | none => none
  let next := s.nextStep c
  planOfStep f last next (min (max step next) (next + 1))

/-- The slot entry that an INGEST names: by the next step's plan, and by its SUCCESSOR for every later step. -/
def State.slotOf (s : State) (f : ImageFile) (c step slot : Nat) : Option (BitVec 256) :=
  (imgPlan f (s.planFor f c step)).bind (fun q => if planKind q == 0 then q.slots[slot]? else none)

/-- Has the ingest close of the tick in which the step runs passed (R198, R396)? -/
def State.ingestClosed (s : State) (f : ImageFile) (c step : Nat) : Bool :=
  decide (step < s.nextStep c) || (s.job.ctx == some c && s.run.stepRuns && step == s.nextStep c && (s.run.closeTaken ||
    (match s.curPlan with | some p => decide (planFenceOf p 1 - imgCommitMin f ≤ s.cyc) | none => false)))

/-- The first condition of R198 that holds, or else the code of an earlier refusal for the same STEP and slot, whose verdict
is final (R201); 0 when the micro-batch is accepted. -/
def State.ingestCode (s : State) (f : ImageFile) (c step slot tokens bytes : Nat) : Nat :=
  let e := s.slotOf f c step slot
  if e.any (fun e => decide (slotMaxTok e < tokens)) then 1
  else if e.isNone then 2
  else if (s.ctxVerdicts c).any (fun v => v.1 == step && v.2.1 == slot) then 3
  else if s.ingestClosed f c step then 4
  else if s.nextStep c + 1 < step then 5
  else if e.any (fun e => bytes != tokens * slotBpt e) then 6
  else match (s.ctxRefused c).find? (fun r => r.1 == step && r.2.1 == slot) with | some r => r.2.2 | none => 0

/-- A refusal: an event, a record and a count, and no data moved (R199, R205). Its verdict is kept where the slot exists and
holds nothing; DEDUCED: a CLOSED refusal is not kept, since R201 lets a slot that was input late be filled for the replay. -/
def State.ingestRefuse (s : State) (c tag step slot tokens code : Nat) : State :=
  let s := (s.fadd HULL_INGEST_CNT_REFUSED 1).record HULL_INGEST_FIRST_VALID
    [(HULL_INGEST_FIRST_SLOT, slot), (HULL_INGEST_FIRST_REASON, code), (HULL_INGEST_FIRST_TOKENS, tokens), (HULL_INGEST_FIRST_STEP, step)]
  let s := if [1, 5, 6].contains code then s.keepRefused c (step, slot, code) else s
  (s.setSts 0 HULL_INGEST_STS_REFUSED).event 2 c
    [slot % 1024 * 2 ^ 48 + code * 2 ^ 58 + tokens % 2 ^ 32 * 2 ^ 64 + tag % 2 ^ 32 * 2 ^ 96, step % 2 ^ 64 * 2 ^ 16]

/-- The transfer of an accepted micro-batch has ended (R426, R428). -/
def State.ingestEnded (s : State) (c tag step slot : Nat) (ok : Bool) : State :=
  let mine (v : Nat × Nat × Nat × Bool) : Bool := v.1 == step && v.2.1 == slot
  if ok then
    (s.setVerdicts c (fun l => l.map (fun v => if mine v then (v.1, v.2.1, v.2.2.1, true) else v))).commandDone c tag 4 0 0
  else (s.setVerdicts c (fun l => l.filter (fun v => !mine v))).commandDone c tag 4 8 0

/-- INGEST: judged on receipt; an accepted one is moved by its engine, unless there is nothing to move. -/
def State.ingest (s : State) (c tag step source tokens bytes slot : Nat) : State :=
  match (s.ctx c).image with
  | none => s.commandDone c tag 4 3 0
  | some f =>
    if !s.cmdAllowed c [.loaded, .running, .preempted] then s.commandDone c tag 4 3 0
    else
      let code := s.ingestCode f c step slot tokens bytes
      match s.slotOf f c step slot with
      | none => s.ingestRefuse c tag step slot tokens code
      | some e =>
        if code != 0 then s.ingestRefuse c tag step slot tokens code
        else
          let s := (s.setVerdicts c (fun l => l ++ [(step, slot, tokens, false)])).fadd HULL_INGEST_CNT_ACCEPTED 1
          if bytes == 0 || (source == slotStaging e && s.inHdm source bytes) then s.ingestEnded c tag step slot true
          else s.addDesc { eng := slot % 8, q := 0, ctx := c, kind := .ingest step slot, src := source, dst := slotStaging e,
                           length := bytes, fenced := true, dfence := slotDfence e, tag := tag }

/-- INGEST. -/
def execIngest (at_ ctx tag step source tokens bytes slot : Nat) (s : State) : Host.Outcome State Fault Refusal :=
  .next (s.live (fun s => (s.upTo at_).ingest (ctx % 4) tag step source tokens bytes (slot % 1024)))

/-- Copy bytes of memory. -/
def State.copyMem (s : State) (src dst n : Nat) : State := s.wrBytes dst (s.rdBytes src n)

/-- INGEST_DONE: the transfer of an accepted micro-batch ends. -/
def execIngestDone (at_ ctx step slot : Nat) (ok : Bool) (s : State) : Host.Outcome State Fault Refusal :=
  .next (s.live (fun s =>
    let s := s.upTo at_
    match s.host.descs.find? (fun d => d.ctx == ctx && d.kind == .ingest step slot) with
    | none => s
    | some d =>
      let s := if ok then s.copyMem (d.src + d.offset) (d.dst + d.offset) (d.length - d.offset) else s
      (s.dropDescs (fun x => x == d)).ingestEnded d.ctx d.tag step slot ok))

/-! ### Device tables (R435 to R439): a function of the image -/

/-- A region that a context's tables map: its address and length, ER, EW and PIN (R437). -/
structure TabRegion where
  base : Nat
  len : Nat
  er : Bool
  ew : Bool
  pin : Bool
  deriving DecidableEq, Repr

/-- The regions that a context's tables map (R437): what the image names, and what its hub schedules access. Scheduled work
touches only memory, never a slow-tier home. -/
def tableRegions (f : ImageFile) (m : Nat) : List TabRegion :=
  (slotRegions f).map (fun r => ⟨r.1, r.2, true, true, true⟩) ++
  (f.stateMap.filter (fun t => owns t m)).flatMap (fun t =>
    (tensorRegions f t).map (fun r => ⟨r.1, r.2, true, t.tier != 0 && t.role != 8, decide (r.1 < 2 ^ 40)⟩)) ++
  f.redPlans.flatMap (fun p =>
    if bvBits p.ent 127 1 == 0 then [⟨bvBits p.ent 64 57, 256, false, false, true⟩] else []) ++
  (f.hubScheds.filter (fun h => h.cls == modClass (imgModule f m))).flatMap (fun h =>
    ((schedWords h.words).filter (fun w => decide (hOp w.2 ≤ 3))).map (fun w =>
      ⟨granAddr h.hub (hStack w.2) (hGran w.2), 256 * hCount w.2, false, false, true⟩))

/-- The bytes that one entry of a table level maps (R435). -/
def levelSpan (level : Nat) : Nat :=
  if level == 0 then 2 ^ 39 else if level == 1 then 2 ^ 30 else if level == 2 then 2 ^ 21 else 2 ^ 16

/-- The 8 B entry (R436) of a context's table of a level for an address: V, and in L3 LEAF, ER, EW and PIN of the 64 KiB
page, elsewhere NEXT. DESIGN CHOICE: every leaf stands in L3, and where the hull places a table is left open. -/
def tableEntry (f : ImageFile) (m c level a : Nat) : Word64 :=
  let sp := levelSpan level
  let l := (tableRegions f m).filter (fun r => meet (a / sp * sp) sp r.base r.len)
  if l.isEmpty then 0
  else if level == 3 then
    BitVec.ofNat 64 (3 + 4 * (l.any (fun r => r.er)).toNat + 8 * (l.any (fun r => r.ew)).toNat + 16 * (l.any (fun r => r.pin)).toNat)
  else BitVec.ofNat 64 (1 + Config.tablePlace c (level + 1) (a / sp) % 2 ^ 49 * 256)

/-- The walk of a context's tables for an address: the leaf, none at the first entry that is not valid (R435, R436). -/
def tableWalk (f : ImageFile) (m c a : Nat) : Option Word64 :=
  if (range' 0 4).all (fun level => bvBits (tableEntry f m c level a) 0 1 == 1) then some (tableEntry f m c 3 a) else none

/-- Does an address lie in the host window (R440)? -/
def inHost (a : Nat) : Bool := getBits a 56 1 == 1

/-- The cause of the translation fault of an elastic access of a context, none when it may proceed (R439, R465). -/
def State.xlate (s : State) (c a : Nat) (write : Bool) : Option Nat :=
  if inHost a then none
  else
    match (s.ctx c).image with
    | none => some 0
    | some f =>
      match tableWalk f (s.fget HULL_ORCH_MODULE) c a with
      | none => some 0
      | some e =>
        if write then (if bvBits e 3 1 == 1 then none else some 2) else if bvBits e 2 1 == 1 then none else some 1

/-- May elastic traffic write a range: on a lender, memory outside its control region (R363); elsewhere, a staging buffer or
prefetch region that a resident image declares (R42)? -/
def State.elasticMay (s : State) (a n : Nat) : Bool :=
  (match s.image with
    | some f => modRole (imgModule f (s.fget HULL_ORCH_MODULE)) == 1 && !meet a n 0xBC0000000 0x40000000
    | none => false) ||
  s.residents.any (fun f => (tableRegions f (s.fget HULL_ORCH_MODULE)).any (fun r =>
    r.ew && decide (r.base ≤ a) && decide (a + n ≤ r.base + r.len)))

/-! ### Exports (R289 to R293, R429) -/

/-- The seed of a context's job. -/
def State.ctxSeed (s : State) (c : Nat) : Nat :=
  if s.job.ctx == some c then s.job.seed
  else match (s.ctx c).saved with | some v => v.job.seed | none => (s.ctx c).seed

/-- The accepted export starts streaming. -/
def State.exportStart (s : State) (e : Export) (f : ImageFile) : State :=
  let ccr := s.ctxCcr e.ctx
  let s := s.withHost (fun h => { h with exp := some { e with started := true, tick := s.tickCount, ccr := ccr } })
  let s := s.addDesc { eng := e.ctx, q := 1, ctx := e.ctx, kind := .exportOut, src := 0, dst := (e.bufs.headD (0, 0)).1,
                       length := s.expTotal f ccr (s.ctxLag e.ctx) e.kind, tag := e.tag }
  s.fset HULL_EXPORT_STARTED 1

/-- May an export of a context start on this cycle (R289)? -/
def State.exportMay (s : State) (c : Nat) : Bool :=
  s.job.ctx != some c || s.ccr.hold || (s.run.active && s.now == s.edgeAt && s.fget TICK_PLAN_CUR_KIND != 0)

/-- EXPORT with its checks in order. -/
def State.exportCmd (s : State) (c tag kind : Nat) (bufs : List (Nat × Nat)) : State :=
  match (s.ctx c).image with
  | none => s.commandDone c tag 5 3 0
  | some f =>
    if !s.cmdAllowed c [.loaded, .running, .preempted] then s.commandDone c tag 5 3 0
    else if s.host.exp.isSome then
      ((s.setSts 0 HULL_EXPORT_STS_BUSY).commandDone c tag 5 4 0).exportEvent c 2 kind 0 tag (s.ctxCcr c)
    else if (bufs.map (fun b => b.2)).foldl (· + ·) 0 < s.expTotal f (s.ctxCcr c) (s.ctxLag c) kind then s.commandDone c tag 5 11 0
    else
      let e : Export := { ctx := c, kind := kind, tag := tag, bufs := bufs }
      let s := s.withHost (fun h => { h with exp := some e })
      let s := s.fsetAll [(HULL_EXPORT_ACTIVE, 1), (HULL_EXPORT_KIND, kind), (HULL_EXPORT_STARTED, 0), (HULL_EXPORT_DONE_4K, 0)]
      if s.job.ctx != some c || s.ccr.hold then s.exportStart e f else s

/-- EXPORT. -/
def execExport (at_ ctx tag kind : Nat) (bufs : List (Nat × Nat)) (s : State) : Host.Outcome State Fault Refusal :=
  .next (s.live (fun s =>
    let s := s.upTo at_
    if 1 < kind || bufs.isEmpty || 48 < bufs.length then s.commandDone (ctx % 4) tag 5 1 0
    else s.exportCmd (ctx % 4) tag kind bufs))

/-- EXPORT_START. -/
def execExportStart (at_ : Nat) (s : State) : Host.Outcome State Fault Refusal :=
  .next (s.live (fun s =>
    let s := s.upTo at_
    match s.host.exp with
    | some e =>
      match (s.ctx e.ctx).image with
      | some f => if !e.started && s.exportMay e.ctx then s.exportStart e f else s
      | none => s
    | none => s))

/-- The parts of the buffers, whose first byte is stream byte `pos`, that bytes `lo` to `hi` of the stream go to (R429). -/
def bufParts (lo hi : Nat) : List (Nat × Nat) → Nat → List (Nat × Nat)
  | [], _ => []
  | b :: r, pos =>
    let a := max lo pos
    let z := min hi (pos + b.2)
    (if a < z then [(b.1 + (a - pos), z - a)] else []) ++ bufParts lo hi r (pos + b.2)

/-- May elastic traffic write bytes `lo` to `hi` of a stream to the buffers (R42)? -/
def State.bufsMay (s : State) (lo hi : Nat) (bufs : List (Nat × Nat)) : Bool :=
  (bufParts lo hi bufs 0).all (fun b => inHost b.1 || s.elasticMay b.1 b.2)

/-- Lay bytes of the stream from `lo` to `hi` across the buffers, whose first byte is stream byte `pos` (R429). -/
def State.scatter (s : State) (data : List Byte) (lo hi : Nat) : List (Nat × Nat) → Nat → State
  | [], _ => s
  | b :: r, pos =>
    let a := max lo pos
    let z := min hi (pos + b.2)
    (if a < z then s.wrBytes (b.1 + (a - pos)) ((data.drop a).take (z - a)) else s).scatter data lo hi r (pos + b.2)

/-- Residency of a context's slow-tier tensors (R354). -/
def State.ctxSlow (s : State) (c : Nat) : List Resid :=
  if s.job.ctx == some c then s.slow else match (s.ctx c).saved with | some v => v.slow | none => (s.ctx c).slow

/-- The stream of an export that has started; a slow-tier tensor's value is read where its own context holds it (R358). -/
def State.exportBytes (s : State) (e : Export) (f : ImageFile) : List Byte :=
  State.expStream { s with slow := s.ctxSlow e.ctx } f e.ccr (s.ctxLag e.ctx) e.kind e.tick (s.ctxSeed e.ctx)

/-- An export ends because its transfer met a fault (R451). -/
def State.exportFault (s : State) (ctx tag : Nat) : State :=
  ((s.withHost (fun h => { h with exp := none })).fsetAll [(HULL_EXPORT_ACTIVE, 0), (HULL_EXPORT_STARTED, 0)]).commandDone ctx tag 5 8 0

/-- Every region and the directory are written; the header follows and the export completes (R293). One whose buffers elastic
traffic may not write ends in a fault instead (R42, R439; DEDUCED). -/
def State.exportDone (s : State) (e : Export) (f : ImageFile) : State :=
  let data := s.exportBytes e f
  if !s.bufsMay 0 data.length e.bufs then (s.dropDescs (fun d => d.kind == .exportOut)).exportFault e.ctx e.tag
  else
  let s := (s.scatter data 128 data.length e.bufs 0).scatter data 0 128 e.bufs 0
  let w := ceilDiv data.length 4096
  let s := (s.withHost (fun h => { h with exp := none })).dropDescs (fun d => d.kind == .exportOut)
  let s := (s.fsetAll [(HULL_EXPORT_ACTIVE, 0), (HULL_EXPORT_STARTED, 0), (HULL_EXPORT_DONE_4K, w)]).setSts 0 HULL_EXPORT_STS_DONE
  (s.commandDone e.ctx e.tag 5 0 0).exportEvent e.ctx 0 e.kind w e.tag e.ccr

/-- EXPORT_DONE. -/
def execExportDone (at_ : Nat) (s : State) : Host.Outcome State Fault Refusal :=
  .next (s.live (fun s =>
    let s := s.upTo at_
    match s.host.exp with
    | some e =>
      match (s.ctx e.ctx).image with
      | some f => if e.started then s.exportDone e f else s
      | none => s
    | none => s))

/-! ### Pre-emption, resume and job end (R431 to R434) -/

/-- Is the commit window of the running tick open (R35)? -/
def State.inCommitWindow (s : State) : Bool :=
  match s.curPlan with | some p => decide (planFenceOf p 3 ≤ s.cyc) | none => false

/-- Arrange a pre-emption at the closing edge of a tick; one that an invalidation has already arranged for the same edge
carries both causes, and an earlier one stands (R434). -/
def State.arrangePreempt (s : State) (tick reason : Nat) : State :=
  s.withJob (fun j => { j with preemptAt := match j.preemptAt with
    | none => some (tick, reason)
    | some (t, r) => if t == tick then some (t, Nat.lor r reason) else if t < tick then some (t, r) else some (tick, reason) })

/-- PREEMPT AT_EDGE. -/
def State.preemptAtEdge (s : State) (c tag tick : Nat) : State :=
  if !s.cmdAllowed c [.running] then s.commandDone c tag 6 3 0
  else if s.host.cmds.any (fun p => p.opcode == 6 && p.ctx == c) || s.host.saving.isSome then s.commandDone c tag 6 4 0
  else if tick < s.tickCount || (tick == s.tickCount && s.inCommitWindow) then s.commandDone c tag 6 5 0
  else (s.pendCmd 6 c tag tick).arrangePreempt tick 1

/-- PREEMPT_AT_EDGE. -/
def execPreemptAtEdge (at_ ctx tag tick : Nat) (s : State) : Host.Outcome State Fault Refusal :=
  .next (s.live (fun s => (s.upTo at_).preemptAtEdge (ctx % 4) tag tick))

/-- PREEMPT NOW: within a commit window it acts at that tick's edge; else every item stops 1,024 cyc after it is taken, no
token is applied and the step is declined (R432). -/
def State.preemptNow (s : State) (c tag : Nat) : State :=
  if !s.cmdAllowed c [.running] then s.commandDone c tag 6 3 0
  else if s.host.saving.isSome then s.commandDone c tag 6 4 0
  else if 1 < s.fget HULL_ORCH_SIZE then s.commandDone c tag 6 6 0
  else if s.inCommitWindow then (s.pendCmd 6 c tag s.tickCount).arrangePreempt s.tickCount 1
  else
    let s := (s.pendCmd 6 c tag s.tickCount).upTo (s.now + 1024)
    let reason := match s.job.preemptAt with | some (t, r) => if t == s.tickCount then Nat.lor r 1 else 1 | none => 1
    (s.takePreempt 1 reason s.run.stepRuns s.tickCount (s.fget TICK_PLAN_CUR) s.now).answerHeld

/-- PREEMPT_NOW. -/
def execPreemptNow (at_ ctx tag : Nat) (s : State) : Host.Outcome State Fault Refusal :=
  .next (s.live (fun s => (s.upTo at_).preemptNow (ctx % 4) tag))

/-- The registers of class J that the save area holds beside the context's control record and job (R321, R431, R433). DEDUCED
(R431 says that nothing is lost): the commit registers whose fields the running job set. -/
def savedKeys : List Nat :=
  [COMMIT_HOLD.base, COMMIT_LOSS0.base] ++ (range' 0 4).map (fun i => (COMMIT_TOKEN.ix i).base) ++
    (range' 0 5).map (fun i => (COMMIT_HEALTH.ix i).base)

/-- The save area is written: the context is PREEMPTED (R431, R461). -/
def State.preempted (s : State) (v : Saving) : State :=
  let s := s.upTo v.doneAt
  let slow := s.slow.map (fun r => { r with prefetching := false, writing := false })
  let s := s.abandonDescs (fun d => d.ctx == v.ctx && 8 ≤ d.eng && d.eng < 12)
  let sv : Saved := ⟨s.ccr, s.job, v.tick, v.plan, (s.host.pins.filter (fun p => p.ctx == v.ctx)).map (fun p => (p.addr, p.len)), slow,
    savedKeys.map (fun k => (k, s.regGet k))⟩
  let s := s.setCtx v.ctx (fun x => { x with state := .preempted, saved := some sv })
  let s := (s.fset (HULL_CTX_TICK.ix v.ctx) v.tick).event 6 v.ctx
    [v.mode * 2 ^ 48 + v.reason * 2 ^ 49 + v.declined.toNat * 2 ^ 51, s.ccr.step % 2 ^ 64 * 2 ^ 16]
  let cmds := s.host.cmds.filter (fun p => p.opcode == 6 && p.ctx == v.ctx)
  let s := s.withHost (fun h => { h with saving := none, cmds := h.cmds.filter (fun p => !(p.opcode == 6 && p.ctx == v.ctx)) })
  let s := cmds.foldl (fun s p => s.commandDone p.ctx p.tag 6 0 0) s
  { s.keepRecord with job := {}, slow := [] }

/-- PREEMPTED. -/
def execPreempted (s : State) : Host.Outcome State Fault Refusal :=
  .next (s.live (fun s => match s.host.saving with | some v => if s.reloading then s else s.preempted v | none => s))

/-- RESUME: the restore takes 131,072 cyc. -/
def State.resume (s : State) (c tag : Nat) : State :=
  if !s.cmdAllowed c [.preempted] || s.host.cmds.any (fun p => p.opcode == 7 && p.ctx == c) then s.commandDone c tag 7 3 0
  else if s.jobBusy then s.commandDone c tag 7 4 0
  else if s.powerDetail != 0 then s.commandDone c tag 7 15 s.powerDetail
  else s.pendCmd 7 c tag (s.now + 131072)

/-- RESUME. -/
def execResume (at_ ctx tag : Nat) (s : State) : Host.Outcome State Fault Refusal :=
  .next (s.live (fun s => (s.upTo at_).resume (ctx % 4) tag))

/-- The restored context's first tick (R406, R433). DESIGN CHOICE (the spec does not say whether a token missed at the edge of
a pre-emption counts towards R66's two edges in a row): the count begins anew. -/
def State.resumeRun (s : State) (f : ImageFile) (c tag : Nat) (v : Saved) (join : JobJoin) : State :=
  let s := s.orchStart f
  let s := { s with
    ccr := v.ccr, run := {}, solver := {}, slow := v.slow,
    job := { v.job with ctx := some c, tokensMissed := 0, markersLost := 0, aborting := none, preemptAt := none },
    host := { s.host with
      lendersLost := [],
      pins := s.host.pins.filter (fun (p : PinReq) => p.ctx != c) ++
        v.pins.map (fun (r : Nat × Nat) => (⟨c, 0, r.1, r.2, true⟩ : PinReq)) } }
  let s := v.commit.foldl (fun (s : State) e => s.regPut e.1 e.2) s
  let trail := f.stateMap.any (fun t => t.gather == 2)
  let count := v.tickCount + 1
  let s := (s.repin.commandDone c tag 7 0 0).runFrom f c join.edge count (if trail then imgTick0 f else v.plan)
  s.event 7 c [count % 2 ^ 32 * 2 ^ 48]

/-- The restore ends: the job-start checks are made and the first tick runs. -/
def State.resumed (s : State) (join : JobJoin) : State :=
  match s.host.cmds.find? (fun p => p.opcode == 7) with
  | none => s
  | some p =>
    let s := (s.upTo p.arg).withHost (fun h => { h with cmds := h.cmds.filter (fun x => x != p) })
    match (s.ctx p.ctx).image, (s.ctx p.ctx).saved with
    | some f, some v =>
      let code := s.jobRefusal f
      if code != 0 then (s.jobRefused f code).commandDone p.ctx p.tag 7 13 code
      else s.resumeRun f p.ctx p.tag v join
    | _, _ => s

/-- RESUMED. -/
def execResumed (join : JobJoin) (s : State) : Host.Outcome State Fault Refusal :=
  .next (s.live (fun s => s.resumed join))

/-- END_JOB: a job reset of a RUNNING context, at once; a PREEMPTED one goes to LOADED with its committed control
record (R434, R561). DESIGN CHOICE (R434 calls the latter a job reset, and R11 does not say which J-class fields are a
PREEMPTED context's while another context's job runs): then no J-class field is cleared and no PWR_RESTORE_STS written. -/
def State.endJob (s : State) (c tag : Nat) : State :=
  if !s.cmdAllowed c [.running, .preempted] then s.commandDone c tag 8 3 0
  else if s.job.ctx == some c then ((s.noticeOut.jobReset 8).noticeSts).commandDone c tag 8 0 0
  else
    let s := s.abandonCmds (fun p => p.ctx == c && p.opcode == 7)
    let s := if s.host.exp.any (fun e => e.ctx == c) then s.abandonExport else s
    let s := s.abandonDescs (fun d => d.ctx == c && d.eng < 12)
    let s := s.setCtx c (fun x => match x.saved with
      | some v => { x with state := .loaded, ccr := v.ccr, seed := v.job.seed, lag := v.job.lag, slow := v.slow, saved := none }
      | none => { x with state := .loaded })
    (if s.job.ctx.isNone then s.clearJ.emptyAtc.restoreSts 8 8 0 0 false false false else s).commandDone c tag 8 0 0

/-- END_JOB. -/
def execEndJob (at_ ctx tag : Nat) (s : State) : Host.Outcome State Fault Refusal :=
  .next (s.live (fun s => (s.upTo at_).endJob (ctx % 4) tag))

/-! ### PIN and UNPIN (R443) -/

/-- Do the cache's entries of PF1 cover a range of host addresses? -/
def State.covered (s : State) (addr len : Nat) : Bool :=
  (range' (addr / 4096) (ceilDiv (addr % 4096 + len) 4096)).all (fun p =>
    s.host.atc.any (fun e => e.fn == 1 && decide (e.addr ≤ 4096 * p) && decide (4096 * p < e.addr + e.size)))

/-- Entries that are pinned. -/
def State.pinned (s : State) : Nat := (s.host.atc.filter (fun e => !e.pins.isEmpty)).length

/-- Complete every PIN whose pages all hold translations, or whose range has taken more entries than can be pinned. -/
def State.pinsDone (s : State) : State :=
  s.host.pins.foldl (fun s p =>
    if p.done then s
    else if 2048 < s.pinned then
      ((s.withHost (fun h => { h with pins := h.pins.filter (fun q => q != p) })).repin).commandDone p.ctx p.tag 9 12 0
    else if s.covered p.addr p.len then
      (s.withHost (fun h => { h with pins := h.pins.map (fun q => if q == p then { q with done := true } else q) })).commandDone
        p.ctx p.tag 9 0 0
    else s) s

/-- PIN requests translations of a host range at once; a range outside the host window is malformed. -/
def State.pin (s : State) (c tag addr len : Nat) : State :=
  if !s.cmdAllowed c [.loaded, .running, .preempted] then s.commandDone c tag 9 3 0
  else if getBits addr 56 1 == 0 then s.commandDone c tag 9 1 0
  else
    let a := addr % 2 ^ 56
    let s := s.withHost (fun h => { h with pins := h.pins ++ [⟨c, tag, a, len, false⟩] })
    (s.emit (.msg "ATS_TRANSLATION_REQUEST" [1, a, len])).repin.pinsDone

/-- PIN. -/
def execPin (at_ ctx tag addr len : Nat) (s : State) : Host.Outcome State Fault Refusal :=
  .next (s.live (fun s => (s.upTo at_).pin (ctx % 4) tag addr len))

/-- UNPIN releases the ranges that lie in the one named; a PIN of one that has not completed ends with it. -/
def State.unpin (s : State) (c tag addr len : Nat) : State :=
  if !s.cmdAllowed c [.loaded, .running, .preempted] then s.commandDone c tag 10 3 0
  else
    let a := addr % 2 ^ 56
    let inside (p : PinReq) : Bool := p.ctx == c && decide (a ≤ p.addr) && decide (p.addr + p.len ≤ a + len)
    let open_ := s.host.pins.filter (fun p => inside p && !p.done)
    let s := (s.withHost (fun h => { h with pins := h.pins.filter (fun p => !inside p) })).repin
    (open_.foldl (fun s p => s.commandDone p.ctx p.tag 9 14 0) s).commandDone c tag 10 0 0

/-- UNPIN. -/
def execUnpin (at_ ctx tag addr len : Nat) (s : State) : Host.Outcome State Fault Refusal :=
  .next (s.live (fun s => (s.upTo at_).unpin (ctx % 4) tag addr len))

/-! ### Command packets (R424 to R426, R455, R458) -/

/-- A field of a command word, `n` bytes from byte `off`. -/
def cmdField (w : BitVec 512) (off n : Nat) : Nat := bvBits w (8 * off) (8 * n)

/-- Is a word a gap marker of the port? -/
def isCmdGap (w : BitVec 512) : Bool := w == cmdGap (cmdField w 8 4)

/-- R424: word indices from 0, one opcode, at most 16 words. -/
def packetOk (ws : List (BitVec 512)) : Bool :=
  decide (ws.length ≤ 16) && (indexed ws 0).all (fun x => bvBits x.2 9 4 == x.1 && bvBits x.2 0 8 == bvBits (ws.headD 0) 0 8)

/-- The buffers of an EXPORT packet (R429). -/
def exportBufs (ws : List (BitVec 512)) : List (Nat × Nat) :=
  let n := cmdField (ws.headD 0) 9 2
  (ws.flatMap (fun w => [(cmdField w 16 8, cmdField w 24 8), (cmdField w 32 8, cmdField w 40 8), (cmdField w 48 8, cmdField w 56 8)])).take n

/-- EXPORT's own malformed packets (R429). -/
def exportBad (ws : List (BitVec 512)) : Bool :=
  let w := ws.headD 0
  let n := cmdField w 9 2
  1 < cmdField w 8 1 || n == 0 || 48 < n || ws.length != ceilDiv n 3

/-- Dispatch a packet of the hull by its opcode (R425, R426). -/
def State.dispatch (s : State) (ws : List (BitVec 512)) (join : JobJoin) : State :=
  let w := ws.headD 0
  let op := bvBits w 0 8
  let c := bvBits w 16 2
  let tag := cmdField w 4 4
  if !packetOk ws then s.commandDone c tag op 1 0
  else if op == 1 then s.loadImage c tag (cmdField w 8 8) (cmdField w 16 8)
  else if op == 2 then s.unloadImage c tag
  else if op == 3 then s.startJob c tag (cmdField w 8 8) (cmdField w 16 8) (cmdField w 24 8) join
  else if op == 4 then s.ingest c tag (cmdField w 8 8) (cmdField w 16 8) (cmdField w 24 4) (cmdField w 28 5) (cmdField w 33 2 % 1024)
  else if op == 5 then
    if exportBad ws then s.commandDone c tag 5 1 0 else s.exportCmd c tag (cmdField w 8 1) (exportBufs ws)
  else if op == 6 then
    if cmdField w 8 1 == 0 then s.preemptAtEdge c tag (cmdField w 16 8)
    else if cmdField w 8 1 == 1 then s.preemptNow c tag else s.commandDone c tag 6 1 0
  else if op == 7 then s.resume c tag
  else if op == 8 then s.endJob c tag
  else if op == 9 then s.pin c tag (cmdField w 8 8) (cmdField w 16 8)
  else if op == 10 then s.unpin c tag (cmdField w 8 8) (cmdField w 16 8)
  else s.commandDone c tag op 2 0

/-- A gap marker and the words before it: those words are one malformed packet, and the marker has its DROPPED event. -/
def State.takeGap (s : State) (ws : List (BitVec 512)) : State :=
  let w := ws.headD 0
  let s := if ws.length == 1 then s else s.commandDone (bvBits w 16 2) (cmdField w 4 4) (bvBits w 0 8) 1 0
  s.event 9 0 [cmdField (ws.getLastD 0) 8 4 * 2 ^ 48]

/-- May the hull take commands: in RUN, with no lockstep reload (R504, R527)? -/
def State.takesCmds (s : State) : Bool := s.inRun && !s.reloading

/-- The hull takes the first whole packet of command ingress. -/
def State.commandPacket (s : State) (join : JobJoin) : State :=
  if s.takesCmds then
    match s.takePacket 0 with
    | none => s
    | some (ws, s) => if isCmdGap (ws.getLastD 0) then s.takeGap ws else s.dispatch ws join
  else s

/-- COMMAND_PACKET. -/
def execCommandPacket (at_ : Nat) (join : JobJoin) (s : State) : Host.Outcome State Fault Refusal :=
  .next (s.live (fun s => (s.upTo at_).commandPacket join))

/-- DROPPED: the hull takes a gap marker, when one ends the first packet. -/
def execDropped (at_ : Nat) (s : State) : Host.Outcome State Fault Refusal :=
  .next (s.live (fun s =>
    let s := s.upTo at_
    match s.takePacket 0 with
    | some (ws, t) => if s.takesCmds && isCmdGap (ws.getLastD 0) then t.takeGap ws else s
    | none => s))

/-- The consumer of a FIFO takes `n` whole packets. -/
def State.packetsTake (s : State) (fifo : Nat) (join : JobJoin) : Nat → State
  | 0 => s
  | n + 1 =>
    (if fifo == 0 then s.commandPacket join
     else if fifo == 1 || fifo == 2 then (if s.reloading then s else s.ringWrite fifo)
     else if fifo == 3 then s.telemetryTake 1 else s).packetsTake fifo join n

/-- FIFO_PACKET_TAKE: `seen` is the number of whole packets that the synced count shows the consumer. -/
def execFifoPacketTake (at_ fifo seen : Nat) (join : JobJoin) (s : State) : Host.Outcome State Fault Refusal :=
  .next (s.live (fun s =>
    let s := s.upTo at_
    s.packetsTake fifo join (min seen (s.fifo fifo).packets)))

end Sys2Proof.Machine
end

