-- ==== Sys2Proof/Machine/Dma.lean ====
section
/-! DEFINITION. Translation, elastic DMA, the HDM window and the slow tier (R353 to R366, R418, R419, R435 to R451). -/

namespace Sys2Proof.Machine

/-! ### Slow-tier residency (R354 to R357, R361, R364) -/

/-- Change the residency of a tensor. -/
def State.setResid (s : State) (id : Nat) (g : Resid → Resid) : State :=
  { s with slow := s.slow.map (fun r => if r.tensor == id then g r else r) }

/-- The residency of a tensor. -/
def State.resid (s : State) (id : Nat) : Option Resid := s.slow.find? (fun r => r.tensor == id)

/-- The tensor's state-map entry. -/
def slowEnt (f : ImageFile) (id : Nat) : Option TensorEnt := f.stateMap.find? (fun t => t.tensor == id && t.role != 8 && t.tier != 0)

/-- Is a tensor's prefetch under way, and not just waiting for its pair? -/
def State.fetching (s : State) (id : Nat) : Bool := s.host.descs.any (fun d => d.kind == .prefetch id)

/-- Another tensor that holds the same pair, resident or on its way into it: a pair holds one tensor at a time (R354). -/
def State.pairHolder (s : State) (f : ImageFile) (t : TensorEnt) : Option Resid :=
  s.slow.find? (fun r => (r.resident || s.fetching r.tensor) && r.tensor != t.tensor &&
    (match slowEnt f r.tensor with | some u => u.even == t.even || u.odd == t.odd | none => false))

/-- Does a device that has been lost hold an address (R361, R364)? -/
def State.unitLost (s : State) (a : Nat) : Bool :=
  if 0x100000000000 ≤ a && a < 0x180000000000 then !s.fbit (HULL_SLOW_EXP_UP.ix ((a - 0x100000000000) / 0x20000000000))
  else if 0x200000000000 ≤ a && a < 0x300000000000 then s.host.lendersLost.contains ((a - 0x200000000000) / 0x10000000000)
  else false

/-- The engine and queue of a slow-tier transfer (R446). -/
def slowQueue (t : TensorEnt) (back : Bool) : Nat × Nat :=
  (8 + (homeUnit t).2 % 4, (if t.tier == 1 then 0 else 2) + back.toNat)

/-- Start the copy of a home into the buffer that the step will read, evicting a clean holder of the pair. DESIGN CHOICE: the
image has no field for the eviction point of R357, and the model takes the start of the next prefetch into the pair for it. -/
def State.prefetchGo (s : State) (f : ImageFile) (t : TensorEnt) : State :=
  let s := match s.pairHolder f t with
    | some r => s.setResid r.tensor (fun x => { x with resident := false })
    | none => s
  let q := slowQueue t false
  s.addDesc { eng := q.1, q := q.2, ctx := s.job.ctx.getD 0, kind := .prefetch t.tensor, src := t.home, dst := s.readBase t,
              length := bankBytes t, fenced := true }

/-- Must a prefetch wait for a holder of its pair: until a dirty one is written back (R355), or until one that is on its way
has come (R354)? -/
def pairBusy (h : Resid) : Bool := h.dirty || !h.resident

/-- A prefetch begins: nothing to do for a resident tensor, and a busy holder of the pair is waited for (R355). -/
def State.prefetch (s : State) (f : ImageFile) (id : Nat) : State :=
  match slowEnt f id, s.resid id with
  | some t, some r =>
    if r.resident || r.prefetching then s
    else
      let s := s.setResid id (fun x => { x with prefetching := true })
      match s.pairHolder f t with
      | some h => if pairBusy h then s else s.prefetchGo f t
      | none => s.prefetchGo f t
  | _, _ => s

/-- PREFETCH, on the cycle that the image gives. -/
def execPrefetch (at_ tensor : Nat) (s : State) : Host.Outcome State Fault Refusal :=
  .next (s.live (fun s => match s.image with
    | some f => if s.run.active && !s.reloading then (s.upTo at_).prefetch f tensor else s
    | none => s))

/-- A write-back begins: the committed pair buffer goes to the home (R357). -/
def State.writeBack (s : State) (f : ImageFile) (id : Nat) : State :=
  match slowEnt f id, s.resid id with
  | some t, some r =>
    if r.resident && r.dirty && !r.writing then
      let q := slowQueue t true
      (s.setResid id (fun x => { x with writing := true })).addDesc
        { eng := q.1, q := q.2, ctx := s.job.ctx.getD 0, kind := .writeBack id, src := s.commitBase s.ccr s.job.lag t, dst := t.home,
          length := bankBytes t }
    else s
  | _, _ => s

/-- WRITE_BACK. -/
def execWriteBack (at_ tensor : Nat) (s : State) : Host.Outcome State Fault Refusal :=
  .next (s.live (fun s => match s.image with
    | some f => if s.run.active && !s.reloading then (s.upTo at_).writeBack f tensor else s
    | none => s))

/-- Prefetches that waited for a holder of their pair start. -/
def State.wakePrefetch (s : State) (f : ImageFile) : State :=
  let waits := s.slow.filter (fun r => r.prefetching && !s.fetching r.tensor)
  waits.foldl (fun s r =>
    match slowEnt f r.tensor with
    | some t => (match s.pairHolder f t with
      | some h => if pairBusy h then s else s.prefetchGo f t
      | none => s.prefetchGo f t)
    | none => s) s

/-- A slow-tier transfer ends with an error (R359, R366): cause 1 device lost, 2 transfer error, 3 poison. -/
def State.slowError (s : State) (id cause : Nat) : State :=
  let s := s.setResid id (fun x => { x with prefetching := false, writing := false })
  let s := match s.image.bind (fun f => slowEnt f id) with
    | some t => s.slowFirst id (homeUnit t).1 (homeUnit t).2 cause
    | none => s
  s.setSts 0 HULL_SLOW_STS_TRANSFER_ERROR

/-! ### Descriptors (R447 to R451) -/

/-- Replace a descriptor. -/
def State.setDesc (s : State) (d d' : Desc) : State :=
  s.withHost (fun h => { h with descs := h.descs.map (fun x => if x == d then d' else x) })

/-- What a descriptor's end in fault brings to its command (R451, R428, R359); `cause` is that of a slow-tier transfer. -/
def State.descFault (s : State) (d : Desc) (cause : Nat) : State :=
  let s := ((s.fadd DMA_CNT_FAULTS 1).setSts 6 DMA_STS_FAULT).dropDescs (fun x => x == d)
  match d.kind with
  | .ingest step slot => s.ingestEnded d.ctx d.tag step slot false
  | .exportOut => s.exportFault d.ctx d.tag
  | .loadImage =>
    ((s.withHost (fun h => { h with cmds := h.cmds.filter (fun p => !(p.opcode == 1 && p.ctx == d.ctx)) })).setCtx d.ctx
      (fun x => { x with loading := false })).commandDone d.ctx d.tag 1 8 0
  | .prefetch id => s.slowError id cause
  | .writeBack id => s.slowError id cause
  | .harvest => s.abandonHarvest true
  | _ => s

/-- A transfer is complete (R426, R355, R357). -/
def State.descDone (s : State) (d : Desc) : State :=
  match d.kind with
  | .ingest step slot => (s.dropDescs (fun x => x == d)).ingestEnded d.ctx d.tag step slot true
  | .prefetch id =>
    let s := (s.dropDescs (fun x => x == d)).setResid id (fun x => { x with prefetching := false, resident := true, dirty := false })
    match s.image with | some f => s.wakePrefetch f | none => s
  | .writeBack id =>
    let s := ((s.dropDescs (fun x => x == d)).setResid id (fun x => { x with writing := false, dirty := false })).fadd HULL_SLOW_CNT_WRITEBACKS 1
    match s.image with | some f => s.wakePrefetch f | none => s
  | _ => s.setDesc d { d with status := 1 }

/-- Bytes of the next piece: 4 KiB, ending with the host page on a host side. -/
def pieceLen (d : Desc) : Nat :=
  let h := if inHost d.src then d.src else if inHost d.dst then d.dst else 0
  min (4096 - (h + d.offset) % 4096) (d.length - d.offset)

/-- Do a descriptor's data move between addresses of memory? -/
def movesMem (k : DmaKind) : Bool :=
  match k with | .ingest _ _ => true | .prefetch _ => true | .writeBack _ => true | _ => false

/-- Where a descriptor reads: a write-back the tensor's committed pair buffer, as it is when the piece moves (R357). -/
def State.descSrc (s : State) (d : Desc) : Nat :=
  match d.kind with
  | .writeBack id => (match s.image.bind (fun f => slowEnt f id) with
    | some t => s.commitBase s.ccr s.job.lag t
    | none => d.src)
  | _ => d.src

/-- The memory that the next piece, of `n` bytes, reads: address and length. -/
def State.pieceReads (s : State) (d : Desc) (n : Nat) : List (Nat × Nat) :=
  if movesMem d.kind then [(s.descSrc d + d.offset, n)]
  else
    match d.kind with
    | .exportOut =>
      (match s.host.exp with
      | some e => (match (s.ctx e.ctx).image with
        | some f => State.expSources { s with slow := s.ctxSlow e.ctx } f e.ccr (s.ctxLag e.ctx) e.kind d.offset (d.offset + n)
        | none => [])
      | none => [])
    | .harvest => (match s.image with
      | some f => s.expSources f s.power.harvestCcr s.job.lag 0 d.offset (d.offset + n)
      | none => [])
    | _ => []

/-- Does a range of memory hold a poisoned granule (R341, R343)? -/
def State.poisonIn (s : State) (a n : Nat) : Bool :=
  (range' 0 4).any (fun k => (range' 0 256).any (fun j =>
    s.fbit ((HUB_POISON_VALID.die k).ix j) &&
      meet a n (granuleAddr (4 * k + s.fget ((HUB_POISON_STACK.die k).ix j)) (s.fget ((HUB_POISON_GRANULE.die k).ix j))) 256))

/-- The translation fault of a piece of `n` bytes: the address and cause (R439). -/
def State.pieceFault (s : State) (d : Desc) (n : Nat) : Option (Nat × Nat) :=
  if movesMem d.kind then
    let a := s.descSrc d + d.offset
    let b := d.dst + d.offset
    match s.xlate d.ctx a false, s.xlate d.ctx b true with
    | some c, _ => some (a, c)
    | none, some c => some (b, c)
    | none, none => none
  else
    match d.kind, s.host.exp with
    | .exportOut, some e => (bufParts d.offset (d.offset + n) e.bufs 0).findSome? (fun b => (s.xlate d.ctx b.1 true).map (fun c => (b.1, c)))
    | _, _ => none

/-- Does a piece write memory that elastic traffic may not write (R42)? -/
def State.pieceBarred (s : State) (d : Desc) (n : Nat) : Bool :=
  match d.kind, s.host.exp with
  | .exportOut, some e => !s.bufsMay d.offset (d.offset + n) e.bufs
  | _, _ => false

/-- Elastic writes of a range of memory take its granules out of the correction queues (R345). -/
def State.unqueueRange (s : State) (a n : Nat) : State :=
  let keep := fun (p : Nat × Nat) => !meet a n (granuleAddr p.1 p.2) 256
  s.withHub (fun h => { h with corrQ := h.corrQ.filter keep, scrubQ := h.scrubQ.filter keep })

/-- The bytes of a piece reach their place, with the progress that registers show. -/
def State.pieceMove (s : State) (d : Desc) (n : Nat) : State :=
  if movesMem d.kind then (s.copyMem (s.descSrc d + d.offset) (d.dst + d.offset) n).unqueueRange (d.dst + d.offset) n
  else
    match d.kind with
    | .exportOut =>
      match s.host.exp with
      | some e =>
        match (s.ctx e.ctx).image with
        | some f => (s.scatter (s.exportBytes e f) (max 128 d.offset) (d.offset + n) e.bufs 0).fset HULL_EXPORT_DONE_4K
            (ceilDiv (d.offset + n) 4096)
        | none => s
      | none => s
    | .harvest => s.fset HRD_HARVEST_WRITTEN_4K (1 + ceilDiv (d.offset + n) 4096)
    | _ => s

/-- A group number that is not outstanding. -/
def State.freeGroup (s : State) : Nat :=
  ((range' s.host.priNext 512).map (fun g => g % 512)).find? (fun g => !s.host.pri.any (fun p => p.1 == g)) |>.getD 0

/-- Issue a page request group for an engine's queue while fewer than 512 are outstanding (R445). -/
def State.priRequest (s : State) (eng q addr : Nat) : State × Nat :=
  if s.host.pri.length < 512 then
    let g := s.freeGroup
    ((s.withHost (fun h => { h with pri := h.pri ++ [(g, eng, q)], priNext := (g + 1) % 512 })).emit
      (.msg "PRI_PAGE_REQUEST" [g, addr % 2 ^ 56 / 4096]), g)
  else (s, 0)

/-- A host page faults in the middle of a descriptor: it is parked (R449). -/
def State.parkDesc (s : State) (d : Desc) : State :=
  let r := s.priRequest d.eng d.q ((if inHost d.src then d.src else d.dst) + d.offset)
  let s := (r.1.setDesc d { d with status := 2, prg := r.2 }).fsetAll
    [(dmaPark DMA_PARK_OFFSET d.eng d.q, d.offset), (dmaPark DMA_PARK_PRG d.eng d.q, r.2), (dmaPark DMA_PARK_PARKED d.eng d.q, 1)]
  (s.fadd DMA_CNT_PARKS 1).setSts 6 DMA_STS_PARKED

/-- The descriptor at the head of a queue, when it can run: done ones aside; a harvest only in no-step ticks (R54). -/
def State.queueHead (s : State) (eng q : Nat) : Option Desc :=
  match s.host.descs.find? (fun d => d.eng == eng && d.q == q && d.status != 1) with
  | some d => if d.status == 0 && (d.kind != .harvest || s.noStepNow) then some d else none
  | none => none

/-- An engine serves its queues in turn, one piece each (R448). A piece that meets a poisoned granule ends its descriptor in
fault (R343, R366). -/
def State.dmaChunk (s : State) (eng : Nat) (res : DmaResult) : State :=
  let last := (assocGet s.host.turn eng).getD 3
  match ((range' (last + 1) 4).map (fun q => q % 4)).findSome? (fun q => s.queueHead eng q) with
  | none => s
  | some d =>
    let s := s.withHost (fun h => { h with turn := assocPut h.turn eng d.q })
    let n := pieceLen d
    match res with
    | .error => s.descFault d 2
    | .pageFault => if inHost d.src || inHost d.dst then s.parkDesc d else s
    | .ok =>
      if s.unitLost d.src || s.unitLost d.dst then s.descFault d 1
      else
        match s.pieceFault d n with
        | some (a, cause) =>
          ((s.record MMU_FAULT_FIRST_VALID [(MMU_FAULT_FIRST_ADDR, a), (MMU_FAULT_FIRST_CTX, d.ctx), (MMU_FAULT_FIRST_CAUSE, cause)]).setSts
            5 MMU_STS_XLATE_FAULT).descFault d 2
        | none =>
          if (s.pieceReads d n).any (fun r => s.poisonIn r.1 r.2) then s.descFault d 3
          else if s.pieceBarred d n then s.descFault d 2
          else
            let s := s.pieceMove d n
            let d' := { d with offset := d.offset + n }
            let s := s.setDesc d d'
            if d.length ≤ d'.offset then s.descDone d' else s

/-- DMA_CHUNK. -/
def execDmaChunk (at_ eng : Nat) (res : DmaResult) (s : State) : Host.Outcome State Fault Refusal :=
  .next (s.live (fun s => if s.reloading then s else (s.upTo at_).dmaChunk eng res))

/-! ### Page requests and translations (R441 to R445) -/

/-- A response to a page request group: `ok` is Success. -/
def State.priResponse (s : State) (grp : Nat) (ok : Bool) : State :=
  if s.host.priGone.contains grp then
    let s := s.withHost (fun h => { h with priGone := h.priGone.erase grp })
    (s.fadd DMA_CNT_LATE_RESPONSES 1).setSts 6 DMA_STS_LATE_RESPONSE
  else
    match s.host.pri.find? (fun p => p.1 == grp) with
    | none => s
    | some (_, eng, q) =>
      let s := s.withHost (fun h => { h with pri := h.pri.filter (fun p => p.1 != grp) })
      if ok then s.emit (.msg "ATS_TRANSLATION_REQUEST" [eng, q])
      else
        match s.host.descs.find? (fun d => d.eng == eng && d.q == q && d.status == 2 && d.prg == grp) with
        | some d => (s.fset (dmaPark DMA_PARK_PARKED eng q) 0).descFault d 2
        | none =>
          if eng < 8 && q == 3 then
            let open_ := s.host.pins.filter (fun p => !p.done)
            let s := (s.withHost (fun h => { h with pins := h.pins.filter (fun p => p.done) })).repin
            open_.foldl (fun s p => s.commandDone p.ctx p.tag 9 8 0) s
          else s

/-- PRI_RESPONSE. -/
def execPriResponse (at_ grp : Nat) (ok : Bool) (s : State) : Host.Outcome State Fault Refusal :=
  .next (s.live (fun s => (s.upTo at_).priResponse grp ok))

/-- The page size under which a translation is held (R441). -/
def atcSize (n : Nat) : Nat := if 2 ^ 30 ≤ n then 2 ^ 30 else if 2 ^ 21 ≤ n then 2 ^ 21 else 4096

/-- Does an enabled ring of a function use a range of host addresses (R442)? -/
def State.ringUses (s : State) (fn a n : Nat) : Bool :=
  [1, 2].any (fun f => (ringVector f).1 == fn && s.fbit (EVQ_CFG_EN.ix f) && inHost (s.fget (EVQ_RING_BASE.ix f)) &&
    meet a n (s.fget (EVQ_RING_BASE.ix f) % 2 ^ 56) (16 * s.ringSize f))

/-- Drop the first entry that is not pinned when the cache is full. -/
def atcRoom : List AtcEnt → List AtcEnt
  | [] => []
  | e :: r => if e.pins.isEmpty then r else e :: atcRoom r

/-- A translation enters the cache. -/
def State.atcPut (s : State) (fn addr size : Nat) : State :=
  let n := atcSize size
  let a := addr % 2 ^ 56 / n * n
  let e : AtcEnt := ⟨fn, a, n, if s.ringUses fn a n then [4] else []⟩
  s.withHost (fun h =>
    let l := h.atc.filter (fun x => !(x.fn == fn && x.addr == a && x.size == n))
    { h with atc := (if 8192 ≤ l.length then atcRoom l else l) ++ [e] })

/-- A parked descriptor proceeds. -/
def State.unpark (s : State) (eng q : Nat) : State :=
  match s.host.descs.find? (fun d => d.eng == eng && d.q == q && d.status == 2) with
  | some d => if s.host.pri.any (fun p => p.2 == (eng, q)) then s
      else (s.setDesc d { d with status := 0 }).fset (dmaPark DMA_PARK_PARKED eng q) 0
  | none => s

/-- A translation completion for an engine's queue. -/
def State.translation (s : State) (fn eng q addr size : Nat) (granted : Bool) : State :=
  if granted then ((((s.atcPut fn addr size).repin).pinsDone).unpark eng q)
  else
    let r := s.priRequest eng q addr
    match s.host.descs.find? (fun d => d.eng == eng && d.q == q && d.status == 2) with
    | some d => (r.1.setDesc d { d with prg := r.2 }).fset (dmaPark DMA_PARK_PRG eng q) r.2
    | none => r.1

/-- TRANSLATION_COMPLETION. -/
def execTranslationCompletion (at_ fn eng q addr size : Nat) (granted : Bool) (s : State) : Host.Outcome State Fault Refusal :=
  .next (s.live (fun s => (s.upTo at_).translation fn eng q addr size granted))

/-- A ring whose translation goes stops (R444). -/
def State.ringsLose (s : State) (fn a n : Nat) : State :=
  [1, 2].foldl (fun s f =>
    if (ringVector f).1 == fn && s.ringUses fn a n && meet a n (s.fget (EVQ_RING_BASE.ix f) % 2 ^ 56) (16 * s.ringSize f) then
      (s.setRing f (fun r => { r with lost := true })).setSts 5 MMU_STS_RING_LOST
    else s) s

/-- An ATS invalidation (R444): held to the next edge when it hits a pinned entry of the running context. -/
def State.atsInvalidation (s : State) (fn addr len tag : Nat) : State :=
  let hit := s.host.atc.filter (fun e => e.fn == fn && meet e.addr e.size addr len)
  let held := s.run.active && (match s.job.ctx with | some c => hit.any (fun e => e.pins.contains c) | none => false)
  let s := s.ringsLose fn addr len
  if held then
    ((s.withHost (fun h => { h with held := h.held ++ [(fn, addr, len, tag)] })).setSts 5 MMU_STS_INVAL_HELD).arrangePreempt s.tickCount 2
  else
    (s.withHost (fun h => { h with atc := h.atc.filter (fun e => !(e.fn == fn && meet e.addr e.size addr len)) })).emit
      (.msg "ATS_INVALIDATION_COMPLETE" [fn, addr, len, tag])

/-- ATS_INVALIDATION. -/
def execAtsInvalidation (at_ fn addr len tag : Nat) (s : State) : Host.Outcome State Fault Refusal :=
  .next (s.live (fun s => (s.upTo at_).atsInvalidation fn addr len tag))

/-! ### Elastic accesses of memory (R42, R340, R343, R363) -/

/-- May an elastic access take a slot of a granule's pseudo-channel on a cycle: while ticks run, one that an ELASTIC window of
the schedule takes, never a retry slot or a slot of a refresh window (R47, R330, R363)? -/
def State.elasticOpen (s : State) (stack g c : Nat) : Bool :=
  !s.run.active || (s.accessSlot (s.hubSlot c) && s.inWindow 6 stack (granPch g) (s.hubSlot c))

/-- An elastic access ends with an error to its requester; a lender counts it (R364). DESIGN CHOICE: no register holds that
count, and the model keeps it as `HubSt.lentErrors`. -/
def State.elasticError (s : State) (stack g : Nat) : State :=
  (if s.isLender then s.withHub (fun h => { h with lentErrors := h.lentErrors + 1 }) else s).emit (.msg "ELASTIC_ERROR" [stack, g])

/-- An elastic access of a granule: a read answers its data, or an error on a poisoned granule or a failed check (R340,
R343, R364); a write stores where R42 lets it. A failed write is not repeated, since retry slots serve scheduled work (R47);
it is an error too, and DESIGN CHOICE: what its granule then holds is a free value. -/
def State.elasticAccess (s : State) (stack g : Nat) (write : Option Granule) (a : Attempt) : State :=
  match write with
  | some d =>
    if !s.elasticMay (granuleAddr stack g) 256 then s
    else
      let s := s.unqueue stack g
      if a.parity then (((s.eccFailed stack g false a.lane).granuleLost stack g).elasticError stack g)
      else s.wrGranule (granuleAddr stack g) d
  | none =>
    if (s.poisonAt stack g).isSome then s.elasticError stack g
    else if attFails a then (s.eccFailed stack g (attUe a) a.lane).elasticError stack g
    else
      let n := attCorrected a
      let s := if n == 0 then s else s.eccCorrected stack g n a.lane true
      s.emit (.msg "ELASTIC_DATA" [stack, g, (attData a (s.granule stack g)).toNat])

/-- ELASTIC_WINDOW. -/
def execElasticWindow (at_ stack granule : Nat) (write : Option Granule) (a : Attempt) (s : State) :
    Host.Outcome State Fault Refusal :=
  if granOk stack granule then
    .next (s.live (fun s =>
      let c := s.mclkAt at_
      let s := s.upTo c
      if s.elasticOpen stack granule c then s.elasticAccess stack granule write a else s))
  else .fault .noSuchAddress

/-! ### The HDM window and snoops (R417 to R419) -/

/-- The base address of piece `i`. -/
def State.hdmBase (s : State) (i : Nat) : Nat :=
  s.fget (HOST_HDM_STACK.ix i) * 0x1000000000 + s.fget (HOST_HDM_BASE.ix i) * 0x40000000

/-- A write to HOST_HDMi is applied only when it leaves no two enabled pieces overlapping (R418). -/
def State.hdmWrite (s : State) (i v : Nat) : State :=
  let en := v % 2 == 1
  let base := getBits v 1 4 * 0x1000000000 + getBits v 5 6 * 0x40000000
  if en && (range' 0 4).any (fun k => k != i && s.fbit (HOST_HDM_EN.ix k) && meet base 0x400000000 (s.hdmBase k) 0x400000000) then
    s.setSts 4 HOST_STS_HDM_CONFLICT
  else s.fsetAll [(HOST_HDM_EN.ix i, v), (HOST_HDM_STACK.ix i, getBits v 1 4), (HOST_HDM_BASE.ix i, getBits v 5 6)]

/-- Does HOST_HDMi hold a base that R418 allows? One beyond it maps nothing (DESIGN CHOICE). -/
def State.hdmBaseOk (s : State) (i : Nat) : Bool :=
  s.fget (HOST_HDM_BASE.ix i) ≤ if s.fget (HOST_HDM_STACK.ix i) == 0 then 31 else 32

/-- A host access of the window reaches the memory that its piece maps, as elastic traffic (R418, R419); the window is there in
CXL modes but where CXL 1.1 came up without it (R416), and an offset in no enabled piece reaches nothing; a write lands only
where R42 lets elastic traffic write, and a read that meets a poisoned granule is answered with an error (R343). -/
def State.hdmAccess (s : State) (offset len : Nat) (write : Option (List Byte)) : State :=
  let i := offset / 0x400000000
  let a := s.hdmBase i + offset % 0x400000000
  if s.fget HOST_LINK_MODE < 4 || 4 ≤ i || s.power.hdmAbsent || !s.fbit (HOST_HDM_EN.ix i) || !s.hdmBaseOk i || !s.portsUp then s
  else
    match write with
    | some l => if s.elasticMay a l.length then (s.wrBytes a l).unqueueRange a l.length else s
    | none => if s.poisonIn a len then s.emit (.msg "HDM_ERROR" [offset, len])
      else s.emit (.msg "HDM_READ" ((s.rdBytes a len).map (fun b => b.toNat)))

/-- HDM_ACCESS. -/
def execHdmAccess (at_ offset len : Nat) (write : Option (List Byte)) (s : State) : Host.Outcome State Fault Refusal :=
  .next (s.live (fun s => (s.upTo at_).hdmAccess offset len write))

/-- SNOOP: no host line is kept, so the answer is always an invalid line (R417). -/
def execSnoop (at_ addr : Nat) (s : State) : Host.Outcome State Fault Refusal :=
  .next (s.live (fun s => if 4 ≤ s.fget HOST_LINK_MODE && s.portsUp then (s.upTo at_).emit (.msg "SNOOP_INVALID" [addr]) else s))

/-! ### Lost devices (R361, R364) -/

/-- Every transfer to a device ends with an error. -/
def State.failUnit (s : State) (p : Nat → Bool) : State :=
  (s.host.descs.filter (fun d => (p d.src || p d.dst) && d.status != 1)).foldl (fun s d => s.descFault d 1) s

/-- EXPANDER_LOST: during a job every transfer to it fails and class C is raised; `removed` says whether the device is gone. -/
def State.expanderLost (s : State) (x : Nat) (removed : Bool) : State :=
  if 4 ≤ x then s
  else
    let s := s.fset (HULL_SLOW_EXP_UP.ix x) 0
    let s := if removed then s.fsetAll [(HULL_SLOW_EXP_PRESENT.ix x, 0), (HULL_SLOW_EXP_GEN.ix x, 0), (HULL_SLOW_EXP_CAPACITY.ix x, 0)] else s
    if s.job.ctx.isSome then
      let s := (s.slowFirst 0 0 x 1).classC 0 HULL_SLOW_STS_EXPANDER_LOST
      s.failUnit (fun a => 0x100000000000 ≤ a && a < 0x180000000000 && (a - 0x100000000000) / 0x20000000000 == x)
    else s

/-- EXPANDER_LOST. -/
def execExpanderLost (at_ expander : Nat) (removed : Bool) (s : State) : Host.Outcome State Fault Refusal :=
  .next (s.live (fun s => (s.upTo at_).expanderLost expander removed))

/-- LENDER_LOST: a borrower raises class C and its transfers to the lender fail. -/
def State.lenderLost (s : State) (l : Nat) : State :=
  if s.job.ctx.isSome && getBits (s.fget HULL_SLOW_LEND_BORROWING) l 1 == 1 then
    let s := s.withHost (fun h => { h with lendersLost := l :: h.lendersLost.filter (fun x => x != l) })
    let s := (s.slowFirst 0 1 l 1).classC 0 HULL_SLOW_STS_LENDER_LOST
    s.failUnit (fun a => 0x200000000000 ≤ a && a < 0x300000000000 && (a - 0x200000000000) / 0x10000000000 == l)
  else s

/-- LENDER_LOST. -/
def execLenderLost (at_ lender : Nat) (s : State) : Host.Outcome State Fault Refusal :=
  .next (s.live (fun s => (s.upTo at_).lenderLost lender))

end Sys2Proof.Machine
end

