-- ==== Sys2Proof/Machine/Mgmt.lean ====
section
/-! DEFINITION. Management: the messages of PLDM and SPDM, MCTP and the PF0 mailbox (R462 to R464, R476, R623). -/

namespace Sys2Proof.Machine

/-! ### Answers (R462, R464) -/

/-- Draw `n` free values. -/
def State.draw (s : State) : Nat → List Nat × State
  | 0 => ([], s)
  | n + 1 =>
    let r := s.drawn.draw n
    (s.freeVal :: r.1, r.2)

/-- A measurement (R464): 1 the boot image and 2 the running firmware are free values, 3 to 6 the content hashes of the
contexts' images, 7 HULL_ID. -/
def State.measurement (s : State) (index : Nat) : List Nat × State :=
  if index == 1 || index == 2 then s.draw 1
  else if 3 ≤ index && index ≤ 6 then
    match (s.ctx (index - 3)).image with
    | some f => ([imgHash f], s)
    | none => ([0], s)
  else if index == 7 then ([(s.regGet HULL_ID.base).toNat], s) else ([], s)

/-- The answer to a message, and the state after the free values it took. The first number names the answer: the request
is supported (1) or not (0); a reading of a sensor that has none yet, and what the standards leave to the device, is free. -/
def State.mgmtAnswer (s : State) (m : MgmtMsg) : List Nat × State :=
  match m with
  | .pldmBase _ => let r := s.draw 1; (1 :: r.1, r.2)
  | .pldmSensor id =>
    match assocGet s.power.sensors id with
    | some v => ([1, v], s)
    | none => let r := s.draw 1; (1 :: r.1, r.2)
  | .pldmState _ => let r := s.draw 1; (1 :: r.1, r.2)
  | .pldmOther _ => ([0], s)
  | .spdmVersion => ([1, 0x12, 0x13], s)
  | .spdmCapabilities => let r := s.draw 1; (1 :: r.1, r.2)
  | .spdmAlgorithms => ([1, 384, 384], s)
  | .spdmDigests => let r := s.draw 1; (1 :: r.1, r.2)
  | .spdmCertificate => let r := s.draw 1; (1 :: r.1, r.2)
  | .spdmChallenge n => let r := s.draw 1; (1 :: n :: r.1, r.2)
  | .spdmMeasurements i => let r := s.measurement i; (1 :: r.1, r.2)
  | .spdmSession => ([0], s)

/-- The module's static address on a sideband transport: 0x30 + MADDR for I3C, 0x50 + MADDR for SMBus (R617). -/
def State.sideAddr (s : State) (transport : Nat) : Nat := (if transport == 0 then 0x30 else 0x50) + s.power.maddr

/-- Is a message that comes in on a transport this module's? On a sideband transport its target address tells (R617). -/
def State.addressed (s : State) (port : MgmtPort) : Bool :=
  port.transport == 2 || (port.transport < 2 && port.addr == s.sideAddr port.transport)

/-- MCTP_MESSAGE: the firmware answers this module's messages on the transport that they came in on. -/
def execMctpMessage (at_ : Nat) (port : MgmtPort) (msg : MgmtMsg) (s : State) : Host.Outcome State Fault Refusal :=
  .next (s.live (fun s =>
    if !s.portsUp || !s.addressed port then s
    else
      let r := (s.upTo at_).mgmtAnswer msg
      r.2.emit (.msg "MCTP_ANSWER" (port.transport :: r.1))))

/-! ### The mailbox (R463) -/

/-- A write of 1 to HULL_MBOX.GO. -/
def State.mailboxGo (s : State) : State :=
  if s.fbit HULL_MBOX_BUSY then s.fset HULL_MBOX_COLLISION 1 else s.fset HULL_MBOX_BUSY 1

/-- MAILBOX_GO. -/
def execMailboxGo (at_ : Nat) (s : State) : Host.Outcome State Fault Refusal :=
  .next (s.live (fun s => (s.upTo at_).mailboxGo))

/-- One byte of the mailbox buffers, by hull-window offset. -/
def State.mboxByte (s : State) (a : Nat) : Byte := tabGet memDefault s.host.mbox a

/-- Write one byte of the mailbox buffers. -/
def State.mboxPut (s : State) (a : Nat) (b : Byte) : State :=
  s.withHost (fun h => { h with mbox := tabPut memDefault h.mbox a b })

/-- Write `n` bytes of free values into the response buffer. -/
def State.mboxFree (s : State) (a : Nat) : Nat → State
  | 0 => s
  | n + 1 => ((s.mboxPut a (BitVec.ofNat 8 s.freeVal)).drawn).mboxFree (a + 1) n

/-- The hull answers the request `msg` that the request buffer holds. The spec gives the message no layout: the answer
leaves as a message, and its bytes and their number are free values. -/
def State.mailboxDone (s : State) (msg : MgmtMsg) : State :=
  if s.fbit HULL_MBOX_BUSY then
    let r := s.mgmtAnswer msg
    let len := 1 + r.2.freeVal % 4096
    ((r.2.drawn.mboxFree 0x2000 len).fsetAll [(HULL_MBOX_RSP_LEN, len), (HULL_MBOX_BUSY, 0), (HULL_MBOX_DONE, 1)]).emit
      (.msg "MAILBOX_ANSWER" r.1)
  else s

/-- MAILBOX_DONE. -/
def execMailboxDone (at_ : Nat) (msg : MgmtMsg) (s : State) : Host.Outcome State Fault Refusal :=
  .next (s.live (fun s => (s.upTo at_).mailboxDone msg))

end Sys2Proof.Machine
end

