-- ==== Sys2Proof/Machine/Bench.lean ====
section
/-! DEFINITION. The bench function: its commands, field close and the bench trace port (18_bench.md, R584 to R598). -/

namespace Sys2Proof.Machine

/-- Is the module closed (R597)? -/
def State.closed (s : State) : Bool := s.fbit HULL_ID_FIELD_CLOSED

/-- No context is RUNNING or PREEMPTED (R585). -/
def State.benchFree (s : State) : Bool :=
  !s.job.ctx.isSome && s.ctxs.all (fun c => c.state == .empty || c.state == .loaded)

/-- Every context is EMPTY, none of them loading. -/
def State.allEmpty (s : State) : Bool := s.ctxs.all (fun c => c.state == .empty && !c.loading)

/-- A bench command completes with a RESULT (R586). -/
def State.benchResult (s : State) (r : Nat) : State :=
  s.fsetAll [(BENCH_CMD_BUSY, 0), (BENCH_CMD_RESULT, r), (BENCH_STS_CMD_DONE, 1)]

/-! ### Margins and lanes (R587, R588) -/

/-- Two free values as eye height and width, and what the lane map knows of the position. -/
def State.marginOut (s : State) (phys : Nat) (retired : Bool) : State :=
  let s := (s.fset BENCH_MARGIN_HEIGHT s.freeVal).drawn
  let s := (s.fset BENCH_MARGIN_WIDTH s.freeVal).drawn
  (s.fsetAll [(BENCH_MARGIN_PHYS, phys), (BENCH_MARGIN_RETIRED, retired.toNat)]).benchResult 0

/-- The lane key that an argument of OP 1 or 3 names. -/
def argHbm (arg : Nat) : Nat := laneKey (getBits arg 0 4) (getBits arg 4 5) (getBits arg 9 7)

/-- MARGIN_HBM. -/
def State.marginHbm (s : State) (arg : Nat) : State :=
  let key := argHbm arg
  let spare := match assocGet s.hub.laneMap key with | some j => j + 1 | none => 0
  s.marginOut (Config.physLane key spare) (s.hub.laneBad.contains key)

/-- MARGIN_LINK: lane 2 is the spare. -/
def State.marginLink (s : State) (arg : Nat) : State :=
  let lane := getBits arg 5 2
  let k := s.link (getBits arg 0 4)
  let place := (getBits arg 4 1, lane)
  if lane == 3 then s.benchResult 7
  else s.marginOut (if k.spareFor.contains place then 2 else lane) (k.laneBad.contains place)

/-- LANE_RETURN_HBM: the lane is again a free spare, its position still served by the spare that replaced it until the next
training; the hull writes a LANE record. -/
def State.laneReturnHbm (s : State) (arg : Nat) (o : Outer) : State :=
  let key := argHbm arg
  if !s.benchFree then s.benchResult 2
  else if !s.hub.laneBad.contains key then s.benchResult 7
  else
    let f := chanFld HUB_LANE_DATA_SPARES (getBits arg 0 4) (getBits arg 4 5)
    let s := s.withHub (fun h => { h with laneBad := h.laneBad.erase key })
    ((s.fset f (s.fget f - 1)).record' 3 o.cartFails o.flashFails).benchResult 0

/-- LANE_RETURN_LINK. -/
def State.laneReturnLink (s : State) (arg : Nat) (o : Outer) : State :=
  let l := getBits arg 0 4
  let place := (getBits arg 4 1, getBits arg 5 2)
  if !s.benchFree then s.benchResult 2
  else if !(s.link l).laneBad.contains place then s.benchResult 7
  else
    let s := s.withLink l (fun (k : LinkSt) => { k with laneBad := k.laneBad.erase place })
    let s := if place.1 == 1 then s.fset (lnkFld LNK_STATE_SPARE_RX l) 0 else s
    (s.record' 3 o.cartFails o.flashFails).benchResult 0

/-! ### Repair (R589) -/

/-- The key of a bank: stack, channel, pseudo-channel and bank of the argument. -/
def argBank (arg : Nat) : Nat := getBits arg 0 15

/-- Repair resources used in a bank. -/
def State.pprOf (s : State) (bank : Nat) : Nat := (assocGet s.hub.pprUsed bank).getD 0

/-- Fewest resources left in any bank of a stack. -/
def State.pprLeft (s : State) (stack : Nat) : Nat :=
  (s.hub.pprUsed.filter (fun e => e.1 % 16 == stack)).foldl (fun m e => min m (Config.pprPerBank - e.2)) Config.pprPerBank

/-- Every poison entry of a stack is cleared. -/
def State.poisonClear (s : State) (stack : Nat) : State :=
  let k := stack / 4
  let mine (s : State) (j : Nat) : Bool :=
    s.fbit ((HUB_POISON_VALID.die k).ix j) && s.fget ((HUB_POISON_STACK.die k).ix j) == stack % 4
  let n := ((range' 0 256).filter (mine s)).length
  let s := (range' 0 256).foldl (fun s j => if mine s j then s.regPut ((HUB_POISON.die k).ix j).base 0 else s) s
  (s.fset (HUB_POISON_PTR_COUNT.die k) (s.fget (HUB_POISON_PTR_COUNT.die k) - n)).withHub (fun h =>
    { h with hit := h.hit.filter (fun p => p.1 != stack) })

/-- PPR: one hard repair of a row, after which the stack's interface is trained again. -/
def State.ppr (s : State) (arg : Nat) : State :=
  let stack := getBits arg 0 4
  if !s.allEmpty then s.benchResult 2
  else if Config.pprPerBank ≤ s.pprOf (argBank arg) then s.benchResult 8
  else
    let s := s.withHub (fun h => { h with pprUsed := assocPut h.pprUsed (argBank arg) (s.pprOf (argBank arg) + 1) })
    let lost := (Config.rowGranules stack (getBits arg 4 5) (getBits arg 9 1) (getBits arg 10 5) (getBits arg 15 18)).filter
      (fun g => decide (g < stackGranules))
    let s := (lost.foldl (fun (s : State) g => s.granuleLost stack g) s).poisonClear stack
    let s := s.withHub (fun h => { h with laneMap := h.laneMap.filter (fun p => p.1 / 2 ^ 20 != stack || h.laneBad.contains p.1) })
    (s.fset FUSE_STS_PPR_LEFT (min 15 (s.pprLeft stack))).benchResult 0

/-! ### Scan, enrolment and field close (R590, R596, R597) -/

/-- SCAN_ENTER: a group's clocks stop until a warm or cold reset. -/
def State.scanEnter (s : State) (arg : Nat) : State :=
  let g := getBits arg 0 3
  if !s.allEmpty || s.fget BENCH_CTL_SCAN_GROUP != 7 then s.benchResult 2
  else if 4 < g then s.benchResult 7
  else (s.fsetAll [(BENCH_CTL_SCAN_GROUP, g), (BENCH_STS_SCAN_ACTIVE, 1)]).benchResult 0

/-- ENROLL: bytes 0 to 47 of the fuse buffer become the owner-key digest, once. -/
def State.enroll (s : State) : State :=
  if s.fbit FUSE_STS_OWNER_ENROLLED then s.benchResult 6
  else
    let s := s.withBench (fun b => { b with owner := some (b.fuseBuf.setWidth 384) })
    (s.fsetAll [(FUSE_STS_OWNER_ENROLLED, 1), (HULL_ID_OWNER_ENROLLED, 1)]).benchResult 0

/-- FIELD_CLOSE: the key's digest and the signature check outside the model (`sigOk`); every attempt draws a new nonce. -/
def State.fieldClose (s : State) (o : Outer) : State :=
  if !s.benchFree then s.benchResult 2
  else if !s.fbit FUSE_STS_OWNER_ENROLLED then s.benchResult 4
  else if !o.sigOk then s.newNonce.benchResult 5
  else
    let s := (s.newNonce.benchResult 0).fset FUSE_STS_CLOSE_ELEMENTS (Nat.lor (s.fget FUSE_STS_CLOSE_ELEMENTS) (o.elements % 8))
    if s.fget FUSE_STS_CLOSE_ELEMENTS == 0 then s else s.fset HULL_ID_FIELD_CLOSED 1

/-! ### GO (R586) -/

/-- GO with an OP and the argument that stands in BENCH_ARG: ignored while BUSY, RESULT 3 on a closed module. The RESULT of
an OP outside R586 is a free value. -/
def State.benchGo (s : State) (op : Nat) (o : Outer) : State :=
  let arg := s.fget BENCH_ARG_ARG
  if s.fbit BENCH_CMD_BUSY then s
  else if s.closed then s.benchResult 3
  else match op with
    | 1 => s.marginHbm arg
    | 2 => s.marginLink arg
    | 3 => s.laneReturnHbm arg o
    | 4 => s.laneReturnLink arg o
    | 5 => s.ppr arg
    | 6 => s.scanEnter arg
    | 7 => s.enroll
    | 8 => s.fieldClose o
    | _ => (s.benchResult s.freeVal).drawn

/-- The host writes BENCH_ARG, then OP with GO. -/
def State.benchCmd (s : State) (op arg : Nat) (o : Outer) : State :=
  (s.fsetAll [(BENCH_ARG_ARG, arg), (BENCH_CMD_OP, op)]).benchGo op o

/-- An outside in which nothing fails. -/
def outerOk : Outer := ⟨false, false, true, true, 7⟩

/-- MARGIN_HBM. -/
def execMarginHbm (arg : Word64) (s : State) : Host.Outcome State Fault Refusal :=
  .next (s.live (fun s => s.benchCmd 1 arg.toNat outerOk))

/-- MARGIN_LINK. -/
def execMarginLink (arg : Word64) (s : State) : Host.Outcome State Fault Refusal :=
  .next (s.live (fun s => s.benchCmd 2 arg.toNat outerOk))

/-- LANE_RETURN_HBM. -/
def execLaneReturnHbm (arg : Word64) (outer : Outer) (s : State) : Host.Outcome State Fault Refusal :=
  .next (s.live (fun s => s.benchCmd 3 arg.toNat outer))

/-- LANE_RETURN_LINK. -/
def execLaneReturnLink (arg : Word64) (outer : Outer) (s : State) : Host.Outcome State Fault Refusal :=
  .next (s.live (fun s => s.benchCmd 4 arg.toNat outer))

/-- PPR. -/
def execPpr (arg : Word64) (s : State) : Host.Outcome State Fault Refusal :=
  .next (s.live (fun s => s.benchCmd 5 arg.toNat outerOk))

/-- SCAN_ENTER. -/
def execScanEnter (arg : Word64) (s : State) : Host.Outcome State Fault Refusal :=
  .next (s.live (fun s => s.benchCmd 6 arg.toNat outerOk))

/-- ENROLL of the digest in the fuse buffer. -/
def execEnroll (s : State) : Host.Outcome State Fault Refusal :=
  .next (s.live (fun s => s.benchCmd 7 0 outerOk))

/-- FIELD_CLOSE. -/
def execFieldClose (outer : Outer) (s : State) : Host.Outcome State Fault Refusal :=
  .next (s.live (fun s => s.benchCmd 8 0 outer))

/-! ### The bench trace port (R595) -/

/-- A copy of a selected signal (source 0 to 4 of TRACE_SEL) arrives at the port: it leaves as a record stamped with the
tick count and cycle, a gap record ahead of it after drops, or is dropped when the port's buffer is full. The record's own
content has no format in the spec. -/
def State.traceRecord (s : State) (source data : Nat) (full : Bool) : State :=
  if s.closed || !s.fbit BENCH_CTL_TRACE_EN || getBits (s.fget BENCH_CTL_TRACE_SEL) source 1 == 0 then s
  else if full then (s.withBench (fun b => { b with dropped := b.dropped + 1 })).fset BENCH_STS_TRACE_DROP 1
  else
    let s := if s.bench.dropped == 0 then s
      else (s.emit (.msg "BTR_GAP" [s.bench.dropped])).withBench (fun b => { b with dropped := 0 })
    s.emit (.msg "BTR_RECORD" [source, s.tickCount % 2 ^ 32, s.relCyc, data])

/-- TRACE_RECORD. -/
def execTraceRecord (at_ source data : Nat) (full : Bool) (s : State) : Host.Outcome State Fault Refusal :=
  .next (s.live (fun s => (s.upTo at_).traceRecord source data full))

end Sys2Proof.Machine
end

