-- ==== Sys2Proof/Machine/RegAccess.lean ====
section
/-! DEFINITION. Register accesses: what each register reads as, the router's order and times, aliases, access errors, the
actions of W1P fields, and captures (R8, R9, R513 to R518, R521, R522, R566 to R583). -/

namespace Sys2Proof.Machine

/-! ### Power states as the router sees them (R525 to R528, R578, R590) -/

/-- The power state that decides what is on: the one being entered, or left, counts (R578). -/
def State.powerNow (s : State) : Nat :=
  match s.power.trans with
  | some (p, _) => if p == 0 then s.fget PWR_STATE_STATE else p
  | none => s.fget PWR_STATE_STATE

/-- Are the compute, solver and link dies off (FALLOW, DORMANT)? -/
def State.diesOff (s : State) : Bool := decide (2 ≤ s.powerNow)

/-- The windows of a scan chain group (R590). -/
def scanWindow (g w : Nat) : Bool :=
  match g with
  | 0 => decide (20 ≤ w) && decide (w < 28)
  | 1 => decide (16 ≤ w) && decide (w < 20)
  | 2 => decide (8 ≤ w) && decide (w < 12)
  | 3 => decide (12 ≤ w) && decide (w < 16)
  | 4 => decide (w < 8) && w != 2
  | _ => false

/-- Does a window read as powered off? After a class E stop every window but the hull's does (R498). -/
def State.windowOff (s : State) (w : Nat) : Bool :=
  if s.runs then (decide (12 ≤ w) && s.diesOff) || scanWindow (s.fget BENCH_CTL_SCAN_GROUP) w else w != 0

/-! ### Fields that other state holds -/

/-- PWR_DOM0 to PWR_DOM4 (R525, R563). In DORMANT the hub dies keep their die-logic domain. -/
def State.domOn (s : State) (i : Nat) : Nat :=
  let all := if s.diesOff then 0 else 1
  if i < 3 then all * (2 ^ 64 - 1)
  else if i == 3 then all * (2 ^ 40 - 1) + 2 ^ 40 * (if s.powerNow == 3 then 0x820820 else 2 ^ 24 - 1)
  else all * (2 ^ 20 - 1) + 63 * 2 ^ 20

/-- The number of ones of a number below 2^9. -/
def ones9 (m : Nat) : Nat := ((range' 0 9).filter (fun i => getBits m i 1 == 1)).length

/-- The powered pods of the 16 tiles that a PWR_PODS register shows. -/
def State.podsOn (s : State) (i : Nat) : Nat :=
  if s.diesOff then 0
  else (range' 0 16).foldl (fun v j => v + (9 - ones9 (s.fget (BENCH_POD_MAP_RETIRED.ix (16 * i + j)))) * 2 ^ (4 * j)) 0

/-- The page whose block a key belongs to: a window, or 28 + n for tile n; 200, no page, for PF3's registers. -/
def pageOfKey (key : Nat) : Nat :=
  let w := key / 0x1000000
  let o := key % 0x1000000
  if 32 ≤ w then 200
  else if 20 ≤ w && w < 28 && 0x100000 ≤ o && o < 0x380000 then 28 + (w - 20) * 10 + (o - 0x100000) / 0x40000 else w

/-- A running job's stage and iteration on a cracker (R269). -/
def State.crackerViews (s : State) (die c : Nat) : List (Fld × Nat) :=
  match s.slvOn die c with
  | none => []
  | some j =>
    let sc := s.scycAt s.now - j.start
    let stage := (((j.out.stages.filter (fun x => decide (x.1 ≤ sc))).getLast?).getD (0, 1)).2
    let iter := (j.out.iterEnds.filter (fun x => decide (x.1 ≤ sc))).length
    [((SLV_CRK_STAGE.die die).ix c, stage), ((SLV_CRK_ITER.die die).ix c, iter)]

/-- Instructions that a tile's buffer holds (R146): of the stream of the running step, those not yet issued. DEDUCED (R113
gives the refill no rule): the buffer is kept as full as the stream allows. -/
def State.bufFill (s : State) (n : Nat) : Nat :=
  match s.image with
  | some f =>
    if s.streamRuns n then
      let l := (f.streams.filter (fun x => x.cls == modClass (imgModule f (s.fget HULL_ORCH_MODULE)) && x.tile == n)).map
        (fun x => x.words.length)
      min 4096 (l.headD 0 - s.seqNext n)
    else 0
  | none => 0

/-- The fields of ATTEND that the timer holds (R521). -/
def State.attendViews (s : State) (p : Nat) : List (Fld × Nat) :=
  let a := s.attendOf p
  let f := a.first.getD (0, 0)
  [(ATTEND_RUNNING.pageOf p, a.expiry.isSome.toNat),
   (ATTEND_REMAIN.pageOf p, match a.expiry with | some c => (c - s.now) / 2000000 | none => 0),
   (ATTEND_OFFSET.pageOf p, f.1), (ATTEND_BIT.pageOf p, f.2)]

/-- The hull's fields that the control record, the contexts and the tick hold. -/
def State.hullViews (s : State) (key : Nat) : List (Fld × Nat) :=
  let job := s.job.ctx.isSome
  let c := s.ccr
  if !job && (key == COMMIT_BANK.base || key == COMMIT_T.base || key == COMMIT_STEP.base || key == COMMIT_HOLD.base ||
      key == COMMIT_LOSS0.base || key == COMMIT_LOSS1.base) then []
  else if key == COMMIT_BANK.base then [(COMMIT_BANK_BANK_PARITY, c.parity.toNat), (COMMIT_BANK_REPLAYS, c.replays)]
  else if key == COMMIT_T.base then [(COMMIT_T_T, c.t)]
  else if key == COMMIT_STEP.base then [(COMMIT_STEP_STEP, c.step)]
  else if key == COMMIT_HOLD.base then [(COMMIT_HOLD_IN_FORCE, c.hold.toNat)]
  else if key == COMMIT_LOSS0.base then [(COMMIT_LOSS0_MEAN, c.mean)]
  else if key == COMMIT_LOSS1.base then [(COMMIT_LOSS1_VAR, c.var), (COMMIT_LOSS1_COUNT, c.count)]
  else if HULL_CTX.base ≤ key && key < HULL_CTX.base + 32 then
    let i := (key - HULL_CTX.base) / 8
    [(HULL_CTX_STATE.ix i, if (s.ctx i).loading then 0 else ctxCode (s.ctx i).state)]
  else []

/-- The fields of a register that are computed when it is read, with their values. -/
def State.views (s : State) (key : Nat) : List (Fld × Nat) :=
  let w := key / 0x1000000
  match locate key with
  | some (.page, 0) => s.attendViews (pageOfKey key)
  | some (.tile, 0x18) =>
    let n := pageOfKey key - 28
    [(TILE_SEQ_BUF_FILL.tile n, s.bufFill n)]
  | some (.tile, 0x20) =>
    let n := pageOfKey key - 28
    [(TILE_SPARE_SHADOW_ACTIVE.tile n, (s.shadowActive n).toNat)]
  | some (.hull, _) => s.hullViews key
  | some (.tick, _) =>
    if key == TICK_CYCLE.base then [(TICK_CYCLE_CYCLE, s.relCyc)]
    else if key == TICK_PLAN.base then
      [(TICK_PLAN_PHASE, match s.curPlan with | some p => if s.run.active then planPhaseAt p s.cyc else 0 | none => 0)]
    else []
  | some (.pwr, o) =>
    if 0x100 ≤ o && o < 0x128 then [(PWR_DOM_ON.ix ((o - 0x100) / 8), s.domOn ((o - 0x100) / 8))]
    else if 0x140 ≤ o && o < 0x168 then [(PWR_PODS.ix ((o - 0x140) / 8), s.podsOn ((o - 0x140) / 8))]
    else []
  | some (.mmu, _) =>
    if key == MMU_ATC.base then
      [(MMU_ATC_ENTRIES, s.host.atc.length), (MMU_ATC_PINNED, (s.host.atc.filter (fun e => !e.pins.isEmpty)).length),
       (MMU_ATC_HOLDING, (!s.host.held.isEmpty).toNat), (MMU_ATC_PRI_OUT, s.host.pri.length)]
    else []
  | some (.evq, o) =>
    if key == EVQ_CMD_CREDIT.base then [(EVQ_CMD_CREDIT_FREE, 1023 - (s.fifo 0).items.length)]
    else if 0x120 ≤ o && o < 0x220 && (o - 0x120) % 64 == 0 then
      let f := (o - 0x120) / 64
      [(EVQ_LEVEL_WORDS.ix f, (s.fifo f).items.length), (EVQ_LEVEL_PACKETS.ix f, (s.fifo f).packets)]
    else []
  | some (.slv, o) =>
    if 0x200 ≤ o && o < 0x240 then s.crackerViews (w - 16) ((o - 0x200) / 8) else []
  | _ => []

/-- What a read of the register at a key samples. -/
def State.regValue (s : State) (key : Nat) : Word64 :=
  BitVec.ofNat 64 ((s.views key).foldl (fun v f => putBits v f.1.lo f.1.wd f.2) (s.regGet key).toNat)

/-- The keys of the registers with computed fields, fault pages aside. -/
def viewKeys : List Nat :=
  [COMMIT_BANK.base, COMMIT_T.base, COMMIT_STEP.base, COMMIT_HOLD.base, COMMIT_LOSS0.base, COMMIT_LOSS1.base,
   TICK_CYCLE.base, TICK_PLAN.base, MMU_ATC.base, EVQ_CMD_CREDIT.base] ++
  (range' 0 4).map (fun i => HULL_CTX.base + 8 * i) ++ (range' 0 4).map (fun i => EVQ_LEVEL.base + 64 * i) ++
  (range' 0 5).map (fun i => PWR_DOM.base + 8 * i) ++ (range' 0 5).map (fun i => PWR_PODS.base + 8 * i) ++
  (range' 0 80).map (fun n => (TILE_SEQ.tile n).base) ++ (range' 0 80).map (fun n => (TILE_SPARE.tile n).base) ++
  (range' 0 4).flatMap (fun k => (range' 0 8).map (fun c => ((SLV_CRK.die k).ix c).base))

/-! ### Captures (R513 to R518, R615) -/

/-- The value of a register's _SNAP copy. -/
def State.snapValue (s : State) (key : Nat) : Word64 :=
  let p := pageOfKey key
  if !s.fbit (SNAP_ID_VALID.pageOf p) then 0
  else if s.fbit (SNAP_ID_OFF.pageOf p) then ~~~0
  else tabGet resetOf s.snaps key

/-- Latch every register, and give every block the capture's ID. -/
def State.latch (s : State) (id : Nat) : State :=
  let t := viewKeys.foldl (fun t k => tabPut resetOf t k (s.regValue k)) s.regs
  let s := { s with snaps := t }
  (range' 0 108).foldl (fun s p => s.fsetAll [(SNAP_ID_ID.pageOf p, id), (SNAP_ID_VALID.pageOf p, 1),
    (SNAP_ID_OFF.pageOf p, (s.windowOff (pageWindow p)).toNat)]) s

/-- A capture latches on the present cycle with its trigger sources. -/
def State.captureLatch (s : State) (src : Nat) : State :=
  let orch := getBits src 4 1 == 1
  let id := if orch then 2 ^ 31 + s.tickCount % 2 ^ 31 else s.cap.localCount % 2 ^ 31
  let s := if orch then s else { s with cap := { s.cap with localCount := s.cap.localCount + 1 } }
  let s := s.latch id
  let s := s.fsetAll [(HULL_CAPTURE_ID_ID, id), (HULL_CAPTURE_ID_SOURCES, src),
    (HULL_CAPTURE_ID_HELD, s.fget HULL_CAPTURE_CFG_HOLD), (HULL_CAPTURE_CYC_CYCLE, s.relCyc),
    (HULL_CAPTURE_CYC_TICK, if s.run.active then s.tickCount else 0)]
  let s := s.setSts 0 HULL_FAULT_STS_CAPTURE_TAKEN
  let s := s.trace 0x80 s.evCtx (id * 2 ^ 48 + src % 32 * 2 ^ 80 + s.relCyc % 2 ^ 40 * 2 ^ 85)
  (s.withPower (fun p => { p with captureOut := s.now + 64 })).emit (.captureOut s.now)

/-- The earliest pending capture. -/
def capFirst : List (Nat × Nat) → Option (Nat × Nat)
  | [] => none
  | p :: r => match capFirst r with
    | some q => some (if q.1 < p.1 then q else p)
    | none => some p

/-- The next capture cycle comes: a capture under a hold is missed (R516). -/
def State.captureNext (s : State) : State :=
  match capFirst s.cap.pend with
  | none => s
  | some p =>
    let s := (s.upTo p.1)
    let s := { s with cap := { s.cap with pend := s.cap.pend.erase p } }
    if s.fbit HULL_CAPTURE_CFG_HOLD && s.fbit HULL_CAPTURE_ID_HELD then
      (s.fadd HULL_CAPTURE_ID_MISSED 1).setSts 0 HULL_FAULT_STS_CAPTURE_MISSED
    else s.captureLatch p.2

/-- CAPTURE: the earliest capture that waits latches on its cycle. -/
def execCapture (s : State) : Host.Outcome State Fault Refusal := .next (s.live (fun s => s.captureNext))

/-! ### Access errors (R583) -/

/-- The status bit of a cause: 0 OFF, 1 ALIAS, 2 LOCKED, 3 SIZE, 4 UNMAPPED, 5 RELOAD_HELD. -/
def accSts (cause : Nat) : Fld := { HULL_ACC_STS_OFF with lo := cause }

/-- Flag an access. PF3 has no FUNCTION code: the field is a free value for it. -/
def State.accErr (s : State) (cause via off : Nat) (write : Bool) : State :=
  let fn := if via < 4 then via else s.freeVal
  let s := if via < 4 then s else s.drawn
  let s := s.record HULL_ACC_FIRST_VALID
    [(HULL_ACC_FIRST_OFFSET, off), (HULL_ACC_FIRST_FUNCTION, fn), (HULL_ACC_FIRST_CAUSE, cause),
     (HULL_ACC_FIRST_WRITE, write.toNat), (HULL_ACC_FIRST_TICK, if s.job.ctx.isSome then s.tickCount else 0)]
  let s := s.fadd (if cause == 0 then HULL_ACC_CNT_OFF else if cause == 5 then HULL_ACC_CNT_HELD else HULL_ACC_CNT_REFUSED) 1
  s.setSts 0 (accSts cause)

/-! ### Reading and writing one register (R8, R9, R571 to R574) -/

/-- Clear a register's RC fields; those of PWR_RESTORE_STS show "none since the last read" (R563). -/
def State.clearRC (s : State) (key : Nat) : State :=
  match findReg key with
  | some d =>
    if key == PWR_RESTORE_STS_KIND.base then s.regPut key 0
    else s.regPut key (BitVec.ofNat 64 (clearFields (fun f => f.acc == .rc) d.fields (s.regGet key).toNat))
  | none => s

/-- RWL fields are locked while any context holds an image, until a reset clears them (R8). -/
def State.locked (s : State) : Bool := s.ctxs.any (fun c => c.image.isSome) && !s.router.rwlOpen

/-- What a view does to a field: 0 normal, 1 set, 2 clear, 3 toggle (R571). -/
def viewOp (view wd old v : Nat) : Nat :=
  if view == 0 then v
  else if view == 1 then Nat.lor old v
  else if view == 2 then Nat.land old (2 ^ wd - 1 - v % 2 ^ wd)
  else Nat.xor old v

/-- The register with its writable fields written. -/
def writeFields (view : Nat) (locked : Bool) (v : Nat) : List FieldDesc → Nat → Nat
  | [], x => x
  | f :: fs, x =>
    let can := f.acc == .rw || (f.acc == .rwl && !locked)
    writeFields view locked v fs (if can then putBits x f.lo f.wd (viewOp view f.wd (getBits x f.lo f.wd) (getBits v f.lo f.wd)) else x)

/-- Store the written fields; a clock source, an HDM piece, a zero timeout and a reserved target have their own rules
(R59, R67, R418, R521, R563). -/
def State.storeWrite (s : State) (key new : Nat) : State :=
  if key == TICK_CLKSRC.base then s.clksrcWrite (new % 32)
  else if HOST_HDM_EN.base ≤ key && key < HOST_HDM_EN.base + 32 then s.hdmWrite ((key - HOST_HDM_EN.base) / 8) new
  else match locate key with
    | some (.page, 8) => if new % 65536 == 0 then s else s.regPut key (BitVec.ofNat 64 new)
    | _ =>
      if key == PWR_STATE_GO.base && 5 ≤ getBits new 3 3 then s else s.regPut key (BitVec.ofNat 64 new)

/-- The actions of the W1P fields that `v` writes 1 to. -/
def State.pulses (s : State) (key v : Nat) (o : Outer) : State :=
  let bit (f : Fld) : Bool := getBits v f.lo 1 == 1
  let page := pageOfKey key
  match locate key with
  | some (.page, 0) => if bit ATTEND_ACK then s.attendAck page else s
  | some (.slv, _) =>
    if key % 0x1000000 == SLV_PIVOT_PTR_CLEAR.base % 0x1000000 && bit SLV_PIVOT_PTR_CLEAR then s.pivotLogClear (page - 16) else s
  | some (.hrd, _) => if key == HRD_CMD_GO.base && bit HRD_CMD_GO then s.hrdGo (s.fget HRD_CMD_OP) o.readOk else s
  | some (.pwr, _) =>
    if key == PWR_STATE_GO.base && bit PWR_STATE_GO then s.powerGo (s.fget PWR_STATE_TARGET) o.cartFails o.flashFails
    else if key == CAP_CFG_OVERRIDE.base && bit CAP_CFG_OVERRIDE then s.capOverride else s
  | some (.bench, _) => if key == BENCH_CMD_GO.base && bit BENCH_CMD_GO then s.benchGo (s.fget BENCH_CMD_OP) o else s
  | some (.hull, _) =>
    if key == COMMIT_HOLD.base then (if bit COMMIT_HOLD_RELEASE then s.holdRelease else s)
    else if key == HULL_MBOX.base then (if bit HULL_MBOX_GO then s.mailboxGo else s)
    else if key == HULL_CAPTURE_AT1.base then (if bit HULL_CAPTURE_AT1_SEND then s.captureSend else s)
    else if key == HULL_CAPTURE.base then
      let s := if bit HULL_CAPTURE_REARM then s.rearm else s
      let s := if bit HULL_CAPTURE_NOW then s.captureNow else s
      let s := if bit HULL_CAPTURE_ARM_EDGE then s.armEdge else s
      if bit HULL_CAPTURE_DISARM then s.disarm else s
    else s
  | _ => s

/-- A write of `v` through a view is applied to the register at a key. -/
def State.regWrite (s : State) (key view via off v : Nat) (o : Outer) : State :=
  match findReg key with
  | none => s
  | some d =>
    let lockedOut := s.locked && d.fields.any (fun f => f.acc == .rwl)
    let new := writeFields view s.locked v d.fields (s.regGet key).toNat
    let t := if lockedOut && d.fields.all (fun f => f.acc != .rw) then s else s.storeWrite key new
    let t := State.irqEdge s t (pageOfKey key)
    let t := if view ≤ 1 && s.runs then t.pulses key v o else t
    if lockedOut then t.accErr 2 via off true else t

/-- A read through a view: the value, and in the normal view the RC fields cleared (R573, R574). -/
def State.regRead (s : State) (key view : Nat) : Word64 × State :=
  (s.regValue key, if view == 0 then s.clearRC key else s)

/-- The registers to which aliases do not apply: the _STS registers (R572). -/
def stsKey (key : Nat) : Bool :=
  let p := pageOfKey key
  (decide (p < 108) && (stsOffsets p).any (fun o => pageBase p + o == key)) || key == PWR_RESTORE_STS_KIND.base

/-! ### The router (R575 to R581) -/

/-- Read and write times of a target (R576). -/
def accTime (w : Nat) (tile : Bool) : Nat × Nat :=
  if w == 2 then (136, 120)
  else if w < 8 then (40, 24)
  else if w < 12 then (148, 116)
  else if w < 16 then (132, 100)
  else if w < 20 then (172, 140)
  else if w < 28 then (if tile then (212, 180) else (180, 148))
  else (40, 24)

/-- The cycle on which an access to a window starts: after a reload, behind the window's earlier accesses, and for a read
with one of 32 places free. -/
def State.accStart (s : State) (w : Nat) (read : Bool) : Nat :=
  let a := max (max s.now (s.power.reload.getD 0)) ((assocGet s.router.busy w).getD 0)
  let l := s.router.reads.filter (fun c => decide (a < c))
  if read && 32 ≤ l.length then l.foldl min (l.headD a) else a

/-- The access occupies its window until it completes; a read's data leave then. -/
def State.accDone (s : State) (w done : Nat) (data : Option Word64) : State :=
  let s := { s with router := { s.router with busy := assocPut s.router.busy w done } }
  match data with
  | some d =>
    let s := { s with router := { s.router with reads := done :: s.router.reads.filter (fun c => decide (s.now < c)) } }
    s.emit (.regReply done d)
  | none => s

/-- Apply `t` on the cycle `c`, the state's clock standing where it stood. -/
def State.atCycle (s : State) (c : Nat) (t : State → State) : State := { t { s with now := max s.now c } with now := s.now }

/-- A read of the value `f` gives on the write-applied cycle, completing after the read time. -/
def State.routeRead (s : State) (w : Nat) (time : Nat × Nat) (f : State → Word64 × State) : State :=
  let a := s.accStart w true
  let r := f { s with now := max s.now (a + time.2) }
  { r.2 with now := s.now }.accDone w (a + time.1) (some r.1)

/-- A write applied after the write time. -/
def State.routeWrite (s : State) (w : Nat) (time : Nat × Nat) (t : State → State) : State :=
  let a := s.accStart w false
  (s.atCycle (a + time.2) t).accDone w (a + time.2) none

/-- An access that does not reach a register: flagged, a read answered with `d`. -/
def State.routeErr (s : State) (w cause via off rd wr : Nat) (write : Bool) (d : Word64) : State :=
  let s := s.accErr cause via off write
  let a := s.accStart w (!write)
  s.accDone w (a + if write then wr else rd) (if write then none else some d)

/-- The offset in PF0's terms of an access through a function: 0 PF0, 1 PF1, 2 PF2, 3 mailbox or MCTP (R568). -/
def pf0Offset (via off : Nat) : Option Nat :=
  if via == 1 then (if off < 0x2000000 then some (0x6000000 + off) else none)
  else if via == 2 then (if off < 0x1000000 then some (0x3000000 + off) else none)
  else if off < 0x20000000 then some off else none

/-- The register whose _SNAP copy lies at an offset of the normal view (R522, R569). -/
def snapOf (o : Nat) : Option Nat :=
  let w := o / 0x1000000
  let x := o % 0x1000000
  let k := if w < 20 then (if 0x200000 ≤ x && x < 0x3FF000 then some (o - 0x200000) else none)
    else if w < 28 then
      (if 0x100000 ≤ x && x < 0x380000 then
        (if 0x20000 ≤ (x - 0x100000) % 0x40000 && (x - 0x100000) % 0x40000 < 0x3F000 then some (o - 0x20000) else none)
      else if 0x380000 ≤ x && x < 0x3F0000 then some (o - 0x380000) else none)
    else none
  match k with
  | some k => if (findReg k).isSome then some k else none
  | none => none

/-- Little-endian value of `n` bytes of the mailbox buffers. -/
def State.mboxRead (s : State) (a : Nat) : Nat → Nat
  | 0 => 0
  | n + 1 => (s.mboxByte a).toNat + 256 * s.mboxRead (a + 1) n

/-- Write `n` bytes of the mailbox buffers. -/
def State.mboxWrite (s : State) (a : Nat) : Nat → Nat → State
  | 0, _ => s
  | n + 1, v => (s.mboxPut a (BitVec.ofNat 8 v)).mboxWrite (a + 1) n (v / 256)

/-- An access to the mailbox buffers: aligned, of 4 B or 8 B (R567). The spec gives no outcome to any other: a read returns a
free value and a write is ignored. -/
def State.mboxAccess (s : State) (x size : Nat) (write : Option Nat) : State :=
  let ok := (size == 4 || size == 8) && x % size == 0
  match write with
  | some v => s.routeWrite 0 (40, 24) (fun s => if ok then s.mboxWrite x size v else s)
  | none => s.routeRead 0 (40, 24) (fun s => if ok then (BitVec.ofNat 64 (s.mboxRead x size), s) else (BitVec.ofNat 64 s.freeVal, s.drawn))

/-- An access through a function's BAR, the mailbox or MCTP. -/
def State.pf0Access (s : State) (via off size : Nat) (write : Option Nat) (o : Outer) : State :=
  match pf0Offset via off with
  | none => s.routeErr 28 4 via off 40 24 write.isSome 0
  | some p =>
    let w := p / 0x1000000
    let view := p % 0x1000000 / 0x400000
    let key := p - view * 0x400000
    let x := key % 0x1000000
    let port := w == 7 && 0x100000 ≤ x && x < 0x110000
    let mbox := w == 0 && 0x1000 ≤ x && x < 0x3000
    let wrong := !port && !mbox && decide (w < 28) && (size != 8 || p % 8 != 0)
    let s := if s.reloading && !wrong then s.accErr 5 via p write.isSome else s
    let tile := decide (28 ≤ pageOfKey key) && decide (w < 28)
    let time := accTime w tile
    if 28 ≤ w then s.routeErr w 4 via p 40 24 write.isSome 0
    else if wrong then s.routeErr w 3 via p 40 24 write.isSome (~~~0)
    else if s.windowOff w then s.routeErr w 0 via p 96 96 write.isSome (~~~0)
    else if view != 0 && (port || mbox || (snapOf key).isSome || stsKey key) then
      match write with
      | some _ => s.routeWrite w time (fun s => s.accErr 1 via p true)
      | none => s.routeRead w time (fun s => (0, s))
    else if port then
      match write with
      | some v => s.routeWrite w time (fun s => s.portWrite x size (BitVec.ofNat 512 v))
      | none => s.routeRead w time (fun s => (0, s))
    else if mbox then s.mboxAccess x size write
    else if (findReg key).isSome then
      match write with
      | some v => s.routeWrite w time (fun s => s.regWrite key view via p v o)
      | none => s.routeRead w time (fun s => s.regRead key view)
    else match snapOf key with
      | some k => match write with
        | some _ => s.routeWrite w time (fun s => s)
        | none => s.routeRead w time (fun s => (s.snapValue k, s))
      | none => s.routeErr w 4 via p 40 24 write.isSome 0

/-! ### PF3 (18) -/

/-- Eight bytes of the scan buffer; while a chain is connected, a byte not yet loaded is a free value (R590). -/
def State.scanRead (s : State) (a : Nat) : Nat → Nat × State
  | 0 => (0, s)
  | n + 1 =>
    match assocGet s.bench.scan a with
    | some b => let r := s.scanRead (a + 1) n; (b.toNat + 256 * r.1, r.2)
    | none =>
      if s.fget BENCH_CTL_SCAN_GROUP == 7 then let r := s.scanRead (a + 1) n; (256 * r.1, r.2)
      else let r := s.drawn.scanRead (a + 1) n; (s.freeVal % 256 + 256 * r.1, r.2)

/-- Load eight bytes of the scan buffer. -/
def State.scanWrite (s : State) (a : Nat) : Nat → Nat → State
  | 0, _ => s
  | n + 1, v => (s.withBench (fun b => { b with scan := assocPut b.scan a (BitVec.ofNat 8 v) })).scanWrite (a + 1) n (v / 256)

/-- The data of a read at a PF3 offset, when something lies there. A closed module shows FUSE_STS alone (R597). -/
def State.benchRead (s : State) (off : Nat) : Option (Word64 × State) :=
  let key := 0x20000000 + off
  if 0x2000 ≤ off && off < 0x2100 then
    some (if s.closed then 0 else BitVec.ofNat 64 (bvBits s.bench.fuseBuf (8 * (off - 0x2000)) 64), s)
  else if 0x10000 ≤ off && off < 0x20000 then
    if s.closed then some (0, s) else let r := s.scanRead (off - 0x10000) 8; some (BitVec.ofNat 64 r.1, r.2)
  else if (findReg key).isSome then
    if s.closed && key != FUSE_STS.base then some (0, s) else some (s.regRead key 0)
  else none

/-- A write at a PF3 offset, when something lies there. -/
def State.benchWrite (s : State) (off v : Nat) (o : Outer) : Option State :=
  let key := 0x20000000 + off
  if 0x2000 ≤ off && off < 0x2100 then
    some (s.withBench (fun b => { b with
      fuseBuf := BitVec.ofNat 2048 (putBits b.fuseBuf.toNat (8 * (off - 0x2000)) 64 v) }))
  else if 0x10000 ≤ off && off < 0x20000 then some (s.scanWrite (off - 0x10000) 8 v)
  else if (findReg key).isSome then some (s.regWrite key 0 4 off v o)
  else none

/-- An access through PF3's BAR, which is there while PF3 enumerates. -/
def State.benchAccess (s : State) (off size : Nat) (write : Option Nat) (o : Outer) : State :=
  if !s.fbit HULL_ID_BENCH_PRESENT || 0x100000 ≤ off then s
  else
    let wrong := size != 8 || off % 8 != 0
    let s := if s.reloading && !wrong then s.accErr 5 4 off write.isSome else s
    if wrong then s.routeErr 32 3 4 off 40 24 write.isSome (~~~0)
    else if !s.runs then s.routeErr 32 0 4 off 96 96 write.isSome (~~~0)
    else match write with
      | some v => if (s.benchWrite off v o).isSome then s.routeWrite 32 (40, 24) (fun s => (s.benchWrite off v o).getD s)
        else s.routeErr 32 4 4 off 40 24 true 0
      | none => if (s.benchRead off).isSome then s.routeRead 32 (40, 24) (fun s => (s.benchRead off).getD (0, s))
        else s.routeErr 32 4 4 off 40 24 false 0

/-- Does the module answer register accesses at all: running, or stopped by class E (R498), with its ports in place? -/
def State.answers (s : State) : Bool :=
  s.portsUp && (match s.power.halt with | .no => true | .stopped _ => true | _ => false)

/-- A register access arrives at the router: `via` 0 PF0, 1 PF1, 2 PF2, 3 mailbox or MCTP, 4 PF3. -/
def State.access (s : State) (at_ via off size : Nat) (write : Option Nat) (o : Outer) : State :=
  if s.answers then
    let s := s.upTo at_
    if via == 4 then s.benchAccess off size write o else s.pf0Access via off size write o
  else s

/-- REG_WRITE. -/
def execRegWrite (at_ via off size : Nat) (value : BitVec 512) (outer : Outer) (s : State) :
    Host.Outcome State Fault Refusal :=
  .next (s.access at_ via off size (some value.toNat) outer)

/-- ALIAS_WRITE of a register's normal-view PF0 offset: `view` 1 set, 2 clear, 3 toggle. -/
def execAliasWrite (at_ view off : Nat) (value : Word64) (outer : Outer) (s : State) : Host.Outcome State Fault Refusal :=
  .next (s.access at_ 0 (off + view % 4 * 0x400000) 8 (some value.toNat) outer)

/-- REG_READ_CLEAR. -/
def execRegReadClear (at_ via off size : Nat) (s : State) : Host.Outcome State Fault Refusal :=
  .next (s.access at_ via off size none outerOk)

/-- ACCESS_RELOAD_HELD: an access that arrives during a lockstep reload. -/
def execAccessReloadHeld (at_ via off size : Nat) (write : Option Word64) (outer : Outer) (s : State) :
    Host.Outcome State Fault Refusal :=
  .next (s.access at_ via off size (write.map (fun v => v.toNat)) outer)

/-- ACCESS_ERROR: an access of the wrong size or alignment, of an unmapped offset or of a powered-off domain. -/
def execAccessError (at_ via off size : Nat) (write : Option Word64) (outer : Outer) (s : State) :
    Host.Outcome State Fault Refusal :=
  .next (s.access at_ via off size (write.map (fun v => v.toNat)) outer)

/-- HDM_WRITE of HOST_HDMi through PF0. -/
def execHdmWrite (at_ piece : Nat) (value : Word64) (s : State) : Host.Outcome State Fault Refusal :=
  .next (s.access at_ 0 ((HOST_HDM_EN.ix (piece % 4)).base) 8 (some value.toNat) outerOk)

/-- CLKSRC_WRITE of TICK_CLKSRC.SRC through PF0. -/
def execClksrcWrite (at_ src : Nat) (s : State) : Host.Outcome State Fault Refusal :=
  .next (s.access at_ 0 TICK_CLKSRC.base 8 (some (src % 32)) outerOk)

end Sys2Proof.Machine
end

