-- ==== Sys2Proof/Machine/Tap.lean ====
section
/-! DEFINITION. The test access port (R593, R594, and BENCH_SCAN of R590). -/

namespace Sys2Proof.Machine

/-- The instruction that the TAP acts on: the codes that R593 does not list, and the open column of a closed module, act as
BYPASS. -/
def State.tapDecode (s : State) (code : Nat) : Nat :=
  if code == 0 || code == 1 || code == 2 then code
  else if (code == 0x20 || code == 0x21 || code == 0x22) && !s.closed then code else 0xFF

/-- TAP_INSTRUCTION: EXTEST with no context RUNNING or PREEMPTED applies a job reset and takes the pins; otherwise it acts
as BYPASS (R594). -/
def State.tapInstruction (s : State) (code : Nat) : State :=
  let i := s.tapDecode code
  if i == 0 then
    if s.benchFree then (s.jobReset 8).withBench (fun b => { b with ir := 0, extest := true })
    else s.withBench (fun b => { b with ir := 0xFF })
  else s.withBench (fun b => { b with ir := i })

/-- TAP_INSTRUCTION. -/
def execTapInstruction (code : BitVec 8) (s : State) : Host.Outcome State Fault Refusal :=
  .next (s.live (fun s => s.tapInstruction code.toNat))

/-- Test-Logic-Reset: after EXTEST a warm reset follows, and the functional ports are there again. -/
def State.tapReset (s : State) (ports : PortsIn) : State :=
  let was := s.bench.extest
  let s := s.withBench (fun b => { b with ir := 0x01, extest := false })
  if was then ((s.warmReset.trained []).identify).portsTrain ports else s

/-- TAP_RESET. -/
def execTapReset (at_ : Nat) (ports : PortsIn) (s : State) : Host.Outcome State Fault Refusal :=
  .next (s.live (fun s => (s.upTo at_).tapReset ports))

/-- The PF3 offset of a 96-bit BENCH_REG value. -/
def benchRegOff (v : Nat) : Nat := getBits v 0 32

/-- BENCH_REG: a register access through PF3, a write of bits [95:32] or a read that leaves its data there. -/
def State.benchReg (s : State) (v : Nat) (write : Bool) (o : Outer) : State :=
  if write then
    ((s.benchWrite (benchRegOff v) (getBits v 32 64) o).getD s).withBench (fun b => { b with dr := v % 2 ^ 96 })
  else
    match s.benchRead (benchRegOff v) with
    | some (d, s) => s.withBench (fun b => { b with dr := benchRegOff v + d.toNat * 2 ^ 32 })
    | none => s.withBench (fun b => { b with dr := benchRegOff v })

/-- A data register is captured, shifted and updated under the instruction in force. `write` is the direction of a BENCH_REG
access; the boundary cells and a stack's IEEE 1500 wrapper give free values. -/
def State.tapData (s : State) (v : Nat) (write : Bool) (o : Outer) : State :=
  let ir := s.tapDecode s.bench.ir
  if ir == 1 then s.withBench (fun b => { b with dr := 0x1241656B })
  else if ir == 0x20 then
    if s.fget BENCH_CTL_SCAN_GROUP == 7 then s
    else ((s.withBench (fun b => { b with dr := s.freeVal })).drawn).scanWrite 0 8 v
  else if ir == 0x21 then
    if !s.benchFree then s
    else (s.withBench (fun b => { b with hbmSel := v % 16, dr := s.freeVal })).drawn
  else if ir == 0x22 then
    if !s.benchFree then s else s.benchReg v write o
  else if ir == 0xFF then s.withBench (fun b => { b with dr := 0 })
  else (s.withBench (fun b => { b with dr := s.freeVal })).drawn

/-- TAP_DATA_REGISTER. -/
def execTapDataRegister (at_ value : Nat) (write : Bool) (outer : Outer) (s : State) : Host.Outcome State Fault Refusal :=
  .next (s.live (fun s => (s.upTo at_).tapData value write outer))

end Sys2Proof.Machine
end

