-- ==== Sys2Proof/Machine/Dispatch.lean ====
section
/-! DEFINITION. One arm per command: the direct call of its meaning. -/

namespace Sys2Proof.Machine

def exec (i : Instr) (s : State) : Host.Outcome State Fault Refusal :=
  match i with
  | .tickEdge => Sys2Proof.Machine.execTickEdge s
  | .fenceCheck fence stalled => Sys2Proof.Machine.execFenceCheck fence stalled s
  | .dataFenceCheck idx => Sys2Proof.Machine.execDataFenceCheck idx s
  | .ingestClose => Sys2Proof.Machine.execIngestClose s
  | .ingestEnd others => Sys2Proof.Machine.execIngestEnd others s
  | .lossFence sum => Sys2Proof.Machine.execLossFence sum s
  | .healthSend => Sys2Proof.Machine.execHealthSend s
  | .healthRecord at_ link r => Sys2Proof.Machine.execHealthRecord at_ link r s
  | .commitToken at_ frame => Sys2Proof.Machine.execCommitToken at_ frame s
  | .markerSend => Sys2Proof.Machine.execMarkerSend s
  | .marker at_ tick => Sys2Proof.Machine.execMarker at_ tick s
  | .markerLost => Sys2Proof.Machine.execMarkerLost s
  | .abortNotice at_ link origin cause => Sys2Proof.Machine.execAbortNotice at_ link origin cause s
  | .captureNotice at_ tick cycle => Sys2Proof.Machine.execCaptureNotice at_ tick cycle s
  | .layoutSwitch phase => Sys2Proof.Machine.execLayoutSwitch phase s
  | .mmStream tile w => Sys2Proof.Machine.execMmStream tile w s
  | .mmIncell tile w => Sys2Proof.Machine.execMmIncell tile w s
  | .lateIssue tile w cycle late => Sys2Proof.Machine.execLateIssue tile w cycle late s
  | .load tile w => Sys2Proof.Machine.execLoad tile w s
  | .readout tile w => Sys2Proof.Machine.execReadout tile w s
  | .chain tile w arrival => Sys2Proof.Machine.execChain tile w arrival s
  | .convert tile w loc scales iota => Sys2Proof.Machine.execConvert tile w loc scales iota s
  | .scale tile w loc => Sys2Proof.Machine.execScale tile w loc s
  | .tree tile w elems => Sys2Proof.Machine.execTree tile w elems s
  | .sumsq tile w loc bucket => Sys2Proof.Machine.execSumsq tile w loc bucket s
  | .lookupAdd tile w dest => Sys2Proof.Machine.execLookupAdd tile w dest s
  | .rowcol tile w rDst cDst => Sys2Proof.Machine.execRowcol tile w rDst cDst s
  | .update tile w aux => Sys2Proof.Machine.execUpdate tile w aux s
  | .copy tile w => Sys2Proof.Machine.execCopy tile w s
  | .decay tile w => Sys2Proof.Machine.execDecay tile w s
  | .ewise tile w loc => Sys2Proof.Machine.execEwise tile w loc s
  | .endStream tile w => Sys2Proof.Machine.execEndStream tile w s
  | .hubRead at_ stack granule a => Sys2Proof.Machine.execHubRead at_ stack granule a s
  | .hubWrite at_ stack granule data a => Sys2Proof.Machine.execHubWrite at_ stack granule data a s
  | .hubRetry stack granule a => Sys2Proof.Machine.execHubRetry stack granule a s
  | .atomicAdd at_ stack granule plan part data => Sys2Proof.Machine.execAtomicAdd at_ stack granule plan part data s
  | .refresh window => Sys2Proof.Machine.execRefresh window s
  | .scrub at_ stack a => Sys2Proof.Machine.execScrub at_ stack a s
  | .elasticWindow at_ stack granule write a => Sys2Proof.Machine.execElasticWindow at_ stack granule write a s
  | .linkSend at_ link kind src => Sys2Proof.Machine.execLinkSend at_ link kind src s
  | .frameReceived at_ link due seen => Sys2Proof.Machine.execFrameReceived at_ link due seen s
  | .nak at_ link seq => Sys2Proof.Machine.execNak at_ link seq s
  | .linkDown at_ link => Sys2Proof.Machine.execLinkDown at_ link s
  | .elasticFrame at_ link ok flit => Sys2Proof.Machine.execElasticFrame at_ link ok flit s
  | .linkTraining at_ link mode legacy prop neighbour nlink hash => Sys2Proof.Machine.execLinkTraining at_ link mode legacy prop neighbour nlink hash s
  | .solverDescRead job => Sys2Proof.Machine.execSolverDescRead job s
  | .solverJobStart job => Sys2Proof.Machine.execSolverJobStart job s
  | .publish die c0 => Sys2Proof.Machine.execPublish die c0 s
  | .deadlineMiss die c0 => Sys2Proof.Machine.execDeadlineMiss die c0 s
  | .carrySweep die => Sys2Proof.Machine.execCarrySweep die s
  | .solverDatapathFault at_ die cracker corrected => Sys2Proof.Machine.execSolverDatapathFault at_ die cracker corrected s
  | .podFault at_ tile lpod => Sys2Proof.Machine.execPodFault at_ tile lpod s
  | .spareParity at_ tile => Sys2Proof.Machine.execSpareParity at_ tile s
  | .shadowCompare tile w seq seen => Sys2Proof.Machine.execShadowCompare tile w seq seen s
  | .lockstepMismatch at_ => Sys2Proof.Machine.execLockstepMismatch at_ s
  | .lockstepReloadDone checks => Sys2Proof.Machine.execLockstepReloadDone checks s
  | .attendExpiry page => Sys2Proof.Machine.execAttendExpiry page s
  | .classDTimeout at_ page cartFails flashFails => Sys2Proof.Machine.execClassDTimeout at_ page cartFails flashFails s
  | .terminalStop at_ cause window cartFails flashFails => Sys2Proof.Machine.execTerminalStop at_ cause window cartFails flashFails s
  | .capture => Sys2Proof.Machine.execCapture s
  | .captureIn at_ => Sys2Proof.Machine.execCaptureIn at_ s
  | .sag at_ cartFails flashFails bankLasts => Sys2Proof.Machine.execSag at_ cartFails flashFails bankLasts s
  | .overVoltage at_ cartFails flashFails => Sys2Proof.Machine.execOverVoltage at_ cartFails flashFails s
  | .overCurrent at_ cartFails flashFails => Sys2Proof.Machine.execOverCurrent at_ cartFails flashFails s
  | .railFault at_ cartFails flashFails => Sys2Proof.Machine.execRailFault at_ cartFails flashFails s
  | .inputLowReset at_ => Sys2Proof.Machine.execInputLowReset at_ s
  | .holdupArmed at_ => Sys2Proof.Machine.execHoldupArmed at_ s
  | .powerOverLimit at_ => Sys2Proof.Machine.execPowerOverLimit at_ s
  | .thermalWarn at_ sensor value => Sys2Proof.Machine.execThermalWarn at_ sensor value s
  | .thermalTerminal at_ sensor value cartFails flashFails => Sys2Proof.Machine.execThermalTerminal at_ sensor value cartFails flashFails s
  | .clkLost at_ => Sys2Proof.Machine.execClkLost at_ s
  | .enDrop at_ cartFails flashFails => Sys2Proof.Machine.execEnDrop at_ cartFails flashFails s
  | .powerCycle at_ => Sys2Proof.Machine.execPowerCycle at_ s
  | .coldReset at_ time fails ports => Sys2Proof.Machine.execColdReset at_ time fails ports s
  | .warmReset at_ => Sys2Proof.Machine.execWarmReset at_ s
  | .hotReset at_ => Sys2Proof.Machine.execHotReset at_ s
  | .flrPf0 at_ => Sys2Proof.Machine.execFlrPf0 at_ s
  | .flrPf1 at_ => Sys2Proof.Machine.execFlrPf1 at_ s
  | .flrPf2 at_ => Sys2Proof.Machine.execFlrPf2 at_ s
  | .flrPf3 at_ => Sys2Proof.Machine.execFlrPf3 at_ s
  | .commandWord at_ offset size word => Sys2Proof.Machine.execCommandWord at_ offset size word s
  | .commandPacket at_ join => Sys2Proof.Machine.execCommandPacket at_ join s
  | .dropped at_ => Sys2Proof.Machine.execDropped at_ s
  | .loadImage at_ ctx tag source length => Sys2Proof.Machine.execLoadImage at_ ctx tag source length s
  | .loadImageDone at_ ctx image => Sys2Proof.Machine.execLoadImageDone at_ ctx image s
  | .unloadImage at_ ctx tag => Sys2Proof.Machine.execUnloadImage at_ ctx tag s
  | .startJob at_ ctx tag seed src len join => Sys2Proof.Machine.execStartJob at_ ctx tag seed src len join s
  | .ingest at_ ctx tag step source tokens bytes slot => Sys2Proof.Machine.execIngest at_ ctx tag step source tokens bytes slot s
  | .ingestDone at_ ctx step slot ok => Sys2Proof.Machine.execIngestDone at_ ctx step slot ok s
  | .exportCmd at_ ctx tag kind bufs => Sys2Proof.Machine.execExport at_ ctx tag kind bufs s
  | .exportStart at_ => Sys2Proof.Machine.execExportStart at_ s
  | .exportDone at_ => Sys2Proof.Machine.execExportDone at_ s
  | .preemptAtEdge at_ ctx tag tick => Sys2Proof.Machine.execPreemptAtEdge at_ ctx tag tick s
  | .preemptNow at_ ctx tag => Sys2Proof.Machine.execPreemptNow at_ ctx tag s
  | .preempted => Sys2Proof.Machine.execPreempted s
  | .resume at_ ctx tag => Sys2Proof.Machine.execResume at_ ctx tag s
  | .resumed join => Sys2Proof.Machine.execResumed join s
  | .endJob at_ ctx tag => Sys2Proof.Machine.execEndJob at_ ctx tag s
  | .pin at_ ctx tag addr len => Sys2Proof.Machine.execPin at_ ctx tag addr len s
  | .unpin at_ ctx tag addr len => Sys2Proof.Machine.execUnpin at_ ctx tag addr len s
  | .atsInvalidation at_ fn addr len tag => Sys2Proof.Machine.execAtsInvalidation at_ fn addr len tag s
  | .dmaChunk at_ eng res => Sys2Proof.Machine.execDmaChunk at_ eng res s
  | .priResponse at_ grp ok => Sys2Proof.Machine.execPriResponse at_ grp ok s
  | .prefetch at_ tensor => Sys2Proof.Machine.execPrefetch at_ tensor s
  | .writeBack at_ tensor => Sys2Proof.Machine.execWriteBack at_ tensor s
  | .expanderLost at_ expander removed => Sys2Proof.Machine.execExpanderLost at_ expander removed s
  | .lenderLost at_ lender => Sys2Proof.Machine.execLenderLost at_ lender s
  | .fifoPacketWrite at_ fifo typ ctx payload => Sys2Proof.Machine.execFifoPacketWrite at_ fifo typ ctx payload s
  | .fifoPacketTake at_ fifo seen join => Sys2Proof.Machine.execFifoPacketTake at_ fifo seen join s
  | .idleTimeout fifo => Sys2Proof.Machine.execIdleTimeout fifo s
  | .ptrMismatch at_ fifo => Sys2Proof.Machine.execPtrMismatch at_ fifo s
  | .ringWrite at_ fifo => Sys2Proof.Machine.execRingWrite at_ fifo s
  | .ringInterruptTimer fifo => Sys2Proof.Machine.execRingInterruptTimer fifo s
  | .mailboxGo at_ => Sys2Proof.Machine.execMailboxGo at_ s
  | .mailboxDone at_ msg => Sys2Proof.Machine.execMailboxDone at_ msg s
  | .mctpMessage at_ port msg => Sys2Proof.Machine.execMctpMessage at_ port msg s
  | .holdRelease => Sys2Proof.Machine.execHoldRelease s
  | .captureNow at_ => Sys2Proof.Machine.execCaptureNow at_ s
  | .armEdge => Sys2Proof.Machine.execArmEdge s
  | .disarm => Sys2Proof.Machine.execDisarm s
  | .rearm => Sys2Proof.Machine.execRearm s
  | .captureSend => Sys2Proof.Machine.execCaptureSend s
  | .attendAck page => Sys2Proof.Machine.execAttendAck page s
  | .capOverride => Sys2Proof.Machine.execCapOverride s
  | .pivotLogClear die => Sys2Proof.Machine.execPivotLogClear die s
  | .hdmWrite at_ piece value => Sys2Proof.Machine.execHdmWrite at_ piece value s
  | .clksrcWrite at_ src => Sys2Proof.Machine.execClksrcWrite at_ src s
  | .clkLocked at_ => Sys2Proof.Machine.execClkLocked at_ s
  | .pwrIdle => Sys2Proof.Machine.execPwrIdle s
  | .pwrFallow => Sys2Proof.Machine.execPwrFallow s
  | .pwrDormant => Sys2Proof.Machine.execPwrDormant s
  | .pwrOff cartFails flashFails => Sys2Proof.Machine.execPwrOff cartFails flashFails s
  | .wake at_ => Sys2Proof.Machine.execWake at_ s
  | .wakeDone fails => Sys2Proof.Machine.execWakeDone fails s
  | .harvest => Sys2Proof.Machine.execHarvest s
  | .harvestStart => Sys2Proof.Machine.execHarvestStart s
  | .harvestDone at_ cartFails flashFails => Sys2Proof.Machine.execHarvestDone at_ cartFails flashFails s
  | .harvestAbandoned => Sys2Proof.Machine.execHarvestAbandoned s
  | .release => Sys2Proof.Machine.execRelease s
  | .readRecord ok => Sys2Proof.Machine.execReadRecord ok s
  | .authenticate => Sys2Proof.Machine.execAuthenticate s
  | .cartridgeInsert c => Sys2Proof.Machine.execCartridgeInsert c s
  | .cartridgeRemoved => Sys2Proof.Machine.execCartridgeRemoved s
  | .routineRecord kind cartFails flashFails => Sys2Proof.Machine.execRoutineRecord kind cartFails flashFails s
  | .marginHbm arg => Sys2Proof.Machine.execMarginHbm arg s
  | .marginLink arg => Sys2Proof.Machine.execMarginLink arg s
  | .laneReturnHbm arg outer => Sys2Proof.Machine.execLaneReturnHbm arg outer s
  | .laneReturnLink arg outer => Sys2Proof.Machine.execLaneReturnLink arg outer s
  | .ppr arg => Sys2Proof.Machine.execPpr arg s
  | .scanEnter arg => Sys2Proof.Machine.execScanEnter arg s
  | .enroll => Sys2Proof.Machine.execEnroll s
  | .fieldClose outer => Sys2Proof.Machine.execFieldClose outer s
  | .tapInstruction code => Sys2Proof.Machine.execTapInstruction code s
  | .tapReset at_ ports => Sys2Proof.Machine.execTapReset at_ ports s
  | .traceRecord at_ source data full => Sys2Proof.Machine.execTraceRecord at_ source data full s
  | .aliasWrite at_ view off value outer => Sys2Proof.Machine.execAliasWrite at_ view off value outer s
  | .regWrite at_ via off size value outer => Sys2Proof.Machine.execRegWrite at_ via off size value outer s
  | .regReadClear at_ via off size => Sys2Proof.Machine.execRegReadClear at_ via off size s
  | .accessReloadHeld at_ via off size write outer => Sys2Proof.Machine.execAccessReloadHeld at_ via off size write outer s
  | .powerStateEntered => Sys2Proof.Machine.execPowerStateEntered s
  | .warmResetRelease at_ ports => Sys2Proof.Machine.execWarmResetRelease at_ ports s
  | .hdmAccess at_ offset len write => Sys2Proof.Machine.execHdmAccess at_ offset len write s
  | .snoop at_ addr => Sys2Proof.Machine.execSnoop at_ addr s
  | .accessError at_ via off size write outer => Sys2Proof.Machine.execAccessError at_ via off size write outer s
  | .sensorSample at_ readings => Sys2Proof.Machine.execSensorSample at_ readings s
  | .outsideRating at_ => Sys2Proof.Machine.execOutsideRating at_ s
  | .tapDataRegister at_ value write outer => Sys2Proof.Machine.execTapDataRegister at_ value write outer s
  | .translationCompletion at_ fn eng q addr size granted => Sys2Proof.Machine.execTranslationCompletion at_ fn eng q addr size granted s
  | .undefinedOpcode tile w => Sys2Proof.Machine.execUndefinedOpcode tile w s

end Sys2Proof.Machine
end

