-- ==== Sys2Proof/Safety.lean ====
section
/-! DEFINITION. What counts as a sound state and a safe run: the canonical form of the register table and of memory, the
fixed numbers of contexts, FIFOs, rings and links, and that no step stops. -/

namespace Sys2Proof.Safety

open Sys2Proof.Machine

/-- The tables of the tiles stand in their canonical form, and the writes on their way to operand lines in the order of their
cycles. -/
def TilesWf (t : Tiles) : Prop :=
  tabWf (fun _ => 0) t.opLine = true ∧ tabWf (fun _ => 0) t.opTag = true ∧ tabWf (fun _ => (0 : Word32)) t.acc = true ∧
  tabWf (fun _ => 0) t.mark = true ∧ tabWf (fun _ => 0) t.slotCnt = true ∧ tabWf (fun _ => 0) t.seqNext = true ∧
  tabWf (fun _ => {}) t.pod = true ∧ tabWf (fun _ => {}) t.accHist = true ∧ t.lines.Pairwise (fun v w => v.at_ ≤ w.at_)

/-- The register table, memory and the tiles' tables stand in their canonical form: keys strictly rising, no entry at its
default. -/
def Canonical (s : State) : Prop := tabWf resetOf s.regs = true ∧ tabWf memDefault s.mem = true ∧ TilesWf s.tiles

/-- The module has four contexts, four FIFOs, two rings and sixteen links (R12, R422, R452, R459). -/
def Shape (s : State) : Prop :=
  s.ctxs.length = 4 ∧ s.fifos.length = 4 ∧ s.rings.length = 2 ∧ s.links.length = 16

/-- The invariant of the model. -/
def Inv (s : State) : Prop := Canonical s ∧ Shape s

/-- The state after `n` steps, when none of them stops. -/
def runs : Nat → State → Option State
  | 0, s => some s
  | n + 1, s => match step s with | .next t => runs n t | _ => none

/-- Every state that a run of any length from `s` reaches is sound. -/
def Safe (s : State) : Prop := ∀ n t, runs n s = some t → Inv t

/-! ### What a statement says of the states before and after a command -/

/-- The components of the state, one for each of its fields. -/
inductive Part
  | now | edgeAt | pending | regs | snaps | mem | ccr | mirror0 | mirror1 | run | job | ctxs | tiles | attend | fifos
  | rings | cap | hub | links | solver | host | slow | power | bench | router | outbox | fresh
  deriving DecidableEq, Repr

/-- A component is the same in both states. -/
def Part.Same (s t : State) : Part → Prop
  | .now => t.now = s.now
  | .edgeAt => t.edgeAt = s.edgeAt
  | .pending => t.pending = s.pending
  | .regs => t.regs = s.regs
  | .snaps => t.snaps = s.snaps
  | .mem => t.mem = s.mem
  | .ccr => t.ccr = s.ccr
  | .mirror0 => t.mirror0 = s.mirror0
  | .mirror1 => t.mirror1 = s.mirror1
  | .run => t.run = s.run
  | .job => t.job = s.job
  | .ctxs => t.ctxs = s.ctxs
  | .tiles => t.tiles = s.tiles
  | .attend => t.attend = s.attend
  | .fifos => t.fifos = s.fifos
  | .rings => t.rings = s.rings
  | .cap => t.cap = s.cap
  | .hub => t.hub = s.hub
  | .links => t.links = s.links
  | .solver => t.solver = s.solver
  | .host => t.host = s.host
  | .slow => t.slow = s.slow
  | .power => t.power = s.power
  | .bench => t.bench = s.bench
  | .router => t.router = s.router
  | .outbox => t.outbox = s.outbox
  | .fresh => t.fresh = s.fresh

/-- No component outside `ps` changes: the frame of a command. -/
def OnlyParts (ps : List Part) (s t : State) : Prop := ∀ p, p ∉ ps → p.Same s t

/-- No register outside `ks` changes. -/
def OnlyRegs (ks : List Nat) (s t : State) : Prop := ∀ k, k ∉ ks → t.regGet k = s.regGet k

/-- Every byte of memory outside the `n` bytes from `a` reads as before. -/
def OnlyBytes (a n : Nat) (s t : State) : Prop := ∀ b, (b < a ∨ a + n ≤ b) → t.rd8 b = s.rd8 b

/-- The module runs, and its state is sound. -/
def Awake (s : State) : Prop := s.power.halt = .no ∧ Inv s

/-- A tick of a job runs under image `f` and plan `p`. -/
def InTick (f : ImageFile) (p : PlanImg) (s : State) : Prop :=
  Awake s ∧ s.run.active = true ∧ s.image = some f ∧ s.curPlan = some p

/-- The registers that events, trace records and capture triggers may touch besides a fault's own (R454, R514). -/
def noteRegs : List Nat :=
  [(EVQ_LEVEL_DROPPED.ix 1).base, (EVQ_LEVEL_DROPPED.ix 2).base, EVQ_STS_DROP.base, HULL_CAPTURE_ID_MISSED.base,
   HULL_FAULT_STS_CAPTURE_MISSED.base]

/-- Nothing that is under way comes about by absolute cycle `c`. -/
def Settled (s : State) (c : Nat) : Prop := s.dueBy c = []

/-- The cycle of a command that names one and, on a module that runs, first lets time come there. -/
def timedAt (c : Instr) : Option Nat :=
  match c with
  | .lockstepMismatch a | .classDTimeout a _ _ _ | .terminalStop a _ _ _ _ | .captureIn a | .captureNow a | .sag a _ _ _
  | .overVoltage a _ _ | .overCurrent a _ _ | .railFault a _ _ | .holdupArmed a | .powerOverLimit a | .outsideRating a
  | .thermalWarn a _ _ | .thermalTerminal a _ _ _ _ | .sensorSample a _ | .clkLocked a | .clkLost a | .enDrop a _ _
  | .warmReset a | .hotReset a | .flrPf0 a | .flrPf1 a | .flrPf2 a | .flrPf3 a | .wake a | .fifoPacketWrite a _ _ _ _
  | .ptrMismatch a _ | .loadImage a _ _ _ _ | .loadImageDone a _ _ | .unloadImage a _ _ | .startJob a _ _ _ _ _ _
  | .ingest a _ _ _ _ _ _ _ | .ingestDone a _ _ _ _ | .exportCmd a _ _ _ _ | .exportStart a | .exportDone a
  | .preemptAtEdge a _ _ _ | .preemptNow a _ _ | .resume a _ _ | .endJob a _ _ | .pin a _ _ _ _ | .unpin a _ _ _ _
  | .commandPacket a _ | .dropped a | .fifoPacketTake a _ _ _ | .priResponse a _ _ | .translationCompletion a _ _ _ _ _ _
  | .atsInvalidation a _ _ _ _ | .hdmAccess a _ _ _ | .expanderLost a _ _ | .lenderLost a _ | .mailboxGo a
  | .mailboxDone a _ | .traceRecord a _ _ _ | .tapReset a _ | .tapDataRegister a _ _ _ | .linkDown a _
  | .elasticFrame a _ _ _ | .linkTraining a _ _ _ _ _ _ _ => some a
  | _ => none

/-- The words of a tile's stream, each with its opcode (R483) and its operands: every one but UNDEFINED_OPCODE, and LATE_ISSUE,
which runs one of them late. -/
def streamWords (tile : Nat) (w : Word256) (arrival : List Word32) (loc : VeLoc) (a b : Nat) (x : Word32) (k : Bool)
    (aux : List UpdAux) : List (Nat × Instr) :=
  [(0x10, .mmStream tile w), (0x11, .mmIncell tile w), (0x20, .load tile w), (0x21, .readout tile w),
   (0x22, .chain tile w arrival), (0x30, .convert tile w loc a x), (0x31, .scale tile w loc), (0x40, .tree tile w a),
   (0x41, .sumsq tile w loc k), (0x42, .lookupAdd tile w a), (0x43, .rowcol tile w a b), (0x50, .update tile w aux),
   (0x51, .copy tile w), (0x52, .decay tile w), (0x60, .ewise tile w loc), (0x00, .endStream tile w)]

/-- Tile `tile` issues word `w` as the instruction with opcode `op`: the state is sound, the tile's stream runs, and nothing
else comes about by the issue. -/
def Issues (s : State) (tile : Nat) (w : Word256) (op : Nat) : Prop :=
  Inv s ∧ tile < 80 ∧ s.runsWord tile w op = true ∧ Settled s (s.issueAbs w)

/-- Outside the lines `[lo, hi)` of tile `tile`, operand SRAM shows the same on every cycle. -/
def OnlyLines (tile lo hi : Nat) (s t : State) : Prop :=
  ∀ n l x, n < 80 → l < 98304 → (n ≠ tile ∨ l < lo ∨ hi ≤ l) → t.opLineAt n l x = s.opLineAt n l x ∧ t.opTagAt n l x = s.opTagAt n l x

/-- Two runs of bytes have none in common. -/
abbrev Apart (a n b m : Nat) : Prop := a + n ≤ b ∨ b + m ≤ a

/-- The header of a frame that link `l` sends in a slot that begins on cycle `c` (R370): SEQ, kind, slot, the oldest pending NAK
with the number it names, and LANE_SWAP, in the last window before an edge that changes the link's lanes. -/
def frameHeader (s : State) (l c seq kind slot : Nat) : Nat :=
  seq % 256 + 2 ^ 8 * kind + 2 ^ 11 * slot + (match (s.link l).naks with | n :: _ => 2 ^ 16 + 2 ^ 17 * n | [] => 0)
    + 2 ^ 25 * (!(s.link l).swaps.isEmpty && s.lastWindow l c).toNat

/-- What leaves with a frame (R369, R370): the frame, and the symbols of its 272 bytes on the two active lanes. -/
def frameOut (s : State) (l c seq kind slot flit : Nat) : List Out :=
  let hdr := frameHeader s l c seq kind slot
  let b := frameBytes hdr flit
  [.frame l c kind [hdr, flit],
    .wire l c (laneSymbols 0 (Config.scrambler l 0 c) b) (laneSymbols 1 (Config.scrambler l 1 c) b)]

/-- What leaves when a tree frame is sent in the slot that begins on cycle `c`, on each of some links (R391). -/
def treeOut (s : State) (links : List Nat) (c kind flit : Nat) : List Out :=
  links.flatMap (fun l => frameOut s l c (s.seqAt l c) kind (s.lnkSlot l (c - s.edgeAt)).2 flit)

/-- The slot in whose frame a NAK leaves for the frame of the slot that began on cycle `c`: the first that begins when that frame has
been checked, 112 cyc and the propagation later (R372, R373). -/
def nakSlot (s : State) (l c : Nat) : Nat × Nat :=
  let t := c + 112 + s.fget (lnkFld LNK_STATE_PROP l) - s.edgeAt
  let p := s.lnkSlot l t
  if s.edgeAt + t = s.slotCycle l p.1 p.2 then p else if p.2 = 24 then (p.1 + 1, 0) else (p.1, p.2 + 1)

/-- The counter field `f` counts `n`, saturating at all-ones (R488). -/
def Counts (f : Fld) (n : Nat) (s t : State) : Prop := t.fget f = min (s.fget f + n) (2 ^ f.wd - 1)

/-- The field `f` reads as `v`, in its width. -/
def Shows (f : Fld) (v : Nat) (t : State) : Prop := t.fget f = v % 2 ^ f.wd

/-- Class B in the tick to which R302 attributes a fault. -/
def RaisesB (s t : State) : Prop := (if s.run.healthSent then t.run.lateB else t.run.faultB) = true

/-- Class C in the tick to which R302 attributes a fault. -/
def RaisesC (s t : State) : Prop := (if s.run.healthSent then t.run.lateC else t.run.faultC) = true

/-- A word of a tile's stream comes to a stream fault (R115): the invalid tag, the non-finite bit and class C, and nothing
written. -/
def StreamFaults (tile : Nat) (w : Word256) (s t : State) : Prop :=
  t.fbit (TILE_STS_STREAM_FAULT.tile tile) = true ∧ t.accInvalid tile (wAcc w) = true ∧ t.run.nonfinite = true ∧
  RaisesC s t ∧ t.tiles.acc = s.tiles.acc ∧ t.tiles.opLine = s.tiles.opLine ∧
  t.tiles.lines = s.tiles.lines ∧ t.tiles.flights = s.tiles.flights ∧
  OnlyParts [.now, .regs, .run, .tiles, .attend, .fifos, .cap, .outbox] s t

/-- The words of an event packet enter event egress behind the gap marker of earlier drops, or, where they find no room, the
packet is dropped and counted (R454, R460, R461); in a lockstep reload it waits for the end of it (R505). -/
def Posts (typ ctx : Nat) (payload : List Nat) (s t : State) : Prop :=
  let q := s.fifo 1
  let ws := evPacket typ ctx s.tickCount 0 payload
  if s.reloading then (t.fifo 1).late = q.late ++ [(typ, ctx, payload)] ∧ (t.fifo 1).items = q.items
  else if q.items.length + ws.length + 1 ≤ 4096 then
    (t.fifo 1).items = q.items ++ (if q.dropped = 0 then [] else [gapWord s.tickCount q.dropped false]) ++ ws
  else (t.fifo 1).items = q.items ∧ (t.fifo 1).dropped = q.dropped + 1

/-- COMMAND_DONE of a command of a context is the one event posted (R426). -/
def Completes (ctx tag opcode status detail : Nat) (s t : State) : Prop :=
  Posts 1 ctx [tag % 2 ^ 32 * 2 ^ 48 + opcode % 256 * 2 ^ 80 + status % 256 * 2 ^ 88 + detail % 2 ^ 32 * 2 ^ 96] s t

/-- The class E stop with a cause (R498): nothing runs, HULL_TERMINAL names the cause, HBM holds nothing. -/
def StoppedBy (cause : Nat) (s t : State) : Prop :=
  t.power.halt = .stopped cause ∧ t.run = {} ∧ t.fget HULL_TERMINAL_CAUSE = cause % 8 ∧ t.fbit HULL_TERMINAL_VALID = true ∧
  (∀ a, a < 0x10000000000 → t.rd8 a = 0) ∧ (∀ a, 0x10000000000 ≤ a → t.rd8 a = s.rd8 a)

/-- The source and destination of every descriptor that the carry sweep of a die copies (R260). -/
def sweepPairs (s : State) (f : ImageFile) (die : Nat) : List (Nat × Nat) :=
  let g := imgSeenBy f (s.fget HULL_ORCH_MODULE)
  (g.stateMap.filter (fun t => 4 ≤ t.role && t.role ≤ 7 && t.solver == die && owns t (s.fget HULL_ORCH_MODULE))).flatMap (fun t =>
    match imgTensor g t.tensor 8 with
    | none => []
    | some d => ((range' 0 (factorBlocks t)).filter (fun b =>
        !(s.roundJobs f).any (fun e => slvTensor e == t.tensor && slvBlock e == b + firstBlock g t))).map (fun b =>
          (s.readBase d + 64 * b, s.writeBase d + 64 * b)))

/-- The commands that a module hears which does not run: register accesses, the power, and the reset pins (R498, R531, R614). -/
def heardWhileStopped (c : Instr) : Bool :=
  match c with
  | .powerCycle _ | .coldReset _ _ _ _ | .inputLowReset _ | .warmResetRelease _ _ => true
  | .regWrite _ _ _ _ _ _ | .aliasWrite _ _ _ _ _ | .regReadClear _ _ _ _ | .accessReloadHeld _ _ _ _ _ _
  | .accessError _ _ _ _ _ _ | .hdmWrite _ _ _ | .clksrcWrite _ _ => true
  | _ => false

/-- The descriptor that an engine serves next: its queues in turn, after the one served last (R448). -/
def dmaNext (s : State) (eng : Nat) : Option Desc :=
  ((range' ((assocGet s.host.turn eng).getD 3 + 1) 4).map (fun q => q % 4)).findSome? (fun q => s.queueHead eng q)

/-- The command that a well-formed packet of the hull spells (R424 to R434), none for an opcode or operand outside them. -/
def packetCommand (at_ : Nat) (ws : List (BitVec 512)) (join : JobJoin) : Option Instr :=
  let w := ws.headD 0
  let c := bvBits w 16 2
  let tag := cmdField w 4 4
  match bvBits w 0 8 with
  | 1 => some (.loadImage at_ c tag (cmdField w 8 8) (cmdField w 16 8))
  | 2 => some (.unloadImage at_ c tag)
  | 3 => some (.startJob at_ c tag (cmdField w 8 8) (cmdField w 16 8) (cmdField w 24 8) join)
  | 4 => some (.ingest at_ c tag (cmdField w 8 8) (cmdField w 16 8) (cmdField w 24 4) (cmdField w 28 5) (cmdField w 33 2))
  | 5 => if exportBad ws then none else some (.exportCmd at_ c tag (cmdField w 8 1) (exportBufs ws))
  | 6 => if cmdField w 8 1 = 0 then some (.preemptAtEdge at_ c tag (cmdField w 16 8))
    else if cmdField w 8 1 = 1 then some (.preemptNow at_ c tag) else none
  | 7 => some (.resume at_ c tag)
  | 8 => some (.endJob at_ c tag)
  | 9 => some (.pin at_ c tag (cmdField w 8 8) (cmdField w 16 8))
  | 10 => some (.unpin at_ c tag (cmdField w 8 8) (cmdField w 16 8))
  | _ => none

/-- The state on cycle `at_` whose FIFO `f` has given up its first whole packet, `rest` being what follows it (R455). -/
def afterPacket (s : State) (at_ f : Nat) (rest : List (BitVec 512)) : State :=
  let u := s.advance at_
  u.setFifo f (fun q =>
    { q with
      items := rest, waitingSince := if rest.any cmdEnd then some u.now else none })

/-- The register at key `k`, reached in PF0's normal view, is one whose writes only store: it has no W1P field, and is not a
clock source, an HDM piece or an attend timeout, which have rules of their own (R59, R418, R521). -/
abbrev plainReg (k : Nat) (d : RegDesc) : Prop :=
  findReg k = some d ∧ k % 8 = 0 ∧ k < 0x1C000000 ∧ k % 0x1000000 < 0x400000 ∧ (∀ f ∈ d.fields, f.acc ≠ .w1p) ∧
  k ≠ TICK_CLKSRC.base ∧ (k < HOST_HDM_EN.base ∨ HOST_HDM_EN.base + 32 ≤ k) ∧ locate k ≠ some (.page, 8)

/-- The registers that an access error writes (R583). -/
def accRegs : List Nat := [HULL_ACC_STS_OFF.base, HULL_ACC_FIRST_VALID.base, HULL_ACC_CNT_OFF.base]

end Sys2Proof.Safety
end

