-- ==== Sys2Proof/Certificates/Slice0/Obligations.lean ====
section
/-! DEFINITION. The statements for the provers. A statement of what a command does has the form: from every state that
meets its hypotheses, exec answers a next state, of which it says what the spec gives. `OnlyParts` and `OnlyRegs` state
the frame: no other component of the state, no other register changes. -/

open Sys2Proof Sys2Proof.Machine Sys2Proof.Safety

/-! ### Steps and the invariant -/

/-- A step with a command at the front of the queue is that command on the state with the queue's rest. -/
def Obligations.StepRunsFrontCommand : Prop :=
  ∀ (c : Instr) (rest : List Instr) (s : State), s.pending = c :: rest → step s = exec c { s with pending := rest }

/-- Time (R27, R28, R120, R124, R161, R243, R261, R335, R372): when it comes to a cycle, all that is due by then has come about,
and only what such things touch has changed; with nothing due only the clock moves. A command that names its cycle, like a
stream word on its ISSUE, first lets time come there. The model's choice (assumption log 2): a step on an empty queue lets one
cycle pass. -/
def Obligations.TimePassesWithWhatIsDue : Prop :=
  (∀ (s : State) (c : Nat), (s.upTo c).dueBy c = [] ∧ (s.upTo c).now = max s.now c ∧
    (Settled s c → s.upTo c = s.advance c ∧ OnlyParts [.now] s (s.upTo c)) ∧
    OnlyParts [.now, .regs, .mem, .run, .job, .tiles, .attend, .fifos, .cap, .hub, .links, .solver, .outbox, .fresh] s (s.upTo c)) ∧
  (∀ s : State, s.pending = [] → step s = .next (s.upTo (s.now + 1))) ∧
  (∀ (c : Instr) (at_ : Nat) (s : State), s.power.halt = .no → timedAt c = some at_ → exec c s = exec c (s.upTo at_)) ∧
  (∀ (q : Nat × Instr) (s : State) (tile : Nat) (w : Word256) (arrival : List Word32) (loc : VeLoc) (a b : Nat) (x : Word32)
    (k : Bool) (aux : List UpdAux), q ∈ streamWords tile w arrival loc a b x k aux →
    wOpcode w = q.1 → s.streamRuns tile = true → (s.atIssue w).streamRuns tile = true → exec q.2 s = exec q.2 (s.atIssue w))

/-- The reset state is sound: nothing waits, no memory byte is listed, the registers are canonical. -/
def Obligations.ResetIsSound : Prop :=
  Safety.Inv State.reset ∧ State.reset.pending = [] ∧ (∀ a, State.reset.rd8 a = 0) ∧ (∀ k, State.reset.regGet k = resetOf k)

/-- Every step keeps the invariant: register table and memory canonical, four contexts, four FIFOs, two rings, sixteen
links. -/
def Obligations.EveryStepKeepsTheInvariant : Prop :=
  ∀ s t : State, Safety.Inv s → step s = .next t → Safety.Inv t

/-- No command touches the queue that it waited in, and none runs the clock back. -/
def Obligations.CommandsKeepTheQueueAndTheClock : Prop :=
  ∀ (c : Instr) (s t : State), exec c s = .next t → t.pending = s.pending ∧ s.now ≤ t.now

/-- A command stops exactly when it names an HBM granule or stack that the address map does not have (R322, R323, R327),
and no command is refused. -/
def Obligations.CommandsStopOnlyOutsideMemory : Prop :=
  ∀ (c : Instr) (s : State),
    (∀ r, exec c s ≠ .refused r) ∧
    ((∃ x, exec c s = .fault x) ↔
      match c with
      | .hubRead _ stack granule _ | .hubWrite _ stack granule _ _ | .atomicAdd _ stack granule _ _ _
      | .elasticWindow _ stack granule _ _ => ¬ (stack < 16 ∧ granule < 201326592)
      | .scrub _ stack _ => ¬ stack < 16
      | _ => False)

/-! ### The tick -/

/-- FENCE_CHECK (R37, R39, R40): each late window is one miss, class B, and what it still has under way towards the fence is cut
to the fence's cycle and comes about; the first miss of the tick fills a free TICK_FENCE_MISS; with no late window only time
passes. -/
def Obligations.FenceMissesAreCountedAndTheFirstRecorded : Prop :=
  ∀ (s : State) (f : ImageFile) (p : PlanImg) (fence : Nat) (stalled : List Nat),
    InTick f p s → fence < planNfence p →
    let c := s.edgeAt + fenceOff (p.fences.getD fence 0)
    let late := s.lateWindows fence c stalled
    Settled s c →
    ∃ t, exec (.fenceCheck fence stalled) s = .next (t.upTo c) ∧
      t.now = max s.now c ∧ t.run.items = s.run.items.filter (fun i => i.2.2 != fence) ∧
      t.tiles.flights = s.tiles.flights.map (fun g =>
        if late.contains (20 + g.tile / 10) && wFence g.word == fence then { g with done := min g.done c } else g) ∧
      t.fget TICK_CNT_FENCE_MISSES = min (s.fget TICK_CNT_FENCE_MISSES + late.length) (2 ^ 24 - 1) ∧
      (late = [] → t.upTo c = t ∧ OnlyParts [.now, .run] s t) ∧
      (late ≠ [] → t.fbit TICK_STS_FENCE_MISS = true ∧ t.run.fenceMissed = true ∧ RaisesB s t) ∧
      (∀ w rest, late = w :: rest → s.run.fenceMissed = false → s.fbit TICK_FENCE_MISS_VALID = false →
        t.fget TICK_FENCE_MISS_FENCE = fence % 2 ^ 4 ∧ t.fget TICK_FENCE_MISS_SOURCE = w % 2 ^ 5 ∧
        t.fget TICK_FENCE_MISS_IS_DATA = 0 ∧ t.fget TICK_FENCE_MISS_TICK = s.tickCount % 2 ^ 32 ∧
        t.fbit TICK_FENCE_MISS_VALID = true) ∧
      (s.run.fenceMissed = true → t.regGet TICK_FENCE_MISS.base = s.regGet TICK_FENCE_MISS.base) ∧
      OnlyParts [.now, .regs, .run, .tiles, .fifos, .cap, .outbox] s t ∧
      OnlyRegs ([TICK_CNT.base, TICK_FENCE_MISS.base, TICK_STS.base] ++ noteRegs) s t

/-- DATA_FENCE_CHECK (R40, R41, R44, R45, R314, R316): in a tick of any kind, on the data fence's cycle a complete buffer or
prefetch passes; a host-input buffer that is not complete is, but on a lender, one data fence miss, class B; a late prefetch is
counted, and misses the fence, or, of a LAGGED tensor in a step with room, parks its weight instead. -/
def Obligations.DataFenceChecksItsBuffer : Prop :=
  ∀ (s : State) (f : ImageFile) (p : PlanImg) (i : Nat),
    InTick f p s → s.reloading = false → i < planNdfence p →
    let d := p.dfences.getD i 0
    let c := s.edgeAt + dfCycle d
    let missed := fun (t : State) => Counts TICK_CNT_FENCE_MISSES 1 s t ∧ t.fbit TICK_STS_DATA_FENCE_MISS = true ∧ RaisesB s t
    Settled s c →
    ∃ t, exec (.dataFenceCheck i) s = .next t ∧ t.now = max s.now c ∧
      (dfKind d = 0 → s.inputLate f p i = false → OnlyParts [.now] s t) ∧
      (dfKind d = 0 → s.isLender = true → OnlyParts [.now] s t) ∧
      (dfKind d = 0 → s.inputLate f p i = true → s.isLender = false → missed t ∧
        OnlyParts [.now, .regs, .run, .fifos, .cap, .outbox] s t ∧
        (s.run.fenceMissed = true → t.regGet TICK_FENCE_MISS.base = s.regGet TICK_FENCE_MISS.base) ∧
        OnlyRegs ([TICK_CNT.base, TICK_FENCE_MISS.base, TICK_STS.base] ++ noteRegs) s t) ∧
      (∀ e, dfKind d ≠ 0 → (imgSeenBy f (s.fget HULL_ORCH_MODULE)).stateMap.find? (fun e => e.tensor == dfTensor d && e.role != 8) = some e →
        let room := decide ((s.lagEnt e.parent s.ccr.parity).parked.length < e.d)
        (s.prefetched e.tensor = true → OnlyParts [.now] s t) ∧
        (s.prefetched e.tensor = false →
          Counts HULL_SLOW_CNT_LATE 1 s t ∧ t.fbit HULL_SLOW_STS_PREFETCH_LATE = true ∧ t.mem = s.mem ∧
          ((e.lagged && s.run.stepRuns) = false ∨ room = false → missed t) ∧
          ((e.lagged && s.run.stepRuns) = true → room = false → t.fbit COMMIT_STS_LAG_OVERRUN = true ∧
            (if s.run.healthSent then t.run.lateLag else t.run.lagOverrun) = true) ∧
          ((e.lagged && s.run.stepRuns) = true → room = true → t.job.parking.contains e.parent = true ∧ t.run = s.run ∧
            t.fget TICK_CNT_FENCE_MISSES = s.fget TICK_CNT_FENCE_MISSES)))

/-- TICK_EDGE (R21, R62, R65, R66, R309): the edge falls on the marker's cycle or the predicted one, and the tick count moves
on. With a token the control record and its mirrors become what the token makes of them, the tick that opens has the token's
plan and its tick's bookkeeping starts anew, with no pod fault, HBM lane or link lane change left waiting; without one the
control record stands, the tick that opens keeps the plan and runs no step, and TOKEN_ABSENT is set. Memory and the contexts
stand. -/
def Obligations.TickEdgeAppliesTheTokenAndOpensTheTick : Prop :=
  ∀ (s : State) (f : ImageFile) (p : PlanImg),
    InTick f p s → s.job.tokensMissed = 0 → s.job.aborting = none → s.job.preemptAt = none →
    Settled s (s.job.markerEdge.getD s.predictedEdge) →
    (∀ k copy, s.reloading = false → s.job.token = some (k, copy) →
      ∃ t, exec .tickEdge s = .next t ∧
        t.edgeAt = s.job.markerEdge.getD s.predictedEdge ∧ t.ccr = ccrApply f s.ccr k s.run.loss ∧
        t.mirror0 = t.ccr ∧ t.mirror1 = t.ccr ∧ t.job.lastToken = some k ∧ t.job.token = none ∧
        t.tickCount = (s.tickCount + 1) % 2 ^ 64 ∧ t.fget TICK_PLAN_CUR = tokPlan k ∧
        t.run.active = true ∧ t.run.noStep = false ∧ t.run.items = [] ∧ t.tiles.podPend = [] ∧ t.tiles.flights = [] ∧
        t.tiles.ended = [] ∧ t.hub.swaps = [] ∧ (∀ l, l < 16 → (t.link l).swaps = []) ∧
        OnlyParts [.now, .edgeAt, .regs, .ccr, .mirror0, .mirror1, .run, .job, .tiles, .attend, .fifos, .cap, .hub, .links,
          .host, .slow, .power, .outbox, .fresh] s t) ∧
    (s.job.token = none →
      ∃ t, exec .tickEdge s = .next t ∧
        t.edgeAt = s.job.markerEdge.getD s.predictedEdge ∧ t.ccr = s.ccr ∧ t.job.tokensMissed = 1 ∧
        t.run.active = true ∧ t.run.stepRuns = false ∧ t.run.noStep = true ∧ t.fbit TICK_STS_TOKEN_ABSENT = true ∧
        t.tickCount = (s.tickCount + 1) % 2 ^ 64 ∧ t.fget TICK_PLAN_CUR = s.fget TICK_PLAN_CUR ∧
        OnlyParts [.now, .edgeAt, .regs, .run, .job, .tiles, .attend, .fifos, .cap, .hub, .links, .power, .outbox] s t)

/-- INGEST_CLOSE (R396, R200): the close takes the token count of each slot's accepted micro-batch and their sum, and the sum is
due to go up the tree, or, on the master, N to come down it; each slot whose micro-batch was neither accepted nor refused is
input late, class B. -/
def Obligations.IngestCloseTakesTheLocalCount : Prop :=
  ∀ (s : State) (f : ImageFile) (p : PlanImg),
    InTick f p s → s.reloading = false → s.run.stepRuns = true → s.run.closeTaken = false → s.isLender = false →
    Settled s (s.edgeAt + (planFenceOf p 1 - imgCommitMin f)) →
    let c := planFenceOf p 1 - imgCommitMin f
    let n := ((s.slotsTaken p).map (fun x => x.2)).foldl (· + ·) 0
    ∃ t, exec .ingestClose s = .next t ∧
      t.now = max s.now (s.edgeAt + c) ∧ t.run.closeTaken = true ∧
      t.job.localTokens = n ∧ t.job.localSlots = s.slotsTaken p ∧ t.fget HULL_TOKENS_LOCAL = n % 2 ^ 32 ∧
      t.run.treeDue = s.run.treeDue ++ [if s.fbit HULL_ORCH_MASTER then (s.treeCycle f (s.upCycle f c + 512), .total)
        else (s.upCycle f c, .count)] ∧
      (s.silentSlots p ≠ [] → t.fbit HULL_INGEST_STS_SLOT_MISSING = true ∧ RaisesB s t) ∧
      OnlyParts [.now, .regs, .run, .job, .fifos, .cap, .outbox] s t ∧
      OnlyRegs ([HULL_TOKENS.base, HULL_INGEST_FIRST.base, HULL_INGEST_STS.base] ++ noteRegs) s t

/-- INGEST_END after the close (R202 to R204): the module holds N, every tile holds the slot counts that the close took, and
either ν is formed or, with N = 0, the step is empty. -/
def Obligations.IngestEndFormsNuOrMarksTheStepEmpty : Prop :=
  ∀ (s : State) (f : ImageFile) (p : PlanImg) (others : Nat),
    InTick f p s → s.reloading = false → s.run.stepRuns = true → s.run.closeTaken = true → s.run.ingestEnded = false →
    Settled s (s.edgeAt + planFenceOf p 1) →
    let n := s.job.localTokens + if s.fget HULL_ORCH_SIZE ≤ 1 then 0 else others
    ∃ t, exec (.ingestEnd others) s = .next t ∧
      t.now = max s.now (s.edgeAt + planFenceOf p 1) ∧ t.run.ingestEnded = true ∧
      t.fget HULL_TOKEN_SUM_SUM = n % 2 ^ 48 ∧ t.fbit HULL_TOKEN_SUM_VALID = true ∧
      ((s.job.localSlots.map (fun x => x.1)).Nodup → (∀ x ∈ s.job.localSlots, x.1 < 1024) →
        ∀ tile x, tile < 80 → x ∈ s.job.localSlots → tabGet (fun _ => 0) t.tiles.slotCnt (tile * 1024 + x.1) = x.2) ∧
      (n ≠ 0 → t.fget HULL_NORM_NU = recipNat n % 2 ^ 32 ∧ t.fbit HULL_NORM_VALID = true ∧
        t.run.emptyStep = s.run.emptyStep) ∧
      (n = 0 → t.run.emptyStep = true ∧ t.fbit HULL_INGEST_STS_EMPTY_STEP = true ∧
        t.fget HULL_NORM_NU = s.fget HULL_NORM_NU) ∧
      OnlyParts [.now, .regs, .run, .job, .tiles, .outbox] s t ∧
      OnlyRegs [HULL_TOKEN_SUM.base, HULL_NORM.base, HULL_INGEST_STS.base] s t

/-- LOSS_FENCE (R298, R299): with ν held, ℓ is the rounded product of the loss sum and ν, it is tested against the committed
control record, and a spike or non-finite loss is flagged. -/
def Obligations.LossFenceFormsAndTestsTheLoss : Prop :=
  ∀ (s : State) (f : ImageFile) (p : PlanImg) (sum : Word32) (nu : Nat),
    InTick f p s → s.reloading = false → s.run.stepRuns = true → s.nu = some nu →
    Settled s (s.edgeAt + planFenceOf p 2) →
    let l := (fpMul sum.toNat nu).bits
    ∃ t, exec (.lossFence sum) s = .next t ∧
      t.now = max s.now (s.edgeAt + planFenceOf p 2) ∧ t.run.loss = some l ∧ t.job.lastLoss = some l ∧
      t.fget COMMIT_LOSS0_LAST = l % 2 ^ 32 ∧
      t.run.spike = (lossTest f s.ccr l == 1) ∧ t.run.lossNonfinite = (lossTest f s.ccr l == 2) ∧
      (lossTest f s.ccr l ≠ 0 → t.fbit COMMIT_STS_SPIKE = true) ∧ (lossTest f s.ccr l = 2 → t.run.nonfinite = true) ∧
      OnlyParts [.now, .regs, .run, .job, .outbox] s t ∧
      OnlyRegs [COMMIT_LOSS0.base, COMMIT_STS.base, HULL_NF_FIRST.base, HULL_FAULT_STS.base] s t

/-- HEALTH_SEND and HEALTH_RECORD (R301, R392, R393): the health word is shown, the module's own word is counted into the
combined record, and off the master the record is due to go up the tree in its slot; a child's record adds its tokens, modules
and flags, and a lost one sets MISSING. -/
def Obligations.HealthIsSentAndCombined : Prop :=
  ∀ (s : State) (f : ImageFile) (p : PlanImg), InTick f p s → s.reloading = false →
    (s.run.healthSent = false → Settled s (s.edgeAt + planFenceOf p 3) →
      ∃ t, exec .healthSend s = .next t ∧
        t.now = max s.now (s.edgeAt + planFenceOf p 3) ∧ t.run.healthSent = true ∧
        (∀ i, i < 5 → t.fget (COMMIT_HEALTH_DATA.ix i) = [s.ccr.step, s.ccr.t,
          s.fget HULL_ORCH_MODULE + s.healthTokens % 2 ^ 32 * 2 ^ 32, s.run.loss.getD 0 + s.run.updates % 2 ^ 32 * 2 ^ 32,
          s.healthFlags].getD i 0 % 2 ^ 64) ∧
        t.job.health.modules = s.job.health.modules + 1 ∧
        t.job.health.tokens = s.job.health.tokens + s.healthTokens ∧
        t.run.treeDue = s.run.treeDue ++
          (if s.fbit HULL_ORCH_MASTER then [] else [(s.upCycle f (planFenceOf p 3), .health)]) ∧
        OnlyParts [.now, .regs, .run, .job] s t ∧
        OnlyRegs ((range' 0 5).map (fun i => (COMMIT_HEALTH_DATA.ix i).base)) s t) ∧
    (∀ at_ link, s.job.childrenSeen.contains link = false → Settled s at_ →
      (∃ t, exec (.healthRecord at_ link none) s = .next t ∧ t.job.health = { s.job.health with missing := true } ∧
        t.now = max s.now at_ ∧ t.job.childrenSeen.contains link = true ∧ OnlyParts [.now, .job] s t) ∧
      (∀ r, ∃ t, exec (.healthRecord at_ link (some r)) s = .next t ∧
        t.now = max s.now at_ ∧ t.job.childrenSeen.contains link = true ∧
        t.job.health.updates = min (s.job.health.updates + r.updates) (2 ^ 32 - 1) ∧
        t.job.health.tokens = s.job.health.tokens + r.tokens ∧
        t.job.health.modules = s.job.health.modules + r.modules ∧
        t.job.health.flags = Nat.lor s.job.health.flags r.flags ∧
        (r.step ≠ s.ccr.step → t.job.health.mismatch = true) ∧ (r.tShadow ≠ s.ccr.t → t.job.health.mismatch = true) ∧
        (r.loss ≠ s.run.loss.getD 0 → t.job.health.mismatch = true) ∧
        (r.modules ≠ s.subtreeSize f (s.childAt f link) → t.job.health.missing = true) ∧ OnlyParts [.now, .job] s t))

/-- COMMIT_TOKEN (R65, R304, R394): the master forms its token from the combined health, sends it in the first tree slot from
then on over its child links, with the token of the tick before as its copy, and holds both; another module forwards the frame
it was given and holds it when it names this tick; no module takes a second token for an edge. -/
def Obligations.CommitTokenIsSentForwardedAndHeld : Prop :=
  ∀ (s : State) (f : ImageFile) (p : PlanImg) (at_ : Nat), InTick f p s → s.reloading = false →
    Settled s at_ →
    (∀ frame, s.job.token.isSome = true → exec (.commitToken at_ frame) s = .next s) ∧
    (∀ frame, s.job.token = none → s.fbit HULL_ORCH_MASTER = true →
      let k := (s.advance at_).masterToken f
      let copy := match s.job.lastToken with | some q => if tokTick q + 1 = s.tickCount then some q else none | none => none
      ∃ t, exec (.commitToken at_ frame) s = .next t ∧
        t.job.token = some (k, copy) ∧ t.job.lastToken = some k ∧
        (∀ o ∈ treeOut s s.childLinks (s.treeCycle f at_) 2 (tokenFlit k (copy.getD 0)), o ∈ t.outbox) ∧
        t.fget TICK_PLAN_NEXT = tokPlan k ∧ t.fbit TICK_PLAN_NEXT_VALID = true ∧
        OnlyParts [.now, .regs, .run, .job, .attend, .fifos, .cap, .links, .outbox] s t) ∧
    (∀ k copy, s.job.token = none → s.fbit HULL_ORCH_MASTER = false →
      ∃ t, exec (.commitToken at_ (some (k, copy))) s = .next t ∧ t.now = max s.now at_ ∧
        t.outbox = s.outbox ++ treeOut s s.childLinks at_ 2 (tokenFlit k copy) ∧
        t.job.token = (if tokTick k = s.tickCount then some (k, if copy = 0 then none else some copy) else none) ∧
        OnlyParts [.now, .regs, .job, .links, .outbox] s t ∧ OnlyRegs [TICK_PLAN.base] s t) ∧
    (s.job.token = none → s.fbit HULL_ORCH_MASTER = false →
      exec (.commitToken at_ none) s = .next (s.advance at_))

/-- MARKER_SEND, MARKER and MARKER_LOST (R62, R63, R64): the master sends the next tick's count on its cycle TICK_PERIOD − LEAD;
a marker received on cycle c fixes the edge at c + LEAD − PATH and goes on to the children, and a difference of 2 cyc or more
from the prediction is an alignment fault, class B; with no marker by the predicted edge a lost one is counted, and the second
in a row is class C. -/
def Obligations.MarkersFixTheNextEdge : Prop :=
  ∀ s : State, Awake s → s.run.active = true →
    (s.fbit HULL_ORCH_MASTER = true →
      let c := s.predictedEdge - s.fget TICK_LEAD_LEAD
      Settled s c → ∃ t, exec .markerSend s = .next t ∧ t.now = max s.now c ∧
        t.outbox = s.outbox ++ treeOut s s.childLinks c 3 (packFlit [(8, s.tickCount + 1)]) ∧
        OnlyParts [.now, .links, .outbox] s t) ∧
    (∀ c, s.fbit HULL_ORCH_MASTER = false → s.job.markerEdge = none → Settled s c →
      let e := c + s.fget TICK_LEAD_LEAD - s.fget TICK_LEAD_PATH
      ∃ t, exec (.marker c (s.tickCount + 1)) s = .next t ∧ t.now = max s.now c ∧
        t.job.markerEdge = some e ∧ t.job.markersLost = 0 ∧
        (∀ o ∈ treeOut s s.childLinks c 3 (packFlit [(8, s.tickCount + 1)]), o ∈ t.outbox) ∧
        ((s.predictedEdge + 2 ≤ e ∨ e + 2 ≤ s.predictedEdge) →
          t.fget TICK_ALIGN_ALIGN_FAULTS = min (s.fget TICK_ALIGN_ALIGN_FAULTS + 1) (2 ^ 16 - 1) ∧
          t.fbit TICK_STS_ALIGN_FAULT = true ∧ RaisesB s t) ∧
        (s.predictedEdge < e + 2 → e < s.predictedEdge + 2 → OnlyParts [.now, .job, .links, .outbox] s t) ∧
        OnlyParts [.now, .job, .regs, .run, .fifos, .cap, .links, .outbox] s t ∧
        OnlyRegs ([TICK_ALIGN.base, TICK_STS.base] ++ noteRegs) s t) ∧
    (s.fbit HULL_ORCH_MASTER = false → s.job.markerEdge = none → s.job.lostAtEdge = false → Settled s s.predictedEdge →
      ∃ t, exec .markerLost s = .next t ∧ t.now = max s.now s.predictedEdge ∧
        t.job.lostAtEdge = true ∧ t.job.markersLost = s.job.markersLost + 1 ∧
        t.fget TICK_ALIGN_MARKERS_LOST = min (s.fget TICK_ALIGN_MARKERS_LOST + 1) (2 ^ 16 - 1) ∧
        t.fbit TICK_STS_MARKER_LOST = true ∧
        (s.job.markersLost ≠ 0 → RaisesC s t ∧ (t.attendOf 1).expiry.isSome = true) ∧
        (s.job.markersLost = 0 → OnlyParts [.now, .job, .regs, .fifos, .cap, .outbox] s t) ∧
        OnlyParts [.now, .job, .regs, .run, .attend, .fifos, .cap, .outbox] s t)

/-- ABORT_NOTICE, CAPTURE_NOTICE and LAYOUT_SWITCH (R410, R517, R402): a notice shows on its link; the first one sets the abort
and goes on in every control slot that is left of every tree link, and a later one changes nothing more; a capture notice goes
on to the children, and with ORCH_EN is held for its tick; a new layout is in force 4,096 cyc after its phase begins. -/
def Obligations.NoticesAndLayouts : Prop :=
  ∀ s : State, Awake s → s.run.active = true →
    (∀ at_ link origin cause, Settled s at_ →
      ∃ t, exec (.abortNotice at_ link origin cause) s = .next t ∧ t.now = max s.now at_ ∧
        t.fbit (LNK_STS_ABORT_SEEN.die (link % 16 / 4)) = true ∧
        (s.job.aborting = none →
          t.job.aborting = some (origin, cause) ∧ t.fbit HULL_ORCH_STS_ABORT_RECEIVED = true ∧
          (∀ l ∈ s.treeLinks, ∀ y ∈ s.controlCycles l at_, ∃ hdr, .frame l y 2 [hdr, noticeFlit origin cause] ∈ t.outbox)) ∧
        (s.job.aborting ≠ none → OnlyParts [.now, .regs, .outbox] s t) ∧
        OnlyParts [.now, .job, .regs, .links, .outbox] s t ∧
        OnlyRegs [HULL_ORCH_STS.base, (LNK_STS.die (link % 16 / 4)).base] s t) ∧
    (∀ at_ tick cycle, Settled s at_ →
      ∃ t, exec (.captureNotice at_ tick cycle) s = .next t ∧ t.now = max s.now at_ ∧
        t.outbox = s.outbox ++ treeOut s s.childLinks at_ 2 (captureFlit tick cycle) ∧
        (s.fbit HULL_CAPTURE_CFG_ORCH_EN = true →
          t.job.captureAt = some (tick, cycle) ∧ t.fbit HULL_CAPTURE_ID_ARMED_ORCH = true) ∧
        (s.fbit HULL_CAPTURE_CFG_ORCH_EN = false → OnlyParts [.now, .links, .outbox] s t) ∧
        OnlyParts [.now, .job, .regs, .links, .outbox] s t ∧ OnlyRegs [HULL_CAPTURE_ID.base] s t) ∧
    (∀ p phase, s.curPlan = some p → phase < planNfence p → phaseLayout p phase ≠ s.job.layout →
      Settled s (s.edgeAt + phaseStart p phase + 4096) →
      ∃ t, exec (.layoutSwitch phase) s = .next t ∧ t.now = max s.now (s.edgeAt + phaseStart p phase + 4096) ∧
        t.job.layout = phaseLayout p phase ∧ t.fget HULL_ORCH_LAYOUT = phaseLayout p phase % 2 ^ 4 ∧
        OnlyParts [.now, .job, .regs] s t ∧ OnlyRegs [HULL_ORCH.base] s t)

/-! ### Tile streams -/

/-- Every stream word issues on its ISSUE cycle of the running tick and takes its place in the tile's stream as its sequence
number (R113; the model's choice for a word that the stream does not hold: the next number); outside a tick that runs its step
or serves, and after END in a tick, a tile runs no word, and under another opcode than its own a word is no instruction of that
name (R66, R130, R483). -/
def Obligations.StreamWordsIssueInOrder : Prop :=
  ∀ (s : State) (tile : Nat) (w : Word256) (arrival : List Word32) (loc : VeLoc) (a b : Nat) (x : Word32) (k : Bool)
    (aux : List UpdAux) (q : Nat × Instr),
    q ∈ streamWords tile w arrival loc a b x k aux →
    (Issues s tile w q.1 →
      ∃ t, exec q.2 s = .next t ∧ t.now = max s.now (s.issueAbs w) ∧
        t.seqNext tile = max (s.seqNext tile) (s.seqOf tile w + 1) ∧
        t.fget (TILE_SEQ_LAST.tile tile) = s.seqOf tile w % 2 ^ 32 ∧ t.edgeAt = s.edgeAt ∧ t.ccr = s.ccr) ∧
    (s.runsWord tile w q.1 = false → exec q.2 s = .next s) ∧
    (s.streamRuns tile = false → ∀ (cycle : Nat) (due : Option Nat) (args : VeArgs),
      exec (.lateIssue tile w cycle ⟨due, args⟩) s = .next s)

/-- MM_STREAM and MM_INCELL (R92, R111, R115, R116, R120, R123, R124, R132, R134, R503): an instruction that meets its rules is
under way until its last row is usable; when it lands, every row usable by then holds, element by element, the running sum of
its products over the reduction indices, each operand as its line stood on the cycle that the array takes it, a masked or padded
row +0 unless it adds, the invalid tag is set where a sum is invalid and, without ADD, clear elsewhere, and no other accumulator
element changes. At its start a word without ADD marks the tile written, and one with CHAIN takes the chain mark. To a logical
pod that no pod serves it is counted, class B; one that breaks its rules is a stream fault, one that meets an operand line of
another format, on its first cycle or later, is class C and leaves the marks as if it had not started, and a chain value that
has not come is class B: each of these three with the invalid tag; and nothing is written. -/
def Obligations.PodInstructionsWriteTheirRows : Prop :=
  (∀ (s : State) (tile : Nat) (w : Word256) (stream : Bool), Issues s tile w (if stream then 0x10 else 0x11) →
    let c := if stream then Instr.mmStream tile w else Instr.mmIncell tile w
    let x := s.issueAbs w
    let served := s.unserved tile (wLpod w) = false
    let fault := podFieldsBad stream w = true ∨ fp8OrientBad w = true ∨
      (wAdd w = true ∧ wChain w = false ∧ s.accWritten tile (wAcc w) = false) ∨ s.podDepBad stream tile w x = true
    let noValue := wChain w = true ∧ s.chainClear stream tile w x = true
    let still := fun (t : State) => t.tiles.acc = s.tiles.acc ∧ t.tiles.opLine = s.tiles.opLine ∧ t.tiles.lines = s.tiles.lines ∧
      t.mem = s.mem
    (¬ served → ∃ t, exec c s = .next t ∧ Counts (TILE_POD_ABSENT.tile tile) 1 s t ∧ RaisesB s t ∧ still t ∧
      t.tiles.flights = s.tiles.flights ∧ t.tiles.mark = s.tiles.mark ∧
      OnlyParts [.now, .regs, .run, .tiles, .cap, .outbox] s t) ∧
    (served → fault → ∃ t, exec c s = .next t ∧ StreamFaults tile w s t) ∧
    (served → ¬ fault → s.fmtMismatch stream tile w x x = true → ∃ t, exec c s = .next t ∧
      t.fbit (TILE_STS_FMT_MISMATCH.tile tile) = true ∧ t.accInvalid tile (wAcc w) = true ∧ t.run.nonfinite = true ∧
      RaisesC s t ∧ still t ∧ t.tiles.flights = s.tiles.flights) ∧
    (served → ¬ fault → s.fmtMismatch stream tile w x x = false → noValue → ∃ t, exec c s = .next t ∧
      t.fbit (TILE_STS_CHAIN_MISSING.tile tile) = true ∧ t.accInvalid tile (wAcc w) = true ∧ RaisesB s t ∧ still t ∧
      t.tiles.flights = s.tiles.flights) ∧
    (served → ¬ fault → s.fmtMismatch stream tile w x x = false → ¬ noValue → ∃ t, exec c s = .next t ∧
      t.tiles.flights = s.tiles.flights ++ [{
        kind := if stream then .stream else .incell, tile := tile, word := w, start := x, seq := s.seqOf tile w % 2 ^ 32,
        done := podUsable stream w x, set := !s.accWritten tile (wAcc w), took := wChain w }] ∧
      (wAdd w = false → t.accWritten tile (wAcc w) = true) ∧ t.accInvalid tile (wAcc w) = s.accInvalid tile (wAcc w) ∧
      (wChain w = true → t.accWritten tile (wAcc w) = true ∧ t.accChain tile (wAcc w) = false) ∧
      t.run.items = s.run.items ++ [(20 + tile / 10, podUsable stream w x, wFence w)] ∧ still t ∧
      OnlyParts [.now, .regs, .run, .tiles] s t)) ∧
  (∀ (s : State) (g : Flight) (stream : Bool), Safety.Inv s → s.pending = [] → g.tile < 80 →
    g.kind = (if stream then .stream else .incell) → s.dueBy (s.now + 1) = [(s.flightDue g, .flight g)] →
    let w := g.word
    let a := wAcc w
    let older := s.olderThan g
    (s.fmtMismatch stream g.tile w g.start g.done = false → ∃ t, step s = .next t ∧ t.now = s.now + 1 ∧
      (∀ i, i < 128 → ∀ j, j < 128 → t.accEl g.tile a i j =
        if i < wRows w ∧ rowUsable stream w g.start i ≤ g.done then
          if s.rowLive stream g.tile w g.start i then
            ((s.elemSum stream g.tile w g.start (s.redIndices g.tile w) i j
              (if wAdd w then some (s.accElOver g.tile a i j (initCycle stream g.start i) older) else none)).val.getD 0) % 2 ^ 32
          else if wAdd w then s.accEl g.tile a i j else 0
        else s.accEl g.tile a i j) ∧
      (∀ n b, n < 80 → b < 256 → (n ≠ g.tile ∨ b ≠ a) → ∀ i, i < 128 → ∀ j, j < 128 → t.accEl n b i j = s.accEl n b i j) ∧
      (t.accInvalid g.tile a = true ↔ wAdd w = true ∧ s.accInvalid g.tile a = true ∨
        ∃ i j, i < wRows w ∧ j < 128 ∧ rowUsable stream w g.start i ≤ g.done ∧ s.rowLive stream g.tile w g.start i = true ∧
          (s.elemSum stream g.tile w g.start (s.redIndices g.tile w) i j
            (if wAdd w then some (s.accElOver g.tile a i j (initCycle stream g.start i) older) else none)).bad.isSome = true) ∧
      t.tiles.flights = s.tiles.flights.filter (fun q => q != g) ∧ t.tiles.opLine = s.tiles.opLine ∧
      t.tiles.lines = s.tiles.lines ∧ OnlyParts [.now, .regs, .run, .tiles, .outbox] s t) ∧
    (s.fmtMismatch stream g.tile w g.start g.done = true → ∃ t, step s = .next t ∧
      t.fbit (TILE_STS_FMT_MISMATCH.tile g.tile) = true ∧ t.accInvalid g.tile a = true ∧ RaisesC s t ∧
      t.accWritten g.tile a = (s.accWritten g.tile a && !(g.set && (s.accHist g.tile a).writer == some g.seq)) ∧
      t.accChain g.tile a = (s.accChain g.tile a || g.took) ∧ t.tiles.acc = s.tiles.acc ∧ t.mem = s.mem))

/-- LOAD (R92, R258, R483, R602): line i takes its 256 bytes of memory and the word's format tag 488 + i cycles after the issue;
before that, and on every other line, operand SRAM stands. A LOAD of state reads the bank that the step reads (R22), one from a
factor's buffers the buffer that the descriptor selects. The model's choice (assumption log 105): lines past the tile's SRAM are
a stream fault. -/
def Obligations.LoadFillsOperandLines : Prop :=
  ∀ (s : State) (tile : Nat) (w : Word256), Issues s tile w 0x20 →
    let l0 := getBits (wX w) 0 17
    let x := s.issueAbs w
    (98304 < l0 + (wY w + 1) → ∃ t, exec (.load tile w) s = .next t ∧ StreamFaults tile w s t) ∧
    (l0 + wY w < 98304 → ∃ t, exec (.load tile w) s = .next t ∧
      (∀ i, i ≤ wY w → t.opLineAt tile (l0 + i) (x + 488 + i) = s.rdGranule (s.statePlace (s.factorPlace (wA w + 256 * i))) ∧
        t.opTagAt tile (l0 + i) (x + 488 + i) = wFmt w) ∧
      (∀ l y, y < x + 488 → t.opLineAt tile l y = s.opLineAt tile l y) ∧ OnlyLines tile l0 (l0 + wY w + 1) s t ∧
      t.run.items = s.run.items ++ [(20 + tile / 10, x + 488 + wY w, wFence w)] ∧
      t.tiles.acc = s.tiles.acc ∧ t.tiles.flights = s.tiles.flights ∧ OnlyParts [.now, .regs, .run, .tiles] s t ∧
      OnlyRegs [(TILE_SEQ.tile tile).base] s t)

/-- READOUT (R82, R147, R326, R483, R602): row i, as it stands i cycles after the issue, as FP32, as pairs or converted, stands
in its place in memory, or 16 cycles later in its place in operand SRAM, and nothing elsewhere changes; a spill that would
narrow, convert or renormalise is a stream fault. The model's choice (assumption log 105): so are more rows, another format or
more lines than there are, and a target in the control region. -/
def Obligations.ReadoutStoresItsRows : Prop :=
  ∀ (s : State) (tile : Nat) (w : Word256), Issues s tile w 0x21 →
    let pair := getBits (wX w) 1 1 == 1
    let f := if pair then 5 else wFmt w
    let wd := fmtWidth f
    let line := getBits (wX w) 3 17
    let step := if isFp8 f then 1 else wd / 16
    let x := s.issueAbs w
    let el := fun i j => (readoutEl f pair (s.accElAt tile (wAcc w) i j (x + i))).bits % 2 ^ wd
    let control := getBits (wX w) 2 1 = 0 ∧ inControlRegion (wA w) ((wY w + 1) * 16 * wd) = true
    (readoutBad w = true ∨ control → ∃ t, exec (.readout tile w) s = .next t ∧ StreamFaults tile w s t) ∧
    (readoutBad w = false → ¬ control → getBits (wX w) 2 1 = 0 → ∃ t, exec (.readout tile w) s = .next t ∧
      (∀ i, i ≤ wY w → ∀ j, j < 128 → t.rdN (wA w + 16 * wd * i + wd / 8 * j) (wd / 8) = el i j) ∧
      OnlyBytes (wA w) (16 * wd * (wY w + 1)) s t ∧ t.tiles.acc = s.tiles.acc ∧ t.tiles.opLine = s.tiles.opLine ∧
      t.tiles.lines = s.tiles.lines ∧ OnlyParts [.now, .regs, .mem, .run, .tiles, .outbox] s t) ∧
    (readoutBad w = false → getBits (wX w) 2 1 = 1 → ∃ t, exec (.readout tile w) s = .next t ∧
      (∀ i, i ≤ wY w → ∀ j, j < 128 →
        t.opBits tile (line + step * i + wd * j / 2048) (x + 16 + i) (wd * j % 2048) wd = el i j) ∧
      OnlyLines tile line (line + step * (wY w + 1)) s t ∧
      t.tiles.acc = s.tiles.acc ∧ OnlyParts [.now, .regs, .run, .tiles, .outbox] s t)

/-- CHAIN (R115, R161, R162, R164): a transfer takes its source bit for bit, a tile of the module or a spill region of HBM, and
is under way for the cycles of R162; the arrival of a link lands at once. When it lands, the tile holds that content, its chain
mark is set and its invalid tag is the source tile's; on a mark still set it is a stream fault and moves nothing, and so is one
whose source is still to be written. The model's choice (assumption log 105): so is a source that does not exist. -/
def Obligations.ChainCopiesBitForBit : Prop :=
  (∀ (s : State) (tile : Nat) (w : Word256) (arrival : List Word32), Issues s tile w 0x22 →
    let kind := getBits (wX w) 0 2
    let src := 10 * getBits (wX w) 2 3 + getBits (wX w) 5 4
    let sacc := getBits (wX w) 9 8
    let x := s.issueAbs w
    let lat := if kind = 1 then 612 else if src / 10 = tile / 10 then 192 else 640
    let bad := chainBad w = true ∨ kind = 0 ∧ s.accBusy src sacc x = true ∨
      kind = 1 ∧ s.writing (wA w) (wA w + 65536) x = true
    (bad → ∃ t, exec (.chain tile w arrival) s = .next t ∧ StreamFaults tile w s t) ∧
    (¬ bad → kind ≠ 2 → ∃ t, exec (.chain tile w arrival) s = .next t ∧
      (∃ content, t.tiles.flights = s.tiles.flights ++ [{
          kind := .chain content (kind == 0 && s.accTagOver src sacc x (s.flightsTo src sacc)), tile := tile, word := w, start := x,
          seq := s.seqOf tile w % 2 ^ 32, done := x + lat }] ∧
        ∀ i, i < 128 → ∀ j, j < 128 → content[128 * i + j]? =
          some (BitVec.ofNat 32 (if kind = 0 then s.accElAt src sacc i j x else s.rdN (wA w + 512 * i + 4 * j) 4))) ∧
      t.tiles.acc = s.tiles.acc ∧ t.tiles.mark = s.tiles.mark ∧ t.tiles.opLine = s.tiles.opLine ∧
      t.tiles.lines = s.tiles.lines ∧ OnlyParts [.now, .regs, .run, .tiles] s t) ∧
    (¬ bad → kind = 2 → s.accChain tile (wAcc w) = true → ∃ t, exec (.chain tile w arrival) s = .next t ∧
      StreamFaults tile w s t) ∧
    (¬ bad → kind = 2 → s.accChain tile (wAcc w) = false → ∃ t, exec (.chain tile w arrival) s = .next t ∧
      (∀ i, i < 128 → ∀ j, j < 128 → t.accEl tile (wAcc w) i j = (arrival.getD (128 * i + j) 0).toNat) ∧
      (∀ n a, n < 80 → a < 256 → n ≠ tile ∨ a ≠ wAcc w → ∀ i, i < 128 → ∀ j, j < 128 → t.accEl n a i j = s.accEl n a i j) ∧
      t.accChain tile (wAcc w) = true ∧ t.accInvalid tile (wAcc w) = false ∧ t.tiles.flights = s.tiles.flights ∧
      t.tiles.opLine = s.tiles.opLine ∧ t.tiles.lines = s.tiles.lines ∧ OnlyParts [.now, .regs, .run, .tiles] s t)) ∧
  (∀ (s : State) (g : Flight) (content : List Word32) (tagged : Bool), Safety.Inv s → s.pending = [] → g.tile < 80 →
    g.kind = .chain content tagged → s.dueBy (s.now + 1) = [(g.done, .flight g)] →
    let a := wAcc g.word
    (s.accChain g.tile a = true → ∃ t, step s = .next t ∧ t.fbit (TILE_STS_STREAM_FAULT.tile g.tile) = true ∧
      t.accInvalid g.tile a = true ∧ RaisesC s t ∧ t.tiles.acc = s.tiles.acc ∧ t.mem = s.mem) ∧
    (s.accChain g.tile a = false → ∃ t, step s = .next t ∧ t.now = s.now + 1 ∧
      (∀ i, i < 128 → ∀ j, j < 128 → t.accEl g.tile a i j = (content.getD (128 * i + j) 0).toNat) ∧
      (∀ n b, n < 80 → b < 256 → n ≠ g.tile ∨ b ≠ a → ∀ i, i < 128 → ∀ j, j < 128 → t.accEl n b i j = s.accEl n b i j) ∧
      t.accChain g.tile a = true ∧ t.accInvalid g.tile a = tagged ∧
      t.tiles.flights = s.tiles.flights.filter (fun q => q != g) ∧ t.tiles.opLine = s.tiles.opLine ∧
      t.tiles.lines = s.tiles.lines ∧ OnlyParts [.now, .tiles] s t))

/-- CONVERT (R22, R93 to R98, R187, R602): each element, as it stands when the engine takes it, state in the bank that the step
reads, multiplied first by ν and by ι where the word says so, is converted once, and nothing outside the target changes; a pair
that R93 does not list is a stream fault, and so, by the model's choice (assumption log 105), is a region past operand SRAM or a
target in the control region. -/
def Obligations.ConvertRoundsEachElementOnce : Prop :=
  ∀ (s : State) (tile : Nat) (w : Word256) (loc : VeLoc) (scales : Nat) (iota : Word32), Issues s tile w 0x30 →
    let src := getBits (wX w) 0 4
    let dst := wFmt w
    let e := 64 * (wY w + 1)
    let scaled := 0 < getBits (wX w) 4 2
    let nu := if getBits (wX w) 4 1 = 1 then s.nu else none
    let io := if getBits (wX w) 5 1 = 1 then some iota.toNat else none
    let lat := if scaled then 16 else 12
    let x := fun i => s.issueAbs w + i / 1024
    let ok := convPairOk src dst = true ∧ (scaled → src = 0) ∧ elsBad loc.aSram (wA w) (fmtWidth src) e = false ∧
      dstBad loc.bSram (wB w) (fmtWidth dst) e = false
    let a := if loc.aSram then wA w else s.statePlace (wA w)
    (¬ ok → ∃ t, exec (.convert tile w loc scales iota) s = .next t ∧ StreamFaults tile w s t) ∧
    (ok → ∃ t, exec (.convert tile w loc scales iota) s = .next t ∧
      (∀ i, i < e →
        let sc := (s.rd8 (scales + i / 128)).toNat
        t.rdEl tile loc.bSram (wB w) (fmtWidth dst) i (x i + lat) =
          (convert src dst (convSource nu io (s.rdEl tile loc.aSram a (fmtWidth src) i (x i)) {}).1 sc sc).bits
            % 2 ^ fmtWidth dst) ∧
      (loc.bSram = false → OnlyBytes (wB w) (e * fmtBytes dst) s t ∧ t.tiles.lines = s.tiles.lines) ∧
      (loc.bSram = true → t.mem = s.mem ∧ OnlyLines tile (wB w) (wB w + ceilDiv (e * fmtWidth dst) 2048) s t) ∧
      t.tiles.opLine = s.tiles.opLine ∧ t.tiles.acc = s.tiles.acc ∧ t.tiles.flights = s.tiles.flights ∧
      OnlyParts [.now, .regs, .mem, .run, .tiles, .outbox] s t)

/-- SCALE and SUMSQ (R22, R76, R116, R187, R277, R283, R286, R602): a scale byte for each block by the image's rule; one FP32
sum of the elements, or of their squares, in increasing index order, of a bucket under ν and over its live rows alone; a plan
that the image does not have is a stream fault. The model's choice (assumption log 105): so is a region past operand SRAM or a
target in the control region. -/
def Obligations.ScaleAndSumsqReduceTheirSource : Prop :=
  ∀ (s : State) (tile : Nat) (w : Word256) (loc : VeLoc) (bucket : Bool),
    let b := wY w + 1
    let e := 64 * (wY w + 1)
    let x := s.issueAbs w
    let last := x + 12 + (ceilDiv e 1024 - 1)
    let a := if loc.aSram then wA w else s.statePlace (wA w)
    let xs := (s.sumEls tile loc (wA w) e x).map (fun v => (readNu (if bucket then s.nu else none) v {}).1)
    let sumBad := s.image.bind (fun f => imgRedPlan f (getBits (wX w) 0 12)) = none ∨
      loc.src = .words ∧ elsBad loc.aSram (wA w) 32 e = true ∨ dstBad loc.bSram (wB w) 32 1 = true
    let kept := fun (t : State) => t.tiles.opLine = s.tiles.opLine ∧ t.tiles.acc = s.tiles.acc ∧ t.tiles.flights = s.tiles.flights
    (Issues s tile w 0x31 →
      (elsBad loc.aSram (wA w) 32 (128 * b) = true ∨ dstBad loc.bSram (wB w) 8 b = true →
        ∃ t, exec (.scale tile w loc) s = .next t ∧ StreamFaults tile w s t) ∧
      (elsBad loc.aSram (wA w) 32 (128 * b) = false → dstBad loc.bSram (wB w) 8 b = false →
        (loc.aSram = loc.bSram → Apart a (if loc.aSram then 2 * b else 512 * b) (wB w) (if loc.aSram then ceilDiv b 256 else b)) →
        ∃ t, exec (.scale tile w loc) s = .next t ∧
          (∀ k, k < b → t.rdEl tile loc.bSram (wB w) 8 k (x + 16 + k / 16) = (Config.scaleByte (getBits (wX w) 0 8)
            ((range' 0 128).map (fun i =>
              BitVec.ofNat 32 (s.rdEl tile loc.aSram a 32 (128 * k + i) (x + k / 16))))).toNat) ∧
          (loc.bSram = false → OnlyBytes (wB w) b s t ∧ t.tiles.lines = s.tiles.lines) ∧
          (loc.bSram = true → t.mem = s.mem ∧ OnlyLines tile (wB w) (wB w + ceilDiv b 256) s t) ∧
          kept t ∧ OnlyParts [.now, .regs, .mem, .run, .tiles] s t)) ∧
    (Issues s tile w 0x41 →
      (sumBad →
        ∃ t, exec (.sumsq tile w loc bucket) s = .next t ∧ StreamFaults tile w s t) ∧
      (¬ sumBad →
        ∃ t, exec (.sumsq tile w loc bucket) s = .next t ∧
          t.rdEl tile loc.bSram (wB w) 32 0 last =
            (seqSum (if getBits (wX w) 12 1 = 1 then xs.map (fun x => (fpMul x x).bits) else xs) {}).1 % 2 ^ 32 ∧
          (loc.bSram = false → OnlyBytes (wB w) 4 s t ∧ t.tiles.lines = s.tiles.lines) ∧
          (loc.bSram = true → t.mem = s.mem ∧ OnlyLines tile (wB w) (wB w + 1) s t) ∧
          kept t ∧ OnlyParts [.now, .regs, .mem, .run, .tiles, .outbox] s t))

/-- TREE (R157, R158): each element of a plan's target, in memory or an accumulator tile, is the pairwise tree sum of its parts,
and nothing elsewhere changes; on a part slot that is not complete, by what this tick has written to it or by its data fence, it
does not start and misses its fence; a plan that the image does not have is a stream fault, and so, by the model's choice
(assumption log 105), is a target in the control region. -/
def Obligations.TreeAddsThePartsPairwise : Prop :=
  ∀ (s : State) (tile : Nat) (w : Word256) (elems : Nat), Issues s tile w 0x40 →
    let plan := s.image.bind (fun f => imgRedPlan f (getBits (wX w) 0 12))
    (plan = none → ∃ t, exec (.tree tile w elems) s = .next t ∧ StreamFaults tile w s t) ∧
    (∀ p, plan = some p →
      let g := bvBits p.ent 64 64
      let target := getBits g 0 57
      let parts := p.parts.map (fun e => bvBits e 64 57)
      let waits := ∃ a ∈ parts, s.slotComplete a (4 * elems) (s.issueAbs w) = false
      let control := getBits g 63 1 = 0 ∧ inControlRegion target (4 * elems) = true
      let sum := fun i => (treeSum (Nat.log2 parts.length + 1) (parts.map (fun a => s.rdN (a + 4 * i) 4)) {}).1 % 2 ^ 32
      (control → ∃ t, exec (.tree tile w elems) s = .next t ∧ StreamFaults tile w s t) ∧
      (¬ control → waits → ∃ t, exec (.tree tile w elems) s = .next t ∧
        t.run.items = s.run.items ++ [(20 + tile / 10, neverDone, wFence w)] ∧ t.mem = s.mem ∧ t.tiles.acc = s.tiles.acc ∧
        OnlyParts [.now, .regs, .run, .tiles] s t) ∧
      (¬ control → ¬ waits → getBits g 63 1 = 0 → ∃ t, exec (.tree tile w elems) s = .next t ∧
        (∀ i, i < elems → t.rdN (target + 4 * i) 4 = sum i) ∧ OnlyBytes target (4 * elems) s t ∧
        t.tiles.acc = s.tiles.acc ∧ t.tiles.opLine = s.tiles.opLine ∧ t.tiles.lines = s.tiles.lines ∧
        OnlyParts [.now, .regs, .mem, .run, .tiles, .outbox] s t) ∧
      (¬ waits → getBits g 63 1 = 1 → elems ≤ 16384 → ∃ t, exec (.tree tile w elems) s = .next t ∧
        (∀ i, i < elems → t.accEl (10 * getBits g 0 3 + getBits g 3 4) (getBits g 7 8) (i / 128) (i % 128) = sum i) ∧
        (∀ n a, n < 80 → a < 256 → (n ≠ 10 * getBits g 0 3 + getBits g 3 4 ∨ a ≠ getBits g 7 8) →
          ∀ i, i < 128 → ∀ j, j < 128 → t.accEl n a i j = s.accEl n a i j) ∧
        t.tiles.opLine = s.tiles.opLine ∧ t.tiles.lines = s.tiles.lines ∧
        OnlyParts [.now, .regs, .run, .tiles, .outbox] s t))

/-- LOOKUP_ADD (R190, R193, R196): the gradient row of every token whose id is a trained row of the shard is added, in token
order and one rounding an element, to the bucket row of its id, in a bucket that its first lookup in the slot brings to +0;
everything else stands. A tensor that the image does not have is a stream fault, and so, by the model's choice (assumption log
105), is a bucket in the control region. -/
def Obligations.LookupAddAddsTheTokensRow : Prop :=
  ∀ (s : State) (tile : Nat) (w : Word256) (dest : Nat), Issues s tile w 0x42 →
    let tensor := s.myImage.bind (fun f => imgWeight f (getBits (wX w) 0 20))
    (tensor = none → ∃ t, exec (.lookupAdd tile w dest) s = .next t ∧ StreamFaults tile w s t) ∧
    (∀ t0, tensor = some t0 → (7 ≤ t0.wb ∧ shardRows t0 % 128 = 0) ∨ shardRows t0 = 1 →
      let wb := 2 ^ t0.wb
      let rows := shardRows t0
      let at_ := fun r j => dest + bucketOff rows wb r j
      let start := fun r j => if s.run.lookups.contains (dest, t0.tensor) then s.rdN (at_ r j) 4 else 0
      let control := inControlRegion dest (4 * rows * wb) = true
      (control → ∃ t, exec (.lookupAdd tile w dest) s = .next t ∧ StreamFaults tile w s t) ∧ (¬ control →
      Apart dest (4 * rows * wb) (wA w) (4 * (wY w + 1) * wb) → Apart dest (4 * rows * wb) (wB w) (4 * (wY w + 1)) →
      ∃ t, exec (.lookupAdd tile w dest) s = .next t ∧
        (∀ r, r < rows → ∀ j, j < wb → t.rdN (at_ r j) 4 =
          (range' 0 (wY w + 1)).foldl (fun a k =>
            if s.rdN (wB w + 4 * k) 4 = t0.row0 + r ∧ rowTrained t0 (t0.row0 + r) = true
            then (fpAdd a (s.rdN (wA w + 4 * (k * wb + j)) 4)).bits % 2 ^ 32 else a) (start r j)) ∧
        t.run.lookups.contains (dest, t0.tensor) = true ∧ OnlyBytes dest (4 * rows * wb) s t ∧ t.tiles.acc = s.tiles.acc ∧
        t.tiles.lines = s.tiles.lines ∧ OnlyParts [.now, .regs, .mem, .run, .tiles, .outbox] s t))

/-- ROWCOL (R211, R213): each row's word is the sum of the squares of its elements in index order, read under ν and continued
over the buckets, each column's the sum over the trained rows; nothing else changes. A tensor that the image does not have is a
stream fault, and so, by the model's choice (assumption log 105), is a destination in the control region. -/
def Obligations.RowcolSumsSquaresInOrder : Prop :=
  ∀ (s : State) (tile : Nat) (w : Word256) (rDst cDst : Nat), Issues s tile w 0x43 →
    let tensor := s.myImage.bind (fun f => imgWeight f (getBits (wX w) 0 20))
    (tensor = none → ∃ t, exec (.rowcol tile w rDst cDst) s = .next t ∧ StreamFaults tile w s t) ∧
    (∀ t0, tensor = some t0 →
      let wb := 2 ^ t0.wb
      let m := shardRows t0
      let doR := getBits (wX w) 20 1 = 1
      let doC := getBits (wX w) 21 1 = 1
      let sq := fun i j =>
        let g := (readNu s.nu (s.rdN (wA w + bucketOff m wb i j) 4) {}).1
        (fpMul g g).bits
      let control := doR ∧ inControlRegion rDst (4 * m) = true ∨ doC ∧ inControlRegion cDst (4 * wb) = true
      (control → ∃ t, exec (.rowcol tile w rDst cDst) s = .next t ∧ StreamFaults tile w s t) ∧
      (¬ control → (doR → doC → Apart rDst (4 * m) cDst (4 * wb)) →
      ∃ t, exec (.rowcol tile w rDst cDst) s = .next t ∧
        (doR → ∀ i, i < m → t.rdN (rDst + 4 * i) 4 =
          (seqSum ((if wY w = 0 then [] else [s.rdN (rDst + 4 * i) 4]) ++ (range' 0 wb).map (fun j => sq i j)) {}).1 % 2 ^ 32) ∧
        (doC → ∀ j, j < wb → t.rdN (cDst + 4 * j) 4 =
          (seqSum (((range' 0 m).filter (fun i => rowTrained t0 (t0.row0 + i))).map (fun i => sq i j)) {}).1 % 2 ^ 32) ∧
        (∀ b, (doR → b < rDst ∨ rDst + 4 * m ≤ b) → (doC → b < cDst ∨ cDst + 4 * wb ≤ b) → t.rd8 b = s.rd8 b) ∧
        t.tiles.acc = s.tiles.acc ∧ t.tiles.lines = s.tiles.lines ∧
        OnlyParts [.now, .regs, .mem, .run, .tiles, .outbox] s t))

/-- UPDATE (R186, R188, R190, R221, R275, R277, R278, R279 to R285, R316, R317): in a step that runs, on the module that owns
the tensor, each weight and momentum of the bucket goes from the bank that the step reads to the other, an untrained row's
unchanged, a trained one's after every application in turn under the tensor's rule and the common tail; no byte outside the
shards of both in that bank changes. A parked tensor's bucket joins the newest set of the written bank's lag entry and writes no
memory; either way the bucket leaves its slot, and before HEALTH one update is counted. Elsewhere nothing is written. A tensor
that the image does not have is a stream fault. -/
def Obligations.UpdateWritesTheOtherBank : Prop :=
  ∀ (s : State) (tile : Nat) (w : Word256) (aux : List UpdAux) (f : ImageFile),
    Issues s tile w 0x50 → s.myImage = some f →
    (imgWeight f (getBits (wX w) 0 20) = none → ∃ t, exec (.update tile w aux) s = .next t ∧ StreamFaults tile w s t) ∧
    (∀ t0, imgWeight f (getBits (wX w) 0 20) = some t0 →
      let rs := imgRule f t0
      let wb := 2 ^ t0.wb
      let m := shardRows t0
      let cols := t0.col1 - t0.col0
      let x := s.updCtx f t0 rs (wY w) (aux.getLastD ⟨0⟩).sPlan (s.issueAbs w)
      let sets := s.updSets f x (wA w)
      let bytes := fmtBytes t0.fmt
      let mb := momBytes rs
      let done := fun (t : State) => t.run.updates = (if s.run.healthSent then s.run.updates else s.run.updates + 1) ∧
        t.run.lookups = s.run.lookups.filter (fun q => q.1 != wA w)
      let clear := fun (a n : Nat) => Apart a n (s.writeBase t0) (m * cols * bytes) ∧
        ∀ mt ∈ x.mom.toList, Apart a n (s.writeBase mt) (m * cols * mb)
      let apart := (wY w + 1) * wb ≤ cols ∧ clear (s.readBase t0) (m * cols * bytes) ∧
        (∀ mt ∈ x.mom.toList, clear (s.readBase mt) (m * cols * mb) ∧
          Apart (s.writeBase t0) (m * cols * bytes) (s.writeBase mt) (m * cols * mb)) ∧
        ∀ i, i < m → ∀ j, j < wb → clear (wA w + bucketOff m wb i j) 4 ∧
          (∀ r ∈ x.rT.toList, clear (s.readBase r + 4 * i) 4) ∧
          ∀ c ∈ x.cT.toList, clear (s.readBase c + 4 * (wY w * wb + j)) 4
      let may := s.run.stepRuns = true ∧ owns t0 (s.fget HULL_ORCH_MODULE) = true
      (¬ may → ∃ t, exec (.update tile w aux) s = .next t ∧ t.run.updates = s.run.updates ∧
        OnlyParts [.now, .regs, .run, .tiles] s t ∧ OnlyRegs [(TILE_SEQ.tile tile).base] s t) ∧
      (may → s.job.parking.contains t0.tensor = true → ∃ t, exec (.update tile w aux) s = .next t ∧ done t ∧
        (∀ r p, (s.lagEnt t0.tensor (!s.ccr.parity)).parked = r ++ [p] →
          (t.lagEnt t0.tensor (!s.ccr.parity)).parked = r ++ [{ p with
            buckets := p.buckets ++ [(wY w, (range' 0 m).flatMap (fun i => (range' 0 wb).map (fun j =>
              s.rdN (wA w + bucketOff m wb i j) 4)))] }]) ∧
        OnlyParts [.now, .regs, .run, .job, .tiles] s t) ∧
      (may → s.job.parking.contains t0.tensor = false → apart → ∃ t, exec (.update tile w aux) s = .next t ∧ done t ∧
        (∀ i, i < m → ∀ j, j < wb →
          let e := s.updEl x sets (wA w) i j
          t.rdN (s.writeBase t0 + x.idx i j * bytes) bytes = e.weight % 256 ^ bytes ∧
          (∀ mt ∈ x.mom.toList, t.rdN (s.writeBase mt + x.idx i j * mb) mb = e.mom % 256 ^ mb) ∧
          (rowTrained t0 (t0.row0 + i) = false →
            t.rdN (s.writeBase t0 + x.idx i j * bytes) bytes = s.rdN (s.readBase t0 + x.idx i j * bytes) bytes)) ∧
        (∀ b, (b < s.writeBase t0 ∨ s.writeBase t0 + m * cols * bytes ≤ b) →
          (∀ mt ∈ x.mom.toList, b < s.writeBase mt ∨ s.writeBase mt + m * cols * mb ≤ b) → t.rd8 b = s.rd8 b) ∧
        t.tiles.acc = s.tiles.acc ∧ t.tiles.lines = s.tiles.lines ∧
        OnlyParts [.now, .regs, .mem, .run, .tiles, .outbox] s t))

/-- COPY and DECAY (R22, R190, R215, R218, R221): in a step that runs, on the module that owns the tensor, COPY takes every
untrained row that its word names unchanged to the other bank; DECAY writes each element of a statistic as its decayed value
plus the weighted contribution, or unchanged where its row or matrix does not train, and both halves of a factor alike;
otherwise neither writes memory. A tensor that the image does not have is a stream fault. -/
def Obligations.CopyAndDecayWriteTheOtherBank : Prop :=
  ∀ (s : State) (tile : Nat) (w : Word256) (f : ImageFile), s.myImage = some f →
    let state := f.stateMap.find? (fun t => t.tensor == getBits (wX w) 0 20)
    let stat := f.stateMap.find? (fun t => t.tensor == getBits (wX w) 0 20 && 2 ≤ t.role && t.role ≤ 7)
    (Issues s tile w 0x51 →
      (state = none → ∃ t, exec (.copy tile w) s = .next t ∧ StreamFaults tile w s t) ∧
      (∀ t0, state = some t0 → s.mayWrite t0 = false → ∃ t, exec (.copy tile w) s = .next t ∧ t.mem = s.mem ∧
        OnlyParts [.now, .regs, .run, .tiles] s t) ∧
      (∀ t0, state = some t0 → s.mayWrite t0 = true →
        let rows := 128 * (wY w + 1)
        let i0 := rowAtOff t0 (s.statePlace (wA w) - s.readBase t0)
        let place := rowPlace t0
        let copied := fun i => i0 ≤ i ∧ i < i0 + rows ∧ i < stateRows t0 ∧ s.rowCopied t0 i = true
        (∀ i, i < stateRows t0 → ∀ k, k < stateRows t0 →
          Apart (s.readBase t0 + (place i).1) (place i).2 (s.writeBase t0 + (place k).1) (place k).2) →
        ∃ t, exec (.copy tile w) s = .next t ∧
          (∀ i, copied i → ∀ b, b < (place i).2 →
            t.rd8 (s.writeBase t0 + (place i).1 + b) = s.rd8 (s.readBase t0 + (place i).1 + b)) ∧
          (∀ b, (∀ i, copied i → b < s.writeBase t0 + (place i).1 ∨ s.writeBase t0 + (place i).1 + (place i).2 ≤ b) →
            t.rd8 b = s.rd8 b) ∧
          OnlyParts [.now, .regs, .mem, .run, .tiles, .outbox] s t)) ∧
    (Issues s tile w 0x52 →
      ((stat = none ∨ ∃ t0, stat = some t0 ∧ imgWeight f t0.parent = none) →
        ∃ t, exec (.decay tile w) s = .next t ∧ StreamFaults tile w s t) ∧
      (∀ t0 p, stat = some t0 → imgWeight f t0.parent = some p → s.mayWrite t0 = false →
        ∃ t, exec (.decay tile w) s = .next t ∧ t.mem = s.mem ∧ OnlyParts [.now, .regs, .run, .tiles, .outbox] s t) ∧
      (∀ t0 p, stat = some t0 → imgWeight f t0.parent = some p → s.mayWrite t0 = true → t0.role ≤ 3 →
        let lim := stateRows t0
        let e := fun i => 128 * wY w + i
        Apart (s.readBase t0) (4 * lim) (s.writeBase t0) (4 * lim) →
        ∃ t, exec (.decay tile w) s = .next t ∧
          (∀ i, i < 128 → e i < lim →
            let old := s.rdN (s.readBase t0 + 4 * e i) 4
            t.rdN (s.writeBase t0 + 4 * e i) 4 =
              (if s.rowCopied t0 (e i) then old
              else (decayVal old (s.rdN (wA w + 4 * i) 4) t0.beta.toNat (s.kappa t0 p) {}).1) % 2 ^ 32) ∧
          OnlyBytes (s.writeBase t0 + 4 * (128 * wY w)) 512 s t ∧ OnlyBytes (s.writeBase t0) (4 * lim) s t ∧
          OnlyParts [.now, .regs, .mem, .run, .tiles, .outbox] s t) ∧
      (∀ t0 p, stat = some t0 → imgWeight f t0.parent = some p → s.mayWrite t0 = true → 4 ≤ t0.role →
        let b := 2 ^ t0.block
        let r0 := wY w * b
        let nb := min b (stateRows t0 - r0)
        let at_ := fun base i k => base + 4 * (wY w * b * b + i * nb + k)
        Apart (at_ (s.readBase t0) 0 0) (4 * nb * nb) (at_ (s.writeBase t0) 0 0) (4 * nb * nb) →
        ∃ t, exec (.decay tile w) s = .next t ∧
          (∀ i, i < nb → ∀ k, i ≤ k → k < nb →
            let old := s.rdN (at_ (s.readBase t0) i k) 4
            let v := (if s.rowCopied t0 (r0 + i) || s.rowCopied t0 (r0 + k) then old
              else (decayVal old (s.rdN (wA w + 4 * (i * nb + k)) 4) t0.beta.toNat (s.kappa t0 p) {}).1) % 2 ^ 32
            t.rdN (at_ (s.writeBase t0) i k) 4 = v ∧ t.rdN (at_ (s.writeBase t0) k i) 4 = v) ∧
          OnlyBytes (at_ (s.writeBase t0) 0 0) (4 * nb * nb) s t ∧
          OnlyParts [.now, .regs, .mem, .run, .tiles, .outbox] s t))

/-- EWISE (R22, R483, R602, R625): each element of the destination lines is the function of its two sources, state in the bank
that the step reads, and of what the destination held when the engine took it; a function code above 8 is a stream fault, and
so, by the model's choice (assumption log 105), are lines past operand SRAM. -/
def Obligations.EwiseAppliesItsFunction : Prop :=
  ∀ (s : State) (tile : Nat) (w : Word256) (loc : VeLoc), Issues s tile w 0x60 →
    let fn := getBits (wX w) 0 8
    let dst := getBits (wX w) 8 17
    let e := 64 * (wY w + 1)
    let slow := fn = 3 ∨ fn = 4 ∨ fn = 5 ∨ fn = 7
    let lat := if slow then 24 else 8
    let x := fun i => s.issueAbs w + i / (if slow then 512 else 2048)
    let ok := fn ≤ 8 ∧ dst + wY w < 98304 ∧ elsBad loc.aSram (wA w) 32 e = false ∧ elsBad loc.bSram (wB w) 32 e = false
    let a := if loc.aSram then wA w else s.statePlace (wA w)
    let b := if loc.bSram then wB w else s.statePlace (wB w)
    (¬ ok → ∃ t, exec (.ewise tile w loc) s = .next t ∧ StreamFaults tile w s t) ∧
    (ok → ∃ t, exec (.ewise tile w loc) s = .next t ∧
      (∀ i, i < e → t.rdEl tile true dst 32 i (x i + lat) =
        (ewiseFn fn (s.rdEl tile loc.aSram a 32 i (x i)) (s.rdEl tile loc.bSram b 32 i (x i))
          (s.rdEl tile true dst 32 i (x i))).bits % 2 ^ 32) ∧
      OnlyLines tile dst (dst + wY w + 1) s t ∧ t.tiles.acc = s.tiles.acc ∧ t.tiles.flights = s.tiles.flights ∧
      OnlyParts [.now, .regs, .run, .tiles, .outbox] s t)

/-- END, UNDEFINED_OPCODE and LATE_ISSUE (R114, R115, R483): END stops the tile's stream for the tick; an undefined opcode is
a stream fault with the invalid tag and class C; a late word counts its refetch, a pod word the cycles it waited before the next
word of its pod is due, is class B and issues all the same, with its own sequence number. -/
def Obligations.StreamsEndFaultAndIssueLate : Prop :=
  ∀ (s : State) (tile : Nat) (w : Word256), Safety.Inv s → tile < 80 → s.streamRuns tile = true →
    (wOpcode w = 0 → Settled s (s.issueAbs w) → ∃ t, exec (.endStream tile w) s = .next t ∧ t.streamRuns tile = false ∧
      t.tiles.opLine = s.tiles.opLine ∧ t.tiles.lines = s.tiles.lines ∧ t.tiles.acc = s.tiles.acc ∧
      t.tiles.flights = s.tiles.flights ∧ OnlyParts [.now, .regs, .tiles] s t ∧ OnlyRegs [(TILE_SEQ.tile tile).base] s t) ∧
    (opcodes.contains (wOpcode w) = false → Settled s (s.issueAbs w) →
      ∃ t, exec (.undefinedOpcode tile w) s = .next t ∧ StreamFaults tile w s t) ∧
    (opcodes.contains (wOpcode w) = true → exec (.undefinedOpcode tile w) s = .next s) ∧
    (∀ cycle due args, Settled s cycle → ∃ t, exec (.lateIssue tile w cycle ⟨due, args⟩) s = .next t ∧
      Counts (TILE_SEQ_REFETCHES.tile tile) 1 s t ∧ t.fbit (TILE_STS_LATE_ISSUE.tile tile) = true ∧ RaisesB s t ∧
      (wOpcode w = 0x10 ∨ wOpcode w = 0x11 →
        Counts ((TILE_PHASE_TIME_COUNT.ix (64 * wLpod w + 4 * wPhase w + 2)).tile tile) 
          (min cycle (((s.podNext tile w).orElse (fun _ => due)).getD cycle) - s.issueAbs w) s t) ∧
      t.fget (TILE_SEQ_LAST.tile tile) = s.seqOf tile w % 2 ^ 32 ∧
      t.seqNext tile = max (s.seqNext tile) (s.seqOf tile w + 1) ∧ t.now = max s.now cycle)
/-! ### Hub dies and HBM -/

/-- HUB_READ (R27, R332, R334, R336 to R342): on the first MCLK edge at or after its cycle, nothing else coming about, what an
attempt reads whose check passes reaches the read's port 484 cyc after its command; corrections are counted and queued; an
attempt that fails its check claims the retry slot of its window, or, where that is taken, overruns: class B, its last data
delivered, the granule poisoned if it was uncorrectable. A poisoned granule is class B, and delivered. Memory stands. -/
def Obligations.HubReadsDeliverOnTheirCycle : Prop :=
  ∀ (s : State) (at_ stack g : Nat) (a : Attempt), Awake s → s.run.active = true → stack < 16 → g < 201326592 →
    Settled s (s.mclkAt at_) →
    let c := s.mclkAt at_
    let k := stack / 4
    let out : Out := .msg "HUB_DELIVER"
      [stack, g, c + 484, (attData a (s.rdGranule (stack * 0x1000000000 + g * 256))).toNat, s.readPort stack g c]
    let window := (c + 48 - s.edgeAt) / 128
    let taken := s.hub.retry.any (fun r => r.stack == stack && r.pch == granPch g && r.window == window)
    ∃ t, exec (.hubRead at_ stack g a) s = .next t ∧ t.now = max s.now c ∧ t.mem = s.mem ∧
      (s.poisonAt stack g = none →
        (attFails a = false → out ∈ t.outbox ∧
          (attCorrected a = 0 → t.outbox = s.outbox ++ [out] ∧ OnlyParts [.now, .outbox] s t) ∧
          (attCorrected a ≠ 0 → Counts (chanFld HUB_ECC_CORRECTED stack g) (attCorrected a) s t ∧
            ((stack, g) ∈ t.hub.corrQ ∨ t.fbit (HUB_STS_CQ_OVERFLOW.die k) = true) ∧
            (a.lane = none → OnlyParts [.now, .regs, .hub, .outbox] s t))) ∧
        (attFails a = true → Counts (chanFld HUB_ECC_UNCORRECTABLE stack g) (attUe a).toNat s t ∧
          (taken = false → t.hub.retry = s.hub.retry ++
              [{ stack := stack, pch := granPch g, window := window, granule := g, issued := c, write := none }] ∧
            (a.lane = none → attUe a = false → OnlyParts [.now, .hub] s t)) ∧
          (taken = true → out ∈ t.outbox ∧ Counts (HUB_CNT_OVERRUNS.die k) 1 s t ∧
            t.fbit (HUB_STS_RETRY_OVERRUN.die k) = true ∧ RaisesB s t ∧
            (attUe a = true → (t.poisonAt stack g).isSome = true ∨ t.fbit (HUB_STS_POISON_FULL.die k) = true)))) ∧
      ((s.poisonAt stack g).isSome = true → out ∈ t.outbox ∧ t.hub.retry = s.hub.retry ∧
        Counts (HUB_CNT_POISON_READS.die k) 1 s t ∧ t.fbit (HUB_STS_POISON_READ.die k) = true ∧ RaisesB s t)

/-- HUB_WRITE and HUB_RETRY (R27, R158, R326, R335 to R338, R341, R345): a write leaves the correction queues and reaches memory
256 cyc after its issue, there storing exactly its granule and taking it out of the poison table; one whose parity fails waits
for its retry slot, or, where that is taken, overruns: class B, its granule poisoned. A repeat that succeeds counts a retry and
does what the access would have done, and one that fails again overruns, class B. Nothing is stored in the control region. -/
def Obligations.HubWritesStoreTheirGranule : Prop :=
  (∀ (s : State) (at_ stack g : Nat) (data : Granule) (a : Attempt), Awake s → s.run.active = true → stack < 16 → g < 201326592 →
    let c := s.mclkAt at_
    let k := stack / 4
    let addr := stack * 0x1000000000 + g * 256
    let window := (c + 48 - s.edgeAt) / 128
    let taken := s.hub.retry.any (fun r => r.stack == stack && r.pch == granPch g && r.window == window)
    let poisoned := fun (t : State) => (t.poisonAt stack g).isSome = true ∨ t.fbit (HUB_STS_POISON_FULL.die k) = true
    let keep := fun (p : Nat × Nat) => p != (stack, g)
    (Settled s c → ∃ t, exec (.hubWrite at_ stack g data a) s = .next t ∧ t.now = max s.now c ∧
      t.hub.corrQ = s.hub.corrQ.filter keep ∧ t.hub.scrubQ = s.hub.scrubQ.filter keep ∧
      (a.parity = false → t.hub.writes = s.hub.writes ++ [⟨stack, g, c + 256, data⟩] ∧ OnlyParts [.now, .hub, .tiles] s t ∧
        (∀ x, t.writing addr (addr + 256) x = (s.writing addr (addr + 256) x || decide (x < c + 256)))) ∧
      (a.parity = true → taken = false → t.hub.retry = s.hub.retry ++
          [{ stack := stack, pch := granPch g, window := window, granule := g, issued := c, write := some data }] ∧
        t.mem = s.mem ∧ (a.lane = none → OnlyParts [.now, .hub] s t)) ∧
      (a.parity = true → taken = true → Counts (HUB_CNT_OVERRUNS.die k) 1 s t ∧
        t.fbit (HUB_STS_WRITE_OVERRUN.die k) = true ∧ RaisesB s t ∧ poisoned t ∧ OnlyBytes addr 256 s t)) ∧
    (s.hub.retry.find? (fun r => r.stack == stack && r.granule == g && !r.served) = none →
      exec (.hubRetry stack g a) s = .next s) ∧
    (∀ r, s.hub.retry.find? (fun r => r.stack == stack && r.granule == g && !r.served) = some r →
      (∀ d, r.write = some d → Settled s (r.issued + 256) → ∃ t, exec (.hubRetry stack g a) s = .next t ∧
        t.now = max s.now (r.issued + 256) ∧ OnlyBytes addr 256 s t ∧
        (a.parity = false → Counts (HUB_CNT_RETRIES.die k) 1 s t ∧ (inControlRegion addr 256 = false → t.rdGranule addr = d) ∧
          (inControlRegion addr 256 = true → t.mem = s.mem)) ∧
        (a.parity = true → Counts (HUB_CNT_OVERRUNS.die k) 1 s t ∧ t.fbit (HUB_STS_WRITE_OVERRUN.die k) = true ∧ RaisesB s t ∧
          poisoned t)) ∧
      (r.write = none → Settled s (r.issued + 424) → ∃ t, exec (.hubRetry stack g a) s = .next t ∧
        t.now = max s.now (r.issued + 424) ∧ t.mem = s.mem ∧
        .msg "HUB_DELIVER" [stack, g, r.issued + 484, (attData a (s.rdGranule addr)).toNat, s.readPort stack g r.issued] ∈ t.outbox ∧
        (attFails a = false → Counts (HUB_CNT_RETRIES.die k) 1 s t) ∧
        (attFails a = true → Counts (HUB_CNT_OVERRUNS.die k) 1 s t ∧ t.fbit (HUB_STS_RETRY_OVERRUN.die k) = true ∧ RaisesB s t ∧
          (attUe a = true → poisoned t))))) ∧
  (∀ (s : State) (w : HubWrite), Safety.Inv s → s.pending = [] → s.dueBy (s.now + 1) = [(w.due, .write w)] → ∃ t, step s = .next t ∧
    t.now = s.now + 1 ∧ t.hub.writes = s.hub.writes.filter (fun x => x != w) ∧
    (inControlRegion (granuleAddr w.stack w.granule) 256 = false →
      t.rdGranule (granuleAddr w.stack w.granule) = w.data ∧ OnlyBytes (granuleAddr w.stack w.granule) 256 s t ∧
      (s.poisonAt w.stack w.granule = none → t.regs = s.regs)) ∧
    (inControlRegion (granuleAddr w.stack w.granule) 256 = true → t.mem = s.mem ∧ t.regs = s.regs) ∧
    OnlyParts [.now, .regs, .mem, .hub] s t)

/-- ATOMIC_ADD (R152 to R154, R326, R408): part 0 stores its arrival, a later part in order is added element by element with one
rounding, and a part out of order changes no memory, is counted and is class B. At a relay's chunk the part due is added to what
the module holds. The model's choice (assumption log 145): after its last part a chunk expects part 0 again, or none at a relay.
-/
def Obligations.AtomicAddsArriveInPartOrder : Prop :=
  ∀ (s : State) (at_ stack g plan part : Nat) (data : Granule),
    Awake s → s.run.active = true → stack < 16 → g < 201326592 → Settled s (s.mclkAt at_) →
    let k := stack / 4
    let addr := stack * 0x1000000000 + g * 256
    let want := s.nextPart plan addr
    let relay := (s.ownRelayPart plan).isSome
    ∃ t, exec (.atomicAdd at_ stack g plan part data) s = .next t ∧ t.now = max s.now (s.mclkAt at_) ∧
      (part % 65536 = want % 65536 →
        (inControlRegion addr 256 = false → relay = false → want = 0 → t.rdGranule addr = data) ∧
        (inControlRegion addr 256 = false → (relay = true ∨ want ≠ 0) → ∀ i, i < 64 →
          t.rdN (addr + 4 * i) 4 = (fpAdd (s.rdN (addr + 4 * i) 4) (bvBits data (32 * i) 32)).bits % 2 ^ 32) ∧
        (inControlRegion addr 256 = true → t.mem = s.mem) ∧
        t.nextPart plan addr = (if relay then s.planParts plan else if want + 1 = s.planParts plan then 0 else want + 1) ∧
        Counts (HUB_RED_CNT0_ARRIVALS.die k) 1 s t) ∧
      (part % 65536 ≠ want % 65536 → t.mem = s.mem ∧ t.hub = s.hub ∧ t.tiles = s.tiles ∧
        Counts (HUB_RED_CNT0_ORDER_FAULTS.die k) 1 s t ∧
        t.fbit (HUB_RED_STS_ORDER_FAULT.die k) = true ∧ RaisesB s t ∧
        (s.fbit (HUB_RED_FIRST_VALID.die k) = false → t.fbit (HUB_RED_FIRST_VALID.die k) = true ∧
          t.fget (HUB_RED_FIRST_CAUSE.die k) = 0 ∧ Shows (HUB_RED_FIRST_PLAN.die k) plan t ∧
          Shows (HUB_RED_FIRST_PART.die k) part t)) ∧
      OnlyBytes addr 256 s t ∧ OnlyParts [.now, .regs, .mem, .run, .tiles, .hub, .fifos, .cap, .outbox] s t

/-- REFRESH and SCRUB (R27, R47, R330, R344): a refresh window takes its 128 cyc and changes nothing else; scrub, in a
background slot, writes back the oldest queued correction of its stack, then one of its own, and with none queued checks the
granule under its cursor, queues what it corrects, poisons what it cannot, and moves on; in another slot it does nothing. -/
def Obligations.RefreshAndScrubTakeTheirSlots : Prop :=
  ∀ s : State, Awake s → s.run.active = true →
    (∀ window, window % 15 = 14 → Settled s (s.edgeAt + 128 * (window + 1)) → ∃ t, exec (.refresh window) s = .next t ∧
      t.now = max s.now (s.edgeAt + 128 * (window + 1)) ∧ OnlyParts [.now] s t) ∧
    (∀ at_ stack a, stack < 16 → Settled s (s.mclkAt at_) →
      let slot := s.backgroundSlot stack (granPch (s.scrubTarget stack)) (s.mclkAt at_)
      let corr := s.hub.corrQ.find? (fun p => p.1 == stack)
      let own := s.hub.scrubQ.find? (fun p => p.1 == stack)
      (slot = false → ∃ t, exec (.scrub at_ stack a) s = .next t ∧ t.now = max s.now (s.mclkAt at_) ∧
        OnlyParts [.now] s t) ∧
      (∀ p, slot = true → corr = some p →
        ∃ t, exec (.scrub at_ stack a) s = .next t ∧ t.hub.corrQ = s.hub.corrQ.filter (fun q => q != p) ∧
          Counts (chanFld HUB_ECC_WRITTEN_BACK stack p.2) 1 s t ∧
          OnlyParts [.now, .regs, .hub] s t ∧ OnlyRegs [(chanFld HUB_ECC_WRITTEN_BACK stack p.2).base] s t) ∧
      (∀ p, slot = true → corr = none → own = some p →
        ∃ t, exec (.scrub at_ stack a) s = .next t ∧ t.hub.scrubQ = s.hub.scrubQ.filter (fun q => q != p) ∧
          Counts (chanFld HUB_ECC_WRITTEN_BACK stack p.2) 1 s t ∧
          OnlyParts [.now, .regs, .hub] s t ∧ OnlyRegs [(chanFld HUB_ECC_WRITTEN_BACK stack p.2).base] s t) ∧
      (slot = true → corr = none → own = none → s.fget (HUB_SCRUB_STACK.die (stack / 4)) = stack % 4 →
        let k := stack / 4
        let g := s.fget (HUB_SCRUB_CURSOR.die k)
        ∃ t, exec (.scrub at_ stack a) s = .next t ∧ t.now = max s.now (s.mclkAt at_) ∧ t.mem = s.mem ∧
          (g + 1 < 201326592 → t.fget (HUB_SCRUB_CURSOR.die k) = g + 1) ∧
          (201326592 ≤ g + 1 → t.fget (HUB_SCRUB_CURSOR.die k) = 0 ∧
            t.fget (HUB_SCRUB_STACK.die k) = (stack % 4 + 1) % 4 ∧ t.fbit (HUB_STS_SCRUB_PASS.die k) = true) ∧
          (attFails a = false → attCorrected a = 0 → OnlyParts [.now, .regs, .outbox] s t ∧
            OnlyRegs [(HUB_SCRUB.die k).base, (HUB_STS.die k).base] s t) ∧
          (attFails a = false → attCorrected a ≠ 0 → t.hub.scrubQ = s.hub.scrubQ ++ [(stack, g)] ∧
            Counts (chanFld HUB_ECC_CORRECTED stack g) (attCorrected a) s t) ∧
          (attUe a = true → t.fbit (HUB_STS_SCRUB_UE.die k) = true ∧
            ((t.poisonAt stack g).isSome = true ∨ t.fbit (HUB_STS_POISON_FULL.die k) = true))))

/-- ELASTIC_WINDOW (R27, R42, R47, R340, R343, R363, R364): where elastic traffic may take the slot, a read answers the
granule's data, corrections counted, or an error when it is poisoned or its check fails; a write stores exactly its granule
where elastic traffic may write, and nothing elsewhere; one whose parity fails is an error too. While ticks run, a slot that no
ELASTIC window takes is left alone. No job need run. -/
def Obligations.ElasticAccessesAnswerOrStore : Prop :=
  ∀ (s : State) (at_ stack g : Nat) (a : Attempt), Awake s → stack < 16 → g < 201326592 → Settled s (s.mclkAt at_) →
    let c := s.mclkAt at_
    let addr := stack * 0x1000000000 + g * 256
    let open_ := s.elasticOpen stack g c
    let data : Out := .msg "ELASTIC_DATA" [stack, g, (attData a (s.rdGranule addr)).toNat]
    let error : Out := .msg "ELASTIC_ERROR" [stack, g]
    (∀ write, open_ = false → ∃ t, exec (.elasticWindow at_ stack g write a) s = .next t ∧ t.now = max s.now c ∧
      OnlyParts [.now] s t) ∧
    (s.run.active = false → open_ = true) ∧
    (open_ = true → ∃ t, exec (.elasticWindow at_ stack g none a) s = .next t ∧ t.now = max s.now c ∧ t.mem = s.mem ∧
      (s.poisonAt stack g = none → attFails a = false → data ∈ t.outbox ∧
        (attCorrected a = 0 → t.outbox = s.outbox ++ [data] ∧ OnlyParts [.now, .outbox] s t) ∧
        (attCorrected a ≠ 0 → Counts (chanFld HUB_ECC_CORRECTED stack g) (attCorrected a) s t ∧
          (a.lane = none → OnlyParts [.now, .regs, .hub, .outbox] s t))) ∧
      (s.poisonAt stack g = none → attFails a = true → error ∈ t.outbox ∧
        (a.lane = none → OnlyParts [.now, .regs, .hub, .outbox] s t)) ∧
      ((s.poisonAt stack g).isSome = true → t.outbox = s.outbox ++ [error] ∧ OnlyParts [.now, .hub, .outbox] s t)) ∧
    (∀ d, open_ = true → ∃ t, exec (.elasticWindow at_ stack g (some d) a) s = .next t ∧ t.now = max s.now c ∧
      (s.elasticMay addr 256 = true → (stack, g) ∉ t.hub.corrQ ∧
        (a.parity = false → t.rdGranule addr = d ∧ OnlyParts [.now, .mem, .hub] s t) ∧ (a.parity = true → error ∈ t.outbox)) ∧
      (s.elasticMay addr 256 = false → OnlyParts [.now] s t) ∧ OnlyBytes addr 256 s t)

/-! ### Links -/

/-- LINK_SEND (R320, R369, R370 to R373, R404): at the start of one of slots 0 to 23 a frame leaves with the sequence number of
its slot, stays nameable for a NAK, takes the oldest pending NAK with it, and goes out as symbols on the two active lanes; a
checksum of a chunk that is not sampled, a tensor that the module does not own, or any other cycle sends nothing. The other
links stand. -/
def Obligations.LinkSendNumbersItsFrames : Prop :=
  ∀ (s : State) (at_ link kind : Nat) (src : FlitSrc),
    Awake s → s.run.active = true → link < 16 → 1 ≤ kind → kind ≤ 3 → Settled s at_ →
    (s.slotOpen link at_ = false ∨ (s.advance at_).flitOf src = none →
      ∃ t, exec (.linkSend at_ link kind src) s = .next t ∧ t.now = max s.now at_ ∧ OnlyParts [.now] s t) ∧
    (∀ flit, s.slotOpen link at_ = true → (s.advance at_).flitOf src = some flit →
      let seq := s.seqAt link at_
      let p := s.lnkSlot link (at_ - s.edgeAt)
      ∃ t, exec (.linkSend at_ link kind src) s = .next t ∧ t.now = max s.now at_ ∧
        t.outbox = s.outbox ++ frameOut s link at_ seq kind p.2 flit ∧
        (t.link link).naks = (s.link link).naks.drop 1 ∧ (seq, p.1, p.2, kind, flit) ∈ (t.link link).sent ∧
        (∀ l, l ≠ link → t.link l = s.link l) ∧ OnlyParts [.now, .links, .outbox] s t) ∧
    (∀ d, s.flitOf (.data d) = some d.toNat)

/-- FRAME_RECEIVED (R369, R370, R372 to R375, R380, R381): on a link that is up, a scheduled frame that FEC can read is due a
hop after its slot; one that FEC cannot read is named in a NAK, which leaves in the next frame of the reverse direction, and
waits, or overruns when its window's retry slot is taken, class B, and is due as lost; the eighth such frame in a row takes the
link down; a RETRY frame answers the frame that waits for it; an ELASTIC frame joins its next link's queue or is for this
module. On a link that is down a scheduled frame is due as lost. -/
def Obligations.ReceivedFramesAreDeliveredOrRetried : Prop :=
  ∀ (s : State) (at_ link : Nat) (due : FrameDue) (raw : BitVec 2176) (use : FlitUse),
    Awake s → s.run.active = true → link < 16 → Settled s at_ →
    let d := rxDecode (byteList 272 raw.toNat)
    let f := frameFields d.1
    let k := s.link link
    let p := s.lnkSlot link (at_ - s.edgeAt)
    let run := exec (.frameReceived at_ link due ⟨raw, use⟩) s
    let hop := s.lnkHop link
    let plain := d.2 = .clean ∧ f.nak = none ∧ f.laneSwap = false
    let lost := fun (t : State) => Counts (lnkFld LNK_CNT_B_OVERRUNS link) 1 s t ∧
      t.fbit (LNK_STS_OVERRUN.die (link / 4)) = true ∧ RaisesB s t ∧
      (if due.kind = 1 then t.fresh = s.fresh + 1 ∧ (t.link link).landing = k.landing ++ [⟨at_ + hop, 1, true, some s.freeVal, use⟩]
        else (t.link link).landing = k.landing ++ [⟨at_ + hop, due.kind, true, none, .port⟩])
    (s.fget (lnkFld LNK_STATE_MODE link) = 0 → scheduledKind due.kind = true → ∃ t, run = .next t ∧ lost t) ∧
    (s.fget (lnkFld LNK_STATE_MODE link) ≠ 0 →
      (d.2 ≠ .failed → scheduledKind f.kind = true →
        (∃ t, run = .next t ∧ t.now = max s.now at_ ∧ (t.link link).landing = k.landing ++ [⟨at_ + hop, f.kind, false, some f.flit, use⟩] ∧
          Counts (lnkFld LNK_CNT_A_FRAMES link) 1 s t ∧
          Counts (lnkFld LNK_CNT_A_CORRECTED link) (if d.2 = .clean then 0 else 1) s t ∧ (t.link link).badRun = 0 ∧ t.mem = s.mem ∧
          (plain → OnlyParts [.now, .regs, .links] s t))) ∧
      (d.2 = .failed → scheduledKind due.kind = true →
        (k.badRun ≠ 7 → k.retry.contains (false, p.1) = false →
          let n := nakSlot s link at_
          let e := s.slotCycle link n.1 n.2
          let u := s.withLink link (fun k => { k with naks := k.naks ++ [due.seq] })
          ∃ t, run = .next t ∧ (t.link link).waiting = k.waiting ++ [⟨due.seq, p.1, due.slot, due.kind, at_, use⟩] ∧
            (t.link link).badRun = k.badRun + 1 ∧ (t.link link).retry = (false, p.1) :: k.retry ∧
            (if s.slotSends link n.1 n.2 then (t.link link).naks = k.naks ++ [due.seq] ∧ t.outbox = s.outbox
              else (t.link link).naks = (k.naks ++ [due.seq]).drop 1 ∧
                t.outbox = s.outbox ++ frameOut u link e (s.seqAt link e) 0 n.2 0) ∧
            OnlyParts [.now, .regs, .links, .outbox] s t) ∧
        (k.badRun ≠ 7 → k.retry.contains (false, p.1) = true → ∃ t, run = .next t ∧ lost t) ∧
        (k.badRun = 7 → ∃ t, run = .next t ∧ t.fget (lnkFld LNK_STATE_MODE link) = 0 ∧
          Counts (lnkFld LNK_CNT_B_DOWNS link) 1 s t ∧ RaisesC s t)) ∧
      (∀ e, plain → f.kind = 4 → k.waiting.find? (fun e => e.seq == f.seq) = some e →
        ∃ t, run = .next t ∧ Counts (lnkFld LNK_CNT_B_RETRANSMITS link) 1 s t ∧ (t.link link).waiting = k.waiting.erase e ∧
          (t.link link).landing = k.landing ++ [⟨e.sent + hop, e.kind, false, some f.flit, e.use⟩]) ∧
      (plain → f.kind = 5 →
        (∀ m, m < 16 → use = .onward m → ∃ t, run = .next t ∧ (t.link m).elasticQ = (s.link m).elasticQ ++ [f.flit] ∧
          t.outbox = s.outbox) ∧
        ((∀ m, use ≠ .onward m) → ∃ t, run = .next t ∧ t.outbox = s.outbox ++ [.msg "ELASTIC_IN" [link, f.flit]] ∧
          OnlyParts [.now, .regs, .links, .outbox] s t)))

/-- A frame's delivery (R302, R320, R372, R374, R380, R382, R404, R405): on its cycle a frame goes, with its flit, to the port
of its RECEIVE entry, and a gathered flit lands in its gather region; the checksum of a chunk that the step samples is compared
with the bytes that landed, and one that differs is counted and is class B, with CHECKSUM in the tick to which R302 attributes
it. A frame whose retry has not come by its cycle overruns, class B, and is delivered lost. -/
def Obligations.FramesReachTheirDeliveryCycle : Prop :=
  ∀ (s : State) (l : Nat), Awake s → s.pending = [] → l < 16 →
    (∀ x : FlitDue, s.dueBy (s.now + 1) = [(x.at_, .flit l x)] →
      let out : Out := .msg "FRAME_DELIVER" ([l, x.at_, x.kind, x.lost.toNat] ++ s.receivedBy l x.at_ ++ x.flit.toList)
      ∃ t, step s = .next t ∧ t.now = s.now + 1 ∧ (t.link l).landing = (s.link l).landing.erase x ∧ out ∈ t.outbox ∧
        (x.kind = 1 → (t.link l).last = x.flit.map (fun v => (x.at_, v))) ∧
        (x.use = .port → t.outbox = s.outbox ++ [out] ∧ OnlyParts [.now, .links, .outbox] s t) ∧
        (∀ a v, x.use = .gather a → x.flit = some v → t.rdGranule a = BitVec.ofNat 2048 v ∧ OnlyBytes a 256 s t ∧
          OnlyParts [.now, .mem, .links, .outbox] s t) ∧
        ((∀ a, x.use ≠ .gather a) → t.mem = s.mem) ∧
        (∀ v, x.use = .count → x.flit = some v → t.run.childTokens = s.run.childTokens + v % 2 ^ 64) ∧
        (∀ tensor c a owner v f t0, x.use = .checksum tensor c a owner → x.flit = some v → s.image = some f →
          imgWeight (imgSeenBy f owner) tensor = some t0 →
          let n := min 4096 (2 * ((t0.row1 - t0.row0) * (t0.col1 - t0.col0) - 2048 * c))
          let differs := s.sampled f tensor c = true ∧ crc32c (s.rdBytes a n) ≠ v % 2 ^ 32
          (differs → Counts COMMIT_CNT1_CHECKSUM_MISMATCHES 1 s t ∧ t.fbit COMMIT_STS_CHECKSUM = true ∧ RaisesB s t ∧
            (if s.run.healthSent then t.run.lateChecksum else t.run.checksum) = true) ∧
          (¬ differs → OnlyParts [.now, .links, .outbox] s t))) ∧
    (∀ x : LinkWait, s.dueBy (s.now + 1) = [(x.sent + s.lnkHop l, .unanswered l x)] → ∃ t, step s = .next t ∧ t.now = s.now + 1 ∧
      (t.link l).waiting = (s.link l).waiting.erase x ∧ Counts (lnkFld LNK_CNT_B_OVERRUNS l) 1 s t ∧
      t.fbit (LNK_STS_OVERRUN.die (l / 4)) = true ∧ RaisesB s t ∧
      (x.kind ≠ 1 → .msg "FRAME_DELIVER" ([l, x.sent + s.lnkHop l, x.kind, 1] ++ s.receivedBy l (x.sent + s.lnkHop l)) ∈ t.outbox))

/-- NAK and LINK_DOWN (R373, R380, R381): a NAK repeats the named frame with its flit in slot 24 of the window three on, two at
legacy rate, once for a window; a link that loses lock goes to mode 0, is counted, ends its waiting elastic frames with an
error, and raises class C. -/
def Obligations.NaksRepeatAndLostLinksGoDown : Prop :=
  ∀ (s : State) (at_ link : Nat), Awake s → link < 16 → Settled s at_ →
    (∀ seq e, s.run.active = true → (s.link link).sent.find? (fun e => e.1 == seq) = some e →
      (s.link link).retry.contains (true, e.2.1) = false →
      let c := s.edgeAt + s.lnkWin link * (e.2.1 + if s.lnkLegacy link then 2 else 3) + slotStart (s.lnkWin link) 24
      ∃ t, exec (.nak at_ link seq) s = .next t ∧ t.now = max s.now at_ ∧
        t.outbox = s.outbox ++ frameOut s link c seq 4 24 e.2.2.2.2 ∧
        (t.link link).retry = (true, e.2.1) :: (s.link link).retry ∧ OnlyParts [.now, .links, .outbox] s t) ∧
    (∀ seq, s.run.active = true → (∀ e, (s.link link).sent.find? (fun e => e.1 == seq) = some e →
        (s.link link).retry.contains (true, e.2.1) = true) →
      ∃ t, exec (.nak at_ link seq) s = .next t ∧ OnlyParts [.now] s t) ∧
    (s.fget (lnkFld LNK_STATE_MODE link) ≠ 0 →
      ∃ t, exec (.linkDown at_ link) s = .next t ∧ t.now = max s.now at_ ∧ t.fget (lnkFld LNK_STATE_MODE link) = 0 ∧
        Counts (lnkFld LNK_CNT_B_DOWNS link) 1 s t ∧
        t.fbit (LNK_STS_LINK_DOWN.die (link / 4)) = true ∧ RaisesC s t ∧
        (t.link link).elasticQ = [] ∧ (∀ v ∈ (s.link link).elasticQ, .msg "ELASTIC_LINK_ERROR" [link, v] ∈ t.outbox) ∧
        (t.attendOf (12 + link / 4)).expiry.isSome = true ∧ t.mem = s.mem)

/-- ELASTIC_FRAME and LINK_TRAINING (R371, R376, R381, R387): at the start of one of slots 0 to 23, on a link that is up, the
oldest waiting elastic frame goes out, and stays waiting when it fails; else the new one waits. While no job runs a trained link
shows its mode, rate, propagation and neighbour, and one over 160 cyc long stays out of deterministic mode and says so. The
model's choice (assumption log 42): the credit of 32 is one lower while a frame that failed waits. -/
def Obligations.ElasticFramesAndLinkTraining : Prop :=
  ∀ (s : State) (at_ link : Nat), Awake s → link < 16 → Settled s at_ →
    let slot := (s.lnkSlot link (at_ - s.edgeAt)).2
    let goes := s.slotOpen link at_ = true ∧ s.fget (lnkFld LNK_STATE_MODE link) ≠ 0
    (∀ flit ok, ¬ goes → ∃ t, exec (.elasticFrame at_ link ok flit) s = .next t ∧
      t.now = max s.now at_ ∧ (t.link link).elasticQ = (s.link link).elasticQ ++ [flit.toNat] ∧ OnlyParts [.now, .links] s t) ∧
    (∀ (flit : Granule) ok, goes →
      let q := (s.link link).elasticQ ++ [flit.toNat]
      ∃ t, exec (.elasticFrame at_ link ok flit) s = .next t ∧ t.now = max s.now at_ ∧
        t.outbox = s.outbox ++ frameOut s link at_ (s.seqAt link at_) 5 slot (q.headD 0) ∧
        (t.link link).elasticQ = (if ok then q.drop 1 else q) ∧ (t.link link).credit = (if ok then 32 else 31) ∧
        OnlyParts [.now, .links, .outbox] s t) ∧
    (∀ mode legacy prop neighbour nlink hash, s.job.ctx = none → mode < 4 → neighbour < 65536 → nlink < 16 →
      ∃ t, exec (.linkTraining at_ link mode legacy prop neighbour nlink hash) s = .next t ∧
        t.fget (lnkFld LNK_STATE_MODE link) = (if 160 < prop then min mode 2 else mode) ∧
        t.fbit (lnkFld LNK_STATE_LEGACY link) = legacy ∧ t.fget (lnkFld LNK_STATE_PROP link) = min prop 255 ∧
        t.fget (lnkFld LNK_STATE_NEIGHBOUR link) = neighbour ∧ t.fget (lnkFld LNK_STATE_NEIGHBOUR_LINK link) = nlink ∧
        (t.link link).hash = hash ∧ (160 < prop → t.fbit (LNK_STS_TOO_LONG.die (link / 4)) = true) ∧
        OnlyParts [.now, .regs, .links, .outbox] s t ∧
        OnlyRegs [(lnkFld LNK_STATE_MODE link).base, (LNK_STS_TOO_LONG.die (link / 4)).base,
          (LNK_ERR_FIRST_VALID.die (link / 4)).base] s t)


/-! ### Solver jobs -/

/-- SOLVER_DESC_READ, SOLVER_JOB_START and PUBLISH (R239, R240, R255, R258, R259, R263, R269): the descriptor read lands its
descriptor 363 scyc before the start edge; on a free gang the start counts, takes the landed descriptor, shows the job on its
gang and fixes its course, what ends it on its start edge ending it there; a job that needs the cold setup and whose window is
below its budget does not start; a publish before the deadline writes the result into the free buffer and then the descriptor
with STATE 1, the hashes and t, and no other byte. -/
def Obligations.SolverJobsStartAndPublish : Prop :=
  ∀ (s : State) (f : ImageFile) (p : PlanImg) (e : BitVec 1024) (d st : TensorEnt),
    InTick f p s → s.slvEnts f e = some (st, d) → slvC0 e + slvGang e ≤ 8 →
    let k := slvDie e
    let a := s.readBase d + descOff f st (slvBlock e)
    let b := s.writeBase d + descOff f st (slvBlock e)
    let start := s.scycAt (s.edgeAt + slvStart e)
    let dead := s.scycAt (s.edgeAt + slvDeadline e)
    let prev := match s.solver.landed.find? (fun l => l.1 == slvTensor e && l.2.1 == slvBlock e) with
      | some l => l.2.2
      | none => s.descAt a
    (s.run.stepRuns = true → s.slvFind f (slvJob e) = some e →
      (Settled s (s.descReadCycle e) → ∃ t, exec (.solverDescRead (slvJob e)) s = .next t ∧
        t.now = max s.now (s.cycAt (start - 363)) ∧
        t.solver.landed = s.solver.landed ++ [(slvTensor e, slvBlock e, s.descAt a)] ∧ t.solver.jobs = s.solver.jobs ∧
        OnlyParts [.now, .solver] s t) ∧
      (Settled s (s.startCycle e) → s.gangJobs e = [] →
        (∃ u j, exec (.solverJobStart (slvJob e)) s = .next (u.upTo (s.startCycle e)) ∧
          u.now = max s.now (s.cycAt start) ∧ Counts (SLV_CNT0_STARTED.die k) 1 s u ∧
          u.solver.jobs = s.solver.jobs ++ [j] ∧ j.ent = e ∧ j.start = start ∧ j.deadline = dead ∧ j.prev = prev ∧
          (slvKind e ≠ 2 → slvCold e = true ∨ dscState prev ≠ 1 ∨ dscUhash prev ≠ slvUhash e ∨ dscShash prev ≠ slvShash e →
            dead - start < coldBudget e → j.out.cause = some 7 ∧ j.out.off = 0) ∧
          (∀ l ∈ u.solver.landed, l ∈ s.solver.landed ∧ (l.1, l.2.1) ≠ (slvTensor e, slvBlock e)) ∧
          (∀ c ∈ gang e, u.fget ((SLV_CRK_JOB.die k).ix c) = slvJob e ∧ u.fget ((SLV_CRK_STAGE.die k).ix c) = 1 ∧
            u.fbit ((SLV_CRK_LEAD.die k).ix c) = decide (c = slvC0 e)) ∧
          OnlyParts [.now, .regs, .solver] s u) ∧
        (slvKind e ≠ 2 → slvCold e = true → start ≤ dead → dead - start < coldBudget e →
          ∃ t, exec (.solverJobStart (slvJob e)) s = .next t ∧
            Counts (SLV_CNT1_NOT_STARTED.die k) 1 s t ∧ t.fbit (SLV_STS_NOT_STARTED.die k) = true ∧
            (∀ j ∈ t.solver.jobs, j ∈ s.solver.jobs) ∧ t.mem = s.mem))) ∧
    (∀ j c0, s.slvOn k c0 = some j → j.ent = e → j.publishes = true → Settled s (s.cycAt (j.start + j.out.off + 40)) →
      let buf := if dscState j.prev = 1 then 1 - dscBuf j.prev else 0
      let dst := dscBufAddr j.prev buf
      let n := 4 * j.out.result.length
      ∃ t, exec (.publish k c0) s = .next t ∧ t.now = max s.now (s.cycAt (j.start + j.out.off + 40)) ∧
        Counts (SLV_CNT0_PUBLISHED.die k) 1 s t ∧ j ∉ t.solver.jobs ∧
        t.rdN b 8 = 1 + 4 * buf + 2 ^ 16 * slvN e + 2 ^ 28 * slvKind e + 2 ^ 30 * slvPcode e + 2 ^ 32 * bvBits e 104 8 ∧
        t.rdN (b + 8) 8 = slvShash e + 2 ^ 32 * slvUhash e ∧ t.rdN (b + 16) 8 = s.ccr.t % 2 ^ 64 ∧
        t.rdN (b + 32) 8 = dscBufAddr j.prev 0 ∧ t.rdN (b + 40) 8 = dscBufAddr j.prev 1 ∧ t.rdN (b + 48) 16 = 0 ∧
        (Apart b 64 dst n → ∀ i, i < j.out.result.length →
          t.rdN (dst + 4 * i) 4 = (renormVal (sq64Val (j.out.result.getD i 0) (slvEX e))).bits % 2 ^ 32) ∧
        (∀ x, (x < b ∨ b + 64 ≤ x) → (x < dst ∨ dst + n ≤ x) → t.rd8 x = s.rd8 x) ∧
        OnlyParts [.now, .regs, .mem, .solver] s t)

/-- DEADLINE_MISS, CARRY_SWEEP, SOLVER_DATAPATH_FAULT and PIVOT_LOG_CLEAR, and what comes about by itself (R260 to R266, R269):
a job that meets its deadline unpublished, or ends otherwise on its own scyc, is counted and recorded, and issues its carry: its
descriptor with STALE one higher, VALID only under its UHASH, 40 scyc on; a carry that completes writes its 64 bytes and nothing
else; the sweep reads every other home descriptor of its die as it starts, the i-th to stand in the other bank 403 + i scyc
later; a datapath fault is class B and ends the job that it hits, a corrected one is class A; CLEAR empties the pivot log. -/
def Obligations.SolverJobsEndWithTheirCarry : Prop :=
  ∀ (s : State) (f : ImageFile) (p : PlanImg), InTick f p s →
    let carried := fun (j : SlvJob) (d st : TensorEnt) (done : Nat) (t : State) =>
      let e := j.ent
      let stale := min (dscStale j.prev + 1) 255
      let valid := dscState j.prev = 1 ∧ dscUhash j.prev = slvUhash e
      t.solver.carries = s.solver.carries ++ [{
        die := slvDie e, c0 := slvC0 e, gang := slvGang e, at_ := done, addr := s.writeBase d + descOff f st (slvBlock e),
        desc := BitVec.ofNat 512 (putBits (putBits j.prev.toNat 8 8 stale) 0 2 (if valid then 1 else 2)),
        limit := slvStaleLim e }] ∧
      (dscState j.prev = 1 → ¬ valid → Counts (SLV_CNT2_BYPASSES.die (slvDie e)) 1 s t ∧
        t.fbit (SLV_STS_BYPASS_SET.die (slvDie e)) = true) ∧
      j ∉ t.solver.jobs ∧ t.mem = s.mem
    (∀ (j : SlvJob) (c0 : Nat) (d st : TensorEnt), let k := slvDie j.ent
      s.slvOn k c0 = some j → s.slvEnts f j.ent = some (st, d) → slvC0 j.ent + slvGang j.ent ≤ 8 → j.misses = true →
      Settled s (s.cycAt (j.deadline + 1)) →
      ∃ t, exec (.deadlineMiss k c0) s = .next t ∧ t.now = max s.now (s.cycAt (j.deadline + 1)) ∧
        Counts (SLV_CNT1_DEADLINE_MISSES.die k) 1 s t ∧ t.fbit (SLV_STS_DEADLINE_MISS.die k) = true ∧
        carried j d st (j.deadline + 41) t ∧ OnlyParts [.now, .regs, .fifos, .solver, .outbox] s t) ∧
    (∀ (j : SlvJob) (cause x : Nat) (d st : TensorEnt), let k := slvDie j.ent
      s.dueBy x = [(x, .slvEnd j cause)] → s.solver.jobs.find? (fun q => q.ent == j.ent) = some j → 1 ≤ cause → cause ≤ 7 →
      slvC0 j.ent + slvGang j.ent ≤ 8 → s.slvEnts f j.ent = some (st, d) → x < s.cycAt (j.start + j.out.off + 40) →
      Counts (if cause ≤ 2 then SLV_CNT1_REFUSED.die k else if cause ≤ 6 then SLV_CNT1_SOFT_FAILS.die k
        else SLV_CNT1_NOT_STARTED.die k) 1 s (s.upTo x) ∧
      carried j d st (j.start + j.out.off + 40) (s.upTo x) ∧
      OnlyParts [.now, .regs, .fifos, .solver, .outbox] s (s.upTo x)) ∧
    (∀ (c : Carry) (x : Nat), s.dueBy x = [(x, .carry c)] → c.die < 4 → c.c0 + c.gang ≤ 8 →
      (s.upTo x).rdN c.addr 64 = c.desc.toNat ∧ OnlyBytes c.addr 64 s (s.upTo x) ∧ c ∉ (s.upTo x).solver.carries ∧
      (c.limit < dscStale c.desc → Counts (SLV_CNT3_STALE_LIMITS.die c.die) 1 s (s.upTo x) ∧
        (s.upTo x).fbit (SLV_STS_STALE_LIMIT.die c.die) = true ∧ RaisesC s (s.upTo x)) ∧
      OnlyParts [.now, .regs, .mem, .run, .attend, .fifos, .cap, .solver, .outbox] s (s.upTo x)) ∧
    (∀ die, die < 4 → s.run.stepRuns = true → Settled s (s.cycAt (s.scycAt (s.edgeAt + s.sweepCycle f die))) →
      let l := sweepPairs s f die
      ∃ t, exec (.carrySweep die) s = .next t ∧
        t.now = max s.now (s.cycAt (s.scycAt (s.edgeAt + s.sweepCycle f die))) ∧
        (∃ cs, t.solver.carries = s.solver.carries ++ cs ∧ cs.map (fun c => (c.addr, c.desc, c.at_)) =
            (l.zip (range' 0 l.length)).map (fun y => (y.1.2, s.descAt y.1.1, s.scycAt (s.edgeAt + s.sweepCycle f die) + 404 + y.2)) ∧
          ∀ c ∈ cs, c.die = die ∧ c.gang = 0) ∧
        OnlyParts [.now, .solver] s t) ∧
    (∀ at_ die, die < 4 → 
      (∀ c, Settled s at_ → ∃ t, exec (.solverDatapathFault at_ die c true) s = .next t ∧ t.now = max s.now at_ ∧
        Counts (SLV_CNT4_ECC_CORRECTED.die die) 1 s t ∧ OnlyParts [.now, .regs, .cap, .outbox] s t ∧
        OnlyRegs ((SLV_CNT4_ECC_CORRECTED.die die).base :: noteRegs) s t) ∧
      (∀ c, Settled s at_ → ∃ t, exec (.solverDatapathFault at_ die c false) s = .next t ∧ t.now = max s.now at_ ∧
        Counts (SLV_CNT3_DATAPATH_FAULTS.die die) 1 s t ∧ t.fbit (SLV_STS_DATAPATH_FAULT.die die) = true ∧ RaisesB s t ∧
        (c = none → t.solver = s.solver) ∧ t.mem = s.mem ∧
        (∀ c1 j, c = some c1 → s.slvOn die c1 = some j → slvC0 j.ent + slvGang j.ent ≤ 8 →
          s.scycAt (max s.now at_) ≤ (if j.publishes then j.start + j.out.off + 39 else j.deadline) → j ∉ t.solver.jobs)) ∧
      (∃ t, exec (.pivotLogClear die) s = .next t ∧ t.fget (SLV_PIVOT_PTR_COUNT.die die) = 0 ∧
        t.fget (SLV_PIVOT_PTR_LOST.die die) = 0 ∧ (∀ i, i < 16 → t.fbit ((SLV_PIVOT_LOG_VALID.die die).ix i) = false) ∧
        OnlyParts [.regs] s t ∧
        OnlyRegs ((SLV_PIVOT_PTR_COUNT.die die).base :: (range' 0 16).map (fun i => ((SLV_PIVOT_LOG.die die).ix i).base)) s t))

/-! ### Faults -/

/-- POD_FAULT, SPARE_PARITY and SHADOW_COMPARE (R499, R501, R507 to R510): a fault of a served pod is counted, class B, and
waits for the next edge; one of a free spare retires it, class A; an eligible sampled instruction is compared, or skipped
while the spare is busy or the tick too near its end, and a mismatch is counted, by SHADOW_MODE 0 without a class. -/
def Obligations.PodFaultsAndShadowChecks : Prop :=
  ∀ (s : State) (at_ tile lpod : Nat), Awake s → tile < 80 → lpod < 8 → Settled s at_ →
    (s.unserved tile lpod = false → ∃ t, exec (.podFault at_ tile lpod) s = .next t ∧ t.now = max s.now at_ ∧
      Counts (TILE_POD_POD_FAULTS.tile tile) 1 s t ∧ RaisesB s t ∧ (tile, lpod) ∈ t.tiles.podPend ∧
      (∀ x, x ∈ t.tiles.podPend → x = (tile, lpod) ∨ x ∈ s.tiles.podPend) ∧ t.tiles.acc = s.tiles.acc ∧
      OnlyParts [.now, .regs, .run, .tiles, .cap, .outbox] s t ∧ OnlyRegs ((TILE_POD_POD_FAULTS.tile tile).base :: noteRegs) s t) ∧
    (s.unserved tile lpod = true → ∃ t, exec (.podFault at_ tile lpod) s = .next t ∧ OnlyParts [.now] s t) ∧
    (s.spareUsable tile = true → ∃ t, exec (.spareParity at_ tile) s = .next t ∧ t.now = max s.now at_ ∧
      t.fbit (TILE_POD_SPARE_LOST.tile tile) = true ∧ t.fbit (BENCH_POD_MAP_SPARE_FREE.ix tile) = false ∧
      t.fget (BENCH_POD_MAP_SPARE.ix tile) = 15 ∧ Counts (TILE_POD_POD_FAULTS.tile tile) 1 s t ∧
      OnlyParts [.now, .regs, .cap, .outbox] s t ∧
      OnlyRegs ([(TILE_POD_POD_FAULTS.tile tile).base, (BENCH_POD_MAP.ix tile).base] ++ noteRegs) s t) ∧
    (s.spareUsable tile = false → ∃ t, exec (.spareParity at_ tile) s = .next t ∧ OnlyParts [.now] s t) ∧
    (∀ w seq seen f p, InTick f p s → s.shadowActive tile = true → shadowEligible w = true → s.shadowSampled tile seq = true →
      let done := s.issueAbs w + 3 * wKlen w + 524
      let free := (assocGet s.tiles.shadowBusy tile).all (fun c => decide (c ≤ s.issueAbs w)) = true ∧ done < s.edgeAt + planFenceOf p 3
      (¬ free → ∃ t, exec (.shadowCompare tile w seq seen) s = .next t ∧
        Counts (TILE_SHADOW_CNT_SKIPPED.tile tile) 1 s t ∧ OnlyParts [.regs] s t) ∧
      (free → Settled s done → s.shadowBad tile w seen = false → ∃ t, exec (.shadowCompare tile w seq seen) s = .next t ∧
        Counts (TILE_SHADOW_CNT_SAMPLED.tile tile) 1 s t ∧ assocGet t.tiles.shadowBusy tile = some done ∧
        t.now = max s.now done ∧ OnlyParts [.now, .regs, .tiles] s t ∧ OnlyRegs [(TILE_SHADOW_CNT.tile tile).base] s t) ∧
      (free → Settled s done → s.shadowBad tile w seen = true → ∃ t, exec (.shadowCompare tile w seq seen) s = .next t ∧
        Counts (TILE_SHADOW_CNT_SAMPLED.tile tile) 1 s t ∧ Counts (TILE_SHADOW_CNT_MISMATCHES.tile tile) 1 s t ∧
        t.fbit (TILE_STS_SHADOW_MISMATCH.tile tile) = true ∧
        (s.fget (TILE_SHADOW_MODE.tile tile) = 0 → t.run = s.run) ∧
        (s.fget (TILE_SHADOW_MODE.tile tile) ≠ 0 → RaisesC s t) ∧ t.tiles.acc = s.tiles.acc ∧ t.mem = s.mem)) ∧
    (∀ w seq seen, s.shadowActive tile = false ∨ shadowEligible w = false ∨ s.shadowSampled tile seq = false →
      exec (.shadowCompare tile w seq seen) s = .next s)

/-- LOCKSTEP_MISMATCH, LOCKSTEP_RELOAD_DONE, ATTEND_EXPIRY, ATTEND_ACK and CLASS_D_TIMEOUT (R495 to R497, R504, R505): a
mismatch is class B and reloads the hull within 16,384 cyc, unless one within 2^24 cyc of the last reload stops the module; the
reload gives the hull the mirrored record and posts the events that waited for it; an expiry is class D and begins an abort of
the running job; ACK clears the timer; a class D action still open after 100 ms stops the module. -/
def Obligations.LockstepAndAttendTimers : Prop :=
  ∀ (s : State) (at_ page : Nat), Awake s → page < 108 →
    (Settled s at_ → let again := s.power.reload ≠ none ∨ ∃ c, s.power.reloaded = some c ∧ max s.now at_ ≤ c + 16777216;
      (¬ again → ∃ t, exec (.lockstepMismatch at_) s = .next t ∧ t.now = max s.now at_ ∧ Counts HULL_LOCKSTEP_MISMATCHES 1 s t ∧
        t.fbit HULL_FAULT_STS_LOCKSTEP = true ∧ RaisesB s t ∧ t.power.reload = some (max s.now at_ + 16384) ∧ t.job.token = none ∧
        t.ccr = s.ccr ∧ OnlyParts [.now, .regs, .run, .job, .fifos, .cap, .power, .outbox] s t) ∧
      (again → ∃ t, exec (.lockstepMismatch at_) s = .next t ∧ StoppedBy 1 s t)) ∧
    (∀ c, s.power.reload = some c → Settled s c →
      (s.mirror0 = s.mirror1 → ∃ t, exec (.lockstepReloadDone true) s = .next t ∧ t.now = max s.now c ∧
        t.ccr = (if s.job.ctx = none then s.ccr else s.mirror0) ∧ t.power.reload = none ∧ t.power.reloaded = some c ∧
        (t.fifo 1).late = [] ∧ OnlyParts [.now, .regs, .ccr, .fifos, .power, .outbox] s t ∧
        ((s.fifo 1).late = [] → OnlyParts [.now, .ccr, .power] s t)) ∧
      (∃ t, exec (.lockstepReloadDone false) s = .next t ∧ StoppedBy 2 s t) ∧
      (∀ ok, s.mirror0 ≠ s.mirror1 → ∃ t, exec (.lockstepReloadDone ok) s = .next t ∧ StoppedBy 2 s t)) ∧
    (∀ c, (s.attendOf page).expiry = some c → Settled s c → s.job.ctx ≠ none → s.job.aborting = none → page ≠ 3 → page ≠ 7 →
      ∃ t, exec (.attendExpiry page) s = .next t ∧ t.now = max s.now c ∧ (t.attendOf page).expiry = none ∧
        t.fbit (ATTEND_EXPIRED.pageOf page) = true ∧ Counts (FAULT_CNT_D_TAKEN.pageOf page) 1 s t ∧
        t.job.aborting = some (s.fget HULL_ORCH_MODULE, (s.attendOf page).cause) ∧
        t.fbit HULL_ORCH_STS_ABORT_SENT = true ∧ t.job.ctx = s.job.ctx ∧ t.mem = s.mem ∧ t.ccr = s.ccr) ∧
    (∀ c, (s.attendOf page).expiry = some c → Settled s c → s.job.ctx = none → page ≠ 3 → page ≠ 7 →
      ∃ t, exec (.attendExpiry page) s = .next t ∧ t.now = max s.now c ∧ (t.attendOf page).expiry = none ∧
        t.job = s.job ∧ t.mem = s.mem ∧ t.ccr = s.ccr) ∧
    ((s.attendOf page).expiry = none → exec (.attendExpiry page) s = .next s) ∧
    (∃ t, exec (.attendAck page) s = .next t ∧ Counts (FAULT_CNT_C_ACKED.pageOf page) 1 s t ∧
      (t.attendOf page).expiry = none ∧ (t.attendOf page).first = none ∧ (∀ q, q ≠ page → t.attendOf q = s.attendOf q) ∧
      OnlyParts [.regs, .attend] s t ∧ OnlyRegs [(FAULT_CNT_C_ACKED.pageOf page).base] s t) ∧
    (∀ b1 b2, Settled s at_ → let late := ∃ d ∈ s.power.classD, d.1 = page ∧ d.2 + 200000000 ≤ max s.now at_;
      (late → ∃ t, exec (.classDTimeout at_ page b1 b2) s = .next t ∧ StoppedBy 3 s t ∧ Shows HULL_TERMINAL_WINDOW (pageWindow page) t) ∧
      (¬ late → ∃ t, exec (.classDTimeout at_ page b1 b2) s = .next t ∧ OnlyParts [.now] s t))

/-- TERMINAL_STOP, SAG, OVER_VOLTAGE, OVER_CURRENT, RAIL_FAULT and THERMAL_TERMINAL (R498, R533, R540, R541, R621, R622): each
stops the module with its cause code, a sag only while the hold-up is armed, a temperature only past its limit; the stop saves a
critical record on the cartridge, or on boot flash where the cartridge does not answer. EN_DROP (R612) stops it with a SHUTDOWN
record. What had been under way lands before the cycle of the stop, and nothing after it. Of two conditions on one cycle the
lower cause code stands. -/
def Obligations.ClassEStopsTheModule : Prop :=
  (∀ (s : State) (at_ c cause w : Nat) (cartFails flashFails : Bool), s.power.halt = .stopped c → at_ = s.power.stopAt →
    (cause < c → ∃ t, exec (.terminalStop at_ cause w cartFails flashFails) s = .next t ∧ t.power.halt = .stopped cause ∧
      t.fget HULL_TERMINAL_CAUSE = cause % 8 ∧ OnlyParts [.regs, .power] s t) ∧
    (c ≤ cause → exec (.terminalStop at_ cause w cartFails flashFails) s = .next s)) ∧
  (∀ (s : State) (at_ : Nat) (cartFails flashFails : Bool), Awake s → Settled s at_ →
    let toCart := s.cartUsable = true ∧ cartFails = false
    let saved := fun (t : State) => s.fbit HRD_HARVEST_ACTIVE = false → (toCart ∨ flashFails = false) →
      t.fbit PWR_CRIT_VALID = true ∧ (t.fget PWR_CRIT_MEDIUM = 0 ↔ toCart) ∧
      t.fget PWR_CRIT_SEQ = (match s.newestRec with | some (r, _) => r.seq + 1 | none => 1) % 2 ^ PWR_CRIT_SEQ.wd
    let frame := fun (t : State) => t.now = max s.now at_ ∧ t.tiles.flights = [] ∧ t.dues = [] ∧
      OnlyParts [.now, .regs, .mem, .run, .tiles, .hub, .links, .solver, .host, .fifos, .cap, .power, .outbox] s t
    (∀ cause w, ∃ t, exec (.terminalStop at_ cause w cartFails flashFails) s = .next t ∧ StoppedBy cause s t ∧ saved t ∧ frame t) ∧
    (∃ t, exec (.overVoltage at_ cartFails flashFails) s = .next t ∧ StoppedBy 4 s t ∧ saved t ∧ frame t) ∧
    (∃ t, exec (.overCurrent at_ cartFails flashFails) s = .next t ∧ StoppedBy 4 s t ∧ saved t ∧ frame t) ∧
    (∃ t, exec (.railFault at_ cartFails flashFails) s = .next t ∧ StoppedBy 4 s t ∧ saved t ∧ frame t) ∧
    (∀ lasts, s.fbit PWR_STATE_ARMED = true →
      ∃ t, exec (.sag at_ cartFails flashFails lasts) s = .next t ∧ StoppedBy 4 s t ∧ t.fbit PWR_STATE_ARMED = false ∧
        (lasts = true ∨ s.fbit CAP_MEAS_OVERRIDDEN = false → saved t) ∧ frame t) ∧
    (∀ lasts, s.fbit PWR_STATE_ARMED = false →
      ∃ t, exec (.sag at_ cartFails flashFails lasts) s = .next t ∧ t.now = max s.now at_ ∧ OnlyParts [.now] s t) ∧
    (∀ (id : Nat) (v : Word32),
      let past := (0x100 ≤ id ∧ id < 0x116 ∧ readAbove v.toNat 115 = true) ∨
          (0x200 ≤ id ∧ id < 0x210 ∧ readAbove v.toNat 105 = true)
      (past → ∃ t, exec (.thermalTerminal at_ id v cartFails flashFails) s = .next t ∧ StoppedBy 5 s t ∧ saved t ∧ frame t ∧
        (s.fbit PWR_ENV_FIRST_VALID = false → Shows PWR_ENV_FIRST_SENSOR id t ∧ t.fget PWR_ENV_FIRST_CAUSE = 6)) ∧
      (¬ past → ∃ t, exec (.thermalTerminal at_ id v cartFails flashFails) s = .next t ∧ OnlyParts [.now] s t)) ∧
    (∃ t, exec (.enDrop at_ cartFails flashFails) s = .next t ∧ t.power.halt = .stopped 0 ∧ t.run = {} ∧
      t.fbit PWR_ENV_STS_EN_DROP = true ∧ (∀ a, a < 0x10000000000 → t.rd8 a = 0) ∧
      (∀ a, 0x10000000000 ≤ a → t.rd8 a = s.rd8 a) ∧ saved t ∧ frame t))

/-- CAPTURE_IN, CAPTURE_NOW, CAPTURE, ARM_EDGE, DISARM, REARM and CAPTURE_SEND (R513 to R517, R522): an enabled pin edge and a
write of NOW arrange a capture 32 cyc on, or join one already arranged for that time; the capture latches in every copy
what a read of the register would sample on its cycle, under the next local ID; a held capture only counts the miss;
a master's notice is held, and goes out in the next tick, or is rejected when its tick is too near or its cycle past a plan's
period. -/
def Obligations.CapturesLatchEveryRegister : Prop :=
  ∀ (s : State) (at_ : Nat), Awake s → Settled s at_ →
    let heldCopies := s.fbit HULL_CAPTURE_CFG_HOLD && s.fbit HULL_CAPTURE_ID_HELD
    let c := max s.now at_ + 32
    (∀ q ∈ [(Instr.captureNow at_, 1, true), (.captureIn at_, 8, s.fbit HULL_CAPTURE_CFG_PIN_EN)],
      (q.2.2 = true → heldCopies = false → (∀ x ∈ s.cap.pend, c < x.1 ∨ x.1 + 32 < c) →
        ∃ t, exec q.1 s = .next t ∧ t.cap.pend = s.cap.pend ++ [(c, q.2.1)] ∧ t.now = max s.now at_ ∧ OnlyParts [.now, .cap] s t) ∧
      (q.2.2 = true → heldCopies = false → ∀ x, s.cap.pend = [x] → x.1 ≤ c → c ≤ x.1 + 32 →
        ∃ t, exec q.1 s = .next t ∧ t.cap.pend = [(x.1, Nat.lor x.2 q.2.1)] ∧ OnlyParts [.now, .cap] s t) ∧
      (q.2.2 = true → heldCopies = true → ∃ t, exec q.1 s = .next t ∧ Counts HULL_CAPTURE_ID_MISSED 1 s t ∧
        t.fbit HULL_FAULT_STS_CAPTURE_MISSED = true ∧ OnlyParts [.now, .regs, .outbox] s t ∧ OnlyRegs noteRegs s t) ∧
      (q.2.2 = false → ∃ t, exec q.1 s = .next t ∧ OnlyParts [.now] s t)) ∧
    (∀ p, capFirst s.cap.pend = some p → heldCopies = false → Settled s p.1 →
      let s1 := s.advance p.1
      ∃ t, exec .capture s = .next t ∧ t.now = s1.now ∧ t.cap.pend = s.cap.pend.erase p ∧
        (∀ k, tabGet resetOf t.snaps k = if k ∈ viewKeys then s1.regValue k else s.regGet k) ∧
        (∀ q, q < 108 → t.fbit (SNAP_ID_VALID.pageOf q) = true ∧ t.fbit (SNAP_ID_OFF.pageOf q) = s.windowOff (pageWindow q)) ∧
        Shows HULL_CAPTURE_ID_SOURCES p.2 t ∧ t.fbit HULL_FAULT_STS_CAPTURE_TAKEN = true ∧
        t.fget HULL_CAPTURE_ID_HELD = s.fget HULL_CAPTURE_CFG_HOLD % 2 ∧
        (getBits p.2 4 1 = 0 → t.cap.localCount = s.cap.localCount + 1 ∧ t.fget HULL_CAPTURE_ID_ID = s.cap.localCount % 2 ^ 31) ∧
        (getBits p.2 4 1 = 1 → t.cap.localCount = s.cap.localCount ∧ t.fget HULL_CAPTURE_ID_ID = 2 ^ 31 + s.tickCount % 2 ^ 31) ∧
        .captureOut s1.now ∈ t.outbox ∧ OnlyParts [.now, .regs, .snaps, .cap, .fifos, .power, .outbox] s t) ∧
    (∀ p, capFirst s.cap.pend = some p → heldCopies = true → Settled s p.1 → ∃ t, exec .capture s = .next t ∧
      Counts HULL_CAPTURE_ID_MISSED 1 s t ∧ t.cap.pend = s.cap.pend.erase p ∧ t.snaps = s.snaps) ∧
    (∀ q ∈ [(Instr.armEdge, HULL_CAPTURE_ID_ARMED_EDGE, true), (.disarm, HULL_CAPTURE_ID_ARMED_EDGE, false),
        (.rearm, HULL_CAPTURE_ID_HELD, false)],
      ∃ t, exec q.1 s = .next t ∧ t.fbit q.2.1 = q.2.2 ∧
        (∀ g : Fld, g.base ≠ q.2.1.base ∨ g.lo + g.wd ≤ q.2.1.lo ∨ q.2.1.lo + 1 ≤ g.lo → t.fget g = s.fget g) ∧ OnlyParts [.regs] s t) ∧
    (s.fbit HULL_ORCH_MASTER = false → exec .captureSend s = .next s) ∧
    (∀ f, s.image = some f → s.fbit HULL_ORCH_MASTER = true →
      let tick := s.fget HULL_CAPTURE_AT0_TICK
      let cyc := s.fget HULL_CAPTURE_AT1_CYCLE
      let ok := s.tickCount + 2 ≤ tick ∧ ∀ p ∈ f.plans, p.all (fun q => decide (cyc < planPeriod q)) = true
      (ok → ∃ t, exec .captureSend s = .next t ∧ 
        t.job.captureOut = some (tick, cyc) ∧
        t.job.captureAt = (if s.fbit HULL_CAPTURE_CFG_ORCH_EN then some (tick, cyc) else s.job.captureAt) ∧ OnlyParts [.regs, .job] s t) ∧
      (¬ ok → ∃ t, exec .captureSend s = .next t ∧ t.fbit HULL_FAULT_STS_CAPTURE_REJECT = true ∧
        OnlyParts [.regs, .outbox] s t ∧ OnlyRegs [HULL_FAULT_STS_CAPTURE_REJECT.base] s t))

/-! ### Power, environment and resets -/

/-- HOLDUP_ARMED, CAP_OVERRIDE, POWER_OVER_LIMIT, OUTSIDE_RATING, CLK_LOCKED, CLK_LOST, THERMAL_WARN and SENSOR_SAMPLE (R461,
R532, R534, R537, R539, R612, R618, R621 to R624): the hold-up arms when the bus stands and the bank allows it; an override
helps only a bank below its floor; limits raise class C; lock is shown only for a usable source, and its loss during a job is
class D; a reading past its limit raises class C once, its first event recorded, and not again before 1 s back inside; a sample
is held by its sensor's id and shown in the register that shows it, and telemetry leaves every 100 ms. -/
def Obligations.LimitsSensorsAndClock : Prop :=
  ∀ (s : State) (at_ : Nat), Awake s → Settled s at_ →
    (∃ t, exec (.holdupArmed at_) s = .next t ∧ t.now = max s.now at_ ∧ t.power.busUp = true ∧
      t.fbit PWR_STATE_ARMED = (s.bankOk || s.fbit PWR_STATE_ARMED) ∧ OnlyParts [.now, .regs, .power] s t ∧
      OnlyRegs [PWR_STATE_ARMED.base] s t) ∧
    (s.fbit CAP_MEAS_BELOW_FLOOR = true → ∃ t, exec .capOverride s = .next t ∧ t.fbit CAP_MEAS_OVERRIDDEN = true ∧
      (s.power.busUp = true → t.fbit PWR_STATE_ARMED = true) ∧ OnlyParts [.regs] s t ∧
      OnlyRegs [CAP_MEAS_OVERRIDDEN.base, PWR_STATE_ARMED.base] s t) ∧
    (s.fbit CAP_MEAS_BELOW_FLOOR = false → exec .capOverride s = .next s) ∧
    (∃ t, exec (.powerOverLimit at_) s = .next t ∧ Counts PWR_CNT_OVER_LIMIT 1 s t ∧ t.fbit PWR_STS_OVER_LIMIT = true ∧
      RaisesC s t ∧ (t.attendOf 2).expiry.isSome = true ∧
      OnlyParts [.now, .regs, .run, .attend, .fifos, .cap, .outbox] s t) ∧
    (∃ t, exec (.outsideRating at_) s = .next t ∧ t.fbit PWR_STS_OVER_LIMIT = true ∧ RaisesC s t ∧
      t.fget PWR_CNT_OVER_LIMIT = s.fget PWR_CNT_OVER_LIMIT ∧ (t.attendOf 2).expiry.isSome = true ∧
      OnlyParts [.now, .regs, .run, .attend, .fifos, .cap, .outbox] s t) ∧
    (∃ t, exec (.clkLocked at_) s = .next t ∧ t.now = max s.now at_ ∧
      t.fbit TICK_CLKSRC_LOCKED = (s.clkUsable || s.fbit TICK_CLKSRC_LOCKED) ∧ OnlyParts [.now, .regs] s t ∧
      OnlyRegs [TICK_CLKSRC_LOCKED.base] s t) ∧
    (s.job.ctx = none → ∃ t, exec (.clkLost at_) s = .next t ∧ t.fbit TICK_CLKSRC_LOCKED = false ∧
      OnlyParts [.now, .regs] s t ∧ OnlyRegs [TICK_CLKSRC_LOCKED.base] s t) ∧
    (s.job.ctx ≠ none → s.job.aborting = none → ∃ t, exec (.clkLost at_) s = .next t ∧ t.fbit TICK_CLKSRC_LOCKED = false ∧
      t.fbit PWR_ENV_STS_CLK_LOST = true ∧ Counts (FAULT_CNT_D_TAKEN.pageOf 2) 1 s t ∧
      t.job.aborting = some (s.fget HULL_ORCH_MODULE, 5) ∧ t.job.ctx = s.job.ctx ∧ t.mem = s.mem ∧
      (s.fbit PWR_ENV_FIRST_VALID = false → t.fget PWR_ENV_FIRST_CAUSE = 4)) ∧
    (∀ (id : Nat) (v : Word32),
      (∀ cause, sensorWarns id v.toNat = some (some cause, true) → assocGet s.power.warned id = none →
        ∃ t, exec (.thermalWarn at_ id v) s = .next t ∧ t.now = max s.now at_ ∧ assocGet t.power.warned id = some none ∧
          assocGet t.power.sensors id = some v.toNat ∧ t.fbit (envSts cause) = true ∧ RaisesC s t ∧
          (s.fbit PWR_ENV_FIRST_VALID = false → Shows PWR_ENV_FIRST_SENSOR id t ∧ t.fget PWR_ENV_FIRST_CAUSE = cause ∧
            Shows PWR_ENV_FIRST_VALUE v.toNat t) ∧
          OnlyParts [.now, .regs, .run, .attend, .fifos, .cap, .power, .outbox] s t) ∧
      (∀ x, sensorWarns id v.toNat = some (x, true) → assocGet s.power.warned id = some none →
        ∃ t, exec (.thermalWarn at_ id v) s = .next t ∧ OnlyParts [.now, .power] s t) ∧
      ((sensorWarns id v.toNat).all (fun x => !x.2) = true → ∃ t, exec (.thermalWarn at_ id v) s = .next t ∧ OnlyParts [.now] s t) ∧
      (0x200 ≤ id → id < 0x210 → readAbove v.toNat 95 = true → assocGet s.power.warned id = none →
        ∃ t, exec (.thermalWarn at_ id v) s = .next t ∧ t.fbit (stackFld HUB_STACK_HOT (id - 0x200)) = true ∧ RaisesC s t) ∧
      (∃ t, exec (.sensorSample at_ [(id, v)]) s = .next t ∧ t.now = max s.now at_ ∧ assocGet t.power.sensors id = some v.toNat ∧
        (id = 1 → Shows PWR_INPUT_VIN (unitsOf v.toNat 100) t) ∧ (id = 3 → Shows PWR_INPUT_PIN (unitsOf v.toNat 1) t) ∧
        (id = 0x10 → Shows PWR_COOLANT_INLET (unitsOf v.toNat 100) t) ∧
        (0x200 ≤ id → id < 0x210 → t.fget (stackFld HUB_STACK_TEMP (id - 0x200)) = min 255 (unitsOf v.toNat 1) ∧
          t.fbit (stackFld HUB_STACK_HOT (id - 0x200)) = readAbove v.toNat 95) ∧
        (max s.now at_ < s.power.telemetryAt + 200000000 → t.fifos = s.fifos ∧ t.outbox = s.outbox) ∧
        (s.power.telemetryAt + 200000000 ≤ max s.now at_ → t.power.telemetryAt = max s.now at_ ∧
          ((s.fifo 3).items.length + 2 ≤ 512 → evWord 0x80 true 0 0 (id % 65536 * 2 ^ 16 + v.toNat * 2 ^ 32 +
            s.tickCount % 2 ^ 32 * 2 ^ 64) ∈ (t.fifo 3).items)) ∧
        OnlyParts [.now, .regs, .fifos, .power, .outbox] s t))

/-- FLR_PF0 to FLR_PF3 and HOT_RESET (R420, R421, R434, R444, R559 to R562, R592): PF0's empties trace and telemetry and the
mailbox; PF1's ends the job, whose context keeps its image and returns to LOADED, and every command, pin and held
invalidation; PF2's ends a harvest; PF3's draws a nonce and clears the fuse buffer. HBM, contexts' images and the counters
of class W stand, and the report names its kind. -/
def Obligations.FunctionResetsClearTheirOwn : Prop :=
  ∀ (s : State) (at_ : Nat), Awake s → Settled s at_ →
    (∃ t, exec (.flrPf0 at_) s = .next t ∧ t.now = max s.now at_ ∧ (t.fifo 2).items = [] ∧ (t.fifo 3).items = [] ∧
      t.fifo 0 = s.fifo 0 ∧ t.fifo 1 = s.fifo 1 ∧ t.host.mbox = [] ∧ t.fget PWR_RESTORE_STS_KIND = 4 ∧
      OnlyParts [.now, .regs, .fifos, .rings, .host] s t) ∧
    (∃ t, exec (.flrPf1 at_) s = .next t ∧ t.now = max s.now at_ ∧ t.job.ctx = none ∧ t.run = {} ∧ t.host.cmds = [] ∧
      t.host.pins = [] ∧ t.host.exp = none ∧ t.host.held = [] ∧ t.host.atc = [] ∧ (t.fifo 0).items = [] ∧ (t.fifo 1).items = [] ∧
      (∀ c, s.job.ctx = some c → c < 4 → (t.ctx c).state = .loaded ∧ (t.ctx c).ccr = s.ccr ∧ (t.ctx c).seed = s.job.seed) ∧
      (∀ c, (t.ctx c).image = (s.ctx c).image) ∧ t.mem = s.mem ∧ t.fget PWR_RESTORE_STS_KIND = 5 ∧
      t.fget HULL_LOCKSTEP_MISMATCHES = s.fget HULL_LOCKSTEP_MISMATCHES) ∧
    (∃ t, exec (.flrPf2 at_) s = .next t ∧ t.now = max s.now at_ ∧ t.fbit HRD_HARVEST_ACTIVE = false ∧
      (s.fbit HRD_HARVEST_ACTIVE = true → t.fbit HRD_STS_HARVEST_ABANDONED = true ∧ Counts HRD_CNT_ABANDONED 1 s t) ∧
      t.fget PWR_RESTORE_STS_KIND = 6 ∧ t.mem = s.mem ∧ t.run = s.run ∧ t.ccr = s.ccr) ∧
    (∃ t, exec (.flrPf3 at_) s = .next t ∧ t.now = max s.now at_ ∧ t.bench.fuseBuf = 0 ∧ t.fresh = s.fresh + 4 ∧
      (∀ i, i < 4 → t.fget (FUSE_NONCE_NONCE.ix i) = Config.free (s.fresh + i) % 2 ^ 64) ∧
      (s.fbit BENCH_CMD_BUSY = true → t.fget BENCH_CMD_RESULT = 9) ∧ t.fget PWR_RESTORE_STS_KIND = 7 ∧
      OnlyParts [.now, .regs, .bench, .fresh] s t) ∧
    (∃ t, exec (.hotReset at_) s = .next t ∧ t.now = max s.now at_ ∧ t.job.ctx = none ∧ t.run = {} ∧ t.host.cmds = [] ∧
      (∀ f, f < 4 → (t.fifo f).items = []) ∧ (∀ c, (t.ctx c).image = (s.ctx c).image) ∧ t.mem = s.mem ∧ t.bench.fuseBuf = 0 ∧
      t.fget PWR_RESTORE_STS_KIND = 3 ∧ t.fget PWR_RESTORE_STS_CLEARED = 12)

/-- INPUT_LOW_RESET, POWER_CYCLE, COLD_RESET, WARM_RESET and WARM_RESET_RELEASE (R531, R532, R535, R536, R559 to R561, R614,
R617): a power cycle and an input below 40 V hold the module and lose every context and all of HBM, not the flash, the cartridge
or memory outside HBM; a cold reset follows and measures the bank; a warm reset keeps contexts and memory and is left 10 µs
after its release. A module that does not run ignores every command but accesses, the power and the reset pins, and, on the
cycle of a class E stop, another condition of one (R622). -/
def Obligations.ResetsHoldAndRelease : Prop :=
  ∀ (s : State) (at_ : Nat), Safety.Inv s → Settled s at_ →
    let lost := fun (t : State) => t.ctxs = [{}, {}, {}, {}] ∧ t.job = {} ∧ t.run = {} ∧ (∀ a, a < 0x10000000000 → t.rd8 a = 0) ∧
      (∀ a, 0x10000000000 ≤ a → t.rd8 a = s.rd8 a) ∧ t.power.flash = s.power.flash ∧ t.power.cart = s.power.cart ∧
      t.bench.owner = s.bench.owner ∧ t.hub.pprUsed = s.hub.pprUsed
    (∃ t, exec (.powerCycle at_) s = .next t ∧ t.now = max s.now at_ ∧ t.power.halt = .off ∧ lost t) ∧
    ((s.power.halt = .no ∨ ∃ c ∈ [true, false], s.power.halt = .inReset c) →
      ∃ t, exec (.inputLowReset at_) s = .next t ∧ t.now = max s.now at_ ∧ t.power.halt = .inReset true ∧ lost t) ∧
    (∀ time fails ports, s.power.halt = .off ∨ s.power.halt = .inReset true →
      ∃ t, exec (.coldReset at_ time fails ports) s = .next t ∧ t.now = max s.now at_ ∧ t.power.halt = .no ∧
        t.ctxs = [{}, {}, {}, {}] ∧ t.job = {} ∧ (∀ a, a < 0x10000000000 → t.rd8 a = 0) ∧ t.power.flash = s.power.flash ∧
        t.power.cart = s.power.cart ∧ t.power.maddr = ports.maddr % 8 ∧ t.fget CAP_MEAS_CAP_UF = min 65535 (10 * time) ∧
        t.fbit CAP_MEAS_BELOW_FLOOR = decide (10 * time < 5400) ∧ (∀ k, k < 16 → t.fbit (stackFld HUB_STACK_TRAINED k) = true)) ∧
    (s.power.halt = .no → ∃ t, exec (.warmReset at_) s = .next t ∧ t.now = max s.now at_ ∧ t.power.halt = .inReset false ∧
      t.job.ctx = none ∧ t.run = {} ∧ t.mem = s.mem ∧ (∀ c, (t.ctx c).image = (s.ctx c).image) ∧
      (∀ f, f < 4 → (t.fifo f).items = []) ∧ t.fget PWR_RESTORE_STS_KIND = 2 ∧
      (∀ k, k < 16 → t.fbit (stackFld HUB_STACK_SELF_REFRESH k) = true)) ∧
    (∀ ports, s.power.halt = .inReset false → Settled s (max s.now at_ + 20000) → ∃ t, exec (.warmResetRelease at_ ports) s = .next t ∧ t.power.halt = .no ∧
      t.now = max s.now at_ + 20000 ∧ t.mem = s.mem ∧ t.ctxs = s.ctxs ∧
      (∀ k, k < 16 → t.fbit (stackFld HUB_STACK_SELF_REFRESH k) = false) ∧ t.fget HOST_LINK_MODE = ports.mode % 2 ^ HOST_LINK_MODE.wd) ∧
    (s.power.halt ≠ .no → s.run.active = false → ∀ c, heardWhileStopped c = false →
      ((∃ k, s.power.halt = .stopped k) → timedAt c ≠ some s.power.stopAt) →
      exec c s = .next s ∨ exec c s = .fault .noSuchAddress)

/-- PWR_IDLE, PWR_FALLOW, PWR_DORMANT, PWR_OFF, POWER_STATE_ENTERED, WAKE and WAKE_DONE (R525 to R530, R562): a request outside
RUN, or while anything runs, is refused with its status bit alone; an accepted one enters its state after its time, FALLOW
and DORMANT losing the tiles' memories and keeping memory in self-refresh; a wake returns to RUN; OFF leaves a SHUTDOWN
record and switches off. -/
def Obligations.PowerStatesAreEnteredAndLeft : Prop :=
  ∀ (s : State) (at_ : Nat), Awake s → Settled s at_ →
    (∀ q ∈ [(Instr.pwrIdle, 1, 4096), (.pwrFallow, 2, 2000000), (.pwrDormant, 3, 40000000)],
      (s.powerBusy = true ∨ s.inRun = false → ∃ t, exec q.1 s = .next t ∧ t.fbit PWR_STS_STATE_REFUSED = true ∧
        t.fget PWR_STATE_TARGET = q.2.1 ∧ OnlyParts [.regs, .outbox] s t ∧
        OnlyRegs [PWR_STS_STATE_REFUSED.base, PWR_STATE_TARGET.base] s t) ∧
      (s.powerBusy = false → s.inRun = true → ∃ t, exec q.1 s = .next t ∧ t.fbit PWR_STATE_TRANSITION = true ∧
        t.fget PWR_STATE_TARGET = q.2.1 ∧ t.power.trans = some (q.2.1, s.now + q.2.2) ∧ t.fget PWR_STATE_STATE = 0 ∧
        OnlyParts [.regs, .power] s t ∧ OnlyRegs [PWR_STATE_TARGET.base] s t)) ∧
    (∀ b1 b2, s.powerBusy = false → s.inRun = true → ∃ t, exec (.pwrOff b1 b2) s = .next t ∧ t.power.halt = .off ∧
      t.ctxs = [{}, {}, {}, {}] ∧ (∀ a, a < 0x10000000000 → t.rd8 a = 0) ∧
      (s.cartUsable = false → b2 = false → ∃ r ∈ t.power.flash, r.any (fun r => r.kind == 2 && decide (slotSeq (s.newestRec.map (fun x => x.1)) < r.seq)) = true)) ∧
    (∀ b1 b2, s.powerBusy = true ∨ s.inRun = false → ∃ t, exec (.pwrOff b1 b2) s = .next t ∧
      t.fbit PWR_STS_STATE_REFUSED = true ∧ OnlyParts [.regs, .outbox] s t) ∧
    (∀ p c, s.power.trans = some (p, c) → 1 ≤ p → p ≤ 3 → Settled s c → ∃ t, exec .powerStateEntered s = .next t ∧ t.now = max s.now c ∧
      t.fget PWR_STATE_STATE = p ∧ t.fbit PWR_STATE_TRANSITION = false ∧ t.power.trans = none ∧ t.mem = s.mem ∧
      (p = 1 → t.tiles = s.tiles) ∧
      (p ≠ 1 → t.tiles.opLine = [] ∧ t.tiles.acc = [] ∧ ∀ k, k < 16 → t.fbit (stackFld HUB_STACK_SELF_REFRESH k) = true) ∧
      OnlyParts [.now, .regs, .tiles, .power] s t) ∧
    (∀ p, s.power.trans = none → s.fget PWR_STATE_STATE = p → 1 ≤ p → p ≤ 3 → ∃ t, exec (.wake at_) s = .next t ∧
      t.power.trans = some (0, max s.now at_ + (if p = 1 then 20000 else if p = 2 then 6000000 else 500000000)) ∧
      t.fbit PWR_STATE_TRANSITION = true ∧ t.fget PWR_STATE_STATE = p ∧ OnlyParts [.now, .regs, .power, .outbox] s t ∧
      OnlyRegs [PWR_STATE_STATE.base] s t) ∧
    (s.power.trans = none → s.fget PWR_STATE_STATE = 0 → ∃ t, exec (.wake at_) s = .next t ∧ OnlyParts [.now] s t) ∧
    (∀ c fails, s.power.trans = some (0, c) → s.fbit HRD_CMD_BUSY = false → Settled s c → ∃ t, exec (.wakeDone fails) s = .next t ∧
      t.now = max s.now c ∧ t.fget PWR_STATE_STATE = 0 ∧ t.fbit PWR_STATE_TRANSITION = false ∧ t.power.trans = none ∧
      Counts PWR_CNT_WAKES 1 s t ∧ t.fbit PWR_STS_WOKE = true ∧ t.mem = s.mem ∧
      (∀ k, k < 16 → t.fbit (stackFld HUB_STACK_SELF_REFRESH k) = false) ∧
      (s.fget PWR_STATE_STATE ≠ 3 → t.attend = s.attend ∧ t.snaps = s.snaps) ∧
      OnlyParts [.now, .regs, .snaps, .attend, .power, .outbox] s t)

/-! ### Host commands -/

/-- LOAD_IMAGE, LOAD_IMAGE_DONE and UNLOAD_IMAGE (R422, R425, R426, R446, R484, R486): an EMPTY context starts to load
through queue 2 of its engine; an image that passes every check leaves it LOADED with the image, one that does not leaves
it EMPTY, and the completion says which check failed; UNLOAD_IMAGE empties a LOADED context; a command in any other state
completes with status 3 and does nothing else. -/
def Obligations.ImagesLoadAndUnload : Prop :=
  ∀ (s : State) (at_ ctx tag : Nat), Awake s → ctx < 4 → Settled s at_ →
    let refused := fun (op : Nat) (t : State) => t.now = max s.now at_ ∧ Completes ctx tag op 3 0 s t ∧
      OnlyParts [.now, .regs, .fifos, .outbox] s t ∧ OnlyRegs noteRegs s t
    let others := fun (t : State) => ∀ c, c ≠ ctx → t.ctx c = s.ctx c
    (∀ src len, s.cmdAllowed ctx [.empty] = true → ∃ t, exec (.loadImage at_ ctx tag src len) s = .next t ∧
      t.now = max s.now at_ ∧ t.ctx ctx = { s.ctx ctx with loading := true } ∧ others t ∧
      t.host.cmds = s.host.cmds ++ [⟨1, ctx, tag, len⟩] ∧
      t.host.descs = s.host.descs ++ [{ eng := ctx, q := 2, ctx := ctx, kind := .loadImage, src := src, dst := 0xBC0000000, length := len, tag := tag }] ∧
      OnlyParts [.now, .ctxs, .host] s t) ∧
    (∀ src len, s.cmdAllowed ctx [.empty] = false → ∃ t, exec (.loadImage at_ ctx tag src len) s = .next t ∧ refused 1 t) ∧
    (∀ f p, s.host.cmds.find? (fun p => p.opcode == 1 && p.ctx == ctx) = some p →
      (s.imageFail f p.arg = none → ∃ t, exec (.loadImageDone at_ ctx f) s = .next t ∧
        t.ctx ctx = { state := .loaded, image := some f } ∧ others t ∧ t.fbit HULL_LOAD_STS_LOADED = true ∧
        t.router.rwlOpen = false ∧ Completes ctx p.tag 1 0 0 s t ∧ p ∉ t.host.cmds ∧
        OnlyParts [.now, .regs, .ctxs, .fifos, .host, .router, .outbox] s t) ∧
      (∀ e, s.imageFail f p.arg = some e → ∃ t, exec (.loadImageDone at_ ctx f) s = .next t ∧
        t.ctx ctx = { s.ctx ctx with loading := false } ∧ others t ∧ t.fbit HULL_LOAD_STS_REFUSED = true ∧
        Completes ctx p.tag 1 9 (e.code + e.typ * 65536) s t ∧ p ∉ t.host.cmds ∧
        OnlyParts [.now, .regs, .ctxs, .fifos, .host, .outbox, .fresh] s t)) ∧
    (s.cmdAllowed ctx [.loaded] = false → ∃ t, exec (.unloadImage at_ ctx tag) s = .next t ∧ refused 2 t) ∧
    (s.cmdAllowed ctx [.loaded] = true → ∃ t, exec (.unloadImage at_ ctx tag) s = .next t ∧ t.now = max s.now at_ ∧
      t.ctx ctx = {} ∧ others t ∧ (∀ p ∈ t.host.pins, p.ctx ≠ ctx) ∧ (∀ d ∈ t.host.descs, d.ctx ≠ ctx ∨ 12 ≤ d.eng) ∧
      t.fget (HULL_CTX_TRAIL.ix ctx) = 0 ∧ t.mem = s.mem ∧ t.ccr = s.ccr ∧
      ((∀ d ∈ s.host.descs, d.ctx ≠ ctx) → (∀ e, s.host.exp = some e → e.ctx ≠ ctx) → Completes ctx tag 2 0 0 s t))

/-- START_JOB and END_JOB (R387, R416, R422, R425, R430, R434, R481, R538, R561): the checks come in order and each refusal
names its status; an accepted fresh job runs from tick 0 with t, STEP and every loss field 0, one that loads an export with the
t and STEP of its header, its context RUNNING and its two mirrors equal to the record, the master's own seed in force; END_JOB
of a running context resets the job, tells its partners in the CONTROL slots left of the tick, and leaves it LOADED under its
committed record, and of a PREEMPTED one leaves it LOADED under its saved record. -/
def Obligations.JobsStartAndEnd : Prop :=
  ∀ (s : State) (at_ ctx tag seed src len : Nat) (join : JobJoin), Awake s → ctx < 4 →
    Settled s (max (max s.now at_) join.edge) →
    let start : Instr := .startJob at_ ctx tag seed src len join
    let refused := fun (status detail : Nat) => ∃ t, exec start s = .next t ∧ t.now = max s.now at_ ∧
      Completes ctx tag 3 status detail s t ∧ OnlyParts [.now, .regs, .fifos, .outbox] s t ∧ OnlyRegs noteRegs s t
    ((s.ctx ctx).image = none ∨ s.cmdAllowed ctx [.loaded] = false ∨ s.fbit BENCH_STS_SCAN_ACTIVE = true → refused 3 0) ∧
    (∀ f, (s.ctx ctx).image = some f → s.cmdAllowed ctx [.loaded] = true → s.fbit BENCH_STS_SCAN_ACTIVE = false →
      (s.jobBusy = true → refused 4 0) ∧
      (s.jobBusy = false →
        (s.powerDetail ≠ 0 → refused 15 s.powerDetail) ∧
        (s.powerDetail = 0 →
          let narrow := s.fget HOST_LINK_WIDTH = 1 ∨ s.fget HOST_LINK_WIDTH = 2
          (narrow → refused 7 0) ∧
          (¬ narrow → s.jobRefusal f ≠ 0 → ∃ t, exec start s = .next t ∧ t.fget HULL_ORCH_REFUSE = s.jobRefusal f ∧
            t.fbit HULL_ORCH_STS_JOB_REFUSED = true ∧ Completes ctx tag 3 13 (s.jobRefusal f) s t ∧
            OnlyParts [.now, .regs, .fifos, .outbox] s t) ∧
          (¬ narrow → s.jobRefusal f = 0 → src = 0 → ∃ t, exec start s = .next t ∧ t.now = max (max s.now at_) join.edge ∧
            t.edgeAt = t.now ∧ t.job.ctx = some ctx ∧ t.job.firstEdge = t.now ∧ t.run.active = true ∧ t.ccr = {} ∧
            t.mirror0 = t.ccr ∧ t.mirror1 = t.ccr ∧ (t.ctx ctx).state = .running ∧ (t.ctx ctx).image = some f ∧
            t.job.seed = (if s.fget HULL_ORCH_MODULE = imgMaster f then seed else join.seed) ∧
            t.fget TICK_COUNT_COUNT = 0 ∧ t.fget TICK_PLAN_CUR = imgTick0 f % 2 ^ TICK_PLAN_CUR.wd ∧
            t.job.verdicts = (s.ctx ctx).verdicts ∧ t.job.refused = (s.ctx ctx).refused ∧ t.hub.swaps = [] ∧ t.tiles.podPend = [] ∧
            t.host.cmds = s.host.cmds) ∧
          (¬ narrow → s.jobRefusal f = 0 → src ≠ 0 → (s.loadBytes src len).bind (fun l => s.loadEnts f l) = none → refused 10 0) ∧
          (∀ l es, ¬ narrow → s.jobRefusal f = 0 → src ≠ 0 → s.loadBytes src len = some l → s.loadEnts f l = some es →
            ∃ t, exec start s = .next t ∧ t.now = max (max s.now at_) join.edge ∧ t.edgeAt = t.now ∧ t.job.ctx = some ctx ∧
            t.job.firstEdge = t.now ∧ t.run.active = true ∧
            t.ccr = { t := streamN l 48 8, step := streamN l 56 8, lastStep := some (streamN l 56 8) } ∧
            t.mirror0 = t.ccr ∧ t.mirror1 = t.ccr ∧ (t.ctx ctx).state = .running ∧ (t.ctx ctx).image = some f ∧
            t.job.seed = (if s.fget HULL_ORCH_MODULE = imgMaster f then streamN l 112 8 else join.seed) ∧
            t.fget TICK_COUNT_COUNT = 0)))) ∧
    (s.cmdAllowed ctx [.running, .preempted] = false → ∃ t, exec (.endJob at_ ctx tag) s = .next t ∧ Completes ctx tag 8 3 0 s t ∧
      OnlyParts [.now, .regs, .fifos, .outbox] s t ∧ OnlyRegs noteRegs s t) ∧
    (s.cmdAllowed ctx [.running, .preempted] = true → s.job.ctx = some ctx → ∃ t, exec (.endJob at_ ctx tag) s = .next t ∧
      t.now = max s.now at_ ∧ t.job = {} ∧ t.run = {} ∧ (t.ctx ctx).state = .loaded ∧ (t.ctx ctx).ccr = s.ccr ∧
      (t.ctx ctx).seed = s.job.seed ∧ (t.ctx ctx).image = (s.ctx ctx).image ∧ t.fget PWR_RESTORE_STS_KIND = 8 ∧
      t.mem = s.mem ∧ (1 < s.fget HULL_ORCH_SIZE → t.fbit HULL_ORCH_STS_ABORT_SENT = true ∧
        ∀ l ∈ s.treeLinks, ∀ y ∈ s.controlCycles l (max s.now at_),
          ∃ hdr, .frame l y 2 [hdr, noticeFlit (s.fget HULL_ORCH_MODULE) 4] ∈ t.outbox)) ∧
    (∀ v, (s.ctx ctx).loading = false → (s.ctx ctx).state = .preempted → (s.ctx ctx).saved = some v → s.job.ctx ≠ some ctx →
      ∃ t, exec (.endJob at_ ctx tag) s = .next t ∧ (t.ctx ctx).state = .loaded ∧ (t.ctx ctx).ccr = v.ccr ∧
        (t.ctx ctx).saved = none ∧ (t.ctx ctx).image = (s.ctx ctx).image ∧ t.mem = s.mem ∧ t.job = s.job ∧
        (s.job.ctx = none → t.host.atc = [] ∧ t.fget PWR_RESTORE_STS_KIND = 8))

/-- PREEMPT_AT_EDGE, PREEMPT_NOW, PREEMPTED, RESUME and RESUMED (R431 to R434, R538): a pre-emption is arranged for its tick's
edge, or stops the tick 1,024 cyc after it is taken and declines its step; when the save area stands the context is
PREEMPTED and holds the control record, the job and the tick; a resume gives them back and counts on from that tick. -/
def Obligations.PreemptionSavesAndResumes : Prop :=
  ∀ (s : State) (at_ ctx tag : Nat), Awake s → ctx < 4 → Settled s (max s.now at_ + 1024) →
    let s1 := s.advance at_
    let refused := fun (c : Instr) (op status : Nat) => ∃ t, exec c s = .next t ∧ t.now = max s.now at_ ∧
      Completes ctx tag op status 0 s t ∧ OnlyParts [.now, .regs, .fifos, .outbox] s t ∧ OnlyRegs noteRegs s t
    let busy := s.host.cmds.any (fun p => p.opcode == 6 && p.ctx == ctx) || s.host.saving.isSome
    (∀ tick, let edge : Instr := .preemptAtEdge at_ ctx tag tick;
      (s.cmdAllowed ctx [.running] = false → refused edge 6 3) ∧
      (s.cmdAllowed ctx [.running] = true → busy = true → refused edge 6 4) ∧
      (s.cmdAllowed ctx [.running] = true → busy = false → tick < s.tickCount → refused edge 6 5) ∧
      (s.cmdAllowed ctx [.running] = true → busy = false → tick = s.tickCount → s1.inCommitWindow = true → refused edge 6 5) ∧
      (s.cmdAllowed ctx [.running] = true → busy = false → (s.tickCount < tick ∨ tick = s.tickCount ∧ s1.inCommitWindow = false) →
        s.job.preemptAt = none → ∃ t, exec edge s = .next t ∧ t.job.preemptAt = some (tick, 1) ∧
        t.host.cmds = s.host.cmds ++ [⟨6, ctx, tag, tick⟩] ∧ t.now = s1.now ∧ OnlyParts [.now, .job, .host] s t)) ∧
    (s.cmdAllowed ctx [.running] = false → refused (.preemptNow at_ ctx tag) 6 3) ∧
    (s.cmdAllowed ctx [.running] = true → s.host.saving.isSome = true → refused (.preemptNow at_ ctx tag) 6 4) ∧
    (s.cmdAllowed ctx [.running] = true → s.host.saving = none → 1 < s.fget HULL_ORCH_SIZE → refused (.preemptNow at_ ctx tag) 6 6) ∧
    (s.cmdAllowed ctx [.running] = true → s.host.saving = none → s.fget HULL_ORCH_SIZE ≤ 1 → s1.inCommitWindow = false →
      s.job.ctx = some ctx → s.power.reload = none → ∃ t, exec (.preemptNow at_ ctx tag) s = .next t ∧ t.now = s1.now + 1024 ∧
        t.run = {} ∧ t.host.held = [] ∧ t.job.token = none ∧ t.ccr = s.ccr ∧ t.mem = s.mem ∧
        (∀ v, t.host.saving = some v → v.ctx = ctx ∧ v.mode = 1 ∧ v.declined = s.run.stepRuns ∧ v.tick = s.tickCount ∧
          v.doneAt = s1.now + 1024 + 131072) ∧ t.host.saving.isSome = true) ∧
    (s.cmdAllowed ctx [.running] = true → s.host.saving = none → s.fget HULL_ORCH_SIZE ≤ 1 → s1.inCommitWindow = true →
      s.job.preemptAt = none → ∃ t, exec (.preemptNow at_ ctx tag) s = .next t ∧ t.job.preemptAt = some (s.tickCount, 1) ∧
        t.host.cmds = s.host.cmds ++ [⟨6, ctx, tag, s.tickCount⟩] ∧ OnlyParts [.now, .job, .host] s t) ∧
    (∀ v, s.host.saving = some v → v.ctx < 4 → s.power.reload = none → Settled s v.doneAt → ∃ t, exec .preempted s = .next t ∧
      t.now = max s.now v.doneAt ∧ (t.ctx v.ctx).state = .preempted ∧ t.job = {} ∧ t.slow = [] ∧ t.host.saving = none ∧
      ((t.ctx v.ctx).saved.map (fun x => (x.ccr, x.job, x.tickCount, x.plan))) = some (s.ccr, s.job, v.tick, v.plan) ∧
      t.fget (HULL_CTX_TICK.ix v.ctx) = v.tick % 2 ^ HULL_CTX_TICK.wd ∧ t.mem = s.mem ∧ t.ccr = s.ccr) ∧
    (let resuming := s.host.cmds.any (fun p => p.opcode == 7 && p.ctx == ctx);
      (s.cmdAllowed ctx [.preempted] = false ∨ resuming = true → refused (.resume at_ ctx tag) 7 3) ∧
      (s.cmdAllowed ctx [.preempted] = true → resuming = false → s.jobBusy = true → refused (.resume at_ ctx tag) 7 4) ∧
      (s.cmdAllowed ctx [.preempted] = true → resuming = false → s.jobBusy = false → s.powerDetail = 0 →
        ∃ t, exec (.resume at_ ctx tag) s = .next t ∧ t.host.cmds = s.host.cmds ++ [⟨7, ctx, tag, s1.now + 131072⟩] ∧
          OnlyParts [.now, .host] s t)) ∧
    (∀ p f v (join : JobJoin), s.host.cmds.find? (fun p => p.opcode == 7) = some p → p.ctx < 4 → (s.ctx p.ctx).image = some f →
      (s.ctx p.ctx).saved = some v → Settled s (max (max s.now p.arg) join.edge) →
      (s.jobRefusal f = 0 → ∃ t, exec (.resumed join) s = .next t ∧ t.now = max (max s.now p.arg) join.edge ∧
        t.job.ctx = some p.ctx ∧ (t.ctx p.ctx).state = .running ∧ (t.ctx p.ctx).saved = none ∧ t.ccr = v.ccr ∧
        t.mirror0 = v.ccr ∧ t.job.seed = v.job.seed ∧ t.fget TICK_COUNT_COUNT = (v.tickCount + 1) % 2 ^ TICK_COUNT_COUNT.wd ∧
        t.run.active = true ∧ t.mem = s.mem) ∧
      (s.jobRefusal f ≠ 0 → ∃ t, exec (.resumed join) s = .next t ∧ t.fget HULL_ORCH_REFUSE = s.jobRefusal f ∧
        t.job = s.job ∧ t.ctxs = s.ctxs ∧ Completes p.ctx p.tag 7 13 (s.jobRefusal f) s t))

/-- INGEST, INGEST_DONE, EXPORT, EXPORT_START and EXPORT_DONE (R198 to R201, R289, R293, R426 to R429): a micro-batch is judged
on receipt, a refused one named and counted with no data moved, an accepted one fetched to its slot's staging address; its
data stand there when its transfer ends; an export that finds another standing is refused; an accepted one takes the context's
committed record as it starts, and completes when its stream stands in its buffers, or ends in a fault where elastic traffic may
not write them (R42; a reading, assumption log 146). -/
def Obligations.IngestAndExportMoveTheirData : Prop :=
  ∀ (s : State) (at_ ctx tag : Nat), Awake s → ctx < 4 → Settled s at_ →
    (∀ step source tokens bytes slot f, slot < 1024 → (s.ctx ctx).image = some f →
      s.cmdAllowed ctx [.loaded, .running, .preempted] = true →
      let code := (s.advance at_).ingestCode f ctx step slot tokens bytes
      (code ≠ 0 → ∃ t, exec (.ingest at_ ctx tag step source tokens bytes slot) s = .next t ∧ Counts HULL_INGEST_CNT_REFUSED 1 s t ∧
        t.fbit HULL_INGEST_STS_REFUSED = true ∧
        (s.fbit HULL_INGEST_FIRST_VALID = false → t.fget HULL_INGEST_FIRST_REASON = code ∧ t.fget HULL_INGEST_FIRST_SLOT = slot) ∧
        Posts 2 ctx [slot * 2 ^ 48 + code * 2 ^ 58 + tokens % 2 ^ 32 * 2 ^ 64 + tag % 2 ^ 32 * 2 ^ 96, step % 2 ^ 64 * 2 ^ 16] s t ∧
        t.ctxRefused ctx = s.ctxRefused ctx ++ (if code ∈ [1, 5, 6] then [(step, slot, code)] else []) ∧
        t.ctxVerdicts ctx = s.ctxVerdicts ctx ∧ OnlyParts [.now, .regs, .job, .ctxs, .fifos, .outbox] s t) ∧
      ((∃ r ∈ s.ctxRefused ctx, r.1 = step ∧ r.2.1 = slot ∧ r.2.2 ≠ 0) → (∀ r ∈ s.ctxRefused ctx, r.2.2 ≠ 0) → code ≠ 0) ∧
      (code = 0 → ∃ t, exec (.ingest at_ ctx tag step source tokens bytes slot) s = .next t ∧ Counts HULL_INGEST_CNT_ACCEPTED 1 s t ∧
        t.mem = s.mem ∧ (t.ctxVerdicts ctx).map (fun v => (v.1, v.2.1, v.2.2.1)) =
          (s.ctxVerdicts ctx).map (fun v => (v.1, v.2.1, v.2.2.1)) ++ [(step, slot, tokens)] ∧
        (bytes ≠ 0 → s.inHdm source bytes = false →
          ∀ e, s.slotOf f ctx step slot = some e → t.host.descs = s.host.descs ++
            [{ eng := slot % 8, q := 0, ctx := ctx, kind := .ingest step slot, src := source, dst := slotStaging e,
               length := bytes, fenced := true, dfence := slotDfence e, tag := tag }]))) ∧
    (∀ step source tokens bytes slot, ((s.ctx ctx).image = none ∨ s.cmdAllowed ctx [.loaded, .running, .preempted] = false) →
      ∃ t, exec (.ingest at_ ctx tag step source tokens bytes slot) s = .next t ∧ Completes ctx tag 4 3 0 s t ∧
        OnlyParts [.now, .regs, .fifos, .outbox] s t) ∧
    (∀ step slot d, s.host.descs.find? (fun d => d.ctx == ctx && d.kind == .ingest step slot) = some d →
      (∃ t, exec (.ingestDone at_ ctx step slot true) s = .next t ∧ d ∉ t.host.descs ∧ Completes d.ctx d.tag 4 0 0 s t ∧
        (d.offset ≤ d.length → OnlyBytes (d.dst + d.offset) (d.length - d.offset) s t ∧
          ∀ i, i < d.length - d.offset → t.rd8 (d.dst + d.offset + i) = s.rd8 (d.src + d.offset + i))) ∧
      (∃ t, exec (.ingestDone at_ ctx step slot false) s = .next t ∧ d ∉ t.host.descs ∧ Completes d.ctx d.tag 4 8 0 s t ∧
        t.mem = s.mem ∧ ∀ v ∈ t.ctxVerdicts d.ctx, (v.1, v.2.1) ≠ (step, slot))) ∧
    (∀ kind (bufs : List (Nat × Nat)), (1 < kind ∨ bufs = [] ∨ 48 < bufs.length) → ∃ t, exec (.exportCmd at_ ctx tag kind bufs) s = .next t ∧
      Completes ctx tag 5 1 0 s t ∧ OnlyParts [.now, .regs, .fifos, .outbox] s t) ∧
    (∀ kind (bufs : List (Nat × Nat)) f, kind < 2 → bufs ≠ [] → bufs.length ≤ 48 → (s.ctx ctx).image = some f →
      s.cmdAllowed ctx [.loaded, .running, .preempted] = true →
      let room := (bufs.map (fun b => b.2)).foldl (· + ·) 0
      let total := s.expTotal f (s.ctxCcr ctx) (s.ctxLag ctx) kind
      (s.host.exp.isSome = true → ∃ t, exec (.exportCmd at_ ctx tag kind bufs) s = .next t ∧
        t.fbit HULL_EXPORT_STS_BUSY = true ∧ OnlyParts [.now, .regs, .fifos, .outbox] s t) ∧
      (s.host.exp = none → room < total → ∃ t, exec (.exportCmd at_ ctx tag kind bufs) s = .next t ∧
        Completes ctx tag 5 11 0 s t ∧ OnlyParts [.now, .regs, .fifos, .outbox] s t) ∧
      (s.host.exp = none → total ≤ room → ∃ t, exec (.exportCmd at_ ctx tag kind bufs) s = .next t ∧
        t.fbit HULL_EXPORT_ACTIVE = true ∧ t.fget HULL_EXPORT_KIND = kind ∧
        t.fbit HULL_EXPORT_STARTED = decide (s.job.ctx ≠ some ctx ∨ s.ccr.hold = true) ∧
        t.host.exp = some (if s.job.ctx ≠ some ctx ∨ s.ccr.hold = true then
            { ctx := ctx, kind := kind, tag := tag, bufs := bufs, started := true, tick := s.tickCount, ccr := s.ctxCcr ctx }
          else { ctx := ctx, kind := kind, tag := tag, bufs := bufs }) ∧
        OnlyParts [.now, .regs, .host] s t)) ∧
    (∀ e f, s.host.exp = some e → (s.ctx e.ctx).image = some f →
      (e.started = false → (s.advance at_).exportMay e.ctx = true → ∃ t, exec (.exportStart at_) s = .next t ∧
        t.host.exp = some { e with started := true, tick := s.tickCount, ccr := s.ctxCcr e.ctx } ∧
        t.fbit HULL_EXPORT_STARTED = true ∧ OnlyParts [.now, .regs, .host] s t) ∧
      (e.started = true → s.bufsMay 0 (s.exportBytes e f).length e.bufs = false → ∃ t, exec (.exportDone at_) s = .next t ∧
        t.host.exp = none ∧ t.fbit HULL_EXPORT_ACTIVE = false ∧ Completes e.ctx e.tag 5 8 0 s t ∧ t.mem = s.mem) ∧
      (e.started = true → s.bufsMay 0 (s.exportBytes e f).length e.bufs = true →
        ∃ t, exec (.exportDone at_) s = .next t ∧ t.host.exp = none ∧ t.fbit HULL_EXPORT_ACTIVE = false ∧
        t.fbit HULL_EXPORT_STS_DONE = true ∧
        (∀ b, e.bufs = [b] → (s.exportBytes e f).length ≤ b.2 →
          OnlyBytes b.1 (s.exportBytes e f).length s t ∧
          ∀ i, i < (s.exportBytes e f).length → some (t.rd8 (b.1 + i)) = (s.exportBytes e f)[i]?) ∧
        OnlyParts [.now, .regs, .mem, .fifos, .host, .outbox] s t))

/-! ### Translation, transfers and the slow tier -/

/-- PIN, UNPIN, ATS_INVALIDATION, PRI_RESPONSE and TRANSLATION_COMPLETION (R441 to R445, R434): a pin outside the host window is
malformed, one whose pages all hold translations completes at once, and its entries name the context; an unpin releases the
ranges inside the one named; an invalidation of an entry pinned for the running context is held and arranges a
pre-emption, any other drops the entries and is answered; a response ends its group, a late one only counts, and a failed
one ends the parked transfer in fault; a granted translation enters the cache and the parked transfer goes on. -/
def Obligations.TranslationsArePinnedAndAnswered : Prop :=
  ∀ (s : State) (at_ ctx tag addr len : Nat), Awake s → ctx < 4 → Settled s at_ →
    let a := addr % 2 ^ 56
    let may := s.cmdAllowed ctx [.loaded, .running, .preempted]
    let refused := fun (c : Instr) (op status : Nat) => ∃ t, exec c s = .next t ∧ Completes ctx tag op status 0 s t ∧
      OnlyParts [.now, .regs, .fifos, .outbox] s t ∧ OnlyRegs noteRegs s t
    (may = false → refused (.pin at_ ctx tag addr len) 9 3) ∧
    (may = true → inHost addr = false → refused (.pin at_ ctx tag addr len) 9 1) ∧
    (may = true → inHost addr = true → (∀ p ∈ s.host.pins, p.done = true) → s.host.atc.length ≤ 2048 →
      ∃ t, exec (.pin at_ ctx tag addr len) s = .next t ∧
        t.host.pins = s.host.pins ++ [⟨ctx, tag, a, len, s.covered a len⟩] ∧
        .msg "ATS_TRANSLATION_REQUEST" [1, a, len] ∈ t.outbox ∧
        (∀ e ∈ t.host.atc, e.fn = 1 → meet a len e.addr e.size = true → ctx ∈ e.pins) ∧
        (s.covered a len = true → Completes ctx tag 9 0 0 s t) ∧ (s.covered a len = false → t.fifos = s.fifos) ∧
        OnlyParts [.now, .regs, .fifos, .host, .outbox] s t) ∧
    (let inside := fun (p : PinReq) => p.ctx == ctx && decide (a ≤ p.addr) && decide (p.addr + p.len ≤ a + len);
      (may = false → refused (.unpin at_ ctx tag addr len) 10 3) ∧
      (may = true → ∃ t, exec (.unpin at_ ctx tag addr len) s = .next t ∧
        t.host.pins = s.host.pins.filter (fun p => !inside p) ∧
        ((∀ p ∈ s.host.pins, p.done = true) → Completes ctx tag 10 0 0 s t) ∧
        OnlyParts [.now, .regs, .fifos, .host, .outbox] s t)) ∧
    (∀ fn, let hit := s.host.atc.filter (fun e => e.fn == fn && meet e.addr e.size addr len);
      let held := s.run.active && hit.any (fun e => s.job.ctx.any (fun c => e.pins.contains c))
      (held = true → s.job.preemptAt = none → ∃ t, exec (.atsInvalidation at_ fn addr len tag) s = .next t ∧
        t.host.held = s.host.held ++ [(fn, addr, len, tag)] ∧ t.host.atc = s.host.atc ∧ t.fbit MMU_STS_INVAL_HELD = true ∧
        t.job.preemptAt = some (s.tickCount, 2) ∧ OnlyParts [.now, .regs, .job, .rings, .host, .outbox] s t) ∧
      (held = false → ∃ t, exec (.atsInvalidation at_ fn addr len tag) s = .next t ∧ t.host.held = s.host.held ∧
        t.host.atc = s.host.atc.filter (fun e => !(e.fn == fn && meet e.addr e.size addr len)) ∧
        .msg "ATS_INVALIDATION_COMPLETE" [fn, addr, len, tag] ∈ t.outbox ∧
        (∀ r ∈ [1, 2], (ringVector r).1 = fn → s.ringUses fn addr len = true →
          meet addr len (s.fget (EVQ_RING_BASE.ix r) % 2 ^ 56) (16 * s.ringSize r) = true → (t.ring r).lost = true) ∧
        OnlyParts [.now, .regs, .rings, .host, .outbox] s t)) ∧
    (∀ grp ok, (s.host.priGone.contains grp = true → ∃ t, exec (.priResponse at_ grp ok) s = .next t ∧
        Counts DMA_CNT_LATE_RESPONSES 1 s t ∧ t.fbit DMA_STS_LATE_RESPONSE = true ∧ t.host.priGone = s.host.priGone.erase grp ∧
        t.host.pri = s.host.pri ∧ t.host.descs = s.host.descs ∧ OnlyParts [.now, .regs, .host, .outbox] s t) ∧
      (s.host.priGone.contains grp = false → ∀ eng q, s.host.pri.find? (fun p => p.1 == grp) = some (grp, eng, q) →
        (ok = true → ∃ t, exec (.priResponse at_ grp ok) s = .next t ∧ t.host.pri = s.host.pri.filter (fun p => p.1 != grp) ∧
          t.outbox = s.outbox ++ [.msg "ATS_TRANSLATION_REQUEST" [eng, q]] ∧ OnlyParts [.now, .host, .outbox] s t) ∧
        (ok = false → ∀ d, s.host.descs.find? (fun d => d.eng == eng && d.q == q && d.status == 2 && d.prg == grp) = some d →
          eng < 16 → q < 4 → ∃ t, exec (.priResponse at_ grp ok) s = .next t ∧ d ∉ t.host.descs ∧ Counts DMA_CNT_FAULTS 1 s t ∧
            t.fbit DMA_STS_FAULT = true ∧ t.fbit (dmaPark DMA_PARK_PARKED eng q) = false ∧ t.mem = s.mem))) ∧
    (∀ fn eng q size, eng < 16 → q < 4 →
      (∃ t, exec (.translationCompletion at_ fn eng q addr size true) s = .next t ∧
        (∃ e ∈ t.host.atc, e.fn = fn ∧ e.size = atcSize size ∧ e.addr = a / atcSize size * atcSize size) ∧
        (∀ d, s.host.descs.find? (fun d => d.eng == eng && d.q == q && d.status == 2) = some d →
          (∀ g ∈ s.host.pri, g.2 ≠ (eng, q)) → { d with status := 0 } ∈ t.host.descs ∧
            t.fbit (dmaPark DMA_PARK_PARKED eng q) = false) ∧
        OnlyParts [.now, .regs, .fifos, .host, .outbox] s t) ∧
      (s.host.pri.length < 512 → ∃ t, exec (.translationCompletion at_ fn eng q addr size false) s = .next t ∧
        t.host.pri.length = s.host.pri.length + 1 ∧ t.host.atc = s.host.atc ∧
        .msg "PRI_PAGE_REQUEST" [s.freeGroup, a / 4096] ∈ t.outbox ∧ OnlyParts [.now, .regs, .host, .outbox] s t))

/-- DMA_CHUNK, PREFETCH, WRITE_BACK, EXPANDER_LOST, LENDER_LOST, HDM_ACCESS and SNOOP (R355, R357, R361, R364, R417 to R419,
R439, R448 to R451): a piece moves its bytes and no other, a translation fault or an error ends its transfer in fault, and a
host page that faults parks it; a poisoned granule ends it in fault (R343), and so does an export into a place that elastic
traffic may not write (R42; that it is a fault is the model's choice, assumption log 146); a prefetch and a write-back of a slow
tensor are queued once; a lost device is class C in a job; the window reads the memory that its piece maps, but for a poisoned
granule, and writes it where elastic traffic may; a snoop finds no line. -/
def Obligations.TransfersMoveTheirBytes : Prop :=
  ∀ (s : State) (at_ : Nat), Awake s → Settled s at_ →
    (∀ eng d, s.power.reload = none → dmaNext s eng = some d →
      let n := pieceLen d
      let ended := fun (t : State) => d ∉ t.host.descs ∧ Counts DMA_CNT_FAULTS 1 s t ∧ t.fbit DMA_STS_FAULT = true ∧ t.mem = s.mem
      (∃ t, exec (.dmaChunk at_ eng .error) s = .next t ∧ ended t) ∧
      ((inHost d.src || inHost d.dst) = true → s.host.pri.length < 512 → d.eng < 16 → d.q < 4 → d.offset < 2 ^ DMA_PARK_OFFSET.wd →
        ∃ t, exec (.dmaChunk at_ eng .pageFault) s = .next t ∧ ({ d with
          status := 2, prg := s.freeGroup } : Desc) ∈ t.host.descs ∧
        t.fbit (dmaPark DMA_PARK_PARKED d.eng d.q) = true ∧ t.fget (dmaPark DMA_PARK_OFFSET d.eng d.q) = d.offset ∧
        Counts DMA_CNT_PARKS 1 s t ∧ t.fbit DMA_STS_PARKED = true ∧ OnlyParts [.now, .regs, .host, .outbox] s t) ∧
      ((s.unitLost d.src || s.unitLost d.dst) = true → ∃ t, exec (.dmaChunk at_ eng .ok) s = .next t ∧ ended t) ∧
      ((s.unitLost d.src || s.unitLost d.dst) = false → ∀ x, s.pieceFault d n = some x →
        ∃ t, exec (.dmaChunk at_ eng .ok) s = .next t ∧ ended t ∧ t.fbit MMU_STS_XLATE_FAULT = true ∧
        (s.fbit MMU_FAULT_FIRST_VALID = false → Shows MMU_FAULT_FIRST_ADDR x.1 t ∧ Shows MMU_FAULT_FIRST_CAUSE x.2 t)) ∧
      ((s.unitLost d.src || s.unitLost d.dst) = false → s.pieceFault d n = none →
        ((s.pieceReads d n).any (fun r => s.poisonIn r.1 r.2) || s.pieceBarred d n) = true →
        ∃ t, exec (.dmaChunk at_ eng .ok) s = .next t ∧ ended t) ∧
      ((s.unitLost d.src || s.unitLost d.dst) = false → s.pieceFault d n = none → movesMem d.kind = true →
        (s.pieceReads d n).any (fun r => s.poisonIn r.1 r.2) = false → s.pieceBarred d n = false →
        ∃ t, exec (.dmaChunk at_ eng .ok) s = .next t ∧ OnlyBytes (d.dst + d.offset) n s t ∧
        (∀ i, i < n → t.rd8 (d.dst + d.offset + i) = s.rd8 (s.descSrc d + d.offset + i)) ∧
        (d.offset + n < d.length → { d with offset := d.offset + n } ∈ t.host.descs ∧ OnlyParts [.now, .mem, .hub, .host] s t) ∧
        (d.length ≤ d.offset + n → d ∉ t.host.descs ∧
          (∀ step slot, d.kind = .ingest step slot → Completes d.ctx d.tag 4 0 0 s t) ∧
          (∀ id, d.kind = .prefetch id → (∀ r ∈ s.slow, r.prefetching = true → r.tensor = id) →
            ∀ r ∈ t.slow, r.tensor = id → r.resident = true ∧ r.prefetching = false) ∧
          (∀ id, d.kind = .writeBack id → ∀ r ∈ t.slow, r.tensor = id → r.writing = false ∧ r.dirty = false)))) ∧
    (∀ eng res, s.power.reload = none → dmaNext s eng = none → ∃ t, exec (.dmaChunk at_ eng res) s = .next t ∧ OnlyParts [.now] s t) ∧
    (∀ f p e r, InTick f p s → s.power.reload = none → slowEnt f e.tensor = some e → s.resid e.tensor = some r →
      (r.resident = false → r.prefetching = false → s.pairHolder f e = none → ∃ t, exec (.prefetch at_ e.tensor) s = .next t ∧
        t.now = max s.now at_ ∧ (t.resid e.tensor) = some { r with prefetching := true } ∧
        t.host.descs = s.host.descs ++ [{
          eng := (slowQueue e false).1, q := (slowQueue e false).2, ctx := s.job.ctx.getD 0,
          kind := .prefetch e.tensor, src := e.home, dst := s.readBase e, length := bankBytes e, fenced := true }] ∧
        OnlyParts [.now, .slow, .host] s t) ∧
      (r.resident = true → ∃ t, exec (.prefetch at_ e.tensor) s = .next t ∧ OnlyParts [.now] s t) ∧
      (r.resident = true → r.dirty = true → r.writing = false → ∃ t, exec (.writeBack at_ e.tensor) s = .next t ∧
        (t.resid e.tensor) = some { r with writing := true } ∧
        t.host.descs = s.host.descs ++ [{
          eng := (slowQueue e true).1, q := (slowQueue e true).2, ctx := s.job.ctx.getD 0,
          kind := .writeBack e.tensor, src := s.commitBase s.ccr s.job.lag e, dst := e.home, length := bankBytes e }] ∧
        OnlyParts [.now, .slow, .host] s t)) ∧
    (∀ x gone, x < 4 →
      ∃ t, exec (.expanderLost at_ x gone) s = .next t ∧ t.now = max s.now at_ ∧ t.fbit (HULL_SLOW_EXP_UP.ix x) = false ∧
        (gone = true → t.fbit (HULL_SLOW_EXP_PRESENT.ix x) = false) ∧
        (s.job.ctx = none → OnlyParts [.now, .regs] s t ∧ OnlyRegs [(HULL_SLOW_EXP.ix x).base] s t) ∧
        (s.job.ctx ≠ none → t.fbit HULL_SLOW_STS_EXPANDER_LOST = true ∧ RaisesC s t) ∧ t.mem = s.mem) ∧
    (∀ l, l < 16 →
      (s.job.ctx ≠ none → getBits (s.fget HULL_SLOW_LEND_BORROWING) l 1 = 1 → ∃ t, exec (.lenderLost at_ l) s = .next t ∧
        t.fbit HULL_SLOW_STS_LENDER_LOST = true ∧ RaisesC s t ∧ l ∈ t.host.lendersLost ∧ t.mem = s.mem) ∧
      (s.job.ctx = none ∨ getBits (s.fget HULL_SLOW_LEND_BORROWING) l 1 ≠ 1 →
        ∃ t, exec (.lenderLost at_ l) s = .next t ∧ OnlyParts [.now] s t)) ∧
    (∀ off len (bytes : List Byte), let i := off / 0x400000000;
      let a := s.hdmBase i + off % 0x400000000
      (4 ≤ s.fget HOST_LINK_MODE → i < 4 → s.power.hdmAbsent = false → s.fbit (HOST_HDM_EN.ix i) = true → s.hdmBaseOk i = true → s.bench.extest = false →
        (s.elasticMay a bytes.length = true →
          ∃ t, exec (.hdmAccess at_ off len (some bytes)) s = .next t ∧ OnlyBytes a bytes.length s t ∧
            (∀ k, k < bytes.length → some (t.rd8 (a + k)) = bytes[k]?) ∧ OnlyParts [.now, .mem, .hub] s t) ∧
        (s.elasticMay a bytes.length = false →
          ∃ t, exec (.hdmAccess at_ off len (some bytes)) s = .next t ∧ OnlyParts [.now] s t) ∧
        (∃ t, exec (.hdmAccess at_ off len none) s = .next t ∧
          t.outbox = s.outbox ++ [if s.poisonIn a len then .msg "HDM_ERROR" [off, len]
            else .msg "HDM_READ" ((range' 0 len).map (fun k => (s.rd8 (a + k)).toNat))] ∧
          OnlyParts [.now, .outbox] s t)) ∧
      ((s.fget HOST_LINK_MODE < 4 ∨ 4 ≤ i ∨ s.power.hdmAbsent = true ∨ s.fbit (HOST_HDM_EN.ix i) = false ∨ s.hdmBaseOk i = false) →
        ∃ t, exec (.hdmAccess at_ off len (some bytes)) s = .next t ∧ OnlyParts [.now] s t)) ∧
    (∀ addr, (4 ≤ s.fget HOST_LINK_MODE → s.bench.extest = false → ∃ t, exec (.snoop at_ addr) s = .next t ∧
        t.outbox = s.outbox ++ [.msg "SNOOP_INVALID" [addr]] ∧ OnlyParts [.now, .outbox] s t) ∧
      (s.fget HOST_LINK_MODE < 4 → exec (.snoop at_ addr) s = .next s))

/-! ### Queues and management -/

/-- COMMAND_WORD, COMMAND_PACKET, DROPPED, FIFO_PACKET_WRITE, FIFO_PACKET_TAKE, IDLE_TIMEOUT, PTR_MISMATCH, RING_WRITE,
RING_INTERRUPT_TIMER, MAILBOX_GO, MAILBOX_DONE and MCTP_MESSAGE (R424, R426, R454 to R463, R617): the port takes whole words
while two entries are free and drops and counts them else; a packet is the command that it spells, a malformed or unknown one
completes with status 1 or 2; producers write whole packets or drop them; a ring's entries lie from its tail on, and its tail
moves past them. -/
def Obligations.QueuesMoveWholePackets : Prop :=
  ∀ (s : State) (at_ : Nat) (join : JobJoin), Awake s → Settled s at_ →
    (∀ off size w, s.bench.extest = false → 0x100000 ≤ off → off < 0x110000 →
      let q := s.fifo 0
      (size = 64 → off % 64 = 0 → q.items.length + 2 ≤ 1024 → ∃ t, exec (.commandWord at_ off size w) s = .next t ∧
        (t.fifo 0).items = q.items ++ (if q.dropped = 0 then [] else [cmdGap q.dropped]) ++ [w] ∧ (t.fifo 0).dropped = 0 ∧
        (∀ f, f ≠ 0 → t.fifo f = s.fifo f) ∧ (s.inRun = true → OnlyParts [.now, .fifos] s t) ∧
        (s.inRun = false → t.power.trans.isSome = true ∧ OnlyParts [.now, .regs, .fifos, .power, .outbox] s t)) ∧
      (size = 64 → off % 64 = 0 → 1024 < q.items.length + 2 → ∃ t, exec (.commandWord at_ off size w) s = .next t ∧
        (t.fifo 0).items = q.items ∧ (t.fifo 0).dropped = q.dropped + 1 ∧ Counts (EVQ_LEVEL_DROPPED.ix 0) 1 s t ∧
        t.fbit (fifoBit EVQ_STS_DROP 0) = true ∧ OnlyParts [.now, .regs, .fifos, .outbox] s t) ∧
      (size ≠ 64 ∨ off % 64 ≠ 0 → ∃ t, exec (.commandWord at_ off size w) s = .next t ∧ Counts EVQ_CMD_CREDIT_PORT_ERRORS 1 s t ∧
        t.fbit EVQ_STS_PORT_ERROR = true ∧ OnlyParts [.now, .regs, .outbox] s t)) ∧
    (∀ ws rest, splitPacket cmdEnd (s.fifo 0).items = some (ws, rest) → s.inRun = true → s.power.reload = none →
      let u := afterPacket s at_ 0 rest
      let w := ws.headD 0
      (isCmdGap (ws.getLastD 0) = false → packetOk ws = true → ∀ c, packetCommand at_ ws join = some c →
        (∃ t, exec (.commandPacket at_ join) s = .next t) ∧ exec (.commandPacket at_ join) s = exec c u ∧
        exec (.fifoPacketTake at_ 0 1 join) s = exec c u) ∧
      (isCmdGap (ws.getLastD 0) = false → (packetOk ws = false ∨ bvBits w 0 8 = 0 ∨ 10 < bvBits w 0 8) →
        ∃ t, exec (.commandPacket at_ join) s = .next t ∧
          Completes (bvBits w 16 2) (cmdField w 4 4) (bvBits w 0 8) (if packetOk ws then 2 else 1) 0 u t ∧
          (t.fifo 0).items = rest ∧ OnlyParts [.now, .regs, .fifos, .outbox] s t) ∧
      (∀ g, ws = [g] → isCmdGap g = true → ∃ t, exec (.dropped at_) s = .next t ∧ Posts 9 0 [cmdField g 8 4 * 2 ^ 48] u t ∧
        (t.fifo 0).items = rest ∧ exec (.commandPacket at_ join) s = .next t ∧ OnlyParts [.now, .regs, .fifos, .outbox] s t)) ∧
    (∀ f typ ctx (payload : List Nat), 1 ≤ f → f ≤ 3 → payload ≠ [] → payload.length ≤ 8 → (f = 1 → typ % 256 = 10 → s.fbit EVQ_EVMASK_TICK = true) →
      let q := s.fifo f
      (q.items.length + payload.length + 1 ≤ fifoEntries f → ∃ t, exec (.fifoPacketWrite at_ f typ ctx payload) s = .next t ∧
        (t.fifo f).items.length = q.items.length + (if q.dropped = 0 then 0 else 1) + payload.length ∧
        (t.fifo f).items.take q.items.length = q.items ∧ ((t.fifo f).items.getLastD 0).getLsbD 8 = true ∧
        (t.fifo f).dropped = 0 ∧ (∀ g, g ≠ f → t.fifo g = s.fifo g) ∧ OnlyParts [.now, .fifos] s t) ∧
      (fifoEntries f < q.items.length + payload.length + 1 → ∃ t, exec (.fifoPacketWrite at_ f typ ctx payload) s = .next t ∧
        (t.fifo f).items = q.items ∧ (t.fifo f).dropped = q.dropped + 1 ∧ Counts (EVQ_LEVEL_DROPPED.ix f) 1 s t ∧
        t.fbit (fifoBit EVQ_STS_DROP f) = true ∧ OnlyParts [.now, .regs, .fifos, .outbox] s t)) ∧
    (∀ ws rest, splitPacket cmdEnd (s.fifo 3).items = some (ws, rest) → ∃ t, exec (.fifoPacketTake at_ 3 1 join) s = .next t ∧
      (t.fifo 3).items = rest ∧ t.outbox = s.outbox ++ [.msg "TELEMETRY" (ws.map (fun w => w.toNat))] ∧
      OnlyParts [.now, .fifos, .outbox] s t) ∧
    (∀ f c, f < 4 → (s.fifo f).waitingSince = some c → s.fget (EVQ_CFG_IDLE.ix f) ≠ 0 →
      Settled s (c + 2000 * s.fget (EVQ_CFG_IDLE.ix f)) → ∃ t, exec (.idleTimeout f) s = .next t ∧
      t.now = max s.now (c + 2000 * s.fget (EVQ_CFG_IDLE.ix f)) ∧ t.fbit (fifoBit EVQ_STS_IDLE f) = true ∧
      (f = 0 → RaisesC s t ∧ (t.attendOf 7).expiry.isSome = true) ∧ (f ≠ 0 → OnlyParts [.now, .regs, .fifos, .outbox] s t) ∧
      (f ≠ 1 → (t.fifo f).items = (s.fifo f).items)) ∧
    (∀ f, f < 4 → ∃ t, exec (.ptrMismatch at_ f) s = .next t ∧ t.fbit (fifoBit EVQ_STS_PTR_MISMATCH f) = true ∧
      (t.fifo f).items.head? = some (if f = 0 then cmdGap (s.fifo 0).packets else gapWord s.tickCount (s.fifo f).packets true) ∧
      (f < 2 → RaisesC s t ∧ (t.attendOf 7).expiry.isSome = true) ∧ t.mem = s.mem ∧ t.ccr = s.ccr) ∧
    (∀ f ws rest, f = 1 ∨ f = 2 → s.power.reload = none → s.ringOn f = true → splitPacket cmdEnd (s.fifo f).items = some (ws, rest) →
      let base := s.fget (EVQ_RING_BASE.ix f)
      let tail := s.fget (EVQ_TAIL_TAIL.ix f)
      let m := s.fget (EVQ_CFG_MODERATE.ix f)
      (ws.length ≤ s.ringRoom f → ∃ t, exec (.ringWrite at_ f) s = .next t ∧ (t.fifo f).items = rest ∧
        t.fget (EVQ_TAIL_TAIL.ix f) = (tail + ws.length) % 2 ^ 20 ∧
        (∀ i, i < ws.length → t.rdN (base + 16 * ((tail + i) % s.ringSize f)) 16 = (ws.getD i 0).toNat % 2 ^ 128) ∧
        OnlyBytes base (16 * s.ringSize f) s t ∧
        (m ≠ 0 ∧ m ≤ (s.ring f).sinceRaise + 1 → (t.ring f).sinceRaise = 0 ∧
          t.outbox = s.outbox ++ [.msix (ringVector f).1 (ringVector f).2]) ∧
        (m = 0 ∨ (s.ring f).sinceRaise + 1 < m → (t.ring f).sinceRaise = (s.ring f).sinceRaise + 1 ∧ t.outbox = s.outbox) ∧
        exec (.fifoPacketTake at_ f 1 join) s = .next t ∧ OnlyParts [.now, .regs, .mem, .fifos, .rings, .outbox] s t) ∧
      (s.ringRoom f < ws.length → ∃ t, exec (.ringWrite at_ f) s = .next t ∧ OnlyParts [.now] s t)) ∧
    (∀ f c, f = 1 ∨ f = 2 → (s.ring f).pendingEntry = some c → Settled s (c + 100000) → ∃ t, exec (.ringInterruptTimer f) s = .next t ∧
      t.now = max s.now (c + 100000) ∧ (t.ring f).sinceRaise = 0 ∧ (t.ring f).pendingEntry = none ∧
      t.outbox = s.outbox ++ [.msix (ringVector f).1 (ringVector f).2] ∧ OnlyParts [.now, .rings, .outbox] s t) ∧
    (s.fbit HULL_MBOX_BUSY = false → ∃ t, exec (.mailboxGo at_) s = .next t ∧ t.fbit HULL_MBOX_BUSY = true ∧
      OnlyParts [.now, .regs] s t ∧ OnlyRegs [HULL_MBOX_BUSY.base] s t) ∧
    (s.fbit HULL_MBOX_BUSY = true → (∃ t, exec (.mailboxGo at_) s = .next t ∧ t.fbit HULL_MBOX_COLLISION = true ∧
        t.fbit HULL_MBOX_BUSY = true ∧ OnlyParts [.now, .regs] s t) ∧
      (∀ msg, ∃ t, exec (.mailboxDone at_ msg) s = .next t ∧ t.fbit HULL_MBOX_BUSY = false ∧ t.fbit HULL_MBOX_DONE = true ∧
        1 ≤ t.fget HULL_MBOX_RSP_LEN ∧ t.fget HULL_MBOX_RSP_LEN ≤ 4096 ∧ OnlyParts [.now, .regs, .host, .outbox, .fresh] s t)) ∧
    (∀ tr addr msg, tr < 2 → addr ≠ s.sideAddr tr → exec (.mctpMessage at_ ⟨tr, addr⟩ msg) s = .next s) ∧
    (∀ tr addr v, tr < 3 → (tr = 2 ∨ addr = s.sideAddr tr) → s.bench.extest = false →
      (∃ t, exec (.mctpMessage at_ ⟨tr, addr⟩ .spdmVersion) s = .next t ∧ t.outbox = s.outbox ++ [.msg "MCTP_ANSWER" [tr, 1, 0x12, 0x13]] ∧
        OnlyParts [.now, .outbox] s t) ∧
      (∀ id, assocGet s.power.sensors id = some v → ∃ t, exec (.mctpMessage at_ ⟨tr, addr⟩ (.pldmSensor id)) s = .next t ∧
        t.outbox = s.outbox ++ [.msg "MCTP_ANSWER" [tr, 1, v]] ∧ OnlyParts [.now, .outbox] s t) ∧
      (∀ msg, ∃ t, exec (.mctpMessage at_ ⟨tr, addr⟩ msg) s = .next t ∧ OnlyParts [.now, .outbox, .fresh] s t ∧ t.outbox.length = s.outbox.length + 1))

/-! ### The hoard cartridge -/

/-- HARVEST, RELEASE, READ_RECORD, AUTHENTICATE, HARVEST_START, HARVEST_DONE, HARVEST_ABANDONED, CARTRIDGE_INSERT,
CARTRIDGE_REMOVED and ROUTINE_RECORD (R527, R545, R546, R548 to R556, R564): in RUN each operation ends with its RESULT and
raises PF2's vector, in a low-power state it wakes the module first, while BUSY it is ignored; a harvest marks its area
incomplete, and complete once its stream stands; an area without a complete header stays so when a harvest is abandoned; a
removal without a release is class C; a record stands on the cartridge, else in the flash, else is a class C failure. -/
def Obligations.HoardOperationsAndHarvests : Prop :=
  ∀ s : State, Awake s →
    let result := fun (op r : Nat) (t : State) => t.fget HRD_CMD_OP = op ∧ t.fget HRD_CMD_RESULT = r ∧
      t.fbit HRD_CMD_BUSY = false ∧ .msix 2 0 ∈ t.outbox
    let ops := [(1, Instr.harvest), (2, .release), (3, .readRecord true), (4, .authenticate)]
    (s.fbit HRD_CMD_BUSY = true → ∀ q ∈ ops, exec q.2 s = .next s) ∧
    (s.fbit HRD_CMD_BUSY = false → s.inRun = false → ∀ q ∈ ops, ∃ t, exec q.2 s = .next t ∧ t.fget HRD_CMD_OP = q.1 ∧
      t.fbit HRD_CMD_BUSY = true ∧ (s.power.trans = none → s.fget PWR_STATE_STATE ≠ 0 → (t.power.trans.map (fun x => x.1)) = some 0) ∧
      OnlyParts [.regs, .power, .outbox] s t) ∧
    (s.fbit HRD_CMD_BUSY = false → s.inRun = true →
      (∃ t, exec .harvest s = .next t ∧
        result 1 (if !s.cartUsable then 2 else if s.fbit HRD_STATE_WORN then 4 else 0) t ∧
        t.power.harvestAsked = (s.cartUsable && !s.fbit HRD_STATE_WORN || s.power.harvestAsked) ∧
        OnlyParts [.regs, .power, .outbox] s t ∧ OnlyRegs [HRD_CMD_OP.base] s t) ∧
      (∃ t, exec .release s = .next t ∧
        result 2 (if s.power.cart.isNone || s.fbit HRD_STATE_RELEASED then 2 else if s.fbit HRD_HARVEST_ACTIVE then 3 else 0) t ∧
        t.fbit HRD_STATE_RELEASED = (s.fbit HRD_STATE_RELEASED || s.power.cart.isSome && !s.fbit HRD_HARVEST_ACTIVE) ∧
        OnlyParts [.regs, .outbox] s t ∧ OnlyRegs [HRD_CMD_OP.base, HRD_STATE_RELEASED.base, HRD_STS_RELEASED.base] s t) ∧
      (s.newestRec = none → ∃ t, exec (.readRecord true) s = .next t ∧ result 3 6 t ∧ t.mem = s.mem) ∧
      (∀ r m, s.newestRec = some (r, m) →
        (∃ t, exec (.readRecord false) s = .next t ∧ result 3 5 t ∧ OnlyParts [.regs, .outbox] s t) ∧
        (∃ t, exec (.readRecord true) s = .next t ∧ result 3 0 t ∧
          (∀ i, i < 40 → some (t.rd8 (s.fget HRD_ADDR_ADDR + i)) = (critHeader r)[i]?) ∧
          OnlyBytes (s.fget HRD_ADDR_ADDR) 1048576 s t ∧ OnlyParts [.regs, .mem, .outbox, .fresh] s t)) ∧
      (s.power.cart = none ∨ s.fbit HRD_STATE_RELEASED = true → ∃ t, exec .authenticate s = .next t ∧ result 4 2 t ∧
        OnlyParts [.regs, .outbox] s t) ∧
      (∀ c, s.power.cart = some c → s.fbit HRD_STATE_RELEASED = false → ∃ t, exec .authenticate s = .next t ∧
        result 4 (if c.genuine then 0 else 7) t ∧ t.fbit HRD_STATE_AUTHENTICATED = c.genuine ∧
        (c.genuine = false → Counts HRD_CNT_AUTH_FAILS 1 s t ∧ t.fbit HRD_STS_AUTH_FAIL = true ∧ RaisesC s t))) ∧
    (∀ f p c, InTick f p s → s.now = s.edgeAt → s.fget TICK_PLAN_CUR_KIND ≠ 0 → s.fbit HRD_STATE_HARVEST_DUE = true →
      s.fbit HRD_HARVEST_ACTIVE = false → s.cartUsable = true → s.fbit HRD_STATE_WORN = false → s.power.cart = some c →
      let area := cartHarvestArea c
      ∃ t, exec .harvestStart s = .next t ∧ t.fbit HRD_HARVEST_ACTIVE = true ∧ t.fget HRD_HARVEST_AREA = area ∧
        t.fbit HRD_STATE_HARVEST_DUE = false ∧ t.power.harvestCcr = s.ccr ∧ t.power.harvestTick = s.tickCount ∧
        (t.power.cart.map (fun d => ((cartGen d area).state, (cartGen d area).t, (cartGen d area).genSeq))) =
          some (0, s.ccr.t, (cartGen c (1 - area)).genSeq + 1) ∧
        (t.power.cart.map (fun d => cartGen d (1 - area))) = some (cartGen c (1 - area)) ∧ t.mem = s.mem ∧
        OnlyParts [.regs, .host, .power] s t) ∧
    (∀ at_ b1 b2 f p c, InTick f p s → Settled s at_ → s.fbit HRD_HARVEST_ACTIVE = true → s.power.cart = some c →
      let area := s.fget HRD_HARVEST_AREA
      let data := s.expStream f s.power.harvestCcr s.job.lag 0 s.power.harvestTick s.job.seed
      ∃ t, exec (.harvestDone at_ b1 b2) s = .next t ∧ t.now = max s.now at_ ∧ t.fbit HRD_HARVEST_ACTIVE = false ∧
        t.fbit HRD_STS_HARVEST_DONE = true ∧ Counts HRD_CNT_HARVESTS 1 s t ∧
        (t.power.cart.map (fun d => (cartGen d area).state)) = some 1 ∧
        (t.power.cart.map (fun d => d.bytes)) = some (cartWrite c.bytes (areaBase area + 4096) data) ∧ t.mem = s.mem) ∧
    (s.fbit HRD_HARVEST_ACTIVE = true → ∃ t, exec .harvestAbandoned s = .next t ∧ t.fbit HRD_HARVEST_ACTIVE = false ∧
      t.fbit HRD_STATE_HARVEST_DUE = true ∧ t.fbit HRD_STS_HARVEST_ABANDONED = true ∧ Counts HRD_CNT_ABANDONED 1 s t ∧
      t.power.cart = s.power.cart ∧ (∀ d ∈ t.host.descs, d.kind ≠ .harvest) ∧ OnlyParts [.regs, .host, .outbox] s t) ∧
    (s.fbit HRD_HARVEST_ACTIVE = false → exec .harvestAbandoned s = .next s) ∧
    (∀ c, (s.power.cart = none → ∃ t, exec (.cartridgeInsert c) s = .next t ∧ t.fbit HRD_STATE_PRESENT = true ∧
        t.fbit HRD_STATE_RELEASED = false ∧ t.fbit HRD_STATE_AUTHENTICATED = c.genuine ∧
        (c.genuine = true → Shows HRD_ID_ID c.id t) ∧ t.power.cart = some c ∧ t.mem = s.mem) ∧
      (s.power.cart.isSome = true → exec (.cartridgeInsert c) s = .next s)) ∧
    (s.power.cart = none → exec .cartridgeRemoved s = .next s) ∧
    (s.power.cart.isSome = true → ∃ t, exec .cartridgeRemoved s = .next t ∧ t.power.cart = none ∧
      t.fbit HRD_STATE_PRESENT = false ∧ t.mem = s.mem ∧
      (s.fbit HRD_STATE_RELEASED = false → Counts HRD_CNT_REMOVALS 1 s t ∧ t.fbit HRD_STS_REMOVED = true ∧ RaisesC s t ∧
        t.fbit HRD_HARVEST_ACTIVE = false) ∧
      (s.fbit HRD_STATE_RELEASED = true → t.run = s.run ∧ OnlyParts [.regs, .power] s t)) ∧
    (∀ k b1 b2, 2 ≤ k → k < 5 → (k = 3 → s.hub.laneDirty = true ∧ s.noStepNow = true) →
      let next := match s.newestRec with | some (r, _) => r.seq + 1 | none => 1
      (s.cartUsable = true → b1 = false → ∃ t, exec (.routineRecord k b1 b2) s = .next t ∧ t.fbit PWR_STS_RECORD_DONE = true ∧
        Counts PWR_CNT_RECORDS 1 s t ∧ t.fget PWR_CRIT_KIND = k ∧ t.fget PWR_CRIT_MEDIUM = 0 ∧ Shows PWR_CRIT_SEQ next t ∧
        t.power.flash = s.power.flash ∧ t.mem = s.mem) ∧
      (s.cartUsable = false ∨ b1 = true → b2 = false → ∃ t, exec (.routineRecord k b1 b2) s = .next t ∧
        t.fbit PWR_STS_RECORD_DONE = true ∧ Counts PWR_CNT_RECORDS 1 s t ∧ t.fget PWR_CRIT_KIND = k ∧
        t.fget PWR_CRIT_MEDIUM = 1 ∧ Shows PWR_CRIT_SEQ next t ∧ t.fbit HRD_STS_SAVE_FALLBACK = true ∧ t.mem = s.mem) ∧
      (s.cartUsable = false ∨ b1 = true → b2 = true → ∃ t, exec (.routineRecord k b1 b2) s = .next t ∧
        Counts PWR_CNT_RECORD_FAILURES 1 s t ∧ t.fbit PWR_STS_RECORD_FAILED = true ∧ RaisesC s t ∧
        t.power.flash = s.power.flash ∧ t.mem = s.mem))

/-! ### The bench, the test access port and the registers -/

/-- MARGIN_HBM, MARGIN_LINK, LANE_RETURN_HBM, LANE_RETURN_LINK, PPR, SCAN_ENTER, ENROLL, FIELD_CLOSE, TRACE_RECORD,
TAP_INSTRUCTION, TAP_RESET and TAP_DATA_REGISTER (R585 to R597): every command is ignored while BUSY and ends with RESULT 3
on a closed module; each refuses what its rule names with that RESULT; enrolment happens once, a field close needs the
owner's signature and is for good; the TAP gives its ID code, and EXTEST only without a running job. -/
def Obligations.BenchAndTapKeepTheirLocks : Prop :=
  ∀ (s : State) (arg : Word64) (o : Outer), Awake s →
    let a := arg.toNat
    let ops := [(1, Instr.marginHbm arg), (2, .marginLink arg), (3, .laneReturnHbm arg o), (4, .laneReturnLink arg o),
      (5, .ppr arg), (6, .scanEnter arg), (7, .enroll), (8, .fieldClose o)]
    let open_ := s.fbit BENCH_CMD_BUSY = false ∧ s.closed = false
    let ends := fun (c : Instr) (r : Nat) (more : State → Prop) => ∃ t, exec c s = .next t ∧ t.fget BENCH_CMD_RESULT = r ∧
      t.fbit BENCH_STS_CMD_DONE = true ∧ t.fbit BENCH_CMD_BUSY = false ∧ more t
    let only := fun (t : State) => OnlyParts [.regs] s t ∧ OnlyRegs [BENCH_CMD_OP.base, BENCH_ARG_ARG.base, BENCH_STS_CMD_DONE.base] s t
    (∀ q ∈ ops, (s.fbit BENCH_CMD_BUSY = true → ∃ t, exec q.2 s = .next t ∧ t.fget BENCH_CMD_OP = q.1 ∧ OnlyParts [.regs] s t ∧
        OnlyRegs [BENCH_CMD_OP.base, BENCH_ARG_ARG.base] s t) ∧
      (s.fbit BENCH_CMD_BUSY = false → s.closed = true → ends q.2 3 only)) ∧
    (open_ → ends (.marginHbm arg) 0 (fun t => t.fresh = s.fresh + 2 ∧
        t.fget BENCH_MARGIN_HEIGHT = Config.free s.fresh % 2 ^ 16 ∧ t.fget BENCH_MARGIN_WIDTH = Config.free (s.fresh + 1) % 2 ^ 16 ∧
        t.fbit BENCH_MARGIN_RETIRED = s.hub.laneBad.contains (argHbm a) ∧ OnlyParts [.regs, .fresh] s t)) ∧
    (open_ → getBits a 5 2 = 3 → ends (.marginLink arg) 7 only) ∧
    (open_ → getBits a 5 2 ≠ 3 → ends (.marginLink arg) 0 (fun t =>
      t.fbit BENCH_MARGIN_RETIRED = (s.link (getBits a 0 4)).laneBad.contains (getBits a 4 1, getBits a 5 2) ∧
      OnlyParts [.regs, .fresh] s t)) ∧
    (open_ → s.benchFree = false → ∀ q ∈ [Instr.laneReturnHbm arg o, .laneReturnLink arg o, .fieldClose o], ends q 2 only) ∧
    (open_ → s.benchFree = true →
      (s.hub.laneBad.contains (argHbm a) = false → ends (.laneReturnHbm arg o) 7 only) ∧
      (s.hub.laneBad.contains (argHbm a) = true → ends (.laneReturnHbm arg o) 0 (fun t =>
        t.hub.laneBad = s.hub.laneBad.erase (argHbm a) ∧ t.hub.laneMap = s.hub.laneMap ∧ t.mem = s.mem)) ∧
      ((s.link (getBits a 0 4)).laneBad.contains (getBits a 4 1, getBits a 5 2) = false → ends (.laneReturnLink arg o) 7 only) ∧
      ((s.link (getBits a 0 4)).laneBad.contains (getBits a 4 1, getBits a 5 2) = true → ends (.laneReturnLink arg o) 0 (fun t =>
        (t.link (getBits a 0 4)).laneBad = (s.link (getBits a 0 4)).laneBad.erase (getBits a 4 1, getBits a 5 2) ∧
        t.mem = s.mem)) ∧
      (s.fbit FUSE_STS_OWNER_ENROLLED = false → ends (.fieldClose o) 4 only) ∧
      (s.fbit FUSE_STS_OWNER_ENROLLED = true → o.sigOk = false → ends (.fieldClose o) 5 (fun t => t.fresh = s.fresh + 4 ∧
        t.closed = false ∧ OnlyParts [.regs, .fresh] s t)) ∧
      (s.fbit FUSE_STS_OWNER_ENROLLED = true → o.sigOk = true → ends (.fieldClose o) 0 (fun t => t.fresh = s.fresh + 4 ∧
        t.fget FUSE_STS_CLOSE_ELEMENTS = Nat.lor (s.fget FUSE_STS_CLOSE_ELEMENTS) (o.elements % 8) ∧
        t.closed = decide (t.fget FUSE_STS_CLOSE_ELEMENTS ≠ 0) ∧ OnlyParts [.regs, .fresh] s t))) ∧
    (open_ → s.allEmpty = false → ∀ q ∈ [Instr.ppr arg, .scanEnter arg], ends q 2 only) ∧
    (open_ → s.allEmpty = true →
      (Config.pprPerBank ≤ s.pprOf (argBank a) → ends (.ppr arg) 8 only) ∧
      (s.pprOf (argBank a) < Config.pprPerBank → ends (.ppr arg) 0 (fun t => t.pprOf (argBank a) = s.pprOf (argBank a) + 1 ∧
        (∀ p ∈ t.hub.hit, p.1 ≠ getBits a 0 4) ∧
        (∀ j, j < 256 → t.fbit ((HUB_POISON_VALID.die (getBits a 0 4 / 4)).ix j) = true →
          t.fget ((HUB_POISON_STACK.die (getBits a 0 4 / 4)).ix j) ≠ getBits a 0 4 % 4))) ∧
      (s.fget BENCH_CTL_SCAN_GROUP ≠ 7 → ends (.scanEnter arg) 2 only) ∧
      (s.fget BENCH_CTL_SCAN_GROUP = 7 → 4 < getBits a 0 3 → ends (.scanEnter arg) 7 only) ∧
      (s.fget BENCH_CTL_SCAN_GROUP = 7 → getBits a 0 3 ≤ 4 → ends (.scanEnter arg) 0 (fun t =>
        t.fget BENCH_CTL_SCAN_GROUP = getBits a 0 3 ∧ t.fbit BENCH_STS_SCAN_ACTIVE = true ∧ OnlyParts [.regs] s t))) ∧
    (open_ → s.fbit FUSE_STS_OWNER_ENROLLED = true → ends .enroll 6 only) ∧
    (open_ → s.fbit FUSE_STS_OWNER_ENROLLED = false → ends .enroll 0 (fun t => t.bench.owner = some (s.bench.fuseBuf.setWidth 384) ∧
      t.fbit FUSE_STS_OWNER_ENROLLED = true ∧ t.fbit HULL_ID_OWNER_ENROLLED = true ∧ OnlyParts [.regs, .bench] s t)) ∧
    (∀ at_ src data, src < 5 → Settled s at_ → let on := !s.closed && s.fbit BENCH_CTL_TRACE_EN && getBits (s.fget BENCH_CTL_TRACE_SEL) src 1 == 1
      (on = true → (∃ t, exec (.traceRecord at_ src data true) s = .next t ∧ t.bench.dropped = s.bench.dropped + 1 ∧
          t.fbit BENCH_STS_TRACE_DROP = true ∧ OnlyParts [.now, .regs, .bench] s t) ∧
        (∃ t, exec (.traceRecord at_ src data false) s = .next t ∧ t.bench.dropped = 0 ∧
          t.outbox = s.outbox ++ (if s.bench.dropped = 0 then [] else [.msg "BTR_GAP" [s.bench.dropped]]) ++
            [.msg "BTR_RECORD" [src, s.tickCount % 2 ^ 32, (s.advance at_).relCyc, data]] ∧
          OnlyParts [.now, .bench, .outbox] s t)) ∧
      (on = false → ∀ full, ∃ t, exec (.traceRecord at_ src data full) s = .next t ∧ OnlyParts [.now] s t)) ∧
    (∀ code : BitVec 8, let i := s.tapDecode code.toNat
      (i ≠ 0 → ∃ t, exec (.tapInstruction code) s = .next t ∧ t.bench.ir = i ∧ OnlyParts [.bench] s t) ∧
      (i = 0 → s.benchFree = false → ∃ t, exec (.tapInstruction code) s = .next t ∧ t.bench.ir = 0xFF ∧ t.bench.extest = s.bench.extest ∧
        OnlyParts [.bench] s t) ∧
      (i = 0 → s.benchFree = true → ∃ t, exec (.tapInstruction code) s = .next t ∧ t.bench.ir = 0 ∧ t.bench.extest = true ∧
        t.run = {} ∧ t.mem = s.mem)) ∧
    (∀ at_ ports, Settled s at_ → (s.bench.extest = false → ∃ t, exec (.tapReset at_ ports) s = .next t ∧ t.bench.ir = 1 ∧ OnlyParts [.now, .bench] s t) ∧
      (s.bench.extest = true → ∃ t, exec (.tapReset at_ ports) s = .next t ∧ t.bench.ir = 1 ∧ t.bench.extest = false ∧
        t.power.halt = .no ∧ t.run = {} ∧ t.job.ctx = none ∧ t.mem = s.mem ∧ t.fget PWR_RESTORE_STS_KIND = 2)) ∧
    (∀ at_ v w, Settled s at_ →
      (s.tapDecode s.bench.ir = 1 → ∃ t, exec (.tapDataRegister at_ v w o) s = .next t ∧ t.bench.dr = 0x1241656B ∧
        OnlyParts [.now, .bench] s t) ∧
      (s.tapDecode s.bench.ir = 0xFF → ∃ t, exec (.tapDataRegister at_ v w o) s = .next t ∧ t.bench.dr = 0 ∧
        OnlyParts [.now, .bench] s t) ∧
      (s.tapDecode s.bench.ir = 0x22 → s.benchFree = true → benchRegOff v = BENCH_ARG.base - 0x20000000 →
        (∃ t, exec (.tapDataRegister at_ v true o) s = .next t ∧ t.fget BENCH_ARG_ARG = getBits v 32 64 ∧ t.bench.dr = v % 2 ^ 96 ∧
          OnlyParts [.now, .regs, .bench] s t ∧ OnlyRegs [BENCH_ARG.base] s t) ∧
        (∃ t, exec (.tapDataRegister at_ v false o) s = .next t ∧
          t.bench.dr = benchRegOff v + 2 ^ 32 * s.fget BENCH_ARG_ARG ∧ OnlyParts [.now, .bench] s t)))

/-- REG_WRITE, ALIAS_WRITE, REG_READ_CLEAR, ACCESS_ERROR, ACCESS_RELOAD_HELD, HDM_WRITE, CLKSRC_WRITE and HOLD_RELEASE (R8, R9,
R59, R297, R418, R504, R571 to R583): a write stores the writable fields of its register alone, after the write time of its
window, and a read answers after the read time and clears the RC fields; an access of the wrong size, to no register or to a
window that is off reaches none and is flagged; one held by a reload is flagged and made after it; pieces of the HDM window
never come to overlap; a new clock source is not locked. -/
def Obligations.RegisterAccessesReachTheirRegister : Prop :=
  ∀ (s : State) (at_ : Nat) (v : Word64) (o : Outer), Awake s → s.bench.extest = false → Settled s at_ →
    let s1 := s.advance at_
    let wide : BitVec 512 := BitVec.ofNat 512 v.toNat
    let time := fun (k : Nat) => accTime (k / 0x1000000) (decide (28 ≤ pageOfKey k))
    let parts := [Part.now, .regs, .router, .outbox]
    (∀ k d, s.power.reload = none → plainReg k d → s.windowOff (k / 0x1000000) = false →
      (∀ view, view < 4 → (view = 0 ∨ stsKey k = false) → (s.locked = false ∨ ∀ f ∈ d.fields, f.acc ≠ .rwl) →
        ∃ t, exec (if view = 0 then .regWrite at_ 0 k 8 wide o else .aliasWrite at_ view k v o) s = .next t ∧ t.now = s1.now ∧
          t.regGet k = BitVec.ofNat 64 (writeFields view s.locked v.toNat d.fields (s.regGet k).toNat) ∧
          assocGet t.router.busy (k / 0x1000000) = some (s1.accStart (k / 0x1000000) false + (time k).2) ∧
          OnlyParts parts s t ∧ OnlyRegs [k] s t) ∧
      (∀ view, 1 ≤ view → view < 4 → stsKey k = true → ∃ t, exec (.aliasWrite at_ view k v o) s = .next t ∧
        t.fbit (accSts 1) = true ∧ Counts HULL_ACC_CNT_REFUSED 1 s t ∧ OnlyParts parts s t ∧ OnlyRegs accRegs s t) ∧
      (s.locked = true → (∃ f ∈ d.fields, f.acc = .rwl) → ∃ t, exec (.regWrite at_ 0 k 8 wide o) s = .next t ∧
        t.fbit (accSts 2) = true ∧ Counts HULL_ACC_CNT_REFUSED 1 s t ∧ (∀ f ∈ d.fields, f.acc = .rwl →
          getBits (t.regGet k).toNat f.lo f.wd = getBits (s.regGet k).toNat f.lo f.wd) ∧ OnlyParts parts s t) ∧
      (∃ t, exec (.regReadClear at_ 0 k 8) s = .next t ∧
        let a := s1.accStart (k / 0x1000000) true
        t.outbox = s.outbox ++ [.regReply (a + (time k).1) ((s1.advance (a + (time k).2)).regValue k)] ∧
        t.regGet k = (if k = PWR_RESTORE_STS_KIND.base then 0
          else BitVec.ofNat 64 (clearFields (fun f => f.acc == .rc) d.fields (s.regGet k).toNat)) ∧
        OnlyParts parts s t ∧ OnlyRegs [k] s t)) ∧
    (∀ off, s.power.reload = none → off < 0x1C000000 → off % 0x1000000 < 0x400000 →
      let w := off / 0x1000000
      let a := s1.accStart w true
      let buffer := (w = 7 ∧ 0x100000 ≤ off % 0x1000000 ∧ off % 0x1000000 < 0x110000) ∨
        (w = 0 ∧ 0x1000 ≤ off % 0x1000000 ∧ off % 0x1000000 < 0x3000)
      ¬ buffer →
      let flagged := fun (cause size rd : Nat) (d : Word64) => ∃ t, exec (.accessError at_ 0 off size none o) s = .next t ∧
        t.fbit (accSts cause) = true ∧ t.outbox.getLast? = some (.regReply (a + rd) d) ∧
        Counts (if cause = 0 then HULL_ACC_CNT_OFF else HULL_ACC_CNT_REFUSED) 1 s t ∧
        (s.fbit HULL_ACC_FIRST_VALID = false → Shows HULL_ACC_FIRST_OFFSET off t ∧ t.fget HULL_ACC_FIRST_CAUSE = cause) ∧
        OnlyParts parts s t ∧ OnlyRegs accRegs s t
      (∀ size, size ≠ 8 ∨ off % 8 ≠ 0 → flagged 3 size 40 (~~~0)) ∧
      (off % 8 = 0 → s.windowOff w = true → flagged 0 8 96 (~~~0)) ∧
      (off % 8 = 0 → s.windowOff w = false → findReg off = none → snapOf off = none → flagged 4 8 40 0) ∧
      (∀ size, size ≠ 8 ∨ off % 8 ≠ 0 → ∃ t, exec (.accessError at_ 0 off size (some v) o) s = .next t ∧
        t.fbit (accSts 3) = true ∧ OnlyParts parts s t ∧ OnlyRegs accRegs s t)) ∧
    (∀ k d c, s.power.reload = some c → plainReg k d → s.windowOff (k / 0x1000000) = false → s.locked = false → k ∉ accRegs →
      ∃ t, exec (.accessReloadHeld at_ 0 k 8 (some v) o) s = .next t ∧ t.fbit (accSts 5) = true ∧ Counts HULL_ACC_CNT_HELD 1 s t ∧
        t.regGet k = BitVec.ofNat 64 (writeFields 0 false v.toNat d.fields (s.regGet k).toNat) ∧
        (assocGet t.router.busy (k / 0x1000000)).any (fun x => decide (c + (time k).2 ≤ x)) = true ∧
        OnlyParts parts s t ∧ OnlyRegs (k :: accRegs) s t) ∧
    (∀ i, i < 4 → s.power.reload = none → s.windowOff 4 = false → s.locked = false →
      let base := getBits v.toNat 1 4 * 0x1000000000 + getBits v.toNat 5 6 * 0x40000000
      let clash := v.toNat % 2 = 1 ∧ ∃ k ∈ [0, 1, 2, 3], k ≠ i ∧ s.fbit (HOST_HDM_EN.ix k) = true ∧
        meet base 0x400000000 (s.hdmBase k) 0x400000000 = true
      (clash → ∃ t, exec (.hdmWrite at_ i v) s = .next t ∧ t.fbit HOST_STS_HDM_CONFLICT = true ∧ OnlyParts parts s t ∧
        OnlyRegs [HOST_STS_HDM_CONFLICT.base] s t) ∧
      (¬ clash → ∃ t, exec (.hdmWrite at_ i v) s = .next t ∧ t.fget (HOST_HDM_EN.ix i) = v.toNat % 2 ∧ t.hdmBase i = base ∧
        OnlyParts parts s t ∧ OnlyRegs [(HOST_HDM_EN.ix i).base] s t)) ∧
    (∀ src, src ≤ 16 → s.power.reload = none → s.windowOff 1 = false → s.locked = false →
      ∃ t, exec (.clksrcWrite at_ src) s = .next t ∧ t.fget TICK_CLKSRC_SRC = src ∧ t.fbit TICK_CLKSRC_LOCKED = false ∧
        OnlyParts parts s t ∧ OnlyRegs [TICK_CLKSRC.base] s t) ∧
    (s.fbit HULL_ORCH_MASTER = false → ∃ t, exec .holdRelease s = .next t ∧ t.fbit COMMIT_STS_NOT_MASTER = true ∧
      OnlyParts [.regs, .outbox] s t) ∧
    (s.fbit HULL_ORCH_MASTER = true → s.ccr.hold = true → s.job.ctx ≠ none → ∃ t, exec .holdRelease s = .next t ∧
      t.job.releasePending = true ∧ t.fbit COMMIT_HOLD_RELEASE_PENDING = true ∧ OnlyParts [.regs, .job] s t) ∧
    (s.fbit HULL_ORCH_MASTER = true → s.ccr.hold = false → exec .holdRelease s = .next s)
end

