-- ==== Sys2Proof/Laws/Lists.lean ====
section
/-! SUPPORT. Laws of the list helpers: replacing one element, association lists, ranges. -/

namespace Sys2Proof.Laws

open Sys2Proof.Machine

@[simp] theorem modAt_length {α : Type} (f : α → α) : ∀ (n : Nat) (l : List α), (modAt f n l).length = l.length
  | _, [] => by simp [modAt]
  | 0, _ :: _ => rfl
  | n + 1, _ :: r => by simp [modAt, modAt_length f n r]

theorem getD_modAt_same {α : Type} (f : α → α) (d : α) :
    ∀ (n : Nat) (l : List α), n < l.length → (modAt f n l).getD n d = f (l.getD n d)
  | _, [], h => absurd h (Nat.not_lt_zero _)
  | 0, a :: r, _ => rfl
  | n + 1, a :: r, h => by
    simpa [modAt] using getD_modAt_same f d n r (by simpa using h)

theorem getD_modAt_ne {α : Type} (f : α → α) (d : α) :
    ∀ (n k : Nat) (l : List α), k ≠ n → (modAt f n l).getD k d = l.getD k d
  | _, _, [], _ => by simp [modAt]
  | 0, 0, _ :: _, h => absurd rfl h
  | 0, k + 1, _ :: _, _ => rfl
  | n + 1, 0, _ :: _, _ => rfl
  | n + 1, k + 1, a :: r, h => by
    simpa [modAt] using getD_modAt_ne f d n k r (by omega)

theorem assocGet_assocPut_same {α : Type} (k : Nat) (v : α) : ∀ l : List (Nat × α), assocGet (assocPut l k v) k = some v
  | [] => by simp [assocPut, assocGet]
  | (a, w) :: r => by
    by_cases h : a = k
    · subst h; simp [assocPut, assocGet]
    · simp [assocPut, assocGet, h, assocGet_assocPut_same k v r]

theorem assocGet_assocPut_ne {α : Type} (k k' : Nat) (v : α) (hk : k' ≠ k) :
    ∀ l : List (Nat × α), assocGet (assocPut l k v) k' = assocGet l k'
  | [] => by simp [assocPut, assocGet, Ne.symm hk]
  | (a, w) :: r => by
    by_cases h : a = k
    · subst h; simp [assocPut, assocGet, Ne.symm hk]
    · by_cases h' : a = k'
      · subst h'; simp [assocPut, assocGet, h]
      · simp [assocPut, assocGet, h, h', assocGet_assocPut_ne k k' v hk r]

@[simp] theorem range'_length : ∀ (n lo : Nat), (Machine.range' lo n).length = n
  | 0, _ => rfl
  | n + 1, lo => by simp [Machine.range', range'_length n (lo + 1)]

theorem mem_range' : ∀ (n lo x : Nat), x ∈ Machine.range' lo n ↔ lo ≤ x ∧ x < lo + n
  | 0, lo, x => by simp [Machine.range']
  | n + 1, lo, x => by
    simp only [Machine.range', List.mem_cons, mem_range' n (lo + 1) x]
    omega

end Sys2Proof.Laws
end

