-- ==== Sys2Proof/Laws/Tab.lean ====
section
/-! SUPPORT. Laws of sparse tables: a read after a write, and the canonical form that every operation keeps. -/

namespace Sys2Proof.Laws

open Sys2Proof.Machine

variable {β : Type}

theorem tabWfFrom_mono [DecidableEq β] (d : Nat → β) :
    ∀ (t : List (Nat × β)) (lo lo' : Nat), lo' ≤ lo → tabWfFrom d lo t = true → tabWfFrom d lo' t = true
  | [], _, _, _, _ => rfl
  | (a, v) :: r, lo, lo', h, hw => by
    simp only [tabWfFrom, Bool.and_eq_true, decide_eq_true_eq] at hw ⊢
    exact ⟨⟨by omega, hw.1.2⟩, hw.2⟩

/-- Below its first key a well-formed table reads as its default. -/
theorem tabGet_of_lt [DecidableEq β] (d : Nat → β) :
    ∀ (t : List (Nat × β)) (lo k : Nat), tabWfFrom d lo t = true → k < lo → tabGet d t k = d k
  | [], _, _, _, _ => rfl
  | (a, v) :: r, lo, k, hw, hk => by
    simp only [tabWfFrom, Bool.and_eq_true, decide_eq_true_eq] at hw
    have hne : ¬ a = k := by omega
    simp only [tabGet, hne, if_false]
    exact tabGet_of_lt d r (a + 1) k hw.2 (by omega)

/-- A write is read back at its own key. -/
theorem tabGet_tabPut_same [DecidableEq β] (d : Nat → β) (k : Nat) (v : β) :
    ∀ (t : List (Nat × β)) (lo : Nat), tabWfFrom d lo t = true → tabGet d (tabPut d t k v) k = v
  | [], _, _ => by
    by_cases h : v = d k <;> simp [tabPut, tabGet, h]
  | (a, w) :: r, lo, hw => by
    have hw' := hw
    simp only [tabWfFrom, Bool.and_eq_true, decide_eq_true_eq] at hw
    by_cases h1 : k < a
    · by_cases h : v = d k
      · have hne : ¬ a = k := by omega
        simp only [tabPut, h1, h, if_true, tabGet, hne, if_false]
        exact tabGet_of_lt d r (a + 1) k hw.2 (by omega)
      · simp [tabPut, h1, h, tabGet]
    · by_cases h2 : k = a
      · subst h2
        by_cases h : v = d k
        · simp only [tabPut, h1, if_false, h, if_true]
          exact tabGet_of_lt d r (k + 1) k hw.2 (by omega)
        · simp [tabPut, h, tabGet]
      · have hne : ¬ a = k := fun e => h2 e.symm
        simp only [tabPut, h1, h2, if_false, tabGet, hne]
        exact tabGet_tabPut_same d k v r (a + 1) hw.2

/-- A write leaves every other key as it was. -/
theorem tabGet_tabPut_ne [DecidableEq β] (d : Nat → β) (k k' : Nat) (v : β) (hk : k' ≠ k) :
    ∀ t : List (Nat × β), tabGet d (tabPut d t k v) k' = tabGet d t k'
  | [] => by
    by_cases h : v = d k <;> simp [tabPut, tabGet, h, hk.symm]
  | (a, w) :: r => by
    by_cases h1 : k < a
    · by_cases h : v = d k <;> simp [tabPut, h1, h, tabGet, hk.symm]
    · by_cases h2 : k = a
      · subst h2
        by_cases h : v = d k <;> simp [tabPut, h, tabGet, hk.symm]
      · by_cases ha : a = k'
        · subst ha
          simp [tabPut, h1, h2, tabGet]
        · simp only [tabPut, h1, h2, if_false, tabGet, ha]
          exact tabGet_tabPut_ne d k k' v hk r

/-- A write keeps the canonical form. -/
theorem tabWfFrom_tabPut [DecidableEq β] (d : Nat → β) (k : Nat) (v : β) :
    ∀ (t : List (Nat × β)) (lo : Nat), lo ≤ k → tabWfFrom d lo t = true → tabWfFrom d lo (tabPut d t k v) = true
  | [], lo, hk, _ => by
    by_cases h : v = d k <;> simp [tabPut, tabWfFrom, h, hk]
  | (a, w) :: r, lo, hk, hw => by
    have hw' := hw
    simp only [tabWfFrom, Bool.and_eq_true, decide_eq_true_eq] at hw
    by_cases h1 : k < a
    · by_cases h : v = d k
      · simpa only [tabPut, h1, h, if_true] using hw'
      · simp only [tabPut, h1, h, if_true, if_false, tabWfFrom, Bool.and_eq_true, decide_eq_true_eq]
        exact ⟨⟨hk, h⟩, ⟨⟨by omega, hw.1.2⟩, hw.2⟩⟩
    · by_cases h2 : k = a
      · subst h2
        by_cases h : v = d k
        · simp only [tabPut, h1, if_false, h, if_true]
          exact tabWfFrom_mono d r (k + 1) lo (by omega) hw.2
        · simp only [tabPut, h1, if_false, h, if_true, tabWfFrom, Bool.and_eq_true, decide_eq_true_eq]
          exact ⟨⟨hk, h⟩, hw.2⟩
      · simp only [tabPut, h1, h2, if_false, tabWfFrom, Bool.and_eq_true, decide_eq_true_eq]
        exact ⟨hw.1, tabWfFrom_tabPut d k v r (a + 1) (by omega) hw.2⟩

theorem tabWf_nil {α : Type} [DecidableEq α] (d : Nat → α) : tabWf d [] = true := rfl

theorem tabWf_tabPut [DecidableEq β] (d : Nat → β) (t : List (Nat × β)) (k : Nat) (v : β) (h : tabWf d t = true) :
    tabWf d (tabPut d t k v) = true := tabWfFrom_tabPut d k v t 0 (Nat.zero_le k) h

/-- A fold of writes keeps the canonical form. -/
theorem tabWf_foldl [DecidableEq β] {α : Type} (d : Nat → β) {f : List (Nat × β) → α → List (Nat × β)}
    (hf : ∀ t a, tabWf d t = true → tabWf d (f t a) = true) :
    ∀ (l : List α) (t : List (Nat × β)), tabWf d t = true → tabWf d (l.foldl f t) = true
  | [], _, h => h
  | a :: l, t, h => tabWf_foldl d hf l (f t a) (hf t a h)

theorem tabGet_put [DecidableEq β] (d : Nat → β) (t : List (Nat × β)) (k : Nat) (v : β) (h : tabWf d t = true) :
    tabGet d (tabPut d t k v) k = v := tabGet_tabPut_same d k v t 0 h

/-- Adjusting the entries keeps the canonical form. -/
theorem tabWfFrom_tabAdjust [DecidableEq β] (d : Nat → β) (f : Nat → β → β) :
    ∀ (t : List (Nat × β)) (lo : Nat), tabWfFrom d lo t = true → tabWfFrom d lo (tabAdjust d f t) = true
  | [], _, _ => rfl
  | (a, v) :: r, lo, hw => by
    simp only [tabWfFrom, Bool.and_eq_true, decide_eq_true_eq] at hw
    have ih := tabWfFrom_tabAdjust d f r (a + 1) hw.2
    by_cases h : f a v = d a
    · simp only [tabAdjust, h, if_true]
      exact tabWfFrom_mono d _ (a + 1) lo (by omega) ih
    · simp only [tabAdjust, h, if_false, tabWfFrom, Bool.and_eq_true, decide_eq_true_eq]
      exact ⟨⟨hw.1.1, h⟩, ih⟩

theorem tabWf_tabAdjust [DecidableEq β] (d : Nat → β) (f : Nat → β → β) (t : List (Nat × β)) (h : tabWf d t = true) :
    tabWf d (tabAdjust d f t) = true := tabWfFrom_tabAdjust d f t 0 h

/-- Clearing keys keeps the canonical form. -/
theorem tabWfFrom_tabClear [DecidableEq β] (d : Nat → β) (p : Nat → Bool) :
    ∀ (t : List (Nat × β)) (lo : Nat), tabWfFrom d lo t = true → tabWfFrom d lo (tabClear p t) = true
  | [], _, _ => rfl
  | (a, v) :: r, lo, hw => by
    simp only [tabWfFrom, Bool.and_eq_true, decide_eq_true_eq] at hw
    have ih := tabWfFrom_tabClear d p r (a + 1) hw.2
    by_cases h : p a = true
    · simp only [tabClear, h, if_true]
      exact tabWfFrom_mono d _ (a + 1) lo (by omega) ih
    · simp only [tabClear, h]
      simp only [Bool.false_eq_true, if_false, tabWfFrom, Bool.and_eq_true, decide_eq_true_eq]
      exact ⟨hw.1, ih⟩

theorem tabWf_tabClear [DecidableEq β] (d : Nat → β) (p : Nat → Bool) (t : List (Nat × β)) (h : tabWf d t = true) :
    tabWf d (tabClear p t) = true := tabWfFrom_tabClear d p t 0 h

/-- Writing a list of values keeps the canonical form. -/
theorem tabWf_tabPutList [DecidableEq β] (d : Nat → β) :
    ∀ (vs : List β) (t : List (Nat × β)) (k : Nat), tabWf d t = true → tabWf d (tabPutList d t k vs) = true
  | [], _, _, h => h
  | v :: vs, t, k, h => tabWf_tabPutList d vs (tabPut d t k v) (k + 1) (tabWf_tabPut d t k v h)

/-- Writing a list of values leaves every key outside its range as it was. -/
theorem tabGet_tabPutList_ne [DecidableEq β] (d : Nat → β) (k' : Nat) :
    ∀ (vs : List β) (t : List (Nat × β)) (k : Nat), (k' < k ∨ k + vs.length ≤ k') →
      tabGet d (tabPutList d t k vs) k' = tabGet d t k'
  | [], _, _, _ => rfl
  | v :: vs, t, k, h => by
    simp only [List.length_cons] at h
    rw [tabPutList, tabGet_tabPutList_ne d k' vs (tabPut d t k v) (k + 1) (by omega),
      tabGet_tabPut_ne d k k' v (by omega)]

end Sys2Proof.Laws
end

