-- ==== Sys2Proof/Laws/Keeps.lean ====
section
/-! SUPPORT. What every operation keeps: `Keeps s t` says that between `s` and `t` the queue stands, the clock has not run
back, and the model's invariant is not lost. One lemma per operation; each takes the fact about the state it starts
from and gives it for the state it leaves, so that a chain of operations is a chain of lemmas. -/

namespace Sys2Proof.Laws

open Sys2Proof.Machine

/-- From `s` to `t` the queue is the same, the clock has not run back and the invariant is kept. -/
structure Keeps (s t : State) : Prop where
  pending : t.pending = s.pending
  now : s.now ≤ t.now
  inv : Safety.Inv s → Safety.Inv t

theorem Keeps.refl (s : State) : Keeps s s := ⟨rfl, Nat.le_refl _, id⟩

theorem Keeps.trans {s t u : State} (h : Keeps s t) (k : Keeps t u) : Keeps s u :=
  ⟨k.pending.trans h.pending, Nat.le_trans h.now k.now, fun i => k.inv (h.inv i)⟩

/-- A change of fields that the invariant does not speak of. -/
theorem Keeps.same {s0 s t : State} (h : Keeps s0 s) (hp : t.pending = s.pending) (hn : t.now = s.now)
    (hr : t.regs = s.regs) (hm : t.mem = s.mem) (ht : t.tiles = s.tiles) (hc : t.ctxs = s.ctxs) (hf : t.fifos = s.fifos) (hg : t.rings = s.rings)
    (hl : t.links = s.links) : Keeps s0 t :=
  ⟨hp.trans h.pending, hn ▸ h.now, fun i => by
    have j := h.inv i
    unfold Safety.Inv Safety.Canonical Safety.Shape at *
    rw [hr, hm, ht, hc, hf, hg, hl]
    exact j⟩

/-- A change that moves the clock on or rewrites the lists of contexts, FIFOs, rings or links element by element. -/
theorem Keeps.lists {s0 s t : State} (h : Keeps s0 s) (hp : t.pending = s.pending) (hn : s.now ≤ t.now)
    (hr : t.regs = s.regs) (hm : t.mem = s.mem) (ht : t.tiles = s.tiles) (hc : t.ctxs.length = s.ctxs.length)
    (hf : t.fifos.length = s.fifos.length) (hg : t.rings.length = s.rings.length)
    (hl : t.links.length = s.links.length) : Keeps s0 t :=
  ⟨hp.trans h.pending, Nat.le_trans h.now hn, fun i => by
    have j := h.inv i
    unfold Safety.Inv Safety.Canonical Safety.Shape at *
    rw [hr, hm, ht, hc, hf, hg, hl]
    exact j⟩

/-- `Keeps.same` for a state written field by field. -/
theorem Keeps.upd {s0 s : State} {edgeAt : Nat} {snaps : List (Nat × Word64)} {ccr m0 m1 : Ccr} {run : TickRun}
    {job : JobRun} {attend : List (Nat × Attend)} {cap : Capture} {hub : HubSt} {solver : SolverSt}
    {host : HostSt} {slow : List Resid} {power : PowerSt} {bench : BenchSt} {router : Router} {outbox : List Out}
    {fresh : Nat} (h : Keeps s0 s) :
    Keeps s0 ⟨s.now, edgeAt, s.pending, s.regs, snaps, s.mem, ccr, m0, m1, run, job, s.ctxs, s.tiles, attend, s.fifos,
      s.rings, cap, hub, s.links, solver, host, slow, power, bench, router, outbox, fresh⟩ :=
  Keeps.same h rfl rfl rfl rfl rfl rfl rfl rfl rfl

/-- `Keeps.lists` for a state written field by field. -/
theorem Keeps.updLists {s0 s : State} {now edgeAt : Nat} {snaps : List (Nat × Word64)} {ccr m0 m1 : Ccr} {run : TickRun}
    {job : JobRun} {ctxs : List Ctx} {attend : List (Nat × Attend)} {fifos : List Fifo}
    {rings : List Ring} {cap : Capture} {hub : HubSt} {links : List LinkSt} {solver : SolverSt}
    {host : HostSt} {slow : List Resid} {power : PowerSt} {bench : BenchSt} {router : Router} {outbox : List Out}
    {fresh : Nat} (h : Keeps s0 s) (hn : s.now ≤ now) (hc : ctxs.length = s.ctxs.length)
    (hf : fifos.length = s.fifos.length) (hg : rings.length = s.rings.length)
    (hl : links.length = s.links.length) :
    Keeps s0 ⟨now, edgeAt, s.pending, s.regs, snaps, s.mem, ccr, m0, m1, run, job, ctxs, s.tiles, attend, fifos,
      rings, cap, hub, links, solver, host, slow, power, bench, router, outbox, fresh⟩ :=
  Keeps.lists h rfl hn rfl rfl rfl hc hf hg hl

/-- `Keeps.upd` where the two rings start anew. -/
theorem Keeps.updRings {s0 s : State} {edgeAt : Nat} {snaps : List (Nat × Word64)} {ccr m0 m1 : Ccr} {run : TickRun}
    {job : JobRun} {tiles : Tiles} {attend : List (Nat × Attend)} {cap : Capture} {hub : HubSt} {solver : SolverSt}
    {host : HostSt} {slow : List Resid} {power : PowerSt} {bench : BenchSt} {router : Router} {outbox : List Out}
    {fresh : Nat} {a b : Ring} (hw : Safety.TilesWf s.tiles → Safety.TilesWf tiles) (h : Keeps s0 s) :
    Keeps s0 ⟨s.now, edgeAt, s.pending, s.regs, snaps, s.mem, ccr, m0, m1, run, job, s.ctxs, tiles, attend, s.fifos,
      [a, b], cap, hub, s.links, solver, host, slow, power, bench, router, outbox, fresh⟩ :=
  ⟨h.pending, h.now, fun i => ⟨⟨(h.inv i).1.1, (h.inv i).1.2.1, hw (h.inv i).1.2.2⟩, (h.inv i).2.1, (h.inv i).2.2.1, rfl,
    (h.inv i).2.2.2.2⟩⟩

/-- `Keeps.upd` where the tiles change and their tables stay canonical. -/
theorem Keeps.updTiles {s0 s : State} {edgeAt : Nat} {snaps : List (Nat × Word64)} {ccr m0 m1 : Ccr} {run : TickRun}
    {job : JobRun} {tiles : Tiles} {attend : List (Nat × Attend)} {cap : Capture} {hub : HubSt} {solver : SolverSt}
    {host : HostSt} {slow : List Resid} {power : PowerSt} {bench : BenchSt} {router : Router} {outbox : List Out}
    {fresh : Nat} (hw : Safety.TilesWf s.tiles → Safety.TilesWf tiles) (h : Keeps s0 s) :
    Keeps s0 ⟨s.now, edgeAt, s.pending, s.regs, snaps, s.mem, ccr, m0, m1, run, job, s.ctxs, tiles, attend, s.fifos,
      s.rings, cap, hub, s.links, solver, host, slow, power, bench, router, outbox, fresh⟩ :=
  ⟨h.pending, h.now, fun i => ⟨⟨(h.inv i).1.1, (h.inv i).1.2.1, hw (h.inv i).1.2.2⟩, (h.inv i).2⟩⟩

theorem Keeps.ite {s0 a b : State} {c : Prop} [Decidable c] (ha : Keeps s0 a) (hb : Keeps s0 b) :
    Keeps s0 (if c then a else b) := by split <;> assumption

theorem Keeps.foldl {s0 : State} {α : Type} {f : State → α → State} {l : List α} {s : State}
    (hf : ∀ s a, Keeps s0 s → Keeps s0 (f s a)) (h : Keeps s0 s) : Keeps s0 (l.foldl f s) := by
  induction l generalizing s with
  | nil => exact h
  | cons a l ih => exact ih (hf s a h)

theorem Keeps.foldlFst {s0 : State} {α β : Type} {f : State × β → α → State × β} {l : List α} {p : State × β}
    (hf : ∀ p a, Keeps s0 p.1 → Keeps s0 (f p a).1) (h : Keeps s0 p.1) : Keeps s0 (l.foldl f p).1 := by
  induction l generalizing p with
  | nil => exact h
  | cons a l ih => exact ih (hf p a h)

/-- The next state of an outcome, where there is one, is kept from `s`. -/
def OutKeeps (s : State) (o : Host.Outcome State Fault Refusal) : Prop := ∀ t, o = .next t → Keeps s t

theorem OutKeeps.next {s t : State} (h : Keeps s t) : OutKeeps s (.next t) := by
  intro u e
  cases e
  exact h

theorem OutKeeps.fault {s : State} (f : Fault) : OutKeeps s (.fault f) := fun _ e => nomatch e

theorem OutKeeps.ite {s : State} {a b : Host.Outcome State Fault Refusal} {c : Prop} [Decidable c] (ha : OutKeeps s a)
    (hb : OutKeeps s b) : OutKeeps s (if c then a else b) := by split <;> assumption

/-! ### The primitives -/

theorem regPut_keeps {s0 s : State} (k : Nat) (v : Word64) (h : Keeps s0 s) : Keeps s0 (State.regPut s k v) :=
  ⟨h.pending, h.now, fun i => ⟨⟨tabWf_tabPut _ _ _ _ (h.inv i).1.1, (h.inv i).1.2⟩, (h.inv i).2⟩⟩

theorem fset_keeps {s0 s : State} (f : Fld) (x : Nat) (h : Keeps s0 s) : Keeps s0 (State.fset s f x) := regPut_keeps _ _ h

theorem fsetAll_keeps {s0 : State} : ∀ (l : List (Fld × Nat)) {s : State}, Keeps s0 s → Keeps s0 (State.fsetAll s l)
  | [], _, h => h
  | (f, x) :: r, _, h => fsetAll_keeps r (fset_keeps f x h)

theorem advance_keeps {s0 s : State} (c : Nat) (h : Keeps s0 s) : Keeps s0 (State.advance s c) :=
  ⟨h.pending, Nat.le_trans h.now (Nat.le_max_left _ _), h.inv⟩

theorem wr8_keeps {s0 s : State} (a : Nat) (v : Byte) (h : Keeps s0 s) : Keeps s0 (State.wr8 s a v) :=
  ⟨h.pending, h.now, fun i => ⟨⟨(h.inv i).1.1, tabWf_tabPut _ _ _ _ (h.inv i).1.2.1, (h.inv i).1.2.2⟩, (h.inv i).2⟩⟩

/-- A change of the tiles that keeps their tables canonical. -/
theorem withTiles_keeps {s0 s : State} {f : Tiles → Tiles} (hf : ∀ t, Safety.TilesWf t → Safety.TilesWf (f t))
    (h : Keeps s0 s) : Keeps s0 (State.withTiles s f) :=
  ⟨h.pending, h.now, fun i => ⟨⟨(h.inv i).1.1, (h.inv i).1.2.1, hf _ (h.inv i).1.2.2⟩, (h.inv i).2⟩⟩

/-- Inserting a line write keeps the writes in the order of their cycles. -/
theorem insLine_sorted (w : LineWrite) : ∀ l : List LineWrite, l.Pairwise (fun v w => v.at_ ≤ w.at_) →
    (insLine w l).Pairwise (fun v w => v.at_ ≤ w.at_) ∧ ∀ v ∈ insLine w l, v = w ∨ v ∈ l
  | [], _ => by simp [insLine]
  | u :: r, h => by
    have ih := insLine_sorted w r h.tail
    rw [List.pairwise_cons] at h
    unfold insLine
    split
    · next le =>
      refine ⟨List.pairwise_cons.2 ⟨fun v m => ?_, ih.1⟩, fun v m => ?_⟩
      · obtain rfl | m := ih.2 v m
        · exact le
        · exact h.1 v m
      · rw [List.mem_cons] at m ⊢
        obtain rfl | m := m
        · exact .inr (.inl rfl)
        · exact (ih.2 v m).imp id .inr
    · next lt =>
      refine ⟨List.pairwise_cons.2 ⟨fun v m => ?_, List.pairwise_cons.2 h⟩, fun v m => List.mem_cons.1 m⟩
      rw [List.mem_cons] at m
      obtain rfl | m := m
      · omega
      · have := h.1 v m; omega

/-- What has landed in the operand lines stands there with the tables canonical. -/
theorem landLines_wf {t : Tiles} (x : Nat) (h : Safety.TilesWf t) : Safety.TilesWf (t.landLines x) := by
  have k : ∀ (l : List LineWrite) (t : Tiles), Safety.TilesWf t → Safety.TilesWf (l.foldl Tiles.landLine t) := by
    intro l
    induction l with
    | nil => exact fun _ h => h
    | cons w l ih =>
      exact fun t h => ih _ ⟨tabWf_tabPut _ _ _ _ h.1, tabWf_tabPut _ _ _ _ h.2.1, h.2.2⟩
  have m := k (t.lines.filter (fun w => decide (w.at_ ≤ x))) t h
  exact ⟨m.1, m.2.1, m.2.2.1, m.2.2.2.1, m.2.2.2.2.1, m.2.2.2.2.2.1, m.2.2.2.2.2.2.1, m.2.2.2.2.2.2.2.1,
    h.2.2.2.2.2.2.2.2.filter _⟩

theorem dropFlights_wf {t : Tiles} (x : Nat) (h : Safety.TilesWf t) : Safety.TilesWf (t.dropFlights x) := by
  have m := landLines_wf x h
  exact ⟨m.1, m.2.1, m.2.2.1, m.2.2.2.1, m.2.2.2.2.1, m.2.2.2.2.2.1, m.2.2.2.2.2.2.1, m.2.2.2.2.2.2.2.1, .nil⟩

theorem dropTick_wf {t : Tiles} (h : Safety.TilesWf t) : Safety.TilesWf t.dropTick :=
  ⟨h.1, h.2.1, h.2.2.1, tabWf_nil _, tabWf_nil _, tabWf_nil _, tabWf_nil _, tabWf_nil _, h.2.2.2.2.2.2.2.2⟩

theorem wrN_keeps {s0 : State} : ∀ (n : Nat) {s : State} (a v : Nat), Keeps s0 s → Keeps s0 (State.wrN s a n v)
  | 0, _, _, _, h => h
  | n + 1, _, a, v, h => wrN_keeps n (a + 1) (v / 256) (wr8_keeps a _ h)

theorem wrBytes_keeps {s0 : State} : ∀ (l : List Byte) {s : State} (a : Nat), Keeps s0 s → Keeps s0 (State.wrBytes s a l)
  | [], _, _, h => h
  | b :: l, _, a, h => wrBytes_keeps l (a + 1) (wr8_keeps a b h)

theorem zero_keeps {s0 s : State} (a b : Nat) (h : Keeps s0 s) : Keeps s0 (State.zero s a b) :=
  ⟨h.pending, h.now, fun i => ⟨⟨(h.inv i).1.1, tabWf_tabClear _ _ _ (h.inv i).1.2.1, (h.inv i).1.2.2⟩, (h.inv i).2⟩⟩

theorem clearRegs_keeps {s0 s : State} (p : Nat → FieldDesc → Bool) (h : Keeps s0 s) : Keeps s0 (State.clearRegs s p) :=
  ⟨h.pending, h.now, fun i => ⟨⟨tabWf_tabAdjust _ _ _ (h.inv i).1.1, (h.inv i).1.2⟩, (h.inv i).2⟩⟩

theorem live_keeps {s0 s : State} {t : State → State} (ht : ∀ s, Keeps s0 s → Keeps s0 (t s)) (h : Keeps s0 s) :
    Keeps s0 (State.live s t) := by
  unfold State.live
  split
  · exact ht s h
  · exact h

theorem atCycle_keeps {s0 s : State} {t : State → State} (c : Nat) (ht : ∀ s, Keeps s0 s → Keeps s0 (t s))
    (h : Keeps s0 s) : Keeps s0 (State.atCycle s c t) := by
  have k := ht { s with now := max s.now c } ⟨h.pending, Nat.le_trans h.now (Nat.le_max_left _ _), h.inv⟩
  exact ⟨k.pending, h.now, k.inv⟩

end Sys2Proof.Laws
end

