-- ==== Sys2Proof/Laws/KeepOps.lean ====
section
/-! SUPPORT. What the operations of Machine/Ops.lean keep. -/

namespace Sys2Proof.Laws

open Sys2Proof.Machine

theorem fadd_keeps {s0 : State} (s : State) (f : Fld) (n : Nat) (hk : Keeps s0 s) :
    Keeps s0 (State.fadd s f n) := by
  unfold State.fadd
  repeat (first
    | intro _
    | with_reducible exact hk
    | with_reducible assumption
    | with_reducible apply fset_keeps
    | dsimp only)

theorem record_keeps {s0 : State} (s : State) (valid : Fld) (fs : List (Fld × Nat)) (hk : Keeps s0 s) :
    Keeps s0 (State.record s valid fs) := by
  unfold State.record
  repeat (first
    | intro _
    | with_reducible exact hk
    | with_reducible assumption
    | with_reducible apply fsetAll_keeps
    | with_reducible apply fset_keeps
    | with_reducible apply Keeps.ite
    | split
    | dsimp only)

theorem emit_keeps {s0 : State} (s : State) (o : Out) (hk : Keeps s0 s) :
    Keeps s0 (State.emit s o) := by
  unfold State.emit
  repeat (first
    | intro _
    | (extract_lets +onlyGivenNames x; focus (refine (?_ : Keeps s0 x → _) ?_; rotate_left; dsimp only [x]; clear x; rotate_left; intro hx; clear_value x))
    | (extract_lets +onlyGivenNames x; focus (refine (?_ : Keeps s0 x.1 → _) ?_; rotate_left; dsimp only [x]; clear x; rotate_left; intro hx; clear_value x))
    | (extract_lets +onlyGivenNames x; clear_value x)
    | with_reducible exact hk
    | with_reducible assumption
    | with_reducible exact Keeps.upd (by with_reducible assumption)
    | (with_reducible refine Keeps.updLists (by with_reducible assumption) ?_ ?_ ?_ ?_ ?_ <;> first | rfl | exact Nat.le_refl _ | exact Nat.le_max_left _ _ | exact Nat.le_succ _ | exact modAt_length _ _ _ | exact List.length_map _)
    | fail_if_no_progress (with_reducible apply Keeps.upd)
    | fail_if_no_progress (with_reducible refine Keeps.updLists ?_ ?_ ?_ ?_ ?_ ?_; rotate_left; iterate 5 (first | rfl | exact Nat.le_refl _ | exact Nat.le_max_left _ _ | exact Nat.le_succ _ | exact modAt_length _ _ _ | exact List.length_map _))
    | dsimp only)

theorem drawn_keeps {s0 : State} (s : State) (hk : Keeps s0 s) :
    Keeps s0 (State.drawn s) := by
  unfold State.drawn
  repeat (first
    | intro _
    | (extract_lets +onlyGivenNames x; focus (refine (?_ : Keeps s0 x → _) ?_; rotate_left; dsimp only [x]; clear x; rotate_left; intro hx; clear_value x))
    | (extract_lets +onlyGivenNames x; focus (refine (?_ : Keeps s0 x.1 → _) ?_; rotate_left; dsimp only [x]; clear x; rotate_left; intro hx; clear_value x))
    | (extract_lets +onlyGivenNames x; clear_value x)
    | with_reducible exact hk
    | with_reducible assumption
    | with_reducible exact Keeps.upd (by with_reducible assumption)
    | (with_reducible refine Keeps.updLists (by with_reducible assumption) ?_ ?_ ?_ ?_ ?_ <;> first | rfl | exact Nat.le_refl _ | exact Nat.le_max_left _ _ | exact Nat.le_succ _ | exact modAt_length _ _ _ | exact List.length_map _)
    | fail_if_no_progress (with_reducible apply Keeps.upd)
    | fail_if_no_progress (with_reducible refine Keeps.updLists ?_ ?_ ?_ ?_ ?_ ?_; rotate_left; iterate 5 (first | rfl | exact Nat.le_refl _ | exact Nat.le_max_left _ _ | exact Nat.le_succ _ | exact modAt_length _ _ _ | exact List.length_map _))
    | dsimp only)

theorem setCtx_keeps {s0 : State} (s : State) (c : Nat) (f : Ctx → Ctx) (hk : Keeps s0 s) :
    Keeps s0 (State.setCtx s c f) := by
  unfold State.setCtx
  repeat (first
    | intro _
    | (extract_lets +onlyGivenNames x; focus (refine (?_ : Keeps s0 x → _) ?_; rotate_left; dsimp only [x]; clear x; rotate_left; intro hx; clear_value x))
    | (extract_lets +onlyGivenNames x; focus (refine (?_ : Keeps s0 x.1 → _) ?_; rotate_left; dsimp only [x]; clear x; rotate_left; intro hx; clear_value x))
    | (extract_lets +onlyGivenNames x; clear_value x)
    | with_reducible exact hk
    | with_reducible assumption
    | with_reducible exact Keeps.upd (by with_reducible assumption)
    | (with_reducible refine Keeps.updLists (by with_reducible assumption) ?_ ?_ ?_ ?_ ?_ <;> first | rfl | exact Nat.le_refl _ | exact Nat.le_max_left _ _ | exact Nat.le_succ _ | exact modAt_length _ _ _ | exact List.length_map _)
    | fail_if_no_progress (with_reducible apply Keeps.upd)
    | fail_if_no_progress (with_reducible refine Keeps.updLists ?_ ?_ ?_ ?_ ?_ ?_; rotate_left; iterate 5 (first | rfl | exact Nat.le_refl _ | exact Nat.le_max_left _ _ | exact Nat.le_succ _ | exact modAt_length _ _ _ | exact List.length_map _))
    | dsimp only)

theorem withRun_keeps {s0 : State} (s : State) (f : TickRun → TickRun) (hk : Keeps s0 s) :
    Keeps s0 (State.withRun s f) := by
  unfold State.withRun
  repeat (first
    | intro _
    | (extract_lets +onlyGivenNames x; focus (refine (?_ : Keeps s0 x → _) ?_; rotate_left; dsimp only [x]; clear x; rotate_left; intro hx; clear_value x))
    | (extract_lets +onlyGivenNames x; focus (refine (?_ : Keeps s0 x.1 → _) ?_; rotate_left; dsimp only [x]; clear x; rotate_left; intro hx; clear_value x))
    | (extract_lets +onlyGivenNames x; clear_value x)
    | with_reducible exact hk
    | with_reducible assumption
    | with_reducible exact Keeps.upd (by with_reducible assumption)
    | (with_reducible refine Keeps.updLists (by with_reducible assumption) ?_ ?_ ?_ ?_ ?_ <;> first | rfl | exact Nat.le_refl _ | exact Nat.le_max_left _ _ | exact Nat.le_succ _ | exact modAt_length _ _ _ | exact List.length_map _)
    | fail_if_no_progress (with_reducible apply Keeps.upd)
    | fail_if_no_progress (with_reducible refine Keeps.updLists ?_ ?_ ?_ ?_ ?_ ?_; rotate_left; iterate 5 (first | rfl | exact Nat.le_refl _ | exact Nat.le_max_left _ _ | exact Nat.le_succ _ | exact modAt_length _ _ _ | exact List.length_map _))
    | dsimp only)

theorem withJob_keeps {s0 : State} (s : State) (f : JobRun → JobRun) (hk : Keeps s0 s) :
    Keeps s0 (State.withJob s f) := by
  unfold State.withJob
  repeat (first
    | intro _
    | (extract_lets +onlyGivenNames x; focus (refine (?_ : Keeps s0 x → _) ?_; rotate_left; dsimp only [x]; clear x; rotate_left; intro hx; clear_value x))
    | (extract_lets +onlyGivenNames x; focus (refine (?_ : Keeps s0 x.1 → _) ?_; rotate_left; dsimp only [x]; clear x; rotate_left; intro hx; clear_value x))
    | (extract_lets +onlyGivenNames x; clear_value x)
    | with_reducible exact hk
    | with_reducible assumption
    | with_reducible exact Keeps.upd (by with_reducible assumption)
    | (with_reducible refine Keeps.updLists (by with_reducible assumption) ?_ ?_ ?_ ?_ ?_ <;> first | rfl | exact Nat.le_refl _ | exact Nat.le_max_left _ _ | exact Nat.le_succ _ | exact modAt_length _ _ _ | exact List.length_map _)
    | fail_if_no_progress (with_reducible apply Keeps.upd)
    | fail_if_no_progress (with_reducible refine Keeps.updLists ?_ ?_ ?_ ?_ ?_ ?_; rotate_left; iterate 5 (first | rfl | exact Nat.le_refl _ | exact Nat.le_max_left _ _ | exact Nat.le_succ _ | exact modAt_length _ _ _ | exact List.length_map _))
    | dsimp only)

theorem withPower_keeps {s0 : State} (s : State) (f : PowerSt → PowerSt) (hk : Keeps s0 s) :
    Keeps s0 (State.withPower s f) := by
  unfold State.withPower
  repeat (first
    | intro _
    | (extract_lets +onlyGivenNames x; focus (refine (?_ : Keeps s0 x → _) ?_; rotate_left; dsimp only [x]; clear x; rotate_left; intro hx; clear_value x))
    | (extract_lets +onlyGivenNames x; focus (refine (?_ : Keeps s0 x.1 → _) ?_; rotate_left; dsimp only [x]; clear x; rotate_left; intro hx; clear_value x))
    | (extract_lets +onlyGivenNames x; clear_value x)
    | with_reducible exact hk
    | with_reducible assumption
    | with_reducible exact Keeps.upd (by with_reducible assumption)
    | (with_reducible refine Keeps.updLists (by with_reducible assumption) ?_ ?_ ?_ ?_ ?_ <;> first | rfl | exact Nat.le_refl _ | exact Nat.le_max_left _ _ | exact Nat.le_succ _ | exact modAt_length _ _ _ | exact List.length_map _)
    | fail_if_no_progress (with_reducible apply Keeps.upd)
    | fail_if_no_progress (with_reducible refine Keeps.updLists ?_ ?_ ?_ ?_ ?_ ?_; rotate_left; iterate 5 (first | rfl | exact Nat.le_refl _ | exact Nat.le_max_left _ _ | exact Nat.le_succ _ | exact modAt_length _ _ _ | exact List.length_map _))
    | dsimp only)

end Sys2Proof.Laws
end

