-- ==== Sys2Proof/Laws/KeepFlags.lean ====
section
/-! SUPPORT. What the operations of Machine/Flags.lean keep. -/

namespace Sys2Proof.Laws

open Sys2Proof.Machine

theorem msix_keeps {s0 : State} (s : State) (fn vec : Nat) (hk : Keeps s0 s) :
    Keeps s0 (State.msix s fn vec) := by
  unfold State.msix
  repeat (first
    | intro _
    | (extract_lets +onlyGivenNames x; focus (refine (?_ : Keeps s0 x → _) ?_; rotate_left; dsimp only [x]; clear x; rotate_left; intro hx; clear_value x))
    | (extract_lets +onlyGivenNames x; focus (refine (?_ : Keeps s0 x.1 → _) ?_; rotate_left; dsimp only [x]; clear x; rotate_left; intro hx; clear_value x))
    | (extract_lets +onlyGivenNames x; clear_value x)
    | with_reducible exact hk
    | with_reducible assumption
    | with_reducible apply emit_keeps
    | with_reducible exact Keeps.upd (by with_reducible assumption)
    | (with_reducible refine Keeps.updLists (by with_reducible assumption) ?_ ?_ ?_ ?_ ?_ <;> first | rfl | exact Nat.le_refl _ | exact Nat.le_max_left _ _ | exact Nat.le_succ _ | exact modAt_length _ _ _ | exact List.length_map _)
    | fail_if_no_progress (with_reducible apply Keeps.upd)
    | fail_if_no_progress (with_reducible refine Keeps.updLists ?_ ?_ ?_ ?_ ?_ ?_; rotate_left; iterate 5 (first | rfl | exact Nat.le_refl _ | exact Nat.le_max_left _ _ | exact Nat.le_succ _ | exact modAt_length _ _ _ | exact List.length_map _))
    | split
    | dsimp only)

theorem irqEdge_keeps {s0 : State} (before after : State) (p : Nat) (hk : Keeps s0 after) :
    Keeps s0 (State.irqEdge before after p) := by
  unfold State.irqEdge
  repeat (first
    | intro _
    | with_reducible exact hk
    | with_reducible assumption
    | with_reducible apply msix_keeps
    | with_reducible apply Keeps.ite
    | split
    | dsimp only)

theorem setSts_keeps {s0 : State} (s : State) (p : Nat) (f : Fld) (hk : Keeps s0 s) :
    Keeps s0 (State.setSts s p f) := by
  unfold State.setSts
  repeat (first
    | intro _
    | with_reducible exact hk
    | with_reducible assumption
    | with_reducible apply irqEdge_keeps
    | with_reducible apply fset_keeps
    | dsimp only)

theorem setFifo_keeps {s0 : State} (s : State) (f : Nat) (g : Fifo → Fifo) (hk : Keeps s0 s) :
    Keeps s0 (State.setFifo s f g) := by
  unfold State.setFifo
  repeat (first
    | intro _
    | (extract_lets +onlyGivenNames x; focus (refine (?_ : Keeps s0 x → _) ?_; rotate_left; dsimp only [x]; clear x; rotate_left; intro hx; clear_value x))
    | (extract_lets +onlyGivenNames x; focus (refine (?_ : Keeps s0 x.1 → _) ?_; rotate_left; dsimp only [x]; clear x; rotate_left; intro hx; clear_value x))
    | (extract_lets +onlyGivenNames x; clear_value x)
    | with_reducible exact hk
    | with_reducible assumption
    | with_reducible exact Keeps.upd (by with_reducible assumption)
    | (with_reducible refine Keeps.updLists (by with_reducible assumption) ?_ ?_ ?_ ?_ ?_ <;> first | rfl | exact Nat.le_refl _ | exact Nat.le_max_left _ _ | exact Nat.le_succ _ | exact modAt_length _ _ _ | exact List.length_map _)
    | fail_if_no_progress (with_reducible apply Keeps.upd)
    | fail_if_no_progress (with_reducible refine Keeps.updLists ?_ ?_ ?_ ?_ ?_ ?_; rotate_left; iterate 5 (first | rfl | exact Nat.le_refl _ | exact Nat.le_max_left _ _ | exact Nat.le_succ _ | exact modAt_length _ _ _ | exact List.length_map _))
    | dsimp only)

theorem post_keeps {s0 : State} (s : State) (f : Nat) (ws : List (BitVec 512)) (hk : Keeps s0 s) :
    Keeps s0 (State.post s f ws) := by
  unfold State.post
  repeat (first
    | intro _
    | (extract_lets +onlyGivenNames x; focus (refine (?_ : Keeps s0 x → _) ?_; rotate_left; dsimp only [x]; clear x; rotate_left; intro hx; clear_value x))
    | (extract_lets +onlyGivenNames x; focus (refine (?_ : Keeps s0 x.1 → _) ?_; rotate_left; dsimp only [x]; clear x; rotate_left; intro hx; clear_value x))
    | (extract_lets +onlyGivenNames x; clear_value x)
    | with_reducible exact hk
    | with_reducible assumption
    | with_reducible apply setFifo_keeps
    | with_reducible apply irqEdge_keeps
    | with_reducible apply fadd_keeps
    | with_reducible apply fset_keeps
    | with_reducible apply Keeps.ite
    | with_reducible exact Keeps.upd (by with_reducible assumption)
    | (with_reducible refine Keeps.updLists (by with_reducible assumption) ?_ ?_ ?_ ?_ ?_ <;> first | rfl | exact Nat.le_refl _ | exact Nat.le_max_left _ _ | exact Nat.le_succ _ | exact modAt_length _ _ _ | exact List.length_map _)
    | fail_if_no_progress (with_reducible apply Keeps.upd)
    | fail_if_no_progress (with_reducible refine Keeps.updLists ?_ ?_ ?_ ?_ ?_ ?_; rotate_left; iterate 5 (first | rfl | exact Nat.le_refl _ | exact Nat.le_max_left _ _ | exact Nat.le_succ _ | exact modAt_length _ _ _ | exact List.length_map _))
    | split
    | dsimp only)

theorem event_keeps {s0 : State} (s : State) (typ ctx : Nat) (payload : List Nat) (hk : Keeps s0 s) :
    Keeps s0 (State.event s typ ctx payload) := by
  unfold State.event
  repeat (first
    | intro _
    | (extract_lets +onlyGivenNames x; focus (refine (?_ : Keeps s0 x → _) ?_; rotate_left; dsimp only [x]; clear x; rotate_left; intro hx; clear_value x))
    | (extract_lets +onlyGivenNames x; focus (refine (?_ : Keeps s0 x.1 → _) ?_; rotate_left; dsimp only [x]; clear x; rotate_left; intro hx; clear_value x))
    | (extract_lets +onlyGivenNames x; clear_value x)
    | with_reducible exact hk
    | with_reducible assumption
    | with_reducible apply setFifo_keeps
    | with_reducible apply post_keeps
    | with_reducible apply Keeps.ite
    | with_reducible exact Keeps.upd (by with_reducible assumption)
    | (with_reducible refine Keeps.updLists (by with_reducible assumption) ?_ ?_ ?_ ?_ ?_ <;> first | rfl | exact Nat.le_refl _ | exact Nat.le_max_left _ _ | exact Nat.le_succ _ | exact modAt_length _ _ _ | exact List.length_map _)
    | fail_if_no_progress (with_reducible apply Keeps.upd)
    | fail_if_no_progress (with_reducible refine Keeps.updLists ?_ ?_ ?_ ?_ ?_ ?_; rotate_left; iterate 5 (first | rfl | exact Nat.le_refl _ | exact Nat.le_max_left _ _ | exact Nat.le_succ _ | exact modAt_length _ _ _ | exact List.length_map _))
    | split
    | dsimp only)

theorem reloadOver_keeps {s0 : State} (s : State) (hk : Keeps s0 s) :
    Keeps s0 (State.reloadOver s) := by
  unfold State.reloadOver
  repeat (first
    | intro _
    | (extract_lets +onlyGivenNames x; focus (refine (?_ : Keeps s0 x → _) ?_; rotate_left; dsimp only [x]; clear x; rotate_left; intro hx; clear_value x))
    | (extract_lets +onlyGivenNames x; focus (refine (?_ : Keeps s0 x.1 → _) ?_; rotate_left; dsimp only [x]; clear x; rotate_left; intro hx; clear_value x))
    | (extract_lets +onlyGivenNames x; focus (refine (?_ : Keeps s0 x.2 → _) ?_; rotate_left; dsimp only [x]; clear x; rotate_left; intro hx; clear_value x))
    | (extract_lets +onlyGivenNames x; clear_value x)
    | with_reducible exact hk
    | with_reducible assumption
    | with_reducible apply event_keeps
    | with_reducible apply withPower_keeps
    | with_reducible apply setFifo_keeps
    | (with_reducible apply Keeps.foldl; intro _ _ _)
    | (with_reducible apply Keeps.foldlFst; intro _ _ _)
    | with_reducible exact Keeps.upd (by with_reducible assumption)
    | (with_reducible refine Keeps.updLists (by with_reducible assumption) ?_ ?_ ?_ ?_ ?_ <;> first | rfl | exact Nat.le_refl _ | exact Nat.le_max_left _ _ | exact Nat.le_succ _ | exact modAt_length _ _ _ | exact List.length_map _)
    | fail_if_no_progress (with_reducible apply Keeps.upd)
    | fail_if_no_progress (with_reducible refine Keeps.updLists ?_ ?_ ?_ ?_ ?_ ?_; rotate_left; iterate 5 (first | rfl | exact Nat.le_refl _ | exact Nat.le_max_left _ _ | exact Nat.le_succ _ | exact modAt_length _ _ _ | exact List.length_map _))
    | dsimp only)

theorem trace_keeps {s0 : State} (s : State) (typ ctx : Nat) (payload : Nat) (hk : Keeps s0 s) :
    Keeps s0 (State.trace s typ ctx payload) := by
  unfold State.trace
  repeat (first
    | intro _
    | with_reducible exact hk
    | with_reducible assumption
    | with_reducible apply post_keeps
    | dsimp only)

theorem capTrigger_keeps {s0 : State} (s : State) (cycle src : Nat) (hk : Keeps s0 s) :
    Keeps s0 (State.capTrigger s cycle src) := by
  unfold State.capTrigger
  repeat (first
    | intro _
    | (extract_lets +onlyGivenNames x; focus (refine (?_ : Keeps s0 x → _) ?_; rotate_left; dsimp only [x]; clear x; rotate_left; intro hx; clear_value x))
    | (extract_lets +onlyGivenNames x; focus (refine (?_ : Keeps s0 x.1 → _) ?_; rotate_left; dsimp only [x]; clear x; rotate_left; intro hx; clear_value x))
    | (extract_lets +onlyGivenNames x; clear_value x)
    | with_reducible exact hk
    | with_reducible assumption
    | with_reducible apply fadd_keeps
    | with_reducible apply setSts_keeps
    | with_reducible apply Keeps.ite
    | with_reducible exact Keeps.upd (by with_reducible assumption)
    | (with_reducible refine Keeps.updLists (by with_reducible assumption) ?_ ?_ ?_ ?_ ?_ <;> first | rfl | exact Nat.le_refl _ | exact Nat.le_max_left _ _ | exact Nat.le_succ _ | exact modAt_length _ _ _ | exact List.length_map _)
    | fail_if_no_progress (with_reducible apply Keeps.upd)
    | fail_if_no_progress (with_reducible refine Keeps.updLists ?_ ?_ ?_ ?_ ?_ ?_; rotate_left; iterate 5 (first | rfl | exact Nat.le_refl _ | exact Nat.le_max_left _ _ | exact Nat.le_succ _ | exact modAt_length _ _ _ | exact List.length_map _))
    | split
    | dsimp only)

theorem capFault_keeps {s0 : State} (s : State) (cls : Nat) (hk : Keeps s0 s) :
    Keeps s0 (State.capFault s cls) := by
  unfold State.capFault
  repeat (first
    | intro _
    | with_reducible exact hk
    | with_reducible assumption
    | with_reducible apply capTrigger_keeps
    | with_reducible apply Keeps.ite
    | split
    | dsimp only)

theorem traceAB_keeps {s0 : State} (s : State) (cls p : Nat) (f : Fld) (hk : Keeps s0 s) :
    Keeps s0 (State.traceAB s cls p f) := by
  unfold State.traceAB
  repeat (first
    | intro _
    | with_reducible exact hk
    | with_reducible assumption
    | with_reducible apply trace_keeps
    | with_reducible apply Keeps.ite
    | split
    | dsimp only)

theorem classA_keeps {s0 : State} (s : State) (hk : Keeps s0 s) :
    Keeps s0 (State.classA s) := by
  unfold State.classA
  repeat (first
    | intro _
    | with_reducible exact hk
    | with_reducible assumption
    | with_reducible apply capFault_keeps
    | dsimp only)

theorem classASts_keeps {s0 : State} (s : State) (p : Nat) (f : Fld) (hk : Keeps s0 s) :
    Keeps s0 (State.classASts s p f) := by
  unfold State.classASts
  repeat (first
    | intro _
    | with_reducible exact hk
    | with_reducible assumption
    | with_reducible apply setSts_keeps
    | with_reducible apply traceAB_keeps
    | with_reducible apply capFault_keeps
    | dsimp only)

theorem markB_keeps {s0 : State} (s : State) (hk : Keeps s0 s) :
    Keeps s0 (State.markB s) := by
  unfold State.markB
  repeat (first
    | intro _
    | (extract_lets +onlyGivenNames x; focus (refine (?_ : Keeps s0 x → _) ?_; rotate_left; dsimp only [x]; clear x; rotate_left; intro hx; clear_value x))
    | (extract_lets +onlyGivenNames x; focus (refine (?_ : Keeps s0 x.1 → _) ?_; rotate_left; dsimp only [x]; clear x; rotate_left; intro hx; clear_value x))
    | (extract_lets +onlyGivenNames x; clear_value x)
    | with_reducible exact hk
    | with_reducible assumption
    | with_reducible apply withRun_keeps
    | with_reducible apply Keeps.ite
    | with_reducible exact Keeps.upd (by with_reducible assumption)
    | (with_reducible refine Keeps.updLists (by with_reducible assumption) ?_ ?_ ?_ ?_ ?_ <;> first | rfl | exact Nat.le_refl _ | exact Nat.le_max_left _ _ | exact Nat.le_succ _ | exact modAt_length _ _ _ | exact List.length_map _)
    | fail_if_no_progress (with_reducible apply Keeps.upd)
    | fail_if_no_progress (with_reducible refine Keeps.updLists ?_ ?_ ?_ ?_ ?_ ?_; rotate_left; iterate 5 (first | rfl | exact Nat.le_refl _ | exact Nat.le_max_left _ _ | exact Nat.le_succ _ | exact modAt_length _ _ _ | exact List.length_map _))
    | split
    | dsimp only)

theorem markC_keeps {s0 : State} (s : State) (hk : Keeps s0 s) :
    Keeps s0 (State.markC s) := by
  unfold State.markC
  repeat (first
    | intro _
    | (extract_lets +onlyGivenNames x; focus (refine (?_ : Keeps s0 x → _) ?_; rotate_left; dsimp only [x]; clear x; rotate_left; intro hx; clear_value x))
    | (extract_lets +onlyGivenNames x; focus (refine (?_ : Keeps s0 x.1 → _) ?_; rotate_left; dsimp only [x]; clear x; rotate_left; intro hx; clear_value x))
    | (extract_lets +onlyGivenNames x; clear_value x)
    | with_reducible exact hk
    | with_reducible assumption
    | with_reducible apply withRun_keeps
    | with_reducible apply Keeps.ite
    | with_reducible exact Keeps.upd (by with_reducible assumption)
    | (with_reducible refine Keeps.updLists (by with_reducible assumption) ?_ ?_ ?_ ?_ ?_ <;> first | rfl | exact Nat.le_refl _ | exact Nat.le_max_left _ _ | exact Nat.le_succ _ | exact modAt_length _ _ _ | exact List.length_map _)
    | fail_if_no_progress (with_reducible apply Keeps.upd)
    | fail_if_no_progress (with_reducible refine Keeps.updLists ?_ ?_ ?_ ?_ ?_ ?_; rotate_left; iterate 5 (first | rfl | exact Nat.le_refl _ | exact Nat.le_max_left _ _ | exact Nat.le_succ _ | exact modAt_length _ _ _ | exact List.length_map _))
    | split
    | dsimp only)

theorem classB_keeps {s0 : State} (s : State) (hk : Keeps s0 s) :
    Keeps s0 (State.classB s) := by
  unfold State.classB
  repeat (first
    | intro _
    | with_reducible exact hk
    | with_reducible assumption
    | with_reducible apply markB_keeps
    | with_reducible apply capFault_keeps
    | dsimp only)

theorem classBSts_keeps {s0 : State} (s : State) (p : Nat) (f : Fld) (hk : Keeps s0 s) :
    Keeps s0 (State.classBSts s p f) := by
  unfold State.classBSts
  repeat (first
    | intro _
    | with_reducible exact hk
    | with_reducible assumption
    | with_reducible apply setSts_keeps
    | with_reducible apply traceAB_keeps
    | with_reducible apply classB_keeps
    | dsimp only)

theorem attendStart_keeps {s0 : State} (s : State) (p : Nat) (f : Fld) (cause fifo : Nat) (hk : Keeps s0 s) :
    Keeps s0 (State.attendStart s p f cause fifo) := by
  unfold State.attendStart
  repeat (first
    | intro _
    | (extract_lets +onlyGivenNames x; focus (refine (?_ : Keeps s0 x → _) ?_; rotate_left; dsimp only [x]; clear x; rotate_left; intro hx; clear_value x))
    | (extract_lets +onlyGivenNames x; focus (refine (?_ : Keeps s0 x.1 → _) ?_; rotate_left; dsimp only [x]; clear x; rotate_left; intro hx; clear_value x))
    | (extract_lets +onlyGivenNames x; clear_value x)
    | with_reducible exact hk
    | with_reducible assumption
    | with_reducible apply Keeps.ite
    | with_reducible exact Keeps.upd (by with_reducible assumption)
    | (with_reducible refine Keeps.updLists (by with_reducible assumption) ?_ ?_ ?_ ?_ ?_ <;> first | rfl | exact Nat.le_refl _ | exact Nat.le_max_left _ _ | exact Nat.le_succ _ | exact modAt_length _ _ _ | exact List.length_map _)
    | fail_if_no_progress (with_reducible apply Keeps.upd)
    | fail_if_no_progress (with_reducible refine Keeps.updLists ?_ ?_ ?_ ?_ ?_ ?_; rotate_left; iterate 5 (first | rfl | exact Nat.le_refl _ | exact Nat.le_max_left _ _ | exact Nat.le_succ _ | exact modAt_length _ _ _ | exact List.length_map _))
    | split
    | dsimp only)

theorem faultEvent_keeps {s0 : State} (s : State) (cls p : Nat) (off bit : Nat) (hk : Keeps s0 s) :
    Keeps s0 (State.faultEvent s cls p off bit) := by
  unfold State.faultEvent
  repeat (first
    | intro _
    | with_reducible exact hk
    | with_reducible assumption
    | with_reducible apply event_keeps
    | dsimp only)

theorem classCWith_keeps {s0 : State} (s : State) (p : Nat) (f : Fld) (cause fifo : Nat) (hk : Keeps s0 s) :
    Keeps s0 (State.classCWith s p f cause fifo) := by
  unfold State.classCWith
  repeat (first
    | intro _
    | with_reducible exact hk
    | with_reducible assumption
    | with_reducible apply setSts_keeps
    | with_reducible apply faultEvent_keeps
    | with_reducible apply attendStart_keeps
    | with_reducible apply markC_keeps
    | with_reducible apply fadd_keeps
    | with_reducible apply capFault_keeps
    | dsimp only)

theorem classC_keeps {s0 : State} (s : State) (p : Nat) (f : Fld) (hk : Keeps s0 s) :
    Keeps s0 (State.classC s p f) := by
  unfold State.classC
  repeat (first
    | intro _
    | with_reducible exact hk
    | with_reducible assumption
    | with_reducible apply classCWith_keeps
    | dsimp only)

theorem setNonfinite_keeps {s0 : State} (s : State) (p : Nat) (hk : Keeps s0 s) :
    Keeps s0 (State.setNonfinite s p) := by
  unfold State.setNonfinite
  repeat (first
    | intro _
    | (extract_lets +onlyGivenNames x; focus (refine (?_ : Keeps s0 x → _) ?_; rotate_left; dsimp only [x]; clear x; rotate_left; intro hx; clear_value x))
    | (extract_lets +onlyGivenNames x; focus (refine (?_ : Keeps s0 x.1 → _) ?_; rotate_left; dsimp only [x]; clear x; rotate_left; intro hx; clear_value x))
    | (extract_lets +onlyGivenNames x; clear_value x)
    | with_reducible exact hk
    | with_reducible assumption
    | with_reducible apply withRun_keeps
    | with_reducible apply record_keeps
    | with_reducible apply setSts_keeps
    | with_reducible apply Keeps.ite
    | with_reducible exact Keeps.upd (by with_reducible assumption)
    | (with_reducible refine Keeps.updLists (by with_reducible assumption) ?_ ?_ ?_ ?_ ?_ <;> first | rfl | exact Nat.le_refl _ | exact Nat.le_max_left _ _ | exact Nat.le_succ _ | exact modAt_length _ _ _ | exact List.length_map _)
    | fail_if_no_progress (with_reducible apply Keeps.upd)
    | fail_if_no_progress (with_reducible refine Keeps.updLists ?_ ?_ ?_ ?_ ?_ ?_; rotate_left; iterate 5 (first | rfl | exact Nat.le_refl _ | exact Nat.le_max_left _ _ | exact Nat.le_succ _ | exact modAt_length _ _ _ | exact List.length_map _))
    | split
    | dsimp only)

end Sys2Proof.Laws
end

