-- ==== Sys2Proof/Laws/KeepOperands.lean ====
section
/-! SUPPORT. What the operations of Machine/Operands.lean keep. -/

namespace Sys2Proof.Laws

open Sys2Proof.Machine

theorem setOpBits_keeps {s0 : State} (s : State) (n l lo wd v tag x : Nat) (hk : Keeps s0 s) :
    Keeps s0 (State.setOpBits s n l lo wd v tag x) := by
  unfold State.setOpBits
  repeat (first
    | intro _
    | ((with_reducible refine withTiles_keeps (fun t h => ?_) ?_); focus (have k := h; obtain ⟨h1, h2, h3, h4, h5, h6, h7, h8, h9⟩ := h; refine ⟨?_, ?_, ?_, ?_, ?_, ?_, ?_, ?_, ?_⟩ <;> first | with_reducible exact h9 | exact (insLine_sorted _ _ h9).1 | with_reducible exact h1 | with_reducible exact h2 | with_reducible exact h3 | with_reducible exact h4 | with_reducible exact h5 | with_reducible exact h6 | with_reducible exact h7 | with_reducible exact h8 | with_reducible exact tabWf_tabPut _ _ _ _ h1 | with_reducible exact tabWf_tabPut _ _ _ _ h2 | with_reducible exact tabWf_tabPut _ _ _ _ h3 | with_reducible exact tabWf_tabPut _ _ _ _ h4 | with_reducible exact tabWf_tabPut _ _ _ _ h5 | with_reducible exact tabWf_tabPut _ _ _ _ h6 | with_reducible exact tabWf_tabPut _ _ _ _ h7 | with_reducible exact tabWf_tabPut _ _ _ _ h8 | with_reducible exact tabWf_nil _ | exact List.Pairwise.nil))
    | (extract_lets +onlyGivenNames x; focus (refine (?_ : Keeps s0 x → _) ?_; rotate_left; dsimp only [x]; clear x; rotate_left; intro hx; clear_value x))
    | (extract_lets +onlyGivenNames x; focus (refine (?_ : Keeps s0 x.1 → _) ?_; rotate_left; dsimp only [x]; clear x; rotate_left; intro hx; clear_value x))
    | (extract_lets +onlyGivenNames x; clear_value x)
    | with_reducible exact hk
    | with_reducible assumption
    | with_reducible exact Keeps.upd (by with_reducible assumption)
    | (with_reducible refine Keeps.updLists (by with_reducible assumption) ?_ ?_ ?_ ?_ ?_ <;> first | rfl | exact Nat.le_refl _ | exact Nat.le_max_left _ _ | exact Nat.le_succ _ | exact modAt_length _ _ _ | exact List.length_map _)
    | fail_if_no_progress (with_reducible apply Keeps.upd)
    | fail_if_no_progress (with_reducible refine Keeps.updLists ?_ ?_ ?_ ?_ ?_ ?_; rotate_left; iterate 5 (first | rfl | exact Nat.le_refl _ | exact Nat.le_max_left _ _ | exact Nat.le_succ _ | exact modAt_length _ _ _ | exact List.length_map _))
    | dsimp only)

theorem setOpLine_keeps {s0 : State} (s : State) (n l : Nat) (v : Granule) (tag x : Nat) (hk : Keeps s0 s) :
    Keeps s0 (State.setOpLine s n l v tag x) := by
  unfold State.setOpLine
  repeat (first
    | intro _
    | with_reducible exact hk
    | with_reducible assumption
    | with_reducible apply setOpBits_keeps
    | dsimp only)

theorem setAccEl_keeps {s0 : State} (s : State) (n a r c v x : Nat) (hk : Keeps s0 s) :
    Keeps s0 (State.setAccEl s n a r c v x) := by
  unfold State.setAccEl
  repeat (first
    | intro _
    | ((with_reducible refine withTiles_keeps (fun t h => ?_) ?_); focus (have k := h; obtain ⟨h1, h2, h3, h4, h5, h6, h7, h8, h9⟩ := h; refine ⟨?_, ?_, ?_, ?_, ?_, ?_, ?_, ?_, ?_⟩ <;> first | with_reducible exact h9 | exact (insLine_sorted _ _ h9).1 | with_reducible exact h1 | with_reducible exact h2 | with_reducible exact h3 | with_reducible exact h4 | with_reducible exact h5 | with_reducible exact h6 | with_reducible exact h7 | with_reducible exact h8 | with_reducible exact tabWf_tabPut _ _ _ _ h1 | with_reducible exact tabWf_tabPut _ _ _ _ h2 | with_reducible exact tabWf_tabPut _ _ _ _ h3 | with_reducible exact tabWf_tabPut _ _ _ _ h4 | with_reducible exact tabWf_tabPut _ _ _ _ h5 | with_reducible exact tabWf_tabPut _ _ _ _ h6 | with_reducible exact tabWf_tabPut _ _ _ _ h7 | with_reducible exact tabWf_tabPut _ _ _ _ h8 | with_reducible exact tabWf_nil _ | exact List.Pairwise.nil))
    | (extract_lets +onlyGivenNames x; focus (refine (?_ : Keeps s0 x → _) ?_; rotate_left; dsimp only [x]; clear x; rotate_left; intro hx; clear_value x))
    | (extract_lets +onlyGivenNames x; focus (refine (?_ : Keeps s0 x.1 → _) ?_; rotate_left; dsimp only [x]; clear x; rotate_left; intro hx; clear_value x))
    | (extract_lets +onlyGivenNames x; clear_value x)
    | with_reducible exact hk
    | with_reducible assumption
    | with_reducible apply Keeps.ite
    | with_reducible exact Keeps.upd (by with_reducible assumption)
    | (with_reducible refine Keeps.updLists (by with_reducible assumption) ?_ ?_ ?_ ?_ ?_ <;> first | rfl | exact Nat.le_refl _ | exact Nat.le_max_left _ _ | exact Nat.le_succ _ | exact modAt_length _ _ _ | exact List.length_map _)
    | fail_if_no_progress (with_reducible apply Keeps.upd)
    | fail_if_no_progress (with_reducible refine Keeps.updLists ?_ ?_ ?_ ?_ ?_ ?_; rotate_left; iterate 5 (first | rfl | exact Nat.le_refl _ | exact Nat.le_max_left _ _ | exact Nat.le_succ _ | exact modAt_length _ _ _ | exact List.length_map _))
    | split
    | dsimp only)

theorem accSweep_keeps {s0 : State} (s : State) (hk : Keeps s0 s) :
    Keeps s0 (State.accSweep s) := by
  unfold State.accSweep
  repeat (first
    | intro _
    | ((with_reducible refine withTiles_keeps (fun t h => ?_) ?_); focus (have k := h; obtain ⟨h1, h2, h3, h4, h5, h6, h7, h8, h9⟩ := h; refine ⟨?_, ?_, ?_, ?_, ?_, ?_, ?_, ?_, ?_⟩ <;> first | with_reducible exact h9 | exact (insLine_sorted _ _ h9).1 | with_reducible exact h1 | with_reducible exact h2 | with_reducible exact h3 | with_reducible exact h4 | with_reducible exact h5 | with_reducible exact h6 | with_reducible exact h7 | with_reducible exact h8 | with_reducible exact tabWf_tabPut _ _ _ _ h1 | with_reducible exact tabWf_tabPut _ _ _ _ h2 | with_reducible exact tabWf_tabPut _ _ _ _ h3 | with_reducible exact tabWf_tabPut _ _ _ _ h4 | with_reducible exact tabWf_tabPut _ _ _ _ h5 | with_reducible exact tabWf_tabPut _ _ _ _ h6 | with_reducible exact tabWf_tabPut _ _ _ _ h7 | with_reducible exact tabWf_tabPut _ _ _ _ h8 | with_reducible exact tabWf_nil _ | exact List.Pairwise.nil))
    | (extract_lets +onlyGivenNames x; focus (refine (?_ : Keeps s0 x → _) ?_; rotate_left; dsimp only [x]; clear x; rotate_left; intro hx; clear_value x))
    | (extract_lets +onlyGivenNames x; focus (refine (?_ : Keeps s0 x.1 → _) ?_; rotate_left; dsimp only [x]; clear x; rotate_left; intro hx; clear_value x))
    | (extract_lets +onlyGivenNames x; clear_value x)
    | with_reducible exact hk
    | with_reducible assumption
    | with_reducible exact Keeps.upd (by with_reducible assumption)
    | (with_reducible refine Keeps.updLists (by with_reducible assumption) ?_ ?_ ?_ ?_ ?_ <;> first | rfl | exact Nat.le_refl _ | exact Nat.le_max_left _ _ | exact Nat.le_succ _ | exact modAt_length _ _ _ | exact List.length_map _)
    | fail_if_no_progress (with_reducible apply Keeps.upd)
    | fail_if_no_progress (with_reducible refine Keeps.updLists ?_ ?_ ?_ ?_ ?_ ?_; rotate_left; iterate 5 (first | rfl | exact Nat.le_refl _ | exact Nat.le_max_left _ _ | exact Nat.le_succ _ | exact modAt_length _ _ _ | exact List.length_map _))
    | dsimp only)

theorem wrote_keeps {s0 : State} (s : State) (lo n x : Nat) (hk : Keeps s0 s) :
    Keeps s0 (State.wrote s lo n x) := by
  unfold State.wrote
  repeat (first
    | intro _
    | ((with_reducible refine withTiles_keeps (fun t h => ?_) ?_); focus (have k := h; obtain ⟨h1, h2, h3, h4, h5, h6, h7, h8, h9⟩ := h; refine ⟨?_, ?_, ?_, ?_, ?_, ?_, ?_, ?_, ?_⟩ <;> first | with_reducible exact h9 | exact (insLine_sorted _ _ h9).1 | with_reducible exact h1 | with_reducible exact h2 | with_reducible exact h3 | with_reducible exact h4 | with_reducible exact h5 | with_reducible exact h6 | with_reducible exact h7 | with_reducible exact h8 | with_reducible exact tabWf_tabPut _ _ _ _ h1 | with_reducible exact tabWf_tabPut _ _ _ _ h2 | with_reducible exact tabWf_tabPut _ _ _ _ h3 | with_reducible exact tabWf_tabPut _ _ _ _ h4 | with_reducible exact tabWf_tabPut _ _ _ _ h5 | with_reducible exact tabWf_tabPut _ _ _ _ h6 | with_reducible exact tabWf_tabPut _ _ _ _ h7 | with_reducible exact tabWf_tabPut _ _ _ _ h8 | with_reducible exact tabWf_nil _ | exact List.Pairwise.nil))
    | (extract_lets +onlyGivenNames x; focus (refine (?_ : Keeps s0 x → _) ?_; rotate_left; dsimp only [x]; clear x; rotate_left; intro hx; clear_value x))
    | (extract_lets +onlyGivenNames x; focus (refine (?_ : Keeps s0 x.1 → _) ?_; rotate_left; dsimp only [x]; clear x; rotate_left; intro hx; clear_value x))
    | (extract_lets +onlyGivenNames x; clear_value x)
    | with_reducible exact hk
    | with_reducible assumption
    | with_reducible exact Keeps.upd (by with_reducible assumption)
    | (with_reducible refine Keeps.updLists (by with_reducible assumption) ?_ ?_ ?_ ?_ ?_ <;> first | rfl | exact Nat.le_refl _ | exact Nat.le_max_left _ _ | exact Nat.le_succ _ | exact modAt_length _ _ _ | exact List.length_map _)
    | fail_if_no_progress (with_reducible apply Keeps.upd)
    | fail_if_no_progress (with_reducible refine Keeps.updLists ?_ ?_ ?_ ?_ ?_ ?_; rotate_left; iterate 5 (first | rfl | exact Nat.le_refl _ | exact Nat.le_max_left _ _ | exact Nat.le_succ _ | exact modAt_length _ _ _ | exact List.length_map _))
    | dsimp only)

theorem setAccMark_keeps {s0 : State} (s : State) (n a m : Nat) (hk : Keeps s0 s) :
    Keeps s0 (State.setAccMark s n a m) := by
  unfold State.setAccMark
  repeat (first
    | intro _
    | ((with_reducible refine withTiles_keeps (fun t h => ?_) ?_); focus (have k := h; obtain ⟨h1, h2, h3, h4, h5, h6, h7, h8, h9⟩ := h; refine ⟨?_, ?_, ?_, ?_, ?_, ?_, ?_, ?_, ?_⟩ <;> first | with_reducible exact h9 | exact (insLine_sorted _ _ h9).1 | with_reducible exact h1 | with_reducible exact h2 | with_reducible exact h3 | with_reducible exact h4 | with_reducible exact h5 | with_reducible exact h6 | with_reducible exact h7 | with_reducible exact h8 | with_reducible exact tabWf_tabPut _ _ _ _ h1 | with_reducible exact tabWf_tabPut _ _ _ _ h2 | with_reducible exact tabWf_tabPut _ _ _ _ h3 | with_reducible exact tabWf_tabPut _ _ _ _ h4 | with_reducible exact tabWf_tabPut _ _ _ _ h5 | with_reducible exact tabWf_tabPut _ _ _ _ h6 | with_reducible exact tabWf_tabPut _ _ _ _ h7 | with_reducible exact tabWf_tabPut _ _ _ _ h8 | with_reducible exact tabWf_nil _ | exact List.Pairwise.nil))
    | (extract_lets +onlyGivenNames x; focus (refine (?_ : Keeps s0 x → _) ?_; rotate_left; dsimp only [x]; clear x; rotate_left; intro hx; clear_value x))
    | (extract_lets +onlyGivenNames x; focus (refine (?_ : Keeps s0 x.1 → _) ?_; rotate_left; dsimp only [x]; clear x; rotate_left; intro hx; clear_value x))
    | (extract_lets +onlyGivenNames x; clear_value x)
    | with_reducible exact hk
    | with_reducible assumption
    | with_reducible exact Keeps.upd (by with_reducible assumption)
    | (with_reducible refine Keeps.updLists (by with_reducible assumption) ?_ ?_ ?_ ?_ ?_ <;> first | rfl | exact Nat.le_refl _ | exact Nat.le_max_left _ _ | exact Nat.le_succ _ | exact modAt_length _ _ _ | exact List.length_map _)
    | fail_if_no_progress (with_reducible apply Keeps.upd)
    | fail_if_no_progress (with_reducible refine Keeps.updLists ?_ ?_ ?_ ?_ ?_ ?_; rotate_left; iterate 5 (first | rfl | exact Nat.le_refl _ | exact Nat.le_max_left _ _ | exact Nat.le_succ _ | exact modAt_length _ _ _ | exact List.length_map _))
    | dsimp only)

theorem accMarkBit_keeps {s0 : State} (s : State) (n a b : Nat) (v : Bool) (hk : Keeps s0 s) :
    Keeps s0 (State.accMarkBit s n a b v) := by
  unfold State.accMarkBit
  repeat (first
    | intro _
    | with_reducible exact hk
    | with_reducible assumption
    | with_reducible apply setAccMark_keeps
    | with_reducible apply Keeps.ite
    | split
    | dsimp only)

theorem phaseTime_keeps {s0 : State} (s : State) (n p h k amount : Nat) (hk : Keeps s0 s) :
    Keeps s0 (State.phaseTime s n p h k amount) := by
  unfold State.phaseTime
  repeat (first
    | intro _
    | with_reducible exact hk
    | with_reducible assumption
    | with_reducible apply fadd_keeps
    | dsimp only)

theorem fmtShare_keeps {s0 : State} (s : State) (n src f h e amount : Nat) (hk : Keeps s0 s) :
    Keeps s0 (State.fmtShare s n src f h e amount) := by
  unfold State.fmtShare
  repeat (first
    | intro _
    | with_reducible exact hk
    | with_reducible assumption
    | with_reducible apply fadd_keeps
    | with_reducible apply Keeps.ite
    | split
    | dsimp only)

theorem item_keeps {s0 : State} (s : State) (w done fence : Nat) (hk : Keeps s0 s) :
    Keeps s0 (State.item s w done fence) := by
  unfold State.item
  repeat (first
    | intro _
    | (extract_lets +onlyGivenNames x; focus (refine (?_ : Keeps s0 x → _) ?_; rotate_left; dsimp only [x]; clear x; rotate_left; intro hx; clear_value x))
    | (extract_lets +onlyGivenNames x; focus (refine (?_ : Keeps s0 x.1 → _) ?_; rotate_left; dsimp only [x]; clear x; rotate_left; intro hx; clear_value x))
    | (extract_lets +onlyGivenNames x; clear_value x)
    | with_reducible exact hk
    | with_reducible assumption
    | with_reducible apply withRun_keeps
    | with_reducible exact Keeps.upd (by with_reducible assumption)
    | (with_reducible refine Keeps.updLists (by with_reducible assumption) ?_ ?_ ?_ ?_ ?_ <;> first | rfl | exact Nat.le_refl _ | exact Nat.le_max_left _ _ | exact Nat.le_succ _ | exact modAt_length _ _ _ | exact List.length_map _)
    | fail_if_no_progress (with_reducible apply Keeps.upd)
    | fail_if_no_progress (with_reducible refine Keeps.updLists ?_ ?_ ?_ ?_ ?_ ?_; rotate_left; iterate 5 (first | rfl | exact Nat.le_refl _ | exact Nat.le_max_left _ _ | exact Nat.le_succ _ | exact modAt_length _ _ _ | exact List.length_map _))
    | dsimp only)

theorem excFirst_keeps {s0 : State} (s : State) (n lpod acc seq block cause : Nat) (hk : Keeps s0 s) :
    Keeps s0 (State.excFirst s n lpod acc seq block cause) := by
  unfold State.excFirst
  repeat (first
    | intro _
    | with_reducible exact hk
    | with_reducible assumption
    | with_reducible apply record_keeps
    | dsimp only)

theorem tagInvalid_keeps {s0 : State} (s : State) (n a lpod fmt phase seq block cause : Nat) (hk : Keeps s0 s) :
    Keeps s0 (State.tagInvalid s n a lpod fmt phase seq block cause) := by
  unfold State.tagInvalid
  repeat (first
    | intro _
    | (extract_lets +onlyGivenNames x; focus (refine (?_ : Keeps s0 x → _) ?_; rotate_left; dsimp only [x]; clear x; rotate_left; intro hx; clear_value x))
    | (extract_lets +onlyGivenNames x; focus (refine (?_ : Keeps s0 x.1 → _) ?_; rotate_left; dsimp only [x]; clear x; rotate_left; intro hx; clear_value x))
    | (extract_lets +onlyGivenNames x; clear_value x)
    | with_reducible exact hk
    | with_reducible assumption
    | with_reducible apply accMarkBit_keeps
    | with_reducible apply fmtShare_keeps
    | with_reducible apply setSts_keeps
    | with_reducible apply excFirst_keeps
    | with_reducible apply setNonfinite_keeps
    | dsimp only)

theorem tagWord_keeps {s0 : State} (s : State) (n : Nat) (w : Word256) (seq : Nat) (hk : Keeps s0 s) :
    Keeps s0 (State.tagWord s n w seq) := by
  unfold State.tagWord
  repeat (first
    | intro _
    | with_reducible exact hk
    | with_reducible assumption
    | with_reducible apply tagInvalid_keeps
    | dsimp only)

theorem streamFaultAt_keeps {s0 : State} (s : State) (n : Nat) (w : Word256) (seq : Nat) (hk : Keeps s0 s) :
    Keeps s0 (State.streamFaultAt s n w seq) := by
  unfold State.streamFaultAt
  repeat (first
    | intro _
    | with_reducible exact hk
    | with_reducible assumption
    | with_reducible apply tagWord_keeps
    | with_reducible apply classC_keeps
    | dsimp only)

theorem streamFault_keeps {s0 : State} (s : State) (n : Nat) (w : Word256) (hk : Keeps s0 s) :
    Keeps s0 (State.streamFault s n w) := by
  unfold State.streamFault
  repeat (first
    | intro _
    | with_reducible exact hk
    | with_reducible assumption
    | with_reducible apply streamFaultAt_keeps
    | dsimp only)

theorem veEvents_keeps {s0 : State} (s : State) (n phase : Nat) (c : EvCnt) (hk : Keeps s0 s) :
    Keeps s0 (State.veEvents s n phase c) := by
  unfold State.veEvents
  repeat (first
    | intro _
    | (extract_lets +onlyGivenNames x; focus (refine (?_ : Keeps s0 x → _) ?_; rotate_left; dsimp only [x]; clear x; rotate_left; intro hx; clear_value x))
    | (extract_lets +onlyGivenNames x; focus (refine (?_ : Keeps s0 x.1 → _) ?_; rotate_left; dsimp only [x]; clear x; rotate_left; intro hx; clear_value x))
    | (extract_lets +onlyGivenNames x; clear_value x)
    | with_reducible exact hk
    | with_reducible assumption
    | with_reducible apply fmtShare_keeps
    | with_reducible apply setNonfinite_keeps
    | with_reducible apply Keeps.ite
    | split
    | dsimp only)

theorem convEvents_keeps {s0 : State} (s : State) (n fmt phase : Nat) (c : EvCnt) (hk : Keeps s0 s) :
    Keeps s0 (State.convEvents s n fmt phase c) := by
  unfold State.convEvents
  repeat (first
    | intro _
    | (extract_lets +onlyGivenNames x; focus (refine (?_ : Keeps s0 x → _) ?_; rotate_left; dsimp only [x]; clear x; rotate_left; intro hx; clear_value x))
    | (extract_lets +onlyGivenNames x; focus (refine (?_ : Keeps s0 x.1 → _) ?_; rotate_left; dsimp only [x]; clear x; rotate_left; intro hx; clear_value x))
    | (extract_lets +onlyGivenNames x; clear_value x)
    | with_reducible exact hk
    | with_reducible assumption
    | with_reducible apply fmtShare_keeps
    | with_reducible apply setNonfinite_keeps
    | with_reducible apply Keeps.ite
    | split
    | dsimp only)

theorem wrGranule_keeps {s0 : State} (s : State) (a : Nat) (g : Granule) (hk : Keeps s0 s) :
    Keeps s0 (State.wrGranule s a g) := by
  unfold State.wrGranule
  repeat (first
    | intro _
    | with_reducible exact hk
    | with_reducible assumption
    | with_reducible apply wrN_keeps
    | dsimp only)

end Sys2Proof.Laws
end

