-- ==== Sys2Proof/Laws/KeepImage.lean ====
section
/-! SUPPORT. What the operations of Machine/Image.lean keep. -/

namespace Sys2Proof.Laws

open Sys2Proof.Machine

theorem setLag_keeps {s0 : State} (s : State) (tensor : Nat) (bank : Bool) (e : LagEnt) (hk : Keeps s0 s) :
    Keeps s0 (State.setLag s tensor bank e) := by
  unfold State.setLag
  repeat (first
    | intro _
    | (extract_lets +onlyGivenNames x; focus (refine (?_ : Keeps s0 x → _) ?_; rotate_left; dsimp only [x]; clear x; rotate_left; intro hx; clear_value x))
    | (extract_lets +onlyGivenNames x; focus (refine (?_ : Keeps s0 x.1 → _) ?_; rotate_left; dsimp only [x]; clear x; rotate_left; intro hx; clear_value x))
    | (extract_lets +onlyGivenNames x; focus (refine (?_ : Keeps s0 x.2 → _) ?_; rotate_left; dsimp only [x]; clear x; rotate_left; intro hx; clear_value x))
    | (extract_lets +onlyGivenNames x; clear_value x)
    | with_reducible exact hk
    | with_reducible assumption
    | with_reducible apply withJob_keeps
    | with_reducible exact Keeps.upd (by with_reducible assumption)
    | (with_reducible refine Keeps.updLists (by with_reducible assumption) ?_ ?_ ?_ ?_ ?_ <;> first | rfl | exact Nat.le_refl _ | exact Nat.le_max_left _ _ | exact Nat.le_succ _ | exact modAt_length _ _ _ | exact List.length_map _)
    | fail_if_no_progress (with_reducible apply Keeps.upd)
    | fail_if_no_progress (with_reducible refine Keeps.updLists ?_ ?_ ?_ ?_ ?_ ?_; rotate_left; iterate 5 (first | rfl | exact Nat.le_refl _ | exact Nat.le_max_left _ _ | exact Nat.le_succ _ | exact modAt_length _ _ _ | exact List.length_map _))
    | dsimp only)

theorem issue_keeps {s0 : State} (s : State) (n : Nat) (w : Word256) (cycle : Nat) (hk : Keeps s0 s) :
    Keeps s0 (State.issue s n w cycle) := by
  unfold State.issue
  repeat (first
    | intro _
    | ((with_reducible refine withTiles_keeps (fun t h => ?_) ?_); focus (have k := h; obtain ⟨h1, h2, h3, h4, h5, h6, h7, h8, h9⟩ := h; refine ⟨?_, ?_, ?_, ?_, ?_, ?_, ?_, ?_, ?_⟩ <;> first | with_reducible exact h9 | exact (insLine_sorted _ _ h9).1 | with_reducible exact h1 | with_reducible exact h2 | with_reducible exact h3 | with_reducible exact h4 | with_reducible exact h5 | with_reducible exact h6 | with_reducible exact h7 | with_reducible exact h8 | with_reducible exact tabWf_tabPut _ _ _ _ h1 | with_reducible exact tabWf_tabPut _ _ _ _ h2 | with_reducible exact tabWf_tabPut _ _ _ _ h3 | with_reducible exact tabWf_tabPut _ _ _ _ h4 | with_reducible exact tabWf_tabPut _ _ _ _ h5 | with_reducible exact tabWf_tabPut _ _ _ _ h6 | with_reducible exact tabWf_tabPut _ _ _ _ h7 | with_reducible exact tabWf_tabPut _ _ _ _ h8 | with_reducible exact tabWf_nil _ | exact List.Pairwise.nil))
    | (extract_lets +onlyGivenNames x; focus (refine (?_ : Keeps s0 x → _) ?_; rotate_left; dsimp only [x]; clear x; rotate_left; intro hx; clear_value x))
    | (extract_lets +onlyGivenNames x; focus (refine (?_ : Keeps s0 x.1 → _) ?_; rotate_left; dsimp only [x]; clear x; rotate_left; intro hx; clear_value x))
    | (extract_lets +onlyGivenNames x; clear_value x)
    | with_reducible exact hk
    | with_reducible assumption
    | with_reducible apply advance_keeps
    | with_reducible apply fset_keeps
    | with_reducible exact Keeps.upd (by with_reducible assumption)
    | (with_reducible refine Keeps.updLists (by with_reducible assumption) ?_ ?_ ?_ ?_ ?_ <;> first | rfl | exact Nat.le_refl _ | exact Nat.le_max_left _ _ | exact Nat.le_succ _ | exact modAt_length _ _ _ | exact List.length_map _)
    | fail_if_no_progress (with_reducible apply Keeps.upd)
    | fail_if_no_progress (with_reducible refine Keeps.updLists ?_ ?_ ?_ ?_ ?_ ?_; rotate_left; iterate 5 (first | rfl | exact Nat.le_refl _ | exact Nat.le_max_left _ _ | exact Nat.le_succ _ | exact modAt_length _ _ _ | exact List.length_map _))
    | dsimp only)

end Sys2Proof.Laws
end

