-- ==== Sys2Proof/Laws/KeepPods.lean ====
section
/-! SUPPORT. What the operations of Machine/Pods.lean keep. -/

namespace Sys2Proof.Laws

open Sys2Proof.Machine

theorem podElem_keeps {s0 : State} (stream : Bool) (n : Nat) (w : Word256) (c : Nat) (older : List Flight) (ks : List Nat) (i : Nat) (live : Bool) (acc : State × PodTot) (j : Nat) (hk : Keeps s0 acc.1) :
    Keeps s0 (State.podElem stream n w c older ks i live acc j).1 := by
  unfold State.podElem
  repeat (first
    | intro _
    | (extract_lets +onlyGivenNames x; focus (refine (?_ : Keeps s0 x → _) ?_; rotate_left; dsimp only [x]; clear x; rotate_left; intro hx; clear_value x))
    | (extract_lets +onlyGivenNames x; focus (refine (?_ : Keeps s0 x.1 → _) ?_; rotate_left; dsimp only [x]; clear x; rotate_left; intro hx; clear_value x))
    | (extract_lets +onlyGivenNames x; focus (refine (?_ : Keeps s0 x.2 → _) ?_; rotate_left; dsimp only [x]; clear x; rotate_left; intro hx; clear_value x))
    | (extract_lets +onlyGivenNames x; clear_value x)
    | with_reducible exact hk
    | with_reducible assumption
    | with_reducible apply setAccEl_keeps
    | with_reducible apply Keeps.ite
    | split
    | dsimp only)

theorem podRows_keeps {s0 : State} (s : State) (stream : Bool) (n : Nat) (w : Word256) (c : Nat) (older : List Flight) (rows : List Nat) (hk : Keeps s0 s) :
    Keeps s0 (State.podRows s stream n w c older rows).1 := by
  unfold State.podRows
  repeat (first
    | intro _
    | (extract_lets +onlyGivenNames x; focus (refine (?_ : Keeps s0 x → _) ?_; rotate_left; dsimp only [x]; clear x; rotate_left; intro hx; clear_value x))
    | (extract_lets +onlyGivenNames x; focus (refine (?_ : Keeps s0 x.1 → _) ?_; rotate_left; dsimp only [x]; clear x; rotate_left; intro hx; clear_value x))
    | (extract_lets +onlyGivenNames x; clear_value x)
    | with_reducible exact hk
    | with_reducible assumption
    | with_reducible apply podElem_keeps
    | (with_reducible apply Keeps.foldl; intro _ _ _)
    | (with_reducible apply Keeps.foldlFst; intro _ _ _)
    | dsimp only)

theorem podTiming_keeps {s0 : State} (s : State) (stream : Bool) (n : Nat) (w : Word256) (c : Nat) (hk : Keeps s0 s) :
    Keeps s0 (State.podTiming s stream n w c) := by
  unfold State.podTiming
  repeat (first
    | intro _
    | ((with_reducible refine withTiles_keeps (fun t h => ?_) ?_); focus (have k := h; obtain ⟨h1, h2, h3, h4, h5, h6, h7, h8, h9⟩ := h; refine ⟨?_, ?_, ?_, ?_, ?_, ?_, ?_, ?_, ?_⟩ <;> first | with_reducible exact h9 | exact (insLine_sorted _ _ h9).1 | with_reducible exact h1 | with_reducible exact h2 | with_reducible exact h3 | with_reducible exact h4 | with_reducible exact h5 | with_reducible exact h6 | with_reducible exact h7 | with_reducible exact h8 | with_reducible exact tabWf_tabPut _ _ _ _ h1 | with_reducible exact tabWf_tabPut _ _ _ _ h2 | with_reducible exact tabWf_tabPut _ _ _ _ h3 | with_reducible exact tabWf_tabPut _ _ _ _ h4 | with_reducible exact tabWf_tabPut _ _ _ _ h5 | with_reducible exact tabWf_tabPut _ _ _ _ h6 | with_reducible exact tabWf_tabPut _ _ _ _ h7 | with_reducible exact tabWf_tabPut _ _ _ _ h8 | with_reducible exact tabWf_nil _ | exact List.Pairwise.nil))
    | (extract_lets +onlyGivenNames x; focus (refine (?_ : Keeps s0 x → _) ?_; rotate_left; dsimp only [x]; clear x; rotate_left; intro hx; clear_value x))
    | (extract_lets +onlyGivenNames x; focus (refine (?_ : Keeps s0 x.1 → _) ?_; rotate_left; dsimp only [x]; clear x; rotate_left; intro hx; clear_value x))
    | (extract_lets +onlyGivenNames x; clear_value x)
    | with_reducible exact hk
    | with_reducible assumption
    | with_reducible apply Keeps.ite
    | with_reducible exact Keeps.upd (by with_reducible assumption)
    | (with_reducible refine Keeps.updLists (by with_reducible assumption) ?_ ?_ ?_ ?_ ?_ <;> first | rfl | exact Nat.le_refl _ | exact Nat.le_max_left _ _ | exact Nat.le_succ _ | exact modAt_length _ _ _ | exact List.length_map _)
    | fail_if_no_progress (with_reducible apply Keeps.upd)
    | fail_if_no_progress (with_reducible refine Keeps.updLists ?_ ?_ ?_ ?_ ?_ ?_; rotate_left; iterate 5 (first | rfl | exact Nat.le_refl _ | exact Nat.le_max_left _ _ | exact Nat.le_succ _ | exact modAt_length _ _ _ | exact List.length_map _))
    | split
    | dsimp only)

theorem accTiming_keeps {s0 : State} (s : State) (stream : Bool) (n : Nat) (w : Word256) (c : Nat) (hk : Keeps s0 s) :
    Keeps s0 (State.accTiming s stream n w c) := by
  unfold State.accTiming
  repeat (first
    | intro _
    | ((with_reducible refine withTiles_keeps (fun t h => ?_) ?_); focus (have k := h; obtain ⟨h1, h2, h3, h4, h5, h6, h7, h8, h9⟩ := h; refine ⟨?_, ?_, ?_, ?_, ?_, ?_, ?_, ?_, ?_⟩ <;> first | with_reducible exact h9 | exact (insLine_sorted _ _ h9).1 | with_reducible exact h1 | with_reducible exact h2 | with_reducible exact h3 | with_reducible exact h4 | with_reducible exact h5 | with_reducible exact h6 | with_reducible exact h7 | with_reducible exact h8 | with_reducible exact tabWf_tabPut _ _ _ _ h1 | with_reducible exact tabWf_tabPut _ _ _ _ h2 | with_reducible exact tabWf_tabPut _ _ _ _ h3 | with_reducible exact tabWf_tabPut _ _ _ _ h4 | with_reducible exact tabWf_tabPut _ _ _ _ h5 | with_reducible exact tabWf_tabPut _ _ _ _ h6 | with_reducible exact tabWf_tabPut _ _ _ _ h7 | with_reducible exact tabWf_tabPut _ _ _ _ h8 | with_reducible exact tabWf_nil _ | exact List.Pairwise.nil))
    | (extract_lets +onlyGivenNames x; focus (refine (?_ : Keeps s0 x → _) ?_; rotate_left; dsimp only [x]; clear x; rotate_left; intro hx; clear_value x))
    | (extract_lets +onlyGivenNames x; focus (refine (?_ : Keeps s0 x.1 → _) ?_; rotate_left; dsimp only [x]; clear x; rotate_left; intro hx; clear_value x))
    | (extract_lets +onlyGivenNames x; clear_value x)
    | with_reducible exact hk
    | with_reducible assumption
    | with_reducible apply Keeps.ite
    | with_reducible exact Keeps.upd (by with_reducible assumption)
    | (with_reducible refine Keeps.updLists (by with_reducible assumption) ?_ ?_ ?_ ?_ ?_ <;> first | rfl | exact Nat.le_refl _ | exact Nat.le_max_left _ _ | exact Nat.le_succ _ | exact modAt_length _ _ _ | exact List.length_map _)
    | fail_if_no_progress (with_reducible apply Keeps.upd)
    | fail_if_no_progress (with_reducible refine Keeps.updLists ?_ ?_ ?_ ?_ ?_ ?_; rotate_left; iterate 5 (first | rfl | exact Nat.le_refl _ | exact Nat.le_max_left _ _ | exact Nat.le_succ _ | exact modAt_length _ _ _ | exact List.length_map _))
    | split
    | dsimp only)

theorem podTime_keeps {s0 : State} (s : State) (stream : Bool) (n : Nat) (w : Word256) (occ : Nat) (hk : Keeps s0 s) :
    Keeps s0 (State.podTime s stream n w occ) := by
  unfold State.podTime
  repeat (first
    | intro _
    | (extract_lets +onlyGivenNames x; focus (refine (?_ : Keeps s0 x → _) ?_; rotate_left; dsimp only [x]; clear x; rotate_left; intro hx; clear_value x))
    | (extract_lets +onlyGivenNames x; focus (refine (?_ : Keeps s0 x.1 → _) ?_; rotate_left; dsimp only [x]; clear x; rotate_left; intro hx; clear_value x))
    | (extract_lets +onlyGivenNames x; clear_value x)
    | with_reducible exact hk
    | with_reducible assumption
    | with_reducible apply phaseTime_keeps
    | with_reducible apply Keeps.ite
    | split
    | dsimp only)

theorem podAbsent_keeps {s0 : State} (s : State) (n : Nat) (hk : Keeps s0 s) :
    Keeps s0 (State.podAbsent s n) := by
  unfold State.podAbsent
  repeat (first
    | intro _
    | with_reducible exact hk
    | with_reducible assumption
    | with_reducible apply fadd_keeps
    | with_reducible apply classB_keeps
    | dsimp only)

theorem chainMissing_keeps {s0 : State} (s : State) (n : Nat) (w : Word256) (hk : Keeps s0 s) :
    Keeps s0 (State.chainMissing s n w) := by
  unfold State.chainMissing
  repeat (first
    | intro _
    | with_reducible exact hk
    | with_reducible assumption
    | with_reducible apply tagWord_keeps
    | with_reducible apply classBSts_keeps
    | dsimp only)

theorem podMismatch_keeps {s0 : State} (s : State) (n : Nat) (w : Word256) (seq : Nat) (hk : Keeps s0 s) :
    Keeps s0 (State.podMismatch s n w seq) := by
  unfold State.podMismatch
  repeat (first
    | intro _
    | with_reducible exact hk
    | with_reducible assumption
    | with_reducible apply tagWord_keeps
    | with_reducible apply classC_keeps
    | dsimp only)

theorem podMarks_keeps {s0 : State} (s : State) (n : Nat) (w : Word256) (seq : Nat) (hk : Keeps s0 s) :
    Keeps s0 (State.podMarks s n w seq) := by
  unfold State.podMarks
  repeat (first
    | intro _
    | ((with_reducible refine withTiles_keeps (fun t h => ?_) ?_); focus (have k := h; obtain ⟨h1, h2, h3, h4, h5, h6, h7, h8, h9⟩ := h; refine ⟨?_, ?_, ?_, ?_, ?_, ?_, ?_, ?_, ?_⟩ <;> first | with_reducible exact h9 | exact (insLine_sorted _ _ h9).1 | with_reducible exact h1 | with_reducible exact h2 | with_reducible exact h3 | with_reducible exact h4 | with_reducible exact h5 | with_reducible exact h6 | with_reducible exact h7 | with_reducible exact h8 | with_reducible exact tabWf_tabPut _ _ _ _ h1 | with_reducible exact tabWf_tabPut _ _ _ _ h2 | with_reducible exact tabWf_tabPut _ _ _ _ h3 | with_reducible exact tabWf_tabPut _ _ _ _ h4 | with_reducible exact tabWf_tabPut _ _ _ _ h5 | with_reducible exact tabWf_tabPut _ _ _ _ h6 | with_reducible exact tabWf_tabPut _ _ _ _ h7 | with_reducible exact tabWf_tabPut _ _ _ _ h8 | with_reducible exact tabWf_nil _ | exact List.Pairwise.nil))
    | (extract_lets +onlyGivenNames x; focus (refine (?_ : Keeps s0 x → _) ?_; rotate_left; dsimp only [x]; clear x; rotate_left; intro hx; clear_value x))
    | (extract_lets +onlyGivenNames x; focus (refine (?_ : Keeps s0 x.1 → _) ?_; rotate_left; dsimp only [x]; clear x; rotate_left; intro hx; clear_value x))
    | (extract_lets +onlyGivenNames x; clear_value x)
    | with_reducible exact hk
    | with_reducible assumption
    | with_reducible apply accMarkBit_keeps
    | with_reducible apply Keeps.ite
    | with_reducible exact Keeps.upd (by with_reducible assumption)
    | (with_reducible refine Keeps.updLists (by with_reducible assumption) ?_ ?_ ?_ ?_ ?_ <;> first | rfl | exact Nat.le_refl _ | exact Nat.le_max_left _ _ | exact Nat.le_succ _ | exact modAt_length _ _ _ | exact List.length_map _)
    | fail_if_no_progress (with_reducible apply Keeps.upd)
    | fail_if_no_progress (with_reducible refine Keeps.updLists ?_ ?_ ?_ ?_ ?_ ?_; rotate_left; iterate 5 (first | rfl | exact Nat.le_refl _ | exact Nat.le_max_left _ _ | exact Nat.le_succ _ | exact modAt_length _ _ _ | exact List.length_map _))
    | split
    | dsimp only)

theorem podUnmark_keeps {s0 : State} (s : State) (f : Flight) (hk : Keeps s0 s) :
    Keeps s0 (State.podUnmark s f) := by
  unfold State.podUnmark
  repeat (first
    | intro _
    | (extract_lets +onlyGivenNames x; focus (refine (?_ : Keeps s0 x → _) ?_; rotate_left; dsimp only [x]; clear x; rotate_left; intro hx; clear_value x))
    | (extract_lets +onlyGivenNames x; focus (refine (?_ : Keeps s0 x.1 → _) ?_; rotate_left; dsimp only [x]; clear x; rotate_left; intro hx; clear_value x))
    | (extract_lets +onlyGivenNames x; clear_value x)
    | with_reducible exact hk
    | with_reducible assumption
    | with_reducible apply accMarkBit_keeps
    | with_reducible apply Keeps.ite
    | split
    | dsimp only)

theorem podReport_keeps {s0 : State} (s : State) (n : Nat) (w : Word256) (seq : Nat) (t : PodTot) (hk : Keeps s0 s) :
    Keeps s0 (State.podReport s n w seq t) := by
  unfold State.podReport
  repeat (first
    | intro _
    | (extract_lets +onlyGivenNames x; focus (refine (?_ : Keeps s0 x → _) ?_; rotate_left; dsimp only [x]; clear x; rotate_left; intro hx; clear_value x))
    | (extract_lets +onlyGivenNames x; focus (refine (?_ : Keeps s0 x.1 → _) ?_; rotate_left; dsimp only [x]; clear x; rotate_left; intro hx; clear_value x))
    | (extract_lets +onlyGivenNames x; clear_value x)
    | with_reducible exact hk
    | with_reducible assumption
    | with_reducible apply fmtShare_keeps
    | with_reducible apply tagInvalid_keeps
    | with_reducible apply Keeps.ite
    | with_reducible exact Keeps.upd (by with_reducible assumption)
    | (with_reducible refine Keeps.updLists (by with_reducible assumption) ?_ ?_ ?_ ?_ ?_ <;> first | rfl | exact Nat.le_refl _ | exact Nat.le_max_left _ _ | exact Nat.le_succ _ | exact modAt_length _ _ _ | exact List.length_map _)
    | fail_if_no_progress (with_reducible apply Keeps.upd)
    | fail_if_no_progress (with_reducible refine Keeps.updLists ?_ ?_ ?_ ?_ ?_ ?_; rotate_left; iterate 5 (first | rfl | exact Nat.le_refl _ | exact Nat.le_max_left _ _ | exact Nat.le_succ _ | exact modAt_length _ _ _ | exact List.length_map _))
    | split
    | dsimp only)

theorem takeOff_keeps {s0 : State} (s : State) (f : Flight) (hk : Keeps s0 s) :
    Keeps s0 (State.takeOff s f) := by
  unfold State.takeOff
  repeat (first
    | intro _
    | ((with_reducible refine withTiles_keeps (fun t h => ?_) ?_); focus (have k := h; obtain ⟨h1, h2, h3, h4, h5, h6, h7, h8, h9⟩ := h; refine ⟨?_, ?_, ?_, ?_, ?_, ?_, ?_, ?_, ?_⟩ <;> first | with_reducible exact h9 | exact (insLine_sorted _ _ h9).1 | with_reducible exact h1 | with_reducible exact h2 | with_reducible exact h3 | with_reducible exact h4 | with_reducible exact h5 | with_reducible exact h6 | with_reducible exact h7 | with_reducible exact h8 | with_reducible exact tabWf_tabPut _ _ _ _ h1 | with_reducible exact tabWf_tabPut _ _ _ _ h2 | with_reducible exact tabWf_tabPut _ _ _ _ h3 | with_reducible exact tabWf_tabPut _ _ _ _ h4 | with_reducible exact tabWf_tabPut _ _ _ _ h5 | with_reducible exact tabWf_tabPut _ _ _ _ h6 | with_reducible exact tabWf_tabPut _ _ _ _ h7 | with_reducible exact tabWf_tabPut _ _ _ _ h8 | with_reducible exact tabWf_nil _ | exact List.Pairwise.nil))
    | (extract_lets +onlyGivenNames x; focus (refine (?_ : Keeps s0 x → _) ?_; rotate_left; dsimp only [x]; clear x; rotate_left; intro hx; clear_value x))
    | (extract_lets +onlyGivenNames x; focus (refine (?_ : Keeps s0 x.1 → _) ?_; rotate_left; dsimp only [x]; clear x; rotate_left; intro hx; clear_value x))
    | (extract_lets +onlyGivenNames x; clear_value x)
    | with_reducible exact hk
    | with_reducible assumption
    | with_reducible exact Keeps.upd (by with_reducible assumption)
    | (with_reducible refine Keeps.updLists (by with_reducible assumption) ?_ ?_ ?_ ?_ ?_ <;> first | rfl | exact Nat.le_refl _ | exact Nat.le_max_left _ _ | exact Nat.le_succ _ | exact modAt_length _ _ _ | exact List.length_map _)
    | fail_if_no_progress (with_reducible apply Keeps.upd)
    | fail_if_no_progress (with_reducible refine Keeps.updLists ?_ ?_ ?_ ?_ ?_ ?_; rotate_left; iterate 5 (first | rfl | exact Nat.le_refl _ | exact Nat.le_max_left _ _ | exact Nat.le_succ _ | exact modAt_length _ _ _ | exact List.length_map _))
    | dsimp only)

theorem podRun_keeps {s0 : State} (s : State) (stream : Bool) (n : Nat) (w : Word256) (c : Nat) (limit : Option Nat) (hk : Keeps s0 s) :
    Keeps s0 (State.podRun s stream n w c limit) := by
  unfold State.podRun
  repeat (first
    | intro _
    | (extract_lets +onlyGivenNames x; focus (refine (?_ : Keeps s0 x → _) ?_; rotate_left; dsimp only [x]; clear x; rotate_left; intro hx; clear_value x))
    | (extract_lets +onlyGivenNames x; focus (refine (?_ : Keeps s0 x.1 → _) ?_; rotate_left; dsimp only [x]; clear x; rotate_left; intro hx; clear_value x))
    | (extract_lets +onlyGivenNames x; clear_value x)
    | with_reducible exact hk
    | with_reducible assumption
    | with_reducible apply issue_keeps
    | with_reducible apply podTime_keeps
    | with_reducible apply item_keeps
    | with_reducible apply podTiming_keeps
    | with_reducible apply podAbsent_keeps
    | with_reducible apply streamFault_keeps
    | with_reducible apply podMismatch_keeps
    | with_reducible apply chainMissing_keeps
    | with_reducible apply accTiming_keeps
    | with_reducible apply podMarks_keeps
    | with_reducible apply takeOff_keeps
    | with_reducible apply Keeps.ite
    | with_reducible exact Keeps.upd (by with_reducible assumption)
    | (with_reducible refine Keeps.updLists (by with_reducible assumption) ?_ ?_ ?_ ?_ ?_ <;> first | rfl | exact Nat.le_refl _ | exact Nat.le_max_left _ _ | exact Nat.le_succ _ | exact modAt_length _ _ _ | exact List.length_map _)
    | fail_if_no_progress (with_reducible apply Keeps.upd)
    | fail_if_no_progress (with_reducible refine Keeps.updLists ?_ ?_ ?_ ?_ ?_ ?_; rotate_left; iterate 5 (first | rfl | exact Nat.le_refl _ | exact Nat.le_max_left _ _ | exact Nat.le_succ _ | exact modAt_length _ _ _ | exact List.length_map _))
    | split
    | dsimp only)

theorem landPod_keeps {s0 : State} (s : State) (stream : Bool) (f : Flight) (older : List Flight) (hk : Keeps s0 s) :
    Keeps s0 (State.landPod s stream f older) := by
  unfold State.landPod
  repeat (first
    | intro _
    | (extract_lets +onlyGivenNames x; focus (refine (?_ : Keeps s0 x → _) ?_; rotate_left; dsimp only [x]; clear x; rotate_left; intro hx; clear_value x))
    | (extract_lets +onlyGivenNames x; focus (refine (?_ : Keeps s0 x.1 → _) ?_; rotate_left; dsimp only [x]; clear x; rotate_left; intro hx; clear_value x))
    | (extract_lets +onlyGivenNames x; clear_value x)
    | with_reducible exact hk
    | with_reducible assumption
    | with_reducible apply podUnmark_keeps
    | with_reducible apply podMismatch_keeps
    | with_reducible apply accMarkBit_keeps
    | with_reducible apply podRows_keeps
    | with_reducible apply podReport_keeps
    | with_reducible apply Keeps.ite
    | split
    | dsimp only)

theorem accFill_keeps {s0 : State} (s : State) (n a x : Nat) (src : Nat → Nat) (hk : Keeps s0 s) :
    Keeps s0 (State.accFill s n a x src) := by
  unfold State.accFill
  repeat (first
    | intro _
    | with_reducible exact hk
    | with_reducible assumption
    | with_reducible apply setAccEl_keeps
    | (with_reducible apply Keeps.foldl; intro _ _ _)
    | (with_reducible apply Keeps.foldlFst; intro _ _ _)
    | dsimp only)

theorem landChain_keeps {s0 : State} (s : State) (f : Flight) (content : List Word32) (tagged : Bool) (hk : Keeps s0 s) :
    Keeps s0 (State.landChain s f content tagged) := by
  unfold State.landChain
  repeat (first
    | intro _
    | ((with_reducible refine withTiles_keeps (fun t h => ?_) ?_); focus (have k := h; obtain ⟨h1, h2, h3, h4, h5, h6, h7, h8, h9⟩ := h; refine ⟨?_, ?_, ?_, ?_, ?_, ?_, ?_, ?_, ?_⟩ <;> first | with_reducible exact h9 | exact (insLine_sorted _ _ h9).1 | with_reducible exact h1 | with_reducible exact h2 | with_reducible exact h3 | with_reducible exact h4 | with_reducible exact h5 | with_reducible exact h6 | with_reducible exact h7 | with_reducible exact h8 | with_reducible exact tabWf_tabPut _ _ _ _ h1 | with_reducible exact tabWf_tabPut _ _ _ _ h2 | with_reducible exact tabWf_tabPut _ _ _ _ h3 | with_reducible exact tabWf_tabPut _ _ _ _ h4 | with_reducible exact tabWf_tabPut _ _ _ _ h5 | with_reducible exact tabWf_tabPut _ _ _ _ h6 | with_reducible exact tabWf_tabPut _ _ _ _ h7 | with_reducible exact tabWf_tabPut _ _ _ _ h8 | with_reducible exact tabWf_nil _ | exact List.Pairwise.nil))
    | (extract_lets +onlyGivenNames x; focus (refine (?_ : Keeps s0 x → _) ?_; rotate_left; dsimp only [x]; clear x; rotate_left; intro hx; clear_value x))
    | (extract_lets +onlyGivenNames x; focus (refine (?_ : Keeps s0 x.1 → _) ?_; rotate_left; dsimp only [x]; clear x; rotate_left; intro hx; clear_value x))
    | (extract_lets +onlyGivenNames x; clear_value x)
    | with_reducible exact hk
    | with_reducible assumption
    | with_reducible apply streamFaultAt_keeps
    | with_reducible apply accFill_keeps
    | with_reducible apply accMarkBit_keeps
    | with_reducible apply Keeps.ite
    | with_reducible exact Keeps.upd (by with_reducible assumption)
    | (with_reducible refine Keeps.updLists (by with_reducible assumption) ?_ ?_ ?_ ?_ ?_ <;> first | rfl | exact Nat.le_refl _ | exact Nat.le_max_left _ _ | exact Nat.le_succ _ | exact modAt_length _ _ _ | exact List.length_map _)
    | fail_if_no_progress (with_reducible apply Keeps.upd)
    | fail_if_no_progress (with_reducible refine Keeps.updLists ?_ ?_ ?_ ?_ ?_ ?_; rotate_left; iterate 5 (first | rfl | exact Nat.le_refl _ | exact Nat.le_max_left _ _ | exact Nat.le_succ _ | exact modAt_length _ _ _ | exact List.length_map _))
    | split
    | dsimp only)

theorem land_keeps {s0 : State} (s : State) (f : Flight) (hk : Keeps s0 s) :
    Keeps s0 (State.land s f) := by
  unfold State.land
  repeat (first
    | intro _
    | ((with_reducible refine withTiles_keeps (fun t h => ?_) ?_); focus (have k := h; obtain ⟨h1, h2, h3, h4, h5, h6, h7, h8, h9⟩ := h; refine ⟨?_, ?_, ?_, ?_, ?_, ?_, ?_, ?_, ?_⟩ <;> first | with_reducible exact h9 | exact (insLine_sorted _ _ h9).1 | with_reducible exact h1 | with_reducible exact h2 | with_reducible exact h3 | with_reducible exact h4 | with_reducible exact h5 | with_reducible exact h6 | with_reducible exact h7 | with_reducible exact h8 | with_reducible exact tabWf_tabPut _ _ _ _ h1 | with_reducible exact tabWf_tabPut _ _ _ _ h2 | with_reducible exact tabWf_tabPut _ _ _ _ h3 | with_reducible exact tabWf_tabPut _ _ _ _ h4 | with_reducible exact tabWf_tabPut _ _ _ _ h5 | with_reducible exact tabWf_tabPut _ _ _ _ h6 | with_reducible exact tabWf_tabPut _ _ _ _ h7 | with_reducible exact tabWf_tabPut _ _ _ _ h8 | with_reducible exact tabWf_nil _ | exact List.Pairwise.nil))
    | (extract_lets +onlyGivenNames x; focus (refine (?_ : Keeps s0 x → _) ?_; rotate_left; dsimp only [x]; clear x; rotate_left; intro hx; clear_value x))
    | (extract_lets +onlyGivenNames x; focus (refine (?_ : Keeps s0 x.1 → _) ?_; rotate_left; dsimp only [x]; clear x; rotate_left; intro hx; clear_value x))
    | (extract_lets +onlyGivenNames x; clear_value x)
    | with_reducible exact hk
    | with_reducible assumption
    | with_reducible apply landPod_keeps
    | with_reducible apply landChain_keeps
    | with_reducible apply accSweep_keeps
    | with_reducible exact Keeps.upd (by with_reducible assumption)
    | (with_reducible refine Keeps.updLists (by with_reducible assumption) ?_ ?_ ?_ ?_ ?_ <;> first | rfl | exact Nat.le_refl _ | exact Nat.le_max_left _ _ | exact Nat.le_succ _ | exact modAt_length _ _ _ | exact List.length_map _)
    | fail_if_no_progress (with_reducible apply Keeps.upd)
    | fail_if_no_progress (with_reducible refine Keeps.updLists ?_ ?_ ?_ ?_ ?_ ?_; rotate_left; iterate 5 (first | rfl | exact Nat.le_refl _ | exact Nat.le_max_left _ _ | exact Nat.le_succ _ | exact modAt_length _ _ _ | exact List.length_map _))
    | split
    | dsimp only)

end Sys2Proof.Laws
end

