-- ==== Sys2Proof/Laws/KeepVector.lean ====
section
/-! SUPPORT. What the operations of Machine/Vector.lean keep. -/

namespace Sys2Proof.Laws

open Sys2Proof.Machine

theorem wrEl_keeps {s0 : State} (s : State) (n : Nat) (sram : Bool) (a wd tag i v x : Nat) (hk : Keeps s0 s) :
    Keeps s0 (State.wrEl s n sram a wd tag i v x) := by
  unfold State.wrEl
  repeat (first
    | intro _
    | with_reducible exact hk
    | with_reducible assumption
    | with_reducible apply setOpBits_keeps
    | with_reducible apply wrN_keeps
    | with_reducible apply Keeps.ite
    | split
    | dsimp only)

theorem veBegin_keeps {s0 : State} (s : State) (n : Nat) (w : Word256) (c latency occ : Nat) (lim : Option Nat) (hk : Keeps s0 s) :
    Keeps s0 (State.veBegin s n w c latency occ lim) := by
  unfold State.veBegin
  repeat (first
    | intro _
    | (extract_lets +onlyGivenNames x; focus (refine (?_ : Keeps s0 x → _) ?_; rotate_left; dsimp only [x]; clear x; rotate_left; intro hx; clear_value x))
    | (extract_lets +onlyGivenNames x; focus (refine (?_ : Keeps s0 x.1 → _) ?_; rotate_left; dsimp only [x]; clear x; rotate_left; intro hx; clear_value x))
    | (extract_lets +onlyGivenNames x; clear_value x)
    | with_reducible exact hk
    | with_reducible assumption
    | with_reducible apply issue_keeps
    | with_reducible apply item_keeps
    | with_reducible apply Keeps.ite
    | split
    | dsimp only)

theorem memSpan_keeps {s0 : State} (s : State) (sram : Bool) (a wd e last : Nat) (lim : Option Nat) (hk : Keeps s0 s) :
    Keeps s0 (State.memSpan s sram a wd e last lim) := by
  unfold State.memSpan
  repeat (first
    | intro _
    | with_reducible exact hk
    | with_reducible assumption
    | with_reducible apply wrote_keeps
    | with_reducible apply Keeps.ite
    | split
    | dsimp only)

theorem veLoad_keeps {s0 : State} (s : State) (n : Nat) (w : Word256) (c : Nat) (lim : Option Nat) (hk : Keeps s0 s) :
    Keeps s0 (State.veLoad s n w c lim) := by
  unfold State.veLoad
  repeat (first
    | intro _
    | (extract_lets +onlyGivenNames x; focus (refine (?_ : Keeps s0 x → _) ?_; rotate_left; dsimp only [x]; clear x; rotate_left; intro hx; clear_value x))
    | (extract_lets +onlyGivenNames x; focus (refine (?_ : Keeps s0 x.1 → _) ?_; rotate_left; dsimp only [x]; clear x; rotate_left; intro hx; clear_value x))
    | (extract_lets +onlyGivenNames x; clear_value x)
    | with_reducible exact hk
    | with_reducible assumption
    | with_reducible apply veBegin_keeps
    | with_reducible apply streamFault_keeps
    | with_reducible apply setOpLine_keeps
    | with_reducible apply Keeps.ite
    | (with_reducible apply Keeps.foldl; intro _ _ _)
    | (with_reducible apply Keeps.foldlFst; intro _ _ _)
    | split
    | dsimp only)

theorem veReadout_keeps {s0 : State} (s : State) (n : Nat) (w : Word256) (c : Nat) (lim : Option Nat) (hk : Keeps s0 s) :
    Keeps s0 (State.veReadout s n w c lim) := by
  unfold State.veReadout
  repeat (first
    | intro _
    | (extract_lets +onlyGivenNames x; focus (refine (?_ : Keeps s0 x → _) ?_; rotate_left; dsimp only [x]; clear x; rotate_left; intro hx; clear_value x))
    | (extract_lets +onlyGivenNames x; focus (refine (?_ : Keeps s0 x.1 → _) ?_; rotate_left; dsimp only [x]; clear x; rotate_left; intro hx; clear_value x))
    | (extract_lets +onlyGivenNames x; focus (refine (?_ : Keeps s0 x.2 → _) ?_; rotate_left; dsimp only [x]; clear x; rotate_left; intro hx; clear_value x))
    | (extract_lets +onlyGivenNames x; focus (refine (?_ : (∀ p a, Keeps s0 p → Keeps s0 (x p a)) → _) ?_; rotate_left; dsimp only [x]; clear x; rotate_left; intro hx; clear_value x))
    | (extract_lets +onlyGivenNames x; focus (refine (?_ : (∀ p a, Keeps s0 p.1 → Keeps s0 (x p a).1) → _) ?_; rotate_left; dsimp only [x]; clear x; rotate_left; intro hx; clear_value x))
    | (extract_lets +onlyGivenNames x; focus (refine (?_ : (∀ p, Keeps s0 p → Keeps s0 (x p)) → _) ?_; rotate_left; dsimp only [x]; clear x; rotate_left; intro hx; clear_value x))
    | (extract_lets +onlyGivenNames x; clear_value x)
    | with_reducible exact hk
    | with_reducible assumption
    | with_reducible apply veBegin_keeps
    | with_reducible apply streamFault_keeps
    | with_reducible apply wrEl_keeps
    | with_reducible apply memSpan_keeps
    | with_reducible apply fmtShare_keeps
    | with_reducible apply convEvents_keeps
    | with_reducible apply Keeps.ite
    | (with_reducible apply Keeps.foldl; intro _ _ _)
    | (with_reducible apply Keeps.foldlFst; intro _ _ _)
    | with_reducible apply_assumption
    | split
    | dsimp only)

theorem veChain_keeps {s0 : State} (s : State) (n : Nat) (w : Word256) (c : Nat) (arrival : List Word32) (lim : Option Nat) (hk : Keeps s0 s) :
    Keeps s0 (State.veChain s n w c arrival lim) := by
  unfold State.veChain
  repeat (first
    | intro _
    | (extract_lets +onlyGivenNames x; focus (refine (?_ : Keeps s0 x → _) ?_; rotate_left; dsimp only [x]; clear x; rotate_left; intro hx; clear_value x))
    | (extract_lets +onlyGivenNames x; focus (refine (?_ : Keeps s0 x.1 → _) ?_; rotate_left; dsimp only [x]; clear x; rotate_left; intro hx; clear_value x))
    | (extract_lets +onlyGivenNames x; clear_value x)
    | with_reducible exact hk
    | with_reducible assumption
    | with_reducible apply veBegin_keeps
    | with_reducible apply streamFault_keeps
    | with_reducible apply land_keeps
    | with_reducible apply takeOff_keeps
    | with_reducible apply Keeps.ite
    | split
    | dsimp only)

theorem veConvert_keeps {s0 : State} (s : State) (n : Nat) (w : Word256) (c : Nat) (loc : VeLoc) (scales : Nat) (iota : Word32) (lim : Option Nat) (hk : Keeps s0 s) :
    Keeps s0 (State.veConvert s n w c loc scales iota lim) := by
  unfold State.veConvert
  repeat (first
    | intro _
    | (extract_lets +onlyGivenNames x; focus (refine (?_ : Keeps s0 x → _) ?_; rotate_left; dsimp only [x]; clear x; rotate_left; intro hx; clear_value x))
    | (extract_lets +onlyGivenNames x; focus (refine (?_ : Keeps s0 x.1 → _) ?_; rotate_left; dsimp only [x]; clear x; rotate_left; intro hx; clear_value x))
    | (extract_lets +onlyGivenNames x; focus (refine (?_ : Keeps s0 x.2 → _) ?_; rotate_left; dsimp only [x]; clear x; rotate_left; intro hx; clear_value x))
    | (extract_lets +onlyGivenNames x; clear_value x)
    | with_reducible exact hk
    | with_reducible assumption
    | with_reducible apply veBegin_keeps
    | with_reducible apply streamFault_keeps
    | with_reducible apply wrEl_keeps
    | with_reducible apply memSpan_keeps
    | with_reducible apply convEvents_keeps
    | with_reducible apply veEvents_keeps
    | with_reducible apply Keeps.ite
    | (with_reducible apply Keeps.foldl; intro _ _ _)
    | (with_reducible apply Keeps.foldlFst; intro _ _ _)
    | split
    | dsimp only)

theorem veScale_keeps {s0 : State} (s : State) (n : Nat) (w : Word256) (c : Nat) (loc : VeLoc) (lim : Option Nat) (hk : Keeps s0 s) :
    Keeps s0 (State.veScale s n w c loc lim) := by
  unfold State.veScale
  repeat (first
    | intro _
    | (extract_lets +onlyGivenNames x; focus (refine (?_ : Keeps s0 x → _) ?_; rotate_left; dsimp only [x]; clear x; rotate_left; intro hx; clear_value x))
    | (extract_lets +onlyGivenNames x; focus (refine (?_ : Keeps s0 x.1 → _) ?_; rotate_left; dsimp only [x]; clear x; rotate_left; intro hx; clear_value x))
    | (extract_lets +onlyGivenNames x; clear_value x)
    | with_reducible exact hk
    | with_reducible assumption
    | with_reducible apply veBegin_keeps
    | with_reducible apply streamFault_keeps
    | with_reducible apply wrEl_keeps
    | with_reducible apply memSpan_keeps
    | with_reducible apply Keeps.ite
    | (with_reducible apply Keeps.foldl; intro _ _ _)
    | (with_reducible apply Keeps.foldlFst; intro _ _ _)
    | split
    | dsimp only)

theorem redTarget_keeps {s0 : State} (s : State) (p : RedPlanImg) (i v x : Nat) (hk : Keeps s0 s) :
    Keeps s0 (State.redTarget s p i v x) := by
  unfold State.redTarget
  repeat (first
    | intro _
    | (extract_lets +onlyGivenNames x; focus (refine (?_ : Keeps s0 x → _) ?_; rotate_left; dsimp only [x]; clear x; rotate_left; intro hx; clear_value x))
    | (extract_lets +onlyGivenNames x; focus (refine (?_ : Keeps s0 x.1 → _) ?_; rotate_left; dsimp only [x]; clear x; rotate_left; intro hx; clear_value x))
    | (extract_lets +onlyGivenNames x; clear_value x)
    | with_reducible exact hk
    | with_reducible assumption
    | with_reducible apply setAccEl_keeps
    | with_reducible apply wrN_keeps
    | with_reducible apply Keeps.ite
    | split
    | dsimp only)

theorem veTree_keeps {s0 : State} (s : State) (n : Nat) (w : Word256) (c elems : Nat) (lim : Option Nat) (hk : Keeps s0 s) :
    Keeps s0 (State.veTree s n w c elems lim) := by
  unfold State.veTree
  repeat (first
    | intro _
    | (extract_lets +onlyGivenNames x; focus (refine (?_ : Keeps s0 x → _) ?_; rotate_left; dsimp only [x]; clear x; rotate_left; intro hx; clear_value x))
    | (extract_lets +onlyGivenNames x; focus (refine (?_ : Keeps s0 x.1 → _) ?_; rotate_left; dsimp only [x]; clear x; rotate_left; intro hx; clear_value x))
    | (extract_lets +onlyGivenNames x; focus (refine (?_ : Keeps s0 x.2 → _) ?_; rotate_left; dsimp only [x]; clear x; rotate_left; intro hx; clear_value x))
    | (extract_lets +onlyGivenNames x; clear_value x)
    | with_reducible exact hk
    | with_reducible assumption
    | with_reducible apply issue_keeps
    | with_reducible apply streamFault_keeps
    | with_reducible apply item_keeps
    | with_reducible apply veBegin_keeps
    | with_reducible apply redTarget_keeps
    | with_reducible apply memSpan_keeps
    | with_reducible apply veEvents_keeps
    | with_reducible apply Keeps.ite
    | (with_reducible apply Keeps.foldl; intro _ _ _)
    | (with_reducible apply Keeps.foldlFst; intro _ _ _)
    | with_reducible exact Keeps.upd (by with_reducible assumption)
    | (with_reducible refine Keeps.updLists (by with_reducible assumption) ?_ ?_ ?_ ?_ ?_ <;> first | rfl | exact Nat.le_refl _ | exact Nat.le_max_left _ _ | exact Nat.le_succ _ | exact modAt_length _ _ _ | exact List.length_map _)
    | fail_if_no_progress (with_reducible apply Keeps.upd)
    | fail_if_no_progress (with_reducible refine Keeps.updLists ?_ ?_ ?_ ?_ ?_ ?_; rotate_left; iterate 5 (first | rfl | exact Nat.le_refl _ | exact Nat.le_max_left _ _ | exact Nat.le_succ _ | exact modAt_length _ _ _ | exact List.length_map _))
    | split
    | dsimp only)

theorem veSumsq_keeps {s0 : State} (s : State) (n : Nat) (w : Word256) (c : Nat) (loc : VeLoc) (bucket : Bool) (lim : Option Nat) (hk : Keeps s0 s) :
    Keeps s0 (State.veSumsq s n w c loc bucket lim) := by
  unfold State.veSumsq
  repeat (first
    | intro _
    | (extract_lets +onlyGivenNames x; focus (refine (?_ : Keeps s0 x → _) ?_; rotate_left; dsimp only [x]; clear x; rotate_left; intro hx; clear_value x))
    | (extract_lets +onlyGivenNames x; focus (refine (?_ : Keeps s0 x.1 → _) ?_; rotate_left; dsimp only [x]; clear x; rotate_left; intro hx; clear_value x))
    | (extract_lets +onlyGivenNames x; focus (refine (?_ : Keeps s0 x.2 → _) ?_; rotate_left; dsimp only [x]; clear x; rotate_left; intro hx; clear_value x))
    | (extract_lets +onlyGivenNames x; clear_value x)
    | with_reducible exact hk
    | with_reducible assumption
    | with_reducible apply veBegin_keeps
    | with_reducible apply streamFault_keeps
    | with_reducible apply wrEl_keeps
    | with_reducible apply memSpan_keeps
    | with_reducible apply veEvents_keeps
    | with_reducible apply Keeps.ite
    | (with_reducible apply Keeps.foldl; intro _ _ _)
    | (with_reducible apply Keeps.foldlFst; intro _ _ _)
    | split
    | dsimp only)

theorem beginBucket_keeps {s0 : State} (s : State) (dest tensor words : Nat) (hk : Keeps s0 s) :
    Keeps s0 (State.beginBucket s dest tensor words) := by
  unfold State.beginBucket
  repeat (first
    | intro _
    | (extract_lets +onlyGivenNames x; focus (refine (?_ : Keeps s0 x → _) ?_; rotate_left; dsimp only [x]; clear x; rotate_left; intro hx; clear_value x))
    | (extract_lets +onlyGivenNames x; focus (refine (?_ : Keeps s0 x.1 → _) ?_; rotate_left; dsimp only [x]; clear x; rotate_left; intro hx; clear_value x))
    | (extract_lets +onlyGivenNames x; clear_value x)
    | with_reducible exact hk
    | with_reducible assumption
    | with_reducible apply zero_keeps
    | with_reducible apply withRun_keeps
    | with_reducible apply Keeps.ite
    | with_reducible exact Keeps.upd (by with_reducible assumption)
    | (with_reducible refine Keeps.updLists (by with_reducible assumption) ?_ ?_ ?_ ?_ ?_ <;> first | rfl | exact Nat.le_refl _ | exact Nat.le_max_left _ _ | exact Nat.le_succ _ | exact modAt_length _ _ _ | exact List.length_map _)
    | fail_if_no_progress (with_reducible apply Keeps.upd)
    | fail_if_no_progress (with_reducible refine Keeps.updLists ?_ ?_ ?_ ?_ ?_ ?_; rotate_left; iterate 5 (first | rfl | exact Nat.le_refl _ | exact Nat.le_max_left _ _ | exact Nat.le_succ _ | exact modAt_length _ _ _ | exact List.length_map _))
    | split
    | dsimp only)

theorem freeSlot_keeps {s0 : State} (s : State) (slot : Nat) (hk : Keeps s0 s) :
    Keeps s0 (State.freeSlot s slot) := by
  unfold State.freeSlot
  repeat (first
    | intro _
    | (extract_lets +onlyGivenNames x; focus (refine (?_ : Keeps s0 x → _) ?_; rotate_left; dsimp only [x]; clear x; rotate_left; intro hx; clear_value x))
    | (extract_lets +onlyGivenNames x; focus (refine (?_ : Keeps s0 x.1 → _) ?_; rotate_left; dsimp only [x]; clear x; rotate_left; intro hx; clear_value x))
    | (extract_lets +onlyGivenNames x; clear_value x)
    | with_reducible exact hk
    | with_reducible assumption
    | with_reducible apply withRun_keeps
    | with_reducible exact Keeps.upd (by with_reducible assumption)
    | (with_reducible refine Keeps.updLists (by with_reducible assumption) ?_ ?_ ?_ ?_ ?_ <;> first | rfl | exact Nat.le_refl _ | exact Nat.le_max_left _ _ | exact Nat.le_succ _ | exact modAt_length _ _ _ | exact List.length_map _)
    | fail_if_no_progress (with_reducible apply Keeps.upd)
    | fail_if_no_progress (with_reducible refine Keeps.updLists ?_ ?_ ?_ ?_ ?_ ?_; rotate_left; iterate 5 (first | rfl | exact Nat.le_refl _ | exact Nat.le_max_left _ _ | exact Nat.le_succ _ | exact modAt_length _ _ _ | exact List.length_map _))
    | dsimp only)

theorem veLookup_keeps {s0 : State} (s : State) (n : Nat) (w : Word256) (c dest : Nat) (lim : Option Nat) (hk : Keeps s0 s) :
    Keeps s0 (State.veLookup s n w c dest lim) := by
  unfold State.veLookup
  repeat (first
    | intro _
    | (extract_lets +onlyGivenNames x; focus (refine (?_ : Keeps s0 x → _) ?_; rotate_left; dsimp only [x]; clear x; rotate_left; intro hx; clear_value x))
    | (extract_lets +onlyGivenNames x; focus (refine (?_ : Keeps s0 x.1 → _) ?_; rotate_left; dsimp only [x]; clear x; rotate_left; intro hx; clear_value x))
    | (extract_lets +onlyGivenNames x; focus (refine (?_ : Keeps s0 x.2 → _) ?_; rotate_left; dsimp only [x]; clear x; rotate_left; intro hx; clear_value x))
    | (extract_lets +onlyGivenNames x; clear_value x)
    | with_reducible exact hk
    | with_reducible assumption
    | with_reducible apply veBegin_keeps
    | with_reducible apply streamFault_keeps
    | with_reducible apply beginBucket_keeps
    | with_reducible apply wrN_keeps
    | with_reducible apply memSpan_keeps
    | with_reducible apply veEvents_keeps
    | with_reducible apply Keeps.ite
    | (with_reducible apply Keeps.foldl; intro _ _ _)
    | (with_reducible apply Keeps.foldlFst; intro _ _ _)
    | with_reducible exact Keeps.upd (by with_reducible assumption)
    | (with_reducible refine Keeps.updLists (by with_reducible assumption) ?_ ?_ ?_ ?_ ?_ <;> first | rfl | exact Nat.le_refl _ | exact Nat.le_max_left _ _ | exact Nat.le_succ _ | exact modAt_length _ _ _ | exact List.length_map _)
    | fail_if_no_progress (with_reducible apply Keeps.upd)
    | fail_if_no_progress (with_reducible refine Keeps.updLists ?_ ?_ ?_ ?_ ?_ ?_; rotate_left; iterate 5 (first | rfl | exact Nat.le_refl _ | exact Nat.le_max_left _ _ | exact Nat.le_succ _ | exact modAt_length _ _ _ | exact List.length_map _))
    | split
    | dsimp only)

theorem veRowcol_keeps {s0 : State} (s : State) (n : Nat) (w : Word256) (c rDst cDst : Nat) (lim : Option Nat) (hk : Keeps s0 s) :
    Keeps s0 (State.veRowcol s n w c rDst cDst lim) := by
  unfold State.veRowcol
  repeat (first
    | intro _
    | (extract_lets +onlyGivenNames x; focus (refine (?_ : Keeps s0 x → _) ?_; rotate_left; dsimp only [x]; clear x; rotate_left; intro hx; clear_value x))
    | (extract_lets +onlyGivenNames x; focus (refine (?_ : Keeps s0 x.1 → _) ?_; rotate_left; dsimp only [x]; clear x; rotate_left; intro hx; clear_value x))
    | (extract_lets +onlyGivenNames x; focus (refine (?_ : Keeps s0 x.2 → _) ?_; rotate_left; dsimp only [x]; clear x; rotate_left; intro hx; clear_value x))
    | (extract_lets +onlyGivenNames x; focus (refine (?_ : (∀ p a, Keeps s0 p → Keeps s0 (x p a)) → _) ?_; rotate_left; dsimp only [x]; clear x; rotate_left; intro hx; clear_value x))
    | (extract_lets +onlyGivenNames x; focus (refine (?_ : (∀ p a, Keeps s0 p.1 → Keeps s0 (x p a).1) → _) ?_; rotate_left; dsimp only [x]; clear x; rotate_left; intro hx; clear_value x))
    | (extract_lets +onlyGivenNames x; focus (refine (?_ : (∀ p, Keeps s0 p → Keeps s0 (x p)) → _) ?_; rotate_left; dsimp only [x]; clear x; rotate_left; intro hx; clear_value x))
    | (extract_lets +onlyGivenNames x; clear_value x)
    | with_reducible exact hk
    | with_reducible assumption
    | with_reducible apply issue_keeps
    | with_reducible apply streamFault_keeps
    | with_reducible apply veBegin_keeps
    | with_reducible apply wrN_keeps
    | with_reducible apply memSpan_keeps
    | with_reducible apply veEvents_keeps
    | with_reducible apply Keeps.ite
    | (with_reducible apply Keeps.foldl; intro _ _ _)
    | (with_reducible apply Keeps.foldlFst; intro _ _ _)
    | with_reducible exact Keeps.upd (by with_reducible assumption)
    | (with_reducible refine Keeps.updLists (by with_reducible assumption) ?_ ?_ ?_ ?_ ?_ <;> first | rfl | exact Nat.le_refl _ | exact Nat.le_max_left _ _ | exact Nat.le_succ _ | exact modAt_length _ _ _ | exact List.length_map _)
    | fail_if_no_progress (with_reducible apply Keeps.upd)
    | fail_if_no_progress (with_reducible refine Keeps.updLists ?_ ?_ ?_ ?_ ?_ ?_; rotate_left; iterate 5 (first | rfl | exact Nat.le_refl _ | exact Nat.le_max_left _ _ | exact Nat.le_succ _ | exact modAt_length _ _ _ | exact List.length_map _))
    | with_reducible apply_assumption
    | split
    | dsimp only)

theorem copyBytes_keeps {s0 : State} : ∀ (n : Nat) (s : State) (src dst : Nat), Keeps s0 s →
    Keeps s0 (State.copyBytes s src dst n)
  | 0, _, _, _, h => h
  | n + 1, _, _, _, h => copyBytes_keeps n _ _ _ (wr8_keeps _ _ h)

theorem statEvent_keeps {s0 : State} (s : State) (n tensor elem bits : Nat) (sat : Bool) (hk : Keeps s0 s) :
    Keeps s0 (State.statEvent s n tensor elem bits sat) := by
  unfold State.statEvent
  repeat (first
    | intro _
    | (extract_lets +onlyGivenNames x; focus (refine (?_ : Keeps s0 x → _) ?_; rotate_left; dsimp only [x]; clear x; rotate_left; intro hx; clear_value x))
    | (extract_lets +onlyGivenNames x; focus (refine (?_ : Keeps s0 x.1 → _) ?_; rotate_left; dsimp only [x]; clear x; rotate_left; intro hx; clear_value x))
    | (extract_lets +onlyGivenNames x; clear_value x)
    | with_reducible exact hk
    | with_reducible assumption
    | with_reducible apply record_keeps
    | with_reducible apply fadd_keeps
    | with_reducible apply setSts_keeps
    | with_reducible apply setNonfinite_keeps
    | with_reducible apply Keeps.ite
    | with_reducible exact Keeps.upd (by with_reducible assumption)
    | (with_reducible refine Keeps.updLists (by with_reducible assumption) ?_ ?_ ?_ ?_ ?_ <;> first | rfl | exact Nat.le_refl _ | exact Nat.le_max_left _ _ | exact Nat.le_succ _ | exact modAt_length _ _ _ | exact List.length_map _)
    | fail_if_no_progress (with_reducible apply Keeps.upd)
    | fail_if_no_progress (with_reducible refine Keeps.updLists ?_ ?_ ?_ ?_ ?_ ?_; rotate_left; iterate 5 (first | rfl | exact Nat.le_refl _ | exact Nat.le_max_left _ _ | exact Nat.le_succ _ | exact modAt_length _ _ _ | exact List.length_map _))
    | split
    | dsimp only)

theorem copyEvents_keeps {s0 : State} (s : State) (n : Nat) (t : TensorEnt) (i : Nat) (hk : Keeps s0 s) :
    Keeps s0 (State.copyEvents s n t i) := by
  unfold State.copyEvents
  repeat (first
    | intro _
    | (extract_lets +onlyGivenNames x; focus (refine (?_ : Keeps s0 x → _) ?_; rotate_left; dsimp only [x]; clear x; rotate_left; intro hx; clear_value x))
    | (extract_lets +onlyGivenNames x; focus (refine (?_ : Keeps s0 x.1 → _) ?_; rotate_left; dsimp only [x]; clear x; rotate_left; intro hx; clear_value x))
    | (extract_lets +onlyGivenNames x; focus (refine (?_ : (∀ p a, Keeps s0 p → Keeps s0 (x p a)) → _) ?_; rotate_left; dsimp only [x]; clear x; rotate_left; intro hx; clear_value x))
    | (extract_lets +onlyGivenNames x; focus (refine (?_ : (∀ p a, Keeps s0 p.1 → Keeps s0 (x p a).1) → _) ?_; rotate_left; dsimp only [x]; clear x; rotate_left; intro hx; clear_value x))
    | (extract_lets +onlyGivenNames x; focus (refine (?_ : (∀ p, Keeps s0 p → Keeps s0 (x p)) → _) ?_; rotate_left; dsimp only [x]; clear x; rotate_left; intro hx; clear_value x))
    | (extract_lets +onlyGivenNames x; clear_value x)
    | with_reducible exact hk
    | with_reducible assumption
    | with_reducible apply statEvent_keeps
    | with_reducible apply Keeps.ite
    | (with_reducible apply Keeps.foldl; intro _ _ _)
    | (with_reducible apply Keeps.foldlFst; intro _ _ _)
    | with_reducible apply_assumption
    | split
    | dsimp only)

theorem veCopy_keeps {s0 : State} (s : State) (n : Nat) (w : Word256) (c : Nat) (lim : Option Nat) (hk : Keeps s0 s) :
    Keeps s0 (State.veCopy s n w c lim) := by
  unfold State.veCopy
  repeat (first
    | intro _
    | (extract_lets +onlyGivenNames x; focus (refine (?_ : Keeps s0 x → _) ?_; rotate_left; dsimp only [x]; clear x; rotate_left; intro hx; clear_value x))
    | (extract_lets +onlyGivenNames x; focus (refine (?_ : Keeps s0 x.1 → _) ?_; rotate_left; dsimp only [x]; clear x; rotate_left; intro hx; clear_value x))
    | (extract_lets +onlyGivenNames x; focus (refine (?_ : Keeps s0 x.2 → _) ?_; rotate_left; dsimp only [x]; clear x; rotate_left; intro hx; clear_value x))
    | (extract_lets +onlyGivenNames x; focus (refine (?_ : (∀ p a, Keeps s0 p → Keeps s0 (x p a)) → _) ?_; rotate_left; dsimp only [x]; clear x; rotate_left; intro hx; clear_value x))
    | (extract_lets +onlyGivenNames x; focus (refine (?_ : (∀ p a, Keeps s0 p.1 → Keeps s0 (x p a).1) → _) ?_; rotate_left; dsimp only [x]; clear x; rotate_left; intro hx; clear_value x))
    | (extract_lets +onlyGivenNames x; focus (refine (?_ : (∀ p, Keeps s0 p → Keeps s0 (x p)) → _) ?_; rotate_left; dsimp only [x]; clear x; rotate_left; intro hx; clear_value x))
    | (extract_lets +onlyGivenNames x; clear_value x)
    | with_reducible exact hk
    | with_reducible assumption
    | with_reducible apply issue_keeps
    | with_reducible apply streamFault_keeps
    | with_reducible apply veBegin_keeps
    | with_reducible apply copyBytes_keeps
    | with_reducible apply copyEvents_keeps
    | (with_reducible apply Keeps.foldl; intro _ _ _)
    | (with_reducible apply Keeps.foldlFst; intro _ _ _)
    | with_reducible exact Keeps.upd (by with_reducible assumption)
    | (with_reducible refine Keeps.updLists (by with_reducible assumption) ?_ ?_ ?_ ?_ ?_ <;> first | rfl | exact Nat.le_refl _ | exact Nat.le_max_left _ _ | exact Nat.le_succ _ | exact modAt_length _ _ _ | exact List.length_map _)
    | fail_if_no_progress (with_reducible apply Keeps.upd)
    | fail_if_no_progress (with_reducible refine Keeps.updLists ?_ ?_ ?_ ?_ ?_ ?_; rotate_left; iterate 5 (first | rfl | exact Nat.le_refl _ | exact Nat.le_max_left _ _ | exact Nat.le_succ _ | exact modAt_length _ _ _ | exact List.length_map _))
    | with_reducible apply_assumption
    | split
    | dsimp only)

theorem decayEl_keeps {s0 : State} (s : State) (n : Nat) (t : TensorEnt) (kappa : Nat) (copied : Bool) (off gidx x : Nat) (c : EvCnt) (hk : Keeps s0 s) :
    Keeps s0 (State.decayEl s n t kappa copied off gidx x c).1 := by
  unfold State.decayEl
  repeat (first
    | intro _
    | (extract_lets +onlyGivenNames x; focus (refine (?_ : Keeps s0 x → _) ?_; rotate_left; dsimp only [x]; clear x; rotate_left; intro hx; clear_value x))
    | (extract_lets +onlyGivenNames x; focus (refine (?_ : Keeps s0 x.1 → _) ?_; rotate_left; dsimp only [x]; clear x; rotate_left; intro hx; clear_value x))
    | (extract_lets +onlyGivenNames x; focus (refine (?_ : Keeps s0 x.2 → _) ?_; rotate_left; dsimp only [x]; clear x; rotate_left; intro hx; clear_value x))
    | (extract_lets +onlyGivenNames x; clear_value x)
    | with_reducible exact hk
    | with_reducible assumption
    | with_reducible apply wrN_keeps
    | with_reducible apply statEvent_keeps
    | with_reducible apply Keeps.ite
    | split
    | dsimp only)

theorem veDecay_keeps {s0 : State} (s : State) (n : Nat) (w : Word256) (c : Nat) (lim : Option Nat) (hk : Keeps s0 s) :
    Keeps s0 (State.veDecay s n w c lim) := by
  unfold State.veDecay
  repeat (first
    | intro _
    | (extract_lets +onlyGivenNames x; focus (refine (?_ : Keeps s0 x → _) ?_; rotate_left; dsimp only [x]; clear x; rotate_left; intro hx; clear_value x))
    | (extract_lets +onlyGivenNames x; focus (refine (?_ : Keeps s0 x.1 → _) ?_; rotate_left; dsimp only [x]; clear x; rotate_left; intro hx; clear_value x))
    | (extract_lets +onlyGivenNames x; focus (refine (?_ : Keeps s0 x.2 → _) ?_; rotate_left; dsimp only [x]; clear x; rotate_left; intro hx; clear_value x))
    | (extract_lets +onlyGivenNames x; focus (refine (?_ : (∀ p a, Keeps s0 p → Keeps s0 (x p a)) → _) ?_; rotate_left; dsimp only [x]; clear x; rotate_left; intro hx; clear_value x))
    | (extract_lets +onlyGivenNames x; focus (refine (?_ : (∀ p a, Keeps s0 p.1 → Keeps s0 (x p a).1) → _) ?_; rotate_left; dsimp only [x]; clear x; rotate_left; intro hx; clear_value x))
    | (extract_lets +onlyGivenNames x; focus (refine (?_ : (∀ p, Keeps s0 p → Keeps s0 (x p)) → _) ?_; rotate_left; dsimp only [x]; clear x; rotate_left; intro hx; clear_value x))
    | (extract_lets +onlyGivenNames x; clear_value x)
    | with_reducible exact hk
    | with_reducible assumption
    | with_reducible apply issue_keeps
    | with_reducible apply streamFault_keeps
    | with_reducible apply veBegin_keeps
    | with_reducible apply decayEl_keeps
    | with_reducible apply veEvents_keeps
    | with_reducible apply wrN_keeps
    | with_reducible apply statEvent_keeps
    | with_reducible apply Keeps.ite
    | (with_reducible apply Keeps.foldl; intro _ _ _)
    | (with_reducible apply Keeps.foldlFst; intro _ _ _)
    | with_reducible exact Keeps.upd (by with_reducible assumption)
    | (with_reducible refine Keeps.updLists (by with_reducible assumption) ?_ ?_ ?_ ?_ ?_ <;> first | rfl | exact Nat.le_refl _ | exact Nat.le_max_left _ _ | exact Nat.le_succ _ | exact modAt_length _ _ _ | exact List.length_map _)
    | fail_if_no_progress (with_reducible apply Keeps.upd)
    | fail_if_no_progress (with_reducible refine Keeps.updLists ?_ ?_ ?_ ?_ ?_ ?_; rotate_left; iterate 5 (first | rfl | exact Nat.le_refl _ | exact Nat.le_max_left _ _ | exact Nat.le_succ _ | exact modAt_length _ _ _ | exact List.length_map _))
    | with_reducible apply_assumption
    | split
    | dsimp only)

theorem updEvent_keeps {s0 : State} (s : State) (n tensor elem role : Nat) (v : FVal) (sat : Bool) (hk : Keeps s0 s) :
    Keeps s0 (State.updEvent s n tensor elem role v sat) := by
  unfold State.updEvent
  repeat (first
    | intro _
    | (extract_lets +onlyGivenNames x; focus (refine (?_ : Keeps s0 x → _) ?_; rotate_left; dsimp only [x]; clear x; rotate_left; intro hx; clear_value x))
    | (extract_lets +onlyGivenNames x; focus (refine (?_ : Keeps s0 x.1 → _) ?_; rotate_left; dsimp only [x]; clear x; rotate_left; intro hx; clear_value x))
    | (extract_lets +onlyGivenNames x; clear_value x)
    | with_reducible exact hk
    | with_reducible assumption
    | with_reducible apply record_keeps
    | with_reducible apply fadd_keeps
    | with_reducible apply setSts_keeps
    | with_reducible apply setNonfinite_keeps
    | with_reducible apply Keeps.ite
    | with_reducible exact Keeps.upd (by with_reducible assumption)
    | (with_reducible refine Keeps.updLists (by with_reducible assumption) ?_ ?_ ?_ ?_ ?_ <;> first | rfl | exact Nat.le_refl _ | exact Nat.le_max_left _ _ | exact Nat.le_succ _ | exact modAt_length _ _ _ | exact List.length_map _)
    | fail_if_no_progress (with_reducible apply Keeps.upd)
    | fail_if_no_progress (with_reducible refine Keeps.updLists ?_ ?_ ?_ ?_ ?_ ?_; rotate_left; iterate 5 (first | rfl | exact Nat.le_refl _ | exact Nat.le_max_left _ _ | exact Nat.le_succ _ | exact modAt_length _ _ _ | exact List.length_map _))
    | split
    | dsimp only)

theorem updElem_keeps {s0 : State} (s : State) (n : Nat) (w : Word256) (x : UpdCtx) (sets : List UpdSet) (i j : Nat) (hk : Keeps s0 s) :
    Keeps s0 (State.updElem s n w x sets i j) := by
  unfold State.updElem
  repeat (first
    | intro _
    | (extract_lets +onlyGivenNames x; focus (refine (?_ : Keeps s0 x → _) ?_; rotate_left; dsimp only [x]; clear x; rotate_left; intro hx; clear_value x))
    | (extract_lets +onlyGivenNames x; focus (refine (?_ : Keeps s0 x.1 → _) ?_; rotate_left; dsimp only [x]; clear x; rotate_left; intro hx; clear_value x))
    | (extract_lets +onlyGivenNames x; clear_value x)
    | with_reducible exact hk
    | with_reducible assumption
    | with_reducible apply wrN_keeps
    | with_reducible apply updEvent_keeps
    | with_reducible apply convEvents_keeps
    | with_reducible apply veEvents_keeps
    | with_reducible apply Keeps.ite
    | with_reducible exact Keeps.upd (by with_reducible assumption)
    | (with_reducible refine Keeps.updLists (by with_reducible assumption) ?_ ?_ ?_ ?_ ?_ <;> first | rfl | exact Nat.le_refl _ | exact Nat.le_max_left _ _ | exact Nat.le_succ _ | exact modAt_length _ _ _ | exact List.length_map _)
    | fail_if_no_progress (with_reducible apply Keeps.upd)
    | fail_if_no_progress (with_reducible refine Keeps.updLists ?_ ?_ ?_ ?_ ?_ ?_; rotate_left; iterate 5 (first | rfl | exact Nat.le_refl _ | exact Nat.le_max_left _ _ | exact Nat.le_succ _ | exact modAt_length _ _ _ | exact List.length_map _))
    | split
    | dsimp only)

theorem parkBucket_keeps {s0 : State} (s : State) (t : TensorEnt) (bucket slot : Nat) (hk : Keeps s0 s) :
    Keeps s0 (State.parkBucket s t bucket slot) := by
  unfold State.parkBucket
  repeat (first
    | intro _
    | (extract_lets +onlyGivenNames x; focus (refine (?_ : Keeps s0 x → _) ?_; rotate_left; dsimp only [x]; clear x; rotate_left; intro hx; clear_value x))
    | (extract_lets +onlyGivenNames x; focus (refine (?_ : Keeps s0 x.1 → _) ?_; rotate_left; dsimp only [x]; clear x; rotate_left; intro hx; clear_value x))
    | (extract_lets +onlyGivenNames x; clear_value x)
    | with_reducible exact hk
    | with_reducible assumption
    | with_reducible apply setLag_keeps
    | with_reducible exact Keeps.upd (by with_reducible assumption)
    | (with_reducible refine Keeps.updLists (by with_reducible assumption) ?_ ?_ ?_ ?_ ?_ <;> first | rfl | exact Nat.le_refl _ | exact Nat.le_max_left _ _ | exact Nat.le_succ _ | exact modAt_length _ _ _ | exact List.length_map _)
    | fail_if_no_progress (with_reducible apply Keeps.upd)
    | fail_if_no_progress (with_reducible refine Keeps.updLists ?_ ?_ ?_ ?_ ?_ ?_; rotate_left; iterate 5 (first | rfl | exact Nat.le_refl _ | exact Nat.le_max_left _ _ | exact Nat.le_succ _ | exact modAt_length _ _ _ | exact List.length_map _))
    | split
    | dsimp only)

theorem countIdentity_keeps {s0 : State} (s : State) (n : Nat) (f : ImageFile) (t : TensorEnt) (rs : RuleSet) (bucket : Nat) (hk : Keeps s0 s) :
    Keeps s0 (State.countIdentity s n f t rs bucket) := by
  unfold State.countIdentity
  repeat (first
    | intro _
    | (extract_lets +onlyGivenNames x; focus (refine (?_ : Keeps s0 x → _) ?_; rotate_left; dsimp only [x]; clear x; rotate_left; intro hx; clear_value x))
    | (extract_lets +onlyGivenNames x; focus (refine (?_ : Keeps s0 x.1 → _) ?_; rotate_left; dsimp only [x]; clear x; rotate_left; intro hx; clear_value x))
    | (extract_lets +onlyGivenNames x; clear_value x)
    | with_reducible exact hk
    | with_reducible assumption
    | with_reducible apply fadd_keeps
    | with_reducible apply setSts_keeps
    | with_reducible apply Keeps.ite
    | with_reducible exact Keeps.upd (by with_reducible assumption)
    | (with_reducible refine Keeps.updLists (by with_reducible assumption) ?_ ?_ ?_ ?_ ?_ <;> first | rfl | exact Nat.le_refl _ | exact Nat.le_max_left _ _ | exact Nat.le_succ _ | exact modAt_length _ _ _ | exact List.length_map _)
    | fail_if_no_progress (with_reducible apply Keeps.upd)
    | fail_if_no_progress (with_reducible refine Keeps.updLists ?_ ?_ ?_ ?_ ?_ ?_; rotate_left; iterate 5 (first | rfl | exact Nat.le_refl _ | exact Nat.le_max_left _ _ | exact Nat.le_succ _ | exact modAt_length _ _ _ | exact List.length_map _))
    | split
    | dsimp only)

theorem countUpdate_keeps {s0 : State} (s : State) (hk : Keeps s0 s) :
    Keeps s0 (State.countUpdate s) := by
  unfold State.countUpdate
  repeat (first
    | intro _
    | (extract_lets +onlyGivenNames x; focus (refine (?_ : Keeps s0 x → _) ?_; rotate_left; dsimp only [x]; clear x; rotate_left; intro hx; clear_value x))
    | (extract_lets +onlyGivenNames x; focus (refine (?_ : Keeps s0 x.1 → _) ?_; rotate_left; dsimp only [x]; clear x; rotate_left; intro hx; clear_value x))
    | (extract_lets +onlyGivenNames x; clear_value x)
    | with_reducible exact hk
    | with_reducible assumption
    | with_reducible apply withRun_keeps
    | with_reducible apply Keeps.ite
    | with_reducible exact Keeps.upd (by with_reducible assumption)
    | (with_reducible refine Keeps.updLists (by with_reducible assumption) ?_ ?_ ?_ ?_ ?_ <;> first | rfl | exact Nat.le_refl _ | exact Nat.le_max_left _ _ | exact Nat.le_succ _ | exact modAt_length _ _ _ | exact List.length_map _)
    | fail_if_no_progress (with_reducible apply Keeps.upd)
    | fail_if_no_progress (with_reducible refine Keeps.updLists ?_ ?_ ?_ ?_ ?_ ?_; rotate_left; iterate 5 (first | rfl | exact Nat.le_refl _ | exact Nat.le_max_left _ _ | exact Nat.le_succ _ | exact modAt_length _ _ _ | exact List.length_map _))
    | split
    | dsimp only)

theorem veUpdate_keeps {s0 : State} (s : State) (n : Nat) (w : Word256) (c : Nat) (aux : List UpdAux) (lim : Option Nat) (hk : Keeps s0 s) :
    Keeps s0 (State.veUpdate s n w c aux lim) := by
  unfold State.veUpdate
  repeat (first
    | intro _
    | (extract_lets +onlyGivenNames x; focus (refine (?_ : Keeps s0 x → _) ?_; rotate_left; dsimp only [x]; clear x; rotate_left; intro hx; clear_value x))
    | (extract_lets +onlyGivenNames x; focus (refine (?_ : Keeps s0 x.1 → _) ?_; rotate_left; dsimp only [x]; clear x; rotate_left; intro hx; clear_value x))
    | (extract_lets +onlyGivenNames x; clear_value x)
    | with_reducible exact hk
    | with_reducible assumption
    | with_reducible apply issue_keeps
    | with_reducible apply streamFault_keeps
    | with_reducible apply veBegin_keeps
    | with_reducible apply parkBucket_keeps
    | with_reducible apply freeSlot_keeps
    | with_reducible apply countUpdate_keeps
    | with_reducible apply countIdentity_keeps
    | with_reducible apply fadd_keeps
    | with_reducible apply setSts_keeps
    | with_reducible apply veEvents_keeps
    | with_reducible apply updElem_keeps
    | with_reducible apply Keeps.ite
    | (with_reducible apply Keeps.foldl; intro _ _ _)
    | (with_reducible apply Keeps.foldlFst; intro _ _ _)
    | with_reducible exact Keeps.upd (by with_reducible assumption)
    | (with_reducible refine Keeps.updLists (by with_reducible assumption) ?_ ?_ ?_ ?_ ?_ <;> first | rfl | exact Nat.le_refl _ | exact Nat.le_max_left _ _ | exact Nat.le_succ _ | exact modAt_length _ _ _ | exact List.length_map _)
    | fail_if_no_progress (with_reducible apply Keeps.upd)
    | fail_if_no_progress (with_reducible refine Keeps.updLists ?_ ?_ ?_ ?_ ?_ ?_; rotate_left; iterate 5 (first | rfl | exact Nat.le_refl _ | exact Nat.le_max_left _ _ | exact Nat.le_succ _ | exact modAt_length _ _ _ | exact List.length_map _))
    | split
    | dsimp only)

theorem veEwise_keeps {s0 : State} (s : State) (n : Nat) (w : Word256) (c : Nat) (loc : VeLoc) (lim : Option Nat) (hk : Keeps s0 s) :
    Keeps s0 (State.veEwise s n w c loc lim) := by
  unfold State.veEwise
  repeat (first
    | intro _
    | (extract_lets +onlyGivenNames x; focus (refine (?_ : Keeps s0 x → _) ?_; rotate_left; dsimp only [x]; clear x; rotate_left; intro hx; clear_value x))
    | (extract_lets +onlyGivenNames x; focus (refine (?_ : Keeps s0 x.1 → _) ?_; rotate_left; dsimp only [x]; clear x; rotate_left; intro hx; clear_value x))
    | (extract_lets +onlyGivenNames x; focus (refine (?_ : Keeps s0 x.2 → _) ?_; rotate_left; dsimp only [x]; clear x; rotate_left; intro hx; clear_value x))
    | (extract_lets +onlyGivenNames x; clear_value x)
    | with_reducible exact hk
    | with_reducible assumption
    | with_reducible apply veBegin_keeps
    | with_reducible apply streamFault_keeps
    | with_reducible apply wrEl_keeps
    | with_reducible apply veEvents_keeps
    | with_reducible apply Keeps.ite
    | (with_reducible apply Keeps.foldl; intro _ _ _)
    | (with_reducible apply Keeps.foldlFst; intro _ _ _)
    | split
    | dsimp only)

theorem veEnd_keeps {s0 : State} (s : State) (n : Nat) (w : Word256) (c : Nat) (hk : Keeps s0 s) :
    Keeps s0 (State.veEnd s n w c) := by
  unfold State.veEnd
  repeat (first
    | intro _
    | ((with_reducible refine withTiles_keeps (fun t h => ?_) ?_); focus (have k := h; obtain ⟨h1, h2, h3, h4, h5, h6, h7, h8, h9⟩ := h; refine ⟨?_, ?_, ?_, ?_, ?_, ?_, ?_, ?_, ?_⟩ <;> first | with_reducible exact h9 | exact (insLine_sorted _ _ h9).1 | with_reducible exact h1 | with_reducible exact h2 | with_reducible exact h3 | with_reducible exact h4 | with_reducible exact h5 | with_reducible exact h6 | with_reducible exact h7 | with_reducible exact h8 | with_reducible exact tabWf_tabPut _ _ _ _ h1 | with_reducible exact tabWf_tabPut _ _ _ _ h2 | with_reducible exact tabWf_tabPut _ _ _ _ h3 | with_reducible exact tabWf_tabPut _ _ _ _ h4 | with_reducible exact tabWf_tabPut _ _ _ _ h5 | with_reducible exact tabWf_tabPut _ _ _ _ h6 | with_reducible exact tabWf_tabPut _ _ _ _ h7 | with_reducible exact tabWf_tabPut _ _ _ _ h8 | with_reducible exact tabWf_nil _ | exact List.Pairwise.nil))
    | (extract_lets +onlyGivenNames x; focus (refine (?_ : Keeps s0 x → _) ?_; rotate_left; dsimp only [x]; clear x; rotate_left; intro hx; clear_value x))
    | (extract_lets +onlyGivenNames x; focus (refine (?_ : Keeps s0 x.1 → _) ?_; rotate_left; dsimp only [x]; clear x; rotate_left; intro hx; clear_value x))
    | (extract_lets +onlyGivenNames x; clear_value x)
    | with_reducible exact hk
    | with_reducible assumption
    | with_reducible apply issue_keeps
    | with_reducible exact Keeps.upd (by with_reducible assumption)
    | (with_reducible refine Keeps.updLists (by with_reducible assumption) ?_ ?_ ?_ ?_ ?_ <;> first | rfl | exact Nat.le_refl _ | exact Nat.le_max_left _ _ | exact Nat.le_succ _ | exact modAt_length _ _ _ | exact List.length_map _)
    | fail_if_no_progress (with_reducible apply Keeps.upd)
    | fail_if_no_progress (with_reducible refine Keeps.updLists ?_ ?_ ?_ ?_ ?_ ?_; rotate_left; iterate 5 (first | rfl | exact Nat.le_refl _ | exact Nat.le_max_left _ _ | exact Nat.le_succ _ | exact modAt_length _ _ _ | exact List.length_map _))
    | dsimp only)

end Sys2Proof.Laws
end

