-- ==== Sys2Proof/Laws/KeepJob.lean ====
section
/-! SUPPORT. What the operations of Machine/Job.lean keep. -/

namespace Sys2Proof.Laws

open Sys2Proof.Machine

theorem evqKeep_keeps {s0 : State} (s t : State) (fn : Nat) (hk : Keeps s0 t) :
    Keeps s0 (State.evqKeep s t fn) := by
  unfold State.evqKeep
  repeat (first
    | intro _
    | (extract_lets +onlyGivenNames x; focus (refine (?_ : Keeps s0 x → _) ?_; rotate_left; dsimp only [x]; clear x; rotate_left; intro hx; clear_value x))
    | (extract_lets +onlyGivenNames x; focus (refine (?_ : Keeps s0 x.1 → _) ?_; rotate_left; dsimp only [x]; clear x; rotate_left; intro hx; clear_value x))
    | (extract_lets +onlyGivenNames x; clear_value x)
    | with_reducible exact hk
    | with_reducible assumption
    | with_reducible apply regPut_keeps
    | with_reducible apply Keeps.ite
    | (with_reducible apply Keeps.foldl; intro _ _ _)
    | (with_reducible apply Keeps.foldlFst; intro _ _ _)
    | split
    | dsimp only)

theorem clearF_keeps {s0 : State} (s : State) (fn : Nat) (hk : Keeps s0 s) :
    Keeps s0 (State.clearF s fn) := by
  unfold State.clearF
  repeat (first
    | intro _
    | with_reducible exact hk
    | with_reducible assumption
    | with_reducible apply evqKeep_keeps
    | with_reducible apply clearRegs_keeps
    | dsimp only)

theorem keepRecord_keeps {s0 : State} (s : State) (hk : Keeps s0 s) :
    Keeps s0 (State.keepRecord s) := by
  unfold State.keepRecord
  repeat (first
    | intro _
    | with_reducible exact hk
    | with_reducible assumption
    | with_reducible apply fsetAll_keeps
    | dsimp only)

theorem clearJ_keeps {s0 : State} (s : State) (hk : Keeps s0 s) :
    Keeps s0 (State.clearJ s) := by
  unfold State.clearJ
  repeat (first
    | intro _
    | with_reducible exact hk
    | with_reducible assumption
    | with_reducible apply clearRegs_keeps
    | dsimp only)

theorem restoreSts_keeps {s0 : State} (s : State) (kind cleared tiles crackers : Nat) (hbm ctxs retest : Bool) (hk : Keeps s0 s) :
    Keeps s0 (State.restoreSts s kind cleared tiles crackers hbm ctxs retest) := by
  unfold State.restoreSts
  repeat (first
    | intro _
    | (extract_lets +onlyGivenNames x; focus (refine (?_ : Keeps s0 x → _) ?_; rotate_left; dsimp only [x]; clear x; rotate_left; intro hx; clear_value x))
    | (extract_lets +onlyGivenNames x; focus (refine (?_ : Keeps s0 x.1 → _) ?_; rotate_left; dsimp only [x]; clear x; rotate_left; intro hx; clear_value x))
    | (extract_lets +onlyGivenNames x; clear_value x)
    | with_reducible exact hk
    | with_reducible assumption
    | with_reducible apply fsetAll_keeps
    | dsimp only)

theorem commandDone_keeps {s0 : State} (s : State) (ctx tag opcode status detail : Nat) (hk : Keeps s0 s) :
    Keeps s0 (State.commandDone s ctx tag opcode status detail) := by
  unfold State.commandDone
  repeat (first
    | intro _
    | with_reducible exact hk
    | with_reducible assumption
    | with_reducible apply event_keeps
    | dsimp only)

theorem exportEvent_keeps {s0 : State} (s : State) (ctx result kind written4k tag : Nat) (c : Ccr) (hk : Keeps s0 s) :
    Keeps s0 (State.exportEvent s ctx result kind written4k tag c) := by
  unfold State.exportEvent
  repeat (first
    | intro _
    | with_reducible exact hk
    | with_reducible assumption
    | with_reducible apply event_keeps
    | dsimp only)

theorem abortEvent_keeps {s0 : State} (s : State) (origin cause : Nat) (hk : Keeps s0 s) :
    Keeps s0 (State.abortEvent s origin cause) := by
  unfold State.abortEvent
  repeat (first
    | intro _
    | with_reducible exact hk
    | with_reducible assumption
    | with_reducible apply event_keeps
    | dsimp only)

theorem abandonCmds_keeps {s0 : State} (s : State) (p : PendCmd → Bool) (hk : Keeps s0 s) :
    Keeps s0 (State.abandonCmds s p) := by
  unfold State.abandonCmds
  repeat (first
    | intro _
    | (extract_lets +onlyGivenNames x; focus (refine (?_ : Keeps s0 x → _) ?_; rotate_left; dsimp only [x]; clear x; rotate_left; intro hx; clear_value x))
    | (extract_lets +onlyGivenNames x; focus (refine (?_ : Keeps s0 x.1 → _) ?_; rotate_left; dsimp only [x]; clear x; rotate_left; intro hx; clear_value x))
    | (extract_lets +onlyGivenNames x; clear_value x)
    | with_reducible exact hk
    | with_reducible assumption
    | with_reducible apply commandDone_keeps
    | with_reducible apply withHost_keeps
    | (with_reducible apply Keeps.foldl; intro _ _ _)
    | (with_reducible apply Keeps.foldlFst; intro _ _ _)
    | with_reducible exact Keeps.upd (by with_reducible assumption)
    | (with_reducible refine Keeps.updLists (by with_reducible assumption) ?_ ?_ ?_ ?_ ?_ <;> first | rfl | exact Nat.le_refl _ | exact Nat.le_max_left _ _ | exact Nat.le_succ _ | exact modAt_length _ _ _ | exact List.length_map _)
    | fail_if_no_progress (with_reducible apply Keeps.upd)
    | fail_if_no_progress (with_reducible refine Keeps.updLists ?_ ?_ ?_ ?_ ?_ ?_; rotate_left; iterate 5 (first | rfl | exact Nat.le_refl _ | exact Nat.le_max_left _ _ | exact Nat.le_succ _ | exact modAt_length _ _ _ | exact List.length_map _))
    | dsimp only)

theorem abandonExport_keeps {s0 : State} (s : State) (hk : Keeps s0 s) :
    Keeps s0 (State.abandonExport s) := by
  unfold State.abandonExport
  repeat (first
    | intro _
    | (extract_lets +onlyGivenNames x; focus (refine (?_ : Keeps s0 x → _) ?_; rotate_left; dsimp only [x]; clear x; rotate_left; intro hx; clear_value x))
    | (extract_lets +onlyGivenNames x; focus (refine (?_ : Keeps s0 x.1 → _) ?_; rotate_left; dsimp only [x]; clear x; rotate_left; intro hx; clear_value x))
    | (extract_lets +onlyGivenNames x; clear_value x)
    | with_reducible exact hk
    | with_reducible assumption
    | with_reducible apply withHost_keeps
    | with_reducible apply setSts_keeps
    | with_reducible apply fsetAll_keeps
    | with_reducible apply commandDone_keeps
    | with_reducible apply exportEvent_keeps
    | with_reducible apply Keeps.ite
    | with_reducible exact Keeps.upd (by with_reducible assumption)
    | (with_reducible refine Keeps.updLists (by with_reducible assumption) ?_ ?_ ?_ ?_ ?_ <;> first | rfl | exact Nat.le_refl _ | exact Nat.le_max_left _ _ | exact Nat.le_succ _ | exact modAt_length _ _ _ | exact List.length_map _)
    | fail_if_no_progress (with_reducible apply Keeps.upd)
    | fail_if_no_progress (with_reducible refine Keeps.updLists ?_ ?_ ?_ ?_ ?_ ?_; rotate_left; iterate 5 (first | rfl | exact Nat.le_refl _ | exact Nat.le_max_left _ _ | exact Nat.le_succ _ | exact modAt_length _ _ _ | exact List.length_map _))
    | split
    | dsimp only)

theorem abandonDescs_keeps {s0 : State} (s : State) (p : Desc → Bool) (hk : Keeps s0 s) :
    Keeps s0 (State.abandonDescs s p) := by
  unfold State.abandonDescs
  repeat (first
    | intro _
    | (extract_lets +onlyGivenNames x; focus (refine (?_ : Keeps s0 x → _) ?_; rotate_left; dsimp only [x]; clear x; rotate_left; intro hx; clear_value x))
    | (extract_lets +onlyGivenNames x; focus (refine (?_ : Keeps s0 x.1 → _) ?_; rotate_left; dsimp only [x]; clear x; rotate_left; intro hx; clear_value x))
    | (extract_lets +onlyGivenNames x; clear_value x)
    | with_reducible exact hk
    | with_reducible assumption
    | with_reducible apply withHost_keeps
    | with_reducible apply fset_keeps
    | with_reducible apply commandDone_keeps
    | (with_reducible apply Keeps.foldl; intro _ _ _)
    | (with_reducible apply Keeps.foldlFst; intro _ _ _)
    | with_reducible exact Keeps.upd (by with_reducible assumption)
    | (with_reducible refine Keeps.updLists (by with_reducible assumption) ?_ ?_ ?_ ?_ ?_ <;> first | rfl | exact Nat.le_refl _ | exact Nat.le_max_left _ _ | exact Nat.le_succ _ | exact modAt_length _ _ _ | exact List.length_map _)
    | fail_if_no_progress (with_reducible apply Keeps.upd)
    | fail_if_no_progress (with_reducible refine Keeps.updLists ?_ ?_ ?_ ?_ ?_ ?_; rotate_left; iterate 5 (first | rfl | exact Nat.le_refl _ | exact Nat.le_max_left _ _ | exact Nat.le_succ _ | exact modAt_length _ _ _ | exact List.length_map _))
    | split
    | dsimp only)

theorem abandonHarvest_keeps {s0 : State} (s : State) (stayDue : Bool) (hk : Keeps s0 s) :
    Keeps s0 (State.abandonHarvest s stayDue) := by
  unfold State.abandonHarvest
  repeat (first
    | intro _
    | (extract_lets +onlyGivenNames x; focus (refine (?_ : Keeps s0 x → _) ?_; rotate_left; dsimp only [x]; clear x; rotate_left; intro hx; clear_value x))
    | (extract_lets +onlyGivenNames x; focus (refine (?_ : Keeps s0 x.1 → _) ?_; rotate_left; dsimp only [x]; clear x; rotate_left; intro hx; clear_value x))
    | (extract_lets +onlyGivenNames x; clear_value x)
    | with_reducible exact hk
    | with_reducible assumption
    | with_reducible apply withHost_keeps
    | with_reducible apply fsetAll_keeps
    | with_reducible apply fadd_keeps
    | with_reducible apply setSts_keeps
    | with_reducible apply Keeps.ite
    | with_reducible exact Keeps.upd (by with_reducible assumption)
    | (with_reducible refine Keeps.updLists (by with_reducible assumption) ?_ ?_ ?_ ?_ ?_ <;> first | rfl | exact Nat.le_refl _ | exact Nat.le_max_left _ _ | exact Nat.le_succ _ | exact modAt_length _ _ _ | exact List.length_map _)
    | fail_if_no_progress (with_reducible apply Keeps.upd)
    | fail_if_no_progress (with_reducible refine Keeps.updLists ?_ ?_ ?_ ?_ ?_ ?_; rotate_left; iterate 5 (first | rfl | exact Nat.le_refl _ | exact Nat.le_max_left _ _ | exact Nat.le_succ _ | exact modAt_length _ _ _ | exact List.length_map _))
    | split
    | dsimp only)

theorem stopTicks_keeps {s0 : State} (s : State) (hk : Keeps s0 s) : Keeps s0 (State.stopTicks s) :=
  Keeps.updTiles (s := { s with links := (State.stopTicks s).links })
    (fun h => dropTick_wf (dropFlights_wf _ h))
    (Keeps.updLists hk (Nat.le_refl _) rfl rfl rfl (List.length_map _))

theorem ctxToLoaded_keeps {s0 : State} (s : State) (hk : Keeps s0 s) :
    Keeps s0 (State.ctxToLoaded s) := by
  unfold State.ctxToLoaded
  repeat (first
    | intro _
    | (extract_lets +onlyGivenNames x; focus (refine (?_ : Keeps s0 x → _) ?_; rotate_left; dsimp only [x]; clear x; rotate_left; intro hx; clear_value x))
    | (extract_lets +onlyGivenNames x; focus (refine (?_ : Keeps s0 x.1 → _) ?_; rotate_left; dsimp only [x]; clear x; rotate_left; intro hx; clear_value x))
    | (extract_lets +onlyGivenNames x; clear_value x)
    | with_reducible exact hk
    | with_reducible assumption
    | with_reducible apply setCtx_keeps
    | with_reducible exact Keeps.upd (by with_reducible assumption)
    | (with_reducible refine Keeps.updLists (by with_reducible assumption) ?_ ?_ ?_ ?_ ?_ <;> first | rfl | exact Nat.le_refl _ | exact Nat.le_max_left _ _ | exact Nat.le_succ _ | exact modAt_length _ _ _ | exact List.length_map _)
    | fail_if_no_progress (with_reducible apply Keeps.upd)
    | fail_if_no_progress (with_reducible refine Keeps.updLists ?_ ?_ ?_ ?_ ?_ ?_; rotate_left; iterate 5 (first | rfl | exact Nat.le_refl _ | exact Nat.le_max_left _ _ | exact Nat.le_succ _ | exact modAt_length _ _ _ | exact List.length_map _))
    | split
    | dsimp only)

theorem savesAbandoned_keeps {s0 : State} (s : State) (hk : Keeps s0 s) :
    Keeps s0 (State.savesAbandoned s) := by
  unfold State.savesAbandoned
  repeat (first
    | intro _
    | (extract_lets +onlyGivenNames x; focus (refine (?_ : Keeps s0 x → _) ?_; rotate_left; dsimp only [x]; clear x; rotate_left; intro hx; clear_value x))
    | (extract_lets +onlyGivenNames x; focus (refine (?_ : Keeps s0 x.1 → _) ?_; rotate_left; dsimp only [x]; clear x; rotate_left; intro hx; clear_value x))
    | (extract_lets +onlyGivenNames x; clear_value x)
    | with_reducible exact hk
    | with_reducible assumption
    | with_reducible apply Keeps.ite
    | with_reducible exact Keeps.upd (by with_reducible assumption)
    | (with_reducible refine Keeps.updLists (by with_reducible assumption) ?_ ?_ ?_ ?_ ?_ <;> first | rfl | exact Nat.le_refl _ | exact Nat.le_max_left _ _ | exact Nat.le_succ _ | exact modAt_length _ _ _ | exact List.length_map _)
    | fail_if_no_progress (with_reducible apply Keeps.upd)
    | fail_if_no_progress (with_reducible refine Keeps.updLists ?_ ?_ ?_ ?_ ?_ ?_; rotate_left; iterate 5 (first | rfl | exact Nat.le_refl _ | exact Nat.le_max_left _ _ | exact Nat.le_succ _ | exact modAt_length _ _ _ | exact List.length_map _))
    | split
    | dsimp only)

theorem answerHeld_keeps {s0 : State} (s : State) (hk : Keeps s0 s) :
    Keeps s0 (State.answerHeld s) := by
  unfold State.answerHeld
  repeat (first
    | intro _
    | (extract_lets +onlyGivenNames x; focus (refine (?_ : Keeps s0 x → _) ?_; rotate_left; dsimp only [x]; clear x; rotate_left; intro hx; clear_value x))
    | (extract_lets +onlyGivenNames x; focus (refine (?_ : Keeps s0 x.1 → _) ?_; rotate_left; dsimp only [x]; clear x; rotate_left; intro hx; clear_value x))
    | (extract_lets +onlyGivenNames x; focus (refine (?_ : Keeps s0 x.2 → _) ?_; rotate_left; dsimp only [x]; clear x; rotate_left; intro hx; clear_value x))
    | (extract_lets +onlyGivenNames x; clear_value x)
    | with_reducible exact hk
    | with_reducible assumption
    | with_reducible apply emit_keeps
    | with_reducible apply withHost_keeps
    | (with_reducible apply Keeps.foldl; intro _ _ _)
    | (with_reducible apply Keeps.foldlFst; intro _ _ _)
    | with_reducible exact Keeps.upd (by with_reducible assumption)
    | (with_reducible refine Keeps.updLists (by with_reducible assumption) ?_ ?_ ?_ ?_ ?_ <;> first | rfl | exact Nat.le_refl _ | exact Nat.le_max_left _ _ | exact Nat.le_succ _ | exact modAt_length _ _ _ | exact List.length_map _)
    | fail_if_no_progress (with_reducible apply Keeps.upd)
    | fail_if_no_progress (with_reducible refine Keeps.updLists ?_ ?_ ?_ ?_ ?_ ?_; rotate_left; iterate 5 (first | rfl | exact Nat.le_refl _ | exact Nat.le_max_left _ _ | exact Nat.le_succ _ | exact modAt_length _ _ _ | exact List.length_map _))
    | dsimp only)

theorem emptyAtc_keeps {s0 : State} (s : State) (hk : Keeps s0 s) :
    Keeps s0 (State.emptyAtc s) := by
  unfold State.emptyAtc
  repeat (first
    | intro _
    | (extract_lets +onlyGivenNames x; focus (refine (?_ : Keeps s0 x → _) ?_; rotate_left; dsimp only [x]; clear x; rotate_left; intro hx; clear_value x))
    | (extract_lets +onlyGivenNames x; focus (refine (?_ : Keeps s0 x.1 → _) ?_; rotate_left; dsimp only [x]; clear x; rotate_left; intro hx; clear_value x))
    | (extract_lets +onlyGivenNames x; clear_value x)
    | with_reducible exact hk
    | with_reducible assumption
    | with_reducible apply answerHeld_keeps
    | with_reducible apply withHost_keeps
    | with_reducible exact Keeps.upd (by with_reducible assumption)
    | (with_reducible refine Keeps.updLists (by with_reducible assumption) ?_ ?_ ?_ ?_ ?_ <;> first | rfl | exact Nat.le_refl _ | exact Nat.le_max_left _ _ | exact Nat.le_succ _ | exact modAt_length _ _ _ | exact List.length_map _)
    | fail_if_no_progress (with_reducible apply Keeps.upd)
    | fail_if_no_progress (with_reducible refine Keeps.updLists ?_ ?_ ?_ ?_ ?_ ?_; rotate_left; iterate 5 (first | rfl | exact Nat.le_refl _ | exact Nat.le_max_left _ _ | exact Nat.le_succ _ | exact modAt_length _ _ _ | exact List.length_map _))
    | dsimp only)

theorem jobReset_keeps {s0 : State} (s : State) (kind : Nat) (hk : Keeps s0 s) :
    Keeps s0 (State.jobReset s kind) := by
  unfold State.jobReset
  repeat (first
    | intro _
    | (extract_lets +onlyGivenNames x; focus (refine (?_ : Keeps s0 x → _) ?_; rotate_left; dsimp only [x]; clear x; rotate_left; intro hx; clear_value x))
    | (extract_lets +onlyGivenNames x; focus (refine (?_ : Keeps s0 x.1 → _) ?_; rotate_left; dsimp only [x]; clear x; rotate_left; intro hx; clear_value x))
    | (extract_lets +onlyGivenNames x; clear_value x)
    | with_reducible exact hk
    | with_reducible assumption
    | with_reducible apply abandonCmds_keeps
    | with_reducible apply abandonExport_keeps
    | with_reducible apply abandonHarvest_keeps
    | with_reducible apply abandonDescs_keeps
    | with_reducible apply ctxToLoaded_keeps
    | with_reducible apply savesAbandoned_keeps
    | with_reducible apply stopTicks_keeps
    | with_reducible apply clearJ_keeps
    | with_reducible apply emptyAtc_keeps
    | with_reducible apply restoreSts_keeps
    | with_reducible apply Keeps.ite
    | split
    | dsimp only)

theorem abortJob_keeps {s0 : State} (s : State) (origin cause tick : Nat) (hk : Keeps s0 s) :
    Keeps s0 (State.abortJob s origin cause tick) := by
  unfold State.abortJob
  repeat (first
    | intro _
    | (extract_lets +onlyGivenNames x; focus (refine (?_ : Keeps s0 x → _) ?_; rotate_left; dsimp only [x]; clear x; rotate_left; intro hx; clear_value x))
    | (extract_lets +onlyGivenNames x; focus (refine (?_ : Keeps s0 x.1 → _) ?_; rotate_left; dsimp only [x]; clear x; rotate_left; intro hx; clear_value x))
    | (extract_lets +onlyGivenNames x; clear_value x)
    | with_reducible exact hk
    | with_reducible assumption
    | with_reducible apply abortEvent_keeps
    | with_reducible apply fadd_keeps
    | with_reducible apply record_keeps
    | with_reducible apply jobReset_keeps
    | with_reducible apply Keeps.ite
    | split
    | dsimp only)

theorem beginAbort_keeps {s0 : State} (s : State) (cause : Nat) (hk : Keeps s0 s) :
    Keeps s0 (State.beginAbort s cause) := by
  unfold State.beginAbort
  repeat (first
    | intro _
    | (extract_lets +onlyGivenNames x; focus (refine (?_ : Keeps s0 x → _) ?_; rotate_left; dsimp only [x]; clear x; rotate_left; intro hx; clear_value x))
    | (extract_lets +onlyGivenNames x; focus (refine (?_ : Keeps s0 x.1 → _) ?_; rotate_left; dsimp only [x]; clear x; rotate_left; intro hx; clear_value x))
    | (extract_lets +onlyGivenNames x; clear_value x)
    | with_reducible exact hk
    | with_reducible assumption
    | with_reducible apply withJob_keeps
    | with_reducible apply setSts_keeps
    | with_reducible apply sendNotice_keeps
    | with_reducible apply Keeps.ite
    | with_reducible exact Keeps.upd (by with_reducible assumption)
    | (with_reducible refine Keeps.updLists (by with_reducible assumption) ?_ ?_ ?_ ?_ ?_ <;> first | rfl | exact Nat.le_refl _ | exact Nat.le_max_left _ _ | exact Nat.le_succ _ | exact modAt_length _ _ _ | exact List.length_map _)
    | fail_if_no_progress (with_reducible apply Keeps.upd)
    | fail_if_no_progress (with_reducible refine Keeps.updLists ?_ ?_ ?_ ?_ ?_ ?_; rotate_left; iterate 5 (first | rfl | exact Nat.le_refl _ | exact Nat.le_max_left _ _ | exact Nat.le_succ _ | exact modAt_length _ _ _ | exact List.length_map _))
    | split
    | dsimp only)

theorem noticeOut_keeps {s0 : State} (s : State) (hk : Keeps s0 s) :
    Keeps s0 (State.noticeOut s) := by
  unfold State.noticeOut
  repeat (first
    | intro _
    | with_reducible exact hk
    | with_reducible assumption
    | with_reducible apply sendNotice_keeps
    | with_reducible apply Keeps.ite
    | split
    | dsimp only)

theorem noticeSts_keeps {s0 : State} (s : State) (hk : Keeps s0 s) :
    Keeps s0 (State.noticeSts s) := by
  unfold State.noticeSts
  repeat (first
    | intro _
    | with_reducible exact hk
    | with_reducible assumption
    | with_reducible apply setSts_keeps
    | with_reducible apply Keeps.ite
    | split
    | dsimp only)

theorem resetFifo_keeps {s0 : State} (s : State) (f : Nat) (hk : Keeps s0 s) :
    Keeps s0 (State.resetFifo s f) := by
  unfold State.resetFifo
  repeat (first
    | intro _
    | (extract_lets +onlyGivenNames x; focus (refine (?_ : Keeps s0 x → _) ?_; rotate_left; dsimp only [x]; clear x; rotate_left; intro hx; clear_value x))
    | (extract_lets +onlyGivenNames x; focus (refine (?_ : Keeps s0 x.1 → _) ?_; rotate_left; dsimp only [x]; clear x; rotate_left; intro hx; clear_value x))
    | (extract_lets +onlyGivenNames x; clear_value x)
    | with_reducible exact hk
    | with_reducible assumption
    | with_reducible apply setFifo_keeps
    | with_reducible apply Keeps.ite
    | with_reducible exact Keeps.upd (by with_reducible assumption)
    | (with_reducible refine Keeps.updLists (by with_reducible assumption) ?_ ?_ ?_ ?_ ?_ <;> first | rfl | exact Nat.le_refl _ | exact Nat.le_max_left _ _ | exact Nat.le_succ _ | exact modAt_length _ _ _ | exact List.length_map _)
    | fail_if_no_progress (with_reducible apply Keeps.upd)
    | fail_if_no_progress (with_reducible refine Keeps.updLists ?_ ?_ ?_ ?_ ?_ ?_; rotate_left; iterate 5 (first | rfl | exact Nat.le_refl _ | exact Nat.le_max_left _ _ | exact Nat.le_succ _ | exact modAt_length _ _ _ | exact List.length_map _))
    | split
    | dsimp only)

theorem flrPf0_keeps {s0 : State} (s : State) (hk : Keeps s0 s) :
    Keeps s0 (State.flrPf0 s) := by
  unfold State.flrPf0
  repeat (first
    | intro _
    | (extract_lets +onlyGivenNames x; focus (refine (?_ : Keeps s0 x → _) ?_; rotate_left; dsimp only [x]; clear x; rotate_left; intro hx; clear_value x))
    | (extract_lets +onlyGivenNames x; focus (refine (?_ : Keeps s0 x.1 → _) ?_; rotate_left; dsimp only [x]; clear x; rotate_left; intro hx; clear_value x))
    | (extract_lets +onlyGivenNames x; clear_value x)
    | with_reducible exact hk
    | with_reducible assumption
    | with_reducible apply resetFifo_keeps
    | with_reducible apply withHost_keeps
    | with_reducible apply clearF_keeps
    | with_reducible apply restoreSts_keeps
    | with_reducible exact Keeps.upd (by with_reducible assumption)
    | (with_reducible refine Keeps.updLists (by with_reducible assumption) ?_ ?_ ?_ ?_ ?_ <;> first | rfl | exact Nat.le_refl _ | exact Nat.le_max_left _ _ | exact Nat.le_succ _ | exact modAt_length _ _ _ | exact List.length_map _)
    | fail_if_no_progress (with_reducible apply Keeps.upd)
    | fail_if_no_progress (with_reducible refine Keeps.updLists ?_ ?_ ?_ ?_ ?_ ?_; rotate_left; iterate 5 (first | rfl | exact Nat.le_refl _ | exact Nat.le_max_left _ _ | exact Nat.le_succ _ | exact modAt_length _ _ _ | exact List.length_map _))
    | dsimp only)

theorem flrPf1Job_keeps {s0 : State} (s : State) (hk : Keeps s0 s) :
    Keeps s0 (State.flrPf1Job s) := by
  unfold State.flrPf1Job
  repeat (first
    | intro _
    | (extract_lets +onlyGivenNames x; focus (refine (?_ : Keeps s0 x → _) ?_; rotate_left; dsimp only [x]; clear x; rotate_left; intro hx; clear_value x))
    | (extract_lets +onlyGivenNames x; focus (refine (?_ : Keeps s0 x.1 → _) ?_; rotate_left; dsimp only [x]; clear x; rotate_left; intro hx; clear_value x))
    | (extract_lets +onlyGivenNames x; clear_value x)
    | with_reducible exact hk
    | with_reducible assumption
    | with_reducible apply noticeOut_keeps
    | with_reducible apply withHost_keeps
    | with_reducible apply abandonExport_keeps
    | with_reducible apply abandonDescs_keeps
    | with_reducible apply abandonHarvest_keeps
    | with_reducible apply ctxToLoaded_keeps
    | with_reducible apply savesAbandoned_keeps
    | with_reducible apply stopTicks_keeps
    | with_reducible apply evqKeep_keeps
    | with_reducible apply clearRegs_keeps
    | with_reducible apply noticeSts_keeps
    | with_reducible apply Keeps.ite
    | with_reducible exact Keeps.upd (by with_reducible assumption)
    | (with_reducible refine Keeps.updLists (by with_reducible assumption) ?_ ?_ ?_ ?_ ?_ <;> first | rfl | exact Nat.le_refl _ | exact Nat.le_max_left _ _ | exact Nat.le_succ _ | exact modAt_length _ _ _ | exact List.length_map _)
    | fail_if_no_progress (with_reducible apply Keeps.upd)
    | fail_if_no_progress (with_reducible refine Keeps.updLists ?_ ?_ ?_ ?_ ?_ ?_; rotate_left; iterate 5 (first | rfl | exact Nat.le_refl _ | exact Nat.le_max_left _ _ | exact Nat.le_succ _ | exact modAt_length _ _ _ | exact List.length_map _))
    | split
    | dsimp only)

theorem flrPf1_keeps {s0 : State} (s : State) (hk : Keeps s0 s) :
    Keeps s0 (State.flrPf1 s) := by
  unfold State.flrPf1
  repeat (first
    | intro _
    | (extract_lets +onlyGivenNames x; focus (refine (?_ : Keeps s0 x → _) ?_; rotate_left; dsimp only [x]; clear x; rotate_left; intro hx; clear_value x))
    | (extract_lets +onlyGivenNames x; focus (refine (?_ : Keeps s0 x.1 → _) ?_; rotate_left; dsimp only [x]; clear x; rotate_left; intro hx; clear_value x))
    | (extract_lets +onlyGivenNames x; clear_value x)
    | with_reducible exact hk
    | with_reducible assumption
    | with_reducible apply flrPf1Job_keeps
    | with_reducible apply resetFifo_keeps
    | with_reducible apply withHost_keeps
    | with_reducible apply emptyAtc_keeps
    | with_reducible apply restoreSts_keeps
    | with_reducible exact Keeps.upd (by with_reducible assumption)
    | (with_reducible refine Keeps.updLists (by with_reducible assumption) ?_ ?_ ?_ ?_ ?_ <;> first | rfl | exact Nat.le_refl _ | exact Nat.le_max_left _ _ | exact Nat.le_succ _ | exact modAt_length _ _ _ | exact List.length_map _)
    | fail_if_no_progress (with_reducible apply Keeps.upd)
    | fail_if_no_progress (with_reducible refine Keeps.updLists ?_ ?_ ?_ ?_ ?_ ?_; rotate_left; iterate 5 (first | rfl | exact Nat.le_refl _ | exact Nat.le_max_left _ _ | exact Nat.le_succ _ | exact modAt_length _ _ _ | exact List.length_map _))
    | dsimp only)

theorem flrPf2_keeps {s0 : State} (s : State) (hk : Keeps s0 s) :
    Keeps s0 (State.flrPf2 s) := by
  unfold State.flrPf2
  repeat (first
    | intro _
    | (extract_lets +onlyGivenNames x; focus (refine (?_ : Keeps s0 x → _) ?_; rotate_left; dsimp only [x]; clear x; rotate_left; intro hx; clear_value x))
    | (extract_lets +onlyGivenNames x; focus (refine (?_ : Keeps s0 x.1 → _) ?_; rotate_left; dsimp only [x]; clear x; rotate_left; intro hx; clear_value x))
    | (extract_lets +onlyGivenNames x; clear_value x)
    | with_reducible exact hk
    | with_reducible assumption
    | with_reducible apply abandonHarvest_keeps
    | with_reducible apply abandonDescs_keeps
    | with_reducible apply clearF_keeps
    | with_reducible apply setSts_keeps
    | with_reducible apply restoreSts_keeps
    | with_reducible apply Keeps.ite
    | split
    | dsimp only)

theorem newNonce_keeps {s0 : State} (s : State) (hk : Keeps s0 s) :
    Keeps s0 (State.newNonce s) := by
  unfold State.newNonce
  repeat (first
    | intro _
    | with_reducible exact hk
    | with_reducible assumption
    | with_reducible apply fset_keeps
    | with_reducible apply drawn_keeps
    | (with_reducible apply Keeps.foldl; intro _ _ _)
    | (with_reducible apply Keeps.foldlFst; intro _ _ _)
    | dsimp only)

theorem flrPf3_keeps {s0 : State} (s : State) (hk : Keeps s0 s) :
    Keeps s0 (State.flrPf3 s) := by
  unfold State.flrPf3
  repeat (first
    | intro _
    | (extract_lets +onlyGivenNames x; focus (refine (?_ : Keeps s0 x → _) ?_; rotate_left; dsimp only [x]; clear x; rotate_left; intro hx; clear_value x))
    | (extract_lets +onlyGivenNames x; focus (refine (?_ : Keeps s0 x.1 → _) ?_; rotate_left; dsimp only [x]; clear x; rotate_left; intro hx; clear_value x))
    | (extract_lets +onlyGivenNames x; clear_value x)
    | with_reducible exact hk
    | with_reducible assumption
    | with_reducible apply clearF_keeps
    | with_reducible apply fset_keeps
    | with_reducible apply newNonce_keeps
    | with_reducible apply withBench_keeps
    | with_reducible apply restoreSts_keeps
    | with_reducible apply Keeps.ite
    | with_reducible exact Keeps.upd (by with_reducible assumption)
    | (with_reducible refine Keeps.updLists (by with_reducible assumption) ?_ ?_ ?_ ?_ ?_ <;> first | rfl | exact Nat.le_refl _ | exact Nat.le_max_left _ _ | exact Nat.le_succ _ | exact modAt_length _ _ _ | exact List.length_map _)
    | fail_if_no_progress (with_reducible apply Keeps.upd)
    | fail_if_no_progress (with_reducible refine Keeps.updLists ?_ ?_ ?_ ?_ ?_ ?_; rotate_left; iterate 5 (first | rfl | exact Nat.le_refl _ | exact Nat.le_max_left _ _ | exact Nat.le_succ _ | exact modAt_length _ _ _ | exact List.length_map _))
    | split
    | dsimp only)

theorem reportRec_keeps {s0 : State} (s : State) (r : CritRec) (medium : Nat) (hk : Keeps s0 s) :
    Keeps s0 (State.reportRec s r medium) := by
  unfold State.reportRec
  repeat (first
    | intro _
    | with_reducible exact hk
    | with_reducible assumption
    | with_reducible apply fsetAll_keeps
    | with_reducible apply Keeps.ite
    | split
    | dsimp only)

theorem recToFlash_keeps {s0 : State} (s : State) (kind cause : Nat) (hk : Keeps s0 s) :
    Keeps s0 (State.recToFlash s kind cause) := by
  unfold State.recToFlash
  repeat (first
    | intro _
    | (extract_lets +onlyGivenNames x; focus (refine (?_ : Keeps s0 x → _) ?_; rotate_left; dsimp only [x]; clear x; rotate_left; intro hx; clear_value x))
    | (extract_lets +onlyGivenNames x; focus (refine (?_ : Keeps s0 x.1 → _) ?_; rotate_left; dsimp only [x]; clear x; rotate_left; intro hx; clear_value x))
    | (extract_lets +onlyGivenNames x; clear_value x)
    | with_reducible exact hk
    | with_reducible assumption
    | with_reducible apply withPower_keeps
    | with_reducible apply setSts_keeps
    | with_reducible apply reportRec_keeps
    | with_reducible exact Keeps.upd (by with_reducible assumption)
    | (with_reducible refine Keeps.updLists (by with_reducible assumption) ?_ ?_ ?_ ?_ ?_ <;> first | rfl | exact Nat.le_refl _ | exact Nat.le_max_left _ _ | exact Nat.le_succ _ | exact modAt_length _ _ _ | exact List.length_map _)
    | fail_if_no_progress (with_reducible apply Keeps.upd)
    | fail_if_no_progress (with_reducible refine Keeps.updLists ?_ ?_ ?_ ?_ ?_ ?_; rotate_left; iterate 5 (first | rfl | exact Nat.le_refl _ | exact Nat.le_max_left _ _ | exact Nat.le_succ _ | exact modAt_length _ _ _ | exact List.length_map _))
    | dsimp only)

theorem recToCart_keeps {s0 : State} (s : State) (kind cause : Nat) (hk : Keeps s0 s) :
    Keeps s0 (State.recToCart s kind cause) := by
  unfold State.recToCart
  repeat (first
    | intro _
    | (extract_lets +onlyGivenNames x; focus (refine (?_ : Keeps s0 x → _) ?_; rotate_left; dsimp only [x]; clear x; rotate_left; intro hx; clear_value x))
    | (extract_lets +onlyGivenNames x; focus (refine (?_ : Keeps s0 x.1 → _) ?_; rotate_left; dsimp only [x]; clear x; rotate_left; intro hx; clear_value x))
    | (extract_lets +onlyGivenNames x; clear_value x)
    | with_reducible exact hk
    | with_reducible assumption
    | with_reducible apply withPower_keeps
    | with_reducible apply reportRec_keeps
    | with_reducible apply Keeps.ite
    | with_reducible exact Keeps.upd (by with_reducible assumption)
    | (with_reducible refine Keeps.updLists (by with_reducible assumption) ?_ ?_ ?_ ?_ ?_ <;> first | rfl | exact Nat.le_refl _ | exact Nat.le_max_left _ _ | exact Nat.le_succ _ | exact modAt_length _ _ _ | exact List.length_map _)
    | fail_if_no_progress (with_reducible apply Keeps.upd)
    | fail_if_no_progress (with_reducible refine Keeps.updLists ?_ ?_ ?_ ?_ ?_ ?_; rotate_left; iterate 5 (first | rfl | exact Nat.le_refl _ | exact Nat.le_max_left _ _ | exact Nat.le_succ _ | exact modAt_length _ _ _ | exact List.length_map _))
    | split
    | dsimp only)

theorem writeRec_keeps {s0 : State} (s : State) (kind cause : Nat) (cartFails flashFails : Bool) (hk : Keeps s0 s) :
    Keeps s0 (State.writeRec s kind cause cartFails flashFails).1 := by
  unfold State.writeRec
  repeat (first
    | intro _
    | with_reducible exact hk
    | with_reducible assumption
    | with_reducible apply recToCart_keeps
    | with_reducible apply recToFlash_keeps
    | with_reducible apply Keeps.ite
    | split
    | dsimp only)

theorem routineRec_keeps {s0 : State} (s : State) (kind : Nat) (cartFails flashFails : Bool) (hk : Keeps s0 s) :
    Keeps s0 (State.routineRec s kind cartFails flashFails) := by
  unfold State.routineRec
  repeat (first
    | intro _
    | (extract_lets +onlyGivenNames x; focus (refine (?_ : Keeps s0 x → _) ?_; rotate_left; dsimp only [x]; clear x; rotate_left; intro hx; clear_value x))
    | (extract_lets +onlyGivenNames x; focus (refine (?_ : Keeps s0 x.1 → _) ?_; rotate_left; dsimp only [x]; clear x; rotate_left; intro hx; clear_value x))
    | (extract_lets +onlyGivenNames x; clear_value x)
    | with_reducible exact hk
    | with_reducible assumption
    | with_reducible apply writeRec_keeps
    | with_reducible apply fadd_keeps
    | with_reducible apply setSts_keeps
    | with_reducible apply classC_keeps
    | with_reducible apply Keeps.ite
    | split
    | dsimp only)

theorem stopAll_keeps {s0 : State} (s : State) (hk : Keeps s0 s) : Keeps s0 (State.stopAll s) :=
  Keeps.updTiles (s := { s with links := (State.stopAll s).links }) (fun h => dropFlights_wf _ h)
    (Keeps.updLists hk (Nat.le_refl _) rfl rfl rfl (List.length_map _))

theorem terminal_keeps {s0 : State} (s : State) (cause window kind : Nat) (cartFails flashFails saved : Bool) (hk : Keeps s0 s) :
    Keeps s0 (State.terminal s cause window kind cartFails flashFails saved) := by
  unfold State.terminal
  repeat (first
    | intro _
    | (extract_lets +onlyGivenNames x; focus (refine (?_ : Keeps s0 x → _) ?_; rotate_left; dsimp only [x]; clear x; rotate_left; intro hx; clear_value x))
    | (extract_lets +onlyGivenNames x; focus (refine (?_ : Keeps s0 x.1 → _) ?_; rotate_left; dsimp only [x]; clear x; rotate_left; intro hx; clear_value x))
    | (extract_lets +onlyGivenNames x; clear_value x)
    | with_reducible exact hk
    | with_reducible assumption
    | with_reducible apply fsetAll_keeps
    | with_reducible apply reloadOver_keeps
    | with_reducible apply faultEvent_keeps
    | with_reducible apply capFault_keeps
    | with_reducible apply abandonHarvest_keeps
    | with_reducible apply writeRec_keeps
    | with_reducible apply stopAll_keeps
    | with_reducible apply zero_keeps
    | with_reducible apply withPower_keeps
    | with_reducible apply Keeps.ite
    | with_reducible exact Keeps.upd (by with_reducible assumption)
    | (with_reducible refine Keeps.updLists (by with_reducible assumption) ?_ ?_ ?_ ?_ ?_ <;> first | rfl | exact Nat.le_refl _ | exact Nat.le_max_left _ _ | exact Nat.le_succ _ | exact modAt_length _ _ _ | exact List.length_map _)
    | fail_if_no_progress (with_reducible apply Keeps.upd)
    | fail_if_no_progress (with_reducible refine Keeps.updLists ?_ ?_ ?_ ?_ ?_ ?_; rotate_left; iterate 5 (first | rfl | exact Nat.le_refl _ | exact Nat.le_max_left _ _ | exact Nat.le_succ _ | exact modAt_length _ _ _ | exact List.length_map _))
    | split
    | dsimp only)

theorem terminalTie_keeps {s0 : State} (s : State) (at_ cause window : Nat) (hk : Keeps s0 s) :
    Keeps s0 (State.terminalTie s at_ cause window) := by
  unfold State.terminalTie
  repeat (first
    | intro _
    | (extract_lets +onlyGivenNames x; focus (refine (?_ : Keeps s0 x → _) ?_; rotate_left; dsimp only [x]; clear x; rotate_left; intro hx; clear_value x))
    | (extract_lets +onlyGivenNames x; focus (refine (?_ : Keeps s0 x.1 → _) ?_; rotate_left; dsimp only [x]; clear x; rotate_left; intro hx; clear_value x))
    | (extract_lets +onlyGivenNames x; clear_value x)
    | with_reducible exact hk
    | with_reducible assumption
    | with_reducible apply fsetAll_keeps
    | with_reducible apply withPower_keeps
    | with_reducible apply fset_keeps
    | with_reducible apply Keeps.ite
    | with_reducible exact Keeps.upd (by with_reducible assumption)
    | (with_reducible refine Keeps.updLists (by with_reducible assumption) ?_ ?_ ?_ ?_ ?_ <;> first | rfl | exact Nat.le_refl _ | exact Nat.le_max_left _ _ | exact Nat.le_succ _ | exact modAt_length _ _ _ | exact List.length_map _)
    | fail_if_no_progress (with_reducible apply Keeps.upd)
    | fail_if_no_progress (with_reducible refine Keeps.updLists ?_ ?_ ?_ ?_ ?_ ?_; rotate_left; iterate 5 (first | rfl | exact Nat.le_refl _ | exact Nat.le_max_left _ _ | exact Nat.le_succ _ | exact modAt_length _ _ _ | exact List.length_map _))
    | split
    | dsimp only)

theorem liveE_keeps {s0 : State} (s : State) (at_ cause window : Nat) (t : State → State) (ht : ∀ s, Keeps s0 s → Keeps s0 (t s)) (hk : Keeps s0 s) :
    Keeps s0 (State.liveE s at_ cause window t) := by
  unfold State.liveE
  repeat (first
    | intro _
    | with_reducible exact hk
    | with_reducible assumption
    | apply ht
    | with_reducible apply terminalTie_keeps
    | with_reducible apply Keeps.ite
    | split
    | dsimp only)

theorem classDAction_keeps {s0 : State} (s : State) (p fifo cause : Nat) (hk : Keeps s0 s) :
    Keeps s0 (State.classDAction s p fifo cause) := by
  unfold State.classDAction
  repeat (first
    | intro _
    | (extract_lets +onlyGivenNames x; focus (refine (?_ : Keeps s0 x → _) ?_; rotate_left; dsimp only [x]; clear x; rotate_left; intro hx; clear_value x))
    | (extract_lets +onlyGivenNames x; focus (refine (?_ : Keeps s0 x.1 → _) ?_; rotate_left; dsimp only [x]; clear x; rotate_left; intro hx; clear_value x))
    | (extract_lets +onlyGivenNames x; clear_value x)
    | with_reducible exact hk
    | with_reducible assumption
    | with_reducible apply flrPf2_keeps
    | with_reducible apply flrPf1_keeps
    | with_reducible apply flrPf0_keeps
    | with_reducible apply beginAbort_keeps
    | with_reducible apply clearRegs_keeps
    | with_reducible apply emptyAtc_keeps
    | with_reducible apply Keeps.ite
    | split
    | dsimp only)

theorem classD_keeps {s0 : State} (s : State) (p off bit cause : Nat) (hk : Keeps s0 s) :
    Keeps s0 (State.classD s p off bit cause) := by
  unfold State.classD
  repeat (first
    | intro _
    | (extract_lets +onlyGivenNames x; focus (refine (?_ : Keeps s0 x → _) ?_; rotate_left; dsimp only [x]; clear x; rotate_left; intro hx; clear_value x))
    | (extract_lets +onlyGivenNames x; focus (refine (?_ : Keeps s0 x.1 → _) ?_; rotate_left; dsimp only [x]; clear x; rotate_left; intro hx; clear_value x))
    | (extract_lets +onlyGivenNames x; clear_value x)
    | with_reducible exact hk
    | with_reducible assumption
    | with_reducible apply fadd_keeps
    | with_reducible apply faultEvent_keeps
    | with_reducible apply capFault_keeps
    | with_reducible apply withPower_keeps
    | with_reducible apply classDAction_keeps
    | with_reducible apply Keeps.ite
    | with_reducible exact Keeps.upd (by with_reducible assumption)
    | (with_reducible refine Keeps.updLists (by with_reducible assumption) ?_ ?_ ?_ ?_ ?_ <;> first | rfl | exact Nat.le_refl _ | exact Nat.le_max_left _ _ | exact Nat.le_succ _ | exact modAt_length _ _ _ | exact List.length_map _)
    | fail_if_no_progress (with_reducible apply Keeps.upd)
    | fail_if_no_progress (with_reducible refine Keeps.updLists ?_ ?_ ?_ ?_ ?_ ?_; rotate_left; iterate 5 (first | rfl | exact Nat.le_refl _ | exact Nat.le_max_left _ _ | exact Nat.le_succ _ | exact modAt_length _ _ _ | exact List.length_map _))
    | split
    | dsimp only)

end Sys2Proof.Laws
end

