-- ==== Sys2Proof/Laws/KeepDue.lean ====
section
/-! SUPPORT. What the operations of Machine/Due.lean keep. -/

namespace Sys2Proof.Laws

open Sys2Proof.Machine

theorem poisonDrop_keeps {s0 : State} (s : State) (stack g : Nat) (hk : Keeps s0 s) :
    Keeps s0 (State.poisonDrop s stack g) := by
  unfold State.poisonDrop
  repeat (first
    | intro _
    | (extract_lets +onlyGivenNames x; focus (refine (?_ : Keeps s0 x → _) ?_; rotate_left; dsimp only [x]; clear x; rotate_left; intro hx; clear_value x))
    | (extract_lets +onlyGivenNames x; focus (refine (?_ : Keeps s0 x.1 → _) ?_; rotate_left; dsimp only [x]; clear x; rotate_left; intro hx; clear_value x))
    | (extract_lets +onlyGivenNames x; clear_value x)
    | with_reducible exact hk
    | with_reducible assumption
    | with_reducible apply regPut_keeps
    | with_reducible apply withHub_keeps
    | with_reducible apply fset_keeps
    | with_reducible exact Keeps.upd (by with_reducible assumption)
    | (with_reducible refine Keeps.updLists (by with_reducible assumption) ?_ ?_ ?_ ?_ ?_ <;> first | rfl | exact Nat.le_refl _ | exact Nat.le_max_left _ _ | exact Nat.le_succ _ | exact modAt_length _ _ _ | exact List.length_map _)
    | fail_if_no_progress (with_reducible apply Keeps.upd)
    | fail_if_no_progress (with_reducible refine Keeps.updLists ?_ ?_ ?_ ?_ ?_ ?_; rotate_left; iterate 5 (first | rfl | exact Nat.le_refl _ | exact Nat.le_max_left _ _ | exact Nat.le_succ _ | exact modAt_length _ _ _ | exact List.length_map _))
    | split
    | dsimp only)

theorem hubStore_keeps {s0 : State} (s : State) (stack g : Nat) (data : Granule) (hk : Keeps s0 s) :
    Keeps s0 (State.hubStore s stack g data) := by
  unfold State.hubStore
  repeat (first
    | intro _
    | with_reducible exact hk
    | with_reducible assumption
    | with_reducible apply wrGranule_keeps
    | with_reducible apply poisonDrop_keeps
    | with_reducible apply Keeps.ite
    | split
    | dsimp only)

theorem landWrite_keeps {s0 : State} (s : State) (w : HubWrite) (hk : Keeps s0 s) :
    Keeps s0 (State.landWrite s w) := by
  unfold State.landWrite
  repeat (first
    | intro _
    | (extract_lets +onlyGivenNames x; focus (refine (?_ : Keeps s0 x → _) ?_; rotate_left; dsimp only [x]; clear x; rotate_left; intro hx; clear_value x))
    | (extract_lets +onlyGivenNames x; focus (refine (?_ : Keeps s0 x.1 → _) ?_; rotate_left; dsimp only [x]; clear x; rotate_left; intro hx; clear_value x))
    | (extract_lets +onlyGivenNames x; clear_value x)
    | with_reducible exact hk
    | with_reducible assumption
    | with_reducible apply withHub_keeps
    | with_reducible apply hubStore_keeps
    | with_reducible exact Keeps.upd (by with_reducible assumption)
    | (with_reducible refine Keeps.updLists (by with_reducible assumption) ?_ ?_ ?_ ?_ ?_ <;> first | rfl | exact Nat.le_refl _ | exact Nat.le_max_left _ _ | exact Nat.le_succ _ | exact modAt_length _ _ _ | exact List.length_map _)
    | fail_if_no_progress (with_reducible apply Keeps.upd)
    | fail_if_no_progress (with_reducible refine Keeps.updLists ?_ ?_ ?_ ?_ ?_ ?_; rotate_left; iterate 5 (first | rfl | exact Nat.le_refl _ | exact Nat.le_max_left _ _ | exact Nat.le_succ _ | exact modAt_length _ _ _ | exact List.length_map _))
    | dsimp only)

theorem comeAbout_keeps {s0 : State} (s : State) (d : Nat × Due) (hk : Keeps s0 s) :
    Keeps s0 (State.comeAbout s d) := by
  unfold State.comeAbout
  repeat (first
    | intro _
    | (extract_lets +onlyGivenNames x; focus (refine (?_ : Keeps s0 x → _) ?_; rotate_left; dsimp only [x]; clear x; rotate_left; intro hx; clear_value x))
    | (extract_lets +onlyGivenNames x; focus (refine (?_ : Keeps s0 x.1 → _) ?_; rotate_left; dsimp only [x]; clear x; rotate_left; intro hx; clear_value x))
    | (extract_lets +onlyGivenNames x; clear_value x)
    | with_reducible exact hk
    | with_reducible assumption
    | with_reducible apply advance_keeps
    | with_reducible apply land_keeps
    | with_reducible apply slvEvent_keeps
    | with_reducible apply slvNext_keeps
    | with_reducible apply slvEnd_keeps
    | with_reducible apply withSolver_keeps
    | with_reducible apply carry_keeps
    | with_reducible apply landCarry_keeps
    | with_reducible apply landWrite_keeps
    | with_reducible apply landFlit_keeps
    | with_reducible apply unanswered_keeps
    | with_reducible apply treeSend_keeps
    | with_reducible exact Keeps.upd (by with_reducible assumption)
    | (with_reducible refine Keeps.updLists (by with_reducible assumption) ?_ ?_ ?_ ?_ ?_ <;> first | rfl | exact Nat.le_refl _ | exact Nat.le_max_left _ _ | exact Nat.le_succ _ | exact modAt_length _ _ _ | exact List.length_map _)
    | fail_if_no_progress (with_reducible apply Keeps.upd)
    | fail_if_no_progress (with_reducible refine Keeps.updLists ?_ ?_ ?_ ?_ ?_ ?_; rotate_left; iterate 5 (first | rfl | exact Nat.le_refl _ | exact Nat.le_max_left _ _ | exact Nat.le_succ _ | exact modAt_length _ _ _ | exact List.length_map _))
    | split
    | dsimp only)

theorem settle_keeps {s0 : State} (c : Nat) : ∀ (k : Nat) (s : State), Keeps s0 s → Keeps s0 (State.settle c k s)
  | 0, _, h => h
  | k + 1, s, h => by
    rw [State.settle]
    split
    · exact settle_keeps c k _ (comeAbout_keeps _ _ h)
    · exact h

theorem upTo_keeps {s0 : State} (s : State) (c : Nat) (hk : Keeps s0 s) :
    Keeps s0 (State.upTo s c) := by
  unfold State.upTo
  repeat (first
    | intro _
    | with_reducible exact hk
    | with_reducible assumption
    | with_reducible apply settle_keeps
    | with_reducible apply advance_keeps
    | dsimp only)

end Sys2Proof.Laws
end

