-- ==== Sys2Proof/Laws/State.lean ====
section
/-! SUPPORT. Beside State: which fields each update leaves alone, one lemma per update, all for simp. -/

namespace Sys2Proof.Laws

open Sys2Proof.Machine

@[simp] theorem regPut_frame (s : State) (key : Nat) (v : Word64) :
    (State.regPut s key v).now = s.now ∧ (State.regPut s key v).edgeAt = s.edgeAt ∧
    (State.regPut s key v).pending = s.pending ∧ (State.regPut s key v).snaps = s.snaps ∧
    (State.regPut s key v).mem = s.mem ∧ (State.regPut s key v).ccr = s.ccr ∧
    (State.regPut s key v).mirror0 = s.mirror0 ∧ (State.regPut s key v).mirror1 = s.mirror1 ∧
    (State.regPut s key v).run = s.run ∧ (State.regPut s key v).job = s.job ∧ (State.regPut s key v).ctxs = s.ctxs ∧
    (State.regPut s key v).tiles = s.tiles ∧ (State.regPut s key v).attend = s.attend ∧
    (State.regPut s key v).fifos = s.fifos ∧ (State.regPut s key v).rings = s.rings ∧
    (State.regPut s key v).cap = s.cap ∧ (State.regPut s key v).hub = s.hub ∧
    (State.regPut s key v).links = s.links ∧ (State.regPut s key v).solver = s.solver ∧
    (State.regPut s key v).host = s.host ∧ (State.regPut s key v).slow = s.slow ∧
    (State.regPut s key v).power = s.power ∧ (State.regPut s key v).bench = s.bench ∧
    (State.regPut s key v).router = s.router ∧ (State.regPut s key v).outbox = s.outbox ∧
    (State.regPut s key v).fresh = s.fresh := by
  unfold State.regPut
  first
    | ((repeat' apply And.intro) <;> with_reducible_and_instances rfl)
    | (simp; done)
    | ((try dsimp only); (repeat' split) <;> simp; done)

@[simp] theorem fset_frame (s : State) (f : Fld) (x : Nat) :
    (State.fset s f x).now = s.now ∧ (State.fset s f x).edgeAt = s.edgeAt ∧ (State.fset s f x).pending = s.pending ∧
    (State.fset s f x).snaps = s.snaps ∧ (State.fset s f x).mem = s.mem ∧ (State.fset s f x).ccr = s.ccr ∧
    (State.fset s f x).mirror0 = s.mirror0 ∧ (State.fset s f x).mirror1 = s.mirror1 ∧
    (State.fset s f x).run = s.run ∧ (State.fset s f x).job = s.job ∧ (State.fset s f x).ctxs = s.ctxs ∧
    (State.fset s f x).tiles = s.tiles ∧ (State.fset s f x).attend = s.attend ∧ (State.fset s f x).fifos = s.fifos ∧
    (State.fset s f x).rings = s.rings ∧ (State.fset s f x).cap = s.cap ∧ (State.fset s f x).hub = s.hub ∧
    (State.fset s f x).links = s.links ∧ (State.fset s f x).solver = s.solver ∧ (State.fset s f x).host = s.host ∧
    (State.fset s f x).slow = s.slow ∧ (State.fset s f x).power = s.power ∧ (State.fset s f x).bench = s.bench ∧
    (State.fset s f x).router = s.router ∧ (State.fset s f x).outbox = s.outbox ∧
    (State.fset s f x).fresh = s.fresh := by
  unfold State.fset
  first
    | ((repeat' apply And.intro) <;> with_reducible_and_instances rfl)
    | (simp; done)
    | ((try dsimp only); (repeat' split) <;> simp; done)

@[simp] theorem fadd_frame (s : State) (f : Fld) (n : Nat) :
    (State.fadd s f n).now = s.now ∧ (State.fadd s f n).edgeAt = s.edgeAt ∧ (State.fadd s f n).pending = s.pending ∧
    (State.fadd s f n).snaps = s.snaps ∧ (State.fadd s f n).mem = s.mem ∧ (State.fadd s f n).ccr = s.ccr ∧
    (State.fadd s f n).mirror0 = s.mirror0 ∧ (State.fadd s f n).mirror1 = s.mirror1 ∧
    (State.fadd s f n).run = s.run ∧ (State.fadd s f n).job = s.job ∧ (State.fadd s f n).ctxs = s.ctxs ∧
    (State.fadd s f n).tiles = s.tiles ∧ (State.fadd s f n).attend = s.attend ∧ (State.fadd s f n).fifos = s.fifos ∧
    (State.fadd s f n).rings = s.rings ∧ (State.fadd s f n).cap = s.cap ∧ (State.fadd s f n).hub = s.hub ∧
    (State.fadd s f n).links = s.links ∧ (State.fadd s f n).solver = s.solver ∧ (State.fadd s f n).host = s.host ∧
    (State.fadd s f n).slow = s.slow ∧ (State.fadd s f n).power = s.power ∧ (State.fadd s f n).bench = s.bench ∧
    (State.fadd s f n).router = s.router ∧ (State.fadd s f n).outbox = s.outbox ∧
    (State.fadd s f n).fresh = s.fresh := by
  unfold State.fadd
  first
    | ((repeat' apply And.intro) <;> with_reducible_and_instances rfl)
    | (simp; done)
    | ((try dsimp only); (repeat' split) <;> simp; done)

@[simp] theorem fsetAll_frame (s : State) (l : List (Fld × Nat)) :
    (State.fsetAll s l).now = s.now ∧ (State.fsetAll s l).edgeAt = s.edgeAt ∧
    (State.fsetAll s l).pending = s.pending ∧ (State.fsetAll s l).snaps = s.snaps ∧ (State.fsetAll s l).mem = s.mem ∧
    (State.fsetAll s l).ccr = s.ccr ∧ (State.fsetAll s l).mirror0 = s.mirror0 ∧
    (State.fsetAll s l).mirror1 = s.mirror1 ∧ (State.fsetAll s l).run = s.run ∧ (State.fsetAll s l).job = s.job ∧
    (State.fsetAll s l).ctxs = s.ctxs ∧ (State.fsetAll s l).tiles = s.tiles ∧ (State.fsetAll s l).attend = s.attend ∧
    (State.fsetAll s l).fifos = s.fifos ∧ (State.fsetAll s l).rings = s.rings ∧ (State.fsetAll s l).cap = s.cap ∧
    (State.fsetAll s l).hub = s.hub ∧ (State.fsetAll s l).links = s.links ∧ (State.fsetAll s l).solver = s.solver ∧
    (State.fsetAll s l).host = s.host ∧ (State.fsetAll s l).slow = s.slow ∧ (State.fsetAll s l).power = s.power ∧
    (State.fsetAll s l).bench = s.bench ∧ (State.fsetAll s l).router = s.router ∧
    (State.fsetAll s l).outbox = s.outbox ∧ (State.fsetAll s l).fresh = s.fresh := by
  induction l generalizing s with
  | nil => simp [State.fsetAll]
  | cons p l ih => simp [State.fsetAll, ih (s.fset p.1 p.2)]

@[simp] theorem record_frame (s : State) (valid : Fld) (fs : List (Fld × Nat)) :
    (State.record s valid fs).now = s.now ∧ (State.record s valid fs).edgeAt = s.edgeAt ∧
    (State.record s valid fs).pending = s.pending ∧ (State.record s valid fs).snaps = s.snaps ∧
    (State.record s valid fs).mem = s.mem ∧ (State.record s valid fs).ccr = s.ccr ∧
    (State.record s valid fs).mirror0 = s.mirror0 ∧ (State.record s valid fs).mirror1 = s.mirror1 ∧
    (State.record s valid fs).run = s.run ∧ (State.record s valid fs).job = s.job ∧
    (State.record s valid fs).ctxs = s.ctxs ∧ (State.record s valid fs).tiles = s.tiles ∧
    (State.record s valid fs).attend = s.attend ∧ (State.record s valid fs).fifos = s.fifos ∧
    (State.record s valid fs).rings = s.rings ∧ (State.record s valid fs).cap = s.cap ∧
    (State.record s valid fs).hub = s.hub ∧ (State.record s valid fs).links = s.links ∧
    (State.record s valid fs).solver = s.solver ∧ (State.record s valid fs).host = s.host ∧
    (State.record s valid fs).slow = s.slow ∧ (State.record s valid fs).power = s.power ∧
    (State.record s valid fs).bench = s.bench ∧ (State.record s valid fs).router = s.router ∧
    (State.record s valid fs).outbox = s.outbox ∧ (State.record s valid fs).fresh = s.fresh := by
  unfold State.record
  first
    | ((repeat' apply And.intro) <;> with_reducible_and_instances rfl)
    | (simp; done)
    | ((try dsimp only); (repeat' split) <;> simp; done)

@[simp] theorem advance_frame (s : State) (cycle : Nat) :
    (State.advance s cycle).edgeAt = s.edgeAt ∧ (State.advance s cycle).pending = s.pending ∧
    (State.advance s cycle).regs = s.regs ∧ (State.advance s cycle).snaps = s.snaps ∧
    (State.advance s cycle).mem = s.mem ∧ (State.advance s cycle).ccr = s.ccr ∧
    (State.advance s cycle).mirror0 = s.mirror0 ∧ (State.advance s cycle).mirror1 = s.mirror1 ∧
    (State.advance s cycle).run = s.run ∧ (State.advance s cycle).job = s.job ∧
    (State.advance s cycle).ctxs = s.ctxs ∧ (State.advance s cycle).tiles = s.tiles ∧
    (State.advance s cycle).attend = s.attend ∧ (State.advance s cycle).fifos = s.fifos ∧
    (State.advance s cycle).rings = s.rings ∧ (State.advance s cycle).cap = s.cap ∧
    (State.advance s cycle).hub = s.hub ∧ (State.advance s cycle).links = s.links ∧
    (State.advance s cycle).solver = s.solver ∧ (State.advance s cycle).host = s.host ∧
    (State.advance s cycle).slow = s.slow ∧ (State.advance s cycle).power = s.power ∧
    (State.advance s cycle).bench = s.bench ∧ (State.advance s cycle).router = s.router ∧
    (State.advance s cycle).outbox = s.outbox ∧ (State.advance s cycle).fresh = s.fresh := by
  unfold State.advance
  first
    | ((repeat' apply And.intro) <;> with_reducible_and_instances rfl)
    | (simp; done)
    | ((try dsimp only); (repeat' split) <;> simp; done)

@[simp] theorem wr8_frame (s : State) (a : Nat) (v : Byte) :
    (State.wr8 s a v).now = s.now ∧ (State.wr8 s a v).edgeAt = s.edgeAt ∧ (State.wr8 s a v).pending = s.pending ∧
    (State.wr8 s a v).regs = s.regs ∧ (State.wr8 s a v).snaps = s.snaps ∧ (State.wr8 s a v).ccr = s.ccr ∧
    (State.wr8 s a v).mirror0 = s.mirror0 ∧ (State.wr8 s a v).mirror1 = s.mirror1 ∧ (State.wr8 s a v).run = s.run ∧
    (State.wr8 s a v).job = s.job ∧ (State.wr8 s a v).ctxs = s.ctxs ∧ (State.wr8 s a v).tiles = s.tiles ∧
    (State.wr8 s a v).attend = s.attend ∧ (State.wr8 s a v).fifos = s.fifos ∧ (State.wr8 s a v).rings = s.rings ∧
    (State.wr8 s a v).cap = s.cap ∧ (State.wr8 s a v).hub = s.hub ∧ (State.wr8 s a v).links = s.links ∧
    (State.wr8 s a v).solver = s.solver ∧ (State.wr8 s a v).host = s.host ∧ (State.wr8 s a v).slow = s.slow ∧
    (State.wr8 s a v).power = s.power ∧ (State.wr8 s a v).bench = s.bench ∧ (State.wr8 s a v).router = s.router ∧
    (State.wr8 s a v).outbox = s.outbox ∧ (State.wr8 s a v).fresh = s.fresh := by
  unfold State.wr8
  first
    | ((repeat' apply And.intro) <;> with_reducible_and_instances rfl)
    | (simp; done)
    | ((try dsimp only); (repeat' split) <;> simp; done)

@[simp] theorem zero_frame (s : State) (a b : Nat) :
    (State.zero s a b).now = s.now ∧ (State.zero s a b).edgeAt = s.edgeAt ∧ (State.zero s a b).pending = s.pending ∧
    (State.zero s a b).regs = s.regs ∧ (State.zero s a b).snaps = s.snaps ∧ (State.zero s a b).ccr = s.ccr ∧
    (State.zero s a b).mirror0 = s.mirror0 ∧ (State.zero s a b).mirror1 = s.mirror1 ∧
    (State.zero s a b).run = s.run ∧ (State.zero s a b).job = s.job ∧ (State.zero s a b).ctxs = s.ctxs ∧
    (State.zero s a b).tiles = s.tiles ∧ (State.zero s a b).attend = s.attend ∧ (State.zero s a b).fifos = s.fifos ∧
    (State.zero s a b).rings = s.rings ∧ (State.zero s a b).cap = s.cap ∧ (State.zero s a b).hub = s.hub ∧
    (State.zero s a b).links = s.links ∧ (State.zero s a b).solver = s.solver ∧ (State.zero s a b).host = s.host ∧
    (State.zero s a b).slow = s.slow ∧ (State.zero s a b).power = s.power ∧ (State.zero s a b).bench = s.bench ∧
    (State.zero s a b).router = s.router ∧ (State.zero s a b).outbox = s.outbox ∧
    (State.zero s a b).fresh = s.fresh := by
  unfold State.zero
  first
    | ((repeat' apply And.intro) <;> with_reducible_and_instances rfl)
    | (simp; done)
    | ((try dsimp only); (repeat' split) <;> simp; done)

@[simp] theorem emit_frame (s : State) (o : Out) :
    (State.emit s o).now = s.now ∧ (State.emit s o).edgeAt = s.edgeAt ∧ (State.emit s o).pending = s.pending ∧
    (State.emit s o).regs = s.regs ∧ (State.emit s o).snaps = s.snaps ∧ (State.emit s o).mem = s.mem ∧
    (State.emit s o).ccr = s.ccr ∧ (State.emit s o).mirror0 = s.mirror0 ∧ (State.emit s o).mirror1 = s.mirror1 ∧
    (State.emit s o).run = s.run ∧ (State.emit s o).job = s.job ∧ (State.emit s o).ctxs = s.ctxs ∧
    (State.emit s o).tiles = s.tiles ∧ (State.emit s o).attend = s.attend ∧ (State.emit s o).fifos = s.fifos ∧
    (State.emit s o).rings = s.rings ∧ (State.emit s o).cap = s.cap ∧ (State.emit s o).hub = s.hub ∧
    (State.emit s o).links = s.links ∧ (State.emit s o).solver = s.solver ∧ (State.emit s o).host = s.host ∧
    (State.emit s o).slow = s.slow ∧ (State.emit s o).power = s.power ∧ (State.emit s o).bench = s.bench ∧
    (State.emit s o).router = s.router ∧ (State.emit s o).fresh = s.fresh := by
  unfold State.emit
  first
    | ((repeat' apply And.intro) <;> with_reducible_and_instances rfl)
    | (simp; done)
    | ((try dsimp only); (repeat' split) <;> simp; done)

@[simp] theorem drawn_frame (s : State) :
    (State.drawn s).now = s.now ∧ (State.drawn s).edgeAt = s.edgeAt ∧ (State.drawn s).pending = s.pending ∧
    (State.drawn s).regs = s.regs ∧ (State.drawn s).snaps = s.snaps ∧ (State.drawn s).mem = s.mem ∧
    (State.drawn s).ccr = s.ccr ∧ (State.drawn s).mirror0 = s.mirror0 ∧ (State.drawn s).mirror1 = s.mirror1 ∧
    (State.drawn s).run = s.run ∧ (State.drawn s).job = s.job ∧ (State.drawn s).ctxs = s.ctxs ∧
    (State.drawn s).tiles = s.tiles ∧ (State.drawn s).attend = s.attend ∧ (State.drawn s).fifos = s.fifos ∧
    (State.drawn s).rings = s.rings ∧ (State.drawn s).cap = s.cap ∧ (State.drawn s).hub = s.hub ∧
    (State.drawn s).links = s.links ∧ (State.drawn s).solver = s.solver ∧ (State.drawn s).host = s.host ∧
    (State.drawn s).slow = s.slow ∧ (State.drawn s).power = s.power ∧ (State.drawn s).bench = s.bench ∧
    (State.drawn s).router = s.router ∧ (State.drawn s).outbox = s.outbox := by
  unfold State.drawn
  first
    | ((repeat' apply And.intro) <;> with_reducible_and_instances rfl)
    | (simp; done)
    | ((try dsimp only); (repeat' split) <;> simp; done)

@[simp] theorem setCtx_frame (s : State) (c : Nat) (f : Ctx → Ctx) :
    (State.setCtx s c f).now = s.now ∧ (State.setCtx s c f).edgeAt = s.edgeAt ∧
    (State.setCtx s c f).pending = s.pending ∧ (State.setCtx s c f).regs = s.regs ∧
    (State.setCtx s c f).snaps = s.snaps ∧ (State.setCtx s c f).mem = s.mem ∧ (State.setCtx s c f).ccr = s.ccr ∧
    (State.setCtx s c f).mirror0 = s.mirror0 ∧ (State.setCtx s c f).mirror1 = s.mirror1 ∧
    (State.setCtx s c f).run = s.run ∧ (State.setCtx s c f).job = s.job ∧ (State.setCtx s c f).tiles = s.tiles ∧
    (State.setCtx s c f).attend = s.attend ∧ (State.setCtx s c f).fifos = s.fifos ∧
    (State.setCtx s c f).rings = s.rings ∧ (State.setCtx s c f).cap = s.cap ∧ (State.setCtx s c f).hub = s.hub ∧
    (State.setCtx s c f).links = s.links ∧ (State.setCtx s c f).solver = s.solver ∧
    (State.setCtx s c f).host = s.host ∧ (State.setCtx s c f).slow = s.slow ∧ (State.setCtx s c f).power = s.power ∧
    (State.setCtx s c f).bench = s.bench ∧ (State.setCtx s c f).router = s.router ∧
    (State.setCtx s c f).outbox = s.outbox ∧ (State.setCtx s c f).fresh = s.fresh := by
  unfold State.setCtx
  first
    | ((repeat' apply And.intro) <;> with_reducible_and_instances rfl)
    | (simp; done)
    | ((try dsimp only); (repeat' split) <;> simp; done)

@[simp] theorem withRun_frame (s : State) (f : TickRun → TickRun) :
    (State.withRun s f).now = s.now ∧ (State.withRun s f).edgeAt = s.edgeAt ∧
    (State.withRun s f).pending = s.pending ∧ (State.withRun s f).regs = s.regs ∧
    (State.withRun s f).snaps = s.snaps ∧ (State.withRun s f).mem = s.mem ∧ (State.withRun s f).ccr = s.ccr ∧
    (State.withRun s f).mirror0 = s.mirror0 ∧ (State.withRun s f).mirror1 = s.mirror1 ∧
    (State.withRun s f).job = s.job ∧ (State.withRun s f).ctxs = s.ctxs ∧ (State.withRun s f).tiles = s.tiles ∧
    (State.withRun s f).attend = s.attend ∧ (State.withRun s f).fifos = s.fifos ∧
    (State.withRun s f).rings = s.rings ∧ (State.withRun s f).cap = s.cap ∧ (State.withRun s f).hub = s.hub ∧
    (State.withRun s f).links = s.links ∧ (State.withRun s f).solver = s.solver ∧ (State.withRun s f).host = s.host ∧
    (State.withRun s f).slow = s.slow ∧ (State.withRun s f).power = s.power ∧ (State.withRun s f).bench = s.bench ∧
    (State.withRun s f).router = s.router ∧ (State.withRun s f).outbox = s.outbox ∧
    (State.withRun s f).fresh = s.fresh := by
  unfold State.withRun
  first
    | ((repeat' apply And.intro) <;> with_reducible_and_instances rfl)
    | (simp; done)
    | ((try dsimp only); (repeat' split) <;> simp; done)

@[simp] theorem withJob_frame (s : State) (f : JobRun → JobRun) :
    (State.withJob s f).now = s.now ∧ (State.withJob s f).edgeAt = s.edgeAt ∧
    (State.withJob s f).pending = s.pending ∧ (State.withJob s f).regs = s.regs ∧
    (State.withJob s f).snaps = s.snaps ∧ (State.withJob s f).mem = s.mem ∧ (State.withJob s f).ccr = s.ccr ∧
    (State.withJob s f).mirror0 = s.mirror0 ∧ (State.withJob s f).mirror1 = s.mirror1 ∧
    (State.withJob s f).run = s.run ∧ (State.withJob s f).ctxs = s.ctxs ∧ (State.withJob s f).tiles = s.tiles ∧
    (State.withJob s f).attend = s.attend ∧ (State.withJob s f).fifos = s.fifos ∧
    (State.withJob s f).rings = s.rings ∧ (State.withJob s f).cap = s.cap ∧ (State.withJob s f).hub = s.hub ∧
    (State.withJob s f).links = s.links ∧ (State.withJob s f).solver = s.solver ∧ (State.withJob s f).host = s.host ∧
    (State.withJob s f).slow = s.slow ∧ (State.withJob s f).power = s.power ∧ (State.withJob s f).bench = s.bench ∧
    (State.withJob s f).router = s.router ∧ (State.withJob s f).outbox = s.outbox ∧
    (State.withJob s f).fresh = s.fresh := by
  unfold State.withJob
  first
    | ((repeat' apply And.intro) <;> with_reducible_and_instances rfl)
    | (simp; done)
    | ((try dsimp only); (repeat' split) <;> simp; done)

@[simp] theorem withPower_frame (s : State) (f : PowerSt → PowerSt) :
    (State.withPower s f).now = s.now ∧ (State.withPower s f).edgeAt = s.edgeAt ∧
    (State.withPower s f).pending = s.pending ∧ (State.withPower s f).regs = s.regs ∧
    (State.withPower s f).snaps = s.snaps ∧ (State.withPower s f).mem = s.mem ∧ (State.withPower s f).ccr = s.ccr ∧
    (State.withPower s f).mirror0 = s.mirror0 ∧ (State.withPower s f).mirror1 = s.mirror1 ∧
    (State.withPower s f).run = s.run ∧ (State.withPower s f).job = s.job ∧ (State.withPower s f).ctxs = s.ctxs ∧
    (State.withPower s f).tiles = s.tiles ∧ (State.withPower s f).attend = s.attend ∧
    (State.withPower s f).fifos = s.fifos ∧ (State.withPower s f).rings = s.rings ∧
    (State.withPower s f).cap = s.cap ∧ (State.withPower s f).hub = s.hub ∧ (State.withPower s f).links = s.links ∧
    (State.withPower s f).solver = s.solver ∧ (State.withPower s f).host = s.host ∧
    (State.withPower s f).slow = s.slow ∧ (State.withPower s f).bench = s.bench ∧
    (State.withPower s f).router = s.router ∧ (State.withPower s f).outbox = s.outbox ∧
    (State.withPower s f).fresh = s.fresh := by
  unfold State.withPower
  first
    | ((repeat' apply And.intro) <;> with_reducible_and_instances rfl)
    | (simp; done)
    | ((try dsimp only); (repeat' split) <;> simp; done)

@[simp] theorem withTiles_frame (s : State) (f : Tiles → Tiles) :
    (State.withTiles s f).now = s.now ∧ (State.withTiles s f).edgeAt = s.edgeAt ∧
    (State.withTiles s f).pending = s.pending ∧ (State.withTiles s f).regs = s.regs ∧
    (State.withTiles s f).snaps = s.snaps ∧ (State.withTiles s f).mem = s.mem ∧ (State.withTiles s f).ccr = s.ccr ∧
    (State.withTiles s f).mirror0 = s.mirror0 ∧ (State.withTiles s f).mirror1 = s.mirror1 ∧
    (State.withTiles s f).run = s.run ∧ (State.withTiles s f).job = s.job ∧ (State.withTiles s f).ctxs = s.ctxs ∧
    (State.withTiles s f).attend = s.attend ∧ (State.withTiles s f).fifos = s.fifos ∧
    (State.withTiles s f).rings = s.rings ∧ (State.withTiles s f).cap = s.cap ∧ (State.withTiles s f).hub = s.hub ∧
    (State.withTiles s f).links = s.links ∧ (State.withTiles s f).solver = s.solver ∧
    (State.withTiles s f).host = s.host ∧ (State.withTiles s f).slow = s.slow ∧
    (State.withTiles s f).power = s.power ∧ (State.withTiles s f).bench = s.bench ∧
    (State.withTiles s f).router = s.router ∧ (State.withTiles s f).outbox = s.outbox ∧
    (State.withTiles s f).fresh = s.fresh := by
  unfold State.withTiles
  first
    | ((repeat' apply And.intro) <;> with_reducible_and_instances rfl)
    | (simp; done)
    | ((try dsimp only); (repeat' split) <;> simp; done)

@[simp] theorem msix_frame (s : State) (fn vec : Nat) :
    (State.msix s fn vec).now = s.now ∧ (State.msix s fn vec).edgeAt = s.edgeAt ∧
    (State.msix s fn vec).pending = s.pending ∧ (State.msix s fn vec).regs = s.regs ∧
    (State.msix s fn vec).snaps = s.snaps ∧ (State.msix s fn vec).mem = s.mem ∧ (State.msix s fn vec).ccr = s.ccr ∧
    (State.msix s fn vec).mirror0 = s.mirror0 ∧ (State.msix s fn vec).mirror1 = s.mirror1 ∧
    (State.msix s fn vec).run = s.run ∧ (State.msix s fn vec).job = s.job ∧ (State.msix s fn vec).ctxs = s.ctxs ∧
    (State.msix s fn vec).tiles = s.tiles ∧ (State.msix s fn vec).attend = s.attend ∧
    (State.msix s fn vec).fifos = s.fifos ∧ (State.msix s fn vec).rings = s.rings ∧
    (State.msix s fn vec).cap = s.cap ∧ (State.msix s fn vec).hub = s.hub ∧ (State.msix s fn vec).links = s.links ∧
    (State.msix s fn vec).solver = s.solver ∧ (State.msix s fn vec).host = s.host ∧
    (State.msix s fn vec).slow = s.slow ∧ (State.msix s fn vec).power = s.power ∧
    (State.msix s fn vec).bench = s.bench ∧ (State.msix s fn vec).router = s.router ∧
    (State.msix s fn vec).fresh = s.fresh := by
  unfold State.msix
  first
    | ((repeat' apply And.intro) <;> with_reducible_and_instances rfl)
    | (simp; done)
    | ((try dsimp only); (repeat' split) <;> simp; done)

@[simp] theorem irqEdge_frame (before after : State) (p : Nat) :
    (State.irqEdge before after p).now = after.now ∧ (State.irqEdge before after p).edgeAt = after.edgeAt ∧
    (State.irqEdge before after p).pending = after.pending ∧ (State.irqEdge before after p).regs = after.regs ∧
    (State.irqEdge before after p).snaps = after.snaps ∧ (State.irqEdge before after p).mem = after.mem ∧
    (State.irqEdge before after p).ccr = after.ccr ∧ (State.irqEdge before after p).mirror0 = after.mirror0 ∧
    (State.irqEdge before after p).mirror1 = after.mirror1 ∧ (State.irqEdge before after p).run = after.run ∧
    (State.irqEdge before after p).job = after.job ∧ (State.irqEdge before after p).ctxs = after.ctxs ∧
    (State.irqEdge before after p).tiles = after.tiles ∧ (State.irqEdge before after p).attend = after.attend ∧
    (State.irqEdge before after p).fifos = after.fifos ∧ (State.irqEdge before after p).rings = after.rings ∧
    (State.irqEdge before after p).cap = after.cap ∧ (State.irqEdge before after p).hub = after.hub ∧
    (State.irqEdge before after p).links = after.links ∧ (State.irqEdge before after p).solver = after.solver ∧
    (State.irqEdge before after p).host = after.host ∧ (State.irqEdge before after p).slow = after.slow ∧
    (State.irqEdge before after p).power = after.power ∧ (State.irqEdge before after p).bench = after.bench ∧
    (State.irqEdge before after p).router = after.router ∧ (State.irqEdge before after p).fresh = after.fresh := by
  unfold State.irqEdge
  first
    | ((repeat' apply And.intro) <;> with_reducible_and_instances rfl)
    | (simp; done)
    | ((try dsimp only); (repeat' split) <;> simp; done)

@[simp] theorem setSts_frame (s : State) (p : Nat) (f : Fld) :
    (State.setSts s p f).now = s.now ∧ (State.setSts s p f).edgeAt = s.edgeAt ∧
    (State.setSts s p f).pending = s.pending ∧ (State.setSts s p f).snaps = s.snaps ∧
    (State.setSts s p f).mem = s.mem ∧ (State.setSts s p f).ccr = s.ccr ∧ (State.setSts s p f).mirror0 = s.mirror0 ∧
    (State.setSts s p f).mirror1 = s.mirror1 ∧ (State.setSts s p f).run = s.run ∧ (State.setSts s p f).job = s.job ∧
    (State.setSts s p f).ctxs = s.ctxs ∧ (State.setSts s p f).tiles = s.tiles ∧
    (State.setSts s p f).attend = s.attend ∧ (State.setSts s p f).fifos = s.fifos ∧
    (State.setSts s p f).rings = s.rings ∧ (State.setSts s p f).cap = s.cap ∧ (State.setSts s p f).hub = s.hub ∧
    (State.setSts s p f).links = s.links ∧ (State.setSts s p f).solver = s.solver ∧
    (State.setSts s p f).host = s.host ∧ (State.setSts s p f).slow = s.slow ∧ (State.setSts s p f).power = s.power ∧
    (State.setSts s p f).bench = s.bench ∧ (State.setSts s p f).router = s.router ∧
    (State.setSts s p f).fresh = s.fresh := by
  unfold State.setSts
  first
    | ((repeat' apply And.intro) <;> with_reducible_and_instances rfl)
    | (simp; done)
    | ((try dsimp only); (repeat' split) <;> simp; done)

@[simp] theorem setFifo_frame (s : State) (f : Nat) (g : Fifo → Fifo) :
    (State.setFifo s f g).now = s.now ∧ (State.setFifo s f g).edgeAt = s.edgeAt ∧
    (State.setFifo s f g).pending = s.pending ∧ (State.setFifo s f g).regs = s.regs ∧
    (State.setFifo s f g).snaps = s.snaps ∧ (State.setFifo s f g).mem = s.mem ∧ (State.setFifo s f g).ccr = s.ccr ∧
    (State.setFifo s f g).mirror0 = s.mirror0 ∧ (State.setFifo s f g).mirror1 = s.mirror1 ∧
    (State.setFifo s f g).run = s.run ∧ (State.setFifo s f g).job = s.job ∧ (State.setFifo s f g).ctxs = s.ctxs ∧
    (State.setFifo s f g).tiles = s.tiles ∧ (State.setFifo s f g).attend = s.attend ∧
    (State.setFifo s f g).rings = s.rings ∧ (State.setFifo s f g).cap = s.cap ∧ (State.setFifo s f g).hub = s.hub ∧
    (State.setFifo s f g).links = s.links ∧ (State.setFifo s f g).solver = s.solver ∧
    (State.setFifo s f g).host = s.host ∧ (State.setFifo s f g).slow = s.slow ∧
    (State.setFifo s f g).power = s.power ∧ (State.setFifo s f g).bench = s.bench ∧
    (State.setFifo s f g).router = s.router ∧ (State.setFifo s f g).outbox = s.outbox ∧
    (State.setFifo s f g).fresh = s.fresh := by
  unfold State.setFifo
  first
    | ((repeat' apply And.intro) <;> with_reducible_and_instances rfl)
    | (simp; done)
    | ((try dsimp only); (repeat' split) <;> simp; done)

@[simp] theorem post_frame (s : State) (f : Nat) (ws : List (BitVec 512)) :
    (State.post s f ws).now = s.now ∧ (State.post s f ws).edgeAt = s.edgeAt ∧
    (State.post s f ws).pending = s.pending ∧ (State.post s f ws).snaps = s.snaps ∧ (State.post s f ws).mem = s.mem ∧
    (State.post s f ws).ccr = s.ccr ∧ (State.post s f ws).mirror0 = s.mirror0 ∧
    (State.post s f ws).mirror1 = s.mirror1 ∧ (State.post s f ws).run = s.run ∧ (State.post s f ws).job = s.job ∧
    (State.post s f ws).ctxs = s.ctxs ∧ (State.post s f ws).tiles = s.tiles ∧ (State.post s f ws).attend = s.attend ∧
    (State.post s f ws).rings = s.rings ∧ (State.post s f ws).cap = s.cap ∧ (State.post s f ws).hub = s.hub ∧
    (State.post s f ws).links = s.links ∧ (State.post s f ws).solver = s.solver ∧ (State.post s f ws).host = s.host ∧
    (State.post s f ws).slow = s.slow ∧ (State.post s f ws).power = s.power ∧ (State.post s f ws).bench = s.bench ∧
    (State.post s f ws).router = s.router ∧ (State.post s f ws).fresh = s.fresh := by
  unfold State.post
  first
    | ((repeat' apply And.intro) <;> with_reducible_and_instances rfl)
    | (simp; done)
    | ((try dsimp only); (repeat' split) <;> simp; done)

@[simp] theorem event_frame (s : State) (typ ctx : Nat) (payload : List Nat) :
    (State.event s typ ctx payload).now = s.now ∧ (State.event s typ ctx payload).edgeAt = s.edgeAt ∧
    (State.event s typ ctx payload).pending = s.pending ∧ (State.event s typ ctx payload).snaps = s.snaps ∧
    (State.event s typ ctx payload).mem = s.mem ∧ (State.event s typ ctx payload).ccr = s.ccr ∧
    (State.event s typ ctx payload).mirror0 = s.mirror0 ∧ (State.event s typ ctx payload).mirror1 = s.mirror1 ∧
    (State.event s typ ctx payload).run = s.run ∧ (State.event s typ ctx payload).job = s.job ∧
    (State.event s typ ctx payload).ctxs = s.ctxs ∧ (State.event s typ ctx payload).tiles = s.tiles ∧
    (State.event s typ ctx payload).attend = s.attend ∧ (State.event s typ ctx payload).rings = s.rings ∧
    (State.event s typ ctx payload).cap = s.cap ∧ (State.event s typ ctx payload).hub = s.hub ∧
    (State.event s typ ctx payload).links = s.links ∧ (State.event s typ ctx payload).solver = s.solver ∧
    (State.event s typ ctx payload).host = s.host ∧ (State.event s typ ctx payload).slow = s.slow ∧
    (State.event s typ ctx payload).power = s.power ∧ (State.event s typ ctx payload).bench = s.bench ∧
    (State.event s typ ctx payload).router = s.router ∧ (State.event s typ ctx payload).fresh = s.fresh := by
  unfold State.event
  first
    | ((repeat' apply And.intro) <;> with_reducible_and_instances rfl)
    | (simp; done)
    | ((try dsimp only); (repeat' split) <;> simp; done)

@[simp] theorem reloadOver_frame (s : State) :
    (State.reloadOver s).now = s.now ∧ (State.reloadOver s).edgeAt = s.edgeAt ∧
    (State.reloadOver s).pending = s.pending ∧ (State.reloadOver s).snaps = s.snaps ∧
    (State.reloadOver s).mem = s.mem ∧ (State.reloadOver s).ccr = s.ccr ∧ (State.reloadOver s).mirror0 = s.mirror0 ∧
    (State.reloadOver s).mirror1 = s.mirror1 ∧ (State.reloadOver s).run = s.run ∧ (State.reloadOver s).job = s.job ∧
    (State.reloadOver s).ctxs = s.ctxs ∧ (State.reloadOver s).tiles = s.tiles ∧
    (State.reloadOver s).attend = s.attend ∧ (State.reloadOver s).rings = s.rings ∧
    (State.reloadOver s).cap = s.cap ∧ (State.reloadOver s).hub = s.hub ∧ (State.reloadOver s).links = s.links ∧
    (State.reloadOver s).solver = s.solver ∧ (State.reloadOver s).host = s.host ∧
    (State.reloadOver s).slow = s.slow ∧ (State.reloadOver s).bench = s.bench ∧
    (State.reloadOver s).router = s.router ∧ (State.reloadOver s).fresh = s.fresh := by
  unfold State.reloadOver
  have he : ∀ (l : List (Nat × Nat × List Nat)) (a b : State), a.now = b.now ∧ a.edgeAt = b.edgeAt ∧ a.pending = b.pending ∧ a.snaps = b.snaps ∧ a.mem = b.mem ∧ a.ccr = b.ccr ∧ a.mirror0 = b.mirror0 ∧ a.mirror1 = b.mirror1 ∧ a.run = b.run ∧ a.job = b.job ∧ a.ctxs = b.ctxs ∧ a.tiles = b.tiles ∧ a.attend = b.attend ∧ a.rings = b.rings ∧ a.cap = b.cap ∧ a.hub = b.hub ∧ a.links = b.links ∧ a.solver = b.solver ∧ a.host = b.host ∧ a.slow = b.slow ∧ a.bench = b.bench ∧ a.router = b.router ∧ a.fresh = b.fresh →
      (l.foldl (fun (s : State) e => s.event e.1 e.2.1 e.2.2) a).now = b.now ∧ (l.foldl (fun (s : State) e => s.event e.1 e.2.1 e.2.2) a).edgeAt = b.edgeAt ∧ (l.foldl (fun (s : State) e => s.event e.1 e.2.1 e.2.2) a).pending = b.pending ∧ (l.foldl (fun (s : State) e => s.event e.1 e.2.1 e.2.2) a).snaps = b.snaps ∧ (l.foldl (fun (s : State) e => s.event e.1 e.2.1 e.2.2) a).mem = b.mem ∧ (l.foldl (fun (s : State) e => s.event e.1 e.2.1 e.2.2) a).ccr = b.ccr ∧ (l.foldl (fun (s : State) e => s.event e.1 e.2.1 e.2.2) a).mirror0 = b.mirror0 ∧ (l.foldl (fun (s : State) e => s.event e.1 e.2.1 e.2.2) a).mirror1 = b.mirror1 ∧ (l.foldl (fun (s : State) e => s.event e.1 e.2.1 e.2.2) a).run = b.run ∧ (l.foldl (fun (s : State) e => s.event e.1 e.2.1 e.2.2) a).job = b.job ∧ (l.foldl (fun (s : State) e => s.event e.1 e.2.1 e.2.2) a).ctxs = b.ctxs ∧ (l.foldl (fun (s : State) e => s.event e.1 e.2.1 e.2.2) a).tiles = b.tiles ∧ (l.foldl (fun (s : State) e => s.event e.1 e.2.1 e.2.2) a).attend = b.attend ∧ (l.foldl (fun (s : State) e => s.event e.1 e.2.1 e.2.2) a).rings = b.rings ∧ (l.foldl (fun (s : State) e => s.event e.1 e.2.1 e.2.2) a).cap = b.cap ∧ (l.foldl (fun (s : State) e => s.event e.1 e.2.1 e.2.2) a).hub = b.hub ∧ (l.foldl (fun (s : State) e => s.event e.1 e.2.1 e.2.2) a).links = b.links ∧ (l.foldl (fun (s : State) e => s.event e.1 e.2.1 e.2.2) a).solver = b.solver ∧ (l.foldl (fun (s : State) e => s.event e.1 e.2.1 e.2.2) a).host = b.host ∧ (l.foldl (fun (s : State) e => s.event e.1 e.2.1 e.2.2) a).slow = b.slow ∧ (l.foldl (fun (s : State) e => s.event e.1 e.2.1 e.2.2) a).bench = b.bench ∧ (l.foldl (fun (s : State) e => s.event e.1 e.2.1 e.2.2) a).router = b.router ∧ (l.foldl (fun (s : State) e => s.event e.1 e.2.1 e.2.2) a).fresh = b.fresh := by
    intro l
    induction l with
    | nil => intro a b h; exact h
    | cons m r ih => intro a b h; exact ih (a.event m.1 m.2.1 m.2.2) b (by simpa using h)
  exact he _ _ s (by simp)

@[simp] theorem trace_frame (s : State) (typ ctx : Nat) (payload : Nat) :
    (State.trace s typ ctx payload).now = s.now ∧ (State.trace s typ ctx payload).edgeAt = s.edgeAt ∧
    (State.trace s typ ctx payload).pending = s.pending ∧ (State.trace s typ ctx payload).snaps = s.snaps ∧
    (State.trace s typ ctx payload).mem = s.mem ∧ (State.trace s typ ctx payload).ccr = s.ccr ∧
    (State.trace s typ ctx payload).mirror0 = s.mirror0 ∧ (State.trace s typ ctx payload).mirror1 = s.mirror1 ∧
    (State.trace s typ ctx payload).run = s.run ∧ (State.trace s typ ctx payload).job = s.job ∧
    (State.trace s typ ctx payload).ctxs = s.ctxs ∧ (State.trace s typ ctx payload).tiles = s.tiles ∧
    (State.trace s typ ctx payload).attend = s.attend ∧ (State.trace s typ ctx payload).rings = s.rings ∧
    (State.trace s typ ctx payload).cap = s.cap ∧ (State.trace s typ ctx payload).hub = s.hub ∧
    (State.trace s typ ctx payload).links = s.links ∧ (State.trace s typ ctx payload).solver = s.solver ∧
    (State.trace s typ ctx payload).host = s.host ∧ (State.trace s typ ctx payload).slow = s.slow ∧
    (State.trace s typ ctx payload).power = s.power ∧ (State.trace s typ ctx payload).bench = s.bench ∧
    (State.trace s typ ctx payload).router = s.router ∧ (State.trace s typ ctx payload).fresh = s.fresh := by
  unfold State.trace
  first
    | ((repeat' apply And.intro) <;> with_reducible_and_instances rfl)
    | (simp; done)
    | ((try dsimp only); (repeat' split) <;> simp; done)

@[simp] theorem capTrigger_frame (s : State) (cycle src : Nat) :
    (State.capTrigger s cycle src).now = s.now ∧ (State.capTrigger s cycle src).edgeAt = s.edgeAt ∧
    (State.capTrigger s cycle src).pending = s.pending ∧ (State.capTrigger s cycle src).snaps = s.snaps ∧
    (State.capTrigger s cycle src).mem = s.mem ∧ (State.capTrigger s cycle src).ccr = s.ccr ∧
    (State.capTrigger s cycle src).mirror0 = s.mirror0 ∧ (State.capTrigger s cycle src).mirror1 = s.mirror1 ∧
    (State.capTrigger s cycle src).run = s.run ∧ (State.capTrigger s cycle src).job = s.job ∧
    (State.capTrigger s cycle src).ctxs = s.ctxs ∧ (State.capTrigger s cycle src).tiles = s.tiles ∧
    (State.capTrigger s cycle src).attend = s.attend ∧ (State.capTrigger s cycle src).fifos = s.fifos ∧
    (State.capTrigger s cycle src).rings = s.rings ∧ (State.capTrigger s cycle src).hub = s.hub ∧
    (State.capTrigger s cycle src).links = s.links ∧ (State.capTrigger s cycle src).solver = s.solver ∧
    (State.capTrigger s cycle src).host = s.host ∧ (State.capTrigger s cycle src).slow = s.slow ∧
    (State.capTrigger s cycle src).power = s.power ∧ (State.capTrigger s cycle src).bench = s.bench ∧
    (State.capTrigger s cycle src).router = s.router ∧ (State.capTrigger s cycle src).fresh = s.fresh := by
  unfold State.capTrigger
  first
    | ((repeat' apply And.intro) <;> with_reducible_and_instances rfl)
    | (simp; done)
    | ((try dsimp only); (repeat' split) <;> simp; done)

@[simp] theorem capFault_frame (s : State) (cls : Nat) :
    (State.capFault s cls).now = s.now ∧ (State.capFault s cls).edgeAt = s.edgeAt ∧
    (State.capFault s cls).pending = s.pending ∧ (State.capFault s cls).snaps = s.snaps ∧
    (State.capFault s cls).mem = s.mem ∧ (State.capFault s cls).ccr = s.ccr ∧
    (State.capFault s cls).mirror0 = s.mirror0 ∧ (State.capFault s cls).mirror1 = s.mirror1 ∧
    (State.capFault s cls).run = s.run ∧ (State.capFault s cls).job = s.job ∧ (State.capFault s cls).ctxs = s.ctxs ∧
    (State.capFault s cls).tiles = s.tiles ∧ (State.capFault s cls).attend = s.attend ∧
    (State.capFault s cls).fifos = s.fifos ∧ (State.capFault s cls).rings = s.rings ∧
    (State.capFault s cls).hub = s.hub ∧ (State.capFault s cls).links = s.links ∧
    (State.capFault s cls).solver = s.solver ∧ (State.capFault s cls).host = s.host ∧
    (State.capFault s cls).slow = s.slow ∧ (State.capFault s cls).power = s.power ∧
    (State.capFault s cls).bench = s.bench ∧ (State.capFault s cls).router = s.router ∧
    (State.capFault s cls).fresh = s.fresh := by
  unfold State.capFault
  first
    | ((repeat' apply And.intro) <;> with_reducible_and_instances rfl)
    | (simp; done)
    | ((try dsimp only); (repeat' split) <;> simp; done)

@[simp] theorem traceAB_frame (s : State) (cls p : Nat) (f : Fld) :
    (State.traceAB s cls p f).now = s.now ∧ (State.traceAB s cls p f).edgeAt = s.edgeAt ∧
    (State.traceAB s cls p f).pending = s.pending ∧ (State.traceAB s cls p f).snaps = s.snaps ∧
    (State.traceAB s cls p f).mem = s.mem ∧ (State.traceAB s cls p f).ccr = s.ccr ∧
    (State.traceAB s cls p f).mirror0 = s.mirror0 ∧ (State.traceAB s cls p f).mirror1 = s.mirror1 ∧
    (State.traceAB s cls p f).run = s.run ∧ (State.traceAB s cls p f).job = s.job ∧
    (State.traceAB s cls p f).ctxs = s.ctxs ∧ (State.traceAB s cls p f).tiles = s.tiles ∧
    (State.traceAB s cls p f).attend = s.attend ∧ (State.traceAB s cls p f).rings = s.rings ∧
    (State.traceAB s cls p f).cap = s.cap ∧ (State.traceAB s cls p f).hub = s.hub ∧
    (State.traceAB s cls p f).links = s.links ∧ (State.traceAB s cls p f).solver = s.solver ∧
    (State.traceAB s cls p f).host = s.host ∧ (State.traceAB s cls p f).slow = s.slow ∧
    (State.traceAB s cls p f).power = s.power ∧ (State.traceAB s cls p f).bench = s.bench ∧
    (State.traceAB s cls p f).router = s.router ∧ (State.traceAB s cls p f).fresh = s.fresh := by
  unfold State.traceAB
  first
    | ((repeat' apply And.intro) <;> with_reducible_and_instances rfl)
    | (simp; done)
    | ((try dsimp only); (repeat' split) <;> simp; done)

@[simp] theorem classA_frame (s : State) :
    (State.classA s).now = s.now ∧ (State.classA s).edgeAt = s.edgeAt ∧ (State.classA s).pending = s.pending ∧
    (State.classA s).snaps = s.snaps ∧ (State.classA s).mem = s.mem ∧ (State.classA s).ccr = s.ccr ∧
    (State.classA s).mirror0 = s.mirror0 ∧ (State.classA s).mirror1 = s.mirror1 ∧ (State.classA s).run = s.run ∧
    (State.classA s).job = s.job ∧ (State.classA s).ctxs = s.ctxs ∧ (State.classA s).tiles = s.tiles ∧
    (State.classA s).attend = s.attend ∧ (State.classA s).fifos = s.fifos ∧ (State.classA s).rings = s.rings ∧
    (State.classA s).hub = s.hub ∧ (State.classA s).links = s.links ∧ (State.classA s).solver = s.solver ∧
    (State.classA s).host = s.host ∧ (State.classA s).slow = s.slow ∧ (State.classA s).power = s.power ∧
    (State.classA s).bench = s.bench ∧ (State.classA s).router = s.router ∧ (State.classA s).fresh = s.fresh := by
  unfold State.classA
  first
    | ((repeat' apply And.intro) <;> with_reducible_and_instances rfl)
    | (simp; done)
    | ((try dsimp only); (repeat' split) <;> simp; done)

@[simp] theorem classASts_frame (s : State) (p : Nat) (f : Fld) :
    (State.classASts s p f).now = s.now ∧ (State.classASts s p f).edgeAt = s.edgeAt ∧
    (State.classASts s p f).pending = s.pending ∧ (State.classASts s p f).snaps = s.snaps ∧
    (State.classASts s p f).mem = s.mem ∧ (State.classASts s p f).ccr = s.ccr ∧
    (State.classASts s p f).mirror0 = s.mirror0 ∧ (State.classASts s p f).mirror1 = s.mirror1 ∧
    (State.classASts s p f).run = s.run ∧ (State.classASts s p f).job = s.job ∧
    (State.classASts s p f).ctxs = s.ctxs ∧ (State.classASts s p f).tiles = s.tiles ∧
    (State.classASts s p f).attend = s.attend ∧ (State.classASts s p f).rings = s.rings ∧
    (State.classASts s p f).hub = s.hub ∧ (State.classASts s p f).links = s.links ∧
    (State.classASts s p f).solver = s.solver ∧ (State.classASts s p f).host = s.host ∧
    (State.classASts s p f).slow = s.slow ∧ (State.classASts s p f).power = s.power ∧
    (State.classASts s p f).bench = s.bench ∧ (State.classASts s p f).router = s.router ∧
    (State.classASts s p f).fresh = s.fresh := by
  unfold State.classASts
  first
    | ((repeat' apply And.intro) <;> with_reducible_and_instances rfl)
    | (simp; done)
    | ((try dsimp only); (repeat' split) <;> simp; done)

@[simp] theorem markB_frame (s : State) :
    (State.markB s).now = s.now ∧ (State.markB s).edgeAt = s.edgeAt ∧ (State.markB s).pending = s.pending ∧
    (State.markB s).regs = s.regs ∧ (State.markB s).snaps = s.snaps ∧ (State.markB s).mem = s.mem ∧
    (State.markB s).ccr = s.ccr ∧ (State.markB s).mirror0 = s.mirror0 ∧ (State.markB s).mirror1 = s.mirror1 ∧
    (State.markB s).job = s.job ∧ (State.markB s).ctxs = s.ctxs ∧ (State.markB s).tiles = s.tiles ∧
    (State.markB s).attend = s.attend ∧ (State.markB s).fifos = s.fifos ∧ (State.markB s).rings = s.rings ∧
    (State.markB s).cap = s.cap ∧ (State.markB s).hub = s.hub ∧ (State.markB s).links = s.links ∧
    (State.markB s).solver = s.solver ∧ (State.markB s).host = s.host ∧ (State.markB s).slow = s.slow ∧
    (State.markB s).power = s.power ∧ (State.markB s).bench = s.bench ∧ (State.markB s).router = s.router ∧
    (State.markB s).outbox = s.outbox ∧ (State.markB s).fresh = s.fresh := by
  unfold State.markB
  first
    | ((repeat' apply And.intro) <;> with_reducible_and_instances rfl)
    | (simp; done)
    | ((try dsimp only); (repeat' split) <;> simp; done)

@[simp] theorem markC_frame (s : State) :
    (State.markC s).now = s.now ∧ (State.markC s).edgeAt = s.edgeAt ∧ (State.markC s).pending = s.pending ∧
    (State.markC s).regs = s.regs ∧ (State.markC s).snaps = s.snaps ∧ (State.markC s).mem = s.mem ∧
    (State.markC s).ccr = s.ccr ∧ (State.markC s).mirror0 = s.mirror0 ∧ (State.markC s).mirror1 = s.mirror1 ∧
    (State.markC s).job = s.job ∧ (State.markC s).ctxs = s.ctxs ∧ (State.markC s).tiles = s.tiles ∧
    (State.markC s).attend = s.attend ∧ (State.markC s).fifos = s.fifos ∧ (State.markC s).rings = s.rings ∧
    (State.markC s).cap = s.cap ∧ (State.markC s).hub = s.hub ∧ (State.markC s).links = s.links ∧
    (State.markC s).solver = s.solver ∧ (State.markC s).host = s.host ∧ (State.markC s).slow = s.slow ∧
    (State.markC s).power = s.power ∧ (State.markC s).bench = s.bench ∧ (State.markC s).router = s.router ∧
    (State.markC s).outbox = s.outbox ∧ (State.markC s).fresh = s.fresh := by
  unfold State.markC
  first
    | ((repeat' apply And.intro) <;> with_reducible_and_instances rfl)
    | (simp; done)
    | ((try dsimp only); (repeat' split) <;> simp; done)

@[simp] theorem classB_frame (s : State) :
    (State.classB s).now = s.now ∧ (State.classB s).edgeAt = s.edgeAt ∧ (State.classB s).pending = s.pending ∧
    (State.classB s).snaps = s.snaps ∧ (State.classB s).mem = s.mem ∧ (State.classB s).ccr = s.ccr ∧
    (State.classB s).mirror0 = s.mirror0 ∧ (State.classB s).mirror1 = s.mirror1 ∧ (State.classB s).job = s.job ∧
    (State.classB s).ctxs = s.ctxs ∧ (State.classB s).tiles = s.tiles ∧ (State.classB s).attend = s.attend ∧
    (State.classB s).fifos = s.fifos ∧ (State.classB s).rings = s.rings ∧ (State.classB s).hub = s.hub ∧
    (State.classB s).links = s.links ∧ (State.classB s).solver = s.solver ∧ (State.classB s).host = s.host ∧
    (State.classB s).slow = s.slow ∧ (State.classB s).power = s.power ∧ (State.classB s).bench = s.bench ∧
    (State.classB s).router = s.router ∧ (State.classB s).fresh = s.fresh := by
  unfold State.classB
  first
    | ((repeat' apply And.intro) <;> with_reducible_and_instances rfl)
    | (simp; done)
    | ((try dsimp only); (repeat' split) <;> simp; done)

@[simp] theorem classBSts_frame (s : State) (p : Nat) (f : Fld) :
    (State.classBSts s p f).now = s.now ∧ (State.classBSts s p f).edgeAt = s.edgeAt ∧
    (State.classBSts s p f).pending = s.pending ∧ (State.classBSts s p f).snaps = s.snaps ∧
    (State.classBSts s p f).mem = s.mem ∧ (State.classBSts s p f).ccr = s.ccr ∧
    (State.classBSts s p f).mirror0 = s.mirror0 ∧ (State.classBSts s p f).mirror1 = s.mirror1 ∧
    (State.classBSts s p f).job = s.job ∧ (State.classBSts s p f).ctxs = s.ctxs ∧
    (State.classBSts s p f).tiles = s.tiles ∧ (State.classBSts s p f).attend = s.attend ∧
    (State.classBSts s p f).rings = s.rings ∧ (State.classBSts s p f).hub = s.hub ∧
    (State.classBSts s p f).links = s.links ∧ (State.classBSts s p f).solver = s.solver ∧
    (State.classBSts s p f).host = s.host ∧ (State.classBSts s p f).slow = s.slow ∧
    (State.classBSts s p f).power = s.power ∧ (State.classBSts s p f).bench = s.bench ∧
    (State.classBSts s p f).router = s.router ∧ (State.classBSts s p f).fresh = s.fresh := by
  unfold State.classBSts
  first
    | ((repeat' apply And.intro) <;> with_reducible_and_instances rfl)
    | (simp; done)
    | ((try dsimp only); (repeat' split) <;> simp; done)

@[simp] theorem attendStart_frame (s : State) (p : Nat) (f : Fld) (cause fifo : Nat) :
    (State.attendStart s p f cause fifo).now = s.now ∧ (State.attendStart s p f cause fifo).edgeAt = s.edgeAt ∧
    (State.attendStart s p f cause fifo).pending = s.pending ∧ (State.attendStart s p f cause fifo).regs = s.regs ∧
    (State.attendStart s p f cause fifo).snaps = s.snaps ∧ (State.attendStart s p f cause fifo).mem = s.mem ∧
    (State.attendStart s p f cause fifo).ccr = s.ccr ∧ (State.attendStart s p f cause fifo).mirror0 = s.mirror0 ∧
    (State.attendStart s p f cause fifo).mirror1 = s.mirror1 ∧ (State.attendStart s p f cause fifo).run = s.run ∧
    (State.attendStart s p f cause fifo).job = s.job ∧ (State.attendStart s p f cause fifo).ctxs = s.ctxs ∧
    (State.attendStart s p f cause fifo).tiles = s.tiles ∧ (State.attendStart s p f cause fifo).fifos = s.fifos ∧
    (State.attendStart s p f cause fifo).rings = s.rings ∧ (State.attendStart s p f cause fifo).cap = s.cap ∧
    (State.attendStart s p f cause fifo).hub = s.hub ∧ (State.attendStart s p f cause fifo).links = s.links ∧
    (State.attendStart s p f cause fifo).solver = s.solver ∧ (State.attendStart s p f cause fifo).host = s.host ∧
    (State.attendStart s p f cause fifo).slow = s.slow ∧ (State.attendStart s p f cause fifo).power = s.power ∧
    (State.attendStart s p f cause fifo).bench = s.bench ∧ (State.attendStart s p f cause fifo).router = s.router ∧
    (State.attendStart s p f cause fifo).outbox = s.outbox ∧
    (State.attendStart s p f cause fifo).fresh = s.fresh := by
  unfold State.attendStart
  first
    | ((repeat' apply And.intro) <;> with_reducible_and_instances rfl)
    | (simp; done)
    | ((try dsimp only); (repeat' split) <;> simp; done)

@[simp] theorem faultEvent_frame (s : State) (cls p : Nat) (off bit : Nat) :
    (State.faultEvent s cls p off bit).now = s.now ∧ (State.faultEvent s cls p off bit).edgeAt = s.edgeAt ∧
    (State.faultEvent s cls p off bit).pending = s.pending ∧ (State.faultEvent s cls p off bit).snaps = s.snaps ∧
    (State.faultEvent s cls p off bit).mem = s.mem ∧ (State.faultEvent s cls p off bit).ccr = s.ccr ∧
    (State.faultEvent s cls p off bit).mirror0 = s.mirror0 ∧ (State.faultEvent s cls p off bit).mirror1 = s.mirror1 ∧
    (State.faultEvent s cls p off bit).run = s.run ∧ (State.faultEvent s cls p off bit).job = s.job ∧
    (State.faultEvent s cls p off bit).ctxs = s.ctxs ∧ (State.faultEvent s cls p off bit).tiles = s.tiles ∧
    (State.faultEvent s cls p off bit).attend = s.attend ∧ (State.faultEvent s cls p off bit).rings = s.rings ∧
    (State.faultEvent s cls p off bit).cap = s.cap ∧ (State.faultEvent s cls p off bit).hub = s.hub ∧
    (State.faultEvent s cls p off bit).links = s.links ∧ (State.faultEvent s cls p off bit).solver = s.solver ∧
    (State.faultEvent s cls p off bit).host = s.host ∧ (State.faultEvent s cls p off bit).slow = s.slow ∧
    (State.faultEvent s cls p off bit).power = s.power ∧ (State.faultEvent s cls p off bit).bench = s.bench ∧
    (State.faultEvent s cls p off bit).router = s.router ∧ (State.faultEvent s cls p off bit).fresh = s.fresh := by
  unfold State.faultEvent
  first
    | ((repeat' apply And.intro) <;> with_reducible_and_instances rfl)
    | (simp; done)
    | ((try dsimp only); (repeat' split) <;> simp; done)

@[simp] theorem classCWith_frame (s : State) (p : Nat) (f : Fld) (cause fifo : Nat) :
    (State.classCWith s p f cause fifo).now = s.now ∧ (State.classCWith s p f cause fifo).edgeAt = s.edgeAt ∧
    (State.classCWith s p f cause fifo).pending = s.pending ∧ (State.classCWith s p f cause fifo).snaps = s.snaps ∧
    (State.classCWith s p f cause fifo).mem = s.mem ∧ (State.classCWith s p f cause fifo).ccr = s.ccr ∧
    (State.classCWith s p f cause fifo).mirror0 = s.mirror0 ∧
    (State.classCWith s p f cause fifo).mirror1 = s.mirror1 ∧ (State.classCWith s p f cause fifo).job = s.job ∧
    (State.classCWith s p f cause fifo).ctxs = s.ctxs ∧ (State.classCWith s p f cause fifo).tiles = s.tiles ∧
    (State.classCWith s p f cause fifo).rings = s.rings ∧ (State.classCWith s p f cause fifo).hub = s.hub ∧
    (State.classCWith s p f cause fifo).links = s.links ∧ (State.classCWith s p f cause fifo).solver = s.solver ∧
    (State.classCWith s p f cause fifo).host = s.host ∧ (State.classCWith s p f cause fifo).slow = s.slow ∧
    (State.classCWith s p f cause fifo).power = s.power ∧ (State.classCWith s p f cause fifo).bench = s.bench ∧
    (State.classCWith s p f cause fifo).router = s.router ∧ (State.classCWith s p f cause fifo).fresh = s.fresh := by
  unfold State.classCWith
  first
    | ((repeat' apply And.intro) <;> with_reducible_and_instances rfl)
    | (simp; done)
    | ((try dsimp only); (repeat' split) <;> simp; done)

@[simp] theorem classC_frame (s : State) (p : Nat) (f : Fld) :
    (State.classC s p f).now = s.now ∧ (State.classC s p f).edgeAt = s.edgeAt ∧
    (State.classC s p f).pending = s.pending ∧ (State.classC s p f).snaps = s.snaps ∧
    (State.classC s p f).mem = s.mem ∧ (State.classC s p f).ccr = s.ccr ∧ (State.classC s p f).mirror0 = s.mirror0 ∧
    (State.classC s p f).mirror1 = s.mirror1 ∧ (State.classC s p f).job = s.job ∧
    (State.classC s p f).ctxs = s.ctxs ∧ (State.classC s p f).tiles = s.tiles ∧
    (State.classC s p f).rings = s.rings ∧ (State.classC s p f).hub = s.hub ∧ (State.classC s p f).links = s.links ∧
    (State.classC s p f).solver = s.solver ∧ (State.classC s p f).host = s.host ∧
    (State.classC s p f).slow = s.slow ∧ (State.classC s p f).power = s.power ∧
    (State.classC s p f).bench = s.bench ∧ (State.classC s p f).router = s.router ∧
    (State.classC s p f).fresh = s.fresh := by
  unfold State.classC
  first
    | ((repeat' apply And.intro) <;> with_reducible_and_instances rfl)
    | (simp; done)
    | ((try dsimp only); (repeat' split) <;> simp; done)

@[simp] theorem setNonfinite_frame (s : State) (p : Nat) :
    (State.setNonfinite s p).now = s.now ∧ (State.setNonfinite s p).edgeAt = s.edgeAt ∧
    (State.setNonfinite s p).pending = s.pending ∧ (State.setNonfinite s p).snaps = s.snaps ∧
    (State.setNonfinite s p).mem = s.mem ∧ (State.setNonfinite s p).ccr = s.ccr ∧
    (State.setNonfinite s p).mirror0 = s.mirror0 ∧ (State.setNonfinite s p).mirror1 = s.mirror1 ∧
    (State.setNonfinite s p).job = s.job ∧ (State.setNonfinite s p).ctxs = s.ctxs ∧
    (State.setNonfinite s p).tiles = s.tiles ∧ (State.setNonfinite s p).attend = s.attend ∧
    (State.setNonfinite s p).fifos = s.fifos ∧ (State.setNonfinite s p).rings = s.rings ∧
    (State.setNonfinite s p).cap = s.cap ∧ (State.setNonfinite s p).hub = s.hub ∧
    (State.setNonfinite s p).links = s.links ∧ (State.setNonfinite s p).solver = s.solver ∧
    (State.setNonfinite s p).host = s.host ∧ (State.setNonfinite s p).slow = s.slow ∧
    (State.setNonfinite s p).power = s.power ∧ (State.setNonfinite s p).bench = s.bench ∧
    (State.setNonfinite s p).router = s.router ∧ (State.setNonfinite s p).fresh = s.fresh := by
  unfold State.setNonfinite
  first
    | ((repeat' apply And.intro) <;> with_reducible_and_instances rfl)
    | (simp; done)
    | ((try dsimp only); (repeat' split) <;> simp; done)

@[simp] theorem setOpBits_frame (s : State) (n l lo wd v tag x : Nat) :
    (State.setOpBits s n l lo wd v tag x).now = s.now ∧ (State.setOpBits s n l lo wd v tag x).edgeAt = s.edgeAt ∧
    (State.setOpBits s n l lo wd v tag x).pending = s.pending ∧ (State.setOpBits s n l lo wd v tag x).regs = s.regs ∧
    (State.setOpBits s n l lo wd v tag x).snaps = s.snaps ∧ (State.setOpBits s n l lo wd v tag x).mem = s.mem ∧
    (State.setOpBits s n l lo wd v tag x).ccr = s.ccr ∧ (State.setOpBits s n l lo wd v tag x).mirror0 = s.mirror0 ∧
    (State.setOpBits s n l lo wd v tag x).mirror1 = s.mirror1 ∧ (State.setOpBits s n l lo wd v tag x).run = s.run ∧
    (State.setOpBits s n l lo wd v tag x).job = s.job ∧ (State.setOpBits s n l lo wd v tag x).ctxs = s.ctxs ∧
    (State.setOpBits s n l lo wd v tag x).attend = s.attend ∧ (State.setOpBits s n l lo wd v tag x).fifos = s.fifos ∧
    (State.setOpBits s n l lo wd v tag x).rings = s.rings ∧ (State.setOpBits s n l lo wd v tag x).cap = s.cap ∧
    (State.setOpBits s n l lo wd v tag x).hub = s.hub ∧ (State.setOpBits s n l lo wd v tag x).links = s.links ∧
    (State.setOpBits s n l lo wd v tag x).solver = s.solver ∧ (State.setOpBits s n l lo wd v tag x).host = s.host ∧
    (State.setOpBits s n l lo wd v tag x).slow = s.slow ∧ (State.setOpBits s n l lo wd v tag x).power = s.power ∧
    (State.setOpBits s n l lo wd v tag x).bench = s.bench ∧ (State.setOpBits s n l lo wd v tag x).router = s.router ∧
    (State.setOpBits s n l lo wd v tag x).outbox = s.outbox ∧
    (State.setOpBits s n l lo wd v tag x).fresh = s.fresh := by
  unfold State.setOpBits
  first
    | ((repeat' apply And.intro) <;> with_reducible_and_instances rfl)
    | (simp; done)
    | ((try dsimp only); (repeat' split) <;> simp; done)

@[simp] theorem setOpLine_frame (s : State) (n l : Nat) (v : Granule) (tag x : Nat) :
    (State.setOpLine s n l v tag x).now = s.now ∧ (State.setOpLine s n l v tag x).edgeAt = s.edgeAt ∧
    (State.setOpLine s n l v tag x).pending = s.pending ∧ (State.setOpLine s n l v tag x).regs = s.regs ∧
    (State.setOpLine s n l v tag x).snaps = s.snaps ∧ (State.setOpLine s n l v tag x).mem = s.mem ∧
    (State.setOpLine s n l v tag x).ccr = s.ccr ∧ (State.setOpLine s n l v tag x).mirror0 = s.mirror0 ∧
    (State.setOpLine s n l v tag x).mirror1 = s.mirror1 ∧ (State.setOpLine s n l v tag x).run = s.run ∧
    (State.setOpLine s n l v tag x).job = s.job ∧ (State.setOpLine s n l v tag x).ctxs = s.ctxs ∧
    (State.setOpLine s n l v tag x).attend = s.attend ∧ (State.setOpLine s n l v tag x).fifos = s.fifos ∧
    (State.setOpLine s n l v tag x).rings = s.rings ∧ (State.setOpLine s n l v tag x).cap = s.cap ∧
    (State.setOpLine s n l v tag x).hub = s.hub ∧ (State.setOpLine s n l v tag x).links = s.links ∧
    (State.setOpLine s n l v tag x).solver = s.solver ∧ (State.setOpLine s n l v tag x).host = s.host ∧
    (State.setOpLine s n l v tag x).slow = s.slow ∧ (State.setOpLine s n l v tag x).power = s.power ∧
    (State.setOpLine s n l v tag x).bench = s.bench ∧ (State.setOpLine s n l v tag x).router = s.router ∧
    (State.setOpLine s n l v tag x).outbox = s.outbox ∧ (State.setOpLine s n l v tag x).fresh = s.fresh := by
  unfold State.setOpLine
  first
    | ((repeat' apply And.intro) <;> with_reducible_and_instances rfl)
    | (simp; done)
    | ((try dsimp only); (repeat' split) <;> simp; done)

@[simp] theorem setAccEl_frame (s : State) (n a r c v x : Nat) :
    (State.setAccEl s n a r c v x).now = s.now ∧ (State.setAccEl s n a r c v x).edgeAt = s.edgeAt ∧
    (State.setAccEl s n a r c v x).pending = s.pending ∧ (State.setAccEl s n a r c v x).regs = s.regs ∧
    (State.setAccEl s n a r c v x).snaps = s.snaps ∧ (State.setAccEl s n a r c v x).mem = s.mem ∧
    (State.setAccEl s n a r c v x).ccr = s.ccr ∧ (State.setAccEl s n a r c v x).mirror0 = s.mirror0 ∧
    (State.setAccEl s n a r c v x).mirror1 = s.mirror1 ∧ (State.setAccEl s n a r c v x).run = s.run ∧
    (State.setAccEl s n a r c v x).job = s.job ∧ (State.setAccEl s n a r c v x).ctxs = s.ctxs ∧
    (State.setAccEl s n a r c v x).attend = s.attend ∧ (State.setAccEl s n a r c v x).fifos = s.fifos ∧
    (State.setAccEl s n a r c v x).rings = s.rings ∧ (State.setAccEl s n a r c v x).cap = s.cap ∧
    (State.setAccEl s n a r c v x).hub = s.hub ∧ (State.setAccEl s n a r c v x).links = s.links ∧
    (State.setAccEl s n a r c v x).solver = s.solver ∧ (State.setAccEl s n a r c v x).host = s.host ∧
    (State.setAccEl s n a r c v x).slow = s.slow ∧ (State.setAccEl s n a r c v x).power = s.power ∧
    (State.setAccEl s n a r c v x).bench = s.bench ∧ (State.setAccEl s n a r c v x).router = s.router ∧
    (State.setAccEl s n a r c v x).outbox = s.outbox ∧ (State.setAccEl s n a r c v x).fresh = s.fresh := by
  unfold State.setAccEl
  first
    | ((repeat' apply And.intro) <;> with_reducible_and_instances rfl)
    | (simp; done)
    | ((try dsimp only); (repeat' split) <;> simp; done)

@[simp] theorem setAccMark_frame (s : State) (n a m : Nat) :
    (State.setAccMark s n a m).now = s.now ∧ (State.setAccMark s n a m).edgeAt = s.edgeAt ∧
    (State.setAccMark s n a m).pending = s.pending ∧ (State.setAccMark s n a m).regs = s.regs ∧
    (State.setAccMark s n a m).snaps = s.snaps ∧ (State.setAccMark s n a m).mem = s.mem ∧
    (State.setAccMark s n a m).ccr = s.ccr ∧ (State.setAccMark s n a m).mirror0 = s.mirror0 ∧
    (State.setAccMark s n a m).mirror1 = s.mirror1 ∧ (State.setAccMark s n a m).run = s.run ∧
    (State.setAccMark s n a m).job = s.job ∧ (State.setAccMark s n a m).ctxs = s.ctxs ∧
    (State.setAccMark s n a m).attend = s.attend ∧ (State.setAccMark s n a m).fifos = s.fifos ∧
    (State.setAccMark s n a m).rings = s.rings ∧ (State.setAccMark s n a m).cap = s.cap ∧
    (State.setAccMark s n a m).hub = s.hub ∧ (State.setAccMark s n a m).links = s.links ∧
    (State.setAccMark s n a m).solver = s.solver ∧ (State.setAccMark s n a m).host = s.host ∧
    (State.setAccMark s n a m).slow = s.slow ∧ (State.setAccMark s n a m).power = s.power ∧
    (State.setAccMark s n a m).bench = s.bench ∧ (State.setAccMark s n a m).router = s.router ∧
    (State.setAccMark s n a m).outbox = s.outbox ∧ (State.setAccMark s n a m).fresh = s.fresh := by
  unfold State.setAccMark
  first
    | ((repeat' apply And.intro) <;> with_reducible_and_instances rfl)
    | (simp; done)
    | ((try dsimp only); (repeat' split) <;> simp; done)

@[simp] theorem accMarkBit_frame (s : State) (n a b : Nat) (v : Bool) :
    (State.accMarkBit s n a b v).now = s.now ∧ (State.accMarkBit s n a b v).edgeAt = s.edgeAt ∧
    (State.accMarkBit s n a b v).pending = s.pending ∧ (State.accMarkBit s n a b v).regs = s.regs ∧
    (State.accMarkBit s n a b v).snaps = s.snaps ∧ (State.accMarkBit s n a b v).mem = s.mem ∧
    (State.accMarkBit s n a b v).ccr = s.ccr ∧ (State.accMarkBit s n a b v).mirror0 = s.mirror0 ∧
    (State.accMarkBit s n a b v).mirror1 = s.mirror1 ∧ (State.accMarkBit s n a b v).run = s.run ∧
    (State.accMarkBit s n a b v).job = s.job ∧ (State.accMarkBit s n a b v).ctxs = s.ctxs ∧
    (State.accMarkBit s n a b v).attend = s.attend ∧ (State.accMarkBit s n a b v).fifos = s.fifos ∧
    (State.accMarkBit s n a b v).rings = s.rings ∧ (State.accMarkBit s n a b v).cap = s.cap ∧
    (State.accMarkBit s n a b v).hub = s.hub ∧ (State.accMarkBit s n a b v).links = s.links ∧
    (State.accMarkBit s n a b v).solver = s.solver ∧ (State.accMarkBit s n a b v).host = s.host ∧
    (State.accMarkBit s n a b v).slow = s.slow ∧ (State.accMarkBit s n a b v).power = s.power ∧
    (State.accMarkBit s n a b v).bench = s.bench ∧ (State.accMarkBit s n a b v).router = s.router ∧
    (State.accMarkBit s n a b v).outbox = s.outbox ∧ (State.accMarkBit s n a b v).fresh = s.fresh := by
  unfold State.accMarkBit
  first
    | ((repeat' apply And.intro) <;> with_reducible_and_instances rfl)
    | (simp; done)
    | ((try dsimp only); (repeat' split) <;> simp; done)

@[simp] theorem phaseTime_frame (s : State) (n p h k amount : Nat) :
    (State.phaseTime s n p h k amount).now = s.now ∧ (State.phaseTime s n p h k amount).edgeAt = s.edgeAt ∧
    (State.phaseTime s n p h k amount).pending = s.pending ∧ (State.phaseTime s n p h k amount).snaps = s.snaps ∧
    (State.phaseTime s n p h k amount).mem = s.mem ∧ (State.phaseTime s n p h k amount).ccr = s.ccr ∧
    (State.phaseTime s n p h k amount).mirror0 = s.mirror0 ∧ (State.phaseTime s n p h k amount).mirror1 = s.mirror1 ∧
    (State.phaseTime s n p h k amount).run = s.run ∧ (State.phaseTime s n p h k amount).job = s.job ∧
    (State.phaseTime s n p h k amount).ctxs = s.ctxs ∧ (State.phaseTime s n p h k amount).tiles = s.tiles ∧
    (State.phaseTime s n p h k amount).attend = s.attend ∧ (State.phaseTime s n p h k amount).fifos = s.fifos ∧
    (State.phaseTime s n p h k amount).rings = s.rings ∧ (State.phaseTime s n p h k amount).cap = s.cap ∧
    (State.phaseTime s n p h k amount).hub = s.hub ∧ (State.phaseTime s n p h k amount).links = s.links ∧
    (State.phaseTime s n p h k amount).solver = s.solver ∧ (State.phaseTime s n p h k amount).host = s.host ∧
    (State.phaseTime s n p h k amount).slow = s.slow ∧ (State.phaseTime s n p h k amount).power = s.power ∧
    (State.phaseTime s n p h k amount).bench = s.bench ∧ (State.phaseTime s n p h k amount).router = s.router ∧
    (State.phaseTime s n p h k amount).outbox = s.outbox ∧ (State.phaseTime s n p h k amount).fresh = s.fresh := by
  unfold State.phaseTime
  first
    | ((repeat' apply And.intro) <;> with_reducible_and_instances rfl)
    | (simp; done)
    | ((try dsimp only); (repeat' split) <;> simp; done)

@[simp] theorem fmtShare_frame (s : State) (n src f h e amount : Nat) :
    (State.fmtShare s n src f h e amount).now = s.now ∧ (State.fmtShare s n src f h e amount).edgeAt = s.edgeAt ∧
    (State.fmtShare s n src f h e amount).pending = s.pending ∧
    (State.fmtShare s n src f h e amount).snaps = s.snaps ∧ (State.fmtShare s n src f h e amount).mem = s.mem ∧
    (State.fmtShare s n src f h e amount).ccr = s.ccr ∧ (State.fmtShare s n src f h e amount).mirror0 = s.mirror0 ∧
    (State.fmtShare s n src f h e amount).mirror1 = s.mirror1 ∧ (State.fmtShare s n src f h e amount).run = s.run ∧
    (State.fmtShare s n src f h e amount).job = s.job ∧ (State.fmtShare s n src f h e amount).ctxs = s.ctxs ∧
    (State.fmtShare s n src f h e amount).tiles = s.tiles ∧ (State.fmtShare s n src f h e amount).attend = s.attend ∧
    (State.fmtShare s n src f h e amount).fifos = s.fifos ∧ (State.fmtShare s n src f h e amount).rings = s.rings ∧
    (State.fmtShare s n src f h e amount).cap = s.cap ∧ (State.fmtShare s n src f h e amount).hub = s.hub ∧
    (State.fmtShare s n src f h e amount).links = s.links ∧ (State.fmtShare s n src f h e amount).solver = s.solver ∧
    (State.fmtShare s n src f h e amount).host = s.host ∧ (State.fmtShare s n src f h e amount).slow = s.slow ∧
    (State.fmtShare s n src f h e amount).power = s.power ∧ (State.fmtShare s n src f h e amount).bench = s.bench ∧
    (State.fmtShare s n src f h e amount).router = s.router ∧
    (State.fmtShare s n src f h e amount).outbox = s.outbox ∧
    (State.fmtShare s n src f h e amount).fresh = s.fresh := by
  unfold State.fmtShare
  first
    | ((repeat' apply And.intro) <;> with_reducible_and_instances rfl)
    | (simp; done)
    | ((try dsimp only); (repeat' split) <;> simp; done)

@[simp] theorem item_frame (s : State) (w done fence : Nat) :
    (State.item s w done fence).now = s.now ∧ (State.item s w done fence).edgeAt = s.edgeAt ∧
    (State.item s w done fence).pending = s.pending ∧ (State.item s w done fence).regs = s.regs ∧
    (State.item s w done fence).snaps = s.snaps ∧ (State.item s w done fence).mem = s.mem ∧
    (State.item s w done fence).ccr = s.ccr ∧ (State.item s w done fence).mirror0 = s.mirror0 ∧
    (State.item s w done fence).mirror1 = s.mirror1 ∧ (State.item s w done fence).job = s.job ∧
    (State.item s w done fence).ctxs = s.ctxs ∧ (State.item s w done fence).tiles = s.tiles ∧
    (State.item s w done fence).attend = s.attend ∧ (State.item s w done fence).fifos = s.fifos ∧
    (State.item s w done fence).rings = s.rings ∧ (State.item s w done fence).cap = s.cap ∧
    (State.item s w done fence).hub = s.hub ∧ (State.item s w done fence).links = s.links ∧
    (State.item s w done fence).solver = s.solver ∧ (State.item s w done fence).host = s.host ∧
    (State.item s w done fence).slow = s.slow ∧ (State.item s w done fence).power = s.power ∧
    (State.item s w done fence).bench = s.bench ∧ (State.item s w done fence).router = s.router ∧
    (State.item s w done fence).outbox = s.outbox ∧ (State.item s w done fence).fresh = s.fresh := by
  unfold State.item
  first
    | ((repeat' apply And.intro) <;> with_reducible_and_instances rfl)
    | (simp; done)
    | ((try dsimp only); (repeat' split) <;> simp; done)

@[simp] theorem excFirst_frame (s : State) (n lpod acc seq block cause : Nat) :
    (State.excFirst s n lpod acc seq block cause).now = s.now ∧
    (State.excFirst s n lpod acc seq block cause).edgeAt = s.edgeAt ∧
    (State.excFirst s n lpod acc seq block cause).pending = s.pending ∧
    (State.excFirst s n lpod acc seq block cause).snaps = s.snaps ∧
    (State.excFirst s n lpod acc seq block cause).mem = s.mem ∧
    (State.excFirst s n lpod acc seq block cause).ccr = s.ccr ∧
    (State.excFirst s n lpod acc seq block cause).mirror0 = s.mirror0 ∧
    (State.excFirst s n lpod acc seq block cause).mirror1 = s.mirror1 ∧
    (State.excFirst s n lpod acc seq block cause).run = s.run ∧
    (State.excFirst s n lpod acc seq block cause).job = s.job ∧
    (State.excFirst s n lpod acc seq block cause).ctxs = s.ctxs ∧
    (State.excFirst s n lpod acc seq block cause).tiles = s.tiles ∧
    (State.excFirst s n lpod acc seq block cause).attend = s.attend ∧
    (State.excFirst s n lpod acc seq block cause).fifos = s.fifos ∧
    (State.excFirst s n lpod acc seq block cause).rings = s.rings ∧
    (State.excFirst s n lpod acc seq block cause).cap = s.cap ∧
    (State.excFirst s n lpod acc seq block cause).hub = s.hub ∧
    (State.excFirst s n lpod acc seq block cause).links = s.links ∧
    (State.excFirst s n lpod acc seq block cause).solver = s.solver ∧
    (State.excFirst s n lpod acc seq block cause).host = s.host ∧
    (State.excFirst s n lpod acc seq block cause).slow = s.slow ∧
    (State.excFirst s n lpod acc seq block cause).power = s.power ∧
    (State.excFirst s n lpod acc seq block cause).bench = s.bench ∧
    (State.excFirst s n lpod acc seq block cause).router = s.router ∧
    (State.excFirst s n lpod acc seq block cause).outbox = s.outbox ∧
    (State.excFirst s n lpod acc seq block cause).fresh = s.fresh := by
  unfold State.excFirst
  first
    | ((repeat' apply And.intro) <;> with_reducible_and_instances rfl)
    | (simp; done)
    | ((try dsimp only); (repeat' split) <;> simp; done)

@[simp] theorem tagInvalid_frame (s : State) (n a lpod fmt phase seq block cause : Nat) :
    (State.tagInvalid s n a lpod fmt phase seq block cause).now = s.now ∧
    (State.tagInvalid s n a lpod fmt phase seq block cause).edgeAt = s.edgeAt ∧
    (State.tagInvalid s n a lpod fmt phase seq block cause).pending = s.pending ∧
    (State.tagInvalid s n a lpod fmt phase seq block cause).snaps = s.snaps ∧
    (State.tagInvalid s n a lpod fmt phase seq block cause).mem = s.mem ∧
    (State.tagInvalid s n a lpod fmt phase seq block cause).ccr = s.ccr ∧
    (State.tagInvalid s n a lpod fmt phase seq block cause).mirror0 = s.mirror0 ∧
    (State.tagInvalid s n a lpod fmt phase seq block cause).mirror1 = s.mirror1 ∧
    (State.tagInvalid s n a lpod fmt phase seq block cause).job = s.job ∧
    (State.tagInvalid s n a lpod fmt phase seq block cause).ctxs = s.ctxs ∧
    (State.tagInvalid s n a lpod fmt phase seq block cause).attend = s.attend ∧
    (State.tagInvalid s n a lpod fmt phase seq block cause).fifos = s.fifos ∧
    (State.tagInvalid s n a lpod fmt phase seq block cause).rings = s.rings ∧
    (State.tagInvalid s n a lpod fmt phase seq block cause).cap = s.cap ∧
    (State.tagInvalid s n a lpod fmt phase seq block cause).hub = s.hub ∧
    (State.tagInvalid s n a lpod fmt phase seq block cause).links = s.links ∧
    (State.tagInvalid s n a lpod fmt phase seq block cause).solver = s.solver ∧
    (State.tagInvalid s n a lpod fmt phase seq block cause).host = s.host ∧
    (State.tagInvalid s n a lpod fmt phase seq block cause).slow = s.slow ∧
    (State.tagInvalid s n a lpod fmt phase seq block cause).power = s.power ∧
    (State.tagInvalid s n a lpod fmt phase seq block cause).bench = s.bench ∧
    (State.tagInvalid s n a lpod fmt phase seq block cause).router = s.router ∧
    (State.tagInvalid s n a lpod fmt phase seq block cause).fresh = s.fresh := by
  unfold State.tagInvalid
  first
    | ((repeat' apply And.intro) <;> with_reducible_and_instances rfl)
    | (simp; done)
    | ((try dsimp only); (repeat' split) <;> simp; done)

@[simp] theorem tagWord_frame (s : State) (n : Nat) (w : Word256) (seq : Nat) :
    (State.tagWord s n w seq).now = s.now ∧ (State.tagWord s n w seq).edgeAt = s.edgeAt ∧
    (State.tagWord s n w seq).pending = s.pending ∧ (State.tagWord s n w seq).snaps = s.snaps ∧
    (State.tagWord s n w seq).mem = s.mem ∧ (State.tagWord s n w seq).ccr = s.ccr ∧
    (State.tagWord s n w seq).mirror0 = s.mirror0 ∧ (State.tagWord s n w seq).mirror1 = s.mirror1 ∧
    (State.tagWord s n w seq).job = s.job ∧ (State.tagWord s n w seq).ctxs = s.ctxs ∧
    (State.tagWord s n w seq).attend = s.attend ∧ (State.tagWord s n w seq).fifos = s.fifos ∧
    (State.tagWord s n w seq).rings = s.rings ∧ (State.tagWord s n w seq).cap = s.cap ∧
    (State.tagWord s n w seq).hub = s.hub ∧ (State.tagWord s n w seq).links = s.links ∧
    (State.tagWord s n w seq).solver = s.solver ∧ (State.tagWord s n w seq).host = s.host ∧
    (State.tagWord s n w seq).slow = s.slow ∧ (State.tagWord s n w seq).power = s.power ∧
    (State.tagWord s n w seq).bench = s.bench ∧ (State.tagWord s n w seq).router = s.router ∧
    (State.tagWord s n w seq).fresh = s.fresh := by
  unfold State.tagWord
  first
    | ((repeat' apply And.intro) <;> with_reducible_and_instances rfl)
    | (simp; done)
    | ((try dsimp only); (repeat' split) <;> simp; done)

@[simp] theorem streamFaultAt_frame (s : State) (n : Nat) (w : Word256) (seq : Nat) :
    (State.streamFaultAt s n w seq).now = s.now ∧ (State.streamFaultAt s n w seq).edgeAt = s.edgeAt ∧
    (State.streamFaultAt s n w seq).pending = s.pending ∧ (State.streamFaultAt s n w seq).snaps = s.snaps ∧
    (State.streamFaultAt s n w seq).mem = s.mem ∧ (State.streamFaultAt s n w seq).ccr = s.ccr ∧
    (State.streamFaultAt s n w seq).mirror0 = s.mirror0 ∧ (State.streamFaultAt s n w seq).mirror1 = s.mirror1 ∧
    (State.streamFaultAt s n w seq).job = s.job ∧ (State.streamFaultAt s n w seq).ctxs = s.ctxs ∧
    (State.streamFaultAt s n w seq).rings = s.rings ∧ (State.streamFaultAt s n w seq).hub = s.hub ∧
    (State.streamFaultAt s n w seq).links = s.links ∧ (State.streamFaultAt s n w seq).solver = s.solver ∧
    (State.streamFaultAt s n w seq).host = s.host ∧ (State.streamFaultAt s n w seq).slow = s.slow ∧
    (State.streamFaultAt s n w seq).power = s.power ∧ (State.streamFaultAt s n w seq).bench = s.bench ∧
    (State.streamFaultAt s n w seq).router = s.router ∧ (State.streamFaultAt s n w seq).fresh = s.fresh := by
  unfold State.streamFaultAt
  first
    | ((repeat' apply And.intro) <;> with_reducible_and_instances rfl)
    | (simp; done)
    | ((try dsimp only); (repeat' split) <;> simp; done)

@[simp] theorem streamFault_frame (s : State) (n : Nat) (w : Word256) :
    (State.streamFault s n w).now = s.now ∧ (State.streamFault s n w).edgeAt = s.edgeAt ∧
    (State.streamFault s n w).pending = s.pending ∧ (State.streamFault s n w).snaps = s.snaps ∧
    (State.streamFault s n w).mem = s.mem ∧ (State.streamFault s n w).ccr = s.ccr ∧
    (State.streamFault s n w).mirror0 = s.mirror0 ∧ (State.streamFault s n w).mirror1 = s.mirror1 ∧
    (State.streamFault s n w).job = s.job ∧ (State.streamFault s n w).ctxs = s.ctxs ∧
    (State.streamFault s n w).rings = s.rings ∧ (State.streamFault s n w).hub = s.hub ∧
    (State.streamFault s n w).links = s.links ∧ (State.streamFault s n w).solver = s.solver ∧
    (State.streamFault s n w).host = s.host ∧ (State.streamFault s n w).slow = s.slow ∧
    (State.streamFault s n w).power = s.power ∧ (State.streamFault s n w).bench = s.bench ∧
    (State.streamFault s n w).router = s.router ∧ (State.streamFault s n w).fresh = s.fresh := by
  unfold State.streamFault
  first
    | ((repeat' apply And.intro) <;> with_reducible_and_instances rfl)
    | (simp; done)
    | ((try dsimp only); (repeat' split) <;> simp; done)

@[simp] theorem veEvents_frame (s : State) (n phase : Nat) (c : EvCnt) :
    (State.veEvents s n phase c).now = s.now ∧ (State.veEvents s n phase c).edgeAt = s.edgeAt ∧
    (State.veEvents s n phase c).pending = s.pending ∧ (State.veEvents s n phase c).snaps = s.snaps ∧
    (State.veEvents s n phase c).mem = s.mem ∧ (State.veEvents s n phase c).ccr = s.ccr ∧
    (State.veEvents s n phase c).mirror0 = s.mirror0 ∧ (State.veEvents s n phase c).mirror1 = s.mirror1 ∧
    (State.veEvents s n phase c).job = s.job ∧ (State.veEvents s n phase c).ctxs = s.ctxs ∧
    (State.veEvents s n phase c).tiles = s.tiles ∧ (State.veEvents s n phase c).attend = s.attend ∧
    (State.veEvents s n phase c).fifos = s.fifos ∧ (State.veEvents s n phase c).rings = s.rings ∧
    (State.veEvents s n phase c).cap = s.cap ∧ (State.veEvents s n phase c).hub = s.hub ∧
    (State.veEvents s n phase c).links = s.links ∧ (State.veEvents s n phase c).solver = s.solver ∧
    (State.veEvents s n phase c).host = s.host ∧ (State.veEvents s n phase c).slow = s.slow ∧
    (State.veEvents s n phase c).power = s.power ∧ (State.veEvents s n phase c).bench = s.bench ∧
    (State.veEvents s n phase c).router = s.router ∧ (State.veEvents s n phase c).fresh = s.fresh := by
  unfold State.veEvents
  first
    | ((repeat' apply And.intro) <;> with_reducible_and_instances rfl)
    | (simp; done)
    | ((try dsimp only); (repeat' split) <;> simp; done)

@[simp] theorem convEvents_frame (s : State) (n fmt phase : Nat) (c : EvCnt) :
    (State.convEvents s n fmt phase c).now = s.now ∧ (State.convEvents s n fmt phase c).edgeAt = s.edgeAt ∧
    (State.convEvents s n fmt phase c).pending = s.pending ∧ (State.convEvents s n fmt phase c).snaps = s.snaps ∧
    (State.convEvents s n fmt phase c).mem = s.mem ∧ (State.convEvents s n fmt phase c).ccr = s.ccr ∧
    (State.convEvents s n fmt phase c).mirror0 = s.mirror0 ∧ (State.convEvents s n fmt phase c).mirror1 = s.mirror1 ∧
    (State.convEvents s n fmt phase c).job = s.job ∧ (State.convEvents s n fmt phase c).ctxs = s.ctxs ∧
    (State.convEvents s n fmt phase c).tiles = s.tiles ∧ (State.convEvents s n fmt phase c).attend = s.attend ∧
    (State.convEvents s n fmt phase c).fifos = s.fifos ∧ (State.convEvents s n fmt phase c).rings = s.rings ∧
    (State.convEvents s n fmt phase c).cap = s.cap ∧ (State.convEvents s n fmt phase c).hub = s.hub ∧
    (State.convEvents s n fmt phase c).links = s.links ∧ (State.convEvents s n fmt phase c).solver = s.solver ∧
    (State.convEvents s n fmt phase c).host = s.host ∧ (State.convEvents s n fmt phase c).slow = s.slow ∧
    (State.convEvents s n fmt phase c).power = s.power ∧ (State.convEvents s n fmt phase c).bench = s.bench ∧
    (State.convEvents s n fmt phase c).router = s.router ∧ (State.convEvents s n fmt phase c).fresh = s.fresh := by
  unfold State.convEvents
  first
    | ((repeat' apply And.intro) <;> with_reducible_and_instances rfl)
    | (simp; done)
    | ((try dsimp only); (repeat' split) <;> simp; done)

@[simp] theorem issue_frame (s : State) (n : Nat) (w : Word256) (cycle : Nat) :
    (State.issue s n w cycle).edgeAt = s.edgeAt ∧ (State.issue s n w cycle).pending = s.pending ∧
    (State.issue s n w cycle).snaps = s.snaps ∧ (State.issue s n w cycle).mem = s.mem ∧
    (State.issue s n w cycle).ccr = s.ccr ∧ (State.issue s n w cycle).mirror0 = s.mirror0 ∧
    (State.issue s n w cycle).mirror1 = s.mirror1 ∧ (State.issue s n w cycle).run = s.run ∧
    (State.issue s n w cycle).job = s.job ∧ (State.issue s n w cycle).ctxs = s.ctxs ∧
    (State.issue s n w cycle).attend = s.attend ∧ (State.issue s n w cycle).fifos = s.fifos ∧
    (State.issue s n w cycle).rings = s.rings ∧ (State.issue s n w cycle).cap = s.cap ∧
    (State.issue s n w cycle).hub = s.hub ∧ (State.issue s n w cycle).links = s.links ∧
    (State.issue s n w cycle).solver = s.solver ∧ (State.issue s n w cycle).host = s.host ∧
    (State.issue s n w cycle).slow = s.slow ∧ (State.issue s n w cycle).power = s.power ∧
    (State.issue s n w cycle).bench = s.bench ∧ (State.issue s n w cycle).router = s.router ∧
    (State.issue s n w cycle).outbox = s.outbox ∧ (State.issue s n w cycle).fresh = s.fresh := by
  unfold State.issue
  first
    | ((repeat' apply And.intro) <;> with_reducible_and_instances rfl)
    | (simp; done)
    | ((try dsimp only); (repeat' split) <;> simp; done)

@[simp] theorem veBegin_frame (s : State) (n : Nat) (w : Word256) (c latency occ : Nat) (lim : Option Nat) :
    (State.veBegin s n w c latency occ lim).edgeAt = s.edgeAt ∧
    (State.veBegin s n w c latency occ lim).pending = s.pending ∧
    (State.veBegin s n w c latency occ lim).snaps = s.snaps ∧ (State.veBegin s n w c latency occ lim).mem = s.mem ∧
    (State.veBegin s n w c latency occ lim).ccr = s.ccr ∧
    (State.veBegin s n w c latency occ lim).mirror0 = s.mirror0 ∧
    (State.veBegin s n w c latency occ lim).mirror1 = s.mirror1 ∧
    (State.veBegin s n w c latency occ lim).job = s.job ∧ (State.veBegin s n w c latency occ lim).ctxs = s.ctxs ∧
    (State.veBegin s n w c latency occ lim).attend = s.attend ∧
    (State.veBegin s n w c latency occ lim).fifos = s.fifos ∧
    (State.veBegin s n w c latency occ lim).rings = s.rings ∧ (State.veBegin s n w c latency occ lim).cap = s.cap ∧
    (State.veBegin s n w c latency occ lim).hub = s.hub ∧ (State.veBegin s n w c latency occ lim).links = s.links ∧
    (State.veBegin s n w c latency occ lim).solver = s.solver ∧
    (State.veBegin s n w c latency occ lim).host = s.host ∧ (State.veBegin s n w c latency occ lim).slow = s.slow ∧
    (State.veBegin s n w c latency occ lim).power = s.power ∧
    (State.veBegin s n w c latency occ lim).bench = s.bench ∧
    (State.veBegin s n w c latency occ lim).router = s.router ∧
    (State.veBegin s n w c latency occ lim).outbox = s.outbox ∧
    (State.veBegin s n w c latency occ lim).fresh = s.fresh := by
  unfold State.veBegin
  first
    | ((repeat' apply And.intro) <;> with_reducible_and_instances rfl)
    | (simp; done)
    | ((try dsimp only); (repeat' split) <;> simp; done)

@[simp] theorem withHost_frame (s : State) (f : HostSt → HostSt) :
    (State.withHost s f).now = s.now ∧ (State.withHost s f).edgeAt = s.edgeAt ∧
    (State.withHost s f).pending = s.pending ∧ (State.withHost s f).regs = s.regs ∧
    (State.withHost s f).snaps = s.snaps ∧ (State.withHost s f).mem = s.mem ∧ (State.withHost s f).ccr = s.ccr ∧
    (State.withHost s f).mirror0 = s.mirror0 ∧ (State.withHost s f).mirror1 = s.mirror1 ∧
    (State.withHost s f).run = s.run ∧ (State.withHost s f).job = s.job ∧ (State.withHost s f).ctxs = s.ctxs ∧
    (State.withHost s f).tiles = s.tiles ∧ (State.withHost s f).attend = s.attend ∧
    (State.withHost s f).fifos = s.fifos ∧ (State.withHost s f).rings = s.rings ∧ (State.withHost s f).cap = s.cap ∧
    (State.withHost s f).hub = s.hub ∧ (State.withHost s f).links = s.links ∧
    (State.withHost s f).solver = s.solver ∧ (State.withHost s f).slow = s.slow ∧
    (State.withHost s f).power = s.power ∧ (State.withHost s f).bench = s.bench ∧
    (State.withHost s f).router = s.router ∧ (State.withHost s f).outbox = s.outbox ∧
    (State.withHost s f).fresh = s.fresh := by
  unfold State.withHost
  first
    | ((repeat' apply And.intro) <;> with_reducible_and_instances rfl)
    | (simp; done)
    | ((try dsimp only); (repeat' split) <;> simp; done)

@[simp] theorem withHub_frame (s : State) (f : HubSt → HubSt) :
    (State.withHub s f).now = s.now ∧ (State.withHub s f).edgeAt = s.edgeAt ∧
    (State.withHub s f).pending = s.pending ∧ (State.withHub s f).regs = s.regs ∧
    (State.withHub s f).snaps = s.snaps ∧ (State.withHub s f).mem = s.mem ∧ (State.withHub s f).ccr = s.ccr ∧
    (State.withHub s f).mirror0 = s.mirror0 ∧ (State.withHub s f).mirror1 = s.mirror1 ∧
    (State.withHub s f).run = s.run ∧ (State.withHub s f).job = s.job ∧ (State.withHub s f).ctxs = s.ctxs ∧
    (State.withHub s f).tiles = s.tiles ∧ (State.withHub s f).attend = s.attend ∧
    (State.withHub s f).fifos = s.fifos ∧ (State.withHub s f).rings = s.rings ∧ (State.withHub s f).cap = s.cap ∧
    (State.withHub s f).links = s.links ∧ (State.withHub s f).solver = s.solver ∧ (State.withHub s f).host = s.host ∧
    (State.withHub s f).slow = s.slow ∧ (State.withHub s f).power = s.power ∧ (State.withHub s f).bench = s.bench ∧
    (State.withHub s f).router = s.router ∧ (State.withHub s f).outbox = s.outbox ∧
    (State.withHub s f).fresh = s.fresh := by
  unfold State.withHub
  first
    | ((repeat' apply And.intro) <;> with_reducible_and_instances rfl)
    | (simp; done)
    | ((try dsimp only); (repeat' split) <;> simp; done)

@[simp] theorem withBench_frame (s : State) (f : BenchSt → BenchSt) :
    (State.withBench s f).now = s.now ∧ (State.withBench s f).edgeAt = s.edgeAt ∧
    (State.withBench s f).pending = s.pending ∧ (State.withBench s f).regs = s.regs ∧
    (State.withBench s f).snaps = s.snaps ∧ (State.withBench s f).mem = s.mem ∧ (State.withBench s f).ccr = s.ccr ∧
    (State.withBench s f).mirror0 = s.mirror0 ∧ (State.withBench s f).mirror1 = s.mirror1 ∧
    (State.withBench s f).run = s.run ∧ (State.withBench s f).job = s.job ∧ (State.withBench s f).ctxs = s.ctxs ∧
    (State.withBench s f).tiles = s.tiles ∧ (State.withBench s f).attend = s.attend ∧
    (State.withBench s f).fifos = s.fifos ∧ (State.withBench s f).rings = s.rings ∧
    (State.withBench s f).cap = s.cap ∧ (State.withBench s f).hub = s.hub ∧ (State.withBench s f).links = s.links ∧
    (State.withBench s f).solver = s.solver ∧ (State.withBench s f).host = s.host ∧
    (State.withBench s f).slow = s.slow ∧ (State.withBench s f).power = s.power ∧
    (State.withBench s f).router = s.router ∧ (State.withBench s f).outbox = s.outbox ∧
    (State.withBench s f).fresh = s.fresh := by
  unfold State.withBench
  first
    | ((repeat' apply And.intro) <;> with_reducible_and_instances rfl)
    | (simp; done)
    | ((try dsimp only); (repeat' split) <;> simp; done)

@[simp] theorem withSolver_frame (s : State) (f : SolverSt → SolverSt) :
    (State.withSolver s f).now = s.now ∧ (State.withSolver s f).edgeAt = s.edgeAt ∧
    (State.withSolver s f).pending = s.pending ∧ (State.withSolver s f).regs = s.regs ∧
    (State.withSolver s f).snaps = s.snaps ∧ (State.withSolver s f).mem = s.mem ∧
    (State.withSolver s f).ccr = s.ccr ∧ (State.withSolver s f).mirror0 = s.mirror0 ∧
    (State.withSolver s f).mirror1 = s.mirror1 ∧ (State.withSolver s f).run = s.run ∧
    (State.withSolver s f).job = s.job ∧ (State.withSolver s f).ctxs = s.ctxs ∧
    (State.withSolver s f).tiles = s.tiles ∧ (State.withSolver s f).attend = s.attend ∧
    (State.withSolver s f).fifos = s.fifos ∧ (State.withSolver s f).rings = s.rings ∧
    (State.withSolver s f).cap = s.cap ∧ (State.withSolver s f).hub = s.hub ∧
    (State.withSolver s f).links = s.links ∧ (State.withSolver s f).host = s.host ∧
    (State.withSolver s f).slow = s.slow ∧ (State.withSolver s f).power = s.power ∧
    (State.withSolver s f).bench = s.bench ∧ (State.withSolver s f).router = s.router ∧
    (State.withSolver s f).outbox = s.outbox ∧ (State.withSolver s f).fresh = s.fresh := by
  unfold State.withSolver
  first
    | ((repeat' apply And.intro) <;> with_reducible_and_instances rfl)
    | (simp; done)
    | ((try dsimp only); (repeat' split) <;> simp; done)

@[simp] theorem withLink_frame (s : State) (l : Nat) (f : LinkSt → LinkSt) :
    (State.withLink s l f).now = s.now ∧ (State.withLink s l f).edgeAt = s.edgeAt ∧
    (State.withLink s l f).pending = s.pending ∧ (State.withLink s l f).regs = s.regs ∧
    (State.withLink s l f).snaps = s.snaps ∧ (State.withLink s l f).mem = s.mem ∧
    (State.withLink s l f).ccr = s.ccr ∧ (State.withLink s l f).mirror0 = s.mirror0 ∧
    (State.withLink s l f).mirror1 = s.mirror1 ∧ (State.withLink s l f).run = s.run ∧
    (State.withLink s l f).job = s.job ∧ (State.withLink s l f).ctxs = s.ctxs ∧
    (State.withLink s l f).tiles = s.tiles ∧ (State.withLink s l f).attend = s.attend ∧
    (State.withLink s l f).fifos = s.fifos ∧ (State.withLink s l f).rings = s.rings ∧
    (State.withLink s l f).cap = s.cap ∧ (State.withLink s l f).hub = s.hub ∧
    (State.withLink s l f).solver = s.solver ∧ (State.withLink s l f).host = s.host ∧
    (State.withLink s l f).slow = s.slow ∧ (State.withLink s l f).power = s.power ∧
    (State.withLink s l f).bench = s.bench ∧ (State.withLink s l f).router = s.router ∧
    (State.withLink s l f).outbox = s.outbox ∧ (State.withLink s l f).fresh = s.fresh := by
  unfold State.withLink
  first
    | ((repeat' apply And.intro) <;> with_reducible_and_instances rfl)
    | (simp; done)
    | ((try dsimp only); (repeat' split) <;> simp; done)

@[simp] theorem putFrame_frame (s : State) (l c seq kind slot flit : Nat) :
    (State.putFrame s l c seq kind slot flit).now = s.now ∧
    (State.putFrame s l c seq kind slot flit).edgeAt = s.edgeAt ∧
    (State.putFrame s l c seq kind slot flit).pending = s.pending ∧
    (State.putFrame s l c seq kind slot flit).regs = s.regs ∧
    (State.putFrame s l c seq kind slot flit).snaps = s.snaps ∧
    (State.putFrame s l c seq kind slot flit).mem = s.mem ∧ (State.putFrame s l c seq kind slot flit).ccr = s.ccr ∧
    (State.putFrame s l c seq kind slot flit).mirror0 = s.mirror0 ∧
    (State.putFrame s l c seq kind slot flit).mirror1 = s.mirror1 ∧
    (State.putFrame s l c seq kind slot flit).run = s.run ∧ (State.putFrame s l c seq kind slot flit).job = s.job ∧
    (State.putFrame s l c seq kind slot flit).ctxs = s.ctxs ∧
    (State.putFrame s l c seq kind slot flit).tiles = s.tiles ∧
    (State.putFrame s l c seq kind slot flit).attend = s.attend ∧
    (State.putFrame s l c seq kind slot flit).fifos = s.fifos ∧
    (State.putFrame s l c seq kind slot flit).rings = s.rings ∧
    (State.putFrame s l c seq kind slot flit).cap = s.cap ∧ (State.putFrame s l c seq kind slot flit).hub = s.hub ∧
    (State.putFrame s l c seq kind slot flit).solver = s.solver ∧
    (State.putFrame s l c seq kind slot flit).host = s.host ∧
    (State.putFrame s l c seq kind slot flit).slow = s.slow ∧
    (State.putFrame s l c seq kind slot flit).power = s.power ∧
    (State.putFrame s l c seq kind slot flit).bench = s.bench ∧
    (State.putFrame s l c seq kind slot flit).router = s.router ∧
    (State.putFrame s l c seq kind slot flit).fresh = s.fresh := by
  unfold State.putFrame
  first
    | ((repeat' apply And.intro) <;> with_reducible_and_instances rfl)
    | (simp; done)
    | ((try dsimp only); (repeat' split) <;> simp; done)

@[simp] theorem linkSend_frame (s : State) (l c kind flit : Nat) :
    (State.linkSend s l c kind flit).now = s.now ∧ (State.linkSend s l c kind flit).edgeAt = s.edgeAt ∧
    (State.linkSend s l c kind flit).pending = s.pending ∧ (State.linkSend s l c kind flit).regs = s.regs ∧
    (State.linkSend s l c kind flit).snaps = s.snaps ∧ (State.linkSend s l c kind flit).mem = s.mem ∧
    (State.linkSend s l c kind flit).ccr = s.ccr ∧ (State.linkSend s l c kind flit).mirror0 = s.mirror0 ∧
    (State.linkSend s l c kind flit).mirror1 = s.mirror1 ∧ (State.linkSend s l c kind flit).run = s.run ∧
    (State.linkSend s l c kind flit).job = s.job ∧ (State.linkSend s l c kind flit).ctxs = s.ctxs ∧
    (State.linkSend s l c kind flit).tiles = s.tiles ∧ (State.linkSend s l c kind flit).attend = s.attend ∧
    (State.linkSend s l c kind flit).fifos = s.fifos ∧ (State.linkSend s l c kind flit).rings = s.rings ∧
    (State.linkSend s l c kind flit).cap = s.cap ∧ (State.linkSend s l c kind flit).hub = s.hub ∧
    (State.linkSend s l c kind flit).solver = s.solver ∧ (State.linkSend s l c kind flit).host = s.host ∧
    (State.linkSend s l c kind flit).slow = s.slow ∧ (State.linkSend s l c kind flit).power = s.power ∧
    (State.linkSend s l c kind flit).bench = s.bench ∧ (State.linkSend s l c kind flit).router = s.router ∧
    (State.linkSend s l c kind flit).fresh = s.fresh := by
  unfold State.linkSend
  first
    | ((repeat' apply And.intro) <;> with_reducible_and_instances rfl)
    | (simp; done)
    | ((try dsimp only); (repeat' split) <;> simp; done)

@[simp] theorem sendFrames_frame (s : State) (links : List Nat) (c kind flit : Nat) :
    (State.sendFrames s links c kind flit).now = s.now ∧ (State.sendFrames s links c kind flit).edgeAt = s.edgeAt ∧
    (State.sendFrames s links c kind flit).pending = s.pending ∧
    (State.sendFrames s links c kind flit).regs = s.regs ∧ (State.sendFrames s links c kind flit).snaps = s.snaps ∧
    (State.sendFrames s links c kind flit).mem = s.mem ∧ (State.sendFrames s links c kind flit).ccr = s.ccr ∧
    (State.sendFrames s links c kind flit).mirror0 = s.mirror0 ∧
    (State.sendFrames s links c kind flit).mirror1 = s.mirror1 ∧ (State.sendFrames s links c kind flit).run = s.run ∧
    (State.sendFrames s links c kind flit).job = s.job ∧ (State.sendFrames s links c kind flit).ctxs = s.ctxs ∧
    (State.sendFrames s links c kind flit).tiles = s.tiles ∧
    (State.sendFrames s links c kind flit).attend = s.attend ∧
    (State.sendFrames s links c kind flit).fifos = s.fifos ∧ (State.sendFrames s links c kind flit).rings = s.rings ∧
    (State.sendFrames s links c kind flit).cap = s.cap ∧ (State.sendFrames s links c kind flit).hub = s.hub ∧
    (State.sendFrames s links c kind flit).solver = s.solver ∧ (State.sendFrames s links c kind flit).host = s.host ∧
    (State.sendFrames s links c kind flit).slow = s.slow ∧ (State.sendFrames s links c kind flit).power = s.power ∧
    (State.sendFrames s links c kind flit).bench = s.bench ∧
    (State.sendFrames s links c kind flit).router = s.router ∧
    (State.sendFrames s links c kind flit).fresh = s.fresh := by
  unfold State.sendFrames
  induction links generalizing s with
  | nil => simp
  | cons l r ih => simpa using ih (s.linkSend l c kind flit)

@[simp] theorem sendNotice_frame (s : State) (c origin cause : Nat) :
    (State.sendNotice s c origin cause).now = s.now ∧ (State.sendNotice s c origin cause).edgeAt = s.edgeAt ∧
    (State.sendNotice s c origin cause).pending = s.pending ∧ (State.sendNotice s c origin cause).regs = s.regs ∧
    (State.sendNotice s c origin cause).snaps = s.snaps ∧ (State.sendNotice s c origin cause).mem = s.mem ∧
    (State.sendNotice s c origin cause).ccr = s.ccr ∧ (State.sendNotice s c origin cause).mirror0 = s.mirror0 ∧
    (State.sendNotice s c origin cause).mirror1 = s.mirror1 ∧ (State.sendNotice s c origin cause).run = s.run ∧
    (State.sendNotice s c origin cause).job = s.job ∧ (State.sendNotice s c origin cause).ctxs = s.ctxs ∧
    (State.sendNotice s c origin cause).tiles = s.tiles ∧ (State.sendNotice s c origin cause).attend = s.attend ∧
    (State.sendNotice s c origin cause).fifos = s.fifos ∧ (State.sendNotice s c origin cause).rings = s.rings ∧
    (State.sendNotice s c origin cause).cap = s.cap ∧ (State.sendNotice s c origin cause).hub = s.hub ∧
    (State.sendNotice s c origin cause).solver = s.solver ∧ (State.sendNotice s c origin cause).host = s.host ∧
    (State.sendNotice s c origin cause).slow = s.slow ∧ (State.sendNotice s c origin cause).power = s.power ∧
    (State.sendNotice s c origin cause).bench = s.bench ∧ (State.sendNotice s c origin cause).router = s.router ∧
    (State.sendNotice s c origin cause).fresh = s.fresh := by
  unfold State.sendNotice
  have hin : ∀ (ys : List Nat) (a b : State) (l : Nat), a.now = b.now ∧ a.edgeAt = b.edgeAt ∧ a.pending = b.pending ∧ a.regs = b.regs ∧ a.snaps = b.snaps ∧ a.mem = b.mem ∧ a.ccr = b.ccr ∧ a.mirror0 = b.mirror0 ∧ a.mirror1 = b.mirror1 ∧ a.run = b.run ∧ a.job = b.job ∧ a.ctxs = b.ctxs ∧ a.tiles = b.tiles ∧ a.attend = b.attend ∧ a.fifos = b.fifos ∧ a.rings = b.rings ∧ a.cap = b.cap ∧ a.hub = b.hub ∧ a.solver = b.solver ∧ a.host = b.host ∧ a.slow = b.slow ∧ a.power = b.power ∧ a.bench = b.bench ∧ a.router = b.router ∧ a.fresh = b.fresh →
      (ys.foldl (fun (s : State) y => s.linkSend l y 2 (noticeFlit origin cause)) a).now = b.now ∧ (ys.foldl (fun (s : State) y => s.linkSend l y 2 (noticeFlit origin cause)) a).edgeAt = b.edgeAt ∧ (ys.foldl (fun (s : State) y => s.linkSend l y 2 (noticeFlit origin cause)) a).pending = b.pending ∧ (ys.foldl (fun (s : State) y => s.linkSend l y 2 (noticeFlit origin cause)) a).regs = b.regs ∧ (ys.foldl (fun (s : State) y => s.linkSend l y 2 (noticeFlit origin cause)) a).snaps = b.snaps ∧ (ys.foldl (fun (s : State) y => s.linkSend l y 2 (noticeFlit origin cause)) a).mem = b.mem ∧ (ys.foldl (fun (s : State) y => s.linkSend l y 2 (noticeFlit origin cause)) a).ccr = b.ccr ∧ (ys.foldl (fun (s : State) y => s.linkSend l y 2 (noticeFlit origin cause)) a).mirror0 = b.mirror0 ∧ (ys.foldl (fun (s : State) y => s.linkSend l y 2 (noticeFlit origin cause)) a).mirror1 = b.mirror1 ∧ (ys.foldl (fun (s : State) y => s.linkSend l y 2 (noticeFlit origin cause)) a).run = b.run ∧ (ys.foldl (fun (s : State) y => s.linkSend l y 2 (noticeFlit origin cause)) a).job = b.job ∧ (ys.foldl (fun (s : State) y => s.linkSend l y 2 (noticeFlit origin cause)) a).ctxs = b.ctxs ∧ (ys.foldl (fun (s : State) y => s.linkSend l y 2 (noticeFlit origin cause)) a).tiles = b.tiles ∧ (ys.foldl (fun (s : State) y => s.linkSend l y 2 (noticeFlit origin cause)) a).attend = b.attend ∧ (ys.foldl (fun (s : State) y => s.linkSend l y 2 (noticeFlit origin cause)) a).fifos = b.fifos ∧ (ys.foldl (fun (s : State) y => s.linkSend l y 2 (noticeFlit origin cause)) a).rings = b.rings ∧ (ys.foldl (fun (s : State) y => s.linkSend l y 2 (noticeFlit origin cause)) a).cap = b.cap ∧ (ys.foldl (fun (s : State) y => s.linkSend l y 2 (noticeFlit origin cause)) a).hub = b.hub ∧ (ys.foldl (fun (s : State) y => s.linkSend l y 2 (noticeFlit origin cause)) a).solver = b.solver ∧ (ys.foldl (fun (s : State) y => s.linkSend l y 2 (noticeFlit origin cause)) a).host = b.host ∧ (ys.foldl (fun (s : State) y => s.linkSend l y 2 (noticeFlit origin cause)) a).slow = b.slow ∧ (ys.foldl (fun (s : State) y => s.linkSend l y 2 (noticeFlit origin cause)) a).power = b.power ∧ (ys.foldl (fun (s : State) y => s.linkSend l y 2 (noticeFlit origin cause)) a).bench = b.bench ∧ (ys.foldl (fun (s : State) y => s.linkSend l y 2 (noticeFlit origin cause)) a).router = b.router ∧ (ys.foldl (fun (s : State) y => s.linkSend l y 2 (noticeFlit origin cause)) a).fresh = b.fresh := by
    intro ys
    induction ys with
    | nil => intro a b l h; exact h
    | cons y r ih => intro a b l h; exact ih (a.linkSend l y 2 (noticeFlit origin cause)) b l (by simpa using h)
  have hout : ∀ (ls : List Nat) (a b : State), a.now = b.now ∧ a.edgeAt = b.edgeAt ∧ a.pending = b.pending ∧ a.regs = b.regs ∧ a.snaps = b.snaps ∧ a.mem = b.mem ∧ a.ccr = b.ccr ∧ a.mirror0 = b.mirror0 ∧ a.mirror1 = b.mirror1 ∧ a.run = b.run ∧ a.job = b.job ∧ a.ctxs = b.ctxs ∧ a.tiles = b.tiles ∧ a.attend = b.attend ∧ a.fifos = b.fifos ∧ a.rings = b.rings ∧ a.cap = b.cap ∧ a.hub = b.hub ∧ a.solver = b.solver ∧ a.host = b.host ∧ a.slow = b.slow ∧ a.power = b.power ∧ a.bench = b.bench ∧ a.router = b.router ∧ a.fresh = b.fresh →
      (ls.foldl (fun (t : State) l => (t.controlCycles l c).foldl (fun (t : State) y => t.linkSend l y 2 (noticeFlit origin cause)) t) a).now = b.now ∧ (ls.foldl (fun (t : State) l => (t.controlCycles l c).foldl (fun (t : State) y => t.linkSend l y 2 (noticeFlit origin cause)) t) a).edgeAt = b.edgeAt ∧ (ls.foldl (fun (t : State) l => (t.controlCycles l c).foldl (fun (t : State) y => t.linkSend l y 2 (noticeFlit origin cause)) t) a).pending = b.pending ∧ (ls.foldl (fun (t : State) l => (t.controlCycles l c).foldl (fun (t : State) y => t.linkSend l y 2 (noticeFlit origin cause)) t) a).regs = b.regs ∧ (ls.foldl (fun (t : State) l => (t.controlCycles l c).foldl (fun (t : State) y => t.linkSend l y 2 (noticeFlit origin cause)) t) a).snaps = b.snaps ∧ (ls.foldl (fun (t : State) l => (t.controlCycles l c).foldl (fun (t : State) y => t.linkSend l y 2 (noticeFlit origin cause)) t) a).mem = b.mem ∧ (ls.foldl (fun (t : State) l => (t.controlCycles l c).foldl (fun (t : State) y => t.linkSend l y 2 (noticeFlit origin cause)) t) a).ccr = b.ccr ∧ (ls.foldl (fun (t : State) l => (t.controlCycles l c).foldl (fun (t : State) y => t.linkSend l y 2 (noticeFlit origin cause)) t) a).mirror0 = b.mirror0 ∧ (ls.foldl (fun (t : State) l => (t.controlCycles l c).foldl (fun (t : State) y => t.linkSend l y 2 (noticeFlit origin cause)) t) a).mirror1 = b.mirror1 ∧ (ls.foldl (fun (t : State) l => (t.controlCycles l c).foldl (fun (t : State) y => t.linkSend l y 2 (noticeFlit origin cause)) t) a).run = b.run ∧ (ls.foldl (fun (t : State) l => (t.controlCycles l c).foldl (fun (t : State) y => t.linkSend l y 2 (noticeFlit origin cause)) t) a).job = b.job ∧ (ls.foldl (fun (t : State) l => (t.controlCycles l c).foldl (fun (t : State) y => t.linkSend l y 2 (noticeFlit origin cause)) t) a).ctxs = b.ctxs ∧ (ls.foldl (fun (t : State) l => (t.controlCycles l c).foldl (fun (t : State) y => t.linkSend l y 2 (noticeFlit origin cause)) t) a).tiles = b.tiles ∧ (ls.foldl (fun (t : State) l => (t.controlCycles l c).foldl (fun (t : State) y => t.linkSend l y 2 (noticeFlit origin cause)) t) a).attend = b.attend ∧ (ls.foldl (fun (t : State) l => (t.controlCycles l c).foldl (fun (t : State) y => t.linkSend l y 2 (noticeFlit origin cause)) t) a).fifos = b.fifos ∧ (ls.foldl (fun (t : State) l => (t.controlCycles l c).foldl (fun (t : State) y => t.linkSend l y 2 (noticeFlit origin cause)) t) a).rings = b.rings ∧ (ls.foldl (fun (t : State) l => (t.controlCycles l c).foldl (fun (t : State) y => t.linkSend l y 2 (noticeFlit origin cause)) t) a).cap = b.cap ∧ (ls.foldl (fun (t : State) l => (t.controlCycles l c).foldl (fun (t : State) y => t.linkSend l y 2 (noticeFlit origin cause)) t) a).hub = b.hub ∧ (ls.foldl (fun (t : State) l => (t.controlCycles l c).foldl (fun (t : State) y => t.linkSend l y 2 (noticeFlit origin cause)) t) a).solver = b.solver ∧ (ls.foldl (fun (t : State) l => (t.controlCycles l c).foldl (fun (t : State) y => t.linkSend l y 2 (noticeFlit origin cause)) t) a).host = b.host ∧ (ls.foldl (fun (t : State) l => (t.controlCycles l c).foldl (fun (t : State) y => t.linkSend l y 2 (noticeFlit origin cause)) t) a).slow = b.slow ∧ (ls.foldl (fun (t : State) l => (t.controlCycles l c).foldl (fun (t : State) y => t.linkSend l y 2 (noticeFlit origin cause)) t) a).power = b.power ∧ (ls.foldl (fun (t : State) l => (t.controlCycles l c).foldl (fun (t : State) y => t.linkSend l y 2 (noticeFlit origin cause)) t) a).bench = b.bench ∧ (ls.foldl (fun (t : State) l => (t.controlCycles l c).foldl (fun (t : State) y => t.linkSend l y 2 (noticeFlit origin cause)) t) a).router = b.router ∧ (ls.foldl (fun (t : State) l => (t.controlCycles l c).foldl (fun (t : State) y => t.linkSend l y 2 (noticeFlit origin cause)) t) a).fresh = b.fresh := by
    intro ls
    induction ls with
    | nil => intro a b h; exact h
    | cons l r ih => intro a b h; exact ih _ b (hin _ a b l h)
  exact hout s.treeLinks s s (by simp)

@[simp] theorem evqKeep_frame (s t : State) (fn : Nat) :
    (State.evqKeep s t fn).now = t.now ∧ (State.evqKeep s t fn).edgeAt = t.edgeAt ∧
    (State.evqKeep s t fn).pending = t.pending ∧ (State.evqKeep s t fn).snaps = t.snaps ∧
    (State.evqKeep s t fn).mem = t.mem ∧ (State.evqKeep s t fn).ccr = t.ccr ∧
    (State.evqKeep s t fn).mirror0 = t.mirror0 ∧ (State.evqKeep s t fn).mirror1 = t.mirror1 ∧
    (State.evqKeep s t fn).run = t.run ∧ (State.evqKeep s t fn).job = t.job ∧ (State.evqKeep s t fn).ctxs = t.ctxs ∧
    (State.evqKeep s t fn).tiles = t.tiles ∧ (State.evqKeep s t fn).attend = t.attend ∧
    (State.evqKeep s t fn).fifos = t.fifos ∧ (State.evqKeep s t fn).rings = t.rings ∧
    (State.evqKeep s t fn).cap = t.cap ∧ (State.evqKeep s t fn).hub = t.hub ∧
    (State.evqKeep s t fn).links = t.links ∧ (State.evqKeep s t fn).solver = t.solver ∧
    (State.evqKeep s t fn).host = t.host ∧ (State.evqKeep s t fn).slow = t.slow ∧
    (State.evqKeep s t fn).power = t.power ∧ (State.evqKeep s t fn).bench = t.bench ∧
    (State.evqKeep s t fn).router = t.router ∧ (State.evqKeep s t fn).outbox = t.outbox ∧
    (State.evqKeep s t fn).fresh = t.fresh := by
  unfold State.evqKeep
  first
    | ((repeat' apply And.intro) <;> with_reducible_and_instances rfl)
    | (simp; done)
    | ((try dsimp only); (repeat' split) <;> simp; done)

@[simp] theorem restoreSts_frame (s : State) (kind cleared tiles crackers : Nat) (hbm ctxs retest : Bool) :
    (State.restoreSts s kind cleared tiles crackers hbm ctxs retest).now = s.now ∧
    (State.restoreSts s kind cleared tiles crackers hbm ctxs retest).edgeAt = s.edgeAt ∧
    (State.restoreSts s kind cleared tiles crackers hbm ctxs retest).pending = s.pending ∧
    (State.restoreSts s kind cleared tiles crackers hbm ctxs retest).snaps = s.snaps ∧
    (State.restoreSts s kind cleared tiles crackers hbm ctxs retest).mem = s.mem ∧
    (State.restoreSts s kind cleared tiles crackers hbm ctxs retest).ccr = s.ccr ∧
    (State.restoreSts s kind cleared tiles crackers hbm ctxs retest).mirror0 = s.mirror0 ∧
    (State.restoreSts s kind cleared tiles crackers hbm ctxs retest).mirror1 = s.mirror1 ∧
    (State.restoreSts s kind cleared tiles crackers hbm ctxs retest).run = s.run ∧
    (State.restoreSts s kind cleared tiles crackers hbm ctxs retest).job = s.job ∧
    (State.restoreSts s kind cleared tiles crackers hbm ctxs retest).ctxs = s.ctxs ∧
    (State.restoreSts s kind cleared tiles crackers hbm ctxs retest).tiles = s.tiles ∧
    (State.restoreSts s kind cleared tiles crackers hbm ctxs retest).attend = s.attend ∧
    (State.restoreSts s kind cleared tiles crackers hbm ctxs retest).fifos = s.fifos ∧
    (State.restoreSts s kind cleared tiles crackers hbm ctxs retest).rings = s.rings ∧
    (State.restoreSts s kind cleared tiles crackers hbm ctxs retest).cap = s.cap ∧
    (State.restoreSts s kind cleared tiles crackers hbm ctxs retest).hub = s.hub ∧
    (State.restoreSts s kind cleared tiles crackers hbm ctxs retest).links = s.links ∧
    (State.restoreSts s kind cleared tiles crackers hbm ctxs retest).solver = s.solver ∧
    (State.restoreSts s kind cleared tiles crackers hbm ctxs retest).host = s.host ∧
    (State.restoreSts s kind cleared tiles crackers hbm ctxs retest).slow = s.slow ∧
    (State.restoreSts s kind cleared tiles crackers hbm ctxs retest).power = s.power ∧
    (State.restoreSts s kind cleared tiles crackers hbm ctxs retest).bench = s.bench ∧
    (State.restoreSts s kind cleared tiles crackers hbm ctxs retest).router = s.router ∧
    (State.restoreSts s kind cleared tiles crackers hbm ctxs retest).outbox = s.outbox ∧
    (State.restoreSts s kind cleared tiles crackers hbm ctxs retest).fresh = s.fresh := by
  unfold State.restoreSts
  first
    | ((repeat' apply And.intro) <;> with_reducible_and_instances rfl)
    | (simp; done)
    | ((try dsimp only); (repeat' split) <;> simp; done)

@[simp] theorem commandDone_frame (s : State) (ctx tag opcode status detail : Nat) :
    (State.commandDone s ctx tag opcode status detail).now = s.now ∧
    (State.commandDone s ctx tag opcode status detail).edgeAt = s.edgeAt ∧
    (State.commandDone s ctx tag opcode status detail).pending = s.pending ∧
    (State.commandDone s ctx tag opcode status detail).snaps = s.snaps ∧
    (State.commandDone s ctx tag opcode status detail).mem = s.mem ∧
    (State.commandDone s ctx tag opcode status detail).ccr = s.ccr ∧
    (State.commandDone s ctx tag opcode status detail).mirror0 = s.mirror0 ∧
    (State.commandDone s ctx tag opcode status detail).mirror1 = s.mirror1 ∧
    (State.commandDone s ctx tag opcode status detail).run = s.run ∧
    (State.commandDone s ctx tag opcode status detail).job = s.job ∧
    (State.commandDone s ctx tag opcode status detail).ctxs = s.ctxs ∧
    (State.commandDone s ctx tag opcode status detail).tiles = s.tiles ∧
    (State.commandDone s ctx tag opcode status detail).attend = s.attend ∧
    (State.commandDone s ctx tag opcode status detail).rings = s.rings ∧
    (State.commandDone s ctx tag opcode status detail).cap = s.cap ∧
    (State.commandDone s ctx tag opcode status detail).hub = s.hub ∧
    (State.commandDone s ctx tag opcode status detail).links = s.links ∧
    (State.commandDone s ctx tag opcode status detail).solver = s.solver ∧
    (State.commandDone s ctx tag opcode status detail).host = s.host ∧
    (State.commandDone s ctx tag opcode status detail).slow = s.slow ∧
    (State.commandDone s ctx tag opcode status detail).power = s.power ∧
    (State.commandDone s ctx tag opcode status detail).bench = s.bench ∧
    (State.commandDone s ctx tag opcode status detail).router = s.router ∧
    (State.commandDone s ctx tag opcode status detail).fresh = s.fresh := by
  unfold State.commandDone
  first
    | ((repeat' apply And.intro) <;> with_reducible_and_instances rfl)
    | (simp; done)
    | ((try dsimp only); (repeat' split) <;> simp; done)

@[simp] theorem exportEvent_frame (s : State) (ctx result kind written4k tag : Nat) (c : Ccr) :
    (State.exportEvent s ctx result kind written4k tag c).now = s.now ∧
    (State.exportEvent s ctx result kind written4k tag c).edgeAt = s.edgeAt ∧
    (State.exportEvent s ctx result kind written4k tag c).pending = s.pending ∧
    (State.exportEvent s ctx result kind written4k tag c).snaps = s.snaps ∧
    (State.exportEvent s ctx result kind written4k tag c).mem = s.mem ∧
    (State.exportEvent s ctx result kind written4k tag c).ccr = s.ccr ∧
    (State.exportEvent s ctx result kind written4k tag c).mirror0 = s.mirror0 ∧
    (State.exportEvent s ctx result kind written4k tag c).mirror1 = s.mirror1 ∧
    (State.exportEvent s ctx result kind written4k tag c).run = s.run ∧
    (State.exportEvent s ctx result kind written4k tag c).job = s.job ∧
    (State.exportEvent s ctx result kind written4k tag c).ctxs = s.ctxs ∧
    (State.exportEvent s ctx result kind written4k tag c).tiles = s.tiles ∧
    (State.exportEvent s ctx result kind written4k tag c).attend = s.attend ∧
    (State.exportEvent s ctx result kind written4k tag c).rings = s.rings ∧
    (State.exportEvent s ctx result kind written4k tag c).cap = s.cap ∧
    (State.exportEvent s ctx result kind written4k tag c).hub = s.hub ∧
    (State.exportEvent s ctx result kind written4k tag c).links = s.links ∧
    (State.exportEvent s ctx result kind written4k tag c).solver = s.solver ∧
    (State.exportEvent s ctx result kind written4k tag c).host = s.host ∧
    (State.exportEvent s ctx result kind written4k tag c).slow = s.slow ∧
    (State.exportEvent s ctx result kind written4k tag c).power = s.power ∧
    (State.exportEvent s ctx result kind written4k tag c).bench = s.bench ∧
    (State.exportEvent s ctx result kind written4k tag c).router = s.router ∧
    (State.exportEvent s ctx result kind written4k tag c).fresh = s.fresh := by
  unfold State.exportEvent
  first
    | ((repeat' apply And.intro) <;> with_reducible_and_instances rfl)
    | (simp; done)
    | ((try dsimp only); (repeat' split) <;> simp; done)

@[simp] theorem abortEvent_frame (s : State) (origin cause : Nat) :
    (State.abortEvent s origin cause).now = s.now ∧ (State.abortEvent s origin cause).edgeAt = s.edgeAt ∧
    (State.abortEvent s origin cause).pending = s.pending ∧ (State.abortEvent s origin cause).snaps = s.snaps ∧
    (State.abortEvent s origin cause).mem = s.mem ∧ (State.abortEvent s origin cause).ccr = s.ccr ∧
    (State.abortEvent s origin cause).mirror0 = s.mirror0 ∧ (State.abortEvent s origin cause).mirror1 = s.mirror1 ∧
    (State.abortEvent s origin cause).run = s.run ∧ (State.abortEvent s origin cause).job = s.job ∧
    (State.abortEvent s origin cause).ctxs = s.ctxs ∧ (State.abortEvent s origin cause).tiles = s.tiles ∧
    (State.abortEvent s origin cause).attend = s.attend ∧ (State.abortEvent s origin cause).rings = s.rings ∧
    (State.abortEvent s origin cause).cap = s.cap ∧ (State.abortEvent s origin cause).hub = s.hub ∧
    (State.abortEvent s origin cause).links = s.links ∧ (State.abortEvent s origin cause).solver = s.solver ∧
    (State.abortEvent s origin cause).host = s.host ∧ (State.abortEvent s origin cause).slow = s.slow ∧
    (State.abortEvent s origin cause).power = s.power ∧ (State.abortEvent s origin cause).bench = s.bench ∧
    (State.abortEvent s origin cause).router = s.router ∧ (State.abortEvent s origin cause).fresh = s.fresh := by
  unfold State.abortEvent
  first
    | ((repeat' apply And.intro) <;> with_reducible_and_instances rfl)
    | (simp; done)
    | ((try dsimp only); (repeat' split) <;> simp; done)

@[simp] theorem abandonHarvest_frame (s : State) (stayDue : Bool) :
    (State.abandonHarvest s stayDue).now = s.now ∧ (State.abandonHarvest s stayDue).edgeAt = s.edgeAt ∧
    (State.abandonHarvest s stayDue).pending = s.pending ∧ (State.abandonHarvest s stayDue).snaps = s.snaps ∧
    (State.abandonHarvest s stayDue).mem = s.mem ∧ (State.abandonHarvest s stayDue).ccr = s.ccr ∧
    (State.abandonHarvest s stayDue).mirror0 = s.mirror0 ∧ (State.abandonHarvest s stayDue).mirror1 = s.mirror1 ∧
    (State.abandonHarvest s stayDue).run = s.run ∧ (State.abandonHarvest s stayDue).job = s.job ∧
    (State.abandonHarvest s stayDue).ctxs = s.ctxs ∧ (State.abandonHarvest s stayDue).tiles = s.tiles ∧
    (State.abandonHarvest s stayDue).attend = s.attend ∧ (State.abandonHarvest s stayDue).fifos = s.fifos ∧
    (State.abandonHarvest s stayDue).rings = s.rings ∧ (State.abandonHarvest s stayDue).cap = s.cap ∧
    (State.abandonHarvest s stayDue).hub = s.hub ∧ (State.abandonHarvest s stayDue).links = s.links ∧
    (State.abandonHarvest s stayDue).solver = s.solver ∧ (State.abandonHarvest s stayDue).slow = s.slow ∧
    (State.abandonHarvest s stayDue).power = s.power ∧ (State.abandonHarvest s stayDue).bench = s.bench ∧
    (State.abandonHarvest s stayDue).router = s.router ∧ (State.abandonHarvest s stayDue).fresh = s.fresh := by
  unfold State.abandonHarvest
  first
    | ((repeat' apply And.intro) <;> with_reducible_and_instances rfl)
    | (simp; done)
    | ((try dsimp only); (repeat' split) <;> simp; done)

@[simp] theorem beginAbort_frame (s : State) (cause : Nat) :
    (State.beginAbort s cause).now = s.now ∧ (State.beginAbort s cause).edgeAt = s.edgeAt ∧
    (State.beginAbort s cause).pending = s.pending ∧ (State.beginAbort s cause).snaps = s.snaps ∧
    (State.beginAbort s cause).mem = s.mem ∧ (State.beginAbort s cause).ccr = s.ccr ∧
    (State.beginAbort s cause).mirror0 = s.mirror0 ∧ (State.beginAbort s cause).mirror1 = s.mirror1 ∧
    (State.beginAbort s cause).run = s.run ∧ (State.beginAbort s cause).ctxs = s.ctxs ∧
    (State.beginAbort s cause).tiles = s.tiles ∧ (State.beginAbort s cause).attend = s.attend ∧
    (State.beginAbort s cause).fifos = s.fifos ∧ (State.beginAbort s cause).rings = s.rings ∧
    (State.beginAbort s cause).cap = s.cap ∧ (State.beginAbort s cause).hub = s.hub ∧
    (State.beginAbort s cause).solver = s.solver ∧ (State.beginAbort s cause).host = s.host ∧
    (State.beginAbort s cause).slow = s.slow ∧ (State.beginAbort s cause).power = s.power ∧
    (State.beginAbort s cause).bench = s.bench ∧ (State.beginAbort s cause).router = s.router ∧
    (State.beginAbort s cause).fresh = s.fresh := by
  unfold State.beginAbort
  first
    | ((repeat' apply And.intro) <;> with_reducible_and_instances rfl)
    | (simp; done)
    | ((try dsimp only); (repeat' split) <;> simp; done)

@[simp] theorem noticeOut_frame (s : State) :
    (State.noticeOut s).now = s.now ∧ (State.noticeOut s).edgeAt = s.edgeAt ∧
    (State.noticeOut s).pending = s.pending ∧ (State.noticeOut s).regs = s.regs ∧
    (State.noticeOut s).snaps = s.snaps ∧ (State.noticeOut s).mem = s.mem ∧ (State.noticeOut s).ccr = s.ccr ∧
    (State.noticeOut s).mirror0 = s.mirror0 ∧ (State.noticeOut s).mirror1 = s.mirror1 ∧
    (State.noticeOut s).run = s.run ∧ (State.noticeOut s).job = s.job ∧ (State.noticeOut s).ctxs = s.ctxs ∧
    (State.noticeOut s).tiles = s.tiles ∧ (State.noticeOut s).attend = s.attend ∧
    (State.noticeOut s).fifos = s.fifos ∧ (State.noticeOut s).rings = s.rings ∧ (State.noticeOut s).cap = s.cap ∧
    (State.noticeOut s).hub = s.hub ∧ (State.noticeOut s).solver = s.solver ∧ (State.noticeOut s).host = s.host ∧
    (State.noticeOut s).slow = s.slow ∧ (State.noticeOut s).power = s.power ∧ (State.noticeOut s).bench = s.bench ∧
    (State.noticeOut s).router = s.router ∧ (State.noticeOut s).fresh = s.fresh := by
  unfold State.noticeOut
  first
    | ((repeat' apply And.intro) <;> with_reducible_and_instances rfl)
    | (simp; done)
    | ((try dsimp only); (repeat' split) <;> simp; done)

@[simp] theorem reportRec_frame (s : State) (r : CritRec) (medium : Nat) :
    (State.reportRec s r medium).now = s.now ∧ (State.reportRec s r medium).edgeAt = s.edgeAt ∧
    (State.reportRec s r medium).pending = s.pending ∧ (State.reportRec s r medium).snaps = s.snaps ∧
    (State.reportRec s r medium).mem = s.mem ∧ (State.reportRec s r medium).ccr = s.ccr ∧
    (State.reportRec s r medium).mirror0 = s.mirror0 ∧ (State.reportRec s r medium).mirror1 = s.mirror1 ∧
    (State.reportRec s r medium).run = s.run ∧ (State.reportRec s r medium).job = s.job ∧
    (State.reportRec s r medium).ctxs = s.ctxs ∧ (State.reportRec s r medium).tiles = s.tiles ∧
    (State.reportRec s r medium).attend = s.attend ∧ (State.reportRec s r medium).fifos = s.fifos ∧
    (State.reportRec s r medium).rings = s.rings ∧ (State.reportRec s r medium).cap = s.cap ∧
    (State.reportRec s r medium).hub = s.hub ∧ (State.reportRec s r medium).links = s.links ∧
    (State.reportRec s r medium).solver = s.solver ∧ (State.reportRec s r medium).host = s.host ∧
    (State.reportRec s r medium).slow = s.slow ∧ (State.reportRec s r medium).power = s.power ∧
    (State.reportRec s r medium).bench = s.bench ∧ (State.reportRec s r medium).router = s.router ∧
    (State.reportRec s r medium).outbox = s.outbox ∧ (State.reportRec s r medium).fresh = s.fresh := by
  unfold State.reportRec
  first
    | ((repeat' apply And.intro) <;> with_reducible_and_instances rfl)
    | (simp; done)
    | ((try dsimp only); (repeat' split) <;> simp; done)

@[simp] theorem recToFlash_frame (s : State) (kind cause : Nat) :
    (State.recToFlash s kind cause).now = s.now ∧ (State.recToFlash s kind cause).edgeAt = s.edgeAt ∧
    (State.recToFlash s kind cause).pending = s.pending ∧ (State.recToFlash s kind cause).snaps = s.snaps ∧
    (State.recToFlash s kind cause).mem = s.mem ∧ (State.recToFlash s kind cause).ccr = s.ccr ∧
    (State.recToFlash s kind cause).mirror0 = s.mirror0 ∧ (State.recToFlash s kind cause).mirror1 = s.mirror1 ∧
    (State.recToFlash s kind cause).run = s.run ∧ (State.recToFlash s kind cause).job = s.job ∧
    (State.recToFlash s kind cause).ctxs = s.ctxs ∧ (State.recToFlash s kind cause).tiles = s.tiles ∧
    (State.recToFlash s kind cause).attend = s.attend ∧ (State.recToFlash s kind cause).fifos = s.fifos ∧
    (State.recToFlash s kind cause).rings = s.rings ∧ (State.recToFlash s kind cause).cap = s.cap ∧
    (State.recToFlash s kind cause).hub = s.hub ∧ (State.recToFlash s kind cause).links = s.links ∧
    (State.recToFlash s kind cause).solver = s.solver ∧ (State.recToFlash s kind cause).host = s.host ∧
    (State.recToFlash s kind cause).slow = s.slow ∧ (State.recToFlash s kind cause).bench = s.bench ∧
    (State.recToFlash s kind cause).router = s.router ∧ (State.recToFlash s kind cause).fresh = s.fresh := by
  unfold State.recToFlash
  first
    | ((repeat' apply And.intro) <;> with_reducible_and_instances rfl)
    | (simp; done)
    | ((try dsimp only); (repeat' split) <;> simp; done)

@[simp] theorem recToCart_frame (s : State) (kind cause : Nat) :
    (State.recToCart s kind cause).now = s.now ∧ (State.recToCart s kind cause).edgeAt = s.edgeAt ∧
    (State.recToCart s kind cause).pending = s.pending ∧ (State.recToCart s kind cause).snaps = s.snaps ∧
    (State.recToCart s kind cause).mem = s.mem ∧ (State.recToCart s kind cause).ccr = s.ccr ∧
    (State.recToCart s kind cause).mirror0 = s.mirror0 ∧ (State.recToCart s kind cause).mirror1 = s.mirror1 ∧
    (State.recToCart s kind cause).run = s.run ∧ (State.recToCart s kind cause).job = s.job ∧
    (State.recToCart s kind cause).ctxs = s.ctxs ∧ (State.recToCart s kind cause).tiles = s.tiles ∧
    (State.recToCart s kind cause).attend = s.attend ∧ (State.recToCart s kind cause).fifos = s.fifos ∧
    (State.recToCart s kind cause).rings = s.rings ∧ (State.recToCart s kind cause).cap = s.cap ∧
    (State.recToCart s kind cause).hub = s.hub ∧ (State.recToCart s kind cause).links = s.links ∧
    (State.recToCart s kind cause).solver = s.solver ∧ (State.recToCart s kind cause).host = s.host ∧
    (State.recToCart s kind cause).slow = s.slow ∧ (State.recToCart s kind cause).bench = s.bench ∧
    (State.recToCart s kind cause).router = s.router ∧ (State.recToCart s kind cause).outbox = s.outbox ∧
    (State.recToCart s kind cause).fresh = s.fresh := by
  unfold State.recToCart
  first
    | ((repeat' apply And.intro) <;> with_reducible_and_instances rfl)
    | (simp; done)
    | ((try dsimp only); (repeat' split) <;> simp; done)

@[simp] theorem writeRec_frame (s : State) (kind cause : Nat) (cartFails flashFails : Bool) :
    (State.writeRec s kind cause cartFails flashFails).1.now = s.now ∧
    (State.writeRec s kind cause cartFails flashFails).1.edgeAt = s.edgeAt ∧
    (State.writeRec s kind cause cartFails flashFails).1.pending = s.pending ∧
    (State.writeRec s kind cause cartFails flashFails).1.snaps = s.snaps ∧
    (State.writeRec s kind cause cartFails flashFails).1.mem = s.mem ∧
    (State.writeRec s kind cause cartFails flashFails).1.ccr = s.ccr ∧
    (State.writeRec s kind cause cartFails flashFails).1.mirror0 = s.mirror0 ∧
    (State.writeRec s kind cause cartFails flashFails).1.mirror1 = s.mirror1 ∧
    (State.writeRec s kind cause cartFails flashFails).1.run = s.run ∧
    (State.writeRec s kind cause cartFails flashFails).1.job = s.job ∧
    (State.writeRec s kind cause cartFails flashFails).1.ctxs = s.ctxs ∧
    (State.writeRec s kind cause cartFails flashFails).1.tiles = s.tiles ∧
    (State.writeRec s kind cause cartFails flashFails).1.attend = s.attend ∧
    (State.writeRec s kind cause cartFails flashFails).1.fifos = s.fifos ∧
    (State.writeRec s kind cause cartFails flashFails).1.rings = s.rings ∧
    (State.writeRec s kind cause cartFails flashFails).1.cap = s.cap ∧
    (State.writeRec s kind cause cartFails flashFails).1.hub = s.hub ∧
    (State.writeRec s kind cause cartFails flashFails).1.links = s.links ∧
    (State.writeRec s kind cause cartFails flashFails).1.solver = s.solver ∧
    (State.writeRec s kind cause cartFails flashFails).1.host = s.host ∧
    (State.writeRec s kind cause cartFails flashFails).1.slow = s.slow ∧
    (State.writeRec s kind cause cartFails flashFails).1.bench = s.bench ∧
    (State.writeRec s kind cause cartFails flashFails).1.router = s.router ∧
    (State.writeRec s kind cause cartFails flashFails).1.fresh = s.fresh := by
  unfold State.writeRec
  first
    | ((repeat' apply And.intro) <;> with_reducible_and_instances rfl)
    | (simp; done)
    | ((try dsimp only); (repeat' split) <;> simp; done)

@[simp] theorem routineRec_frame (s : State) (kind : Nat) (cartFails flashFails : Bool) :
    (State.routineRec s kind cartFails flashFails).now = s.now ∧
    (State.routineRec s kind cartFails flashFails).edgeAt = s.edgeAt ∧
    (State.routineRec s kind cartFails flashFails).pending = s.pending ∧
    (State.routineRec s kind cartFails flashFails).snaps = s.snaps ∧
    (State.routineRec s kind cartFails flashFails).mem = s.mem ∧
    (State.routineRec s kind cartFails flashFails).ccr = s.ccr ∧
    (State.routineRec s kind cartFails flashFails).mirror0 = s.mirror0 ∧
    (State.routineRec s kind cartFails flashFails).mirror1 = s.mirror1 ∧
    (State.routineRec s kind cartFails flashFails).job = s.job ∧
    (State.routineRec s kind cartFails flashFails).ctxs = s.ctxs ∧
    (State.routineRec s kind cartFails flashFails).tiles = s.tiles ∧
    (State.routineRec s kind cartFails flashFails).rings = s.rings ∧
    (State.routineRec s kind cartFails flashFails).hub = s.hub ∧
    (State.routineRec s kind cartFails flashFails).links = s.links ∧
    (State.routineRec s kind cartFails flashFails).solver = s.solver ∧
    (State.routineRec s kind cartFails flashFails).host = s.host ∧
    (State.routineRec s kind cartFails flashFails).slow = s.slow ∧
    (State.routineRec s kind cartFails flashFails).bench = s.bench ∧
    (State.routineRec s kind cartFails flashFails).router = s.router ∧
    (State.routineRec s kind cartFails flashFails).fresh = s.fresh := by
  unfold State.routineRec
  first
    | ((repeat' apply And.intro) <;> with_reducible_and_instances rfl)
    | (simp; done)
    | ((try dsimp only); (repeat' split) <;> simp; done)

@[simp] theorem stopAll_frame (s : State) :
    (State.stopAll s).now = s.now ∧ (State.stopAll s).edgeAt = s.edgeAt ∧ (State.stopAll s).pending = s.pending ∧
    (State.stopAll s).regs = s.regs ∧ (State.stopAll s).snaps = s.snaps ∧ (State.stopAll s).mem = s.mem ∧
    (State.stopAll s).ccr = s.ccr ∧ (State.stopAll s).mirror0 = s.mirror0 ∧ (State.stopAll s).mirror1 = s.mirror1 ∧
    (State.stopAll s).job = s.job ∧ (State.stopAll s).ctxs = s.ctxs ∧ (State.stopAll s).attend = s.attend ∧
    (State.stopAll s).fifos = s.fifos ∧ (State.stopAll s).rings = s.rings ∧ (State.stopAll s).cap = s.cap ∧
    (State.stopAll s).host = s.host ∧ (State.stopAll s).slow = s.slow ∧ (State.stopAll s).power = s.power ∧
    (State.stopAll s).bench = s.bench ∧ (State.stopAll s).router = s.router ∧ (State.stopAll s).outbox = s.outbox ∧
    (State.stopAll s).fresh = s.fresh := by
  unfold State.stopAll
  first
    | ((repeat' apply And.intro) <;> with_reducible_and_instances rfl)
    | (simp; done)
    | ((try dsimp only); (repeat' split) <;> simp; done)

@[simp] theorem terminal_frame (s : State) (cause window kind : Nat) (cartFails flashFails saved : Bool) :
    (State.terminal s cause window kind cartFails flashFails saved).now = s.now ∧
    (State.terminal s cause window kind cartFails flashFails saved).edgeAt = s.edgeAt ∧
    (State.terminal s cause window kind cartFails flashFails saved).pending = s.pending ∧
    (State.terminal s cause window kind cartFails flashFails saved).snaps = s.snaps ∧
    (State.terminal s cause window kind cartFails flashFails saved).ccr = s.ccr ∧
    (State.terminal s cause window kind cartFails flashFails saved).mirror0 = s.mirror0 ∧
    (State.terminal s cause window kind cartFails flashFails saved).mirror1 = s.mirror1 ∧
    (State.terminal s cause window kind cartFails flashFails saved).job = s.job ∧
    (State.terminal s cause window kind cartFails flashFails saved).ctxs = s.ctxs ∧
    (State.terminal s cause window kind cartFails flashFails saved).attend = s.attend ∧
    (State.terminal s cause window kind cartFails flashFails saved).rings = s.rings ∧
    (State.terminal s cause window kind cartFails flashFails saved).slow = s.slow ∧
    (State.terminal s cause window kind cartFails flashFails saved).bench = s.bench ∧
    (State.terminal s cause window kind cartFails flashFails saved).router = s.router ∧
    (State.terminal s cause window kind cartFails flashFails saved).fresh = s.fresh := by
  unfold State.terminal
  first
    | ((repeat' apply And.intro) <;> with_reducible_and_instances rfl)
    | (simp; done)
    | ((try dsimp only); (repeat' split) <;> simp; done)

@[simp] theorem mirror_frame (s : State) :
    (State.mirror s).now = s.now ∧ (State.mirror s).edgeAt = s.edgeAt ∧ (State.mirror s).pending = s.pending ∧
    (State.mirror s).regs = s.regs ∧ (State.mirror s).snaps = s.snaps ∧ (State.mirror s).mem = s.mem ∧
    (State.mirror s).ccr = s.ccr ∧ (State.mirror s).run = s.run ∧ (State.mirror s).job = s.job ∧
    (State.mirror s).ctxs = s.ctxs ∧ (State.mirror s).tiles = s.tiles ∧ (State.mirror s).attend = s.attend ∧
    (State.mirror s).fifos = s.fifos ∧ (State.mirror s).rings = s.rings ∧ (State.mirror s).cap = s.cap ∧
    (State.mirror s).hub = s.hub ∧ (State.mirror s).links = s.links ∧ (State.mirror s).solver = s.solver ∧
    (State.mirror s).host = s.host ∧ (State.mirror s).slow = s.slow ∧ (State.mirror s).power = s.power ∧
    (State.mirror s).bench = s.bench ∧ (State.mirror s).router = s.router ∧ (State.mirror s).outbox = s.outbox ∧
    (State.mirror s).fresh = s.fresh := by
  unfold State.mirror
  first
    | ((repeat' apply And.intro) <;> with_reducible_and_instances rfl)
    | (simp; done)
    | ((try dsimp only); (repeat' split) <;> simp; done)

@[simp] theorem lnkFirst_frame (s : State) (l cause slot kind : Nat) :
    (State.lnkFirst s l cause slot kind).now = s.now ∧ (State.lnkFirst s l cause slot kind).edgeAt = s.edgeAt ∧
    (State.lnkFirst s l cause slot kind).pending = s.pending ∧ (State.lnkFirst s l cause slot kind).snaps = s.snaps ∧
    (State.lnkFirst s l cause slot kind).mem = s.mem ∧ (State.lnkFirst s l cause slot kind).ccr = s.ccr ∧
    (State.lnkFirst s l cause slot kind).mirror0 = s.mirror0 ∧
    (State.lnkFirst s l cause slot kind).mirror1 = s.mirror1 ∧ (State.lnkFirst s l cause slot kind).run = s.run ∧
    (State.lnkFirst s l cause slot kind).job = s.job ∧ (State.lnkFirst s l cause slot kind).ctxs = s.ctxs ∧
    (State.lnkFirst s l cause slot kind).tiles = s.tiles ∧ (State.lnkFirst s l cause slot kind).attend = s.attend ∧
    (State.lnkFirst s l cause slot kind).fifos = s.fifos ∧ (State.lnkFirst s l cause slot kind).rings = s.rings ∧
    (State.lnkFirst s l cause slot kind).cap = s.cap ∧ (State.lnkFirst s l cause slot kind).hub = s.hub ∧
    (State.lnkFirst s l cause slot kind).links = s.links ∧ (State.lnkFirst s l cause slot kind).solver = s.solver ∧
    (State.lnkFirst s l cause slot kind).host = s.host ∧ (State.lnkFirst s l cause slot kind).slow = s.slow ∧
    (State.lnkFirst s l cause slot kind).power = s.power ∧ (State.lnkFirst s l cause slot kind).bench = s.bench ∧
    (State.lnkFirst s l cause slot kind).router = s.router ∧ (State.lnkFirst s l cause slot kind).outbox = s.outbox ∧
    (State.lnkFirst s l cause slot kind).fresh = s.fresh := by
  unfold State.lnkFirst
  first
    | ((repeat' apply And.intro) <;> with_reducible_and_instances rfl)
    | (simp; done)
    | ((try dsimp only); (repeat' split) <;> simp; done)

@[simp] theorem holdNotice_frame (s : State) (tick cycle : Nat) :
    (State.holdNotice s tick cycle).now = s.now ∧ (State.holdNotice s tick cycle).edgeAt = s.edgeAt ∧
    (State.holdNotice s tick cycle).pending = s.pending ∧ (State.holdNotice s tick cycle).snaps = s.snaps ∧
    (State.holdNotice s tick cycle).mem = s.mem ∧ (State.holdNotice s tick cycle).ccr = s.ccr ∧
    (State.holdNotice s tick cycle).mirror0 = s.mirror0 ∧ (State.holdNotice s tick cycle).mirror1 = s.mirror1 ∧
    (State.holdNotice s tick cycle).run = s.run ∧ (State.holdNotice s tick cycle).ctxs = s.ctxs ∧
    (State.holdNotice s tick cycle).tiles = s.tiles ∧ (State.holdNotice s tick cycle).attend = s.attend ∧
    (State.holdNotice s tick cycle).fifos = s.fifos ∧ (State.holdNotice s tick cycle).rings = s.rings ∧
    (State.holdNotice s tick cycle).cap = s.cap ∧ (State.holdNotice s tick cycle).hub = s.hub ∧
    (State.holdNotice s tick cycle).links = s.links ∧ (State.holdNotice s tick cycle).solver = s.solver ∧
    (State.holdNotice s tick cycle).host = s.host ∧ (State.holdNotice s tick cycle).slow = s.slow ∧
    (State.holdNotice s tick cycle).power = s.power ∧ (State.holdNotice s tick cycle).bench = s.bench ∧
    (State.holdNotice s tick cycle).router = s.router ∧ (State.holdNotice s tick cycle).outbox = s.outbox ∧
    (State.holdNotice s tick cycle).fresh = s.fresh := by
  unfold State.holdNotice
  first
    | ((repeat' apply And.intro) <;> with_reducible_and_instances rfl)
    | (simp; done)
    | ((try dsimp only); (repeat' split) <;> simp; done)

@[simp] theorem hubFirst_frame (s : State) (stack g cause : Nat) :
    (State.hubFirst s stack g cause).now = s.now ∧ (State.hubFirst s stack g cause).edgeAt = s.edgeAt ∧
    (State.hubFirst s stack g cause).pending = s.pending ∧ (State.hubFirst s stack g cause).snaps = s.snaps ∧
    (State.hubFirst s stack g cause).mem = s.mem ∧ (State.hubFirst s stack g cause).ccr = s.ccr ∧
    (State.hubFirst s stack g cause).mirror0 = s.mirror0 ∧ (State.hubFirst s stack g cause).mirror1 = s.mirror1 ∧
    (State.hubFirst s stack g cause).run = s.run ∧ (State.hubFirst s stack g cause).job = s.job ∧
    (State.hubFirst s stack g cause).ctxs = s.ctxs ∧ (State.hubFirst s stack g cause).tiles = s.tiles ∧
    (State.hubFirst s stack g cause).attend = s.attend ∧ (State.hubFirst s stack g cause).fifos = s.fifos ∧
    (State.hubFirst s stack g cause).rings = s.rings ∧ (State.hubFirst s stack g cause).cap = s.cap ∧
    (State.hubFirst s stack g cause).hub = s.hub ∧ (State.hubFirst s stack g cause).links = s.links ∧
    (State.hubFirst s stack g cause).solver = s.solver ∧ (State.hubFirst s stack g cause).host = s.host ∧
    (State.hubFirst s stack g cause).slow = s.slow ∧ (State.hubFirst s stack g cause).power = s.power ∧
    (State.hubFirst s stack g cause).bench = s.bench ∧ (State.hubFirst s stack g cause).router = s.router ∧
    (State.hubFirst s stack g cause).outbox = s.outbox ∧ (State.hubFirst s stack g cause).fresh = s.fresh := by
  unfold State.hubFirst
  first
    | ((repeat' apply And.intro) <;> with_reducible_and_instances rfl)
    | (simp; done)
    | ((try dsimp only); (repeat' split) <;> simp; done)

@[simp] theorem deliver_frame (s : State) (stack g c : Nat) (data : Granule) :
    (State.deliver s stack g c data).now = s.now ∧ (State.deliver s stack g c data).edgeAt = s.edgeAt ∧
    (State.deliver s stack g c data).pending = s.pending ∧ (State.deliver s stack g c data).regs = s.regs ∧
    (State.deliver s stack g c data).snaps = s.snaps ∧ (State.deliver s stack g c data).mem = s.mem ∧
    (State.deliver s stack g c data).ccr = s.ccr ∧ (State.deliver s stack g c data).mirror0 = s.mirror0 ∧
    (State.deliver s stack g c data).mirror1 = s.mirror1 ∧ (State.deliver s stack g c data).run = s.run ∧
    (State.deliver s stack g c data).job = s.job ∧ (State.deliver s stack g c data).ctxs = s.ctxs ∧
    (State.deliver s stack g c data).tiles = s.tiles ∧ (State.deliver s stack g c data).attend = s.attend ∧
    (State.deliver s stack g c data).fifos = s.fifos ∧ (State.deliver s stack g c data).rings = s.rings ∧
    (State.deliver s stack g c data).cap = s.cap ∧ (State.deliver s stack g c data).hub = s.hub ∧
    (State.deliver s stack g c data).links = s.links ∧ (State.deliver s stack g c data).solver = s.solver ∧
    (State.deliver s stack g c data).host = s.host ∧ (State.deliver s stack g c data).slow = s.slow ∧
    (State.deliver s stack g c data).power = s.power ∧ (State.deliver s stack g c data).bench = s.bench ∧
    (State.deliver s stack g c data).router = s.router ∧ (State.deliver s stack g c data).fresh = s.fresh := by
  unfold State.deliver
  first
    | ((repeat' apply And.intro) <;> with_reducible_and_instances rfl)
    | (simp; done)
    | ((try dsimp only); (repeat' split) <;> simp; done)

@[simp] theorem unqueue_frame (s : State) (stack g : Nat) :
    (State.unqueue s stack g).now = s.now ∧ (State.unqueue s stack g).edgeAt = s.edgeAt ∧
    (State.unqueue s stack g).pending = s.pending ∧ (State.unqueue s stack g).regs = s.regs ∧
    (State.unqueue s stack g).snaps = s.snaps ∧ (State.unqueue s stack g).mem = s.mem ∧
    (State.unqueue s stack g).ccr = s.ccr ∧ (State.unqueue s stack g).mirror0 = s.mirror0 ∧
    (State.unqueue s stack g).mirror1 = s.mirror1 ∧ (State.unqueue s stack g).run = s.run ∧
    (State.unqueue s stack g).job = s.job ∧ (State.unqueue s stack g).ctxs = s.ctxs ∧
    (State.unqueue s stack g).tiles = s.tiles ∧ (State.unqueue s stack g).attend = s.attend ∧
    (State.unqueue s stack g).fifos = s.fifos ∧ (State.unqueue s stack g).rings = s.rings ∧
    (State.unqueue s stack g).cap = s.cap ∧ (State.unqueue s stack g).links = s.links ∧
    (State.unqueue s stack g).solver = s.solver ∧ (State.unqueue s stack g).host = s.host ∧
    (State.unqueue s stack g).slow = s.slow ∧ (State.unqueue s stack g).power = s.power ∧
    (State.unqueue s stack g).bench = s.bench ∧ (State.unqueue s stack g).router = s.router ∧
    (State.unqueue s stack g).outbox = s.outbox ∧ (State.unqueue s stack g).fresh = s.fresh := by
  unfold State.unqueue
  first
    | ((repeat' apply And.intro) <;> with_reducible_and_instances rfl)
    | (simp; done)
    | ((try dsimp only); (repeat' split) <;> simp; done)

@[simp] theorem redFirst_frame (s : State) (stack plan part cause : Nat) :
    (State.redFirst s stack plan part cause).now = s.now ∧
    (State.redFirst s stack plan part cause).edgeAt = s.edgeAt ∧
    (State.redFirst s stack plan part cause).pending = s.pending ∧
    (State.redFirst s stack plan part cause).snaps = s.snaps ∧ (State.redFirst s stack plan part cause).mem = s.mem ∧
    (State.redFirst s stack plan part cause).ccr = s.ccr ∧
    (State.redFirst s stack plan part cause).mirror0 = s.mirror0 ∧
    (State.redFirst s stack plan part cause).mirror1 = s.mirror1 ∧
    (State.redFirst s stack plan part cause).run = s.run ∧ (State.redFirst s stack plan part cause).job = s.job ∧
    (State.redFirst s stack plan part cause).ctxs = s.ctxs ∧
    (State.redFirst s stack plan part cause).tiles = s.tiles ∧
    (State.redFirst s stack plan part cause).attend = s.attend ∧
    (State.redFirst s stack plan part cause).fifos = s.fifos ∧
    (State.redFirst s stack plan part cause).rings = s.rings ∧ (State.redFirst s stack plan part cause).cap = s.cap ∧
    (State.redFirst s stack plan part cause).hub = s.hub ∧ (State.redFirst s stack plan part cause).links = s.links ∧
    (State.redFirst s stack plan part cause).solver = s.solver ∧
    (State.redFirst s stack plan part cause).host = s.host ∧ (State.redFirst s stack plan part cause).slow = s.slow ∧
    (State.redFirst s stack plan part cause).power = s.power ∧
    (State.redFirst s stack plan part cause).bench = s.bench ∧
    (State.redFirst s stack plan part cause).router = s.router ∧
    (State.redFirst s stack plan part cause).outbox = s.outbox ∧
    (State.redFirst s stack plan part cause).fresh = s.fresh := by
  unfold State.redFirst
  first
    | ((repeat' apply And.intro) <;> with_reducible_and_instances rfl)
    | (simp; done)
    | ((try dsimp only); (repeat' split) <;> simp; done)

@[simp] theorem fenceMiss_frame (s : State) (fence dfence : Nat) (isData : Bool) (window : Nat) :
    (State.fenceMiss s fence dfence isData window).now = s.now ∧
    (State.fenceMiss s fence dfence isData window).edgeAt = s.edgeAt ∧
    (State.fenceMiss s fence dfence isData window).pending = s.pending ∧
    (State.fenceMiss s fence dfence isData window).snaps = s.snaps ∧
    (State.fenceMiss s fence dfence isData window).mem = s.mem ∧
    (State.fenceMiss s fence dfence isData window).ccr = s.ccr ∧
    (State.fenceMiss s fence dfence isData window).mirror0 = s.mirror0 ∧
    (State.fenceMiss s fence dfence isData window).mirror1 = s.mirror1 ∧
    (State.fenceMiss s fence dfence isData window).job = s.job ∧
    (State.fenceMiss s fence dfence isData window).ctxs = s.ctxs ∧
    (State.fenceMiss s fence dfence isData window).tiles = s.tiles ∧
    (State.fenceMiss s fence dfence isData window).attend = s.attend ∧
    (State.fenceMiss s fence dfence isData window).rings = s.rings ∧
    (State.fenceMiss s fence dfence isData window).hub = s.hub ∧
    (State.fenceMiss s fence dfence isData window).links = s.links ∧
    (State.fenceMiss s fence dfence isData window).solver = s.solver ∧
    (State.fenceMiss s fence dfence isData window).host = s.host ∧
    (State.fenceMiss s fence dfence isData window).slow = s.slow ∧
    (State.fenceMiss s fence dfence isData window).power = s.power ∧
    (State.fenceMiss s fence dfence isData window).bench = s.bench ∧
    (State.fenceMiss s fence dfence isData window).router = s.router ∧
    (State.fenceMiss s fence dfence isData window).fresh = s.fresh := by
  unfold State.fenceMiss
  first
    | ((repeat' apply And.intro) <;> with_reducible_and_instances rfl)
    | (simp; done)
    | ((try dsimp only); (repeat' split) <;> simp; done)

@[simp] theorem slowFirst_frame (s : State) (tensor source unit cause : Nat) :
    (State.slowFirst s tensor source unit cause).now = s.now ∧
    (State.slowFirst s tensor source unit cause).edgeAt = s.edgeAt ∧
    (State.slowFirst s tensor source unit cause).pending = s.pending ∧
    (State.slowFirst s tensor source unit cause).snaps = s.snaps ∧
    (State.slowFirst s tensor source unit cause).mem = s.mem ∧
    (State.slowFirst s tensor source unit cause).ccr = s.ccr ∧
    (State.slowFirst s tensor source unit cause).mirror0 = s.mirror0 ∧
    (State.slowFirst s tensor source unit cause).mirror1 = s.mirror1 ∧
    (State.slowFirst s tensor source unit cause).run = s.run ∧
    (State.slowFirst s tensor source unit cause).job = s.job ∧
    (State.slowFirst s tensor source unit cause).ctxs = s.ctxs ∧
    (State.slowFirst s tensor source unit cause).tiles = s.tiles ∧
    (State.slowFirst s tensor source unit cause).attend = s.attend ∧
    (State.slowFirst s tensor source unit cause).fifos = s.fifos ∧
    (State.slowFirst s tensor source unit cause).rings = s.rings ∧
    (State.slowFirst s tensor source unit cause).cap = s.cap ∧
    (State.slowFirst s tensor source unit cause).hub = s.hub ∧
    (State.slowFirst s tensor source unit cause).links = s.links ∧
    (State.slowFirst s tensor source unit cause).solver = s.solver ∧
    (State.slowFirst s tensor source unit cause).host = s.host ∧
    (State.slowFirst s tensor source unit cause).slow = s.slow ∧
    (State.slowFirst s tensor source unit cause).power = s.power ∧
    (State.slowFirst s tensor source unit cause).bench = s.bench ∧
    (State.slowFirst s tensor source unit cause).router = s.router ∧
    (State.slowFirst s tensor source unit cause).outbox = s.outbox ∧
    (State.slowFirst s tensor source unit cause).fresh = s.fresh := by
  unfold State.slowFirst
  first
    | ((repeat' apply And.intro) <;> with_reducible_and_instances rfl)
    | (simp; done)
    | ((try dsimp only); (repeat' split) <;> simp; done)

@[simp] theorem podRetire_frame (s : State) (n phys : Nat) :
    (State.podRetire s n phys).now = s.now ∧ (State.podRetire s n phys).edgeAt = s.edgeAt ∧
    (State.podRetire s n phys).pending = s.pending ∧ (State.podRetire s n phys).snaps = s.snaps ∧
    (State.podRetire s n phys).mem = s.mem ∧ (State.podRetire s n phys).ccr = s.ccr ∧
    (State.podRetire s n phys).mirror0 = s.mirror0 ∧ (State.podRetire s n phys).mirror1 = s.mirror1 ∧
    (State.podRetire s n phys).run = s.run ∧ (State.podRetire s n phys).job = s.job ∧
    (State.podRetire s n phys).ctxs = s.ctxs ∧ (State.podRetire s n phys).tiles = s.tiles ∧
    (State.podRetire s n phys).attend = s.attend ∧ (State.podRetire s n phys).fifos = s.fifos ∧
    (State.podRetire s n phys).rings = s.rings ∧ (State.podRetire s n phys).cap = s.cap ∧
    (State.podRetire s n phys).hub = s.hub ∧ (State.podRetire s n phys).links = s.links ∧
    (State.podRetire s n phys).solver = s.solver ∧ (State.podRetire s n phys).host = s.host ∧
    (State.podRetire s n phys).slow = s.slow ∧ (State.podRetire s n phys).power = s.power ∧
    (State.podRetire s n phys).bench = s.bench ∧ (State.podRetire s n phys).router = s.router ∧
    (State.podRetire s n phys).outbox = s.outbox ∧ (State.podRetire s n phys).fresh = s.fresh := by
  unfold State.podRetire
  first
    | ((repeat' apply And.intro) <;> with_reducible_and_instances rfl)
    | (simp; done)
    | ((try dsimp only); (repeat' split) <;> simp; done)

@[simp] theorem hrdResult_frame (s : State) (op r : Nat) :
    (State.hrdResult s op r).now = s.now ∧ (State.hrdResult s op r).edgeAt = s.edgeAt ∧
    (State.hrdResult s op r).pending = s.pending ∧ (State.hrdResult s op r).snaps = s.snaps ∧
    (State.hrdResult s op r).mem = s.mem ∧ (State.hrdResult s op r).ccr = s.ccr ∧
    (State.hrdResult s op r).mirror0 = s.mirror0 ∧ (State.hrdResult s op r).mirror1 = s.mirror1 ∧
    (State.hrdResult s op r).run = s.run ∧ (State.hrdResult s op r).job = s.job ∧
    (State.hrdResult s op r).ctxs = s.ctxs ∧ (State.hrdResult s op r).tiles = s.tiles ∧
    (State.hrdResult s op r).attend = s.attend ∧ (State.hrdResult s op r).fifos = s.fifos ∧
    (State.hrdResult s op r).rings = s.rings ∧ (State.hrdResult s op r).cap = s.cap ∧
    (State.hrdResult s op r).hub = s.hub ∧ (State.hrdResult s op r).links = s.links ∧
    (State.hrdResult s op r).solver = s.solver ∧ (State.hrdResult s op r).host = s.host ∧
    (State.hrdResult s op r).slow = s.slow ∧ (State.hrdResult s op r).power = s.power ∧
    (State.hrdResult s op r).bench = s.bench ∧ (State.hrdResult s op r).router = s.router ∧
    (State.hrdResult s op r).fresh = s.fresh := by
  unfold State.hrdResult
  first
    | ((repeat' apply And.intro) <;> with_reducible_and_instances rfl)
    | (simp; done)
    | ((try dsimp only); (repeat' split) <;> simp; done)

@[simp] theorem envFirst_frame (s : State) (sensor value cause : Nat) :
    (State.envFirst s sensor value cause).now = s.now ∧ (State.envFirst s sensor value cause).edgeAt = s.edgeAt ∧
    (State.envFirst s sensor value cause).pending = s.pending ∧
    (State.envFirst s sensor value cause).snaps = s.snaps ∧ (State.envFirst s sensor value cause).mem = s.mem ∧
    (State.envFirst s sensor value cause).ccr = s.ccr ∧ (State.envFirst s sensor value cause).mirror0 = s.mirror0 ∧
    (State.envFirst s sensor value cause).mirror1 = s.mirror1 ∧ (State.envFirst s sensor value cause).run = s.run ∧
    (State.envFirst s sensor value cause).job = s.job ∧ (State.envFirst s sensor value cause).ctxs = s.ctxs ∧
    (State.envFirst s sensor value cause).tiles = s.tiles ∧ (State.envFirst s sensor value cause).attend = s.attend ∧
    (State.envFirst s sensor value cause).fifos = s.fifos ∧ (State.envFirst s sensor value cause).rings = s.rings ∧
    (State.envFirst s sensor value cause).cap = s.cap ∧ (State.envFirst s sensor value cause).hub = s.hub ∧
    (State.envFirst s sensor value cause).links = s.links ∧ (State.envFirst s sensor value cause).solver = s.solver ∧
    (State.envFirst s sensor value cause).host = s.host ∧ (State.envFirst s sensor value cause).slow = s.slow ∧
    (State.envFirst s sensor value cause).power = s.power ∧ (State.envFirst s sensor value cause).bench = s.bench ∧
    (State.envFirst s sensor value cause).router = s.router ∧
    (State.envFirst s sensor value cause).outbox = s.outbox ∧
    (State.envFirst s sensor value cause).fresh = s.fresh := by
  unfold State.envFirst
  first
    | ((repeat' apply And.intro) <;> with_reducible_and_instances rfl)
    | (simp; done)
    | ((try dsimp only); (repeat' split) <;> simp; done)

@[simp] theorem setRing_frame (s : State) (f : Nat) (g : Ring → Ring) :
    (State.setRing s f g).now = s.now ∧ (State.setRing s f g).edgeAt = s.edgeAt ∧
    (State.setRing s f g).pending = s.pending ∧ (State.setRing s f g).regs = s.regs ∧
    (State.setRing s f g).snaps = s.snaps ∧ (State.setRing s f g).mem = s.mem ∧ (State.setRing s f g).ccr = s.ccr ∧
    (State.setRing s f g).mirror0 = s.mirror0 ∧ (State.setRing s f g).mirror1 = s.mirror1 ∧
    (State.setRing s f g).run = s.run ∧ (State.setRing s f g).job = s.job ∧ (State.setRing s f g).ctxs = s.ctxs ∧
    (State.setRing s f g).tiles = s.tiles ∧ (State.setRing s f g).attend = s.attend ∧
    (State.setRing s f g).fifos = s.fifos ∧ (State.setRing s f g).cap = s.cap ∧ (State.setRing s f g).hub = s.hub ∧
    (State.setRing s f g).links = s.links ∧ (State.setRing s f g).solver = s.solver ∧
    (State.setRing s f g).host = s.host ∧ (State.setRing s f g).slow = s.slow ∧
    (State.setRing s f g).power = s.power ∧ (State.setRing s f g).bench = s.bench ∧
    (State.setRing s f g).router = s.router ∧ (State.setRing s f g).outbox = s.outbox ∧
    (State.setRing s f g).fresh = s.fresh := by
  unfold State.setRing
  first
    | ((repeat' apply And.intro) <;> with_reducible_and_instances rfl)
    | (simp; done)
    | ((try dsimp only); (repeat' split) <;> simp; done)

@[simp] theorem ringRaise_frame (s : State) (f : Nat) :
    (State.ringRaise s f).now = s.now ∧ (State.ringRaise s f).edgeAt = s.edgeAt ∧
    (State.ringRaise s f).pending = s.pending ∧ (State.ringRaise s f).regs = s.regs ∧
    (State.ringRaise s f).snaps = s.snaps ∧ (State.ringRaise s f).mem = s.mem ∧ (State.ringRaise s f).ccr = s.ccr ∧
    (State.ringRaise s f).mirror0 = s.mirror0 ∧ (State.ringRaise s f).mirror1 = s.mirror1 ∧
    (State.ringRaise s f).run = s.run ∧ (State.ringRaise s f).job = s.job ∧ (State.ringRaise s f).ctxs = s.ctxs ∧
    (State.ringRaise s f).tiles = s.tiles ∧ (State.ringRaise s f).attend = s.attend ∧
    (State.ringRaise s f).fifos = s.fifos ∧ (State.ringRaise s f).cap = s.cap ∧ (State.ringRaise s f).hub = s.hub ∧
    (State.ringRaise s f).links = s.links ∧ (State.ringRaise s f).solver = s.solver ∧
    (State.ringRaise s f).host = s.host ∧ (State.ringRaise s f).slow = s.slow ∧
    (State.ringRaise s f).power = s.power ∧ (State.ringRaise s f).bench = s.bench ∧
    (State.ringRaise s f).router = s.router ∧ (State.ringRaise s f).fresh = s.fresh := by
  unfold State.ringRaise
  first
    | ((repeat' apply And.intro) <;> with_reducible_and_instances rfl)
    | (simp; done)
    | ((try dsimp only); (repeat' split) <;> simp; done)

@[simp] theorem pendCmd_frame (s : State) (op c tag arg : Nat) :
    (State.pendCmd s op c tag arg).now = s.now ∧ (State.pendCmd s op c tag arg).edgeAt = s.edgeAt ∧
    (State.pendCmd s op c tag arg).pending = s.pending ∧ (State.pendCmd s op c tag arg).regs = s.regs ∧
    (State.pendCmd s op c tag arg).snaps = s.snaps ∧ (State.pendCmd s op c tag arg).mem = s.mem ∧
    (State.pendCmd s op c tag arg).ccr = s.ccr ∧ (State.pendCmd s op c tag arg).mirror0 = s.mirror0 ∧
    (State.pendCmd s op c tag arg).mirror1 = s.mirror1 ∧ (State.pendCmd s op c tag arg).run = s.run ∧
    (State.pendCmd s op c tag arg).job = s.job ∧ (State.pendCmd s op c tag arg).ctxs = s.ctxs ∧
    (State.pendCmd s op c tag arg).tiles = s.tiles ∧ (State.pendCmd s op c tag arg).attend = s.attend ∧
    (State.pendCmd s op c tag arg).fifos = s.fifos ∧ (State.pendCmd s op c tag arg).rings = s.rings ∧
    (State.pendCmd s op c tag arg).cap = s.cap ∧ (State.pendCmd s op c tag arg).hub = s.hub ∧
    (State.pendCmd s op c tag arg).links = s.links ∧ (State.pendCmd s op c tag arg).solver = s.solver ∧
    (State.pendCmd s op c tag arg).slow = s.slow ∧ (State.pendCmd s op c tag arg).power = s.power ∧
    (State.pendCmd s op c tag arg).bench = s.bench ∧ (State.pendCmd s op c tag arg).router = s.router ∧
    (State.pendCmd s op c tag arg).outbox = s.outbox ∧ (State.pendCmd s op c tag arg).fresh = s.fresh := by
  unfold State.pendCmd
  first
    | ((repeat' apply And.intro) <;> with_reducible_and_instances rfl)
    | (simp; done)
    | ((try dsimp only); (repeat' split) <;> simp; done)

@[simp] theorem addDesc_frame (s : State) (d : Desc) :
    (State.addDesc s d).now = s.now ∧ (State.addDesc s d).edgeAt = s.edgeAt ∧
    (State.addDesc s d).pending = s.pending ∧ (State.addDesc s d).regs = s.regs ∧
    (State.addDesc s d).snaps = s.snaps ∧ (State.addDesc s d).mem = s.mem ∧ (State.addDesc s d).ccr = s.ccr ∧
    (State.addDesc s d).mirror0 = s.mirror0 ∧ (State.addDesc s d).mirror1 = s.mirror1 ∧
    (State.addDesc s d).run = s.run ∧ (State.addDesc s d).job = s.job ∧ (State.addDesc s d).ctxs = s.ctxs ∧
    (State.addDesc s d).tiles = s.tiles ∧ (State.addDesc s d).attend = s.attend ∧
    (State.addDesc s d).fifos = s.fifos ∧ (State.addDesc s d).rings = s.rings ∧ (State.addDesc s d).cap = s.cap ∧
    (State.addDesc s d).hub = s.hub ∧ (State.addDesc s d).links = s.links ∧ (State.addDesc s d).solver = s.solver ∧
    (State.addDesc s d).slow = s.slow ∧ (State.addDesc s d).power = s.power ∧ (State.addDesc s d).bench = s.bench ∧
    (State.addDesc s d).router = s.router ∧ (State.addDesc s d).outbox = s.outbox ∧
    (State.addDesc s d).fresh = s.fresh := by
  unfold State.addDesc
  first
    | ((repeat' apply And.intro) <;> with_reducible_and_instances rfl)
    | (simp; done)
    | ((try dsimp only); (repeat' split) <;> simp; done)

@[simp] theorem dropDescs_frame (s : State) (p : Desc → Bool) :
    (State.dropDescs s p).now = s.now ∧ (State.dropDescs s p).edgeAt = s.edgeAt ∧
    (State.dropDescs s p).pending = s.pending ∧ (State.dropDescs s p).regs = s.regs ∧
    (State.dropDescs s p).snaps = s.snaps ∧ (State.dropDescs s p).mem = s.mem ∧ (State.dropDescs s p).ccr = s.ccr ∧
    (State.dropDescs s p).mirror0 = s.mirror0 ∧ (State.dropDescs s p).mirror1 = s.mirror1 ∧
    (State.dropDescs s p).run = s.run ∧ (State.dropDescs s p).job = s.job ∧ (State.dropDescs s p).ctxs = s.ctxs ∧
    (State.dropDescs s p).tiles = s.tiles ∧ (State.dropDescs s p).attend = s.attend ∧
    (State.dropDescs s p).fifos = s.fifos ∧ (State.dropDescs s p).rings = s.rings ∧
    (State.dropDescs s p).cap = s.cap ∧ (State.dropDescs s p).hub = s.hub ∧ (State.dropDescs s p).links = s.links ∧
    (State.dropDescs s p).solver = s.solver ∧ (State.dropDescs s p).slow = s.slow ∧
    (State.dropDescs s p).power = s.power ∧ (State.dropDescs s p).bench = s.bench ∧
    (State.dropDescs s p).router = s.router ∧ (State.dropDescs s p).outbox = s.outbox ∧
    (State.dropDescs s p).fresh = s.fresh := by
  unfold State.dropDescs
  first
    | ((repeat' apply And.intro) <;> with_reducible_and_instances rfl)
    | (simp; done)
    | ((try dsimp only); (repeat' split) <;> simp; done)

@[simp] theorem setResid_frame (s : State) (id : Nat) (g : Resid → Resid) :
    (State.setResid s id g).now = s.now ∧ (State.setResid s id g).edgeAt = s.edgeAt ∧
    (State.setResid s id g).pending = s.pending ∧ (State.setResid s id g).regs = s.regs ∧
    (State.setResid s id g).snaps = s.snaps ∧ (State.setResid s id g).mem = s.mem ∧
    (State.setResid s id g).ccr = s.ccr ∧ (State.setResid s id g).mirror0 = s.mirror0 ∧
    (State.setResid s id g).mirror1 = s.mirror1 ∧ (State.setResid s id g).run = s.run ∧
    (State.setResid s id g).job = s.job ∧ (State.setResid s id g).ctxs = s.ctxs ∧
    (State.setResid s id g).tiles = s.tiles ∧ (State.setResid s id g).attend = s.attend ∧
    (State.setResid s id g).fifos = s.fifos ∧ (State.setResid s id g).rings = s.rings ∧
    (State.setResid s id g).cap = s.cap ∧ (State.setResid s id g).hub = s.hub ∧
    (State.setResid s id g).links = s.links ∧ (State.setResid s id g).solver = s.solver ∧
    (State.setResid s id g).host = s.host ∧ (State.setResid s id g).power = s.power ∧
    (State.setResid s id g).bench = s.bench ∧ (State.setResid s id g).router = s.router ∧
    (State.setResid s id g).outbox = s.outbox ∧ (State.setResid s id g).fresh = s.fresh := by
  unfold State.setResid
  first
    | ((repeat' apply And.intro) <;> with_reducible_and_instances rfl)
    | (simp; done)
    | ((try dsimp only); (repeat' split) <;> simp; done)

@[simp] theorem setDesc_frame (s : State) (d d' : Desc) :
    (State.setDesc s d d').now = s.now ∧ (State.setDesc s d d').edgeAt = s.edgeAt ∧
    (State.setDesc s d d').pending = s.pending ∧ (State.setDesc s d d').regs = s.regs ∧
    (State.setDesc s d d').snaps = s.snaps ∧ (State.setDesc s d d').mem = s.mem ∧
    (State.setDesc s d d').ccr = s.ccr ∧ (State.setDesc s d d').mirror0 = s.mirror0 ∧
    (State.setDesc s d d').mirror1 = s.mirror1 ∧ (State.setDesc s d d').run = s.run ∧
    (State.setDesc s d d').job = s.job ∧ (State.setDesc s d d').ctxs = s.ctxs ∧
    (State.setDesc s d d').tiles = s.tiles ∧ (State.setDesc s d d').attend = s.attend ∧
    (State.setDesc s d d').fifos = s.fifos ∧ (State.setDesc s d d').rings = s.rings ∧
    (State.setDesc s d d').cap = s.cap ∧ (State.setDesc s d d').hub = s.hub ∧
    (State.setDesc s d d').links = s.links ∧ (State.setDesc s d d').solver = s.solver ∧
    (State.setDesc s d d').slow = s.slow ∧ (State.setDesc s d d').power = s.power ∧
    (State.setDesc s d d').bench = s.bench ∧ (State.setDesc s d d').router = s.router ∧
    (State.setDesc s d d').outbox = s.outbox ∧ (State.setDesc s d d').fresh = s.fresh := by
  unfold State.setDesc
  first
    | ((repeat' apply And.intro) <;> with_reducible_and_instances rfl)
    | (simp; done)
    | ((try dsimp only); (repeat' split) <;> simp; done)

@[simp] theorem mboxPut_frame (s : State) (a : Nat) (b : Byte) :
    (State.mboxPut s a b).now = s.now ∧ (State.mboxPut s a b).edgeAt = s.edgeAt ∧
    (State.mboxPut s a b).pending = s.pending ∧ (State.mboxPut s a b).regs = s.regs ∧
    (State.mboxPut s a b).snaps = s.snaps ∧ (State.mboxPut s a b).mem = s.mem ∧ (State.mboxPut s a b).ccr = s.ccr ∧
    (State.mboxPut s a b).mirror0 = s.mirror0 ∧ (State.mboxPut s a b).mirror1 = s.mirror1 ∧
    (State.mboxPut s a b).run = s.run ∧ (State.mboxPut s a b).job = s.job ∧ (State.mboxPut s a b).ctxs = s.ctxs ∧
    (State.mboxPut s a b).tiles = s.tiles ∧ (State.mboxPut s a b).attend = s.attend ∧
    (State.mboxPut s a b).fifos = s.fifos ∧ (State.mboxPut s a b).rings = s.rings ∧
    (State.mboxPut s a b).cap = s.cap ∧ (State.mboxPut s a b).hub = s.hub ∧ (State.mboxPut s a b).links = s.links ∧
    (State.mboxPut s a b).solver = s.solver ∧ (State.mboxPut s a b).slow = s.slow ∧
    (State.mboxPut s a b).power = s.power ∧ (State.mboxPut s a b).bench = s.bench ∧
    (State.mboxPut s a b).router = s.router ∧ (State.mboxPut s a b).outbox = s.outbox ∧
    (State.mboxPut s a b).fresh = s.fresh := by
  unfold State.mboxPut
  first
    | ((repeat' apply And.intro) <;> with_reducible_and_instances rfl)
    | (simp; done)
    | ((try dsimp only); (repeat' split) <;> simp; done)

@[simp] theorem benchResult_frame (s : State) (r : Nat) :
    (State.benchResult s r).now = s.now ∧ (State.benchResult s r).edgeAt = s.edgeAt ∧
    (State.benchResult s r).pending = s.pending ∧ (State.benchResult s r).snaps = s.snaps ∧
    (State.benchResult s r).mem = s.mem ∧ (State.benchResult s r).ccr = s.ccr ∧
    (State.benchResult s r).mirror0 = s.mirror0 ∧ (State.benchResult s r).mirror1 = s.mirror1 ∧
    (State.benchResult s r).run = s.run ∧ (State.benchResult s r).job = s.job ∧
    (State.benchResult s r).ctxs = s.ctxs ∧ (State.benchResult s r).tiles = s.tiles ∧
    (State.benchResult s r).attend = s.attend ∧ (State.benchResult s r).fifos = s.fifos ∧
    (State.benchResult s r).rings = s.rings ∧ (State.benchResult s r).cap = s.cap ∧
    (State.benchResult s r).hub = s.hub ∧ (State.benchResult s r).links = s.links ∧
    (State.benchResult s r).solver = s.solver ∧ (State.benchResult s r).host = s.host ∧
    (State.benchResult s r).slow = s.slow ∧ (State.benchResult s r).power = s.power ∧
    (State.benchResult s r).bench = s.bench ∧ (State.benchResult s r).router = s.router ∧
    (State.benchResult s r).outbox = s.outbox ∧ (State.benchResult s r).fresh = s.fresh := by
  unfold State.benchResult
  first
    | ((repeat' apply And.intro) <;> with_reducible_and_instances rfl)
    | (simp; done)
    | ((try dsimp only); (repeat' split) <;> simp; done)

@[simp] theorem accErr_frame (s : State) (cause via off : Nat) (write : Bool) :
    (State.accErr s cause via off write).now = s.now ∧ (State.accErr s cause via off write).edgeAt = s.edgeAt ∧
    (State.accErr s cause via off write).pending = s.pending ∧ (State.accErr s cause via off write).snaps = s.snaps ∧
    (State.accErr s cause via off write).mem = s.mem ∧ (State.accErr s cause via off write).ccr = s.ccr ∧
    (State.accErr s cause via off write).mirror0 = s.mirror0 ∧
    (State.accErr s cause via off write).mirror1 = s.mirror1 ∧ (State.accErr s cause via off write).run = s.run ∧
    (State.accErr s cause via off write).job = s.job ∧ (State.accErr s cause via off write).ctxs = s.ctxs ∧
    (State.accErr s cause via off write).tiles = s.tiles ∧ (State.accErr s cause via off write).attend = s.attend ∧
    (State.accErr s cause via off write).fifos = s.fifos ∧ (State.accErr s cause via off write).rings = s.rings ∧
    (State.accErr s cause via off write).cap = s.cap ∧ (State.accErr s cause via off write).hub = s.hub ∧
    (State.accErr s cause via off write).links = s.links ∧ (State.accErr s cause via off write).solver = s.solver ∧
    (State.accErr s cause via off write).host = s.host ∧ (State.accErr s cause via off write).slow = s.slow ∧
    (State.accErr s cause via off write).power = s.power ∧ (State.accErr s cause via off write).bench = s.bench ∧
    (State.accErr s cause via off write).router = s.router := by
  unfold State.accErr
  first
    | ((repeat' apply And.intro) <;> with_reducible_and_instances rfl)
    | (simp; done)
    | ((try dsimp only); (repeat' split) <;> simp; done)

@[simp] theorem accDone_frame (s : State) (w done : Nat) (data : Option Word64) :
    (State.accDone s w done data).now = s.now ∧ (State.accDone s w done data).edgeAt = s.edgeAt ∧
    (State.accDone s w done data).pending = s.pending ∧ (State.accDone s w done data).regs = s.regs ∧
    (State.accDone s w done data).snaps = s.snaps ∧ (State.accDone s w done data).mem = s.mem ∧
    (State.accDone s w done data).ccr = s.ccr ∧ (State.accDone s w done data).mirror0 = s.mirror0 ∧
    (State.accDone s w done data).mirror1 = s.mirror1 ∧ (State.accDone s w done data).run = s.run ∧
    (State.accDone s w done data).job = s.job ∧ (State.accDone s w done data).ctxs = s.ctxs ∧
    (State.accDone s w done data).tiles = s.tiles ∧ (State.accDone s w done data).attend = s.attend ∧
    (State.accDone s w done data).fifos = s.fifos ∧ (State.accDone s w done data).rings = s.rings ∧
    (State.accDone s w done data).cap = s.cap ∧ (State.accDone s w done data).hub = s.hub ∧
    (State.accDone s w done data).links = s.links ∧ (State.accDone s w done data).solver = s.solver ∧
    (State.accDone s w done data).host = s.host ∧ (State.accDone s w done data).slow = s.slow ∧
    (State.accDone s w done data).power = s.power ∧ (State.accDone s w done data).bench = s.bench ∧
    (State.accDone s w done data).fresh = s.fresh := by
  unfold State.accDone
  first
    | ((repeat' apply And.intro) <;> with_reducible_and_instances rfl)
    | (simp; done)
    | ((try dsimp only); (repeat' split) <;> simp; done)

end Sys2Proof.Laws
end

