-- ==== Sys2Proof/Laws/Due.lean ====
section
/-! SUPPORT. What the passing of time does when nothing is due, and the cycle it leaves. -/

namespace Sys2Proof.Laws

open Sys2Proof.Machine

theorem firstDue_nil : firstDue [] = none := rfl

/-- With nothing due, settling changes nothing. -/
theorem settle_settled (s : State) (c : Nat) (h : s.dueBy c = []) : ∀ k, State.settle c k s = s
  | 0 => rfl
  | k + 1 => by rw [State.settle, h, firstDue_nil]

/-- With nothing due, time only moves the clock. -/
theorem upTo_settled (s : State) (c : Nat) (h : s.dueBy c = []) : s.upTo c = s.advance c := by
  rw [State.upTo, settle_settled s c h]

/-- Time never stops short of the cycle it is sent to. -/
theorem upTo_now (s : State) (c : Nat) : c ≤ (s.upTo c).now := Nat.le_max_right _ _

/-- A module on which nothing is under way has nothing due on any cycle. -/
theorem dueBy_idle (s : State) (c : Nat) (hf : s.tiles.flights = []) (hj : s.solver.jobs = [])
    (hc : s.solver.carries = []) (hw : s.hub.writes = []) (ht : s.run.treeDue = [])
    (hl : ∀ l ∈ s.links, l.landing = [] ∧ l.waiting = []) : s.dueBy c = [] := by
  have h : ((range' 0 16).zip s.links).flatMap (fun k => k.2.landing.map (fun x => (x.at_, Due.flit k.1 x)) ++
      k.2.waiting.map (fun x => (x.sent + s.lnkHop k.1, Due.unanswered k.1 x))) = [] := by
    rw [List.flatMap_eq_nil_iff]
    intro k hk
    have := hl k.2 (List.of_mem_zip hk).2
    simp [this.1, this.2]
  simp only [State.dueBy, State.dues, hf, hj, hc, hw, ht, h]
  rfl

/-- What is due by a cycle is among what is due by a later one. -/
theorem dueBy_mono (s : State) {c d : Nat} (h : c ≤ d) (hd : s.dueBy d = []) : s.dueBy c = [] := by
  simp only [State.dueBy, List.filter_eq_nil_iff, decide_eq_true_eq, Nat.not_le] at hd ⊢
  exact fun x hx => Nat.lt_of_le_of_lt h (hd x hx)

end Sys2Proof.Laws
end

