-- ==== Sys2Proof/Laws/Regs.lean ====
section
/-! SUPPORT. Laws of the register file: a field read back after it is written, and the fields and registers that a write
leaves alone. -/

namespace Sys2Proof.Laws

open Sys2Proof.Machine

/-- A word with a field replaced, taken apart above, in and below the field. -/
theorem putBits_eq (v lo wd x : Nat) :
    putBits v lo wd x = v / (2 ^ lo * 2 ^ wd) * (2 ^ lo * 2 ^ wd) + x % 2 ^ wd * 2 ^ lo + v % 2 ^ lo := by
  unfold putBits getBits
  have h1 := Nat.div_add_mod v (2 ^ lo)
  have h2 := Nat.div_add_mod (v / 2 ^ lo) (2 ^ wd)
  rw [Nat.div_div_eq_div_mul] at h2
  generalize v / 2 ^ lo % 2 ^ wd = m at *
  generalize v / (2 ^ lo * 2 ^ wd) = q at *
  have h3 : v = q * (2 ^ lo * 2 ^ wd) + m * 2 ^ lo + v % 2 ^ lo := by
    rw [← h2] at h1
    rw [← h1]
    conv_rhs => rw [Nat.mul_add_mod]
    simp only [Nat.mod_mod]
    ring
  omega

theorem getBits_putBits_same (v lo wd x : Nat) : getBits (putBits v lo wd x) lo wd = x % 2 ^ wd := by
  rw [putBits_eq]
  unfold getBits
  have ha : 0 < 2 ^ lo := Nat.pos_of_ne_zero (by positivity)
  have : v / (2 ^ lo * 2 ^ wd) * (2 ^ lo * 2 ^ wd) + x % 2 ^ wd * 2 ^ lo + v % 2 ^ lo
      = v % 2 ^ lo + 2 ^ lo * (2 ^ wd * (v / (2 ^ lo * 2 ^ wd)) + x % 2 ^ wd) := by ring
  rw [this, Nat.add_mul_div_left _ _ ha, Nat.div_eq_of_lt (Nat.mod_lt _ ha)]
  simp

theorem getBits_putBits_above (v lo wd x lo' wd' : Nat) (h : lo + wd ≤ lo') :
    getBits (putBits v lo wd x) lo' wd' = getBits v lo' wd' := by
  rw [putBits_eq]
  unfold getBits
  obtain ⟨k, rfl⟩ := Nat.exists_eq_add_of_le h
  have ha : 0 < 2 ^ lo := Nat.pos_of_ne_zero (by positivity)
  have hb : 0 < 2 ^ wd := Nat.pos_of_ne_zero (by positivity)
  have : (v / (2 ^ lo * 2 ^ wd) * (2 ^ lo * 2 ^ wd) + x % 2 ^ wd * 2 ^ lo + v % 2 ^ lo) / (2 ^ lo * 2 ^ wd)
      = v / (2 ^ lo * 2 ^ wd) := by
    have h1 : x % 2 ^ wd * 2 ^ lo + v % 2 ^ lo < 2 ^ lo * 2 ^ wd := by
      have := Nat.mod_lt x hb
      have := Nat.mod_lt v ha
      calc x % 2 ^ wd * 2 ^ lo + v % 2 ^ lo < x % 2 ^ wd * 2 ^ lo + 2 ^ lo := by omega
        _ = (x % 2 ^ wd + 1) * 2 ^ lo := by ring
        _ ≤ 2 ^ wd * 2 ^ lo := Nat.mul_le_mul_right _ (by omega)
        _ = _ := by ring
    rw [Nat.add_assoc, Nat.add_comm, Nat.add_mul_div_right _ _ (by positivity), Nat.div_eq_of_lt h1]
    simp
  rw [Nat.pow_add, Nat.pow_add, ← Nat.div_div_eq_div_mul, this, Nat.div_div_eq_div_mul]

theorem getBits_putBits_below (v lo wd x lo' wd' : Nat) (h : lo' + wd' ≤ lo) :
    getBits (putBits v lo wd x) lo' wd' = getBits v lo' wd' := by
  rw [putBits_eq]
  unfold getBits
  obtain ⟨k, rfl⟩ := Nat.exists_eq_add_of_le h
  rw [← Nat.mod_mul_right_div_self, ← Nat.mod_mul_right_div_self]
  congr 1
  have h1 : ∀ a b c : Nat, (a * (2 ^ (lo' + wd' + k) * b) + c * 2 ^ (lo' + wd' + k) + v % 2 ^ (lo' + wd' + k))
      % (2 ^ lo' * 2 ^ wd') = v % (2 ^ lo' * 2 ^ wd') := by
    intro a b c
    have : a * (2 ^ (lo' + wd' + k) * b) + c * 2 ^ (lo' + wd' + k) + v % 2 ^ (lo' + wd' + k)
        = v % 2 ^ (lo' + wd' + k) + 2 ^ lo' * 2 ^ wd' * (a * 2 ^ k * b + c * 2 ^ k) := by
      rw [Nat.pow_add, Nat.pow_add]; ring
    rw [this, Nat.add_mul_mod_self_left, Nat.mod_mod_of_dvd]
    rw [Nat.pow_add, Nat.pow_add]
    exact Nat.dvd_mul_right _ _
  exact h1 _ _ _

theorem putBits_lt (v lo wd x : Nat) (hv : v < 2 ^ 64) (h : lo + wd ≤ 64) : putBits v lo wd x < 2 ^ 64 := by
  rw [putBits_eq]
  obtain ⟨k, hk⟩ := Nat.exists_eq_add_of_le h
  have ha : 0 < 2 ^ lo := Nat.pos_of_ne_zero (by positivity)
  have hb : 0 < 2 ^ wd := Nat.pos_of_ne_zero (by positivity)
  have h64 : (2 : Nat) ^ 64 = 2 ^ k * (2 ^ lo * 2 ^ wd) := by rw [hk, Nat.pow_add, Nat.pow_add]; ring
  rw [h64] at hv ⊢
  have h1 : x % 2 ^ wd * 2 ^ lo + v % 2 ^ lo < 2 ^ lo * 2 ^ wd := by
    have := Nat.mod_lt x hb
    have := Nat.mod_lt v ha
    calc x % 2 ^ wd * 2 ^ lo + v % 2 ^ lo < x % 2 ^ wd * 2 ^ lo + 2 ^ lo := by omega
      _ = (x % 2 ^ wd + 1) * 2 ^ lo := by ring
      _ ≤ 2 ^ wd * 2 ^ lo := Nat.mul_le_mul_right _ (by omega)
      _ = _ := by ring
  have h2 : v / (2 ^ lo * 2 ^ wd) < 2 ^ k := Nat.div_lt_of_lt_mul (by rw [Nat.mul_comm]; exact hv)
  generalize 2 ^ lo * 2 ^ wd = P at *
  calc v / P * P + x % 2 ^ wd * 2 ^ lo + v % 2 ^ lo < v / P * P + P := by omega
    _ = (v / P + 1) * P := by ring
    _ ≤ 2 ^ k * P := Nat.mul_le_mul_right _ (by omega)

theorem getBits_lt (v lo wd : Nat) : getBits v lo wd < 2 ^ wd := Nat.mod_lt _ (by positivity)

theorem fget_lt (s : State) (f : Fld) : s.fget f < 2 ^ f.wd := getBits_lt _ _ _

/-! ### Whole registers -/

theorem regGet_regPut_same (s : State) (k : Nat) (v : Word64) (h : tabWf resetOf s.regs = true) :
    (s.regPut k v).regGet k = v := tabGet_put _ _ _ _ h

theorem regGet_regPut_ne (s : State) (k k' : Nat) (v : Word64) (h : k' ≠ k) :
    (s.regPut k v).regGet k' = s.regGet k' := tabGet_tabPut_ne _ _ _ _ h _

/-- Everything that reads registers agrees on states with the same registers. -/
theorem regGet_congr {s t : State} (h : t.regs = s.regs) (k : Nat) : t.regGet k = s.regGet k := by
  unfold State.regGet; rw [h]

theorem fget_congr {s t : State} (h : t.regs = s.regs) (f : Fld) : t.fget f = s.fget f := by
  unfold State.fget; rw [regGet_congr h]

theorem wf_fset (s : State) (f : Fld) (x : Nat) (h : tabWf resetOf s.regs = true) :
    tabWf resetOf (s.fset f x).regs = true := tabWf_tabPut _ _ _ _ h

/-! ### Fields -/

theorem regGet_fset_ne (s : State) (f : Fld) (x k : Nat) (h : k ≠ f.base) : (s.fset f x).regGet k = s.regGet k :=
  regGet_regPut_ne _ _ _ _ h

theorem fget_fset_same (s : State) (f : Fld) (x : Nat) (h : tabWf resetOf s.regs = true) (hw : f.lo + f.wd ≤ 64) :
    (s.fset f x).fget f = x % 2 ^ f.wd := by
  unfold State.fget State.fset
  rw [regGet_regPut_same _ _ _ h, BitVec.toNat_ofNat, Nat.mod_eq_of_lt (putBits_lt _ _ _ _ (BitVec.isLt _) hw),
    getBits_putBits_same]

theorem fget_fset_base (s : State) (f g : Fld) (x : Nat) (h : g.base ≠ f.base) : (s.fset f x).fget g = s.fget g := by
  unfold State.fget
  rw [regGet_fset_ne _ _ _ _ h]

theorem fget_fset_disjoint (s : State) (f g : Fld) (x : Nat) (h : tabWf resetOf s.regs = true)
    (hw : f.lo + f.wd ≤ 64) (hd : g.lo + g.wd ≤ f.lo ∨ f.lo + f.wd ≤ g.lo) : (s.fset f x).fget g = s.fget g := by
  by_cases hb : g.base = f.base
  · unfold State.fget State.fset
    rw [hb, regGet_regPut_same _ _ _ h, BitVec.toNat_ofNat, Nat.mod_eq_of_lt (putBits_lt _ _ _ _ (BitVec.isLt _) hw)]
    rcases hd with hd | hd
    · rw [getBits_putBits_below _ _ _ _ _ _ hd]
    · rw [getBits_putBits_above _ _ _ _ _ _ hd]
  · exact fget_fset_base _ _ _ _ hb

/-- Two fields share no bit. -/
def apart (f g : Fld) : Bool := g.base != f.base || decide (g.lo + g.wd ≤ f.lo) || decide (f.lo + f.wd ≤ g.lo)

theorem fget_fset_apart (s : State) (f g : Fld) (x : Nat) (h : tabWf resetOf s.regs = true) (hw : f.lo + f.wd ≤ 64)
    (ha : apart f g = true) : (s.fset f x).fget g = s.fget g := by
  simp only [apart, Bool.or_eq_true, bne_iff_ne, decide_eq_true_eq] at ha
  rcases ha with (ha | ha) | ha
  · exact fget_fset_base _ _ _ _ ha
  · exact fget_fset_disjoint _ _ _ _ h hw (.inl ha)
  · exact fget_fset_disjoint _ _ _ _ h hw (.inr ha)

/-! ### Status bits and records -/

theorem irqEdge_regs (s t : State) (p : Nat) : (State.irqEdge s t p).regs = t.regs := by
  unfold State.irqEdge State.msix; split <;> (try split) <;> rfl

theorem setSts_regs (s : State) (p : Nat) (f : Fld) : (s.setSts p f).regs = (s.fset f 1).regs := irqEdge_regs _ _ _

theorem emit_regs (s : State) (o : Out) : (s.emit o).regs = s.regs := rfl

theorem fget_fadd_same (s : State) (f : Fld) (n : Nat) (h : tabWf resetOf s.regs = true) (hw : f.lo + f.wd ≤ 64) :
    (s.fadd f n).fget f = min (s.fget f + n) (2 ^ f.wd - 1) := by
  unfold State.fadd
  rw [fget_fset_same _ _ _ h hw, Nat.mod_eq_of_lt]
  have : 0 < 2 ^ f.wd := by positivity
  omega

end Sys2Proof.Laws
end

