-- ==== Sys2Proof/Laws/Flags.lean ====
section
/-! SUPPORT. What the shared fault and queue operations do to the registers: which they may write (`OnlyRegs`), and the status
bit that they leave set. -/

namespace Sys2Proof.Safety

open Sys2Proof.Machine Sys2Proof.Laws

theorem OnlyRegs.refl (ks : List Nat) (s : State) : OnlyRegs ks s s := fun _ _ => rfl

theorem OnlyRegs.trans {ks : List Nat} {s t u : State} (h : OnlyRegs ks s t) (g : OnlyRegs ks t u) : OnlyRegs ks s u :=
  fun k hk => (g k hk).trans (h k hk)

theorem OnlyRegs.mono {ks ls : List Nat} {s t : State} (h : OnlyRegs ks s t) (hs : ks ⊆ ls) : OnlyRegs ls s t :=
  fun k hk => h k (fun hh => hk (hs hh))

theorem OnlyRegs.same {ks : List Nat} {s t u : State} (h : OnlyRegs ks s t) (hr : u.regs = t.regs) : OnlyRegs ks s u :=
  fun k hk => (regGet_congr hr k).trans (h k hk)

theorem OnlyRegs.ite {ks : List Nat} {s a b : State} {c : Prop} [Decidable c] (ha : OnlyRegs ks s a) (hb : OnlyRegs ks s b) :
    OnlyRegs ks s (if c then a else b) := by split <;> assumption

theorem OnlyRegs.fget {ks : List Nat} {s t : State} (h : OnlyRegs ks s t) (f : Fld) (hf : f.base ∉ ks) :
    t.fget f = s.fget f := by unfold State.fget; rw [h _ hf]

theorem OnlyRegs.fbit {ks : List Nat} {s t : State} (h : OnlyRegs ks s t) (f : Fld) (hf : f.base ∉ ks) :
    t.fbit f = s.fbit f := by unfold State.fbit; rw [h.fget f hf]

end Sys2Proof.Safety

namespace Sys2Proof.Laws

open Sys2Proof.Machine

open Safety

theorem only_fset {ks : List Nat} (s : State) (f : Fld) (x : Nat) (h : f.base ∈ ks) : OnlyRegs ks s (s.fset f x) :=
  fun k hk => regGet_fset_ne s f x k (fun e => hk (e ▸ h))

theorem only_fadd {ks : List Nat} (s : State) (f : Fld) (n : Nat) (h : f.base ∈ ks) : OnlyRegs ks s (s.fadd f n) :=
  only_fset s f _ h

theorem only_setSts {ks : List Nat} (s : State) (p : Nat) (f : Fld) (h : f.base ∈ ks) : OnlyRegs ks s (s.setSts p f) :=
  (only_fset s f 1 h).same (setSts_regs s p f)

theorem only_fsetAll {ks : List Nat} : ∀ (l : List (Fld × Nat)) (s : State), (∀ p ∈ l, p.1.base ∈ ks) →
    OnlyRegs ks s (s.fsetAll l)
  | [], s, _ => OnlyRegs.refl _ s
  | (f, x) :: r, s, h => (only_fset s f x (h _ (List.mem_cons_self ..))).trans
      (only_fsetAll r _ (fun p hp => h p (List.mem_cons_of_mem _ hp)))

theorem only_record {ks : List Nat} (s : State) (v : Fld) (l : List (Fld × Nat)) (hv : v.base ∈ ks)
    (h : ∀ p ∈ l, p.1.base ∈ ks) : OnlyRegs ks s (s.record v l) := by
  unfold State.record
  exact OnlyRegs.ite (OnlyRegs.refl _ s) ((only_fsetAll l s h).trans (only_fset _ v 1 hv))

/-- The registers a dropped packet of FIFO `f` touches (R454). -/
def dropKeys (f : Nat) : List Nat := [(EVQ_LEVEL_DROPPED.ix f).base, EVQ_STS_DROP.base]

theorem only_post {ks : List Nat} (s : State) (f : Nat) (ws : List (BitVec 512)) (h : dropKeys f ⊆ ks) :
    OnlyRegs ks s (s.post f ws) := by
  unfold State.post
  refine OnlyRegs.ite (OnlyRegs.same (OnlyRegs.refl ks s) rfl) (OnlyRegs.same ?_ (irqEdge_regs _ _ _))
  refine (((OnlyRegs.same (OnlyRegs.refl ks s) rfl).trans (only_fadd (ks := ks) (s.setFifo f _) _ 1 ?_)).trans (only_fset _ _ _ ?_))
  · exact h (by simp [dropKeys])
  · exact h (by simp [dropKeys])

theorem only_event {ks : List Nat} (s : State) (t c : Nat) (p : List Nat) (h : noteRegs ⊆ ks) :
    OnlyRegs ks s (s.event t c p) := by
  unfold State.event
  refine OnlyRegs.ite (OnlyRegs.same (OnlyRegs.refl ks s) rfl) (only_post _ _ _ (fun _ hx => h ?_))
  simp only [dropKeys, List.mem_cons, List.not_mem_nil, or_false] at hx
  rcases hx with rfl | rfl <;> simp [noteRegs]

theorem only_trace {ks : List Nat} (s : State) (t c p : Nat) (h : noteRegs ⊆ ks) : OnlyRegs ks s (s.trace t c p) :=
  only_post _ _ _ (fun _ hx => h (by
    simp only [dropKeys, List.mem_cons, List.not_mem_nil, or_false] at hx
    rcases hx with rfl | rfl <;> simp [noteRegs]))

theorem only_capTrigger {ks : List Nat} (s : State) (c n : Nat) (h : noteRegs ⊆ ks) :
    OnlyRegs ks s (s.capTrigger c n) := by
  unfold State.capTrigger
  refine OnlyRegs.ite ((only_fadd s _ 1 (h (by simp [noteRegs]))).trans (only_setSts _ 0 _ (h (by simp [noteRegs])))) ?_
  split
  · exact OnlyRegs.same (OnlyRegs.refl _ s) rfl
  · exact OnlyRegs.same (OnlyRegs.refl _ s) rfl

theorem only_capFault {ks : List Nat} (s : State) (c : Nat) (h : noteRegs ⊆ ks) : OnlyRegs ks s (s.capFault c) :=
  OnlyRegs.ite (only_capTrigger s _ _ h) (OnlyRegs.refl _ s)

theorem only_traceAB {ks : List Nat} (s : State) (c p : Nat) (f : Fld) (h : noteRegs ⊆ ks) :
    OnlyRegs ks s (s.traceAB c p f) := OnlyRegs.ite (only_trace s _ _ _ h) (OnlyRegs.refl _ s)

theorem only_classASts {ks : List Nat} (s : State) (p : Nat) (f : Fld) (h : noteRegs ⊆ ks) (hf : f.base ∈ ks) :
    OnlyRegs ks s (s.classASts p f) :=
  ((only_setSts s p f hf).trans (only_traceAB _ 0 p f h)).trans (only_capFault _ 0 h)

theorem markB_regs (s : State) : s.markB.regs = s.regs := by unfold State.markB; split <;> rfl
theorem markC_regs (s : State) : s.markC.regs = s.regs := by unfold State.markC; split <;> rfl

theorem only_classB {ks : List Nat} (s : State) (h : noteRegs ⊆ ks) : OnlyRegs ks s s.classB :=
  (OnlyRegs.same (OnlyRegs.refl _ s) (markB_regs s)).trans (only_capFault _ 1 h)

theorem only_classBSts {ks : List Nat} (s : State) (p : Nat) (f : Fld) (h : noteRegs ⊆ ks) (hf : f.base ∈ ks) :
    OnlyRegs ks s (s.classBSts p f) :=
  ((only_setSts s p f hf).trans (only_traceAB _ 1 p f h)).trans (only_classB _ h)

theorem only_attendStart {ks : List Nat} (s : State) (p : Nat) (f : Fld) (c n : Nat) :
    OnlyRegs ks s (s.attendStart p f c n) := OnlyRegs.same (OnlyRegs.refl _ s) rfl

theorem only_classCWith {ks : List Nat} (s : State) (p : Nat) (f : Fld) (c n : Nat) (h : noteRegs ⊆ ks)
    (hf : f.base ∈ ks) (hp : (FAULT_CNT_C_RAISED.pageOf p).base ∈ ks) : OnlyRegs ks s (s.classCWith p f c n) :=
  (((((only_setSts s p f hf).trans (only_event _ _ _ _ h)).trans (only_attendStart _ _ _ _ _)).trans
    (OnlyRegs.same (OnlyRegs.refl _ _) (markC_regs _))).trans (only_fadd _ _ 1 hp)).trans (only_capFault _ 2 h)

theorem only_classC {ks : List Nat} (s : State) (p : Nat) (f : Fld) (h : noteRegs ⊆ ks)
    (hf : f.base ∈ ks) (hp : (FAULT_CNT_C_RAISED.pageOf p).base ∈ ks) : OnlyRegs ks s (s.classC p f) :=
  only_classCWith s p f 5 0 h hf hp

/-! ### Reading a field after an operation that does not write its register -/

/-- A status bit that has been set reads 1. -/
theorem fget_setSts (s : State) (p : Nat) (f : Fld) (h : tabWf resetOf s.regs = true) (hw : f.lo + f.wd ≤ 64)
    (h1 : f.wd = 1) : (s.setSts p f).fget f = 1 := by
  rw [fget_congr (setSts_regs s p f), fget_fset_same s f 1 h hw, h1]; rfl

/-- A class B fault with a status bit leaves the bit set, unless its register is one that notes touch. -/
theorem fget_classBSts (s : State) (p : Nat) (f : Fld) (h : tabWf resetOf s.regs = true) (hw : f.lo + f.wd ≤ 64)
    (h1 : f.wd = 1) (hn : f.base ∉ noteRegs) : (s.classBSts p f).fget f = 1 := by
  have k : OnlyRegs noteRegs (s.setSts p f) (s.classBSts p f) :=
    (only_traceAB _ 1 p f (fun _ h => h)).trans (only_classB _ (fun _ h => h))
  rw [k.fget f hn, fget_setSts s p f h hw h1]

theorem fget_classASts (s : State) (p : Nat) (f : Fld) (h : tabWf resetOf s.regs = true) (hw : f.lo + f.wd ≤ 64)
    (h1 : f.wd = 1) (hn : f.base ∉ noteRegs) : (s.classASts p f).fget f = 1 := by
  have k : OnlyRegs noteRegs (s.setSts p f) (s.classASts p f) :=
    (only_traceAB _ 0 p f (fun _ h => h)).trans (only_capFault _ 0 (fun _ h => h))
  rw [k.fget f hn, fget_setSts s p f h hw h1]

theorem fget_classCWith (s : State) (p : Nat) (f : Fld) (c n : Nat) (h : tabWf resetOf s.regs = true)
    (hw : f.lo + f.wd ≤ 64) (h1 : f.wd = 1) (hn : f.base ∉ noteRegs)
    (hp : f.base ≠ (FAULT_CNT_C_RAISED.pageOf p).base) : (s.classCWith p f c n).fget f = 1 := by
  have k : OnlyRegs ((FAULT_CNT_C_RAISED.pageOf p).base :: noteRegs) (s.setSts p f) (s.classCWith p f c n) := by
    have hs : noteRegs ⊆ (FAULT_CNT_C_RAISED.pageOf p).base :: noteRegs := fun _ h => List.mem_cons_of_mem _ h
    exact ((((only_event _ _ _ _ hs).trans (only_attendStart _ _ _ _ _)).trans
      (OnlyRegs.same (OnlyRegs.refl _ _) (markC_regs _))).trans (only_fadd _ _ 1 (List.mem_cons_self ..))).trans
      (only_capFault _ 2 hs)
  rw [k.fget f (by simp [hp, hn]), fget_setSts s p f h hw h1]

end Sys2Proof.Laws
end

