-- ==== Sys2Proof/Laws/KeepStreams.lean ====
section
/-! SUPPORT. What the operations of Machine/Streams.lean keep. -/

namespace Sys2Proof.Laws

open Sys2Proof.Machine

theorem atIssue_keeps {s0 : State} (s : State) (w : Word256) (hk : Keeps s0 s) :
    Keeps s0 (State.atIssue s w) := by
  unfold State.atIssue
  repeat (first
    | intro _
    | with_reducible exact hk
    | with_reducible assumption
    | with_reducible apply upTo_keeps
    | dsimp only)

theorem execMmStream_keeps (tile : Nat) (w : Word256) (s : State) : OutKeeps s (execMmStream tile w s) := by
  have hk := Keeps.refl s
  unfold execMmStream
  refine OutKeeps.next ?_
  repeat (first
    | intro _
    | with_reducible exact hk
    | with_reducible assumption
    | with_reducible apply atIssue_keeps
    | with_reducible apply podRun_keeps
    | with_reducible apply Keeps.ite
    | split
    | dsimp only)

theorem execMmIncell_keeps (tile : Nat) (w : Word256) (s : State) : OutKeeps s (execMmIncell tile w s) := by
  have hk := Keeps.refl s
  unfold execMmIncell
  refine OutKeeps.next ?_
  repeat (first
    | intro _
    | with_reducible exact hk
    | with_reducible assumption
    | with_reducible apply atIssue_keeps
    | with_reducible apply podRun_keeps
    | with_reducible apply Keeps.ite
    | split
    | dsimp only)

theorem execLoad_keeps (tile : Nat) (w : Word256) (s : State) : OutKeeps s (execLoad tile w s) := by
  have hk := Keeps.refl s
  unfold execLoad
  refine OutKeeps.next ?_
  repeat (first
    | intro _
    | with_reducible exact hk
    | with_reducible assumption
    | with_reducible apply atIssue_keeps
    | with_reducible apply veLoad_keeps
    | with_reducible apply Keeps.ite
    | split
    | dsimp only)

theorem execReadout_keeps (tile : Nat) (w : Word256) (s : State) : OutKeeps s (execReadout tile w s) := by
  have hk := Keeps.refl s
  unfold execReadout
  refine OutKeeps.next ?_
  repeat (first
    | intro _
    | with_reducible exact hk
    | with_reducible assumption
    | with_reducible apply atIssue_keeps
    | with_reducible apply veReadout_keeps
    | with_reducible apply Keeps.ite
    | split
    | dsimp only)

theorem execChain_keeps (tile : Nat) (w : Word256) (arrival : List Word32) (s : State) : OutKeeps s (execChain tile w arrival s) := by
  have hk := Keeps.refl s
  unfold execChain
  refine OutKeeps.next ?_
  repeat (first
    | intro _
    | with_reducible exact hk
    | with_reducible assumption
    | with_reducible apply atIssue_keeps
    | with_reducible apply veChain_keeps
    | with_reducible apply Keeps.ite
    | split
    | dsimp only)

theorem execConvert_keeps (tile : Nat) (w : Word256) (loc : VeLoc) (scales : Nat) (iota : Word32) (s : State) : OutKeeps s (execConvert tile w loc scales iota s) := by
  have hk := Keeps.refl s
  unfold execConvert
  refine OutKeeps.next ?_
  repeat (first
    | intro _
    | with_reducible exact hk
    | with_reducible assumption
    | with_reducible apply atIssue_keeps
    | with_reducible apply veConvert_keeps
    | with_reducible apply Keeps.ite
    | split
    | dsimp only)

theorem execScale_keeps (tile : Nat) (w : Word256) (loc : VeLoc) (s : State) : OutKeeps s (execScale tile w loc s) := by
  have hk := Keeps.refl s
  unfold execScale
  refine OutKeeps.next ?_
  repeat (first
    | intro _
    | with_reducible exact hk
    | with_reducible assumption
    | with_reducible apply atIssue_keeps
    | with_reducible apply veScale_keeps
    | with_reducible apply Keeps.ite
    | split
    | dsimp only)

theorem execTree_keeps (tile : Nat) (w : Word256) (elems : Nat) (s : State) : OutKeeps s (execTree tile w elems s) := by
  have hk := Keeps.refl s
  unfold execTree
  refine OutKeeps.next ?_
  repeat (first
    | intro _
    | with_reducible exact hk
    | with_reducible assumption
    | with_reducible apply atIssue_keeps
    | with_reducible apply veTree_keeps
    | with_reducible apply Keeps.ite
    | split
    | dsimp only)

theorem execSumsq_keeps (tile : Nat) (w : Word256) (loc : VeLoc) (bucket : Bool) (s : State) : OutKeeps s (execSumsq tile w loc bucket s) := by
  have hk := Keeps.refl s
  unfold execSumsq
  refine OutKeeps.next ?_
  repeat (first
    | intro _
    | with_reducible exact hk
    | with_reducible assumption
    | with_reducible apply atIssue_keeps
    | with_reducible apply veSumsq_keeps
    | with_reducible apply Keeps.ite
    | split
    | dsimp only)

theorem execLookupAdd_keeps (tile : Nat) (w : Word256) (dest : Nat) (s : State) : OutKeeps s (execLookupAdd tile w dest s) := by
  have hk := Keeps.refl s
  unfold execLookupAdd
  refine OutKeeps.next ?_
  repeat (first
    | intro _
    | with_reducible exact hk
    | with_reducible assumption
    | with_reducible apply atIssue_keeps
    | with_reducible apply veLookup_keeps
    | with_reducible apply Keeps.ite
    | split
    | dsimp only)

theorem execRowcol_keeps (tile : Nat) (w : Word256) (rDst cDst : Nat) (s : State) : OutKeeps s (execRowcol tile w rDst cDst s) := by
  have hk := Keeps.refl s
  unfold execRowcol
  refine OutKeeps.next ?_
  repeat (first
    | intro _
    | with_reducible exact hk
    | with_reducible assumption
    | with_reducible apply atIssue_keeps
    | with_reducible apply veRowcol_keeps
    | with_reducible apply Keeps.ite
    | split
    | dsimp only)

theorem execUpdate_keeps (tile : Nat) (w : Word256) (aux : List UpdAux) (s : State) : OutKeeps s (execUpdate tile w aux s) := by
  have hk := Keeps.refl s
  unfold execUpdate
  refine OutKeeps.next ?_
  repeat (first
    | intro _
    | with_reducible exact hk
    | with_reducible assumption
    | with_reducible apply atIssue_keeps
    | with_reducible apply veUpdate_keeps
    | with_reducible apply Keeps.ite
    | split
    | dsimp only)

theorem execCopy_keeps (tile : Nat) (w : Word256) (s : State) : OutKeeps s (execCopy tile w s) := by
  have hk := Keeps.refl s
  unfold execCopy
  refine OutKeeps.next ?_
  repeat (first
    | intro _
    | with_reducible exact hk
    | with_reducible assumption
    | with_reducible apply atIssue_keeps
    | with_reducible apply veCopy_keeps
    | with_reducible apply Keeps.ite
    | split
    | dsimp only)

theorem execDecay_keeps (tile : Nat) (w : Word256) (s : State) : OutKeeps s (execDecay tile w s) := by
  have hk := Keeps.refl s
  unfold execDecay
  refine OutKeeps.next ?_
  repeat (first
    | intro _
    | with_reducible exact hk
    | with_reducible assumption
    | with_reducible apply atIssue_keeps
    | with_reducible apply veDecay_keeps
    | with_reducible apply Keeps.ite
    | split
    | dsimp only)

theorem execEwise_keeps (tile : Nat) (w : Word256) (loc : VeLoc) (s : State) : OutKeeps s (execEwise tile w loc s) := by
  have hk := Keeps.refl s
  unfold execEwise
  refine OutKeeps.next ?_
  repeat (first
    | intro _
    | with_reducible exact hk
    | with_reducible assumption
    | with_reducible apply atIssue_keeps
    | with_reducible apply veEwise_keeps
    | with_reducible apply Keeps.ite
    | split
    | dsimp only)

theorem execEndStream_keeps (tile : Nat) (w : Word256) (s : State) : OutKeeps s (execEndStream tile w s) := by
  have hk := Keeps.refl s
  unfold execEndStream
  refine OutKeeps.next ?_
  repeat (first
    | intro _
    | with_reducible exact hk
    | with_reducible assumption
    | with_reducible apply atIssue_keeps
    | with_reducible apply veEnd_keeps
    | with_reducible apply Keeps.ite
    | split
    | dsimp only)

theorem execUndefinedOpcode_keeps (tile : Nat) (w : Word256) (s : State) : OutKeeps s (execUndefinedOpcode tile w s) := by
  have hk := Keeps.refl s
  unfold execUndefinedOpcode
  refine OutKeeps.next ?_
  repeat (first
    | intro _
    | with_reducible exact hk
    | with_reducible assumption
    | with_reducible apply atIssue_keeps
    | with_reducible apply issue_keeps
    | with_reducible apply streamFault_keeps
    | with_reducible apply Keeps.ite
    | split
    | dsimp only)

theorem runWord_keeps {s0 : State} (s : State) (n : Nat) (w : Word256) (c : Nat) (lim : Option Nat) (a : VeArgs) (hk : Keeps s0 s) :
    Keeps s0 (State.runWord s n w c lim a) := by
  unfold State.runWord
  repeat (first
    | intro _
    | (extract_lets +onlyGivenNames x; focus (refine (?_ : Keeps s0 x → _) ?_; rotate_left; dsimp only [x]; clear x; rotate_left; intro hx; clear_value x))
    | (extract_lets +onlyGivenNames x; focus (refine (?_ : Keeps s0 x.1 → _) ?_; rotate_left; dsimp only [x]; clear x; rotate_left; intro hx; clear_value x))
    | (extract_lets +onlyGivenNames x; clear_value x)
    | with_reducible exact hk
    | with_reducible assumption
    | with_reducible apply veEnd_keeps
    | with_reducible apply podRun_keeps
    | with_reducible apply veLoad_keeps
    | with_reducible apply veReadout_keeps
    | with_reducible apply veChain_keeps
    | with_reducible apply veConvert_keeps
    | with_reducible apply veScale_keeps
    | with_reducible apply veTree_keeps
    | with_reducible apply veSumsq_keeps
    | with_reducible apply veLookup_keeps
    | with_reducible apply veRowcol_keeps
    | with_reducible apply veUpdate_keeps
    | with_reducible apply veCopy_keeps
    | with_reducible apply veDecay_keeps
    | with_reducible apply veEwise_keeps
    | with_reducible apply issue_keeps
    | with_reducible apply streamFault_keeps
    | with_reducible exact Keeps.upd (by with_reducible assumption)
    | (with_reducible refine Keeps.updLists (by with_reducible assumption) ?_ ?_ ?_ ?_ ?_ <;> first | rfl | exact Nat.le_refl _ | exact Nat.le_max_left _ _ | exact Nat.le_succ _ | exact modAt_length _ _ _ | exact List.length_map _)
    | fail_if_no_progress (with_reducible apply Keeps.upd)
    | fail_if_no_progress (with_reducible refine Keeps.updLists ?_ ?_ ?_ ?_ ?_ ?_; rotate_left; iterate 5 (first | rfl | exact Nat.le_refl _ | exact Nat.le_max_left _ _ | exact Nat.le_succ _ | exact modAt_length _ _ _ | exact List.length_map _))
    | split
    | dsimp only)

theorem execLateIssue_keeps (tile : Nat) (w : Word256) (cycle : Nat) (late : LateWork) (s : State) : OutKeeps s (execLateIssue tile w cycle late s) := by
  have hk := Keeps.refl s
  unfold execLateIssue
  refine OutKeeps.next ?_
  repeat (first
    | intro _
    | (extract_lets +onlyGivenNames x; focus (refine (?_ : Keeps s x → _) ?_; rotate_left; dsimp only [x]; clear x; rotate_left; intro hx; clear_value x))
    | (extract_lets +onlyGivenNames x; focus (refine (?_ : Keeps s x.1 → _) ?_; rotate_left; dsimp only [x]; clear x; rotate_left; intro hx; clear_value x))
    | (extract_lets +onlyGivenNames x; clear_value x)
    | with_reducible exact hk
    | with_reducible assumption
    | with_reducible apply upTo_keeps
    | with_reducible apply fadd_keeps
    | with_reducible apply classBSts_keeps
    | with_reducible apply phaseTime_keeps
    | with_reducible apply runWord_keeps
    | with_reducible apply Keeps.ite
    | with_reducible exact Keeps.upd (by with_reducible assumption)
    | (with_reducible refine Keeps.updLists (by with_reducible assumption) ?_ ?_ ?_ ?_ ?_ <;> first | rfl | exact Nat.le_refl _ | exact Nat.le_max_left _ _ | exact Nat.le_succ _ | exact modAt_length _ _ _ | exact List.length_map _)
    | fail_if_no_progress (with_reducible apply Keeps.upd)
    | fail_if_no_progress (with_reducible refine Keeps.updLists ?_ ?_ ?_ ?_ ?_ ?_; rotate_left; iterate 5 (first | rfl | exact Nat.le_refl _ | exact Nat.le_max_left _ _ | exact Nat.le_succ _ | exact modAt_length _ _ _ | exact List.length_map _))
    | split
    | dsimp only)

end Sys2Proof.Laws
end

