-- ==== Sys2Proof/Laws/KeepCrackers.lean ====
section
/-! SUPPORT. What the operations of Machine/Crackers.lean keep. -/

namespace Sys2Proof.Laws

open Sys2Proof.Machine

theorem onJob_keeps {s0 : State} (s : State) (job : Nat) (f : ImageFile → BitVec 1024 → State)
    (hf : ∀ i e, Keeps s0 (f i e)) (hk : Keeps s0 s) : Keeps s0 (State.onJob s job f) := by
  unfold State.onJob
  (repeat' split) <;> first | exact hf _ _ | exact hk

theorem execSolverDescRead_keeps (job : Nat) (s : State) : OutKeeps s (execSolverDescRead job s) := by
  have hk := Keeps.refl s
  unfold execSolverDescRead
  refine OutKeeps.next ?_
  repeat (first
    | intro _
    | with_reducible exact hk
    | with_reducible assumption
    | with_reducible apply live_keeps
    | with_reducible apply onJob_keeps
    | with_reducible apply upTo_keeps
    | with_reducible apply solverDescRead_keeps
    | dsimp only)

theorem execSolverJobStart_keeps (job : Nat) (s : State) : OutKeeps s (execSolverJobStart job s) := by
  have hk := Keeps.refl s
  unfold execSolverJobStart
  refine OutKeeps.next ?_
  repeat (first
    | intro _
    | with_reducible exact hk
    | with_reducible assumption
    | with_reducible apply live_keeps
    | with_reducible apply onJob_keeps
    | with_reducible apply upTo_keeps
    | with_reducible apply solverStart_keeps
    | dsimp only)

theorem execPublish_keeps (die c0 : Nat) (s : State) : OutKeeps s (execPublish die c0 s) := by
  have hk := Keeps.refl s
  unfold execPublish
  refine OutKeeps.next ?_
  repeat (first
    | intro _
    | (extract_lets +onlyGivenNames x; focus (refine (?_ : Keeps s x → _) ?_; rotate_left; dsimp only [x]; clear x; rotate_left; intro hx; clear_value x))
    | (extract_lets +onlyGivenNames x; focus (refine (?_ : Keeps s x.1 → _) ?_; rotate_left; dsimp only [x]; clear x; rotate_left; intro hx; clear_value x))
    | (extract_lets +onlyGivenNames x; clear_value x)
    | with_reducible exact hk
    | with_reducible assumption
    | with_reducible apply live_keeps
    | with_reducible apply upTo_keeps
    | with_reducible apply publish_keeps
    | with_reducible apply Keeps.ite
    | with_reducible exact Keeps.upd (by with_reducible assumption)
    | (with_reducible refine Keeps.updLists (by with_reducible assumption) ?_ ?_ ?_ ?_ ?_ <;> first | rfl | exact Nat.le_refl _ | exact Nat.le_max_left _ _ | exact Nat.le_succ _ | exact modAt_length _ _ _ | exact List.length_map _)
    | fail_if_no_progress (with_reducible apply Keeps.upd)
    | fail_if_no_progress (with_reducible refine Keeps.updLists ?_ ?_ ?_ ?_ ?_ ?_; rotate_left; iterate 5 (first | rfl | exact Nat.le_refl _ | exact Nat.le_max_left _ _ | exact Nat.le_succ _ | exact modAt_length _ _ _ | exact List.length_map _))
    | split
    | dsimp only)

theorem execDeadlineMiss_keeps (die c0 : Nat) (s : State) : OutKeeps s (execDeadlineMiss die c0 s) := by
  have hk := Keeps.refl s
  unfold execDeadlineMiss
  refine OutKeeps.next ?_
  repeat (first
    | intro _
    | (extract_lets +onlyGivenNames x; focus (refine (?_ : Keeps s x → _) ?_; rotate_left; dsimp only [x]; clear x; rotate_left; intro hx; clear_value x))
    | (extract_lets +onlyGivenNames x; focus (refine (?_ : Keeps s x.1 → _) ?_; rotate_left; dsimp only [x]; clear x; rotate_left; intro hx; clear_value x))
    | (extract_lets +onlyGivenNames x; clear_value x)
    | with_reducible exact hk
    | with_reducible assumption
    | with_reducible apply live_keeps
    | with_reducible apply upTo_keeps
    | with_reducible apply slvEnd_keeps
    | with_reducible apply Keeps.ite
    | with_reducible exact Keeps.upd (by with_reducible assumption)
    | (with_reducible refine Keeps.updLists (by with_reducible assumption) ?_ ?_ ?_ ?_ ?_ <;> first | rfl | exact Nat.le_refl _ | exact Nat.le_max_left _ _ | exact Nat.le_succ _ | exact modAt_length _ _ _ | exact List.length_map _)
    | fail_if_no_progress (with_reducible apply Keeps.upd)
    | fail_if_no_progress (with_reducible refine Keeps.updLists ?_ ?_ ?_ ?_ ?_ ?_; rotate_left; iterate 5 (first | rfl | exact Nat.le_refl _ | exact Nat.le_max_left _ _ | exact Nat.le_succ _ | exact modAt_length _ _ _ | exact List.length_map _))
    | split
    | dsimp only)

theorem execCarrySweep_keeps (die : Nat) (s : State) : OutKeeps s (execCarrySweep die s) := by
  have hk := Keeps.refl s
  unfold execCarrySweep
  refine OutKeeps.next ?_
  repeat (first
    | intro _
    | (extract_lets +onlyGivenNames x; focus (refine (?_ : Keeps s x → _) ?_; rotate_left; dsimp only [x]; clear x; rotate_left; intro hx; clear_value x))
    | (extract_lets +onlyGivenNames x; focus (refine (?_ : Keeps s x.1 → _) ?_; rotate_left; dsimp only [x]; clear x; rotate_left; intro hx; clear_value x))
    | (extract_lets +onlyGivenNames x; clear_value x)
    | with_reducible exact hk
    | with_reducible assumption
    | with_reducible apply live_keeps
    | with_reducible apply upTo_keeps
    | with_reducible apply carrySweep_keeps
    | with_reducible apply Keeps.ite
    | with_reducible exact Keeps.upd (by with_reducible assumption)
    | (with_reducible refine Keeps.updLists (by with_reducible assumption) ?_ ?_ ?_ ?_ ?_ <;> first | rfl | exact Nat.le_refl _ | exact Nat.le_max_left _ _ | exact Nat.le_succ _ | exact modAt_length _ _ _ | exact List.length_map _)
    | fail_if_no_progress (with_reducible apply Keeps.upd)
    | fail_if_no_progress (with_reducible refine Keeps.updLists ?_ ?_ ?_ ?_ ?_ ?_; rotate_left; iterate 5 (first | rfl | exact Nat.le_refl _ | exact Nat.le_max_left _ _ | exact Nat.le_succ _ | exact modAt_length _ _ _ | exact List.length_map _))
    | split
    | dsimp only)

theorem execSolverDatapathFault_keeps (at_ die : Nat) (cracker : Option Nat) (corrected : Bool) (s : State) : OutKeeps s (execSolverDatapathFault at_ die cracker corrected s) := by
  have hk := Keeps.refl s
  unfold execSolverDatapathFault
  refine OutKeeps.next ?_
  repeat (first
    | intro _
    | with_reducible exact hk
    | with_reducible assumption
    | with_reducible apply live_keeps
    | with_reducible apply upTo_keeps
    | with_reducible apply solverFault_keeps
    | with_reducible apply Keeps.ite
    | split
    | dsimp only)

theorem execPivotLogClear_keeps (die : Nat) (s : State) : OutKeeps s (execPivotLogClear die s) := by
  have hk := Keeps.refl s
  unfold execPivotLogClear
  refine OutKeeps.next ?_
  repeat (first
    | intro _
    | with_reducible exact hk
    | with_reducible assumption
    | with_reducible apply live_keeps
    | with_reducible apply pivotLogClear_keeps
    | with_reducible apply Keeps.ite
    | split
    | dsimp only)

end Sys2Proof.Laws
end

