-- ==== Sys2Proof/Laws/KeepHub.lean ====
section
/-! SUPPORT. What the operations of Machine/Hub.lean keep. -/

namespace Sys2Proof.Laws

open Sys2Proof.Machine

theorem hubFirst_keeps {s0 : State} (s : State) (stack g cause : Nat) (hk : Keeps s0 s) :
    Keeps s0 (State.hubFirst s stack g cause) := by
  unfold State.hubFirst
  repeat (first
    | intro _
    | (extract_lets +onlyGivenNames x; focus (refine (?_ : Keeps s0 x → _) ?_; rotate_left; dsimp only [x]; clear x; rotate_left; intro hx; clear_value x))
    | (extract_lets +onlyGivenNames x; focus (refine (?_ : Keeps s0 x.1 → _) ?_; rotate_left; dsimp only [x]; clear x; rotate_left; intro hx; clear_value x))
    | (extract_lets +onlyGivenNames x; clear_value x)
    | with_reducible exact hk
    | with_reducible assumption
    | with_reducible apply fsetAll_keeps
    | with_reducible apply Keeps.ite
    | split
    | dsimp only)

theorem poisonAdd_keeps {s0 : State} (s : State) (stack g : Nat) (hk : Keeps s0 s) :
    Keeps s0 (State.poisonAdd s stack g) := by
  unfold State.poisonAdd
  repeat (first
    | intro _
    | (extract_lets +onlyGivenNames x; focus (refine (?_ : Keeps s0 x → _) ?_; rotate_left; dsimp only [x]; clear x; rotate_left; intro hx; clear_value x))
    | (extract_lets +onlyGivenNames x; focus (refine (?_ : Keeps s0 x.1 → _) ?_; rotate_left; dsimp only [x]; clear x; rotate_left; intro hx; clear_value x))
    | (extract_lets +onlyGivenNames x; clear_value x)
    | with_reducible exact hk
    | with_reducible assumption
    | with_reducible apply classC_keeps
    | with_reducible apply fsetAll_keeps
    | with_reducible apply fset_keeps
    | with_reducible apply Keeps.ite
    | with_reducible exact Keeps.upd (by with_reducible assumption)
    | (with_reducible refine Keeps.updLists (by with_reducible assumption) ?_ ?_ ?_ ?_ ?_ <;> first | rfl | exact Nat.le_refl _ | exact Nat.le_max_left _ _ | exact Nat.le_succ _ | exact modAt_length _ _ _ | exact List.length_map _)
    | fail_if_no_progress (with_reducible apply Keeps.upd)
    | fail_if_no_progress (with_reducible refine Keeps.updLists ?_ ?_ ?_ ?_ ?_ ?_; rotate_left; iterate 5 (first | rfl | exact Nat.le_refl _ | exact Nat.le_max_left _ _ | exact Nat.le_succ _ | exact modAt_length _ _ _ | exact List.length_map _))
    | split
    | dsimp only)

theorem poisonHit_keeps {s0 : State} (s : State) (stack g : Nat) (hk : Keeps s0 s) :
    Keeps s0 (State.poisonHit s stack g) := by
  unfold State.poisonHit
  repeat (first
    | intro _
    | (extract_lets +onlyGivenNames x; focus (refine (?_ : Keeps s0 x → _) ?_; rotate_left; dsimp only [x]; clear x; rotate_left; intro hx; clear_value x))
    | (extract_lets +onlyGivenNames x; focus (refine (?_ : Keeps s0 x.1 → _) ?_; rotate_left; dsimp only [x]; clear x; rotate_left; intro hx; clear_value x))
    | (extract_lets +onlyGivenNames x; clear_value x)
    | with_reducible exact hk
    | with_reducible assumption
    | with_reducible apply fset_keeps
    | with_reducible apply classC_keeps
    | with_reducible apply hubFirst_keeps
    | with_reducible apply withHub_keeps
    | with_reducible apply Keeps.ite
    | with_reducible exact Keeps.upd (by with_reducible assumption)
    | (with_reducible refine Keeps.updLists (by with_reducible assumption) ?_ ?_ ?_ ?_ ?_ <;> first | rfl | exact Nat.le_refl _ | exact Nat.le_max_left _ _ | exact Nat.le_succ _ | exact modAt_length _ _ _ | exact List.length_map _)
    | fail_if_no_progress (with_reducible apply Keeps.upd)
    | fail_if_no_progress (with_reducible refine Keeps.updLists ?_ ?_ ?_ ?_ ?_ ?_; rotate_left; iterate 5 (first | rfl | exact Nat.le_refl _ | exact Nat.le_max_left _ _ | exact Nat.le_succ _ | exact modAt_length _ _ _ | exact List.length_map _))
    | split
    | dsimp only)

theorem granuleLost_keeps {s0 : State} (s : State) (stack g : Nat) (hk : Keeps s0 s) :
    Keeps s0 (State.granuleLost s stack g) := by
  unfold State.granuleLost
  repeat (first
    | intro _
    | with_reducible exact hk
    | with_reducible assumption
    | with_reducible apply wrGranule_keeps
    | with_reducible apply drawn_keeps
    | dsimp only)

theorem laneRetire_keeps {s0 : State} (s : State) (stack g lane : Nat) (hk : Keeps s0 s) :
    Keeps s0 (State.laneRetire s stack g lane) := by
  unfold State.laneRetire
  repeat (first
    | intro _
    | (extract_lets +onlyGivenNames x; focus (refine (?_ : Keeps s0 x → _) ?_; rotate_left; dsimp only [x]; clear x; rotate_left; intro hx; clear_value x))
    | (extract_lets +onlyGivenNames x; focus (refine (?_ : Keeps s0 x.1 → _) ?_; rotate_left; dsimp only [x]; clear x; rotate_left; intro hx; clear_value x))
    | (extract_lets +onlyGivenNames x; clear_value x)
    | with_reducible exact hk
    | with_reducible assumption
    | with_reducible apply withHub_keeps
    | with_reducible apply fadd_keeps
    | with_reducible apply setSts_keeps
    | with_reducible apply hubFirst_keeps
    | with_reducible apply fset_keeps
    | with_reducible apply classC_keeps
    | with_reducible exact Keeps.upd (by with_reducible assumption)
    | (with_reducible refine Keeps.updLists (by with_reducible assumption) ?_ ?_ ?_ ?_ ?_ <;> first | rfl | exact Nat.le_refl _ | exact Nat.le_max_left _ _ | exact Nat.le_succ _ | exact modAt_length _ _ _ | exact List.length_map _)
    | fail_if_no_progress (with_reducible apply Keeps.upd)
    | fail_if_no_progress (with_reducible refine Keeps.updLists ?_ ?_ ?_ ?_ ?_ ?_; rotate_left; iterate 5 (first | rfl | exact Nat.le_refl _ | exact Nat.le_max_left _ _ | exact Nat.le_succ _ | exact modAt_length _ _ _ | exact List.length_map _))
    | split
    | dsimp only)

theorem laneError_keeps {s0 : State} (s : State) (stack g : Nat) (lane : Option Nat) (hk : Keeps s0 s) :
    Keeps s0 (State.laneError s stack g lane) := by
  unfold State.laneError
  repeat (first
    | intro _
    | (extract_lets +onlyGivenNames x; focus (refine (?_ : Keeps s0 x → _) ?_; rotate_left; dsimp only [x]; clear x; rotate_left; intro hx; clear_value x))
    | (extract_lets +onlyGivenNames x; focus (refine (?_ : Keeps s0 x.1 → _) ?_; rotate_left; dsimp only [x]; clear x; rotate_left; intro hx; clear_value x))
    | (extract_lets +onlyGivenNames x; clear_value x)
    | with_reducible exact hk
    | with_reducible assumption
    | with_reducible apply withHub_keeps
    | with_reducible apply laneRetire_keeps
    | with_reducible apply Keeps.ite
    | with_reducible exact Keeps.upd (by with_reducible assumption)
    | (with_reducible refine Keeps.updLists (by with_reducible assumption) ?_ ?_ ?_ ?_ ?_ <;> first | rfl | exact Nat.le_refl _ | exact Nat.le_max_left _ _ | exact Nat.le_succ _ | exact modAt_length _ _ _ | exact List.length_map _)
    | fail_if_no_progress (with_reducible apply Keeps.upd)
    | fail_if_no_progress (with_reducible refine Keeps.updLists ?_ ?_ ?_ ?_ ?_ ?_; rotate_left; iterate 5 (first | rfl | exact Nat.le_refl _ | exact Nat.le_max_left _ _ | exact Nat.le_succ _ | exact modAt_length _ _ _ | exact List.length_map _))
    | split
    | dsimp only)

theorem hubSwaps_keeps {s0 : State} (s : State) (hk : Keeps s0 s) :
    Keeps s0 (State.hubSwaps s) := by
  unfold State.hubSwaps
  repeat (first
    | intro _
    | (extract_lets +onlyGivenNames x; focus (refine (?_ : Keeps s0 x → _) ?_; rotate_left; dsimp only [x]; clear x; rotate_left; intro hx; clear_value x))
    | (extract_lets +onlyGivenNames x; focus (refine (?_ : Keeps s0 x.1 → _) ?_; rotate_left; dsimp only [x]; clear x; rotate_left; intro hx; clear_value x))
    | (extract_lets +onlyGivenNames x; clear_value x)
    | with_reducible exact hk
    | with_reducible assumption
    | with_reducible apply withHub_keeps
    | with_reducible apply fset_keeps
    | with_reducible apply trace_keeps
    | with_reducible apply Keeps.ite
    | (with_reducible apply Keeps.foldl; intro _ _ _)
    | (with_reducible apply Keeps.foldlFst; intro _ _ _)
    | with_reducible exact Keeps.upd (by with_reducible assumption)
    | (with_reducible refine Keeps.updLists (by with_reducible assumption) ?_ ?_ ?_ ?_ ?_ <;> first | rfl | exact Nat.le_refl _ | exact Nat.le_max_left _ _ | exact Nat.le_succ _ | exact modAt_length _ _ _ | exact List.length_map _)
    | fail_if_no_progress (with_reducible apply Keeps.upd)
    | fail_if_no_progress (with_reducible refine Keeps.updLists ?_ ?_ ?_ ?_ ?_ ?_; rotate_left; iterate 5 (first | rfl | exact Nat.le_refl _ | exact Nat.le_max_left _ _ | exact Nat.le_succ _ | exact modAt_length _ _ _ | exact List.length_map _))
    | split
    | dsimp only)

theorem eccCorrected_keeps {s0 : State} (s : State) (stack g words : Nat) (lane : Option Nat) (queue : Bool) (hk : Keeps s0 s) :
    Keeps s0 (State.eccCorrected s stack g words lane queue) := by
  unfold State.eccCorrected
  repeat (first
    | intro _
    | (extract_lets +onlyGivenNames x; focus (refine (?_ : Keeps s0 x → _) ?_; rotate_left; dsimp only [x]; clear x; rotate_left; intro hx; clear_value x))
    | (extract_lets +onlyGivenNames x; focus (refine (?_ : Keeps s0 x.1 → _) ?_; rotate_left; dsimp only [x]; clear x; rotate_left; intro hx; clear_value x))
    | (extract_lets +onlyGivenNames x; clear_value x)
    | with_reducible exact hk
    | with_reducible assumption
    | with_reducible apply fadd_keeps
    | with_reducible apply laneError_keeps
    | with_reducible apply withHub_keeps
    | with_reducible apply setSts_keeps
    | with_reducible apply Keeps.ite
    | with_reducible exact Keeps.upd (by with_reducible assumption)
    | (with_reducible refine Keeps.updLists (by with_reducible assumption) ?_ ?_ ?_ ?_ ?_ <;> first | rfl | exact Nat.le_refl _ | exact Nat.le_max_left _ _ | exact Nat.le_succ _ | exact modAt_length _ _ _ | exact List.length_map _)
    | fail_if_no_progress (with_reducible apply Keeps.upd)
    | fail_if_no_progress (with_reducible refine Keeps.updLists ?_ ?_ ?_ ?_ ?_ ?_; rotate_left; iterate 5 (first | rfl | exact Nat.le_refl _ | exact Nat.le_max_left _ _ | exact Nat.le_succ _ | exact modAt_length _ _ _ | exact List.length_map _))
    | split
    | dsimp only)

theorem eccFailed_keeps {s0 : State} (s : State) (stack g : Nat) (ue : Bool) (lane : Option Nat) (hk : Keeps s0 s) :
    Keeps s0 (State.eccFailed s stack g ue lane) := by
  unfold State.eccFailed
  repeat (first
    | intro _
    | (extract_lets +onlyGivenNames x; focus (refine (?_ : Keeps s0 x → _) ?_; rotate_left; dsimp only [x]; clear x; rotate_left; intro hx; clear_value x))
    | (extract_lets +onlyGivenNames x; focus (refine (?_ : Keeps s0 x.1 → _) ?_; rotate_left; dsimp only [x]; clear x; rotate_left; intro hx; clear_value x))
    | (extract_lets +onlyGivenNames x; clear_value x)
    | with_reducible exact hk
    | with_reducible assumption
    | with_reducible apply fadd_keeps
    | with_reducible apply laneError_keeps
    | with_reducible apply Keeps.ite
    | split
    | dsimp only)

theorem deliver_keeps {s0 : State} (s : State) (stack g c : Nat) (data : Granule) (hk : Keeps s0 s) :
    Keeps s0 (State.deliver s stack g c data) := by
  unfold State.deliver
  repeat (first
    | intro _
    | with_reducible exact hk
    | with_reducible assumption
    | with_reducible apply emit_keeps
    | dsimp only)

theorem readOverrun_keeps {s0 : State} (s : State) (stack g c : Nat) (a : Attempt) (hk : Keeps s0 s) :
    Keeps s0 (State.readOverrun s stack g c a) := by
  unfold State.readOverrun
  repeat (first
    | intro _
    | (extract_lets +onlyGivenNames x; focus (refine (?_ : Keeps s0 x → _) ?_; rotate_left; dsimp only [x]; clear x; rotate_left; intro hx; clear_value x))
    | (extract_lets +onlyGivenNames x; focus (refine (?_ : Keeps s0 x.1 → _) ?_; rotate_left; dsimp only [x]; clear x; rotate_left; intro hx; clear_value x))
    | (extract_lets +onlyGivenNames x; clear_value x)
    | with_reducible exact hk
    | with_reducible assumption
    | with_reducible apply fadd_keeps
    | with_reducible apply poisonAdd_keeps
    | with_reducible apply poisonHit_keeps
    | with_reducible apply hubFirst_keeps
    | with_reducible apply classBSts_keeps
    | with_reducible apply deliver_keeps
    | with_reducible apply Keeps.ite
    | split
    | dsimp only)

theorem writeOverrun_keeps {s0 : State} (s : State) (stack g : Nat) (hk : Keeps s0 s) :
    Keeps s0 (State.writeOverrun s stack g) := by
  unfold State.writeOverrun
  repeat (first
    | intro _
    | (extract_lets +onlyGivenNames x; focus (refine (?_ : Keeps s0 x → _) ?_; rotate_left; dsimp only [x]; clear x; rotate_left; intro hx; clear_value x))
    | (extract_lets +onlyGivenNames x; focus (refine (?_ : Keeps s0 x.1 → _) ?_; rotate_left; dsimp only [x]; clear x; rotate_left; intro hx; clear_value x))
    | (extract_lets +onlyGivenNames x; clear_value x)
    | with_reducible exact hk
    | with_reducible assumption
    | with_reducible apply fadd_keeps
    | with_reducible apply hubFirst_keeps
    | with_reducible apply classBSts_keeps
    | with_reducible apply poisonAdd_keeps
    | with_reducible apply granuleLost_keeps
    | dsimp only)

theorem unqueue_keeps {s0 : State} (s : State) (stack g : Nat) (hk : Keeps s0 s) :
    Keeps s0 (State.unqueue s stack g) := by
  unfold State.unqueue
  repeat (first
    | intro _
    | (extract_lets +onlyGivenNames x; focus (refine (?_ : Keeps s0 x → _) ?_; rotate_left; dsimp only [x]; clear x; rotate_left; intro hx; clear_value x))
    | (extract_lets +onlyGivenNames x; focus (refine (?_ : Keeps s0 x.1 → _) ?_; rotate_left; dsimp only [x]; clear x; rotate_left; intro hx; clear_value x))
    | (extract_lets +onlyGivenNames x; focus (refine (?_ : (∀ p a, Keeps s0 p → Keeps s0 (x p a)) → _) ?_; rotate_left; dsimp only [x]; clear x; rotate_left; intro hx; clear_value x))
    | (extract_lets +onlyGivenNames x; focus (refine (?_ : (∀ p a, Keeps s0 p.1 → Keeps s0 (x p a).1) → _) ?_; rotate_left; dsimp only [x]; clear x; rotate_left; intro hx; clear_value x))
    | (extract_lets +onlyGivenNames x; focus (refine (?_ : (∀ p, Keeps s0 p → Keeps s0 (x p)) → _) ?_; rotate_left; dsimp only [x]; clear x; rotate_left; intro hx; clear_value x))
    | (extract_lets +onlyGivenNames x; clear_value x)
    | with_reducible exact hk
    | with_reducible assumption
    | with_reducible apply withHub_keeps
    | with_reducible exact Keeps.upd (by with_reducible assumption)
    | (with_reducible refine Keeps.updLists (by with_reducible assumption) ?_ ?_ ?_ ?_ ?_ <;> first | rfl | exact Nat.le_refl _ | exact Nat.le_max_left _ _ | exact Nat.le_succ _ | exact modAt_length _ _ _ | exact List.length_map _)
    | fail_if_no_progress (with_reducible apply Keeps.upd)
    | fail_if_no_progress (with_reducible refine Keeps.updLists ?_ ?_ ?_ ?_ ?_ ?_; rotate_left; iterate 5 (first | rfl | exact Nat.le_refl _ | exact Nat.le_max_left _ _ | exact Nat.le_succ _ | exact modAt_length _ _ _ | exact List.length_map _))
    | with_reducible apply_assumption
    | dsimp only)

theorem claimRetry_keeps {s0 : State} (s : State) (stack g c : Nat) (write : Option Granule) (a : Attempt) (hk : Keeps s0 s) :
    Keeps s0 (State.claimRetry s stack g c write a) := by
  unfold State.claimRetry
  repeat (first
    | intro _
    | (extract_lets +onlyGivenNames x; focus (refine (?_ : Keeps s0 x → _) ?_; rotate_left; dsimp only [x]; clear x; rotate_left; intro hx; clear_value x))
    | (extract_lets +onlyGivenNames x; focus (refine (?_ : Keeps s0 x.1 → _) ?_; rotate_left; dsimp only [x]; clear x; rotate_left; intro hx; clear_value x))
    | (extract_lets +onlyGivenNames x; clear_value x)
    | with_reducible exact hk
    | with_reducible assumption
    | with_reducible apply writeOverrun_keeps
    | with_reducible apply readOverrun_keeps
    | with_reducible apply withHub_keeps
    | with_reducible apply Keeps.ite
    | with_reducible exact Keeps.upd (by with_reducible assumption)
    | (with_reducible refine Keeps.updLists (by with_reducible assumption) ?_ ?_ ?_ ?_ ?_ <;> first | rfl | exact Nat.le_refl _ | exact Nat.le_max_left _ _ | exact Nat.le_succ _ | exact modAt_length _ _ _ | exact List.length_map _)
    | fail_if_no_progress (with_reducible apply Keeps.upd)
    | fail_if_no_progress (with_reducible refine Keeps.updLists ?_ ?_ ?_ ?_ ?_ ?_; rotate_left; iterate 5 (first | rfl | exact Nat.le_refl _ | exact Nat.le_max_left _ _ | exact Nat.le_succ _ | exact modAt_length _ _ _ | exact List.length_map _))
    | split
    | dsimp only)

theorem readData_keeps {s0 : State} (s : State) (stack g c : Nat) (a : Attempt) (hk : Keeps s0 s) :
    Keeps s0 (State.readData s stack g c a) := by
  unfold State.readData
  repeat (first
    | intro _
    | (extract_lets +onlyGivenNames x; focus (refine (?_ : Keeps s0 x → _) ?_; rotate_left; dsimp only [x]; clear x; rotate_left; intro hx; clear_value x))
    | (extract_lets +onlyGivenNames x; focus (refine (?_ : Keeps s0 x.1 → _) ?_; rotate_left; dsimp only [x]; clear x; rotate_left; intro hx; clear_value x))
    | (extract_lets +onlyGivenNames x; clear_value x)
    | with_reducible exact hk
    | with_reducible assumption
    | with_reducible apply eccCorrected_keeps
    | with_reducible apply deliver_keeps
    | with_reducible apply Keeps.ite
    | split
    | dsimp only)

theorem hubRead_keeps {s0 : State} (s : State) (stack g c : Nat) (a : Attempt) (hk : Keeps s0 s) :
    Keeps s0 (State.hubRead s stack g c a) := by
  unfold State.hubRead
  repeat (first
    | intro _
    | (extract_lets +onlyGivenNames x; focus (refine (?_ : Keeps s0 x → _) ?_; rotate_left; dsimp only [x]; clear x; rotate_left; intro hx; clear_value x))
    | (extract_lets +onlyGivenNames x; focus (refine (?_ : Keeps s0 x.1 → _) ?_; rotate_left; dsimp only [x]; clear x; rotate_left; intro hx; clear_value x))
    | (extract_lets +onlyGivenNames x; clear_value x)
    | with_reducible exact hk
    | with_reducible assumption
    | with_reducible apply upTo_keeps
    | with_reducible apply fadd_keeps
    | with_reducible apply poisonHit_keeps
    | with_reducible apply classBSts_keeps
    | with_reducible apply hubFirst_keeps
    | with_reducible apply deliver_keeps
    | with_reducible apply eccFailed_keeps
    | with_reducible apply claimRetry_keeps
    | with_reducible apply readData_keeps
    | with_reducible apply Keeps.ite
    | split
    | dsimp only)

theorem hubWrite_keeps {s0 : State} (s : State) (stack g c : Nat) (data : Granule) (a : Attempt) (hk : Keeps s0 s) :
    Keeps s0 (State.hubWrite s stack g c data a) := by
  unfold State.hubWrite
  repeat (first
    | intro _
    | (extract_lets +onlyGivenNames x; focus (refine (?_ : Keeps s0 x → _) ?_; rotate_left; dsimp only [x]; clear x; rotate_left; intro hx; clear_value x))
    | (extract_lets +onlyGivenNames x; focus (refine (?_ : Keeps s0 x.1 → _) ?_; rotate_left; dsimp only [x]; clear x; rotate_left; intro hx; clear_value x))
    | (extract_lets +onlyGivenNames x; clear_value x)
    | with_reducible exact hk
    | with_reducible assumption
    | with_reducible apply upTo_keeps
    | with_reducible apply unqueue_keeps
    | with_reducible apply eccFailed_keeps
    | with_reducible apply claimRetry_keeps
    | with_reducible apply withHub_keeps
    | with_reducible apply wrote_keeps
    | with_reducible apply Keeps.ite
    | with_reducible exact Keeps.upd (by with_reducible assumption)
    | (with_reducible refine Keeps.updLists (by with_reducible assumption) ?_ ?_ ?_ ?_ ?_ <;> first | rfl | exact Nat.le_refl _ | exact Nat.le_max_left _ _ | exact Nat.le_succ _ | exact modAt_length _ _ _ | exact List.length_map _)
    | fail_if_no_progress (with_reducible apply Keeps.upd)
    | fail_if_no_progress (with_reducible refine Keeps.updLists ?_ ?_ ?_ ?_ ?_ ?_; rotate_left; iterate 5 (first | rfl | exact Nat.le_refl _ | exact Nat.le_max_left _ _ | exact Nat.le_succ _ | exact modAt_length _ _ _ | exact List.length_map _))
    | split
    | dsimp only)

theorem execHubRead_keeps (at_ stack granule : Nat) (a : Attempt) (s : State) : OutKeeps s (execHubRead at_ stack granule a s) := by
  have hk := Keeps.refl s
  unfold execHubRead
  refine OutKeeps.ite (OutKeeps.next ?_) (OutKeeps.fault _)
  repeat (first
    | intro _
    | with_reducible exact hk
    | with_reducible assumption
    | with_reducible apply live_keeps
    | with_reducible apply hubRead_keeps
    | with_reducible apply Keeps.ite
    | split
    | dsimp only)

theorem execHubWrite_keeps (at_ stack granule : Nat) (data : Granule) (a : Attempt) (s : State) : OutKeeps s (execHubWrite at_ stack granule data a s) := by
  have hk := Keeps.refl s
  unfold execHubWrite
  refine OutKeeps.ite (OutKeeps.next ?_) (OutKeeps.fault _)
  repeat (first
    | intro _
    | with_reducible exact hk
    | with_reducible assumption
    | with_reducible apply live_keeps
    | with_reducible apply hubWrite_keeps
    | with_reducible apply Keeps.ite
    | split
    | dsimp only)

theorem hubRetry_keeps {s0 : State} (s : State) (stack g : Nat) (a : Attempt) (hk : Keeps s0 s) :
    Keeps s0 (State.hubRetry s stack g a) := by
  unfold State.hubRetry
  repeat (first
    | intro _
    | (extract_lets +onlyGivenNames x; focus (refine (?_ : Keeps s0 x → _) ?_; rotate_left; dsimp only [x]; clear x; rotate_left; intro hx; clear_value x))
    | (extract_lets +onlyGivenNames x; focus (refine (?_ : Keeps s0 x.1 → _) ?_; rotate_left; dsimp only [x]; clear x; rotate_left; intro hx; clear_value x))
    | (extract_lets +onlyGivenNames x; focus (refine (?_ : (∀ p a, Keeps s0 p → Keeps s0 (x p a)) → _) ?_; rotate_left; dsimp only [x]; clear x; rotate_left; intro hx; clear_value x))
    | (extract_lets +onlyGivenNames x; focus (refine (?_ : (∀ p a, Keeps s0 p.1 → Keeps s0 (x p a).1) → _) ?_; rotate_left; dsimp only [x]; clear x; rotate_left; intro hx; clear_value x))
    | (extract_lets +onlyGivenNames x; focus (refine (?_ : (∀ p, Keeps s0 p → Keeps s0 (x p)) → _) ?_; rotate_left; dsimp only [x]; clear x; rotate_left; intro hx; clear_value x))
    | (extract_lets +onlyGivenNames x; clear_value x)
    | with_reducible exact hk
    | with_reducible assumption
    | with_reducible apply withHub_keeps
    | with_reducible apply fadd_keeps
    | with_reducible apply classA_keeps
    | with_reducible apply upTo_keeps
    | with_reducible apply laneError_keeps
    | with_reducible apply writeOverrun_keeps
    | with_reducible apply hubStore_keeps
    | with_reducible apply wrote_keeps
    | with_reducible apply readOverrun_keeps
    | with_reducible apply readData_keeps
    | with_reducible apply Keeps.ite
    | with_reducible exact Keeps.upd (by with_reducible assumption)
    | (with_reducible refine Keeps.updLists (by with_reducible assumption) ?_ ?_ ?_ ?_ ?_ <;> first | rfl | exact Nat.le_refl _ | exact Nat.le_max_left _ _ | exact Nat.le_succ _ | exact modAt_length _ _ _ | exact List.length_map _)
    | fail_if_no_progress (with_reducible apply Keeps.upd)
    | fail_if_no_progress (with_reducible refine Keeps.updLists ?_ ?_ ?_ ?_ ?_ ?_; rotate_left; iterate 5 (first | rfl | exact Nat.le_refl _ | exact Nat.le_max_left _ _ | exact Nat.le_succ _ | exact modAt_length _ _ _ | exact List.length_map _))
    | with_reducible apply_assumption
    | split
    | dsimp only)

theorem execHubRetry_keeps (stack granule : Nat) (a : Attempt) (s : State) : OutKeeps s (execHubRetry stack granule a s) := by
  have hk := Keeps.refl s
  unfold execHubRetry
  refine OutKeeps.next ?_
  repeat (first
    | intro _
    | with_reducible exact hk
    | with_reducible assumption
    | with_reducible apply live_keeps
    | with_reducible apply hubRetry_keeps
    | with_reducible apply Keeps.ite
    | split
    | dsimp only)

theorem redFirst_keeps {s0 : State} (s : State) (stack plan part cause : Nat) (hk : Keeps s0 s) :
    Keeps s0 (State.redFirst s stack plan part cause) := by
  unfold State.redFirst
  repeat (first
    | intro _
    | (extract_lets +onlyGivenNames x; focus (refine (?_ : Keeps s0 x → _) ?_; rotate_left; dsimp only [x]; clear x; rotate_left; intro hx; clear_value x))
    | (extract_lets +onlyGivenNames x; focus (refine (?_ : Keeps s0 x.1 → _) ?_; rotate_left; dsimp only [x]; clear x; rotate_left; intro hx; clear_value x))
    | (extract_lets +onlyGivenNames x; clear_value x)
    | with_reducible exact hk
    | with_reducible assumption
    | with_reducible apply record_keeps
    | dsimp only)

theorem addElems_keeps {s0 : State} (s : State) (addr : Nat) (data : Granule) (hk : Keeps s0 s) :
    Keeps s0 (State.addElems s addr data).1 := by
  unfold State.addElems
  repeat (first
    | intro _
    | (extract_lets +onlyGivenNames x; focus (refine (?_ : Keeps s0 x → _) ?_; rotate_left; dsimp only [x]; clear x; rotate_left; intro hx; clear_value x))
    | (extract_lets +onlyGivenNames x; focus (refine (?_ : Keeps s0 x.1 → _) ?_; rotate_left; dsimp only [x]; clear x; rotate_left; intro hx; clear_value x))
    | (extract_lets +onlyGivenNames x; focus (refine (?_ : Keeps s0 x.2 → _) ?_; rotate_left; dsimp only [x]; clear x; rotate_left; intro hx; clear_value x))
    | (extract_lets +onlyGivenNames x; clear_value x)
    | with_reducible exact hk
    | with_reducible assumption
    | with_reducible apply wrN_keeps
    | (with_reducible apply Keeps.foldl; intro _ _ _)
    | (with_reducible apply Keeps.foldlFst; intro _ _ _)
    | dsimp only)

theorem atomicAdd_keeps {s0 : State} (s : State) (stack g c plan part : Nat) (data : Granule) (hk : Keeps s0 s) :
    Keeps s0 (State.atomicAdd s stack g c plan part data) := by
  unfold State.atomicAdd
  repeat (first
    | intro _
    | (extract_lets +onlyGivenNames x; focus (refine (?_ : Keeps s0 x → _) ?_; rotate_left; dsimp only [x]; clear x; rotate_left; intro hx; clear_value x))
    | (extract_lets +onlyGivenNames x; focus (refine (?_ : Keeps s0 x.1 → _) ?_; rotate_left; dsimp only [x]; clear x; rotate_left; intro hx; clear_value x))
    | (extract_lets +onlyGivenNames x; focus (refine (?_ : Keeps s0 x.2 → _) ?_; rotate_left; dsimp only [x]; clear x; rotate_left; intro hx; clear_value x))
    | (extract_lets +onlyGivenNames x; clear_value x)
    | with_reducible exact hk
    | with_reducible assumption
    | with_reducible apply upTo_keeps
    | with_reducible apply fadd_keeps
    | with_reducible apply redFirst_keeps
    | with_reducible apply classBSts_keeps
    | with_reducible apply withHub_keeps
    | with_reducible apply unqueue_keeps
    | with_reducible apply wrote_keeps
    | with_reducible apply hubStore_keeps
    | with_reducible apply addElems_keeps
    | with_reducible apply setSts_keeps
    | with_reducible apply setNonfinite_keeps
    | with_reducible apply Keeps.ite
    | with_reducible exact Keeps.upd (by with_reducible assumption)
    | (with_reducible refine Keeps.updLists (by with_reducible assumption) ?_ ?_ ?_ ?_ ?_ <;> first | rfl | exact Nat.le_refl _ | exact Nat.le_max_left _ _ | exact Nat.le_succ _ | exact modAt_length _ _ _ | exact List.length_map _)
    | fail_if_no_progress (with_reducible apply Keeps.upd)
    | fail_if_no_progress (with_reducible refine Keeps.updLists ?_ ?_ ?_ ?_ ?_ ?_; rotate_left; iterate 5 (first | rfl | exact Nat.le_refl _ | exact Nat.le_max_left _ _ | exact Nat.le_succ _ | exact modAt_length _ _ _ | exact List.length_map _))
    | split
    | dsimp only)

theorem execAtomicAdd_keeps (at_ stack granule plan part : Nat) (data : Granule) (s : State) : OutKeeps s (execAtomicAdd at_ stack granule plan part data s) := by
  have hk := Keeps.refl s
  unfold execAtomicAdd
  refine OutKeeps.ite (OutKeeps.next ?_) (OutKeeps.fault _)
  repeat (first
    | intro _
    | with_reducible exact hk
    | with_reducible assumption
    | with_reducible apply live_keeps
    | with_reducible apply atomicAdd_keeps
    | with_reducible apply Keeps.ite
    | split
    | dsimp only)

theorem execRefresh_keeps (window : Nat) (s : State) : OutKeeps s (execRefresh window s) := by
  have hk := Keeps.refl s
  unfold execRefresh
  refine OutKeeps.next ?_
  repeat (first
    | intro _
    | with_reducible exact hk
    | with_reducible assumption
    | with_reducible apply live_keeps
    | with_reducible apply upTo_keeps
    | with_reducible apply Keeps.ite
    | split
    | dsimp only)

theorem scrubNext_keeps {s0 : State} (s : State) (k : Nat) (hk : Keeps s0 s) :
    Keeps s0 (State.scrubNext s k) := by
  unfold State.scrubNext
  repeat (first
    | intro _
    | (extract_lets +onlyGivenNames x; focus (refine (?_ : Keeps s0 x → _) ?_; rotate_left; dsimp only [x]; clear x; rotate_left; intro hx; clear_value x))
    | (extract_lets +onlyGivenNames x; focus (refine (?_ : Keeps s0 x.1 → _) ?_; rotate_left; dsimp only [x]; clear x; rotate_left; intro hx; clear_value x))
    | (extract_lets +onlyGivenNames x; clear_value x)
    | with_reducible exact hk
    | with_reducible assumption
    | with_reducible apply fset_keeps
    | with_reducible apply fadd_keeps
    | with_reducible apply setSts_keeps
    | with_reducible apply Keeps.ite
    | split
    | dsimp only)

theorem scrub_keeps {s0 : State} (s : State) (stack : Nat) (a : Attempt) (hk : Keeps s0 s) :
    Keeps s0 (State.scrub s stack a) := by
  unfold State.scrub
  repeat (first
    | intro _
    | (extract_lets +onlyGivenNames x; focus (refine (?_ : Keeps s0 x → _) ?_; rotate_left; dsimp only [x]; clear x; rotate_left; intro hx; clear_value x))
    | (extract_lets +onlyGivenNames x; focus (refine (?_ : Keeps s0 x.1 → _) ?_; rotate_left; dsimp only [x]; clear x; rotate_left; intro hx; clear_value x))
    | (extract_lets +onlyGivenNames x; focus (refine (?_ : Keeps s0 x.2 → _) ?_; rotate_left; dsimp only [x]; clear x; rotate_left; intro hx; clear_value x))
    | (extract_lets +onlyGivenNames x; clear_value x)
    | with_reducible exact hk
    | with_reducible assumption
    | with_reducible apply withHub_keeps
    | with_reducible apply fadd_keeps
    | with_reducible apply eccFailed_keeps
    | with_reducible apply setSts_keeps
    | with_reducible apply hubFirst_keeps
    | with_reducible apply poisonAdd_keeps
    | with_reducible apply eccCorrected_keeps
    | with_reducible apply scrubNext_keeps
    | with_reducible apply Keeps.ite
    | with_reducible exact Keeps.upd (by with_reducible assumption)
    | (with_reducible refine Keeps.updLists (by with_reducible assumption) ?_ ?_ ?_ ?_ ?_ <;> first | rfl | exact Nat.le_refl _ | exact Nat.le_max_left _ _ | exact Nat.le_succ _ | exact modAt_length _ _ _ | exact List.length_map _)
    | fail_if_no_progress (with_reducible apply Keeps.upd)
    | fail_if_no_progress (with_reducible refine Keeps.updLists ?_ ?_ ?_ ?_ ?_ ?_; rotate_left; iterate 5 (first | rfl | exact Nat.le_refl _ | exact Nat.le_max_left _ _ | exact Nat.le_succ _ | exact modAt_length _ _ _ | exact List.length_map _))
    | split
    | dsimp only)

theorem execScrub_keeps (at_ stack : Nat) (a : Attempt) (s : State) : OutKeeps s (execScrub at_ stack a s) := by
  have hk := Keeps.refl s
  unfold execScrub
  refine OutKeeps.ite (OutKeeps.next ?_) (OutKeeps.fault _)
  repeat (first
    | intro _
    | (extract_lets +onlyGivenNames x; focus (refine (?_ : Keeps s x → _) ?_; rotate_left; dsimp only [x]; clear x; rotate_left; intro hx; clear_value x))
    | (extract_lets +onlyGivenNames x; focus (refine (?_ : Keeps s x.1 → _) ?_; rotate_left; dsimp only [x]; clear x; rotate_left; intro hx; clear_value x))
    | (extract_lets +onlyGivenNames x; clear_value x)
    | with_reducible exact hk
    | with_reducible assumption
    | with_reducible apply live_keeps
    | with_reducible apply upTo_keeps
    | with_reducible apply scrub_keeps
    | with_reducible apply Keeps.ite
    | split
    | dsimp only)

end Sys2Proof.Laws
end

