-- ==== Sys2Proof/Laws/KeepRegAccess.lean ====
section
/-! SUPPORT. What the operations of Machine/RegAccess.lean keep. -/

namespace Sys2Proof.Laws

open Sys2Proof.Machine

theorem latch_keeps {s0 : State} (s : State) (id : Nat) (hk : Keeps s0 s) :
    Keeps s0 (State.latch s id) := by
  unfold State.latch
  repeat (first
    | intro _
    | (extract_lets +onlyGivenNames x; focus (refine (?_ : Keeps s0 x → _) ?_; rotate_left; dsimp only [x]; clear x; rotate_left; intro hx; clear_value x))
    | (extract_lets +onlyGivenNames x; focus (refine (?_ : Keeps s0 x.1 → _) ?_; rotate_left; dsimp only [x]; clear x; rotate_left; intro hx; clear_value x))
    | (extract_lets +onlyGivenNames x; clear_value x)
    | with_reducible exact hk
    | with_reducible assumption
    | with_reducible apply fsetAll_keeps
    | (with_reducible apply Keeps.foldl; intro _ _ _)
    | (with_reducible apply Keeps.foldlFst; intro _ _ _)
    | with_reducible exact Keeps.upd (by with_reducible assumption)
    | (with_reducible refine Keeps.updLists (by with_reducible assumption) ?_ ?_ ?_ ?_ ?_ <;> first | rfl | exact Nat.le_refl _ | exact Nat.le_max_left _ _ | exact Nat.le_succ _ | exact modAt_length _ _ _ | exact List.length_map _)
    | fail_if_no_progress (with_reducible apply Keeps.upd)
    | fail_if_no_progress (with_reducible refine Keeps.updLists ?_ ?_ ?_ ?_ ?_ ?_; rotate_left; iterate 5 (first | rfl | exact Nat.le_refl _ | exact Nat.le_max_left _ _ | exact Nat.le_succ _ | exact modAt_length _ _ _ | exact List.length_map _))
    | dsimp only)

theorem captureLatch_keeps {s0 : State} (s : State) (src : Nat) (hk : Keeps s0 s) :
    Keeps s0 (State.captureLatch s src) := by
  unfold State.captureLatch
  repeat (first
    | intro _
    | (extract_lets +onlyGivenNames x; focus (refine (?_ : Keeps s0 x → _) ?_; rotate_left; dsimp only [x]; clear x; rotate_left; intro hx; clear_value x))
    | (extract_lets +onlyGivenNames x; focus (refine (?_ : Keeps s0 x.1 → _) ?_; rotate_left; dsimp only [x]; clear x; rotate_left; intro hx; clear_value x))
    | (extract_lets +onlyGivenNames x; clear_value x)
    | with_reducible exact hk
    | with_reducible assumption
    | with_reducible apply latch_keeps
    | with_reducible apply fsetAll_keeps
    | with_reducible apply setSts_keeps
    | with_reducible apply trace_keeps
    | with_reducible apply withPower_keeps
    | with_reducible apply emit_keeps
    | with_reducible apply Keeps.ite
    | with_reducible exact Keeps.upd (by with_reducible assumption)
    | (with_reducible refine Keeps.updLists (by with_reducible assumption) ?_ ?_ ?_ ?_ ?_ <;> first | rfl | exact Nat.le_refl _ | exact Nat.le_max_left _ _ | exact Nat.le_succ _ | exact modAt_length _ _ _ | exact List.length_map _)
    | fail_if_no_progress (with_reducible apply Keeps.upd)
    | fail_if_no_progress (with_reducible refine Keeps.updLists ?_ ?_ ?_ ?_ ?_ ?_; rotate_left; iterate 5 (first | rfl | exact Nat.le_refl _ | exact Nat.le_max_left _ _ | exact Nat.le_succ _ | exact modAt_length _ _ _ | exact List.length_map _))
    | split
    | dsimp only)

theorem captureNext_keeps {s0 : State} (s : State) (hk : Keeps s0 s) :
    Keeps s0 (State.captureNext s) := by
  unfold State.captureNext
  repeat (first
    | intro _
    | (extract_lets +onlyGivenNames x; focus (refine (?_ : Keeps s0 x → _) ?_; rotate_left; dsimp only [x]; clear x; rotate_left; intro hx; clear_value x))
    | (extract_lets +onlyGivenNames x; focus (refine (?_ : Keeps s0 x.1 → _) ?_; rotate_left; dsimp only [x]; clear x; rotate_left; intro hx; clear_value x))
    | (extract_lets +onlyGivenNames x; clear_value x)
    | with_reducible exact hk
    | with_reducible assumption
    | with_reducible apply upTo_keeps
    | with_reducible apply fadd_keeps
    | with_reducible apply setSts_keeps
    | with_reducible apply captureLatch_keeps
    | with_reducible apply Keeps.ite
    | with_reducible exact Keeps.upd (by with_reducible assumption)
    | (with_reducible refine Keeps.updLists (by with_reducible assumption) ?_ ?_ ?_ ?_ ?_ <;> first | rfl | exact Nat.le_refl _ | exact Nat.le_max_left _ _ | exact Nat.le_succ _ | exact modAt_length _ _ _ | exact List.length_map _)
    | fail_if_no_progress (with_reducible apply Keeps.upd)
    | fail_if_no_progress (with_reducible refine Keeps.updLists ?_ ?_ ?_ ?_ ?_ ?_; rotate_left; iterate 5 (first | rfl | exact Nat.le_refl _ | exact Nat.le_max_left _ _ | exact Nat.le_succ _ | exact modAt_length _ _ _ | exact List.length_map _))
    | split
    | dsimp only)

theorem execCapture_keeps (s : State) : OutKeeps s (execCapture s) := by
  have hk := Keeps.refl s
  unfold execCapture
  refine OutKeeps.next ?_
  repeat (first
    | intro _
    | with_reducible exact hk
    | with_reducible assumption
    | with_reducible apply live_keeps
    | with_reducible apply captureNext_keeps
    | dsimp only)

theorem accErr_keeps {s0 : State} (s : State) (cause via off : Nat) (write : Bool) (hk : Keeps s0 s) :
    Keeps s0 (State.accErr s cause via off write) := by
  unfold State.accErr
  repeat (first
    | intro _
    | (extract_lets +onlyGivenNames x; focus (refine (?_ : Keeps s0 x → _) ?_; rotate_left; dsimp only [x]; clear x; rotate_left; intro hx; clear_value x))
    | (extract_lets +onlyGivenNames x; focus (refine (?_ : Keeps s0 x.1 → _) ?_; rotate_left; dsimp only [x]; clear x; rotate_left; intro hx; clear_value x))
    | (extract_lets +onlyGivenNames x; clear_value x)
    | with_reducible exact hk
    | with_reducible assumption
    | with_reducible apply drawn_keeps
    | with_reducible apply record_keeps
    | with_reducible apply fadd_keeps
    | with_reducible apply setSts_keeps
    | with_reducible apply Keeps.ite
    | split
    | dsimp only)

theorem clearRC_keeps {s0 : State} (s : State) (key : Nat) (hk : Keeps s0 s) :
    Keeps s0 (State.clearRC s key) := by
  unfold State.clearRC
  repeat (first
    | intro _
    | (extract_lets +onlyGivenNames x; focus (refine (?_ : Keeps s0 x → _) ?_; rotate_left; dsimp only [x]; clear x; rotate_left; intro hx; clear_value x))
    | (extract_lets +onlyGivenNames x; focus (refine (?_ : Keeps s0 x.1 → _) ?_; rotate_left; dsimp only [x]; clear x; rotate_left; intro hx; clear_value x))
    | (extract_lets +onlyGivenNames x; clear_value x)
    | with_reducible exact hk
    | with_reducible assumption
    | with_reducible apply regPut_keeps
    | with_reducible apply Keeps.ite
    | with_reducible exact Keeps.upd (by with_reducible assumption)
    | (with_reducible refine Keeps.updLists (by with_reducible assumption) ?_ ?_ ?_ ?_ ?_ <;> first | rfl | exact Nat.le_refl _ | exact Nat.le_max_left _ _ | exact Nat.le_succ _ | exact modAt_length _ _ _ | exact List.length_map _)
    | fail_if_no_progress (with_reducible apply Keeps.upd)
    | fail_if_no_progress (with_reducible refine Keeps.updLists ?_ ?_ ?_ ?_ ?_ ?_; rotate_left; iterate 5 (first | rfl | exact Nat.le_refl _ | exact Nat.le_max_left _ _ | exact Nat.le_succ _ | exact modAt_length _ _ _ | exact List.length_map _))
    | split
    | dsimp only)

theorem storeWrite_keeps {s0 : State} (s : State) (key new : Nat) (hk : Keeps s0 s) :
    Keeps s0 (State.storeWrite s key new) := by
  unfold State.storeWrite
  repeat (first
    | intro _
    | (extract_lets +onlyGivenNames x; focus (refine (?_ : Keeps s0 x → _) ?_; rotate_left; dsimp only [x]; clear x; rotate_left; intro hx; clear_value x))
    | (extract_lets +onlyGivenNames x; focus (refine (?_ : Keeps s0 x.1 → _) ?_; rotate_left; dsimp only [x]; clear x; rotate_left; intro hx; clear_value x))
    | (extract_lets +onlyGivenNames x; clear_value x)
    | with_reducible exact hk
    | with_reducible assumption
    | with_reducible apply clksrcWrite_keeps
    | with_reducible apply hdmWrite_keeps
    | with_reducible apply regPut_keeps
    | with_reducible apply Keeps.ite
    | with_reducible exact Keeps.upd (by with_reducible assumption)
    | (with_reducible refine Keeps.updLists (by with_reducible assumption) ?_ ?_ ?_ ?_ ?_ <;> first | rfl | exact Nat.le_refl _ | exact Nat.le_max_left _ _ | exact Nat.le_succ _ | exact modAt_length _ _ _ | exact List.length_map _)
    | fail_if_no_progress (with_reducible apply Keeps.upd)
    | fail_if_no_progress (with_reducible refine Keeps.updLists ?_ ?_ ?_ ?_ ?_ ?_; rotate_left; iterate 5 (first | rfl | exact Nat.le_refl _ | exact Nat.le_max_left _ _ | exact Nat.le_succ _ | exact modAt_length _ _ _ | exact List.length_map _))
    | split
    | dsimp only)

theorem pulses_keeps {s0 : State} (s : State) (key v : Nat) (o : Outer) (hk : Keeps s0 s) :
    Keeps s0 (State.pulses s key v o) := by
  unfold State.pulses
  repeat (first
    | intro _
    | (extract_lets +onlyGivenNames x; focus (refine (?_ : Keeps s0 x → _) ?_; rotate_left; dsimp only [x]; clear x; rotate_left; intro hx; clear_value x))
    | (extract_lets +onlyGivenNames x; focus (refine (?_ : Keeps s0 x.1 → _) ?_; rotate_left; dsimp only [x]; clear x; rotate_left; intro hx; clear_value x))
    | (extract_lets +onlyGivenNames x; focus (refine (?_ : (∀ p a, Keeps s0 p → Keeps s0 (x p a)) → _) ?_; rotate_left; dsimp only [x]; clear x; rotate_left; intro hx; clear_value x))
    | (extract_lets +onlyGivenNames x; focus (refine (?_ : (∀ p a, Keeps s0 p.1 → Keeps s0 (x p a).1) → _) ?_; rotate_left; dsimp only [x]; clear x; rotate_left; intro hx; clear_value x))
    | (extract_lets +onlyGivenNames x; focus (refine (?_ : (∀ p, Keeps s0 p → Keeps s0 (x p)) → _) ?_; rotate_left; dsimp only [x]; clear x; rotate_left; intro hx; clear_value x))
    | (extract_lets +onlyGivenNames x; clear_value x)
    | with_reducible exact hk
    | with_reducible assumption
    | with_reducible apply attendAck_keeps
    | with_reducible apply pivotLogClear_keeps
    | with_reducible apply hrdGo_keeps
    | with_reducible apply powerGo_keeps
    | with_reducible apply capOverride_keeps
    | with_reducible apply benchGo_keeps
    | with_reducible apply holdRelease_keeps
    | with_reducible apply mailboxGo_keeps
    | with_reducible apply captureSend_keeps
    | with_reducible apply rearm_keeps
    | with_reducible apply captureNow_keeps
    | with_reducible apply armEdge_keeps
    | with_reducible apply disarm_keeps
    | with_reducible apply Keeps.ite
    | with_reducible exact Keeps.upd (by with_reducible assumption)
    | (with_reducible refine Keeps.updLists (by with_reducible assumption) ?_ ?_ ?_ ?_ ?_ <;> first | rfl | exact Nat.le_refl _ | exact Nat.le_max_left _ _ | exact Nat.le_succ _ | exact modAt_length _ _ _ | exact List.length_map _)
    | fail_if_no_progress (with_reducible apply Keeps.upd)
    | fail_if_no_progress (with_reducible refine Keeps.updLists ?_ ?_ ?_ ?_ ?_ ?_; rotate_left; iterate 5 (first | rfl | exact Nat.le_refl _ | exact Nat.le_max_left _ _ | exact Nat.le_succ _ | exact modAt_length _ _ _ | exact List.length_map _))
    | with_reducible apply_assumption
    | split
    | dsimp only)

theorem regWrite_keeps {s0 : State} (s : State) (key view via off v : Nat) (o : Outer) (hk : Keeps s0 s) :
    Keeps s0 (State.regWrite s key view via off v o) := by
  unfold State.regWrite
  repeat (first
    | intro _
    | (extract_lets +onlyGivenNames x; focus (refine (?_ : Keeps s0 x → _) ?_; rotate_left; dsimp only [x]; clear x; rotate_left; intro hx; clear_value x))
    | (extract_lets +onlyGivenNames x; focus (refine (?_ : Keeps s0 x.1 → _) ?_; rotate_left; dsimp only [x]; clear x; rotate_left; intro hx; clear_value x))
    | (extract_lets +onlyGivenNames x; clear_value x)
    | with_reducible exact hk
    | with_reducible assumption
    | with_reducible apply storeWrite_keeps
    | with_reducible apply irqEdge_keeps
    | with_reducible apply pulses_keeps
    | with_reducible apply accErr_keeps
    | with_reducible apply Keeps.ite
    | with_reducible exact Keeps.upd (by with_reducible assumption)
    | (with_reducible refine Keeps.updLists (by with_reducible assumption) ?_ ?_ ?_ ?_ ?_ <;> first | rfl | exact Nat.le_refl _ | exact Nat.le_max_left _ _ | exact Nat.le_succ _ | exact modAt_length _ _ _ | exact List.length_map _)
    | fail_if_no_progress (with_reducible apply Keeps.upd)
    | fail_if_no_progress (with_reducible refine Keeps.updLists ?_ ?_ ?_ ?_ ?_ ?_; rotate_left; iterate 5 (first | rfl | exact Nat.le_refl _ | exact Nat.le_max_left _ _ | exact Nat.le_succ _ | exact modAt_length _ _ _ | exact List.length_map _))
    | split
    | dsimp only)

theorem regRead_keeps {s0 : State} (s : State) (key view : Nat) (hk : Keeps s0 s) :
    Keeps s0 (State.regRead s key view).2 := by
  unfold State.regRead
  repeat (first
    | intro _
    | with_reducible exact hk
    | with_reducible assumption
    | with_reducible apply clearRC_keeps
    | with_reducible apply Keeps.ite
    | split
    | dsimp only)

theorem accDone_keeps {s0 : State} (s : State) (w done : Nat) (data : Option Word64) (hk : Keeps s0 s) :
    Keeps s0 (State.accDone s w done data) := by
  unfold State.accDone
  repeat (first
    | intro _
    | (extract_lets +onlyGivenNames x; focus (refine (?_ : Keeps s0 x → _) ?_; rotate_left; dsimp only [x]; clear x; rotate_left; intro hx; clear_value x))
    | (extract_lets +onlyGivenNames x; focus (refine (?_ : Keeps s0 x.1 → _) ?_; rotate_left; dsimp only [x]; clear x; rotate_left; intro hx; clear_value x))
    | (extract_lets +onlyGivenNames x; clear_value x)
    | with_reducible exact hk
    | with_reducible assumption
    | with_reducible apply emit_keeps
    | with_reducible exact Keeps.upd (by with_reducible assumption)
    | (with_reducible refine Keeps.updLists (by with_reducible assumption) ?_ ?_ ?_ ?_ ?_ <;> first | rfl | exact Nat.le_refl _ | exact Nat.le_max_left _ _ | exact Nat.le_succ _ | exact modAt_length _ _ _ | exact List.length_map _)
    | fail_if_no_progress (with_reducible apply Keeps.upd)
    | fail_if_no_progress (with_reducible refine Keeps.updLists ?_ ?_ ?_ ?_ ?_ ?_; rotate_left; iterate 5 (first | rfl | exact Nat.le_refl _ | exact Nat.le_max_left _ _ | exact Nat.le_succ _ | exact modAt_length _ _ _ | exact List.length_map _))
    | split
    | dsimp only)

theorem routeRead_keeps {s0 : State} (s : State) (w : Nat) (time : Nat × Nat) (f : State → Word64 × State)
    (ht : ∀ s, Keeps s0 s → Keeps s0 (f s).2) (hk : Keeps s0 s) : Keeps s0 (State.routeRead s w time f) := by
  unfold State.routeRead
  dsimp only
  generalize s.accStart w true = a
  have k := ht { s with now := max s.now (a + time.2) } ⟨hk.pending, Nat.le_trans hk.now (Nat.le_max_left _ _), hk.inv⟩
  exact accDone_keeps _ _ _ _ ⟨k.pending, hk.now, k.inv⟩

theorem routeWrite_keeps {s0 : State} (s : State) (w : Nat) (time : Nat × Nat) (t : State → State) (ht : ∀ s, Keeps s0 s → Keeps s0 (t s)) (hk : Keeps s0 s) :
    Keeps s0 (State.routeWrite s w time t) := by
  unfold State.routeWrite
  repeat (first
    | intro _
    | (extract_lets +onlyGivenNames x; focus (refine (?_ : Keeps s0 x → _) ?_; rotate_left; dsimp only [x]; clear x; rotate_left; intro hx; clear_value x))
    | (extract_lets +onlyGivenNames x; focus (refine (?_ : Keeps s0 x.1 → _) ?_; rotate_left; dsimp only [x]; clear x; rotate_left; intro hx; clear_value x))
    | (extract_lets +onlyGivenNames x; focus (refine (?_ : Keeps s0 x.2 → _) ?_; rotate_left; dsimp only [x]; clear x; rotate_left; intro hx; clear_value x))
    | (extract_lets +onlyGivenNames x; clear_value x)
    | with_reducible exact hk
    | with_reducible assumption
    | apply ht
    | with_reducible apply atCycle_keeps
    | with_reducible apply accDone_keeps
    | dsimp only)

theorem routeErr_keeps {s0 : State} (s : State) (w cause via off rd wr : Nat) (write : Bool) (d : Word64) (hk : Keeps s0 s) :
    Keeps s0 (State.routeErr s w cause via off rd wr write d) := by
  unfold State.routeErr
  repeat (first
    | intro _
    | (extract_lets +onlyGivenNames x; focus (refine (?_ : Keeps s0 x → _) ?_; rotate_left; dsimp only [x]; clear x; rotate_left; intro hx; clear_value x))
    | (extract_lets +onlyGivenNames x; focus (refine (?_ : Keeps s0 x.1 → _) ?_; rotate_left; dsimp only [x]; clear x; rotate_left; intro hx; clear_value x))
    | (extract_lets +onlyGivenNames x; clear_value x)
    | with_reducible exact hk
    | with_reducible assumption
    | with_reducible apply accErr_keeps
    | with_reducible apply accDone_keeps
    | with_reducible apply Keeps.ite
    | split
    | dsimp only)

theorem mboxWrite_keeps {s0 : State} : ∀ (n : Nat) (s : State) (a v : Nat), Keeps s0 s → Keeps s0 (State.mboxWrite s a n v)
  | 0, _, _, _, h => h
  | n + 1, _, _, _, h => mboxWrite_keeps n _ _ _ (mboxPut_keeps _ _ _ h)

theorem mboxAccess_keeps {s0 : State} (s : State) (x size : Nat) (write : Option Nat) (hk : Keeps s0 s) :
    Keeps s0 (State.mboxAccess s x size write) := by
  unfold State.mboxAccess
  repeat (first
    | intro _
    | (extract_lets +onlyGivenNames x; focus (refine (?_ : Keeps s0 x → _) ?_; rotate_left; dsimp only [x]; clear x; rotate_left; intro hx; clear_value x))
    | (extract_lets +onlyGivenNames x; focus (refine (?_ : Keeps s0 x.1 → _) ?_; rotate_left; dsimp only [x]; clear x; rotate_left; intro hx; clear_value x))
    | (extract_lets +onlyGivenNames x; clear_value x)
    | with_reducible exact hk
    | with_reducible assumption
    | with_reducible apply routeWrite_keeps
    | with_reducible apply mboxWrite_keeps
    | with_reducible apply routeRead_keeps
    | with_reducible apply drawn_keeps
    | with_reducible apply Keeps.ite
    | with_reducible exact Keeps.upd (by with_reducible assumption)
    | (with_reducible refine Keeps.updLists (by with_reducible assumption) ?_ ?_ ?_ ?_ ?_ <;> first | rfl | exact Nat.le_refl _ | exact Nat.le_max_left _ _ | exact Nat.le_succ _ | exact modAt_length _ _ _ | exact List.length_map _)
    | fail_if_no_progress (with_reducible apply Keeps.upd)
    | fail_if_no_progress (with_reducible refine Keeps.updLists ?_ ?_ ?_ ?_ ?_ ?_; rotate_left; iterate 5 (first | rfl | exact Nat.le_refl _ | exact Nat.le_max_left _ _ | exact Nat.le_succ _ | exact modAt_length _ _ _ | exact List.length_map _))
    | split
    | dsimp only)

theorem pf0Access_keeps {s0 : State} (s : State) (via off size : Nat) (write : Option Nat) (o : Outer) (hk : Keeps s0 s) :
    Keeps s0 (State.pf0Access s via off size write o) := by
  unfold State.pf0Access
  repeat (first
    | intro _
    | (extract_lets +onlyGivenNames x; focus (refine (?_ : Keeps s0 x → _) ?_; rotate_left; dsimp only [x]; clear x; rotate_left; intro hx; clear_value x))
    | (extract_lets +onlyGivenNames x; focus (refine (?_ : Keeps s0 x.1 → _) ?_; rotate_left; dsimp only [x]; clear x; rotate_left; intro hx; clear_value x))
    | (extract_lets +onlyGivenNames x; focus (refine (?_ : Keeps s0 x.2 → _) ?_; rotate_left; dsimp only [x]; clear x; rotate_left; intro hx; clear_value x))
    | (extract_lets +onlyGivenNames x; clear_value x)
    | with_reducible exact hk
    | with_reducible assumption
    | with_reducible apply routeErr_keeps
    | with_reducible apply accErr_keeps
    | with_reducible apply routeWrite_keeps
    | with_reducible apply routeRead_keeps
    | with_reducible apply portWrite_keeps
    | with_reducible apply mboxAccess_keeps
    | with_reducible apply regWrite_keeps
    | with_reducible apply regRead_keeps
    | with_reducible apply Keeps.ite
    | with_reducible exact Keeps.upd (by with_reducible assumption)
    | (with_reducible refine Keeps.updLists (by with_reducible assumption) ?_ ?_ ?_ ?_ ?_ <;> first | rfl | exact Nat.le_refl _ | exact Nat.le_max_left _ _ | exact Nat.le_succ _ | exact modAt_length _ _ _ | exact List.length_map _)
    | fail_if_no_progress (with_reducible apply Keeps.upd)
    | fail_if_no_progress (with_reducible refine Keeps.updLists ?_ ?_ ?_ ?_ ?_ ?_; rotate_left; iterate 5 (first | rfl | exact Nat.le_refl _ | exact Nat.le_max_left _ _ | exact Nat.le_succ _ | exact modAt_length _ _ _ | exact List.length_map _))
    | split
    | dsimp only)

theorem scanRead_keeps {s0 : State} : ∀ (n : Nat) (s : State) (a : Nat), Keeps s0 s → Keeps s0 (State.scanRead s a n).2
  | 0, _, _, h => h
  | n + 1, s, a, h => by
    rw [State.scanRead]
    split
    · exact scanRead_keeps n _ _ h
    · split
      · exact scanRead_keeps n _ _ h
      · exact scanRead_keeps n _ _ (drawn_keeps _ h)

theorem scanWrite_keeps {s0 : State} : ∀ (n : Nat) (s : State) (a v : Nat), Keeps s0 s → Keeps s0 (State.scanWrite s a n v)
  | 0, _, _, _, h => h
  | n + 1, _, _, _, h => scanWrite_keeps n _ _ _ (withBench_keeps _ _ h)

theorem benchRead_keeps {s0 : State} (s : State) (off : Nat) (r : Word64 × State) (h : Keeps s0 s)
    (e : State.benchRead s off = some r) : Keeps s0 r.2 := by
  unfold State.benchRead at e
  dsimp only at e
  split at e
  · cases e; exact h
  · split at e
    · split at e <;> cases e
      · exact h
      · exact scanRead_keeps _ _ _ h
    · split at e
      · split at e <;> cases e
        · exact h
        · exact regRead_keeps _ _ _ h
      · cases e

theorem benchRead_getD_keeps {s0 : State} (s : State) (off : Nat) (h : Keeps s0 s) :
    Keeps s0 ((State.benchRead s off).getD (0, s)).2 := by
  cases e : State.benchRead s off with
  | none => exact h
  | some r => exact benchRead_keeps s off r h e

theorem benchWrite_keeps {s0 : State} (s : State) (off v : Nat) (o : Outer) (t : State) (h : Keeps s0 s)
    (e : State.benchWrite s off v o = some t) : Keeps s0 t := by
  unfold State.benchWrite at e
  dsimp only at e
  split at e
  · cases e; exact withBench_keeps _ _ h
  · split at e
    · cases e; exact scanWrite_keeps _ _ _ _ h
    · split at e
      · cases e; exact regWrite_keeps _ _ _ _ _ _ _ h
      · cases e

theorem benchWrite_getD_keeps {s0 : State} (s : State) (off v : Nat) (o : Outer) (h : Keeps s0 s) :
    Keeps s0 ((State.benchWrite s off v o).getD s) := by
  cases e : State.benchWrite s off v o with
  | none => exact h
  | some r => exact benchWrite_keeps s off v o r h e

theorem benchAccess_keeps {s0 : State} (s : State) (off size : Nat) (write : Option Nat) (o : Outer) (hk : Keeps s0 s) :
    Keeps s0 (State.benchAccess s off size write o) := by
  unfold State.benchAccess
  repeat (first
    | intro _
    | (extract_lets +onlyGivenNames x; focus (refine (?_ : Keeps s0 x → _) ?_; rotate_left; dsimp only [x]; clear x; rotate_left; intro hx; clear_value x))
    | (extract_lets +onlyGivenNames x; focus (refine (?_ : Keeps s0 x.1 → _) ?_; rotate_left; dsimp only [x]; clear x; rotate_left; intro hx; clear_value x))
    | (extract_lets +onlyGivenNames x; clear_value x)
    | with_reducible exact hk
    | with_reducible assumption
    | with_reducible apply accErr_keeps
    | with_reducible apply routeErr_keeps
    | with_reducible apply routeWrite_keeps
    | with_reducible apply routeRead_keeps
    | with_reducible apply Keeps.ite
    | with_reducible exact Keeps.upd (by with_reducible assumption)
    | (with_reducible refine Keeps.updLists (by with_reducible assumption) ?_ ?_ ?_ ?_ ?_ <;> first | rfl | exact Nat.le_refl _ | exact Nat.le_max_left _ _ | exact Nat.le_succ _ | exact modAt_length _ _ _ | exact List.length_map _)
    | fail_if_no_progress (with_reducible apply Keeps.upd)
    | fail_if_no_progress (with_reducible refine Keeps.updLists ?_ ?_ ?_ ?_ ?_ ?_; rotate_left; iterate 5 (first | rfl | exact Nat.le_refl _ | exact Nat.le_max_left _ _ | exact Nat.le_succ _ | exact modAt_length _ _ _ | exact List.length_map _))
    | with_reducible apply benchRead_getD_keeps
    | exact benchRead_keeps _ _ _ (by with_reducible assumption) (by assumption)
    | with_reducible apply benchWrite_getD_keeps
    | exact benchWrite_keeps _ _ _ _ _ (by with_reducible assumption) (by assumption)
    | split
    | dsimp only)

theorem access_keeps {s0 : State} (s : State) (at_ via off size : Nat) (write : Option Nat) (o : Outer) (hk : Keeps s0 s) :
    Keeps s0 (State.access s at_ via off size write o) := by
  unfold State.access
  repeat (first
    | intro _
    | (extract_lets +onlyGivenNames x; focus (refine (?_ : Keeps s0 x → _) ?_; rotate_left; dsimp only [x]; clear x; rotate_left; intro hx; clear_value x))
    | (extract_lets +onlyGivenNames x; focus (refine (?_ : Keeps s0 x.1 → _) ?_; rotate_left; dsimp only [x]; clear x; rotate_left; intro hx; clear_value x))
    | (extract_lets +onlyGivenNames x; clear_value x)
    | with_reducible exact hk
    | with_reducible assumption
    | with_reducible apply upTo_keeps
    | with_reducible apply benchAccess_keeps
    | with_reducible apply pf0Access_keeps
    | with_reducible apply Keeps.ite
    | split
    | dsimp only)

theorem execRegWrite_keeps (at_ via off size : Nat) (value : BitVec 512) (outer : Outer) (s : State) : OutKeeps s (execRegWrite at_ via off size value outer s) := by
  have hk := Keeps.refl s
  unfold execRegWrite
  refine OutKeeps.next ?_
  repeat (first
    | intro _
    | with_reducible exact hk
    | with_reducible assumption
    | with_reducible apply access_keeps
    | dsimp only)

theorem execAliasWrite_keeps (at_ view off : Nat) (value : Word64) (outer : Outer) (s : State) : OutKeeps s (execAliasWrite at_ view off value outer s) := by
  have hk := Keeps.refl s
  unfold execAliasWrite
  refine OutKeeps.next ?_
  repeat (first
    | intro _
    | with_reducible exact hk
    | with_reducible assumption
    | with_reducible apply access_keeps
    | dsimp only)

theorem execRegReadClear_keeps (at_ via off size : Nat) (s : State) : OutKeeps s (execRegReadClear at_ via off size s) := by
  have hk := Keeps.refl s
  unfold execRegReadClear
  refine OutKeeps.next ?_
  repeat (first
    | intro _
    | with_reducible exact hk
    | with_reducible assumption
    | with_reducible apply access_keeps
    | dsimp only)

theorem execAccessReloadHeld_keeps (at_ via off size : Nat) (write : Option Word64) (outer : Outer) (s : State) : OutKeeps s (execAccessReloadHeld at_ via off size write outer s) := by
  have hk := Keeps.refl s
  unfold execAccessReloadHeld
  refine OutKeeps.next ?_
  repeat (first
    | intro _
    | with_reducible exact hk
    | with_reducible assumption
    | with_reducible apply access_keeps
    | dsimp only)

theorem execAccessError_keeps (at_ via off size : Nat) (write : Option Word64) (outer : Outer) (s : State) : OutKeeps s (execAccessError at_ via off size write outer s) := by
  have hk := Keeps.refl s
  unfold execAccessError
  refine OutKeeps.next ?_
  repeat (first
    | intro _
    | with_reducible exact hk
    | with_reducible assumption
    | with_reducible apply access_keeps
    | dsimp only)

theorem execHdmWrite_keeps (at_ piece : Nat) (value : Word64) (s : State) : OutKeeps s (execHdmWrite at_ piece value s) := by
  have hk := Keeps.refl s
  unfold execHdmWrite
  refine OutKeeps.next ?_
  repeat (first
    | intro _
    | with_reducible exact hk
    | with_reducible assumption
    | with_reducible apply access_keeps
    | dsimp only)

theorem execClksrcWrite_keeps (at_ src : Nat) (s : State) : OutKeeps s (execClksrcWrite at_ src s) := by
  have hk := Keeps.refl s
  unfold execClksrcWrite
  refine OutKeeps.next ?_
  repeat (first
    | intro _
    | with_reducible exact hk
    | with_reducible assumption
    | with_reducible apply access_keeps
    | dsimp only)

end Sys2Proof.Laws
end

