-- ==== Sys2Proof/Laws/Mem.lean ====
section
/-! SUPPORT. Laws of memory: a byte read back after it is written, the bytes that a write leaves alone, and the canonical
form. -/

namespace Sys2Proof.Laws

open Sys2Proof.Machine

theorem rd8_congr {s t : State} (h : t.mem = s.mem) (a : Nat) : t.rd8 a = s.rd8 a := by
  unfold State.rd8; rw [h]

theorem rdN_congr {s t : State} (h : ∀ a, t.rd8 a = s.rd8 a) : ∀ (n a : Nat), t.rdN a n = s.rdN a n
  | 0, _ => rfl
  | n + 1, a => by simp only [State.rdN, h, rdN_congr h n]

theorem rd8_wr8_same (s : State) (a : Nat) (v : Byte) (h : tabWf memDefault s.mem = true) : (s.wr8 a v).rd8 a = v :=
  tabGet_put _ _ _ _ h

theorem rd8_wr8_ne (s : State) (a b : Nat) (v : Byte) (h : b ≠ a) : (s.wr8 a v).rd8 b = s.rd8 b :=
  tabGet_tabPut_ne _ _ _ _ h _

theorem wf_wr8 (s : State) (a : Nat) (v : Byte) (h : tabWf memDefault s.mem = true) :
    tabWf memDefault (s.wr8 a v).mem = true := tabWf_tabPut _ _ _ _ h

/-- Bytes outside the run that a wide write stores keep their value. -/
theorem rd8_wrN_out (b : Nat) : ∀ (n : Nat) (s : State) (a v : Nat), (b < a ∨ a + n ≤ b) →
    (s.wrN a n v).rd8 b = s.rd8 b
  | 0, _, _, _, _ => rfl
  | n + 1, s, a, v, h => by
    simp only [State.wrN]
    rw [rd8_wrN_out b n _ (a + 1) (v / 256) (by omega), rd8_wr8_ne _ _ _ _ (by omega)]

theorem wf_wrN : ∀ (n : Nat) (s : State) (a v : Nat), tabWf memDefault s.mem = true →
    tabWf memDefault (s.wrN a n v).mem = true
  | 0, _, _, _, h => h
  | n + 1, s, a, v, h => by simpa only [State.wrN] using wf_wrN n _ (a + 1) (v / 256) (wf_wr8 s a _ h)

/-- A wide read of what a wide write stored. -/
theorem rdN_wrN : ∀ (n : Nat) (s : State) (a v : Nat), tabWf memDefault s.mem = true →
    (s.wrN a n v).rdN a n = v % 256 ^ n
  | 0, _, _, _, _ => by simp [State.rdN, Nat.mod_one]
  | n + 1, s, a, v, h => by
    simp only [State.rdN, State.wrN]
    rw [rdN_wrN n _ (a + 1) (v / 256) (wf_wr8 s a _ h), rd8_wrN_out a n _ (a + 1) _ (by omega), rd8_wr8_same _ _ _ h]
    simp only [BitVec.toNat_ofNat]
    have hp : (256 : Nat) ^ (n + 1) = 256 * 256 ^ n := by rw [Nat.pow_succ, Nat.mul_comm]
    rw [hp, Nat.mod_mul]

theorem rd8_wrGranule_out (s : State) (a b : Nat) (g : Granule) (h : b < a ∨ a + 256 ≤ b) :
    (s.wrGranule a g).rd8 b = s.rd8 b := rd8_wrN_out b 256 s a _ h

theorem rdGranule_wrGranule (s : State) (a : Nat) (g : Granule) (h : tabWf memDefault s.mem = true) :
    (s.wrGranule a g).rdGranule a = g := by
  unfold State.rdGranule State.wrGranule
  rw [rdN_wrN _ _ _ _ h]
  apply BitVec.eq_of_toNat_eq
  rw [BitVec.toNat_ofNat]
  have h1 : (256 : Nat) ^ 256 = 2 ^ 2048 := by
    have h2 : ∀ k : Nat, (256 : Nat) ^ k = 2 ^ (8 * k) := fun k => by rw [Nat.pow_mul]
    rw [h2]
  rw [h1, Nat.mod_mod]
  exact Nat.mod_eq_of_lt g.isLt

/-- What a write leaves of the fields other than memory. -/
theorem wrN_other : ∀ (n : Nat) (s : State) (a v : Nat), s.wrN a n v = { s with mem := (s.wrN a n v).mem }
  | 0, _, _, _ => rfl
  | n + 1, s, a, v => by
    simp only [State.wrN]
    rw [wrN_other n (s.wr8 a _) (a + 1) (v / 256)]
    rfl

theorem wrGranule_other (s : State) (a : Nat) (g : Granule) :
    s.wrGranule a g = { s with mem := (s.wrGranule a g).mem } := wrN_other _ _ _ _

theorem rd8_wrBytes_out (b : Nat) : ∀ (l : List Byte) (s : State) (a : Nat), (b < a ∨ a + l.length ≤ b) →
    (s.wrBytes a l).rd8 b = s.rd8 b
  | [], _, _, _ => rfl
  | x :: l, s, a, h => by
    simp only [State.wrBytes]
    rw [rd8_wrBytes_out b l _ (a + 1) (by simp only [List.length_cons] at h; omega), rd8_wr8_ne _ _ _ _
      (by simp only [List.length_cons] at h; omega)]

/-- Clearing a range brings its bytes to zero and leaves the others alone. -/
theorem tabGet_tabClear {β : Type} (d : Nat → β) (p : Nat → Bool) (k : Nat) :
    ∀ (t : List (Nat × β)), tabGet d (tabClear p t) k = if p k then d k else tabGet d t k
  | [] => by simp [tabClear, tabGet]
  | (a, v) :: r => by
    have ih := tabGet_tabClear d p k r
    unfold tabClear
    by_cases ha : p a = true
    · rw [if_pos ha, ih]
      by_cases hk : a = k
      · subst hk; simp [ha]
      · simp [tabGet, hk]
    · rw [if_neg ha]
      by_cases hk : a = k
      · subst hk; simp [tabGet, ha]
      · simp [tabGet, hk, ih]

theorem rd8_zero (s : State) (a b k : Nat) : (s.zero a b).rd8 k = if a ≤ k ∧ k < b then 0 else s.rd8 k := by
  unfold State.rd8 State.zero
  simp only [tabGet_tabClear]
  by_cases h : a ≤ k ∧ k < b <;> simp [h, memDefault]

end Sys2Proof.Laws
end

