-- ==== Sys2Proof/Laws/Walk.lean ====
section
/-! SUPPORT. The walk of a context's tables without the places of the tables: an entry is valid exactly where the pages that
it spans meet a mapped region (R435, R436), wherever the hull keeps the table. -/

namespace Sys2Proof.Laws

open Sys2Proof Sys2Proof.Machine

/-- V of a table entry. -/
theorem tableEntry_valid (f : ImageFile) (m c level a : Nat) : bvBits (tableEntry f m c level a) 0 1 =
    if ((tableRegions f m).filter (fun r => meet (a / levelSpan level * levelSpan level) (levelSpan level) r.base r.len)).isEmpty
      then 0 else 1 := by
  unfold tableEntry
  dsimp only
  split
  · rfl
  · split <;> simp only [bvBits, getBits, BitVec.toNat_ofNat] <;> omega

/-- A walk reaches its leaf exactly where every level's span meets a mapped region. -/
theorem tableWalk_eq (f : ImageFile) (m c a : Nat) : tableWalk f m c a =
    if (range' 0 4).all (fun level => !((tableRegions f m).filter (fun r =>
      meet (a / levelSpan level * levelSpan level) (levelSpan level) r.base r.len)).isEmpty) then some (tableEntry f m c 3 a)
    else none := by
  unfold tableWalk
  simp only [tableEntry_valid]
  have e : ∀ b : Bool, ((if b = true then 0 else 1 : Nat) == 1) = !b := by decide
  simp only [e]

end Sys2Proof.Laws
end

