-- ==== Sys2Proof/WellFormed.lean ====
section
/-! DEFINITION. Which commands name things that exist: tiles 0 to 79, stacks 0 to 15, links 0 to 15, dies 0 to 3, contexts
0 to 3, and so on (00_scope.md, R12, R15, R422, R452, R521, R568). -/

namespace Sys2Proof

/-- Does every operand of a command lie in its range? -/
def Instr.wf (i : Instr) : Bool :=
  match i with
  | .tickEdge => true
  | .fenceCheck fence _ => decide (fence < 16)
  | .dataFenceCheck _ => true
  | .ingestClose => true
  | .ingestEnd _ => true
  | .lossFence _ => true
  | .healthSend => true
  | .healthRecord _ link _ => decide (link < 16)
  | .commitToken _ _ => true
  | .markerSend => true
  | .marker _ _ => true
  | .markerLost => true
  | .abortNotice _ link _ cause => decide (link < 16) && decide (cause < 6)
  | .captureNotice _ _ _ => true
  | .layoutSwitch phase => decide (phase < 16)
  | .mmStream tile _ => decide (tile < 80)
  | .mmIncell tile _ => decide (tile < 80)
  | .lateIssue tile _ _ _ => decide (tile < 80)
  | .load tile _ => decide (tile < 80)
  | .readout tile _ => decide (tile < 80)
  | .chain tile _ _ => decide (tile < 80)
  | .convert tile _ _ _ _ => decide (tile < 80)
  | .scale tile _ _ => decide (tile < 80)
  | .tree tile _ _ => decide (tile < 80)
  | .sumsq tile _ _ _ => decide (tile < 80)
  | .lookupAdd tile _ _ => decide (tile < 80)
  | .rowcol tile _ _ _ => decide (tile < 80)
  | .update tile _ _ => decide (tile < 80)
  | .copy tile _ => decide (tile < 80)
  | .decay tile _ => decide (tile < 80)
  | .ewise tile _ _ => decide (tile < 80)
  | .endStream tile _ => decide (tile < 80)
  | .hubRead _ stack granule _ => decide (stack < 16) && decide (granule < 201326592)
  | .hubWrite _ stack granule _ _ => decide (stack < 16) && decide (granule < 201326592)
  | .hubRetry stack granule _ => decide (stack < 16) && decide (granule < 201326592)
  | .atomicAdd _ stack granule plan _ _ => decide (stack < 16) && decide (granule < 201326592) && decide (plan < 16)
  | .refresh _ => true
  | .scrub _ stack _ => decide (stack < 16)
  | .elasticWindow _ stack granule _ _ => decide (stack < 16) && decide (granule < 201326592)
  | .linkSend _ link kind _ => decide (link < 16) && decide (1 ≤ kind ∧ kind < 4)
  | .frameReceived _ link _ _ => decide (link < 16)
  | .nak _ link seq => decide (link < 16) && decide (seq < 256)
  | .linkDown _ link => decide (link < 16)
  | .elasticFrame _ link _ _ => decide (link < 16)
  | .linkTraining _ link mode _ _ _ _ _ => decide (link < 16) && decide (mode < 4)
  | .solverDescRead _ => true
  | .solverJobStart _ => true
  | .publish die c0 => decide (die < 4) && decide (c0 < 8)
  | .deadlineMiss die c0 => decide (die < 4) && decide (c0 < 8)
  | .carrySweep die => decide (die < 4)
  | .solverDatapathFault _ die _ _ => decide (die < 4)
  | .podFault _ tile lpod => decide (tile < 80) && decide (lpod < 8)
  | .spareParity _ tile => decide (tile < 80)
  | .shadowCompare tile _ _ _ => decide (tile < 80)
  | .lockstepMismatch _ => true
  | .lockstepReloadDone _ => true
  | .attendExpiry page => decide (page < 108)
  | .classDTimeout _ page _ _ => decide (page < 108)
  | .terminalStop _ cause _ _ _ => decide (1 ≤ cause ∧ cause < 6)
  | .capture => true
  | .captureIn _ => true
  | .sag _ _ _ _ => true
  | .overVoltage _ _ _ => true
  | .overCurrent _ _ _ => true
  | .railFault _ _ _ => true
  | .inputLowReset _ => true
  | .holdupArmed _ => true
  | .powerOverLimit _ => true
  | .thermalWarn _ _ _ => true
  | .thermalTerminal _ _ _ _ _ => true
  | .clkLost _ => true
  | .enDrop _ _ _ => true
  | .powerCycle _ => true
  | .coldReset _ _ _ _ => true
  | .warmReset _ => true
  | .hotReset _ => true
  | .flrPf0 _ => true
  | .flrPf1 _ => true
  | .flrPf2 _ => true
  | .flrPf3 _ => true
  | .commandWord _ _ _ _ => true
  | .commandPacket _ _ => true
  | .dropped _ => true
  | .loadImage _ ctx _ _ _ => decide (ctx < 4)
  | .loadImageDone _ ctx _ => decide (ctx < 4)
  | .unloadImage _ ctx _ => decide (ctx < 4)
  | .startJob _ ctx _ _ _ _ _ => decide (ctx < 4)
  | .ingest _ ctx _ _ _ _ _ _ => decide (ctx < 4)
  | .ingestDone _ ctx _ _ _ => decide (ctx < 4)
  | .exportCmd _ ctx _ kind _ => decide (ctx < 4) && decide (kind < 2)
  | .exportStart _ => true
  | .exportDone _ => true
  | .preemptAtEdge _ ctx _ _ => decide (ctx < 4)
  | .preemptNow _ ctx _ => decide (ctx < 4)
  | .preempted => true
  | .resume _ ctx _ => decide (ctx < 4)
  | .resumed _ => true
  | .endJob _ ctx _ => decide (ctx < 4)
  | .pin _ ctx _ _ _ => decide (ctx < 4)
  | .unpin _ ctx _ _ _ => decide (ctx < 4)
  | .atsInvalidation _ fn _ _ _ => decide (fn < 4)
  | .dmaChunk _ eng _ => decide (eng < 16)
  | .priResponse _ _ _ => true
  | .prefetch _ tensor => decide (tensor < 1048576)
  | .writeBack _ tensor => decide (tensor < 1048576)
  | .expanderLost _ expander _ => decide (expander < 4)
  | .lenderLost _ lender => decide (lender < 16)
  | .fifoPacketWrite _ fifo _ ctx _ => decide (fifo < 4) && decide (ctx < 4)
  | .fifoPacketTake _ fifo _ _ => decide (fifo < 4)
  | .idleTimeout fifo => decide (fifo < 4)
  | .ptrMismatch _ fifo => decide (fifo < 4)
  | .ringWrite _ fifo => decide (fifo < 4)
  | .ringInterruptTimer fifo => decide (fifo < 4)
  | .mailboxGo _ => true
  | .mailboxDone _ _ => true
  | .mctpMessage _ port _ => decide (port.transport < 3)
  | .holdRelease => true
  | .captureNow _ => true
  | .armEdge => true
  | .disarm => true
  | .rearm => true
  | .captureSend => true
  | .attendAck page => decide (page < 108)
  | .capOverride => true
  | .pivotLogClear die => decide (die < 4)
  | .hdmWrite _ piece _ => decide (piece < 4)
  | .clksrcWrite _ src => decide (src ≤ 16)
  | .clkLocked _ => true
  | .pwrIdle => true
  | .pwrFallow => true
  | .pwrDormant => true
  | .pwrOff _ _ => true
  | .wake _ => true
  | .wakeDone _ => true
  | .harvest => true
  | .harvestStart => true
  | .harvestDone _ _ _ => true
  | .harvestAbandoned => true
  | .release => true
  | .readRecord _ => true
  | .authenticate => true
  | .cartridgeInsert _ => true
  | .cartridgeRemoved => true
  | .routineRecord kind _ _ => decide (2 ≤ kind ∧ kind < 5)
  | .marginHbm _ => true
  | .marginLink _ => true
  | .laneReturnHbm _ _ => true
  | .laneReturnLink _ _ => true
  | .ppr _ => true
  | .scanEnter _ => true
  | .enroll => true
  | .fieldClose _ => true
  | .tapInstruction _ => true
  | .tapReset _ _ => true
  | .traceRecord _ source _ _ => decide (source < 5)
  | .aliasWrite _ view _ _ _ => decide (1 ≤ view ∧ view < 4)
  | .regWrite _ via _ _ _ _ => decide (via < 5)
  | .regReadClear _ via _ _ => decide (via < 5)
  | .accessReloadHeld _ via _ _ _ _ => decide (via < 5)
  | .powerStateEntered => true
  | .warmResetRelease _ _ => true
  | .hdmAccess _ _ _ _ => true
  | .snoop _ _ => true
  | .accessError _ via _ _ _ _ => decide (via < 5)
  | .sensorSample _ _ => true
  | .outsideRating _ => true
  | .tapDataRegister _ _ _ _ => true
  | .translationCompletion _ fn eng q _ _ _ => decide (fn < 4) && decide (eng < 16) && decide (q < 4)
  | .undefinedOpcode tile _ => decide (tile < 80)

end Sys2Proof
end

