-- ==== Sys2Proof/Tests/Slice0.lean ====
section
/-! SUPPORT. The author's tests: a smoke test of well-formedness, the spec's worked examples on single operations and
single commands, and for every obligation with hypotheses a witness: concrete states and operands that meet the hypotheses
of each of its clauses. -/

namespace Sys2Proof.Tests

open Sys2Proof Sys2Proof.Machine Sys2Proof.Safety

set_option Elab.async false

/-! ### Well-formedness -/

/-- Each range check of Instr.wf refuses a command with the first value outside the range. -/
theorem test_ill_formed_a :
    (∀ a0, (Instr.fenceCheck 16 a0).wf = false) ∧
    (∀ a0, (Instr.healthRecord 0 16 a0).wf = false) ∧
    (Instr.abortNotice 0 16 0 0).wf = false ∧
    (Instr.abortNotice 0 0 0 6).wf = false ∧
    (Instr.layoutSwitch 16).wf = false ∧
    (∀ a0, (Instr.mmStream 80 a0).wf = false) ∧
    (∀ a0, (Instr.mmIncell 80 a0).wf = false) ∧
    (∀ a0 a1, (Instr.lateIssue 80 a0 0 a1).wf = false) ∧
    (∀ a0, (Instr.load 80 a0).wf = false) ∧
    (∀ a0, (Instr.readout 80 a0).wf = false) ∧
    (∀ a0 a1, (Instr.chain 80 a0 a1).wf = false) ∧
    (∀ a0 a1 a2, (Instr.convert 80 a0 a1 0 a2).wf = false) ∧
    (∀ a0 a1, (Instr.scale 80 a0 a1).wf = false) ∧
    (∀ a0, (Instr.tree 80 a0 0).wf = false) ∧
    (∀ a0 a1 a2, (Instr.sumsq 80 a0 a1 a2).wf = false) ∧
    (∀ a0, (Instr.lookupAdd 80 a0 0).wf = false) ∧
    (∀ a0, (Instr.rowcol 80 a0 0 0).wf = false) ∧
    (∀ a0 a1, (Instr.update 80 a0 a1).wf = false) ∧
    (∀ a0, (Instr.copy 80 a0).wf = false) ∧
    (∀ a0, (Instr.decay 80 a0).wf = false) ∧
    (∀ a0 a1, (Instr.ewise 80 a0 a1).wf = false) ∧
    (∀ a0, (Instr.endStream 80 a0).wf = false) ∧
    (∀ a0, (Instr.hubRead 0 16 0 a0).wf = false) ∧
    (∀ a0, (Instr.hubRead 0 0 201326592 a0).wf = false) := by
  refine ⟨?_, ?_, ?_, ?_, ?_, ?_, ?_, ?_, ?_, ?_, ?_, ?_, ?_, ?_, ?_, ?_, ?_, ?_, ?_, ?_, ?_, ?_, ?_, ?_⟩ <;> intros <;> rfl

/-- Each range check of Instr.wf refuses a command with the first value outside the range. -/
theorem test_ill_formed_b :
    (∀ a0 a1, (Instr.hubWrite 0 16 0 a0 a1).wf = false) ∧
    (∀ a0 a1, (Instr.hubWrite 0 0 201326592 a0 a1).wf = false) ∧
    (∀ a0, (Instr.hubRetry 16 0 a0).wf = false) ∧
    (∀ a0, (Instr.hubRetry 0 201326592 a0).wf = false) ∧
    (∀ a0, (Instr.atomicAdd 0 16 0 0 0 a0).wf = false) ∧
    (∀ a0, (Instr.atomicAdd 0 0 201326592 0 0 a0).wf = false) ∧
    (∀ a0, (Instr.atomicAdd 0 0 0 16 0 a0).wf = false) ∧
    (∀ a0, (Instr.scrub 0 16 a0).wf = false) ∧
    (∀ a0 a1, (Instr.elasticWindow 0 16 0 a0 a1).wf = false) ∧
    (∀ a0 a1, (Instr.elasticWindow 0 0 201326592 a0 a1).wf = false) ∧
    (∀ a0, (Instr.linkSend 0 16 2 a0).wf = false) ∧
    (∀ a0, (Instr.linkSend 0 0 0 a0).wf = false) ∧
    (∀ a0, (Instr.linkSend 0 0 4 a0).wf = false) ∧
    (∀ a0 a1, (Instr.frameReceived 0 16 a0 a1).wf = false) ∧
    (Instr.nak 0 16 0).wf = false ∧
    (Instr.nak 0 0 256).wf = false ∧
    (Instr.linkDown 0 16).wf = false ∧
    (∀ a0 a1, (Instr.elasticFrame 0 16 a0 a1).wf = false) ∧
    (∀ a0, (Instr.linkTraining 0 16 0 a0 0 0 0 0).wf = false) ∧
    (∀ a0, (Instr.linkTraining 0 0 4 a0 0 0 0 0).wf = false) ∧
    (Instr.publish 4 0).wf = false ∧
    (Instr.publish 0 8).wf = false ∧
    (Instr.deadlineMiss 4 0).wf = false ∧
    (Instr.deadlineMiss 0 8).wf = false := by
  refine ⟨?_, ?_, ?_, ?_, ?_, ?_, ?_, ?_, ?_, ?_, ?_, ?_, ?_, ?_, ?_, ?_, ?_, ?_, ?_, ?_, ?_, ?_, ?_, ?_⟩ <;> intros <;> rfl

/-- Each range check of Instr.wf refuses a command with the first value outside the range. -/
theorem test_ill_formed_c :
    (Instr.carrySweep 4).wf = false ∧
    (∀ a0 a1, (Instr.solverDatapathFault 0 4 a0 a1).wf = false) ∧
    (Instr.podFault 0 80 0).wf = false ∧
    (Instr.podFault 0 0 8).wf = false ∧
    (Instr.spareParity 0 80).wf = false ∧
    (∀ a0 a1, (Instr.shadowCompare 80 a0 0 a1).wf = false) ∧
    (Instr.attendExpiry 108).wf = false ∧
    (∀ a0 a1, (Instr.classDTimeout 0 108 a0 a1).wf = false) ∧
    (∀ a0 a1, (Instr.terminalStop 0 0 0 a0 a1).wf = false) ∧
    (∀ a0 a1, (Instr.terminalStop 0 6 0 a0 a1).wf = false) ∧
    (Instr.loadImage 0 4 0 0 0).wf = false ∧
    (∀ a0, (Instr.loadImageDone 0 4 a0).wf = false) ∧
    (Instr.unloadImage 0 4 0).wf = false ∧
    (∀ a0, (Instr.startJob 0 4 0 0 0 0 a0).wf = false) ∧
    (Instr.ingest 0 4 0 0 0 0 0 0).wf = false ∧
    (∀ a0, (Instr.ingestDone 0 4 0 0 a0).wf = false) ∧
    (∀ a0, (Instr.exportCmd 0 4 0 0 a0).wf = false) ∧
    (∀ a0, (Instr.exportCmd 0 0 0 2 a0).wf = false) ∧
    (Instr.preemptAtEdge 0 4 0 0).wf = false ∧
    (Instr.preemptNow 0 4 0).wf = false ∧
    (Instr.resume 0 4 0).wf = false ∧
    (Instr.endJob 0 4 0).wf = false ∧
    (Instr.pin 0 4 0 0 0).wf = false ∧
    (Instr.unpin 0 4 0 0 0).wf = false := by
  refine ⟨?_, ?_, ?_, ?_, ?_, ?_, ?_, ?_, ?_, ?_, ?_, ?_, ?_, ?_, ?_, ?_, ?_, ?_, ?_, ?_, ?_, ?_, ?_, ?_⟩ <;> intros <;> rfl

/-- Each range check of Instr.wf refuses a command with the first value outside the range. -/
theorem test_ill_formed_d :
    (Instr.atsInvalidation 0 4 0 0 0).wf = false ∧
    (∀ a0, (Instr.dmaChunk 0 16 a0).wf = false) ∧
    (Instr.prefetch 0 1048576).wf = false ∧
    (Instr.writeBack 0 1048576).wf = false ∧
    (∀ a0, (Instr.expanderLost 0 4 a0).wf = false) ∧
    (Instr.lenderLost 0 16).wf = false ∧
    (∀ a0, (Instr.fifoPacketWrite 0 4 0 0 a0).wf = false) ∧
    (∀ a0, (Instr.fifoPacketWrite 0 0 0 4 a0).wf = false) ∧
    (∀ a0, (Instr.fifoPacketTake 0 4 0 a0).wf = false) ∧
    (Instr.idleTimeout 4).wf = false ∧
    (Instr.ptrMismatch 0 4).wf = false ∧
    (Instr.ringWrite 0 4).wf = false ∧
    (Instr.ringInterruptTimer 4).wf = false ∧
    (∀ a0, (Instr.mctpMessage 0 ⟨3, 0⟩ a0).wf = false) ∧
    (Instr.attendAck 108).wf = false ∧
    (Instr.pivotLogClear 4).wf = false ∧
    (∀ a0, (Instr.hdmWrite 0 4 a0).wf = false) ∧
    (Instr.clksrcWrite 0 17).wf = false ∧
    (∀ a0 a1, (Instr.routineRecord 1 a0 a1).wf = false) ∧
    (∀ a0 a1, (Instr.routineRecord 5 a0 a1).wf = false) ∧
    (∀ a0, (Instr.traceRecord 0 5 0 a0).wf = false) ∧
    (∀ a0 a1, (Instr.aliasWrite 0 0 0 a0 a1).wf = false) ∧
    (∀ a0 a1, (Instr.aliasWrite 0 4 0 a0 a1).wf = false) ∧
    (∀ a0 a1, (Instr.regWrite 0 5 0 0 a0 a1).wf = false) := by
  refine ⟨?_, ?_, ?_, ?_, ?_, ?_, ?_, ?_, ?_, ?_, ?_, ?_, ?_, ?_, ?_, ?_, ?_, ?_, ?_, ?_, ?_, ?_, ?_, ?_⟩ <;> intros <;> rfl

/-- Each range check of Instr.wf refuses a command with the first value outside the range. -/
theorem test_ill_formed_e :
    (Instr.regReadClear 0 5 0 0).wf = false ∧
    (∀ a0 a1, (Instr.accessReloadHeld 0 5 0 0 a0 a1).wf = false) ∧
    (∀ a0 a1, (Instr.accessError 0 5 0 0 a0 a1).wf = false) ∧
    (∀ a0, (Instr.translationCompletion 0 4 0 0 0 0 a0).wf = false) ∧
    (∀ a0, (Instr.translationCompletion 0 0 16 0 0 0 a0).wf = false) ∧
    (∀ a0, (Instr.translationCompletion 0 0 0 4 0 0 a0).wf = false) ∧
    (∀ a0, (Instr.undefinedOpcode 80 a0).wf = false) := by
  refine ⟨?_, ?_, ?_, ?_, ?_, ?_, ?_⟩ <;> intros <;> rfl

/-! ### Small states -/

def fence (off kind : Nat) (slack : Bool) (lay : Nat) : Word64 := BitVec.ofNat 64 (off + kind * 2^40 + slack.toNat * 2^43 + lay * 2^44)

def dfence (cyc kind tensor : Nat) : BitVec 128 := BitVec.ofNat 128 (cyc + kind * 2^40 + tensor * 2^42)

def slotE (maxTok bpt staging df len : Nat) : BitVec 256 := BitVec.ofNat 256 (maxTok + bpt*2^32 + staging*2^64 + df*2^128 + 0xFFFF*2^160 + len*2^192)

def planE (kind : Nat) (fences : List Word64) (dfs : List (BitVec 128)) (slots : List (BitVec 256)) (succ : Nat) : PlanImg :=
  ⟨BitVec.ofNat 512 (kind + fences.length*2^8 + dfs.length*2^16 + slots.length*2^32 + succ*2^56), fences, dfs, slots, 256⟩

def ten (id role : Nat) : TensorEnt := { tensor := id, role := role, fmt := 0, parent := id, ruleSet := 0, rows := 128, cols := 128, row0 := 0, row1 := 128, col0 := 0, col1 := 128, owners := [0], even := 0x10000, odd := 0x20000, home := 0x100000000000, aux := 0, tier := 0, lagged := false, d := 0, gather := 0, maskKind := 0, mask := 0, block := 7, wb := 1, tieGroup := 0xFFFFF, useIdx := 0, beta := 0, w := 0, staleLim := 0, solver := 0, reservedZero := true }

def step0 : PlanImg := planE 0 [fence 50000 0 true 1, fence 100000 1 false 2, fence 200000 2 false 0, fence 300000 3 false 0, fence 400000 4 true 0] [dfence 60000 0 0, dfence 70000 1 5, dfence 80000 1 6] [slotE 100 4 0x1000 0 400, slotE 100 4 0x2000 0 400] 0

def svc : PlanImg := planE 2 [fence 100000 3 false 0, fence 300000 4 false 0] [] [] 0

def fal : PlanImg := planE 1 [fence 100000 3 false 0, fence 350000 4 false 0] [] [] 0

def img : ImageFile := { header := BitVec.ofNat 2048 (1*2^320), hcrcOk := true, fileLen := 4096, hashOk := true, sigPoint := 4, sigZero := 0, sigR := 1, sigS := 1, msgDigest := 0, keyDigest := 5, sigOk := true, dir := [], plans := [some step0, some svc, some fal], layouts := [0,0,0], streams := [], hubScheds := [], linkScheds := [], solverJobs := [], stateMap := [ten 1 0, {ten 5 0 with tier := 1}, {ten 6 0 with tier := 1, lagged := true, d := 2}], ruleSets := [], lrScheds := [], redPlans := [⟨BitVec.ofNat 256 (3*2^32), []⟩], limits := BitVec.ofNat 512 (2048 + 3*2^32 + 2*2^40 + 0x40000000*2^64 + 0x3DCCCCCD*2^96 + 2*2^160+ 2*2^176+2*2^192+2*2^208), moduleMapHdr := BitVec.ofNat 256 (0 + 2*2^32 + 1*2^64+1*2^96), modules := [BitVec.ofNat 64 (0xFF*2^24), BitVec.ofNat 64 (2*2^24 + 1*2^32)], data := [] }

def regsRun (master : Bool) : List (Fld × Nat) :=
  [(HULL_ORCH_MASTER, master.toNat), (HULL_ORCH_SIZE, 2), (HULL_ORCH_MODULE, (!master).toNat), (TICK_PERIOD_PERIOD, 400000), (TICK_COUNT_COUNT, 7), (TICK_PLAN_CUR, 0), (TICK_PLAN_CUR_KIND, 0), (TICK_LEAD_LEAD, 2048), (TICK_LEAD_PATH, 1536), (HULL_NORM_NU, 0x3C000000), (HULL_NORM_VALID, 1),
   (lnkFld LNK_STATE_TREE_CHILD 0, 1), (lnkFld LNK_STATE_TREE_CHILD 5, 1), (lnkFld LNK_STATE_TREE_PARENT 2, 1), (TICK_STARVE_THRESHOLD.ix 0, 2), (TICK_STARVE_QUANTUM.ix 0, 2)]

def tok (plan tick dec : Nat) : BitVec 256 := mkToken 3 6 tick dec plan false false 0 1

def run0 (master : Bool) : State :=
  let s := State.reset.fsetAll (regsRun master)
  { s with
    now := 1050, edgeAt := 1000, ccr := { t := 5, step := 3 },
    run := { active := true, stepRuns := true, items := [(22, 60000, 0), (8, 300000, 3), (9, 51002, 0), (3, 200000, 1)] },
    job := { ctx := some 0, firstEdge := 1000, verdicts := [(3, 0, 40, true)] },
    ctxs := [{ state := .running, image := some img }, {}, { state := .loaded, image := some img }, {}] }

def noisy (s : State) : State :=
  let s := s.fsetAll [(HULL_CAPTURE_CFG_FAULT_MIN, 0), (HULL_CAPTURE_CFG_TRACE_A, 1), (HULL_CAPTURE_CFG_TRACE_B, 1), (HULL_CAPTURE_CFG_TRACE_SUBST, 1),
    (HULL_CAPTURE_CFG_ORCH_EN, 1), (TICK_INT_EN, 0xFFFFFFFF), (COMMIT_INT_EN, 0xFFFFFFFF), (EVQ_EVMASK_TICK, 1), (HULL_FAULT_INT_EN, 255), (HULL_CAPTURE_ID_ARMED_EDGE,1), (HULL_CAPTURE_OFFSET, 100)]
  { s with
    run := { s.run with healthSent := true, fenceMissed := true },
    job := { s.job with markersLost := 1, markerEdge := none, lag := [(6, false, {flip := true, parked := [⟨4,2,0,[]⟩]})] },
    links := s.links.map (fun l => { l with hash := 9 }), slow := [⟨5, true, false, false, false⟩, ⟨6, false, true, true, false⟩],
    tiles := { s.tiles with podPend := [(3, 2)] } }

def full (s : State) : State := { s with fifos := [⟨List.replicate 1024 0, 0, none, []⟩, ⟨List.replicate 4096 0, 3, none, []⟩, ⟨List.replicate 16384 0, 0, none, []⟩, ⟨List.replicate 512 0, 0, none, []⟩] }

def withTok (s : State) (k : BitVec 256) : State := { s with job := { s.job with token := some (k, none), markerEdge := some 401002 } }

def held (s : State) : State := (s.fset HULL_CAPTURE_CFG_HOLD 1).fset HULL_CAPTURE_ID_HELD 1

def wd (l : List (Nat × Nat)) : Word256 := BitVec.ofNat 256 (l.foldl (fun n p => n + p.2 * 2 ^ p.1) 0)

def imgT : ImageFile := { img with
  ruleSets := [⟨3, 0, 0, 0x3F000000, 0x3F000000, 0x3C000000, 0, 1, false, false⟩],
  lrScheds := [[⟨0, 0x3C000000, 0⟩]],
  stateMap := [{ten 1 0 with fmt := 1, rows := 2, row1 := 2, cols := 4, col1 := 4, wb := 1, maskKind := 1, mask := 1, even := 0x10000, odd := 0x20000},
   {ten 2 2 with parent := 1, row1 := 2, beta := 0x3F000000, w := 0x3F800000, even := 0x30000, odd := 0x31000},
   {ten 3 3 with parent := 1, row1 := 2, col1 := 4, beta := 0x3F000000, w := 0x3F800000, even := 0x32000, odd := 0x33000},
   {ten 9 0 with fmt := 5, rows := 2, row1 := 2, cols := 4, col1 := 4, wb := 1, even := 0x40000, odd := 0x50000}],
  redPlans := [⟨BitVec.ofNat 256 (3*2^32 + 0x9000*2^64), [BitVec.ofNat 128 (0x1000*2^64), BitVec.ofNat 128 (0x1100*2^64), BitVec.ofNat 128 (0x1200*2^64)]⟩] }

def memFill (s : State) : State := (range' 0 40).foldl (fun s i => (s.wrN (0x1000 + 4*i) 4 (0x3F800000 + i * 0x12345)).wrN (0x1100 + 4*i) 4 (0x40000000 + i * 0x777777)) s

def memFill2 (s : State) : State := (range' 0 8).foldl (fun s i => ((((s.wrN (0x10000 + 2*i) 2 (0x3F80 + i)).wrN (0x30000 + 4*i) 4 (0x3F900000+i)).wrN (0x32000 + 4*i) 4 (0x3F900000+i)).wrN (0x40000+4*i) 4 (0x3F800123+i)).wr8 (0x6000+i) 127) s

def preLine (l : Nat) (g : Granule) (s : State) : State := s.withTiles (fun t => { t with opLine := tabPut (fun _ => 0) t.opLine (lineKey 0 l) g, opTag := tabPut (fun _ => 0) t.opTag (lineKey 0 l) 1 })

def tile0 (s : State) : State :=
  let s := { s with ctxs := modAt (fun c => { c with image := some imgT }) 0 s.ctxs }
  let s := memFill2 (memFill s)
  let s := (range' 0 12).foldl (fun s l => preLine l (BitVec.ofNat 2048 ((range' 0 128).foldl (fun n i => n + (0x3F80 + 3 * i + 7 * l) * 2 ^ (16 * i)) 0)) s) s
  let s := (range' 0 2).foldl (fun s i => (range' 0 4).foldl (fun s j => s.setAccEl 0 5 i j (0x3F800000 + 100 * i + j) 0) s) s
  let s := (s.setAccMark 0 5 2).setAccMark 0 6 6
  s.withTiles (fun t => { t with slotCnt := tabPut (fun _ => 0) t.slotCnt 0 1 })

def imgV : ImageFile := { imgT with
  ruleSets := imgT.ruleSets ++ [⟨3, 0, 1, 0x3F000000, 0x3F000000, 0x3C000000, 0, 1, false, false⟩, ⟨0, 0, 2, 0x3F000000, 0x3F000000, 0x3C000000, 0x33000000, 1, true, true⟩, ⟨1, 0, 0, 0x3F000000, 0x3F000000, 0x3C000000, 0x33000000, 1, true, true⟩],
  stateMap := imgT.stateMap ++ [
    {ten 20 0 with ruleSet := 1, fmt := 5, rows := 2, row1 := 2, cols := 4, col1 := 4, wb := 1, maskKind := 1, mask := 2, even := 0x11000, odd := 0x21000},
    {ten 21 1 with parent := 20, fmt := 1, rows := 2, row1 := 2, cols := 4, col1 := 4, wb := 1, even := 0x12000, odd := 0x22000},
    {ten 30 0 with ruleSet := 2, fmt := 1, rows := 2, row1 := 2, cols := 4, col1 := 4, wb := 1, lagged := true, maskKind := 1, mask := 1, even := 0x13000, odd := 0x23000},
    {ten 31 1 with parent := 30, fmt := 0, rows := 2, row1 := 2, cols := 4, col1 := 4, wb := 1, even := 0x14000, odd := 0x24000},
    {ten 32 2 with parent := 30, row1 := 2, beta := 0x3F000000, w := 0x3F800000, even := 0x30100, odd := 0x31100},
    {ten 33 3 with parent := 30, row1 := 2, col1 := 4, beta := 0x3F000000, w := 0x3F800000, even := 0x32100, odd := 0x33100},
    {ten 40 0 with ruleSet := 3, fmt := 1, rows := 2, row1 := 2, cols := 4, col1 := 4, wb := 1, even := 0x15000, odd := 0x25000},
    {ten 41 4 with parent := 1, rows := 2, cols := 2, row1 := 2, col1 := 4, block := 1, beta := 0x3F000000, w := 0x3F800000, even := 0x16000, odd := 0x26000},
    {ten 42 5 with parent := 40, rows := 4, cols := 4, row1 := 2, col1 := 3, block := 1, beta := 0x3F000000, w := 0x3F800000, even := 0x17000, odd := 0x27000},
    {ten 43 6 with parent := 40, rows := 4, cols := 4, row1 := 2, col1 := 4, block := 2, beta := 0x3F000000, w := 0x3F800000, even := 0x18000, odd := 0x28000},
    {ten 50 0 with fmt := 1, rows := 6, row0 := 1, row1 := 4, cols := 128, col1 := 128, wb := 7, even := 0x19000, odd := 0x29000},
    {ten 51 0 with fmt := 1, rows := 6, row0 := 2, row1 := 3, cols := 4, col1 := 4, wb := 2, even := 0x19000, odd := 0x29000}],
  redPlans := imgT.redPlans ++ [⟨BitVec.ofNat 256 (1 + 2*2^32 + (2^63 + 2^7*9)*2^64), [BitVec.ofNat 128 (0x1000*2^64), BitVec.ofNat 128 (0x1100*2^64)]⟩, ⟨BitVec.ofNat 256 (3 + 1*2^32 + 0xBC0000000*2^64), [BitVec.ofNat 128 (0x1000*2^64)]⟩] }

def tens (f : ImageFile) (id : Nat) : TensorEnt := (f.stateMap.find? (fun t => t.tensor == id)).getD (ten 0 0)

def tileW (s : State) : State :=
  let s := { s with ctxs := modAt (fun c => { c with image := some imgV }) 0 s.ctxs }
  let s := (range' 0 12).foldl (fun s l => preLine l 0 s) s
  let s := (s.setAccMark 0 5 2).setAccMark 0 6 6
  s.withTiles (fun t => { t with slotCnt := tabPut (fun _ => 0) t.slotCnt 0 1 })

def odd (s : State) : State := { s with ccr := { s.ccr with parity := true } }

def nextOf : Host.Outcome State Fault Refusal → State | .next t => t | _ => State.reset

def flyW : Word256 := wd [(0,0x10),(12,1),(24,7),(40,1),(64,500),(104,3),(128,0),(145,4)]

def flyC : Word256 := wd [(0,0x22),(24,8),(41,5),(64,500)]

def flying (i : Instr) (s : State) : State :=
  let t := nextOf (exec i s)
  { t with now := (t.tiles.flights.headD ⟨.stream, 0, 0, 0, 0, 0, false, false⟩).done - 1, pending := [] }

def G0 : Granule := BitVec.ofNat 2048 ((range' 0 64).foldl (fun n i => n + (0x3F800000 + i * 0x10001) * 2 ^ (32*i)) 0)

def hubS (s : State) : State :=
  let s := s.wrGranule (granuleAddr 5 3) G0
  let s := s.fset (HUB_SCRUB_STACK.die 1) 1
  s.withHub (fun h => { h with corrQ := [(5, 3), (6, 7)], retry := [{ stack := 5, pch := granPch 3, window := 0, granule := 3, issued := 1010, write := none }, { stack := 6, pch := granPch 3, window := 0, granule := 3, issued := 1010, write := some 77 }], part := [(0, granuleAddr 5 3, 1), (1, granuleAddr 5 3, 2)] })

def hubW (op st cyc cnt : Nat) : Word256 := wd [(0,op),(4,st),(8,cyc),(76,cnt-1),(144,2^64-1)]

def imgM : ImageFile := { imgT with hubScheds := [⟨0, 1, 0, [hubW 5 1 1024 2, hubW 6 1 1280 2]⟩, ⟨0, 0, 0, [hubW 6 0 1280 2]⟩] }

def scheded (s : State) : State := { s with ctxs := modAt (fun c => { c with image := some imgM }) 0 s.ctxs }

def wrS (w : HubWrite) (s : State) : State := { (s.withHub (fun h => { h with writes := [w] })) with now := w.due - 1 }

def lnkS (s : State) : State :=
  let s := (s.fset (lnkFld LNK_STATE_MODE 0) 3).fset (lnkFld LNK_STATE_MODE 5) 2
  let s := s.fset (lnkFld LNK_STATE_LEGACY 5) 1
  (s.withLink 0 (fun k => { k with seq := 255, naks := [9], sent := [(3, 1, 2, 1, 77), (7, 2, 4, 1, 8)], waiting := [⟨3, 0, 4, 2, 1040, .port⟩, ⟨9, 0, 1, 1, 1010, .gather 0x9000⟩], retry := [(false, 0)] })).withLink 5 (fun k => { k with credit := 0, elasticQ := [12], sent := [(3, 1, 2, 1, 77)], swaps := [(1,2)] })

def rawOf (hdr flit : Nat) (bad : List Nat) : BitVec 2176 :=
  BitVec.ofNat 2176 (ofBytes (bad.foldl (fun l i => modAt (fun b => (b + 77) % 256) i l) (frameBytes hdr flit)))

def hdrOf (seq kind slot : Nat) (nak : Option Nat) : Nat := seq + 2^8 * kind + 2^11 * slot + (match nak with | some n => 2^16 + 2^17*n | none => 0)

def imgL : ImageFile := { imgT with limits := imgT.limits, stateMap := imgT.stateMap.map (fun t => if t.tensor == 1 then { t with gather := 1, rows := 128, row1 := 128, cols := 128, col1 := 128 } else t) }

def gath (s : State) : State := { s with ctxs := modAt (fun c => { c with image := some imgL }) 0 s.ctxs, run := { s.run with stepRuns := true } }

def landS (x : FlitDue) (s : State) : State := { (s.withLink 0 (fun k => { k with landing := [x], waiting := [], sent := [] })) with now := x.at_ - 1 }

def waitS (x : LinkWait) (s : State) : State := { (s.withLink 0 (fun k => { k with landing := [], waiting := [x], sent := [] })) with now := x.sent + 1535 }

def slvE (job c0 gl kind n tensor block : Nat) (cold : Bool) (start dead : Nat) : BitVec 1024 :=
  BitVec.ofNat 1024 (job + 3*2^16 + 1*2^32 + c0*2^34 + gl*2^37 + kind*2^40 + 1*2^42 + cold.toNat*2^45 + n*2^48 + tensor*2^64 + block*2^84 + 3*2^112 + 4*2^128 + 0x3F800000*2^288 + 0x3F800000*2^320 + 77*2^352 + 99*2^384 + start*2^448 + dead*2^512)

def jA := slvE 5 2 1 0 2 11 1 true 20000 60000

def jB := slvE 6 0 0 2 2 11 2 false 21000 60000

def jC := slvE 7 4 0 0 2 11 3 true 21000 21010

def imgS : ImageFile := { img with
  solverJobs := [⟨0, [⟨[100, 200, 300, 400], [jA, jB, jC], 512⟩]⟩],
  stateMap := img.stateMap ++ [{ten 11 4 with rows := 10, row1 := 10, block := 1, solver := 1, even := 0x70000, odd := 0x71000, staleLim := 3},
   {ten 11 8 with even := 0x80000, odd := 0x81000, home := 0x90000, aux := 0x92000}] }

def desc (st buf stale : Nat) (b : Nat) : Nat := st + 4*buf + stale * 2^8 + 2*2^16 + 77*2^64+99*2^96 + (0x90000 + 16*b)*2^256 + (0x92000+16*b)*2^320

def slv0 (s : State) : State :=
  let s := { s with ctxs := modAt (fun c => { c with image := some imgS }) 0 s.ctxs }
  (range' 0 5).foldl (fun s b => (((((((s.wrN (0x80000 + 64*b) 64 (desc (b % 3) (b%2) (2*b) b)).wrN (0x70000+16*b) 4 0x40000000).wrN (0x70000+16*b+4) 4 0x3F000000).wrN (0x70000+16*b+8) 4 0x3F000000).wrN (0x70000+16*b+12) 4 0x40400000).wrN (0x81000+64*b) 64 (desc 1 0 9 b)).wrN (0x71000+16*b) 4 0x40000000).wrN (0x71000+16*b+12) 4 0x40800000) s

def outP : SlvOut := { cause := none, off := 5000, iters := 3, resid := 7, result := [2^40, 5, -3, 2^41] }

def slv1 (s : State) : State := (slv0 s).withSolver (fun x => { x with
  landed := [(11, 2, BitVec.ofNat 512 (desc 1 0 3 2)), (11, 9, 0)], jobs := [
   ⟨jA, 14250, 45000, BitVec.ofNat 512 (desc 1 1 3 1), outP⟩,
   ⟨jB, 14250, 14300, BitVec.ofNat 512 (desc 1 1 2 2 + 2^96), { outP with iterEnds := [(10, 5), (20, 6), (80, 9)] }⟩,
   ⟨slvE 8 5 0 0 2 11 4 true 20000 60000, 14250, 45000, BitVec.ofNat 512 (desc 2 1 1 4), {outP with cause := some 5}⟩] })

def slvOnly (js : List Nat) (cs : List Carry) (s : State) : State := { s with solver := { s.solver with jobs := s.solver.jobs.filter (fun j => js.contains (slvJob j.ent)), carries := cs } }

def car1 : Carry := { die := 1, c0 := 2, gang := 2, at_ := 14300, addr := 0x81000 + 64, desc := BitVec.ofNat 512 (desc 1 0 4 1), limit := 3 }

def shW : Word256 := wd [(0, 0x10), (12, 1), (64, 51000)]

def shW2 : Word256 := wd [(0, 0x10), (12, 1), (64, 299900)]

def ctxS (s : State) : State :=
  let s := s.fsetAll [(HULL_CAPTURE_CFG_PIN_EN, 1), (TILE_SHADOW_EN.tile 3, 1), (TILE_SHADOW_LOG2_RATE.tile 3, 0), (PWR_STATE_ARMED, 1), (BENCH_POD_MAP_SPARE_FREE.ix 3, 1), (HULL_CAPTURE_AT0_TICK, 20), (HULL_CAPTURE_AT1_CYCLE, 30)]
  { s.wrN 0x12345678900 8 77 with
    attend := [(1, {expiry := some 3000, first := some (8, 2), cause := 3}), (4, {expiry := some 900, first := some (8, 2), cause := 3}), (31, {expiry := some 900, first := some (8, 2), cause := 3})],
     cap := { s.cap with pend := [(1060, 1), (9000, 16)], localCount := 4 }, power := { s.power with classD := [(3, 10), (1, 50)] } }

def relo (s : State) : State := { s with power := { s.power with reload := some 3000 } }

def reld (s : State) : State := { s with power := { s.power with reloaded := some 3000 }, mirror1 := { t := 9 } }

def rec1 : CritRec := { kind := 1, trunc := 32, seq := 5, cartId := 0, serial := 0, tick := 0, cause := 4, control := [], token := [], layout := 0, orch := 0, hbmLanes := [(3 * 2^20, 1)], hbmBad := [3 * 2^20], linkLanes := [(2, 1, 0)], gens := [], stale := [], faults := [] }

def gen1 (c : Nat) : GenHdr := { state := 1, genSeq := 4, t := 3, step := 2, tick := 1, imageId := 0, imageHash := 0, cartId := c, modNum := 0, orchard := 1, length := 100, gcrcOk := true }

def cart1 : Cart := { id := 77, genuine := true, written := 1000, gen0 := gen1 77, gen1 := { gen1 77 with genSeq := 2 }, slots := [some rec1, none, none, none, none, none, none, none], bytes := [] }

def fat (s : State) : State :=
  let s := hubS (lnkS (ctxS s))
  let s := s.fsetAll [(HULL_LOCKSTEP_MISMATCHES, 3), (BENCH_CMD_BUSY, 1), (HRD_HARVEST_ACTIVE, 1), (HRD_STATE_HARVEST_ACTIVE, 1), (HOST_LINK_MODE, 5), (EVQ_STS_DROP, 15), (CAP_MEAS_BELOW_FLOOR, 1), (PWR_RESTORE_STS_KIND, 2)]
  { s with
    tiles := (tile0 s).tiles, router := { busy := [(2, 60000)], reads := [900] },
    fifos := [⟨[256, 512 + 256], 3, some 5, []⟩, ⟨[256], 2, some 9, []⟩, ⟨[1, 256], 0, none, []⟩, ⟨[256], 1, some 3, []⟩],
    rings := [{ sinceRaise := 3, pendingEntry := some 5, lost := true }, { sinceRaise := 1 }],
    host := { s.host with cmds := [⟨6, 0, 9, 7⟩, ⟨1, 1, 4, 99⟩], pins := [⟨0, 1, 4096, 4096, true⟩, ⟨2, 1, 8192, 4096, false⟩], atc := [⟨1, 4096, 4096, [0]⟩, ⟨0, 0, 4096, []⟩, ⟨1, 8192, 4096, [2,4]⟩], pri := [(3, 1, 2)], priGone := [8], priNext := 4, held := [(1, 4096, 4096, 6)], descs := [{ eng := 0, q := 0, ctx := 0, kind := .ingest 3 0, src := 0, dst := 0x1000, length := 9000, status := 2, prg := 3, tag := 4 }, { eng := 12, q := 0, ctx := 0, kind := .harvest, src := 0, dst := 0, length := 9 }], exp := some { ctx := 0, kind := 0, tag := 6, bufs := [(0, 100)], started := true }, mbox := [(0x1000, 4)], lendersLost := [2] },
    power := { s.power with cart := some cart1, flash := [none, some { rec1 with seq := 7 }], warned := [(0x10, none), (0x200, some 3), (0x12, some 900)], sensors := [(0x10, 5)], busUp := true },
    bench := { owner := some 5, fuseBuf := 9, scan := [(3, 4)], ir := 0, extest := false, dr := 4, dropped := 2 } }

def hlt (h : Halt) (s : State) : State := { s with power := { s.power with halt := h } }

def low (st : Nat) (tr : Option (Nat × Nat)) (s : State) : State := { s.fset PWR_STATE_STATE st with power := { s.power with trans := tr } }

def stepO : PlanImg := { step0 with
    slots := [slotE 100 1 0x1000 0 400, slotE 100 1 0x2000 0 400] }

def imgO : ImageFile := { img with
   plans := [some stepO, some svc, some fal],
   modules := [BitVec.ofNat 64 (0xFF*2^24)], moduleMapHdr := BitVec.ofNat 256 (0 + 1*2^32 + 1*2^64+1*2^96), data := [⟨0x5000, [1,2,3]⟩],
   stateMap := [{ten 1 0 with
    rows := 2, row1 := 2, cols := 4, col1 := 4, even := 0x10000, odd := 0x11000}, {ten 5 0 with
    tier := 1, rows := 2, row1 := 2, cols := 2, col1 := 2, even := 0x12000, odd := 0x13000 }] }

def sav : Saved := ⟨{ t := 9, step := 8 }, { (run0 true).job with ctx := some 3, seed := 6, verdicts := [(8, 0, 5, true)] }, 44, 0, [(4096, 4096)], [⟨5, true, true, false, false⟩], []⟩

def host0 : State :=
  let s := State.reset.fsetAll [(HULL_ORCH_SIZE, 1), (PWR_STATE_ARMED, 1), (HOST_LINK_WIDTH, 4), (HULL_CTX_TRAIL.ix 0, 1)]
  let s := (range' 0 8).foldl (fun s i => s.wrN (0x10000 + 4*i) 4 (0x3F800000 + i)) s
  { s with
    now := 500, edgeAt := 100, mem := (s.wrN 0x4000 8 0x1122334455667788).mem,
    ctxs := [{ state := .loaded, image := some imgO, verdicts := [(0, 0, 5, true)] }, {}, { loading := true }, { state := .preempted, image := some imgO, saved := some sav }],
    host := { s.host with cmds := [⟨1, 2, 77, 4096⟩] } }

def hrun : State :=
  let s := (run0 true).fsetAll [(HULL_ORCH_SIZE, 1), (PWR_STATE_ARMED, 1), (HOST_LINK_WIDTH, 4)]
  { s with
    ctxs := [{ state := .running, image := some imgO }, {}, { state := .loaded, image := some imgO }, { state := .preempted, image := some imgO, saved := some sav }],
    slow := [⟨5, true, true, true, false⟩],
    host := { s.host with held := [(1, 4096, 4096, 6)], descs := [{ eng := 0, q := 0, ctx := 0, kind := .ingest 3 0, src := 0x4000, dst := 0x1000, length := 12, tag := 4, offset := 3 }] },
    mem := (((range' 0 8).foldl (fun s i => s.wrN (0x10000 + 4*i) 4 (0x3F800000 + i)) s).wrN 0x4000 8 0x1122334455667788).mem }

def svg : Saving := ⟨0, 1, 1, true, 7, 0, 9000⟩

def H : Nat := 2 ^ 56

def imgD : ImageFile := { imgO with
   stateMap := [{ten 1 0 with
     rows := 2, row1 := 2, cols := 4, col1 := 4, even := 0x10000, odd := 0x11000}, {ten 5 0 with
     tier := 1, rows := 2, row1 := 2, cols := 2, col1 := 2, even := 0x30000, odd := 0x40000, home := 0x100000000000 }, {ten 6 0 with
     tier := 1, rows := 2, row1 := 2, cols := 2, col1 := 2, even := 0x50000, odd := 0x60000, home := 0x120000000000 }, {ten 7 0 with
     tier := 2, rows := 2, row1 := 2, cols := 2, col1 := 2, even := 0x70000, odd := 0x80000, home := 0x200000000000 }] }

def dm (dl : List Desc) (s : State) : State := { s with
   ctxs := modAt (fun c => { c with image := some imgD }) 0 s.ctxs, host := { s.host with
     descs := dl } }

def d1 : Desc := { eng := 0, q := 0, ctx := 0, kind := .ingest 3 0, src := H + 0x4000, dst := 0x1000, length := 12, tag := 4, offset := 3 }

def d2 : Desc := { eng := 0, q := 0, ctx := 0, kind := .ingest 3 0, src := 0x10000, dst := 0x1000, length := 9000, tag := 4 }

def d3 : Desc := { eng := 8, q := 0, ctx := 0, kind := .prefetch 5, src := 0x100000000000, dst := 0x30000, length := 16, tag := 0 }

def d4 : Desc := { eng := 8, q := 1, ctx := 0, kind := .writeBack 5, src := 0x30000, dst := 0x100000000000, length := 5000, tag := 0 }

def d5 : Desc := { eng := 1, q := 2, ctx := 1, kind := .loadImage, src := 0, dst := 0xBC0000000, length := 12, tag := 7 }

def d6 : Desc := { eng := 3, q := 0, ctx := 0, kind := .ingest 3 1, src := 0x900000000, dst := 0x1000, length := 12, tag := 5 }

def d7 : Desc := { eng := 1, q := 2, ctx := 0, kind := .ingest 3 1, src := H, dst := 0x1000, length := 12, tag := 5, status := 2, prg := 3 }

def ats (s : State) : State :=
  let s := s.fsetAll [(HULL_SLOW_EXP_UP.ix 0, 1), (HULL_SLOW_EXP_PRESENT.ix 0, 1), (HULL_SLOW_LEND_BORROWING, 5), (HOST_LINK_MODE, 5), (HOST_HDM_EN.ix 0, 1), (HOST_HDM_BASE.ix 0, 2), (EVQ_CFG_EN.ix 1, 1), (EVQ_RING_BASE.ix 1, H + 4096)]
  { s with
    slow := [⟨5, false, false, false, false⟩, ⟨6, true, true, false, false⟩, ⟨7, true, false, false, false⟩],
    host := { s.host with
      pins := [⟨0, 1, 4096, 4096, true⟩, ⟨1, 1, 8192, 4096, true⟩], atc := [⟨1, 4096, 4096, [0]⟩, ⟨0, 0, 4096, []⟩, ⟨1, 12288, 4096, [1,4]⟩], pri := [(3, 1, 2), (4, 0, 1)], priGone := [8], priNext := 4 } }

def exph : State := { hrun with host := { hrun.host with exp := some { ctx := 2, kind := 0, tag := 6, bufs := [(H + 0x20000, 9000)], started := true } } }

def poid : State := dm [d2, d4, d5, d7] (ats (hrun.poisonAdd 0 256))

def hubK : State := (hubS (noisy (run0 true))).withHub (fun h => { h with corrQ := [], retry := [], scrubQ := [(5, 9)] })

def attI : State := { ctxS State.reset with attend := [(1, { expiry := some 3000, first := some (8, 2), cause := 3 })], cap := { State.reset.cap with pend := [] } }

def cw (op e ix ctx tag : Nat) (rest : Nat) : BitVec 512 := BitVec.ofNat 512 (op + e*256 + ix*512 + ctx*2^16 + tag*2^32 + rest*2^64)

def withF (i : Nat) (items : List (BitVec 512)) (d : Nat) (s : State) : State := s.setFifo i (fun _ => ⟨items, d, some 3, []⟩)

def ringR (s : State) : State :=
  let s := s.fsetAll [(EVQ_CFG_EN.ix 1, 1), (EVQ_CFG_EN.ix 2, 1), (EVQ_CFG_LOG2.ix 1, 6), (EVQ_RING_BASE.ix 1, H + 0x4000), (EVQ_RING_BASE.ix 2, H + 0x8000), (EVQ_TAIL_TAIL.ix 1, 63), (EVQ_HEAD_HEAD.ix 1, 20), (EVQ_CFG_MODERATE.ix 1, 2), (EVQ_TAIL_TAIL.ix 2, 2^20 - 1), (EVQ_HEAD_HEAD.ix 2, 2^20-60),
    (EVQ_CFG_IDLE.ix 0, 3), (EVQ_CFG_IDLE.ix 1, 4), (EVQ_CFG_IDLE.ix 2, 4), (EVQ_CFG_IDLE.ix 3, 4), (EVQ_EVMASK_TICK, 1)]
  { s with rings := [{ sinceRaise := 1, pendingEntry := some 3 }, { sinceRaise := 0, pendingEntry := none }] }

def ev4 : List (BitVec 512) := [evWord 3 false 0 0 (5*2^16), evWord 3 true 1 0 (7*2^16), evWord 9 true 0 0 0]

def pk (l : List (BitVec 512)) (s : State) : State := ringR (withF 1 ev4 2 (withF 2 (ev4.drop 1) 0 (withF 3 ev4 0 (withF 0 l 0 s))))

def crt (c : Cart) (s : State) : State :=
  let s := s.fsetAll [(HRD_STATE_PRESENT, 1), (HRD_STATE_AUTHENTICATED, 1), (HRD_ADDR_ADDR, 0x7000)]
  { s with power := { s.power with cart := some c } }

def hv (s : State) : State :=
  let s := s.fsetAll [(HRD_STATE_HARVEST_DUE, 1), (TICK_PLAN_CUR, 1), (TICK_PLAN_CUR_KIND, 2)]
  { s with edgeAt := s.now }

def ac (s : State) : State :=
  let s := s.fsetAll [(HRD_HARVEST_ACTIVE, 1), (HRD_STATE_HARVEST_ACTIVE, 1), (HRD_HARVEST_AREA, 1)]
  { s with host := { s.host with descs := [{ eng := 12, q := 0, ctx := 0, kind := .harvest, src := 0, dst := 0, length := 9 }] } }

def idle (s : State) : State := { s with ctxs := [{}, {}, {}, {}], job := {}, run := {} }

def hbmArg : Word64 := 5#64 + (7#64 <<< 4) + (9#64 <<< 9)

def lnkArg : Word64 := 3#64 + (1#64 <<< 4) + (2#64 <<< 5)

def bnk : Word64 := 0x25#64

def lanes (s : State) : State :=
  let s := s.withHub (fun h => { h with laneBad := [argHbm hbmArg.toNat, 77], pprUsed := [(argBank bnk.toNat, Config.pprPerBank)], hit := [(5, 1, 2), (4, 1, 1)].map (fun x => (x.1, x.2.1)) })
  { s with links := s.links.map (fun l => { l with laneBad := [(1, 2), (0, 0)] }) }

def b0 : State := idle host0

def pois (s : State) : State := s.fsetAll [((HUB_POISON_VALID.die 1).ix 3, 1), ((HUB_POISON_STACK.die 1).ix 3, 1), ((HUB_POISON_VALID.die 1).ix 4, 1), ((HUB_POISON_STACK.die 1).ix 4, 2)]

def tr (s : State) : State := s.fsetAll [(BENCH_CTL_TRACE_EN, 1), (BENCH_CTL_TRACE_SEL, 0b10110)]

def bn (f : BenchSt → BenchSt) (s : State) : State := { s with bench := f s.bench }

def okKeys : List (Nat × Bool × Nat) :=
  [1, 2, 7, 8, 9, 10, 11, 12].map (fun t => (t, true, 0)) ++ (range' 0 80).map (fun n => (3, false, n)) ++
  (range' 0 4).map (fun n => (4, false, n)) ++ (range' 0 4).map (fun n => (5, false, n)) ++ [(6, true, 0), (0xFF, true, 0)]

def okDir : List DirEnt := (indexed okKeys 0).map (fun x => ⟨x.2.1, x.2.2.1, 0, x.2.2.2, 0x2000 + 64 * x.1, 64, 0, true⟩)

def fence16 (l : List Word64) : List Word64 := l ++ List.replicate (16 - l.length) 0

def okPlan (kind : Nat) (fences : List Word64) (dfs : List (BitVec 128)) (slots : List (BitVec 256)) (succ : Nat) : PlanImg :=
  ⟨BitVec.ofNat 512 (kind + fences.length*2^8 + dfs.length*2^16 + slots.length*2^32 + slots.length*2^48 + succ*2^56), fence16 fences, dfs, slots, 256⟩

def okImg : ImageFile := { imgO with
  header := BitVec.ofNat 2048 (0x484F494D + 3*2^32 + 256*2^48 + 0*2^64 + 0xA1*2^128 + okKeys.length*2^160 + 256*2^192 + 0x10000*2^256 + 1*2^320),
  fileLen := 0x10000, keyDigest := 0, dir := okDir, streams := [], hubScheds := [], linkScheds := [], solverJobs := [], redPlans := [], data := [],
  stateMap := [],
  plans := [some (okPlan 0 [fence 200000 1 false 0, fence 400000 2 false 0, fence 900000 3 false 0, fence 1048576 4 false 0] [dfence 60000 0 0] [slotE 100 1 0x1000 0 400] 0), some (okPlan 1 [fence 100000 3 false 0, fence 1048576 4 false 0] [] [] 0), some (okPlan 2 [fence 100000 3 false 0, fence 1048576 4 false 0] [] [] 0)] }

def hl : State := { host0.fsetAll [(HULL_ID_OWNER_ENROLLED, 1)] with
    bench := { host0.bench with owner := some 0 }, host := { host0.host with
    cmds := [⟨1, 2, 77, 0x10000⟩] }, ctxs := [{}, {}, { loading := true }, {}] }

def imgE : ImageFile := { imgO with stateMap := [] }

def hostE : State := { host0 with ctxs := modAt (fun c => { c with image := some imgE }) 0 host0.ctxs }

def expB : List Byte := leBytes 128 0x1dd0ea1100000000000000000000000500000000000000800000000000000080000000000000008000000000000000a10000000100000000000000000000000000000000000000080000000000000009000000000000000000000000000000000000000000000000000000000000000000000000000000000000000158454c4e

def ld : State := { hostE with mem := hostE.mem ++ (indexed expB 0x40000).filter (fun c => c.2 != 0) }

def tensR (f : ImageFile) (id role : Nat) : TensorEnt := (imgTensor f id role).getD (ten 0 0)

def slvJ (k : Nat) : SlvJob := ((slv1 (run0 true)).solver.jobs.find? (fun j => slvJob j.ent == k)).getD ⟨0, 0, 0, 0, { cause := none, off := 0 }⟩

/-! ### The spec's worked examples -/

/-- "Two renormalisations" (R83). -/
theorem test_renorm : (renorm 0x3F808100 0).bits = 0x3F81BB7E ∧ (renorm 0x3F817FF8 0).bits = 0x3F82BB80 := by decide +kernel

/-- "Conversion edge cases" to BF16 (R94 to R97). -/
theorem test_convert_bf16 :
    [0x3F808000, 0x3F818000, 0x7F7F7FFF, 0x7F7F8000, 0xFF800000, 0x00018000, 0x80008000, 0xFFC12345].map
        (fun x => (convert 0 1 x 127 127).bits) =
      [0x3F80, 0x3F82, 0x7F7F, 0x7F7F, 0xFF80, 0x0002, 0x8000, 0x7FC0] := by decide +kernel

/-- "Conversion edge cases" to and from FP16, E4M3, E5M2 and BP32 (R74, R94 to R98). -/
theorem test_convert_narrow :
    [(2, 0x477FE800, 127), (2, 0x477FF000, 127), (2, 0x33000000, 127), (3, 0x43E80000, 127), (3, 0x43F00000, 127),
        (3, 0x453B8000, 130), (3, 0x3B400000, 127), (3, 0x7F800000, 127), (4, 0x47700000, 127), (4, 0xFF800000, 127)].map
        (fun x => (convert 0 x.1 x.2.1 x.2.2 x.2.2).bits) =
      [0x7BFF, 0x7BFF, 0, 0x7E, 0x7E, 0x7C, 0x02, 0x7F, 0x7B, 0xFC] ∧
    (convert 3 0 0x7C 130 130).bits = 0x45400000 ∧ (convert 3 0 0xFF 127 127).bits = 0x7FC00000 ∧
    (convert 5 0 0x3F81BB7E 127 127).bits = 0x3F808100 := by decide +kernel

/-- "One stochastic write": with the first draw the weight rounds up, with the second it does not. -/
theorem test_stochastic_write : (srBf16 0x3F804000 0xD2A1).bits = 0x3F81 ∧ (srBf16 0x3F804000 0x1F00).bits = 0x3F80 := by
  decide +kernel

/-- "Normalising one element" (R187, R203). -/
theorem test_normalise : recipNat 8355840 = 0x34008081 ∧ (fpMul 0x4A800000 0x34008081).bits = 0x3F008081 := by decide +kernel

/-- "Small steps held in the pair" (R83): three steps of −2^−10 from 1.0. -/
theorem test_pair_steps :
    (renorm 0x3F800000 (fpAdd 0 0xBA800000).bits).bits = 0x3F80BA80 ∧
    (renorm 0x3F800000 (fpAdd 0xBA800000 0xBA800000).bits).bits = 0x3F80BB00 ∧
    (renorm 0x3F800000 (fpAdd 0xBB000000 0xBA800000).bits).bits = 0x3F7F3A80 := by decide +kernel

/-- "Decoding one address": byte 0x40 of granule 0x380002F of S5. -/
theorem test_address : granuleAddr 5 0x380002F + 0x40 = 0x5380002F40 := by decide +kernel

/-- The opcode table gives no row any bits: no word spells a command. -/
theorem test_no_word_decodes : ∀ nbits w, decodeTableWord nbits w = none := fun _ _ => rfl

/-- HULL_ID after reset reads product 0x2416 and stepping 0x00A1 (R582), and TAP's IDCODE is 0x1241656B (R593). -/
theorem test_reset_identity : State.reset.fget HULL_ID_STEPPING = 0x00A1 ∧ State.reset.fget HULL_ID_PRODUCT = 0x2416 := by
  decide +kernel

/-- A step on an empty queue lets one cycle pass. -/
theorem test_idle_step : step State.reset = .next { State.reset with now := 1 } := rfl

/-- An HBM granule that does not exist is a fault (R322). -/
theorem test_no_such_granule : ∃ x, exec (.hubRead 0 16 0 {}) State.reset = .fault x := ⟨_, rfl⟩

/-- "Edge timing for one module": a marker that arrives LEAD − PATH before the edge puts it at 140,000,000,000. -/
theorem test_edge_timing :
    (match exec (.marker 139999974912 8) ((run0 false).fsetAll [(TICK_LEAD_LEAD, 32768), (TICK_LEAD_PATH, 7680)]) with
      | .next t => t.job.markerEdge | _ => none) = some 140000000000 := by decide +kernel

/-- "Three reads that meet in the router": read A of a free window answers 212 cyc after it arrived; B, behind A, after 424. -/
theorem test_router_reads :
    (match exec (.regReadClear 2000 0 0x172014A0 8) (run0 true) with
      | .next t => t.outbox.map (fun o => match o with | .regReply c _ => c | _ => 0) | _ => []) = [2212] ∧
    (match exec (.regReadClear 2010 0 0x172014A8 8) { run0 true with router := { busy := [(23, 2212)], reads := [2212] } } with
      | .next t => t.outbox.map (fun o => match o with | .regReply c _ => c | _ => 0) | _ => []) = [2424] := by decide +kernel

/-- Reed and Solomon (R369): a frame with three bad bytes in each codeword decodes to what was sent, one with four does not. -/
theorem test_fec_corrects :
    (let bad := fun (l : List Nat) (b : List Nat) => l.foldl (fun x i => modAt (fun y => (y + 77) % 256) i x) b
    let sent := frameBytes 0x1103 0x12345
    (rxDecode (bad [0, 3, 8, 9, 40, 261] sent)).1 = sent.take 260 ∧ (rxDecode (bad [10, 12, 14, 16] sent)).2 = .failed) := by
  decide +kernel

/-- PAM4 levels are Gray-coded (R369). -/
theorem test_gray : grayPam4 [0, 0, 0, 1, 1, 1, 1, 0] = [0, 1, 2, 3] := by decide +kernel

/-- The header of SEQ 5, kind 4 in slot 24 with a NAK of 9 (R370). -/
theorem test_frame_header : frameFields ((frameBytes (5 + 2 ^ 8 * 4 + 2 ^ 11 * 24 + 2 ^ 16 + 2 ^ 17 * 9) 7).take 260) =
    { seq := 5, kind := 4, slot := 24, nak := some 9, laneSwap := false, flit := 7 } := by decide +kernel

/-- Mixed radix (R401): in a layout of degree 4 on D, the first axis of its order, rank 6 has D coordinate 2. -/
theorem test_data_index :
    layCoord (BitVec.ofNat 768 (4 + 2 ^ 32 * 2 + 2 ^ 64 + 2 ^ 96 + 2 ^ 128 + 2 ^ 168 + 2 * 2 ^ 176 + 3 * 2 ^ 184 + 4 * 2 ^ 192)) 6 0 = 2 := by
  decide +kernel

/-! ### Soundness, checked by evaluation -/

/-- The invariant as a check. -/
def invB (s : State) : Bool :=
  tabWf resetOf s.regs && tabWf memDefault s.mem &&
  (tabWf (fun _ => 0) s.tiles.opLine && tabWf (fun _ => 0) s.tiles.opTag && tabWf (fun _ => (0 : Word32)) s.tiles.acc &&
    tabWf (fun _ => 0) s.tiles.mark && tabWf (fun _ => 0) s.tiles.slotCnt && tabWf (fun _ => 0) s.tiles.seqNext &&
    tabWf (fun _ => {}) s.tiles.pod && tabWf (fun _ => {}) s.tiles.accHist &&
    decide (s.tiles.lines.Pairwise (fun v w => v.at_ ≤ w.at_))) &&
  (s.ctxs.length == 4 && s.fifos.length == 4 && s.rings.length == 2 && s.links.length == 16)

/-- A state that passes the check is sound. -/
theorem inv_of {s : State} (h : invB s = true) : Safety.Inv s := by
  simp only [invB, Bool.and_eq_true, beq_iff_eq, decide_eq_true_eq] at h
  obtain ⟨⟨⟨h1, h2⟩, ⟨⟨⟨⟨⟨⟨⟨⟨t1, t2⟩, t3⟩, t4⟩, t5⟩, t6⟩, t7⟩, t8⟩, t9⟩⟩, ⟨⟨⟨c1, c2⟩, c3⟩, c4⟩⟩ := h
  exact ⟨⟨h1, h2, t1, t2, t3, t4, t5, t6, t7, t8, t9⟩, c1, c2, c3, c4⟩

/-- A running state that passes the check is awake. -/
theorem awake_of {s : State} (h : (s.power.halt == .no && invB s) = true) : Awake s := by
  simp only [Bool.and_eq_true, beq_iff_eq] at h
  exact ⟨h.1, inv_of h.2⟩

/-- A state that passes the checks is in a tick. -/
theorem inTick_of {f : ImageFile} {p : PlanImg} {s : State}
    (h : ((s.power.halt == .no && invB s) && (s.run.active && (decide (s.image = some f) && decide (s.curPlan = some p)))) = true) :
    InTick f p s := by
  simp only [Bool.and_eq_true, decide_eq_true_eq] at h
  exact ⟨awake_of (by simpa using h.1), h.2.1, h.2.2.1, h.2.2.2⟩

theorem settled_of {s : State} {c : Nat} (h : (s.dueBy c).isEmpty = true) : Settled s c := List.isEmpty_iff.mp h

/-- The flight that lands on the next cycle, where it is the one thing due. -/
def landing (s : State) : Flight :=
  match s.dueBy (s.now + 1) with
  | [(_, .flight g)] => g
  | _ => ⟨.stream, 0, 0, 0, 0, 0, false, false⟩

/-- The accumulator rows that a chain transfer brings. -/
def contentOf (g : Flight) : List Word32 :=
  match g.kind with
  | .chain c _ => c
  | _ => []

theorem landing_due {s : State}
    (h : (match s.dueBy (s.now + 1) with | [(d, .flight g)] => d == g.done | _ => false) = true) :
    s.dueBy (s.now + 1) = [((landing s).done, .flight (landing s))] := by
  unfold landing
  split at h
  · rename_i e; rw [e]; simpa using h
  · cases h

theorem contentOf_eq {g : Flight} {t : Bool} (h : (match g.kind with | .chain _ u => u == t | _ => false) = true) :
    g.kind = .chain (contentOf g) t := by
  unfold contentOf
  split at h
  · rename_i e; rw [e]; simpa using h
  · cases h

theorem forAll3 {m n : Nat} {A B C : Nat → Nat → Prop} (a : ∀ i, i < m → ∀ j, j < n → A i j)
    (b : ∀ i, i < m → ∀ j, j < n → B i j) (c : ∀ i, i < m → ∀ j, j < n → C i j) :
    ∀ i, i < m → ∀ j, j < n → A i j ∧ B i j ∧ C i j :=
  fun i hi j hj => ⟨a i hi j hj, b i hi j hj, c i hi j hj⟩

/-- The CRC's fold with its value forced at every byte, so that the kernel evaluates it in small steps. -/
def crcForced : List Byte → Nat → Nat
  | [], c => c
  | b :: l, 0 => crcForced l (crcByte 0 b)
  | b :: l, c + 1 => crcForced l (crcByte (c + 1) b)

theorem crcForced_eq (l : List Byte) (c : Nat) : l.foldl crcByte c = crcForced l c := by
  induction l generalizing c with
  | nil => cases c <;> rfl
  | cons b l ih => cases c <;> exact ih _

/-- CRC-32C so evaluated. -/
def crcAll (l : List Byte) : Nat := Nat.xor (crcForced l 0xFFFFFFFF) 0xFFFFFFFF

theorem crcAll_eq (l : List Byte) : crc32c l = crcAll l := congrArg (fun c => Nat.xor c 0xFFFFFFFF) (crcForced_eq l _)

theorem issues_of {s : State} {tile op : Nat} {w : Word256}
    (h : (invB s && (decide (tile < 80) && (s.runsWord tile w op && (s.dueBy (s.issueAbs w)).isEmpty))) = true) :
    Issues s tile w op := by
  simp only [Bool.and_eq_true, decide_eq_true_eq] at h
  exact ⟨inv_of h.1, h.2.1, h.2.2.1, settled_of h.2.2.2⟩

/-! ### Witnesses: the hypotheses of every obligation are met -/

theorem witness_StepRunsFrontCommand : ∃ (c : Instr) (rest : List Instr) (s : State), s.pending = c :: rest :=
  ⟨.tickEdge, [], { State.reset with pending := [.tickEdge] }, rfl⟩

theorem witness_TimePassesWithWhatIsDue :
    (∃ (s : State) (c : Nat), Settled s c) ∧ (∃ s : State, s.pending = []) ∧
    (∃ (c : Instr) (at_ : Nat) (s : State), s.power.halt = .no ∧ timedAt c = some at_) ∧
    (∃ (q : Nat × Instr) (s : State) (tile : Nat) (w : Word256) (arrival : List Word32) (loc : VeLoc) (a b : Nat) (x : Word32)
      (k : Bool) (aux : List UpdAux), q ∈ streamWords tile w arrival loc a b x k aux ∧ wOpcode w = q.1 ∧
      s.streamRuns tile = true ∧ (s.atIssue w).streamRuns tile = true) :=
  ⟨⟨State.reset, 0, settled_of (by decide +kernel)⟩, ⟨State.reset, rfl⟩, ⟨.warmReset 5, 5, run0 true, by decide +kernel, rfl⟩,
   _, tileW (run0 true), 0, flyW, [], ⟨false, false, .words⟩, 0, 0, 0, false, [], .head _, by decide +kernel, by decide +kernel,
   by decide +kernel⟩

theorem witness_EveryStepKeepsTheInvariant : ∃ s t : State, Safety.Inv s ∧ step s = .next t :=
  ⟨State.reset, State.reset.upTo 1, inv_of (by decide +kernel), rfl⟩

theorem witness_CommandsKeepTheQueueAndTheClock : ∃ (c : Instr) (s t : State), exec c s = .next t :=
  ⟨.tickEdge, State.reset, _, rfl⟩

theorem witness_FenceMissesAreCountedAndTheFirstRecorded :
    (
    ∃ (s : State), ∃ (f : ImageFile), ∃ (p : PlanImg), ∃ (fence : Nat),
    (InTick f p s) ∧
    (fence < planNfence p) ∧
    let c := s.edgeAt + fenceOff (p.fences.getD fence 0)
    (Settled s c)) :=
  ⟨run0 true, img, step0, 0, inTick_of (by decide +kernel), by decide +kernel, settled_of (by decide +kernel)⟩

theorem witness_DataFenceChecksItsBuffer :
    (
    ∃ (s : State), ∃ (f : ImageFile), ∃ (p : PlanImg), ∃ (i : Nat),
    (InTick f p s) ∧
    (s.reloading = false) ∧
    (i < planNdfence p) ∧
    let d := p.dfences.getD i 0
    let c := s.edgeAt + dfCycle d
    (Settled s c)) :=
  ⟨run0 true, img, step0, 0, inTick_of (by decide +kernel), by decide +kernel, by decide +kernel, settled_of (by decide +kernel)⟩

theorem witness_TickEdgeAppliesTheTokenAndOpensTheTick :
    (
    ∃ (s : State), ∃ (f : ImageFile), ∃ (p : PlanImg),
    (InTick f p s) ∧
    (s.job.tokensMissed = 0) ∧
    (s.job.aborting = none) ∧
    (s.job.preemptAt = none) ∧
    (Settled s (s.job.markerEdge.getD s.predictedEdge)) ∧
    ∃ k, ∃ copy,
    (s.reloading = false) ∧
    (s.job.token = some (k, copy))) ∧ (
    ∃ (s : State), ∃ (f : ImageFile), ∃ (p : PlanImg),
    (InTick f p s) ∧
    (s.job.tokensMissed = 0) ∧
    (s.job.aborting = none) ∧
    (s.job.preemptAt = none) ∧
    (Settled s (s.job.markerEdge.getD s.predictedEdge)) ∧
    (s.job.token = none)) :=
  ⟨⟨withTok (run0 false) (tok 1 7 0), img, step0, inTick_of (by decide +kernel), by decide +kernel, by decide +kernel, by decide +kernel, settled_of (by decide +kernel), tok 1 7 0, none, by decide +kernel, by decide +kernel⟩,
   ⟨run0 true, img, step0, inTick_of (by decide +kernel), by decide +kernel, by decide +kernel, by decide +kernel, settled_of (by decide +kernel), by decide +kernel⟩⟩

theorem witness_IngestCloseTakesTheLocalCount :
    (
    ∃ (s : State), ∃ (f : ImageFile), ∃ (p : PlanImg),
    (InTick f p s) ∧
    (s.reloading = false) ∧
    (s.run.stepRuns = true) ∧
    (s.run.closeTaken = false) ∧
    (s.isLender = false) ∧
    (Settled s (s.edgeAt + (planFenceOf p 1 - imgCommitMin f)))) :=
  ⟨run0 true, img, step0, inTick_of (by decide +kernel), by decide +kernel, by decide +kernel, by decide +kernel, by decide +kernel, settled_of (by decide +kernel)⟩

theorem witness_IngestEndFormsNuOrMarksTheStepEmpty :
    (
    ∃ (s : State), ∃ (f : ImageFile), ∃ (p : PlanImg),
    (InTick f p s) ∧
    (s.reloading = false) ∧
    (s.run.stepRuns = true) ∧
    (s.run.closeTaken = true) ∧
    (s.run.ingestEnded = false) ∧
    (Settled s (s.edgeAt + planFenceOf p 1))) :=
  ⟨let s := run0 true; { s with run := { s.run with closeTaken := true }, job := { s.job with localTokens := 40 } }, img, step0, inTick_of (by decide +kernel), by decide +kernel, by decide +kernel, by decide +kernel, by decide +kernel, settled_of (by decide +kernel)⟩

theorem witness_LossFenceFormsAndTestsTheLoss :
    (
    ∃ (s : State), ∃ (f : ImageFile), ∃ (p : PlanImg), ∃ (nu : Nat),
    (InTick f p s) ∧
    (s.reloading = false) ∧
    (s.run.stepRuns = true) ∧
    (s.nu = some nu) ∧
    (Settled s (s.edgeAt + planFenceOf p 2))) :=
  ⟨run0 true, img, step0, 0x3C000000, inTick_of (by decide +kernel), by decide +kernel, by decide +kernel, by decide +kernel, settled_of (by decide +kernel)⟩

theorem witness_HealthIsSentAndCombined :
    (
    ∃ (s : State), ∃ (f : ImageFile), ∃ (p : PlanImg),
    (InTick f p s) ∧
    (s.reloading = false) ∧
    (s.run.healthSent = false) ∧
    (Settled s (s.edgeAt + planFenceOf p 3))) ∧ (
    ∃ (s : State), ∃ (f : ImageFile), ∃ (p : PlanImg),
    (InTick f p s) ∧
    (s.reloading = false) ∧
    ∃ at_, ∃ link,
    (s.job.childrenSeen.contains link = false) ∧
    (Settled s at_)) :=
  ⟨⟨run0 true, img, step0, inTick_of (by decide +kernel), by decide +kernel, by decide +kernel, settled_of (by decide +kernel)⟩,
   ⟨run0 true, img, step0, inTick_of (by decide +kernel), by decide +kernel, 0, 0, by decide +kernel, settled_of (by decide +kernel)⟩⟩

theorem witness_CommitTokenIsSentForwardedAndHeld :
    (
    ∃ (s : State), ∃ (f : ImageFile), ∃ (p : PlanImg), ∃ (at_ : Nat),
    (InTick f p s) ∧
    (s.reloading = false) ∧
    (Settled s at_) ∧
    (s.job.token.isSome = true)) ∧ (
    ∃ (s : State), ∃ (f : ImageFile), ∃ (p : PlanImg), ∃ (at_ : Nat),
    (InTick f p s) ∧
    (s.reloading = false) ∧
    (Settled s at_) ∧
    (s.job.token = none) ∧
    (s.fbit HULL_ORCH_MASTER = true)) ∧ (
    ∃ (s : State), ∃ (f : ImageFile), ∃ (p : PlanImg), ∃ (at_ : Nat),
    (InTick f p s) ∧
    (s.reloading = false) ∧
    (Settled s at_) ∧
    (s.job.token = none) ∧
    (s.fbit HULL_ORCH_MASTER = false)) :=
  ⟨⟨withTok (run0 false) (tok 1 7 0), img, step0, 0, inTick_of (by decide +kernel), by decide +kernel, settled_of (by decide +kernel), by decide +kernel⟩,
   ⟨run0 true, img, step0, 0, inTick_of (by decide +kernel), by decide +kernel, settled_of (by decide +kernel), by decide +kernel, by decide +kernel⟩,
   ⟨run0 false, img, step0, 0, inTick_of (by decide +kernel), by decide +kernel, settled_of (by decide +kernel), by decide +kernel, by decide +kernel⟩⟩

theorem witness_MarkersFixTheNextEdge :
    (
    ∃ (s : State),
    (Awake s) ∧
    (s.run.active = true) ∧
    (s.fbit HULL_ORCH_MASTER = true) ∧
    let c := s.predictedEdge - s.fget TICK_LEAD_LEAD
    (Settled s c)) ∧ (
    ∃ (s : State),
    (Awake s) ∧
    (s.run.active = true) ∧
    ∃ c,
    (s.fbit HULL_ORCH_MASTER = false) ∧
    (s.job.markerEdge = none) ∧
    (Settled s c)) ∧ (
    ∃ (s : State),
    (Awake s) ∧
    (s.run.active = true) ∧
    (s.fbit HULL_ORCH_MASTER = false) ∧
    (s.job.markerEdge = none) ∧
    (s.job.lostAtEdge = false) ∧
    (Settled s s.predictedEdge)) :=
  ⟨⟨run0 true, awake_of (by decide +kernel), by decide +kernel, by decide +kernel, settled_of (by decide +kernel)⟩,
   ⟨run0 false, awake_of (by decide +kernel), by decide +kernel, 0, by decide +kernel, by decide +kernel, settled_of (by decide +kernel)⟩,
   ⟨run0 false, awake_of (by decide +kernel), by decide +kernel, by decide +kernel, by decide +kernel, by decide +kernel, settled_of (by decide +kernel)⟩⟩

theorem witness_NoticesAndLayouts :
    (
    ∃ (s : State),
    (Awake s) ∧
    (s.run.active = true) ∧
    ∃ at_,
    (Settled s at_)) ∧ (
    ∃ (s : State),
    (Awake s) ∧
    (s.run.active = true) ∧
    ∃ p, ∃ phase,
    (s.curPlan = some p) ∧
    (phase < planNfence p) ∧
    (phaseLayout p phase ≠ s.job.layout) ∧
    (Settled s (s.edgeAt + phaseStart p phase + 4096))) :=
  ⟨⟨run0 true, awake_of (by decide +kernel), by decide +kernel, 0, settled_of (by decide +kernel)⟩,
   ⟨run0 true, awake_of (by decide +kernel), by decide +kernel, step0, 0, by decide +kernel, by decide +kernel, by decide +kernel, settled_of (by decide +kernel)⟩⟩

theorem witness_StreamWordsIssueInOrder :
    (
    ∃ (s : State), ∃ (tile : Nat), ∃ (w : Word256), ∃ (arrival : List Word32), ∃ (loc : VeLoc), ∃ (a : Nat), ∃ (b : Nat), ∃ (x : Word32), ∃ (k : Bool), ∃ (aux : List UpdAux), ∃ (q : Nat × Instr),
    (q ∈ streamWords tile w arrival loc a b x k aux) ∧
    (Issues s tile w q.1)) ∧ (
    ∃ (s : State), ∃ (tile : Nat), ∃ (w : Word256), ∃ (arrival : List Word32), ∃ (loc : VeLoc), ∃ (a : Nat), ∃ (b : Nat), ∃ (x : Word32), ∃ (k : Bool), ∃ (aux : List UpdAux), ∃ (q : Nat × Instr),
    (q ∈ streamWords tile w arrival loc a b x k aux) ∧
    (s.runsWord tile w q.1 = false)) ∧ (
    ∃ (s : State), ∃ (tile : Nat), ∃ (w : Word256), ∃ (arrival : List Word32), ∃ (loc : VeLoc), ∃ (a : Nat), ∃ (b : Nat), ∃ (x : Word32), ∃ (k : Bool), ∃ (aux : List UpdAux), ∃ (q : Nat × Instr),
    (q ∈ streamWords tile w arrival loc a b x k aux) ∧
    (s.streamRuns tile = false)) :=
  ⟨⟨tileW (run0 true), 0, wd [(0,0x10),(12,1),(24,7),(40,1),(64,500),(104,3),(128,0),(145,4)], [1,2,3], ⟨false, false, .words⟩, 0, 0, 0x3F800000, false, [], _, .head _, issues_of (by decide +kernel)⟩,
   ⟨tileW (run0 true), 0, wd [(0,0x10),(12,1),(24,7),(40,1),(64,500),(104,3),(128,0),(145,4)], [1,2,3], ⟨false, false, .words⟩, 0, 0, 0x3F800000, false, [], _, .tail _ (.head _), by decide +kernel⟩,
   ⟨{ tileW (run0 true) with tiles := { (tileW (run0 true)).tiles with ended := [0] } }, 0, wd [(0,0x10),(12,1),(24,7),(40,1),(64,500),(104,3),(128,0),(145,4)], [1,2,3], ⟨false, false, .words⟩, 0, 0, 0x3F800000, false, [], _, .head _, by decide +kernel⟩⟩

theorem witness_PodInstructionsWriteTheirRows :
    (
    ∃ (s : State), ∃ (tile : Nat), ∃ (w : Word256), ∃ (stream : Bool),
    (Issues s tile w (if stream then 0x10 else 0x11)) ∧
    let served := s.unserved tile (wLpod w) = false
    (¬ served)) ∧ (
    ∃ (s : State), ∃ (tile : Nat), ∃ (w : Word256), ∃ (stream : Bool),
    (Issues s tile w (if stream then 0x10 else 0x11)) ∧
    let x := s.issueAbs w
    let served := s.unserved tile (wLpod w) = false
    let fault := podFieldsBad stream w = true ∨ fp8OrientBad w = true ∨
        (wAdd w = true ∧ wChain w = false ∧ s.accWritten tile (wAcc w) = false) ∨ s.podDepBad stream tile w x = true
    (served) ∧
    (fault)) ∧ (
    ∃ (s : State), ∃ (tile : Nat), ∃ (w : Word256), ∃ (stream : Bool),
    (Issues s tile w (if stream then 0x10 else 0x11)) ∧
    let x := s.issueAbs w
    let served := s.unserved tile (wLpod w) = false
    let fault := podFieldsBad stream w = true ∨ fp8OrientBad w = true ∨
        (wAdd w = true ∧ wChain w = false ∧ s.accWritten tile (wAcc w) = false) ∨ s.podDepBad stream tile w x = true
    (served) ∧
    (¬ fault) ∧
    (s.fmtMismatch stream tile w x x = true)) ∧ (
    ∃ (s : State), ∃ (tile : Nat), ∃ (w : Word256), ∃ (stream : Bool),
    (Issues s tile w (if stream then 0x10 else 0x11)) ∧
    let x := s.issueAbs w
    let served := s.unserved tile (wLpod w) = false
    let fault := podFieldsBad stream w = true ∨ fp8OrientBad w = true ∨
        (wAdd w = true ∧ wChain w = false ∧ s.accWritten tile (wAcc w) = false) ∨ s.podDepBad stream tile w x = true
    let noValue := wChain w = true ∧ s.chainClear stream tile w x = true
    (served) ∧
    (¬ fault) ∧
    (s.fmtMismatch stream tile w x x = false) ∧
    (noValue)) ∧ (
    ∃ (s : State), ∃ (tile : Nat), ∃ (w : Word256), ∃ (stream : Bool),
    (Issues s tile w (if stream then 0x10 else 0x11)) ∧
    let x := s.issueAbs w
    let served := s.unserved tile (wLpod w) = false
    let fault := podFieldsBad stream w = true ∨ fp8OrientBad w = true ∨
        (wAdd w = true ∧ wChain w = false ∧ s.accWritten tile (wAcc w) = false) ∨ s.podDepBad stream tile w x = true
    let noValue := wChain w = true ∧ s.chainClear stream tile w x = true
    (served) ∧
    (¬ fault) ∧
    (s.fmtMismatch stream tile w x x = false) ∧
    (¬ noValue)) ∧ (
    ∃ (s : State), ∃ (g : Flight), ∃ (stream : Bool),
    (Safety.Inv s) ∧
    (s.pending = []) ∧
    (g.tile < 80) ∧
    (g.kind = (if stream then .stream else .incell)) ∧
    (s.dueBy (s.now + 1) = [(s.flightDue g, .flight g)]) ∧
    let w := g.word
    (s.fmtMismatch stream g.tile w g.start g.done = false)) ∧ (
    ∃ (s : State), ∃ (g : Flight), ∃ (stream : Bool),
    (Safety.Inv s) ∧
    (s.pending = []) ∧
    (g.tile < 80) ∧
    (g.kind = (if stream then .stream else .incell)) ∧
    (s.dueBy (s.now + 1) = [(s.flightDue g, .flight g)]) ∧
    let w := g.word
    (s.fmtMismatch stream g.tile w g.start g.done = true)) :=
  ⟨⟨(tileW (run0 true)).fset (TILE_POD_UNSERVED_MASK.tile 0) 1, 0, wd [(0,0x10),(12,1),(24,7),(40,1),(64,500),(104,3),(128,0),(145,4)], true, issues_of (by decide +kernel), by decide +kernel⟩,
   ⟨tileW (run0 true), 0, wd [(0,0x11),(12,1),(24,7),(40,1),(64,500),(104,3),(128,0),(145,4)], false, issues_of (by decide +kernel), by decide +kernel, by decide +kernel⟩,
   ⟨tileW (run0 true), 0, wd [(0,0x11),(12,2),(24,7),(35,1),(40,127),(64,500),(104,3),(128,0),(145,4)], false, issues_of (by decide +kernel), by decide +kernel, by decide +kernel, by decide +kernel⟩,
   ⟨tileW (run0 true), 0, wd [(0,0x11),(11,1),(32,1),(12,1),(24,5),(35,1),(40,127),(64,500),(104,3),(128,0),(145,4)], false, issues_of (by decide +kernel), by decide +kernel, by decide +kernel, by decide +kernel, by decide +kernel⟩,
   ⟨tileW (run0 true), 0, wd [(0,0x10),(12,1),(24,7),(40,1),(64,500),(104,3),(128,0),(145,4)], true, issues_of (by decide +kernel), by decide +kernel, by decide +kernel, by decide +kernel, by decide +kernel⟩,
   ⟨flying (.mmStream 0 flyW) (tileW (run0 true)), landing (flying (.mmStream 0 flyW) (tileW (run0 true))), true, inv_of (by decide +kernel), by decide +kernel, by decide +kernel, by decide +kernel, by decide +kernel, by decide +kernel⟩,
   ⟨let s := flying (.mmStream 0 flyW) (tileW (run0 true)); s.setOpLine 0 5 0 2 1200, landing (let s := flying (.mmStream 0 flyW) (tileW (run0 true)); s.setOpLine 0 5 0 2 1200), true, inv_of (by decide +kernel), by decide +kernel, by decide +kernel, by decide +kernel, by decide +kernel, by decide +kernel⟩⟩

theorem witness_LoadFillsOperandLines :
    (
    ∃ (s : State), ∃ (tile : Nat), ∃ (w : Word256),
    (Issues s tile w 0x20) ∧
    let l0 := getBits (wX w) 0 17
    (98304 < l0 + (wY w + 1))) ∧ (
    ∃ (s : State), ∃ (tile : Nat), ∃ (w : Word256),
    (Issues s tile w 0x20) ∧
    let l0 := getBits (wX w) 0 17
    (l0 + wY w < 98304)) :=
  ⟨⟨tileW (run0 true), 0, wd [(0,0x20),(12,1),(32,98303),(104,1),(64,500),(128,0x1000)], issues_of (by decide +kernel), by decide +kernel⟩,
   ⟨tileW (run0 true), 0, wd [(0,0x20),(12,2),(32,3),(104,1),(64,500),(128,0x1000)], issues_of (by decide +kernel), by decide +kernel⟩⟩

theorem witness_ReadoutStoresItsRows :
    (
    ∃ (s : State), ∃ (tile : Nat), ∃ (w : Word256),
    (Issues s tile w 0x21) ∧
    let pair := getBits (wX w) 1 1 == 1
    let f := if pair then 5 else wFmt w
    let wd := fmtWidth f
    let control := getBits (wX w) 2 1 = 0 ∧ inControlRegion (wA w) ((wY w + 1) * 16 * wd) = true
    (readoutBad w = true ∨ control)) ∧ (
    ∃ (s : State), ∃ (tile : Nat), ∃ (w : Word256),
    (Issues s tile w 0x21) ∧
    let pair := getBits (wX w) 1 1 == 1
    let f := if pair then 5 else wFmt w
    let wd := fmtWidth f
    let control := getBits (wX w) 2 1 = 0 ∧ inControlRegion (wA w) ((wY w + 1) * 16 * wd) = true
    (readoutBad w = false) ∧
    (¬ control) ∧
    (getBits (wX w) 2 1 = 0)) ∧ (
    ∃ (s : State), ∃ (tile : Nat), ∃ (w : Word256),
    (Issues s tile w 0x21) ∧
    (readoutBad w = false) ∧
    (getBits (wX w) 2 1 = 1)) :=
  ⟨⟨tileW (run0 true), 0, wd [(0,0x21),(24,5),(12,0),(34,1),(35,98302),(104,1),(64,500)], issues_of (by decide +kernel), by decide +kernel⟩,
   ⟨tileW (run0 true), 0, wd [(0,0x21),(24,5),(104,1),(64,500),(128,0x7000)], issues_of (by decide +kernel), by decide +kernel, by decide +kernel, by decide +kernel⟩,
   ⟨tileW (run0 true), 0, wd [(0,0x21),(24,5),(12,1),(34,1),(35,7),(104,1),(64,500)], issues_of (by decide +kernel), by decide +kernel, by decide +kernel⟩⟩

theorem witness_ChainCopiesBitForBit :
    (
    ∃ (s : State), ∃ (tile : Nat), ∃ (w : Word256),
    (Issues s tile w 0x22) ∧
    let kind := getBits (wX w) 0 2
    let src := 10 * getBits (wX w) 2 3 + getBits (wX w) 5 4
    let sacc := getBits (wX w) 9 8
    let x := s.issueAbs w
    let bad := chainBad w = true ∨ kind = 0 ∧ s.accBusy src sacc x = true ∨
        kind = 1 ∧ s.writing (wA w) (wA w + 65536) x = true
    (bad)) ∧ (
    ∃ (s : State), ∃ (tile : Nat), ∃ (w : Word256),
    (Issues s tile w 0x22) ∧
    let kind := getBits (wX w) 0 2
    let src := 10 * getBits (wX w) 2 3 + getBits (wX w) 5 4
    let sacc := getBits (wX w) 9 8
    let x := s.issueAbs w
    let bad := chainBad w = true ∨ kind = 0 ∧ s.accBusy src sacc x = true ∨
        kind = 1 ∧ s.writing (wA w) (wA w + 65536) x = true
    (¬ bad) ∧
    (kind ≠ 2)) ∧ (
    ∃ (s : State), ∃ (tile : Nat), ∃ (w : Word256),
    (Issues s tile w 0x22) ∧
    let kind := getBits (wX w) 0 2
    let src := 10 * getBits (wX w) 2 3 + getBits (wX w) 5 4
    let sacc := getBits (wX w) 9 8
    let x := s.issueAbs w
    let bad := chainBad w = true ∨ kind = 0 ∧ s.accBusy src sacc x = true ∨
        kind = 1 ∧ s.writing (wA w) (wA w + 65536) x = true
    (¬ bad) ∧
    (kind = 2) ∧
    (s.accChain tile (wAcc w) = true)) ∧ (
    ∃ (s : State), ∃ (tile : Nat), ∃ (w : Word256),
    (Issues s tile w 0x22) ∧
    let kind := getBits (wX w) 0 2
    let src := 10 * getBits (wX w) 2 3 + getBits (wX w) 5 4
    let sacc := getBits (wX w) 9 8
    let x := s.issueAbs w
    let bad := chainBad w = true ∨ kind = 0 ∧ s.accBusy src sacc x = true ∨
        kind = 1 ∧ s.writing (wA w) (wA w + 65536) x = true
    (¬ bad) ∧
    (kind = 2) ∧
    (s.accChain tile (wAcc w) = false)) ∧ (
    ∃ (s : State), ∃ (g : Flight), ∃ (content : List Word32), ∃ (tagged : Bool),
    (Safety.Inv s) ∧
    (s.pending = []) ∧
    (g.tile < 80) ∧
    (g.kind = .chain content tagged) ∧
    (s.dueBy (s.now + 1) = [(g.done, .flight g)]) ∧
    let a := wAcc g.word
    (s.accChain g.tile a = true)) ∧ (
    ∃ (s : State), ∃ (g : Flight), ∃ (content : List Word32), ∃ (tagged : Bool),
    (Safety.Inv s) ∧
    (s.pending = []) ∧
    (g.tile < 80) ∧
    (g.kind = .chain content tagged) ∧
    (s.dueBy (s.now + 1) = [(g.done, .flight g)]) ∧
    let a := wAcc g.word
    (s.accChain g.tile a = false)) :=
  ⟨⟨tileW (run0 true), 0, wd [(0,0x22),(24,8),(32,3),(64,500),(128,0x1000)], issues_of (by decide +kernel), by decide +kernel⟩,
   ⟨tileW (run0 true), 0, wd [(0,0x22),(24,8),(41,5),(64,500)], issues_of (by decide +kernel), by decide +kernel, by decide +kernel⟩,
   ⟨(tileW (run0 true)).setAccMark 0 9 6, 0, wd [(0,0x22),(24,9),(32,2),(64,500)], issues_of (by decide +kernel), by decide +kernel, by decide +kernel, by decide +kernel⟩,
   ⟨tileW (run0 true), 0, wd [(0,0x22),(24,9),(32,2),(64,500)], issues_of (by decide +kernel), by decide +kernel, by decide +kernel, by decide +kernel⟩,
   ⟨(flying (.chain 0 flyC []) (tileW (run0 true))).setAccMark 0 8 6, landing ((flying (.chain 0 flyC []) (tileW (run0 true))).setAccMark 0 8 6), contentOf (landing ((flying (.chain 0 flyC []) (tileW (run0 true))).setAccMark 0 8 6)), false, inv_of (by decide +kernel), by decide +kernel, by decide +kernel, contentOf_eq (by decide +kernel), landing_due (by decide +kernel), by decide +kernel⟩,
   ⟨flying (.chain 0 flyC []) (tileW (run0 true)), landing (flying (.chain 0 flyC []) (tileW (run0 true))), contentOf (landing (flying (.chain 0 flyC []) (tileW (run0 true)))), false, inv_of (by decide +kernel), by decide +kernel, by decide +kernel, contentOf_eq (by decide +kernel), landing_due (by decide +kernel), by decide +kernel⟩⟩

theorem witness_ConvertRoundsEachElementOnce :
    (
    ∃ (s : State), ∃ (tile : Nat), ∃ (w : Word256), ∃ (loc : VeLoc),
    (Issues s tile w 0x30) ∧
    let src := getBits (wX w) 0 4
    let dst := wFmt w
    let e := 64 * (wY w + 1)
    let scaled := 0 < getBits (wX w) 4 2
    let ok := convPairOk src dst = true ∧ (scaled → src = 0) ∧ elsBad loc.aSram (wA w) (fmtWidth src) e = false ∧
        dstBad loc.bSram (wB w) (fmtWidth dst) e = false
    (¬ ok)) ∧ (
    ∃ (s : State), ∃ (tile : Nat), ∃ (w : Word256), ∃ (loc : VeLoc),
    (Issues s tile w 0x30) ∧
    let src := getBits (wX w) 0 4
    let dst := wFmt w
    let e := 64 * (wY w + 1)
    let scaled := 0 < getBits (wX w) 4 2
    let ok := convPairOk src dst = true ∧ (scaled → src = 0) ∧ elsBad loc.aSram (wA w) (fmtWidth src) e = false ∧
        dstBad loc.bSram (wB w) (fmtWidth dst) e = false
    (ok)) :=
  ⟨⟨tileW (run0 true), 0, wd [(0,0x30),(12,0),(64,500),(128,0x1000),(192,0x8000)], ⟨false, false, .words⟩, issues_of (by decide +kernel), by decide +kernel⟩,
   ⟨tileW (run0 true), 0, wd [(0,0x30),(12,1),(64,500),(128,0x1000),(192,0x8000)], ⟨false, false, .words⟩, issues_of (by decide +kernel), by decide +kernel⟩⟩

theorem witness_ScaleAndSumsqReduceTheirSource :
    (
    ∃ (s : State), ∃ (tile : Nat), ∃ (w : Word256), ∃ (loc : VeLoc),
    let b := wY w + 1
    (Issues s tile w 0x31) ∧
    (elsBad loc.aSram (wA w) 32 (128 * b) = true ∨ dstBad loc.bSram (wB w) 8 b = true)) ∧ (
    ∃ (s : State), ∃ (tile : Nat), ∃ (w : Word256), ∃ (loc : VeLoc),
    let b := wY w + 1
    let a := if loc.aSram then wA w else s.statePlace (wA w)
    (Issues s tile w 0x31) ∧
    (elsBad loc.aSram (wA w) 32 (128 * b) = false) ∧
    (dstBad loc.bSram (wB w) 8 b = false) ∧
    ((loc.aSram = loc.bSram → Apart a (if loc.aSram then 2 * b else 512 * b) (wB w) (if loc.aSram then ceilDiv b 256 else b)))) ∧ (
    ∃ (s : State), ∃ (tile : Nat), ∃ (w : Word256), ∃ (loc : VeLoc),
    let e := 64 * (wY w + 1)
    let sumBad := s.image.bind (fun f => imgRedPlan f (getBits (wX w) 0 12)) = none ∨
        loc.src = .words ∧ elsBad loc.aSram (wA w) 32 e = true ∨ dstBad loc.bSram (wB w) 32 1 = true
    (Issues s tile w 0x41) ∧
    (sumBad)) ∧ (
    ∃ (s : State), ∃ (tile : Nat), ∃ (w : Word256), ∃ (loc : VeLoc),
    let e := 64 * (wY w + 1)
    let sumBad := s.image.bind (fun f => imgRedPlan f (getBits (wX w) 0 12)) = none ∨
        loc.src = .words ∧ elsBad loc.aSram (wA w) 32 e = true ∨ dstBad loc.bSram (wB w) 32 1 = true
    (Issues s tile w 0x41) ∧
    (¬ sumBad)) :=
  ⟨⟨tileW (run0 true), 0, wd [(0,0x31),(32,1),(104,1),(64,500),(128,98302),(192,0x8)], ⟨true, true, .words⟩, issues_of (by decide +kernel), by decide +kernel⟩,
   ⟨tileW (run0 true), 0, wd [(0,0x31),(32,1+2^12),(104,0),(64,500),(128,0x1000),(192,0x8000)], ⟨false, false, .words⟩, issues_of (by decide +kernel), by decide +kernel, by decide +kernel, by decide +kernel⟩,
   ⟨tileW (run0 true), 0, wd [(0,0x41),(44,1),(64,500),(128,98304),(192,8)], ⟨true, true, .words⟩, issues_of (by decide +kernel), by decide +kernel⟩,
   ⟨tileW (run0 true), 0, wd [(0,0x41),(64,500),(128,0x1000),(192,0x8000)], ⟨false, false, .words⟩, issues_of (by decide +kernel), by decide +kernel⟩⟩

theorem witness_TreeAddsThePartsPairwise :
    (
    ∃ (s : State), ∃ (tile : Nat), ∃ (w : Word256),
    (Issues s tile w 0x40) ∧
    let plan := s.image.bind (fun f => imgRedPlan f (getBits (wX w) 0 12))
    (plan = none)) ∧ (
    ∃ (s : State), ∃ (tile : Nat), ∃ (w : Word256), ∃ (elems : Nat),
    (Issues s tile w 0x40) ∧
    let plan := s.image.bind (fun f => imgRedPlan f (getBits (wX w) 0 12))
    ∃ p,
    (plan = some p) ∧
    let g := bvBits p.ent 64 64
    let target := getBits g 0 57
    let control := getBits g 63 1 = 0 ∧ inControlRegion target (4 * elems) = true
    (control)) ∧ (
    ∃ (s : State), ∃ (tile : Nat), ∃ (w : Word256), ∃ (elems : Nat),
    (Issues s tile w 0x40) ∧
    let plan := s.image.bind (fun f => imgRedPlan f (getBits (wX w) 0 12))
    ∃ p,
    (plan = some p) ∧
    let g := bvBits p.ent 64 64
    let target := getBits g 0 57
    let parts := p.parts.map (fun e => bvBits e 64 57)
    let waits := ∃ a ∈ parts, s.slotComplete a (4 * elems) (s.issueAbs w) = false
    let control := getBits g 63 1 = 0 ∧ inControlRegion target (4 * elems) = true
    (¬ control) ∧
    (waits)) ∧ (
    ∃ (s : State), ∃ (tile : Nat), ∃ (w : Word256), ∃ (elems : Nat),
    (Issues s tile w 0x40) ∧
    let plan := s.image.bind (fun f => imgRedPlan f (getBits (wX w) 0 12))
    ∃ p,
    (plan = some p) ∧
    let g := bvBits p.ent 64 64
    let target := getBits g 0 57
    let parts := p.parts.map (fun e => bvBits e 64 57)
    let waits := ∃ a ∈ parts, s.slotComplete a (4 * elems) (s.issueAbs w) = false
    let control := getBits g 63 1 = 0 ∧ inControlRegion target (4 * elems) = true
    (¬ control) ∧
    (¬ waits) ∧
    (getBits g 63 1 = 0)) ∧ (
    ∃ (s : State), ∃ (tile : Nat), ∃ (w : Word256), ∃ (elems : Nat),
    (Issues s tile w 0x40) ∧
    let plan := s.image.bind (fun f => imgRedPlan f (getBits (wX w) 0 12))
    ∃ p,
    (plan = some p) ∧
    let g := bvBits p.ent 64 64
    let parts := p.parts.map (fun e => bvBits e 64 57)
    let waits := ∃ a ∈ parts, s.slotComplete a (4 * elems) (s.issueAbs w) = false
    (¬ waits) ∧
    (getBits g 63 1 = 1) ∧
    (elems ≤ 16384)) :=
  ⟨⟨tileW (run0 true), 0, wd [(0,0x40),(32,2),(64,500)], issues_of (by decide +kernel), by decide +kernel⟩,
   ⟨tileW (run0 true), 0, wd [(0,0x40),(32,3),(64,500)], 0xBC0000000, issues_of (by decide +kernel), imgV.redPlans.getD 2 ⟨0, []⟩, by decide +kernel, by decide +kernel⟩,
   ⟨tileW (run0 true), 0, wd [(0,0x40),(32,0),(64,500)], 0, issues_of (by decide +kernel), imgV.redPlans.getD 0 ⟨0, []⟩, by decide +kernel, by decide +kernel, by decide +kernel⟩,
   ⟨(tileW (run0 true)).fset TICK_PLAN_CUR 1, 0, wd [(0,0x40),(32,0),(64,500)], 0, issues_of (by decide +kernel), imgV.redPlans.getD 0 ⟨0, []⟩, by decide +kernel, by decide +kernel, by decide +kernel, by decide +kernel⟩,
   ⟨(tileW (run0 true)).fset TICK_PLAN_CUR 1, 0, wd [(0,0x40),(32,1),(64,500)], 0, issues_of (by decide +kernel), imgV.redPlans.getD 1 ⟨0, []⟩, by decide +kernel, by decide +kernel, by decide +kernel, by decide +kernel⟩⟩

theorem witness_LookupAddAddsTheTokensRow :
    (
    ∃ (s : State), ∃ (tile : Nat), ∃ (w : Word256),
    (Issues s tile w 0x42) ∧
    let tensor := s.myImage.bind (fun f => imgWeight f (getBits (wX w) 0 20))
    (tensor = none)) ∧ (
    ∃ (s : State), ∃ (tile : Nat), ∃ (w : Word256), ∃ (dest : Nat),
    (Issues s tile w 0x42) ∧
    let tensor := s.myImage.bind (fun f => imgWeight f (getBits (wX w) 0 20))
    ∃ t0,
    (tensor = some t0) ∧
    ((7 ≤ t0.wb ∧ shardRows t0 % 128 = 0) ∨ shardRows t0 = 1) ∧
    let wb := 2 ^ t0.wb
    let rows := shardRows t0
    let control := inControlRegion dest (4 * rows * wb) = true
    (control)) ∧ (
    ∃ (s : State), ∃ (tile : Nat), ∃ (w : Word256), ∃ (dest : Nat),
    (Issues s tile w 0x42) ∧
    let tensor := s.myImage.bind (fun f => imgWeight f (getBits (wX w) 0 20))
    ∃ t0,
    (tensor = some t0) ∧
    ((7 ≤ t0.wb ∧ shardRows t0 % 128 = 0) ∨ shardRows t0 = 1) ∧
    let wb := 2 ^ t0.wb
    let rows := shardRows t0
    let control := inControlRegion dest (4 * rows * wb) = true
    (¬ control) ∧
    (Apart dest (4 * rows * wb) (wA w) (4 * (wY w + 1) * wb)) ∧
    (Apart dest (4 * rows * wb) (wB w) (4 * (wY w + 1)))) :=
  ⟨⟨tileW (run0 true), 0, wd [(0,0x42),(32,2),(104,2),(64,500),(128,0x1000),(192,0x500)], issues_of (by decide +kernel), by decide +kernel⟩,
   ⟨tileW (run0 true), 0, wd [(0,0x42),(32,51),(104,2),(64,500),(128,0x1000),(192,0x500)], 50465865728, issues_of (by decide +kernel), tens imgV 51, by decide +kernel, by decide +kernel, by decide +kernel⟩,
   ⟨tileW (run0 true), 0, wd [(0,0x42),(32,51),(104,2),(64,500),(128,0x1000),(192,0x500)], 0, issues_of (by decide +kernel), tens imgV 51, by decide +kernel, by decide +kernel, by decide +kernel, by decide +kernel, by decide +kernel⟩⟩

theorem witness_RowcolSumsSquaresInOrder :
    (
    ∃ (s : State), ∃ (tile : Nat), ∃ (w : Word256),
    (Issues s tile w 0x43) ∧
    let tensor := s.myImage.bind (fun f => imgWeight f (getBits (wX w) 0 20))
    (tensor = none)) ∧ (
    ∃ (s : State), ∃ (tile : Nat), ∃ (w : Word256), ∃ (rDst : Nat), ∃ (cDst : Nat),
    (Issues s tile w 0x43) ∧
    let tensor := s.myImage.bind (fun f => imgWeight f (getBits (wX w) 0 20))
    ∃ t0,
    (tensor = some t0) ∧
    let wb := 2 ^ t0.wb
    let m := shardRows t0
    let doR := getBits (wX w) 20 1 = 1
    let doC := getBits (wX w) 21 1 = 1
    let control := doR ∧ inControlRegion rDst (4 * m) = true ∨ doC ∧ inControlRegion cDst (4 * wb) = true
    (control)) ∧ (
    ∃ (s : State), ∃ (tile : Nat), ∃ (w : Word256), ∃ (rDst : Nat), ∃ (cDst : Nat),
    (Issues s tile w 0x43) ∧
    let tensor := s.myImage.bind (fun f => imgWeight f (getBits (wX w) 0 20))
    ∃ t0,
    (tensor = some t0) ∧
    let wb := 2 ^ t0.wb
    let m := shardRows t0
    let doR := getBits (wX w) 20 1 = 1
    let doC := getBits (wX w) 21 1 = 1
    let control := doR ∧ inControlRegion rDst (4 * m) = true ∨ doC ∧ inControlRegion cDst (4 * wb) = true
    (¬ control) ∧
    ((doR → doC → Apart rDst (4 * m) cDst (4 * wb)))) :=
  ⟨⟨tileW (run0 true), 0, wd [(0,0x43),(32,3+2^21+2^20),(104,1),(64,500),(128,0x1000)], issues_of (by decide +kernel), by decide +kernel⟩,
   ⟨tileW (run0 true), 0, wd [(0,0x43),(32,1+2^20),(64,500),(128,0x1000)], 50465865728, 0, issues_of (by decide +kernel), tens imgV 1, by decide +kernel, by decide +kernel⟩,
   ⟨tileW (run0 true), 0, wd [(0,0x43),(32,1+2^20),(64,500),(128,0x1000)], 0, 0, issues_of (by decide +kernel), tens imgV 1, by decide +kernel, by decide +kernel, by decide +kernel⟩⟩

theorem witness_UpdateWritesTheOtherBank :
    (
    ∃ (s : State), ∃ (tile : Nat), ∃ (w : Word256), ∃ (f : ImageFile),
    (Issues s tile w 0x50) ∧
    (s.myImage = some f) ∧
    (imgWeight f (getBits (wX w) 0 20) = none)) ∧ (
    ∃ (s : State), ∃ (tile : Nat), ∃ (w : Word256), ∃ (f : ImageFile),
    (Issues s tile w 0x50) ∧
    (s.myImage = some f) ∧
    ∃ t0,
    (imgWeight f (getBits (wX w) 0 20) = some t0) ∧
    let may := s.run.stepRuns = true ∧ owns t0 (s.fget HULL_ORCH_MODULE) = true
    (¬ may)) ∧ (
    ∃ (s : State), ∃ (tile : Nat), ∃ (w : Word256), ∃ (f : ImageFile),
    (Issues s tile w 0x50) ∧
    (s.myImage = some f) ∧
    ∃ t0,
    (imgWeight f (getBits (wX w) 0 20) = some t0) ∧
    let may := s.run.stepRuns = true ∧ owns t0 (s.fget HULL_ORCH_MODULE) = true
    (may) ∧
    (s.job.parking.contains t0.tensor = true)) ∧ (
    ∃ (s : State), ∃ (tile : Nat), ∃ (w : Word256), ∃ (aux : List UpdAux), ∃ (f : ImageFile),
    (Issues s tile w 0x50) ∧
    (s.myImage = some f) ∧
    ∃ t0,
    (imgWeight f (getBits (wX w) 0 20) = some t0) ∧
    let rs := imgRule f t0
    let wb := 2 ^ t0.wb
    let m := shardRows t0
    let cols := t0.col1 - t0.col0
    let x := s.updCtx f t0 rs (wY w) (aux.getLastD ⟨0⟩).sPlan (s.issueAbs w)
    let bytes := fmtBytes t0.fmt
    let mb := momBytes rs
    let clear := fun (a n : Nat) => Apart a n (s.writeBase t0) (m * cols * bytes) ∧
        ∀ mt ∈ x.mom.toList, Apart a n (s.writeBase mt) (m * cols * mb)
    let apart := (wY w + 1) * wb ≤ cols ∧ clear (s.readBase t0) (m * cols * bytes) ∧
        (∀ mt ∈ x.mom.toList, clear (s.readBase mt) (m * cols * mb) ∧
          Apart (s.writeBase t0) (m * cols * bytes) (s.writeBase mt) (m * cols * mb)) ∧
        ∀ i, i < m → ∀ j, j < wb → clear (wA w + bucketOff m wb i j) 4 ∧
          (∀ r ∈ x.rT.toList, clear (s.readBase r + 4 * i) 4) ∧
          ∀ c ∈ x.cT.toList, clear (s.readBase c + 4 * (wY w * wb + j)) 4
    let may := s.run.stepRuns = true ∧ owns t0 (s.fget HULL_ORCH_MODULE) = true
    (may) ∧
    (s.job.parking.contains t0.tensor = false) ∧
    (apart)) :=
  ⟨⟨tileW (run0 true), 0, wd [(0,0x50),(32,99),(64,500),(128,0x1000)], imgV, issues_of (by decide +kernel), by decide +kernel, by decide +kernel⟩,
   ⟨tileW (noisy (run0 false)), 0, wd [(0,0x50),(32,1),(64,500),(128,0x1000),(192,0x6100)], imgV, issues_of (by decide +kernel), by decide +kernel, tens imgV 1, by decide +kernel, by decide +kernel⟩,
   ⟨let s := tileW (run0 true); { s with job := { s.job with parking := [1, 30], lag := [(1, true, { parked := [⟨3, 2, 0, []⟩, ⟨4, 2, 0, [(1, [5])]⟩] })] } }, 0, wd [(0,0x50),(32,1),(64,500),(128,0x1000),(192,0x6100)], imgV, issues_of (by decide +kernel), by decide +kernel, tens imgV 1, by decide +kernel, by decide +kernel, by decide +kernel⟩,
   ⟨tileW (run0 true), 0, wd [(0,0x50),(32,1),(64,500),(128,0x1000),(192,0x6100)], [], imgV, issues_of (by decide +kernel), by decide +kernel, tens imgV 1, by decide +kernel, by decide +kernel, by decide +kernel, by dsimp only [Apart]; exact ⟨by decide +kernel, by decide +kernel, by decide +kernel,
      forAll3 (by decide +kernel) (by decide +kernel) (by decide +kernel)⟩⟩⟩

theorem witness_CopyAndDecayWriteTheOtherBank :
    (
    ∃ (s : State), ∃ (tile : Nat), ∃ (w : Word256), ∃ (f : ImageFile),
    (s.myImage = some f) ∧
    let state := f.stateMap.find? (fun t => t.tensor == getBits (wX w) 0 20)
    (Issues s tile w 0x51) ∧
    (state = none)) ∧ (
    ∃ (s : State), ∃ (tile : Nat), ∃ (w : Word256), ∃ (f : ImageFile),
    (s.myImage = some f) ∧
    let state := f.stateMap.find? (fun t => t.tensor == getBits (wX w) 0 20)
    (Issues s tile w 0x51) ∧
    ∃ t0,
    (state = some t0) ∧
    (s.mayWrite t0 = false)) ∧ (
    ∃ (s : State), ∃ (tile : Nat), ∃ (w : Word256), ∃ (f : ImageFile),
    (s.myImage = some f) ∧
    let state := f.stateMap.find? (fun t => t.tensor == getBits (wX w) 0 20)
    (Issues s tile w 0x51) ∧
    ∃ t0,
    (state = some t0) ∧
    (s.mayWrite t0 = true) ∧
    let place := rowPlace t0
    ((∀ i, i < stateRows t0 → ∀ k, k < stateRows t0 → Apart (s.readBase t0 + (place i).1) (place i).2 (s.writeBase t0 + (place k).1) (place k).2))) ∧ (
    ∃ (s : State), ∃ (tile : Nat), ∃ (w : Word256), ∃ (f : ImageFile),
    (s.myImage = some f) ∧
    let stat := f.stateMap.find? (fun t => t.tensor == getBits (wX w) 0 20 && 2 ≤ t.role && t.role ≤ 7)
    (Issues s tile w 0x52) ∧
    ((stat = none ∨ ∃ t0, stat = some t0 ∧ imgWeight f t0.parent = none))) ∧ (
    ∃ (s : State), ∃ (tile : Nat), ∃ (w : Word256), ∃ (f : ImageFile),
    (s.myImage = some f) ∧
    let stat := f.stateMap.find? (fun t => t.tensor == getBits (wX w) 0 20 && 2 ≤ t.role && t.role ≤ 7)
    (Issues s tile w 0x52) ∧
    ∃ t0, ∃ p,
    (stat = some t0) ∧
    (imgWeight f t0.parent = some p) ∧
    (s.mayWrite t0 = false)) ∧ (
    ∃ (s : State), ∃ (tile : Nat), ∃ (w : Word256), ∃ (f : ImageFile),
    (s.myImage = some f) ∧
    let stat := f.stateMap.find? (fun t => t.tensor == getBits (wX w) 0 20 && 2 ≤ t.role && t.role ≤ 7)
    (Issues s tile w 0x52) ∧
    ∃ t0, ∃ p,
    (stat = some t0) ∧
    (imgWeight f t0.parent = some p) ∧
    (s.mayWrite t0 = true) ∧
    (t0.role ≤ 3) ∧
    let lim := stateRows t0
    (Apart (s.readBase t0) (4 * lim) (s.writeBase t0) (4 * lim))) ∧ (
    ∃ (s : State), ∃ (tile : Nat), ∃ (w : Word256), ∃ (f : ImageFile),
    (s.myImage = some f) ∧
    let stat := f.stateMap.find? (fun t => t.tensor == getBits (wX w) 0 20 && 2 ≤ t.role && t.role ≤ 7)
    (Issues s tile w 0x52) ∧
    ∃ t0, ∃ p,
    (stat = some t0) ∧
    (imgWeight f t0.parent = some p) ∧
    (s.mayWrite t0 = true) ∧
    (4 ≤ t0.role) ∧
    let b := 2 ^ t0.block
    let r0 := wY w * b
    let nb := min b (stateRows t0 - r0)
    let at_ := fun base i k => base + 4 * (wY w * b * b + i * nb + k)
    (Apart (at_ (s.readBase t0) 0 0) (4 * nb * nb) (at_ (s.writeBase t0) 0 0) (4 * nb * nb))) :=
  ⟨⟨tileW (run0 true), 0, wd [(0,0x51),(32,99),(64,500),(128,0x32000)], imgV, by decide +kernel, issues_of (by decide +kernel), by decide +kernel⟩,
   ⟨tileW (noisy (run0 false)), 0, wd [(0,0x51),(32,1),(64,500),(128,0x10000)], imgV, by decide +kernel, issues_of (by decide +kernel), tens imgV 1, by decide +kernel, by decide +kernel⟩,
   ⟨tileW (run0 true), 0, wd [(0,0x51),(32,1),(64,500),(128,0x10000)], imgV, by decide +kernel, issues_of (by decide +kernel), tens imgV 1, by decide +kernel, by decide +kernel, by decide +kernel⟩,
   ⟨tileW (run0 true), 0, wd [(0,0x52),(32,99),(64,500),(128,0x1000)], imgV, by decide +kernel, issues_of (by decide +kernel), by decide +kernel⟩,
   ⟨tileW (noisy (run0 false)), 0, wd [(0,0x52),(32,2),(64,500),(128,0x1000)], imgV, by decide +kernel, issues_of (by decide +kernel), tens imgV 2, tens imgV 1, by decide +kernel, by decide +kernel, by decide +kernel⟩,
   ⟨tileW (run0 true), 0, wd [(0,0x52),(32,2),(64,500),(128,0x1000)], imgV, by decide +kernel, issues_of (by decide +kernel), tens imgV 2, tens imgV 1, by decide +kernel, by decide +kernel, by decide +kernel, by decide +kernel, by decide +kernel⟩,
   ⟨tileW (run0 true), 0, wd [(0,0x52),(32,41),(64,500),(128,0x1000)], imgV, by decide +kernel, issues_of (by decide +kernel), tens imgV 41, tens imgV 1, by decide +kernel, by decide +kernel, by decide +kernel, by decide +kernel, by decide +kernel⟩⟩

theorem witness_EwiseAppliesItsFunction :
    (
    ∃ (s : State), ∃ (tile : Nat), ∃ (w : Word256), ∃ (loc : VeLoc),
    (Issues s tile w 0x60) ∧
    let fn := getBits (wX w) 0 8
    let dst := getBits (wX w) 8 17
    let e := 64 * (wY w + 1)
    let ok := fn ≤ 8 ∧ dst + wY w < 98304 ∧ elsBad loc.aSram (wA w) 32 e = false ∧ elsBad loc.bSram (wB w) 32 e = false
    (¬ ok)) ∧ (
    ∃ (s : State), ∃ (tile : Nat), ∃ (w : Word256), ∃ (loc : VeLoc),
    (Issues s tile w 0x60) ∧
    let fn := getBits (wX w) 0 8
    let dst := getBits (wX w) 8 17
    let e := 64 * (wY w + 1)
    let ok := fn ≤ 8 ∧ dst + wY w < 98304 ∧ elsBad loc.aSram (wA w) 32 e = false ∧ elsBad loc.bSram (wB w) 32 e = false
    (ok)) :=
  ⟨⟨tileW (run0 true), 0, wd [(0,0x60),(32,9+3*256),(64,500),(128,0x1000),(192,0x1100)], ⟨false, false, .words⟩, issues_of (by decide +kernel), by decide +kernel⟩,
   ⟨tileW (run0 true), 0, wd [(0,0x60),(32,0+3*256),(64,500),(128,0x1000),(192,0x1100)], ⟨false, false, .words⟩, issues_of (by decide +kernel), by decide +kernel⟩⟩

theorem witness_StreamsEndFaultAndIssueLate :
    (
    ∃ (s : State), ∃ (tile : Nat), ∃ (w : Word256),
    (Safety.Inv s) ∧
    (tile < 80) ∧
    (s.streamRuns tile = true) ∧
    (wOpcode w = 0) ∧
    (Settled s (s.issueAbs w))) ∧ (
    ∃ (s : State), ∃ (tile : Nat), ∃ (w : Word256),
    (Safety.Inv s) ∧
    (tile < 80) ∧
    (s.streamRuns tile = true) ∧
    (opcodes.contains (wOpcode w) = false) ∧
    (Settled s (s.issueAbs w))) ∧ (
    ∃ (s : State), ∃ (tile : Nat), ∃ (w : Word256),
    (Safety.Inv s) ∧
    (tile < 80) ∧
    (s.streamRuns tile = true) ∧
    (opcodes.contains (wOpcode w) = true)) ∧ (
    ∃ (s : State), ∃ (tile : Nat),
    (Safety.Inv s) ∧
    (tile < 80) ∧
    (s.streamRuns tile = true) ∧
    ∃ cycle,
    (Settled s cycle)) :=
  ⟨⟨tileW (run0 true), 0, wd [(0,0),(64,500)], inv_of (by decide +kernel), by decide +kernel, by decide +kernel, by decide +kernel, settled_of (by decide +kernel)⟩,
   ⟨tileW (run0 true), 0, wd [(0,0x77),(64,500)], inv_of (by decide +kernel), by decide +kernel, by decide +kernel, by decide +kernel, settled_of (by decide +kernel)⟩,
   ⟨tileW (run0 true), 0, wd [(0,0x10),(12,1),(24,7),(40,1),(64,500),(104,3),(128,0),(145,4)], inv_of (by decide +kernel), by decide +kernel, by decide +kernel, by decide +kernel⟩,
   ⟨tileW (run0 true), 0, inv_of (by decide +kernel), by decide +kernel, by decide +kernel, 0, settled_of (by decide +kernel)⟩⟩

theorem witness_HubReadsDeliverOnTheirCycle :
    (
    ∃ (s : State), ∃ (at_ : Nat), ∃ (stack : Nat), ∃ (g : Nat),
    (Awake s) ∧
    (s.run.active = true) ∧
    (stack < 16) ∧
    (g < 201326592) ∧
    (Settled s (s.mclkAt at_))) :=
  ⟨hubS (run0 true), 0, 0, 0, awake_of (by decide +kernel), by decide +kernel, by decide +kernel, by decide +kernel, settled_of (by decide +kernel)⟩

theorem witness_HubWritesStoreTheirGranule :
    (
    ∃ (s : State), ∃ (at_ : Nat), ∃ (stack : Nat), ∃ (g : Nat),
    (Awake s) ∧
    (s.run.active = true) ∧
    (stack < 16) ∧
    (g < 201326592) ∧
    let c := s.mclkAt at_
    (Settled s c)) ∧ (
    ∃ (s : State), ∃ (stack : Nat), ∃ (g : Nat),
    (Awake s) ∧
    (s.run.active = true) ∧
    (stack < 16) ∧
    (g < 201326592) ∧
    (s.hub.retry.find? (fun r => r.stack == stack && r.granule == g && !r.served) = none)) ∧ (
    ∃ (s : State), ∃ (stack : Nat), ∃ (g : Nat),
    (Awake s) ∧
    (s.run.active = true) ∧
    (stack < 16) ∧
    (g < 201326592) ∧
    ∃ r,
    (s.hub.retry.find? (fun r => r.stack == stack && r.granule == g && !r.served) = some r) ∧
    ∃ d,
    (r.write = some d) ∧
    (Settled s (r.issued + 256))) ∧ (
    ∃ (s : State), ∃ (stack : Nat), ∃ (g : Nat),
    (Awake s) ∧
    (s.run.active = true) ∧
    (stack < 16) ∧
    (g < 201326592) ∧
    ∃ r,
    (s.hub.retry.find? (fun r => r.stack == stack && r.granule == g && !r.served) = some r) ∧
    (r.write = none) ∧
    (Settled s (r.issued + 424))) ∧ (
    ∃ (s : State), ∃ (w : HubWrite),
    (Safety.Inv s) ∧
    (s.pending = []) ∧
    (s.dueBy (s.now + 1) = [(w.due, .write w)])) :=
  ⟨⟨hubS (run0 true), 0, 0, 0, awake_of (by decide +kernel), by decide +kernel, by decide +kernel, by decide +kernel, settled_of (by decide +kernel)⟩,
   ⟨hubS (run0 true), 0, 0, awake_of (by decide +kernel), by decide +kernel, by decide +kernel, by decide +kernel, by decide +kernel⟩,
   ⟨hubS (run0 true), 6, 3, awake_of (by decide +kernel), by decide +kernel, by decide +kernel, by decide +kernel, { stack := 6, pch := granPch 3, window := 0, granule := 3, issued := 1010, write := some 77 }, by decide +kernel, 77, by decide +kernel, settled_of (by decide +kernel)⟩,
   ⟨hubS (run0 true), 5, 3, awake_of (by decide +kernel), by decide +kernel, by decide +kernel, by decide +kernel, { stack := 5, pch := granPch 3, window := 0, granule := 3, issued := 1010, write := none }, by decide +kernel, by decide +kernel, settled_of (by decide +kernel)⟩,
   ⟨wrS ⟨5, 3, 1300, 99⟩ (hubS (run0 true)), ⟨5, 3, 1300, 99⟩, inv_of (by decide +kernel), by decide +kernel, by decide +kernel⟩⟩

theorem witness_AtomicAddsArriveInPartOrder :
    (
    ∃ (s : State), ∃ (at_ : Nat), ∃ (stack : Nat), ∃ (g : Nat),
    (Awake s) ∧
    (s.run.active = true) ∧
    (stack < 16) ∧
    (g < 201326592) ∧
    (Settled s (s.mclkAt at_))) :=
  ⟨hubS (run0 true), 0, 0, 0, awake_of (by decide +kernel), by decide +kernel, by decide +kernel, by decide +kernel, settled_of (by decide +kernel)⟩

theorem witness_RefreshAndScrubTakeTheirSlots :
    (
    ∃ (s : State),
    (Awake s) ∧
    (s.run.active = true) ∧
    ∃ window,
    (window % 15 = 14) ∧
    (Settled s (s.edgeAt + 128 * (window + 1)))) ∧ (
    ∃ (s : State),
    (Awake s) ∧
    (s.run.active = true) ∧
    ∃ at_, ∃ stack,
    (stack < 16) ∧
    (Settled s (s.mclkAt at_)) ∧
    let slot := s.backgroundSlot stack (granPch (s.scrubTarget stack)) (s.mclkAt at_)
    (slot = false)) ∧ (
    ∃ (s : State),
    (Awake s) ∧
    (s.run.active = true) ∧
    ∃ at_, ∃ stack,
    (stack < 16) ∧
    (Settled s (s.mclkAt at_)) ∧
    let slot := s.backgroundSlot stack (granPch (s.scrubTarget stack)) (s.mclkAt at_)
    let corr := s.hub.corrQ.find? (fun p => p.1 == stack)
    ∃ p,
    (slot = true) ∧
    (corr = some p)) ∧ (
    ∃ (s : State),
    (Awake s) ∧
    (s.run.active = true) ∧
    ∃ at_, ∃ stack,
    (stack < 16) ∧
    (Settled s (s.mclkAt at_)) ∧
    let slot := s.backgroundSlot stack (granPch (s.scrubTarget stack)) (s.mclkAt at_)
    let corr := s.hub.corrQ.find? (fun p => p.1 == stack)
    let own := s.hub.scrubQ.find? (fun p => p.1 == stack)
    ∃ p,
    (slot = true) ∧
    (corr = none) ∧
    (own = some p)) ∧ (
    ∃ (s : State),
    (Awake s) ∧
    (s.run.active = true) ∧
    ∃ at_, ∃ stack,
    (stack < 16) ∧
    (Settled s (s.mclkAt at_)) ∧
    let slot := s.backgroundSlot stack (granPch (s.scrubTarget stack)) (s.mclkAt at_)
    let corr := s.hub.corrQ.find? (fun p => p.1 == stack)
    let own := s.hub.scrubQ.find? (fun p => p.1 == stack)
    (slot = true) ∧
    (corr = none) ∧
    (own = none) ∧
    (s.fget (HUB_SCRUB_STACK.die (stack / 4)) = stack % 4)) :=
  ⟨⟨hubS (run0 true), awake_of (by decide +kernel), by decide +kernel, 14, by decide +kernel, settled_of (by decide +kernel)⟩,
   ⟨scheded (hubS (run0 true)), awake_of (by decide +kernel), by decide +kernel, 2280, 0, by decide +kernel, settled_of (by decide +kernel), by decide +kernel⟩,
   ⟨hubS (run0 true), awake_of (by decide +kernel), by decide +kernel, 0, 5, by decide +kernel, settled_of (by decide +kernel), (5, 3), by decide +kernel, by decide +kernel⟩,
   ⟨hubK, awake_of (by decide +kernel), by decide +kernel, 0, 5, by decide +kernel, settled_of (by decide +kernel), (5, 9), by decide +kernel, by decide +kernel, by decide +kernel⟩,
   ⟨hubS (run0 true), awake_of (by decide +kernel), by decide +kernel, 0, 0, by decide +kernel, settled_of (by decide +kernel), by decide +kernel, by decide +kernel, by decide +kernel, by decide +kernel⟩⟩

theorem witness_ElasticAccessesAnswerOrStore :
    (
    ∃ (s : State), ∃ (at_ : Nat), ∃ (stack : Nat), ∃ (g : Nat),
    (Awake s) ∧
    (stack < 16) ∧
    (g < 201326592) ∧
    (Settled s (s.mclkAt at_)) ∧
    let c := s.mclkAt at_
    let open_ := s.elasticOpen stack g c
    (open_ = false)) ∧ (
    ∃ (s : State), ∃ (at_ : Nat), ∃ (stack : Nat), ∃ (g : Nat),
    (Awake s) ∧
    (stack < 16) ∧
    (g < 201326592) ∧
    (Settled s (s.mclkAt at_)) ∧
    (s.run.active = false)) ∧ (
    ∃ (s : State), ∃ (at_ : Nat), ∃ (stack : Nat), ∃ (g : Nat),
    (Awake s) ∧
    (stack < 16) ∧
    (g < 201326592) ∧
    (Settled s (s.mclkAt at_)) ∧
    let c := s.mclkAt at_
    let open_ := s.elasticOpen stack g c
    (open_ = true)) :=
  ⟨⟨hubS (run0 true), 0, 0, 0, awake_of (by decide +kernel), by decide +kernel, by decide +kernel, settled_of (by decide +kernel), by decide +kernel⟩,
   ⟨hubS State.reset, 0, 0, 0, awake_of (by decide +kernel), by decide +kernel, by decide +kernel, settled_of (by decide +kernel), by decide +kernel⟩,
   ⟨hubS State.reset, 0, 0, 0, awake_of (by decide +kernel), by decide +kernel, by decide +kernel, settled_of (by decide +kernel), by decide +kernel⟩⟩

theorem witness_LinkSendNumbersItsFrames :
    (
    ∃ (s : State), ∃ (at_ : Nat), ∃ (link : Nat), ∃ (kind : Nat), ∃ (src : FlitSrc),
    (Awake s) ∧
    (s.run.active = true) ∧
    (link < 16) ∧
    (1 ≤ kind) ∧
    (kind ≤ 3) ∧
    (Settled s at_) ∧
    (s.slotOpen link at_ = false ∨ (s.advance at_).flitOf src = none)) ∧ (
    ∃ (s : State), ∃ (at_ : Nat), ∃ (link : Nat), ∃ (kind : Nat), ∃ (src : FlitSrc),
    (Awake s) ∧
    (s.run.active = true) ∧
    (link < 16) ∧
    (1 ≤ kind) ∧
    (kind ≤ 3) ∧
    (Settled s at_) ∧
    ∃ flit,
    (s.slotOpen link at_ = true) ∧
    ((s.advance at_).flitOf src = some flit)) ∧ (
    ∃ (s : State), ∃ (at_ : Nat), ∃ (link : Nat), ∃ (kind : Nat),
    (Awake s) ∧
    (s.run.active = true) ∧
    (link < 16) ∧
    (1 ≤ kind) ∧
    (kind ≤ 3) ∧
    (Settled s at_)) :=
  ⟨⟨gath (lnkS (run0 true)), 0, 0, 1, .data G0, awake_of (by decide +kernel), by decide +kernel, by decide +kernel, by decide +kernel, by decide +kernel, settled_of (by decide +kernel), by decide +kernel⟩,
   ⟨gath (lnkS (run0 true)), 1256, 0, 1, .hi 1 0, awake_of (by decide +kernel), by decide +kernel, by decide +kernel, by decide +kernel, by decide +kernel, settled_of (by decide +kernel), 0, by decide +kernel, by decide +kernel⟩,
   ⟨gath (lnkS (run0 true)), 0, 0, 1, awake_of (by decide +kernel), by decide +kernel, by decide +kernel, by decide +kernel, by decide +kernel, settled_of (by decide +kernel)⟩⟩

theorem witness_ReceivedFramesAreDeliveredOrRetried :
    (
    ∃ (s : State), ∃ (at_ : Nat), ∃ (link : Nat), ∃ (due : FrameDue),
    (Awake s) ∧
    (s.run.active = true) ∧
    (link < 16) ∧
    (Settled s at_) ∧
    (s.fget (lnkFld LNK_STATE_MODE link) = 0) ∧
    (scheduledKind due.kind = true)) ∧ (
    ∃ (s : State), ∃ (at_ : Nat), ∃ (link : Nat), ∃ (raw : BitVec 2176),
    (Awake s) ∧
    (s.run.active = true) ∧
    (link < 16) ∧
    (Settled s at_) ∧
    let d := rxDecode (byteList 272 raw.toNat)
    let f := frameFields d.1
    (s.fget (lnkFld LNK_STATE_MODE link) ≠ 0) ∧
    (d.2 ≠ .failed) ∧
    (scheduledKind f.kind = true)) ∧ (
    ∃ (s : State), ∃ (at_ : Nat), ∃ (link : Nat), ∃ (due : FrameDue), ∃ (raw : BitVec 2176),
    (Awake s) ∧
    (s.run.active = true) ∧
    (link < 16) ∧
    (Settled s at_) ∧
    let d := rxDecode (byteList 272 raw.toNat)
    let k := s.link link
    let p := s.lnkSlot link (at_ - s.edgeAt)
    (s.fget (lnkFld LNK_STATE_MODE link) ≠ 0) ∧
    (d.2 = .failed) ∧
    (scheduledKind due.kind = true) ∧
    (k.badRun ≠ 7) ∧
    (k.retry.contains (false, p.1) = false)) ∧ (
    ∃ (s : State), ∃ (at_ : Nat), ∃ (link : Nat), ∃ (due : FrameDue), ∃ (raw : BitVec 2176),
    (Awake s) ∧
    (s.run.active = true) ∧
    (link < 16) ∧
    (Settled s at_) ∧
    let d := rxDecode (byteList 272 raw.toNat)
    let k := s.link link
    let p := s.lnkSlot link (at_ - s.edgeAt)
    (s.fget (lnkFld LNK_STATE_MODE link) ≠ 0) ∧
    (d.2 = .failed) ∧
    (scheduledKind due.kind = true) ∧
    (k.badRun ≠ 7) ∧
    (k.retry.contains (false, p.1) = true)) ∧ (
    ∃ (s : State), ∃ (at_ : Nat), ∃ (link : Nat), ∃ (due : FrameDue), ∃ (raw : BitVec 2176),
    (Awake s) ∧
    (s.run.active = true) ∧
    (link < 16) ∧
    (Settled s at_) ∧
    let d := rxDecode (byteList 272 raw.toNat)
    let k := s.link link
    (s.fget (lnkFld LNK_STATE_MODE link) ≠ 0) ∧
    (d.2 = .failed) ∧
    (scheduledKind due.kind = true) ∧
    (k.badRun = 7)) ∧ (
    ∃ (s : State), ∃ (at_ : Nat), ∃ (link : Nat), ∃ (raw : BitVec 2176),
    (Awake s) ∧
    (s.run.active = true) ∧
    (link < 16) ∧
    (Settled s at_) ∧
    let d := rxDecode (byteList 272 raw.toNat)
    let f := frameFields d.1
    let k := s.link link
    let plain := d.2 = .clean ∧ f.nak = none ∧ f.laneSwap = false
    (s.fget (lnkFld LNK_STATE_MODE link) ≠ 0) ∧
    ∃ e,
    (plain) ∧
    (f.kind = 4) ∧
    (k.waiting.find? (fun e => e.seq == f.seq) = some e)) ∧ (
    ∃ (s : State), ∃ (at_ : Nat), ∃ (link : Nat), ∃ (raw : BitVec 2176), ∃ (use : FlitUse),
    (Awake s) ∧
    (s.run.active = true) ∧
    (link < 16) ∧
    (Settled s at_) ∧
    let d := rxDecode (byteList 272 raw.toNat)
    let f := frameFields d.1
    let plain := d.2 = .clean ∧ f.nak = none ∧ f.laneSwap = false
    (s.fget (lnkFld LNK_STATE_MODE link) ≠ 0) ∧
    (plain) ∧
    (f.kind = 5) ∧
    ∃ m,
    (m < 16) ∧
    (use = .onward m)) ∧ (
    ∃ (s : State), ∃ (at_ : Nat), ∃ (link : Nat), ∃ (raw : BitVec 2176), ∃ (use : FlitUse),
    (Awake s) ∧
    (s.run.active = true) ∧
    (link < 16) ∧
    (Settled s at_) ∧
    let d := rxDecode (byteList 272 raw.toNat)
    let f := frameFields d.1
    let plain := d.2 = .clean ∧ f.nak = none ∧ f.laneSwap = false
    (s.fget (lnkFld LNK_STATE_MODE link) ≠ 0) ∧
    (plain) ∧
    (f.kind = 5) ∧
    ((∀ m, use ≠ .onward m))) :=
  ⟨⟨gath (lnkS (run0 true)), 0, 1, ⟨3, 1, 2⟩, awake_of (by decide +kernel), by decide +kernel, by decide +kernel, settled_of (by decide +kernel), by decide +kernel, by decide +kernel⟩,
   ⟨gath (lnkS (run0 true)), 0, 0, rawOf (hdrOf 3 1 2 none) 0x12345 [], awake_of (by decide +kernel), by decide +kernel, by decide +kernel, settled_of (by decide +kernel), by decide +kernel, by decide +kernel, by decide +kernel⟩,
   ⟨gath (lnkS (run0 true)), 0, 5, ⟨3, 1, 2⟩, rawOf (hdrOf 3 1 2 none) 0x12345 [10, 12, 14, 16, 18, 20, 22], awake_of (by decide +kernel), by decide +kernel, by decide +kernel, settled_of (by decide +kernel), by decide +kernel, by decide +kernel, by decide +kernel, by decide +kernel, by decide +kernel⟩,
   ⟨gath (lnkS (run0 true)), 0, 0, ⟨3, 1, 2⟩, rawOf (hdrOf 3 1 2 none) 0x12345 [10, 12, 14, 16, 18, 20, 22], awake_of (by decide +kernel), by decide +kernel, by decide +kernel, settled_of (by decide +kernel), by decide +kernel, by decide +kernel, by decide +kernel, by decide +kernel, by decide +kernel⟩,
   ⟨(lnkS (run0 true)).withLink 0 (fun k => { k with badRun := 7 }), 0, 0, ⟨3, 1, 2⟩, rawOf (hdrOf 3 1 2 none) 0x12345 [10, 12, 14, 16, 18, 20, 22], awake_of (by decide +kernel), by decide +kernel, by decide +kernel, settled_of (by decide +kernel), by decide +kernel, by decide +kernel, by decide +kernel, by decide +kernel⟩,
   ⟨gath (lnkS (run0 true)), 0, 0, rawOf (hdrOf 3 4 24 none) 0x777 [], awake_of (by decide +kernel), by decide +kernel, by decide +kernel, settled_of (by decide +kernel), by decide +kernel, ⟨3, 0, 4, 2, 1040, .port⟩, by decide +kernel, by decide +kernel, by decide +kernel⟩,
   ⟨gath (lnkS (run0 true)), 0, 0, rawOf (hdrOf 3 5 2 none) 0x55 [], .onward 3, awake_of (by decide +kernel), by decide +kernel, by decide +kernel, settled_of (by decide +kernel), by decide +kernel, by decide +kernel, by decide +kernel, 3, by decide +kernel, by decide +kernel⟩,
   ⟨gath (lnkS (run0 true)), 0, 0, rawOf (hdrOf 3 5 2 none) 0x55 [], .port, awake_of (by decide +kernel), by decide +kernel, by decide +kernel, settled_of (by decide +kernel), by decide +kernel, by decide +kernel, by decide +kernel, by intros; exact fun h => by cases h⟩⟩

theorem witness_FramesReachTheirDeliveryCycle :
    (
    ∃ (s : State), ∃ (l : Nat),
    (Awake s) ∧
    (s.pending = []) ∧
    (l < 16) ∧
    ∃ (x : FlitDue),
    (s.dueBy (s.now + 1) = [(x.at_, .flit l x)])) ∧ (
    ∃ (s : State), ∃ (l : Nat),
    (Awake s) ∧
    (s.pending = []) ∧
    (l < 16) ∧
    ∃ (x : LinkWait),
    (s.dueBy (s.now + 1) = [(x.sent + s.lnkHop l, .unanswered l x)])) :=
  ⟨⟨landS ⟨3000, 1, false, some 7, .port⟩ (lnkS (run0 true)), 0, awake_of (by decide +kernel), by decide +kernel, by decide +kernel, ⟨3000, 1, false, some 7, .port⟩, by decide +kernel⟩,
   ⟨waitS ⟨9, 0, 1, 1, 1010, .gather 0x9000⟩ (lnkS (run0 true)), 0, awake_of (by decide +kernel), by decide +kernel, by decide +kernel, ⟨9, 0, 1, 1, 1010, .gather 0x9000⟩, by decide +kernel⟩⟩

theorem witness_NaksRepeatAndLostLinksGoDown :
    (
    ∃ (s : State), ∃ (at_ : Nat), ∃ (link : Nat),
    (Awake s) ∧
    (link < 16) ∧
    (Settled s at_) ∧
    ∃ seq, ∃ e,
    (s.run.active = true) ∧
    ((s.link link).sent.find? (fun e => e.1 == seq) = some e) ∧
    ((s.link link).retry.contains (true, e.2.1) = false)) ∧ (
    ∃ (s : State), ∃ (at_ : Nat), ∃ (link : Nat),
    (Awake s) ∧
    (link < 16) ∧
    (Settled s at_) ∧
    ∃ seq,
    (s.run.active = true) ∧
    ((∀ e, (s.link link).sent.find? (fun e => e.1 == seq) = some e → (s.link link).retry.contains (true, e.2.1) = true))) ∧ (
    ∃ (s : State), ∃ (at_ : Nat), ∃ (link : Nat),
    (Awake s) ∧
    (link < 16) ∧
    (Settled s at_) ∧
    (s.fget (lnkFld LNK_STATE_MODE link) ≠ 0)) :=
  ⟨⟨gath (lnkS (run0 true)), 0, 0, awake_of (by decide +kernel), by decide +kernel, settled_of (by decide +kernel), 3, (3, 1, 2, 1, 77), by decide +kernel, by decide +kernel, by decide +kernel⟩,
   ⟨gath (lnkS (run0 true)), 0, 0, awake_of (by decide +kernel), by decide +kernel, settled_of (by decide +kernel), 0, by decide +kernel, by decide +kernel⟩,
   ⟨gath (lnkS (run0 true)), 0, 0, awake_of (by decide +kernel), by decide +kernel, settled_of (by decide +kernel), by decide +kernel⟩⟩

theorem witness_ElasticFramesAndLinkTraining :
    (
    ∃ (s : State), ∃ (at_ : Nat), ∃ (link : Nat),
    (Awake s) ∧
    (link < 16) ∧
    (Settled s at_) ∧
    let goes := s.slotOpen link at_ = true ∧ s.fget (lnkFld LNK_STATE_MODE link) ≠ 0
    (¬ goes)) ∧ (
    ∃ (s : State), ∃ (at_ : Nat), ∃ (link : Nat),
    (Awake s) ∧
    (link < 16) ∧
    (Settled s at_) ∧
    let goes := s.slotOpen link at_ = true ∧ s.fget (lnkFld LNK_STATE_MODE link) ≠ 0
    (goes)) ∧ (
    ∃ (s : State), ∃ (at_ : Nat), ∃ (link : Nat),
    (Awake s) ∧
    (link < 16) ∧
    (Settled s at_) ∧
    ∃ mode, ∃ neighbour, ∃ nlink,
    (s.job.ctx = none) ∧
    (mode < 4) ∧
    (neighbour < 65536) ∧
    (nlink < 16)) :=
  ⟨⟨gath (lnkS (run0 true)), 0, 0, awake_of (by decide +kernel), by decide +kernel, settled_of (by decide +kernel), by decide +kernel⟩,
   ⟨gath (lnkS (run0 true)), 1256, 0, awake_of (by decide +kernel), by decide +kernel, settled_of (by decide +kernel), by decide +kernel⟩,
   ⟨lnkS { State.reset with fresh := 3 }, 0, 0, awake_of (by decide +kernel), by decide +kernel, settled_of (by decide +kernel), 0, 0, 0, by decide +kernel, by decide +kernel, by decide +kernel, by decide +kernel⟩⟩

theorem witness_SolverJobsStartAndPublish :
    (
    ∃ (s : State), ∃ (f : ImageFile), ∃ (p : PlanImg), ∃ (e : BitVec 1024), ∃ (d : TensorEnt), ∃ (st : TensorEnt),
    (InTick f p s) ∧
    (s.slvEnts f e = some (st, d)) ∧
    (slvC0 e + slvGang e ≤ 8) ∧
    (s.run.stepRuns = true) ∧
    (s.slvFind f (slvJob e) = some e) ∧
    (Settled s (s.descReadCycle e))) ∧ (
    ∃ (s : State), ∃ (f : ImageFile), ∃ (p : PlanImg), ∃ (e : BitVec 1024), ∃ (d : TensorEnt), ∃ (st : TensorEnt),
    (InTick f p s) ∧
    (s.slvEnts f e = some (st, d)) ∧
    (slvC0 e + slvGang e ≤ 8) ∧
    let start := s.scycAt (s.edgeAt + slvStart e)
    let dead := s.scycAt (s.edgeAt + slvDeadline e)
    (s.run.stepRuns = true) ∧
    (s.slvFind f (slvJob e) = some e) ∧
    (Settled s (s.startCycle e)) ∧
    (s.gangJobs e = []) ∧
    (slvKind e ≠ 2) ∧
    (slvCold e = true) ∧
    (start ≤ dead) ∧
    (dead - start < coldBudget e)) ∧ (
    ∃ (s : State), ∃ (f : ImageFile), ∃ (p : PlanImg), ∃ (e : BitVec 1024), ∃ (d : TensorEnt), ∃ (st : TensorEnt),
    (InTick f p s) ∧
    (s.slvEnts f e = some (st, d)) ∧
    (slvC0 e + slvGang e ≤ 8) ∧
    let k := slvDie e
    ∃ j, ∃ c0,
    (s.slvOn k c0 = some j) ∧
    (j.ent = e) ∧
    (j.publishes = true) ∧
    (Settled s (s.cycAt (j.start + j.out.off + 40)))) :=
  ⟨⟨ctxS (slv1 (run0 true)), imgS, step0, jA, tensR imgS 11 8, tensR imgS 11 4, inTick_of (by decide +kernel), by decide +kernel, by decide +kernel, by decide +kernel, by decide +kernel, settled_of (by decide +kernel)⟩,
   ⟨ctxS (slv1 (run0 true)), imgS, step0, jC, tensR imgS 11 8, tensR imgS 11 4, inTick_of (by decide +kernel), by decide +kernel, by decide +kernel, by decide +kernel, by decide +kernel, settled_of (by decide +kernel), by decide +kernel, by decide +kernel, by decide +kernel, by decide +kernel, by decide +kernel⟩,
   ⟨slvOnly [5] [] (slv1 (run0 true)), imgS, step0, jA, tensR imgS 11 8, tensR imgS 11 4, inTick_of (by decide +kernel), by decide +kernel, by decide +kernel, slvJ 5, 2, by decide +kernel, by decide +kernel, by decide +kernel, settled_of (by decide +kernel)⟩⟩

theorem witness_SolverJobsEndWithTheirCarry :
    (
    ∃ (s : State), ∃ (f : ImageFile), ∃ (p : PlanImg),
    (InTick f p s) ∧
    ∃ (j : SlvJob), ∃ (c0 : Nat), ∃ (d : TensorEnt), ∃ (st : TensorEnt),
    let k := slvDie j.ent
    (s.slvOn k c0 = some j) ∧
    (s.slvEnts f j.ent = some (st, d)) ∧
    (slvC0 j.ent + slvGang j.ent ≤ 8) ∧
    (j.misses = true) ∧
    (Settled s (s.cycAt (j.deadline + 1)))) ∧ (
    ∃ (s : State), ∃ (f : ImageFile), ∃ (p : PlanImg),
    (InTick f p s) ∧
    ∃ (j : SlvJob), ∃ (cause : Nat), ∃ (x : Nat), ∃ (d : TensorEnt), ∃ (st : TensorEnt),
    (s.dueBy x = [(x, .slvEnd j cause)]) ∧
    (s.solver.jobs.find? (fun q => q.ent == j.ent) = some j) ∧
    (1 ≤ cause) ∧
    (cause ≤ 7) ∧
    (slvC0 j.ent + slvGang j.ent ≤ 8) ∧
    (s.slvEnts f j.ent = some (st, d)) ∧
    (x < s.cycAt (j.start + j.out.off + 40))) ∧ (
    ∃ (s : State), ∃ (f : ImageFile), ∃ (p : PlanImg),
    (InTick f p s) ∧
    ∃ (c : Carry), ∃ (x : Nat),
    (s.dueBy x = [(x, .carry c)]) ∧
    (c.die < 4) ∧
    (c.c0 + c.gang ≤ 8) ∧
    (c.limit < dscStale c.desc)) ∧ (
    ∃ (s : State), ∃ (f : ImageFile), ∃ (p : PlanImg),
    (InTick f p s) ∧
    ∃ die,
    (die < 4) ∧
    (s.run.stepRuns = true) ∧
    (Settled s (s.cycAt (s.scycAt (s.edgeAt + s.sweepCycle f die))))) ∧ (
    ∃ (s : State), ∃ (f : ImageFile), ∃ (p : PlanImg),
    (InTick f p s) ∧
    ∃ at_, ∃ die,
    (die < 4) ∧
    (Settled s at_)) :=
  ⟨⟨ctxS (slv1 (run0 true)), imgS, step0, inTick_of (by decide +kernel), slvJ 6, 0, tensR imgS 11 8, tensR imgS 11 4, by decide +kernel, by decide +kernel, by decide +kernel, by decide +kernel, settled_of (by decide +kernel)⟩,
   ⟨ctxS (slv1 (run0 true)), imgS, step0, inTick_of (by decide +kernel), slvJ 8, 5, 26667, tensR imgS 11 8, tensR imgS 11 4, by decide +kernel, by decide +kernel, by decide +kernel, by decide +kernel, by decide +kernel, by decide +kernel, by decide +kernel⟩,
   ⟨slvOnly [5] [car1] (slv1 (noisy (run0 true))), imgS, step0, inTick_of (by decide +kernel), car1, 20067, by decide +kernel, by decide +kernel, by decide +kernel, by decide +kernel⟩,
   ⟨ctxS (slv1 (run0 true)), imgS, step0, inTick_of (by decide +kernel), 0, by decide +kernel, by decide +kernel, settled_of (by decide +kernel)⟩,
   ⟨ctxS (slv1 (run0 true)), imgS, step0, inTick_of (by decide +kernel), 0, 0, by decide +kernel, settled_of (by decide +kernel)⟩⟩

theorem witness_PodFaultsAndShadowChecks :
    (
    ∃ (s : State), ∃ (at_ : Nat), ∃ (tile : Nat), ∃ (lpod : Nat),
    (Awake s) ∧
    (tile < 80) ∧
    (lpod < 8) ∧
    (Settled s at_) ∧
    (s.unserved tile lpod = false)) ∧ (
    ∃ (s : State), ∃ (at_ : Nat), ∃ (tile : Nat), ∃ (lpod : Nat),
    (Awake s) ∧
    (tile < 80) ∧
    (lpod < 8) ∧
    (Settled s at_) ∧
    (s.unserved tile lpod = true)) ∧ (
    ∃ (s : State), ∃ (at_ : Nat), ∃ (tile : Nat), ∃ (lpod : Nat),
    (Awake s) ∧
    (tile < 80) ∧
    (lpod < 8) ∧
    (Settled s at_) ∧
    (s.spareUsable tile = true)) ∧ (
    ∃ (s : State), ∃ (at_ : Nat), ∃ (tile : Nat), ∃ (lpod : Nat),
    (Awake s) ∧
    (tile < 80) ∧
    (lpod < 8) ∧
    (Settled s at_) ∧
    (s.spareUsable tile = false)) ∧ (
    ∃ (s : State), ∃ (at_ : Nat), ∃ (tile : Nat), ∃ (lpod : Nat),
    (Awake s) ∧
    (tile < 80) ∧
    (lpod < 8) ∧
    (Settled s at_) ∧
    ∃ w, ∃ seq, ∃ f, ∃ p,
    (InTick f p s) ∧
    (s.shadowActive tile = true) ∧
    (shadowEligible w = true) ∧
    (s.shadowSampled tile seq = true) ∧
    let done := s.issueAbs w + 3 * wKlen w + 524
    let free := (assocGet s.tiles.shadowBusy tile).all (fun c => decide (c ≤ s.issueAbs w)) = true ∧ done < s.edgeAt + planFenceOf p 3
    (¬ free)) ∧ (
    ∃ (s : State), ∃ (at_ : Nat), ∃ (tile : Nat), ∃ (lpod : Nat),
    (Awake s) ∧
    (tile < 80) ∧
    (lpod < 8) ∧
    (Settled s at_) ∧
    ∃ w, ∃ seq, ∃ seen, ∃ f, ∃ p,
    (InTick f p s) ∧
    (s.shadowActive tile = true) ∧
    (shadowEligible w = true) ∧
    (s.shadowSampled tile seq = true) ∧
    let done := s.issueAbs w + 3 * wKlen w + 524
    let free := (assocGet s.tiles.shadowBusy tile).all (fun c => decide (c ≤ s.issueAbs w)) = true ∧ done < s.edgeAt + planFenceOf p 3
    (free) ∧
    (Settled s done) ∧
    (s.shadowBad tile w seen = false)) ∧ (
    ∃ (s : State), ∃ (at_ : Nat), ∃ (tile : Nat), ∃ (lpod : Nat),
    (Awake s) ∧
    (tile < 80) ∧
    (lpod < 8) ∧
    (Settled s at_) ∧
    ∃ w, ∃ seq, ∃ seen, ∃ f, ∃ p,
    (InTick f p s) ∧
    (s.shadowActive tile = true) ∧
    (shadowEligible w = true) ∧
    (s.shadowSampled tile seq = true) ∧
    let done := s.issueAbs w + 3 * wKlen w + 524
    let free := (assocGet s.tiles.shadowBusy tile).all (fun c => decide (c ≤ s.issueAbs w)) = true ∧ done < s.edgeAt + planFenceOf p 3
    (free) ∧
    (Settled s done) ∧
    (s.shadowBad tile w seen = true)) ∧ (
    ∃ (s : State), ∃ (at_ : Nat), ∃ (tile : Nat), ∃ (lpod : Nat),
    (Awake s) ∧
    (tile < 80) ∧
    (lpod < 8) ∧
    (Settled s at_) ∧
    ∃ w, ∃ seq,
    (s.shadowActive tile = false ∨ shadowEligible w = false ∨ s.shadowSampled tile seq = false)) :=
  ⟨⟨ctxS (slv1 (run0 true)), 0, 0, 0, awake_of (by decide +kernel), by decide +kernel, by decide +kernel, settled_of (by decide +kernel), by decide +kernel⟩,
   ⟨(tile0 (run0 true)).fset (TILE_POD_UNSERVED_MASK.tile 3) 1, 0, 3, 0, awake_of (by decide +kernel), by decide +kernel, by decide +kernel, settled_of (by decide +kernel), by decide +kernel⟩,
   ⟨ctxS (slv1 (run0 true)), 0, 0, 0, awake_of (by decide +kernel), by decide +kernel, by decide +kernel, settled_of (by decide +kernel), by decide +kernel⟩,
   ⟨(ctxS (slv1 (run0 true))).fset (TILE_POD_SPARE_LOST.tile 3) 1, 0, 3, 0, awake_of (by decide +kernel), by decide +kernel, by decide +kernel, settled_of (by decide +kernel), by decide +kernel⟩,
   ⟨ctxS (slv1 (run0 true)), 0, 0, 0, awake_of (by decide +kernel), by decide +kernel, by decide +kernel, settled_of (by decide +kernel), shW2, 0, imgS, step0, inTick_of (by decide +kernel), by decide +kernel, by decide +kernel, by decide +kernel, by decide +kernel⟩,
   ⟨let s := (ctxS (run0 true)).fset HULL_CAPTURE_AT0_TICK 8; {s with cap := {s.cap with pend := [(2000,16)]}, ctxs := modAt (fun c => { c with image := some imgS }) 0 s.ctxs}, 0, 0, 0, awake_of (by decide +kernel), by decide +kernel, by decide +kernel, settled_of (by decide +kernel), shW, 0, [], imgS, step0, inTick_of (by decide +kernel), by decide +kernel, by decide +kernel, by decide +kernel, by decide +kernel, settled_of (by decide +kernel), by decide +kernel⟩,
   ⟨let s := (ctxS (run0 true)).fset HULL_CAPTURE_AT0_TICK 8; {s with cap := {s.cap with pend := [(2000,16)]}, ctxs := modAt (fun c => { c with image := some imgS }) 0 s.ctxs}, 0, 0, 0, awake_of (by decide +kernel), by decide +kernel, by decide +kernel, settled_of (by decide +kernel), shW, 0, [0x3F800000], imgS, step0, inTick_of (by decide +kernel), by decide +kernel, by decide +kernel, by decide +kernel, by decide +kernel, settled_of (by decide +kernel), by decide +kernel⟩,
   ⟨ctxS (slv1 (run0 true)), 0, 0, 0, awake_of (by decide +kernel), by decide +kernel, by decide +kernel, settled_of (by decide +kernel), shW, 1, by decide +kernel⟩⟩

theorem witness_LockstepAndAttendTimers :
    (
    ∃ (s : State), ∃ (at_ : Nat), ∃ (page : Nat),
    (Awake s) ∧
    (page < 108) ∧
    (Settled s at_) ∧
    let again := s.power.reload ≠ none ∨ ∃ c, s.power.reloaded = some c ∧ max s.now at_ ≤ c + 16777216
    (¬ again)) ∧ (
    ∃ (s : State), ∃ (at_ : Nat), ∃ (page : Nat),
    (Awake s) ∧
    (page < 108) ∧
    (Settled s at_) ∧
    let again := s.power.reload ≠ none ∨ ∃ c, s.power.reloaded = some c ∧ max s.now at_ ≤ c + 16777216
    (again)) ∧ (
    ∃ (s : State), ∃ (page : Nat),
    (Awake s) ∧
    (page < 108) ∧
    ∃ c,
    (s.power.reload = some c) ∧
    (Settled s c) ∧
    (s.mirror0 = s.mirror1)) ∧ (
    ∃ (s : State), ∃ (page : Nat),
    (Awake s) ∧
    (page < 108) ∧
    ∃ c,
    (s.power.reload = some c) ∧
    (Settled s c) ∧
    (s.mirror0 ≠ s.mirror1)) ∧ (
    ∃ (s : State), ∃ (page : Nat),
    (Awake s) ∧
    (page < 108) ∧
    ∃ c,
    ((s.attendOf page).expiry = some c) ∧
    (Settled s c) ∧
    (s.job.ctx ≠ none) ∧
    (s.job.aborting = none) ∧
    (page ≠ 3) ∧
    (page ≠ 7)) ∧ (
    ∃ (s : State), ∃ (page : Nat),
    (Awake s) ∧
    (page < 108) ∧
    ∃ c,
    ((s.attendOf page).expiry = some c) ∧
    (Settled s c) ∧
    (s.job.ctx = none) ∧
    (page ≠ 3) ∧
    (page ≠ 7)) ∧ (
    ∃ (s : State), ∃ (page : Nat),
    (Awake s) ∧
    (page < 108) ∧
    ((s.attendOf page).expiry = none)) ∧ (
    ∃ (s : State), ∃ (at_ : Nat), ∃ (page : Nat),
    (Awake s) ∧
    (page < 108) ∧
    (Settled s at_) ∧
    let late := ∃ d ∈ s.power.classD, d.1 = page ∧ d.2 + 200000000 ≤ max s.now at_
    (late)) ∧ (
    ∃ (s : State), ∃ (at_ : Nat), ∃ (page : Nat),
    (Awake s) ∧
    (page < 108) ∧
    (Settled s at_) ∧
    let late := ∃ d ∈ s.power.classD, d.1 = page ∧ d.2 + 200000000 ≤ max s.now at_
    (¬ late)) :=
  ⟨⟨ctxS (slv1 (run0 true)), 0, 0, awake_of (by decide +kernel), by decide +kernel, settled_of (by decide +kernel), by decide +kernel⟩,
   ⟨relo (ctxS (run0 true)), 0, 0, awake_of (by decide +kernel), by decide +kernel, settled_of (by decide +kernel), by decide +kernel⟩,
   ⟨relo (ctxS (run0 true)), 0, awake_of (by decide +kernel), by decide +kernel, 3000, by decide +kernel, settled_of (by decide +kernel), by decide +kernel⟩,
   ⟨relo (reld (run0 true)), 0, awake_of (by decide +kernel), by decide +kernel, 3000, by decide +kernel, settled_of (by decide +kernel), by decide +kernel⟩,
   ⟨ctxS (slv1 (run0 true)), 1, awake_of (by decide +kernel), by decide +kernel, 3000, by decide +kernel, settled_of (by decide +kernel), by decide +kernel, by decide +kernel, by decide +kernel, by decide +kernel⟩,
   ⟨attI, 1, awake_of (by decide +kernel), by decide +kernel, 3000, by decide +kernel, settled_of (by decide +kernel), by decide +kernel, by decide +kernel, by decide +kernel⟩,
   ⟨ctxS (slv1 (run0 true)), 0, awake_of (by decide +kernel), by decide +kernel, by decide +kernel⟩,
   ⟨relo (ctxS (run0 true)), 300000000, 1, awake_of (by decide +kernel), by decide +kernel, settled_of (by decide +kernel), by decide +kernel⟩,
   ⟨ctxS (slv1 (run0 true)), 0, 0, awake_of (by decide +kernel), by decide +kernel, settled_of (by decide +kernel), by decide +kernel⟩⟩

theorem witness_ClassEStopsTheModule :
    (
    ∃ (s : State), ∃ (at_ : Nat), ∃ (c : Nat), ∃ (cause : Nat),
    (s.power.halt = .stopped c) ∧
    (at_ = s.power.stopAt) ∧
    (cause < c)) ∧ (
    ∃ (s : State), ∃ (at_ : Nat), ∃ (c : Nat), ∃ (cause : Nat),
    (s.power.halt = .stopped c) ∧
    (at_ = s.power.stopAt) ∧
    (c ≤ cause)) ∧ (
    ∃ (s : State), ∃ (at_ : Nat),
    (Awake s) ∧
    (Settled s at_)) ∧ (
    ∃ (s : State), ∃ (at_ : Nat),
    (Awake s) ∧
    (Settled s at_) ∧
    (s.fbit PWR_STATE_ARMED = true)) ∧ (
    ∃ (s : State), ∃ (at_ : Nat),
    (Awake s) ∧
    (Settled s at_) ∧
    (s.fbit PWR_STATE_ARMED = false)) ∧ (
    ∃ (s : State), ∃ (at_ : Nat),
    (Awake s) ∧
    (Settled s at_) ∧
    ∃ (id : Nat), ∃ (v : Word32),
    let past := (0x100 ≤ id ∧ id < 0x116 ∧ readAbove v.toNat 115 = true) ∨
          (0x200 ≤ id ∧ id < 0x210 ∧ readAbove v.toNat 105 = true)
    (past)) ∧ (
    ∃ (s : State), ∃ (at_ : Nat),
    (Awake s) ∧
    (Settled s at_) ∧
    ∃ (id : Nat), ∃ (v : Word32),
    let past := (0x100 ≤ id ∧ id < 0x116 ∧ readAbove v.toNat 115 = true) ∨
          (0x200 ≤ id ∧ id < 0x210 ∧ readAbove v.toNat 105 = true)
    (¬ past)) :=
  ⟨⟨{ ctxS (run0 true) with power := { (ctxS (run0 true)).power with halt := .stopped 4, stopAt := 1060, stopSeq := some 7, flash := [none, some { kind := 1, trunc := 32, seq := 7, cartId := 0, serial := 0, tick := 0, cause := 4, control := [], token := [], layout := 0, orch := 0, hbmLanes := [], hbmBad := [], linkLanes := [], gens := [], stale := [], faults := [] }] } }, 1060, 4, 0, by decide +kernel, by decide +kernel, by decide +kernel⟩,
   ⟨{ ctxS (run0 true) with power := { (ctxS (run0 true)).power with halt := .stopped 4, stopAt := 1060, stopSeq := some 7, flash := [none, some { kind := 1, trunc := 32, seq := 7, cartId := 0, serial := 0, tick := 0, cause := 4, control := [], token := [], layout := 0, orch := 0, hbmLanes := [], hbmBad := [], linkLanes := [], gens := [], stale := [], faults := [] }] } }, 1060, 4, 4, by decide +kernel, by decide +kernel, by decide +kernel⟩,
   ⟨ctxS (slv1 (run0 true)), 0, awake_of (by decide +kernel), settled_of (by decide +kernel)⟩,
   ⟨ctxS (slv1 (run0 true)), 0, awake_of (by decide +kernel), settled_of (by decide +kernel), by decide +kernel⟩,
   ⟨relo (reld (run0 true)), 0, awake_of (by decide +kernel), settled_of (by decide +kernel), by decide +kernel⟩,
   ⟨ctxS (slv1 (run0 true)), 0, awake_of (by decide +kernel), settled_of (by decide +kernel), 261, 0x42F00000, by decide +kernel⟩,
   ⟨ctxS (slv1 (run0 true)), 0, awake_of (by decide +kernel), settled_of (by decide +kernel), 0, 0, by decide +kernel⟩⟩

theorem witness_CapturesLatchEveryRegister :
    (
    ∃ (s : State), ∃ (at_ : Nat),
    (Awake s) ∧
    (Settled s at_) ∧
    let heldCopies := s.fbit HULL_CAPTURE_CFG_HOLD && s.fbit HULL_CAPTURE_ID_HELD
    let c := max s.now at_ + 32
    ∃ q ∈ [(Instr.captureNow at_, 1, true), (.captureIn at_, 8, s.fbit HULL_CAPTURE_CFG_PIN_EN)],
    (q.2.2 = true) ∧
    (heldCopies = false) ∧
    ((∀ x ∈ s.cap.pend, c < x.1 ∨ x.1 + 32 < c))) ∧ (
    ∃ (s : State), ∃ (at_ : Nat),
    (Awake s) ∧
    (Settled s at_) ∧
    let heldCopies := s.fbit HULL_CAPTURE_CFG_HOLD && s.fbit HULL_CAPTURE_ID_HELD
    let c := max s.now at_ + 32
    ∃ q ∈ [(Instr.captureNow at_, 1, true), (.captureIn at_, 8, s.fbit HULL_CAPTURE_CFG_PIN_EN)],
    (q.2.2 = true) ∧
    (heldCopies = false) ∧
    ∃ x,
    (s.cap.pend = [x]) ∧
    (x.1 ≤ c) ∧
    (c ≤ x.1 + 32)) ∧ (
    ∃ (s : State), ∃ (at_ : Nat),
    (Awake s) ∧
    (Settled s at_) ∧
    let heldCopies := s.fbit HULL_CAPTURE_CFG_HOLD && s.fbit HULL_CAPTURE_ID_HELD
    ∃ q ∈ [(Instr.captureNow at_, 1, true), (.captureIn at_, 8, s.fbit HULL_CAPTURE_CFG_PIN_EN)],
    (q.2.2 = true) ∧
    (heldCopies = true)) ∧ (
    ∃ (s : State), ∃ (at_ : Nat),
    (Awake s) ∧
    (Settled s at_) ∧
    ∃ q ∈ [(Instr.captureNow at_, 1, true), (.captureIn at_, 8, s.fbit HULL_CAPTURE_CFG_PIN_EN)],
    (q.2.2 = false)) ∧ (
    ∃ (s : State), ∃ (at_ : Nat),
    (Awake s) ∧
    (Settled s at_) ∧
    let heldCopies := s.fbit HULL_CAPTURE_CFG_HOLD && s.fbit HULL_CAPTURE_ID_HELD
    ∃ p,
    (capFirst s.cap.pend = some p) ∧
    (heldCopies = false) ∧
    (Settled s p.1)) ∧ (
    ∃ (s : State), ∃ (at_ : Nat),
    (Awake s) ∧
    (Settled s at_) ∧
    let heldCopies := s.fbit HULL_CAPTURE_CFG_HOLD && s.fbit HULL_CAPTURE_ID_HELD
    ∃ p,
    (capFirst s.cap.pend = some p) ∧
    (heldCopies = true) ∧
    (Settled s p.1)) ∧ (
    ∃ (s : State), ∃ (at_ : Nat),
    (Awake s) ∧
    (Settled s at_) ∧
    ∃ q ∈ [(Instr.armEdge, HULL_CAPTURE_ID_ARMED_EDGE, true), (.disarm, HULL_CAPTURE_ID_ARMED_EDGE, false),
        (.rearm, HULL_CAPTURE_ID_HELD, false)],
    True) ∧ (
    ∃ (s : State), ∃ (at_ : Nat),
    (Awake s) ∧
    (Settled s at_) ∧
    (s.fbit HULL_ORCH_MASTER = false)) ∧ (
    ∃ (s : State), ∃ (at_ : Nat),
    (Awake s) ∧
    (Settled s at_) ∧
    ∃ f,
    (s.image = some f) ∧
    (s.fbit HULL_ORCH_MASTER = true) ∧
    let tick := s.fget HULL_CAPTURE_AT0_TICK
    let cyc := s.fget HULL_CAPTURE_AT1_CYCLE
    let ok := s.tickCount + 2 ≤ tick ∧ ∀ p ∈ f.plans, p.all (fun q => decide (cyc < planPeriod q)) = true
    (ok)) ∧ (
    ∃ (s : State), ∃ (at_ : Nat),
    (Awake s) ∧
    (Settled s at_) ∧
    ∃ f,
    (s.image = some f) ∧
    (s.fbit HULL_ORCH_MASTER = true) ∧
    let tick := s.fget HULL_CAPTURE_AT0_TICK
    let cyc := s.fget HULL_CAPTURE_AT1_CYCLE
    let ok := s.tickCount + 2 ≤ tick ∧ ∀ p ∈ f.plans, p.all (fun q => decide (cyc < planPeriod q)) = true
    (¬ ok)) :=
  ⟨⟨ctxS (slv1 (run0 true)), 20067, awake_of (by decide +kernel), settled_of (by decide +kernel), _, (.head _), by decide +kernel, by decide +kernel, by decide +kernel⟩,
   ⟨let s := ctxS (State.reset); {s with cap := {s.cap with pend := [(20,1)]}}, 0, awake_of (by decide +kernel), settled_of (by decide +kernel), _, (.head _), by decide +kernel, by decide +kernel, (20, 1), by decide +kernel, by decide +kernel, by decide +kernel⟩,
   ⟨held (ctxS (run0 true)), 0, awake_of (by decide +kernel), settled_of (by decide +kernel), _, (.head _), by decide +kernel, by decide +kernel⟩,
   ⟨relo (reld (run0 true)), 0, awake_of (by decide +kernel), settled_of (by decide +kernel), _, (.tail _ (.head _)), by decide +kernel⟩,
   ⟨ctxS (slv1 (run0 true)), 0, awake_of (by decide +kernel), settled_of (by decide +kernel), (1060, 1), by decide +kernel, by decide +kernel, settled_of (by decide +kernel)⟩,
   ⟨held (ctxS (run0 true)), 0, awake_of (by decide +kernel), settled_of (by decide +kernel), (1060, 1), by decide +kernel, by decide +kernel, settled_of (by decide +kernel)⟩,
   ⟨ctxS (slv1 (run0 true)), 0, awake_of (by decide +kernel), settled_of (by decide +kernel), _, (.head _), trivial⟩,
   ⟨ctxS (slv1 (noisy (run0 false))), 0, awake_of (by decide +kernel), settled_of (by decide +kernel), by decide +kernel⟩,
   ⟨ctxS (slv1 (run0 true)), 0, awake_of (by decide +kernel), settled_of (by decide +kernel), imgS, by decide +kernel, by decide +kernel, by decide +kernel⟩,
   ⟨let s := (ctxS (run0 true)).fset HULL_CAPTURE_AT0_TICK 8; {s with cap := {s.cap with pend := [(2000,16)]}, ctxs := modAt (fun c => { c with image := some imgS }) 0 s.ctxs}, 0, awake_of (by decide +kernel), settled_of (by decide +kernel), imgS, by decide +kernel, by decide +kernel, by decide +kernel⟩⟩

theorem witness_LimitsSensorsAndClock :
    (
    ∃ (s : State), ∃ (at_ : Nat),
    (Awake s) ∧
    (Settled s at_) ∧
    (s.fbit CAP_MEAS_BELOW_FLOOR = true)) ∧ (
    ∃ (s : State), ∃ (at_ : Nat),
    (Awake s) ∧
    (Settled s at_) ∧
    (s.fbit CAP_MEAS_BELOW_FLOOR = false)) ∧ (
    ∃ (s : State), ∃ (at_ : Nat),
    (Awake s) ∧
    (Settled s at_) ∧
    (s.job.ctx = none)) ∧ (
    ∃ (s : State), ∃ (at_ : Nat),
    (Awake s) ∧
    (Settled s at_) ∧
    (s.job.ctx ≠ none) ∧
    (s.job.aborting = none)) ∧ (
    ∃ (s : State), ∃ (at_ : Nat),
    (Awake s) ∧
    (Settled s at_) ∧
    ∃ (id : Nat), ∃ (v : Word32),
    ∃ cause,
    (sensorWarns id v.toNat = some (some cause, true)) ∧
    (assocGet s.power.warned id = none)) ∧ (
    ∃ (s : State), ∃ (at_ : Nat),
    (Awake s) ∧
    (Settled s at_) ∧
    ∃ (id : Nat), ∃ (v : Word32),
    ∃ x,
    (sensorWarns id v.toNat = some (x, true)) ∧
    (assocGet s.power.warned id = some none)) ∧ (
    ∃ (s : State), ∃ (at_ : Nat),
    (Awake s) ∧
    (Settled s at_) ∧
    ∃ (id : Nat), ∃ (v : Word32),
    ((sensorWarns id v.toNat).all (fun x => !x.2) = true)) ∧ (
    ∃ (s : State), ∃ (at_ : Nat),
    (Awake s) ∧
    (Settled s at_) ∧
    ∃ (id : Nat), ∃ (v : Word32),
    (0x200 ≤ id) ∧
    (id < 0x210) ∧
    (readAbove v.toNat 95 = true) ∧
    (assocGet s.power.warned id = none)) :=
  ⟨⟨fat (run0 true), 0, awake_of (by decide +kernel), settled_of (by decide +kernel), by decide +kernel⟩,
   ⟨ctxS State.reset, 0, awake_of (by decide +kernel), settled_of (by decide +kernel), by decide +kernel⟩,
   ⟨ctxS State.reset, 0, awake_of (by decide +kernel), settled_of (by decide +kernel), by decide +kernel⟩,
   ⟨fat (run0 true), 0, awake_of (by decide +kernel), settled_of (by decide +kernel), by decide +kernel, by decide +kernel⟩,
   ⟨fat (run0 true), 0, awake_of (by decide +kernel), settled_of (by decide +kernel), 256, 0x42DC0000, 2, by decide +kernel, by decide +kernel⟩,
   ⟨fat (run0 true), 0, awake_of (by decide +kernel), settled_of (by decide +kernel), 16, 0, some 0, by decide +kernel, by decide +kernel⟩,
   ⟨fat (run0 true), 0, awake_of (by decide +kernel), settled_of (by decide +kernel), 0, 0, by decide +kernel⟩,
   ⟨ctxS State.reset, 0, awake_of (by decide +kernel), settled_of (by decide +kernel), 512, 0x42DC0000, by decide +kernel, by decide +kernel, by decide +kernel, by decide +kernel⟩⟩

theorem witness_FunctionResetsClearTheirOwn :
    (
    ∃ (s : State), ∃ (at_ : Nat),
    (Awake s) ∧
    (Settled s at_)) :=
  ⟨fat (run0 true), 0, awake_of (by decide +kernel), settled_of (by decide +kernel)⟩

theorem witness_ResetsHoldAndRelease :
    (
    ∃ (s : State), ∃ (at_ : Nat),
    (Safety.Inv s) ∧
    (Settled s at_) ∧
    ((s.power.halt = .no ∨ ∃ c ∈ [true, false], s.power.halt = .inReset c))) ∧ (
    ∃ (s : State), ∃ (at_ : Nat),
    (Safety.Inv s) ∧
    (Settled s at_) ∧
    (s.power.halt = .off ∨ s.power.halt = .inReset true)) ∧ (
    ∃ (s : State), ∃ (at_ : Nat),
    (Safety.Inv s) ∧
    (Settled s at_) ∧
    (s.power.halt = .no)) ∧ (
    ∃ (s : State), ∃ (at_ : Nat),
    (Safety.Inv s) ∧
    (Settled s at_) ∧
    (s.power.halt = .inReset false) ∧
    (Settled s (max s.now at_ + 20000))) ∧ (
    ∃ (s : State), ∃ (at_ : Nat),
    (Safety.Inv s) ∧
    (Settled s at_) ∧
    (s.power.halt ≠ .no) ∧
    (s.run.active = false) ∧
    ∃ c,
    (heardWhileStopped c = false) ∧
    (((∃ k, s.power.halt = .stopped k) → timedAt c ≠ some s.power.stopAt))) :=
  ⟨⟨fat (run0 true), 0, inv_of (by decide +kernel), settled_of (by decide +kernel), by decide +kernel⟩,
   ⟨hlt .off (fat (run0 true)), 0, inv_of (by decide +kernel), settled_of (by decide +kernel), by decide +kernel⟩,
   ⟨fat (run0 true), 0, inv_of (by decide +kernel), settled_of (by decide +kernel), by decide +kernel⟩,
   ⟨hlt (.inReset false) (ctxS State.reset), 0, inv_of (by decide +kernel), settled_of (by decide +kernel), by decide +kernel, settled_of (by decide +kernel)⟩,
   ⟨{ hlt .off (fat (run0 true)) with run := {} }, 0, inv_of (by decide +kernel), settled_of (by decide +kernel), by decide +kernel, by decide +kernel, .tickEdge, by decide +kernel, fun ⟨_, hk⟩ => by cases hk⟩⟩

theorem witness_PowerStatesAreEnteredAndLeft :
    (
    ∃ (s : State), ∃ (at_ : Nat),
    (Awake s) ∧
    (Settled s at_) ∧
    ∃ q ∈ [(Instr.pwrIdle, 1, 4096), (.pwrFallow, 2, 2000000), (.pwrDormant, 3, 40000000)],
    (s.powerBusy = true ∨ s.inRun = false)) ∧ (
    ∃ (s : State), ∃ (at_ : Nat),
    (Awake s) ∧
    (Settled s at_) ∧
    ∃ q ∈ [(Instr.pwrIdle, 1, 4096), (.pwrFallow, 2, 2000000), (.pwrDormant, 3, 40000000)],
    (s.powerBusy = false) ∧
    (s.inRun = true)) ∧ (
    ∃ (s : State), ∃ (at_ : Nat),
    (Awake s) ∧
    (Settled s at_) ∧
    (s.powerBusy = false) ∧
    (s.inRun = true)) ∧ (
    ∃ (s : State), ∃ (at_ : Nat),
    (Awake s) ∧
    (Settled s at_) ∧
    (s.powerBusy = true ∨ s.inRun = false)) ∧ (
    ∃ (s : State), ∃ (at_ : Nat),
    (Awake s) ∧
    (Settled s at_) ∧
    ∃ p, ∃ c,
    (s.power.trans = some (p, c)) ∧
    (1 ≤ p) ∧
    (p ≤ 3) ∧
    (Settled s c)) ∧ (
    ∃ (s : State), ∃ (at_ : Nat),
    (Awake s) ∧
    (Settled s at_) ∧
    ∃ p,
    (s.power.trans = none) ∧
    (s.fget PWR_STATE_STATE = p) ∧
    (1 ≤ p) ∧
    (p ≤ 3)) ∧ (
    ∃ (s : State), ∃ (at_ : Nat),
    (Awake s) ∧
    (Settled s at_) ∧
    (s.power.trans = none) ∧
    (s.fget PWR_STATE_STATE = 0)) ∧ (
    ∃ (s : State), ∃ (at_ : Nat),
    (Awake s) ∧
    (Settled s at_) ∧
    ∃ c,
    (s.power.trans = some (0, c)) ∧
    (s.fbit HRD_CMD_BUSY = false) ∧
    (Settled s c)) :=
  ⟨⟨fat (run0 true), 0, awake_of (by decide +kernel), settled_of (by decide +kernel), _, (.head _), by decide +kernel⟩,
   ⟨ctxS State.reset, 0, awake_of (by decide +kernel), settled_of (by decide +kernel), _, (.head _), by decide +kernel, by decide +kernel⟩,
   ⟨ctxS State.reset, 0, awake_of (by decide +kernel), settled_of (by decide +kernel), by decide +kernel, by decide +kernel⟩,
   ⟨fat (run0 true), 0, awake_of (by decide +kernel), settled_of (by decide +kernel), by decide +kernel⟩,
   ⟨low 0 (some (1, 3000)) State.reset, 0, awake_of (by decide +kernel), settled_of (by decide +kernel), 1, 3000, by decide +kernel, by decide +kernel, by decide +kernel, settled_of (by decide +kernel)⟩,
   ⟨low 1 none State.reset, 0, awake_of (by decide +kernel), settled_of (by decide +kernel), 1, by decide +kernel, by decide +kernel, by decide +kernel, by decide +kernel⟩,
   ⟨fat (run0 true), 0, awake_of (by decide +kernel), settled_of (by decide +kernel), by decide +kernel, by decide +kernel⟩,
   ⟨low 3 (some (0, 3000)) State.reset, 0, awake_of (by decide +kernel), settled_of (by decide +kernel), 3000, by decide +kernel, by decide +kernel, settled_of (by decide +kernel)⟩⟩

theorem witness_ImagesLoadAndUnload :
    (
    ∃ (s : State), ∃ (at_ : Nat), ∃ (ctx : Nat),
    (Awake s) ∧
    (ctx < 4) ∧
    (Settled s at_) ∧
    (s.cmdAllowed ctx [.empty] = true)) ∧ (
    ∃ (s : State), ∃ (at_ : Nat), ∃ (ctx : Nat),
    (Awake s) ∧
    (ctx < 4) ∧
    (Settled s at_) ∧
    (s.cmdAllowed ctx [.empty] = false)) ∧ (
    ∃ (s : State), ∃ (at_ : Nat), ∃ (ctx : Nat),
    (Awake s) ∧
    (ctx < 4) ∧
    (Settled s at_) ∧
    ∃ f, ∃ p,
    (s.host.cmds.find? (fun p => p.opcode == 1 && p.ctx == ctx) = some p) ∧
    (s.imageFail f p.arg = none)) ∧ (
    ∃ (s : State), ∃ (at_ : Nat), ∃ (ctx : Nat),
    (Awake s) ∧
    (ctx < 4) ∧
    (Settled s at_) ∧
    ∃ f, ∃ p,
    (s.host.cmds.find? (fun p => p.opcode == 1 && p.ctx == ctx) = some p) ∧
    ∃ e,
    (s.imageFail f p.arg = some e)) ∧ (
    ∃ (s : State), ∃ (at_ : Nat), ∃ (ctx : Nat),
    (Awake s) ∧
    (ctx < 4) ∧
    (Settled s at_) ∧
    (s.cmdAllowed ctx [.loaded] = false)) ∧ (
    ∃ (s : State), ∃ (at_ : Nat), ∃ (ctx : Nat),
    (Awake s) ∧
    (ctx < 4) ∧
    (Settled s at_) ∧
    (s.cmdAllowed ctx [.loaded] = true)) :=
  ⟨⟨hl, 0, 0, awake_of (by decide +kernel), by decide +kernel, settled_of (by decide +kernel), by decide +kernel⟩,
   ⟨hl, 0, 2, awake_of (by decide +kernel), by decide +kernel, settled_of (by decide +kernel), by decide +kernel⟩,
   ⟨hl, 0, 2, awake_of (by decide +kernel), by decide +kernel, settled_of (by decide +kernel), okImg, ⟨1, 2, 77, 0x10000⟩, by decide +kernel, by decide +kernel⟩,
   ⟨hl, 0, 2, awake_of (by decide +kernel), by decide +kernel, settled_of (by decide +kernel), imgO, ⟨1, 2, 77, 0x10000⟩, by decide +kernel, { code := 1, typ := 0, offset := some 0 }, by decide +kernel⟩,
   ⟨hl, 0, 0, awake_of (by decide +kernel), by decide +kernel, settled_of (by decide +kernel), by decide +kernel⟩,
   ⟨host0, 0, 0, awake_of (by decide +kernel), by decide +kernel, settled_of (by decide +kernel), by decide +kernel⟩⟩

theorem witness_JobsStartAndEnd :
    (
    ∃ (s : State), ∃ (at_ : Nat), ∃ (ctx : Nat), ∃ (join : JobJoin),
    (Awake s) ∧
    (ctx < 4) ∧
    (Settled s (max (max s.now at_) join.edge)) ∧
    ((s.ctx ctx).image = none ∨ s.cmdAllowed ctx [.loaded] = false ∨ s.fbit BENCH_STS_SCAN_ACTIVE = true)) ∧ (
    ∃ (s : State), ∃ (at_ : Nat), ∃ (ctx : Nat), ∃ (join : JobJoin),
    (Awake s) ∧
    (ctx < 4) ∧
    (Settled s (max (max s.now at_) join.edge)) ∧
    ∃ f,
    ((s.ctx ctx).image = some f) ∧
    (s.cmdAllowed ctx [.loaded] = true) ∧
    (s.fbit BENCH_STS_SCAN_ACTIVE = false) ∧
    (s.jobBusy = true)) ∧ (
    ∃ (s : State), ∃ (at_ : Nat), ∃ (ctx : Nat), ∃ (join : JobJoin),
    (Awake s) ∧
    (ctx < 4) ∧
    (Settled s (max (max s.now at_) join.edge)) ∧
    ∃ f,
    ((s.ctx ctx).image = some f) ∧
    (s.cmdAllowed ctx [.loaded] = true) ∧
    (s.fbit BENCH_STS_SCAN_ACTIVE = false) ∧
    (s.jobBusy = false) ∧
    (s.powerDetail ≠ 0)) ∧ (
    ∃ (s : State), ∃ (at_ : Nat), ∃ (ctx : Nat), ∃ (join : JobJoin),
    (Awake s) ∧
    (ctx < 4) ∧
    (Settled s (max (max s.now at_) join.edge)) ∧
    ∃ f,
    ((s.ctx ctx).image = some f) ∧
    (s.cmdAllowed ctx [.loaded] = true) ∧
    (s.fbit BENCH_STS_SCAN_ACTIVE = false) ∧
    (s.jobBusy = false) ∧
    (s.powerDetail = 0) ∧
    let narrow := s.fget HOST_LINK_WIDTH = 1 ∨ s.fget HOST_LINK_WIDTH = 2
    (narrow)) ∧ (
    ∃ (s : State), ∃ (at_ : Nat), ∃ (ctx : Nat), ∃ (join : JobJoin),
    (Awake s) ∧
    (ctx < 4) ∧
    (Settled s (max (max s.now at_) join.edge)) ∧
    ∃ f,
    ((s.ctx ctx).image = some f) ∧
    (s.cmdAllowed ctx [.loaded] = true) ∧
    (s.fbit BENCH_STS_SCAN_ACTIVE = false) ∧
    (s.jobBusy = false) ∧
    (s.powerDetail = 0) ∧
    let narrow := s.fget HOST_LINK_WIDTH = 1 ∨ s.fget HOST_LINK_WIDTH = 2
    (¬ narrow) ∧
    (s.jobRefusal f ≠ 0)) ∧ (
    ∃ (s : State), ∃ (at_ : Nat), ∃ (ctx : Nat), ∃ (src : Nat), ∃ (join : JobJoin),
    (Awake s) ∧
    (ctx < 4) ∧
    (Settled s (max (max s.now at_) join.edge)) ∧
    ∃ f,
    ((s.ctx ctx).image = some f) ∧
    (s.cmdAllowed ctx [.loaded] = true) ∧
    (s.fbit BENCH_STS_SCAN_ACTIVE = false) ∧
    (s.jobBusy = false) ∧
    (s.powerDetail = 0) ∧
    let narrow := s.fget HOST_LINK_WIDTH = 1 ∨ s.fget HOST_LINK_WIDTH = 2
    (¬ narrow) ∧
    (s.jobRefusal f = 0) ∧
    (src = 0)) ∧ (
    ∃ (s : State), ∃ (at_ : Nat), ∃ (ctx : Nat), ∃ (src : Nat), ∃ (len : Nat), ∃ (join : JobJoin),
    (Awake s) ∧
    (ctx < 4) ∧
    (Settled s (max (max s.now at_) join.edge)) ∧
    ∃ f,
    ((s.ctx ctx).image = some f) ∧
    (s.cmdAllowed ctx [.loaded] = true) ∧
    (s.fbit BENCH_STS_SCAN_ACTIVE = false) ∧
    (s.jobBusy = false) ∧
    (s.powerDetail = 0) ∧
    let narrow := s.fget HOST_LINK_WIDTH = 1 ∨ s.fget HOST_LINK_WIDTH = 2
    (¬ narrow) ∧
    (s.jobRefusal f = 0) ∧
    (src ≠ 0) ∧
    ((s.loadBytes src len).bind (fun l => s.loadEnts f l) = none)) ∧ (
    ∃ (s : State), ∃ (at_ : Nat), ∃ (ctx : Nat), ∃ (src : Nat), ∃ (len : Nat), ∃ (join : JobJoin),
    (Awake s) ∧
    (ctx < 4) ∧
    (Settled s (max (max s.now at_) join.edge)) ∧
    ∃ f,
    ((s.ctx ctx).image = some f) ∧
    (s.cmdAllowed ctx [.loaded] = true) ∧
    (s.fbit BENCH_STS_SCAN_ACTIVE = false) ∧
    (s.jobBusy = false) ∧
    (s.powerDetail = 0) ∧
    let narrow := s.fget HOST_LINK_WIDTH = 1 ∨ s.fget HOST_LINK_WIDTH = 2
    ∃ l, ∃ es,
    (¬ narrow) ∧
    (s.jobRefusal f = 0) ∧
    (src ≠ 0) ∧
    (s.loadBytes src len = some l) ∧
    (s.loadEnts f l = some es)) ∧ (
    ∃ (s : State), ∃ (at_ : Nat), ∃ (ctx : Nat), ∃ (join : JobJoin),
    (Awake s) ∧
    (ctx < 4) ∧
    (Settled s (max (max s.now at_) join.edge)) ∧
    (s.cmdAllowed ctx [.running, .preempted] = false)) ∧ (
    ∃ (s : State), ∃ (at_ : Nat), ∃ (ctx : Nat), ∃ (join : JobJoin),
    (Awake s) ∧
    (ctx < 4) ∧
    (Settled s (max (max s.now at_) join.edge)) ∧
    (s.cmdAllowed ctx [.running, .preempted] = true) ∧
    (s.job.ctx = some ctx)) ∧ (
    ∃ (s : State), ∃ (at_ : Nat), ∃ (ctx : Nat), ∃ (join : JobJoin),
    (Awake s) ∧
    (ctx < 4) ∧
    (Settled s (max (max s.now at_) join.edge)) ∧
    ∃ v,
    ((s.ctx ctx).loading = false) ∧
    ((s.ctx ctx).state = .preempted) ∧
    ((s.ctx ctx).saved = some v) ∧
    (s.job.ctx ≠ some ctx)) :=
  ⟨⟨hl, 0, 0, ⟨4000, 9⟩, awake_of (by decide +kernel), by decide +kernel, settled_of (by decide +kernel), by decide +kernel⟩,
   ⟨hrun, 0, 2, ⟨4000, 9⟩, awake_of (by decide +kernel), by decide +kernel, settled_of (by decide +kernel), imgO, by decide +kernel, by decide +kernel, by decide +kernel, by decide +kernel⟩,
   ⟨host0.fset PWR_STATE_ARMED 0, 0, 0, ⟨4000, 9⟩, awake_of (by decide +kernel), by decide +kernel, settled_of (by decide +kernel), imgO, by decide +kernel, by decide +kernel, by decide +kernel, by decide +kernel, by decide +kernel⟩,
   ⟨host0.fset HOST_LINK_WIDTH 1, 0, 0, ⟨4000, 9⟩, awake_of (by decide +kernel), by decide +kernel, settled_of (by decide +kernel), imgO, by decide +kernel, by decide +kernel, by decide +kernel, by decide +kernel, by decide +kernel, by decide +kernel⟩,
   ⟨host0.fset HULL_ORCH_SIZE 2, 0, 0, ⟨4000, 9⟩, awake_of (by decide +kernel), by decide +kernel, settled_of (by decide +kernel), imgO, by decide +kernel, by decide +kernel, by decide +kernel, by decide +kernel, by decide +kernel, by decide +kernel, by decide +kernel⟩,
   ⟨host0, 0, 0, 0, ⟨4000, 9⟩, awake_of (by decide +kernel), by decide +kernel, settled_of (by decide +kernel), imgO, by decide +kernel, by decide +kernel, by decide +kernel, by decide +kernel, by decide +kernel, by decide +kernel, by decide +kernel, by decide +kernel⟩,
   ⟨host0, 0, 0, 3, 0, ⟨4000, 9⟩, awake_of (by decide +kernel), by decide +kernel, settled_of (by decide +kernel), imgO, by decide +kernel, by decide +kernel, by decide +kernel, by decide +kernel, by decide +kernel, by decide +kernel, by decide +kernel, by decide +kernel, by decide +kernel⟩,
   ⟨ld, 0, 0, 262144, 128, ⟨4000, 9⟩, awake_of (by decide +kernel), by decide +kernel, settled_of (by decide +kernel), imgE, by decide +kernel, by decide +kernel, by decide +kernel, by decide +kernel, by decide +kernel, ld.rdBytes 0x40000 128, [], by decide +kernel, by decide +kernel, by decide +kernel, by decide +kernel, by simp only [State.loadEnts, crcAll_eq]; decide +kernel⟩,
   ⟨hl, 0, 0, ⟨4000, 9⟩, awake_of (by decide +kernel), by decide +kernel, settled_of (by decide +kernel), by decide +kernel⟩,
   ⟨hrun, 0, 0, ⟨4000, 9⟩, awake_of (by decide +kernel), by decide +kernel, settled_of (by decide +kernel), by decide +kernel, by decide +kernel⟩,
   ⟨host0, 0, 3, ⟨4000, 9⟩, awake_of (by decide +kernel), by decide +kernel, settled_of (by decide +kernel), sav, by decide +kernel, by decide +kernel, by decide +kernel, by decide +kernel⟩⟩

theorem witness_PreemptionSavesAndResumes :
    (
    ∃ (s : State), ∃ (at_ : Nat), ∃ (ctx : Nat),
    (Awake s) ∧
    (ctx < 4) ∧
    (Settled s (max s.now at_ + 1024)) ∧
    (s.cmdAllowed ctx [.running] = false)) ∧ (
    ∃ (s : State), ∃ (at_ : Nat), ∃ (ctx : Nat),
    (Awake s) ∧
    (ctx < 4) ∧
    (Settled s (max s.now at_ + 1024)) ∧
    let busy := s.host.cmds.any (fun p => p.opcode == 6 && p.ctx == ctx) || s.host.saving.isSome
    (s.cmdAllowed ctx [.running] = true) ∧
    (busy = true)) ∧ (
    ∃ (s : State), ∃ (at_ : Nat), ∃ (ctx : Nat),
    (Awake s) ∧
    (ctx < 4) ∧
    (Settled s (max s.now at_ + 1024)) ∧
    let busy := s.host.cmds.any (fun p => p.opcode == 6 && p.ctx == ctx) || s.host.saving.isSome
    ∃ tick,
    (s.cmdAllowed ctx [.running] = true) ∧
    (busy = false) ∧
    (tick < s.tickCount)) ∧ (
    ∃ (s : State), ∃ (at_ : Nat), ∃ (ctx : Nat),
    (Awake s) ∧
    (ctx < 4) ∧
    (Settled s (max s.now at_ + 1024)) ∧
    let s1 := s.advance at_
    let busy := s.host.cmds.any (fun p => p.opcode == 6 && p.ctx == ctx) || s.host.saving.isSome
    ∃ tick,
    (s.cmdAllowed ctx [.running] = true) ∧
    (busy = false) ∧
    (tick = s.tickCount) ∧
    (s1.inCommitWindow = true)) ∧ (
    ∃ (s : State), ∃ (at_ : Nat), ∃ (ctx : Nat),
    (Awake s) ∧
    (ctx < 4) ∧
    (Settled s (max s.now at_ + 1024)) ∧
    let s1 := s.advance at_
    let busy := s.host.cmds.any (fun p => p.opcode == 6 && p.ctx == ctx) || s.host.saving.isSome
    ∃ tick,
    (s.cmdAllowed ctx [.running] = true) ∧
    (busy = false) ∧
    ((s.tickCount < tick ∨ tick = s.tickCount ∧ s1.inCommitWindow = false)) ∧
    (s.job.preemptAt = none)) ∧ (
    ∃ (s : State), ∃ (at_ : Nat), ∃ (ctx : Nat),
    (Awake s) ∧
    (ctx < 4) ∧
    (Settled s (max s.now at_ + 1024)) ∧
    (s.cmdAllowed ctx [.running] = true) ∧
    (s.host.saving.isSome = true)) ∧ (
    ∃ (s : State), ∃ (at_ : Nat), ∃ (ctx : Nat),
    (Awake s) ∧
    (ctx < 4) ∧
    (Settled s (max s.now at_ + 1024)) ∧
    (s.cmdAllowed ctx [.running] = true) ∧
    (s.host.saving = none) ∧
    (1 < s.fget HULL_ORCH_SIZE)) ∧ (
    ∃ (s : State), ∃ (at_ : Nat), ∃ (ctx : Nat),
    (Awake s) ∧
    (ctx < 4) ∧
    (Settled s (max s.now at_ + 1024)) ∧
    let s1 := s.advance at_
    (s.cmdAllowed ctx [.running] = true) ∧
    (s.host.saving = none) ∧
    (s.fget HULL_ORCH_SIZE ≤ 1) ∧
    (s1.inCommitWindow = false) ∧
    (s.job.ctx = some ctx) ∧
    (s.power.reload = none)) ∧ (
    ∃ (s : State), ∃ (at_ : Nat), ∃ (ctx : Nat),
    (Awake s) ∧
    (ctx < 4) ∧
    (Settled s (max s.now at_ + 1024)) ∧
    let s1 := s.advance at_
    (s.cmdAllowed ctx [.running] = true) ∧
    (s.host.saving = none) ∧
    (s.fget HULL_ORCH_SIZE ≤ 1) ∧
    (s1.inCommitWindow = true) ∧
    (s.job.preemptAt = none)) ∧ (
    ∃ (s : State), ∃ (at_ : Nat), ∃ (ctx : Nat),
    (Awake s) ∧
    (ctx < 4) ∧
    (Settled s (max s.now at_ + 1024)) ∧
    ∃ v,
    (s.host.saving = some v) ∧
    (v.ctx < 4) ∧
    (s.power.reload = none) ∧
    (Settled s v.doneAt)) ∧ (
    ∃ (s : State), ∃ (at_ : Nat), ∃ (ctx : Nat),
    (Awake s) ∧
    (ctx < 4) ∧
    (Settled s (max s.now at_ + 1024)) ∧
    let resuming := s.host.cmds.any (fun p => p.opcode == 7 && p.ctx == ctx)
    (s.cmdAllowed ctx [.preempted] = false ∨ resuming = true)) ∧ (
    ∃ (s : State), ∃ (at_ : Nat), ∃ (ctx : Nat),
    (Awake s) ∧
    (ctx < 4) ∧
    (Settled s (max s.now at_ + 1024)) ∧
    let resuming := s.host.cmds.any (fun p => p.opcode == 7 && p.ctx == ctx)
    (s.cmdAllowed ctx [.preempted] = true) ∧
    (resuming = false) ∧
    (s.jobBusy = true)) ∧ (
    ∃ (s : State), ∃ (at_ : Nat), ∃ (ctx : Nat),
    (Awake s) ∧
    (ctx < 4) ∧
    (Settled s (max s.now at_ + 1024)) ∧
    let resuming := s.host.cmds.any (fun p => p.opcode == 7 && p.ctx == ctx)
    (s.cmdAllowed ctx [.preempted] = true) ∧
    (resuming = false) ∧
    (s.jobBusy = false) ∧
    (s.powerDetail = 0)) ∧ (
    ∃ (s : State), ∃ (at_ : Nat), ∃ (ctx : Nat),
    (Awake s) ∧
    (ctx < 4) ∧
    (Settled s (max s.now at_ + 1024)) ∧
    ∃ p, ∃ f, ∃ v, ∃ (join : JobJoin),
    (s.host.cmds.find? (fun p => p.opcode == 7) = some p) ∧
    (p.ctx < 4) ∧
    ((s.ctx p.ctx).image = some f) ∧
    ((s.ctx p.ctx).saved = some v) ∧
    (Settled s (max (max s.now p.arg) join.edge)) ∧
    (s.jobRefusal f = 0)) ∧ (
    ∃ (s : State), ∃ (at_ : Nat), ∃ (ctx : Nat),
    (Awake s) ∧
    (ctx < 4) ∧
    (Settled s (max s.now at_ + 1024)) ∧
    ∃ p, ∃ f, ∃ v, ∃ (join : JobJoin),
    (s.host.cmds.find? (fun p => p.opcode == 7) = some p) ∧
    (p.ctx < 4) ∧
    ((s.ctx p.ctx).image = some f) ∧
    ((s.ctx p.ctx).saved = some v) ∧
    (Settled s (max (max s.now p.arg) join.edge)) ∧
    (s.jobRefusal f ≠ 0)) :=
  ⟨⟨hl, 0, 0, awake_of (by decide +kernel), by decide +kernel, settled_of (by decide +kernel), by decide +kernel⟩,
   ⟨fat (run0 true), 0, 0, awake_of (by decide +kernel), by decide +kernel, settled_of (by decide +kernel), by decide +kernel, by decide +kernel⟩,
   ⟨hrun, 0, 0, awake_of (by decide +kernel), by decide +kernel, settled_of (by decide +kernel), 0, by decide +kernel, by decide +kernel, by decide +kernel⟩,
   ⟨{ hrun with
    now := 302000 }, 0, 0, awake_of (by decide +kernel), by decide +kernel, settled_of (by decide +kernel), 7, by decide +kernel, by decide +kernel, by decide +kernel, by decide +kernel⟩,
   ⟨hrun, 0, 0, awake_of (by decide +kernel), by decide +kernel, settled_of (by decide +kernel), 7, by decide +kernel, by decide +kernel, by decide +kernel, by decide +kernel⟩,
   ⟨{ hrun with
    host := { hrun.host with
    saving := some svg, cmds := [⟨6, 0, 9, 7⟩] } , run := {}}, 0, 0, awake_of (by decide +kernel), by decide +kernel, settled_of (by decide +kernel), by decide +kernel, by decide +kernel⟩,
   ⟨fat (run0 true), 0, 0, awake_of (by decide +kernel), by decide +kernel, settled_of (by decide +kernel), by decide +kernel, by decide +kernel, by decide +kernel⟩,
   ⟨hrun, 0, 0, awake_of (by decide +kernel), by decide +kernel, settled_of (by decide +kernel), by decide +kernel, by decide +kernel, by decide +kernel, by decide +kernel, by decide +kernel, by decide +kernel⟩,
   ⟨{ hrun with
    now := 302000 }, 0, 0, awake_of (by decide +kernel), by decide +kernel, settled_of (by decide +kernel), by decide +kernel, by decide +kernel, by decide +kernel, by decide +kernel, by decide +kernel⟩,
   ⟨{ hrun with
    host := { hrun.host with
    saving := some svg, cmds := [⟨6, 0, 9, 7⟩] } , run := {}}, 0, 0, awake_of (by decide +kernel), by decide +kernel, settled_of (by decide +kernel), svg, by decide +kernel, by decide +kernel, by decide +kernel, settled_of (by decide +kernel)⟩,
   ⟨hl, 0, 0, awake_of (by decide +kernel), by decide +kernel, settled_of (by decide +kernel), by decide +kernel⟩,
   ⟨hrun, 0, 3, awake_of (by decide +kernel), by decide +kernel, settled_of (by decide +kernel), by decide +kernel, by decide +kernel, by decide +kernel⟩,
   ⟨host0, 0, 3, awake_of (by decide +kernel), by decide +kernel, settled_of (by decide +kernel), by decide +kernel, by decide +kernel, by decide +kernel, by decide +kernel⟩,
   ⟨{ host0 with
    host := { host0.host with
    cmds := [⟨7, 3, 6, 5000⟩] } }, 0, 0, awake_of (by decide +kernel), by decide +kernel, settled_of (by decide +kernel), ⟨7, 3, 6, 5000⟩, imgO, sav, ⟨4000, 9⟩, by decide +kernel, by decide +kernel, by decide +kernel, by decide +kernel, settled_of (by decide +kernel), by decide +kernel⟩,
   ⟨({ host0 with
    host := { host0.host with
    cmds := [⟨7, 3, 6, 5000⟩] } }).fset HULL_ORCH_SIZE 3, 0, 0, awake_of (by decide +kernel), by decide +kernel, settled_of (by decide +kernel), ⟨7, 3, 6, 5000⟩, imgO, sav, ⟨4000, 9⟩, by decide +kernel, by decide +kernel, by decide +kernel, by decide +kernel, settled_of (by decide +kernel), by decide +kernel⟩⟩

theorem witness_IngestAndExportMoveTheirData :
    (
    ∃ (s : State), ∃ (at_ : Nat), ∃ (ctx : Nat),
    (Awake s) ∧
    (ctx < 4) ∧
    (Settled s at_) ∧
    ∃ step, ∃ tokens, ∃ bytes, ∃ slot, ∃ f,
    (slot < 1024) ∧
    ((s.ctx ctx).image = some f) ∧
    (s.cmdAllowed ctx [.loaded, .running, .preempted] = true) ∧
    let code := (s.advance at_).ingestCode f ctx step slot tokens bytes
    (code ≠ 0)) ∧ (
    ∃ (s : State), ∃ (at_ : Nat), ∃ (ctx : Nat),
    (Awake s) ∧
    (ctx < 4) ∧
    (Settled s at_) ∧
    ∃ step, ∃ slot, ∃ f,
    (slot < 1024) ∧
    ((s.ctx ctx).image = some f) ∧
    (s.cmdAllowed ctx [.loaded, .running, .preempted] = true) ∧
    ((∃ r ∈ s.ctxRefused ctx, r.1 = step ∧ r.2.1 = slot ∧ r.2.2 ≠ 0)) ∧
    ((∀ r ∈ s.ctxRefused ctx, r.2.2 ≠ 0))) ∧ (
    ∃ (s : State), ∃ (at_ : Nat), ∃ (ctx : Nat),
    (Awake s) ∧
    (ctx < 4) ∧
    (Settled s at_) ∧
    ∃ step, ∃ tokens, ∃ bytes, ∃ slot, ∃ f,
    (slot < 1024) ∧
    ((s.ctx ctx).image = some f) ∧
    (s.cmdAllowed ctx [.loaded, .running, .preempted] = true) ∧
    let code := (s.advance at_).ingestCode f ctx step slot tokens bytes
    (code = 0)) ∧ (
    ∃ (s : State), ∃ (at_ : Nat), ∃ (ctx : Nat),
    (Awake s) ∧
    (ctx < 4) ∧
    (Settled s at_) ∧
    (((s.ctx ctx).image = none ∨ s.cmdAllowed ctx [.loaded, .running, .preempted] = false))) ∧ (
    ∃ (s : State), ∃ (at_ : Nat), ∃ (ctx : Nat),
    (Awake s) ∧
    (ctx < 4) ∧
    (Settled s at_) ∧
    ∃ step, ∃ slot, ∃ d,
    (s.host.descs.find? (fun d => d.ctx == ctx && d.kind == .ingest step slot) = some d)) ∧ (
    ∃ (s : State), ∃ (at_ : Nat), ∃ (ctx : Nat),
    (Awake s) ∧
    (ctx < 4) ∧
    (Settled s at_) ∧
    ∃ kind, ∃ (bufs : List (Nat × Nat)),
    ((1 < kind ∨ bufs = [] ∨ 48 < bufs.length))) ∧ (
    ∃ (s : State), ∃ (at_ : Nat), ∃ (ctx : Nat),
    (Awake s) ∧
    (ctx < 4) ∧
    (Settled s at_) ∧
    ∃ kind, ∃ (bufs : List (Nat × Nat)), ∃ f,
    (kind < 2) ∧
    (bufs ≠ []) ∧
    (bufs.length ≤ 48) ∧
    ((s.ctx ctx).image = some f) ∧
    (s.cmdAllowed ctx [.loaded, .running, .preempted] = true) ∧
    (s.host.exp.isSome = true)) ∧ (
    ∃ (s : State), ∃ (at_ : Nat), ∃ (ctx : Nat),
    (Awake s) ∧
    (ctx < 4) ∧
    (Settled s at_) ∧
    ∃ kind, ∃ (bufs : List (Nat × Nat)), ∃ f,
    (kind < 2) ∧
    (bufs ≠ []) ∧
    (bufs.length ≤ 48) ∧
    ((s.ctx ctx).image = some f) ∧
    (s.cmdAllowed ctx [.loaded, .running, .preempted] = true) ∧
    let room := (bufs.map (fun b => b.2)).foldl (· + ·) 0
    let total := s.expTotal f (s.ctxCcr ctx) (s.ctxLag ctx) kind
    (s.host.exp = none) ∧
    (room < total)) ∧ (
    ∃ (s : State), ∃ (at_ : Nat), ∃ (ctx : Nat),
    (Awake s) ∧
    (ctx < 4) ∧
    (Settled s at_) ∧
    ∃ kind, ∃ (bufs : List (Nat × Nat)), ∃ f,
    (kind < 2) ∧
    (bufs ≠ []) ∧
    (bufs.length ≤ 48) ∧
    ((s.ctx ctx).image = some f) ∧
    (s.cmdAllowed ctx [.loaded, .running, .preempted] = true) ∧
    let room := (bufs.map (fun b => b.2)).foldl (· + ·) 0
    let total := s.expTotal f (s.ctxCcr ctx) (s.ctxLag ctx) kind
    (s.host.exp = none) ∧
    (total ≤ room)) ∧ (
    ∃ (s : State), ∃ (at_ : Nat), ∃ (ctx : Nat),
    (Awake s) ∧
    (ctx < 4) ∧
    (Settled s at_) ∧
    ∃ e, ∃ f,
    (s.host.exp = some e) ∧
    ((s.ctx e.ctx).image = some f) ∧
    (e.started = false) ∧
    ((s.advance at_).exportMay e.ctx = true)) ∧ (
    ∃ (s : State), ∃ (at_ : Nat), ∃ (ctx : Nat),
    (Awake s) ∧
    (ctx < 4) ∧
    (Settled s at_) ∧
    ∃ e, ∃ f,
    (s.host.exp = some e) ∧
    ((s.ctx e.ctx).image = some f) ∧
    (e.started = true) ∧
    (s.bufsMay 0 (s.exportBytes e f).length e.bufs = false)) ∧ (
    ∃ (s : State), ∃ (at_ : Nat), ∃ (ctx : Nat),
    (Awake s) ∧
    (ctx < 4) ∧
    (Settled s at_) ∧
    ∃ e, ∃ f,
    (s.host.exp = some e) ∧
    ((s.ctx e.ctx).image = some f) ∧
    (e.started = true) ∧
    (s.bufsMay 0 (s.exportBytes e f).length e.bufs = true)) :=
  ⟨⟨host0, 0, 0, awake_of (by decide +kernel), by decide +kernel, settled_of (by decide +kernel), 0, 0, 0, 0, imgO, by decide +kernel, by decide +kernel, by decide +kernel, by decide +kernel⟩,
   ⟨{ host0 with ctxs := modAt (fun c => { c with refused := [(0, 1, 5)] }) 0 host0.ctxs }, 0, 0, awake_of (by decide +kernel), by decide +kernel, settled_of (by decide +kernel), 0, 1, imgO, by decide +kernel, by decide +kernel, by decide +kernel, by decide +kernel, by decide +kernel⟩,
   ⟨host0, 0, 0, awake_of (by decide +kernel), by decide +kernel, settled_of (by decide +kernel), 0, 0, 0, 1, imgO, by decide +kernel, by decide +kernel, by decide +kernel, by decide +kernel⟩,
   ⟨host0, 0, 1, awake_of (by decide +kernel), by decide +kernel, settled_of (by decide +kernel), by decide +kernel⟩,
   ⟨hrun, 0, 0, awake_of (by decide +kernel), by decide +kernel, settled_of (by decide +kernel), 3, 0, { eng := 0, q := 0, ctx := 0, kind := .ingest 3 0, src := 0x4000, dst := 0x1000, length := 12, tag := 4, offset := 3 }, by decide +kernel⟩,
   ⟨host0, 0, 0, awake_of (by decide +kernel), by decide +kernel, settled_of (by decide +kernel), 12, [(0x20000, 9000)], by decide +kernel⟩,
   ⟨{ hrun with
    host := { hrun.host with
    exp := some { ctx := 2, kind := 0, tag := 6, bufs := [(0x20000, 9000)] } } }, 0, 0, awake_of (by decide +kernel), by decide +kernel, settled_of (by decide +kernel), 0, [(0x20000, 9000)], imgO, by decide +kernel, by decide +kernel, by decide +kernel, by decide +kernel, by decide +kernel, by decide +kernel⟩,
   ⟨host0, 0, 0, awake_of (by decide +kernel), by decide +kernel, settled_of (by decide +kernel), 0, [(0x20000, 3), (0x30000, 4)], imgO, by decide +kernel, by decide +kernel, by decide +kernel, by decide +kernel, by decide +kernel, by decide +kernel, by decide +kernel⟩,
   ⟨host0, 0, 0, awake_of (by decide +kernel), by decide +kernel, settled_of (by decide +kernel), 0, [(0x20000, 9000)], imgO, by decide +kernel, by decide +kernel, by decide +kernel, by decide +kernel, by decide +kernel, by decide +kernel, by decide +kernel⟩,
   ⟨{ hrun with
    host := { hrun.host with
    exp := some { ctx := 2, kind := 0, tag := 6, bufs := [(0x20000, 9000)] } } }, 0, 0, awake_of (by decide +kernel), by decide +kernel, settled_of (by decide +kernel), { ctx := 2, kind := 0, tag := 6, bufs := [(0x20000, 9000)] }, imgO, by decide +kernel, by decide +kernel, by decide +kernel, by decide +kernel⟩,
   ⟨let s := { hrun with
    host := { hrun.host with
    exp := some { ctx := 2, kind := 0, tag := 6, bufs := [(0x20000, 9000)], started := true } } }; s, 0, 0, awake_of (by decide +kernel), by decide +kernel, settled_of (by decide +kernel), { ctx := 2, kind := 0, tag := 6, bufs := [(0x20000, 9000)], started := true }, imgO, by decide +kernel, by decide +kernel, by decide +kernel, by decide +kernel⟩,
   ⟨exph, 0, 0, awake_of (by decide +kernel), by decide +kernel, settled_of (by decide +kernel), { ctx := 2, kind := 0, tag := 6, bufs := [(H + 0x20000, 9000)], started := true }, imgO, by decide +kernel, by decide +kernel, by decide +kernel, by decide +kernel⟩⟩

theorem witness_TranslationsArePinnedAndAnswered :
    (
    ∃ (s : State), ∃ (at_ : Nat), ∃ (ctx : Nat),
    (Awake s) ∧
    (ctx < 4) ∧
    (Settled s at_) ∧
    let may := s.cmdAllowed ctx [.loaded, .running, .preempted]
    (may = false)) ∧ (
    ∃ (s : State), ∃ (at_ : Nat), ∃ (ctx : Nat), ∃ (addr : Nat),
    (Awake s) ∧
    (ctx < 4) ∧
    (Settled s at_) ∧
    let may := s.cmdAllowed ctx [.loaded, .running, .preempted]
    (may = true) ∧
    (inHost addr = false)) ∧ (
    ∃ (s : State), ∃ (at_ : Nat), ∃ (ctx : Nat), ∃ (addr : Nat),
    (Awake s) ∧
    (ctx < 4) ∧
    (Settled s at_) ∧
    let may := s.cmdAllowed ctx [.loaded, .running, .preempted]
    (may = true) ∧
    (inHost addr = true) ∧
    ((∀ p ∈ s.host.pins, p.done = true)) ∧
    (s.host.atc.length ≤ 2048)) ∧ (
    ∃ (s : State), ∃ (at_ : Nat), ∃ (ctx : Nat), ∃ (addr : Nat), ∃ (len : Nat),
    (Awake s) ∧
    (ctx < 4) ∧
    (Settled s at_) ∧
    ∃ fn,
    let hit := s.host.atc.filter (fun e => e.fn == fn && meet e.addr e.size addr len)
    let held := s.run.active && hit.any (fun e => s.job.ctx.any (fun c => e.pins.contains c))
    (held = true) ∧
    (s.job.preemptAt = none)) ∧ (
    ∃ (s : State), ∃ (at_ : Nat), ∃ (ctx : Nat), ∃ (addr : Nat), ∃ (len : Nat),
    (Awake s) ∧
    (ctx < 4) ∧
    (Settled s at_) ∧
    ∃ fn,
    let hit := s.host.atc.filter (fun e => e.fn == fn && meet e.addr e.size addr len)
    let held := s.run.active && hit.any (fun e => s.job.ctx.any (fun c => e.pins.contains c))
    (held = false)) ∧ (
    ∃ (s : State), ∃ (at_ : Nat), ∃ (ctx : Nat),
    (Awake s) ∧
    (ctx < 4) ∧
    (Settled s at_) ∧
    ∃ grp,
    (s.host.priGone.contains grp = true)) ∧ (
    ∃ (s : State), ∃ (at_ : Nat), ∃ (ctx : Nat),
    (Awake s) ∧
    (ctx < 4) ∧
    (Settled s at_) ∧
    ∃ grp, ∃ ok,
    (s.host.priGone.contains grp = false) ∧
    ∃ eng, ∃ q,
    (s.host.pri.find? (fun p => p.1 == grp) = some (grp, eng, q)) ∧
    (ok = true)) ∧ (
    ∃ (s : State), ∃ (at_ : Nat), ∃ (ctx : Nat),
    (Awake s) ∧
    (ctx < 4) ∧
    (Settled s at_) ∧
    ∃ grp, ∃ ok,
    (s.host.priGone.contains grp = false) ∧
    ∃ eng, ∃ q,
    (s.host.pri.find? (fun p => p.1 == grp) = some (grp, eng, q)) ∧
    (ok = false) ∧
    ∃ d,
    (s.host.descs.find? (fun d => d.eng == eng && d.q == q && d.status == 2 && d.prg == grp) = some d) ∧
    (eng < 16) ∧
    (q < 4)) ∧ (
    ∃ (s : State), ∃ (at_ : Nat), ∃ (ctx : Nat),
    (Awake s) ∧
    (ctx < 4) ∧
    (Settled s at_) ∧
    ∃ eng, ∃ q,
    (eng < 16) ∧
    (q < 4) ∧
    (s.host.pri.length < 512)) :=
  ⟨⟨dm [d1, d3, d6, d7] (ats hrun), 0, 1, awake_of (by decide +kernel), by decide +kernel, settled_of (by decide +kernel), by decide +kernel⟩,
   ⟨dm [d1, d3, d6, d7] (ats hrun), 0, 0, 0, awake_of (by decide +kernel), by decide +kernel, settled_of (by decide +kernel), by decide +kernel, by decide +kernel⟩,
   ⟨dm [d1, d3, d6, d7] (ats hrun), 0, 0, H+4096, awake_of (by decide +kernel), by decide +kernel, settled_of (by decide +kernel), by decide +kernel, by decide +kernel, by decide +kernel, by decide +kernel⟩,
   ⟨dm [d1, d3, d6, d7] (ats hrun), 0, 0, 0, H+4096, awake_of (by decide +kernel), by decide +kernel, settled_of (by decide +kernel), 1, by decide +kernel, by decide +kernel⟩,
   ⟨dm [d1, d3, d6, d7] (ats hrun), 0, 0, 0, 0, awake_of (by decide +kernel), by decide +kernel, settled_of (by decide +kernel), 0, by decide +kernel⟩,
   ⟨dm [d1, d3, d6, d7] (ats hrun), 0, 0, awake_of (by decide +kernel), by decide +kernel, settled_of (by decide +kernel), 8, by decide +kernel⟩,
   ⟨dm [d1, d3, d6, d7] (ats hrun), 0, 0, awake_of (by decide +kernel), by decide +kernel, settled_of (by decide +kernel), 3, true, by decide +kernel, 1, 2, by decide +kernel, by decide +kernel⟩,
   ⟨dm [d1, d3, d6, d7] (ats hrun), 0, 0, awake_of (by decide +kernel), by decide +kernel, settled_of (by decide +kernel), 3, false, by decide +kernel, 1, 2, by decide +kernel, by decide +kernel, d7, by decide +kernel, by decide +kernel, by decide +kernel⟩,
   ⟨dm [d1, d3, d6, d7] (ats hrun), 0, 0, awake_of (by decide +kernel), by decide +kernel, settled_of (by decide +kernel), 0, 0, by decide +kernel, by decide +kernel, by decide +kernel⟩⟩

theorem witness_TransfersMoveTheirBytes :
    (
    ∃ (s : State), ∃ (at_ : Nat),
    (Awake s) ∧
    (Settled s at_) ∧
    ∃ eng, ∃ d,
    (s.power.reload = none) ∧
    (dmaNext s eng = some d) ∧
    ((inHost d.src || inHost d.dst) = true) ∧
    (s.host.pri.length < 512) ∧
    (d.eng < 16) ∧
    (d.q < 4) ∧
    (d.offset < 2 ^ DMA_PARK_OFFSET.wd)) ∧ (
    ∃ (s : State), ∃ (at_ : Nat),
    (Awake s) ∧
    (Settled s at_) ∧
    ∃ eng, ∃ d,
    (s.power.reload = none) ∧
    (dmaNext s eng = some d) ∧
    ((s.unitLost d.src || s.unitLost d.dst) = true)) ∧ (
    ∃ (s : State), ∃ (at_ : Nat),
    (Awake s) ∧
    (Settled s at_) ∧
    ∃ eng, ∃ d,
    (s.power.reload = none) ∧
    (dmaNext s eng = some d) ∧
    let n := pieceLen d
    ((s.unitLost d.src || s.unitLost d.dst) = false) ∧
    ∃ x,
    (s.pieceFault d n = some x)) ∧ (
    ∃ (s : State), ∃ (at_ : Nat),
    (Awake s) ∧
    (Settled s at_) ∧
    ∃ eng, ∃ d,
    (s.power.reload = none) ∧
    (dmaNext s eng = some d) ∧
    let n := pieceLen d
    ((s.unitLost d.src || s.unitLost d.dst) = false) ∧
    (s.pieceFault d n = none) ∧
    (((s.pieceReads d n).any (fun r => s.poisonIn r.1 r.2) || s.pieceBarred d n) = true)) ∧ (
    ∃ (s : State), ∃ (at_ : Nat),
    (Awake s) ∧
    (Settled s at_) ∧
    ∃ eng, ∃ d,
    (s.power.reload = none) ∧
    (dmaNext s eng = some d) ∧
    let n := pieceLen d
    ((s.unitLost d.src || s.unitLost d.dst) = false) ∧
    (s.pieceFault d n = none) ∧
    (movesMem d.kind = true) ∧
    ((s.pieceReads d n).any (fun r => s.poisonIn r.1 r.2) = false) ∧
    (s.pieceBarred d n = false)) ∧ (
    ∃ (s : State), ∃ (at_ : Nat),
    (Awake s) ∧
    (Settled s at_) ∧
    ∃ eng,
    (s.power.reload = none) ∧
    (dmaNext s eng = none)) ∧ (
    ∃ (s : State), ∃ (at_ : Nat),
    (Awake s) ∧
    (Settled s at_) ∧
    ∃ f, ∃ p, ∃ e, ∃ r,
    (InTick f p s) ∧
    (s.power.reload = none) ∧
    (slowEnt f e.tensor = some e) ∧
    (s.resid e.tensor = some r) ∧
    (r.resident = false) ∧
    (r.prefetching = false) ∧
    (s.pairHolder f e = none)) ∧ (
    ∃ (s : State), ∃ (at_ : Nat),
    (Awake s) ∧
    (Settled s at_) ∧
    ∃ f, ∃ p, ∃ e, ∃ r,
    (InTick f p s) ∧
    (s.power.reload = none) ∧
    (slowEnt f e.tensor = some e) ∧
    (s.resid e.tensor = some r) ∧
    (r.resident = true) ∧
    (r.dirty = true) ∧
    (r.writing = false)) ∧ (
    ∃ (s : State), ∃ (at_ : Nat),
    (Awake s) ∧
    (Settled s at_) ∧
    ∃ x,
    (x < 4)) ∧ (
    ∃ (s : State), ∃ (at_ : Nat),
    (Awake s) ∧
    (Settled s at_) ∧
    ∃ l,
    (l < 16) ∧
    (s.job.ctx ≠ none) ∧
    (getBits (s.fget HULL_SLOW_LEND_BORROWING) l 1 = 1)) ∧ (
    ∃ (s : State), ∃ (at_ : Nat),
    (Awake s) ∧
    (Settled s at_) ∧
    ∃ l,
    (l < 16) ∧
    (s.job.ctx = none ∨ getBits (s.fget HULL_SLOW_LEND_BORROWING) l 1 ≠ 1)) ∧ (
    ∃ (s : State), ∃ (at_ : Nat),
    (Awake s) ∧
    (Settled s at_) ∧
    ∃ off, ∃ (bytes : List Byte),
    let i := off / 0x400000000
    let a := s.hdmBase i + off % 0x400000000
    (4 ≤ s.fget HOST_LINK_MODE) ∧
    (i < 4) ∧
    (s.power.hdmAbsent = false) ∧
    (s.fbit (HOST_HDM_EN.ix i) = true) ∧
    (s.hdmBaseOk i = true) ∧
    (s.bench.extest = false) ∧
    (s.elasticMay a bytes.length = true)) ∧ (
    ∃ (s : State), ∃ (at_ : Nat),
    (Awake s) ∧
    (Settled s at_) ∧
    ∃ off, ∃ (bytes : List Byte),
    let i := off / 0x400000000
    let a := s.hdmBase i + off % 0x400000000
    (4 ≤ s.fget HOST_LINK_MODE) ∧
    (i < 4) ∧
    (s.power.hdmAbsent = false) ∧
    (s.fbit (HOST_HDM_EN.ix i) = true) ∧
    (s.hdmBaseOk i = true) ∧
    (s.bench.extest = false) ∧
    (s.elasticMay a bytes.length = false)) ∧ (
    ∃ (s : State), ∃ (at_ : Nat),
    (Awake s) ∧
    (Settled s at_) ∧
    ∃ off,
    let i := off / 0x400000000
    ((s.fget HOST_LINK_MODE < 4 ∨ 4 ≤ i ∨ s.power.hdmAbsent = true ∨ s.fbit (HOST_HDM_EN.ix i) = false ∨ s.hdmBaseOk i = false))) ∧ (
    ∃ (s : State), ∃ (at_ : Nat),
    (Awake s) ∧
    (Settled s at_) ∧
    (4 ≤ s.fget HOST_LINK_MODE) ∧
    (s.bench.extest = false)) ∧ (
    ∃ (s : State), ∃ (at_ : Nat),
    (Awake s) ∧
    (Settled s at_) ∧
    (s.fget HOST_LINK_MODE < 4)) :=
  ⟨⟨dm [d1, d3, d6, d7] (ats hrun), 0, awake_of (by decide +kernel), settled_of (by decide +kernel), 0, d1, by decide +kernel, by decide +kernel, by decide +kernel, by decide +kernel, by decide +kernel, by decide +kernel, by decide +kernel⟩,
   ⟨dm [d2, d3, d7] ((ats hrun).fset (HULL_SLOW_EXP_UP.ix 0) 0), 0, awake_of (by decide +kernel), settled_of (by decide +kernel), 8, d3, by decide +kernel, by decide +kernel, by decide +kernel⟩,
   ⟨dm [d1, d3, d6, d7] (ats hrun), 0, awake_of (by decide +kernel), settled_of (by decide +kernel), 3, d6, by decide +kernel, by decide +kernel, by decide +kernel, (0x900000000, 0), by simp only [State.pieceFault, State.xlate, Laws.tableWalk_eq]; decide +kernel⟩,
   ⟨poid, 0, awake_of (by decide +kernel), settled_of (by decide +kernel), 0, d2, by decide +kernel, by decide +kernel, by decide +kernel, by simp only [State.pieceFault, State.xlate, Laws.tableWalk_eq]; decide +kernel, by decide +kernel⟩,
   ⟨dm [d1, d3, d6, d7] (ats hrun), 0, awake_of (by decide +kernel), settled_of (by decide +kernel), 0, d1, by decide +kernel, by decide +kernel, by decide +kernel, by simp only [State.pieceFault, State.xlate, Laws.tableWalk_eq]; decide +kernel, by decide +kernel, by decide +kernel, by decide +kernel⟩,
   ⟨dm [d1, d3, d6, d7] (ats hrun), 0, awake_of (by decide +kernel), settled_of (by decide +kernel), 1, by decide +kernel, by decide +kernel⟩,
   ⟨dm [d1, d3, d6, d7] (ats hrun), 0, awake_of (by decide +kernel), settled_of (by decide +kernel), imgD, stepO, tens imgD 5, ⟨5, false, false, false, false⟩, inTick_of (by decide +kernel), by decide +kernel, by decide +kernel, by decide +kernel, by decide +kernel, by decide +kernel, by decide +kernel⟩,
   ⟨dm [d1, d3, d6, d7] (ats hrun), 0, awake_of (by decide +kernel), settled_of (by decide +kernel), imgD, stepO, tens imgD 6, ⟨6, true, true, false, false⟩, inTick_of (by decide +kernel), by decide +kernel, by decide +kernel, by decide +kernel, by decide +kernel, by decide +kernel, by decide +kernel⟩,
   ⟨dm [d1, d3, d6, d7] (ats hrun), 0, awake_of (by decide +kernel), settled_of (by decide +kernel), 0, by decide +kernel⟩,
   ⟨dm [d1, d3, d6, d7] (ats hrun), 0, awake_of (by decide +kernel), settled_of (by decide +kernel), 0, by decide +kernel, by decide +kernel, by decide +kernel⟩,
   ⟨dm [d1, d3, d6, d7] (ats hrun), 0, awake_of (by decide +kernel), settled_of (by decide +kernel), 1, by decide +kernel, by decide +kernel⟩,
   ⟨(dm [d1] (ats hrun)).fset (HOST_HDM_BASE.ix 0) 0, 0, awake_of (by decide +kernel), settled_of (by decide +kernel), 4096, [1,2,3], by decide +kernel, by decide +kernel, by decide +kernel, by decide +kernel, by decide +kernel, by decide +kernel, by decide +kernel⟩,
   ⟨dm [d1, d3, d6, d7] (ats hrun), 0, awake_of (by decide +kernel), settled_of (by decide +kernel), 0, [1,2,3], by decide +kernel, by decide +kernel, by decide +kernel, by decide +kernel, by decide +kernel, by decide +kernel, by decide +kernel⟩,
   ⟨State.reset, 0, awake_of (by decide +kernel), settled_of (by decide +kernel), 0, by decide +kernel⟩,
   ⟨dm [d1, d3, d6, d7] (ats hrun), 0, awake_of (by decide +kernel), settled_of (by decide +kernel), by decide +kernel, by decide +kernel⟩,
   ⟨State.reset, 0, awake_of (by decide +kernel), settled_of (by decide +kernel), by decide +kernel⟩⟩

theorem witness_QueuesMoveWholePackets :
    (
    ∃ (s : State), ∃ (at_ : Nat),
    (Awake s) ∧
    (Settled s at_) ∧
    ∃ off, ∃ size,
    (s.bench.extest = false) ∧
    (0x100000 ≤ off) ∧
    (off < 0x110000) ∧
    let q := s.fifo 0
    (size = 64) ∧
    (off % 64 = 0) ∧
    (q.items.length + 2 ≤ 1024)) ∧ (
    ∃ (s : State), ∃ (at_ : Nat),
    (Awake s) ∧
    (Settled s at_) ∧
    ∃ off, ∃ size,
    (s.bench.extest = false) ∧
    (0x100000 ≤ off) ∧
    (off < 0x110000) ∧
    let q := s.fifo 0
    (size = 64) ∧
    (off % 64 = 0) ∧
    (1024 < q.items.length + 2)) ∧ (
    ∃ (s : State), ∃ (at_ : Nat),
    (Awake s) ∧
    (Settled s at_) ∧
    ∃ off, ∃ size,
    (s.bench.extest = false) ∧
    (0x100000 ≤ off) ∧
    (off < 0x110000) ∧
    (size ≠ 64 ∨ off % 64 ≠ 0)) ∧ (
    ∃ (s : State), ∃ (at_ : Nat), ∃ (join : JobJoin),
    (Awake s) ∧
    (Settled s at_) ∧
    ∃ ws, ∃ rest,
    (splitPacket cmdEnd (s.fifo 0).items = some (ws, rest)) ∧
    (s.inRun = true) ∧
    (s.power.reload = none) ∧
    (isCmdGap (ws.getLastD 0) = false) ∧
    (packetOk ws = true) ∧
    ∃ c,
    (packetCommand at_ ws join = some c)) ∧ (
    ∃ (s : State), ∃ (at_ : Nat),
    (Awake s) ∧
    (Settled s at_) ∧
    ∃ ws, ∃ rest,
    (splitPacket cmdEnd (s.fifo 0).items = some (ws, rest)) ∧
    (s.inRun = true) ∧
    (s.power.reload = none) ∧
    let w := ws.headD 0
    (isCmdGap (ws.getLastD 0) = false) ∧
    ((packetOk ws = false ∨ bvBits w 0 8 = 0 ∨ 10 < bvBits w 0 8))) ∧ (
    ∃ (s : State), ∃ (at_ : Nat),
    (Awake s) ∧
    (Settled s at_) ∧
    ∃ ws, ∃ rest,
    (splitPacket cmdEnd (s.fifo 0).items = some (ws, rest)) ∧
    (s.inRun = true) ∧
    (s.power.reload = none) ∧
    ∃ g,
    (ws = [g]) ∧
    (isCmdGap g = true)) ∧ (
    ∃ (s : State), ∃ (at_ : Nat),
    (Awake s) ∧
    (Settled s at_) ∧
    ∃ f, ∃ typ, ∃ (payload : List Nat),
    (1 ≤ f) ∧
    (f ≤ 3) ∧
    (payload ≠ []) ∧
    (payload.length ≤ 8) ∧
    ((f = 1 → typ % 256 = 10 → s.fbit EVQ_EVMASK_TICK = true)) ∧
    let q := s.fifo f
    (q.items.length + payload.length + 1 ≤ fifoEntries f)) ∧ (
    ∃ (s : State), ∃ (at_ : Nat),
    (Awake s) ∧
    (Settled s at_) ∧
    ∃ f, ∃ typ, ∃ (payload : List Nat),
    (1 ≤ f) ∧
    (f ≤ 3) ∧
    (payload ≠ []) ∧
    (payload.length ≤ 8) ∧
    ((f = 1 → typ % 256 = 10 → s.fbit EVQ_EVMASK_TICK = true)) ∧
    let q := s.fifo f
    (fifoEntries f < q.items.length + payload.length + 1)) ∧ (
    ∃ (s : State), ∃ (at_ : Nat),
    (Awake s) ∧
    (Settled s at_) ∧
    ∃ ws, ∃ rest,
    (splitPacket cmdEnd (s.fifo 3).items = some (ws, rest))) ∧ (
    ∃ (s : State), ∃ (at_ : Nat),
    (Awake s) ∧
    (Settled s at_) ∧
    ∃ f, ∃ c,
    (f < 4) ∧
    ((s.fifo f).waitingSince = some c) ∧
    (s.fget (EVQ_CFG_IDLE.ix f) ≠ 0) ∧
    (Settled s (c + 2000 * s.fget (EVQ_CFG_IDLE.ix f)))) ∧ (
    ∃ (s : State), ∃ (at_ : Nat),
    (Awake s) ∧
    (Settled s at_) ∧
    ∃ f,
    (f < 4)) ∧ (
    ∃ (s : State), ∃ (at_ : Nat),
    (Awake s) ∧
    (Settled s at_) ∧
    ∃ f, ∃ ws, ∃ rest,
    (f = 1 ∨ f = 2) ∧
    (s.power.reload = none) ∧
    (s.ringOn f = true) ∧
    (splitPacket cmdEnd (s.fifo f).items = some (ws, rest)) ∧
    (ws.length ≤ s.ringRoom f)) ∧ (
    ∃ (s : State), ∃ (at_ : Nat),
    (Awake s) ∧
    (Settled s at_) ∧
    ∃ f, ∃ ws, ∃ rest,
    (f = 1 ∨ f = 2) ∧
    (s.power.reload = none) ∧
    (s.ringOn f = true) ∧
    (splitPacket cmdEnd (s.fifo f).items = some (ws, rest)) ∧
    (s.ringRoom f < ws.length)) ∧ (
    ∃ (s : State), ∃ (at_ : Nat),
    (Awake s) ∧
    (Settled s at_) ∧
    ∃ f, ∃ c,
    (f = 1 ∨ f = 2) ∧
    ((s.ring f).pendingEntry = some c) ∧
    (Settled s (c + 100000))) ∧ (
    ∃ (s : State), ∃ (at_ : Nat),
    (Awake s) ∧
    (Settled s at_) ∧
    (s.fbit HULL_MBOX_BUSY = false)) ∧ (
    ∃ (s : State), ∃ (at_ : Nat),
    (Awake s) ∧
    (Settled s at_) ∧
    (s.fbit HULL_MBOX_BUSY = true)) ∧ (
    ∃ (s : State), ∃ (at_ : Nat),
    (Awake s) ∧
    (Settled s at_) ∧
    ∃ tr, ∃ addr,
    (tr < 2) ∧
    (addr ≠ s.sideAddr tr)) ∧ (
    ∃ (s : State), ∃ (at_ : Nat),
    (Awake s) ∧
    (Settled s at_) ∧
    ∃ tr, ∃ addr, ∃ v,
    (tr < 3) ∧
    ((tr = 2 ∨ addr = s.sideAddr tr)) ∧
    (s.bench.extest = false) ∧
    ∃ id,
    (assocGet s.power.sensors id = some v)) ∧ (
    ∃ (s : State), ∃ (at_ : Nat),
    (Awake s) ∧
    (Settled s at_) ∧
    ∃ tr, ∃ addr,
    (tr < 3) ∧
    ((tr = 2 ∨ addr = s.sideAddr tr)) ∧
    (s.bench.extest = false)) :=
  ⟨⟨pk [cw 1 1 0 1 7 0x1000, 0] host0, 1048576, awake_of (by decide +kernel), settled_of (by decide +kernel), 1048576, 64, by decide +kernel, by decide +kernel, by decide +kernel, by decide +kernel, by decide +kernel, by decide +kernel⟩,
   ⟨let s := ringR (full (noisy hrun)); { s with fifos := s.fifos.map (fun q => { q with items := 256 :: q.items.drop 1, waitingSince := some 3 }) }, 1048576, awake_of (by decide +kernel), settled_of (by decide +kernel), 1048576, 64, by decide +kernel, by decide +kernel, by decide +kernel, by decide +kernel, by decide +kernel, by decide +kernel⟩,
   ⟨pk [cw 1 1 0 1 7 0x1000, 0] host0, 1048576, awake_of (by decide +kernel), settled_of (by decide +kernel), 1048576, 1048576, by decide +kernel, by decide +kernel, by decide +kernel, by decide +kernel⟩,
   ⟨pk [cw 2 1 0 0 7 0x1000, cw 2 1 0 0 3 0] host0, 3, ⟨4000, 9⟩, awake_of (by decide +kernel), settled_of (by decide +kernel), [cw 2 1 0 0 7 0x1000], [cw 2 1 0 0 3 0], by decide +kernel, by decide +kernel, by decide +kernel, by decide +kernel, by decide +kernel, .unloadImage 3 0 7, by decide +kernel⟩,
   ⟨pk [cw 3 0 0 0 7 0, cw 4 1 1 0 0 0] hrun, 0, awake_of (by decide +kernel), settled_of (by decide +kernel), [cw 3 0 0 0 7 0, cw 4 1 1 0 0 0], [], by decide +kernel, by decide +kernel, by decide +kernel, by decide +kernel, by decide +kernel⟩,
   ⟨pk [cmdGap 6, cw 2 1 0 0 3 0] (noisy hrun), 0, awake_of (by decide +kernel), settled_of (by decide +kernel), [cmdGap 6], [cw 2 1 0 0 3 0], by decide +kernel, by decide +kernel, by decide +kernel, cmdGap 6, by decide +kernel, by decide +kernel⟩,
   ⟨pk [cw 1 1 0 1 7 0x1000, 0] host0, 0, awake_of (by decide +kernel), settled_of (by decide +kernel), 1, 0, [5,8,17], by decide +kernel, by decide +kernel, by decide +kernel, by decide +kernel, by decide +kernel, by decide +kernel⟩,
   ⟨let s := ringR (full (noisy hrun)); { s with fifos := s.fifos.map (fun q => { q with items := 256 :: q.items.drop 1, waitingSince := some 3 }) }, 0, awake_of (by decide +kernel), settled_of (by decide +kernel), 1, 0, [5,8,17], by decide +kernel, by decide +kernel, by decide +kernel, by decide +kernel, by decide +kernel, by decide +kernel⟩,
   ⟨pk [cw 3 1 0 0 7 0] host0, 0, awake_of (by decide +kernel), settled_of (by decide +kernel), ev4.take 2, ev4.drop 2, by decide +kernel⟩,
   ⟨pk [cw 1 1 0 1 7 0x1000, 0] host0, 0, awake_of (by decide +kernel), settled_of (by decide +kernel), 0, 3, by decide +kernel, by decide +kernel, by decide +kernel, settled_of (by decide +kernel)⟩,
   ⟨pk [cw 3 1 0 0 7 0] host0, 0, awake_of (by decide +kernel), settled_of (by decide +kernel), 0, by decide +kernel⟩,
   ⟨(pk [cw 3 1 0 0 7 0] host0).withPower (fun p => { p with sensors := [(0x10, 5)] }), 0, awake_of (by decide +kernel), settled_of (by decide +kernel), 1, ev4.take 2, ev4.drop 2, by decide +kernel, by decide +kernel, by decide +kernel, by decide +kernel, by decide +kernel⟩,
   ⟨let s := (pk [] hrun).fset (EVQ_HEAD_HEAD.ix 1) 64; ({ s with bench := { s.bench with extest := true } }).fset HULL_MBOX_BUSY 1, 0, awake_of (by decide +kernel), settled_of (by decide +kernel), 1, ev4.take 2, ev4.drop 2, by decide +kernel, by decide +kernel, by decide +kernel, by decide +kernel, by decide +kernel⟩,
   ⟨pk [cw 1 1 0 1 7 0x1000, 0] host0, 0, awake_of (by decide +kernel), settled_of (by decide +kernel), 1, 3, by decide +kernel, by decide +kernel, settled_of (by decide +kernel)⟩,
   ⟨pk [cw 3 1 0 0 7 0] host0, 0, awake_of (by decide +kernel), settled_of (by decide +kernel), by decide +kernel⟩,
   ⟨let s := (pk [] hrun).fset (EVQ_HEAD_HEAD.ix 1) 64; ({ s with bench := { s.bench with extest := true } }).fset HULL_MBOX_BUSY 1, 0, awake_of (by decide +kernel), settled_of (by decide +kernel), by decide +kernel⟩,
   ⟨pk [cw 3 1 0 0 7 0] host0, 0, awake_of (by decide +kernel), settled_of (by decide +kernel), 0, 0, by decide +kernel, by decide +kernel⟩,
   ⟨(pk [cw 3 1 0 0 7 0] host0).withPower (fun p => { p with sensors := [(0x10, 5)] }), 0, awake_of (by decide +kernel), settled_of (by decide +kernel), 0, 48, 5, by decide +kernel, by decide +kernel, by decide +kernel, 16, by decide +kernel⟩,
   ⟨pk [cw 3 1 0 0 7 0] host0, 0, awake_of (by decide +kernel), settled_of (by decide +kernel), 0, 48, by decide +kernel, by decide +kernel, by decide +kernel⟩⟩

theorem witness_HoardOperationsAndHarvests :
    (
    ∃ (s : State),
    (Awake s) ∧
    let ops := [(1, Instr.harvest), (2, .release), (3, .readRecord true), (4, .authenticate)]
    (s.fbit HRD_CMD_BUSY = true) ∧
    ∃ q ∈ ops,
    True) ∧ (
    ∃ (s : State),
    (Awake s) ∧
    let ops := [(1, Instr.harvest), (2, .release), (3, .readRecord true), (4, .authenticate)]
    (s.fbit HRD_CMD_BUSY = false) ∧
    (s.inRun = false) ∧
    ∃ q ∈ ops,
    True) ∧ (
    ∃ (s : State),
    (Awake s) ∧
    (s.fbit HRD_CMD_BUSY = false) ∧
    (s.inRun = true) ∧
    (s.newestRec = none)) ∧ (
    ∃ (s : State),
    (Awake s) ∧
    (s.fbit HRD_CMD_BUSY = false) ∧
    (s.inRun = true) ∧
    ∃ r, ∃ m,
    (s.newestRec = some (r, m))) ∧ (
    ∃ (s : State),
    (Awake s) ∧
    (s.fbit HRD_CMD_BUSY = false) ∧
    (s.inRun = true) ∧
    (s.power.cart = none ∨ s.fbit HRD_STATE_RELEASED = true)) ∧ (
    ∃ (s : State),
    (Awake s) ∧
    (s.fbit HRD_CMD_BUSY = false) ∧
    (s.inRun = true) ∧
    ∃ c,
    (s.power.cart = some c) ∧
    (s.fbit HRD_STATE_RELEASED = false)) ∧ (
    ∃ (s : State),
    (Awake s) ∧
    ∃ f, ∃ p, ∃ c,
    (InTick f p s) ∧
    (s.now = s.edgeAt) ∧
    (s.fget TICK_PLAN_CUR_KIND ≠ 0) ∧
    (s.fbit HRD_STATE_HARVEST_DUE = true) ∧
    (s.fbit HRD_HARVEST_ACTIVE = false) ∧
    (s.cartUsable = true) ∧
    (s.fbit HRD_STATE_WORN = false) ∧
    (s.power.cart = some c)) ∧ (
    ∃ (s : State),
    (Awake s) ∧
    ∃ at_, ∃ f, ∃ p, ∃ c,
    (InTick f p s) ∧
    (Settled s at_) ∧
    (s.fbit HRD_HARVEST_ACTIVE = true) ∧
    (s.power.cart = some c)) ∧ (
    ∃ (s : State),
    (Awake s) ∧
    (s.fbit HRD_HARVEST_ACTIVE = true)) ∧ (
    ∃ (s : State),
    (Awake s) ∧
    (s.fbit HRD_HARVEST_ACTIVE = false)) ∧ (
    ∃ (s : State),
    (Awake s) ∧
    (s.power.cart = none)) ∧ (
    ∃ (s : State),
    (Awake s) ∧
    (s.power.cart.isSome = true)) ∧ (
    ∃ (s : State),
    (Awake s) ∧
    ∃ k, ∃ b1,
    (2 ≤ k) ∧
    (k < 5) ∧
    ((k = 3 → s.hub.laneDirty = true ∧ s.noStepNow = true)) ∧
    (s.cartUsable = true) ∧
    (b1 = false)) ∧ (
    ∃ (s : State),
    (Awake s) ∧
    ∃ k, ∃ b1, ∃ b2,
    (2 ≤ k) ∧
    (k < 5) ∧
    ((k = 3 → s.hub.laneDirty = true ∧ s.noStepNow = true)) ∧
    (s.cartUsable = false ∨ b1 = true) ∧
    (b2 = false)) ∧ (
    ∃ (s : State),
    (Awake s) ∧
    ∃ k, ∃ b1, ∃ b2,
    (2 ≤ k) ∧
    (k < 5) ∧
    ((k = 3 → s.hub.laneDirty = true ∧ s.noStepNow = true)) ∧
    (s.cartUsable = false ∨ b1 = true) ∧
    (b2 = true)) :=
  ⟨⟨(crt cart1 host0).fset HRD_CMD_BUSY 1, awake_of (by decide +kernel), by decide +kernel, _, (.head _), trivial⟩,
   ⟨low 2 none (crt cart1 State.reset), awake_of (by decide +kernel), by decide +kernel, by decide +kernel, _, (.head _), trivial⟩,
   ⟨host0, awake_of (by decide +kernel), by decide +kernel, by decide +kernel, by decide +kernel⟩,
   ⟨hv (crt cart1 hrun), awake_of (by decide +kernel), by decide +kernel, by decide +kernel, rec1, 0, by decide +kernel⟩,
   ⟨host0, awake_of (by decide +kernel), by decide +kernel, by decide +kernel, by decide +kernel⟩,
   ⟨hv (crt cart1 hrun), awake_of (by decide +kernel), by decide +kernel, by decide +kernel, cart1, by decide +kernel, by decide +kernel⟩,
   ⟨hv (crt cart1 hrun), awake_of (by decide +kernel), imgO, svc, cart1, inTick_of (by decide +kernel), by decide +kernel, by decide +kernel, by decide +kernel, by decide +kernel, by decide +kernel, by decide +kernel, by decide +kernel⟩,
   ⟨ac (crt cart1 hrun), awake_of (by decide +kernel), 0, imgO, stepO, cart1, inTick_of (by decide +kernel), settled_of (by decide +kernel), by decide +kernel, by decide +kernel⟩,
   ⟨ac (crt cart1 hrun), awake_of (by decide +kernel), by decide +kernel⟩,
   ⟨hv (crt cart1 hrun), awake_of (by decide +kernel), by decide +kernel⟩,
   ⟨host0, awake_of (by decide +kernel), by decide +kernel⟩,
   ⟨hv (crt cart1 hrun), awake_of (by decide +kernel), by decide +kernel⟩,
   ⟨hv (crt cart1 hrun), awake_of (by decide +kernel), 2, false, by decide +kernel, by decide +kernel, by decide +kernel, by decide +kernel, by decide +kernel⟩,
   ⟨hv (crt cart1 hrun), awake_of (by decide +kernel), 2, true, false, by decide +kernel, by decide +kernel, by decide +kernel, by decide +kernel, by decide +kernel⟩,
   ⟨hv (crt cart1 hrun), awake_of (by decide +kernel), 2, true, true, by decide +kernel, by decide +kernel, by decide +kernel, by decide +kernel, by decide +kernel⟩⟩

theorem witness_BenchAndTapKeepTheirLocks :
    (
    ∃ (s : State), ∃ (arg : Word64), ∃ (o : Outer),
    (Awake s) ∧
    let ops := [(1, Instr.marginHbm arg), (2, .marginLink arg), (3, .laneReturnHbm arg o), (4, .laneReturnLink arg o),
        (5, .ppr arg), (6, .scanEnter arg), (7, .enroll), (8, .fieldClose o)]
    ∃ q ∈ ops,
    (s.fbit BENCH_CMD_BUSY = true)) ∧ (
    ∃ (s : State), ∃ (arg : Word64), ∃ (o : Outer),
    (Awake s) ∧
    let ops := [(1, Instr.marginHbm arg), (2, .marginLink arg), (3, .laneReturnHbm arg o), (4, .laneReturnLink arg o),
        (5, .ppr arg), (6, .scanEnter arg), (7, .enroll), (8, .fieldClose o)]
    ∃ q ∈ ops,
    (s.fbit BENCH_CMD_BUSY = false) ∧
    (s.closed = true)) ∧ (
    ∃ (s : State), ∃ (arg : Word64),
    (Awake s) ∧
    let a := arg.toNat
    let open_ := s.fbit BENCH_CMD_BUSY = false ∧ s.closed = false
    (open_) ∧
    (getBits a 5 2 = 3)) ∧ (
    ∃ (s : State), ∃ (arg : Word64),
    (Awake s) ∧
    let a := arg.toNat
    let open_ := s.fbit BENCH_CMD_BUSY = false ∧ s.closed = false
    (open_) ∧
    (getBits a 5 2 ≠ 3)) ∧ (
    ∃ (s : State), ∃ (arg : Word64), ∃ (o : Outer),
    (Awake s) ∧
    let open_ := s.fbit BENCH_CMD_BUSY = false ∧ s.closed = false
    (open_) ∧
    (s.benchFree = false) ∧
    ∃ q ∈ [Instr.laneReturnHbm arg o, .laneReturnLink arg o, .fieldClose o],
    True) ∧ (
    ∃ (s : State), ∃ (arg : Word64),
    (Awake s) ∧
    let a := arg.toNat
    let open_ := s.fbit BENCH_CMD_BUSY = false ∧ s.closed = false
    (open_) ∧
    (s.benchFree = true) ∧
    (s.hub.laneBad.contains (argHbm a) = false)) ∧ (
    ∃ (s : State), ∃ (arg : Word64),
    (Awake s) ∧
    let a := arg.toNat
    let open_ := s.fbit BENCH_CMD_BUSY = false ∧ s.closed = false
    (open_) ∧
    (s.benchFree = true) ∧
    (s.hub.laneBad.contains (argHbm a) = true)) ∧ (
    ∃ (s : State), ∃ (arg : Word64),
    (Awake s) ∧
    let a := arg.toNat
    let open_ := s.fbit BENCH_CMD_BUSY = false ∧ s.closed = false
    (open_) ∧
    (s.benchFree = true) ∧
    ((s.link (getBits a 0 4)).laneBad.contains (getBits a 4 1, getBits a 5 2) = false)) ∧ (
    ∃ (s : State), ∃ (arg : Word64),
    (Awake s) ∧
    let a := arg.toNat
    let open_ := s.fbit BENCH_CMD_BUSY = false ∧ s.closed = false
    (open_) ∧
    (s.benchFree = true) ∧
    ((s.link (getBits a 0 4)).laneBad.contains (getBits a 4 1, getBits a 5 2) = true)) ∧ (
    ∃ (s : State),
    (Awake s) ∧
    let open_ := s.fbit BENCH_CMD_BUSY = false ∧ s.closed = false
    (open_) ∧
    (s.benchFree = true) ∧
    (s.fbit FUSE_STS_OWNER_ENROLLED = false)) ∧ (
    ∃ (s : State), ∃ (o : Outer),
    (Awake s) ∧
    let open_ := s.fbit BENCH_CMD_BUSY = false ∧ s.closed = false
    (open_) ∧
    (s.benchFree = true) ∧
    (s.fbit FUSE_STS_OWNER_ENROLLED = true) ∧
    (o.sigOk = false)) ∧ (
    ∃ (s : State), ∃ (o : Outer),
    (Awake s) ∧
    let open_ := s.fbit BENCH_CMD_BUSY = false ∧ s.closed = false
    (open_) ∧
    (s.benchFree = true) ∧
    (s.fbit FUSE_STS_OWNER_ENROLLED = true) ∧
    (o.sigOk = true)) ∧ (
    ∃ (s : State), ∃ (arg : Word64),
    (Awake s) ∧
    let open_ := s.fbit BENCH_CMD_BUSY = false ∧ s.closed = false
    (open_) ∧
    (s.allEmpty = false) ∧
    ∃ q ∈ [Instr.ppr arg, .scanEnter arg],
    True) ∧ (
    ∃ (s : State), ∃ (arg : Word64),
    (Awake s) ∧
    let a := arg.toNat
    let open_ := s.fbit BENCH_CMD_BUSY = false ∧ s.closed = false
    (open_) ∧
    (s.allEmpty = true) ∧
    (Config.pprPerBank ≤ s.pprOf (argBank a))) ∧ (
    ∃ (s : State), ∃ (arg : Word64),
    (Awake s) ∧
    let a := arg.toNat
    let open_ := s.fbit BENCH_CMD_BUSY = false ∧ s.closed = false
    (open_) ∧
    (s.allEmpty = true) ∧
    (s.pprOf (argBank a) < Config.pprPerBank)) ∧ (
    ∃ (s : State),
    (Awake s) ∧
    let open_ := s.fbit BENCH_CMD_BUSY = false ∧ s.closed = false
    (open_) ∧
    (s.allEmpty = true) ∧
    (s.fget BENCH_CTL_SCAN_GROUP ≠ 7)) ∧ (
    ∃ (s : State), ∃ (arg : Word64),
    (Awake s) ∧
    let a := arg.toNat
    let open_ := s.fbit BENCH_CMD_BUSY = false ∧ s.closed = false
    (open_) ∧
    (s.allEmpty = true) ∧
    (s.fget BENCH_CTL_SCAN_GROUP = 7) ∧
    (4 < getBits a 0 3)) ∧ (
    ∃ (s : State), ∃ (arg : Word64),
    (Awake s) ∧
    let a := arg.toNat
    let open_ := s.fbit BENCH_CMD_BUSY = false ∧ s.closed = false
    (open_) ∧
    (s.allEmpty = true) ∧
    (s.fget BENCH_CTL_SCAN_GROUP = 7) ∧
    (getBits a 0 3 ≤ 4)) ∧ (
    ∃ (s : State),
    (Awake s) ∧
    let open_ := s.fbit BENCH_CMD_BUSY = false ∧ s.closed = false
    (open_) ∧
    (s.fbit FUSE_STS_OWNER_ENROLLED = true)) ∧ (
    ∃ (s : State),
    (Awake s) ∧
    let open_ := s.fbit BENCH_CMD_BUSY = false ∧ s.closed = false
    (open_) ∧
    (s.fbit FUSE_STS_OWNER_ENROLLED = false)) ∧ (
    ∃ (s : State),
    (Awake s) ∧
    ∃ at_, ∃ src,
    (src < 5) ∧
    (Settled s at_) ∧
    let on := !s.closed && s.fbit BENCH_CTL_TRACE_EN && getBits (s.fget BENCH_CTL_TRACE_SEL) src 1 == 1
    (on = true)) ∧ (
    ∃ (s : State),
    (Awake s) ∧
    ∃ at_, ∃ src,
    (src < 5) ∧
    (Settled s at_) ∧
    let on := !s.closed && s.fbit BENCH_CTL_TRACE_EN && getBits (s.fget BENCH_CTL_TRACE_SEL) src 1 == 1
    (on = false)) ∧ (
    ∃ (s : State),
    (Awake s) ∧
    ∃ (code : BitVec 8),
    let i := s.tapDecode code.toNat
    (i ≠ 0)) ∧ (
    ∃ (s : State),
    (Awake s) ∧
    ∃ (code : BitVec 8),
    let i := s.tapDecode code.toNat
    (i = 0) ∧
    (s.benchFree = false)) ∧ (
    ∃ (s : State),
    (Awake s) ∧
    ∃ (code : BitVec 8),
    let i := s.tapDecode code.toNat
    (i = 0) ∧
    (s.benchFree = true)) ∧ (
    ∃ (s : State),
    (Awake s) ∧
    ∃ at_,
    (Settled s at_) ∧
    (s.bench.extest = false)) ∧ (
    ∃ (s : State),
    (Awake s) ∧
    ∃ at_,
    (Settled s at_) ∧
    (s.bench.extest = true)) ∧ (
    ∃ (s : State),
    (Awake s) ∧
    ∃ at_,
    (Settled s at_) ∧
    (s.tapDecode s.bench.ir = 1)) ∧ (
    ∃ (s : State),
    (Awake s) ∧
    ∃ at_,
    (Settled s at_) ∧
    (s.tapDecode s.bench.ir = 0xFF)) ∧ (
    ∃ (s : State),
    (Awake s) ∧
    ∃ at_, ∃ v,
    (Settled s at_) ∧
    (s.tapDecode s.bench.ir = 0x22) ∧
    (s.benchFree = true) ∧
    (benchRegOff v = BENCH_ARG.base - 0x20000000)) :=
  ⟨⟨b0.fset BENCH_CMD_BUSY 1, hbmArg, ⟨false,false,true,true,0⟩, awake_of (by decide +kernel), _, (.head _), by decide +kernel⟩,
   ⟨(noisy b0).fset HULL_ID_FIELD_CLOSED 1, hbmArg, ⟨false,false,true,true,0⟩, awake_of (by decide +kernel), _, (.head _), by decide +kernel, by decide +kernel⟩,
   ⟨b0, hbmArg, awake_of (by decide +kernel), by decide +kernel, by decide +kernel⟩,
   ⟨b0, lnkArg, awake_of (by decide +kernel), by decide +kernel, by decide +kernel⟩,
   ⟨tr (lanes hrun), hbmArg, ⟨false,false,true,true,0⟩, awake_of (by decide +kernel), by decide +kernel, by decide +kernel, _, (.head _), trivial⟩,
   ⟨b0, hbmArg, awake_of (by decide +kernel), by decide +kernel, by decide +kernel, by decide +kernel⟩,
   ⟨pois (lanes b0), hbmArg, awake_of (by decide +kernel), by decide +kernel, by decide +kernel, by decide +kernel⟩,
   ⟨b0, hbmArg, awake_of (by decide +kernel), by decide +kernel, by decide +kernel, by decide +kernel⟩,
   ⟨pois (lanes b0), lnkArg, awake_of (by decide +kernel), by decide +kernel, by decide +kernel, by decide +kernel⟩,
   ⟨b0, awake_of (by decide +kernel), by decide +kernel, by decide +kernel, by decide +kernel⟩,
   ⟨tr ((lanes (noisy b0)).fset FUSE_STS_OWNER_ENROLLED 1), ⟨false,false,true,false,5⟩, awake_of (by decide +kernel), by decide +kernel, by decide +kernel, by decide +kernel, by decide +kernel⟩,
   ⟨tr ((lanes (noisy b0)).fset FUSE_STS_OWNER_ENROLLED 1), ⟨false,false,true,true,0⟩, awake_of (by decide +kernel), by decide +kernel, by decide +kernel, by decide +kernel, by decide +kernel⟩,
   ⟨tr (lanes hrun), hbmArg, awake_of (by decide +kernel), by decide +kernel, by decide +kernel, _, (.head _), trivial⟩,
   ⟨pois (lanes b0), bnk, awake_of (by decide +kernel), by decide +kernel, by decide +kernel, Nat.le_refl Config.pprPerBank⟩,
   ⟨b0, hbmArg, awake_of (by decide +kernel), by decide +kernel, by decide +kernel, Nat.succ_pos Config.pprMore⟩,
   ⟨b0.fset BENCH_CTL_SCAN_GROUP 2, awake_of (by decide +kernel), by decide +kernel, by decide +kernel, by decide +kernel⟩,
   ⟨b0, hbmArg, awake_of (by decide +kernel), by decide +kernel, by decide +kernel, by decide +kernel, by decide +kernel⟩,
   ⟨b0, lnkArg, awake_of (by decide +kernel), by decide +kernel, by decide +kernel, by decide +kernel, by decide +kernel⟩,
   ⟨tr ((lanes (noisy b0)).fset FUSE_STS_OWNER_ENROLLED 1), awake_of (by decide +kernel), by decide +kernel, by decide +kernel⟩,
   ⟨b0, awake_of (by decide +kernel), by decide +kernel, by decide +kernel⟩,
   ⟨tr ((lanes (noisy b0)).fset FUSE_STS_OWNER_ENROLLED 1), awake_of (by decide +kernel), 0, 1, by decide +kernel, settled_of (by decide +kernel), by decide +kernel⟩,
   ⟨b0, awake_of (by decide +kernel), 0, 0, by decide +kernel, settled_of (by decide +kernel), by decide +kernel⟩,
   ⟨b0, awake_of (by decide +kernel), 1, by decide +kernel⟩,
   ⟨tr (lanes hrun), awake_of (by decide +kernel), 0, by decide +kernel, by decide +kernel⟩,
   ⟨b0, awake_of (by decide +kernel), 0, by decide +kernel, by decide +kernel⟩,
   ⟨b0, awake_of (by decide +kernel), 0, settled_of (by decide +kernel), by decide +kernel⟩,
   ⟨bn (fun b => { b with extest := true, ir := 0, fuseBuf := 77 }) b0, awake_of (by decide +kernel), 0, settled_of (by decide +kernel), by decide +kernel⟩,
   ⟨b0, awake_of (by decide +kernel), 0, settled_of (by decide +kernel), by decide +kernel⟩,
   ⟨bn (fun b => { b with extest := true, ir := 0xFF }) (lanes (noisy b0)), awake_of (by decide +kernel), 0, settled_of (by decide +kernel), by decide +kernel⟩,
   ⟨bn (fun b => { b with ir := 0x22 }) (b0.fset BENCH_ARG_ARG 99), awake_of (by decide +kernel), 0, BENCH_ARG.base - 0x20000000 + 2^32*5, settled_of (by decide +kernel), by decide +kernel, by decide +kernel, by decide +kernel⟩⟩

theorem witness_RegisterAccessesReachTheirRegister :
    (
    ∃ (s : State), ∃ (at_ : Nat),
    (Awake s) ∧
    (s.bench.extest = false) ∧
    (Settled s at_) ∧
    ∃ k, ∃ d,
    (s.power.reload = none) ∧
    (plainReg k d) ∧
    (s.windowOff (k / 0x1000000) = false) ∧
    ∃ view,
    (view < 4) ∧
    ((view = 0 ∨ stsKey k = false)) ∧
    ((s.locked = false ∨ ∀ f ∈ d.fields, f.acc ≠ .rwl))) ∧ (
    ∃ (s : State), ∃ (at_ : Nat),
    (Awake s) ∧
    (s.bench.extest = false) ∧
    (Settled s at_) ∧
    ∃ k, ∃ d,
    (s.power.reload = none) ∧
    (plainReg k d) ∧
    (s.windowOff (k / 0x1000000) = false) ∧
    ∃ view,
    (1 ≤ view) ∧
    (view < 4) ∧
    (stsKey k = true)) ∧ (
    ∃ (s : State), ∃ (at_ : Nat),
    (Awake s) ∧
    (s.bench.extest = false) ∧
    (Settled s at_) ∧
    ∃ k, ∃ d,
    (s.power.reload = none) ∧
    (plainReg k d) ∧
    (s.windowOff (k / 0x1000000) = false) ∧
    (s.locked = true) ∧
    ((∃ f ∈ d.fields, f.acc = .rwl))) ∧ (
    ∃ (s : State), ∃ (at_ : Nat),
    (Awake s) ∧
    (s.bench.extest = false) ∧
    (Settled s at_) ∧
    ∃ off,
    (s.power.reload = none) ∧
    (off < 0x1C000000) ∧
    (off % 0x1000000 < 0x400000) ∧
    let w := off / 0x1000000
    let buffer := (w = 7 ∧ 0x100000 ≤ off % 0x1000000 ∧ off % 0x1000000 < 0x110000) ∨
        (w = 0 ∧ 0x1000 ≤ off % 0x1000000 ∧ off % 0x1000000 < 0x3000)
    (¬ buffer) ∧
    ∃ size,
    (size ≠ 8 ∨ off % 8 ≠ 0)) ∧ (
    ∃ (s : State), ∃ (at_ : Nat),
    (Awake s) ∧
    (s.bench.extest = false) ∧
    (Settled s at_) ∧
    ∃ off,
    (s.power.reload = none) ∧
    (off < 0x1C000000) ∧
    (off % 0x1000000 < 0x400000) ∧
    let w := off / 0x1000000
    let buffer := (w = 7 ∧ 0x100000 ≤ off % 0x1000000 ∧ off % 0x1000000 < 0x110000) ∨
        (w = 0 ∧ 0x1000 ≤ off % 0x1000000 ∧ off % 0x1000000 < 0x3000)
    (¬ buffer) ∧
    (off % 8 = 0) ∧
    (s.windowOff w = true)) ∧ (
    ∃ (s : State), ∃ (at_ : Nat),
    (Awake s) ∧
    (s.bench.extest = false) ∧
    (Settled s at_) ∧
    ∃ off,
    (s.power.reload = none) ∧
    (off < 0x1C000000) ∧
    (off % 0x1000000 < 0x400000) ∧
    let w := off / 0x1000000
    let buffer := (w = 7 ∧ 0x100000 ≤ off % 0x1000000 ∧ off % 0x1000000 < 0x110000) ∨
        (w = 0 ∧ 0x1000 ≤ off % 0x1000000 ∧ off % 0x1000000 < 0x3000)
    (¬ buffer) ∧
    (off % 8 = 0) ∧
    (s.windowOff w = false) ∧
    (findReg off = none) ∧
    (snapOf off = none)) ∧ (
    ∃ (s : State), ∃ (at_ : Nat),
    (Awake s) ∧
    (s.bench.extest = false) ∧
    (Settled s at_) ∧
    ∃ k, ∃ d, ∃ c,
    (s.power.reload = some c) ∧
    (plainReg k d) ∧
    (s.windowOff (k / 0x1000000) = false) ∧
    (s.locked = false) ∧
    (k ∉ accRegs)) ∧ (
    ∃ (s : State), ∃ (at_ : Nat), ∃ (v : Word64),
    (Awake s) ∧
    (s.bench.extest = false) ∧
    (Settled s at_) ∧
    ∃ i,
    (i < 4) ∧
    (s.power.reload = none) ∧
    (s.windowOff 4 = false) ∧
    (s.locked = false) ∧
    let base := getBits v.toNat 1 4 * 0x1000000000 + getBits v.toNat 5 6 * 0x40000000
    let clash := v.toNat % 2 = 1 ∧ ∃ k ∈ [0, 1, 2, 3], k ≠ i ∧ s.fbit (HOST_HDM_EN.ix k) = true ∧
        meet base 0x400000000 (s.hdmBase k) 0x400000000 = true
    (clash)) ∧ (
    ∃ (s : State), ∃ (at_ : Nat), ∃ (v : Word64),
    (Awake s) ∧
    (s.bench.extest = false) ∧
    (Settled s at_) ∧
    ∃ i,
    (i < 4) ∧
    (s.power.reload = none) ∧
    (s.windowOff 4 = false) ∧
    (s.locked = false) ∧
    let base := getBits v.toNat 1 4 * 0x1000000000 + getBits v.toNat 5 6 * 0x40000000
    let clash := v.toNat % 2 = 1 ∧ ∃ k ∈ [0, 1, 2, 3], k ≠ i ∧ s.fbit (HOST_HDM_EN.ix k) = true ∧
        meet base 0x400000000 (s.hdmBase k) 0x400000000 = true
    (¬ clash)) ∧ (
    ∃ (s : State), ∃ (at_ : Nat),
    (Awake s) ∧
    (s.bench.extest = false) ∧
    (Settled s at_) ∧
    ∃ src,
    (src ≤ 16) ∧
    (s.power.reload = none) ∧
    (s.windowOff 1 = false) ∧
    (s.locked = false)) ∧ (
    ∃ (s : State), ∃ (at_ : Nat),
    (Awake s) ∧
    (s.bench.extest = false) ∧
    (Settled s at_) ∧
    (s.fbit HULL_ORCH_MASTER = false)) ∧ (
    ∃ (s : State), ∃ (at_ : Nat),
    (Awake s) ∧
    (s.bench.extest = false) ∧
    (Settled s at_) ∧
    (s.fbit HULL_ORCH_MASTER = true) ∧
    (s.ccr.hold = true) ∧
    (s.job.ctx ≠ none)) ∧ (
    ∃ (s : State), ∃ (at_ : Nat),
    (Awake s) ∧
    (s.bench.extest = false) ∧
    (Settled s at_) ∧
    (s.fbit HULL_ORCH_MASTER = true) ∧
    (s.ccr.hold = false)) :=
  ⟨⟨b0, 1792, awake_of (by decide +kernel), by decide +kernel, settled_of (by decide +kernel), 1792, (findReg 1792).getD ⟨.hull, 0, 0, 0, []⟩, by decide +kernel, by decide +kernel, by decide +kernel, 3, by decide +kernel, by decide +kernel, by decide +kernel⟩,
   ⟨b0, 1792, awake_of (by decide +kernel), by decide +kernel, settled_of (by decide +kernel), 16777272, (findReg 16777272).getD ⟨.hull, 0, 0, 0, []⟩, by decide +kernel, by decide +kernel, by decide +kernel, 3, by decide +kernel, by decide +kernel, by decide +kernel⟩,
   ⟨hrun, 1792, awake_of (by decide +kernel), by decide +kernel, settled_of (by decide +kernel), 1792, (findReg 1792).getD ⟨.hull, 0, 0, 0, []⟩, by decide +kernel, by decide +kernel, by decide +kernel, by decide +kernel, by decide +kernel⟩,
   ⟨b0, 1792, awake_of (by decide +kernel), by decide +kernel, settled_of (by decide +kernel), 1792, by decide +kernel, by decide +kernel, by decide +kernel, by decide +kernel, 1792, by decide +kernel⟩,
   ⟨b0.fset BENCH_CTL_SCAN_GROUP 2, 1792, awake_of (by decide +kernel), by decide +kernel, settled_of (by decide +kernel), 151003160, by decide +kernel, by decide +kernel, by decide +kernel, by decide +kernel, by decide +kernel, by decide +kernel⟩,
   ⟨b0, 1792, awake_of (by decide +kernel), by decide +kernel, settled_of (by decide +kernel), 400, by decide +kernel, by decide +kernel, by decide +kernel, by decide +kernel, by decide +kernel, by decide +kernel, by decide +kernel, by decide +kernel⟩,
   ⟨{ noisy b0 with power := { (noisy b0).power with reload := some 5000 } }, 1792, awake_of (by decide +kernel), by decide +kernel, settled_of (by decide +kernel), 1792, (findReg 1792).getD ⟨.hull, 0, 0, 0, []⟩, 5000, by decide +kernel, by decide +kernel, by decide +kernel, by decide +kernel, by decide +kernel⟩,
   ⟨b0.fsetAll [(HOST_HDM_EN.ix 2, 1), (HOST_HDM_EN.ix 3, 1)], 1792, 1, awake_of (by decide +kernel), by decide +kernel, settled_of (by decide +kernel), 3, by decide +kernel, by decide +kernel, by decide +kernel, by decide +kernel, by decide +kernel⟩,
   ⟨b0, 1792, hbmArg, awake_of (by decide +kernel), by decide +kernel, settled_of (by decide +kernel), 3, by decide +kernel, by decide +kernel, by decide +kernel, by decide +kernel, by decide +kernel⟩,
   ⟨b0, 1792, awake_of (by decide +kernel), by decide +kernel, settled_of (by decide +kernel), 16, by decide +kernel, by decide +kernel, by decide +kernel, by decide +kernel⟩,
   ⟨b0, 1792, awake_of (by decide +kernel), by decide +kernel, settled_of (by decide +kernel), by decide +kernel⟩,
   ⟨let s := hrun.fset HULL_ORCH_MASTER 1; { s with ccr := { s.ccr with hold := true } }, 1792, awake_of (by decide +kernel), by decide +kernel, settled_of (by decide +kernel), by decide +kernel, by decide +kernel, by decide +kernel⟩,
   ⟨hrun, 1792, awake_of (by decide +kernel), by decide +kernel, settled_of (by decide +kernel), by decide +kernel, by decide +kernel⟩⟩

end Sys2Proof.Tests
end

section
/-! PROOFS. FENCE_CHECK (R37 to R40): what one miss does, what the misses of a fence do in turn, and the statement. -/

namespace Sys2Proof.Safety

open Sys2Proof.Machine Sys2Proof.Laws

/-! ### The frame of a chain of operations -/

theorem Part.Same.trans {s t u : State} {p : Part} (h : p.Same s t) (g : p.Same t u) : p.Same s u := by
  cases p <;> exact Eq.trans g h

theorem OnlyParts.refl (ps : List Part) (s : State) : OnlyParts ps s s := fun p _ => by cases p <;> rfl

theorem OnlyParts.trans {ps : List Part} {s t u : State} (h : OnlyParts ps s t) (g : OnlyParts ps t u) :
    OnlyParts ps s u := fun p hp => (h p hp).trans (g p hp)

theorem OnlyParts.mono {ps qs : List Part} {s t : State} (h : OnlyParts ps s t) (hs : ps ⊆ qs) : OnlyParts qs s t :=
  fun p hp => h p (fun hh => hp (hs hh))

end Sys2Proof.Safety

namespace Sys2Proof.Laws

open Sys2Proof.Machine Sys2Proof.Safety

/-! ### Records read back (R488) -/

/-- Fields that lie within a register's word and share no bit with each other. -/
def FieldsApart (l : List Fld) : Prop := (∀ f ∈ l, f.lo + f.wd ≤ 64) ∧ l.Pairwise (fun f g => apart f g = true)

theorem FieldsApart.tail {f : Fld} {l : List Fld} (h : FieldsApart (f :: l)) : FieldsApart l :=
  ⟨fun g m => h.1 g (.tail _ m), h.2.tail⟩

theorem FieldsApart.width {f : Fld} {l : List Fld} (h : FieldsApart (f :: l)) : f.lo + f.wd ≤ 64 := h.1 f (.head _)

theorem FieldsApart.apart {f g : Fld} {l : List Fld} (h : FieldsApart (f :: l)) (m : g ∈ l) : apart f g = true :=
  (List.pairwise_cons.1 h.2).1 g m

theorem apart_comm (f g : Fld) : apart f g = apart g f := by
  unfold apart
  rw [Bool.or_right_comm, bne_comm]

theorem wf_fsetAll : ∀ (l : List (Fld × Nat)) (s : State), tabWf resetOf s.regs = true →
    tabWf resetOf (s.fsetAll l).regs = true
  | [], _, h => h
  | (f, x) :: r, s, h => wf_fsetAll r (s.fset f x) (wf_fset s f x h)

/-- Storing fields leaves a field alone that shares no bit with them. -/
theorem fget_fsetAll_apart (g : Fld) : ∀ (l : List (Fld × Nat)) (s : State), tabWf resetOf s.regs = true →
    FieldsApart (g :: l.map Prod.fst) → (s.fsetAll l).fget g = s.fget g
  | [], _, _, _ => rfl
  | (f, x) :: r, s, h, ha => by
    have hr : FieldsApart (g :: r.map Prod.fst) :=
      ⟨fun k m => ha.1 k ((List.mem_cons.1 m).elim (fun e => e ▸ .head _) (fun m => .tail _ (.tail _ m))),
        List.pairwise_cons.2 ⟨fun k m => ha.apart (.tail _ m), ha.tail.2.tail⟩⟩
    have hfg : apart f g = true := apart_comm f g ▸ ha.apart (.head _)
    exact (fget_fsetAll_apart g r (s.fset f x) (wf_fset s f x h) hr).trans (fget_fset_apart s f g x h ha.tail.width hfg)

/-- Of fields that share no bits, each reads back as it was stored. -/
theorem fget_fsetAll_mem {f : Fld} {x : Nat} : ∀ (l : List (Fld × Nat)) (s : State), tabWf resetOf s.regs = true →
    FieldsApart (l.map Prod.fst) → (f, x) ∈ l → (s.fsetAll l).fget f = x % 2 ^ f.wd
  | [], _, _, _, hm => absurd hm List.not_mem_nil
  | (g, y) :: r, s, h, ha, hm => by
    rcases List.mem_cons.1 hm with e | m
    · cases e
      exact (fget_fsetAll_apart f r _ (wf_fset s f x h) ha).trans (fget_fset_same s f x h ha.width)
    · exact fget_fsetAll_mem r (s.fset g y) (wf_fset s g y h) ha.tail m

/-- A free record, once taken, holds what was recorded, and VALID. -/
theorem fget_record_mem {f v : Fld} {x : Nat} (l : List (Fld × Nat)) (s : State) (h : tabWf resetOf s.regs = true)
    (ha : FieldsApart (v :: l.map Prod.fst)) (hv : s.fbit v = false) (hm : (f, x) ∈ (v, 1) :: l) :
    (s.record v l).fget f = x % 2 ^ f.wd := by
  have e : s.record v l = (s.fsetAll l).fset v 1 := by simp [State.record, hv]
  rw [e]
  rcases List.mem_cons.1 hm with e | m
  · cases e
    exact fget_fset_same _ _ 1 (wf_fsetAll l s h) ha.width
  · rw [fget_fset_apart _ v f 1 (wf_fsetAll l s h) ha.width (ha.apart (List.mem_map_of_mem m))]
    exact fget_fsetAll_mem l s h ha.tail m

/-! ### Class B (R302, R490) -/

/-- A class B fault marks the tick to which R302 attributes it, and nothing else of the tick. -/
theorem classBSts_run (s : State) (p : Nat) (f : Fld) : (s.classBSts p f).run =
    if s.run.healthSent then { s.run with lateB := true } else { s.run with faultB := true } := by
  by_cases h : s.run.healthSent = true <;> simp [State.classBSts, State.classB, State.markB, State.withRun, h]

/-! ### One miss (R37, R40, R45) -/

/-- The registers of the tick's fences. -/
def fenceRegs : List Nat := [TICK_CNT.base, TICK_FENCE_MISS.base, TICK_STS.base]

/-- The fields of TICK_FENCE_MISS after a miss. -/
def missFields (s : State) (fence dfence : Nat) (isData : Bool) (window : Nat) : List (Fld × Nat) :=
  [(TICK_FENCE_MISS_FENCE, if isData then 0 else fence), (TICK_FENCE_MISS_DFENCE, if isData then dfence else 0),
   (TICK_FENCE_MISS_IS_DATA, isData.toNat), (TICK_FENCE_MISS_PLAN, s.fget TICK_PLAN_CUR),
   (TICK_FENCE_MISS_SOURCE, window), (TICK_FENCE_MISS_TICK, s.tickCount)]

/-- A miss noted and counted. -/
def missCounted (s : State) : State :=
  (s.withRun (fun r => { r with fenceMissed := true })).fadd TICK_CNT_FENCE_MISSES 1

/-- A miss counted, and recorded when it is the first of the tick. -/
def missRecorded (s : State) (fence dfence : Nat) (isData : Bool) (window : Nat) : State :=
  if s.run.fenceMissed then missCounted s
  else (missCounted s).record TICK_FENCE_MISS_VALID (missFields s fence dfence isData window)

/-- The status bit of a fence miss and of a data fence miss. -/
def missSts (isData : Bool) : Fld := if isData then TICK_STS_DATA_FENCE_MISS else TICK_STS_FENCE_MISS

/-- A miss is counted, recorded and raised as class B. -/
theorem fenceMiss_eq (s : State) (fence dfence : Nat) (isData : Bool) (window : Nat) :
    s.fenceMiss fence dfence isData window = (missRecorded s fence dfence isData window).classBSts 1 (missSts isData) := by
  have hf : missFields (missCounted s) fence dfence isData window = missFields s fence dfence isData window := by
    have h : ∀ g : Fld, g.base ≠ TICK_CNT_FENCE_MISSES.base → (missCounted s).fget g = s.fget g := fun g hg =>
      fget_fset_base _ _ _ _ hg
    simp only [missFields, State.tickCount, h TICK_PLAN_CUR (by decide), h TICK_COUNT_COUNT (by decide)]
  unfold State.fenceMiss missRecorded
  rw [← hf]
  by_cases h : s.run.fenceMissed = true <;> simp only [h] <;> rfl

theorem missRecorded_run (s : State) (fence dfence : Nat) (isData : Bool) (window : Nat) :
    (missRecorded s fence dfence isData window).run = { s.run with fenceMissed := true } := by
  unfold missRecorded missCounted
  split <;> simp [State.withRun]

theorem missRecorded_keeps {s0 : State} (s : State) (fence dfence : Nat) (isData : Bool) (window : Nat) (h : Keeps s0 s) :
    Keeps s0 (missRecorded s fence dfence isData window) :=
  have k : Keeps s0 (missCounted s) := fadd_keeps _ _ _ (withRun_keeps _ _ h)
  Keeps.ite k (record_keeps _ _ _ k)

/-- A miss marks the tick as missed and class B, and leaves the rest of the tick's record. -/
theorem fenceMiss_run (s : State) (fence dfence : Nat) (isData : Bool) (window : Nat) :
    (s.fenceMiss fence dfence isData window).run =
      if s.run.healthSent then { s.run with fenceMissed := true, lateB := true }
      else { s.run with fenceMissed := true, faultB := true } := by
  rw [fenceMiss_eq, classBSts_run, missRecorded_run]

theorem fenceMiss_missed (s : State) (fence dfence : Nat) (isData : Bool) (window : Nat) :
    (s.fenceMiss fence dfence isData window).run.fenceMissed = true := by
  rw [fenceMiss_run]
  split <;> rfl

theorem fenceMiss_items (s : State) (fence dfence : Nat) (isData : Bool) (window : Nat) :
    (s.fenceMiss fence dfence isData window).run.items = s.run.items := by
  rw [fenceMiss_run]
  split <;> rfl

theorem fenceMiss_healthSent (s : State) (fence dfence : Nat) (isData : Bool) (window : Nat) :
    (s.fenceMiss fence dfence isData window).run.healthSent = s.run.healthSent := by
  rw [fenceMiss_run]
  split <;> rfl

theorem fenceMiss_raisesB (s : State) (fence dfence : Nat) (isData : Bool) (window : Nat) :
    RaisesB s (s.fenceMiss fence dfence isData window) := by
  unfold RaisesB
  rw [fenceMiss_run]
  by_cases h : s.run.healthSent = true <;> simp [h]

theorem fenceMiss_onlyParts (s : State) (fence dfence : Nat) (isData : Bool) (window : Nat) :
    OnlyParts [.regs, .run, .fifos, .cap, .outbox] s (s.fenceMiss fence dfence isData window) := by
  intro p hp
  cases p <;> simp [Part.Same] at hp ⊢

theorem only_missCounted {ks : List Nat} (s : State) (h : TICK_CNT.base ∈ ks) : OnlyRegs ks s (missCounted s) :=
  (OnlyRegs.same (OnlyRegs.refl _ s) rfl).trans (only_fadd _ TICK_CNT_FENCE_MISSES 1 h)

/-- The fields of TICK_FENCE_MISS share no bits. -/
theorem missFields_apart (s : State) (fence dfence : Nat) (isData : Bool) (window : Nat) :
    FieldsApart (TICK_FENCE_MISS_VALID :: (missFields s fence dfence isData window).map Prod.fst) := by
  have e : (missFields s fence dfence isData window).map Prod.fst = [TICK_FENCE_MISS_FENCE, TICK_FENCE_MISS_DFENCE,
    TICK_FENCE_MISS_IS_DATA, TICK_FENCE_MISS_PLAN, TICK_FENCE_MISS_SOURCE, TICK_FENCE_MISS_TICK] := rfl
  rw [e]
  exact ⟨by decide, by decide⟩

theorem missFields_base (s : State) (fence dfence : Nat) (isData : Bool) (window : Nat) :
    ∀ p ∈ (TICK_FENCE_MISS_VALID, 1) :: missFields s fence dfence isData window, p.1.base = TICK_FENCE_MISS.base := by
  simp only [missFields, List.forall_mem_cons]
  exact ⟨rfl, rfl, rfl, rfl, rfl, rfl, rfl, fun p m => nomatch m⟩

theorem only_missRecorded {ks : List Nat} (s : State) (fence dfence : Nat) (isData : Bool) (window : Nat)
    (hc : TICK_CNT.base ∈ ks) (hr : TICK_FENCE_MISS.base ∈ ks) :
    OnlyRegs ks s (missRecorded s fence dfence isData window) :=
  OnlyRegs.ite (only_missCounted s hc)
    ((only_missCounted s hc).trans
      (only_record _ _ _ hr (fun p m => missFields_base s fence dfence isData window p (.tail _ m) ▸ hr)))

theorem missSts_base (isData : Bool) : (missSts isData).base = TICK_STS.base := by cases isData <;> rfl

theorem fenceMiss_onlyRegs (s : State) (fence dfence : Nat) (isData : Bool) (window : Nat) :
    OnlyRegs (fenceRegs ++ noteRegs) s (s.fenceMiss fence dfence isData window) := by
  rw [fenceMiss_eq]
  refine (only_missRecorded s _ _ _ _ (by simp [fenceRegs]) (by simp [fenceRegs])).trans
    (only_classBSts _ _ _ (List.subset_append_right _ _) ?_)
  rw [missSts_base]
  simp [fenceRegs]

/-- What the class B fault of a miss writes besides TICK_STS is notes. -/
theorem only_missRaised (s : State) (isData : Bool) :
    OnlyRegs (TICK_STS.base :: noteRegs) s (s.classBSts 1 (missSts isData)) :=
  only_classBSts _ _ _ (List.subset_cons_self _ _) (missSts_base isData ▸ List.mem_cons_self ..)

/-- A miss is counted once, saturating. -/
theorem fenceMiss_counts (s : State) (fence dfence : Nat) (isData : Bool) (window : Nat)
    (h : tabWf resetOf s.regs = true) : Counts TICK_CNT_FENCE_MISSES 1 s (s.fenceMiss fence dfence isData window) := by
  have hc : Counts TICK_CNT_FENCE_MISSES 1 s (missCounted s) := fget_fadd_same (s.withRun _) _ 1 h (by decide)
  have hr : (missRecorded s fence dfence isData window).fget TICK_CNT_FENCE_MISSES
      = (missCounted s).fget TICK_CNT_FENCE_MISSES := by
    unfold missRecorded
    split
    · rfl
    · exact (only_record (ks := [TICK_FENCE_MISS.base]) _ _ _ (by decide)
        (fun p m => by rw [missFields_base _ _ _ _ _ p (.tail _ m)]; exact List.mem_cons_self ..)).fget _ (by decide)
  unfold Counts
  rw [fenceMiss_eq, (only_missRaised _ isData).fget _ (by decide), hr]
  exact hc

/-- A miss sets its status bit. -/
theorem fenceMiss_sts (s : State) (fence dfence : Nat) (isData : Bool) (window : Nat) (h : Inv s) :
    (s.fenceMiss fence dfence isData window).fbit (missSts isData) = true := by
  have hw : tabWf resetOf (missRecorded s fence dfence isData window).regs = true :=
    ((missRecorded_keeps s fence dfence isData window (Keeps.refl s)).inv h).1.1
  unfold State.fbit
  rw [fenceMiss_eq]
  cases isData <;> rw [fget_classBSts _ _ _ hw (by decide) (by decide) (by decide)] <;> rfl

/-- Only the first miss of a tick touches TICK_FENCE_MISS. -/
theorem fenceMiss_again (s : State) (fence dfence : Nat) (isData : Bool) (window : Nat) (h : s.run.fenceMissed = true) :
    (s.fenceMiss fence dfence isData window).regGet TICK_FENCE_MISS.base = s.regGet TICK_FENCE_MISS.base := by
  rw [fenceMiss_eq, only_missRaised _ isData _ (by decide), missRecorded, if_pos h]
  exact only_missCounted (ks := [TICK_CNT.base]) s (by decide) _ (by decide)

/-- The first miss of a tick fills a free TICK_FENCE_MISS. -/
theorem fenceMiss_first (s : State) (fence dfence : Nat) (isData : Bool) (window : Nat) (h : Inv s)
    (hm : s.run.fenceMissed = false) (hv : s.fbit TICK_FENCE_MISS_VALID = false) {f : Fld} {x : Nat}
    (hf : (f, x) ∈ (TICK_FENCE_MISS_VALID, 1) :: missFields s fence dfence isData window) :
    (s.fenceMiss fence dfence isData window).fget f = x % 2 ^ f.wd := by
  have hb : f.base = TICK_FENCE_MISS.base := missFields_base s fence _ _ _ _ hf
  have hc : (missCounted s).fbit TICK_FENCE_MISS_VALID = false :=
    ((only_missCounted (ks := [TICK_CNT.base]) s (by decide)).fbit _ (by decide)).trans hv
  have hw : tabWf resetOf (missCounted s).regs = true := wf_fset _ _ _ h.1.1
  rw [fenceMiss_eq, (only_missRaised _ isData).fget f (by rw [hb]; decide), missRecorded, hm]
  exact fget_record_mem _ _ hw (missFields_apart s fence dfence isData window) hc hf

/-! ### A late item stops (R39) -/

theorem stopLate_onlyParts (s : State) (fence c w : Nat) : OnlyParts [.tiles] s (s.stopLate fence c w) := by
  intro p hp
  cases p <;> simp [Part.Same, State.stopLate] at hp ⊢

/-- A flight towards a fence, stopped on the fence's cycle when its tile lies in one of the late windows. -/
def cutFlight (fence c : Nat) (late : List Nat) (g : Flight) : Flight :=
  if late.contains (20 + g.tile / 10) && wFence g.word == fence then { g with done := min g.done c } else g

theorem stopLate_flights (s : State) (fence c w : Nat) :
    (s.stopLate fence c w).tiles.flights = s.tiles.flights.map (cutFlight fence c [w]) := by
  simp only [State.stopLate, State.withTiles]
  refine List.map_congr_left (fun g _ => ?_)
  simp only [cutFlight, List.contains_cons, List.contains_nil, Bool.or_false]

/-- Cutting for one window and then for others is cutting for all of them; a second cut to the same cycle changes nothing. -/
theorem cutFlight_cons (fence c w : Nat) (late : List Nat) (g : Flight) :
    cutFlight fence c late (cutFlight fence c [w] g) = cutFlight fence c (w :: late) g := by
  by_cases hw : 20 + g.tile / 10 = w
  · by_cases hf : wFence g.word = fence
    · simp [cutFlight, hw, hf]
    · simp [cutFlight, hf]
  · have hone : cutFlight fence c [w] g = g := by simp [cutFlight, hw]
    rw [hone]
    simp [cutFlight, hw]

/-! ### The misses of one fence, in turn -/

/-- A late window's items stop, and the window's miss is reported (R37, R39). -/
def lateMiss (fence c : Nat) (s : State) (w : Nat) : State := (s.stopLate fence c w).fenceMiss fence 0 false w

section
variable (fence c : Nat) (s : State)

theorem lateMiss_onlyParts (w : Nat) :
    OnlyParts [.now, .regs, .run, .tiles, .fifos, .cap, .outbox] s (lateMiss fence c s w) :=
  ((stopLate_onlyParts s fence c w).mono (by decide)).trans ((fenceMiss_onlyParts _ _ _ _ _).mono (by decide))

theorem lateMiss_onlyRegs (w : Nat) : OnlyRegs (fenceRegs ++ noteRegs) s (lateMiss fence c s w) :=
  (OnlyRegs.same (OnlyRegs.refl _ s) rfl).trans (fenceMiss_onlyRegs (s.stopLate fence c w) fence 0 false w)

theorem lateMiss_inv (w : Nat) (h : Inv s) : Inv (lateMiss fence c s w) :=
  (fenceMiss_keeps _ _ _ _ _ (stopLate_keeps _ _ _ _ (Keeps.refl s))).inv h

theorem lateMiss_now (w : Nat) : (lateMiss fence c s w).now = s.now := by simp [lateMiss, State.stopLate]

theorem lateMiss_missed (w : Nat) : (lateMiss fence c s w).run.fenceMissed = true := fenceMiss_missed ..

theorem lateMiss_items (w : Nat) : (lateMiss fence c s w).run.items = s.run.items :=
  fenceMiss_items (s.stopLate fence c w) fence 0 false w

theorem lateMiss_healthSent (w : Nat) : (lateMiss fence c s w).run.healthSent = s.run.healthSent :=
  fenceMiss_healthSent (s.stopLate fence c w) fence 0 false w

theorem lateMiss_flights (w : Nat) :
    (lateMiss fence c s w).tiles.flights = s.tiles.flights.map (cutFlight fence c [w]) := by
  rw [← stopLate_flights, lateMiss, (fenceMiss_onlyParts _ _ _ _ _) .tiles (by decide)]

end

/-- The misses of the late windows of a fence, in ascending window order. -/
def fenceMisses (fence c : Nat) (late : List Nat) (s : State) : State := late.foldl (lateMiss fence c) s

section
variable (fence c : Nat) (late : List Nat) (s : State)

theorem fenceMisses_append (late' : List Nat) :
    fenceMisses fence c (late ++ late') s = fenceMisses fence c late' (fenceMisses fence c late s) := List.foldl_append

theorem fenceMisses_onlyParts :
    OnlyParts [.now, .regs, .run, .tiles, .fifos, .cap, .outbox] s (fenceMisses fence c late s) :=
  List.foldlRecOn late _ (OnlyParts.refl _ s) (fun t h w _ => h.trans (lateMiss_onlyParts fence c t w))

theorem fenceMisses_onlyRegs : OnlyRegs (fenceRegs ++ noteRegs) s (fenceMisses fence c late s) :=
  List.foldlRecOn late _ (OnlyRegs.refl _ s) (fun t h w _ => h.trans (lateMiss_onlyRegs fence c t w))

theorem fenceMisses_inv (h : Inv s) : Inv (fenceMisses fence c late s) :=
  List.foldlRecOn late _ h (fun t h w _ => lateMiss_inv fence c t w h)

theorem fenceMisses_now : (fenceMisses fence c late s).now = s.now :=
  List.foldlRecOn late (motive := fun t => State.now t = s.now) _ rfl (fun t h w _ => (lateMiss_now fence c t w).trans h)

theorem fenceMisses_items : (fenceMisses fence c late s).run.items = s.run.items :=
  List.foldlRecOn late (motive := fun t => (State.run t).items = s.run.items) _ rfl
    (fun t h w _ => (lateMiss_items fence c t w).trans h)

theorem fenceMisses_healthSent : (fenceMisses fence c late s).run.healthSent = s.run.healthSent :=
  List.foldlRecOn late (motive := fun t => (State.run t).healthSent = s.run.healthSent) _ rfl
    (fun t h w _ => (lateMiss_healthSent fence c t w).trans h)

/-- After a miss, no further one touches TICK_FENCE_MISS. -/
theorem fenceMisses_again : ∀ (late : List Nat) (s : State), s.run.fenceMissed = true →
    (fenceMisses fence c late s).regGet TICK_FENCE_MISS.base = s.regGet TICK_FENCE_MISS.base
  | [], _, _ => rfl
  | w :: late, s, h => (fenceMisses_again late (lateMiss fence c s w) (lateMiss_missed fence c s w)).trans
      (fenceMiss_again (s.stopLate fence c w) fence 0 false w h)

end

/-- Each late window is one miss (R40). -/
theorem fenceMisses_counts (fence c : Nat) : ∀ (late : List Nat) (s : State), Inv s →
    Counts TICK_CNT_FENCE_MISSES late.length s (fenceMisses fence c late s)
  | [], s, _ => (Nat.min_eq_left (Nat.le_sub_one_of_lt (fget_lt s TICK_CNT_FENCE_MISSES))).symm
  | w :: late, s, h => by
    have h1 : Counts TICK_CNT_FENCE_MISSES 1 s (lateMiss fence c s w) :=
      fenceMiss_counts (s.stopLate fence c w) fence 0 false w h.1.1
    have h2 := fenceMisses_counts fence c late (lateMiss fence c s w) (lateMiss_inv fence c s w h)
    unfold Counts at h1 h2 ⊢
    rw [List.length_cons, fenceMisses, List.foldl_cons, ← fenceMisses, h2, h1]
    omega

/-- What is under way towards the fence in a late window is cut to the fence's cycle (R39). -/
theorem fenceMisses_flights (fence c : Nat) : ∀ (late : List Nat) (s : State),
    (fenceMisses fence c late s).tiles.flights = s.tiles.flights.map (cutFlight fence c late)
  | [], s => (List.map_id _).symm
  | w :: late, s => by
    rw [fenceMisses, List.foldl_cons, ← fenceMisses, fenceMisses_flights fence c late, lateMiss_flights, List.map_map]
    exact List.map_congr_left (fun g _ => cutFlight_cons fence c w late g)

/-- Where a window is late, the tick is marked as missed and class B (R37). -/
theorem fenceMisses_raise (fence c : Nat) (late : List Nat) (s : State) (h : Inv s) (hl : late ≠ []) :
    (fenceMisses fence c late s).fbit TICK_STS_FENCE_MISS = true ∧
      (fenceMisses fence c late s).run.fenceMissed = true ∧ RaisesB s (fenceMisses fence c late s) := by
  obtain ⟨init, w, rfl⟩ := List.eq_nil_or_concat late |>.resolve_left hl
  rw [List.concat_eq_append, fenceMisses_append]
  set u := fenceMisses fence c init s with hu
  have hb : RaisesB u (lateMiss fence c u w) := fenceMiss_raisesB (u.stopLate fence c w) fence 0 false w
  refine ⟨?_, ?_, ?_⟩
  · exact fenceMiss_sts (u.stopLate fence c w) fence 0 false w
      ((stopLate_keeps _ _ _ _ (Keeps.refl u)).inv (fenceMisses_inv fence c init s h))
  · exact lateMiss_missed fence c u w
  · unfold RaisesB at hb ⊢
    rwa [hu, fenceMisses_healthSent, ← hu] at hb

/-- The first late window of a tick without a miss fills a free TICK_FENCE_MISS (R40). -/
theorem fenceMisses_first (fence c w : Nat) (late : List Nat) (s : State) (h : Inv s) (hm : s.run.fenceMissed = false)
    (hv : s.fbit TICK_FENCE_MISS_VALID = false) {f : Fld} {x : Nat}
    (hf : (f, x) ∈ (TICK_FENCE_MISS_VALID, 1) :: missFields s fence 0 false w) :
    (fenceMisses fence c (w :: late) s).fget f = x % 2 ^ f.wd := by
  have hb : f.base = TICK_FENCE_MISS.base := missFields_base s fence _ _ _ _ hf
  have h1 : (lateMiss fence c s w).fget f = x % 2 ^ f.wd :=
    fenceMiss_first (s.stopLate fence c w) fence 0 false w ((stopLate_keeps _ _ _ _ (Keeps.refl s)).inv h) hm hv hf
  rw [← h1, fenceMisses, List.foldl_cons, ← fenceMisses]
  unfold State.fget
  rw [hb, fenceMisses_again fence c late _ (lateMiss_missed fence c s w)]

/-! ### FENCE_CHECK -/

/-- The state on the fence's cycle: what was due by the fence is no longer awaited. -/
def fencePassed (s : State) (fence c : Nat) : State :=
  (s.advance c).withRun (fun r => { r with items := r.items.filter (fun i => i.2.2 != fence) })

theorem fencePassed_onlyParts (s : State) (fence c : Nat) : OnlyParts [.now, .run] s (fencePassed s fence c) := by
  intro p hp
  cases p <;> simp [Part.Same, fencePassed] at hp ⊢

/-- Passing a fence lets nothing more fall due. -/
theorem dueBy_fencePassed (s : State) (fence c d : Nat) : (fencePassed s fence c).dueBy d = s.dueBy d := rfl

/-- With nothing late, only time passes at a fence. -/
theorem upTo_fencePassed (s : State) (fence c : Nat) (h : s.dueBy c = []) :
    (fencePassed s fence c).upTo c = fencePassed s fence c := by
  rw [upTo_settled _ c ((dueBy_fencePassed s fence c c).trans h)]
  simp [State.advance, fencePassed, State.withRun]

/-- FENCE_CHECK of a fence of the running plan, where nothing else comes about by its cycle. -/
theorem exec_fenceCheck {f : ImageFile} {p : PlanImg} {s : State} (fence : Nat) (stalled : List Nat) (h : InTick f p s)
    (hf : fence < planNfence p) (hs : Settled s (s.edgeAt + fenceOff (p.fences.getD fence 0))) :
    let c := s.edgeAt + fenceOff (p.fences.getD fence 0)
    exec (.fenceCheck fence stalled) s =
      .next ((fenceMisses fence c (s.lateWindows fence c stalled) (fencePassed s fence c)).upTo c) := by
  obtain ⟨⟨hrun, -⟩, hactive, -, hplan⟩ := h
  change Host.Outcome.next _ = _
  simp only [State.live, State.runs, hrun, hactive, State.fenceCheck, hplan, hf, if_true, upTo_settled _ _ hs]
  rfl

/-- Settles O7: the misses of a fence in turn, by induction on its late windows, which miss one by one in ascending order
(assumption log 108). -/
theorem fenceMissesAreCountedAndTheFirstRecorded : Obligations.FenceMissesAreCountedAndTheFirstRecorded := by
  intro s f p fence stalled hin hfence c late hsettled
  have hpassed : OnlyParts [.now, .run] s (fencePassed s fence c) := fencePassed_onlyParts s fence c
  have hinv : Inv (fencePassed s fence c) := hin.1.2
  refine ⟨fenceMisses fence c late (fencePassed s fence c), exec_fenceCheck fence stalled hin hfence hsettled,
    fenceMisses_now .., fenceMisses_items .., fenceMisses_flights .., fenceMisses_counts _ _ _ _ hinv, ?_,
    fenceMisses_raise _ _ _ _ hinv, ?_, fenceMisses_again fence c late (fencePassed s fence c),
    (hpassed.mono (by decide)).trans (fenceMisses_onlyParts _ _ _ _), fenceMisses_onlyRegs _ _ _ _⟩
  · intro hnone
    rw [hnone]
    exact ⟨upTo_fencePassed s fence c hsettled, hpassed⟩
  · intro w rest hlate hmissed hvalid
    have hfirst (q : Fld × Nat) (hq : q ∈ (TICK_FENCE_MISS_VALID, 1) :: missFields s fence 0 false w) :
        (fenceMisses fence c (w :: rest) (fencePassed s fence c)).fget q.1 = q.2 % 2 ^ q.1.wd :=
      fenceMisses_first fence c w rest (fencePassed s fence c) hinv hmissed hvalid hq
    simp only [missFields, List.forall_mem_cons] at hfirst
    obtain ⟨hset, hfence, -, hdata, -, hsource, htick, -⟩ := hfirst
    rw [hlate]
    exact ⟨hfence, hsource, hdata, htick, by rw [State.fbit, hset]; rfl⟩

end Sys2Proof.Laws
end

section
/-! PROOFS. ATOMIC_ADD (R152 to R155, R172, R326, R408): what an arrival out of order does, what an arrival in order stores or
adds, and the statement. -/

namespace Sys2Proof.Safety

open Sys2Proof.Machine

theorem OnlyParts.ite {ps : List Part} {s a b : State} {c : Prop} [Decidable c] (ha : OnlyParts ps s a)
    (hb : OnlyParts ps s b) : OnlyParts ps s (if c then a else b) := by split <;> assumption

theorem OnlyBytes.of_mem {s t : State} (a n : Nat) (h : t.mem = s.mem) : OnlyBytes a n s t :=
  fun b _ => Laws.rd8_congr h b

theorem OnlyBytes.trans {a n : Nat} {s t u : State} (h : OnlyBytes a n s t) (g : OnlyBytes a n t u) : OnlyBytes a n s u :=
  fun b hb => (g b hb).trans (h b hb)

end Sys2Proof.Safety

namespace Sys2Proof.Laws

open Sys2Proof.Machine Sys2Proof.Safety

/-! ### The registers of a hub (R172, R569) -/

theorem die_base (f : Fld) (k : Nat) : (f.die k).base = f.base + k * 0x1000000 := rfl

theorem die_base_inj (f g : Fld) (k : Nat) : (f.die k).base = (g.die k).base ↔ f.base = g.base := by
  rw [die_base, die_base, Nat.add_right_cancel_iff]

theorem die_lo (f : Fld) (k : Nat) : (f.die k).lo = f.lo := by cases f; rfl

theorem die_wd (f : Fld) (k : Nat) : (f.die k).wd = f.wd := by cases f; rfl

theorem die_width {f : Fld} (k : Nat) (h : f.lo + f.wd ≤ 64) : (f.die k).lo + (f.die k).wd ≤ 64 := by
  rwa [die_lo, die_wd]

/-- The registers that notes touch lie below the hubs' windows. -/
theorem hubReg_not_note (f : Fld) (k : Nat) (h : 0x8000000 ≤ f.base) : (f.die k).base ∉ noteRegs := by
  intro hm
  have hlow : ∀ b ∈ noteRegs, b < 0x8000000 := by decide
  have hlt := hlow _ hm
  rw [die_base] at hlt
  omega

/-- Fields of one die lie as the fields of die 0 do. -/
theorem apart_die (f g : Fld) (k : Nat) : apart (f.die k) (g.die k) = apart f g := by
  have hb : ((g.die k).base != (f.die k).base) = (g.base != f.base) := by
    rw [Bool.eq_iff_iff, bne_iff_ne, bne_iff_ne, ne_eq, ne_eq, die_base_inj]
  simp only [apart, hb, die_lo, die_wd]

theorem FieldsApart.die {l : List Fld} (h : FieldsApart l) (k : Nat) : FieldsApart (l.map (fun f => f.die k)) := by
  constructor
  · intro f m
    obtain ⟨g, hg, rfl⟩ := List.mem_map.1 m
    exact die_width k (h.1 g hg)
  · refine List.pairwise_map.2 (h.2.imp (fun {f g} e => ?_))
    rw [apart_die]
    exact e

/-! ### The first reduction event, and the non-finite bit (R172, R511) -/

/-- The fields of HUB_RED_FIRST after an event. -/
def redFields (s : State) (stack plan part cause : Nat) : List (Fld × Nat) :=
  [(HUB_RED_FIRST_PLAN.die (stack / 4), plan), (HUB_RED_FIRST_PART.die (stack / 4), part),
   (HUB_RED_FIRST_STACK.die (stack / 4), stack % 4), (HUB_RED_FIRST_CAUSE.die (stack / 4), cause),
   (HUB_RED_FIRST_TICK.die (stack / 4), s.tickCount)]

theorem redFirst_eq (s : State) (stack plan part cause : Nat) : s.redFirst stack plan part cause =
    s.record (HUB_RED_FIRST_VALID.die (stack / 4)) (redFields s stack plan part cause) := rfl

theorem redFields_apart (s : State) (stack plan part cause : Nat) : FieldsApart
    (HUB_RED_FIRST_VALID.die (stack / 4) :: (redFields s stack plan part cause).map Prod.fst) :=
  have h : FieldsApart [HUB_RED_FIRST_VALID, HUB_RED_FIRST_PLAN, HUB_RED_FIRST_PART, HUB_RED_FIRST_STACK,
      HUB_RED_FIRST_CAUSE, HUB_RED_FIRST_TICK] := ⟨by decide, by decide⟩
  h.die (stack / 4)

/-- A free HUB_RED_FIRST takes the event. -/
theorem redFirst_first (s : State) (stack plan part cause : Nat) (h : tabWf resetOf s.regs = true)
    (hv : s.fbit (HUB_RED_FIRST_VALID.die (stack / 4)) = false) {f : Fld} {x : Nat}
    (hf : (f, x) ∈ (HUB_RED_FIRST_VALID.die (stack / 4), 1) :: redFields s stack plan part cause) :
    (s.redFirst stack plan part cause).fget f = x % 2 ^ f.wd :=
  fget_record_mem _ s h (redFields_apart s stack plan part cause) hv hf

theorem only_redFirst {ks : List Nat} (s : State) (stack plan part cause : Nat)
    (h : (HUB_RED_FIRST.die (stack / 4)).base ∈ ks) : OnlyRegs ks s (s.redFirst stack plan part cause) := by
  refine only_record s _ _ h (fun p m => ?_)
  have hb : ∀ p ∈ redFields s stack plan part cause, p.1.base = (HUB_RED_FIRST.die (stack / 4)).base := by
    simp only [redFields, List.forall_mem_cons, die_base_inj]
    exact ⟨rfl, rfl, rfl, rfl, rfl, fun q m => nomatch m⟩
  exact hb p m ▸ h

theorem only_setNonfinite {ks : List Nat} (s : State) (p : Nat) (hn : HULL_NF_FIRST.base ∈ ks)
    (hs : HULL_FAULT_STS.base ∈ ks) : OnlyRegs ks s (s.setNonfinite p) := by
  have hmark : OnlyRegs ks s (s.withRun (fun r => { r with nonfinite := true })) := OnlyRegs.same (OnlyRegs.refl _ s) rfl
  unfold State.setNonfinite
  refine OnlyRegs.ite (OnlyRegs.refl _ s)
    (hmark.trans ((only_record _ HULL_NF_FIRST_VALID _ hn ?_).trans (only_setSts _ 0 HULL_FAULT_STS_NONFINITE hs)))
  simp only [List.forall_mem_cons]
  exact ⟨hn, hn, hn, hn, fun q m => nomatch m⟩

/-! ### An arrival out of order (R154) -/

/-- An order fault: counted, recorded as the first event when none is, and class B. -/
def orderFaulted (s : State) (stack plan part : Nat) : State :=
  ((s.fadd (HUB_RED_CNT0_ORDER_FAULTS.die (stack / 4)) 1).redFirst stack plan part 0).classBSts (8 + stack / 4)
    (HUB_RED_STS_ORDER_FAULT.die (stack / 4))

section
variable (s : State) (stack plan part : Nat)

/-- What the class B fault writes besides its status bit is notes. -/
theorem only_orderRaised (u : State) : OnlyRegs ((HUB_RED_STS_ORDER_FAULT.die (stack / 4)).base :: noteRegs) u
    (u.classBSts (8 + stack / 4) (HUB_RED_STS_ORDER_FAULT.die (stack / 4))) :=
  only_classBSts _ _ _ (List.subset_cons_self _ _) (List.mem_cons_self ..)

/-- A field of a reduction register other than the status is not touched when an order fault is raised. -/
theorem orderRaised_fget (u : State) (f : Fld) (hf : 0x8000000 ≤ f.base) (hs : f.base ≠ HUB_RED_STS.base) :
    (u.classBSts (8 + stack / 4) (HUB_RED_STS_ORDER_FAULT.die (stack / 4))).fget (f.die (stack / 4)) =
      u.fget (f.die (stack / 4)) := by
  refine (only_orderRaised stack u).fget _ (fun hm => ?_)
  rcases List.mem_cons.1 hm with e | m
  · exact hs ((die_base_inj ..).1 e)
  · exact hubReg_not_note f _ hf m

theorem orderFaulted_onlyParts : OnlyParts [.regs, .run, .fifos, .cap, .outbox] s (orderFaulted s stack plan part) := by
  intro p hp
  cases p <;> simp [Part.Same, orderFaulted] at hp ⊢

theorem orderFaulted_counts (h : tabWf resetOf s.regs = true) :
    Counts (HUB_RED_CNT0_ORDER_FAULTS.die (stack / 4)) 1 s (orderFaulted s stack plan part) := by
  have hr := only_redFirst (ks := [(HUB_RED_FIRST.die (stack / 4)).base])
    (s.fadd (HUB_RED_CNT0_ORDER_FAULTS.die (stack / 4)) 1) stack plan part 0 (List.mem_cons_self ..)
  unfold Counts orderFaulted
  rw [orderRaised_fget stack _ HUB_RED_CNT0_ORDER_FAULTS (by decide) (by decide), hr.fget]
  · exact fget_fadd_same s _ 1 h (die_width _ (by decide))
  · rw [List.mem_singleton, die_base_inj]
    decide

theorem orderFaulted_sts (h : Inv s) :
    (orderFaulted s stack plan part).fbit (HUB_RED_STS_ORDER_FAULT.die (stack / 4)) = true := by
  have hw := ((redFirst_keeps _ stack plan part 0
    (fadd_keeps _ (HUB_RED_CNT0_ORDER_FAULTS.die (stack / 4)) 1 (Keeps.refl s))).inv h).1.1
  unfold State.fbit orderFaulted
  rw [fget_classBSts _ _ _ hw (die_width _ (by decide)) rfl (hubReg_not_note _ _ (by decide))]
  rfl

theorem orderFaulted_raisesB : RaisesB s (orderFaulted s stack plan part) := by
  unfold RaisesB orderFaulted
  rw [classBSts_run]
  by_cases h : s.run.healthSent = true <;> simp [h]

/-- The first event of a hub is recorded. -/
theorem orderFaulted_first (h : tabWf resetOf s.regs = true)
    (hv : s.fbit (HUB_RED_FIRST_VALID.die (stack / 4)) = false) :
    (orderFaulted s stack plan part).fbit (HUB_RED_FIRST_VALID.die (stack / 4)) = true ∧
      (orderFaulted s stack plan part).fget (HUB_RED_FIRST_CAUSE.die (stack / 4)) = 0 ∧
      Shows (HUB_RED_FIRST_PLAN.die (stack / 4)) plan (orderFaulted s stack plan part) ∧
      Shows (HUB_RED_FIRST_PART.die (stack / 4)) part (orderFaulted s stack plan part) := by
  set u := s.fadd (HUB_RED_CNT0_ORDER_FAULTS.die (stack / 4)) 1 with hu
  have hc : u.fbit (HUB_RED_FIRST_VALID.die (stack / 4)) = false :=
    ((only_fadd (ks := [(HUB_RED_CNT0_ORDER_FAULTS.die (stack / 4)).base]) s _ 1 (List.mem_cons_self ..)).fbit _
      (by rw [List.mem_singleton, die_base_inj]; decide)).trans hv
  have hfirst (q : Fld × Nat)
      (hq : (q.1.die (stack / 4), q.2) ∈ (HUB_RED_FIRST_VALID.die (stack / 4), 1) :: redFields u stack plan part 0)
      (hb : q.1.base = HUB_RED_FIRST.base) :
      (orderFaulted s stack plan part).fget (q.1.die (stack / 4)) = q.2 % 2 ^ (q.1.die (stack / 4)).wd := by
    have hlow : 0x8000000 ≤ q.1.base := hb ▸ by decide
    have hsts : q.1.base ≠ HUB_RED_STS.base := hb ▸ by decide
    unfold orderFaulted
    rw [orderRaised_fget stack _ q.1 hlow hsts]
    exact redFirst_first u stack plan part 0 (wf_fset _ _ _ h) hc hq
  refine ⟨?_, ?_, ?_, ?_⟩
  · rw [State.fbit, hfirst (HUB_RED_FIRST_VALID, 1) (by simp [redFields]) rfl, die_wd]
    rfl
  · exact (hfirst (HUB_RED_FIRST_CAUSE, 0) (by simp [redFields]) rfl).trans (Nat.zero_mod _)
  · exact hfirst (HUB_RED_FIRST_PLAN, plan) (by simp [redFields]) rfl
  · exact hfirst (HUB_RED_FIRST_PART, part) (by simp [redFields]) rfl

end

/-! ### The addition of an arrival (R152, R153) -/

/-- A wide read depends on its own bytes alone. -/
theorem rdN_congr_range {s t : State} : ∀ (n a : Nat), (∀ b, a ≤ b → b < a + n → t.rd8 b = s.rd8 b) →
    t.rdN a n = s.rdN a n
  | 0, _, _ => rfl
  | n + 1, a, h => by
    rw [State.rdN, State.rdN, h a (Nat.le_refl a) (by omega),
      rdN_congr_range n (a + 1) (fun b h1 h2 => h b (by omega) (by omega))]

/-- One element of an arrival added at its place in the chunk. -/
def addElem (addr : Nat) (data : Granule) (acc : State × EvCnt) (i : Nat) : State × EvCnt :=
  let r := fpAdd (acc.1.rdN (addr + 4 * i) 4) (bvBits data (32 * i) 32)
  (acc.1.wrN (addr + 4 * i) 4 r.bits, acc.2.add r.ev)

/-- The `n` elements of an arrival from element `lo`, added in turn. -/
def addRun (addr : Nat) (data : Granule) (lo n : Nat) (acc : State × EvCnt) : State × EvCnt :=
  (range' lo n).foldl (addElem addr data) acc

section
variable (addr : Nat) (data : Granule)

theorem addElems_eq (s : State) : s.addElems addr data = addRun addr data 0 64 (s, {}) := rfl

theorem addRun_succ (lo n : Nat) (acc : State × EvCnt) :
    addRun addr data lo (n + 1) acc = addRun addr data (lo + 1) n (addElem addr data acc lo) := rfl

theorem rd8_addElem_out (acc : State × EvCnt) (i b : Nat) (h : b < addr + 4 * i ∨ addr + 4 * i + 4 ≤ b) :
    (addElem addr data acc i).1.rd8 b = acc.1.rd8 b := rd8_wrN_out b 4 acc.1 _ _ h

theorem rdN_addElem_same (acc : State × EvCnt) (i : Nat) (h : tabWf memDefault acc.1.mem = true) :
    (addElem addr data acc i).1.rdN (addr + 4 * i) 4 =
      (fpAdd (acc.1.rdN (addr + 4 * i) 4) (bvBits data (32 * i) 32)).bits % 2 ^ 32 := rdN_wrN 4 acc.1 _ _ h

theorem addElem_other (acc : State × EvCnt) (i : Nat) :
    (addElem addr data acc i).1 = { acc.1 with mem := (addElem addr data acc i).1.mem } := wrN_other 4 acc.1 _ _

theorem rd8_addRun_out (b : Nat) : ∀ (n lo : Nat) (acc : State × EvCnt),
    (b < addr + 4 * lo ∨ addr + 4 * (lo + n) ≤ b) → (addRun addr data lo n acc).1.rd8 b = acc.1.rd8 b
  | 0, _, _, _ => rfl
  | n + 1, lo, acc, h => by
    rw [addRun_succ, rd8_addRun_out b n (lo + 1) _ (by omega), rd8_addElem_out addr data acc lo b (by omega)]

theorem addRun_other : ∀ (n lo : Nat) (acc : State × EvCnt),
    (addRun addr data lo n acc).1 = { acc.1 with mem := (addRun addr data lo n acc).1.mem }
  | 0, _, _ => rfl
  | n + 1, lo, acc => by
    rw [addRun_succ, addRun_other n (lo + 1), addElem_other addr data acc lo]

/-- Each element of a run is what stood there plus the arrival's element, rounded once. -/
theorem rdN_addRun : ∀ (n lo : Nat) (acc : State × EvCnt), tabWf memDefault acc.1.mem = true →
    ∀ i, lo ≤ i → i < lo + n → (addRun addr data lo n acc).1.rdN (addr + 4 * i) 4 =
      (fpAdd (acc.1.rdN (addr + 4 * i) 4) (bvBits data (32 * i) 32)).bits % 2 ^ 32
  | 0, _, _, _, i, h1, h2 => absurd h2 (Nat.not_lt.2 h1)
  | n + 1, lo, acc, h, i, h1, h2 => by
    rw [addRun_succ]
    rcases Nat.eq_or_lt_of_le h1 with rfl | hlt
    · rw [rdN_congr_range 4 _ (fun b _ hb => rd8_addRun_out addr data b n (lo + 1) _ (by omega)),
        rdN_addElem_same addr data acc lo h]
    · rw [rdN_addRun n (lo + 1) _ (wf_wrN 4 _ _ _ h) i hlt (by omega),
        rdN_congr_range 4 _ (fun b hb _ => rd8_addElem_out addr data acc lo b (by omega))]

theorem rdN_addElems (s : State) (h : tabWf memDefault s.mem = true) (i : Nat) (hi : i < 64) :
    (s.addElems addr data).1.rdN (addr + 4 * i) 4 =
      (fpAdd (s.rdN (addr + 4 * i) 4) (bvBits data (32 * i) 32)).bits % 2 ^ 32 :=
  rdN_addRun addr data 64 0 (s, {}) h i (Nat.zero_le i) (by omega)

theorem addElems_onlyBytes (s : State) : OnlyBytes addr 256 s (s.addElems addr data).1 :=
  fun b hb => rd8_addRun_out addr data b 64 0 (s, {}) (by omega)

theorem addElems_other (s : State) : (s.addElems addr data).1 = { s with mem := (s.addElems addr data).1.mem } :=
  addRun_other addr data 64 0 (s, {})

end

/-! ### The events of an addition (R153, R172) -/

/-- The registers that the events of an addition touch. -/
def redEventRegs (k : Nat) : List Nat :=
  [(HUB_RED_CNT1.die k).base, (HUB_RED_STS.die k).base, (HUB_RED_FIRST.die k).base, HULL_NF_FIRST.base,
   HULL_FAULT_STS.base]

theorem mem_redEventRegs {f : Fld} (k : Nat) (h : f.base ∈ [HUB_RED_CNT1.base, HUB_RED_STS.base, HUB_RED_FIRST.base]) :
    (f.die k).base ∈ redEventRegs k := by
  simp only [List.mem_cons, List.not_mem_nil, or_false] at h
  rcases h with h | h | h <;> simp [redEventRegs, die_base_inj, h]

/-- The count of arrivals is none of them. -/
theorem redCnt0_not_event (k : Nat) : (HUB_RED_CNT0.die k).base ∉ redEventRegs k := by
  have hcnt1 : HUB_RED_CNT0.base ≠ HUB_RED_CNT1.base := by decide
  have hsts : HUB_RED_CNT0.base ≠ HUB_RED_STS.base := by decide
  have hfirst : HUB_RED_CNT0.base ≠ HUB_RED_FIRST.base := by decide
  have hnf : HULL_NF_FIRST.base < HUB_RED_CNT0.base := by decide
  have hfault : HULL_FAULT_STS.base < HUB_RED_CNT0.base := by decide
  simp only [redEventRegs, List.mem_cons, List.not_mem_nil, or_false, die_base_inj, hcnt1, hsts, hfirst, false_or]
  rw [die_base]
  omega

/-- Only events of an addition at hub `k` have been noted. -/
structure RedNoted (k : Nat) (s t : State) : Prop where
  regs : OnlyRegs (redEventRegs k) s t
  parts : OnlyParts [.regs, .run, .outbox] s t

theorem RedNoted.refl (k : Nat) (s : State) : RedNoted k s s := ⟨OnlyRegs.refl _ s, OnlyParts.refl _ s⟩

theorem RedNoted.trans {k : Nat} {s t u : State} (h : RedNoted k s t) (g : RedNoted k t u) : RedNoted k s u :=
  ⟨h.regs.trans g.regs, h.parts.trans g.parts⟩

theorem RedNoted.ite {k : Nat} {s a b : State} {c : Prop} [Decidable c] (ha : RedNoted k s a) (hb : RedNoted k s b) :
    RedNoted k s (if c then a else b) := by split <;> assumption

theorem redNoted_fadd (k : Nat) (s : State) (f : Fld) (n : Nat) (hf : f.base ∈ redEventRegs k) :
    RedNoted k s (s.fadd f n) := by
  refine ⟨only_fadd s f n hf, fun p hp => ?_⟩
  cases p <;> simp [Part.Same] at hp ⊢

theorem redNoted_setSts (k : Nat) (s : State) (p : Nat) (f : Fld) (hf : f.base ∈ redEventRegs k) :
    RedNoted k s (s.setSts p f) := by
  refine ⟨only_setSts s p f hf, fun p hp => ?_⟩
  cases p <;> simp [Part.Same] at hp ⊢

theorem redNoted_redFirst (s : State) (stack plan part cause : Nat) :
    RedNoted (stack / 4) s (s.redFirst stack plan part cause) := by
  refine ⟨only_redFirst s stack plan part cause (by simp [redEventRegs]), fun p hp => ?_⟩
  cases p <;> simp [Part.Same] at hp ⊢

theorem redNoted_setNonfinite (k : Nat) (s : State) (p : Nat) : RedNoted k s (s.setNonfinite p) := by
  refine ⟨only_setNonfinite s p (by simp [redEventRegs]) (by simp [redEventRegs]), fun p hp => ?_⟩
  cases p <;> simp [Part.Same] at hp ⊢

/-- Saturated elements noted. -/
def satNoted (s : State) (stack plan part n : Nat) : State :=
  if n == 0 then s
  else ((s.fadd (HUB_RED_CNT1_SATURATED.die (stack / 4)) n).setSts (8 + stack / 4)
    (HUB_RED_STS_SATURATED.die (stack / 4))).redFirst stack plan part 2

/-- Propagated NaNs noted. -/
def nanPropNoted (s : State) (stack n : Nat) : State :=
  if n == 0 then s else s.fadd (HUB_RED_CNT1_NAN_PROP.die (stack / 4)) 1

/-- Generated NaNs noted. -/
def nanGenNoted (s : State) (stack plan part n : Nat) : State :=
  if n == 0 then s
  else (((s.fadd (HUB_RED_CNT1_NAN_GEN.die (stack / 4)) 1).setSts (8 + stack / 4)
    (HUB_RED_STS_NAN_GEN.die (stack / 4))).redFirst stack plan part 1).setNonfinite (8 + stack / 4)

/-- The events of an addition noted. -/
def eventsNoted (s : State) (stack plan part : Nat) (e : EvCnt) : State :=
  nanGenNoted (nanPropNoted (satNoted s stack plan part e.sat) stack e.nanProp) stack plan part e.nanGen

section
variable (s : State) (stack plan part : Nat)

theorem satNoted_noted (n : Nat) : RedNoted (stack / 4) s (satNoted s stack plan part n) :=
  .ite (.refl _ s) (((redNoted_fadd _ s _ n (mem_redEventRegs _ (by decide))).trans
    (redNoted_setSts _ _ _ _ (mem_redEventRegs _ (by decide)))).trans (redNoted_redFirst _ stack plan part 2))

theorem nanPropNoted_noted (n : Nat) : RedNoted (stack / 4) s (nanPropNoted s stack n) :=
  .ite (.refl _ s) (redNoted_fadd _ s _ 1 (mem_redEventRegs _ (by decide)))

theorem nanGenNoted_noted (n : Nat) : RedNoted (stack / 4) s (nanGenNoted s stack plan part n) :=
  .ite (.refl _ s) ((((redNoted_fadd _ s _ 1 (mem_redEventRegs _ (by decide))).trans
    (redNoted_setSts _ _ _ _ (mem_redEventRegs _ (by decide)))).trans
    (redNoted_redFirst _ stack plan part 1)).trans (redNoted_setNonfinite _ _ _))

theorem eventsNoted_noted (e : EvCnt) : RedNoted (stack / 4) s (eventsNoted s stack plan part e) :=
  ((satNoted_noted s stack plan part e.sat).trans (nanPropNoted_noted _ stack _)).trans (nanGenNoted_noted _ stack plan part _)

theorem eventsNoted_mem (e : EvCnt) : (eventsNoted s stack plan part e).mem = s.mem :=
  (eventsNoted_noted s stack plan part e).parts .mem (by decide)

end

/-! ### A chunk is written (R152, R153, R326, R341) -/

/-- Between `s` and `t` the chunk at `addr` has been written at hub `k`: what each chunk expects and HUB_RED_CNT0 stand. -/
structure ChunkWritten (k addr : Nat) (s t : State) : Prop where
  part : t.hub.part = s.hub.part
  counted : t.regGet (HUB_RED_CNT0.die k).base = s.regGet (HUB_RED_CNT0.die k).base
  bytes : OnlyBytes addr 256 s t
  parts : OnlyParts [.regs, .mem, .run, .hub, .outbox] s t

theorem ChunkWritten.refl (k addr : Nat) (s : State) : ChunkWritten k addr s s :=
  ⟨rfl, rfl, .of_mem _ _ rfl, OnlyParts.refl _ s⟩

theorem ChunkWritten.trans {k addr : Nat} {s t u : State} (h : ChunkWritten k addr s t) (g : ChunkWritten k addr t u) :
    ChunkWritten k addr s u :=
  ⟨g.part.trans h.part, g.counted.trans h.counted, h.bytes.trans g.bytes, h.parts.trans g.parts⟩

/-- A change of memory within the chunk, and of nothing else. -/
theorem ChunkWritten.of_mem {addr : Nat} {s t : State} (k : Nat) (h : t = { s with mem := t.mem })
    (hb : OnlyBytes addr 256 s t) : ChunkWritten k addr s t := by
  refine ⟨by rw [h], by rw [h]; rfl, hb, fun p hp => ?_⟩
  cases p <;> simp [Part.Same] at hp ⊢ <;> rw [h]

theorem RedNoted.chunkWritten {k : Nat} {s t : State} (h : RedNoted k s t) (addr : Nat) : ChunkWritten k addr s t :=
  ⟨congrArg HubSt.part (h.parts .hub (by decide)), h.regs _ (redCnt0_not_event k), .of_mem _ _ (h.parts .mem (by decide)),
    h.parts.mono (by decide)⟩

/-- The count of arrivals lies below the poison table. -/
theorem redCnt0_ne_poison (k j : Nat) : (HUB_RED_CNT0.die k).base ≠ ((HUB_POISON.die k).ix j).base := by
  have hlow : HUB_RED_CNT0.base < HUB_POISON.base := by decide
  have hix : ((HUB_POISON.die k).ix j).base = (HUB_POISON.die k).base + j * (HUB_POISON.die k).stride := rfl
  rw [hix, die_base, die_base]
  omega

theorem poisonDrop_mem (s : State) (stack g : Nat) : (s.poisonDrop stack g).mem = s.mem := by
  unfold State.poisonDrop
  split <;> simp

/-- A granule that leaves the poison table touches only the table (R341). -/
theorem poisonDrop_chunkWritten (s : State) (stack g addr : Nat) :
    ChunkWritten (stack / 4) addr s (s.poisonDrop stack g) := by
  have hmem : (s.poisonDrop stack g).mem = s.mem := poisonDrop_mem s stack g
  unfold State.poisonDrop at hmem ⊢
  split at hmem
  · exact .refl _ _ s
  · next j _ =>
    refine ⟨by simp [State.withHub], ?_, .of_mem _ _ hmem, fun p hp => ?_⟩
    · exact (regGet_fset_ne _ _ _ _ (mt (die_base_inj ..).1 (by decide))).trans
        (regGet_regPut_ne s _ _ _ (redCnt0_ne_poison (stack / 4) j))
    · cases p <;> simp [Part.Same] at hp ⊢

theorem hubStore_control (s : State) (stack g : Nat) (data : Granule) (h : inControlRegion (granuleAddr stack g) 256 = true) :
    s.hubStore stack g data = s := if_pos h

theorem hubStore_outside (s : State) (stack g : Nat) (data : Granule)
    (h : inControlRegion (granuleAddr stack g) 256 = false) :
    s.hubStore stack g data = (s.wrGranule (granuleAddr stack g) data).poisonDrop stack g := if_neg (by simp [h])

theorem hubStore_chunkWritten (s : State) (stack g : Nat) (data : Granule) :
    ChunkWritten (stack / 4) (granuleAddr stack g) s (s.hubStore stack g data) := by
  cases h : inControlRegion (granuleAddr stack g) 256 with
  | true =>
    rw [hubStore_control s stack g data h]
    exact .refl _ _ s
  | false =>
    rw [hubStore_outside s stack g data h]
    exact (ChunkWritten.of_mem _ (wrGranule_other s _ data) (fun b hb => rd8_wrGranule_out s _ b data hb)).trans
      (poisonDrop_chunkWritten _ stack g _)

/-- What is stored outside the control region reads back. -/
theorem hubStore_rdGranule (s : State) (stack g : Nat) (data : Granule) (h : tabWf memDefault s.mem = true)
    (hc : inControlRegion (granuleAddr stack g) 256 = false) :
    (s.hubStore stack g data).rdGranule (granuleAddr stack g) = data := by
  rw [hubStore_outside s stack g data hc, State.rdGranule, rdN_congr (rd8_congr (poisonDrop_mem _ stack g))]
  exact rdGranule_wrGranule s _ data h

/-! ### An arrival in order (R152 to R155, R408) -/

/-- The part that a chunk expects after the one due (assumption log 145). -/
def partAfter (s : State) (plan addr : Nat) : Nat :=
  if (s.ownRelayPart plan).isSome then s.planParts plan
  else if s.nextPart plan addr + 1 == s.planParts plan then 0 else s.nextPart plan addr + 1

/-- An arrival in order is counted, and its chunk expects the next part. -/
def partTaken (s : State) (stack g c plan : Nat) : State :=
  let addr := granuleAddr stack g
  (((s.withHub (fun h => { h with
      part := (plan, addr, partAfter s plan addr) :: h.part.filter (fun p => !(p.1 == plan && p.2.1 == addr)) })).fadd
    (HUB_RED_CNT0_ARRIVALS.die (stack / 4)) 1).unqueue stack g).wrote addr 256 (c + 496)

/-- An arrival added to its chunk, outside the control region. -/
def partAdded (s : State) (stack g plan part : Nat) (data : Granule) : State :=
  if inControlRegion (granuleAddr stack g) 256 then s
  else eventsNoted (s.addElems (granuleAddr stack g) data).1 stack plan part (s.addElems (granuleAddr stack g) data).2

/-- An arrival in order, applied: part 0 of a chunk that is no relay's is stored, any other part is added. -/
def partApplied (s : State) (stack g c plan part : Nat) (data : Granule) : State :=
  if (s.ownRelayPart plan).isNone && s.nextPart plan (granuleAddr stack g) == 0 then
    (partTaken s stack g c plan).hubStore stack g data
  else partAdded (partTaken s stack g c plan) stack g plan part data

/-- An arrival lands: out of order it is an order fault, in order it is applied. -/
theorem atomicAdd_eq (s : State) (stack g c plan part : Nat) (data : Granule) :
    s.atomicAdd stack g c plan part data =
      if part % 65536 != (s.upTo c).nextPart plan (granuleAddr stack g) % 65536 then
        orderFaulted (s.upTo c) stack plan part
      else partApplied (s.upTo c) stack g c plan part data := rfl

section
variable (s : State) (stack g c plan part : Nat) (data : Granule)

theorem partTaken_mem : (partTaken s stack g c plan).mem = s.mem := rfl

theorem partTaken_onlyParts : OnlyParts [.regs, .tiles, .hub] s (partTaken s stack g c plan) := by
  intro p hp
  cases p <;> simp [Part.Same, partTaken, State.withHub, State.wrote, State.withTiles] at hp ⊢

theorem partTaken_counts (h : tabWf resetOf s.regs = true) :
    Counts (HUB_RED_CNT0_ARRIVALS.die (stack / 4)) 1 s (partTaken s stack g c plan) :=
  fget_fadd_same (s.withHub _) _ 1 h (die_width _ (by decide))

/-- A chunk expects what was last noted for it. -/
theorem nextPart_of_part {t : State} {addr n : Nat} {l : List (Nat × Nat × Nat)} (h : t.hub.part = (plan, addr, n) :: l) :
    t.nextPart plan addr = n := by simp [State.nextPart, h]

theorem partAdded_outside (h : inControlRegion (granuleAddr stack g) 256 = false) : partAdded s stack g plan part data =
    eventsNoted (s.addElems (granuleAddr stack g) data).1 stack plan part (s.addElems (granuleAddr stack g) data).2 :=
  if_neg (by simp [h])

theorem partAdded_chunkWritten :
    ChunkWritten (stack / 4) (granuleAddr stack g) s (partAdded s stack g plan part data) := by
  cases h : inControlRegion (granuleAddr stack g) 256 with
  | true => rw [partAdded, if_pos h]; exact .refl _ _ s
  | false =>
    rw [partAdded_outside s stack g plan part data h]
    exact (ChunkWritten.of_mem _ (addElems_other _ data s) (addElems_onlyBytes _ data s)).trans
      ((eventsNoted_noted _ stack plan part _).chunkWritten _)

/-- Each element of the chunk is what stood there plus the arrival's, rounded once. -/
theorem partAdded_rdN (h : tabWf memDefault s.mem = true) (hc : inControlRegion (granuleAddr stack g) 256 = false)
    (i : Nat) (hi : i < 64) : (partAdded s stack g plan part data).rdN (granuleAddr stack g + 4 * i) 4 =
      (fpAdd (s.rdN (granuleAddr stack g + 4 * i) 4) (bvBits data (32 * i) 32)).bits % 2 ^ 32 := by
  rw [partAdded_outside s stack g plan part data hc, rdN_congr (rd8_congr (eventsNoted_mem _ stack plan part _)),
    rdN_addElems _ data s h i hi]

theorem partApplied_stores (hr : (s.ownRelayPart plan).isSome = false) (hw : s.nextPart plan (granuleAddr stack g) = 0) :
    partApplied s stack g c plan part data = (partTaken s stack g c plan).hubStore stack g data :=
  if_pos (by simpa [hw] using hr)

theorem partApplied_adds (h : (s.ownRelayPart plan).isSome = true ∨ s.nextPart plan (granuleAddr stack g) ≠ 0) :
    partApplied s stack g c plan part data = partAdded (partTaken s stack g c plan) stack g plan part data := by
  refine if_neg (fun e => ?_)
  rw [Bool.and_eq_true, beq_iff_eq, Option.isNone_iff_eq_none] at e
  obtain ⟨hnone, hzero⟩ := e
  rcases h with h | h
  · rw [hnone] at h
    exact Bool.false_ne_true h
  · exact h hzero

/-- In the control region an arrival writes nothing (R326). -/
theorem partApplied_control (h : inControlRegion (granuleAddr stack g) 256 = true) :
    partApplied s stack g c plan part data = partTaken s stack g c plan := by
  unfold partApplied partAdded
  rw [hubStore_control _ stack g data h, if_pos h, ite_self]

theorem partApplied_chunkWritten :
    ChunkWritten (stack / 4) (granuleAddr stack g) (partTaken s stack g c plan) (partApplied s stack g c plan part data) := by
  unfold partApplied
  split
  · exact hubStore_chunkWritten ..
  · exact partAdded_chunkWritten ..

theorem partApplied_nextPart : (partApplied s stack g c plan part data).nextPart plan (granuleAddr stack g) =
    partAfter s plan (granuleAddr stack g) :=
  nextPart_of_part plan (partApplied_chunkWritten s stack g c plan part data).part

theorem partApplied_counts (h : tabWf resetOf s.regs = true) :
    Counts (HUB_RED_CNT0_ARRIVALS.die (stack / 4)) 1 s (partApplied s stack g c plan part data) := by
  unfold Counts State.fget
  rw [(die_base_inj HUB_RED_CNT0_ARRIVALS HUB_RED_CNT0 (stack / 4)).2 rfl,
    (partApplied_chunkWritten s stack g c plan part data).counted]
  exact partTaken_counts s stack g c plan h

theorem partApplied_onlyBytes : OnlyBytes (granuleAddr stack g) 256 s (partApplied s stack g c plan part data) :=
  (OnlyBytes.of_mem _ _ (partTaken_mem s stack g c plan)).trans (partApplied_chunkWritten s stack g c plan part data).bytes

theorem partApplied_onlyParts :
    OnlyParts [.regs, .mem, .run, .tiles, .hub, .outbox] s (partApplied s stack g c plan part data) :=
  ((partTaken_onlyParts s stack g c plan).mono (by decide)).trans
    ((partApplied_chunkWritten s stack g c plan part data).parts.mono (by decide))

end

/-! ### ATOMIC_ADD -/

theorem advance_onlyParts (s : State) (c : Nat) : OnlyParts [.now] s (s.advance c) := by
  intro p hp
  cases p <;> simp [Part.Same] at hp ⊢

/-- ATOMIC_ADD at a granule that memory has, on a module that runs a tick with nothing due by the add's cycle. -/
theorem exec_atomicAdd {s : State} {at_ stack g : Nat} (plan part : Nat) (data : Granule) (hrun : s.power.halt = .no)
    (hactive : s.run.active = true) (hstack : stack < 16) (hg : g < 201326592) (hs : Settled s (s.mclkAt at_)) :
    exec (.atomicAdd at_ stack g plan part data) s =
      .next (if part % 65536 = s.nextPart plan (granuleAddr stack g) % 65536 then
          partApplied (s.advance (s.mclkAt at_)) stack g (s.mclkAt at_) plan part data
        else orderFaulted (s.advance (s.mclkAt at_)) stack plan part) := by
  have hok : granOk stack g = true := by simp [granOk, stackGranules, hstack, hg]
  have hwant : (s.advance (s.mclkAt at_)).nextPart plan (granuleAddr stack g) = s.nextPart plan (granuleAddr stack g) := rfl
  change execAtomicAdd at_ stack g plan part data s = _
  simp only [execAtomicAdd, hok, State.live, State.runs, hrun, hactive, if_true, atomicAdd_eq, upTo_settled _ _ hs, hwant,
    bne_iff_ne, ite_not]

/-- Settles O33: an arrival out of order is an order fault; one in order is taken, and stored or added. After the last part a
chunk expects what `partAfter` says (assumption log 145). -/
theorem atomicAddsArriveInPartOrder : Obligations.AtomicAddsArriveInPartOrder := by
  intro s at_ stack g plan part data hawake hactive hstack hg hsettled k addr want relay
  obtain ⟨hrun, hinv⟩ := hawake
  obtain ⟨hregs, hmem, -⟩ := hinv.1
  have hexec := exec_atomicAdd plan part data hrun hactive hstack hg hsettled
  set c := s.mclkAt at_
  have hnow : OnlyParts [.now] s (s.advance c) := advance_onlyParts s c
  refine ⟨_, hexec, ?_⟩
  by_cases horder : part % 65536 = s.nextPart plan (granuleAddr stack g) % 65536
  · rw [if_pos horder]
    have hparts := partApplied_onlyParts (s.advance c) stack g c plan part data
    refine ⟨hparts .now (by decide), fun _ => ⟨?_, ?_, ?_, ?_, ?_⟩, fun h => absurd horder h, ?_,
      (hnow.mono (by decide)).trans (hparts.mono (by decide))⟩
    · intro hout hrelay hzero
      rw [partApplied_stores (s.advance c) stack g c plan part data hrelay hzero]
      exact hubStore_rdGranule _ stack g data hmem hout
    · intro hout hadd i hi
      rw [partApplied_adds (s.advance c) stack g c plan part data hadd]
      exact partAdded_rdN (partTaken (s.advance c) stack g c plan) stack g plan part data hmem hout i hi
    · intro hin
      rw [partApplied_control (s.advance c) stack g c plan part data hin]
      rfl
    · refine (partApplied_nextPart (s.advance c) stack g c plan part data).trans ?_
      simp only [partAfter, beq_iff_eq]
      rfl
    · exact partApplied_counts (s.advance c) stack g c plan part data hregs
    · exact partApplied_onlyBytes (s.advance c) stack g c plan part data
  · rw [if_neg horder]
    have hparts := orderFaulted_onlyParts (s.advance c) stack plan part
    refine ⟨hparts .now (by decide), fun h => absurd h horder, fun _ => ⟨hparts .mem (by decide), hparts .hub (by decide),
      hparts .tiles (by decide), orderFaulted_counts (s.advance c) stack plan part hregs,
      orderFaulted_sts (s.advance c) stack plan part hinv, orderFaulted_raisesB (s.advance c) stack plan part,
      orderFaulted_first (s.advance c) stack plan part hregs⟩, .of_mem _ _ (hparts .mem (by decide)),
      (hnow.mono (by decide)).trans (hparts.mono (by decide))⟩

end Sys2Proof.Laws
end

section
/-! PROOFS. Steps: what the front command's step is, that every command keeps the invariant, the queue and the clock, and which
commands stop. -/

namespace Sys2Proof.Laws

open Sys2Proof.Machine Sys2Proof.Safety

/-! ### Reset and the step -/

/-- Settles O1: both sides are the same match on the queue. -/
theorem stepRunsFrontCommand : Obligations.StepRunsFrontCommand := by
  intro c rest s h
  rw [step, h]

/-- Settles O3: every table of the reset state is empty. -/
theorem resetIsSound : Obligations.ResetIsSound :=
  ⟨⟨⟨rfl, rfl, rfl, rfl, rfl, rfl, rfl, rfl, rfl, rfl, .nil⟩, rfl, rfl, rfl, rfl⟩, rfl, fun _ => rfl, fun _ => rfl⟩

/-! ### What every command keeps -/

/-- Every command keeps the queue, the clock and the invariant. -/
theorem exec_keeps (c : Instr) (s : State) : OutKeeps s (exec c s) := by
  cases c with
  | tickEdge => exact execTickEdge_keeps s
  | fenceCheck fence stalled => exact execFenceCheck_keeps fence stalled s
  | dataFenceCheck idx => exact execDataFenceCheck_keeps idx s
  | ingestClose => exact execIngestClose_keeps s
  | ingestEnd others => exact execIngestEnd_keeps others s
  | lossFence sum => exact execLossFence_keeps sum s
  | healthSend => exact execHealthSend_keeps s
  | healthRecord at_ link r => exact execHealthRecord_keeps at_ link r s
  | commitToken at_ frame => exact execCommitToken_keeps at_ frame s
  | markerSend => exact execMarkerSend_keeps s
  | marker at_ tick => exact execMarker_keeps at_ tick s
  | markerLost => exact execMarkerLost_keeps s
  | abortNotice at_ link origin cause => exact execAbortNotice_keeps at_ link origin cause s
  | captureNotice at_ tick cycle => exact execCaptureNotice_keeps at_ tick cycle s
  | layoutSwitch phase => exact execLayoutSwitch_keeps phase s
  | mmStream tile w => exact execMmStream_keeps tile w s
  | mmIncell tile w => exact execMmIncell_keeps tile w s
  | lateIssue tile w cycle late => exact execLateIssue_keeps tile w cycle late s
  | load tile w => exact execLoad_keeps tile w s
  | readout tile w => exact execReadout_keeps tile w s
  | chain tile w arrival => exact execChain_keeps tile w arrival s
  | convert tile w loc scales iota => exact execConvert_keeps tile w loc scales iota s
  | scale tile w loc => exact execScale_keeps tile w loc s
  | tree tile w elems => exact execTree_keeps tile w elems s
  | sumsq tile w loc bucket => exact execSumsq_keeps tile w loc bucket s
  | lookupAdd tile w dest => exact execLookupAdd_keeps tile w dest s
  | rowcol tile w rDst cDst => exact execRowcol_keeps tile w rDst cDst s
  | update tile w aux => exact execUpdate_keeps tile w aux s
  | copy tile w => exact execCopy_keeps tile w s
  | decay tile w => exact execDecay_keeps tile w s
  | ewise tile w loc => exact execEwise_keeps tile w loc s
  | endStream tile w => exact execEndStream_keeps tile w s
  | hubRead at_ stack granule a => exact execHubRead_keeps at_ stack granule a s
  | hubWrite at_ stack granule data a => exact execHubWrite_keeps at_ stack granule data a s
  | hubRetry stack granule a => exact execHubRetry_keeps stack granule a s
  | atomicAdd at_ stack granule plan part data => exact execAtomicAdd_keeps at_ stack granule plan part data s
  | refresh window => exact execRefresh_keeps window s
  | scrub at_ stack a => exact execScrub_keeps at_ stack a s
  | elasticWindow at_ stack granule write a => exact execElasticWindow_keeps at_ stack granule write a s
  | linkSend at_ link kind src => exact execLinkSend_keeps at_ link kind src s
  | frameReceived at_ link due seen => exact execFrameReceived_keeps at_ link due seen s
  | nak at_ link seq => exact execNak_keeps at_ link seq s
  | linkDown at_ link => exact execLinkDown_keeps at_ link s
  | elasticFrame at_ link ok flit => exact execElasticFrame_keeps at_ link ok flit s
  | linkTraining at_ link mode legacy prop neighbour nlink hash => exact execLinkTraining_keeps at_ link mode legacy prop neighbour nlink hash s
  | solverDescRead job => exact execSolverDescRead_keeps job s
  | solverJobStart job => exact execSolverJobStart_keeps job s
  | publish die c0 => exact execPublish_keeps die c0 s
  | deadlineMiss die c0 => exact execDeadlineMiss_keeps die c0 s
  | carrySweep die => exact execCarrySweep_keeps die s
  | solverDatapathFault at_ die cracker corrected => exact execSolverDatapathFault_keeps at_ die cracker corrected s
  | podFault at_ tile lpod => exact execPodFault_keeps at_ tile lpod s
  | spareParity at_ tile => exact execSpareParity_keeps at_ tile s
  | shadowCompare tile w seq seen => exact execShadowCompare_keeps tile w seq seen s
  | lockstepMismatch at_ => exact execLockstepMismatch_keeps at_ s
  | lockstepReloadDone checks => exact execLockstepReloadDone_keeps checks s
  | attendExpiry page => exact execAttendExpiry_keeps page s
  | classDTimeout at_ page cartFails flashFails => exact execClassDTimeout_keeps at_ page cartFails flashFails s
  | terminalStop at_ cause window cartFails flashFails => exact execTerminalStop_keeps at_ cause window cartFails flashFails s
  | capture => exact execCapture_keeps s
  | captureIn at_ => exact execCaptureIn_keeps at_ s
  | sag at_ cartFails flashFails bankLasts => exact execSag_keeps at_ cartFails flashFails bankLasts s
  | overVoltage at_ cartFails flashFails => exact execOverVoltage_keeps at_ cartFails flashFails s
  | overCurrent at_ cartFails flashFails => exact execOverCurrent_keeps at_ cartFails flashFails s
  | railFault at_ cartFails flashFails => exact execRailFault_keeps at_ cartFails flashFails s
  | inputLowReset at_ => exact execInputLowReset_keeps at_ s
  | holdupArmed at_ => exact execHoldupArmed_keeps at_ s
  | powerOverLimit at_ => exact execPowerOverLimit_keeps at_ s
  | thermalWarn at_ sensor value => exact execThermalWarn_keeps at_ sensor value s
  | thermalTerminal at_ sensor value cartFails flashFails => exact execThermalTerminal_keeps at_ sensor value cartFails flashFails s
  | clkLost at_ => exact execClkLost_keeps at_ s
  | enDrop at_ cartFails flashFails => exact execEnDrop_keeps at_ cartFails flashFails s
  | powerCycle at_ => exact execPowerCycle_keeps at_ s
  | coldReset at_ time fails ports => exact execColdReset_keeps at_ time fails ports s
  | warmReset at_ => exact execWarmReset_keeps at_ s
  | hotReset at_ => exact execHotReset_keeps at_ s
  | flrPf0 at_ => exact execFlrPf0_keeps at_ s
  | flrPf1 at_ => exact execFlrPf1_keeps at_ s
  | flrPf2 at_ => exact execFlrPf2_keeps at_ s
  | flrPf3 at_ => exact execFlrPf3_keeps at_ s
  | commandWord at_ offset size word => exact execCommandWord_keeps at_ offset size word s
  | commandPacket at_ join => exact execCommandPacket_keeps at_ join s
  | dropped at_ => exact execDropped_keeps at_ s
  | loadImage at_ ctx tag source length => exact execLoadImage_keeps at_ ctx tag source length s
  | loadImageDone at_ ctx image => exact execLoadImageDone_keeps at_ ctx image s
  | unloadImage at_ ctx tag => exact execUnloadImage_keeps at_ ctx tag s
  | startJob at_ ctx tag seed src len join => exact execStartJob_keeps at_ ctx tag seed src len join s
  | ingest at_ ctx tag step source tokens bytes slot => exact execIngest_keeps at_ ctx tag step source tokens bytes slot s
  | ingestDone at_ ctx step slot ok => exact execIngestDone_keeps at_ ctx step slot ok s
  | exportCmd at_ ctx tag kind bufs => exact execExport_keeps at_ ctx tag kind bufs s
  | exportStart at_ => exact execExportStart_keeps at_ s
  | exportDone at_ => exact execExportDone_keeps at_ s
  | preemptAtEdge at_ ctx tag tick => exact execPreemptAtEdge_keeps at_ ctx tag tick s
  | preemptNow at_ ctx tag => exact execPreemptNow_keeps at_ ctx tag s
  | preempted => exact execPreempted_keeps s
  | resume at_ ctx tag => exact execResume_keeps at_ ctx tag s
  | resumed join => exact execResumed_keeps join s
  | endJob at_ ctx tag => exact execEndJob_keeps at_ ctx tag s
  | pin at_ ctx tag addr len => exact execPin_keeps at_ ctx tag addr len s
  | unpin at_ ctx tag addr len => exact execUnpin_keeps at_ ctx tag addr len s
  | atsInvalidation at_ fn addr len tag => exact execAtsInvalidation_keeps at_ fn addr len tag s
  | dmaChunk at_ eng res => exact execDmaChunk_keeps at_ eng res s
  | priResponse at_ grp ok => exact execPriResponse_keeps at_ grp ok s
  | prefetch at_ tensor => exact execPrefetch_keeps at_ tensor s
  | writeBack at_ tensor => exact execWriteBack_keeps at_ tensor s
  | expanderLost at_ expander removed => exact execExpanderLost_keeps at_ expander removed s
  | lenderLost at_ lender => exact execLenderLost_keeps at_ lender s
  | fifoPacketWrite at_ fifo typ ctx payload => exact execFifoPacketWrite_keeps at_ fifo typ ctx payload s
  | fifoPacketTake at_ fifo seen join => exact execFifoPacketTake_keeps at_ fifo seen join s
  | idleTimeout fifo => exact execIdleTimeout_keeps fifo s
  | ptrMismatch at_ fifo => exact execPtrMismatch_keeps at_ fifo s
  | ringWrite at_ fifo => exact execRingWrite_keeps at_ fifo s
  | ringInterruptTimer fifo => exact execRingInterruptTimer_keeps fifo s
  | mailboxGo at_ => exact execMailboxGo_keeps at_ s
  | mailboxDone at_ msg => exact execMailboxDone_keeps at_ msg s
  | mctpMessage at_ port msg => exact execMctpMessage_keeps at_ port msg s
  | holdRelease => exact execHoldRelease_keeps s
  | captureNow at_ => exact execCaptureNow_keeps at_ s
  | armEdge => exact execArmEdge_keeps s
  | disarm => exact execDisarm_keeps s
  | rearm => exact execRearm_keeps s
  | captureSend => exact execCaptureSend_keeps s
  | attendAck page => exact execAttendAck_keeps page s
  | capOverride => exact execCapOverride_keeps s
  | pivotLogClear die => exact execPivotLogClear_keeps die s
  | hdmWrite at_ piece value => exact execHdmWrite_keeps at_ piece value s
  | clksrcWrite at_ src => exact execClksrcWrite_keeps at_ src s
  | clkLocked at_ => exact execClkLocked_keeps at_ s
  | pwrIdle => exact execPwrIdle_keeps s
  | pwrFallow => exact execPwrFallow_keeps s
  | pwrDormant => exact execPwrDormant_keeps s
  | pwrOff cartFails flashFails => exact execPwrOff_keeps cartFails flashFails s
  | wake at_ => exact execWake_keeps at_ s
  | wakeDone fails => exact execWakeDone_keeps fails s
  | harvest => exact execHarvest_keeps s
  | harvestStart => exact execHarvestStart_keeps s
  | harvestDone at_ cartFails flashFails => exact execHarvestDone_keeps at_ cartFails flashFails s
  | harvestAbandoned => exact execHarvestAbandoned_keeps s
  | release => exact execRelease_keeps s
  | readRecord ok => exact execReadRecord_keeps ok s
  | authenticate => exact execAuthenticate_keeps s
  | cartridgeInsert c => exact execCartridgeInsert_keeps c s
  | cartridgeRemoved => exact execCartridgeRemoved_keeps s
  | routineRecord kind cartFails flashFails => exact execRoutineRecord_keeps kind cartFails flashFails s
  | marginHbm arg => exact execMarginHbm_keeps arg s
  | marginLink arg => exact execMarginLink_keeps arg s
  | laneReturnHbm arg outer => exact execLaneReturnHbm_keeps arg outer s
  | laneReturnLink arg outer => exact execLaneReturnLink_keeps arg outer s
  | ppr arg => exact execPpr_keeps arg s
  | scanEnter arg => exact execScanEnter_keeps arg s
  | enroll => exact execEnroll_keeps s
  | fieldClose outer => exact execFieldClose_keeps outer s
  | tapInstruction code => exact execTapInstruction_keeps code s
  | tapReset at_ ports => exact execTapReset_keeps at_ ports s
  | traceRecord at_ source data full => exact execTraceRecord_keeps at_ source data full s
  | aliasWrite at_ view off value outer => exact execAliasWrite_keeps at_ view off value outer s
  | regWrite at_ via off size value outer => exact execRegWrite_keeps at_ via off size value outer s
  | regReadClear at_ via off size => exact execRegReadClear_keeps at_ via off size s
  | accessReloadHeld at_ via off size write outer => exact execAccessReloadHeld_keeps at_ via off size write outer s
  | powerStateEntered => exact execPowerStateEntered_keeps s
  | warmResetRelease at_ ports => exact execWarmResetRelease_keeps at_ ports s
  | hdmAccess at_ offset len write => exact execHdmAccess_keeps at_ offset len write s
  | snoop at_ addr => exact execSnoop_keeps at_ addr s
  | accessError at_ via off size write outer => exact execAccessError_keeps at_ via off size write outer s
  | sensorSample at_ readings => exact execSensorSample_keeps at_ readings s
  | outsideRating at_ => exact execOutsideRating_keeps at_ s
  | tapDataRegister at_ value write outer => exact execTapDataRegister_keeps at_ value write outer s
  | translationCompletion at_ fn eng q addr size granted => exact execTranslationCompletion_keeps at_ fn eng q addr size granted s
  | undefinedOpcode tile w => exact execUndefinedOpcode_keeps tile w s

/-- Settles O4: a cycle that passes and every command keep the invariant. -/
theorem everyStepKeepsTheInvariant : Obligations.EveryStepKeepsTheInvariant := by
  intro s t hinv hstep
  unfold step at hstep
  split at hstep
  · next =>
    cases hstep
    exact (upTo_keeps s (s.now + 1) (Keeps.refl s)).inv hinv
  · next c rest _ => exact (exec_keeps c { s with pending := rest } t hstep).inv hinv

/-- Settles O5: the queue and the clock are part of what every command keeps. -/
theorem commandsKeepTheQueueAndTheClock : Obligations.CommandsKeepTheQueueAndTheClock := by
  intro c s t h
  have k := exec_keeps c s t h
  exact ⟨k.pending, k.now⟩

/-! ### Which commands stop (R322, R323, R327) -/

/-- A command that answers a next state neither stops nor is refused. -/
theorem next_runs {o : Host.Outcome State Fault Refusal} {t : State} (h : o = .next t) :
    (∀ r, o ≠ .refused r) ∧ ((∃ x, o = .fault x) ↔ False) := by
  subst h
  exact ⟨fun _ => nofun, iff_false_intro (fun ⟨_, e⟩ => nomatch e)⟩

/-- A command that runs where a check holds, and else stops, stops exactly where the check fails. -/
theorem checked_stops {o : Host.Outcome State Fault Refusal} {b p : Prop} [Decidable b] {t : State} {f : Fault}
    (h : o = if b then .next t else .fault f) (hp : b ↔ p) :
    (∀ r, o ≠ .refused r) ∧ ((∃ x, o = .fault x) ↔ ¬ p) := by
  subst h
  by_cases hb : b
  · simp [hb, hp.1 hb]
  · rw [if_neg hb]
    exact ⟨fun _ => nofun, fun _ h => hb (hp.2 h), fun _ => ⟨f, rfl⟩⟩

theorem granOk_iff (stack g : Nat) : granOk stack g = true ↔ stack < 16 ∧ g < 201326592 := by
  rw [granOk, stackGranules, Bool.and_eq_true, decide_eq_true_eq, decide_eq_true_eq]

/-- Settles O6: five commands check the granule or the stack that they name, every other one answers a next state. -/
theorem commandsStopOnlyOutsideMemory : Obligations.CommandsStopOnlyOutsideMemory := by
  intro c s
  cases c with
  | hubRead at_ stack g a => exact checked_stops rfl (granOk_iff stack g)
  | hubWrite at_ stack g d a => exact checked_stops rfl (granOk_iff stack g)
  | atomicAdd at_ stack g plan part d => exact checked_stops rfl (granOk_iff stack g)
  | elasticWindow at_ stack g wr a => exact checked_stops rfl (granOk_iff stack g)
  | scrub at_ stack a => exact checked_stops rfl Iff.rfl
  | _ => exact next_runs rfl

end Sys2Proof.Laws
end

section
/-! PROOFS. Faults and reads: what a fault leaves in the tick's record and in the attend timers, and how a field reads after the
operations that faults and statuses use. -/

namespace Sys2Proof.Safety

open Sys2Proof.Machine

/-! ### The frame of one operation after others -/

theorem OnlyParts.then {ps qs : List Part} {s t u : State} (h : OnlyParts ps s t) (g : OnlyParts qs t u)
    (hs : qs ⊆ ps) : OnlyParts ps s u := h.trans (g.mono hs)

theorem OnlyRegs.then {ks ls : List Nat} {s t u : State} (h : OnlyRegs ks s t) (g : OnlyRegs ls t u)
    (hs : ls ⊆ ks) : OnlyRegs ks s u := h.trans (g.mono hs)

theorem OnlyParts.onlyRegs {ps : List Part} {s t : State} (h : OnlyParts ps s t) (hr : .regs ∉ ps) (ks : List Nat) :
    OnlyRegs ks s t := fun k _ => Laws.regGet_congr (h .regs hr) k

end Sys2Proof.Safety

namespace Sys2Proof.Laws

open Sys2Proof.Machine Sys2Proof.Safety

/-! ### Running a command on a module that runs -/

/-- On a module that runs, a command is its operation. -/
theorem live_runs {s : State} (h : s.power.halt = .no) (op : State → State) : s.live op = op s := by
  simp [State.live, State.runs, h]

/-! ### The frame of one operation -/

theorem withRun_onlyParts (s : State) (f : TickRun → TickRun) : OnlyParts [.run] s (s.withRun f) := by
  intro p hp
  cases p <;> simp [Part.Same] at hp ⊢

theorem withJob_onlyParts (s : State) (f : JobRun → JobRun) : OnlyParts [.job] s (s.withJob f) := by
  intro p hp
  cases p <;> simp [Part.Same] at hp ⊢

theorem withTiles_onlyParts (s : State) (f : Tiles → Tiles) : OnlyParts [.tiles] s (s.withTiles f) := by
  intro p hp
  cases p <;> simp [Part.Same] at hp ⊢

theorem withHost_onlyParts (s : State) (f : HostSt → HostSt) : OnlyParts [.host] s (s.withHost f) := by
  intro p hp
  cases p <;> simp [Part.Same] at hp ⊢

theorem withHub_onlyParts (s : State) (f : HubSt → HubSt) : OnlyParts [.hub] s (s.withHub f) := by
  intro p hp
  cases p <;> simp [Part.Same] at hp ⊢

theorem withPower_onlyParts (s : State) (f : PowerSt → PowerSt) : OnlyParts [.power] s (s.withPower f) := by
  intro p hp
  cases p <;> simp [Part.Same] at hp ⊢

theorem withSolver_onlyParts (s : State) (f : SolverSt → SolverSt) : OnlyParts [.solver] s (s.withSolver f) := by
  intro p hp
  cases p <;> simp [Part.Same] at hp ⊢

theorem withBench_onlyParts (s : State) (f : BenchSt → BenchSt) : OnlyParts [.bench] s (s.withBench f) := by
  intro p hp
  cases p <;> simp [Part.Same] at hp ⊢

theorem withLink_onlyParts (s : State) (l : Nat) (f : LinkSt → LinkSt) : OnlyParts [.links] s (s.withLink l f) := by
  intro p hp
  cases p <;> simp [Part.Same] at hp ⊢

theorem setCtx_onlyParts (s : State) (c : Nat) (f : Ctx → Ctx) : OnlyParts [.ctxs] s (s.setCtx c f) := by
  intro p hp
  cases p <;> simp [Part.Same] at hp ⊢

theorem fset_onlyParts (s : State) (f : Fld) (x : Nat) : OnlyParts [.regs] s (s.fset f x) := by
  intro p hp
  cases p <;> simp [Part.Same] at hp ⊢

theorem fadd_onlyParts (s : State) (f : Fld) (n : Nat) : OnlyParts [.regs] s (s.fadd f n) := by
  intro p hp
  cases p <;> simp [Part.Same] at hp ⊢

theorem fsetAll_onlyParts (s : State) (l : List (Fld × Nat)) : OnlyParts [.regs] s (s.fsetAll l) := by
  intro p hp
  cases p <;> simp [Part.Same] at hp ⊢

theorem record_onlyParts (s : State) (v : Fld) (l : List (Fld × Nat)) : OnlyParts [.regs] s (s.record v l) := by
  intro p hp
  cases p <;> simp [Part.Same] at hp ⊢

theorem setSts_onlyParts (s : State) (p : Nat) (f : Fld) : OnlyParts [.regs, .outbox] s (s.setSts p f) := by
  intro p hp
  cases p <;> simp [Part.Same] at hp ⊢

theorem event_onlyParts (s : State) (typ ctx : Nat) (l : List Nat) : OnlyParts [.regs, .fifos, .outbox] s (s.event typ ctx l) := by
  intro p hp
  cases p <;> simp [Part.Same] at hp ⊢

theorem setNonfinite_onlyParts (s : State) (p : Nat) : OnlyParts [.regs, .run, .outbox] s (s.setNonfinite p) := by
  intro p hp
  cases p <;> simp [Part.Same] at hp ⊢

theorem classBSts_onlyParts (s : State) (p : Nat) (f : Fld) : OnlyParts [.regs, .run, .fifos, .cap, .outbox] s (s.classBSts p f) := by
  intro p hp
  cases p <;> simp [Part.Same] at hp ⊢

theorem classCWith_onlyParts (s : State) (p : Nat) (f : Fld) (cause fifo : Nat) : OnlyParts [.regs, .run, .attend, .fifos, .cap, .outbox] s (s.classCWith p f cause fifo) := by
  intro p hp
  cases p <;> simp [Part.Same] at hp ⊢

theorem classC_onlyParts (s : State) (p : Nat) (f : Fld) : OnlyParts [.regs, .run, .attend, .fifos, .cap, .outbox] s (s.classC p f) := by
  intro p hp
  cases p <;> simp [Part.Same] at hp ⊢

theorem capTrigger_onlyParts (s : State) (c src : Nat) : OnlyParts [.regs, .cap, .outbox] s (s.capTrigger c src) := by
  intro p hp
  cases p <;> simp [Part.Same] at hp ⊢

theorem capFault_onlyParts (s : State) (c : Nat) : OnlyParts [.regs, .cap, .outbox] s (s.capFault c) := by
  intro p hp
  cases p <;> simp [Part.Same] at hp ⊢

theorem traceAB_onlyParts (s : State) (c p : Nat) (f : Fld) : OnlyParts [.regs, .fifos, .cap, .outbox] s (s.traceAB c p f) := by
  intro p hp
  cases p <;> simp [Part.Same] at hp ⊢

theorem sendFrames_onlyParts (s : State) (links : List Nat) (c kind flit : Nat) : OnlyParts [.links, .outbox] s (s.sendFrames links c kind flit) := by
  intro p hp
  cases p <;> simp [Part.Same] at hp ⊢

theorem linkSend_onlyParts (s : State) (l c kind flit : Nat) : OnlyParts [.links, .outbox] s (s.linkSend l c kind flit) := by
  intro p hp
  cases p <;> simp [Part.Same] at hp ⊢

theorem setFifo_onlyParts (s : State) (i : Nat) (f : Fifo → Fifo) : OnlyParts [.fifos] s (s.setFifo i f) := by
  intro p hp
  cases p <;> simp [Part.Same] at hp ⊢

/-! ### Fields read after an operation on another part -/

@[simp] theorem fget_withRun (s : State) (f : TickRun → TickRun) (g : Fld) : (s.withRun f).fget g = s.fget g := fget_congr (by simp) g

@[simp] theorem fget_withJob (s : State) (f : JobRun → JobRun) (g : Fld) : (s.withJob f).fget g = s.fget g := fget_congr (by simp) g

@[simp] theorem fget_withTiles (s : State) (f : Tiles → Tiles) (g : Fld) : (s.withTiles f).fget g = s.fget g := fget_congr (by simp) g

@[simp] theorem fget_withHub (s : State) (f : HubSt → HubSt) (g : Fld) : (s.withHub f).fget g = s.fget g := fget_congr (by simp) g

@[simp] theorem fget_withHost (s : State) (f : HostSt → HostSt) (g : Fld) : (s.withHost f).fget g = s.fget g := fget_congr (by simp) g

@[simp] theorem fget_withPower (s : State) (f : PowerSt → PowerSt) (g : Fld) : (s.withPower f).fget g = s.fget g := fget_congr (by simp) g

@[simp] theorem fget_withSolver (s : State) (f : SolverSt → SolverSt) (g : Fld) : (s.withSolver f).fget g = s.fget g := fget_congr (by simp) g

@[simp] theorem fget_withBench (s : State) (f : BenchSt → BenchSt) (g : Fld) : (s.withBench f).fget g = s.fget g := fget_congr (by simp) g

@[simp] theorem fget_withLink (s : State) (l : Nat) (f : LinkSt → LinkSt) (g : Fld) : (s.withLink l f).fget g = s.fget g := fget_congr (by simp) g

@[simp] theorem fget_advance (s : State) (c : Nat) (g : Fld) : (s.advance c).fget g = s.fget g := fget_congr (by simp) g

@[simp] theorem fget_sendFrames (s : State) (links : List Nat) (c kind flit : Nat) (g : Fld) : (s.sendFrames links c kind flit).fget g = s.fget g := fget_congr (by simp) g

/-! ### Status bits (R489) -/

theorem fbit_of_fget {s : State} {f : Fld} (h : s.fget f = 1) : s.fbit f = true := by rw [State.fbit, h]; rfl

theorem fbit_setSts (s : State) (p : Nat) (f : Fld) (h : tabWf resetOf s.regs = true) (hw : f.lo + f.wd ≤ 64)
    (h1 : f.wd = 1) : (s.setSts p f).fbit f = true := fbit_of_fget (fget_setSts s p f h hw h1)

theorem fbit_classBSts (s : State) (p : Nat) (f : Fld) (h : tabWf resetOf s.regs = true) (hw : f.lo + f.wd ≤ 64)
    (h1 : f.wd = 1) (hn : f.base ∉ noteRegs) : (s.classBSts p f).fbit f = true :=
  fbit_of_fget (fget_classBSts s p f h hw h1 hn)

theorem fbit_fset_one (s : State) (f : Fld) (h : tabWf resetOf s.regs = true) (hw : f.lo + f.wd ≤ 64) (h1 : f.wd = 1) :
    (s.fset f 1).fbit f = true := by
  rw [State.fbit, fget_fset_same s f 1 h hw, h1]
  rfl

/-! ### Class B and class C in the tick's record (R302, R490, R491) -/

theorem classBSts_raisesB (s : State) (p : Nat) (f : Fld) : RaisesB s (s.classBSts p f) := by
  unfold RaisesB
  rw [classBSts_run]
  by_cases h : s.run.healthSent = true <;> simp [h]

/-- A class C fault marks the tick to which R302 attributes it, and nothing else of the tick. -/
theorem classCWith_run (s : State) (p : Nat) (f : Fld) (cause fifo : Nat) : (s.classCWith p f cause fifo).run =
    if s.run.healthSent then { s.run with lateC := true } else { s.run with faultC := true } := by
  by_cases h : s.run.healthSent = true <;> simp [State.classCWith, State.markC, State.withRun, h]

theorem classC_run (s : State) (p : Nat) (f : Fld) : (s.classC p f).run =
    if s.run.healthSent then { s.run with lateC := true } else { s.run with faultC := true } := classCWith_run s p f 5 0

theorem classCWith_raisesC (s : State) (p : Nat) (f : Fld) (cause fifo : Nat) : RaisesC s (s.classCWith p f cause fifo) := by
  unfold RaisesC
  rw [classCWith_run]
  by_cases h : s.run.healthSent = true <;> simp [h]

theorem classC_raisesC (s : State) (p : Nat) (f : Fld) : RaisesC s (s.classC p f) := classCWith_raisesC s p f 5 0

/-- The non-finite bit is set once for a tick (R511). -/
theorem setNonfinite_run (s : State) (p : Nat) : (s.setNonfinite p).run = { s.run with nonfinite := true } := by
  unfold State.setNonfinite
  split
  next h => rw [← h]
  next => simp [State.withRun]

/-! ### Attend timers (R495) -/

theorem assocGet_attendStart (s : State) (p : Nat) (f : Fld) (cause fifo : Nat) :
    ((s.attendStart p f cause fifo).attendOf p).expiry.isSome = true := by
  simp [State.attendOf, State.attendStart, assocGet_assocPut_same]

/-- A class C fault leaves its block's attend timer running. -/
theorem classCWith_expiry (s : State) (p : Nat) (f : Fld) (cause fifo : Nat) :
    ((s.classCWith p f cause fifo).attendOf p).expiry.isSome = true := by
  have h : (s.classCWith p f cause fifo).attend =
      (((s.setSts p f).faultEvent 2 p f.base f.lo).attendStart p f cause fifo).attend := by simp [State.classCWith]
  rw [State.attendOf, h]
  exact assocGet_attendStart ..

end Sys2Proof.Laws
end

section
/-! PROOFS. The fences of LOSS and INGEST_END, INGEST_CLOSE and the health word (R200 to R204, R298 to R301, R392 to R396). -/

namespace Sys2Proof.Laws

open Sys2Proof.Machine Sys2Proof.Safety

/-! ### LOSS_FENCE -/

/-- The loss formed and shown, with what its test found. -/
def lossFormed (s : State) (l v : Nat) : State :=
  ((s.withRun (fun r => { r with loss := some l, spike := v == 1, lossNonfinite := v == 2 })).fset COMMIT_LOSS0_LAST l).withJob
    (fun j => { j with lastLoss := some l })

/-- A non-finite loss sets the non-finite bit (assumption log 25). -/
def lossMarked (s : State) (l v : Nat) : State := if v == 2 then (lossFormed s l v).setNonfinite 0 else lossFormed s l v

/-- The loss formed, tested and flagged. -/
def lossTaken (s : State) (l v : Nat) : State := if v == 0 then lossMarked s l v else (lossMarked s l v).setSts 0 COMMIT_STS_SPIKE

section
variable (s : State) (l v : Nat)

theorem lossFormed_keeps : Keeps s (lossFormed s l v) := withJob_keeps _ _ (fset_keeps _ _ (withRun_keeps _ _ (Keeps.refl s)))

theorem lossMarked_keeps : Keeps s (lossMarked s l v) :=
  Keeps.ite (setNonfinite_keeps _ _ (lossFormed_keeps s l v)) (lossFormed_keeps s l v)

theorem lossMarked_run : (lossMarked s l v).run =
    { s.run with loss := some l, spike := v == 1, lossNonfinite := v == 2, nonfinite := s.run.nonfinite || v == 2 } := by
  unfold lossMarked
  split
  next h => simp [setNonfinite_run, lossFormed, State.withRun, h]
  next h => simp [lossFormed, State.withRun, h]

theorem lossTaken_run : (lossTaken s l v).run = (lossMarked s l v).run := by
  unfold lossTaken
  split <;> simp

theorem lossTaken_job : (lossTaken s l v).job = { s.job with lastLoss := some l } := by
  unfold lossTaken lossMarked
  split <;> split <;> simp [lossFormed, State.withJob]

theorem lossTaken_onlyParts : OnlyParts [.regs, .run, .job, .outbox] s (lossTaken s l v) := by
  have hf : OnlyParts [.regs, .run, .job, .outbox] s (lossFormed s l v) := by
    intro p hp
    cases p <;> simp [Part.Same, lossFormed] at hp ⊢
  have hm : OnlyParts [.regs, .run, .job, .outbox] s (lossMarked s l v) := OnlyParts.ite (hf.trans (by
    intro p hp
    cases p <;> simp [Part.Same] at hp ⊢)) hf
  refine OnlyParts.ite hm (hm.trans ?_)
  intro p hp
  cases p <;> simp [Part.Same] at hp ⊢

theorem only_lossAfter : OnlyRegs [COMMIT_STS.base, HULL_NF_FIRST.base, HULL_FAULT_STS.base] (lossFormed s l v)
    (lossTaken s l v) := by
  have hm : OnlyRegs [COMMIT_STS.base, HULL_NF_FIRST.base, HULL_FAULT_STS.base] (lossFormed s l v) (lossMarked s l v) :=
    OnlyRegs.ite (only_setNonfinite _ _ (by decide) (by decide)) (OnlyRegs.refl _ _)
  exact OnlyRegs.ite hm (hm.trans (only_setSts _ _ _ (by decide)))

theorem only_lossFormed : OnlyRegs [COMMIT_LOSS0.base] s (lossFormed s l v) :=
  ((OnlyRegs.same (OnlyRegs.refl _ s) rfl).trans (only_fset (s.withRun _) COMMIT_LOSS0_LAST l (by decide))).same rfl

theorem lossTaken_shows (h : Inv s) : (lossTaken s l v).fget COMMIT_LOSS0_LAST = l % 2 ^ 32 :=
  ((only_lossAfter s l v).fget _ (by decide)).trans (fget_fset_same (s.withRun _) COMMIT_LOSS0_LAST l h.1.1 (by decide))

theorem lossTaken_spike (h : Inv s) (hv : v ≠ 0) : (lossTaken s l v).fbit COMMIT_STS_SPIKE = true := by
  rw [lossTaken, if_neg (by simpa using hv)]
  exact fbit_setSts _ _ _ ((lossMarked_keeps s l v).inv h).1.1 (by decide) rfl

end

/-- LOSS_FENCE in a tick that runs its step, with ν held. -/
theorem exec_lossFence {f : ImageFile} {p : PlanImg} {s : State} {nu : Nat} (sum : Word32) (h : InTick f p s)
    (hr : s.reloading = false) (hstep : s.run.stepRuns = true) (hnu : s.nu = some nu)
    (hs : Settled s (s.edgeAt + planFenceOf p 2)) :
    exec (.lossFence sum) s = .next (lossTaken (s.advance (s.edgeAt + planFenceOf p 2)) (fpMul sum.toNat nu).bits
      (lossTest f s.ccr (fpMul sum.toNat nu).bits)) := by
  obtain ⟨⟨hrun, -⟩, hactive, himg, hplan⟩ := h
  have himg' : (s.advance (s.edgeAt + planFenceOf p 2)).image = some f := himg
  have hnu' : (s.advance (s.edgeAt + planFenceOf p 2)).nu = some nu := hnu
  have hstep' : (s.advance (s.edgeAt + planFenceOf p 2)).run.stepRuns = true := hstep
  change Host.Outcome.next _ = _
  simp only [live_runs hrun, hactive, hr, hplan, upTo_settled _ _ hs, State.lossFence, himg', hnu', hstep']
  rfl

/-- Settles O12: the product is formed, shown and tested; a bad loss sets its status, a non-finite one the non-finite bit. -/
theorem lossFenceFormsAndTestsTheLoss : Obligations.LossFenceFormsAndTestsTheLoss := by
  intro s f p sum nu hin hr hstep hnu hs l
  set u := s.advance (s.edgeAt + planFenceOf p 2) with hu
  have hinv : Inv u := hin.1.2
  have hrun : (lossTaken u l (lossTest f s.ccr l)).run = _ := (lossTaken_run u l _).trans (lossMarked_run u l _)
  refine ⟨lossTaken u l (lossTest f s.ccr l), exec_lossFence sum hin hr hstep hnu hs, ?_, by rw [hrun], ?_,
    lossTaken_shows u l _ hinv, by rw [hrun], by rw [hrun], lossTaken_spike u l _ hinv, ?_, ?_, ?_⟩
  · exact (lossTaken_onlyParts u l _) .now (by decide)
  · rw [lossTaken_job]
  · intro hv
    rw [hrun, hv]
    exact Bool.or_true _
  · exact ((advance_onlyParts s _).mono (by decide)).trans ((lossTaken_onlyParts u l _).mono (by decide))
  · exact ((only_lossFormed u l _).mono (by decide)).trans ((only_lossAfter u l _).mono (by decide))

end Sys2Proof.Laws
end

section
/-! PROOFS. INGEST_CLOSE and INGEST_END (R200 to R204, R396). -/

namespace Sys2Proof.Laws

open Sys2Proof.Machine Sys2Proof.Safety

/-! ### Slot counts (R135, R202) -/

/-- The slot counts written to the table of one tile. -/
def slotPuts (l : List (Nat × Nat)) (tile : Nat) (t : List (Nat × Nat)) : List (Nat × Nat) :=
  l.foldl (fun acc kc => tabPut (fun _ => 0) acc (tile * 1024 + kc.1) kc.2) t

theorem slotPuts_wf (l : List (Nat × Nat)) (tile : Nat) (t : List (Nat × Nat)) (h : tabWf (fun _ => 0) t = true) :
    tabWf (fun _ => 0) (slotPuts l tile t) = true :=
  tabWf_foldl _ (fun _ _ k => tabWf_tabPut _ _ _ _ k) _ _ h

theorem slotPuts_other {k : Nat} : ∀ (l : List (Nat × Nat)) (tile : Nat) (t : List (Nat × Nat)),
    (∀ x ∈ l, k ≠ tile * 1024 + x.1) → tabGet (fun _ => 0) (slotPuts l tile t) k = tabGet (fun _ => 0) t k
  | [], _, _, _ => rfl
  | y :: l, tile, t, h =>
    (slotPuts_other l tile _ (fun x hx => h x (.tail _ hx))).trans (tabGet_tabPut_ne _ _ _ _ (h y (.head _)) t)

theorem slotPuts_mem {x : Nat × Nat} : ∀ (l : List (Nat × Nat)) (tile : Nat) (t : List (Nat × Nat)),
    tabWf (fun _ => 0) t = true → (l.map (fun y => y.1)).Nodup → x ∈ l →
    tabGet (fun _ => 0) (slotPuts l tile t) (tile * 1024 + x.1) = x.2
  | y :: l, tile, t, hwf, hnd, hx => by
    obtain ⟨hnew, hnd⟩ := List.nodup_cons.1 hnd
    rcases List.mem_cons.1 hx with e | hx
    · subst e
      refine (slotPuts_other l tile _ (fun z hz he => hnew ?_)).trans (tabGet_put _ _ _ _ hwf)
      have : x.1 = z.1 := by omega
      exact List.mem_map.2 ⟨z, hz, this.symm⟩
    · exact slotPuts_mem l tile _ (tabWf_tabPut _ _ _ _ hwf) hnd hx

/-- The slot counts written to some tiles in turn. -/
def tilePuts (l : List (Nat × Nat)) (tiles : List Nat) (t : List (Nat × Nat)) : List (Nat × Nat) :=
  tiles.foldl (fun acc n => slotPuts l n acc) t

theorem tilePuts_other {l : List (Nat × Nat)} {tile k : Nat} (hl : ∀ x ∈ l, x.1 < 1024) (hk : k < 1024) :
    ∀ (tiles : List Nat) (t : List (Nat × Nat)), tile ∉ tiles →
    tabGet (fun _ => 0) (tilePuts l tiles t) (tile * 1024 + k) = tabGet (fun _ => 0) t (tile * 1024 + k)
  | [], _, _ => rfl
  | n :: tiles, t, h => by
    refine (tilePuts_other hl hk tiles _ (fun m => h (.tail _ m))).trans (slotPuts_other l n t (fun x hx => ?_))
    have hn : tile ≠ n := fun e => h (e ▸ .head _)
    have := hl x hx
    omega

theorem tilePuts_mem {l : List (Nat × Nat)} {tile : Nat} {x : Nat × Nat} (hnd : (l.map (fun y => y.1)).Nodup)
    (hl : ∀ y ∈ l, y.1 < 1024) (hx : x ∈ l) : ∀ (tiles : List Nat) (t : List (Nat × Nat)),
    tabWf (fun _ => 0) t = true → tile ∈ tiles →
    tabGet (fun _ => 0) (tilePuts l tiles t) (tile * 1024 + x.1) = x.2
  | n :: tiles, t, hwf, hm => by
    have hwf' := slotPuts_wf l n t hwf
    by_cases hr : tile ∈ tiles
    · exact tilePuts_mem hnd hl hx tiles _ hwf' hr
    · obtain rfl : tile = n := (List.mem_cons.1 hm).resolve_right hr
      exact (tilePuts_other hl (hl x hx) tiles _ hr).trans (slotPuts_mem l tile t hwf hnd hx)

theorem slotCounts_slotCnt (s : State) :
    s.slotCounts.tiles.slotCnt = tilePuts s.job.localSlots (range' 0 80) s.tiles.slotCnt := by
  simp only [State.slotCounts, State.withTiles, tilePuts, slotPuts]

/-! ### INGEST_END -/

/-- The token sum shown and the slot counts held. -/
def tokensSummed (s : State) (n : Nat) : State :=
  (s.withRun (fun r => { r with ingestEnded := true })).slotCounts.fsetAll [(HULL_TOKEN_SUM_SUM, n), (HULL_TOKEN_SUM_VALID, 1)]

/-- N = 0: the step is empty (R204). -/
def stepEmptied (s : State) (n : Nat) : State :=
  ((tokensSummed s n).withRun (fun r => { r with emptyStep := true })).setSts 0 HULL_INGEST_STS_EMPTY_STEP

/-- ν formed of N and shown (R203). -/
def nuFormed (s : State) (n : Nat) : State :=
  (tokensSummed s n).fsetAll [(HULL_NORM_NU, recipNat n), (HULL_NORM_VALID, 1)]

/-- The newest parked set of a parked tensor takes ν (R316). -/
def parkedNu (nu : Nat) (s : State) (t : Nat) : State :=
  let e := s.lagEnt t (!s.ccr.parity)
  match e.parked.reverse with
  | q :: r => s.setLag t (!s.ccr.parity) { e with parked := ({ q with nu := nu } :: r).reverse }
  | [] => s

/-- The end of ingest: ν or an empty step. -/
def ingestEnded (s : State) (n : Nat) : State :=
  if n == 0 then stepEmptied s n else s.job.parking.foldl (parkedNu (recipNat n)) (nuFormed s n)

theorem parkedNu_onlyParts (nu : Nat) (s : State) (t : Nat) : OnlyParts [.job] s (parkedNu nu s t) := by
  simp only [parkedNu]
  split
  · exact withJob_onlyParts _ _
  · exact OnlyParts.refl _ s

theorem parkedNus_onlyParts (nu : Nat) (l : List Nat) (s : State) : OnlyParts [.job] s (l.foldl (parkedNu nu) s) :=
  List.foldlRecOn l _ (OnlyParts.refl _ s) (fun t h w _ => h.trans (parkedNu_onlyParts nu t w))

section
variable (s : State) (n : Nat)

theorem tokensSummed_onlyParts : OnlyParts [.regs, .run, .tiles] s (tokensSummed s n) := by
  intro p hp
  cases p <;> simp [Part.Same, tokensSummed, State.slotCounts] at hp ⊢

theorem tokensSummed_run : (tokensSummed s n).run = { s.run with ingestEnded := true } := by
  simp [tokensSummed, State.slotCounts, State.withRun]

theorem tokensSummed_wf (h : Inv s) : tabWf resetOf (tokensSummed s n).regs = true := wf_fsetAll _ _ h.1.1

theorem only_tokensSummed : OnlyRegs [HULL_TOKEN_SUM.base] s (tokensSummed s n) :=
  by
  have h : OnlyParts [.run, .tiles] s (s.withRun (fun r => { r with ingestEnded := true })).slotCounts :=
    ((withRun_onlyParts s _).mono (by decide)).then (withTiles_onlyParts _ _) (by decide)
  exact (h.onlyRegs (by decide) _).trans (only_fsetAll _ _ (by simp; decide))

theorem tokenSum_apart : FieldsApart [HULL_TOKEN_SUM_SUM, HULL_TOKEN_SUM_VALID] := ⟨by decide, by decide⟩

theorem norm_apart : FieldsApart [HULL_NORM_NU, HULL_NORM_VALID] := ⟨by decide, by decide⟩

theorem ingestEnded_run : (ingestEnded s n).run =
    { s.run with ingestEnded := true, emptyStep := s.run.emptyStep || n == 0 } := by
  unfold ingestEnded
  split
  next h => simp [stepEmptied, State.withRun, tokensSummed_run, h]
  next h =>
    rw [(parkedNus_onlyParts _ _ _) .run (by decide)]
    simp [nuFormed, tokensSummed_run, h]

theorem ingestEnded_tiles : (ingestEnded s n).tiles = s.slotCounts.tiles := by
  have ht : (tokensSummed s n).tiles = s.slotCounts.tiles := by simp [tokensSummed, State.slotCounts, State.withTiles]
  unfold ingestEnded
  split
  · simpa [stepEmptied] using ht
  · rw [(parkedNus_onlyParts _ _ _) .tiles (by decide)]
    simpa [nuFormed] using ht

theorem ingestEnded_onlyParts : OnlyParts [.regs, .run, .job, .tiles, .outbox] s (ingestEnded s n) := by
  have h := (tokensSummed_onlyParts s n).mono (qs := [.regs, .run, .job, .tiles, .outbox]) (by decide)
  exact OnlyParts.ite ((h.then (withRun_onlyParts _ _) (by decide)).then (setSts_onlyParts _ _ _) (by decide))
    ((h.then (fsetAll_onlyParts _ _) (by decide)).then (parkedNus_onlyParts _ _ _) (by decide))

theorem only_ingestEnded : OnlyRegs [HULL_NORM.base, HULL_INGEST_STS.base] (tokensSummed s n) (ingestEnded s n) := by
  refine OnlyRegs.ite (((withRun_onlyParts _ _).onlyRegs (by decide) _).trans (only_setSts _ _ _ (by decide))) ?_
  exact (only_fsetAll _ _ (by simp; decide)).trans ((parkedNus_onlyParts _ _ _).onlyRegs (by decide) _)

theorem ingestEnded_sum (h : Inv s) {f : Fld} {x : Nat}
    (hf : (f, x) ∈ [(HULL_TOKEN_SUM_SUM, n), (HULL_TOKEN_SUM_VALID, 1)]) (hb : f.base = HULL_TOKEN_SUM.base) :
    (ingestEnded s n).fget f = x % 2 ^ f.wd :=
  ((only_ingestEnded s n).fget _ (by rw [hb]; decide)).trans (fget_fsetAll_mem _ _ h.1.1 tokenSum_apart hf)

theorem ingestEnded_nu (h : Inv s) (hn : n ≠ 0) {f : Fld} {x : Nat}
    (hf : (f, x) ∈ [(HULL_NORM_NU, recipNat n), (HULL_NORM_VALID, 1)]) : (ingestEnded s n).fget f = x % 2 ^ f.wd := by
  rw [ingestEnded, if_neg (by simpa using hn), fget_congr ((parkedNus_onlyParts _ _ _) .regs (by decide))]
  exact fget_fsetAll_mem _ _ (tokensSummed_wf s n h) norm_apart hf

theorem ingestEnded_empty (h : Inv s) (hn : n = 0) : (ingestEnded s n).fbit HULL_INGEST_STS_EMPTY_STEP = true ∧
    (ingestEnded s n).fget HULL_NORM_NU = s.fget HULL_NORM_NU := by
  rw [ingestEnded, if_pos (by simpa using hn)]
  constructor
  · exact fbit_setSts _ _ _ (by simpa using tokensSummed_wf s n h) (by decide) rfl
  · rw [stepEmptied, (only_setSts (ks := [HULL_INGEST_STS.base]) _ _ _ (by decide)).fget _ (by decide), fget_withRun]
    exact (only_tokensSummed s n).fget _ (by decide)

end

/-- INGEST_END after the close, in a tick that runs its step. -/
theorem exec_ingestEnd {f : ImageFile} {p : PlanImg} {s : State} (others : Nat) (h : InTick f p s)
    (hr : s.reloading = false) (hstep : s.run.stepRuns = true) (hclose : s.run.closeTaken = true)
    (hend : s.run.ingestEnded = false) (hs : Settled s (s.edgeAt + planFenceOf p 1)) :
    exec (.ingestEnd others) s = .next (ingestEnded (s.advance (s.edgeAt + planFenceOf p 1))
      (s.job.localTokens + if s.fget HULL_ORCH_SIZE ≤ 1 then 0 else others)) := by
  obtain ⟨⟨hrun, -⟩, hactive, himg, hplan⟩ := h
  have hc : s.ingestClose f p = s := by simp [State.ingestClose, hclose]
  change Host.Outcome.next _ = _
  simp only [live_runs hrun, hactive, hr, himg, hplan, State.ingestEnd, hc, hstep, hend, upTo_settled _ _ hs]
  rfl

/-- Settles O11: N is shown and the slot counts stand on every tile; N = 0 empties the step, any other N gives ν. -/
theorem ingestEndFormsNuOrMarksTheStepEmpty : Obligations.IngestEndFormsNuOrMarksTheStepEmpty := by
  intro s f p others hin hr hstep hclose hend hs n
  set u := s.advance (s.edgeAt + planFenceOf p 1)
  have hinv : Inv u := hin.1.2
  have hrun := ingestEnded_run u n
  refine ⟨ingestEnded u n, exec_ingestEnd others hin hr hstep hclose hend hs, (ingestEnded_onlyParts u n) .now (by decide),
    by rw [hrun], ingestEnded_sum u n hinv (by simp) rfl, ?_, ?_, ?_, ?_, ?_, ?_⟩
  · exact fbit_of_fget (ingestEnded_sum u n hinv (f := HULL_TOKEN_SUM_VALID) (x := 1) (by simp) rfl)
  · intro hnd hlt tile x htile hx
    rw [ingestEnded_tiles, slotCounts_slotCnt]
    exact tilePuts_mem hnd hlt hx _ _ hinv.1.2.2.2.2.2.2.1 ((mem_range' _ _ _).2 ⟨Nat.zero_le _, by omega⟩)
  · intro hn
    refine ⟨ingestEnded_nu u n hinv hn (by simp), fbit_of_fget (ingestEnded_nu u n hinv hn (x := 1) (by simp)), ?_⟩
    rw [hrun, beq_false_of_ne hn]
    exact Bool.or_false _
  · intro hn
    obtain ⟨hsts, hnu⟩ := ingestEnded_empty u n hinv hn
    refine ⟨?_, hsts, hnu⟩
    rw [hrun, beq_iff_eq.2 hn]
    exact Bool.or_true _
  · exact (advance_onlyParts s _ |>.mono (by decide)).trans ((ingestEnded_onlyParts u n).mono (by decide))
  · exact ((only_tokensSummed u n).mono (by decide)).trans ((only_ingestEnded u n).mono (by decide))

end Sys2Proof.Laws
end

section
/-! PROOFS. INGEST_CLOSE (R200, R396). -/

namespace Sys2Proof.Safety

open Sys2Proof.Machine

/-! ### Class B in the tick's record, fault after fault -/

/-- Of the tick's record, only the marks of class B differ. -/
def MarkedB (s t : State) : Prop := t.run = { s.run with faultB := t.run.faultB, lateB := t.run.lateB }

theorem MarkedB.refl (s : State) : MarkedB s s := rfl

theorem MarkedB.trans {s t u : State} (h : MarkedB s t) (g : MarkedB t u) : MarkedB s u := by
  unfold MarkedB at *
  rw [h] at g
  exact g

theorem MarkedB.healthSent {s t : State} (h : MarkedB s t) : t.run.healthSent = s.run.healthSent := by rw [h]

theorem MarkedB.of_run {s t : State} (h : t.run = s.run) : MarkedB s t := by
  unfold MarkedB
  rw [h]

/-- A fault raised after others is raised. -/
theorem RaisesB.after {s t u : State} (h : MarkedB s t) (g : RaisesB t u) : RaisesB s u := by
  unfold RaisesB at *
  rwa [h.healthSent] at g

end Sys2Proof.Safety

namespace Sys2Proof.Laws

open Sys2Proof.Machine Sys2Proof.Safety

theorem markedB_classBSts (s : State) (p : Nat) (f : Fld) : MarkedB s (s.classBSts p f) := by
  unfold MarkedB
  rw [classBSts_run]
  split <;> rfl

/-! ### Silent slots (R200, R205) -/

/-- The fields of HULL_INGEST_FIRST after a silent slot. -/
def silentFields (s : State) (slot : Nat) : List (Fld × Nat) :=
  [(HULL_INGEST_FIRST_SLOT, slot), (HULL_INGEST_FIRST_REASON, 7), (HULL_INGEST_FIRST_TOKENS, 0), (HULL_INGEST_FIRST_STEP, s.ccr.step)]

/-- The registers of ingest faults. -/
def ingestRegs : List Nat := [HULL_INGEST_FIRST.base, HULL_INGEST_STS.base] ++ noteRegs

section
variable (s : State) (slot : Nat)

theorem slotMissing_eq : s.slotMissing slot =
    (s.record HULL_INGEST_FIRST_VALID (silentFields s slot)).classBSts 0 HULL_INGEST_STS_SLOT_MISSING := rfl

theorem only_slotMissing : OnlyRegs ingestRegs s (s.slotMissing slot) := by
  refine (only_record _ _ _ (by decide) ?_).trans (only_classBSts _ _ _ (by decide) (by decide))
  simp only [List.forall_mem_cons]
  exact ⟨by decide, by decide, by decide, by decide, fun q m => nomatch m⟩

theorem slotMissing_onlyParts : OnlyParts [.regs, .run, .fifos, .cap, .outbox] s (s.slotMissing slot) :=
  ((record_onlyParts s _ _).mono (by decide)).then (classBSts_onlyParts _ _ _) (by decide)

theorem markedB_slotMissing : MarkedB s (s.slotMissing slot) :=
  (MarkedB.of_run ((record_onlyParts s _ _) .run (by decide))).trans (markedB_classBSts _ _ _)

theorem slotMissing_raises (h : Inv s) :
    (s.slotMissing slot).fbit HULL_INGEST_STS_SLOT_MISSING = true ∧ RaisesB s (s.slotMissing slot) := by
  rw [slotMissing_eq]
  refine ⟨fbit_classBSts _ _ _ ((record_keeps _ _ _ (Keeps.refl s)).inv h).1.1 (by decide) rfl (by decide), ?_⟩
  exact (classBSts_raisesB _ _ _).after (MarkedB.of_run ((record_onlyParts s _ _) .run (by decide)))

end

/-- Silent slots are input late, one after another. -/
def slotsMissing (l : List Nat) (s : State) : State := l.foldl (fun s k => s.slotMissing k) s

section
variable (l : List Nat) (s : State)

theorem slotsMissing_onlyParts : OnlyParts [.regs, .run, .fifos, .cap, .outbox] s (slotsMissing l s) :=
  List.foldlRecOn l _ (OnlyParts.refl _ s) (fun t h w _ => h.trans (slotMissing_onlyParts t w))

theorem only_slotsMissing : OnlyRegs ingestRegs s (slotsMissing l s) :=
  List.foldlRecOn l _ (OnlyRegs.refl _ s) (fun t h w _ => h.trans (only_slotMissing t w))

theorem markedB_slotsMissing : MarkedB s (slotsMissing l s) :=
  List.foldlRecOn l _ (MarkedB.refl s) (fun t h w _ => h.trans (markedB_slotMissing t w))

theorem slotsMissing_inv (h : Inv s) : Inv (slotsMissing l s) :=
  List.foldlRecOn l _ h (fun t h w _ => (slotMissing_keeps t w (Keeps.refl t)).inv h)

/-- Where a slot is silent, the last one of them sets the status and class B. -/
theorem slotsMissing_raises (h : Inv s) (hl : l ≠ []) :
    (slotsMissing l s).fbit HULL_INGEST_STS_SLOT_MISSING = true ∧ RaisesB s (slotsMissing l s) := by
  obtain ⟨init, w, rfl⟩ := List.eq_nil_or_concat l |>.resolve_left hl
  have e : slotsMissing (init.concat w) s = (slotsMissing init s).slotMissing w := by
    rw [slotsMissing, List.concat_eq_append, List.foldl_append]
    rfl
  obtain ⟨hb, hr⟩ := slotMissing_raises (slotsMissing init s) w (slotsMissing_inv init s h)
  rw [e]
  exact ⟨hb, hr.after (markedB_slotsMissing init s)⟩

end

/-! ### The close (R396) -/

/-- The close taken and its silent slots named. -/
def closeNoted (s : State) (p : PlanImg) : State :=
  slotsMissing (s.silentSlots p) (s.withRun (fun r => { r with closeTaken := true }))

/-- The local counts held and shown. -/
def countsTaken (s : State) (l : List (Nat × Nat)) (n : Nat) : State :=
  (s.withJob (fun j => { j with localTokens := n, localSlots := l })).fset HULL_TOKENS_LOCAL n

/-- What is due on the tree after the close on tick-relative cycle `c`. -/
def countDue (s : State) (f : ImageFile) (c : Nat) : Nat × TreeSend :=
  if s.fbit HULL_ORCH_MASTER then (s.treeCycle f (s.upCycle f c + 512), .total) else (s.upCycle f c, .count)

theorem countUp_eq (s : State) (f : ImageFile) (c : Nat) :
    s.countUp f c = s.withRun (fun r => { r with treeDue := r.treeDue ++ [countDue s f c] }) := by
  unfold State.countUp countDue
  split <;> rfl

/-- What is due on the tree depends on the tick's first cycle and the module's place alone. -/
theorem countDue_congr {s t : State} (f : ImageFile) (c : Nat) (he : t.edgeAt = s.edgeAt)
    (hm : t.fget HULL_ORCH_MASTER = s.fget HULL_ORCH_MASTER) (ho : t.fget HULL_ORCH_MODULE = s.fget HULL_ORCH_MODULE) :
    countDue t f c = countDue s f c := by
  simp only [countDue, State.fbit, State.treeCycle, State.upCycle, he, hm, ho]
  rfl

/-- INGEST_CLOSE in a tick that runs its step, on a module that is no lender. -/
theorem exec_ingestClose {f : ImageFile} {p : PlanImg} {s : State} (h : InTick f p s) (hr : s.reloading = false)
    (hstep : s.run.stepRuns = true) (hclose : s.run.closeTaken = false) (hl : s.isLender = false)
    (hs : Settled s (s.edgeAt + (planFenceOf p 1 - imgCommitMin f))) :
    exec .ingestClose s = .next ((countsTaken (closeNoted (s.advance (s.edgeAt + (planFenceOf p 1 - imgCommitMin f))) p)
      (s.slotsTaken p) (((s.slotsTaken p).map (fun x => x.2)).foldl (· + ·) 0)).countUp f (planFenceOf p 1 - imgCommitMin f)) := by
  obtain ⟨⟨hrun, -⟩, hactive, himg, hplan⟩ := h
  have hl' : ((s.advance (s.edgeAt + (planFenceOf p 1 - imgCommitMin f))).withRun
    (fun r => { r with closeTaken := true })).isLender = false := hl
  change Host.Outcome.next _ = _
  simp only [live_runs hrun, hactive, hr, himg, hplan, State.ingestClose, hclose, hstep, upTo_settled _ _ hs, hl']
  rfl

section
variable (s : State) (l : List (Nat × Nat)) (n : Nat)

theorem countsTaken_onlyParts : OnlyParts [.regs, .job] s (countsTaken s l n) :=
  ((withJob_onlyParts s _).mono (by decide)).then (fset_onlyParts _ _ _) (by decide)

theorem countsTaken_job : (countsTaken s l n).job = { s.job with localTokens := n, localSlots := l } := by
  simp [countsTaken, State.withJob]

theorem only_countsTaken : OnlyRegs [HULL_TOKENS.base] s (countsTaken s l n) :=
  ((withJob_onlyParts s _).onlyRegs (by decide) _).trans (only_fset _ _ _ (by decide))

theorem countsTaken_shows (h : Inv s) : (countsTaken s l n).fget HULL_TOKENS_LOCAL = n % 2 ^ 32 :=
  fget_fset_same _ HULL_TOKENS_LOCAL n (by simpa using h.1.1) (by decide)

end

section
variable (s : State) (p : PlanImg)

theorem closeNoted_onlyParts : OnlyParts [.regs, .run, .fifos, .cap, .outbox] s (closeNoted s p) :=
  ((withRun_onlyParts s _).mono (by decide)).then (slotsMissing_onlyParts _ _) (by decide)

theorem only_closeNoted : OnlyRegs ingestRegs s (closeNoted s p) :=
  ((withRun_onlyParts s _).onlyRegs (by decide) _).trans (only_slotsMissing _ _)

theorem closeNoted_run : (closeNoted s p).run.closeTaken = true ∧ (closeNoted s p).run.treeDue = s.run.treeDue := by
  have h : MarkedB _ (closeNoted s p) := markedB_slotsMissing (s.silentSlots p) (s.withRun (fun r => { r with closeTaken := true }))
  rw [h]
  exact ⟨rfl, rfl⟩

theorem closeNoted_raises (h : Inv s) (hl : s.silentSlots p ≠ []) :
    (closeNoted s p).fbit HULL_INGEST_STS_SLOT_MISSING = true ∧ RaisesB s (closeNoted s p) :=
  slotsMissing_raises _ _ h hl

end

/-- Settles O10: the close names its silent slots, takes the counts and puts their sum on the tree. -/
theorem ingestCloseTakesTheLocalCount : Obligations.IngestCloseTakesTheLocalCount := by
  intro s f p hin hr hstep hclose hlender hs c n
  set u := s.advance (s.edgeAt + c)
  set v := closeNoted u p with hv
  set w := countsTaken v (s.slotsTaken p) n with hw
  have hinv : Inv u := hin.1.2
  have hvp := closeNoted_onlyParts u p
  have hvr := only_closeNoted u p
  have hwp : OnlyParts [.regs, .job] v w := countsTaken_onlyParts _ _ _
  have hwr : OnlyRegs [HULL_TOKENS.base] v w := only_countsTaken _ _ _
  have hdue : countDue w f c = countDue s f c :=
    countDue_congr f c ((hvp .edgeAt (by decide)).trans (hwp .edgeAt (by decide)))
      ((hwr.fget _ (by decide)).trans (hvr.fget _ (by decide))) ((hwr.fget _ (by decide)).trans (hvr.fget _ (by decide)))
  obtain ⟨htaken, htree⟩ := closeNoted_run u p
  have hwrun : w.run = v.run := hwp .run (by decide)
  have hmark := withRun_onlyParts w (fun r => { r with treeDue := r.treeDue ++ [countDue s f c] })
  refine ⟨_, exec_ingestClose hin hr hstep hclose hlender hs, ?_⟩
  rw [countUp_eq, hdue]
  refine ⟨?_, ?_, ?_, ?_, ?_, ?_, ?_, ?_, ?_⟩
  · exact ((hvp .now (by decide)).trans (hwp .now (by decide))).trans (hmark .now (by decide))
  · exact (congrArg TickRun.closeTaken hwrun).trans htaken
  · exact (congrArg JobRun.localTokens (countsTaken_job _ _ _))
  · exact (congrArg JobRun.localSlots (countsTaken_job _ _ _))
  · rw [fget_withRun]
    exact countsTaken_shows v _ n ((slotsMissing_inv _ _ hinv))
  · exact congrArg (· ++ [countDue s f c]) ((congrArg TickRun.treeDue hwrun).trans htree)
  · intro hsil
    obtain ⟨hb, hraise⟩ := closeNoted_raises u p hinv hsil
    refine ⟨?_, ?_⟩
    · rw [State.fbit, fget_withRun, hwr.fget _ (by decide)]
      exact hb
    · exact hraise
  · exact (((advance_onlyParts s _).mono (by decide)).then hvp (by decide)).then hwp (by decide) |>.then hmark (by decide)
  · exact ((hvr.mono (by decide)).then hwr (by decide)).trans (hmark.onlyRegs (by decide) _)

end Sys2Proof.Laws
end

section
/-! PROOFS. HEALTH_SEND and HEALTH_RECORD (R301, R392, R393). -/

namespace Sys2Proof.Laws

open Sys2Proof.Machine Sys2Proof.Safety

/-! ### The image and the plan that a state runs -/

theorem image_congr {s t : State} (hj : t.job.ctx = s.job.ctx) (hc : t.ctxs = s.ctxs) : t.image = s.image := by
  simp only [State.image, State.ctx, hj, hc]

theorem curPlan_congr {s t : State} (hj : t.job.ctx = s.job.ctx) (hc : t.ctxs = s.ctxs)
    (hp : t.fget TICK_PLAN_CUR = s.fget TICK_PLAN_CUR) : t.curPlan = s.curPlan := by
  simp only [State.curPlan, image_congr hj hc, hp]

/-! ### HEALTH_SEND -/

/-- The registers of the health word and what they are to show. -/
def healthFields (w : List Nat) : List (Fld × Nat) := (range' 0 5).map (fun i => (COMMIT_HEALTH_DATA.ix i, w.getD i 0))

/-- The module's own word combined and marked as sent. -/
def healthCombined (s : State) : State :=
  (s.withJob (fun j => { j with health := s.ownHealth })).withRun (fun r => { r with healthSent := true })

theorem healthFields_apart (w : List Nat) : FieldsApart ((healthFields w).map Prod.fst) := by
  have e : (healthFields w).map Prod.fst = (range' 0 5).map (fun i => COMMIT_HEALTH_DATA.ix i) := by
    rw [healthFields, List.map_map]
    rfl
  rw [e]
  exact ⟨by decide, by decide⟩

theorem healthSend_eq (s : State) : s.healthSend = healthCombined (s.fsetAll (healthFields s.healthWord)) := rfl

section
variable (s : State)

theorem healthCombined_onlyParts : OnlyParts [.run, .job] s (healthCombined s) :=
  ((withJob_onlyParts s _).mono (by decide)).then (withRun_onlyParts _ _) (by decide)

theorem healthSend_onlyParts : OnlyParts [.regs, .run, .job] s s.healthSend := by
  rw [healthSend_eq]
  exact ((fsetAll_onlyParts s _).mono (by decide)).then (healthCombined_onlyParts _) (by decide)

theorem healthSend_run : s.healthSend.run = { s.run with healthSent := true } := by
  rw [healthSend_eq]
  simp [healthCombined, State.withRun]

theorem healthSend_job : s.healthSend.job = { s.job with health := (s.fsetAll (healthFields s.healthWord)).ownHealth } := by
  rw [healthSend_eq]
  simp [healthCombined, State.withJob]

theorem only_healthSend : OnlyRegs ((range' 0 5).map (fun i => (COMMIT_HEALTH_DATA.ix i).base)) s s.healthSend := by
  refine (only_fsetAll (healthFields s.healthWord) s (fun p hp => ?_)).trans
    ((healthCombined_onlyParts _).onlyRegs (by decide) _)
  obtain ⟨i, hi, rfl⟩ := List.mem_map.1 hp
  exact List.mem_map.2 ⟨i, hi, rfl⟩

theorem healthSend_shows (h : Inv s) {i : Nat} (hi : i < 5) :
    s.healthSend.fget (COMMIT_HEALTH_DATA.ix i) = s.healthWord.getD i 0 % 2 ^ 64 := by
  have hc := (healthCombined_onlyParts (s.fsetAll (healthFields s.healthWord))).onlyRegs (by decide) []
  rw [healthSend_eq, hc.fget _ List.not_mem_nil]
  exact fget_fsetAll_mem _ _ h.1.1 (healthFields_apart _) (List.mem_map.2 ⟨i, (mem_range' _ _ _).2 ⟨Nat.zero_le _, by omega⟩, rfl⟩)

end

/-- What the health word puts on the tree: off the master, its record. -/
def healthDue (s : State) (f : ImageFile) (c : Nat) : List (Nat × TreeSend) :=
  if s.fbit HULL_ORCH_MASTER then [] else [(s.upCycle f c, .health)]

theorem healthUp_eq {s : State} {p : PlanImg} (f : ImageFile) (hp : s.curPlan = some p) :
    s.healthUp f = s.withRun (fun r => { r with treeDue := r.treeDue ++ healthDue s f (planFenceOf p 3) }) := by
  unfold State.healthUp healthDue
  rw [hp]
  split
  · simp [State.withRun]
  · rfl

/-- HEALTH_SEND, once in a tick. -/
theorem exec_healthSend {f : ImageFile} {p : PlanImg} {s : State} (h : InTick f p s) (hr : s.reloading = false)
    (hsent : s.run.healthSent = false) (hs : Settled s (s.edgeAt + planFenceOf p 3)) :
    exec .healthSend s = .next ((s.advance (s.edgeAt + planFenceOf p 3)).healthSend.healthUp f) := by
  obtain ⟨⟨hrun, -⟩, hactive, himg, hplan⟩ := h
  have hp := healthSend_onlyParts (s.advance (s.edgeAt + planFenceOf p 3))
  have himg' : (s.advance (s.edgeAt + planFenceOf p 3)).healthSend.image = some f :=
    (image_congr (by rw [healthSend_job]) (hp .ctxs (by decide))).trans himg
  change Host.Outcome.next _ = _
  simp only [live_runs hrun, hactive, hr, hplan, hsent, upTo_settled _ _ hs, himg']
  rfl

/-! ### HEALTH_RECORD -/

/-- The tree does not change as time passes. -/
theorem reaches_advance (s : State) (at_ : Nat) (f : ImageFile) (c : Nat) : ∀ (k m : Nat),
    (s.advance at_).reaches f c m k = s.reaches f c m k
  | 0, _ => rfl
  | k + 1, m => by
    have hup : (s.advance at_).treeUp f m = s.treeUp f m := rfl
    rw [State.reaches, State.reaches, hup]
    split
    next p _ => rw [reaches_advance s at_ f c k p]
    next => rfl

theorem subtreeSize_advance (s : State) (at_ : Nat) (f : ImageFile) (c : Nat) :
    (s.advance at_).subtreeSize f c = s.subtreeSize f c := by
  simp only [State.subtreeSize, reaches_advance]

/-- A child's record combined, and its child seen. -/
def childTaken (s : State) (f : ImageFile) (link : Nat) (r : Option HealthRec) : State :=
  s.withJob (fun j => { j with
    health := s.childHealth (s.subtreeSize f (s.childAt f link)) r, childrenSeen := link :: j.childrenSeen,
    tDiff := j.tDiff || (match r with | some r => r.tShadow != s.ccr.t | none => false) })

/-- HEALTH_RECORD of a child not seen yet. -/
theorem exec_healthRecord {f : ImageFile} {p : PlanImg} {s : State} {at_ link : Nat} (r : Option HealthRec)
    (h : InTick f p s) (hr : s.reloading = false) (hseen : s.job.childrenSeen.contains link = false) (hs : Settled s at_) :
    exec (.healthRecord at_ link r) s = .next (childTaken (s.advance at_) f link r) := by
  obtain ⟨⟨hrun, -⟩, hactive, himg, hplan⟩ := h
  change Host.Outcome.next _ = _
  simp only [live_runs hrun, hactive, hr, himg, hseen, upTo_settled _ _ hs]
  rfl

theorem childTaken_onlyParts (s : State) (at_ : Nat) (f : ImageFile) (link : Nat) (r : Option HealthRec) :
    OnlyParts [.now, .job] s (childTaken (s.advance at_) f link r) :=
  ((advance_onlyParts s at_).mono (by decide)).then (withJob_onlyParts _ _) (by decide)

/-- Settles O13: the word is shown and combined and put on the tree; a child's record is combined field by field. -/
theorem healthIsSentAndCombined : Obligations.HealthIsSentAndCombined := by
  intro s f p hin hr
  constructor
  · intro hsent hs
    set u := s.advance (s.edgeAt + planFenceOf p 3)
    have hinv : Inv u := hin.1.2
    have hp := healthSend_onlyParts u
    have hregs := only_healthSend u
    have hplan : u.healthSend.curPlan = some p :=
      (curPlan_congr (by rw [healthSend_job]) (hp .ctxs (by decide)) (hregs.fget _ (by decide))).trans hin.2.2.2
    have hdue : healthDue u.healthSend f (planFenceOf p 3) = healthDue s f (planFenceOf p 3) := by
      have he : u.healthSend.edgeAt = s.edgeAt := hp .edgeAt (by decide)
      simp only [healthDue, State.fbit, State.upCycle, he, hregs.fget HULL_ORCH_MASTER (by decide),
        hregs.fget HULL_ORCH_MODULE (by decide)]
      rfl
    have hmark := withRun_onlyParts u.healthSend (fun r => { r with treeDue := r.treeDue ++ healthDue s f (planFenceOf p 3) })
    refine ⟨_, exec_healthSend hin hr hsent hs, ?_⟩
    rw [healthUp_eq f hplan, hdue]
    refine ⟨?_, ?_, ?_, ?_, ?_, ?_, ?_, ?_⟩
    · exact (hp .now (by decide)).trans (hmark .now (by decide))
    · exact congrArg TickRun.healthSent (healthSend_run u)
    · intro i hi
      rw [fget_withRun, healthSend_shows u hinv hi]
      match i, hi with
      | 0, _ => exact Nat.mod_mod _ _
      | 1, _ => exact Nat.mod_mod _ _
      | 2, _ => rfl
      | 3, _ => rfl
      | 4, _ => rfl
    · exact congrArg (fun j : JobRun => j.health.modules) (healthSend_job u)
    · exact congrArg (fun j : JobRun => j.health.tokens) (healthSend_job u)
    · have htree : u.healthSend.run.treeDue = u.run.treeDue := by rw [healthSend_run]
      exact congrArg (· ++ healthDue s f (planFenceOf p 3)) htree
    · exact (((advance_onlyParts s _).mono (by decide)).then hp (by decide)).then hmark (by decide)
    · exact hregs.trans (hmark.onlyRegs (by decide) _)
  · intro at_ link hseen hs
    refine ⟨⟨_, exec_healthRecord none hin hr hseen hs, rfl, rfl, ?_, childTaken_onlyParts s at_ f link none⟩, fun r =>
      ⟨_, exec_healthRecord (some r) hin hr hseen hs, rfl, ?_, rfl, rfl, rfl, rfl, ?_, ?_, ?_, ?_, childTaken_onlyParts s at_ f link _⟩⟩
    · simp [childTaken, State.withJob]
    · simp [childTaken, State.withJob]
    all_goals
      intro hne
      simp only [childTaken, State.withJob, State.childHealth, Bool.or_eq_true, bne_iff_ne, subtreeSize_advance]
    · exact .inl (.inl (.inr hne))
    · exact .inl (.inr hne)
    · exact .inr hne
    · exact .inr hne

end Sys2Proof.Laws
end

section
/-! PROOFS. What leaves the module: the outbox only grows, and what a tree frame adds to it (R369 to R373, R391). -/

namespace Sys2Proof.Laws

open Sys2Proof.Machine Sys2Proof.Safety

/-! ### The outbox only grows -/

/-- What has left the module by `s` is the first part of what has left it by `t`. -/
def OutGrows (s t : State) : Prop := s.outbox <+: t.outbox

theorem OutGrows.refl (s : State) : OutGrows s s := List.prefix_rfl

theorem OutGrows.trans {s t u : State} (h : OutGrows s t) (g : OutGrows t u) : OutGrows s u := List.IsPrefix.trans h g

theorem OutGrows.ite {s a b : State} {c : Prop} [Decidable c] (ha : OutGrows s a) (hb : OutGrows s b) :
    OutGrows s (if c then a else b) := by split <;> assumption

theorem OutGrows.of_parts {ps : List Part} {s t : State} (h : OnlyParts ps s t) (ho : .outbox ∉ ps) : OutGrows s t := by
  unfold OutGrows
  rw [h .outbox ho]

theorem OutGrows.mem {s t : State} {o : Out} (h : OutGrows s t) (ho : o ∈ s.outbox) : o ∈ t.outbox := List.IsPrefix.subset h ho

theorem outGrows_emit (s : State) (o : Out) : OutGrows s (s.emit o) := List.prefix_append _ _

theorem outGrows_irqEdge {s t u : State} (p : Nat) (h : OutGrows s u) : OutGrows s (State.irqEdge t u p) :=
  OutGrows.ite (h.trans (outGrows_emit _ _)) h

theorem outGrows_setSts (s : State) (p : Nat) (f : Fld) : OutGrows s (s.setSts p f) :=
  outGrows_irqEdge p (OutGrows.of_parts (fset_onlyParts s f 1) (by decide))

theorem outGrows_post (s : State) (f : Nat) (ws : List (BitVec 512)) : OutGrows s (s.post f ws) := by
  refine OutGrows.ite (OutGrows.of_parts (setFifo_onlyParts _ _ _) (by decide)) (outGrows_irqEdge 7 ?_)
  have h : OnlyParts [.fifos, .regs] s ((s.setFifo f (fun q => { q with dropped := q.dropped + 1 })).fadd
      (EVQ_LEVEL_DROPPED.ix f) 1) := ((setFifo_onlyParts s _ _).mono (by decide)).then (fadd_onlyParts _ _ _) (by decide)
  exact OutGrows.of_parts (h.then (fset_onlyParts _ _ _) (by decide)) (by decide)

theorem outGrows_event (s : State) (typ ctx : Nat) (l : List Nat) : OutGrows s (s.event typ ctx l) :=
  OutGrows.ite (OutGrows.of_parts (setFifo_onlyParts _ _ _) (by decide)) (outGrows_post _ _ _)

theorem outGrows_traceAB (s : State) (c p : Nat) (f : Fld) : OutGrows s (s.traceAB c p f) :=
  OutGrows.ite (outGrows_post _ _ _) (OutGrows.refl s)

theorem outGrows_capTrigger (s : State) (c src : Nat) : OutGrows s (s.capTrigger c src) := by
  refine OutGrows.ite ((OutGrows.of_parts (fadd_onlyParts s _ _) (by decide)).trans (outGrows_setSts _ _ _)) ?_
  split <;> exact OutGrows.refl s

theorem outGrows_capFault (s : State) (c : Nat) : OutGrows s (s.capFault c) :=
  OutGrows.ite (outGrows_capTrigger _ _ _) (OutGrows.refl s)

theorem outGrows_classBSts (s : State) (p : Nat) (f : Fld) : OutGrows s (s.classBSts p f) := by
  have hm : OnlyParts [.run] ((s.setSts p f).traceAB 1 p f) ((s.setSts p f).traceAB 1 p f).markB :=
    OnlyParts.ite (withRun_onlyParts _ _) (withRun_onlyParts _ _)
  exact (((outGrows_setSts s p f).trans (outGrows_traceAB _ _ _ _)).trans (OutGrows.of_parts hm (by decide))).trans (outGrows_capFault _ _)

theorem outGrows_classCWith (s : State) (p : Nat) (f : Fld) (cause fifo : Nat) : OutGrows s (s.classCWith p f cause fifo) := by
  set u := (s.setSts p f).faultEvent 2 p f.base f.lo
  have hu : OutGrows s u := (outGrows_setSts s p f).trans (outGrows_event _ _ _ _)
  have ha : OnlyParts [.attend] u (u.attendStart p f cause fifo) := by
    intro q hq
    cases q <;> simp [Part.Same] at hq ⊢
  have hm : OnlyParts [.run] (u.attendStart p f cause fifo) (u.attendStart p f cause fifo).markC :=
    OnlyParts.ite (withRun_onlyParts _ _) (withRun_onlyParts _ _)
  exact (((hu.trans (OutGrows.of_parts ha (by decide))).trans (OutGrows.of_parts hm (by decide))).trans
    (OutGrows.of_parts (fadd_onlyParts _ _ _) (by decide))).trans (outGrows_capFault _ _)

/-! ### Links -/

theorem link_withLink_ne (s : State) {l m : Nat} (f : LinkSt → LinkSt) (h : m ≠ l) : (s.withLink l f).link m = s.link m :=
  getD_modAt_ne _ _ _ _ _ h

/-- A link's field that a change does not touch stands, whether the link is there or not. -/
theorem link_withLink_stands {α : Type} (s : State) (l : Nat) (f : LinkSt → LinkSt) (g : LinkSt → α)
    (h : ∀ k, g (f k) = g k) : g ((s.withLink l f).link l) = g (s.link l) := by
  by_cases hl : l < s.links.length
  · exact (congrArg g (getD_modAt_same f {} l s.links hl)).trans (h _)
  · have hlen : (modAt f l s.links).length ≤ l := by rw [modAt_length]; omega
    have h1 : (s.withLink l f).link l = {} := by
      simp only [State.link, State.withLink, List.getD_eq_getElem?_getD, List.getElem?_eq_none hlen, Option.getD_none]
    have h2 : s.link l = {} := by
      simp only [State.link, List.getD_eq_getElem?_getD, List.getElem?_eq_none (Nat.not_lt.1 hl), Option.getD_none]
    rw [h1, h2]

/-! ### The registers that a frame depends on (R370, R371) -/

/-- The registers that a frame's slot, number and header depend on: each link's LNK_STATE and the tick's period. -/
def linkKeys : List Nat := TICK_PERIOD.base :: (range' 0 16).map (fun l => (lnkFld LNK_STATE_LEGACY l).base)

/-- The registers of the links and the tick's first cycle are the same in both states. -/
def SameLinkRegs (s t : State) : Prop := t.edgeAt = s.edgeAt ∧ ∀ k ∈ linkKeys, t.regGet k = s.regGet k

theorem SameLinkRegs.refl (s : State) : SameLinkRegs s s := ⟨rfl, fun _ _ => rfl⟩

theorem SameLinkRegs.trans {s t u : State} (h : SameLinkRegs s t) (g : SameLinkRegs t u) : SameLinkRegs s u :=
  ⟨g.1.trans h.1, fun k hk => (g.2 k hk).trans (h.2 k hk)⟩

theorem SameLinkRegs.of_regs {s t : State} (he : t.edgeAt = s.edgeAt) (hr : t.regs = s.regs) : SameLinkRegs s t :=
  ⟨he, fun k _ => regGet_congr hr k⟩

theorem SameLinkRegs.of_only {ks : List Nat} {s t : State} (he : t.edgeAt = s.edgeAt) (h : OnlyRegs ks s t)
    (hk : ∀ k ∈ linkKeys, k ∉ ks) : SameLinkRegs s t := ⟨he, fun k m => h k (hk k m)⟩

theorem mem_linkKeys {l : Nat} (h : l < 16) : (lnkFld LNK_STATE_LEGACY l).base ∈ linkKeys :=
  List.mem_cons_of_mem _ (List.mem_map.2 ⟨l, (mem_range' _ _ _).2 ⟨Nat.zero_le _, by omega⟩, rfl⟩)

section
variable {s t : State} (h : SameLinkRegs s t)
include h

theorem SameLinkRegs.fget {l : Nat} (hl : l < 16) (f : Fld) (hf : (lnkFld f l).base = (lnkFld LNK_STATE_LEGACY l).base) :
    t.fget (lnkFld f l) = s.fget (lnkFld f l) := by
  unfold State.fget
  rw [hf, h.2 _ (mem_linkKeys hl)]

theorem SameLinkRegs.period : t.fget TICK_PERIOD_PERIOD = s.fget TICK_PERIOD_PERIOD := by
  have e : t.regGet TICK_PERIOD_PERIOD.base = s.regGet TICK_PERIOD_PERIOD.base := h.2 _ (.head _)
  unfold State.fget
  rw [e]

theorem SameLinkRegs.lnkLegacy {l : Nat} (hl : l < 16) : t.lnkLegacy l = s.lnkLegacy l := by
  unfold State.lnkLegacy State.fbit
  rw [h.fget hl _ rfl]

theorem SameLinkRegs.lnkWin {l : Nat} (hl : l < 16) : t.lnkWin l = s.lnkWin l := by
  unfold State.lnkWin
  rw [h.lnkLegacy hl]

theorem SameLinkRegs.lnkSlot {l : Nat} (hl : l < 16) (c : Nat) : t.lnkSlot l c = s.lnkSlot l c := by
  unfold State.lnkSlot
  rw [h.lnkWin hl]

theorem SameLinkRegs.lastWindow {l : Nat} (hl : l < 16) (c : Nat) : t.lastWindow l c = s.lastWindow l c := by
  unfold State.lastWindow
  rw [h.lnkSlot hl, h.lnkWin hl, h.1, h.period]

theorem SameLinkRegs.retryWindows {l : Nat} (hl : l < 16) : t.retryWindows l = s.retryWindows l := by
  unfold State.retryWindows
  rw [h.lnkLegacy hl]

theorem SameLinkRegs.slotCycle {l : Nat} (hl : l < 16) (w k : Nat) : t.slotCycle l w k = s.slotCycle l w k := by
  unfold State.slotCycle
  rw [h.lnkWin hl, h.1]

theorem SameLinkRegs.childLinks : t.childLinks = s.childLinks := by
  refine List.filter_congr (fun l hl => ?_)
  unfold State.fbit
  rw [h.fget (by have := (mem_range' _ _ _).1 hl; omega) LNK_STATE_TREE_CHILD rfl]

theorem SameLinkRegs.treeLinks : t.treeLinks = s.treeLinks := by
  refine List.filter_congr (fun l hl => ?_)
  have hl : l < 16 := by have := (mem_range' _ _ _).1 hl; omega
  unfold State.fbit
  rw [h.fget hl LNK_STATE_TREE_CHILD rfl, h.fget hl LNK_STATE_TREE_PARENT rfl]

theorem SameLinkRegs.treeCycle (f : ImageFile) (c : Nat) : t.treeCycle f c = s.treeCycle f c := by
  unfold State.treeCycle
  rw [h.1]

theorem SameLinkRegs.seqAt {l : Nat} (hl : l < 16) (hk : t.link l = s.link l) (c : Nat) : t.seqAt l c = s.seqAt l c := by
  simp only [State.seqAt, h.lnkSlot hl, h.1, hk, h.retryWindows hl]

theorem SameLinkRegs.frameHeader {l : Nat} (hl : l < 16) (hk : t.link l = s.link l) (c seq kind slot : Nat) :
    frameHeader t l c seq kind slot = frameHeader s l c seq kind slot := by
  unfold Safety.frameHeader
  rw [hk, h.lastWindow hl]

theorem SameLinkRegs.frameOut {l : Nat} (hl : l < 16) (hk : t.link l = s.link l) (c seq kind slot flit : Nat) :
    frameOut t l c seq kind slot flit = frameOut s l c seq kind slot flit := by
  unfold Safety.frameOut
  rw [h.frameHeader hl hk]

theorem SameLinkRegs.treeOut {links : List Nat} (hl : ∀ l ∈ links, l < 16 ∧ t.link l = s.link l) (c kind flit : Nat) :
    treeOut t links c kind flit = treeOut s links c kind flit := by
  have hone : ∀ l ∈ links, Safety.frameOut t l c (t.seqAt l c) kind (t.lnkSlot l (c - t.edgeAt)).2 flit =
      Safety.frameOut s l c (s.seqAt l c) kind (s.lnkSlot l (c - s.edgeAt)).2 flit := fun l m => by
    obtain ⟨hl16, hk⟩ := hl l m
    rw [h.frameOut hl16 hk, h.seqAt hl16 hk, h.lnkSlot hl16, h.1]
  unfold Safety.treeOut
  induction links with
  | nil => rfl
  | cons l links ih =>
    rw [List.flatMap_cons, List.flatMap_cons, hone l (.head _), ih (fun l m => hl l (.tail _ m)) (fun l m => hone l (.tail _ m))]

end

theorem childLinks_lt {s : State} {l : Nat} (h : l ∈ s.childLinks) : l < 16 := by
  have := (mem_range' _ _ _).1 (List.mem_of_mem_filter h)
  omega

theorem range'_nodup : ∀ (n lo : Nat), (range' lo n).Nodup
  | 0, _ => List.nodup_nil
  | n + 1, lo => List.nodup_cons.2 ⟨fun h => by have := (mem_range' _ _ _).1 h; omega, range'_nodup n (lo + 1)⟩

theorem childLinks_nodup (s : State) : s.childLinks.Nodup := (range'_nodup 16 0).filter _

theorem treeLinks_lt {s : State} {l : Nat} (h : l ∈ s.treeLinks) : l < 16 := by
  have := (mem_range' _ _ _).1 (List.mem_of_mem_filter h)
  omega

/-! ### A frame that leaves (R369, R370, R372) -/

/-- The header that a frame leaves with is that of its slot. -/
theorem putFrame_header (s : State) (l c seq kind slot : Nat) :
    seq % 256 + kind * 256 + slot * 2048 + (match (s.link l).naks with | n :: _ => 65536 + n * 131072 | [] => 0) +
      (!(s.link l).swaps.isEmpty && s.lastWindow l c).toNat * 2 ^ 25 = frameHeader s l c seq kind slot := by
  unfold frameHeader
  cases (s.link l).naks <;> simp only [] <;> ring

/-- A frame that leaves adds itself and its symbols to the outbox. -/
theorem putFrame_outbox (s : State) (l c seq kind slot flit : Nat) :
    (s.putFrame l c seq kind slot flit).outbox = s.outbox ++ frameOut s l c seq kind slot flit := by
  unfold frameOut
  rw [← putFrame_header]
  simp only [State.putFrame, State.emit, State.withLink, List.append_assoc]
  rfl

theorem sameLinkRegs_withLink (s : State) (l : Nat) (f : LinkSt → LinkSt) : SameLinkRegs s (s.withLink l f) :=
  SameLinkRegs.of_regs rfl rfl

theorem linkSend_outbox (s : State) {l : Nat} (hl : l < 16) (c kind flit : Nat) :
    (s.linkSend l c kind flit).outbox =
      s.outbox ++ frameOut s l c (s.seqAt l c) kind (s.lnkSlot l (c - s.edgeAt)).2 flit := by
  set g : LinkSt → LinkSt := fun k => { k with
    sent := (s.seqAt l c, (s.lnkSlot l (c - s.edgeAt)).1, (s.lnkSlot l (c - s.edgeAt)).2, kind, flit) ::
      k.sent.filter (fun e => e.1 != s.seqAt l c) } with hg
  have hnaks : ((s.withLink l g).link l).naks = (s.link l).naks := link_withLink_stands s l g LinkSt.naks (fun _ => rfl)
  have hswaps : ((s.withLink l g).link l).swaps = (s.link l).swaps := link_withLink_stands s l g LinkSt.swaps (fun _ => rfl)
  have hout : frameOut (s.withLink l g) l c (s.seqAt l c) kind (s.lnkSlot l (c - s.edgeAt)).2 flit =
      frameOut s l c (s.seqAt l c) kind (s.lnkSlot l (c - s.edgeAt)).2 flit := by
    unfold frameOut frameHeader
    rw [hnaks, hswaps, (sameLinkRegs_withLink s l g).lastWindow hl]
  rw [State.linkSend, putFrame_outbox, hout]
  rfl

theorem sameLinkRegs_linkSend (s : State) (l c kind flit : Nat) : SameLinkRegs s (s.linkSend l c kind flit) :=
  SameLinkRegs.of_regs (by simp) (by simp)

theorem link_linkSend_ne (s : State) {l m : Nat} (c kind flit : Nat) (h : m ≠ l) :
    (s.linkSend l c kind flit).link m = s.link m := by
  have e : (s.linkSend l c kind flit).links = modAt (fun k => { k with naks := k.naks.drop 1 }) l
    (s.withLink l (fun k => { k with
      sent := (s.seqAt l c, (s.lnkSlot l (c - s.edgeAt)).1, (s.lnkSlot l (c - s.edgeAt)).2, kind, flit) ::
        k.sent.filter (fun e => e.1 != s.seqAt l c) })).links := rfl
  rw [State.link, e, getD_modAt_ne _ _ _ _ _ h]
  exact getD_modAt_ne _ _ _ _ _ h

/-- What goes out on some links, each once, is one frame on each. -/
theorem sendFrames_outbox (c kind flit : Nat) : ∀ (links : List Nat) (s : State), (∀ l ∈ links, l < 16) → links.Nodup →
    (s.sendFrames links c kind flit).outbox = s.outbox ++ treeOut s links c kind flit
  | [], s, _, _ => (List.append_nil _).symm
  | l :: links, s, hl, hnd => by
    obtain ⟨hnew, hnd⟩ := List.nodup_cons.1 hnd
    have hrest : treeOut (s.linkSend l c kind flit) links c kind flit = treeOut s links c kind flit :=
      (sameLinkRegs_linkSend s l c kind flit).treeOut (fun m hm =>
        ⟨hl m (.tail _ hm), link_linkSend_ne s c kind flit (fun e => hnew (e ▸ hm))⟩) c kind flit
    have e : s.sendFrames (l :: links) c kind flit = (s.linkSend l c kind flit).sendFrames links c kind flit := rfl
    rw [e, sendFrames_outbox c kind flit links _ (fun m hm => hl m (.tail _ hm)) hnd, hrest, linkSend_outbox s (hl l (.head _)),
      List.append_assoc]
    rfl

theorem outGrows_linkSend (s : State) (l c kind flit : Nat) : OutGrows s (s.linkSend l c kind flit) := by
  have h : OutGrows (s.withLink l (fun k => { k with
      sent := (s.seqAt l c, (s.lnkSlot l (c - s.edgeAt)).1, (s.lnkSlot l (c - s.edgeAt)).2, kind, flit) ::
        k.sent.filter (fun e => e.1 != s.seqAt l c) })) (s.linkSend l c kind flit) := by
    unfold OutGrows
    rw [State.linkSend, putFrame_outbox]
    exact List.prefix_append _ _
  exact h

theorem outGrows_sendFrames (s : State) (links : List Nat) (c kind flit : Nat) : OutGrows s (s.sendFrames links c kind flit) :=
  List.foldlRecOn links _ (OutGrows.refl s) (fun t h l _ => h.trans (outGrows_linkSend t l c kind flit))

end Sys2Proof.Laws
end

section
/-! PROOFS. The commit token, tick markers, notices and layouts on the tree (R62 to R65, R304, R391, R394, R402, R410, R517). -/

namespace Sys2Proof.Laws

open Sys2Proof.Machine Sys2Proof.Safety

/-! ### Holding a token (R67, R394) -/

/-- The fields of TICK_PLAN that show the plan a token names. -/
def planFields (s : State) (k : BitVec 256) : List (Fld × Nat) :=
  [(TICK_PLAN_NEXT, tokPlan k), (TICK_PLAN_NEXT_KIND, s.kindOf (tokPlan k)), (TICK_PLAN_NEXT_VALID, 1)]

section
variable (s : State) (f : ImageFile) (k : BitVec 256) (copy : Option (BitVec 256))

theorem planFields_apart : FieldsApart ((planFields s k).map Prod.fst) := by
  have e : (planFields s k).map Prod.fst = [TICK_PLAN_NEXT, TICK_PLAN_NEXT_KIND, TICK_PLAN_NEXT_VALID] := rfl
  rw [e]
  exact ⟨by decide, by decide⟩

/-- The token is held for the closing edge. -/
def tokenHeld : State :=
  s.withJob (fun j => { j with token := some (k, copy), lastToken := some k, serviceCall := s.serviceNamed f k })

theorem holdToken_eq : s.holdToken f k copy = (tokenHeld s f k copy).fsetAll (planFields (tokenHeld s f k copy) k) := rfl

theorem holdToken_onlyParts : OnlyParts [.regs, .job] s (s.holdToken f k copy) :=
  ((withJob_onlyParts s _).mono (by decide)).then (fsetAll_onlyParts _ _) (by decide)

theorem holdToken_job : (s.holdToken f k copy).job =
    { s.job with token := some (k, copy), lastToken := some k, serviceCall := s.serviceNamed f k } := by
  rw [holdToken_eq]
  simp [tokenHeld, State.withJob]

theorem only_holdToken : OnlyRegs [TICK_PLAN.base] s (s.holdToken f k copy) := by
  rw [holdToken_eq]
  refine ((withJob_onlyParts s _).onlyRegs (by decide) _).trans (only_fsetAll _ _ ?_)
  simp only [planFields, List.forall_mem_cons]
  exact ⟨by decide, by decide, by decide, fun q m => nomatch m⟩

theorem holdToken_shows (h : Inv s) : (s.holdToken f k copy).fget TICK_PLAN_NEXT = tokPlan k ∧
    (s.holdToken f k copy).fbit TICK_PLAN_NEXT_VALID = true := by
  have hw : tabWf resetOf (tokenHeld s f k copy).regs = true := h.1.1
  have hget {g : Fld} {x : Nat} (hm : (g, x) ∈ planFields (tokenHeld s f k copy) k) :
      (s.holdToken f k copy).fget g = x % 2 ^ g.wd := fget_fsetAll_mem _ _ hw (planFields_apart _ _) hm
  refine ⟨(hget (.head _)).trans (Nat.mod_eq_of_lt (Nat.mod_lt _ (by decide))), fbit_of_fget ?_⟩
  exact hget (g := TICK_PLAN_NEXT_VALID) (x := 1) (by simp [planFields])

end

/-! ### The master's decision on the tree -/

/-- The token of the tick before, as its frame's copy (R65). -/
def tokenCopy (s : State) : Option (BitVec 256) :=
  match s.job.lastToken with | some q => if tokTick q + 1 = s.tickCount then some q else none | none => none

/-- The registers that the decision's statuses touch. -/
def decisionRegs : List Nat := [COMMIT_STS.base, (FAULT_CNT_C_RAISED.pageOf 0).base] ++ noteRegs

section
variable (s : State) (f : ImageFile) (k : BitVec 256)

theorem decisionSts_onlyParts : OnlyParts [.regs, .run, .attend, .fifos, .cap, .outbox] s (s.decisionSts f k) := by
  have h1 := OnlyParts.ite (c := s.combinedMissing = true) ((setSts_onlyParts s 0 COMMIT_STS_HEALTH_MISSING).mono
    (qs := [.regs, .run, .attend, .fifos, .cap, .outbox]) (by decide)) (OnlyParts.refl _ s)
  have h2 := fun t : State => OnlyParts.ite (c := t.combinedMismatch = true) ((setSts_onlyParts t 0 COMMIT_STS_MISMATCH).mono
    (qs := [.regs, .run, .attend, .fifos, .cap, .outbox]) (by decide)) (OnlyParts.refl _ t)
  exact (h1.trans (h2 _)).trans (OnlyParts.ite (classCWith_onlyParts _ _ _ _ _) (OnlyParts.refl _ _))

theorem only_decisionSts : OnlyRegs decisionRegs s (s.decisionSts f k) := by
  have h1 := OnlyRegs.ite (c := s.combinedMissing = true)
    (only_setSts (ks := decisionRegs) s 0 COMMIT_STS_HEALTH_MISSING (by decide)) (OnlyRegs.refl _ s)
  have h2 := fun t : State => OnlyRegs.ite (c := t.combinedMismatch = true)
    (only_setSts (ks := decisionRegs) t 0 COMMIT_STS_MISMATCH (by decide)) (OnlyRegs.refl _ t)
  exact (h1.trans (h2 _)).trans
    (OnlyRegs.ite (only_classCWith _ _ _ _ _ (by decide) (by decide) (by decide)) (OnlyRegs.refl _ _))

theorem decisionSts_sameLinkRegs : SameLinkRegs s (s.decisionSts f k) :=
  SameLinkRegs.of_only ((decisionSts_onlyParts s f k) .edgeAt (by decide)) (only_decisionSts s f k) (by decide)

theorem noticeAfter_onlyParts (c : Nat) : OnlyParts [.job, .links, .outbox] s (s.noticeAfter f c) := by
  unfold State.noticeAfter
  split
  · exact OnlyParts.ite (((withJob_onlyParts s _).mono (by decide)).then (sendFrames_onlyParts _ _ _ _ _) (by decide)) (OnlyParts.refl _ s)
  · exact OnlyParts.refl _ s

theorem outGrows_noticeAfter (c : Nat) : OutGrows s (s.noticeAfter f c) := by
  unfold State.noticeAfter
  split
  · exact OutGrows.ite ((OutGrows.of_parts (withJob_onlyParts s _) (by decide)).trans (outGrows_sendFrames _ _ _ _ _)) (OutGrows.refl s)
  · exact OutGrows.refl s

end

/-- A frame sent over every child link adds one frame for each of them (R391). -/
theorem sendFrames_childLinks_outbox (s : State) (c kind flit : Nat) :
    (s.sendFrames s.childLinks c kind flit).outbox = s.outbox ++ treeOut s s.childLinks c kind flit :=
  sendFrames_outbox c kind flit s.childLinks s (fun _ h => childLinks_lt h) (childLinks_nodup s)

/-- Where only the links' registers matter, a frame sent over every child link is the one that the earlier state would send. -/
theorem sendFrames_childLinks_outbox_of {s t : State} (h : SameLinkRegs s t) (hl : t.links = s.links) (c kind flit : Nat) :
    (t.sendFrames s.childLinks c kind flit).outbox = t.outbox ++ treeOut s s.childLinks c kind flit := by
  have hk : ∀ l, t.link l = s.link l := fun l => by rw [State.link, State.link, hl]
  rw [sendFrames_outbox c kind flit s.childLinks t (fun _ m => childLinks_lt m) (childLinks_nodup s),
    h.treeOut (fun l m => ⟨childLinks_lt m, hk l⟩)]

/-! ### COMMIT_TOKEN -/

/-- The master's token, decided, sent and held. -/
def tokenDecided (s : State) (f : ImageFile) (at_ : Nat) : State :=
  let k := s.masterToken f
  (((s.decisionSts f k).sendFrames s.childLinks (s.treeCycle f at_) 2
    (tokenFlit k ((tokenCopy s).getD 0))).noticeAfter f (s.treeCycle f at_)).holdToken f k (tokenCopy s)

/-- A delivered token, forwarded, and held when it names this tick. -/
def tokenForwarded (s : State) (f : ImageFile) (at_ : Nat) (k copy : BitVec 256) : State :=
  let u := s.sendFrames s.childLinks at_ 2 (tokenFlit k copy)
  if tokTick k = u.tickCount then u.holdToken f k (if copy = 0 then none else some copy) else u

section
variable {f : ImageFile} {p : PlanImg} {s : State} {at_ : Nat} (h : InTick f p s) (hr : s.reloading = false)
  (hs : Settled s at_)
include h hr

/-- No module takes a second token for an edge. -/
theorem exec_commitToken_again (frame : Option (BitVec 256 × BitVec 256)) (ht : s.job.token.isSome = true) :
    exec (.commitToken at_ frame) s = .next s := by
  obtain ⟨⟨hrun, -⟩, hactive, himg, -⟩ := h
  change Host.Outcome.next _ = _
  simp only [live_runs hrun, hactive, hr, himg, State.commitToken, ht]
  rfl

include hs

theorem exec_commitToken_master (frame : Option (BitVec 256 × BitVec 256)) (ht : s.job.token = none)
    (hm : s.fbit HULL_ORCH_MASTER = true) :
    exec (.commitToken at_ frame) s = .next (tokenDecided (s.advance at_) f at_) := by
  obtain ⟨⟨hrun, -⟩, hactive, himg, -⟩ := h
  have hcopy : (match (s.advance at_).job.lastToken with
      | some q => if (tokTick q + 1 == (s.advance at_).tickCount) = true then some q else none
      | none => none) = tokenCopy (s.advance at_) := by
    unfold tokenCopy
    split <;> simp
  change Host.Outcome.next _ = _
  simp only [live_runs hrun, hactive, hr, himg, State.commitToken, ht, hm, upTo_settled _ _ hs, tokenDecided, ← hcopy]
  rfl

theorem exec_commitToken_frame (k copy : BitVec 256) (ht : s.job.token = none) (hm : s.fbit HULL_ORCH_MASTER = false) :
    exec (.commitToken at_ (some (k, copy))) s = .next (tokenForwarded (s.advance at_) f at_ k copy) := by
  obtain ⟨⟨hrun, -⟩, hactive, himg, -⟩ := h
  change Host.Outcome.next _ = _
  simp only [live_runs hrun, hactive, hr, himg, State.commitToken, ht, hm, upTo_settled _ _ hs, tokenForwarded, beq_iff_eq]
  rfl

theorem exec_commitToken_lost (ht : s.job.token = none) (hm : s.fbit HULL_ORCH_MASTER = false) :
    exec (.commitToken at_ none) s = .next (s.advance at_) := by
  obtain ⟨⟨hrun, -⟩, hactive, himg, -⟩ := h
  change Host.Outcome.next _ = _
  simp only [live_runs hrun, hactive, hr, himg, State.commitToken, ht, hm, upTo_settled _ _ hs]
  rfl

end

section
variable (s : State) (f : ImageFile) (at_ : Nat)

theorem tokenDecided_onlyParts :
    OnlyParts [.regs, .run, .job, .attend, .fifos, .cap, .links, .outbox] s (tokenDecided s f at_) := by
  simp only [tokenDecided]
  exact ((((decisionSts_onlyParts s f _).mono (by decide)).then (sendFrames_onlyParts _ _ _ _ _) (by decide)).then
    (noticeAfter_onlyParts _ _ _) (by decide)).then (holdToken_onlyParts _ _ _ _) (by decide)

theorem tokenDecided_job : (tokenDecided s f at_).job.token = some (s.masterToken f, tokenCopy s) ∧
    (tokenDecided s f at_).job.lastToken = some (s.masterToken f) := by
  simp only [tokenDecided, holdToken_job, and_self]

/-- The master's token leaves on every child link. -/
theorem tokenDecided_sends : ∀ o ∈ treeOut s s.childLinks (s.treeCycle f at_) 2
    (tokenFlit (s.masterToken f) ((tokenCopy s).getD 0)), o ∈ (tokenDecided s f at_).outbox := by
  intro o ho
  set k := s.masterToken f
  set u := (s.decisionSts f k).sendFrames s.childLinks (s.treeCycle f at_) 2
    (tokenFlit k ((tokenCopy s).getD 0)) with hu
  have hout := sendFrames_childLinks_outbox_of (decisionSts_sameLinkRegs s f k)
    ((decisionSts_onlyParts s f k) .links (by decide)) (s.treeCycle f at_) 2 (tokenFlit k ((tokenCopy s).getD 0))
  have hsent : o ∈ u.outbox := by
    rw [hu, hout]
    exact List.mem_append_right _ ho
  simp only [tokenDecided]
  exact ((outGrows_noticeAfter u f _).trans (OutGrows.of_parts (holdToken_onlyParts _ _ _ _) (by decide))).mem hsent

theorem tokenDecided_shows (h : Inv s) : (tokenDecided s f at_).fget TICK_PLAN_NEXT = tokPlan (s.masterToken f) ∧
    (tokenDecided s f at_).fbit TICK_PLAN_NEXT_VALID = true := by
  simp only [tokenDecided]
  exact holdToken_shows _ _ _ _ ((noticeAfter_keeps _ _ _ (sendFrames_keeps _ _ _ _ _ (decisionSts_keeps _ _ _ (Keeps.refl s)))).inv h)

variable (k copy : BitVec 256)

theorem tokenForwarded_onlyParts : OnlyParts [.regs, .job, .links, .outbox] s (tokenForwarded s f at_ k copy) := by
  have h := (sendFrames_onlyParts s s.childLinks at_ 2 (tokenFlit k copy)).mono (qs := [.regs, .job, .links, .outbox]) (by decide)
  exact OnlyParts.ite (h.then (holdToken_onlyParts _ _ _ _) (by decide)) h

theorem only_tokenForwarded : OnlyRegs [TICK_PLAN.base] s (tokenForwarded s f at_ k copy) := by
  have h := (sendFrames_onlyParts s s.childLinks at_ 2 (tokenFlit k copy)).onlyRegs (by decide) [TICK_PLAN.base]
  exact OnlyRegs.ite (h.trans (only_holdToken _ _ _ _)) h

theorem tokenForwarded_sends :
    (tokenForwarded s f at_ k copy).outbox = s.outbox ++ treeOut s s.childLinks at_ 2 (tokenFlit k copy) := by
  simp only [tokenForwarded]
  split
  · rw [(holdToken_onlyParts _ _ _ _) .outbox (by decide), sendFrames_childLinks_outbox]
  · exact sendFrames_childLinks_outbox _ _ _ _

theorem tokenForwarded_holds (ht : s.job.token = none) : (tokenForwarded s f at_ k copy).job.token =
    if tokTick k = s.tickCount then some (k, if copy = 0 then none else some copy) else none := by
  have htick : (s.sendFrames s.childLinks at_ 2 (tokenFlit k copy)).tickCount = s.tickCount := fget_sendFrames ..
  simp only [tokenForwarded, htick]
  split
  · simp only [holdToken_job]
  · simpa using ht

end

/-- Settles O14: the master's token is decided, sent with its copy and held; a delivered one is forwarded and held. -/
theorem commitTokenIsSentForwardedAndHeld : Obligations.CommitTokenIsSentForwardedAndHeld := by
  intro s f p at_ hin hr hs
  have hinv : Inv (s.advance at_) := hin.1.2
  have hadv := advance_onlyParts s at_
  refine ⟨fun frame => exec_commitToken_again hin hr frame, ?_, fun k copy ht hm => ?_,
    exec_commitToken_lost hin hr hs⟩
  · intro frame ht hm k copy
    obtain ⟨htoken, hlast⟩ := tokenDecided_job (s.advance at_) f at_
    obtain ⟨hplan, hvalid⟩ := tokenDecided_shows (s.advance at_) f at_ hinv
    exact ⟨_, exec_commitToken_master hin hr hs frame ht hm, htoken, hlast, tokenDecided_sends (s.advance at_) f at_, hplan, hvalid,
      (hadv.mono (by decide)).then (tokenDecided_onlyParts _ _ _) (by decide)⟩
  · exact ⟨_, exec_commitToken_frame hin hr hs k copy ht hm, (tokenForwarded_onlyParts _ f at_ k copy) .now (by decide),
      tokenForwarded_sends (s.advance at_) f at_ k copy, tokenForwarded_holds _ _ _ _ _ ht,
      (hadv.mono (by decide)).then (tokenForwarded_onlyParts _ _ _ _ _) (by decide), only_tokenForwarded (s.advance at_) f at_ k copy⟩

end Sys2Proof.Laws
end

section
/-! PROOFS. Tick markers (R62 to R64). -/

namespace Sys2Proof.Laws

open Sys2Proof.Machine Sys2Proof.Safety

/-! ### MARKER_SEND and MARKER -/

section
variable {s : State} (h : Awake s) (hactive : s.run.active = true)
include h hactive

theorem exec_markerSend (hm : s.fbit HULL_ORCH_MASTER = true) (hs : Settled s (s.predictedEdge - s.fget TICK_LEAD_LEAD)) :
    exec .markerSend s = .next ((s.advance (s.predictedEdge - s.fget TICK_LEAD_LEAD)).sendFrames s.childLinks
      (s.predictedEdge - s.fget TICK_LEAD_LEAD) 3 (packFlit [(8, s.tickCount + 1)])) := by
  change Host.Outcome.next _ = _
  simp only [live_runs h.1, State.markerSend, hactive, hm, upTo_settled _ _ hs]
  rfl

end

/-- The next edge fixed by the marker that arrived on cycle `c`, sent on to the children. -/
def markerTaken (s : State) (c : Nat) : State :=
  (s.sendFrames s.childLinks c 3 (packFlit [(8, s.tickCount + 1)])).withJob
    (fun j => { j with markerEdge := some (c + s.fget TICK_LEAD_LEAD - s.fget TICK_LEAD_PATH), markersLost := 0 })

/-- A marker off its prediction: counted, class B. -/
def markerFaulted (s : State) (c : Nat) : State := ((markerTaken s c).fadd TICK_ALIGN_ALIGN_FAULTS 1).classBSts 1 TICK_STS_ALIGN_FAULT

theorem exec_marker {s : State} {c : Nat} (h : Awake s) (hactive : s.run.active = true) (hm : s.fbit HULL_ORCH_MASTER = false)
    (hedge : s.job.markerEdge = none) (hs : Settled s c) :
    let e := c + s.fget TICK_LEAD_LEAD - s.fget TICK_LEAD_PATH
    exec (.marker c (s.tickCount + 1)) s = .next (if 2 ≤ (e - s.predictedEdge) + (s.predictedEdge - e)
      then markerFaulted (s.advance c) c else markerTaken (s.advance c) c) := by
  have hpred : ((s.advance c).sendFrames s.childLinks c 3 (packFlit [(8, s.tickCount + 1)])).predictedEdge = s.predictedEdge := by
    simp [State.predictedEdge]
  change Host.Outcome.next _ = _
  simp only [live_runs h.1, State.marker, hactive, hm, hedge, upTo_settled _ _ hs, hpred, fget_sendFrames, fget_advance]
  simp
  rfl

section
variable (s : State) (c : Nat)

theorem markerTaken_onlyParts : OnlyParts [.job, .links, .outbox] s (markerTaken s c) :=
  ((sendFrames_onlyParts s _ _ _ _).mono (by decide)).then (withJob_onlyParts _ _) (by decide)

theorem markerTaken_outbox :
    (markerTaken s c).outbox = s.outbox ++ treeOut s s.childLinks c 3 (packFlit [(8, s.tickCount + 1)]) :=
  sendFrames_childLinks_outbox _ _ _ _

theorem markerTaken_keeps : Keeps s (markerTaken s c) := withJob_keeps _ _ (sendFrames_keeps _ _ _ _ _ (Keeps.refl s))

theorem markerFault_onlyParts :
    OnlyParts [.regs, .run, .fifos, .cap, .outbox] (markerTaken s c) (markerFaulted s c) :=
  ((fadd_onlyParts _ _ _).mono (by decide)).then (classBSts_onlyParts _ _ _) (by decide)

theorem only_markerFaulted : OnlyRegs ([TICK_ALIGN.base, TICK_STS.base] ++ noteRegs) s (markerFaulted s c) :=
  (((markerTaken_onlyParts s c).onlyRegs (by decide) _).trans (only_fadd _ TICK_ALIGN_ALIGN_FAULTS 1 (by decide))).trans
    (only_classBSts _ _ _ (by decide) (by decide))

theorem markerFaulted_counts (h : Inv s) : (markerFaulted s c).fget TICK_ALIGN_ALIGN_FAULTS =
    min (s.fget TICK_ALIGN_ALIGN_FAULTS + 1) (2 ^ 16 - 1) := by
  have hw := ((markerTaken_keeps s c).inv h).1.1
  have hs : (markerTaken s c).fget TICK_ALIGN_ALIGN_FAULTS = s.fget TICK_ALIGN_ALIGN_FAULTS := by simp [markerTaken]
  rw [markerFaulted, (only_classBSts (ks := TICK_STS.base :: noteRegs) _ _ _ (by decide) (by decide)).fget _ (by decide),
    fget_fadd_same _ _ 1 hw (by decide), hs]
  rfl

theorem markerFaulted_raises (h : Inv s) : (markerFaulted s c).fbit TICK_STS_ALIGN_FAULT = true ∧ RaisesB s (markerFaulted s c) := by
  have hk := fadd_keeps _ TICK_ALIGN_ALIGN_FAULTS 1 (markerTaken_keeps s c)
  refine ⟨fbit_classBSts _ _ _ (hk.inv h).1.1 (by decide) rfl (by decide), ?_⟩
  refine (classBSts_raisesB _ _ _).after (MarkedB.of_run ?_)
  simp [markerTaken]

end

/-! ### MARKER_LOST -/

/-- No marker by the predicted edge: one more is lost, and counted. -/
def markerMissing (s : State) : State :=
  (s.withJob (fun j => { j with lostAtEdge := true, markersLost := s.job.markersLost + 1 })).fadd TICK_ALIGN_MARKERS_LOST 1

/-- The first lost marker is noted; a second one in a row is class C (R64). -/
def markerMissNoted (s : State) : State :=
  if 2 ≤ s.job.markersLost + 1 then (markerMissing s).classCWith 1 TICK_STS_MARKER_LOST 3 0
  else (((markerMissing s).setSts 1 TICK_STS_MARKER_LOST).traceAB 1 1 TICK_STS_MARKER_LOST).capFault 1

theorem exec_markerLost {s : State} (h : Awake s) (hactive : s.run.active = true) (hm : s.fbit HULL_ORCH_MASTER = false)
    (hedge : s.job.markerEdge = none) (hlost : s.job.lostAtEdge = false) (hs : Settled s s.predictedEdge) :
    exec .markerLost s = .next (markerMissNoted (s.advance s.predictedEdge)) := by
  change Host.Outcome.next _ = _
  simp only [live_runs h.1, State.markerMissed, hactive, hm, hedge, hlost, upTo_settled _ _ hs]
  rfl

section
variable (s : State)

theorem markerMissing_onlyParts : OnlyParts [.regs, .job] s (markerMissing s) :=
  ((withJob_onlyParts s _).mono (by decide)).then (fadd_onlyParts _ _ _) (by decide)

theorem markerMissing_job : (markerMissing s).job = { s.job with lostAtEdge := true, markersLost := s.job.markersLost + 1 } := by
  simp [markerMissing, State.withJob]

theorem markerMissing_counts (h : Inv s) : (markerMissing s).fget TICK_ALIGN_MARKERS_LOST =
    min (s.fget TICK_ALIGN_MARKERS_LOST + 1) (2 ^ 16 - 1) := by
  rw [markerMissing, fget_fadd_same _ _ 1 (by simpa using h.1.1) (by decide), fget_withJob]
  rfl

theorem markerMissing_wf (h : Inv s) : tabWf resetOf (markerMissing s).regs = true :=
  ((fadd_keeps _ TICK_ALIGN_MARKERS_LOST 1 (withJob_keeps _ _ (Keeps.refl s))).inv h).1.1

theorem first_markerMissNoted (h : s.job.markersLost = 0) : markerMissNoted s =
    (((markerMissing s).setSts 1 TICK_STS_MARKER_LOST).traceAB 1 1 TICK_STS_MARKER_LOST).capFault 1 := by
  rw [markerMissNoted, h]
  rfl

theorem second_markerMissNoted (h : s.job.markersLost ≠ 0) :
    markerMissNoted s = (markerMissing s).classCWith 1 TICK_STS_MARKER_LOST 3 0 :=
  if_pos (by omega)

/-- What a lost marker writes besides its count: the status, notes and the class C count. -/
theorem only_markerMissNoted :
    OnlyRegs ([TICK_STS.base, (FAULT_CNT_C_RAISED.pageOf 1).base] ++ noteRegs) (markerMissing s) (markerMissNoted s) := by
  refine OnlyRegs.ite (only_classCWith _ _ _ _ _ (by decide) (by decide) (by decide)) ?_
  exact ((only_setSts _ _ _ (by decide)).trans (only_traceAB _ _ _ _ (by decide))).trans (only_capFault _ _ (by decide))

theorem firstMiss_onlyParts (t : State) : OnlyParts [.regs, .fifos, .cap, .outbox] t
    (((t.setSts 1 TICK_STS_MARKER_LOST).traceAB 1 1 TICK_STS_MARKER_LOST).capFault 1) :=
  (((setSts_onlyParts t _ _).mono (by decide)).then (traceAB_onlyParts _ _ _ _) (by decide)).then (capFault_onlyParts _ _) (by decide)

theorem markerMissNoted_onlyParts :
    OnlyParts [.regs, .run, .attend, .fifos, .cap, .outbox] (markerMissing s) (markerMissNoted s) :=
  OnlyParts.ite (classCWith_onlyParts _ _ _ _ _) ((firstMiss_onlyParts _).mono (by decide))

theorem markerMissNoted_sts (h : Inv s) : (markerMissNoted s).fbit TICK_STS_MARKER_LOST = true := by
  have hw := markerMissing_wf s h
  by_cases h0 : s.job.markersLost = 0
  · have ho : OnlyRegs noteRegs ((markerMissing s).setSts 1 TICK_STS_MARKER_LOST) (markerMissNoted s) := by
      rw [first_markerMissNoted s h0]
      exact (only_traceAB _ _ _ _ (fun _ m => m)).trans (only_capFault _ _ (fun _ m => m))
    rw [ho.fbit _ (by decide)]
    exact fbit_setSts _ _ _ hw (by decide) rfl
  · rw [second_markerMissNoted s h0]
    exact fbit_of_fget (fget_classCWith _ _ _ _ _ hw (by decide) rfl (by decide) (by decide))

end

/-- Settles O15: the master's marker, one received, and one lost, each from its own operation. -/
theorem markersFixTheNextEdge : Obligations.MarkersFixTheNextEdge := by
  intro s hawake hactive
  refine ⟨?_, ?_, fun hm hedge hlost hs => ?_⟩
  · intro hm c hs
    refine ⟨_, exec_markerSend hawake hactive hm hs, ?_, ?_, ?_⟩
    · simp [State.advance, c]
    · exact sendFrames_childLinks_outbox (s.advance c) c 3 _
    · exact ((advance_onlyParts s c).mono (by decide)).then (sendFrames_onlyParts _ _ _ _ _) (by decide)
  · intro c hm hedge hs e
    set u := s.advance c
    have hinv : Inv u := hawake.2
    have hp := markerTaken_onlyParts u c
    have hfp := markerFault_onlyParts u c
    have hall : OnlyParts [.now, .job, .regs, .run, .fifos, .cap, .links, .outbox] s
        (if 2 ≤ (e - s.predictedEdge) + (s.predictedEdge - e) then markerFaulted u c else markerTaken u c) :=
      OnlyParts.ite ((((advance_onlyParts s c).mono (by decide)).then hp (by decide)).then hfp (by decide))
        (((advance_onlyParts s c).mono (by decide)).then hp (by decide))
    have hjob : (if 2 ≤ (e - s.predictedEdge) + (s.predictedEdge - e) then markerFaulted u c else markerTaken u c).job =
        (markerTaken u c).job := by
      split
      · exact hfp .job (by decide)
      · rfl
    have hgrow : OutGrows (markerTaken u c)
        (if 2 ≤ (e - s.predictedEdge) + (s.predictedEdge - e) then markerFaulted u c else markerTaken u c) :=
      OutGrows.ite ((OutGrows.of_parts (fadd_onlyParts _ _ _) (by decide)).trans (outGrows_classBSts _ _ _)) (OutGrows.refl _)
    refine ⟨_, exec_marker hawake hactive hm hedge hs, ?_, ?_, ?_, ?_, ?_, ?_, hall, ?_⟩
    · split
      · exact (hp .now (by decide)).trans (hfp .now (by decide))
      · exact hp .now (by decide)
    · rw [hjob]
      rfl
    · rw [hjob]
      rfl
    · intro o ho
      refine hgrow.mem ?_
      rw [markerTaken_outbox]
      exact List.mem_append_right _ ho
    · intro hfar
      rw [if_pos (by omega)]
      obtain ⟨hsts, hraise⟩ := markerFaulted_raises u c hinv
      exact ⟨markerFaulted_counts u c hinv, hsts, hraise⟩
    · intro hlo hhi
      rw [if_neg (by omega)]
      exact ((advance_onlyParts s c).mono (by decide)).then hp (by decide)
    · exact OnlyRegs.ite (only_markerFaulted u c) (hp.onlyRegs (by decide) _)
  · set u := s.advance s.predictedEdge
    have hinv : Inv u := hawake.2
    have hadv := advance_onlyParts s s.predictedEdge
    have hp := markerMissing_onlyParts u
    have hnp := markerMissNoted_onlyParts u
    have hjob : (markerMissNoted u).job = (markerMissing u).job := hnp .job (by decide)
    refine ⟨_, exec_markerLost hawake hactive hm hedge hlost hs, ?_, ?_, ?_, ?_, markerMissNoted_sts u hinv, ?_, ?_, ?_⟩
    · exact (hp .now (by decide)).trans (hnp .now (by decide))
    · rw [hjob, markerMissing_job]
    · rw [hjob, markerMissing_job]
      rfl
    · rw [(only_markerMissNoted u).fget _ (by decide)]
      exact markerMissing_counts u hinv
    · intro h0
      rw [second_markerMissNoted u h0]
      have hr := classCWith_raisesC (markerMissing u) 1 TICK_STS_MARKER_LOST 3 0
      have hsame : (markerMissing u).run = s.run := hp .run (by decide)
      unfold RaisesC at hr ⊢
      rw [hsame] at hr
      exact ⟨hr, classCWith_expiry _ _ _ _ _⟩
    · intro h0
      rw [first_markerMissNoted u h0]
      exact ((hadv.mono (by decide)).then hp (by decide)).then (firstMiss_onlyParts _) (by decide)
    · exact ((hadv.mono (by decide)).then hp (by decide)).then hnp (by decide)

end Sys2Proof.Laws
end

section
/-! PROOFS. Notices and layouts (R402, R410, R517). -/

namespace Sys2Proof.Laws

open Sys2Proof.Machine Sys2Proof.Safety

/-! ### An abort notice on the tree (R410) -/

/-- Frames of one flit sent on a link in the slots that begin on some cycles. -/
def linkSends (l kind flit : Nat) (ys : List Nat) (s : State) : State := ys.foldl (fun s y => s.linkSend l y kind flit) s

theorem sameLinkRegs_linkSends (l kind flit : Nat) (ys : List Nat) (s : State) : SameLinkRegs s (linkSends l kind flit ys s) :=
  List.foldlRecOn ys _ (SameLinkRegs.refl s) (fun t h y _ => h.trans (sameLinkRegs_linkSend t l y kind flit))

theorem linkSends_onlyParts (l kind flit : Nat) (ys : List Nat) (s : State) :
    OnlyParts [.links, .outbox] s (linkSends l kind flit ys s) :=
  List.foldlRecOn ys _ (OnlyParts.refl _ s) (fun t h y _ => h.trans (linkSend_onlyParts t l y kind flit))

theorem outGrows_linkSends (l kind flit : Nat) (ys : List Nat) (s : State) : OutGrows s (linkSends l kind flit ys s) :=
  List.foldlRecOn ys _ (OutGrows.refl s) (fun t h y _ => h.trans (outGrows_linkSend t l y kind flit))

/-- A frame leaves in each of the slots. -/
theorem linkSends_frame {l y : Nat} (kind flit : Nat) (hl : l < 16) (ys : List Nat) (s : State) (hy : y ∈ ys) :
    ∃ hdr, Out.frame l y kind [hdr, flit] ∈ (linkSends l kind flit ys s).outbox := by
  induction ys generalizing s with
  | nil => exact absurd hy List.not_mem_nil
  | cons z ys ih =>
    rcases List.mem_cons.1 hy with rfl | hy
    · have hsent : Out.frame l y kind [frameHeader s l y (s.seqAt l y) kind (s.lnkSlot l (y - s.edgeAt)).2, flit] ∈
          (s.linkSend l y kind flit).outbox := by
        rw [linkSend_outbox s hl, frameOut]
        exact List.mem_append_right _ (List.mem_cons_self ..)
      exact ⟨_, (outGrows_linkSends l kind flit ys (s.linkSend l y kind flit)).mem hsent⟩
    · exact ih (s.linkSend l z kind flit) hy

section
variable {s t : State} (h : SameLinkRegs s t) (himg : t.image = s.image)
  (hm : t.fget HULL_ORCH_MODULE = s.fget HULL_ORCH_MODULE) (hp : t.fget TICK_PLAN_CUR = s.fget TICK_PLAN_CUR)
include himg hm hp

theorem linkWords_congr (l : Nat) : t.linkWords l = s.linkWords l := by
  simp only [State.linkWords, himg, hm, hp]

include h

theorem controlCycles_congr {l : Nat} (hl : l < 16) (c : Nat) : t.controlCycles l c = s.controlCycles l c := by
  simp only [State.controlCycles, linkWords_congr himg hm hp, h.lnkWin hl, h.slotCycle hl]

end

/-- The notice on some links, in turn. -/
def noticeOn (c flit : Nat) (links : List Nat) (s : State) : State :=
  links.foldl (fun s l => linkSends l 2 flit (s.controlCycles l c) s) s

theorem sendNotice_eq (s : State) (c origin cause : Nat) :
    s.sendNotice c origin cause = noticeOn c (noticeFlit origin cause) s.treeLinks s := rfl

theorem outGrows_noticeOn (c flit : Nat) (links : List Nat) (s : State) : OutGrows s (noticeOn c flit links s) :=
  List.foldlRecOn links _ (OutGrows.refl s) (fun t h l _ => h.trans (outGrows_linkSends l 2 flit _ t))

/-- The notice leaves in every CONTROL slot of each link. -/
theorem noticeOn_frame {c l y : Nat} (flit : Nat) (links : List Nat) (s : State) (h16 : ∀ l ∈ links, l < 16) (hl : l ∈ links)
    (hy : y ∈ s.controlCycles l c) : ∃ hdr, Out.frame l y 2 [hdr, flit] ∈ (noticeOn c flit links s).outbox := by
  induction links generalizing s with
  | nil => exact absurd hl List.not_mem_nil
  | cons m links ih =>
    rcases List.mem_cons.1 hl with rfl | hrest
    · obtain ⟨hdr, hout⟩ := linkSends_frame 2 flit (h16 l hl) (s.controlCycles l c) s hy
      exact ⟨hdr, (outGrows_noticeOn c flit links _).mem hout⟩
    · have hsame := sameLinkRegs_linkSends m 2 flit (s.controlCycles m c) s
      have hparts := linkSends_onlyParts m 2 flit (s.controlCycles m c) s
      have hregs := hparts.onlyRegs (by decide) []
      have himg : (linkSends m 2 flit (s.controlCycles m c) s).image = s.image :=
        image_congr (congrArg JobRun.ctx (hparts .job (by decide))) (hparts .ctxs (by decide))
      refine ih (linkSends m 2 flit (s.controlCycles m c) s) (fun k hk => h16 k (List.mem_cons_of_mem _ hk)) hrest ?_
      rwa [controlCycles_congr hsame himg (hregs.fget _ List.not_mem_nil) (hregs.fget _ List.not_mem_nil) (h16 l hl)]

theorem sendNotice_onlyParts (s : State) (c origin cause : Nat) : OnlyParts [.links, .outbox] s (s.sendNotice c origin cause) :=
  List.foldlRecOn s.treeLinks _ (OnlyParts.refl _ s) (fun t h l _ => h.trans (linkSends_onlyParts l 2 _ _ t))

/-! ### ABORT_NOTICE -/

/-- The notice shown on its link. -/
def noticeSeen (s : State) (link : Nat) : State := s.setSts (12 + link % 16 / 4) (LNK_STS_ABORT_SEEN.die (link % 16 / 4))

/-- The first notice sets the abort. -/
def abortSet (s : State) (origin cause : Nat) : State :=
  (s.withJob (fun j => { j with aborting := some (origin, cause) })).setSts 0 HULL_ORCH_STS_ABORT_RECEIVED

theorem exec_abortNotice {s : State} {at_ : Nat} (link origin cause : Nat) (h : Awake s) (hactive : s.run.active = true)
    (hs : Settled s at_) : exec (.abortNotice at_ link origin cause) s =
      .next (if s.job.aborting.isSome then noticeSeen (s.advance at_) link
        else (abortSet (noticeSeen (s.advance at_) link) origin cause).sendNotice at_ origin cause) := by
  have hjob : ((s.advance at_).setSts (12 + link % 16 / 4) (LNK_STS_ABORT_SEEN.die (link % 16 / 4))).job = s.job := by simp
  change Host.Outcome.next _ = _
  simp only [live_runs h.1, hactive, if_true, upTo_settled _ _ hs, hjob, noticeSeen, abortSet]

/-- LNK_STS of a die is none of the module's own registers. -/
theorem lnkSts_ne (k : Nat) {b : Nat} (h : b < 0xC000000) : (LNK_STS.die k).base ≠ b := by
  have e : (LNK_STS.die k).base = LNK_STS.base + k * 0x1000000 := rfl
  have hb : 0xC000000 ≤ LNK_STS.base := by decide
  omega

section
variable (s : State) (link origin cause c : Nat)

theorem noticeSeen_onlyParts : OnlyParts [.regs, .outbox] s (noticeSeen s link) := setSts_onlyParts _ _ _

theorem only_noticeSeen : OnlyRegs [(LNK_STS.die (link % 16 / 4)).base] s (noticeSeen s link) :=
  only_setSts _ _ _ (List.mem_cons_self ..)

theorem noticeSeen_sts (h : Inv s) : (noticeSeen s link).fbit (LNK_STS_ABORT_SEEN.die (link % 16 / 4)) = true :=
  fbit_setSts _ _ _ h.1.1 (die_width _ (by decide)) rfl

theorem noticeSeen_keeps : Keeps s (noticeSeen s link) := setSts_keeps _ _ _ (Keeps.refl s)

theorem abortSet_onlyParts : OnlyParts [.regs, .job, .outbox] s (abortSet s origin cause) :=
  ((withJob_onlyParts s _).mono (by decide)).then (setSts_onlyParts _ _ _) (by decide)

theorem only_abortSet : OnlyRegs [HULL_ORCH_STS.base] s (abortSet s origin cause) :=
  ((withJob_onlyParts s _).onlyRegs (by decide) _).trans (only_setSts _ _ _ (by decide))

theorem abortSet_job : (abortSet s origin cause).job = { s.job with aborting := some (origin, cause) } := by
  simp [abortSet, State.withJob]

theorem abortSet_sts (h : Inv s) : (abortSet s origin cause).fbit HULL_ORCH_STS_ABORT_RECEIVED = true :=
  fbit_setSts _ _ _ (by simpa using h.1.1) (by decide) rfl

/-- The status bits of a notice touch none of the registers that the tree's frames depend on. -/
theorem abortSet_sameLinkRegs : SameLinkRegs s (abortSet (noticeSeen s link) origin cause) := by
  have hk : ∀ k ∈ linkKeys, ∀ j, j < 4 → k ≠ (LNK_STS.die j).base := by decide
  refine (SameLinkRegs.of_only ((noticeSeen_onlyParts s link) .edgeAt (by decide)) (only_noticeSeen s link) ?_).trans
    (SameLinkRegs.of_only ((abortSet_onlyParts _ _ _) .edgeAt (by decide)) (only_abortSet _ _ _) (by decide))
  intro k hm
  rw [List.mem_singleton]
  exact hk k hm _ (by omega)

/-- The first notice goes on in every CONTROL slot that is left of every tree link. -/
theorem abortSent_frames : ∀ l ∈ s.treeLinks, ∀ y ∈ s.controlCycles l c, ∃ hdr, Out.frame l y 2 [hdr, noticeFlit origin cause] ∈
    ((abortSet (noticeSeen s link) origin cause).sendNotice c origin cause).outbox := by
  intro l hl y hy
  have hsame := abortSet_sameLinkRegs s link origin cause
  have hparts : OnlyParts [.regs, .job, .outbox] s (abortSet (noticeSeen s link) origin cause) :=
    ((noticeSeen_onlyParts s link).mono (by decide)).then (abortSet_onlyParts _ _ _) (by decide)
  have himg : (abortSet (noticeSeen s link) origin cause).image = s.image :=
    image_congr (by rw [abortSet_job, (noticeSeen_onlyParts s link) .job (by decide)]) (hparts .ctxs (by decide))
  have hget {g : Fld} (hg : g.base < 0xC000000) (hne : g.base ≠ HULL_ORCH_STS.base) :
      (abortSet (noticeSeen s link) origin cause).fget g = s.fget g := by
    rw [(only_abortSet _ _ _).fget g (by simpa using hne),
      (only_noticeSeen s link).fget g (by simpa using (lnkSts_ne _ hg).symm)]
  rw [sendNotice_eq, hsame.treeLinks]
  refine noticeOn_frame _ _ _ (fun m hm => treeLinks_lt hm) hl ?_
  rwa [controlCycles_congr hsame himg (hget (by decide) (by decide)) (hget (by decide) (by decide)) (treeLinks_lt hl)]

end

/-! ### CAPTURE_NOTICE -/

/-- A capture notice held for its tick. -/
def captureHeld (s : State) (tick cycle : Nat) : State :=
  (s.withJob (fun j => { j with captureAt := some (tick, cycle) })).fset HULL_CAPTURE_ID_ARMED_ORCH 1

theorem exec_captureNotice {s : State} {at_ : Nat} (tick cycle : Nat) (h : Awake s) (hactive : s.run.active = true)
    (hs : Settled s at_) : exec (.captureNotice at_ tick cycle) s =
      .next (if s.fbit HULL_CAPTURE_CFG_ORCH_EN then
        captureHeld ((s.advance at_).sendFrames s.childLinks at_ 2 (captureFlit tick cycle)) tick cycle
        else (s.advance at_).sendFrames s.childLinks at_ 2 (captureFlit tick cycle)) := by
  have hen : ((s.advance at_).sendFrames s.childLinks at_ 2 (captureFlit tick cycle)).fbit HULL_CAPTURE_CFG_ORCH_EN =
      s.fbit HULL_CAPTURE_CFG_ORCH_EN := by rw [State.fbit, fget_sendFrames]; rfl
  change Host.Outcome.next _ = _
  simp only [live_runs h.1, hactive, if_true, upTo_settled _ _ hs, State.holdNotice]
  rw [← hen]
  rfl

section
variable (s : State) (tick cycle : Nat)

theorem captureHeld_onlyParts : OnlyParts [.regs, .job] s (captureHeld s tick cycle) :=
  ((withJob_onlyParts s _).mono (by decide)).then (fset_onlyParts _ _ _) (by decide)

theorem only_captureHeld : OnlyRegs [HULL_CAPTURE_ID.base] s (captureHeld s tick cycle) :=
  ((withJob_onlyParts s _).onlyRegs (by decide) _).trans (only_fset _ _ _ (by decide))

theorem captureHeld_armed (h : tabWf resetOf s.regs = true) : (captureHeld s tick cycle).job.captureAt = some (tick, cycle) ∧
    (captureHeld s tick cycle).fbit HULL_CAPTURE_ID_ARMED_ORCH = true := by
  refine ⟨?_, fbit_fset_one _ _ (by simpa using h) (by decide) rfl⟩
  simp [captureHeld, State.withJob]

end

/-! ### LAYOUT_SWITCH -/

/-- A layout in force and shown (R402). -/
def layoutSet (s : State) (l : Nat) : State := (s.withJob (fun j => { j with layout := l })).fset HULL_ORCH_LAYOUT l

theorem exec_layoutSwitch {s : State} {p : PlanImg} {phase : Nat} (h : Awake s) (hactive : s.run.active = true)
    (hplan : s.curPlan = some p) (hphase : phase < planNfence p) (hnew : phaseLayout p phase ≠ s.job.layout)
    (hs : Settled s (s.edgeAt + phaseStart p phase + 4096)) : exec (.layoutSwitch phase) s =
      .next (layoutSet (s.advance (s.edgeAt + phaseStart p phase + 4096)) (phaseLayout p phase)) := by
  change Host.Outcome.next _ = _
  simp only [live_runs h.1, hplan, hactive, hphase, bne_iff_ne.2 hnew, decide_true, Bool.and_self, if_true, upTo_settled _ _ hs]
  rfl

theorem layoutSet_onlyParts (s : State) (l : Nat) : OnlyParts [.regs, .job] s (layoutSet s l) :=
  ((withJob_onlyParts s _).mono (by decide)).then (fset_onlyParts _ _ _) (by decide)

/-- Settles O16: an abort notice, a capture notice and a layout switch, each from its own operation. -/
theorem noticesAndLayouts : Obligations.NoticesAndLayouts := by
  intro s hawake hactive
  refine ⟨fun at_ link origin cause hs => ?_, fun at_ tick cycle hs => ?_, fun p phase hplan hphase hnew hs => ?_⟩
  · set u := s.advance at_
    have hinv : Inv u := hawake.2
    have hadv := advance_onlyParts s at_
    have hseen := noticeSeen_onlyParts u link
    have hset := abortSet_onlyParts (noticeSeen u link) origin cause
    have hsent := sendNotice_onlyParts (abortSet (noticeSeen u link) origin cause) at_ origin cause
    rw [exec_abortNotice link origin cause hawake hactive hs]
    by_cases ha : s.job.aborting = none
    · have hregs : OnlyRegs [HULL_ORCH_STS.base] (noticeSeen u link)
          ((abortSet (noticeSeen u link) origin cause).sendNotice at_ origin cause) :=
        (only_abortSet _ _ _).trans (hsent.onlyRegs (by decide) _)
      rw [if_neg (by simp [ha])]
      refine ⟨_, rfl, ?_, ?_, fun _ => ⟨?_, ?_, abortSent_frames u link origin cause at_⟩, fun hne => absurd ha hne, ?_, ?_⟩
      · exact ((hseen .now (by decide)).trans (hset .now (by decide))).trans (hsent .now (by decide))
      · rw [hregs.fbit _ (by rw [List.mem_singleton]; exact lnkSts_ne _ (by decide))]
        exact noticeSeen_sts u link hinv
      · rw [hsent .job (by decide), abortSet_job]
      · rw [State.fbit, (hsent.onlyRegs (by decide) []).fget _ List.not_mem_nil]
        exact abortSet_sts _ _ _ ((noticeSeen_keeps u link).inv hinv)
      · exact (((hadv.mono (by decide)).then hseen (by decide)).then hset (by decide)).then hsent (by decide)
      · exact ((only_noticeSeen u link).mono (List.subset_cons_self _ _)).trans
          (hregs.mono (fun k hk => List.mem_singleton.1 hk ▸ List.mem_cons_self ..))
    · have hsome : s.job.aborting.isSome = true := by
        rw [Option.isSome_iff_ne_none]
        exact ha
      have hframe : OnlyParts [.now, .regs, .outbox] s (noticeSeen u link) := (hadv.mono (by decide)).then hseen (by decide)
      rw [if_pos hsome]
      exact ⟨_, rfl, hseen .now (by decide), noticeSeen_sts u link hinv, fun h => absurd h ha, fun _ => hframe,
        hframe.mono (by decide), (only_noticeSeen u link).mono (List.subset_cons_self _ _)⟩
  · set u := s.advance at_
    set v := u.sendFrames s.childLinks at_ 2 (captureFlit tick cycle) with hv
    have hadv := advance_onlyParts s at_
    have hsent : OnlyParts [.links, .outbox] u v := sendFrames_onlyParts _ _ _ _ _
    have hheld := captureHeld_onlyParts v tick cycle
    have hout : v.outbox = s.outbox ++ treeOut s s.childLinks at_ 2 (captureFlit tick cycle) :=
      sendFrames_childLinks_outbox u at_ 2 _
    have hwf : tabWf resetOf v.regs = true := by
      rw [hsent .regs (by decide)]
      exact hawake.2.1.1
    rw [exec_captureNotice tick cycle hawake hactive hs]
    by_cases hen : s.fbit HULL_CAPTURE_CFG_ORCH_EN = true
    · rw [if_pos hen]
      refine ⟨_, rfl, (hsent .now (by decide)).trans (hheld .now (by decide)), ?_, fun _ => captureHeld_armed v tick cycle hwf,
        fun h => absurd hen (by simp [h]), ((hadv.mono (by decide)).then hsent (by decide)).then hheld (by decide),
        (hsent.onlyRegs (by decide) _).trans (only_captureHeld v tick cycle)⟩
      rw [hheld .outbox (by decide), hout]
    · rw [if_neg hen]
      have hframe : OnlyParts [.now, .links, .outbox] s v := (hadv.mono (by decide)).then hsent (by decide)
      exact ⟨_, rfl, hsent .now (by decide), hout, fun h => absurd h hen, fun _ => hframe, hframe.mono (by decide),
        hsent.onlyRegs (by decide) _⟩
  · set u := s.advance (s.edgeAt + phaseStart p phase + 4096)
    have hp := layoutSet_onlyParts u (phaseLayout p phase)
    refine ⟨_, exec_layoutSwitch hawake hactive hplan hphase hnew hs, hp .now (by decide), ?_, ?_,
      ((advance_onlyParts s _).mono (by decide)).then hp (by decide), ?_⟩
    · simp [layoutSet, State.withJob]
    · exact fget_fset_same _ HULL_ORCH_LAYOUT _ (by simpa using hawake.2.1.1) (by decide)
    · exact ((withJob_onlyParts u _).onlyRegs (by decide) _).trans (only_fset _ _ _ (by decide))

end Sys2Proof.Laws
end

section
/-! PROOFS. DATA_FENCE_CHECK (R40, R41, R44, R45, R314, R316). -/

namespace Sys2Proof.Laws

open Sys2Proof.Machine Sys2Proof.Safety

/-! ### A data fence missed (R45) -/

/-- A data fence miss is counted, flagged and class B. -/
def DataMissed (s t : State) : Prop :=
  Counts TICK_CNT_FENCE_MISSES 1 s t ∧ t.fbit TICK_STS_DATA_FENCE_MISS = true ∧ RaisesB s t

theorem fenceMiss_dataMissed (s : State) (i : Nat) (h : Inv s) : DataMissed s (s.fenceMiss 0 i true 0) :=
  ⟨fenceMiss_counts s 0 i true 0 h.1.1, fenceMiss_sts s 0 i true 0 h, fenceMiss_raisesB s 0 i true 0⟩

/-- What comes before a miss and leaves the count and the tick's attribution alone does not change that it is one. -/
theorem DataMissed.after {s t u : State} (h : DataMissed t u) (hc : t.fget TICK_CNT_FENCE_MISSES = s.fget TICK_CNT_FENCE_MISSES)
    (hr : t.run.healthSent = s.run.healthSent) : DataMissed s u := by
  obtain ⟨hcount, hsts, hraise⟩ := h
  unfold Counts at hcount
  rw [hc] at hcount
  unfold RaisesB at hraise
  rw [hr] at hraise
  exact ⟨hcount, hsts, hraise⟩

/-! ### A late prefetch (R314, R316, R359) -/

/-- A late prefetch counted, recorded when it is the first slow-tier event, and flagged. -/
def lateNoted (s : State) (e : TensorEnt) : State :=
  ((s.fadd HULL_SLOW_CNT_LATE 1).slowFirst e.tensor (homeUnit e).1 (homeUnit e).2 0).setSts 0 HULL_SLOW_STS_PREFETCH_LATE

/-- A LAGGED tensor without room to park: the overrun is marked in the tick to which R302 attributes it (R316). -/
def overrunMarked (s : State) : State :=
  if s.run.healthSent then s.withRun (fun r => { r with lateLag := true }) else s.withRun (fun r => { r with lagOverrun := true })

/-- An overrun marked and flagged. -/
def overrunNoted (s : State) : State := (overrunMarked s).setSts 0 COMMIT_STS_LAG_OVERRUN

theorem prefetchLate_eq (s : State) (e : TensorEnt) (i : Nat) : s.prefetchLate e i =
    if e.lagged && (lateNoted s e).run.stepRuns then
      if ((lateNoted s e).lagEnt e.parent (lateNoted s e).ccr.parity).parked.length < e.d then (lateNoted s e).park e.parent
      else (overrunNoted (lateNoted s e)).fenceMiss 0 i true 0
    else (lateNoted s e).fenceMiss 0 i true 0 := rfl

section
variable (s : State) (e : TensorEnt) (i : Nat)

theorem only_slowFirst (tensor source unit cause : Nat) :
    OnlyRegs [HULL_SLOW_FIRST.base] s (s.slowFirst tensor source unit cause) := by
  refine only_record _ _ _ (by decide) ?_
  simp only [List.forall_mem_cons]
  exact ⟨by decide, by decide, by decide, by decide, by decide, fun q m => nomatch m⟩

theorem slowFirst_onlyParts (tensor source unit cause : Nat) : OnlyParts [.regs] s (s.slowFirst tensor source unit cause) :=
  record_onlyParts _ _ _

theorem lateNoted_onlyParts : OnlyParts [.regs, .outbox] s (lateNoted s e) :=
  (((fadd_onlyParts s _ _).mono (by decide)).then (slowFirst_onlyParts _ _ _ _ _) (by decide)).then (setSts_onlyParts _ _ _) (by decide)

theorem lateNoted_after :
    OnlyRegs [HULL_SLOW_FIRST.base, HULL_SLOW_STS.base] (s.fadd HULL_SLOW_CNT_LATE 1) (lateNoted s e) :=
  ((only_slowFirst _ _ _ _ _).mono (by decide)).trans (only_setSts _ _ _ (by decide))

theorem only_lateNoted : OnlyRegs [HULL_SLOW_CNT.base, HULL_SLOW_FIRST.base, HULL_SLOW_STS.base] s (lateNoted s e) :=
  (only_fadd _ _ _ (by decide)).trans ((lateNoted_after s e).mono (by decide))

theorem lateNoted_counts (h : Inv s) : Counts HULL_SLOW_CNT_LATE 1 s (lateNoted s e) := by
  unfold Counts
  rw [(lateNoted_after s e).fget _ (by decide)]
  exact fget_fadd_same s _ 1 h.1.1 (by decide)

theorem lateNoted_keeps : Keeps s (lateNoted s e) :=
  setSts_keeps _ _ _ (slowFirst_keeps _ _ _ _ _ (fadd_keeps _ _ _ (Keeps.refl s)))

theorem lateNoted_sts (h : Inv s) : (lateNoted s e).fbit HULL_SLOW_STS_PREFETCH_LATE = true :=
  fbit_setSts _ _ _ ((slowFirst_keeps _ _ _ _ _ (fadd_keeps _ _ _ (Keeps.refl s))).inv h).1.1 (by decide) rfl

theorem overrunMarked_onlyParts : OnlyParts [.run] s (overrunMarked s) :=
  OnlyParts.ite (withRun_onlyParts _ _) (withRun_onlyParts _ _)

theorem overrunNoted_onlyParts : OnlyParts [.regs, .run, .outbox] s (overrunNoted s) :=
  ((overrunMarked_onlyParts s).mono (by decide)).then (setSts_onlyParts _ _ _) (by decide)

theorem only_overrunNoted : OnlyRegs [COMMIT_STS.base] s (overrunNoted s) :=
  ((overrunMarked_onlyParts s).onlyRegs (by decide) _).trans (only_setSts _ _ _ (by decide))

theorem overrunNoted_run : (overrunNoted s).run =
    if s.run.healthSent then { s.run with lateLag := true } else { s.run with lagOverrun := true } := by
  by_cases h : s.run.healthSent = true <;> simp [overrunNoted, overrunMarked, State.withRun, h]

theorem overrunNoted_healthSent : (overrunNoted s).run.healthSent = s.run.healthSent := by
  rw [overrunNoted_run]
  split <;> rfl

theorem overrunNoted_keeps : Keeps s (overrunNoted s) :=
  setSts_keeps _ _ _ (Keeps.ite (withRun_keeps _ _ (Keeps.refl s)) (withRun_keeps _ _ (Keeps.refl s)))

theorem overrunNoted_sts (h : Inv s) : (overrunNoted s).fbit COMMIT_STS_LAG_OVERRUN = true :=
  fbit_setSts _ _ _ ((Keeps.ite (withRun_keeps s _ (Keeps.refl s)) (withRun_keeps s _ (Keeps.refl s))).inv h).1.1 (by decide) rfl

/-- After an overrun, a miss leaves its mark. -/
theorem overrunMissed_run : (if s.run.healthSent then ((overrunNoted s).fenceMiss 0 i true 0).run.lateLag
    else ((overrunNoted s).fenceMiss 0 i true 0).run.lagOverrun) = true := by
  rw [fenceMiss_run, overrunNoted_run]
  by_cases h : s.run.healthSent = true <;> simp [h]

theorem park_onlyParts (w : Nat) : OnlyParts [.job] s (s.park w) := by
  simp only [State.park]
  refine OnlyParts.ite (OnlyParts.refl _ s) ?_
  exact (withJob_onlyParts s _).trans (withJob_onlyParts _ _)

theorem park_parking (w : Nat) : (s.park w).job.parking.contains w = true := by
  simp only [State.park]
  split
  next h => exact h
  next => simp [State.withJob]

end

/-! ### The three ways of a late prefetch -/

section
variable {s : State} {e : TensorEnt} (i : Nat)

theorem prefetchLate_parks (hl : (e.lagged && s.run.stepRuns) = true)
    (hroom : decide ((s.lagEnt e.parent s.ccr.parity).parked.length < e.d) = true) :
    s.prefetchLate e i = (lateNoted s e).park e.parent := by
  have hp := lateNoted_onlyParts s e
  rw [prefetchLate_eq, hp .run (by decide), if_pos hl, hp .ccr (by decide), State.lagEnt, hp .job (by decide)]
  exact if_pos (of_decide_eq_true hroom)

theorem prefetchLate_overruns (hl : (e.lagged && s.run.stepRuns) = true)
    (hroom : decide ((s.lagEnt e.parent s.ccr.parity).parked.length < e.d) = false) :
    s.prefetchLate e i = (overrunNoted (lateNoted s e)).fenceMiss 0 i true 0 := by
  have hp := lateNoted_onlyParts s e
  rw [prefetchLate_eq, hp .run (by decide), if_pos hl, hp .ccr (by decide), State.lagEnt, hp .job (by decide)]
  exact if_neg (of_decide_eq_false hroom)

theorem prefetchLate_misses (hl : (e.lagged && s.run.stepRuns) = false) :
    s.prefetchLate e i = (lateNoted s e).fenceMiss 0 i true 0 := by
  rw [prefetchLate_eq, (lateNoted_onlyParts s e) .run (by decide), hl]
  rfl

end

/-- After the note of a late prefetch: what its outcome leaves of the note. -/
structure NoteStands (s t : State) : Prop where
  mem : t.mem = s.mem
  count : t.fget HULL_SLOW_CNT_LATE = s.fget HULL_SLOW_CNT_LATE
  sts : t.fbit HULL_SLOW_STS_PREFETCH_LATE = s.fbit HULL_SLOW_STS_PREFETCH_LATE

theorem NoteStands.of {ps : List Part} {ks : List Nat} {s t : State} (hp : OnlyParts ps s t) (hr : OnlyRegs ks s t)
    (hm : .mem ∉ ps) (hk : HULL_SLOW_CNT.base ∉ ks ∧ HULL_SLOW_STS.base ∉ ks) :
    NoteStands s t := ⟨hp .mem hm, hr.fget HULL_SLOW_CNT_LATE hk.1, hr.fbit HULL_SLOW_STS_PREFETCH_LATE hk.2⟩

/-- Whatever a late prefetch comes to, its note stands. -/
theorem prefetchLate_noteStands (s : State) (e : TensorEnt) (i : Nat) : NoteStands (lateNoted s e) (s.prefetchLate e i) := by
  by_cases hl : (e.lagged && s.run.stepRuns) = true
  · by_cases hroom : decide ((s.lagEnt e.parent s.ccr.parity).parked.length < e.d) = true
    · rw [prefetchLate_parks i hl hroom]
      exact .of (park_onlyParts _ _) ((park_onlyParts _ _).onlyRegs (by decide) []) (by decide) (by decide)
    · rw [prefetchLate_overruns i hl (eq_false_of_ne_true hroom)]
      have hp : OnlyParts [.regs, .run, .fifos, .cap, .outbox] (lateNoted s e) ((overrunNoted (lateNoted s e)).fenceMiss 0 i true 0) :=
        ((overrunNoted_onlyParts _).mono (by decide)).then (fenceMiss_onlyParts _ _ _ _ _) (by decide)
      have hr : OnlyRegs (COMMIT_STS.base :: (fenceRegs ++ noteRegs)) (lateNoted s e)
          ((overrunNoted (lateNoted s e)).fenceMiss 0 i true 0) :=
        ((only_overrunNoted _).mono (by decide)).then (fenceMiss_onlyRegs _ _ _ _ _) (by decide)
      exact .of hp hr (by decide) (by decide)
  · rw [prefetchLate_misses i (eq_false_of_ne_true hl)]
    exact .of (fenceMiss_onlyParts _ _ _ _ _) (fenceMiss_onlyRegs _ _ _ _ _) (by decide) (by decide)

/-- A late prefetch is counted and flagged. -/
theorem prefetchLate_noted (s : State) (e : TensorEnt) (i : Nat) (h : Inv s) : Counts HULL_SLOW_CNT_LATE 1 s (s.prefetchLate e i) ∧
    (s.prefetchLate e i).fbit HULL_SLOW_STS_PREFETCH_LATE = true ∧ (s.prefetchLate e i).mem = s.mem := by
  obtain ⟨hm, hc, hs⟩ := prefetchLate_noteStands s e i
  exact ⟨hc.trans (lateNoted_counts s e h), hs.trans (lateNoted_sts s e h), hm.trans ((lateNoted_onlyParts s e) .mem (by decide))⟩

theorem prefetchLate_now (s : State) (e : TensorEnt) (i : Nat) : (s.prefetchLate e i).now = s.now := by
  rw [prefetchLate_eq]
  have hp := (lateNoted_onlyParts s e) .now (by decide)
  split
  · split
    · exact hp.trans ((park_onlyParts _ _) .now (by decide))
    · exact hp.trans (((overrunNoted_onlyParts _) .now (by decide)).trans ((fenceMiss_onlyParts _ _ _ _ _) .now (by decide)))
  · exact hp.trans ((fenceMiss_onlyParts _ _ _ _ _) .now (by decide))

/-- Where a late prefetch cannot park its weight, it misses its fence. -/
theorem prefetchLate_dataMissed (s : State) (e : TensorEnt) (i : Nat) (h : Inv s)
    (hw : (e.lagged && s.run.stepRuns) = false ∨ decide ((s.lagEnt e.parent s.ccr.parity).parked.length < e.d) = false) :
    DataMissed s (s.prefetchLate e i) := by
  have hn := (lateNoted_keeps s e).inv h
  have hc : (lateNoted s e).fget TICK_CNT_FENCE_MISSES = s.fget TICK_CNT_FENCE_MISSES := (only_lateNoted s e).fget _ (by decide)
  have hrun : (lateNoted s e).run = s.run := (lateNoted_onlyParts s e) .run (by decide)
  by_cases hl : (e.lagged && s.run.stepRuns) = true
  · rw [prefetchLate_overruns i hl (hw.resolve_left (by simp [hl]))]
    exact (fenceMiss_dataMissed _ i ((overrunNoted_keeps _).inv hn)).after
      (((only_overrunNoted _).fget _ (by decide)).trans hc) ((overrunNoted_healthSent _).trans (by rw [hrun]))
  · rw [prefetchLate_misses i (eq_false_of_ne_true hl)]
    exact (fenceMiss_dataMissed _ i hn).after hc (by rw [hrun])

/-- A LAGGED tensor without room to park overruns. -/
theorem prefetchLate_overrun (s : State) (e : TensorEnt) (i : Nat) (h : Inv s) (hl : (e.lagged && s.run.stepRuns) = true)
    (hroom : decide ((s.lagEnt e.parent s.ccr.parity).parked.length < e.d) = false) :
    (s.prefetchLate e i).fbit COMMIT_STS_LAG_OVERRUN = true ∧
      (if s.run.healthSent then (s.prefetchLate e i).run.lateLag else (s.prefetchLate e i).run.lagOverrun) = true := by
  have hrun : (lateNoted s e).run = s.run := (lateNoted_onlyParts s e) .run (by decide)
  rw [prefetchLate_overruns i hl hroom]
  refine ⟨?_, ?_⟩
  · rw [(fenceMiss_onlyRegs _ _ _ _ _).fbit _ (by decide)]
    exact overrunNoted_sts _ ((lateNoted_keeps s e).inv h)
  · have hm := overrunMissed_run (lateNoted s e) i
    rwa [hrun] at hm

/-- A LAGGED tensor with room parks its weight and misses nothing. -/
theorem prefetchLate_parked (s : State) (e : TensorEnt) (i : Nat) (hl : (e.lagged && s.run.stepRuns) = true)
    (hroom : decide ((s.lagEnt e.parent s.ccr.parity).parked.length < e.d) = true) :
    (s.prefetchLate e i).job.parking.contains e.parent = true ∧ (s.prefetchLate e i).run = s.run ∧
      (s.prefetchLate e i).fget TICK_CNT_FENCE_MISSES = s.fget TICK_CNT_FENCE_MISSES := by
  rw [prefetchLate_parks i hl hroom]
  have hp := park_onlyParts (lateNoted s e) e.parent
  exact ⟨park_parking _ _, ((lateNoted_onlyParts s e) .run (by decide)).trans (hp .run (by decide)),
    (fget_congr (hp .regs (by decide)) _).trans ((only_lateNoted s e).fget _ (by decide))⟩

/-! ### The check -/

/-- The check on a data fence whose cycle has come. -/
def fenceChecked (s : State) (f : ImageFile) (p : PlanImg) (i : Nat) : State :=
  let d := p.dfences.getD i 0
  if dfKind d == 0 then (if s.inputLate f p i && !s.isLender then s.fenceMiss 0 i true 0 else s)
  else
    match (imgSeenBy f (s.fget HULL_ORCH_MODULE)).stateMap.find? (fun t => t.tensor == dfTensor d && t.role != 8) with
    | some t => if s.prefetched t.tensor then s else s.prefetchLate t i
    | none => s

theorem exec_dataFenceCheck {f : ImageFile} {p : PlanImg} {s : State} {i : Nat} (h : InTick f p s) (hr : s.reloading = false)
    (hi : i < planNdfence p) (hs : Settled s (s.edgeAt + dfCycle (p.dfences.getD i 0))) :
    exec (.dataFenceCheck i) s = .next (fenceChecked (s.advance (s.edgeAt + dfCycle (p.dfences.getD i 0))) f p i) := by
  obtain ⟨⟨hrun, -⟩, hactive, himg, hplan⟩ := h
  change Host.Outcome.next _ = _
  simp only [live_runs hrun, hactive, hr, State.dataFenceCheck, himg, hplan, hi, if_true, upTo_settled _ _ hs]
  rfl

theorem fenceChecked_input {s : State} {f : ImageFile} {p : PlanImg} {i : Nat} (h0 : dfKind (p.dfences.getD i 0) = 0) :
    fenceChecked s f p i = if s.inputLate f p i && !s.isLender then s.fenceMiss 0 i true 0 else s :=
  if_pos (beq_iff_eq.2 h0)

theorem fenceChecked_prefetch {s : State} {f : ImageFile} {p : PlanImg} {i : Nat} {e : TensorEnt}
    (h0 : dfKind (p.dfences.getD i 0) ≠ 0) (he : (imgSeenBy f (s.fget HULL_ORCH_MODULE)).stateMap.find?
      (fun e => e.tensor == dfTensor (p.dfences.getD i 0) && e.role != 8) = some e) :
    fenceChecked s f p i = if s.prefetched e.tensor then s else s.prefetchLate e i := by
  simp only [fenceChecked]
  rw [if_neg (by simpa using h0), he]

theorem fenceChecked_now (s : State) (f : ImageFile) (p : PlanImg) (i : Nat) : (fenceChecked s f p i).now = s.now := by
  simp only [fenceChecked]
  split
  · split
    · exact (fenceMiss_onlyParts _ _ _ _ _) .now (by decide)
    · rfl
  · split
    · split
      · rfl
      · exact prefetchLate_now _ _ _
    · rfl

/-- Settles O8: a buffer by its completeness, a prefetch by its residence, its lag and the room to park. -/
theorem dataFenceChecksItsBuffer : Obligations.DataFenceChecksItsBuffer := by
  intro s f p i hin hr hi d c missed hs
  set u := s.advance c with hu
  have hinv : Inv u := hin.1.2
  have hadv : OnlyParts [.now] s u := advance_onlyParts s c
  have hlate : u.inputLate f p i = s.inputLate f p i := rfl
  have hlender : u.isLender = s.isLender := rfl
  refine ⟨_, exec_dataFenceCheck hin hr hi hs, fenceChecked_now u f p i, ?_, ?_, ?_, ?_⟩
  · intro h0 hl
    rw [fenceChecked_input h0, ← hu, hlate, hl]
    exact hadv
  · intro h0 hl
    rw [fenceChecked_input h0, ← hu, hlender, hl, Bool.not_true, Bool.and_false]
    exact hadv
  · intro h0 hl hnl
    rw [fenceChecked_input h0, ← hu, hlate, hlender, hl, hnl]
    exact ⟨fenceMiss_dataMissed u i hinv, (hadv.mono (by decide)).then (fenceMiss_onlyParts _ _ _ _ _) (by decide),
      fenceMiss_again u 0 i true 0, fenceMiss_onlyRegs u 0 i true 0⟩
  · intro e h0 he room
    have hprefetched : u.prefetched e.tensor = s.prefetched e.tensor := rfl
    rw [fenceChecked_prefetch (s := s.advance (s.edgeAt + dfCycle (p.dfences.getD i 0))) h0 he, ← hu, hprefetched]
    refine ⟨fun hpre => ?_, fun hpre => ?_⟩
    · rw [if_pos hpre]
      exact hadv
    · rw [if_neg (by simp [hpre])]
      obtain ⟨hcount, hsts, hmem⟩ := prefetchLate_noted u e i hinv
      exact ⟨hcount, hsts, hmem, prefetchLate_dataMissed u e i hinv, prefetchLate_overrun u e i hinv, prefetchLate_parked u e i⟩

end Sys2Proof.Laws
end

section
/-! PROOFS. Registers that stand, and what is under way: what a cycle of something due depends on. -/

namespace Sys2Proof.Laws

open Sys2Proof.Machine Sys2Proof.Safety

/-! ### Registers that stand -/

/-- The registers at some keys read the same in both states. -/
def RegsStand (ks : List Nat) (s t : State) : Prop := ∀ k ∈ ks, t.regGet k = s.regGet k

theorem RegsStand.refl (ks : List Nat) (s : State) : RegsStand ks s s := fun _ _ => rfl

theorem RegsStand.trans {ks : List Nat} {s t u : State} (h : RegsStand ks s t) (g : RegsStand ks t u) : RegsStand ks s u :=
  fun k hk => (g k hk).trans (h k hk)

theorem RegsStand.ite {ks : List Nat} {s a b : State} {c : Prop} [Decidable c] (ha : RegsStand ks s a) (hb : RegsStand ks s b) :
    RegsStand ks s (if c then a else b) := by split <;> assumption

theorem RegsStand.of_parts {ks : List Nat} {ps : List Part} {s t : State} (h : OnlyParts ps s t)
    (hr : .regs ∉ ps) : RegsStand ks s t := fun k _ => regGet_congr (h .regs hr) k

theorem RegsStand.of_only {ks ls : List Nat} {s t : State} (h : OnlyRegs ls s t) (hk : ∀ k ∈ ks, k ∉ ls) : RegsStand ks s t :=
  fun k m => h k (hk k m)

theorem RegsStand.fget {ks : List Nat} {s t : State} (h : RegsStand ks s t) (f : Fld) (hf : f.base ∈ ks) : t.fget f = s.fget f := by
  unfold State.fget
  rw [h _ hf]

theorem regsStand_fset {ks : List Nat} (s : State) (f : Fld) (x : Nat) (h : f.base ∉ ks) : RegsStand ks s (s.fset f x) :=
  RegsStand.of_only (only_fset (ks := [f.base]) s f x (List.mem_cons_self ..))
    (fun _ hk hm => h (List.mem_singleton.1 hm ▸ hk))

theorem regsStand_fadd {ks : List Nat} (s : State) (f : Fld) (n : Nat) (h : f.base ∉ ks) : RegsStand ks s (s.fadd f n) :=
  regsStand_fset _ _ _ h

/-- A field that shares no bit with a status bit stands when the bit is set. -/
theorem fget_setSts_apart (s : State) (p : Nat) (f g : Fld) (h : tabWf resetOf s.regs = true) (hw : f.lo + f.wd ≤ 64)
    (ha : apart f g = true) : (s.setSts p f).fget g = s.fget g := by
  rw [fget_congr (setSts_regs s p f)]
  exact fget_fset_apart s f g 1 h hw ha

/-! ### What is under way (R120, R161, R261, R335, R372, R392) -/

/-- Two states in which the same things are under way, each due on the same cycle. -/
structure SameDues (s t : State) : Prop where
  tiles : t.tiles = s.tiles
  solver : t.solver = s.solver
  writes : t.hub.writes = s.hub.writes
  links : t.links = s.links
  tree : t.run.treeDue = s.run.treeDue
  edge : t.job.firstEdge = s.job.firstEdge
  rate : ∀ l, l < 16 → t.lnkHop l = s.lnkHop l

theorem flightDue_congr {s t : State} (h : t.tiles = s.tiles) (f : Flight) : t.flightDue f = s.flightDue f := by
  have htag : ∀ n l x, t.opTagAt n l x = s.opTagAt n l x := fun n l x => by
    simp only [State.opTagAt, State.lineWrites, h]
  simp only [State.flightDue, State.mismatchAt, htag]

theorem jobDues_congr {s t : State} (h : t.job.firstEdge = s.job.firstEdge) (j : SlvJob) : t.jobDues j = s.jobDues j := by
  simp only [State.jobDues, State.cycAt, h]

theorem SameDues.dues {s t : State} (h : SameDues s t) : t.dues = s.dues := by
  have hlink : ((range' 0 16).zip s.links).flatMap (fun k => k.2.landing.map (fun x => (x.at_, Due.flit k.1 x)) ++
      k.2.waiting.map (fun x => (x.sent + t.lnkHop k.1, Due.unanswered k.1 x))) =
      ((range' 0 16).zip s.links).flatMap (fun k => k.2.landing.map (fun x => (x.at_, Due.flit k.1 x)) ++
      k.2.waiting.map (fun x => (x.sent + s.lnkHop k.1, Due.unanswered k.1 x))) := by
    refine List.flatMap_congr (fun k hk => ?_)
    have hl : k.1 < 16 := by
      have := (mem_range' _ _ _).1 (List.of_mem_zip hk).1
      omega
    rw [h.rate k.1 hl]
  unfold State.dues
  rw [h.tiles, h.solver, h.writes, h.links, h.tree, hlink]
  simp only [flightDue_congr h.tiles, jobDues_congr h.edge, State.cycAt, h.edge]

theorem SameDues.dueBy {s t : State} (h : SameDues s t) (c : Nat) : t.dueBy c = s.dueBy c := by
  unfold State.dueBy
  rw [h.dues]

theorem SameDues.settled {s t : State} (h : SameDues s t) {c : Nat} (hs : Settled s c) : Settled t c :=
  (h.dueBy c).trans hs

/-- The hop of a link depends on its rate alone. -/
theorem SameLinkRegs.lnkHop {s t : State} (h : SameLinkRegs s t) {l : Nat} (hl : l < 16) : t.lnkHop l = s.lnkHop l := by
  unfold State.lnkHop
  rw [h.lnkLegacy hl]

end Sys2Proof.Laws
end

section
/-! PROOFS. The pieces of a tick edge before the tick opens (R18, R21, R64 to R66, R309): what each of them touches. -/

namespace Sys2Proof.Laws

open Sys2Proof.Machine Sys2Proof.Safety

/-! ### Up to the edge -/

theorem linksTurn_onlyParts (s : State) (n : Nat) : OnlyParts [.links] s (s.linksTurn n) :=
  List.foldlRecOn (range' 0 16) _ (OnlyParts.refl _ s) (fun t h l _ => h.trans (withLink_onlyParts t l _))

theorem countTick_onlyParts (s : State) (sent : Bool) : OnlyParts [.regs] s (s.countTick sent) := by
  have hf (t : State) (f : Fld) (n : Nat) : OnlyParts [.regs] t (t.fadd f n) := fadd_onlyParts t f n
  unfold State.countTick
  extract_lets fl step u v
  have hu : OnlyParts [.regs] s u :=
    OnlyParts.ite ((((hf s _ _).trans (hf _ _ _)).trans (hf _ _ _)).trans (hf _ _ _)) (OnlyParts.refl _ s)
  have hv : OnlyParts [.regs] s v := hu.trans (hf _ _ _)
  exact OnlyParts.ite (hv.trans (hf _ _ _)) hv

/-- The registers of the tick that an edge's counts do not touch. -/
def planKeys : List Nat := [TICK_COUNT.base, TICK_PLAN.base]

theorem countTick_stands (s : State) (sent : Bool) : RegsStand planKeys s (s.countTick sent) := by
  have hf (t : State) (f : Fld) (n : Nat) (h : f.base ∉ planKeys) : RegsStand planKeys t (t.fadd f n) :=
    regsStand_fadd t f n h
  unfold State.countTick
  extract_lets fl step u v
  have hu : RegsStand planKeys s u :=
    RegsStand.ite ((((hf s _ _ (by decide)).trans (hf _ _ _ (by decide))).trans (hf _ _ _ (by decide))).trans (hf _ _ _ (by decide))) (RegsStand.refl _ s)
  have hv : RegsStand planKeys s v := hu.trans (hf _ _ _ (by decide))
  exact RegsStand.ite (hv.trans (hf _ _ _ (by decide))) hv

theorem starve_onlyParts (s : State) (f : ImageFile) (p : PlanImg) : OnlyParts [.regs] s (s.starve f p) :=
  List.foldlRecOn (range' 0 3) _ (OnlyParts.refl _ s) (fun t h _ _ => h.trans (fset_onlyParts t _ _))

theorem starve_stands (s : State) (f : ImageFile) (p : PlanImg) : RegsStand planKeys s (s.starve f p) := by
  have hk : ∀ a ∈ range' 0 3, (TICK_STARVE_COUNT.ix a).base ∉ planKeys := by decide
  exact List.foldlRecOn (range' 0 3) _ (RegsStand.refl _ s) (fun t h a ha => h.trans (regsStand_fset t _ _ (hk a ha)))

/-! ### What takes effect on the first cycle of a tick (R18, R500, R503, R349, R377) -/

/-- A fold of operations touches what each of them touches. -/
theorem foldl_onlyParts {α : Type} {ps : List Part} (f : State → α → State) (h : ∀ s a, OnlyParts ps s (f s a)) (l : List α)
    (s : State) : OnlyParts ps s (l.foldl f s) :=
  List.foldlRecOn l _ (OnlyParts.refl _ s) (fun t ht a _ => ht.trans (h t a))

theorem trace_onlyParts (s : State) (typ ctx payload : Nat) : OnlyParts [.regs, .fifos, .outbox] s (s.trace typ ctx payload) := by
  intro p hp
  cases p <;> simp [Part.Same] at hp ⊢

theorem traceSubst_onlyParts (s : State) (n : Nat) (b : Bool) : OnlyParts [.regs, .fifos, .outbox] s (s.traceSubst n b) :=
  OnlyParts.ite (trace_onlyParts _ _ _ _) (OnlyParts.refl _ s)

/-- What pod substitutions touch. -/
abbrev podParts : List Part := [.regs, .run, .attend, .fifos, .cap, .outbox]

theorem podTake_onlyParts (s : State) (n p : Nat) : OnlyParts podParts s (s.podTake n p) :=
  (((((fset_onlyParts s _ _).mono (by decide)).then (fsetAll_onlyParts _ _) (by decide)).then (fadd_onlyParts _ _ _) (by decide)).then
    (setSts_onlyParts _ _ _) (by decide)).then (traceSubst_onlyParts _ _ _) (by decide)

theorem podExhaust_onlyParts (s : State) (n p : Nat) : OnlyParts podParts s (s.podExhaust n p) := by
  have h1 (t : State) (m ph : Nat) (f : Fld) : OnlyParts podParts t ((t.podRetire m ph).fset f 15) :=
    ((fset_onlyParts t _ _).mono (by decide)).then (fset_onlyParts _ _ _) (by decide)
  have h2 (t : State) (l : List (Fld × Nat)) : OnlyParts podParts t (if t.fbit (TILE_POD_UNSERVED.tile n) then t else t.fsetAll l) :=
    OnlyParts.ite (OnlyParts.refl _ t) ((fsetAll_onlyParts t _).mono (by decide))
  simp only [State.podExhaust]
  refine OnlyParts.ite (OnlyParts.refl _ s) ?_
  exact ((((h1 _ _ _ _).trans (h2 _ _)).then (fset_onlyParts _ _ _) (by decide)).then (classC_onlyParts _ _ _) (by decide)).then (traceSubst_onlyParts _ _ _) (by decide)

/-- The pod faults of the ending tick answered, each by the tile's spare or without one. -/
theorem podEdge_onlyParts (s : State) : OnlyParts (.tiles :: podParts) s s.podEdge := by
  have h0 : OnlyParts (.tiles :: podParts) s (s.withTiles (fun t => { t with podPend := [] })) :=
    (withTiles_onlyParts s _).mono (by decide)
  refine h0.then (foldl_onlyParts (ps := podParts) _ (fun t n => foldl_onlyParts (ps := podParts) _ (fun u p => ?_) _ _) _ _) (by decide)
  exact OnlyParts.ite (podTake_onlyParts u n p) (podExhaust_onlyParts u n p)

theorem podEdge_tiles (s : State) : s.podEdge.tiles = { s.tiles with podPend := [] } := by
  have h := foldl_onlyParts (ps := podParts) (fun (s' : State) n =>
    ((range' 0 8).filter (fun p => s.tiles.podPend.contains (n, p))).foldl (fun s p =>
      if s.fbit (BENCH_POD_MAP_SPARE_FREE.ix n) && !s.fbit (TILE_POD_SPARE_LOST.tile n) then s.podTake n p
      else s.podExhaust n p) s')
    (fun t n => foldl_onlyParts (ps := podParts) _ (fun u p => OnlyParts.ite (podTake_onlyParts u n p) (podExhaust_onlyParts u n p))
      _ _) (range' 0 80) (s.withTiles (fun t => { t with podPend := [] }))
  exact h .tiles (by decide)

theorem hubSwaps_onlyParts (s : State) : OnlyParts [.regs, .hub, .fifos, .outbox] s s.hubSwaps := by
  unfold State.hubSwaps
  extract_lets swaps u
  have hu : OnlyParts [.regs, .hub, .fifos, .outbox] s u := (withHub_onlyParts s _).mono (by decide)
  refine hu.trans (foldl_onlyParts _ (fun t p => ?_) _ _)
  extract_lets stack ch k ca w v
  have hw : OnlyParts [.regs, .hub, .fifos, .outbox] t w := (withHub_onlyParts t _).mono (by decide)
  have hv : OnlyParts [.regs, .hub, .fifos, .outbox] t v :=
    OnlyParts.ite (OnlyParts.refl _ t) (OnlyParts.ite (hw.then (fset_onlyParts _ _ _) (by decide)) (hw.then (fset_onlyParts _ _ _) (by decide)))
  exact hv.trans (OnlyParts.ite ((trace_onlyParts _ _ _ _).mono (by decide)) (OnlyParts.refl _ _))

/-- No lane change of a hub waits after an edge. -/
theorem hubSwaps_swaps (s : State) : s.hubSwaps.hub.swaps = [] := by
  unfold State.hubSwaps
  extract_lets swaps u
  refine List.foldlRecOn swaps (motive := fun t => (State.hub t).swaps = []) _ rfl (fun t ht p _ => ?_)
  extract_lets stack ch k ca w v
  have hv : v.hub.swaps = t.hub.swaps := by
    simp only [v, w]
    split
    · rfl
    · split <;> simp [State.withHub]
  split <;> simpa [hv] using ht

/-- The lane change that waits on a link takes effect, with its trace records. -/
def linkSwap (s : State) (l : Nat) : State :=
  let k := s.link l
  let s := s.withLink l (fun k => { k with swaps := [], spareFor := k.spareFor ++ k.swaps, exhausted := [] })
  let s := if k.swaps.isEmpty then s else s.withHub (fun h => { h with laneDirty := true })
  let s := if k.swaps.any (fun p => p.1 == 1) then s.fset (lnkFld LNK_STATE_SPARE_RX l) 1 else s
  if s.fbit HULL_CAPTURE_CFG_TRACE_SUBST then
    let rec_ (s : State) (x : Nat) : State :=
      s.trace 0x82 s.evCtx (2 * 2 ^ 48 + l / 4 * 2 ^ 50 + l % 4 * 2 ^ 53 + x * 2 ^ 62)
    let s := k.swaps.foldl (fun s _ => rec_ s 0) s
    k.exhausted.foldl (fun s _ => rec_ s 1) s
  else s

/-- What is left of a lane change once its link has taken it. -/
theorem linkSwap_rest (s : State) (l : Nat) : OnlyParts [.regs, .hub, .fifos, .outbox]
    (s.withLink l (fun k => { k with swaps := [], spareFor := k.spareFor ++ k.swaps, exhausted := [] })) (linkSwap s l) := by
  unfold linkSwap
  extract_lets k u v w rec_ x
  have hv : OnlyParts [.regs, .hub, .fifos, .outbox] u v :=
    OnlyParts.ite (OnlyParts.refl _ u) ((withHub_onlyParts _ _).mono (by decide))
  have hw : OnlyParts [.regs, .hub, .fifos, .outbox] u w := OnlyParts.ite (hv.then (fset_onlyParts _ _ _) (by decide)) hv
  have hx : OnlyParts [.regs, .hub, .fifos, .outbox] u x :=
    hw.trans (foldl_onlyParts _ (fun z _ => (trace_onlyParts z _ _ _).mono (by decide)) _ _)
  exact OnlyParts.ite (hx.trans (foldl_onlyParts _ (fun z _ => (trace_onlyParts z _ _ _).mono (by decide)) _ _)) hw

theorem linkSwaps_onlyParts (s : State) : OnlyParts [.regs, .hub, .links, .fifos, .outbox] s s.linkSwaps :=
  foldl_onlyParts linkSwap (fun t l => ((withLink_onlyParts t l _).mono (by decide)).then (linkSwap_rest t l) (by decide)) _ _

theorem linkSwap_hubSwaps (s : State) (l : Nat) : (linkSwap s l).hub.swaps = s.hub.swaps := by
  unfold linkSwap
  extract_lets k u v w rec_ x
  have hv : v.hub.swaps = s.hub.swaps := by
    simp only [v, u]
    split <;> simp [State.withHub]
  have hw : w.hub.swaps = s.hub.swaps := by
    refine Eq.trans (congrArg HubSt.swaps ?_) hv
    simp only [w]
    split <;> simp
  have hx : OnlyParts [.regs, .fifos, .outbox] w x := foldl_onlyParts _ (fun z _ => trace_onlyParts z _ _ _) _ _
  split
  · have hy := hx.trans (foldl_onlyParts (fun s _ => rec_ s 1) (fun z _ => trace_onlyParts z _ _ _) k.exhausted _)
    exact (congrArg HubSt.swaps (hy .hub (by decide))).trans hw
  · exact hw

theorem linkSwaps_hubSwaps (s : State) : s.linkSwaps.hub.swaps = s.hub.swaps :=
  List.foldlRecOn (range' 0 16) (motive := fun t => (State.hub t).swaps = s.hub.swaps) linkSwap rfl
    (fun t ht l _ => (linkSwap_hubSwaps t l).trans ht)

theorem withLink_swaps_nil (s : State) (l : Nat) (f : LinkSt → LinkSt) (hf : ∀ k, (f k).swaps = []) :
    ((s.withLink l f).link l).swaps = [] := by
  by_cases hl : l < s.links.length
  · exact (congrArg LinkSt.swaps (getD_modAt_same f {} l s.links hl)).trans (hf _)
  · have hlen : (modAt f l s.links).length ≤ l := by
      rw [modAt_length]
      omega
    simp only [State.link, State.withLink, List.getD_eq_getElem?_getD, List.getElem?_eq_none hlen, Option.getD_none]

theorem linkSwap_swaps (s : State) (l m : Nat) (h : m = l ∨ (s.link m).swaps = []) : ((linkSwap s l).link m).swaps = [] := by
  have hlink : (linkSwap s l).link m =
      (s.withLink l (fun k => { k with swaps := [], spareFor := k.spareFor ++ k.swaps, exhausted := [] })).link m := by
    unfold State.link
    rw [(linkSwap_rest s l) .links (by decide)]
  rw [hlink]
  by_cases hm : m = l
  · subst hm
    exact withLink_swaps_nil s m _ (fun _ => rfl)
  · rw [link_withLink_ne s _ hm]
    exact h.resolve_left hm

/-- No lane change of a link waits after an edge. -/
theorem linkSwaps_swaps (s : State) {l : Nat} (hl : l < 16) : (s.linkSwaps.link l).swaps = [] := by
  have hall : ∀ (ls : List Nat) (t : State), l ∈ ls ∨ (t.link l).swaps = [] → ((ls.foldl linkSwap t).link l).swaps = [] := by
    intro ls
    induction ls with
    | nil => exact fun t h => h.resolve_left List.not_mem_nil
    | cons m ls ih =>
      intro t h
      refine ih (linkSwap t m) ?_
      by_cases hm : l ∈ ls
      · exact .inl hm
      · exact .inr (linkSwap_swaps t m l (h.imp_left (fun hc => (List.mem_cons.1 hc).resolve_right hm)))
  exact hall _ s (.inl ((mem_range' _ _ _).2 ⟨Nat.zero_le _, by omega⟩))

/-- What takes effect on the first cycle of a tick besides its token. -/
theorem edgeSwaps_onlyParts (s : State) :
    OnlyParts [.regs, .run, .tiles, .attend, .fifos, .cap, .hub, .links, .outbox] s s.edgeSwaps :=
  (((podEdge_onlyParts s).mono (by decide)).then (hubSwaps_onlyParts _) (by decide)).then (linkSwaps_onlyParts _) (by decide)

theorem edgeSwaps_podPend (s : State) : s.edgeSwaps.tiles.podPend = [] := by
  have h : s.edgeSwaps.tiles = s.podEdge.tiles :=
    ((hubSwaps_onlyParts s.podEdge) .tiles (by decide)).trans ((linkSwaps_onlyParts s.podEdge.hubSwaps) .tiles (by decide))
  rw [h, podEdge_tiles]

theorem edgeSwaps_hubSwaps (s : State) : s.edgeSwaps.hub.swaps = [] := (linkSwaps_hubSwaps _).trans (hubSwaps_swaps _)

theorem edgeSwaps_linkSwaps (s : State) {l : Nat} (hl : l < 16) : (s.edgeSwaps.link l).swaps = [] := linkSwaps_swaps _ hl

end Sys2Proof.Laws
end

section
/-! PROOFS. The token at the edge (R65, R66, R309, R311), and an edge that finds none. -/

namespace Sys2Proof.Laws

open Sys2Proof.Machine Sys2Proof.Safety

/-! ### What stays of a job's record -/

/-- The abort, the pre-emption and the clock origin of a job are the same in both states. -/
def JobGoesOn (s t : State) : Prop :=
  t.job.aborting = s.job.aborting ∧ t.job.preemptAt = s.job.preemptAt ∧ t.job.ctx = s.job.ctx

theorem JobGoesOn.refl (s : State) : JobGoesOn s s := ⟨rfl, rfl, rfl⟩

theorem JobGoesOn.trans {s t u : State} (h : JobGoesOn s t) (g : JobGoesOn t u) : JobGoesOn s u :=
  ⟨g.1.trans h.1, g.2.1.trans h.2.1, g.2.2.trans h.2.2⟩

theorem JobGoesOn.of_parts {ps : List Part} {s t : State} (h : OnlyParts ps s t) (hj : .job ∉ ps) : JobGoesOn s t := by
  have e : t.job = s.job := h .job hj
  exact ⟨by rw [e], by rw [e], by rw [e]⟩

theorem JobGoesOn.ite {s a b : State} {c : Prop} [Decidable c] (ha : JobGoesOn s a) (hb : JobGoesOn s b) :
    JobGoesOn s (if c then a else b) := by split <;> assumption

/-! ### The control record and its mirrors (R295, R309) -/

/-- What an edge that applies a token touches besides the control record and its mirrors. -/
abbrev tokenParts : List Part := [.regs, .run, .job, .fifos, .cap, .host, .slow, .outbox]

/-- The control record of an edge, mirrored. -/
def recordSet (s : State) (c : Ccr) : State := { s with ccr := c, mirror0 := c, mirror1 := c }

theorem slowCommit_onlyParts (s : State) (f : ImageFile) : OnlyParts [.regs, .host, .slow, .outbox] s (s.slowCommit f) := by
  unfold State.slowCommit
  extract_lets flips gone upd u v
  have hu : OnlyParts [.regs, .host, .slow, .outbox] s u := by
    intro p hp
    cases p <;> simp [Part.Same, u] at hp ⊢
  have hv : OnlyParts [.regs, .host, .slow, .outbox] s v := hu.then (withHost_onlyParts _ _) (by decide)
  exact OnlyParts.ite hv ((hv.then (fadd_onlyParts _ _ _) (by decide)).then (setSts_onlyParts _ _ _) (by decide))

theorem lagCounts_onlyParts (s : State) (f : ImageFile) (before : Ccr) (committed : Bool) :
    OnlyParts [.regs] s (s.lagCounts f before committed) := by
  unfold State.lagCounts
  extract_lets ts now u applied
  have hu : OnlyParts [.regs] s u := fsetAll_onlyParts _ _
  exact OnlyParts.ite ((hu.trans (fadd_onlyParts _ _ _)).trans (fadd_onlyParts _ _ _)) hu

/-- The registers of a token's decision, and those of HOLD and T adoption, change no other part. -/
theorem tokenCounts_onlyParts (s : State) (d : Nat) : OnlyParts [.regs, .outbox] s
    (if d == 0 then s.fadd COMMIT_CNT0_COMMITS 1
    else if d == 1 then (s.fadd COMMIT_CNT0_SKIPS 1).setSts 0 COMMIT_STS_SKIP
    else if d == 2 then (s.fadd COMMIT_CNT1_REPLAYS 1).setSts 0 COMMIT_STS_REPLAY else s) := by
  have hf (f g : Fld) : OnlyParts [.regs, .outbox] s ((s.fadd f 1).setSts 0 g) :=
    ((fadd_onlyParts s _ _).mono (by decide)).then (setSts_onlyParts _ _ _) (by decide)
  exact OnlyParts.ite ((fadd_onlyParts s _ _).mono (by decide)) (OnlyParts.ite (hf _ _) (OnlyParts.ite (hf _ _) (OnlyParts.refl _ s)))

/-- The bookkeeping of a token that has taken effect: everything of `applyToken` but the control record. -/
theorem applyToken_rest (s : State) (f : ImageFile) (k : BitVec 256) (loss : Option Nat) :
    OnlyParts tokenParts (recordSet s (ccrApply f s.ccr k loss)) (s.applyToken f k loss) ∧
      JobGoesOn s (s.applyToken f k loss) ∧ (s.applyToken f k loss).job.lastToken = some k := by
  unfold State.applyToken
  extract_lets old d new s1 s2 s3 s4 s5 s6 s7 s8 s9 s10 s11
  have h3 : OnlyParts [.regs, .outbox] s2 s3 := tokenCounts_onlyParts s2 d
  have h4 : OnlyParts [.regs, .outbox] s2 s4 := OnlyParts.ite
    (((h3.then (fadd_onlyParts _ _ _) (by decide)).then (fset_onlyParts _ _ _) (by decide)).then (setSts_onlyParts _ _ _) (by decide)) h3
  have h4' := h4.mono (qs := [.regs, .run, .fifos, .cap, .outbox]) (by decide)
  have h5 : OnlyParts [.regs, .run, .fifos, .cap, .outbox] s2 s5 :=
    OnlyParts.ite ((h4'.then (fadd_onlyParts _ _ _) (by decide)).then (classBSts_onlyParts _ _ _) (by decide)) h4'
  have h5' := h5.mono (qs := [.regs, .run, .fifos, .cap, .host, .slow, .outbox]) (by decide)
  have h6 : OnlyParts [.regs, .run, .fifos, .cap, .host, .slow, .outbox] s2 s6 :=
    OnlyParts.ite (h5'.then (slowCommit_onlyParts _ _) (by decide)) h5'
  have h7 : OnlyParts [.regs, .run, .fifos, .cap, .host, .slow, .outbox] s2 s7 := h6.then (lagCounts_onlyParts _ _ _ _) (by decide)
  have h7' := h7.mono (qs := tokenParts) (by decide)
  have h8 : OnlyParts tokenParts s2 s8 := OnlyParts.ite (h7'.then (withJob_onlyParts _ _) (by decide)) h7'
  have hj8 : JobGoesOn s7 s8 := JobGoesOn.ite ⟨rfl, rfl, rfl⟩ (JobGoesOn.refl _)
  have h9 : OnlyParts [.regs] s8 s9 := foldl_onlyParts _ (fun t _ => fset_onlyParts t _ _) _ _
  have h11 : OnlyParts [.regs] s10 s11 := fset_onlyParts _ _ _
  have h12 : OnlyParts [.regs, .fifos, .outbox] s11 (if s11.fbit EVQ_EVMASK_TICK then
      s11.event 10 s11.evCtx [d * 2 ^ 48 + tokPlan k * 2 ^ 50 + (tokHold k).toNat * 2 ^ 54 + tokT k * 2 ^ 64] else s11) :=
    OnlyParts.ite (event_onlyParts _ _ _ _) (OnlyParts.refl _ _)
  have hlate : OnlyParts [.regs, .fifos, .outbox] s10 (if s11.fbit EVQ_EVMASK_TICK then
      s11.event 10 s11.evCtx [d * 2 ^ 48 + tokPlan k * 2 ^ 50 + (tokHold k).toNat * 2 ^ 54 + tokT k * 2 ^ 64] else s11) :=
    (h11.mono (by decide)).trans h12
  have hjob : JobGoesOn s s10 :=
    (((JobGoesOn.of_parts h7 (by decide)).trans hj8).trans (JobGoesOn.of_parts h9 (by decide))).trans ⟨rfl, rfl, rfl⟩
  refine ⟨((h8.then h9 (by decide)).then (withJob_onlyParts _ _) (by decide)).then hlate (by decide), hjob.trans (JobGoesOn.of_parts hlate (by decide)), ?_⟩
  rw [hlate .job (by decide)]
  rfl

/-! ### With a token, and without -/

/-- With one token held and none missed, the edge applies it (R65). -/
theorem edgeTokens_eq {s : State} {k : BitVec 256} {copy : Option (BitVec 256)} (f : ImageFile)
    (ht : s.job.token = some (k, copy)) (hm : s.job.tokensMissed = 0) :
    s.edgeTokens f = (s.applyToken f k s.run.loss).withJob (fun j => { j with tokensMissed := 0 }) := by
  have h0 : (s.job.tokensMissed != 0) = false := by rw [hm]; rfl
  unfold State.edgeTokens
  rw [ht]
  simp only [h0, Bool.false_and, Bool.false_eq_true, if_false]
  cases copy <;> simp only [h0, Bool.false_eq_true, if_false]

/-- What an edge with a token leaves: the record that the token makes, mirrored. -/
structure TokenApplied (s t : State) (f : ImageFile) (k : BitVec 256) : Prop where
  parts : OnlyParts tokenParts (recordSet s (ccrApply f s.ccr k s.run.loss)) t
  goesOn : JobGoesOn s t
  last : t.job.lastToken = some k

theorem edgeTokens_applied {s : State} {k : BitVec 256} {copy : Option (BitVec 256)} (f : ImageFile)
    (ht : s.job.token = some (k, copy)) (hm : s.job.tokensMissed = 0) : TokenApplied s (s.edgeTokens f) f k := by
  obtain ⟨hp, hj, hl⟩ := applyToken_rest s f k s.run.loss
  rw [edgeTokens_eq f ht hm]
  exact ⟨hp.then (withJob_onlyParts _ _) (by decide), hj.trans ⟨rfl, rfl, rfl⟩, hl⟩

/-- Without a token the first time, the miss is noted as class C (R66). -/
theorem edgeNoToken_eq {s : State} (hm : s.job.tokensMissed = 0) :
    s.edgeNoToken = (s.withJob (fun j => { j with tokensMissed := 1 })).classC 1 TICK_STS_TOKEN_ABSENT := by
  unfold State.edgeNoToken
  rw [hm]
  rfl

theorem edgeNoToken_onlyParts {s : State} (hm : s.job.tokensMissed = 0) :
    OnlyParts [.regs, .run, .job, .attend, .fifos, .cap, .outbox] s s.edgeNoToken := by
  rw [edgeNoToken_eq hm]
  exact ((withJob_onlyParts s _).mono (by decide)).then (classC_onlyParts _ _ _) (by decide)

theorem edgeNoToken_job {s : State} (hm : s.job.tokensMissed = 0) : s.edgeNoToken.job = { s.job with tokensMissed := 1 } := by
  rw [edgeNoToken_eq hm]
  exact (classC_onlyParts _ _ _) .job (by decide)

theorem edgeNoToken_sts {s : State} (hm : s.job.tokensMissed = 0) (h : Inv s) :
    s.edgeNoToken.fget TICK_STS_TOKEN_ABSENT = 1 := by
  rw [edgeNoToken_eq hm]
  exact fget_classCWith _ _ _ _ _ (by simpa using h.1.1) (by decide) rfl (by decide) (by decide)

end Sys2Proof.Laws
end

section
/-! PROOFS. The tick that opens (R29, R49 to R53, R67, R289, R317, R514, R517). -/

namespace Sys2Proof.Laws

open Sys2Proof.Machine Sys2Proof.Safety

/-! ### What an opening leaves of the tick's record, the tokens and the registers -/

/-- The fields that an opening sets, or finds set, and leaves. -/
def openFlds : List Fld := [TICK_COUNT_COUNT, TICK_PLAN_CUR, TICK_STS_TOKEN_ABSENT]

/-- The registers of those fields. -/
def openKeys : List Nat := [TICK_COUNT.base, TICK_PLAN.base, TICK_STS.base]

theorem openFlds_base : ∀ f ∈ openFlds, f.base ∈ openKeys := by decide

/-- The tick runs, its step, its items and its tokens are the same in both states, and so are the fields of an opening. -/
structure TickStands (s t : State) : Prop where
  active : t.run.active = s.run.active
  steps : t.run.stepRuns = s.run.stepRuns
  noStep : t.run.noStep = s.run.noStep
  items : t.run.items = s.run.items
  token : t.job.token = s.job.token
  last : t.job.lastToken = s.job.lastToken
  missed : t.job.tokensMissed = s.job.tokensMissed
  keeps : Keeps s t
  flds : Inv s → ∀ f ∈ openFlds, t.fget f = s.fget f

theorem TickStands.refl (s : State) : TickStands s s := ⟨rfl, rfl, rfl, rfl, rfl, rfl, rfl, Keeps.refl s, fun _ _ _ => rfl⟩

theorem TickStands.trans {s t u : State} (h : TickStands s t) (g : TickStands t u) : TickStands s u :=
  ⟨g.active.trans h.active, g.steps.trans h.steps, g.noStep.trans h.noStep, g.items.trans h.items, g.token.trans h.token,
    g.last.trans h.last, g.missed.trans h.missed, h.keeps.trans g.keeps,
    fun i f m => (g.flds (h.keeps.inv i) f m).trans (h.flds i f m)⟩

theorem TickStands.ite {s a b : State} {c : Prop} [Decidable c] (ha : TickStands s a) (hb : TickStands s b) :
    TickStands s (if c then a else b) := by split <;> assumption

/-- An operation that touches neither the tick's record nor the job's leaves them, where it leaves the registers. -/
theorem TickStands.of_parts {ps : List Part} {s t : State} (h : OnlyParts ps s t) (hk : Keeps s t) (hr : RegsStand openKeys s t)
    (hps : .run ∉ ps ∧ .job ∉ ps) : TickStands s t := by
  have e1 : t.run = s.run := h .run hps.1
  have e2 : t.job = s.job := h .job hps.2
  exact ⟨by rw [e1], by rw [e1], by rw [e1], by rw [e1], by rw [e2], by rw [e2], by rw [e2], hk,
    fun _ f m => hr.fget f (openFlds_base f m)⟩

/-- An operation on the tick's record and the job's that leaves what counts there. -/
theorem TickStands.of_same {s t : State} (hk : Keeps s t) (hr : t.regs = s.regs)
    (hrun : (t.run.active, t.run.stepRuns, t.run.noStep, t.run.items) = (s.run.active, s.run.stepRuns, s.run.noStep, s.run.items))
    (hjob : (t.job.token, t.job.lastToken, t.job.tokensMissed) = (s.job.token, s.job.lastToken, s.job.tokensMissed)) :
    TickStands s t := by
  simp only [Prod.mk.injEq] at hrun hjob
  obtain ⟨ha, hs, hn, hi⟩ := hrun
  obtain ⟨ht, hl, hm⟩ := hjob
  exact ⟨ha, hs, hn, hi, ht, hl, hm, hk, fun _ f _ => fget_congr hr f⟩

theorem tickStands_fset (s : State) (f : Fld) (x : Nat) (h : f.base ∉ openKeys) : TickStands s (s.fset f x) :=
  .of_parts (fset_onlyParts s f x) (fset_keeps f x (Keeps.refl s)) (regsStand_fset s f x h) (by decide)

theorem tickStands_fadd (s : State) (f : Fld) (n : Nat) (h : f.base ∉ openKeys) : TickStands s (s.fadd f n) :=
  .of_parts (fadd_onlyParts s f n) (fadd_keeps s f n (Keeps.refl s)) (regsStand_fadd s f n h) (by decide)

/-- A status bit of its own, even in the register of another. -/
theorem tickStands_setSts (s : State) (p : Nat) (f : Fld)
    (h : f.lo + f.wd ≤ 64 ∧ ∀ g ∈ openFlds, apart f g = true) : TickStands s (s.setSts p f) := by
  have hp := setSts_onlyParts s p f
  have e1 : (s.setSts p f).run = s.run := hp .run (by decide)
  have e2 : (s.setSts p f).job = s.job := hp .job (by decide)
  exact ⟨by rw [e1], by rw [e1], by rw [e1], by rw [e1], by rw [e2], by rw [e2], by rw [e2], setSts_keeps s p f (Keeps.refl s),
    fun i g m => fget_setSts_apart s p f g i.1.1 h.1 (h.2 g m)⟩

theorem tickStands_event (s : State) (typ ctx : Nat) (l : List Nat) : TickStands s (s.event typ ctx l) :=
  .of_parts (event_onlyParts s typ ctx l) (event_keeps s typ ctx l (Keeps.refl s))
    (.of_only (only_event (ks := noteRegs) s typ ctx l (fun _ m => m)) (by decide)) (by decide)

theorem tickStands_capTrigger (s : State) (c src : Nat) : TickStands s (s.capTrigger c src) :=
  .of_parts (capTrigger_onlyParts s c src) (capTrigger_keeps s c src (Keeps.refl s))
    (.of_only (only_capTrigger (ks := noteRegs) s c src (fun _ m => m)) (by decide)) (by decide)

theorem tickStands_classC (s : State) (p : Nat) (f : Fld)
    (hk : f.base ∉ openKeys ∧ (FAULT_CNT_C_RAISED.pageOf p).base ∉ openKeys) : TickStands s (s.classC p f) := by
  have hjob : (s.classC p f).job = s.job := (classC_onlyParts s p f) .job (by decide)
  have hregs : OnlyRegs (f.base :: (FAULT_CNT_C_RAISED.pageOf p).base :: noteRegs) s (s.classC p f) :=
    only_classC s p f (fun k m => .tail _ (.tail _ m)) (.head _) (.tail _ (.head _))
  have hn : ∀ k ∈ openKeys, k ∉ noteRegs := by decide
  have hk : ∀ k ∈ openKeys, k ∉ f.base :: (FAULT_CNT_C_RAISED.pageOf p).base :: noteRegs := by
    intro k m hm
    rcases List.mem_cons.1 hm with e | hm
    · exact hk.1 (e ▸ m)
    · rcases List.mem_cons.1 hm with e | hm
      · exact hk.2 (e ▸ m)
      · exact hn k m hm
  have hrun : (s.classC p f).run.active = s.run.active ∧ (s.classC p f).run.stepRuns = s.run.stepRuns ∧
      (s.classC p f).run.noStep = s.run.noStep ∧ (s.classC p f).run.items = s.run.items := by
    rw [classC_run]
    split <;> exact ⟨rfl, rfl, rfl, rfl⟩
  obtain ⟨ha, hs, hns, hi⟩ := hrun
  exact ⟨ha, hs, hns, hi, by rw [hjob], by rw [hjob], by rw [hjob], classC_keeps s p f (Keeps.refl s),
    fun _ g m => hregs.fget g (hk _ (openFlds_base g m))⟩

/-! ### The pieces of an opening -/

/-- A field of a tile lies in no register of the tick (R569). -/
theorem tile_not_planKey (f : Fld) (n : Nat) (h : 0x2000000 ≤ f.base) : (f.tile n).base ∉ openKeys := by
  have hlow : ∀ k ∈ openKeys, k < 0x2000000 := by decide
  intro hm
  have hlt := hlow _ hm
  have e : (f.tile n).base = f.base + n / 10 * 0x1000000 + n % 10 * 0x40000 := rfl
  omega

theorem tickless_onlyParts (s : State) : OnlyParts [.regs, .tiles, .hub] s s.tickless := by
  unfold State.tickless
  extract_lets u v
  have hu : OnlyParts [.regs, .tiles, .hub] s u := (withHub_onlyParts _ _).mono (by decide)
  have hv : OnlyParts [.regs, .tiles, .hub] s v :=
    hu.trans (foldl_onlyParts _ (fun t _ => (fset_onlyParts t _ _).mono (by decide)) _ _)
  exact hv.then (withTiles_onlyParts _ _) (by decide)

theorem tickless_stands (s : State) : TickStands s s.tickless := by
  have hr : RegsStand openKeys s s.tickless := by
    unfold State.tickless
    extract_lets u v
    have hu : RegsStand openKeys s u := .of_parts (withHub_onlyParts s _) (by decide)
    have hv : RegsStand openKeys u v := List.foldlRecOn _ _ (.refl _ u)
      (fun t h n _ => h.trans (regsStand_fset t _ _ (tile_not_planKey _ n (by decide))))
    exact (hu.trans hv).trans (.of_parts (withTiles_onlyParts _ _) (by decide))
  exact .of_parts (tickless_onlyParts s) (tickless_keeps s (Keeps.refl s)) hr (by decide)

theorem landLine_podPend (l : List LineWrite) (t : Tiles) : (l.foldl Tiles.landLine t).podPend = t.podPend :=
  List.foldlRecOn l (motive := fun u => Tiles.podPend u = t.podPend) Tiles.landLine rfl (fun _ h _ _ => h)

/-- No tick's bookkeeping remains; pod faults that wait go on waiting. -/
theorem tickless_cleared (s : State) : s.tickless.tiles.flights = [] ∧ s.tickless.tiles.ended = [] ∧
    s.tickless.tiles.podPend = s.tiles.podPend ∧ s.tickless.hub.swaps = s.hub.swaps := by
  unfold State.tickless
  extract_lets u v
  have hv : OnlyParts [.regs] u v := foldl_onlyParts _ (fun t _ => fset_onlyParts t _ _) _ _
  refine ⟨rfl, rfl, ?_, ?_⟩
  · have e : v.tiles.podPend = s.tiles.podPend := congrArg Tiles.podPend (hv .tiles (by decide))
    exact (landLine_podPend _ v.tiles).trans e
  · have e : v.hub = u.hub := hv .hub (by decide)
    exact (congrArg HubSt.swaps e).trans rfl

theorem openLag_onlyParts (s : State) (f : ImageFile) : OnlyParts [.job] s (s.openLag f) := by
  unfold State.openLag
  extract_lets u
  exact (withJob_onlyParts s _).trans (foldl_onlyParts _ (fun t _ => withJob_onlyParts t _) _ _)

theorem openLag_stands (s : State) (f : ImageFile) : TickStands s (s.openLag f) := by
  have hset (t : State) (w : Nat) (b : Bool) (e : LagEnt) : TickStands t (t.setLag w b e) :=
    .of_same (setLag_keeps t w b e (Keeps.refl t)) rfl rfl rfl
  unfold State.openLag
  extract_lets u
  have hu : TickStands s u := .of_same (withJob_keeps s _ (Keeps.refl s)) rfl rfl rfl
  exact hu.trans (List.foldlRecOn _ _ (.refl u) (fun t h _ _ => h.trans (hset t _ _ _)))

/-- What the end of an EXPORT touches. -/
abbrev exportParts : List Part := [.regs, .fifos, .host, .outbox]

theorem commandDone_onlyParts (s : State) (ctx tag opcode status detail : Nat) :
    OnlyParts [.regs, .fifos, .outbox] s (s.commandDone ctx tag opcode status detail) := event_onlyParts _ _ _ _

theorem exportEvent_onlyParts (s : State) (ctx result kind written4k tag : Nat) (c : Ccr) :
    OnlyParts [.regs, .fifos, .outbox] s (s.exportEvent ctx result kind written4k tag c) := event_onlyParts _ _ _ _

theorem abandonExport_onlyParts (s : State) : OnlyParts exportParts s s.abandonExport := by
  unfold State.abandonExport
  split
  · exact OnlyParts.refl _ s
  · extract_lets u v w x
    exact (((((withHost_onlyParts s _).mono (by decide)).then (setSts_onlyParts _ _ _) (by decide)).then (fsetAll_onlyParts _ _) (by decide)).then
      (commandDone_onlyParts _ _ _ _ _ _) (by decide)).then (exportEvent_onlyParts _ _ _ _ _ _ _) (by decide)

theorem abandonExport_stands (s : State) : TickStands s s.abandonExport := by
  unfold State.abandonExport
  split
  · exact .refl s
  · extract_lets u v w x
    have hu : TickStands s u := .of_same (withHost_keeps s _ (Keeps.refl s)) rfl rfl rfl
    have hx : TickStands v x := .of_parts (fsetAll_onlyParts _ _) (fsetAll_keeps _ (Keeps.refl v))
      (.of_only (only_fsetAll (ks := [HULL_EXPORT.base]) _ _ (by decide)) (by decide)) (by decide)
    exact ((hu.trans (tickStands_setSts u _ _ (by decide))).trans hx).trans ((tickStands_event _ _ _ _).trans (tickStands_event _ _ _ _))

theorem openExport_onlyParts (s : State) : OnlyParts exportParts s s.openExport :=
  OnlyParts.ite (abandonExport_onlyParts s) (OnlyParts.refl _ s)

theorem openExport_stands (s : State) : TickStands s s.openExport := .ite (abandonExport_stands s) (.refl s)

/-- Promotions are counted for each activity alone. -/
theorem promotions_stand (l : List Nat) (hl : ∀ a ∈ l, a < 4) (s : State) :
    TickStands s (l.foldl (fun s a => s.fadd (TICK_STARVE_PROMOTIONS.ix a) 1) s) := by
  have hk : ∀ a, a < 4 → (TICK_STARVE_PROMOTIONS.ix a).base ∉ openKeys := by decide
  exact List.foldlRecOn l _ (.refl s) (fun t h a ha => h.trans (tickStands_fadd t _ _ (hk a (hl a ha))))

theorem promote_onlyParts (s : State) (p : PlanImg) : OnlyParts [.regs, .run, .outbox] s (s.promote p) := by
  unfold State.promote
  extract_lets up pl noSlack u v w
  have hu : OnlyParts [.regs, .run, .outbox] s u := foldl_onlyParts _ (fun t _ => (fadd_onlyParts t _ _).mono (by decide)) _ _
  have hw : OnlyParts [.regs, .run, .outbox] s w := (hu.then (setSts_onlyParts _ _ _) (by decide)).then (withRun_onlyParts _ _) (by decide)
  exact OnlyParts.ite (OnlyParts.refl _ s) (OnlyParts.ite (hw.then (setSts_onlyParts _ _ _) (by decide)) hw)

theorem promote_stands (s : State) (p : PlanImg) : TickStands s (s.promote p) := by
  unfold State.promote
  extract_lets up pl noSlack u v w
  have hu : TickStands s u := promotions_stand up (fun a ha => by
    have := (mem_range' _ _ _).1 (List.mem_of_mem_filter ha)
    omega) s
  have hw : TickStands v w := .of_same (withRun_keeps v _ (Keeps.refl v)) rfl rfl rfl
  have hsw : TickStands s w := (hu.trans (tickStands_setSts u _ _ (by decide))).trans hw
  exact .ite (.refl s) (.ite (hsw.trans (tickStands_setSts w _ _ (by decide))) hsw)

/-- What a harvest that becomes due touches. -/
abbrev harvestParts : List Part := [.regs, .run, .attend, .fifos, .cap, .power, .outbox]

theorem harvestWaits_onlyParts (s : State) : OnlyParts [.regs, .power] s s.harvestWaits :=
  ((fset_onlyParts s _ _).mono (by decide)).then (withPower_onlyParts _ _) (by decide)

theorem harvestWaits_stands (s : State) : TickStands s s.harvestWaits := by
  unfold State.harvestWaits
  extract_lets due
  exact (tickStands_fset s HRD_STATE_HARVEST_DUE 0 (by decide)).trans (.of_same (withPower_keeps _ _ (Keeps.refl _)) rfl rfl rfl)

theorem harvestDue_onlyParts (s : State) (f : ImageFile) : OnlyParts harvestParts s (s.harvestDue f) := by
  have hw := (harvestWaits_onlyParts s).mono (qs := harvestParts) (by decide)
  unfold State.harvestDue
  extract_lets u
  refine OnlyParts.ite (OnlyParts.refl _ s) (OnlyParts.ite (hw.then (setSts_onlyParts _ _ _) (by decide))
    (OnlyParts.ite (hw.then (setSts_onlyParts _ _ _) (by decide)) (OnlyParts.ite (OnlyParts.ite hw (hw.then (classC_onlyParts _ _ _) (by decide))) ?_)))
  exact ((fset_onlyParts s _ _).mono (by decide)).then (withPower_onlyParts _ _) (by decide)

theorem harvestDue_stands (s : State) (f : ImageFile) : TickStands s (s.harvestDue f) := by
  have hw := harvestWaits_stands s
  unfold State.harvestDue
  extract_lets u
  refine .ite (.refl s) (.ite (hw.trans (tickStands_setSts _ _ _ (by decide))) (.ite (hw.trans (tickStands_setSts _ _ _ (by decide)))
    (.ite (.ite hw (hw.trans (tickStands_classC _ _ _ (by decide)))) ?_)))
  exact (tickStands_fset s _ _ (by decide)).trans (.of_same (withPower_keeps _ _ (Keeps.refl _)) rfl rfl rfl)

theorem harvestDefer_onlyParts (s : State) (was opens : Bool) : OnlyParts [.regs, .run, .outbox] s (s.harvestDefer was opens) := by
  unfold State.harvestDefer
  extract_lets n ceil n' u v
  have hu : OnlyParts [.regs, .run, .outbox] s u := (fset_onlyParts s _ _).mono (by decide)
  have hv : OnlyParts [.regs, .run, .outbox] s v :=
    OnlyParts.ite ((hu.then (fadd_onlyParts _ _ _) (by decide)).then (setSts_onlyParts _ _ _) (by decide)) hu
  exact OnlyParts.ite ((fset_onlyParts s _ _).mono (by decide)) (hv.then (withRun_onlyParts _ _) (by decide))

theorem harvestDefer_stands (s : State) (was opens : Bool) : TickStands s (s.harvestDefer was opens) := by
  unfold State.harvestDefer
  extract_lets n ceil n' u v
  have hu : TickStands s u := tickStands_fset s _ _ (by decide)
  have hv : TickStands s v := .ite ((hu.trans (tickStands_fadd _ _ _ (by decide))).trans (tickStands_setSts _ _ _ (by decide))) hu
  exact .ite (tickStands_fset s _ _ (by decide)) (hv.trans (.of_same (withRun_keeps v _ (Keeps.refl v)) rfl rfl rfl))

theorem openCaptures_onlyParts (s : State) (c count : Nat) : OnlyParts [.regs, .job, .cap, .outbox] s (s.openCaptures c count) := by
  unfold State.openCaptures
  extract_lets off u v
  have hu : OnlyParts [.regs, .job, .cap, .outbox] s u := OnlyParts.ite (OnlyParts.refl _ s) ((fset_onlyParts s _ _).mono (by decide))
  have hv : OnlyParts [.regs, .job, .cap, .outbox] s v := OnlyParts.ite (hu.then (capTrigger_onlyParts _ _ _) (by decide)) (OnlyParts.refl _ s)
  split
  · exact OnlyParts.ite (((hv.then (withJob_onlyParts _ _) (by decide)).then (fset_onlyParts _ _ _) (by decide)).then (capTrigger_onlyParts _ _ _) (by decide)) hv
  · exact hv

theorem openCaptures_stands (s : State) (c count : Nat) : TickStands s (s.openCaptures c count) := by
  unfold State.openCaptures
  extract_lets off u v
  have hu : TickStands s u := .ite (.refl s) (tickStands_fset s _ _ (by decide))
  have hv : TickStands s v := .ite (hu.trans (tickStands_capTrigger _ _ _)) (.refl s)
  have hjob (t : State) : TickStands t (t.withJob (fun j => { j with captureAt := none })) :=
    .of_same (withJob_keeps t _ (Keeps.refl t)) rfl rfl rfl
  split
  · exact .ite (((hv.trans (hjob v)).trans (tickStands_fset _ _ _ (by decide))).trans (tickStands_capTrigger _ _ _)) hv
  · exact hv

theorem countKind_onlyParts (s : State) (kind : Nat) : OnlyParts [.regs, .fresh] s (s.countKind kind) := by
  have hf (f : Fld) : OnlyParts [.regs, .fresh] s (s.fadd f 1) := (fadd_onlyParts s _ _).mono (by decide)
  unfold State.countKind
  refine OnlyParts.ite (hf _) (OnlyParts.ite ?_ (OnlyParts.refl _ s))
  split
  · exact hf _
  · exact hf _
  · refine (hf (if s.freeVal % 2 == 1 then TICK_CNT_SERVICE_TICKS else TICK_CNT_FALLOW_TICKS)).trans ?_
    intro p hp
    cases p <;> simp [Part.Same] at hp ⊢

theorem countKind_stands (s : State) (kind : Nat) : RegsStand openKeys s (s.countKind kind) := by
  have hf (f : Fld) (h : f.base ∉ openKeys) : RegsStand openKeys s (s.fadd f 1) := regsStand_fadd s f 1 h
  unfold State.countKind
  refine .ite (hf _ (by decide)) (.ite ?_ (.refl _ s))
  split
  · exact hf _ (by decide)
  · exact hf _ (by decide)
  · split <;> exact hf _ (by decide)

end Sys2Proof.Laws
end

section
/-! PROOFS. TICK_EDGE (R21, R62, R65, R66, R309). -/

namespace Sys2Proof.Laws

open Sys2Proof.Machine Sys2Proof.Safety

/-! ### The tick that opens -/

/-- What an opening touches whether or not the tick runs its step. -/
abbrev openParts : List Part := [.edgeAt, .regs, .run, .job, .tiles, .attend, .fifos, .cap, .hub, .power, .outbox]

/-- What an opening touches. -/
abbrev openPartsAll : List Part := [.edgeAt, .regs, .run, .job, .tiles, .attend, .fifos, .cap, .hub, .host, .power, .outbox, .fresh]

theorem openRegs_onlyParts (s : State) (f : ImageFile) (plan count : Nat) : OnlyParts [.regs] s (s.openRegs f plan count) :=
  fsetAll_onlyParts _ _

/-- The fields that an opening sets share no bits. -/
theorem openRegs_apart : FieldsApart [TICK_COUNT_COUNT, TICK_PERIOD_PERIOD, TICK_PLAN_CUR, TICK_PLAN_CUR_KIND,
    TICK_PLAN_NEXT_VALID, TICK_PLAN_PHASE, HULL_TOKEN_SUM_VALID, HULL_NORM_VALID] := ⟨by decide, by decide⟩

theorem openRegs_shows (s : State) (f : ImageFile) (plan count : Nat) (h : tabWf resetOf s.regs = true) :
    (s.openRegs f plan count).fget TICK_COUNT_COUNT = count % 2 ^ 64 ∧ (s.openRegs f plan count).fget TICK_PLAN_CUR = plan % 2 ^ 4 ∧
      (s.openRegs f plan count).fget TICK_STS_TOKEN_ABSENT = s.fget TICK_STS_TOKEN_ABSENT := by
  unfold State.openRegs
  extract_lets p kind
  have hget {g : Fld} {x : Nat} := fget_fsetAll_mem (f := g) (x := x) [(TICK_COUNT_COUNT, count),
    (TICK_PERIOD_PERIOD, match p with | some p => planPeriod p | none => 0), (TICK_PLAN_CUR, plan), (TICK_PLAN_CUR_KIND, kind),
    (TICK_PLAN_NEXT_VALID, 0), (TICK_PLAN_PHASE, 0), (HULL_TOKEN_SUM_VALID, 0), (HULL_NORM_VALID, 0)] s h openRegs_apart
  refine ⟨hget (by simp), hget (by simp), ?_⟩
  refine (only_fsetAll (ks := [TICK_COUNT.base, TICK_PERIOD.base, TICK_PLAN.base, HULL_TOKEN_SUM.base, HULL_NORM.base]) _ s
    ?_).fget _ (by decide)
  simp only [List.forall_mem_cons]
  exact ⟨by decide, by decide, by decide, by decide, by decide, by decide, by decide, by decide, fun q m => nomatch m⟩

/-- What an edge leaves of the tick that it opens. -/
structure Opened (s t : State) (c count plan : Nat) (runs : Bool) : Prop where
  edge : t.edgeAt = c
  active : t.run.active = true
  noStep : t.run.noStep = !runs
  steps : runs = false → t.run.stepRuns = false
  items : t.run.items = []
  token : t.job.token = none
  last : t.job.lastToken = s.job.lastToken
  missed : t.job.tokensMissed = s.job.tokensMissed
  tick : t.tickCount = count % 2 ^ 64
  plan : t.fget TICK_PLAN_CUR = plan % 2 ^ 4
  absent : t.fget TICK_STS_TOKEN_ABSENT = s.fget TICK_STS_TOKEN_ABSENT
  flights : t.tiles.flights = []
  ended : t.tiles.ended = []
  podPend : t.tiles.podPend = s.tiles.podPend
  swaps : t.hub.swaps = s.hub.swaps
  parts : OnlyParts openPartsAll s t
  partsNoStep : runs = false → OnlyParts openParts s t


/-- What an opening does after its registers, its records and its bookkeeping are set. -/
abbrev lateParts : List Part := [.regs, .run, .job, .attend, .fifos, .cap, .power, .outbox]

theorem openTick_opened {s : State} (f : ImageFile) (c count plan : Nat) (runs : Bool) (hi : Inv s) :
    Opened s (s.openTick f c count plan runs) c count plan runs := by
  unfold State.openTick
  extract_lets old wasDue p kind s1 s2 s3 r s4 s5 s6 s7 s8 s9
  clear_value p kind
  have h2 : OnlyParts [.edgeAt, .regs] s s2 :=
    (show OnlyParts [.edgeAt, .regs] s s1 from fun q hq => by cases q <;> simp [Part.Same, s1] at hq ⊢).then (openRegs_onlyParts _ _ _ _) (by decide)
  have h3 : OnlyParts [.edgeAt, .regs, .fresh] s s3 :=
    OnlyParts.ite ((h2.mono (by decide)).then (countKind_onlyParts _ _) (by decide)) (h2.mono (by decide))
  have h3n : runs = false → OnlyParts [.edgeAt, .regs] s s3 := fun hr => by
    have e : s3 = s2 := if_neg (by rw [hr]; decide)
    rw [e]
    exact h2
  have h34 : OnlyParts [.run] s3 s4 := fun q hq => by cases q <;> simp [Part.Same, s4] at hq ⊢
  have h36 : OnlyParts [.regs, .run, .job, .tiles, .hub] s3 s6 :=
    ((h34.mono (by decide)).then (withJob_onlyParts _ _) (by decide)).then (tickless_onlyParts _) (by decide)
  have h7 : OnlyParts [.regs, .job, .fifos, .host, .outbox] s6 s7 := OnlyParts.ite
    (((openLag_onlyParts s6 f).mono (by decide)).then (openExport_onlyParts _) (by decide)) (OnlyParts.refl _ _)
  have h7n : runs = false → OnlyParts [] s6 s7 := fun hr => by
    have e : s7 = s6 := if_neg (by rw [hr, Bool.false_and]; decide)
    rw [e]
    exact OnlyParts.refl _ s6
  have h8 : OnlyParts [.regs, .run, .outbox] s7 s8 := by
    simp only [s8]
    split
    · exact OnlyParts.ite (promote_onlyParts _ _) (OnlyParts.refl _ _)
    · exact OnlyParts.refl _ _
  have h9 : OnlyParts lateParts s8 s9 :=
    ((harvestDue_onlyParts s8 f).mono (by decide)).then (harvestDefer_onlyParts _ _ _) (by decide)
  have hlast : OnlyParts lateParts s7 (s9.openCaptures c count) :=
    ((h8.mono (by decide)).then h9 (by decide)).then (openCaptures_onlyParts _ _ _) (by decide)
  have hstands : TickStands s5 (s9.openCaptures c count) := by
    have t7 : TickStands s6 s7 := .ite ((openLag_stands s6 f).trans (openExport_stands _)) (.refl _)
    have t8 : TickStands s7 s8 := by
      simp only [s8]
      split
      · exact .ite (promote_stands _ _) (.refl _)
      · exact .refl _
    have t9 : TickStands s8 s9 := (harvestDue_stands s8 f).trans (harvestDefer_stands _ _ _)
    exact ((((tickless_stands s5).trans t7).trans t8).trans t9).trans (openCaptures_stands _ _ _)
  have hk2 : Keeps s s2 := openRegs_keeps s1 f plan count ((Keeps.refl s).same rfl rfl rfl rfl rfl rfl rfl rfl rfl)
  have hk3 : Keeps s s3 := Keeps.ite (countKind_keeps _ _ hk2) hk2
  have hk4 : Keeps s s4 := hk3.same rfl rfl rfl rfl rfl rfl rfl rfl rfl
  have hk5 : Keeps s s5 := withJob_keeps s4 _ hk4
  have hjob3 : s3.job = s.job := h3 .job (by decide)
  have hlast5 : s5.job.lastToken = s.job.lastToken := by
    rw [← hjob3]
    rfl
  have hmissed5 : s5.job.tokensMissed = s.job.tokensMissed := by
    rw [← hjob3]
    rfl
  have htiles : (s9.openCaptures c count).tiles = s6.tiles := (h7 .tiles (by decide)).trans (hlast .tiles (by decide))
  have hhub : (s9.openCaptures c count).hub = s6.hub := (h7 .hub (by decide)).trans (hlast .hub (by decide))
  have htiles5 : s5.tiles = s.tiles := h3 .tiles (by decide)
  have hhub5 : s5.hub = s.hub := h3 .hub (by decide)
  obtain ⟨hfl, hen, hpod, hswap⟩ := tickless_cleared s5
  have hregs : RegsStand openKeys s2 s5 := by
    have g : RegsStand openKeys s2 s3 := .ite (countKind_stands _ _) (.refl _ _)
    exact g.trans (.of_parts ((h34.mono (qs := [.run, .job]) (by decide)).then (withJob_onlyParts _ _) (by decide)) (by decide))
  have hfld : ∀ g ∈ openFlds, (s9.openCaptures c count).fget g = s2.fget g := fun g m =>
    (hstands.flds (hk5.inv hi) g m).trans (hregs.fget g (openFlds_base g m))
  obtain ⟨hcount, hplan, habsent⟩ := openRegs_shows s1 f plan count hi.1.1
  have hedge3 : s3.edgeAt = c := by
    have e : s3.edgeAt = s2.edgeAt :=
      OnlyParts.ite (ps := [.regs, .fresh]) (countKind_onlyParts s2 kind) (OnlyParts.refl _ s2) .edgeAt (by decide)
    exact e.trans (openRegs_onlyParts s1 f plan count .edgeAt (by decide))
  have hedge : (s9.openCaptures c count).edgeAt = c :=
    Eq.trans ((((h36.mono (qs := .host :: .tiles :: .hub :: lateParts) (by decide)).then h7 (by decide)).then hlast (by decide)) .edgeAt (by decide)) hedge3
  refine {
    edge := hedge, active := hstands.active, noStep := hstands.noStep, steps := ?_, items := hstands.items,
    token := hstands.token, last := hstands.last.trans hlast5,
    missed := hstands.missed.trans hmissed5,
    tick := (hfld _ (by decide)).trans hcount, plan := (hfld _ (by decide)).trans hplan,
    absent := (hfld _ (by decide)).trans habsent, flights := ?_, ended := ?_, podPend := ?_, swaps := ?_, parts := ?_,
    partsNoStep := ?_ }
  · exact fun hr => hstands.steps.trans (by simp [s5, s4, r, State.withJob, hr])
  · rw [htiles]; exact hfl
  · rw [htiles]; exact hen
  · rw [htiles, ← htiles5]; exact hpod
  · rw [hhub, ← hhub5]; exact hswap
  · exact (((h3.mono (by decide)).then h36 (by decide)).then h7 (by decide)).then hlast (by decide)
  · intro hr
    exact ((((h3n hr).mono (by decide)).then h36 (by decide)).then (h7n hr) (by decide)).then hlast (by decide)


/-! ### Up to the edge -/

/-- What an edge does before its token is looked at. -/
abbrev readyParts : List Part := [.now, .regs, .run, .job, .attend, .fifos, .cap, .links, .outbox]

/-- What a lost marker and the time up to the edge leave for the edge. -/
structure EdgeNear (s t : State) : Prop where
  parts : OnlyParts readyParts s t
  keeps : Keeps s t
  goesOn : JobGoesOn s t
  token : t.job.token = s.job.token
  missed : t.job.tokensMissed = s.job.tokensMissed
  steps : t.run.stepRuns = s.run.stepRuns
  loss : t.run.loss = s.run.loss
  regs : RegsStand planKeys s t

theorem EdgeNear.refl (s : State) : EdgeNear s s :=
  ⟨OnlyParts.refl _ s, Keeps.refl s, JobGoesOn.refl s, rfl, rfl, rfl, rfl, RegsStand.refl _ s⟩

theorem EdgeNear.trans {s t u : State} (h : EdgeNear s t) (g : EdgeNear t u) : EdgeNear s u :=
  ⟨h.parts.trans g.parts, h.keeps.trans g.keeps, h.goesOn.trans g.goesOn, g.token.trans h.token, g.missed.trans h.missed,
    g.steps.trans h.steps, g.loss.trans h.loss, h.regs.trans g.regs⟩

theorem EdgeNear.ite {s a b : State} {c : Prop} [Decidable c] (ha : EdgeNear s a) (hb : EdgeNear s b) :
    EdgeNear s (if c then a else b) := by split <;> assumption

/-- An operation that leaves the tick's record and the job's. -/
theorem EdgeNear.of_parts {ps : List Part} {s t : State} (h : OnlyParts ps s t) (hk : Keeps s t) (hr : RegsStand planKeys s t)
    (hps : ps ⊆ readyParts ∧ .run ∉ ps ∧ .job ∉ ps) : EdgeNear s t := by
  have e1 : t.run = s.run := h .run hps.2.1
  have e2 : t.job = s.job := h .job hps.2.2
  exact ⟨h.mono hps.1, hk, JobGoesOn.of_parts h hps.2.2, by rw [e2], by rw [e2], by rw [e1], by rw [e1], hr⟩

theorem edgeNear_advance (s : State) (c : Nat) : EdgeNear s (s.advance c) :=
  .of_parts (advance_onlyParts s c) ((Keeps.refl s).lists rfl (Nat.le_max_left _ _) rfl rfl rfl rfl rfl rfl rfl)
    (.of_parts (advance_onlyParts s c) (by decide)) (by decide)

theorem markerMissNoted_keeps (s : State) : Keeps s (markerMissNoted s) := by
  have hm : Keeps s (markerMissing s) := fadd_keeps _ _ _ (withJob_keeps s _ (Keeps.refl s))
  exact Keeps.ite (classCWith_keeps _ _ _ _ _ hm) (capFault_keeps _ _ (traceAB_keeps _ _ _ _ (setSts_keeps _ _ _ hm)))

/-- The registers that a lost marker writes. -/
abbrev markerRegs : List Nat :=
  TICK_ALIGN.base :: TICK_STS.base :: (FAULT_CNT_C_RAISED.pageOf 1).base :: noteRegs

theorem only_markerMiss (s : State) : OnlyRegs markerRegs s (markerMissNoted s) := by
  have h : OnlyRegs markerRegs s (markerMissing s) :=
    ((withJob_onlyParts s _).onlyRegs (by decide) _).trans (only_fadd _ _ _ (by decide))
  exact h.trans ((only_markerMissNoted s).mono (by decide))

theorem markerMissNoted_run (s : State) : (markerMissNoted s).run.stepRuns = s.run.stepRuns ∧
    (markerMissNoted s).run.loss = s.run.loss ∧ (markerMissNoted s).run.treeDue = s.run.treeDue := by
  have e : (markerMissing s).run = s.run := (markerMissing_onlyParts s) .run (by decide)
  by_cases h0 : s.job.markersLost = 0
  · rw [first_markerMissNoted s h0, (firstMiss_onlyParts (markerMissing s)) .run (by decide), e]
    exact ⟨rfl, rfl, rfl⟩
  · rw [second_markerMissNoted s h0, classCWith_run, e]
    split <;> exact ⟨rfl, rfl, rfl⟩

theorem markerMissNoted_job (s : State) : (markerMissNoted s).job =
    { s.job with lostAtEdge := true, markersLost := s.job.markersLost + 1 } :=
  Eq.trans ((markerMissNoted_onlyParts s) .job (by decide)) (markerMissing_job s)

theorem edgeNear_markerMissNoted (s : State) : EdgeNear s (markerMissNoted s) := by
  have hj := markerMissNoted_job s
  obtain ⟨hs, hl, -⟩ := markerMissNoted_run s
  refine ⟨((markerMissing_onlyParts s).mono (by decide)).then (markerMissNoted_onlyParts s) (by decide), markerMissNoted_keeps s, ?_, ?_, ?_,
    hs, hl, .of_only (only_markerMiss s) (by decide)⟩
  · exact ⟨by rw [hj], by rw [hj], by rw [hj]⟩
  · rw [hj]
  · rw [hj]

/-- The links' registers and the period are none of those that a lost marker writes. -/
theorem linkRegs_markerMissNoted (s : State) : SameLinkRegs s (markerMissNoted s) :=
  .of_only ((edgeNear_markerMissNoted s).parts .edgeAt (by decide)) (only_markerMiss s) (by decide)

theorem sameDues_markerMissNoted (s : State) : SameDues s (markerMissNoted s) := by
  have hp : OnlyParts [.regs, .job, .run, .attend, .fifos, .cap, .outbox] s (markerMissNoted s) :=
    ((markerMissing_onlyParts s).mono (by decide)).then (markerMissNoted_onlyParts s) (by decide)
  refine ⟨hp .tiles (by decide), hp .solver (by decide), ?_, hp .links (by decide), (markerMissNoted_run s).2.2, ?_,
    fun l hl => (linkRegs_markerMissNoted s).lnkHop hl⟩
  · rw [hp .hub (by decide)]
  · rw [markerMissNoted_job]

theorem sameDues_advance (s : State) (c : Nat) : SameDues s (s.advance c) := ⟨rfl, rfl, rfl, rfl, rfl, rfl, fun _ _ => rfl⟩

/-- The predicted edge is the same after a lost marker. -/
theorem predictedEdge_markerMissNoted (s : State) : (markerMissNoted s).predictedEdge = s.predictedEdge := by
  unfold State.predictedEdge
  rw [(linkRegs_markerMissNoted s).1, (linkRegs_markerMissNoted s).period]

/-- A marker that the edge finds missing is noted on the predicted edge. -/
theorem markerMissed_eq {s : State} (hs : Settled s (s.job.markerEdge.getD s.predictedEdge)) :
    s.markerMissed = s ∨ s.job.markerEdge = none ∧ s.markerMissed = markerMissNoted (s.advance s.predictedEdge) := by
  by_cases h : (s.run.active && !s.fbit HULL_ORCH_MASTER && s.job.markerEdge.isNone && !s.job.lostAtEdge) = true
  · have hnone : s.job.markerEdge = none := by
      simp only [Bool.and_eq_true] at h
      exact Option.isNone_iff_eq_none.1 h.1.2
    rw [hnone, Option.getD_none] at hs
    refine .inr ⟨hnone, ?_⟩
    unfold State.markerMissed
    rw [if_pos h, upTo_settled _ _ hs]
    rfl
  · exact .inl (if_neg h)

/-- Whether a marker was lost or not, the edge's cycle is the same, and nothing else is due by it (R64). -/
theorem markerMissed_near {s : State} (hs : Settled s (s.job.markerEdge.getD s.predictedEdge)) :
    EdgeNear s s.markerMissed ∧
      s.markerMissed.job.markerEdge.getD s.markerMissed.predictedEdge = s.job.markerEdge.getD s.predictedEdge ∧
      Settled s.markerMissed (s.job.markerEdge.getD s.predictedEdge) := by
  rcases markerMissed_eq hs with e | ⟨hnone, e⟩
  · rw [e]
    exact ⟨.refl s, rfl, hs⟩
  · rw [e]
    refine ⟨(edgeNear_advance s _).trans (edgeNear_markerMissNoted _), ?_,
      (sameDues_markerMissNoted _).settled ((sameDues_advance s _).settled hs)⟩
    have hj : (markerMissNoted (s.advance s.predictedEdge)).job.markerEdge = none := by
      rw [markerMissNoted_job]
      exact hnone
    rw [hj, hnone, Option.getD_none, Option.getD_none, predictedEdge_markerMissNoted]
    rfl

end Sys2Proof.Laws
end

section
/-! PROOFS. TICK_EDGE (R21, R62, R65, R66, R309). -/

namespace Sys2Proof.Laws

open Sys2Proof.Machine Sys2Proof.Safety

/-! ### The edge before its token -/

/-- Time has come to the edge's cycle. -/
def edgeCome (s : State) (c : Nat) : State :=
  let err := (c - s.predictedEdge, s.predictedEdge - c)
  let s := s.upTo c
  let s := s.linksTurn (c - s.edgeAt)
  if s.job.markerEdge.isSome then
    s.fset TICK_ALIGN_LAST_ERR (if err.2 != 0 then 256 - min err.2 127 else min err.1 127) else s

/-- The health of the ending tick is closed. -/
def healthClosed (s : State) : State := s.withRun (fun r => { r with healthSent := true })

/-- The state of an edge on cycle `c` before its token is looked at: time has come there, the tick's counts are made. -/
def edgeReady (s : State) (f : ImageFile) (c : Nat) : State :=
  let s := edgeCome s c
  let sent := s.run.healthSent
  let s := (healthClosed s).countTick sent
  let s := match imgPlan f (s.fget TICK_PLAN_CUR) with | some p => s.starve f p | none => s
  if s.run.stepRuns then s.withJob (fun j => { j with lastPlan := some (s.ccr.step, s.fget TICK_PLAN_CUR) }) else s

theorem starved_near (s : State) (f : ImageFile) (o : Option PlanImg) :
    EdgeNear s (o.elim s (s.starve f)) := by
  cases o with
  | none => exact .refl s
  | some p => exact .of_parts (starve_onlyParts s f p) (starve_keeps s f p (Keeps.refl s)) (starve_stands s f p) (by decide)

theorem edgeCome_near (s : State) {c : Nat} (hs : Settled s c) : EdgeNear s (edgeCome s c) := by
  unfold edgeCome
  extract_lets err s1 s2
  have h1 : EdgeNear s s1 := by
    rw [show s1 = s.advance c from upTo_settled s c hs]
    exact edgeNear_advance s c
  have h2 : EdgeNear s1 s2 := .of_parts (linksTurn_onlyParts _ _) (linksTurn_keeps _ _ (Keeps.refl s1))
    (.of_parts (linksTurn_onlyParts _ _) (by decide)) (by decide)
  exact (h1.trans h2).trans (.ite (.of_parts (fset_onlyParts s2 _ _) (fset_keeps _ _ (Keeps.refl s2))
    (regsStand_fset _ _ _ (by decide)) (by decide)) (.refl s2))

theorem healthClosed_near (s : State) : EdgeNear s (healthClosed s) :=
  ⟨(withRun_onlyParts s _).mono (by decide), withRun_keeps s _ (Keeps.refl s), .of_parts (withRun_onlyParts s _) (by decide), rfl, rfl, rfl,
    rfl, .of_parts (withRun_onlyParts s _) (by decide)⟩

theorem edgeReady_near (s : State) (f : ImageFile) {c : Nat} (hs : Settled s c) : EdgeNear s (edgeReady s f c) := by
  unfold edgeReady
  extract_lets s4 sent s5 s6
  have h5 : EdgeNear (healthClosed s4) s5 :=
    .of_parts (countTick_onlyParts _ sent) (countTick_keeps _ sent (Keeps.refl _)) (countTick_stands _ sent) (by decide)
  have h6 : EdgeNear s5 s6 := by
    have e : s6 = (imgPlan f (s5.fget TICK_PLAN_CUR)).elim s5 (s5.starve f) := by
      simp only [s6]
      cases imgPlan f (s5.fget TICK_PLAN_CUR) <;> rfl
    rw [e]
    exact starved_near _ _ _
  have h7 : EdgeNear s6 (s6.withJob (fun j => { j with lastPlan := some (s6.ccr.step, s6.fget TICK_PLAN_CUR) })) :=
    ⟨(withJob_onlyParts s6 _).mono (by decide), withJob_keeps s6 _ (Keeps.refl s6), ⟨rfl, rfl, rfl⟩, rfl, rfl, rfl, rfl,
      .of_parts (withJob_onlyParts s6 _) (by decide)⟩
  exact ((((edgeCome_near s hs).trans (healthClosed_near _)).trans h5).trans h6).trans (.ite h7 (.refl s6))

/-- The cycle of the edge. -/
abbrev edgeCycle (s : State) : Nat := s.job.markerEdge.getD s.predictedEdge

/-- The state on which the edge of `s` looks at its token. -/
def edgeOf (s : State) (f : ImageFile) : State :=
  edgeReady s.markerMissed f (edgeCycle s)

theorem edgeOf_near {s : State} (f : ImageFile) (hs : Settled s (edgeCycle s)) : EdgeNear s (edgeOf s f) := by
  obtain ⟨hn, -, hst⟩ := markerMissed_near hs
  exact hn.trans (edgeReady_near _ f hst)

/-- What the edge does with its token, the swaps that waited and the tick that it opens, on the state that it finds. -/
def edgeActs (s : State) (f : ImageFile) (c count : Nat) : State :=
  let held := s.job.token
  let has := held.isSome && !s.reloading
  let plan := match held with | some (k, _) => if has then tokPlan k else s.fget TICK_PLAN_CUR | none => s.fget TICK_PLAN_CUR
  let s := if has then s.edgeTokens f else s
  let s := s.edgeSwaps
  let aborting := s.job.aborting
  let s := if has then s else s.edgeNoToken
  match aborting with
  | some (o, cause) => s.abortJob o cause count
  | none =>
    match s.job.preemptAt with
    | some (tick, reason) =>
      if tick == s.tickCount then
        let s := s.takePreempt 0 reason false s.tickCount plan c
        s.answerHeld
      else s.openTick f c count plan has
    | none => s.openTick f c count plan has

theorem tickEdge_eq {s : State} (f : ImageFile) (hs : Settled s (edgeCycle s)) :
    s.tickEdge f = edgeActs (edgeOf s f) f (edgeCycle s) (s.tickCount + 1) := by
  obtain ⟨hn, hc, hst⟩ := markerMissed_near hs
  have hcount : (healthClosed (edgeCome s.markerMissed (edgeCycle s))).tickCount = s.tickCount :=
    ((hn.trans (edgeCome_near _ hst)).trans (healthClosed_near _)).regs.fget TICK_COUNT_COUNT (by decide)
  have e : s.tickEdge f = edgeActs (edgeReady s.markerMissed f (edgeCycle s.markerMissed)) f (edgeCycle s.markerMissed)
      ((healthClosed (edgeCome s.markerMissed (edgeCycle s.markerMissed))).tickCount + 1) := rfl
  have hc' : edgeCycle s.markerMissed = edgeCycle s := hc
  rw [e, hc', hcount]
  rfl

/-! ### With a token, and without one -/

theorem edgeSwaps_goesOn (s : State) : JobGoesOn s s.edgeSwaps := .of_parts (edgeSwaps_onlyParts s) (by decide)

theorem edgeActs_token {s : State} {k : BitVec 256} {copy : Option (BitVec 256)} (f : ImageFile) (c count : Nat)
    (hr : s.reloading = false) (ht : s.job.token = some (k, copy)) (hm : s.job.tokensMissed = 0) (ha : s.job.aborting = none)
    (hp : s.job.preemptAt = none) :
    edgeActs s f c count = ((s.edgeTokens f).edgeSwaps).openTick f c count (tokPlan k) true := by
  obtain ⟨ha', hp', -⟩ := (edgeTokens_applied f ht hm).goesOn.trans (edgeSwaps_goesOn (s.edgeTokens f))
  rw [ha] at ha'
  rw [hp] at hp'
  simp only [edgeActs, ht, hr, Option.isSome_some, Bool.not_false, Bool.and_self, if_true, ha', hp']

theorem edgeActs_none {s : State} (f : ImageFile) (c count : Nat) (ht : s.job.token = none) (hm : s.job.tokensMissed = 0)
    (ha : s.job.aborting = none) (hp : s.job.preemptAt = none) :
    edgeActs s f c count = (s.edgeSwaps.edgeNoToken).openTick f c count (s.fget TICK_PLAN_CUR) false := by
  have hj : s.edgeSwaps.job = s.job := edgeSwaps_onlyParts s .job (by decide)
  have ha' : s.edgeSwaps.job.aborting = none := by rw [hj, ha]
  have hp' : s.edgeSwaps.edgeNoToken.job.preemptAt = none := by
    rw [edgeNoToken_job (by rw [hj, hm]), hj]
    exact hp
  simp only [edgeActs, ht, Option.isSome_none, Bool.false_and, Bool.false_eq_true, if_false, ha', hp']

theorem exec_tickEdge {s : State} {f : ImageFile} {p : PlanImg} (h : InTick f p s) (hs : Settled s (edgeCycle s)) :
    exec .tickEdge s = .next (edgeActs (edgeOf s f) f (edgeCycle s) (s.tickCount + 1)) := by
  obtain ⟨hawake, hactive, himage, -⟩ := h
  change Host.Outcome.next _ = _
  simp only [live_runs hawake.1, himage, hactive, if_true]
  rw [tickEdge_eq f hs]

theorem tokPlan_lt (k : BitVec 256) : tokPlan k < 2 ^ 4 := Nat.mod_lt _ (by decide)

/-- What an edge with a token changes: what came before it, the control record and its mirrors, the swaps and the opening. -/
abbrev edgeParts : List Part :=
  [.now, .edgeAt, .regs, .ccr, .mirror0, .mirror1, .run, .job, .tiles, .attend, .fifos, .cap, .hub, .links, .host, .slow, .power,
    .outbox, .fresh]

theorem tokenApplied_parts {s t : State} {f : ImageFile} {k : BitVec 256} (h : TokenApplied s t f k) : OnlyParts edgeParts s t := by
  have h0 : OnlyParts [.ccr, .mirror0, .mirror1] s (recordSet s (ccrApply f s.ccr k s.run.loss)) := by
    intro p hp
    cases p <;> simp [Part.Same, recordSet] at hp ⊢
  exact (h0.mono (by decide)).then h.parts (by decide)

/-- Settles O9: the edge as `edgeOf`, its token or its lack, the swaps, and the opening with what it leaves. -/
theorem tickEdgeAppliesTheTokenAndOpensTheTick : Obligations.TickEdgeAppliesTheTokenAndOpensTheTick := by
  intro s f p htick hmiss habort hpre hs
  have hn := edgeOf_near f hs
  have hex := exec_tickEdge htick hs
  set u := edgeOf s f with hu
  obtain ⟨ha, hp, -⟩ := hn.goesOn
  rw [habort] at ha
  rw [hpre] at hp
  have hm : u.job.tokensMissed = 0 := hn.missed.trans hmiss
  have hinv : Inv u := hn.keeps.inv htick.1.2
  refine ⟨fun k copy hrel htok => ?_, fun htok => ?_⟩
  · have ht : u.job.token = some (k, copy) := hn.token.trans htok
    have hr : u.reloading = false := by
      unfold State.reloading
      rw [hn.parts .power (by decide)]
      exact hrel
    have ha' := edgeTokens_applied f ht hm
    rw [edgeActs_token f _ _ hr ht hm ha hp] at hex
    set v := u.edgeTokens f with hv
    have hsw := edgeSwaps_onlyParts v
    have hkv : Keeps u v.edgeSwaps := edgeSwaps_keeps v (edgeTokens_keeps u f (Keeps.refl u))
    have ho := openTick_opened f (edgeCycle s) (s.tickCount + 1) (tokPlan k) true (hkv.inv hinv)
    set t := v.edgeSwaps.openTick f (edgeCycle s) (s.tickCount + 1) (tokPlan k) true with hdef
    have hrec : ∀ q, q = .ccr ∨ q = .mirror0 ∨ q = .mirror1 → Part.Same (recordSet u (ccrApply f u.ccr k u.run.loss)) t q := by
      have hall : OnlyParts [.now, .edgeAt, .regs, .run, .job, .tiles, .attend, .fifos, .cap, .hub, .links, .host, .slow, .power,
          .outbox, .fresh] (recordSet u (ccrApply f u.ccr k u.run.loss)) t :=
        ((ha'.parts.mono (by decide)).then hsw (by decide)).then ho.parts (by decide)
      rintro q (rfl | rfl | rfl) <;> exact hall _ (by decide)
    have hccr : t.ccr = ccrApply f s.ccr k s.run.loss := by
      rw [hrec .ccr (.inl rfl), ← hn.loss, ← hn.parts .ccr (by decide)]
      rfl
    have hm0 : t.mirror0 = t.ccr := by
      rw [hrec .mirror0 (.inr (.inl rfl)), hrec .ccr (.inl rfl)]
      rfl
    have hm1 : t.mirror1 = t.ccr := by
      rw [hrec .mirror1 (.inr (.inr rfl)), hrec .ccr (.inl rfl)]
      rfl
    have hlast : t.job.lastToken = some k := by
      rw [ho.last, hsw .job (by decide)]
      exact ha'.last
    have hplan : t.fget TICK_PLAN_CUR = tokPlan k := ho.plan.trans (Nat.mod_eq_of_lt (tokPlan_lt k))
    have hlinks : ∀ l, l < 16 → (t.link l).swaps = [] := fun l hl => by
      have e : t.links = v.edgeSwaps.links := ho.parts .links (by decide)
      unfold State.link
      rw [e]
      exact edgeSwaps_linkSwaps v hl
    exact ⟨t, hex, ho.edge, hccr, hm0, hm1, hlast, ho.token, ho.tick, hplan, ho.active, ho.noStep, ho.items,
      ho.podPend.trans (edgeSwaps_podPend v), ho.flights, ho.ended, ho.swaps.trans (edgeSwaps_hubSwaps v), hlinks,
      (((hn.parts.mono (by decide)).trans (tokenApplied_parts ha')).then hsw (by decide)).then ho.parts (by decide)⟩
  · have ht : u.job.token = none := hn.token.trans htok
    rw [edgeActs_none f _ _ ht hm ha hp] at hex
    have hsw := edgeSwaps_onlyParts u
    have hmw : u.edgeSwaps.job.tokensMissed = 0 := by
      rw [hsw .job (by decide)]
      exact hm
    have hiw : Inv u.edgeSwaps := (edgeSwaps_keeps u (Keeps.refl u)).inv hinv
    have hin : Inv u.edgeSwaps.edgeNoToken := (edgeNoToken_keeps _ (Keeps.refl _)).inv hiw
    have ho := openTick_opened f (edgeCycle s) (s.tickCount + 1) (u.fget TICK_PLAN_CUR) false hin
    have hnt := edgeNoToken_onlyParts hmw
    set t := u.edgeSwaps.edgeNoToken.openTick f (edgeCycle s) (s.tickCount + 1) (u.fget TICK_PLAN_CUR) false with hdef
    have hall : OnlyParts [.now, .edgeAt, .regs, .run, .job, .tiles, .attend, .fifos, .cap, .hub, .links, .power, .outbox] s t :=
      (((hn.parts.mono (by decide)).then hsw (by decide)).then hnt (by decide)).then (ho.partsNoStep rfl) (by decide)
    have hplan : t.fget TICK_PLAN_CUR = s.fget TICK_PLAN_CUR := by
      have e : u.fget TICK_PLAN_CUR = s.fget TICK_PLAN_CUR := hn.regs.fget _ (by decide)
      rw [ho.plan, e]
      exact Nat.mod_eq_of_lt (fget_lt s TICK_PLAN_CUR)
    have hmissed : t.job.tokensMissed = 1 := by
      rw [ho.missed, edgeNoToken_job hmw]
    exact ⟨t, hex, ho.edge, hall .ccr (by decide), hmissed, ho.active, ho.steps rfl, ho.noStep,
      fbit_of_fget (ho.absent.trans (edgeNoToken_sts hmw hiw)), ho.tick, hplan, hall⟩

end Sys2Proof.Laws
end

section
/-! PROOFS. The words of a tile's stream (R113 to R115, R483): what any of them can touch, and that its place in the stream, which
its issue notes, stands afterwards. -/

namespace Sys2Proof.Laws

open Sys2Proof.Machine Sys2Proof.Safety

/-! ### The registers of a tile (R569) -/

theorem tile_base (f : Fld) (n : Nat) : (f.tile n).base = f.base + n / 10 * 0x1000000 + n % 10 * 0x40000 := rfl

theorem tile_base_inj (f g : Fld) (n : Nat) : (f.tile n).base = (g.tile n).base ↔ f.base = g.base := by
  simp only [tile_base]
  omega

/-- The key of a tile's TILE_SEQ. -/
abbrev seqKey (n : Nat) : Nat := (TILE_SEQ.tile n).base

/-- TILE_PHASE_TIME of a logical pod and a phase, its waiting cycles (R141). -/
def waitFld (n p h : Nat) : Fld := (TILE_PHASE_TIME_COUNT.ix (64 * p + 4 * h + 2)).tile n

/-- The fields in which a word's issue and its lateness are noted. -/
def NotedFld (n : Nat) (g : Fld) : Prop :=
  g ∈ [TILE_SEQ_LAST.tile n, TILE_SEQ_REFETCHES.tile n, TILE_STS_LATE_ISSUE.tile n] ∨ ∃ p h, p < 8 ∧ h < 16 ∧ g = waitFld n p h

/-- A field that shares no bit with those. -/
def ClearOf (n : Nat) (f : Fld) : Prop := f.lo + f.wd ≤ 64 ∧ ∀ g, NotedFld n g → apart f g = true

theorem apart_of_base {f g : Fld} (h : g.base ≠ f.base) : apart f g = true := by
  simp only [apart, Bool.or_eq_true, bne_iff_ne]
  exact .inl (.inl h)

/-- Where the registers of the noted fields lie. -/
theorem notedFld_base {n : Nat} {g : Fld} (h : NotedFld n g) : ∃ off, g.base = 0x14100000 + off + n / 10 * 0x1000000 + n % 10 * 0x40000 ∧
    (off = 0 ∨ off = 0x18 ∨ ∃ i, i < 512 ∧ i % 4 = 2 ∧ off = 0x1000 + 8 * i) := by
  rcases h with h | ⟨p, h, hp, hh, rfl⟩
  · simp only [List.mem_cons, List.not_mem_nil, or_false] at h
    rcases h with rfl | rfl | rfl
    · exact ⟨0x18, rfl, .inr (.inl rfl)⟩
    · exact ⟨0x18, rfl, .inr (.inl rfl)⟩
    · exact ⟨0, rfl, .inl rfl⟩
  · refine ⟨0x1000 + 8 * (64 * p + 4 * h + 2), ?_, .inr (.inr ⟨64 * p + 4 * h + 2, by omega, by omega, rfl⟩)⟩
    have e : (waitFld n p h).base = 0x14101000 + (64 * p + 4 * h + 2) * 8 + n / 10 * 0x1000000 + n % 10 * 0x40000 := rfl
    omega

/-- A register of the module or of the tile's own compute die is none of the tile's. -/
theorem clearOf_low {f : Fld} (n k : Nat) (hk : k = 0 ∨ k = n / 10) (hw : f.lo + f.wd ≤ 64) (h : f.base < 0x14000600) :
    ClearOf n (f.die k) := by
  refine ⟨die_width k hw, fun g hg => apart_of_base ?_⟩
  obtain ⟨off, hb, -⟩ := notedFld_base hg
  rw [die_base, hb]
  omega

theorem clearOf_die {f : Fld} (n : Nat) (hw : f.lo + f.wd ≤ 64) (h : f.base < 0x14000600) : ClearOf n (f.die (n / 10)) :=
  clearOf_low n _ (.inr rfl) hw h

theorem clearOf_module {f : Fld} (n : Nat) (hw : f.lo + f.wd ≤ 64) (h : f.base < 0x14000600) : ClearOf n f := by
  have e : f.die 0 = f := by
    cases f
    simp [Fld.die]
  exact e ▸ clearOf_low n 0 (.inl rfl) hw h

/-- A field of the tile in a register that holds none of the noted ones. -/
theorem clearOf_tile {f : Fld} (n : Nat) (hw : f.lo + f.wd ≤ 64)
    (h : f.base ≠ 0x14100000 ∧ f.base ≠ 0x14100018 ∧ (f.base < 0x14101000 ∨ 0x14102000 ≤ f.base)) : ClearOf n (f.tile n) := by
  refine ⟨hw, fun g hg => apart_of_base ?_⟩
  obtain ⟨off, hb, ho⟩ := notedFld_base hg
  rw [tile_base, hb]
  rcases ho with rfl | rfl | ⟨i, hi, -, rfl⟩ <;> omega

/-- Another bit of TILE_STS. -/
theorem clearOf_sts {f : Fld} (n : Nat) (h : f.base = 0x14100000 ∧ f.lo + f.wd ≤ 64 ∧ (f.lo + f.wd ≤ 3 ∨ 4 ≤ f.lo)) :
    ClearOf n (f.tile n) := by
  obtain ⟨hf, hw, hl⟩ := h
  refine ⟨hw, fun g hg => ?_⟩
  by_cases hb : g.base = (f.tile n).base
  · have hg' : g = TILE_STS_LATE_ISSUE.tile n := by
      have hoff := tile_base f n
      rcases hg with hg | ⟨p, h, hp, hh, rfl⟩
      · simp only [List.mem_cons, List.not_mem_nil, or_false] at hg
        rcases hg with rfl | rfl | rfl
        · have e := (tile_base_inj _ _ n).1 hb
          have e2 : TILE_SEQ_LAST.base = 0x14100018 := rfl
          omega
        · have e := (tile_base_inj _ _ n).1 hb
          have e2 : TILE_SEQ_REFETCHES.base = 0x14100018 := rfl
          omega
        · rfl
      · have e := (tile_base_inj _ _ n).1 hb
        have e2 : (TILE_PHASE_TIME_COUNT.ix (64 * p + 4 * h + 2)).base = 0x14101000 + (64 * p + 4 * h + 2) * 8 := rfl
        omega
    subst hg'
    have e1 : (TILE_STS_LATE_ISSUE.tile n).lo = 3 := rfl
    have e2 : (TILE_STS_LATE_ISSUE.tile n).wd = 1 := rfl
    have e3 : (f.tile n).lo = f.lo := rfl
    have e4 : (f.tile n).wd = f.wd := rfl
    simp only [apart, Bool.or_eq_true, decide_eq_true_eq, e1, e2, e3, e4]
    omega
  · exact apart_of_base hb

/-- Busy, padded and replaying cycles are no waiting cycles. -/
theorem clearOf_phase (n p h : Nat) {k : Nat} (hk : k = 0 ∨ k = 1 ∨ k = 3) :
    ClearOf n ((TILE_PHASE_TIME_COUNT.ix (64 * p + 4 * h + k)).tile n) := by
  refine ⟨(show 0 + 64 ≤ 64 from le_rfl), fun g hg => apart_of_base ?_⟩
  obtain ⟨off, hb, ho⟩ := notedFld_base hg
  have e : ((TILE_PHASE_TIME_COUNT.ix (64 * p + 4 * h + k)).tile n).base =
      0x14101000 + (64 * p + 4 * h + k) * 8 + n / 10 * 0x1000000 + n % 10 * 0x40000 := rfl
  rw [hb, e]
  rcases ho with rfl | rfl | ⟨i, -, hi, rfl⟩ <;> omega

theorem clearOf_page (n : Nat) : ClearOf n (FAULT_CNT_C_RAISED.pageOf (tilePage n)) := by
  have e : FAULT_CNT_C_RAISED.pageOf (tilePage n) = (⟨0x1413F010, 0, 24, 8⟩ : Fld).tile n := by
    unfold Fld.pageOf tilePage
    rw [if_neg (by omega), Nat.add_sub_cancel_left]
    rfl
  rw [e]
  exact clearOf_tile n (by decide) (by decide)

theorem notedFld_not_note {n : Nat} {g : Fld} (h : NotedFld n g) : g.base ∉ noteRegs := by
  have hlow : ∀ k ∈ noteRegs, k < 0x14100000 := by decide
  obtain ⟨off, hb, -⟩ := notedFld_base h
  intro hm
  have := hlow _ hm
  omega

/-! ### What a word leaves behind its issue -/

/-- What a word of a stream can touch after its issue. -/
abbrev wordParts : List Part := [.regs, .mem, .run, .job, .tiles, .attend, .fifos, .cap, .outbox]

/-- Class B of the running tick goes on standing. -/
structure MarksStand (s t : State) : Prop where
  sent : t.run.healthSent = s.run.healthSent
  fault : s.run.faultB = true → t.run.faultB = true
  late : s.run.lateB = true → t.run.lateB = true

theorem MarksStand.refl (s : State) : MarksStand s s := ⟨rfl, id, id⟩

theorem MarksStand.trans {s t u : State} (h : MarksStand s t) (g : MarksStand t u) : MarksStand s u :=
  ⟨g.sent.trans h.sent, fun x => g.fault (h.fault x), fun x => g.late (h.late x)⟩

theorem MarksStand.of_run {s t : State} (h : t.run = s.run) : MarksStand s t := ⟨by rw [h], by rw [h]; exact id, by rw [h]; exact id⟩

theorem MarksStand.raises {s t u : State} (h : MarksStand t u) (hs : t.run.healthSent = s.run.healthSent) (hr : RaisesB s t) :
    RaisesB s u := by
  unfold RaisesB at hr ⊢
  by_cases hh : s.run.healthSent = true
  · rw [if_pos hh] at hr ⊢
    exact h.late hr
  · rw [if_neg hh] at hr ⊢
    exact h.fault hr

/-- From the issue of a word on tile `n` on: what a word can touch, what its issue and its lateness noted standing. -/
structure Follows (n : Nat) (s t : State) : Prop where
  parts : OnlyParts wordParts s t
  keeps : Keeps s t
  seq : t.tiles.seqNext = s.tiles.seqNext
  flds : Inv s → ∀ g, NotedFld n g → t.fget g = s.fget g
  marks : MarksStand s t

section
variable {n : Nat} {s t u : State}

theorem Follows.refl (n : Nat) (s : State) : Follows n s s :=
  ⟨OnlyParts.refl _ s, Keeps.refl s, rfl, fun _ _ _ => rfl, .refl s⟩

theorem Follows.trans (h : Follows n s t) (g : Follows n t u) : Follows n s u :=
  ⟨h.parts.trans g.parts, h.keeps.trans g.keeps, g.seq.trans h.seq,
    fun i f hf => (g.flds (h.keeps.inv i) f hf).trans (h.flds i f hf), h.marks.trans g.marks⟩

theorem Follows.ite {a b : State} {c : Prop} [Decidable c] (ha : Follows n s a) (hb : Follows n s b) :
    Follows n s (if c then a else b) := by split <;> assumption

theorem Follows.foldl {α : Type} (f : State → α → State) (h : ∀ s a, Follows n s (f s a)) (l : List α) (s : State) :
    Follows n s (l.foldl f s) :=
  List.foldlRecOn l _ (.refl n s) (fun t ht a _ => ht.trans (h t a))

/-- A fold that counts beside the state. -/
theorem Follows.foldl_fst {α β : Type} (f : State × β → α → State × β) (h : ∀ x a, Follows n x.1 (f x a).1) (l : List α)
    (x : State × β) : Follows n x.1 (l.foldl f x).1 :=
  List.foldlRecOn l (motive := fun y => Follows n x.1 y.1) f (.refl n x.1) (fun y hy a _ => hy.trans (h y a))

/-- An operation that touches neither the tiles nor the registers nor the tick's record. -/
theorem Follows.of_parts {ps : List Part} (h : OnlyParts ps s t) (hk : Keeps s t)
    (hps : ps ⊆ wordParts ∧ .regs ∉ ps ∧ .tiles ∉ ps ∧ .run ∉ ps) : Follows n s t :=
  ⟨h.mono hps.1, hk, congrArg Tiles.seqNext (h .tiles hps.2.2.1), fun _ g _ => fget_congr (h .regs hps.2.1) g,
    .of_run (h .run hps.2.2.2)⟩

/-- An operation on registers that leaves the noted fields. -/
theorem Follows.of_regs {ps : List Part} (h : OnlyParts ps s t) (hk : Keeps s t) (hm : MarksStand s t)
    (hr : Inv s → ∀ g, NotedFld n g → t.fget g = s.fget g) (hps : ps ⊆ wordParts ∧ .tiles ∉ ps) : Follows n s t :=
  ⟨h.mono hps.1, hk, congrArg Tiles.seqNext (h .tiles hps.2), hr, hm⟩

end

section
variable (n : Nat) (s : State)

theorem follows_withTiles (f : Tiles → Tiles) (hk : Keeps s (s.withTiles f)) (h : (f s.tiles).seqNext = s.tiles.seqNext) :
    Follows n s (s.withTiles f) :=
  ⟨(withTiles_onlyParts s f).mono (by decide), hk, h, fun _ _ _ => rfl, .of_run rfl⟩

theorem tilesWf_accHist {t : Tiles} (h : TilesWf t) (k : Nat) (x : AccHist) :
    TilesWf { t with accHist := tabPut (fun _ => {}) t.accHist k x } := by
  obtain ⟨h1, h2, h3, h4, h5, h6, h7, h8, h9⟩ := h
  exact ⟨h1, h2, h3, h4, h5, h6, h7, tabWf_tabPut _ _ _ _ h8, h9⟩

theorem follows_withRun (f : TickRun → TickRun) (h : MarksStand s (s.withRun f)) : Follows n s (s.withRun f) :=
  .of_regs (withRun_onlyParts s f) (withRun_keeps s f (Keeps.refl s)) h (fun _ _ _ => rfl) (by decide)

theorem follows_fset (f : Fld) (x : Nat) (h : ClearOf n f) : Follows n s (s.fset f x) :=
  .of_regs (fset_onlyParts s f x) (fset_keeps f x (Keeps.refl s)) (.of_run rfl)
    (fun i g hg => fget_fset_apart s f g x i.1.1 h.1 (h.2 g hg)) (by decide)

theorem follows_fadd (f : Fld) (x : Nat) (h : ClearOf n f) : Follows n s (s.fadd f x) := follows_fset n s f _ h

theorem follows_setSts (p : Nat) (f : Fld) (h : ClearOf n f) : Follows n s (s.setSts p f) :=
  .of_regs (setSts_onlyParts s p f) (setSts_keeps s p f (Keeps.refl s)) (.of_run ((setSts_onlyParts s p f) .run (by decide)))
    (fun i g hg => fget_setSts_apart s p f g i.1.1 h.1 (h.2 g hg)) (by decide)

theorem follows_fsetAll (l : List (Fld × Nat)) (h : ∀ p ∈ l, ClearOf n p.1) : Follows n s (s.fsetAll l) := by
  induction l generalizing s with
  | nil => exact .refl n s
  | cons p l ih =>
    obtain ⟨f, x⟩ := p
    exact (follows_fset n s f x (h _ (.head _))).trans (ih (s.fset f x) (fun q m => h q (.tail _ m)))

theorem follows_record (v : Fld) (l : List (Fld × Nat)) (hv : ClearOf n v) (hl : ∀ p ∈ l, ClearOf n p.1) :
    Follows n s (s.record v l) :=
  .ite (.refl n s) ((follows_fsetAll n s l hl).trans (follows_fset n _ v 1 hv))

theorem follows_setNonfinite (p : Nat) : Follows n s (s.setNonfinite p) := by
  unfold State.setNonfinite
  refine .ite (.refl n s) (((follows_withRun n s (fun r => { r with nonfinite := true }) ⟨rfl, id, id⟩).trans
    (follows_record n _ _ _ (clearOf_module n (by decide) (by decide)) ?_)).trans
    (follows_setSts n _ _ _ (clearOf_module n (by decide) (by decide))))
  simp only [List.forall_mem_cons]
  exact ⟨clearOf_module n (by decide) (by decide), clearOf_module n (by decide) (by decide),
    clearOf_module n (by decide) (by decide), clearOf_module n (by decide) (by decide), fun q m => nomatch m⟩

/-- Notes touch registers of the hull alone. -/
theorem follows_noted {ps : List Part} {t : State} (h : OnlyParts ps s t) (hk : Keeps s t) (hr : OnlyRegs noteRegs s t)
    (hps : ps ⊆ wordParts ∧ .tiles ∉ ps ∧ .run ∉ ps) : Follows n s t :=
  .of_regs h hk (.of_run (h .run hps.2.2)) (fun _ g hg => hr.fget g (notedFld_not_note hg)) ⟨hps.1, hps.2.1⟩

theorem follows_capFault (c : Nat) : Follows n s (s.capFault c) :=
  follows_noted n s (capFault_onlyParts s c) (capFault_keeps s c (Keeps.refl s)) (only_capFault s c (fun _ m => m)) (by decide)

theorem follows_traceAB (c p : Nat) (f : Fld) : Follows n s (s.traceAB c p f) :=
  follows_noted n s (traceAB_onlyParts s c p f) (traceAB_keeps s c p f (Keeps.refl s)) (only_traceAB s c p f (fun _ m => m)) (by decide)

theorem follows_event (typ ctx : Nat) (l : List Nat) : Follows n s (s.event typ ctx l) :=
  follows_noted n s (event_onlyParts s typ ctx l) (event_keeps s typ ctx l (Keeps.refl s)) (only_event s typ ctx l (fun _ m => m))
    (by decide)

theorem follows_markB : Follows n s s.markB :=
  .ite (follows_withRun n s _ ⟨rfl, id, fun _ => rfl⟩) (follows_withRun n s _ ⟨rfl, fun _ => rfl, id⟩)

theorem follows_markC : Follows n s s.markC :=
  .ite (follows_withRun n s _ ⟨rfl, id, id⟩) (follows_withRun n s _ ⟨rfl, id, id⟩)

theorem follows_classB : Follows n s s.classB := (follows_markB n s).trans (follows_capFault n _ 1)

theorem follows_classBSts (p : Nat) (f : Fld) (h : ClearOf n f) : Follows n s (s.classBSts p f) :=
  ((follows_setSts n s p f h).trans (follows_traceAB n _ ..)).trans (follows_classB n _)

theorem attendStart_onlyParts (p : Nat) (f : Fld) (cause fifo : Nat) : OnlyParts [.attend] s (s.attendStart p f cause fifo) := by
  intro q hq
  cases q <;> simp [Part.Same] at hq ⊢

theorem follows_attendStart (p : Nat) (f : Fld) (cause fifo : Nat) : Follows n s (s.attendStart p f cause fifo) :=
  .of_parts (attendStart_onlyParts s p f cause fifo) (attendStart_keeps s p f cause fifo (Keeps.refl s)) (by decide)

theorem follows_classC (f : Fld) (h : ClearOf n f) : Follows n s (s.classC (tilePage n) f) :=
  (((((follows_setSts n s _ f h).trans (follows_event n _ ..)).trans (follows_attendStart n _ ..)).trans (follows_markC n _)).trans
    (follows_fadd n _ _ 1 (clearOf_page n))).trans (follows_capFault n _ 2)

/-! ### Memory and operand lines -/

theorem wrN_onlyParts (k a v : Nat) : OnlyParts [.mem] s (s.wrN a k v) := by
  rw [wrN_other]
  intro p hp
  cases p <;> simp [Part.Same] at hp ⊢

theorem wr8_onlyParts (a : Nat) (v : Byte) : OnlyParts [.mem] s (s.wr8 a v) := by
  intro p hp
  cases p <;> simp [Part.Same] at hp ⊢

theorem zero_onlyParts (a b : Nat) : OnlyParts [.mem] s (s.zero a b) := by
  intro p hp
  cases p <;> simp [Part.Same] at hp ⊢

theorem follows_wrN (k a v : Nat) : Follows n s (s.wrN a k v) :=
  .of_parts (wrN_onlyParts s k a v) (wrN_keeps k a v (Keeps.refl s)) (by decide)

theorem follows_setOpBits (m l lo wd v tag x : Nat) : Follows n s (s.setOpBits m l lo wd v tag x) :=
  follows_withTiles n s _ (setOpBits_keeps s m l lo wd v tag x (Keeps.refl s)) rfl

theorem follows_wrEl (m : Nat) (sram : Bool) (a wd tag i v x : Nat) : Follows n s (s.wrEl m sram a wd tag i v x) :=
  .ite (follows_setOpBits ..) (follows_wrN ..)

theorem follows_wrote (lo k x : Nat) : Follows n s (s.wrote lo k x) :=
  follows_withTiles n s _ (wrote_keeps s lo k x (Keeps.refl s)) rfl

theorem follows_memSpan (sram : Bool) (a wd e last : Nat) (lim : Option Nat) : Follows n s (s.memSpan sram a wd e last lim) :=
  .ite (.refl n s) (follows_wrote ..)

theorem follows_setAccEl (m a i j v x : Nat) : Follows n s (s.setAccEl m a i j v x) := by
  have hk := setAccEl_keeps s m a i j v x (Keeps.refl s)
  unfold State.setAccEl at hk ⊢
  exact follows_withTiles n s _ hk rfl

theorem follows_accMarkBit (m a b : Nat) (v : Bool) : Follows n s (s.accMarkBit m a b v) := by
  have hk := accMarkBit_keeps s m a b v (Keeps.refl s)
  unfold State.accMarkBit State.setAccMark at hk ⊢
  exact follows_withTiles n s _ hk rfl

theorem follows_accSweep : Follows n s s.accSweep := follows_withTiles n s _ (accSweep_keeps s (Keeps.refl s)) rfl

theorem follows_takeOff (f : Flight) : Follows n s (s.takeOff f) :=
  follows_withTiles n s _ (takeOff_keeps s f (Keeps.refl s)) rfl

theorem follows_item (w done fence : Nat) : Follows n s (s.item w done fence) := follows_withRun n s _ ⟨rfl, id, id⟩

theorem copyBytes_onlyParts (src dst : Nat) : ∀ k, OnlyParts [.mem] s (s.copyBytes src dst k) := by
  intro k
  induction k generalizing s src dst with
  | zero => exact OnlyParts.refl _ s
  | succ k ih => exact (wr8_onlyParts s dst _).trans (ih _ _ _)

/-! ### Counters and events -/

theorem follows_fmtShare (src f h e amount : Nat) : Follows n s (s.fmtShare n src f h e amount) := by
  refine .ite (.refl n s) (follows_fadd n s _ _ (clearOf_tile n (show 0 + 64 ≤ 64 from le_rfl) ?_))
  have e1 : (TILE_FMT_SHARE_COUNT.ix (1024 * src + 128 * f + 8 * h + e)).base = 0x14102000 + (1024 * src + 128 * f + 8 * h + e) * 8 := rfl
  omega

theorem follows_phaseTime (p h : Nat) {k : Nat} (amount : Nat) (hk : k = 0 ∨ k = 1 ∨ k = 3) : Follows n s (s.phaseTime n p h k amount) :=
  follows_fadd n s _ _ (clearOf_phase n p h hk)

theorem follows_veEvents (h : Nat) (c : EvCnt) : Follows n s (s.veEvents n h c) := by
  unfold State.veEvents
  extract_lets s1 s2 s3 s4 s5 s6
  have h6 : Follows n s s6 := (((((follows_fmtShare n s ..).trans (follows_fmtShare n s1 ..)).trans (follows_fmtShare n s2 ..)).trans
    (follows_fmtShare n s3 ..)).trans (follows_fmtShare n s4 ..)).trans (follows_fmtShare n s5 ..)
  exact .ite h6 (h6.trans (follows_setNonfinite n s6 _))

theorem follows_convEvents (f h : Nat) (c : EvCnt) : Follows n s (s.convEvents n f h c) := by
  unfold State.convEvents
  extract_lets s1 s2 s3 s4 s5 s6
  have h6 : Follows n s s6 := (((((follows_fmtShare n s ..).trans (follows_fmtShare n s1 ..)).trans (follows_fmtShare n s2 ..)).trans
    (follows_fmtShare n s3 ..)).trans (follows_fmtShare n s4 ..)).trans (follows_fmtShare n s5 ..)
  exact .ite h6 (h6.trans (follows_setNonfinite n s6 _))

theorem follows_excFirst (lpod acc seq block cause : Nat) : Follows n s (s.excFirst n lpod acc seq block cause) := by
  have hf {f : Fld} (h : f.base = 0x14100010 ∧ f.lo + f.wd ≤ 64) : ClearOf n (f.tile n) := clearOf_tile n h.2 (by omega)
  refine follows_record n s _ _ (hf (by decide)) ?_
  simp only [List.forall_mem_cons]
  exact ⟨hf (by decide), hf (by decide), hf (by decide), hf (by decide),
    hf (by decide), hf (by decide), hf (by decide), fun q m => nomatch m⟩

theorem follows_tagInvalid (a lpod f h seq block cause : Nat) : Follows n s (s.tagInvalid n a lpod f h seq block cause) :=
  ((((follows_accMarkBit n s ..).trans (follows_fmtShare n _ ..)).trans (follows_setSts n _ _ _ (clearOf_sts n (by decide)))).trans
    (follows_excFirst n _ ..)).trans (follows_setNonfinite n _ _)

theorem follows_streamFaultAt (w : Word256) (seq : Nat) : Follows n s (s.streamFaultAt n w seq) :=
  (follows_tagInvalid n s ..).trans (follows_classC n _ _ (clearOf_sts n (by decide)))

theorem follows_streamFault (w : Word256) : Follows n s (s.streamFault n w) := follows_streamFaultAt n s w _

/-- The first event of a kind on the tile's die, its count and its status. -/
theorem follows_dieEvent (v c g : Fld) (l : List (Fld × Nat)) (hl : ∀ p ∈ l, ClearOf n p.1)
    (h : ∀ f ∈ [v, c, g], f.lo + f.wd ≤ 64 ∧ f.base < 0x14000600) :
    Follows n s (((s.record (v.die (n / 10)) l).fadd (c.die (n / 10)) 1).setSts (20 + n / 10) (g.die (n / 10))) :=
  have hd : ∀ f ∈ [v, c, g], ClearOf n (f.die (n / 10)) := fun f m => clearOf_die n (h f m).1 (h f m).2
  ((follows_record n s _ _ (hd v (by simp)) hl).trans (follows_fadd n _ _ _ (hd c (by simp)))).trans
    (follows_setSts n _ _ _ (hd g (by simp)))

theorem follows_statEvent (tensor elem bits : Nat) (sat : Bool) : Follows n s (s.statEvent n tensor elem bits sat) := by
  unfold State.statEvent
  extract_lets d
  split
  · exact .refl n s
  · have hl (cause : Nat) : ∀ p ∈ [(CD_STAT_FIRST_TENSOR.die d, tensor), (CD_STAT_FIRST_ELEMENT.die d, elem),
        (CD_STAT_FIRST_CAUSE.die d, cause)], ClearOf n p.1 := by
      simp only [List.forall_mem_cons]
      exact ⟨clearOf_die n (by decide) (by decide), clearOf_die n (by decide) (by decide), clearOf_die n (by decide) (by decide), fun q m => nomatch m⟩
    exact .ite (follows_dieEvent n s _ _ _ _ (hl _) (by decide))
      ((follows_dieEvent n s _ _ _ _ (hl _) (by decide)).trans (follows_setNonfinite n _ _))

theorem follows_updEvent (tensor elem role : Nat) (v : FVal) (sat : Bool) : Follows n s (s.updEvent n tensor elem role v sat) := by
  unfold State.updEvent
  extract_lets d
  split
  · exact .refl n s
  · have hl (cause : Nat) : ∀ p ∈ [(CD_UPD_FIRST_TENSOR.die d, tensor), (CD_UPD_FIRST_ELEMENT.die d, elem),
        (CD_UPD_FIRST_CAUSE.die d, cause), (CD_UPD_FIRST_ROLE.die d, role)], ClearOf n p.1 := by
      simp only [List.forall_mem_cons]
      exact ⟨clearOf_die n (by decide) (by decide), clearOf_die n (by decide) (by decide), clearOf_die n (by decide) (by decide), clearOf_die n (by decide) (by decide),
        fun q m => nomatch m⟩
    exact .ite (follows_dieEvent n s _ _ _ _ (hl _) (by decide))
      ((follows_dieEvent n s _ _ _ _ (hl _) (by decide)).trans (follows_setNonfinite n _ _))

end

end Sys2Proof.Laws
end

section
/-! PROOFS. Every word of a tile's stream: its issue, and what it does behind it. -/

namespace Sys2Proof.Laws

open Sys2Proof.Machine Sys2Proof.Safety

section
variable (n : Nat) (s : State) (w : Word256) (c : Nat) (lim : Option Nat)

/-! ### Pods -/

theorem follows_podTime (stream : Bool) (occ : Nat) : Follows n s (s.podTime stream n w occ) := by
  unfold State.podTime
  extract_lets pad
  exact .ite (follows_phaseTime n s _ _ _ (by decide)) ((follows_phaseTime n s _ _ _ (by decide)).trans
    (follows_phaseTime n _ _ _ _ (by decide)))

theorem follows_podTiming (stream : Bool) : Follows n s (s.podTiming stream n w c) := by
  have hk := podTiming_keeps s stream n w c (Keeps.refl s)
  unfold State.podTiming
  refine follows_withTiles n s _ ?_ rfl
  exact hk

theorem follows_accTiming (stream : Bool) : Follows n s (s.accTiming stream n w c) := by
  have hk := accTiming_keeps s stream n w c (Keeps.refl s)
  unfold State.accTiming
  refine follows_withTiles n s _ ?_ rfl
  exact hk

theorem follows_podMarks (q : Nat) : Follows n s (s.podMarks n w q) := by
  unfold State.podMarks
  extract_lets a s1 h
  have h1 : Follows n s s1 := (Follows.ite (follows_accMarkBit n s ..) (.refl n s)).trans (follows_accMarkBit n _ ..)
  exact .ite (.refl n s) (h1.trans (follows_withTiles n s1 _
    (withTiles_keeps (fun _ ht => tilesWf_accHist ht ..) (Keeps.refl s1)) rfl))

/-- A pod instruction behind its issue, as it starts or is answered otherwise. -/
theorem follows_podRun (stream : Bool) : Follows n (s.issue n w c) (s.podRun stream n w c lim) := by
  unfold State.podRun
  extract_lets usable done s1 s2 s3 fault s4 q
  have h3 : Follows n s1 s3 := (follows_podTime n s1 ..).trans (follows_item n s2 ..)
  have h4 : Follows n s1 s4 := h3.trans (follows_podTiming n s3 ..)
  refine .ite (h4.trans ?_) (.ite (h4.trans (follows_streamFault n s4 w)) (.ite (h4.trans ?_) (.ite (h4.trans ?_) (h4.trans ?_))))
  · exact (follows_fadd n s4 _ _ (clearOf_tile n (by decide) (by decide))).trans (follows_classB n _)
  · exact (follows_tagInvalid n s4 ..).trans (follows_classC n _ _ (clearOf_sts n (by decide)))
  · exact (follows_tagInvalid n s4 ..).trans (follows_classBSts n _ _ _ (clearOf_sts n (by decide)))
  · exact ((follows_accTiming n s4 ..).trans (follows_podMarks n _ ..)).trans (follows_takeOff n _ _)

/-! ### Transfers -/

theorem follows_veBegin (latency occ : Nat) : Follows n (s.issue n w c) (s.veBegin n w c latency occ lim) := follows_item n _ ..

theorem follows_veLoad : Follows n (s.issue n w c) (s.veLoad n w c lim) := by
  unfold State.veLoad
  extract_lets lines l0 s1
  have h1 : Follows n (s.issue n w c) s1 := follows_veBegin ..
  exact .ite (h1.trans (follows_streamFault n s1 w)) (h1.trans (.foldl _ (fun t i => follows_setOpBits ..) _ _))

theorem follows_veReadout : Follows n (s.issue n w c) (s.veReadout n w c lim) := by
  unfold State.veReadout
  extract_lets rows pair sram line f wd s1 fs el r t nans
  have h1 : Follows n (s.issue n w c) s1 := follows_veBegin ..
  have hr : Follows n s1 r.1 := by
    refine Follows.foldl_fst _ (fun x i => ?_) rows (s1, _)
    exact Follows.foldl_fst _ (fun y j => follows_wrEl ..) _ x
  have ht : Follows n s1 t := hr.trans (follows_memSpan ..)
  exact .ite (h1.trans (follows_streamFault n s1 w)) (h1.trans (.ite (ht.trans (follows_fmtShare ..)) (ht.trans (follows_convEvents ..))))

theorem follows_accFill (a x : Nat) (src : Nat → Nat) : Follows n s (s.accFill n a x src) :=
  .foldl _ (fun t _ => .foldl _ (fun _ _ => follows_setAccEl ..) _ t) _ s

theorem follows_landChain (f : Flight) (content : List Word32) (tagged : Bool) (hf : f.tile = n) :
    Follows n s (s.landChain f content tagged) := by
  subst hf
  unfold State.landChain
  extract_lets m a s1 h
  have h1 : Follows f.tile s s1 := (follows_accFill ..).trans (follows_accMarkBit ..)
  clear_value s1
  exact .ite (follows_streamFaultAt ..) (h1.trans ((follows_accMarkBit ..).trans
    (follows_withTiles f.tile (s1.accMarkBit f.tile a 2 true) _
      (withTiles_keeps (fun _ ht => tilesWf_accHist ht ..) (Keeps.refl _)) rfl)))

theorem follows_flightLanded (f : Flight) :
    Follows n s (s.withTiles (fun t => { t with flights := t.flights.filter (fun q => q != f) })) :=
  follows_withTiles n s _ (withTiles_keeps (fun _ ht => ht) (Keeps.refl s)) rfl

theorem follows_land {f : Flight} (content : List Word32) (tagged : Bool) (hf : f.tile = n)
    (hk : f.kind = .chain content tagged) : Follows n s (s.land f) := by
  have e : s.land f = ((s.withTiles (fun t => { t with flights := t.flights.filter (fun q => q != f) })).landChain f content
      tagged).accSweep := by
    unfold State.land
    rw [hk]
  rw [e]
  exact ((follows_flightLanded n s f).trans (follows_landChain n _ f content tagged hf)).trans (follows_accSweep ..)

theorem follows_veChain (arrival : List Word32) : Follows n (s.issue n w c) (s.veChain n w c arrival lim) := by
  unfold State.veChain
  extract_lets kind src sacc lat s1 content f
  have h1 : Follows n (s.issue n w c) s1 := follows_veBegin ..
  clear_value content
  have hland : Follows n s1 (s1.land f) := follows_land n s1 content _ rfl rfl
  have hoff : Follows n s1 (s1.takeOff f) := follows_takeOff n s1 f
  clear_value f
  exact .ite (h1.trans (follows_streamFault n s1 w)) (.ite (.ite (h1.trans hland) (h1.trans hoff)) h1)

/-! ### Vector words -/

theorem follows_veConvert (loc : VeLoc) (scales : Nat) (iota : Word32) :
    Follows n (s.issue n w c) (s.veConvert n w c loc scales iota lim) := by
  unfold State.veConvert
  extract_lets src dst useNu useIota e lat s1 a nu io r t
  have h1 : Follows n (s.issue n w c) s1 := follows_veBegin ..
  have hr : Follows n s1 r.1 := .foldl_fst _ (fun x i => follows_wrEl ..) _ (s1, _)
  have ht : Follows n s1 t := hr.trans (follows_memSpan ..)
  exact .ite (h1.trans (follows_streamFault n s1 w)) (h1.trans ((ht.trans (follows_convEvents ..)).trans (follows_veEvents ..)))

theorem follows_veScale (loc : VeLoc) : Follows n (s.issue n w c) (s.veScale n w c loc lim) := by
  unfold State.veScale
  extract_lets blocks s1 a
  have h1 : Follows n (s.issue n w c) s1 := follows_veBegin ..
  exact .ite (h1.trans (follows_streamFault n s1 w)) (h1.trans ((Follows.foldl _ (fun t b => follows_wrEl ..) _ s1).trans
    (follows_memSpan ..)))

theorem follows_redTarget (p : RedPlanImg) (i v x : Nat) : Follows n s (s.redTarget p i v x) :=
  .ite (follows_setAccEl ..) (follows_wrN ..)

theorem follows_veTree (elems : Nat) : Follows n (s.issue n w c) (s.veTree n w c elems lim) := by
  unfold State.veTree
  split
  · exact follows_streamFault n _ w
  · extract_lets parts np lat t s1 r
    have h1 : Follows n (s.issue n w c) s1 := follows_veBegin ..
    have hr : Follows n s1 r.1 := .foldl_fst _ (fun x i => follows_redTarget ..) _ (s1, _)
    exact .ite (follows_streamFault n _ w) (.ite (follows_item ..) (h1.trans ((hr.trans (follows_memSpan ..)).trans (follows_veEvents ..))))

theorem follows_veSumsq (loc : VeLoc) (bucket : Bool) : Follows n (s.issue n w c) (s.veSumsq n w c loc bucket lim) := by
  unfold State.veSumsq
  extract_lets e square last plan s1 xs t
  have h1 : Follows n (s.issue n w c) s1 := follows_veBegin ..
  exact .ite (h1.trans (follows_streamFault n s1 w)) (.ite (h1.trans (((follows_wrEl n s1 ..).trans (follows_memSpan ..)).trans
    (follows_veEvents ..))) h1)

theorem follows_beginBucket (dest tensor words : Nat) : Follows n s (s.beginBucket dest tensor words) :=
  .ite (.refl n s) ((Follows.of_parts (zero_onlyParts s _ _) (zero_keeps _ _ (Keeps.refl s)) (by decide)).trans
    (follows_withRun n _ _ ⟨rfl, id, id⟩))

theorem follows_veLookup (dest : Nat) : Follows n (s.issue n w c) (s.veLookup n w c dest lim) := by
  unfold State.veLookup
  extract_lets tokens s1
  have h1 : Follows n (s.issue n w c) s1 := follows_veBegin ..
  split
  · exact h1.trans (follows_streamFault n s1 w)
  · extract_lets wb s2 r
    have h2 : Follows n s1 s2 := follows_beginBucket ..
    have hr : Follows n s2 r.1 := .foldl_fst _ (fun x k => by
      extract_lets id
      split
      · exact .foldl_fst _ (fun y j => follows_wrN ..) _ x
      · exact .refl n x.1) _ (s2, _)
    exact .ite (h1.trans (follows_streamFault n s1 w)) (h1.trans (h2.trans ((hr.trans (follows_memSpan ..)).trans (follows_veEvents ..))))

theorem follows_veRowcol (rDst cDst : Nat) : Follows n (s.issue n w c) (s.veRowcol n w c rDst cDst lim) := by
  unfold State.veRowcol
  split
  · exact follows_streamFault n _ w
  · extract_lets wb m doR doC s1 q row col rows r1 r2 last t1
    have h1 : Follows n (s.issue n w c) s1 := follows_veBegin ..
    have hr1 : Follows n s1 r1.1 := by
      simp only [r1]
      split
      · exact .foldl_fst row (fun x i => follows_wrN ..) _ (s1, _)
      · exact .refl n s1
    have hr2 : Follows n s1 r2.1 := by
      simp only [r2]
      split
      · exact hr1.trans (.foldl_fst col (fun x i => follows_wrN ..) _ r1)
      · exact hr1
    have ht : Follows n s1 t1 := .ite (hr2.trans (follows_memSpan ..)) hr2
    exact .ite (h1.trans (follows_streamFault n s1 w)) (h1.trans ((Follows.ite (ht.trans (follows_memSpan ..)) ht).trans (follows_veEvents ..)))

/-! ### State -/

theorem follows_copyEvents (t : TensorEnt) (i : Nat) : Follows n s (s.copyEvents n t i) := by
  unfold State.copyEvents
  extract_lets p b g0 gidx
  exact .ite (.refl n s) (.foldl _ (fun u k => follows_statEvent ..) _ s)

theorem follows_veCopy : Follows n (s.issue n w c) (s.veCopy n w c lim) := by
  unfold State.veCopy
  extract_lets rows
  split
  · exact follows_streamFault n _ w
  · extract_lets i0 gran s1
    have h1 : Follows n (s.issue n w c) s1 := follows_veBegin ..
    exact h1.trans (.foldl _ (fun t i => (Follows.of_parts (copyBytes_onlyParts t _ _ _)
      (copyBytes_keeps _ t _ _ (Keeps.refl t)) (by decide)).trans (follows_copyEvents ..)) _ s1)

theorem follows_decayEl (t : TensorEnt) (kappa : Nat) (copied : Bool) (off gidx x : Nat) (ev : EvCnt) :
    Follows n s (s.decayEl n t kappa copied off gidx x ev).1 := by
  unfold State.decayEl
  extract_lets sv r
  split
  · exact (follows_wrN ..).trans (follows_statEvent ..)
  · exact (follows_wrN ..).trans (follows_statEvent ..)

theorem follows_veDecay : Follows n (s.issue n w c) (s.veDecay n w c lim) := by
  unfold State.veDecay
  split
  · exact follows_streamFault n _ w
  · extract_lets k may s1 lim' g0 r b side nb base s2 g1 before r2
    have h1 : Follows n (s.issue n w c) s1 := follows_veBegin ..
    have hr : Follows n s1 r.1 := by
      refine Follows.foldl_fst _ (fun x i => ?_) _ (s1, _)
      exact follows_decayEl ..
    have h2 : Follows n (s.issue n w c) s2 := follows_veBegin ..
    have hr2 : Follows n s2 r2.1 := .foldl_fst _ (fun x i => .foldl_fst _ (fun y i2 => by
      extract_lets cp o
      have ho : Follows n y.1 o.1 := follows_decayEl ..
      split
      · exact ho
      · exact ho.trans ((follows_wrN ..).trans (follows_statEvent ..))) _ x) _ (s2, _)
    exact .ite (h1.trans (hr.trans (follows_veEvents ..))) (h2.trans (hr2.trans (follows_veEvents ..)))

theorem follows_setLag (tensor : Nat) (b : Bool) (e : LagEnt) : Follows n s (s.setLag tensor b e) :=
  .of_parts (withJob_onlyParts s _) (setLag_keeps s tensor b e (Keeps.refl s)) (by decide)

theorem follows_parkBucket (t : TensorEnt) (bucket slot : Nat) : Follows n s (s.parkBucket t bucket slot) := follows_setLag n s ..

theorem follows_freeSlot (slot : Nat) : Follows n s (s.freeSlot slot) := follows_withRun n s _ ⟨rfl, id, id⟩

theorem follows_countUpdate : Follows n s s.countUpdate := .ite (.refl n s) (follows_withRun n s _ ⟨rfl, id, id⟩)

theorem follows_countIdentity (f : ImageFile) (t : TensorEnt) (rs : RuleSet) (bucket : Nat) :
    Follows n s (s.countIdentity n f t rs bucket) := by
  unfold State.countIdentity
  extract_lets lRole rRole right left
  exact .ite (.ite (.refl n s) ((follows_fadd n s _ _ (clearOf_die n (by decide) (by decide))).trans
    (follows_setSts n _ _ _ (clearOf_die n (by decide) (by decide))))) (.refl n s)

theorem follows_updElem (x : UpdCtx) (sets : List UpdSet) (i j : Nat) : Follows n s (s.updElem n w x sets i j) := by
  unfold State.updElem
  extract_lets gidx wbytes mbytes e s1 s2 s3 s4 s5
  have h2 : Follows n s s2 := by
    have h1 : Follows n s s1 := follows_wrN ..
    simp only [s2]
    split
    · exact h1.trans (follows_wrN ..)
    · exact h1
  have h3 : Follows n s s3 := h2.trans (follows_updEvent ..)
  have h4 : Follows n s s4 := by
    simp only [s4]
    split
    · exact h3.trans (follows_updEvent ..)
    · exact h3
  have h5 : Follows n s s5 := h4.trans (follows_convEvents ..)
  exact .ite h2 ((Follows.ite (h5.trans (follows_convEvents ..)) h5).trans (follows_veEvents ..))

theorem follows_veUpdate (aux : List UpdAux) : Follows n (s.issue n w c) (s.veUpdate n w c aux lim) := by
  unfold State.veUpdate
  split
  · exact follows_streamFault n _ w
  · extract_lets rs wb rate lat occ s1 whole x sets s2 s3 s4
    have h1 : Follows n (s.issue n w c) s1 := follows_veBegin ..
    have h2 : Follows n s1 s2 := follows_countIdentity ..
    have h3 : Follows n s2 s3 := .foldl _ (fun t st => by
      refine Follows.trans (.ite ?_ (.refl n t)) (follows_veEvents ..)
      exact (follows_fadd n t _ _ (clearOf_die n (by decide) (by decide))).trans (follows_setSts n _ _ _ (clearOf_die n (by decide) (by decide)))) _ s2
    have h4 : Follows n s3 s4 := .foldl _ (fun t i => .foldl _ (fun u j => follows_updElem ..) _ t) _ s3
    have hs : Follows n (s.issue n w c) s4 := ((h1.trans h2).trans h3).trans h4
    exact .ite h1 (.ite (.ite (((h1.trans (follows_parkBucket ..)).trans (follows_freeSlot ..)).trans (follows_countUpdate ..)) h1)
      (.ite ((hs.trans (follows_freeSlot ..)).trans (follows_countUpdate ..)) hs))

theorem follows_veEwise (loc : VeLoc) : Follows n (s.issue n w c) (s.veEwise n w c loc lim) := by
  unfold State.veEwise
  extract_lets fn dst e slow rate lat s1 a b r
  have h1 : Follows n (s.issue n w c) s1 := follows_veBegin ..
  have hr : Follows n s1 r.1 := by
    refine Follows.foldl_fst _ (fun x i => ?_) _ (s1, _)
    extract_lets k y
    exact follows_wrEl n x.1 n true dst 32 (wFmt w) i _ _
  exact .ite (h1.trans (follows_streamFault n s1 w)) (h1.trans (hr.trans (follows_veEvents ..)))

theorem follows_veEnd : Follows n (s.issue n w c) (s.veEnd n w c) := follows_withTiles n _ _ (withTiles_keeps (fun _ ht => ht) (Keeps.refl _)) rfl

end

end Sys2Proof.Laws
end

section
/-! PROOFS. The issue of a stream word (R113), and the words of a stream as commands. -/

namespace Sys2Proof.Laws

open Sys2Proof.Machine Sys2Proof.Safety

/-! ### The issue -/

/-- What an issue leaves: the clock, the tile's sequence, and TILE_SEQ.LAST. -/
structure Issued (s : State) (n : Nat) (w : Word256) (c : Nat) (t : State) : Prop where
  now : t.now = max s.now c
  seqNext : t.seqNext n = max (s.seqNext n) (s.seqOf n w + 1)
  last : t.fget (TILE_SEQ_LAST.tile n) = s.seqOf n w % 2 ^ 32
  parts : OnlyParts [.now, .regs, .tiles] s t
  regs : OnlyRegs [seqKey n] s t

theorem issue_onlyParts (s : State) (n : Nat) (w : Word256) (c : Nat) : OnlyParts [.now, .regs, .tiles] s (s.issue n w c) :=
  (((advance_onlyParts s c).mono (by decide)).then (fset_onlyParts _ _ _) (by decide)).then (withTiles_onlyParts _ _) (by decide)

theorem issue_tiles (s : State) (n : Nat) (w : Word256) (c : Nat) : (s.issue n w c).tiles =
    { s.tiles with seqNext := tabPut (fun _ => 0) s.tiles.seqNext n (max (s.seqNext n) (s.seqOf n w + 1)) } := rfl

theorem issue_issued (s : State) (n : Nat) (w : Word256) (c : Nat) (h : Inv s) : Issued s n w c (s.issue n w c) := by
  obtain ⟨hregs, -, -, -, -, -, -, hseq, -⟩ := h.1
  refine ⟨rfl, tabGet_put _ _ _ _ hseq, ?_, issue_onlyParts s n w c, ?_⟩
  · exact fget_fset_same (s.advance c) (TILE_SEQ_LAST.tile n) (s.seqOf n w) hregs (by simp [Fld.tile, TILE_SEQ_LAST])
  · exact fun k hk => regGet_regPut_ne (s.advance c) _ k _ (fun e => hk (by rw [e]; exact List.mem_singleton.2 rfl))

/-- A word that follows its issue keeps what the issue left. -/
theorem Issued.follows {s t u : State} {n : Nat} {w : Word256} {c : Nat} (h : Issued s n w c t) (hi : Inv t) (g : Follows n t u) :
    u.now = max s.now c ∧ u.seqNext n = max (s.seqNext n) (s.seqOf n w + 1) ∧
      u.fget (TILE_SEQ_LAST.tile n) = s.seqOf n w % 2 ^ 32 ∧ u.edgeAt = s.edgeAt ∧ u.ccr = s.ccr := by
  refine ⟨Eq.trans (g.parts .now (by decide)) h.now, ?_, ?_, ?_, ?_⟩
  · unfold State.seqNext
    rw [g.seq]
    exact h.seqNext
  · rw [g.flds hi (TILE_SEQ_LAST.tile n) (.inl (by simp))]
    exact h.last
  · exact (h.parts .edgeAt (by decide)).trans (g.parts .edgeAt (by decide))
  · exact (h.parts .ccr (by decide)).trans (g.parts .ccr (by decide))

/-! ### The words as commands -/

theorem atIssue_settled {s : State} {w : Word256} (h : Settled s (s.issueAbs w)) : s.atIssue w = s.advance (s.issueAbs w) :=
  upTo_settled _ _ h

/-- A word of a stream runs behind its issue in a tick that runs it, and does nothing else. -/
def IsWord (tile : Nat) (w : Word256) (q : Nat × Instr) (g : State → State) : Prop :=
  (∀ s, exec q.2 s = .next (if s.runsWord tile w q.1 then g s else s)) ∧
    ∀ s, Follows tile ((s.atIssue w).issue tile w (s.issueAbs w)) (g s)

theorem streamWords_isWord {tile : Nat} {w : Word256} {arrival : List Word32} {loc : VeLoc} {a b : Nat} {x : Word32} {k : Bool}
    {aux : List UpdAux} {q : Nat × Instr} (h : q ∈ streamWords tile w arrival loc a b x k aux) : ∃ g, IsWord tile w q g := by
  simp only [streamWords, List.mem_cons, List.not_mem_nil, or_false] at h
  rcases h with rfl | rfl | rfl | rfl | rfl | rfl | rfl | rfl | rfl | rfl | rfl | rfl | rfl | rfl | rfl | rfl
  · exact ⟨_, fun s => rfl, fun s => follows_podRun tile _ w _ none true⟩
  · exact ⟨_, fun s => rfl, fun s => follows_podRun tile _ w _ none false⟩
  · exact ⟨_, fun s => rfl, fun s => follows_veLoad tile _ w _ none⟩
  · exact ⟨_, fun s => rfl, fun s => follows_veReadout tile _ w _ none⟩
  · exact ⟨_, fun s => rfl, fun s => follows_veChain tile _ w _ none arrival⟩
  · exact ⟨_, fun s => rfl, fun s => follows_veConvert tile _ w _ none loc a x⟩
  · exact ⟨_, fun s => rfl, fun s => follows_veScale tile _ w _ none loc⟩
  · exact ⟨_, fun s => rfl, fun s => follows_veTree tile _ w _ none a⟩
  · exact ⟨_, fun s => rfl, fun s => follows_veSumsq tile _ w _ none loc k⟩
  · exact ⟨_, fun s => rfl, fun s => follows_veLookup tile _ w _ none a⟩
  · exact ⟨_, fun s => rfl, fun s => follows_veRowcol tile _ w _ none a b⟩
  · exact ⟨_, fun s => rfl, fun s => follows_veUpdate tile _ w _ none aux⟩
  · exact ⟨_, fun s => rfl, fun s => follows_veCopy tile _ w _ none⟩
  · exact ⟨_, fun s => rfl, fun s => follows_veDecay tile _ w _ none⟩
  · exact ⟨_, fun s => rfl, fun s => follows_veEwise tile _ w _ none loc⟩
  · exact ⟨_, fun s => rfl, fun s => follows_veEnd tile _ w _⟩

/-- Settles O17: a word runs behind its issue, whatever it does (`Follows`). -/
theorem streamWordsIssueInOrder : Obligations.StreamWordsIssueInOrder := by
  intro s tile w arrival loc a b x k aux q hq
  obtain ⟨g, hexec, hfollows⟩ := streamWords_isWord hq
  refine ⟨fun ⟨hinv, _, hruns, hs⟩ => ?_, fun hno => ?_, fun hno cycle due args => ?_⟩
  · refine ⟨g s, by rw [hexec, if_pos hruns], ?_⟩
    have hf := hfollows s
    rw [atIssue_settled hs] at hf
    obtain ⟨hnow, hseq, hlast, hedge, hccr⟩ := (issue_issued (s.advance (s.issueAbs w)) tile w (s.issueAbs w) hinv).follows
      (issue_keeps _ _ _ _ (Keeps.refl _) |>.inv hinv) hf
    exact ⟨hnow.trans (by simp [State.advance]), hseq, hlast, hedge, hccr⟩
  · rw [hexec, hno]
    rfl
  · change Host.Outcome.next _ = _
    rw [hno]
    rfl

end Sys2Proof.Laws
end

section
/-! PROOFS. A word's issue, its stream fault, and the end, the undefined and the late words of a stream (R113 to R115). -/

namespace Sys2Proof.Laws

open Sys2Proof.Machine Sys2Proof.Safety

/-! ### A word under way -/

/-- From `s`, a word of tile `n` has issued and counted its work: the tick's work list and the tile's sequence have moved on. -/
structure Begun (n : Nat) (s t : State) : Prop where
  parts : OnlyParts [.now, .regs, .run, .tiles] s t
  tiles : ∃ q, t.tiles = { s.tiles with seqNext := q }
  run : ∃ l, t.run = { s.run with items := l }
  regs : OnlyRegs [seqKey n] s t
  inv : Inv s → Inv t

section
variable {n : Nat} {s t : State}

theorem begun_issue (n : Nat) (s : State) (w : Word256) (c : Nat) : Begun n s (s.issue n w c) :=
  ⟨(issue_onlyParts s n w c).mono (by decide), ⟨_, issue_tiles s n w c⟩, ⟨_, rfl⟩,
    fun k hk => regGet_regPut_ne (s.advance c) _ k _ (fun e => hk (by rw [e]; exact List.mem_singleton.2 rfl)),
    (issue_keeps s n w c (Keeps.refl s)).inv⟩

theorem Begun.item (h : Begun n s t) (k done fence : Nat) : Begun n s (t.item k done fence) := by
  obtain ⟨l, hl⟩ := h.run
  exact ⟨h.parts.then (withRun_onlyParts t _) (by decide), h.tiles, ⟨_, by rw [State.item, State.withRun, hl]⟩, h.regs,
    fun i => (withRun_keeps t _ (Keeps.refl t)).inv (h.inv i)⟩

theorem begun_veBegin (n : Nat) (s : State) (w : Word256) (c latency occ : Nat) (lim : Option Nat) :
    Begun n s (s.veBegin n w c latency occ lim) := (begun_issue n s w c).item ..

theorem Begun.advance {c : Nat} (h : Begun n (s.advance c) t) : Begun n s t :=
  ⟨((advance_onlyParts s c).mono (by decide)).trans h.parts, h.tiles, h.run, h.regs, h.inv⟩

end

/-! ### Stream faults -/

theorem accInvalid_congr {s t : State} (h : t.tiles.mark = s.tiles.mark) (n a : Nat) : t.accInvalid n a = s.accInvalid n a := by
  unfold State.accInvalid State.accMark
  rw [h]

theorem accMark_accMarkBit (s : State) (n a b : Nat) (v : Bool) (h : tabWf (fun _ => 0) s.tiles.mark = true) :
    (s.accMarkBit n a b v).accMark n a = putBits (s.accMark n a) b 1 (if v then 1 else 0) :=
  tabGet_put _ _ _ _ h

theorem accInvalid_accMarkBit (s : State) (n a : Nat) (v : Bool) (h : tabWf (fun _ => 0) s.tiles.mark = true) :
    (s.accMarkBit n a 0 v).accInvalid n a = v := by
  unfold State.accInvalid
  rw [accMark_accMarkBit s n a 0 v h, getBits_putBits_same]
  cases v <;> rfl

/-- Tagging a tile invalid touches, of the tiles, its mark alone. -/
theorem tagInvalid_tiles (s : State) (n a lpod f h seq block cause : Nat) :
    (s.tagInvalid n a lpod f h seq block cause).tiles = (s.accMarkBit n a 0 true).tiles := by
  unfold State.tagInvalid State.excFirst State.fmtShare
  split <;> simp

theorem tagInvalid_onlyParts (s : State) (n a lpod f h seq block cause : Nat) :
    OnlyParts [.regs, .run, .tiles, .outbox] s (s.tagInvalid n a lpod f h seq block cause) := by
  unfold State.tagInvalid State.fmtShare
  refine OnlyParts.then (OnlyParts.then (OnlyParts.then (OnlyParts.trans
    ((withTiles_onlyParts s _).mono (by decide)) (.ite (.refl _ _) ((fadd_onlyParts _ _ _).mono (by decide))))
    (setSts_onlyParts _ _ _) (by decide)) (record_onlyParts _ _ _) (by decide)) (setNonfinite_onlyParts _ _) (by decide)

theorem tagInvalid_run (s : State) (n a lpod f h seq block cause : Nat) :
    (s.tagInvalid n a lpod f h seq block cause).run = { s.run with nonfinite := true } := by
  unfold State.tagInvalid State.excFirst State.fmtShare
  simp only [setNonfinite_run]
  split <;> simp [State.accMarkBit, State.setAccMark, State.withTiles]

theorem streamFault_tiles (s : State) (n : Nat) (w : Word256) :
    (s.streamFault n w).tiles = (s.accMarkBit n (wAcc w) 0 true).tiles :=
  Eq.trans (classC_onlyParts _ _ _ .tiles (by decide)) (tagInvalid_tiles s ..)

theorem streamFault_onlyParts (s : State) (n : Nat) (w : Word256) :
    OnlyParts [.regs, .run, .tiles, .attend, .fifos, .cap, .outbox] s (s.streamFault n w) :=
  ((tagInvalid_onlyParts s _ _ _ _ _ _ _ _).mono (by decide)).then (classC_onlyParts _ _ _) (by decide)

/-- A status bit of a tile is set by the class C fault that names it. -/
theorem fbit_tileSts_classC (s : State) (n : Nat) (f : Fld) (h : tabWf resetOf s.regs = true)
    (hf : f.base = 0x14100000 ∧ f.lo + f.wd ≤ 64 ∧ f.wd = 1) : (s.classC (tilePage n) (f.tile n)).fbit (f.tile n) = true := by
  have hb : (f.tile n).base = 0x14100000 + n / 10 * 0x1000000 + n % 10 * 0x40000 := by rw [tile_base, hf.1]
  have hlow : ∀ k ∈ noteRegs, k < 0x14100000 := by decide
  refine fbit_of_fget (fget_classCWith s _ _ 5 0 h hf.2.1 hf.2.2 (fun hm => ?_) (fun e => ?_))
  · have := hlow _ hm
    omega
  · have ep : (FAULT_CNT_C_RAISED.pageOf (tilePage n)).base = 0x1413F010 + n / 10 * 0x1000000 + n % 10 * 0x40000 := by
      unfold Fld.pageOf tilePage
      rw [if_neg (by omega), Nat.add_sub_cancel_left]
      rfl
    rw [ep] at e
    omega

/-- A word under way that comes to a stream fault (R115). -/
theorem Begun.streamFaults {n : Nat} {s t : State} (h : Begun n s t) (hs : Inv s) (w : Word256) :
    StreamFaults n w s (t.streamFault n w) := by
  have hi : Inv t := h.inv hs
  obtain ⟨q, hq⟩ := h.tiles
  obtain ⟨l, hl⟩ := h.run
  have htag := (tagInvalid_keeps t n (wAcc w) (wLpod w) (wFmt w) (wPhase w) (t.fget (TILE_SEQ_LAST.tile n)) 0 3 (Keeps.refl t)).inv hi
  have htiles := streamFault_tiles t n w
  have hrun := classC_run (t.tagWord n w (t.fget (TILE_SEQ_LAST.tile n))) (tilePage n) (TILE_STS_STREAM_FAULT.tile n)
  rw [State.tagWord, tagInvalid_run, hl] at hrun
  refine ⟨fbit_tileSts_classC _ n TILE_STS_STREAM_FAULT htag.1.1 (by decide), ?_, ?_, ?_, ?_, ?_, ?_, ?_, ?_⟩
  · rw [accInvalid_congr (congrArg Tiles.mark htiles)]
    obtain ⟨-, -, -, hmark, -⟩ := hi.1.2.2
    exact accInvalid_accMarkBit t n (wAcc w) true hmark
  · refine Eq.trans (congrArg TickRun.nonfinite hrun) ?_
    split <;> rfl
  · unfold RaisesC
    change (if s.run.healthSent then ((t.tagWord n w _).classC _ _).run.lateC else ((t.tagWord n w _).classC _ _).run.faultC) = true
    rw [State.tagWord, hrun]
    by_cases hh : s.run.healthSent = true <;> simp [hh]
  · rw [htiles]
    change t.tiles.acc = s.tiles.acc
    rw [hq]
  · rw [htiles]
    change t.tiles.opLine = s.tiles.opLine
    rw [hq]
  · rw [htiles]
    change t.tiles.lines = s.tiles.lines
    rw [hq]
  · rw [htiles]
    change t.tiles.flights = s.tiles.flights
    rw [hq]
  · exact (h.parts.mono (by decide)).trans ((streamFault_onlyParts t n w).mono (by decide))

/-! ### Late words (R114) -/

/-- The refetch of a late word, counted and shown. -/
abbrev lateRefetched (s : State) (n : Nat) : State :=
  (s.fadd (TILE_SEQ_REFETCHES.tile n) 1).classBSts (tilePage n) (TILE_STS_LATE_ISSUE.tile n)

theorem waitFld_notedFld (n : Nat) (w : Word256) : NotedFld n (waitFld n (wLpod w) (wPhase w)) :=
  .inr ⟨_, _, getBits_lt _ _ 3, getBits_lt _ _ 4, rfl⟩

/-- The noted fields of the tile and the module's number lie apart. -/
theorem notedFld_ne_module {n : Nat} {g : Fld} (h : NotedFld n g) : HULL_ORCH_MODULE.base ≠ g.base := by
  obtain ⟨off, hb, -⟩ := notedFld_base h
  have e : HULL_ORCH_MODULE.base < 0x14100000 := by decide
  omega

theorem seqOf_congr {s t : State} (hj : t.job.ctx = s.job.ctx) (hc : t.ctxs = s.ctxs)
    (hm : t.fget HULL_ORCH_MODULE = s.fget HULL_ORCH_MODULE) (hq : t.tiles = s.tiles) (n : Nat) (w : Word256) :
    t.seqOf n w = s.seqOf n w := by
  simp only [State.seqOf, State.tileStream, image_congr hj hc, hm, State.seqNext, hq]

theorem seqFld_ne_stsFld (n : Nat) : (TILE_SEQ_REFETCHES.tile n).base ≠ (TILE_STS_LATE_ISSUE.tile n).base :=
  fun e => absurd ((tile_base_inj _ _ n).1 e) (by decide)

theorem waitFld_base (n p h : Nat) : (waitFld n p h).base = 0x14101000 + (64 * p + 4 * h + 2) * 8 + n / 10 * 0x1000000 + n % 10 * 0x40000 := rfl

theorem refetches_base (n : Nat) : (TILE_SEQ_REFETCHES.tile n).base = seqKey n := (tile_base_inj _ _ n).2 rfl

theorem only_lateRefetched (s : State) (n : Nat) :
    OnlyRegs (seqKey n :: (TILE_STS_LATE_ISSUE.tile n).base :: noteRegs) s (lateRefetched s n) :=
  (only_fadd s _ 1 (by rw [refetches_base]; simp)).trans
    (only_classBSts _ _ _ (fun _ h => List.mem_cons_of_mem _ (List.mem_cons_of_mem _ h)) (by simp))

theorem lateRefetched_onlyParts (s : State) (n : Nat) : OnlyParts [.regs, .run, .fifos, .cap, .outbox] s (lateRefetched s n) :=
  ((fadd_onlyParts s _ _).mono (by decide)).then (classBSts_onlyParts _ _ _) (by decide)

theorem counts_lateRefetched {s : State} (h : tabWf resetOf s.regs = true) (n : Nat) :
    Counts (TILE_SEQ_REFETCHES.tile n) 1 s (lateRefetched s n) := by
  have k : OnlyRegs ((TILE_STS_LATE_ISSUE.tile n).base :: noteRegs) (s.fadd (TILE_SEQ_REFETCHES.tile n) 1) (lateRefetched s n) :=
    only_classBSts _ _ _ (fun _ h => .tail _ h) (.head _)
  refine (k.fget _ (fun m => ?_)).trans (fget_fadd_same s _ 1 h (by simp [Fld.tile, TILE_SEQ_REFETCHES]))
  rcases List.mem_cons.1 m with m | m
  · exact seqFld_ne_stsFld n m
  · exact notedFld_not_note (n := n) (.inl (by simp)) m

theorem fbit_lateRefetched {s : State} (h : tabWf resetOf s.regs = true) (n : Nat) :
    (lateRefetched s n).fbit (TILE_STS_LATE_ISSUE.tile n) = true :=
  fbit_classBSts _ _ _ (wf_fset s _ _ h) (by simp [Fld.tile, TILE_STS_LATE_ISSUE]) rfl (notedFld_not_note (n := n) (.inl (by simp)))

theorem fget_wait_lateRefetched (s : State) (n p h : Nat) (hp : p < 8) (hh : h < 16) :
    (lateRefetched s n).fget (waitFld n p h) = s.fget (waitFld n p h) := by
  refine (only_lateRefetched s n).fget _ (fun m => ?_)
  have e1 : seqKey n = 0x14100018 + n / 10 * 0x1000000 + n % 10 * 0x40000 := rfl
  have e2 : (TILE_STS_LATE_ISSUE.tile n).base = 0x14100000 + n / 10 * 0x1000000 + n % 10 * 0x40000 := rfl
  rcases List.mem_cons.1 m with m | m
  · rw [waitFld_base, e1] at m
    omega
  · rcases List.mem_cons.1 m with m | m
    · rw [waitFld_base, e2] at m
      omega
    · exact notedFld_not_note (.inr ⟨p, h, hp, hh, rfl⟩) m

theorem fget_module_lateRefetched (s : State) (n : Nat) :
    (lateRefetched s n).fget HULL_ORCH_MODULE = s.fget HULL_ORCH_MODULE := by
  refine (only_lateRefetched s n).fget _ (fun m => ?_)
  rcases List.mem_cons.1 m with m | m
  · exact notedFld_ne_module (n := n) (g := TILE_SEQ_LAST.tile n) (.inl (by simp)) m
  · rcases List.mem_cons.1 m with m | m
    · exact notedFld_ne_module (n := n) (g := TILE_STS_LATE_ISSUE.tile n) (.inl (by simp)) m
    · exact absurd m (by decide)

/-- Any word, run late, follows its issue. -/
theorem follows_runWord (n : Nat) (s : State) (w : Word256) (c : Nat) (lim : Option Nat) (a : VeArgs) :
    Follows n (s.issue n w c) (s.runWord n w c lim a) := by
  unfold State.runWord
  split
  · exact follows_veEnd n s w c
  · exact follows_podRun n s w c lim true
  · exact follows_podRun n s w c lim false
  · exact follows_veLoad n s w c lim
  · exact follows_veReadout n s w c lim
  · exact follows_veChain n s w c lim a.arrival
  · exact follows_veConvert n s w c lim a.loc a.scales a.iota
  · exact follows_veScale n s w c lim a.loc
  · exact follows_veTree n s w c lim a.elems
  · exact follows_veSumsq n s w c lim a.loc a.bucket
  · exact follows_veLookup n s w c lim a.dest
  · exact follows_veRowcol n s w c lim a.rDst a.cDst
  · exact follows_veUpdate n s w c lim a.aux
  · exact follows_veCopy n s w c lim
  · exact follows_veDecay n s w c lim
  · exact follows_veEwise n s w c lim a.loc
  · exact follows_streamFault n _ w

/-- Is the word a pod instruction? -/
abbrev podWord (w : Word256) : Bool := wOpcode w == 0x10 || wOpcode w == 0x11

/-- The cycle on which the next word of a late word's pod is due. -/
abbrev lateDue (s : State) (n : Nat) (w : Word256) (due : Option Nat) : Option Nat :=
  if podWord w then (s.podNext n w).orElse (fun _ => due) else none

/-- The cycle on which a late word stops. -/
abbrev lateLim (s : State) (n : Nat) (w : Word256) (due : Option Nat) : Option Nat :=
  match s.fenceCycle w, lateDue s n w due with
  | some f, some d => some (min d f)
  | some f, none => some f
  | none, d => d

/-- A late word as it is noted: its refetch, and a pod word's waiting cycles. -/
def lateMarked (s : State) (n : Nat) (w : Word256) (amount : Nat) : State :=
  if podWord w then (lateRefetched s n).phaseTime n (wLpod w) (wPhase w) 2 amount else lateRefetched s n

/-- What is noted of a late word before it issues. -/
structure LateMarks (s : State) (n : Nat) (w : Word256) (amount : Nat) (t : State) : Prop where
  refetch : Counts (TILE_SEQ_REFETCHES.tile n) 1 s t
  bit : t.fbit (TILE_STS_LATE_ISSUE.tile n) = true
  wait : podWord w = true → Counts (waitFld n (wLpod w) (wPhase w)) amount s t
  parts : OnlyParts [.regs, .run, .fifos, .cap, .outbox] s t
  raises : RaisesB s t
  sent : t.run.healthSent = s.run.healthSent
  inv : Inv t
  module : t.fget HULL_ORCH_MODULE = s.fget HULL_ORCH_MODULE

theorem marks_classBSts (s : State) (p : Nat) (f : Fld) : MarksStand s (s.classBSts p f) := by
  constructor <;> rw [classBSts_run] <;> split <;> simp_all

theorem lateRefetched_sent (s : State) (n : Nat) : (lateRefetched s n).run.healthSent = s.run.healthSent :=
  (marks_classBSts (s.fadd (TILE_SEQ_REFETCHES.tile n) 1) (tilePage n) (TILE_STS_LATE_ISSUE.tile n)).sent

theorem lateRefetched_raises (s : State) (n : Nat) : RaisesB s (lateRefetched s n) := by
  have h := classBSts_raisesB (s.fadd (TILE_SEQ_REFETCHES.tile n) 1) (tilePage n) (TILE_STS_LATE_ISSUE.tile n)
  unfold RaisesB at h ⊢
  exact h

theorem lateRefetched_marks {s : State} (hi : Inv s) (n : Nat) (w : Word256) (amount : Nat) (h : podWord w = false) :
    LateMarks s n w amount (lateRefetched s n) where
  refetch := counts_lateRefetched hi.1.1 n
  bit := fbit_lateRefetched hi.1.1 n
  wait := fun hp => absurd (h.symm.trans hp) (fun e => nomatch e)
  parts := lateRefetched_onlyParts s n
  raises := lateRefetched_raises s n
  sent := lateRefetched_sent s n
  inv := (classBSts_keeps _ _ _ (fadd_keeps _ _ _ (Keeps.refl s))).inv hi
  module := fget_module_lateRefetched s n

theorem lateMarked_of_pod (s : State) (n : Nat) {w : Word256} (amount : Nat) (h : podWord w = true) :
    lateMarked s n w amount = (lateRefetched s n).fadd (waitFld n (wLpod w) (wPhase w)) amount := by
  rw [lateMarked, h]
  rfl

theorem lateMarked_marks {s : State} (hi : Inv s) (n : Nat) (w : Word256) (amount : Nat) :
    LateMarks s n w amount (lateMarked s n w amount) := by
  have hp : wLpod w < 8 := getBits_lt _ _ 3
  have hh : wPhase w < 16 := getBits_lt _ _ 4
  by_cases hw : podWord w = true
  · obtain ⟨h1, h2, -, h4, h5, h6, h7, h8⟩ := lateRefetched_marks hi n 0 amount (by decide)
    have hne1 : (TILE_SEQ_REFETCHES.tile n).base ≠ (waitFld n (wLpod w) (wPhase w)).base := by
      rw [waitFld_base, tile_base]
      simp only [TILE_SEQ_REFETCHES]
      omega
    have hne2 : (TILE_STS_LATE_ISSUE.tile n).base ≠ (waitFld n (wLpod w) (wPhase w)).base := by
      rw [waitFld_base, tile_base]
      simp only [TILE_STS_LATE_ISSUE]
      omega
    rw [lateMarked_of_pod s n amount hw]
    exact {
      refetch := (fget_fset_base _ _ _ _ hne1).trans h1
      bit := (congrArg (fun x => x != 0) (fget_fset_base _ _ _ _ hne2)).trans h2
      wait := fun _ => by
        unfold Counts
        rw [← fget_wait_lateRefetched s n _ _ hp hh]
        exact fget_fadd_same (lateRefetched s n) (waitFld n _ _) amount h7.1.1 (show 0 + 64 ≤ 64 from le_rfl)
      parts := h4.then (fadd_onlyParts _ _ _) (by decide)
      raises := h5
      sent := h6
      inv := (fadd_keeps _ _ _ (Keeps.refl _)).inv h7
      module := (fget_fset_base _ _ _ _ (notedFld_ne_module (waitFld_notedFld n w))).trans h8 }
  · have h0 : podWord w = false := by simpa using hw
    have e : lateMarked s n w amount = lateRefetched s n := by rw [lateMarked, h0]; rfl
    rw [e]
    exact lateRefetched_marks hi n w amount h0

theorem exec_lateIssue {s : State} {n : Nat} {w : Word256} {cycle : Nat} (hr : s.streamRuns n = true) (hs : Settled s cycle)
    (due : Option Nat) (args : VeArgs) : exec (.lateIssue n w cycle ⟨due, args⟩) s = .next
      ((lateMarked (s.advance cycle) n w (min cycle ((lateDue s n w due).getD cycle) - s.issueAbs w)).runWord n w cycle
        (lateLim s n w due) args) := by
  change Host.Outcome.next _ = _
  rw [if_pos hr, upTo_settled _ _ hs]
  have hx : (lateRefetched (s.advance cycle) n).issueAbs w = s.issueAbs w := by
    unfold State.issueAbs
    rw [lateRefetched_onlyParts _ n .edgeAt (by decide)]
    rfl
  rw [← hx]
  rfl

/-- A late word issues all the same, with what was noted of it standing. -/
theorem lateIssue_late {s : State} {n : Nat} {w : Word256} {cycle : Nat} (hi : Inv s) (hr : s.streamRuns n = true)
    (hs : Settled s cycle) (due : Option Nat) (args : VeArgs) : ∃ t, exec (.lateIssue n w cycle ⟨due, args⟩) s = .next t ∧
      Counts (TILE_SEQ_REFETCHES.tile n) 1 s t ∧ t.fbit (TILE_STS_LATE_ISSUE.tile n) = true ∧ RaisesB s t ∧
      (podWord w = true → Counts (waitFld n (wLpod w) (wPhase w)) (min cycle ((lateDue s n w due).getD cycle) - s.issueAbs w) s t) ∧
      t.fget (TILE_SEQ_LAST.tile n) = s.seqOf n w % 2 ^ 32 ∧
      t.seqNext n = max (s.seqNext n) (s.seqOf n w + 1) ∧ t.now = max s.now cycle := by
  refine ⟨_, exec_lateIssue hr hs due args, ?_⟩
  generalize lateLim s n w due = lim
  have hm := lateMarked_marks (s := s.advance cycle) hi n w (min cycle ((lateDue s n w due).getD cycle) - s.issueAbs w)
  generalize lateMarked (s.advance cycle) n w (min cycle ((lateDue s n w due).getD cycle) - s.issueAbs w) = u at hm ⊢
  obtain ⟨hrefetch, hbit, hwait, hparts, hraises, hsent, hinv, hmodule⟩ := hm
  have hf := follows_runWord n u w cycle lim args
  have hissue : Inv (u.issue n w cycle) := (issue_keeps u n w cycle (Keeps.refl u)).inv hinv
  have hstand : ∀ g, NotedFld n g → apart (TILE_SEQ_LAST.tile n) g = true → (u.runWord n w cycle lim args).fget g = u.fget g :=
    fun g hg ha => (hf.flds hissue g hg).trans
      (fget_fset_apart (u.advance cycle) _ g _ hinv.1.1 (by simp [Fld.tile, TILE_SEQ_LAST]) ha)
  obtain ⟨hnow, hseq, hlast, -⟩ := (issue_issued u n w cycle hinv).follows hissue hf
  have hq : u.seqOf n w = s.seqOf n w := seqOf_congr (congrArg JobRun.ctx (hparts .job (by decide))) (hparts .ctxs (by decide))
    hmodule (hparts .tiles (by decide)) n w
  have hq2 : u.seqNext n = s.seqNext n := by
    unfold State.seqNext
    rw [hparts .tiles (by decide)]
    rfl
  have hun : u.now = max s.now cycle := hparts .now (by decide)
  refine ⟨?_, ?_, ?_, fun hp => ?_, ?_, ?_, ?_⟩
  · exact (hstand _ (.inl (by simp)) (by simp [apart, Fld.tile, TILE_SEQ_LAST, TILE_SEQ_REFETCHES])).trans hrefetch
  · unfold State.fbit
    rw [hstand _ (.inl (by simp)) (apart_of_base (fun e => absurd ((tile_base_inj _ _ n).1 e) (by decide)))]
    exact hbit
  · exact hf.marks.raises hsent hraises
  · exact (hstand _ (waitFld_notedFld n w) (apart_of_base (by rw [waitFld_base, tile_base]; simp only [TILE_SEQ_LAST]; omega))).trans (hwait hp)
  · rw [hlast, hq]
  · rw [hseq, hq, hq2]
  · rw [hnow, hun]
    omega

/-! ### END and undefined words (R115, R483) -/

theorem exec_endStream {s : State} {n : Nat} {w : Word256} (hr : s.streamRuns n = true) (hw : wOpcode w = 0)
    (hs : Settled s (s.issueAbs w)) :
    exec (.endStream n w) s = .next ((s.advance (s.issueAbs w)).veEnd n w (s.issueAbs w)) := by
  change Host.Outcome.next _ = _
  rw [atIssue_settled hs, if_pos (by simp [State.runsWord, hr, hw])]

theorem exec_undefinedOpcode {s : State} {n : Nat} {w : Word256} (hr : s.streamRuns n = true)
    (hw : opcodes.contains (wOpcode w) = false) (hs : Settled s (s.issueAbs w)) : exec (.undefinedOpcode n w) s =
      .next (((s.advance (s.issueAbs w)).issue n w (s.issueAbs w)).streamFault n w) := by
  change Host.Outcome.next _ = _
  rw [atIssue_settled hs, if_pos (by rw [hr, hw]; rfl)]

/-- Settles O30: END ends the stream, an undefined word comes to a stream fault, and a late word issues all the same. -/
theorem streamsEndFaultAndIssueLate : Obligations.StreamsEndFaultAndIssueLate := by
  intro s n w hi _ hr
  refine ⟨fun hw hs => ?_, fun hw hs => ?_, fun hw => ?_, fun cycle due args hs => ?_⟩
  · refine ⟨_, exec_endStream hr hw hs, ?_, ?_⟩
    · simp [State.streamRuns, State.veEnd, State.withTiles]
    · have hb := (begun_issue n (s.advance (s.issueAbs w)) w (s.issueAbs w)).advance
      refine ⟨rfl, rfl, rfl, rfl, ?_, hb.regs⟩
      exact (((advance_onlyParts s _).mono (by decide)).trans (issue_onlyParts _ n w _)).then (withTiles_onlyParts _ _) (by decide)
  · exact ⟨_, exec_undefinedOpcode hr hw hs, (begun_issue n _ w _).advance.streamFaults hi w⟩
  · change Host.Outcome.next _ = _
    rw [hr, hw]
    rfl
  · obtain ⟨t, he, h1, h2, h3, h4, h5⟩ := lateIssue_late (w := w) hi hr hs due args
    refine ⟨t, he, h1, h2, h3, fun hw => ?_, h5⟩
    have hp : podWord w = true := by simpa [podWord] using hw
    simpa [lateDue, hp, waitFld] using h4 hp

end Sys2Proof.Laws
end

section
/-! PROOFS. Operand lines (R106 to R109, R601, R602): what a write shows from its landing on, and what it leaves. -/

namespace Sys2Proof.Laws

open Sys2Proof.Machine Sys2Proof.Safety

/-! ### Bits written into a number -/

/-- A bit of a number with a field written. -/
theorem testBit_putBits (v lo wd x b : Nat) :
    (putBits v lo wd x).testBit b = if lo ≤ b ∧ b < lo + wd then x.testBit (b - lo) else v.testBit b := by
  have h1 : ∀ u k, getBits u k 1 = (u.testBit k).toNat := fun u k => by
    rw [Nat.toNat_testBit]
    rfl
  have hb : ∀ p q : Bool, p.toNat = q.toNat → p = q := by decide
  split
  next h =>
    obtain ⟨hl, hr⟩ := h
    have hs := congrArg (fun n => n.testBit (b - lo)) (getBits_putBits_same v lo wd x)
    simpa [getBits, Nat.testBit_mod_two_pow, Nat.testBit_div_two_pow, show b - lo < wd by omega, Nat.sub_add_cancel hl,
      Nat.add_sub_cancel' hl] using hs
  next h =>
    apply hb
    rw [← h1, ← h1]
    by_cases hlt : b < lo
    · exact getBits_putBits_below v lo wd x b 1 (by omega)
    · exact getBits_putBits_above v lo wd x b 1 (by omega)

/-! ### One write landing in a line -/

/-- A bit of a line with one write landed in it. -/
theorem testBit_land (w : LineWrite) (g : Granule) (b : Nat) (hb : b < 2048) :
    (w.land g).toNat.testBit b = if w.lo ≤ b ∧ b < w.lo + w.wd then w.v.testBit (b - w.lo) else g.toNat.testBit b := by
  rw [LineWrite.land, BitVec.toNat_ofNat, Nat.testBit_mod_two_pow, testBit_putBits]
  simp [hb]

/-- Two lines that show the same bits `[lo, lo + wd)`. -/
def SameBits (lo wd : Nat) (g h : Granule) : Prop := ∀ b, lo ≤ b → b < lo + wd → h.toNat.testBit b = g.toNat.testBit b

theorem SameBits.land {lo wd : Nat} {g h : Granule} (hs : SameBits lo wd g h) (w : LineWrite) (hle : lo + wd ≤ 2048) :
    SameBits lo wd (w.land g) (w.land h) := by
  intro b h1 h2
  rw [testBit_land w g b (by omega), testBit_land w h b (by omega), hs b h1 h2]

theorem SameBits.lands {lo wd : Nat} (hle : lo + wd ≤ 2048) (l : List LineWrite) {g h : Granule} (hs : SameBits lo wd g h) :
    SameBits lo wd (l.foldl (fun g w => w.land g) g) (l.foldl (fun g w => w.land g) h) := by
  induction l generalizing g h with
  | nil => exact hs
  | cons w l ih => exact ih (hs.land w hle)

theorem SameBits.getBits {lo wd : Nat} {g h : Granule} (hs : SameBits lo wd g h) : getBits h.toNat lo wd = getBits g.toNat lo wd := by
  refine Nat.eq_of_testBit_eq (fun i => ?_)
  simp only [Machine.getBits, Nat.testBit_mod_two_pow, Nat.testBit_div_two_pow]
  by_cases hi : i < wd
  · rw [hs (i + lo) (by omega) (by omega)]
  · simp [hi]

theorem sameBits_land {w : LineWrite} {lo wd : Nat} (g : Granule) (hle : lo + wd ≤ 2048)
    (hd : lo + wd ≤ w.lo ∨ w.lo + w.wd ≤ lo) : SameBits lo wd g (w.land g) := by
  intro b h1 h2
  rw [testBit_land w g b (by omega), if_neg (by omega)]

theorem getBits_land {w : LineWrite} (g : Granule) (hle : w.lo + w.wd ≤ 2048) :
    getBits (w.land g).toNat w.lo w.wd = w.v % 2 ^ w.wd := by
  refine Nat.eq_of_testBit_eq (fun i => ?_)
  simp only [getBits, Nat.testBit_mod_two_pow, Nat.testBit_div_two_pow]
  by_cases hi : i < w.wd
  · rw [testBit_land w g _ (by omega), if_pos (by omega), Nat.add_sub_cancel]
  · simp [hi]

/-! ### The order in which writes land -/

theorem insLine_split (w : LineWrite) (l : List LineWrite) : ∃ l1 l2, l = l1 ++ l2 ∧ insLine w l = l1 ++ w :: l2 := by
  induction l with
  | nil => exact ⟨[], [], rfl, rfl⟩
  | cons v r ih =>
    obtain ⟨l1, l2, h1, h2⟩ := ih
    by_cases hv : v.at_ ≤ w.at_
    · exact ⟨v :: l1, l2, by rw [h1]; rfl, by rw [insLine, if_pos hv, h2]; rfl⟩
    · exact ⟨[], v :: r, rfl, by rw [insLine, if_neg hv]; rfl⟩

/-- Behind a write that has just landed, nothing has landed yet. -/
theorem insLine_filter_last (w : LineWrite) (p : LineWrite → Bool) (hp : p w = true) (hle : ∀ v, p v = true → v.at_ ≤ w.at_)
    (l : List LineWrite) (hs : l.Pairwise (fun v u => v.at_ ≤ u.at_)) : (insLine w l).filter p = l.filter p ++ [w] := by
  induction l with
  | nil => simp [insLine, hp]
  | cons v r ih =>
    obtain ⟨hv, hr⟩ := List.pairwise_cons.1 hs
    by_cases h : v.at_ ≤ w.at_
    · rw [insLine, if_pos h, List.filter_cons, List.filter_cons, ih hr]
      split <;> rfl
    · have hnone : ∀ u ∈ v :: r, p u = false := fun u hu => by
        have : v.at_ ≤ u.at_ := by
          rcases List.mem_cons.1 hu with rfl | hu
          · exact Nat.le_refl _
          · exact hv u hu
        by_contra hc
        have := hle u (by simpa using hc)
        omega
      have hnil : (v :: r).filter p = [] := List.filter_eq_nil_iff.2 (fun u hu => by simp [hnone u hu])
      rw [insLine, if_neg h, List.filter_cons, if_pos hp, hnil]
      rfl

theorem insLine_filter_not (w : LineWrite) (p : LineWrite → Bool) (hp : p w = false) (l : List LineWrite) :
    (insLine w l).filter p = l.filter p := by
  obtain ⟨l1, l2, h1, h2⟩ := insLine_split w l
  rw [h2, h1, List.filter_append, List.filter_append, List.filter_cons, hp]
  rfl

/-! ### What a write to a line leaves, and what it shows -/

section
variable (s : State) (n l lo wd v tag y : Nat)

theorem lineKey_inj {n m l k : Nat} (hl : l < 2 ^ 17) (hk : k < 2 ^ 17) (h : lineKey n l = lineKey m k) : n = m ∧ l = k := by
  unfold lineKey at h
  omega

theorem lineKey_ne {n m l k : Nat} (hl : l < 2 ^ 17) (hk : k < 2 ^ 17) (h : n ≠ m ∨ l ≠ k) : lineKey n l ≠ lineKey m k := by
  intro e
  have := lineKey_inj hl hk e
  omega

/-- A line stands on a cycle under a write to another line, and under one that lands later. -/
theorem lineWrites_setOpBits_not (m k x : Nat) (h : lineKey m k ≠ lineKey n l ∨ x < y) :
    (s.setOpBits n l lo wd v tag y).lineWrites m k x = s.lineWrites m k x := by
  refine insLine_filter_not _ _ ?_ _
  simp only [Bool.and_eq_false_iff, beq_eq_false_iff_ne, decide_eq_false_iff_not, Nat.not_le]
  exact h.imp Ne.symm id

theorem opLineAt_setOpBits_not (m k x : Nat) (h : lineKey m k ≠ lineKey n l ∨ x < y) :
    (s.setOpBits n l lo wd v tag y).opLineAt m k x = s.opLineAt m k x := by
  unfold State.opLineAt
  rw [lineWrites_setOpBits_not s n l lo wd v tag y m k x h]
  rfl

theorem opTagAt_setOpBits_not (m k x : Nat) (h : lineKey m k ≠ lineKey n l ∨ x < y) :
    (s.setOpBits n l lo wd v tag y).opTagAt m k x = s.opTagAt m k x := by
  unfold State.opTagAt
  rw [lineWrites_setOpBits_not s n l lo wd v tag y m k x h]
  rfl

/-- A write leaves the bits beside it, on every cycle. -/
theorem opBits_setOpBits_beside (m k x lo' wd' : Nat) (hle : lo' + wd' ≤ 2048) (hd : lo' + wd' ≤ lo ∨ lo + wd ≤ lo') :
    (s.setOpBits n l lo wd v tag y).opBits m k x lo' wd' = s.opBits m k x lo' wd' := by
  obtain ⟨l1, l2, h1, h2⟩ := insLine_split ⟨y, lineKey n l, lo, wd, v, tag⟩ s.tiles.lines
  have e : (s.setOpBits n l lo wd v tag y).tiles.lines = l1 ++ ⟨y, lineKey n l, lo, wd, v, tag⟩ :: l2 := h2
  unfold State.opBits State.opLineAt State.lineWrites
  rw [e, h1, List.filter_append, List.filter_append, List.filter_cons, List.foldl_append, List.foldl_append]
  refine SameBits.getBits ?_
  split
  · exact SameBits.lands hle _ (sameBits_land _ hle hd)
  · exact fun _ _ _ => rfl

section
variable (hs : s.tiles.lines.Pairwise (fun v w => v.at_ ≤ w.at_))
include hs

/-- On the cycle that it lands, a write is the last to have landed in its line. -/
theorem lineWrites_setOpBits_at : (s.setOpBits n l lo wd v tag y).lineWrites n l y =
    s.lineWrites n l y ++ [⟨y, lineKey n l, lo, wd, v, tag⟩] := by
  refine insLine_filter_last _ _ (by simp) (fun u hu => ?_) _ hs
  simp only [Bool.and_eq_true, decide_eq_true_eq] at hu
  exact hu.2

theorem opBits_setOpBits_at (hle : lo + wd ≤ 2048) : (s.setOpBits n l lo wd v tag y).opBits n l y lo wd = v % 2 ^ wd := by
  unfold State.opBits State.opLineAt
  rw [lineWrites_setOpBits_at s n l lo wd v tag y hs, List.foldl_append]
  exact getBits_land _ hle

theorem opTagAt_setOpBits_at : (s.setOpBits n l lo wd v tag y).opTagAt n l y = tag := by
  unfold State.opTagAt
  rw [lineWrites_setOpBits_at s n l lo wd v tag y hs, List.foldl_append]
  rfl

end

/-- A line filled whole. -/
theorem opLineAt_of_opBits (t : State) (m k x : Nat) : t.opLineAt m k x = BitVec.ofNat 2048 (t.opBits m k x 0 2048) := by
  refine BitVec.eq_of_toNat_eq ?_
  rw [BitVec.toNat_ofNat, State.opBits, getBits, Nat.pow_zero, Nat.div_one, Nat.mod_mod]
  exact (Nat.mod_eq_of_lt (BitVec.isLt _)).symm

end

/-- The lines stand where their writes, and what they held when the tick opened, do. -/
theorem opLineAt_congr {s t : State} (hl : t.tiles.lines = s.tiles.lines) (ho : t.tiles.opLine = s.tiles.opLine) (n l x : Nat) :
    t.opLineAt n l x = s.opLineAt n l x := by
  simp only [State.opLineAt, State.lineWrites, hl, ho]

theorem opTagAt_congr {s t : State} (hl : t.tiles.lines = s.tiles.lines) (ho : t.tiles.opTag = s.tiles.opTag) (n l x : Nat) :
    t.opTagAt n l x = s.opTagAt n l x := by
  simp only [State.opTagAt, State.lineWrites, hl, ho]

theorem opBits_congr {s t : State} (hl : t.tiles.lines = s.tiles.lines) (ho : t.tiles.opLine = s.tiles.opLine) (n l x lo wd : Nat) :
    t.opBits n l x lo wd = s.opBits n l x lo wd := by
  rw [State.opBits, State.opBits, opLineAt_congr hl ho]

/-! ### Writing a list of places, one after another -/

/-- Each of some places, updated once, shows its update: an update shows its own, leaves those of the others, and keeps `P`. -/
theorem foldl_updates {α β : Type} {P : State → Prop} {write : State → α → State} {read : State → α → β} {g : α → β → β}
    {l : List α} (hP : ∀ s, ∀ a ∈ l, P s → P (write s a)) (hsame : ∀ s, ∀ a ∈ l, P s → read (write s a) a = g a (read s a))
    (hne : ∀ s, ∀ a ∈ l, ∀ b ∈ l, a ≠ b → read (write s b) a = read s a) (hnd : l.Nodup) {s : State} (hs : P s) :
    ∀ a ∈ l, read (l.foldl write s) a = g a (read s a) := by
  induction l generalizing s with
  | nil => exact fun a ha => nomatch ha
  | cons c l ih =>
    obtain ⟨hc, hl⟩ := List.nodup_cons.1 hnd
    have hstand : ∀ (k : List α), (∀ b ∈ k, b ∈ l) → ∀ u, read (k.foldl write u) c = read u c := by
      intro k
      induction k with
      | nil => exact fun _ _ => rfl
      | cons b k ih2 =>
        intro hk u
        have hb := hk b (.head _)
        exact (ih2 (fun d hd => hk d (.tail _ hd)) (write u b)).trans
          (hne u c (.head _) b (.tail _ hb) (fun e => hc (e ▸ hb)))
    intro a ha
    rcases List.mem_cons.1 ha with rfl | ha
    · exact (hstand l (fun _ h => h) _).trans (hsame s a (.head _) hs)
    · refine (ih (fun u b hb => hP u b (.tail _ hb)) (fun u b hb => hsame u b (.tail _ hb))
        (fun u a ha b hb => hne u a (.tail _ ha) b (.tail _ hb)) hl (hP s c (.head _) hs) a ha).trans ?_
      rw [hne s a (.tail _ ha) c (.head _) (fun e => hc (e ▸ ha))]

/-- Each of some places, written once, shows its value. -/
theorem foldl_writes {α β : Type} {P : State → Prop} {write : State → α → State} {read : State → α → β} {val : α → β}
    {l : List α} (hP : ∀ s, ∀ a ∈ l, P s → P (write s a)) (hsame : ∀ s, ∀ a ∈ l, P s → read (write s a) a = val a)
    (hne : ∀ s, ∀ a ∈ l, ∀ b ∈ l, a ≠ b → read (write s b) a = read s a) (hnd : l.Nodup) {s : State} (hs : P s) :
    ∀ a ∈ l, read (l.foldl write s) a = val a :=
  foldl_updates (g := fun a _ => val a) hP hsame hne hnd hs

/-- A fold within a fold runs over the pairs. -/
theorem foldl_product {α β γ : Type} (f : γ → α → β → γ) (l : List α) (k : List β) (x : γ) :
    l.foldl (fun x a => k.foldl (fun x b => f x a b) x) x = (l ×ˢ k).foldl (fun x p => f x p.1 p.2) x := by
  induction l generalizing x with
  | nil => rfl
  | cons a l ih => rw [List.foldl_cons, ih, List.product_cons, List.foldl_append, List.foldl_map]

/-- A relation that each write keeps is kept by all of them. -/
theorem foldl_keeps_rel {α : Type} {R : State → State → Prop} (hr : ∀ s, R s s) (ht : ∀ s t u, R s t → R t u → R s u)
    {write : State → α → State} {l : List α} (h : ∀ s, ∀ a ∈ l, R s (write s a)) (s : State) : R s (l.foldl write s) :=
  List.foldlRecOn l write (hr s) (fun t h1 a ha => ht s t _ h1 (h t a ha))

/-- A fold that counts beside a value goes as the fold without the count. -/
theorem foldl_fst_eq {α β γ : Type} {f : γ × β → α → γ × β} {g : γ → α → γ} (h : ∀ x a, (f x a).1 = g x.1 a)
    (l : List α) (x : γ × β) : (l.foldl f x).1 = l.foldl g x.1 := by
  induction l generalizing x with
  | nil => rfl
  | cons a l ih => rw [List.foldl_cons, List.foldl_cons, ih, h]

end Sys2Proof.Laws
end

section
/-! PROOFS. Elements in memory and in operand lines: what a word's writes show and what they leave (R483, R602). -/

namespace Sys2Proof.Safety

open Sys2Proof.Machine

/-! ### Bytes and lines that stand -/

theorem OnlyBytes.rdN {a n : Nat} {s t : State} (h : OnlyBytes a n s t) {b m : Nat} (hd : Apart b m a n) : t.rdN b m = s.rdN b m :=
  Laws.rdN_congr_range m b (fun k h1 h2 => h k (by omega))

theorem OnlyLines.refl (n lo hi : Nat) (s : State) : OnlyLines n lo hi s s := fun _ _ _ _ _ _ => ⟨rfl, rfl⟩

theorem OnlyLines.trans {n lo hi : Nat} {s t u : State} (h : OnlyLines n lo hi s t) (g : OnlyLines n lo hi t u) :
    OnlyLines n lo hi s u := fun m l x hm hl ho =>
  ⟨(g m l x hm hl ho).1.trans (h m l x hm hl ho).1, (g m l x hm hl ho).2.trans (h m l x hm hl ho).2⟩

theorem OnlyLines.of_tiles {n lo hi : Nat} {s t : State} (hl : t.tiles.lines = s.tiles.lines) (ho : t.tiles.opLine = s.tiles.opLine)
    (hg : t.tiles.opTag = s.tiles.opTag) : OnlyLines n lo hi s t :=
  fun m l x _ _ _ => ⟨Laws.opLineAt_congr hl ho m l x, Laws.opTagAt_congr hl hg m l x⟩

theorem OnlyLines.mono {n lo hi lo' hi' : Nat} {s t : State} (h : OnlyLines n lo hi s t) (h1 : lo' ≤ lo) (h2 : hi ≤ hi') :
    OnlyLines n lo' hi' s t := fun m l x hm hl ho => h m l x hm hl (by omega)

theorem OnlyBytes.refl (a n : Nat) (s : State) : OnlyBytes a n s s := fun _ _ => rfl

end Sys2Proof.Safety

namespace Sys2Proof.Laws

open Sys2Proof.Machine Sys2Proof.Safety

/-! ### Elements of a width -/

/-- A width of elements that fill operand lines and bytes evenly. -/
abbrev EvenWidth (wd : Nat) : Prop := 0 < wd ∧ wd ∣ 2048 ∧ 8 ∣ wd

theorem evenWidth_fmtWidth (f : Nat) : EvenWidth (fmtWidth f) := by
  unfold fmtWidth fmtBytes
  split
  · decide
  · split
    · decide
    · split <;> decide

/-- Where an element lies in the lines, and that it lies within one. -/
theorem element_place {wd : Nat} (h : EvenWidth wd) (i : Nat) :
    i * wd / 2048 = i / (2048 / wd) ∧ i * wd % 2048 = i % (2048 / wd) * wd ∧ i * wd % 2048 + wd ≤ 2048 := by
  obtain ⟨hp, ⟨m, hm⟩, -⟩ := h
  have hdiv : 2048 / wd = m := by rw [hm, Nat.mul_div_cancel_left _ hp]
  have hm0 : 0 < m := Nat.pos_of_ne_zero (fun e => by simp [e] at hm)
  have hlt : i % m < m := Nat.mod_lt _ hm0
  have hmod : i * wd % 2048 = i % m * wd := by rw [hm, Nat.mul_comm wd m, Nat.mul_mod_mul_right]
  refine ⟨by rw [hdiv, hm, Nat.mul_comm wd m, Nat.mul_div_mul_right _ _ hp], by rw [hdiv, hmod], ?_⟩
  rw [hmod, hm]
  calc i % m * wd + wd = (i % m + 1) * wd := by ring
    _ ≤ m * wd := Nat.mul_le_mul_right _ hlt
    _ = wd * m := Nat.mul_comm _ _

/-- Two elements in one line have no bit in common. -/
theorem elements_apart {wd : Nat} (h : EvenWidth wd) {i j : Nat} (hij : i ≠ j) (hl : i * wd / 2048 = j * wd / 2048) :
    i * wd % 2048 + wd ≤ j * wd % 2048 ∨ j * wd % 2048 + wd ≤ i * wd % 2048 := by
  obtain ⟨hi1, hi2, -⟩ := element_place h i
  obtain ⟨hj1, hj2, -⟩ := element_place h j
  rw [hi1, hj1] at hl
  rw [hi2, hj2]
  generalize 2048 / wd = m at hl ⊢
  have hne : i % m ≠ j % m := fun e => hij (by rw [← Nat.div_add_mod i m, ← Nat.div_add_mod j m, hl, e])
  rcases Nat.lt_or_gt_of_ne hne with hlt | hlt
  · left
    calc i % m * wd + wd = (i % m + 1) * wd := by ring
      _ ≤ j % m * wd := Nat.mul_le_mul_right _ hlt
  · right
    calc j % m * wd + wd = (j % m + 1) * wd := by ring
      _ ≤ i % m * wd := Nat.mul_le_mul_right _ hlt

/-! ### Bytes in memory -/

theorem rdN_wrN_apart (s : State) (a b n m v : Nat) (h : Apart a n b m) : (s.wrN b m v).rdN a n = s.rdN a n :=
  rdN_congr_range n a (fun k h1 h2 => rd8_wrN_out k m s b v (by omega))

theorem wrN_onlyBytes (s : State) (a n lo k v : Nat) (h1 : lo ≤ a) (h2 : a + n ≤ lo + k) : OnlyBytes lo k s (s.wrN a n v) :=
  fun b hb => rd8_wrN_out b n s a v (by omega)

theorem elements_bytes_apart (a k : Nat) {i j : Nat} (hij : i ≠ j) : Apart (a + i * k) k (a + j * k) k := by
  rcases Nat.lt_or_gt_of_ne hij with hlt | hlt
  · left
    calc a + i * k + k = a + (i + 1) * k := by ring
      _ ≤ a + j * k := Nat.add_le_add_left (Nat.mul_le_mul_right _ hlt) _
  · right
    calc a + j * k + k = a + (j + 1) * k := by ring
      _ ≤ a + i * k := Nat.add_le_add_left (Nat.mul_le_mul_right _ hlt) _

/-! ### One element written -/

/-- The tables that element writes keep in order. -/
def ElementsWf (s : State) : Prop := tabWf memDefault s.mem = true ∧ s.tiles.lines.Pairwise (fun v w => v.at_ ≤ w.at_)

theorem Inv.elementsWf {s : State} (h : Inv s) : ElementsWf s :=
  ⟨h.1.2.1, h.1.2.2.2.2.2.2.2.2.2.2⟩

theorem elementsWf_setOpBits (s : State) (n l lo wd v tag y : Nat) (h : ElementsWf s) : ElementsWf (s.setOpBits n l lo wd v tag y) :=
  ⟨h.1, (insLine_sorted _ _ h.2).1⟩

theorem elementsWf_wrN (s : State) (a k v : Nat) (h : ElementsWf s) : ElementsWf (s.wrN a k v) :=
  ⟨wf_wrN k s a v h.1, by rw [wrN_onlyParts s k a v .tiles (by decide)]; exact h.2⟩

theorem elementsWf_wrEl (s : State) (n : Nat) (sram : Bool) (a wd tag i v x : Nat) (h : ElementsWf s) :
    ElementsWf (s.wrEl n sram a wd tag i v x) := by
  unfold State.wrEl
  split
  · exact elementsWf_setOpBits _ _ _ _ _ _ _ _ h
  · exact elementsWf_wrN _ _ _ _ h

section
variable (s : State) (n : Nat) (sram : Bool) (a wd tag v : Nat) (hw : EvenWidth wd)
include hw

/-- An element shows, on the cycle that it lands, what was written. -/
theorem rdEl_wrEl_same (i x : Nat) (h : ElementsWf s) : (s.wrEl n sram a wd tag i v x).rdEl n sram a wd i x = v % 2 ^ wd := by
  obtain ⟨-, -, hplace⟩ := element_place hw i
  unfold State.wrEl State.rdEl
  cases sram
  · have e : 256 ^ (wd / 8) = 2 ^ wd := by
      obtain ⟨m, rfl⟩ := hw.2.2
      rw [Nat.mul_div_cancel_left _ (by decide), Nat.pow_mul]
    exact (rdN_wrN (wd / 8) s _ v h.1).trans (by rw [e])
  · exact opBits_setOpBits_at s n _ _ wd v tag x h.2 hplace

/-- Another element stands, on every cycle. -/
theorem rdEl_wrEl_ne (i j x y : Nat) (hij : i ≠ j) :
    (s.wrEl n sram a wd tag j v y).rdEl n sram a wd i x = s.rdEl n sram a wd i x := by
  obtain ⟨-, -, hplace⟩ := element_place hw i
  unfold State.wrEl State.rdEl
  cases sram
  · exact rdN_wrN_apart s _ _ _ _ v (elements_bytes_apart a _ hij)
  · by_cases hl : i * wd / 2048 = j * wd / 2048
    · exact opBits_setOpBits_beside s n _ _ wd v tag y n _ x _ wd hplace (elements_apart hw hij hl)
    · simp only [if_true, State.opBits]
      rw [opLineAt_setOpBits_not s n _ _ wd v tag y n _ x (.inl (fun e => hl (by unfold lineKey at e; omega)))]

end

/-! ### What the writes of elements leave -/

/-- From `s`, only elements `0` to `e - 1` of a place have been written. -/
structure WroteEls (n : Nat) (sram : Bool) (a wd e : Nat) (s t : State) : Prop where
  mem : sram = false → OnlyBytes a (e * (wd / 8)) s t ∧ t.tiles = s.tiles
  lines : sram = true → t.mem = s.mem ∧ OnlyLines n a (a + ceilDiv (e * wd) 2048) s t ∧ ∃ l, t.tiles = { s.tiles with lines := l }
  parts : OnlyParts [.mem, .tiles] s t

theorem setOpBits_onlyLines (s : State) (n l lo wd v tag y : Nat) {b c : Nat} (h1 : b ≤ l) (h2 : l < c) (hc : l < 98304) :
    OnlyLines n b c s (s.setOpBits n l lo wd v tag y) := fun m k x _ hk ho =>
  have hne : lineKey m k ≠ lineKey n l := lineKey_ne (by omega) (by omega) (by omega)
  ⟨opLineAt_setOpBits_not s n l lo wd v tag y m k x (.inl hne), opTagAt_setOpBits_not s n l lo wd v tag y m k x (.inl hne)⟩

theorem WroteEls.refl (n : Nat) (sram : Bool) (a wd e : Nat) (s : State) : WroteEls n sram a wd e s s :=
  ⟨fun _ => ⟨.refl _ _ s, rfl⟩, fun _ => ⟨rfl, .refl _ _ _ s, _, rfl⟩, .refl _ s⟩

theorem WroteEls.trans {n : Nat} {sram : Bool} {a wd e : Nat} {s t u : State} (h : WroteEls n sram a wd e s t)
    (g : WroteEls n sram a wd e t u) : WroteEls n sram a wd e s u where
  mem := fun hs => ⟨(h.mem hs).1.trans (g.mem hs).1, (g.mem hs).2.trans (h.mem hs).2⟩
  lines := fun hs => by
    obtain ⟨h1, h2, l, h3⟩ := h.lines hs
    obtain ⟨g1, g2, k, g3⟩ := g.lines hs
    exact ⟨g1.trans h1, h2.trans g2, k, by rw [g3, h3]⟩
  parts := h.parts.trans g.parts

theorem setOpBits_onlyParts (s : State) (n l lo wd v tag y : Nat) : OnlyParts [.tiles] s (s.setOpBits n l lo wd v tag y) :=
  withTiles_onlyParts s _

theorem wrEl_wrote (s : State) (n : Nat) (sram : Bool) (a wd tag i v x : Nat) {e : Nat} (hw : EvenWidth wd) (hi : i < e)
    (hb : elsBad sram a wd e = false) : WroteEls n sram a wd e s (s.wrEl n sram a wd tag i v x) := by
  unfold State.wrEl
  cases sram
  · refine ⟨fun _ => ⟨wrN_onlyBytes s _ _ _ _ v (Nat.le_add_right _ _) ?_, wrN_onlyParts s _ _ _ .tiles (by decide)⟩,
      fun h => (nomatch h), (wrN_onlyParts s _ _ _).mono (by decide)⟩
    calc a + i * (wd / 8) + wd / 8 = a + (i + 1) * (wd / 8) := by ring
      _ ≤ a + e * (wd / 8) := Nat.add_le_add_left (Nat.mul_le_mul_right _ hi) _
  · have hlt : i * wd < e * wd := Nat.mul_lt_mul_of_pos_right hi hw.1
    have hin : i * wd / 2048 < ceilDiv (e * wd) 2048 := by
      unfold ceilDiv
      omega
    have hlast : a + ceilDiv (e * wd) 2048 ≤ 98304 := by
      simpa [elsBad, pastSram] using hb
    exact ⟨fun h => (nomatch h), fun _ => ⟨rfl, setOpBits_onlyLines s n _ _ wd v tag x (Nat.le_add_right _ _) (by omega) (by omega),
      _, rfl⟩, (setOpBits_onlyParts s _ _ _ _ _ _ _).mono (by decide)⟩

/-- Elements of a place written, each with its value on its cycle. -/
theorem elements_written {α : Type} {n : Nat} {sram : Bool} {a wd tag e : Nat} {idx val at_ : α → Nat} {l : List α} {s : State}
    (hw : EvenWidth wd) (hwf : ElementsWf s) (hb : elsBad sram a wd e = false) (hl : ∀ i ∈ l, idx i < e)
    (hinj : ∀ i ∈ l, ∀ j ∈ l, idx i = idx j → i = j) (hnd : l.Nodup) :
    (∀ i ∈ l, (l.foldl (fun s i => s.wrEl n sram a wd tag (idx i) (val i) (at_ i)) s).rdEl n sram a wd (idx i) (at_ i) =
      val i % 2 ^ wd) ∧
      WroteEls n sram a wd e s (l.foldl (fun s i => s.wrEl n sram a wd tag (idx i) (val i) (at_ i)) s) :=
  ⟨foldl_writes (P := ElementsWf) (read := fun s i => s.rdEl n sram a wd (idx i) (at_ i)) (val := fun i => val i % 2 ^ wd)
      (fun s i _ h => elementsWf_wrEl s n sram a wd tag _ _ _ h) (fun s i _ h => rdEl_wrEl_same s n sram a wd tag _ hw _ _ h)
      (fun s i hi j hj hij => rdEl_wrEl_ne s n sram a wd tag _ hw _ _ _ _ (fun e => hij (hinj i hi j hj e))) hnd hwf,
    foldl_keeps_rel (WroteEls.refl n sram a wd e) (fun _ _ _ => WroteEls.trans)
      (fun t i hi => wrEl_wrote t n sram a wd tag _ _ _ hw (hl i hi) hb) s⟩

/-! ### What follows the writes -/

theorem rdEl_congr {s t : State} (hm : t.mem = s.mem) (hl : t.tiles.lines = s.tiles.lines) (ho : t.tiles.opLine = s.tiles.opLine)
    (n : Nat) (sram : Bool) (a wd i x : Nat) : t.rdEl n sram a wd i x = s.rdEl n sram a wd i x := by
  unfold State.rdEl
  rw [opBits_congr hl ho, rdN_congr (rd8_congr hm)]

theorem rdGranule_congr {s t : State} (hm : t.mem = s.mem) (a : Nat) : t.rdGranule a = s.rdGranule a := by
  unfold State.rdGranule
  rw [rdN_congr (rd8_congr hm)]

theorem fmtShare_onlyParts (s : State) (n src f h e amount : Nat) : OnlyParts [.regs] s (s.fmtShare n src f h e amount) :=
  .ite (.refl _ s) (fadd_onlyParts s _ _)

theorem veEvents_onlyParts (s : State) (n h : Nat) (c : EvCnt) : OnlyParts [.regs, .run, .outbox] s (s.veEvents n h c) := by
  have h6 := ((((((fmtShare_onlyParts s n 1 0 h 0 c.prod).trans (fmtShare_onlyParts _ n 1 0 h 1 c.sat)).trans
    (fmtShare_onlyParts _ n 1 0 h 2 c.van)).trans (fmtShare_onlyParts _ n 1 0 h 3 c.sub)).trans
    (fmtShare_onlyParts _ n 1 0 h 4 c.nanGen)).trans (fmtShare_onlyParts _ n 1 0 h 5 c.nanProp))
  exact .ite (h6.mono (by decide)) ((h6.mono (by decide)).then (setNonfinite_onlyParts _ _) (by decide))

theorem convEvents_onlyParts (s : State) (n f h : Nat) (c : EvCnt) : OnlyParts [.regs, .run, .outbox] s (s.convEvents n f h c) := by
  have h6 := ((((((fmtShare_onlyParts s n 1 f h 0 c.prod).trans (fmtShare_onlyParts _ n 1 f h 1 c.sat)).trans
    (fmtShare_onlyParts _ n 1 f h 2 c.van)).trans (fmtShare_onlyParts _ n 1 f h 3 c.sub)).trans
    (fmtShare_onlyParts _ n 1 f h 4 c.nanGen)).trans (fmtShare_onlyParts _ n 1 f h 5 c.nanProp))
  exact .ite (h6.mono (by decide)) ((h6.mono (by decide)).then (setNonfinite_onlyParts _ _) (by decide))

/-- What is noted behind a word's writes touches no element. -/
structure AfterWrites (s t : State) : Prop where
  parts : OnlyParts [.regs, .run, .tiles, .outbox] s t
  tiles : ∃ l, t.tiles = { s.tiles with spans := l }

theorem AfterWrites.refl (s : State) : AfterWrites s s := ⟨.refl _ s, _, rfl⟩

theorem AfterWrites.trans {s t u : State} (h : AfterWrites s t) (g : AfterWrites t u) : AfterWrites s u := by
  obtain ⟨k, hk⟩ := h.tiles
  obtain ⟨l, hl⟩ := g.tiles
  exact ⟨h.parts.trans g.parts, l, by rw [hl, hk]⟩

theorem AfterWrites.of_parts {s t : State} (h : OnlyParts [.regs, .run, .outbox] s t) : AfterWrites s t :=
  ⟨h.mono (by decide), _, h .tiles (by decide)⟩

theorem afterWrites_wrote (s : State) (lo k x : Nat) : AfterWrites s (s.wrote lo k x) :=
  ⟨(withTiles_onlyParts s _).mono (by decide), _, rfl⟩

theorem afterWrites_memSpan (s : State) (sram : Bool) (a wd e last : Nat) (lim : Option Nat) :
    AfterWrites s (s.memSpan sram a wd e last lim) := by
  unfold State.memSpan
  split
  · exact .refl s
  · exact afterWrites_wrote ..

theorem afterWrites_veEvents (s : State) (n h : Nat) (c : EvCnt) : AfterWrites s (s.veEvents n h c) :=
  .of_parts (veEvents_onlyParts s n h c)

theorem afterWrites_convEvents (s : State) (n f h : Nat) (c : EvCnt) : AfterWrites s (s.convEvents n f h c) :=
  .of_parts (convEvents_onlyParts s n f h c)

theorem afterWrites_fmtShare (s : State) (n src f h e amount : Nat) : AfterWrites s (s.fmtShare n src f h e amount) :=
  .of_parts ((fmtShare_onlyParts s n src f h e amount).mono (by decide))

section
variable {s t : State} (h : AfterWrites s t)
include h

theorem AfterWrites.mem : t.mem = s.mem := h.parts .mem (by decide)

theorem AfterWrites.lines : t.tiles.lines = s.tiles.lines := by
  obtain ⟨l, hl⟩ := h.tiles
  rw [hl]

theorem AfterWrites.opLine : t.tiles.opLine = s.tiles.opLine := by
  obtain ⟨l, hl⟩ := h.tiles
  rw [hl]

theorem AfterWrites.opTag : t.tiles.opTag = s.tiles.opTag := by
  obtain ⟨l, hl⟩ := h.tiles
  rw [hl]

theorem AfterWrites.acc : t.tiles.acc = s.tiles.acc := by
  obtain ⟨l, hl⟩ := h.tiles
  rw [hl]

theorem AfterWrites.flights : t.tiles.flights = s.tiles.flights := by
  obtain ⟨l, hl⟩ := h.tiles
  rw [hl]

theorem AfterWrites.rdEl (n : Nat) (sram : Bool) (a wd i x : Nat) : t.rdEl n sram a wd i x = s.rdEl n sram a wd i x :=
  rdEl_congr h.mem h.lines h.opLine n sram a wd i x

theorem AfterWrites.onlyLines {u : State} {n lo hi : Nat} (g : OnlyLines n lo hi u s) : OnlyLines n lo hi u t :=
  g.trans (.of_tiles h.lines h.opLine h.opTag)

theorem AfterWrites.onlyBytes {u : State} {a k : Nat} (g : OnlyBytes a k u s) : OnlyBytes a k u t :=
  g.trans (.of_mem a k h.mem)

end

end Sys2Proof.Laws
end

section
/-! PROOFS. What a word under way reads (R22, R187, R602): its issue leaves everything that it takes its operands from. -/

namespace Sys2Proof.Laws

open Sys2Proof.Machine Sys2Proof.Safety

/-! ### The tiles' memories -/

/-- Two states whose tiles hold the same operand lines and slot counts. -/
structure SameOps (s t : State) : Prop where
  lines : t.tiles.lines = s.tiles.lines
  opLine : t.tiles.opLine = s.tiles.opLine
  opTag : t.tiles.opTag = s.tiles.opTag
  slotCnt : t.tiles.slotCnt = s.tiles.slotCnt

section
variable {s t : State} (h : SameOps s t)
include h

theorem SameOps.opBits (n l x lo wd : Nat) : t.opBits n l x lo wd = s.opBits n l x lo wd := opBits_congr h.lines h.opLine n l x lo wd

theorem SameOps.opTagAt (n l x : Nat) : t.opTagAt n l x = s.opTagAt n l x := opTagAt_congr h.lines h.opTag n l x

theorem SameOps.operand (n f base scale : Nat) (along : Bool) (half i k x : Nat) :
    t.operand n f base scale along half i k x = s.operand n f base scale along half i k x := by
  simp only [State.operand, h.opBits]

theorem SameOps.elemSum (stream : Bool) (n : Nat) (w : Word256) (c : Nat) (ks : List Nat) (i j : Nat) (init : Option Nat) :
    t.elemSum stream n w c ks i j init = s.elemSum stream n w c ks i j init := by
  simp only [State.elemSum, h.operand]

theorem SameOps.padded (n : Nat) (w : Word256) (i : Nat) : t.padded n w i = s.padded n w i := by
  unfold State.padded State.slotCount
  rw [h.slotCnt]

theorem SameOps.redIndices (n : Nat) (w : Word256) : t.redIndices n w = s.redIndices n w := by
  simp only [State.redIndices, h.padded]

theorem SameOps.rowLive (stream : Bool) (n : Nat) (w : Word256) (c i : Nat) : t.rowLive stream n w c i = s.rowLive stream n w c i := by
  simp only [State.rowLive, State.rowMasked, State.rowPadded, h.opBits, h.padded]

theorem SameOps.fmtMismatch (stream : Bool) (n : Nat) (w : Word256) (c x : Nat) :
    t.fmtMismatch stream n w c x = s.fmtMismatch stream n w c x := by
  simp only [State.fmtMismatch, h.opTagAt]

/-- Where an element of what has landed stands alike, so does what is under way towards it. -/
theorem SameOps.accElOver_of_base (n a i j : Nat) (hb : ∀ x, t.accBase n a i j x = s.accBase n a i j x) (l : List Flight) :
    ∀ x, t.accElOver n a i j x l = s.accElOver n a i j x l := by
  induction l with
  | nil => exact hb
  | cons f r ih =>
    intro x
    simp only [State.accElOver, h.fmtMismatch, h.rowLive, h.elemSum, h.redIndices, ih]

end

theorem SameOps.of_tiles {s t : State} (h : t.tiles = s.tiles) : SameOps s t := by
  constructor <;> rw [h]

/-- Two states whose tiles hold the same, whatever their streams have come to. -/
structure SameSram (s t : State) : Prop extends SameOps s t where
  acc : t.tiles.acc = s.tiles.acc
  accOld : t.tiles.accOld = s.tiles.accOld
  mark : t.tiles.mark = s.tiles.mark

section
variable {s t : State} (h : SameSram s t)
include h

theorem SameSram.accEl (n a i j : Nat) : t.accEl n a i j = s.accEl n a i j := by
  simp only [State.accEl, h.acc]

theorem SameSram.accInvalid (n a : Nat) : t.accInvalid n a = s.accInvalid n a := accInvalid_congr h.mark n a

theorem SameSram.accWritten (n a : Nat) : t.accWritten n a = s.accWritten n a := by
  simp only [State.accWritten, State.accMark, h.mark]

theorem SameSram.accChain (n a : Nat) : t.accChain n a = s.accChain n a := by
  simp only [State.accChain, State.accMark, h.mark]

theorem SameSram.accBase (n a i j x : Nat) : t.accBase n a i j x = s.accBase n a i j x := by
  simp only [State.accBase, h.accOld, h.accEl]

theorem SameSram.accElOver (n a i j : Nat) (l : List Flight) (x : Nat) : t.accElOver n a i j x l = s.accElOver n a i j x l :=
  h.accElOver_of_base n a i j (h.accBase n a i j) l x

theorem SameSram.accTagOver (n a x : Nat) (l : List Flight) : t.accTagOver n a x l = s.accTagOver n a x l := by
  induction l with
  | nil => exact h.accInvalid n a
  | cons f r ih =>
    simp only [State.accTagOver, h.fmtMismatch, h.rowLive, h.elemSum, h.redIndices, h.accElOver, ih]

end

theorem SameSram.of_tiles {s t : State} (h : t.tiles = s.tiles) : SameSram s t where
  toSameOps := .of_tiles h
  acc := by rw [h]
  accOld := by rw [h]
  mark := by rw [h]

/-! ### State -/

/-- Two states that hold the same state tensors, under the same image and norm. -/
structure SameReads (s t : State) : Prop where
  mem : t.mem = s.mem
  job : t.job = s.job
  ctxs : t.ctxs = s.ctxs
  ccr : t.ccr = s.ccr
  slow : t.slow = s.slow
  fget : ∀ g : Fld, g.base < 0x14000000 → t.fget g = s.fget g

theorem SameReads.of_parts {ps : List Part} {s t : State} (h : OnlyParts ps s t)
    (hp : .mem ∉ ps ∧ .job ∉ ps ∧ .ctxs ∉ ps ∧ .ccr ∉ ps ∧ .slow ∉ ps ∧ .regs ∉ ps) : SameReads s t :=
  ⟨h .mem hp.1, h .job hp.2.1, h .ctxs hp.2.2.1, h .ccr hp.2.2.2.1, h .slow hp.2.2.2.2.1,
    fun g _ => fget_congr (h .regs hp.2.2.2.2.2) g⟩

theorem SameReads.trans {s t u : State} (h : SameReads s t) (g : SameReads t u) : SameReads s u :=
  ⟨g.mem.trans h.mem, g.job.trans h.job, g.ctxs.trans h.ctxs, g.ccr.trans h.ccr, g.slow.trans h.slow,
    fun f hf => (g.fget f hf).trans (h.fget f hf)⟩

section
variable {s t : State} (h : SameReads s t)
include h

theorem SameReads.rdN (a k : Nat) : t.rdN a k = s.rdN a k := rdN_congr (rd8_congr h.mem) k a

theorem SameReads.rdGranule (a : Nat) : t.rdGranule a = s.rdGranule a := rdGranule_congr h.mem a

theorem SameReads.fbit (g : Fld) (hg : g.base < 0x14000000) : t.fbit g = s.fbit g := by
  rw [State.fbit, h.fget g hg]
  rfl

theorem SameReads.nu : t.nu = s.nu := by
  simp only [State.nu, h.fbit HULL_NORM_VALID (by decide), h.fget HULL_NORM_NU (by decide)]

theorem SameReads.image : t.image = s.image :=
  image_congr (congrArg JobRun.ctx h.job) h.ctxs

theorem SameReads.myImage : t.myImage = s.myImage := by
  simp only [State.myImage, h.image, h.fget HULL_ORCH_MODULE (by decide)]

theorem SameReads.lagEnt (k : Nat) (b : Bool) : t.lagEnt k b = s.lagEnt k b := by
  simp only [State.lagEnt, h.job]

theorem SameReads.readsOdd (e : TensorEnt) : t.readsOdd e = s.readsOdd e := by
  simp only [State.readsOdd, h.lagEnt, h.ccr]

theorem SameReads.readBase (e : TensorEnt) : t.readBase e = s.readBase e := by
  simp only [State.readBase, h.readsOdd]

theorem SameReads.writeBase (e : TensorEnt) : t.writeBase e = s.writeBase e := by
  simp only [State.writeBase, h.readsOdd]

theorem SameReads.statePlace (a : Nat) : t.statePlace a = s.statePlace a := by
  simp only [State.statePlace, h.myImage, h.readBase, h.slow, h.fget HULL_ORCH_MODULE (by decide)]

theorem SameReads.factorPlace (a : Nat) : t.factorPlace a = s.factorPlace a := by
  simp only [State.factorPlace, h.myImage, h.readBase, h.rdN, h.fget HULL_ORCH_MODULE (by decide)]

end

/-! ### A word under way -/

section
variable {n : Nat} {s t : State} (h : Begun n s t)
include h

theorem Begun.sram : SameSram s t := by
  obtain ⟨q, hq⟩ := h.tiles
  refine ⟨⟨?_, ?_, ?_, ?_⟩, ?_, ?_, ?_⟩ <;> rw [hq]

theorem Begun.flights : t.tiles.flights = s.tiles.flights := by
  obtain ⟨q, hq⟩ := h.tiles
  rw [hq]

theorem Begun.flightsTo (m a : Nat) : t.flightsTo m a = s.flightsTo m a := by
  simp only [State.flightsTo, h.flights]

theorem Begun.accElAt (m a i j x : Nat) : t.accElAt m a i j x = s.accElAt m a i j x := by
  simp only [State.accElAt, h.flightsTo, h.sram.accElOver]

/-- Registers other than the tile's TILE_SEQ. -/
theorem Begun.fget (g : Fld) (hg : g.base < 0x14000000) : t.fget g = s.fget g := by
  refine h.regs.fget g (fun hm => ?_)
  have e : seqKey n = 0x14100018 + n / 10 * 0x1000000 + n % 10 * 0x40000 := rfl
  have := List.mem_singleton.1 hm
  omega

theorem Begun.reads : SameReads s t :=
  ⟨h.parts .mem (by decide), h.parts .job (by decide), h.parts .ctxs (by decide), h.parts .ccr (by decide),
    h.parts .slow (by decide), h.fget⟩

theorem Begun.rdEl (m : Nat) (sram : Bool) (a wd i x : Nat) : t.rdEl m sram a wd i x = s.rdEl m sram a wd i x :=
  rdEl_congr h.reads.mem h.sram.lines h.sram.opLine m sram a wd i x

end

/-! ### The words as commands, and what a whole word leaves -/

/-- A word's issue found nothing due. -/
theorem issues_parts {s : State} {n : Nat} {w : Word256} {op : Nat} (h : Issues s n w op) :
    Inv s ∧ n < 80 ∧ s.runsWord n w op = true ∧ s.atIssue w = s.advance (s.issueAbs w) :=
  ⟨h.1, h.2.1, h.2.2.1, atIssue_settled h.2.2.2⟩

theorem filter_inTime_none (l : List Nat) (f : Nat → Nat) : l.filter (fun i => inTime none (f i)) = l :=
  List.filter_eq_self.2 (fun _ _ => rfl)

end Sys2Proof.Laws
end

section
/-! PROOFS. LOAD and EWISE (R483, R602). -/

namespace Sys2Proof.Laws

open Sys2Proof.Machine Sys2Proof.Safety

/-! ### LOAD -/

section
variable {s : State} {n : Nat} {w : Word256}

theorem exec_load (h : Issues s n w 0x20) :
    exec (.load n w) s = .next ((s.advance (s.issueAbs w)).veLoad n w (s.issueAbs w) none) := by
  obtain ⟨-, -, hr, ha⟩ := issues_parts h
  change Host.Outcome.next _ = _
  rw [if_pos hr, ha]

/-- The word under way behind its issue. -/
abbrev begun (s : State) (n : Nat) (w : Word256) (latency occ : Nat) : State :=
  (s.advance (s.issueAbs w)).veBegin n w (s.issueAbs w) latency occ none

theorem begun_begun (s : State) (n : Nat) (w : Word256) (latency occ : Nat) : Begun n s (begun s n w latency occ) :=
  (begun_veBegin n _ w _ latency occ none).advance

/-- One line of a LOAD. -/
def loadLine (n : Nat) (w : Word256) (c : Nat) (u : State) (i : Nat) : State :=
  u.setOpLine n (getBits (wX w) 0 17 + i) (u.rdGranule (u.statePlace (u.factorPlace (wA w + 256 * i)))) (wFmt w) (c + 488 + i)

/-- What the lines of a LOAD leave. -/
structure Loading (n l0 hi c : Nat) (s t : State) : Prop where
  parts : OnlyParts [.tiles] s t
  lines : OnlyLines n l0 hi s t
  before : ∀ l y, y < c + 488 → t.opLineAt n l y = s.opLineAt n l y
  tiles : ∃ l, t.tiles = { s.tiles with lines := l }

theorem Loading.refl (n l0 hi c : Nat) (s : State) : Loading n l0 hi c s s := ⟨.refl _ s, .refl _ _ _ s, fun _ _ _ => rfl, _, rfl⟩

theorem Loading.trans {n l0 hi c : Nat} {s t u : State} (h : Loading n l0 hi c s t) (g : Loading n l0 hi c t u) :
    Loading n l0 hi c s u := by
  obtain ⟨k, hk⟩ := h.tiles
  obtain ⟨l, hl⟩ := g.tiles
  exact ⟨h.parts.trans g.parts, h.lines.trans g.lines, fun m y hy => (g.before m y hy).trans (h.before m y hy), l, by rw [hl, hk]⟩

theorem loadLine_loading (n : Nat) (w : Word256) (c : Nat) (u : State) {i : Nat} (hi : i ≤ wY w)
    (hb : getBits (wX w) 0 17 + wY w < 98304) :
    Loading n (getBits (wX w) 0 17) (getBits (wX w) 0 17 + wY w + 1) c u (loadLine n w c u i) :=
  ⟨setOpBits_onlyParts _ _ _ _ _ _ _ _, setOpBits_onlyLines _ _ _ _ _ _ _ _ (by omega) (by omega) (by omega),
    fun l y hy => opLineAt_setOpBits_not _ _ _ _ _ _ _ _ _ _ _ (.inr (by omega)), _, rfl⟩

theorem veLoad_eq (s : State) (n : Nat) (w : Word256) (hb : getBits (wX w) 0 17 + wY w < 98304) :
    (s.advance (s.issueAbs w)).veLoad n w (s.issueAbs w) none =
      (range' 0 (wY w + 1)).foldl (loadLine n w (s.issueAbs w)) (begun s n w 488 (wY w + 1)) := by
  have hbad : loadBad w = false := by
    simp only [loadBad, pastSram, decide_eq_false_iff_not]
    omega
  unfold State.veLoad
  refine (if_neg (by rw [hbad]; decide)).trans ?_
  rw [filter_inTime_none]
  rfl

/-- Each line that a LOAD fills, on the cycle that it lands. -/
theorem loadLines_read {s0 u : State} (n : Nat) (w : Word256) (c : Nat) (hu : SameReads s0 u) (hwf : ElementsWf u) :
    ∀ i ∈ range' 0 (wY w + 1),
      (((range' 0 (wY w + 1)).foldl (loadLine n w c) u).opBits n (getBits (wX w) 0 17 + i) (c + 488 + i) 0 2048,
        ((range' 0 (wY w + 1)).foldl (loadLine n w c) u).opTagAt n (getBits (wX w) 0 17 + i) (c + 488 + i)) =
      ((s0.rdGranule (s0.statePlace (s0.factorPlace (wA w + 256 * i)))).toNat % 2 ^ 2048, wFmt w) := by
  refine foldl_writes (P := fun v => ElementsWf v ∧ SameReads s0 v) (write := loadLine n w c)
    (read := fun v i => (v.opBits n (getBits (wX w) 0 17 + i) (c + 488 + i) 0 2048, v.opTagAt n (getBits (wX w) 0 17 + i) (c + 488 + i)))
    (val := fun i => ((s0.rdGranule (s0.statePlace (s0.factorPlace (wA w + 256 * i)))).toNat % 2 ^ 2048, wFmt w))
    (fun v i _ hv => ?_) (fun v i _ hv => ?_) (fun v i _ j _ hij => ?_) (range'_nodup _ _) ⟨hwf, hu⟩
  · exact ⟨elementsWf_setOpBits _ _ _ _ _ _ _ _ hv.1, hv.2.trans (.of_parts (setOpBits_onlyParts _ _ _ _ _ _ _ _) (by decide))⟩
  · refine Prod.ext ?_ (opTagAt_setOpBits_at v n _ 0 2048 _ _ _ hv.1.2)
    rw [← hv.2.factorPlace, ← hv.2.statePlace, ← rdGranule_congr hv.2.mem]
    exact opBits_setOpBits_at v n _ 0 2048 _ (wFmt w) _ hv.1.2 (le_refl _)
  · have hk : lineKey n (getBits (wX w) 0 17 + i) ≠ lineKey n (getBits (wX w) 0 17 + j) := by
      unfold lineKey
      omega
    refine Prod.ext ?_ (opTagAt_setOpBits_not v n _ _ _ _ _ _ n _ _ (.inl hk))
    simp only [State.opBits, loadLine, State.setOpLine]
    rw [opLineAt_setOpBits_not v n _ _ _ _ _ _ n _ _ (.inl hk)]

/-- Settles O19: a LOAD fills its lines one after another. -/
theorem loadFillsOperandLines : Obligations.LoadFillsOperandLines := by
  intro s n w h
  refine ⟨fun hbad => ⟨_, exec_load h, ?_⟩, fun hok => ⟨_, exec_load h, ?_⟩⟩
  · have hb : loadBad w = true := by
      simp only [loadBad, pastSram, decide_eq_true_eq]
      omega
    unfold State.veLoad
    rw [if_pos hb]
    exact (begun_begun s n w 488 (wY w + 1)).streamFaults h.1 w
  · rw [veLoad_eq s n w hok]
    have hb := begun_begun s n w 488 (wY w + 1)
    have hread := loadLines_read n w (s.issueAbs w) hb.reads (Inv.elementsWf (hb.inv h.1))
    have hl : Loading n (getBits (wX w) 0 17) (getBits (wX w) 0 17 + wY w + 1) (s.issueAbs w) (begun s n w 488 (wY w + 1))
        ((range' 0 (wY w + 1)).foldl (loadLine n w (s.issueAbs w)) (begun s n w 488 (wY w + 1))) :=
      foldl_keeps_rel (Loading.refl _ _ _ _) (fun _ _ _ => Loading.trans)
        (fun u i hi => loadLine_loading n w _ u (by have := (mem_range' _ _ _).1 hi; omega) hok) _
    generalize (range' 0 (wY w + 1)).foldl (loadLine n w (s.issueAbs w)) (begun s n w 488 (wY w + 1)) = t at hread hl
    obtain ⟨hparts, hlines, hbefore, ls, htiles⟩ := hl
    refine ⟨fun i hi => ?_, fun l y hy => ?_, ?_, ?_, ?_, ?_, ?_, ?_⟩
    · obtain ⟨hline, htag⟩ := Prod.ext_iff.1 (hread i ((mem_range' _ _ _).2 (by omega)))
      simp only at hline htag
      refine ⟨?_, htag⟩
      rw [opLineAt_of_opBits, hline]
      exact BitVec.eq_of_toNat_eq (by rw [BitVec.toNat_ofNat, Nat.mod_mod]; exact Nat.mod_eq_of_lt (BitVec.isLt _))
    · exact (hbefore l y hy).trans (opLineAt_congr hb.sram.lines hb.sram.opLine n l y)
    · exact (OnlyLines.of_tiles hb.sram.lines hb.sram.opLine hb.sram.opTag).trans hlines
    · rw [hparts .run (by decide)]
      rfl
    · rw [htiles]
      exact hb.sram.acc
    · rw [htiles]
      exact hb.flights
    · exact hb.parts.then hparts (by decide)
    · exact fun k hk => (regGet_congr (hparts .regs (by decide)) k).trans (hb.regs k hk)

end

/-! ### Words that write elements -/

/-- What a word leaves that has written elements of one place. -/
structure ElementsLeft (n : Nat) (sram : Bool) (a wd e : Nat) (s t : State) : Prop where
  bytes : sram = false → OnlyBytes a (e * (wd / 8)) s t ∧ t.tiles.lines = s.tiles.lines
  lines : sram = true → t.mem = s.mem ∧ OnlyLines n a (a + ceilDiv (e * wd) 2048) s t
  opLine : t.tiles.opLine = s.tiles.opLine
  acc : t.tiles.acc = s.tiles.acc
  flights : t.tiles.flights = s.tiles.flights
  parts : OnlyParts [.now, .regs, .mem, .run, .tiles, .outbox] s t

theorem elements_left {n : Nat} {sram : Bool} {a wd e : Nat} {s u v t : State} (hb : Begun n s u) (hw : WroteEls n sram a wd e u v)
    (ha : AfterWrites v t) : ElementsLeft n sram a wd e s t := by
  have htiles : ∃ l, v.tiles = { u.tiles with lines := l } := by
    cases sram
    · exact ⟨_, (hw.mem rfl).2⟩
    · exact (hw.lines rfl).2.2
  obtain ⟨l, hl⟩ := htiles
  refine ⟨fun hs => ⟨ha.onlyBytes ((OnlyBytes.of_mem _ _ hb.reads.mem).trans (hw.mem hs).1), ?_⟩, fun hs => ?_, ?_, ?_, ?_, ?_⟩
  · rw [ha.lines, (hw.mem hs).2]
    exact hb.sram.lines
  · obtain ⟨hm, ho, -⟩ := hw.lines hs
    exact ⟨ha.mem.trans (hm.trans hb.reads.mem),
      ha.onlyLines ((OnlyLines.of_tiles hb.sram.lines hb.sram.opLine hb.sram.opTag).trans ho)⟩
  · rw [ha.opLine, hl]
    exact hb.sram.opLine
  · rw [ha.acc, hl]
    exact hb.sram.acc
  · rw [ha.flights, hl]
    exact hb.flights
  · exact ((hb.parts.mono (by decide)).trans (hw.parts.mono (by decide))).trans (ha.parts.mono (by decide))

/-! ### EWISE -/

section
variable {s : State} {n : Nat} {w : Word256} {loc : VeLoc}

theorem exec_ewise (h : Issues s n w 0x60) :
    exec (.ewise n w loc) s = .next ((s.advance (s.issueAbs w)).veEwise n w (s.issueAbs w) loc none) := by
  obtain ⟨-, -, hr, ha⟩ := issues_parts h
  change Host.Outcome.next _ = _
  rw [if_pos hr, ha]

/-- Does the word's function come at 512 elements a cycle (R625)? -/
abbrev ewiseSlow (w : Word256) : Bool :=
  getBits (wX w) 0 8 == 3 || getBits (wX w) 0 8 == 4 || getBits (wX w) 0 8 == 5 || getBits (wX w) 0 8 == 7

abbrev ewiseRate (w : Word256) : Nat := if ewiseSlow w then 512 else 2048

abbrev ewiseLat (w : Word256) : Nat := if ewiseSlow w then 24 else 8

/-- An element's result on state `u`. -/
def ewiseEl (u : State) (n : Nat) (w : Word256) (loc : VeLoc) (c i : Nat) : FpRes :=
  let a := if loc.aSram then wA w else u.statePlace (wA w)
  let b := if loc.bSram then wB w else u.statePlace (wB w)
  let k := c + i / ewiseRate w
  ewiseFn (getBits (wX w) 0 8) (u.rdEl n loc.aSram a 32 i k) (u.rdEl n loc.bSram b 32 i k)
    (u.rdEl n true (getBits (wX w) 8 17) 32 i k)

theorem Begun.ewiseEl {u : State} (h : Begun n s u) (c i : Nat) : ewiseEl u n w loc c i = ewiseEl s n w loc c i := by
  simp only [Laws.ewiseEl, h.rdEl, h.reads.statePlace]

/-- Is the word no EWISE of R483, or does a place of it run past operand SRAM? -/
abbrev ewiseFaulty (w : Word256) (loc : VeLoc) : Bool :=
  ewiseBad w || elsBad loc.aSram (wA w) 32 (64 * (wY w + 1)) || elsBad loc.bSram (wB w) 32 (64 * (wY w + 1))

theorem ewiseFaulty_iff (w : Word256) (loc : VeLoc) : ewiseFaulty w loc = false ↔
    getBits (wX w) 0 8 ≤ 8 ∧ getBits (wX w) 8 17 + wY w < 98304 ∧ elsBad loc.aSram (wA w) 32 (64 * (wY w + 1)) = false ∧
      elsBad loc.bSram (wB w) 32 (64 * (wY w + 1)) = false := by
  simp only [ewiseFaulty, ewiseBad, pastSram, Bool.or_eq_false_iff, decide_eq_false_iff_not, Nat.not_lt, and_assoc]
  refine and_congr_right (fun _ => and_congr_left (fun _ => ?_))
  omega

theorem veEwise_faulty (hf : ewiseFaulty w loc = true) : (s.advance (s.issueAbs w)).veEwise n w (s.issueAbs w) loc none =
    (begun s n w (ewiseLat w) (ceilDiv (64 * (wY w + 1)) (ewiseRate w))).streamFault n w := by
  unfold State.veEwise
  exact if_pos hf

theorem veEwise_eq (hf : ewiseFaulty w loc = false) :
    ∃ c, (s.advance (s.issueAbs w)).veEwise n w (s.issueAbs w) loc none =
      ((range' 0 (64 * (wY w + 1))).foldl (fun v i => v.wrEl n true (getBits (wX w) 8 17) 32 (wFmt w) i
        (ewiseEl (begun s n w (ewiseLat w) (ceilDiv (64 * (wY w + 1)) (ewiseRate w))) n w loc (s.issueAbs w) i).bits
          (s.issueAbs w + i / ewiseRate w + ewiseLat w))
        (begun s n w (ewiseLat w) (ceilDiv (64 * (wY w + 1)) (ewiseRate w)))).veEvents n (wPhase w) c := by
  unfold State.veEwise
  apply Exists.intro
  refine ((if_neg (fun e => absurd (hf.symm.trans e) (by decide))).trans ?_)
  rw [filter_inTime_none]
  refine congrArg (fun v => State.veEvents v n (wPhase w) _) ?_
  exact foldl_fst_eq (fun _ _ => rfl) _ _

/-- Settles O29: EWISE writes each element of its destination lines. -/
theorem ewiseAppliesItsFunction : Obligations.EwiseAppliesItsFunction := by
  intro s n w loc h
  have hb := begun_begun s n w (ewiseLat w) (ceilDiv (64 * (wY w + 1)) (ewiseRate w))
  have hslow : (getBits (wX w) 0 8 = 3 ∨ getBits (wX w) 0 8 = 4 ∨ getBits (wX w) 0 8 = 5 ∨ getBits (wX w) 0 8 = 7) ↔
      ewiseSlow w = true := by
    simp only [ewiseSlow, Bool.or_eq_true, beq_iff_eq, or_assoc]
  simp only [hslow]
  refine ⟨fun hbad => ⟨_, exec_ewise h, ?_⟩, fun hok => ⟨_, exec_ewise h, ?_⟩⟩
  · rw [veEwise_faulty (eq_true_of_ne_false (mt (ewiseFaulty_iff w loc).1 hbad))]
    exact hb.streamFaults h.1 w
  · obtain ⟨hfn, hdst, hla, hlb⟩ := hok
    obtain ⟨c, he⟩ := veEwise_eq (s := s) (n := n) ((ewiseFaulty_iff w loc).2 ⟨hfn, hdst, hla, hlb⟩)
    have hceil : ceilDiv (64 * (wY w + 1) * 32) 2048 = wY w + 1 := by
      unfold ceilDiv
      omega
    have helse : elsBad true (getBits (wX w) 8 17) 32 (64 * (wY w + 1)) = false := by
      simp only [elsBad, pastSram, hceil, Bool.true_and, decide_eq_false_iff_not]
      omega
    obtain ⟨hread, hwrote⟩ := elements_written (idx := fun i => i) (n := n) (sram := true) (a := getBits (wX w) 8 17) (wd := 32) (tag := wFmt w)
      (e := 64 * (wY w + 1)) (val := fun i => (ewiseEl (begun s n w (ewiseLat w) (ceilDiv (64 * (wY w + 1)) (ewiseRate w))) n w
        loc (s.issueAbs w) i).bits) (at_ := fun i => s.issueAbs w + i / ewiseRate w + ewiseLat w) (l := range' 0 (64 * (wY w + 1)))
      (by decide) (Inv.elementsWf (hb.inv h.1)) helse (fun i hi => by have := (mem_range' _ _ _).1 hi; omega) (fun _ _ _ _ e => e) (range'_nodup _ _)
    have ha := afterWrites_veEvents ((range' 0 (64 * (wY w + 1))).foldl (fun v i => v.wrEl n true (getBits (wX w) 8 17) 32 (wFmt w) i
        (ewiseEl (begun s n w (ewiseLat w) (ceilDiv (64 * (wY w + 1)) (ewiseRate w))) n w loc (s.issueAbs w) i).bits
          (s.issueAbs w + i / ewiseRate w + ewiseLat w))
        (begun s n w (ewiseLat w) (ceilDiv (64 * (wY w + 1)) (ewiseRate w)))) n (wPhase w) c
    rw [he]
    have hleft := elements_left hb hwrote ha
    obtain ⟨-, hlines, -, hacc, hflights, hparts⟩ := hleft
    obtain ⟨hmem, honly⟩ := hlines rfl
    refine ⟨fun i hi => ?_, ?_, hacc, hflights, ?_⟩
    · rw [ha.rdEl]
      refine (hread i ((mem_range' _ _ _).2 (by omega))).trans ?_
      rw [hb.ewiseEl]
      rfl
    · rw [hceil] at honly
      exact honly
    · intro p hp
      by_cases hm : p = .mem
      · subst hm
        exact hmem
      · exact hparts p (by simp_all)

end

end Sys2Proof.Laws
end

section
/-! PROOFS. CONVERT, SCALE and SUMSQ (R76, R93 to R98, R187, R283, R602). -/

namespace Sys2Proof.Laws

open Sys2Proof.Machine Sys2Proof.Safety

theorem dstBad_false {sram : Bool} {a wd e : Nat} (h : dstBad sram a wd e = false) : elsBad sram a wd e = false := by
  simp only [dstBad, Bool.or_eq_false_iff] at h
  exact h.1

/-! ### CONVERT -/

section
variable {s : State} {n : Nat} {w : Word256} {loc : VeLoc} {scales : Nat} {iota : Word32}

theorem exec_convert (h : Issues s n w 0x30) : exec (.convert n w loc scales iota) s =
    .next ((s.advance (s.issueAbs w)).veConvert n w (s.issueAbs w) loc scales iota none) := by
  obtain ⟨-, -, hr, ha⟩ := issues_parts h
  change Host.Outcome.next _ = _
  rw [if_pos hr, ha]

/-- The source's value is the same whatever has been counted. -/
theorem convSource_fst (nu io : Option Nat) (x : Nat) (c : EvCnt) : (convSource nu io x c).1 = (convSource nu io x {}).1 := by
  cases nu <;> cases io <;> rfl

abbrev convNu (w : Word256) : Bool := getBits (wX w) 4 1 == 1

abbrev convIota (w : Word256) : Bool := getBits (wX w) 5 1 == 1

abbrev convLat (w : Word256) : Nat := if convNu w || convIota w then 16 else 12

/-- The word under way. -/
abbrev convBegun (s : State) (n : Nat) (w : Word256) : State := begun s n w (convLat w) (ceilDiv (64 * (wY w + 1)) 1024)

/-- The result of an element on state `u`. -/
def convEl (u : State) (n : Nat) (w : Word256) (loc : VeLoc) (scales : Nat) (iota : Word32) (c i : Nat) : FpRes :=
  let a := if loc.aSram then wA w else u.statePlace (wA w)
  let sc := (u.rd8 (scales + i / 128)).toNat
  convert (getBits (wX w) 0 4) (wFmt w) (convSource (if convNu w then u.nu else none) (if convIota w then some iota.toNat else none)
    (u.rdEl n loc.aSram a (fmtWidth (getBits (wX w) 0 4)) i (c + i / 1024)) {}).1 sc sc

theorem Begun.convEl {u : State} (h : Begun n s u) (c i : Nat) :
    convEl u n w loc scales iota c i = convEl s n w loc scales iota c i := by
  simp only [Laws.convEl, h.rdEl, h.reads.statePlace, h.reads.nu, rd8_congr h.reads.mem]

/-- Is the pair none of R93, or does a place of the word not hold its elements? -/
abbrev convFaulty (w : Word256) (loc : VeLoc) : Bool :=
  !convPairOk (getBits (wX w) 0 4) (wFmt w) || ((convNu w || convIota w) && getBits (wX w) 0 4 != 0) ||
    elsBad loc.aSram (wA w) (fmtWidth (getBits (wX w) 0 4)) (64 * (wY w + 1)) ||
    dstBad loc.bSram (wB w) (fmtWidth (wFmt w)) (64 * (wY w + 1))

theorem scaled_iff (w : Word256) : 0 < getBits (wX w) 4 2 ↔ (convNu w || convIota w) = true := by
  simp only [convNu, convIota, Bool.or_eq_true, beq_iff_eq]
  unfold getBits
  omega

theorem convFaulty_iff (w : Word256) (loc : VeLoc) : convFaulty w loc = false ↔
    convPairOk (getBits (wX w) 0 4) (wFmt w) = true ∧ (0 < getBits (wX w) 4 2 → getBits (wX w) 0 4 = 0) ∧
      elsBad loc.aSram (wA w) (fmtWidth (getBits (wX w) 0 4)) (64 * (wY w + 1)) = false ∧
      dstBad loc.bSram (wB w) (fmtWidth (wFmt w)) (64 * (wY w + 1)) = false := by
  rw [scaled_iff]
  simp only [convFaulty, Bool.or_eq_false_iff, Bool.and_eq_false_imp, Bool.not_eq_false', bne_eq_false_iff_eq, and_assoc]

theorem veConvert_faulty (hf : convFaulty w loc = true) : (s.advance (s.issueAbs w)).veConvert n w (s.issueAbs w) loc scales iota none =
    (convBegun s n w).streamFault n w := by
  unfold State.veConvert
  exact if_pos hf

/-- The elements of a CONVERT, written. -/
abbrev convWritten (s : State) (n : Nat) (w : Word256) (loc : VeLoc) (scales : Nat) (iota : Word32) : State :=
  (range' 0 (64 * (wY w + 1))).foldl (fun v i => v.wrEl n loc.bSram (wB w) (fmtWidth (wFmt w)) (wFmt w) i
    (convEl (convBegun s n w) n w loc scales iota (s.issueAbs w) i).bits (s.issueAbs w + convLat w + i / 1024)) (convBegun s n w)

theorem veConvert_eq (hf : convFaulty w loc = false) :
    ∃ c k, (s.advance (s.issueAbs w)).veConvert n w (s.issueAbs w) loc scales iota none =
      (((convWritten s n w loc scales iota).memSpan loc.bSram (wB w) (fmtWidth (wFmt w)) (64 * (wY w + 1))
        (s.issueAbs w + convLat w + (64 * (wY w + 1) - 1) / 1024) none).convEvents n (wFmt w) (wPhase w) c).veEvents n (wPhase w) k := by
  unfold State.veConvert
  apply Exists.intro
  apply Exists.intro
  refine ((if_neg (fun e => absurd (hf.symm.trans e) (by decide))).trans ?_)
  rw [filter_inTime_none]
  refine congrArg (fun v => State.veEvents (State.convEvents (State.memSpan v loc.bSram (wB w) (fmtWidth (wFmt w)) (64 * (wY w + 1))
    (s.issueAbs w + convLat w + (64 * (wY w + 1) - 1) / 1024) none) n (wFmt w) (wPhase w) _) n (wPhase w) _) ?_
  refine foldl_fst_eq (fun x i => ?_) _ _
  dsimp only
  rw [convSource_fst]
  rfl

/-- Settles O22: CONVERT writes each element of its target. -/
theorem convertRoundsEachElementOnce : Obligations.ConvertRoundsEachElementOnce := by
  intro s n w loc scales iota h
  have hb : Begun n s (convBegun s n w) := begun_begun s n w _ _
  refine ⟨fun hbad => ⟨_, exec_convert h, ?_⟩, fun hok => ⟨_, exec_convert h, ?_⟩⟩
  · rw [veConvert_faulty (eq_true_of_ne_false (mt (convFaulty_iff w loc).1 hbad))]
    exact hb.streamFaults h.1 w
  · have hdst := dstBad_false hok.2.2.2
    obtain ⟨c, k, he⟩ := veConvert_eq (s := s) (n := n) (scales := scales) (iota := iota) ((convFaulty_iff w loc).2 hok)
    obtain ⟨hread, hwrote⟩ := elements_written (idx := fun i => i) (n := n) (sram := loc.bSram) (a := wB w) (wd := fmtWidth (wFmt w)) (tag := wFmt w)
      (e := 64 * (wY w + 1)) (val := fun i => (convEl (convBegun s n w) n w loc scales iota (s.issueAbs w) i).bits)
      (at_ := fun i => s.issueAbs w + convLat w + i / 1024) (l := range' 0 (64 * (wY w + 1)))
      (evenWidth_fmtWidth _) (Inv.elementsWf (hb.inv h.1)) hdst (fun i hi => by have := (mem_range' _ _ _).1 hi; omega)
      (fun _ _ _ _ e => e) (range'_nodup _ _)
    have ha : AfterWrites (convWritten s n w loc scales iota) _ :=
      ((afterWrites_memSpan _ loc.bSram (wB w) (fmtWidth (wFmt w)) (64 * (wY w + 1))
        (s.issueAbs w + convLat w + (64 * (wY w + 1) - 1) / 1024) none).trans (afterWrites_convEvents _ n (wFmt w) (wPhase w) c)).trans
        (afterWrites_veEvents _ n (wPhase w) k)
    rw [he]
    obtain ⟨hbytes, hlines, hopLine, hacc, hflights, hparts⟩ := elements_left hb hwrote ha
    have hwidth : fmtWidth (wFmt w) / 8 = fmtBytes (wFmt w) := Nat.mul_div_cancel_left _ (by decide)
    rw [hwidth] at hbytes
    refine ⟨fun i hi => ?_, hbytes, hlines, hopLine, hacc, hflights, hparts⟩
    have hscaled : (if 0 < getBits (wX w) 4 2 then 16 else 12) = convLat w := by simp only [scaled_iff, convLat]
    rw [ha.rdEl, hscaled, Nat.add_right_comm]
    refine (hread i ((mem_range' _ _ _).2 (by omega))).trans ?_
    rw [hb.convEl]
    simp only [convEl, convNu, convIota, beq_iff_eq]

end

/-! ### SCALE -/

/-- Elements that lie apart from the written ones stand, wherever each of the two lies. -/
theorem WroteEls.rdEl_apart {n : Nat} {sram aSram : Bool} {a b wd e i k x : Nat} {s t : State} (h : WroteEls n sram b wd e s t)
    (hn : n < 80) (hk : EvenWidth k)
    (hmem : aSram = false → sram = false → Apart (a + i * (k / 8)) (k / 8) b (e * (wd / 8)))
    (hsram : aSram = true → sram = true → a + i * k / 2048 < 98304 ∧
      (a + i * k / 2048 < b ∨ b + ceilDiv (e * wd) 2048 ≤ a + i * k / 2048)) :
    t.rdEl n aSram a k i x = s.rdEl n aSram a k i x := by
  unfold State.rdEl
  cases aSram <;> cases sram
  · exact (h.mem rfl).1.rdN (hmem rfl rfl)
  · exact rdN_congr (rd8_congr (h.lines rfl).1) _ _
  · exact opBits_congr (by rw [(h.mem rfl).2]) (by rw [(h.mem rfl).2]) ..
  · obtain ⟨hlt, hout⟩ := hsram rfl rfl
    simp only [if_true, State.opBits]
    rw [((h.lines rfl).2.1 n _ x hn hlt (.inr hout)).1]

section
variable {s : State} {n : Nat} {w : Word256} {loc : VeLoc}

theorem exec_scale (h : Issues s n w 0x31) :
    exec (.scale n w loc) s = .next ((s.advance (s.issueAbs w)).veScale n w (s.issueAbs w) loc none) := by
  obtain ⟨-, -, hr, ha⟩ := issues_parts h
  change Host.Outcome.next _ = _
  rw [if_pos hr, ha]

/-- The word under way. -/
abbrev scaleBegun (s : State) (n : Nat) (w : Word256) : State := begun s n w 16 (ceilDiv (wY w + 1) 16)

/-- The scale byte of a block, of elements from place `a` on of state `u` (R76). -/
def scaleOf (u : State) (n : Nat) (w : Word256) (loc : VeLoc) (a c k : Nat) : Byte :=
  Config.scaleByte (getBits (wX w) 0 8)
    ((range' 0 128).map (fun i => BitVec.ofNat 32 (u.rdEl n loc.aSram a 32 (128 * k + i) (c + k / 16))))

/-- A scale byte written. -/
def scaleWrite (n : Nat) (w : Word256) (loc : VeLoc) (a c : Nat) (v : State) (k : Nat) : State :=
  v.wrEl n loc.bSram (wB w) 8 (wFmt w) k (scaleOf v n w loc a c k).toNat (c + 16 + k / 16)

abbrev scaleSource (s : State) (w : Word256) (loc : VeLoc) : Nat := if loc.aSram then wA w else s.statePlace (wA w)

theorem veScale_eq (hf : (elsBad loc.aSram (wA w) 32 (128 * (wY w + 1)) || dstBad loc.bSram (wB w) 8 (wY w + 1)) = false) :
    (s.advance (s.issueAbs w)).veScale n w (s.issueAbs w) loc none =
      ((range' 0 (wY w + 1)).foldl (scaleWrite n w loc (scaleSource (scaleBegun s n w) w loc) (s.issueAbs w)) (scaleBegun s n w)).memSpan
        loc.bSram (wB w) 8 (wY w + 1) (s.issueAbs w + 16 + (wY w + 1 - 1) / 16) none := by
  unfold State.veScale
  refine (if_neg (fun e => absurd (hf.symm.trans e) (by decide))).trans ?_
  rw [filter_inTime_none]
  rfl

theorem memSpan_onlyParts (s : State) (sram : Bool) (a wd e last : Nat) (lim : Option Nat) :
    OnlyParts [.tiles] s (s.memSpan sram a wd e last lim) := .ite (.refl _ s) (withTiles_onlyParts s _)

/-- Every scale byte is of the elements as the issue found them, the source and the target lying apart. -/
theorem scaleWrites_read {u : State} {c : Nat} (hn : n < 80) (hwf : ElementsWf u) (a : Nat)
    (hsrc : elsBad loc.aSram a 32 (128 * (wY w + 1)) = false) (hdst : elsBad loc.bSram (wB w) 8 (wY w + 1) = false)
    (hapart : loc.aSram = loc.bSram → Apart a (if loc.aSram then 2 * (wY w + 1) else 512 * (wY w + 1)) (wB w)
      (if loc.aSram then ceilDiv (wY w + 1) 256 else wY w + 1)) :
    (∀ k ∈ range' 0 (wY w + 1), ((range' 0 (wY w + 1)).foldl (scaleWrite n w loc a c) u).rdEl n loc.bSram (wB w) 8 k
      (c + 16 + k / 16) = (scaleOf u n w loc a c k).toNat) ∧
    WroteEls n loc.bSram (wB w) 8 (wY w + 1) u ((range' 0 (wY w + 1)).foldl (scaleWrite n w loc a c) u) := by
  have hscale : ∀ v, WroteEls n loc.bSram (wB w) 8 (wY w + 1) u v → ∀ k, k < wY w + 1 →
      scaleOf v n w loc a c k = scaleOf u n w loc a c k := fun v hv k hk => by
    unfold scaleOf
    refine congrArg _ (List.map_congr_left (fun i hi => ?_))
    have hi' := (mem_range' _ _ _).1 hi
    rw [hv.rdEl_apart hn (by decide) (fun ha hb => ?_) (fun ha hb => ?_)]
    · have h2 := hapart (by rw [ha, hb])
      simp only [ha, Bool.false_eq_true, if_false] at h2
      omega
    · have h2 := hapart (by rw [ha, hb])
      have h3 : a + ceilDiv (128 * (wY w + 1) * 32) 2048 ≤ 98304 := by
        simpa [elsBad, pastSram, ha] using hsrc
      simp only [ha, if_true] at h2
      unfold ceilDiv at h2 h3 ⊢
      omega
  have hstep : ∀ v, WroteEls n loc.bSram (wB w) 8 (wY w + 1) u v → ∀ k ∈ range' 0 (wY w + 1),
      WroteEls n loc.bSram (wB w) 8 (wY w + 1) u (scaleWrite n w loc a c v k) := fun v hv k hk =>
    hv.trans (wrEl_wrote v n _ _ 8 _ k _ _ (by decide) (by have := (mem_range' _ _ _).1 hk; omega) hdst)
  refine ⟨foldl_writes (P := fun v => ElementsWf v ∧ WroteEls n loc.bSram (wB w) 8 (wY w + 1) u v)
    (read := fun v k => v.rdEl n loc.bSram (wB w) 8 k (c + 16 + k / 16)) (val := fun k => (scaleOf u n w loc a c k).toNat)
    (fun v k hk hv => ⟨elementsWf_wrEl _ _ _ _ _ _ _ _ _ hv.1, hstep v hv.2 k hk⟩) (fun v k hk hv => ?_)
    (fun v i _ j _ hij => rdEl_wrEl_ne v n _ _ 8 _ _ (by decide) i j _ _ hij) (range'_nodup _ _) ⟨hwf, .refl _ _ _ _ _ u⟩, ?_⟩
  · refine (rdEl_wrEl_same v n _ _ 8 _ _ (by decide) k _ hv.1).trans ?_
    rw [hscale v hv.2 k (by have := (mem_range' _ _ _).1 hk; omega)]
    exact Nat.mod_eq_of_lt (BitVec.isLt _)
  · exact List.foldlRecOn _ _ (.refl _ _ _ _ _ u) (fun v hv k hk => hstep v hv k hk)

theorem scaleSource_elsBad (u : State) (w : Word256) (loc : VeLoc) (e : Nat) :
    elsBad loc.aSram (scaleSource u w loc) 32 e = elsBad loc.aSram (wA w) 32 e := by
  unfold scaleSource elsBad
  cases loc.aSram <;> rfl

/-- What SCALE leaves. -/
theorem scale_scales (h : Issues s n w 0x31) (ha : elsBad loc.aSram (wA w) 32 (128 * (wY w + 1)) = false)
    (hd : dstBad loc.bSram (wB w) 8 (wY w + 1) = false)
    (hapart : loc.aSram = loc.bSram → Apart (scaleSource s w loc) (if loc.aSram then 2 * (wY w + 1) else 512 * (wY w + 1)) (wB w)
      (if loc.aSram then ceilDiv (wY w + 1) 256 else wY w + 1)) :
    ∃ t, exec (.scale n w loc) s = .next t ∧
      (∀ k, k < wY w + 1 → t.rdEl n loc.bSram (wB w) 8 k (s.issueAbs w + 16 + k / 16) =
        (scaleOf s n w loc (scaleSource s w loc) (s.issueAbs w) k).toNat) ∧
      ElementsLeft n loc.bSram (wB w) 8 (wY w + 1) s t ∧ OnlyParts [.now, .regs, .mem, .run, .tiles] s t := by
  have hb : Begun n s (scaleBegun s n w) := begun_begun s n w _ _
  have hsrc : scaleSource (scaleBegun s n w) w loc = scaleSource s w loc := by
    simp only [scaleSource, hb.reads.statePlace]
  refine ⟨_, exec_scale h, ?_⟩
  rw [veScale_eq (by rw [ha, hd]; rfl), hsrc]
  obtain ⟨hread, hwrote⟩ := scaleWrites_read (c := s.issueAbs w) h.2.1 (Inv.elementsWf (hb.inv h.1)) (scaleSource s w loc)
    ((scaleSource_elsBad s w loc _).trans ha) (dstBad_false hd) hapart
  generalize (range' 0 (wY w + 1)).foldl (scaleWrite n w loc (scaleSource s w loc) (s.issueAbs w)) (scaleBegun s n w) = v at hread hwrote
  have hafter := afterWrites_memSpan v loc.bSram (wB w) 8 (wY w + 1) (s.issueAbs w + 16 + (wY w + 1 - 1) / 16) none
  refine ⟨fun k hk => ?_, elements_left hb hwrote hafter, ?_⟩
  · rw [hafter.rdEl, hread k ((mem_range' _ _ _).2 (by omega))]
    unfold scaleOf
    simp only [hb.rdEl]
  · exact ((hb.parts.mono (by decide)).trans (hwrote.parts.mono (by decide))).trans
      ((memSpan_onlyParts v loc.bSram (wB w) 8 (wY w + 1) _ none).mono (by decide))

theorem scale_faults (h : Issues s n w 0x31) (hf : elsBad loc.aSram (wA w) 32 (128 * (wY w + 1)) = true ∨
    dstBad loc.bSram (wB w) 8 (wY w + 1) = true) : ∃ t, exec (.scale n w loc) s = .next t ∧ StreamFaults n w s t := by
  refine ⟨_, exec_scale h, ?_⟩
  unfold State.veScale
  rw [if_pos (by simpa using hf)]
  exact (begun_begun s n w _ _).streamFaults h.1 w

/-! ### SUMSQ -/

theorem exec_sumsq {bucket : Bool} (h : Issues s n w 0x41) : exec (.sumsq n w loc bucket) s =
    .next ((s.advance (s.issueAbs w)).veSumsq n w (s.issueAbs w) loc bucket none) := by
  obtain ⟨-, -, hr, ha⟩ := issues_parts h
  change Host.Outcome.next _ = _
  rw [if_pos hr, ha]

theorem readNu_fst (nu : Option Nat) (x : Nat) (c : EvCnt) : (readNu nu x c).1 = (readNu nu x {}).1 := by
  cases nu <;> rfl

/-- A sum is the same whatever has been counted before it. -/
theorem seqSum_fst (l : List Nat) (c : EvCnt) : (seqSum l c).1 = (seqSum l {}).1 := by
  have hfold : ∀ (r : List Nat) (x : Nat) (c d : EvCnt),
      (r.foldl (fun (acc : Nat × EvCnt) y => let t := fpAdd acc.1 y; (t.bits, acc.2.add t.ev)) (x, c)).1 =
      (r.foldl (fun (acc : Nat × EvCnt) y => let t := fpAdd acc.1 y; (t.bits, acc.2.add t.ev)) (x, d)).1 := by
    intro r
    induction r with
    | nil => exact fun _ _ _ => rfl
    | cons y r ih => exact fun x c d => ih _ _ _
  cases l with
  | nil => rfl
  | cons x r => exact hfold r x c {}

/-- A term of a sum as it is added: read under ν, and squared where the word says so. -/
def sumTerm (nu : Option Nat) (square : Bool) (v : Nat) : Nat :=
  let x := (readNu nu v {}).1
  if square then (fpMul x x).bits else x

theorem map_sumTerm (nu : Option Nat) (square : Bool) (l : List Nat) : l.map (sumTerm nu square) =
    if square = true then (l.map (fun v => (readNu nu v {}).1)).map (fun x => (fpMul x x).bits) else l.map (fun v => (readNu nu v {}).1) := by
  cases square <;> simp [sumTerm]

theorem sumTerms_eq (nu : Option Nat) (square : Bool) (l : List Nat) (acc : List Nat × EvCnt) :
    (l.foldl (fun (acc : List Nat × EvCnt) v =>
      let x := readNu nu v acc.2
      if square then let q := fpMul x.1 x.1; (acc.1 ++ [q.bits], x.2.add q.ev) else (acc.1 ++ [x.1], x.2)) acc).1 =
      acc.1 ++ l.map (sumTerm nu square) := by
  induction l generalizing acc with
  | nil => simp
  | cons v l ih =>
    rw [List.foldl_cons, ih]
    have h := readNu_fst nu v acc.2
    cases square <;> simp [sumTerm, h]

theorem Begun.sumEls {u : State} (h : Begun n s u) (a e c : Nat) : u.sumEls n loc a e c = s.sumEls n loc a e c := by
  simp only [State.sumEls, h.rdEl, h.reads.statePlace, h.reads.myImage, h.reads.rdN]

abbrev sumLast (s : State) (w : Word256) : Nat := s.issueAbs w + 12 + (ceilDiv (64 * (wY w + 1)) 1024 - 1)

abbrev sumBegun (s : State) (n : Nat) (w : Word256) : State := begun s n w 12 (ceilDiv (64 * (wY w + 1)) 1024)

/-- Has the image no plan of the word's number, or does a place of it run past operand SRAM or lie in the control region? -/
abbrev sumFaulty (s : State) (w : Word256) (loc : VeLoc) : Bool :=
  (s.image.bind (fun f => imgRedPlan f (getBits (wX w) 0 12))).isNone ||
    (loc.src == .words && elsBad loc.aSram (wA w) 32 (64 * (wY w + 1))) || dstBad loc.bSram (wB w) 32 1

/-- The terms of a SUMSQ, in order. -/
abbrev sumTerms (s : State) (n : Nat) (w : Word256) (loc : VeLoc) (bucket : Bool) : List Nat :=
  (s.sumEls n loc (wA w) (64 * (wY w + 1)) (s.issueAbs w)).map (sumTerm (if bucket then s.nu else none) (getBits (wX w) 12 1 == 1))

theorem veSumsq_faulty {bucket : Bool} (hf : sumFaulty s w loc = true) :
    (s.advance (s.issueAbs w)).veSumsq n w (s.issueAbs w) loc bucket none = (sumBegun s n w).streamFault n w := by
  unfold State.veSumsq
  exact if_pos hf

theorem veSumsq_eq {bucket : Bool} (hf : sumFaulty s w loc = false) :
    ∃ c k, (s.advance (s.issueAbs w)).veSumsq n w (s.issueAbs w) loc bucket none =
      (((sumBegun s n w).wrEl n loc.bSram (wB w) 32 (wFmt w) 0 (seqSum (sumTerms s n w loc bucket) c).1 (sumLast s w)).memSpan
        loc.bSram (wB w) 32 1 (sumLast s w) none).veEvents n (wPhase w) k := by
  have hb : Begun n s (sumBegun s n w) := begun_begun s n w _ _
  unfold State.veSumsq
  apply Exists.intro
  apply Exists.intro
  refine ((if_neg (fun h => absurd (hf.symm.trans h) (by decide))).trans ((if_pos rfl).trans ?_))
  dsimp only
  rw [sumTerms_eq, List.nil_append]
  change State.veEvents (State.memSpan (State.wrEl (sumBegun s n w) n loc.bSram (wB w) 32 (wFmt w) 0
    (seqSum (List.map (sumTerm (if bucket then (sumBegun s n w).nu else none) (getBits (wX w) 12 1 == 1))
      ((sumBegun s n w).sumEls n loc (wA w) (64 * (wY w + 1)) (s.issueAbs w))) _).1 _) loc.bSram (wB w) 32 1 _ none) n _ _ = _
  rw [hb.sumEls, hb.reads.nu]

theorem sumFaulty_iff : sumFaulty s w loc = true ↔ s.image.bind (fun f => imgRedPlan f (getBits (wX w) 0 12)) = none ∨
    loc.src = .words ∧ elsBad loc.aSram (wA w) 32 (64 * (wY w + 1)) = true ∨ dstBad loc.bSram (wB w) 32 1 = true := by
  simp only [sumFaulty, Bool.or_eq_true, Bool.and_eq_true, Option.isNone_iff_eq_none, beq_iff_eq, or_assoc]

end

/-- Settles O23: SCALE writes a byte for each block, SUMSQ one sum. -/
theorem scaleAndSumsqReduceTheirSource : Obligations.ScaleAndSumsqReduceTheirSource := by
  intro s n w loc bucket
  refine ⟨fun h => ⟨fun hf => scale_faults h hf, fun ha hd hapart => ?_⟩, fun h => ⟨fun hf => ⟨_, exec_sumsq h, ?_⟩, fun hok => ?_⟩⟩
  · obtain ⟨t, he, hread, hleft, hparts⟩ := scale_scales h ha hd hapart
    refine ⟨t, he, hread, fun hs => ?_, fun hs => ?_, ⟨hleft.opLine, hleft.acc, hleft.flights⟩, hparts⟩
    · simpa using hleft.bytes hs
    · have hc : ceilDiv ((wY w + 1) * 8) 2048 = ceilDiv (wY w + 1) 256 := by
        unfold ceilDiv
        omega
      exact hc ▸ hleft.lines hs
  · rw [veSumsq_faulty (sumFaulty_iff.2 hf)]
    exact (begun_begun s n w _ _).streamFaults h.1 w
  · have hf : sumFaulty s w loc = false := eq_false_of_ne_true (mt sumFaulty_iff.1 hok)
    have hd : elsBad loc.bSram (wB w) 32 1 = false := by
      simp only [sumFaulty, Bool.or_eq_false_iff] at hf
      exact dstBad_false hf.2
    obtain ⟨c, k, he⟩ := veSumsq_eq (n := n) (bucket := bucket) hf
    have hb : Begun n s (sumBegun s n w) := begun_begun s n w _ _
    have hwrote := wrEl_wrote (sumBegun s n w) n loc.bSram (wB w) 32 (wFmt w) 0 (seqSum (sumTerms s n w loc bucket) c).1
      (sumLast s w) (e := 1) (by decide) (by decide) hd
    have ha := (afterWrites_memSpan _ loc.bSram (wB w) 32 1 (sumLast s w) none).trans
      (afterWrites_veEvents (((sumBegun s n w).wrEl n loc.bSram (wB w) 32 (wFmt w) 0 (seqSum (sumTerms s n w loc bucket) c).1
        (sumLast s w)).memSpan loc.bSram (wB w) 32 1 (sumLast s w) none) n (wPhase w) k)
    refine ⟨_, exec_sumsq h, ?_⟩
    rw [he]
    have hleft := elements_left hb hwrote ha
    refine ⟨?_, hleft.bytes, hleft.lines, ⟨hleft.opLine, hleft.acc, hleft.flights⟩, hleft.parts⟩
    rw [ha.rdEl, rdEl_wrEl_same _ n _ _ 32 _ _ (by decide) 0 _ (Inv.elementsWf (hb.inv h.1)), seqSum_fst]
    simp only [sumTerms, map_sumTerm, beq_iff_eq]

end Sys2Proof.Laws
end

section
/-! PROOFS. Accumulator elements (R110), and TREE (R157, R158). -/

namespace Sys2Proof.Laws

open Sys2Proof.Machine Sys2Proof.Safety

/-! ### Accumulator elements -/

theorem accKey_inj {n m a b i j k l : Nat} (ha : a < 256) (hb : b < 256) (hi : i < 128) (hj : j < 128) (hk : k < 128) (hl : l < 128)
    (h : accKey n a i j = accKey m b k l) : n = m ∧ a = b ∧ i = k ∧ j = l := by
  unfold accKey at h
  omega

theorem accEl_setAccEl_same (s : State) (n a i j v x : Nat) (h : tabWf (fun _ => (0 : Word32)) s.tiles.acc = true) :
    (s.setAccEl n a i j v x).accEl n a i j = v % 2 ^ 32 :=
  (congrArg BitVec.toNat (tabGet_put (fun _ => (0 : Word32)) _ _ _ h)).trans (BitVec.toNat_ofNat _ _)

theorem accEl_setAccEl_ne (s : State) (n a i j v x m b k l : Nat) (h : accKey m b k l ≠ accKey n a i j) :
    (s.setAccEl n a i j v x).accEl m b k l = s.accEl m b k l :=
  congrArg BitVec.toNat (tabGet_tabPut_ne (fun _ => (0 : Word32)) _ _ _ h _)

/-- From `s`, only elements of accumulator tile `a` of tile `n` have changed. -/
structure AccTouched (n a : Nat) (s t : State) : Prop where
  others : ∀ m b, m < 80 → b < 256 → (m ≠ n ∨ b ≠ a) → ∀ i, i < 128 → ∀ j, j < 128 → t.accEl m b i j = s.accEl m b i j
  wf : tabWf (fun _ => (0 : Word32)) s.tiles.acc = true → tabWf (fun _ => (0 : Word32)) t.tiles.acc = true
  tiles : ∃ x y, t.tiles = { s.tiles with acc := x, accOld := y }
  parts : OnlyParts [.tiles] s t

theorem AccTouched.refl (n a : Nat) (s : State) : AccTouched n a s s :=
  ⟨fun _ _ _ _ _ _ _ _ _ => rfl, id, ⟨_, _, rfl⟩, .refl _ s⟩

theorem AccTouched.trans {n a : Nat} {s t u : State} (h : AccTouched n a s t) (g : AccTouched n a t u) : AccTouched n a s u := by
  obtain ⟨x, y, hx⟩ := h.tiles
  obtain ⟨z, v, hz⟩ := g.tiles
  exact ⟨fun m b hm hb hne i hi j hj => (g.others m b hm hb hne i hi j hj).trans (h.others m b hm hb hne i hi j hj),
    fun hw => g.wf (h.wf hw), ⟨z, v, by rw [hz, hx]⟩, h.parts.trans g.parts⟩

theorem setAccEl_touched (s : State) {n a i j : Nat} (v x : Nat) (ha : a < 256) (hi : i < 128) (hj : j < 128) :
    AccTouched n a s (s.setAccEl n a i j v x) := by
  refine ⟨fun m b _ hb hne k hk l hl => accEl_setAccEl_ne s n a i j v x m b k l (fun e => ?_), tabWf_tabPut _ _ _ _, ⟨_, _, rfl⟩,
    withTiles_onlyParts s _⟩
  obtain ⟨h1, h2, -⟩ := accKey_inj hb ha hk hl hi hj e
  omega

/-- Elements of one accumulator tile written, each with its value. -/
theorem accEls_written {α : Type} {n a : Nat} {row col val at_ : α → Nat} {l : List α} {s : State} (ha : a < 256)
    (hrow : ∀ i ∈ l, row i < 128 ∧ col i < 128) (hinj : ∀ i ∈ l, ∀ k ∈ l, row i = row k → col i = col k → i = k) (hnd : l.Nodup)
    (hwf : tabWf (fun _ => (0 : Word32)) s.tiles.acc = true) :
    (∀ i ∈ l, (l.foldl (fun s i => s.setAccEl n a (row i) (col i) (val i) (at_ i)) s).accEl n a (row i) (col i) = val i % 2 ^ 32) ∧
      AccTouched n a s (l.foldl (fun s i => s.setAccEl n a (row i) (col i) (val i) (at_ i)) s) :=
  ⟨foldl_writes (P := fun s => tabWf (fun _ => (0 : Word32)) s.tiles.acc = true) (read := fun s i => s.accEl n a (row i) (col i))
      (val := fun i => val i % 2 ^ 32) (fun s i _ h => tabWf_tabPut _ _ _ _ h)
      (fun s i _ h => accEl_setAccEl_same s n a _ _ _ _ h)
      (fun s i hi k hk hik => accEl_setAccEl_ne s n a _ _ _ _ n a _ _ (fun e => by
        obtain ⟨-, -, h1, h2⟩ := accKey_inj ha ha (hrow i hi).1 (hrow i hi).2 (hrow k hk).1 (hrow k hk).2 e
        exact hik (hinj i hi k hk h1 h2))) hnd hwf,
    foldl_keeps_rel (AccTouched.refl n a) (fun _ _ _ => AccTouched.trans)
      (fun t i hi => setAccEl_touched t _ _ ha (hrow i hi).1 (hrow i hi).2) s⟩

/-! ### TREE -/

theorem treeLevel_fst : ∀ (l : List Nat) (c : EvCnt), (treeLevel l c).1 = (treeLevel l {}).1
  | [], _ => rfl
  | [_], _ => rfl
  | a :: b :: r, c => by
    simp only [treeLevel]
    rw [treeLevel_fst r (c.add _), treeLevel_fst r (EvCnt.add {} _)]

/-- A tree's sum is the same whatever has been counted before it. -/
theorem treeSum_fst (k : Nat) (l : List Nat) (c : EvCnt) : (treeSum k l c).1 = (treeSum k l {}).1 := by
  induction k generalizing l c with
  | zero => rfl
  | succ k ih =>
    match l with
    | [] => rfl
    | [_] => rfl
    | a :: b :: r =>
      change (treeSum k (treeLevel (a :: b :: r) c).1 (treeLevel (a :: b :: r) c).2).1 =
        (treeSum k (treeLevel (a :: b :: r) {}).1 (treeLevel (a :: b :: r) {}).2).1
      rw [treeLevel_fst, ih, ← ih]

section
variable {s : State} {n : Nat} {w : Word256} {elems : Nat}

theorem exec_tree (h : Issues s n w 0x40) :
    exec (.tree n w elems) s = .next ((s.advance (s.issueAbs w)).veTree n w (s.issueAbs w) elems none) := by
  obtain ⟨-, -, hr, ha⟩ := issues_parts h
  change Host.Outcome.next _ = _
  rw [if_pos hr, ha]

/-- The plan that the word names, its parts and its target. -/
abbrev treePlan (s : State) (w : Word256) : Option RedPlanImg := s.image.bind (fun f => imgRedPlan f (getBits (wX w) 0 12))

abbrev treeParts (p : RedPlanImg) : List Nat := p.parts.map (fun e => bvBits e 64 57)

abbrev treeTarget (p : RedPlanImg) : Nat := bvBits p.ent 64 64

abbrev treeControl (p : RedPlanImg) (elems : Nat) : Bool :=
  getBits (treeTarget p) 63 1 == 0 && inControlRegion (getBits (treeTarget p) 0 57) (4 * elems)

abbrev treeReady (s : State) (w : Word256) (p : RedPlanImg) (elems : Nat) : Bool :=
  (treeParts p).all (fun a => s.slotComplete a (4 * elems) (s.issueAbs w))

abbrev treeLat (p : RedPlanImg) : Nat := 484 + 8 * (Nat.log2 ((treeParts p).length - 1) + 1)

abbrev treeBegun (s : State) (n : Nat) (w : Word256) (p : RedPlanImg) (elems : Nat) : State :=
  begun s n w (treeLat p) (((treeParts p).length - 1) * ceilDiv elems 2048)

/-- The sum of the parts' elements `i`. -/
abbrev treeVal (s : State) (p : RedPlanImg) (i : Nat) : Nat :=
  (treeSum (Nat.log2 (treeParts p).length + 1) ((treeParts p).map (fun a => s.rdN (a + 4 * i) 4)) {}).1

abbrev issued (s : State) (n : Nat) (w : Word256) : State := (s.advance (s.issueAbs w)).issue n w (s.issueAbs w)

theorem issued_begun (s : State) (n : Nat) (w : Word256) : Begun n s (issued s n w) := (begun_issue n _ w _).advance

theorem veTree_none (hp : treePlan s w = none) : (s.advance (s.issueAbs w)).veTree n w (s.issueAbs w) elems none =
    (issued s n w).streamFault n w := by
  unfold State.veTree
  have hp' : (s.advance (s.issueAbs w)).image.bind (fun f => imgRedPlan f (getBits (wX w) 0 12)) = none := hp
  rw [hp']

section
variable {p : RedPlanImg} (hp : treePlan s w = some p)
include hp

theorem veTree_control (hc : treeControl p elems = true) : (s.advance (s.issueAbs w)).veTree n w (s.issueAbs w) elems none =
    (issued s n w).streamFault n w := by
  unfold State.veTree
  have hp' : (s.advance (s.issueAbs w)).image.bind (fun f => imgRedPlan f (getBits (wX w) 0 12)) = some p := hp
  rw [hp']
  exact if_pos hc

theorem veTree_waits (hc : treeControl p elems = false) (hr : treeReady s w p elems = false) :
    (s.advance (s.issueAbs w)).veTree n w (s.issueAbs w) elems none = (issued s n w).item (20 + n / 10) neverDone (wFence w) := by
  unfold State.veTree
  have hp' : (s.advance (s.issueAbs w)).image.bind (fun f => imgRedPlan f (getBits (wX w) 0 12)) = some p := hp
  rw [hp']
  have hr' : (!(treeParts p).all (fun a => (s.advance (s.issueAbs w)).slotComplete a (4 * elems) (s.issueAbs w))) = true :=
    congrArg (fun b => !b) hr
  exact (if_neg (fun h => absurd (hc.symm.trans h) (by decide))).trans (if_pos hr')

theorem veTree_eq (hc : treeControl p elems = false) (hr : treeReady s w p elems = true) :
    ∃ c, (s.advance (s.issueAbs w)).veTree n w (s.issueAbs w) elems none =
      (((range' 0 elems).foldl (fun v i => v.redTarget p i (treeVal s p i) (s.issueAbs w + treeLat p + i / 2048))
        (treeBegun s n w p elems)).memSpan (getBits (treeTarget p) 63 1 == 1) (getBits (treeTarget p) 0 57) 32 elems
        (s.issueAbs w + treeLat p + (elems - 1) / 2048) none).veEvents n (wPhase w) c := by
  have hb : Begun n s (treeBegun s n w p elems) := begun_begun s n w _ _
  unfold State.veTree
  have hp' : (s.advance (s.issueAbs w)).image.bind (fun f => imgRedPlan f (getBits (wX w) 0 12)) = some p := hp
  rw [hp']
  have hr' : ¬ (!(treeParts p).all (fun a => (s.advance (s.issueAbs w)).slotComplete a (4 * elems) (s.issueAbs w))) = true := by
    have e : (treeParts p).all (fun a => (s.advance (s.issueAbs w)).slotComplete a (4 * elems) (s.issueAbs w)) = true := hr
    rw [e]
    decide
  apply Exists.intro
  refine ((if_neg (fun h => absurd (hc.symm.trans h) (by decide))).trans ((if_neg hr').trans ?_))
  rw [filter_inTime_none]
  refine congrArg (fun v => State.veEvents (State.memSpan v (getBits (treeTarget p) 63 1 == 1) (getBits (treeTarget p) 0 57) 32 elems
    (s.issueAbs w + treeLat p + (elems - 1) / 2048) none) n (wPhase w) _) ?_
  refine foldl_fst_eq (fun x i => ?_) _ _
  dsimp only
  rw [treeSum_fst, treeVal]
  simp only [← hb.reads.rdN]

end

theorem redTarget_mem (v : State) {p : RedPlanImg} (ht : getBits (treeTarget p) 63 1 = 0) (i x y : Nat) :
    v.redTarget p i x y = v.wrEl n false (getBits (treeTarget p) 0 57) 32 0 i x y := by
  have hne : ¬ (getBits (treeTarget p) 63 1 == 1) = true := by rw [ht]; decide
  refine (if_neg hne).trans ?_
  unfold State.wrEl
  rw [Nat.mul_comm 4 i]
  rfl

theorem redTarget_acc (v : State) {p : RedPlanImg} (ht : getBits (treeTarget p) 63 1 = 1) (i x y : Nat) :
    v.redTarget p i x y = v.setAccEl (10 * getBits (treeTarget p) 0 3 + getBits (treeTarget p) 3 4) (getBits (treeTarget p) 7 8)
      (i / 128) (i % 128) x y := if_pos (by rw [ht]; decide)

/-- A tree into memory. -/
theorem tree_memory (h : Issues s n w 0x40) {p : RedPlanImg} (hp : treePlan s w = some p) (hc : treeControl p elems = false)
    (hr : treeReady s w p elems = true) (ht : getBits (treeTarget p) 63 1 = 0) :
    ∃ t, exec (.tree n w elems) s = .next t ∧
      (∀ i, i < elems → t.rdN (getBits (treeTarget p) 0 57 + 4 * i) 4 = treeVal s p i % 2 ^ 32) ∧
      ElementsLeft n false (getBits (treeTarget p) 0 57) 32 elems s t := by
  obtain ⟨c, he⟩ := veTree_eq (n := n) hp hc hr
  have hb : Begun n s (treeBegun s n w p elems) := begun_begun s n w _ _
  refine ⟨_, exec_tree h, ?_⟩
  rw [he]
  have hfold : (fun (v : State) i => v.redTarget p i (treeVal s p i) (s.issueAbs w + treeLat p + i / 2048)) =
      fun v i => v.wrEl n false (getBits (treeTarget p) 0 57) 32 0 i (treeVal s p i) (s.issueAbs w + treeLat p + i / 2048) := by
    funext v i
    exact redTarget_mem v ht _ _ _
  rw [hfold]
  obtain ⟨hread, hwrote⟩ := elements_written (idx := fun i => i) (n := n) (sram := false) (a := getBits (treeTarget p) 0 57) (wd := 32) (tag := 0)
    (e := elems) (val := treeVal s p) (at_ := fun i => s.issueAbs w + treeLat p + i / 2048) (l := range' 0 elems)
    (by decide) (Inv.elementsWf (hb.inv h.1)) rfl (fun i hi => by have := (mem_range' _ _ _).1 hi; omega) (fun _ _ _ _ e => e) (range'_nodup _ _)
  generalize (range' 0 elems).foldl (fun v i => v.wrEl n false (getBits (treeTarget p) 0 57) 32 0 i (treeVal s p i)
    (s.issueAbs w + treeLat p + i / 2048)) (treeBegun s n w p elems) = v at hread hwrote
  have ha := (afterWrites_memSpan v (getBits (treeTarget p) 63 1 == 1) (getBits (treeTarget p) 0 57) 32 elems
    (s.issueAbs w + treeLat p + (elems - 1) / 2048) none).trans (afterWrites_veEvents _ n (wPhase w) c)
  refine ⟨fun i hi => ?_, elements_left hb hwrote ha⟩
  rw [rdN_congr (rd8_congr ha.mem), Nat.mul_comm 4 i]
  exact hread i ((mem_range' _ _ _).2 (by omega))

/-- A tree into an accumulator tile. -/
theorem tree_accumulator (h : Issues s n w 0x40) {p : RedPlanImg} (hp : treePlan s w = some p)
    (hr : treeReady s w p elems = true) (ht : getBits (treeTarget p) 63 1 = 1) (hle : elems ≤ 16384) :
    ∃ u t, exec (.tree n w elems) s = .next t ∧ Begun n s u ∧
      (∀ i, i < elems → t.accEl (10 * getBits (treeTarget p) 0 3 + getBits (treeTarget p) 3 4) (getBits (treeTarget p) 7 8) (i / 128)
        (i % 128) = treeVal s p i % 2 ^ 32) ∧
      ∃ v, AccTouched (10 * getBits (treeTarget p) 0 3 + getBits (treeTarget p) 3 4) (getBits (treeTarget p) 7 8) u v ∧
        OnlyParts [.regs, .run, .outbox] v t := by
  have hc : treeControl p elems = false := by simp [treeControl, ht]
  obtain ⟨c, he⟩ := veTree_eq (n := n) hp hc hr
  have hb : Begun n s (treeBegun s n w p elems) := begun_begun s n w _ _
  refine ⟨_, _, exec_tree h, hb, ?_⟩
  rw [he]
  have hfold : (fun (v : State) i => v.redTarget p i (treeVal s p i) (s.issueAbs w + treeLat p + i / 2048)) =
      fun v i => v.setAccEl (10 * getBits (treeTarget p) 0 3 + getBits (treeTarget p) 3 4) (getBits (treeTarget p) 7 8)
        (i / 128) (i % 128) (treeVal s p i) (s.issueAbs w + treeLat p + i / 2048) := by
    funext v i
    exact redTarget_acc v ht _ _ _
  have hspan : ∀ v : State, v.memSpan (getBits (treeTarget p) 63 1 == 1) (getBits (treeTarget p) 0 57) 32 elems
      (s.issueAbs w + treeLat p + (elems - 1) / 2048) none = v := fun v => if_pos (by rw [ht]; decide)
  rw [hfold, hspan]
  obtain ⟨hread, htouched⟩ := accEls_written (n := 10 * getBits (treeTarget p) 0 3 + getBits (treeTarget p) 3 4)
    (a := getBits (treeTarget p) 7 8) (row := fun i => i / 128) (col := fun i => i % 128) (val := treeVal s p)
    (at_ := fun i => s.issueAbs w + treeLat p + i / 2048) (l := range' 0 elems) (s := treeBegun s n w p elems) (getBits_lt _ _ 8)
    (fun i hi => by have := (mem_range' _ _ _).1 hi; omega) (fun i _ k _ h1 h2 => by omega) (range'_nodup _ _)
    (hb.inv h.1).1.2.2.2.2.1
  have hparts := veEvents_onlyParts ((range' 0 elems).foldl (fun v i => v.setAccEl (10 * getBits (treeTarget p) 0 3 +
    getBits (treeTarget p) 3 4) (getBits (treeTarget p) 7 8) (i / 128) (i % 128) (treeVal s p i)
      (s.issueAbs w + treeLat p + i / 2048)) (treeBegun s n w p elems)) n (wPhase w) c
  refine ⟨fun i hi => ?_, _, htouched, hparts⟩
  rw [(SameSram.of_tiles (hparts .tiles (by decide))).accEl]
  exact hread i ((mem_range' _ _ _).2 (by omega))

/-- Settles O24: TREE sums its parts into its target, or does not start. -/
theorem treeAddsThePartsPairwise : Obligations.TreeAddsThePartsPairwise := by
  intro s n w elems h
  refine ⟨fun hp => ⟨_, exec_tree h, ?_⟩, fun p hp => ⟨fun hc => ⟨_, exec_tree h, ?_⟩, fun hc hw => ⟨_, exec_tree h, ?_⟩,
    fun hc hw ht => ?_, fun hw ht hle => ?_⟩⟩
  · rw [veTree_none hp]
    exact (issued_begun s n w).streamFaults h.1 w
  · rw [veTree_control hp (by simpa [treeControl] using hc)]
    exact (issued_begun s n w).streamFaults h.1 w
  · have hr : treeReady s w p elems = false := by
      obtain ⟨a, ha, hne⟩ := hw
      exact List.all_eq_false.2 ⟨a, ha, by rw [hne]; decide⟩
    rw [veTree_waits hp (by simpa [treeControl] using hc) hr]
    have hb := (issued_begun s n w).item (20 + n / 10) neverDone (wFence w)
    exact ⟨rfl, hb.reads.mem, hb.sram.acc, hb.parts⟩
  · have hr : treeReady s w p elems = true := List.all_eq_true.2 (fun a ha => by
      by_contra hne
      exact hw ⟨a, ha, by simpa using hne⟩)
    obtain ⟨t, he, hread, hleft⟩ := tree_memory (n := n) h hp (by simpa [treeControl] using hc) hr ht
    obtain ⟨hbytes, hlines⟩ := hleft.bytes rfl
    rw [Nat.mul_comm] at hbytes
    exact ⟨t, he, hread, hbytes, hleft.acc, hleft.opLine, hlines, hleft.parts⟩
  · have hr : treeReady s w p elems = true := List.all_eq_true.2 (fun a ha => by
      by_contra hne
      exact hw ⟨a, ha, by simpa using hne⟩)
    obtain ⟨u, t, he, hb, hread, v, htouched, hparts⟩ := tree_accumulator (n := n) h hp hr ht hle
    obtain ⟨x, y, htiles⟩ := htouched.tiles
    have hsame := SameSram.of_tiles (hparts .tiles (by decide))
    refine ⟨t, he, hread, fun m a hm ha hne i hi j hj => ?_, ?_, ?_, ?_⟩
    · rw [hsame.accEl, htouched.others m a hm ha hne i hi j hj, hb.sram.accEl]
    · rw [hsame.opLine, htiles]
      exact hb.sram.opLine
    · rw [hsame.lines, htiles]
      exact hb.sram.lines
    · exact ((hb.parts.mono (by decide)).trans (htouched.parts.mono (by decide))).trans (hparts.mono (by decide))

end

end Sys2Proof.Laws
end

section
/-! PROOFS. READOUT (R82, R147, R483, R602). -/

namespace Sys2Proof.Laws

open Sys2Proof.Machine Sys2Proof.Safety

section
variable {s : State} {n : Nat} {w : Word256}

theorem exec_readout (h : Issues s n w 0x21) :
    exec (.readout n w) s = .next ((s.advance (s.issueAbs w)).veReadout n w (s.issueAbs w) none) := by
  obtain ⟨-, -, hr, ha⟩ := issues_parts h
  change Host.Outcome.next _ = _
  rw [if_pos hr, ha]

/-! ### The fields of a READOUT -/

abbrev roPair (w : Word256) : Bool := getBits (wX w) 1 1 == 1

abbrev roSram (w : Word256) : Bool := getBits (wX w) 2 1 == 1

abbrev roFmt (w : Word256) : Nat := if roPair w then 5 else wFmt w

abbrev roWd (w : Word256) : Nat := fmtWidth (roFmt w)

abbrev roLine (w : Word256) : Nat := getBits (wX w) 3 17

/-- Operand lines of a row. -/
abbrev roStep (w : Word256) : Nat := if isFp8 (roFmt w) then 1 else roWd w / 16

/-- Where the elements of a READOUT lie, in elements of their width from its first place on: an FP8 row takes half of a line. -/
abbrev roRow (w : Word256) : Nat := if roSram w && isFp8 (roFmt w) then 256 else 128

abbrev roBase (w : Word256) : Nat := if roSram w then roLine w else wA w

abbrev roIdx (w : Word256) (p : Nat × Nat) : Nat := roRow w * p.1 + p.2

/-- Where the model places row `i`. -/
abbrev roPlace (w : Word256) (i : Nat) : Nat :=
  if roSram w then (if isFp8 (roFmt w) then roLine w + i else roLine w + i * (roWd w / 16)) else wA w + i * 16 * roWd w

theorem roWd_fp8 (h : isFp8 (roFmt w) = true) : roWd w = 8 := by
  have hne : ¬ (roFmt w = 0 ∨ roFmt w = 5) := by
    simp only [isFp8, Bool.or_eq_true, beq_iff_eq] at h
    omega
  unfold roWd fmtWidth fmtBytes
  rw [if_neg (by simpa using hne), if_pos h]

theorem roWd_of_not_fp8 (h : isFp8 (roFmt w) = false) : roWd w = 16 ∨ roWd w = 32 ∨ roWd w = 64 := by
  unfold roWd fmtWidth fmtBytes
  rw [h]
  split
  · exact .inr (.inl rfl)
  · rw [if_neg (by decide)]
    split
    · exact .inr (.inr rfl)
    · exact .inl rfl

/-- An element of row `i`, written where the model writes it, is an element of the whole place. -/
theorem wrEl_roPlace (v : State) (tag i x y : Nat) {j : Nat} (hj : j < 128) :
    v.wrEl n (roSram w) (roPlace w i) (roWd w) tag j x y = v.wrEl n (roSram w) (roBase w) (roWd w) tag (roIdx w (i, j)) x y := by
  unfold roPlace roBase roIdx roRow
  cases hs : roSram w
  · have hwd : 8 ∣ roWd w := (evenWidth_fmtWidth _).2.2
    obtain ⟨b, hb⟩ := hwd
    simp only [State.wrEl, Bool.false_eq_true, if_false, Bool.false_and]
    rw [hb, Nat.mul_div_cancel_left _ (by decide)]
    congr 1
    ring
  · cases hf : isFp8 (roFmt w)
    · simp only [State.wrEl, if_true, Bool.true_and, Bool.false_eq_true, if_false]
      rcases roWd_of_not_fp8 hf with e | e | e <;> rw [e] <;> congr 1 <;> omega
    · simp only [State.wrEl, if_true, Bool.true_and]
      rw [roWd_fp8 hf]
      congr 1 <;> omega

/-- The element of row `i` and column `j` as it is read out on state `u` (R147). -/
def roEl (u : State) (n : Nat) (w : Word256) (c : Nat) (p : Nat × Nat) : FpRes :=
  readoutEl (roFmt w) (roPair w) (u.accElAt n (wAcc w) p.1 p.2 (c + p.1))

theorem Begun.roEl {u : State} (h : Begun n s u) (c : Nat) (p : Nat × Nat) : roEl u n w c p = roEl s n w c p := by
  simp only [Laws.roEl, h.accElAt]

abbrev roBegun (s : State) (n : Nat) (w : Word256) : State := begun s n w 16 (wY w + 1)

/-- Is the word no READOUT of R483, or its target in the control region? -/
abbrev roFaulty (w : Word256) : Bool :=
  readoutBad w || (!roSram w && inControlRegion (wA w) ((wY w + 1) * 16 * roWd w))

theorem veReadout_faulty (hf : roFaulty w = true) :
    (s.advance (s.issueAbs w)).veReadout n w (s.issueAbs w) none = (roBegun s n w).streamFault n w := by
  unfold State.veReadout
  exact if_pos hf

/-- The elements of a READOUT, written. -/
abbrev roWritten (s : State) (n : Nat) (w : Word256) : State :=
  (range' 0 (wY w + 1) ×ˢ range' 0 128).foldl (fun v p => v.wrEl n (roSram w) (roBase w) (roWd w) (roFmt w) (roIdx w p)
    (roEl (roBegun s n w) n w (s.issueAbs w) p).bits (s.issueAbs w + 16 + p.1)) (roBegun s n w)

/-- Two folds that step alike on what the list holds agree. -/
theorem foldl_congr_mem {α β : Type} {f g : β → α → β} {l : List α} (h : ∀ b, ∀ a ∈ l, f b a = g b a) (b : β) :
    l.foldl f b = l.foldl g b := by
  induction l generalizing b with
  | nil => rfl
  | cons a l ih => rw [List.foldl_cons, List.foldl_cons, h b a (.head _), ih (fun b c hc => h b c (.tail _ hc))]

theorem foldl_fst_nested {α β γ : Type} {f : State × γ → α → β → State × γ} {g : State → α → β → State}
    (h : ∀ x a b, (f x a b).1 = g x.1 a b) (l : List α) (k : List β) (x : State × γ) :
    (l.foldl (fun x a => k.foldl (fun x b => f x a b) x) x).1 = (l ×ˢ k).foldl (fun s p => g s p.1 p.2) x.1 := by
  rw [foldl_product]
  exact foldl_fst_eq (fun x p => h x p.1 p.2) _ _

/-- The elements of some rows, written as the model writes them. -/
theorem roFold (u : State) (n : Nat) (w : Word256) (rows : List Nat) (c : Nat) :
    (rows.foldl (fun (acc : State × EvCnt) i => (range' 0 128).foldl (fun (acc : State × EvCnt) j =>
      (acc.1.wrEl n (roSram w) (roPlace w i) (roWd w) (roFmt w) j (roEl u n w c (i, j)).bits (c + 16 + i),
        acc.2.add (roEl u n w c (i, j)).ev)) acc) (u, {})).1 =
      (rows ×ˢ range' 0 128).foldl (fun v p => v.wrEl n (roSram w) (roBase w) (roWd w) (roFmt w) (roIdx w p)
        (roEl u n w c p).bits (c + 16 + p.1)) u := by
  refine Eq.trans (foldl_fst_nested (g := fun v i j => v.wrEl n (roSram w) (roPlace w i) (roWd w) (roFmt w) j
    (roEl u n w c (i, j)).bits (c + 16 + i)) ?_ rows (range' 0 128) (u, ({} : EvCnt))) ?_
  · exact fun _ _ _ => rfl
  refine foldl_congr_mem (fun v p hp => ?_) u
  have hj := (mem_range' _ _ _).1 (List.mem_product.1 hp).2
  exact wrEl_roPlace v _ _ _ _ (by omega)

theorem AfterWrites.ite {s a b : State} {c : Prop} [Decidable c] (ha : AfterWrites s a) (hb : AfterWrites s b) :
    AfterWrites s (if c then a else b) := by split <;> assumption

theorem veReadout_eq (hf : roFaulty w = false) : ∃ v, AfterWrites (roWritten s n w) v ∧
    (s.advance (s.issueAbs w)).veReadout n w (s.issueAbs w) none = v := by
  refine ⟨_, ?_, rfl⟩
  unfold State.veReadout
  extract_lets rows pair sram line f wd s1 fs el r t nans
  have hcond : (readoutBad w || !sram && inControlRegion (wA w) ((wY w + 1) * 16 * wd)) = false := hf
  have hs1 : s1 = roBegun s n w := rfl
  have hrows : rows = range' 0 (wY w + 1) := filter_inTime_none _ _
  clear_value s1 rows
  have hr : r.1 = roWritten s n w := by
    unfold roWritten
    rw [← hs1, ← hrows]
    exact roFold s1 n w rows (s.issueAbs w)
  have ht : AfterWrites (roWritten s n w) t := hr ▸ afterWrites_memSpan r.1 ..
  rw [hcond, if_neg Bool.false_ne_true]
  exact AfterWrites.ite (ht.trans (afterWrites_fmtShare ..)) (ht.trans (afterWrites_convEvents ..))

theorem roElements_fit (hf : readoutBad w = false) : elsBad (roSram w) (roBase w) (roWd w) (roRow w * (wY w + 1)) = false := by
  unfold readoutBad at hf
  simp only [Bool.or_eq_false_iff, Bool.and_eq_false_imp] at hf
  have hlast := hf.2
  unfold elsBad roBase roRow
  cases hs : roSram w
  · rfl
  · have h2 := hlast hs
    simp only [Bool.true_and, if_true]
    cases hp : isFp8 (roFmt w)
    · have hp' : isFp8 (if (getBits (wX w) 1 1 == 1) = true then 5 else wFmt w) = false := hp
      rw [hp'] at h2
      simp only [Bool.false_eq_true, if_false, pastSram, decide_eq_false_iff_not, Nat.not_lt] at h2 ⊢
      change roLine w + (wY w + 1) * (roWd w / 16) ≤ 98304 at h2
      unfold ceilDiv
      rcases roWd_of_not_fp8 hp with e | e | e <;> rw [e] at h2 ⊢ <;> omega
    · have hp' : isFp8 (if (getBits (wX w) 1 1 == 1) = true then 5 else wFmt w) = true := hp
      rw [hp'] at h2
      simp only [if_true, pastSram, decide_eq_false_iff_not, Nat.not_lt] at h2 ⊢
      change roLine w + (wY w + 1) ≤ 98304 at h2
      rw [roWd_fp8 hp]
      unfold ceilDiv
      omega

theorem roIdx_lt {p : Nat × Nat} (h1 : p.1 < wY w + 1) (h2 : p.2 < 128) : roIdx w p < roRow w * (wY w + 1) := by
  unfold roIdx roRow
  split <;> omega

theorem roIdx_inj {p q : Nat × Nat} (h1 : p.2 < 128) (h2 : q.2 < 128) (h : roIdx w p = roIdx w q) : p = q := by
  unfold roIdx roRow at h
  refine Prod.ext ?_ ?_ <;> split at h <;> omega

/-- What a READOUT leaves, element by element. -/
theorem readout_reads (h : Issues s n w 0x21) (hf : roFaulty w = false) : ∃ t, exec (.readout n w) s = .next t ∧
    (∀ i, i ≤ wY w → ∀ j, j < 128 → t.rdEl n (roSram w) (roBase w) (roWd w) (roIdx w (i, j)) (s.issueAbs w + 16 + i) =
      (roEl s n w (s.issueAbs w) (i, j)).bits % 2 ^ roWd w) ∧
    ElementsLeft n (roSram w) (roBase w) (roWd w) (roRow w * (wY w + 1)) s t := by
  obtain ⟨v, hv, he⟩ := veReadout_eq (s := s) (n := n) hf
  have hb : Begun n s (roBegun s n w) := begun_begun s n w _ _
  have hfit := roElements_fit (Bool.or_eq_false_iff.1 hf).1
  have hmem : ∀ p ∈ range' 0 (wY w + 1) ×ˢ range' 0 128, p.1 < wY w + 1 ∧ p.2 < 128 := fun p hp => by
    obtain ⟨h1, h2⟩ := List.mem_product.1 hp
    have := (mem_range' _ _ _).1 h1
    have := (mem_range' _ _ _).1 h2
    omega
  obtain ⟨hread, hwrote⟩ := elements_written (n := n) (sram := roSram w) (a := roBase w) (wd := roWd w) (tag := roFmt w)
    (e := roRow w * (wY w + 1)) (idx := roIdx w) (val := fun p => (roEl (roBegun s n w) n w (s.issueAbs w) p).bits)
    (at_ := fun p => s.issueAbs w + 16 + p.1) (l := range' 0 (wY w + 1) ×ˢ range' 0 128) (evenWidth_fmtWidth _)
    (Inv.elementsWf (hb.inv h.1)) hfit (fun p hp => roIdx_lt (hmem p hp).1 (hmem p hp).2)
    (fun p hp q hq => roIdx_inj (hmem p hp).2 (hmem q hq).2) ((range'_nodup _ _).product (range'_nodup _ _))
  refine ⟨v, (exec_readout h).trans (by rw [he]), fun i hi j hj => ?_, elements_left hb hwrote hv⟩
  rw [hv.rdEl]
  refine (hread (i, j) (List.mem_product.2 ⟨(mem_range' _ _ _).2 (by omega), (mem_range' _ _ _).2 (by omega)⟩)).trans ?_
  rw [hb.roEl]

end

/-- Settles O20: a READOUT stores its rows, in memory or in operand lines. -/
theorem readoutStoresItsRows : Obligations.ReadoutStoresItsRows := by
  intro s n w h
  refine ⟨fun hf => ⟨_, exec_readout h, ?_⟩, fun hbad hc hs => ?_, fun hbad hs => ?_⟩
  · have hbit : getBits (wX w) 2 1 = 0 ↔ ¬ getBits (wX w) 2 1 = 1 := by
      have := getBits_lt (wX w) 2 1
      omega
    rw [hbit] at hf
    rw [veReadout_faulty (by simpa [roFaulty, roSram, roWd, roFmt, roPair] using hf)]
    exact (begun_begun s n w _ _).streamFaults h.1 w
  · have hsram : roSram w = false := by simp [roSram, hs]
    have hf : roFaulty w = false := by
      refine Bool.or_eq_false_iff.2 ⟨hbad, ?_⟩
      rw [hsram]
      simpa [hs, roWd, roFmt, roPair] using hc
    obtain ⟨t, he, hread, hleft⟩ := readout_reads h hf
    have hrow : roRow w = 128 := by simp [roRow, hsram]
    have hbase : roBase w = wA w := by simp [roBase, hsram]
    rw [hsram, hbase, hrow] at hleft
    obtain ⟨b, hb⟩ := (evenWidth_fmtWidth (roFmt w)).2.2
    obtain ⟨hbytes, hlines⟩ := hleft.bytes rfl
    refine ⟨t, he, fun i hi j hj => ?_, ?_, hleft.acc, hleft.opLine, hlines, hleft.parts⟩
    · have hr := hread i hi j hj
      rw [hsram, hbase] at hr
      refine Eq.trans (congrArg (fun a => t.rdN a (roWd w / 8)) ?_) hr
      change wA w + 16 * roWd w * i + roWd w / 8 * j = wA w + (roRow w * i + j) * (roWd w / 8)
      rw [hrow, show roWd w = 8 * b from hb, Nat.mul_div_cancel_left _ (by decide)]
      ring
    · refine Eq.mp (congrArg (fun k => OnlyBytes (wA w) k s t) ?_) hbytes
      change 128 * (wY w + 1) * (roWd w / 8) = 16 * roWd w * (wY w + 1)
      rw [show roWd w = 8 * b from hb, Nat.mul_div_cancel_left _ (by decide)]
      ring
  · have hsram : roSram w = true := by simp [roSram, hs]
    have hf : roFaulty w = false := Bool.or_eq_false_iff.2 ⟨hbad, by rw [hsram]; rfl⟩
    obtain ⟨t, he, hread, hleft⟩ := readout_reads h hf
    have hbase : roBase w = roLine w := by simp [roBase, hsram]
    rw [hsram, hbase] at hleft
    obtain ⟨hmem, honly⟩ := hleft.lines rfl
    refine ⟨t, he, fun i hi j hj => ?_, ?_, hleft.acc, fun p hp => ?_⟩
    · have hr := hread i hi j hj
      rw [hsram, hbase] at hr
      refine Eq.trans (congrArg₂ (fun l o => t.opBits n l (s.issueAbs w + 16 + i) o (roWd w)) ?_ ?_) hr
      · change roLine w + roStep w * i + roWd w * j / 2048 = roLine w + (roRow w * i + j) * roWd w / 2048
        unfold roStep roRow
        rw [hsram]
        cases hp : isFp8 (roFmt w)
        · rcases roWd_of_not_fp8 hp with e | e | e <;> simp only [e, Bool.true_and, Bool.false_eq_true, if_false] <;> omega
        · simp only [roWd_fp8 hp, Bool.true_and, if_true]
          omega
      · change roWd w * j % 2048 = (roRow w * i + j) * roWd w % 2048
        unfold roRow
        rw [hsram]
        cases hp : isFp8 (roFmt w)
        · rcases roWd_of_not_fp8 hp with e | e | e <;> simp only [e, Bool.true_and, Bool.false_eq_true, if_false] <;> omega
        · simp only [roWd_fp8 hp, Bool.true_and, if_true]
          omega
    · refine honly.mono (le_refl _) ?_
      change roLine w + ceilDiv (roRow w * (wY w + 1) * roWd w) 2048 ≤ roLine w + roStep w * (wY w + 1)
      unfold roStep roRow ceilDiv
      rw [hsram]
      cases hp : isFp8 (roFmt w)
      · rcases roWd_of_not_fp8 hp with e | e | e <;> simp only [e, Bool.true_and, Bool.false_eq_true, if_false] <;> omega
      · simp only [roWd_fp8 hp, Bool.true_and, if_true]
        omega
    · by_cases hm : p = .mem
      · subst hm
        exact hmem
      · exact hleft.parts p (by simp_all)

end Sys2Proof.Laws
end

section
/-! PROOFS. Buckets in memory, and LOOKUP_ADD (R190, R193, R196). -/

namespace Sys2Proof.Laws

open Sys2Proof.Machine Sys2Proof.Safety

/-! ### Buckets -/

/-- A bucket of whole accumulator tiles, or of one row. -/
abbrev WholeTiles (rows e : Nat) : Prop := (7 ≤ e ∧ rows % 128 = 0) ∨ rows = 1

/-- Place of an element of a bucket of whole tiles: its tile, and the place within it. -/
theorem bucketOff_tiles {rows e : Nat} (he : 7 ≤ e) (hr : rows % 128 = 0) (i j : Nat) :
    bucketOff rows (2 ^ e) i j = (i / 128 * 2 ^ (e - 7) + j / 128) * 65536 + i % 128 * 512 + j % 128 * 4 := by
  have hne : ¬ (rows == 1) = true := by
    rw [beq_iff_eq]
    omega
  have hq : 2 ^ e / 128 = 2 ^ (e - 7) := (Nat.pow_div he (by decide) : 2 ^ e / 2 ^ 7 = _)
  rw [bucketOff, if_neg hne, hq]

theorem pow_tiles {e : Nat} (he : 7 ≤ e) : 2 ^ e = 128 * 2 ^ (e - 7) := by
  rw [show (128 : Nat) = 2 ^ 7 from rfl, ← Nat.pow_add, Nat.add_sub_cancel' he]

/-- An element lies within its bucket. -/
theorem bucketOff_lt {rows e i j : Nat} (h : WholeTiles rows e) (hi : i < rows) (hj : j < 2 ^ e) :
    bucketOff rows (2 ^ e) i j + 4 ≤ 4 * rows * 2 ^ e := by
  rcases h with ⟨he, hr⟩ | h1
  · rw [bucketOff_tiles he hr, pow_tiles he]
    rw [pow_tiles he] at hj
    generalize 2 ^ (e - 7) = q at hj ⊢
    obtain ⟨m, rfl⟩ := Nat.dvd_of_mod_eq_zero hr
    have hrow : (i / 128 + 1) * q ≤ m * q := Nat.mul_le_mul_right _ (by omega)
    have hsize : 4 * (128 * m) * (128 * q) = m * q * 65536 := by ring
    rw [Nat.add_mul, Nat.one_mul] at hrow
    rw [hsize]
    omega
  · subst h1
    have e1 : bucketOff 1 (2 ^ e) i j = 4 * j := rfl
    rw [e1]
    omega

/-- Two elements of a bucket have no byte in common. -/
theorem bucketOff_apart {rows e i j k l : Nat} (h : WholeTiles rows e) (hi : i < rows) (hj : j < 2 ^ e) (hk : k < rows)
    (hl : l < 2 ^ e) (hne : (i, j) ≠ (k, l)) (a : Nat) :
    Apart (a + bucketOff rows (2 ^ e) i j) 4 (a + bucketOff rows (2 ^ e) k l) 4 := by
  have hne' : i ≠ k ∨ j ≠ l := by
    by_contra hc
    push_neg at hc
    exact hne (by rw [hc.1, hc.2])
  rcases h with ⟨he, hr⟩ | h1
  · rw [bucketOff_tiles he hr, bucketOff_tiles he hr]
    rw [pow_tiles he] at hj hl
    generalize 2 ^ (e - 7) = q at hj hl ⊢
    by_cases ht : i / 128 * q + j / 128 = k / 128 * q + l / 128
    · have hq : 0 < q := by
        rcases Nat.eq_zero_or_pos q with rfl | h
        · omega
        · exact h
      have hcol : j / 128 = l / 128 := by
        have := congrArg (· % q) ht
        simpa [Nat.mod_eq_of_lt (show j / 128 < q by omega), Nat.mod_eq_of_lt (show l / 128 < q by omega), Nat.mul_add_mod_self_right,
          Nat.add_comm] using this
      have hrow : i / 128 = k / 128 := Nat.eq_of_mul_eq_mul_right hq (by omega)
      rw [ht]
      omega
    · omega
  · subst h1
    have e1 : ∀ x y, bucketOff 1 (2 ^ e) x y = 4 * y := fun _ _ => rfl
    rw [e1, e1]
    omega

/-! ### A bucket begins (R196) -/

section
variable (s : State) (dest tensor words : Nat)

theorem beginBucket_onlyParts : OnlyParts [.mem, .run] s (s.beginBucket dest tensor words) :=
  .ite (.refl _ s) (((zero_onlyParts s _ _).mono (by decide)).then (withRun_onlyParts _ _) (by decide))

theorem beginBucket_onlyBytes {k : Nat} (hk : 4 * words = k) : OnlyBytes dest k s (s.beginBucket dest tensor words) := by
  subst hk
  unfold State.beginBucket
  split
  · exact .refl _ _ s
  · intro b hb
    refine (rd8_zero s dest (dest + 4 * words) b).trans (if_neg (by omega))

theorem beginBucket_holds : (s.beginBucket dest tensor words).run.lookups.contains (dest, tensor) = true := by
  unfold State.beginBucket
  split
  · assumption
  · simp [State.withRun]

theorem beginBucket_wf (h : tabWf memDefault s.mem = true) : tabWf memDefault (s.beginBucket dest tensor words).mem = true := by
  unfold State.beginBucket
  split
  · exact h
  · exact tabWf_tabClear _ _ _ h

/-- What a word of the bucket holds as it begins. -/
theorem beginBucket_rdN {a : Nat} (h1 : dest ≤ a) (h2 : a + 4 ≤ dest + 4 * words) : (s.beginBucket dest tensor words).rdN a 4 =
    if s.run.lookups.contains (dest, tensor) then s.rdN a 4 else 0 := by
  unfold State.beginBucket
  split
  · rfl
  · have hz : ∀ b, a ≤ b → b < a + 4 → (s.zero dest (dest + 4 * words)).rd8 b = 0 := fun b hb1 hb2 =>
      (rd8_zero s dest (dest + 4 * words) b).trans (if_pos (by omega))
    change (s.zero dest (dest + 4 * words)).rdN a 4 = 0
    simp only [State.rdN]
    rw [hz a (by omega) (by omega), hz (a + 1) (by omega) (by omega), hz (a + 1 + 1) (by omega) (by omega),
      hz (a + 1 + 1 + 1) (by omega) (by omega)]
    rfl

end

/-! ### One token's row added -/

/-- The place of a bucket element. -/
abbrev cellAt (t : TensorEnt) (dest r j : Nat) : Nat := dest + bucketOff (shardRows t) (2 ^ t.wb) r j

/-- One element of a token's gradient row added to bucket row `r`; the sources are read on `u`. -/
def cellAdd (u : State) (t : TensorEnt) (w : Word256) (dest k r : Nat) (v : State) (j : Nat) : State :=
  v.wrN (cellAt t dest r j) 4 (fpAdd (v.rdN (cellAt t dest r j) 4) (u.rdN (wA w + 4 * (k * 2 ^ t.wb + j)) 4)).bits

/-- The id of token `k`, and whether its row is a trained one of the shard. -/
abbrev tokenId (u : State) (w : Word256) (k : Nat) : Nat := u.rdN (wB w + 4 * k) 4

abbrev tokenTrains (u : State) (t : TensorEnt) (w : Word256) (k : Nat) : Bool :=
  decide (t.row0 ≤ tokenId u w k) && decide (tokenId u w k < t.row1) && rowTrained t (tokenId u w k)

def tokenAdd (u : State) (t : TensorEnt) (w : Word256) (dest : Nat) (v : State) (k : Nat) : State :=
  if tokenTrains u t w k then (range' 0 (2 ^ t.wb)).foldl (cellAdd u t w dest k (tokenId u w k - t.row0)) v else v

/-- What a token brings to the element in row `r` and column `j`. -/
def cellGain (u : State) (t : TensorEnt) (w : Word256) (r j : Nat) (a k : Nat) : Nat :=
  if tokenId u w k = t.row0 + r ∧ rowTrained t (t.row0 + r) = true then
    (fpAdd a (u.rdN (wA w + 4 * (k * 2 ^ t.wb + j)) 4)).bits % 2 ^ 32
  else a

/-- From `s`, only memory has changed, in some bytes, in its table's order. -/
structure WroteBytes (a n : Nat) (s t : State) : Prop where
  bytes : OnlyBytes a n s t
  parts : OnlyParts [.mem] s t
  wf : tabWf memDefault s.mem = true → tabWf memDefault t.mem = true

theorem WroteBytes.refl (a n : Nat) (s : State) : WroteBytes a n s s := ⟨.refl _ _ s, .refl _ s, id⟩

theorem WroteBytes.trans {a n : Nat} {s t u : State} (h : WroteBytes a n s t) (g : WroteBytes a n t u) : WroteBytes a n s u :=
  ⟨h.bytes.trans g.bytes, h.parts.trans g.parts, fun w => g.wf (h.wf w)⟩

theorem wrN_wroteBytes (s : State) (b k v : Nat) {a n : Nat} (h1 : a ≤ b) (h2 : b + k ≤ a + n) : WroteBytes a n s (s.wrN b k v) :=
  ⟨wrN_onlyBytes s b k a n v h1 h2, wrN_onlyParts s k b v, wf_wrN k s b v⟩

section
variable {u : State} {t : TensorEnt} {w : Word256} {dest : Nat} (hw : WholeTiles (shardRows t) t.wb)
include hw

theorem cellAdd_wrote (v : State) {k r j : Nat} (hr : r < shardRows t) (hj : j < 2 ^ t.wb) :
    WroteBytes dest (4 * shardRows t * 2 ^ t.wb) v (cellAdd u t w dest k r v j) := by
  have := bucketOff_lt hw hr hj
  exact wrN_wroteBytes v _ 4 _ (Nat.le_add_right _ _) (by unfold cellAt; omega)

theorem tokenRow_lt {k : Nat} (h : tokenTrains u t w k = true) : tokenId u w k - t.row0 < shardRows t := by
  simp only [tokenTrains, Bool.and_eq_true, decide_eq_true_eq] at h
  unfold shardRows
  omega

theorem tokenAdd_wrote (v : State) (k : Nat) : WroteBytes dest (4 * shardRows t * 2 ^ t.wb) v (tokenAdd u t w dest v k) := by
  unfold tokenAdd
  split
  next h =>
    exact foldl_keeps_rel (WroteBytes.refl _ _) (fun _ _ _ => WroteBytes.trans) (fun x j hj =>
      cellAdd_wrote hw x (tokenRow_lt hw h) (by have := (mem_range' _ _ _).1 hj; omega)) v
  next => exact .refl _ _ v

/-- A token adds to the elements of the row of its id, and to no other. -/
theorem rdN_tokenAdd (v : State) (hv : tabWf memDefault v.mem = true) (k : Nat) {r j : Nat} (hr : r < shardRows t) (hj : j < 2 ^ t.wb) :
    (tokenAdd u t w dest v k).rdN (cellAt t dest r j) 4 = cellGain u t w r j (v.rdN (cellAt t dest r j) 4) k := by
  unfold tokenAdd cellGain
  by_cases ht : tokenTrains u t w k = true
  · rw [if_pos ht]
    have hid := tokenRow_lt hw ht
    simp only [tokenTrains, Bool.and_eq_true, decide_eq_true_eq] at ht
    obtain ⟨⟨hlo, hhi⟩, htr⟩ := ht
    by_cases hrow : tokenId u w k = t.row0 + r
    · have hr' : tokenId u w k - t.row0 = r := by omega
      rw [if_pos ⟨hrow, hrow ▸ htr⟩, hr']
      exact foldl_updates (P := fun v => tabWf memDefault v.mem = true) (write := cellAdd u t w dest k r)
        (read := fun v j => v.rdN (cellAt t dest r j) 4)
        (g := fun j a => (fpAdd a (u.rdN (wA w + 4 * (k * 2 ^ t.wb + j)) 4)).bits % 2 ^ 32)
        (fun v j _ h => wf_wrN 4 v _ _ h) (fun v j _ h => by
          unfold cellAdd
          exact rdN_wrN 4 v _ _ h)
        (fun v i hi l hl hil => by
          have h1 := (mem_range' _ _ _).1 hi
          have h2 := (mem_range' _ _ _).1 hl
          exact rdN_wrN_apart v _ _ _ _ _ (bucketOff_apart hw hr (by omega) hr (by omega) (by simpa using hil) dest))
        (range'_nodup _ _) hv j ((mem_range' _ _ _).2 (by omega))
    · rw [if_neg (fun h => hrow h.1)]
      refine foldl_keeps_rel (R := fun s v => v.rdN (cellAt t dest r j) 4 = s.rdN (cellAt t dest r j) 4) (fun _ => rfl)
        (fun _ _ _ h g => g.trans h) (fun v i hi => ?_) v
      have h1 := (mem_range' _ _ _).1 hi
      exact rdN_wrN_apart v _ _ _ _ _ (bucketOff_apart hw hr hj hid (by omega) (fun e => by
        have := (Prod.ext_iff.1 e).1
        simp only at this
        omega) dest)
  · rw [if_neg ht, if_neg]
    rintro ⟨h1, h2⟩
    refine ht ?_
    simp only [tokenTrains, Bool.and_eq_true, decide_eq_true_eq]
    unfold shardRows at hr
    rw [h1]
    exact ⟨⟨by omega, by omega⟩, h2⟩

/-- All tokens added in their order. -/
theorem rdN_tokensAdd (l : List Nat) (v : State) (hv : tabWf memDefault v.mem = true) {r j : Nat} (hr : r < shardRows t)
    (hj : j < 2 ^ t.wb) : (l.foldl (tokenAdd u t w dest) v).rdN (cellAt t dest r j) 4 =
      l.foldl (cellGain u t w r j) (v.rdN (cellAt t dest r j) 4) := by
  induction l generalizing v with
  | nil => rfl
  | cons k l ih =>
    rw [List.foldl_cons, List.foldl_cons, ih _ ((tokenAdd_wrote hw v k).wf hv), rdN_tokenAdd hw v hv k hr hj]

theorem tokensAdd_wrote (l : List Nat) (v : State) :
    WroteBytes dest (4 * shardRows t * 2 ^ t.wb) v (l.foldl (tokenAdd u t w dest) v) :=
  foldl_keeps_rel (WroteBytes.refl _ _) (fun _ _ _ => WroteBytes.trans) (fun x k _ => tokenAdd_wrote hw x k) v

end

/-- The sources of the tokens lie apart from the bucket. -/
theorem cellGain_congr {s u : State} {t : TensorEnt} {w : Word256} {tokens : Nat} {r j : Nat} (hj : j < 2 ^ t.wb)
    (hA : ∀ a, wA w ≤ a → a + 4 ≤ wA w + 4 * tokens * 2 ^ t.wb → u.rdN a 4 = s.rdN a 4)
    (hB : ∀ a, wB w ≤ a → a + 4 ≤ wB w + 4 * tokens → u.rdN a 4 = s.rdN a 4) (a : Nat) {k : Nat} (hk : k < tokens) :
    cellGain u t w r j a k = cellGain s t w r j a k := by
  have h1 : tokenId u w k = tokenId s w k := hB _ (by omega) (by omega)
  have h2 : u.rdN (wA w + 4 * (k * 2 ^ t.wb + j)) 4 = s.rdN (wA w + 4 * (k * 2 ^ t.wb + j)) 4 := by
    refine hA _ (by omega) ?_
    have hle : (k + 1) * 2 ^ t.wb ≤ tokens * 2 ^ t.wb := Nat.mul_le_mul_right _ hk
    rw [Nat.add_mul, Nat.one_mul] at hle
    rw [Nat.mul_assoc]
    omega
  unfold cellGain
  rw [h1, h2]

/-! ### LOOKUP_ADD -/

section
variable {s : State} {n : Nat} {w : Word256} {dest : Nat}

theorem exec_lookupAdd (h : Issues s n w 0x42) :
    exec (.lookupAdd n w dest) s = .next ((s.advance (s.issueAbs w)).veLookup n w (s.issueAbs w) dest none) := by
  obtain ⟨-, -, hr, ha⟩ := issues_parts h
  change Host.Outcome.next _ = _
  rw [if_pos hr, ha]

abbrev lookBegun (s : State) (n : Nat) (w : Word256) : State := begun s n w 8 (8 * (wY w + 1))

/-- The tensor that the word names. -/
abbrev wordTensor (s : State) (w : Word256) : Option TensorEnt := s.myImage.bind (fun f => imgWeight f (getBits (wX w) 0 20))

theorem Begun.wordTensor {u : State} (h : Begun n s u) : wordTensor u w = wordTensor s w := by
  simp only [Laws.wordTensor, h.reads.myImage]

theorem veLookup_none (ht : wordTensor s w = none) :
    (s.advance (s.issueAbs w)).veLookup n w (s.issueAbs w) dest none = (lookBegun s n w).streamFault n w := by
  have ht' : (lookBegun s n w).myImage.bind (fun f => imgWeight f (getBits (wX w) 0 20)) = none :=
    ((begun_begun s n w _ _).wordTensor).trans ht
  unfold State.veLookup
  extract_lets tokens s1
  change s1.myImage.bind _ = none at ht'
  rw [ht']

section
variable {t : TensorEnt} (ht : wordTensor s w = some t)
include ht

theorem veLookup_control (hc : inControlRegion dest (4 * shardRows t * 2 ^ t.wb) = true) :
    (s.advance (s.issueAbs w)).veLookup n w (s.issueAbs w) dest none = (lookBegun s n w).streamFault n w := by
  have ht' : (lookBegun s n w).myImage.bind (fun f => imgWeight f (getBits (wX w) 0 20)) = some t :=
    ((begun_begun s n w _ _).wordTensor).trans ht
  unfold State.veLookup
  extract_lets tokens s1
  change s1.myImage.bind _ = some t at ht'
  rw [ht']
  exact if_pos hc

/-- The bucket as it begins. -/
abbrev lookBucket (s : State) (n : Nat) (w : Word256) (dest : Nat) (t : TensorEnt) : State :=
  (lookBegun s n w).beginBucket dest t.tensor (shardRows t * 2 ^ t.wb)

theorem veLookup_eq (hc : inControlRegion dest (4 * shardRows t * 2 ^ t.wb) = false) :
    ∃ c, (s.advance (s.issueAbs w)).veLookup n w (s.issueAbs w) dest none =
      (((range' 0 (wY w + 1)).foldl (tokenAdd (lookBucket s n w dest t) t w dest) (lookBucket s n w dest t)).memSpan false dest 32
        (shardRows t * 2 ^ t.wb) (s.issueAbs w + 8 + 8 * wY w + 7) none).veEvents n (wPhase w) c := by
  have ht' : (lookBegun s n w).myImage.bind (fun f => imgWeight f (getBits (wX w) 0 20)) = some t :=
    ((begun_begun s n w _ _).wordTensor).trans ht
  unfold State.veLookup
  extract_lets tokens s1
  have hs1 : s1 = lookBegun s n w := rfl
  change s1.myImage.bind _ = some t at ht'
  rw [ht']
  apply Exists.intro
  refine (if_neg (fun e => absurd (hc.symm.trans e) (by decide))).trans ?_
  rw [filter_inTime_none]
  refine congrArg (fun v => State.veEvents (State.memSpan v false dest 32 (shardRows t * 2 ^ t.wb)
    (s.issueAbs w + 8 + 8 * wY w + 7) none) n (wPhase w) _) ?_
  refine foldl_fst_eq (fun x k => ?_) _ _
  unfold tokenAdd
  by_cases htr : tokenTrains (lookBucket s n w dest t) t w k = true
  · rw [if_pos htr, if_pos htr]
    refine foldl_fst_eq ?_ _ _
    exact fun _ _ => rfl
  · rw [if_neg htr, if_neg htr]

end

theorem setNonfinite_lookups (s : State) (p : Nat) : (s.setNonfinite p).run.lookups = s.run.lookups := by
  rw [setNonfinite_run]

theorem veEvents_lookups (s : State) (n h : Nat) (c : EvCnt) : (s.veEvents n h c).run.lookups = s.run.lookups := by
  have hf : ∀ (t : State) (e a : Nat), (t.fmtShare n 1 0 h e a).run = t.run := fun t e a => fmtShare_onlyParts t n 1 0 h e a .run (by decide)
  unfold State.veEvents
  split
  · simp only [hf]
  · rw [setNonfinite_lookups]
    simp only [hf]

end

/-- Settles O25: each token's row is added in turn, in a bucket that has begun. -/
theorem lookupAddAddsTheTokensRow : Obligations.LookupAddAddsTheTokensRow := by
  intro s n w dest h
  have hb : Begun n s (lookBegun s n w) := begun_begun s n w _ _
  refine ⟨fun ht => ⟨_, exec_lookupAdd h, ?_⟩, fun t ht hwhole => ⟨fun hc => ⟨_, exec_lookupAdd h, ?_⟩, fun hc hA hB => ?_⟩⟩
  · rw [veLookup_none ht]
    exact hb.streamFaults h.1 w
  · rw [veLookup_control ht hc]
    exact hb.streamFaults h.1 w
  · obtain ⟨c, he⟩ := veLookup_eq (n := n) ht (by simpa using hc)
    have hwords : 4 * (shardRows t * 2 ^ t.wb) = 4 * shardRows t * 2 ^ t.wb := by ring
    have hbegin := beginBucket_onlyBytes (lookBegun s n w) dest t.tensor (shardRows t * 2 ^ t.wb) hwords
    have hbparts := beginBucket_onlyParts (lookBegun s n w) dest t.tensor (shardRows t * 2 ^ t.wb)
    have hwf : tabWf memDefault (lookBucket s n w dest t).mem = true := beginBucket_wf _ _ _ _ (hb.inv h.1).1.2.1
    have hwrote := tokensAdd_wrote (u := lookBucket s n w dest t) (w := w) (dest := dest) hwhole (range' 0 (wY w + 1)) (lookBucket s n w dest t)
    have hread := fun r hr j hj => rdN_tokensAdd (u := lookBucket s n w dest t) (w := w) (dest := dest) (r := r) (j := j) hwhole
      (range' 0 (wY w + 1)) (lookBucket s n w dest t) hwf hr hj
    have hsource : ∀ a k, Apart dest (4 * shardRows t * 2 ^ t.wb) a k → (lookBucket s n w dest t).rdN a k = s.rdN a k := fun a k hd =>
      (hbegin.rdN hd.symm).trans (hb.reads.rdN a k)
    generalize (range' 0 (wY w + 1)).foldl (tokenAdd (lookBucket s n w dest t) t w dest) (lookBucket s n w dest t) = v at he hwrote hread
    have ha := (afterWrites_memSpan v false dest 32 (shardRows t * 2 ^ t.wb) (s.issueAbs w + 8 + 8 * wY w + 7) none).trans
      (afterWrites_veEvents _ n (wPhase w) c)
    refine ⟨_, (exec_lookupAdd h).trans (by rw [he]), fun r hr j hj => ?_, ?_, ?_, ?_, ?_, ?_⟩
    · rw [rdN_congr (rd8_congr ha.mem)]
      refine (hread r hr j hj).trans ?_
      have hcell := bucketOff_lt hwhole hr hj
      rw [beginBucket_rdN (lookBegun s n w) dest t.tensor (shardRows t * 2 ^ t.wb) (Nat.le_add_right _ _) (by omega), hb.reads.rdN]
      have hl : (lookBegun s n w).run.lookups = s.run.lookups := rfl
      rw [hl]
      exact foldl_congr_mem (fun a k hk => cellGain_congr (tokens := wY w + 1) hj
        (fun a h1 h2 => hsource a 4 (hA.imp (fun h => by omega) (fun h => by omega)))
        (fun a h1 h2 => hsource a 4 (hB.imp (fun h => by omega) (fun h => by omega))) a
        (by have := (mem_range' _ _ _).1 hk; omega)) _
    · rw [veEvents_lookups]
      have hl : v.run = (lookBucket s n w dest t).run := hwrote.parts .run (by decide)
      refine Eq.trans (congrArg (fun r => List.contains (TickRun.lookups r) (dest, t.tensor)) (Eq.trans rfl hl)) ?_
      exact beginBucket_holds _ _ _ _
    · exact ha.onlyBytes (((OnlyBytes.of_mem _ _ hb.reads.mem).trans hbegin).trans hwrote.bytes)
    · rw [ha.acc, hwrote.parts .tiles (by decide), hbparts .tiles (by decide)]
      exact hb.sram.acc
    · rw [ha.lines, hwrote.parts .tiles (by decide), hbparts .tiles (by decide)]
      exact hb.sram.lines
    · exact (((hb.parts.mono (by decide)).trans (hbparts.mono (by decide))).trans (hwrote.parts.mono (by decide))).trans
        (ha.parts.mono (by decide))

end Sys2Proof.Laws
end

section
/-! PROOFS. ROWCOL (R211, R213). -/

namespace Sys2Proof.Laws

open Sys2Proof.Machine Sys2Proof.Safety

/-! ### Sums that may start from a word -/

/-- One term added to a sum that may not have begun (R116). -/
def optAdd {α : Type} (f : α → Nat) (a : Option Nat) (x : α) : Option Nat :=
  some (match a with | none => f x | some y => (fpAdd y (f x)).bits)

theorem seqSum_cons_fst (x : Nat) (r : List Nat) (c : EvCnt) : (seqSum (x :: r) c).1 = r.foldl (fun a y => (fpAdd a y).bits) x :=
  foldl_fst_eq (g := fun a y => (fpAdd a y).bits) (fun _ _ => rfl) r (x, c)

theorem optAdd_some {α : Type} (f : α → Nat) (l : List α) (y : Nat) :
    l.foldl (optAdd f) (some y) = some ((l.map f).foldl (fun a y => (fpAdd a y).bits) y) := by
  induction l generalizing y with
  | nil => rfl
  | cons x l ih => exact ih _

/-- A sum that may start from a word is one sequential sum. -/
theorem optSum_eq {α : Type} (f : α → Nat) (start : Option Nat) (l : List α) :
    (l.foldl (optAdd f) start).getD 0 = (seqSum (start.toList ++ l.map f) {}).1 := by
  cases start with
  | some y =>
    rw [optAdd_some]
    exact (seqSum_cons_fst y (l.map f) {}).symm
  | none =>
    cases l with
    | nil => rfl
    | cons x l =>
      rw [List.foldl_cons, show optAdd f none x = some (f x) from rfl, optAdd_some]
      exact (seqSum_cons_fst (f x) (l.map f) {}).symm

/-! ### Rows and columns -/

/-- The square of element (i, j) of the word's bucket, read under ν on `u`. -/
def rcSquare (u : State) (w : Word256) (t : TensorEnt) (i j : Nat) : Nat :=
  let g := (readNu u.nu (u.rdN (wA w + bucketOff (shardRows t) (2 ^ t.wb) i j) 4) {}).1
  (fpMul g g).bits

/-- The word that a row's sum starts from: none in bucket 0. -/
abbrev rcStart (w : Word256) (a : Nat) : Option Nat := if wY w == 0 then none else some a

def rcRowSum (u : State) (w : Word256) (t : TensorEnt) (i a : Nat) : Nat :=
  ((range' 0 (2 ^ t.wb)).foldl (optAdd (rcSquare u w t i)) (rcStart w a)).getD 0

def rcColSum (u : State) (w : Word256) (t : TensorEnt) (j : Nat) : Nat :=
  (((range' 0 (shardRows t)).filter (fun i => rowTrained t (t.row0 + i))).foldl (optAdd (fun i => rcSquare u w t i j)) none).getD 0

def rcRow (u : State) (w : Word256) (t : TensorEnt) (rDst : Nat) (v : State) (i : Nat) : State :=
  v.wrN (rDst + 4 * i) 4 (rcRowSum u w t i (v.rdN (rDst + 4 * i) 4))

def rcCol (u : State) (w : Word256) (t : TensorEnt) (cDst : Nat) (v : State) (j : Nat) : State :=
  v.wrN (cDst + 4 * j) 4 (rcColSum u w t j)

abbrev rcDoR (w : Word256) : Bool := getBits (wX w) 20 1 == 1

abbrev rcDoC (w : Word256) : Bool := getBits (wX w) 21 1 == 1

/-- The row words written, where the word asks for them; then the column words. -/
def rcRows (u : State) (w : Word256) (t : TensorEnt) (rDst : Nat) : State :=
  if rcDoR w then (range' 0 (shardRows t)).foldl (rcRow u w t rDst) u else u

def rcCols (u : State) (w : Word256) (t : TensorEnt) (cDst : Nat) (v : State) : State :=
  if rcDoC w then (range' 0 (2 ^ t.wb)).foldl (rcCol u w t cDst) v else v

section
variable (u : State) (w : Word256) (t : TensorEnt)

theorem rcRows_wrote (rDst : Nat) : WroteBytes rDst (4 * shardRows t) u (rcRows u w t rDst) := by
  unfold rcRows
  split
  · exact foldl_keeps_rel (WroteBytes.refl _ _) (fun _ _ _ => WroteBytes.trans) (fun v i hi =>
      wrN_wroteBytes v _ 4 _ (Nat.le_add_right _ _) (by have := (mem_range' _ _ _).1 hi; omega)) u
  · exact .refl _ _ u

theorem rcCols_wrote (cDst : Nat) (v : State) : WroteBytes cDst (4 * 2 ^ t.wb) v (rcCols u w t cDst v) := by
  unfold rcCols
  split
  · exact foldl_keeps_rel (WroteBytes.refl _ _) (fun _ _ _ => WroteBytes.trans) (fun v i hi =>
      wrN_wroteBytes v _ 4 _ (Nat.le_add_right _ _) (by have := (mem_range' _ _ _).1 hi; omega)) v
  · exact .refl _ _ v

theorem rcRows_read (rDst : Nat) (hw : tabWf memDefault u.mem = true) (hR : rcDoR w = true) {i : Nat} (hi : i < shardRows t) :
    (rcRows u w t rDst).rdN (rDst + 4 * i) 4 = rcRowSum u w t i (u.rdN (rDst + 4 * i) 4) % 2 ^ 32 := by
  unfold rcRows
  rw [if_pos hR]
  exact foldl_updates (P := fun v => tabWf memDefault v.mem = true) (write := rcRow u w t rDst)
    (read := fun v i => v.rdN (rDst + 4 * i) 4) (g := fun i a => rcRowSum u w t i a % 2 ^ 32)
    (fun v i _ h => wf_wrN 4 v _ _ h) (fun v i _ h => by
      unfold rcRow
      exact rdN_wrN 4 v _ _ h)
    (fun v i _ k _ hik => rdN_wrN_apart v _ _ _ _ _ (by omega)) (range'_nodup _ _) hw i ((mem_range' _ _ _).2 (by omega))

theorem rcCols_read (cDst : Nat) (v : State) (hw : tabWf memDefault v.mem = true) (hC : rcDoC w = true) {j : Nat} (hj : j < 2 ^ t.wb) :
    (rcCols u w t cDst v).rdN (cDst + 4 * j) 4 = rcColSum u w t j % 2 ^ 32 := by
  unfold rcCols
  rw [if_pos hC]
  exact foldl_writes (P := fun v => tabWf memDefault v.mem = true) (write := rcCol u w t cDst)
    (read := fun v i => v.rdN (cDst + 4 * i) 4) (val := fun i => rcColSum u w t i % 2 ^ 32)
    (fun v i _ h => wf_wrN 4 v _ _ h) (fun v i _ h => by
      unfold rcCol
      exact rdN_wrN 4 v _ _ h)
    (fun v i _ k _ hik => rdN_wrN_apart v _ _ _ _ _ (by omega)) (range'_nodup _ _) hw j ((mem_range' _ _ _).2 (by omega))

end

/-! ### ROWCOL -/

section
variable {s : State} {n : Nat} {w : Word256} {rDst cDst : Nat}

theorem exec_rowcol (h : Issues s n w 0x43) :
    exec (.rowcol n w rDst cDst) s = .next ((s.advance (s.issueAbs w)).veRowcol n w (s.issueAbs w) rDst cDst none) := by
  obtain ⟨-, -, hr, ha⟩ := issues_parts h
  change Host.Outcome.next _ = _
  rw [if_pos hr, ha]

theorem veRowcol_none (ht : wordTensor s w = none) :
    (s.advance (s.issueAbs w)).veRowcol n w (s.issueAbs w) rDst cDst none = (issued s n w).streamFault n w := by
  have ht' : (s.advance (s.issueAbs w)).myImage.bind (fun f => imgWeight f (getBits (wX w) 0 20)) = none := ht
  unfold State.veRowcol
  rw [ht']

section
variable {t : TensorEnt} (ht : wordTensor s w = some t)
include ht

abbrev rcBegun (s : State) (n : Nat) (w : Word256) (t : TensorEnt) : State := begun s n w 24 (shardRows t * 2 ^ t.wb / 1024)

abbrev rcControl (w : Word256) (rDst cDst : Nat) (t : TensorEnt) : Bool :=
  (rcDoR w && inControlRegion rDst (4 * shardRows t)) || (rcDoC w && inControlRegion cDst (4 * 2 ^ t.wb))

theorem veRowcol_control (hc : rcControl w rDst cDst t = true) :
    (s.advance (s.issueAbs w)).veRowcol n w (s.issueAbs w) rDst cDst none = (rcBegun s n w t).streamFault n w := by
  have ht' : (s.advance (s.issueAbs w)).myImage.bind (fun f => imgWeight f (getBits (wX w) 0 20)) = some t := ht
  unfold State.veRowcol
  rw [ht']
  exact if_pos hc

theorem veRowcol_eq (hc : rcControl w rDst cDst t = false) :
    ∃ v, (s.advance (s.issueAbs w)).veRowcol n w (s.issueAbs w) rDst cDst none = v ∧
      AfterWrites (rcCols (rcBegun s n w t) w t cDst (rcRows (rcBegun s n w t) w t rDst)) v := by
  have ht' : (s.advance (s.issueAbs w)).myImage.bind (fun f => imgWeight f (getBits (wX w) 0 20)) = some t := ht
  refine ⟨_, rfl, ?_⟩
  unfold State.veRowcol
  rw [ht']
  dsimp -zeta only
  extract_lets wb m doR doC s1 q row col rows r1 r2 last t1
  have hcond : (doR && inControlRegion rDst (4 * m) || doC && inControlRegion cDst (4 * wb)) = false := hc
  rw [hcond, if_neg Bool.false_ne_true]
  have hs1 : s1 = rcBegun s n w t := rfl
  have hrows : rows = range' 0 m := filter_inTime_none _ _
  clear_value s1 rows
  have hq : ∀ i j c, (q i j c).1 = rcSquare s1 w t i j := fun i j c => by
    simp only [q, readNu_fst _ _ c]
    rfl
  have hrow : ∀ x i, (row x i).1 = rcRow s1 w t rDst x.1 i := fun x i => by
    refine congrArg (fun a => State.wrN x.1 (rDst + 4 * i) 4 (Option.getD a 0)) ?_
    refine foldl_fst_eq (g := optAdd (rcSquare s1 w t i)) (fun a j => ?_) _ _
    obtain ⟨a, c⟩ := a
    cases a <;> simp only [optAdd, hq]
  have hcol : ∀ x j, (col x j).1 = rcCol s1 w t cDst x.1 j := fun x j => by
    refine congrArg (fun a => State.wrN x.1 (cDst + 4 * j) 4 (Option.getD a 0)) ?_
    refine foldl_fst_eq (g := optAdd (fun i => rcSquare s1 w t i j)) (fun a i => ?_) _ _
    obtain ⟨a, c⟩ := a
    cases a <;> simp only [optAdd, hq]
  have hr1 : r1.1 = rcRows s1 w t rDst := by
    simp only [r1, rcRows, hrows]
    split
    · exact foldl_fst_eq hrow _ _
    · rfl
  have hr2 : r2.1 = rcCols s1 w t cDst (rcRows s1 w t rDst) := by
    rw [← hr1]
    simp only [r2, rcCols, inTime, Bool.and_true]
    split
    · exact foldl_fst_eq hcol _ _
    · rfl
  rw [← hs1, ← hr2]
  have ht1 : AfterWrites r2.1 t1 := .ite (afterWrites_memSpan ..) (.refl _)
  exact AfterWrites.trans (.ite (ht1.trans (afterWrites_memSpan ..)) ht1) (afterWrites_veEvents ..)

end

theorem Begun.rcSquare {u : State} (h : Begun n s u) (t : TensorEnt) (i j : Nat) : rcSquare u w t i j = rcSquare s w t i j := by
  simp only [Laws.rcSquare, h.reads.nu, h.reads.rdN]

end

/-- Settles O26: ROWCOL sums the squares of each row and of each column. -/
theorem rowcolSumsSquaresInOrder : Obligations.RowcolSumsSquaresInOrder := by
  intro s n w rDst cDst h
  refine ⟨fun ht => ⟨_, exec_rowcol h, ?_⟩, fun t ht => ⟨fun hc => ⟨_, exec_rowcol h, ?_⟩, fun hc hapart => ?_⟩⟩
  · rw [veRowcol_none ht]
    exact (issued_begun s n w).streamFaults h.1 w
  · rw [veRowcol_control ht (by simpa [rcControl, rcDoR, rcDoC] using hc)]
    exact (begun_begun s n w _ _).streamFaults h.1 w
  · have hb : Begun n s (rcBegun s n w t) := begun_begun s n w _ _
    obtain ⟨v, he, ha⟩ := veRowcol_eq (n := n) (rDst := rDst) (cDst := cDst) ht
      (eq_false_of_ne_true (fun e => hc (by simpa [rcControl, rcDoR, rcDoC] using e)))
    have hrows := rcRows_wrote (rcBegun s n w t) w t rDst
    have hcols := rcCols_wrote (rcBegun s n w t) w t cDst (rcRows (rcBegun s n w t) w t rDst)
    have hwf : tabWf memDefault (rcBegun s n w t).mem = true := (hb.inv h.1).1.2.1
    have hsq : ∀ i j, rcSquare (rcBegun s n w t) w t i j = rcSquare s w t i j := hb.rcSquare t
    have hsq' : ∀ i, rcSquare (rcBegun s n w t) w t i = rcSquare s w t i := fun i => funext (hsq i)
    refine ⟨v, (exec_rowcol h).trans (by rw [he]), fun hR i hi => ?_, fun hC j hj => ?_, fun b hbR hbC => ?_, ?_, ?_, ?_⟩
    · rw [rdN_congr (rd8_congr ha.mem)]
      have hstand : (rcCols (rcBegun s n w t) w t cDst (rcRows (rcBegun s n w t) w t rDst)).rdN (rDst + 4 * i) 4 =
          (rcRows (rcBegun s n w t) w t rDst).rdN (rDst + 4 * i) 4 := by
        by_cases hC : rcDoC w = true
        · have := hapart hR (by simpa [rcDoC] using hC)
          exact hcols.bytes.rdN (by omega)
        · rw [rcCols, if_neg hC]
      rw [hstand, rcRows_read _ w t rDst hwf (by simpa [rcDoR] using hR) hi, rcRowSum, optSum_eq, hb.reads.rdN, hsq']
      unfold rcStart
      by_cases hY : wY w = 0
      · rw [if_pos hY, if_pos (by simpa using hY)]
        rfl
      · rw [if_neg hY, if_neg (by simpa using hY)]
        rfl
    · rw [rdN_congr (rd8_congr ha.mem), rcCols_read _ w t cDst _ (hrows.wf hwf) (by simpa [rcDoC] using hC) hj, rcColSum, optSum_eq]
      simp only [hsq]
      rfl
    · rw [rd8_congr ha.mem]
      have h1 : (rcRows (rcBegun s n w t) w t rDst).rd8 b = s.rd8 b := by
        refine Eq.trans ?_ (rd8_congr hb.reads.mem b)
        by_cases hR : rcDoR w = true
        · exact hrows.bytes b (hbR (by simpa [rcDoR] using hR))
        · rw [rcRows, if_neg hR]
      rw [← h1]
      by_cases hC : rcDoC w = true
      · exact hcols.bytes b (hbC (by simpa [rcDoC] using hC))
      · rw [rcCols, if_neg hC]
    · rw [ha.acc, hcols.parts .tiles (by decide), hrows.parts .tiles (by decide)]
      exact hb.sram.acc
    · rw [ha.lines, hcols.parts .tiles (by decide), hrows.parts .tiles (by decide)]
      exact hb.sram.lines
    · exact (((hb.parts.mono (by decide)).trans (hrows.parts.mono (by decide))).trans (hcols.parts.mono (by decide))).trans
        (ha.parts.mono (by decide))

end Sys2Proof.Laws
end

section
/-! PROOFS. State tensors written in the other bank (R22, R190, R215, R225). -/

namespace Sys2Proof.Laws

open Sys2Proof.Machine Sys2Proof.Safety

/-! ### What an element written to a state tensor leaves -/

/-- From `s` on, a word has written memory in some bytes alone and noted events, leaving what the banks are chosen by. -/
structure StateWrites (p : Nat → Prop) (s t : State) : Prop where
  bytes : ∀ b, ¬ p b → t.rd8 b = s.rd8 b
  wf : tabWf memDefault s.mem = true → tabWf memDefault t.mem = true
  parts : OnlyParts [.mem, .regs, .run, .outbox] s t
  module : t.fget HULL_ORCH_MODULE = s.fget HULL_ORCH_MODULE
  run : ∃ b, t.run = { s.run with nonfinite := b }

/-- The bytes of a run. -/
abbrev within (a n b : Nat) : Prop := a ≤ b ∧ b < a + n

section
variable {p : Nat → Prop} {s t u : State}

theorem StateWrites.refl (p : Nat → Prop) (s : State) : StateWrites p s s := ⟨fun _ _ => rfl, id, .refl _ s, rfl, _, rfl⟩

theorem StateWrites.trans (h : StateWrites p s t) (g : StateWrites p t u) : StateWrites p s u := by
  obtain ⟨b, hb⟩ := h.run
  obtain ⟨c, hc⟩ := g.run
  exact ⟨fun x hx => (g.bytes x hx).trans (h.bytes x hx), fun w => g.wf (h.wf w), h.parts.trans g.parts, g.module.trans h.module, c,
    by rw [hc, hb]⟩

theorem StateWrites.mono {q : Nat → Prop} (h : StateWrites p s t) (hp : ∀ b, p b → q b) : StateWrites q s t :=
  ⟨fun b hb => h.bytes b (fun x => hb (hp b x)), h.wf, h.parts, h.module, h.run⟩

theorem StateWrites.ite {c : Prop} [Decidable c] (h : StateWrites p s t) (g : StateWrites p s u) :
    StateWrites p s (if c then t else u) := by split <;> assumption

theorem StateWrites.foldl {α : Type} {write : State → α → State} {l : List α} (h : ∀ v, ∀ a ∈ l, StateWrites p v (write v a))
    (s : State) : StateWrites p s (l.foldl write s) :=
  foldl_keeps_rel (StateWrites.refl p) (fun _ _ _ => StateWrites.trans) h s

/-- Only memory has changed. -/
theorem StateWrites.of_mem (h : OnlyParts [.mem] s t) (hb : ∀ b, ¬ p b → t.rd8 b = s.rd8 b)
    (hw : tabWf memDefault s.mem = true → tabWf memDefault t.mem = true) : StateWrites p s t :=
  ⟨hb, hw, h.mono (by decide), fget_congr (h .regs (by decide)) _, _, h .run (by decide)⟩

/-- Only registers have changed. -/
theorem StateWrites.of_regs {ps : List Part} {ks : List Nat} (h : OnlyParts ps s t) (hr : OnlyRegs ks s t)
    (hrun : ∃ b, t.run = { s.run with nonfinite := b }) (hk : HULL_ORCH_MODULE.base ∉ ks)
    (hp : ps ⊆ [.mem, .regs, .run, .outbox] ∧ .mem ∉ ps) : StateWrites p s t :=
  have hm : t.mem = s.mem := h .mem hp.2
  ⟨fun b _ => rd8_congr hm b, fun w => hm ▸ w, h.mono hp.1, hr.fget _ hk, hrun⟩

theorem StateWrites.onlyBytes {a n : Nat} (h : StateWrites p s t) (hp : ∀ b, p b → within a n b) : OnlyBytes a n s t :=
  fun b hb => h.bytes b (fun x => by have := hp b x; omega)

theorem StateWrites.rdN (h : StateWrites p s t) {a n : Nat} (hp : ∀ b, p b → ¬ within a n b) : t.rdN a n = s.rdN a n :=
  rdN_congr_range n a (fun b h1 h2 => h.bytes b (fun x => hp b x ⟨h1, h2⟩))

theorem StateWrites.image (h : StateWrites p s t) : t.image = s.image :=
  image_congr (congrArg JobRun.ctx (h.parts .job (by decide))) (h.parts .ctxs (by decide))

theorem StateWrites.rowCopied (h : StateWrites p s t) (e : TensorEnt) (i : Nat) : t.rowCopied e i = s.rowCopied e i := by
  simp only [State.rowCopied, State.myImage, h.image, h.module]

theorem StateWrites.readsOdd (h : StateWrites p s t) (e : TensorEnt) : t.readsOdd e = s.readsOdd e := by
  have hj : t.job = s.job := h.parts .job (by decide)
  have hc : t.ccr = s.ccr := h.parts .ccr (by decide)
  simp only [State.readsOdd, State.lagEnt, hj, hc]

theorem StateWrites.readBase (h : StateWrites p s t) (e : TensorEnt) : t.readBase e = s.readBase e := by
  simp only [State.readBase, h.readsOdd]

theorem StateWrites.writeBase (h : StateWrites p s t) (e : TensorEnt) : t.writeBase e = s.writeBase e := by
  simp only [State.writeBase, h.readsOdd]

end

theorem wrN_stateWrites (s : State) (a n v : Nat) : StateWrites (within a n) s (s.wrN a n v) :=
  .of_mem (wrN_onlyParts s n a v) (fun b hb => rd8_wrN_out b n s a v (by omega)) (wf_wrN n s a v)

/-! ### Events -/

/-- A field that is not HULL_ORCH_MODULE's. -/
abbrev offModule (f : Fld) : Prop := HULL_ORCH_MODULE.base ≠ f.base

theorem offModule_die {f : Fld} (d : Nat) (h : 0x14000000 ≤ f.base) : offModule (f.die d) := by
  have h1 : HULL_ORCH_MODULE.base < 0x14000000 := by decide
  have hd := die_base f d
  unfold offModule
  omega

theorem offModule_tile {f : Fld} (n : Nat) (h : 0x14000000 ≤ f.base) : offModule (f.tile n) := by
  have h1 : HULL_ORCH_MODULE.base < 0x14000000 := by decide
  have ht := tile_base f n
  unfold offModule
  omega

section
variable {p : Nat → Prop} (s : State)

theorem fadd_stateWrites (f : Fld) (k : Nat) (h : offModule f) : StateWrites p s (s.fadd f k) :=
  .of_regs (fadd_onlyParts s f k) (only_fadd (ks := [f.base]) s f k (.head _)) ⟨_, rfl⟩ (by simpa using h) (by decide)

theorem setSts_stateWrites (pg : Nat) (f : Fld) (h : offModule f) : StateWrites p s (s.setSts pg f) :=
  .of_regs (setSts_onlyParts s pg f) (only_setSts (ks := [f.base]) s pg f (.head _)) ⟨_, setSts_onlyParts s pg f .run (by decide)⟩
    (by simpa using h) (by decide)

theorem record_stateWrites (v : Fld) (l : List (Fld × Nat)) (hv : offModule v) (hl : ∀ q ∈ l, offModule q.1) :
    StateWrites p s (s.record v l) :=
  .of_regs (record_onlyParts s v l) (only_record (ks := v.base :: l.map (fun q => q.1.base)) s v l (.head _)
      (fun q hq => .tail _ (List.mem_map.2 ⟨q, hq, rfl⟩))) ⟨_, record_onlyParts s v l .run (by decide)⟩
    (fun hm => (List.mem_cons.1 hm).elim hv (fun hm => by
      obtain ⟨q, hq, he⟩ := List.mem_map.1 hm
      exact hl q hq he.symm)) (by decide)

theorem setNonfinite_stateWrites (pg : Nat) : StateWrites p s (s.setNonfinite pg) :=
  .of_regs (setNonfinite_onlyParts s pg) (only_setNonfinite (ks := [HULL_NF_FIRST.base, HULL_FAULT_STS.base]) s pg (by decide) (by decide))
    ⟨true, setNonfinite_run s pg⟩ (by decide) (by decide)

/-- An event of a die, recorded, counted and shown. -/
theorem dieEvent_stateWrites (v c g : Fld) (l : List (Fld × Nat)) (d pg k : Nat) (hl : ∀ q ∈ l, offModule q.1)
    (h : 0x14000000 ≤ v.base ∧ 0x14000000 ≤ c.base ∧ 0x14000000 ≤ g.base) :
    StateWrites p s (((s.record (v.die d) l).fadd (c.die d) k).setSts pg (g.die d)) :=
  ((record_stateWrites s _ l (offModule_die d h.1) hl).trans (fadd_stateWrites _ _ k (offModule_die d h.2.1))).trans
    (setSts_stateWrites _ pg _ (offModule_die d h.2.2))

section
variable (n : Nat)

theorem statEvent_stateWrites (tensor elem bits : Nat) (sat : Bool) : StateWrites p s (s.statEvent n tensor elem bits sat) := by
  unfold State.statEvent
  extract_lets d
  split
  · exact .refl p s
  next cause _ =>
    have hl : ∀ q ∈ [(CD_STAT_FIRST_TENSOR.die d, tensor), (CD_STAT_FIRST_ELEMENT.die d, elem), (CD_STAT_FIRST_CAUSE.die d, cause)],
        offModule q.1 := by
      simp only [List.forall_mem_cons]
      exact ⟨offModule_die d (by decide), offModule_die d (by decide), offModule_die d (by decide), fun q m => nomatch m⟩
    exact .ite (dieEvent_stateWrites s _ _ _ _ d _ 1 hl (by decide))
      ((dieEvent_stateWrites s _ _ _ _ d _ 1 hl (by decide)).trans (setNonfinite_stateWrites _ _))

theorem updEvent_stateWrites (tensor elem role : Nat) (v : FVal) (sat : Bool) : StateWrites p s (s.updEvent n tensor elem role v sat) := by
  unfold State.updEvent
  extract_lets d
  split
  · exact .refl p s
  next cause _ =>
    have hl : ∀ q ∈ [(CD_UPD_FIRST_TENSOR.die d, tensor), (CD_UPD_FIRST_ELEMENT.die d, elem), (CD_UPD_FIRST_CAUSE.die d, cause),
        (CD_UPD_FIRST_ROLE.die d, role)], offModule q.1 := by
      simp only [List.forall_mem_cons]
      exact ⟨offModule_die d (by decide), offModule_die d (by decide), offModule_die d (by decide), offModule_die d (by decide),
        fun q m => nomatch m⟩
    exact .ite (dieEvent_stateWrites s _ _ _ _ d _ 1 hl (by decide))
      ((dieEvent_stateWrites s _ _ _ _ d _ 1 hl (by decide)).trans (setNonfinite_stateWrites _ _))

theorem copyEvents_stateWrites (t : TensorEnt) (i : Nat) : StateWrites p s (s.copyEvents n t i) :=
  .ite (.refl p s) (.foldl (fun v k _ => statEvent_stateWrites v n _ _ _ _) s)

theorem fmtShare_stateWrites (src f h e amount : Nat) : StateWrites p s (s.fmtShare n src f h e amount) := by
  refine .ite (.refl p s) (fadd_stateWrites s _ _ (offModule_tile n ?_))
  have e1 : (TILE_FMT_SHARE_COUNT.ix (1024 * src + 128 * f + 8 * h + e)).base = 0x14102000 + (1024 * src + 128 * f + 8 * h + e) * 8 := rfl
  omega

theorem convEvents_stateWrites (f h : Nat) (c : EvCnt) : StateWrites p s (s.convEvents n f h c) := by
  have h6 : StateWrites p s _ := ((((((fmtShare_stateWrites s n 1 f h 0 c.prod).trans (fmtShare_stateWrites _ n 1 f h 1 c.sat)).trans
    (fmtShare_stateWrites _ n 1 f h 2 c.van)).trans (fmtShare_stateWrites _ n 1 f h 3 c.sub)).trans
    (fmtShare_stateWrites _ n 1 f h 4 c.nanGen)).trans (fmtShare_stateWrites _ n 1 f h 5 c.nanProp))
  exact .ite h6 (h6.trans (setNonfinite_stateWrites _ _))

theorem veEvents_stateWrites (h : Nat) (c : EvCnt) : StateWrites p s (s.veEvents n h c) := by
  have h6 : StateWrites p s _ := ((((((fmtShare_stateWrites s n 1 0 h 0 c.prod).trans (fmtShare_stateWrites _ n 1 0 h 1 c.sat)).trans
    (fmtShare_stateWrites _ n 1 0 h 2 c.van)).trans (fmtShare_stateWrites _ n 1 0 h 3 c.sub)).trans
    (fmtShare_stateWrites _ n 1 0 h 4 c.nanGen)).trans (fmtShare_stateWrites _ n 1 0 h 5 c.nanProp))
  exact .ite h6 (h6.trans (setNonfinite_stateWrites _ _))

end

end

/-! ### Bytes copied -/

section
variable (s : State) (src dst n : Nat)

theorem copyBytes_stateWrites : StateWrites (within dst n) s (s.copyBytes src dst n) := by
  refine .of_mem (copyBytes_onlyParts s src dst n) ?_ ?_
  · intro b hb
    induction n generalizing s src dst with
    | zero => rfl
    | succ n ih => exact (ih (s.wr8 dst (s.rd8 src)) (src + 1) (dst + 1) (by omega)).trans (rd8_wr8_ne s dst b _ (by omega))
  · intro h
    induction n generalizing s src dst with
    | zero => exact h
    | succ n ih => exact ih _ _ _ (wf_wr8 s dst _ h)

/-- What a run of bytes holds once a run apart from it is copied there. -/
theorem rd8_copyBytes (h : tabWf memDefault s.mem = true) (hd : Apart src n dst n) {b : Nat} (hb : b < n) :
    (s.copyBytes src dst n).rd8 (dst + b) = s.rd8 (src + b) := by
  induction n generalizing s src dst b with
  | zero => omega
  | succ n ih =>
    cases b with
    | zero =>
      refine ((copyBytes_stateWrites (s.wr8 dst (s.rd8 src)) (src + 1) (dst + 1) n).bytes dst (by omega)).trans ?_
      exact rd8_wr8_same s dst _ h
    | succ b =>
      have hs := ih (s.wr8 dst (s.rd8 src)) (src + 1) (dst + 1) (wf_wr8 s dst _ h) (by omega) (b := b) (by omega)
      rw [show src + 1 + b = src + (b + 1) by omega, show dst + 1 + b = dst + (b + 1) by omega] at hs
      exact hs.trans (rd8_wr8_ne s dst _ _ (by omega))

end

end Sys2Proof.Laws
end

section
/-! PROOFS. COPY (R190, R218). -/

namespace Sys2Proof.Laws

open Sys2Proof.Machine Sys2Proof.Safety

/-! ### Writes under an invariant -/

/-- Writes apart from one another, each under what all of them keep: each place shows what was written. -/
theorem foldl_writes_under {α β : Type} {P : State → Prop} {write : State → α → State} {read : State → α → β} {val : α → β} {l : List α}
    (hP : ∀ s, ∀ a ∈ l, P s → P (write s a)) (hsame : ∀ s, ∀ a ∈ l, P s → read (write s a) a = val a)
    (hne : ∀ s, P s → ∀ a ∈ l, ∀ b ∈ l, a ≠ b → read (write s b) a = read s a) (hnd : l.Nodup) {s : State} (hs : P s) :
    ∀ a ∈ l, read (l.foldl write s) a = val a := by
  induction l generalizing s with
  | nil => exact fun a ha => nomatch ha
  | cons c l ih =>
    obtain ⟨hc, hl⟩ := List.nodup_cons.1 hnd
    have hrest := ih (fun s a ha => hP s a (.tail _ ha)) (fun s a ha => hsame s a (.tail _ ha))
      (fun s h a ha b hb => hne s h a (.tail _ ha) b (.tail _ hb)) hl (hP s c (.head _) hs)
    intro a ha
    rcases List.mem_cons.1 ha with rfl | ha
    · exact (List.foldlRecOn (motive := fun v => P v ∧ read v a = val a) l write ⟨hP s a (.head _) hs, hsame s a (.head _) hs⟩
        (fun v hv b hb => ⟨hP v b (.tail _ hb) hv.1,
          (hne v hv.1 a (.head _) b (.tail _ hb) (fun e => hc (e ▸ hb))).trans hv.2⟩)).2
    · exact hrest a ha

/-! ### The places of rows -/

/-- Rows `i` and `k`, in order, of blocks of `b` rows, each with its own width. -/
theorem blockRows_le {b : Nat} (hb : 0 < b) {nb : Nat → Nat} (hn : ∀ q, nb q ≤ b) {i k : Nat} (h : i < k) :
    i / b * b * b + i % b * nb (i / b) + nb (i / b) ≤ k / b * b * b + k % b * nb (k / b) := by
  have hlast : i % b * nb (i / b) + nb (i / b) = (i % b + 1) * nb (i / b) := by ring
  rcases Nat.lt_or_eq_of_le (Nat.div_le_div_right (c := b) h.le) with hq | hq
  · calc i / b * b * b + i % b * nb (i / b) + nb (i / b) = i / b * b * b + (i % b + 1) * nb (i / b) := by rw [Nat.add_assoc, hlast]
      _ ≤ i / b * b * b + b * b := Nat.add_le_add_left (Nat.mul_le_mul (Nat.mod_lt i hb) (hn _)) _
      _ = (i / b + 1) * (b * b) := by ring
      _ ≤ k / b * (b * b) := Nat.mul_le_mul_right _ hq
      _ = k / b * b * b := by ring
      _ ≤ k / b * b * b + k % b * nb (k / b) := Nat.le_add_right _ _
  · have hr : i % b < k % b := by
      have h1 := Nat.div_add_mod i b
      have h2 := Nat.div_add_mod k b
      rw [← hq] at h2
      omega
    calc i / b * b * b + i % b * nb (i / b) + nb (i / b) = i / b * b * b + (i % b + 1) * nb (i / b) := by rw [Nat.add_assoc, hlast]
      _ ≤ i / b * b * b + k % b * nb (i / b) := Nat.add_le_add_left (Nat.mul_le_mul_right _ hr) _
      _ = k / b * b * b + k % b * nb (k / b) := by rw [hq]

theorem rowPlace_le (t : TensorEnt) {i k : Nat} (h : i < k) : (rowPlace t i).1 + (rowPlace t i).2 ≤ (rowPlace t k).1 := by
  unfold rowPlace
  split
  · calc (t.col1 - t.col0) * fmtBytes t.fmt * i + (t.col1 - t.col0) * fmtBytes t.fmt
        = (t.col1 - t.col0) * fmtBytes t.fmt * (i + 1) := by ring
      _ ≤ (t.col1 - t.col0) * fmtBytes t.fmt * k := Nat.mul_le_mul_left _ h
  · split
    · change 4 * i + 4 ≤ 4 * k
      omega
    · extract_lets b side nbi nbk
      have := blockRows_le (b := b) (Nat.two_pow_pos _) (nb := fun q => min b (side - q * b)) (fun q => Nat.min_le_left _ _) h
      change 4 * (i / b * b * b + i % b * nbi) + 4 * nbi ≤ 4 * (k / b * b * b + k % b * nbk)
      change i / b * b * b + i % b * nbi + nbi ≤ k / b * b * b + k % b * nbk at this
      omega

/-- A row of a state tensor lies apart from the others. -/
theorem rowPlace_apart (t : TensorEnt) {i k : Nat} (h : i ≠ k) :
    Apart (rowPlace t i).1 (rowPlace t i).2 (rowPlace t k).1 (rowPlace t k).2 :=
  (Nat.lt_or_gt_of_ne h).imp (rowPlace_le t) (rowPlace_le t)

/-! ### COPY -/

section
variable {s : State} {n : Nat} {w : Word256}

theorem exec_copy (h : Issues s n w 0x51) :
    exec (.copy n w) s = .next ((s.advance (s.issueAbs w)).veCopy n w (s.issueAbs w) none) := by
  obtain ⟨-, -, hr, ha⟩ := issues_parts h
  change Host.Outcome.next _ = _
  rw [if_pos hr, ha]

/-- The state tensor that the word names. -/
abbrev copyTensor (s : State) (w : Word256) : Option TensorEnt :=
  s.myImage.bind (fun f => f.stateMap.find? (fun t => t.tensor == getBits (wX w) 0 20))

/-- The first row that the word names. -/
abbrev copyRow (s : State) (w : Word256) (t : TensorEnt) : Nat := rowAtOff t (s.statePlace (wA w) - s.readBase t)

/-- The rows that the word copies. -/
abbrev copyRows (s : State) (w : Word256) (t : TensorEnt) : List Nat :=
  (range' 0 (128 * (wY w + 1))).filter (fun i => s.mayWrite t && decide (copyRow s w t + i < stateRows t) &&
    s.rowCopied t (copyRow s w t + i))

/-- One row copied, with the events of its elements. -/
def copyOne (n : Nat) (t : TensorEnt) (v : State) (i : Nat) : State :=
  (v.copyBytes (v.readBase t + (rowPlace t i).1) (v.writeBase t + (rowPlace t i).1) (rowPlace t i).2).copyEvents n t i

/-- What the word is under way for. -/
abbrev copyBegun (s : State) (n : Nat) (w : Word256) (t : TensorEnt) : State :=
  begun s n w 484 (((rowPlace t (copyRow s w t + 128 * (wY w + 1))).1 - (rowPlace t (copyRow s w t)).1) / 256)

theorem Begun.mayWrite {u : State} (h : Begun n s u) (t : TensorEnt) : u.mayWrite t = s.mayWrite t := by
  obtain ⟨q, hq⟩ := h.run
  have hj : u.job = s.job := h.reads.job
  simp only [State.mayWrite, hq, hj, h.reads.fget HULL_ORCH_MODULE (by decide)]

theorem Begun.rowCopied {u : State} (h : Begun n s u) (t : TensorEnt) (i : Nat) : u.rowCopied t i = s.rowCopied t i := by
  simp only [State.rowCopied, h.reads.myImage]

theorem veCopy_none (ht : copyTensor s w = none) :
    (s.advance (s.issueAbs w)).veCopy n w (s.issueAbs w) none = (issued s n w).streamFault n w := by
  have ht' : (s.advance (s.issueAbs w)).myImage.bind (fun f => f.stateMap.find? (fun t => t.tensor == getBits (wX w) 0 20)) = none := ht
  unfold State.veCopy
  rw [ht']

theorem veCopy_eq {t : TensorEnt} (ht : copyTensor s w = some t) :
    (s.advance (s.issueAbs w)).veCopy n w (s.issueAbs w) none =
      (copyRows s w t).foldl (fun v i => copyOne n t v (copyRow s w t + i)) (copyBegun s n w t) := by
  have ht' : (s.advance (s.issueAbs w)).myImage.bind (fun f => f.stateMap.find? (fun t => t.tensor == getBits (wX w) 0 20)) = some t := ht
  have hb : Begun n s (copyBegun s n w t) := begun_begun s n w _ _
  unfold State.veCopy
  rw [ht']
  dsimp -zeta only
  refine congrArg (fun l => List.foldl (fun v i => copyOne n t v (copyRow s w t + i)) (copyBegun s n w t) l) ?_
  refine List.filter_congr (fun i _ => ?_)
  have h1 := hb.mayWrite t
  have h2 := hb.rowCopied t (copyRow s w t + i)
  simp only [inTime, Bool.and_true]
  rw [← h1, ← h2]
  rfl

/-! ### Rows copied -/

section
variable {t : TensorEnt}

theorem copyOne_stateWrites (v : State) (i : Nat) :
    StateWrites (within (v.writeBase t + (rowPlace t i).1) (rowPlace t i).2) v (copyOne n t v i) :=
  (copyBytes_stateWrites v _ _ _).trans (copyEvents_stateWrites _ n t i)

/-- The bytes of the other bank that copied rows take. -/
def copiedBytes (s : State) (t : TensorEnt) (l : List Nat) (b : Nat) : Prop :=
  ∃ i ∈ l, within (s.writeBase t + (rowPlace t i).1) (rowPlace t i).2 b

variable {l : List Nat} {u : State}

theorem copyOnes_stateWrites : StateWrites (copiedBytes u t l) u (l.foldl (copyOne n t) u) :=
  List.foldlRecOn l _ (.refl _ u) (fun v hv i hi => hv.trans ((copyOne_stateWrites v i).mono (fun b hb => by
    rw [hv.writeBase] at hb
    exact ⟨i, hi, hb⟩)))

/-- Each row that is copied reads as it stood in the bank that the step reads. -/
theorem copyOnes_read (hw : tabWf memDefault u.mem = true) (hnd : l.Nodup)
    (hapart : ∀ i ∈ l, ∀ k ∈ l, Apart (u.readBase t + (rowPlace t i).1) (rowPlace t i).2 (u.writeBase t + (rowPlace t k).1) (rowPlace t k).2)
    {i b : Nat} (hi : i ∈ l) (hb : b < (rowPlace t i).2) :
    (l.foldl (copyOne n t) u).rd8 (u.writeBase t + (rowPlace t i).1 + b) = u.rd8 (u.readBase t + (rowPlace t i).1 + b) := by
  have hall := foldl_writes_under (l := l) (P := fun v => tabWf memDefault v.mem = true ∧ StateWrites (copiedBytes u t l) u v) (write := copyOne n t)
    (read := fun v i b => if b < (rowPlace t i).2 then v.rd8 (u.writeBase t + (rowPlace t i).1 + b) else 0)
    (val := fun i b => if b < (rowPlace t i).2 then u.rd8 (u.readBase t + (rowPlace t i).1 + b) else 0)
    (fun v i hi hv => ⟨(copyOne_stateWrites v i).wf hv.1, hv.2.trans ((copyOne_stateWrites v i).mono (fun b hb => by
      rw [hv.2.writeBase] at hb
      exact ⟨i, hi, hb⟩))⟩)
    (fun v i hi hv => ?_) (fun v hv i hi k hk hik => ?_) hnd (s := u) ⟨hw, .refl _ u⟩
  · have := congrFun (hall i hi) b
    simpa [if_pos hb] using this
  · funext b
    by_cases hb : b < (rowPlace t i).2
    · have hevents := copyEvents_stateWrites (p := fun _ => False)
        (v.copyBytes (v.readBase t + (rowPlace t i).1) (v.writeBase t + (rowPlace t i).1) (rowPlace t i).2) n t i
      rw [if_pos hb, if_pos hb, copyOne, hevents.bytes _ not_false]
      rw [← hv.2.writeBase, rd8_copyBytes v _ _ _ hv.1 (by rw [hv.2.writeBase, hv.2.readBase]; exact hapart i hi i hi) hb, hv.2.readBase]
      refine hv.2.bytes _ (fun ⟨k, hk, hm⟩ => ?_)
      have := hapart i hi k hk
      omega
    · rw [if_neg hb, if_neg hb]
  · funext b
    by_cases hb : b < (rowPlace t i).2
    · rw [if_pos hb, if_pos hb]
      refine (copyOne_stateWrites v k).bytes _ (fun hm => ?_)
      rw [hv.2.writeBase] at hm
      have := rowPlace_apart t hik
      omega
    · rw [if_neg hb, if_neg hb]

end

/-! ### What a COPY comes to -/

/-- The rows of the shard that the word copies. -/
abbrev copiedRows (s : State) (w : Word256) (t : TensorEnt) : List Nat := (copyRows s w t).map (fun i => copyRow s w t + i)

theorem copiedRows_nodup (t : TensorEnt) : (copiedRows s w t).Nodup :=
  ((range'_nodup _ _).filter _).map (fun _ _ h => Nat.add_left_cancel h)

theorem mem_copiedRows {t : TensorEnt} (hm : s.mayWrite t = true) (i : Nat) : i ∈ copiedRows s w t ↔
    copyRow s w t ≤ i ∧ i < copyRow s w t + 128 * (wY w + 1) ∧ i < stateRows t ∧ s.rowCopied t i = true := by
  simp only [copiedRows, copyRows, List.mem_map, List.mem_filter, mem_range', hm, Bool.true_and, Bool.and_eq_true, decide_eq_true_eq]
  constructor
  · rintro ⟨k, ⟨hk, h1, h2⟩, rfl⟩
    exact ⟨by omega, by omega, h1, h2⟩
  · rintro ⟨h1, h2, h3, h4⟩
    refine ⟨i - copyRow s w t, ⟨by omega, by omega, ?_⟩, by omega⟩
    rwa [Nat.add_sub_cancel' h1]

theorem copiedRows_barred {t : TensorEnt} (hm : s.mayWrite t = false) : copiedRows s w t = [] := by
  simp [copiedRows, copyRows, hm]

section
variable (h : Issues s n w 0x51)
include h

theorem copy_none (ht : copyTensor s w = none) : ∃ t, exec (.copy n w) s = .next t ∧ StreamFaults n w s t := by
  refine ⟨_, exec_copy h, ?_⟩
  rw [veCopy_none ht]
  exact (issued_begun s n w).streamFaults h.1 w

variable {t : TensorEnt} (ht : copyTensor s w = some t)
include ht

theorem copy_eq : exec (.copy n w) s = .next ((copiedRows s w t).foldl (copyOne n t) (copyBegun s n w t)) := by
  rw [exec_copy h, veCopy_eq ht, List.foldl_map]

theorem copy_barred (hm : s.mayWrite t = false) :
    ∃ v, exec (.copy n w) s = .next v ∧ v.mem = s.mem ∧ OnlyParts [.now, .regs, .run, .tiles] s v := by
  have hb : Begun n s (copyBegun s n w t) := begun_begun s n w _ _
  refine ⟨_, copy_eq h ht, ?_⟩
  rw [copiedRows_barred hm]
  exact ⟨hb.reads.mem, hb.parts⟩

theorem copy_copies (hm : s.mayWrite t = true)
    (hapart : ∀ i, i < stateRows t → ∀ k, k < stateRows t →
      Apart (s.readBase t + (rowPlace t i).1) (rowPlace t i).2 (s.writeBase t + (rowPlace t k).1) (rowPlace t k).2) :
    ∃ v, exec (.copy n w) s = .next v ∧
      (∀ i ∈ copiedRows s w t, ∀ b, b < (rowPlace t i).2 →
        v.rd8 (s.writeBase t + (rowPlace t i).1 + b) = s.rd8 (s.readBase t + (rowPlace t i).1 + b)) ∧
      (∀ b, (∀ i ∈ copiedRows s w t, b < s.writeBase t + (rowPlace t i).1 ∨ s.writeBase t + (rowPlace t i).1 + (rowPlace t i).2 ≤ b) →
        v.rd8 b = s.rd8 b) ∧
      OnlyParts [.now, .regs, .mem, .run, .tiles, .outbox] s v := by
  have hb : Begun n s (copyBegun s n w t) := begun_begun s n w _ _
  have hr := hb.reads.readBase t
  have hw := hb.reads.writeBase t
  have hwrites := copyOnes_stateWrites (n := n) (t := t) (l := copiedRows s w t) (u := copyBegun s n w t)
  refine ⟨_, copy_eq h ht, fun i hi b hlt => ?_, fun b hout => ?_, ?_⟩
  · rw [← hw, copyOnes_read (hb.inv h.1).1.2.1 (copiedRows_nodup t) (fun i hi k hk => ?_) hi hlt, hr, rd8_congr hb.reads.mem]
    rw [hr, hw]
    exact hapart i ((mem_copiedRows hm i).1 hi).2.2.1 k ((mem_copiedRows hm k).1 hk).2.2.1
  · refine (hwrites.bytes b (fun ⟨i, hi, hm⟩ => ?_)).trans (rd8_congr hb.reads.mem b)
    have := hout i hi
    omega
  · exact (hb.parts.mono (by decide)).trans (hwrites.parts.mono (by decide))

end

end

end Sys2Proof.Laws
end

section
/-! PROOFS. DECAY (R215, R217, R218). -/

namespace Sys2Proof.Laws

open Sys2Proof.Machine Sys2Proof.Safety

/-! ### One element of a statistic -/

section
variable (v : State) (n : Nat) (t : TensorEnt) (kappa : Nat) (copied : Bool) (off gidx x : Nat) (c : EvCnt)

/-- What an element of a statistic becomes: its decayed value with its contribution, or what it was. -/
def decayWord : Nat :=
  if copied then v.rdN (v.readBase t + 4 * off) 4 else (decayVal (v.rdN (v.readBase t + 4 * off) 4) x t.beta.toNat kappa {}).1

/-- The element written, with its event. -/
def decayStep : State := (v.decayEl n t kappa copied off gidx x {}).1

theorem decayEl_fst : (v.decayEl n t kappa copied off gidx x c).1 = decayStep v n t kappa copied off gidx x := by
  cases copied <;> rfl

theorem decayEl_value : (v.decayEl n t kappa copied off gidx x c).2.2.1 = decayWord v t kappa copied off x := by
  cases copied <;> rfl

theorem decayEl_sat : (v.decayEl n t kappa copied off gidx x c).2.2.2 = (v.decayEl n t kappa copied off gidx x {}).2.2.2 := by
  cases copied <;> rfl

theorem decayStep_eq : ∃ sat, decayStep v n t kappa copied off gidx x =
    (v.wrN (v.writeBase t + 4 * off) 4 (decayWord v t kappa copied off x)).statEvent n t.tensor gidx (decayWord v t kappa copied off x) sat := by
  cases copied <;> exact ⟨_, rfl⟩

theorem decayStep_stateWrites : StateWrites (within (v.writeBase t + 4 * off) 4) v (decayStep v n t kappa copied off gidx x) := by
  obtain ⟨sat, he⟩ := decayStep_eq v n t kappa copied off gidx x
  rw [he]
  exact (wrN_stateWrites v _ _ _).trans (statEvent_stateWrites _ n _ _ _ _)

theorem rdN_decayStep (h : tabWf memDefault v.mem = true) :
    (decayStep v n t kappa copied off gidx x).rdN (v.writeBase t + 4 * off) 4 = decayWord v t kappa copied off x % 2 ^ 32 := by
  obtain ⟨sat, he⟩ := decayStep_eq v n t kappa copied off gidx x
  rw [he, (statEvent_stateWrites (p := fun _ => False) _ n _ _ _ _).rdN (fun _ h => h.elim)]
  exact rdN_wrN 4 v _ _ h

/-- An element stands apart from what is written. -/
theorem decayWord_congr {p : Nat → Prop} {u : State} (h : StateWrites p u v)
    (hp : ∀ b, p b → ¬ within (u.readBase t + 4 * off) 4 b) : decayWord v t kappa copied off x = decayWord u t kappa copied off x := by
  unfold decayWord
  rw [h.readBase, h.rdN hp]

end

/-! ### DECAY -/

section
variable {s : State} {n : Nat} {w : Word256}

theorem exec_decay (h : Issues s n w 0x52) :
    exec (.decay n w) s = .next ((s.advance (s.issueAbs w)).veDecay n w (s.issueAbs w) none) := by
  obtain ⟨-, -, hr, ha⟩ := issues_parts h
  change Host.Outcome.next _ = _
  rw [if_pos hr, ha]

/-- The statistic that the word names, with its weight. -/
abbrev decayTensor (s : State) (w : Word256) : Option (TensorEnt × TensorEnt) :=
  s.myImage.bind (fun f => (f.stateMap.find? (fun t => t.tensor == getBits (wX w) 0 20 && 2 ≤ t.role && t.role ≤ 7)).bind
    (fun t => (imgWeight f t.parent).map (fun p => (t, p))))

theorem veDecay_none (ht : decayTensor s w = none) :
    (s.advance (s.issueAbs w)).veDecay n w (s.issueAbs w) none = (issued s n w).streamFault n w := by
  have ht' : (s.advance (s.issueAbs w)).myImage.bind (fun f => (f.stateMap.find? (fun t => t.tensor == getBits (wX w) 0 20 && 2 ≤ t.role &&
    t.role ≤ 7)).bind (fun t => (imgWeight f t.parent).map (fun p => (t, p)))) = none := ht
  unfold State.veDecay
  rw [ht']

section
variable {t p : TensorEnt}

/-- The word under way, of a row or column statistic and of a factor. -/
abbrev rowBegun (s : State) (n : Nat) (w : Word256) : State := begun s n w 16 1

abbrev factorSide (t : TensorEnt) : Nat := if t.role == 4 || t.role == 7 then t.row1 - t.row0 else t.col1 - t.col0

abbrev factorRows (w : Word256) (t : TensorEnt) : Nat := min (2 ^ t.block) (factorSide t - wY w * 2 ^ t.block)

abbrev factorBegun (s : State) (n : Nat) (w : Word256) (t : TensorEnt) : State :=
  begun s n w 16 (ceilDiv (factorRows w t * (factorRows w t + 1) / 2) 1024)

abbrev rowSide (t : TensorEnt) : Nat := if t.role == 2 then t.row1 - t.row0 else t.col1 - t.col0

/-- The elements of a row or column statistic that the word writes. -/
abbrev decayRows (s : State) (w : Word256) (t : TensorEnt) : List Nat :=
  (range' 0 128).filter (fun i => s.mayWrite t && decide (128 * wY w + i < rowSide t))

/-- One of them; its contribution is read on `u`. -/
def decayOne (u : State) (n : Nat) (w : Word256) (t : TensorEnt) (kappa : Nat) (v : State) (i : Nat) : State :=
  decayStep v n t kappa (u.rowCopied t (128 * wY w + i)) (128 * wY w + i)
    ((if t.role == 2 then t.row0 else t.col0) + (128 * wY w + i)) (u.rdN (wA w + 4 * i) 4)

variable (ht : decayTensor s w = some (t, p))
include ht

theorem veDecay_row (hr : t.role ≤ 3) :
    ∃ c, (s.advance (s.issueAbs w)).veDecay n w (s.issueAbs w) none =
      ((decayRows s w t).foldl (decayOne (rowBegun s n w) n w t (s.kappa t p)) (rowBegun s n w)).veEvents n (wPhase w) c := by
  have ht' : (s.advance (s.issueAbs w)).myImage.bind (fun f => (f.stateMap.find? (fun t => t.tensor == getBits (wX w) 0 20 && 2 ≤ t.role &&
    t.role ≤ 7)).bind (fun t => (imgWeight f t.parent).map (fun p => (t, p)))) = some (t, p) := ht
  unfold State.veDecay
  rw [ht']
  apply Exists.intro
  refine (if_pos hr).trans ?_
  refine congrArg (fun v => State.veEvents v n (wPhase w) _) ?_
  refine (foldl_fst_eq (g := decayOne (rowBegun s n w) n w t (s.kappa t p)) (fun a i => ?_) _ _).trans ?_
  · exact decayEl_fst ..
  · refine congrArg (fun l => List.foldl (decayOne (rowBegun s n w) n w t (s.kappa t p)) (rowBegun s n w) l) ?_
    refine List.filter_congr (fun i _ => ?_)
    simp only [inTime, Bool.and_true]
    rfl

end

/-! ### Row and column statistics -/

section
variable {t : TensorEnt} {kappa : Nat} {u : State}

/-- The bytes that the word writes of a row or column statistic. -/
def rowBytes (u : State) (w : Word256) (t : TensorEnt) (l : List Nat) (b : Nat) : Prop :=
  ∃ i ∈ l, within (u.writeBase t + 4 * (128 * wY w + i)) 4 b

theorem decayOne_stateWrites (v : State) {l : List Nat} {i : Nat} (hi : i ∈ l) (h : StateWrites (rowBytes u w t l) u v) :
    StateWrites (rowBytes u w t l) v (decayOne u n w t kappa v i) :=
  (decayStep_stateWrites v n t kappa _ _ _ _).mono (fun b hb => ⟨i, hi, by rwa [h.writeBase] at hb⟩)

theorem decayOnes_stateWrites (l : List Nat) : StateWrites (rowBytes u w t l) u (l.foldl (decayOne u n w t kappa) u) :=
  List.foldlRecOn l _ (.refl _ u) (fun v hv _ hi => hv.trans (decayOne_stateWrites v hi hv))

theorem decayOnes_read {l : List Nat} (hw : tabWf memDefault u.mem = true) (hnd : l.Nodup)
    (hapart : ∀ i ∈ l, ∀ k ∈ l, Apart (u.readBase t + 4 * (128 * wY w + i)) 4 (u.writeBase t + 4 * (128 * wY w + k)) 4) {i : Nat} (hi : i ∈ l) :
    (l.foldl (decayOne u n w t kappa) u).rdN (u.writeBase t + 4 * (128 * wY w + i)) 4 =
      decayWord u t kappa (u.rowCopied t (128 * wY w + i)) (128 * wY w + i) (u.rdN (wA w + 4 * i) 4) % 2 ^ 32 := by
  refine foldl_writes_under (P := fun v => tabWf memDefault v.mem = true ∧ StateWrites (rowBytes u w t l) u v)
    (write := decayOne u n w t kappa) (read := fun v i => v.rdN (u.writeBase t + 4 * (128 * wY w + i)) 4)
    (val := fun i => decayWord u t kappa (u.rowCopied t (128 * wY w + i)) (128 * wY w + i) (u.rdN (wA w + 4 * i) 4) % 2 ^ 32)
    (fun v i hi hv => ⟨(decayOne_stateWrites v hi hv.2).wf hv.1, hv.2.trans (decayOne_stateWrites v hi hv.2)⟩)
    (fun v i hi hv => ?_) (fun v hv i hi k hk hik => ?_) hnd ⟨hw, .refl _ u⟩ i hi
  · rw [← hv.2.writeBase]
    refine (rdN_decayStep v n t kappa _ _ _ _ hv.1).trans ?_
    rw [decayWord_congr v t kappa _ _ _ hv.2]
    rintro b ⟨k, hk, hm⟩ hb
    have := hapart i hi k hk
    omega
  · refine (decayStep_stateWrites v n t kappa _ _ _ _).rdN (fun b hb hm => ?_)
    rw [hv.2.writeBase] at hb
    omega

end

section
variable (h : Issues s n w 0x52)
include h

theorem decay_none (ht : decayTensor s w = none) : ∃ t, exec (.decay n w) s = .next t ∧ StreamFaults n w s t := by
  refine ⟨_, exec_decay h, ?_⟩
  rw [veDecay_none ht]
  exact (issued_begun s n w).streamFaults h.1 w

variable {t p : TensorEnt} (ht : decayTensor s w = some (t, p))
include ht

theorem decay_row (hr : t.role ≤ 3) (hm : s.mayWrite t = true)
    (hapart : Apart (s.readBase t) (4 * rowSide t) (s.writeBase t) (4 * rowSide t)) :
    ∃ v, exec (.decay n w) s = .next v ∧
      (∀ i, i < 128 → 128 * wY w + i < rowSide t → v.rdN (s.writeBase t + 4 * (128 * wY w + i)) 4 =
        decayWord s t (s.kappa t p) (s.rowCopied t (128 * wY w + i)) (128 * wY w + i) (s.rdN (wA w + 4 * i) 4) % 2 ^ 32) ∧
      OnlyBytes (s.writeBase t + 4 * (128 * wY w)) 512 s v ∧ OnlyBytes (s.writeBase t) (4 * rowSide t) s v ∧
      OnlyParts [.now, .regs, .mem, .run, .tiles, .outbox] s v := by
  have hb : Begun n s (rowBegun s n w) := begun_begun s n w _ _
  have hwb := hb.reads.writeBase t
  have hrb := hb.reads.readBase t
  have hin : ∀ i, i ∈ decayRows s w t ↔ i < 128 ∧ 128 * wY w + i < rowSide t := fun i => by
    simp [decayRows, mem_range', hm]
  have hnd : (decayRows s w t).Nodup := (range'_nodup _ _).filter _
  obtain ⟨c, he⟩ := veDecay_row (n := n) ht hr
  have hwrites := (decayOnes_stateWrites (n := n) (w := w) (t := t) (kappa := s.kappa t p) (u := rowBegun s n w) (decayRows s w t)).trans
    (veEvents_stateWrites _ n (wPhase w) c)
  have hevents := fun v => veEvents_stateWrites (p := fun _ => False) v n (wPhase w) c
  refine ⟨_, (exec_decay h).trans (by rw [he]), fun i h1 h2 => ?_, ?_, ?_, ?_⟩
  · rw [(hevents _).rdN (fun _ h => h.elim), ← hwb]
    refine (decayOnes_read (hb.inv h.1).1.2.1 hnd (fun i hi k hk => ?_) ((hin i).2 ⟨h1, h2⟩)).trans ?_
    · have h3 := (hin i).1 hi
      have h4 := (hin k).1 hk
      rw [hrb, hwb]
      omega
    · rw [hb.rowCopied, hb.reads.rdN]
      simp only [decayWord, hrb, hb.reads.rdN]
  · refine (OnlyBytes.of_mem _ _ hb.reads.mem).trans (hwrites.onlyBytes (fun b ⟨i, hi, hm⟩ => ?_))
    have h3 := (hin i).1 hi
    omega
  · refine (OnlyBytes.of_mem _ _ hb.reads.mem).trans (hwrites.onlyBytes (fun b ⟨i, hi, hm⟩ => ?_))
    have h3 := (hin i).1 hi
    omega
  · exact (hb.parts.mono (by decide)).trans (hwrites.parts.mono (by decide))

theorem decay_row_barred (hr : t.role ≤ 3) (hm : s.mayWrite t = false) :
    ∃ v, exec (.decay n w) s = .next v ∧ v.mem = s.mem ∧ OnlyParts [.now, .regs, .run, .tiles, .outbox] s v := by
  have hb : Begun n s (rowBegun s n w) := begun_begun s n w _ _
  obtain ⟨c, he⟩ := veDecay_row (n := n) ht hr
  have hnone : decayRows s w t = [] := by simp [decayRows, hm]
  rw [hnone] at he
  have hp := veEvents_onlyParts (rowBegun s n w) n (wPhase w) c
  exact ⟨_, (exec_decay h).trans (by rw [he]; rfl), Eq.trans (hp .mem (by decide)) hb.reads.mem, (hb.parts.mono (by decide)).trans (hp.mono (by decide))⟩

end

end

end Sys2Proof.Laws
end

section
/-! PROOFS. DECAY of a factor (R217): its upper triangle computed, written to both halves. -/

namespace Sys2Proof.Laws

open Sys2Proof.Machine Sys2Proof.Safety

/-! ### The upper triangle -/

/-- The cells of the upper triangle of `nb` rows, row by row. -/
def triangle (nb : Nat) : List (Nat × Nat) := (range' 0 nb).flatMap (fun i => (range' i (nb - i)).map (fun k => (i, k)))

theorem mem_triangle (nb : Nat) (c : Nat × Nat) : c ∈ triangle nb ↔ c.1 ≤ c.2 ∧ c.2 < nb := by
  simp only [triangle, List.mem_flatMap, List.mem_map, mem_range']
  constructor
  · rintro ⟨i, hi, k, hk, rfl⟩
    exact ⟨by omega, by omega⟩
  · exact fun h => ⟨c.1, by omega, c.2, by omega, rfl⟩

theorem triangle_nodup (nb : Nat) : (triangle nb).Nodup := by
  refine List.nodup_flatMap.2 ⟨fun i _ => (range'_nodup _ _).map (fun _ _ h => (Prod.ext_iff.1 h).2), ?_⟩
  refine List.Pairwise.imp ?_ (range'_nodup nb 0)
  intro i k hik
  refine List.disjoint_left.2 (fun c hi hk => hik ?_)
  simp only [List.mem_map] at hi hk
  obtain ⟨a, -, rfl⟩ := hi
  obtain ⟨b, -, hb⟩ := hk
  exact (Prod.ext_iff.1 hb).1.symm

theorem foldl_triangle {β : Type} (f : β → Nat × Nat → β) (nb : Nat) (x : β) :
    (triangle nb).foldl f x = (range' 0 nb).foldl (fun x i => (range' i (nb - i)).foldl (fun x k => f x (i, k)) x) x := by
  simp only [triangle, List.foldl_flatMap, List.foldl_map]

/-- Two cells of `nb` columns lie at different places. -/
theorem cell_inj {nb i k i' k' : Nat} (hk : k < nb) (hk' : k' < nb) (h : i * nb + k = i' * nb + k') : i = i' ∧ k = k' := by
  have hn : 0 < nb := by omega
  have h1 : (i * nb + k) / nb = i := by rw [Nat.add_comm, Nat.add_mul_div_right _ _ hn, Nat.div_eq_of_lt hk, Nat.zero_add]
  have h2 : (i' * nb + k') / nb = i' := by rw [Nat.add_comm, Nat.add_mul_div_right _ _ hn, Nat.div_eq_of_lt hk', Nat.zero_add]
  have hi : i = i' := by rw [← h1, ← h2, h]
  subst hi
  exact ⟨rfl, by omega⟩

theorem cell_lt {nb i k : Nat} (hi : i < nb) (hk : k < nb) : i * nb + k < nb * nb := by
  calc i * nb + k < i * nb + nb := by omega
    _ = (i + 1) * nb := by ring
    _ ≤ nb * nb := Nat.mul_le_mul_right _ hi

/-! ### One cell and its mirror -/

section
variable (u : State) (n : Nat) (w : Word256) (t : TensorEnt) (kappa nb : Nat)

/-- Where a cell of the word's block lies in the shard. -/
abbrev cellOff (w : Word256) (t : TensorEnt) (nb i k : Nat) : Nat := wY w * 2 ^ t.block * 2 ^ t.block + i * nb + k

/-- Is the row or the column of a cell masked? -/
abbrev cellCopied (v : State) (w : Word256) (t : TensorEnt) (c : Nat × Nat) : Bool :=
  v.rowCopied t (wY w * 2 ^ t.block + c.1) || v.rowCopied t (wY w * 2 ^ t.block + c.2)

/-- What a cell becomes. -/
abbrev cellWord (u v : State) (w : Word256) (t : TensorEnt) (kappa nb : Nat) (c : Nat × Nat) : Nat :=
  decayWord v t kappa (cellCopied v w t c) (cellOff w t nb c.1 c.2) (u.rdN (wA w + 4 * (c.1 * nb + c.2)) 4)

/-- The first row of the block in the whole matrix. -/
abbrev blockRow (w : Word256) (t : TensorEnt) : Nat := (if t.role == 4 || t.role == 7 then t.row0 else t.col0) + wY w * 2 ^ t.block

/-- A cell written with its mirror; the contributions are read, and the mirror placed, on `u`. -/
def cellStep (v : State) (c : Nat × Nat) : State :=
  let v1 := decayStep v n t kappa (cellCopied v w t c) (cellOff w t nb c.1 c.2) ((blockRow w t + c.1) * t.cols + blockRow w t + c.2)
    (u.rdN (wA w + 4 * (c.1 * nb + c.2)) 4)
  if c.1 == c.2 then v1
  else (v1.wrN (u.writeBase t + 4 * cellOff w t nb c.2 c.1) 4 (cellWord u v w t kappa nb c)).statEvent n t.tensor
    ((blockRow w t + c.2) * t.cols + blockRow w t + c.1) (cellWord u v w t kappa nb c)
    (v.decayEl n t kappa (cellCopied v w t c) (cellOff w t nb c.1 c.2) ((blockRow w t + c.1) * t.cols + blockRow w t + c.2)
      (u.rdN (wA w + 4 * (c.1 * nb + c.2)) 4) {}).2.2.2

/-- Where the cells of the word's block lie in the other bank. -/
abbrev blockBytes (b : Nat) : Prop := within (u.writeBase t + 4 * cellOff w t nb 0 0) (4 * nb * nb) b

variable {u n w t kappa nb} {v : State} (hv : StateWrites (blockBytes u w t nb) u v) {c : Nat × Nat} (hc : c ∈ triangle nb)
include hv

theorem cell_within {i k : Nat} (hi : i < nb) (hk : k < nb) (b : Nat) (hb : within (v.writeBase t + 4 * cellOff w t nb i k) 4 b) :
    blockBytes u w t nb b := by
  have h1 := cell_lt hi hk
  have h2 : 4 * (nb * nb) = 4 * nb * nb := by ring
  rw [hv.writeBase] at hb
  unfold blockBytes within cellOff at *
  omega

include hc

theorem cellStep_stateWrites : StateWrites (blockBytes u w t nb) v (cellStep u n w t kappa nb v c) := by
  obtain ⟨h1, h2⟩ := (mem_triangle nb c).1 hc
  have hfirst : StateWrites (blockBytes u w t nb) v _ :=
    (decayStep_stateWrites v n t kappa (cellCopied v w t c) (cellOff w t nb c.1 c.2) ((blockRow w t + c.1) * t.cols + blockRow w t + c.2)
      (u.rdN (wA w + 4 * (c.1 * nb + c.2)) 4)).mono (cell_within hv (by omega) h2)
  unfold cellStep
  refine .ite hfirst ((hfirst.trans ((wrN_stateWrites _ _ _ _).mono (fun b hb => ?_))).trans (statEvent_stateWrites _ n _ _ _ _))
  exact cell_within (.refl _ u) h2 (by omega) b hb

/-- What a cell becomes is read where nothing has been written. -/
theorem cellWord_stands (hapart : Apart (u.readBase t + 4 * cellOff w t nb 0 0) (4 * nb * nb) (u.writeBase t + 4 * cellOff w t nb 0 0) (4 * nb * nb)) :
    cellWord u v w t kappa nb c = cellWord u u w t kappa nb c := by
  obtain ⟨h1, h2⟩ := (mem_triangle nb c).1 hc
  have h3 := cell_lt (i := c.1) (k := c.2) (nb := nb) (by omega) h2
  have h4 : 4 * (nb * nb) = 4 * nb * nb := by ring
  unfold cellWord cellCopied
  rw [hv.rowCopied, hv.rowCopied]
  refine decayWord_congr v t kappa _ _ _ hv (fun b hb hm => ?_)
  unfold blockBytes within cellOff at *
  omega

theorem cellStep_read (hw : tabWf memDefault v.mem = true) :
    (cellStep u n w t kappa nb v c).rdN (u.writeBase t + 4 * cellOff w t nb c.1 c.2) 4 = cellWord u v w t kappa nb c % 2 ^ 32 ∧
    (cellStep u n w t kappa nb v c).rdN (u.writeBase t + 4 * cellOff w t nb c.2 c.1) 4 = cellWord u v w t kappa nb c % 2 ^ 32 := by
  obtain ⟨h1, h2⟩ := (mem_triangle nb c).1 hc
  have hfirst := rdN_decayStep v n t kappa (cellCopied v w t c) (cellOff w t nb c.1 c.2)
    ((blockRow w t + c.1) * t.cols + blockRow w t + c.2) (u.rdN (wA w + 4 * (c.1 * nb + c.2)) 4) hw
  rw [hv.writeBase] at hfirst
  have hwf := (decayStep_stateWrites v n t kappa (cellCopied v w t c) (cellOff w t nb c.1 c.2)
    ((blockRow w t + c.1) * t.cols + blockRow w t + c.2) (u.rdN (wA w + 4 * (c.1 * nb + c.2)) 4)).wf hw
  unfold cellStep
  by_cases he : c.1 = c.2
  · rw [if_pos (by simpa using he)]
    exact ⟨hfirst, Eq.trans (by rw [he]) hfirst⟩
  · rw [if_neg (by simpa using he)]
    have hevent := fun v' x y z => statEvent_stateWrites (p := fun _ => False) v' n t.tensor x y z
    rw [(hevent _ _ _ _).rdN (fun _ h => h.elim), (hevent _ _ _ _).rdN (fun _ h => h.elim)]
    refine ⟨(rdN_wrN_apart _ _ _ _ _ _ ?_).trans hfirst, rdN_wrN 4 _ _ _ hwf⟩
    have hne : c.1 * nb + c.2 ≠ c.2 * nb + c.1 := fun h => he (cell_inj h2 (by omega) h).1
    unfold cellOff
    omega

omit hc in
/-- Other cells stand, and their mirrors. -/
theorem cellStep_beside (d : Nat × Nat) (hd : d ∈ triangle nb) (hc : c ∈ triangle nb) (hne : d ≠ c) :
    (cellStep u n w t kappa nb v c).rdN (u.writeBase t + 4 * cellOff w t nb d.1 d.2) 4 = v.rdN (u.writeBase t + 4 * cellOff w t nb d.1 d.2) 4 ∧
    (cellStep u n w t kappa nb v c).rdN (u.writeBase t + 4 * cellOff w t nb d.2 d.1) 4 = v.rdN (u.writeBase t + 4 * cellOff w t nb d.2 d.1) 4 := by
  obtain ⟨h1, h2⟩ := (mem_triangle nb c).1 hc
  obtain ⟨h3, h4⟩ := (mem_triangle nb d).1 hd
  have hoff : ∀ i k, (i = d.1 ∧ k = d.2) ∨ (i = d.2 ∧ k = d.1) → i * nb + k ≠ c.1 * nb + c.2 ∧ i * nb + k ≠ c.2 * nb + c.1 := by
    intro i k hik
    refine ⟨fun e => hne ?_, fun e => hne ?_⟩
    · obtain ⟨e1, e2⟩ := cell_inj (by omega) h2 e
      exact Prod.ext (by omega) (by omega)
    · obtain ⟨e1, e2⟩ := cell_inj (by omega) (by omega) e
      exact Prod.ext (by omega) (by omega)
  have hstand : ∀ i k, (i = d.1 ∧ k = d.2) ∨ (i = d.2 ∧ k = d.1) →
      (cellStep u n w t kappa nb v c).rdN (u.writeBase t + 4 * cellOff w t nb i k) 4 = v.rdN (u.writeBase t + 4 * cellOff w t nb i k) 4 := by
    intro i k hik
    obtain ⟨g1, g2⟩ := hoff i k hik
    have hfirst := (decayStep_stateWrites v n t kappa (cellCopied v w t c) (cellOff w t nb c.1 c.2)
      ((blockRow w t + c.1) * t.cols + blockRow w t + c.2) (u.rdN (wA w + 4 * (c.1 * nb + c.2)) 4)).rdN
      (a := u.writeBase t + 4 * cellOff w t nb i k) (n := 4) (fun b hb hm => by
        rw [hv.writeBase] at hb
        unfold cellOff at *
        omega)
    unfold cellStep
    split
    · exact hfirst
    · rw [(statEvent_stateWrites (p := fun _ => False) _ n _ _ _ _).rdN (fun _ h => h.elim)]
      refine (rdN_wrN_apart _ _ _ _ _ _ ?_).trans hfirst
      unfold cellOff
      omega
  exact ⟨hstand _ _ (.inl ⟨rfl, rfl⟩), hstand _ _ (.inr ⟨rfl, rfl⟩)⟩

end

section
variable {u : State} {n : Nat} {w : Word256} {t : TensorEnt} {kappa nb : Nat}

theorem cellSteps_stateWrites : StateWrites (blockBytes u w t nb) u ((triangle nb).foldl (cellStep u n w t kappa nb) u) :=
  List.foldlRecOn _ _ (.refl _ u) (fun _ hv _ hc => hv.trans (cellStep_stateWrites hv hc))

theorem cellSteps_read (hw : tabWf memDefault u.mem = true)
    (hapart : Apart (u.readBase t + 4 * cellOff w t nb 0 0) (4 * nb * nb) (u.writeBase t + 4 * cellOff w t nb 0 0) (4 * nb * nb))
    {c : Nat × Nat} (hc : c ∈ triangle nb) :
    (((triangle nb).foldl (cellStep u n w t kappa nb) u).rdN (u.writeBase t + 4 * cellOff w t nb c.1 c.2) 4,
      ((triangle nb).foldl (cellStep u n w t kappa nb) u).rdN (u.writeBase t + 4 * cellOff w t nb c.2 c.1) 4) =
    (cellWord u u w t kappa nb c % 2 ^ 32, cellWord u u w t kappa nb c % 2 ^ 32) := by
  refine foldl_writes_under (P := fun v => tabWf memDefault v.mem = true ∧ StateWrites (blockBytes u w t nb) u v)
    (write := cellStep u n w t kappa nb)
    (read := fun v c => (v.rdN (u.writeBase t + 4 * cellOff w t nb c.1 c.2) 4, v.rdN (u.writeBase t + 4 * cellOff w t nb c.2 c.1) 4))
    (val := fun c => (cellWord u u w t kappa nb c % 2 ^ 32, cellWord u u w t kappa nb c % 2 ^ 32))
    (fun v c hc hv => ⟨(cellStep_stateWrites hv.2 hc).wf hv.1, hv.2.trans (cellStep_stateWrites hv.2 hc)⟩)
    (fun v c hc hv => ?_) (fun v hv d hd c hc hne => ?_) (triangle_nodup nb) ⟨hw, .refl _ u⟩ c hc
  · obtain ⟨h1, h2⟩ := cellStep_read (n := n) (kappa := kappa) hv.2 hc hv.1
    rw [cellWord_stands hv.2 hc hapart] at h1 h2
    exact Prod.ext h1 h2
  · obtain ⟨h1, h2⟩ := cellStep_beside (n := n) (kappa := kappa) hv.2 d hd hc hne
    exact Prod.ext h1 h2

end

/-! ### What a DECAY of a factor comes to -/

section
variable {s : State} {n : Nat} {w : Word256} {t p : TensorEnt} (ht : decayTensor s w = some (t, p))
include ht

theorem veDecay_factor (hr : 4 ≤ t.role) :
    ∃ c, (s.advance (s.issueAbs w)).veDecay n w (s.issueAbs w) none =
      ((if s.mayWrite t then (triangle (factorRows w t)).foldl (cellStep (factorBegun s n w t) n w t (s.kappa t p) (factorRows w t))
        (factorBegun s n w t) else factorBegun s n w t)).veEvents n (wPhase w) c := by
  have ht' : (s.advance (s.issueAbs w)).myImage.bind (fun f => (f.stateMap.find? (fun t => t.tensor == getBits (wX w) 0 20 && 2 ≤ t.role &&
    t.role ≤ 7)).bind (fun t => (imgWeight f t.parent).map (fun p => (t, p)))) = some (t, p) := ht
  unfold State.veDecay
  rw [ht']
  apply Exists.intro
  refine (if_neg (by omega)).trans ?_
  refine congrArg (fun v => State.veEvents v n (wPhase w) _) ?_
  have hm' : (s.advance (s.issueAbs w)).mayWrite t = s.mayWrite t := rfl
  rw [hm']
  cases hm : s.mayWrite t
  · simp only [Bool.false_and, List.filter_false, List.foldl_nil, List.foldl_fixed, Bool.false_eq_true, if_false]
  · simp only [inTime, Bool.and_true, List.filter_true, if_true]
    rw [foldl_triangle]
    refine foldl_fst_eq (fun a i => foldl_fst_eq (g := fun v k => cellStep (factorBegun s n w t) n w t (s.kappa t p) (factorRows w t) v (i, k))
      (fun a k => ?_) _ _) _ _
    unfold cellStep
    cases he : i == k
    · simp only [Bool.false_eq_true, if_false]
      rw [decayEl_fst, decayEl_value, decayEl_sat]
      rfl
    · simp only [if_true]
      exact decayEl_fst ..

variable (h : Issues s n w 0x52)
include h

theorem decay_factor_barred (hr : 4 ≤ t.role) (hm : s.mayWrite t = false) :
    ∃ v, exec (.decay n w) s = .next v ∧ v.mem = s.mem ∧ OnlyParts [.now, .regs, .run, .tiles, .outbox] s v := by
  have hb : Begun n s (factorBegun s n w t) := begun_begun s n w _ _
  obtain ⟨c, he⟩ := veDecay_factor (n := n) ht hr
  rw [hm, if_neg Bool.false_ne_true] at he
  have hp := veEvents_onlyParts (factorBegun s n w t) n (wPhase w) c
  exact ⟨_, (exec_decay h).trans (by rw [he]), Eq.trans (hp .mem (by decide)) hb.reads.mem,
    (hb.parts.mono (by decide)).trans (hp.mono (by decide))⟩

theorem decay_factor (hr : 4 ≤ t.role) (hm : s.mayWrite t = true)
    (hapart : Apart (s.readBase t + 4 * cellOff w t (factorRows w t) 0 0) (4 * factorRows w t * factorRows w t)
      (s.writeBase t + 4 * cellOff w t (factorRows w t) 0 0) (4 * factorRows w t * factorRows w t)) :
    ∃ v, exec (.decay n w) s = .next v ∧
      (∀ c ∈ triangle (factorRows w t),
        v.rdN (s.writeBase t + 4 * cellOff w t (factorRows w t) c.1 c.2) 4 = cellWord s s w t (s.kappa t p) (factorRows w t) c % 2 ^ 32 ∧
        v.rdN (s.writeBase t + 4 * cellOff w t (factorRows w t) c.2 c.1) 4 = cellWord s s w t (s.kappa t p) (factorRows w t) c % 2 ^ 32) ∧
      OnlyBytes (s.writeBase t + 4 * cellOff w t (factorRows w t) 0 0) (4 * factorRows w t * factorRows w t) s v ∧
      OnlyParts [.now, .regs, .mem, .run, .tiles, .outbox] s v := by
  have hb : Begun n s (factorBegun s n w t) := begun_begun s n w _ _
  have hwb := hb.reads.writeBase t
  have hrb := hb.reads.readBase t
  obtain ⟨c, he⟩ := veDecay_factor (n := n) ht hr
  rw [hm, if_pos rfl] at he
  have hevents := fun v => veEvents_stateWrites (p := fun _ => False) v n (wPhase w) c
  have hwrites := (cellSteps_stateWrites (n := n) (w := w) (t := t) (kappa := s.kappa t p) (nb := factorRows w t)
    (u := factorBegun s n w t)).trans (veEvents_stateWrites _ n (wPhase w) c)
  have hword : ∀ d, cellWord (factorBegun s n w t) (factorBegun s n w t) w t (s.kappa t p) (factorRows w t) d =
      cellWord s s w t (s.kappa t p) (factorRows w t) d := fun d => by
    simp only [cellWord, cellCopied, decayWord, hb.rowCopied, hrb, hb.reads.rdN]
  refine ⟨_, (exec_decay h).trans (by rw [he]), fun d hd => ?_, ?_, ?_⟩
  · have hread := cellSteps_read (n := n) (kappa := s.kappa t p) (hb.inv h.1).1.2.1 (by rw [hrb, hwb]; exact hapart) hd
    rw [hword, hwb] at hread
    obtain ⟨h1, h2⟩ := Prod.ext_iff.1 hread
    exact ⟨((hevents _).rdN (fun _ h => h.elim)).trans h1, ((hevents _).rdN (fun _ h => h.elim)).trans h2⟩
  · refine (OnlyBytes.of_mem _ _ hb.reads.mem).trans (hwrites.onlyBytes (fun b hm => ?_))
    rw [blockBytes, hwb] at hm
    exact hm
  · exact (hb.parts.mono (by decide)).trans (hwrites.parts.mono (by decide))

end

/-! ### Both words -/

section
variable {s : State} {w : Word256} {f : ImageFile} (hf : s.myImage = some f)
include hf

theorem copyTensor_eq : copyTensor s w = f.stateMap.find? (fun t => t.tensor == getBits (wX w) 0 20) := by
  rw [copyTensor, hf]
  rfl

theorem decayTensor_eq {t p : TensorEnt}
    (ht : f.stateMap.find? (fun t => t.tensor == getBits (wX w) 0 20 && 2 ≤ t.role && t.role ≤ 7) = some t)
    (hp : imgWeight f t.parent = some p) : decayTensor s w = some (t, p) := by
  rw [decayTensor, hf, Option.bind_some, ht, Option.bind_some, hp]
  rfl

theorem decayTensor_none
    (h : f.stateMap.find? (fun t => t.tensor == getBits (wX w) 0 20 && 2 ≤ t.role && t.role ≤ 7) = none ∨
      ∃ t, f.stateMap.find? (fun t => t.tensor == getBits (wX w) 0 20 && 2 ≤ t.role && t.role ≤ 7) = some t ∧ imgWeight f t.parent = none) :
    decayTensor s w = none := by
  rw [decayTensor, hf, Option.bind_some]
  rcases h with h | ⟨t, h, hp⟩
  · rw [h]
    rfl
  · rw [h, Option.bind_some, hp]
    rfl

end

/-- The roles of statistics. -/
theorem decayRole {f : ImageFile} {w : Word256} {t : TensorEnt}
    (ht : f.stateMap.find? (fun t => t.tensor == getBits (wX w) 0 20 && 2 ≤ t.role && t.role ≤ 7) = some t) : 2 ≤ t.role ∧ t.role ≤ 7 := by
  have := List.find?_some ht
  simp only [Bool.and_eq_true, decide_eq_true_eq] at this
  exact ⟨this.1.2, this.2⟩

theorem rowSide_eq {t : TensorEnt} (h : 2 ≤ t.role ∧ t.role ≤ 3) : rowSide t = stateRows t := by
  unfold rowSide stateRows
  rcases (by omega : t.role = 2 ∨ t.role = 3) with e | e <;> simp [e]

theorem factorSide_eq {t : TensorEnt} (h : 4 ≤ t.role ∧ t.role ≤ 7) : factorSide t = stateRows t := by
  unfold factorSide stateRows
  rcases (by omega : t.role = 4 ∨ t.role = 5 ∨ t.role = 6 ∨ t.role = 7) with e | e | e | e <;> simp [e]

/-- Settles O28: rows that a COPY names, elements that a DECAY computes, each in its place of the other bank. -/
theorem copyAndDecayWriteTheOtherBank : Obligations.CopyAndDecayWriteTheOtherBank := by
  intro s n w f hf
  refine ⟨fun h => ⟨fun ht => copy_none h ((copyTensor_eq hf).trans ht), fun t ht hm => copy_barred h ((copyTensor_eq hf).trans ht) hm,
    fun t ht hm hapart => ?_⟩, fun h => ⟨fun ht => decay_none h (decayTensor_none hf ht), fun t p ht hp hm => ?_,
    fun t p ht hp hm hr hapart => ?_, fun t p ht hp hm hr hapart => ?_⟩⟩
  · obtain ⟨v, he, hread, hstand, hparts⟩ := copy_copies h ((copyTensor_eq hf).trans ht) hm hapart
    exact ⟨v, he, fun i hi => hread i ((mem_copiedRows hm i).2 hi),
      fun b hb => hstand b (fun i hi => hb i ((mem_copiedRows hm i).1 hi)), hparts⟩
  · rcases Nat.lt_or_ge t.role 4 with hr | hr
    · exact decay_row_barred h (decayTensor_eq hf ht hp) (by omega) hm
    · exact decay_factor_barred (decayTensor_eq hf ht hp) h hr hm
  · have hside := rowSide_eq ⟨(decayRole ht).1, hr⟩
    obtain ⟨v, he, hread, h512, hlim, hparts⟩ := decay_row h (decayTensor_eq hf ht hp) hr hm (by rw [hside]; exact hapart)
    rw [hside] at hlim hread
    exact ⟨v, he, hread, h512, hlim, hparts⟩
  · have hside := factorSide_eq ⟨hr, (decayRole ht).2⟩
    have hrows : factorRows w t = min (2 ^ t.block) (stateRows t - wY w * 2 ^ t.block) := by rw [factorRows, hside]
    obtain ⟨v, he, hread, hbytes, hparts⟩ := decay_factor (decayTensor_eq hf ht hp) h hr hm (by rw [hrows]; exact hapart)
    rw [hrows] at hread hbytes
    exact ⟨v, he, fun i hi k hik hk => hread (i, k) ((mem_triangle _ _).2 ⟨hik, hk⟩), hbytes, hparts⟩

end Sys2Proof.Laws
end

section
/-! PROOFS. What an UPDATE is formed from (R273, R281 to R285): read before its first write. -/

namespace Sys2Proof.Laws

open Sys2Proof.Machine Sys2Proof.Safety

/-! ### Its scalars, its factors and its directions -/

section
variable {s t : State} (h : SameReads s t)
include h

theorem SameReads.factorDesc (f : ImageFile) (st b : Nat) : t.factorDesc f st b = s.factorDesc f st b := by
  simp only [State.factorDesc, h.readBase, h.rdN]

theorem SameReads.identitySide (f : ImageFile) (st b : Nat) : t.identitySide f st b = s.identitySide f st b := by
  unfold State.identitySide
  rw [h.factorDesc]

theorem SameReads.factorEl (f : ImageFile) (st : TensorEnt) (b i k : Nat) : t.factorEl f st b i k = s.factorEl f st b i k := by
  simp only [State.factorEl, h.readBase, h.rdN]

theorem SameReads.updGrad (x : UpdCtx) (st : UpdSet) (slot i j : Nat) (c : EvCnt) : t.updGrad x st slot i j c = s.updGrad x st slot i j c := by
  simp only [State.updGrad, h.rdN]

theorem SameReads.updFact (x : UpdCtx) (st : UpdSet) (g i j : Nat) (c : EvCnt) : t.updFact x st g i j c = s.updFact x st g i j c := by
  simp only [State.updFact, h.readBase, h.rdN]

theorem SameReads.updFactored (f : ImageFile) (x : UpdCtx) (g : Nat → Nat → Nat) : t.updFactored f x g = s.updFactored f x g := by
  simp only [State.updFactored, h.factorEl]

theorem SameReads.updFormed (f : ImageFile) (x : UpdCtx) (slot : Nat) (st : UpdSet) : t.updFormed f x slot st = s.updFormed f x slot st := by
  simp only [State.updFormed, h.updFactored, h.updGrad, h.updFact, State.liveSquares]

theorem SameReads.updSets (f : ImageFile) (x : UpdCtx) (slot : Nat) : t.updSets f x slot = s.updSets f x slot := by
  have hformed : t.updFormed f x slot = s.updFormed f x slot := funext (h.updFormed f x slot)
  simp only [State.updSets, h.lagEnt, h.ccr, h.nu, hformed]

end

section
variable {n : Nat} {s t : State} (h : Begun n s t)
include h

theorem Begun.redValue (p : RedPlanImg) (i x : Nat) : t.redValue p i x = s.redValue p i x := by
  simp only [State.redValue, h.accElAt, h.reads.rdN]

theorem Begun.updCtx (f : ImageFile) (e : TensorEnt) (rs : RuleSet) (bucket sPlan c : Nat) :
    t.updCtx f e rs bucket sPlan c = s.updCtx f e rs bucket sPlan c := by
  simp only [State.updCtx, h.redValue, h.reads.identitySide, h.reads.job, h.reads.ccr]

end

/-! ### What one element reads -/

/-- Two states that show an element of an update, and all it is formed from, alike. -/
structure ElementReads (x : UpdCtx) (slot i j : Nat) (s t : State) : Prop where
  readBase : ∀ e, t.readBase e = s.readBase e
  weight : t.rdN (s.readBase x.t + x.idx i j * fmtBytes x.t.fmt) (fmtBytes x.t.fmt) =
    s.rdN (s.readBase x.t + x.idx i j * fmtBytes x.t.fmt) (fmtBytes x.t.fmt)
  mom : ∀ m ∈ x.mom, t.rdN (s.readBase m + x.idx i j * momBytes x.rs) (momBytes x.rs) =
    s.rdN (s.readBase m + x.idx i j * momBytes x.rs) (momBytes x.rs)
  bucket : t.rdN (slot + bucketOff (shardRows x.t) x.wb i j) 4 = s.rdN (slot + bucketOff (shardRows x.t) x.wb i j) 4
  row : ∀ r ∈ x.rT, t.rdN (s.readBase r + 4 * i) 4 = s.rdN (s.readBase r + 4 * i) 4
  col : ∀ c ∈ x.cT, t.rdN (s.readBase c + 4 * (x.bucket * x.wb + j)) 4 = s.rdN (s.readBase c + 4 * (x.bucket * x.wb + j)) 4

section
variable {x : UpdCtx} {slot i j : Nat} {s t : State} (h : ElementReads x slot i j s t)
include h

theorem ElementReads.updFact (st : UpdSet) (g : Nat) (c : EvCnt) : t.updFact x st g i j c = s.updFact x st g i j c := by
  have hr : (match x.rT with | some r => t.rdN (t.readBase r + 4 * i) 4 | none => 0) =
      (match x.rT with | some r => s.rdN (s.readBase r + 4 * i) 4 | none => 0) := by
    split
    next r e => rw [h.readBase, h.row r e]
    next => rfl
  have hc : (match x.cT with | some r => t.rdN (t.readBase r + 4 * (x.bucket * x.wb + j)) 4 | none => 0) =
      (match x.cT with | some r => s.rdN (s.readBase r + 4 * (x.bucket * x.wb + j)) 4 | none => 0) := by
    split
    next r e => rw [h.readBase, h.col r e]
    next => rfl
  exact congrArg₂ (fun a b => factDir g a b x.invMeanR st.b2 x.rs.eps.toNat x.cold c) hr hc

theorem ElementReads.updDir (st : UpdSet) (c : EvCnt) : t.updDir x st slot i j c = s.updDir x st slot i j c := by
  simp only [State.updDir, State.updGrad, h.bucket, h.updFact]

theorem ElementReads.updEl (sets : List UpdSet) : t.updEl x sets slot i j = s.updEl x sets slot i j := by
  unfold State.updEl
  cases hx : x.mom with
  | none => simp only [h.readBase, h.weight, h.updDir]
  | some mt => simp only [h.readBase, h.weight, h.updDir, h.mom mt hx]

end

/-- An element of a row that does not train is what the bank that the step reads holds. -/
theorem updEl_untrained (s : State) (x : UpdCtx) (sets : List UpdSet) (slot i j : Nat) (h : rowTrained x.t (x.t.row0 + i) = false) :
    (s.updEl x sets slot i j).weight = s.rdN (s.readBase x.t + x.idx i j * fmtBytes x.t.fmt) (fmtBytes x.t.fmt) := by
  unfold State.updEl
  simp only [h]
  rfl

theorem rdN_lt (s : State) (a n : Nat) : s.rdN a n < 256 ^ n := by
  induction n generalizing a with
  | zero => exact Nat.one_pos
  | succ n ih =>
    have h1 := ih (a + 1)
    have h2 := (s.rd8 a).isLt
    simp only [State.rdN]
    rw [Nat.pow_succ]
    omega

end Sys2Proof.Laws
end

section
/-! PROOFS. The elements that an UPDATE writes (R275, R277, R278). -/

namespace Sys2Proof.Machine

/-! ### The shard that an update writes: its rows and columns, and the bytes of its elements -/

abbrev UpdCtx.rows (x : UpdCtx) : Nat := shardRows x.t

abbrev UpdCtx.cols (x : UpdCtx) : Nat := x.t.col1 - x.t.col0

abbrev UpdCtx.wBytes (x : UpdCtx) : Nat := fmtBytes x.t.fmt

abbrev UpdCtx.mBytes (x : UpdCtx) : Nat := momBytes x.rs

end Sys2Proof.Machine

namespace Sys2Proof.Laws

open Sys2Proof.Machine Sys2Proof.Safety

/-! ### Places in a shard -/

section
variable {x : UpdCtx} {i j i' j' : Nat} (hfit : (x.bucket + 1) * x.wb ≤ x.cols) (hj : j < x.wb)
include hfit hj

theorem idx_col_lt : x.bucket * x.wb + j < x.cols := by
  have : (x.bucket + 1) * x.wb = x.bucket * x.wb + x.wb := by ring
  omega

theorem idx_le (hi : i < x.rows) (k : Nat) : x.idx i j * k + k ≤ x.rows * x.cols * k := by
  have h1 : x.idx i j + 1 ≤ x.rows * x.cols := by
    calc x.idx i j + 1 = i * x.cols + (x.bucket * x.wb + j) + 1 := congrArg (· + 1) (Nat.add_assoc ..)
      _ ≤ i * x.cols + x.cols := by have := idx_col_lt hfit hj; omega
      _ = (i + 1) * x.cols := by ring
      _ ≤ x.rows * x.cols := Nat.mul_le_mul_right _ hi
  calc x.idx i j * k + k = (x.idx i j + 1) * k := by ring
    _ ≤ x.rows * x.cols * k := Nat.mul_le_mul_right _ h1

theorem idx_inj (hj' : j' < x.wb) (h : x.idx i j = x.idx i' j') : i = i' ∧ j = j' := by
  have h' : i * x.cols + (x.bucket * x.wb + j) = i' * x.cols + (x.bucket * x.wb + j') := by
    rw [← Nat.add_assoc, ← Nat.add_assoc]
    exact h
  obtain ⟨h1, h2⟩ := cell_inj (idx_col_lt hfit hj) (idx_col_lt hfit hj') h'
  exact ⟨h1, by omega⟩

end

/-! ### What an update writes -/

/-- The bytes of one element of weight and momentum, and of both shards, in the bank that the step writes. -/
def elementBytes (u : State) (x : UpdCtx) (i j b : Nat) : Prop :=
  within (u.writeBase x.t + x.idx i j * x.wBytes) x.wBytes b ∨
    ∃ mt ∈ x.mom, within (u.writeBase mt + x.idx i j * x.mBytes) x.mBytes b

def shardBytes (u : State) (x : UpdCtx) (b : Nat) : Prop :=
  within (u.writeBase x.t) (x.rows * x.cols * x.wBytes) b ∨ ∃ mt ∈ x.mom, within (u.writeBase mt) (x.rows * x.cols * x.mBytes) b

theorem elementBytes_shard {u : State} {x : UpdCtx} {i j : Nat} (hfit : (x.bucket + 1) * x.wb ≤ x.cols) (hi : i < x.rows)
    (hj : j < x.wb) (b : Nat) (h : elementBytes u x i j b) : shardBytes u x b := by
  have h1 := idx_le hfit hj hi x.wBytes
  have h2 := idx_le hfit hj hi x.mBytes
  refine h.imp (fun h => ?_) (fun ⟨mt, hm, h⟩ => ⟨mt, hm, ?_⟩)
  · unfold within at *
    omega
  · unfold within at *
    omega

/-- No byte of both. -/
abbrev Clear (p : Nat → Prop) (a n : Nat) : Prop := ∀ b, p b → ¬ within a n b

/-- What an update reads lies apart from what it writes, and its momentum from its weight. -/
structure UpdApart (u : State) (x : UpdCtx) (slot : Nat) : Prop where
  fits : (x.bucket + 1) * x.wb ≤ x.cols
  weight : Clear (shardBytes u x) (u.readBase x.t) (x.rows * x.cols * x.wBytes)
  mom : ∀ mt ∈ x.mom, Clear (shardBytes u x) (u.readBase mt) (x.rows * x.cols * x.mBytes)
  banks : ∀ mt ∈ x.mom, Apart (u.writeBase x.t) (x.rows * x.cols * x.wBytes) (u.writeBase mt) (x.rows * x.cols * x.mBytes)
  bucket : ∀ i, i < x.rows → ∀ j, j < x.wb → Clear (shardBytes u x) (slot + bucketOff x.rows x.wb i j) 4
  row : ∀ i, i < x.rows → ∀ j, j < x.wb → ∀ r ∈ x.rT, Clear (shardBytes u x) (u.readBase r + 4 * i) 4
  col : ∀ i, i < x.rows → ∀ j, j < x.wb → ∀ c ∈ x.cT, Clear (shardBytes u x) (u.readBase c + 4 * (x.bucket * x.wb + j)) 4

theorem UpdApart.elementReads {u v : State} {x : UpdCtx} {slot i j : Nat} (h : UpdApart u x slot) (hi : i < x.rows) (hj : j < x.wb)
    (hv : StateWrites (shardBytes u x) u v) : ElementReads x slot i j u v where
  readBase := hv.readBase
  weight := hv.rdN (fun b hb hm => h.weight b hb (by
    have := idx_le h.fits hj hi x.wBytes
    simp only [within, UpdCtx.wBytes] at *
    omega))
  mom := fun mt hmt => hv.rdN (fun b hb hm => h.mom mt hmt b hb (by
    have := idx_le h.fits hj hi x.mBytes
    simp only [within, UpdCtx.mBytes] at *
    omega))
  bucket := hv.rdN (h.bucket i hi j hj)
  row := fun r hr => hv.rdN (h.row i hi j hj r hr)
  col := fun c hc => hv.rdN (h.col i hi j hj c hc)

/-! ### One element -/

section
variable (v : State) (x : UpdCtx) (e : UpdEl) (i j : Nat)

/-- An element of weight and of momentum written. -/
def updStore : State :=
  match x.mom with
  | some mt => (v.wrN (v.writeBase x.t + x.idx i j * x.wBytes) x.wBytes e.weight).wrN (v.writeBase mt + x.idx i j * x.mBytes) x.mBytes e.mom
  | none => v.wrN (v.writeBase x.t + x.idx i j * x.wBytes) x.wBytes e.weight

theorem updStore_stateWrites : StateWrites (elementBytes v x i j) v (updStore v x e i j) := by
  have hw := (wrN_stateWrites v (v.writeBase x.t + x.idx i j * x.wBytes) x.wBytes e.weight).mono (q := elementBytes v x i j)
    (fun b hb => .inl hb)
  unfold updStore
  split
  next mt hm => exact hw.trans ((wrN_stateWrites _ _ _ _).mono (fun b hb => .inr ⟨mt, hm, hb⟩))
  next => exact hw

variable {v x e i j} (hw : tabWf memDefault v.mem = true)
include hw

theorem updStore_weight (hd : ∀ mt ∈ x.mom, Apart (v.writeBase x.t + x.idx i j * x.wBytes) x.wBytes (v.writeBase mt + x.idx i j * x.mBytes) x.mBytes) :
    (updStore v x e i j).rdN (v.writeBase x.t + x.idx i j * x.wBytes) x.wBytes = e.weight % 256 ^ x.wBytes := by
  unfold updStore
  split
  next mt hm => exact (rdN_wrN_apart _ _ _ _ _ _ (hd mt hm)).trans (rdN_wrN _ v _ _ hw)
  next => exact rdN_wrN _ v _ _ hw

theorem updStore_mom {mt : TensorEnt} (hm : mt ∈ x.mom) :
    (updStore v x e i j).rdN (v.writeBase mt + x.idx i j * x.mBytes) x.mBytes = e.mom % 256 ^ x.mBytes := by
  have hm' : x.mom = some mt := hm
  unfold updStore
  rw [hm']
  exact rdN_wrN _ _ _ _ (wf_wrN _ v _ _ hw)

end

/-- What follows the writes of an element is its events. -/
theorem updElem_events (v : State) (n : Nat) (w : Word256) (x : UpdCtx) (sets : List UpdSet) (i j : Nat) {p : Nat → Prop} :
    StateWrites p (updStore v x (v.updEl x sets (wA w) i j) i j) (v.updElem n w x sets i j) := by
  unfold State.updElem
  extract_lets gidx wbytes mbytes e s1 s2 s3 s4 s5
  have h2 : updStore v x e i j = s2 := by
    unfold updStore
    cases hx : x.mom with
    | none => exact Eq.symm (by simp only [s2, hx]; rfl)
    | some mt => exact Eq.symm (by simp only [s2, hx]; rfl)
  rw [h2]
  clear_value s2
  have h3 : StateWrites p s2 s3 := updEvent_stateWrites ..
  have h4 : StateWrites p s2 s4 := by
    simp only [s4]
    split
    · exact h3.trans (updEvent_stateWrites ..)
    · exact h3
  have h5 : StateWrites p s2 s5 := h4.trans (convEvents_stateWrites ..)
  exact .ite (.refl p s2) ((StateWrites.ite (h5.trans (convEvents_stateWrites ..)) h5).trans (veEvents_stateWrites ..))

/-! ### All elements of the bucket -/

/-- The elements of the bucket. -/
abbrev bucketEls (x : UpdCtx) : List (Nat × Nat) := range' 0 x.rows ×ˢ range' 0 x.wb

theorem mem_bucketEls {x : UpdCtx} (c : Nat × Nat) : c ∈ bucketEls x ↔ c.1 < x.rows ∧ c.2 < x.wb := by
  obtain ⟨i, j⟩ := c
  refine List.mem_product.trans ((and_congr (mem_range' _ _ _) (mem_range' _ _ _)).trans ?_)
  omega

section
variable {u : State} {n : Nat} {w : Word256} {x : UpdCtx} {sets : List UpdSet} (ha : UpdApart u x (wA w))
include ha

theorem updElem_stateWrites {v : State} (hv : StateWrites (shardBytes u x) u v) {c : Nat × Nat} (hc : c ∈ bucketEls x) :
    StateWrites (shardBytes u x) v (v.updElem n w x sets c.1 c.2) := by
  obtain ⟨hi, hj⟩ := (mem_bucketEls c).1 hc
  refine ((updStore_stateWrites v x _ c.1 c.2).mono (fun b hb => ?_)).trans (updElem_events v n w x sets c.1 c.2)
  refine elementBytes_shard ha.fits hi hj b ?_
  simpa only [elementBytes, hv.writeBase] using hb

theorem updElems_stateWrites :
    StateWrites (shardBytes u x) u ((bucketEls x).foldl (fun v c => v.updElem n w x sets c.1 c.2) u) :=
  List.foldlRecOn _ _ (.refl _ u) (fun _ hv _ hc => hv.trans (updElem_stateWrites ha hv hc))

/-- The element's places in two states. -/
abbrev updShown (u v : State) (x : UpdCtx) (c : Nat × Nat) : Nat × Option Nat :=
  (v.rdN (u.writeBase x.t + x.idx c.1 c.2 * x.wBytes) x.wBytes,
    x.mom.map (fun mt => v.rdN (u.writeBase mt + x.idx c.1 c.2 * x.mBytes) x.mBytes))

theorem updElem_shows {v : State} (hw : tabWf memDefault v.mem = true) (hv : StateWrites (shardBytes u x) u v) {c : Nat × Nat}
    (hc : c ∈ bucketEls x) : updShown u (v.updElem n w x sets c.1 c.2) x c =
      ((u.updEl x sets (wA w) c.1 c.2).weight % 256 ^ x.wBytes,
        x.mom.map (fun _ => (u.updEl x sets (wA w) c.1 c.2).mom % 256 ^ x.mBytes)) := by
  obtain ⟨hi, hj⟩ := (mem_bucketEls c).1 hc
  have hel := (ha.elementReads hi hj hv).updEl sets
  have hev := updElem_events v n w x sets c.1 c.2 (p := fun _ => False)
  rw [hel] at hev
  have hread := fun a k => hev.rdN (a := a) (n := k) (fun _ h => h.elim)
  refine Prod.ext ?_ ?_
  · refine (hread _ _).trans ?_
    rw [← hv.writeBase]
    refine updStore_weight hw (fun mt hm => ?_)
    have h1 := idx_le ha.fits hj hi x.wBytes
    have h2 := idx_le ha.fits hj hi x.mBytes
    have h3 := ha.banks mt hm
    rw [hv.writeBase, hv.writeBase]
    omega
  · refine Option.map_congr (fun mt hm => ?_)
    refine (hread _ _).trans ?_
    rw [← hv.writeBase]
    exact updStore_mom hw hm

theorem updElem_beside {v : State} (hv : StateWrites (shardBytes u x) u v) {c d : Nat × Nat}
    (hc : c ∈ bucketEls x) (hd : d ∈ bucketEls x) (hne : d ≠ c) : updShown u (v.updElem n w x sets c.1 c.2) x d = updShown u v x d := by
  obtain ⟨hci, hcj⟩ := (mem_bucketEls c).1 hc
  obtain ⟨hdi, hdj⟩ := (mem_bucketEls d).1 hd
  have hidx : x.idx d.1 d.2 ≠ x.idx c.1 c.2 := fun e => hne (by
    obtain ⟨h1, h2⟩ := idx_inj ha.fits hdj hcj e
    exact Prod.ext h1 h2)
  have hw := (updStore_stateWrites v x (v.updEl x sets (wA w) c.1 c.2) c.1 c.2).trans (updElem_events v n w x sets c.1 c.2)
  have h1 := idx_le ha.fits hcj hci x.wBytes
  have h2 := idx_le ha.fits hcj hci x.mBytes
  have h3 := idx_le ha.fits hdj hdi x.wBytes
  have h4 := idx_le ha.fits hdj hdi x.mBytes
  have h5 := elements_bytes_apart 0 x.wBytes hidx
  have h6 := elements_bytes_apart 0 x.mBytes hidx
  refine Prod.ext (hw.rdN (fun b hb hm => ?_)) (Option.map_congr (fun mt hmt => hw.rdN (fun b hb hm => ?_)))
  · simp only [elementBytes, hv.writeBase] at hb
    rcases hb with hb | ⟨mt, hmt, hb⟩
    · omega
    · have := ha.banks mt hmt
      omega
  · simp only [elementBytes, hv.writeBase] at hb
    have hb7 := ha.banks mt hmt
    rcases hb with hb | ⟨mt', hmt', hb⟩
    · omega
    · obtain rfl : mt' = mt := Option.some.inj (hmt'.symm.trans hmt)
      omega

theorem updElems_shown (hw : tabWf memDefault u.mem = true) {c : Nat × Nat} (hc : c ∈ bucketEls x) :
    updShown u ((bucketEls x).foldl (fun v c => v.updElem n w x sets c.1 c.2) u) x c =
      ((u.updEl x sets (wA w) c.1 c.2).weight % 256 ^ x.wBytes,
        x.mom.map (fun _ => (u.updEl x sets (wA w) c.1 c.2).mom % 256 ^ x.mBytes)) :=
  foldl_writes_under (P := fun v => tabWf memDefault v.mem = true ∧ StateWrites (shardBytes u x) u v)
    (write := fun v c => v.updElem n w x sets c.1 c.2) (read := fun v c => updShown u v x c)
    (val := fun c => ((u.updEl x sets (wA w) c.1 c.2).weight % 256 ^ x.wBytes,
      x.mom.map (fun _ => (u.updEl x sets (wA w) c.1 c.2).mom % 256 ^ x.mBytes)))
    (fun _ _ hc hv => ⟨(updElem_stateWrites ha hv.2 hc).wf hv.1, hv.2.trans (updElem_stateWrites ha hv.2 hc)⟩)
    (fun _ _ hc hv => updElem_shows ha hv.1 hv.2 hc) (fun _ hv _ hd _ hc hne => updElem_beside ha hv.2 hc hd hne)
    ((range'_nodup _ _).product (range'_nodup _ _)) ⟨hw, .refl _ u⟩ c hc

end

end Sys2Proof.Laws
end

section
/-! PROOFS. UPDATE (R186, R188, R221, R275, R316, R317). -/

namespace Sys2Proof.Laws

open Sys2Proof.Machine Sys2Proof.Safety

/-! ### The word -/

section
variable {s : State} {n : Nat} {w : Word256} {aux : List UpdAux}

theorem exec_update (h : Issues s n w 0x50) :
    exec (.update n w aux) s = .next ((s.advance (s.issueAbs w)).veUpdate n w (s.issueAbs w) aux none) := by
  obtain ⟨-, -, hr, ha⟩ := issues_parts h
  change Host.Outcome.next _ = _
  rw [if_pos hr, ha]

/-- The tensor that the word names, with the image. -/
abbrev updTensor (s : State) (w : Word256) : Option (ImageFile × TensorEnt) :=
  s.myImage.bind (fun f => (imgWeight f (getBits (wX w) 0 20)).map (fun t => (f, t)))

theorem veUpdate_none (ht : updTensor s w = none) :
    (s.advance (s.issueAbs w)).veUpdate n w (s.issueAbs w) aux none = (issued s n w).streamFault n w := by
  have ht' : (s.advance (s.issueAbs w)).myImage.bind (fun f => (imgWeight f (getBits (wX w) 0 20)).map (fun t => (f, t))) = none := ht
  unfold State.veUpdate
  rw [ht']

section
variable {f : ImageFile} {t : TensorEnt} (ht : updTensor s w = some (f, t))

/-- The word under way. -/
abbrev updBegun (s : State) (n : Nat) (w : Word256) (f : ImageFile) (t : TensorEnt) : State :=
  begun s n w (if t.fmt == 5 then 40 else 48)
    (ceilDiv (shardRows t * 2 ^ t.wb) (if (imgRule f t).rule ≤ 1 then 256 else 512))

/-- What the word uses for every element of its bucket, and the applications in turn. -/
abbrev updUses (s : State) (w : Word256) (aux : List UpdAux) (f : ImageFile) (t : TensorEnt) : UpdCtx :=
  s.updCtx f t (imgRule f t) (wY w) (aux.getLastD ⟨0⟩).sPlan (s.issueAbs w)

abbrev updTurns (s : State) (w : Word256) (aux : List UpdAux) (f : ImageFile) (t : TensorEnt) : List UpdSet :=
  s.updSets f (updUses s w aux f t) (wA w)

/-- Does this module write the tensor in this tick? -/
abbrev updMay (s : State) (t : TensorEnt) : Bool := s.run.stepRuns && owns t (s.fget HULL_ORCH_MODULE)

theorem Begun.updMay {u : State} (h : Begun n s u) (t : TensorEnt) : updMay u t = updMay s t := by
  obtain ⟨q, hq⟩ := h.run
  simp only [Laws.updMay, hq, h.reads.fget HULL_ORCH_MODULE (by decide)]

/-- The grafting events of one application. -/
def graftEvents (n : Nat) (w : Word256) (v : State) (st : UpdSet) : State :=
  (if st.graftZero then
    (v.fadd (CD_UPD_CNT1_GRAFT_ZERO.die (n / 10)) 1).setSts (20 + n / 10) (CD_UPD_STS_GRAFT_ZERO.die (n / 10)) else v).veEvents n (wPhase w) st.ev

/-- The word before its first element, the events of its identity sides and its grafting noted. -/
def updNoted (s : State) (n : Nat) (w : Word256) (aux : List UpdAux) (f : ImageFile) (t : TensorEnt) : State :=
  (updTurns s w aux f t).foldl (graftEvents n w) ((updBegun s n w f t).countIdentity n f t (imgRule f t) (wY w))

theorem updNoted_stateWrites (p : Nat → Prop) : StateWrites p (updBegun s n w f t) (updNoted s n w aux f t) := by
  refine StateWrites.trans ?_ (.foldl (fun v st _ => ?_) _)
  · unfold State.countIdentity
    extract_lets lRole rRole right left
    exact .ite (.ite (.refl p _) ((fadd_stateWrites _ _ _ (offModule_die _ (by decide))).trans
      (setSts_stateWrites _ _ _ (offModule_die _ (by decide))))) (.refl p _)
  · refine StateWrites.trans (.ite ?_ (.refl p v)) (veEvents_stateWrites ..)
    exact (fadd_stateWrites _ _ _ (offModule_die _ (by decide))).trans (setSts_stateWrites _ _ _ (offModule_die _ (by decide)))

/-- The elements of a bucket, written row by row. -/
theorem bucketFold (n : Nat) (w : Word256) (t : TensorEnt) (at_ : Nat → Nat → Nat) (x : UpdCtx) (sets : List UpdSet) (v : State) :
    (range' 0 (shardRows t)).foldl (fun v i =>
      ((range' 0 (2 ^ t.wb)).filter (fun j => inTime none (at_ i j))).foldl (fun v j => v.updElem n w x sets i j) v) v =
    (range' 0 (shardRows t) ×ˢ range' 0 (2 ^ t.wb)).foldl (fun v c => v.updElem n w x sets c.1 c.2) v := by
  simp only [filter_inTime_none]
  exact foldl_product (fun v i j => State.updElem v n w x sets i j) _ _ v

include ht

theorem veUpdate_barred (hm : updMay s t = false) :
    (s.advance (s.issueAbs w)).veUpdate n w (s.issueAbs w) aux none = updBegun s n w f t := by
  have ht' : (s.advance (s.issueAbs w)).myImage.bind (fun f => (imgWeight f (getBits (wX w) 0 20)).map (fun t => (f, t))) = some (f, t) := ht
  have hm' : updMay (updBegun s n w f t) t = false := ((begun_begun s n w _ _).updMay t).trans hm
  unfold State.veUpdate
  rw [ht']
  exact if_pos (show (!updMay (updBegun s n w f t) t) = true by rw [hm']; rfl)

theorem veUpdate_parked (hm : updMay s t = true) (hp : s.job.parking.contains t.tensor = true) :
    (s.advance (s.issueAbs w)).veUpdate n w (s.issueAbs w) aux none =
      (((updBegun s n w f t).parkBucket t (wY w) (wA w)).freeSlot (wA w)).countUpdate := by
  have ht' : (s.advance (s.issueAbs w)).myImage.bind (fun f => (imgWeight f (getBits (wX w) 0 20)).map (fun t => (f, t))) = some (f, t) := ht
  have hm' : updMay (updBegun s n w f t) t = true := ((begun_begun s n w _ _).updMay t).trans hm
  unfold State.veUpdate
  rw [ht']
  exact (if_neg (show ¬ (!updMay (updBegun s n w f t) t) = true by rw [hm']; decide)).trans (if_pos hp)

theorem veUpdate_runs (hm : updMay s t = true) (hp : s.job.parking.contains t.tensor = false) :
    (s.advance (s.issueAbs w)).veUpdate n w (s.issueAbs w) aux none =
      (((bucketEls (updUses s w aux f t)).foldl (fun v c => v.updElem n w (updUses s w aux f t) (updTurns s w aux f t) c.1 c.2)
        (updNoted s n w aux f t)).freeSlot (wA w)).countUpdate := by
  have ht' : (s.advance (s.issueAbs w)).myImage.bind (fun f => (imgWeight f (getBits (wX w) 0 20)).map (fun t => (f, t))) = some (f, t) := ht
  have hb : Begun n s (updBegun s n w f t) := begun_begun s n w _ _
  have hm' : updMay (updBegun s n w f t) t = true := (hb.updMay t).trans hm
  have hx : (updBegun s n w f t).updCtx f t (imgRule f t) (wY w) (aux.getLastD ⟨0⟩).sPlan (s.issueAbs w) = updUses s w aux f t :=
    hb.updCtx ..
  have hsets : (updBegun s n w f t).updSets f (updUses s w aux f t) (wA w) = updTurns s w aux f t := hb.reads.updSets ..
  unfold State.veUpdate
  rw [ht']
  refine (if_neg (show ¬ (!updMay (updBegun s n w f t) t) = true by rw [hm']; decide)).trans ((if_neg (fun e => absurd (hp.symm.trans e) (by decide))).trans ?_)
  refine congrArg (fun v => (State.freeSlot v (wA w)).countUpdate) ?_
  refine (bucketFold n w t (fun i j => s.issueAbs w + _ + (i * 2 ^ t.wb + j) / _) _ _ _).trans ?_
  rw [hx, hsets]
  rfl

end

end

/-! ### Parked buckets -/

theorem lagEnt_setLag (s : State) (k : Nat) (b : Bool) (e : LagEnt) : (s.setLag k b e).lagEnt k b = e := by
  simp [State.lagEnt, State.setLag, State.withJob]

/-- A parked bucket joins the newest set. -/
theorem parkBucket_lagEnt (s : State) (t : TensorEnt) (bucket slot : Nat) {r : List Parked} {p : Parked}
    (h : (s.lagEnt t.tensor (!s.ccr.parity)).parked = r ++ [p]) :
    ((s.parkBucket t bucket slot).lagEnt t.tensor (!s.ccr.parity)).parked = r ++ [{ p with
      buckets := p.buckets ++ [(bucket, (range' 0 (shardRows t)).flatMap (fun i => (range' 0 (2 ^ t.wb)).map (fun j =>
        s.rdN (slot + bucketOff (shardRows t) (2 ^ t.wb) i j) 4)))] }] := by
  unfold State.parkBucket
  extract_lets m wb els e parked
  rw [lagEnt_setLag]
  have he : e.parked.reverse = p :: r.reverse := by simp only [e, h, List.reverse_append, List.reverse_singleton, List.singleton_append]
  simp only [parked, he]
  simp [els, m, wb]

theorem parkBucket_onlyParts (s : State) (t : TensorEnt) (bucket slot : Nat) : OnlyParts [.job] s (s.parkBucket t bucket slot) :=
  withJob_onlyParts s _

/-! ### Buckets that leave their slot, counted -/

theorem countUpdate_onlyParts (s : State) : OnlyParts [.run] s s.countUpdate := .ite (.refl _ s) (withRun_onlyParts s _)

/-- What an update leaves of the tick's record once its bucket has left its slot and has been counted. -/
theorem freeSlot_countUpdate {s v : State} (slot : Nat) (hu : v.run.updates = s.run.updates) (hh : v.run.healthSent = s.run.healthSent)
    (hl : v.run.lookups = s.run.lookups) :
    (v.freeSlot slot).countUpdate.run.updates = (if s.run.healthSent then s.run.updates else s.run.updates + 1) ∧
      (v.freeSlot slot).countUpdate.run.lookups = s.run.lookups.filter (fun q => q.1 != slot) := by
  have hh' : (v.freeSlot slot).run.healthSent = s.run.healthSent := hh
  unfold State.countUpdate
  rw [hh']
  split
  · exact ⟨hu, congrArg _ hl⟩
  · exact ⟨congrArg (· + 1) hu, congrArg _ hl⟩

/-! ### What an update comes to -/

section
variable {s : State} {n : Nat} {w : Word256} {aux : List UpdAux} {f : ImageFile} {t : TensorEnt}

theorem updTensor_eq (hf : s.myImage = some f) (ht : imgWeight f (getBits (wX w) 0 20) = some t) : updTensor s w = some (f, t) := by
  rw [updTensor, hf, Option.bind_some, ht]
  rfl

theorem updTensor_none (hf : s.myImage = some f) (ht : imgWeight f (getBits (wX w) 0 20) = none) : updTensor s w = none := by
  rw [updTensor, hf, Option.bind_some, ht]
  rfl

/-- A run apart from both shards. -/
theorem clear_of_apart {u : State} {x : UpdCtx} {a k : Nat} (hu : ∀ e, u.writeBase e = s.writeBase e)
    (h : Apart a k (s.writeBase x.t) (x.rows * x.cols * x.wBytes) ∧
      ∀ mt ∈ x.mom.toList, Apart a k (s.writeBase mt) (x.rows * x.cols * x.mBytes)) : Clear (shardBytes u x) a k := by
  rintro b hb hm
  simp only [shardBytes, hu] at hb
  rcases hb with hb | ⟨mt, hmt, hb⟩
  · have := h.1
    omega
  · have := h.2 mt (Option.mem_toList.2 hmt)
    omega

theorem UpdApart.of_reads {u : State} {x : UpdCtx} {slot : Nat} (h : UpdApart s x slot) (hr : ∀ e, u.readBase e = s.readBase e)
    (hw : ∀ e, u.writeBase e = s.writeBase e) : UpdApart u x slot := by
  have hp : shardBytes u x = shardBytes s x := by
    funext b
    simp only [shardBytes, hw]
  constructor
  · exact h.fits
  · rw [hp, hr]
    exact h.weight
  · intro mt hm
    rw [hp, hr]
    exact h.mom mt hm
  · intro mt hm
    rw [hw, hw]
    exact h.banks mt hm
  · intro i hi j hj
    rw [hp]
    exact h.bucket i hi j hj
  · intro i hi j hj r hr'
    rw [hp, hr]
    exact h.row i hi j hj r hr'
  · intro i hi j hj c hc
    rw [hp, hr]
    exact h.col i hi j hj c hc

variable (h : Issues s n w 0x50) (ht : updTensor s w = some (f, t))
include h ht

theorem update_barred (hm : updMay s t = false) : ∃ v, exec (.update n w aux) s = .next v ∧ v.run.updates = s.run.updates ∧
    OnlyParts [.now, .regs, .run, .tiles] s v ∧ OnlyRegs [seqKey n] s v := by
  have hb : Begun n s (updBegun s n w f t) := begun_begun s n w _ _
  obtain ⟨l, hl⟩ := hb.run
  exact ⟨_, (exec_update h).trans (by rw [veUpdate_barred ht hm]), by rw [hl], hb.parts, hb.regs⟩

theorem update_parks (hm : updMay s t = true) (hp : s.job.parking.contains t.tensor = true) :
    ∃ v, exec (.update n w aux) s = .next v ∧
      (v.run.updates = (if s.run.healthSent then s.run.updates else s.run.updates + 1) ∧
        v.run.lookups = s.run.lookups.filter (fun q => q.1 != wA w)) ∧
      (∀ r p, (s.lagEnt t.tensor (!s.ccr.parity)).parked = r ++ [p] →
        (v.lagEnt t.tensor (!s.ccr.parity)).parked = r ++ [{ p with
          buckets := p.buckets ++ [(wY w, (range' 0 (shardRows t)).flatMap (fun i => (range' 0 (2 ^ t.wb)).map (fun j =>
            s.rdN (wA w + bucketOff (shardRows t) (2 ^ t.wb) i j) 4)))] }]) ∧
      OnlyParts [.now, .regs, .run, .job, .tiles] s v := by
  have hb : Begun n s (updBegun s n w f t) := begun_begun s n w _ _
  obtain ⟨l, hl⟩ := hb.run
  have hpark := parkBucket_onlyParts (updBegun s n w f t) t (wY w) (wA w)
  have hprun : ((updBegun s n w f t).parkBucket t (wY w) (wA w)).run = { s.run with items := l } := Eq.trans (hpark .run (by decide)) hl
  have hlast := (withRun_onlyParts ((updBegun s n w f t).parkBucket t (wY w) (wA w)) _).trans
    (countUpdate_onlyParts (((updBegun s n w f t).parkBucket t (wY w) (wA w)).freeSlot (wA w)))
  refine ⟨_, (exec_update h).trans (by rw [veUpdate_parked ht hm hp]), freeSlot_countUpdate (wA w) ?_ ?_ ?_, fun r p hrp => ?_, ?_⟩
  · rw [hprun]
  · rw [hprun]
  · rw [hprun]
  · have hj := hlast .job (by decide)
    have hlag : ∀ b, State.lagEnt (((updBegun s n w f t).parkBucket t (wY w) (wA w)).freeSlot (wA w)).countUpdate t.tensor b =
        ((updBegun s n w f t).parkBucket t (wY w) (wA w)).lagEnt t.tensor b := fun b => by
      simp only [State.lagEnt]
      rw [hj]
    have hc : (updBegun s n w f t).ccr = s.ccr := hb.reads.ccr
    have hpk := parkBucket_lagEnt (updBegun s n w f t) t (wY w) (wA w) (r := r) (p := p)
    rw [hc] at hpk
    rw [hlag, hpk ((congrArg LagEnt.parked (hb.reads.lagEnt _ _)).trans hrp)]
    simp only [hb.reads.rdN]
  · exact ((hb.parts.mono (by decide)).trans (hpark.mono (by decide))).trans (hlast.mono (by decide))

theorem update_writes (hm : updMay s t = true) (hp : s.job.parking.contains t.tensor = false)
    (ha : UpdApart s (updUses s w aux f t) (wA w)) :
    ∃ v, exec (.update n w aux) s = .next v ∧
      (v.run.updates = (if s.run.healthSent then s.run.updates else s.run.updates + 1) ∧
        v.run.lookups = s.run.lookups.filter (fun q => q.1 != wA w)) ∧
      (∀ c ∈ bucketEls (updUses s w aux f t), updShown s v (updUses s w aux f t) c =
        ((s.updEl (updUses s w aux f t) (updTurns s w aux f t) (wA w) c.1 c.2).weight % 256 ^ (updUses s w aux f t).wBytes,
          (updUses s w aux f t).mom.map (fun _ => (s.updEl (updUses s w aux f t) (updTurns s w aux f t) (wA w) c.1 c.2).mom %
            256 ^ (updUses s w aux f t).mBytes))) ∧
      (∀ b, ¬ shardBytes s (updUses s w aux f t) b → v.rd8 b = s.rd8 b) ∧
      v.tiles.acc = s.tiles.acc ∧ v.tiles.lines = s.tiles.lines ∧ OnlyParts [.now, .regs, .mem, .run, .tiles, .outbox] s v := by
  have hb : Begun n s (updBegun s n w f t) := begun_begun s n w _ _
  obtain ⟨l, hl⟩ := hb.run
  have hnoted := updNoted_stateWrites (s := s) (n := n) (w := w) (aux := aux) (f := f) (t := t) (fun _ => False)
  have hread : ∀ e, (updNoted s n w aux f t).readBase e = s.readBase e := fun e => (hnoted.readBase e).trans (hb.reads.readBase e)
  have hwrite : ∀ e, (updNoted s n w aux f t).writeBase e = s.writeBase e := fun e => (hnoted.writeBase e).trans (hb.reads.writeBase e)
  have hrd8 : ∀ b, (updNoted s n w aux f t).rd8 b = s.rd8 b := fun b => (hnoted.bytes b not_false).trans (rd8_congr hb.reads.mem b)
  have ha' := ha.of_reads hread hwrite
  have hel : ∀ i j, (updNoted s n w aux f t).updEl (updUses s w aux f t) (updTurns s w aux f t) (wA w) i j =
      s.updEl (updUses s w aux f t) (updTurns s w aux f t) (wA w) i j := fun i j => ElementReads.updEl
    ⟨hread, rdN_congr hrd8 _ _, fun _ _ => rdN_congr hrd8 _ _, rdN_congr hrd8 _ _, fun _ _ => rdN_congr hrd8 _ _, fun _ _ => rdN_congr hrd8 _ _⟩ _
  have hshown := fun c hc => updElems_shown (n := n) (sets := updTurns s w aux f t) ha' (hnoted.wf (hb.inv h.1).1.2.1) (c := c) hc
  have hwrites := updElems_stateWrites (n := n) (sets := updTurns s w aux f t) ha'
  have he := veUpdate_runs (aux := aux) ht (n := n) hm hp
  generalize (bucketEls (updUses s w aux f t)).foldl (fun v c => v.updElem n w (updUses s w aux f t) (updTurns s w aux f t) c.1 c.2)
    (updNoted s n w aux f t) = v at he hshown hwrites
  obtain ⟨q, hq⟩ := (hnoted.mono (fun _ h => h.elim)).trans hwrites |>.run
  have hlast := (withRun_onlyParts v _).trans (countUpdate_onlyParts (v.freeSlot (wA w)))
  have hmem : ∀ b, (v.freeSlot (wA w)).countUpdate.rd8 b = v.rd8 b := rd8_congr (hlast .mem (by decide))
  refine ⟨_, (exec_update h).trans (by rw [he]), freeSlot_countUpdate (wA w) ?_ ?_ ?_, fun c hc => ?_, fun b hb' => ?_, ?_, ?_, ?_⟩
  · rw [hq, hl]
  · rw [hq, hl]
  · rw [hq, hl]
  · rw [← hel, ← hshown c hc]
    simp only [updShown, hwrite, rdN_congr hmem]
  · have hb2 : ¬ shardBytes (updNoted s n w aux f t) (updUses s w aux f t) b := by
      simpa only [shardBytes, hwrite] using hb'
    exact (hmem b).trans ((hwrites.bytes b hb2).trans (hrd8 b))
  · rw [hlast .tiles (by decide), hwrites.parts .tiles (by decide), hnoted.parts .tiles (by decide)]
    exact hb.sram.acc
  · rw [hlast .tiles (by decide), hwrites.parts .tiles (by decide), hnoted.parts .tiles (by decide)]
    exact hb.sram.lines
  · exact (((hb.parts.mono (by decide)).trans (hnoted.parts.mono (by decide))).trans (hwrites.parts.mono (by decide))).trans
      (hlast.mono (by decide))

end

/-- Settles O27: each element of the bucket is formed on what stood before the word, and stored in the bank that the step writes. -/
theorem updateWritesTheOtherBank : Obligations.UpdateWritesTheOtherBank := by
  intro s n w aux f h hf
  refine ⟨fun ht => ⟨_, exec_update h, ?_⟩, fun t ht => ?_⟩
  · rw [veUpdate_none (updTensor_none hf ht)]
    exact (issued_begun s n w).streamFaults h.1 w
  have hut := updTensor_eq hf ht
  extract_lets rs wb m cols x sets bytes mb done clear apart may
  have hmay : updMay s t = true ↔ may := by simp [updMay, may]
  refine ⟨fun hm => update_barred h hut (eq_false_of_ne_true (mt hmay.1 hm)), fun hm hp => update_parks h hut (hmay.2 hm) hp,
    fun hm hp ha => ?_⟩
  obtain ⟨hfit, hweight, hmom, hels⟩ := ha
  have hclear : ∀ {a k : Nat}, clear a k → Clear (shardBytes s x) a k := fun hc => clear_of_apart (x := x) (fun _ => rfl) hc
  have hapart : UpdApart s x (wA w) :=
    ⟨hfit, hclear hweight, fun mt hmt => hclear (hmom mt (Option.mem_toList.2 hmt)).1, fun mt hmt => (hmom mt (Option.mem_toList.2 hmt)).2,
      fun i hi j hj => hclear (hels i hi j hj).1, fun i hi j hj r hr => hclear ((hels i hi j hj).2.1 r (Option.mem_toList.2 hr)),
      fun i hi j hj c hc => hclear ((hels i hi j hj).2.2 c (Option.mem_toList.2 hc))⟩
  obtain ⟨v, he, hdone, hshown, hbytes, hacc, hlines, hparts⟩ := update_writes h hut (hmay.2 hm) hp hapart
  refine ⟨v, he, hdone, fun i hi j hj => ?_, fun b hw hmo => ?_, hacc, hlines, hparts⟩
  · obtain ⟨h1, h2⟩ := Prod.ext_iff.1 (hshown (i, j) ((mem_bucketEls (x := x) (i, j)).2 ⟨hi, hj⟩))
    refine ⟨h1, fun mt hmt => ?_, fun hu => ?_⟩
    · have hmom' : x.mom = some mt := Option.mem_toList.1 hmt
      have h3 : x.mom.map (fun mt => v.rdN (s.writeBase mt + x.idx i j * mb) mb) =
          x.mom.map (fun _ => (s.updEl x sets (wA w) i j).mom % 256 ^ mb) := h2
      rw [hmom'] at h3
      exact Option.some.inj h3
    · refine Eq.trans h1 ?_
      rw [updEl_untrained s x sets (wA w) i j hu]
      exact Nat.mod_eq_of_lt (rdN_lt ..)
  · refine hbytes b (fun hb => ?_)
    rcases hb with hb | ⟨mt, hmt, hb⟩
    · have hb' : within (s.writeBase t) (m * cols * bytes) b := hb
      omega
    · have hb' : within (s.writeBase mt) (m * cols * mb) b := hb
      have := hmo mt (Option.mem_toList.2 hmt)
      omega

end Sys2Proof.Laws
end

section
/-! PROOFS. A cycle on which one thing comes about (R27, R28). -/

namespace Sys2Proof.Laws

open Sys2Proof.Machine Sys2Proof.Safety

/-! ### Registers within a region -/

/-- Only registers whose keys meet a condition have changed. -/
def RegsWithin (P : Nat → Prop) (s t : State) : Prop := ∀ k, ¬ P k → t.regGet k = s.regGet k

section
variable {P : Nat → Prop} {s t u : State}

theorem RegsWithin.refl (P : Nat → Prop) (s : State) : RegsWithin P s s := fun _ _ => rfl

theorem RegsWithin.trans (h : RegsWithin P s t) (g : RegsWithin P t u) : RegsWithin P s u := fun k hk => (g k hk).trans (h k hk)

theorem RegsWithin.of_only {ks : List Nat} (h : OnlyRegs ks s t) (hk : ∀ k ∈ ks, P k) : RegsWithin P s t :=
  fun k hn => h k (fun hm => hn (hk k hm))

theorem RegsWithin.of_parts {ps : List Part} (h : OnlyParts ps s t) (hr : .regs ∉ ps) : RegsWithin P s t :=
  fun k _ => regGet_congr (h .regs hr) k

theorem RegsWithin.ite {c : Prop} [Decidable c] (h : RegsWithin P s t) (g : RegsWithin P s u) :
    RegsWithin P s (if c then t else u) := by split <;> assumption

theorem RegsWithin.fget (h : RegsWithin P s t) (g : Fld) (hg : ¬ P g.base) : t.fget g = s.fget g := by
  unfold State.fget
  rw [h _ hg]

end

/-- The registers of tiles and compute dies, and those of the hull in which faults, events and captures are noted. -/
def noteKey (k : Nat) : Prop := 0x14000000 ≤ k ∨ k ∈ noteRegs ∨ k = HULL_NF_FIRST.base ∨ k = HULL_FAULT_STS.base

theorem noteKey_tile {f : Fld} (n : Nat) (h : 0x14000000 ≤ f.base) : noteKey (f.tile n).base := by
  rw [tile_base]
  exact .inl (by omega)

theorem noteKey_notes : ∀ k ∈ noteRegs, noteKey k := fun _ h => .inr (.inl h)

theorem noteKey_linkKeys : ∀ k ∈ linkKeys, ¬ noteKey k := by
  have h : ∀ k ∈ linkKeys, k < 0x14000000 ∧ k ∉ noteRegs ∧ k ≠ HULL_NF_FIRST.base ∧ k ≠ HULL_FAULT_STS.base := by decide
  rintro k hk (h1 | h1 | h1 | h1)
  · have := (h k hk).1
    omega
  · exact (h k hk).2.1 h1
  · exact (h k hk).2.2.1 h1
  · exact (h k hk).2.2.2 h1

theorem RegsWithin.linkRegs {s t : State} (h : RegsWithin noteKey s t) (he : t.edgeAt = s.edgeAt) : SameLinkRegs s t :=
  ⟨he, fun k hk => h k (noteKey_linkKeys k hk)⟩

/-! ### What is under way -/

/-- The frames of the links that are due. -/
def linkDues (s : State) : List (Nat × Due) :=
  ((range' 0 16).zip s.links).flatMap (fun k => k.2.landing.map (fun x => (x.at_, Due.flit k.1 x)) ++
    k.2.waiting.map (fun x => (x.sent + s.lnkHop k.1, Due.unanswered k.1 x)))

theorem linkDues_congr {s t : State} (h : t.links = s.links) (hr : SameLinkRegs s t) : linkDues t = linkDues s := by
  unfold linkDues
  rw [h]
  refine List.flatMap_congr (fun k hk => ?_)
  have hl : k.1 < 16 := by
    have := (mem_range' _ _ _).1 (List.of_mem_zip hk).1
    omega
  rw [hr.lnkHop hl]

/-- What is under way in `t` is among what is under way in `s`, each due on the same cycle. -/
structure DuesAmong (s t : State) : Prop where
  flights : t.tiles.flights ⊆ s.tiles.flights
  tags : ∀ n l x, t.opTagAt n l x = s.opTagAt n l x
  jobs : t.solver.jobs ⊆ s.solver.jobs
  carries : t.solver.carries ⊆ s.solver.carries
  writes : t.hub.writes ⊆ s.hub.writes
  links : linkDues t ⊆ linkDues s
  tree : t.run.treeDue ⊆ s.run.treeDue
  edge : t.job.firstEdge = s.job.firstEdge

section
variable {s t : State} (h : DuesAmong s t)
include h

theorem DuesAmong.flightDue (f : Flight) : t.flightDue f = s.flightDue f := by
  simp only [State.flightDue, State.mismatchAt, h.tags]

theorem DuesAmong.dues : t.dues ⊆ s.dues := by
  have hj : ∀ j, t.jobDues j = s.jobDues j := jobDues_congr h.edge
  have hc : ∀ c, t.cycAt c = s.cycAt c := fun c => by simp only [State.cycAt, h.edge]
  intro e he
  change e ∈ _ ++ _ ++ _ ++ _ ++ linkDues t ++ _ at he
  change e ∈ _ ++ _ ++ _ ++ _ ++ linkDues s ++ _
  simp only [List.mem_append, List.mem_map, List.mem_flatMap, h.flightDue, hj, hc] at he ⊢
  rcases he with ((((he | he) | he) | he) | he) | he
  · obtain ⟨f, hf, rfl⟩ := he
    exact .inl (.inl (.inl (.inl (.inl ⟨f, h.flights hf, rfl⟩))))
  · obtain ⟨j, hj, he⟩ := he
    exact .inl (.inl (.inl (.inl (.inr ⟨j, h.jobs hj, he⟩))))
  · obtain ⟨c, hc, rfl⟩ := he
    exact .inl (.inl (.inl (.inr ⟨c, h.carries hc, rfl⟩)))
  · obtain ⟨w, hw, rfl⟩ := he
    exact .inl (.inl (.inr ⟨w, h.writes hw, rfl⟩))
  · exact .inl (.inr (h.links he))
  · obtain ⟨x, hx, rfl⟩ := he
    exact .inr ⟨x, h.tree hx, rfl⟩

end

/-! ### Time that brings one thing about -/

theorem firstDue_single (d : Nat × Due) : firstDue [d] = some d := rfl

/-- One thing is due, and once it has come about nothing more is. -/
theorem upTo_one {s : State} {c : Nat} {d : Nat × Due} (hd : s.dueBy c = [d]) (h : DuesAmong s (s.comeAbout d))
    (hgone : d ∉ (s.comeAbout d).dues) : s.upTo c = (s.comeAbout d).advance c := by
  have hnone : (s.comeAbout d).dueBy c = [] := by
    refine List.filter_eq_nil_iff.2 (fun e he hc => ?_)
    have hm : e ∈ s.dueBy c := List.mem_filter.2 ⟨h.dues he, hc⟩
    rw [hd] at hm
    exact hgone (List.mem_singleton.1 hm ▸ he)
  rw [State.upTo, hd]
  change (State.settle c 2 s).advance c = _
  rw [State.settle, hd, firstDue_single]
  exact congrArg (State.advance · c) (settle_settled _ c hnone 1)

/-- With no command waiting, one cycle passes. -/
theorem step_passes {s : State} (h : s.pending = []) : step s = .next (s.upTo (s.now + 1)) := by
  unfold step
  rw [h]

theorem dueBy_single {s : State} {c : Nat} {d : Nat × Due} (hd : s.dueBy c = [d]) : d ∈ s.dues ∧ d.1 ≤ c := by
  have h : d ∈ s.dueBy c := by rw [hd]; exact .head _
  have := List.mem_filter.1 h
  exact ⟨this.1, by simpa using this.2⟩

end Sys2Proof.Laws
end

section
/-! PROOFS. A flight of a tile lands (R114, R123, R161). -/

namespace Sys2Proof.Laws

open Sys2Proof.Machine Sys2Proof.Safety

/-! ### What a landing touches -/

/-- A flight's landing touches accumulators with their marks, what is counted and noted, and nothing that is due. -/
structure Lands (s t : State) : Prop where
  tiles : ∃ x y m h, t.tiles = { s.tiles with acc := x, accOld := y, mark := m, accHist := h }
  parts : OnlyParts [.regs, .run, .tiles, .attend, .fifos, .cap, .outbox] s t
  tree : t.run.treeDue = s.run.treeDue
  sent : t.run.healthSent = s.run.healthSent
  regs : RegsWithin noteKey s t

section
variable {s t u : State}

theorem Lands.refl (s : State) : Lands s s := ⟨⟨_, _, _, _, rfl⟩, .refl _ s, rfl, rfl, .refl _ s⟩

theorem Lands.trans (h : Lands s t) (g : Lands t u) : Lands s u := by
  obtain ⟨x, y, m, k, hx⟩ := h.tiles
  obtain ⟨x', y', m', k', hx'⟩ := g.tiles
  exact ⟨⟨x', y', m', k', by rw [hx', hx]⟩, h.parts.trans g.parts, g.tree.trans h.tree, g.sent.trans h.sent, h.regs.trans g.regs⟩

theorem Lands.ite {c : Prop} [Decidable c] (h : Lands s t) (g : Lands s u) : Lands s (if c then t else u) := by split <;> assumption

theorem Lands.foldl {α : Type} {f : State → α → State} (h : ∀ v a, Lands v (f v a)) (l : List α) (s : State) : Lands s (l.foldl f s) :=
  foldl_keeps_rel Lands.refl (fun _ _ _ => Lands.trans) (fun v a _ => h v a) s

theorem Lands.foldl_fst {α β : Type} {f : State × β → α → State × β} (h : ∀ x a, Lands x.1 (f x a).1) (l : List α)
    (x : State × β) : Lands x.1 (l.foldl f x).1 :=
  List.foldlRecOn l (motive := fun y => Lands x.1 y.1) f (.refl x.1) (fun y hy a _ => hy.trans (h y a))

/-- An operation on registers. -/
theorem Lands.of_regs {ps : List Part} (h : OnlyParts ps s t) (hr : RegsWithin noteKey s t)
    (hp : ps ⊆ [.regs, .attend, .fifos, .cap, .outbox] ∧ .tiles ∉ ps ∧ .run ∉ ps) : Lands s t := by
  have hrun : t.run = s.run := h .run hp.2.2
  exact ⟨⟨_, _, _, _, h .tiles hp.2.1⟩, (h.mono hp.1).mono (by decide), by rw [hrun], by rw [hrun], hr⟩

end

section
variable (s : State)

theorem lands_setAccEl (n a i j v x : Nat) : Lands s (s.setAccEl n a i j v x) :=
  ⟨⟨_, _, _, _, rfl⟩, (withTiles_onlyParts s _).mono (by decide), rfl, rfl, .of_parts (withTiles_onlyParts s _) (by decide)⟩

theorem lands_accMarkBit (n a b : Nat) (v : Bool) : Lands s (s.accMarkBit n a b v) :=
  ⟨⟨_, _, _, _, rfl⟩, (withTiles_onlyParts s _).mono (by decide), rfl, rfl, .of_parts (withTiles_onlyParts s _) (by decide)⟩

theorem lands_accHist (k : Nat) (x : AccHist) :
    Lands s (s.withTiles (fun t => { t with accHist := tabPut (fun _ => {}) t.accHist k x })) :=
  ⟨⟨_, _, _, _, rfl⟩, (withTiles_onlyParts s _).mono (by decide), rfl, rfl, .of_parts (withTiles_onlyParts s _) (by decide)⟩

theorem lands_accSweep : Lands s s.accSweep :=
  ⟨⟨_, _, _, _, rfl⟩, (withTiles_onlyParts s _).mono (by decide), rfl, rfl, .of_parts (withTiles_onlyParts s _) (by decide)⟩

theorem lands_fadd (f : Fld) (k : Nat) (h : noteKey f.base) : Lands s (s.fadd f k) :=
  .of_regs (fadd_onlyParts s f k) (.of_only (only_fadd (ks := [f.base]) s f k (.head _)) (by simpa using h)) (by decide)

theorem lands_setSts (p : Nat) (f : Fld) (h : noteKey f.base) : Lands s (s.setSts p f) :=
  .of_regs (setSts_onlyParts s p f) (.of_only (only_setSts (ks := [f.base]) s p f (.head _)) (by simpa using h)) (by decide)

theorem lands_record (v : Fld) (l : List (Fld × Nat)) (hv : noteKey v.base) (hl : ∀ q ∈ l, noteKey q.1.base) : Lands s (s.record v l) :=
  .of_regs (record_onlyParts s v l) (.of_only (only_record (ks := v.base :: l.map (fun q => q.1.base)) s v l (.head _)
    (fun q hq => .tail _ (List.mem_map.2 ⟨q, hq, rfl⟩))) (fun k hm => (List.mem_cons.1 hm).elim (fun e => e ▸ hv) (fun hm => by
      obtain ⟨q, hq, rfl⟩ := List.mem_map.1 hm
      exact hl q hq))) (by decide)

theorem lands_setNonfinite (p : Nat) : Lands s (s.setNonfinite p) := by
  have hr := setNonfinite_run s p
  refine ⟨⟨_, _, _, _, setNonfinite_onlyParts s p .tiles (by decide)⟩, (setNonfinite_onlyParts s p).mono (by decide), by rw [hr], by rw [hr],
    .of_only (only_setNonfinite (ks := [HULL_NF_FIRST.base, HULL_FAULT_STS.base]) s p (by decide) (by decide)) ?_⟩
  simp only [List.forall_mem_cons]
  exact ⟨.inr (.inr (.inl rfl)), .inr (.inr (.inr rfl)), fun _ h => nomatch h⟩

theorem lands_fmtShare (n src f h e amount : Nat) : Lands s (s.fmtShare n src f h e amount) := by
  refine .ite (.refl s) (lands_fadd s _ _ (noteKey_tile n ?_))
  have e1 : (TILE_FMT_SHARE_COUNT.ix (1024 * src + 128 * f + 8 * h + e)).base = 0x14102000 + (1024 * src + 128 * f + 8 * h + e) * 8 := rfl
  omega

theorem lands_tagInvalid (n a lpod f h seq block cause : Nat) : Lands s (s.tagInvalid n a lpod f h seq block cause) := by
  have hf {f : Fld} (h : 0x14000000 ≤ f.base) : noteKey (f.tile n).base := noteKey_tile n h
  refine ((((lands_accMarkBit s ..).trans (lands_fmtShare _ ..)).trans (lands_setSts _ _ _ (hf (by decide)))).trans
    (lands_record _ _ _ (hf (by decide)) ?_)).trans (lands_setNonfinite _ _)
  simp only [List.forall_mem_cons]
  exact ⟨hf (by decide), hf (by decide), hf (by decide), hf (by decide), hf (by decide), hf (by decide), hf (by decide), fun q m => nomatch m⟩

theorem lands_classC (n : Nat) (f : Fld) (hf : 0x14000000 ≤ f.base) : Lands s (s.classC (tilePage n) (f.tile n)) := by
  have hrun := classC_run s (tilePage n) (f.tile n)
  have hpage : noteKey (FAULT_CNT_C_RAISED.pageOf (tilePage n)).base := by
    have e : FAULT_CNT_C_RAISED.pageOf (tilePage n) = (⟨0x1413F010, 0, 24, 8⟩ : Fld).tile n := by
      unfold Fld.pageOf tilePage
      rw [if_neg (by omega), Nat.add_sub_cancel_left]
      rfl
    rw [e]
    exact noteKey_tile n (by decide)
  refine ⟨⟨_, _, _, _, classC_onlyParts _ _ _ .tiles (by decide)⟩, (classC_onlyParts _ _ _).mono (by decide), ?_, ?_,
    .of_only (only_classC (ks := (f.tile n).base :: (FAULT_CNT_C_RAISED.pageOf (tilePage n)).base :: noteRegs) s _ _
      (fun _ h => .tail _ (.tail _ h)) (.head _) (.tail _ (.head _))) ?_⟩
  · rw [hrun]
    split <;> rfl
  · rw [hrun]
    split <;> rfl
  · simp only [List.forall_mem_cons]
    exact ⟨noteKey_tile n hf, hpage, noteKey_notes⟩

theorem lands_streamFaultAt (n : Nat) (w : Word256) (seq : Nat) : Lands s (s.streamFaultAt n w seq) :=
  (lands_tagInvalid s ..).trans (lands_classC _ n _ (by decide))

theorem lands_podMismatch (n : Nat) (w : Word256) (seq : Nat) : Lands s (s.podMismatch n w seq) :=
  (lands_tagInvalid s ..).trans (lands_classC _ n _ (by decide))

theorem lands_podUnmark (f : Flight) : Lands s (s.podUnmark f) := by
  unfold State.podUnmark
  extract_lets a s1
  have h1 : Lands s s1 := .ite (lands_accMarkBit s ..) (.refl s)
  exact .ite (h1.trans (lands_accMarkBit ..)) h1

theorem lands_podReport (n : Nat) (w : Word256) (seq : Nat) (t : PodTot) : Lands s (s.podReport n w seq t) := by
  unfold State.podReport
  extract_lets f h s1 s2 s3 s4
  have h4 : Lands s s4 := (((lands_fmtShare s ..).trans (lands_fmtShare s1 ..)).trans (lands_fmtShare s2 ..)).trans (lands_fmtShare s3 ..)
  split
  · exact h4.trans (lands_tagInvalid ..)
  · exact h4.trans (lands_fmtShare ..)

theorem lands_podElem (stream : Bool) (n : Nat) (w : Word256) (c : Nat) (older : List Flight) (ks : List Nat) (i : Nat) (live : Bool)
    (acc : State × PodTot) (j : Nat) : Lands acc.1 (State.podElem stream n w c older ks i live acc j).1 := by
  unfold State.podElem
  split
  · exact lands_setAccEl ..
  · split
    · exact .refl _
    · exact lands_setAccEl ..

theorem lands_podRows (stream : Bool) (n : Nat) (w : Word256) (c : Nat) (older : List Flight) (rows : List Nat) :
    Lands s (s.podRows stream n w c older rows).1 :=
  Lands.foldl_fst (fun x i => Lands.foldl_fst (fun y j => lands_podElem ..) _ x) _ (s, ({} : PodTot))

theorem lands_landPod (stream : Bool) (f : Flight) (older : List Flight) : Lands s (s.landPod stream f older) := by
  unfold State.landPod
  refine .ite ((lands_podUnmark s f).trans (lands_podMismatch ..)) ?_
  extract_lets s1 r
  have h1 : Lands s s1 := .ite (.refl s) (lands_accMarkBit ..)
  exact (h1.trans (lands_podRows ..)).trans (lands_podReport ..)

theorem lands_accFill (n a x : Nat) (src : Nat → Nat) : Lands s (s.accFill n a x src) :=
  .foldl (fun v i => .foldl (fun u j => lands_setAccEl u ..) _ v) _ s

theorem lands_landChain (f : Flight) (content : List Word32) (tagged : Bool) : Lands s (s.landChain f content tagged) := by
  unfold State.landChain
  extract_lets n a s1 h
  have h1 : Lands s s1 := (lands_accFill s ..).trans (lands_accMarkBit ..)
  exact .ite (lands_streamFaultAt ..) ((h1.trans (lands_accMarkBit ..)).trans (lands_accHist ..))

/-- A flight taken off the list of what is under way. -/
def offAir (f : Flight) : State := s.withTiles (fun t => { t with flights := t.flights.filter (fun q => q != f) })

theorem lands_land (f : Flight) : Lands (offAir s f) (s.land f) := by
  unfold State.land
  extract_lets older s1
  refine Lands.trans ?_ (lands_accSweep _)
  change Lands s1 _
  split
  · exact lands_landPod ..
  · exact lands_landPod ..
  · exact lands_landChain ..

end

/-! ### The cycle on which a flight lands -/

section
variable {s t : State} (h : Lands s t)
include h

theorem Lands.flights : t.tiles.flights = s.tiles.flights := by
  obtain ⟨x, y, m, k, e⟩ := h.tiles
  rw [e]

theorem Lands.lines : t.tiles.lines = s.tiles.lines := by
  obtain ⟨x, y, m, k, e⟩ := h.tiles
  rw [e]

theorem Lands.opLine : t.tiles.opLine = s.tiles.opLine := by
  obtain ⟨x, y, m, k, e⟩ := h.tiles
  rw [e]

theorem Lands.opTag : t.tiles.opTag = s.tiles.opTag := by
  obtain ⟨x, y, m, k, e⟩ := h.tiles
  rw [e]

theorem Lands.duesAmong : DuesAmong s t where
  flights := by rw [h.flights]; exact fun _ => id
  tags := opTagAt_congr h.lines h.opTag
  jobs := by rw [h.parts .solver (by decide)]; exact fun _ => id
  carries := by rw [h.parts .solver (by decide)]; exact fun _ => id
  writes := by rw [h.parts .hub (by decide)]; exact fun _ => id
  links := by
    rw [linkDues_congr (h.parts .links (by decide)) (h.regs.linkRegs (h.parts .edgeAt (by decide)))]
    exact fun _ => id
  tree := by rw [h.tree]; exact fun _ => id
  edge := by rw [h.parts .job (by decide)]

end

theorem DuesAmong.trans {s t u : State} (h : DuesAmong s t) (g : DuesAmong t u) : DuesAmong s u :=
  ⟨fun _ m => h.flights (g.flights m), fun n l x => (g.tags n l x).trans (h.tags n l x), fun _ m => h.jobs (g.jobs m),
    fun _ m => h.carries (g.carries m), fun _ m => h.writes (g.writes m), fun _ m => h.links (g.links m), fun _ m => h.tree (g.tree m),
    g.edge.trans h.edge⟩

theorem duesAmong_advance (s : State) (c : Nat) : DuesAmong s (s.advance c) :=
  ⟨fun _ => id, fun _ _ _ => rfl, fun _ => id, fun _ => id, fun _ => id, fun _ => id, fun _ => id, rfl⟩

theorem duesAmong_offAir (s : State) (f : Flight) : DuesAmong s (offAir s f) :=
  ⟨fun _ m => (List.mem_filter.1 m).1, fun _ _ _ => rfl, fun _ => id, fun _ => id, fun _ => id, fun _ => id, fun _ => id, rfl⟩

theorem mem_jobDues {s : State} {j : SlvJob} {e : Nat × Due} (h : e ∈ s.jobDues j) :
    (∃ b v, e.2 = .slvEvent b v) ∨ ∃ c, e.2 = .slvEnd j c := by
  rcases List.mem_append.1 h with h | h
  · obtain ⟨v, -, rfl⟩ := List.mem_map.1 h
    exact .inl ⟨_, _, rfl⟩
  · split at h
    · split at h
      · exact .inr ⟨_, congrArg Prod.snd (List.mem_singleton.1 h)⟩
      · exact absurd h List.not_mem_nil
    · exact absurd h List.not_mem_nil

theorem flight_of_due {s : State} {c : Nat} {g : Flight} (h : (c, Due.flight g) ∈ s.dues) : g ∈ s.tiles.flights := by
  change _ ∈ _ ++ _ ++ _ ++ _ ++ linkDues s ++ _ at h
  simp only [linkDues, List.mem_append, List.mem_map, List.mem_flatMap, Prod.mk.injEq, reduceCtorEq, and_false, exists_false,
    or_false, false_or] at h
  rcases h with ⟨f, hf, -, e⟩ | ⟨j, -, h⟩
  · exact Due.flight.inj e ▸ hf
  · rcases mem_jobDues h with ⟨_, _, e⟩ | ⟨_, e⟩ <;> exact absurd e (by simp)

/-- A cycle on which a flight lands and nothing else comes about. -/
theorem upTo_flight {s : State} {c x : Nat} {g : Flight} (hd : s.dueBy c = [(x, .flight g)]) :
    s.upTo c = ((s.advance x).land g).advance c := by
  have hl := lands_land (s.advance x) g
  refine upTo_one hd (((duesAmong_advance s x).trans (duesAmong_offAir _ g)).trans hl.duesAmong) (fun h => ?_)
  have hm : g ∈ ((s.advance x).land g).tiles.flights := flight_of_due h
  rw [hl.flights] at hm
  simpa using (List.mem_filter.1 hm).2

end Sys2Proof.Laws
end

section
/-! PROOFS. CHAIN (R115, R161, R162, R164). -/

namespace Sys2Proof.Laws

open Sys2Proof.Machine Sys2Proof.Safety

/-! ### Marks -/

theorem wAcc_lt (w : Word256) : wAcc w < 256 := getBits_lt _ _ _

section
variable (s : State) (n a : Nat) (v : Bool) (h : tabWf (fun _ => 0) s.tiles.mark = true)
include h

theorem accChain_accMarkBit_low {b : Nat} (hb : b < 2) : (s.accMarkBit n a b v).accChain n a = s.accChain n a := by
  unfold State.accChain
  rw [accMark_accMarkBit s n a b v h, getBits_putBits_above _ _ _ _ _ _ (by omega)]

theorem accInvalid_accMarkBit_high {b : Nat} (hb : 0 < b) : (s.accMarkBit n a b v).accInvalid n a = s.accInvalid n a := by
  unfold State.accInvalid
  rw [accMark_accMarkBit s n a b v h, getBits_putBits_below _ _ _ _ _ _ (by omega)]

theorem accChain_accMarkBit : (s.accMarkBit n a 2 v).accChain n a = v := by
  unfold State.accChain
  rw [accMark_accMarkBit s n a 2 v h, getBits_putBits_same]
  cases v <;> rfl

theorem accWritten_accMarkBit : (s.accMarkBit n a 1 v).accWritten n a = v := by
  unfold State.accWritten
  rw [accMark_accMarkBit s n a 1 v h, getBits_putBits_same]
  cases v <;> rfl

theorem accWritten_accMarkBit_high : (s.accMarkBit n a 2 v).accWritten n a = s.accWritten n a := by
  unfold State.accWritten
  rw [accMark_accMarkBit s n a 2 v h, getBits_putBits_below _ _ _ _ _ _ (by omega)]

theorem accWritten_accMarkBit_low : (s.accMarkBit n a 0 v).accWritten n a = s.accWritten n a := by
  unfold State.accWritten
  rw [accMark_accMarkBit s n a 0 v h, getBits_putBits_above _ _ _ _ _ _ (by omega)]

omit h in
theorem markWf_accMarkBit (h : tabWf (fun _ => 0) s.tiles.mark = true) (b : Nat) : tabWf (fun _ => 0) (s.accMarkBit n a b v).tiles.mark = true :=
  tabWf_tabPut _ _ _ _ h

end

theorem accChain_congr {s t : State} (h : t.tiles.mark = s.tiles.mark) (n a : Nat) : t.accChain n a = s.accChain n a := by
  unfold State.accChain State.accMark
  rw [h]

theorem accWritten_congr {s t : State} (h : t.tiles.mark = s.tiles.mark) (n a : Nat) : t.accWritten n a = s.accWritten n a := by
  unfold State.accWritten State.accMark
  rw [h]

/-! ### A transfer lands -/

section
variable (s : State) (g : Flight) (content : List Word32) (tagged : Bool)

/-- The content written element by element. -/
theorem accFill_eq (n a x : Nat) (src : Nat → Nat) : s.accFill n a x src =
    (range' 0 128 ×ˢ range' 0 128).foldl (fun v c => v.setAccEl n a c.1 c.2 (src (128 * c.1 + c.2)) x) s :=
  foldl_product (fun v i j => State.setAccEl v n a i j (src (128 * i + j)) x) _ _ s

/-- What a transfer's landing comes to. -/
structure ChainLanded (t : State) : Prop where
  content : ∀ i, i < 128 → ∀ j, j < 128 → t.accEl g.tile (wAcc g.word) i j = (content.getD (128 * i + j) 0).toNat
  others : ∀ n b, n < 80 → b < 256 → n ≠ g.tile ∨ b ≠ wAcc g.word → ∀ i, i < 128 → ∀ j, j < 128 → t.accEl n b i j = s.accEl n b i j
  chain : t.accChain g.tile (wAcc g.word) = true
  tag : t.accInvalid g.tile (wAcc g.word) = tagged
  parts : OnlyParts [.tiles] s t

/-- The marks of a transfer that has filled its tile. -/
def chainMarked (u : State) (n a : Nat) (tagged : Bool) (x : Nat) : State :=
  ((u.accMarkBit n a 0 tagged).accMarkBit n a 2 true).withTiles (fun t => { t with
    accHist := tabPut (fun _ => {}) t.accHist (n * 256 + a) { (u.accMarkBit n a 0 tagged).accHist n a with chainAt := x } })

section
variable (u : State) (n a : Nat) (x : Nat)

theorem chainMarked_accEl (m b i j : Nat) : (chainMarked u n a tagged x).accEl m b i j = u.accEl m b i j := rfl

theorem chainMarked_parts : OnlyParts [.tiles] u (chainMarked u n a tagged x) :=
  ((withTiles_onlyParts _ _).trans (withTiles_onlyParts _ _)).trans (withTiles_onlyParts _ _)

variable (hm : tabWf (fun _ => 0) u.tiles.mark = true)
include hm

theorem chainMarked_chain : (chainMarked u n a tagged x).accChain n a = true :=
  accChain_accMarkBit (u.accMarkBit n a 0 tagged) n a true (markWf_accMarkBit u n a tagged hm 0)

theorem chainMarked_tag : (chainMarked u n a tagged x).accInvalid n a = tagged :=
  (accInvalid_accMarkBit_high (u.accMarkBit n a 0 tagged) n a true (markWf_accMarkBit u n a tagged hm 0) (by decide)).trans
    (accInvalid_accMarkBit u n a tagged hm)

end

variable {s g content tagged}

theorem accFill_read (n x : Nat) {a : Nat} (src : Nat → Nat) (ha : a < 256) (hacc : tabWf (fun _ => (0 : Word32)) s.tiles.acc = true) :
    (∀ i, i < 128 → ∀ j, j < 128 → (s.accFill n a x src).accEl n a i j = src (128 * i + j) % 2 ^ 32) ∧
      AccTouched n a s (s.accFill n a x src) := by
  have hcells : ∀ c ∈ range' 0 128 ×ˢ range' 0 128, c.1 < 128 ∧ c.2 < 128 := fun c hm => by
    have h1 := (mem_range' _ _ _).1 (List.mem_product.1 hm).1
    have h2 := (mem_range' _ _ _).1 (List.mem_product.1 hm).2
    omega
  obtain ⟨hread, htouch⟩ := accEls_written (n := n) (row := Prod.fst) (col := Prod.snd) (val := fun c => src (128 * c.1 + c.2))
    (at_ := fun _ => x) ha hcells (fun _ _ _ _ => Prod.ext) ((range'_nodup 128 0).product (range'_nodup 128 0)) hacc
  rw [accFill_eq]
  exact ⟨fun i hi j hj => hread (i, j) (List.mem_product.2 ⟨(mem_range' _ _ _).2 (by omega), (mem_range' _ _ _).2 (by omega)⟩), htouch⟩

theorem landChain_eq (hc : s.accChain g.tile (wAcc g.word) = false) : s.landChain g content tagged =
    chainMarked (s.accFill g.tile (wAcc g.word) g.done (fun k => (content.getD k 0).toNat)) g.tile (wAcc g.word) tagged g.done :=
  if_neg (by rw [hc]; decide)

theorem landChain_lands (hs : TilesWf s.tiles) (hc : s.accChain g.tile (wAcc g.word) = false) :
    ChainLanded s g content tagged (s.landChain g content tagged) := by
  obtain ⟨-, -, hacc, hmark, -⟩ := hs
  obtain ⟨hread, htouch⟩ := accFill_read (n := g.tile) (x := g.done) (fun k => (content.getD k 0).toNat) (wAcc_lt g.word) hacc
  rw [landChain_eq hc]
  generalize s.accFill g.tile (wAcc g.word) g.done (fun k => (content.getD k 0).toNat) = u at hread htouch ⊢
  have hm : tabWf (fun _ => 0) u.tiles.mark = true := by
    obtain ⟨x, y, e⟩ := htouch.tiles
    rw [e]
    exact hmark
  exact ⟨fun i hi j hj => (chainMarked_accEl tagged u _ _ _ _ _ i j).trans ((hread i hi j hj).trans (Nat.mod_eq_of_lt (BitVec.isLt _))),
    fun m b hm hb hne i hi j hj => (chainMarked_accEl tagged u _ _ _ m b i j).trans (htouch.others m b hm hb hne i hi j hj),
    chainMarked_chain tagged u _ _ _ hm, chainMarked_tag tagged u _ _ _ hm, htouch.parts.trans (chainMarked_parts tagged u _ _ _)⟩

theorem land_chain (hs : TilesWf s.tiles) (hg : g.kind = .chain content tagged) (hc : s.accChain g.tile (wAcc g.word) = false) :
    ChainLanded s g content tagged (s.land g) := by
  have h := landChain_lands (s := offAir s g) (g := g) (content := content) (tagged := tagged) hs hc
  have hsweep : OnlyParts [.tiles] ((offAir s g).landChain g content tagged) ((offAir s g).landChain g content tagged).accSweep :=
    withTiles_onlyParts _ _
  unfold State.land
  rw [hg]
  exact ⟨h.content, h.others, h.chain, h.tag, ((withTiles_onlyParts s _).trans h.parts).trans hsweep⟩

end

/-! ### The content of a transfer -/

theorem getElem?_range' (m lo k : Nat) (h : k < m) : (range' lo m)[k]? = some (lo + k) := by
  induction m generalizing lo k with
  | zero => omega
  | succ m ih =>
    cases k with
    | zero => rfl
    | succ k =>
      rw [range', List.getElem?_cons_succ, ih _ _ (by omega)]
      congr 1
      omega

/-- An element of lists of one length, one after another. -/
theorem getElem?_flatMap {α β : Type} (f : α → List β) {c : Nat} (l : List α) (hl : ∀ a ∈ l, (f a).length = c) (i j : Nat) (hj : j < c) :
    (l.flatMap f)[c * i + j]? = l[i]?.bind (fun a => (f a)[j]?) := by
  induction l generalizing i with
  | nil => simp
  | cons a l ih =>
    have ha := hl a (.head _)
    rw [List.flatMap_cons]
    cases i with
    | zero =>
      rw [Nat.mul_zero, Nat.zero_add, List.getElem?_append_left (by omega)]
      rfl
    | succ i =>
      rw [List.getElem?_append_right (by rw [ha, Nat.mul_succ]; omega), ha, List.getElem?_cons_succ, ← ih (fun b hb => hl b (.tail _ hb)) i]
      congr 1
      rw [Nat.mul_succ]
      omega

theorem length_range' (m lo : Nat) : (range' lo m).length = m := by
  induction m generalizing lo with
  | zero => rfl
  | succ m ih => rw [range', List.length_cons, ih]

/-! ### CHAIN -/

section
variable {s : State} {n : Nat} {w : Word256} {arrival : List Word32}

theorem exec_chain (h : Issues s n w 0x22) :
    exec (.chain n w arrival) s = .next ((s.advance (s.issueAbs w)).veChain n w (s.issueAbs w) arrival none) := by
  obtain ⟨-, -, hr, ha⟩ := issues_parts h
  change Host.Outcome.next _ = _
  rw [if_pos hr, ha]

abbrev chainKind (w : Word256) : Nat := getBits (wX w) 0 2

abbrev chainSrc (w : Word256) : Nat := 10 * getBits (wX w) 2 3 + getBits (wX w) 5 4

abbrev chainSacc (w : Word256) : Nat := getBits (wX w) 9 8

abbrev chainLat (n : Nat) (w : Word256) : Nat :=
  if chainKind w == 1 then 612 else if chainKind w == 2 then 0 else if chainSrc w / 10 == n / 10 then 192 else 640

abbrev chainBegun (s : State) (n : Nat) (w : Word256) : State := begun s n w (chainLat n w) 1

/-- Why a transfer does not start. -/
abbrev chainFails (s : State) (w : Word256) : Bool :=
  chainBad w || (chainKind w == 0 && s.accBusy (chainSrc w) (chainSacc w) (s.issueAbs w)) ||
    (chainKind w == 1 && s.writing (wA w) (wA w + 65536) (s.issueAbs w))

abbrev chainContent (s : State) (w : Word256) (arrival : List Word32) : List Word32 :=
  if chainKind w == 0 then s.accContent (chainSrc w) (chainSacc w) (s.issueAbs w)
  else if chainKind w == 1 then (range' 0 16384).map (fun k => BitVec.ofNat 32 (s.rdN (wA w + 4 * k) 4))
  else (range' 0 16384).map (fun k => arrival.getD k 0)

/-- The transfer under way. -/
abbrev chainFlight (s : State) (n : Nat) (w : Word256) (arrival : List Word32) : Flight :=
  { kind := .chain (chainContent s w arrival)
      (chainKind w == 0 && s.accTagOver (chainSrc w) (chainSacc w) (s.issueAbs w) (s.flightsTo (chainSrc w) (chainSacc w)))
    tile := n, word := w, start := s.issueAbs w, seq := s.seqOf n w % 2 ^ 32, done := s.issueAbs w + chainLat n w }

theorem Begun.chainFails {u : State} (h : Begun n s u) : (chainBad w || (chainKind w == 0 && u.accBusy (chainSrc w) (chainSacc w) (s.issueAbs w)) ||
    (chainKind w == 1 && u.writing (wA w) (wA w + 65536) (s.issueAbs w))) = chainFails s w := by
  obtain ⟨q, hq⟩ := h.tiles
  simp only [Laws.chainFails, State.accBusy, h.flightsTo, State.writing, hq]

theorem veChain_fails (hf : chainFails s w = true) :
    (s.advance (s.issueAbs w)).veChain n w (s.issueAbs w) arrival none = (chainBegun s n w).streamFault n w :=
  if_pos ((begun_begun s n w _ _).chainFails.trans hf)

theorem begun_last (hs : Inv s) (latency occ : Nat) : (begun s n w latency occ).fget (TILE_SEQ_LAST.tile n) = s.seqOf n w % 2 ^ 32 :=
  (issue_issued (s.advance (s.issueAbs w)) n w (s.issueAbs w) hs).last

theorem veChain_runs (hs : Inv s) (hf : chainFails s w = false) :
    (s.advance (s.issueAbs w)).veChain n w (s.issueAbs w) arrival none =
      if chainKind w == 2 then (chainBegun s n w).land (chainFlight s n w arrival)
      else (chainBegun s n w).takeOff (chainFlight s n w arrival) := by
  have hb : Begun n s (chainBegun s n w) := begun_begun s n w _ _
  refine (if_neg (fun e => absurd ((hb.chainFails.trans hf).symm.trans e) (by decide))).trans ((if_pos rfl).trans ?_)
  have hcontent : (if chainKind w == 0 then (chainBegun s n w).accContent (chainSrc w) (chainSacc w) (s.issueAbs w)
      else if chainKind w == 1 then (range' 0 16384).map (fun k => BitVec.ofNat 32 ((chainBegun s n w).rdN (wA w + 4 * k) 4))
      else (range' 0 16384).map (fun k => arrival.getD k 0)) = chainContent s w arrival := by
    simp only [chainContent, State.accContent, hb.flightsTo, hb.sram.accElOver, hb.reads.rdN]
  have htag : (chainBegun s n w).accTagOver (chainSrc w) (chainSacc w) (s.issueAbs w)
      ((chainBegun s n w).flightsTo (chainSrc w) (chainSacc w)) =
      s.accTagOver (chainSrc w) (chainSacc w) (s.issueAbs w) (s.flightsTo (chainSrc w) (chainSacc w)) := by
    rw [hb.flightsTo]
    exact hb.sram.accTagOver ..
  refine congrArg (fun f => if chainKind w == 2 then (chainBegun s n w).land f else (chainBegun s n w).takeOff f)
    (?_ : _ = chainFlight s n w arrival)
  rw [chainFlight, ← hcontent, ← htag, ← begun_last hs (chainLat n w) 1]

end

/-! ### What a CHAIN comes to -/

section
variable {s : State} {n : Nat} {w : Word256} {arrival : List Word32}

theorem accContent_getElem (m a x : Nat) {i j : Nat} (hi : i < 128) (hj : j < 128) :
    (s.accContent m a x)[128 * i + j]? = some (BitVec.ofNat 32 (s.accElAt m a i j x)) := by
  have hl : ∀ i ∈ range' 0 128, ((range' 0 128).map (fun j => BitVec.ofNat 32 (s.accElOver m a i j x (s.flightsTo m a)))).length = 128 :=
    fun i _ => by rw [List.length_map, length_range']
  unfold State.accContent
  dsimp only
  rw [getElem?_flatMap _ _ hl i j hj, getElem?_range' _ _ _ hi, Option.bind_some, Nat.zero_add, List.getElem?_map, getElem?_range' _ _ _ hj,
    Option.map_some, Nat.zero_add]
  rfl

theorem spillContent_getElem {i j : Nat} (hi : i < 128) (hj : j < 128) :
    ((range' 0 16384).map (fun k => BitVec.ofNat 32 (s.rdN (wA w + 4 * k) 4)))[128 * i + j]? =
      some (BitVec.ofNat 32 (s.rdN (wA w + 512 * i + 4 * j) 4)) := by
  rw [List.getElem?_map, getElem?_range' _ _ _ (by omega), Option.map_some]
  congr 3
  omega

theorem arrivalContent_getD {i j : Nat} (hi : i < 128) (hj : j < 128) :
    ((range' 0 16384).map (fun k => arrival.getD k 0)).getD (128 * i + j) 0 = arrival.getD (128 * i + j) 0 := by
  rw [List.getD_eq_getElem?_getD, List.getElem?_map, getElem?_range' _ _ _ (by omega), Option.map_some, Option.getD_some, Nat.zero_add]

/-- A transfer that lands at once was not under way. -/
theorem flight_not_under_way (hs : Settled s (s.issueAbs w)) {f : Flight} {content : List Word32} {tagged : Bool}
    (hk : f.kind = .chain content tagged) (hd : f.done = s.issueAbs w) : f ∉ s.tiles.flights := by
  intro hm
  have hdue : s.flightDue f = s.issueAbs w := by
    unfold State.flightDue
    rw [hk]
    exact hd
  have hin : (s.flightDue f, Due.flight f) ∈ s.dueBy (s.issueAbs w) := by
    refine List.mem_filter.2 ⟨?_, by simp [hdue]⟩
    change _ ∈ _ ++ _ ++ _ ++ _ ++ linkDues s ++ _
    simp only [List.mem_append]
    exact .inl (.inl (.inl (.inl (.inl (List.mem_map.2 ⟨f, hm, rfl⟩)))))
  rw [hs] at hin
  exact absurd hin List.not_mem_nil

/-- The register and the tile's marks as a word under way finds them. -/
theorem Begun.accChain {u : State} (h : Begun n s u) (m a : Nat) : u.accChain m a = s.accChain m a := accChain_congr h.sram.mark m a

theorem landChain_busy {s : State} {g : Flight} {content : List Word32} {tagged : Bool} (hc : s.accChain g.tile (wAcc g.word) = true) :
    s.landChain g content tagged = s.streamFaultAt g.tile g.word g.seq := if_pos hc

theorem land_busy {s : State} {g : Flight} {content : List Word32} {tagged : Bool} (hg : g.kind = .chain content tagged)
    (hc : s.accChain g.tile (wAcc g.word) = true) : s.land g = ((offAir s g).streamFaultAt g.tile g.word g.seq).accSweep := by
  unfold State.land
  rw [hg]
  exact congrArg State.accSweep (landChain_busy hc)

theorem offAir_absent {s : State} {f : Flight} (h : f ∉ s.tiles.flights) : offAir s f = s := by
  have hf : s.tiles.flights.filter (fun q => q != f) = s.tiles.flights :=
    List.filter_eq_self.2 (fun q hq => bne_iff_ne.2 (fun e => h (e ▸ hq)))
  exact congrArg (fun fl => ({ s with tiles := { s.tiles with flights := fl } } : State)) hf

/-- Forgetting what elements held leaves a stream fault as it is. -/
theorem StreamFaults.accSweep {s t : State} (h : StreamFaults n w s t) : StreamFaults n w s t.accSweep := by
  obtain ⟨h1, h2, h3, h4, h5, h6, h7, h8, h9⟩ := h
  exact ⟨h1, h2, h3, h4, h5, h6, h7, h8, h9.then (withTiles_onlyParts _ _) (by decide)⟩

/-- What a class C fault of a word tells, whatever its number and its bit in TILE_STS. -/
theorem tagWord_classC_tells {s : State} (hs : Inv s) (m : Nat) (v : Word256) (seq : Nat) (f : Fld)
    (hf : f.base = 0x14100000 ∧ f.lo + f.wd ≤ 64 ∧ f.wd = 1) :
    ((s.tagWord m v seq).classC (tilePage m) (f.tile m)).fbit (f.tile m) = true ∧
      ((s.tagWord m v seq).classC (tilePage m) (f.tile m)).accInvalid m (wAcc v) = true ∧
      ((s.tagWord m v seq).classC (tilePage m) (f.tile m)).run.nonfinite = true ∧
      RaisesC s ((s.tagWord m v seq).classC (tilePage m) (f.tile m)) ∧
      ((s.tagWord m v seq).classC (tilePage m) (f.tile m)).tiles = (s.accMarkBit m (wAcc v) 0 true).tiles := by
  have htag := (tagInvalid_keeps s m (wAcc v) (wLpod v) (wFmt v) (wPhase v) seq 0 3 (Keeps.refl s)).inv hs
  have htiles : ((s.tagWord m v seq).classC (tilePage m) (f.tile m)).tiles = (s.accMarkBit m (wAcc v) 0 true).tiles :=
    Eq.trans (classC_onlyParts _ _ _ .tiles (by decide)) (tagInvalid_tiles s ..)
  have hrun := classC_run (s.tagWord m v seq) (tilePage m) (f.tile m)
  rw [State.tagWord, tagInvalid_run] at hrun
  refine ⟨fbit_tileSts_classC _ m f htag.1.1 hf, ?_, ?_, ?_, htiles⟩
  · rw [accInvalid_congr (congrArg Tiles.mark htiles)]
    obtain ⟨-, -, -, hmark, -⟩ := hs.1.2.2
    exact accInvalid_accMarkBit s m (wAcc v) true hmark
  · refine Eq.trans (congrArg TickRun.nonfinite hrun) ?_
    split <;> rfl
  · unfold RaisesC
    change (if s.run.healthSent then ((s.tagWord m v seq).classC _ _).run.lateC else ((s.tagWord m v seq).classC _ _).run.faultC) = true
    rw [State.tagWord, hrun]
    by_cases hh : s.run.healthSent = true <;> simp [hh]

variable (h : Issues s n w 0x22)
include h

theorem chain_fails (hf : chainFails s w = true) : ∃ t, exec (.chain n w arrival) s = .next t ∧ StreamFaults n w s t := by
  refine ⟨_, exec_chain h, ?_⟩
  rw [veChain_fails hf]
  exact (begun_begun s n w _ _).streamFaults h.1 w

theorem chain_takes_off (hf : chainFails s w = false) (hk : chainKind w ≠ 2) :
    exec (.chain n w arrival) s = .next ((chainBegun s n w).takeOff (chainFlight s n w arrival)) := by
  rw [exec_chain h, veChain_runs h.1 hf, if_neg (by simpa using hk)]

theorem chain_arrives (hf : chainFails s w = false) (hk : chainKind w = 2) :
    exec (.chain n w arrival) s = .next ((chainBegun s n w).land (chainFlight s n w arrival)) := by
  rw [exec_chain h, veChain_runs h.1 hf, if_pos (by simpa using hk)]

/-- The arrival of a link was not under way before its word. -/
theorem arrival_absent (hk : chainKind w = 2) : chainFlight s n w arrival ∉ (chainBegun s n w).tiles.flights := by
  rw [(begun_begun s n w _ _).flights]
  refine flight_not_under_way h.2.2.2 rfl ?_
  simp [chainFlight, chainLat, hk]

end

/-- Settles O21: a transfer keeps its content bit for bit until it lands. -/
theorem chainCopiesBitForBit : Obligations.ChainCopiesBitForBit := by
  refine ⟨fun s n w arrival h => ?_, fun s g content tagged hs hp htile hg hd => ?_⟩
  · extract_lets kind src sacc x lat bad
    have hbad : chainFails s w = true ↔ bad := by
      simp only [chainFails, bad, Bool.or_eq_true, Bool.and_eq_true, beq_iff_eq]
      exact or_assoc
    have hb : Begun n s (chainBegun s n w) := begun_begun s n w _ _
    have hi : Inv (chainBegun s n w) := hb.inv h.1
    refine ⟨fun hf => chain_fails h (hbad.2 hf), fun hf hk => ?_, fun hf hk hc => ?_, fun hf hk hc => ?_⟩
    · have hlat : chainLat n w = lat := by simp [chainLat, lat, kind, src, show chainKind w ≠ 2 from hk]
      have hk3 : chainKind w = 0 ∨ chainKind w = 1 := by
        have h3 : chainKind w ≠ 3 := fun e => hf (.inl (by simp [chainBad, show getBits (wX w) 0 2 = 3 from e]))
        have h4 : chainKind w < 4 := getBits_lt _ _ _
        have h2 : chainKind w ≠ 2 := hk
        omega
      refine ⟨_, chain_takes_off h (eq_false_of_ne_true (mt hbad.1 hf)) hk, ⟨chainContent s w arrival, ?_, fun i hi j hj => ?_⟩, ?_, ?_, ?_, ?_, ?_⟩
      · change (chainBegun s n w).tiles.flights ++ _ = _
        rw [hb.flights, ← hlat]
      · rcases hk3 with e | e
        · rw [chainContent, if_pos (by rw [e]; rfl), accContent_getElem _ _ _ hi hj, if_pos e]
        · rw [chainContent, if_neg (by rw [e]; decide), if_pos (by rw [e]; rfl), spillContent_getElem hi hj,
            if_neg (fun e' => by have : chainKind w = 0 := e'; omega)]
      · exact hb.sram.acc
      · exact hb.sram.mark
      · exact hb.sram.opLine
      · exact hb.sram.lines
      · exact hb.parts.then (withTiles_onlyParts _ _) (by decide)
    · refine ⟨_, chain_arrives h (eq_false_of_ne_true (mt hbad.1 hf)) hk, ?_⟩
      rw [land_busy (s := chainBegun s n w) (g := chainFlight s n w arrival) rfl ((hb.accChain n (wAcc w)).trans hc), offAir_absent (arrival_absent h hk)]
      have hseq : (chainFlight s n w arrival).seq = (chainBegun s n w).fget (TILE_SEQ_LAST.tile n) := (begun_last h.1 _ _).symm
      rw [hseq]
      exact StreamFaults.accSweep (hb.streamFaults h.1 w)
    · have hl := land_chain (g := chainFlight s n w arrival) hi.1.2.2 rfl ((hb.accChain n (wAcc w)).trans hc)
      have hn := lands_land (chainBegun s n w) (chainFlight s n w arrival)
      rw [offAir_absent (arrival_absent h hk)] at hn
      have hcontent : chainContent s w arrival = (range' 0 16384).map (fun k => arrival.getD k 0) := by
        rw [chainContent, if_neg (by rw [show chainKind w = 2 from hk]; decide), if_neg (by rw [show chainKind w = 2 from hk]; decide)]
      refine ⟨_, chain_arrives h (eq_false_of_ne_true (mt hbad.1 hf)) hk, fun i hi j hj => ?_, fun m a hm ha hne i hi j hj => ?_, hl.chain, ?_,
        hn.flights.trans hb.flights, hn.opLine.trans hb.sram.opLine, hn.lines.trans hb.sram.lines, ?_⟩
      · refine (hl.content i hi j hj).trans ?_
        rw [hcontent, arrivalContent_getD hi hj]
      · exact (hl.others m a hm ha hne i hi j hj).trans (hb.sram.accEl m a i j)
      · refine hl.tag.trans ?_
        rw [show chainKind w = 2 from hk]
        rfl
      · exact hb.parts.trans (hl.parts.mono (by decide))
  · have hstep := (step_passes hp).trans (congrArg Host.Outcome.next (upTo_flight hd))
    have hnow : g.done ≤ s.now + 1 := (dueBy_single hd).2
    have hi : Inv (s.advance g.done) := hs
    refine ⟨fun hc => ⟨_, hstep, ?_⟩, fun hc => ⟨_, hstep, ?_⟩⟩
    · rw [land_busy (s := s.advance g.done) hg hc]
      obtain ⟨h1, h2, -, h4, h5⟩ := tagWord_classC_tells (s := offAir (s.advance g.done) g) hs g.tile g.word g.seq TILE_STS_STREAM_FAULT (by decide)
      refine ⟨h1, h2, h4, ?_, ?_⟩
      · have hacc := congrArg Tiles.acc h5
        exact hacc
      · exact (lands_streamFaultAt (offAir (s.advance g.done) g) g.tile g.word g.seq).parts .mem (by decide)
    · have hl := land_chain (s := s.advance g.done) (g := g) hi.1.2.2 hg hc
      have hn := lands_land (s.advance g.done) g
      refine ⟨?_, hl.content, hl.others, hl.chain, hl.tag, hn.flights, hn.opLine, hn.lines, ?_⟩
      · have h1 : ((s.advance g.done).land g).now = max s.now g.done := hl.parts .now (by decide)
        change max ((s.advance g.done).land g).now (s.now + 1) = _
        rw [h1]
        omega
      · exact (((advance_onlyParts s _).mono (by decide)).trans (hl.parts.mono (by decide))).trans ((advance_onlyParts _ _).mono (by decide))

end Sys2Proof.Laws
end

section
/-! PROOFS. The outputs of a pod instruction (R116, R123, R134). -/

namespace Sys2Proof.Laws

open Sys2Proof.Machine Sys2Proof.Safety

/-! ### Elements as earlier readers find them -/

/-- A write to another element leaves what this one held on earlier cycles. -/
theorem accBase_setAccEl_ne (s : State) {n a i j m b k l : Nat} (v x y : Nat) (h : accKey m b k l ≠ accKey n a i j) :
    (s.setAccEl n a i j v x).accBase m b k l y = s.accBase m b k l y := by
  have hold : (s.setAccEl n a i j v x).tiles.accOld.filter (fun o => o.key == accKey m b k l && decide (y < o.at_)) =
      s.tiles.accOld.filter (fun o => o.key == accKey m b k l && decide (y < o.at_)) := by
    change (if _ then _ else s.tiles.accOld).filter _ = _
    split
    · refine List.filter_cons_of_neg ?_
      simp [Ne.symm h]
    · rfl
  unfold State.accBase
  rw [hold, accEl_setAccEl_ne s n a i j v x m b k l h]

/-! ### One output element -/

section
variable (stream : Bool) (n : Nat) (w : Word256) (c : Nat) (older : List Flight)

/-- The sum that an output element becomes, as `v` holds its operands. -/
def podSum (v : State) (p : Nat × Nat) : RunSum :=
  v.elemSum stream n w c (v.redIndices n w) p.1 p.2
    (if wAdd w then some (v.accElOver n (wAcc w) p.1 p.2 (initCycle stream c p.1) older) else none)

/-- One output element written with a given sum, and counted. -/
def podPut (live : Nat → Bool) (sum : Nat × Nat → RunSum) (acc : State × PodTot) (p : Nat × Nat) : State × PodTot :=
  if live p.1 then
    (acc.1.setAccEl n (wAcc w) p.1 p.2 ((sum p).val.getD 0) (rowUsable stream w c p.1), acc.2.count (sum p) ((sum p).val.getD 0))
  else if wAdd w then acc
  else (acc.1.setAccEl n (wAcc w) p.1 p.2 0 (rowUsable stream w c p.1), acc.2)

variable {stream n w c older}

/-- Everything that an element's sum is formed from stands. -/
structure PodStands (n : Nat) (w : Word256) (u v : State) (l : List (Nat × Nat)) : Prop where
  ops : SameOps u v
  base : ∀ p ∈ l, ∀ x, v.accBase n (wAcc w) p.1 p.2 x = u.accBase n (wAcc w) p.1 p.2 x

theorem PodStands.podSum {u v : State} {l : List (Nat × Nat)} (h : PodStands n w u v l) {p : Nat × Nat} (hp : p ∈ l) :
    podSum stream n w c older v p = podSum stream n w c older u p := by
  unfold Laws.podSum
  rw [h.ops.elemSum, h.ops.redIndices, h.ops.accElOver_of_base _ _ _ _ (h.base p hp)]

theorem podPut_stands {u : State} {live : Nat → Bool} {sum : Nat × Nat → RunSum} {acc : State × PodTot} {p : Nat × Nat}
    {l : List (Nat × Nat)} (h : PodStands n w u acc.1 (p :: l)) (hp : p.1 < 128 ∧ p.2 < 128) (hl : ∀ q ∈ l, q.1 < 128 ∧ q.2 < 128)
    (hnot : p ∉ l) : PodStands n w u (podPut stream n w c live sum acc p).1 l := by
  have hrest : PodStands n w u acc.1 l := ⟨h.ops, fun q hq => h.base q (.tail _ hq)⟩
  have hset : ∀ x y, PodStands n w u (acc.1.setAccEl n (wAcc w) p.1 p.2 x y) l := fun x y =>
    ⟨⟨h.ops.lines, h.ops.opLine, h.ops.opTag, h.ops.slotCnt⟩, fun q hq z => by
      refine (accBase_setAccEl_ne acc.1 x y z (fun e => hnot ?_)).trans (h.base q (.tail _ hq) z)
      obtain ⟨-, -, h1, h2⟩ := accKey_inj (wAcc_lt w) (wAcc_lt w) (hl q hq).1 (hl q hq).2 hp.1 hp.2 e
      exact (Prod.ext h1 h2 : q = p) ▸ hq⟩
  unfold podPut
  split
  · exact hset _ _
  · split
    · exact hrest
    · exact hset _ _

theorem podPut_congr {live : Nat → Bool} {sum sum' : Nat × Nat → RunSum} (acc : State × PodTot) {p : Nat × Nat} (h : sum p = sum' p) :
    podPut stream n w c live sum acc p = podPut stream n w c live sum' acc p := by
  unfold podPut
  rw [h]

/-- Every element's sum is formed of what stood before the first was written. -/
theorem podElems_eq {u : State} {live : Nat → Bool} (l : List (Nat × Nat)) (hl : ∀ q ∈ l, q.1 < 128 ∧ q.2 < 128) (hnd : l.Nodup)
    (acc : State × PodTot) (h : PodStands n w u acc.1 l) :
    l.foldl (fun acc p => State.podElem stream n w c older (u.redIndices n w) p.1 (live p.1) acc p.2) acc =
      l.foldl (podPut stream n w c live (podSum stream n w c older u)) acc := by
  induction l generalizing acc with
  | nil => exact (List.foldl_nil ..).trans (List.foldl_nil ..).symm
  | cons p l ih =>
    obtain ⟨hnot, hnd⟩ := List.nodup_cons.1 hnd
    have hone : State.podElem stream n w c older (u.redIndices n w) p.1 (live p.1) acc p.2 =
        podPut stream n w c live (podSum stream n w c older u) acc p := by
      rw [← podPut_congr acc (h.podSum (.head _)), ← h.ops.redIndices]
      rfl
    rw [List.foldl_cons, List.foldl_cons, hone]
    exact ih (fun q hq => hl q (.tail _ hq)) hnd _ (podPut_stands h (hl p (.head _)) (fun q hq => hl q (.tail _ hq)) hnot)

end

/-! ### All output elements -/

section
variable (stream : Bool) (n : Nat) (w : Word256) (c : Nat) (live : Nat → Bool) (sum : Nat × Nat → RunSum)

/-- The elements that are written: of a row that forms its products, and, where the word does not add, of any other. -/
abbrev podWritten (w : Word256) (live : Nat → Bool) (p : Nat × Nat) : Bool := live p.1 || !wAdd w

/-- What an element is written with. -/
abbrev podBits (live : Nat → Bool) (sum : Nat × Nat → RunSum) (p : Nat × Nat) : Nat := if live p.1 then (sum p).val.getD 0 else 0

theorem podPuts_fst (l : List (Nat × Nat)) (acc : State × PodTot) : (l.foldl (podPut stream n w c live sum) acc).1 =
    (l.filter (podWritten w live)).foldl (fun v p => v.setAccEl n (wAcc w) p.1 p.2 (podBits live sum p) (rowUsable stream w c p.1)) acc.1 := by
  refine (foldl_fst_eq (g := fun v p => if podWritten w live p then
    v.setAccEl n (wAcc w) p.1 p.2 (podBits live sum p) (rowUsable stream w c p.1) else v) (fun x p => ?_) l acc).trans List.foldl_filter.symm
  unfold podPut
  cases hl : live p.1
  · cases ha : wAdd w <;> simp [podWritten, podBits, hl, ha]
  · simp [podWritten, podBits, hl]

/-- Whether an invalid sum has been counted. -/
theorem podPuts_bad (l : List (Nat × Nat)) (acc : State × PodTot) : (l.foldl (podPut stream n w c live sum) acc).2.bad.isSome = true ↔
    acc.2.bad.isSome = true ∨ ∃ p ∈ l, live p.1 = true ∧ (sum p).bad.isSome = true := by
  induction l generalizing acc with
  | nil => simp
  | cons p l ih =>
    rw [List.foldl_cons, ih]
    have hone : (podPut stream n w c live sum acc p).2.bad.isSome = true ↔
        acc.2.bad.isSome = true ∨ (live p.1 = true ∧ (sum p).bad.isSome = true) := by
      unfold podPut
      cases hl : live p.1
      · cases wAdd w <;> simp
      · cases hb : acc.2.bad <;> simp [PodTot.count, hb]
    rw [hone]
    simp only [List.exists_mem_cons_iff]
    tauto

end

/-! ### The rows of an instruction -/

section
variable {s : State} {stream : Bool} {n : Nat} {w : Word256} {c : Nat} {older : List Flight} {rows : List Nat}

theorem wRows_le (w : Word256) : wRows w ≤ 128 := by
  have h : wRows w = wbits w 40 7 + 1 := rfl
  have := getBits_lt w.toNat 40 7
  unfold wbits at h
  omega

abbrev rowCells (rows : List Nat) : List (Nat × Nat) := rows ×ˢ range' 0 128

theorem mem_rowCells {p : Nat × Nat} : p ∈ rowCells rows ↔ p.1 ∈ rows ∧ p.2 < 128 :=
  List.mem_product.trans (and_congr_right' ((mem_range' _ _ _).trans (by omega)))

theorem podRows_eq (hr : ∀ i ∈ rows, i < 128) (hnd : rows.Nodup) : s.podRows stream n w c older rows =
    (rowCells rows).foldl (podPut stream n w c (s.rowLive stream n w c) (podSum stream n w c older s)) (s, {}) := by
  refine (foldl_product (fun acc i j => State.podElem stream n w c older (s.redIndices n w) i (s.rowLive stream n w c i) acc j) rows
    (range' 0 128) (s, ({} : PodTot))).trans ?_
  refine podElems_eq _ (fun q hq => ?_) (hnd.product (range'_nodup _ _)) _ ⟨.of_tiles rfl, fun _ _ _ => rfl⟩
  obtain ⟨h1, h2⟩ := mem_rowCells.1 hq
  exact ⟨hr _ h1, h2⟩

/-- An element that is none of those written stands. -/
theorem accEl_stands {a : Nat} {val at_ : Nat × Nat → Nat} {l : List (Nat × Nat)} (ha : a < 256) (hl : ∀ p ∈ l, p.1 < 128 ∧ p.2 < 128)
    {i j : Nat} (hi : i < 128) (hj : j < 128) (hnot : (i, j) ∉ l) :
    (l.foldl (fun v p => v.setAccEl n a p.1 p.2 (val p) (at_ p)) s).accEl n a i j = s.accEl n a i j :=
  foldl_keeps_rel (R := fun u v => v.accEl n a i j = u.accEl n a i j) (fun _ => rfl) (fun _ _ _ h g => g.trans h)
    (fun v p hp => accEl_setAccEl_ne v n a _ _ _ _ n a i j (fun e => by
      obtain ⟨-, -, h1, h2⟩ := accKey_inj ha ha hi hj (hl p hp).1 (hl p hp).2 e
      exact hnot ((Prod.ext h1 h2 : (i, j) = p) ▸ hp))) s

/-- What the rows of an instruction come to. -/
theorem podRows_reads (hr : ∀ i ∈ rows, i < 128) (hnd : rows.Nodup) (hacc : tabWf (fun _ => (0 : Word32)) s.tiles.acc = true) :
    (∀ i, i < 128 → ∀ j, j < 128 → (s.podRows stream n w c older rows).1.accEl n (wAcc w) i j =
      if i ∈ rows then
        if s.rowLive stream n w c i then ((podSum stream n w c older s (i, j)).val.getD 0) % 2 ^ 32
        else if wAdd w then s.accEl n (wAcc w) i j else 0
      else s.accEl n (wAcc w) i j) ∧
    AccTouched n (wAcc w) s (s.podRows stream n w c older rows).1 ∧
    ((s.podRows stream n w c older rows).2.bad.isSome = true ↔
      ∃ i j, i ∈ rows ∧ j < 128 ∧ s.rowLive stream n w c i = true ∧ (podSum stream n w c older s (i, j)).bad.isSome = true) := by
  rw [podRows_eq hr hnd]
  have hcells : ∀ p ∈ (rowCells rows).filter (podWritten w (s.rowLive stream n w c)), p.1 < 128 ∧ p.2 < 128 := fun p hp => by
    obtain ⟨h1, h2⟩ := mem_rowCells.1 (List.mem_filter.1 hp).1
    exact ⟨hr _ h1, h2⟩
  obtain ⟨hread, htouch⟩ := accEls_written (n := n) (row := Prod.fst) (col := Prod.snd)
    (val := podBits (s.rowLive stream n w c) (podSum stream n w c older s)) (at_ := fun p => rowUsable stream w c p.1) (s := s)
    (wAcc_lt w) hcells (fun _ _ _ _ => Prod.ext) ((hnd.product (range'_nodup 128 0)).filter _) hacc
  rw [← podPuts_fst stream n w c _ _ (rowCells rows) (s, {})] at htouch
  refine ⟨fun i hi j hj => ?_, htouch, (podPuts_bad ..).trans ?_⟩
  · rw [podPuts_fst]
    have hin : (i, j) ∈ (rowCells rows).filter (podWritten w (s.rowLive stream n w c)) ↔
        i ∈ rows ∧ (s.rowLive stream n w c i = true ∨ wAdd w = false) := by
      rw [List.mem_filter, mem_rowCells]
      simp [podWritten, hj]
    have hstand : (i, j) ∉ (rowCells rows).filter (podWritten w (s.rowLive stream n w c)) → _ := fun hnot =>
      accEl_stands (val := podBits (s.rowLive stream n w c) (podSum stream n w c older s)) (at_ := fun p => rowUsable stream w c p.1)
        (s := s) (n := n) (wAcc_lt w) hcells hi hj hnot
    by_cases hrow : i ∈ rows
    · rw [if_pos hrow]
      cases hlive : s.rowLive stream n w c i
      · cases hadd : wAdd w
        · refine (hread (i, j) (hin.2 ⟨hrow, .inr hadd⟩)).trans ?_
          simp [podBits, hlive]
        · exact hstand (fun hm => by simpa [hlive, hadd] using (hin.1 hm).2)
      · refine (hread (i, j) (hin.2 ⟨hrow, .inl hlive⟩)).trans ?_
        simp [podBits, hlive]
    · rw [if_neg hrow]
      exact hstand (fun hm => hrow (hin.1 hm).1)
  · simp only [mem_rowCells, Prod.exists, Option.isSome_none, Bool.false_eq_true, false_or, and_assoc]

end

end Sys2Proof.Laws
end

section
/-! PROOFS. A pod instruction lands (R92, R111, R123, R139). -/

namespace Sys2Proof.Laws

open Sys2Proof.Machine Sys2Proof.Safety

/-! ### What follows the rows -/

section
variable (s : State) (n : Nat) (w : Word256) (seq : Nat) (t : PodTot)

theorem fmtShare_tiles (src f h e amount : Nat) : (s.fmtShare n src f h e amount).tiles = s.tiles :=
  fmtShare_onlyParts s n src f h e amount .tiles (by decide)

theorem podReport_tiles : (s.podReport n w seq t).tiles = if t.bad.isSome then (s.accMarkBit n (wAcc w) 0 true).tiles else s.tiles := by
  unfold State.podReport
  extract_lets f h s1 s2 s3 s4
  have h4 : s4.tiles = s.tiles := by
    simp only [s4, s3, s2, s1, fmtShare_tiles]
  split
  next cause block hb =>
    rw [tagInvalid_tiles, hb]
    simp only [State.accMarkBit, State.setAccMark, State.accMark, State.withTiles, h4]
    rfl
  next hb =>
    rw [fmtShare_tiles, hb, h4]
    rfl

theorem podReport_onlyParts : OnlyParts [.regs, .run, .tiles, .outbox] s (s.podReport n w seq t) := by
  unfold State.podReport
  extract_lets f h s1 s2 s3 s4
  have h4 : OnlyParts [.regs, .run, .tiles, .outbox] s s4 := ((((fmtShare_onlyParts s n 0 f h 0 t.prod).trans
    (fmtShare_onlyParts s1 n 0 f h 1 t.sat)).trans (fmtShare_onlyParts s2 n 0 f h 2 t.van)).trans
    (fmtShare_onlyParts s3 n 0 f h 3 t.sub)).mono (by decide)
  split
  · exact h4.trans (tagInvalid_onlyParts s4 _ _ _ _ _ _ _ _)
  · exact h4.then (fmtShare_onlyParts s4 _ _ _ _ _ _) (by decide)

end

/-! ### The landing -/

section
variable {s : State} {g : Flight} {stream : Bool}

theorem land_pod (hg : g.kind = if stream then .stream else .incell) :
    s.land g = ((offAir s g).landPod stream g (s.olderThan g)).accSweep := by
  unfold State.land
  rw [hg]
  cases stream <;> rfl

theorem mem_podRowsBy (w : Word256) (c x i : Nat) : i ∈ podRowsBy stream w c x ↔ i < wRows w ∧ rowUsable stream w c i ≤ x := by
  simp [podRowsBy, mem_range']

/-- The tile before its rows are written: without ADD its invalid tag is clear. -/
def podCleared (s : State) (w : Word256) (n : Nat) : State := if wAdd w then s else s.accMarkBit n (wAcc w) 0 false

theorem podCleared_tiles (w : Word256) (n : Nat) : ∃ m, (podCleared s w n).tiles = { s.tiles with mark := m } := by
  unfold podCleared
  split
  · exact ⟨_, rfl⟩
  · exact ⟨_, rfl⟩

theorem podCleared_onlyParts (w : Word256) (n : Nat) : OnlyParts [.tiles] s (podCleared s w n) :=
  .ite (.refl _ s) (withTiles_onlyParts s _)

theorem podCleared_accInvalid (hm : tabWf (fun _ => 0) s.tiles.mark = true) (w : Word256) (n : Nat) :
    (podCleared s w n).accInvalid n (wAcc w) = (wAdd w && s.accInvalid n (wAcc w)) := by
  unfold podCleared
  cases hadd : wAdd w
  · exact accInvalid_accMarkBit s n (wAcc w) false hm
  · rfl

theorem podCleared_markWf (hm : tabWf (fun _ => 0) s.tiles.mark = true) (w : Word256) (n : Nat) :
    tabWf (fun _ => 0) (podCleared s w n).tiles.mark = true := by
  unfold podCleared
  split
  · exact hm
  · exact markWf_accMarkBit s n (wAcc w) false hm 0

theorem landPod_eq (older : List Flight) (hf : s.fmtMismatch stream g.tile g.word g.start g.done = false) :
    s.landPod stream g older =
      ((podCleared s g.word g.tile).podRows stream g.tile g.word g.start older (podRowsBy stream g.word g.start g.done)).1.podReport g.tile
        g.word g.seq
        ((podCleared s g.word g.tile).podRows stream g.tile g.word g.start older (podRowsBy stream g.word g.start g.done)).2 :=
  if_neg (by rw [hf]; decide)

/-- Two states that hold the same operands and accumulators form the same sums. -/
theorem podSum_congr {u v : State} (ho : SameOps u v) (ha : v.tiles.acc = u.tiles.acc) (hold : v.tiles.accOld = u.tiles.accOld)
    (n : Nat) (w : Word256) (c : Nat) (older : List Flight) (p : Nat × Nat) :
    podSum stream n w c older v p = podSum stream n w c older u p := by
  have hbase : ∀ x, v.accBase n (wAcc w) p.1 p.2 x = u.accBase n (wAcc w) p.1 p.2 x := fun x => by
    simp only [State.accBase, State.accEl, ha, hold]
  exact PodStands.podSum (l := [p]) ⟨ho, fun q hq x => List.mem_singleton.1 hq ▸ hbase x⟩ (.head _)

/-- What a pod instruction's landing comes to. -/
structure PodLanded (stream : Bool) (g : Flight) (older : List Flight) (s t : State) : Prop where
  rows : ∀ i, i < 128 → ∀ j, j < 128 → t.accEl g.tile (wAcc g.word) i j =
    if i < wRows g.word ∧ rowUsable stream g.word g.start i ≤ g.done then
      if s.rowLive stream g.tile g.word g.start i then ((podSum stream g.tile g.word g.start older s (i, j)).val.getD 0) % 2 ^ 32
      else if wAdd g.word then s.accEl g.tile (wAcc g.word) i j else 0
    else s.accEl g.tile (wAcc g.word) i j
  others : ∀ n b, n < 80 → b < 256 → (n ≠ g.tile ∨ b ≠ wAcc g.word) → ∀ i, i < 128 → ∀ j, j < 128 → t.accEl n b i j = s.accEl n b i j
  tag : t.accInvalid g.tile (wAcc g.word) = true ↔ wAdd g.word = true ∧ s.accInvalid g.tile (wAcc g.word) = true ∨
    ∃ i j, i < wRows g.word ∧ j < 128 ∧ rowUsable stream g.word g.start i ≤ g.done ∧ s.rowLive stream g.tile g.word g.start i = true ∧
      (podSum stream g.tile g.word g.start older s (i, j)).bad.isSome = true
  parts : OnlyParts [.regs, .run, .tiles, .outbox] s t

theorem landPod_lands (hs : TilesWf s.tiles) (older : List Flight)
    (hf : s.fmtMismatch stream g.tile g.word g.start g.done = false) :
    PodLanded stream g older s (s.landPod stream g older) := by
  obtain ⟨-, -, hacc, hmark, -⟩ := hs
  have hcinv := podCleared_accInvalid (s := s) hmark g.word g.tile
  obtain ⟨m, hm⟩ := podCleared_tiles (s := s) g.word g.tile
  have hcparts := podCleared_onlyParts (s := s) g.word g.tile
  have hcwf := podCleared_markWf (s := s) hmark g.word g.tile
  rw [landPod_eq older hf]
  generalize podCleared s g.word g.tile = u at hcinv hm hcparts hcwf ⊢
  have hops : SameOps s u := by refine ⟨?_, ?_, ?_, ?_⟩ <;> rw [hm]
  have hel : ∀ n b i j, u.accEl n b i j = s.accEl n b i j := fun n b i j => by simp only [State.accEl, hm]
  have hsum := fun p => podSum_congr (stream := stream) hops (by rw [hm]) (by rw [hm]) g.tile g.word g.start older p
  have hlive := hops.rowLive stream g.tile g.word g.start
  obtain ⟨hread, htouch, hbad⟩ := podRows_reads (s := u) (stream := stream) (n := g.tile) (w := g.word) (c := g.start) (older := older)
    (rows := podRowsBy stream g.word g.start g.done)
    (fun i hi => Nat.lt_of_lt_of_le ((mem_podRowsBy ..).1 hi).1 (wRows_le _)) ((range'_nodup _ _).filter _) (by rw [hm]; exact hacc)
  generalize u.podRows stream g.tile g.word g.start older (podRowsBy stream g.word g.start g.done) = r at hread htouch hbad ⊢
  obtain ⟨x, y, hr⟩ := htouch.tiles
  have htiles := podReport_tiles r.1 g.tile g.word g.seq r.2
  have htacc : (r.1.podReport g.tile g.word g.seq r.2).tiles.acc = r.1.tiles.acc := by
    rw [htiles]
    split <;> rfl
  have htel : ∀ n b i j, (r.1.podReport g.tile g.word g.seq r.2).accEl n b i j = r.1.accEl n b i j := fun n b i j => by
    simp only [State.accEl, htacc]
  refine ⟨fun i hi j hj => ?_, fun n b hn hb hne i hi j hj => ?_, ?_, ?_⟩
  · rw [htel, hread i hi j hj]
    simp only [mem_podRowsBy, hlive, hsum, hel]
  · rw [htel, htouch.others n b hn hb hne i hi j hj, hel]
  · have hrm : r.1.tiles.mark = u.tiles.mark := by rw [hr]
    have hbad' : r.2.bad.isSome = true ↔ ∃ i j, i < wRows g.word ∧ j < 128 ∧ rowUsable stream g.word g.start i ≤ g.done ∧
        s.rowLive stream g.tile g.word g.start i = true ∧ (podSum stream g.tile g.word g.start older s (i, j)).bad.isSome = true := by
      rw [hbad]
      simp only [mem_podRowsBy, hlive, hsum]
      exact exists_congr (fun i => exists_congr (fun j => by tauto))
    rw [← hbad']
    cases hb : r.2.bad.isSome
    · rw [hb, if_neg (by decide)] at htiles
      rw [accInvalid_congr (congrArg Tiles.mark htiles), accInvalid_congr hrm, hcinv]
      simp
    · rw [hb, if_pos rfl] at htiles
      rw [accInvalid_congr (congrArg Tiles.mark htiles), accInvalid_accMarkBit r.1 g.tile (wAcc g.word) true (by rw [hrm]; exact hcwf)]
      simp
  · exact ((hcparts.mono (by decide)).trans (htouch.parts.mono (by decide))).trans (podReport_onlyParts r.1 g.tile g.word g.seq r.2)

end

end Sys2Proof.Laws
end

section
/-! PROOFS. MM_STREAM and MM_INCELL (R92, R115, R120, R123, R132, R503). -/

namespace Sys2Proof.Laws

open Sys2Proof.Machine Sys2Proof.Safety

/-! ### A pod instruction under way -/

/-- The registers that a pod instruction's issue changes: TILE_SEQ and the pods' cycle counts of its tile. -/
def podKey (n k : Nat) : Prop :=
  k = seqKey n ∨ ∃ i, i < 512 ∧ k = 0x14101000 + 8 * i + n / 10 * 0x1000000 + n % 10 * 0x40000

theorem podKey_phase (n : Nat) {p h k : Nat} (hp : p < 8) (hh : h < 16) (hk : k < 4) :
    podKey n ((TILE_PHASE_TIME_COUNT.ix (64 * p + 4 * h + k)).tile n).base := by
  refine .inr ⟨64 * p + 4 * h + k, by omega, ?_⟩
  have e : ((TILE_PHASE_TIME_COUNT.ix (64 * p + 4 * h + k)).tile n).base =
      0x14101000 + (64 * p + 4 * h + k) * 8 + n / 10 * 0x1000000 + n % 10 * 0x40000 := rfl
  omega

theorem podKey_not_pod (n : Nat) : ¬ podKey n (TILE_POD.tile n).base := by
  have e : (TILE_POD.tile n).base = 0x14100028 + n / 10 * 0x1000000 + n % 10 * 0x40000 := rfl
  have e2 : seqKey n = 0x14100018 + n / 10 * 0x1000000 + n % 10 * 0x40000 := rfl
  rintro (h | ⟨i, hi, h⟩) <;> omega

/-- From `s`, a pod instruction of tile `n` has issued and its cycles are counted and its pod's timing kept. -/
structure PodBegun (n : Nat) (s t : State) : Prop where
  parts : OnlyParts [.now, .regs, .run, .tiles] s t
  tiles : ∃ q p, t.tiles = { s.tiles with seqNext := q, pod := p }
  run : ∃ l, t.run = { s.run with items := l }
  regs : RegsWithin (podKey n) s t
  inv : Inv s → Inv t

section
variable {n : Nat} {s t : State}

theorem Begun.pod (h : Begun n s t) : PodBegun n s t := by
  obtain ⟨q, hq⟩ := h.tiles
  exact ⟨h.parts, ⟨q, s.tiles.pod, hq⟩, h.run, .of_only h.regs (fun k hk => .inl (List.mem_singleton.1 hk)), h.inv⟩

theorem PodBegun.phaseTime (h : PodBegun n s t) {p f k : Nat} (hp : p < 8) (hf : f < 16) (hk : k < 4) (amount : Nat) :
    PodBegun n s (t.phaseTime n p f k amount) :=
  ⟨h.parts.then (fadd_onlyParts _ _ _) (by decide), h.tiles, h.run,
    h.regs.trans (.of_only (only_fadd (ks := [_]) t _ amount (.head _)) (by simpa using podKey_phase n hp hf hk)),
    fun i => (fadd_keeps _ _ _ (Keeps.refl t)).inv (h.inv i)⟩

theorem PodBegun.podTime (h : PodBegun n s t) (stream : Bool) (w : Word256) (occ : Nat) : PodBegun n s (t.podTime stream n w occ) := by
  have hp : wLpod w < 8 := getBits_lt _ _ 3
  have hf : wPhase w < 16 := getBits_lt _ _ 4
  unfold State.podTime
  dsimp only
  split
  · exact h.phaseTime hp hf (by decide) _
  · exact (h.phaseTime hp hf (by decide) _).phaseTime hp hf (by decide) _

theorem PodBegun.item (h : PodBegun n s t) (k done fence : Nat) : PodBegun n s (t.item k done fence) := by
  obtain ⟨l, hl⟩ := h.run
  exact ⟨h.parts.then (withRun_onlyParts t _) (by decide), h.tiles, ⟨_, by rw [State.item, State.withRun, hl]⟩, h.regs,
    fun i => (withRun_keeps t _ (Keeps.refl t)).inv (h.inv i)⟩

theorem PodBegun.podTiming (h : PodBegun n s t) (stream : Bool) (w : Word256) (c : Nat) : PodBegun n s (t.podTiming stream n w c) := by
  obtain ⟨q, p, hq⟩ := h.tiles
  exact ⟨h.parts.then (withTiles_onlyParts t _) (by decide), ⟨q, _, by rw [State.podTiming, State.withTiles, hq]⟩, h.run, h.regs,
    fun i => (podTiming_keeps t stream n w c (Keeps.refl t)).inv (h.inv i)⟩

end

section
variable {n : Nat} {s t : State} (h : PodBegun n s t)
include h

theorem PodBegun.ops : SameOps s t := by
  obtain ⟨q, p, hq⟩ := h.tiles
  refine ⟨?_, ?_, ?_, ?_⟩ <;> rw [hq]

theorem PodBegun.mark : t.tiles.mark = s.tiles.mark := by
  obtain ⟨q, p, hq⟩ := h.tiles
  rw [hq]

theorem PodBegun.acc : t.tiles.acc = s.tiles.acc := by
  obtain ⟨q, p, hq⟩ := h.tiles
  rw [hq]

theorem PodBegun.accHist (m a : Nat) : t.accHist m a = s.accHist m a := by
  obtain ⟨q, p, hq⟩ := h.tiles
  simp only [State.accHist, hq]

theorem PodBegun.flights : t.tiles.flights = s.tiles.flights := by
  obtain ⟨q, p, hq⟩ := h.tiles
  rw [hq]

theorem PodBegun.unserved (p : Nat) : t.unserved n p = s.unserved n p := by
  unfold State.unserved
  rw [h.regs.fget (TILE_POD_UNSERVED_MASK.tile n) (podKey_not_pod n)]

theorem PodBegun.chainClear (stream : Bool) (w : Word256) (c : Nat) : t.chainClear stream n w c = s.chainClear stream n w c := by
  unfold State.chainClear
  rw [accChain_congr h.mark, h.accHist]

theorem PodBegun.sent : t.run.healthSent = s.run.healthSent := by
  obtain ⟨l, hl⟩ := h.run
  rw [hl]

theorem PodBegun.raisesC {u : State} (hu : RaisesC t u) : RaisesC s u := by
  unfold RaisesC at hu ⊢
  rwa [h.sent] at hu

theorem PodBegun.raisesB {u : State} (hu : RaisesB t u) : RaisesB s u := by
  unfold RaisesB at hu ⊢
  rwa [h.sent] at hu

end

/-! ### The instruction's course -/

section
variable (s : State) (stream : Bool) (n : Nat) (w : Word256)

/-- The tile and its counts as a pod instruction has issued. -/
abbrev podNoted : State :=
  (((s.advance (s.issueAbs w)).issue n w (s.issueAbs w)).podTime stream n w (podOcc stream w)).item (20 + n / 10)
    (podUsable stream w (s.issueAbs w)) (wFence w)

/-- The instruction behind its issue. -/
abbrev podBegun : State := (podNoted s stream n w).podTiming stream n w (s.issueAbs w)

theorem podNoted_begun : PodBegun n s (podNoted s stream n w) :=
  (((begun_issue n _ w _).advance.pod).podTime stream w _).item ..

theorem podBegun_begun : PodBegun n s (podBegun s stream n w) := (podNoted_begun s stream n w).podTiming ..

/-- Why an instruction is a stream fault (R115). -/
abbrev podFault : Bool :=
  podFieldsBad stream w || fp8OrientBad w || (wAdd w && !wChain w && !s.accWritten n (wAcc w)) || s.podDepBad stream n w (s.issueAbs w)

/-- The instruction under way. -/
abbrev podFlight : Flight :=
  { kind := if stream then .stream else .incell, tile := n, word := w, start := s.issueAbs w, seq := s.seqOf n w % 2 ^ 32,
    done := podUsable stream w (s.issueAbs w), set := !s.accWritten n (wAcc w), took := wChain w }

/-- The marks as an instruction starts. -/
abbrev podStarted : State := ((podBegun s stream n w).accTiming stream n w (s.issueAbs w)).podMarks n w (s.seqOf n w % 2 ^ 32)

theorem podNoted_podDepBad : (podNoted s stream n w).podDepBad stream n w (s.issueAbs w) = s.podDepBad stream n w (s.issueAbs w) := by
  have ht : (podNoted s stream n w).tiles.pod = s.tiles.pod ∧ (podNoted s stream n w).tiles.accHist = s.tiles.accHist := by
    have hi := issue_tiles (s.advance (s.issueAbs w)) n w (s.issueAbs w)
    have hp : (podNoted s stream n w).tiles = ((s.advance (s.issueAbs w)).issue n w (s.issueAbs w)).tiles := by
      simp only [podNoted, State.item, State.podTime, State.phaseTime]
      split <;> rfl
    rw [hp, hi]
    exact ⟨rfl, rfl⟩
  unfold State.podDepBad State.podHist State.accHist
  rw [ht.1, ht.2]

theorem podNoted_issueAbs : (podNoted s stream n w).issueAbs w = s.issueAbs w := by
  unfold State.issueAbs
  rw [(podNoted_begun s stream n w).parts .edgeAt (by decide)]

theorem podBegun_last (hs : Inv s) : (podBegun s stream n w).fget (TILE_SEQ_LAST.tile n) = s.seqOf n w % 2 ^ 32 := by
  have hi := (issue_keeps (s.advance (s.issueAbs w)) n w (s.issueAbs w) (Keeps.refl _)).inv hs
  have hf := ((follows_podTime n ((s.advance (s.issueAbs w)).issue n w (s.issueAbs w)) w stream (podOcc stream w)).trans
    (follows_item n _ (20 + n / 10) (podUsable stream w (s.issueAbs w)) (wFence w))).trans (follows_podTiming n _ w (s.issueAbs w) stream)
  exact (hf.flds hi _ (.inl (by simp))).trans (issue_issued (s.advance (s.issueAbs w)) n w (s.issueAbs w) hs).last

/-- What comes of an instruction: what keeps it from starting, in the order of R503, R115, R92 and R132, or its flight. -/
theorem podRun_eq (hs : Inv s) : (s.advance (s.issueAbs w)).podRun stream n w (s.issueAbs w) none =
    if s.unserved n (wLpod w) then (podBegun s stream n w).podAbsent n
    else if podFault s stream n w then (podBegun s stream n w).streamFault n w
    else if s.fmtMismatch stream n w (s.issueAbs w) (s.issueAbs w) then (podBegun s stream n w).podMismatch n w (s.seqOf n w % 2 ^ 32)
    else if wChain w && s.chainClear stream n w (s.issueAbs w) then (podBegun s stream n w).chainMissing n w
    else (podStarted s stream n w).takeOff (podFlight s stream n w) := by
  have hb := podBegun_begun s stream n w
  have hn := podNoted_begun s stream n w
  unfold State.podRun
  extract_lets usable done s1 s2 s3 fault s4 q
  have h3 : s3 = podNoted s stream n w := by
    simp only [s3, s2, s1, done, usable, podNoted, Nat.min_self, Nat.lt_irrefl, if_false]
  have h4 : s4 = podBegun s stream n w := by
    simp only [s4, h3, podNoted_issueAbs]
  have hfault : fault = podFault s stream n w := by
    simp only [fault, h3, podFault, podNoted_podDepBad, accWritten_congr hn.mark, Option.isNone_none, Bool.true_and]
  have hq : q = s.seqOf n w % 2 ^ 32 := by
    simp only [q, h4, podBegun_last s stream n w hs]
  rw [h4, hfault, hq, hb.unserved, hb.ops.fmtMismatch, hb.chainClear, accWritten_congr hb.mark, podBegun_last s stream n w hs,
    show (podBegun s stream n w).issueAbs w = s.issueAbs w from podNoted_issueAbs s stream n w]

/-- The marks at the start of an instruction. -/
theorem podMarks_marks {u : State} (hm : tabWf (fun _ => 0) u.tiles.mark = true) (n : Nat) (w : Word256) (q : Nat) :
    ((wAdd w && !wChain w) = false → (u.podMarks n w q).accWritten n (wAcc w) = true) ∧
      (u.podMarks n w q).accInvalid n (wAcc w) = u.accInvalid n (wAcc w) ∧
      (wChain w = true → (u.podMarks n w q).accChain n (wAcc w) = false) ∧
      ∃ m h, (u.podMarks n w q).tiles = { u.tiles with mark := m, accHist := h } := by
  unfold State.podMarks
  extract_lets a s1 h
  cases hk : wAdd w && !wChain w
  · rw [if_neg (by decide)]
    have hmid : ∃ v : State, s1 = v.accMarkBit n a 1 true ∧ tabWf (fun _ => 0) v.tiles.mark = true ∧
        v.accInvalid n a = u.accInvalid n a ∧ (wChain w = true → v.accChain n a = false) := by
      cases hc : wChain w
      · exact ⟨u, by simp [s1, hc], hm, rfl, fun e => absurd e (by decide)⟩
      · exact ⟨u.accMarkBit n a 2 false, by simp [s1, hc], markWf_accMarkBit u n a false hm 2,
          accInvalid_accMarkBit_high u n a false hm (by decide), fun _ => accChain_accMarkBit u n a false hm⟩
    have htiles : ∃ m, s1.tiles = { u.tiles with mark := m } := by
      simp only [s1]
      split <;> exact ⟨_, rfl⟩
    obtain ⟨v, hv, hwf, hinv, hch⟩ := hmid
    obtain ⟨m, htiles⟩ := htiles
    refine ⟨fun _ => ?_, ?_, fun hc => ?_, m, tabPut (fun _ => {}) s1.tiles.accHist (n * 256 + a) { h with writer := some q },
      congrArg (fun x : Tiles => { x with accHist := tabPut (fun _ => {}) s1.tiles.accHist (n * 256 + a) { h with writer := some q } }) htiles⟩
    · refine (accWritten_congr (s := s1) rfl n a).trans ?_
      rw [hv]
      exact accWritten_accMarkBit v n a true hwf
    · refine (accInvalid_congr (s := s1) rfl n a).trans ?_
      rw [hv]
      exact (accInvalid_accMarkBit_high v n a true hwf (by decide)).trans hinv
    · refine (accChain_congr (s := s1) rfl n a).trans ?_
      rw [hv]
      exact (accChain_accMarkBit_low v n a true hwf (by decide)).trans (hch hc)
  · rw [if_pos rfl]
    refine ⟨fun e => absurd e (by decide), rfl, fun hc => ?_, _, _, rfl⟩
    rw [hc] at hk
    simp at hk

end

/-! ### What an instruction's start comes to -/

section
variable {s : State} {stream : Bool} {n : Nat} {w : Word256}

/-- What no start of an instruction changes. -/
structure PodStill (s t : State) : Prop where
  acc : t.tiles.acc = s.tiles.acc
  opLine : t.tiles.opLine = s.tiles.opLine
  lines : t.tiles.lines = s.tiles.lines
  mem : t.mem = s.mem

theorem PodBegun.still {u : State} (h : PodBegun n s u) : PodStill s u :=
  ⟨h.acc, h.ops.opLine, h.ops.lines, h.parts .mem (by decide)⟩

/-- An answer that leaves, of the tiles, all but the marks. -/
theorem PodStill.marked {u t : State} (h : PodStill s u) {a b : Nat} {v : Bool} (ht : t.tiles = (u.accMarkBit n a b v).tiles)
    (hm : t.mem = u.mem) : PodStill s t :=
  ⟨(congrArg Tiles.acc ht).trans h.acc, (congrArg Tiles.opLine ht).trans h.opLine, (congrArg Tiles.lines ht).trans h.lines, hm.trans h.mem⟩

theorem exec_pod (h : Issues s n w (if stream then 0x10 else 0x11)) : exec (if stream then .mmStream n w else .mmIncell n w) s =
    .next ((s.advance (s.issueAbs w)).podRun stream n w (s.issueAbs w) none) := by
  obtain ⟨-, -, hr, ha⟩ := issues_parts h
  rw [← ha]
  cases stream
  · exact congrArg Host.Outcome.next (if_pos hr)
  · exact congrArg Host.Outcome.next (if_pos hr)

end

end Sys2Proof.Laws
end

section
/-! PROOFS. What pod instructions come to, at their start and as they land (R92, R115, R120, R123, R132, R503). -/

namespace Sys2Proof.Laws

open Sys2Proof.Machine Sys2Proof.Safety

/-! ### Answers at the start -/

theorem classB_onlyParts (s : State) : OnlyParts [.regs, .run, .cap, .outbox] s s.classB := by
  unfold State.classB State.markB
  have h : OnlyParts [.run] s (if s.run.healthSent then s.withRun (fun r => { r with lateB := true })
      else s.withRun (fun r => { r with faultB := true })) := .ite (withRun_onlyParts s _) (withRun_onlyParts s _)
  exact (h.mono (by decide)).then (capFault_onlyParts _ 1) (by decide)

theorem classB_raisesB (s : State) : RaisesB s s.classB := by
  unfold RaisesB
  change (if s.run.healthSent then s.classB.run.lateB else s.classB.run.faultB) = true
  by_cases h : s.run.healthSent = true <;> simp [State.classB, State.markB, State.withRun, h]

section
variable {n : Nat} {s u : State} (h : PodBegun n s u) (hs : Inv s)
include h hs

/-- An instruction to a logical pod that no pod serves (R503). -/
theorem PodBegun.absent : Counts (TILE_POD_ABSENT.tile n) 1 s (u.podAbsent n) ∧ RaisesB s (u.podAbsent n) ∧ PodStill s (u.podAbsent n) ∧
    (u.podAbsent n).tiles.flights = s.tiles.flights ∧ (u.podAbsent n).tiles.mark = s.tiles.mark ∧
    OnlyParts [.now, .regs, .run, .tiles, .cap, .outbox] s (u.podAbsent n) := by
  have hp : OnlyParts [.regs, .run, .cap, .outbox] u (u.podAbsent n) :=
    ((fadd_onlyParts u _ 1).mono (by decide)).then (classB_onlyParts _) (by decide)
  have ht : (u.podAbsent n).tiles = u.tiles := hp .tiles (by decide)
  refine ⟨?_, h.raisesB ?_, ⟨?_, ?_, ?_, ?_⟩, ?_, ?_, (h.parts.mono (by decide)).trans (hp.mono (by decide))⟩
  · unfold Counts
    rw [← h.regs.fget (TILE_POD_ABSENT.tile n) (podKey_not_pod n)]
    refine ((only_classB (u.fadd (TILE_POD_ABSENT.tile n) 1) (fun _ m => m)).fget _ ?_).trans
      (fget_fadd_same u _ 1 (h.inv hs).1.1 (show 28 + 24 ≤ 64 by decide))
    have hlow : ∀ k ∈ noteRegs, k < 0x14100000 := by decide
    intro hm
    have := hlow _ hm
    have e : (TILE_POD_ABSENT.tile n).base = 0x14100028 + n / 10 * 0x1000000 + n % 10 * 0x40000 := rfl
    omega
  · exact classB_raisesB (u.fadd (TILE_POD_ABSENT.tile n) 1)
  · rw [ht, h.still.acc]
  · rw [ht, h.still.opLine]
  · rw [ht, h.still.lines]
  · exact Eq.trans (hp .mem (by decide)) h.still.mem
  · rw [ht, h.flights]
  · rw [ht, h.mark]

/-- A stream fault of an instruction (R115). -/
theorem PodBegun.streamFaults (w : Word256) : StreamFaults n w s (u.streamFault n w) := by
  obtain ⟨h1, h2, h3, h4, h5⟩ := tagWord_classC_tells (h.inv hs) n w (u.fget (TILE_SEQ_LAST.tile n)) TILE_STS_STREAM_FAULT (by decide)
  have hp := streamFault_onlyParts u n w
  have hst : PodStill s (u.streamFault n w) := h.still.marked h5 (hp .mem (by decide))
  exact ⟨h1, h2, h3, h.raisesC h4, hst.acc, hst.opLine, hst.lines, (congrArg Tiles.flights h5).trans h.flights,
    (h.parts.mono (by decide)).trans (hp.mono (by decide))⟩

/-- An operand line of another format (R92). -/
theorem PodBegun.mismatch (w : Word256) (q : Nat) : (u.podMismatch n w q).fbit (TILE_STS_FMT_MISMATCH.tile n) = true ∧
    (u.podMismatch n w q).accInvalid n (wAcc w) = true ∧ (u.podMismatch n w q).run.nonfinite = true ∧ RaisesC s (u.podMismatch n w q) ∧
    PodStill s (u.podMismatch n w q) ∧ (u.podMismatch n w q).tiles.flights = s.tiles.flights := by
  obtain ⟨h1, h2, h3, h4, h5⟩ := tagWord_classC_tells (h.inv hs) n w q TILE_STS_FMT_MISMATCH (by decide)
  exact ⟨h1, h2, h3, h.raisesC h4, h.still.marked h5 ((lands_podMismatch u n w q).parts .mem (by decide)),
    (congrArg Tiles.flights h5).trans h.flights⟩

/-- A chain value that has not come (R132). -/
theorem PodBegun.missing (w : Word256) : (u.chainMissing n w).fbit (TILE_STS_CHAIN_MISSING.tile n) = true ∧
    (u.chainMissing n w).accInvalid n (wAcc w) = true ∧ RaisesB s (u.chainMissing n w) ∧ PodStill s (u.chainMissing n w) ∧
    (u.chainMissing n w).tiles.flights = s.tiles.flights := by
  have hi : Inv (u.tagWord n w (u.fget (TILE_SEQ_LAST.tile n))) := (tagInvalid_keeps u _ _ _ _ _ _ _ _ (Keeps.refl u)).inv (h.inv hs)
  have htag : (u.tagWord n w (u.fget (TILE_SEQ_LAST.tile n))).tiles = (u.accMarkBit n (wAcc w) 0 true).tiles := tagInvalid_tiles u ..
  have ht : (u.chainMissing n w).tiles = (u.accMarkBit n (wAcc w) 0 true).tiles :=
    Eq.trans (classBSts_onlyParts _ _ _ .tiles (by decide)) htag
  have hm : (u.chainMissing n w).mem = u.mem := Eq.trans (classBSts_onlyParts _ _ _ .mem (by decide))
    (tagInvalid_onlyParts u _ _ _ _ _ _ _ _ .mem (by decide))
  have hr := classBSts_raisesB (u.tagWord n w (u.fget (TILE_SEQ_LAST.tile n))) (tilePage n) (TILE_STS_CHAIN_MISSING.tile n)
  refine ⟨fbit_classBSts _ _ _ hi.1.1 (by simp [Fld.tile, TILE_STS_CHAIN_MISSING]) rfl ?_, ?_, h.raisesB ?_, h.still.marked ht hm,
    (congrArg Tiles.flights ht).trans h.flights⟩
  · have hlow : ∀ k ∈ noteRegs, k < 0x14100000 := by decide
    intro hm
    have := hlow _ hm
    have e : (TILE_STS_CHAIN_MISSING.tile n).base = 0x14100000 + n / 10 * 0x1000000 + n % 10 * 0x40000 := rfl
    omega
  · rw [accInvalid_congr (congrArg Tiles.mark ht)]
    obtain ⟨-, -, -, hmark, -⟩ := (h.inv hs).1.2.2
    exact accInvalid_accMarkBit u n (wAcc w) true hmark
  · unfold RaisesB at hr ⊢
    rw [State.tagWord, tagInvalid_run] at hr
    exact hr

end

/-! ### The start -/

section
variable {s : State} {stream : Bool} {n : Nat} {w : Word256} (h : Issues s n w (if stream then 0x10 else 0x11))
include h

theorem pod_unserved (hu : s.unserved n (wLpod w) = true) :
    exec (if stream then .mmStream n w else .mmIncell n w) s = .next ((podBegun s stream n w).podAbsent n) := by
  rw [exec_pod h, podRun_eq s stream n w h.1, if_pos hu]

variable (hu : s.unserved n (wLpod w) = false)
include hu

theorem pod_faults (hf : podFault s stream n w = true) :
    exec (if stream then .mmStream n w else .mmIncell n w) s = .next ((podBegun s stream n w).streamFault n w) := by
  rw [exec_pod h, podRun_eq s stream n w h.1, if_neg (by simp [hu]), if_pos hf]

variable (hf : podFault s stream n w = false)
include hf

theorem pod_mismatches (hm : s.fmtMismatch stream n w (s.issueAbs w) (s.issueAbs w) = true) :
    exec (if stream then .mmStream n w else .mmIncell n w) s = .next ((podBegun s stream n w).podMismatch n w (s.seqOf n w % 2 ^ 32)) := by
  rw [exec_pod h, podRun_eq s stream n w h.1, if_neg (by simp [hu]), if_neg (by simp only [hf]; decide), if_pos hm]

variable (hm : s.fmtMismatch stream n w (s.issueAbs w) (s.issueAbs w) = false)
include hm

theorem pod_misses (hc : (wChain w && s.chainClear stream n w (s.issueAbs w)) = true) :
    exec (if stream then .mmStream n w else .mmIncell n w) s = .next ((podBegun s stream n w).chainMissing n w) := by
  rw [exec_pod h, podRun_eq s stream n w h.1, if_neg (by simp [hu]), if_neg (by simp only [hf]; decide), if_neg (by simp [hm]), if_pos hc]

theorem pod_starts (hc : (wChain w && s.chainClear stream n w (s.issueAbs w)) = false) :
    exec (if stream then .mmStream n w else .mmIncell n w) s = .next ((podStarted s stream n w).takeOff (podFlight s stream n w)) := by
  rw [exec_pod h, podRun_eq s stream n w h.1, if_neg (by simp [hu]), if_neg (by simp only [hf]; decide), if_neg (by simp [hm]),
    if_neg (by simp only [hc]; decide)]

end

theorem podBegun_items (s : State) (stream : Bool) (n : Nat) (w : Word256) : (podBegun s stream n w).run.items =
    s.run.items ++ [(20 + n / 10, podUsable stream w (s.issueAbs w), wFence w)] := by
  have hrun : (((s.advance (s.issueAbs w)).issue n w (s.issueAbs w)).podTime stream n w (podOcc stream w)).run = s.run := by
    unfold State.podTime State.phaseTime
    dsimp only
    split <;> rfl
  exact congrArg (fun r => r.items ++ [(20 + n / 10, podUsable stream w (s.issueAbs w), wFence w)]) hrun

/-- What an instruction that starts leaves. -/
structure PodStarts (s : State) (n : Nat) (w : Word256) (t : State) : Prop where
  written : wAdd w = false → t.accWritten n (wAcc w) = true
  tag : t.accInvalid n (wAcc w) = s.accInvalid n (wAcc w)
  chain : wChain w = true → t.accWritten n (wAcc w) = true ∧ t.accChain n (wAcc w) = false
  still : PodStill s t
  flights : t.tiles.flights = s.tiles.flights
  parts : OnlyParts [.now, .regs, .run, .tiles] s t

theorem podMarks_onlyParts (u : State) (n : Nat) (w : Word256) (q : Nat) : OnlyParts [.tiles] u (u.podMarks n w q) := by
  unfold State.podMarks
  extract_lets a s1 h
  have h1 : OnlyParts [.tiles] u (if wChain w then u.accMarkBit n a 2 false else u) :=
    .ite (withTiles_onlyParts u _) (.refl _ u)
  exact .ite (.refl _ u) ((OnlyParts.trans (u := s1) h1 (withTiles_onlyParts _ _)).trans (withTiles_onlyParts s1 _))

theorem podStarted_starts {s : State} (hs : Inv s) (stream : Bool) (n : Nat) (w : Word256) : PodStarts s n w (podStarted s stream n w) := by
  have hb := podBegun_begun s stream n w
  have hi := hb.inv hs
  unfold podStarted
  generalize podBegun s stream n w = u at hb hi ⊢
  obtain ⟨-, -, -, hmark, -⟩ := hi.1.2.2
  obtain ⟨h1, h2, h3, m, k, ht⟩ := podMarks_marks (u := u.accTiming stream n w (s.issueAbs w)) hmark n w (s.seqOf n w % 2 ^ 32)
  have hparts := podMarks_onlyParts (u.accTiming stream n w (s.issueAbs w)) n w (s.seqOf n w % 2 ^ 32)
  have hparts : OnlyParts [.tiles] u _ := (withTiles_onlyParts u _).trans hparts
  refine ⟨fun ha => h1 (by simp [ha]), h2.trans ((accInvalid_congr (t := u.accTiming stream n w (s.issueAbs w)) (s := u) rfl _ _).trans
    (accInvalid_congr hb.mark _ _)), fun hc => ⟨h1 (by simp [hc]), h3 hc⟩, ⟨?_, ?_, ?_, ?_⟩, ?_, hb.parts.then hparts (by decide)⟩
  · rw [ht]
    exact hb.still.acc
  · rw [ht]
    exact hb.still.opLine
  · rw [ht]
    exact hb.still.lines
  · exact Eq.trans (hparts .mem (by decide)) hb.still.mem
  · rw [ht]
    exact hb.flights

theorem podStarted_items (s : State) (stream : Bool) (n : Nat) (w : Word256) : (podStarted s stream n w).run.items =
    s.run.items ++ [(20 + n / 10, podUsable stream w (s.issueAbs w), wFence w)] := by
  have hp : (podStarted s stream n w).run = (podBegun s stream n w).run :=
    (podMarks_onlyParts ((podBegun s stream n w).accTiming stream n w (s.issueAbs w)) n w (s.seqOf n w % 2 ^ 32)) .run (by decide)
  rw [hp, podBegun_items]

/-! ### The landing -/

section
variable {s : State} {g : Flight} {stream : Bool}

theorem landPod_mismatch (older : List Flight) (hf : s.fmtMismatch stream g.tile g.word g.start g.done = true) :
    s.landPod stream g older = (s.podUnmark g).podMismatch g.tile g.word g.seq := if_pos hf

/-- The marks of an instruction that turns out not to execute are as if it had not started (R92). -/
theorem podUnmark_marks (hm : tabWf (fun _ => 0) s.tiles.mark = true) :
    (s.podUnmark g).accWritten g.tile (wAcc g.word) = (s.accWritten g.tile (wAcc g.word) &&
        !(g.set && (s.accHist g.tile (wAcc g.word)).writer == some g.seq)) ∧
      (s.podUnmark g).accChain g.tile (wAcc g.word) = (s.accChain g.tile (wAcc g.word) || g.took) ∧
      tabWf (fun _ => 0) (s.podUnmark g).tiles.mark = true := by
  unfold State.podUnmark
  extract_lets a s1
  have h1 : s1.accWritten g.tile a = (s.accWritten g.tile a && !(g.set && (s.accHist g.tile a).writer == some g.seq)) ∧
      s1.accChain g.tile a = s.accChain g.tile a ∧ tabWf (fun _ => 0) s1.tiles.mark = true := by
    simp only [s1]
    cases g.set && (s.accHist g.tile a).writer == some g.seq
    · exact ⟨by simp, rfl, hm⟩
    · exact ⟨by simp [accWritten_accMarkBit s g.tile a false hm], accChain_accMarkBit_low s g.tile a false hm (by decide),
        markWf_accMarkBit s g.tile a false hm 1⟩
  obtain ⟨hw, hc, hwf⟩ := h1
  clear_value s1
  cases g.took
  · exact ⟨hw, by simp [hc, a], hwf⟩
  · exact ⟨(accWritten_accMarkBit_high s1 g.tile a true hwf).trans hw, by simp [accChain_accMarkBit s1 g.tile a true hwf, a],
      markWf_accMarkBit s1 g.tile a true hwf 2⟩

theorem podUnmark_tiles : ∃ m, (s.podUnmark g).tiles = { s.tiles with mark := m } := by
  unfold State.podUnmark
  dsimp only
  split <;> split <;> exact ⟨_, rfl⟩

end

/-- What a landing finds of a tile on its cycle is what the state before it shows. -/
theorem podSum_offAir (s : State) (stream : Bool) (g : Flight) (c : Nat) (older : List Flight) (p : Nat × Nat) :
    podSum stream g.tile g.word g.start older (offAir (s.advance c) g) p = podSum stream g.tile g.word g.start older s p :=
  podSum_congr (u := s) (v := offAir (s.advance c) g) ⟨rfl, rfl, rfl, rfl⟩ rfl rfl g.tile g.word g.start older p

/-- An instruction's step: the cycle passes, and it lands as the tile stands. -/
theorem pod_step {s : State} {g : Flight} {stream : Bool} (hp : s.pending = []) (hg : g.kind = if stream then .stream else .incell)
    (hd : s.dueBy (s.now + 1) = [(s.flightDue g, .flight g)]) : step s =
      .next (((((offAir (s.advance (s.flightDue g)) g).landPod stream g (s.olderThan g)).accSweep)).advance (s.now + 1)) := by
  rw [step_passes hp, upTo_flight hd, land_pod hg]
  rfl

/-- Settles O18: an instruction is under way until it lands, and its rows then hold the sums of its products. -/
theorem podInstructionsWriteTheirRows : Obligations.PodInstructionsWriteTheirRows := by
  refine ⟨fun s n w stream h => ?_, fun s g stream hs hp htile hg hd => ?_⟩
  · extract_lets c x served fault noValue still
    have hb := podBegun_begun s stream n w
    have hstill : ∀ {t}, PodStill s t → still t := fun h => ⟨h.acc, h.opLine, h.lines, h.mem⟩
    have hfault : podFault s stream n w = true ↔ fault := by
      simp only [podFault, fault, Bool.or_eq_true, Bool.and_eq_true, Bool.not_eq_true', or_assoc, and_assoc, x]
    have hno : (wChain w && s.chainClear stream n w (s.issueAbs w)) = true ↔ noValue := by
      simp only [noValue, Bool.and_eq_true, x]
    refine ⟨fun hu => ?_, fun hu hf => ?_, fun hu hf hm => ?_, fun hu hf hm hc => ?_, fun hu hf hm hc => ?_⟩
    · obtain ⟨h1, h2, h3, h4, h5, h6⟩ := hb.absent h.1
      exact ⟨_, pod_unserved h (by simpa [served] using hu), h1, h2, hstill h3, h4, h5, h6⟩
    · exact ⟨_, pod_faults h hu (hfault.2 hf), hb.streamFaults h.1 w⟩
    · obtain ⟨h1, h2, h3, h4, h5, h6⟩ := hb.mismatch h.1 w (s.seqOf n w % 2 ^ 32)
      exact ⟨_, pod_mismatches h hu (eq_false_of_ne_true (mt hfault.1 hf)) hm, h1, h2, h3, h4, hstill h5, h6⟩
    · obtain ⟨h1, h2, h3, h4, h5⟩ := hb.missing h.1 w
      exact ⟨_, pod_misses h hu (eq_false_of_ne_true (mt hfault.1 hf)) hm (hno.2 hc), h1, h2, h3, hstill h4, h5⟩
    · have ht := podStarted_starts h.1 stream n w
      refine ⟨_, pod_starts h hu (eq_false_of_ne_true (mt hfault.1 hf)) hm (eq_false_of_ne_true (mt hno.1 hc)), ?_, ht.written, ht.tag,
        ht.chain, podStarted_items s stream n w, hstill ⟨ht.still.acc, ht.still.opLine, ht.still.lines, ht.still.mem⟩,
        ht.parts.then (withTiles_onlyParts _ _) (by decide)⟩
      exact congrArg (· ++ [podFlight s stream n w]) ht.flights
  · have hstep := pod_step hp hg hd
    have hnow : s.flightDue g ≤ s.now + 1 := (dueBy_single hd).2
    obtain ⟨-, -, -, hmark, -⟩ := hs.1.2.2
    refine ⟨fun hf => ⟨_, hstep, ?_⟩, fun hf => ⟨_, hstep, ?_⟩⟩
    · have hl := landPod_lands (s := offAir (s.advance (s.flightDue g)) g) (g := g) (stream := stream) hs.1.2.2 (s.olderThan g) hf
      have hn := lands_landPod (offAir (s.advance (s.flightDue g)) g) stream g (s.olderThan g)
      refine ⟨?_, fun i hi j hj => ?_, hl.others, ?_, hn.flights, hn.opLine, hn.lines, ?_⟩
      · have h1 : ((offAir (s.advance (s.flightDue g)) g).landPod stream g (s.olderThan g)).now = max s.now (s.flightDue g) :=
          hn.parts .now (by decide)
        change max ((offAir (s.advance (s.flightDue g)) g).landPod stream g (s.olderThan g)).now (s.now + 1) = _
        rw [h1]
        omega
      · refine (hl.rows i hi j hj).trans ?_
        rw [podSum_offAir]
        rfl
      · refine hl.tag.trans ?_
        simp only [podSum_offAir]
        exact Iff.rfl
      · refine OnlyParts.then (OnlyParts.then (OnlyParts.trans ?_ (hl.parts.mono (by decide))) (withTiles_onlyParts _ _) (by decide))
          (advance_onlyParts _ _) (by decide)
        exact ((advance_onlyParts s _).mono (by decide)).then (withTiles_onlyParts _ _) (by decide)
    · rw [landPod_mismatch (s := offAir (s.advance (s.flightDue g)) g) (s.olderThan g) hf]
      obtain ⟨hw, hc, hwf⟩ := podUnmark_marks (s := offAir (s.advance (s.flightDue g)) g) (g := g) hmark
      obtain ⟨m, ht⟩ := podUnmark_tiles (s := offAir (s.advance (s.flightDue g)) g) (g := g)
      have hi : Inv ((offAir (s.advance (s.flightDue g)) g).podUnmark g) := (podUnmark_keeps _ g (Keeps.refl _)).inv hs
      obtain ⟨h1, h2, -, h4, h5⟩ := tagWord_classC_tells hi g.tile g.word g.seq TILE_STS_FMT_MISMATCH (by decide)
      have hm := congrArg Tiles.mark h5
      refine ⟨h1, h2, ?_, ?_, ?_, ?_, ?_⟩
      · have hrun := (lands_podUnmark (offAir (s.advance (s.flightDue g)) g) g).sent
        unfold RaisesC at h4 ⊢
        rw [hrun] at h4
        exact h4
      · refine (accWritten_congr hm _ _).trans ?_
        exact (accWritten_accMarkBit_low _ _ _ _ hwf).trans hw
      · refine (accChain_congr hm _ _).trans ?_
        exact (accChain_accMarkBit_low _ _ _ _ hwf (by decide)).trans hc
      · exact (congrArg Tiles.acc h5).trans (congrArg Tiles.acc ht :)
      · exact Eq.trans ((lands_podMismatch _ g.tile g.word g.seq).parts .mem (by decide))
          ((lands_podUnmark (offAir (s.advance (s.flightDue g)) g) g).parts .mem (by decide))

end Sys2Proof.Laws
end

section
/-! PROOFS. Operations on registers beside the fields that a proof reads: what is noted of faults and events (R454, R488 to R492,
R514). -/

namespace Sys2Proof.Laws

open Sys2Proof.Machine Sys2Proof.Safety

/-! ### The marks of the running tick -/

/-- The marks of the running tick go on standing (R302). -/
structure TickMarks (s t : State) : Prop where
  sent : t.run.healthSent = s.run.healthSent
  faultB : s.run.faultB = true → t.run.faultB = true
  lateB : s.run.lateB = true → t.run.lateB = true
  faultC : s.run.faultC = true → t.run.faultC = true
  lateC : s.run.lateC = true → t.run.lateC = true

section
variable {s t u : State}

theorem TickMarks.of_run (h : t.run = s.run) : TickMarks s t := by constructor <;> rw [h] <;> exact id

theorem TickMarks.refl (s : State) : TickMarks s s := .of_run rfl

theorem TickMarks.trans (h : TickMarks s t) (g : TickMarks t u) : TickMarks s u :=
  ⟨g.sent.trans h.sent, fun x => g.faultB (h.faultB x), fun x => g.lateB (h.lateB x), fun x => g.faultC (h.faultC x),
    fun x => g.lateC (h.lateC x)⟩

/-- A fault of class B raised before goes on standing. -/
theorem TickMarks.after_raisesB (h : TickMarks t u) (hs : t.run.healthSent = s.run.healthSent) (hr : RaisesB s t) : RaisesB s u := by
  unfold RaisesB at hr ⊢
  by_cases hh : s.run.healthSent = true
  · rw [if_pos hh] at hr ⊢
    exact h.lateB hr
  · rw [if_neg hh] at hr ⊢
    exact h.faultB hr

/-- A fault of class B raised after an operation that leaves HEALTH as it was. -/
theorem TickMarks.then_raisesB (h : TickMarks s t) (hr : RaisesB t u) : RaisesB s u := by
  unfold RaisesB at hr ⊢
  rwa [h.sent] at hr

theorem TickMarks.after_raisesC (h : TickMarks t u) (hs : t.run.healthSent = s.run.healthSent) (hr : RaisesC s t) : RaisesC s u := by
  unfold RaisesC at hr ⊢
  by_cases hh : s.run.healthSent = true
  · rw [if_pos hh] at hr ⊢
    exact h.lateC hr
  · rw [if_neg hh] at hr ⊢
    exact h.faultC hr

theorem TickMarks.then_raisesC (h : TickMarks s t) (hr : RaisesC t u) : RaisesC s u := by
  unfold RaisesC at hr ⊢
  rwa [h.sent] at hr

theorem tickMarks_classBSts (s : State) (p : Nat) (f : Fld) : TickMarks s (s.classBSts p f) := by
  constructor <;> rw [classBSts_run] <;> split <;> simp_all

theorem tickMarks_classB (s : State) : TickMarks s s.classB := by
  have h : s.classB.run = if s.run.healthSent then { s.run with lateB := true } else { s.run with faultB := true } := by
    by_cases h : s.run.healthSent = true <;> simp [State.classB, State.markB, State.withRun, h]
  constructor <;> rw [h] <;> split <;> simp_all

theorem tickMarks_classCWith (s : State) (p : Nat) (f : Fld) (cause fifo : Nat) : TickMarks s (s.classCWith p f cause fifo) := by
  constructor <;> rw [classCWith_run] <;> split <;> simp_all

end

/-! ### Beside the fields that are read -/

/-- A field that shares no bit with any of `K`. -/
def ApartFrom (K : Fld → Prop) (f : Fld) : Prop := f.lo + f.wd ≤ 64 ∧ ∀ g, K g → apart f g = true

/-- What an operation on the parts `ps` leaves: every field of `K`, the tick's marks, and what has gone out. -/
structure Beside (K : Fld → Prop) (ps : List Part) (s t : State) : Prop where
  parts : OnlyParts ps s t
  keeps : Keeps s t
  flds : Inv s → ∀ f, K f → t.fget f = s.fget f
  marks : TickMarks s t
  out : OutGrows s t

section
variable {K : Fld → Prop} {ps qs : List Part} {s t u : State}

theorem Beside.refl (K : Fld → Prop) (ps : List Part) (s : State) : Beside K ps s s :=
  ⟨.refl ps s, .refl s, fun _ _ _ => rfl, .refl s, .refl s⟩

theorem Beside.trans (h : Beside K ps s t) (g : Beside K ps t u) : Beside K ps s u :=
  ⟨h.parts.trans g.parts, h.keeps.trans g.keeps, fun i f hf => (g.flds (h.keeps.inv i) f hf).trans (h.flds i f hf),
    h.marks.trans g.marks, h.out.trans g.out⟩

theorem Beside.mono {L : Fld → Prop} (h : Beside K ps s t) (hq : ps ⊆ qs) (hl : ∀ f, L f → K f) : Beside L qs s t :=
  ⟨h.parts.mono hq, h.keeps, fun i f hf => h.flds i f (hl f hf), h.marks, h.out⟩

theorem Beside.then (h : Beside K ps s t) (g : Beside K qs t u) (hq : qs ⊆ ps) : Beside K ps s u := h.trans (g.mono hq (fun _ => id))

theorem Beside.ite {c : Prop} [Decidable c] (h : Beside K ps s t) (g : Beside K ps s u) : Beside K ps s (if c then t else u) := by
  split <;> assumption

theorem Beside.foldl {α : Type} {f : State → α → State} {l : List α} (h : ∀ v, ∀ a ∈ l, Beside K ps v (f v a)) (s : State) :
    Beside K ps s (l.foldl f s) := foldl_keeps_rel (Beside.refl K ps) (fun _ _ _ => Beside.trans) h s

/-- An operation on neither the registers nor the tick's record nor what goes out. -/
theorem Beside.of_parts (h : OnlyParts ps s t) (hk : Keeps s t) (hp : .regs ∉ ps ∧ .run ∉ ps ∧ .outbox ∉ ps) : Beside K ps s t :=
  ⟨h, hk, fun _ g _ => fget_congr (h .regs hp.1) g, .of_run (h .run hp.2.1), .of_parts h hp.2.2⟩

theorem Beside.fbit (h : Beside K ps s t) (hi : Inv s) {f : Fld} (hf : K f) (hb : s.fbit f = true) : t.fbit f = true :=
  (congrArg (fun x => x != 0) (h.flds hi f hf)).trans hb

/-- What was counted before goes on standing. -/
theorem Beside.after_counts (h : Beside K ps t u) (hi : Inv t) {f : Fld} {n : Nat} (hf : K f) (hc : Counts f n s t) : Counts f n s u :=
  (h.flds hi f hf).trans hc

/-- What is counted after an operation beside the count. -/
theorem Beside.then_counts (h : Beside K ps s t) (hi : Inv s) {f : Fld} {n : Nat} (hf : K f) (hc : Counts f n t u) : Counts f n s u := by
  unfold Counts
  rw [← h.flds hi f hf]
  exact hc

end

section
variable {K : Fld → Prop} (s : State)

theorem beside_withRun (f : TickRun → TickRun) (h : TickMarks s (s.withRun f)) : Beside K [.run] s (s.withRun f) :=
  ⟨withRun_onlyParts s f, withRun_keeps s f (.refl s), fun _ _ _ => rfl, h, .refl s⟩

theorem beside_withHub (f : HubSt → HubSt) : Beside K [.hub] s (s.withHub f) :=
  .of_parts (withHub_onlyParts s f) (withHub_keeps s f (.refl s)) (by decide)

theorem beside_emit (o : Out) : Beside K [.outbox] s (s.emit o) :=
  ⟨fun p hp => by cases p <;> simp [Part.Same] at hp ⊢, emit_keeps s o (.refl s), fun _ _ _ => rfl, .of_run rfl, outGrows_emit s o⟩

theorem beside_fset (f : Fld) (x : Nat) (h : ApartFrom K f) : Beside K [.regs] s (s.fset f x) :=
  ⟨fset_onlyParts s f x, fset_keeps f x (.refl s), fun i g hg => fget_fset_apart s f g x i.1.1 h.1 (h.2 g hg), .of_run rfl, .refl s⟩

theorem beside_fadd (f : Fld) (x : Nat) (h : ApartFrom K f) : Beside K [.regs] s (s.fadd f x) := beside_fset s f _ h

theorem beside_fsetAll (l : List (Fld × Nat)) (h : ∀ p ∈ l, ApartFrom K p.1) : Beside K [.regs] s (s.fsetAll l) := by
  induction l generalizing s with
  | nil => exact .refl K _ s
  | cons p l ih =>
    obtain ⟨f, x⟩ := p
    exact (beside_fset s f x (h _ (.head _))).trans (ih (s.fset f x) (fun q hq => h q (.tail _ hq)))

theorem beside_record (v : Fld) (l : List (Fld × Nat)) (hv : ApartFrom K v) (hl : ∀ p ∈ l, ApartFrom K p.1) :
    Beside K [.regs] s (s.record v l) := .ite (.refl K _ s) ((beside_fsetAll s l hl).trans (beside_fset _ v 1 hv))

theorem beside_setSts (p : Nat) (f : Fld) (h : ApartFrom K f) : Beside K [.regs, .outbox] s (s.setSts p f) :=
  ⟨setSts_onlyParts s p f, setSts_keeps s p f (.refl s), fun i g hg => fget_setSts_apart s p f g i.1.1 h.1 (h.2 g hg),
    .of_run (setSts_onlyParts s p f .run (by decide)), outGrows_setSts s p f⟩

variable (hn : ∀ g, K g → g.base ∉ noteRegs)
include hn

/-- Notes touch registers of the hull alone. -/
theorem Beside.of_notes {ps : List Part} {s t : State} (h : OnlyParts ps s t) (hk : Keeps s t) (hr : OnlyRegs noteRegs s t)
    (ho : OutGrows s t) (hp : .run ∉ ps) : Beside K ps s t :=
  ⟨h, hk, fun _ g hg => hr.fget g (hn g hg), .of_run (h .run hp), ho⟩

theorem beside_capFault (c : Nat) : Beside K [.regs, .cap, .outbox] s (s.capFault c) :=
  .of_notes hn (capFault_onlyParts s c) (capFault_keeps s c (.refl s)) (only_capFault s c (fun _ m => m)) (outGrows_capFault s c) (by decide)

theorem beside_traceAB (c p : Nat) (f : Fld) : Beside K [.regs, .fifos, .cap, .outbox] s (s.traceAB c p f) :=
  .of_notes hn (traceAB_onlyParts s c p f) (traceAB_keeps s c p f (.refl s)) (only_traceAB s c p f (fun _ m => m)) (outGrows_traceAB s c p f)
    (by decide)

theorem beside_event (typ ctx : Nat) (l : List Nat) : Beside K [.regs, .fifos, .outbox] s (s.event typ ctx l) :=
  .of_notes hn (event_onlyParts s typ ctx l) (event_keeps s typ ctx l (.refl s)) (only_event s typ ctx l (fun _ m => m))
    (outGrows_event s typ ctx l) (by decide)

theorem beside_classB : Beside K [.regs, .run, .cap, .outbox] s s.classB :=
  ⟨classB_onlyParts s, classB_keeps s (.refl s), fun _ g hg => (only_classB s (fun _ m => m)).fget g (hn g hg), tickMarks_classB s,
    (OutGrows.ite (a := s.withRun _) (b := s.withRun _) (.refl s) (.refl s)).trans (outGrows_capFault s.markB 1)⟩

theorem beside_classBSts (p : Nat) (f : Fld) (h : ApartFrom K f) : Beside K [.regs, .run, .fifos, .cap, .outbox] s (s.classBSts p f) :=
  (((beside_setSts s p f h).mono (by decide) (fun _ => id)).then (beside_traceAB _ hn 1 p f) (by decide)).then (beside_classB _ hn) (by decide)

theorem beside_classCWith (p : Nat) (f : Fld) (cause fifo : Nat) (h : ApartFrom K f) (hp : ∀ g, K g → g.base ≠ (FAULT_CNT_C_RAISED.pageOf p).base) :
    Beside K [.regs, .run, .attend, .fifos, .cap, .outbox] s (s.classCWith p f cause fifo) := by
  refine ⟨classCWith_onlyParts s p f cause fifo, classCWith_keeps s p f cause fifo (.refl s), fun i g hg => ?_, tickMarks_classCWith s p f cause fifo,
    outGrows_classCWith s p f cause fifo⟩
  have hset := (beside_setSts s p f h).flds i g hg
  refine Eq.trans ?_ hset
  have hr : OnlyRegs ((FAULT_CNT_C_RAISED.pageOf p).base :: noteRegs) (s.setSts p f) (s.classCWith p f cause fifo) := by
    have hs : noteRegs ⊆ (FAULT_CNT_C_RAISED.pageOf p).base :: noteRegs := fun _ m => .tail _ m
    exact ((((only_event _ _ _ _ hs).trans (only_attendStart _ _ _ _ _)).trans (OnlyRegs.same (OnlyRegs.refl _ _) (markC_regs _))).trans
      (only_fadd _ _ 1 (.head _))).trans (only_capFault _ 2 hs)
  refine hr.fget g (fun hm => ?_)
  rcases List.mem_cons.1 hm with e | hm
  · exact hp g hg e
  · exact hn g hg hm

theorem beside_classC (p : Nat) (f : Fld) (h : ApartFrom K f) (hp : ∀ g, K g → g.base ≠ (FAULT_CNT_C_RAISED.pageOf p).base) :
    Beside K [.regs, .run, .attend, .fifos, .cap, .outbox] s (s.classC p f) := beside_classCWith s hn p f 5 0 h hp

end

end Sys2Proof.Laws
end

section
/-! PROOFS. What a hub notes of errors, lanes and poison (R340 to R343, R349, R350, R365). -/

namespace Sys2Proof.Laws

open Sys2Proof.Machine Sys2Proof.Safety

/-! ### Fields of a hub die -/

/-- The register of hub die `k` at an offset. -/
abbrev hubAt (k off : Nat) : Nat := 0x8000000 + off + k * 0x1000000

/-- Fields that the notes of hub die `k` leave: registers of the hull that notes do not touch, and of the die the status bits of
overruns, poison reads, a full poison table and scrub, the scrub cursor, the counters but that of retired lanes, the ECC counters
and what names the granules of the poison table. -/
def HubKept (k : Nat) (f : Fld) : Prop :=
  (f.base < 0x8000000 ∧ f.base ∉ noteRegs) ∨ ∃ off, f.base = hubAt k off ∧
    ((off = 0 ∧ (f.lo + f.wd ≤ 3 ∨ (4 ≤ f.lo ∧ f.lo + f.wd ≤ 6) ∨ 9 ≤ f.lo)) ∨ off = 0x28 ∨ (off = 0x38 ∧ f.lo + f.wd ≤ 56) ∨
      (0x1000 ≤ off ∧ off < 0x1400) ∨ (0x2000 ≤ off ∧ off < 0x2800 ∧ (f.lo + f.wd ≤ 30 ∨ 31 ≤ f.lo)))

/-- The kept fields that are none of the poison table. -/
def HubCounted (k : Nat) (f : Fld) : Prop := HubKept k f ∧ ¬ (∃ off, f.base = hubAt k off ∧ 0x2000 ≤ off) ∧
  (f.base = hubAt k 0 → f.lo + f.wd ≤ 4 ∨ 5 ≤ f.lo)

theorem hubKept_not_note {k : Nat} {f : Fld} (h : HubKept k f) : f.base ∉ noteRegs := by
  have hlow : ∀ x ∈ noteRegs, x < 0x8000000 := by decide
  rcases h with ⟨-, h⟩ | ⟨off, h, -⟩
  · exact h
  · intro hm
    have := hlow _ hm
    rw [h] at this
    unfold hubAt at this
    omega

theorem hubPage_base (k : Nat) : (FAULT_CNT_C_RAISED.pageOf (8 + k)).base = if k < 20 then hubAt k 0x3ff010
    else 0x3ff010 - 0x3C0000 + 0x14100000 + ((8 + k - 28) / 10) * 0x1000000 + ((8 + k - 28) % 10) * 0x40000 := by
  unfold Fld.pageOf
  by_cases h : k < 20
  · rw [if_pos (by omega), if_pos h, die_base]
    have e : FAULT_CNT_C_RAISED.base = 0x3ff010 := rfl
    unfold hubAt
    omega
  · rw [if_neg (by omega), if_neg h]
    rfl

theorem hubKept_not_page {k : Nat} (hk : k < 20) {f : Fld} (h : HubKept k f) : f.base ≠ (FAULT_CNT_C_RAISED.pageOf (8 + k)).base := by
  rw [hubPage_base, if_pos hk]
  rcases h with ⟨h, -⟩ | ⟨off, h, ho⟩
  · unfold hubAt
    omega
  · rw [h]
    unfold hubAt
    omega

/-- A field that hub notes write, by its place, shares no bit with those kept. -/
theorem hubKept_apart {k off : Nat} {f : Fld} (hw : f.lo + f.wd ≤ 64) (hb : f.base = hubAt k off)
    (h : (off = 0 ∧ (f.lo = 3 ∨ 6 ≤ f.lo ∧ f.lo + f.wd ≤ 9) ∧ f.wd = 1) ∨ off = 0x10 ∨ off = 0x18 ∨ (off = 0x38 ∧ 56 ≤ f.lo) ∨
      (0x1400 ≤ off ∧ off < 0x1800) ∨ (0x2000 ≤ off ∧ off < 0x2800 ∧ f.lo = 30 ∧ f.wd = 1)) : ApartFrom (HubKept k) f := by
  refine ⟨hw, fun g hg => ?_⟩
  simp only [apart, Bool.or_eq_true, bne_iff_ne, decide_eq_true_eq]
  rcases hg with ⟨hg, -⟩ | ⟨off', hg, ho⟩
  · refine .inl (.inl ?_)
    rw [hb]
    unfold hubAt
    omega
  · by_cases he : g.base = f.base
    · have : off' = off := by
        rw [hg, hb] at he
        unfold hubAt at he
        omega
      omega
    · exact .inl (.inl he)

/-- The fields of a hub's registers lie where their offsets say. -/
theorem die_hubAt {f : Fld} {off : Nat} (k : Nat) (h : f.base = 0x8000000 + off) : (f.die k).base = hubAt k off := by
  rw [die_base, h]

theorem ix_lo (f : Fld) (i : Nat) : (f.ix i).lo = f.lo := by cases f; rfl

theorem ix_wd (f : Fld) (i : Nat) : (f.ix i).wd = f.wd := by cases f; rfl

theorem chanFld_lo (f : Fld) (stack g : Nat) : (chanFld f stack g).lo = f.lo := by rw [chanFld, ix_lo, die_lo]

theorem chanFld_wd (f : Fld) (stack g : Nat) : (chanFld f stack g).wd = f.wd := by rw [chanFld, ix_wd, die_wd]

theorem chanFld_base {f : Fld} {stack g off : Nat} (h : f.base = 0x8000000 + off) (hs : f.stride = 8) :
    (chanFld f stack g).base = hubAt (stack / 4) (off + 8 * (32 * (stack % 4) + granCh g)) := by
  have e : (chanFld f stack g).base = f.base + stack / 4 * 0x1000000 + (32 * (stack % 4) + granCh g) * f.stride := by
    unfold chanFld Fld.ix Fld.die
    rfl
  rw [e, hs, h]
  unfold hubAt
  omega

end Sys2Proof.Laws
end

section
/-! PROOFS. What comes of errors on the memory side, beside what is counted (R340 to R343, R349, R350, R365). -/

namespace Sys2Proof.Laws

open Sys2Proof.Machine Sys2Proof.Safety

/-- The queues and the accesses under way of the hubs stand. -/
structure SameQueues (s t : State) : Prop where
  corrQ : t.hub.corrQ = s.hub.corrQ
  scrubQ : t.hub.scrubQ = s.hub.scrubQ
  retry : t.hub.retry = s.hub.retry
  writes : t.hub.writes = s.hub.writes

theorem SameQueues.of_hub {s t : State} (h : t.hub = s.hub) : SameQueues s t := by constructor <;> rw [h]

theorem SameQueues.trans {s t u : State} (h : SameQueues s t) (g : SameQueues t u) : SameQueues s u :=
  ⟨g.corrQ.trans h.corrQ, g.scrubQ.trans h.scrubQ, g.retry.trans h.retry, g.writes.trans h.writes⟩

/-- What a hub's notes can touch. -/
abbrev hubParts : List Part := [.regs, .run, .hub, .attend, .fifos, .cap, .outbox]

/-- A hub's notes leave the fields of `K`, and every queue. -/
structure HubNotes (K : Fld → Prop) (s t : State) : Prop extends Beside K hubParts s t where
  queues : SameQueues s t

section
variable {K : Fld → Prop} {s t u : State}

theorem HubNotes.refl (K : Fld → Prop) (s : State) : HubNotes K s s := ⟨.refl K _ s, .of_hub rfl⟩

theorem HubNotes.next (h : HubNotes K s t) (g : HubNotes K t u) : HubNotes K s u :=
  ⟨h.toBeside.trans g.toBeside, h.queues.trans g.queues⟩

theorem HubNotes.ite {c : Prop} [Decidable c] (h : HubNotes K s t) (g : HubNotes K s u) : HubNotes K s (if c then t else u) := by
  split <;> assumption

theorem HubNotes.weaken {L : Fld → Prop} (h : HubNotes K s t) (hl : ∀ f, L f → K f) : HubNotes L s t :=
  ⟨h.toBeside.mono (List.Subset.refl _) hl, h.queues⟩

theorem HubNotes.of_beside {ps : List Part} (h : Beside K ps s t) (hp : ps ⊆ hubParts ∧ .hub ∉ ps) : HubNotes K s t :=
  ⟨h.mono hp.1 (fun _ => id), .of_hub (h.parts .hub hp.2)⟩

theorem HubNotes.of_hub (f : HubSt → HubSt) (h : SameQueues s (s.withHub f)) : HubNotes K s (s.withHub f) :=
  ⟨(beside_withHub s f).mono (by decide) (fun _ => id), h⟩

end

/-! ### Statuses and counters of a hub die -/

section
variable (s : State) {k : Nat} (hk : k < 20) (f : Fld)
include hk

theorem hubNotes_classC (hf : f.base = 0x8000000 ∧ (f.lo = 3 ∨ 6 ≤ f.lo ∧ f.lo + f.wd ≤ 9) ∧ f.wd = 1) :
    HubNotes (HubKept k) s (s.classC (8 + k) (f.die k)) := by
  obtain ⟨hb, hl, hw⟩ := hf
  refine .of_beside (beside_classC s (fun _ => hubKept_not_note) (8 + k) (f.die k) ?_ (fun _ => hubKept_not_page hk)) (by decide)
  exact hubKept_apart (off := 0) (by rw [die_lo, die_wd]; omega) (die_hubAt k (by omega)) (.inl ⟨rfl, by rw [die_lo, die_wd]; exact hl, by rw [die_wd]; exact hw⟩)

omit hk in
theorem hubNotes_setSts (hf : f.base = 0x8000000 ∧ (f.lo = 3 ∨ 6 ≤ f.lo ∧ f.lo + f.wd ≤ 9) ∧ f.wd = 1) :
    HubNotes (HubKept k) s (s.setSts (8 + k) (f.die k)) := by
  obtain ⟨hb, hl, hw⟩ := hf
  refine .of_beside (beside_setSts s (8 + k) (f.die k) ?_) (by decide)
  exact hubKept_apart (off := 0) (by rw [die_lo, die_wd]; omega) (die_hubAt k (by omega)) (.inl ⟨rfl, by rw [die_lo, die_wd]; exact hl, by rw [die_wd]; exact hw⟩)

end

/-- The first memory error is noted in its own registers (R365). -/
theorem hubNotes_hubFirst (s : State) (stack g cause : Nat) : HubNotes (HubKept (stack / 4)) s (s.hubFirst stack g cause) := by
  have hclear : ∀ f : Fld, f.base = 0x8000010 ∨ f.base = 0x8000018 → f.lo + f.wd ≤ 64 → ApartFrom (HubKept (stack / 4)) (f.die (stack / 4)) := by
    intro f hb hw
    rcases hb with hb | hb
    · exact hubKept_apart (off := 0x10) (by rw [die_lo, die_wd]; exact hw) (die_hubAt _ (by omega)) (by omega)
    · exact hubKept_apart (off := 0x18) (by rw [die_lo, die_wd]; exact hw) (die_hubAt _ (by omega)) (by omega)
  unfold State.hubFirst
  dsimp only
  refine .ite (.refl _ s) (.of_beside (beside_fsetAll s _ ?_) (by decide))
  simp only [List.forall_mem_cons]
  refine ⟨hclear _ ?_ ?_, hclear _ ?_ ?_, hclear _ ?_ ?_, hclear _ ?_ ?_, hclear _ ?_ ?_, hclear _ ?_ ?_, hclear _ ?_ ?_, hclear _ ?_ ?_, fun _ h => nomatch h⟩ <;>
    decide

/-! ### Lanes (R349, R350) -/

/-- The lane registers of a channel. -/
theorem chanFld_apart {f : Fld} (stack g : Nat) (hf : f.base = 0x8001400 ∧ f.stride = 8 ∧ f.lo + f.wd ≤ 64) :
    ApartFrom (HubKept (stack / 4)) (chanFld f stack g) := by
  obtain ⟨hb, hs, hw⟩ := hf
  have hch : granCh g < 32 := Nat.mod_lt _ (by decide)
  refine hubKept_apart (by rw [chanFld_lo, chanFld_wd]; exact hw) (chanFld_base (off := 0x1400) (by omega) hs) ?_
  omega

theorem hubNotes_laneRetire (s : State) {stack : Nat} (hs : stack < 16) (g lane : Nat) :
    HubNotes (HubKept (stack / 4)) s (s.laneRetire stack g lane) := by
  unfold State.laneRetire
  dsimp only
  split
  · refine ((HubNotes.of_hub _ ⟨rfl, rfl, rfl, rfl⟩).next (.of_beside (beside_fadd _ (HUB_CNT_LANES_RETIRED.die (stack / 4)) 1 ?_) (by decide))).next
      ((hubNotes_setSts _ _ (by decide)).next (hubNotes_hubFirst _ stack g 5))
    exact hubKept_apart (off := 0x38) (show 56 + 8 ≤ 64 by decide) (die_hubAt _ (by decide)) (.inr (.inr (.inr (.inl ⟨rfl, show 56 ≤ 56 from le_rfl⟩))))
  · exact ((HubNotes.of_hub _ ⟨rfl, rfl, rfl, rfl⟩).next (.of_beside (beside_fset _ (chanFld HUB_LANE_EXHAUSTED stack g) 1
      (chanFld_apart stack g (by decide))) (by decide))).next ((hubNotes_classC _ (by omega) _ (by decide)).next (hubNotes_hubFirst _ stack g 6))

theorem hubNotes_laneError (s : State) {stack : Nat} (hs : stack < 16) (g : Nat) (lane : Option Nat) :
    HubNotes (HubKept (stack / 4)) s (s.laneError stack g lane) := by
  unfold State.laneError
  split
  · exact .refl _ s
  · dsimp only
    split
    · exact (HubNotes.of_hub _ ⟨rfl, rfl, rfl, rfl⟩).next (hubNotes_laneRetire _ hs g _)
    · exact .of_hub _ ⟨rfl, rfl, rfl, rfl⟩

/-! ### Poison (R341 to R343) -/

theorem poison_ix_base (f : Fld) (k j : Nat) (hb : f.base = 0x8002000) (hs : f.stride = 8) :
    ((f.die k).ix j).base = hubAt k (0x2000 + 8 * j) := by
  unfold Fld.ix Fld.die
  simp only [hb, hs]
  unfold hubAt
  omega

theorem poisonAt_lt {s : State} {stack g j : Nat} (h : s.poisonAt stack g = some j) : j < 256 := by
  have := (mem_range' _ _ _).1 (List.mem_of_find?_eq_some h)
  omega

theorem hubNotes_poisonHit (s : State) {stack : Nat} (hs : stack < 16) (g : Nat) : HubNotes (HubKept (stack / 4)) s (s.poisonHit stack g) := by
  unfold State.poisonHit
  dsimp only
  split
  · exact .refl _ s
  next j hj =>
    have hlt := poisonAt_lt hj
    refine .ite (((HubNotes.of_beside (beside_fset s _ 1 ?_) (by decide)).next (hubNotes_classC _ (by omega) _ (by decide))).next
      (hubNotes_hubFirst _ stack g 3)) (.of_hub _ ⟨rfl, rfl, rfl, rfl⟩)
    refine hubKept_apart (show 30 + 1 ≤ 64 by decide) (poison_ix_base _ _ j rfl rfl) ?_
    exact .inr (.inr (.inr (.inr (.inr ⟨by omega, by omega, rfl, rfl⟩))))

/-- An entry of the poison table is kept by notes, and stands while the notes leave it. -/
theorem hubKept_poison (k : Nat) {f : Fld} (j : Nat) (hj : j < 256) (hf : f.base = 0x8002000 ∧ f.stride = 8 ∧ (f.lo + f.wd ≤ 30 ∨ 31 ≤ f.lo)) :
    HubKept k ((f.die k).ix j) := by
  refine .inr ⟨0x2000 + 8 * j, poison_ix_base f k j hf.1 hf.2.1, .inr (.inr (.inr (.inr ⟨by omega, by omega, ?_⟩)))⟩
  rw [ix_lo, ix_wd, die_lo, die_wd]
  exact hf.2.2

theorem poisonIs_congr {s t : State} {k j : Nat} (hj : j < 256) (h : ∀ f, HubKept k f → t.fget f = s.fget f) (stack g : Nat) :
    t.poisonIs k stack g j = s.poisonIs k stack g j := by
  unfold State.poisonIs State.fbit
  rw [h _ (hubKept_poison k j hj (by decide)), h _ (hubKept_poison k j hj (by decide)), h _ (hubKept_poison k j hj (by decide))]

theorem find?_range'_congr {p q : Nat → Bool} {n : Nat} (h : ∀ j, j < n → p j = q j) :
    (range' 0 n).find? p = (range' 0 n).find? q := by
  refine List.find?_congr (fun j hj => h j ?_)
  have := (mem_range' _ _ _).1 hj
  omega

theorem HubNotes.poisonAt {s t : State} {stack : Nat} (h : HubNotes (HubKept (stack / 4)) s t) (hi : Inv s) (g : Nat) :
    t.poisonAt stack g = s.poisonAt stack g :=
  find?_range'_congr (fun _ hj => poisonIs_congr hj (h.flds hi) stack g)

theorem poisonAt_isSome {s : State} {stack g : Nat} : (s.poisonAt stack g).isSome = true ↔
    ∃ j, j < 256 ∧ s.poisonIs (stack / 4) stack g j = true := by
  unfold State.poisonAt
  rw [List.find?_isSome]
  exact exists_congr (fun j => and_congr_left' ((mem_range' _ _ _).trans (by omega)))

/-! ### A granule enters the poison table (R341) -/

/-- The entry that a granule takes. -/
def poisonSet (s : State) (stack g j : Nat) : State :=
  (s.fsetAll [((HUB_POISON_GRANULE.die (stack / 4)).ix j, g), ((HUB_POISON_STACK.die (stack / 4)).ix j, stack % 4),
    ((HUB_POISON_PERSISTENT.die (stack / 4)).ix j, 0), ((HUB_POISON_VALID.die (stack / 4)).ix j, 1)]).fset
    (HUB_POISON_PTR_COUNT.die (stack / 4)) (s.fget (HUB_POISON_PTR_COUNT.die (stack / 4)) + 1)

theorem poisonAdd_cases (s : State) (stack g : Nat) :
    ((s.poisonAt stack g).isSome = true ∧ s.poisonAdd stack g = s) ∨
    ((s.poisonAt stack g).isSome = false ∧ s.poisonAdd stack g = s.classC (8 + stack / 4) (HUB_STS_POISON_FULL.die (stack / 4))) ∨
    ((s.poisonAt stack g).isSome = false ∧ ∃ j, j < 256 ∧ s.fbit ((HUB_POISON_VALID.die (stack / 4)).ix j) = false ∧
      s.poisonAdd stack g = poisonSet s stack g j) := by
  unfold State.poisonAdd
  dsimp only
  cases hp : (s.poisonAt stack g).isSome
  · refine .inr ?_
    rw [if_neg (by decide)]
    split
    · exact .inl ⟨rfl, rfl⟩
    next j hj =>
      refine .inr ⟨rfl, j, ?_, ?_, rfl⟩
      · have := (mem_range' _ _ _).1 (List.mem_of_find?_eq_some hj)
        omega
      · simpa using List.find?_some hj
  · exact .inl ⟨rfl, if_pos rfl⟩

end Sys2Proof.Laws
end

section
/-! PROOFS. The poison table, what corrections and failures count, and overruns (R337, R338, R340, R341). -/

namespace Sys2Proof.Laws

open Sys2Proof.Machine Sys2Proof.Safety

/-! ### Kept fields by name -/

theorem hubKept_sts (k : Nat) {f : Fld} (hf : f.base = 0x8000000 ∧ (f.lo + f.wd ≤ 3 ∨ (4 ≤ f.lo ∧ f.lo + f.wd ≤ 6) ∨ 9 ≤ f.lo)) :
    HubKept k (f.die k) :=
  .inr ⟨0, die_hubAt k (by omega), .inl ⟨rfl, by rw [die_lo, die_wd]; exact hf.2⟩⟩

theorem hubCounted_sts (k : Nat) {f : Fld} (hf : f.base = 0x8000000 ∧ (f.lo + f.wd ≤ 3 ∨ f.lo = 5 ∧ f.wd = 1 ∨ 9 ≤ f.lo)) :
    HubCounted k (f.die k) := by
  refine ⟨hubKept_sts k ⟨hf.1, by omega⟩, ?_, fun _ => by rw [die_lo, die_wd]; omega⟩
  rintro ⟨off, hb, ho⟩
  rw [die_hubAt (off := 0) k (by omega)] at hb
  unfold hubAt at hb
  omega

/-- The scrub cursor and the counters of a hub. -/
theorem hubCounted_cnt (k : Nat) {f : Fld} (hf : f.base = 0x8000028 ∨ f.base = 0x8000038 ∧ f.lo + f.wd ≤ 56) : HubCounted k (f.die k) := by
  have hb : ∃ off, (f.die k).base = hubAt k off ∧ (off = 0x28 ∨ off = 0x38 ∧ f.lo + f.wd ≤ 56) := by
    rcases hf with h | ⟨h, hw⟩
    · exact ⟨0x28, die_hubAt k (by omega), .inl rfl⟩
    · exact ⟨0x38, die_hubAt k (by omega), .inr ⟨rfl, hw⟩⟩
  obtain ⟨off, hb, ho⟩ := hb
  refine ⟨.inr ⟨off, hb, by rw [die_lo, die_wd]; omega⟩, ?_, fun e => ?_⟩
  · rintro ⟨off', hb', ho'⟩
    rw [hb] at hb'
    unfold hubAt at hb'
    omega
  · rw [hb] at e
    unfold hubAt at e
    omega

/-- The ECC counters of a channel. -/
theorem hubCounted_chan {f : Fld} (stack g : Nat) (hf : f.base = 0x8001000 ∧ f.stride = 8) : HubCounted (stack / 4) (chanFld f stack g) := by
  have hch : granCh g < 32 := Nat.mod_lt _ (by decide)
  have hb : (chanFld f stack g).base = hubAt (stack / 4) (0x1000 + 8 * (32 * (stack % 4) + granCh g)) :=
    chanFld_base (by omega) hf.2
  refine ⟨.inr ⟨_, hb, by omega⟩, ?_, fun e => ?_⟩
  · rintro ⟨off', hb', ho'⟩
    rw [hb] at hb'
    unfold hubAt at hb'
    omega
  · rw [hb] at e
    unfold hubAt at e
    omega

theorem hubCounted_low (k : Nat) {f : Fld} (hf : f.base < 0x8000000 ∧ f.base ∉ noteRegs) : HubCounted k f := by
  refine ⟨.inl hf, ?_, fun e => ?_⟩
  · rintro ⟨off, hb, -⟩
    unfold hubAt at hb
    omega
  · unfold hubAt at e
    omega

/-! ### A fault of class B and a count -/

/-- The kept fields beside one that is written. -/
abbrev But (K : Fld → Prop) (f : Fld) (g : Fld) : Prop := K g ∧ apart f g = true

section
variable {K : Fld → Prop} (s : State) (f : Fld) (hw : f.lo + f.wd ≤ 64)
include hw

theorem hubNotes_fadd (n : Nat) : HubNotes (But K f) s (s.fadd f n) :=
  .of_beside (beside_fadd s f n ⟨hw, fun _ h => h.2⟩) (by decide)

theorem hubNotes_classBSts (hn : ∀ g, K g → g.base ∉ noteRegs) (p : Nat) : HubNotes (But K f) s (s.classBSts p f) :=
  .of_beside (beside_classBSts s (fun g h => hn g h.1) p f ⟨hw, fun _ h => h.2⟩) (by decide)

end

theorem hubNotes_emit {K : Fld → Prop} (s : State) (o : Out) : HubNotes K s (s.emit o) := .of_beside (beside_emit s o) (by decide)

/-! ### The poison table -/

/-- A granule is in the poison table, or the full table is noted. -/
def Poisoned (stack g : Nat) (t : State) : Prop :=
  (t.poisonAt stack g).isSome = true ∨ t.fbit (HUB_STS_POISON_FULL.die (stack / 4)) = true

theorem poisoned_of {s t : State} {stack g : Nat} (h : ∀ f, HubKept (stack / 4) f → (f.lo + f.wd ≤ 3 → f.base ≠ hubAt (stack / 4) 0) →
    t.fget f = s.fget f) (hp : Poisoned stack g s) : Poisoned stack g t := by
  have hpois : ∀ {f : Fld} (j : Nat), j < 256 → f.base = 0x8002000 ∧ f.stride = 8 ∧ (f.lo + f.wd ≤ 30 ∨ 31 ≤ f.lo) →
      t.fget ((f.die (stack / 4)).ix j) = s.fget ((f.die (stack / 4)).ix j) := fun {f} j hj hf =>
    h _ (hubKept_poison _ j hj hf) (fun _ e => by
      rw [poison_ix_base f _ j hf.1 hf.2.1] at e
      unfold hubAt at e
      omega)
  rcases hp with hp | hp
  · obtain ⟨j, hj, hi⟩ := poisonAt_isSome.1 hp
    refine .inl (poisonAt_isSome.2 ⟨j, hj, ?_⟩)
    unfold State.poisonIs State.fbit at hi ⊢
    rwa [hpois j hj (by decide), hpois j hj (by decide), hpois j hj (by decide)]
  · refine .inr ?_
    unfold State.fbit at hp ⊢
    rwa [h _ (hubKept_sts _ (by decide)) (fun e => absurd e (by rw [die_lo, die_wd]; decide))]

theorem poisonSet_fld {f : Fld} (stack j : Nat) (hf : f.base = 0x8002000 ∧ f.stride = 8 ∧ f.lo + f.wd ≤ 64) :
    ApartFrom (HubCounted (stack / 4)) ((f.die (stack / 4)).ix j) := by
  refine ⟨by rw [ix_lo, ix_wd, die_lo, die_wd]; exact hf.2.2, fun g hg => apart_of_base (fun e => ?_)⟩
  rw [poison_ix_base f _ j hf.1 hf.2.1] at e
  exact hg.2.1 ⟨_, e, by omega⟩

theorem poisonPtr_apart (k : Nat) : ApartFrom (HubKept k) (HUB_POISON_PTR_COUNT.die k) := by
  refine ⟨by rw [die_lo, die_wd]; decide, fun g hg => apart_of_base (fun e => ?_)⟩
  rw [die_hubAt (off := 0x30) k (by decide)] at e
  rcases hg with ⟨h, -⟩ | ⟨off, h, ho⟩
  · rw [e] at h
    unfold hubAt at h
    omega
  · rw [e] at h
    unfold hubAt at h
    omega

theorem hubNotes_poisonSet (s : State) (stack g j : Nat) : HubNotes (HubCounted (stack / 4)) s (poisonSet s stack g j) := by
  refine (HubNotes.of_beside (beside_fsetAll s _ ?_) (by decide)).next (.of_beside (beside_fset _ _ _
    ⟨(poisonPtr_apart _).1, fun g hg => (poisonPtr_apart _).2 g hg.1⟩) (by decide))
  simp only [List.forall_mem_cons]
  exact ⟨poisonSet_fld _ _ (by decide), poisonSet_fld _ _ (by decide), poisonSet_fld _ _ (by decide), poisonSet_fld _ _ (by decide),
    fun _ h => nomatch h⟩

/-- Fields of one register, whatever its copy, that share no bits. -/
theorem fieldsApart_ix {l : List Fld} (hw : ∀ f ∈ l, f.lo + f.wd ≤ 64) (hp : l.Pairwise (fun f g => f.lo + f.wd ≤ g.lo ∨ g.lo + g.wd ≤ f.lo))
    (k j : Nat) : FieldsApart (l.map (fun f => (f.die k).ix j)) := by
  refine ⟨fun f hf => ?_, hp.map _ (fun f g h => ?_)⟩
  · obtain ⟨g, hg, rfl⟩ := List.mem_map.1 hf
    rw [ix_lo, ix_wd, die_lo, die_wd]
    exact hw g hg
  · simp only [apart, Bool.or_eq_true, decide_eq_true_eq, ix_lo, ix_wd, die_lo, die_wd]
    exact h.elim .inr (fun h => .inl (.inr h))

theorem poisonSet_is {s : State} (hr : tabWf resetOf s.regs = true) (stack : Nat) {g : Nat} (hg : g < 2 ^ 28) (j : Nat) :
    (poisonSet s stack g j).poisonIs (stack / 4) stack g j = true := by
  have hap : FieldsApart ([HUB_POISON_GRANULE, HUB_POISON_STACK, HUB_POISON_PERSISTENT, HUB_POISON_VALID].map
      (fun f => (f.die (stack / 4)).ix j)) := fieldsApart_ix (by decide) (by decide) _ j
  have hget : ∀ {f : Fld} {x : Nat}, (f, x) ∈ [((HUB_POISON_GRANULE.die (stack / 4)).ix j, g),
      ((HUB_POISON_STACK.die (stack / 4)).ix j, stack % 4), ((HUB_POISON_PERSISTENT.die (stack / 4)).ix j, 0),
      ((HUB_POISON_VALID.die (stack / 4)).ix j, 1)] → (∃ i, f.base = hubAt (stack / 4) (0x2000 + 8 * i)) →
      (poisonSet s stack g j).fget f = x % 2 ^ f.wd := fun {f x} hm ⟨i, hb⟩ => by
    refine (fget_fset_base _ _ _ _ (fun e => ?_)).trans (fget_fsetAll_mem _ s hr hap hm)
    rw [hb, die_hubAt (off := 0x30) _ (by decide)] at e
    unfold hubAt at e
    omega
  have hv := hget (f := (HUB_POISON_VALID.die (stack / 4)).ix j) (x := 1) (by simp) ⟨j, poison_ix_base _ _ j rfl rfl⟩
  have hgr := hget (f := (HUB_POISON_GRANULE.die (stack / 4)).ix j) (x := g) (by simp) ⟨j, poison_ix_base _ _ j rfl rfl⟩
  have hst := hget (f := (HUB_POISON_STACK.die (stack / 4)).ix j) (x := stack % 4) (by simp) ⟨j, poison_ix_base _ _ j rfl rfl⟩
  rw [ix_wd, die_wd] at hv hgr hst
  unfold State.poisonIs State.fbit
  rw [hv, hgr, hst, show HUB_POISON_GRANULE.wd = 28 from rfl, show HUB_POISON_STACK.wd = 2 from rfl, Nat.mod_eq_of_lt hg,
    Nat.mod_eq_of_lt (by omega : stack % 4 < 2 ^ 2)]
  simp [show HUB_POISON_VALID.wd = 1 from rfl]

theorem hubNotes_poisonAdd (s : State) {stack : Nat} (hs : stack < 16) (g : Nat) : HubNotes (HubCounted (stack / 4)) s (s.poisonAdd stack g) := by
  rcases poisonAdd_cases s stack g with ⟨-, h⟩ | ⟨-, h⟩ | ⟨-, j, -, -, h⟩
  · rw [h]
    exact .refl _ s
  · rw [h]
    refine .of_beside (beside_classC s (fun g hg => hubKept_not_note hg.1) (8 + stack / 4) _ ⟨by rw [die_lo, die_wd]; decide, fun g hg => ?_⟩
      (fun g hg => hubKept_not_page (by omega) hg.1)) (by decide)
    by_cases e : g.base = hubAt (stack / 4) 0
    · have := hg.2.2 e
      simp only [apart, Bool.or_eq_true, decide_eq_true_eq]
      have e1 : (HUB_STS_POISON_FULL.die (stack / 4)).lo = 4 := rfl
      have e2 : (HUB_STS_POISON_FULL.die (stack / 4)).wd = 1 := rfl
      omega
    · exact apart_of_base (by rw [die_hubAt (off := 0) _ (by decide)]; exact e)
  · rw [h]
    exact hubNotes_poisonSet s stack g j

theorem poisonAdd_poisoned {s : State} (hi : Inv s) {stack : Nat} (hk : stack / 4 < 20) {g : Nat} (hg : g < 2 ^ 28) : Poisoned stack g (s.poisonAdd stack g) := by
  rcases poisonAdd_cases s stack g with ⟨hp, h⟩ | ⟨-, h⟩ | ⟨-, j, hj, -, h⟩
  · rw [h]
    exact .inl hp
  · rw [h]
    refine .inr (fbit_of_fget (fget_classCWith s _ _ 5 0 hi.1.1 (by rw [die_lo, die_wd]; decide) (by rw [die_wd]; decide) ?_ ?_))
    · exact hubKept_not_note (hubKept_sts _ (by decide))
    · exact hubKept_not_page hk (hubKept_sts _ (by decide))
  · rw [h]
    exact .inl (poisonAt_isSome.2 ⟨j, hj, poisonSet_is hi.1.1 stack hg j⟩)

end Sys2Proof.Laws
end

section
/-! PROOFS. HUB_READ (R334, R336 to R342). -/

namespace Sys2Proof.Laws

open Sys2Proof.Machine Sys2Proof.Safety

/-! ### What corrections and failures count (R340, R365) -/

theorem counts_zero (f : Fld) (s : State) : Counts f 0 s s := by
  have := fget_lt s f
  unfold Counts
  omega

theorem counts_fadd {s : State} (hi : Inv s) (f : Fld) (n : Nat) (hw : f.lo + f.wd ≤ 64) : Counts f n s (s.fadd f n) :=
  fget_fadd_same s f n hi.1.1 hw

theorem chanFld_width {f : Fld} (stack g : Nat) (h : f.lo + f.wd ≤ 64) : (chanFld f stack g).lo + (chanFld f stack g).wd ≤ 64 := by
  rw [chanFld_lo, chanFld_wd]
  exact h

section
variable (s : State) {stack : Nat} (hs : stack < 16) (g : Nat)
include hs

theorem eccFailed_notes (ue : Bool) (lane : Option Nat) :
    HubNotes (But (HubKept (stack / 4)) (chanFld HUB_ECC_UNCORRECTABLE stack g)) s (s.eccFailed stack g ue lane) := by
  unfold State.eccFailed
  refine HubNotes.next ?_ ((hubNotes_laneError _ hs g lane).weaken (fun _ h => h.1))
  exact .ite (hubNotes_fadd s _ (chanFld_width stack g (by decide)) 1) (.refl _ s)

theorem eccFailed_counts (hi : Inv s) (ue : Bool) (lane : Option Nat) :
    Counts (chanFld HUB_ECC_UNCORRECTABLE stack g) ue.toNat s (s.eccFailed stack g ue lane) := by
  have hk := (hubCounted_chan (f := HUB_ECC_UNCORRECTABLE) stack g (by decide)).1
  unfold State.eccFailed
  cases ue
  · exact (hubNotes_laneError s hs g lane).toBeside.after_counts hi hk (counts_zero _ s)
  · exact (hubNotes_laneError _ hs g lane).toBeside.after_counts ((fadd_keeps _ _ _ (.refl s)).inv hi) hk
      (counts_fadd hi _ 1 (chanFld_width stack g (by decide)))

/-- A correction counted and attributed to its lane. -/
abbrev corrCounted (words : Nat) (lane : Option Nat) : State := (s.fadd (chanFld HUB_ECC_CORRECTED stack g) words).laneError stack g lane

theorem corrCounted_notes (words : Nat) (lane : Option Nat) :
    HubNotes (But (HubKept (stack / 4)) (chanFld HUB_ECC_CORRECTED stack g)) s (corrCounted s g (stack := stack) words lane) :=
  (hubNotes_fadd s _ (chanFld_width stack g (by decide)) words).next ((hubNotes_laneError _ hs g lane).weaken (fun _ h => h.1))

theorem corrCounted_counts (hi : Inv s) (words : Nat) (lane : Option Nat) :
    Counts (chanFld HUB_ECC_CORRECTED stack g) words s (corrCounted s g (stack := stack) words lane) :=
  (hubNotes_laneError _ hs g lane).toBeside.after_counts ((fadd_keeps _ _ _ (.refl s)).inv hi)
    (hubCounted_chan (f := HUB_ECC_CORRECTED) stack g (by decide)).1 (counts_fadd hi _ words (chanFld_width stack g (by decide)))

omit hs in
/-- What becomes of a correction once it is counted: it is queued, or was queued, or the full queue is noted. -/
theorem eccCorrected_cases (words : Nat) (lane : Option Nat) (queue : Bool) (t : State) (ht : t = corrCounted s g (stack := stack) words lane) :
    ((queue = false ∨ (stack, g) ∈ t.hub.corrQ) ∧ s.eccCorrected stack g words lane queue = t) ∨
    s.eccCorrected stack g words lane queue = t.withHub (fun h => { h with corrQ := h.corrQ ++ [(stack, g)] }) ∨
    s.eccCorrected stack g words lane queue = t.setSts (8 + stack / 4) (HUB_STS_CQ_OVERFLOW.die (stack / 4)) := by
  subst ht
  unfold State.eccCorrected
  dsimp only
  split
  next h => exact .inl ⟨by simpa using h, rfl⟩
  · split
    · exact .inr (.inl rfl)
    · exact .inr (.inr rfl)

/-- What a correction leaves: all but its count and the correction queue. -/
theorem eccCorrected_beside (words : Nat) (lane : Option Nat) (queue : Bool) :
    Beside (But (HubKept (stack / 4)) (chanFld HUB_ECC_CORRECTED stack g)) hubParts s (s.eccCorrected stack g words lane queue) ∧
      (s.eccCorrected stack g words lane queue).hub.retry = s.hub.retry ∧ (s.eccCorrected stack g words lane queue).hub.scrubQ = s.hub.scrubQ := by
  have hn := corrCounted_notes s hs g words lane
  rcases eccCorrected_cases s g words lane queue _ rfl with ⟨-, h⟩ | h | h
  · rw [h]
    exact ⟨hn.toBeside, hn.queues.retry, hn.queues.scrubQ⟩
  · rw [h]
    exact ⟨hn.toBeside.then (beside_withHub _ _) (by decide), hn.queues.retry, hn.queues.scrubQ⟩
  · rw [h]
    have h2 := (hubNotes_setSts (corrCounted s g (stack := stack) words lane) (k := stack / 4) HUB_STS_CQ_OVERFLOW (by decide)).weaken
      (L := But (HubKept (stack / 4)) (chanFld HUB_ECC_CORRECTED stack g)) (fun _ h => h.1)
    exact ⟨(hn.next h2).toBeside, (hn.next h2).queues.retry, (hn.next h2).queues.scrubQ⟩

theorem eccCorrected_counts (hi : Inv s) (words : Nat) (lane : Option Nat) (queue : Bool) :
    Counts (chanFld HUB_ECC_CORRECTED stack g) words s (s.eccCorrected stack g words lane queue) := by
  have hc := corrCounted_counts s hs g hi words lane
  rcases eccCorrected_cases s g words lane queue _ rfl with ⟨-, h⟩ | h | h
  · rwa [h]
  · rw [h]
    exact hc
  · rw [h]
    exact (hubNotes_setSts (corrCounted s g (stack := stack) words lane) (k := stack / 4) HUB_STS_CQ_OVERFLOW (by decide)).toBeside.after_counts
      ((corrCounted_notes s hs g words lane).keeps.inv hi) (hubCounted_chan (f := HUB_ECC_CORRECTED) stack g (by decide)).1 hc

theorem eccCorrected_queued (hi : Inv s) (words : Nat) (lane : Option Nat) :
    (stack, g) ∈ (s.eccCorrected stack g words lane true).hub.corrQ ∨
      (s.eccCorrected stack g words lane true).fbit (HUB_STS_CQ_OVERFLOW.die (stack / 4)) = true := by
  rcases eccCorrected_cases s g words lane true _ rfl with ⟨hq, h⟩ | h | h
  · rw [h]
    exact .inl (hq.resolve_left (by decide))
  · rw [h]
    exact .inl (List.mem_append_right _ (.head _))
  · rw [h]
    exact .inr (fbit_setSts _ _ _ ((corrCounted_notes s hs g words lane).keeps.inv hi).1.1 (by rw [die_lo, die_wd]; decide) (by rw [die_wd]; decide))

omit hs in
theorem eccCorrected_onlyParts (words : Nat) (queue : Bool) : OnlyParts [.regs, .hub, .outbox] s (s.eccCorrected stack g words none queue) := by
  have h1 : OnlyParts [.regs, .hub, .outbox] s (corrCounted s g (stack := stack) words none) := (fadd_onlyParts s _ _).mono (by decide)
  rcases eccCorrected_cases s g words none queue _ rfl with ⟨-, h⟩ | h | h
  · rwa [h]
  · rw [h]
    exact h1.then (withHub_onlyParts _ _) (by decide)
  · rw [h]
    exact h1.then (setSts_onlyParts _ _ _) (by decide)

end

/-! ### What is delivered -/

/-- What a delivered read sends. -/
def deliverOut (s : State) (stack g c : Nat) (a : Attempt) : Out :=
  .msg "HUB_DELIVER" [stack, g, c + 484, (attData a (s.granule stack g)).toNat, s.readPort stack g c]

theorem readPort_congr {s t : State} (hi : t.image = s.image) (he : t.edgeAt = s.edgeAt)
    (hm : t.fget HULL_ORCH_MODULE = s.fget HULL_ORCH_MODULE) (hp : t.fget TICK_PLAN_CUR = s.fget TICK_PLAN_CUR) (stack g c : Nat) :
    t.readPort stack g c = s.readPort stack g c := by
  unfold State.readPort State.stackSched
  rw [hi, he, hm, hp]

/-- Hub notes leave what a read delivers. -/
theorem deliverOut_notes {K : Fld → Prop} {s t : State} (h : HubNotes K s t) (hi : Inv s) (hk : K HULL_ORCH_MODULE ∧ K TICK_PLAN_CUR)
    (stack g c : Nat) (a : Attempt) : deliverOut t stack g c a = deliverOut s stack g c a := by
  have himage : t.image = s.image := image_congr (congrArg JobRun.ctx (h.parts .job (by decide))) (h.parts .ctxs (by decide))
  unfold deliverOut State.granule
  rw [rdGranule_congr (h.parts .mem (by decide)), readPort_congr himage (h.parts .edgeAt (by decide)) (h.flds hi _ hk.1) (h.flds hi _ hk.2)]

end Sys2Proof.Laws
end

section
/-! PROOFS. Overruns, poisoned reads and HUB_READ (R334, R336 to R342). -/

namespace Sys2Proof.Laws

open Sys2Proof.Machine Sys2Proof.Safety

/-! ### Status bits of a hub die -/

section
variable (s : State) {k : Nat} {f : Fld} (hf : f.base = 0x8000000 ∧ f.lo < 3 ∧ f.wd = 1)
include hf

theorem hubSts_classBSts (hi : Inv s) : (s.classBSts (8 + k) (f.die k)).fbit (f.die k) = true :=
  fbit_classBSts _ _ _ hi.1.1 (by rw [die_lo, die_wd]; omega) (by rw [die_wd]; omega)
    (hubKept_not_note (hubKept_sts k (f := f) (by omega)))

/-- A class B status of a hub leaves the other kept fields. -/
theorem hubNotes_stsB : HubNotes (But (HubKept k) (f.die k)) s (s.classBSts (8 + k) (f.die k)) :=
  hubNotes_classBSts s (f.die k) (by rw [die_lo, die_wd]; omega) (fun _ => hubKept_not_note) (8 + k)

theorem apart_stsB {g : Fld} (hg : g.base = hubAt k 0 → f.lo + f.wd ≤ g.lo) : apart (f.die k) g = true := by
  by_cases e : g.base = hubAt k 0
  · have := hg e
    simp only [apart, Bool.or_eq_true, decide_eq_true_eq, die_lo, die_wd]
    omega
  · exact apart_of_base (by rw [die_hubAt (off := 0) _ (by omega)]; exact e)

theorem poisoned_stsB {stack g : Nat} (hi : Inv s) (hk : k = stack / 4) (hp : Poisoned stack g s) :
    Poisoned stack g (s.classBSts (8 + k) (f.die k)) := by
  subst hk
  refine poisoned_of (fun y hy hb => (hubNotes_stsB s hf).flds hi y ⟨hy, apart_stsB hf (fun e => ?_)⟩) hp
  have hlo : ¬ (y.lo + y.wd ≤ 3) := fun h => hb h e
  rcases hy with ⟨h, -⟩ | ⟨off, h, ho⟩
  · rw [e] at h
    unfold hubAt at h
    omega
  · rw [e] at h
    unfold hubAt at h
    omega

end

theorem poisoned_notes {s t : State} {stack g : Nat} (h : HubNotes (HubKept (stack / 4)) s t) (hi : Inv s) (hp : Poisoned stack g s) :
    Poisoned stack g t := poisoned_of (fun f hf _ => h.flds hi f hf) hp

theorem poisoned_regs {s t : State} {stack g : Nat} (h : t.regs = s.regs) (hp : Poisoned stack g s) : Poisoned stack g t :=
  poisoned_of (fun f _ _ => fget_congr h f) hp

/-! ### A counter of a hub die -/

/-- The counters of accesses (R365). -/
abbrev hubCnt (f : Fld) : Prop := f.base = 0x8000038 ∧ f.lo + f.wd ≤ 56

section
variable {s : State} (hi : Inv s) {k : Nat} {f : Fld} (hf : hubCnt f)
include hi hf

theorem hubCnt_counts (n : Nat) : Counts (f.die k) n s (s.fadd (f.die k) n) :=
  counts_fadd hi _ n (by rw [die_lo, die_wd]; omega)

end

theorem hubNotes_cnt (s : State) {k : Nat} {f : Fld} (hf : hubCnt f) (n : Nat) :
    HubNotes (But (HubKept k) (f.die k)) s (s.fadd (f.die k) n) := hubNotes_fadd s _ (by rw [die_lo, die_wd]; omega) n

/-- A counter and a status bit lie apart. -/
theorem apart_cnt_sts {f b : Fld} (k : Nat) (hf : hubCnt f) (hb : b.base = 0x8000000) : apart (b.die k) (f.die k) = true := by
  refine apart_of_base (fun e => ?_)
  have := (die_base_inj _ _ k).1 e
  omega

/-! ### Overruns (R337, R338, R341) -/

/-- The fields that an overrun leaves. -/
abbrev OverrunKept (k : Nat) (b : Fld) : Fld → Prop := But (But (HubCounted k) (HUB_CNT_OVERRUNS.die k)) (b.die k)

section
variable (s : State) {stack : Nat} (hs : stack < 16) (g c : Nat) (a : Attempt)

/-- The poison that an overrun of a read leaves. -/
def overrunPoisoned (s : State) (stack g : Nat) (ue : Bool) : State := if ue then (s.poisonAdd stack g).poisonHit stack g else s

include hs

theorem overrunPoisoned_notes (ue : Bool) : HubNotes (HubCounted (stack / 4)) s (overrunPoisoned s stack g ue) := by
  refine .ite ?_ (.refl _ s)
  exact (hubNotes_poisonAdd s hs g).next ((hubNotes_poisonHit _ hs g).weaken (fun _ h => h.1))

theorem overrunPoisoned_poisoned (hi : Inv s) (hg : g < 201326592) : Poisoned stack g (overrunPoisoned s stack g true) :=
  poisoned_notes (hubNotes_poisonHit _ hs g) ((hubNotes_poisonAdd s hs g).keeps.inv hi) (poisonAdd_poisoned hi (by omega) (by omega))

/-- What an overrun of a read notes before it delivers. -/
abbrev readOverrunNoted (s : State) (stack g : Nat) (ue : Bool) : State :=
  ((overrunPoisoned (s.fadd (HUB_CNT_OVERRUNS.die (stack / 4)) 1) stack g ue).hubFirst stack g 0).classBSts (8 + stack / 4)
    (HUB_STS_RETRY_OVERRUN.die (stack / 4))

omit hs in
theorem readOverrun_eq : s.readOverrun stack g c a =
    (readOverrunNoted s stack g (attUe a)).emit (deliverOut (readOverrunNoted s stack g (attUe a)) stack g c a) := rfl

theorem readOverrun_before (ue : Bool) : HubNotes (HubCounted (stack / 4)) (s.fadd (HUB_CNT_OVERRUNS.die (stack / 4)) 1)
    ((overrunPoisoned (s.fadd (HUB_CNT_OVERRUNS.die (stack / 4)) 1) stack g ue).hubFirst stack g 0) :=
  (overrunPoisoned_notes _ hs g ue).next ((hubNotes_hubFirst _ stack g 0).weaken (fun _ h => h.1))

theorem readOverrunNoted_notes (ue : Bool) : HubNotes (OverrunKept (stack / 4) HUB_STS_RETRY_OVERRUN) s (readOverrunNoted s stack g ue) :=
  (((hubNotes_cnt s (f := HUB_CNT_OVERRUNS) (by decide) 1).weaken (fun _ h => ⟨h.1.1.1, h.1.2⟩)).next
    ((readOverrun_before s hs g ue).weaken (fun _ h => h.1.1))).next
    ((hubNotes_stsB _ (f := HUB_STS_RETRY_OVERRUN) (by decide)).weaken (fun _ h => ⟨h.1.1.1, h.2⟩))

/-- What an overrun of a read comes to. -/
structure ReadOverruns (stack g c : Nat) (a : Attempt) (s t : State) : Prop where
  notes : HubNotes (OverrunKept (stack / 4) HUB_STS_RETRY_OVERRUN) s t
  out : deliverOut s stack g c a ∈ t.outbox
  counts : Counts (HUB_CNT_OVERRUNS.die (stack / 4)) 1 s t
  sts : t.fbit (HUB_STS_RETRY_OVERRUN.die (stack / 4)) = true
  raises : RaisesB s t
  poisoned : attUe a = true → Poisoned stack g t

omit hs in
theorem overrunKept_plan (k : Nat) (b : Fld) (hb : b.base = 0x8000000) : OverrunKept k b HULL_ORCH_MODULE ∧ OverrunKept k b TICK_PLAN_CUR := by
  have h : ∀ f : Fld, f.base < 0x8000000 ∧ f.base ∉ noteRegs → OverrunKept k b f := fun f hf =>
    ⟨⟨hubCounted_low k hf, apart_of_base (by rw [die_base, show HUB_CNT_OVERRUNS.base = 0x8000038 from rfl]; omega)⟩,
      apart_of_base (by rw [die_base]; omega)⟩
  exact ⟨h _ (by decide), h _ (by decide)⟩

theorem readOverrun_overruns (hi : Inv s) (hg : g < 201326592) : ReadOverruns stack g c a s (s.readOverrun stack g c a) := by
  have h0 : Inv (s.fadd (HUB_CNT_OVERRUNS.die (stack / 4)) 1) := (fadd_keeps _ _ _ (.refl s)).inv hi
  have hb := readOverrun_before s hs g (attUe a)
  have hbi := hb.keeps.inv h0
  have hn := readOverrunNoted_notes s hs g (attUe a)
  have hsts := hubNotes_stsB ((overrunPoisoned (s.fadd (HUB_CNT_OVERRUNS.die (stack / 4)) 1) stack g (attUe a)).hubFirst stack g 0)
    (k := stack / 4) (f := HUB_STS_RETRY_OVERRUN) (by decide)
  rw [readOverrun_eq]
  refine ⟨hn.next (hubNotes_emit _ _), ?_, ?_, ?_, ?_, fun hue => ?_⟩
  · rw [deliverOut_notes hn hi (overrunKept_plan _ _ (by decide))]
    exact List.mem_append_right _ (.head _)
  · exact hsts.toBeside.after_counts hbi ⟨(hubCounted_cnt _ (by decide)).1, apart_cnt_sts _ (by decide) rfl⟩
      (hb.toBeside.after_counts h0 (hubCounted_cnt _ (by decide)) (hubCnt_counts hi (by decide) 1))
  · exact hubSts_classBSts _ (f := HUB_STS_RETRY_OVERRUN) (by decide) hbi
  · exact ((TickMarks.of_run rfl).trans hb.marks).then_raisesB (classBSts_raisesB _ _ _)
  · have hp : Poisoned stack g (overrunPoisoned (s.fadd (HUB_CNT_OVERRUNS.die (stack / 4)) 1) stack g (attUe a)) := by
      rw [hue]
      exact overrunPoisoned_poisoned _ hs g h0 hg
    have h1 := (overrunPoisoned_notes (s.fadd (HUB_CNT_OVERRUNS.die (stack / 4)) 1) hs g (attUe a)).keeps.inv h0
    exact poisoned_stsB _ (f := HUB_STS_RETRY_OVERRUN) (by decide) hbi rfl (poisoned_notes (hubNotes_hubFirst _ stack g 0) h1 hp)

end

end Sys2Proof.Laws
end

section
/-! PROOFS. HUB_READ (R334, R336 to R342). -/

namespace Sys2Proof.Laws

open Sys2Proof.Machine Sys2Proof.Safety

section
variable {s : State} {at_ stack g : Nat} {a : Attempt}

/-- A scheduled read on its cycle. -/
def readNow (s : State) (stack g c : Nat) (a : Attempt) : State :=
  if (s.poisonAt stack g).isSome then
    let s1 := (s.fadd (HUB_CNT_POISON_READS.die (stack / 4)) 1).poisonHit stack g
    ((s1.classBSts (8 + stack / 4) (HUB_STS_POISON_READ.die (stack / 4))).hubFirst stack g 2).deliver stack g c
      (attData a (s1.granule stack g))
  else if attFails a then (s.eccFailed stack g (attUe a) a.lane).claimRetry stack g c none a
  else s.readData stack g c a

theorem exec_hubRead (hrun : s.power.halt = .no) (hactive : s.run.active = true) (hstack : stack < 16) (hg : g < 201326592)
    (hs : Settled s (s.mclkAt at_)) : exec (.hubRead at_ stack g a) s = .next (readNow (s.advance (s.mclkAt at_)) stack g (s.mclkAt at_) a) := by
  have hok : granOk stack g = true := by simp [granOk, stackGranules, hstack, hg]
  change execHubRead at_ stack g a s = _
  simp only [execHubRead, hok, State.live, State.runs, hrun, hactive, if_true, State.hubRead, upTo_settled _ _ hs, readNow]

/-- The retry slot of an access's window is taken. -/
def retryTaken (s : State) (stack g c : Nat) : Bool :=
  s.hub.retry.any (fun r => r.stack == stack && r.pch == granPch g && r.window == (c + 48 - s.edgeAt) / 128)

/-- The claim of a retry slot. -/
def retryClaim (s : State) (stack g c : Nat) (write : Option Granule) : RetryEnt :=
  { stack := stack, pch := granPch g, window := (c + 48 - s.edgeAt) / 128, granule := g, issued := c, write := write }

theorem retryTaken_notes {K : Fld → Prop} {s t : State} (h : HubNotes K s t) (stack g c : Nat) :
    retryTaken t stack g c = retryTaken s stack g c := by
  unfold retryTaken
  rw [h.queues.retry, h.parts .edgeAt (by decide)]

theorem claimRetry_free {c : Nat} {write : Option Granule} (h : retryTaken s stack g c = false) :
    s.claimRetry stack g c write a = s.withHub (fun h => { h with retry := h.retry ++ [retryClaim s stack g c write] }) :=
  if_neg (fun e => absurd (h.symm.trans e) (by decide))

theorem claimRetry_taken_read {c : Nat} (h : retryTaken s stack g c = true) :
    s.claimRetry stack g c none a = s.readOverrun stack g c a := if_pos h

/-- What is read of a granule that is not poisoned, and passes its check. -/
theorem readData_eq (c : Nat) : s.readData stack g c a =
    (if attCorrected a == 0 then s else s.eccCorrected stack g (attCorrected a) a.lane true).emit
      (deliverOut (if attCorrected a == 0 then s else s.eccCorrected stack g (attCorrected a) a.lane true) stack g c a) := rfl

end

section
variable {s : State} (hi : Inv s) {stack : Nat} (hs : stack < 16) {g c : Nat} {a : Attempt}
include hi hs

omit hs in
theorem deliverOut_beside {K : Fld → Prop} {t : State} (h : Beside K hubParts s t) (hk : K HULL_ORCH_MODULE ∧ K TICK_PLAN_CUR) :
    deliverOut t stack g c a = deliverOut s stack g c a := by
  have himage : t.image = s.image := image_congr (congrArg JobRun.ctx (h.parts .job (by decide))) (h.parts .ctxs (by decide))
  unfold deliverOut State.granule
  rw [rdGranule_congr (h.parts .mem (by decide)), readPort_congr himage (h.parts .edgeAt (by decide)) (h.flds hi _ hk.1) (h.flds hi _ hk.2)]

omit hi hs in
/-- A read that corrects nothing only delivers. -/
theorem readData_clean (h : attCorrected a = 0) : s.readData stack g c a = s.emit (deliverOut s stack g c a) := by
  rw [readData_eq, h]
  rfl

omit hi hs in
theorem hubCounted_butChan {f : Fld} (h8 : f.stride = 8) (hc : f.base = 0x8001000) {y : Fld}
    (hy : y.base < 0x8000000 ∧ y.base ∉ noteRegs) : But (HubKept (stack / 4)) (chanFld f stack g) y := by
  refine ⟨.inl hy, apart_of_base ?_⟩
  rw [chanFld_base (off := 0x1000) (by omega) h8]
  unfold hubAt
  omega

/-- A read that corrects. -/
structure ReadCorrected (stack g c : Nat) (a : Attempt) (s t : State) : Prop where
  out : deliverOut s stack g c a ∈ t.outbox
  counts : Counts (chanFld HUB_ECC_CORRECTED stack g) (attCorrected a) s t
  queued : (stack, g) ∈ t.hub.corrQ ∨ t.fbit (HUB_STS_CQ_OVERFLOW.die (stack / 4)) = true
  beside : Beside (But (HubKept (stack / 4)) (chanFld HUB_ECC_CORRECTED stack g)) hubParts s t
  parts : a.lane = none → OnlyParts [.regs, .hub, .outbox] s t

theorem readData_corrected (h : attCorrected a ≠ 0) : ReadCorrected stack g c a s (s.readData stack g c a) := by
  have hb := (eccCorrected_beside s hs g (attCorrected a) a.lane true).1
  have hq := eccCorrected_queued s hs g hi (attCorrected a) a.lane
  rw [readData_eq, if_neg (by simpa using h)]
  refine ⟨?_, eccCorrected_counts s hs g hi _ _ _, hq, hb.then (beside_emit _ _) (by decide), fun hl => ?_⟩
  · rw [deliverOut_beside hi hb ⟨hubCounted_butChan rfl rfl (by decide), hubCounted_butChan rfl rfl (by decide)⟩]
    exact List.mem_append_right _ (.head _)
  · rw [hl]
    exact (eccCorrected_onlyParts s g (attCorrected a) true).then (beside_emit (K := HubKept 0) _ _).parts (by decide)

/-- A read that fails its check: counted, then its retry slot claimed or an overrun. -/
structure ReadFailed (stack g c : Nat) (a : Attempt) (s t : State) : Prop where
  counts : Counts (chanFld HUB_ECC_UNCORRECTABLE stack g) (attUe a).toNat s t
  free : retryTaken s stack g c = false → t.hub.retry = s.hub.retry ++ [retryClaim s stack g c none] ∧
    (a.lane = none → attUe a = false → OnlyParts [.hub] s t)
  taken : retryTaken s stack g c = true → deliverOut s stack g c a ∈ t.outbox ∧ Counts (HUB_CNT_OVERRUNS.die (stack / 4)) 1 s t ∧
    t.fbit (HUB_STS_RETRY_OVERRUN.die (stack / 4)) = true ∧ RaisesB s t ∧ (attUe a = true → Poisoned stack g t)
  parts : OnlyParts hubParts s t

omit hi hs in
theorem chan_apart_counter (f : Fld) (hf : f.base = 0x8001000 ∧ f.stride = 8) (b : Fld) (hb : b.base = 0x8000000 ∨ b.base = 0x8000038) :
    apart (b.die (stack / 4)) (chanFld f stack g) = true := by
  refine apart_of_base ?_
  rw [chanFld_base (off := 0x1000) (by omega) hf.2, die_base]
  unfold hubAt
  omega

theorem readFailed (hg : g < 201326592) : ReadFailed stack g c a s ((s.eccFailed stack g (attUe a) a.lane).claimRetry stack g c none a) := by
  have hn := eccFailed_notes s hs g (attUe a) a.lane
  have hc := eccFailed_counts s hs g hi (attUe a) a.lane
  have hplain : a.lane = none → attUe a = false → s.eccFailed stack g (attUe a) a.lane = s := fun h1 h2 => by
    rw [h1, h2]
    rfl
  have ht := retryTaken_notes hn stack g c
  have hclaim : retryClaim (s.eccFailed stack g (attUe a) a.lane) stack g c none = retryClaim s stack g c none := by
    unfold retryClaim
    rw [hn.parts .edgeAt (by decide)]
  have hiu := hn.keeps.inv hi
  generalize s.eccFailed stack g (attUe a) a.lane = u at hn hc hplain ht hclaim hiu ⊢
  cases hk : retryTaken s stack g c
  · rw [hk] at ht
    rw [claimRetry_free ht, hclaim]
    refine ⟨hc, fun _ => ⟨?_, fun h1 h2 => ?_⟩, fun e => absurd (hk.symm.trans e) (by decide), hn.parts.then (withHub_onlyParts _ _) (by decide)⟩
    · exact congrArg (· ++ [retryClaim s stack g c none]) hn.queues.retry
    · rw [hplain h1 h2]
      exact withHub_onlyParts s _
  · rw [hk] at ht
    rw [claimRetry_taken_read ht]
    have ho := readOverrun_overruns u hs g c a hiu hg
    refine ⟨?_, fun e => absurd (hk.symm.trans e) (by decide), fun _ => ⟨?_, ?_, ho.sts, hn.marks.then_raisesB ho.raises, ho.poisoned⟩,
      hn.parts.trans ho.notes.parts⟩
    · exact ho.notes.toBeside.after_counts hiu ⟨⟨hubCounted_chan stack g (by decide), chan_apart_counter _ (by decide) _ (.inr rfl)⟩,
        chan_apart_counter _ (by decide) _ (.inl rfl)⟩ hc
    · rw [← deliverOut_notes hn hi ⟨hubCounted_butChan rfl rfl (by decide), hubCounted_butChan rfl rfl (by decide)⟩]
      exact ho.out
    · exact hn.toBeside.then_counts hi ⟨(hubCounted_cnt _ (by decide)).1, by
        rw [apart_comm]
        exact chan_apart_counter _ (by decide) _ (.inr rfl)⟩ ho.counts

/-- A poisoned granule is delivered, and is a fault of class B (R342). -/
structure ReadPoisoned (stack g c : Nat) (a : Attempt) (s t : State) : Prop where
  out : deliverOut s stack g c a ∈ t.outbox
  retry : t.hub.retry = s.hub.retry
  counts : Counts (HUB_CNT_POISON_READS.die (stack / 4)) 1 s t
  sts : t.fbit (HUB_STS_POISON_READ.die (stack / 4)) = true
  raises : RaisesB s t
  parts : OnlyParts hubParts s t

theorem readPoisoned (hp : (s.poisonAt stack g).isSome = true) : ReadPoisoned stack g c a s (readNow s stack g c a) := by
  have h1 := hubNotes_cnt s (k := stack / 4) (f := HUB_CNT_POISON_READS) (by decide) 1
  have hc1 := hubCnt_counts hi (k := stack / 4) (f := HUB_CNT_POISON_READS) (by decide) 1
  unfold readNow
  rw [if_pos hp]
  dsimp only
  generalize s.fadd (HUB_CNT_POISON_READS.die (stack / 4)) 1 = s1 at h1 hc1 ⊢
  have hi1 := h1.keeps.inv hi
  have h2 := hubNotes_poisonHit s1 hs g
  have hi2 := h2.keeps.inv hi1
  have h3 := hubNotes_stsB (s1.poisonHit stack g) (k := stack / 4) (f := HUB_STS_POISON_READ) (by decide)
  have hb3 := hubSts_classBSts (s1.poisonHit stack g) (k := stack / 4) (f := HUB_STS_POISON_READ) (by decide) hi2
  have hr3 := classBSts_raisesB (s1.poisonHit stack g) (8 + stack / 4) (HUB_STS_POISON_READ.die (stack / 4))
  have hc3 := h3.toBeside.after_counts hi2 ⟨(hubCounted_cnt _ (by decide)).1, apart_cnt_sts _ (by decide) rfl⟩
    (h2.toBeside.after_counts hi1 (hubCounted_cnt _ (by decide)).1 hc1)
  have hi3 := h3.keeps.inv hi2
  have hm3 : HubNotes (But (But (HubKept (stack / 4)) (HUB_CNT_POISON_READS.die (stack / 4))) (HUB_STS_POISON_READ.die (stack / 4))) s
      ((s1.poisonHit stack g).classBSts (8 + stack / 4) (HUB_STS_POISON_READ.die (stack / 4))) :=
    ((h1.weaken (fun _ h => h.1)).next (h2.weaken (fun _ h => h.1.1))).next (h3.weaken (fun _ h => ⟨h.1.1, h.2⟩))
  generalize (s1.poisonHit stack g).classBSts (8 + stack / 4) (HUB_STS_POISON_READ.die (stack / 4)) = s3 at h3 hb3 hr3 hc3 hi3 hm3 ⊢
  have h4 := hubNotes_hubFirst s3 stack g 2
  have hm4 := hm3.next (h4.weaken (fun _ h => h.1.1))
  have hgran : (s1.poisonHit stack g).granule stack g = (s3.hubFirst stack g 2).granule stack g :=
    (rdGranule_congr (Eq.trans (h4.parts .mem (by decide)) (h3.parts .mem (by decide))) _).symm
  have hout : (s3.hubFirst stack g 2).deliver stack g c (attData a ((s1.poisonHit stack g).granule stack g)) =
      (s3.hubFirst stack g 2).emit (deliverOut (s3.hubFirst stack g 2) stack g c a) := by
    rw [hgran]
    rfl
  have hlow : ∀ f : Fld, f.base < 0x8000000 ∧ f.base ∉ noteRegs →
      But (But (HubKept (stack / 4)) (HUB_CNT_POISON_READS.die (stack / 4))) (HUB_STS_POISON_READ.die (stack / 4)) f := fun f hf =>
    ⟨⟨.inl hf, apart_of_base (by rw [die_base, show HUB_CNT_POISON_READS.base = 0x8000038 from rfl]; omega)⟩,
      apart_of_base (by rw [die_base, show HUB_STS_POISON_READ.base = 0x8000000 from rfl]; omega)⟩
  rw [hout, deliverOut_notes hm4 hi ⟨hlow _ (by decide), hlow _ (by decide)⟩]
  refine ⟨List.mem_append_right _ (.head _), hm4.queues.retry, h4.toBeside.after_counts hi3 (hubCounted_cnt _ (by decide)).1 hc3,
    h4.toBeside.fbit hi3 (hubKept_sts _ (by decide)) hb3, ?_, (hm4.next (hubNotes_emit _ _)).parts⟩
  exact h4.marks.after_raisesB hm3.marks.sent ((h1.marks.trans h2.marks).then_raisesB hr3)

end

/-- Settles O31: a read delivers what its attempt read, or claims its retry slot, or overruns. -/
theorem hubReadsDeliverOnTheirCycle : Obligations.HubReadsDeliverOnTheirCycle := by
  intro s at_ stack g a hawake hactive hstack hg hsettled c k out window taken
  obtain ⟨hrun, hi⟩ := hawake
  have hiu : Inv (s.advance c) := hi
  have hnow : OnlyParts [.now] s (s.advance c) := advance_onlyParts s c
  have hhub : ∀ {t : State}, OnlyParts hubParts (s.advance c) t → t.now = max s.now c ∧ t.mem = s.mem := fun h =>
    ⟨h .now (by decide), h .mem (by decide)⟩
  have hout : deliverOut (s.advance c) stack g c a = out := by
    have hg : (s.advance c).granule stack g = s.rdGranule (granuleAddr stack g) := rdGranule_congr (s := s) (t := s.advance c) rfl _
    rw [granuleAddr] at hg
    have hp : (s.advance c).readPort stack g c = s.readPort stack g c := readPort_congr rfl rfl rfl rfl stack g c
    unfold deliverOut
    rw [hg, hp]
  refine ⟨_, exec_hubRead hrun hactive hstack hg hsettled, ?_⟩
  cases hp : s.poisonAt stack g with
  | some j =>
    have hr := readPoisoned (s := s.advance c) (c := c) (a := a) hiu hstack (g := g) (congrArg Option.isSome hp)
    exact ⟨(hhub hr.parts).1, (hhub hr.parts).2, fun e => (nomatch e), fun _ => ⟨hout ▸ hr.out, hr.retry, hr.counts, hr.sts, hr.raises⟩⟩
  | none =>
    have hpu : ¬ (((s.advance c).poisonAt stack g).isSome = true) := by
      rw [show (s.advance c).poisonAt stack g = none from hp]
      decide
    unfold readNow
    rw [if_neg hpu]
    cases hf : attFails a
    · rw [if_neg (by decide)]
      by_cases hc : attCorrected a = 0
      · rw [readData_clean hc, hout]
        refine ⟨rfl, rfl, fun _ => ⟨fun _ => ⟨List.mem_append_right _ (.head _), fun _ => ⟨rfl, ?_⟩, fun h => absurd hc h⟩,
          fun e => absurd e (by decide)⟩, fun e => absurd e (by decide)⟩
        exact (hnow.mono (by decide)).then (beside_emit (K := HubKept 0) _ _).parts (by decide)
      · have hr := readData_corrected (s := s.advance c) (c := c) hiu hstack (g := g) hc
        refine ⟨(hhub hr.beside.parts).1, (hhub hr.beside.parts).2, fun _ => ⟨fun _ => ⟨hout ▸ hr.out, fun h => absurd h hc, fun _ =>
          ⟨hr.counts, hr.queued, fun hl => (hnow.mono (by decide)).then (hr.parts hl) (by decide)⟩⟩, fun e => absurd e (by decide)⟩,
          fun e => absurd e (by decide)⟩
    · rw [if_pos rfl]
      have hr := readFailed (s := s.advance c) (c := c) (a := a) hiu hstack hg
      refine ⟨(hhub hr.parts).1, (hhub hr.parts).2, fun _ => ⟨fun e => absurd e (by decide), fun _ => ⟨hr.counts, fun ht => ?_, hout ▸ hr.taken⟩⟩,
        fun e => absurd e (by decide)⟩
      obtain ⟨h1, h2⟩ := hr.free ht
      exact ⟨h1, fun hl hu => (hnow.mono (by decide)).then (h2 hl hu) (by decide)⟩

end Sys2Proof.Laws
end

section
/-! PROOFS. Writes to HBM, their overruns and repeats (R326, R335 to R338, R341, R345). -/

namespace Sys2Proof.Laws

open Sys2Proof.Machine Sys2Proof.Safety

/-! ### A granule leaves the poison table (R341) -/

theorem beside_regPut {K : Fld → Prop} (s : State) (k : Nat) (v : Word64) (h : ∀ g, K g → g.base ≠ k) : Beside K [.regs] s (s.regPut k v) := by
  refine ⟨fun p hp => ?_, regPut_keeps k v (.refl s), fun _ g hg => ?_, .of_run rfl, .of_parts (ps := [.regs]) (fun p hp => ?_) (by decide)⟩
  · cases p <;> simp [Part.Same] at hp ⊢
  · unfold State.fget
    rw [regGet_regPut_ne s k _ v (h g hg)]
  · cases p <;> simp [Part.Same] at hp ⊢

theorem hubNotes_poisonDrop (s : State) (stack g : Nat) : HubNotes (HubCounted (stack / 4)) s (s.poisonDrop stack g) := by
  unfold State.poisonDrop
  dsimp only
  split
  · exact .refl _ s
  · refine ((HubNotes.of_beside (beside_regPut s _ 0 (fun f hf e => ?_)) (by decide)).next (.of_hub _ ⟨rfl, rfl, rfl, rfl⟩)).next
      (.of_beside (beside_fset _ _ _ ⟨(poisonPtr_apart _).1, fun f hf => (poisonPtr_apart _).2 f hf.1⟩) (by decide))
    rw [poison_ix_base HUB_POISON _ _ rfl rfl] at e
    exact hf.2.1 ⟨_, e, by omega⟩

/-- A granule that was not in the table leaves nothing behind. -/
theorem poisonDrop_absent {s : State} {stack g : Nat} (h : s.poisonAt stack g = none) : s.poisonDrop stack g = s := by
  unfold State.poisonDrop
  rw [h]

theorem poisonAt_regs {s t : State} (h : t.regs = s.regs) (stack g : Nat) : t.poisonAt stack g = s.poisonAt stack g :=
  find?_range'_congr (fun _ hj => poisonIs_congr hj (fun f _ => fget_congr h f) stack g)

theorem wrGranule_onlyParts (s : State) (a : Nat) (d : Granule) : OnlyParts [.mem] s (s.wrGranule a d) := by
  rw [wrGranule_other]
  intro p hp
  cases p <;> simp [Part.Same] at hp ⊢

/-- What a store of a granule leaves. -/
structure Stored (stack g : Nat) (s t : State) : Prop where
  beside : Beside (HubCounted (stack / 4)) (.mem :: hubParts) s t
  queues : SameQueues s t
  bytes : OnlyBytes (granuleAddr stack g) 256 s t

theorem hubStore_stored (s : State) (stack g : Nat) (d : Granule) : Stored stack g s (s.hubStore stack g d) := by
  refine ⟨?_, ?_, (hubStore_chunkWritten s stack g d).bytes⟩ <;> unfold State.hubStore <;> split
  · exact .refl _ _ s
  · exact ((Beside.of_parts (wrGranule_onlyParts s _ d) (wrGranule_keeps s _ d (.refl s)) (by decide)).mono (by decide) (fun _ => id)).then
      (hubNotes_poisonDrop _ stack g).toBeside (by decide)
  · exact .of_hub rfl
  · exact (SameQueues.of_hub (wrGranule_onlyParts s _ d .hub (by decide))).trans (hubNotes_poisonDrop _ stack g).queues

/-! ### Overruns of writes (R337, R338, R341) -/

/-- What an overrun of a write comes to. -/
structure WriteOverruns (stack g : Nat) (s t : State) : Prop where
  queues : SameQueues s t
  counts : Counts (HUB_CNT_OVERRUNS.die (stack / 4)) 1 s t
  sts : t.fbit (HUB_STS_WRITE_OVERRUN.die (stack / 4)) = true
  raises : RaisesB s t
  poisoned : Poisoned stack g t
  bytes : OnlyBytes (granuleAddr stack g) 256 s t
  parts : OnlyParts (.mem :: .fresh :: hubParts) s t

/-- What an overrun of a write notes. -/
abbrev writeOverrunNoted (s : State) (stack g : Nat) : State :=
  ((s.fadd (HUB_CNT_OVERRUNS.die (stack / 4)) 1).hubFirst stack g 1).classBSts (8 + stack / 4) (HUB_STS_WRITE_OVERRUN.die (stack / 4))

theorem granuleLost_onlyParts (s : State) (stack g : Nat) : OnlyParts [.mem, .fresh] s (s.granuleLost stack g) := by
  have h : OnlyParts [.fresh] (s.wrGranule (granuleAddr stack g) (BitVec.ofNat 2048 s.freeVal)) (s.granuleLost stack g) := by
    intro p hp
    cases p <;> simp [Part.Same, State.granuleLost, State.drawn] at hp ⊢
  exact ((wrGranule_onlyParts s _ _).mono (by decide)).then h (by decide)

theorem granuleLost_onlyBytes (s : State) (stack g : Nat) : OnlyBytes (granuleAddr stack g) 256 s (s.granuleLost stack g) := by
  have h : OnlyBytes (granuleAddr stack g) 256 s (s.wrGranule (granuleAddr stack g) (BitVec.ofNat 2048 s.freeVal)) :=
    fun b hb => rd8_wrGranule_out s _ b _ hb
  generalize hw : s.wrGranule (granuleAddr stack g) (BitVec.ofNat 2048 s.freeVal) = w at h
  unfold State.granuleLost
  rw [hw]
  exact h.trans (.of_mem _ _ rfl)

theorem writeOverrun_overruns {s : State} (hi : Inv s) {stack g : Nat} (hs : stack < 16) (hg : g < 201326592) :
    WriteOverruns stack g s (s.writeOverrun stack g) := by
  have h1 := hubNotes_cnt s (k := stack / 4) (f := HUB_CNT_OVERRUNS) (by decide) 1
  have hc1 := hubCnt_counts hi (k := stack / 4) (f := HUB_CNT_OVERRUNS) (by decide) 1
  have hi1 := h1.keeps.inv hi
  have h2 := hubNotes_hubFirst (s.fadd (HUB_CNT_OVERRUNS.die (stack / 4)) 1) stack g 1
  have hi2 := h2.keeps.inv hi1
  have h3 := hubNotes_stsB ((s.fadd (HUB_CNT_OVERRUNS.die (stack / 4)) 1).hubFirst stack g 1) (k := stack / 4) (f := HUB_STS_WRITE_OVERRUN)
    (by decide)
  have hb3 := hubSts_classBSts ((s.fadd (HUB_CNT_OVERRUNS.die (stack / 4)) 1).hubFirst stack g 1) (k := stack / 4) (f := HUB_STS_WRITE_OVERRUN)
    (by decide) hi2
  have hr3 := classBSts_raisesB ((s.fadd (HUB_CNT_OVERRUNS.die (stack / 4)) 1).hubFirst stack g 1) (8 + stack / 4)
    (HUB_STS_WRITE_OVERRUN.die (stack / 4))
  have hi3 := h3.keeps.inv hi2
  have hc3 := h3.toBeside.after_counts hi2 ⟨(hubCounted_cnt _ (by decide)).1, apart_cnt_sts _ (by decide) rfl⟩
    (h2.toBeside.after_counts hi1 (hubCounted_cnt _ (by decide)).1 hc1)
  have h4 := hubNotes_poisonAdd (writeOverrunNoted s stack g) hs g
  have hp4 : Poisoned stack g ((writeOverrunNoted s stack g).poisonAdd stack g) := poisonAdd_poisoned hi3 (by omega) (by omega)
  have hl := granuleLost_onlyParts ((writeOverrunNoted s stack g).poisonAdd stack g) stack g
  have hparts := ((h1.parts.trans h2.parts).trans h3.parts).trans h4.parts
  have hreg : ∀ f, (s.writeOverrun stack g).fget f = ((writeOverrunNoted s stack g).poisonAdd stack g).fget f := fun f =>
    fget_congr (hl .regs (by decide)) f
  refine ⟨(((h1.queues.trans h2.queues).trans h3.queues).trans h4.queues).trans (.of_hub (hl .hub (by decide))),
    (hreg _).trans (h4.toBeside.after_counts hi3 (hubCounted_cnt _ (by decide)) hc3),
    (congrArg (fun x => x != 0) (hreg _)).trans (h4.toBeside.fbit hi3 (hubCounted_sts _ (by decide)) hb3), ?_,
    poisoned_regs (hl .regs (by decide)) hp4, ?_, (hparts.mono (by decide)).then hl (by decide)⟩
  · exact (h4.marks.trans (.of_run (hl .run (by decide)))).after_raisesB ((h1.marks.trans h2.marks).trans h3.marks).sent
      ((h1.marks.trans h2.marks).then_raisesB hr3)
  · exact (OnlyBytes.of_mem _ _ (hparts .mem (by decide))).trans (granuleLost_onlyBytes _ stack g)

end Sys2Proof.Laws
end

section
/-! PROOFS. HUB_WRITE, HUB_RETRY and a write that lands (R326, R335 to R338, R341, R345). -/

namespace Sys2Proof.Laws

open Sys2Proof.Machine Sys2Proof.Safety

/-! ### HUB_WRITE -/

section
variable {s : State} {at_ stack g : Nat} {data : Granule} {a : Attempt}

/-- A scheduled write on its cycle. -/
def writeNow (s : State) (stack g c : Nat) (data : Granule) (a : Attempt) : State :=
  if a.parity then ((s.unqueue stack g).eccFailed stack g false a.lane).claimRetry stack g c (some data) a
  else ((s.unqueue stack g).withHub (fun h => { h with writes := h.writes ++ [⟨stack, g, c + 256, data⟩] })).wrote (granuleAddr stack g) 256 (c + 256)

theorem exec_hubWrite (hrun : s.power.halt = .no) (hactive : s.run.active = true) (hstack : stack < 16) (hg : g < 201326592)
    (hs : Settled s (s.mclkAt at_)) :
    exec (.hubWrite at_ stack g data a) s = .next (writeNow (s.advance (s.mclkAt at_)) stack g (s.mclkAt at_) data a) := by
  have hok : granOk stack g = true := by simp [granOk, stackGranules, hstack, hg]
  change execHubWrite at_ stack g data a s = _
  simp only [execHubWrite, hok, State.live, State.runs, hrun, hactive, if_true, State.hubWrite, upTo_settled _ _ hs, writeNow]

theorem claimRetry_taken_write {c : Nat} (h : retryTaken s stack g c = true) :
    s.claimRetry stack g c (some data) a = s.writeOverrun stack g := (if_pos h).trans (if_pos rfl)

theorem unqueue_onlyParts (s : State) (stack g : Nat) : OnlyParts [.hub] s (s.unqueue stack g) := withHub_onlyParts s _

theorem eccFailed_plain (lane : Option Nat) (h : lane = none) : s.eccFailed stack g false lane = s := by
  rw [h]
  rfl

/-- A write whose parity fails: its retry slot claimed, or an overrun. -/
structure WriteFailed (stack g c : Nat) (data : Granule) (a : Attempt) (s t : State) : Prop where
  corrQ : t.hub.corrQ = s.hub.corrQ
  scrubQ : t.hub.scrubQ = s.hub.scrubQ
  free : retryTaken s stack g c = false → t.hub.retry = s.hub.retry ++ [retryClaim s stack g c (some data)] ∧ t.mem = s.mem ∧
    (a.lane = none → OnlyParts [.hub] s t)
  taken : retryTaken s stack g c = true → Counts (HUB_CNT_OVERRUNS.die (stack / 4)) 1 s t ∧
    t.fbit (HUB_STS_WRITE_OVERRUN.die (stack / 4)) = true ∧ RaisesB s t ∧ Poisoned stack g t ∧ OnlyBytes (granuleAddr stack g) 256 s t
  now : t.now = s.now

theorem writeFailed (hi : Inv s) (hs : stack < 16) (hg : g < 201326592) (c : Nat) :
    WriteFailed stack g c data a s ((s.eccFailed stack g false a.lane).claimRetry stack g c (some data) a) := by
  have hn := eccFailed_notes s hs g false a.lane
  have hplain : a.lane = none → s.eccFailed stack g false a.lane = s := eccFailed_plain a.lane
  have ht := retryTaken_notes hn stack g c
  have hclaim : retryClaim (s.eccFailed stack g false a.lane) stack g c (some data) = retryClaim s stack g c (some data) := by
    unfold retryClaim
    rw [hn.parts .edgeAt (by decide)]
  have hiu := hn.keeps.inv hi
  generalize s.eccFailed stack g false a.lane = u at hn hplain ht hclaim hiu ⊢
  cases hk : retryTaken s stack g c
  · rw [hk] at ht
    rw [claimRetry_free ht, hclaim]
    refine ⟨hn.queues.corrQ, hn.queues.scrubQ, fun _ => ⟨?_, hn.parts .mem (by decide), fun h1 => ?_⟩, fun e => absurd (hk.symm.trans e) (by decide),
      hn.parts .now (by decide)⟩
    · exact congrArg (· ++ [retryClaim s stack g c (some data)]) hn.queues.retry
    · rw [hplain h1]
      exact withHub_onlyParts s _
  · rw [hk] at ht
    rw [claimRetry_taken_write ht]
    have ho := writeOverrun_overruns hiu hs hg
    refine ⟨ho.queues.corrQ.trans hn.queues.corrQ, ho.queues.scrubQ.trans hn.queues.scrubQ, fun e => absurd (hk.symm.trans e) (by decide),
      fun _ => ⟨?_, ho.sts, hn.marks.then_raisesB ho.raises, ho.poisoned, (OnlyBytes.of_mem _ _ (hn.parts .mem (by decide))).trans ho.bytes⟩, Eq.trans (ho.parts .now (by decide)) (hn.parts .now (by decide))⟩
    exact hn.toBeside.then_counts hi ⟨(hubCounted_cnt _ (by decide)).1, by
      rw [apart_comm]
      exact chan_apart_counter _ (by decide) _ (.inr rfl)⟩ ho.counts

end

/-! ### HUB_RETRY -/

section
variable {s : State} {stack g : Nat} {a : Attempt}

/-- The access whose repeat an attempt is. -/
abbrev retryOf (s : State) (stack g : Nat) : Option RetryEnt := s.hub.retry.find? (fun r => r.stack == stack && r.granule == g && !r.served)

/-- The retry slot is served. -/
def retryServed (s : State) (r : RetryEnt) : State :=
  s.withHub (fun h => { h with retry := h.retry.map (fun x => if x == r then { x with served := true } else x) })

/-- A repeat that succeeds is counted, class A. -/
abbrev retryGood (s : State) (stack : Nat) : State := (s.fadd (HUB_CNT_RETRIES.die (stack / 4)) 1).classA

theorem exec_hubRetry_none (hrun : s.power.halt = .no) (hr : retryOf s stack g = none) : exec (.hubRetry stack g a) s = .next s := by
  change execHubRetry stack g a s = _
  have h : s.hubRetry stack g a = s := by
    unfold State.hubRetry
    rw [show s.hub.retry.find? (fun r => r.stack == stack && r.granule == g && !r.served) = none from hr]
  simp only [execHubRetry, State.live, State.runs, hrun, if_true, h, ite_self]

theorem exec_hubRetry_write (hrun : s.power.halt = .no) (hactive : s.run.active = true) {r : RetryEnt} (hr : retryOf s stack g = some r)
    {d : Granule} (hw : r.write = some d) (hs : Settled s (r.issued + 256)) : exec (.hubRetry stack g a) s =
      .next (if a.parity then (((retryServed s r).advance (r.issued + 256)).laneError stack g a.lane).writeOverrun stack g
        else ((retryGood ((retryServed s r).advance (r.issued + 256)) stack).hubStore stack g d).wrote (granuleAddr stack g) 256 (r.issued + 256)) := by
  have hup : (retryServed s r).upTo (r.issued + 256) = (retryServed s r).advance (r.issued + 256) := upTo_settled _ _ hs
  rw [← hup]
  change execHubRetry stack g a s = _
  simp only [execHubRetry, State.live, State.runs, hrun, hactive, if_true, State.hubRetry, hr, hw]
  rfl

theorem exec_hubRetry_read (hrun : s.power.halt = .no) (hactive : s.run.active = true) {r : RetryEnt} (hr : retryOf s stack g = some r)
    (hw : r.write = none) (hs : Settled s (r.issued + 424)) : exec (.hubRetry stack g a) s =
      .next (if attFails a then (((retryServed s r).advance (r.issued + 424)).laneError stack g a.lane).readOverrun stack g r.issued a
        else (retryGood ((retryServed s r).advance (r.issued + 424)) stack).readData stack g r.issued a) := by
  have hup : (retryServed s r).upTo (r.issued + 424) = (retryServed s r).advance (r.issued + 424) := upTo_settled _ _ hs
  rw [← hup]
  change execHubRetry stack g a s = _
  simp only [execHubRetry, State.live, State.runs, hrun, hactive, if_true, State.hubRetry, hr, hw]
  rfl

theorem retryServed_onlyParts (s : State) (r : RetryEnt) : OnlyParts [.hub] s (retryServed s r) := withHub_onlyParts s _

theorem retryGood_notes (s : State) (stack : Nat) : HubNotes (But (HubKept (stack / 4)) (HUB_CNT_RETRIES.die (stack / 4))) s (retryGood s stack) :=
  (hubNotes_cnt s (f := HUB_CNT_RETRIES) (by decide) 1).next (.of_beside (beside_capFault _ (fun _ h => hubKept_not_note h.1) 0) (by decide))

theorem retryGood_counts (hi : Inv s) : Counts (HUB_CNT_RETRIES.die (stack / 4)) 1 s (retryGood s stack) :=
  (beside_capFault (K := HubKept (stack / 4)) (s.fadd (HUB_CNT_RETRIES.die (stack / 4)) 1) (fun _ => hubKept_not_note) 0).after_counts
    ((fadd_keeps _ _ _ (.refl s)).inv hi) (hubCounted_cnt _ (by decide)).1 (hubCnt_counts hi (by decide) 1)

/-- What a read that passes its check leaves and delivers. -/
theorem readData_delivers (hi : Inv s) (hs : stack < 16) (c : Nat) :
    Beside (But (HubKept (stack / 4)) (chanFld HUB_ECC_CORRECTED stack g)) hubParts s (s.readData stack g c a) ∧
      deliverOut s stack g c a ∈ (s.readData stack g c a).outbox := by
  by_cases hc : attCorrected a = 0
  · rw [readData_clean hc]
    exact ⟨(beside_emit s _).mono (by decide) (fun _ => id), List.mem_append_right _ (.head _)⟩
  · have h := readData_corrected (s := s) (c := c) hi hs (g := g) hc
    exact ⟨h.beside, h.out⟩

end

end Sys2Proof.Laws
end

section
/-! PROOFS. A write lands (R335), and what HUB_WRITE and HUB_RETRY come to. -/

namespace Sys2Proof.Safety

open Sys2Proof.Machine Sys2Proof.Laws

theorem OnlyParts.bytes {ps : List Part} {s t : State} (h : OnlyParts ps s t) (hm : .mem ∉ ps) (a n : Nat) : OnlyBytes a n s t :=
  .of_mem a n (h .mem hm)

end Sys2Proof.Safety

namespace Sys2Proof.Laws

open Sys2Proof.Machine Sys2Proof.Safety

/-! ### A write lands -/

/-- The registers of the poison tables, and of their counts. -/
def poisonKey (k : Nat) : Prop := k % 0x1000000 = 0x30 ∨ (0x2000 ≤ k % 0x1000000 ∧ k % 0x1000000 < 0x2800)

theorem poisonKey_linkKeys : ∀ k ∈ linkKeys, ¬ poisonKey k := by
  have h : ∀ k ∈ linkKeys, k % 0x1000000 < 0x2000 ∧ k % 0x1000000 ≠ 0x30 := by decide
  intro k hk
  obtain ⟨h1, h2⟩ := h k hk
  rintro (h3 | ⟨h3, -⟩)
  · exact h2 h3
  · omega

theorem hubAt_mod (k : Nat) {off : Nat} (h : off < 0x1000000) : hubAt k off % 0x1000000 = off := by
  unfold hubAt
  omega

theorem poisonDrop_regs (s : State) (stack g : Nat) : RegsWithin poisonKey s (s.poisonDrop stack g) := by
  unfold State.poisonDrop
  dsimp only
  split
  · exact .refl _ s
  next j hj =>
    have hlt := poisonAt_lt hj
    have hput : RegsWithin poisonKey s (s.regPut ((HUB_POISON.die (stack / 4)).ix j).base 0) := fun k hk =>
      regGet_regPut_ne s _ k _ (fun e => hk (by
        rw [e, poison_ix_base HUB_POISON _ _ rfl rfl]
        refine .inr ?_
        rw [hubAt_mod _ (by omega)]
        omega))
    refine (hput.trans (.of_parts (withHub_onlyParts _ _) (by decide))).trans (.of_only (only_fset (ks := [_]) _ _ _ (.head _)) (fun k hk => ?_))
    rw [List.mem_singleton.1 hk, die_hubAt (off := 0x30) _ (by decide)]
    exact .inl (hubAt_mod _ (by decide))

theorem poisonDrop_onlyParts (s : State) (stack g : Nat) : OnlyParts [.regs, .hub] s (s.poisonDrop stack g) := by
  unfold State.poisonDrop
  dsimp only
  split
  · exact .refl _ s
  · intro p hp
    cases p <;> simp [Part.Same] at hp ⊢

theorem hubStore_onlyParts (s : State) (stack g : Nat) (d : Granule) : OnlyParts [.regs, .mem, .hub] s (s.hubStore stack g d) :=
  .ite (.refl _ s) (((wrGranule_onlyParts s _ d).mono (by decide)).then (poisonDrop_onlyParts _ stack g) (by decide))

theorem hubStore_regs (s : State) (stack g : Nat) (d : Granule) : RegsWithin poisonKey s (s.hubStore stack g d) :=
  .ite (.refl _ s) ((RegsWithin.of_parts (wrGranule_onlyParts s _ d) (by decide)).trans (poisonDrop_regs _ stack g))

/-- The writes on their way, but one. -/
def landed (s : State) (w : HubWrite) : State := s.withHub (fun h => { h with writes := h.writes.filter (fun x => x != w) })

theorem landWrite_eq (s : State) (w : HubWrite) : s.landWrite w = (landed s w).hubStore w.stack w.granule w.data := rfl

theorem landWrite_writes (s : State) (w : HubWrite) : (s.landWrite w).hub.writes = s.hub.writes.filter (fun x => x != w) :=
  (hubStore_stored (landed s w) w.stack w.granule w.data).queues.writes

theorem landWrite_onlyParts (s : State) (w : HubWrite) : OnlyParts [.regs, .mem, .hub] s (s.landWrite w) :=
  ((withHub_onlyParts s _).mono (by decide)).trans (hubStore_onlyParts (landed s w) _ _ _)

theorem duesAmong_landWrite (s : State) (w : HubWrite) : DuesAmong s (s.landWrite w) := by
  have hp := landWrite_onlyParts s w
  have hregs : RegsWithin poisonKey s (s.landWrite w) :=
    (RegsWithin.of_parts (withHub_onlyParts s _) (by decide)).trans (hubStore_regs (landed s w) _ _ _)
  have ht : (s.landWrite w).tiles = s.tiles := hp .tiles (by decide)
  have hv : (s.landWrite w).solver = s.solver := hp .solver (by decide)
  exact {
    flights := by rw [ht]; exact fun _ => id
    tags := opTagAt_congr (by rw [ht]) (by rw [ht])
    jobs := by rw [hv]; exact fun _ => id
    carries := by rw [hv]; exact fun _ => id
    writes := by
      rw [landWrite_writes]
      exact fun _ m => (List.mem_filter.1 m).1
    links := by
      rw [linkDues_congr (hp .links (by decide)) ⟨hp .edgeAt (by decide), fun k hk => hregs k (poisonKey_linkKeys k hk)⟩]
      exact fun _ => id
    tree := by rw [show (s.landWrite w).run = s.run from hp .run (by decide)]; exact fun _ => id
    edge := by rw [show (s.landWrite w).job = s.job from hp .job (by decide)] }

/-- A write that is due is on its way. -/
theorem write_of_due {s : State} {x : Nat} {w : HubWrite} (h : (x, Due.write w) ∈ s.dues) : w ∈ s.hub.writes := by
  change _ ∈ _ ++ _ ++ _ ++ _ ++ linkDues s ++ _ at h
  simp only [linkDues, List.mem_append, List.mem_map, List.mem_flatMap, Prod.mk.injEq, reduceCtorEq, and_false, exists_false,
    or_false, false_or] at h
  rcases h with ⟨j, -, h⟩ | ⟨v, hv, -, e⟩
  · rcases mem_jobDues h with ⟨_, _, e⟩ | ⟨_, e⟩ <;> exact absurd e (by simp)
  · exact Due.write.inj e ▸ hv

/-- A write's step: the cycle passes, and it lands. -/
theorem upTo_write {s : State} {c x : Nat} {w : HubWrite} (hd : s.dueBy c = [(x, .write w)]) :
    s.upTo c = ((s.advance x).landWrite w).advance c := by
  refine upTo_one hd ((duesAmong_advance s x).trans (duesAmong_landWrite (s.advance x) w)) (fun h => ?_)
  have hm := write_of_due h
  change w ∈ ((s.advance x).landWrite w).hub.writes at hm
  rw [landWrite_writes] at hm
  simpa using (List.mem_filter.1 hm).2

/-! ### HUB_WRITE and HUB_RETRY -/

theorem wrote_onlyParts (s : State) (lo k x : Nat) : OnlyParts [.tiles] s (s.wrote lo k x) := withTiles_onlyParts s _

theorem wrote_writing (s : State) (addr x y : Nat) : (s.wrote addr 256 x).writing addr (addr + 256) y =
    (s.writing addr (addr + 256) y || decide (y < x)) := by
  unfold State.writing
  change (_ || _) = _
  rw [Bool.or_comm]
  simp

/-- The hub as the repeat of an access begins on its cycle. -/
structure RetryStart (s : State) (x : Nat) (u : State) : Prop where
  parts : OnlyParts [.now, .hub] s u
  now : u.now = max s.now x
  inv : Inv s → Inv u

section
variable {s u : State} {x stack g : Nat} {a : Attempt}

theorem retryServed_start (s : State) (r : RetryEnt) (x : Nat) : RetryStart s x ((retryServed s r).advance x) :=
  ⟨((retryServed_onlyParts s r).mono (by decide)).then (advance_onlyParts _ _) (by decide), rfl,
    fun hi => (withHub_keeps s (fun h => { h with retry := h.retry.map (fun x => if x == r then { x with served := true } else x) }) (.refl s)).inv hi⟩

theorem RetryStart.counts (h : RetryStart s x u) {f : Fld} {n : Nat} {t : State} (hc : Counts f n u t) : Counts f n s t := by
  unfold Counts at hc ⊢
  rw [hc, fget_congr (h.parts .regs (by decide))]

theorem RetryStart.marks (h : RetryStart s x u) : TickMarks s u := .of_run (h.parts .run (by decide))

theorem RetryStart.bytes (h : RetryStart s x u) (b n : Nat) : OnlyBytes b n s u := h.parts.bytes (by decide) b n

theorem RetryStart.deliverOut (h : RetryStart s x u) (c : Nat) : deliverOut u stack g c a = deliverOut s stack g c a := by
  have himage : u.image = s.image := image_congr (congrArg JobRun.ctx (h.parts .job (by decide))) (h.parts .ctxs (by decide))
  have hreg : ∀ f, u.fget f = s.fget f := fget_congr (h.parts .regs (by decide))
  unfold Laws.deliverOut State.granule
  rw [rdGranule_congr (h.parts .mem (by decide)), readPort_congr himage (h.parts .edgeAt (by decide)) (hreg _) (hreg _)]

/-- A repeated write that succeeds is counted and stored. -/
structure RepeatStored (stack g x : Nat) (d : Granule) (s t : State) : Prop where
  now : t.now = max s.now x
  bytes : OnlyBytes (granuleAddr stack g) 256 s t
  counts : Counts (HUB_CNT_RETRIES.die (stack / 4)) 1 s t
  stores : inControlRegion (granuleAddr stack g) 256 = false → t.rdGranule (granuleAddr stack g) = d
  control : inControlRegion (granuleAddr stack g) 256 = true → t.mem = s.mem

theorem repeat_stores (h : RetryStart s x u) (hi : Inv s) (d : Granule) :
    RepeatStored stack g x d s (((retryGood u stack).hubStore stack g d).wrote (granuleAddr stack g) 256 x) := by
  have hn := retryGood_notes u stack
  have hgi := hn.keeps.inv (h.inv hi)
  have hst := hubStore_stored (retryGood u stack) stack g d
  have hw := wrote_onlyParts ((retryGood u stack).hubStore stack g d) (granuleAddr stack g) 256 x
  refine ⟨?_, ?_, ?_, fun hc => ?_, fun hc => ?_⟩
  · exact Eq.trans (hw .now (by decide)) (Eq.trans (hst.beside.parts .now (by decide)) (Eq.trans (hn.parts .now (by decide)) h.now))
  · exact (((h.bytes _ _).trans (hn.parts.bytes (by decide) _ _)).trans hst.bytes).trans (hw.bytes (by decide) _ _)
  · exact (fget_congr (hw .regs (by decide)) _).trans
      (h.counts (hst.beside.after_counts hgi (hubCounted_cnt _ (by decide)) (retryGood_counts (h.inv hi))))
  · exact (rdGranule_congr (hw .mem (by decide)) _).trans (hubStore_rdGranule _ stack g d hgi.1.2.1 hc)
  · have hm : ((retryGood u stack).hubStore stack g d).mem = (retryGood u stack).mem := by rw [hubStore_control _ stack g d hc]
    exact Eq.trans (hw .mem (by decide)) (hm.trans (Eq.trans (hn.parts .mem (by decide)) (h.parts .mem (by decide))))

/-- A repeated write that fails again. -/
theorem repeat_overruns (h : RetryStart s x u) (hi : Inv s) (hs : stack < 16) (hg : g < 201326592) (lane : Option Nat) :
    ((u.laneError stack g lane).writeOverrun stack g).now = max s.now x ∧
      OnlyBytes (granuleAddr stack g) 256 s ((u.laneError stack g lane).writeOverrun stack g) ∧
      Counts (HUB_CNT_OVERRUNS.die (stack / 4)) 1 s ((u.laneError stack g lane).writeOverrun stack g) ∧
      ((u.laneError stack g lane).writeOverrun stack g).fbit (HUB_STS_WRITE_OVERRUN.die (stack / 4)) = true ∧
      RaisesB s ((u.laneError stack g lane).writeOverrun stack g) ∧ Poisoned stack g ((u.laneError stack g lane).writeOverrun stack g) := by
  have hl := hubNotes_laneError u hs g lane
  have ho := writeOverrun_overruns (hl.keeps.inv (h.inv hi)) hs hg
  refine ⟨?_, ?_, h.counts (hl.toBeside.then_counts (h.inv hi) (hubCounted_cnt _ (by decide)).1 ho.counts), ho.sts,
    (h.marks.trans hl.marks).then_raisesB ho.raises, ho.poisoned⟩
  · exact Eq.trans (ho.parts .now (by decide)) (Eq.trans (hl.parts .now (by decide)) h.now)
  · exact ((h.bytes _ _).trans (hl.parts.bytes (by decide) _ _)).trans ho.bytes

/-- A repeated read that succeeds is counted and delivered. -/
theorem repeat_delivers (h : RetryStart s x u) (hi : Inv s) (hs : stack < 16) (c : Nat) :
    ((retryGood u stack).readData stack g c a).now = max s.now x ∧ ((retryGood u stack).readData stack g c a).mem = s.mem ∧
      deliverOut s stack g c a ∈ ((retryGood u stack).readData stack g c a).outbox ∧
      Counts (HUB_CNT_RETRIES.die (stack / 4)) 1 s ((retryGood u stack).readData stack g c a) := by
  have hn := retryGood_notes u stack
  have hgi := hn.keeps.inv (h.inv hi)
  obtain ⟨hb, ho⟩ := readData_delivers (g := g) (a := a) hgi hs c
  have hlow : ∀ f : Fld, f.base < 0x8000000 ∧ f.base ∉ noteRegs → But (HubKept (stack / 4)) (HUB_CNT_RETRIES.die (stack / 4)) f := fun f hf =>
    ⟨.inl hf, apart_of_base (by rw [die_base, show HUB_CNT_RETRIES.base = 0x8000038 from rfl]; omega)⟩
  rw [deliverOut_notes hn (h.inv hi) ⟨hlow _ (by decide), hlow _ (by decide)⟩, h.deliverOut] at ho
  refine ⟨?_, ?_, ho, h.counts (hb.after_counts hgi ⟨(hubCounted_cnt _ (by decide)).1, ?_⟩ (retryGood_counts (h.inv hi)))⟩
  · exact Eq.trans (hb.parts .now (by decide)) (Eq.trans (hn.parts .now (by decide)) h.now)
  · exact Eq.trans (hb.parts .mem (by decide)) (Eq.trans (hn.parts .mem (by decide)) (h.parts .mem (by decide)))
  · rw [apart_comm]
    exact chan_apart_counter _ (by decide) _ (.inr rfl)

/-- A repeated read that fails again. -/
theorem repeat_read_overruns (h : RetryStart s x u) (hi : Inv s) (hs : stack < 16) (hg : g < 201326592) (c : Nat) (lane : Option Nat) :
    ((u.laneError stack g lane).readOverrun stack g c a).now = max s.now x ∧ ((u.laneError stack g lane).readOverrun stack g c a).mem = s.mem ∧
      ReadOverruns stack g c a (u.laneError stack g lane) ((u.laneError stack g lane).readOverrun stack g c a) ∧
      deliverOut s stack g c a ∈ ((u.laneError stack g lane).readOverrun stack g c a).outbox ∧
      Counts (HUB_CNT_OVERRUNS.die (stack / 4)) 1 s ((u.laneError stack g lane).readOverrun stack g c a) ∧
      RaisesB s ((u.laneError stack g lane).readOverrun stack g c a) := by
  have hl := hubNotes_laneError u hs g lane
  have ho := readOverrun_overruns (u.laneError stack g lane) hs g c a (hl.keeps.inv (h.inv hi)) hg
  have hout := ho.out
  rw [deliverOut_notes hl (h.inv hi) ⟨.inl (by decide), .inl (by decide)⟩, h.deliverOut] at hout
  refine ⟨?_, ?_, ho, hout, h.counts (hl.toBeside.then_counts (h.inv hi) (hubCounted_cnt _ (by decide)).1 ho.counts),
    (h.marks.trans hl.marks).then_raisesB ho.raises⟩
  · exact Eq.trans (ho.notes.parts .now (by decide)) (Eq.trans (hl.parts .now (by decide)) h.now)
  · exact Eq.trans (ho.notes.parts .mem (by decide)) (Eq.trans (hl.parts .mem (by decide)) (h.parts .mem (by decide)))

end

/-- A write that lands has its data stand in memory, and its granule is out of the poison table. -/
theorem landWrite_stores {s : State} (hi : Inv s) (w : HubWrite) :
    (inControlRegion (granuleAddr w.stack w.granule) 256 = false →
      (s.landWrite w).rdGranule (granuleAddr w.stack w.granule) = w.data ∧
      OnlyBytes (granuleAddr w.stack w.granule) 256 s (s.landWrite w) ∧
      (s.poisonAt w.stack w.granule = none → (s.landWrite w).regs = s.regs)) ∧
    (inControlRegion (granuleAddr w.stack w.granule) 256 = true → (s.landWrite w).mem = s.mem ∧ (s.landWrite w).regs = s.regs) := by
  have hu : OnlyParts [.hub] s (landed s w) := withHub_onlyParts s _
  have hiu : Inv (landed s w) := (withHub_keeps s (fun h => { h with writes := h.writes.filter (fun x => x != w) }) (.refl s)).inv hi
  rw [landWrite_eq]
  generalize landed s w = u at hu hiu ⊢
  refine ⟨fun hc => ⟨hubStore_rdGranule u w.stack w.granule w.data hiu.1.2.1 hc, ?_, fun hp => ?_⟩, fun hc => ?_⟩
  · exact (hu.bytes (by decide) _ _).trans (hubStore_stored u w.stack w.granule w.data).bytes
  · have hw := wrGranule_onlyParts u (granuleAddr w.stack w.granule) w.data
    have hp2 : (u.wrGranule (granuleAddr w.stack w.granule) w.data).poisonAt w.stack w.granule = none :=
      (poisonAt_regs (hw .regs (by decide)) _ _).trans ((poisonAt_regs (hu .regs (by decide)) _ _).trans hp)
    rw [hubStore_outside _ _ _ _ hc, poisonDrop_absent hp2]
    exact Eq.trans (hw .regs (by decide)) (hu .regs (by decide))
  · rw [hubStore_control _ _ _ _ hc]
    exact ⟨hu .mem (by decide), hu .regs (by decide)⟩

/-- HUB_WRITE, as the obligation has it. -/
theorem hubWrite_writes {s : State} {at_ stack g : Nat} (data : Granule) (a : Attempt) (hawake : Awake s) (hactive : s.run.active = true)
    (hstack : stack < 16) (hg : g < 201326592) (hsettled : Settled s (s.mclkAt at_)) :
    ∃ t, exec (.hubWrite at_ stack g data a) s = .next t ∧ t.now = max s.now (s.mclkAt at_) ∧
      t.hub.corrQ = s.hub.corrQ.filter (fun p => p != (stack, g)) ∧ t.hub.scrubQ = s.hub.scrubQ.filter (fun p => p != (stack, g)) ∧
      (a.parity = false → t.hub.writes = s.hub.writes ++ [⟨stack, g, s.mclkAt at_ + 256, data⟩] ∧ OnlyParts [.now, .hub, .tiles] s t ∧
        ∀ x, t.writing (granuleAddr stack g) (granuleAddr stack g + 256) x =
          (s.writing (granuleAddr stack g) (granuleAddr stack g + 256) x || decide (x < s.mclkAt at_ + 256))) ∧
      (a.parity = true → WriteFailed stack g (s.mclkAt at_) data a ((s.advance (s.mclkAt at_)).unqueue stack g) t) := by
  obtain ⟨hrun, hi⟩ := hawake
  refine ⟨_, exec_hubWrite hrun hactive hstack hg hsettled, ?_⟩
  have hu : OnlyParts [.now, .hub] s ((s.advance (s.mclkAt at_)).unqueue stack g) :=
    ((advance_onlyParts s _).mono (by decide)).then (unqueue_onlyParts _ stack g) (by decide)
  have hq : ((s.advance (s.mclkAt at_)).unqueue stack g).hub.corrQ = s.hub.corrQ.filter (fun p => p != (stack, g)) ∧
      ((s.advance (s.mclkAt at_)).unqueue stack g).hub.scrubQ = s.hub.scrubQ.filter (fun p => p != (stack, g)) ∧
      ((s.advance (s.mclkAt at_)).unqueue stack g).now = max s.now (s.mclkAt at_) := ⟨rfl, rfl, rfl⟩
  unfold writeNow
  cases hpar : a.parity
  · rw [if_neg (by decide)]
    refine ⟨rfl, rfl, rfl, fun _ => ⟨rfl, ?_, fun x => wrote_writing _ _ _ x⟩, fun e => absurd e (by decide)⟩
    exact ((hu.mono (by decide)).then (withHub_onlyParts _ _) (by decide)).then (wrote_onlyParts _ _ _ _) (by decide)
  · rw [if_pos rfl]
    have hf := writeFailed (data := data) (a := a) ((unqueue_keeps (s.advance (s.mclkAt at_)) stack g (.refl _)).inv hi) hstack hg (s.mclkAt at_)
    exact ⟨hf.now.trans hq.2.2, hf.corrQ.trans hq.1, hf.scrubQ.trans hq.2.1, fun e => absurd e (by decide), fun _ => hf⟩

/-- Settles O32: a write reaches memory on its cycle, waits for its retry slot, or overruns, and so does its repeat. -/
theorem hubWritesStoreTheirGranule : Obligations.HubWritesStoreTheirGranule := by
  refine ⟨fun s at_ stack g data a hawake hactive hstack hg => ?_, fun s w hs hp hd => ?_⟩
  · intro c k addr window taken poisoned keep
    have haddr : addr = granuleAddr stack g := by rw [granuleAddr]
    clear_value addr
    subst haddr
    obtain ⟨hrun, hi⟩ := hawake
    refine ⟨fun hsettled => ?_, fun hr => exec_hubRetry_none hrun hr, fun r hr => ⟨fun d hw hsettled => ?_, fun hw hsettled => ?_⟩⟩
    · obtain ⟨t, he, hnow, hcq, hsq, hplain, hfail⟩ := hubWrite_writes data a ⟨hrun, hi⟩ hactive hstack hg hsettled
      have hu : OnlyParts [.now, .hub] s ((s.advance c).unqueue stack g) :=
        ((advance_onlyParts s _).mono (by decide)).then (unqueue_onlyParts _ stack g) (by decide)
      refine ⟨t, he, hnow, hcq, hsq, hplain, fun hpar ht => ?_, fun hpar ht => ?_⟩
      · obtain ⟨h1, h2, h3⟩ := (hfail hpar).free ht
        exact ⟨h1, h2, fun hl => hu.then (h3 hl) (by decide)⟩
      · obtain ⟨h1, h2, h3, h4, h5⟩ := (hfail hpar).taken ht
        exact ⟨h1, h2, h3, h4, h5⟩
    · refine ⟨_, exec_hubRetry_write hrun hactive hr hw hsettled, ?_⟩
      have hu := retryServed_start s r (r.issued + 256)
      cases hpar : a.parity
      · rw [if_neg (by decide)]
        have h := repeat_stores (stack := stack) (g := g) hu hi d
        exact ⟨h.now, h.bytes, fun _ => ⟨h.counts, h.stores, h.control⟩, fun e => absurd e (by decide)⟩
      · rw [if_pos rfl]
        obtain ⟨h1, h2, h3, h4, h5, h6⟩ := repeat_overruns hu hi hstack hg a.lane
        exact ⟨h1, h2, fun e => absurd e (by decide), fun _ => ⟨h3, h4, h5, h6⟩⟩
    · refine ⟨_, exec_hubRetry_read hrun hactive hr hw hsettled, ?_⟩
      have hu := retryServed_start s r (r.issued + 424)
      cases hf : attFails a
      · rw [if_neg (by decide)]
        obtain ⟨h1, h2, h3, h4⟩ := repeat_delivers (g := g) (a := a) hu hi hstack r.issued
        exact ⟨h1, h2, h3, fun _ => h4, fun e => absurd e (by decide)⟩
      · rw [if_pos rfl]
        obtain ⟨h1, h2, h3, h4, h5, h6⟩ := repeat_read_overruns (a := a) hu hi hstack hg r.issued a.lane
        exact ⟨h1, h2, h4, fun e => absurd e (by decide), fun _ => ⟨h5, h3.sts, h6, h3.poisoned⟩⟩
  · have hstep := (step_passes hp).trans (congrArg Host.Outcome.next (upTo_write hd))
    have hnow : w.due ≤ s.now + 1 := (dueBy_single hd).2
    have hparts := landWrite_onlyParts (s.advance w.due) w
    have hwrites := landWrite_writes (s.advance w.due) w
    obtain ⟨h1, h2⟩ := landWrite_stores (s := s.advance w.due) hs w
    have ha : OnlyParts [.now] s (s.advance w.due) := advance_onlyParts s w.due
    have hn : (s.advance w.due).now = max s.now w.due := rfl
    generalize s.advance w.due = u at hstep hparts hwrites h1 h2 ha hn
    generalize u.landWrite w = v at hstep hparts hwrites h1 h2
    have hv : OnlyParts [.now] v (v.advance (s.now + 1)) := advance_onlyParts v _
    refine ⟨_, hstep, ?_, ?_, fun hc => ?_, fun hc => ?_, ?_⟩
    · change max v.now (s.now + 1) = _
      rw [show v.now = u.now from hparts .now (by decide), hn]
      omega
    · rw [show (v.advance (s.now + 1)).hub = v.hub from hv .hub (by decide), hwrites, show u.hub = s.hub from ha .hub (by decide)]
    · obtain ⟨hr, hb, hg⟩ := h1 hc
      refine ⟨?_, ((ha.bytes (by decide) _ _).trans hb).trans (hv.bytes (by decide) _ _), fun hpn => ?_⟩
      · rw [rdGranule_congr (hv .mem (by decide)), hr]
      · exact Eq.trans (hv .regs (by decide)) (Eq.trans (hg ((poisonAt_regs (ha .regs (by decide)) _ _).trans hpn)) (ha .regs (by decide)))
    · obtain ⟨hm, hg⟩ := h2 hc
      exact ⟨Eq.trans (hv .mem (by decide)) (hm.trans (ha .mem (by decide))), Eq.trans (hv .regs (by decide)) (hg.trans (ha .regs (by decide)))⟩
    · exact ((ha.mono (by decide)).trans (hparts.mono (by decide))).then hv (by decide)

end Sys2Proof.Laws
end

section
/-! PROOFS. REFRESH, SCRUB (R330, R344) and ELASTIC_WINDOW (R42, R340, R343, R363, R364). -/

namespace Sys2Proof.Laws

open Sys2Proof.Machine Sys2Proof.Safety

/-! ### Refresh and the slots of scrub -/

theorem exec_refresh {s : State} {window : Nat} (hrun : s.power.halt = .no) (hactive : s.run.active = true) (hw : window % 15 = 14)
    (hs : Settled s (s.edgeAt + 128 * (window + 1))) : exec (.refresh window) s = .next (s.advance (s.edgeAt + 128 * (window + 1))) := by
  change execRefresh window s = _
  simp only [execRefresh, State.live, State.runs, hrun, hactive, hw, if_true, BEq.rfl, Bool.and_self, upTo_settled _ _ hs]

/-- The slot that scrub would take. -/
abbrev scrubSlot (s : State) (stack c : Nat) : Bool := s.backgroundSlot stack (granPch (s.scrubTarget stack)) c

theorem exec_scrub {s : State} {at_ stack : Nat} {a : Attempt} (hrun : s.power.halt = .no) (hactive : s.run.active = true) (hstack : stack < 16)
    (hs : Settled s (s.mclkAt at_)) : exec (.scrub at_ stack a) s =
      .next (if scrubSlot s stack (s.mclkAt at_) then (s.advance (s.mclkAt at_)).scrub stack a else s.advance (s.mclkAt at_)) := by
  have hslot : ((s.advance (s.mclkAt at_)).run.active && scrubSlot (s.advance (s.mclkAt at_)) stack (s.mclkAt at_)) =
      scrubSlot s stack (s.mclkAt at_) := by
    rw [show (s.advance (s.mclkAt at_)).run.active = true from hactive]
    rfl
  change execScrub at_ stack a s = _
  simp only [execScrub, hstack, State.live, State.runs, hrun, if_true, upTo_settled _ _ hs, hslot]

section
variable {s : State} {stack : Nat} {a : Attempt}

/-- The oldest entry of a stack in a queue. -/
abbrev firstOf (l : List (Nat × Nat)) (stack : Nat) : Option (Nat × Nat) := l.find? (fun p => p.1 == stack)

theorem scrub_corr {p : Nat × Nat} (h : firstOf s.hub.corrQ stack = some p) : s.scrub stack a =
    (s.withHub (fun h => { h with corrQ := h.corrQ.filter (fun q => q != p) })).fadd (chanFld HUB_ECC_WRITTEN_BACK stack p.2) 1 := by
  unfold State.scrub
  rw [show s.hub.corrQ.find? (fun p => p.1 == stack) = some p from h]

theorem scrub_own {p : Nat × Nat} (h : firstOf s.hub.corrQ stack = none) (h2 : firstOf s.hub.scrubQ stack = some p) : s.scrub stack a =
    (s.withHub (fun h => { h with scrubQ := h.scrubQ.filter (fun q => q != p) })).fadd (chanFld HUB_ECC_WRITTEN_BACK stack p.2) 1 := by
  unfold State.scrub
  rw [show s.hub.corrQ.find? (fun p => p.1 == stack) = none from h, show s.hub.scrubQ.find? (fun p => p.1 == stack) = some p from h2]

/-- A correction written back is counted, and leaves its queue. -/
theorem writtenBack (hi : Inv s) (f : HubSt → HubSt) (g : Nat) :
    Counts (chanFld HUB_ECC_WRITTEN_BACK stack g) 1 s ((s.withHub f).fadd (chanFld HUB_ECC_WRITTEN_BACK stack g) 1) ∧
      OnlyParts [.regs, .hub] s ((s.withHub f).fadd (chanFld HUB_ECC_WRITTEN_BACK stack g) 1) ∧
      OnlyRegs [(chanFld HUB_ECC_WRITTEN_BACK stack g).base] s ((s.withHub f).fadd (chanFld HUB_ECC_WRITTEN_BACK stack g) 1) := by
  have hw := withHub_onlyParts s f
  refine ⟨?_, ((hw.mono (by decide)).then (fadd_onlyParts _ _ _) (by decide)), (hw.onlyRegs (by decide) _).trans (only_fadd _ _ 1 (.head _))⟩
  have hc := counts_fadd ((withHub_keeps s f (.refl s)).inv hi) (chanFld HUB_ECC_WRITTEN_BACK stack g) 1 (chanFld_width stack g (by decide))
  unfold Counts at hc ⊢
  rw [hc, fget_congr (hw .regs (by decide))]

/-! ### The pass of scrub -/

/-- What scrub finds at its cursor. -/
def scrubbed (s : State) (stack g : Nat) (a : Attempt) : State :=
  if attFails a then
    if attUe a then (((s.eccFailed stack g (attUe a) a.lane).setSts (8 + stack / 4) (HUB_STS_SCRUB_UE.die (stack / 4))).hubFirst stack g 4).poisonAdd stack g
    else s.eccFailed stack g (attUe a) a.lane
  else if attCorrected a == 0 then s
  else (s.eccCorrected stack g (attCorrected a) a.lane false).withHub (fun h => { h with scrubQ := h.scrubQ ++ [(stack, g)] })

theorem scrub_pass (h : firstOf s.hub.corrQ stack = none) (h2 : firstOf s.hub.scrubQ stack = none)
    (h3 : s.fget (HUB_SCRUB_STACK.die (stack / 4)) = stack % 4) :
    s.scrub stack a = (scrubbed s stack (s.fget (HUB_SCRUB_CURSOR.die (stack / 4))) a).scrubNext (stack / 4) := by
  unfold State.scrub
  rw [show s.hub.corrQ.find? (fun p => p.1 == stack) = none from h, show s.hub.scrubQ.find? (fun p => p.1 == stack) = none from h2]
  exact if_neg (by rw [h3, bne_self_eq_false]; decide)

/-- What scrub's step at its cursor keeps: the fields that it neither counts in nor notes in. -/
def ScrubKept (k : Nat) (f : Fld) : Prop := HubCounted k f ∧ ¬ (∃ off, f.base = hubAt k off ∧ 0x1000 ≤ off) ∧
  apart (HUB_STS_SCRUB_UE.die k) f = true

theorem scrubKept_cursor (k : Nat) {f : Fld} (hf : f.base = 0x8000028) : ScrubKept k (f.die k) := by
  refine ⟨hubCounted_cnt k (.inl hf), ?_, apart_of_base (fun e => ?_)⟩
  · rintro ⟨off, hb, ho⟩
    rw [die_hubAt (off := 0x28) k (by omega)] at hb
    unfold hubAt at hb
    omega
  · have := (die_base_inj _ _ k).1 e
    rw [hf] at this
    exact absurd this (by decide)

theorem chan_scrubKept {f : Fld} (hf : f.base = 0x8001000 ∧ f.stride = 8) {stack g : Nat} {y : Fld} (hy : ScrubKept (stack / 4) y) :
    apart (chanFld f stack g) y = true := by
  refine apart_of_base (fun e => hy.2.1 ⟨_, ?_, Nat.le_add_right 0x1000 (8 * (32 * (stack % 4) + granCh g))⟩)
  rw [e, chanFld_base (off := 0x1000) (by omega) hf.2]

section
variable (s) (hs : stack < 16) (g : Nat)
include hs

theorem scrubUe_beside : Beside (ScrubKept (stack / 4)) hubParts s
    ((((s.eccFailed stack g (attUe a) a.lane).setSts (8 + stack / 4) (HUB_STS_SCRUB_UE.die (stack / 4))).hubFirst stack g 4).poisonAdd stack g) := by
  have h1 : Beside (ScrubKept (stack / 4)) hubParts s (s.eccFailed stack g (attUe a) a.lane) :=
    (eccFailed_notes s hs g (attUe a) a.lane).toBeside.mono (fun _ => id) (fun f hf => ⟨hf.1.1, chan_scrubKept (by decide) hf⟩)
  refine ((h1.then (beside_setSts _ _ _ ⟨by rw [die_lo, die_wd]; decide, fun f hf => hf.2.2⟩) (by decide)).then
    ((hubNotes_hubFirst _ stack g 4).toBeside.mono (fun _ => id) (fun f hf => hf.1.1)) (fun _ => id)).then
    ((hubNotes_poisonAdd _ hs g).toBeside.mono (fun _ => id) (fun f hf => hf.1)) (fun _ => id)

theorem scrubbed_beside : Beside (ScrubKept (stack / 4)) hubParts s (scrubbed s stack g a) := by
  unfold scrubbed
  refine .ite (.ite (scrubUe_beside s hs g) ?_) (.ite (.refl _ _ s) ?_)
  · exact (eccFailed_notes s hs g (attUe a) a.lane).toBeside.mono (fun _ => id) (fun f hf => ⟨hf.1.1, chan_scrubKept (by decide) hf⟩)
  · exact ((eccCorrected_beside s hs g (attCorrected a) a.lane false).1.mono (fun _ => id)
      (fun f hf => ⟨hf.1.1, chan_scrubKept (by decide) hf⟩)).then (beside_withHub _ _) (by decide)

/-- What scrub notes of an uncorrectable granule. -/
theorem scrubbed_ue (hi : Inv s) (hg : g < 2 ^ 28) (hu : attUe a = true) :
    (scrubbed s stack g a).fbit (HUB_STS_SCRUB_UE.die (stack / 4)) = true ∧ Poisoned stack g (scrubbed s stack g a) := by
  have hf : attFails a = true := by rw [attFails, hu, Bool.or_true]
  have h1 := eccFailed_notes s hs g (attUe a) a.lane
  have hi1 := h1.keeps.inv hi
  have hset := setSts_keeps (s.eccFailed stack g (attUe a) a.lane) (8 + stack / 4) (HUB_STS_SCRUB_UE.die (stack / 4)) (.refl _)
  have hb := fbit_setSts (s.eccFailed stack g (attUe a) a.lane) (8 + stack / 4) (HUB_STS_SCRUB_UE.die (stack / 4)) hi1.1.1
    (by rw [die_lo, die_wd]; decide) (by rw [die_wd]; decide)
  have h3 := hubNotes_hubFirst ((s.eccFailed stack g (attUe a) a.lane).setSts (8 + stack / 4) (HUB_STS_SCRUB_UE.die (stack / 4))) stack g 4
  have hi3 := h3.keeps.inv (hset.inv hi1)
  unfold scrubbed
  rw [if_pos hf, if_pos hu]
  exact ⟨(hubNotes_poisonAdd _ hs g).toBeside.fbit hi3 (hubCounted_sts _ (by decide)) (h3.toBeside.fbit (hset.inv hi1) (hubKept_sts _ (by decide)) hb),
    poisonAdd_poisoned hi3 (by omega) hg⟩

/-- What scrub notes of a granule that it corrects. -/
theorem scrubbed_corrected (hi : Inv s) (hf : attFails a = false) (hc : attCorrected a ≠ 0) :
    (scrubbed s stack g a).hub.scrubQ = s.hub.scrubQ ++ [(stack, g)] ∧
      Counts (chanFld HUB_ECC_CORRECTED stack g) (attCorrected a) s (scrubbed s stack g a) := by
  unfold scrubbed
  rw [if_neg (by rw [hf]; decide), if_neg (by simpa using hc)]
  refine ⟨congrArg (· ++ [(stack, g)]) (eccCorrected_beside s hs g (attCorrected a) a.lane false).2.2, ?_⟩
  exact (fget_congr (withHub_onlyParts _ _ .regs (by decide)) _).trans (eccCorrected_counts s hs g hi (attCorrected a) a.lane false)

end

theorem scrubbed_clean (g : Nat) (hf : attFails a = false) (hc : attCorrected a = 0) : scrubbed s stack g a = s := by
  unfold scrubbed
  rw [if_neg (by rw [hf]; decide), hc]
  rfl

end

end Sys2Proof.Laws
end

section
/-! PROOFS. The pass of scrub goes on (R344), and elastic accesses (R42, R340, R343, R363, R364). -/

namespace Sys2Proof.Laws

open Sys2Proof.Machine Sys2Proof.Safety

/-! ### The cursor moves on (R344) -/

section
variable (u : State) (k : Nat)

theorem scrubNext_within (h : u.fget (HUB_SCRUB_CURSOR.die k) + 1 < 201326592) :
    u.scrubNext k = u.fset (HUB_SCRUB_CURSOR.die k) (u.fget (HUB_SCRUB_CURSOR.die k) + 1) := if_pos h

/-- The cursor turns to the next stack. -/
abbrev cursorTurned : State := (u.fset (HUB_SCRUB_CURSOR.die k) 0).fset (HUB_SCRUB_STACK.die k) ((u.fget (HUB_SCRUB_STACK.die k) + 1) % 4)

theorem scrubNext_turns (h : 201326592 ≤ u.fget (HUB_SCRUB_CURSOR.die k) + 1) : u.scrubNext k =
    (if u.fget (HUB_SCRUB_STACK.die k) == 3 then (cursorTurned u k).fadd (HUB_SCRUB_PASSES.die k) 1 else cursorTurned u k).setSts (8 + k)
      (HUB_STS_SCRUB_PASS.die k) := if_neg (Nat.not_lt.2 h)

theorem scrub_apart {f g : Fld} (h : f.lo + f.wd ≤ g.lo ∨ g.lo + g.wd ≤ f.lo) : apart (f.die k) (g.die k) = true := by
  simp only [apart, Bool.or_eq_true, decide_eq_true_eq, die_lo, die_wd]
  omega

theorem die_wide {f : Fld} (h : f.lo + f.wd ≤ 64) : (f.die k).lo + (f.die k).wd ≤ 64 := by rwa [die_lo, die_wd]

section
variable (hr : tabWf resetOf u.regs = true)
include hr

theorem cursorTurned_reads : (cursorTurned u k).fget (HUB_SCRUB_CURSOR.die k) = 0 ∧
    (cursorTurned u k).fget (HUB_SCRUB_STACK.die k) = (u.fget (HUB_SCRUB_STACK.die k) + 1) % 4 := by
  have h1 := wf_fset u (HUB_SCRUB_CURSOR.die k) 0 hr
  refine ⟨?_, ?_⟩
  · rw [fget_fset_apart _ _ _ _ h1 (die_wide k (by decide)) (scrub_apart k (by decide)), fget_fset_same _ _ _ hr (die_wide k (by decide)),
      Nat.zero_mod]
  · rw [fget_fset_same _ _ _ h1 (die_wide k (by decide)), die_wd]
    exact Nat.mod_mod _ 4

/-- The cursor as the pass has moved on. -/
theorem scrubNext_reads :
    (u.fget (HUB_SCRUB_CURSOR.die k) + 1 < 201326592 →
      (u.scrubNext k).fget (HUB_SCRUB_CURSOR.die k) = u.fget (HUB_SCRUB_CURSOR.die k) + 1) ∧
    (201326592 ≤ u.fget (HUB_SCRUB_CURSOR.die k) + 1 → (u.scrubNext k).fget (HUB_SCRUB_CURSOR.die k) = 0 ∧
      (u.scrubNext k).fget (HUB_SCRUB_STACK.die k) = (u.fget (HUB_SCRUB_STACK.die k) + 1) % 4 ∧
      (u.scrubNext k).fbit (HUB_STS_SCRUB_PASS.die k) = true) := by
  refine ⟨fun h => ?_, fun h => ?_⟩
  · rw [scrubNext_within u k h, fget_fset_same _ _ _ hr (die_wide k (by decide)), die_wd]
    exact Nat.mod_eq_of_lt (lt_of_lt_of_le h (by decide))
  · obtain ⟨hc, hst⟩ := cursorTurned_reads u k hr
    have hwf : tabWf resetOf (cursorTurned u k).regs = true := wf_fset _ _ _ (wf_fset u _ _ hr)
    rw [scrubNext_turns u k h]
    have hne : ∀ f : Fld, f.base = 0x8000028 → apart (HUB_STS_SCRUB_PASS.die k) (f.die k) = true := fun f hf =>
      apart_of_base (fun e => absurd (((die_base_inj _ _ k).1 e).symm.trans hf) (by decide))
    generalize hx : (if u.fget (HUB_SCRUB_STACK.die k) == 3 then (cursorTurned u k).fadd (HUB_SCRUB_PASSES.die k) 1 else cursorTurned u k) = x
    have hxw : tabWf resetOf x.regs = true := by
      rw [← hx]
      split
      · exact wf_fset _ _ _ hwf
      · exact hwf
    have hxc : ∀ f : Fld, f.lo + f.wd ≤ 30 → x.fget (f.die k) = (cursorTurned u k).fget (f.die k) := fun f hf => by
      rw [← hx]
      split
      · exact fget_fset_apart _ _ _ _ hwf (die_wide k (by decide)) (scrub_apart k (.inr hf))
      · rfl
    refine ⟨?_, ?_, fbit_setSts _ _ _ hxw (die_wide k (by decide)) (by rw [die_wd]; decide)⟩
    · rw [fget_setSts_apart _ _ _ _ hxw (die_wide k (by decide)) (hne _ rfl), hxc _ (by decide), hc]
    · rw [fget_setSts_apart _ _ _ _ hxw (die_wide k (by decide)) (hne _ rfl), hxc _ (by decide), hst]

end

/-- The fields that the move of a cursor leaves. -/
def PassKept (f : Fld) : Prop := f.base ≠ (HUB_SCRUB.die k).base ∧ apart (HUB_STS_SCRUB_PASS.die k) f = true

theorem scrubNext_beside : Beside (PassKept k) [.regs, .outbox] u (u.scrubNext k) := by
  have hcl : ∀ {f : Fld}, f.base = 0x8000028 ∧ f.lo + f.wd ≤ 64 → ApartFrom (PassKept k) (f.die k) := fun {f} hf =>
    ⟨die_wide k hf.2, fun g hg => apart_of_base (fun e => hg.1 (e.trans ((die_base_inj f HUB_SCRUB k).2 hf.1)))⟩
  have h1 : Beside (PassKept k) [.regs, .outbox] u (cursorTurned u k) :=
    ((beside_fset u _ 0 (hcl (by decide))).trans (beside_fset _ _ _ (hcl (by decide)))).mono (by decide) (fun _ => id)
  unfold State.scrubNext
  dsimp only
  refine .ite ((beside_fset u _ _ (hcl (by decide))).mono (by decide) (fun _ => id)) ?_
  exact (Beside.ite (h1.then (beside_fadd _ _ 1 (hcl (by decide))) (by decide)) h1).then
    (beside_setSts _ _ _ ⟨die_wide k (by decide), fun g hg => hg.2⟩) (by decide)

theorem scrubNext_onlyRegs : OnlyRegs [(HUB_SCRUB.die k).base, (HUB_STS.die k).base] u (u.scrubNext k) := by
  have hs : ∀ {f : Fld}, f.base = 0x8000028 → (f.die k).base ∈ [(HUB_SCRUB.die k).base, (HUB_STS.die k).base] := fun {f} hf => by
    rw [(die_base_inj f HUB_SCRUB k).2 hf]
    exact .head _
  have hp : (HUB_STS_SCRUB_PASS.die k).base ∈ [(HUB_SCRUB.die k).base, (HUB_STS.die k).base] := by
    rw [(die_base_inj HUB_STS_SCRUB_PASS HUB_STS k).2 rfl]
    exact .tail _ (.head _)
  have h1 : OnlyRegs [(HUB_SCRUB.die k).base, (HUB_STS.die k).base] u (cursorTurned u k) :=
    (only_fset _ _ _ (hs rfl)).trans (only_fset _ _ _ (hs rfl))
  unfold State.scrubNext
  dsimp only
  split
  · exact only_fset _ _ _ (hs rfl)
  · refine OnlyRegs.trans ?_ (only_setSts _ _ _ hp)
    split
    · exact h1.trans (only_fadd _ _ 1 (hs rfl))
    · exact h1

theorem poisoned_scrubNext {stack g : Nat} (hi : Inv u) (hk : k = stack / 4) (hp : Poisoned stack g u) : Poisoned stack g (u.scrubNext k) := by
  subst hk
  have hb := scrubNext_beside u (stack / 4)
  rcases hp with hp | hp
  · left
    have heq : (u.scrubNext (stack / 4)).poisonAt stack g = u.poisonAt stack g := find?_range'_congr (fun j hj => by
      have hkeep : ∀ {f : Fld}, f.base = 0x8002000 ∧ f.stride = 8 → PassKept (stack / 4) ((f.die (stack / 4)).ix j) := fun {f} hf => by
        have hbase := poison_ix_base f (stack / 4) j hf.1 hf.2
        refine ⟨fun e => ?_, apart_of_base (fun e => ?_)⟩
        · rw [hbase, die_hubAt (off := 0x28) _ (by decide)] at e
          unfold hubAt at e
          omega
        · rw [hbase, die_hubAt (off := 0) _ (by decide)] at e
          unfold hubAt at e
          omega
      unfold State.poisonIs State.fbit
      rw [hb.flds hi _ (hkeep (by decide)), hb.flds hi _ (hkeep (by decide)), hb.flds hi _ (hkeep (by decide))])
    rwa [heq]
  · right
    refine hb.fbit hi ⟨fun e => ?_, scrub_apart _ (by decide)⟩ hp
    exact absurd ((die_base_inj _ _ _).1 e) (by decide)

theorem passKept_chan {f : Fld} (hf : f.base = 0x8001000 ∧ f.stride = 8) (stack g : Nat) : PassKept (stack / 4) (chanFld f stack g) := by
  have hb := chanFld_base (g := g) (stack := stack) (off := 0x1000) (f := f) (by omega) hf.2
  refine ⟨fun e => ?_, apart_of_base (fun e => ?_)⟩
  · rw [hb, die_hubAt (off := 0x28) _ (by decide)] at e
    unfold hubAt at e
    omega
  · rw [hb, die_hubAt (off := 0) _ (by decide)] at e
    unfold hubAt at e
    omega

end

/-- What a step of scrub's pass comes to, from the granule `g` at its cursor. -/
structure ScrubStep (stack g : Nat) (a : Attempt) (s t : State) : Prop where
  mem : t.mem = s.mem
  now : t.now = s.now
  within : g + 1 < 201326592 → t.fget (HUB_SCRUB_CURSOR.die (stack / 4)) = g + 1
  turns : 201326592 ≤ g + 1 → t.fget (HUB_SCRUB_CURSOR.die (stack / 4)) = 0 ∧
    t.fget (HUB_SCRUB_STACK.die (stack / 4)) = (stack % 4 + 1) % 4 ∧ t.fbit (HUB_STS_SCRUB_PASS.die (stack / 4)) = true
  clean : attFails a = false → attCorrected a = 0 → OnlyParts [.regs, .outbox] s t ∧
    OnlyRegs [(HUB_SCRUB.die (stack / 4)).base, (HUB_STS.die (stack / 4)).base] s t
  corrected : attFails a = false → attCorrected a ≠ 0 → t.hub.scrubQ = s.hub.scrubQ ++ [(stack, g)] ∧
    Counts (chanFld HUB_ECC_CORRECTED stack g) (attCorrected a) s t
  ue : attUe a = true → t.fbit (HUB_STS_SCRUB_UE.die (stack / 4)) = true ∧ Poisoned stack g t

theorem scrub_steps {s : State} (hi : Inv s) {stack : Nat} (hs : stack < 16) (a : Attempt)
    (hst : s.fget (HUB_SCRUB_STACK.die (stack / 4)) = stack % 4) :
    ScrubStep stack (s.fget (HUB_SCRUB_CURSOR.die (stack / 4))) a s
      ((scrubbed s stack (s.fget (HUB_SCRUB_CURSOR.die (stack / 4))) a).scrubNext (stack / 4)) := by
  have hb := scrubbed_beside s hs (s.fget (HUB_SCRUB_CURSOR.die (stack / 4))) (a := a)
  have hcur := hb.flds hi _ (scrubKept_cursor (stack / 4) (f := HUB_SCRUB_CURSOR) rfl)
  have hstk := (hb.flds hi _ (scrubKept_cursor (stack / 4) (f := HUB_SCRUB_STACK) rfl)).trans hst
  have hclean := scrubbed_clean (s := s) (stack := stack) (a := a) (s.fget (HUB_SCRUB_CURSOR.die (stack / 4)))
  have hcor := scrubbed_corrected s hs (s.fget (HUB_SCRUB_CURSOR.die (stack / 4))) (a := a) hi
  have hue := scrubbed_ue s hs (s.fget (HUB_SCRUB_CURSOR.die (stack / 4))) (a := a) hi
  have hg : s.fget (HUB_SCRUB_CURSOR.die (stack / 4)) < 2 ^ 28 := fget_lt s _
  generalize s.fget (HUB_SCRUB_CURSOR.die (stack / 4)) = g at *
  generalize scrubbed s stack g a = u at *
  have hiu := hb.keeps.inv hi
  obtain ⟨hw, ht⟩ := scrubNext_reads u (stack / 4) hiu.1.1
  rw [hcur] at hw ht
  rw [hstk] at ht
  have hn := scrubNext_beside u (stack / 4)
  refine ⟨Eq.trans (hn.parts .mem (by decide)) (hb.parts .mem (by decide)), Eq.trans (hn.parts .now (by decide)) (hb.parts .now (by decide)),
    hw, ht, fun hf hc => ?_, fun hf hc => ?_, fun hu => ?_⟩
  · rw [hclean hf hc] at hn ⊢
    exact ⟨hn.parts, scrubNext_onlyRegs s _⟩
  · obtain ⟨h1, h2⟩ := hcor hf hc
    refine ⟨Eq.trans (congrArg HubSt.scrubQ (hn.parts .hub (by decide))) h1, hn.after_counts hiu (passKept_chan (by decide) stack g) h2⟩
  · obtain ⟨h1, h2⟩ := hue hg hu
    refine ⟨hn.fbit hiu ⟨fun e => absurd ((die_base_inj _ _ _).1 e) (by decide), scrub_apart _ (by decide)⟩ h1, poisoned_scrubNext u _ hiu rfl h2⟩

end Sys2Proof.Laws
end

section
/-! PROOFS. What REFRESH, SCRUB and ELASTIC_WINDOW come to (R42, R330, R340, R343, R344, R363, R364). -/

namespace Sys2Proof.Laws

open Sys2Proof.Machine Sys2Proof.Safety

/-- Settles O34: a refresh window passes, and scrub takes its background slots. -/
theorem refreshAndScrubTakeTheirSlots : Obligations.RefreshAndScrubTakeTheirSlots := by
  intro s hawake hactive
  obtain ⟨hrun, hi⟩ := hawake
  refine ⟨fun window hw hs => ⟨_, exec_refresh hrun hactive hw hs, rfl, advance_onlyParts s _⟩, fun at_ stack a hstack hsettled => ?_⟩
  intro slot corr own
  have hexec := exec_scrub (a := a) hrun hactive hstack hsettled
  have ha : OnlyParts [.now] s (s.advance (s.mclkAt at_)) := advance_onlyParts s _
  have hq : (s.advance (s.mclkAt at_)).hub = s.hub := ha .hub (by decide)
  have hn : (s.advance (s.mclkAt at_)).now = max s.now (s.mclkAt at_) := rfl
  have hf : ∀ f, (s.advance (s.mclkAt at_)).fget f = s.fget f := fun _ => rfl
  have hia : Inv (s.advance (s.mclkAt at_)) := hi
  generalize s.advance (s.mclkAt at_) = u at hexec ha hq hn hf hia
  have hcounts : ∀ {f : Fld} {n : Nat} {t : State}, Counts f n u t → Counts f n s t := fun {f n t} hc => by
    unfold Counts at hc ⊢
    rw [hc, hf]
  refine ⟨fun h => ?_, fun p h hc => ?_, fun p h hc ho => ?_, fun h hc ho hst => ?_⟩
  · exact ⟨u, by rw [hexec, if_neg (by rw [show scrubSlot s stack (s.mclkAt at_) = false from h]; decide)], hn, ha⟩
  · obtain ⟨h1, h2, h3⟩ := writtenBack (stack := stack) hia (fun h => { h with corrQ := h.corrQ.filter (fun q => q != p) }) p.2
    refine ⟨_, by rw [hexec, if_pos h, scrub_corr (s := u) (by rw [hq]; exact hc)], ?_, hcounts h1, (ha.mono (by decide)).then h2 (by decide),
      (ha.onlyRegs (by decide) _).trans h3⟩
    change u.hub.corrQ.filter _ = _
    rw [hq]
  · obtain ⟨h1, h2, h3⟩ := writtenBack (stack := stack) hia (fun h => { h with scrubQ := h.scrubQ.filter (fun q => q != p) }) p.2
    refine ⟨_, by rw [hexec, if_pos h, scrub_own (s := u) (by rw [hq]; exact hc) (by rw [hq]; exact ho)], ?_, hcounts h1,
      (ha.mono (by decide)).then h2 (by decide), (ha.onlyRegs (by decide) _).trans h3⟩
    change u.hub.scrubQ.filter _ = _
    rw [hq]
  · intro k g
    have hstep := scrub_steps hia hstack a (by rw [hf]; exact hst)
    rw [hf] at hstep
    refine ⟨_, by rw [hexec, if_pos h, scrub_pass (s := u) (by rw [hq]; exact hc) (by rw [hq]; exact ho) (by rw [hf]; exact hst), hf],
      hstep.now.trans hn, hstep.mem.trans (ha .mem (by decide)), hstep.within, hstep.turns, fun h1 h2 => ?_, fun h1 h2 => ?_, hstep.ue⟩
    · obtain ⟨h3, h4⟩ := hstep.clean h1 h2
      exact ⟨(ha.mono (by decide)).then h3 (by decide), (ha.onlyRegs (by decide) _).trans h4⟩
    · obtain ⟨h3, h4⟩ := hstep.corrected h1 h2
      exact ⟨by rw [h3, hq], hcounts h4⟩

/-! ### Elastic accesses -/

section
variable {s : State} {stack g : Nat} {a : Attempt}

theorem exec_elasticWindow {at_ : Nat} {write : Option Granule} (hrun : s.power.halt = .no) (hstack : stack < 16) (hg : g < 201326592)
    (hs : Settled s (s.mclkAt at_)) : exec (.elasticWindow at_ stack g write a) s =
      .next (if s.elasticOpen stack g (s.mclkAt at_) then (s.advance (s.mclkAt at_)).elasticAccess stack g write a
        else s.advance (s.mclkAt at_)) := by
  have hok : granOk stack g = true := by simp [granOk, stackGranules, hstack, hg]
  have hopen : (s.advance (s.mclkAt at_)).elasticOpen stack g (s.mclkAt at_) = s.elasticOpen stack g (s.mclkAt at_) := rfl
  change execElasticWindow at_ stack g write a s = _
  simp only [execElasticWindow, hok, State.live, State.runs, hrun, if_true, upTo_settled _ _ hs, hopen]

theorem elasticError_parts (s : State) (stack g : Nat) : OnlyParts [.hub, .outbox] s (s.elasticError stack g) := by
  have h : OnlyParts [.hub] s (if s.isLender then s.withHub (fun h => { h with lentErrors := h.lentErrors + 1 }) else s) :=
    .ite (withHub_onlyParts s _) (.refl _ s)
  exact (h.mono (by decide)).then (beside_emit (K := HubKept 0) _ _).parts (by decide)

theorem elasticError_outbox (s : State) (stack g : Nat) : (s.elasticError stack g).outbox = s.outbox ++ [.msg "ELASTIC_ERROR" [stack, g]] := by
  unfold State.elasticError
  split <;> rfl

theorem elasticError_corrQ (s : State) (stack g : Nat) : (s.elasticError stack g).hub.corrQ = s.hub.corrQ := by
  unfold State.elasticError
  split <;> rfl

/-- What an elastic read answers. -/
def elasticOut (s : State) (stack g : Nat) (a : Attempt) : Out := .msg "ELASTIC_DATA" [stack, g, (attData a (s.granule stack g)).toNat]

/-- The answer of an elastic read of a granule that is not poisoned. -/
theorem elasticRead_eq (hp : s.poisonAt stack g = none) : s.elasticAccess stack g none a =
    if attFails a then (s.eccFailed stack g (attUe a) a.lane).elasticError stack g
    else (if attCorrected a == 0 then s else s.eccCorrected stack g (attCorrected a) a.lane true).emit
      (elasticOut (if attCorrected a == 0 then s else s.eccCorrected stack g (attCorrected a) a.lane true) stack g a) := by
  unfold State.elasticAccess
  rw [hp]
  rfl

theorem elasticRead_poisoned (hp : (s.poisonAt stack g).isSome = true) : s.elasticAccess stack g none a = s.elasticError stack g := if_pos hp

theorem eccFailed_onlyParts (ue : Bool) : OnlyParts [.regs] s (s.eccFailed stack g ue none) := .ite (fadd_onlyParts s _ 1) (.refl _ s)

/-- What an elastic read comes to. -/
structure ElasticReads (stack g : Nat) (a : Attempt) (s t : State) : Prop where
  now : t.now = s.now
  mem : t.mem = s.mem
  answers : s.poisonAt stack g = none → attFails a = false → elasticOut s stack g a ∈ t.outbox ∧
    (attCorrected a = 0 → t.outbox = s.outbox ++ [elasticOut s stack g a] ∧ OnlyParts [.outbox] s t) ∧
    (attCorrected a ≠ 0 → Counts (chanFld HUB_ECC_CORRECTED stack g) (attCorrected a) s t ∧
      (a.lane = none → OnlyParts [.regs, .hub, .outbox] s t))
  fails : s.poisonAt stack g = none → attFails a = true → .msg "ELASTIC_ERROR" [stack, g] ∈ t.outbox ∧
    (a.lane = none → OnlyParts [.regs, .hub, .outbox] s t)
  poisoned : (s.poisonAt stack g).isSome = true → t.outbox = s.outbox ++ [.msg "ELASTIC_ERROR" [stack, g]] ∧ OnlyParts [.hub, .outbox] s t

theorem elastic_reads (hi : Inv s) (hs : stack < 16) : ElasticReads stack g a s (s.elasticAccess stack g none a) := by
  cases hp : s.poisonAt stack g with
  | some j =>
    have he := elasticError_parts s stack g
    rw [elasticRead_poisoned (by rw [hp]; rfl)]
    exact ⟨he .now (by decide), he .mem (by decide), fun e => absurd (hp.symm.trans e) (by simp), fun e => absurd (hp.symm.trans e) (by simp),
      fun _ => ⟨elasticError_outbox s stack g, he⟩⟩
  | none =>
    have hsome : ¬ ((s.poisonAt stack g).isSome = true) := by
      rw [hp]
      decide
    rw [elasticRead_eq hp]
    cases hf : attFails a
    · rw [if_neg (by decide)]
      by_cases hc : attCorrected a = 0
      · rw [if_pos (by rw [hc]; rfl)]
        exact ⟨rfl, rfl, fun _ _ => ⟨List.mem_append_right _ (.head _), fun _ => ⟨rfl, (beside_emit (K := HubKept 0) s _).parts⟩,
          fun h => absurd hc h⟩, fun _ e => absurd (hf.symm.trans e) (by decide), fun e => absurd e hsome⟩
      · rw [if_neg (by simpa using hc)]
        have hb := (eccCorrected_beside s hs g (attCorrected a) a.lane true).1
        have hcnt := eccCorrected_counts s hs g hi (attCorrected a) a.lane true
        have hparts : a.lane = none → OnlyParts [.regs, .hub, .outbox] s (s.eccCorrected stack g (attCorrected a) a.lane true) := fun hl => by
          rw [hl]
          exact eccCorrected_onlyParts s g (attCorrected a) true
        generalize s.eccCorrected stack g (attCorrected a) a.lane true = v at hb hcnt hparts ⊢
        have hout : elasticOut v stack g a = elasticOut s stack g a := by
          unfold elasticOut State.granule
          rw [rdGranule_congr (hb.parts .mem (by decide))]
        have he := (beside_emit (K := HubKept 0) v (elasticOut v stack g a)).parts
        refine ⟨Eq.trans (he .now (by decide)) (hb.parts .now (by decide)), Eq.trans (he .mem (by decide)) (hb.parts .mem (by decide)), fun _ _ => ⟨?_, fun h => absurd h hc, fun _ => ⟨?_, fun hl => (hparts hl).then he (by decide)⟩⟩,
          fun _ e => absurd (hf.symm.trans e) (by decide), fun e => absurd e hsome⟩
        · rw [hout]
          exact List.mem_append_right _ (.head _)
        · exact (fget_congr (he .regs (by decide)) _).trans hcnt
    · rw [if_pos rfl]
      have hn := (eccFailed_notes s hs g (attUe a) a.lane).parts
      have hparts : a.lane = none → OnlyParts [.regs] s (s.eccFailed stack g (attUe a) a.lane) := fun hl => by
        rw [hl]
        exact eccFailed_onlyParts (attUe a)
      generalize s.eccFailed stack g (attUe a) a.lane = v at hn hparts ⊢
      have he := elasticError_parts v stack g
      refine ⟨Eq.trans (he .now (by decide)) (hn .now (by decide)), Eq.trans (he .mem (by decide)) (hn .mem (by decide)), fun _ e => absurd (hf.symm.trans e) (by decide),
        fun _ _ => ⟨?_, fun hl => ((hparts hl).mono (by decide)).then he (by decide)⟩, fun e => absurd e hsome⟩
      rw [elasticError_outbox]
      exact List.mem_append_right _ (.head _)

theorem elasticWrite_barred {d : Granule} (h : s.elasticMay (granuleAddr stack g) 256 = false) : s.elasticAccess stack g (some d) a = s :=
  if_pos (by rw [h]; rfl)

theorem elasticWrite_eq {d : Granule} (h : s.elasticMay (granuleAddr stack g) 256 = true) : s.elasticAccess stack g (some d) a =
    if a.parity then (((s.unqueue stack g).eccFailed stack g false a.lane).granuleLost stack g).elasticError stack g
    else (s.unqueue stack g).wrGranule (granuleAddr stack g) d := if_neg (by rw [h]; decide)

/-- What an elastic write comes to. -/
structure ElasticWrites (stack g : Nat) (d : Granule) (a : Attempt) (s t : State) : Prop where
  now : t.now = s.now
  queue : (stack, g) ∉ t.hub.corrQ
  stores : a.parity = false → t.rdGranule (granuleAddr stack g) = d ∧ OnlyParts [.mem, .hub] s t
  fails : a.parity = true → .msg "ELASTIC_ERROR" [stack, g] ∈ t.outbox
  bytes : OnlyBytes (granuleAddr stack g) 256 s t

theorem elastic_writes (hi : Inv s) (hs : stack < 16) {d : Granule} (h : s.elasticMay (granuleAddr stack g) 256 = true) :
    ElasticWrites stack g d a s (s.elasticAccess stack g (some d) a) := by
  have hu := unqueue_onlyParts s stack g
  have hiu : Inv (s.unqueue stack g) := (unqueue_keeps s stack g (.refl s)).inv hi
  have hq : (stack, g) ∉ (s.unqueue stack g).hub.corrQ := by simp [State.unqueue, State.withHub]
  rw [elasticWrite_eq h]
  generalize s.unqueue stack g = u at hu hiu hq ⊢
  cases hp : a.parity
  · rw [if_neg (by decide)]
    have hw := wrGranule_onlyParts u (granuleAddr stack g) d
    have hb : OnlyBytes (granuleAddr stack g) 256 u (u.wrGranule (granuleAddr stack g) d) := fun b hb => rd8_wrGranule_out u _ b d hb
    refine ⟨Eq.trans (hw .now (by decide)) (hu .now (by decide)), ?_, fun _ => ⟨rdGranule_wrGranule u _ d hiu.1.2.1, (hu.mono (by decide)).then hw (by decide)⟩, fun e => absurd (hp.symm.trans e) (by decide), (hu.bytes (by decide) _ _).trans hb⟩
    rw [show (u.wrGranule (granuleAddr stack g) d).hub = u.hub from hw .hub (by decide)]
    exact hq
  · rw [if_pos rfl]
    have hn := eccFailed_notes u hs g false a.lane
    generalize u.eccFailed stack g false a.lane = v at hn ⊢
    have hl := granuleLost_onlyParts v stack g
    have hb := granuleLost_onlyBytes v stack g
    generalize v.granuleLost stack g = x at hl hb ⊢
    have he := elasticError_parts x stack g
    refine ⟨Eq.trans (he .now (by decide)) (Eq.trans (hl .now (by decide)) (Eq.trans (hn.parts .now (by decide)) (hu .now (by decide)))), ?_,
      fun e => absurd (hp.symm.trans e) (by decide), fun _ => ?_,
      (((hu.bytes (by decide) _ _).trans (hn.parts.bytes (by decide) _ _)).trans hb).trans (he.bytes (by decide) _ _)⟩
    · rw [elasticError_corrQ, show x.hub = v.hub from hl .hub (by decide), hn.queues.corrQ]
      exact hq
    · rw [elasticError_outbox]
      exact List.mem_append_right _ (.head _)

end

theorem elasticOpen_idle {s : State} (h : s.run.active = false) (stack g c : Nat) : s.elasticOpen stack g c = true := by
  unfold State.elasticOpen
  rw [h]
  rfl

/-- Settles O35: elastic accesses answer or store where their slots are open. -/
theorem elasticAccessesAnswerOrStore : Obligations.ElasticAccessesAnswerOrStore := by
  intro s at_ stack g a hawake hstack hg hsettled c addr open_ data error
  have haddr : addr = granuleAddr stack g := by rw [granuleAddr]
  have hdata : data = elasticOut s stack g a := by
    unfold elasticOut State.granule
    rw [← haddr]
  clear_value data
  subst hdata
  clear_value addr
  subst haddr
  obtain ⟨hrun, hi⟩ := hawake
  have hexec := fun write => exec_elasticWindow (write := write) (a := a) hrun hstack hg hsettled
  have ha : OnlyParts [.now] s (s.advance c) := advance_onlyParts s c
  have hn : (s.advance c).now = max s.now c := rfl
  have hia : Inv (s.advance c) := hi
  have hmay : (s.advance c).elasticMay (granuleAddr stack g) 256 = s.elasticMay (granuleAddr stack g) 256 := rfl
  have hpois : (s.advance c).poisonAt stack g = s.poisonAt stack g := poisonAt_regs rfl stack g
  have hout : elasticOut (s.advance c) stack g a = elasticOut s stack g a := by
    unfold elasticOut State.granule
    rw [rdGranule_congr (ha .mem (by decide))]
  change ∀ write, exec (.elasticWindow at_ stack g write a) s = .next (if open_ then (s.advance c).elasticAccess stack g write a
    else s.advance c) at hexec
  generalize s.advance c = u at hexec ha hn hia hmay hpois hout
  refine ⟨fun write ho => ⟨u, by rw [hexec, if_neg (by rw [ho]; decide)], hn, ha⟩, fun h => elasticOpen_idle h stack g c, fun ho => ?_, fun d ho => ?_⟩
  · have hr := elastic_reads (s := u) (g := g) (a := a) hia hstack
    obtain ⟨h1, h2, h3, h4, h5⟩ := hr
    rw [hpois, hout] at h3
    rw [hpois] at h4 h5
    refine ⟨_, by rw [hexec, if_pos ho], h1.trans hn, h2.trans (ha .mem (by decide)), fun hp hf => ?_, fun hp hf => ?_, fun hp => ?_⟩
    · obtain ⟨h6, h7, h8⟩ := h3 hp hf
      refine ⟨h6, fun hc => ?_, fun hc => ?_⟩
      · obtain ⟨h9, h10⟩ := h7 hc
        exact ⟨h9.trans (by rw [show u.outbox = s.outbox from ha .outbox (by decide)]), (ha.mono (by decide)).then h10 (by decide)⟩
      · obtain ⟨h9, h10⟩ := h8 hc
        refine ⟨?_, fun hl => (ha.mono (by decide)).then (h10 hl) (by decide)⟩
        unfold Counts at h9 ⊢
        rw [h9, fget_congr (ha .regs (by decide))]
    · obtain ⟨h6, h7⟩ := h4 hp hf
      exact ⟨h6, fun hl => (ha.mono (by decide)).then (h7 hl) (by decide)⟩
    · obtain ⟨h6, h7⟩ := h5 hp
      exact ⟨h6.trans (by rw [show u.outbox = s.outbox from ha .outbox (by decide)]), (ha.mono (by decide)).then h7 (by decide)⟩
  · refine ⟨_, by rw [hexec, if_pos ho], ?_⟩
    cases hm : s.elasticMay (granuleAddr stack g) 256
    · rw [elasticWrite_barred (hmay.trans hm)]
      exact ⟨hn, fun e => absurd e (by decide), fun _ => ha, ha.bytes (by decide) _ _⟩
    · obtain ⟨h1, h2, h3, h4, h5⟩ := elastic_writes (a := a) (d := d) hia hstack (hmay.trans hm)
      refine ⟨h1.trans hn, fun _ => ⟨h2, fun hp => ?_, h4⟩, fun e => absurd e (by decide), (ha.bytes (by decide) _ _).trans h5⟩
      obtain ⟨h6, h7⟩ := h3 hp
      exact ⟨h6, (ha.mono (by decide)).then h7 (by decide)⟩

end Sys2Proof.Laws
end

section
/-! PROOFS. A link by itself: its record, its registers, and a frame that leaves on it (R369 to R373, R380, R414). -/

namespace Sys2Proof.Laws

open Sys2Proof.Machine Sys2Proof.Safety

/-! ### A link's record -/

section
variable {s t : State} {l : Nat}

theorem link_withLink_same (hi : Inv s) (hl : l < 16) (f : LinkSt → LinkSt) : (s.withLink l f).link l = f (s.link l) :=
  getD_modAt_same f {} l s.links (by rw [hi.2.2.2.2]; exact hl)

theorem link_congr (h : t.links = s.links) (l : Nat) : t.link l = s.link l := congrArg (fun ls => ls.getD l {}) h

theorem OnlyParts.link {ps : List Part} (h : OnlyParts ps s t) (hp : .links ∉ ps) (l : Nat) : t.link l = s.link l :=
  link_congr (h .links hp) l

theorem sameLinkRegs_advance (s : State) (c : Nat) : SameLinkRegs s (s.advance c) := SameLinkRegs.of_regs rfl rfl

theorem SameLinkRegs.slotOpen (h : SameLinkRegs s t) (hl : l < 16) (c : Nat) : t.slotOpen l c = s.slotOpen l c := by
  simp only [State.slotOpen, h.lnkSlot hl, h.slotCycle hl, h.lnkWin hl, h.1, h.period]

/-- A frame's bytes depend on the pending NAKs and lane changes alone. -/
theorem SameLinkRegs.frameOut_of (h : SameLinkRegs s t) (hl : l < 16) (hn : (t.link l).naks = (s.link l).naks)
    (hw : (t.link l).swaps = (s.link l).swaps) (c seq kind slot flit : Nat) :
    Safety.frameOut t l c seq kind slot flit = Safety.frameOut s l c seq kind slot flit := by
  unfold Safety.frameOut Safety.frameHeader
  rw [hn, hw, h.lastWindow hl]

end

/-! ### A frame that leaves -/

section
variable (s : State) (l c seq kind slot flit : Nat)

theorem putFrame_onlyParts : OnlyParts [.links, .outbox] s (s.putFrame l c seq kind slot flit) := by
  intro p hp
  cases p <;> simp [Part.Same] at hp ⊢

theorem putFrame_links : (s.putFrame l c seq kind slot flit).links = (s.withLink l (fun k => { k with naks := k.naks.drop 1 })).links := rfl

variable {s l}

theorem putFrame_link (hi : Inv s) (hl : l < 16) :
    (s.putFrame l c seq kind slot flit).link l = { s.link l with naks := (s.link l).naks.drop 1 } :=
  link_withLink_same hi hl _

/-- A frame whose link's record has changed before it leaves, beside the NAKs and the lane changes. -/
theorem putFrame_after_outbox (hl : l < 16) (f : LinkSt → LinkSt) (hn : ∀ k, (f k).naks = k.naks) (hw : ∀ k, (f k).swaps = k.swaps) :
    ((s.withLink l f).putFrame l c seq kind slot flit).outbox = s.outbox ++ Safety.frameOut s l c seq kind slot flit := by
  rw [putFrame_outbox, (sameLinkRegs_withLink s l f).frameOut_of hl (link_withLink_stands s l f LinkSt.naks hn)
    (link_withLink_stands s l f LinkSt.swaps hw)]
  rfl

theorem putFrame_after_link (hi : Inv s) (hl : l < 16) (f : LinkSt → LinkSt) :
    ((s.withLink l f).putFrame l c seq kind slot flit).link l = { f (s.link l) with naks := (f (s.link l)).naks.drop 1 } := by
  rw [putFrame_link _ _ _ _ _ ((withLink_keeps s l f (.refl s)).inv hi) hl, link_withLink_same hi hl]

end

/-! ### Its registers -/

/-- The fields of a link that a statement reads: its mode, its rate and its counters. -/
def lnkCounted (l : Nat) : List Fld :=
  [LNK_CNT_A_FRAMES, LNK_CNT_A_CORRECTED, LNK_CNT_B_RETRANSMITS, LNK_CNT_B_OVERRUNS, LNK_CNT_B_DOWNS, LNK_STATE_MODE,
    LNK_STATE_LEGACY].map (fun f => lnkFld f l)

/-- Those fields, as a property. -/
abbrev LnkKept (l : Nat) (f : Fld) : Prop := f ∈ lnkCounted l

theorem lnkKept_not_note {l : Nat} (hl : l < 16) : ∀ f ∈ lnkCounted l, f.base ∉ noteRegs := by
  revert l
  decide

theorem lnkKept_not_page {l : Nat} (hl : l < 16) : ∀ f ∈ lnkCounted l, f.base ≠ (FAULT_CNT_C_RAISED.pageOf (lnkPage l)).base := by
  revert l
  decide

/-- The fields that the faults and the lanes of a link touch beside those. -/
def lnkNoted (l : Nat) : List Fld :=
  [LNK_STS_OVERRUN, LNK_STS_LANE_RETIRED, LNK_STS_LANE_EXHAUSTED, LNK_STS_LINK_DOWN, LNK_ERR_FIRST_VALID, LNK_ERR_FIRST_LINK,
    LNK_ERR_FIRST_CAUSE, LNK_ERR_FIRST_SLOT, LNK_ERR_FIRST_KIND, LNK_ERR_FIRST_TICK].map (fun f => f.die (l / 4)) ++
  [lnkFld LNK_CNT_B_LANES_RETIRED l, lnkFld LNK_STATE_EXHAUSTED_RX l]

theorem lnkNoted_apart {l : Nat} (hl : l < 16) {f : Fld} (hf : f ∈ lnkNoted l) : ApartFrom (LnkKept l) f := by
  have h : ∀ l < 16, ∀ f ∈ lnkNoted l, f.lo + f.wd ≤ 64 ∧ ∀ g ∈ lnkCounted l, apart f g = true := by decide
  exact h l hl f hf

theorem lnkCounted_apart {l : Nat} (hl : l < 16) {f : Fld} (hf : f ∈ lnkCounted l) : f.lo + f.wd ≤ 64 ∧
    ∀ g ∈ lnkCounted l, f ≠ g → apart f g = true := by
  have h : ∀ l < 16, ∀ f ∈ lnkCounted l, f.lo + f.wd ≤ 64 ∧ ∀ g ∈ lnkCounted l, f ≠ g → apart f g = true := by decide
  exact h l hl f hf

end Sys2Proof.Laws
end

section
/-! PROOFS. Frames sent, NAKs, elastic frames, link loss and training (R369 to R373, R376, R380, R381). -/

namespace Sys2Proof.Laws

open Sys2Proof.Machine Sys2Proof.Safety

/-! ### What a link's events leave -/

section
variable {K : Fld → Prop} (s : State) (l : Nat)

theorem beside_withLink (f : LinkSt → LinkSt) : Beside K [.links] s (s.withLink l f) :=
  .of_parts (withLink_onlyParts s l f) (withLink_keeps s l f (.refl s)) (by decide)

theorem beside_emits {α : Type} (o : α → Out) (xs : List α) : Beside K [.outbox] s (xs.foldl (fun s v => s.emit (o v)) s) :=
  .foldl (fun v _ _ => beside_emit v _) s

theorem emits_outbox {α : Type} (o : α → Out) : ∀ (xs : List α) (s : State),
    (xs.foldl (fun s v => s.emit (o v)) s).outbox = s.outbox ++ xs.map o
  | [], s => (List.append_nil _).symm
  | x :: xs, s => by
    rw [List.foldl_cons, emits_outbox o xs, List.map_cons]
    exact List.append_assoc s.outbox [o x] (xs.map o)

variable {l} (hl : l < 16)
include hl

theorem beside_lnkFirst (cause slot kind : Nat) : Beside (LnkKept l) [.regs] s (s.lnkFirst l cause slot kind) :=
  beside_record s _ _ (lnkNoted_apart hl (by simp [lnkNoted])) (by
    intro p hp
    simp only [List.mem_cons, List.not_mem_nil, or_false] at hp
    rcases hp with e | e | e | e | e <;> subst e <;> exact lnkNoted_apart hl (by simp [lnkNoted]))

theorem beside_lnkSts {f : Fld} (hf : f.die (l / 4) ∈ lnkNoted l) : Beside (LnkKept l) [.regs, .outbox] s (s.setSts (lnkPage l) (f.die (l / 4))) :=
  beside_setSts s _ _ (lnkNoted_apart hl hf)

theorem beside_lnkC (f : Fld) (cause fifo : Nat) (hf : f.die (l / 4) ∈ lnkNoted l) :
    Beside (LnkKept l) [.regs, .run, .attend, .fifos, .cap, .outbox] s (s.classCWith (lnkPage l) (f.die (l / 4)) cause fifo) :=
  beside_classCWith s (lnkKept_not_note hl) _ _ _ _ (lnkNoted_apart hl hf) (lnkKept_not_page hl)

theorem beside_lnkB (f : Fld) (hf : f.die (l / 4) ∈ lnkNoted l) :
    Beside (LnkKept l) [.regs, .run, .fifos, .cap, .outbox] s (s.classBSts (lnkPage l) (f.die (l / 4))) :=
  beside_classBSts s (lnkKept_not_note hl) _ _ (lnkNoted_apart hl hf)

theorem beside_lnkAdd (n : Nat) {f : Fld} (hf : f ∈ lnkCounted l) :
    Beside (fun g => LnkKept l g ∧ f ≠ g) [.regs] s (s.fadd f n) :=
  beside_fadd s f n ⟨(lnkCounted_apart hl hf).1, fun g hg => (lnkCounted_apart hl hf).2 g hg.1 hg.2⟩

theorem lnkSts_width : ∀ f ∈ [LNK_STS_OVERRUN, LNK_STS_LINK_DOWN, LNK_STS_TOO_LONG].map (fun f => f.die (l / 4)),
    f.lo + f.wd ≤ 64 ∧ f.wd = 1 ∧ f.base ∉ noteRegs ∧ f.base ≠ (FAULT_CNT_C_RAISED.pageOf (lnkPage l)).base := by
  revert l
  decide

end

/-! ### A link goes down (R380, R381) -/

/-- The parts that a link's loss touches. -/
abbrev downParts : List Part := [.regs, .run, .attend, .fifos, .cap, .links, .outbox]

/-- A link that has lost lock, with what waited in it ended. -/
structure WentDown (l : Nat) (s t : State) : Prop where
  mode : t.fget (lnkFld LNK_STATE_MODE l) = 0
  downs : Counts (lnkFld LNK_CNT_B_DOWNS l) 1 s t
  sts : t.fbit (LNK_STS_LINK_DOWN.die (l / 4)) = true
  raises : RaisesC s t
  queue : (t.link l).elasticQ = []
  errors : ∀ v ∈ (s.link l).elasticQ, Out.msg "ELASTIC_LINK_ERROR" [l, v] ∈ t.outbox
  expiry : (t.attendOf (12 + l / 4)).expiry.isSome = true
  beside : Beside (fun g => LnkKept l g ∧ lnkFld LNK_CNT_B_DOWNS l ≠ g ∧ lnkFld LNK_STATE_MODE l ≠ g) downParts s t

/-- The link shown as down, its waiting frames ended. -/
def downShown (s : State) (l : Nat) : State :=
  (((s.link l).elasticQ.foldl (fun s v => s.emit (.msg "ELASTIC_LINK_ERROR" [l, v])) (s.fset (lnkFld LNK_STATE_MODE l) 0)).withLink l
    (fun k => { k with elasticQ := [], credit := 32 }))

/-- That loss counted and recorded. -/
def downNoted (s : State) (l : Nat) : State :=
  (((downShown s l).fadd (lnkFld LNK_CNT_B_DOWNS l) 1).lnkFirst l 4 0 0).withLink l (fun k => { k with badRun := 0 })

theorem linkDown_eq (s : State) (l : Nat) :
    s.linkDown l = (downNoted s l).classCWith (lnkPage l) (LNK_STS_LINK_DOWN.die (l / 4)) 2 0 := rfl

section
variable {s : State} {l : Nat} (hi : Inv s) (hl : l < 16)

theorem downShown_outbox (s : State) (l : Nat) : (downShown s l).outbox =
    s.outbox ++ (s.link l).elasticQ.map (fun v => Out.msg "ELASTIC_LINK_ERROR" [l, v]) := emits_outbox _ _ _

include hl

theorem downShown_beside : Beside (fun g => LnkKept l g ∧ lnkFld LNK_STATE_MODE l ≠ g) downParts s (downShown s l) := by
  have hm := lnkCounted_apart (f := lnkFld LNK_STATE_MODE l) hl (by simp [lnkCounted])
  have h : Beside (fun g => LnkKept l g ∧ lnkFld LNK_STATE_MODE l ≠ g) downParts s (s.fset (lnkFld LNK_STATE_MODE l) 0) :=
    (beside_fset s _ 0 ⟨hm.1, fun g hg => hm.2 g hg.1 hg.2⟩).mono (by decide) (fun _ => id)
  exact (h.then (beside_emits _ _ _) (by decide)).then (beside_withLink _ _ _) (by decide)

theorem downNoted_beside : Beside (fun g => LnkKept l g ∧ lnkFld LNK_CNT_B_DOWNS l ≠ g) downParts (downShown s l) (downNoted s l) := by
  have hadd := (beside_lnkAdd (downShown s l) hl 1 (f := lnkFld LNK_CNT_B_DOWNS l) (by simp [lnkCounted])).mono (qs := downParts) (by decide)
    (fun _ => id)
  exact (hadd.trans ((beside_lnkFirst _ hl 4 0 0).mono (by decide) (fun _ h => h.1))).then (beside_withLink _ _ _) (by decide)

theorem linkDown_last : Beside (LnkKept l) downParts (downNoted s l) (s.linkDown l) :=
  (beside_lnkC _ hl LNK_STS_LINK_DOWN 2 0 (by simp [lnkNoted])).mono (by decide) (fun _ => id)

omit hl in
theorem downs_ne_mode (l : Nat) : lnkFld LNK_CNT_B_DOWNS l ≠ lnkFld LNK_STATE_MODE l := fun e =>
  absurd (congrArg Fld.lo e) (by rw [lnkFld, lnkFld, ix_lo, ix_lo, die_lo, die_lo]; decide)

omit hl in
theorem mode_kept (l : Nat) : LnkKept l (lnkFld LNK_STATE_MODE l) := by simp [LnkKept, lnkCounted]

omit hl in
theorem downs_kept (l : Nat) : LnkKept l (lnkFld LNK_CNT_B_DOWNS l) := by simp [LnkKept, lnkCounted]

omit hl in
theorem downShown_regs (s : State) (l : Nat) : (downShown s l).regs = (s.fset (lnkFld LNK_STATE_MODE l) 0).regs :=
  (beside_emits (K := LnkKept l) (s.fset (lnkFld LNK_STATE_MODE l) 0) (fun v => Out.msg "ELASTIC_LINK_ERROR" [l, v]) _).parts .regs (by decide)

include hi

theorem downShown_mode : (downShown s l).fget (lnkFld LNK_STATE_MODE l) = 0 :=
  (fget_congr (downShown_regs s l) _).trans
    ((fget_fset_same s _ 0 hi.1.1 (lnkCounted_apart hl (mode_kept l)).1).trans (Nat.zero_mod _))

theorem downShown_queue : ((downShown s l).link l).elasticQ = [] := by
  have hbefore : Inv ((s.link l).elasticQ.foldl (fun s v => s.emit (.msg "ELASTIC_LINK_ERROR" [l, v])) (s.fset (lnkFld LNK_STATE_MODE l) 0)) :=
    ((beside_emits (K := LnkKept l) _ _ _).keeps.inv ((fset_keeps _ _ (.refl s)).inv hi))
  exact congrArg LinkSt.elasticQ (link_withLink_same hbefore hl _)

omit hi in
theorem downNoted_queue : ((downNoted s l).link l).elasticQ = ((downShown s l).link l).elasticQ :=
  (link_withLink_stands _ l (fun k => { k with badRun := 0 }) LinkSt.elasticQ (fun _ => rfl)).trans
    (congrArg LinkSt.elasticQ (OnlyParts.link ((fadd_onlyParts _ _ _).trans (beside_lnkFirst _ hl 4 0 0).parts) (by decide) l))

theorem downNoted_downs : Counts (lnkFld LNK_CNT_B_DOWNS l) 1 (downShown s l) (downNoted s l) := by
  have hishown := (downShown_beside (s := s) hl).keeps.inv hi
  refine ((beside_lnkFirst _ hl 4 0 0).flds ?_ _ (downs_kept l)).trans (counts_fadd hishown _ 1 (lnkCounted_apart hl (downs_kept l)).1)
  exact (fadd_keeps _ _ _ (.refl _)).inv hishown

theorem linkDown_wentDown : WentDown l s (s.linkDown l) := by
  have hshown := downShown_beside (s := s) hl
  have hnoted := downNoted_beside (s := s) hl
  have hlast := linkDown_last (s := s) hl
  have hishown := hshown.keeps.inv hi
  have hinoted := hnoted.keeps.inv hishown
  obtain ⟨hw, h1, hn, hp⟩ := lnkSts_width hl (LNK_STS_LINK_DOWN.die (l / 4)) (by simp)
  constructor
  case mode => rw [hlast.flds hinoted _ (mode_kept l), hnoted.flds hishown _ ⟨mode_kept l, downs_ne_mode l⟩, downShown_mode hi hl]
  case downs =>
    exact hlast.after_counts hinoted (downs_kept l)
      (hshown.then_counts hi ⟨downs_kept l, (downs_ne_mode l).symm⟩ (downNoted_downs hi hl))
  case sts => exact fbit_of_fget (fget_classCWith _ _ _ _ _ hinoted.1.1 hw h1 hn hp)
  case raises => exact (hshown.marks.trans hnoted.marks).then_raisesC (classCWith_raisesC _ _ _ _ _)
  case queue =>
    have h := OnlyParts.link (beside_lnkC (downNoted s l) hl LNK_STS_LINK_DOWN 2 0 (by simp [lnkNoted])).parts (by decide) l
    rw [linkDown_eq, h, downNoted_queue hl, downShown_queue hi hl]
  case errors =>
    intro v hv
    refine (hnoted.out.trans hlast.out).mem ?_
    rw [downShown_outbox]
    exact List.mem_append_right _ (List.mem_map_of_mem hv)
  case expiry => exact classCWith_expiry _ _ _ _ _
  case beside =>
    exact ((hshown.mono (List.Subset.refl _) (fun _ h => ⟨h.1, h.2.2⟩)).then (hnoted.mono (List.Subset.refl _) (fun _ h => ⟨h.1, h.2.1⟩))
      (List.Subset.refl _)).trans (hlast.mono (List.Subset.refl _) (fun _ h => h.1))

end

end Sys2Proof.Laws
end

section
/-! PROOFS. LINK_SEND, NAK, LINK_DOWN, ELASTIC_FRAME and LINK_TRAINING (R369 to R373, R376, R380, R381, R387). -/

namespace Sys2Proof.Laws

open Sys2Proof.Machine Sys2Proof.Safety

section
variable {s : State} {at_ link : Nat} (hawake : Awake s) (hl : link < 16) (hs : Settled s at_)

/-! ### LINK_SEND -/

section
include hawake hl hs

theorem exec_linkSend (hactive : s.run.active = true) {kind : Nat} (src : FlitSrc) (h1 : 1 ≤ kind) (h3 : kind ≤ 3) :
    exec (.linkSend at_ link kind src) s = .next (if s.slotOpen link at_ then
      (match (s.advance at_).flitOf src with | some flit => (s.advance at_).linkSend link at_ kind flit | none => s.advance at_)
      else s.advance at_) := by
  change Host.Outcome.next _ = _
  simp only [live_runs hawake.1, hactive, hl, h1, h3, decide_true, Bool.and_self, if_true, upTo_settled _ _ hs,
    (sameLinkRegs_advance s at_).slotOpen hl] <;> rfl

end

/-- What a scheduled frame leaves: itself, its number, and its name for a NAK. -/
theorem linkSend_sends (hi : Inv s) (hl : link < 16) (kind flit : Nat) :
    let t := (s.advance at_).linkSend link at_ kind flit
    let p := s.lnkSlot link (at_ - s.edgeAt)
    t.outbox = s.outbox ++ frameOut s link at_ (s.seqAt link at_) kind p.2 flit ∧ (t.link link).naks = (s.link link).naks.drop 1 ∧
    (s.seqAt link at_, p.1, p.2, kind, flit) ∈ (t.link link).sent ∧ (∀ l, l ≠ link → t.link l = s.link l) ∧
    OnlyParts [.now, .links, .outbox] s t := by
  have hlink := putFrame_after_link (s := s.advance at_) at_ ((s.advance at_).seqAt link at_) kind ((s.advance at_).lnkSlot link (at_ - s.edgeAt)).2
    flit hi hl (fun k => { k with sent := ((s.advance at_).seqAt link at_, ((s.advance at_).lnkSlot link (at_ - s.edgeAt)).1,
      ((s.advance at_).lnkSlot link (at_ - s.edgeAt)).2, kind, flit) :: k.sent.filter (fun e => e.1 != (s.advance at_).seqAt link at_) })
  refine ⟨linkSend_outbox (s.advance at_) hl at_ kind flit, congrArg LinkSt.naks hlink, ?_, fun l hne => link_linkSend_ne _ _ _ _ hne, ?_⟩
  · exact (congrArg LinkSt.sent hlink) ▸ List.mem_cons_self
  · have hsend : OnlyParts [.now, .links, .outbox] (s.advance at_) ((s.advance at_).linkSend link at_ kind flit) :=
      ((withLink_onlyParts _ link _).mono (by decide)).then (putFrame_onlyParts _ _ _ _ _ _ _) (by decide)
    exact ((advance_onlyParts s at_).mono (by decide)).trans hsend

/-- Settles O36: a slot that is not open and a frame without a flit send nothing, else the frame of the slot leaves. -/
theorem linkSendNumbersItsFrames : Obligations.LinkSendNumbersItsFrames := by
  intro s at_ link kind src hawake hactive hl h1 h3 hs
  rw [exec_linkSend hawake hl hs hactive src h1 h3]
  refine ⟨fun hno => ⟨s.advance at_, ?_, rfl, advance_onlyParts s at_⟩, fun flit hopen hflit => ?_, fun _ => rfl⟩
  · rcases hno with h | h
    · rw [h, if_neg Bool.false_ne_true]
    · rw [h, ite_self]
  · rw [hopen, hflit, if_pos rfl]
    exact ⟨_, rfl, (linkSend_frame _ _ _ _ _).1, linkSend_sends hawake.2 hl kind flit⟩

/-! ### NAK and LINK_DOWN -/

include hawake hl hs in
theorem exec_nak (hactive : s.run.active = true) (seq : Nat) : exec (.nak at_ link seq) s = .next ((s.advance at_).nakSeen link seq) := by
  change Host.Outcome.next _ = _
  simp only [live_runs hawake.1, hactive, hl, decide_true, Bool.and_self, if_true, upTo_settled _ _ hs]

/-- A frame repeated for a NAK. -/
def nakRepeated (s : State) (l c seq : Nat) (e : Nat × Nat × Nat × Nat × Nat) : State :=
  (s.withLink l (fun k => { k with retry := (true, e.2.1) :: k.retry })).putFrame l c seq 4 24 e.2.2.2.2

theorem nakSeen_repeats {l seq : Nat} {e : Nat × Nat × Nat × Nat × Nat} (hfound : (s.link l).sent.find? (fun e => e.1 == seq) = some e)
    (hfree : (s.link l).retry.contains (true, e.2.1) = false) :
    s.nakSeen l seq = nakRepeated s l (s.slotCycle l (e.2.1 + s.retryWindows l) 24) seq e := by
  unfold State.nakSeen
  rw [hfound]
  dsimp only
  rw [hfree, if_neg Bool.false_ne_true]
  rfl

theorem nakSeen_stands {l seq : Nat} (h : ∀ e, (s.link l).sent.find? (fun e => e.1 == seq) = some e →
    (s.link l).retry.contains (true, e.2.1) = true) : s.nakSeen l seq = s := by
  unfold State.nakSeen
  split
  next => rfl
  next x w k c flit hfound =>
    have hc : (s.link l).retry.contains (true, w) = true := h _ hfound
    rw [hc, if_pos rfl]

theorem nakRepeated_onlyParts (l c seq : Nat) (e : Nat × Nat × Nat × Nat × Nat) :
    OnlyParts [.links, .outbox] s (nakRepeated s l c seq e) :=
  ((withLink_onlyParts s l _).mono (by decide)).trans (putFrame_onlyParts _ _ _ _ _ _ _)

include hawake hl hs in
theorem exec_linkDown (hmode : s.fget (lnkFld LNK_STATE_MODE link) ≠ 0) :
    exec (.linkDown at_ link) s = .next ((s.advance at_).linkDown link) := by
  have hm : ((s.advance at_).fget (lnkFld LNK_STATE_MODE link) != 0) = true := bne_iff_ne.2 hmode
  change Host.Outcome.next _ = _
  simp only [live_runs hawake.1, hl, decide_true, Bool.true_and, upTo_settled _ _ hs, hm, if_true]

/-- Settles O39: a NAK repeats its frame once for a window, and a link that loses lock goes down. -/
theorem naksRepeatAndLostLinksGoDown : Obligations.NaksRepeatAndLostLinksGoDown := by
  intro s at_ link hawake hl hs
  have hadv := advance_onlyParts s at_
  refine ⟨fun seq e hactive hfound hfree => ?_, fun seq hactive htaken => ?_, fun hmode => ?_⟩
  · have hcycle : (s.advance at_).slotCycle link (e.2.1 + (s.advance at_).retryWindows link) 24 =
        s.edgeAt + s.lnkWin link * (e.2.1 + if s.lnkLegacy link then 2 else 3) + slotStart (s.lnkWin link) 24 := rfl
    rw [exec_nak hawake hl hs hactive, nakSeen_repeats (s := s.advance at_) hfound hfree, hcycle]
    have hparts := nakRepeated_onlyParts (s := s.advance at_) link
      (s.edgeAt + s.lnkWin link * (e.2.1 + if s.lnkLegacy link then 2 else 3) + slotStart (s.lnkWin link) 24) seq e
    refine ⟨_, rfl, hparts .now (by decide), ?_, ?_, (hadv.mono (by decide)).then hparts (by decide)⟩
    · exact putFrame_after_outbox (s := s.advance at_) _ _ _ _ _ hl _ (fun _ => rfl) (fun _ => rfl)
    · exact congrArg LinkSt.retry (putFrame_after_link (s := s.advance at_) _ _ _ _ _ hawake.2 hl _)
  · rw [exec_nak hawake hl hs hactive, nakSeen_stands (s := s.advance at_) htaken]
    exact ⟨_, rfl, hadv⟩
  · obtain ⟨hgone, hdowns, hsts, hraises, hqueue, herrors, hexpiry, hbeside⟩ := linkDown_wentDown (s := s.advance at_) hawake.2 hl
    rw [exec_linkDown hawake hl hs hmode]
    exact ⟨_, rfl, hbeside.parts .now (by decide), hgone, hdowns, hsts, hraises, hqueue, herrors, hexpiry, hbeside.parts .mem (by decide)⟩

/-! ### ELASTIC_FRAME -/

include hawake hl hs in
theorem exec_elasticFrame (ok : Bool) (flit : Granule) : exec (.elasticFrame at_ link ok flit) s =
    .next (if s.slotOpen link at_ = true ∧ s.fget (lnkFld LNK_STATE_MODE link) ≠ 0 then (s.advance at_).elasticFrame link at_ ok flit
      else (s.advance at_).withLink link (fun k => { k with elasticQ := k.elasticQ ++ [flit.toNat] })) := by
  have hn : ¬ 16 ≤ link := Nat.not_le.2 hl
  have hmode : (s.advance at_).fget (lnkFld LNK_STATE_MODE link) = s.fget (lnkFld LNK_STATE_MODE link) := fget_advance _ _ _
  change Host.Outcome.next _ = _
  simp only [live_runs hawake.1, hn, if_false, upTo_settled _ _ hs, (sameLinkRegs_advance s at_).slotOpen hl, hmode, Bool.and_eq_true, bne_iff_ne]

/-! ### LINK_TRAINING -/

/-- What a trained link shows. -/
def trainedFields (l mode : Nat) (legacy : Bool) (prop neighbour nlink : Nat) : List (Fld × Nat) :=
  [(lnkFld LNK_STATE_MODE l, if 160 < prop then min mode 2 else mode), (lnkFld LNK_STATE_LEGACY l, legacy.toNat),
    (lnkFld LNK_STATE_PROP l, min prop 255), (lnkFld LNK_STATE_NEIGHBOUR l, neighbour), (lnkFld LNK_STATE_NEIGHBOUR_LINK l, nlink)]

/-- A trained link shown, and its record started anew. -/
def trained (s : State) (l mode : Nat) (legacy : Bool) (prop neighbour nlink hash : Nat) : State :=
  (s.fsetAll (trainedFields l mode legacy prop neighbour nlink)).withLink l (fun k =>
    { k with
      hash := hash, badRun := 0, seq := 0, sent := [], waiting := [], landing := [], retry := [], naks := [],
      spareFor := k.spareFor.filter (fun p => k.laneBad.contains p) })

/-- A link that is too long is noted. -/
def tooLong (s : State) (l : Nat) : State := (s.setSts (lnkPage l) (LNK_STS_TOO_LONG.die (l / 4))).lnkFirst l 6 0 0

theorem linkTrained_eq (s : State) (l mode : Nat) (legacy : Bool) (prop neighbour nlink hash : Nat) :
    s.linkTrained l mode legacy prop neighbour nlink hash = if decide (160 < prop) = true then
      tooLong (trained s l mode legacy prop neighbour nlink hash) l else trained s l mode legacy prop neighbour nlink hash := by
  unfold State.linkTrained
  simp only [decide_eq_true_eq]
  rfl

include hawake hl hs in
theorem exec_linkTraining (hjob : s.job.ctx = none) {mode : Nat} (hmode : mode < 4) (legacy : Bool) (prop neighbour nlink hash : Nat) :
    exec (.linkTraining at_ link mode legacy prop neighbour nlink hash) s =
      .next ((s.advance at_).linkTrained link mode legacy prop neighbour nlink hash) := by
  have hj : (s.advance at_).job.ctx.isNone = true := Option.isNone_iff_eq_none.2 hjob
  change Host.Outcome.next _ = _
  simp only [live_runs hawake.1, hl, decide_true, Bool.true_and, upTo_settled _ _ hs, hj, if_true, Nat.mod_eq_of_lt hmode]

/-- The fields that LINK_TRAINING shows. -/
def trainedFlds (l : Nat) : List Fld :=
  [LNK_STATE_MODE, LNK_STATE_LEGACY, LNK_STATE_PROP, LNK_STATE_NEIGHBOUR, LNK_STATE_NEIGHBOUR_LINK].map (fun f => lnkFld f l)

theorem trainedFlds_apart {l : Nat} (hl : l < 16) : FieldsApart (trainedFlds l) := by
  have h : ∀ l < 16, (∀ f ∈ trainedFlds l, f.lo + f.wd ≤ 64) ∧ (trainedFlds l).Pairwise (fun f g => apart f g = true) := by decide
  exact h l hl

theorem trainedFlds_base {l : Nat} (hl : l < 16) : ∀ f ∈ trainedFlds l, f.base = (lnkFld LNK_STATE_MODE l).base := by
  revert l
  decide

theorem lnkFirst_base {l : Nat} (hl : l < 16) : ∀ f ∈ [LNK_ERR_FIRST_LINK, LNK_ERR_FIRST_CAUSE, LNK_ERR_FIRST_SLOT, LNK_ERR_FIRST_KIND,
    LNK_ERR_FIRST_TICK].map (fun f => f.die (l / 4)), f.base = (LNK_ERR_FIRST_VALID.die (l / 4)).base := by
  revert l
  decide

/-- The first link event of a die is recorded in one register (R414). -/
theorem only_lnkFirst {ks : List Nat} {l : Nat} (hl : l < 16) (s : State) (cause slot kind : Nat)
    (hk : (LNK_ERR_FIRST_VALID.die (l / 4)).base ∈ ks) : OnlyRegs ks s (s.lnkFirst l cause slot kind) := by
  refine only_record s _ _ hk (fun p hp => ?_)
  have hb : p.1.base = (LNK_ERR_FIRST_VALID.die (l / 4)).base := lnkFirst_base hl p.1 (List.mem_map_of_mem (f := Prod.fst) hp)
  rwa [hb]

/-- The fields that show a link that is too long, apart from those. -/
theorem tooLong_apart {l : Nat} (hl : l < 16) {f : Fld} (hf : f ∈ [LNK_STS_TOO_LONG, LNK_ERR_FIRST_VALID, LNK_ERR_FIRST_LINK, LNK_ERR_FIRST_CAUSE,
    LNK_ERR_FIRST_SLOT, LNK_ERR_FIRST_KIND, LNK_ERR_FIRST_TICK].map (fun f => f.die (l / 4))) : ApartFrom (· ∈ trainedFlds l) f := by
  have h : ∀ l < 16, ∀ f ∈ [LNK_STS_TOO_LONG, LNK_ERR_FIRST_VALID, LNK_ERR_FIRST_LINK, LNK_ERR_FIRST_CAUSE,
    LNK_ERR_FIRST_SLOT, LNK_ERR_FIRST_KIND, LNK_ERR_FIRST_TICK].map (fun f => f.die (l / 4)),
    f.lo + f.wd ≤ 64 ∧ ∀ g ∈ trainedFlds l, apart f g = true := by decide
  exact h l hl f hf

theorem tooLong_beside {l : Nat} (hl : l < 16) (s : State) : Beside (· ∈ trainedFlds l) [.regs, .outbox] s (tooLong s l) := by
  refine (beside_setSts s _ _ (tooLong_apart hl (by simp))).then (beside_record _ _ _ (tooLong_apart hl (by simp)) ?_) (by decide)
  intro p hp
  simp only [List.mem_cons, List.not_mem_nil, or_false] at hp
  rcases hp with e | e | e | e | e <;> subst e <;> exact tooLong_apart hl (by simp)

theorem tooLong_sts {l : Nat} (hl : l < 16) (hi : Inv s) : (tooLong s l).fbit (LNK_STS_TOO_LONG.die (l / 4)) = true := by
  have hb : ∀ l < 16, ∀ g ∈ [LNK_ERR_FIRST_VALID, LNK_ERR_FIRST_LINK, LNK_ERR_FIRST_CAUSE, LNK_ERR_FIRST_SLOT, LNK_ERR_FIRST_KIND,
    LNK_ERR_FIRST_TICK].map (fun f => f.die (l / 4)), ApartFrom (· = LNK_STS_TOO_LONG.die (l / 4)) g := by
    intro l hl g hg
    have h : ∀ l < 16, ∀ g ∈ [LNK_ERR_FIRST_VALID, LNK_ERR_FIRST_LINK, LNK_ERR_FIRST_CAUSE, LNK_ERR_FIRST_SLOT, LNK_ERR_FIRST_KIND,
      LNK_ERR_FIRST_TICK].map (fun f => f.die (l / 4)), g.lo + g.wd ≤ 64 ∧ apart g (LNK_STS_TOO_LONG.die (l / 4)) = true := by decide
    exact ⟨(h l hl g hg).1, fun f e => e ▸ (h l hl g hg).2⟩
  obtain ⟨hw, h1, -, -⟩ := lnkSts_width hl (LNK_STS_TOO_LONG.die (l / 4)) (by simp)
  have hset := (beside_setSts s (lnkPage l) _ (tooLong_apart hl (f := LNK_STS_TOO_LONG.die (l / 4)) (by simp))).keeps.inv hi
  refine Beside.fbit (beside_record (K := (· = LNK_STS_TOO_LONG.die (l / 4))) (s.setSts (lnkPage l) (LNK_STS_TOO_LONG.die (l / 4))) _ _
    (hb l hl _ (by simp)) ?_) hset rfl (fbit_setSts s _ _ hi.1.1 hw h1)
  intro p hp
  simp only [List.mem_cons, List.not_mem_nil, or_false] at hp
  rcases hp with e | e | e | e | e <;> subst e <;> exact hb l hl _ (by simp)

end

/-- What LINK_TRAINING leaves (R376, R387). -/
structure Trained (l mode : Nat) (legacy : Bool) (prop neighbour nlink hash : Nat) (s t : State) : Prop where
  shown : ∀ p ∈ trainedFields l mode legacy prop neighbour nlink, t.fget p.1 = p.2 % 2 ^ p.1.wd
  hash : (t.link l).hash = hash
  parts : OnlyParts [.regs, .links, .outbox] s t
  regs : OnlyRegs [(lnkFld LNK_STATE_MODE l).base, (LNK_STS_TOO_LONG.die (l / 4)).base, (LNK_ERR_FIRST_VALID.die (l / 4)).base] s t

section
variable {s : State} {l mode : Nat} {legacy : Bool} {prop neighbour nlink hash : Nat} (hl : l < 16)

include hl

omit hl in
theorem trainedFields_fst : (trainedFields l mode legacy prop neighbour nlink).map Prod.fst = trainedFlds l := rfl

theorem trained_shown (hi : Inv s) : ∀ p ∈ trainedFields l mode legacy prop neighbour nlink,
    (s.fsetAll (trainedFields l mode legacy prop neighbour nlink)).fget p.1 = p.2 % 2 ^ p.1.wd := fun p hp =>
  fget_fsetAll_mem _ s hi.1.1 (trainedFields_fst ▸ trainedFlds_apart hl) hp

theorem trained_hash (hi : Inv s) : ((trained s l mode legacy prop neighbour nlink hash).link l).hash = hash :=
  congrArg LinkSt.hash (link_withLink_same ((fsetAll_keeps _ (.refl s)).inv hi) hl _)

omit hl in
theorem trained_onlyParts : OnlyParts [.regs, .links] s (trained s l mode legacy prop neighbour nlink hash) :=
  ((fsetAll_onlyParts s _).mono (by decide)).then (withLink_onlyParts _ _ _) (by decide)

theorem only_trained : OnlyRegs [(lnkFld LNK_STATE_MODE l).base, (LNK_STS_TOO_LONG.die (l / 4)).base, (LNK_ERR_FIRST_VALID.die (l / 4)).base] s
    (trained s l mode legacy prop neighbour nlink hash) := by
  refine (only_fsetAll _ s ?_).trans ((withLink_onlyParts _ _ _).onlyRegs (by decide) _)
  exact fun p hp => List.mem_cons.2 (.inl (trainedFlds_base hl p.1 (List.mem_map_of_mem (f := Prod.fst) hp)))

theorem trained_trained (hi : Inv s) : Trained l mode legacy prop neighbour nlink hash s (trained s l mode legacy prop neighbour nlink hash) := by
  refine ⟨?_, trained_hash hl hi, trained_onlyParts.mono (by decide), only_trained hl⟩
  exact fun p hp => (fget_congr (withLink_onlyParts (s.fsetAll _) l _ .regs (by decide)) p.1).trans (trained_shown hl hi p hp)

theorem tooLong_trained (hi : Inv s) : Trained l mode legacy prop neighbour nlink hash s
    (tooLong (trained s l mode legacy prop neighbour nlink hash) l) := by
  have hbefore := trained_trained (mode := mode) (legacy := legacy) (prop := prop) (neighbour := neighbour) (nlink := nlink) (hash := hash) hl hi
  have hlong := tooLong_beside hl (trained s l mode legacy prop neighbour nlink hash)
  have hinv : Inv (trained s l mode legacy prop neighbour nlink hash) :=
    (withLink_keeps _ _ _ (fsetAll_keeps _ (.refl s))).inv hi
  refine ⟨fun p hp => (hlong.flds hinv _ (List.mem_map_of_mem (f := Prod.fst) hp)).trans (hbefore.shown p hp), ?_, ?_, ?_⟩
  · rw [OnlyParts.link hlong.parts (by decide), hbefore.hash]
  · exact hbefore.parts.then hlong.parts (by decide)
  · exact hbefore.regs.trans ((only_setSts _ (lnkPage l) _ (.tail _ (.head _))).trans
      (only_lnkFirst hl _ 6 0 0 (.tail _ (.tail _ (.head _)))))

theorem linkTrained_trained (hi : Inv s) : Trained l mode legacy prop neighbour nlink hash s (s.linkTrained l mode legacy prop neighbour nlink hash) ∧
    (160 < prop → (s.linkTrained l mode legacy prop neighbour nlink hash).fbit (LNK_STS_TOO_LONG.die (l / 4)) = true) := by
  have hinv : Inv (trained s l mode legacy prop neighbour nlink hash) := (withLink_keeps _ _ _ (fsetAll_keeps _ (.refl s))).inv hi
  rw [linkTrained_eq]
  by_cases hfar : 160 < prop
  · rw [if_pos (decide_eq_true hfar)]
    exact ⟨tooLong_trained hl hi, fun _ => tooLong_sts hl hinv⟩
  · rw [if_neg (by simpa using hfar)]
    exact ⟨trained_trained hl hi, fun h => absurd h hfar⟩

end

theorem elasticFrame_sends {s : State} {link : Nat} (hi : Inv s) (hl : link < 16) (c : Nat) (ok : Bool) (flit : Granule) :
    let q := (s.link link).elasticQ ++ [flit.toNat]
    let t := s.elasticFrame link c ok flit
    t.outbox = s.outbox ++ frameOut s link c (s.seqAt link c) 5 (s.lnkSlot link (c - s.edgeAt)).2 (q.headD 0) ∧
    (t.link link).elasticQ = (if ok then q.drop 1 else q) ∧ (t.link link).credit = (if ok then 32 else 31) ∧ OnlyParts [.links, .outbox] s t := by
  intro q t
  have hseq : (s.withLink link (fun k => { k with elasticQ := if ok then q.drop 1 else q, credit := if ok then 32 else 31 })).seqAt link c =
      s.seqAt link c := by
    simp only [State.seqAt, (sameLinkRegs_withLink s link _).lnkSlot hl, (sameLinkRegs_withLink s link _).retryWindows hl, link_withLink_same hi hl]
    rfl
  have ht : t = (s.withLink link (fun k => { k with elasticQ := if ok then q.drop 1 else q, credit := if ok then 32 else 31 })).putFrame link c
      (s.seqAt link c) 5 (s.lnkSlot link (c - s.edgeAt)).2 (q.headD 0) := by
    rw [← hseq]
    rfl
  rw [ht]
  refine ⟨putFrame_after_outbox _ _ _ _ _ hl _ (fun _ => rfl) (fun _ => rfl), congrArg LinkSt.elasticQ (putFrame_after_link _ _ _ _ _ hi hl _),
    congrArg LinkSt.credit (putFrame_after_link _ _ _ _ _ hi hl _), ?_⟩
  exact ((withLink_onlyParts s link _).mono (by decide)).then (putFrame_onlyParts _ _ _ _ _ _ _) (by decide)

/-- Settles O40: an elastic frame waits or goes out, and a trained link shows what it found. -/
theorem elasticFramesAndLinkTraining : Obligations.ElasticFramesAndLinkTraining := by
  intro s at_ link hawake hl hs
  have hadv := advance_onlyParts s at_
  refine ⟨fun flit ok hno => ?_, fun flit ok hgoes => ?_, fun mode legacy prop neighbour nlink hash hjob hmode hn hnl => ?_⟩
  · rw [exec_elasticFrame hawake hl hs, if_neg hno]
    refine ⟨_, rfl, rfl, congrArg LinkSt.elasticQ (link_withLink_same (s := s.advance at_) hawake.2 hl _), ?_⟩
    exact (hadv.mono (by decide)).then (withLink_onlyParts _ _ _) (by decide)
  · rw [exec_elasticFrame hawake hl hs, if_pos hgoes]
    obtain ⟨hout, hqueue, hcredit, hparts⟩ := elasticFrame_sends (s := s.advance at_) hawake.2 hl at_ ok flit
    exact ⟨_, rfl, hparts .now (by decide), hout, hqueue, hcredit, (hadv.mono (by decide)).then hparts (by decide)⟩
  · obtain ⟨⟨hshown, hhash, hparts, hregs⟩, hlong⟩ := linkTrained_trained (s := s.advance at_) (mode := mode) (legacy := legacy) (prop := prop)
      (neighbour := neighbour) (nlink := nlink) (hash := hash) hl hawake.2
    simp only [trainedFields, List.forall_mem_cons, List.not_mem_nil, false_imp_iff, implies_true, and_true] at hshown
    obtain ⟨hm, hleg, hprop, hnb, hnbl⟩ := hshown
    have hwd (f : Fld) : (lnkFld f link).wd = f.wd := by rw [lnkFld, ix_wd, die_wd]
    rw [hwd] at hm hleg hprop hnb hnbl
    rw [exec_linkTraining hawake hl hs hjob hmode]
    refine ⟨_, rfl, hm.trans (Nat.mod_eq_of_lt ?_), ?_, hprop.trans (Nat.mod_eq_of_lt ?_), hnb.trans (Nat.mod_eq_of_lt hn),
      hnbl.trans (Nat.mod_eq_of_lt hnl), hhash, hlong, (hadv.mono (by decide)).then hparts (by decide), hregs⟩
    · change (if 160 < prop then min mode 2 else mode) < 4
      split <;> omega
    · rw [State.fbit, hleg]
      cases legacy <;> rfl
    · change min prop 255 < 256
      omega

end Sys2Proof.Laws
end

section
/-! PROOFS. What a received frame leaves on its link: lanes, NAKs, overruns and deliveries (R372 to R380). -/

namespace Sys2Proof.Laws

open Sys2Proof.Machine Sys2Proof.Safety

/-- What a received frame can touch. -/
abbrev rxParts : List Part := [.regs, .run, .attend, .fifos, .cap, .links, .outbox, .fresh]

/-- What the notes of a received frame leave of its link: its counters, and the frames that wait on it or land. -/
structure RxStands (l : Nat) (s t : State) : Prop extends Beside (LnkKept l) rxParts s t where
  landing : (t.link l).landing = (s.link l).landing
  badRun : (t.link l).badRun = (s.link l).badRun
  waiting : (t.link l).waiting = (s.link l).waiting

section
variable {l : Nat} {s t u : State}

theorem RxStands.refl (l : Nat) (s : State) : RxStands l s s := ⟨.refl _ _ s, rfl, rfl, rfl⟩

theorem RxStands.next (h : RxStands l s t) (g : RxStands l t u) : RxStands l s u :=
  ⟨h.toBeside.trans g.toBeside, g.landing.trans h.landing, g.badRun.trans h.badRun, g.waiting.trans h.waiting⟩

theorem RxStands.ite {c : Prop} [Decidable c] (h : RxStands l s t) (g : RxStands l s u) : RxStands l s (if c then t else u) := by
  split <;> assumption

theorem RxStands.foldl {α : Type} {f : State → α → State} (h : ∀ v a, RxStands l v (f v a)) (xs : List α) (s : State) :
    RxStands l s (xs.foldl f s) := foldl_keeps_rel (RxStands.refl l) (fun _ _ _ => RxStands.next) (fun v a _ => h v a) s

theorem RxStands.of_beside {ps : List Part} (h : Beside (LnkKept l) ps s t) (hp : ps ⊆ rxParts ∧ .links ∉ ps) : RxStands l s t := by
  have hl := OnlyParts.link h.parts hp.2 l
  exact ⟨h.mono hp.1 (fun _ => id), by rw [hl], by rw [hl], by rw [hl]⟩

theorem RxStands.of_link (s : State) (m : Nat) (f : LinkSt → LinkSt)
    (hf : ∀ k, (f k).landing = k.landing ∧ (f k).badRun = k.badRun ∧ (f k).waiting = k.waiting) : RxStands l s (s.withLink m f) := by
  have hb : Beside (LnkKept l) rxParts s (s.withLink m f) := (beside_withLink s m f).mono (by decide) (fun _ => id)
  by_cases h : l = m
  · subst h
    exact ⟨hb, link_withLink_stands s l f LinkSt.landing (fun k => (hf k).1), link_withLink_stands s l f LinkSt.badRun (fun k => (hf k).2.1),
      link_withLink_stands s l f LinkSt.waiting (fun k => (hf k).2.2)⟩
  · have hl := link_withLink_ne s f h
    exact ⟨hb, by rw [hl], by rw [hl], by rw [hl]⟩

theorem RxStands.putFrame (s : State) (m c seq kind slot flit : Nat) : RxStands l s (s.putFrame m c seq kind slot flit) := by
  have h := RxStands.of_link (l := l) s m (fun k => { k with naks := k.naks.drop 1 }) (fun _ => ⟨rfl, rfl, rfl⟩)
  have he (v : State) (o : Out) : RxStands l v (v.emit o) := .of_beside (beside_emit v o) (by decide)
  exact (h.next (he _ _)).next (he _ _)

theorem RxStands.lnkHop (h : RxStands l s t) (hi : Inv s) : t.lnkHop l = s.lnkHop l := by
  unfold State.lnkHop State.lnkLegacy State.fbit
  rw [h.flds hi _ (by simp [LnkKept, lnkCounted])]

theorem rxStands_nakSeen (s : State) (m n : Nat) : RxStands l s (s.nakSeen m n) := by
  unfold State.nakSeen
  split
  next => exact .refl l s
  next =>
    refine .ite (.refl l s) ((RxStands.of_link s m _ ?_).next (.putFrame _ _ _ _ _ _ _))
    exact fun _ => ⟨rfl, rfl, rfl⟩

theorem rxStands_drawn (s : State) : RxStands l s s.drawn :=
  .of_beside (ps := [.fresh]) (.of_parts (fun p hp => by cases p <;> simp [Part.Same, State.drawn] at hp ⊢) (drawn_keeps s (.refl s)) (by decide))
    (by decide)

theorem rxStands_laneSwapSeen (s : State) (m : Nat) : RxStands l s (s.laneSwapSeen m) := by
  refine .ite (.refl l s) ((RxStands.of_link s m _ ?_).next (rxStands_drawn _))
  exact fun _ => ⟨rfl, rfl, rfl⟩

variable (hl : l < 16)
include hl

theorem rxStands_lnkLaneError (s : State) (lane : Nat) : RxStands l s (s.lnkLaneError l lane) := by
  have hlink (v : State) (f : LinkSt → LinkSt) (hf : ∀ k, (f k).landing = k.landing ∧ (f k).badRun = k.badRun ∧ (f k).waiting = k.waiting) :=
    RxStands.of_link (l := l) v l f hf
  have hfirst (v : State) (cause : Nat) : RxStands l v (v.lnkFirst l cause 0 0) := .of_beside (beside_lnkFirst v hl cause 0 0) (by decide)
  have hexhausted (v : State) : RxStands l v (v.fset (lnkFld LNK_STATE_EXHAUSTED_RX l) 1) :=
    .of_beside (beside_fset v _ 1 (lnkNoted_apart hl (by simp [lnkNoted]))) (by decide)
  have hretired (v : State) : RxStands l v (v.fadd (lnkFld LNK_CNT_B_LANES_RETIRED l) 1) :=
    .of_beside (beside_fadd v _ 1 (lnkNoted_apart hl (by simp [lnkNoted]))) (by decide)
  have hclass (v : State) : RxStands l v (v.classC (lnkPage l) (LNK_STS_LANE_EXHAUSTED.die (l / 4))) :=
    .of_beside (beside_lnkC v hl _ 5 0 (by simp [lnkNoted])) (by decide)
  have hsts (v : State) : RxStands l v (v.setSts (lnkPage l) (LNK_STS_LANE_RETIRED.die (l / 4))) :=
    .of_beside (beside_lnkSts v hl (by simp [lnkNoted])) (by decide)
  unfold State.lnkLaneError
  dsimp only
  have hrest := hlink s (fun k => { k with laneErr := (s.link l).laneErr.filter (fun e => e.1 != lane) }) (fun _ => ⟨rfl, rfl, rfl⟩)
  refine .ite (.refl l s) (.ite (hlink s _ ?_) (hrest.next (.ite ?_ ?_)))
  · exact fun _ => ⟨rfl, rfl, rfl⟩
  · refine (((hexhausted _).next (hlink _ _ ?_)).next (hfirst _ 3)).next (hclass _)
    exact fun _ => ⟨rfl, rfl, rfl⟩
  · refine (((hlink _ _ ?_).next (hretired _)).next (hfirst _ 2)).next (hsts _)
    exact fun _ => ⟨rfl, rfl, rfl⟩

theorem rxStands_lanes (lanes : List Nat) (s : State) : RxStands l s (lanes.foldl (fun s lane => s.lnkLaneError l lane) s) :=
  .foldl (fun v lane => rxStands_lnkLaneError hl v lane) lanes s

end

/-! ### An overrun (R374) -/

/-- What becomes due where a scheduled frame is lost: the free value of DATA, or nothing. -/
def lostFlit (s : State) (l c kind : Nat) (use : FlitUse) : FlitDue :=
  if kind = 1 then ⟨c + s.lnkHop l, 1, true, some s.freeVal, use⟩ else ⟨c + s.lnkHop l, kind, true, none, .port⟩

/-- A frame that overran: counted, class B, and due as lost. -/
structure Overran (l c kind : Nat) (use : FlitUse) (s t : State) : Prop where
  counts : Counts (lnkFld LNK_CNT_B_OVERRUNS l) 1 s t
  sts : t.fbit (LNK_STS_OVERRUN.die (l / 4)) = true
  raises : RaisesB s t
  link : t.link l = { s.link l with landing := (s.link l).landing ++ [lostFlit s l c kind use] }
  fresh : t.fresh = if kind = 1 then s.fresh + 1 else s.fresh
  beside : Beside (fun g => LnkKept l g ∧ lnkFld LNK_CNT_B_OVERRUNS l ≠ g) rxParts s t

/-- An overrun counted and recorded, class B raised. -/
def linkOverrun (s : State) (l slot kind cause : Nat) : State :=
  ((s.fadd (lnkFld LNK_CNT_B_OVERRUNS l) 1).lnkFirst l cause slot kind).classBSts (lnkPage l) (LNK_STS_OVERRUN.die (l / 4))

theorem frameOverrun_eq (s : State) (l c slot kind cause : Nat) (use : FlitUse) : s.frameOverrun l c slot kind cause use =
    if (kind == 1) = true then ((linkOverrun s l slot kind cause).frameDeliver l c kind true use (some (linkOverrun s l slot kind cause).freeVal)).drawn
    else (linkOverrun s l slot kind cause).frameDeliver l c kind true .port none := rfl

section
variable {s : State} {l : Nat} (hi : Inv s) (hl : l < 16) (c slot kind cause : Nat) (use : FlitUse)

theorem overruns_kept (l : Nat) : LnkKept l (lnkFld LNK_CNT_B_OVERRUNS l) := by simp [LnkKept, lnkCounted]

include hl

theorem linkOverrun_beside : Beside (fun g => LnkKept l g ∧ lnkFld LNK_CNT_B_OVERRUNS l ≠ g) [.regs, .run, .fifos, .cap, .outbox] s
    (linkOverrun s l slot kind cause) :=
  (((beside_lnkAdd s hl 1 (overruns_kept l)).mono (by decide) (fun _ => id)).then
    ((beside_lnkFirst _ hl cause slot kind).mono (List.Subset.refl _) (fun _ h => h.1)) (by decide)).then
    ((beside_lnkB _ hl LNK_STS_OVERRUN (by simp [lnkNoted])).mono (List.Subset.refl _) (fun _ h => h.1)) (by decide)

include hi

theorem linkOverrun_counts : Counts (lnkFld LNK_CNT_B_OVERRUNS l) 1 s (linkOverrun s l slot kind cause) := by
  have hadded := (fadd_keeps s (lnkFld LNK_CNT_B_OVERRUNS l) 1 (.refl s)).inv hi
  have hfirst := beside_lnkFirst (s.fadd (lnkFld LNK_CNT_B_OVERRUNS l) 1) hl cause slot kind
  exact (beside_lnkB _ hl LNK_STS_OVERRUN (by simp [lnkNoted])).after_counts (hfirst.keeps.inv hadded) (overruns_kept l)
    (hfirst.after_counts hadded (overruns_kept l) (counts_fadd hi _ 1 (lnkCounted_apart hl (overruns_kept l)).1))

theorem linkOverrun_sts : (linkOverrun s l slot kind cause).fbit (LNK_STS_OVERRUN.die (l / 4)) = true := by
  obtain ⟨hw, h1, hn, -⟩ := lnkSts_width hl (LNK_STS_OVERRUN.die (l / 4)) (by simp)
  have hadded := (fadd_keeps s (lnkFld LNK_CNT_B_OVERRUNS l) 1 (.refl s)).inv hi
  exact fbit_classBSts _ _ _ ((beside_lnkFirst _ hl cause slot kind).keeps.inv hadded).1.1 hw h1 hn

omit hi in
theorem linkOverrun_raises : RaisesB s (linkOverrun s l slot kind cause) :=
  (TickMarks.trans (.of_run (fadd_onlyParts _ _ _ .run (by decide))) (beside_lnkFirst _ hl cause slot kind).marks).then_raisesB
    (classBSts_raisesB _ _ _)

/-- The frame due as lost, after an overrun has been noted. -/
theorem linkOverrun_hop : (linkOverrun s l slot kind cause).lnkHop l = s.lnkHop l := by
  unfold State.lnkHop State.lnkLegacy State.fbit
  rw [(linkOverrun_beside hl slot kind cause).flds hi _ ⟨by simp [LnkKept, lnkCounted], fun e =>
    absurd (congrArg Fld.wd e) (by rw [lnkFld, lnkFld, ix_wd, ix_wd, die_wd, die_wd]; decide)⟩]

theorem linkOverrun_link : (linkOverrun s l slot kind cause).link l = s.link l :=
  OnlyParts.link (linkOverrun_beside hl slot kind cause).parts (by decide) l

theorem linkOverrun_fresh : (linkOverrun s l slot kind cause).fresh = s.fresh :=
  (linkOverrun_beside (s := s) hl slot kind cause).parts .fresh (by decide)

theorem frameOverrun_overran : Overran l c kind use s (s.frameOverrun l c slot kind cause use) := by
  have hnoted := linkOverrun_beside (s := s) hl slot kind cause
  have hinv := hnoted.keeps.inv hi
  have hdeliver (lost : Bool) (u : FlitUse) (x : Option Nat) :
      Beside (LnkKept l) rxParts (linkOverrun s l slot kind cause) ((linkOverrun s l slot kind cause).frameDeliver l c kind lost u x) :=
    (beside_withLink _ l _).mono (by decide) (fun _ => id)
  have hlink (lost : Bool) (u : FlitUse) (x : Option Nat) : ((linkOverrun s l slot kind cause).frameDeliver l c kind lost u x).link l =
      { s.link l with landing := (s.link l).landing ++ [⟨c + s.lnkHop l, kind, lost, x, u⟩] } := by
    rw [State.frameDeliver, link_withLink_same hinv hl, linkOverrun_link hi hl, linkOverrun_hop hi hl]
  have hall : Beside (LnkKept l) rxParts (linkOverrun s l slot kind cause) (s.frameOverrun l c slot kind cause use) := by
    rw [frameOverrun_eq]
    exact .ite ((hdeliver _ _ _).trans (rxStands_drawn _).toBeside) (hdeliver _ _ _)
  have hregs : (s.frameOverrun l c slot kind cause use).regs = (linkOverrun s l slot kind cause).regs := by
    rw [frameOverrun_eq]
    split <;> rfl
  refine ⟨hall.after_counts hinv (overruns_kept l) (linkOverrun_counts hi hl slot kind cause), ?_,
    hall.marks.after_raisesB hnoted.marks.sent (linkOverrun_raises hl slot kind cause), ?_, ?_, ?_⟩
  · exact (congrArg (fun x => x != 0) (fget_congr hregs _)).trans (linkOverrun_sts hi hl slot kind cause)
  · rw [frameOverrun_eq, lostFlit]
    by_cases hk : kind = 1
    · rw [if_pos (beq_iff_eq.2 hk), if_pos hk, State.freeVal, linkOverrun_fresh hi hl]
      subst hk
      exact hlink _ _ _
    · rw [if_neg (fun e => hk (beq_iff_eq.1 e)), if_neg hk]
      exact hlink _ _ _
  · rw [frameOverrun_eq]
    by_cases hk : kind = 1
    · rw [if_pos (beq_iff_eq.2 hk), if_pos hk]
      exact congrArg (· + 1) (linkOverrun_fresh hi hl slot kind cause)
    · rw [if_neg (fun e => hk (beq_iff_eq.1 e)), if_neg hk]
      exact linkOverrun_fresh hi hl slot kind cause
  · exact (hnoted.mono (by decide) (fun _ => id)).trans (hall.mono (List.Subset.refl _) (fun _ h => h.1))

end

end Sys2Proof.Laws
end

section
/-! PROOFS. FRAME_RECEIVED (R369, R370, R372 to R375, R380, R381). -/

namespace Sys2Proof.Laws

open Sys2Proof.Machine Sys2Proof.Safety

/-! ### Before a frame is looked at -/

/-- Two fields of a link of different widths or places are different. -/
theorem lnkFld_ne {f g : Fld} (l : Nat) (h : f.lo ≠ g.lo ∨ f.wd ≠ g.wd) : lnkFld f l ≠ lnkFld g l := fun e => by
  have hlo := congrArg Fld.lo e
  have hwd := congrArg Fld.wd e
  rw [lnkFld, lnkFld, ix_lo, ix_lo, die_lo, die_lo] at hlo
  rw [lnkFld, lnkFld, ix_wd, ix_wd, die_wd, die_wd] at hwd
  exact h.elim (· hlo) (· hwd)

/-- What stands of a link before a frame's own effects: its queues, the free value, the hop, and the counters but that of frames. -/
structure RxStart (l : Nat) (s v : State) : Prop extends
    Beside (fun g => LnkKept l g ∧ lnkFld LNK_CNT_A_FRAMES l ≠ g ∧ lnkFld LNK_CNT_A_CORRECTED l ≠ g) rxParts s v where
  landing : (v.link l).landing = (s.link l).landing
  waiting : (v.link l).waiting = (s.link l).waiting
  fresh : v.fresh = s.fresh
  hop : v.lnkHop l = s.lnkHop l

section
variable {l : Nat} {s v t : State}

/-- A scheduled frame lost after that: what the state before it says of it. -/
theorem Overran.lost {c kind : Nat} {use : FlitUse} (h : Overran l c kind use v t) (hv : RxStart l s v) (hi : Inv s) :
    Counts (lnkFld LNK_CNT_B_OVERRUNS l) 1 s t ∧ t.fbit (LNK_STS_OVERRUN.die (l / 4)) = true ∧ RaisesB s t ∧
    (if kind = 1 then t.fresh = s.fresh + 1 ∧
        (t.link l).landing = (s.link l).landing ++ [⟨c + s.lnkHop l, 1, true, some s.freeVal, use⟩]
      else (t.link l).landing = (s.link l).landing ++ [⟨c + s.lnkHop l, kind, true, none, .port⟩]) := by
  have hcount : Counts (lnkFld LNK_CNT_B_OVERRUNS l) 1 s t :=
    hv.toBeside.then_counts hi ⟨overruns_kept l, lnkFld_ne l (by decide), lnkFld_ne l (by decide)⟩ h.counts
  refine ⟨hcount, h.sts, hv.marks.then_raisesB h.raises, ?_⟩
  have hland : (t.link l).landing = (s.link l).landing ++ [lostFlit v l c kind use] := by rw [h.link, hv.landing]
  rw [hland, lostFlit, hv.hop, State.freeVal, hv.fresh, h.fresh, hv.fresh]
  split
  next => exact ⟨rfl, rfl⟩
  next => rfl

end

/-- A frame counted as received. -/
def rxCounted (s : State) (l : Nat) : State := s.fadd (lnkFld LNK_CNT_A_FRAMES l) 1

section
variable {l : Nat} {s : State} (hl : l < 16)

theorem frames_kept (l : Nat) : LnkKept l (lnkFld LNK_CNT_A_FRAMES l) := by simp [LnkKept, lnkCounted]

theorem corrected_kept (l : Nat) : LnkKept l (lnkFld LNK_CNT_A_CORRECTED l) := by simp [LnkKept, lnkCounted]

theorem legacy_kept (l : Nat) : LnkKept l (lnkFld LNK_STATE_LEGACY l) := by simp [LnkKept, lnkCounted]

include hl

theorem rxCounted_beside : Beside (fun g => LnkKept l g ∧ lnkFld LNK_CNT_A_FRAMES l ≠ g) [.regs] s (rxCounted s l) :=
  beside_lnkAdd s hl 1 (frames_kept l)

theorem rxCounted_start (hi : Inv s) : RxStart l s (rxCounted s l) := by
  have h := rxCounted_beside (s := s) hl
  refine ⟨h.mono (by decide) (fun _ h => ⟨h.1, h.2.1⟩), rfl, rfl, rfl, ?_⟩
  unfold State.lnkHop State.lnkLegacy State.fbit
  rw [h.flds hi _ ⟨legacy_kept l, lnkFld_ne l (by decide)⟩]

theorem rxCounted_mode (hi : Inv s) : (rxCounted s l).fget (lnkFld LNK_STATE_MODE l) = s.fget (lnkFld LNK_STATE_MODE l) :=
  (rxCounted_beside hl).flds hi _ ⟨mode_kept l, lnkFld_ne l (by decide)⟩

theorem sameLinkRegs_rxCounted : SameLinkRegs s (rxCounted s l) := by
  have hb : ∀ l < 16, ∀ k ∈ linkKeys, k ≠ (lnkFld LNK_CNT_A_FRAMES l).base := by decide
  exact .of_only rfl (only_fadd s _ 1 (.head _)) (fun k hk hm => hb l hl k hk (List.mem_singleton.1 hm))

theorem slotSends_rxCounted (w k : Nat) : (rxCounted s l).slotSends l w k = s.slotSends l w k := by
  have hb : ∀ l < 16, ∀ f ∈ [HULL_ORCH_MODULE, TICK_PLAN_CUR], f.base ≠ (lnkFld LNK_CNT_A_FRAMES l).base := by decide
  have hf (f : Fld) (hm : f ∈ [HULL_ORCH_MODULE, TICK_PLAN_CUR]) : (rxCounted s l).fget f = s.fget f := fget_fset_base s _ f _ (hb l hl f hm)
  unfold State.slotSends
  rw [linkWords_congr (s := s) (t := rxCounted s l) rfl (hf _ (by simp)) (hf _ (by simp)), (sameLinkRegs_rxCounted hl).lnkWin hl]

end

/-! ### A frame that could not be read (R373, R374, R380) -/

/-- The NAK of a failed frame is named, and leaves. -/
def failNamed (s : State) (l c seq : Nat) : State :=
  (s.withLink l (fun k => { k with badRun := k.badRun + 1, naks := k.naks ++ [seq] })).nakLeaves l c

/-- A failed frame waits for the retry slot of its window. -/
def failWaits (s : State) (l c window : Nat) (f : FrameDue) (use : FlitUse) : State :=
  s.withLink l (fun k =>
    { k with retry := (false, window) :: k.retry, waiting := k.waiting ++ [⟨f.seq, window, f.slot, f.kind, c, use⟩] })

section
variable {l : Nat} {s : State} (hi : Inv s) (hl : l < 16) (c seq : Nat)

/-- Where a NAK leaves: with the frame of its slot, or in an IDLE frame of its own. -/
theorem nakLeaves_eq (s : State) (l c : Nat) : s.nakLeaves l c =
    if s.slotSends l (nakSlot s l c).1 (nakSlot s l c).2 then s
    else s.putFrame l (s.slotCycle l (nakSlot s l c).1 (nakSlot s l c).2) (s.seqAt l (s.slotCycle l (nakSlot s l c).1 (nakSlot s l c).2)) 0
      (nakSlot s l c).2 0 := by
  simp only [State.nakLeaves, nakSlot, beq_iff_eq]
  rfl

theorem nakLeaves_stands (m : Nat) : RxStands m s (s.nakLeaves l c) := by
  rw [nakLeaves_eq]
  exact .ite (.refl m s) (.putFrame _ _ _ _ _ _ _)

theorem nakLeaves_onlyParts : OnlyParts [.links, .outbox] s (s.nakLeaves l c) := by
  rw [nakLeaves_eq]
  exact .ite (.refl _ s) (putFrame_onlyParts _ _ _ _ _ _ _)

theorem failNamed_onlyParts : OnlyParts [.links, .outbox] s (failNamed s l c seq) :=
  ((withLink_onlyParts s l _).mono (by decide)).trans (nakLeaves_onlyParts c)

theorem failNamed_beside : Beside (LnkKept l) rxParts s (failNamed s l c seq) :=
  ((beside_withLink s l _).mono (by decide) (fun _ => id)).trans (nakLeaves_stands c l).toBeside

include hi hl

/-- The link's record after a failed frame is named. -/
theorem failNamed_link : (failNamed s l c seq).link l = { s.link l with
    badRun := (s.link l).badRun + 1,
    naks := if s.slotSends l (nakSlot s l c).1 (nakSlot s l c).2 then (s.link l).naks ++ [seq] else ((s.link l).naks ++ [seq]).drop 1 } := by
  have hinv := (withLink_keeps s l (fun k => { k with badRun := k.badRun + 1, naks := k.naks ++ [seq] }) (.refl s)).inv hi
  have hsame := link_withLink_same hi hl (fun k => { k with badRun := k.badRun + 1, naks := k.naks ++ [seq] })
  rw [failNamed, nakLeaves_eq]
  change State.link (if s.slotSends l (nakSlot s l c).1 (nakSlot s l c).2 then _ else _) l = _
  split
  next => exact hsame
  next =>
    rw [putFrame_link _ _ _ _ _ hinv hl, hsame]

/-- What leaves when a failed frame is named. -/
theorem failNamed_outbox : (failNamed s l c seq).outbox =
    if s.slotSends l (nakSlot s l c).1 (nakSlot s l c).2 then s.outbox
    else s.outbox ++ frameOut (s.withLink l (fun k => { k with naks := k.naks ++ [seq] })) l (s.slotCycle l (nakSlot s l c).1 (nakSlot s l c).2)
      (s.seqAt l (s.slotCycle l (nakSlot s l c).1 (nakSlot s l c).2)) 0 (nakSlot s l c).2 0 := by
  have hsame := link_withLink_same hi hl (fun k => { k with badRun := k.badRun + 1, naks := k.naks ++ [seq] })
  have hnaks := link_withLink_same hi hl (fun k => { k with naks := k.naks ++ [seq] })
  have hseq (e : Nat) : (s.withLink l (fun k => { k with badRun := k.badRun + 1, naks := k.naks ++ [seq] })).seqAt l e = s.seqAt l e := by
    unfold State.seqAt
    rw [hsame]
    rfl
  rw [failNamed, nakLeaves_eq]
  change State.outbox (if s.slotSends l (nakSlot s l c).1 (nakSlot s l c).2 then _ else _) = _
  split
  next => rfl
  next =>
    have hregs : SameLinkRegs (s.withLink l (fun k => { k with naks := k.naks ++ [seq] }))
      (s.withLink l (fun k => { k with badRun := k.badRun + 1, naks := k.naks ++ [seq] })) := SameLinkRegs.of_regs rfl rfl
    rw [putFrame_outbox, hseq]
    exact congrArg (s.outbox ++ ·) (hregs.frameOut_of hl (by rw [hsame, hnaks]) (by rw [hsame, hnaks]) _ _ _ _ _)

end

/-! ### Whether a frame is read -/

/-- A frame that could be read ends the run of failures, and its corrected symbols are noted. -/
def rxRead (s : State) (l : Nat) (x : Fec) : State :=
  let v := s.withLink l (fun k => { k with badRun := 0 })
  match x with
  | .corrected lanes => lanes.foldl (fun s lane => s.lnkLaneError l lane) (v.fadd (lnkFld LNK_CNT_A_CORRECTED l) 1)
  | _ => v

section
variable {s : State} {l : Nat} (c : Nat) (due : FrameDue) (raw : BitVec 2176) (use : FlitUse) (hi : Inv s) (hl : l < 16)

/-- A failed frame: its NAK, its wait or its loss, and the link's loss on the eighth in a row. -/
def failLost (s : State) (l c : Nat) (due : FrameDue) (use : FlitUse) : State :=
  if ((failNamed s l c due.seq).link l).retry.contains (false, (s.lnkSlot l (c - s.edgeAt)).1) then
    (failNamed s l c due.seq).frameOverrun l c due.slot due.kind 0 use
  else failWaits (failNamed s l c due.seq) l c (s.lnkSlot l (c - s.edgeAt)).1 due use

theorem frameFailed_eq (s : State) (l c : Nat) (due : FrameDue) (use : FlitUse) : s.frameFailed l c due use =
    if ((failLost s l c due use).link l).badRun == 8 then (failLost s l c due use).linkDown l else failLost s l c due use := rfl

include hi hl

theorem frameReceived_down (hm : s.fget (lnkFld LNK_STATE_MODE l) = 0) (hk : scheduledKind due.kind = true) :
    s.frameReceived l c due raw use = (rxCounted s l).frameOverrun l c due.slot due.kind 1 use := by
  have h : ((rxCounted s l).fget (lnkFld LNK_STATE_MODE l) == 0) = true := beq_iff_eq.2 ((rxCounted_mode hl hi).trans hm)
  rw [rxCounted] at h
  simp only [State.frameReceived, h, if_true, hk, rxCounted]

section
variable (hm : s.fget (lnkFld LNK_STATE_MODE l) ≠ 0)
include hm

theorem frameReceived_up : ((rxCounted s l).fget (lnkFld LNK_STATE_MODE l) == 0) = false :=
  beq_false_of_ne (fun e => hm ((rxCounted_mode hl hi).symm.trans e))

theorem frameReceived_failed (hd : (rxDecode (byteList 272 raw.toNat)).2 = .failed) (hk : scheduledKind due.kind = true) :
    s.frameReceived l c due raw use = (rxCounted s l).frameFailed l c due use := by
  have h := frameReceived_up hi hl hm
  rw [rxCounted] at h
  simp only [State.frameReceived, h, Bool.false_eq_true, if_false, hd, hk, if_true, rxCounted]

theorem frameReceived_read (hd : (rxDecode (byteList 272 raw.toNat)).2 ≠ .failed) :
    s.frameReceived l c due raw use = (rxRead (rxCounted s l) l (rxDecode (byteList 272 raw.toNat)).2).frameTaken l c
      (frameFields (rxDecode (byteList 272 raw.toNat)).1) use := by
  have h := frameReceived_up hi hl hm
  rw [rxCounted] at h
  unfold State.frameReceived
  dsimp only
  rw [h, if_neg Bool.false_ne_true]
  cases hf : (rxDecode (byteList 272 raw.toNat)).2 with
  | failed => exact absurd hf hd
  | corrected lanes => rfl
  | clean => rfl

end

end

end Sys2Proof.Laws
end

section
/-! PROOFS. FRAME_RECEIVED, case by case (R369, R370, R372 to R375, R380, R381). -/

namespace Sys2Proof.Laws

open Sys2Proof.Machine Sys2Proof.Safety

/-! ### A frame that waits, overruns or takes the link down -/

section
variable {s : State} {l : Nat} (hi : Inv s) (hl : l < 16) (c : Nat) (due : FrameDue) (use : FlitUse)

theorem nakSlot_congr {t : State} (h : SameLinkRegs s t) (hl : l < 16) : nakSlot t l c = nakSlot s l c := by
  simp only [nakSlot, h.fget hl LNK_STATE_PROP rfl, h.1, h.lnkSlot hl, h.slotCycle hl]

theorem failLost_beside (hl : l < 16) (hi : Inv s) : Beside (fun g => LnkKept l g ∧ lnkFld LNK_CNT_B_OVERRUNS l ≠ g) rxParts s (failLost s l c due use) := by
  have hnamed := failNamed_beside (s := s) (l := l) c due.seq
  refine (hnamed.mono (List.Subset.refl _) (fun _ h => h.1)).trans (.ite ?_ ?_)
  · exact (frameOverrun_overran (hnamed.keeps.inv hi) hl c due.slot due.kind 0 use).beside
  · exact (beside_withLink _ l _).mono (by decide) (fun _ => id)

include hi hl

theorem failNamed_retry (x : Bool × Nat) : ((failNamed s l c due.seq).link l).retry.contains x = (s.link l).retry.contains x := by
  rw [failNamed_link hi hl]

theorem failLost_waits (hfree : (s.link l).retry.contains (false, (s.lnkSlot l (c - s.edgeAt)).1) = false) :
    failLost s l c due use = failWaits (failNamed s l c due.seq) l c (s.lnkSlot l (c - s.edgeAt)).1 due use := by
  rw [failLost, failNamed_retry hi hl, hfree, if_neg Bool.false_ne_true]

theorem failLost_overruns (htaken : (s.link l).retry.contains (false, (s.lnkSlot l (c - s.edgeAt)).1) = true) :
    failLost s l c due use = (failNamed s l c due.seq).frameOverrun l c due.slot due.kind 0 use := by
  rw [failLost, failNamed_retry hi hl, htaken, if_pos rfl]

/-- The run of failures is one longer. -/
theorem failLost_badRun : ((failLost s l c due use).link l).badRun = (s.link l).badRun + 1 := by
  have hinv := (failNamed_beside (s := s) (l := l) c due.seq).keeps.inv hi
  have hnamed : ((failNamed s l c due.seq).link l).badRun = (s.link l).badRun + 1 := by rw [failNamed_link hi hl]
  unfold failLost
  split
  next => rw [(frameOverrun_overran hinv hl c due.slot due.kind 0 use).link, hnamed]
  next => exact (congrArg LinkSt.badRun (link_withLink_same hinv hl _)).trans hnamed

theorem frameFailed_stays (hb : (s.link l).badRun ≠ 7) : s.frameFailed l c due use = failLost s l c due use := by
  rw [frameFailed_eq, failLost_badRun hi hl, if_neg (fun e => hb (by have := beq_iff_eq.1 e; omega))]

theorem frameFailed_downs (hb : (s.link l).badRun = 7) : s.frameFailed l c due use = (failLost s l c due use).linkDown l := by
  rw [frameFailed_eq, failLost_badRun hi hl, hb, if_pos (by decide)]

/-- A failed frame that waits: the link's record, what leaves, and what is touched. -/
theorem failWaits_spec : let t := failWaits (failNamed s l c due.seq) l c (s.lnkSlot l (c - s.edgeAt)).1 due use
    t.link l = { s.link l with
      badRun := (s.link l).badRun + 1,
      naks := if s.slotSends l (nakSlot s l c).1 (nakSlot s l c).2 then (s.link l).naks ++ [due.seq] else ((s.link l).naks ++ [due.seq]).drop 1,
      retry := (false, (s.lnkSlot l (c - s.edgeAt)).1) :: (s.link l).retry,
      waiting := (s.link l).waiting ++ [⟨due.seq, (s.lnkSlot l (c - s.edgeAt)).1, due.slot, due.kind, c, use⟩] } ∧
    OnlyParts [.links, .outbox] s t := by
  have hinv := (failNamed_beside (s := s) (l := l) c due.seq).keeps.inv hi
  refine ⟨?_, (failNamed_onlyParts c due.seq).then (withLink_onlyParts _ _ _) (by decide)⟩
  rw [failWaits, link_withLink_same hinv hl, failNamed_link hi hl]

end

/-! ### A frame that is read -/

/-- What a frame that could be read leaves before its own effects. -/
structure RxRead (l n : Nat) (s v : State) : Prop where
  parts : OnlyParts rxParts s v
  inv : Inv v
  landing : (v.link l).landing = (s.link l).landing
  badRun : (v.link l).badRun = 0
  frames : Counts (lnkFld LNK_CNT_A_FRAMES l) 1 s v
  corrected : Counts (lnkFld LNK_CNT_A_CORRECTED l) n s v
  hop : v.lnkHop l = s.lnkHop l

section
variable {s : State} {l : Nat} (hi : Inv s) (hl : l < 16)

theorem RxRead.stands {n : Nat} {v w : State} (h : RxRead l n s v) (g : RxStands l v w) : RxRead l n s w :=
  ⟨h.parts.trans g.parts, g.keeps.inv h.inv, g.landing.trans h.landing, g.badRun.trans h.badRun,
    g.toBeside.after_counts h.inv (frames_kept l) h.frames, g.toBeside.after_counts h.inv (corrected_kept l) h.corrected,
    (g.lnkHop h.inv).trans h.hop⟩

include hi hl

theorem rxCounted_frames : Counts (lnkFld LNK_CNT_A_FRAMES l) 1 s (rxCounted s l) := counts_fadd hi _ 1 (lnkCounted_apart hl (frames_kept l)).1

theorem rxCounted_corrected : Counts (lnkFld LNK_CNT_A_CORRECTED l) 0 s (rxCounted s l) := by
  have h := (rxCounted_beside (s := s) hl).flds hi _ ⟨corrected_kept l, lnkFld_ne l (by decide)⟩
  exact Eq.trans h (counts_zero _ s)

/-- A frame read without a correction. -/
theorem rxRead_clean : RxRead l 0 s ((rxCounted s l).withLink l (fun k => { k with badRun := 0 })) := by
  have hstart := rxCounted_start (s := s) hl hi
  have hinv := hstart.keeps.inv hi
  have hsame := link_withLink_same hinv hl (fun k => { k with badRun := 0 })
  exact ⟨hstart.parts.then (withLink_onlyParts _ _ _) (by decide), (withLink_keeps _ _ _ (.refl _)).inv hinv,
    by rw [hsame]; exact hstart.landing, by rw [hsame],
    (fget_congr (withLink_onlyParts _ l _ .regs (by decide)) _).trans (rxCounted_frames hi hl),
    (fget_congr (withLink_onlyParts _ l _ .regs (by decide)) _).trans (rxCounted_corrected hi hl), hstart.hop⟩

/-- A frame read with corrections: counted, its lanes noted. -/
theorem rxRead_corrected (lanes : List Nat) : RxRead l 1 s (lanes.foldl (fun s lane => s.lnkLaneError l lane)
    (((rxCounted s l).withLink l (fun k => { k with badRun := 0 })).fadd (lnkFld LNK_CNT_A_CORRECTED l) 1)) := by
  obtain ⟨hparts, hinv, hland, hbad, hframes, hcorr, hhop⟩ := rxRead_clean hi hl
  set v := (rxCounted s l).withLink l (fun k => { k with badRun := 0 })
  have hadd := beside_lnkAdd v hl 1 (corrected_kept l)
  have hlink := OnlyParts.link hadd.parts (by decide) l
  refine RxRead.stands ⟨hparts.then hadd.parts (by decide), hadd.keeps.inv hinv, by rw [hlink, hland], by rw [hlink, hbad], ?_, ?_, ?_⟩ (rxStands_lanes hl lanes _)
  · exact hadd.after_counts hinv ⟨frames_kept l, lnkFld_ne l (by decide)⟩ hframes
  · have hstands : v.fget (lnkFld LNK_CNT_A_CORRECTED l) = s.fget (lnkFld LNK_CNT_A_CORRECTED l) :=
      (fget_congr ((withLink_onlyParts _ l _) .regs (by decide)) _).trans
        ((rxCounted_beside (s := s) hl).flds hi _ ⟨corrected_kept l, lnkFld_ne l (by decide)⟩)
    have hcount := counts_fadd hinv (lnkFld LNK_CNT_A_CORRECTED l) 1 (lnkCounted_apart hl (corrected_kept l)).1
    rwa [Counts, hstands] at hcount
  · rw [← hhop]
    unfold State.lnkHop State.lnkLegacy State.fbit
    rw [hadd.flds hinv _ ⟨legacy_kept l, lnkFld_ne l (by decide)⟩]

theorem rxRead_read (x : Fec) (hx : x ≠ .failed) : RxRead l (if x = .clean then 0 else 1) s (rxRead (rxCounted s l) l x) := by
  cases x with
  | failed => exact absurd rfl hx
  | clean => exact rxRead_clean hi hl
  | corrected lanes => exact rxRead_corrected hi hl lanes

end

/-- The NAK and the lane change that a frame brings. -/
def frameHeard (s : State) (l : Nat) (f : FrameIn) : State :=
  let s := match f.nak with | some n => s.nakSeen l n | none => s
  if f.laneSwap then s.laneSwapSeen l else s

section
variable {s : State} {l : Nat} (c : Nat) (f : FrameIn) (use : FlitUse)

theorem frameHeard_stands (m : Nat) : RxStands m s (frameHeard s l f) := by
  have hnak : RxStands m s (match f.nak with | some n => s.nakSeen l n | none => s) := by
    cases f.nak with
    | none => exact .refl m s
    | some n => exact rxStands_nakSeen s l n
  exact .ite (hnak.next (rxStands_laneSwapSeen _ l)) hnak

theorem frameHeard_plain (hn : f.nak = none) (hw : f.laneSwap = false) : frameHeard s l f = s := by
  rw [frameHeard, hn, hw, if_neg Bool.false_ne_true]

theorem frameTaken_eq (s : State) (l c : Nat) (f : FrameIn) (use : FlitUse) : s.frameTaken l c f use =
    if scheduledKind f.kind then (frameHeard s l f).frameDeliver l c f.kind false use (some f.flit)
    else if f.kind == 4 then (frameHeard s l f).frameRetried l f.seq (some f.flit)
    else if f.kind == 5 then (frameHeard s l f).elasticIn l f.flit use
    else frameHeard s l f := rfl

end

/-! ### A RETRY frame -/

/-- The frame that a RETRY frame answers no longer waits, and is counted. -/
def retryAnswered (s : State) (l : Nat) (e : LinkWait) : State :=
  ((s.withLink l (fun k => { k with waiting := k.waiting.erase e })).fadd (lnkFld LNK_CNT_B_RETRANSMITS l) 1).classA

theorem frameRetried_answers {s : State} {l seq x : Nat} {e : LinkWait} (he : (s.link l).waiting.find? (fun e => e.seq == seq) = some e) :
    s.frameRetried l seq (some x) = (retryAnswered s l e).frameDeliver l e.sent e.kind false e.use (some x) := by
  unfold State.frameRetried
  rw [he]
  rfl

section
variable {s : State} {l : Nat} (hi : Inv s) (hl : l < 16) (e : LinkWait)

theorem retransmits_kept (l : Nat) : LnkKept l (lnkFld LNK_CNT_B_RETRANSMITS l) := by simp [LnkKept, lnkCounted]

include hl

theorem retryAnswered_beside : Beside (fun g => LnkKept l g ∧ lnkFld LNK_CNT_B_RETRANSMITS l ≠ g) rxParts s (retryAnswered s l e) :=
  (((beside_withLink s l _).mono (by decide) (fun _ => id)).then (beside_lnkAdd _ hl 1 (retransmits_kept l)) (by decide)).then
    ((beside_capFault _ (lnkKept_not_note hl) 0).mono (List.Subset.refl _) (fun _ h => h.1)) (by decide)

theorem retryAnswered_link (hi : Inv s) : (retryAnswered s l e).link l = { s.link l with waiting := (s.link l).waiting.erase e } := by
  have hlast : OnlyParts [.regs, .cap, .outbox] (s.withLink l (fun k => { k with waiting := k.waiting.erase e })) (retryAnswered s l e) :=
    ((fadd_onlyParts _ _ _).mono (by decide)).trans (capFault_onlyParts _ _)
  rw [OnlyParts.link hlast (by decide) l, link_withLink_same hi hl]

theorem retryAnswered_hop (hi : Inv s) : (retryAnswered s l e).lnkHop l = s.lnkHop l := by
  unfold State.lnkHop State.lnkLegacy State.fbit
  rw [(retryAnswered_beside hl e).flds hi _ ⟨legacy_kept l, lnkFld_ne l (by decide)⟩]

theorem retryAnswered_counts (hi : Inv s) : Counts (lnkFld LNK_CNT_B_RETRANSMITS l) 1 s (retryAnswered s l e) := by
  have hinv := (withLink_keeps s l (fun k => { k with waiting := k.waiting.erase e }) (.refl s)).inv hi
  have hstands := fget_congr (withLink_onlyParts s l (fun k => { k with waiting := k.waiting.erase e }) .regs (by decide))
    (lnkFld LNK_CNT_B_RETRANSMITS l)
  have hcount := counts_fadd hinv (lnkFld LNK_CNT_B_RETRANSMITS l) 1 (lnkCounted_apart hl (retransmits_kept l)).1
  rw [Counts, hstands] at hcount
  exact (beside_capFault _ (lnkKept_not_note hl) 0).after_counts ((fadd_keeps _ _ _ (.refl _)).inv hinv) (retransmits_kept l) hcount

end

/-! ### The cases -/

section
variable {s : State} {at_ link : Nat} (hawake : Awake s) (hl : link < 16) (hs : Settled s at_) (due : FrameDue) (raw : BitVec 2176) (use : FlitUse)

include hawake hl hs in
theorem exec_frameReceived (hactive : s.run.active = true) : exec (.frameReceived at_ link due ⟨raw, use⟩) s =
    .next ((s.advance at_).frameReceived link at_ due raw use) := by
  change Host.Outcome.next _ = _
  simp only [live_runs hawake.1, hactive, hl, decide_true, Bool.and_self, if_true, upTo_settled _ _ hs]

end

end Sys2Proof.Laws
end

section
/-! PROOFS. O37, from the cases of a received frame. -/

namespace Sys2Proof.Laws

open Sys2Proof.Machine Sys2Proof.Safety

section
variable {s : State} {at_ link : Nat} (hi : Inv s) (hl : link < 16) (due : FrameDue) (use : FlitUse)
include hi hl

/-- The eighth failed frame in a row takes the link down. -/
theorem frameFailed_goesDown (hb : (s.link link).badRun = 7) :
    let t := (rxCounted s link).frameFailed link at_ due use
    t.fget (lnkFld LNK_STATE_MODE link) = 0 ∧ Counts (lnkFld LNK_CNT_B_DOWNS link) 1 s t ∧ RaisesC s t := by
  have hstart := rxCounted_start (s := s) hl hi
  have hinv := hstart.keeps.inv hi
  have hlost := failLost_beside (s := rxCounted s link) at_ due use hl hinv
  have hdown := linkDown_wentDown (hlost.keeps.inv hinv) hl
  rw [frameFailed_downs hinv hl at_ due use hb]
  refine ⟨hdown.mode, ?_, (hstart.marks.trans hlost.marks).then_raisesC hdown.raises⟩
  exact hstart.toBeside.then_counts hi ⟨downs_kept link, lnkFld_ne link (by decide), lnkFld_ne link (by decide)⟩
    (hlost.then_counts hinv ⟨downs_kept link, lnkFld_ne link (by decide)⟩ hdown.downs)

/-- A failed frame whose window's retry slot is taken overruns. -/
theorem frameFailed_overruns (hb : (s.link link).badRun ≠ 7)
    (htaken : (s.link link).retry.contains (false, (s.lnkSlot link (at_ - s.edgeAt)).1) = true) :
    let t := (rxCounted s link).frameFailed link at_ due use
    Counts (lnkFld LNK_CNT_B_OVERRUNS link) 1 s t ∧ t.fbit (LNK_STS_OVERRUN.die (link / 4)) = true ∧ RaisesB s t ∧
    (if due.kind = 1 then t.fresh = s.fresh + 1 ∧
        (t.link link).landing = (s.link link).landing ++ [⟨at_ + s.lnkHop link, 1, true, some s.freeVal, use⟩]
      else (t.link link).landing = (s.link link).landing ++ [⟨at_ + s.lnkHop link, due.kind, true, none, .port⟩]) := by
  have hstart := rxCounted_start (s := s) hl hi
  have hinv := hstart.keeps.inv hi
  have hnamed := failNamed_beside (s := rxCounted s link) (l := link) at_ due.seq
  have hslot := (sameLinkRegs_rxCounted (s := s) hl).lnkSlot hl (at_ - s.edgeAt)
  have hbefore : RxStart link s (failNamed (rxCounted s link) link at_ due.seq) := by
    refine ⟨hstart.toBeside.trans (hnamed.mono (List.Subset.refl _) (fun _ h => h.1)), ?_, ?_, ?_, ?_⟩
    · rw [failNamed_link hinv hl, ← hstart.landing]
    · rw [failNamed_link hinv hl, ← hstart.waiting]
    · exact Eq.trans (failNamed_onlyParts (s := rxCounted s link) at_ due.seq .fresh (by decide)) hstart.fresh
    · unfold State.lnkHop State.lnkLegacy State.fbit
      rw [hnamed.flds hinv _ (legacy_kept link)]
      exact hstart.hop
  rw [frameFailed_stays hinv hl at_ due use hb, failLost_overruns hinv hl at_ due use (by
    change (s.link link).retry.contains (false, ((rxCounted s link).lnkSlot link (at_ - s.edgeAt)).1) = true
    rw [hslot, htaken])]
  exact (frameOverrun_overran (hnamed.keeps.inv hinv) hl at_ due.slot due.kind 0 use).lost hbefore hi

/-- A failed frame that waits for its retry slot, and its NAK. -/
theorem frameFailed_waits (hb : (s.link link).badRun ≠ 7)
    (hfree : (s.link link).retry.contains (false, (s.lnkSlot link (at_ - s.edgeAt)).1) = false) :
    let t := (rxCounted s link).frameFailed link at_ due use
    let k := s.link link
    let n := nakSlot s link at_
    let e := s.slotCycle link n.1 n.2
    let u := s.withLink link (fun k => { k with naks := k.naks ++ [due.seq] })
    (t.link link).waiting = k.waiting ++ [⟨due.seq, (s.lnkSlot link (at_ - s.edgeAt)).1, due.slot, due.kind, at_, use⟩] ∧
    (t.link link).badRun = k.badRun + 1 ∧ (t.link link).retry = (false, (s.lnkSlot link (at_ - s.edgeAt)).1) :: k.retry ∧
    (if s.slotSends link n.1 n.2 then (t.link link).naks = k.naks ++ [due.seq] ∧ t.outbox = s.outbox
      else (t.link link).naks = (k.naks ++ [due.seq]).drop 1 ∧
        t.outbox = s.outbox ++ frameOut u link e (s.seqAt link e) 0 n.2 0) ∧
    OnlyParts [.regs, .links, .outbox] s t := by
  have hregs := sameLinkRegs_rxCounted (s := s) hl
  have hinv := (rxCounted_start (s := s) hl hi).keeps.inv hi
  have hslot : ((rxCounted s link).lnkSlot link (at_ - (rxCounted s link).edgeAt)).1 = (s.lnkSlot link (at_ - s.edgeAt)).1 := by
    rw [hregs.1, hregs.lnkSlot hl]
  have hnak := nakSlot_congr hregs hl (c := at_)
  obtain ⟨hlink, hparts⟩ := failWaits_spec hinv hl at_ due use
  rw [hslot] at hparts
  have hout := failNamed_outbox hinv hl at_ due.seq
  have hframe (c x slot : Nat) : frameOut ((rxCounted s link).withLink link (fun k => { k with naks := k.naks ++ [due.seq] })) link c x 0 slot 0 =
      frameOut (s.withLink link (fun k => { k with naks := k.naks ++ [due.seq] })) link c x 0 slot 0 := by
    have hu : SameLinkRegs (s.withLink link (fun k => { k with naks := k.naks ++ [due.seq] }))
        ((rxCounted s link).withLink link (fun k => { k with naks := k.naks ++ [due.seq] })) := ⟨hregs.1, hregs.2⟩
    exact hu.frameOut_of hl (by rw [link_withLink_same hi hl, link_withLink_same hinv hl]; rfl)
      (by rw [link_withLink_same hi hl, link_withLink_same hinv hl]; rfl) _ _ _ _ _
  rw [hnak, slotSends_rxCounted hl, hregs.slotCycle hl, hregs.seqAt hl rfl, hframe] at hout
  rw [hslot, hnak, slotSends_rxCounted hl] at hlink
  have hstate : (rxCounted s link).frameFailed link at_ due use = failWaits (failNamed (rxCounted s link) link at_ due.seq) link at_
      (s.lnkSlot link (at_ - s.edgeAt)).1 due use := by
    rw [frameFailed_stays hinv hl at_ due use hb, failLost_waits hinv hl at_ due use (by rw [hslot]; exact hfree), hslot]
  intro t k n e u
  have ht : t = _ := hstate
  rw [ht]
  refine ⟨congrArg LinkSt.waiting hlink, congrArg LinkSt.badRun hlink, congrArg LinkSt.retry hlink, ?_, ?_⟩
  · have hnaks := congrArg LinkSt.naks hlink
    split at hout
    next h =>
      rw [if_pos h]
      exact ⟨hnaks.trans (if_pos h), hout⟩
    next h =>
      rw [if_neg h]
      exact ⟨hnaks.trans (if_neg h), hout⟩
  · exact ((fadd_onlyParts s _ 1).mono (by decide)).then hparts (by decide)

/-! ### A frame that is read -/

/-- A scheduled frame that is read is due a hop after its slot. -/
theorem frameTaken_scheduled {n : Nat} {v : State} (hv : RxRead link n s v) (f : FrameIn) (hk : scheduledKind f.kind = true) :
    let t := v.frameTaken link at_ f use
    (t.link link).landing = (s.link link).landing ++ [⟨at_ + s.lnkHop link, f.kind, false, some f.flit, use⟩] ∧
    Counts (lnkFld LNK_CNT_A_FRAMES link) 1 s t ∧ Counts (lnkFld LNK_CNT_A_CORRECTED link) n s t ∧ (t.link link).badRun = 0 ∧
    OnlyParts rxParts s t ∧ (f.nak = none → f.laneSwap = false → OnlyParts [.links] v t) := by
  have hw := hv.stands (frameHeard_stands (s := v) (l := link) f link)
  have hsame := link_withLink_same hw.inv hl (fun k => { k with landing := k.landing ++
    [⟨at_ + (frameHeard v link f).lnkHop link, f.kind, false, some f.flit, use⟩] })
  have hdeliver := withLink_onlyParts (frameHeard v link f) link (fun k => { k with landing := k.landing ++
    [⟨at_ + (frameHeard v link f).lnkHop link, f.kind, false, some f.flit, use⟩] })
  intro t
  have ht : t = (frameHeard v link f).frameDeliver link at_ f.kind false use (some f.flit) :=
    (frameTaken_eq v link at_ f use).trans (if_pos hk)
  rw [ht]
  refine ⟨?_, (fget_congr (hdeliver .regs (by decide)) _).trans hw.frames, (fget_congr (hdeliver .regs (by decide)) _).trans hw.corrected, ?_,
    hw.parts.then hdeliver (by decide), fun hn hs => ?_⟩
  · rw [State.frameDeliver, hsame, hw.landing, hw.hop]
  · rw [State.frameDeliver, hsame, hw.badRun]
  · have hplain := frameHeard_plain (s := v) (l := link) f hn hs
    rw [hplain] at hdeliver ⊢
    exact hdeliver

/-- A RETRY frame answers the frame that waits for it. -/
theorem frameTaken_retry (f : FrameIn) (hn : f.nak = none) (hw : f.laneSwap = false) (hk : f.kind = 4) {e : LinkWait}
    (he : (s.link link).waiting.find? (fun e => e.seq == f.seq) = some e) :
    let t := ((rxCounted s link).withLink link (fun k => { k with badRun := 0 })).frameTaken link at_ f use
    Counts (lnkFld LNK_CNT_B_RETRANSMITS link) 1 s t ∧ (t.link link).waiting = (s.link link).waiting.erase e ∧
    (t.link link).landing = (s.link link).landing ++ [⟨e.sent + s.lnkHop link, e.kind, false, some f.flit, e.use⟩] := by
  have hstart := rxCounted_start (s := s) hl hi
  have hread := rxRead_clean hi hl
  have hregs := fget_congr (withLink_onlyParts (rxCounted s link) link (fun k => { k with badRun := 0 }) .regs (by decide))
    (lnkFld LNK_CNT_B_RETRANSMITS link)
  have hlink : ((rxCounted s link).withLink link (fun k => { k with badRun := 0 })).link link = { s.link link with badRun := 0 } :=
    link_withLink_same (hstart.keeps.inv hi) hl _
  set v := (rxCounted s link).withLink link (fun k => { k with badRun := 0 })
  have hfound : (v.link link).waiting.find? (fun e => e.seq == f.seq) = some e := by rw [hlink]; exact he
  have hanswered := retryAnswered_link (s := v) hl e hread.inv
  have hinv := (retryAnswered_beside (s := v) hl e).keeps.inv hread.inv
  intro t
  have ht : t = (retryAnswered v link e).frameDeliver link e.sent e.kind false e.use (some f.flit) := by
    change v.frameTaken link at_ f use = _
    rw [frameTaken_eq, hk, if_neg (by decide), if_pos (by decide), frameHeard_plain f hn hw, frameRetried_answers hfound]
  have hlast : t.link link = { (retryAnswered v link e).link link with landing := ((retryAnswered v link e).link link).landing ++
      [⟨e.sent + (retryAnswered v link e).lnkHop link, e.kind, false, some f.flit, e.use⟩] } := by
    rw [ht, State.frameDeliver, link_withLink_same hinv hl]
  refine ⟨?_, ?_, ?_⟩
  · have hbefore : v.fget (lnkFld LNK_CNT_B_RETRANSMITS link) = s.fget (lnkFld LNK_CNT_B_RETRANSMITS link) :=
      hregs.trans (hstart.flds hi _ ⟨retransmits_kept link, lnkFld_ne link (by decide), lnkFld_ne link (by decide)⟩)
    have hcount := retryAnswered_counts (s := v) hl e hread.inv
    rw [Counts, hbefore] at hcount
    rw [ht]
    exact (fget_congr (withLink_onlyParts _ link _ .regs (by decide)) _).trans hcount
  · rw [hlast, hanswered, hlink]
  · rw [hlast, hanswered, hlink, retryAnswered_hop hl e hread.inv, hread.hop]

omit hi hl in
theorem frameTaken_elastic {v : State} (f : FrameIn) (hn : f.nak = none) (hw : f.laneSwap = false) (hk : f.kind = 5) :
    v.frameTaken link at_ f use = v.elasticIn link f.flit use := by
  rw [frameTaken_eq, hk, if_neg (by decide), if_neg (by decide), if_pos (by decide), frameHeard_plain f hn hw]

end

theorem elasticIn_own {v : State} {l flit : Nat} {use : FlitUse} (h : ∀ m, use ≠ .onward m) :
    v.elasticIn l flit use = v.emit (.msg "ELASTIC_IN" [l, flit]) := by
  cases use with
  | onward m => exact absurd rfl (h m)
  | port => rfl
  | gather a => rfl
  | checksum t c a o => rfl
  | count => rfl
  | total => rfl

/-- Settles O37: a frame lost on a link that is down, read, failed, answering a retry, or elastic. -/
theorem receivedFramesAreDeliveredOrRetried : Obligations.ReceivedFramesAreDeliveredOrRetried := by
  intro s at_ link due raw use hawake hactive hl hs d f k p run hop plain lost
  have hi : Inv (s.advance at_) := hawake.2
  have hadv := advance_onlyParts s at_
  have hrun : run = .next ((s.advance at_).frameReceived link at_ due raw use) := exec_frameReceived hawake hl hs due raw use hactive
  have hcounted : OnlyParts [.now, .regs, .links] s ((rxCounted (s.advance at_) link).withLink link (fun k => { k with badRun := 0 })) :=
    ((hadv.mono (by decide)).then (fadd_onlyParts _ _ _) (by decide)).then (withLink_onlyParts _ _ _) (by decide)
  rw [hrun]
  refine ⟨fun hm hk => ⟨_, rfl, ?_⟩, fun hm => ⟨fun hd hk => ⟨_, rfl, ?_⟩, fun hd hk => ⟨fun hb hfree => ?_, fun hb htaken => ⟨_, rfl, ?_⟩,
    fun hb => ⟨_, rfl, ?_⟩⟩, fun e hplain hk he => ⟨_, rfl, ?_⟩, fun hplain hk => ?_⟩⟩
  · rw [frameReceived_down at_ due raw use hi hl hm hk]
    have hstart := rxCounted_start (s := s.advance at_) hl hi
    exact Overran.lost (s := s.advance at_) (frameOverrun_overran (hstart.keeps.inv hi) hl at_ due.slot due.kind 1 use) hstart hi
  · rw [frameReceived_read at_ due raw use hi hl hm hd]
    obtain ⟨hland, hframes, hcorr, hbad, hparts, honly⟩ := frameTaken_scheduled (at_ := at_) hi hl use
      (rxRead_read hi hl (rxDecode (byteList 272 raw.toNat)).2 hd) (frameFields (rxDecode (byteList 272 raw.toNat)).1) hk
    refine ⟨hparts .now (by decide), hland, hframes, hcorr, hbad, hparts .mem (by decide), fun hplain => ?_⟩
    have hclean : rxRead (rxCounted (s.advance at_) link) link (rxDecode (byteList 272 raw.toNat)).2 =
        (rxCounted (s.advance at_) link).withLink link (fun k => { k with badRun := 0 }) := by
      have hc : (rxDecode (byteList 272 raw.toNat)).2 = .clean := hplain.1
      rw [hc]
      rfl
    have hlast := honly hplain.2.1 hplain.2.2
    rw [hclean] at hlast ⊢
    exact hcounted.then hlast (by decide)
  · rw [frameReceived_failed at_ due raw use hi hl hm hd hk]
    obtain ⟨hwait, hbad, hretry, hnak, hparts⟩ := frameFailed_waits (at_ := at_) hi hl due use hb hfree
    exact ⟨_, rfl, hwait, hbad, hretry, hnak, (hadv.mono (by decide)).then hparts (by decide)⟩
  · rw [frameReceived_failed at_ due raw use hi hl hm hd hk]
    exact frameFailed_overruns hi hl due use hb htaken
  · rw [frameReceived_failed at_ due raw use hi hl hm hd hk]
    exact frameFailed_goesDown hi hl due use hb
  · obtain ⟨hd, hn, hw⟩ := hplain
    rw [frameReceived_read at_ due raw use hi hl hm (by rw [hd]; decide), hd]
    exact frameTaken_retry hi hl use f hn hw hk he
  · obtain ⟨hd, hn, hw⟩ := hplain
    rw [frameReceived_read at_ due raw use hi hl hm (by rw [hd]; decide), hd, frameTaken_elastic use f hn hw hk]
    refine ⟨fun m hm16 huse => ⟨_, rfl, ?_⟩, fun huse => ⟨_, rfl, ?_⟩⟩
    · have hqueue : (((rxCounted (s.advance at_) link).withLink link (fun k => { k with badRun := 0 })).link m).elasticQ = (s.link m).elasticQ := by
        by_cases h : m = link
        · subst h
          exact link_withLink_stands (rxCounted (s.advance at_) m) m (fun k => { k with badRun := 0 }) LinkSt.elasticQ (fun _ => rfl)
        · exact congrArg LinkSt.elasticQ (link_withLink_ne (rxCounted (s.advance at_) link) _ h)
      have hinv := (rxRead_clean hi hl).inv
      subst huse
      refine ⟨?_, hcounted .outbox (by decide)⟩
      rw [← hqueue]
      exact congrArg LinkSt.elasticQ (link_withLink_same hinv hm16 _)
    · rw [elasticIn_own huse]
      have hemit := (beside_emit (K := fun _ => False) ((rxCounted (s.advance at_) link).withLink link (fun k => { k with badRun := 0 }))
        (.msg "ELASTIC_IN" [link, f.flit])).parts
      have hout := hcounted .outbox (by decide)
      exact ⟨congrArg (fun o : List Out => o ++ [.msg "ELASTIC_IN" [link, f.flit]]) hout, (hcounted.mono (by decide)).then hemit (by decide)⟩

end Sys2Proof.Laws
end

section
/-! PROOFS. What is due on links, and the use of a delivered flit (R320, R372, R381, R396, R404, R405). -/

namespace Sys2Proof.Laws

open Sys2Proof.Machine Sys2Proof.Safety

/-! ### What is due on links -/

theorem mem_zip_range' {α : Type} (d : α) : ∀ (xs : List α) (n lo : Nat) (k : Nat × α), xs.length = n →
    (k ∈ (range' lo n).zip xs ↔ ∃ i < n, k = (lo + i, xs.getD i d))
  | [], n, lo, k, h => by subst h; simp [range']
  | x :: xs, n, lo, k, h => by
    subst h
    rw [List.length_cons, range', List.zip_cons_cons, List.mem_cons, mem_zip_range' d xs xs.length (lo + 1) k rfl]
    constructor
    · rintro (rfl | ⟨i, hi, rfl⟩)
      · exact ⟨0, Nat.succ_pos _, rfl⟩
      · exact ⟨i + 1, Nat.succ_lt_succ hi, by rw [List.getD_cons_succ]; congr 1; omega⟩
    · rintro ⟨i, hi, rfl⟩
      cases i with
      | zero => exact .inl rfl
      | succ i => exact .inr ⟨i, Nat.lt_of_succ_lt_succ hi, by rw [List.getD_cons_succ]; congr 1; omega⟩

/-- The things due on the links, link by link. -/
theorem mem_linkDues {s : State} (hi : Inv s) {e : Nat × Due} : e ∈ linkDues s ↔
    ∃ l < 16, (∃ x ∈ (s.link l).landing, e = (x.at_, .flit l x)) ∨ ∃ x ∈ (s.link l).waiting, e = (x.sent + s.lnkHop l, .unanswered l x) := by
  rw [linkDues, List.mem_flatMap]
  constructor
  · rintro ⟨k, hk, he⟩
    obtain ⟨l, hl, rfl⟩ := (mem_zip_range' {} s.links 16 0 k hi.2.2.2.2).1 hk
    rw [Nat.zero_add, List.mem_append, List.mem_map, List.mem_map] at he
    rcases he with ⟨x, hx, rfl⟩ | ⟨x, hx, rfl⟩
    · exact ⟨l, hl, .inl ⟨x, hx, rfl⟩⟩
    · exact ⟨l, hl, .inr ⟨x, hx, rfl⟩⟩
  · rintro ⟨l, hl, h⟩
    refine ⟨(l, s.link l), (mem_zip_range' {} s.links 16 0 _ hi.2.2.2.2).2 ⟨l, hl, by rw [Nat.zero_add]; rfl⟩, ?_⟩
    rw [List.mem_append, List.mem_map, List.mem_map]
    rcases h with ⟨x, hx, rfl⟩ | ⟨x, hx, rfl⟩
    · exact .inl ⟨x, hx, rfl⟩
    · exact .inr ⟨x, hx, rfl⟩

section
variable {s : State} (hi : Inv s) {c l y : Nat}

theorem mem_dues_links {e : Nat × Due} (h : e ∈ linkDues s) : e ∈ s.dues := by
  change e ∈ _ ++ _ ++ _ ++ _ ++ linkDues s ++ _
  exact List.mem_append_left _ (List.mem_append_right _ h)

theorem linkDues_sublist (s : State) : (linkDues s).Sublist s.dues :=
  (List.sublist_append_right _ _).trans (List.sublist_append_left _ _)

include hi

/-- A frame that is due lands on its link. -/
theorem flit_of_due {x : FlitDue} (h : (y, Due.flit l x) ∈ s.dues) : x ∈ (s.link l).landing ∧ y = x.at_ ∧ l < 16 := by
  have hl : (y, Due.flit l x) ∈ linkDues s := by
    change _ ∈ _ ++ _ ++ _ ++ _ ++ linkDues s ++ _ at h
    simp only [List.mem_append, List.mem_map, List.mem_flatMap, Prod.mk.injEq, reduceCtorEq, and_false, exists_false, or_false, false_or] at h
    rcases h with ⟨j, -, h⟩ | h
    · rcases mem_jobDues h with ⟨_, _, e⟩ | ⟨_, e⟩ <;> exact absurd e (by simp)
    · exact h
  obtain ⟨m, hm, ⟨z, hz, e⟩ | ⟨z, -, e⟩⟩ := (mem_linkDues hi).1 hl
  · obtain ⟨hy, e⟩ := Prod.mk.inj e
    obtain ⟨rfl, rfl⟩ := Due.flit.inj e
    exact ⟨hz, hy, hm⟩
  · exact absurd (Prod.mk.inj e).2 (by simp)

/-- A frame whose retry is due waits on its link. -/
theorem unanswered_of_due {x : LinkWait} (h : (y, Due.unanswered l x) ∈ s.dues) :
    x ∈ (s.link l).waiting ∧ y = x.sent + s.lnkHop l ∧ l < 16 := by
  have hl : (y, Due.unanswered l x) ∈ linkDues s := by
    change _ ∈ _ ++ _ ++ _ ++ _ ++ linkDues s ++ _ at h
    simp only [List.mem_append, List.mem_map, List.mem_flatMap, Prod.mk.injEq, reduceCtorEq, and_false, exists_false, or_false, false_or] at h
    rcases h with ⟨j, -, h⟩ | h
    · rcases mem_jobDues h with ⟨_, _, e⟩ | ⟨_, e⟩ <;> exact absurd e (by simp)
    · exact h
  obtain ⟨m, hm, ⟨z, -, e⟩ | ⟨z, hz, e⟩⟩ := (mem_linkDues hi).1 hl
  · exact absurd (Prod.mk.inj e).2 (by simp)
  · obtain ⟨hy, e⟩ := Prod.mk.inj e
    obtain ⟨rfl, rfl⟩ := Due.unanswered.inj e
    exact ⟨hz, hy, hm⟩

/-- The things due on one link are among those due. -/
theorem oneLink_sublist (hl : l < 16) : ((s.link l).landing.map (fun x => (x.at_, Due.flit l x)) ++
    (s.link l).waiting.map (fun x => (x.sent + s.lnkHop l, Due.unanswered l x))).Sublist s.dues := by
  refine List.Sublist.trans ?_ (linkDues_sublist s)
  have hm : (l, s.link l) ∈ (range' 0 16).zip s.links :=
    (mem_zip_range' {} s.links 16 0 _ hi.2.2.2.2).2 ⟨l, hl, by rw [Nat.zero_add]; rfl⟩
  rw [linkDues, List.flatMap_def]
  exact List.sublist_flatten_of_mem (List.mem_map_of_mem (f := fun k : Nat × LinkSt => k.2.landing.map (fun x => (x.at_, Due.flit k.1 x)) ++
      k.2.waiting.map (fun x => (x.sent + s.lnkHop k.1, Due.unanswered k.1 x))) hm)

end

/-- What a list lists once is not in it when it has been taken out. -/
theorem notMem_erase_of_once {α β : Type} [DecidableEq α] [DecidableEq β] {f : α → β} {x : α} {xs : List α} {ds : List β} {p : β → Bool}
    (hsub : (xs.map f).Sublist ds) (hd : ds.filter p = [f x]) : x ∉ xs.erase x := fun hm => by
  have hp : p (f x) = true := (List.mem_filter.1 (hd ▸ List.mem_singleton_self (f x) : f x ∈ ds.filter p)).2
  have h1 : xs.count x ≤ (xs.map f).count (f x) := List.count_le_count_map
  have h2 : (xs.map f).count (f x) ≤ ds.count (f x) := hsub.count_le _
  have h3 : (ds.filter p).count (f x) = ds.count (f x) := List.count_filter hp
  have h4 : 0 < (xs.erase x).count x := List.count_pos_iff.2 hm
  rw [List.count_erase_self] at h4
  rw [hd, List.count_singleton_self] at h3
  omega

end Sys2Proof.Laws
end

section
/-! PROOFS. A delivered flit and its use (R302, R320, R372, R374, R380, R382, R404, R405). -/

namespace Sys2Proof.Laws

open Sys2Proof.Machine Sys2Proof.Safety

/-! ### The use of a flit -/

/-- The registers from the links' windows on. -/
abbrev LinkWindows (f : Fld) : Prop := 0xC000000 ≤ f.base

/-- What the use of a flit can touch. -/
abbrev useParts : List Part := [.regs, .run, .mem, .fifos, .cap, .links, .outbox]

/-- What the use of a flit leaves of the links and of what is due. -/
structure UseStands (v w : State) : Prop extends Beside LinkWindows useParts v w where
  landing : ∀ l, (w.link l).landing = (v.link l).landing
  waiting : ∀ l, (w.link l).waiting = (v.link l).waiting
  last : ∀ l, (w.link l).last = (v.link l).last
  regs : SameLinkRegs v w
  tree : w.run.treeDue = v.run.treeDue

section
variable {v w : State}

theorem UseStands.of_parts {ps : List Part} (h : Beside LinkWindows ps v w) (hp : ps ⊆ useParts ∧ .links ∉ ps ∧ .regs ∉ ps)
    (ht : w.run.treeDue = v.run.treeDue) : UseStands v w := by
  have hl := OnlyParts.link h.parts hp.2.1
  exact ⟨h.mono hp.1 (fun _ => id), fun l => by rw [hl], fun l => by rw [hl], fun l => by rw [hl],
    .of_regs (h.parts.mono hp.1 .edgeAt (by decide)) (h.parts .regs hp.2.2), ht⟩

theorem UseStands.refl (v : State) : UseStands v v := ⟨.refl _ _ v, fun _ => rfl, fun _ => rfl, fun _ => rfl, .refl v, rfl⟩

theorem useStands_withLink (v : State) (m : Nat) (f : LinkSt → LinkSt)
    (hf : ∀ k, (f k).landing = k.landing ∧ (f k).waiting = k.waiting ∧ (f k).last = k.last) : UseStands v (v.withLink m f) := by
  have hb : Beside LinkWindows useParts v (v.withLink m f) := (beside_withLink v m f).mono (by decide) (fun _ => id)
  have hl {α : Type} (g : LinkSt → α) (hg : ∀ k, g (f k) = g k) (l : Nat) : g ((v.withLink m f).link l) = g (v.link l) := by
    by_cases h : l = m
    · subst h
      exact link_withLink_stands v l f g hg
    · rw [link_withLink_ne v f h]
  exact ⟨hb, hl _ (fun k => (hf k).1), hl _ (fun k => (hf k).2.1), hl _ (fun k => (hf k).2.2), sameLinkRegs_withLink v m f, rfl⟩

theorem useStands_putFrame (v : State) (m c seq kind slot flit : Nat) : UseStands v (v.putFrame m c seq kind slot flit) := by
  have h := useStands_withLink v m (fun k => { k with naks := k.naks.drop 1 }) (fun _ => ⟨rfl, rfl, rfl⟩)
  have hout : OutGrows v (v.putFrame m c seq kind slot flit) := by
    unfold OutGrows
    rw [putFrame_outbox]
    exact List.prefix_append _ _
  have hlink (l : Nat) : (v.putFrame m c seq kind slot flit).link l = (v.withLink m (fun k => { k with naks := k.naks.drop 1 })).link l :=
    link_congr (putFrame_links v m c seq kind slot flit) l
  refine ⟨⟨(putFrame_onlyParts v m c seq kind slot flit).mono (by decide), putFrame_keeps _ _ _ _ _ _ _ (.refl v),
    fun _ g _ => fget_congr (putFrame_onlyParts v m c seq kind slot flit .regs (by decide)) g, .of_run (putFrame_onlyParts v m c seq kind slot flit .run (by decide)), hout⟩,
    fun l => ?_, fun l => ?_, fun l => ?_, SameLinkRegs.of_regs (putFrame_onlyParts v m c seq kind slot flit .edgeAt (by decide))
      (putFrame_onlyParts v m c seq kind slot flit .regs (by decide)), congrArg TickRun.treeDue (putFrame_onlyParts v m c seq kind slot flit .run (by decide))⟩
  · rw [hlink, h.landing]
  · rw [hlink, h.waiting]
  · rw [hlink, h.last]

theorem UseStands.next {u : State} (h : UseStands u v) (g : UseStands v w) : UseStands u w :=
  ⟨h.toBeside.trans g.toBeside, fun l => (g.landing l).trans (h.landing l), fun l => (g.waiting l).trans (h.waiting l),
    fun l => (g.last l).trans (h.last l), h.regs.trans g.regs, g.tree.trans h.tree⟩

theorem useStands_linkSend (v : State) (m c kind flit : Nat) : UseStands v (v.linkSend m c kind flit) := by
  refine (useStands_withLink v m _ ?_).next (useStands_putFrame _ _ _ _ _ _ _)
  exact fun _ => ⟨rfl, rfl, rfl⟩

theorem useStands_sendFrames (c kind flit : Nat) : ∀ (links : List Nat) (v : State), UseStands v (v.sendFrames links c kind flit)
  | [], v => .refl v
  | l :: links, v => (useStands_linkSend v l c kind flit).next (useStands_sendFrames c kind flit links _)

end

/-! ### A checksum that differs (R320) -/

/-- The mark of a checksum that differs, in the tick to which R302 attributes it. -/
def checksumMarked (s : State) : State :=
  if s.run.healthSent then s.withRun (fun r => { r with lateChecksum := true }) else s.withRun (fun r => { r with checksum := true })

theorem checksumBad_eq (s : State) : s.checksumBad =
    ((checksumMarked s).fadd COMMIT_CNT1_CHECKSUM_MISMATCHES 1).classBSts 0 COMMIT_STS_CHECKSUM := rfl

section
variable (s : State)

theorem checksumMarked_run : (checksumMarked s).run =
    if s.run.healthSent then { s.run with lateChecksum := true } else { s.run with checksum := true } := by
  unfold checksumMarked
  split <;> rfl

theorem checksumMarked_onlyParts : OnlyParts [.run] s (checksumMarked s) :=
  .ite (withRun_onlyParts s _) (withRun_onlyParts s _)

theorem checksumMarked_beside (K : Fld → Prop) : Beside K [.run] s (checksumMarked s) := by
  have hm : TickMarks s (checksumMarked s) := by
    constructor <;> rw [checksumMarked_run] <;> split <;> first | exact id | rfl
  refine ⟨checksumMarked_onlyParts s, ?_, fun _ g _ => fget_congr (checksumMarked_onlyParts s .regs (by decide)) g, hm,
    .of_parts (checksumMarked_onlyParts s) (by decide)⟩
  unfold checksumMarked
  split <;> exact withRun_keeps s _ (.refl s)

theorem linkWindows_not_note {f : Fld} (h : LinkWindows f) : f.base ∉ noteRegs := by
  have hall : ∀ k ∈ noteRegs, k < 0xC000000 := by decide
  exact fun hm => absurd (hall _ hm) (Nat.not_lt.2 h)

/-- A field of the commit block lies below the links' windows. -/
theorem commit_apart {f : Fld} (hf : f = COMMIT_CNT1_CHECKSUM_MISMATCHES ∨ f = COMMIT_STS_CHECKSUM) : ApartFrom LinkWindows f := by
  have hb : f.base < 0xC000000 ∧ f.lo + f.wd ≤ 64 := by rcases hf with rfl | rfl <;> decide
  exact ⟨hb.2, fun g hg => apart_of_base (by have : 0xC000000 ≤ g.base := hg; omega)⟩

theorem checksumBad_beside : Beside LinkWindows [.regs, .run, .fifos, .cap, .outbox] s s.checksumBad :=
  (((checksumMarked_beside s _).mono (by decide) (fun _ => id)).then (beside_fadd _ _ 1 (commit_apart (.inl rfl))) (by decide)).then
    (beside_classBSts _ (fun _ => linkWindows_not_note) 0 _ (commit_apart (.inr rfl))) (by decide)

theorem only_checksumBad : OnlyRegs (COMMIT_CNT1_CHECKSUM_MISMATCHES.base :: COMMIT_STS_CHECKSUM.base :: noteRegs) s s.checksumBad :=
  (((checksumMarked_onlyParts s).onlyRegs (by decide) _).trans (only_fadd _ _ 1 (.head _))).trans
    (only_classBSts _ 0 _ (fun _ h => .tail _ (.tail _ h)) (.tail _ (.head _)))

theorem checksumBad_run : s.checksumBad.run.treeDue = s.run.treeDue ∧ s.checksumBad.run.childTokens = s.run.childTokens ∧
    (if s.run.healthSent then s.checksumBad.run.lateChecksum else s.checksumBad.run.checksum) = true := by
  rw [checksumBad_eq, classBSts_run, fadd_onlyParts _ _ _ .run (by decide), checksumMarked_run]
  cases h : s.run.healthSent <;> simp [h]

theorem checksumBad_counts (hi : Inv s) : Counts COMMIT_CNT1_CHECKSUM_MISMATCHES 1 s s.checksumBad ∧
    s.checksumBad.fbit COMMIT_STS_CHECKSUM = true := by
  have hmarked : Inv (checksumMarked s) := (checksumMarked_beside s LinkWindows).keeps.inv hi
  have hadded := (fadd_keeps (checksumMarked s) COMMIT_CNT1_CHECKSUM_MISMATCHES 1 (.refl _)).inv hmarked
  have hcount := counts_fadd hmarked COMMIT_CNT1_CHECKSUM_MISMATCHES 1 (by decide)
  rw [Counts, fget_congr (checksumMarked_onlyParts s .regs (by decide))] at hcount
  have hlast := beside_classBSts (K := (· = COMMIT_CNT1_CHECKSUM_MISMATCHES)) ((checksumMarked s).fadd COMMIT_CNT1_CHECKSUM_MISMATCHES 1)
    (by rintro g rfl; decide) 0 COMMIT_STS_CHECKSUM ⟨by decide, by rintro g rfl; decide⟩
  exact ⟨hlast.after_counts hadded rfl hcount, fbit_classBSts _ _ _ hadded.1.1 (by decide) (by decide) (by decide)⟩

theorem checksumBad_raisesB : RaisesB s s.checksumBad :=
  (TickMarks.trans (checksumMarked_beside s LinkWindows).marks (.of_run (fadd_onlyParts _ _ _ .run (by decide)))).then_raisesB
    (classBSts_raisesB _ _ _)

theorem useStands_checksumBad : UseStands s s.checksumBad := by
  have h := checksumBad_beside s
  have hl := OnlyParts.link h.parts (by decide)
  have hk : ∀ k ∈ linkKeys, k ∉ COMMIT_CNT1_CHECKSUM_MISMATCHES.base :: COMMIT_STS_CHECKSUM.base :: noteRegs := by decide
  exact ⟨h.mono (by decide) (fun _ => id), fun l => by rw [hl], fun l => by rw [hl], fun l => by rw [hl],
    .of_only (h.parts .edgeAt (by decide)) (only_checksumBad s) hk, (checksumBad_run s).1⟩

end

/-- A delivered flit used leaves what waits and lands on the links. -/
theorem useStands_useFlit (s : State) (use : FlitUse) (flit : Nat) : UseStands s (s.useFlit use flit) := by
  cases use with
  | port => exact .refl s
  | gather a =>
    exact .of_parts (ps := [.mem]) (.of_parts (wrGranule_onlyParts s a _) (wrGranule_keeps s a _ (.refl s)) (by decide)) (by decide)
      (congrArg TickRun.treeDue (wrGranule_onlyParts s a _ .run (by decide)))
  | onward l => exact useStands_withLink s l _ (fun _ => ⟨rfl, rfl, rfl⟩)
  | count => exact .of_parts (ps := [.run]) (beside_withRun s (fun r => { r with childTokens := r.childTokens + flit % 2 ^ 64 })
      ⟨rfl, id, id, id, id⟩) (by decide) rfl
  | total => exact useStands_sendFrames _ _ _ _ s
  | checksum tensor c a owner =>
    unfold State.useFlit
    dsimp only
    split
    next => 
      split
      next => split <;> [exact useStands_checksumBad s; exact .refl s]
      next => exact .refl s
    next => exact .refl s

end Sys2Proof.Laws
end

section
/-! PROOFS. Frames on their delivery cycle: landed, or overrun for want of a retry (R372, R374, R380, R382). -/

namespace Sys2Proof.Laws

open Sys2Proof.Machine Sys2Proof.Safety

/-! ### A flit that lands -/

/-- What goes to the port of a frame's RECEIVE entry. -/
def flitOut (s : State) (l : Nat) (x : FlitDue) : Out :=
  .msg "FRAME_DELIVER" ([l, x.at_, x.kind, x.lost.toNat] ++ s.receivedBy l x.at_ ++ x.flit.toList)

/-- A frame taken off its link, before its flit is used. -/
def flitTaken (s : State) (l : Nat) (x : FlitDue) : State :=
  (s.withLink l (fun k => { k with
    landing := k.landing.erase x, last := if x.kind == 1 then x.flit.map (fun v => (x.at_, v)) else k.last })).emit (flitOut s l x)

theorem receivedBy_congr {s t : State} (h : SameLinkRegs s t) (himg : t.image = s.image) (hm : t.fget HULL_ORCH_MODULE = s.fget HULL_ORCH_MODULE)
    (hp : t.fget TICK_PLAN_CUR = s.fget TICK_PLAN_CUR) {l : Nat} (hl : l < 16) (c : Nat) : t.receivedBy l c = s.receivedBy l c := by
  simp only [State.receivedBy, linkWords_congr himg hm hp, h.lnkSlot hl, h.lnkWin hl, h.1]

theorem landFlit_eq (s : State) {l : Nat} (hl : l < 16) (x : FlitDue) : s.landFlit l x =
    match x.flit with | some v => (flitTaken s l x).useFlit x.use v | none => flitTaken s l x := by
  have h : (s.withLink l (fun k => { k with
      landing := k.landing.erase x, last := if x.kind == 1 then x.flit.map (fun v => (x.at_, v)) else k.last })).receivedBy l x.at_ =
      s.receivedBy l x.at_ := receivedBy_congr (sameLinkRegs_withLink s l _) rfl rfl rfl hl x.at_
  simp only [State.landFlit, flitTaken, flitOut, h] <;> rfl

section
variable {s : State} {l : Nat} (hi : Inv s) (hl : l < 16) (x : FlitDue)

theorem flitTaken_onlyParts : OnlyParts [.links, .outbox] s (flitTaken s l x) :=
  ((withLink_onlyParts s l _).mono (by decide)).then (beside_emit (K := fun _ => False) _ _).parts (by decide)

theorem flitTaken_keeps : Keeps s (flitTaken s l x) := emit_keeps _ _ (withLink_keeps s l _ (.refl s))

theorem flitTaken_outbox : (flitTaken s l x).outbox = s.outbox ++ [flitOut s l x] := rfl

theorem flitTaken_link_ne {m : Nat} (h : m ≠ l) : (flitTaken s l x).link m = s.link m := link_withLink_ne s _ h

theorem flitTaken_regs : SameLinkRegs s (flitTaken s l x) := SameLinkRegs.of_regs rfl rfl

theorem landFlit_stands (hl : l < 16) : UseStands (flitTaken s l x) (s.landFlit l x) := by
  rw [landFlit_eq s hl]
  cases x.flit with
  | none => exact .refl _
  | some v => exact useStands_useFlit _ _ _

include hi hl

theorem flitTaken_link : (flitTaken s l x).link l = { s.link l with
    landing := (s.link l).landing.erase x, last := if x.kind == 1 then x.flit.map (fun v => (x.at_, v)) else (s.link l).last } :=
  link_withLink_same hi hl _

theorem landFlit_landing : ((s.landFlit l x).link l).landing = (s.link l).landing.erase x := by
  rw [(landFlit_stands x hl).landing, flitTaken_link hi hl]

theorem landFlit_waiting (m : Nat) : ((s.landFlit l x).link m).waiting = (s.link m).waiting := by
  rw [(landFlit_stands x hl).waiting]
  by_cases h : m = l
  · rw [h, flitTaken_link hi hl]
  · rw [flitTaken_link_ne x h]

/-- What is due after a flit has landed was due before. -/
theorem duesAmong_landFlit : DuesAmong s (s.landFlit l x) := by
  have htaken := flitTaken_onlyParts (s := s) (l := l) x
  have huse := landFlit_stands (s := s) x hl
  have hparts : OnlyParts useParts s (s.landFlit l x) := (htaken.mono (by decide)).trans huse.parts
  have hregs : SameLinkRegs s (s.landFlit l x) := (flitTaken_regs x).trans huse.regs
  have hinv := (landFlit_keeps s l x (.refl s)).inv hi
  have ht : (s.landFlit l x).tiles = s.tiles := hparts .tiles (by decide)
  have hv : (s.landFlit l x).solver = s.solver := hparts .solver (by decide)
  refine ⟨by rw [ht]; exact fun _ => id, opTagAt_congr (by rw [ht]) (by rw [ht]), by rw [hv]; exact fun _ => id, by rw [hv]; exact fun _ => id,
    by rw [show (s.landFlit l x).hub = s.hub from hparts .hub (by decide)]; exact fun _ => id, fun e he => ?_, ?_,
    by rw [show (s.landFlit l x).job = s.job from hparts .job (by decide)]⟩
  · obtain ⟨m, hm, h⟩ := (mem_linkDues hinv).1 he
    refine (mem_linkDues hi).2 ⟨m, hm, ?_⟩
    rw [landFlit_waiting hi hl x, hregs.lnkHop hm, huse.landing] at h
    by_cases hml : m = l
    · subst hml
      rw [flitTaken_link hi hl] at h
      exact h.imp (fun ⟨y, hy, e⟩ => ⟨y, List.mem_of_mem_erase hy, e⟩) id
    · rwa [flitTaken_link_ne x hml] at h
  · rw [huse.tree, show (flitTaken s l x).run = s.run from htaken .run (by decide)]
    exact fun _ => id

end

/-- A flit's step: time comes to its cycle, and it lands. -/
theorem upTo_flit {s : State} (hi : Inv s) {l c : Nat} {x : FlitDue} (hd : s.dueBy c = [(x.at_, .flit l x)]) :
    s.upTo c = ((s.advance x.at_).landFlit l x).advance c := by
  obtain ⟨-, -, hl⟩ := flit_of_due hi (dueBy_single hd).1
  have hi' : Inv (s.advance x.at_) := hi
  refine upTo_one hd ((duesAmong_advance s x.at_).trans (duesAmong_landFlit hi' hl x)) (fun h => ?_)
  have hinv : Inv (s.comeAbout (x.at_, .flit l x)) := (landFlit_keeps _ l x (.refl _)).inv hi'
  obtain ⟨hm, -, -⟩ := flit_of_due hinv h
  have hland : ((s.comeAbout (x.at_, .flit l x)).link l).landing = (s.link l).landing.erase x := landFlit_landing hi' hl x
  rw [hland] at hm
  have hd' : s.dues.filter (fun d => decide (d.1 ≤ c)) = [(fun x : FlitDue => (x.at_, Due.flit l x)) x] := hd
  exact notMem_erase_of_once (f := fun x : FlitDue => (x.at_, Due.flit l x)) ((List.sublist_append_left _ _).trans (oneLink_sublist hi hl)) hd' hm

/-! ### A frame that no RETRY frame has answered -/

/-- The registers that an overrun touches. -/
def overrunRegs (l : Nat) : List Nat :=
  (lnkFld LNK_CNT_B_OVERRUNS l).base :: (LNK_ERR_FIRST_VALID.die (l / 4)).base :: (LNK_STS_OVERRUN.die (l / 4)).base :: noteRegs

theorem overrunRegs_apart {l : Nat} (hl : l < 16) : ∀ k ∈ HULL_ORCH_MODULE.base :: TICK_PLAN_CUR.base :: linkKeys, k ∉ overrunRegs l := by
  revert l
  decide

section
variable {s : State} {l : Nat} (hl : l < 16) (c slot kind cause : Nat) (use : FlitUse)

theorem frameOverrun_regs : (s.frameOverrun l c slot kind cause use).regs = (linkOverrun s l slot kind cause).regs := by
  rw [frameOverrun_eq]
  split <;> rfl

include hl

theorem only_frameOverrun : OnlyRegs (overrunRegs l) s (s.frameOverrun l c slot kind cause use) := by
  have h : OnlyRegs (overrunRegs l) s (linkOverrun s l slot kind cause) :=
    ((only_fadd s _ 1 (.head _)).trans (only_lnkFirst hl _ cause slot kind (.tail _ (.head _)))).trans
      (only_classBSts _ _ _ (fun _ m => .tail _ (.tail _ (.tail _ m))) (.tail _ (.tail _ (.head _))))
  exact h.trans (OnlyRegs.same (OnlyRegs.refl _ _) (frameOverrun_regs c slot kind cause use))

theorem frameOverrun_linkRegs : SameLinkRegs s (s.frameOverrun l c slot kind cause use) := by
  refine .of_only ?_ (only_frameOverrun hl c slot kind cause use) (fun k hk => overrunRegs_apart hl k (.tail _ (.tail _ hk)))
  rw [frameOverrun_eq]
  have h : (linkOverrun s l slot kind cause).edgeAt = s.edgeAt := (linkOverrun_beside (s := s) hl slot kind cause).parts .edgeAt (by decide)
  split <;> exact h

theorem frameOverrun_link_ne {m : Nat} (hm : m ≠ l) : (s.frameOverrun l c slot kind cause use).link m = s.link m := by
  have h : (linkOverrun s l slot kind cause).link m = s.link m :=
    OnlyParts.link (linkOverrun_beside hl slot kind cause).parts (by decide) m
  rw [frameOverrun_eq]
  split <;> exact (link_withLink_ne _ _ hm).trans h

theorem frameOverrun_tree : (s.frameOverrun l c slot kind cause use).run.treeDue = s.run.treeDue := by
  have hrun : (s.frameOverrun l c slot kind cause use).run = (linkOverrun s l slot kind cause).run := by
    rw [frameOverrun_eq]
    split <;> rfl
  rw [hrun, linkOverrun, classBSts_run, (beside_lnkFirst _ hl cause slot kind).parts .run (by decide), fadd_onlyParts _ _ _ .run (by decide)]
  split <;> rfl

end

end Sys2Proof.Laws
end

section
/-! PROOFS. O38, from a flit that lands and a frame that no RETRY frame has answered. -/

namespace Sys2Proof.Laws

open Sys2Proof.Machine Sys2Proof.Safety

/-! ### A frame that no RETRY frame has answered comes about, and is delivered lost -/

/-- The state in which an unanswered frame has overrun. -/
def waitOver (s : State) (l : Nat) (x : LinkWait) : State := (s.advance (x.sent + s.lnkHop l)).unanswered l x

section
variable {s : State} {l : Nat} (hi : Inv s) (hl : l < 16) (x : LinkWait)

include hl

theorem waitOver_regs : SameLinkRegs s (waitOver s l x) :=
  ((sameLinkRegs_advance s _).trans (sameLinkRegs_withLink _ l _)).trans (frameOverrun_linkRegs hl x.sent x.slot x.kind 1 x.use)

theorem only_waitOver : OnlyRegs (overrunRegs l) s (waitOver s l x) :=
  (((advance_onlyParts s _).onlyRegs (by decide) _).trans ((withLink_onlyParts _ l _).onlyRegs (by decide) _)).trans
    (only_frameOverrun hl x.sent x.slot x.kind 1 x.use)

omit hl in
theorem waitOver_start : OnlyParts [.now, .links] s ((s.advance (x.sent + s.lnkHop l)).withLink l (fun k => { k with waiting := k.waiting.erase x })) :=
  ((advance_onlyParts s _).mono (by decide)).then (withLink_onlyParts _ l _) (by decide)

include hi

theorem waitOver_overran : Overran l x.sent x.kind x.use
    ((s.advance (x.sent + s.lnkHop l)).withLink l (fun k => { k with waiting := k.waiting.erase x })) (waitOver s l x) := by
  have hi' : Inv (s.advance (x.sent + s.lnkHop l)) := hi
  exact frameOverrun_overran ((withLink_keeps _ l _ (.refl _)).inv hi') hl x.sent x.slot x.kind 1 x.use

/-- The frame due as lost then. -/
theorem waitOver_flit : lostFlit ((s.advance (x.sent + s.lnkHop l)).withLink l (fun k => { k with waiting := k.waiting.erase x })) l x.sent x.kind x.use =
    lostFlit s l x.sent x.kind x.use := rfl

theorem waitOver_link : (waitOver s l x).link l = { s.link l with
    waiting := (s.link l).waiting.erase x, landing := (s.link l).landing ++ [lostFlit s l x.sent x.kind x.use] } := by
  have hi' : Inv (s.advance (x.sent + s.lnkHop l)) := hi
  rw [(waitOver_overran hi hl x).link, waitOver_flit hi hl x, link_withLink_same hi' hl]
  rfl

omit hi in
theorem waitOver_link_ne {m : Nat} (hm : m ≠ l) : (waitOver s l x).link m = s.link m :=
  (frameOverrun_link_ne hl x.sent x.slot x.kind 1 x.use hm).trans (link_withLink_ne _ _ hm)

theorem waitOver_onlyParts : OnlyParts (.now :: rxParts) s (waitOver s l x) :=
  ((waitOver_start x).mono (by decide)).then (waitOver_overran hi hl x).beside.parts (by decide)

theorem waitOver_inv : Inv (waitOver s l x) := by
  have hi' : Inv (s.advance (x.sent + s.lnkHop l)) := hi
  exact (waitOver_overran hi hl x).beside.keeps.inv ((withLink_keeps _ l _ (.refl _)).inv hi')

/-- What is due after the overrun: what was due before, without the frame that waited, and the frame due as lost. -/
theorem waitOver_dues {e : Nat × Due} (he : e ∈ (waitOver s l x).dues) :
    e ∈ s.dues ∨ e = ((lostFlit s l x.sent x.kind x.use).at_, .flit l (lostFlit s l x.sent x.kind x.use)) := by
  have hparts := waitOver_onlyParts hi hl x
  have hregs := waitOver_regs (s := s) hl x
  have ht : (waitOver s l x).tiles = s.tiles := hparts .tiles (by decide)
  have hv : (waitOver s l x).solver = s.solver := hparts .solver (by decide)
  have htree : (waitOver s l x).run.treeDue = s.run.treeDue := frameOverrun_tree hl x.sent x.slot x.kind 1 x.use
  have hother : DuesAmong s { waitOver s l x with links := s.links } :=
    { flights := by rw [ht]; exact fun _ => id
      tags := opTagAt_congr (by rw [ht]) (by rw [ht])
      jobs := by rw [hv]; exact fun _ => id
      carries := by rw [hv]; exact fun _ => id
      writes := by rw [show (waitOver s l x).hub = s.hub from hparts .hub (by decide)]; exact fun _ => id
      links := by rw [linkDues_congr (s := s) (t := { waitOver s l x with links := s.links }) rfl ⟨hregs.1, hregs.2⟩]; exact fun _ => id
      tree := by rw [htree]; exact fun _ => id
      edge := by rw [show (waitOver s l x).job = s.job from hparts .job (by decide)] }
  have hcases : e ∈ State.dues { waitOver s l x with links := s.links } ∨ e ∈ linkDues (waitOver s l x) := by
    change e ∈ _ ++ _ ++ _ ++ _ ++ linkDues (waitOver s l x) ++ _ at he
    change e ∈ _ ++ _ ++ _ ++ _ ++ linkDues { waitOver s l x with links := s.links } ++ _ ∨ _
    simp only [List.mem_append] at he ⊢
    rcases he with (((((he | he) | he) | he) | he) | he)
    · exact .inl (.inl (.inl (.inl (.inl (.inl he)))))
    · exact .inl (.inl (.inl (.inl (.inl (.inr he)))))
    · exact .inl (.inl (.inl (.inl (.inr he))))
    · exact .inl (.inl (.inl (.inr he)))
    · exact .inr he
    · exact .inl (.inr he)
  rcases hcases with h | h
  · exact .inl (hother.dues h)
  · obtain ⟨m, hm, h⟩ := (mem_linkDues (waitOver_inv hi hl x)).1 h
    rw [hregs.lnkHop hm] at h
    by_cases hml : m = l
    · subst hml
      rw [waitOver_link hi hl x] at h
      rcases h with ⟨y, hy, e⟩ | ⟨y, hy, e⟩
      · rcases List.mem_append.1 hy with hy | hy
        · exact .inl (mem_dues_links ((mem_linkDues hi).2 ⟨m, hm, .inl ⟨y, hy, e⟩⟩))
        · rw [List.mem_singleton.1 hy] at e
          exact .inr e
      · exact .inl (mem_dues_links ((mem_linkDues hi).2 ⟨m, hm, .inr ⟨y, List.mem_of_mem_erase hy, e⟩⟩))
    · rw [waitOver_link_ne hl x hml] at h
      exact .inl (mem_dues_links ((mem_linkDues hi).2 ⟨m, hm, h⟩))

end

theorem firstDue_of_all {d : Nat × Due} : ∀ {ds : List (Nat × Due)}, ds ≠ [] → (∀ e ∈ ds, e = d) → firstDue ds = some d
  | [], h, _ => absurd rfl h
  | [e], _, h => by rw [h e (.head _)]; rfl
  | e :: f :: ds, _, h => by
    rw [firstDue, firstDue_of_all (List.cons_ne_nil f ds) (fun g hg => h g (.tail _ hg)), h e (.head _)]
    exact if_pos (Nat.le_refl _)

theorem lostFlit_at (s : State) (l c kind : Nat) (use : FlitUse) : (lostFlit s l c kind use).at_ = c + s.lnkHop l := by
  unfold lostFlit
  split <;> rfl

/-- The step of a frame that no RETRY frame has answered: it overruns, and lands as lost. -/
theorem upTo_unanswered {s : State} (hi : Inv s) {l c : Nat} {x : LinkWait} (hd : s.dueBy c = [(x.sent + s.lnkHop l, .unanswered l x)]) :
    s.upTo c = (((waitOver s l x).advance (x.sent + s.lnkHop l)).landFlit l (lostFlit s l x.sent x.kind x.use)).advance c := by
  obtain ⟨hm, -, hl⟩ := unanswered_of_due hi (dueBy_single hd).1
  have hc : x.sent + s.lnkHop l ≤ c := (dueBy_single hd).2
  have hat := lostFlit_at s l x.sent x.kind x.use
  have hnext : firstDue ((waitOver s l x).dueBy c) = some (x.sent + s.lnkHop l, .flit l (lostFlit s l x.sent x.kind x.use)) := by
    refine firstDue_of_all ?_ (fun e he => ?_)
    · refine List.ne_nil_of_mem (a := (x.sent + s.lnkHop l, Due.flit l (lostFlit s l x.sent x.kind x.use))) ?_
      refine List.mem_filter.2 ⟨mem_dues_links ((mem_linkDues (waitOver_inv hi hl x)).2 ⟨l, hl, .inl ⟨_, ?_, by rw [hat]⟩⟩), decide_eq_true hc⟩
      rw [waitOver_link hi hl x]
      exact List.mem_append_right _ (List.mem_singleton_self _)
    · obtain ⟨he, hec⟩ := List.mem_filter.1 he
      rcases waitOver_dues hi hl x he with h | h
      · have hsame : e ∈ s.dueBy c := List.mem_filter.2 ⟨h, hec⟩
        rw [hd] at hsame
        rw [List.mem_singleton.1 hsame] at he
        obtain ⟨hin, -, -⟩ := unanswered_of_due (waitOver_inv hi hl x) he
        rw [waitOver_link hi hl x] at hin
        have hd' : s.dues.filter (fun d => decide (d.1 ≤ c)) = [(fun x : LinkWait => (x.sent + s.lnkHop l, Due.unanswered l x)) x] := hd
        exact absurd hin (notMem_erase_of_once (f := fun x : LinkWait => (x.sent + s.lnkHop l, Due.unanswered l x))
          ((List.sublist_append_right _ _).trans (oneLink_sublist hi hl)) hd')
      · rw [h, hat]
  rw [State.upTo, hd]
  change (State.settle c 2 s).advance c = _
  rw [State.settle, hd, firstDue_single]
  change (State.settle c 1 (waitOver s l x)).advance c = _
  rw [State.settle, hnext]
  rfl

end Sys2Proof.Laws
end

section
/-! PROOFS. O38: what a frame leaves on its delivery cycle (R302, R320, R372, R374, R380, R382, R404, R405). -/

namespace Sys2Proof.Laws

open Sys2Proof.Machine Sys2Proof.Safety

/-! ### Each use of a flit -/

section
variable {s : State} {l : Nat} (x : FlitDue)

theorem landFlit_used (hl : l < 16) {v : Nat} (h : x.flit = some v) : s.landFlit l x = (flitTaken s l x).useFlit x.use v := by
  rw [landFlit_eq s hl, h]

theorem landFlit_port (hl : l < 16) (h : x.use = .port) : s.landFlit l x = flitTaken s l x := by
  rw [landFlit_eq s hl, h]
  cases x.flit <;> rfl

theorem useFlit_mem (s : State) {use : FlitUse} (h : ∀ a, use ≠ .gather a) (v : Nat) : (s.useFlit use v).mem = s.mem := by
  cases use with
  | gather a => exact absurd rfl (h a)
  | port => rfl
  | onward m => rfl
  | count => rfl
  | total => exact sendFrames_onlyParts s _ _ _ _ .mem (by decide)
  | checksum tensor c a owner =>
    have hbad : s.checksumBad.mem = s.mem := (checksumBad_beside s).parts .mem (by decide)
    unfold State.useFlit
    dsimp only
    split
    next =>
      split
      next => split <;> [exact hbad; rfl]
      next => rfl
    next => rfl

theorem landFlit_mem (hl : l < 16) (h : ∀ a, x.use ≠ .gather a) : (s.landFlit l x).mem = s.mem := by
  rw [landFlit_eq s hl]
  cases x.flit with
  | none => rfl
  | some v => exact useFlit_mem (flitTaken s l x) h v

/-- What the bytes of a chunk say against the checksum that its owner sent (R320). -/
def checksumDiffers (s : State) (f : ImageFile) (t0 : TensorEnt) (tensor c a v : Nat) : Prop :=
  s.sampled f tensor c = true ∧
    crc32c (s.rdBytes a (min 4096 (2 * ((t0.row1 - t0.row0) * (t0.col1 - t0.col0) - 2048 * c)))) ≠ v % 2 ^ 32

theorem useFlit_checksum {tensor c a owner v : Nat} {f : ImageFile} {t0 : TensorEnt} (himg : s.image = some f)
    (ht : imgWeight (imgSeenBy f owner) tensor = some t0) :
    (checksumDiffers s f t0 tensor c a v → s.useFlit (.checksum tensor c a owner) v = s.checksumBad) ∧
    (¬ checksumDiffers s f t0 tensor c a v → s.useFlit (.checksum tensor c a owner) v = s) := by
  have h : s.useFlit (.checksum tensor c a owner) v =
      if s.sampled f tensor c && crc32c (s.rdBytes a (min 4096 (2 * ((t0.row1 - t0.row0) * (t0.col1 - t0.col0) - 2048 * c)))) != v % 2 ^ 32
      then s.checksumBad else s := by
    unfold State.useFlit
    dsimp only
    rw [himg]
    dsimp only
    rw [ht]
  rw [h]
  refine ⟨fun hd => if_pos ?_, fun hd => if_neg ?_⟩
  · rw [Bool.and_eq_true, bne_iff_ne]
    exact hd
  · rw [Bool.and_eq_true, bne_iff_ne]
    exact hd

end

/-- A flit that lands, clause by clause. -/
theorem flit_lands {s : State} (hi : Inv s) {l : Nat} (hl : l < 16) (x : FlitDue) :
    let z := (s.advance x.at_).landFlit l x
    let out := flitOut s l x
    (z.link l).landing = (s.link l).landing.erase x ∧ out ∈ z.outbox ∧
    (x.kind = 1 → (z.link l).last = x.flit.map (fun v => (x.at_, v))) ∧
    (x.use = .port → z.outbox = s.outbox ++ [out] ∧ OnlyParts [.now, .links, .outbox] s z) ∧
    (∀ a v, x.use = .gather a → x.flit = some v → z.rdGranule a = BitVec.ofNat 2048 v ∧ OnlyBytes a 256 s z ∧
      OnlyParts [.now, .mem, .links, .outbox] s z) ∧
    ((∀ a, x.use ≠ .gather a) → z.mem = s.mem) ∧
    (∀ v, x.use = .count → x.flit = some v → z.run.childTokens = s.run.childTokens + v % 2 ^ 64) ∧
    (∀ tensor c a owner v f t0, x.use = .checksum tensor c a owner → x.flit = some v → s.image = some f →
      imgWeight (imgSeenBy f owner) tensor = some t0 →
      (checksumDiffers s f t0 tensor c a v → Counts COMMIT_CNT1_CHECKSUM_MISMATCHES 1 s z ∧ z.fbit COMMIT_STS_CHECKSUM = true ∧
        RaisesB s z ∧ (if s.run.healthSent then z.run.lateChecksum else z.run.checksum) = true) ∧
      (¬ checksumDiffers s f t0 tensor c a v → OnlyParts [.now, .links, .outbox] s z)) := by
  have hi' : Inv (s.advance x.at_) := hi
  have hu : OnlyParts [.now, .links, .outbox] s (flitTaken (s.advance x.at_) l x) :=
    ((advance_onlyParts s _).mono (by decide)).then (flitTaken_onlyParts x) (by decide)
  have hiu : Inv (flitTaken (s.advance x.at_) l x) := (flitTaken_keeps x).inv hi'
  have hout : (flitTaken (s.advance x.at_) l x).outbox = s.outbox ++ [flitOut s l x] := rfl
  have huse := landFlit_stands (s := s.advance x.at_) x hl
  refine ⟨landFlit_landing hi' hl x, ?_, fun hk => ?_, fun hp => ?_, fun a v ha hv => ?_, fun h => ?_, fun v hc hv => ?_,
    fun tensor c a owner v f t0 hc hv himg ht => ?_⟩
  · refine huse.out.mem ?_
    rw [hout]
    exact List.mem_append_right _ (List.mem_singleton_self _)
  · rw [huse.last, flitTaken_link hi' hl, if_pos (beq_iff_eq.2 hk)]
  · rw [landFlit_port x hl hp]
    exact ⟨hout, hu⟩
  · rw [landFlit_used x hl hv, ha]
    generalize flitTaken (s.advance x.at_) l x = u at hu hiu
    have hw := wrGranule_onlyParts u a (BitVec.ofNat 2048 v)
    refine ⟨rdGranule_wrGranule u a _ hiu.1.2.1, fun b hb => ?_, (hu.mono (by decide)).then hw (by decide)⟩
    exact (rd8_wrGranule_out u a b _ hb).trans (rd8_congr (hu .mem (by decide)) b)
  · exact landFlit_mem x hl h
  · rw [landFlit_used x hl hv, hc]
    rfl
  · rw [landFlit_used x hl hv, hc]
    have himg' : (flitTaken (s.advance x.at_) l x).image = some f := himg
    obtain ⟨hbad, hgood⟩ := useFlit_checksum (c := c) (a := a) (v := v) himg' ht
    have hsame : checksumDiffers (flitTaken (s.advance x.at_) l x) f t0 tensor c a v ↔ checksumDiffers s f t0 tensor c a v := Iff.rfl
    rw [hsame] at hbad hgood
    refine ⟨fun hd => ?_, fun hd => ?_⟩
    · rw [hbad hd]
      have hregs := hu .regs (by decide)
      have hrun := hu .run (by decide)
      generalize flitTaken (s.advance x.at_) l x = u at hregs hrun hiu
      obtain ⟨hcount, hsts⟩ := checksumBad_counts u hiu
      obtain ⟨-, -, hmark⟩ := checksumBad_run u
      rw [Counts, fget_congr hregs] at hcount
      have hrun' : u.run = s.run := hrun
      rw [hrun'] at hmark
      exact ⟨hcount, hsts, (TickMarks.of_run hrun).then_raisesB (checksumBad_raisesB u), hmark⟩
    · rw [hgood hd]
      exact hu

/-- A frame lost for want of its retry, clause by clause. -/
theorem unanswered_lands {s : State} (hi : Inv s) {l : Nat} (hl : l < 16) (x : LinkWait) :
    let z := ((waitOver s l x).advance (x.sent + s.lnkHop l)).landFlit l (lostFlit s l x.sent x.kind x.use)
    (z.link l).waiting = (s.link l).waiting.erase x ∧ Counts (lnkFld LNK_CNT_B_OVERRUNS l) 1 s z ∧
    z.fbit (LNK_STS_OVERRUN.die (l / 4)) = true ∧ RaisesB s z ∧
    (x.kind ≠ 1 → .msg "FRAME_DELIVER" ([l, x.sent + s.lnkHop l, x.kind, 1] ++ s.receivedBy l (x.sent + s.lnkHop l)) ∈ z.outbox) := by
  have hover := waitOver_overran hi hl x
  have hregs := waitOver_regs (s := s) hl x
  have hinv := waitOver_inv hi hl x
  have hlink := waitOver_link hi hl x
  have hstart : OnlyParts [.now, .links] s ((s.advance (x.sent + s.lnkHop l)).withLink l (fun k => { k with waiting := k.waiting.erase x })) :=
    waitOver_start x
  have hby : (waitOver s l x).receivedBy l (x.sent + s.lnkHop l) = s.receivedBy l (x.sent + s.lnkHop l) := by
    have hparts := waitOver_onlyParts hi hl x
    have honly := only_waitOver (s := s) hl x
    refine receivedBy_congr hregs (image_congr (by rw [show (waitOver s l x).job = s.job from hparts .job (by decide)]) (hparts .ctxs (by decide)))
      (honly.fget _ (overrunRegs_apart hl _ (.head _))) (honly.fget _ (overrunRegs_apart hl _ (.tail _ (.head _)))) hl _
  have huse := landFlit_stands (s := (waitOver s l x).advance (x.sent + s.lnkHop l)) (lostFlit s l x.sent x.kind x.use) hl
  have hcount : Counts (lnkFld LNK_CNT_B_OVERRUNS l) 1 s (waitOver s l x) := by
    have h := hover.counts
    rw [Counts, fget_congr (hstart .regs (by decide))] at h
    exact h
  have hraise : RaisesB s (waitOver s l x) := (TickMarks.of_run (hstart .run (by decide))).then_raisesB hover.raises
  have hsent : (waitOver s l x).run.healthSent = s.run.healthSent := hover.beside.marks.sent
  have hsts := hover.sts
  generalize waitOver s l x = u at hregs hinv hlink hby huse hcount hraise hsent hsts
  have hiu : Inv (u.advance (x.sent + s.lnkHop l)) := hinv
  have hit : Inv (flitTaken (u.advance (x.sent + s.lnkHop l)) l (lostFlit s l x.sent x.kind x.use)) := (flitTaken_keeps _).inv hiu
  have hwin : ∀ l < 16, LinkWindows (lnkFld LNK_CNT_B_OVERRUNS l) ∧ LinkWindows (LNK_STS_OVERRUN.die (l / 4)) := by decide
  have htaken : OnlyParts [.now, .links, .outbox] u (flitTaken (u.advance (x.sent + s.lnkHop l)) l (lostFlit s l x.sent x.kind x.use)) :=
    ((advance_onlyParts u _).mono (by decide)).then (flitTaken_onlyParts _) (by decide)
  have hmarks := huse.marks
  refine ⟨?_, ?_, ?_, ?_, fun hk => ?_⟩
  · rw [landFlit_waiting hiu hl]
    exact congrArg LinkSt.waiting hlink
  · exact huse.toBeside.after_counts hit (hwin l hl).1 ((fget_congr (htaken .regs (by decide)) _).trans hcount)
  · exact huse.toBeside.fbit hit (hwin l hl).2 ((congrArg (fun x => x != 0) (fget_congr (htaken .regs (by decide)) _)).trans hsts)
  · exact ((TickMarks.of_run (htaken .run (by decide))).trans hmarks).after_raisesB hsent hraise
  · refine huse.out.mem ?_
    have hy : lostFlit s l x.sent x.kind x.use = ⟨x.sent + s.lnkHop l, x.kind, true, none, .port⟩ := if_neg hk
    rw [flitTaken_outbox, hy, flitOut]
    have hrec : (u.advance (x.sent + s.lnkHop l)).receivedBy l (x.sent + s.lnkHop l) = s.receivedBy l (x.sent + s.lnkHop l) := hby
    rw [hrec]
    refine List.mem_append_right _ (List.mem_singleton.2 ?_)
    rw [Option.toList_none, List.append_nil]
    rfl

/-- Settles O38: a flit that lands, and a frame that no RETRY frame has answered. -/
theorem framesReachTheirDeliveryCycle : Obligations.FramesReachTheirDeliveryCycle := by
  intro s l hawake hpend hl
  have hi := hawake.2
  refine ⟨fun x hd => ?_, fun x hd => ?_⟩
  · have hle : x.at_ ≤ s.now + 1 := (dueBy_single hd).2
    have hnow : ((s.advance x.at_).landFlit l x).now = max s.now x.at_ :=
      ((landFlit_stands (s := s.advance x.at_) x hl).parts .now (by decide)).trans rfl
    obtain ⟨hland, hout, hlast, hport, hgather, hmem, hcount, hsum⟩ := flit_lands hi hl x
    rw [step_passes hpend, upTo_flit hi hd]
    generalize (s.advance x.at_).landFlit l x = z at hnow hland hout hlast hport hgather hmem hcount hsum
    have hadv := advance_onlyParts z (s.now + 1)
    refine ⟨_, rfl, ?_, hland, hout, hlast, fun hp => ⟨(hport hp).1, (hport hp).2.then hadv (by decide)⟩, fun a v ha hv => ?_, hmem, hcount,
      fun tensor c a owner v f t0 hc hv himg ht => ?_⟩
    · change max z.now (s.now + 1) = s.now + 1
      rw [hnow]
      omega
    · obtain ⟨hread, hbytes, hparts⟩ := hgather a v ha hv
      exact ⟨(rdGranule_congr (hadv .mem (by decide)) a).trans hread, hbytes, hparts.then hadv (by decide)⟩
    · obtain ⟨hbad, hgood⟩ := hsum tensor c a owner v f t0 hc hv himg ht
      exact ⟨hbad, fun hd => (hgood hd).then hadv (by decide)⟩
  · have hle : x.sent + s.lnkHop l ≤ s.now + 1 := (dueBy_single hd).2
    have hnow : (((waitOver s l x).advance (x.sent + s.lnkHop l)).landFlit l (lostFlit s l x.sent x.kind x.use)).now = max s.now (x.sent + s.lnkHop l) := by
      have hw : (waitOver s l x).now = max s.now (x.sent + s.lnkHop l) :=
        (waitOver_overran hi hl x).beside.parts .now (by decide)
      generalize waitOver s l x = u at hw
      have hz : ((u.advance (x.sent + s.lnkHop l)).landFlit l (lostFlit s l x.sent x.kind x.use)).now = max u.now (x.sent + s.lnkHop l) :=
        Eq.trans ((landFlit_stands _ hl).parts .now (by decide)) (flitTaken_onlyParts _ .now (by decide))
      omega
    obtain ⟨hwait, hcount, hsts, hraise, hmsg⟩ := unanswered_lands hi hl x
    rw [step_passes hpend, upTo_unanswered hi hd]
    generalize ((waitOver s l x).advance (x.sent + s.lnkHop l)).landFlit l (lostFlit s l x.sent x.kind x.use) = z at hnow hwait hcount hsts hraise hmsg
    refine ⟨_, rfl, ?_, hwait, hcount, hsts, hraise, hmsg⟩
    change max z.now (s.now + 1) = s.now + 1
    rw [hnow]
    omega

end Sys2Proof.Laws
end

section
/-! PROOFS. Pod faults, spares and the shadow check (R499, R501, R507 to R510). -/

namespace Sys2Proof.Laws

open Sys2Proof.Machine Sys2Proof.Safety

section
variable {s : State} {at_ n : Nat}

/-! ### POD_FAULT -/

/-- A fault of a served pod, counted and held for the edge. -/
def podHeld (s : State) (n p : Nat) : State :=
  ((s.fadd (TILE_POD_POD_FAULTS.tile n) 1).classB).withTiles (fun t =>
    { t with podPend := if t.podPend.contains (n, p) then t.podPend else t.podPend ++ [(n, p)] })

theorem exec_podFault {p : Nat} (hawake : Awake s) (hn : n < 80) (hp : p < 8) (hs : Settled s at_) :
    exec (.podFault at_ n p) s = .next (if s.unserved n p then s.advance at_ else podHeld (s.advance at_) n p) := by
  change Host.Outcome.next _ = _
  simp only [live_runs hawake.1, hn, hp, decide_true, Bool.and_self, if_true, upTo_settled _ _ hs]
  rfl

/-- The fields that a tile's pods and its shadow check count, and those that they set. -/
def tileCounted (n : Nat) : List Fld := [TILE_POD_POD_FAULTS, TILE_SHADOW_CNT_SAMPLED, TILE_SHADOW_CNT_MISMATCHES].map (fun f => f.tile n)

theorem tileCounted_facts {n : Nat} (hn : n < 80) : ∀ f ∈ tileCounted n, f.lo + f.wd ≤ 64 ∧ f.base ∉ noteRegs ∧
    f.base ≠ (FAULT_CNT_C_RAISED.pageOf (tilePage n)).base ∧ (TILE_STS_SHADOW_MISMATCH.tile n).base ≠ f.base ∧
    (BENCH_POD_MAP_RETIRED.ix n).base ≠ f.base ∧ f.base < 0x20000000 := by
  revert n
  decide

theorem podFaults_counted (n : Nat) : TILE_POD_POD_FAULTS.tile n ∈ tileCounted n := .head _

section
variable (hi : Inv s) (hn : n < 80) (p : Nat)

theorem podHeld_onlyParts : OnlyParts [.regs, .run, .tiles, .cap, .outbox] s (podHeld s n p) :=
  (((fadd_onlyParts s _ 1).mono (by decide)).then (classB_onlyParts _) (by decide)).then (withTiles_onlyParts _ _) (by decide)

theorem only_podHeld : OnlyRegs ((TILE_POD_POD_FAULTS.tile n).base :: noteRegs) s (podHeld s n p) :=
  ((only_fadd s _ 1 (.head _)).trans (only_classB _ (fun _ h => .tail _ h))).trans ((withTiles_onlyParts _ _).onlyRegs (by decide) _)

theorem podHeld_raisesB : RaisesB s (podHeld s n p) := by
  have h : RaisesB s (s.fadd (TILE_POD_POD_FAULTS.tile n) 1).classB :=
    (TickMarks.of_run (fadd_onlyParts s (TILE_POD_POD_FAULTS.tile n) 1 .run (by decide))).then_raisesB (classB_raisesB _)
  exact h

theorem podHeld_tiles : (podHeld s n p).tiles =
    { s.tiles with podPend := if s.tiles.podPend.contains (n, p) then s.tiles.podPend else s.tiles.podPend ++ [(n, p)] } := by
  have h : ((s.fadd (TILE_POD_POD_FAULTS.tile n) 1).classB).tiles = s.tiles :=
    Eq.trans (classB_onlyParts _ .tiles (by decide)) (fadd_onlyParts s _ 1 .tiles (by decide))
  change (fun t : Tiles => { t with podPend := if t.podPend.contains (n, p) then t.podPend else t.podPend ++ [(n, p)] }) _ = _
  rw [h]

include hi hn

theorem podHeld_counts : Counts (TILE_POD_POD_FAULTS.tile n) 1 s (podHeld s n p) := by
  obtain ⟨hw, hnote, -⟩ := tileCounted_facts hn _ (podFaults_counted n)
  have h := (only_classB (s.fadd (TILE_POD_POD_FAULTS.tile n) 1) (fun _ h => h)).fget _ hnote
  exact Eq.trans h (counts_fadd hi _ 1 hw)

end

/-! ### SPARE_PARITY -/

/-- What a retired spare shows. -/
def spareFields (n : Nat) : List (Fld × Nat) :=
  [(TILE_POD_SPARE_LOST.tile n, 1), (BENCH_POD_MAP_SPARE_FREE.ix n, 0), (BENCH_POD_MAP_SPARE.ix n, 15)]

/-- A free spare retired. -/
def spareRetired (s : State) (n : Nat) : State :=
  (((s.podRetire n (s.fget (BENCH_POD_MAP_SPARE.ix n))).fadd (TILE_POD_POD_FAULTS.tile n) 1).fsetAll (spareFields n)).classA

theorem exec_spareParity (hawake : Awake s) (hn : n < 80) (hs : Settled s at_) : exec (.spareParity at_ n) s =
    .next (if s.spareUsable n then spareRetired (s.advance at_) n else s.advance at_) := by
  change Host.Outcome.next _ = _
  simp only [live_runs hawake.1, hn, decide_true, if_true, upTo_settled _ _ hs]
  rfl

theorem spareFields_apart {n : Nat} (hn : n < 80) : (∀ f ∈ (spareFields n).map Prod.fst, f.lo + f.wd ≤ 64 ∧
    apart f (TILE_POD_POD_FAULTS.tile n) = true ∧ f.base ∈ [(TILE_POD_POD_FAULTS.tile n).base, (BENCH_POD_MAP.ix n).base] ∧ f.base ∉ noteRegs) ∧
    ((spareFields n).map Prod.fst).Pairwise (fun f g => apart f g = true) ∧
    (BENCH_POD_MAP_RETIRED.ix n).base = (BENCH_POD_MAP.ix n).base ∧ (BENCH_POD_MAP_RETIRED.ix n).lo + (BENCH_POD_MAP_RETIRED.ix n).wd ≤ 64 := by
  revert n
  decide

section
variable (hi : Inv s) (hn : n < 80)

theorem spareRetired_onlyParts (s : State) (n : Nat) : OnlyParts [.regs, .cap, .outbox] s (spareRetired s n) :=
  ((((fset_onlyParts s _ _).mono (by decide)).then (fadd_onlyParts _ _ _) (by decide)).then (fsetAll_onlyParts _ _) (by decide)).then
    (capFault_onlyParts _ 0) (by decide)

include hn

theorem only_spareRetired : OnlyRegs ([(TILE_POD_POD_FAULTS.tile n).base, (BENCH_POD_MAP.ix n).base] ++ noteRegs) s (spareRetired s n) := by
  obtain ⟨hf, -, hb, -⟩ := spareFields_apart hn
  refine (((only_fset s _ _ ?_).trans (only_fadd _ _ 1 (.head _))).trans (only_fsetAll _ _ (fun p hp => ?_))).trans
    (only_capFault _ 0 (fun _ h => .tail _ (.tail _ h)))
  · rw [hb]
    exact .tail _ (.head _)
  · exact List.mem_append_left _ (hf p.1 (List.mem_map_of_mem (f := Prod.fst) hp)).2.2.1

include hi

theorem spareRetired_shows : ∀ q ∈ spareFields n, (spareRetired s n).fget q.1 = q.2 % 2 ^ q.1.wd := by
  intro q hq
  obtain ⟨hf, hp, -, -⟩ := spareFields_apart hn
  have hbefore := (fadd_keeps _ (TILE_POD_POD_FAULTS.tile n) 1 (fset_keeps (BENCH_POD_MAP_RETIRED.ix n)
    (Nat.lor (s.fget (BENCH_POD_MAP_RETIRED.ix n)) (2 ^ s.fget (BENCH_POD_MAP_SPARE.ix n))) (.refl s))).inv hi
  have hlast := (only_capFault (((s.podRetire n (s.fget (BENCH_POD_MAP_SPARE.ix n))).fadd (TILE_POD_POD_FAULTS.tile n) 1).fsetAll (spareFields n)) 0
    (fun _ h => h)).fget q.1 (hf q.1 (List.mem_map_of_mem (f := Prod.fst) hq)).2.2.2
  exact Eq.trans hlast (fget_fsetAll_mem _ _ hbefore.1.1 ⟨fun f h => (hf f h).1, hp⟩ hq)

theorem spareRetired_counts : Counts (TILE_POD_POD_FAULTS.tile n) 1 s (spareRetired s n) := by
  obtain ⟨hf, -, hb, hr⟩ := spareFields_apart hn
  obtain ⟨hw, hnote, -, -, hretired, -⟩ := tileCounted_facts hn _ (podFaults_counted n)
  have hretire : Beside (· = TILE_POD_POD_FAULTS.tile n) [.regs] s (s.podRetire n (s.fget (BENCH_POD_MAP_SPARE.ix n))) :=
    beside_fset s _ _ ⟨hr, fun g hg => by subst hg; exact apart_of_base hretired.symm⟩
  have hinv := hretire.keeps.inv hi
  have hadd := (fadd_keeps (s.podRetire n (s.fget (BENCH_POD_MAP_SPARE.ix n))) (TILE_POD_POD_FAULTS.tile n) 1 (.refl _)).inv hinv
  have hset : Beside (· = TILE_POD_POD_FAULTS.tile n) [.regs] ((s.podRetire n (s.fget (BENCH_POD_MAP_SPARE.ix n))).fadd (TILE_POD_POD_FAULTS.tile n) 1)
      (((s.podRetire n (s.fget (BENCH_POD_MAP_SPARE.ix n))).fadd (TILE_POD_POD_FAULTS.tile n) 1).fsetAll (spareFields n)) :=
    beside_fsetAll _ _ (fun p hp => ⟨(hf p.1 (List.mem_map_of_mem (f := Prod.fst) hp)).1,
      fun g hg => by subst hg; exact (hf p.1 (List.mem_map_of_mem (f := Prod.fst) hp)).2.1⟩)
  have hlast := beside_capFault (K := (· = TILE_POD_POD_FAULTS.tile n)) (((s.podRetire n (s.fget (BENCH_POD_MAP_SPARE.ix n))).fadd
    (TILE_POD_POD_FAULTS.tile n) 1).fsetAll (spareFields n)) (fun g hg => by subst hg; exact hnote) 0
  exact hretire.then_counts hi rfl (hlast.after_counts (hset.keeps.inv hadd) rfl (hset.after_counts hadd rfl (counts_fadd hinv _ 1 hw)))

end

end

end Sys2Proof.Laws
end

section
/-! PROOFS. The shadow check (R507 to R510), and O43. -/

namespace Sys2Proof.Laws

open Sys2Proof.Machine Sys2Proof.Safety

/-- What a shadow check finds depends on the tiles' memories and the tick's first cycle alone. -/
theorem shadowBad_congr {s t : State} (h : SameSram s t) (hf : t.tiles.flights = s.tiles.flights) (he : t.edgeAt = s.edgeAt) (n : Nat)
    (w : Word256) (seen : List Word32) : t.shadowBad n w seen = s.shadowBad n w seen := by
  simp only [State.shadowBad, State.shadowTerms, State.accElAt, State.flightsTo, State.issueAbs, he, hf, h.operand, h.elemSum, h.accElOver]

/-- A sampled instruction compared: the spare busy until then, and the sample counted. -/
def shadowTaken (s : State) (n done : Nat) : State :=
  (s.withTiles (fun t => { t with shadowBusy := assocPut t.shadowBusy n done })).fadd (TILE_SHADOW_CNT_SAMPLED.tile n) 1

/-- The cycle on which the spare is done. -/
def shadowDone (s : State) (w : Word256) : Nat := s.issueAbs w + 3 * wKlen w + 524

section
variable {s : State} {n : Nat} {w : Word256} {seq : Nat} {seen : List Word32} {f : ImageFile} {p : PlanImg}

theorem exec_shadowCompare_idle (hawake : Awake s) (h : s.shadowActive n = false ∨ shadowEligible w = false ∨ s.shadowSampled n seq = false) :
    exec (.shadowCompare n w seq seen) s = .next s := by
  have hc : (s.shadowActive n && shadowEligible w && s.shadowSampled n seq) = false := by
    rcases h with h | h | h <;> rw [h] <;> simp
  change Host.Outcome.next _ = _
  rw [live_runs hawake.1]
  split
  next =>
    unfold State.shadowCompare
    rw [hc]
    rfl
  next => rfl

section
variable (hin : InTick f p s) (hn : n < 80) (hactive : s.shadowActive n = true) (heligible : shadowEligible w = true)
  (hsampled : s.shadowSampled n seq = true)
include hin hn hactive heligible hsampled

/-- Is the spare free, and the tick not too near its end? -/
theorem exec_shadowCompare_skipped
    (h : ¬ ((assocGet s.tiles.shadowBusy n).all (fun c => decide (c ≤ s.issueAbs w)) = true ∧ shadowDone s w < s.edgeAt + planFenceOf p 3)) :
    exec (.shadowCompare n w seq seen) s = .next (s.fadd (TILE_SHADOW_CNT_SKIPPED.tile n) 1) := by
  obtain ⟨hawake, hrun, -, hplan⟩ := hin
  have hc : ((match assocGet s.tiles.shadowBusy n with | some c => decide (s.issueAbs w < c) | none => false) ||
      decide (s.edgeAt + planFenceOf p 3 ≤ s.issueAbs w + 3 * wKlen w + 524)) = true := by
    rw [shadowDone] at h
    cases hb : assocGet s.tiles.shadowBusy n with
    | none =>
      rw [hb] at h
      simp only [Option.all_none, true_and, Nat.not_lt] at h
      simp [h]
    | some c =>
      rw [hb] at h
      simp only [Option.all_some, decide_eq_true_eq, not_and_or, Nat.not_lt, Nat.not_le] at h
      simpa using h
  change Host.Outcome.next _ = _
  simp only [live_runs hawake.1, hn, hrun, decide_true, Bool.and_self, if_true, State.shadowCompare, hactive, heligible, hsampled, hplan]
  exact congrArg Host.Outcome.next (if_pos hc)

theorem exec_shadowCompare_compared
    (h : (assocGet s.tiles.shadowBusy n).all (fun c => decide (c ≤ s.issueAbs w)) = true ∧ shadowDone s w < s.edgeAt + planFenceOf p 3)
    (hs : Settled s (shadowDone s w)) : exec (.shadowCompare n w seq seen) s =
      .next (if s.shadowBad n w seen then (shadowTaken (s.advance (shadowDone s w)) n (shadowDone s w)).shadowAct n
        else shadowTaken (s.advance (shadowDone s w)) n (shadowDone s w)) := by
  obtain ⟨hawake, hrun, -, hplan⟩ := hin
  have hc : ((match assocGet s.tiles.shadowBusy n with | some c => decide (s.issueAbs w < c) | none => false) ||
      decide (s.edgeAt + planFenceOf p 3 ≤ s.issueAbs w + 3 * wKlen w + 524)) = false := by
    obtain ⟨hfree, hlate⟩ := h
    rw [shadowDone] at hlate
    rw [decide_eq_false (Nat.not_le.2 hlate), Bool.or_false]
    cases hb : assocGet s.tiles.shadowBusy n with
    | none => rfl
    | some c =>
      rw [hb] at hfree
      exact decide_eq_false (Nat.not_lt.2 (by simpa using hfree))
  have hu : s.upTo (s.issueAbs w + 3 * wKlen w + 524) = s.advance (shadowDone s w) := upTo_settled s (shadowDone s w) hs
  have hbad : (shadowTaken (s.advance (shadowDone s w)) n (shadowDone s w)).shadowBad n w seen = s.shadowBad n w seen :=
    shadowBad_congr (s := s) (t := shadowTaken (s.advance (shadowDone s w)) n (shadowDone s w)) ⟨⟨rfl, rfl, rfl, rfl⟩, rfl, rfl, rfl⟩ rfl rfl n w seen
  change Host.Outcome.next _ = _
  simp only [live_runs hawake.1, hn, hrun, decide_true, Bool.and_self, if_true, State.shadowCompare, hactive, heligible, hsampled, hplan]
  refine congrArg Host.Outcome.next ((if_neg (fun e => absurd (hc.symm.trans e) (by decide))).trans ?_)
  rw [hu, ← hbad]
  rfl

end

end

/-! ### What a comparison leaves -/

section
variable {s : State} {n done : Nat} (hi : Inv s) (hn : n < 80)

theorem sampled_counted (n : Nat) : TILE_SHADOW_CNT_SAMPLED.tile n ∈ tileCounted n := .tail _ (.head _)

theorem mismatches_counted (n : Nat) : TILE_SHADOW_CNT_MISMATCHES.tile n ∈ tileCounted n := .tail _ (.tail _ (.head _))

theorem shadowTaken_onlyParts : OnlyParts [.regs, .tiles] s (shadowTaken s n done) :=
  ((withTiles_onlyParts s _).mono (by decide)).then (fadd_onlyParts _ _ _) (by decide)

theorem only_shadowTaken : OnlyRegs [(TILE_SHADOW_CNT.tile n).base] s (shadowTaken s n done) :=
  ((withTiles_onlyParts s _).onlyRegs (by decide) _).trans (only_fadd _ _ 1 (.head _))

theorem shadowTaken_busy : assocGet (shadowTaken s n done).tiles.shadowBusy n = some done := assocGet_assocPut_same ..

include hn in
theorem shadowCnts_apart : apart (TILE_SHADOW_CNT_MISMATCHES.tile n) (TILE_SHADOW_CNT_SAMPLED.tile n) = true ∧
    apart (TILE_SHADOW_CNT_SAMPLED.tile n) (TILE_SHADOW_CNT_MISMATCHES.tile n) = true ∧
    (TILE_SHADOW_MODE.tile n).base ≠ (TILE_SHADOW_CNT_MISMATCHES.tile n).base ∧ (TILE_SHADOW_MODE.tile n).base ≠ (TILE_SHADOW_CNT.tile n).base ∧
    (TILE_STS_SHADOW_MISMATCH.tile n).lo + (TILE_STS_SHADOW_MISMATCH.tile n).wd ≤ 64 ∧ (TILE_STS_SHADOW_MISMATCH.tile n).wd = 1 ∧
    (TILE_STS_SHADOW_MISMATCH.tile n).base ∉ noteRegs ∧
    (TILE_STS_SHADOW_MISMATCH.tile n).base ≠ (FAULT_CNT_C_RAISED.pageOf (tilePage n)).base := by
  revert n
  decide

theorem shadowTaken_keeps : Keeps s (shadowTaken s n done) :=
  fadd_keeps _ _ 1 (withTiles_keeps (fun _ h => h) (.refl s))

include hi hn

theorem shadowTaken_counts : Counts (TILE_SHADOW_CNT_SAMPLED.tile n) 1 s (shadowTaken s n done) := by
  have h := counts_fadd (s := s.withTiles (fun t => { t with shadowBusy := assocPut t.shadowBusy n done })) ⟨⟨hi.1.1, hi.1.2.1, hi.1.2.2⟩, hi.2⟩
    (TILE_SHADOW_CNT_SAMPLED.tile n) 1 (tileCounted_facts hn _ (sampled_counted n)).1
  exact h

omit hi hn in
/-- The action of a mismatch, after it is counted (R510). -/
def shadowNoted (s : State) (n : Nat) : State :=
  if s.fget (TILE_SHADOW_MODE.tile n) == 0 then s.setSts (tilePage n) (TILE_STS_SHADOW_MISMATCH.tile n)
  else (if s.fget (TILE_SHADOW_MODE.tile n) == 1 then s else s.classBSts (tilePage n) (TILE_STS_SHADOW_MISMATCH.tile n)).classC (tilePage n)
    (TILE_STS_SHADOW_MISMATCH.tile n)

omit hi in
theorem shadowAct_eq : s.shadowAct n = shadowNoted (s.fadd (TILE_SHADOW_CNT_MISMATCHES.tile n) 1) n := by
  have h : (s.fadd (TILE_SHADOW_CNT_MISMATCHES.tile n) 1).fget (TILE_SHADOW_MODE.tile n) = s.fget (TILE_SHADOW_MODE.tile n) :=
    fget_fset_base s _ _ _ (shadowCnts_apart hn).2.2.1
  rw [shadowNoted, h]
  rfl

omit hi in
theorem shadowNoted_beside : Beside (· ∈ tileCounted n) [.regs, .run, .attend, .fifos, .cap, .outbox] s (shadowNoted s n) := by
  obtain ⟨-, -, -, -, hw, -⟩ := shadowCnts_apart hn
  have hf := tileCounted_facts hn
  have hnote : ∀ g ∈ tileCounted n, g.base ∉ noteRegs := fun g hg => (hf g hg).2.1
  have hpage : ∀ g ∈ tileCounted n, g.base ≠ (FAULT_CNT_C_RAISED.pageOf (tilePage n)).base := fun g hg => (hf g hg).2.2.1
  have hsts : ApartFrom (· ∈ tileCounted n) (TILE_STS_SHADOW_MISMATCH.tile n) :=
    ⟨hw, fun g hg => apart_of_base (hf g hg).2.2.2.1.symm⟩
  refine .ite ((beside_setSts s _ _ hsts).mono (by decide) (fun _ => id)) ?_
  have hb : Beside (· ∈ tileCounted n) [.regs, .run, .attend, .fifos, .cap, .outbox] s
      (if s.fget (TILE_SHADOW_MODE.tile n) == 1 then s else s.classBSts (tilePage n) (TILE_STS_SHADOW_MISMATCH.tile n)) :=
    .ite (.refl _ _ s) ((beside_classBSts s hnote _ _ hsts).mono (by decide) (fun _ => id))
  exact hb.trans (beside_classC _ hnote _ _ hsts hpage)

theorem shadowNoted_sts : (shadowNoted s n).fbit (TILE_STS_SHADOW_MISMATCH.tile n) = true := by
  obtain ⟨-, -, -, -, hw, h1, hnote, hpage⟩ := shadowCnts_apart hn
  unfold shadowNoted
  split
  next => exact fbit_setSts s _ _ hi.1.1 hw h1
  next =>
    split
    next => exact fbit_of_fget (fget_classCWith _ _ _ _ _ hi.1.1 hw h1 hnote hpage)
    next => exact fbit_of_fget (fget_classCWith _ _ _ _ _ ((classBSts_keeps s _ _ (.refl s)).inv hi).1.1 hw h1 hnote hpage)

omit hi hn in
/-- The action of a mismatch is one of SHADOW_MODE 0, or a fault of class C. -/
theorem shadowNoted_mode : (s.fget (TILE_SHADOW_MODE.tile n) = 0 → (shadowNoted s n).run = s.run) ∧
    (s.fget (TILE_SHADOW_MODE.tile n) ≠ 0 → RaisesC s (shadowNoted s n)) := by
  refine ⟨fun h => ?_, fun h => ?_⟩
  · rw [shadowNoted, if_pos (beq_iff_eq.2 h)]
    exact setSts_onlyParts s _ _ .run (by decide)
  · rw [shadowNoted, if_neg (fun e => h (beq_iff_eq.1 e))]
    have hb : TickMarks s (if s.fget (TILE_SHADOW_MODE.tile n) == 1 then s else s.classBSts (tilePage n) (TILE_STS_SHADOW_MISMATCH.tile n)) := by
      split
      next => exact .refl s
      next => exact tickMarks_classBSts s _ _
    exact hb.then_raisesC (classC_raisesC _ _ _)

theorem shadowTaken_mismatches : (shadowTaken s n done).fget (TILE_SHADOW_CNT_MISMATCHES.tile n) = s.fget (TILE_SHADOW_CNT_MISMATCHES.tile n) := by
  obtain ⟨-, hsm, -⟩ := shadowCnts_apart hn
  have hset := fget_fset_apart (s.withTiles (fun t => { t with shadowBusy := assocPut t.shadowBusy n done })) (TILE_SHADOW_CNT_SAMPLED.tile n)
    (TILE_SHADOW_CNT_MISMATCHES.tile n) (min ((s.withTiles (fun t => { t with shadowBusy := assocPut t.shadowBusy n done })).fget
      (TILE_SHADOW_CNT_SAMPLED.tile n) + 1) (2 ^ (TILE_SHADOW_CNT_SAMPLED.tile n).wd - 1)) hi.1.1 (tileCounted_facts hn _ (sampled_counted n)).1 hsm
  exact hset.trans (fget_congr (withTiles_onlyParts s _ .regs (by decide)) _)

omit hi in
/-- The mode of the shadow check after a mismatch is counted. -/
theorem shadowMode_counted : (s.fadd (TILE_SHADOW_CNT_MISMATCHES.tile n) 1).fget (TILE_SHADOW_MODE.tile n) =
    s.fget (TILE_SHADOW_MODE.tile n) := fget_fset_base s _ _ _ (shadowCnts_apart hn).2.2.1

omit hi in
theorem shadowAct_beside : Beside (· = TILE_SHADOW_CNT_SAMPLED.tile n) [.regs, .run, .attend, .fifos, .cap, .outbox] s (s.shadowAct n) := by
  have hadd : Beside (· = TILE_SHADOW_CNT_SAMPLED.tile n) [.regs] s (s.fadd (TILE_SHADOW_CNT_MISMATCHES.tile n) 1) :=
    beside_fadd s _ 1 ⟨(tileCounted_facts hn _ (mismatches_counted n)).1, fun g hg => by subst hg; exact (shadowCnts_apart hn).1⟩
  rw [shadowAct_eq hn]
  exact (hadd.mono (by decide) (fun _ => id)).then ((shadowNoted_beside hn).mono (List.Subset.refl _) (fun g hg => hg ▸ sampled_counted n))
    (by decide)

theorem shadowAct_acts : Counts (TILE_SHADOW_CNT_MISMATCHES.tile n) 1 s (s.shadowAct n) ∧
    (s.shadowAct n).fbit (TILE_STS_SHADOW_MISMATCH.tile n) = true ∧ (s.fget (TILE_SHADOW_MODE.tile n) = 0 → (s.shadowAct n).run = s.run) ∧
    (s.fget (TILE_SHADOW_MODE.tile n) ≠ 0 → RaisesC s (s.shadowAct n)) := by
  have hinv := (fadd_keeps s (TILE_SHADOW_CNT_MISMATCHES.tile n) 1 (.refl s)).inv hi
  have hcount := counts_fadd hi (TILE_SHADOW_CNT_MISMATCHES.tile n) 1 (tileCounted_facts hn _ (mismatches_counted n)).1
  have hrun : (s.fadd (TILE_SHADOW_CNT_MISMATCHES.tile n) 1).run = s.run := fadd_onlyParts s _ 1 .run (by decide)
  obtain ⟨hzero, hclass⟩ := shadowNoted_mode (s := s.fadd (TILE_SHADOW_CNT_MISMATCHES.tile n) 1) (n := n)
  rw [shadowMode_counted hn] at hzero hclass
  rw [shadowAct_eq hn]
  exact ⟨(shadowNoted_beside hn).after_counts hinv (mismatches_counted n) hcount, shadowNoted_sts hinv hn, fun h => (hzero h).trans hrun,
    fun h => (TickMarks.of_run hrun).then_raisesC (hclass h)⟩

omit hi in
theorem shadowTaken_mode : (shadowTaken s n done).fget (TILE_SHADOW_MODE.tile n) = s.fget (TILE_SHADOW_MODE.tile n) :=
  (only_shadowTaken (s := s)).fget _ (fun h => (shadowCnts_apart hn).2.2.2.1 (List.mem_singleton.1 h))

/-- A mismatch: both counts, the status, and the class of SHADOW_MODE. -/
theorem shadowTaken_act : let t := (shadowTaken s n done).shadowAct n
    Counts (TILE_SHADOW_CNT_SAMPLED.tile n) 1 s t ∧ Counts (TILE_SHADOW_CNT_MISMATCHES.tile n) 1 s t ∧
    t.fbit (TILE_STS_SHADOW_MISMATCH.tile n) = true ∧ (s.fget (TILE_SHADOW_MODE.tile n) = 0 → t.run = s.run) ∧
    (s.fget (TILE_SHADOW_MODE.tile n) ≠ 0 → RaisesC s t) ∧ t.tiles.acc = s.tiles.acc ∧ t.mem = s.mem := by
  have htaken := shadowTaken_onlyParts (s := s) (n := n) (done := done)
  have hsampled := shadowTaken_counts (done := done) hi hn
  have hinv := (shadowTaken_keeps (s := s) (n := n) (done := done)).inv hi
  have hacc : (shadowTaken s n done).tiles.acc = s.tiles.acc := rfl
  have hother := shadowTaken_mismatches (done := done) hi hn
  have hmode := shadowTaken_mode (s := s) (done := done) hn
  generalize shadowTaken s n done = u at htaken hsampled hinv hacc hother hmode
  obtain ⟨hcount, hsts, hzero, hclass⟩ := shadowAct_acts hinv hn
  have hact := shadowAct_beside (s := u) hn
  rw [hmode] at hzero hclass
  have hrun : u.run = s.run := htaken .run (by decide)
  refine ⟨hact.after_counts hinv rfl hsampled, (Eq.trans hcount (by rw [hother])), hsts, fun h => (hzero h).trans hrun,
    fun h => (TickMarks.of_run hrun).then_raisesC (hclass h), ?_, Eq.trans (hact.parts .mem (by decide)) (htaken .mem (by decide))⟩
  exact (congrArg Tiles.acc (hact.parts .tiles (by decide))).trans hacc

end

/-- Settles O43: a pod's fault, a spare's fault, and a sampled instruction skipped, compared, or left alone. -/
theorem podFaultsAndShadowChecks : Obligations.PodFaultsAndShadowChecks := by
  intro s at_ tile lpod hawake htile hlpod hs
  have hadv := advance_onlyParts s at_
  have hi : Inv (s.advance at_) := hawake.2
  refine ⟨fun hserved => ?_, fun hun => ?_, fun husable => ?_, fun hno => ?_, fun w seq seen f p hin hactive heligible hsampled => ?_,
    fun w seq seen h => exec_shadowCompare_idle hawake h⟩
  · rw [exec_podFault hawake htile hlpod hs, hserved, if_neg Bool.false_ne_true]
    have hparts := podHeld_onlyParts (s := s.advance at_) (n := tile) lpod
    have htiles := podHeld_tiles (s := s.advance at_) (n := tile) lpod
    have hcount := podHeld_counts hi htile lpod
    have hraise := podHeld_raisesB (s := s.advance at_) (n := tile) lpod
    have honly := only_podHeld (s := s.advance at_) (n := tile) lpod
    generalize podHeld (s.advance at_) tile lpod = t at hparts htiles hcount hraise honly
    refine ⟨_, rfl, hparts .now (by decide), hcount, hraise, ?_, ?_, ?_, (hadv.mono (by decide)).then hparts (by decide), honly⟩
    · rw [htiles]
      dsimp only
      split
      next h => exact List.contains_iff_mem.1 h
      next => exact List.mem_append_right _ (List.mem_singleton_self _)
    · intro x hx
      rw [htiles] at hx
      dsimp only at hx
      split at hx
      next => exact .inr hx
      next => exact (List.mem_append.1 hx).elim .inr (fun h => .inl (List.mem_singleton.1 h))
    · rw [htiles]
      rfl
  · rw [exec_podFault hawake htile hlpod hs, hun, if_pos rfl]
    exact ⟨_, rfl, hadv⟩
  · rw [exec_spareParity hawake htile hs, husable, if_pos rfl]
    have hparts := spareRetired_onlyParts (s.advance at_) tile
    have hshows := spareRetired_shows hi htile
    simp only [spareFields, List.forall_mem_cons, List.not_mem_nil, false_imp_iff, implies_true, and_true] at hshows
    obtain ⟨hlost, hfree, hspare⟩ := hshows
    exact ⟨_, rfl, hparts .now (by decide), fbit_of_fget hlost, congrArg (fun x => x != 0) hfree, hspare, spareRetired_counts hi htile,
      (hadv.mono (by decide)).then hparts (by decide), only_spareRetired htile⟩
  · rw [exec_spareParity hawake htile hs, hno, if_neg Bool.false_ne_true]
    exact ⟨_, rfl, hadv⟩
  · have hu : Inv (s.advance (shadowDone s w)) := hawake.2
    have hdone := advance_onlyParts s (shadowDone s w)
    refine ⟨fun hbusy => ?_, fun hfree hsd hgood => ?_, fun hfree hsd hbad => ?_⟩
    · rw [exec_shadowCompare_skipped hin htile hactive heligible hsampled hbusy]
      have hw : (TILE_SHADOW_CNT_SKIPPED.tile tile).lo + (TILE_SHADOW_CNT_SKIPPED.tile tile).wd ≤ 64 := (by decide : 24 + 24 ≤ 64)
      exact ⟨_, rfl, counts_fadd hawake.2 _ 1 hw, fadd_onlyParts _ _ _⟩
    · rw [exec_shadowCompare_compared hin htile hactive heligible hsampled hfree hsd, hgood, if_neg Bool.false_ne_true]
      have hparts := shadowTaken_onlyParts (s := s.advance (shadowDone s w)) (n := tile) (done := shadowDone s w)
      have hcount := shadowTaken_counts (done := shadowDone s w) hu htile
      have hbusy := shadowTaken_busy (s := s.advance (shadowDone s w)) (n := tile) (done := shadowDone s w)
      have honly := only_shadowTaken (s := s.advance (shadowDone s w)) (n := tile) (done := shadowDone s w)
      generalize shadowTaken (s.advance (shadowDone s w)) tile (shadowDone s w) = t at hparts hcount hbusy honly
      exact ⟨t, rfl, hcount, hbusy, hparts .now (by decide), (hdone.mono (by decide)).then hparts (by decide), honly⟩
    · rw [exec_shadowCompare_compared hin htile hactive heligible hsampled hfree hsd, hbad, if_pos rfl]
      have hact := shadowTaken_act (done := shadowDone s w) hu htile
      generalize (shadowTaken (s.advance (shadowDone s w)) tile (shadowDone s w)).shadowAct tile = t at hact
      exact ⟨t, rfl, hact⟩

end Sys2Proof.Laws
end

section
/-! PROOFS. The class E stops (O45): a second condition on the cycle of a stop, on a register table that is not canonical
(R498, R622). The clause for it asks no invariant of its state, and a table that lists a register twice keeps its second entry
when a write brings the first to its reset value. -/

namespace Sys2Proof.Laws
open Sys2Proof.Machine Sys2Proof.Safety

/-- A stopped module whose register table lists HULL_TERMINAL twice, first with window 1 and then with cause 5. -/
def terminalTwice : State :=
  { State.reset with regs := [(0xb28, 8), (0xb28, 5)], power := { State.reset.power with halt := .stopped 1 } }

/-- A condition of code 0 on the cycle of the stop leaves the cause 5 of the table's second entry. -/
theorem terminalTwice_cause :
    (terminalTwice.terminalTie terminalTwice.power.stopAt 0 0).fget HULL_TERMINAL_CAUSE = 5 := by decide

/-- The command is that tie. -/
theorem terminalTwice_exec : exec (.terminalStop terminalTwice.power.stopAt 0 0 false false) terminalTwice =
    .next (terminalTwice.terminalTie terminalTwice.power.stopAt 0 0) := rfl

/-- Refutes O45: its first clause holds of every state, canonical or not. On `terminalTwice` the write of code 0 brings the first
entry of HULL_TERMINAL to its reset value, the table drops that entry, and the register then reads the second one: cause 5. -/
theorem not_classEStopsTheModule : ¬ Obligations.ClassEStopsTheModule := by
  unfold Obligations.ClassEStopsTheModule
  rintro ⟨tie, -⟩
  obtain ⟨t, hnext, -, hcause, -⟩ := (tie terminalTwice _ 1 0 0 false false rfl rfl).1 (by decide)
  rw [terminalTwice_exec] at hnext
  obtain rfl := (Host.Outcome.next.inj hnext).symm
  exact absurd (terminalTwice_cause.symm.trans hcause) (by decide)

end Sys2Proof.Laws
end

section
/-! PROOFS. What a lockstep reload holds back (R505): an event of the hull waits for the end of the reload (O57), and an MSI-X
message names the cycle of its end (O58). Both statements promise the packet, or the message, at once, and ask of no reload. -/

namespace Sys2Proof.Laws
open Sys2Proof.Machine Sys2Proof.Safety

/-- The reset module in a lockstep reload that completes on cycle 5. -/
def inReload : State := { State.reset with power := { State.reset.power with reload := some 5 } }

theorem inReload_awake : Awake inReload := ⟨rfl, resetIsSound.1⟩

theorem inReload_settled (c : Nat) : Settled inReload c := rfl

/-- The event packet of a write in the reload joins the late events. -/
theorem inReload_packetWrite (payload : List (BitVec 112)) (h : payload = [1]) :
    exec (.fifoPacketWrite 0 1 8 0 payload) inReload = .next ((inReload.advance 0).event 8 0 [2 ^ 16 - 2 ^ 16]) := by
  subst h
  rfl

/-- Event egress holds no word of it yet. -/
theorem inReload_event_items (payload : List Nat) :
    (((inReload.advance 0).event 8 0 payload).fifo 1).items = [] := rfl

/-- Refutes O57: on `inReload` a packet written into event egress finds room for its word, and enters no word. -/
theorem not_queuesMoveWholePackets : ¬ Obligations.QueuesMoveWholePackets := by
  unfold Obligations.QueuesMoveWholePackets
  intro h
  obtain ⟨-, -, packets, -⟩ := h inReload 0 ⟨0, 0⟩ inReload_awake (inReload_settled 0)
  obtain ⟨t, hnext, hitems, -⟩ :=
    (packets 1 8 0 [1] (by decide) (by decide) (by decide) (by decide) (fun _ h => absurd h (by decide))).1 (by decide)
  obtain rfl := (Host.Outcome.next.inj ((inReload_packetWrite _ rfl).symm.trans hnext)).symm
  rw [inReload_event_items] at hitems
  exact absurd hitems (by decide)

/-- A harvest asked for in the reload ends at once, and its message goes out when the reload completes. -/
theorem inReload_harvest : exec .harvest inReload = .next (inReload.hrdResult 1 2) := rfl

theorem inReload_harvest_outbox : (inReload.hrdResult 1 2).outbox = [.msixAt 5 2 0] := rfl

/-- Refutes O58: on `inReload` HARVEST ends with its RESULT, and no message of PF2's vector has gone out. -/
theorem not_hoardOperationsAndHarvests : ¬ Obligations.HoardOperationsAndHarvests := by
  unfold Obligations.HoardOperationsAndHarvests
  intro h
  obtain ⟨-, -, running, -⟩ := h inReload inReload_awake
  obtain ⟨⟨t, hnext, ⟨-, -, -, hmsg⟩, -⟩, -⟩ := running rfl rfl
  rw [inReload_harvest] at hnext
  obtain rfl := (Host.Outcome.next.inj hnext).symm
  rw [inReload_harvest_outbox] at hmsg
  exact absurd hmsg (by decide)

end Sys2Proof.Laws
end

section
/-! PROOFS. Hot and warm resets that leave event egress with a word (O48, O49). The FLRs run in the order PF1, PF0, PF2, PF3: PF1's
empties event egress, and PF2's then abandons every descriptor of engines 12 and 13 (R421). An INGEST on one of them, which the
model's state does not exclude, completes ABANDONED, and its COMMAND_DONE stands in the queue that was emptied before. -/

namespace Sys2Proof.Laws
open Sys2Proof.Machine Sys2Proof.Safety

/-- The FLRs of PF1, PF0 and PF2, as a reset of every function begins. -/
def threeFlr (s : State) : State := s.flrPf1.flrPf0.flrPf2

/-- The reset module with the transfer of a micro-batch on engine 12. -/
def ingestOnTwelve : State :=
  { State.reset with host := { State.reset.host with
      descs := [{ eng := 12, q := 0, ctx := 0, kind := .ingest 0 0, src := 0, dst := 0, length := 0 }] } }

theorem ingestOnTwelve_awake : Awake ingestOnTwelve := ⟨rfl, resetIsSound.1⟩

theorem ingestOnTwelve_settled (c : Nat) : Settled ingestOnTwelve c := rfl

/-- After PF1's and PF0's FLR the queues are empty and the transfer is still there; PF2's completes it. -/
theorem ingestOnTwelve_flr_items :
    ((threeFlr (ingestOnTwelve.advance 0)).fifo 1).items.length = 1 := by decide

/-! ### What the resets do to the queues after PF2's FLR -/

theorem drawn_onlyParts (s : State) : OnlyParts [.fresh] s s.drawn := by
  intro p hp
  cases p <;> simp [Part.Same] at hp ⊢

theorem clearRegs_onlyParts (s : State) (p : Nat → FieldDesc → Bool) : OnlyParts [.regs] s (s.clearRegs p) := by
  intro q hq
  cases q <;> first | rfl | simp at hq

theorem regPut_onlyParts (s : State) (k : Nat) (v : Word64) : OnlyParts [.regs] s (s.regPut k v) := by
  intro q hq
  cases q <;> first | rfl | simp at hq

theorem evqKeep_onlyParts (s t : State) (fn : Nat) : OnlyParts [.regs] t (s.evqKeep t fn) := by
  intro q hq
  cases q <;> simp [Part.Same] at hq ⊢

theorem restoreSts_onlyParts (s : State) (kind cleared tiles crackers : Nat) (hbm ctxs retest : Bool) :
    OnlyParts [.regs] s (s.restoreSts kind cleared tiles crackers hbm ctxs retest) :=
  fsetAll_onlyParts s _

theorem clearF_onlyParts (s : State) (fn : Nat) : OnlyParts [.regs] s (s.clearF fn) :=
  (clearRegs_onlyParts s _).trans (evqKeep_onlyParts s _ fn)

theorem newNonce_onlyParts (s : State) : OnlyParts [.regs, .fresh] s s.newNonce :=
  List.foldlRecOn (range' 0 4) _ (OnlyParts.refl _ s) (fun t h i _ =>
    h.trans (((fset_onlyParts t _ _).mono (by decide)).then (drawn_onlyParts _) (by decide)))

/-- What PF3's FLR does after the clearing of its registers. -/
theorem flrPf3_rest (s t : State) (busy : Bool) (h : OnlyParts [.regs] s t) :
    OnlyParts [.regs, .bench, .fresh] s
      (((if busy then t.fset BENCH_CMD_RESULT 9 else t).newNonce.withBench
        (fun b => { b with fuseBuf := 0 })).restoreSts 7 4 0 0 false false false) := by
  have h1 : OnlyParts [.regs] s (if busy then t.fset BENCH_CMD_RESULT 9 else t) :=
    h.trans (OnlyParts.ite (fset_onlyParts t _ _) (OnlyParts.refl _ t))
  generalize (if busy then t.fset BENCH_CMD_RESULT 9 else t) = u at *
  have h2 := (h1.mono (qs := [.regs, .bench, .fresh]) (by decide)).then (newNonce_onlyParts u) (by decide)
  generalize u.newNonce = v at *
  exact (h2.then (withBench_onlyParts v _) (by decide)).then (restoreSts_onlyParts _ _ _ _ _ _ _ _) (by decide)

theorem flrPf3_onlyParts (s : State) : OnlyParts [.regs, .bench, .fresh] s s.flrPf3 := by
  unfold State.flrPf3
  exact flrPf3_rest s (s.clearF 3) (s.fbit BENCH_CMD_BUSY) (clearF_onlyParts s 3)

theorem allFlr_onlyParts (s : State) : OnlyParts [.regs, .bench, .fresh] (threeFlr s) s.allFlr := by
  unfold State.allFlr threeFlr
  generalize s.flrPf1.flrPf0.flrPf2 = t
  exact flrPf3_onlyParts t

/-- A hot reset leaves event egress as PF2's FLR left it. -/
theorem hotReset_fifos (s : State) : s.hotReset.fifos = (threeFlr s).fifos := by
  have h := allFlr_onlyParts s
  unfold State.hotReset
  generalize s.allFlr = t at *
  generalize threeFlr s = u at *
  exact (((h.then (clearRegs_onlyParts t _) (by decide)).then (regPut_onlyParts _ _ _) (by decide)).then
    (restoreSts_onlyParts _ _ _ _ _ _ _ _) (by decide)) .fifos (by decide)

theorem selfRefresh_onlyParts (s : State) (x : Nat) :
    OnlyParts [.regs] s ((range' 0 16).foldl (fun s k => s.fset (stackFld HUB_STACK_SELF_REFRESH k) x) s) :=
  List.foldlRecOn (range' 0 16) _ (OnlyParts.refl _ s) (fun t h _ _ => h.trans (fset_onlyParts t _ _))

theorem shellGone_fifos (s : State) : s.shellGone.fifos = s.fifos := rfl

theorem benchGone_onlyParts (s : State) : OnlyParts [.regs] s s.benchGone :=
  OnlyParts.ite (fset_onlyParts s _ _) (OnlyParts.refl _ s)

theorem clearRegs_fifos (s : State) (p : Nat → FieldDesc → Bool) : (s.clearRegs p).fifos = s.fifos := rfl

theorem regPut_fifos (s : State) (k : Nat) (v : Word64) : (s.regPut k v).fifos = s.fifos := rfl

theorem selfRefresh_fifos (s : State) (x : Nat) :
    ((range' 0 16).foldl (fun s k => s.fset (stackFld HUB_STACK_SELF_REFRESH k) x) s).fifos = s.fifos :=
  selfRefresh_onlyParts s x .fifos (by decide)

theorem benchGone_fifos (s : State) : s.benchGone.fifos = s.fifos := benchGone_onlyParts s .fifos (by decide)

/-- And so does a warm reset. -/
theorem warmReset_fifos (s : State) : s.warmReset.fifos = (threeFlr s).fifos := by
  have h := allFlr_onlyParts s .fifos (by decide)
  unfold State.warmReset
  generalize s.allFlr = t at *
  simp only [restoreSts_frame, regPut_fifos, withPower_frame, benchGone_fifos, withBench_frame]
  exact ((selfRefresh_fifos _ 1).trans ((shellGone_fifos _).trans (clearRegs_fifos t _))).trans h

/-- A reset that leaves the queues as the three FLRs left them does not leave event egress empty. -/
theorem ingestOnTwelve_not_empty {t : State} (h : t.fifos = (threeFlr (ingestOnTwelve.advance 0)).fifos) :
    (t.fifo 1).items ≠ [] := by
  intro hempty
  have hone := ingestOnTwelve_flr_items
  unfold State.fifo at hempty hone
  rw [h] at hempty
  rw [hempty] at hone
  exact absurd hone (by decide)

/-- Refutes O48: on `ingestOnTwelve` a hot reset ends with the COMMAND_DONE of the abandoned transfer in event egress. -/
theorem not_functionResetsClearTheirOwn : ¬ Obligations.FunctionResetsClearTheirOwn := by
  unfold Obligations.FunctionResetsClearTheirOwn
  intro h
  obtain ⟨-, -, -, -, t, hnext, -, -, -, -, hitems, -⟩ := h ingestOnTwelve 0 ingestOnTwelve_awake (ingestOnTwelve_settled 0)
  have hexec : exec (.hotReset 0) ingestOnTwelve = .next (ingestOnTwelve.advance 0).hotReset := rfl
  rw [hexec] at hnext
  obtain rfl := (Host.Outcome.next.inj hnext).symm
  exact ingestOnTwelve_not_empty (hotReset_fifos _) (hitems 1 (by decide))

/-- Refutes O49: and so does a warm reset of it. -/
theorem not_resetsHoldAndRelease : ¬ Obligations.ResetsHoldAndRelease := by
  unfold Obligations.ResetsHoldAndRelease
  intro h
  obtain ⟨-, -, -, warm, -⟩ := h ingestOnTwelve 0 ingestOnTwelve_awake.2 (ingestOnTwelve_settled 0)
  obtain ⟨t, hnext, -, -, -, -, -, -, hitems, -⟩ := warm rfl
  have hexec : exec (.warmReset 0) ingestOnTwelve =
      .next ((ingestOnTwelve.advance 0).warmReset.withPower (fun p => { p with halt := .inReset false })) := rfl
  have hfifos := warmReset_fifos (ingestOnTwelve.advance 0)
  generalize (ingestOnTwelve.advance 0).warmReset = u at hexec hfifos
  rw [hexec] at hnext
  obtain rfl := (Host.Outcome.next.inj hnext).symm
  exact ingestOnTwelve_not_empty (Eq.trans (withPower_onlyParts u _ .fifos (by decide)) hfifos) (hitems 1 (by decide))

end Sys2Proof.Laws
end

section
/-! PROOFS. What the parts of a reset touch: the abandoning of commands, transfers, exports and harvests (R289, R426, R451, R555),
the end of a job's ticks (R561), and the identity of the cartridge (R548). -/

namespace Sys2Proof.Laws
open Sys2Proof.Machine Sys2Proof.Safety

theorem emit_onlyParts (s : State) (o : Out) : OnlyParts [.outbox] s (s.emit o) := by
  intro p hp
  cases p <;> first | rfl | simp at hp

theorem abandonCmds_onlyParts (s : State) (p : PendCmd → Bool) :
    OnlyParts [.regs, .fifos, .host, .outbox] s (s.abandonCmds p) :=
  List.foldlRecOn _ _ ((withHost_onlyParts s _).mono (by decide)) (fun _ h _ _ =>
    h.then (commandDone_onlyParts _ _ _ _ _ _) (by decide))

theorem abandonedIngest_onlyParts (s : State) (d : Desc) :
    OnlyParts [.regs, .fifos, .outbox] s
      (match d.kind with | .ingest _ _ => s.commandDone d.ctx d.tag 4 14 0 | _ => s) := by
  split
  · exact (commandDone_onlyParts s _ _ _ _ _).mono (by decide)
  · exact OnlyParts.refl _ s

theorem abandonDescs_onlyParts (s : State) (p : Desc → Bool) :
    OnlyParts [.regs, .fifos, .host, .outbox] s (s.abandonDescs p) := by
  unfold State.abandonDescs
  dsimp only
  refine List.foldlRecOn _ _ ?_ (fun t h d _ => h.then (abandonedIngest_onlyParts t d) (by decide))
  exact List.foldlRecOn _ _ ((withHost_onlyParts s _).mono (by decide)) (fun t h d _ => h.then (fset_onlyParts t _ _) (by decide))

theorem abandonHarvest_onlyParts (s : State) (b : Bool) : OnlyParts [.regs, .host, .outbox] s (s.abandonHarvest b) := by
  intro p hp
  cases p <;> simp [Part.Same] at hp ⊢

theorem ctxToLoaded_onlyParts (s : State) : OnlyParts [.ctxs] s s.ctxToLoaded := by
  unfold State.ctxToLoaded
  split
  · exact OnlyParts.refl _ s
  · intro p hp
    cases p <;> simp [Part.Same] at hp ⊢

theorem savesAbandoned_onlyParts (s : State) : OnlyParts [.ctxs] s s.savesAbandoned := by
  intro p hp
  cases p <;> first | rfl | simp at hp

theorem stopTicks_onlyParts (s : State) :
    OnlyParts [.run, .job, .tiles, .hub, .links, .solver, .host, .power] s s.stopTicks := by
  intro p hp
  cases p <;> first | rfl | simp at hp

theorem answerHeld_onlyParts (s : State) : OnlyParts [.host, .outbox] s s.answerHeld :=
  List.foldlRecOn _ _ ((withHost_onlyParts s _).mono (by decide)) (fun t h _ _ => h.then (emit_onlyParts t _) (by decide))

theorem emptyAtc_onlyParts (s : State) : OnlyParts [.host, .outbox] s s.emptyAtc :=
  (answerHeld_onlyParts s).then (withHost_onlyParts _ _) (by decide)

theorem resetFifo_onlyParts (s : State) (f : Nat) : OnlyParts [.fifos, .rings] s (s.resetFifo f) := by
  have h := (setFifo_onlyParts s f (fun _ => {})).mono (qs := [.fifos, .rings]) (by decide)
  refine OnlyParts.ite (h.trans ?_) h
  intro p hp
  cases p <;> first | rfl | simp at hp

theorem clearJ_onlyParts (s : State) : OnlyParts [.regs] s s.clearJ := clearRegs_onlyParts s _

theorem noticeOut_onlyParts (s : State) : OnlyParts [.links, .outbox] s s.noticeOut := by
  intro p hp
  cases p <;> simp [Part.Same] at hp ⊢

theorem noticeSts_onlyParts (s : State) : OnlyParts [.regs, .outbox] s s.noticeSts :=
  OnlyParts.ite (setSts_onlyParts s _ _) (OnlyParts.refl _ s)

/-! ### The cartridge through a warm reset -/

theorem stopTicks_cart (s : State) : s.stopTicks.power.cart = s.power.cart := rfl

theorem flrPf1Job_begin_power (s : State) (ran : Bool) (p : Desc → Bool) :
    ((((if ran then s.noticeOut else s).withHost (fun h => { h with cmds := [] })).abandonExport.abandonDescs p).abandonHarvest
      true).ctxToLoaded.savesAbandoned.power = s.power := by
  have h1 : OnlyParts [.links, .outbox] s (if ran then s.noticeOut else s) :=
    OnlyParts.ite (noticeOut_onlyParts s) (OnlyParts.refl _ s)
  generalize (if ran then s.noticeOut else s) = t at *
  have h2 := withHost_onlyParts t (fun h => { h with cmds := [] })
  generalize t.withHost (fun h => { h with cmds := [] }) = u at *
  have h3 := abandonExport_onlyParts u
  generalize u.abandonExport = v at *
  have h4 := abandonDescs_onlyParts v p
  generalize v.abandonDescs p = w at *
  have h5 := abandonHarvest_onlyParts w true
  generalize w.abandonHarvest true = x at *
  have h6 := (ctxToLoaded_onlyParts x).trans (savesAbandoned_onlyParts x.ctxToLoaded)
  calc x.ctxToLoaded.savesAbandoned.power = x.power := h6 .power (by decide)
    _ = w.power := h5 .power (by decide)
    _ = v.power := h4 .power (by decide)
    _ = u.power := h3 .power (by decide)
    _ = t.power := h2 .power (by decide)
    _ = s.power := h1 .power (by decide)

/-- What PF1's FLR does after the job's ticks have stopped. -/
theorem flrPf1Job_end_power (s u : State) (ran : Bool) (p : Nat → FieldDesc → Bool) :
    (if ran then ({ (s.evqKeep (u.clearRegs p) 1) with
        ctxs := (s.evqKeep (u.clearRegs p) 1).ctxs.map (fun x => { x with loading := false }) } : State).noticeSts
      else { (s.evqKeep (u.clearRegs p) 1) with
        ctxs := (s.evqKeep (u.clearRegs p) 1).ctxs.map (fun x => { x with loading := false }) }).power = u.power := by
  have h1 := (clearRegs_onlyParts u p).trans (evqKeep_onlyParts s _ 1) .power (by decide)
  generalize s.evqKeep (u.clearRegs p) 1 = v at *
  cases ran
  · exact h1
  · exact Eq.trans (noticeSts_onlyParts _ .power (by decide)) h1

theorem flrPf1Job_cart (s : State) : s.flrPf1Job.power.cart = s.power.cart := by
  have h := flrPf1Job_begin_power s s.job.ctx.isSome (fun d => decide (d.eng < 12))
  unfold State.flrPf1Job
  dsimp only
  rw [flrPf1Job_end_power, stopTicks_cart]
  exact congrArg PowerSt.cart h

theorem flrPf1_power (s : State) : s.flrPf1.power = s.flrPf1Job.power := by
  unfold State.flrPf1
  generalize s.flrPf1Job = t
  have h1 := (((resetFifo_onlyParts t 0).trans (resetFifo_onlyParts _ 1)).mono
    (qs := [.regs, .fifos, .rings, .host, .outbox]) (by decide)).then (withHost_onlyParts _ (fun h => { h with
    partials := [] })) (by decide)
  exact ((h1.then (emptyAtc_onlyParts _) (by decide)).then
    (restoreSts_onlyParts _ _ _ _ _ _ _ _) (by decide)) .power (by decide)

theorem flrPf0_onlyParts (s : State) : OnlyParts [.regs, .fifos, .rings, .host] s s.flrPf0 := by
  have h := (((resetFifo_onlyParts s 2).trans (resetFifo_onlyParts _ 3)).mono
    (qs := [.regs, .fifos, .rings, .host]) (by decide)).then (withHost_onlyParts _ (fun h => { h with mbox := [] })) (by decide)
  exact (h.then (clearF_onlyParts _ 0) (by decide)).then (restoreSts_onlyParts _ _ _ _ _ _ _ _) (by decide)

/-- What PF2's FLR does after the clearing of its registers. -/
theorem flrPf2_rest (t : State) (was : Bool) : OnlyParts [.regs, .outbox] t
    ((if was then t.setSts 3 HRD_STS_HARVEST_ABANDONED else t).restoreSts 6 4 0 0 false false false) := by
  have h : OnlyParts [.regs, .outbox] t (if was then t.setSts 3 HRD_STS_HARVEST_ABANDONED else t) :=
    OnlyParts.ite (setSts_onlyParts t _ _) (OnlyParts.refl _ t)
  exact h.then (restoreSts_onlyParts _ _ _ _ _ _ _ _) (by decide)

theorem flrPf2_onlyParts (s : State) : OnlyParts [.regs, .fifos, .host, .outbox] s s.flrPf2 := by
  have h1 := (abandonHarvest_onlyParts s true).mono (qs := [.regs, .fifos, .host, .outbox]) (by decide)
  unfold State.flrPf2
  generalize s.abandonHarvest true = t at *
  have h2 := h1.then (abandonDescs_onlyParts t (fun d => d.eng == 12 || d.eng == 13)) (by decide)
  dsimp only
  generalize t.abandonDescs (fun d => d.eng == 12 || d.eng == 13) = u at *
  have h3 := h2.then (clearF_onlyParts u 2) (by decide)
  generalize u.clearF 2 = v at *
  exact h3.then (flrPf2_rest v _) (by decide)

theorem allFlr_cart (s : State) : s.allFlr.power.cart = s.power.cart := by
  have h1 := (congrArg PowerSt.cart (flrPf1_power s)).trans (flrPf1Job_cart s)
  unfold State.allFlr
  generalize s.flrPf1 = t at *
  have h2 := flrPf0_onlyParts t .power (by decide)
  generalize t.flrPf0 = u at *
  have h3 := flrPf2_onlyParts u .power (by decide)
  generalize u.flrPf2 = v at *
  have h4 := flrPf3_onlyParts v .power (by decide)
  exact (congrArg PowerSt.cart (Eq.trans h4 (Eq.trans h3 h2))).trans h1

theorem shellGone_power (s : State) : s.shellGone.power = s.power := rfl

theorem clearRegs_power (s : State) (p : Nat → FieldDesc → Bool) : (s.clearRegs p).power = s.power := rfl

theorem selfRefresh_power (s : State) (x : Nat) :
    ((range' 0 16).foldl (fun s k => s.fset (stackFld HUB_STACK_SELF_REFRESH k) x) s).power = s.power :=
  selfRefresh_onlyParts s x .power (by decide)

theorem benchGone_power (s : State) : s.benchGone.power = s.power := benchGone_onlyParts s .power (by decide)

theorem regPut_power (s : State) (k : Nat) (v : Word64) : (s.regPut k v).power = s.power := rfl

/-- A warm reset keeps the cartridge. -/
theorem warmReset_cart (s : State) : s.warmReset.power.cart = s.power.cart := by
  have h := allFlr_cart s
  unfold State.warmReset
  generalize s.allFlr = t at *
  simp only [restoreSts_frame, regPut_power, State.withPower, benchGone_power, withBench_frame]
  exact (congrArg PowerSt.cart ((selfRefresh_power _ 1).trans ((shellGone_power _).trans (clearRegs_power t _)))).trans h

theorem interfacesUp_power (s : State) :
    ((range' 0 16).foldl (fun s k => s.fset (stackFld HUB_STACK_TRAINED k) 1) s).power = s.power :=
  (List.foldlRecOn (range' 0 16) (motive := fun t => OnlyParts [.regs] s t) _ (OnlyParts.refl _ s)
    (fun t h _ _ => h.trans (fset_onlyParts t _ _))) .power (by decide)

/-- And so does the training that retires no lane. -/
theorem trained_nil_power (s : State) : (s.trained []).power = s.power :=
  Eq.trans (withHub_onlyParts _ (fun h => { h with laneMap := h.laneMap.filter (fun p => h.laneBad.contains p.1) }) .power
    (by decide)) (interfacesUp_power s)

end Sys2Proof.Laws
end

section
/-! PROOFS. A refusal whose kept code is wider than the register that names it (O54), and a module that leaves EXTEST with a
cartridge that is not genuine (O59): the warm reset that follows challenges the cartridge, and its failure is a class C fault of
the tick's bookkeeping (R548, R594). -/

namespace Sys2Proof.Laws
open Sys2Proof.Machine Sys2Proof.Safety

/-! ### INGEST -/

/-- An image of one STEP plan with one slot, which takes no token. -/
def oneSlotImage : ImageFile :=
  { header := 0, hcrcOk := true, fileLen := 0, hashOk := true, sigPoint := 0, sigZero := 0, sigR := 0, sigS := 0, keyDigest := 0,
    msgDigest := 0, sigOk := true, dir := [],
    plans := [some { hdr := 0, fences := [], dfences := [], slots := [0], off := 0 }],
    layouts := [], streams := [], hubScheds := [], linkScheds := [], solverJobs := [], stateMap := [], ruleSets := [],
    lrScheds := [], redPlans := [], limits := 0, moduleMapHdr := 0, modules := [], data := [] }

/-- The reset module with that image in context 0, for whose slot a refusal with code 9 is kept. -/
def refusedNine : State :=
  { State.reset with ctxs := [{ state := .loaded, image := some oneSlotImage, refused := [(0, 0, 9)] }, {}, {}, {}] }

theorem refusedNine_awake : Awake refusedNine :=
  ⟨rfl, ⟨resetIsSound.1.1, rfl, rfl, rfl, rfl⟩⟩

theorem bvBits_zero (n lo wd : Nat) : bvBits (0#n) lo wd = 0 := by simp [bvBits, getBits]

/-- The only plan of the image is the STEP plan of its first step. -/
theorem oneSlotImage_lowest : imgLowest oneSlotImage 0 = some 0 := by
  simp [imgLowest, imgLowestFrom, imgPlan, oneSlotImage, planKind, bvBits_zero]

theorem refusedNine_slot : (refusedNine.advance 0).slotOf oneSlotImage 0 0 0 = some 0 := by
  have hplan : (refusedNine.advance 0).planFor oneSlotImage 0 0 = 0 := by
    unfold State.planFor planOfStep
    rw [oneSlotImage_lowest]
    rfl
  unfold State.slotOf
  rw [hplan]
  simp [imgPlan, oneSlotImage, planKind, bvBits_zero]

theorem refusedNine_open : (refusedNine.advance 0).ingestClosed oneSlotImage 0 0 = false := by rfl

theorem refusedNine_next : (refusedNine.advance 0).nextStep 0 = 0 := by rfl

/-- The kept code is that of the next attempt. -/
theorem refusedNine_code : (refusedNine.advance 0).ingestCode oneSlotImage 0 0 0 0 0 = 9 := by
  unfold State.ingestCode
  rw [refusedNine_slot, refusedNine_open, refusedNine_next]
  simp only [slotMaxTok, slotBpt, bvBits_zero, Option.any_some]
  rfl

/-- Refutes O54: on `refusedNine` the refusal has code 9, and HULL_INGEST_FIRST.REASON holds three bits. -/
theorem not_ingestAndExportMoveTheirData : ¬ Obligations.IngestAndExportMoveTheirData := by
  unfold Obligations.IngestAndExportMoveTheirData
  intro h
  obtain ⟨ingests, -⟩ := h refusedNine 0 0 0 refusedNine_awake (by decide) rfl
  obtain ⟨refuse, -⟩ := ingests 0 0 0 0 0 oneSlotImage (by decide) rfl rfl
  obtain ⟨t, -, -, -, first, -⟩ := refuse (by rw [refusedNine_code]; decide)
  have hreason := (first rfl).1
  rw [refusedNine_code] at hreason
  have hlt := fget_lt t HULL_INGEST_FIRST_REASON
  rw [hreason] at hlt
  exact absurd hlt (by decide)

/-! ### TAP_RESET -/

/-- One expander of the memory port is enumerated. -/
def expanderUp (s : State) (e : Nat × Nat × Nat) : State :=
  let up := decide (1 ≤ e.2.1) && decide (e.2.1 ≤ 2) && decide (e.2.2 ≤ 2048)
  if 4 ≤ e.1 then s
  else s.fsetAll [(HULL_SLOW_EXP_PRESENT.ix e.1, 1), (HULL_SLOW_EXP_UP.ix e.1, up.toNat),
    (HULL_SLOW_EXP_GEN.ix e.1, if up then e.2.1 else 0), (HULL_SLOW_EXP_CAPACITY.ix e.1, if up then e.2.2 else 0)]

theorem expanderUp_onlyParts (s : State) (e : Nat × Nat × Nat) : OnlyParts [.regs] s (expanderUp s e) :=
  OnlyParts.ite (OnlyParts.refl _ s) (fsetAll_onlyParts s _)

theorem portsTrain_onlyParts (s : State) (p : PortsIn) : OnlyParts [.regs, .power] s (s.portsTrain p) := by
  have h1 := ((fsetAll_onlyParts s [(HOST_LINK_MODE, p.mode), (HOST_LINK_WIDTH, p.width), (HOST_LINK_FLIT, p.flit.toNat)]).mono
    (qs := [.regs, .power]) (by decide)).then (withPower_onlyParts _ (fun q => { q with hdmAbsent := p.mode == 4 && !p.hdm }))
    (by decide)
  unfold State.portsTrain
  dsimp only
  generalize (s.fsetAll [(HOST_LINK_MODE, p.mode), (HOST_LINK_WIDTH, p.width), (HOST_LINK_FLIT, p.flit.toNat)]).withPower
    (fun q => { q with hdmAbsent := p.mode == 4 && !p.hdm }) = t at *
  have h2 : OnlyParts [.regs, .power] s ((range' 0 4).foldl (fun s i => s.fset (HULL_SLOW_EXP.ix i) 0) t) :=
    List.foldlRecOn (range' 0 4) _ h1 (fun u h i _ => h.then (fset_onlyParts u _ _) (by decide))
  generalize (range' 0 4).foldl (fun s i => s.fset (HULL_SLOW_EXP.ix i) 0) t = u at *
  exact List.foldlRecOn p.expanders _ h2 (fun u h e _ => h.then (expanderUp_onlyParts u e) (by decide))

/-- A cartridge that fails its challenge is a class C fault. -/
theorem identify_raisesC (s : State) (c : Cart) (hc : s.power.cart = some c) (hg : c.genuine = false) :
    RaisesC s s.identify := by
  unfold State.identify
  rw [hc]
  simp only [hg, Bool.false_eq_true, if_false]
  have hrun : (((s.fsetAll [(HRD_STATE_PRESENT, 1), (HRD_STATE_LINK_UP, 1), (HRD_STATE_AUTHENTICATED, Bool.toNat false)]).fset
      HRD_ID_ID 0).fadd HRD_CNT_AUTH_FAILS 1).run = s.run := by simp
  generalize ((s.fsetAll [(HRD_STATE_PRESENT, 1), (HRD_STATE_LINK_UP, 1), (HRD_STATE_AUTHENTICATED, Bool.toNat false)]).fset
      HRD_ID_ID 0).fadd HRD_CNT_AUTH_FAILS 1 = u at *
  have h := classCWith_raisesC u 3 HRD_STS_AUTH_FAIL 5 0
  unfold RaisesC at *
  rw [← hrun]
  exact h

theorem raisesC_run_ne (s t : State) (h : RaisesC s t) : t.run ≠ {} := by
  intro he
  unfold RaisesC at h
  rw [he] at h
  by_cases hs : s.run.healthSent = true <;> simp [hs] at h

/-- The reset module in EXTEST with a cartridge that is not genuine. -/
def extestBadCart : State :=
  { State.reset with
    bench := { State.reset.bench with extest := true }, power := { State.reset.power with cart := some {} } }

theorem extestBadCart_awake : Awake extestBadCart := ⟨rfl, resetIsSound.1⟩

/-- The warm reset that ends EXTEST keeps the cartridge. -/
theorem extestBadCart_cart :
    (((extestBadCart.advance 0).withBench (fun b => { b with ir := 0x01, extest := false })).warmReset.trained []).power.cart =
      some {} := by
  rw [trained_nil_power, warmReset_cart]
  rfl

/-- Refutes O59: on `extestBadCart` Test-Logic-Reset ends with a class C fault marked in the tick's bookkeeping. -/
theorem not_benchAndTapKeepTheirLocks : ¬ Obligations.BenchAndTapKeepTheirLocks := by
  unfold Obligations.BenchAndTapKeepTheirLocks
  intro h
  obtain ⟨-, -, -, -, -, -, -, -, -, -, -, -, resets, -⟩ := h extestBadCart 0 ⟨false, false, true, true, 7⟩ extestBadCart_awake
  obtain ⟨t, hnext, -, -, -, hrun, -⟩ := (resets 0 ⟨0, 0, 0, false, [], [], true⟩ rfl).2 rfl
  have hexec : exec (.tapReset 0 ⟨0, 0, 0, false, [], [], true⟩) extestBadCart =
      .next ((((extestBadCart.advance 0).withBench (fun b => { b with ir := 0x01, extest := false })).warmReset.trained
        []).identify.portsTrain ⟨0, 0, 0, false, [], [], true⟩) := rfl
  have hcart := extestBadCart_cart
  generalize ((extestBadCart.advance 0).withBench (fun b => { b with ir := 0x01, extest := false })).warmReset.trained [] = u at *
  rw [hexec] at hnext
  obtain rfl := (Host.Outcome.next.inj hnext).symm
  exact raisesC_run_ne _ _ (identify_raisesC u {} hcart rfl) (Eq.trans (portsTrain_onlyParts _ _ .run (by decide)).symm hrun)

end Sys2Proof.Laws
end

section
/-! PROOFS. Power states: requests, entries, wakes and the switch off (R526 to R530, R562). -/

namespace Sys2Proof.Laws

open Sys2Proof.Machine Sys2Proof.Safety

/-! ### A register table after a clearing -/

theorem tabGet_tabAdjust_of_fixed {β : Type} [DecidableEq β] (d : Nat → β) (f : Nat → β → β) {k : Nat} (h : ∀ v, f k v = v) :
    ∀ (t : List (Nat × β)) (lo : Nat), tabWfFrom d lo t = true → tabGet d (tabAdjust d f t) k = tabGet d t k
  | [], _, _ => rfl
  | (a, v) :: r, lo, hw => by
    simp only [tabWfFrom, Bool.and_eq_true, decide_eq_true_eq] at hw
    obtain ⟨⟨_, hv⟩, hr⟩ := hw
    have ih := tabGet_tabAdjust_of_fixed d f h r (a + 1) hr
    simp only [tabAdjust]
    by_cases hk : a = k
    · subst hk
      rw [if_neg (by rw [h]; exact hv)]
      simp [tabGet, h]
    · split <;> simp [tabGet, hk, ih]

theorem clearFields_none {p : FieldDesc → Bool} (h : ∀ f, p f = false) : ∀ (l : List FieldDesc) (v : Nat), clearFields p l v = v
  | [], _ => rfl
  | f :: l, v => by rw [clearFields, h f, if_neg Bool.false_ne_true, clearFields_none h l v]

/-- A register none of whose fields is selected stands. -/
theorem fget_clearRegs (s : State) (p : Nat → FieldDesc → Bool) (g : Fld) (hw : tabWf resetOf s.regs = true)
    (h : ∀ f, p g.base f = false) : (s.clearRegs p).fget g = s.fget g := by
  have hr : (s.clearRegs p).regGet g.base = s.regGet g.base := by
    refine tabGet_tabAdjust_of_fixed resetOf _ (fun v => ?_) s.regs 0 hw
    split
    · rw [clearFields_none h, BitVec.ofNat_toNat, BitVec.setWidth_eq]
    · rfl
  rw [State.fget, State.fget, hr]

theorem beside_clearRegs {K : Fld → Prop} (s : State) (p : Nat → FieldDesc → Bool) (h : ∀ g, K g → ∀ f, p g.base f = false) :
    Beside K [.regs] s (s.clearRegs p) :=
  ⟨clearRegs_onlyParts s p, clearRegs_keeps p (.refl s), fun i g hg => fget_clearRegs s p g i.1.1 (h g hg), .of_run rfl, .refl s⟩

/-! ### Requests -/

/-- The registers of PWR_STATE's bits that a write of its target leaves. -/
theorem powerBusy_target (s : State) (x : Nat) : (s.fset PWR_STATE_TARGET x).powerBusy = s.powerBusy := by
  simp only [State.powerBusy, State.fbit, fget_fset_base s PWR_STATE_TARGET HRD_HARVEST_ACTIVE x (by decide),
    fget_fset_base s PWR_STATE_TARGET HRD_CMD_BUSY x (by decide)]
  rfl

theorem inRun_target {s : State} (hi : Inv s) (x : Nat) : (s.fset PWR_STATE_TARGET x).inRun = s.inRun := by
  simp only [State.inRun, fget_fset_apart s PWR_STATE_TARGET PWR_STATE_STATE x hi.1.1 (by decide) (by decide)]
  rfl

section
variable {s : State} (hi : Inv s)
include hi

theorem powerRefused_target (x : Nat) (hx : x < 8) :
    ((s.fset PWR_STATE_TARGET x).powerRefused).fbit PWR_STS_STATE_REFUSED = true ∧
      ((s.fset PWR_STATE_TARGET x).powerRefused).fget PWR_STATE_TARGET = x ∧
      OnlyParts [.regs, .outbox] s ((s.fset PWR_STATE_TARGET x).powerRefused) ∧
      OnlyRegs [PWR_STS_STATE_REFUSED.base, PWR_STATE_TARGET.base] s ((s.fset PWR_STATE_TARGET x).powerRefused) := by
  have hw : tabWf resetOf (s.fset PWR_STATE_TARGET x).regs = true := (fset_keeps PWR_STATE_TARGET x (.refl s)).inv hi |>.1.1
  refine ⟨fbit_setSts _ 2 PWR_STS_STATE_REFUSED hw (by decide) rfl, ?_, ?_, ?_⟩
  · exact (fget_setSts_apart _ 2 _ _ hw (by decide) (by decide)).trans
      ((fget_fset_same s _ x hi.1.1 (by decide)).trans (Nat.mod_eq_of_lt hx))
  · exact ((fset_onlyParts s _ _).mono (by decide)).trans (setSts_onlyParts _ 2 _)
  · exact (only_fset s _ _ (by decide)).trans (only_setSts _ 2 _ (by decide))

theorem powerEnter_refused {x : Nat} (h : s.powerBusy = true ∨ s.inRun = false) :
    (s.fset PWR_STATE_TARGET x).powerEnter x = (s.fset PWR_STATE_TARGET x).powerRefused := by
  have hc : ((s.fset PWR_STATE_TARGET x).powerBusy || !(s.fset PWR_STATE_TARGET x).inRun) = true := by
    rw [powerBusy_target, inRun_target hi]
    rcases h with h | h <;> simp [h]
  rw [State.powerEnter, if_pos hc]

/-- The time that the entry of a low-power state takes (R528). -/
def entryTime (x : Nat) : Nat := if x == 1 then 4096 else if x == 2 then 2000000 else 40000000

theorem powerEnter_accepted {x : Nat} (hx : x < 8) (hb : s.powerBusy = false) (hr : s.inRun = true) :
    ((s.fset PWR_STATE_TARGET x).powerEnter x).fbit PWR_STATE_TRANSITION = true ∧
      ((s.fset PWR_STATE_TARGET x).powerEnter x).fget PWR_STATE_TARGET = x ∧
      ((s.fset PWR_STATE_TARGET x).powerEnter x).power.trans = some (x, s.now + entryTime x) ∧
      ((s.fset PWR_STATE_TARGET x).powerEnter x).fget PWR_STATE_STATE = 0 ∧
      OnlyParts [.regs, .power] s ((s.fset PWR_STATE_TARGET x).powerEnter x) ∧
      OnlyRegs [PWR_STATE_TARGET.base] s ((s.fset PWR_STATE_TARGET x).powerEnter x) := by
  have hw : tabWf resetOf (s.fset PWR_STATE_TARGET x).regs = true := (fset_keeps PWR_STATE_TARGET x (.refl s)).inv hi |>.1.1
  have hc : ¬ ((s.fset PWR_STATE_TARGET x).powerBusy || !(s.fset PWR_STATE_TARGET x).inRun) = true := by
    rw [powerBusy_target, inRun_target hi, hb, hr]
    decide
  have h0 : s.fget PWR_STATE_STATE = 0 := by
    simp only [State.inRun, Bool.and_eq_true, beq_iff_eq] at hr
    exact hr.1
  rw [State.powerEnter, if_neg hc]
  refine ⟨fbit_fset_one _ PWR_STATE_TRANSITION hw (by decide) rfl, ?_, rfl, ?_, ?_, ?_⟩
  · exact (fget_fset_apart _ PWR_STATE_TRANSITION PWR_STATE_TARGET 1 hw (by decide) (by decide)).trans
      ((fget_fset_same s _ x hi.1.1 (by decide)).trans (Nat.mod_eq_of_lt hx))
  · exact ((fget_fset_apart _ PWR_STATE_TRANSITION PWR_STATE_STATE 1 hw (by decide) (by decide)).trans
      (fget_fset_apart s PWR_STATE_TARGET PWR_STATE_STATE x hi.1.1 (by decide) (by decide))).trans h0
  · exact (((fset_onlyParts s _ _).mono (qs := [.regs, .power]) (by decide)).then (fset_onlyParts _ _ _) (by decide)).then
      (withPower_onlyParts _ _) (by decide)
  · exact (only_fset s _ _ (by decide)).trans (only_fset _ PWR_STATE_TRANSITION 1 (by decide))

end

/-! ### Entries and wakes -/

/-- HBM goes into self-refresh, or out of it, on every stack. -/
theorem selfRefresh_fsetAll (s : State) (x : Nat) :
    (range' 0 16).foldl (fun s k => s.fset (stackFld HUB_STACK_SELF_REFRESH k) x) s =
      s.fsetAll ((range' 0 16).map (fun k => (stackFld HUB_STACK_SELF_REFRESH k, x))) := rfl

/-- The self-refresh bits share no bit with each other. -/
theorem selfRefresh_apart : FieldsApart ((range' 0 16).map (stackFld HUB_STACK_SELF_REFRESH)) := by
  unfold FieldsApart
  decide

theorem fget_selfRefresh {s : State} (hi : Inv s) (x : Nat) {k : Nat} (hk : k < 16) :
    ((range' 0 16).foldl (fun s k => s.fset (stackFld HUB_STACK_SELF_REFRESH k) x) s).fget (stackFld HUB_STACK_SELF_REFRESH k) = x % 2 := by
  rw [selfRefresh_fsetAll]
  refine fget_fsetAll_mem _ s hi.1.1 ?_ (List.mem_map.2 ⟨k, (mem_range' 16 0 k).2 ⟨Nat.zero_le k, by omega⟩, rfl⟩)
  rw [List.map_map]
  exact selfRefresh_apart

theorem beside_selfRefresh {K : Fld → Prop} (hK : ∀ g, K g → g.base < 0x8000000) (s : State) (x : Nat) :
    Beside K [.regs] s ((range' 0 16).foldl (fun s k => s.fset (stackFld HUB_STACK_SELF_REFRESH k) x) s) :=
  Beside.foldl (fun v k _ => beside_fset v _ x ⟨(by decide : (1 : Nat) + 1 ≤ 64), fun g hg => apart_of_base (by
    have h1 := hK g hg
    have h2 : 0x8000000 ≤ (stackFld HUB_STACK_SELF_REFRESH k).base := by
      simp only [stackFld, Fld.die, Fld.ix, HUB_STACK_SELF_REFRESH]
      omega
    omega)⟩) s

section
variable {s : State} (hi : Inv s) {p c : Nat}
include hi

/-- PWR_STATE names the state `p`, and no transition. -/
theorem stands_powerState (hp : p ≤ 3) : (s.fsetAll [(PWR_STATE_STATE, p), (PWR_STATE_TRANSITION, 0)]).fget PWR_STATE_STATE = p ∧
    (s.fsetAll [(PWR_STATE_STATE, p), (PWR_STATE_TRANSITION, 0)]).fget PWR_STATE_TRANSITION = 0 := by
  have ha : FieldsApart ([(PWR_STATE_STATE, p), (PWR_STATE_TRANSITION, 0)].map Prod.fst) := by
    change FieldsApart [PWR_STATE_STATE, PWR_STATE_TRANSITION]
    unfold FieldsApart
    decide
  exact ⟨(fget_fsetAll_mem _ s hi.1.1 ha (.head _)).trans (Nat.mod_eq_of_lt (show p < 2 ^ 3 by omega)),
    fget_fsetAll_mem _ s hi.1.1 ha (.tail _ (.head _))⟩

end

/-- The module in the low-power state `p`. -/
def inPower (s : State) (p : Nat) : State :=
  (s.fsetAll [(PWR_STATE_STATE, p), (PWR_STATE_TRANSITION, 0)]).withPower (fun x => { x with trans := none })

theorem inPower_onlyParts (s : State) (p : Nat) : OnlyParts [.regs, .power] s (inPower s p) :=
  ((fsetAll_onlyParts s _).mono (qs := [.regs, .power]) (by decide)).then (withPower_onlyParts _ _) (by decide)

theorem inPower_keeps (s : State) (p : Nat) : Keeps s (inPower s p) :=
  withPower_keeps _ _ (fsetAll_keeps _ (.refl s))

theorem fbit_of_zero {s : State} {f : Fld} (h : s.fget f = 0) : s.fbit f = false := by rw [State.fbit, h]; rfl

theorem powerEntered_idle {s : State} {c : Nat} (ht : s.power.trans = some (1, c)) (hs : Settled s c) :
    s.powerEntered = inPower (s.advance c) 1 := by
  simp only [State.powerEntered, ht, upTo_settled _ _ hs]
  rfl

theorem powerEntered_deep {s : State} {p c : Nat} (ht : s.power.trans = some (p, c)) (hp : 2 ≤ p) (hs : Settled s c) :
    s.powerEntered = (range' 0 16).foldl (fun s k => s.fset (stackFld HUB_STACK_SELF_REFRESH k) 1)
      ((inPower (s.advance c) p).withTiles (fun t => { podPend := t.podPend })) := by
  have h0 : (p == 0) = false := by simp; omega
  have h1 : (p == 1) = false := by simp; omega
  simp only [State.powerEntered, ht, upTo_settled _ _ hs, h0, h1]
  rfl

/-- Tiles whose memories are lost hold canonical tables. -/
theorem tilesWf_empty (l : List (Nat × Nat)) : TilesWf { podPend := l } :=
  ⟨rfl, rfl, rfl, rfl, rfl, rfl, rfl, rfl, .nil⟩

theorem powerStateEntered_stands {s : State} (h : Awake s) {p c : Nat} (ht : s.power.trans = some (p, c)) (h1 : 1 ≤ p) (h3 : p ≤ 3)
    (hs : Settled s c) : ∃ t, exec .powerStateEntered s = .next t ∧ t.now = max s.now c ∧
      t.fget PWR_STATE_STATE = p ∧ t.fbit PWR_STATE_TRANSITION = false ∧ t.power.trans = none ∧ t.mem = s.mem ∧
      (p = 1 → t.tiles = s.tiles) ∧
      (p ≠ 1 → t.tiles.opLine = [] ∧ t.tiles.acc = [] ∧ ∀ k, k < 16 → t.fbit (stackFld HUB_STACK_SELF_REFRESH k) = true) ∧
      OnlyParts [.now, .regs, .tiles, .power] s t := by
  refine ⟨s.powerEntered, congrArg Host.Outcome.next (live_runs h.1 _), ?_⟩
  have hi := (advance_keeps c (.refl s)).inv h.2
  obtain ⟨hst, htr⟩ := stands_powerState hi (p := p) h3
  have ha := ((advance_onlyParts s c).mono (qs := [.now, .regs, .power]) (by decide)).then (inPower_onlyParts _ p) (by decide)
  have hk := (inPower_keeps (s.advance c) p).inv hi
  have hst' : (inPower (s.advance c) p).fget PWR_STATE_STATE = p := hst
  have htr' : (inPower (s.advance c) p).fget PWR_STATE_TRANSITION = 0 := htr
  have hpow : (inPower (s.advance c) p).power.trans = none := rfl
  have hnow : (inPower (s.advance c) p).now = max s.now c := (inPower_onlyParts _ p) .now (by decide)
  by_cases hp : p = 1
  · subst hp
    rw [powerEntered_idle ht hs]
    exact ⟨hnow, hst', fbit_of_zero htr', hpow, ha .mem (by decide), fun _ => ha .tiles (by decide), fun hc => absurd rfl hc,
      ha.mono (by decide)⟩
  · rw [powerEntered_deep ht (by omega) hs]
    generalize inPower (s.advance c) p = u at *
    have hv : Inv (u.withTiles (fun t => { podPend := t.podPend })) := (withTiles_keeps (fun _ _ => tilesWf_empty _) (.refl u)).inv hk
    have hb := beside_selfRefresh (K := fun g => g.base < 0x8000000) (fun _ hg => hg) (u.withTiles (fun t => { podPend := t.podPend })) 1
    refine ⟨Eq.trans (hb.parts .now (by decide)) hnow, (hb.flds hv _ (by decide)).trans hst',
      fbit_of_zero ((hb.flds hv _ (by decide)).trans htr'), (congrArg PowerSt.trans (hb.parts .power (by decide))).trans hpow,
      Eq.trans (hb.parts .mem (by decide)) (ha .mem (by decide)), fun hc => absurd hc hp, fun _ => ⟨?_, ?_, fun k hk => ?_⟩, ?_⟩
    · exact congrArg Tiles.opLine (hb.parts .tiles (by decide))
    · exact congrArg Tiles.acc (hb.parts .tiles (by decide))
    · exact fbit_of_fget (fget_selfRefresh hv 1 hk)
    · exact ((ha.mono (qs := [.now, .regs, .tiles, .power]) (by decide)).then (withTiles_onlyParts u _) (by decide)).then hb.parts (by decide)

/-! ### WAKE -/

/-- The time that a wake from the low-power state `p` takes (R528). -/
def wakeTime (p : Nat) : Nat := if p = 1 then 20000 else if p = 2 then 6000000 else 500000000

theorem wake_in_run {s : State} (ht : s.power.trans = none) (h0 : s.fget PWR_STATE_STATE = 0) : s.wake = s := by
  simp [State.wake, ht, h0]

/-- A wake from the state `p` on cycle `c`. -/
def waking (s : State) (p c : Nat) : State :=
  ((s.fsetAll [(PWR_STATE_STATE, p), (PWR_STATE_TRANSITION, 1)]).withPower (fun x => { x with trans := some (0, c + wakeTime p) })).emit
    (.msg "WAKE" [])

theorem wake_from {s : State} {p : Nat} (ht : s.power.trans = none) (hp : s.fget PWR_STATE_STATE = p) (h1 : 1 ≤ p) :
    s.wake = waking s p s.now := by
  have h0 : p ≠ 0 := by omega
  simp only [State.wake, ht, hp, waking, wakeTime, beq_iff_eq, if_neg h0]

theorem waking_onlyParts (s : State) (p c : Nat) : OnlyParts [.regs, .power, .outbox] s (waking s p c) :=
  (((fsetAll_onlyParts s _).mono (qs := [.regs, .power, .outbox]) (by decide)).then (withPower_onlyParts _ _) (by decide)).then
    (emit_onlyParts _ _) (by decide)

theorem waking_state {s : State} (hi : Inv s) {p : Nat} (hp : p ≤ 3) (c : Nat) :
    (waking s p c).fbit PWR_STATE_TRANSITION = true ∧ (waking s p c).fget PWR_STATE_STATE = p := by
  have ha : FieldsApart ([(PWR_STATE_STATE, p), (PWR_STATE_TRANSITION, 1)].map Prod.fst) := by
    change FieldsApart [PWR_STATE_STATE, PWR_STATE_TRANSITION]
    unfold FieldsApart
    decide
  have hr : (waking s p c).regs = (s.fsetAll [(PWR_STATE_STATE, p), (PWR_STATE_TRANSITION, 1)]).regs := rfl
  refine ⟨fbit_of_fget ?_, ?_⟩
  · exact (fget_congr hr _).trans (fget_fsetAll_mem _ s hi.1.1 ha (.tail _ (.head _)))
  · exact (fget_congr hr _).trans ((fget_fsetAll_mem _ s hi.1.1 ha (.head _)).trans (Nat.mod_eq_of_lt (show p < 2 ^ 3 by omega)))

theorem waking_onlyRegs (s : State) (p c : Nat) : OnlyRegs [PWR_STATE_STATE.base] s (waking s p c) :=
  only_fsetAll (ks := [PWR_STATE_STATE.base]) [(PWR_STATE_STATE, p), (PWR_STATE_TRANSITION, 1)] s (by
    intro q hq
    simp only [List.mem_cons, List.not_mem_nil, or_false] at hq
    rcases hq with rfl | rfl <;> exact .head _)

theorem wake_stands {s : State} (h : Awake s) {p at_ : Nat} (hs : Settled s at_) (ht : s.power.trans = none)
    (hp : s.fget PWR_STATE_STATE = p) (h1 : 1 ≤ p) (h3 : p ≤ 3) : ∃ t, exec (.wake at_) s = .next t ∧
      t.power.trans = some (0, max s.now at_ + (if p = 1 then 20000 else if p = 2 then 6000000 else 500000000)) ∧
      t.fbit PWR_STATE_TRANSITION = true ∧ t.fget PWR_STATE_STATE = p ∧ OnlyParts [.now, .regs, .power, .outbox] s t ∧
      OnlyRegs [PWR_STATE_STATE.base] s t := by
  have he : (s.upTo at_).wake = waking (s.advance at_) p (max s.now at_) := by
    rw [upTo_settled _ _ hs]
    exact wake_from (s := s.advance at_) ht ((fget_advance s at_ _).trans hp) h1
  obtain ⟨htr, hst⟩ := waking_state ((advance_keeps at_ (.refl s)).inv h.2) h3 (max s.now at_)
  exact ⟨_, congrArg Host.Outcome.next ((live_runs h.1 _).trans he), rfl, htr, hst,
    ((advance_onlyParts s at_).mono (by decide)).then (waking_onlyParts _ _ _) (by decide), waking_onlyRegs (s.advance at_) _ _⟩

theorem wake_stays {s : State} (h : Awake s) {at_ : Nat} (hs : Settled s at_) (ht : s.power.trans = none)
    (h0 : s.fget PWR_STATE_STATE = 0) : ∃ t, exec (.wake at_) s = .next t ∧ OnlyParts [.now] s t := by
  have he : (s.upTo at_).wake = s.advance at_ := by
    rw [upTo_settled _ _ hs]
    exact wake_in_run ht ((fget_advance s at_ _).trans h0)
  exact ⟨_, congrArg Host.Outcome.next ((live_runs h.1 _).trans he), advance_onlyParts s at_⟩

/-! ### WAKE_DONE -/

/-- The fields below the tiles' pages. -/
abbrev LowField (g : Fld) : Prop := g.base < 0xC000000

theorem apartFrom_low {f : Fld} (hw : f.lo + f.wd ≤ 64) (h : 0xC000000 ≤ f.base) : ApartFrom LowField f :=
  ⟨hw, fun g hg => apart_of_base (by have : g.base < 0xC000000 := hg; omega)⟩

theorem apartFrom_low_tile {f : Fld} (n : Nat) (hw : f.lo + f.wd ≤ 64) (h : 0xC000000 ≤ f.base) : ApartFrom LowField (f.tile n) :=
  apartFrom_low hw (by simp only [Fld.tile]; omega)

theorem apartFrom_low_ix {f : Fld} (n : Nat) (hw : f.lo + f.wd ≤ 64) (h : 0xC000000 ≤ f.base) : ApartFrom LowField (f.ix n) :=
  apartFrom_low hw (by simp only [Fld.ix]; omega)

theorem apartFrom_low_podMap (n : Nat) {p : Nat} (hp : p < 8) : ApartFrom LowField (podMapFld n p) :=
  apartFrom_low (show 4 * p + 4 ≤ 64 by omega) (show 0xC000000 ≤ (BENCH_POD_MAP_LPOD_0.ix n).base by
    simp only [Fld.ix, BENCH_POD_MAP_LPOD_0]; omega)

/-- A pod that fails the test of R502 gets the spare, or none. -/
theorem beside_podTested (s : State) (n : Nat) {p : Nat} (hp : p < 8) : Beside LowField [.regs] s
    (if s.fbit (BENCH_POD_MAP_SPARE_FREE.ix n) then
      s.fsetAll [(podMapFld n p, 8), (BENCH_POD_MAP_SPARE_FREE.ix n, 0), (BENCH_POD_MAP_SPARE.ix n, 15), (TILE_SPARE_IN_USE.tile n, 1)]
    else
      let s := s.fset (podMapFld n p) 15
      let s := if s.fbit (TILE_POD_UNSERVED.tile n) then s
        else s.fsetAll [(TILE_POD_UNSERVED.tile n, 1), (TILE_POD_LPOD.tile n, p), (TILE_SPARE_EXHAUSTED.tile n, 1)]
      s.fset (TILE_POD_UNSERVED_MASK.tile n) (Nat.lor (s.fget (TILE_POD_UNSERVED_MASK.tile n)) (2 ^ p))) := by
  have h1 := apartFrom_low_podMap n hp
  refine .ite (beside_fsetAll s _ ?_) (((beside_fset s _ 15 h1).trans (.ite (.refl _ _ _) (beside_fsetAll _ _ ?_))).trans
    (beside_fset _ _ _ (apartFrom_low_tile n (by decide) (by decide))))
  · simp only [List.forall_mem_cons, List.not_mem_nil, false_implies, implies_true, and_true]
    exact ⟨h1, apartFrom_low_ix n (by decide) (by decide), apartFrom_low_ix n (by decide) (by decide),
      apartFrom_low_tile n (by decide) (by decide)⟩
  · simp only [List.forall_mem_cons, List.not_mem_nil, false_implies, implies_true, and_true]
    exact ⟨apartFrom_low_tile n (by decide) (by decide), apartFrom_low_tile n (by decide) (by decide),
      apartFrom_low_tile n (by decide) (by decide)⟩

theorem beside_podTest (s : State) (fails : List Nat) : Beside LowField [.regs] s (s.podTest fails) := by
  refine Beside.foldl (fun v n _ => ?_) s
  refine .ite (((beside_fset v _ _ (apartFrom_low_ix n (by decide) (by decide))).trans (.ite (beside_fsetAll _ _ ?_) (.refl _ _ _))).trans
    (Beside.foldl (fun w p hp => beside_podTested w n ?_) _)) (.refl _ _ _)
  · simp only [List.forall_mem_cons, List.not_mem_nil, false_implies, implies_true, and_true]
    exact ⟨apartFrom_low_tile n (by decide) (by decide), apartFrom_low_ix n (by decide) (by decide),
      apartFrom_low_ix n (by decide) (by decide)⟩
  · have := (mem_range' 8 0 p).1 (List.mem_filter.1 hp).1
    omega

/-- What a wake from DORMANT finds lost (R529). -/
def dormantGone (s : State) (fails : List Nat) : State :=
  (((s.clearRegs (fun k _ => dormantLost k)).clearRegs (fun k _ => decide (BENCH_POD_MAP.base ≤ k) &&
    decide (k < BENCH_POD_MAP.base + 640))).podTest fails).tileAttendGone.crkSnapsGone

theorem beside_dormantGone (s : State) (fails : List Nat) : Beside LowField [.regs, .snaps, .attend] s (dormantGone s fails) := by
  have h1 : Beside LowField [.regs] s (s.clearRegs (fun k _ => dormantLost k)) :=
    beside_clearRegs s _ (fun g hg _ => by
      have : g.base < 0xC000000 := hg
      simp only [dormantLost, Bool.or_eq_false_iff, Bool.and_eq_false_iff, decide_eq_false_iff_not]
      omega)
  have h2 := h1.trans (beside_clearRegs _ (fun k _ => decide (BENCH_POD_MAP.base ≤ k) && decide (k < BENCH_POD_MAP.base + 640))
    (fun g hg _ => by
      have h : g.base < 0xC000000 := hg
      have : ¬ BENCH_POD_MAP.base ≤ g.base := by simp only [BENCH_POD_MAP]; omega
      simp [this]))
  have h3 := h2.trans (beside_podTest _ fails)
  unfold dormantGone
  generalize ((s.clearRegs _).clearRegs _).podTest fails = u at *
  have h4 : Beside LowField [.attend] u u.tileAttendGone := .of_parts
    (fun p hp => by cases p <;> simp at hp <;> rfl) (tileAttendGone_keeps u (.refl u)) (by decide)
  have h5 : Beside LowField [.snaps] u.tileAttendGone u.tileAttendGone.crkSnapsGone := .of_parts
    (fun p hp => by cases p <;> simp at hp <;> rfl) (crkSnapsGone_keeps _ (.refl _)) (by decide)
  exact ((h3.mono (by decide) (fun _ => id)).then h4 (by decide)).then h5 (by decide)

/-- The state in which a wake ends, before it is counted: RUN, HBM out of self-refresh, and what DORMANT lost gone. -/
def awoken (s : State) (fails : List Nat) : State :=
  let u := (range' 0 16).foldl (fun s k => s.fset (stackFld HUB_STACK_SELF_REFRESH k) 0) (inPower s 0)
  if s.fget PWR_STATE_STATE == 3 then dormantGone u fails else u

/-- A wake is counted and reported (R562). -/
def wakeNoted (s : State) (p : Nat) : State :=
  ((s.fadd PWR_CNT_WAKES 1).setSts 2 PWR_STS_WOKE).restoreSts (9 + p) 0 (if p == 3 then 255 else 0) (if p == 3 then 15 else 0)
    false false (p == 3)

theorem wakeDone_eq {s : State} {c : Nat} (fails : List Nat) (ht : s.power.trans = some (0, c)) (hs : Settled s c)
    (hb : (wakeNoted (awoken (s.advance c) fails) (s.fget PWR_STATE_STATE)).fbit HRD_CMD_BUSY = false) :
    s.wakeDone fails = wakeNoted (awoken (s.advance c) fails) (s.fget PWR_STATE_STATE) := by
  have he : s.wakeDone fails =
      if (wakeNoted (awoken (s.advance c) fails) (s.fget PWR_STATE_STATE)).fbit HRD_CMD_BUSY then
        ((wakeNoted (awoken (s.advance c) fails) (s.fget PWR_STATE_STATE)).fset HRD_CMD_BUSY 0).hrdRun
          ((wakeNoted (awoken (s.advance c) fails) (s.fget PWR_STATE_STATE)).fget HRD_CMD_OP) true
      else wakeNoted (awoken (s.advance c) fails) (s.fget PWR_STATE_STATE) := by
    simp only [State.wakeDone, ht, upTo_settled _ _ hs]
    rfl
  rw [he, hb, if_neg Bool.false_ne_true]

/-- The fields below the tiles' pages that a wake's own marks leave. -/
abbrev WakeField (g : Fld) : Prop :=
  g.base < 0xC000000 ∧ g.base ≠ PWR_CNT_WAKES.base ∧ g.base ≠ PWR_STS_WOKE.base ∧ g.base ≠ PWR_RESTORE_STS_KIND.base

theorem beside_restoreSts {K : Fld → Prop} (hK : ∀ g, K g → g.base ≠ PWR_RESTORE_STS_KIND.base) (s : State)
    (kind cleared tiles crackers : Nat) (hbm ctxs retest : Bool) :
    Beside K [.regs] s (s.restoreSts kind cleared tiles crackers hbm ctxs retest) := by
  have h (f : Fld) (hw : f.lo + f.wd ≤ 64) (hb : f.base = PWR_RESTORE_STS_KIND.base) : ApartFrom K f :=
    ⟨hw, fun g hg => apart_of_base (hb ▸ hK g hg)⟩
  refine beside_fsetAll s _ ?_
  simp only [List.forall_mem_cons, List.not_mem_nil, false_implies, implies_true, and_true]
  exact ⟨h _ (by decide) rfl, h _ (by decide) rfl, h _ (by decide) rfl, h _ (by decide) rfl, h _ (by decide) rfl,
    h _ (by decide) rfl, h _ (by decide) rfl, h _ (by decide) rfl⟩

theorem beside_wakeNoted (s : State) (p : Nat) : Beside WakeField [.regs, .outbox] s (wakeNoted s p) := by
  have h1 : ApartFrom WakeField PWR_CNT_WAKES := ⟨by decide, fun g hg => apart_of_base hg.2.1⟩
  have h2 : ApartFrom WakeField PWR_STS_WOKE := ⟨by decide, fun g hg => apart_of_base hg.2.2.1⟩
  exact (((beside_fadd s _ 1 h1).mono (by decide) (fun _ => id)).then (beside_setSts _ 2 _ h2) (by decide)).then
    (beside_restoreSts (fun g hg => hg.2.2.2) _ _ _ _ _ _ _ _) (by decide)

/-- A wake is counted once, and says so. -/
theorem wakeNoted_counts {s : State} (hi : Inv s) (p : Nat) : Counts PWR_CNT_WAKES 1 s (wakeNoted s p) ∧
    (wakeNoted s p).fbit PWR_STS_WOKE = true := by
  have hk1 := (fadd_keeps s PWR_CNT_WAKES 1 (.refl s)).inv hi
  have hk2 := (setSts_keeps _ 2 PWR_STS_WOKE (.refl (s.fadd PWR_CNT_WAKES 1))).inv hk1
  have hr := beside_restoreSts (K := fun g => g.base ≠ PWR_RESTORE_STS_KIND.base) (fun _ h => h)
    ((s.fadd PWR_CNT_WAKES 1).setSts 2 PWR_STS_WOKE) (9 + p) 0 (if p == 3 then 255 else 0) (if p == 3 then 15 else 0) false false (p == 3)
  constructor
  · exact ((hr.flds hk2 PWR_CNT_WAKES (by decide)).trans
      (fget_setSts_apart _ 2 PWR_STS_WOKE _ hk1.1.1 (by decide) (by decide))).trans (counts_fadd hi _ 1 (by decide))
  · exact hr.fbit hk2 (by decide) (fbit_setSts _ 2 PWR_STS_WOKE hk1.1.1 (by decide) rfl)

theorem stackFld_low {k : Nat} (hk : k < 16) : WakeField (stackFld HUB_STACK_SELF_REFRESH k) := by
  simp only [WakeField, stackFld, Fld.die, Fld.ix, HUB_STACK_SELF_REFRESH, PWR_CNT_WAKES, PWR_STS_WOKE, PWR_RESTORE_STS_KIND]
  omega

/-- What stands when a module has come to RUN. -/
theorem awoken_stands {s : State} (hi : Inv s) (fails : List Nat) :
    (awoken s fails).fget PWR_STATE_STATE = 0 ∧ (awoken s fails).fget PWR_STATE_TRANSITION = 0 ∧
      (awoken s fails).fget HRD_CMD_BUSY = s.fget HRD_CMD_BUSY ∧ (awoken s fails).fget PWR_CNT_WAKES = s.fget PWR_CNT_WAKES ∧
      (awoken s fails).power.trans = none ∧
      (∀ k, k < 16 → (awoken s fails).fget (stackFld HUB_STACK_SELF_REFRESH k) = 0) ∧
      OnlyParts [.regs, .snaps, .attend, .power] s (awoken s fails) ∧
      (s.fget PWR_STATE_STATE ≠ 3 → OnlyParts [.regs, .power] s (awoken s fails)) ∧ Inv (awoken s fails) := by
  obtain ⟨hst, htr⟩ := stands_powerState hi (p := 0) (by decide)
  have hst' : (inPower s 0).fget PWR_STATE_STATE = 0 := hst
  have htr' : (inPower s 0).fget PWR_STATE_TRANSITION = 0 := htr
  have hk := (inPower_keeps s 0).inv hi
  have hall : Beside (fun g => g.base ≠ PWR_STATE_STATE.base) [.regs] s (s.fsetAll [(PWR_STATE_STATE, 0), (PWR_STATE_TRANSITION, 0)]) := by
    refine beside_fsetAll s _ ?_
    simp only [List.forall_mem_cons, List.not_mem_nil, false_implies, implies_true, and_true]
    exact ⟨⟨by decide, fun g hg => apart_of_base hg⟩, ⟨by decide, fun g hg => apart_of_base hg⟩⟩
  have hbusy : (inPower s 0).fget HRD_CMD_BUSY = s.fget HRD_CMD_BUSY := hall.flds hi _ (by decide)
  have hwak : (inPower s 0).fget PWR_CNT_WAKES = s.fget PWR_CNT_WAKES := hall.flds hi _ (by decide)
  have hparts := inPower_onlyParts s 0
  have hpow : (inPower s 0).power.trans = none := rfl
  unfold awoken
  generalize inPower s 0 = u at *
  have hb := beside_selfRefresh (K := fun g => g.base < 0x8000000) (fun _ hg => hg) u 0
  have hz : ∀ k, k < 16 → ((range' 0 16).foldl (fun s k => s.fset (stackFld HUB_STACK_SELF_REFRESH k) 0) u).fget
      (stackFld HUB_STACK_SELF_REFRESH k) = 0 := fun k h => fget_selfRefresh hk 0 h
  have h1 := (hb.flds hk _ (by decide)).trans hst'
  have h2 := (hb.flds hk _ (by decide)).trans htr'
  have h3 := (hb.flds hk _ (by decide)).trans hbusy
  have h4 := (hb.flds hk _ (by decide)).trans hwak
  have h5 := hparts.then hb.parts (by decide)
  have h6 := hb.keeps.inv hk
  have h7 : ((range' 0 16).foldl (fun s k => s.fset (stackFld HUB_STACK_SELF_REFRESH k) 0) u).power.trans = none :=
    (congrArg PowerSt.trans (hb.parts .power (by decide))).trans hpow
  generalize (range' 0 16).foldl (fun s k => s.fset (stackFld HUB_STACK_SELF_REFRESH k) 0) u = v at *
  dsimp only
  have hd := beside_dormantGone v fails
  by_cases hf : s.fget PWR_STATE_STATE = 3
  · rw [if_pos (by rw [hf]; rfl)]
    exact ⟨(hd.flds h6 _ (by decide)).trans h1, (hd.flds h6 _ (by decide)).trans h2, (hd.flds h6 _ (by decide)).trans h3,
      (hd.flds h6 _ (by decide)).trans h4, (congrArg PowerSt.trans (hd.parts .power (by decide))).trans h7,
      fun k hk => (hd.flds h6 _ (stackFld_low hk).1).trans (hz k hk),
      (h5.mono (by decide)).then hd.parts (by decide), fun hc => absurd hf hc, hd.keeps.inv h6⟩
  · rw [if_neg (by simpa using hf)]
    exact ⟨h1, h2, h3, h4, h7, hz, h5.mono (by decide), fun _ => h5, h6⟩

theorem wakeDone_stands {s : State} (h : Awake s) {c : Nat} (fails : List Nat) (ht : s.power.trans = some (0, c))
    (hb : s.fbit HRD_CMD_BUSY = false) (hs : Settled s c) : ∃ t, exec (.wakeDone fails) s = .next t ∧
      t.now = max s.now c ∧ t.fget PWR_STATE_STATE = 0 ∧ t.fbit PWR_STATE_TRANSITION = false ∧ t.power.trans = none ∧
      Counts PWR_CNT_WAKES 1 s t ∧ t.fbit PWR_STS_WOKE = true ∧ t.mem = s.mem ∧
      (∀ k, k < 16 → t.fbit (stackFld HUB_STACK_SELF_REFRESH k) = false) ∧
      (s.fget PWR_STATE_STATE ≠ 3 → t.attend = s.attend ∧ t.snaps = s.snaps) ∧
      OnlyParts [.now, .regs, .snaps, .attend, .power, .outbox] s t := by
  have hi := (advance_keeps c (.refl s)).inv h.2
  obtain ⟨hst, htr, hbusy, hcnt, hpow, hself, hparts, hshallow, hiu⟩ := awoken_stands hi fails
  have hn := beside_wakeNoted (awoken (s.advance c) fails) (s.fget PWR_STATE_STATE)
  obtain ⟨hc, hwoke⟩ := wakeNoted_counts hiu (s.fget PWR_STATE_STATE)
  have hbz : (wakeNoted (awoken (s.advance c) fails) (s.fget PWR_STATE_STATE)).fbit HRD_CMD_BUSY = false := by
    rw [State.fbit, hn.flds hiu _ (by decide), hbusy, fget_advance]
    exact hb
  have hp : OnlyParts [.now, .regs, .snaps, .attend, .power, .outbox] s (awoken (s.advance c) fails) :=
    ((advance_onlyParts s c).mono (by decide)).then hparts (by decide)
  rw [fget_advance] at hcnt
  refine ⟨_, congrArg Host.Outcome.next ((live_runs h.1 _).trans (wakeDone_eq fails ht hs hbz)), ?_⟩
  rw [show (s.advance c).fget PWR_STATE_STATE = s.fget PWR_STATE_STATE from fget_advance s c _] at hshallow
  have hnow : (awoken (s.advance c) fails).now = max s.now c := hparts .now (by decide)
  have hat : s.fget PWR_STATE_STATE ≠ 3 → (awoken (s.advance c) fails).attend = s.attend ∧
      (awoken (s.advance c) fails).snaps = s.snaps := fun hne =>
    ⟨(hshallow hne) .attend (by decide), (hshallow hne) .snaps (by decide)⟩
  generalize awoken (s.advance c) fails = u at *
  refine ⟨Eq.trans (hn.parts .now (by decide)) hnow, (hn.flds hiu _ (by decide)).trans hst,
    fbit_of_zero ((hn.flds hiu _ (by decide)).trans htr), (congrArg PowerSt.trans (hn.parts .power (by decide))).trans hpow,
    hc.trans (by rw [hcnt]), hwoke, Eq.trans (hn.parts .mem (by decide)) (hp .mem (by decide)),
    fun k hk => fbit_of_zero ((hn.flds hiu _ (stackFld_low hk)).trans (hself k hk)),
    fun hne => ⟨Eq.trans (hn.parts .attend (by decide)) (hat hne).1, Eq.trans (hn.parts .snaps (by decide)) (hat hne).2⟩,
    hp.then hn.parts (by decide)⟩

end Sys2Proof.Laws
end

section
/-! PROOFS. The switch off, and what O50 says of the power states (R530). -/

namespace Sys2Proof.Laws

open Sys2Proof.Machine Sys2Proof.Safety

/-! ### The SHUTDOWN record on the flash -/

/-- A record on the boot flash stands in one of its two slots (R545). -/
theorem mem_slotPut_two (n : Nat) (r : CritRec) : some r ∈ slotPut [none, none] (n % 2) (some r) := by
  rcases Nat.mod_two_eq_zero_or_one n with h | h <;> rw [h] <;> simp [slotPut, modAt]

theorem newestRec_fset (s : State) (f : Fld) (x : Nat) : (s.fset f x).newestRec = s.newestRec := rfl

/-- A record bears a SEQ above that of the newest that stands (R546). -/
theorem critRec_seq (s : State) (kind cause : Nat) (flash : Bool) :
    slotSeq (s.newestRec.map (fun x => x.1)) < (s.critRec kind cause flash).seq := by
  have h : (s.critRec kind cause flash).seq = match s.newestRec with | some (r, _) => r.seq + 1 | none => 1 := rfl
  rw [h]
  cases s.newestRec with
  | none => exact Nat.one_pos
  | some x => exact Nat.lt_succ_self _

theorem flashPut_power (s : State) (l : List (Option CritRec)) (r : CritRec) :
    (((s.withPower (fun p => { p with flash := l })).setSts 3 HRD_STS_SAVE_FALLBACK).reportRec r 1).power.flash = l := by
  have h1 := (setSts_onlyParts (s.withPower (fun p => { p with flash := l })) 3 HRD_STS_SAVE_FALLBACK) .power (by decide)
  generalize (s.withPower (fun p => { p with flash := l })).setSts 3 HRD_STS_SAVE_FALLBACK = t at *
  have h2 : (t.reportRec r 1).power = t.power := (fsetAll_onlyParts t _) .power (by decide)
  rw [h2, h1]
  rfl

theorem recToFlash_flash (s : State) (kind cause : Nat) :
    some (s.critRec kind cause true) ∈ (s.recToFlash kind cause).power.flash := by
  unfold State.recToFlash
  generalize s.critRec kind cause true = r
  dsimp only
  rw [flashPut_power]
  exact mem_slotPut_two _ _

theorem fadd_setSts_power (s : State) (f g : Fld) (p : Nat) : ((s.fadd f 1).setSts p g).power = s.power :=
  (setSts_onlyParts _ p g) .power (by decide)

theorem routineRec_flash (s : State) (kind : Nat) {cartFails : Bool} (h : s.cartUsable = false) :
    some (s.critRec kind 0 true) ∈ (s.routineRec kind cartFails false).power.flash := by
  have hw : s.writeRec kind 0 cartFails false = (s.recToFlash kind 0, true) := by
    simp [State.writeRec, h]
  have he : s.routineRec kind cartFails false = ((s.recToFlash kind 0).fadd PWR_CNT_RECORDS 1).setSts 2 PWR_STS_RECORD_DONE := by
    simp only [State.routineRec, hw, if_true]
  rw [he, fadd_setSts_power]
  exact recToFlash_flash s kind 0

theorem classC_power (s : State) (p : Nat) (f : Fld) : (s.classC p f).power = s.power := (classC_onlyParts s p f) .power (by decide)

/-- The report of the cartridge's life leaves the flash. -/
theorem lifeUpdate_flash (s : State) : s.lifeUpdate.power.flash = s.power.flash := by
  unfold State.lifeUpdate
  cases s.power.cart with
  | none => rfl
  | some c =>
    dsimp only
    have h1 (t : State) : (if 57000000000000000 ≤ c.written && !t.power.lifeWarned then
        (t.withPower (fun p => { p with lifeWarned := true })).classC 3 HRD_STS_LIFE_WARN else t).power.flash = t.power.flash := by
      split
      · exact (congrArg PowerSt.flash (classC_power _ 3 _)).trans rfl
      · rfl
    have h2 (t : State) : (if 60000000000000000 ≤ c.written && !t.fbit HRD_STATE_WORN then
        (t.fset HRD_STATE_WORN 1).classC 3 HRD_STS_WORN else t).power.flash = t.power.flash := by
      split
      · exact (congrArg PowerSt.flash (classC_power _ 3 _)).trans rfl
      · rfl
    exact (h2 _).trans ((h1 _).trans (congrArg PowerSt.flash ((fsetAll_onlyParts s _) .power (by decide))))

theorem cartUsable_target (s : State) (x : Nat) : (s.fset PWR_STATE_TARGET x).cartUsable = s.cartUsable := by
  simp only [State.cartUsable, State.fbit, fget_fset_base s PWR_STATE_TARGET HRD_STATE_PRESENT x (by decide),
    fget_fset_base s PWR_STATE_TARGET HRD_STATE_AUTHENTICATED x (by decide),
    fget_fset_base s PWR_STATE_TARGET HRD_STATE_RELEASED x (by decide)]
  rfl

/-! ### The power stage off -/

/-- A cold start finds every byte of HBM 0. -/
theorem rd8_coldClear (s : State) {a : Nat} (h : a < 0x10000000000) : s.coldClear.rd8 a = 0 := by
  have hm : s.coldClear.mem = ((s.clearRegs (fun _ f => f.surv != .k)).zero 0 0x10000000000).mem := rfl
  rw [rd8_congr hm, rd8_zero, if_pos ⟨Nat.zero_le a, h⟩]

theorem powerOff_accepted {s : State} (hi : Inv s) (b1 b2 : Bool) (hb : s.powerBusy = false) (hr : s.inRun = true) :
    (s.fset PWR_STATE_TARGET 4).powerOff b1 b2 =
      ((s.fset PWR_STATE_TARGET 4).record' 2 b1 b2).coldClear.withPower (fun p => { p with halt := .off }) := by
  rw [State.powerOff, powerBusy_target, inRun_target hi, hb, hr]
  rfl

theorem powerOff_refused {s : State} (hi : Inv s) (b1 b2 : Bool) (h : s.powerBusy = true ∨ s.inRun = false) :
    (s.fset PWR_STATE_TARGET 4).powerOff b1 b2 = (s.fset PWR_STATE_TARGET 4).powerRefused := by
  have hc : (s.powerBusy || !s.inRun) = true := by rcases h with h | h <;> simp [h]
  rw [State.powerOff, powerBusy_target, inRun_target hi, if_pos hc]

theorem pwrOff_stands {s : State} (h : Awake s) (b1 b2 : Bool) (hb : s.powerBusy = false) (hr : s.inRun = true) :
    ∃ t, exec (.pwrOff b1 b2) s = .next t ∧ t.power.halt = .off ∧ t.ctxs = [{}, {}, {}, {}] ∧ (∀ a, a < 0x10000000000 → t.rd8 a = 0) ∧
      (s.cartUsable = false → b2 = false → ∃ r ∈ t.power.flash, r.any (fun r => r.kind == 2 &&
        decide (slotSeq (s.newestRec.map (fun x => x.1)) < r.seq)) = true) := by
  refine ⟨_, congrArg Host.Outcome.next ((live_runs h.1 _).trans (powerOff_accepted h.2 b1 b2 hb hr)), rfl, rfl,
    fun a ha => rd8_coldClear _ ha, fun hu hf => ?_⟩
  subst hf
  refine ⟨some ((s.fset PWR_STATE_TARGET 4).critRec 2 0 true), ?_, ?_⟩
  · change _ ∈ ((s.fset PWR_STATE_TARGET 4).record' 2 b1 false).power.flash
    rw [State.record', lifeUpdate_flash]
    exact routineRec_flash _ 2 ((cartUsable_target s 4).trans hu)
  · have hseq := critRec_seq (s.fset PWR_STATE_TARGET 4) 2 0 true
    rw [newestRec_fset] at hseq
    simpa using ⟨rfl, hseq⟩

/-- Settles O50: requests, entries, wakes and the switch off, each by its own lemma. -/
theorem powerStatesAreEnteredAndLeft : Obligations.PowerStatesAreEnteredAndLeft := by
  unfold Obligations.PowerStatesAreEnteredAndLeft
  intro s at_ h hs
  have refused (x : Nat) (hx : x < 8) (hc : s.powerBusy = true ∨ s.inRun = false) :
      s.live (fun s => (s.fset PWR_STATE_TARGET x).powerEnter x) = (s.fset PWR_STATE_TARGET x).powerRefused :=
    (live_runs h.1 _).trans (powerEnter_refused h.2 hc)
  refine ⟨?_, fun b1 b2 => pwrOff_stands h b1 b2, fun b1 b2 hc => ?_, fun p c => powerStateEntered_stands h,
    fun p => wake_stands h hs, wake_stays h hs, fun c fails => wakeDone_stands h fails⟩
  · simp only [List.forall_mem_cons, List.not_mem_nil, false_implies, implies_true, and_true]
    refine ⟨⟨fun hc => ?_, fun hb hr => ?_⟩, ⟨fun hc => ?_, fun hb hr => ?_⟩, ⟨fun hc => ?_, fun hb hr => ?_⟩⟩
    · exact ⟨_, congrArg Host.Outcome.next (refused 1 (by decide) hc), powerRefused_target h.2 1 (by decide)⟩
    · exact ⟨_, congrArg Host.Outcome.next (live_runs h.1 _), powerEnter_accepted h.2 (x := 1) (by decide) hb hr⟩
    · exact ⟨_, congrArg Host.Outcome.next (refused 2 (by decide) hc), powerRefused_target h.2 2 (by decide)⟩
    · exact ⟨_, congrArg Host.Outcome.next (live_runs h.1 _), powerEnter_accepted h.2 (x := 2) (by decide) hb hr⟩
    · exact ⟨_, congrArg Host.Outcome.next (refused 3 (by decide) hc), powerRefused_target h.2 3 (by decide)⟩
    · exact ⟨_, congrArg Host.Outcome.next (live_runs h.1 _), powerEnter_accepted h.2 (x := 3) (by decide) hb hr⟩
  · obtain ⟨hsts, _, hparts, _⟩ := powerRefused_target h.2 4 (by decide)
    exact ⟨_, congrArg Host.Outcome.next ((live_runs h.1 _).trans (powerOff_refused h.2 b1 b2 hc)), hsts, hparts⟩

end Sys2Proof.Laws
end

section
/-! PROOFS. Hold-up arming, limits, the clock's lock and sensors (R461, R532, R534, R537, R539, R618, R621 to R624). -/

namespace Sys2Proof.Laws

open Sys2Proof.Machine Sys2Proof.Safety

/-! ### Hold-up (R537, R539) -/

theorem fbit_fset_apart {s : State} (hi : Inv s) (f g : Fld) (x : Nat) (hw : f.lo + f.wd ≤ 64) (ha : apart f g = true) :
    (s.fset f x).fbit g = s.fbit g := congrArg (fun y => y != 0) (fget_fset_apart s f g x hi.1.1 hw ha)

theorem fbit_congr {s t : State} (h : t.regs = s.regs) (f : Fld) : t.fbit f = s.fbit f := congrArg (fun y => y != 0) (fget_congr h f)

theorem onlyParts_arm (s : State) : OnlyParts [.regs] s s.arm := .ite (fset_onlyParts s _ _) (.refl _ s)

theorem only_arm {ks : List Nat} (s : State) (h : PWR_STATE_ARMED.base ∈ ks) : OnlyRegs ks s s.arm := by
  unfold State.arm
  split
  · exact only_fset s _ _ h
  · exact .refl ks s

theorem armed_arm {s : State} (hi : Inv s) : s.arm.fbit PWR_STATE_ARMED = ((s.power.busUp && s.bankOk) || s.fbit PWR_STATE_ARMED) := by
  unfold State.arm
  by_cases h : (s.power.busUp && s.bankOk) = true
  · rw [if_pos h, h, fbit_fset_one s _ hi.1.1 (by decide) rfl, Bool.true_or]
  · rw [if_neg h, eq_false_of_ne_true h, Bool.false_or]

theorem overLimit_facts : PWR_STS_OVER_LIMIT.base ∉ noteRegs ∧ PWR_STS_OVER_LIMIT.base ≠ (FAULT_CNT_C_RAISED.pageOf 2).base ∧
    PWR_CNT_OVER_LIMIT.base ∉ noteRegs ∧ PWR_CNT_OVER_LIMIT.base ≠ (FAULT_CNT_C_RAISED.pageOf 2).base := by decide

/-- What a limit's class C leaves of its count. -/
theorem beside_overLimit (u : State) : Beside (· = PWR_CNT_OVER_LIMIT) [.regs, .run, .attend, .fifos, .cap, .outbox] u
    (u.classC 2 PWR_STS_OVER_LIMIT) :=
  beside_classC u (by rintro g rfl; exact overLimit_facts.2.2.1) 2 _ ⟨by decide, by rintro g rfl; decide⟩
    (by rintro g rfl; exact overLimit_facts.2.2.2)

section
variable {s : State} {at_ : Nat} (h : Awake s)
include h

theorem holdupArmed_stands (hs : Settled s at_) : ∃ t, exec (.holdupArmed at_) s = .next t ∧ t.now = max s.now at_ ∧ t.power.busUp = true ∧
    t.fbit PWR_STATE_ARMED = (s.bankOk || s.fbit PWR_STATE_ARMED) ∧ OnlyParts [.now, .regs, .power] s t ∧
    OnlyRegs [PWR_STATE_ARMED.base] s t := by
  let u := (s.advance at_).withPower (fun p => { p with busUp := true })
  have hu : OnlyParts [.now, .power] s u :=
    ((advance_onlyParts s at_).mono (by decide)).then (withPower_onlyParts _ _) (by decide)
  have hi : Inv u := (withPower_keeps _ _ (advance_keeps at_ (.refl s))).inv h.2
  have hr : u.regs = s.regs := hu .regs (by decide)
  have he : s.live (fun s => ((s.upTo at_).withPower (fun p => { p with busUp := true })).arm) = u.arm := by
    rw [live_runs h.1, upTo_settled _ _ hs]
  have hp := onlyParts_arm u
  refine ⟨u.arm, congrArg Host.Outcome.next he, hp .now (by decide), congrArg PowerSt.busUp (hp .power (by decide)), ?_,
    (hu.mono (by decide)).then hp (by decide), (hu.onlyRegs (by decide) _).trans (only_arm u (.head _))⟩
  rw [armed_arm hi, show u.power.busUp = true from rfl, Bool.true_and, fbit_congr hr, State.bankOk, State.bankOk, fbit_congr hr,
    fbit_congr hr]

theorem capOverride_stands (hb : s.fbit CAP_MEAS_BELOW_FLOOR = true) : ∃ t, exec .capOverride s = .next t ∧
    t.fbit CAP_MEAS_OVERRIDDEN = true ∧ (s.power.busUp = true → t.fbit PWR_STATE_ARMED = true) ∧ OnlyParts [.regs] s t ∧
    OnlyRegs [CAP_MEAS_OVERRIDDEN.base, PWR_STATE_ARMED.base] s t := by
  have he : s.live (fun s => s.capOverride) = (s.fset CAP_MEAS_OVERRIDDEN 1).arm := by
    rw [live_runs h.1, State.capOverride, if_pos hb]
  have hi : Inv (s.fset CAP_MEAS_OVERRIDDEN 1) := (fset_keeps _ 1 (.refl s)).inv h.2
  have ho : (s.fset CAP_MEAS_OVERRIDDEN 1).fbit CAP_MEAS_OVERRIDDEN = true := fbit_fset_one s _ h.2.1.1 (by decide) rfl
  refine ⟨_, congrArg Host.Outcome.next he, ?_, fun hup => ?_, (fset_onlyParts s _ _).trans (onlyParts_arm _),
    (only_fset s _ _ (.head _)).trans (only_arm _ (.tail _ (.head _)))⟩
  · exact (congrArg (fun y => y != 0) ((only_arm (ks := [PWR_STATE_ARMED.base]) _ (.head _)).fget _ (by decide))).trans ho
  · rw [armed_arm hi, State.bankOk, ho, Bool.or_true, Bool.and_true, show (s.fset CAP_MEAS_OVERRIDDEN 1).power.busUp = true from hup,
      Bool.true_or]

omit h in
theorem capOverride_idle (hb : s.fbit CAP_MEAS_BELOW_FLOOR = false) (h : Awake s) : exec .capOverride s = .next s := by
  have he : s.live (fun s => s.capOverride) = s := by
    rw [live_runs h.1, State.capOverride, hb, if_neg Bool.false_ne_true]
  exact congrArg Host.Outcome.next he

/-! ### Limits (R532, R534) -/

theorem powerOverLimit_stands (hs : Settled s at_) : ∃ t, exec (.powerOverLimit at_) s = .next t ∧ Counts PWR_CNT_OVER_LIMIT 1 s t ∧
    t.fbit PWR_STS_OVER_LIMIT = true ∧ RaisesC s t ∧ (t.attendOf 2).expiry.isSome = true ∧
    OnlyParts [.now, .regs, .run, .attend, .fifos, .cap, .outbox] s t := by
  have he : s.live (fun s => ((s.upTo at_).fadd PWR_CNT_OVER_LIMIT 1).classC 2 PWR_STS_OVER_LIMIT) =
      ((s.advance at_).fadd PWR_CNT_OVER_LIMIT 1).classC 2 PWR_STS_OVER_LIMIT := by rw [live_runs h.1, upTo_settled _ _ hs]
  have hi := (advance_keeps at_ (.refl s)).inv h.2
  have hi' := (fadd_keeps _ PWR_CNT_OVER_LIMIT 1 (.refl (s.advance at_))).inv hi
  have hc := (beside_overLimit ((s.advance at_).fadd PWR_CNT_OVER_LIMIT 1)).after_counts hi' rfl (counts_fadd hi PWR_CNT_OVER_LIMIT 1 (by decide))
  have hr : TickMarks s ((s.advance at_).fadd PWR_CNT_OVER_LIMIT 1) := .of_run rfl
  refine ⟨_, congrArg Host.Outcome.next he, ?_, ?_, hr.then_raisesC (classC_raisesC _ 2 _), classCWith_expiry _ 2 _ 5 0, ?_⟩
  · unfold Counts at hc ⊢
    rwa [fget_advance] at hc
  · exact fbit_of_fget (fget_classCWith _ 2 _ 5 0 hi'.1.1 (by decide) rfl overLimit_facts.1 overLimit_facts.2.1)
  · exact ((advance_onlyParts s at_).mono (by decide)).trans
      (((fadd_onlyParts _ _ _).mono (by decide)).then (classC_onlyParts _ 2 _) (by decide))

theorem outsideRating_stands (hs : Settled s at_) : ∃ t, exec (.outsideRating at_) s = .next t ∧ t.fbit PWR_STS_OVER_LIMIT = true ∧ RaisesC s t ∧
    t.fget PWR_CNT_OVER_LIMIT = s.fget PWR_CNT_OVER_LIMIT ∧ (t.attendOf 2).expiry.isSome = true ∧
    OnlyParts [.now, .regs, .run, .attend, .fifos, .cap, .outbox] s t := by
  have he : s.live (fun s => (s.upTo at_).classC 2 PWR_STS_OVER_LIMIT) = (s.advance at_).classC 2 PWR_STS_OVER_LIMIT := by
    rw [live_runs h.1, upTo_settled _ _ hs]
  have hi := (advance_keeps at_ (.refl s)).inv h.2
  have hr : TickMarks s (s.advance at_) := .of_run rfl
  refine ⟨_, congrArg Host.Outcome.next he, ?_, hr.then_raisesC (classC_raisesC _ 2 _), ?_, classCWith_expiry _ 2 _ 5 0, ?_⟩
  · exact fbit_of_fget (fget_classCWith _ 2 _ 5 0 hi.1.1 (by decide) rfl overLimit_facts.1 overLimit_facts.2.1)
  · exact ((beside_overLimit (s.advance at_)).flds hi _ rfl).trans (fget_advance s at_ _)
  · exact ((advance_onlyParts s at_).mono (by decide)).then (classC_onlyParts _ 2 _) (by decide)

/-! ### The clock's lock (R618) -/

omit h in
theorem clkUsable_advance (s : State) (c : Nat) : (s.advance c).clkUsable = s.clkUsable := by
  simp only [State.clkUsable, fget_advance]

theorem clkLocked_stands (hs : Settled s at_) : ∃ t, exec (.clkLocked at_) s = .next t ∧ t.now = max s.now at_ ∧
    t.fbit TICK_CLKSRC_LOCKED = (s.clkUsable || s.fbit TICK_CLKSRC_LOCKED) ∧ OnlyParts [.now, .regs] s t ∧
    OnlyRegs [TICK_CLKSRC_LOCKED.base] s t := by
  have he : s.live (fun s => if (s.upTo at_).clkUsable then (s.upTo at_).fset TICK_CLKSRC_LOCKED 1 else s.upTo at_) =
      if s.clkUsable then (s.advance at_).fset TICK_CLKSRC_LOCKED 1 else s.advance at_ := by
    rw [live_runs h.1, upTo_settled _ _ hs, clkUsable_advance]
  refine ⟨_, congrArg Host.Outcome.next he, ?_⟩
  have ha := advance_onlyParts s at_
  by_cases hu : s.clkUsable = true
  · rw [if_pos hu, hu, Bool.true_or]
    exact ⟨rfl, fbit_fset_one _ _ ((advance_keeps at_ (.refl s)).inv h.2).1.1 (by decide) rfl,
      (ha.mono (by decide)).then (fset_onlyParts _ _ _) (by decide),
      (ha.onlyRegs (by decide) _).trans (only_fset _ _ _ (.head _))⟩
  · rw [if_neg hu, eq_false_of_ne_true hu, Bool.false_or]
    exact ⟨rfl, fbit_congr (ha .regs (by decide)) _, ha.mono (by decide), ha.onlyRegs (by decide) _⟩

theorem clkLost_idle (hs : Settled s at_) (hj : s.job.ctx = none) : ∃ t, exec (.clkLost at_) s = .next t ∧
    t.fbit TICK_CLKSRC_LOCKED = false ∧ OnlyParts [.now, .regs] s t ∧ OnlyRegs [TICK_CLKSRC_LOCKED.base] s t := by
  have he : s.live (fun s => (s.upTo at_).clkLost) = (s.advance at_).fset TICK_CLKSRC_LOCKED 0 := by
    rw [live_runs h.1, upTo_settled _ _ hs, State.clkLost, if_neg (by rw [show ((s.advance at_).fset TICK_CLKSRC_LOCKED 0).job.ctx = none from hj]; decide)]
  have ha := advance_onlyParts s at_
  refine ⟨_, congrArg Host.Outcome.next he, ?_, (ha.mono (by decide)).then (fset_onlyParts _ _ _) (by decide),
    (ha.onlyRegs (by decide) _).trans (only_fset _ _ _ (.head _))⟩
  exact fbit_of_zero (fget_fset_same _ TICK_CLKSRC_LOCKED 0 ((advance_keeps at_ (.refl s)).inv h.2).1.1 (by decide))

end

end Sys2Proof.Laws
end

section
/-! PROOFS. Faults of class D within a job: the count, the notes and the abort (R410, R492, R496). -/

namespace Sys2Proof.Laws

open Sys2Proof.Machine Sys2Proof.Safety

/-- A fault of class D is counted and noted. -/
def classDNoted (s : State) (p off bit : Nat) : State := ((s.fadd (FAULT_CNT_D_TAKEN.pageOf p) 1).faultEvent 3 p off bit).capFault 3

/-- The start of an abort: its cause stands, and the notices go out. -/
def aborted (s : State) (cause : Nat) : State :=
  ((s.withJob (fun j => { j with aborting := some (s.fget HULL_ORCH_MODULE, cause) })).setSts 0 HULL_ORCH_STS_ABORT_SENT).sendNotice
    s.now (s.fget HULL_ORCH_MODULE) cause

theorem beginAbort_aborted {s : State} {cause : Nat} (hj : s.job.ctx ≠ none) (ha : s.job.aborting = none) :
    s.beginAbort cause = aborted s cause := by
  have hc : (s.job.ctx.isNone || s.job.aborting.isSome) = false := by
    rw [ha, Option.isSome_none, Bool.or_false, Option.isNone_eq_false_iff, Option.isSome_iff_ne_none]
    exact hj
  rw [State.beginAbort, hc, if_neg Bool.false_ne_true]
  rfl

/-- The class D fault of a page in its job, before the abort begins. -/
def classDTaken (s : State) (p off bit : Nat) : State :=
  (classDNoted s p off bit).withPower (fun q => { q with classD := q.classD ++ [(p, (classDNoted s p off bit).now)] })

theorem classDNoted_onlyParts (s : State) (p off bit : Nat) : OnlyParts [.regs, .fifos, .cap, .outbox] s (classDNoted s p off bit) :=
  (((fadd_onlyParts s _ _).mono (qs := [.regs, .fifos, .cap, .outbox]) (by decide)).then (event_onlyParts _ _ _ _) (by decide)).then
    (capFault_onlyParts _ 3) (by decide)

theorem classD_in_job {s : State} {p off bit cause : Nat} (h3 : p ≠ 3) (h7 : p ≠ 7) (hj : s.job.ctx ≠ none) (ha : s.job.aborting = none) :
    s.classD p off bit cause = aborted (classDTaken s p off bit) cause := by
  have hp := classDNoted_onlyParts s p off bit
  have hjob : (classDNoted s p off bit).job = s.job := hp .job (by decide)
  have hsome : s.job.ctx.isSome = true := Option.isSome_iff_ne_none.2 hj
  have e : s.classD p off bit cause = (classDTaken s p off bit).classDAction p ((classDTaken s p off bit).attendOf p).fifo cause := by
    have hc : ((classDNoted s p off bit).job.ctx.isSome && p != 3 && p != 7) = true := by
      rw [hjob, hsome]
      simp [h3, h7]
    have hd : s.classD p off bit cause =
        (let v := if (classDNoted s p off bit).job.ctx.isSome && p != 3 && p != 7 then classDTaken s p off bit else classDNoted s p off bit
        v.classDAction p (v.attendOf p).fifo cause) := rfl
    rw [hd]
    dsimp only
    rw [if_pos hc]
  have ht : (classDTaken s p off bit).job = s.job := hjob
  rw [e, ← beginAbort_aborted (by rw [ht]; exact hj) (by rw [ht]; exact ha), State.classDAction, if_neg (by simpa using h3),
    if_neg (by simpa using h7), if_pos (by rw [ht]; exact hsome)]

theorem aborted_onlyParts (s : State) (cause : Nat) : OnlyParts [.regs, .job, .links, .outbox] s (aborted s cause) :=
  (((withJob_onlyParts s _).mono (qs := [.regs, .job, .links, .outbox]) (by decide)).then (setSts_onlyParts _ 0 _) (by decide)).then
    (sendNotice_onlyParts _ _ _ _) (by decide)

theorem aborted_job (s : State) (cause : Nat) :
    (aborted s cause).job = { s.job with aborting := some (s.fget HULL_ORCH_MODULE, cause) } := by
  have h1 := (setSts_onlyParts (s.withJob (fun j => { j with aborting := some (s.fget HULL_ORCH_MODULE, cause) })) 0 HULL_ORCH_STS_ABORT_SENT) .job (by decide)
  have h2 := (sendNotice_onlyParts ((s.withJob (fun j => { j with aborting := some (s.fget HULL_ORCH_MODULE, cause) })).setSts 0 HULL_ORCH_STS_ABORT_SENT)
    s.now (s.fget HULL_ORCH_MODULE) cause) .job (by decide)
  exact Eq.trans h2 (Eq.trans h1 rfl)

theorem aborted_regs (s : State) (cause : Nat) : (aborted s cause).regs =
    ((s.withJob (fun j => { j with aborting := some (s.fget HULL_ORCH_MODULE, cause) })).setSts 0 HULL_ORCH_STS_ABORT_SENT).regs :=
  (sendNotice_onlyParts _ _ _ _) .regs (by decide)

theorem only_aborted (s : State) (cause : Nat) : OnlyRegs [HULL_ORCH_STS_ABORT_SENT.base] s (aborted s cause) := by
  refine OnlyRegs.same (OnlyRegs.trans (OnlyRegs.same (OnlyRegs.refl _ s) rfl) (only_setSts (s.withJob _) 0 _ (.head _))) (aborted_regs s cause)

theorem aborted_sent {s : State} (hi : Inv s) (cause : Nat) : (aborted s cause).fbit HULL_ORCH_STS_ABORT_SENT = true := by
  rw [fbit_congr (aborted_regs s cause)]
  exact fbit_setSts (s.withJob _) 0 _ hi.1.1 (by decide) rfl

theorem classDNoted_keeps (s : State) (p off bit : Nat) : Keeps s (classDNoted s p off bit) :=
  capFault_keeps _ 3 (event_keeps _ _ _ _ (fadd_keeps s _ 1 (.refl s)))

theorem classDTaken_keeps (s : State) (p off bit : Nat) : Keeps s (classDTaken s p off bit) :=
  withPower_keeps _ _ (classDNoted_keeps s p off bit)

theorem classDTaken_onlyParts (s : State) (p off bit : Nat) : OnlyParts [.regs, .fifos, .cap, .power, .outbox] s (classDTaken s p off bit) :=
  ((classDNoted_onlyParts s p off bit).mono (by decide)).then (withPower_onlyParts _ _) (by decide)

theorem only_classDNotes (s : State) (p off bit : Nat) : OnlyRegs noteRegs (s.fadd (FAULT_CNT_D_TAKEN.pageOf p) 1) (classDTaken s p off bit) :=
  ((only_event _ _ _ _ (fun _ m => m)).trans (only_capFault _ 3 (fun _ m => m))).trans (OnlyRegs.same (OnlyRegs.refl _ _) rfl)

/-- The count of class D of a page lies apart from the registers that notes touch, and from the abort's status. -/
theorem dTaken_facts {p : Nat} (hp : p < 108) : (FAULT_CNT_D_TAKEN.pageOf p).lo + (FAULT_CNT_D_TAKEN.pageOf p).wd ≤ 64 ∧
    (FAULT_CNT_D_TAKEN.pageOf p).base ∉ noteRegs ∧ (FAULT_CNT_D_TAKEN.pageOf p).base ≠ HULL_ORCH_STS_ABORT_SENT.base ∧
    (FAULT_CNT_D_TAKEN.pageOf p).base ≠ HULL_ORCH_MODULE.base := by
  revert p
  decide

theorem classDTaken_counts {s : State} (hi : Inv s) {p : Nat} (hp : p < 108) (off bit : Nat) :
    Counts (FAULT_CNT_D_TAKEN.pageOf p) 1 s (classDTaken s p off bit) :=
  ((only_classDNotes s p off bit).fget _ (dTaken_facts hp).2.1).trans (counts_fadd hi _ 1 (dTaken_facts hp).1)

/-- A register that neither the count, nor a note, nor the abort touches. -/
theorem fget_classDTaken {s : State} {p : Nat} {g : Fld} (off bit : Nat) (hn : g.base ∉ noteRegs)
    (hp : g.base ≠ (FAULT_CNT_D_TAKEN.pageOf p).base) : (classDTaken s p off bit).fget g = s.fget g :=
  ((only_classDNotes s p off bit).fget g hn).trans (fget_fset_base s _ g _ hp)

end Sys2Proof.Laws
end

section
/-! PROOFS. The loss of the clock, warnings and samples, and what O47 says of them (R461, R618, R621 to R624). -/

namespace Sys2Proof.Laws

open Sys2Proof.Machine Sys2Proof.Safety

/-! ### The first environment event (R563) -/

theorem envFirst_onlyParts (s : State) (id v c : Nat) : OnlyParts [.regs] s (s.envFirst id v c) := record_onlyParts s _ _

theorem envFirst_keeps' (s : State) (id v c : Nat) : Keeps s (s.envFirst id v c) := record_keeps s _ _ (.refl s)

/-- A free record of the environment takes the event. -/
theorem envFirst_shows {s : State} (hi : Inv s) (id v : Nat) {c : Nat} (hc : c < 8) (hv : s.fbit PWR_ENV_FIRST_VALID = false) :
    Shows PWR_ENV_FIRST_SENSOR id (s.envFirst id v c) ∧ (s.envFirst id v c).fget PWR_ENV_FIRST_CAUSE = c ∧
      Shows PWR_ENV_FIRST_VALUE v (s.envFirst id v c) := by
  have ha : FieldsApart (PWR_ENV_FIRST_VALID :: [(PWR_ENV_FIRST_SENSOR, id), (PWR_ENV_FIRST_VALUE, v), (PWR_ENV_FIRST_CAUSE, c)].map Prod.fst) := by
    change FieldsApart [PWR_ENV_FIRST_VALID, PWR_ENV_FIRST_SENSOR, PWR_ENV_FIRST_VALUE, PWR_ENV_FIRST_CAUSE]
    unfold FieldsApart
    decide
  have h {f : Fld} {x : Nat} := fget_record_mem (f := f) (x := x) (v := PWR_ENV_FIRST_VALID)
    [(PWR_ENV_FIRST_SENSOR, id), (PWR_ENV_FIRST_VALUE, v), (PWR_ENV_FIRST_CAUSE, c)] s hi.1.1 ha hv
  exact ⟨h (.tail _ (.head _)), (h (.tail _ (.tail _ (.tail _ (.head _))))).trans (Nat.mod_eq_of_lt hc),
    h (.tail _ (.tail _ (.head _)))⟩

/-! ### CLK_LOST during a job (R618) -/

/-- The clock's loss noted: LOCKED 0, the first event and the status bit. -/
def clkLostNoted (s : State) : State := (((s.fset TICK_CLKSRC_LOCKED 0).envFirst 0 0 4).setSts 2 PWR_ENV_STS_CLK_LOST)

theorem clkLostNoted_onlyParts (s : State) : OnlyParts [.regs, .outbox] s (clkLostNoted s) :=
  (((fset_onlyParts s _ _).mono (qs := [.regs, .outbox]) (by decide)).then (envFirst_onlyParts _ _ _ _) (by decide)).trans
    (setSts_onlyParts _ 2 _)

theorem only_clkLostNoted (s : State) : OnlyRegs [TICK_CLKSRC_LOCKED.base, PWR_ENV_FIRST_VALID.base, PWR_ENV_STS_CLK_LOST.base] s (clkLostNoted s) := by
  refine ((only_fset s _ 0 (.head _)).trans (only_record _ _ _ (.tail _ (.head _)) ?_)).trans (only_setSts _ 2 _ (.tail _ (.tail _ (.head _))))
  simp only [List.forall_mem_cons, List.not_mem_nil, false_implies, implies_true, and_true]
  decide

theorem clkLostNoted_keeps (s : State) : Keeps s (clkLostNoted s) :=
  setSts_keeps _ 2 _ (record_keeps _ _ _ (fset_keeps _ 0 (.refl s)))

theorem clkLostNoted_stands {s : State} (hi : Inv s) : (clkLostNoted s).fbit TICK_CLKSRC_LOCKED = false ∧
    (clkLostNoted s).fbit PWR_ENV_STS_CLK_LOST = true ∧
    (s.fbit PWR_ENV_FIRST_VALID = false → (clkLostNoted s).fget PWR_ENV_FIRST_CAUSE = 4) := by
  have hi1 : Inv (s.fset TICK_CLKSRC_LOCKED 0) := (fset_keeps _ 0 (.refl s)).inv hi
  have hl := fget_fset_same s TICK_CLKSRC_LOCKED 0 hi.1.1 (by decide)
  have hv : (s.fset TICK_CLKSRC_LOCKED 0).fbit PWR_ENV_FIRST_VALID = s.fbit PWR_ENV_FIRST_VALID :=
    fbit_fset_apart hi _ _ 0 (by decide) (by decide)
  unfold clkLostNoted
  generalize s.fset TICK_CLKSRC_LOCKED 0 = u at *
  have hi2 : Inv (u.envFirst 0 0 4) := (envFirst_keeps' u 0 0 4).inv hi1
  have hr : OnlyRegs [PWR_ENV_FIRST_VALID.base] u (u.envFirst 0 0 4) := by
    refine only_record _ _ _ (.head _) ?_
    simp only [List.forall_mem_cons, List.not_mem_nil, false_implies, implies_true, and_true]
    decide
  refine ⟨fbit_of_zero ?_, fbit_setSts _ 2 _ hi2.1.1 (by decide) rfl, fun h => ?_⟩
  · exact ((fget_setSts_apart _ 2 PWR_ENV_STS_CLK_LOST _ hi2.1.1 (by decide) (by decide)).trans (hr.fget _ (by decide))).trans hl
  · exact (fget_setSts_apart _ 2 PWR_ENV_STS_CLK_LOST _ hi2.1.1 (by decide) (by decide)).trans
      (envFirst_shows hi1 0 0 (by decide) (hv.trans h)).2.1

section
variable {s : State} {at_ : Nat} (h : Awake s)
include h

theorem clkLost_stands (hs : Settled s at_) (hj : s.job.ctx ≠ none) (ha : s.job.aborting = none) : ∃ t, exec (.clkLost at_) s = .next t ∧
    t.fbit TICK_CLKSRC_LOCKED = false ∧ t.fbit PWR_ENV_STS_CLK_LOST = true ∧ Counts (FAULT_CNT_D_TAKEN.pageOf 2) 1 s t ∧
    t.job.aborting = some (s.fget HULL_ORCH_MODULE, 5) ∧ t.job.ctx = s.job.ctx ∧ t.mem = s.mem ∧
    (s.fbit PWR_ENV_FIRST_VALID = false → t.fget PWR_ENV_FIRST_CAUSE = 4) := by
  have hu := advance_onlyParts s at_
  have hn := hu.mono (qs := [.now, .regs, .outbox]) (by decide) |>.then (clkLostNoted_onlyParts (s.advance at_)) (by decide)
  have hjob : (clkLostNoted (s.advance at_)).job = s.job := hn .job (by decide)
  have hi := (advance_keeps at_ (.refl s)).inv h.2
  obtain ⟨hl, hsts, hfirst⟩ := clkLostNoted_stands hi
  have hr := only_clkLostNoted (s.advance at_)
  have hiv := (clkLostNoted_keeps (s.advance at_)).inv hi
  have hm : (clkLostNoted (s.advance at_)).mem = s.mem := hn .mem (by decide)
  have hreg : (s.advance at_).regs = s.regs := hu .regs (by decide)
  have hmod : (clkLostNoted (s.advance at_)).fget HULL_ORCH_MODULE = s.fget HULL_ORCH_MODULE := (hr.fget _ (by decide)).trans (fget_advance s at_ _)
  have hcnt : (clkLostNoted (s.advance at_)).fget (FAULT_CNT_D_TAKEN.pageOf 2) = s.fget (FAULT_CNT_D_TAKEN.pageOf 2) :=
    (hr.fget _ (by decide)).trans (fget_advance s at_ _)
  rw [fbit_congr hreg] at hfirst
  have he : s.live (fun s => (s.upTo at_).clkLost) = (clkLostNoted (s.advance at_)).classD 2 0x300 4 5 := by
    rw [live_runs h.1, upTo_settled _ _ hs, State.clkLost]
    exact if_pos (Option.isSome_iff_ne_none.2 hj)
  generalize clkLostNoted (s.advance at_) = u at *
  have hd := classD_in_job (p := 2) (off := 0x300) (bit := 4) (cause := 5) (by decide) (by decide) (hjob ▸ hj) (hjob ▸ ha)
  have hc := classDTaken_counts hiv (p := 2) (by decide) 0x300 4
  have hp := classDTaken_onlyParts u 2 0x300 4
  have hf {g : Fld} (hg : g.base ∉ noteRegs) (hb : g.base ≠ (FAULT_CNT_D_TAKEN.pageOf 2).base) (ha : g.base ∉ [HULL_ORCH_STS_ABORT_SENT.base]) :
      (aborted (classDTaken u 2 0x300 4) 5).fget g = u.fget g :=
    ((only_aborted _ 5).fget g ha).trans (fget_classDTaken 0x300 4 hg hb)
  have haj := aborted_job (classDTaken u 2 0x300 4) 5
  have htj : (classDTaken u 2 0x300 4).job = s.job := Eq.trans (hp .job (by decide)) hjob
  refine ⟨_, congrArg Host.Outcome.next (he.trans hd), ?_, ?_, ?_, ?_, ?_, ?_, fun h0 => ?_⟩
  · exact (congrArg (fun y => y != 0) (hf (by decide) (by decide) (by decide))).trans hl
  · exact (congrArg (fun y => y != 0) (hf (by decide) (by decide) (by decide))).trans hsts
  · unfold Counts at hc ⊢
    rw [(only_aborted _ 5).fget _ (by decide), hc, hcnt]
  · rw [haj]
    exact congrArg (fun m => some (m, 5)) ((fget_classDTaken 0x300 4 (by decide) (by decide)).trans hmod)
  · rw [haj]
    have hctx := congrArg JobRun.ctx htj
    exact hctx
  · exact Eq.trans ((aborted_onlyParts _ 5) .mem (by decide)) (Eq.trans (hp .mem (by decide)) hm)
  · exact (hf (by decide) (by decide) (by decide)).trans (hfirst h0)

end

/-! ### THERMAL_WARN (R621, R622) -/

/-- A reading past its limit is held, and its sensor marked. -/
def warned (s : State) (id v : Nat) : State :=
  s.withPower (fun p => { p with warned := assocPut p.warned id none, sensors := assocPut p.sensors id v })

theorem thermalWarn_first {s : State} {id v cause : Nat} (hw : sensorWarns id v = some (some cause, true)) (hn : assocGet s.power.warned id = none) :
    s.thermalWarn id v = ((warned s id v).envFirst id v cause).classC 2 (envSts cause) := by
  simp only [State.thermalWarn, hw, hn, if_true]
  rfl

theorem thermalWarn_stack {s : State} {id v : Nat} (hw : sensorWarns id v = some (none, true)) (hn : assocGet s.power.warned id = none) :
    s.thermalWarn id v = (warned s id v).classC (8 + (id - 0x200) / 4) (stackFld HUB_STACK_HOT (id - 0x200)) := by
  simp only [State.thermalWarn, hw, hn, if_true]
  rfl

theorem thermalWarn_again {s : State} {id v : Nat} {x : Option Nat} (hw : sensorWarns id v = some (x, true))
    (hn : assocGet s.power.warned id = some none) : s.thermalWarn id v = warned s id v := by
  simp only [State.thermalWarn, hw, hn]
  rfl

theorem thermalWarn_inside {s : State} {id v : Nat} (hw : (sensorWarns id v).all (fun x => !x.2) = true) : s.thermalWarn id v = s := by
  unfold State.thermalWarn
  cases hx : sensorWarns id v with
  | none => rfl
  | some x =>
    obtain ⟨c, b⟩ := x
    rw [hx] at hw
    cases b with
    | false => rfl
    | true => exact absurd hw (by simp)

/-- The cause of a warning of the environment is one of four, and its status bit lies apart from its first event. -/
theorem sensorWarns_cause {id v cause : Nat} {b : Bool} (h : sensorWarns id v = some (some cause, b)) : cause < 4 := by
  unfold sensorWarns at h
  split_ifs at h <;> simp only [Option.some.injEq, Prod.mk.injEq, reduceCtorEq, false_and] at h <;> omega

theorem envSts_facts {c : Nat} (hc : c < 4) : (envSts c).lo + (envSts c).wd ≤ 64 ∧ (envSts c).wd = 1 ∧ (envSts c).base ∉ noteRegs ∧
    (envSts c).base ≠ (FAULT_CNT_C_RAISED.pageOf 2).base ∧ (envSts c).base ≠ PWR_ENV_FIRST_VALID.base := by
  revert c
  decide

theorem stackHot_facts {k : Nat} (hk : k < 16) : (stackFld HUB_STACK_HOT k).lo + (stackFld HUB_STACK_HOT k).wd ≤ 64 ∧
    (stackFld HUB_STACK_HOT k).wd = 1 ∧ (stackFld HUB_STACK_HOT k).base ∉ noteRegs ∧
    (stackFld HUB_STACK_HOT k).base ≠ (FAULT_CNT_C_RAISED.pageOf (8 + k / 4)).base := by
  revert k
  decide

section
variable {s : State} {at_ : Nat} (h : Awake s) (hs : Settled s at_) (id : Nat) (v : Word32)
include h hs

theorem exec_thermalWarn : exec (.thermalWarn at_ id v) s = .next ((s.advance at_).thermalWarn id v.toNat) :=
  congrArg Host.Outcome.next ((live_runs h.1 _).trans (by rw [upTo_settled _ _ hs]))

theorem thermalWarn_stands {cause : Nat} (hw : sensorWarns id v.toNat = some (some cause, true)) (hn : assocGet s.power.warned id = none) :
    ∃ t, exec (.thermalWarn at_ id v) s = .next t ∧ t.now = max s.now at_ ∧ assocGet t.power.warned id = some none ∧
      assocGet t.power.sensors id = some v.toNat ∧ t.fbit (envSts cause) = true ∧ RaisesC s t ∧
      (s.fbit PWR_ENV_FIRST_VALID = false → Shows PWR_ENV_FIRST_SENSOR id t ∧ t.fget PWR_ENV_FIRST_CAUSE = cause ∧
        Shows PWR_ENV_FIRST_VALUE v.toNat t) ∧
      OnlyParts [.now, .regs, .run, .attend, .fifos, .cap, .power, .outbox] s t := by
  have hc := sensorWarns_cause hw
  obtain ⟨hwd, h1, hnote, hraise, hfirst⟩ := envSts_facts hc
  have he := (exec_thermalWarn h hs id v).trans (congrArg Host.Outcome.next (thermalWarn_first (s := s.advance at_) hw hn))
  have hi : Inv (warned (s.advance at_) id v.toNat) := (withPower_keeps _ _ (advance_keeps at_ (.refl s))).inv h.2
  have hp : OnlyParts [.now, .power] s (warned (s.advance at_) id v.toNat) :=
    ((advance_onlyParts s at_).mono (by decide)).then (withPower_onlyParts _ _) (by decide)
  have hwarn : assocGet (warned (s.advance at_) id v.toNat).power.warned id = some none := assocGet_assocPut_same ..
  have hsens : assocGet (warned (s.advance at_) id v.toNat).power.sensors id = some v.toNat := assocGet_assocPut_same ..
  have hnow : (warned (s.advance at_) id v.toNat).now = max s.now at_ := rfl
  generalize warned (s.advance at_) id v.toNat = u at *
  have hpe := envFirst_onlyParts u id v.toNat cause
  have hie := (envFirst_keeps' u id v.toNat cause).inv hi
  have hsh := envFirst_shows hi id v.toNat (c := cause) (by omega)
  rw [fbit_congr (hp .regs (by decide))] at hsh
  generalize u.envFirst id v.toNat cause = w at *
  have hb : Beside (fun g => g.base = PWR_ENV_FIRST_VALID.base) [.regs, .run, .attend, .fifos, .cap, .outbox] w (w.classC 2 (envSts cause)) :=
    beside_classC w (fun g hg => by rw [hg]; decide) 2 _ ⟨hwd, fun g hg => apart_of_base (fun e => hfirst (e.symm.trans hg))⟩
      (fun g hg => by rw [hg]; decide)
  have hpw := (hp.mono (qs := [.now, .regs, .power]) (by decide)).then hpe (by decide)
  have hpow : (w.classC 2 (envSts cause)).power = u.power := Eq.trans (hb.parts .power (by decide)) (hpe .power (by decide))
  refine ⟨_, he, Eq.trans (hb.parts .now (by decide)) (Eq.trans (hpe .now (by decide)) hnow), ?_, ?_, ?_,
    (TickMarks.of_run (hpw .run (by decide))).then_raisesC (classC_raisesC w 2 _), fun h0 => ?_,
    (hpw.mono (by decide)).then hb.parts (by decide)⟩
  · rw [hpow]; exact hwarn
  · rw [hpow]; exact hsens
  · exact fbit_of_fget (fget_classCWith w 2 _ 5 0 hie.1.1 hwd h1 hnote hraise)
  · obtain ⟨ha, hb', hc'⟩ := hsh h0
    exact ⟨(hb.flds hie PWR_ENV_FIRST_SENSOR rfl).trans ha, (hb.flds hie PWR_ENV_FIRST_CAUSE rfl).trans hb',
      (hb.flds hie PWR_ENV_FIRST_VALUE rfl).trans hc'⟩

theorem thermalWarn_stack_stands (h2 : 0x200 ≤ id) (h3 : id < 0x210) (hr : readAbove v.toNat 95 = true) (hn : assocGet s.power.warned id = none) :
    ∃ t, exec (.thermalWarn at_ id v) s = .next t ∧ t.fbit (stackFld HUB_STACK_HOT (id - 0x200)) = true ∧ RaisesC s t := by
  have hw : sensorWarns id v.toNat = some (none, true) := by
    unfold sensorWarns
    rw [if_neg (by simp; omega), if_neg (by simp; omega), if_neg (by simp; omega), if_pos (by simp; omega), hr]
  obtain ⟨hwd, h1, hnote, hraise⟩ := stackHot_facts (k := id - 0x200) (by omega)
  have he := (exec_thermalWarn h hs id v).trans (congrArg Host.Outcome.next (thermalWarn_stack (s := s.advance at_) hw hn))
  have hi : Inv (warned (s.advance at_) id v.toNat) := (withPower_keeps _ _ (advance_keeps at_ (.refl s))).inv h.2
  have hp : OnlyParts [.now, .power] s (warned (s.advance at_) id v.toNat) :=
    ((advance_onlyParts s at_).mono (by decide)).then (withPower_onlyParts _ _) (by decide)
  generalize warned (s.advance at_) id v.toNat = u at *
  exact ⟨_, he, fbit_of_fget (fget_classCWith u _ _ 5 0 hi.1.1 hwd h1 hnote hraise),
    (TickMarks.of_run (hp .run (by decide))).then_raisesC (classC_raisesC u _ _)⟩

end

end Sys2Proof.Laws
end

section
/-! PROOFS. Samples of sensors, and what O47 says (R461, R563, R623, R624). -/

namespace Sys2Proof.Laws

open Sys2Proof.Machine Sys2Proof.Safety

/-! ### What a sample does -/

/-- A reading is held, shown, and compared with its limit. -/
def sampled (s : State) (id v : Nat) : State :=
  ((s.withPower (fun p => { p with sensors := assocPut p.sensors id v })).sensorRegs id v).sensorInside id v

/-- The telemetry record of a reading (R461). -/
def telemetryWord (s : State) (id v : Nat) : BitVec 512 :=
  evWord 0x80 true 0 0 (id % 65536 * 2 ^ 16 + v * 2 ^ 32 + s.tickCount % 2 ^ 32 * 2 ^ 64)

/-- The readings leave as telemetry. -/
def telemetered (s : State) (id v : Nat) : State :=
  (s.withPower (fun p => { p with telemetryAt := s.now })).post 3 [telemetryWord s id v]

theorem sensorSample_one (s : State) (id : Nat) (v : Word32) : s.sensorSample [(id, v)] =
    if (sampled s id v.toNat).power.telemetryAt + 200000000 ≤ (sampled s id v.toNat).now then telemetered (sampled s id v.toNat) id v.toNat
    else sampled s id v.toNat := rfl

theorem sensorInside_onlyParts (s : State) (id v : Nat) : OnlyParts [.power] s (s.sensorInside id v) := by
  unfold State.sensorInside
  split
  · exact withPower_onlyParts s _
  · exact .refl _ s

theorem sensorInside_power (s : State) (id v : Nat) : (s.sensorInside id v).power.sensors = s.power.sensors ∧
    (s.sensorInside id v).power.telemetryAt = s.power.telemetryAt := by
  unfold State.sensorInside
  split
  · exact ⟨rfl, rfl⟩
  · exact ⟨rfl, rfl⟩

theorem sensorRegs_onlyParts (s : State) (id v : Nat) : OnlyParts [.regs] s (s.sensorRegs id v) := by
  unfold State.sensorRegs
  have h (f : Fld) (x : Nat) : OnlyParts [.regs] s (s.fset f x) := fset_onlyParts s f x
  exact .ite (h _ _) (.ite (h _ _) (.ite (h _ _) (.ite (h _ _) (.ite (h _ _) (.ite (h _ _) (.ite (h _ _)
    (.ite (fsetAll_onlyParts s _) (.refl _ s))))))))

theorem stackFld_facts {k : Nat} (hk : k < 16) : FieldsApart [stackFld HUB_STACK_TEMP k, stackFld HUB_STACK_HOT k] ∧
    apart (stackFld HUB_STACK_TEMP k) TICK_COUNT_COUNT = true ∧ apart (stackFld HUB_STACK_HOT k) TICK_COUNT_COUNT = true ∧
    (stackFld HUB_STACK_TEMP k).base ∉ dropKeys 3 ∧ (stackFld HUB_STACK_HOT k).base ∉ dropKeys 3 := by
  revert k
  unfold FieldsApart
  decide

/-- A sample leaves the tick count. -/
theorem beside_sensorRegs (s : State) (id v : Nat) : Beside (fun g => g = TICK_COUNT_COUNT) [.regs] s (s.sensorRegs id v) := by
  unfold State.sensorRegs
  have h (f : Fld) (x : Nat) (hf : f.lo + f.wd ≤ 64 ∧ apart f TICK_COUNT_COUNT = true) :
      Beside (fun g => g = TICK_COUNT_COUNT) [.regs] s (s.fset f x) := beside_fset s f x ⟨hf.1, by rintro g rfl; exact hf.2⟩
  refine .ite (h _ _ (by decide)) (.ite (h _ _ (by decide)) (.ite (h _ _ (by decide)) (.ite (h _ _ (by decide)) (.ite (h _ _ (by decide))
    (.ite (h _ _ (by decide)) (.ite (h _ _ (by decide)) ?_))))))
  split
  next hid =>
    have hk : id - 0x200 < 16 := by simp at hid; omega
    obtain ⟨ha, ht, hh, -⟩ := stackFld_facts hk
    refine beside_fsetAll s _ ?_
    simp only [List.forall_mem_cons, List.not_mem_nil, false_implies, implies_true, and_true]
    exact ⟨⟨ha.width, by rintro g rfl; exact ht⟩, ⟨ha.tail.width, by rintro g rfl; exact hh⟩⟩
  next => exact .refl _ _ s

/-- What the register of a sensor shows (R563, R624). -/
theorem sensorRegs_shows {s : State} (hi : Inv s) (id v : Nat) :
    (id = 1 → Shows PWR_INPUT_VIN (unitsOf v 100) (s.sensorRegs id v)) ∧ (id = 3 → Shows PWR_INPUT_PIN (unitsOf v 1) (s.sensorRegs id v)) ∧
    (id = 0x10 → Shows PWR_COOLANT_INLET (unitsOf v 100) (s.sensorRegs id v)) ∧
    (0x200 ≤ id → id < 0x210 → (s.sensorRegs id v).fget (stackFld HUB_STACK_TEMP (id - 0x200)) = min 255 (unitsOf v 1) ∧
      (s.sensorRegs id v).fbit (stackFld HUB_STACK_HOT (id - 0x200)) = readAbove v 95) := by
  refine ⟨?_, ?_, ?_, fun h1 h2 => ?_⟩
  · rintro rfl
    exact fget_fset_same s _ _ hi.1.1 (by decide)
  · rintro rfl
    exact fget_fset_same s _ _ hi.1.1 (by decide)
  · rintro rfl
    exact fget_fset_same s _ _ hi.1.1 (by decide)
  · have hk : id - 0x200 < 16 := by omega
    have e : s.sensorRegs id v = s.fsetAll [(stackFld HUB_STACK_TEMP (id - 0x200), min 255 (unitsOf v 1)),
        (stackFld HUB_STACK_HOT (id - 0x200), (readAbove v 95).toNat)] := by
      unfold State.sensorRegs
      rw [if_neg (by simp; omega), if_neg (by simp; omega), if_neg (by simp; omega), if_neg (by simp; omega), if_neg (by simp; omega),
        if_neg (by simp; omega), if_neg (by simp; omega), if_pos (by simp; omega)]
    have ha : FieldsApart ([(stackFld HUB_STACK_TEMP (id - 0x200), min 255 (unitsOf v 1)),
        (stackFld HUB_STACK_HOT (id - 0x200), (readAbove v 95).toNat)].map Prod.fst) := (stackFld_facts hk).1
    rw [e]
    refine ⟨(fget_fsetAll_mem _ s hi.1.1 ha (.head _)).trans (Nat.mod_eq_of_lt (show min 255 _ < 2 ^ 8 by omega)), ?_⟩
    rw [State.fbit, fget_fsetAll_mem _ s hi.1.1 ha (.tail _ (.head _))]
    change ((readAbove v 95).toNat % 2 ^ 1 != 0) = readAbove v 95
    cases readAbove v 95 <;> rfl

section
variable {s : State} (hi : Inv s) (id v : Nat)

theorem sampled_onlyParts : OnlyParts [.regs, .power] s (sampled s id v) :=
  (((withPower_onlyParts s _).mono (qs := [.regs, .power]) (by decide)).then (sensorRegs_onlyParts _ id v) (by decide)).then
    (sensorInside_onlyParts _ id v) (by decide)

theorem sampled_regs : (sampled s id v).regs = ((s.withPower (fun p => { p with sensors := assocPut p.sensors id v })).sensorRegs id v).regs :=
  (sensorInside_onlyParts _ id v) .regs (by decide)

theorem sampled_power : assocGet (sampled s id v).power.sensors id = some v ∧ (sampled s id v).power.telemetryAt = s.power.telemetryAt := by
  have hr := (sensorRegs_onlyParts (s.withPower (fun p => { p with sensors := assocPut p.sensors id v })) id v) .power (by decide)
  obtain ⟨h1, h2⟩ := sensorInside_power ((s.withPower (fun p => { p with sensors := assocPut p.sensors id v })).sensorRegs id v) id v
  constructor
  · unfold sampled
    rw [h1, hr]
    exact assocGet_assocPut_same ..
  · unfold sampled
    rw [h2, hr]
    rfl

include hi

theorem sampled_tickCount : (sampled s id v).tickCount = s.tickCount := by
  have hw : Inv (s.withPower (fun p => { p with sensors := assocPut p.sensors id v })) := (withPower_keeps _ _ (.refl s)).inv hi
  exact (fget_congr (sampled_regs id v) TICK_COUNT_COUNT).trans ((beside_sensorRegs _ id v).flds hw _ rfl)

theorem sampled_shows :
    (id = 1 → Shows PWR_INPUT_VIN (unitsOf v 100) (sampled s id v)) ∧ (id = 3 → Shows PWR_INPUT_PIN (unitsOf v 1) (sampled s id v)) ∧
    (id = 0x10 → Shows PWR_COOLANT_INLET (unitsOf v 100) (sampled s id v)) ∧
    (0x200 ≤ id → id < 0x210 → (sampled s id v).fget (stackFld HUB_STACK_TEMP (id - 0x200)) = min 255 (unitsOf v 1) ∧
      (sampled s id v).fbit (stackFld HUB_STACK_HOT (id - 0x200)) = readAbove v 95) := by
  have hw : Inv (s.withPower (fun p => { p with sensors := assocPut p.sensors id v })) := (withPower_keeps _ _ (.refl s)).inv hi
  simp only [Shows, fget_congr (sampled_regs id v), fbit_congr (sampled_regs id v)]
  exact sensorRegs_shows hw id v

end

theorem telemetered_onlyParts (s : State) (id v : Nat) : OnlyParts [.regs, .fifos, .power, .outbox] s (telemetered s id v) := by
  have h : OnlyParts [.regs, .fifos, .outbox] (s.withPower (fun p => { p with telemetryAt := s.now })) (telemetered s id v) := by
    unfold telemetered
    generalize s.withPower (fun p => { p with telemetryAt := s.now }) = u
    intro p hp
    cases p <;> simp [Part.Same] at hp ⊢
  exact ((withPower_onlyParts s _).mono (by decide)).then h (by decide)

theorem only_telemetered (s : State) (id v : Nat) : OnlyRegs (dropKeys 3) s (telemetered s id v) :=
  ((withPower_onlyParts s _).onlyRegs (by decide) _).trans (only_post _ 3 _ (fun _ m => m))

theorem telemetered_power (s : State) (id v : Nat) : (telemetered s id v).power.sensors = s.power.sensors ∧
    (telemetered s id v).power.telemetryAt = s.now := by
  have h : (telemetered s id v).power = (s.withPower (fun p => { p with telemetryAt := s.now })).power := by
    unfold telemetered
    generalize s.withPower (fun p => { p with telemetryAt := s.now }) = u
    simp
  rw [h]
  exact ⟨rfl, rfl⟩

/-- A record that finds room is in the telemetry FIFO. -/
theorem telemetered_mem {s : State} (hi : Inv s) (id v : Nat) (hroom : (s.fifo 3).items.length + 2 ≤ 512) :
    telemetryWord s id v ∈ ((telemetered s id v).fifo 3).items := by
  generalize hw : telemetryWord s id v = w
  have hp : telemetered s id v = (s.withPower (fun p => { p with telemetryAt := s.now })).setFifo 3 (fun q =>
      { q.push ((if (s.fifo 3).dropped == 0 then [] else [gapWord s.tickCount (s.fifo 3).dropped false]) ++ [w]) s.now with dropped := 0 }) := by
    unfold telemetered State.post
    rw [hw]
    exact if_pos (show (s.fifo 3).items.length + 1 + 1 ≤ 512 by omega)
  have hlen : 3 < s.fifos.length := by rw [hi.2.2.1]; decide
  rw [hp, State.fifo]
  change w ∈ (List.getD (modAt _ 3 s.fifos) 3 {}).items
  rw [getD_modAt_same _ _ _ _ hlen]
  simp [Fifo.push]

section
variable {s : State} {at_ : Nat} (h : Awake s) (hs : Settled s at_) (id : Nat) (v : Word32)
include h hs

theorem sensorSample_stands : ∃ t, exec (.sensorSample at_ [(id, v)]) s = .next t ∧ t.now = max s.now at_ ∧
    assocGet t.power.sensors id = some v.toNat ∧
    (id = 1 → Shows PWR_INPUT_VIN (unitsOf v.toNat 100) t) ∧ (id = 3 → Shows PWR_INPUT_PIN (unitsOf v.toNat 1) t) ∧
    (id = 0x10 → Shows PWR_COOLANT_INLET (unitsOf v.toNat 100) t) ∧
    (0x200 ≤ id → id < 0x210 → t.fget (stackFld HUB_STACK_TEMP (id - 0x200)) = min 255 (unitsOf v.toNat 1) ∧
      t.fbit (stackFld HUB_STACK_HOT (id - 0x200)) = readAbove v.toNat 95) ∧
    (max s.now at_ < s.power.telemetryAt + 200000000 → t.fifos = s.fifos ∧ t.outbox = s.outbox) ∧
    (s.power.telemetryAt + 200000000 ≤ max s.now at_ → t.power.telemetryAt = max s.now at_ ∧
      ((s.fifo 3).items.length + 2 ≤ 512 → evWord 0x80 true 0 0 (id % 65536 * 2 ^ 16 + v.toNat * 2 ^ 32 +
        s.tickCount % 2 ^ 32 * 2 ^ 64) ∈ (t.fifo 3).items)) ∧
    OnlyParts [.now, .regs, .fifos, .power, .outbox] s t := by
  have ha := advance_onlyParts s at_
  have hi := (advance_keeps at_ (.refl s)).inv h.2
  have hp := sampled_onlyParts (s := s.advance at_) id v.toNat
  obtain ⟨hsens, htel⟩ := sampled_power (s := s.advance at_) id v.toNat
  have htick := sampled_tickCount hi id v.toNat
  have hshow := sampled_shows hi id v.toNat
  have hiu : Inv (sampled (s.advance at_) id v.toNat) :=
    ((sensorInside_keeps _ id v.toNat (.refl _)).inv ((beside_sensorRegs _ id v.toNat).keeps.inv ((withPower_keeps _ _ (.refl _)).inv hi)))
  have hall : OnlyParts [.now, .regs, .power] s (sampled (s.advance at_) id v.toNat) := (ha.mono (by decide)).then hp (by decide)
  have hnow : (sampled (s.advance at_) id v.toNat).now = max s.now at_ := hp .now (by decide)
  have htel' : (sampled (s.advance at_) id v.toNat).power.telemetryAt = s.power.telemetryAt := htel
  have htick' : (sampled (s.advance at_) id v.toNat).tickCount = s.tickCount := htick.trans (fget_advance s at_ _)
  have he : exec (.sensorSample at_ [(id, v)]) s = .next (if s.power.telemetryAt + 200000000 ≤ max s.now at_ then
      telemetered (sampled (s.advance at_) id v.toNat) id v.toNat else sampled (s.advance at_) id v.toNat) := by
    refine congrArg Host.Outcome.next ((live_runs h.1 _).trans ?_)
    rw [upTo_settled _ _ hs, sensorSample_one, htel', hnow]
  refine ⟨_, he, ?_⟩
  generalize sampled (s.advance at_) id v.toNat = u at *
  obtain ⟨hv, hpin, hin, hst⟩ := hshow
  by_cases hlate : s.power.telemetryAt + 200000000 ≤ max s.now at_
  · rw [if_pos hlate]
    have hto := telemetered_onlyParts u id v.toNat
    have hr := only_telemetered u id v.toNat
    obtain ⟨hts, htt⟩ := telemetered_power u id v.toNat
    refine ⟨Eq.trans (hto .now (by decide)) hnow, hts ▸ hsens, fun e => (hr.fget _ (by decide)).trans (hv e),
      fun e => (hr.fget _ (by decide)).trans (hpin e), fun e => (hr.fget _ (by decide)).trans (hin e), fun h1 h2 => ?_,
      fun hlt => absurd hlate (Nat.not_le.2 hlt), fun _ => ⟨htt.trans hnow, fun hroom => ?_⟩, (hall.mono (by decide)).then hto (by decide)⟩
    · obtain ⟨-, -, -, hk1, hk2⟩ := stackFld_facts (k := id - 0x200) (by omega)
      exact ⟨(hr.fget _ hk1).trans (hst h1 h2).1, (congrArg (fun y => y != 0) (hr.fget _ hk2)).trans (hst h1 h2).2⟩
    · have hf : u.fifo 3 = s.fifo 3 := congrArg (fun (l : List Fifo) => List.getD l 3 {}) (hall .fifos (by decide))
      have hm := telemetered_mem hiu id v.toNat (by rw [hf]; exact hroom)
      rwa [telemetryWord, htick'] at hm
  · rw [if_neg hlate]
    exact ⟨hnow, hsens, hv, hpin, hin, hst, fun _ => ⟨hall .fifos (by decide), hall .outbox (by decide)⟩,
      fun hge => absurd hge hlate, hall.mono (by decide)⟩

end

/-- Settles O47: each condition by its own lemma. -/
theorem limitsSensorsAndClock : Obligations.LimitsSensorsAndClock := by
  unfold Obligations.LimitsSensorsAndClock
  intro s at_ h hs
  refine ⟨holdupArmed_stands h hs, capOverride_stands h, fun hb => capOverride_idle hb h, powerOverLimit_stands h hs,
    outsideRating_stands h hs, clkLocked_stands h hs, clkLost_idle h hs, clkLost_stands h hs, fun id v => ⟨fun cause => thermalWarn_stands h hs id v,
      fun x hw hn => ?_, fun hw => ?_, thermalWarn_stack_stands h hs id v, sensorSample_stands h hs id v⟩⟩
  · exact ⟨_, (exec_thermalWarn h hs id v).trans (congrArg Host.Outcome.next (thermalWarn_again (s := s.advance at_) hw hn)),
      ((advance_onlyParts s at_).mono (by decide)).then (withPower_onlyParts _ _) (by decide)⟩
  · exact ⟨_, (exec_thermalWarn h hs id v).trans (congrArg Host.Outcome.next (thermalWarn_inside (s := s.advance at_) hw)),
      advance_onlyParts s at_⟩

end Sys2Proof.Laws
end

section
/-! PROOFS. The stop of class E: what it saves, and what stands after it (R498, R505, R541, R543). -/

namespace Sys2Proof.Laws

open Sys2Proof.Machine Sys2Proof.Safety

/-! ### The end of a reload (R505) -/

/-- The module out of its reload, with no event waiting. -/
def reloadLeft (s : State) : State := (s.withPower (fun p => { p with reload := none })).setFifo 1 (fun q => { q with late := [] })

theorem reloadOver_eq (s : State) : s.reloadOver = (s.fifo 1).late.foldl (fun s e => s.event e.1 e.2.1 e.2.2) (reloadLeft s) := rfl

theorem reloadLeft_onlyParts (s : State) : OnlyParts [.fifos, .power] s (reloadLeft s) :=
  ((withPower_onlyParts s _).mono (by decide)).then (setFifo_onlyParts _ 1 _) (by decide)

theorem reloadLeft_keeps (s : State) : Keeps s (reloadLeft s) := setFifo_keeps _ 1 _ (withPower_keeps s _ (.refl s))

theorem beside_reloadOver {K : Fld → Prop} (hn : ∀ g, K g → g.base ∉ noteRegs) (s : State) :
    Beside K [.regs, .fifos, .power, .outbox] s s.reloadOver := by
  rw [reloadOver_eq]
  exact ((Beside.of_parts (reloadLeft_onlyParts s) (reloadLeft_keeps s) (by decide)).mono (by decide) (fun _ => id)).then
    (Beside.foldl (fun v e _ => beside_event v hn e.1 e.2.1 e.2.2) _) (by decide)

/-- Outside a reload an event goes to event egress at once. -/
theorem event_late {s : State} (hi : Inv s) (hr : s.reloading = false) (typ ctx : Nat) (l : List Nat) :
    ((s.event typ ctx l).fifo 1).late = (s.fifo 1).late := by
  have hlen : 1 < s.fifos.length := by rw [hi.2.2.1]; decide
  rw [State.event, hr, if_neg Bool.false_ne_true, State.post]
  have h (u : State) (g : Fifo → Fifo) (hu : u.fifos = modAt g 1 s.fifos) (hg : ∀ q, (g q).late = q.late) :
      (u.fifo 1).late = (s.fifo 1).late := by
    rw [State.fifo, hu, getD_modAt_same _ _ _ _ hlen, hg]
    rfl
  dsimp only
  split
  · exact h _ _ rfl (fun q => rfl)
  · refine h _ (fun q => { q with dropped := q.dropped + 1 }) ?_ (fun q => rfl)
    simp [State.setFifo]

/-- After a reload no event waits. -/
theorem reloadOver_late {s : State} (hi : Inv s) : (s.reloadOver.fifo 1).late = [] := by
  have hlen : 1 < s.fifos.length := by rw [hi.2.2.1]; decide
  have h0 : ((reloadLeft s).fifo 1).late = [] := by
    change (List.getD (modAt (fun (q : Fifo) => { q with late := [] }) 1 s.fifos) 1 {}).late = []
    rw [getD_modAt_same _ _ _ _ hlen]
  rw [reloadOver_eq]
  refine (List.foldlRecOn (motive := fun (t : State) => Inv t ∧ t.reloading = false ∧ (t.fifo 1).late = []) _ _
    ⟨(reloadLeft_keeps s).inv hi, rfl, h0⟩ (fun t ht e _ => ?_)).2.2
  obtain ⟨hit, hrt, hlt⟩ := ht
  refine ⟨(event_keeps t _ _ _ (.refl t)).inv hit, ?_, (event_late hit hrt _ _ _).trans hlt⟩
  rw [State.reloading, (event_onlyParts t _ _ _) .power (by decide)]
  exact hrt

theorem modAt_fixed {α : Type} {f : α → α} {d : α} : ∀ (n : Nat) (l : List α), f (l.getD n d) = l.getD n d → modAt f n l = l
  | n, [], _ => by cases n <;> rfl
  | 0, a :: l, h => by
    have ha : f a = a := h
    rw [modAt, ha]
  | n + 1, a :: l, h => by
    rw [modAt, modAt_fixed n l h]

/-- With no event waiting the end of a reload only says so. -/
theorem reloadOver_idle {s : State} (h : (s.fifo 1).late = []) : s.reloadOver = s.withPower (fun p => { p with reload := none }) := by
  have hm : modAt (fun (q : Fifo) => { q with late := [] }) 1 s.fifos = s.fifos := by
    refine modAt_fixed (d := {}) 1 s.fifos ?_
    have hl : (s.fifos.getD 1 {}).late = [] := h
    generalize s.fifos.getD 1 {} = q at hl ⊢
    obtain ⟨items, dropped, since, late⟩ := q
    simpa using hl.symm
  rw [reloadOver_eq, h]
  change ({ s.withPower (fun p => { p with reload := none }) with fifos := modAt _ 1 s.fifos } : State) = _
  rw [hm]
  rfl

/-! ### What a stop writes -/

/-- The fields of HULL_TERMINAL. -/
abbrev StopField (g : Fld) : Prop := g.base = HULL_TERMINAL.base

theorem stopField_note : ∀ g, StopField g → g.base ∉ noteRegs := fun g hg => by
  rw [show g.base = HULL_TERMINAL.base from hg]
  decide

theorem apartFrom_stop {f : Fld} (hw : f.lo + f.wd ≤ 64) (hb : f.base ≠ HULL_TERMINAL.base) : ApartFrom StopField f :=
  ⟨hw, fun g hg => apart_of_base (by rw [show g.base = HULL_TERMINAL.base from hg]; exact hb.symm)⟩

theorem beside_abandonHarvest (s : State) (b : Bool) : Beside StopField [.regs, .host, .outbox] s (s.abandonHarvest b) := by
  unfold State.abandonHarvest
  split
  · dsimp only
    have h1 : Beside StopField [.host] s (s.withHost (fun h => { h with descs := h.descs.filter (fun d => d.kind != .harvest) })) :=
      .of_parts (withHost_onlyParts s _) (withHost_keeps s _ (.refl s)) (by decide)
    refine ((((h1.mono (by decide) (fun _ => id)).then (beside_fsetAll _ _ ?_) (by decide)).then (beside_fadd _ _ 1
      (apartFrom_stop (by decide) (by decide))) (by decide)).then (beside_setSts _ 3 _ (apartFrom_stop (by decide) (by decide))) (by decide))
    simp only [List.forall_mem_cons, List.not_mem_nil, false_implies, implies_true, and_true]
    refine ⟨apartFrom_stop (by decide) (by decide), apartFrom_stop (by decide) (by decide), apartFrom_stop (by decide) (by decide),
      apartFrom_stop (show HRD_GEN_INFO_WRITING.lo + HRD_GEN_INFO_WRITING.wd ≤ 64 by decide) ?_, apartFrom_stop (by decide) (by decide)⟩
    simp only [Fld.ix, HRD_GEN_INFO_WRITING, HULL_TERMINAL]
    omega
  · exact .refl _ _ s

theorem beside_reportRec (s : State) (r : CritRec) (m : Nat) : Beside StopField [.regs] s (s.reportRec r m) := by
  refine beside_fsetAll s _ ?_
  simp only [List.forall_mem_cons, List.not_mem_nil, false_implies, implies_true, and_true]
  exact ⟨apartFrom_stop (by decide) (by decide), apartFrom_stop (by decide) (by decide), apartFrom_stop (by decide) (by decide),
    apartFrom_stop (by decide) (by decide), apartFrom_stop (by decide) (by decide), apartFrom_stop (by decide) (by decide)⟩

theorem beside_withPower {K : Fld → Prop} (s : State) (f : PowerSt → PowerSt) : Beside K [.power] s (s.withPower f) :=
  .of_parts (withPower_onlyParts s f) (withPower_keeps s f (.refl s)) (by decide)

theorem beside_recToFlash (s : State) (kind cause : Nat) : Beside StopField [.regs, .power, .outbox] s (s.recToFlash kind cause) :=
  (((beside_withPower s _).mono (by decide) (fun _ => id)).then (beside_setSts _ 3 _ (apartFrom_stop (by decide) (by decide))) (by decide)).then
    (beside_reportRec _ _ 1) (by decide)

theorem beside_recToCart (s : State) (kind cause : Nat) : Beside StopField [.regs, .power, .outbox] s (s.recToCart kind cause) :=
  ((beside_withPower s _).mono (by decide) (fun _ => id)).then (beside_reportRec _ _ 0) (by decide)

theorem beside_writeRec (s : State) (kind cause : Nat) (b1 b2 : Bool) :
    Beside StopField [.regs, .power, .outbox] s (s.writeRec kind cause b1 b2).1 := by
  unfold State.writeRec
  split
  · exact beside_recToCart s kind cause
  · split
    · exact beside_recToFlash s kind cause
    · exact .refl _ _ s

/-! ### The stop -/

/-- The stop's register, before its record is saved. -/
def stopNoted (s : State) (cause window : Nat) : State :=
  s.fsetAll [(HULL_TERMINAL_CAUSE, cause), (HULL_TERMINAL_WINDOW, if cause == 3 then window else 0),
    (HULL_TERMINAL_CYCLE, if s.job.ctx.isSome then s.cyc else 0), (HULL_TERMINAL_VALID, 1)]

/-- Everything that a stop notes and saves, before the module stands still. -/
def stopSaved (s : State) (cause window kind : Nat) (b1 b2 : Bool) : State :=
  (((((stopNoted s cause window).reloadOver.faultEvent 4 0 0xB28 0).capFault 4).abandonHarvest false).writeRec kind cause b1 b2).1

/-- The register of a stop names its cause, and the page of an open class D action. -/
theorem stopNoted_shows {s : State} (hi : Inv s) (cause window : Nat) : (stopNoted s cause window).fget HULL_TERMINAL_CAUSE = cause % 8 ∧
    (stopNoted s cause window).fget HULL_TERMINAL_VALID = 1 ∧
    Shows HULL_TERMINAL_WINDOW (if cause == 3 then window else 0) (stopNoted s cause window) := by
  have ha : FieldsApart ([(HULL_TERMINAL_CAUSE, cause), (HULL_TERMINAL_WINDOW, if cause == 3 then window else 0),
    (HULL_TERMINAL_CYCLE, if s.job.ctx.isSome then s.cyc else 0), (HULL_TERMINAL_VALID, 1)].map Prod.fst) := by
    change FieldsApart [HULL_TERMINAL_CAUSE, HULL_TERMINAL_WINDOW, HULL_TERMINAL_CYCLE, HULL_TERMINAL_VALID]
    unfold FieldsApart
    decide
  exact ⟨fget_fsetAll_mem _ s hi.1.1 ha (.head _), fget_fsetAll_mem _ s hi.1.1 ha (.tail _ (.tail _ (.tail _ (.head _)))),
    fget_fsetAll_mem _ s hi.1.1 ha (.tail _ (.head _))⟩

theorem beside_stopSaved (s : State) (cause window kind : Nat) (b1 b2 : Bool) :
    Beside StopField [.regs, .fifos, .cap, .host, .power, .outbox] (stopNoted s cause window) (stopSaved s cause window kind b1 b2) := by
  unfold stopSaved
  generalize stopNoted s cause window = u
  exact (((((beside_reloadOver stopField_note u).mono (by decide) (fun _ => id)).then (beside_event _ stopField_note 8 _ _) (by decide)).then
    (beside_capFault _ stopField_note 4) (by decide)).then (beside_abandonHarvest _ false) (by decide)).then (beside_writeRec _ _ _ _ _) (by decide)

/-- The module stands still. -/
def stoodStill (s : State) (cause : Nat) (seq : Option Nat) : State :=
  (s.stopAll.zero 0 0x10000000000).withPower (fun p => { p with halt := .stopped cause, alert := true, trans := none, stopAt := s.now, stopSeq := seq })

theorem terminal_eq {s : State} (h : s.power.halt = .no) (cause window kind : Nat) (b1 b2 : Bool) :
    ∃ seq, s.terminal cause window kind b1 b2 true = stoodStill (stopSaved s cause window kind b1 b2) cause seq := by
  have hr : s.runs = true := by rw [State.runs, h]
  unfold State.terminal
  rw [if_pos hr]
  exact ⟨_, rfl⟩

theorem stoodStill_stands (s : State) (cause : Nat) (seq : Option Nat) : (stoodStill s cause seq).power.halt = .stopped cause ∧
    (stoodStill s cause seq).run = {} ∧ (stoodStill s cause seq).regs = s.regs ∧
    (∀ a, a < 0x10000000000 → (stoodStill s cause seq).rd8 a = 0) ∧
    (∀ a, 0x10000000000 ≤ a → (stoodStill s cause seq).rd8 a = s.rd8 a) := by
  have hm : (stoodStill s cause seq).mem = (s.zero 0 0x10000000000).mem := rfl
  refine ⟨rfl, rfl, rfl, fun a ha => ?_, fun a ha => ?_⟩
  · rw [rd8_congr hm, rd8_zero, if_pos ⟨Nat.zero_le a, ha⟩]
  · rw [rd8_congr hm, rd8_zero, if_neg (by omega)]

/-- A condition of class E stops a running module with its cause. -/
theorem terminal_stops {s : State} (h : Awake s) (cause window kind : Nat) (b1 b2 : Bool) :
    StoppedBy cause s (s.terminal cause window kind b1 b2 true) ∧
      Shows HULL_TERMINAL_WINDOW (if cause == 3 then window else 0) (s.terminal cause window kind b1 b2 true) := by
  obtain ⟨seq, he⟩ := terminal_eq h.1 cause window kind b1 b2
  obtain ⟨hc, hv, hw⟩ := stopNoted_shows h.2 cause window
  have hi : Inv (stopNoted s cause window) := (fsetAll_keeps _ (.refl s)).inv h.2
  have hb := beside_stopSaved s cause window kind b1 b2
  have hm : (stopSaved s cause window kind b1 b2).mem = s.mem :=
    Eq.trans (hb.parts .mem (by decide)) ((fsetAll_onlyParts s _) .mem (by decide))
  have f1 := (hb.flds hi HULL_TERMINAL_CAUSE rfl).trans hc
  have f2 := (hb.flds hi HULL_TERMINAL_VALID rfl).trans hv
  have f3 := (hb.flds hi HULL_TERMINAL_WINDOW rfl).trans hw
  rw [he]
  generalize stopSaved s cause window kind b1 b2 = u at *
  obtain ⟨hh, hr, hregs, hz, hk⟩ := stoodStill_stands u cause seq
  refine ⟨⟨hh, hr, (fget_congr hregs _).trans f1, fbit_of_fget ((fget_congr hregs _).trans f2), hz, fun a ha => ?_⟩,
    (fget_congr hregs _).trans f3⟩
  rw [hk a ha]
  exact rd8_congr hm a

/-- A stop of a state with the same memory. -/
theorem stoppedBy_of_mem {cause : Nat} {s u t : State} (h : StoppedBy cause u t) (hm : u.mem = s.mem) : StoppedBy cause s t := by
  obtain ⟨h1, h2, h3, h4, h5, h6⟩ := h
  exact ⟨h1, h2, h3, h4, h5, fun a ha => (h6 a ha).trans (rd8_congr hm a)⟩

end Sys2Proof.Laws
end

section
/-! PROOFS. Lockstep, attend timers and class D (R495 to R497, R504, R505). -/

namespace Sys2Proof.Laws

open Sys2Proof.Machine Sys2Proof.Safety

/-! ### LOCKSTEP_MISMATCH -/

/-- The status bit of a mismatch, which shares its register with a note. -/
abbrev LockField (g : Fld) : Prop := g = HULL_FAULT_STS_LOCKSTEP

theorem apartFrom_lock {f : Fld} (hw : f.lo + f.wd ≤ 64) (h : apart f HULL_FAULT_STS_LOCKSTEP = true) : ApartFrom LockField f :=
  ⟨hw, by rintro g rfl; exact h⟩

theorem beside_capTrigger_lock (s : State) (c src : Nat) : Beside LockField [.regs, .cap, .outbox] s (s.capTrigger c src) := by
  unfold State.capTrigger
  refine .ite ((((beside_fadd s _ 1 (apartFrom_lock (by decide) (by decide))).mono (by decide) (fun _ => id)).then
    (beside_setSts _ 0 _ (apartFrom_lock (by decide) (by decide))) (by decide))) ?_
  have h (x : Capture) : Beside LockField [.regs, .cap, .outbox] s { s with cap := x } :=
    Beside.mono (ps := [.cap]) (Beside.of_parts (fun p hp => by cases p <;> simp [Part.Same] at hp ⊢) ⟨rfl, Nat.le_refl _, fun i => i⟩
      (by decide)) (by decide) (fun _ => id)
  split
  · exact h _
  · exact h _

theorem beside_capFault_lock (s : State) (c : Nat) : Beside LockField [.regs, .cap, .outbox] s (s.capFault c) := by
  unfold State.capFault
  exact .ite (beside_capTrigger_lock s _ 4) (.refl _ _ s)

theorem beside_traceAB_lock (s : State) (c p : Nat) (f : Fld) : Beside LockField [.regs, .fifos, .cap, .outbox] s (s.traceAB c p f) := by
  refine ⟨traceAB_onlyParts s c p f, traceAB_keeps s c p f (.refl s), fun _ g hg => ?_, .of_run (traceAB_onlyParts s c p f .run (by decide)),
    outGrows_traceAB s c p f⟩
  obtain rfl : g = HULL_FAULT_STS_LOCKSTEP := hg
  refine OnlyRegs.fget (ks := dropKeys 2) ?_ _ (by decide)
  exact OnlyRegs.ite (only_post s 2 _ (fun _ m => m)) (OnlyRegs.refl _ s)

theorem beside_classB_lock (s : State) : Beside LockField [.regs, .run, .cap, .outbox] s s.classB :=
  ⟨classB_onlyParts s, classB_keeps s (.refl s), fun i g hg => by
    have hk : Inv s.markB := ⟨⟨by rw [markB_regs]; exact i.1.1, by
      have h : s.markB.mem = s.mem ∧ s.markB.tiles = s.tiles := by unfold State.markB; split <;> exact ⟨rfl, rfl⟩
      rw [h.1, h.2]; exact i.1.2⟩, by
      have h : s.markB.ctxs = s.ctxs ∧ s.markB.fifos = s.fifos ∧ s.markB.rings = s.rings ∧ s.markB.links = s.links := by
        unfold State.markB; split <;> exact ⟨rfl, rfl, rfl, rfl⟩
      rw [Shape, h.1, h.2.1, h.2.2.1, h.2.2.2]; exact i.2⟩
    exact ((beside_capFault_lock s.markB 1).flds hk g hg).trans (fget_congr (markB_regs s) g), tickMarks_classB s,
    (OutGrows.ite (a := s.withRun _) (b := s.withRun _) (.refl s) (.refl s)).trans (outGrows_capFault s.markB 1)⟩

theorem lockstep_shown {s : State} (hi : Inv s) : (s.classBSts 0 HULL_FAULT_STS_LOCKSTEP).fbit HULL_FAULT_STS_LOCKSTEP = true := by
  have h1 := (setSts_keeps s 0 HULL_FAULT_STS_LOCKSTEP (.refl s)).inv hi
  have h2 := (beside_traceAB_lock (s.setSts 0 HULL_FAULT_STS_LOCKSTEP) 1 0 HULL_FAULT_STS_LOCKSTEP)
  exact (beside_classB_lock _).fbit (h2.keeps.inv h1) rfl (h2.fbit h1 rfl (fbit_setSts s 0 _ hi.1.1 (by decide) rfl))

/-- A mismatch counted and noted. -/
def mismatched (s : State) : State :=
  ((s.fadd HULL_LOCKSTEP_MISMATCHES 1).fset HULL_LOCKSTEP_LAST_CYCLE s.relCyc).classBSts 0 HULL_FAULT_STS_LOCKSTEP

theorem mismatched_onlyParts (s : State) : OnlyParts [.regs, .run, .fifos, .cap, .outbox] s (mismatched s) :=
  (((fadd_onlyParts s _ _).mono (qs := [.regs, .run, .fifos, .cap, .outbox]) (by decide)).then (fset_onlyParts _ _ _) (by decide)).trans
    (classBSts_onlyParts _ 0 _)

theorem mismatched_keeps (s : State) : Keeps s (mismatched s) :=
  classBSts_keeps _ 0 _ (fset_keeps _ _ (fadd_keeps s _ 1 (.refl s)))

theorem mismatched_stands {s : State} (hi : Inv s) : Counts HULL_LOCKSTEP_MISMATCHES 1 s (mismatched s) ∧
    (mismatched s).fbit HULL_FAULT_STS_LOCKSTEP = true ∧ RaisesB s (mismatched s) := by
  have hc := counts_fadd hi HULL_LOCKSTEP_MISMATCHES 1 (by decide)
  have hi1 := (fadd_keeps s HULL_LOCKSTEP_MISMATCHES 1 (.refl s)).inv hi
  have hf := fget_fset_apart (s.fadd HULL_LOCKSTEP_MISMATCHES 1) HULL_LOCKSTEP_LAST_CYCLE HULL_LOCKSTEP_MISMATCHES s.relCyc hi1.1.1
    (by decide) (by decide)
  have hi2 : Inv ((s.fadd HULL_LOCKSTEP_MISMATCHES 1).fset HULL_LOCKSTEP_LAST_CYCLE s.relCyc) :=
    (fset_keeps _ _ (fadd_keeps s _ 1 (.refl s))).inv hi
  have hm : TickMarks s ((s.fadd HULL_LOCKSTEP_MISMATCHES 1).fset HULL_LOCKSTEP_LAST_CYCLE s.relCyc) := .of_run rfl
  have hb := beside_classBSts (K := fun g => g.base = HULL_LOCKSTEP_MISMATCHES.base)
    ((s.fadd HULL_LOCKSTEP_MISMATCHES 1).fset HULL_LOCKSTEP_LAST_CYCLE s.relCyc) (fun g hg => by rw [hg]; decide) 0
    HULL_FAULT_STS_LOCKSTEP ⟨by decide, fun g hg => apart_of_base (by rw [hg]; decide)⟩
  exact ⟨((hb.flds hi2 _ rfl).trans hf).trans hc, lockstep_shown hi2, hm.then_raisesB (classBSts_raisesB _ 0 _)⟩

/-- Is a mismatch the second (R506)? -/
def mismatchAgain (s : State) : Bool :=
  s.reloading || (match s.power.reloaded with | some c => decide (s.now ≤ c + 16777216) | none => false)

theorem mismatchAgain_iff (s : State) (at_ : Nat) : mismatchAgain (s.advance at_) = true ↔
    s.power.reload ≠ none ∨ ∃ c, s.power.reloaded = some c ∧ max s.now at_ ≤ c + 16777216 := by
  have h : mismatchAgain (s.advance at_) =
      (s.power.reload.isSome || (match s.power.reloaded with | some c => decide (max s.now at_ ≤ c + 16777216) | none => false)) := rfl
  rw [h, Bool.or_eq_true, Option.isSome_iff_ne_none]
  refine or_congr Iff.rfl ?_
  cases s.power.reloaded with
  | none => simp
  | some c => simp

theorem lockstep_eq (s : State) : s.lockstep = if mismatchAgain s then (mismatched s).terminal 1 0 1 false false true
    else ((mismatched s).withPower (fun p => { p with reload := some ((mismatched s).now + 16384) })).withJob (fun j => { j with token := none }) := rfl

section
variable {s : State} {at_ : Nat} (h : Awake s) (hs : Settled s at_)
include h hs

theorem exec_lockstepMismatch : exec (.lockstepMismatch at_) s = .next (s.advance at_).lockstep :=
  congrArg Host.Outcome.next ((live_runs h.1 _).trans (by rw [upTo_settled _ _ hs]))

theorem lockstep_first (hf : ¬ (s.power.reload ≠ none ∨ ∃ c, s.power.reloaded = some c ∧ max s.now at_ ≤ c + 16777216)) :
    ∃ t, exec (.lockstepMismatch at_) s = .next t ∧ t.now = max s.now at_ ∧ Counts HULL_LOCKSTEP_MISMATCHES 1 s t ∧
      t.fbit HULL_FAULT_STS_LOCKSTEP = true ∧ RaisesB s t ∧ t.power.reload = some (max s.now at_ + 16384) ∧ t.job.token = none ∧
      t.ccr = s.ccr ∧ OnlyParts [.now, .regs, .run, .job, .fifos, .cap, .power, .outbox] s t := by
  have ha := advance_onlyParts s at_
  have hp := mismatched_onlyParts (s.advance at_)
  obtain ⟨hc, hb, hr⟩ := mismatched_stands ((advance_keeps at_ (.refl s)).inv h.2)
  have he := (exec_lockstepMismatch h hs).trans (congrArg Host.Outcome.next ((lockstep_eq (s.advance at_)).trans
    (if_neg (fun e => hf ((mismatchAgain_iff s at_).1 e)))))
  have hall := (ha.mono (qs := [.now, .regs, .run, .fifos, .cap, .outbox]) (by decide)).then hp (by decide)
  have hnow : (mismatched (s.advance at_)).now = max s.now at_ := hp .now (by decide)
  have hm : TickMarks s (s.advance at_) := .of_run rfl
  have hrs : RaisesB s (mismatched (s.advance at_)) := hm.then_raisesB hr
  have hcs : Counts HULL_LOCKSTEP_MISMATCHES 1 s (mismatched (s.advance at_)) := by
    unfold Counts at hc ⊢
    rwa [fget_advance] at hc
  generalize mismatched (s.advance at_) = u at *
  refine ⟨_, he, hnow, hcs, hb, hrs, congrArg (fun n => some (n + 16384)) hnow, rfl, hall .ccr (by decide), ?_⟩
  exact ((hall.mono (qs := [.now, .regs, .run, .job, .fifos, .cap, .power, .outbox]) (by decide)).then (withPower_onlyParts u _) (by decide)).then
    (withJob_onlyParts _ _) (by decide)

theorem lockstep_second (hf : s.power.reload ≠ none ∨ ∃ c, s.power.reloaded = some c ∧ max s.now at_ ≤ c + 16777216) :
    ∃ t, exec (.lockstepMismatch at_) s = .next t ∧ StoppedBy 1 s t := by
  have he := (exec_lockstepMismatch h hs).trans (congrArg Host.Outcome.next ((lockstep_eq (s.advance at_)).trans
    (if_pos ((mismatchAgain_iff s at_).2 hf))))
  have hp := mismatched_onlyParts (s.advance at_)
  have hw : Awake (mismatched (s.advance at_)) :=
    ⟨(congrArg PowerSt.halt (hp .power (by decide))).trans h.1, (mismatched_keeps _).inv ((advance_keeps at_ (.refl s)).inv h.2)⟩
  exact ⟨_, he, stoppedBy_of_mem (terminal_stops hw 1 0 1 false false).1 (hp .mem (by decide))⟩

end

/-! ### LOCKSTEP_RELOAD_DONE -/

section
variable {s : State} {c : Nat} (h : Awake s) (hr : s.power.reload = some c) (hs : Settled s c)
include h hr hs

theorem reload_stops {ok : Bool} (hb : ok = false ∨ s.mirror0 ≠ s.mirror1) : ∃ t, exec (.lockstepReloadDone ok) s = .next t ∧ StoppedBy 2 s t := by
  have hc : (!ok || (s.advance c).mirror0 != (s.advance c).mirror1) = true := by
    rcases hb with rfl | hm
    · rfl
    · rw [Bool.or_eq_true]
      exact Or.inr (bne_iff_ne.2 hm)
  have he : s.reloadDone ok = (s.advance c).terminal 2 0 1 false false true := by
    unfold State.reloadDone
    rw [hr]
    dsimp only
    rw [upTo_settled _ _ hs, if_pos hc]
  have hw : Awake (s.advance c) := ⟨h.1, (advance_keeps c (.refl s)).inv h.2⟩
  exact ⟨_, congrArg Host.Outcome.next ((live_runs h.1 _).trans he), stoppedBy_of_mem (terminal_stops hw 2 0 1 false false).1 rfl⟩

/-- The module with the mirrored record, in a job (R505). -/
def recordBack (s : State) : State := if s.job.ctx.isSome then { s with ccr := s.mirror0 } else s

omit h hr hs in
theorem recordBack_onlyParts (s : State) : OnlyParts [.ccr] s (recordBack s) :=
  .ite (fun p hp => by cases p <;> simp [Part.Same] at hp ⊢) (.refl _ s)

omit h hr hs in
theorem recordBack_ccr (s : State) : (recordBack s).ccr = if s.job.ctx = none then s.ccr else s.mirror0 := by
  unfold recordBack
  cases s.job.ctx <;> rfl

theorem reload_ends (hm : s.mirror0 = s.mirror1) : ∃ t, exec (.lockstepReloadDone true) s = .next t ∧ t.now = max s.now c ∧
    t.ccr = (if s.job.ctx = none then s.ccr else s.mirror0) ∧ t.power.reload = none ∧ t.power.reloaded = some c ∧
    (t.fifo 1).late = [] ∧ OnlyParts [.now, .regs, .ccr, .fifos, .power, .outbox] s t ∧
    ((s.fifo 1).late = [] → OnlyParts [.now, .ccr, .power] s t) := by
  have hc : ¬ (!true || (s.advance c).mirror0 != (s.advance c).mirror1) = true := by
    rw [show (s.advance c).mirror0 = (s.advance c).mirror1 from hm, bne_self_eq_false]
    decide
  have he : s.reloadDone true = (recordBack (s.advance c)).reloadOver.withPower (fun p => { p with reloaded := some c }) := by
    unfold State.reloadDone
    rw [hr]
    dsimp only
    rw [upTo_settled _ _ hs, if_neg hc]
    rfl
  have hb := recordBack_onlyParts (s.advance c)
  have hccr := recordBack_ccr (s.advance c)
  have hi : Inv (recordBack (s.advance c)) := by
    have hi := (advance_keeps c (.refl s)).inv h.2
    unfold recordBack
    split
    · exact ⟨hi.1, hi.2⟩
    · exact hi
  have hall := ((advance_onlyParts s c).mono (qs := [.now, .ccr]) (by decide)).then hb (by decide)
  have hf : (recordBack (s.advance c)).fifo 1 = s.fifo 1 := congrArg (fun (l : List Fifo) => List.getD l 1 {}) (hall .fifos (by decide))
  have hnow : (recordBack (s.advance c)).now = max s.now c := hb .now (by decide)
  refine ⟨_, congrArg Host.Outcome.next ((live_runs h.1 _).trans he), ?_⟩
  generalize recordBack (s.advance c) = u at *
  have ho := beside_reloadOver (K := fun g => g.base ∉ noteRegs) (fun _ hg => hg) u
  have hrel : u.reloadOver.power.reload = none := by
    rw [reloadOver_eq]
    refine List.foldlRecOn (motive := fun (t : State) => t.power.reload = none) _ _ rfl (fun t ht e _ => ?_)
    rw [(event_onlyParts t _ _ _) .power (by decide)]
    exact ht
  refine ⟨Eq.trans (ho.parts .now (by decide)) hnow, Eq.trans (ho.parts .ccr (by decide)) hccr, hrel, rfl, reloadOver_late hi,
    ((hall.mono (by decide)).then ho.parts (by decide)).then (withPower_onlyParts _ _) (by decide), fun hl => ?_⟩
  rw [reloadOver_idle (hf ▸ hl)]
  exact ((hall.mono (qs := [.now, .ccr, .power]) (by decide)).then (withPower_onlyParts u _) (by decide)).then (withPower_onlyParts _ _) (by decide)

end

/-! ### ATTEND_EXPIRY and ATTEND_ACK -/

/-- The registers of a page's fault block lie apart from what notes and an abort touch, and from each other. -/
theorem attendPage_facts {p : Nat} (hp : p < 108) : (ATTEND_EXPIRED.pageOf p).lo + (ATTEND_EXPIRED.pageOf p).wd ≤ 64 ∧
    (ATTEND_EXPIRED.pageOf p).wd = 1 ∧ (ATTEND_EXPIRED.pageOf p).base ∉ noteRegs ∧
    (ATTEND_EXPIRED.pageOf p).base ≠ (FAULT_CNT_D_TAKEN.pageOf p).base ∧ (ATTEND_EXPIRED.pageOf p).base ∉ [HULL_ORCH_STS_ABORT_SENT.base] ∧
    HULL_ORCH_MODULE.base ≠ (ATTEND_EXPIRED.pageOf p).base ∧ HULL_ORCH_MODULE.base ≠ (FAULT_CNT_D_TAKEN.pageOf p).base ∧
    (FAULT_CNT_D_TAKEN.pageOf p).base ∉ [HULL_ORCH_STS_ABORT_SENT.base] ∧
    (FAULT_CNT_C_ACKED.pageOf p).lo + (FAULT_CNT_C_ACKED.pageOf p).wd ≤ 64 := by
  revert p
  decide

/-- The timer of a page has run out. -/
def timerOut (s : State) (p : Nat) : State :=
  ({ s with attend := assocPut s.attend p { s.attendOf p with expiry := none } } : State).fset (ATTEND_EXPIRED.pageOf p) 1

theorem timerOut_onlyParts (s : State) (p : Nat) : OnlyParts [.regs, .attend] s (timerOut s p) := by
  refine OnlyParts.then (t := { s with attend := assocPut s.attend p { s.attendOf p with expiry := none } }) ?_ (fset_onlyParts _ _ _) (by decide)
  intro q hq
  cases q <;> simp [Part.Same] at hq ⊢

theorem timerOut_keeps (s : State) (p : Nat) : Keeps s (timerOut s p) :=
  fset_keeps _ 1 (s := { s with attend := assocPut s.attend p { s.attendOf p with expiry := none } }) ⟨rfl, Nat.le_refl _, fun i => i⟩

theorem timerOut_attendOf (s : State) (p : Nat) : (timerOut s p).attendOf p = { s.attendOf p with expiry := none } := by
  change (assocGet (assocPut s.attend p { s.attendOf p with expiry := none }) p).getD {} = _
  rw [assocGet_assocPut_same]
  rfl

theorem attendOf_congr {s t : State} (h : t.attend = s.attend) (p : Nat) : t.attendOf p = s.attendOf p := by
  rw [State.attendOf, State.attendOf, h]

theorem attendExpiry_eq {s : State} {p c : Nat} (hx : (s.attendOf p).expiry = some c) (hs : Settled s c) :
    s.attendExpiry p = (timerOut (s.advance c) p).classD p ((s.attendOf p).first.getD (0, 0)).1 ((s.attendOf p).first.getD (0, 0)).2
      (s.attendOf p).cause := by
  unfold State.attendExpiry
  dsimp only
  rw [hx]
  dsimp only
  rw [upTo_settled _ _ hs]
  rfl

section
variable {s : State} {p c : Nat} (h : Awake s) (hp : p < 108) (hx : (s.attendOf p).expiry = some c) (hs : Settled s c)
  (h3 : p ≠ 3) (h7 : p ≠ 7)
include h hp hx hs h3 h7

theorem attendExpiry_in_job (hj : s.job.ctx ≠ none) (ha : s.job.aborting = none) :
    ∃ t, exec (.attendExpiry p) s = .next t ∧ t.now = max s.now c ∧ (t.attendOf p).expiry = none ∧
      t.fbit (ATTEND_EXPIRED.pageOf p) = true ∧ Counts (FAULT_CNT_D_TAKEN.pageOf p) 1 s t ∧
      t.job.aborting = some (s.fget HULL_ORCH_MODULE, (s.attendOf p).cause) ∧
      t.fbit HULL_ORCH_STS_ABORT_SENT = true ∧ t.job.ctx = s.job.ctx ∧ t.mem = s.mem ∧ t.ccr = s.ccr := by
  obtain ⟨hw, h1, hnote, hd, hsent, hmod, hmodd, hdsent, -⟩ := attendPage_facts hp
  have he := (live_runs h.1 (fun s => s.attendExpiry p)).trans (attendExpiry_eq hx hs)
  have hi := (advance_keeps c (.refl s)).inv h.2
  have hiu := (timerOut_keeps (s.advance c) p).inv hi
  have hall := ((advance_onlyParts s c).mono (qs := [.now, .regs, .attend]) (by decide)).then (timerOut_onlyParts _ p) (by decide)
  have hnow : (timerOut (s.advance c) p).now = max s.now c := (timerOut_onlyParts _ p) .now (by decide)
  have hatt := timerOut_attendOf (s.advance c) p
  have hexp : (timerOut (s.advance c) p).fbit (ATTEND_EXPIRED.pageOf p) = true :=
    fbit_fset_one { s.advance c with attend := _ } _ hi.1.1 hw h1
  have hcnt : (timerOut (s.advance c) p).fget (FAULT_CNT_D_TAKEN.pageOf p) = s.fget (FAULT_CNT_D_TAKEN.pageOf p) :=
    (fget_fset_base { s.advance c with attend := _ } _ _ 1 (Ne.symm hd)).trans (fget_advance s c _)
  have hmo : (timerOut (s.advance c) p).fget HULL_ORCH_MODULE = s.fget HULL_ORCH_MODULE :=
    (fget_fset_base { s.advance c with attend := _ } _ _ 1 hmod).trans (fget_advance s c _)
  generalize timerOut (s.advance c) p = u at *
  generalize ((s.attendOf p).first.getD (0, 0)).1 = off at *
  generalize ((s.attendOf p).first.getD (0, 0)).2 = bit at *
  have hju : u.job = s.job := hall .job (by decide)
  have hd' := classD_in_job (s := u) (p := p) (off := off) (bit := bit) (cause := (s.attendOf p).cause) h3 h7 (hju ▸ hj) (hju ▸ ha)
  have hc := classDTaken_counts hiu hp off bit
  have hpt := classDTaken_onlyParts u p off bit
  have hat := aborted_onlyParts (classDTaken u p off bit) (s.attendOf p).cause
  have haj := aborted_job (classDTaken u p off bit) (s.attendOf p).cause
  have hself := attendOf_congr (Eq.trans (hat .attend (by decide)) (hpt .attend (by decide))) p
  refine ⟨_, congrArg Host.Outcome.next (he.trans hd'), ?_, ?_, ?_, ?_, ?_, aborted_sent ((classDTaken_keeps u p off bit).inv hiu) _, ?_, ?_, ?_⟩
  · exact Eq.trans (hat .now (by decide)) (Eq.trans (hpt .now (by decide)) hnow)
  · rw [hself, hatt]
  · exact (congrArg (fun y => y != 0) (((only_aborted _ _).fget _ hsent).trans (fget_classDTaken off bit hnote hd))).trans hexp
  · unfold Counts at hc ⊢
    rw [(only_aborted _ _).fget _ hdsent, hc, hcnt]
  · rw [haj]
    exact congrArg (fun m => some (m, (s.attendOf p).cause)) ((fget_classDTaken off bit (by decide) hmodd).trans hmo)
  · rw [haj]
    have hctx := congrArg JobRun.ctx (Eq.trans (hpt .job (by decide)) hju)
    exact hctx
  · exact Eq.trans (hat .mem (by decide)) (Eq.trans (hpt .mem (by decide)) (hall .mem (by decide)))
  · exact Eq.trans (hat .ccr (by decide)) (Eq.trans (hpt .ccr (by decide)) (hall .ccr (by decide)))

omit hp in
theorem attendExpiry_without_job (hj : s.job.ctx = none) : ∃ t, exec (.attendExpiry p) s = .next t ∧ t.now = max s.now c ∧
    (t.attendOf p).expiry = none ∧ t.job = s.job ∧ t.mem = s.mem ∧ t.ccr = s.ccr := by
  have he := (live_runs h.1 (fun s => s.attendExpiry p)).trans (attendExpiry_eq hx hs)
  have hall := ((advance_onlyParts s c).mono (qs := [.now, .regs, .attend]) (by decide)).then (timerOut_onlyParts _ p) (by decide)
  have hnow : (timerOut (s.advance c) p).now = max s.now c := (timerOut_onlyParts _ p) .now (by decide)
  have hatt := timerOut_attendOf (s.advance c) p
  generalize timerOut (s.advance c) p = u at *
  generalize ((s.attendOf p).first.getD (0, 0)).1 = off at *
  generalize ((s.attendOf p).first.getD (0, 0)).2 = bit at *
  have hn := classDNoted_onlyParts u p off bit
  have hjob : (classDNoted u p off bit).job = s.job := Eq.trans (hn .job (by decide)) (hall .job (by decide))
  have hact : ∃ q, u.classD p off bit (s.attendOf p).cause = (if p == 5 then ((classDNoted u p off bit).clearRegs q).emptyAtc
      else (classDNoted u p off bit).clearRegs q) := by
    have hdef : u.classD p off bit (s.attendOf p).cause =
        (let v := if (classDNoted u p off bit).job.ctx.isSome && p != 3 && p != 7 then classDTaken u p off bit else classDNoted u p off bit
        v.classDAction p (v.attendOf p).fifo (s.attendOf p).cause) := rfl
    have hnone : (classDNoted u p off bit).job.ctx.isSome = false := by rw [hjob, hj]; rfl
    rw [hdef]
    dsimp only
    rw [if_neg (by rw [hnone]; simp), State.classDAction, if_neg (by simpa using h3), if_neg (by simpa using h7),
      if_neg (by rw [hnone]; decide)]
    exact ⟨_, rfl⟩
  obtain ⟨q, hq⟩ := hact
  have hcl := hn.mono (qs := [.regs, .fifos, .cap, .host, .outbox]) (by decide) |>.then (clearRegs_onlyParts _ q) (by decide)
  have hfin : OnlyParts [.regs, .fifos, .cap, .host, .outbox] u (u.classD p off bit (s.attendOf p).cause) := by
    rw [hq]
    exact .ite (hcl.then (emptyAtc_onlyParts _) (by decide)) hcl
  refine ⟨_, congrArg Host.Outcome.next he, Eq.trans (hfin .now (by decide)) hnow, ?_, Eq.trans (hfin .job (by decide)) (hall .job (by decide)),
    Eq.trans (hfin .mem (by decide)) (hall .mem (by decide)), Eq.trans (hfin .ccr (by decide)) (hall .ccr (by decide))⟩
  rw [attendOf_congr (hfin .attend (by decide)) p, hatt]

end

theorem attendAck_stands {s : State} (h : Awake s) {p : Nat} (hp : p < 108) : ∃ t, exec (.attendAck p) s = .next t ∧
    Counts (FAULT_CNT_C_ACKED.pageOf p) 1 s t ∧ (t.attendOf p).expiry = none ∧ (t.attendOf p).first = none ∧
    (∀ q, q ≠ p → t.attendOf q = s.attendOf q) ∧ OnlyParts [.regs, .attend] s t ∧
    OnlyRegs [(FAULT_CNT_C_ACKED.pageOf p).base] s t := by
  have he : s.live (fun s => if p < 108 then s.attendAck p else s) = s.attendAck p := by rw [live_runs h.1, if_pos hp]
  have hself : (s.attendAck p).attendOf p = { s.attendOf p with expiry := none, first := none } := by
    change (assocGet (assocPut s.attend p _) p).getD {} = _
    rw [assocGet_assocPut_same]
    rfl
  refine ⟨_, congrArg Host.Outcome.next he, counts_fadd h.2 _ 1 (attendPage_facts hp).2.2.2.2.2.2.2.2, by rw [hself], by rw [hself],
    fun q hq => ?_, ?_, ?_⟩
  · change (assocGet (assocPut s.attend p _) q).getD {} = _
    rw [assocGet_assocPut_ne _ _ _ hq]
    rfl
  · refine OnlyParts.trans ((fadd_onlyParts s _ 1).mono (by decide)) (t := s.fadd (FAULT_CNT_C_ACKED.pageOf p) 1) ?_
    intro r hr
    cases r <;> simp at hr <;> rfl
  · exact (only_fadd s _ 1 (.head _)).trans (OnlyRegs.same (OnlyRegs.refl _ _) rfl)

/-! ### CLASS_D_TIMEOUT -/

section
variable {s : State} {at_ p : Nat} (h : Awake s) (hs : Settled s at_) (b1 b2 : Bool)
include h hs

theorem exec_classDTimeout : exec (.classDTimeout at_ p b1 b2) s = .next (
    if s.power.classD.any (fun d => d.1 == p && decide (d.2 + 200000000 ≤ max s.now at_)) then
      (s.advance at_).terminal 3 (pageWindow p) 1 b1 b2 true
    else s.advance at_) :=
  congrArg Host.Outcome.next ((live_runs h.1 _).trans (by rw [upTo_settled _ _ hs]; rfl))

omit h hs in
theorem late_iff : s.power.classD.any (fun d => d.1 == p && decide (d.2 + 200000000 ≤ max s.now at_)) = true ↔
    ∃ d ∈ s.power.classD, d.1 = p ∧ d.2 + 200000000 ≤ max s.now at_ := by
  simp only [List.any_eq_true, Bool.and_eq_true, beq_iff_eq, decide_eq_true_eq]

theorem classDTimeout_stops (hl : ∃ d ∈ s.power.classD, d.1 = p ∧ d.2 + 200000000 ≤ max s.now at_) :
    ∃ t, exec (.classDTimeout at_ p b1 b2) s = .next t ∧ StoppedBy 3 s t ∧ Shows HULL_TERMINAL_WINDOW (pageWindow p) t := by
  have he := exec_classDTimeout (p := p) h hs b1 b2
  rw [if_pos (late_iff.2 hl)] at he
  have hw : Awake (s.advance at_) := ⟨h.1, (advance_keeps at_ (.refl s)).inv h.2⟩
  obtain ⟨hst, hwin⟩ := terminal_stops hw 3 (pageWindow p) 1 b1 b2
  exact ⟨_, he, stoppedBy_of_mem hst rfl, hwin⟩

theorem classDTimeout_early (hl : ¬ ∃ d ∈ s.power.classD, d.1 = p ∧ d.2 + 200000000 ≤ max s.now at_) :
    ∃ t, exec (.classDTimeout at_ p b1 b2) s = .next t ∧ OnlyParts [.now] s t := by
  have he := exec_classDTimeout (p := p) h hs b1 b2
  rw [if_neg (fun e => hl (late_iff.1 e))] at he
  exact ⟨_, he, advance_onlyParts s at_⟩

end

/-- Settles O44: mismatches, reloads, timers and open actions, each by its own lemma. -/
theorem lockstepAndAttendTimers : Obligations.LockstepAndAttendTimers := by
  unfold Obligations.LockstepAndAttendTimers
  intro s at_ page h hp
  refine ⟨fun hs => ⟨lockstep_first h hs, lockstep_second h hs⟩, fun c hr hs => ⟨reload_ends h hr hs, reload_stops h hr hs (Or.inl rfl),
    fun ok hm => reload_stops h hr hs (Or.inr hm)⟩, fun c hx hs hj ha h3 h7 => attendExpiry_in_job h hp hx hs h3 h7 hj ha,
    fun c hx hs hj h3 h7 => attendExpiry_without_job h hx hs h3 h7 hj, fun hx => ?_, attendAck_stands h hp,
    fun b1 b2 hs => ⟨classDTimeout_stops h hs b1 b2, classDTimeout_early h hs b1 b2⟩⟩
  have he : s.attendExpiry page = s := by
    unfold State.attendExpiry
    dsimp only
    rw [hx]
  exact congrArg Host.Outcome.next ((live_runs h.1 _).trans he)

end Sys2Proof.Laws
end

section
/-! PROOFS. Capture triggers, arming, and a master's notice (R513 to R517). -/

namespace Sys2Proof.Laws

open Sys2Proof.Machine Sys2Proof.Safety

/-! ### Triggers (R514, R515) -/

/-- Are the copies held? -/
def copiesHeld (s : State) : Bool := s.fbit HULL_CAPTURE_CFG_HOLD && s.fbit HULL_CAPTURE_ID_HELD

/-- A trigger that finds the copies held is counted as missed (R516). -/
def triggerMissed (s : State) : State := (s.fadd HULL_CAPTURE_ID_MISSED 1).setSts 0 HULL_FAULT_STS_CAPTURE_MISSED

theorem capTrigger_held {s : State} (h : copiesHeld s = true) (c src : Nat) : s.capTrigger c src = triggerMissed s := if_pos h

/-- A capture that no other takes in waits for its cycle. -/
theorem capTrigger_new {s : State} (h : copiesHeld s = false) {c : Nat} (src : Nat) (hn : ∀ x ∈ s.cap.pend, c < x.1 ∨ x.1 + 32 < c) :
    s.capTrigger c src = { s with cap := { s.cap with pend := s.cap.pend ++ [(c, src)] } } := by
  have hf : s.cap.pend.find? (fun p => decide (p.1 ≤ c) && decide (c ≤ p.1 + 32)) = none := by
    rw [List.find?_eq_none]
    intro x hx
    have := hn x hx
    simp only [Bool.and_eq_true, decide_eq_true_eq]
    omega
  unfold State.capTrigger
  rw [show (s.fbit HULL_CAPTURE_CFG_HOLD && s.fbit HULL_CAPTURE_ID_HELD) = false from h, if_neg Bool.false_ne_true, hf]

/-- A capture that waits for that time takes the trigger in. -/
theorem capTrigger_joins {s : State} (h : copiesHeld s = false) {c : Nat} {x : Nat × Nat} (src : Nat) (hx : s.cap.pend = [x]) (h1 : x.1 ≤ c)
    (h2 : c ≤ x.1 + 32) : s.capTrigger c src = { s with cap := { s.cap with pend := [(x.1, Nat.lor x.2 src)] } } := by
  have hf : s.cap.pend.find? (fun p => decide (p.1 ≤ c) && decide (c ≤ p.1 + 32)) = some x := by
    rw [hx, List.find?_cons_of_pos]
    simp [h1, h2]
  unfold State.capTrigger
  rw [show (s.fbit HULL_CAPTURE_CFG_HOLD && s.fbit HULL_CAPTURE_ID_HELD) = false from h, if_neg Bool.false_ne_true, hf]
  dsimp only
  rw [hx, List.map_cons, if_pos (beq_self_eq_true x), List.map_nil]

theorem triggerMissed_onlyParts (s : State) : OnlyParts [.regs, .outbox] s (triggerMissed s) :=
  ((fadd_onlyParts s _ _).mono (by decide)).trans (setSts_onlyParts _ 0 _)

theorem triggerMissed_stands {s : State} (hi : Inv s) : Counts HULL_CAPTURE_ID_MISSED 1 s (triggerMissed s) ∧
    (triggerMissed s).fbit HULL_FAULT_STS_CAPTURE_MISSED = true ∧ OnlyRegs noteRegs s (triggerMissed s) := by
  have hi1 := (fadd_keeps s HULL_CAPTURE_ID_MISSED 1 (.refl s)).inv hi
  exact ⟨(fget_setSts_apart _ 0 _ _ hi1.1.1 (by decide) (by decide)).trans (counts_fadd hi _ 1 (by decide)),
    fbit_setSts _ 0 _ hi1.1.1 (by decide) rfl, (only_fadd s _ 1 (by decide)).trans (only_setSts _ 0 _ (by decide))⟩

theorem copiesHeld_congr {s t : State} (h : t.regs = s.regs) : copiesHeld t = copiesHeld s := by
  rw [copiesHeld, copiesHeld, fbit_congr h, fbit_congr h]

section
variable {s : State} {at_ : Nat} (h : Awake s)
include h

/-- What a trigger on a cycle does, of whichever source (R514 to R516). -/
theorem trigger_stands (i : Instr) (src : Nat) (he : exec i s = .next ((s.advance at_).capTrigger (max s.now at_ + 32) src)) :
    (copiesHeld s = false → (∀ x ∈ s.cap.pend, max s.now at_ + 32 < x.1 ∨ x.1 + 32 < max s.now at_ + 32) →
      ∃ t, exec i s = .next t ∧ t.cap.pend = s.cap.pend ++ [(max s.now at_ + 32, src)] ∧ t.now = max s.now at_ ∧ OnlyParts [.now, .cap] s t) ∧
    (copiesHeld s = false → ∀ x, s.cap.pend = [x] → x.1 ≤ max s.now at_ + 32 → max s.now at_ + 32 ≤ x.1 + 32 →
      ∃ t, exec i s = .next t ∧ t.cap.pend = [(x.1, Nat.lor x.2 src)] ∧ OnlyParts [.now, .cap] s t) ∧
    (copiesHeld s = true → ∃ t, exec i s = .next t ∧ Counts HULL_CAPTURE_ID_MISSED 1 s t ∧
      t.fbit HULL_FAULT_STS_CAPTURE_MISSED = true ∧ OnlyParts [.now, .regs, .outbox] s t ∧ OnlyRegs noteRegs s t) := by
  have ha := advance_onlyParts s at_
  have hh : copiesHeld (s.advance at_) = copiesHeld s := copiesHeld_congr rfl
  refine ⟨fun hf hn => ?_, fun hf x hx h1 h2 => ?_, fun ht => ?_⟩
  · rw [capTrigger_new (hh.trans hf) src (s := s.advance at_) hn] at he
    exact ⟨_, he, rfl, rfl, fun p hp => by cases p <;> simp [Part.Same] at hp ⊢⟩
  · rw [capTrigger_joins (hh.trans hf) src (s := s.advance at_) hx h1 h2] at he
    exact ⟨_, he, rfl, fun p hp => by cases p <;> simp [Part.Same] at hp ⊢⟩
  · rw [capTrigger_held (hh.trans ht)] at he
    obtain ⟨hc, hm, hr⟩ := triggerMissed_stands ((advance_keeps at_ (.refl s)).inv h.2)
    refine ⟨_, he, ?_, hm, (ha.mono (by decide)).then (triggerMissed_onlyParts _) (by decide), (ha.onlyRegs (by decide) _).trans hr⟩
    unfold Counts at hc ⊢
    rwa [fget_advance] at hc

variable (hs : Settled s at_)
include hs

theorem exec_captureNow : exec (.captureNow at_) s = .next ((s.advance at_).capTrigger (max s.now at_ + 32) 1) :=
  congrArg Host.Outcome.next ((live_runs h.1 _).trans (by rw [upTo_settled _ _ hs]; rfl))

theorem exec_captureIn : exec (.captureIn at_) s =
    .next (if s.fbit HULL_CAPTURE_CFG_PIN_EN then (s.advance at_).capTrigger (max s.now at_ + 32) 8 else s.advance at_) :=
  congrArg Host.Outcome.next ((live_runs h.1 _).trans (by rw [upTo_settled _ _ hs]; rfl))

end

/-! ### ARM_EDGE, DISARM and REARM (R515, R516) -/

/-- A one-bit field is set or cleared, and no other bit changes. -/
theorem bit_stored {s : State} (hi : Inv s) (f : Fld) (b : Bool) (hw : f.lo + 1 ≤ 64) (h1 : f.wd = 1) :
    (s.fset f b.toNat).fbit f = b ∧
      (∀ g : Fld, g.base ≠ f.base ∨ g.lo + g.wd ≤ f.lo ∨ f.lo + 1 ≤ g.lo → (s.fset f b.toNat).fget g = s.fget g) ∧
      OnlyParts [.regs] s (s.fset f b.toNat) := by
  have hw' : f.lo + f.wd ≤ 64 := by omega
  refine ⟨?_, fun g hg => ?_, fset_onlyParts s _ _⟩
  · rw [State.fbit, fget_fset_same s f _ hi.1.1 hw', h1]
    cases b <;> rfl
  · rcases hg with hg | hg
    · exact fget_fset_base s f g _ hg
    · exact fget_fset_disjoint s f g _ hi.1.1 hw' (by omega)

/-! ### CAPTURE_SEND (R517) -/

/-- Do every plan's ticks reach beyond a cycle? -/
def belowPlans (f : ImageFile) (cycle : Nat) : Bool :=
  f.plans.all (fun p => match p with | some p => decide (cycle < planPeriod p) | none => true)

theorem belowPlans_iff (f : ImageFile) (cycle : Nat) : belowPlans f cycle = true ↔
    ∀ p ∈ f.plans, p.all (fun q => decide (cycle < planPeriod q)) = true := by
  rw [belowPlans, List.all_eq_true]
  refine forall₂_congr (fun p _ => ?_)
  cases p <;> rfl

section
variable {s : State} (h : Awake s)
include h

theorem captureSend_off (hm : s.fbit HULL_ORCH_MASTER = false) : exec .captureSend s = .next s := by
  refine congrArg Host.Outcome.next ((live_runs h.1 _).trans ?_)
  rw [State.captureSend, hm, Bool.false_and, if_neg Bool.false_ne_true]

theorem exec_captureSend {f : ImageFile} (hf : s.image = some f) (hm : s.fbit HULL_ORCH_MASTER = true) : exec .captureSend s =
    .next (if s.tickCount + 2 ≤ s.fget HULL_CAPTURE_AT0_TICK ∧
        (∀ p ∈ f.plans, p.all (fun q => decide (s.fget HULL_CAPTURE_AT1_CYCLE < planPeriod q)) = true) then
      (s.withJob (fun j => { j with captureOut := some (s.fget HULL_CAPTURE_AT0_TICK, s.fget HULL_CAPTURE_AT1_CYCLE) })).holdNotice
        (s.fget HULL_CAPTURE_AT0_TICK) (s.fget HULL_CAPTURE_AT1_CYCLE)
      else s.setSts 0 HULL_FAULT_STS_CAPTURE_REJECT) := by
  have hj : s.job.ctx.isSome = true := by
    cases hc : s.job.ctx with
    | none => rw [State.image, hc] at hf; exact absurd hf (by simp)
    | some c => rfl
  refine congrArg Host.Outcome.next ((live_runs h.1 _).trans ?_)
  rw [State.captureSend, hm, hj, Bool.and_self, if_pos rfl]
  dsimp only
  rw [hf]
  refine if_congr ?_ rfl rfl
  rw [Bool.and_eq_true, decide_eq_true_eq]
  exact and_congr Iff.rfl (belowPlans_iff f _)

omit h in
theorem holdNotice_stands (s : State) (tick cycle : Nat) :
    (s.holdNotice tick cycle).job = { s.job with captureAt := if s.fbit HULL_CAPTURE_CFG_ORCH_EN then some (tick, cycle) else s.job.captureAt } ∧
      OnlyParts [.regs, .job] s (s.holdNotice tick cycle) := by
  unfold State.holdNotice
  split
  · exact ⟨rfl, ((withJob_onlyParts s _).mono (by decide)).then (fset_onlyParts _ _ _) (by decide)⟩
  · exact ⟨rfl, .refl _ s⟩

end

end Sys2Proof.Laws
end

section
/-! PROOFS. The latch of a capture, and what O46 says (R513, R516, R518, R522). -/

namespace Sys2Proof.Laws

open Sys2Proof.Machine Sys2Proof.Safety

/-! ### The copies -/

/-- Every key that a list names holds what is put there, and no other key changes. -/
theorem tabGet_foldl_put {β : Type} [DecidableEq β] (d : Nat → β) (v : Nat → β) (k : Nat) : ∀ (l : List Nat) (t : List (Nat × β)),
    tabWf d t = true → tabGet d (l.foldl (fun t k => tabPut d t k (v k)) t) k = if k ∈ l then v k else tabGet d t k
  | [], t, _ => by rw [List.foldl_nil, if_neg List.not_mem_nil]
  | a :: l, t, h => by
    rw [List.foldl_cons, tabGet_foldl_put d v k l _ (tabWf_tabPut d _ _ _ h)]
    by_cases hl : k ∈ l
    · rw [if_pos hl, if_pos (.tail _ hl)]
    · rw [if_neg hl]
      by_cases ha : k = a
      · subst ha
        rw [if_pos (.head _), tabGet_put d t k _ h]
      · rw [if_neg (by simp [ha, hl]), tabGet_tabPut_ne d a k _ ha]

/-! ### The pages' IDs -/

/-- Two pages' registers are two registers (R521). -/
theorem pageOf_base_inj {f : Fld} (h1 : 0x3C0000 ≤ f.base) (h2 : f.base < 0x400000) {p q : Nat} (hp : p < 108) (hq : q < 108)
    (h : (f.pageOf p).base = (f.pageOf q).base) : p = q := by
  unfold Fld.pageOf at h
  split at h <;> split at h <;> simp only [Fld.die] at h <;> omega

/-- The fields of a page's SNAP_ID. -/
theorem snapId_facts {p : Nat} (hp : p < 108) : FieldsApart [SNAP_ID_ID.pageOf p, SNAP_ID_VALID.pageOf p, SNAP_ID_OFF.pageOf p] ∧
    (SNAP_ID_ID.pageOf p).base = (SNAP_ID.pageOf p).base ∧ (SNAP_ID_VALID.pageOf p).base = (SNAP_ID.pageOf p).base ∧
    (SNAP_ID_OFF.pageOf p).base = (SNAP_ID.pageOf p).base ∧ (SNAP_ID_VALID.pageOf p).wd = 1 ∧ (SNAP_ID_OFF.pageOf p).wd = 1 ∧
    (SNAP_ID.pageOf p).base ∉ [BENCH_CTL_SCAN_GROUP.base, PWR_STATE_STATE.base, HULL_CAPTURE_ID.base, HULL_CAPTURE_CYC.base,
      HULL_FAULT_STS_CAPTURE_TAKEN.base, HULL_CAPTURE_CFG.base] ∧ (SNAP_ID.pageOf p).base ∉ dropKeys 2 := by
  revert p
  unfold FieldsApart
  decide

/-- A page takes the capture's ID. -/
def snapIdSet (s : State) (id p : Nat) : State :=
  s.fsetAll [(SNAP_ID_ID.pageOf p, id), (SNAP_ID_VALID.pageOf p, 1), (SNAP_ID_OFF.pageOf p, (s.windowOff (pageWindow p)).toNat)]

/-- The fields outside the register of a page's ID. -/
abbrev OffPage (p : Nat) (g : Fld) : Prop := g.base ≠ (SNAP_ID.pageOf p).base

theorem beside_snapIdSet (s : State) (id : Nat) {p : Nat} (hp : p < 108) : Beside (OffPage p) [.regs] s (snapIdSet s id p) := by
  obtain ⟨ha, h1, h2, h3, -⟩ := snapId_facts hp
  refine beside_fsetAll s _ ?_
  simp only [List.forall_mem_cons, List.not_mem_nil, false_implies, implies_true, and_true]
  exact ⟨⟨ha.width, fun g hg => apart_of_base (h1 ▸ hg)⟩, ⟨ha.tail.width, fun g hg => apart_of_base (h2 ▸ hg)⟩,
    ⟨ha.tail.tail.width, fun g hg => apart_of_base (h3 ▸ hg)⟩⟩

theorem windowOff_congr {s t : State} (hp : t.power = s.power) (hs : t.fget PWR_STATE_STATE = s.fget PWR_STATE_STATE)
    (hg : t.fget BENCH_CTL_SCAN_GROUP = s.fget BENCH_CTL_SCAN_GROUP) (w : Nat) : t.windowOff w = s.windowOff w := by
  have hr : t.runs = s.runs := by rw [State.runs, State.runs, hp]
  have hn : t.powerNow = s.powerNow := by rw [State.powerNow, State.powerNow, hp, hs]
  rw [State.windowOff, State.windowOff, hr, State.diesOff, State.diesOff, hn, hg]

theorem snapIdSet_windowOff {s : State} (hi : Inv s) (id : Nat) {p : Nat} (hp : p < 108) (w : Nat) :
    (snapIdSet s id p).windowOff w = s.windowOff w := by
  have hb := beside_snapIdSet s id hp
  have hm := (snapId_facts hp).2.2.2.2.2.2.1
  refine windowOff_congr (hb.parts .power (by decide)) (hb.flds hi _ fun e => hm ?_) (hb.flds hi _ fun e => hm ?_) w
  · rw [← e]; decide
  · rw [← e]; decide

theorem snapIdSet_shows {s : State} (hi : Inv s) (id : Nat) {p : Nat} (hp : p < 108) :
    (snapIdSet s id p).fbit (SNAP_ID_VALID.pageOf p) = true ∧
      (snapIdSet s id p).fbit (SNAP_ID_OFF.pageOf p) = s.windowOff (pageWindow p) := by
  obtain ⟨ha, -, -, -, hv, ho, -⟩ := snapId_facts hp
  have h {f : Fld} {x : Nat} := fget_fsetAll_mem (f := f) (x := x) [(SNAP_ID_ID.pageOf p, id), (SNAP_ID_VALID.pageOf p, 1),
    (SNAP_ID_OFF.pageOf p, (s.windowOff (pageWindow p)).toNat)] s hi.1.1 ha
  constructor
  · exact fbit_of_fget ((h (.tail _ (.head _))).trans (by rw [hv]; rfl))
  · refine Eq.trans (congrArg (fun y => y != 0) (h (.tail _ (.tail _ (.head _))))) ?_
    rw [ho]
    cases s.windowOff (pageWindow p) <;> rfl

/-- Every page of a list takes the ID, and shows whether its window is off. -/
theorem snapIds_show (id : Nat) : ∀ (l : List Nat) (_ : ∀ p ∈ l, p < 108) (_ : l.Nodup) {s : State} (_ : Inv s) {q : Nat} (_ : q ∈ l),
    (l.foldl (fun s p => snapIdSet s id p) s).fbit (SNAP_ID_VALID.pageOf q) = true ∧
      (l.foldl (fun s p => snapIdSet s id p) s).fbit (SNAP_ID_OFF.pageOf q) = s.windowOff (pageWindow q)
  | [], _, _, _, _, _, hq => absurd hq List.not_mem_nil
  | p :: l, hl, hn, s, hi, q, hq => by
    have hp := hl p (.head _)
    have hl' : ∀ x ∈ l, x < 108 := fun x hx => hl x (.tail _ hx)
    obtain ⟨hnp, hn'⟩ := List.nodup_cons.1 hn
    have hi' := (beside_snapIdSet s id hp).keeps.inv hi
    rw [List.foldl_cons]
    by_cases hql : q ∈ l
    · rw [← snapIdSet_windowOff hi id hp]
      exact snapIds_show id l hl' hn' hi' hql
    · obtain rfl : q = p := (List.mem_cons.1 hq).resolve_right hql
      obtain ⟨-, -, hv, ho, -⟩ := snapId_facts hp
      obtain ⟨h1, h2⟩ := snapIdSet_shows hi id hp
      have hb : Beside (fun g => g.base = (SNAP_ID.pageOf q).base) [.regs] (snapIdSet s id q)
          (l.foldl (fun s p => snapIdSet s id p) (snapIdSet s id q)) :=
        Beside.foldl (fun v x hx => (beside_snapIdSet v id (hl' x hx)).mono (fun _ m => m) (fun g hg e => hnp (by
          have := pageOf_base_inj (f := SNAP_ID) (by decide) (by decide) hp (hl' x hx) (hg.symm.trans e)
          exact this ▸ hx))) _
      exact ⟨(congrArg (fun y => y != 0) (hb.flds hi' _ hv)).trans h1, (congrArg (fun y => y != 0) (hb.flds hi' _ ho)).trans h2⟩

/-- What the pages' IDs leave: every field off their registers. -/
theorem beside_snapIds (id : Nat) (s : State) :
    Beside (fun g => ∀ p < 108, OffPage p g) [.regs] s ((range' 0 108).foldl (fun s p => snapIdSet s id p) s) :=
  Beside.foldl (fun v p hp => (beside_snapIdSet v id (by have := (mem_range' 108 0 p).1 hp; omega)).mono (fun _ m => m)
    (fun g hg => hg p (by have := (mem_range' 108 0 p).1 hp; omega))) s

/-! ### The latch -/

theorem latch_eq (s : State) (id : Nat) : s.latch id = (range' 0 108).foldl (fun s p => snapIdSet s id p)
    { s with snaps := viewKeys.foldl (fun t k => tabPut resetOf t k (s.regValue k)) s.regs } := rfl

/-- The local count of captures moves on, but for a capture that the orchestrator named. -/
def localCounted (s : State) (src : Nat) : State :=
  if getBits src 4 1 == 1 then s else { s with cap := { s.cap with localCount := s.cap.localCount + 1 } }

/-- The ID of a capture. -/
def captureId (s : State) (src : Nat) : Nat :=
  if getBits src 4 1 == 1 then 2 ^ 31 + s.tickCount % 2 ^ 31 else s.cap.localCount % 2 ^ 31

/-- The hull's own registers of a capture. -/
def captureShown (s : State) (id src : Nat) : State :=
  (s.fsetAll [(HULL_CAPTURE_ID_ID, id), (HULL_CAPTURE_ID_SOURCES, src), (HULL_CAPTURE_ID_HELD, s.fget HULL_CAPTURE_CFG_HOLD),
    (HULL_CAPTURE_CYC_CYCLE, s.relCyc), (HULL_CAPTURE_CYC_TICK, if s.run.active then s.tickCount else 0)]).setSts 0
      HULL_FAULT_STS_CAPTURE_TAKEN

/-- A capture leaves: its trace record, and the pin. -/
def captureTold (s : State) (id src : Nat) : State :=
  let t := s.trace 0x80 s.evCtx (id * 2 ^ 48 + src % 32 * 2 ^ 80 + s.relCyc % 2 ^ 40 * 2 ^ 85)
  (t.withPower (fun p => { p with captureOut := t.now + 64 })).emit (.captureOut t.now)

theorem captureLatch_eq (s : State) (src : Nat) : s.captureLatch src =
    captureTold (captureShown ((localCounted s src).latch (captureId s src)) (captureId s src) src) (captureId s src) src := rfl

theorem latch_onlyParts (s : State) (id : Nat) : OnlyParts [.regs, .snaps] s (s.latch id) := by
  rw [latch_eq]
  have h : OnlyParts [.regs, .snaps] s { s with snaps := viewKeys.foldl (fun t k => tabPut resetOf t k (s.regValue k)) s.regs } :=
    fun p hp => by cases p <;> simp at hp <;> rfl
  exact h.then (beside_snapIds id _).parts (by decide)

/-- The copies are no part of the invariant. -/
theorem inv_snaps {s : State} (hi : Inv s) (x : List (Nat × Word64)) : Inv { s with snaps := x } := ⟨⟨hi.1.1, hi.1.2⟩, hi.2⟩

/-- The latch: what each copy holds, and what each page shows. -/
theorem latch_stands {s : State} (hi : Inv s) (id : Nat) :
    (∀ k, tabGet resetOf (s.latch id).snaps k = if k ∈ viewKeys then s.regValue k else s.regGet k) ∧
    (∀ q, q < 108 → (s.latch id).fbit (SNAP_ID_VALID.pageOf q) = true ∧
      (s.latch id).fbit (SNAP_ID_OFF.pageOf q) = s.windowOff (pageWindow q)) ∧
    (∀ g : Fld, (∀ p < 108, OffPage p g) → (s.latch id).fget g = s.fget g) ∧ Inv (s.latch id) := by
  rw [latch_eq]
  have hsn (k : Nat) := tabGet_foldl_put resetOf s.regValue k viewKeys s.regs hi.1.1
  generalize viewKeys.foldl (fun t k => tabPut resetOf t k (s.regValue k)) s.regs = x at *
  have hi' : Inv { s with snaps := x } := inv_snaps hi x
  have hb := beside_snapIds id { s with snaps := x }
  refine ⟨fun k => ?_, fun q hq => ?_, fun g hg => hb.flds hi' g hg, hb.keeps.inv hi'⟩
  · have hs := hb.parts .snaps (by decide)
    exact (congrArg (fun x => tabGet resetOf x k) hs).trans (hsn k)
  · obtain ⟨h1, h2⟩ := snapIds_show id (range' 0 108) (fun p hp => by have := (mem_range' 108 0 p).1 hp; omega) (range'_nodup ..) hi'
      ((mem_range' 108 0 q).2 ⟨Nat.zero_le q, by omega⟩)
    exact ⟨h1, h2⟩

end Sys2Proof.Laws
end

section
/-! PROOFS. CAPTURE on its cycle, and what O46 says (R513 to R517, R522). -/

namespace Sys2Proof.Laws

open Sys2Proof.Machine Sys2Proof.Safety

/-- No register reads what the capture unit holds. -/
theorem regValue_cap (s : State) (x : Capture) (k : Nat) : ({ s with cap := x } : State).regValue k = s.regValue k := rfl

theorem inv_cap {s : State} (hi : Inv s) (x : Capture) : Inv { s with cap := x } := ⟨⟨hi.1.1, hi.1.2⟩, hi.2⟩

/-! ### The hull's own registers of a capture -/

theorem captureShown_apart (s : State) (id src : Nat) : FieldsApart ([(HULL_CAPTURE_ID_ID, id), (HULL_CAPTURE_ID_SOURCES, src),
    (HULL_CAPTURE_ID_HELD, s.fget HULL_CAPTURE_CFG_HOLD), (HULL_CAPTURE_CYC_CYCLE, s.relCyc),
    (HULL_CAPTURE_CYC_TICK, if s.run.active then s.tickCount else 0)].map Prod.fst) := by
  change FieldsApart [HULL_CAPTURE_ID_ID, HULL_CAPTURE_ID_SOURCES, HULL_CAPTURE_ID_HELD, HULL_CAPTURE_CYC_CYCLE, HULL_CAPTURE_CYC_TICK]
  unfold FieldsApart
  decide

theorem captureShown_stands {s : State} (hi : Inv s) (id src : Nat) :
    (captureShown s id src).fget HULL_CAPTURE_ID_ID = id % 2 ^ 32 ∧ Shows HULL_CAPTURE_ID_SOURCES src (captureShown s id src) ∧
    (captureShown s id src).fget HULL_CAPTURE_ID_HELD = s.fget HULL_CAPTURE_CFG_HOLD % 2 ∧
    (captureShown s id src).fbit HULL_FAULT_STS_CAPTURE_TAKEN = true := by
  have ha := captureShown_apart s id src
  have h {f : Fld} {x : Nat} := fget_fsetAll_mem (f := f) (x := x) _ s hi.1.1 ha
  unfold captureShown
  have hw := wf_fsetAll [(HULL_CAPTURE_ID_ID, id), (HULL_CAPTURE_ID_SOURCES, src), (HULL_CAPTURE_ID_HELD, s.fget HULL_CAPTURE_CFG_HOLD),
    (HULL_CAPTURE_CYC_CYCLE, s.relCyc), (HULL_CAPTURE_CYC_TICK, if s.run.active then s.tickCount else 0)] s hi.1.1
  have h1 := h (.head _)
  have h2 := h (.tail _ (.head _))
  have h3 := h (.tail _ (.tail _ (.head _)))
  generalize s.fsetAll _ = u at *
  have hs (g : Fld) (hg : apart HULL_FAULT_STS_CAPTURE_TAKEN g = true) := fget_setSts_apart u 0 HULL_FAULT_STS_CAPTURE_TAKEN g hw (by decide) hg
  exact ⟨(hs _ (by decide)).trans h1, (hs _ (by decide)).trans h2, (hs _ (by decide)).trans h3, fbit_setSts u 0 _ hw (by decide) rfl⟩

theorem captureShown_onlyParts (s : State) (id src : Nat) : OnlyParts [.regs, .outbox] s (captureShown s id src) :=
  ((fsetAll_onlyParts s _).mono (by decide)).trans (setSts_onlyParts _ 0 _)

theorem only_captureShown (s : State) (id src : Nat) :
    OnlyRegs [HULL_CAPTURE_ID.base, HULL_CAPTURE_CYC.base, HULL_FAULT_STS_CAPTURE_TAKEN.base] s (captureShown s id src) := by
  refine (only_fsetAll _ s ?_).trans (only_setSts _ 0 _ (by decide))
  simp only [List.forall_mem_cons, List.not_mem_nil, false_implies, implies_true, and_true]
  decide

theorem captureTold_onlyParts (s : State) (id src : Nat) : OnlyParts [.regs, .fifos, .power, .outbox] s (captureTold s id src) :=
  (((trace_onlyParts s _ _ _).mono (qs := [.regs, .fifos, .power, .outbox]) (by decide)).then (withPower_onlyParts _ _) (by decide)).then
    (emit_onlyParts _ _) (by decide)

theorem only_captureTold (s : State) (id src : Nat) : OnlyRegs (dropKeys 2) s (captureTold s id src) := by
  have h (ws : List (BitVec 512)) : OnlyRegs (dropKeys 2) s (s.post 2 ws) := only_post s 2 ws (fun _ m => m)
  unfold captureTold State.trace
  generalize evPacket _ _ _ _ _ = ws
  have hs := h ws
  generalize s.post 2 ws = t at *
  exact OnlyRegs.same hs rfl

theorem captureTold_out (s : State) (id src : Nat) : .captureOut s.now ∈ (captureTold s id src).outbox := by
  have h : (s.trace 0x80 s.evCtx (id * 2 ^ 48 + src % 32 * 2 ^ 80 + s.relCyc % 2 ^ 40 * 2 ^ 85)).now = s.now :=
    (trace_onlyParts s _ _ _) .now (by decide)
  unfold captureTold
  dsimp only
  rw [h]
  exact List.mem_append_right _ (.head _)

/-! ### CAPTURE -/

/-- The captures that wait, without the one whose cycle has come. -/
def pendTaken (s : State) (p : Nat × Nat) : State := { s with cap := { s.cap with pend := s.cap.pend.erase p } }

section
variable {s : State} {p : Nat × Nat} (h : Awake s) (hp : capFirst s.cap.pend = some p) (hs : Settled s p.1)
include h hp hs

theorem exec_capture : exec .capture s = .next (if copiesHeld s then triggerMissed (pendTaken (s.advance p.1) p)
    else (pendTaken (s.advance p.1) p).captureLatch p.2) := by
  refine congrArg Host.Outcome.next ((live_runs h.1 _).trans ?_)
  unfold State.captureNext
  rw [hp]
  dsimp only
  rw [upTo_settled _ _ hs]
  rfl

theorem capture_missed (hh : copiesHeld s = true) : ∃ t, exec .capture s = .next t ∧
    Counts HULL_CAPTURE_ID_MISSED 1 s t ∧ t.cap.pend = s.cap.pend.erase p ∧ t.snaps = s.snaps := by
  have he := exec_capture h hp hs
  rw [if_pos hh] at he
  have hi : Inv (pendTaken (s.advance p.1) p) := inv_cap ((advance_keeps p.1 (.refl s)).inv h.2) _
  obtain ⟨hc, -, -⟩ := triggerMissed_stands hi
  have ho := triggerMissed_onlyParts (pendTaken (s.advance p.1) p)
  refine ⟨_, he, ?_, congrArg Capture.pend (ho .cap (by decide)), ho .snaps (by decide)⟩
  unfold Counts at hc ⊢
  rwa [show (pendTaken (s.advance p.1) p).fget HULL_CAPTURE_ID_MISSED = s.fget HULL_CAPTURE_ID_MISSED from fget_advance s p.1 _] at hc

/-- The state that is latched. -/
theorem latched_stands (hh : copiesHeld s = false) : ∃ t, exec .capture s = .next t ∧ t.now = (s.advance p.1).now ∧
    t.cap.pend = s.cap.pend.erase p ∧
    (∀ k, tabGet resetOf t.snaps k = if k ∈ viewKeys then (s.advance p.1).regValue k else s.regGet k) ∧
    (∀ q, q < 108 → t.fbit (SNAP_ID_VALID.pageOf q) = true ∧ t.fbit (SNAP_ID_OFF.pageOf q) = s.windowOff (pageWindow q)) ∧
    Shows HULL_CAPTURE_ID_SOURCES p.2 t ∧ t.fbit HULL_FAULT_STS_CAPTURE_TAKEN = true ∧
    t.fget HULL_CAPTURE_ID_HELD = s.fget HULL_CAPTURE_CFG_HOLD % 2 ∧
    (getBits p.2 4 1 = 0 → t.cap.localCount = s.cap.localCount + 1 ∧ t.fget HULL_CAPTURE_ID_ID = s.cap.localCount % 2 ^ 31) ∧
    (getBits p.2 4 1 = 1 → t.cap.localCount = s.cap.localCount ∧ t.fget HULL_CAPTURE_ID_ID = 2 ^ 31 + s.tickCount % 2 ^ 31) ∧
    .captureOut (s.advance p.1).now ∈ t.outbox ∧ OnlyParts [.now, .regs, .snaps, .cap, .fifos, .power, .outbox] s t := by
  have he := exec_capture h hp hs
  rw [if_neg (by rw [hh]; decide), captureLatch_eq] at he
  -- the state before the latch differs from the clock's in the capture unit alone
  have hcap : ∃ x : Capture, localCounted (pendTaken (s.advance p.1) p) p.2 = { s.advance p.1 with cap := x } ∧
      x.pend = s.cap.pend.erase p ∧ (getBits p.2 4 1 = 0 → x.localCount = s.cap.localCount + 1) ∧
      (getBits p.2 4 1 = 1 → x.localCount = s.cap.localCount) := by
    unfold localCounted
    by_cases ho : getBits p.2 4 1 = 1
    · rw [if_pos (beq_iff_eq.2 ho)]
      exact ⟨_, rfl, rfl, fun h0 => absurd (ho.symm.trans h0) (by decide), fun _ => rfl⟩
    · rw [if_neg (fun e => ho (beq_iff_eq.1 e))]
      exact ⟨_, rfl, rfl, fun _ => rfl, fun h1 => absurd h1 ho⟩
  obtain ⟨x, hx, hpend, hloc, horch⟩ := hcap
  have hid : captureId (pendTaken (s.advance p.1) p) p.2 = if getBits p.2 4 1 == 1 then 2 ^ 31 + s.tickCount % 2 ^ 31
      else s.cap.localCount % 2 ^ 31 := rfl
  rw [hx, hid] at he
  generalize hidv : (if getBits p.2 4 1 == 1 then 2 ^ 31 + s.tickCount % 2 ^ 31 else s.cap.localCount % 2 ^ 31) = id at *
  have hidlt : id < 2 ^ 32 := by
    rw [← hidv]
    split <;> omega
  have hi : Inv ({ s.advance p.1 with cap := x } : State) := inv_cap ((advance_keeps p.1 (.refl s)).inv h.2) x
  obtain ⟨hsnaps, hpages, hflds, hil⟩ := latch_stands hi id
  have hlp := latch_onlyParts { s.advance p.1 with cap := x } id
  have hoff (f : Fld) (hf : ∀ q < 108, OffPage q f) : (State.latch { s.advance p.1 with cap := x } id).fget f = s.fget f :=
    (hflds f hf).trans (fget_advance s p.1 f)
  have hall : OnlyParts [.now, .regs, .snaps, .cap] s (State.latch { s.advance p.1 with cap := x } id) := by
    have h0 : OnlyParts [.now, .regs, .snaps, .cap] s { s.advance p.1 with cap := x } := fun q hq => by
      cases q <;> simp at hq <;> rfl
    exact h0.then hlp (by decide)
  have hnow : (State.latch { s.advance p.1 with cap := x } id).now = (s.advance p.1).now := hlp .now (by decide)
  have hcapl : (State.latch { s.advance p.1 with cap := x } id).cap = x := hlp .cap (by decide)
  have hwin (w : Nat) : ({ s.advance p.1 with cap := x } : State).windowOff w = s.windowOff w := rfl
  have hreg (k : Nat) : ({ s.advance p.1 with cap := x } : State).regGet k = s.regGet k := rfl
  simp only [regValue_cap, hreg] at hsnaps
  simp only [hwin] at hpages
  have hhold := hoff HULL_CAPTURE_CFG_HOLD (fun q hq e => (snapId_facts hq).2.2.2.2.2.2.1 (by rw [← e]; decide))
  generalize State.latch { s.advance p.1 with cap := x } id = u at *
  obtain ⟨hsid, hsrc, hheld, htaken⟩ := captureShown_stands hil id p.2
  have hsp := captureShown_onlyParts u id p.2
  have hsr := only_captureShown u id p.2
  generalize captureShown u id p.2 = v at *
  have htp := captureTold_onlyParts v id p.2
  have htr := only_captureTold v id p.2
  have hout := captureTold_out v id p.2
  have hnowv : v.now = (s.advance p.1).now := Eq.trans (hsp .now (by decide)) hnow
  rw [hnowv] at hout
  have hcapt : (captureTold v id p.2).cap = x := Eq.trans (htp .cap (by decide)) (Eq.trans (hsp .cap (by decide)) hcapl)
  have hidt : (captureTold v id p.2).fget HULL_CAPTURE_ID_ID = id :=
    (htr.fget _ (by decide)).trans (hsid.trans (Nat.mod_eq_of_lt hidlt))
  refine ⟨_, he, Eq.trans (htp .now (by decide)) hnowv, (congrArg Capture.pend hcapt).trans hpend, fun k => ?_, fun q hq => ?_,
    (htr.fget _ (by decide)).trans hsrc, (htr.fbit _ (by decide)).trans htaken, ((htr.fget _ (by decide)).trans hheld).trans (by rw [hhold]),
    fun h0 => ⟨(congrArg Capture.localCount hcapt).trans (hloc h0), hidt.trans ?_⟩,
    fun h1 => ⟨(congrArg Capture.localCount hcapt).trans (horch h1), hidt.trans ?_⟩, hout,
    ((hall.mono (qs := [.now, .regs, .snaps, .cap, .fifos, .power, .outbox]) (by decide)).then hsp (by decide)).then htp (by decide)⟩
  · exact (congrArg (fun t => tabGet resetOf t k) (Eq.trans (htp .snaps (by decide)) (hsp .snaps (by decide)))).trans (hsnaps k)
  · obtain ⟨-, -, hv, ho, -, -, hm, hd⟩ := snapId_facts hq
    have hm' : (SNAP_ID.pageOf q).base ∉ [HULL_CAPTURE_ID.base, HULL_CAPTURE_CYC.base, HULL_FAULT_STS_CAPTURE_TAKEN.base] := fun e => hm (by
      simp only [List.mem_cons, List.not_mem_nil, or_false] at e ⊢
      rcases e with e | e | e <;> simp [e])
    have hk (f : Fld) (hf : f.base = (SNAP_ID.pageOf q).base) : (captureTold v id p.2).fbit f = u.fbit f :=
      (htr.fbit f (hf ▸ hd)).trans (hsr.fbit f (hf ▸ hm'))
    exact ⟨(hk _ hv).trans (hpages q hq).1, (hk _ ho).trans (hpages q hq).2⟩
  · rw [← hidv, if_neg (by rw [h0]; decide)]
  · rw [← hidv, if_pos (by rw [h1]; rfl)]

end

/-- Settles O46: triggers, the latch, arming and a master's notice, each by its own lemma. -/
theorem capturesLatchEveryRegister : Obligations.CapturesLatchEveryRegister := by
  unfold Obligations.CapturesLatchEveryRegister
  intro s at_ h hs
  dsimp only
  have ha := advance_onlyParts s at_
  refine ⟨?_, fun p hp hh hs' => latched_stands h hp hs' hh, fun p hp hh hs' => capture_missed h hp hs' hh, ?_, captureSend_off h,
    fun f hf hm => ⟨fun hok => ?_, fun hno => ?_⟩⟩
  · simp only [List.forall_mem_cons, List.not_mem_nil, false_implies, implies_true, and_true]
    refine ⟨⟨?_, ?_, ?_, fun hc => absurd hc (by decide)⟩, ?_, ?_, ?_, fun hc => ?_⟩
    · exact fun _ => (trigger_stands h _ 1 (exec_captureNow h hs)).1
    · exact fun _ => (trigger_stands h _ 1 (exec_captureNow h hs)).2.1
    · exact fun _ => (trigger_stands h _ 1 (exec_captureNow h hs)).2.2
    · exact fun hpin => (trigger_stands h _ 8 ((exec_captureIn h hs).trans (by rw [if_pos hpin]))).1
    · exact fun hpin => (trigger_stands h _ 8 ((exec_captureIn h hs).trans (by rw [if_pos hpin]))).2.1
    · exact fun hpin => (trigger_stands h _ 8 ((exec_captureIn h hs).trans (by rw [if_pos hpin]))).2.2
    · exact ⟨_, (exec_captureIn h hs).trans (by rw [if_neg (by rw [hc]; decide)]), ha⟩
  · simp only [List.forall_mem_cons, List.not_mem_nil, false_implies, implies_true, and_true]
    exact ⟨⟨_, congrArg Host.Outcome.next (live_runs h.1 _), bit_stored h.2 HULL_CAPTURE_ID_ARMED_EDGE true (by decide) rfl⟩,
      ⟨_, congrArg Host.Outcome.next (live_runs h.1 _), bit_stored h.2 HULL_CAPTURE_ID_ARMED_EDGE false (by decide) rfl⟩,
      ⟨_, congrArg Host.Outcome.next (live_runs h.1 _), bit_stored h.2 HULL_CAPTURE_ID_HELD false (by decide) rfl⟩⟩
  · have he := exec_captureSend h hf hm
    rw [if_pos hok] at he
    obtain ⟨hj, hparts⟩ := holdNotice_stands (s.withJob (fun j => { j with captureOut := some (s.fget HULL_CAPTURE_AT0_TICK,
      s.fget HULL_CAPTURE_AT1_CYCLE) })) (s.fget HULL_CAPTURE_AT0_TICK) (s.fget HULL_CAPTURE_AT1_CYCLE)
    refine ⟨_, he, ?_, ?_, ((withJob_onlyParts s _).mono (by decide)).trans hparts⟩
    · rw [hj]
      rfl
    · rw [hj]
      rfl
  · have he := exec_captureSend h hf hm
    rw [if_neg hno] at he
    exact ⟨_, he, fbit_setSts s 0 _ h.2.1.1 (by decide) rfl, setSts_onlyParts s 0 _, only_setSts s 0 _ (.head _)⟩

end Sys2Proof.Laws
end

section
/-! PROOFS. Events posted, contexts changed, and images that load and unload (R422, R426, R454, R460, R484, R486). -/

namespace Sys2Proof.Laws

open Sys2Proof.Machine Sys2Proof.Safety

/-! ### Posting an event (R454, R460, R505) -/

/-- Posting an event is `Posts`. -/
theorem posts_event {s : State} (hi : Inv s) (typ ctx : Nat) (l : List Nat) : Posts typ ctx l s (s.event typ ctx l) := by
  have hlen : 1 < s.fifos.length := by rw [hi.2.2.1]; decide
  unfold Posts
  dsimp only
  by_cases hr : s.reloading = true
  · rw [if_pos hr, State.event, if_pos hr]
    have hq : (s.setFifo 1 (fun q => { q with late := q.late ++ [(typ, ctx, l)] })).fifo 1 =
        { s.fifo 1 with late := (s.fifo 1).late ++ [(typ, ctx, l)] } := getD_modAt_same _ _ _ _ hlen
    rw [hq]
    exact ⟨rfl, rfl⟩
  · rw [if_neg hr, State.event, if_neg hr, State.post]
    by_cases hroom : (s.fifo 1).items.length + (evPacket typ ctx s.tickCount 0 l).length + 1 ≤ 4096
    · rw [if_pos hroom]
      dsimp only
      rw [if_pos (show (s.fifo 1).items.length + (evPacket typ ctx s.tickCount 0 l).length + 1 ≤ fifoEntries 1 from hroom)]
      have hq (g : Fifo → Fifo) : (s.setFifo 1 g).fifo 1 = g (s.fifo 1) := getD_modAt_same _ _ _ _ hlen
      rw [hq]
      by_cases hd : (s.fifo 1).dropped = 0
      · simp [Fifo.push, hd]
      · simp [Fifo.push, hd]
    · rw [if_neg hroom]
      dsimp only
      rw [if_neg (show ¬ (s.fifo 1).items.length + (evPacket typ ctx s.tickCount 0 l).length + 1 ≤ fifoEntries 1 from hroom)]
      have hf (u v : State) : (State.irqEdge u v 7).fifos = v.fifos := by simp
      have hq : (State.irqEdge s (((s.setFifo 1 (fun q => { q with dropped := q.dropped + 1 })).fadd (EVQ_LEVEL_DROPPED.ix 1) 1).fset
          EVQ_STS_DROP (Nat.lor (s.fget EVQ_STS_DROP) (2 ^ 1))) 7).fifo 1 = { s.fifo 1 with dropped := (s.fifo 1).dropped + 1 } := by
        rw [State.fifo, hf]
        exact getD_modAt_same _ _ _ _ hlen
      rw [hq]
      exact ⟨rfl, rfl⟩

/-- A state with the same queues, reload and tick. -/
structure SameEgress (s t : State) : Prop where
  fifos : t.fifos = s.fifos
  reload : t.power.reload = s.power.reload
  tick : t.tickCount = s.tickCount

theorem SameEgress.trans {s t u : State} (h : SameEgress s t) (g : SameEgress t u) : SameEgress s u :=
  ⟨g.fifos.trans h.fifos, g.reload.trans h.reload, g.tick.trans h.tick⟩

/-- An operation on neither the queues nor the power, that leaves the tick's register. -/
theorem SameEgress.of_parts {ps : List Part} {s t : State} (h : OnlyParts ps s t) (hp : .fifos ∉ ps ∧ .power ∉ ps)
    (hr : t.fget TICK_COUNT_COUNT = s.fget TICK_COUNT_COUNT) : SameEgress s t :=
  ⟨h .fifos hp.1, congrArg PowerSt.reload (h .power hp.2), hr⟩

theorem SameEgress.posts {s t u : State} (h : SameEgress s t) {typ ctx : Nat} {l : List Nat} (hp : Posts typ ctx l t u) :
    Posts typ ctx l s u := by
  have hf : t.fifo 1 = s.fifo 1 := by rw [State.fifo, State.fifo, h.fifos]
  unfold Posts State.reloading at hp ⊢
  rw [hf, h.reload, h.tick] at hp
  exact hp

theorem completes_commandDone {s : State} (hi : Inv s) (ctx tag op status detail : Nat) :
    Completes ctx tag op status detail s (s.commandDone ctx tag op status detail) := posts_event hi _ _ _

theorem only_commandDone {ks : List Nat} (s : State) (ctx tag op status detail : Nat) (h : noteRegs ⊆ ks) :
    OnlyRegs ks s (s.commandDone ctx tag op status detail) := only_event s _ _ _ h

theorem commandDone_keeps' (s : State) (ctx tag op status detail : Nat) : Keeps s (s.commandDone ctx tag op status detail) :=
  event_keeps s _ _ _ (.refl s)

/-- What a refused command leaves: its completion, and nothing else. -/
theorem refused_stands {s : State} (hi : Inv s) (at_ ctx tag op status : Nat) :
    ((s.advance at_).commandDone ctx tag op status 0).now = max s.now at_ ∧
      Completes ctx tag op status 0 s ((s.advance at_).commandDone ctx tag op status 0) ∧
      OnlyParts [.now, .regs, .fifos, .outbox] s ((s.advance at_).commandDone ctx tag op status 0) ∧
      OnlyRegs noteRegs s ((s.advance at_).commandDone ctx tag op status 0) := by
  have ha := advance_onlyParts s at_
  have hc := commandDone_onlyParts (s.advance at_) ctx tag op status 0
  have hs : SameEgress s (s.advance at_) := ⟨rfl, rfl, rfl⟩
  exact ⟨hc .now (by decide), hs.posts (completes_commandDone ((advance_keeps at_ (.refl s)).inv hi) ctx tag op status 0),
    (ha.mono (by decide)).then hc (by decide), (ha.onlyRegs (by decide) _).trans (only_commandDone _ _ _ _ _ _ (fun _ m => m))⟩

/-! ### A context changed -/

theorem ctx_setCtx_same {s : State} (hi : Inv s) {c : Nat} (hc : c < 4) (f : Ctx → Ctx) : (s.setCtx c f).ctx c = f (s.ctx c) :=
  getD_modAt_same f {} c s.ctxs (by rw [hi.2.1]; exact hc)

theorem ctx_setCtx_ne (s : State) {c d : Nat} (h : d ≠ c) (f : Ctx → Ctx) : (s.setCtx c f).ctx d = s.ctx d := getD_modAt_ne f {} c d s.ctxs h

theorem ctx_congr {s t : State} (h : t.ctxs = s.ctxs) (c : Nat) : t.ctx c = s.ctx c := by rw [State.ctx, State.ctx, h]

theorem setCtx_keeps' (s : State) (c : Nat) (f : Ctx → Ctx) : Keeps s (s.setCtx c f) := setCtx_keeps s c f (.refl s)

/-! ### LOAD_IMAGE -/

section
variable {s : State} {at_ c tag : Nat} (h : Awake s) (hc : c < 4) (hs : Settled s at_)
include h hc hs

theorem exec_loadImage (src len : Nat) : exec (.loadImage at_ c tag src len) s = .next ((s.advance at_).loadImage c tag src len) :=
  congrArg Host.Outcome.next ((live_runs h.1 _).trans (by rw [upTo_settled _ _ hs, Nat.mod_eq_of_lt hc]))

theorem exec_loadImageDone (f : ImageFile) : exec (.loadImageDone at_ c f) s = .next ((s.advance at_).loadImageDone c f) :=
  congrArg Host.Outcome.next ((live_runs h.1 _).trans (by rw [upTo_settled _ _ hs, Nat.mod_eq_of_lt hc]))

theorem exec_unloadImage : exec (.unloadImage at_ c tag) s = .next ((s.advance at_).unloadImage c tag) :=
  congrArg Host.Outcome.next ((live_runs h.1 _).trans (by rw [upTo_settled _ _ hs, Nat.mod_eq_of_lt hc]))

theorem loadImage_accepted (src len : Nat) (ha : s.cmdAllowed c [.empty] = true) : ∃ t, exec (.loadImage at_ c tag src len) s = .next t ∧
    t.now = max s.now at_ ∧ t.ctx c = { s.ctx c with loading := true } ∧ (∀ d, d ≠ c → t.ctx d = s.ctx d) ∧
    t.host.cmds = s.host.cmds ++ [⟨1, c, tag, len⟩] ∧
    t.host.descs = s.host.descs ++ [{ eng := c, q := 2, ctx := c, kind := .loadImage, src := src, dst := 0xBC0000000, length := len, tag := tag }] ∧
    OnlyParts [.now, .ctxs, .host] s t := by
  have he := exec_loadImage (tag := tag) h hc hs src len
  rw [State.loadImage, if_pos (show (s.advance at_).cmdAllowed c [.empty] = true from ha)] at he
  refine ⟨_, he, rfl, ctx_setCtx_same (s := s.advance at_) h.2 hc _, fun d hd => ctx_setCtx_ne (s.advance at_) hd _, rfl, rfl, ?_⟩
  exact ((((advance_onlyParts s at_).mono (qs := [.now, .ctxs, .host]) (by decide)).then (setCtx_onlyParts _ c _) (by decide)).then
    (withHost_onlyParts _ _) (by decide)).then (withHost_onlyParts _ _) (by decide)

theorem loadImage_refused (src len : Nat) (ha : s.cmdAllowed c [.empty] = false) : ∃ t, exec (.loadImage at_ c tag src len) s = .next t ∧
    t.now = max s.now at_ ∧ Completes c tag 1 3 0 s t ∧ OnlyParts [.now, .regs, .fifos, .outbox] s t ∧ OnlyRegs noteRegs s t := by
  have he := exec_loadImage (tag := tag) h hc hs src len
  rw [State.loadImage, if_neg (by rw [show (s.advance at_).cmdAllowed c [.empty] = false from ha]; decide)] at he
  exact ⟨_, he, refused_stands h.2 at_ c tag 1 3⟩

theorem unloadImage_refused (ha : s.cmdAllowed c [.loaded] = false) : ∃ t, exec (.unloadImage at_ c tag) s = .next t ∧
    t.now = max s.now at_ ∧ Completes c tag 2 3 0 s t ∧ OnlyParts [.now, .regs, .fifos, .outbox] s t ∧ OnlyRegs noteRegs s t := by
  have he := exec_unloadImage (tag := tag) h hc hs
  rw [State.unloadImage, if_neg (by rw [show (s.advance at_).cmdAllowed c [.loaded] = false from ha]; decide)] at he
  exact ⟨_, he, refused_stands h.2 at_ c tag 2 3⟩

end

/-! ### LOAD_IMAGE_DONE -/

/-- The command and its file's transfer are no longer to come. -/
def loadTaken (s : State) (c : Nat) (p : PendCmd) : State :=
  (s.withHost (fun h => { h with cmds := h.cmds.filter (fun x => x != p) })).dropDescs (fun d => d.ctx == c && d.kind == .loadImage)

theorem loadTaken_onlyParts (s : State) (c : Nat) (p : PendCmd) : OnlyParts [.host] s (loadTaken s c p) :=
  (withHost_onlyParts s _).trans (withHost_onlyParts _ _)

theorem loadTaken_cmds (s : State) (c : Nat) (p : PendCmd) : p ∉ (loadTaken s c p).host.cmds := fun hm => by
  have := (List.mem_filter.1 (show p ∈ s.host.cmds.filter (fun x => x != p) from hm)).2
  simp at this

/-- The fields of a load, apart from the tick's register and the notes. -/
theorem loadRegs_facts {c : Nat} (hc : c < 4) : (HULL_CTX_TRAIL.ix c).lo + (HULL_CTX_TRAIL.ix c).wd ≤ 64 ∧
    (HULL_CTX_TRAIL.ix c).base ∉ noteRegs ∧ apart (HULL_CTX_TRAIL.ix c) TICK_COUNT_COUNT = true ∧
    TICK_COUNT_COUNT.base ∉ [HULL_LOAD_STS_REFUSED.base, HULL_LOAD_FIRST_VALID.base, HULL_LOAD_WHERE_VALID.base] := by
  revert c
  decide

section
variable {s : State} (hi : Inv s) {c : Nat} (hc : c < 4) (tag : Nat) (f : ImageFile)

/-- The context with its image, before the command completes. -/
def imageKept (s : State) (c : Nat) (f : ImageFile) : State :=
  let s := s.setCtx c (fun _ => { state := .loaded, image := some f })
  let s := { s with router := { s.router with rwlOpen := false } }
  (s.fset (HULL_CTX_TRAIL.ix c) (f.stateMap.any (fun t => t.gather == 2)).toNat).setSts 0 HULL_LOAD_STS_LOADED

theorem imageKept_onlyParts : OnlyParts [.regs, .ctxs, .router, .outbox] s (imageKept s c f) := by
  unfold imageKept
  have h1 := (setCtx_onlyParts s c (fun _ => { state := .loaded, image := some f })).mono (qs := [.regs, .ctxs, .router, .outbox]) (by decide)
  generalize s.setCtx c (fun _ => { state := .loaded, image := some f }) = u at *
  dsimp only
  have h2 : OnlyParts [.regs, .ctxs, .router, .outbox] u { u with router := { u.router with rwlOpen := false } } := fun q hq => by
    cases q <;> simp at hq <;> rfl
  exact ((h1.trans h2).then (fset_onlyParts _ _ _) (by decide)).then (setSts_onlyParts _ 0 _) (by decide)

include hi hc

theorem imageKept_stands : (imageKept s c f).ctx c = { state := .loaded, image := some f } ∧ (∀ d, d ≠ c → (imageKept s c f).ctx d = s.ctx d) ∧
    (imageKept s c f).fbit HULL_LOAD_STS_LOADED = true ∧ (imageKept s c f).router.rwlOpen = false ∧ SameEgress s (imageKept s c f) ∧
    Inv (imageKept s c f) := by
  have hsame := ctx_setCtx_same hi hc (fun _ => { state := .loaded, image := some f })
  have hne := fun (d : Nat) (hd : d ≠ c) => ctx_setCtx_ne s hd (fun _ => { state := .loaded, image := some f })
  have hparts := imageKept_onlyParts (s := s) (c := c) f
  have hiu := (setCtx_keeps' s c (fun _ => { state := .loaded, image := some f })).inv hi
  have hreg : (s.setCtx c (fun _ => { state := .loaded, image := some f })).regs = s.regs := rfl
  unfold imageKept at *
  generalize s.setCtx c (fun _ => { state := .loaded, image := some f }) = u at *
  dsimp only at *
  have hiv : Inv { u with router := { u.router with rwlOpen := false } } := ⟨⟨hiu.1.1, hiu.1.2⟩, hiu.2⟩
  have hregv : ({ u with router := { u.router with rwlOpen := false } } : State).regs = s.regs := hreg
  have hcv : ({ u with router := { u.router with rwlOpen := false } } : State).ctxs = u.ctxs := rfl
  have hrv : ({ u with router := { u.router with rwlOpen := false } } : State).router.rwlOpen = false := rfl
  generalize ({ u with router := { u.router with rwlOpen := false } } : State) = v at *
  obtain ⟨hw, -, htick, -⟩ := loadRegs_facts hc
  have hiw := (fset_keeps (HULL_CTX_TRAIL.ix c) (f.stateMap.any (fun t => t.gather == 2)).toNat (.refl v)).inv hiv
  have htk := fget_fset_apart v (HULL_CTX_TRAIL.ix c) TICK_COUNT_COUNT (f.stateMap.any (fun t => t.gather == 2)).toNat hiv.1.1 hw htick
  have hwp := fset_onlyParts v (HULL_CTX_TRAIL.ix c) (f.stateMap.any (fun t => t.gather == 2)).toNat
  generalize v.fset (HULL_CTX_TRAIL.ix c) _ = w at *
  have hsp := setSts_onlyParts w 0 HULL_LOAD_STS_LOADED
  have hcx : (w.setSts 0 HULL_LOAD_STS_LOADED).ctxs = u.ctxs := Eq.trans (hsp .ctxs (by decide)) (Eq.trans (hwp .ctxs (by decide)) hcv)
  refine ⟨(ctx_congr hcx c).trans hsame, fun d hd => (ctx_congr hcx d).trans (hne d hd), fbit_setSts w 0 _ hiw.1.1 (by decide) rfl, ?_, ?_,
    (setSts_keeps w 0 _ (.refl w)).inv hiw⟩
  · exact (congrArg Router.rwlOpen (Eq.trans (hsp .router (by decide)) (hwp .router (by decide)))).trans hrv
  · exact .of_parts hparts (by decide) ((fget_setSts_apart w 0 HULL_LOAD_STS_LOADED _ hiw.1.1 (by decide) (by decide)).trans
      (htk.trans (fget_congr hregv _)))

theorem loadAccept_stands : (s.loadAccept c tag f).ctx c = { state := .loaded, image := some f } ∧
    (∀ d, d ≠ c → (s.loadAccept c tag f).ctx d = s.ctx d) ∧ (s.loadAccept c tag f).fbit HULL_LOAD_STS_LOADED = true ∧
    (s.loadAccept c tag f).router.rwlOpen = false ∧ Completes c tag 1 0 0 s (s.loadAccept c tag f) ∧
    OnlyParts [.regs, .ctxs, .fifos, .router, .outbox] s (s.loadAccept c tag f) := by
  have he : s.loadAccept c tag f = (imageKept s c f).commandDone c tag 1 0 0 := rfl
  obtain ⟨h1, h2, h3, h4, h5, h6⟩ := imageKept_stands hi hc f
  have hp := imageKept_onlyParts (s := s) (c := c) f
  rw [he]
  generalize imageKept s c f = u at *
  have hd := commandDone_onlyParts u c tag 1 0 0
  have hcx := hd .ctxs (by decide)
  exact ⟨(ctx_congr hcx c).trans h1, fun d hdc => (ctx_congr hcx d).trans (h2 d hdc),
    ((only_commandDone u c tag 1 0 0 (fun _ m => m)).fbit _ (by decide)).trans h3, (congrArg Router.rwlOpen (hd .router (by decide))).trans h4,
    h5.posts (completes_commandDone h6 c tag 1 0 0), (hp.mono (by decide)).then hd (by decide)⟩

/-- The context as it was, with the first failure recorded, before the command completes. -/
def imageRefused (s : State) (c : Nat) (f : ImageFile) (e : LoadFail) : State :=
  ((s.setCtx c (fun x => { x with loading := false })).loadRecord c f e).setSts 0 HULL_LOAD_STS_REFUSED

omit hi hc in
theorem loadRecord_onlyParts (s : State) (c : Nat) (f : ImageFile) (e : LoadFail) : OnlyParts [.regs, .fresh] s (s.loadRecord c f e) := by
  unfold State.loadRecord
  refine .ite (.refl _ s) ?_
  dsimp only
  refine OnlyParts.then ?_ (fsetAll_onlyParts _ _) (by decide)
  exact .ite ((drawn_onlyParts s).mono (by decide)) (.refl _ s)

omit hi hc in
theorem only_loadRecord (s : State) (c : Nat) (f : ImageFile) (e : LoadFail) :
    OnlyRegs [HULL_LOAD_FIRST_VALID.base, HULL_LOAD_WHERE_VALID.base] s (s.loadRecord c f e) := by
  unfold State.loadRecord
  refine OnlyRegs.ite (.refl _ s) ?_
  dsimp only
  refine OnlyRegs.trans (t := if e.offset.isNone then s.drawn else s) ?_ (only_fsetAll _ _ ?_)
  · split
    · exact OnlyRegs.same (OnlyRegs.refl _ s) rfl
    · exact .refl _ s
  · simp only [List.forall_mem_cons, List.not_mem_nil, false_implies, implies_true, and_true]
    decide

omit hi hc in
theorem loadRecord_keeps' (s : State) (c : Nat) (f : ImageFile) (e : LoadFail) : Keeps s (s.loadRecord c f e) := by
  unfold State.loadRecord
  split
  · exact .refl s
  · dsimp only
    refine fsetAll_keeps _ ?_
    split
    · exact ⟨rfl, Nat.le_refl _, fun i => i⟩
    · exact .refl s

theorem imageRefused_stands (e : LoadFail) : (imageRefused s c f e).ctx c = { s.ctx c with loading := false } ∧
    (∀ d, d ≠ c → (imageRefused s c f e).ctx d = s.ctx d) ∧ (imageRefused s c f e).fbit HULL_LOAD_STS_REFUSED = true ∧
    SameEgress s (imageRefused s c f e) ∧ Inv (imageRefused s c f e) ∧ OnlyParts [.regs, .ctxs, .outbox, .fresh] s (imageRefused s c f e) := by
  have hsame := ctx_setCtx_same hi hc (fun x => { x with loading := false })
  have hne := fun (d : Nat) (hd : d ≠ c) => ctx_setCtx_ne s hd (fun x => { x with loading := false })
  have hiu := (setCtx_keeps' s c (fun x => { x with loading := false })).inv hi
  have hreg : (s.setCtx c (fun x => { x with loading := false })).regs = s.regs := rfl
  have hp1 := setCtx_onlyParts s c (fun x => { x with loading := false })
  unfold imageRefused
  generalize s.setCtx c (fun x => { x with loading := false }) = u at *
  have hp2 := loadRecord_onlyParts u c f e
  have hr2 := only_loadRecord u c f e
  have hiv := (loadRecord_keeps' u c f e).inv hiu
  generalize u.loadRecord c f e = v at *
  have hp3 := setSts_onlyParts v 0 HULL_LOAD_STS_REFUSED
  have hcx : (v.setSts 0 HULL_LOAD_STS_REFUSED).ctxs = u.ctxs := Eq.trans (hp3 .ctxs (by decide)) (hp2 .ctxs (by decide))
  have hall := ((hp1.mono (qs := [.regs, .ctxs, .outbox, .fresh]) (by decide)).then hp2 (by decide)).then hp3 (by decide)
  refine ⟨(ctx_congr hcx c).trans hsame, fun d hd => (ctx_congr hcx d).trans (hne d hd), fbit_setSts v 0 _ hiv.1.1 (by decide) rfl, ?_,
    (setSts_keeps v 0 _ (.refl v)).inv hiv, hall⟩
  exact .of_parts hall (by decide) ((fget_setSts_apart v 0 HULL_LOAD_STS_REFUSED _ hiv.1.1 (by decide) (by decide)).trans
    ((hr2.fget _ (by decide)).trans (fget_congr hreg _)))

theorem loadRefuse_stands (e : LoadFail) : (s.loadRefuse c tag f e).ctx c = { s.ctx c with loading := false } ∧
    (∀ d, d ≠ c → (s.loadRefuse c tag f e).ctx d = s.ctx d) ∧ (s.loadRefuse c tag f e).fbit HULL_LOAD_STS_REFUSED = true ∧
    Completes c tag 1 9 (e.code + e.typ * 65536) s (s.loadRefuse c tag f e) ∧
    OnlyParts [.regs, .ctxs, .fifos, .outbox, .fresh] s (s.loadRefuse c tag f e) := by
  have he : s.loadRefuse c tag f e = (imageRefused s c f e).commandDone c tag 1 9 (e.code + e.typ * 65536) := rfl
  obtain ⟨h1, h2, h3, h4, h5, h6⟩ := imageRefused_stands hi hc f e
  rw [he]
  generalize imageRefused s c f e = u at *
  have hd := commandDone_onlyParts u c tag 1 9 (e.code + e.typ * 65536)
  have hcx := hd .ctxs (by decide)
  exact ⟨(ctx_congr hcx c).trans h1, fun d hdc => (ctx_congr hcx d).trans (h2 d hdc),
    ((only_commandDone u c tag 1 9 _ (fun _ m => m)).fbit _ (by decide)).trans h3,
    h4.posts (completes_commandDone h5 c tag 1 9 _), (h6.mono (by decide)).then hd (by decide)⟩

end

end Sys2Proof.Laws
end

section
/-! PROOFS. UNLOAD_IMAGE, and what O51 says (R425, R486). -/

namespace Sys2Proof.Laws

open Sys2Proof.Machine Sys2Proof.Safety

section
variable {s : State} {at_ c : Nat} (h : Awake s) (hc : c < 4) (hs : Settled s at_)
include h hc hs

theorem loadImageDone_loaded {f : ImageFile} {p : PendCmd} (hp : s.host.cmds.find? (fun p => p.opcode == 1 && p.ctx == c) = some p)
    (hf : s.imageFail f p.arg = none) : ∃ t, exec (.loadImageDone at_ c f) s = .next t ∧
      t.ctx c = { state := .loaded, image := some f } ∧ (∀ d, d ≠ c → t.ctx d = s.ctx d) ∧ t.fbit HULL_LOAD_STS_LOADED = true ∧
      t.router.rwlOpen = false ∧ Completes c p.tag 1 0 0 s t ∧ p ∉ t.host.cmds ∧
      OnlyParts [.now, .regs, .ctxs, .fifos, .host, .router, .outbox] s t := by
  have he := exec_loadImageDone h hc hs f
  have hd : (s.advance at_).loadImageDone c f = (loadTaken (s.advance at_) c p).loadAccept c p.tag f := by
    unfold State.loadImageDone
    rw [show (s.advance at_).host.cmds.find? (fun p => p.opcode == 1 && p.ctx == c) = some p from hp]
    change (match (loadTaken (s.advance at_) c p).imageFail f p.arg with | none => _ | some e => _) = _
    rw [show (loadTaken (s.advance at_) c p).imageFail f p.arg = none from hf]
    rfl
  rw [hd] at he
  have hl := loadTaken_onlyParts (s.advance at_) c p
  have hall := ((advance_onlyParts s at_).mono (qs := [.now, .host]) (by decide)).then hl (by decide)
  have hi : Inv (loadTaken (s.advance at_) c p) := (withHost_keeps _ _ (withHost_keeps _ _ (advance_keeps at_ (.refl s)))).inv h.2
  have hcm := loadTaken_cmds (s.advance at_) c p
  have hsame : SameEgress s (loadTaken (s.advance at_) c p) := ⟨rfl, rfl, rfl⟩
  generalize loadTaken (s.advance at_) c p = u at *
  obtain ⟨h1, h2, h3, h4, h5, h6⟩ := loadAccept_stands hi hc p.tag f
  have hcx := hall .ctxs (by decide)
  exact ⟨_, he, h1, fun d hdc => (h2 d hdc).trans (ctx_congr hcx d), h3, h4, hsame.posts h5,
    by rw [h6 .host (by decide)]; exact hcm, (hall.mono (by decide)).then h6 (by decide)⟩

theorem loadImageDone_refused {f : ImageFile} {p : PendCmd} (hp : s.host.cmds.find? (fun p => p.opcode == 1 && p.ctx == c) = some p)
    {e : LoadFail} (hf : s.imageFail f p.arg = some e) : ∃ t, exec (.loadImageDone at_ c f) s = .next t ∧
      t.ctx c = { s.ctx c with loading := false } ∧ (∀ d, d ≠ c → t.ctx d = s.ctx d) ∧ t.fbit HULL_LOAD_STS_REFUSED = true ∧
      Completes c p.tag 1 9 (e.code + e.typ * 65536) s t ∧ p ∉ t.host.cmds ∧
      OnlyParts [.now, .regs, .ctxs, .fifos, .host, .outbox, .fresh] s t := by
  have he := exec_loadImageDone h hc hs f
  have hd : (s.advance at_).loadImageDone c f = (loadTaken (s.advance at_) c p).loadRefuse c p.tag f e := by
    unfold State.loadImageDone
    rw [show (s.advance at_).host.cmds.find? (fun p => p.opcode == 1 && p.ctx == c) = some p from hp]
    change (match (loadTaken (s.advance at_) c p).imageFail f p.arg with | none => _ | some e => _) = _
    rw [show (loadTaken (s.advance at_) c p).imageFail f p.arg = some e from hf]
    rfl
  rw [hd] at he
  have hl := loadTaken_onlyParts (s.advance at_) c p
  have hall := ((advance_onlyParts s at_).mono (qs := [.now, .host]) (by decide)).then hl (by decide)
  have hi : Inv (loadTaken (s.advance at_) c p) := (withHost_keeps _ _ (withHost_keeps _ _ (advance_keeps at_ (.refl s)))).inv h.2
  have hcm := loadTaken_cmds (s.advance at_) c p
  have hsame : SameEgress s (loadTaken (s.advance at_) c p) := ⟨rfl, rfl, rfl⟩
  generalize loadTaken (s.advance at_) c p = u at *
  obtain ⟨h1, h2, h3, h4, h5⟩ := loadRefuse_stands hi hc p.tag f e
  have hcx := hall .ctxs (by decide)
  exact ⟨_, he, by rw [h1, ctx_congr hcx], fun d hdc => (h2 d hdc).trans (ctx_congr hcx d), h3, hsame.posts h4,
    by rw [h5 .host (by decide)]; exact hcm, (hall.mono (by decide)).then h5 (by decide)⟩

end

/-! ### Descriptors abandoned, pins released (R421, R442, R443) -/

/-- Of the descriptors of the host those that `p` selects are gone. -/
theorem abandonDescs_host (s : State) (p : Desc → Bool) : (s.abandonDescs p).host.descs = s.host.descs.filter (fun d => !p d) ∧
    (s.abandonDescs p).host.pins = s.host.pins := by
  have h : (s.abandonDescs p).host = (s.withHost (fun h => { h with
      descs := h.descs.filter (fun d => !p d),
      priGone := h.priGone ++ ((s.host.descs.filter p).filter (fun d => d.status == 2)).map (fun d => d.prg),
      pri := h.pri.filter (fun g => !((s.host.descs.filter p).any (fun d => d.status == 2 && d.prg == g.1))) })).host := by
    unfold State.abandonDescs
    dsimp only
    refine List.foldlRecOn (motive := fun (t : State) => t.host = _) _ _ ?_ (fun t ht d _ => ?_)
    · exact List.foldlRecOn (motive := fun (t : State) => t.host = _) _ _ rfl (fun t ht d _ => ht)
    · refine Eq.trans ?_ ht
      split
      · exact (commandDone_onlyParts t _ _ _ _ _) .host (by decide)
      · rfl
  rw [h]
  exact ⟨rfl, rfl⟩

/-- Where no descriptor is selected, only the host's record is touched. -/
theorem abandonDescs_none {s : State} {p : Desc → Bool} (hn : ∀ d ∈ s.host.descs, p d = false) : OnlyParts [.host] s (s.abandonDescs p) := by
  have hg : s.host.descs.filter p = [] := List.filter_eq_nil_iff.2 (fun d hd => by rw [hn d hd]; decide)
  unfold State.abandonDescs
  rw [hg]
  dsimp only [List.foldl_nil]
  exact withHost_onlyParts s _

theorem unpinCtx_onlyParts (s : State) (c : Nat) : OnlyParts [.host] s (s.unpinCtx c) :=
  (withHost_onlyParts s _).trans (withHost_onlyParts _ _)

theorem unpinCtx_host (s : State) (c : Nat) : (s.unpinCtx c).host.descs = s.host.descs ∧
    (s.unpinCtx c).host.pins = s.host.pins.filter (fun p => p.ctx != c) := ⟨rfl, rfl⟩

theorem abandonDescs_keeps' (s : State) (p : Desc → Bool) : Keeps s (s.abandonDescs p) := abandonDescs_keeps s p (.refl s)

/-! ### UNLOAD_IMAGE -/

/-- Nothing of a context's job is left to move, and nothing is pinned for it. -/
def contextCleared (s : State) (c : Nat) : State :=
  ((if s.host.exp.any (fun e => e.ctx == c) then s.abandonExport else s).abandonDescs (fun d => d.ctx == c && d.eng < 12)).unpinCtx c

/-- The context is EMPTY. -/
def contextEmptied (s : State) (c : Nat) : State := (s.setCtx c (fun _ => {})).fsetAll [(HULL_CTX_TRAIL.ix c, 0)]

theorem unloadImage_eq {s : State} {c tag : Nat} (h : s.cmdAllowed c [.loaded] = true) :
    s.unloadImage c tag = (contextEmptied (contextCleared s c) c).commandDone c tag 2 0 0 := by
  unfold State.unloadImage
  rw [if_pos h]
  rfl

theorem contextCleared_onlyParts (s : State) (c : Nat) : OnlyParts [.regs, .fifos, .host, .outbox] s (contextCleared s c) := by
  have h1 : OnlyParts [.regs, .fifos, .host, .outbox] s (if s.host.exp.any (fun e => e.ctx == c) then s.abandonExport else s) :=
    .ite (abandonExport_onlyParts s) (.refl _ s)
  exact (h1.trans (abandonDescs_onlyParts _ _)).then (unpinCtx_onlyParts _ c) (by decide)

theorem contextCleared_inv {s : State} (hi : Inv s) (c : Nat) : Inv (contextCleared s c) := by
  have h1 : Inv (if s.host.exp.any (fun e => e.ctx == c) then s.abandonExport else s) := by
    split
    · exact (abandonExport_keeps s (.refl s)).inv hi
    · exact hi
  exact (withHost_keeps _ _ (withHost_keeps _ _ (abandonDescs_keeps' _ _))).inv h1

theorem contextCleared_host (s : State) (c : Nat) : (∀ p ∈ (contextCleared s c).host.pins, p.ctx ≠ c) ∧
    (∀ d ∈ (contextCleared s c).host.descs, d.ctx ≠ c ∨ 12 ≤ d.eng) := by
  unfold contextCleared
  generalize (if s.host.exp.any (fun e => e.ctx == c) then s.abandonExport else s) = u
  obtain ⟨hd, -⟩ := abandonDescs_host u (fun d => d.ctx == c && d.eng < 12)
  generalize u.abandonDescs (fun d => d.ctx == c && d.eng < 12) = v at *
  obtain ⟨hd', hp'⟩ := unpinCtx_host v c
  rw [hp', hd', hd]
  refine ⟨fun p hp => by simpa using (List.mem_filter.1 hp).2, fun d hdm => ?_⟩
  have hb := (List.mem_filter.1 hdm).2
  simp only [Bool.not_eq_true', Bool.and_eq_false_iff, beq_eq_false_iff_ne, decide_eq_false_iff_not] at hb
  omega

/-- With nothing of the context under way its clearing touches the host's record alone. -/
theorem contextCleared_idle {s : State} {c : Nat} (hd : ∀ d ∈ s.host.descs, d.ctx ≠ c) (he : ∀ e, s.host.exp = some e → e.ctx ≠ c) :
    OnlyParts [.host] s (contextCleared s c) := by
  have hx : s.host.exp.any (fun e => e.ctx == c) = false := by
    cases hexp : s.host.exp with
    | none => rfl
    | some e => simpa using he e hexp
  unfold contextCleared
  rw [hx, if_neg Bool.false_ne_true]
  exact (abandonDescs_none (fun d hdm => by simp [hd d hdm])).trans (unpinCtx_onlyParts _ c)

section
variable {s : State} (hi : Inv s) {c : Nat} (hc : c < 4)
include hi hc

theorem contextEmptied_stands : (contextEmptied s c).ctx c = {} ∧ (∀ d, d ≠ c → (contextEmptied s c).ctx d = s.ctx d) ∧
    (contextEmptied s c).fget (HULL_CTX_TRAIL.ix c) = 0 ∧ SameEgress s (contextEmptied s c) ∧ Inv (contextEmptied s c) ∧
    OnlyParts [.regs, .ctxs] s (contextEmptied s c) := by
  have hsame := ctx_setCtx_same hi hc (fun _ => {})
  have hne := fun (d : Nat) (hd : d ≠ c) => ctx_setCtx_ne s hd (fun _ => {})
  have hiu := (setCtx_keeps' s c (fun _ => {})).inv hi
  have hp1 := setCtx_onlyParts s c (fun _ => {})
  unfold contextEmptied
  generalize s.setCtx c (fun _ => {}) = u at *
  obtain ⟨hw, -, htick, -⟩ := loadRegs_facts hc
  have hf : u.fsetAll [(HULL_CTX_TRAIL.ix c, 0)] = u.fset (HULL_CTX_TRAIL.ix c) 0 := rfl
  rw [hf]
  have hp2 := fset_onlyParts u (HULL_CTX_TRAIL.ix c) 0
  have hcx := hp2 .ctxs (by decide)
  have hall := (hp1.mono (qs := [.regs, .ctxs]) (by decide)).then hp2 (by decide)
  refine ⟨(ctx_congr hcx c).trans hsame, fun d hd => (ctx_congr hcx d).trans (hne d hd),
    (fget_fset_same u _ 0 hiu.1.1 hw).trans (Nat.zero_mod _), ?_, (fset_keeps _ 0 (.refl u)).inv hiu, hall⟩
  exact .of_parts hall (by decide) ((fget_fset_apart u _ TICK_COUNT_COUNT 0 hiu.1.1 hw htick).trans (fget_congr (hp1 .regs (by decide)) _))

theorem unloadImage_stands (tag : Nat) (ha : s.cmdAllowed c [.loaded] = true) :
    (s.unloadImage c tag).ctx c = {} ∧ (∀ d, d ≠ c → (s.unloadImage c tag).ctx d = s.ctx d) ∧
    (∀ p ∈ (s.unloadImage c tag).host.pins, p.ctx ≠ c) ∧ (∀ d ∈ (s.unloadImage c tag).host.descs, d.ctx ≠ c ∨ 12 ≤ d.eng) ∧
    (s.unloadImage c tag).fget (HULL_CTX_TRAIL.ix c) = 0 ∧ OnlyParts [.regs, .ctxs, .fifos, .host, .outbox] s (s.unloadImage c tag) ∧
    ((∀ d ∈ s.host.descs, d.ctx ≠ c) → (∀ e, s.host.exp = some e → e.ctx ≠ c) → Completes c tag 2 0 0 s (s.unloadImage c tag)) := by
  rw [unloadImage_eq ha]
  have hp1 := contextCleared_onlyParts s c
  have hi1 := contextCleared_inv hi c
  obtain ⟨hpins, hdescs⟩ := contextCleared_host s c
  have hidle := contextCleared_idle (s := s) (c := c)
  generalize contextCleared s c = u at *
  obtain ⟨h1, h2, h3, h4, h5, h6⟩ := contextEmptied_stands hi1 hc
  generalize contextEmptied u c = v at *
  have hd := commandDone_onlyParts v c tag 2 0 0
  have hcx := hd .ctxs (by decide)
  have hh : (v.commandDone c tag 2 0 0).host = u.host := Eq.trans (hd .host (by decide)) (h6 .host (by decide))
  refine ⟨(ctx_congr hcx c).trans h1, fun d hdc => ((ctx_congr hcx d).trans (h2 d hdc)).trans (ctx_congr (hp1 .ctxs (by decide)) d),
    by rw [hh]; exact hpins, by rw [hh]; exact hdescs,
    ((only_commandDone v c tag 2 0 0 (fun _ m => m)).fget _ (loadRegs_facts hc).2.1).trans h3,
    ((hp1.mono (qs := [.regs, .ctxs, .fifos, .host, .outbox]) (by decide)).then h6 (by decide)).then hd (by decide), fun hn hx => ?_⟩
  have hid := hidle hn hx
  have hsame : SameEgress s u := .of_parts hid (by decide) (fget_congr (hid .regs (by decide)) _)
  exact (hsame.trans h4).posts (completes_commandDone h5 c tag 2 0 0)

end

/-- Settles O51: loads, their verdicts and unloads, each by its own lemma. -/
theorem imagesLoadAndUnload : Obligations.ImagesLoadAndUnload := by
  unfold Obligations.ImagesLoadAndUnload
  intro s at_ c tag h hc hs
  dsimp only
  refine ⟨fun src len => loadImage_accepted h hc hs src len, fun src len => loadImage_refused h hc hs src len,
    fun f p hp => ⟨loadImageDone_loaded h hc hs hp, fun e => loadImageDone_refused h hc hs hp⟩, unloadImage_refused h hc hs, fun ha => ?_⟩
  have hi := (advance_keeps at_ (.refl s)).inv h.2
  obtain ⟨h1, h2, h3, h4, h5, h6, h7⟩ := unloadImage_stands hi hc tag (show (s.advance at_).cmdAllowed c [.loaded] = true from ha)
  have hsame : SameEgress s (s.advance at_) := ⟨rfl, rfl, rfl⟩
  exact ⟨_, exec_unloadImage (tag := tag) h hc hs, h6 .now (by decide), h1, h2, h3, h4, h5, h6 .mem (by decide), h6 .ccr (by decide),
    fun hn hx => hsame.posts (h7 hn hx)⟩

end Sys2Proof.Laws
end

section
/-! PROOFS. The register map as the router reads it: which offsets hold a register, and what a write of one of the registers
without actions does (R8, R521, R568 to R570). -/

namespace Sys2Proof.Laws

open Sys2Proof.Machine Sys2Proof.Safety

/-! ### Which offsets hold a register -/

/-- Every description of a block ends below 0x6000, the hull's below 0x1000. -/
theorem blockRegs_end (b : Block) : ∀ d ∈ blockRegs b,
    d.off + d.count * d.stride ≤ 0x6000 ∧ (b = .hull → d.off + d.count * d.stride ≤ 0x1000) := by
  cases b <;> decide +kernel

theorem covers_lt {d : RegDesc} {o : Nat} (h : d.covers o = true) : o < d.off + d.count * d.stride := by
  unfold RegDesc.covers at h
  simp only [Bool.and_eq_true, decide_eq_true_eq] at h
  omega

theorem findReg_of_locate {k : Nat} {b : Block} {o : Nat} (h : locate k = some (b, o)) :
    findReg k = (blockRegs b).find? (fun d => d.covers o) := by
  unfold findReg; rw [h]

/-- A register's offset lies within its block's map. -/
theorem offset_of_findReg {k : Nat} {b : Block} {o : Nat} {d : RegDesc} (h : locate k = some (b, o)) (hk : findReg k = some d) :
    o < 0x6000 ∧ (b = .hull → o < 0x1000) := by
  rw [findReg_of_locate h] at hk
  have hc := covers_lt (by simpa using List.find?_some hk)
  obtain ⟨h1, h2⟩ := blockRegs_end b d (List.mem_of_find?_eq_some hk)
  exact ⟨by omega, fun hb => by have := h2 hb; omega⟩

/-- A window's own block lies at the same offset of the window. -/
theorem locate_window {k w x : Nat} (hw : k / 0x1000000 = w) (hx : k % 0x1000000 = x) (hk : w < 28)
    (ht : w < 20 ∨ x < 0x100000 ∨ 0x380000 ≤ x) (hp : x < 0x3FF000 ∨ 0x400000 ≤ x) :
    locate k = (blockOfWindow w).map (fun b => (b, x)) := by
  unfold locate
  have h1 : ¬ 0x20000000 ≤ k := by omega
  have h2 : (20 ≤ w && w < 28 && 0x100000 ≤ x && x < 0x380000) = false := by
    simp only [Bool.and_eq_false_iff, decide_eq_false_iff_not]; omega
  have h3 : (0x3FF000 ≤ x && x < 0x400000) = false := by
    simp only [Bool.and_eq_false_iff, decide_eq_false_iff_not]; omega
  rw [if_neg h1, hw, hx]
  simp only [h2, h3, Bool.false_eq_true, if_false]

theorem findReg_far {k : Nat} {b : Block} {o : Nat} (h : locate k = some (b, o)) (ho : 0x6000 ≤ o) : findReg k = none := by
  cases hf : findReg k with
  | none => rfl
  | some d => have := (offset_of_findReg h hf).1; omega

/-- No register of a window's own block lies far up in the window. -/
theorem findReg_window_far {k w x : Nat} (hw : k / 0x1000000 = w) (hx : k % 0x1000000 = x) (hk : w < 28)
    (ht : w < 20 ∨ x < 0x100000 ∨ 0x380000 ≤ x) (hp : x < 0x3FF000 ∨ 0x400000 ≤ x) (hx' : 0x6000 ≤ x) : findReg k = none := by
  have h := locate_window hw hx hk ht hp
  cases hb : blockOfWindow w with
  | none => unfold findReg; rw [h, hb]; rfl
  | some b => exact findReg_far (b := b) (o := x) (by rw [h, hb]; rfl) hx'

/-- The offset of a register is not that of a copy. -/
theorem snapOf_register {k : Nat} {d : RegDesc} (hk : findReg k = some d) : snapOf k = none := by
  have hne : findReg k ≠ none := by rw [hk]; exact Option.some_ne_none d
  unfold snapOf
  simp only
  by_cases h1 : k / 0x1000000 < 20
  · rw [if_pos h1]
    by_cases h2 : 0x200000 ≤ k % 0x1000000 ∧ k % 0x1000000 < 0x3FF000
    · exact absurd (findReg_window_far rfl rfl (by omega) (by omega) (by omega) (by omega)) hne
    · rw [if_neg (by simpa using h2)]
  rw [if_neg h1]
  by_cases h3 : k / 0x1000000 < 28
  · rw [if_pos h3]
    by_cases h4 : 0x100000 ≤ k % 0x1000000 ∧ k % 0x1000000 < 0x380000
    · rw [if_pos (by simpa using h4)]
      by_cases h5 : 0x20000 ≤ (k % 0x1000000 - 0x100000) % 0x40000 ∧ (k % 0x1000000 - 0x100000) % 0x40000 < 0x3F000
      · refine absurd (findReg_far (b := .tile) (o := (k % 0x1000000 - 0x100000) % 0x40000) ?_ (by omega)) hne
        unfold locate
        rw [if_neg (by omega)]
        simp only
        rw [if_pos (by simp only [Bool.and_eq_true, decide_eq_true_eq]; omega), if_neg (by omega)]
      · rw [if_neg (by simpa using h5)]
    · rw [if_neg (by simpa using h4)]
      by_cases h6 : 0x380000 ≤ k % 0x1000000 ∧ k % 0x1000000 < 0x3F0000
      · exact absurd (findReg_window_far rfl rfl h3 (by omega) (by omega) (by omega)) hne
      · rw [if_neg (by simpa using h6)]
  · rw [if_neg h3]

/-- No register lies in the command port or in the mailbox buffers. -/
theorem register_not_buffer {k : Nat} {d : RegDesc} (hk : findReg k = some d) (hw : k < 0x1C000000) :
    (k / 0x1000000 == 7 && decide (0x100000 ≤ k % 0x1000000) && decide (k % 0x1000000 < 0x110000)) = false ∧
    (k / 0x1000000 == 0 && decide (0x1000 ≤ k % 0x1000000) && decide (k % 0x1000000 < 0x3000)) = false := by
  have hne : findReg k ≠ none := by rw [hk]; exact Option.some_ne_none d
  refine ⟨?_, ?_⟩
  · refine Bool.eq_false_iff.mpr fun h => hne ?_
    simp only [Bool.and_eq_true, beq_iff_eq, decide_eq_true_eq] at h
    exact findReg_window_far rfl rfl (by omega) (by omega) (by omega) (by omega)
  · refine Bool.eq_false_iff.mpr fun h => ?_
    simp only [Bool.and_eq_true, beq_iff_eq, decide_eq_true_eq] at h
    have hl := locate_window (k := k) (w := 0) (x := k % 0x1000000) (by omega) rfl (by omega) (by omega) (by omega)
    have := (offset_of_findReg hl hk).2 rfl
    omega

/-! ### The registers whose writes only store -/

/-- A register without a W1P field is none of those that have one. -/
theorem key_ne_of_pulse {k : Nat} {d : RegDesc} (hk : findReg k = some d) (hp : ∀ f ∈ d.fields, f.acc ≠ .w1p) {key : Nat}
    (hK : (findReg key).all (fun d => d.fields.any (fun f => f.acc == .w1p)) = true) : (k == key) = false := by
  refine Bool.eq_false_iff.mpr fun h => ?_
  rw [← eq_of_beq h, hk] at hK
  obtain ⟨f, hf, ha⟩ := List.any_eq_true.mp hK
  exact hp f hf (eq_of_beq ha)

/-- A register without a W1P field lies at none of the offsets of its block that have one. -/
theorem offset_ne_of_pulse {k : Nat} {d : RegDesc} {b : Block} {o o' : Nat} (hl : locate k = some (b, o)) (hk : findReg k = some d)
    (hp : ∀ f ∈ d.fields, f.acc ≠ .w1p)
    (hK : ((blockRegs b).find? (fun d => d.covers o')).all (fun d => d.fields.any (fun f => f.acc == .w1p)) = true) : o ≠ o' := by
  intro h
  rw [findReg_of_locate hl, h] at hk
  rw [hk] at hK
  obtain ⟨f, hf, ha⟩ := List.any_eq_true.mp hK
  exact hp f hf (eq_of_beq ha)

theorem locate_slv {k o : Nat} (h : locate k = some (.slv, o)) : k % 0x1000000 = o := by
  unfold locate at h
  split at h
  · cases h
  simp only at h
  split at h
  · split at h <;> cases h
  split at h
  · split at h <;> cases h
  · cases hb : blockOfWindow (k / 0x1000000) with
    | none => rw [hb] at h; cases h
    | some b => rw [hb] at h; cases h; rfl

/-- A write to a register without a W1P field starts no action. -/
theorem pulses_plain (s : State) {k : Nat} {d : RegDesc} (hk : findReg k = some d) (hp : ∀ f ∈ d.fields, f.acc ≠ .w1p) (v : Nat)
    (o : Outer) : s.pulses k v o = s := by
  have hne : ∀ key, (findReg key).all (fun d => d.fields.any (fun f => f.acc == .w1p)) = true → (k == key) = false :=
    fun key h => key_ne_of_pulse hk hp h
  unfold State.pulses
  simp only
  split
  case h_1 hl => exact absurd rfl (offset_ne_of_pulse (o' := 0) hl hk hp (by decide))
  case h_2 x hl =>
    have h := offset_ne_of_pulse (o' := SLV_PIVOT_PTR_CLEAR.base % 0x1000000) hl hk hp (by decide)
    rw [locate_slv hl, beq_false_of_ne h]; rfl
  case h_3 => rw [hne HRD_CMD_GO.base (by decide +kernel)]; rfl
  case h_4 => rw [hne PWR_STATE_GO.base (by decide +kernel), hne CAP_CFG_OVERRIDE.base (by decide +kernel)]; rfl
  case h_5 => rw [hne BENCH_CMD_GO.base (by decide +kernel)]; rfl
  case h_6 =>
    rw [hne COMMIT_HOLD.base (by decide +kernel), hne HULL_MBOX.base (by decide +kernel),
      hne HULL_CAPTURE_AT1.base (by decide +kernel), hne HULL_CAPTURE.base (by decide +kernel)]; rfl
  case h_7 => rfl

/-- A write to such a register is stored as it stands. -/
theorem storeWrite_plain (s : State) {k : Nat} {d : RegDesc} (h : plainReg k d) (new : Nat) :
    s.storeWrite k new = s.regPut k (BitVec.ofNat 64 new) := by
  obtain ⟨hk, -, -, -, hp, hclk, hhdm, hpage⟩ := h
  unfold State.storeWrite
  rw [if_neg (by simpa using hclk), if_neg (by simp only [Bool.and_eq_true, decide_eq_true_eq]; omega)]
  split
  case h_1 hl => exact absurd hl hpage
  case h_2 => rw [key_ne_of_pulse (key := PWR_STATE_GO.base) hk hp (by decide +kernel)]; rfl

end Sys2Proof.Laws
end

section
/-! PROOFS. The router: an access that is flagged, and one that occupies its window (R575 to R583). -/

namespace Sys2Proof.Laws

open Sys2Proof.Machine Sys2Proof.Safety

/-! ### A flagged access (R583) -/

/-- The counter of a cause. -/
def accCnt (cause : Nat) : Fld :=
  if cause == 0 then HULL_ACC_CNT_OFF else if cause == 5 then HULL_ACC_CNT_HELD else HULL_ACC_CNT_REFUSED

/-- The record of the first flagged access. -/
def accRecord (s : State) (cause via off : Nat) (write : Bool) : List (Fld × Nat) :=
  [(HULL_ACC_FIRST_OFFSET, off), (HULL_ACC_FIRST_FUNCTION, via), (HULL_ACC_FIRST_CAUSE, cause),
   (HULL_ACC_FIRST_WRITE, write.toNat), (HULL_ACC_FIRST_TICK, if s.job.ctx.isSome then s.tickCount else 0)]

/-- An access of PF0 to PF2 or of the mailbox draws no free value. -/
theorem accErr_eq (s : State) (cause : Nat) {via : Nat} (hv : via < 4) (off : Nat) (write : Bool) :
    s.accErr cause via off write =
      ((s.record HULL_ACC_FIRST_VALID (accRecord s cause via off write)).fadd (accCnt cause) 1).setSts 0 (accSts cause) := by
  unfold State.accErr accCnt accRecord
  simp only [if_pos hv]

theorem accCnt_facts (cause : Nat) : (accCnt cause).base = HULL_ACC_CNT_OFF.base ∧ (accCnt cause).lo + (accCnt cause).wd ≤ 64 := by
  unfold accCnt
  split
  · decide
  split <;> decide

theorem accRecord_base (s : State) (cause via off : Nat) (write : Bool) :
    ∀ p ∈ accRecord s cause via off write, p.1.base = HULL_ACC_FIRST_VALID.base := by
  simp only [accRecord, List.forall_mem_cons, List.not_mem_nil, false_implies, implies_true, and_true]
  decide

theorem accErr_onlyParts (s : State) (cause : Nat) {via : Nat} (hv : via < 4) (off : Nat) (write : Bool) :
    OnlyParts [.regs, .outbox] s (s.accErr cause via off write) := by
  rw [accErr_eq s cause hv]
  exact (((record_onlyParts s _ _).then (fadd_onlyParts _ _ _) (ps := [.regs]) (by decide)).mono (by decide)).then
    (setSts_onlyParts _ 0 _) (by decide)

theorem only_accErr (s : State) (cause : Nat) {via : Nat} (hv : via < 4) (off : Nat) (write : Bool) :
    OnlyRegs accRegs s (s.accErr cause via off write) := by
  rw [accErr_eq s cause hv]
  refine ((only_record s _ _ (by decide) fun p hp => ?_).trans (only_fadd _ _ 1 ?_)).trans (only_setSts _ 0 _ (.head _))
  · rw [accRecord_base s cause via off write p hp]; decide
  · rw [(accCnt_facts cause).1]; decide

theorem accErr_inv {s : State} (hi : Inv s) (cause via off : Nat) (write : Bool) : Inv (s.accErr cause via off write) :=
  (accErr_keeps s cause via off write (.refl s)).inv hi

/-- What a flagged access leaves: its bit, its count, and the record of the first. -/
theorem accErr_shows {s : State} (hi : Inv s) {cause via : Nat} (hc : cause < 6) (hv : via < 4) (off : Nat) (write : Bool) :
    (s.accErr cause via off write).fbit (accSts cause) = true ∧ Counts (accCnt cause) 1 s (s.accErr cause via off write) ∧
    (s.fbit HULL_ACC_FIRST_VALID = false → Shows HULL_ACC_FIRST_OFFSET off (s.accErr cause via off write) ∧
      (s.accErr cause via off write).fget HULL_ACC_FIRST_CAUSE = cause) := by
  rw [accErr_eq s cause hv]
  obtain ⟨hb, hw⟩ := accCnt_facts cause
  have k1 := record_keeps s HULL_ACC_FIRST_VALID (accRecord s cause via off write) (.refl s)
  have k2 := fadd_keeps _ (accCnt cause) 1 k1
  have hsts : (accSts cause).lo + (accSts cause).wd ≤ 64 := by simp only [accSts, HULL_ACC_STS_OFF]; omega
  have hfirst : ∀ f : Fld, f.base = HULL_ACC_FIRST_VALID.base →
      (((s.record HULL_ACC_FIRST_VALID (accRecord s cause via off write)).fadd (accCnt cause) 1).setSts 0 (accSts cause)).fget f =
        (s.record HULL_ACC_FIRST_VALID (accRecord s cause via off write)).fget f := fun f hf =>
    (fget_setSts_apart _ 0 _ _ (k2.inv hi).1.1 hsts (apart_of_base (by rw [hf]; decide : f.base ≠ HULL_ACC_STS_OFF.base))).trans
      (fget_fset_base _ _ _ _ (by rw [hf, hb]; decide))
  refine ⟨fbit_setSts _ 0 _ (k2.inv hi).1.1 hsts rfl, ?_, fun hvalid => ?_⟩
  · have h1 := fget_fadd_same _ (accCnt cause) 1 (k1.inv hi).1.1 hw
    have h2 : (s.record HULL_ACC_FIRST_VALID (accRecord s cause via off write)).fget (accCnt cause) = s.fget (accCnt cause) :=
      (only_record (ks := [HULL_ACC_FIRST_VALID.base]) s _ _ (by decide) fun p hp => by
        rw [accRecord_base s cause via off write p hp]; decide).fget _ (by rw [hb]; decide)
    have h3 := fget_setSts_apart _ 0 (accSts cause) (accCnt cause) (k2.inv hi).1.1 hsts
      (apart_of_base (by rw [hb]; decide : (accCnt cause).base ≠ HULL_ACC_STS_OFF.base))
    unfold Counts
    rw [h3, h1, h2]
  · have ha : FieldsApart (HULL_ACC_FIRST_VALID :: (accRecord s cause via off write).map Prod.fst) := by
      change FieldsApart [HULL_ACC_FIRST_VALID, HULL_ACC_FIRST_OFFSET, HULL_ACC_FIRST_FUNCTION, HULL_ACC_FIRST_CAUSE,
        HULL_ACC_FIRST_WRITE, HULL_ACC_FIRST_TICK]
      unfold FieldsApart; decide
    have hrec : ∀ {f x}, (f, x) ∈ accRecord s cause via off write →
        (s.record HULL_ACC_FIRST_VALID (accRecord s cause via off write)).fget f = x % 2 ^ f.wd := fun h =>
      fget_record_mem _ s hi.1.1 ha hvalid (.tail _ h)
    refine ⟨(hfirst HULL_ACC_FIRST_OFFSET rfl).trans (hrec (.head _)), (hfirst HULL_ACC_FIRST_CAUSE rfl).trans ((hrec (.tail _ (.tail _ (.head _)))).trans ?_)⟩
    exact Nat.mod_eq_of_lt (lt_of_lt_of_le hc (by decide))

/-! ### An access that occupies its window (R575 to R581) -/

/-- A write through the router is its effect on its cycle, with the clock where it stood; the window is busy until then. -/
theorem routeWrite_stands (s : State) (w : Nat) (time : Nat × Nat) (f : State → State)
    (h : OnlyParts [.regs, .outbox] (s.advance (s.accStart w false + time.2)) (f (s.advance (s.accStart w false + time.2)))) :
    OnlyParts [.regs, .router, .outbox] s (s.routeWrite w time f) ∧ (s.routeWrite w time f).now = s.now ∧
    (s.routeWrite w time f).regs = (f (s.advance (s.accStart w false + time.2))).regs ∧
    assocGet (s.routeWrite w time f).router.busy w = some (s.accStart w false + time.2) := by
  refine ⟨fun p hp => ?_, rfl, rfl, assocGet_assocPut_same _ _ _⟩
  by_cases hn : p = .now
  · subst hn; rfl
  · have h1 := h p (fun hm => hp (by revert hm; cases p <;> simp))
    have h2 : p.Same (f (s.advance (s.accStart w false + time.2))) (s.routeWrite w time f) := by
      revert hp hn; cases p <;> simp [Part.Same] <;> intros <;> rfl
    have h0 : p.Same s (s.advance (s.accStart w false + time.2)) := advance_onlyParts s _ p (by simpa using hn)
    exact (h0.trans h1).trans h2

/-- A read through the router answers what it samples on its cycle. -/
theorem routeRead_stands (s : State) (w : Nat) (time : Nat × Nat) (f : State → Word64 × State)
    (h : OnlyParts [.regs] (s.advance (s.accStart w true + time.2)) (f (s.advance (s.accStart w true + time.2))).2) :
    OnlyParts [.regs, .router, .outbox] s (s.routeRead w time f) ∧
    (s.routeRead w time f).regs = (f (s.advance (s.accStart w true + time.2))).2.regs ∧
    (s.routeRead w time f).outbox =
      s.outbox ++ [.regReply (s.accStart w true + time.1) (f (s.advance (s.accStart w true + time.2))).1] := by
  refine ⟨fun p hp => ?_, rfl, ?_⟩
  · by_cases hn : p = .now
    · subst hn; rfl
    · have h1 := h p (fun hm => hp (by revert hm; cases p <;> simp))
      have h2 : p.Same (f (s.advance (s.accStart w true + time.2))).2 (s.routeRead w time f) := by
        revert hp hn; cases p <;> simp [Part.Same] <;> intros <;> rfl
      have h0 : p.Same s (s.advance (s.accStart w true + time.2)) := advance_onlyParts s _ p (by simpa using hn)
      exact (h0.trans h1).trans h2
  · exact congrArg (· ++ [_]) (h .outbox (by decide))

/-- The access's start does not depend on registers and replies. -/
theorem accStart_congr {s t : State} (h : OnlyParts [.regs, .outbox] s t) (w : Nat) (read : Bool) :
    t.accStart w read = s.accStart w read := by
  unfold State.accStart
  rw [h .now (by decide), h .power (by decide), h .router (by decide)]

theorem accDone_onlyParts (s : State) (w c : Nat) (d : Option Word64) : OnlyParts [.router, .outbox] s (s.accDone w c d) := by
  intro p h
  cases d <;> revert h <;> cases p <;> simp [Part.Same]

/-- An access that reaches no register is flagged and answered at once. -/
theorem routeErr_stands (s : State) (w cause : Nat) {via : Nat} (hv : via < 4) (off rd wr : Nat) (write : Bool) (d : Word64) :
    OnlyParts [.regs, .router, .outbox] s (s.routeErr w cause via off rd wr write d) ∧
    (s.routeErr w cause via off rd wr write d).regs = (s.accErr cause via off write).regs ∧
    (write = false → (s.routeErr w cause via off rd wr write d).outbox.getLast? = some (.regReply (s.accStart w true + rd) d)) := by
  have hp := accErr_onlyParts s cause hv off write
  have ha := accStart_congr hp w (!write)
  unfold State.routeErr
  simp only
  rw [ha]
  generalize s.accErr cause via off write = u at *
  have hall : OnlyParts [.regs, .router, .outbox] s (u.accDone w (s.accStart w (!write) + if write then wr else rd)
      (if write then none else some d)) := (hp.mono (by decide)).then (accDone_onlyParts _ _ _ _) (by decide)
  cases write with
  | true => exact ⟨hall, rfl, fun h => Bool.noConfusion h⟩
  | false => exact ⟨hall, rfl, fun _ => List.getLast?_append_of_ne_nil _ (by simp)⟩

end Sys2Proof.Laws
end

section
/-! PROOFS. What a write stores in the fields of a register, and how PF0's accesses reach the router (R8, R571 to R578). -/

namespace Sys2Proof.Laws

open Sys2Proof.Machine Sys2Proof.Safety

/-! ### The fields of a register -/

/-- The fields lie apart, within the register. -/
def FieldsFit (l : List FieldDesc) : Prop :=
  (∀ f ∈ l, f.lo + f.wd ≤ 64) ∧ l.Pairwise (fun f g => f.lo + f.wd ≤ g.lo ∨ g.lo + g.wd ≤ f.lo)

theorem blockRegs_fit (b : Block) : ∀ d ∈ blockRegs b, FieldsFit d.fields := by
  unfold FieldsFit
  cases b <;> decide +kernel

theorem fieldsFit_of_findReg {k : Nat} {d : RegDesc} (hk : findReg k = some d) : FieldsFit d.fields := by
  unfold findReg at hk
  split at hk
  · cases hk
  next b o _ => exact blockRegs_fit b d (List.mem_of_find?_eq_some hk)

/-- May a write store the field? -/
def writable (locked : Bool) (f : FieldDesc) : Bool := f.acc == .rw || (f.acc == .rwl && !locked)

theorem writeFields_cons (view : Nat) (locked : Bool) (v : Nat) (f : FieldDesc) (fs : List FieldDesc) (x : Nat) :
    writeFields view locked v (f :: fs) x = writeFields view locked v fs
      (if writable locked f then putBits x f.lo f.wd (viewOp view f.wd (getBits x f.lo f.wd) (getBits v f.lo f.wd)) else x) := rfl

theorem writeFields_lt (view : Nat) (locked : Bool) (v : Nat) : ∀ (l : List FieldDesc), (∀ f ∈ l, f.lo + f.wd ≤ 64) →
    ∀ x, x < 2 ^ 64 → writeFields view locked v l x < 2 ^ 64
  | [], _, _, hx => hx
  | f :: fs, h, x, hx => by
    rw [writeFields_cons]
    refine writeFields_lt view locked v fs (fun g hg => h g (.tail _ hg)) _ ?_
    split
    · exact putBits_lt _ _ _ _ hx (h f (.head _))
    · exact hx

theorem getBits_putBits_apart {x lo wd y lo' wd' : Nat} (h : lo' + wd' ≤ lo ∨ lo + wd ≤ lo') :
    getBits (putBits x lo wd y) lo' wd' = getBits x lo' wd' := by
  rcases h with h | h
  · exact getBits_putBits_below _ _ _ _ _ _ h
  · exact getBits_putBits_above _ _ _ _ _ _ h

/-- A field apart from those of a list stands when they are written. -/
theorem getBits_writeFields_apart (view : Nat) (locked : Bool) (v lo wd : Nat) : ∀ (l : List FieldDesc),
    (∀ f ∈ l, writable locked f = true → lo + wd ≤ f.lo ∨ f.lo + f.wd ≤ lo) →
    ∀ x, getBits (writeFields view locked v l x) lo wd = getBits x lo wd
  | [], _, _ => rfl
  | f :: fs, h, x => by
    rw [writeFields_cons, getBits_writeFields_apart view locked v lo wd fs (fun g hg => h g (.tail _ hg))]
    split
    case isTrue hf => exact getBits_putBits_apart (h f (.head _) hf)
    case isFalse => rfl

/-- A field holds, after a write in the normal view, the bits written to it where it may be written, else what it held. -/
theorem getBits_writeFields (locked : Bool) (v : Nat) {f : FieldDesc} : ∀ (l : List FieldDesc), FieldsFit l → f ∈ l →
    ∀ x, getBits (writeFields 0 locked v l x) f.lo f.wd = if writable locked f then getBits v f.lo f.wd else getBits x f.lo f.wd
  | g :: fs, ⟨hw, hp⟩, hf, x => by
    obtain ⟨hg, hps⟩ := List.pairwise_cons.mp hp
    rw [writeFields_cons]
    rcases List.mem_cons.mp hf with rfl | hm
    · rw [getBits_writeFields_apart 0 locked v _ _ fs fun g hm _ => hg g hm]
      split
      · rw [getBits_putBits_same]
        exact Nat.mod_mod _ _
      · rfl
    · rw [getBits_writeFields locked v fs ⟨fun g h => hw g (.tail _ h), hps⟩ hm]
      split
      · rfl
      · split
        · exact getBits_putBits_apart (hg f hm).symm
        · rfl

/-- Locked fields stand (R8). -/
theorem getBits_writeFields_locked (view v : Nat) {f : FieldDesc} (ha : f.acc = .rwl) : ∀ (l : List FieldDesc), FieldsFit l → f ∈ l →
    ∀ x, getBits (writeFields view true v l x) f.lo f.wd = getBits x f.lo f.wd := by
  intro l ⟨hw, hp⟩ hf x
  refine getBits_writeFields_apart view true v _ _ l (fun g hg hgw => ?_) x
  have hne : g ≠ f := by rintro rfl; simp [writable, ha] at hgw
  have : Std.Symm (fun f g : FieldDesc => f.lo + f.wd ≤ g.lo ∨ g.lo + g.wd ≤ f.lo) := ⟨fun _ _ h => h.symm⟩
  exact hp.forall hf hg hne.symm

/-! ### A write to a register without actions -/

theorem irqEdge_onlyParts (s t : State) (p : Nat) : OnlyParts [.outbox] t (State.irqEdge s t p) := by
  unfold State.irqEdge
  split
  · exact emit_onlyParts _ _
  · exact OnlyParts.refl _ _

/-- What a write makes of the register at a key. -/
def written (s : State) (k view v : Nat) (d : RegDesc) : Nat := writeFields view s.locked v d.fields (s.regGet k).toNat

/-- A write that meets no locked field is stored. -/
theorem regWrite_stored (s : State) {k : Nat} {d : RegDesc} (hk : findReg k = some d) (hp : ∀ f ∈ d.fields, f.acc ≠ .w1p)
    (hl : s.locked = false ∨ ∀ f ∈ d.fields, f.acc ≠ .rwl) (view via off v : Nat) (o : Outer) :
    s.regWrite k view via off v o = State.irqEdge s (s.storeWrite k (written s k view v d)) (pageOfKey k) := by
  have hlo : (s.locked && d.fields.any (fun f => f.acc == .rwl)) = false := by
    rcases hl with h | h
    · rw [h]; rfl
    · rw [Bool.and_eq_false_iff]
      exact .inr (List.any_eq_false.mpr fun f hf => by simpa using h f hf)
  unfold State.regWrite written
  rw [hk]
  simp only [hlo, Bool.false_and, Bool.false_eq_true, if_false, pulses_plain _ hk hp, ite_self]

/-- A write that meets a locked field stores the others, where there are any, and is flagged. -/
theorem regWrite_locked (s : State) {k : Nat} {d : RegDesc} (hk : findReg k = some d) (hp : ∀ f ∈ d.fields, f.acc ≠ .w1p)
    (hl : s.locked = true) (hf : ∃ f ∈ d.fields, f.acc = .rwl) (view via off v : Nat) (o : Outer) :
    s.regWrite k view via off v o = (State.irqEdge s (if d.fields.all (fun f => f.acc != .rw) then s
      else s.storeWrite k (written s k view v d)) (pageOfKey k)).accErr 2 via off true := by
  have hlo : (s.locked && d.fields.any (fun f => f.acc == .rwl)) = true := by
    obtain ⟨f, hm, ha⟩ := hf
    rw [hl, Bool.true_and]
    exact List.any_eq_true.mpr ⟨f, hm, by rw [ha]; rfl⟩
  unfold State.regWrite written
  rw [hk]
  simp only [hlo, Bool.true_and, if_true, pulses_plain _ hk hp, ite_self]

/-! ### PF0's accesses -/

/-- An access through PF0 of the module that runs, before it is routed. -/
theorem access_settled {s : State} {at_ : Nat} (h : Awake s) (hx : s.bench.extest = false) (hs : Settled s at_) (off size : Nat)
    (write : Option Nat) (o : Outer) : s.access at_ 0 off size write o = (s.advance at_).pf0Access 0 off size write o := by
  have ha : s.answers = true := by unfold State.answers State.portsUp; rw [hx, h.1]; rfl
  unfold State.access
  rw [if_pos ha, upTo_settled _ _ hs]; rfl

/-- The flag that an access held by a reload leaves. -/
def heldFlag (s : State) (off : Nat) (write : Bool) : State := if s.reloading then s.accErr 5 0 off write else s

theorem pf0Offset_zero {off : Nat} (h : off < 0x20000000) : pf0Offset 0 off = some off := by
  unfold pf0Offset
  simp only [show (0 == 1) = false from rfl, show (0 == 2) = false from rfl, Bool.false_eq_true, if_false, if_pos h]

/-- The time of an access to the register at a key (R576). -/
abbrev keyTime (k : Nat) : Nat × Nat := accTime (k / 0x1000000) (decide (28 ≤ pageOfKey k))

/-- The offset of a register in PF0's normal view. -/
structure AtKey (k : Nat) (d : RegDesc) : Prop where
  reg : findReg k = some d
  aligned : k % 8 = 0
  low : k < 0x1C000000
  normal : k % 0x1000000 < 0x400000

theorem atKey_of_plain {k : Nat} {d : RegDesc} (h : plainReg k d) : AtKey k d := by
  obtain ⟨h1, h2, h3, h4, -⟩ := h
  exact ⟨h1, h2, h3, h4⟩

/-- Where an access to the register at a key lies, in the parts that the router tells apart. -/
structure Placed (k view off w : Nat) : Prop where
  low : off < 0x20000000
  window : off / 0x1000000 = w
  inView : off % 0x1000000 / 0x400000 = view
  atKey : off - view * 0x400000 = k
  aligned : off % 8 = 0
  mapped : w < 28

theorem placed_view {k d} (h : AtKey k d) {view : Nat} (hv : view < 4) :
    Placed k view (k + view * 0x400000) (k / 0x1000000) := by
  obtain ⟨-, hk8, hk, hm⟩ := h
  have : k = 0x1000000 * (k / 0x1000000) + k % 0x1000000 := (Nat.div_add_mod k _).symm
  refine ⟨by omega, by omega, by omega, by omega, by omega, by omega⟩

/-- The places that are no register's: the command port and the mailbox buffers. -/
structure NoBuffer (k w : Nat) : Prop where
  port : (w == 7 && decide (0x100000 ≤ k % 0x1000000) && decide (k % 0x1000000 < 0x110000)) = false
  mbox : (w == 0 && decide (0x1000 ≤ k % 0x1000000) && decide (k % 0x1000000 < 0x3000)) = false

theorem noBuffer_register {k d} (h : AtKey k d) : NoBuffer k (k / 0x1000000) :=
  ⟨(register_not_buffer h.reg h.low).1, (register_not_buffer h.reg h.low).2⟩

section
variable (s : State) {k view off w : Nat} {d : RegDesc}

/-- A write through a view reaches the register at its key. -/
theorem pf0Access_write (hk : findReg k = some d) (h : Placed k view off w) (hb : NoBuffer k w)
    (hs : view = 0 ∨ stsKey k = false) (v : Nat) (o : Outer) (hw : (heldFlag s off true).windowOff w = false) :
    s.pf0Access 0 off 8 (some v) o = (heldFlag s off true).routeWrite w
      (accTime w (decide (28 ≤ pageOfKey k))) (fun s => s.regWrite k view 0 off v o) := by
  obtain ⟨hlow, hwin, hview, hkey, hal, h28⟩ := h
  have hst : (view != 0 && stsKey k) = false := by rcases hs with rfl | hs <;> simp_all
  unfold heldFlag at *
  unfold State.pf0Access
  rw [pf0Offset_zero hlow]
  simp [hwin, hview, hkey, hal, hb.port, hb.mbox, h28, hw, hst, snapOf_register hk, hk, Nat.not_le.mpr h28]

/-- A read in the normal view reaches the register at its key. -/
theorem pf0Access_read (hk : findReg off = some d) (h : Placed off 0 off w) (hb : NoBuffer off w) (o : Outer)
    (hr : s.reloading = false) (hw : s.windowOff w = false) :
    s.pf0Access 0 off 8 none o = s.routeRead w (accTime w (decide (28 ≤ pageOfKey off))) (fun s => s.regRead off 0) := by
  obtain ⟨hlow, hwin, hview, hkey, hal, h28⟩ := h
  unfold State.pf0Access
  rw [pf0Offset_zero hlow]
  simp [hwin, hview, hal, hb.port, hb.mbox, h28, hw, hr, hk, Nat.not_le.mpr h28]

/-- A write of a status register by another address is flagged (R572). -/
theorem pf0Access_alias (h : Placed k view off w) (hv : view ≠ 0) (hs : stsKey k = true) (v : Nat) (o : Outer)
    (hb : NoBuffer k w) (hr : s.reloading = false) (hw : s.windowOff w = false) :
    s.pf0Access 0 off 8 (some v) o = s.routeWrite w (accTime w (decide (28 ≤ pageOfKey k))) (fun s => s.accErr 1 0 off true) := by
  obtain ⟨hlow, hwin, hview, hkey, hal, h28⟩ := h
  unfold State.pf0Access
  rw [pf0Offset_zero hlow]
  simp [hwin, hview, hkey, hal, hb.port, hb.mbox, h28, hw, hr, hv, hs, Nat.not_le.mpr h28]

/-- An access of the wrong size or alignment is flagged, and reaches nothing (R583). -/
theorem pf0Access_wrong (hlow : off < 0x20000000) (hwin : off / 0x1000000 = w) (h28 : w < 28)
    (hview : off % 0x1000000 / 0x400000 = 0) (hb : NoBuffer off w) {size : Nat} (hs : size ≠ 8 ∨ off % 8 ≠ 0)
    (write : Option Nat) (o : Outer) :
    s.pf0Access 0 off size write o = s.routeErr w 3 0 off 40 24 write.isSome (~~~0) := by
  have hwrong : (size != 8 || off % 8 != 0) = true := by simpa using hs
  unfold State.pf0Access
  rw [pf0Offset_zero hlow]
  simp [hwin, hview, hb.port, hb.mbox, h28, hwrong, Nat.not_le.mpr h28]

/-- A read of a window that is off is flagged, and reads all ones (R583). -/
theorem pf0Access_off (h : Placed off 0 off w) (hb : NoBuffer off w) (o : Outer) (hr : s.reloading = false)
    (hw : s.windowOff w = true) : s.pf0Access 0 off 8 none o = s.routeErr w 0 0 off 96 96 false (~~~0) := by
  obtain ⟨hlow, hwin, hview, hkey, hal, h28⟩ := h
  unfold State.pf0Access
  rw [pf0Offset_zero hlow]
  simp [hwin, hview, hal, hb.port, hb.mbox, h28, hw, hr, Nat.not_le.mpr h28]

/-- A read of an offset that holds nothing is flagged, and reads 0 (R583). -/
theorem pf0Access_unmapped (h : Placed off 0 off w) (hb : NoBuffer off w) (o : Outer) (hr : s.reloading = false)
    (hw : s.windowOff w = false) (hk : findReg off = none) (hsn : snapOf off = none) :
    s.pf0Access 0 off 8 none o = s.routeErr w 4 0 off 40 24 false 0 := by
  obtain ⟨hlow, hwin, hview, hkey, hal, h28⟩ := h
  unfold State.pf0Access
  rw [pf0Offset_zero hlow]
  simp [hwin, hview, hal, hb.port, hb.mbox, h28, hw, hr, hk, hsn, Nat.not_le.mpr h28]

end

end Sys2Proof.Laws
end

section
/-! PROOFS. Register accesses (R8, R9, R59, R297, R418, R504, R571 to R583): what O60 says. -/

namespace Sys2Proof.Laws

open Sys2Proof.Machine Sys2Proof.Safety

/-! ### Writes and reads of plain registers -/

section
variable {s : State} {k : Nat} {d : RegDesc}

/-- A write of a plain register that meets no locked field leaves the written fields in it, and nothing else. -/
theorem regWrite_plain (hi : Inv s) (h : plainReg k d) (hl : s.locked = false ∨ ∀ f ∈ d.fields, f.acc ≠ .rwl)
    (view via off v : Nat) (o : Outer) : OnlyParts [.regs, .outbox] s (s.regWrite k view via off v o) ∧
    OnlyRegs [k] s (s.regWrite k view via off v o) ∧
    (s.regWrite k view via off v o).regGet k = BitVec.ofNat 64 (written s k view v d) := by
  obtain ⟨hk, -, -, -, hp, -⟩ := id h
  rw [regWrite_stored s hk hp hl, storeWrite_plain s h]
  have hr := irqEdge_regs s (s.regPut k (BitVec.ofNat 64 (written s k view v d))) (pageOfKey k)
  refine ⟨((regPut_onlyParts s k _).mono (by decide)).then (irqEdge_onlyParts _ _ _) (by decide), fun k' hk' => ?_, ?_⟩
  · unfold State.regGet
    rw [hr]
    exact regGet_regPut_ne s k k' _ (by simpa using hk')
  · unfold State.regGet
    rw [hr]
    exact regGet_regPut_same s k _ hi.1.1

/-- A read of a register clears its RC fields (R574); PWR_RESTORE_STS then shows none since the last read (R563). -/
theorem clearRC_stands (hi : Inv s) (hk : findReg k = some d) : OnlyParts [.regs] s (s.clearRC k) ∧ OnlyRegs [k] s (s.clearRC k) ∧
    (s.clearRC k).regGet k = (if k = PWR_RESTORE_STS_KIND.base then 0
      else BitVec.ofNat 64 (clearFields (fun f => f.acc == .rc) d.fields (s.regGet k).toNat)) := by
  unfold State.clearRC
  rw [hk]
  simp only [beq_iff_eq]
  split <;> exact ⟨regPut_onlyParts s k _, fun k' hk' => regGet_regPut_ne s k k' _ (by simpa using hk'),
    regGet_regPut_same s k _ hi.1.1⟩

end

/-- The access of a write through a view of PF0. -/
theorem exec_viewWrite (s : State) (at_ : Nat) (k view : Nat) (hv : view < 4) (v : Word64) (o : Outer) :
    exec (if view = 0 then .regWrite at_ 0 k 8 (BitVec.ofNat 512 v.toNat) o else .aliasWrite at_ view k v o) s =
      .next (s.access at_ 0 (k + view * 0x400000) 8 (some v.toNat) o) := by
  split
  case isTrue h0 =>
    subst h0
    have hv : (BitVec.ofNat 512 v.toNat).toNat = v.toNat := by
      rw [BitVec.toNat_ofNat]; exact Nat.mod_eq_of_lt (lt_of_lt_of_le v.isLt (Nat.pow_le_pow_right (by decide) (by decide)))
    change Host.Outcome.next (s.access at_ 0 k 8 (some (BitVec.ofNat 512 v.toNat).toNat) o) = _
    rw [hv]; rfl
  case isFalse =>
    change Host.Outcome.next (s.access at_ 0 (k + view % 4 * 0x400000) 8 (some v.toNat) o) = _
    rw [Nat.mod_eq_of_lt hv]

/-- Without a reload no access is held. -/
theorem heldFlag_none {s : State} (h : s.power.reload = none) (off : Nat) (write : Bool) : heldFlag s off write = s := by
  unfold heldFlag State.reloading
  rw [h]; rfl

theorem reloading_none {s : State} (h : s.power.reload = none) : s.reloading = false := by
  unfold State.reloading; rw [h]; rfl

theorem only_after_advance {ks : List Nat} {s t : State} {c : Nat} (h : OnlyRegs ks (s.advance c) t) : OnlyRegs ks s t :=
  fun k hk => h k hk

theorem counts_after_advance {f : Fld} {n : Nat} {s t : State} {c : Nat} (h : Counts f n (s.advance c) t) : Counts f n s t := by
  unfold Counts at h ⊢
  rw [h, fget_advance]

theorem counts_of_regs {f : Fld} {n : Nat} {s u t : State} (h : Counts f n s u) (hr : t.regs = u.regs) : Counts f n s t := by
  unfold Counts at h ⊢
  rw [fget_congr hr, h]

section
variable {s : State} {at_ : Nat} (h : Awake s) (hx : s.bench.extest = false) (hs : Settled s at_)
  {k : Nat} {d : RegDesc}
include h hx hs

/-- A write through a view stores the writable fields of its register, after the write time of its window. -/
theorem exec_write_plain (hr : s.power.reload = none) (hp : plainReg k d) (hw : s.windowOff (k / 0x1000000) = false) {view : Nat}
    (hv : view < 4) (hsts : view = 0 ∨ stsKey k = false) (hl : s.locked = false ∨ ∀ f ∈ d.fields, f.acc ≠ .rwl) (v : Word64)
    (o : Outer) : ∃ t, exec (if view = 0 then .regWrite at_ 0 k 8 (BitVec.ofNat 512 v.toNat) o else .aliasWrite at_ view k v o) s =
        .next t ∧ t.now = (s.advance at_).now ∧
      t.regGet k = BitVec.ofNat 64 (writeFields view s.locked v.toNat d.fields (s.regGet k).toNat) ∧
      assocGet t.router.busy (k / 0x1000000) = some ((s.advance at_).accStart (k / 0x1000000) false + (keyTime k).2) ∧
      OnlyParts [.now, .regs, .router, .outbox] s t ∧ OnlyRegs [k] s t := by
  have hk := atKey_of_plain hp
  have e := pf0Access_write (s.advance at_) hk.reg (placed_view hk hv) (noBuffer_register hk) hsts v.toNat o
    (by rw [heldFlag_none (s := s.advance at_) hr]; exact hw)
  rw [heldFlag_none (s := s.advance at_) hr] at e
  have hi1 := ((advance_keeps (s := s.advance at_) ((s.advance at_).accStart (k / 0x1000000) false + (keyTime k).2)
    (advance_keeps at_ (.refl s))).inv h.2)
  obtain ⟨hf, ho, hg⟩ := regWrite_plain hi1 hp hl view 0 (k + view * 0x400000) v.toNat o
  obtain ⟨hparts, hnow, hregs, hbusy⟩ := routeWrite_stands (s.advance at_) (k / 0x1000000) (keyTime k)
    (fun s => s.regWrite k view 0 (k + view * 0x400000) v.toNat o) hf
  refine ⟨_, (exec_viewWrite s at_ k view hv v o).trans (congrArg Host.Outcome.next ((access_settled h hx hs _ 8 _ o).trans e)), hnow,
    ?_, hbusy, ((advance_onlyParts s at_).mono (by decide)).then hparts (by decide), only_after_advance (only_after_advance (ho.same hregs))⟩
  unfold State.regGet
  rw [hregs]
  exact hg

/-- A write of a status register by another address is flagged. -/
theorem exec_write_alias (hr : s.power.reload = none) (hk : AtKey k d) (hw : s.windowOff (k / 0x1000000) = false) {view : Nat}
    (hv : 1 ≤ view) (hv4 : view < 4) (hsts : stsKey k = true) (v : Word64) (o : Outer) :
    ∃ t, exec (.aliasWrite at_ view k v o) s = .next t ∧ t.fbit (accSts 1) = true ∧ Counts HULL_ACC_CNT_REFUSED 1 s t ∧
      OnlyParts [.now, .regs, .router, .outbox] s t ∧ OnlyRegs accRegs s t := by
  have e := pf0Access_alias (s.advance at_) (placed_view hk hv4) (by omega) hsts v.toNat o (noBuffer_register hk) (reloading_none hr) hw
  have hi1 := ((advance_keeps (s := s.advance at_) ((s.advance at_).accStart (k / 0x1000000) false + (keyTime k).2)
    (advance_keeps at_ (.refl s))).inv h.2)
  obtain ⟨hb, hc, -⟩ := accErr_shows hi1 (cause := 1) (via := 0) (by decide) (by decide) (k + view * 0x400000) true
  obtain ⟨hparts, -, hregs, -⟩ := routeWrite_stands (s.advance at_) (k / 0x1000000) (keyTime k)
    (fun s => s.accErr 1 0 (k + view * 0x400000) true) (accErr_onlyParts _ 1 (by decide) _ _)
  have hex := exec_viewWrite s at_ k view hv4 v o
  rw [if_neg (by omega)] at hex
  have ho := only_accErr ((s.advance at_).advance ((s.advance at_).accStart (k / 0x1000000) false + (keyTime k).2)) 1 (via := 0)
    (by decide) (k + view * 0x400000) true
  exact ⟨_, hex.trans (congrArg Host.Outcome.next ((access_settled h hx hs _ 8 _ o).trans e)), (fbit_congr hregs _).trans hb,
    counts_after_advance (counts_after_advance (counts_of_regs hc hregs)),
    ((advance_onlyParts s at_).mono (by decide)).then hparts (by decide), only_after_advance (only_after_advance (ho.same hregs))⟩

/-- A read answers after the read time with what it samples, and clears the RC fields. -/
theorem exec_read_plain (hr : s.power.reload = none) (hk : AtKey k d) (hw : s.windowOff (k / 0x1000000) = false) :
    ∃ t, exec (.regReadClear at_ 0 k 8) s = .next t ∧
      t.outbox = s.outbox ++ [.regReply ((s.advance at_).accStart (k / 0x1000000) true + (keyTime k).1)
        (((s.advance at_).advance ((s.advance at_).accStart (k / 0x1000000) true + (keyTime k).2)).regValue k)] ∧
      t.regGet k = (if k = PWR_RESTORE_STS_KIND.base then 0
        else BitVec.ofNat 64 (clearFields (fun f => f.acc == .rc) d.fields (s.regGet k).toNat)) ∧
      OnlyParts [.now, .regs, .router, .outbox] s t ∧ OnlyRegs [k] s t := by
  have e := pf0Access_read (s.advance at_) hk.reg (placed_view (view := 0) hk (by decide)) (noBuffer_register hk) outerOk
    (reloading_none hr) hw
  have hi1 := ((advance_keeps (s := s.advance at_) ((s.advance at_).accStart (k / 0x1000000) true + (keyTime k).2)
    (advance_keeps at_ (.refl s))).inv h.2)
  obtain ⟨hf, ho, hg⟩ := clearRC_stands hi1 hk.reg
  obtain ⟨hparts, hregs, hout⟩ := routeRead_stands (s.advance at_) (k / 0x1000000) (keyTime k) (fun s => s.regRead k 0) hf
  refine ⟨_, congrArg Host.Outcome.next ((access_settled h hx hs k 8 none outerOk).trans e), hout, ?_,
    ((advance_onlyParts s at_).mono (by decide)).then hparts (by decide), only_after_advance (only_after_advance (ho.same hregs))⟩
  unfold State.regGet
  rw [hregs]
  exact hg

end

end Sys2Proof.Laws
end

section
/-! PROOFS. Register accesses with a rule of their own: locked fields, flagged accesses, the reload, the HDM window, the clock
source and the release of a hold (R8, R59, R297, R418, R504, R583). -/

namespace Sys2Proof.Laws

open Sys2Proof.Machine Sys2Proof.Safety

theorem counts_before {ks : List Nat} {f : Fld} {n : Nat} {s u t : State} (h : OnlyRegs ks s u) (hf : f.base ∉ ks)
    (hc : Counts f n u t) : Counts f n s t := by
  unfold Counts at hc ⊢
  rw [hc, h.fget f hf]

/-! ### Locked fields (R8) -/

/-- The registers of the access errors have no locked field. -/
theorem not_accReg_of_locked {k : Nat} {d : RegDesc} (hk : findReg k = some d) (hf : ∃ f ∈ d.fields, f.acc = .rwl) : k ∉ accRegs := by
  have h : ∀ k ∈ accRegs, (findReg k).all (fun d => d.fields.all (fun f => f.acc != .rwl)) = true := by decide +kernel
  intro hm
  have := h k hm
  rw [hk] at this
  obtain ⟨f, hf, ha⟩ := hf
  simpa [ha] using List.all_eq_true.mp this f hf

/-- The register before the access is flagged: the unlocked fields stored, where there are any. -/
def unlockedStored (s : State) (k view v : Nat) (d : RegDesc) : State :=
  State.irqEdge s (if d.fields.all (fun f => f.acc != .rw) then s else s.regPut k (BitVec.ofNat 64 (written s k view v d))) (pageOfKey k)

section
variable {s : State} {k : Nat} {d : RegDesc}

theorem unlockedStored_stands (hi : Inv s) (hk : findReg k = some d) (view v : Nat) :
    OnlyParts [.regs, .outbox] s (unlockedStored s k view v d) ∧ OnlyRegs [k] s (unlockedStored s k view v d) ∧
    Inv (unlockedStored s k view v d) ∧ (s.locked = true → ∀ f ∈ d.fields, f.acc = .rwl →
      getBits ((unlockedStored s k view v d).regGet k).toNat f.lo f.wd = getBits (s.regGet k).toNat f.lo f.wd) := by
  unfold unlockedStored
  split
  case isTrue =>
    have hr := irqEdge_regs s s (pageOfKey k)
    exact ⟨(irqEdge_onlyParts s s _).mono (by decide), fun k' _ => regGet_congr hr k', (irqEdge_keeps s s _ (.refl s)).inv hi,
      fun _ f _ _ => by rw [regGet_congr hr]⟩
  case isFalse =>
    have hr := irqEdge_regs s (s.regPut k (BitVec.ofNat 64 (written s k view v d))) (pageOfKey k)
    refine ⟨((regPut_onlyParts s k _).mono (by decide)).then (irqEdge_onlyParts _ _ _) (by decide),
      OnlyRegs.same (fun k' hk' => regGet_regPut_ne s k k' _ (by simpa using hk')) hr,
      (irqEdge_keeps _ _ _ (regPut_keeps _ _ (.refl s))).inv hi, fun hl f hf ha => ?_⟩
    have hfit := fieldsFit_of_findReg hk
    have hlt := writeFields_lt view s.locked v d.fields hfit.1 (s.regGet k).toNat (s.regGet k).isLt
    rw [regGet_congr hr, regGet_regPut_same s k _ hi.1.1, BitVec.toNat_ofNat]
    unfold written
    rw [Nat.mod_eq_of_lt hlt]
    rw [hl]
    exact getBits_writeFields_locked view v ha d.fields hfit hf _

theorem regWrite_locked_plain (hp : plainReg k d) (hl : s.locked = true) (hf : ∃ f ∈ d.fields, f.acc = .rwl) (view via off v : Nat)
    (o : Outer) : s.regWrite k view via off v o = (unlockedStored s k view v d).accErr 2 via off true := by
  obtain ⟨hk, -, -, -, hw, -⟩ := id hp
  rw [regWrite_locked s hk hw hl hf, storeWrite_plain s hp]
  rfl

end

section
variable {s : State} {at_ : Nat} (h : Awake s) (hx : s.bench.extest = false) (hs : Settled s at_)
include h hx hs

/-- A write that meets a locked field is flagged, and the locked fields stand. -/
theorem exec_write_locked {k : Nat} {d : RegDesc} (hr : s.power.reload = none) (hp : plainReg k d)
    (hw : s.windowOff (k / 0x1000000) = false) (hl : s.locked = true) (hf : ∃ f ∈ d.fields, f.acc = .rwl) (v : Word64) (o : Outer) :
    ∃ t, exec (.regWrite at_ 0 k 8 (BitVec.ofNat 512 v.toNat) o) s = .next t ∧ t.fbit (accSts 2) = true ∧
      Counts HULL_ACC_CNT_REFUSED 1 s t ∧ (∀ f ∈ d.fields, f.acc = .rwl →
        getBits (t.regGet k).toNat f.lo f.wd = getBits (s.regGet k).toNat f.lo f.wd) ∧
      OnlyParts [.now, .regs, .router, .outbox] s t := by
  have hk := atKey_of_plain hp
  have e := pf0Access_write (s.advance at_) hk.reg (placed_view (view := 0) hk (by decide)) (noBuffer_register hk) (.inl rfl) v.toNat o
    (by rw [heldFlag_none (s := s.advance at_) hr]; exact hw)
  rw [heldFlag_none (s := s.advance at_) hr] at e
  have hi1 := ((advance_keeps (s := s.advance at_) ((s.advance at_).accStart (k / 0x1000000) false + (keyTime k).2)
    (advance_keeps at_ (.refl s))).inv h.2)
  obtain ⟨hup, huo, hui, hub⟩ := unlockedStored_stands hi1 hk.reg 0 v.toNat
  have hwr := regWrite_locked_plain
    (s := (s.advance at_).advance ((s.advance at_).accStart (k / 0x1000000) false + (keyTime k).2)) hp hl hf 0 0
    (k + 0 * 0x400000) v.toNat o
  obtain ⟨hb, hc, -⟩ := accErr_shows hui (cause := 2) (via := 0) (by decide) (by decide) (k + 0 * 0x400000) true
  have hao := only_accErr (unlockedStored ((s.advance at_).advance ((s.advance at_).accStart (k / 0x1000000) false + (keyTime k).2))
    k 0 v.toNat d) 2 (via := 0) (by decide) (k + 0 * 0x400000) true
  have hne := not_accReg_of_locked hk.reg hf
  obtain ⟨hparts, -, hregs, -⟩ := routeWrite_stands (s.advance at_) (k / 0x1000000) (keyTime k)
    (fun s => s.regWrite k 0 0 (k + 0 * 0x400000) v.toNat o)
    (by rw [hwr]; exact hup.then (accErr_onlyParts _ 2 (by decide) _ _) (by decide))
  rw [hwr] at hregs
  have hcnt := counts_before huo (fun hm => hne (by rw [← List.mem_singleton.mp hm]; decide)) hc
  refine ⟨_, (exec_viewWrite s at_ k 0 (by decide) v o).trans (congrArg Host.Outcome.next ((access_settled h hx hs _ 8 _ o).trans e)),
    (fbit_congr hregs _).trans hb, counts_after_advance (counts_after_advance (counts_of_regs hcnt hregs)), fun f hm ha => ?_,
    ((advance_onlyParts s at_).mono (by decide)).then hparts (by decide)⟩
  rw [regGet_congr hregs, hao k hne]
  exact hub hl f hm ha

/-! ### Flagged accesses -/

/-- A read that reaches no register is flagged and answered at once. -/
theorem exec_flagged {off size w cause rd wr : Nat} {d : Word64} {o : Outer} (hc : cause < 6)
    (e : (s.advance at_).pf0Access 0 off size none o = (s.advance at_).routeErr w cause 0 off rd wr false d) :
    ∃ t, exec (.accessError at_ 0 off size none o) s = .next t ∧ t.fbit (accSts cause) = true ∧
      t.outbox.getLast? = some (.regReply ((s.advance at_).accStart w true + rd) d) ∧ Counts (accCnt cause) 1 s t ∧
      (s.fbit HULL_ACC_FIRST_VALID = false → Shows HULL_ACC_FIRST_OFFSET off t ∧ t.fget HULL_ACC_FIRST_CAUSE = cause) ∧
      OnlyParts [.now, .regs, .router, .outbox] s t ∧ OnlyRegs accRegs s t := by
  have hi1 := (advance_keeps at_ (.refl s)).inv h.2
  obtain ⟨hb, hcn, hf⟩ := accErr_shows hi1 hc (via := 0) (by decide) off false
  obtain ⟨hp, hregs, hl⟩ := routeErr_stands (s.advance at_) w cause (via := 0) (by decide) off rd wr false d
  refine ⟨_, congrArg Host.Outcome.next ((access_settled h hx hs off size none o).trans e), (fbit_congr hregs _).trans hb, hl rfl,
    counts_after_advance (counts_of_regs hcn hregs), fun hv => ?_, ((advance_onlyParts s at_).mono (by decide)).then hp (by decide),
    only_after_advance ((only_accErr _ cause (by decide) _ _).same hregs)⟩
  unfold Shows
  rw [fget_congr hregs, fget_congr hregs]
  exact hf hv

/-- A write of the wrong size is flagged. -/
theorem exec_flagged_write {off size w rd wr : Nat} {d v : Word64} {o : Outer}
    (e : (s.advance at_).pf0Access 0 off size (some v.toNat) o = (s.advance at_).routeErr w 3 0 off rd wr true d) :
    ∃ t, exec (.accessError at_ 0 off size (some v) o) s = .next t ∧ t.fbit (accSts 3) = true ∧
      OnlyParts [.now, .regs, .router, .outbox] s t ∧ OnlyRegs accRegs s t := by
  have hi1 := (advance_keeps at_ (.refl s)).inv h.2
  obtain ⟨hb, -, -⟩ := accErr_shows hi1 (cause := 3) (via := 0) (by decide) (by decide) off true
  obtain ⟨hp, hregs, -⟩ := routeErr_stands (s.advance at_) w 3 (via := 0) (by decide) off rd wr true d
  exact ⟨_, congrArg Host.Outcome.next ((access_settled h hx hs off size _ o).trans e), (fbit_congr hregs _).trans hb,
    ((advance_onlyParts s at_).mono (by decide)).then hp (by decide),
    only_after_advance ((only_accErr _ 3 (by decide) _ _).same hregs)⟩

/-! ### An access that a reload holds (R504) -/

theorem exec_write_held {k c : Nat} {d : RegDesc} (hr : s.power.reload = some c) (hp : plainReg k d)
    (hw : s.windowOff (k / 0x1000000) = false) (hl : s.locked = false) (hne : k ∉ accRegs) (v : Word64) (o : Outer) :
    ∃ t, exec (.accessReloadHeld at_ 0 k 8 (some v) o) s = .next t ∧ t.fbit (accSts 5) = true ∧ Counts HULL_ACC_CNT_HELD 1 s t ∧
      t.regGet k = BitVec.ofNat 64 (writeFields 0 false v.toNat d.fields (s.regGet k).toNat) ∧
      (assocGet t.router.busy (k / 0x1000000)).any (fun x => decide (c + (keyTime k).2 ≤ x)) = true ∧
      OnlyParts [.now, .regs, .router, .outbox] s t ∧ OnlyRegs (k :: accRegs) s t := by
  have hk := atKey_of_plain hp
  have hheld : heldFlag (s.advance at_) (k + 0 * 0x400000) true = (s.advance at_).accErr 5 0 (k + 0 * 0x400000) true := by
    unfold heldFlag State.reloading
    rw [show (s.advance at_).power.reload = some c from hr]; rfl
  have hi1 := (advance_keeps at_ (.refl s)).inv h.2
  have e := pf0Access_write (s.advance at_) hk.reg (placed_view (view := 0) hk (by decide)) (noBuffer_register hk) (.inl rfl) v.toNat o
  rw [hheld] at e
  have hpa := accErr_onlyParts (s.advance at_) 5 (via := 0) (by decide) (k + 0 * 0x400000) true
  have hoa := only_accErr (s.advance at_) 5 (via := 0) (by decide) (k + 0 * 0x400000) true
  have hui := accErr_inv hi1 5 0 (k + 0 * 0x400000) true
  obtain ⟨hb, hc, -⟩ := accErr_shows hi1 (cause := 5) (via := 0) (by decide) (by decide) (k + 0 * 0x400000) true
  generalize (s.advance at_).accErr 5 0 (k + 0 * 0x400000) true = u at *
  have e := e ((windowOff_congr (hpa .power (by decide)) (hoa.fget _ (by decide)) (hoa.fget _ (by decide)) _).trans hw)
  have hi2 := (advance_keeps (u.accStart (k / 0x1000000) false + (keyTime k).2) (.refl u)).inv hui
  have hlu : (u.advance (u.accStart (k / 0x1000000) false + (keyTime k).2)).locked = false := by
    have : u.locked = s.locked := by
      unfold State.locked
      rw [hpa .ctxs (by decide), hpa .router (by decide)]; rfl
    exact this.trans hl
  obtain ⟨hf, ho, hg⟩ := regWrite_plain hi2 hp (.inl hlu) 0 0 (k + 0 * 0x400000) v.toNat o
  obtain ⟨hparts, -, hregs, hbusy⟩ := routeWrite_stands u (k / 0x1000000) (keyTime k)
    (fun s => s.regWrite k 0 0 (k + 0 * 0x400000) v.toNat o) hf
  have ho' := only_after_advance (ho.same hregs)
  refine ⟨_, congrArg Host.Outcome.next ((access_settled h hx hs k 8 _ o).trans e), ?_, ?_, ?_, ?_,
    (((advance_onlyParts s at_).mono (by decide)).then hpa (by decide)).then hparts (by decide), ?_⟩
  · exact (ho'.fbit _ (fun hm => hne (by rw [← List.mem_singleton.mp hm]; decide))).trans hb
  · refine counts_after_advance (c := at_) ?_
    change Counts (accCnt 5) 1 _ _
    unfold Counts at hc ⊢
    rw [← hc]
    exact ho'.fget _ (fun hm => hne (by rw [← List.mem_singleton.mp hm]; decide))
  · rw [regGet_congr hregs, hg]
    unfold written
    rw [hlu]
    exact congrArg (fun x => BitVec.ofNat 64 (writeFields 0 false v.toNat d.fields (BitVec.toNat x))) (hoa k hne)
  · rw [hbusy]
    simp only [Option.any_some, decide_eq_true_eq]
    have : c ≤ u.accStart (k / 0x1000000) false := by
      have hru : u.power.reload = some c := by rw [hpa .power (by decide)]; exact hr
      unfold State.accStart
      rw [hru]
      simp only [Option.getD_some, Bool.false_and, Bool.false_eq_true, if_false]
      omega
    omega
  · exact ((only_after_advance hoa).mono (fun _ hm => .tail _ hm)).trans (ho'.mono (by simp))

end

end Sys2Proof.Laws
end

section
/-! PROOFS. The pieces of the HDM window, the clock source and the release of a hold (R59, R297, R418), and what O60 says. -/

namespace Sys2Proof.Laws

open Sys2Proof.Machine Sys2Proof.Safety

/-! ### A write that reaches its register while nothing is locked -/

section
variable {s : State} {at_ : Nat} (h : Awake s) (hx : s.bench.extest = false) (hs : Settled s at_)
include h hx hs

/-- A write of an unlocked register without actions is what storing it makes of the state. -/
theorem access_stored {k : Nat} {d : RegDesc} (hk : AtKey k d) (hp : ∀ f ∈ d.fields, f.acc ≠ .w1p) (hr : s.power.reload = none)
    (hw : s.windowOff (k / 0x1000000) = false) (hl : s.locked = false) (v : Nat)
    (hst : ∀ u : State, Inv u → OnlyParts [.now] s u → OnlyParts [.regs, .outbox] u (u.storeWrite k (written u k 0 v d))) :
    ∃ u, Inv u ∧ OnlyParts [.now] s u ∧ OnlyParts [.now, .regs, .router, .outbox] s (s.access at_ 0 k 8 (some v) outerOk) ∧
      (s.access at_ 0 k 8 (some v) outerOk).regs = (u.storeWrite k (written u k 0 v d)).regs := by
  have e := pf0Access_write (s.advance at_) hk.reg (placed_view (view := 0) hk (by decide)) (noBuffer_register hk) (.inl rfl) v outerOk
    (by rw [heldFlag_none (s := s.advance at_) hr]; exact hw)
  rw [heldFlag_none (s := s.advance at_) hr] at e
  have e' := (access_settled h hx hs (k + 0 * 0x400000) 8 (some v) outerOk).trans e
  rw [Nat.zero_mul, Nat.add_zero] at e'
  have hu : OnlyParts [.now] s ((s.advance at_).advance ((s.advance at_).accStart (k / 0x1000000) false + (keyTime k).2)) :=
    (advance_onlyParts s at_).then (advance_onlyParts _ _) (by decide)
  have hi := ((advance_keeps (s := s.advance at_) ((s.advance at_).accStart (k / 0x1000000) false + (keyTime k).2)
    (advance_keeps at_ (.refl s))).inv h.2)
  have hwr := regWrite_stored ((s.advance at_).advance ((s.advance at_).accStart (k / 0x1000000) false + (keyTime k).2)) hk.reg hp
    (.inl hl) 0 0 k v outerOk
  obtain ⟨hparts, -, hregs, -⟩ := routeWrite_stands (s.advance at_) (k / 0x1000000) (keyTime k)
    (fun s => s.regWrite k 0 0 k v outerOk) (by rw [hwr]; exact (hst _ hi hu).then (irqEdge_onlyParts _ _ _) (by decide))
  refine ⟨_, hi, hu, ?_, ?_⟩
  · rw [e']; exact ((advance_onlyParts s at_).mono (by decide)).then hparts (by decide)
  · rw [e']
    refine hregs.trans ?_
    rw [hwr]
    exact irqEdge_regs _ _ _

end

/-! ### The pieces of the HDM window (R418) -/

/-- The description of HOST_HDMi. -/
def hdmReg : RegDesc := (findReg HOST_HDM_EN.base).getD ⟨.hull, 0, 0, 0, []⟩

theorem hdmReg_facts {i : Nat} (hi : i < 4) : findReg (HOST_HDM_EN.ix i).base = some hdmReg ∧ (HOST_HDM_EN.ix i).base % 8 = 0 ∧
    (HOST_HDM_EN.ix i).base < 0x1C000000 ∧ (HOST_HDM_EN.ix i).base % 0x1000000 < 0x400000 ∧
    (HOST_HDM_EN.ix i).base / 0x1000000 = 4 ∧ HOST_HDM_EN.base ≤ (HOST_HDM_EN.ix i).base ∧
    (HOST_HDM_EN.ix i).base < HOST_HDM_EN.base + 32 ∧ ((HOST_HDM_EN.ix i).base - HOST_HDM_EN.base) / 8 = i ∧
    (HOST_HDM_EN.ix i).base ≠ TICK_CLKSRC.base := by
  revert i
  decide +kernel

theorem hdmReg_fields : (∀ f ∈ hdmReg.fields, f.acc ≠ .w1p) ∧ (∀ p ∈ [(0, 1), (1, 4), (5, 6)],
    ∃ f ∈ hdmReg.fields, f.acc = .rwl ∧ f.lo = p.1 ∧ f.wd = p.2) := by
  decide +kernel

/-- The fields of a written register where none is locked. -/
theorem getBits_written {s : State} {k : Nat} {d : RegDesc} (hk : findReg k = some d) (hl : s.locked = false) (v : Nat) {lo wd : Nat}
    (hf : ∃ f ∈ d.fields, f.acc = .rwl ∧ f.lo = lo ∧ f.wd = wd) : getBits (written s k 0 v d) lo wd = getBits v lo wd := by
  obtain ⟨f, hm, ha, rfl, rfl⟩ := hf
  unfold written
  rw [getBits_writeFields _ _ _ (fieldsFit_of_findReg hk) hm, if_pos (by simp [writable, ha, hl])]

theorem hdmFields_apart (i : Nat) : FieldsApart [HOST_HDM_EN.ix i, HOST_HDM_STACK.ix i, HOST_HDM_BASE.ix i] ∧
    (HOST_HDM_STACK.ix i).base = (HOST_HDM_EN.ix i).base ∧ (HOST_HDM_BASE.ix i).base = (HOST_HDM_EN.ix i).base := by
  refine ⟨?_, rfl, rfl⟩
  unfold FieldsApart
  simp [Fld.ix, apart, HOST_HDM_EN, HOST_HDM_STACK, HOST_HDM_BASE]

/-- The piece that a write would map meets an enabled one. -/
def hdmClash (s : State) (i v : Nat) : Prop :=
  v % 2 = 1 ∧ ∃ k ∈ [0, 1, 2, 3], k ≠ i ∧ s.fbit (HOST_HDM_EN.ix k) = true ∧
    meet (getBits v 1 4 * 0x1000000000 + getBits v 5 6 * 0x40000000) 0x400000000 (s.hdmBase k) 0x400000000 = true

theorem hdmClash_iff (s : State) (i v : Nat) : (v % 2 == 1 && (range' 0 4).any (fun k => k != i && s.fbit (HOST_HDM_EN.ix k) &&
    meet (getBits v 1 4 * 0x1000000000 + getBits v 5 6 * 0x40000000) 0x400000000 (s.hdmBase k) 0x400000000)) = true ↔
    hdmClash s i v := by
  unfold hdmClash
  rw [Bool.and_eq_true, beq_iff_eq, List.any_eq_true]
  refine and_congr_right fun _ => exists_congr fun k => ?_
  simp only [Bool.and_eq_true, bne_iff_ne, ne_eq, and_assoc]
  rfl

theorem hdmWrite_onlyParts (s : State) (i v : Nat) : OnlyParts [.regs, .outbox] s (s.hdmWrite i v) :=
  .ite (setSts_onlyParts s 4 _) ((fsetAll_onlyParts s _).mono (by decide))

theorem hdmWrite_clash {s : State} (hi : Inv s) {i v : Nat} (h : hdmClash s i v) :
    (s.hdmWrite i v).fbit HOST_STS_HDM_CONFLICT = true ∧ OnlyRegs [HOST_STS_HDM_CONFLICT.base] s (s.hdmWrite i v) := by
  unfold State.hdmWrite
  simp only
  rw [if_pos ((hdmClash_iff s i v).mpr h)]
  exact ⟨fbit_setSts s 4 _ hi.1.1 (by decide) rfl, only_setSts s 4 _ (.head _)⟩

theorem hdmWrite_mapped {s : State} (hi : Inv s) {i v : Nat} (h : ¬ hdmClash s i v) :
    (s.hdmWrite i v).fget (HOST_HDM_EN.ix i) = v % 2 ∧
    (s.hdmWrite i v).hdmBase i = getBits v 1 4 * 0x1000000000 + getBits v 5 6 * 0x40000000 ∧
    OnlyRegs [(HOST_HDM_EN.ix i).base] s (s.hdmWrite i v) := by
  unfold State.hdmWrite
  simp only
  rw [if_neg (fun hc => h ((hdmClash_iff s i v).mp hc))]
  have ha := (hdmFields_apart i).1
  have hm : ∀ {f x}, (f, x) ∈ [(HOST_HDM_EN.ix i, v), (HOST_HDM_STACK.ix i, getBits v 1 4), (HOST_HDM_BASE.ix i, getBits v 5 6)] →
      (s.fsetAll [(HOST_HDM_EN.ix i, v), (HOST_HDM_STACK.ix i, getBits v 1 4), (HOST_HDM_BASE.ix i, getBits v 5 6)]).fget f =
        x % 2 ^ f.wd := fun hm => fget_fsetAll_mem _ s hi.1.1 ha hm
  refine ⟨hm (.head _), ?_, only_fsetAll _ s ?_⟩
  · unfold State.hdmBase
    rw [hm (.tail _ (.head _)), hm (.tail _ (.tail _ (.head _)))]
    exact congrArg₂ (fun a b => a * 0x1000000000 + b * 0x40000000) (Nat.mod_mod _ _) (Nat.mod_mod _ _)
  · simp only [List.forall_mem_cons, List.not_mem_nil, false_implies, implies_true, and_true]
    exact ⟨.head _, .head _, .head _⟩

theorem storeWrite_hdm (s : State) {i : Nat} (hi : i < 4) (new : Nat) :
    s.storeWrite (HOST_HDM_EN.ix i).base new = s.hdmWrite i new := by
  obtain ⟨-, -, -, -, -, hlo, hhi, hix, hclk⟩ := hdmReg_facts hi
  unfold State.storeWrite
  rw [if_neg (by simpa using hclk), if_pos (by simp only [Bool.and_eq_true, decide_eq_true_eq]; exact ⟨hlo, hhi⟩), hix]

/-- What a write would map depends on the written piece and the others alone. -/
theorem hdmClash_congr {s u : State} (hr : u.regs = s.regs) {i v v' : Nat} (h0 : v' % 2 = v % 2) (h1 : getBits v' 1 4 = getBits v 1 4)
    (h5 : getBits v' 5 6 = getBits v 5 6) : hdmClash u i v' ↔ hdmClash s i v := by
  have hb : ∀ k, u.hdmBase k = s.hdmBase k := fun k => by
    unfold State.hdmBase; rw [fget_congr hr, fget_congr hr]
  unfold hdmClash
  simp only [h0, h1, h5, hb, fbit_congr hr]

section
variable {s : State} {at_ : Nat} (h : Awake s) (hx : s.bench.extest = false) (hs : Settled s at_)
include h hx hs

/-- A write of HOST_HDMi, seen through what it writes. -/
theorem access_hdm {i : Nat} (hi : i < 4) (hr : s.power.reload = none) (hw : s.windowOff 4 = false) (hl : s.locked = false)
    (v : Nat) : ∃ u new, Inv u ∧ u.regs = s.regs ∧ new % 2 = v % 2 ∧ getBits new 1 4 = getBits v 1 4 ∧
      getBits new 5 6 = getBits v 5 6 ∧
      OnlyParts [.now, .regs, .router, .outbox] s (s.access at_ 0 (HOST_HDM_EN.ix i).base 8 (some v) outerOk) ∧
      (s.access at_ 0 (HOST_HDM_EN.ix i).base 8 (some v) outerOk).regs = (u.hdmWrite i new).regs := by
  obtain ⟨hreg, h8, hlow, hn, hwin, -⟩ := hdmReg_facts hi
  obtain ⟨hp, hf⟩ := hdmReg_fields
  obtain ⟨u, hiu, hu, hparts, hregs⟩ := access_stored h hx hs ⟨hreg, h8, hlow, hn⟩ hp hr (by rw [hwin]; exact hw) hl v
    (fun u _ _ => by rw [storeWrite_hdm u hi]; exact hdmWrite_onlyParts u i _)
  have hlu : u.locked = false := by
    rw [← hl]; unfold State.locked; rw [hu .ctxs (by decide), hu .router (by decide)]
  rw [storeWrite_hdm u hi] at hregs
  have h0 := getBits_written hreg hlu v (hf (0, 1) (by decide))
  simp only [getBits, pow_zero, Nat.div_one, pow_one] at h0
  exact ⟨u, _, hiu, hu .regs (by decide), h0, getBits_written hreg hlu v (hf (1, 4) (by decide)),
    getBits_written hreg hlu v (hf (5, 6) (by decide)), hparts, hregs⟩

theorem exec_hdmWrite_clash {i : Nat} (hi : i < 4) (hr : s.power.reload = none) (hw : s.windowOff 4 = false) (hl : s.locked = false)
    (v : Word64) (hc : hdmClash s i v.toNat) : ∃ t, exec (.hdmWrite at_ i v) s = .next t ∧ t.fbit HOST_STS_HDM_CONFLICT = true ∧
      OnlyParts [.now, .regs, .router, .outbox] s t ∧ OnlyRegs [HOST_STS_HDM_CONFLICT.base] s t := by
  obtain ⟨u, new, hiu, hur, h0, h1, h5, hparts, hregs⟩ := access_hdm h hx hs hi hr hw hl v.toNat
  obtain ⟨hb, ho⟩ := hdmWrite_clash hiu ((hdmClash_congr hur h0 h1 h5).mpr hc)
  refine ⟨_, ?_, (fbit_congr hregs _).trans hb, hparts, fun k hk => ?_⟩
  · change Host.Outcome.next (s.access at_ 0 (HOST_HDM_EN.ix (i % 4)).base 8 _ outerOk) = _
    rw [Nat.mod_eq_of_lt hi]
  · rw [regGet_congr hregs, ho k hk, regGet_congr hur]

theorem exec_hdmWrite_mapped {i : Nat} (hi : i < 4) (hr : s.power.reload = none) (hw : s.windowOff 4 = false) (hl : s.locked = false)
    (v : Word64) (hc : ¬ hdmClash s i v.toNat) : ∃ t, exec (.hdmWrite at_ i v) s = .next t ∧
      t.fget (HOST_HDM_EN.ix i) = v.toNat % 2 ∧
      t.hdmBase i = getBits v.toNat 1 4 * 0x1000000000 + getBits v.toNat 5 6 * 0x40000000 ∧
      OnlyParts [.now, .regs, .router, .outbox] s t ∧ OnlyRegs [(HOST_HDM_EN.ix i).base] s t := by
  obtain ⟨u, new, hiu, hur, h0, h1, h5, hparts, hregs⟩ := access_hdm h hx hs hi hr hw hl v.toNat
  obtain ⟨he, hb, ho⟩ := hdmWrite_mapped hiu (fun hm => hc ((hdmClash_congr hur h0 h1 h5).mp hm))
  refine ⟨_, ?_, (fget_congr hregs _).trans (he.trans h0), ?_, hparts, fun k hk => ?_⟩
  · change Host.Outcome.next (s.access at_ 0 (HOST_HDM_EN.ix (i % 4)).base 8 _ outerOk) = _
    rw [Nat.mod_eq_of_lt hi]
  · rw [← h1, ← h5, ← hb]
    unfold State.hdmBase
    rw [fget_congr hregs, fget_congr hregs]
  · rw [regGet_congr hregs, ho k hk, regGet_congr hur]

/-! ### The clock source (R59) -/

theorem exec_clksrcWrite {src : Nat} (hsrc : src ≤ 16) (hr : s.power.reload = none) (hw : s.windowOff 1 = false)
    (hl : s.locked = false) : ∃ t, exec (.clksrcWrite at_ src) s = .next t ∧ t.fget TICK_CLKSRC_SRC = src ∧
      t.fbit TICK_CLKSRC_LOCKED = false ∧ OnlyParts [.now, .regs, .router, .outbox] s t ∧ OnlyRegs [TICK_CLKSRC.base] s t := by
  obtain ⟨d, hreg, hp, hf⟩ : ∃ d, findReg TICK_CLKSRC.base = some d ∧ (∀ f ∈ d.fields, f.acc ≠ .w1p) ∧
      ∃ f ∈ d.fields, f.acc = .rwl ∧ f.lo = 0 ∧ f.wd = 5 := ⟨_, rfl, by decide, by decide⟩
  have hst : ∀ u : State, ∀ new, u.storeWrite TICK_CLKSRC.base new = u.clksrcWrite (new % 32) := fun u new => rfl
  obtain ⟨u, hiu, hu, hparts, hregs⟩ := access_stored h hx hs ⟨hreg, by decide, by decide, by decide⟩ hp hr hw hl (src % 32)
    (fun u _ _ => by
      rw [hst]
      exact OnlyParts.ite (.refl _ u) ((fsetAll_onlyParts u _).mono (by decide)))
  have hlu : u.locked = false := by
    rw [← hl]; unfold State.locked; rw [hu .ctxs (by decide), hu .router (by decide)]
  have h0 := getBits_written hreg hlu (src % 32) hf
  have h0 : written u TICK_CLKSRC.base 0 (src % 32) d % 32 = src := by
    simp only [getBits, pow_zero, Nat.div_one, show (2 : Nat) ^ 5 = 32 from rfl] at h0
    omega
  rw [hst, h0] at hregs
  unfold State.clksrcWrite at hregs
  rw [if_neg (by omega)] at hregs
  have hm : ∀ {f x}, (f, x) ∈ [(TICK_CLKSRC_SRC, src), (TICK_CLKSRC_LOCKED, 0)] →
      (u.fsetAll [(TICK_CLKSRC_SRC, src), (TICK_CLKSRC_LOCKED, 0)]).fget f = x % 2 ^ f.wd := fun hm =>
    fget_fsetAll_mem _ u hiu.1.1 (by change FieldsApart [TICK_CLKSRC_SRC, TICK_CLKSRC_LOCKED]; unfold FieldsApart; decide) hm
  refine ⟨_, rfl, ?_, ?_, hparts, fun k hk => ?_⟩
  · rw [fget_congr hregs, hm (.head _)]
    exact Nat.mod_eq_of_lt (lt_of_le_of_lt hsrc (by decide))
  · rw [fbit_congr hregs]
    exact fbit_of_zero (hm (.tail _ (.head _)))
  · rw [regGet_congr hregs, only_fsetAll (ks := [TICK_CLKSRC.base]) _ u
      (List.forall_mem_cons.mpr ⟨.head _, List.forall_mem_cons.mpr ⟨.head _, fun _ hm => absurd hm List.not_mem_nil⟩⟩) k hk, regGet_congr (hu .regs (by decide))]

end

/-! ### The release of a hold (R297) -/

theorem exec_holdRelease_runs {s : State} (h : Awake s) : exec .holdRelease s = .next s.holdRelease :=
  congrArg Host.Outcome.next (live_runs h.1 _)

theorem exec_holdRelease_pending {s : State} (h : Awake s) (hm : s.fbit HULL_ORCH_MASTER = true) (hh : s.ccr.hold = true)
    (hj : s.job.ctx ≠ none) : ∃ t, exec .holdRelease s = .next t ∧ t.job.releasePending = true ∧
      t.fbit COMMIT_HOLD_RELEASE_PENDING = true ∧ OnlyParts [.regs, .job] s t := by
  have he : s.holdRelease = (s.withJob (fun j => { j with releasePending := true })).fset COMMIT_HOLD_RELEASE_PENDING 1 := by
    unfold State.holdRelease
    rw [hm, hh, Option.isSome_iff_ne_none.mpr hj]; rfl
  refine ⟨_, exec_holdRelease_runs h, ?_⟩
  rw [he]
  exact ⟨rfl, fbit_of_fget (fget_fset_same _ _ 1 h.2.1.1 (by decide)),
    ((withJob_onlyParts s _).mono (by decide)).then (fset_onlyParts _ _ _) (by decide)⟩

/-! ### What O60 says -/

/-- Settles O60: each access is followed through the router to its register, which takes the fields that the access may write. -/
theorem registerAccessesReachTheirRegister : Obligations.RegisterAccessesReachTheirRegister := by
  intro s at_ v o h hx hs
  refine ⟨fun k d hr hp hw => ⟨fun view hv hsts hl => exec_write_plain h hx hs hr hp hw hv hsts hl v o,
      fun view h1 h4 hsts => exec_write_alias h hx hs hr (atKey_of_plain hp) hw h1 h4 hsts v o,
      fun hl hf => exec_write_locked h hx hs hr hp hw hl hf v o, exec_read_plain h hx hs hr (atKey_of_plain hp) hw⟩,
    fun off hr hlow hn => ?_, fun k d c hr hp hw hl hne => exec_write_held h hx hs hr hp hw hl hne v o,
    fun i hi hr hw hl => ⟨exec_hdmWrite_clash h hx hs hi hr hw hl v, exec_hdmWrite_mapped h hx hs hi hr hw hl v⟩,
    fun src hsrc hr hw hl => exec_clksrcWrite h hx hs hsrc hr hw hl, fun hm => ?_, exec_holdRelease_pending h, fun hm hh => ?_⟩
  · intro w a buffer hnb flagged
    have hoff : off = 0x1000000 * w + off % 0x1000000 := (Nat.div_add_mod off _).symm
    have hb : NoBuffer off w := by
      refine ⟨Bool.eq_false_iff.mpr fun hc => hnb ?_, Bool.eq_false_iff.mpr fun hc => hnb ?_⟩ <;>
        simp only [Bool.and_eq_true, beq_iff_eq, decide_eq_true_eq] at hc
      · exact .inl ⟨hc.1.1, hc.1.2, hc.2⟩
      · exact .inr ⟨hc.1.1, hc.1.2, hc.2⟩
    have hpl : off % 8 = 0 → Placed off 0 off w := fun h8 => ⟨by omega, rfl, by omega, by omega, h8, by omega⟩
    have h28 : w < 28 := by omega
    refine ⟨fun size hsz => exec_flagged h hx hs (by decide)
        (pf0Access_wrong _ (by omega) rfl h28 (by omega) hb hsz none o),
      fun h8 hoffw => exec_flagged h hx hs (by decide) (pf0Access_off _ (hpl h8) hb o (reloading_none hr) hoffw),
      fun h8 hon hk hsn => exec_flagged h hx hs (by decide) (pf0Access_unmapped _ (hpl h8) hb o (reloading_none hr) hon hk hsn),
      fun size hsz => exec_flagged_write h hx hs (pf0Access_wrong _ (by omega) rfl h28 (by omega) hb hsz (some v.toNat) o)⟩
  · have he : s.holdRelease = s.setSts 0 COMMIT_STS_NOT_MASTER := by
      unfold State.holdRelease; rw [hm]; rfl
    refine ⟨_, exec_holdRelease_runs h, ?_⟩
    rw [he]
    exact ⟨fbit_setSts s 0 _ h.2.1.1 (by decide) rfl, setSts_onlyParts s 0 _⟩
  · rw [exec_holdRelease_runs h]
    unfold State.holdRelease
    rw [hm, hh]; rfl

end Sys2Proof.Laws
end

section
/-! PROOFS. What a transfer's end in fault leaves (R343, R359, R428, R439, R451). -/

namespace Sys2Proof.Laws

open Sys2Proof.Machine Sys2Proof.Safety

/-! ### What follows on a transfer's fault -/

/-- The fields of the MMU and of the DMA engines. -/
abbrev DmaField (g : Fld) : Prop := 0x5000000 ≤ g.base ∧ g.base < 0x7000000

theorem dmaField_note : ∀ g, DmaField g → g.base ∉ noteRegs := fun g hg hm => by
  have : ∀ b ∈ noteRegs, ¬ (0x5000000 ≤ b ∧ b < 0x7000000) := by decide
  exact this _ hm hg

theorem apartFrom_dma {f : Fld} (hw : f.lo + f.wd ≤ 64) (hb : f.base < 0x5000000 ∨ 0x7000000 ≤ f.base) : ApartFrom DmaField f :=
  ⟨hw, fun g hg => apart_of_base (by have := hg.1; have := hg.2; omega)⟩

theorem setVerdicts_onlyParts (s : State) (c : Nat) (g : List (Nat × Nat × Nat × Bool) → List (Nat × Nat × Nat × Bool)) :
    OnlyParts [.job, .ctxs] s (s.setVerdicts c g) :=
  .ite ((withJob_onlyParts s _).mono (by decide)) ((setCtx_onlyParts s c _).mono (by decide))

theorem beside_commandDone {K : Fld → Prop} (hn : ∀ g, K g → g.base ∉ noteRegs) (s : State) (ctx tag op status detail : Nat) :
    Beside K [.regs, .fifos, .outbox] s (s.commandDone ctx tag op status detail) := beside_event s hn _ _ _

theorem beside_withHost {K : Fld → Prop} (s : State) (f : HostSt → HostSt) : Beside K [.host] s (s.withHost f) :=
  .of_parts (withHost_onlyParts s f) (withHost_keeps s f (.refl s)) (by decide)

theorem beside_setCtx {K : Fld → Prop} (s : State) (c : Nat) (f : Ctx → Ctx) : Beside K [.ctxs] s (s.setCtx c f) :=
  .of_parts (setCtx_onlyParts s c f) (setCtx_keeps' s c f) (by decide)

theorem beside_setResid {K : Fld → Prop} (s : State) (tensor : Nat) (g : Resid → Resid) : Beside K [.slow] s (s.setResid tensor g) :=
  .of_parts (fun p hp => by cases p <;> simp at hp <;> rfl) (setResid_keeps s tensor g (.refl s)) (by decide)

/-- The fields that the ends of transfers write. -/
def endFlds : List Fld :=
  [HULL_EXPORT_ACTIVE, HULL_EXPORT_STARTED, HULL_SLOW_FIRST_VALID, HULL_SLOW_FIRST_TENSOR, HULL_SLOW_FIRST_SOURCE,
   HULL_SLOW_FIRST_UNIT, HULL_SLOW_FIRST_CAUSE, HULL_SLOW_FIRST_TICK, HULL_SLOW_STS_TRANSFER_ERROR, HRD_HARVEST_ACTIVE,
   HRD_HARVEST_WRITTEN_4K, HRD_STATE_HARVEST_ACTIVE, HRD_STATE_HARVEST_DUE, HRD_CNT_ABANDONED, HRD_STS_HARVEST_ABANDONED,
   HRD_GEN_INFO_WRITING.ix 0, HRD_GEN_INFO_WRITING.ix 1]

section
variable {K : Fld → Prop} (hn : ∀ g, K g → g.base ∉ noteRegs) (hK : ∀ f ∈ endFlds, ApartFrom K f)

include hn in
theorem beside_ingestEnded (s : State) (c tag step slot : Nat) (ok : Bool) :
    Beside K [.job, .ctxs, .regs, .fifos, .outbox] s (s.ingestEnded c tag step slot ok) := by
  have h := fun g => (Beside.of_parts (K := K) (setVerdicts_onlyParts s c g) (setVerdicts_keeps s c g (.refl s)) (by decide)).mono
    (qs := [.job, .ctxs, .regs, .fifos, .outbox]) (by decide) (fun _ => id)
  exact .ite ((h _).then (beside_commandDone hn _ _ _ _ _ _) (by decide))
    ((h _).then (beside_commandDone hn _ _ _ _ _ _) (by decide))

include hK

include hn in
theorem beside_exportFault (s : State) (ctx tag : Nat) : Beside K [.host, .regs, .fifos, .outbox] s (s.exportFault ctx tag) := by
  refine (((beside_withHost s _).mono (by decide) (fun _ => id)).then (beside_fsetAll _ _ ?_) (by decide)).then
    (beside_commandDone hn _ _ _ _ _ _) (by decide)
  simp only [List.forall_mem_cons, List.not_mem_nil, false_implies, implies_true, and_true]
  exact ⟨hK _ (by decide), hK _ (by decide)⟩

theorem beside_slowFirst (s : State) (tensor source unit cause : Nat) : Beside K [.regs] s (s.slowFirst tensor source unit cause) := by
  refine beside_record s _ _ (hK _ (by decide)) ?_
  simp only [List.forall_mem_cons, List.not_mem_nil, false_implies, implies_true, and_true]
  exact ⟨hK _ (by decide), hK _ (by decide), hK _ (by decide), hK _ (by decide), hK _ (by decide)⟩

theorem beside_slowError (s : State) (tensor cause : Nat) : Beside K [.slow, .regs, .outbox] s (s.slowError tensor cause) := by
  unfold State.slowError
  have h := (beside_setResid (K := K) s tensor (fun x => { x with prefetching := false, writing := false })).mono
    (qs := [.slow, .regs, .outbox]) (by decide) (fun _ => id)
  generalize s.setResid tensor _ = u at *
  dsimp only
  refine Beside.then ?_ (beside_setSts _ 0 _ (hK _ (by decide))) (by decide)
  split
  · exact h.then (beside_slowFirst hK u _ _ _ _) (by decide)
  · exact h

theorem harvest_beside (s : State) (b : Bool) : Beside K [.regs, .host, .outbox] s (s.abandonHarvest b) := by
  unfold State.abandonHarvest
  split
  · dsimp only
    have h1 := beside_withHost (K := K) s (fun h => { h with descs := h.descs.filter (fun d => d.kind != .harvest) })
    refine ((((h1.mono (by decide) (fun _ => id)).then (beside_fsetAll _ _ ?_) (by decide)).then (beside_fadd _ _ 1
      (hK _ (by decide))) (by decide)).then (beside_setSts _ 3 _ (hK _ (by decide))) (by decide))
    simp only [List.forall_mem_cons, List.not_mem_nil, false_implies, implies_true, and_true]
    have hb : ∀ a, a < 2 ^ HRD_HARVEST_AREA.wd → HRD_GEN_INFO_WRITING.ix a ∈ endFlds := by decide
    exact ⟨hK _ (by decide), hK _ (by decide), hK _ (by decide), hK _ (hb _ (fget_lt s HRD_HARVEST_AREA)), hK _ (by decide)⟩
  · exact .refl _ _ s

end

theorem abandonHarvest_descs (s : State) (b : Bool) : ∀ x ∈ (s.abandonHarvest b).host.descs, x ∈ s.host.descs := by
  unfold State.abandonHarvest
  split
  · intro x hx
    dsimp only at hx
    rw [setSts_onlyParts _ _ _ .host (by decide), fadd_onlyParts _ _ _ .host (by decide), fsetAll_onlyParts _ _ .host (by decide)] at hx
    exact List.mem_of_mem_filter hx
  · exact fun x hx => hx

/-- What the end in fault of a transfer brings to its command. -/
def faultEnd (s : State) (d : Desc) (cause : Nat) : State :=
  match d.kind with
  | .ingest step slot => s.ingestEnded d.ctx d.tag step slot false
  | .exportOut => s.exportFault d.ctx d.tag
  | .loadImage =>
    ((s.withHost (fun h => { h with cmds := h.cmds.filter (fun p => !(p.opcode == 1 && p.ctx == d.ctx)) })).setCtx d.ctx
      (fun x => { x with loading := false })).commandDone d.ctx d.tag 1 8 0
  | .prefetch id => s.slowError id cause
  | .writeBack id => s.slowError id cause
  | .harvest => s.abandonHarvest true
  | _ => s

/-- The parts that a transfer's end may touch. -/
abbrev endParts : List Part := [.job, .ctxs, .regs, .fifos, .host, .slow, .outbox]

theorem beside_faultEnd {K : Fld → Prop} (hn : ∀ g, K g → g.base ∉ noteRegs) (hK : ∀ f ∈ endFlds, ApartFrom K f) (s : State)
    (d : Desc) (cause : Nat) : Beside K endParts s (faultEnd s d cause) := by
  unfold faultEnd
  split
  · exact (beside_ingestEnded hn s _ _ _ _ _).mono (by decide) (fun _ => id)
  · exact (beside_exportFault hn hK s _ _).mono (by decide) (fun _ => id)
  · exact (((beside_withHost s _).mono (by decide) (fun _ => id)).then (beside_setCtx _ _ _) (by decide)).then
      (beside_commandDone hn _ _ _ _ _ _) (by decide)
  · exact (beside_slowError hK s _ _).mono (by decide) (fun _ => id)
  · exact (beside_slowError hK s _ _).mono (by decide) (fun _ => id)
  · exact (harvest_beside hK s true).mono (by decide) (fun _ => id)
  · exact .refl _ _ s

theorem endFlds_dma : ∀ f ∈ endFlds, ApartFrom DmaField f := fun f hf => by
  have h : ∀ f ∈ endFlds, f.lo + f.wd ≤ 64 ∧ (f.base < 0x5000000 ∨ 0x7000000 ≤ f.base) := by decide
  exact apartFrom_dma (h f hf).1 (h f hf).2

/-- It brings no descriptor back. -/
theorem faultEnd_descs (s : State) (d : Desc) (cause : Nat) : ∀ x ∈ (faultEnd s d cause).host.descs, x ∈ s.host.descs := by
  have hsame : ∀ {t : State}, t.host.descs = s.host.descs → ∀ x ∈ t.host.descs, x ∈ s.host.descs := fun h x hx => by rwa [h] at hx
  unfold faultEnd
  split
  · exact hsame (congrArg HostSt.descs ((beside_ingestEnded dmaField_note s _ _ _ _ _).parts .host (by decide)))
  · exact hsame (Eq.trans (congrArg HostSt.descs ((commandDone_onlyParts _ _ _ _ _ _) .host (by decide)))
      (Eq.trans (congrArg HostSt.descs ((fsetAll_onlyParts _ _) .host (by decide))) rfl))
  · exact hsame (Eq.trans (congrArg HostSt.descs ((commandDone_onlyParts _ _ _ _ _ _) .host (by decide))) rfl)
  · exact hsame (congrArg HostSt.descs ((beside_slowError endFlds_dma s _ _).parts .host (by decide)))
  · exact hsame (congrArg HostSt.descs ((beside_slowError endFlds_dma s _ _).parts .host (by decide)))
  · exact abandonHarvest_descs s true
  · exact hsame rfl

/-! ### A transfer's end in fault -/

/-- The fault is counted and shown. -/
def faultCounted (s : State) : State := (s.fadd DMA_CNT_FAULTS 1).setSts 6 DMA_STS_FAULT

theorem descFault_eq (s : State) (d : Desc) (cause : Nat) :
    s.descFault d cause = faultEnd ((faultCounted s).dropDescs (fun x => x == d)) d cause := rfl

theorem beside_faultCounted (s : State) :
    Beside (fun g => g.base ≠ DMA_CNT_FAULTS.base ∧ g.base ≠ DMA_STS_FAULT.base) [.regs, .outbox] s (faultCounted s) :=
  ((beside_fadd s _ 1 ⟨by decide, fun g hg => apart_of_base hg.1⟩).mono (by decide) (fun _ => id)).then
    (beside_setSts _ 6 _ ⟨by decide, fun g hg => apart_of_base hg.2⟩) (by decide)

theorem faultCounted_counts {s : State} (hi : Inv s) : Counts DMA_CNT_FAULTS 1 s (faultCounted s) ∧
    (faultCounted s).fbit DMA_STS_FAULT = true := by
  have hi2 := (fadd_keeps s DMA_CNT_FAULTS 1 (.refl s)).inv hi
  refine ⟨?_, fbit_setSts _ 6 _ hi2.1.1 (by decide) rfl⟩
  have := counts_fadd hi DMA_CNT_FAULTS 1 (by decide)
  unfold Counts at this ⊢
  rw [← this]
  exact fget_setSts_apart _ 6 DMA_STS_FAULT DMA_CNT_FAULTS hi2.1.1 (by decide) (by decide)

/-- A transfer that ends in fault is gone, counted and shown; memory and the other fields of the MMU and the engines stand. -/
theorem descFault_stands {s : State} (hi : Inv s) (d : Desc) (cause : Nat) : d ∉ (s.descFault d cause).host.descs ∧
    Counts DMA_CNT_FAULTS 1 s (s.descFault d cause) ∧ (s.descFault d cause).fbit DMA_STS_FAULT = true ∧
    OnlyParts endParts s (s.descFault d cause) ∧
    (∀ g, DmaField g → g.base ≠ DMA_CNT_FAULTS.base → g.base ≠ DMA_STS_FAULT.base → (s.descFault d cause).fget g = s.fget g) := by
  rw [descFault_eq]
  have hb := beside_faultCounted s
  obtain ⟨hc, hs⟩ := faultCounted_counts hi
  have hi1 := hb.keeps.inv hi
  generalize faultCounted s = u at *
  have hd := beside_withHost (K := DmaField) u (fun h => { h with descs := h.descs.filter (fun x => !(x == d)) })
  have he := beside_faultEnd dmaField_note endFlds_dma (u.dropDescs (fun x => x == d)) d cause
  have hf := (hd.mono (qs := endParts) (by decide) (fun _ => id)).trans he
  refine ⟨fun hm => ?_, hf.after_counts hi1 (by decide) hc, hf.fbit hi1 (by decide) hs, (hb.parts.mono (by decide)).trans hf.parts,
    fun g hg h1 h2 => (hf.flds hi1 g hg).trans (hb.flds hi g ⟨h1, h2⟩)⟩
  have := faultEnd_descs _ d cause d hm
  exact absurd (List.mem_filter.mp this).2 (by simp)

end Sys2Proof.Laws
end

section
/-! PROOFS. Ranges that are pinned and released (R443). -/

namespace Sys2Proof.Laws

open Sys2Proof.Machine Sys2Proof.Safety

/-! ### Pinned entries -/

/-- An entry of the cache under the ranges that are pinned. -/
def pinnedEnt (pins : List PinReq) (e : AtcEnt) : AtcEnt :=
  if e.fn == 1 then
    { e with pins := (range' 0 4).filter (fun c => pins.any (fun p => p.ctx == c && meet p.addr p.len e.addr e.size)) ++
        e.pins.filter (fun c => c == 4) }
  else e

theorem repin_eq (s : State) : s.repin = s.withHost (fun h => { h with atc := h.atc.map (pinnedEnt h.pins) }) := rfl

theorem repin_onlyParts (s : State) : OnlyParts [.host] s s.repin := withHost_onlyParts s _

theorem pinnedEnt_same (pins : List PinReq) (e : AtcEnt) : (pinnedEnt pins e).fn = e.fn ∧ (pinnedEnt pins e).addr = e.addr ∧
    (pinnedEnt pins e).size = e.size := by
  unfold pinnedEnt; split <;> exact ⟨rfl, rfl, rfl⟩

/-- An entry of PF1's names every context that pins a range of it. -/
theorem mem_pinnedEnt {pins : List PinReq} {p : PinReq} (hp : p ∈ pins) (hc : p.ctx < 4) {e : AtcEnt} (hf : e.fn = 1)
    (hm : meet p.addr p.len e.addr e.size = true) : p.ctx ∈ (pinnedEnt pins e).pins := by
  unfold pinnedEnt
  rw [if_pos (beq_iff_eq.mpr hf)]
  refine List.mem_append_left _ (List.mem_filter.mpr ⟨(mem_range' 4 0 _).mpr (by omega), List.any_eq_true.mpr ⟨p, hp, ?_⟩⟩)
  rw [hm, Bool.and_true, beq_self_eq_true]

/-- What the cache covers does not depend on what is pinned. -/
theorem covered_of_atc {s t : State} {pins : List PinReq} (h : t.host.atc = s.host.atc.map (pinnedEnt pins)) (a len : Nat) :
    t.covered a len = s.covered a len := by
  have hf : ∀ e : AtcEnt, (pinnedEnt pins e).fn = e.fn ∧ (pinnedEnt pins e).addr = e.addr ∧ (pinnedEnt pins e).size = e.size :=
    pinnedEnt_same pins
  unfold State.covered
  rw [h]
  simp only [List.any_map, Function.comp_def, (hf _).1, (hf _).2.1, (hf _).2.2]

theorem pinned_le (s : State) : s.pinned ≤ s.host.atc.length := List.length_filter_le _ _

/-! ### The PINs that complete -/

/-- One PIN that may complete. -/
def pinStep (s : State) (p : PinReq) : State :=
  if p.done then s
  else if 2048 < s.pinned then
    ((s.withHost (fun h => { h with pins := h.pins.filter (fun q => q != p) })).repin).commandDone p.ctx p.tag 9 12 0
  else if s.covered p.addr p.len then
    (s.withHost (fun h => { h with pins := h.pins.map (fun q => if q == p then { q with done := true } else q) })).commandDone
      p.ctx p.tag 9 0 0
  else s

theorem pinsDone_eq (s : State) : s.pinsDone = s.host.pins.foldl pinStep s := rfl

theorem pinStep_done (s : State) {p : PinReq} (h : p.done = true) : pinStep s p = s := if_pos h

theorem foldl_pinStep_done (s : State) : ∀ l : List PinReq, (∀ p ∈ l, p.done = true) → l.foldl pinStep s = s
  | [], _ => rfl
  | p :: l, h => by
    rw [List.foldl_cons, pinStep_done s (h p (.head _))]
    exact foldl_pinStep_done s l (fun q hq => h q (.tail _ hq))

theorem pinStep_onlyParts (s : State) (p : PinReq) : OnlyParts [.regs, .fifos, .host, .outbox] s (pinStep s p) := by
  have h (f : HostSt → HostSt) := (withHost_onlyParts s f).mono (qs := [.regs, .fifos, .host, .outbox]) (by decide)
  exact .ite (.refl _ s) (.ite (((h _).then (repin_onlyParts _) (by decide)).then (commandDone_onlyParts _ _ _ _ _ _) (by decide))
    (.ite ((h _).then (commandDone_onlyParts _ _ _ _ _ _) (by decide)) (.refl _ s)))

theorem pinsDone_onlyParts (s : State) : OnlyParts [.regs, .fifos, .host, .outbox] s s.pinsDone :=
  foldl_keeps_rel (OnlyParts.refl _) (fun _ _ _ => OnlyParts.trans) (fun v p _ => pinStep_onlyParts v p) s

/-- The range of a PIN enters the list, and its translations are asked for. -/
def pinAsked (s : State) (c tag a len : Nat) : State :=
  ((s.withHost (fun h => { h with pins := h.pins ++ [⟨c, tag, a, len, false⟩] })).emit (.msg "ATS_TRANSLATION_REQUEST" [1, a, len])).repin

theorem pinAsked_onlyParts (s : State) (c tag a len : Nat) : OnlyParts [.host, .outbox] s (pinAsked s c tag a len) :=
  (((withHost_onlyParts s _).mono (by decide)).then (emit_onlyParts _ _) (by decide)).then (repin_onlyParts _) (by decide)

/-- Behind completed PINs the new one alone may complete. -/
theorem pinsDone_asked (s : State) (c tag a len : Nat) (hd : ∀ p ∈ s.host.pins, p.done = true) (hl : s.host.atc.length ≤ 2048) :
    (pinAsked s c tag a len).pinsDone = if s.covered a len then ((pinAsked s c tag a len).withHost (fun h => { h with
      pins := s.host.pins ++ [⟨c, tag, a, len, true⟩] })).commandDone c tag 9 0 0 else pinAsked s c tag a len := by
  have hpins : (pinAsked s c tag a len).host.pins = s.host.pins ++ [⟨c, tag, a, len, false⟩] := rfl
  have hatc : (pinAsked s c tag a len).host.atc = s.host.atc.map (pinnedEnt (s.host.pins ++ [⟨c, tag, a, len, false⟩])) := rfl
  have hcov := covered_of_atc hatc a len
  have hpn : ¬ 2048 < (pinAsked s c tag a len).pinned := by
    have := pinned_le (pinAsked s c tag a len)
    rw [hatc, List.length_map] at this
    omega
  rw [pinsDone_eq, hpins, List.foldl_append, foldl_pinStep_done _ _ hd, List.foldl_cons, List.foldl_nil]
  generalize pinAsked s c tag a len = u at *
  unfold pinStep
  rw [if_neg Bool.false_ne_true, if_neg hpn]
  simp only [hcov]
  split
  · have hmap : u.host.pins.map (fun q => if q == (⟨c, tag, a, len, false⟩ : PinReq) then { q with done := true } else q) =
        s.host.pins ++ [⟨c, tag, a, len, true⟩] := by
      rw [hpins, List.map_append]
      refine congrArg₂ (· ++ ·) ?_ (by simp)
      refine (List.map_congr_left fun q hq => ?_).trans (List.map_id _)
      rw [if_neg]; rfl
      intro he
      have := hd q hq
      rw [eq_of_beq he] at this
      exact Bool.noConfusion this
    exact congrArg (fun h => ({ u with host := { u.host with pins := h } } : State).commandDone c tag 9 0 0) hmap
  · rfl

section
variable {s : State} {at_ c : Nat} (h : Awake s) (hc : c < 4) (hs : Settled s at_) (tag addr len : Nat)
include h hc hs

theorem exec_pin : exec (.pin at_ c tag addr len) s = .next ((s.advance at_).pin c tag addr len) :=
  congrArg Host.Outcome.next ((live_runs h.1 _).trans (by rw [upTo_settled _ _ hs, Nat.mod_eq_of_lt hc]))

theorem exec_unpin : exec (.unpin at_ c tag addr len) s = .next ((s.advance at_).unpin c tag addr len) :=
  congrArg Host.Outcome.next ((live_runs h.1 _).trans (by rw [upTo_settled _ _ hs, Nat.mod_eq_of_lt hc]))

/-- A command that its context's state refuses. -/
theorem pin_barred (ha : s.cmdAllowed c [.loaded, .running, .preempted] = false) : ∃ t, exec (.pin at_ c tag addr len) s = .next t ∧
    Completes c tag 9 3 0 s t ∧ OnlyParts [.now, .regs, .fifos, .outbox] s t ∧ OnlyRegs noteRegs s t := by
  have he := exec_pin h hc hs tag addr len
  unfold State.pin at he
  rw [if_pos (by rw [show (s.advance at_).cmdAllowed c [.loaded, .running, .preempted] = false from ha]; rfl)] at he
  exact ⟨_, he, (refused_stands h.2 at_ c tag 9 3).2⟩

/-- A range outside the host window. -/
theorem pin_malformed (ha : s.cmdAllowed c [.loaded, .running, .preempted] = true) (hin : inHost addr = false) :
    ∃ t, exec (.pin at_ c tag addr len) s = .next t ∧ Completes c tag 9 1 0 s t ∧ OnlyParts [.now, .regs, .fifos, .outbox] s t ∧
      OnlyRegs noteRegs s t := by
  have he := exec_pin h hc hs tag addr len
  have hb : getBits addr 56 1 < 2 := getBits_lt addr 56 1
  have h0 : (getBits addr 56 1 == 0) = true := by
    have : getBits addr 56 1 ≠ 1 := by simpa [inHost] using hin
    rw [beq_iff_eq]; omega
  unfold State.pin at he
  rw [if_neg (by rw [show (s.advance at_).cmdAllowed c [.loaded, .running, .preempted] = true from ha]; decide), if_pos h0] at he
  exact ⟨_, he, (refused_stands h.2 at_ c tag 9 1).2⟩

/-- A PIN that is taken. -/
theorem pin_taken (ha : s.cmdAllowed c [.loaded, .running, .preempted] = true) (hin : inHost addr = true)
    (hd : ∀ p ∈ s.host.pins, p.done = true) (hl : s.host.atc.length ≤ 2048) :
    ∃ t, exec (.pin at_ c tag addr len) s = .next t ∧
      t.host.pins = s.host.pins ++ [⟨c, tag, addr % 2 ^ 56, len, s.covered (addr % 2 ^ 56) len⟩] ∧
      .msg "ATS_TRANSLATION_REQUEST" [1, addr % 2 ^ 56, len] ∈ t.outbox ∧
      (∀ e ∈ t.host.atc, e.fn = 1 → meet (addr % 2 ^ 56) len e.addr e.size = true → c ∈ e.pins) ∧
      (s.covered (addr % 2 ^ 56) len = true → Completes c tag 9 0 0 s t) ∧
      (s.covered (addr % 2 ^ 56) len = false → t.fifos = s.fifos) ∧
      OnlyParts [.now, .regs, .fifos, .host, .outbox] s t := by
  have he := exec_pin h hc hs tag addr len
  have h1 : getBits addr 56 1 = 1 := eq_of_beq hin
  unfold State.pin at he
  rw [if_neg (by rw [show (s.advance at_).cmdAllowed c [.loaded, .running, .preempted] = true from ha]; decide),
    if_neg (by rw [h1]; decide)] at he
  generalize addr % 2 ^ 56 = a at *
  have hp := pinsDone_asked (s.advance at_) c tag a len hd hl
  have he := he.trans (congrArg Host.Outcome.next hp)
  have hparts := ((advance_onlyParts s at_).mono (qs := [.now, .host, .outbox]) (by decide)).then
    (pinAsked_onlyParts (s.advance at_) c tag a len) (by decide)
  have hi : Inv (pinAsked (s.advance at_) c tag a len) :=
    (withHost_keeps _ _ (emit_keeps _ _ (withHost_keeps _ _ (advance_keeps at_ (.refl s))))).inv h.2
  have hpins : (pinAsked (s.advance at_) c tag a len).host.pins = s.host.pins ++ [⟨c, tag, a, len, false⟩] := rfl
  have hatc : (pinAsked (s.advance at_) c tag a len).host.atc =
    s.host.atc.map (pinnedEnt (s.host.pins ++ [⟨c, tag, a, len, false⟩])) := rfl
  have hout : (pinAsked (s.advance at_) c tag a len).outbox = s.outbox ++ [.msg "ATS_TRANSLATION_REQUEST" [1, a, len]] := rfl
  have hsame : SameEgress s (pinAsked (s.advance at_) c tag a len) := ⟨rfl, rfl, rfl⟩
  have hmem : ∀ e ∈ (pinAsked (s.advance at_) c tag a len).host.atc, e.fn = 1 → meet a len e.addr e.size = true → c ∈ e.pins := by
    intro e hm hf hmt
    rw [hatc] at hm
    obtain ⟨x, -, rfl⟩ := List.mem_map.mp hm
    obtain ⟨hxf, hxa, hxs⟩ := pinnedEnt_same (s.host.pins ++ [⟨c, tag, a, len, false⟩]) x
    rw [hxa, hxs] at hmt
    exact mem_pinnedEnt (p := ⟨c, tag, a, len, false⟩) (List.mem_append_right _ (.head _)) hc (hxf ▸ hf) hmt
  rw [show (s.advance at_).covered a len = s.covered a len from rfl] at he
  generalize pinAsked (s.advance at_) c tag a len = u at *
  refine ⟨_, he, ?_⟩
  cases hcov : s.covered a len with
  | false =>
    rw [if_neg (by decide)]
    exact ⟨hpins, by rw [hout]; simp, hmem, fun hf => Bool.noConfusion hf, fun _ => hparts .fifos (by decide), hparts.mono (by decide)⟩
  | true =>
    rw [if_pos rfl, show (s.advance at_).host.pins = s.host.pins from rfl]
    have hk := (withHost_keeps u (fun h => { h with pins := s.host.pins ++ [⟨c, tag, a, len, true⟩] }) (.refl u)).inv hi
    have hw := withHost_onlyParts u (fun h => { h with pins := s.host.pins ++ [⟨c, tag, a, len, true⟩] })
    have hwp : (u.withHost (fun h => { h with pins := s.host.pins ++ [⟨c, tag, a, len, true⟩] })).host.pins =
      s.host.pins ++ [⟨c, tag, a, len, true⟩] := rfl
    have hwa : (u.withHost (fun h => { h with pins := s.host.pins ++ [⟨c, tag, a, len, true⟩] })).host.atc = u.host.atc := rfl
    have hws : SameEgress u (u.withHost (fun h => { h with pins := s.host.pins ++ [⟨c, tag, a, len, true⟩] })) := ⟨rfl, rfl, rfl⟩
    have hwo : (u.withHost (fun h => { h with pins := s.host.pins ++ [⟨c, tag, a, len, true⟩] })).outbox = u.outbox := rfl
    generalize u.withHost (fun h => { h with pins := s.host.pins ++ [⟨c, tag, a, len, true⟩] }) = w at *
    have hd := commandDone_onlyParts w c tag 9 0 0
    have hg : OutGrows w (w.commandDone c tag 9 0 0) := outGrows_event w _ _ _
    refine ⟨by rw [hd .host (by decide)]; exact hwp, hg.mem (by rw [hwo, hout]; simp), ?_, fun _ =>
      (hsame.trans hws).posts (completes_commandDone hk c tag 9 0 0), fun hf => Bool.noConfusion hf,
      ((hparts.mono (by decide)).then hw (by decide)).then hd (by decide)⟩
    rw [hd .host (by decide), hwa]
    exact hmem

end

/-! ### UNPIN -/

/-- The ranges that lie in the one named are released. -/
def unpinned (s : State) (inside : PinReq → Bool) : State :=
  (s.withHost (fun h => { h with pins := h.pins.filter (fun p => !inside p) })).repin

theorem foldl_commandDone_onlyParts (op status : Nat) (l : List PinReq) (s : State) : OnlyParts [.regs, .fifos, .outbox] s
    (l.foldl (fun s p => s.commandDone p.ctx p.tag op status 0) s) :=
  foldl_keeps_rel (OnlyParts.refl _) (fun _ _ _ => OnlyParts.trans) (fun v _ _ => commandDone_onlyParts v _ _ _ _ _) s

section
variable {s : State} {at_ c : Nat} (h : Awake s) (hc : c < 4) (hs : Settled s at_) (tag addr len : Nat)
include h hc hs

theorem unpin_barred (ha : s.cmdAllowed c [.loaded, .running, .preempted] = false) : ∃ t, exec (.unpin at_ c tag addr len) s = .next t ∧
    Completes c tag 10 3 0 s t ∧ OnlyParts [.now, .regs, .fifos, .outbox] s t ∧ OnlyRegs noteRegs s t := by
  have he := exec_unpin h hc hs tag addr len
  unfold State.unpin at he
  rw [if_pos (by rw [show (s.advance at_).cmdAllowed c [.loaded, .running, .preempted] = false from ha]; rfl)] at he
  exact ⟨_, he, (refused_stands h.2 at_ c tag 10 3).2⟩

theorem unpin_taken (ha : s.cmdAllowed c [.loaded, .running, .preempted] = true) {inside : PinReq → Bool}
    (hin : inside = fun p => p.ctx == c && decide (addr % 2 ^ 56 ≤ p.addr) && decide (p.addr + p.len ≤ addr % 2 ^ 56 + len)) :
    ∃ t, exec (.unpin at_ c tag addr len) s = .next t ∧ t.host.pins = s.host.pins.filter (fun p => !inside p) ∧
      ((∀ p ∈ s.host.pins, p.done = true) → Completes c tag 10 0 0 s t) ∧
      OnlyParts [.now, .regs, .fifos, .host, .outbox] s t := by
  have he := exec_unpin h hc hs tag addr len
  have hu : (s.advance at_).unpin c tag addr len = (((s.host.pins.filter (fun p => inside p && !p.done)).foldl
      (fun s p => s.commandDone p.ctx p.tag 9 14 0) (unpinned (s.advance at_) inside))).commandDone c tag 10 0 0 := by
    unfold State.unpin
    rw [if_neg (by rw [show (s.advance at_).cmdAllowed c [.loaded, .running, .preempted] = true from ha]; decide), hin]
    rfl
  rw [hu] at he
  have hi : Inv (unpinned (s.advance at_) inside) := (withHost_keeps _ _ (withHost_keeps _ _ (advance_keeps at_ (.refl s)))).inv h.2
  have hp : OnlyParts [.now, .host] s (unpinned (s.advance at_) inside) :=
    (((advance_onlyParts s at_).mono (by decide)).then (withHost_onlyParts _ _) (by decide)).then (repin_onlyParts _) (by decide)
  have hpins : (unpinned (s.advance at_) inside).host.pins = s.host.pins.filter (fun p => !inside p) := rfl
  have hsame : SameEgress s (unpinned (s.advance at_) inside) := ⟨rfl, rfl, rfl⟩
  generalize unpinned (s.advance at_) inside = u at *
  have hf := foldl_commandDone_onlyParts 9 14 (s.host.pins.filter (fun p => inside p && !p.done)) u
  refine ⟨_, he, ?_, fun hd => ?_, ((hp.mono (by decide)).then hf (by decide)).then (commandDone_onlyParts _ _ _ _ _ _) (by decide)⟩
  · rw [commandDone_onlyParts _ _ _ _ _ _ .host (by decide), hf .host (by decide)]
    exact hpins
  · have hnil : s.host.pins.filter (fun p => inside p && !p.done) = [] :=
      List.filter_eq_nil_iff.mpr fun p hm => by rw [hd p hm]; simp
    rw [hnil]
    exact hsame.posts (completes_commandDone hi c tag 10 0 0)

end

end Sys2Proof.Laws
end

section
/-! PROOFS. Invalidations, page responses and translations (R434, R441 to R445), and what O55 says. -/

namespace Sys2Proof.Laws

open Sys2Proof.Machine Sys2Proof.Safety

/-! ### Rings that lose their translation (R442, R444) -/

theorem setRing_onlyParts (s : State) (f : Nat) (g : Ring → Ring) : OnlyParts [.rings] s (s.setRing f g) := fun p hp => by
  cases p <;> simp at hp <;> rfl

/-- Does an invalidation reach a ring? -/
def ringHit (s : State) (fn a n f : Nat) : Bool :=
  (ringVector f).1 == fn && s.ringUses fn a n && meet a n (s.fget (EVQ_RING_BASE.ix f) % 2 ^ 56) (16 * s.ringSize f)

/-- One ring that may lose its translation. -/
def ringLose (fn a n : Nat) (s : State) (f : Nat) : State :=
  if ringHit s fn a n f then (s.setRing f (fun r => { r with lost := true })).setSts 5 MMU_STS_RING_LOST else s

theorem ringsLose_eq (s : State) (fn a n : Nat) : s.ringsLose fn a n = ringLose fn a n (ringLose fn a n s 1) 2 := rfl

/-- The fields outside MMU_STS. -/
abbrev OffMmuSts (g : Fld) : Prop := g.base ≠ MMU_STS_RING_LOST.base

theorem beside_ringLose (fn a n : Nat) (s : State) (f : Nat) : Beside OffMmuSts [.rings, .regs, .outbox] s (ringLose fn a n s f) :=
  .ite (((Beside.of_parts (setRing_onlyParts s f _) (setRing_keeps s f _ (.refl s)) (by decide)).mono (by decide) (fun _ => id)).then
    (beside_setSts _ 5 _ ⟨by decide, fun _ hg => apart_of_base hg⟩) (by decide)) (.refl _ _ s)

theorem beside_ringsLose (s : State) (fn a n : Nat) : Beside OffMmuSts [.rings, .regs, .outbox] s (s.ringsLose fn a n) :=
  (beside_ringLose fn a n s 1).trans (beside_ringLose fn a n _ 2)

/-- Whether a ring is reached depends on its own registers. -/
theorem ringHit_congr {s t : State} (h : ∀ g, OffMmuSts g → t.fget g = s.fget g) (fn a n : Nat) {f : Nat} (hf : f ∈ [1, 2]) :
    ringHit t fn a n f = ringHit s fn a n f := by
  have hb : ∀ f ∈ [1, 2], OffMmuSts (EVQ_CFG_EN.ix f) ∧ OffMmuSts (EVQ_RING_BASE.ix f) ∧ OffMmuSts (EVQ_CFG_LOG2.ix f) := by decide
  have hu : t.ringUses fn a n = s.ringUses fn a n := by
    unfold State.ringUses
    rw [List.any_eq, List.any_eq]
    refine decide_eq_decide.mpr (exists_congr fun f => and_congr_right fun hf => ?_)
    obtain ⟨h1, h2, h3⟩ := hb f hf
    simp only [State.fbit, State.ringSize, h _ h1, h _ h2, h _ h3]
  obtain ⟨h1, h2, h3⟩ := hb f hf
  unfold ringHit
  rw [hu, h _ h2, State.ringSize, State.ringSize, h _ h3]

/-- Each ring that an invalidation reaches stops. -/
theorem ringsLose_lost {s : State} (hi : Inv s) (fn a n : Nat) : ∀ r ∈ [1, 2], ringHit s fn a n r = true →
    ((s.ringsLose fn a n).ring r).lost = true := by
  have hlen : s.rings.length = 2 := hi.2.2.2.1
  have h1 := beside_ringLose fn a n s 1
  intro r hr hh
  rw [ringsLose_eq]
  simp only [List.mem_cons, List.not_mem_nil, or_false] at hr
  rcases hr with rfl | rfl
  · have hl : ((ringLose fn a n s 1).ring 1).lost = true := by
      unfold ringLose
      rw [if_pos hh]
      unfold State.ring
      rw [setSts_onlyParts _ 5 _ .rings (by decide)]
      exact congrArg Ring.lost (getD_modAt_same _ {} 0 s.rings (by omega))
    refine Eq.trans (congrArg Ring.lost ?_) hl
    generalize ringLose fn a n s 1 = u
    unfold ringLose
    split
    · unfold State.ring
      rw [setSts_onlyParts _ 5 _ .rings (by decide)]
      exact getD_modAt_ne _ {} 1 0 u.rings (by decide)
    · rfl
  · have h2 : ringHit (ringLose fn a n s 1) fn a n 2 = true := by
      rw [ringHit_congr (fun g hg => h1.flds hi g hg) fn a n (by decide)]; exact hh
    have hl2 : (ringLose fn a n s 1).rings.length = 2 := (h1.keeps.inv hi).2.2.2.1
    generalize ringLose fn a n s 1 = u at *
    unfold ringLose
    rw [if_pos h2]
    unfold State.ring
    rw [setSts_onlyParts _ 5 _ .rings (by decide)]
    exact congrArg Ring.lost (getD_modAt_same _ {} 1 u.rings (by omega))

/-! ### ATS_INVALIDATION (R444) -/

/-- Is an invalidation held to the next edge? -/
def invalHeld (s : State) (fn addr len : Nat) : Bool :=
  s.run.active && (s.host.atc.filter (fun e => e.fn == fn && meet e.addr e.size addr len)).any
    (fun e => s.job.ctx.any (fun c => e.pins.contains c))

theorem atsInvalidation_eq (s : State) (fn addr len tag : Nat) : s.atsInvalidation fn addr len tag =
    if invalHeld s fn addr len then
      (((s.ringsLose fn addr len).withHost (fun h => { h with held := h.held ++ [(fn, addr, len, tag)] })).setSts 5
        MMU_STS_INVAL_HELD).arrangePreempt (s.ringsLose fn addr len).tickCount 2
    else ((s.ringsLose fn addr len).withHost (fun h => { h with
      atc := h.atc.filter (fun e => !(e.fn == fn && meet e.addr e.size addr len)) })).emit
        (.msg "ATS_INVALIDATION_COMPLETE" [fn, addr, len, tag]) := by
  have hh : invalHeld s fn addr len = (s.run.active && (match s.job.ctx with
      | some c => (s.host.atc.filter (fun e => e.fn == fn && meet e.addr e.size addr len)).any (fun e => e.pins.contains c)
      | none => false)) := by
    unfold invalHeld
    cases s.job.ctx <;> simp
  rw [hh]
  rfl

section
variable {s : State} {at_ : Nat} (h : Awake s) (hs : Settled s at_)
include h hs

theorem exec_atsInvalidation (fn addr len tag : Nat) :
    exec (.atsInvalidation at_ fn addr len tag) s = .next ((s.advance at_).atsInvalidation fn addr len tag) :=
  congrArg Host.Outcome.next ((live_runs h.1 _).trans (by rw [upTo_settled _ _ hs]))

theorem inval_held (fn addr len tag : Nat) (hh : invalHeld s fn addr len = true) (hp : s.job.preemptAt = none) :
    ∃ t, exec (.atsInvalidation at_ fn addr len tag) s = .next t ∧ t.host.held = s.host.held ++ [(fn, addr, len, tag)] ∧
      t.host.atc = s.host.atc ∧ t.fbit MMU_STS_INVAL_HELD = true ∧ t.job.preemptAt = some (s.tickCount, 2) ∧
      OnlyParts [.now, .regs, .job, .rings, .host, .outbox] s t := by
  have he := exec_atsInvalidation h hs fn addr len tag
  rw [atsInvalidation_eq, if_pos (show invalHeld (s.advance at_) fn addr len = true from hh)] at he
  have hi1 := (advance_keeps at_ (.refl s)).inv h.2
  have hb := beside_ringsLose (s.advance at_) fn addr len
  have hparts := ((advance_onlyParts s at_).mono (qs := [.now, .rings, .regs, .outbox]) (by decide)).then hb.parts (by decide)
  have htick : ((s.advance at_).ringsLose fn addr len).tickCount = s.tickCount := (hb.flds hi1 _ (by decide)).trans rfl
  have hiu := hb.keeps.inv hi1
  generalize (s.advance at_).ringsLose fn addr len = u at *
  have hw := withHost_onlyParts u (fun h => { h with held := h.held ++ [(fn, addr, len, tag)] })
  have hiw := (withHost_keeps u (fun h => { h with held := h.held ++ [(fn, addr, len, tag)] }) (.refl u)).inv hiu
  have hwh : (u.withHost (fun h => { h with held := h.held ++ [(fn, addr, len, tag)] })).host.held =
    u.host.held ++ [(fn, addr, len, tag)] := rfl
  have hwa : (u.withHost (fun h => { h with held := h.held ++ [(fn, addr, len, tag)] })).host.atc = u.host.atc := rfl
  generalize u.withHost (fun h => { h with held := h.held ++ [(fn, addr, len, tag)] }) = w at *
  have hsp := setSts_onlyParts w 5 MMU_STS_INVAL_HELD
  have hsf := fbit_setSts w 5 MMU_STS_INVAL_HELD hiw.1.1 (by decide) rfl
  generalize w.setSts 5 MMU_STS_INVAL_HELD = x at *
  have huh : u.host = s.host := hparts .host (by decide)
  have hall := ((hparts.mono (qs := [.now, .regs, .job, .rings, .host, .outbox]) (by decide)).then hw (by decide)).then hsp (by decide)
  have hxj : x.job.preemptAt = none := by
    rw [Eq.trans (hsp .job (by decide)) (Eq.trans (hw .job (by decide)) (hparts .job (by decide)))]; exact hp
  refine ⟨_, he, ?_, ?_, hsf, ?_, hall.then (withJob_onlyParts _ _) (by decide)⟩
  · exact (congrArg HostSt.held (hsp .host (by decide))).trans (hwh.trans (by rw [huh]))
  · exact (congrArg HostSt.atc (hsp .host (by decide))).trans (hwa.trans (by rw [huh]))
  · rw [htick]
    unfold State.arrangePreempt
    change (match x.job.preemptAt with | none => some (s.tickCount, 2) | some (t, r) => _) = _
    rw [hxj]

theorem inval_answered (fn addr len tag : Nat) (hh : invalHeld s fn addr len = false) :
    ∃ t, exec (.atsInvalidation at_ fn addr len tag) s = .next t ∧ t.host.held = s.host.held ∧
      t.host.atc = s.host.atc.filter (fun e => !(e.fn == fn && meet e.addr e.size addr len)) ∧
      .msg "ATS_INVALIDATION_COMPLETE" [fn, addr, len, tag] ∈ t.outbox ∧
      (∀ r ∈ [1, 2], ringHit s fn addr len r = true → (t.ring r).lost = true) ∧
      OnlyParts [.now, .regs, .rings, .host, .outbox] s t := by
  have he := exec_atsInvalidation h hs fn addr len tag
  rw [atsInvalidation_eq, if_neg (by rw [show invalHeld (s.advance at_) fn addr len = false from hh]; decide)] at he
  have hi1 := (advance_keeps at_ (.refl s)).inv h.2
  have hb := beside_ringsLose (s.advance at_) fn addr len
  have hl := ringsLose_lost hi1 fn addr len
  have hparts := ((advance_onlyParts s at_).mono (qs := [.now, .rings, .regs, .outbox]) (by decide)).then hb.parts (by decide)
  have huh : ((s.advance at_).ringsLose fn addr len).host = s.host := hparts .host (by decide)
  generalize (s.advance at_).ringsLose fn addr len = u at *
  have hheld : u.host.held = s.host.held := by rw [huh]
  have hatc : u.host.atc.filter (fun e => !(e.fn == fn && meet e.addr e.size addr len)) =
    s.host.atc.filter (fun e => !(e.fn == fn && meet e.addr e.size addr len)) := by rw [huh]
  refine ⟨_, he, hheld, hatc,
    List.mem_append_right _ (.head _), hl, ((hparts.mono (by decide)).then (withHost_onlyParts _ _) (by decide)).then
      (emit_onlyParts _ _) (by decide)⟩

/-! ### PRI_RESPONSE (R445) -/

theorem exec_priResponse (grp : Nat) (ok : Bool) : exec (.priResponse at_ grp ok) s = .next ((s.advance at_).priResponse grp ok) :=
  congrArg Host.Outcome.next ((live_runs h.1 _).trans (by rw [upTo_settled _ _ hs]))

theorem pri_late (grp : Nat) (ok : Bool) (hg : s.host.priGone.contains grp = true) : ∃ t, exec (.priResponse at_ grp ok) s = .next t ∧
    Counts DMA_CNT_LATE_RESPONSES 1 s t ∧ t.fbit DMA_STS_LATE_RESPONSE = true ∧ t.host.priGone = s.host.priGone.erase grp ∧
    t.host.pri = s.host.pri ∧ t.host.descs = s.host.descs ∧ OnlyParts [.now, .regs, .host, .outbox] s t := by
  have he := exec_priResponse h hs grp ok
  unfold State.priResponse at he
  rw [if_pos (show (s.advance at_).host.priGone.contains grp = true from hg)] at he
  dsimp only at he
  have hp := ((advance_onlyParts s at_).mono (qs := [.now, .host]) (by decide)).then
    (withHost_onlyParts (s.advance at_) (fun h => { h with priGone := h.priGone.erase grp })) (by decide)
  have hi := (withHost_keeps (s.advance at_) (fun h => { h with priGone := h.priGone.erase grp }) (advance_keeps at_ (.refl s))).inv h.2
  have hh : ((s.advance at_).withHost (fun h => { h with priGone := h.priGone.erase grp })).host =
    { s.host with priGone := s.host.priGone.erase grp } := rfl
  have hr : ((s.advance at_).withHost (fun h => { h with priGone := h.priGone.erase grp })).regs = s.regs := rfl
  generalize (s.advance at_).withHost (fun h => { h with priGone := h.priGone.erase grp }) = u at *
  have hc := counts_fadd hi DMA_CNT_LATE_RESPONSES 1 (by decide)
  have hif := (fadd_keeps u DMA_CNT_LATE_RESPONSES 1 (.refl u)).inv hi
  have hfp := fadd_onlyParts u DMA_CNT_LATE_RESPONSES 1
  generalize u.fadd DMA_CNT_LATE_RESPONSES 1 = w at *
  have hsp := setSts_onlyParts w 6 DMA_STS_LATE_RESPONSE
  have hth : (w.setSts 6 DMA_STS_LATE_RESPONSE).host = { s.host with priGone := s.host.priGone.erase grp } :=
    Eq.trans (hsp .host (by decide)) (Eq.trans (hfp .host (by decide)) hh)
  refine ⟨_, he, ?_, fbit_setSts w 6 _ hif.1.1 (by decide) rfl, by rw [hth], by rw [hth], by rw [hth],
    ((hp.mono (by decide)).then hfp (by decide)).then hsp (by decide)⟩
  unfold Counts at hc ⊢
  rw [fget_setSts_apart w 6 _ _ hif.1.1 (by decide) (by decide), hc, fget_congr hr]

theorem pri_granted (grp : Nat) (hg : s.host.priGone.contains grp = false) {eng q : Nat}
    (hf : s.host.pri.find? (fun p => p.1 == grp) = some (grp, eng, q)) : ∃ t, exec (.priResponse at_ grp true) s = .next t ∧
      t.host.pri = s.host.pri.filter (fun p => p.1 != grp) ∧
      t.outbox = s.outbox ++ [.msg "ATS_TRANSLATION_REQUEST" [eng, q]] ∧ OnlyParts [.now, .host, .outbox] s t := by
  have he := exec_priResponse h hs grp true
  unfold State.priResponse at he
  rw [if_neg (by rw [show (s.advance at_).host.priGone.contains grp = false from hg]; decide),
    show (s.advance at_).host.pri.find? (fun p => p.1 == grp) = some (grp, eng, q) from hf] at he
  exact ⟨_, he, rfl, rfl, (((advance_onlyParts s at_).mono (by decide)).then (withHost_onlyParts _ _) (by decide)).then
    (emit_onlyParts _ _) (by decide)⟩

theorem pri_failed (grp : Nat) (hg : s.host.priGone.contains grp = false) {eng q : Nat}
    (hf : s.host.pri.find? (fun p => p.1 == grp) = some (grp, eng, q)) {d : Desc}
    (hd : s.host.descs.find? (fun d => d.eng == eng && d.q == q && d.status == 2 && d.prg == grp) = some d) (heng : eng < 16)
    (hq : q < 4) : ∃ t, exec (.priResponse at_ grp false) s = .next t ∧ d ∉ t.host.descs ∧ Counts DMA_CNT_FAULTS 1 s t ∧
      t.fbit DMA_STS_FAULT = true ∧ t.fbit (dmaPark DMA_PARK_PARKED eng q) = false ∧ t.mem = s.mem := by
  have he := exec_priResponse h hs grp false
  have heq : (s.advance at_).priResponse grp false = (((s.advance at_).withHost (fun h => { h with
      pri := h.pri.filter (fun p => p.1 != grp) })).fset (dmaPark DMA_PARK_PARKED eng q) 0).descFault d 2 := by
    unfold State.priResponse
    rw [if_neg (by rw [show (s.advance at_).host.priGone.contains grp = false from hg]; decide),
      show (s.advance at_).host.pri.find? (fun p => p.1 == grp) = some (grp, eng, q) from hf]
    change (match s.host.descs.find? (fun d => d.eng == eng && d.q == q && d.status == 2 && d.prg == grp) with
      | some d => _ | none => _) = _
    rw [hd]
  rw [heq] at he
  have hi := (withHost_keeps (s.advance at_) (fun h => { h with pri := h.pri.filter (fun p => p.1 != grp) })
    (advance_keeps at_ (.refl s))).inv h.2
  have hm : ((s.advance at_).withHost (fun h => { h with pri := h.pri.filter (fun p => p.1 != grp) })).mem = s.mem := rfl
  have hr : ((s.advance at_).withHost (fun h => { h with pri := h.pri.filter (fun p => p.1 != grp) })).regs = s.regs := rfl
  generalize (s.advance at_).withHost (fun h => { h with pri := h.pri.filter (fun p => p.1 != grp) }) = u at *
  have hpk : ∀ e q, e < 16 → q < 4 → DmaField (dmaPark DMA_PARK_PARKED e q) ∧
      (dmaPark DMA_PARK_PARKED e q).base ≠ DMA_CNT_FAULTS.base ∧ (dmaPark DMA_PARK_PARKED e q).base ≠ DMA_STS_FAULT.base := by
    intro e q _ _
    unfold DmaField
    simp only [dmaPark, Fld.ix, DMA_PARK_PARKED, DMA_CNT_FAULTS, DMA_STS_FAULT]
    omega
  obtain ⟨hk1, hk2, hk3⟩ := hpk eng q heng hq
  have hif := (fset_keeps (dmaPark DMA_PARK_PARKED eng q) 0 (.refl u)).inv hi
  have hzero : (u.fset (dmaPark DMA_PARK_PARKED eng q) 0).fget (dmaPark DMA_PARK_PARKED eng q) = 0 :=
    fget_fset_same u _ 0 hi.1.1 (show DMA_PARK_PARKED.lo + DMA_PARK_PARKED.wd ≤ 64 by decide)
  have hcnt : (u.fset (dmaPark DMA_PARK_PARKED eng q) 0).fget DMA_CNT_FAULTS = s.fget DMA_CNT_FAULTS :=
    (fget_fset_base u _ _ 0 hk2.symm).trans (fget_congr hr _)
  have hfp := fset_onlyParts u (dmaPark DMA_PARK_PARKED eng q) 0
  generalize u.fset (dmaPark DMA_PARK_PARKED eng q) 0 = w at *
  obtain ⟨h1, h2, h3, h4, h5⟩ := descFault_stands hif d 2
  refine ⟨_, he, h1, ?_, h3, fbit_of_zero ((h5 _ hk1 hk2 hk3).trans hzero),
    Eq.trans (h4 .mem (by decide)) (Eq.trans (hfp .mem (by decide)) hm)⟩
  unfold Counts at h2 ⊢
  rw [h2, hcnt]

end

end Sys2Proof.Laws
end

section
/-! PROOFS. Translations that are granted and pages that are asked for (R441, R445, R449), and what O55 says. -/

namespace Sys2Proof.Laws

open Sys2Proof.Machine Sys2Proof.Safety

/-! ### What completing PINs leaves of the transfers and of the cache -/

/-- What an entry of the cache translates. -/
def atcKey (e : AtcEnt) : Nat × Nat × Nat := (e.fn, e.addr, e.size)

/-- The same transfers, page requests and translations. -/
def SameTransfers (s t : State) : Prop :=
  t.host.descs = s.host.descs ∧ t.host.pri = s.host.pri ∧ t.host.atc.map atcKey = s.host.atc.map atcKey

theorem SameTransfers.refl (s : State) : SameTransfers s s := ⟨rfl, rfl, rfl⟩

theorem SameTransfers.trans {s t u : State} (h : SameTransfers s t) (g : SameTransfers t u) : SameTransfers s u :=
  ⟨g.1.trans h.1, g.2.1.trans h.2.1, g.2.2.trans h.2.2⟩

theorem SameTransfers.of_host {s t : State} (h : t.host = s.host) : SameTransfers s t := by
  unfold SameTransfers; rw [h]; exact ⟨rfl, rfl, rfl⟩

theorem sameTransfers_repin (s : State) : SameTransfers s s.repin := by
  refine ⟨rfl, rfl, ?_⟩
  rw [repin_eq]
  refine (List.map_map (g := atcKey) (f := pinnedEnt s.host.pins) (l := s.host.atc)).trans (List.map_congr_left fun e _ => ?_)
  obtain ⟨hf, ha, hz⟩ := pinnedEnt_same s.host.pins e
  exact congrArg₂ Prod.mk hf (congrArg₂ Prod.mk ha hz)

theorem sameTransfers_commandDone (s : State) (ctx tag op status detail : Nat) :
    SameTransfers s (s.commandDone ctx tag op status detail) := .of_host (commandDone_onlyParts _ _ _ _ _ _ .host (by decide))

theorem sameTransfers_pinStep (s : State) (p : PinReq) : SameTransfers s (pinStep s p) := by
  have hw : ∀ g : List PinReq → List PinReq, SameTransfers s (s.withHost (fun h => { h with pins := g h.pins })) :=
    fun g => ⟨rfl, rfl, rfl⟩
  unfold pinStep
  split
  · exact .refl s
  split
  · exact ((hw (fun l => l.filter (fun q => q != p))).trans (sameTransfers_repin _)).trans (sameTransfers_commandDone _ _ _ _ _ _)
  split
  · exact (hw (fun l => l.map (fun q => if q == p then { q with done := true } else q))).trans (sameTransfers_commandDone _ _ _ _ _ _)
  · exact .refl s

theorem sameTransfers_pinsDone (s : State) : SameTransfers s s.pinsDone :=
  foldl_keeps_rel (fun v => SameTransfers.refl v) (fun _ _ _ => SameTransfers.trans) (fun v p _ => sameTransfers_pinStep v p) s

/-! ### A translation granted -/

/-- The cache holds the translation, and the PINs that it completes are done. -/
def translated (s : State) (fn addr size : Nat) : State := ((s.atcPut fn addr size).repin).pinsDone

theorem translated_onlyParts (s : State) (fn addr size : Nat) : OnlyParts [.regs, .fifos, .host, .outbox] s (translated s fn addr size) :=
  (((withHost_onlyParts s _).mono (by decide)).then (repin_onlyParts _) (by decide)).then (pinsDone_onlyParts _) (by decide)

theorem translated_transfers (s : State) (fn addr size : Nat) : (translated s fn addr size).host.descs = s.host.descs ∧
    (translated s fn addr size).host.pri = s.host.pri ∧ (fn, addr % 2 ^ 56 / atcSize size * atcSize size, atcSize size) ∈
      (translated s fn addr size).host.atc.map atcKey := by
  have h := (sameTransfers_repin (s.atcPut fn addr size)).trans (sameTransfers_pinsDone _)
  have h0 : (s.atcPut fn addr size).host.descs = s.host.descs ∧ (s.atcPut fn addr size).host.pri = s.host.pri := ⟨rfl, rfl⟩
  have hk : (fn, addr % 2 ^ 56 / atcSize size * atcSize size, atcSize size) ∈ (s.atcPut fn addr size).host.atc.map atcKey :=
    List.mem_map.mpr ⟨_, List.mem_append_right _ (.head _), rfl⟩
  exact ⟨h.1.trans h0.1, h.2.1.trans h0.2, by unfold translated; rw [h.2.2]; exact hk⟩

/-- A parked descriptor's own fields lie within the register. -/
theorem dmaPark_width (eng q : Nat) : (dmaPark DMA_PARK_PARKED eng q).lo + (dmaPark DMA_PARK_PARKED eng q).wd ≤ 64 :=
  show DMA_PARK_PARKED.lo + DMA_PARK_PARKED.wd ≤ 64 by decide

theorem unpark_onlyParts (s : State) (eng q : Nat) : OnlyParts [.regs, .host] s (s.unpark eng q) := by
  unfold State.unpark
  split
  · exact .ite (.refl _ s) (((withHost_onlyParts s _).mono (by decide)).then (fset_onlyParts _ _ _) (by decide))
  · exact .refl _ s

theorem unpark_host (s : State) (eng q : Nat) : (s.unpark eng q).host.atc = s.host.atc := by
  unfold State.unpark
  split
  · split <;> rfl
  · rfl

/-- A parked transfer for which no page request is outstanding proceeds. -/
theorem unpark_proceeds {s : State} (hi : Inv s) {eng q : Nat} {d : Desc}
    (hd : s.host.descs.find? (fun d => d.eng == eng && d.q == q && d.status == 2) = some d) (hp : ∀ g ∈ s.host.pri, g.2 ≠ (eng, q)) :
    { d with status := 0 } ∈ (s.unpark eng q).host.descs ∧ (s.unpark eng q).fbit (dmaPark DMA_PARK_PARKED eng q) = false := by
  have hn : s.host.pri.any (fun p => p.2 == (eng, q)) = false :=
    List.any_eq_false.mpr fun g hg => by simpa using hp g hg
  unfold State.unpark
  rw [hd]
  simp only [hn, Bool.false_eq_true, if_false]
  refine ⟨List.mem_map.mpr ⟨d, List.mem_of_find?_eq_some hd, by rw [if_pos (beq_self_eq_true d)]⟩, fbit_of_zero ?_⟩
  exact fget_fset_same _ _ 0 ((setDesc_keeps s d { d with status := 0 } (.refl s)).inv hi).1.1 (dmaPark_width eng q)

/-! ### A page asked for -/

/-- What a page request leaves. -/
theorem priRequest_stands (s : State) (eng q addr : Nat) (hl : s.host.pri.length < 512) :
    (s.priRequest eng q addr).2 = s.freeGroup ∧
    OnlyParts [.host, .outbox] s (s.priRequest eng q addr).1 ∧
    (s.priRequest eng q addr).1.host.pri = s.host.pri ++ [(s.freeGroup, eng, q)] ∧
    (s.priRequest eng q addr).1.host.atc = s.host.atc ∧ (s.priRequest eng q addr).1.host.descs = s.host.descs ∧
    (s.priRequest eng q addr).1.outbox = s.outbox ++ [.msg "PRI_PAGE_REQUEST" [s.freeGroup, addr % 2 ^ 56 / 4096]] := by
  unfold State.priRequest
  rw [if_pos hl]
  exact ⟨rfl, ((withHost_onlyParts s _).mono (by decide)).then (emit_onlyParts _ _) (by decide), rfl, rfl, rfl, rfl⟩

section
variable {s : State} {at_ : Nat} (h : Awake s) (hs : Settled s at_) (fn eng q addr size : Nat)
include h hs

theorem exec_translation (granted : Bool) : exec (.translationCompletion at_ fn eng q addr size granted) s =
    .next ((s.advance at_).translation fn eng q addr size granted) :=
  congrArg Host.Outcome.next ((live_runs h.1 _).trans (by rw [upTo_settled _ _ hs]))

theorem translation_granted : ∃ t, exec (.translationCompletion at_ fn eng q addr size true) s = .next t ∧
    (∃ e ∈ t.host.atc, e.fn = fn ∧ e.size = atcSize size ∧ e.addr = addr % 2 ^ 56 / atcSize size * atcSize size) ∧
    (∀ d, s.host.descs.find? (fun d => d.eng == eng && d.q == q && d.status == 2) = some d → (∀ g ∈ s.host.pri, g.2 ≠ (eng, q)) →
      { d with status := 0 } ∈ t.host.descs ∧ t.fbit (dmaPark DMA_PARK_PARKED eng q) = false) ∧
    OnlyParts [.now, .regs, .fifos, .host, .outbox] s t := by
  have he : exec (.translationCompletion at_ fn eng q addr size true) s = .next ((translated (s.advance at_) fn addr size).unpark eng q) :=
    exec_translation h hs fn eng q addr size true
  have hi : Inv (translated (s.advance at_) fn addr size) :=
    (pinsDone_keeps _ (repin_keeps _ (atcPut_keeps _ fn addr size (advance_keeps at_ (.refl s))))).inv h.2
  have hp := translated_onlyParts (s.advance at_) fn addr size
  obtain ⟨hd, hr, hk⟩ := translated_transfers (s.advance at_) fn addr size
  generalize translated (s.advance at_) fn addr size = u at *
  refine ⟨_, he, ?_, fun d hf hg => unpark_proceeds hi (by rw [hd]; exact hf) (by rw [hr]; exact hg),
    (((advance_onlyParts s at_).mono (by decide)).then hp (by decide)).then (unpark_onlyParts u eng q) (by decide)⟩
  rw [unpark_host]
  obtain ⟨e, he, hke⟩ := List.mem_map.mp hk
  simp only [atcKey, Prod.mk.injEq] at hke
  exact ⟨e, he, hke.1, hke.2.2, hke.2.1⟩

theorem translation_refused (hl : s.host.pri.length < 512) : ∃ t, exec (.translationCompletion at_ fn eng q addr size false) s = .next t ∧
    t.host.pri.length = s.host.pri.length + 1 ∧ t.host.atc = s.host.atc ∧
    .msg "PRI_PAGE_REQUEST" [s.freeGroup, addr % 2 ^ 56 / 4096] ∈ t.outbox ∧ OnlyParts [.now, .regs, .host, .outbox] s t := by
  have he : exec (.translationCompletion at_ fn eng q addr size false) s = .next
      (match (s.advance at_).host.descs.find? (fun d => d.eng == eng && d.q == q && d.status == 2) with
      | some d => (((s.advance at_).priRequest eng q addr).1.setDesc d { d with prg := ((s.advance at_).priRequest eng q addr).2 }).fset
          (dmaPark DMA_PARK_PRG eng q) ((s.advance at_).priRequest eng q addr).2
      | none => ((s.advance at_).priRequest eng q addr).1) :=
    (exec_translation h hs fn eng q addr size false).trans (by
      unfold State.translation
      exact congrArg Host.Outcome.next (if_neg Bool.false_ne_true))
  obtain ⟨-, hp, hr, ha, -, ho⟩ := priRequest_stands (s.advance at_) eng q addr hl
  generalize (s.advance at_).priRequest eng q addr = r at *
  have hp' : OnlyParts [.now, .regs, .host, .outbox] s r.1 := ((advance_onlyParts s at_).mono (by decide)).then hp (by decide)
  have hlen : r.1.host.pri.length = s.host.pri.length + 1 := by rw [hr, List.length_append]; rfl
  have hout : .msg "PRI_PAGE_REQUEST" [s.freeGroup, addr % 2 ^ 56 / 4096] ∈ r.1.outbox := by
    rw [ho]; exact List.mem_append_right _ (.head _)
  refine ⟨_, he, ?_⟩
  split
  · exact ⟨hlen, ha, hout, (hp'.then (withHost_onlyParts _ _) (by decide)).then (fset_onlyParts _ _ _) (by decide)⟩
  · exact ⟨hlen, ha, hout, hp'⟩

end

/-! ### What O55 says -/

/-- Settles O55: each request is followed to the ranges, the entries, the rings and the transfer that it touches. -/
theorem translationsArePinnedAndAnswered : Obligations.TranslationsArePinnedAndAnswered := by
  intro s at_ ctx tag addr len h hc hs
  refine ⟨pin_barred h hc hs tag addr len, pin_malformed h hc hs tag addr len, pin_taken h hc hs tag addr len,
    ⟨unpin_barred h hc hs tag addr len, fun ha => unpin_taken h hc hs tag addr len ha rfl⟩, fun fn => ?_, fun grp ok => ⟨pri_late h hs grp ok, ?_⟩,
    fun fn eng q size _ _ => ⟨translation_granted h hs fn eng q addr size, translation_refused h hs fn eng q addr size⟩⟩
  · refine ⟨inval_held h hs fn addr len tag, fun hf => ?_⟩
    obtain ⟨t, he, h1, h2, h3, h4, h5⟩ := inval_answered h hs fn addr len tag hf
    refine ⟨t, he, h1, h2, h3, fun r hr hv hu hm => h4 r hr ?_, h5⟩
    unfold ringHit
    rw [beq_iff_eq.mpr hv, hu, hm]; rfl
  · intro hg eng q hf
    refine ⟨fun hok => ?_, fun hok d hd heng hq => ?_⟩ <;> subst hok
    · exact pri_granted h hs grp hg hf
    · exact pri_failed h hs grp hg hf hd heng hq

end Sys2Proof.Laws
end

section
/-! PROOFS. Transfers that end in fault or wait for a host page (R343, R366, R439, R448, R449). -/

namespace Sys2Proof.Laws

open Sys2Proof.Machine Sys2Proof.Safety

/-! ### The descriptor that an engine serves -/

/-- The engine's turn is at the descriptor's queue. -/
def served (s : State) (eng : Nat) (d : Desc) : State := s.withHost (fun h => { h with turn := assocPut h.turn eng d.q })

theorem served_onlyParts (s : State) (eng : Nat) (d : Desc) : OnlyParts [.host] s (served s eng d) := withHost_onlyParts s _

theorem mem_of_queueHead {s : State} {eng q : Nat} {d : Desc} (h : s.queueHead eng q = some d) : d ∈ s.host.descs := by
  unfold State.queueHead at h
  split at h
  next x hx =>
    split at h
    · cases h; exact List.mem_of_find?_eq_some hx
    · cases h
  · cases h

theorem mem_of_dmaNext {s : State} {eng : Nat} {d : Desc} (h : dmaNext s eng = some d) : d ∈ s.host.descs := by
  obtain ⟨q, -, hq⟩ := List.exists_of_findSome?_eq_some h
  exact mem_of_queueHead hq

/-- What a piece without an error comes to. -/
def chunkOk (u : State) (d : Desc) (n : Nat) : State :=
  if u.unitLost d.src || u.unitLost d.dst then u.descFault d 1
  else
    match u.pieceFault d n with
    | some (a, cause) =>
      ((u.record MMU_FAULT_FIRST_VALID [(MMU_FAULT_FIRST_ADDR, a), (MMU_FAULT_FIRST_CTX, d.ctx), (MMU_FAULT_FIRST_CAUSE, cause)]).setSts
        5 MMU_STS_XLATE_FAULT).descFault d 2
    | none =>
      if (u.pieceReads d n).any (fun r => u.poisonIn r.1 r.2) then u.descFault d 3
      else if u.pieceBarred d n then u.descFault d 2
      else
        let u := u.pieceMove d n
        let d' := { d with offset := d.offset + n }
        let u := u.setDesc d d'
        if d.length ≤ d'.offset then u.descDone d' else u

/-- What serving a descriptor comes to. -/
def chunk (u : State) (d : Desc) (n : Nat) : DmaResult → State
  | .error => u.descFault d 2
  | .pageFault => if inHost d.src || inHost d.dst then u.parkDesc d else u
  | .ok => chunkOk u d n

theorem dmaChunk_some {s : State} {eng : Nat} {d : Desc} (h : dmaNext s eng = some d) (res : DmaResult) :
    s.dmaChunk eng res = chunk (served s eng d) d (pieceLen d) res := by
  have h' : ((range' ((assocGet s.host.turn eng).getD 3 + 1) 4).map (fun q => q % 4)).findSome? (fun q => s.queueHead eng q) = some d := h
  unfold State.dmaChunk
  dsimp only
  rw [h']
  cases res <;> rfl

theorem dmaChunk_none {s : State} {eng : Nat} (h : dmaNext s eng = none) (res : DmaResult) : s.dmaChunk eng res = s := by
  have h' : ((range' ((assocGet s.host.turn eng).getD 3 + 1) 4).map (fun q => q % 4)).findSome? (fun q => s.queueHead eng q) = none := h
  unfold State.dmaChunk
  dsimp only
  rw [h']

section
variable {s : State} {at_ : Nat} (h : Awake s) (hs : Settled s at_) (hr : s.power.reload = none) {eng : Nat}
include h hs hr

theorem exec_dmaChunk (res : DmaResult) : exec (.dmaChunk at_ eng res) s = .next ((s.advance at_).dmaChunk eng res) :=
  congrArg Host.Outcome.next ((live_runs h.1 _).trans (by
    have hl : s.reloading = false := by unfold State.reloading; rw [hr]; rfl
    rw [hl, upTo_settled _ _ hs]; rfl))

theorem exec_dmaChunk_served {d : Desc} (hd : dmaNext s eng = some d) (res : DmaResult) :
    exec (.dmaChunk at_ eng res) s = .next (chunk (served (s.advance at_) eng d) d (pieceLen d) res) :=
  (exec_dmaChunk h hs hr res).trans (congrArg Host.Outcome.next (dmaChunk_some (s := s.advance at_) hd res))

theorem dmaChunk_idle (hd : dmaNext s eng = none) (res : DmaResult) :
    ∃ t, exec (.dmaChunk at_ eng res) s = .next t ∧ OnlyParts [.now] s t :=
  ⟨_, (exec_dmaChunk h hs hr res).trans (congrArg Host.Outcome.next (dmaChunk_none (s := s.advance at_) hd res)), advance_onlyParts s at_⟩

end

theorem served_inv {s : State} (hi : Inv s) (at_ eng : Nat) (d : Desc) : Inv (served (s.advance at_) eng d) :=
  (withHost_keeps _ _ (advance_keeps at_ (.refl s))).inv hi

/-! ### The end in fault -/

/-- The transfer has ended in fault: it is gone, counted and shown, and memory stands. -/
def EndedInFault (d : Desc) (s t : State) : Prop :=
  d ∉ t.host.descs ∧ Counts DMA_CNT_FAULTS 1 s t ∧ t.fbit DMA_STS_FAULT = true ∧ t.mem = s.mem

theorem endedInFault {s u : State} (hi : Inv u) (hm : u.mem = s.mem) (hc : u.fget DMA_CNT_FAULTS = s.fget DMA_CNT_FAULTS) (d : Desc)
    (cause : Nat) : EndedInFault d s (u.descFault d cause) := by
  obtain ⟨h1, h2, h3, h4, -⟩ := descFault_stands hi d cause
  refine ⟨h1, ?_, h3, Eq.trans (h4 .mem (by decide)) hm⟩
  unfold Counts at h2 ⊢
  rw [h2, hc]

/-- A translation fault is recorded and shown before the transfer ends. -/
def xlateShown (s : State) (a ctx cause : Nat) : State :=
  (s.record MMU_FAULT_FIRST_VALID [(MMU_FAULT_FIRST_ADDR, a), (MMU_FAULT_FIRST_CTX, ctx), (MMU_FAULT_FIRST_CAUSE, cause)]).setSts
    5 MMU_STS_XLATE_FAULT

theorem xlateShown_stands {s : State} (hi : Inv s) (a ctx cause : Nat) : OnlyParts [.regs, .outbox] s (xlateShown s a ctx cause) ∧
    Inv (xlateShown s a ctx cause) ∧ (xlateShown s a ctx cause).fget DMA_CNT_FAULTS = s.fget DMA_CNT_FAULTS ∧
    (xlateShown s a ctx cause).fbit MMU_STS_XLATE_FAULT = true ∧
    (s.fbit MMU_FAULT_FIRST_VALID = false → Shows MMU_FAULT_FIRST_ADDR a (xlateShown s a ctx cause) ∧
      Shows MMU_FAULT_FIRST_CAUSE cause (xlateShown s a ctx cause)) := by
  have hk := record_keeps s MMU_FAULT_FIRST_VALID
    [(MMU_FAULT_FIRST_ADDR, a), (MMU_FAULT_FIRST_CTX, ctx), (MMU_FAULT_FIRST_CAUSE, cause)] (.refl s)
  have ho : OnlyRegs [MMU_FAULT_FIRST_VALID.base, MMU_FAULT_FIRST_ADDR.base] s (s.record MMU_FAULT_FIRST_VALID
      [(MMU_FAULT_FIRST_ADDR, a), (MMU_FAULT_FIRST_CTX, ctx), (MMU_FAULT_FIRST_CAUSE, cause)]) := by
    refine only_record s _ _ (by decide) ?_
    simp only [List.forall_mem_cons, List.not_mem_nil, false_implies, implies_true, and_true]
    decide
  have hm : ∀ {f x}, (f, x) ∈ [(MMU_FAULT_FIRST_ADDR, a), (MMU_FAULT_FIRST_CTX, ctx), (MMU_FAULT_FIRST_CAUSE, cause)] →
      s.fbit MMU_FAULT_FIRST_VALID = false → (s.record MMU_FAULT_FIRST_VALID
        [(MMU_FAULT_FIRST_ADDR, a), (MMU_FAULT_FIRST_CTX, ctx), (MMU_FAULT_FIRST_CAUSE, cause)]).fget f = x % 2 ^ f.wd := fun hm hv =>
    fget_record_mem _ s hi.1.1 (by
      change FieldsApart [MMU_FAULT_FIRST_VALID, MMU_FAULT_FIRST_ADDR, MMU_FAULT_FIRST_CTX, MMU_FAULT_FIRST_CAUSE]
      unfold FieldsApart; decide) hv (.tail _ hm)
  have hp := record_onlyParts s MMU_FAULT_FIRST_VALID
    [(MMU_FAULT_FIRST_ADDR, a), (MMU_FAULT_FIRST_CTX, ctx), (MMU_FAULT_FIRST_CAUSE, cause)]
  unfold xlateShown
  generalize s.record MMU_FAULT_FIRST_VALID
    [(MMU_FAULT_FIRST_ADDR, a), (MMU_FAULT_FIRST_CTX, ctx), (MMU_FAULT_FIRST_CAUSE, cause)] = u at *
  have hiu := hk.inv hi
  refine ⟨(hp.mono (by decide)).then (setSts_onlyParts u 5 _) (by decide), (setSts_keeps u 5 _ (.refl u)).inv hiu,
    (fget_setSts_apart u 5 _ _ hiu.1.1 (by decide) (by decide)).trans (ho.fget _ (by decide)), fbit_setSts u 5 _ hiu.1.1 (by decide) rfl,
    fun hv => ⟨?_, ?_⟩⟩
  · exact (fget_setSts_apart u 5 _ _ hiu.1.1 (by decide) (by decide)).trans (hm (.head _) hv)
  · exact (fget_setSts_apart u 5 _ _ hiu.1.1 (by decide) (by decide)).trans (hm (.tail _ (.tail _ (.head _))) hv)

section
variable {s : State} {at_ : Nat} (h : Awake s) (hs : Settled s at_) (hr : s.power.reload = none) {eng : Nat} {d : Desc}
  (hd : dmaNext s eng = some d)
include h hs hr hd

theorem dmaChunk_error : ∃ t, exec (.dmaChunk at_ eng .error) s = .next t ∧ EndedInFault d s t :=
  ⟨_, exec_dmaChunk_served h hs hr hd .error, endedInFault (served_inv h.2 at_ eng d) rfl rfl d 2⟩

theorem dmaChunk_lost (hl : (s.unitLost d.src || s.unitLost d.dst) = true) :
    ∃ t, exec (.dmaChunk at_ eng .ok) s = .next t ∧ EndedInFault d s t := by
  have he : _ = Host.Outcome.next (chunkOk (served (s.advance at_) eng d) d (pieceLen d)) := exec_dmaChunk_served h hs hr hd .ok
  unfold chunkOk at he
  rw [if_pos (show ((served (s.advance at_) eng d).unitLost d.src || (served (s.advance at_) eng d).unitLost d.dst) = true from hl)] at he
  exact ⟨_, he, endedInFault (served_inv h.2 at_ eng d) rfl rfl d 1⟩

theorem dmaChunk_xlate (hl : (s.unitLost d.src || s.unitLost d.dst) = false) {x : Nat × Nat} (hx : s.pieceFault d (pieceLen d) = some x) :
    ∃ t, exec (.dmaChunk at_ eng .ok) s = .next t ∧ EndedInFault d s t ∧ t.fbit MMU_STS_XLATE_FAULT = true ∧
      (s.fbit MMU_FAULT_FIRST_VALID = false → Shows MMU_FAULT_FIRST_ADDR x.1 t ∧ Shows MMU_FAULT_FIRST_CAUSE x.2 t) := by
  have he : _ = Host.Outcome.next (chunkOk (served (s.advance at_) eng d) d (pieceLen d)) := exec_dmaChunk_served h hs hr hd .ok
  unfold chunkOk at he
  have hl' : ((served (s.advance at_) eng d).unitLost d.src || (served (s.advance at_) eng d).unitLost d.dst) = false := hl
  rw [if_neg (by rw [hl']; decide), show (served (s.advance at_) eng d).pieceFault d (pieceLen d) = some x from hx] at he
  have hi := served_inv h.2 at_ eng d
  obtain ⟨hp, hiu, hc, hb, hf⟩ := xlateShown_stands hi x.1 d.ctx x.2
  obtain ⟨-, -, -, -, hg⟩ := descFault_stands hiu d 2
  refine ⟨_, he, endedInFault hiu (Eq.trans (hp .mem (by decide)) rfl) (hc.trans rfl) d 2, ?_, fun hv => ?_⟩
  · exact (congrArg (fun y => y != 0) (hg MMU_STS_XLATE_FAULT (by decide) (by decide) (by decide))).trans hb
  · obtain ⟨h1, h2⟩ := hf hv
    exact ⟨(hg MMU_FAULT_FIRST_ADDR (by decide) (by decide) (by decide)).trans h1,
      (hg MMU_FAULT_FIRST_CAUSE (by decide) (by decide) (by decide)).trans h2⟩

theorem dmaChunk_barred (hl : (s.unitLost d.src || s.unitLost d.dst) = false) (hx : s.pieceFault d (pieceLen d) = none)
    (hb : ((s.pieceReads d (pieceLen d)).any (fun r => s.poisonIn r.1 r.2) || s.pieceBarred d (pieceLen d)) = true) :
    ∃ t, exec (.dmaChunk at_ eng .ok) s = .next t ∧ EndedInFault d s t := by
  have he : _ = Host.Outcome.next (chunkOk (served (s.advance at_) eng d) d (pieceLen d)) := exec_dmaChunk_served h hs hr hd .ok
  unfold chunkOk at he
  have hl' : ((served (s.advance at_) eng d).unitLost d.src || (served (s.advance at_) eng d).unitLost d.dst) = false := hl
  rw [if_neg (by rw [hl']; decide), show (served (s.advance at_) eng d).pieceFault d (pieceLen d) = none from hx] at he
  dsimp only at he
  have hpr : ((served (s.advance at_) eng d).pieceReads d (pieceLen d)).any (fun r => (served (s.advance at_) eng d).poisonIn r.1 r.2) =
    (s.pieceReads d (pieceLen d)).any (fun r => s.poisonIn r.1 r.2) := rfl
  have hpb : (served (s.advance at_) eng d).pieceBarred d (pieceLen d) = s.pieceBarred d (pieceLen d) := rfl
  rw [hpr, hpb] at he
  have hi := served_inv h.2 at_ eng d
  cases hp : (s.pieceReads d (pieceLen d)).any (fun r => s.poisonIn r.1 r.2) with
  | true =>
    rw [hp, if_pos rfl] at he
    exact ⟨_, he, endedInFault hi rfl rfl d 3⟩
  | false =>
    rw [hp, Bool.false_or] at hb
    rw [hp, hb, if_neg Bool.false_ne_true, if_pos rfl] at he
    exact ⟨_, he, endedInFault hi rfl rfl d 2⟩

end

/-! ### A host page that faults (R449) -/

/-- The registers of a queue's parked transfer. -/
theorem dmaPark_facts (eng q : Nat) :
    FieldsApart [dmaPark DMA_PARK_OFFSET eng q, dmaPark DMA_PARK_PRG eng q, dmaPark DMA_PARK_PARKED eng q] ∧
    (dmaPark DMA_PARK_PRG eng q).base = (dmaPark DMA_PARK_OFFSET eng q).base ∧
    (dmaPark DMA_PARK_PARKED eng q).base = (dmaPark DMA_PARK_OFFSET eng q).base ∧
    DMA_CNT_PARKS.base < (dmaPark DMA_PARK_OFFSET eng q).base ∧ DMA_STS_PARKED.base < (dmaPark DMA_PARK_OFFSET eng q).base := by
  refine ⟨?_, rfl, rfl, ?_, ?_⟩
  · unfold FieldsApart
    simp [dmaPark, Fld.ix, apart, DMA_PARK_OFFSET, DMA_PARK_PRG, DMA_PARK_PARKED]
  · simp only [dmaPark, Fld.ix, DMA_PARK_OFFSET, DMA_CNT_PARKS]; omega
  · simp only [dmaPark, Fld.ix, DMA_PARK_OFFSET, DMA_STS_PARKED]; omega

/-- The descriptor waits, and its registers show where. -/
def parkShown (s : State) (d : Desc) (g : Nat) : State :=
  (s.setDesc d { d with status := 2, prg := g }).fsetAll
    [(dmaPark DMA_PARK_OFFSET d.eng d.q, d.offset), (dmaPark DMA_PARK_PRG d.eng d.q, g), (dmaPark DMA_PARK_PARKED d.eng d.q, 1)]

theorem parkDesc_eq (s : State) (d : Desc) : s.parkDesc d =
    ((parkShown (s.priRequest d.eng d.q ((if inHost d.src then d.src else d.dst) + d.offset)).1 d
      (s.priRequest d.eng d.q ((if inHost d.src then d.src else d.dst) + d.offset)).2).fadd DMA_CNT_PARKS 1).setSts 6 DMA_STS_PARKED := rfl

theorem parkShown_stands {s : State} (hi : Inv s) {d : Desc} (hd : d ∈ s.host.descs) (g : Nat) :
    OnlyParts [.regs, .host] s (parkShown s d g) ∧ Inv (parkShown s d g) ∧
    ({ d with status := 2, prg := g } : Desc) ∈ (parkShown s d g).host.descs ∧
    (parkShown s d g).fget (dmaPark DMA_PARK_PARKED d.eng d.q) = 1 ∧
    (parkShown s d g).fget (dmaPark DMA_PARK_OFFSET d.eng d.q) = d.offset % 2 ^ DMA_PARK_OFFSET.wd ∧
    (parkShown s d g).fget DMA_CNT_PARKS = s.fget DMA_CNT_PARKS := by
  obtain ⟨ha, hb1, hb2, hc, -⟩ := dmaPark_facts d.eng d.q
  have hm : ({ d with status := 2, prg := g } : Desc) ∈ (s.setDesc d { d with status := 2, prg := g }).host.descs :=
    List.mem_map.mpr ⟨d, hd, by rw [if_pos (beq_self_eq_true d)]⟩
  have hiu := (setDesc_keeps s d { d with status := 2, prg := g } (.refl s)).inv hi
  have hp : OnlyParts [.host] s (s.setDesc d { d with status := 2, prg := g }) := withHost_onlyParts s _
  have hrr : (s.setDesc d { d with status := 2, prg := g }).regs = s.regs := rfl
  unfold parkShown
  generalize s.setDesc d { d with status := 2, prg := g } = u at *
  have hf : ∀ {f x}, (f, x) ∈ [(dmaPark DMA_PARK_OFFSET d.eng d.q, d.offset), (dmaPark DMA_PARK_PRG d.eng d.q, g),
      (dmaPark DMA_PARK_PARKED d.eng d.q, 1)] → (u.fsetAll [(dmaPark DMA_PARK_OFFSET d.eng d.q, d.offset),
        (dmaPark DMA_PARK_PRG d.eng d.q, g), (dmaPark DMA_PARK_PARKED d.eng d.q, 1)]).fget f = x % 2 ^ f.wd := fun hm =>
    fget_fsetAll_mem _ u hiu.1.1 ha hm
  have hq := fsetAll_onlyParts u [(dmaPark DMA_PARK_OFFSET d.eng d.q, d.offset), (dmaPark DMA_PARK_PRG d.eng d.q, g),
    (dmaPark DMA_PARK_PARKED d.eng d.q, 1)]
  have ho : OnlyRegs [(dmaPark DMA_PARK_OFFSET d.eng d.q).base] u (u.fsetAll [(dmaPark DMA_PARK_OFFSET d.eng d.q, d.offset),
      (dmaPark DMA_PARK_PRG d.eng d.q, g), (dmaPark DMA_PARK_PARKED d.eng d.q, 1)]) := by
    refine only_fsetAll _ u ?_
    simp only [List.forall_mem_cons, List.not_mem_nil, false_implies, implies_true, and_true]
    exact ⟨.head _, hb1 ▸ .head _, hb2 ▸ .head _⟩
  refine ⟨(hp.mono (by decide)).then hq (by decide), (fsetAll_keeps _ (.refl u)).inv hiu, ?_, hf (.tail _ (.tail _ (.head _))),
    hf (.head _), (ho.fget _ (by simpa using (Nat.ne_of_lt hc))).trans (fget_congr hrr _)⟩
  rw [hq .host (by decide)]
  exact hm

section
variable {s : State} {at_ : Nat} (h : Awake s) (hs : Settled s at_) (hr : s.power.reload = none) {eng : Nat} {d : Desc}
  (hd : dmaNext s eng = some d)
include h hs hr hd

theorem dmaChunk_parked (hh : (inHost d.src || inHost d.dst) = true) (hl : s.host.pri.length < 512)
    (ho : d.offset < 2 ^ DMA_PARK_OFFSET.wd) : ∃ t, exec (.dmaChunk at_ eng .pageFault) s = .next t ∧
      ({ d with status := 2, prg := s.freeGroup } : Desc) ∈ t.host.descs ∧
      t.fbit (dmaPark DMA_PARK_PARKED d.eng d.q) = true ∧ t.fget (dmaPark DMA_PARK_OFFSET d.eng d.q) = d.offset ∧
      Counts DMA_CNT_PARKS 1 s t ∧ t.fbit DMA_STS_PARKED = true ∧ OnlyParts [.now, .regs, .host, .outbox] s t := by
  have he : _ = Host.Outcome.next (if inHost d.src || inHost d.dst then (served (s.advance at_) eng d).parkDesc d else _) :=
    exec_dmaChunk_served h hs hr hd .pageFault
  rw [if_pos hh, parkDesc_eq] at he
  obtain ⟨hg, hp, -, -, hdd, -⟩ := priRequest_stands (served (s.advance at_) eng d) d.eng d.q
    ((if inHost d.src then d.src else d.dst) + d.offset) hl
  have hik := (priRequest_keeps (served (s.advance at_) eng d) d.eng d.q ((if inHost d.src then d.src else d.dst) + d.offset)
    (.refl _)).inv (served_inv h.2 at_ eng d)
  have hrr := hp .regs (by decide)
  rw [show (served (s.advance at_) eng d).freeGroup = s.freeGroup from rfl] at hg
  have hps : OnlyParts [.now, .host, .outbox] s ((served (s.advance at_) eng d).priRequest d.eng d.q
      ((if inHost d.src then d.src else d.dst) + d.offset)).1 :=
    (((advance_onlyParts s at_).mono (by decide)).then (served_onlyParts _ eng d) (by decide)).then hp (by decide)
  generalize (served (s.advance at_) eng d).priRequest d.eng d.q ((if inHost d.src then d.src else d.dst) + d.offset) = r at *
  rw [hg] at he
  obtain ⟨hp2, hi2, hm, hpk, hof, hcn⟩ := parkShown_stands hik (d := d) (by rw [hdd]; exact mem_of_dmaNext (s := s) hd) s.freeGroup
  generalize parkShown r.1 d s.freeGroup = w at *
  obtain ⟨-, -, hb2, hc1, hc2⟩ := dmaPark_facts d.eng d.q
  have hcw := counts_fadd hi2 DMA_CNT_PARKS 1 (by decide)
  have hi3 := (fadd_keeps w DMA_CNT_PARKS 1 (.refl w)).inv hi2
  have hfp := fadd_onlyParts w DMA_CNT_PARKS 1
  have hfo : OnlyRegs [DMA_CNT_PARKS.base] w (w.fadd DMA_CNT_PARKS 1) := only_fadd w _ 1 (.head _)
  generalize w.fadd DMA_CNT_PARKS 1 = x at *
  have hso : OnlyRegs [DMA_STS_PARKED.base] x (x.setSts 6 DMA_STS_PARKED) := only_setSts x 6 _ (.head _)
  have hpark : ∀ f : Fld, f.base = (dmaPark DMA_PARK_OFFSET d.eng d.q).base → (x.setSts 6 DMA_STS_PARKED).fget f = w.fget f := fun f hf =>
    (hso.fget f (by rw [hf]; simpa using (Nat.ne_of_gt hc2))).trans (hfo.fget f (by rw [hf]; simpa using (Nat.ne_of_gt hc1)))
  have hsp := setSts_onlyParts x 6 DMA_STS_PARKED
  refine ⟨_, he, ?_, fbit_of_fget ((hpark _ hb2).trans hpk), (hpark _ rfl).trans (hof.trans (Nat.mod_eq_of_lt ho)), ?_,
    fbit_setSts x 6 _ hi3.1.1 (by decide) rfl, (((hps.mono (by decide)).then hp2 (by decide)).then hfp (by decide)).then hsp (by decide)⟩
  · rw [hsp .host (by decide), hfp .host (by decide)]; exact hm
  · unfold Counts at hcw ⊢
    rw [hso.fget _ (by decide), hcw, hcn, fget_congr hrr]; rfl

end

end Sys2Proof.Laws
end

section
/-! PROOFS. Transfers that move their bytes and end (R355, R357, R426, R448, R451). -/

namespace Sys2Proof.Laws

open Sys2Proof.Machine Sys2Proof.Safety

/-! ### Runs of bytes -/

theorem wrBytes_onlyParts : ∀ (l : List Byte) (s : State) (a : Nat), OnlyParts [.mem] s (s.wrBytes a l)
  | [], s, _ => .refl _ s
  | b :: l, s, a => by
    refine OnlyParts.trans (t := s.wr8 a b) ?_ (wrBytes_onlyParts l _ (a + 1))
    intro p hp
    cases p <;> simp at hp <;> rfl

theorem rd8_wrBytes_in : ∀ (l : List Byte) (s : State) (a : Nat), tabWf memDefault s.mem = true → ∀ k, k < l.length →
    some ((s.wrBytes a l).rd8 (a + k)) = l[k]?
  | [], _, _, _, _, hk => absurd hk (Nat.not_lt_zero _)
  | b :: l, s, a, h, k, hk => by
    rw [State.wrBytes]
    cases k with
    | zero =>
      change some (((s.wr8 a b).wrBytes (a + 1) l).rd8 a) = some b
      rw [rd8_wrBytes_out a l _ (a + 1) (by omega), rd8_wr8_same _ _ _ h]
    | succ k =>
      have := rd8_wrBytes_in l (s.wr8 a b) (a + 1) (wf_wr8 s a b h) k (by simpa using hk)
      rw [List.getElem?_cons_succ, ← this, Nat.add_right_comm, Nat.add_assoc]

theorem tabGetList_length {β : Type} (d : Nat → β) (t : List (Nat × β)) : ∀ (n k : Nat), (tabGetList d t k n).length = n
  | 0, _ => rfl
  | n + 1, k => by rw [tabGetList, List.length_cons, tabGetList_length d t n]

theorem tabGetList_eq_map {β : Type} (d : Nat → β) (t : List (Nat × β)) (a : Nat) : ∀ (n k : Nat),
    tabGetList d t (a + k) n = (range' k n).map (fun i => tabGet d t (a + i))
  | 0, _ => rfl
  | n + 1, k => by
    rw [tabGetList, range', List.map_cons, Nat.add_assoc, tabGetList_eq_map d t a n (k + 1)]

theorem rdBytes_eq_map (s : State) (a n : Nat) : s.rdBytes a n = (range' 0 n).map (fun i => s.rd8 (a + i)) :=
  tabGetList_eq_map memDefault s.mem a n 0

theorem range'_getElem? : ∀ (n lo k : Nat), k < n → (range' lo n)[k]? = some (lo + k)
  | n + 1, lo, 0, _ => rfl
  | n + 1, lo, k + 1, h => by
    rw [range', List.getElem?_cons_succ, range'_getElem? n (lo + 1) k (by omega)]
    congr 1
    omega

theorem rdBytes_getElem? (s : State) (a : Nat) {n k : Nat} (h : k < n) : (s.rdBytes a n)[k]? = some (s.rd8 (a + k)) := by
  rw [rdBytes_eq_map, List.getElem?_map, range'_getElem? n 0 k h, Option.map_some, Nat.zero_add]

theorem rdBytes_length (s : State) (a n : Nat) : (s.rdBytes a n).length = n := tabGetList_length _ _ _ _

/-- Bytes written stand in their places, and the others stand. -/
theorem wrBytes_stands {s : State} (hi : Inv s) (a : Nat) (l : List Byte) : OnlyBytes a l.length s (s.wrBytes a l) ∧
    ∀ k, k < l.length → some ((s.wrBytes a l).rd8 (a + k)) = l[k]? :=
  ⟨fun b hb => rd8_wrBytes_out b l s a hb, rd8_wrBytes_in l s a hi.1.2.1⟩

/-- A copy writes what stood in its source. -/
theorem copyMem_stands {s : State} (hi : Inv s) (src dst n : Nat) : OnlyBytes dst n s (s.copyMem src dst n) ∧
    ∀ k, k < n → (s.copyMem src dst n).rd8 (dst + k) = s.rd8 (src + k) := by
  obtain ⟨h1, h2⟩ := wrBytes_stands hi dst (s.rdBytes src n)
  rw [rdBytes_length] at h1 h2
  exact ⟨h1, fun k hk => Option.some.inj ((h2 k hk).trans (rdBytes_getElem? s src hk))⟩

theorem unqueueRange_onlyParts (s : State) (a n : Nat) : OnlyParts [.hub] s (s.unqueueRange a n) := withHub_onlyParts s _

/-! ### A piece that is moved -/

/-- The piece has moved, and the descriptor stands behind it. -/
def pieceMoved (s : State) (d : Desc) (n : Nat) : State :=
  ((s.copyMem (s.descSrc d + d.offset) (d.dst + d.offset) n).unqueueRange (d.dst + d.offset) n).setDesc d { d with offset := d.offset + n }

/-- The descriptors with one replaced. -/
abbrev replaced (l : List Desc) (d d' : Desc) : List Desc := l.map (fun x => if x == d then d' else x)

theorem pieceMoved_stands {s : State} (hi : Inv s) (d : Desc) (n : Nat) : OnlyParts [.mem, .hub, .host] s (pieceMoved s d n) ∧
    Inv (pieceMoved s d n) ∧ OnlyBytes (d.dst + d.offset) n s (pieceMoved s d n) ∧
    (∀ i, i < n → (pieceMoved s d n).rd8 (d.dst + d.offset + i) = s.rd8 (s.descSrc d + d.offset + i)) ∧
    (pieceMoved s d n).host.descs = replaced s.host.descs d { d with offset := d.offset + n } := by
  obtain ⟨h1, h2⟩ := copyMem_stands hi (s.descSrc d + d.offset) (d.dst + d.offset) n
  have hk := (copyMem_keeps s (s.descSrc d + d.offset) (d.dst + d.offset) n (.refl s)).inv hi
  have hp : OnlyParts [.mem] s (s.copyMem (s.descSrc d + d.offset) (d.dst + d.offset) n) := wrBytes_onlyParts _ s _
  unfold pieceMoved
  generalize s.copyMem (s.descSrc d + d.offset) (d.dst + d.offset) n = u at *
  exact ⟨((hp.mono (by decide)).then (unqueueRange_onlyParts u _ _) (by decide)).then (withHost_onlyParts _ _) (by decide),
    (setDesc_keeps _ d _ (withHub_keeps u _ (.refl u))).inv hk, h1, h2,
    congrArg (fun h : HostSt => replaced h.descs d { d with offset := d.offset + n }) (hp .host (by decide))⟩

/-- A replaced descriptor is gone once its replacement is dropped. -/
theorem not_mem_replaced_drop (l : List Desc) (d d' : Desc) : d ∉ (replaced l d d').filter (fun x => !(x == d')) := by
  intro hm
  obtain ⟨hm, hne⟩ := List.mem_filter.mp hm
  obtain ⟨x, -, hx⟩ := List.mem_map.mp hm
  split at hx
  · rw [hx] at hne; simp at hne
  next hnx => rw [hx] at hnx; simp at hnx

/-! ### Prefetches that start again (R355) -/

/-- One waiting prefetch. -/
def wakeStep (f : ImageFile) (s : State) (r : Resid) : State :=
  match slowEnt f r.tensor with
  | some t => (match s.pairHolder f t with
    | some h => if pairBusy h then s else s.prefetchGo f t
    | none => s.prefetchGo f t)
  | none => s

/-- The prefetches that wait. -/
def waiting (s : State) : List Resid := s.slow.filter (fun r => r.prefetching && !s.fetching r.tensor)

theorem wakePrefetch_eq (s : State) (f : ImageFile) : s.wakePrefetch f = (waiting s).foldl (wakeStep f) s := rfl

/-- What of a tensor's residency waking leaves. -/
def residKey (r : Resid) : Nat × Bool × Bool := (r.tensor, r.writing, r.dirty)

/-- Prefetches of tensors of a list alone are started. -/
structure Woken (ids : List Nat) (s t : State) : Prop where
  parts : OnlyParts [.slow, .host] s t
  keeps : Keeps s t
  resid : t.slow.map residKey = s.slow.map residKey
  descs : ∀ x ∈ t.host.descs, x ∈ s.host.descs ∨ ∃ id ∈ ids, x.kind = .prefetch id

theorem Woken.refl (ids : List Nat) (s : State) : Woken ids s s := ⟨.refl _ s, .refl s, rfl, fun _ h => .inl h⟩

theorem Woken.trans {ids : List Nat} {s t u : State} (h : Woken ids s t) (g : Woken ids t u) : Woken ids s u :=
  ⟨h.parts.trans g.parts, h.keeps.trans g.keeps, g.resid.trans h.resid, fun x hx => (g.descs x hx).elim (h.descs x) .inr⟩

theorem slowEnt_tensor {f : ImageFile} {id : Nat} {t : TensorEnt} (h : slowEnt f id = some t) : t.tensor = id := by
  have := List.find?_some h
  simp only [Bool.and_eq_true, beq_iff_eq] at this
  exact this.1.1

theorem setResid_onlyParts (s : State) (tensor : Nat) (g : Resid → Resid) : OnlyParts [.slow] s (s.setResid tensor g) := fun p hp => by
  cases p <;> simp at hp <;> rfl

/-- A clean holder of the pair leaves it. -/
def evicted (s : State) (f : ImageFile) (t : TensorEnt) : State :=
  match s.pairHolder f t with
  | some r => s.setResid r.tensor (fun x => { x with resident := false })
  | none => s

/-- The transfer of a prefetch. -/
def prefetchDesc (s : State) (t : TensorEnt) : Desc :=
  { eng := (slowQueue t false).1, q := (slowQueue t false).2, ctx := s.job.ctx.getD 0, kind := .prefetch t.tensor, src := t.home,
    dst := s.readBase t, length := bankBytes t, fenced := true }

theorem prefetchGo_eq (s : State) (f : ImageFile) (t : TensorEnt) :
    s.prefetchGo f t = (evicted s f t).addDesc (prefetchDesc (evicted s f t) t) := rfl

theorem woken_evicted {ids : List Nat} (s : State) (f : ImageFile) (t : TensorEnt) : Woken ids s (evicted s f t) := by
  unfold evicted
  split
  next r _ =>
    refine ⟨(setResid_onlyParts s _ _).mono (by decide), setResid_keeps s _ _ (.refl s), ?_, fun _ h => .inl h⟩
    change (s.slow.map (fun x => if x.tensor == r.tensor then _ else x)).map residKey = _
    rw [List.map_map]
    refine List.map_congr_left fun x _ => ?_
    simp only [Function.comp]
    split <;> rfl
  · exact .refl ids s

theorem woken_prefetchGo {ids : List Nat} (s : State) (f : ImageFile) (t : TensorEnt) (hm : t.tensor ∈ ids) :
    Woken ids s (s.prefetchGo f t) := by
  rw [prefetchGo_eq]
  have hev := woken_evicted (ids := ids) s f t
  generalize evicted s f t = u at *
  refine hev.trans ⟨(withHost_onlyParts u _).mono (by decide), addDesc_keeps u _ (.refl u), rfl, fun x hx => ?_⟩
  rcases List.mem_append.mp hx with hx | hx
  · exact .inl hx
  · exact .inr ⟨t.tensor, hm, by rw [List.mem_singleton.mp hx]; rfl⟩

theorem woken_wakeStep {ids : List Nat} (f : ImageFile) (s : State) {r : Resid} (hr : r.tensor ∈ ids) : Woken ids s (wakeStep f s r) := by
  unfold wakeStep
  split
  next t ht =>
    have hm : t.tensor ∈ ids := slowEnt_tensor ht ▸ hr
    split
    · split
      · exact .refl ids s
      · exact woken_prefetchGo s f t hm
    · exact woken_prefetchGo s f t hm
  · exact .refl ids s

theorem woken_wakePrefetch (s : State) (f : ImageFile) : Woken ((waiting s).map (fun r => r.tensor)) s (s.wakePrefetch f) := by
  rw [wakePrefetch_eq]
  exact foldl_keeps_rel (write := wakeStep f) (Woken.refl _) (fun _ _ _ => Woken.trans)
    (fun v r hr => woken_wakeStep f v (List.mem_map.mpr ⟨r, hr, rfl⟩)) s

/-- Waking where an image is loaded. -/
def woke (s : State) : State := match s.image with | some f => s.wakePrefetch f | none => s

theorem woken_woke (s : State) : Woken ((waiting s).map (fun r => r.tensor)) s (woke s) := by
  unfold woke
  split
  · exact woken_wakePrefetch s _
  · exact .refl _ s

/-- With no prefetch waiting, none starts. -/
theorem woke_idle {s : State} (h : waiting s = []) : woke s = s := by
  unfold woke
  split
  · rw [wakePrefetch_eq, h]; rfl
  · rfl

end Sys2Proof.Laws
end

section
/-! PROOFS. What the last piece of a transfer brings, and the transfers of the slow tier (R355, R357, R426, R448). -/

namespace Sys2Proof.Laws

open Sys2Proof.Machine Sys2Proof.Safety

/-! ### The end of a transfer within memory -/

/-- The residency that a prefetch leaves when it ends. -/
def fetched (x : Resid) : Resid := { x with prefetching := false, resident := true, dirty := false }

/-- The residency that a write-back leaves when it ends. -/
def homeWritten (x : Resid) : Resid := { x with writing := false, dirty := false }

/-- One tensor's residency replaced. -/
theorem setResid_slow (s : State) (id : Nat) (g : Resid → Resid) :
    (s.setResid id g).slow = s.slow.map (fun r => if r.tensor == id then g r else r) := rfl

theorem mem_setResid {s : State} {id : Nat} {g : Resid → Resid} (hg : ∀ x, (g x).tensor = x.tensor) {r : Resid}
    (h : r ∈ (s.setResid id g).slow) : ∃ x ∈ s.slow, r.tensor = x.tensor ∧ (x.tensor = id → r = g x) ∧ (x.tensor ≠ id → r = x) := by
  rw [setResid_slow] at h
  obtain ⟨x, hx, rfl⟩ := List.mem_map.mp h
  by_cases he : x.tensor = id
  · rw [if_pos (beq_iff_eq.mpr he)]
    exact ⟨x, hx, hg x, fun _ => rfl, fun hn => absurd he hn⟩
  · rw [if_neg (by simpa using he)]
    exact ⟨x, hx, rfl, fun hn => absurd hn he, fun _ => rfl⟩

section
variable {w : State} (hi : Inv w) {d d' : Desc} (hw : d ∉ (w.dropDescs (fun x => x == d')).host.descs)
include hi hw

/-- The last piece of a micro-batch. -/
theorem ingest_done {step slot : Nat} (hk : d'.kind = .ingest step slot) : (w.descDone d').mem = w.mem ∧ d ∉ (w.descDone d').host.descs ∧
    Completes d'.ctx d'.tag 4 0 0 w (w.descDone d') := by
  have he : w.descDone d' = (w.dropDescs (fun x => x == d')).ingestEnded d'.ctx d'.tag step slot true := by
    unfold State.descDone; rw [hk]
  rw [he]
  have hiu := (dropDescs_keeps w (fun x => x == d') (.refl w)).inv hi
  have hs : SameEgress w (w.dropDescs (fun x => x == d')) := ⟨rfl, rfl, rfl⟩
  have hm : (w.dropDescs (fun x => x == d')).mem = w.mem := rfl
  generalize w.dropDescs (fun x => x == d') = u at *
  have hb := beside_ingestEnded dmaField_note u d'.ctx d'.tag step slot true
  refine ⟨Eq.trans (hb.parts .mem (by decide)) hm, by rw [hb.parts .host (by decide)]; exact hw, hs.posts ?_⟩
  unfold State.ingestEnded
  rw [if_pos rfl]
  dsimp only
  have hp := fun g => setVerdicts_onlyParts u d'.ctx g
  have hv := fun g => (setVerdicts_keeps u d'.ctx g (.refl u)).inv hiu
  exact (SameEgress.of_parts (hp _) (by decide) (fget_congr (hp _ .regs (by decide)) _)).posts
    (completes_commandDone (hv _) d'.ctx d'.tag 4 0 0)

/-- The last piece of a prefetch. -/
theorem prefetch_done {id : Nat} (hk : d'.kind = .prefetch id) (hkd : d.kind = .prefetch id) : (w.descDone d').mem = w.mem ∧
    d ∉ (w.descDone d').host.descs ∧ ((∀ r ∈ w.slow, r.prefetching = true → r.tensor = id) →
      ∀ r ∈ (w.descDone d').slow, r.tensor = id → r.resident = true ∧ r.prefetching = false) := by
  have he : w.descDone d' = woke ((w.dropDescs (fun x => x == d')).setResid id fetched) := by
    unfold State.descDone; rw [hk]; rfl
  rw [he]
  have hslow : ∀ r ∈ ((w.dropDescs (fun x => x == d')).setResid id fetched).slow, ∃ x ∈ w.slow, r.tensor = x.tensor ∧
      (x.tensor = id → r = fetched x) ∧ (x.tensor ≠ id → r = x) := fun r hr =>
    mem_setResid (s := w.dropDescs (fun x => x == d')) (g := fetched) (fun _ => rfl) hr
  have hdesc : d ∉ ((w.dropDescs (fun x => x == d')).setResid id fetched).host.descs := hw
  have hm : ((w.dropDescs (fun x => x == d')).setResid id fetched).mem = w.mem := rfl
  generalize (w.dropDescs (fun x => x == d')).setResid id fetched = u at *
  have hnot : ∀ r ∈ u.slow, r.prefetching = true → r.tensor ≠ id := fun r hr hp hid => by
    obtain ⟨x, -, ht, hf, -⟩ := hslow r hr
    rw [hf (ht ▸ hid)] at hp
    exact Bool.noConfusion hp
  have hwk := woken_woke u
  refine ⟨Eq.trans (hwk.parts .mem (by decide)) hm, fun hmem => ?_, fun hall => ?_⟩
  · rcases hwk.descs d hmem with h | ⟨i, hin, hki⟩
    · exact hdesc h
    · obtain ⟨r, hr, rfl⟩ := List.mem_map.mp hin
      obtain ⟨hr, hp⟩ := List.mem_filter.mp hr
      rw [Bool.and_eq_true] at hp
      rw [hkd] at hki
      exact hnot r hr hp.1 (DmaKind.prefetch.inj hki).symm
  · have hidle : waiting u = [] := List.filter_eq_nil_iff.mpr fun r hr hp => by
      rw [Bool.and_eq_true] at hp
      obtain ⟨x, hx, ht, -, hne⟩ := hslow r hr
      have hid := hnot r hr hp.1
      have := hne (ht ▸ hid)
      exact hid (ht.trans (hall x hx (this ▸ hp.1)))
    rw [woke_idle hidle]
    intro r hr hid
    obtain ⟨x, -, ht, hf, -⟩ := hslow r hr
    rw [hf (ht ▸ hid)]
    exact ⟨rfl, rfl⟩

/-- The last piece of a write-back. -/
theorem writeBack_done {id : Nat} (hk : d'.kind = .writeBack id) (hkd : d.kind = .writeBack id) : (w.descDone d').mem = w.mem ∧
    d ∉ (w.descDone d').host.descs ∧ ∀ r ∈ (w.descDone d').slow, r.tensor = id → r.writing = false ∧ r.dirty = false := by
  have he : w.descDone d' = woke (((w.dropDescs (fun x => x == d')).setResid id homeWritten).fadd HULL_SLOW_CNT_WRITEBACKS 1) := by
    unfold State.descDone; rw [hk]; rfl
  rw [he]
  have hslow : ∀ r ∈ (((w.dropDescs (fun x => x == d')).setResid id homeWritten).fadd HULL_SLOW_CNT_WRITEBACKS 1).slow, ∃ x ∈ w.slow,
      r.tensor = x.tensor ∧ (x.tensor = id → r = homeWritten x) ∧ (x.tensor ≠ id → r = x) := fun r hr =>
    mem_setResid (s := w.dropDescs (fun x => x == d')) (g := homeWritten) (fun _ => rfl) hr
  have hdesc : d ∉ (((w.dropDescs (fun x => x == d')).setResid id homeWritten).fadd HULL_SLOW_CNT_WRITEBACKS 1).host.descs := hw
  have hm : (((w.dropDescs (fun x => x == d')).setResid id homeWritten).fadd HULL_SLOW_CNT_WRITEBACKS 1).mem = w.mem := rfl
  generalize ((w.dropDescs (fun x => x == d')).setResid id homeWritten).fadd HULL_SLOW_CNT_WRITEBACKS 1 = u at *
  have hwk := woken_woke u
  refine ⟨Eq.trans (hwk.parts .mem (by decide)) hm, fun hmem => ?_, fun r hr hid => ?_⟩
  · rcases hwk.descs d hmem with h | ⟨i, -, hki⟩
    · exact hdesc h
    · rw [hkd] at hki; cases hki
  · have hmk : residKey r ∈ u.slow.map residKey := hwk.resid ▸ List.mem_map.mpr ⟨r, hr, rfl⟩
    obtain ⟨y, hy, hyk⟩ := List.mem_map.mp hmk
    simp only [residKey, Prod.mk.injEq] at hyk
    obtain ⟨x, -, ht, hf, -⟩ := hslow y hy
    have hyx := hf (by rw [← ht, hyk.1, hid])
    rw [← hyk.2.1, ← hyk.2.2, hyx]
    exact ⟨rfl, rfl⟩

end

theorem kind_of_movesMem {k : DmaKind} (h : movesMem k = true) :
    (∃ step slot, k = .ingest step slot) ∨ (∃ id, k = .prefetch id) ∨ ∃ id, k = .writeBack id := by
  cases k with
  | ingest step slot => exact .inl ⟨step, slot, rfl⟩
  | prefetch id => exact .inr (.inl ⟨id, rfl⟩)
  | writeBack id => exact .inr (.inr ⟨id, rfl⟩)
  | _ => exact Bool.noConfusion h

section
variable {s : State} {at_ : Nat} (h : Awake s) (hs : Settled s at_)
include h hs

/-- A piece that may move moves its bytes, and the last one ends its transfer. -/
theorem dmaChunk_moves (hr : s.power.reload = none) {eng : Nat} {d : Desc} (hd : dmaNext s eng = some d)
    (hl : (s.unitLost d.src || s.unitLost d.dst) = false) (hx : s.pieceFault d (pieceLen d) = none) (hmv : movesMem d.kind = true)
    (hpz : (s.pieceReads d (pieceLen d)).any (fun r => s.poisonIn r.1 r.2) = false) (hbar : s.pieceBarred d (pieceLen d) = false) :
    ∃ t, exec (.dmaChunk at_ eng .ok) s = .next t ∧ OnlyBytes (d.dst + d.offset) (pieceLen d) s t ∧
      (∀ i, i < pieceLen d → t.rd8 (d.dst + d.offset + i) = s.rd8 (s.descSrc d + d.offset + i)) ∧
      (d.offset + pieceLen d < d.length → { d with offset := d.offset + pieceLen d } ∈ t.host.descs ∧
        OnlyParts [.now, .mem, .hub, .host] s t) ∧
      (d.length ≤ d.offset + pieceLen d → d ∉ t.host.descs ∧
        (∀ step slot, d.kind = .ingest step slot → Completes d.ctx d.tag 4 0 0 s t) ∧
        (∀ id, d.kind = .prefetch id → (∀ r ∈ s.slow, r.prefetching = true → r.tensor = id) →
          ∀ r ∈ t.slow, r.tensor = id → r.resident = true ∧ r.prefetching = false) ∧
        (∀ id, d.kind = .writeBack id → ∀ r ∈ t.slow, r.tensor = id → r.writing = false ∧ r.dirty = false)) := by
  have he : _ = Host.Outcome.next (chunkOk (served (s.advance at_) eng d) d (pieceLen d)) := exec_dmaChunk_served h hs hr hd .ok
  have hl' : ((served (s.advance at_) eng d).unitLost d.src || (served (s.advance at_) eng d).unitLost d.dst) = false := hl
  have hpr : ((served (s.advance at_) eng d).pieceReads d (pieceLen d)).any (fun r => (served (s.advance at_) eng d).poisonIn r.1 r.2) =
    false := hpz
  have hpb : (served (s.advance at_) eng d).pieceBarred d (pieceLen d) = false := hbar
  have hpm : ((served (s.advance at_) eng d).pieceMove d (pieceLen d)).setDesc d { d with offset := d.offset + pieceLen d } =
      pieceMoved (served (s.advance at_) eng d) d (pieceLen d) := by
    unfold State.pieceMove; rw [if_pos hmv]; rfl
  unfold chunkOk at he
  rw [if_neg (by rw [hl']; decide), show (served (s.advance at_) eng d).pieceFault d (pieceLen d) = none from hx] at he
  dsimp only at he
  rw [hpr, hpb, if_neg Bool.false_ne_true, if_neg Bool.false_ne_true, hpm] at he
  obtain ⟨hparts, hi, hout, hin, hdescs⟩ := pieceMoved_stands (served_inv h.2 at_ eng d) d (pieceLen d)
  have hmem : d ∈ s.host.descs := mem_of_dmaNext hd
  have hall : OnlyParts [.now, .mem, .hub, .host] s (pieceMoved (served (s.advance at_) eng d) d (pieceLen d)) :=
    (((advance_onlyParts s at_).mono (by decide)).then (served_onlyParts _ eng d) (by decide)).then hparts (by decide)
  have hreg : (served (s.advance at_) eng d).descSrc d = s.descSrc d := rfl
  have hrd : ∀ a, (served (s.advance at_) eng d).rd8 a = s.rd8 a := fun _ => rfl
  have hout' : OnlyBytes (d.dst + d.offset) (pieceLen d) s (pieceMoved (served (s.advance at_) eng d) d (pieceLen d)) := hout
  rw [hreg] at hin
  have hin' : ∀ i, i < pieceLen d → (pieceMoved (served (s.advance at_) eng d) d (pieceLen d)).rd8 (d.dst + d.offset + i) =
    s.rd8 (s.descSrc d + d.offset + i) := hin
  have hdescs' : (pieceMoved (served (s.advance at_) eng d) d (pieceLen d)).host.descs =
    replaced s.host.descs d { d with offset := d.offset + pieceLen d } := hdescs
  clear hout hin hdescs hparts hpm hpb hpr hl' hreg hrd
  generalize pieceMoved (served (s.advance at_) eng d) d (pieceLen d) = w at *
  refine ⟨_, he, ?_⟩
  by_cases hlast : d.length ≤ d.offset + pieceLen d
  · rw [if_pos hlast]
    have hgone : d ∉ (w.dropDescs (fun x => x == { d with offset := d.offset + pieceLen d })).host.descs := by
      change d ∉ w.host.descs.filter _
      rw [hdescs']
      exact not_mem_replaced_drop _ _ _
    have hsame : SameEgress s w := SameEgress.of_parts hall (by decide) (fget_congr (hall .regs (by decide)) _)
    have hsl : w.slow = s.slow := hall .slow (by decide)
    have hfin : ∀ {t : State}, t.mem = w.mem → OnlyBytes (d.dst + d.offset) (pieceLen d) s t ∧
        ∀ i, i < pieceLen d → t.rd8 (d.dst + d.offset + i) = s.rd8 (s.descSrc d + d.offset + i) := fun {t} hm =>
      ⟨fun b hb => by rw [rd8_congr hm]; exact hout' b hb, fun i hi => by rw [rd8_congr hm]; exact hin' i hi⟩
    have hno : ∀ {p : Prop}, d.offset + pieceLen d < d.length → p := fun hlt => absurd hlast (Nat.not_le.mpr hlt)
    rcases kind_of_movesMem hmv with ⟨step, slot, hk⟩ | ⟨id, hk⟩ | ⟨id, hk⟩
    · obtain ⟨h1, h2, h3⟩ := ingest_done hi hgone hk
      exact ⟨(hfin h1).1, (hfin h1).2, hno, fun _ => ⟨h2, fun _ _ _ => hsame.posts h3,
        fun _ hh => (nomatch hk.symm.trans hh), fun _ hh => (nomatch hk.symm.trans hh)⟩⟩
    · obtain ⟨h1, h2, h3⟩ := prefetch_done hi hgone hk hk
      refine ⟨(hfin h1).1, (hfin h1).2, hno, fun _ => ⟨h2, fun _ _ hh => (nomatch hk.symm.trans hh), fun i hh hall => ?_,
        fun _ hh => (nomatch hk.symm.trans hh)⟩⟩
      obtain rfl := DmaKind.prefetch.inj (hk.symm.trans hh)
      exact h3 (by rw [hsl]; exact hall)
    · obtain ⟨h1, h2, h3⟩ := writeBack_done hi hgone hk hk
      refine ⟨(hfin h1).1, (hfin h1).2, hno, fun _ => ⟨h2, fun _ _ hh => (nomatch hk.symm.trans hh),
        fun _ hh => (nomatch hk.symm.trans hh), fun i hh => ?_⟩⟩
      obtain rfl := DmaKind.writeBack.inj (hk.symm.trans hh)
      exact h3
  · rw [if_neg hlast]
    refine ⟨hout', hin', fun _ => ⟨?_, hall⟩, fun hle => absurd hle hlast⟩
    rw [hdescs']
    exact List.mem_map.mpr ⟨d, hmem, by rw [if_pos (beq_self_eq_true d)]⟩

/-! ### Prefetches and write-backs that begin -/

theorem exec_prefetch {f : ImageFile} {p : PlanImg} (hin : InTick f p s) (hr : s.power.reload = none) (id : Nat) :
    exec (.prefetch at_ id) s = .next ((s.advance at_).prefetch f id) :=
  congrArg Host.Outcome.next ((live_runs h.1 _).trans (by
    obtain ⟨-, ha, hf, -⟩ := hin
    have hl : s.reloading = false := by unfold State.reloading; rw [hr]; rfl
    rw [hf]; dsimp only; rw [ha, hl, upTo_settled _ _ hs]; rfl))

theorem exec_writeBack {f : ImageFile} {p : PlanImg} (hin : InTick f p s) (hr : s.power.reload = none) (id : Nat) :
    exec (.writeBack at_ id) s = .next ((s.advance at_).writeBack f id) :=
  congrArg Host.Outcome.next ((live_runs h.1 _).trans (by
    obtain ⟨-, ha, hf, -⟩ := hin
    have hl : s.reloading = false := by unfold State.reloading; rw [hr]; rfl
    rw [hf]; dsimp only; rw [ha, hl, upTo_settled _ _ hs]; rfl))

omit h hs in
/-- The residency of a tensor whose own is replaced. -/
theorem resid_setResid {r : Resid} {id : Nat} (hres : s.resid id = some r) {g : Resid → Resid} (hg : ∀ x, (g x).tensor = x.tensor) :
    (s.setResid id g).resid id = some (g r) := by
  unfold State.resid at hres ⊢
  rw [setResid_slow]
  generalize s.slow = l at *
  induction l with
  | nil => cases hres
  | cons x l ih =>
    by_cases hx : x.tensor = id
    · rw [List.find?_cons_of_pos (by simpa using hx)] at hres
      cases hres
      rw [List.map_cons, if_pos (by simpa using hx), List.find?_cons_of_pos (by rw [hg]; simpa using hx)]
    · rw [List.find?_cons_of_neg (by simpa using hx)] at hres
      rw [List.map_cons, if_neg (by simpa using hx), List.find?_cons_of_neg (by simpa using hx)]
      exact ih hres

omit h hs in
/-- Marking a prefetch as under way does not change who holds a pair. -/
theorem pairHolder_prefetching {f : ImageFile} {e : TensorEnt} (id : Nat) (hp : s.pairHolder f e = none) :
    (s.setResid id (fun x => { x with prefetching := true })).pairHolder f e = none := by
  unfold State.pairHolder at hp ⊢
  rw [setResid_slow, List.find?_eq_none]
  rw [List.find?_eq_none] at hp
  intro r hr
  obtain ⟨x, hx, rfl⟩ := List.mem_map.mp hr
  have := hp x hx
  split <;> exact this

theorem prefetch_begins {f : ImageFile} {p : PlanImg} {e : TensorEnt} {r : Resid} (hin : InTick f p s) (hr : s.power.reload = none)
    (hent : slowEnt f e.tensor = some e) (hres : s.resid e.tensor = some r) (h1 : r.resident = false) (h2 : r.prefetching = false)
    (hp : s.pairHolder f e = none) : ∃ t, exec (.prefetch at_ e.tensor) s = .next t ∧ t.now = max s.now at_ ∧
      t.resid e.tensor = some { r with prefetching := true } ∧
      t.host.descs = s.host.descs ++ [{
        eng := (slowQueue e false).1, q := (slowQueue e false).2, ctx := s.job.ctx.getD 0,
        kind := .prefetch e.tensor, src := e.home, dst := s.readBase e, length := bankBytes e, fenced := true }] ∧
      OnlyParts [.now, .slow, .host] s t := by
  have he := exec_prefetch h hs hin hr e.tensor
  have hph := pairHolder_prefetching (s := s.advance at_) (f := f) (e := e) e.tensor hp
  have heq : (s.advance at_).prefetch f e.tensor = ((s.advance at_).setResid e.tensor (fun x => { x with prefetching := true })).addDesc
      (prefetchDesc ((s.advance at_).setResid e.tensor (fun x => { x with prefetching := true })) e) := by
    unfold State.prefetch
    rw [hent, show (s.advance at_).resid e.tensor = some r from hres]
    dsimp only
    rw [h1, h2, if_neg (by decide), hph]
    dsimp only
    rw [prefetchGo_eq]
    unfold evicted
    rw [hph]
  rw [heq] at he
  have hrs := resid_setResid (s := s.advance at_) hres (g := fun x => { x with prefetching := true }) (fun _ => rfl)
  refine ⟨_, he, rfl, hrs, rfl, ?_⟩
  exact (((advance_onlyParts s at_).mono (by decide)).then (setResid_onlyParts _ _ _) (by decide)).then (withHost_onlyParts _ _) (by decide)

theorem prefetch_resident {f : ImageFile} {p : PlanImg} {e : TensorEnt} {r : Resid} (hin : InTick f p s) (hr : s.power.reload = none)
    (hent : slowEnt f e.tensor = some e) (hres : s.resid e.tensor = some r) (h1 : r.resident = true) :
    ∃ t, exec (.prefetch at_ e.tensor) s = .next t ∧ OnlyParts [.now] s t := by
  have he := exec_prefetch h hs hin hr e.tensor
  have heq : (s.advance at_).prefetch f e.tensor = s.advance at_ := by
    unfold State.prefetch
    rw [hent, show (s.advance at_).resid e.tensor = some r from hres]
    dsimp only
    rw [h1, Bool.true_or, if_pos rfl]
  rw [heq] at he
  exact ⟨_, he, advance_onlyParts s at_⟩

theorem writeBack_begins {f : ImageFile} {p : PlanImg} {e : TensorEnt} {r : Resid} (hin : InTick f p s) (hr : s.power.reload = none)
    (hent : slowEnt f e.tensor = some e) (hres : s.resid e.tensor = some r) (h1 : r.resident = true) (h2 : r.dirty = true)
    (h3 : r.writing = false) : ∃ t, exec (.writeBack at_ e.tensor) s = .next t ∧
      t.resid e.tensor = some { r with writing := true } ∧
      t.host.descs = s.host.descs ++ [{
        eng := (slowQueue e true).1, q := (slowQueue e true).2, ctx := s.job.ctx.getD 0,
        kind := .writeBack e.tensor, src := s.commitBase s.ccr s.job.lag e, dst := e.home, length := bankBytes e }] ∧
      OnlyParts [.now, .slow, .host] s t := by
  have he := exec_writeBack h hs hin hr e.tensor
  have heq : (s.advance at_).writeBack f e.tensor = ((s.advance at_).setResid e.tensor (fun x => { x with writing := true })).addDesc
      { eng := (slowQueue e true).1, q := (slowQueue e true).2, ctx := s.job.ctx.getD 0,
        kind := .writeBack e.tensor, src := s.commitBase s.ccr s.job.lag e, dst := e.home, length := bankBytes e } := by
    unfold State.writeBack
    rw [hent, show (s.advance at_).resid e.tensor = some r from hres]
    dsimp only
    rw [h1, h2, h3, if_pos (by decide)]
    rfl
  rw [heq] at he
  have hrs := resid_setResid (s := s.advance at_) hres (g := fun x => { x with writing := true }) (fun _ => rfl)
  refine ⟨_, he, hrs, rfl, ?_⟩
  exact (((advance_onlyParts s at_).mono (by decide)).then (setResid_onlyParts _ _ _) (by decide)).then (withHost_onlyParts _ _) (by decide)

end

end Sys2Proof.Laws
end

section
/-! PROOFS. Lost devices, the HDM window and snoops (R361, R364, R417 to R419), and what O56 says. -/

namespace Sys2Proof.Laws

open Sys2Proof.Machine Sys2Proof.Safety

/-! ### A device that is lost -/

/-- The fields that tell which devices there are, and which have been lost. -/
def slowFlds : List Fld :=
  [HULL_SLOW_EXP_UP.ix 0, HULL_SLOW_EXP_UP.ix 1, HULL_SLOW_EXP_UP.ix 2, HULL_SLOW_EXP_UP.ix 3, HULL_SLOW_EXP_PRESENT.ix 0,
   HULL_SLOW_EXP_PRESENT.ix 1, HULL_SLOW_EXP_PRESENT.ix 2, HULL_SLOW_EXP_PRESENT.ix 3]

/-- The fields that tell which devices there are. -/
abbrev DeviceField (g : Fld) : Prop := g ∈ slowFlds

/-- Those, and the bits of the devices lost. -/
abbrev SlowField (g : Fld) : Prop := g ∈ HULL_SLOW_STS_EXPANDER_LOST :: HULL_SLOW_STS_LENDER_LOST :: slowFlds

theorem slowField_note : ∀ g, SlowField g → g.base ∉ noteRegs := by
  have h : ∀ g ∈ HULL_SLOW_STS_EXPANDER_LOST :: HULL_SLOW_STS_LENDER_LOST :: slowFlds, g.base ∉ noteRegs := by decide
  exact h

theorem endFlds_slow : ∀ f ∈ endFlds, ApartFrom SlowField f := by
  have h : ∀ f ∈ endFlds, f.lo + f.wd ≤ 64 ∧ ∀ g ∈ HULL_SLOW_STS_EXPANDER_LOST :: HULL_SLOW_STS_LENDER_LOST :: slowFlds,
    apart f g = true := by decide
  exact h

theorem apartFrom_dmaSts : ApartFrom SlowField DMA_CNT_FAULTS ∧ ApartFrom SlowField DMA_STS_FAULT := by
  have h : ∀ f ∈ [DMA_CNT_FAULTS, DMA_STS_FAULT], f.lo + f.wd ≤ 64 ∧
    ∀ g ∈ HULL_SLOW_STS_EXPANDER_LOST :: HULL_SLOW_STS_LENDER_LOST :: slowFlds, apart f g = true := by decide
  exact ⟨h _ (.head _), h _ (.tail _ (.head _))⟩

/-- The end in fault of a transfer, beside any fields that no transfer's end writes. -/
theorem beside_descFault {K : Fld → Prop} (hn : ∀ g, K g → g.base ∉ noteRegs) (hK : ∀ f ∈ endFlds, ApartFrom K f)
    (hc : ApartFrom K DMA_CNT_FAULTS) (hs : ApartFrom K DMA_STS_FAULT) (s : State) (d : Desc) (cause : Nat) :
    Beside K endParts s (s.descFault d cause) := by
  rw [descFault_eq]
  exact ((((beside_fadd s _ 1 hc).mono (by decide) (fun _ => id)).then (beside_setSts _ 6 _ hs) (by decide)).then
    (beside_withHost _ _) (by decide)).trans (beside_faultEnd hn hK _ d cause)

theorem faultEnd_lendersLost (s : State) (d : Desc) (cause : Nat) : (faultEnd s d cause).host.lendersLost = s.host.lendersLost := by
  unfold faultEnd
  split
  · exact congrArg HostSt.lendersLost ((beside_ingestEnded dmaField_note s _ _ _ _ _).parts .host (by decide))
  · exact Eq.trans (congrArg HostSt.lendersLost ((commandDone_onlyParts _ _ _ _ _ _) .host (by decide)))
      (Eq.trans (congrArg HostSt.lendersLost ((fsetAll_onlyParts _ _) .host (by decide))) rfl)
  · exact Eq.trans (congrArg HostSt.lendersLost ((commandDone_onlyParts _ _ _ _ _ _) .host (by decide))) rfl
  · exact congrArg HostSt.lendersLost ((beside_slowError endFlds_dma s _ _).parts .host (by decide))
  · exact congrArg HostSt.lendersLost ((beside_slowError endFlds_dma s _ _).parts .host (by decide))
  · unfold State.abandonHarvest
    split
    · dsimp only
      rw [setSts_onlyParts _ _ _ .host (by decide), fadd_onlyParts _ _ _ .host (by decide), fsetAll_onlyParts _ _ .host (by decide)]
      rfl
    · rfl
  · rfl

theorem descFault_lendersLost (s : State) (d : Desc) (cause : Nat) : (s.descFault d cause).host.lendersLost = s.host.lendersLost := by
  rw [descFault_eq, faultEnd_lendersLost]
  change (faultCounted s).host.lendersLost = _
  rw [(beside_faultCounted s).parts .host (by decide)]

theorem beside_failUnit (s : State) (p : Nat → Bool) : Beside SlowField endParts s (s.failUnit p) :=
  .foldl (fun v d _ => beside_descFault slowField_note endFlds_slow apartFrom_dmaSts.1 apartFrom_dmaSts.2 v d 1) s

theorem failUnit_lendersLost (s : State) (p : Nat → Bool) : (s.failUnit p).host.lendersLost = s.host.lendersLost :=
  foldl_keeps_rel (R := fun s t => t.host.lendersLost = s.host.lendersLost) (fun _ => rfl) (fun _ _ _ h g => g.trans h)
    (fun v d _ => descFault_lendersLost v d 1) s

/-- A lost device is recorded, class C, and its transfers fail. -/
def deviceLost (s : State) (source unit : Nat) (sts : Fld) (p : Nat → Bool) : State :=
  ((s.slowFirst 0 source unit 1).classC 0 sts).failUnit p

/-- The parts that a lost device touches. -/
abbrev lostParts : List Part := [.regs, .run, .attend, .fifos, .cap, .outbox, .job, .ctxs, .host, .slow]

theorem deviceLost_stands {s : State} (hi : Inv s) (source unit : Nat) {sts : Fld}
    (hst : sts = HULL_SLOW_STS_EXPANDER_LOST ∨ sts = HULL_SLOW_STS_LENDER_LOST) (p : Nat → Bool) :
    (deviceLost s source unit sts p).fbit sts = true ∧ RaisesC s (deviceLost s source unit sts p) ∧
    Beside DeviceField lostParts s (deviceLost s source unit sts p) ∧
    (deviceLost s source unit sts p).host.lendersLost = s.host.lendersLost := by
  have hsf : SlowField sts ∧ sts.lo + sts.wd ≤ 64 ∧ sts.wd = 1 ∧ sts.base ∉ noteRegs ∧
      sts.base ≠ (FAULT_CNT_C_RAISED.pageOf 0).base ∧ ApartFrom DeviceField sts := by
    have ha : ∀ f ∈ [HULL_SLOW_STS_EXPANDER_LOST, HULL_SLOW_STS_LENDER_LOST], ∀ g ∈ slowFlds, apart f g = true := by decide
    rcases hst with rfl | rfl
    · exact ⟨.head _, by decide, rfl, by decide, by decide, by decide, ha _ (.head _)⟩
    · exact ⟨.tail _ (.head _), by decide, rfl, by decide, by decide, by decide, ha _ (.tail _ (.head _))⟩
  obtain ⟨hk, hw, h1, hn, hp, ha⟩ := hsf
  have hdev : ∀ g, DeviceField g → SlowField g := fun g hg => .tail _ (.tail _ hg)
  have hb1 : Beside DeviceField [.regs] s (s.slowFirst 0 source unit 1) :=
    beside_slowFirst (fun f hf => ⟨(endFlds_slow f hf).1, fun g hg => (endFlds_slow f hf).2 g (hdev g hg)⟩) s 0 source unit 1
  have hi1 := hb1.keeps.inv hi
  have hr1 : (s.slowFirst 0 source unit 1).run = s.run := hb1.parts .run (by decide)
  have hh1 : (s.slowFirst 0 source unit 1).host = s.host := hb1.parts .host (by decide)
  unfold deviceLost
  generalize s.slowFirst 0 source unit 1 = u at *
  have hpage : ∀ g, DeviceField g → g.base ≠ (FAULT_CNT_C_RAISED.pageOf 0).base := by
    have h : ∀ g ∈ slowFlds, g.base ≠ (FAULT_CNT_C_RAISED.pageOf 0).base := by decide
    exact h
  have hb2 := beside_classC u (fun g hg => slowField_note g (hdev g hg)) 0 sts ⟨hw, ha.2⟩ hpage
  have hone := fget_classCWith u 0 sts 5 0 hi1.1.1 hw h1 hn hp
  have hrc : RaisesC s (u.classC 0 sts) := (TickMarks.of_run hr1).then_raisesC (classC_raisesC u 0 sts)
  have hsent : (u.classC 0 sts).run.healthSent = s.run.healthSent := hb2.marks.sent.trans (congrArg TickRun.healthSent hr1)
  change (u.classC 0 sts).fget sts = 1 at hone
  have hi2 := hb2.keeps.inv hi1
  generalize u.classC 0 sts = v at *
  have hb3 := beside_failUnit v p
  refine ⟨hb3.fbit hi2 hk (fbit_of_fget hone), hb3.marks.after_raisesC hsent hrc,
    ((hb1.mono (by decide) (fun _ => id)).then hb2 (by decide)).then (hb3.mono (fun _ h => h) hdev) (by decide),
    (failUnit_lendersLost v p).trans ?_⟩
  rw [hb2.parts .host (by decide), hh1]

/-! ### EXPANDER_LOST and LENDER_LOST -/

/-- An expander shows as down, and as gone where it has been removed. -/
def expanderDown (s : State) (x : Nat) (gone : Bool) : State :=
  if gone then (s.fset (HULL_SLOW_EXP_UP.ix x) 0).fsetAll
    [(HULL_SLOW_EXP_PRESENT.ix x, 0), (HULL_SLOW_EXP_GEN.ix x, 0), (HULL_SLOW_EXP_CAPACITY.ix x, 0)]
  else s.fset (HULL_SLOW_EXP_UP.ix x) 0

theorem expFlds_facts {x : Nat} (hx : x < 4) : DeviceField (HULL_SLOW_EXP_UP.ix x) ∧ DeviceField (HULL_SLOW_EXP_PRESENT.ix x) ∧
    FieldsApart [HULL_SLOW_EXP_UP.ix x, HULL_SLOW_EXP_PRESENT.ix x, HULL_SLOW_EXP_GEN.ix x, HULL_SLOW_EXP_CAPACITY.ix x] ∧
    (HULL_SLOW_EXP_UP.ix x).base = (HULL_SLOW_EXP.ix x).base ∧ (HULL_SLOW_EXP_PRESENT.ix x).base = (HULL_SLOW_EXP.ix x).base ∧
    (HULL_SLOW_EXP_GEN.ix x).base = (HULL_SLOW_EXP.ix x).base ∧ (HULL_SLOW_EXP_CAPACITY.ix x).base = (HULL_SLOW_EXP.ix x).base := by
  revert x
  unfold FieldsApart
  decide

theorem expanderDown_stands {s : State} (hi : Inv s) {x : Nat} (hx : x < 4) (gone : Bool) :
    OnlyParts [.regs] s (expanderDown s x gone) ∧ OnlyRegs [(HULL_SLOW_EXP.ix x).base] s (expanderDown s x gone) ∧
    Inv (expanderDown s x gone) ∧ (expanderDown s x gone).fbit (HULL_SLOW_EXP_UP.ix x) = false ∧
    (gone = true → (expanderDown s x gone).fbit (HULL_SLOW_EXP_PRESENT.ix x) = false) := by
  obtain ⟨-, -, ha, hb1, hb2, hb3, hb4⟩ := expFlds_facts hx
  have hiu := (fset_keeps (HULL_SLOW_EXP_UP.ix x) 0 (.refl s)).inv hi
  have hp := fset_onlyParts s (HULL_SLOW_EXP_UP.ix x) 0
  have ho : OnlyRegs [(HULL_SLOW_EXP.ix x).base] s (s.fset (HULL_SLOW_EXP_UP.ix x) 0) := only_fset s _ 0 (hb1 ▸ .head _)
  have hz := fget_fset_same s (HULL_SLOW_EXP_UP.ix x) 0 hi.1.1 (ha.width)
  unfold expanderDown
  cases gone with
  | false => exact ⟨hp, ho, hiu, fbit_of_zero hz, fun hf => Bool.noConfusion hf⟩
  | true =>
    rw [if_pos rfl]
    generalize s.fset (HULL_SLOW_EXP_UP.ix x) 0 = u at *
    have hq := fsetAll_onlyParts u [(HULL_SLOW_EXP_PRESENT.ix x, 0), (HULL_SLOW_EXP_GEN.ix x, 0), (HULL_SLOW_EXP_CAPACITY.ix x, 0)]
    refine ⟨hp.then hq (by decide), ho.trans (only_fsetAll _ u ?_), (fsetAll_keeps _ (.refl u)).inv hiu, fbit_of_zero ?_, fun _ => fbit_of_zero ?_⟩
    · simp only [List.forall_mem_cons, List.not_mem_nil, false_implies, implies_true, and_true]
      exact ⟨hb2 ▸ .head _, hb3 ▸ .head _, hb4 ▸ .head _⟩
    · refine (fget_fsetAll_apart (HULL_SLOW_EXP_UP.ix x)
        [(HULL_SLOW_EXP_PRESENT.ix x, 0), (HULL_SLOW_EXP_GEN.ix x, 0), (HULL_SLOW_EXP_CAPACITY.ix x, 0)] u hiu.1.1 ha).trans hz
    · exact fget_fsetAll_mem [(HULL_SLOW_EXP_PRESENT.ix x, 0), (HULL_SLOW_EXP_GEN.ix x, 0), (HULL_SLOW_EXP_CAPACITY.ix x, 0)] u
        hiu.1.1 ha.tail (.head _)

section
variable {s : State} {at_ : Nat} (h : Awake s) (hs : Settled s at_)
include h hs

theorem exec_expanderLost {x : Nat} (hx : x < 4) (gone : Bool) : ∃ t, exec (.expanderLost at_ x gone) s = .next t ∧
    t.now = max s.now at_ ∧ t.fbit (HULL_SLOW_EXP_UP.ix x) = false ∧
    (gone = true → t.fbit (HULL_SLOW_EXP_PRESENT.ix x) = false) ∧
    (s.job.ctx = none → OnlyParts [.now, .regs] s t ∧ OnlyRegs [(HULL_SLOW_EXP.ix x).base] s t) ∧
    (s.job.ctx ≠ none → t.fbit HULL_SLOW_STS_EXPANDER_LOST = true ∧ RaisesC s t) ∧ t.mem = s.mem := by
  have he : exec (.expanderLost at_ x gone) s = .next ((s.advance at_).expanderLost x gone) :=
    congrArg Host.Outcome.next ((live_runs h.1 _).trans (by rw [upTo_settled _ _ hs]))
  have hd : (s.advance at_).expanderLost x gone = if (expanderDown (s.advance at_) x gone).job.ctx.isSome then
      deviceLost (expanderDown (s.advance at_) x gone) 0 x HULL_SLOW_STS_EXPANDER_LOST
        (fun a => 0x100000000000 ≤ a && a < 0x180000000000 && (a - 0x100000000000) / 0x20000000000 == x)
      else expanderDown (s.advance at_) x gone := by
    unfold State.expanderLost expanderDown
    rw [if_neg (by omega)]
    cases gone <;> rfl
  rw [hd] at he
  obtain ⟨hp, ho, hi, hu, hg⟩ := expanderDown_stands ((advance_keeps at_ (.refl s)).inv h.2) hx gone
  have hall := ((advance_onlyParts s at_).mono (qs := [.now, .regs]) (by decide)).then hp (by decide)
  have hnow : (expanderDown (s.advance at_) x gone).now = max s.now at_ := hp .now (by decide)
  have ho' := only_after_advance ho
  generalize expanderDown (s.advance at_) x gone = u at *
  have hj : u.job.ctx = s.job.ctx := by rw [hall .job (by decide)]
  refine ⟨_, he, ?_⟩
  cases hc : s.job.ctx with
  | none =>
    rw [hj, hc, if_neg (by decide)]
    exact ⟨hnow, hu, hg, fun _ => ⟨hall, ho'⟩, fun hne => absurd rfl hne, hall .mem (by decide)⟩
  | some c =>
    rw [hj, hc, if_pos (show (some c).isSome = true from rfl)]
    obtain ⟨hdev1, hdev2, -⟩ := expFlds_facts hx
    obtain ⟨h1, h2, h3, -⟩ := deviceLost_stands hi 0 x (.inl rfl)
      (fun a => 0x100000000000 ≤ a && a < 0x180000000000 && (a - 0x100000000000) / 0x20000000000 == x)
    have hz : ∀ f, DeviceField f → u.fbit f = false → (deviceLost u 0 x HULL_SLOW_STS_EXPANDER_LOST
        (fun a => 0x100000000000 ≤ a && a < 0x180000000000 && (a - 0x100000000000) / 0x20000000000 == x)).fbit f = false :=
      fun f hf hz => (congrArg (fun y => y != 0) (h3.flds hi f hf)).trans hz
    exact ⟨Eq.trans (h3.parts .now (by decide)) hnow, hz _ hdev1 hu, fun hgone => hz _ hdev2 (hg hgone), fun hn => absurd hn (Option.some_ne_none c),
      fun _ => ⟨h1, (TickMarks.of_run (hall .run (by decide))).then_raisesC h2⟩,
      Eq.trans (h3.parts .mem (by decide)) (hall .mem (by decide))⟩

theorem exec_lenderLost (l : Nat) : exec (.lenderLost at_ l) s = .next ((s.advance at_).lenderLost l) :=
  congrArg Host.Outcome.next ((live_runs h.1 _).trans (by rw [upTo_settled _ _ hs]))

theorem lenderLost_borrowed {l : Nat} (hj : s.job.ctx ≠ none) (hb : getBits (s.fget HULL_SLOW_LEND_BORROWING) l 1 = 1) :
    ∃ t, exec (.lenderLost at_ l) s = .next t ∧ t.fbit HULL_SLOW_STS_LENDER_LOST = true ∧ RaisesC s t ∧ l ∈ t.host.lendersLost ∧
      t.mem = s.mem := by
  have he := exec_lenderLost h hs l
  have hd : (s.advance at_).lenderLost l = deviceLost ((s.advance at_).withHost (fun h => { h with
      lendersLost := l :: h.lendersLost.filter (fun x => x != l) })) 1 l HULL_SLOW_STS_LENDER_LOST
        (fun a => 0x200000000000 ≤ a && a < 0x300000000000 && (a - 0x200000000000) / 0x10000000000 == l) := by
    unfold State.lenderLost
    rw [if_pos]
    · rfl
    · rw [Bool.and_eq_true]
      exact ⟨Option.isSome_iff_ne_none.mpr hj, beq_iff_eq.mpr hb⟩
  rw [hd] at he
  have hi := (withHost_keeps (s.advance at_) (fun h => { h with lendersLost := l :: h.lendersLost.filter (fun x => x != l) })
    (advance_keeps at_ (.refl s))).inv h.2
  have hl : ((s.advance at_).withHost (fun h => { h with lendersLost := l :: h.lendersLost.filter (fun x => x != l) })).host.lendersLost =
    l :: s.host.lendersLost.filter (fun x => x != l) := rfl
  have hp := ((advance_onlyParts s at_).mono (qs := [.now, .host]) (by decide)).then (withHost_onlyParts (s.advance at_)
    (fun h => { h with lendersLost := l :: h.lendersLost.filter (fun x => x != l) })) (by decide)
  generalize (s.advance at_).withHost (fun h => { h with lendersLost := l :: h.lendersLost.filter (fun x => x != l) }) = u at *
  obtain ⟨h1, h2, h3, h4⟩ := deviceLost_stands hi 1 l (.inr rfl)
    (fun a => 0x200000000000 ≤ a && a < 0x300000000000 && (a - 0x200000000000) / 0x10000000000 == l)
  exact ⟨_, he, h1, (TickMarks.of_run (hp .run (by decide))).then_raisesC h2, by rw [h4, hl]; exact .head _,
    Eq.trans (h3.parts .mem (by decide)) (hp .mem (by decide))⟩

theorem lenderLost_other {l : Nat} (hn : s.job.ctx = none ∨ getBits (s.fget HULL_SLOW_LEND_BORROWING) l 1 ≠ 1) :
    ∃ t, exec (.lenderLost at_ l) s = .next t ∧ OnlyParts [.now] s t := by
  have he := exec_lenderLost h hs l
  have hd : (s.advance at_).lenderLost l = s.advance at_ := by
    unfold State.lenderLost
    rw [if_neg]
    rw [Bool.and_eq_true]
    rintro ⟨h1, h2⟩
    rcases hn with hn | hn
    · exact Option.isSome_iff_ne_none.mp h1 hn
    · exact hn (eq_of_beq h2)
  rw [hd] at he
  exact ⟨_, he, advance_onlyParts s at_⟩

/-! ### The HDM window and snoops (R417 to R419) -/

theorem exec_hdmAccess (off len : Nat) (write : Option (List Byte)) :
    exec (.hdmAccess at_ off len write) s = .next ((s.advance at_).hdmAccess off len write) :=
  congrArg Host.Outcome.next ((live_runs h.1 _).trans (by rw [upTo_settled _ _ hs]))

/-- An access of a place that no enabled piece maps reaches nothing. -/
theorem hdmAccess_unmapped (off len : Nat) (bytes : List Byte) (hn : s.fget HOST_LINK_MODE < 4 ∨ 4 ≤ off / 0x400000000 ∨
    s.power.hdmAbsent = true ∨ s.fbit (HOST_HDM_EN.ix (off / 0x400000000)) = false ∨ s.hdmBaseOk (off / 0x400000000) = false) :
    ∃ t, exec (.hdmAccess at_ off len (some bytes)) s = .next t ∧ OnlyParts [.now] s t := by
  have he := exec_hdmAccess h hs off len (some bytes)
  have hd : (s.advance at_).hdmAccess off len (some bytes) = s.advance at_ := by
    unfold State.hdmAccess
    dsimp only
    rw [if_pos]
    change (decide (s.fget HOST_LINK_MODE < 4) || decide (4 ≤ off / 0x400000000) || s.power.hdmAbsent ||
      !s.fbit (HOST_HDM_EN.ix (off / 0x400000000)) || !s.hdmBaseOk (off / 0x400000000) || !s.portsUp) = true
    simp only [Bool.or_eq_true, decide_eq_true_eq, Bool.not_eq_true']
    rcases hn with hn | hn | hn | hn | hn <;> simp [hn]
  rw [hd] at he
  exact ⟨_, he, advance_onlyParts s at_⟩

section
variable {off : Nat} (h1 : 4 ≤ s.fget HOST_LINK_MODE) (h2 : off / 0x400000000 < 4) (h3 : s.power.hdmAbsent = false)
  (h4 : s.fbit (HOST_HDM_EN.ix (off / 0x400000000)) = true) (h5 : s.hdmBaseOk (off / 0x400000000) = true)
  (h6 : s.bench.extest = false)
include h1 h2 h3 h4 h5 h6

omit h hs in
/-- What an access of a mapped place comes to. -/
theorem hdmAccess_mapped (len : Nat) (write : Option (List Byte)) : (s.advance at_).hdmAccess off len write =
    match write with
    | some l => if (s.advance at_).elasticMay (s.hdmBase (off / 0x400000000) + off % 0x400000000) l.length then
        ((s.advance at_).wrBytes (s.hdmBase (off / 0x400000000) + off % 0x400000000) l).unqueueRange
          (s.hdmBase (off / 0x400000000) + off % 0x400000000) l.length else s.advance at_
    | none => if (s.advance at_).poisonIn (s.hdmBase (off / 0x400000000) + off % 0x400000000) len then
        (s.advance at_).emit (.msg "HDM_ERROR" [off, len])
      else (s.advance at_).emit (.msg "HDM_READ"
        (((s.advance at_).rdBytes (s.hdmBase (off / 0x400000000) + off % 0x400000000) len).map (fun b => b.toNat))) := by
  unfold State.hdmAccess
  dsimp only
  rw [if_neg]
  · rfl
  · change ¬ (decide (s.fget HOST_LINK_MODE < 4) || decide (4 ≤ off / 0x400000000) || s.power.hdmAbsent ||
      !s.fbit (HOST_HDM_EN.ix (off / 0x400000000)) || !s.hdmBaseOk (off / 0x400000000) || !s.portsUp) = true
    rw [decide_eq_false (Nat.not_lt.mpr h1), decide_eq_false (Nat.not_le.mpr h2), h3, h4, h5, State.portsUp, h6]
    decide

theorem hdm_write (len : Nat) (bytes : List Byte)
    (hm : s.elasticMay (s.hdmBase (off / 0x400000000) + off % 0x400000000) bytes.length = true) :
    ∃ t, exec (.hdmAccess at_ off len (some bytes)) s = .next t ∧
      OnlyBytes (s.hdmBase (off / 0x400000000) + off % 0x400000000) bytes.length s t ∧
      (∀ k, k < bytes.length → some (t.rd8 (s.hdmBase (off / 0x400000000) + off % 0x400000000 + k)) = bytes[k]?) ∧
      OnlyParts [.now, .mem, .hub] s t := by
  have he := (exec_hdmAccess h hs off len (some bytes)).trans (congrArg Host.Outcome.next (hdmAccess_mapped h1 h2 h3 h4 h5 h6 len _))
  dsimp only at he
  rw [if_pos (show (s.advance at_).elasticMay _ _ = true from hm)] at he
  obtain ⟨ho, hb⟩ := wrBytes_stands (s := s.advance at_) ((advance_keeps at_ (.refl s)).inv h.2)
    (s.hdmBase (off / 0x400000000) + off % 0x400000000) bytes
  exact ⟨_, he, ho, hb, (((advance_onlyParts s at_).mono (by decide)).then (wrBytes_onlyParts _ _ _) (by decide)).then
    (unqueueRange_onlyParts _ _ _) (by decide)⟩

theorem hdm_write_barred (len : Nat) (bytes : List Byte)
    (hm : s.elasticMay (s.hdmBase (off / 0x400000000) + off % 0x400000000) bytes.length = false) :
    ∃ t, exec (.hdmAccess at_ off len (some bytes)) s = .next t ∧ OnlyParts [.now] s t := by
  have he := (exec_hdmAccess h hs off len (some bytes)).trans (congrArg Host.Outcome.next (hdmAccess_mapped h1 h2 h3 h4 h5 h6 len _))
  dsimp only at he
  rw [if_neg (by rw [show (s.advance at_).elasticMay _ _ = false from hm]; decide)] at he
  exact ⟨_, he, advance_onlyParts s at_⟩

theorem hdm_read (len : Nat) : ∃ t, exec (.hdmAccess at_ off len none) s = .next t ∧
    t.outbox = s.outbox ++ [if s.poisonIn (s.hdmBase (off / 0x400000000) + off % 0x400000000) len then .msg "HDM_ERROR" [off, len]
      else .msg "HDM_READ" ((range' 0 len).map (fun k => (s.rd8 (s.hdmBase (off / 0x400000000) + off % 0x400000000 + k)).toNat))] ∧
    OnlyParts [.now, .outbox] s t := by
  have he := (exec_hdmAccess h hs off len none).trans (congrArg Host.Outcome.next (hdmAccess_mapped h1 h2 h3 h4 h5 h6 len _))
  dsimp only at he
  have hp (o : Out) : OnlyParts [.now, .outbox] s ((s.advance at_).emit o) :=
    ((advance_onlyParts s at_).mono (by decide)).then (emit_onlyParts _ _) (by decide)
  have hrd : ((s.advance at_).rdBytes (s.hdmBase (off / 0x400000000) + off % 0x400000000) len).map (fun b => b.toNat) =
      (range' 0 len).map (fun k => (s.rd8 (s.hdmBase (off / 0x400000000) + off % 0x400000000 + k)).toNat) := by
    rw [rdBytes_eq_map, List.map_map]; rfl
  rw [hrd, show (s.advance at_).poisonIn (s.hdmBase (off / 0x400000000) + off % 0x400000000) len =
    s.poisonIn (s.hdmBase (off / 0x400000000) + off % 0x400000000) len from rfl] at he
  refine ⟨_, he, ?_⟩
  split
  · exact ⟨rfl, hp _⟩
  · exact ⟨rfl, hp _⟩

end

theorem snoop_answered (addr : Nat) (hm : 4 ≤ s.fget HOST_LINK_MODE) (hx : s.bench.extest = false) :
    ∃ t, exec (.snoop at_ addr) s = .next t ∧ t.outbox = s.outbox ++ [.msg "SNOOP_INVALID" [addr]] ∧ OnlyParts [.now, .outbox] s t := by
  have hp : s.portsUp = true := by unfold State.portsUp; rw [hx]; rfl
  refine ⟨_, congrArg Host.Outcome.next ((live_runs h.1 _).trans (by
    rw [if_pos (by rw [decide_eq_true hm, hp]; rfl), upTo_settled _ _ hs])), rfl, ?_⟩
  exact ((advance_onlyParts s at_).mono (by decide)).then (emit_onlyParts _ _) (by decide)

omit hs in
theorem snoop_ignored (addr : Nat) (hm : s.fget HOST_LINK_MODE < 4) : exec (.snoop at_ addr) s = .next s :=
  congrArg Host.Outcome.next ((live_runs h.1 _).trans (by rw [decide_eq_false (Nat.not_le.mpr hm)]; rfl))

end

/-! ### What O56 says -/

/-- Settles O56: an engine's piece is followed through each of its outcomes, and each request to the memory that it may touch. -/
theorem transfersMoveTheirBytes : Obligations.TransfersMoveTheirBytes := by
  intro s at_ h hs
  refine ⟨fun eng d hr hd => ⟨dmaChunk_error h hs hr hd, fun hh hl _ _ ho => dmaChunk_parked h hs hr hd hh hl ho,
      dmaChunk_lost h hs hr hd, fun hl x hx => dmaChunk_xlate h hs hr hd hl hx, fun hl hx hb => dmaChunk_barred h hs hr hd hl hx hb,
      fun hl hx hmv hpz hbar => dmaChunk_moves h hs hr hd hl hx hmv hpz hbar⟩,
    fun eng res hr hd => dmaChunk_idle h hs hr hd res,
    fun f p e r hin hr hent hres => ⟨prefetch_begins h hs hin hr hent hres, prefetch_resident h hs hin hr hent hres,
      writeBack_begins h hs hin hr hent hres⟩,
    fun x gone hx => exec_expanderLost h hs hx gone, fun l _ => ⟨lenderLost_borrowed h hs, lenderLost_other h hs⟩,
    fun off len bytes => ⟨fun h1 h2 h3 h4 h5 h6 => ⟨hdm_write h hs h1 h2 h3 h4 h5 h6 len bytes,
      hdm_write_barred h hs h1 h2 h3 h4 h5 h6 len bytes, hdm_read h hs h1 h2 h3 h4 h5 h6 len⟩, hdmAccess_unmapped h hs off len bytes⟩,
    fun addr => ⟨snoop_answered h hs addr, snoop_ignored h addr⟩⟩

end Sys2Proof.Laws
end

section
/-! PROOFS. The first tick of a job, opened by an accepted job start or a resume (R21, R26, R406, R430, R433). -/

namespace Sys2Proof.Laws
open Sys2Proof.Machine Sys2Proof.Safety

/-! ### What an opening tick leaves of its job -/

/-- The job stands: its context, its seed, its first edge and the verdicts on its micro-batches. -/
structure JobHeld (s t : State) : Prop where
  ctx : t.job.ctx = s.job.ctx
  seed : t.job.seed = s.job.seed
  firstEdge : t.job.firstEdge = s.job.firstEdge
  verdicts : t.job.verdicts = s.job.verdicts
  refused : t.job.refused = s.job.refused

theorem JobHeld.refl (s : State) : JobHeld s s := ⟨rfl, rfl, rfl, rfl, rfl⟩

theorem JobHeld.trans {s t u : State} (h : JobHeld s t) (g : JobHeld t u) : JobHeld s u :=
  ⟨g.ctx.trans h.ctx, g.seed.trans h.seed, g.firstEdge.trans h.firstEdge, g.verdicts.trans h.verdicts, g.refused.trans h.refused⟩

theorem JobHeld.of_job {s t : State} (h : t.job = s.job) : JobHeld s t := by
  constructor <;> rw [h]

theorem JobHeld.of_parts {ps : List Part} {s t : State} (h : OnlyParts ps s t) (hj : .job ∉ ps) : JobHeld s t :=
  .of_job (h .job hj)

theorem JobHeld.ite {s a b : State} {c : Prop} [Decidable c] (ha : JobHeld s a) (hb : JobHeld s b) :
    JobHeld s (if c then a else b) := by split <;> assumption

theorem openLag_held (s : State) (f : ImageFile) : JobHeld s (s.openLag f) := by
  unfold State.openLag
  extract_lets u
  have hu : JobHeld s u := ⟨rfl, rfl, rfl, rfl, rfl⟩
  exact hu.trans (List.foldlRecOn _ _ (.refl u) (fun t h _ _ => h.trans ⟨rfl, rfl, rfl, rfl, rfl⟩))

theorem openCaptures_held (s : State) (c count : Nat) : JobHeld s (s.openCaptures c count) := by
  unfold State.openCaptures
  extract_lets off u v
  have hu : JobHeld s u := .ite (.refl s) (.of_parts (fset_onlyParts s _ _) (by decide))
  have hv : JobHeld s v := .ite (hu.trans (.of_parts (capTrigger_onlyParts _ _ _) (by decide))) (.refl s)
  split
  · refine .ite ?_ hv
    have hw (t : State) (c : Nat) : JobHeld t (((t.withJob (fun j => { j with captureAt := none })).fset HULL_CAPTURE_ID_ARMED_ORCH 0).capTrigger c 16) := by
      have h0 : JobHeld t (t.withJob (fun j => { j with captureAt := none })) := ⟨rfl, rfl, rfl, rfl, rfl⟩
      exact h0.trans (.of_parts (ps := [.regs, .cap, .outbox]) (((fset_onlyParts _ _ _).mono (by decide)).then (capTrigger_onlyParts _ c 16) (by decide)) (by decide))
    exact hv.trans (hw _ _)
  · exact hv

theorem abandonExport_cmds (s : State) : s.abandonExport.host.cmds = s.host.cmds := by
  unfold State.abandonExport
  split
  next => rfl
  next e he =>
    extract_lets u v w x
    have h : OnlyParts [.regs, .fifos, .outbox] u ((x.commandDone e.ctx e.tag 5 14 0).exportEvent e.ctx 1 e.kind w e.tag
        (if e.started then e.ccr else (x.ctx e.ctx).ccr)) :=
      ((((setSts_onlyParts _ _ _).mono (by decide)).then (fsetAll_onlyParts _ _) (by decide)).then (commandDone_onlyParts _ _ _ _ _ _) (by decide)).then
        (exportEvent_onlyParts _ _ _ _ _ _ _) (by decide)
    have hh := h .host (by decide)
    exact (congrArg HostSt.cmds hh).trans rfl

theorem openExport_cmds (s : State) : s.openExport.host.cmds = s.host.cmds := by
  unfold State.openExport
  split
  · exact abandonExport_cmds s
  · rfl

/-- The job and the commands to complete stand while a tick opens. -/
theorem openTick_held (s : State) (f : ImageFile) (c count plan : Nat) (runs : Bool) :
    JobHeld s (s.openTick f c count plan runs) ∧ (s.openTick f c count plan runs).host.cmds = s.host.cmds := by
  unfold State.openTick
  extract_lets old wasDue p kind s1 s2 s3 r s4 s5 s6 s7 s8 s9
  clear_value p kind
  have h3 : OnlyParts [.edgeAt, .regs, .fresh] s s3 := by
    have h2 : OnlyParts [.edgeAt, .regs, .fresh] s s2 :=
      (show OnlyParts [.edgeAt, .regs, .fresh] s s1 from fun q hq => by cases q <;> simp [Part.Same, s1] at hq ⊢).then (openRegs_onlyParts _ _ _ _) (by decide)
    exact OnlyParts.ite (h2.then (countKind_onlyParts _ _) (by decide)) h2
  have h4 : OnlyParts [.run] s3 s4 := fun q hq => by cases q <;> simp [Part.Same, s4] at hq ⊢
  have h6 : OnlyParts [.regs, .tiles, .hub] s5 s6 := tickless_onlyParts s5
  have h8 : OnlyParts [.regs, .run, .outbox] s7 s8 := by
    simp only [s8]
    split
    · exact OnlyParts.ite (promote_onlyParts _ _) (OnlyParts.refl _ _)
    · exact OnlyParts.refl _ _
  have h9 : OnlyParts harvestParts s8 s9 := (harvestDue_onlyParts s8 f).then (harvestDefer_onlyParts _ _ _) (by decide)
  have h10 : OnlyParts [.regs, .job, .cap, .outbox] s9 (s9.openCaptures c count) := openCaptures_onlyParts _ _ _
  have j5 : JobHeld s4 s5 := ⟨rfl, rfl, rfl, rfl, rfl⟩
  have j7 : JobHeld s6 s7 := .ite ((openLag_held s6 f).trans (.of_parts (openExport_onlyParts _) (by decide))) (.refl _)
  have c7 : s7.host.cmds = s6.host.cmds := by
    simp only [s7]
    split
    · exact (openExport_cmds _).trans (congrArg HostSt.cmds (openLag_onlyParts s6 f .host (by decide)))
    · rfl
  constructor
  · exact ((((((JobHeld.of_parts h3 (by decide)).trans (.of_parts h4 (by decide))).trans j5).trans (.of_parts h6 (by decide))).trans j7).trans
      (.of_parts h8 (by decide))).trans ((JobHeld.of_parts h9 (by decide)).trans (openCaptures_held _ _ _))
  · have e10 : (s9.openCaptures c count).host = s7.host :=
      Eq.trans (h10 .host (by decide)) (Eq.trans (h9 .host (by decide)) (h8 .host (by decide)))
    have e6 : s6.host = s.host := Eq.trans (h6 .host (by decide)) (Eq.trans (h4 .host (by decide)) (h3 .host (by decide)))
    rw [e10, c7, e6]

/-! ### The first tick -/

/-- The first tick of a job opens on the edge at which the clock stands. -/
def firstTick (s : State) (f : ImageFile) (count plan : Nat) : State :=
  ((s.withJob (fun j => { j with firstEdge := s.now })).mirror.edgeSwaps.lagShow f).openTick f s.now count plan true

/-- What a job's first tick makes of the state before its edge. -/
structure FirstTick (s t : State) (count plan : Nat) : Prop where
  now : t.now = s.now
  edge : t.edgeAt = s.now
  firstEdge : t.job.firstEdge = s.now
  ctx : t.job.ctx = s.job.ctx
  seed : t.job.seed = s.job.seed
  verdicts : t.job.verdicts = s.job.verdicts
  refused : t.job.refused = s.job.refused
  active : t.run.active = true
  ccr : t.ccr = s.ccr
  mirror0 : t.mirror0 = s.ccr
  mirror1 : t.mirror1 = s.ccr
  ctxs : t.ctxs = s.ctxs
  mem : t.mem = s.mem
  count : t.fget TICK_COUNT_COUNT = count % 2 ^ 64
  plan : t.fget TICK_PLAN_CUR = plan % 2 ^ 4
  swaps : t.hub.swaps = []
  podPend : t.tiles.podPend = []
  cmds : t.host.cmds = s.host.cmds
  keeps : Keeps s t

theorem firstTick_opens (s : State) (f : ImageFile) (count plan : Nat) (hi : Inv s) :
    FirstTick s (firstTick s f count plan) count plan := by
  unfold firstTick
  have hm : OnlyParts [.job, .mirror0, .mirror1] s (s.withJob (fun j => { j with firstEdge := s.now })).mirror :=
    fun q hq => by cases q <;> simp [Part.Same, State.mirror, State.withJob] at hq ⊢
  have hmk : Keeps s (s.withJob (fun j => { j with firstEdge := s.now })).mirror :=
    mirror_keeps _ (withJob_keeps s _ (Keeps.refl s))
  have hmj : (s.withJob (fun j => { j with firstEdge := s.now })).mirror.job = { s.job with firstEdge := s.now } := rfl
  have hm0 : (s.withJob (fun j => { j with firstEdge := s.now })).mirror.mirror0 = s.ccr := rfl
  have hm1 : (s.withJob (fun j => { j with firstEdge := s.now })).mirror.mirror1 = s.ccr := rfl
  generalize (s.withJob (fun j => { j with firstEdge := s.now })).mirror = u at *
  have he := edgeSwaps_onlyParts u
  have hek := edgeSwaps_keeps u (Keeps.refl u)
  have hpod := edgeSwaps_podPend u
  have hhub := edgeSwaps_hubSwaps u
  generalize u.edgeSwaps = v at *
  have hl : OnlyParts [.regs] v (v.lagShow f) := fsetAll_onlyParts v _
  have hlk : Keeps v (v.lagShow f) := lagShow_keeps v f (Keeps.refl v)
  generalize v.lagShow f = w at *
  have hiw : Inv w := hlk.inv (hek.inv (hmk.inv hi))
  have ho := openTick_opened f s.now count plan true hiw
  obtain ⟨hj, hcmds⟩ := openTick_held w f s.now count plan true
  have hok := openTick_keeps w f s.now count plan true (Keeps.refl w)
  generalize w.openTick f s.now count plan true = t at *
  have hwj : w.job = { s.job with firstEdge := s.now } := Eq.trans (hl .job (by decide)) (Eq.trans (he .job (by decide)) hmj)
  obtain ⟨jctx, jseed, jfirst, jver, jref⟩ := hj
  rw [hwj] at jctx jseed jfirst jver jref
  have hall : OnlyParts [.edgeAt, .regs, .run, .job, .tiles, .attend, .fifos, .cap, .hub, .host, .power, .outbox, .fresh, .links, .mirror0, .mirror1] s t :=
    (((hm.mono (by decide)).then he (by decide)).then hl (by decide)).then ho.parts (by decide)
  have hut : OnlyParts [.edgeAt, .regs, .run, .job, .tiles, .attend, .fifos, .cap, .hub, .host, .power, .outbox, .fresh, .links] u t :=
    ((he.mono (by decide)).then hl (by decide)).then ho.parts (by decide)
  have hhost : w.host = s.host := Eq.trans (hl .host (by decide)) (Eq.trans (he .host (by decide)) (hm .host (by decide)))
  have hwt : w.tiles = v.tiles := hl .tiles (by decide)
  have hwh : w.hub = v.hub := hl .hub (by decide)
  exact {
    now := hall .now (by decide), edge := ho.edge, firstEdge := jfirst, ctx := jctx, seed := jseed, verdicts := jver, refused := jref,
    active := ho.active, ccr := hall .ccr (by decide), mirror0 := Eq.trans (hut .mirror0 (by decide)) hm0,
    mirror1 := Eq.trans (hut .mirror1 (by decide)) hm1, ctxs := hall .ctxs (by decide), mem := hall .mem (by decide),
    count := ho.tick, plan := ho.plan, swaps := by rw [ho.swaps, hwh]; exact hhub, podPend := by rw [ho.podPend, hwt]; exact hpod,
    cmds := by rw [hcmds, hhost], keeps := hmk.trans (hek.trans (hlk.trans hok)) }

end Sys2Proof.Laws
end

section
/-! PROOFS. O53: a resume writes every register that the save area names back before it lets time come to the first edge (R431,
R433). The model's state does not say which registers a save area holds. One that holds a link's rate makes the hop of a frame that
waits for its retry shorter, so that the frame overruns before the edge and lands, as lost, in its gather region (R372, R374,
R404). -/

namespace Sys2Proof.Laws
open Sys2Proof.Machine Sys2Proof.Safety

/-! ### What a resume does up to its first edge -/

/-- The state that a resume restores, before time comes to the edge of the first tick. -/
def restored (s : State) (f : ImageFile) (c tag : Nat) (v : Saved) : State :=
  let s := s.orchStart f
  let s := { s with
    ccr := v.ccr, run := {}, solver := {}, slow := v.slow,
    job := { v.job with ctx := some c, tokensMissed := 0, markersLost := 0, aborting := none, preemptAt := none },
    host := { s.host with
      lendersLost := [],
      pins := s.host.pins.filter (fun (p : PinReq) => p.ctx != c) ++
        v.pins.map (fun (r : Nat × Nat) => (⟨c, 0, r.1, r.2, true⟩ : PinReq)) } }
  let s := v.commit.foldl (fun (s : State) e => s.regPut e.1 e.2) s
  ((s.repin.commandDone c tag 7 0 0).jobRegs f c).setCtx c (fun x => { x with state := .running, saved := none })

/-- The plan of the first tick after a resume. -/
def resumePlan (f : ImageFile) (v : Saved) : Nat := if f.stateMap.any (fun t => t.gather == 2) then imgTick0 f else v.plan

theorem resumeRun_eq (s : State) (f : ImageFile) (c tag : Nat) (v : Saved) (join : JobJoin) :
    s.resumeRun f c tag v join =
      (firstTick ((restored s f c tag v).upTo (max join.edge (restored s f c tag v).now)) f (v.tickCount + 1) (resumePlan f v)).event 7 c
        [(v.tickCount + 1) % 2 ^ 32 * 2 ^ 48] := rfl

/-- The state at the end of a restore, when the checks of the job's start are made. -/
def restoreEnds (s : State) (p : PendCmd) : State :=
  (s.advance p.arg).withHost (fun h => { h with cmds := h.cmds.filter (fun x => x != p) })

theorem resumed_eq {s : State} {p : PendCmd} {f : ImageFile} {v : Saved} (join : JobJoin) (hp : s.host.cmds.find? (fun p => p.opcode == 7) = some p)
    (hs : Settled s p.arg) (hf : (s.ctx p.ctx).image = some f) (hv : (s.ctx p.ctx).saved = some v)
    (hc : (restoreEnds s p).jobRefusal f = 0) : s.resumed join = (restoreEnds s p).resumeRun f p.ctx p.tag v join := by
  unfold State.resumed
  rw [hp]
  dsimp only
  rw [upTo_settled _ _ hs]
  change (match ((restoreEnds s p).ctx p.ctx).image, ((restoreEnds s p).ctx p.ctx).saved with
    | some f, some v => if ((restoreEnds s p).jobRefusal f != 0) = true then _ else _
    | _, _ => _) = _
  have hf' : ((restoreEnds s p).ctx p.ctx).image = some f := hf
  have hv' : ((restoreEnds s p).ctx p.ctx).saved = some v := hv
  rw [hf', hv']
  exact if_neg (by rw [hc]; decide)

/-! ### The module whose save area holds a link's rate -/

/-- An image of one module and no plan. -/
def oneModule : ImageFile :=
  { header := BitVec.ofNat 2048 (2 ^ 320), hcrcOk := true, fileLen := 0, hashOk := true, sigPoint := 0, sigZero := 0, sigR := 0,
    sigS := 0, keyDigest := 0, msgDigest := 0, sigOk := true, dir := [], plans := [], layouts := [], streams := [], hubScheds := [],
    linkScheds := [], solverJobs := [], stateMap := [], ruleSets := [], lrScheds := [], redPlans := [], limits := 4096,
    moduleMapHdr := 0, modules := [0xFF000000], data := [] }

/-- A save area that holds LNK_STATE of link 0, at full rate. -/
def savedRate : Saved := ⟨{}, {}, 0, 0, [], [], [((lnkFld LNK_STATE_LEGACY 0).base, 0)]⟩

/-- A gathered frame that link 0 lost in the slot of cycle 3,000, and that waits for its retry. -/
def lostFrame : LinkWait := { seq := 0, win := 0, slot := 0, kind := 1, sent := 3000, use := .gather 0x10000 }

/-- A module whose resume ends on cycle 5,000; link 0 runs at legacy rate, where the lost frame is due on cycle 5,560. The first
byte of the frame's gather region is 1 or 0. -/
def lateRestore (b : Bool) : State :=
  { State.reset.fsetAll [(HULL_ORCH_SIZE, 1), (lnkFld LNK_STATE_LEGACY 0, 1)] with
    mem := if b then [(0x10000, 1)] else []
    ctxs := [{ state := .preempted, image := some oneModule, saved := some savedRate }, {}, {}, {}]
    links := modAt (fun k => { k with waiting := [lostFrame] }) 0 State.reset.links
    host := { State.reset.host with cmds := [⟨7, 0, 0, 5000⟩] } }

theorem lateRestore_awake : ∀ b, Awake (lateRestore b) := by
  have h : ∀ b, (lateRestore b).power.halt = .no ∧ Inv (lateRestore b) := by
    unfold Safety.Inv Canonical Shape TilesWf
    decide +kernel
  exact h

theorem lateRestore_settled : ∀ b, Settled (lateRestore b) 5000 := by unfold Settled; decide +kernel

theorem lateRestore_soon : ∀ b, Settled (lateRestore b) (max (lateRestore b).now 0 + 1024) := by unfold Settled; decide +kernel

theorem lateRestore_saved : ∀ b, (lateRestore b).host.cmds.find? (fun p => p.opcode == 7) = some ⟨7, 0, 0, 5000⟩ ∧
    ((lateRestore b).ctx 0).image = some oneModule ∧ ((lateRestore b).ctx 0).saved = some savedRate := by decide +kernel

theorem lateRestore_sound : ∀ b, (restoreEnds (lateRestore b) ⟨7, 0, 0, 5000⟩).jobRefusal oneModule = 0 := by decide +kernel

/-- The module with its save area restored, before the first edge. -/
def lateRestored (b : Bool) : State := restored (restoreEnds (lateRestore b) ⟨7, 0, 0, 5000⟩) oneModule 0 0 savedRate

/-- At full rate the lost frame is due before the edge. -/
theorem lateRestored_due : ∀ b, (lateRestored b).dueBy 5000 = [(4536, .unanswered 0 lostFrame)] := by decide +kernel

theorem lateRestored_stands : ∀ b, (lateRestored b).now = 5000 ∧ (lateRestored b).fresh = 0 ∧ (lateRestored b).mem = (lateRestore b).mem ∧
    (lateRestored b).lnkHop 0 = 1536 ∧ Inv (lateRestored b) := by
  unfold Safety.Inv Canonical Shape TilesWf
  decide +kernel

/-- The gather region holds the lost frame's content. -/
theorem lateRestored_edge (b : Bool) : Inv ((lateRestored b).upTo 5000) ∧
    ((lateRestored b).upTo 5000).rdGranule 0x10000 = BitVec.ofNat 2048 (Config.free 0) := by
  obtain ⟨-, hfresh, -, hhop, hi⟩ := lateRestored_stands b
  have hd := lateRestored_due b
  generalize lateRestored b = u at *
  have hd' : u.dueBy 5000 = [(lostFrame.sent + u.lnkHop 0, .unanswered 0 lostFrame)] := by rw [hhop, hd]; rfl
  refine ⟨(upTo_keeps u 5000 (.refl u)).inv hi, ?_⟩
  rw [upTo_unanswered hi hd']
  have hiw : Inv (waitOver u 0 lostFrame) := waitOver_inv hi (by decide) lostFrame
  have hflit : lostFlit u 0 lostFrame.sent lostFrame.kind lostFrame.use =
      ⟨lostFrame.sent + u.lnkHop 0, 1, true, some (Config.free 0), .gather 0x10000⟩ := by
    rw [← hfresh]
    rfl
  rw [hflit]
  obtain ⟨-, -, -, -, hgather, -⟩ := flit_lands hiw (l := 0) (by decide) ⟨lostFrame.sent + u.lnkHop 0, 1, true, some (Config.free 0), .gather 0x10000⟩
  have hstored := (hgather 0x10000 (Config.free 0) rfl rfl).1
  dsimp only at hstored
  rw [← hstored]
  refine rdGranule_congr ?_ _
  exact advance_onlyParts _ _ .mem (by decide)

/-- What the resume leaves in the gather region. -/
theorem lateRestore_resumed (b : Bool) : ((lateRestore b).resumed ⟨0, 0⟩).rdGranule 0x10000 = BitVec.ofNat 2048 (Config.free 0) := by
  obtain ⟨hp, hf, hv⟩ := lateRestore_saved b
  have he := resumed_eq ⟨0, 0⟩ hp (lateRestore_settled b) hf hv (lateRestore_sound b)
  rw [he, resumeRun_eq]
  obtain ⟨hi, hg⟩ := lateRestored_edge b
  have hnow : max 0 (lateRestored b).now = 5000 := by rw [(lateRestored_stands b).1]; rfl
  change ((firstTick ((lateRestored b).upTo (max 0 (lateRestored b).now)) oneModule _ _).event 7 _ _).rdGranule 0x10000 = _
  rw [hnow]
  generalize (lateRestored b).upTo 5000 = u at *
  have hm : ((firstTick u oneModule (savedRate.tickCount + 1) (resumePlan oneModule savedRate)).event 7 0
      [(savedRate.tickCount + 1) % 2 ^ 32 * 2 ^ 48]).mem = u.mem :=
    Eq.trans (event_onlyParts _ _ _ _ .mem (by decide)) (firstTick_opens u oneModule _ _ hi).mem
  exact (rdGranule_congr hm _).trans hg

theorem lateRestore_granule : ∀ b, (lateRestore b).rdGranule 0x10000 = if b then 1 else 0 := by decide +kernel

/-- Refutes O53: the lost frame lands in its gather region while RESUMED lets time come to the first edge, so memory does not stand. -/
theorem not_preemptionSavesAndResumes : ¬ Obligations.PreemptionSavesAndResumes := by
  unfold Obligations.PreemptionSavesAndResumes
  intro h
  have hmem (b : Bool) : ((lateRestore b).resumed ⟨0, 0⟩).mem = (lateRestore b).mem := by
    have hsettled : Settled (lateRestore b) (max (lateRestore b).now 0 + 1024) := lateRestore_soon b
    obtain ⟨-, -, -, -, -, -, -, -, hresumed⟩ := h (lateRestore b) 0 0 0 (lateRestore_awake b) (by decide) hsettled
    obtain ⟨hp, hf, hv⟩ := lateRestore_saved b
    obtain ⟨t, ht, -, -, -, -, -, -, -, -, -, hm⟩ := (hresumed ⟨7, 0, 0, 5000⟩ oneModule savedRate ⟨0, 0⟩ hp (by decide) hf hv
      (lateRestore_settled b)).1 (lateRestore_sound b)
    have hx : exec (.resumed ⟨0, 0⟩) (lateRestore b) = .next ((lateRestore b).resumed ⟨0, 0⟩) :=
      congrArg Host.Outcome.next (live_runs (lateRestore_awake b).1 _)
    rw [hx] at ht
    cases ht
    exact hm
  have hboth (b : Bool) : (if b then 1 else 0 : Granule) = BitVec.ofNat 2048 (Config.free 0) := by
    rw [← lateRestore_granule b, ← rdGranule_congr (hmem b), lateRestore_resumed]
  have hbit := congrArg (fun g : Granule => g.getLsbD 0) ((hboth true).trans (hboth false).symm)
  simp at hbit

end Sys2Proof.Laws
end

section
/-! PROOFS. The pieces of an accepted job start (R60, R61, R391, R430, R481): its registers, its control record, state
initialisation and state load. -/

namespace Sys2Proof.Laws
open Sys2Proof.Machine Sys2Proof.Safety

/-! ### What a job start leaves of the links and of the module's identity -/

/-- The fields of a module's place in the orchard and of its links' rates: no job start changes them. -/
def placeFlds : List Fld := HULL_ORCH_MODULE :: (range' 0 16).map (fun l => lnkFld LNK_STATE_LEGACY l)

/-- The place and the rates stand. -/
structure PlaceStands (s t : State) : Prop where
  keeps : Keeps s t
  flds : Inv s → ∀ g ∈ placeFlds, t.fget g = s.fget g

theorem PlaceStands.refl (s : State) : PlaceStands s s := ⟨.refl s, fun _ _ _ => rfl⟩

theorem PlaceStands.trans {s t u : State} (h : PlaceStands s t) (k : PlaceStands t u) : PlaceStands s u :=
  ⟨h.keeps.trans k.keeps, fun i g m => (k.flds (h.keeps.inv i) g m).trans (h.flds i g m)⟩

theorem PlaceStands.of_regs {s t : State} (hk : Keeps s t) (h : t.regs = s.regs) : PlaceStands s t :=
  ⟨hk, fun _ g _ => fget_congr h g⟩

theorem PlaceStands.of_only {ks : List Nat} {s t : State} (hk : Keeps s t) (h : OnlyRegs ks s t) (hks : ∀ g ∈ placeFlds, g.base ∉ ks) :
    PlaceStands s t := ⟨hk, fun _ g m => h.fget g (hks g m)⟩

theorem placeStands_fset (s : State) (f : Fld) (x : Nat) (hw : f.lo + f.wd ≤ 64) (ha : ∀ g ∈ placeFlds, apart f g = true) :
    PlaceStands s (s.fset f x) := ⟨fset_keeps f x (.refl s), fun i g m => fget_fset_apart s f g x i.1.1 hw (ha g m)⟩

theorem placeStands_fsetAll (l : List (Fld × Nat)) (hl : ∀ f ∈ l.map Prod.fst, f.lo + f.wd ≤ 64 ∧ ∀ g ∈ placeFlds, apart f g = true) (s : State) :
    PlaceStands s (s.fsetAll l) := by
  induction l generalizing s with
  | nil => exact .refl s
  | cons q l ih =>
    obtain ⟨hw, ha⟩ := hl q.1 (.head _)
    exact (placeStands_fset s q.1 q.2 hw ha).trans (ih (fun r m => hl r (.tail _ m)) _)

theorem PlaceStands.lnkHop {s t : State} (h : PlaceStands s t) (hi : Inv s) {l : Nat} (hl : l < 16) : t.lnkHop l = s.lnkHop l := by
  have hm : lnkFld LNK_STATE_LEGACY l ∈ placeFlds := .tail _ (List.mem_map.2 ⟨l, (mem_range' _ _ _).2 ⟨Nat.zero_le _, by omega⟩, rfl⟩)
  unfold State.lnkHop State.lnkLegacy State.fbit
  rw [h.flds hi _ hm]

theorem PlaceStands.module {s t : State} (h : PlaceStands s t) (hi : Inv s) : t.fget HULL_ORCH_MODULE = s.fget HULL_ORCH_MODULE :=
  h.flds hi _ (.head _)

theorem treeFlds_apart : ∀ l < 16, ((lnkFld LNK_STATE_TREE_PARENT l).lo + (lnkFld LNK_STATE_TREE_PARENT l).wd ≤ 64 ∧
    ∀ g ∈ placeFlds, apart (lnkFld LNK_STATE_TREE_PARENT l) g = true) ∧
    ((lnkFld LNK_STATE_TREE_CHILD l).lo + (lnkFld LNK_STATE_TREE_CHILD l).wd ≤ 64 ∧ ∀ g ∈ placeFlds, apart (lnkFld LNK_STATE_TREE_CHILD l) g = true) := by
  decide

theorem orchFlds_apart : ∀ f ∈ [HULL_ORCH_MASTER, HULL_ORCH_SUBMASTER, HULL_ORCH_DEPTH, HULL_ORCH_REFUSE, TICK_LEAD_LEAD, TICK_LEAD_PATH,
    TICK_LEAD_MASTER, HULL_SLOW_LEND_LENDER], f.lo + f.wd ≤ 64 ∧ ∀ g ∈ placeFlds, apart f g = true := by decide

/-! ### The registers of an accepted job -/

theorem orchStart_onlyParts (s : State) (f : ImageFile) : OnlyParts [.regs] s (s.orchStart f) := by
  unfold State.orchStart
  extract_lets m w master sub u
  exact (fsetAll_onlyParts s _).trans (foldl_onlyParts _ (fun t _ => (fset_onlyParts t _ _).trans (fset_onlyParts _ _ _)) _ _)

theorem orchStart_place (s : State) (f : ImageFile) : PlaceStands s (s.orchStart f) := by
  unfold State.orchStart
  extract_lets m w master sub u
  have hu : PlaceStands s u := by
    refine placeStands_fsetAll _ ?_ s
    exact orchFlds_apart
  refine hu.trans (List.foldlRecOn _ _ (.refl u) (fun t h l hl => h.trans ?_))
  have hl' : l < 16 := by
    have := (mem_range' _ _ _).1 hl
    omega
  obtain ⟨⟨hw, ha⟩, hw', ha'⟩ := treeFlds_apart l hl'
  exact (placeStands_fset t _ _ hw ha).trans (placeStands_fset _ _ _ hw' ha')

theorem jobRegs_onlyParts (s : State) (f : ImageFile) (c : Nat) : OnlyParts [.regs] s (s.jobRegs f c) := by
  unfold State.jobRegs
  extract_lets cls u v
  have hu : OnlyParts [.regs] s u := foldl_onlyParts _ (fun t _ => fsetAll_onlyParts t _) _ _
  have hv : OnlyParts [.regs] u v := foldl_onlyParts _ (fun t _ => fsetAll_onlyParts t _) _ _
  exact (hu.trans hv).trans (fsetAll_onlyParts _ _)

theorem limitFlds_apart : ∀ a < 4, (∀ f ∈ [TICK_STARVE_THRESHOLD.ix a, TICK_STARVE_QUANTUM.ix a], f.lo + f.wd ≤ 64 ∧ ∀ g ∈ placeFlds, apart f g = true) ∧
    (∀ f ∈ [HUB_SCHED_LOADED.die a, HUB_SCHED_ENTRIES.die a], f.lo + f.wd ≤ 64 ∧ ∀ g ∈ placeFlds, apart f g = true) ∧
    ∀ f ∈ [COMMIT_HOLD_POLICY, MMU_ROOT_ROOT.ix a, MMU_ROOT_LOADED.ix a, HULL_SLOW_LEND_BORROWING],
      f.lo + f.wd ≤ 64 ∧ ∀ g ∈ placeFlds, apart f g = true := by decide

theorem jobRegs_place (s : State) (f : ImageFile) {c : Nat} (hc : c < 4) : PlaceStands s (s.jobRegs f c) := by
  have hlt {a : Nat} (ha : a ∈ range' 0 4) : a < 4 := by
    have := (mem_range' _ _ _).1 ha
    omega
  unfold State.jobRegs
  extract_lets cls u v
  have hu : PlaceStands s u := List.foldlRecOn _ _ (.refl s) (fun t h a ha => by
    refine h.trans (placeStands_fsetAll _ ?_ t)
    exact (limitFlds_apart a (hlt ha)).1)
  have hv : PlaceStands u v := List.foldlRecOn _ _ (.refl u) (fun t h a ha => by
    refine h.trans (placeStands_fsetAll _ ?_ t)
    exact (limitFlds_apart a (hlt ha)).2.1)
  refine (hu.trans hv).trans (placeStands_fsetAll _ ?_ v)
  exact (limitFlds_apart c hc).2.2

theorem noteRegs_place : ∀ g ∈ placeFlds, g.base ∉ noteRegs := by decide

theorem commandDone_place (s : State) (ctx tag op status detail : Nat) : PlaceStands s (s.commandDone ctx tag op status detail) :=
  .of_only (commandDone_keeps' s ctx tag op status detail) (only_commandDone s ctx tag op status detail (fun _ m => m)) noteRegs_place

/-! ### State initialisation and state load (R430, R481) -/

/-- What state initialisation and a state load leave: memory, the lag entries and free values apart, nothing changes. -/
structure Loaded (s t : State) : Prop where
  parts : OnlyParts [.mem, .job, .fresh] s t
  held : JobHeld s t

theorem Loaded.refl (s : State) : Loaded s s := ⟨.refl _ s, .refl s⟩

theorem Loaded.trans {s t u : State} (h : Loaded s t) (g : Loaded t u) : Loaded s u := ⟨h.parts.trans g.parts, h.held.trans g.held⟩

theorem Loaded.of_mem {s t : State} (h : OnlyParts [.mem] s t) : Loaded s t := ⟨h.mono (by decide), .of_parts h (by decide)⟩

theorem Loaded.ite {s a b : State} {c : Prop} [Decidable c] (ha : Loaded s a) (hb : Loaded s b) : Loaded s (if c then a else b) := by
  split <;> assumption

theorem Loaded.foldl {α : Type} (g : State → α → State) (h : ∀ s a, Loaded s (g s a)) (l : List α) (s : State) : Loaded s (l.foldl g s) :=
  List.foldlRecOn l g (.refl s) (fun t ht a _ => ht.trans (h t a))

theorem loaded_wrBytes (s : State) (a : Nat) (l : List Byte) : Loaded s (s.wrBytes a l) := .of_mem (wrBytes_onlyParts l s a)

theorem loaded_wrN (s : State) (a k v : Nat) : Loaded s (s.wrN a k v) := .of_mem (wrN_onlyParts s k a v)

theorem loaded_setLag (s : State) (t : Nat) (b : Bool) (e : LagEnt) : Loaded s (s.setLag t b e) :=
  ⟨(withJob_onlyParts s _).mono (by decide), ⟨rfl, rfl, rfl, rfl, rfl⟩⟩

theorem loaded_drawn (s : State) : Loaded s s.drawn := ⟨(drawn_onlyParts s).mono (by decide), .of_parts (drawn_onlyParts s) (by decide)⟩

theorem loaded_initTensor (s : State) (f : ImageFile) (t : TensorEnt) : Loaded s (s.initTensor f t) := by
  unfold State.initTensor
  refine .ite ?_ (.of_mem (zero_onlyParts s _ _))
  split
  · exact .refl s
  · exact .foldl _ (fun s b => ((loaded_wrN s _ _ _).trans (loaded_wrN _ _ _ _)).trans (loaded_wrN _ _ _ _)) _ s

theorem loaded_copyData (s : State) (f : ImageFile) : Loaded s (s.copyData f) := .foldl (fun (s : State) (d : DataRec) => s.wrBytes d.dest d.bytes) (fun s d => loaded_wrBytes s d.dest d.bytes) _ s

theorem loaded_initState (s : State) (f : ImageFile) : Loaded s (s.initState f) := by
  unfold State.initState
  extract_lets m g u
  have hu : Loaded s u := .foldl _ (fun s t => loaded_initTensor s g t) _ s
  have hv : Loaded u (u.withJob (fun j => { j with lag := [] })) := ⟨(withJob_onlyParts u _).mono (by decide), ⟨rfl, rfl, rfl, rfl, rfl⟩⟩
  exact (hu.trans hv).trans (loaded_copyData _ _)

theorem loaded_loadFactors (d st : TensorEnt) : ∀ (k b : Nat) (l : List Byte) (s : State), Loaded s (s.loadFactors d st k b l)
  | 0, _, _, s => .refl s
  | k + 1, b, l, s => by
    unfold State.loadFactors
    extract_lets w0 n a u v res
    have hu : Loaded s u := loaded_wrBytes s _ _
    have hv : Loaded s v := ((hu.trans (loaded_wrN _ _ _ _)).trans (loaded_wrN _ _ _ _)).trans (loaded_wrN _ _ _ _)
    exact .ite (hv.trans ((loaded_wrBytes _ _ _).trans (loaded_loadFactors d st k _ _ _))) (hv.trans (loaded_loadFactors d st k _ _ _))

theorem loaded_blocks (g : Nat → State × List Byte → Nat × List Byte) (cut : Nat → List Byte → List Byte) (l : List Nat) :
    ∀ acc : State × List Byte, Loaded acc.1 (l.foldl (fun (acc : State × List Byte) b =>
      (acc.1.wrBytes (g b acc).1 (g b acc).2, cut b acc.2)) acc).1 := by
  induction l with
  | nil => exact fun acc => .refl acc.1
  | cons b l ih =>
    intro acc
    have h := ih (acc.1.wrBytes (g b acc).1 (g b acc).2, cut b acc.2)
    exact (loaded_wrBytes acc.1 (g b acc).1 (g b acc).2).trans h

theorem loaded_loadOne (s : State) (f : ImageFile) (e : ExpEnt) : Loaded s (s.loadOne f e) := by
  unfold State.loadOne
  refine .ite ?_ ?_
  · split
    · exact .refl s
    next t ht =>
      extract_lets lag b
      split
      · exact .ite (loaded_setLag s _ _ _) ((loaded_setLag s _ _ _).trans (loaded_drawn _))
      · exact (loaded_setLag s _ _ _).trans (loaded_drawn _)
  · split
    · exact .refl s
    next t ht =>
      refine .ite ?_ (.ite ?_ (loaded_wrBytes s _ _))
      · split
        · exact loaded_loadFactors _ _ _ _ _ s
        · exact .refl s
      · exact loaded_blocks (fun b acc => (t.even + 4 * 2 ^ t.block * 2 ^ t.block * b, acc.2.take (4 * blockDim t b * blockDim t b)))
          (fun b l => l.drop (4 * blockDim t b * blockDim t b)) _ (s, e.data)

end Sys2Proof.Laws
end

section
/-! PROOFS. START_JOB (R387, R416, R430, R481, R538): the checks in order, and the first tick of an accepted job. -/

namespace Sys2Proof.Laws
open Sys2Proof.Machine Sys2Proof.Safety

/-! ### An accepted job -/

/-- Nothing comes about of a job that has not begun: what is due is what the tiles, the hubs and the links have under way. -/
theorem settled_of_begun {s t : State} {c : Nat} (hs : Settled s c) (ht : t.tiles = s.tiles) (hh : t.hub = s.hub) (hl : t.links = s.links)
    (hrate : ∀ l < 16, t.lnkHop l = s.lnkHop l) (hv : t.solver = {}) (hr : t.run = {}) : Settled t c := by
  have hsub : t.dues ⊆ s.dues := by
    have hlinks : linkDues t = linkDues s := by
      unfold linkDues
      rw [hl]
      refine List.flatMap_congr (fun k hk => ?_)
      have hk' : k.1 < 16 := by
        have := (mem_range' _ _ _).1 (List.of_mem_zip hk).1
        omega
      rw [hrate _ hk']
    intro e he
    change e ∈ _ ++ _ ++ _ ++ _ ++ linkDues t ++ _ at he
    change e ∈ _ ++ _ ++ _ ++ _ ++ linkDues s ++ _
    rw [hlinks, ht, hh, hv, hr] at he
    simp only [flightDue_congr ht] at he
    simp only [List.flatMap_nil, List.map_nil, List.append_nil, List.mem_append] at he ⊢
    rcases he with (he | he) | he
    · exact .inl (.inl (.inl (.inl (.inl he))))
    · exact .inl (.inl (.inr he))
    · exact .inl (.inr he)
  refine List.eq_nil_iff_forall_not_mem.2 (fun e he => ?_)
  obtain ⟨hm, hd⟩ := List.mem_filter.1 he
  have : e ∈ s.dueBy c := List.mem_filter.2 ⟨hsub hm, hd⟩
  rw [hs] at this
  exact List.not_mem_nil this

/-- The state of an accepted job start before time comes to the edge of the first tick. -/
def startReady (b : State) (f : ImageFile) (c tag : Nat) : State :=
  ((b.commandDone c tag 3 0 0).jobRegs f c).setCtx c (fun x => { x with state := .running, saved := none })

/-- A job that has started on an edge: what its first tick finds. -/
structure JobStarted (s t : State) (f : ImageFile) (c seed edge plan : Nat) (ccr : Ccr) : Prop where
  now : t.now = max s.now edge
  first : FirstTick t t 0 plan
  edge : t.edgeAt = t.now
  ctx : t.job.ctx = some c
  ccr : t.ccr = ccr
  state : (t.ctx c).state = .running
  image : (t.ctx c).image = (s.ctx c).image
  seed : t.job.seed = seed
  verdicts : t.job.verdicts = (s.ctx c).verdicts
  refused : t.job.refused = (s.ctx c).refused
  cmds : t.host.cmds = s.host.cmds

section
variable {s b : State} {f : ImageFile} {c seed : Nat} {ccr : Ccr} (hi : Inv s) (hc : c < 4)
  (hb : Loaded ((s.orchStart f).jobBegin f c seed ccr) b) (hbk : Keeps ((s.orchStart f).jobBegin f c seed ccr) b)

theorem jobBegin_parts (s : State) (f : ImageFile) (c seed : Nat) (ccr : Ccr) :
    OnlyParts [.ctxs, .ccr, .job, .run, .solver, .slow, .power, .host] s (s.jobBegin f c seed ccr) := by
  intro p hp
  cases p <;> simp [Part.Same, State.jobBegin, State.setCtx] at hp ⊢

theorem jobBegin_job (s : State) (f : ImageFile) (c seed : Nat) (ccr : Ccr) : (s.jobBegin f c seed ccr).job =
    { ctx := some c, seed := seed, verdicts := (s.ctx c).verdicts, refused := (s.ctx c).refused } := rfl

theorem jobBegin_rest (s : State) (f : ImageFile) (c seed : Nat) (ccr : Ccr) : (s.jobBegin f c seed ccr).ccr = ccr ∧
    (s.jobBegin f c seed ccr).solver = {} ∧ (s.jobBegin f c seed ccr).run = {} ∧ (s.jobBegin f c seed ccr).host.cmds = s.host.cmds :=
  ⟨rfl, rfl, rfl, rfl⟩

theorem jobBegin_ctx {s : State} (hi : Inv s) {c : Nat} (hc : c < 4) (f : ImageFile) (seed : Nat) (ccr : Ccr) :
    (s.jobBegin f c seed ccr).ctx c = { s.ctx c with verdicts := [], refused := [] } := ctx_setCtx_same hi hc _

include hi hc hb hbk

theorem startReady_inv (tag : Nat) : Inv (startReady b f c tag) := by
  have h0 : Inv b := hbk.inv (jobBegin_keeps _ f c seed ccr (orchStart_keeps s f (.refl s)) |>.inv hi)
  exact (setCtx_keeps' _ c _).inv (((commandDone_keeps' b c tag 3 0 0).trans (jobRegs_keeps _ f c (.refl _))).inv h0)

theorem startReady_place (tag : Nat) : PlaceStands s (startReady b f c tag) := by
  have h1 : PlaceStands s (s.orchStart f) := orchStart_place s f
  have h2 : PlaceStands (s.orchStart f) ((s.orchStart f).jobBegin f c seed ccr) :=
    .of_regs (jobBegin_keeps _ f c seed ccr (.refl _)) (jobBegin_parts _ f c seed ccr .regs (by decide))
  have h3 : PlaceStands ((s.orchStart f).jobBegin f c seed ccr) b := .of_regs hbk (hb.parts .regs (by decide))
  have h4 : PlaceStands b ((b.commandDone c tag 3 0 0).jobRegs f c) := (commandDone_place b c tag 3 0 0).trans (jobRegs_place _ f hc)
  exact ((h1.trans h2).trans h3).trans (h4.trans (.of_regs (setCtx_keeps' _ c _) (setCtx_onlyParts _ c _ .regs (by decide))))

omit hi hc hbk in
theorem startReady_parts (tag : Nat) : OnlyParts [.regs, .fifos, .outbox, .ctxs, .ccr, .job, .run, .solver, .slow, .power, .host, .mem, .fresh] s
    (startReady b f c tag) :=
  (((((orchStart_onlyParts s f).mono (by decide)).then (jobBegin_parts _ f c seed ccr) (by decide)).then hb.parts (by decide)).then
    ((commandDone_onlyParts b c tag 3 0 0).mono (qs := [.regs, .fifos, .outbox]) (by decide)) (by decide)).then
    (((jobRegs_onlyParts _ f c).mono (qs := [.regs, .ctxs]) (by decide)).then (setCtx_onlyParts _ c _) (by decide)) (by decide)

omit hi hc hbk in
/-- What a job start has set before its first tick. -/
theorem startReady_job (tag : Nat) : (startReady b f c tag).job.ctx = some c ∧ (startReady b f c tag).job.seed = seed ∧
    (startReady b f c tag).job.verdicts = (s.ctx c).verdicts ∧ (startReady b f c tag).job.refused = (s.ctx c).refused ∧
    (startReady b f c tag).ccr = ccr ∧ (startReady b f c tag).solver = {} ∧ (startReady b f c tag).run = {} ∧
    (startReady b f c tag).host.cmds = s.host.cmds := by
  have hlate : OnlyParts [.regs, .fifos, .outbox, .ctxs] b (startReady b f c tag) :=
    ((commandDone_onlyParts b c tag 3 0 0).mono (by decide)).then
      (((jobRegs_onlyParts _ f c).mono (qs := [.regs, .ctxs]) (by decide)).then (setCtx_onlyParts _ c _) (by decide)) (by decide)
  have ho := orchStart_onlyParts s f
  have hctx : (s.orchStart f).ctx c = s.ctx c := ctx_congr (ho .ctxs (by decide)) c
  have hhost : (s.orchStart f).host = s.host := ho .host (by decide)
  obtain ⟨jccr, jsol, jrun, jcmds⟩ := jobBegin_rest (s.orchStart f) f c seed ccr
  have hj := jobBegin_job (s.orchStart f) f c seed ccr
  rw [hctx] at hj
  rw [hhost] at jcmds
  obtain ⟨hparts, hctx', hseed, -, hver, href⟩ := hb
  generalize (s.orchStart f).jobBegin f c seed ccr = a at *
  generalize startReady b f c tag = u at *
  have hju : u.job = b.job := hlate .job (by decide)
  have eccr : u.ccr = a.ccr := Eq.trans (hlate .ccr (by decide)) (hparts .ccr (by decide))
  have esol : u.solver = a.solver := Eq.trans (hlate .solver (by decide)) (hparts .solver (by decide))
  have erun : u.run = a.run := Eq.trans (hlate .run (by decide)) (hparts .run (by decide))
  have ehost : u.host = a.host := Eq.trans (hlate .host (by decide)) (hparts .host (by decide))
  rw [hj] at hctx' hseed hver href
  rw [hju, eccr, esol, erun, ehost]
  exact ⟨hctx', hseed, hver, href, jccr, jsol, jrun, jcmds⟩

theorem startReady_ctx (tag : Nat) : ((startReady b f c tag).ctx c).state = .running ∧ ((startReady b f c tag).ctx c).image = (s.ctx c).image := by
  have hio : Inv (s.orchStart f) := (orchStart_keeps s f (.refl s)).inv hi
  have hk : Inv b := hbk.inv (jobBegin_keeps _ f c seed ccr (.refl _) |>.inv hio)
  have hj := jobBegin_ctx hio hc f seed ccr
  rw [ctx_congr (orchStart_onlyParts s f .ctxs (by decide)) c] at hj
  have hparts := hb.parts
  generalize (s.orchStart f).jobBegin f c seed ccr = a at *
  have hrk : Inv ((b.commandDone c tag 3 0 0).jobRegs f c) := ((commandDone_keeps' b c tag 3 0 0).trans (jobRegs_keeps _ f c (.refl _))).inv hk
  have hm : ((b.commandDone c tag 3 0 0).jobRegs f c).ctx c = a.ctx c :=
    ctx_congr (Eq.trans (jobRegs_onlyParts _ f c .ctxs (by decide)) (Eq.trans (commandDone_onlyParts b c tag 3 0 0 .ctxs (by decide))
      (hparts .ctxs (by decide)))) c
  unfold startReady
  generalize (b.commandDone c tag 3 0 0).jobRegs f c = v at *
  rw [ctx_setCtx_same hrk hc, hm, hj]
  exact ⟨rfl, rfl⟩

/-- An accepted job runs from its first edge. -/
theorem started {edge : Nat} (hs : Settled s (max s.now edge)) (tag plan : Nat) :
    JobStarted s ((b.commandDone c tag 3 0 0).runFrom f c edge 0 plan) f c seed edge plan ccr ∧
      ((b.commandDone c tag 3 0 0).runFrom f c edge 0 plan).fget TICK_COUNT_COUNT = 0 := by
  have hinv := startReady_inv hi hc hb hbk tag
  have hplace := startReady_place hi hc hb hbk tag
  have hparts := startReady_parts hb tag
  obtain ⟨hctx, hseed, hver, href, hccr, hsol, hrun, hcmds⟩ := startReady_job hb tag
  obtain ⟨hstate, himg⟩ := startReady_ctx hi hc hb hbk tag
  have he : (b.commandDone c tag 3 0 0).runFrom f c edge 0 plan =
      firstTick ((startReady b f c tag).upTo (max edge (startReady b f c tag).now)) f 0 plan := rfl
  generalize startReady b f c tag = u at *
  have hnow : u.now = s.now := hparts .now (by decide)
  have hset : Settled u (max edge u.now) := by
    rw [hnow, max_comm]
    exact settled_of_begun hs (hparts .tiles (by decide)) (hparts .hub (by decide)) (hparts .links (by decide))
      (fun l hl => hplace.lnkHop hi hl) hsol hrun
  rw [he, upTo_settled _ _ hset]
  have hi' : Inv (u.advance (max edge u.now)) := (advance_keeps _ (.refl u)).inv hinv
  have hf := firstTick_opens (u.advance (max edge u.now)) f 0 plan hi'
  have htime : (u.advance (max edge u.now)).now = max s.now edge := by
    change max u.now (max edge u.now) = _
    rw [hnow]
    omega
  have hsame : OnlyParts [.now] u (u.advance (max edge u.now)) := advance_onlyParts u _
  generalize u.advance (max edge u.now) = v at *
  generalize firstTick v f 0 plan = t at *
  have hj : v.job = u.job := hsame .job (by decide)
  have hcx : t.ctx c = u.ctx c := ctx_congr (Eq.trans hf.ctxs (hsame .ctxs (by decide))) c
  have hh : v.host = u.host := hsame .host (by decide)
  have hcv : v.ccr = u.ccr := hsame .ccr (by decide)
  refine ⟨{
    now := hf.now.trans htime, first := ?_, edge := hf.edge.trans hf.now.symm, ctx := by rw [hf.ctx, hj, hctx],
    ccr := by rw [hf.ccr, hcv, hccr], state := by rw [hcx, hstate], image := by rw [hcx, himg],
    seed := by rw [hf.seed, hj, hseed], verdicts := by rw [hf.verdicts, hj, hver], refused := by rw [hf.refused, hj, href],
    cmds := by rw [hf.cmds, hh, hcmds] }, hf.count⟩
  exact { hf with
    now := rfl, edge := hf.edge.trans hf.now.symm, firstEdge := hf.firstEdge.trans hf.now.symm, ctx := rfl, seed := rfl, verdicts := rfl,
    refused := rfl, ccr := rfl, mirror0 := hf.mirror0.trans hf.ccr.symm, mirror1 := hf.mirror1.trans hf.ccr.symm, ctxs := rfl, mem := rfl,
    cmds := rfl, keeps := .refl t }

end

end Sys2Proof.Laws
end

section
/-! PROOFS. START_JOB's checks in order, and what each answer leaves (R387, R416, R426, R430, R538). -/

namespace Sys2Proof.Laws
open Sys2Proof.Machine Sys2Proof.Safety

theorem settled_mono {s : State} {c d : Nat} (h : c ≤ d) (hs : Settled s d) : Settled s c := by
  refine List.eq_nil_iff_forall_not_mem.2 (fun e he => ?_)
  obtain ⟨hm, hd⟩ := List.mem_filter.1 he
  have : e ∈ s.dueBy d := List.mem_filter.2 ⟨hm, decide_eq_true ((of_decide_eq_true hd).trans h)⟩
  rw [hs] at this
  exact List.not_mem_nil this

/-! ### A refused start -/

theorem jobRefusal_lt (s : State) (f : ImageFile) : s.jobRefusal f < 2 ^ HULL_ORCH_REFUSE.wd := by
  have h : s.jobRefusal f ≤ 7 := by
    unfold State.jobRefusal
    dsimp only
    split_ifs <;> decide
  exact h.trans_lt (by decide)

/-- What a refused job start shows, and the tick's register. -/
abbrev RefuseFld (g : Fld) : Prop := g ∈ [HULL_ORCH_REFUSE, HULL_ORCH_STS_JOB_REFUSED, TICK_COUNT_COUNT]

theorem refuseFld_note : ∀ g, RefuseFld g → g.base ∉ noteRegs := by
  have h : ∀ g ∈ [HULL_ORCH_REFUSE, HULL_ORCH_STS_JOB_REFUSED, TICK_COUNT_COUNT], g.base ∉ noteRegs := by decide
  exact h

theorem neighbour_apart : ∀ k < 4, ∀ f ∈ [LNK_STS_NEIGHBOUR_MISMATCH.die k, LNK_ERR_FIRST_VALID.die k, LNK_ERR_FIRST_LINK.die k,
    LNK_ERR_FIRST_CAUSE.die k, LNK_ERR_FIRST_SLOT.die k, LNK_ERR_FIRST_KIND.die k, LNK_ERR_FIRST_TICK.die k], ApartFrom RefuseFld f := by
  unfold ApartFrom
  decide

/-- The link of a refusal that leads elsewhere is named (R387). -/
def neighbourNoted (s : State) (l : Nat) : State :=
  (s.setSts (12 + l / 4) (LNK_STS_NEIGHBOUR_MISMATCH.die (l / 4))).record (LNK_ERR_FIRST_VALID.die (l / 4))
    [(LNK_ERR_FIRST_LINK.die (l / 4), l % 4), (LNK_ERR_FIRST_CAUSE.die (l / 4), 5), (LNK_ERR_FIRST_SLOT.die (l / 4), 0),
     (LNK_ERR_FIRST_KIND.die (l / 4), 0), (LNK_ERR_FIRST_TICK.die (l / 4), s.tickCount)]

theorem neighbourNoted_beside (s : State) {l : Nat} (hl : l < 16) : Beside RefuseFld [.regs, .outbox] s (neighbourNoted s l) := by
  have ha := neighbour_apart (l / 4) (by omega)
  refine (beside_setSts s _ _ (ha _ (.head _))).then (beside_record _ _ _ (ha _ (.tail _ (.head _))) ?_) (by decide)
  intro p hp
  refine ha p.1 (.tail _ (.tail _ ?_))
  exact List.mem_map.2 ⟨p, hp, rfl⟩

/-- The refusal's code and status, before a link is named. -/
def refusalShown (s : State) (code : Nat) : State := (s.fset HULL_ORCH_REFUSE code).setSts 0 HULL_ORCH_STS_JOB_REFUSED

theorem jobRefused_beside (s : State) (f : ImageFile) (code : Nat) :
    Beside RefuseFld [.regs, .outbox] (refusalShown s code) (s.jobRefused f code) := by
  unfold State.jobRefused
  dsimp only
  change Beside RefuseFld _ (refusalShown s code) (if _ then
    ((usedLinks f (s.fget HULL_ORCH_MODULE)).filter (fun l => !(refusalShown s code).linkLeads f (s.fget HULL_ORCH_MODULE) l)).foldl neighbourNoted
      (refusalShown s code) else refusalShown s code)
  refine .ite (.foldl (fun v l hl => neighbourNoted_beside v ?_) _) (.refl _ _ _)
  have hm := List.mem_of_mem_filter hl
  unfold usedLinks at hm
  have hused : l ∈ range' 0 16 := List.mem_of_mem_filter hm
  have := (mem_range' _ _ _).1 hused
  omega

/-- What a refusal leaves: its code, its status and its completion. -/
theorem refusal_stands {s : State} (hi : Inv s) (at_ ctx tag op : Nat) (f : ImageFile) {code : Nat} (hcode : code < 2 ^ HULL_ORCH_REFUSE.wd) :
    let t := ((s.advance at_).jobRefused f code).commandDone ctx tag op 13 code
    t.fget HULL_ORCH_REFUSE = code ∧ t.fbit HULL_ORCH_STS_JOB_REFUSED = true ∧ Completes ctx tag op 13 code s t ∧
      OnlyParts [.now, .regs, .fifos, .outbox] s t := by
  intro t
  have hadv := advance_onlyParts s at_
  have hia : Inv (s.advance at_) := (advance_keeps at_ (.refl s)).inv hi
  have hshow : OnlyParts [.regs, .outbox] (s.advance at_) (refusalShown (s.advance at_) code) :=
    ((fset_onlyParts _ _ _).mono (by decide)).then (setSts_onlyParts _ _ _) (by decide)
  have hset : Inv ((s.advance at_).fset HULL_ORCH_REFUSE code) := (fset_keeps _ _ (.refl _)).inv hia
  have hish : Inv (refusalShown (s.advance at_) code) := (setSts_keeps _ _ _ (.refl _)).inv hset
  have hcode' : (refusalShown (s.advance at_) code).fget HULL_ORCH_REFUSE = code :=
    (fget_setSts_apart _ _ _ _ hset.1.1 (by decide) (by decide)).trans
      ((fget_fset_same _ _ _ hia.1.1 (by decide)).trans (Nat.mod_eq_of_lt hcode))
  have hsts : (refusalShown (s.advance at_) code).fbit HULL_ORCH_STS_JOB_REFUSED = true :=
    fbit_setSts _ _ _ hset.1.1 (by decide) (by decide)
  have hcount : (refusalShown (s.advance at_) code).fget TICK_COUNT_COUNT = (s.advance at_).fget TICK_COUNT_COUNT :=
    (fget_setSts_apart _ _ _ _ hset.1.1 (by decide) (by decide)).trans (fget_fset_apart _ _ _ _ hia.1.1 (by decide) (by decide))
  have hb := jobRefused_beside (s.advance at_) f code
  generalize refusalShown (s.advance at_) code = u at *
  have ht : t = ((s.advance at_).jobRefused f code).commandDone ctx tag op 13 code := rfl
  generalize (s.advance at_).jobRefused f code = v at *
  have hiv : Inv v := hb.keeps.inv hish
  have hd := beside_commandDone refuseFld_note v ctx tag op 13 code
  have hsame : SameEgress (s.advance at_) v :=
    .of_parts (hshow.then hb.parts (by decide)) (by decide) ((hb.flds hish _ (.tail _ (.tail _ (.head _)))).trans hcount)
  have hpre : SameEgress s (s.advance at_) := ⟨rfl, rfl, rfl⟩
  rw [ht]
  refine ⟨(hd.flds hiv _ (.head _)).trans ((hb.flds hish _ (.head _)).trans hcode'),
    hd.fbit hiv (.tail _ (.head _)) (hb.fbit hish (.tail _ (.head _)) hsts),
    (hpre.trans hsame).posts (completes_commandDone hiv ctx tag op 13 code), ?_⟩
  exact (((hadv.mono (by decide)).then hshow (by decide)).then hb.parts (by decide)).then hd.parts (by decide)

/-- What a command that completes at once leaves. -/
theorem completed_stands {s : State} (hi : Inv s) (at_ ctx tag op status detail : Nat) :
    ((s.advance at_).commandDone ctx tag op status detail).now = max s.now at_ ∧
      Completes ctx tag op status detail s ((s.advance at_).commandDone ctx tag op status detail) ∧
      OnlyParts [.now, .regs, .fifos, .outbox] s ((s.advance at_).commandDone ctx tag op status detail) ∧
      OnlyRegs noteRegs s ((s.advance at_).commandDone ctx tag op status detail) := by
  have ha := advance_onlyParts s at_
  have hc := commandDone_onlyParts (s.advance at_) ctx tag op status detail
  have hs : SameEgress s (s.advance at_) := ⟨rfl, rfl, rfl⟩
  exact ⟨hc .now (by decide), hs.posts (completes_commandDone ((advance_keeps at_ (.refl s)).inv hi) ctx tag op status detail),
    (ha.mono (by decide)).then hc (by decide), (ha.onlyRegs (by decide) _).trans (only_commandDone _ _ _ _ _ _ (fun _ m => m))⟩

/-! ### The checks -/

section
variable {s : State} {c tag seed src len : Nat} {join : JobJoin}

theorem startJob_early (h : (s.ctx c).image = none ∨ s.cmdAllowed c [.loaded] = false ∨ s.fbit BENCH_STS_SCAN_ACTIVE = true) :
    s.startJob c tag seed src len join = s.commandDone c tag 3 3 0 := by
  unfold State.startJob
  split
  next => rfl
  next f hf =>
    rw [hf] at h
    refine if_pos ?_
    rcases h with h | h | h
    · nomatch h
    · rw [h]; rfl
    · rw [h, Bool.or_true]

variable {f : ImageFile} (hf : (s.ctx c).image = some f) (ha : s.cmdAllowed c [.loaded] = true) (hx : s.fbit BENCH_STS_SCAN_ACTIVE = false)
include hf ha hx

/-- What follows the first check. -/
theorem startJob_eq : s.startJob c tag seed src len join =
    if s.jobBusy then s.commandDone c tag 3 4 0
    else if s.powerDetail != 0 then s.commandDone c tag 3 15 s.powerDetail
    else if s.fget HOST_LINK_WIDTH == 1 || s.fget HOST_LINK_WIDTH == 2 then s.commandDone c tag 3 7 0
    else if s.jobRefusal f != 0 then (s.jobRefused f (s.jobRefusal f)).commandDone c tag 3 13 (s.jobRefusal f)
    else s.startAccepted f c tag seed src len join := by
  unfold State.startJob
  rw [hf]
  dsimp only
  rw [ha, hx]
  rfl

theorem startJob_busy (hb : s.jobBusy = true) : s.startJob c tag seed src len join = s.commandDone c tag 3 4 0 := by
  rw [startJob_eq hf ha hx, if_pos hb]

variable (hb : s.jobBusy = false)
include hb

theorem startJob_power (hp : s.powerDetail ≠ 0) : s.startJob c tag seed src len join = s.commandDone c tag 3 15 s.powerDetail := by
  rw [startJob_eq hf ha hx, if_neg (by rw [hb]; decide), if_pos (bne_iff_ne.2 hp)]

variable (hp : s.powerDetail = 0)
include hp

theorem startJob_link (hn : s.fget HOST_LINK_WIDTH = 1 ∨ s.fget HOST_LINK_WIDTH = 2) :
    s.startJob c tag seed src len join = s.commandDone c tag 3 7 0 := by
  rw [startJob_eq hf ha hx, if_neg (by rw [hb]; decide), if_neg (by rw [hp]; decide), if_pos]
  rw [Bool.or_eq_true, beq_iff_eq, beq_iff_eq]
  exact hn

variable (hn : ¬ (s.fget HOST_LINK_WIDTH = 1 ∨ s.fget HOST_LINK_WIDTH = 2))
include hn

theorem startJob_wide : s.startJob c tag seed src len join =
    if s.jobRefusal f != 0 then (s.jobRefused f (s.jobRefusal f)).commandDone c tag 3 13 (s.jobRefusal f)
    else s.startAccepted f c tag seed src len join := by
  rw [startJob_eq hf ha hx, if_neg (by rw [hb]; decide), if_neg (by rw [hp]; decide), if_neg]
  rw [Bool.or_eq_true, beq_iff_eq, beq_iff_eq]
  exact hn

theorem startJob_refused (hr : s.jobRefusal f ≠ 0) : s.startJob c tag seed src len join =
    (s.jobRefused f (s.jobRefusal f)).commandDone c tag 3 13 (s.jobRefusal f) := by
  rw [startJob_wide hf ha hx hb hp hn, if_pos (bne_iff_ne.2 hr)]

theorem startJob_accepted (hr : s.jobRefusal f = 0) : s.startJob c tag seed src len join = s.startAccepted f c tag seed src len join := by
  rw [startJob_wide hf ha hx hb hp hn, if_neg (by rw [hr]; decide)]

end

/-! ### An accepted start, fresh or from an exported stream -/

theorem seedFor_eq (s : State) (f : ImageFile) (own : Nat) (join : JobJoin) :
    s.seedFor f own join = if s.fget HULL_ORCH_MODULE = imgMaster f then own else join.seed := by
  simp only [State.seedFor, beq_iff_eq]

section
variable {s : State} {f : ImageFile} {c tag seed src len : Nat} {join : JobJoin}

theorem startAccepted_fresh (h : src = 0) : s.startAccepted f c tag seed src len join =
    ((((s.orchStart f).jobBegin f c (s.seedFor f seed join) {}).initState f).commandDone c tag 3 0 0).runFrom f c join.edge 0 (imgTick0 f) := by
  unfold State.startAccepted
  rw [if_pos (beq_iff_eq.2 h)]

theorem startAccepted_bad (h : src ≠ 0) (hl : (s.loadBytes src len).bind (fun l => s.loadEnts f l) = none) :
    s.startAccepted f c tag seed src len join = s.commandDone c tag 3 10 0 := by
  unfold State.startAccepted
  rw [if_neg (by rw [beq_iff_eq]; exact h)]
  cases hb : s.loadBytes src len with
  | none => rfl
  | some l =>
    rw [hb] at hl
    dsimp only
    rw [show s.loadEnts f l = none from hl]

/-- The state that a state load leaves. -/
def stateLoaded (s : State) (f : ImageFile) (es : List ExpEnt) : State :=
  (es.foldl (fun s e => s.loadOne (imgSeenBy f (s.fget HULL_ORCH_MODULE)) e) s).copyData f

/-- The control record that the header of an exported stream gives. -/
def exportCcr (l : List Byte) : Ccr := { t := streamN l 48 8, step := streamN l 56 8, lastStep := some (streamN l 56 8) }

theorem startAccepted_load (h : src ≠ 0) {l : List Byte} {es : List ExpEnt} (hl : s.loadBytes src len = some l) (he : s.loadEnts f l = some es) :
    s.startAccepted f c tag seed src len join =
      ((stateLoaded ((s.orchStart f).jobBegin f c (s.seedFor f (streamN l 112 8) join) (exportCcr l)) f es).commandDone c tag 3 0 0).runFrom
        f c join.edge 0 (imgTick0 f) := by
  unfold State.startAccepted
  rw [if_neg (by rw [beq_iff_eq]; exact h), hl]
  dsimp only
  rw [he]
  dsimp only [stateLoaded, exportCcr]

theorem loaded_stateLoaded (s : State) (f : ImageFile) (es : List ExpEnt) : Loaded s (stateLoaded s f es) :=
  (Loaded.foldl (fun (s : State) e => s.loadOne (imgSeenBy f (s.fget HULL_ORCH_MODULE)) e) (fun s e => loaded_loadOne s _ e) es s).trans
    (loaded_copyData _ f)

theorem stateLoaded_keeps (s : State) (f : ImageFile) (es : List ExpEnt) : Keeps s (stateLoaded s f es) :=
  copyData_keeps _ f (List.foldlRecOn es _ (.refl s) (fun t h e _ => loadOne_keeps t _ e h))

end

end Sys2Proof.Laws
end

section
/-! PROOFS. END_JOB (R410, R434, R561): a job reset that the partners hear of, and the end of a pre-empted job. -/

namespace Sys2Proof.Laws
open Sys2Proof.Machine Sys2Proof.Safety

/-! ### The clearing of the J-class fields beside a field of another class -/

/-- An adjusted table holds the adjusted value, or what it held. -/
theorem tabGet_tabAdjust_or {β : Type} [DecidableEq β] (d : Nat → β) (f : Nat → β → β) (k : Nat) :
    ∀ (t : List (Nat × β)) (lo : Nat), tabWfFrom d lo t = true →
      tabGet d (tabAdjust d f t) k = f k (tabGet d t k) ∨ tabGet d (tabAdjust d f t) k = tabGet d t k
  | [], _, _ => .inr rfl
  | (a, v) :: r, lo, hw => by
    simp only [tabWfFrom, Bool.and_eq_true, decide_eq_true_eq] at hw
    obtain ⟨-, hr⟩ := hw
    have ih := tabGet_tabAdjust_or d f k r (a + 1) hr
    by_cases hk : a = k
    · subst hk
      have hrest : tabGet d (tabAdjust d f r) a = d a := by
        have h0 : tabGet d r a = d a := tabGet_of_lt d r (a + 1) a hr (Nat.lt_succ_self a)
        exact tabGet_of_lt d _ (a + 1) a (tabWfFrom_tabAdjust d f r (a + 1) hr) (Nat.lt_succ_self a)
      left
      by_cases hd : f a v = d a
      · simp [tabAdjust, tabGet, hd, hrest]
      · simp [tabAdjust, tabGet, hd]
    · by_cases hd : f a v = d a <;> simpa [tabAdjust, tabGet, hd, hk] using ih

/-- A field apart from every selected field of its register stands when those are cleared. -/
theorem getBits_clearFields (p : FieldDesc → Bool) (lo wd : Nat) : ∀ (l : List FieldDesc) (v : Nat),
    (∀ f ∈ l, p f = true → lo + wd ≤ f.lo ∨ f.lo + f.wd ≤ lo) → getBits (clearFields p l v) lo wd = getBits v lo wd
  | [], _, _ => rfl
  | f :: l, v, h => by
    rw [clearFields, getBits_clearFields p lo wd l _ (fun g m => h g (.tail _ m))]
    split
    next hp => exact getBits_putBits_apart (h f (.head _) hp)
    next => rfl

/-- Does no selected field of a register share a bit with a field of it? -/
def clearedApart (p : FieldDesc → Bool) (g : Fld) : Bool :=
  match findReg g.base with
  | some d => d.fields.all (fun f => !p f || decide (g.lo + g.wd ≤ f.lo) || decide (f.lo + f.wd ≤ g.lo))
  | none => true

theorem getBits_ofNat64 (v lo wd : Nat) (h : lo + wd ≤ 64) : getBits (BitVec.ofNat 64 v).toNat lo wd = getBits v lo wd := by
  unfold getBits
  rw [BitVec.toNat_ofNat]
  obtain ⟨e, he⟩ := Nat.exists_eq_add_of_le h
  rw [he, pow_add, pow_add, mul_assoc, Nat.mod_mul_right_div_self, Nat.mod_mul_right_mod]

/-- A register's word with its selected fields at their reset values. -/
def clearedReg (p : FieldDesc → Bool) (k : Nat) (v : Word64) : Word64 :=
  match findReg k with
  | some d => BitVec.ofNat 64 (clearFields p d.fields v.toNat)
  | none => v

theorem regGet_clearRegs (s : State) (p : FieldDesc → Bool) (k : Nat) :
    (s.clearRegs (fun _ => p)).regGet k = tabGet resetOf (tabAdjust resetOf (clearedReg p) s.regs) k := rfl

theorem getBits_clearedReg {p : FieldDesc → Bool} {g : Fld} (hg : g.lo + g.wd ≤ 64) (h : clearedApart p g = true) (v : Word64) :
    getBits (clearedReg p g.base v).toNat g.lo g.wd = getBits v.toNat g.lo g.wd := by
  unfold clearedApart at h
  unfold clearedReg
  generalize findReg g.base = o at h ⊢
  cases o with
  | none => rfl
  | some d =>
    dsimp only at h ⊢
    rw [getBits_ofNat64 _ _ _ hg]
    refine getBits_clearFields p g.lo g.wd d.fields _ (fun f hf hp => ?_)
    have := List.all_eq_true.1 h f hf
    rw [hp] at this
    simpa using this

theorem fget_clearRegs_apart (s : State) (p : FieldDesc → Bool) (g : Fld) (hw : tabWf resetOf s.regs = true) (hg : g.lo + g.wd ≤ 64)
    (h : clearedApart p g = true) : (s.clearRegs (fun _ => p)).fget g = s.fget g := by
  unfold State.fget
  rw [regGet_clearRegs]
  rcases tabGet_tabAdjust_or resetOf (clearedReg p) g.base s.regs 0 hw with he | he
  · rw [he]
    exact getBits_clearedReg hg h _
  · rw [he]
    rfl

theorem orchSize_kept (s : State) (hi : Inv s) : s.clearJ.fget HULL_ORCH_SIZE = s.fget HULL_ORCH_SIZE :=
  fget_clearRegs_apart s _ _ hi.1.1 (by decide) (by decide +kernel)

/-! ### What goes on through a job's end -/

/-- The number of modules in the orchard stands, and what has gone out stays. -/
structure Partnered (s t : State) : Prop where
  keeps : Keeps s t
  size : Inv s → t.fget HULL_ORCH_SIZE = s.fget HULL_ORCH_SIZE
  out : OutGrows s t

theorem Partnered.trans {s t u : State} (h : Partnered s t) (g : Partnered t u) : Partnered s u :=
  ⟨h.keeps.trans g.keeps, fun i => (g.size (h.keeps.inv i)).trans (h.size i), h.out.trans g.out⟩

theorem Partnered.refl (s : State) : Partnered s s := ⟨.refl s, fun _ => rfl, .refl s⟩

theorem Partnered.ite {s a b : State} {c : Prop} [Decidable c] (ha : Partnered s a) (hb : Partnered s b) : Partnered s (if c then a else b) := by
  split <;> assumption

theorem Partnered.of_parts {ps : List Part} {s t : State} (h : OnlyParts ps s t) (hk : Keeps s t) (hp : .regs ∉ ps ∧ .outbox ∉ ps) :
    Partnered s t := ⟨hk, fun _ => fget_congr (h .regs hp.1) _, .of_parts h hp.2⟩

/-- The number of modules, as the one field that is read. -/
abbrev SizeFld (g : Fld) : Prop := g = HULL_ORCH_SIZE

theorem Partnered.of_beside {ps : List Part} {s t : State} (h : Beside SizeFld ps s t) : Partnered s t :=
  ⟨h.keeps, fun i => h.flds i _ rfl, h.out⟩

theorem sizeFld_note : ∀ g, SizeFld g → g.base ∉ noteRegs := by
  rintro g rfl
  decide

theorem apart_size (f : Fld) (hw : f.lo + f.wd ≤ 64) (h : apart f HULL_ORCH_SIZE = true) : ApartFrom SizeFld f :=
  ⟨hw, fun g hg => hg ▸ h⟩

theorem partnered_commandDone (s : State) (ctx tag op status detail : Nat) : Partnered s (s.commandDone ctx tag op status detail) :=
  .of_beside (beside_commandDone sizeFld_note s ctx tag op status detail)

theorem partnered_foldl {α : Type} {g : State → α → State} {l : List α} (h : ∀ v, ∀ a ∈ l, Partnered v (g v a)) (s : State) :
    Partnered s (l.foldl g s) := List.foldlRecOn l g (.refl s) (fun t ht a ha => ht.trans (h t a ha))

theorem partnered_abandonCmds (s : State) (p : PendCmd → Bool) : Partnered s (s.abandonCmds p) :=
  (Partnered.of_parts (withHost_onlyParts s _) (withHost_keeps s _ (.refl s)) (by decide)).trans
    (partnered_foldl (fun v _ _ => partnered_commandDone v _ _ _ _ _) _)

theorem partnered_abandonExport (s : State) : Partnered s s.abandonExport := by
  unfold State.abandonExport
  split
  · exact .refl s
  · extract_lets u v w x
    have hu : Partnered s u := .of_parts (withHost_onlyParts s _) (withHost_keeps s _ (.refl s)) (by decide)
    have hv : Partnered u v := .of_beside (beside_setSts u 0 _ (apart_size _ (by decide) (by decide)))
    have hx : Partnered v x := .of_beside (beside_fsetAll v _ (by
      simp only [List.forall_mem_cons, List.not_mem_nil, false_implies, implies_true, and_true]
      exact ⟨apart_size _ (by decide) (by decide), apart_size _ (by decide) (by decide)⟩))
    exact ((hu.trans hv).trans hx).trans ((partnered_commandDone _ _ _ _ _ _).trans (.of_beside (beside_event _ sizeFld_note _ _ _)))

theorem partnered_abandonHarvest (s : State) (b : Bool) : Partnered s (s.abandonHarvest b) := by
  have hgen (n : Nat) : apart (HRD_GEN_INFO_WRITING.ix n) HULL_ORCH_SIZE = true := apart_of_base (by
    have hb : (HRD_GEN_INFO_WRITING.ix n).base = HRD_GEN_INFO_WRITING.base + n * HRD_GEN_INFO_WRITING.stride := rfl
    have h1 : HULL_ORCH_SIZE.base < HRD_GEN_INFO_WRITING.base := by decide
    omega)
  unfold State.abandonHarvest
  refine .ite ?_ (.refl s)
  have hu : Partnered s (s.withHost (fun h => { h with descs := h.descs.filter (fun d => d.kind != .harvest) })) :=
    .of_parts (withHost_onlyParts s _) (withHost_keeps s _ (.refl s)) (by decide)
  refine hu.trans ((Partnered.of_beside (beside_fsetAll _ _ ?_)).trans ((Partnered.of_beside (beside_fadd _ _ _ (apart_size _ (by decide) (by decide)))).trans
    (.of_beside (beside_setSts _ 3 _ (apart_size _ (by decide) (by decide))))))
  simp only [List.forall_mem_cons, List.not_mem_nil, false_implies, implies_true, and_true]
  exact ⟨apart_size _ (by decide) (by decide), apart_size _ (by decide) (by decide), apart_size _ (by decide) (by decide),
    apart_size _ (show HRD_GEN_INFO_WRITING.lo + HRD_GEN_INFO_WRITING.wd ≤ 64 by decide) (hgen _), apart_size _ (by decide) (by decide)⟩

end Sys2Proof.Laws
end

section
/-! PROOFS. O52: START_JOB and END_JOB (R387, R410, R416, R430, R434, R538, R561). -/

namespace Sys2Proof.Laws
open Sys2Proof.Machine Sys2Proof.Safety

/-! ### The job reset -/

theorem partnered_abandonDescs (s : State) (p : Desc → Bool) : Partnered s (s.abandonDescs p) := by
  have hpark (eng q : Nat) : ApartFrom SizeFld (dmaPark DMA_PARK_PARKED eng q) := apart_size _ (dmaPark_width eng q) (apart_of_base (by
    have hb : (dmaPark DMA_PARK_PARKED eng q).base = DMA_PARK_PARKED.base + (4 * eng + q) * DMA_PARK_PARKED.stride := rfl
    have h1 : HULL_ORCH_SIZE.base < DMA_PARK_PARKED.base := by decide
    omega))
  unfold State.abandonDescs
  dsimp only
  refine (Partnered.of_parts (withHost_onlyParts s _) (withHost_keeps s _ (.refl s)) (by decide)).trans
    ((partnered_foldl (fun v d _ => .of_beside (beside_fset v _ _ (hpark d.eng d.q))) _).trans (partnered_foldl (fun v d _ => ?_) _))
  split
  · exact partnered_commandDone _ _ _ _ _ _
  · exact .refl v

theorem emptyAtc_out (s : State) : OutGrows s s.emptyAtc := by
  have h (l : List (Nat × Nat × Nat × Nat)) (t : State) :
      OutGrows t (l.foldl (fun s h => s.emit (.msg "ATS_INVALIDATION_COMPLETE" [h.1, h.2.1, h.2.2.1, h.2.2.2])) t) :=
    List.foldlRecOn l _ (.refl t) (fun u hu _ _ => hu.trans (outGrows_emit u _))
  unfold State.emptyAtc State.answerHeld
  exact (OutGrows.of_parts (withHost_onlyParts s _) (by decide)).trans ((h _ _).trans (.of_parts (withHost_onlyParts _ _) (by decide)))

/-- What is abandoned when a job ends. -/
def jobAbandoned (s : State) : State :=
  let c := s.job.ctx
  let s := s.abandonCmds (fun p => some p.ctx == c && (p.opcode == 3 || p.opcode == 6 || p.opcode == 7))
  let s := if s.host.exp.any (fun e => some e.ctx == c) then s.abandonExport else s
  let s := s.abandonHarvest true
  s.abandonDescs (fun d => some d.ctx == c && d.eng < 12)

theorem jobReset_eq (s : State) (kind : Nat) : s.jobReset kind =
    ((jobAbandoned s).ctxToLoaded.savesAbandoned.stopTicks.clearJ.emptyAtc).restoreSts kind 8 0 0 false false false := rfl

theorem jobAbandoned_parts (s : State) : OnlyParts [.regs, .fifos, .host, .outbox] s (jobAbandoned s) := by
  unfold jobAbandoned
  extract_lets c u v w
  have hu : OnlyParts [.regs, .fifos, .host, .outbox] s u := abandonCmds_onlyParts s _
  have hv : OnlyParts [.regs, .fifos, .host, .outbox] u v := .ite (abandonExport_onlyParts u) (.refl _ u)
  have hw : OnlyParts [.regs, .fifos, .host, .outbox] v w := (abandonHarvest_onlyParts v true).mono (by decide)
  exact ((hu.trans hv).trans hw).trans (abandonDescs_onlyParts w _)

theorem jobAbandoned_partnered (s : State) : Partnered s (jobAbandoned s) := by
  unfold jobAbandoned
  extract_lets c u v w
  have hu : Partnered s u := partnered_abandonCmds s _
  have hv : Partnered u v := .ite (partnered_abandonExport u) (.refl u)
  exact ((hu.trans hv).trans (partnered_abandonHarvest v true)).trans (partnered_abandonDescs w _)

/-- The context whose job has ended. -/
theorem ctxEnded {s : State} (hi : Inv s) {c : Nat} (hc : c < 4) (hj : s.job.ctx = some c) : (s.ctxToLoaded.savesAbandoned).ctx c =
    { s.ctx c with state := .loaded, ccr := s.ccr, seed := s.job.seed, lag := s.job.lag, slow := s.slow, saved := none } := by
  have hload : s.ctxToLoaded = s.setCtx c (fun x =>
      { x with state := .loaded, ccr := s.ccr, seed := s.job.seed, lag := s.job.lag, slow := s.slow, saved := none }) := by
    rw [State.ctxToLoaded, hj]
  have hik : Inv s.ctxToLoaded := (ctxToLoaded_keeps s (.refl s)).inv hi
  have hx : s.ctxToLoaded.ctx c = { s.ctx c with state := .loaded, ccr := s.ccr, seed := s.job.seed, lag := s.job.lag, slow := s.slow, saved := none } := by
    rw [hload]
    exact ctx_setCtx_same hi hc _
  generalize s.ctxToLoaded = u at *
  have hlen : c < u.ctxs.length := by rw [hik.2.1]; exact hc
  have hget : u.ctx c = u.ctxs[c] := by rw [State.ctx, List.getD_eq_getElem _ _ hlen]
  have hget' : u.savesAbandoned.ctx c = if u.ctxs[c].state == .running then { u.ctxs[c] with state := .loaded, saved := none } else u.ctxs[c] := by
    rw [State.ctx, State.savesAbandoned, List.getD_eq_getElem _ _ (by rw [List.length_map]; exact hlen), List.getElem_map]
  rw [hget', ← hget, hx]
  rfl

/-- What a job reset makes of a running context. -/
structure JobReset (s t : State) (c : Nat) : Prop where
  partnered : Partnered s t
  now : t.now = s.now
  mem : t.mem = s.mem
  job : t.job = {}
  run : t.run = {}
  ctx : t.ctx c = { s.ctx c with state := .loaded, ccr := s.ccr, seed := s.job.seed, lag := s.job.lag, slow := s.slow, saved := none }
  kind : t.fget PWR_RESTORE_STS_KIND = 8

theorem restoreSts_kind {s : State} (hi : Inv s) (kind cleared tiles crackers : Nat) (hbm ctxs retest : Bool) :
    (s.restoreSts kind cleared tiles crackers hbm ctxs retest).fget PWR_RESTORE_STS_KIND = kind % 2 ^ PWR_RESTORE_STS_KIND.wd := by
  refine fget_fsetAll_mem _ s hi.1.1 ?_ (.head _)
  change FieldsApart [PWR_RESTORE_STS_KIND, PWR_RESTORE_STS_CLEARED, PWR_RESTORE_STS_TILE_LOST, PWR_RESTORE_STS_CRACKER_LOST,
    PWR_RESTORE_STS_HBM_LOST, PWR_RESTORE_STS_CONTEXTS_LOST, PWR_RESTORE_STS_POD_RETEST, PWR_RESTORE_STS_MORE]
  unfold FieldsApart
  decide

theorem jobReset_ends {s : State} (hi : Inv s) {c : Nat} (hc : c < 4) (hj : s.job.ctx = some c) : JobReset s (s.jobReset 8) c := by
  rw [jobReset_eq]
  have ha := jobAbandoned_parts s
  have hap := jobAbandoned_partnered s
  generalize jobAbandoned s = u at *
  have hiu : Inv u := hap.keeps.inv hi
  have hctx := ctxEnded hiu hc ((congrArg JobRun.ctx (ha .job (by decide))).trans hj)
  have hv : OnlyParts [.ctxs] u u.ctxToLoaded.savesAbandoned := (ctxToLoaded_onlyParts u).trans (savesAbandoned_onlyParts _)
  have hvk : Keeps u u.ctxToLoaded.savesAbandoned := savesAbandoned_keeps _ (ctxToLoaded_keeps u (.refl u))
  generalize u.ctxToLoaded.savesAbandoned = v at *
  have hw := stopTicks_onlyParts v
  have hwk : Keeps v v.stopTicks := stopTicks_keeps v (.refl v)
  have hwj : v.stopTicks.job = {} ∧ v.stopTicks.run = {} := ⟨rfl, rfl⟩
  generalize v.stopTicks = w at *
  have hiw : Inv w := hwk.inv (hvk.inv hiu)
  have hx := clearJ_onlyParts w
  have hxs := orchSize_kept w hiw
  have hxk : Keeps w w.clearJ := clearJ_keeps w (.refl w)
  generalize w.clearJ = x at *
  have hy := emptyAtc_onlyParts x
  have hyk : Keeps x x.emptyAtc := emptyAtc_keeps x (.refl x)
  have hyo : OutGrows x x.emptyAtc := emptyAtc_out x
  generalize x.emptyAtc = y at *
  have hiy : Inv y := hyk.inv (hxk.inv hiw)
  have hz : OnlyParts [.regs] y (y.restoreSts 8 8 0 0 false false false) := restoreSts_onlyParts y _ _ _ _ _ _ _
  have hzs : Beside SizeFld [.regs] y (y.restoreSts 8 8 0 0 false false false) :=
    beside_restoreSts (fun g hg => by subst hg; decide) y _ _ _ _ _ _ _
  have hkind := restoreSts_kind hiy 8 8 0 0 false false false
  generalize y.restoreSts 8 8 0 0 false false false = z at *
  have hvw : Partnered u w := (Partnered.of_parts hv hvk (by decide)).trans (.of_parts hw hwk (by decide))
  have hwx : Partnered w x := ⟨hxk, fun _ => hxs, .of_parts hx (by decide)⟩
  have hxy : Partnered x y := ⟨hyk, fun _ => fget_congr (hy .regs (by decide)) _, hyo⟩
  have hlate : OnlyParts [.regs, .host, .outbox] w z := ((hx.mono (by decide)).then hy (by decide)).then hz (by decide)
  have hall : OnlyParts [.regs, .fifos, .host, .outbox, .ctxs, .run, .job, .tiles, .hub, .links, .solver, .power] s z :=
    (((ha.mono (by decide)).then hv (by decide)).then hw (by decide)).then hlate (by decide)
  have hzc : z.ctx c = v.ctx c := ctx_congr (Eq.trans (hlate .ctxs (by decide)) (hw .ctxs (by decide))) c
  have huc : u.ctx c = s.ctx c := ctx_congr (ha .ctxs (by decide)) c
  have hccr : u.ccr = s.ccr := ha .ccr (by decide)
  have hjob : u.job = s.job := ha .job (by decide)
  have hslow : u.slow = s.slow := ha .slow (by decide)
  exact {
    partnered := hap.trans (hvw.trans (hwx.trans (hxy.trans (.of_beside hzs))))
    now := hall .now (by decide), mem := hall .mem (by decide)
    job := Eq.trans (hlate .job (by decide)) hwj.1, run := Eq.trans (hlate .run (by decide)) hwj.2
    ctx := by rw [hzc, hctx, huc, hccr, hjob, hslow], kind := hkind }

end Sys2Proof.Laws
end

section
/-! PROOFS. O52: START_JOB and END_JOB (R387, R410, R416, R430, R434, R538, R561). -/

namespace Sys2Proof.Laws
open Sys2Proof.Machine Sys2Proof.Safety

/-! ### The end of the running job -/

section
variable {s : State} {c tag : Nat} (hi : Inv s) (hc : c < 4)

theorem endJob_refused (ha : s.cmdAllowed c [.running, .preempted] = false) : s.endJob c tag = s.commandDone c tag 8 3 0 := by
  unfold State.endJob
  exact if_pos (by rw [ha]; decide)

theorem endJob_running (ha : s.cmdAllowed c [.running, .preempted] = true) (hj : s.job.ctx = some c) :
    s.endJob c tag = ((s.noticeOut.jobReset 8).noticeSts).commandDone c tag 8 0 0 := by
  unfold State.endJob
  rw [if_neg (by rw [ha]; decide), if_pos (by rw [hj]; exact beq_self_eq_true _)]

/-- The notice that a job's end sends its partners: a frame in every CONTROL slot that is left. -/
theorem noticeOut_frames (hn : 1 < s.fget HULL_ORCH_SIZE) {l y : Nat} (hl : l ∈ s.treeLinks) (hy : y ∈ s.controlCycles l s.now) :
    ∃ hdr, Out.frame l y 2 [hdr, noticeFlit (s.fget HULL_ORCH_MODULE) 4] ∈ s.noticeOut.outbox := by
  unfold State.noticeOut
  rw [if_pos hn, sendNotice_eq]
  exact noticeOn_frame _ _ _ (fun m hm => treeLinks_lt hm) hl hy

theorem noticeSts_shows (hn : 1 < s.fget HULL_ORCH_SIZE) (hi : Inv s) : s.noticeSts.fbit HULL_ORCH_STS_ABORT_SENT = true := by
  unfold State.noticeSts
  rw [if_pos hn]
  exact fbit_setSts _ _ _ hi.1.1 (by decide) (by decide)

/-- What a job's end shows last: the reset's kind and the notice sent. -/
abbrev EndFld (g : Fld) : Prop := g ∈ [PWR_RESTORE_STS_KIND, HULL_ORCH_STS_ABORT_SENT]

theorem endFld_note : ∀ g, EndFld g → g.base ∉ noteRegs := by
  have h : ∀ g ∈ [PWR_RESTORE_STS_KIND, HULL_ORCH_STS_ABORT_SENT], g.base ∉ noteRegs := by decide
  exact h

theorem noticeSts_beside (s : State) : Beside (fun g => g = PWR_RESTORE_STS_KIND) [.regs, .outbox] s s.noticeSts :=
  .ite (beside_setSts s 0 _ ⟨by decide, by rintro g rfl; decide⟩) (.refl _ _ s)

include hi hc

/-- The state that END_JOB of a running context leaves. -/
theorem endJob_ends (hj : s.job.ctx = some c) :
    let t := ((s.noticeOut.jobReset 8).noticeSts).commandDone c tag 8 0 0
    t.now = s.now ∧ t.job = {} ∧ t.run = {} ∧ (t.ctx c).state = .loaded ∧ (t.ctx c).ccr = s.ccr ∧ (t.ctx c).seed = s.job.seed ∧
      (t.ctx c).image = (s.ctx c).image ∧ t.fget PWR_RESTORE_STS_KIND = 8 ∧ t.mem = s.mem ∧
      (1 < s.fget HULL_ORCH_SIZE → t.fbit HULL_ORCH_STS_ABORT_SENT = true ∧ ∀ l ∈ s.treeLinks, ∀ y ∈ s.controlCycles l s.now,
        ∃ hdr, .frame l y 2 [hdr, noticeFlit (s.fget HULL_ORCH_MODULE) 4] ∈ t.outbox) := by
  have hframes := fun hn l hl y hy => noticeOut_frames (s := s) hn (l := l) (y := y) hl hy
  have hu := noticeOut_onlyParts s
  have huk : Keeps s s.noticeOut := noticeOut_keeps s (.refl s)
  generalize s.noticeOut = u at *
  have hiu : Inv u := huk.inv hi
  obtain ⟨hpart, hnow, hmem, hjob, hrun, hctx, hkind⟩ := jobReset_ends hiu hc ((congrArg JobRun.ctx (hu .job (by decide))).trans hj)
  generalize u.jobReset 8 = v at *
  have hiv : Inv v := hpart.keeps.inv hiu
  have hw := noticeSts_beside v
  have hshow := fun hn => noticeSts_shows (s := v) hn hiv
  generalize v.noticeSts = w at *
  have hiw : Inv w := hw.keeps.inv hiv
  have ht := beside_commandDone endFld_note w c tag 8 0 0
  generalize w.commandDone c tag 8 0 0 = t at *
  dsimp only
  have hlate : OnlyParts [.regs, .fifos, .outbox] v t := (hw.parts.mono (by decide)).then ht.parts (by decide)
  have htc : t.ctx c = v.ctx c := ctx_congr (hlate .ctxs (by decide)) c
  have huc : u.ctx c = s.ctx c := ctx_congr (hu .ctxs (by decide)) c
  have hccr : u.ccr = s.ccr := hu .ccr (by decide)
  have hjs : u.job = s.job := hu .job (by decide)
  have hsize : v.fget HULL_ORCH_SIZE = s.fget HULL_ORCH_SIZE := (hpart.size hiu).trans (fget_congr (hu .regs (by decide)) _)
  rw [htc, hctx, huc, hccr, hjs]
  refine ⟨Eq.trans (hlate .now (by decide)) (hnow.trans (hu .now (by decide))), Eq.trans (hlate .job (by decide)) hjob,
    Eq.trans (hlate .run (by decide)) hrun, rfl, rfl, rfl, rfl, ?_, Eq.trans (hlate .mem (by decide)) (hmem.trans (hu .mem (by decide))), fun hn => ⟨?_, fun l hl y hy => ?_⟩⟩
  · exact (ht.flds hiw _ (.head _)).trans ((hw.flds hiv _ rfl).trans hkind)
  · exact ht.fbit hiw (.tail _ (.head _)) (hshow (by rw [hsize]; exact hn))
  · obtain ⟨hdr, hm⟩ := hframes hn l hl y hy
    exact ⟨hdr, ht.out.mem (hw.out.mem (hpart.out.mem hm))⟩

end

/-! ### The end of a pre-empted job -/

/-- What is abandoned when a pre-empted job ends. -/
def savedAbandoned (s : State) (c : Nat) : State :=
  let s := s.abandonCmds (fun p => p.ctx == c && p.opcode == 7)
  let s := if s.host.exp.any (fun e => e.ctx == c) then s.abandonExport else s
  s.abandonDescs (fun d => d.ctx == c && d.eng < 12)

/-- The context whose saved job has ended. -/
def savedEnded (s : State) (c : Nat) : State :=
  (savedAbandoned s c).setCtx c (fun x => match x.saved with
    | some v => { x with state := .loaded, ccr := v.ccr, seed := v.job.seed, lag := v.job.lag, slow := v.slow, saved := none }
    | none => { x with state := .loaded })

theorem savedAbandoned_parts (s : State) (c : Nat) : OnlyParts [.regs, .fifos, .host, .outbox] s (savedAbandoned s c) := by
  unfold savedAbandoned
  extract_lets u v
  have hu : OnlyParts [.regs, .fifos, .host, .outbox] s u := abandonCmds_onlyParts s _
  have hv : OnlyParts [.regs, .fifos, .host, .outbox] u v := .ite (abandonExport_onlyParts u) (.refl _ u)
  exact (hu.trans hv).trans (abandonDescs_onlyParts v _)

theorem savedAbandoned_keeps (s : State) (c : Nat) : Keeps s (savedAbandoned s c) := by
  unfold savedAbandoned
  extract_lets u v
  have hu : Keeps s u := (partnered_abandonCmds s _).keeps
  have hv : Keeps u v := (Partnered.ite (partnered_abandonExport u) (.refl u)).keeps
  exact (hu.trans hv).trans (partnered_abandonDescs v _).keeps

theorem endJob_saved {s : State} {c tag : Nat} (ha : s.cmdAllowed c [.running, .preempted] = true) (hj : s.job.ctx ≠ some c) :
    s.endJob c tag = (if (savedEnded s c).job.ctx.isNone then (savedEnded s c).clearJ.emptyAtc.restoreSts 8 8 0 0 false false false
      else savedEnded s c).commandDone c tag 8 0 0 := by
  unfold State.endJob
  rw [if_neg (by rw [ha]; decide), if_neg (by rw [beq_iff_eq]; exact hj)]
  rfl

theorem savedEnded_ctx {s : State} (hi : Inv s) {c : Nat} (hc : c < 4) {v : Saved} (hv : (s.ctx c).saved = some v) : (savedEnded s c).ctx c =
    { s.ctx c with state := .loaded, ccr := v.ccr, seed := v.job.seed, lag := v.job.lag, slow := v.slow, saved := none } := by
  unfold savedEnded
  have h := ctx_congr (savedAbandoned_parts s c .ctxs (by decide)) c
  have hk := (savedAbandoned_keeps s c).inv hi
  generalize savedAbandoned s c = u at *
  rw [ctx_setCtx_same hk hc, h, hv]

theorem savedEnded_parts (s : State) (c : Nat) : OnlyParts [.regs, .fifos, .host, .outbox, .ctxs] s (savedEnded s c) :=
  ((savedAbandoned_parts s c).mono (by decide)).then (setCtx_onlyParts _ c _) (by decide)

theorem savedEnded_keeps (s : State) (c : Nat) : Keeps s (savedEnded s c) := (savedAbandoned_keeps s c).trans (setCtx_keeps' _ c _)

/-- What the end of the job of a pre-empted context clears, where no other job runs. -/
theorem savedCleared {s : State} (hi : Inv s) : OnlyParts [.regs, .host, .outbox] s (s.clearJ.emptyAtc.restoreSts 8 8 0 0 false false false) ∧
    (s.clearJ.emptyAtc.restoreSts 8 8 0 0 false false false).host.atc = [] ∧
    (s.clearJ.emptyAtc.restoreSts 8 8 0 0 false false false).fget PWR_RESTORE_STS_KIND = 8 := by
  have hx := clearJ_onlyParts s
  have hxk : Keeps s s.clearJ := clearJ_keeps s (.refl s)
  generalize s.clearJ = x at *
  have hy := emptyAtc_onlyParts x
  have hyk : Keeps x x.emptyAtc := emptyAtc_keeps x (.refl x)
  have hya : x.emptyAtc.host.atc = [] := rfl
  generalize x.emptyAtc = y at *
  have hz := restoreSts_onlyParts y 8 8 0 0 false false false
  have hh := hz .host (by decide)
  exact ⟨((hx.mono (by decide)).then hy (by decide)).then hz (by decide), (congrArg HostSt.atc hh).trans hya,
    restoreSts_kind (hyk.inv (hxk.inv hi)) 8 8 0 0 false false false⟩

/-- The state that END_JOB of a pre-empted context leaves. -/
theorem endJob_unsaves {s : State} (hi : Inv s) {c tag : Nat} (hc : c < 4) {v : Saved} (ha : s.cmdAllowed c [.running, .preempted] = true)
    (hv : (s.ctx c).saved = some v) (hj : s.job.ctx ≠ some c) :
    ((s.endJob c tag).ctx c).state = .loaded ∧ ((s.endJob c tag).ctx c).ccr = v.ccr ∧ ((s.endJob c tag).ctx c).saved = none ∧
      ((s.endJob c tag).ctx c).image = (s.ctx c).image ∧ (s.endJob c tag).mem = s.mem ∧ (s.endJob c tag).job = s.job ∧
      (s.job.ctx = none → (s.endJob c tag).host.atc = [] ∧ (s.endJob c tag).fget PWR_RESTORE_STS_KIND = 8) := by
  rw [endJob_saved ha hj]
  have hctx := savedEnded_ctx hi hc hv
  have hu := savedEnded_parts s c
  have hiu := (savedEnded_keeps s c).inv hi
  generalize savedEnded s c = u at *
  have hw : OnlyParts [.regs, .host, .outbox] u (if u.job.ctx.isNone then u.clearJ.emptyAtc.restoreSts 8 8 0 0 false false false else u) :=
    .ite (savedCleared hiu).1 (.refl _ u)
  have hwn : u.job.ctx = none → Inv (if u.job.ctx.isNone then u.clearJ.emptyAtc.restoreSts 8 8 0 0 false false false else u) ∧
      (if u.job.ctx.isNone then u.clearJ.emptyAtc.restoreSts 8 8 0 0 false false false else u).host.atc = [] ∧
      (if u.job.ctx.isNone then u.clearJ.emptyAtc.restoreSts 8 8 0 0 false false false else u).fget PWR_RESTORE_STS_KIND = 8 := fun h => by
    rw [if_pos (by rw [h]; rfl)]
    have hk : Keeps u (u.clearJ.emptyAtc.restoreSts 8 8 0 0 false false false) :=
      fsetAll_keeps _ (emptyAtc_keeps _ (clearJ_keeps u (.refl u)))
    exact ⟨hk.inv hiu, (savedCleared hiu).2⟩
  generalize (if u.job.ctx.isNone then u.clearJ.emptyAtc.restoreSts 8 8 0 0 false false false else u) = w at *
  have ht := beside_commandDone endFld_note w c tag 8 0 0
  generalize w.commandDone c tag 8 0 0 = t at *
  have hlate : OnlyParts [.regs, .host, .outbox, .fifos] u t := (hw.mono (by decide)).then ht.parts (by decide)
  have htc : t.ctx c = u.ctx c := ctx_congr (hlate .ctxs (by decide)) c
  have hju : u.job = s.job := hu .job (by decide)
  rw [htc, hctx]
  refine ⟨rfl, rfl, rfl, rfl, Eq.trans (hlate .mem (by decide)) (hu .mem (by decide)), Eq.trans (hlate .job (by decide)) hju, fun hn => ?_⟩
  obtain ⟨hiw, hatc, hkind⟩ := hwn (by rw [hju]; exact hn)
  have hth : t.host = w.host := ht.parts .host (by decide)
  exact ⟨by rw [hth]; exact hatc, (ht.flds hiw _ (.head _)).trans hkind⟩

/-! ### The commands -/

section
variable {s : State} {at_ c tag : Nat} (h : Awake s) (hc : c < 4) (hs : Settled s at_)
include h hc hs

theorem exec_startJob (seed src len : Nat) (join : JobJoin) :
    exec (.startJob at_ c tag seed src len join) s = .next ((s.advance at_).startJob c tag seed src len join) :=
  congrArg Host.Outcome.next ((live_runs h.1 _).trans (by rw [upTo_settled _ _ hs, Nat.mod_eq_of_lt hc]))

theorem exec_endJob : exec (.endJob at_ c tag) s = .next ((s.advance at_).endJob c tag) :=
  congrArg Host.Outcome.next ((live_runs h.1 _).trans (by rw [upTo_settled _ _ hs, Nat.mod_eq_of_lt hc]))

end

/-- A job that starts, from the command's cycle on. -/
theorem started_at {s : State} (hi : Inv s) {at_ c seed edge : Nat} (hc : c < 4) (hs : Settled s (max (max s.now at_) edge)) {f : ImageFile} {ccr : Ccr}
    {b : State} (hb : Loaded (((s.advance at_).orchStart f).jobBegin f c seed ccr) b)
    (hbk : Keeps (((s.advance at_).orchStart f).jobBegin f c seed ccr) b) (tag plan : Nat) :
    JobStarted (s.advance at_) ((b.commandDone c tag 3 0 0).runFrom f c edge 0 plan) f c seed edge plan ccr ∧
      ((b.commandDone c tag 3 0 0).runFrom f c edge 0 plan).fget TICK_COUNT_COUNT = 0 :=
  started ((advance_keeps at_ (.refl s)).inv hi) hc hb hbk ((sameDues_advance s at_).settled hs) tag plan

/-- Settles O52: the checks of START_JOB are taken one by one, an accepted job runs from its first tick, and END_JOB is followed
through the job reset or through the saved job's end. -/
theorem jobsStartAndEnd : Obligations.JobsStartAndEnd := by
  unfold Obligations.JobsStartAndEnd
  intro s at_ ctx tag seed src len join h hc hsettled start refused
  have hs : Settled s at_ := settled_mono (by omega) hsettled
  have hi : Inv (s.advance at_) := (advance_keeps at_ (.refl s)).inv h.2
  have he := exec_startJob (tag := tag) h hc hs seed src len join
  have hend := exec_endJob (tag := tag) h hc hs
  have answered {status detail : Nat} (e : (s.advance at_).startJob ctx tag seed src len join = (s.advance at_).commandDone ctx tag 3 status detail) :
      refused status detail := ⟨_, he.trans (congrArg Host.Outcome.next e), completed_stands h.2 at_ ctx tag 3 status detail⟩
  refine ⟨fun hf => answered (startJob_early hf), fun f hf ha hx => ⟨fun hb => answered (startJob_busy hf ha hx hb), fun hb =>
    ⟨fun hp => answered (startJob_power hf ha hx hb hp), fun hp => ?_⟩⟩, fun ha => ?_, fun ha hj => ?_, fun v hload hst hv hj => ?_⟩
  · intro narrow
    refine ⟨fun hn => answered (startJob_link hf ha hx hb hp hn), fun hn hr => ?_, fun hn hr hz => ?_, fun hn hr hz hl => ?_,
      fun l es hn hr hz hl hes => ?_⟩
    · exact ⟨_, he.trans (congrArg Host.Outcome.next (startJob_refused hf ha hx hb hp hn hr)),
        refusal_stands h.2 at_ ctx tag 3 f (jobRefusal_lt (s.advance at_) f)⟩
    · obtain ⟨hjob, hcount⟩ := started_at h.2 hc hsettled (f := f) (ccr := {}) (seed := (s.advance at_).seedFor f seed join) (loaded_initState _ f)
        (initState_keeps _ f (.refl _)) tag (imgTick0 f)
      have e := (startJob_accepted (s := s.advance at_) (tag := tag) (seed := seed) (src := src) (len := len) (join := join) hf ha hx hb hp hn hr).trans (startAccepted_fresh hz)
      refine ⟨_, he.trans (congrArg Host.Outcome.next e), hjob.now, hjob.edge, hjob.ctx, hjob.first.firstEdge, hjob.first.active, hjob.ccr,
        hjob.first.mirror0, hjob.first.mirror1, hjob.state, hjob.image.trans hf, ?_, hcount, hjob.first.plan, hjob.verdicts, hjob.refused,
        hjob.first.swaps, hjob.first.podPend, hjob.cmds⟩
      exact hjob.seed.trans (seedFor_eq _ f seed join)
    · exact answered ((startJob_accepted (s := s.advance at_) hf ha hx hb hp hn hr).trans (startAccepted_bad hz hl))
    · obtain ⟨hjob, hcount⟩ := started_at h.2 hc hsettled (f := f) (ccr := exportCcr l) (seed := (s.advance at_).seedFor f (streamN l 112 8) join)
        (loaded_stateLoaded _ f es) (stateLoaded_keeps _ f es) tag (imgTick0 f)
      have e := (startJob_accepted (s := s.advance at_) (tag := tag) (seed := seed) (src := src) (len := len) (join := join) hf ha hx hb hp hn hr).trans (startAccepted_load hz hl hes)
      refine ⟨_, he.trans (congrArg Host.Outcome.next e), hjob.now, hjob.edge, hjob.ctx, hjob.first.firstEdge, hjob.first.active, hjob.ccr,
        hjob.first.mirror0, hjob.first.mirror1, hjob.state, hjob.image.trans hf, ?_, hcount⟩
      exact hjob.seed.trans (seedFor_eq _ f _ join)
  · obtain ⟨-, hrest⟩ := completed_stands h.2 at_ ctx tag 8 3 0
    exact ⟨_, hend.trans (congrArg Host.Outcome.next (endJob_refused ha)), hrest⟩
  · exact ⟨_, hend.trans (congrArg Host.Outcome.next (endJob_running ha hj)), endJob_ends hi hc hj⟩
  · have ha : (s.advance at_).cmdAllowed ctx [.running, .preempted] = true := by
      change (!(s.ctx ctx).loading && [CtxState.running, .preempted].contains (s.ctx ctx).state) = true
      rw [hload, hst]
      rfl
    exact ⟨_, hend, endJob_unsaves hi hc ha hv hj⟩

end Sys2Proof.Laws
end

section
/-! PROOFS. The registers of the solver dies, and the end of a job that does not publish (R261 to R266, R269). -/

namespace Sys2Proof.Laws
open Sys2Proof.Machine Sys2Proof.Safety

/-! ### The counters and status bits of a die -/

/-- The counters and status bits of a solver die that the commands of the root solver touch. -/
def slvDieFlds : List Fld :=
  [SLV_CNT0_STARTED, SLV_CNT0_PUBLISHED, SLV_CNT1_DEADLINE_MISSES, SLV_CNT1_REFUSED, SLV_CNT1_SOFT_FAILS, SLV_CNT1_NOT_STARTED,
   SLV_CNT2_BYPASSES, SLV_CNT3_DATAPATH_FAULTS, SLV_CNT3_STALE_LIMITS, SLV_STS_DEADLINE_MISS, SLV_STS_REFUSED, SLV_STS_SOFT_FAIL,
   SLV_STS_NOT_STARTED, SLV_STS_BYPASS_SET, SLV_STS_DATAPATH_FAULT, SLV_STS_STALE_LIMIT]

/-- Those of die `k`, and the module's number. -/
def slvFlds (k : Nat) : List Fld := HULL_ORCH_MODULE :: slvDieFlds.map (fun f => f.die k)

/-- The fields of die `k` that are read. -/
abbrev SlvFld (k : Nat) (g : Fld) : Prop := g ∈ slvFlds k

/-- Those but two. -/
abbrev SlvBut (k : Nat) (a b g : Fld) : Prop := g ∈ slvFlds k ∧ g ≠ a ∧ g ≠ b

theorem slvFlds_apart : ∀ k < 4, ∀ f ∈ slvFlds k, f.lo + f.wd ≤ 64 ∧ ∀ g ∈ slvFlds k, g ≠ f → apart f g = true := by decide +kernel

theorem slvFlds_note : ∀ k < 4, ∀ g ∈ slvFlds k, g.base ∉ noteRegs := by decide +kernel

theorem slvFlds_below : ∀ k < 4, ∀ g ∈ slvFlds k, g.base < (SLV_CRK_STAGE.die k).base := by decide +kernel

theorem slvFlds_evt : ∀ k < 4, ∀ g ∈ slvFlds k, g.base ≠ (SLV_EVT_FIRST_VALID.die k).base ∧ g.base ≠ (SLV_EVT_RESID_VALID.die k).base := by
  decide +kernel

theorem slvFlds_raised : ∀ k < 4, ∀ g ∈ slvFlds k, g.base ≠ (FAULT_CNT_C_RAISED.pageOf (16 + k)).base := by decide +kernel

theorem mem_slvFlds {f : Fld} (k : Nat) (h : f ∈ slvDieFlds) : f.die k ∈ slvFlds k := .tail _ (List.mem_map.2 ⟨f, h, rfl⟩)

section
variable {s : State} {k : Nat} (hk : k < 4)
include hk

omit hk in
/-- A copy of a register lies at the register's address or above. -/
theorem ix_above {f : Fld} {b g : Nat} (hf : f.base = b) (h : g < b) (c : Nat) : g ≠ (f.ix c).base :=
  Nat.ne_of_lt (h.trans_le (hf ▸ Nat.le_add_right f.base (c * f.stride)))

omit hk in
/-- A copy of a register that lies above every field of `K` is apart from them. -/
theorem apartFrom_ix {K : Fld → Prop} {f : Fld} {b : Nat} (hw : f.lo + f.wd ≤ 64) (hf : f.base = b) (h : ∀ g, K g → g.base < b) (c : Nat) :
    ApartFrom K (f.ix c) := ⟨by rwa [ix_lo, ix_wd], fun g hg => apart_of_base (ix_above hf (h g hg) c)⟩

/-- A register of a cracker lies above them. -/
theorem crk_apart {f : Fld} (hf : f.base = SLV_CRK_STAGE.base) (hw : f.lo + f.wd ≤ 64) (c : Nat) : ApartFrom (SlvFld k) ((f.die k).ix c) :=
  apartFrom_ix (die_width k hw) ((die_base_inj f SLV_CRK_STAGE k).2 hf) (slvFlds_below k hk) c

/-- What crackers show is beside them. -/
theorem crk_beside (l : List Nat) (x y : Nat) : Beside (SlvFld k) [.regs] s
    (l.foldl (fun s c => s.fsetAll [((SLV_CRK_STAGE.die k).ix c, x), ((SLV_CRK_ITER.die k).ix c, y)]) s) :=
  .foldl (fun v c _ => beside_fsetAll v _ (by
    simp only [List.forall_mem_cons, List.not_mem_nil, false_implies, implies_true, and_true]
    exact ⟨crk_apart (f := SLV_CRK_STAGE) hk rfl (by decide) c, crk_apart (f := SLV_CRK_ITER) hk rfl (by decide) c⟩)) s

/-- An event that is counted and shown. -/
theorem slv_noted (hi : Inv s) {a b : Fld} (ha : a ∈ slvFlds k) (hb : b ∈ slvFlds k) (hab : b ≠ a) (hbw : b.wd = 1) (n p : Nat) :
    Counts a n s ((s.fadd a n).setSts p b) ∧ ((s.fadd a n).setSts p b).fbit b = true ∧
      Beside (SlvBut k a b) [.regs, .outbox] s ((s.fadd a n).setSts p b) := by
  obtain ⟨haw, haa⟩ := slvFlds_apart k hk a ha
  obtain ⟨hbw', hba⟩ := slvFlds_apart k hk b hb
  have hi' : Inv (s.fadd a n) := (fadd_keeps s a n (.refl s)).inv hi
  refine ⟨(fget_setSts_apart _ p b a hi'.1.1 hbw' (hba a ha hab.symm)).trans (counts_fadd hi a n haw), fbit_setSts _ p b hi'.1.1 hbw' hbw, ?_⟩
  exact ((beside_fadd s a n ⟨haw, fun g hg => haa g hg.1 hg.2.1⟩).mono (by decide) (fun _ => id)).then
    (beside_setSts _ p b ⟨hbw', fun g hg => hba g hg.1 hg.2.2⟩) (by decide)

end

/-! ### A job that ends without a publish -/

/-- The job leaves the solver. -/
def endFreed (s : State) (j : SlvJob) : State := s.withSolver (fun x => { x with jobs := x.jobs.filter (fun q => q.ent != j.ent) })

/-- Its gang shows how far it came. -/
def endGang (s : State) (e : BitVec 1024) (iters : Nat) : State :=
  (gang e).foldl (fun s c => s.fsetAll [((SLV_CRK_STAGE.die (slvDie e)).ix c, 6), ((SLV_CRK_ITER.die (slvDie e)).ix c, iters)]) s

/-- Its cause is counted. -/
def endNoted (s : State) (k cause : Nat) : State :=
  if cause == 0 then (s.fadd (SLV_CNT1_DEADLINE_MISSES.die k) 1).setSts (16 + k) (SLV_STS_DEADLINE_MISS.die k)
  else if cause ≤ 2 then (s.fadd (SLV_CNT1_REFUSED.die k) 1).setSts (16 + k) (SLV_STS_REFUSED.die k)
  else if cause ≤ 6 then (s.fadd (SLV_CNT1_SOFT_FAILS.die k) 1).setSts (16 + k) (SLV_STS_SOFT_FAIL.die k)
  else if cause == 7 then (s.fadd (SLV_CNT1_NOT_STARTED.die k) 1).setSts (16 + k) (SLV_STS_NOT_STARTED.die k)
  else s

/-- Its carry sets BYPASS. -/
def endBypassed (s : State) (k : Nat) (byp : Bool) : State :=
  if byp then (s.fadd (SLV_CNT2_BYPASSES.die k) 1).setSts (16 + k) (SLV_STS_BYPASS_SET.die k) else s

/-- The first end is recorded. -/
def endRecorded (s : State) (e : BitVec 1024) (cause iters resid : Nat) : State :=
  let k := slvDie e
  if s.fbit (SLV_EVT_FIRST_VALID.die k) || s.fbit (SLV_EVT_RESID_VALID.die k) then s
    else s.fsetAll [(SLV_EVT_FIRST_TENSOR.die k, slvTensor e), (SLV_EVT_FIRST_BLOCK.die k, slvBlock e),
      (SLV_EVT_FIRST_ITERS.die k, iters), (SLV_EVT_FIRST_CAUSE.die k, cause), (SLV_EVT_FIRST_CRACKER.die k, slvC0 e),
      (SLV_EVT_FIRST_TICK.die k, s.tickCount), (SLV_EVT_FIRST_VALID.die k, 1), (SLV_EVT_RESID_RESID.die k, resid),
      (SLV_EVT_RESID_JOB.die k, slvJob e), (SLV_EVT_RESID_ROUND.die k, slvRound e), (SLV_EVT_RESID_VALID.die k, 1)]

/-- The iterations that a job has completed by an scyc after its start, and the residual of the last. -/
def endIters (j : SlvJob) (at_ : Nat) : Nat := (j.out.iterEnds.filter (fun i => decide (i.1 ≤ at_))).length
def endResid (j : SlvJob) (at_ : Nat) : Nat := match (j.out.iterEnds.filter (fun i => decide (i.1 ≤ at_))).getLast? with | some i => i.2 | none => 0

/-- The scyc on which the carry of a job's end completes. -/
def endDone (j : SlvJob) (cause at_ : Nat) : Nat := (if cause == 0 then j.deadline + 1 else j.start + at_) + 40

/-- A job's end before its carry is issued. -/
def endCounted (s : State) (j : SlvJob) (cause at_ : Nat) : State :=
  endNoted (endGang (endFreed s j) j.ent (endIters j at_)) (slvDie j.ent) cause

theorem slvEnd_eq (s : State) (f : ImageFile) (j : SlvJob) (cause at_ : Nat) :
    let r := (endCounted s j cause at_).carry f j (endDone j cause at_)
    let z := endRecorded (endBypassed r.1 (slvDie j.ent) r.2.1) j.ent cause (endIters j at_) (endResid j at_)
    s.slvEnd f j cause at_ = z.event 3 z.evCtx
      [slvTensor j.ent * 2 ^ 48 + slvBlock j.ent * 2 ^ 68 + cause * 2 ^ 80 + slvDie j.ent * 2 ^ 84 + endIters j at_ * 2 ^ 88 + endResid j at_ * 2 ^ 96,
       slvJob j.ent * 2 ^ 16 + slvRound j.ent * 2 ^ 28 + r.2.2 * 2 ^ 40 + r.2.1.toNat * 2 ^ 48] := rfl

end Sys2Proof.Laws
end

section
/-! PROOFS. What the end of a solver job leaves: its count, its carry and its gang (R261 to R266, R269). -/

namespace Sys2Proof.Laws
open Sys2Proof.Machine Sys2Proof.Safety

/-! ### What a job's end reads -/

theorem slvEnts_of_module {s t : State} (h : t.fget HULL_ORCH_MODULE = s.fget HULL_ORCH_MODULE) (f : ImageFile) (e : BitVec 1024) :
    t.slvEnts f e = s.slvEnts f e := by
  unfold State.slvEnts
  rw [h]

theorem readsOdd_of_job {s t : State} (hc : t.ccr = s.ccr) (hj : t.job = s.job) (d : TensorEnt) : t.readsOdd d = s.readsOdd d := by
  simp only [State.readsOdd, State.lagEnt, hc, hj]

theorem writeBase_of_job {s t : State} (hc : t.ccr = s.ccr) (hj : t.job = s.job) (d : TensorEnt) : t.writeBase d = s.writeBase d := by
  rw [State.writeBase, State.writeBase, readsOdd_of_job hc hj]

theorem slvDie_lt (e : BitVec 1024) : slvDie e < 4 := by
  unfold slvDie bvBits getBits
  exact Nat.mod_lt _ (by decide)

/-! ### The carry -/

/-- Does the descriptor stay VALID in the carry? -/
def carryKeeps (j : SlvJob) : Prop := dscState j.prev = 1 ∧ dscUhash j.prev = slvUhash j.ent

/-- The carry that a job's end issues, to complete on an scyc. -/
def carryOf (s : State) (f : ImageFile) (j : SlvJob) (st d : TensorEnt) (done : Nat) : Carry :=
  { die := slvDie j.ent, c0 := slvC0 j.ent, gang := slvGang j.ent, at_ := done, addr := s.writeBase d + descOff f st (slvBlock j.ent),
    desc := BitVec.ofNat 512 (putBits (putBits j.prev.toNat 8 8 (min (dscStale j.prev + 1) 255)) 0 2
      (if dscState j.prev == 1 && dscUhash j.prev == slvUhash j.ent then 1 else 2)),
    limit := slvStaleLim j.ent }

theorem carry_eq {s : State} {f : ImageFile} {j : SlvJob} {st d : TensorEnt} (h : s.slvEnts f j.ent = some (st, d)) (done : Nat) :
    (s.carry f j done).1 = s.withSolver (fun x => { x with carries := x.carries ++ [carryOf s f j st d done] }) := by
  unfold State.carry
  dsimp only
  rw [h]
  rfl

theorem carry_onlyParts (s : State) (f : ImageFile) (j : SlvJob) (done : Nat) : OnlyParts [.solver] s (s.carry f j done).1 := by
  unfold State.carry
  dsimp only
  split
  · exact .refl _ s
  · exact withSolver_onlyParts s _

theorem carry_jobs (s : State) (f : ImageFile) (j : SlvJob) (done : Nat) : (s.carry f j done).1.solver.jobs = s.solver.jobs := by
  unfold State.carry
  dsimp only
  split <;> rfl

theorem carry_bypasses (s : State) (f : ImageFile) (j : SlvJob) (done : Nat) :
    (s.carry f j done).2.1 = (dscState j.prev == 1 && !(dscState j.prev == 1 && dscUhash j.prev == slvUhash j.ent)) := by
  unfold State.carry
  dsimp only
  split <;> rfl

theorem carry_bypasses_of {s : State} {f : ImageFile} {j : SlvJob} {done : Nat} (h1 : dscState j.prev = 1) (h2 : ¬ carryKeeps j) :
    (s.carry f j done).2.1 = true := by
  have hne : (dscUhash j.prev == slvUhash j.ent) = false := by
    rw [beq_eq_false_iff_ne]
    exact fun he => h2 ⟨h1, he⟩
  rw [carry_bypasses, h1, hne]
  rfl

/-! ### Each piece of an end -/

section
variable {s : State} {k : Nat} (hk : k < 4)
include hk

omit hk in
theorem endFreed_beside (s : State) (j : SlvJob) : Beside (SlvFld k) [.solver] s (endFreed s j) :=
  .of_parts (withSolver_onlyParts s _) (withSolver_keeps s _ (.refl s)) (by decide)

theorem evt_apart : ∀ f ∈ [SLV_EVT_FIRST_TENSOR, SLV_EVT_FIRST_BLOCK, SLV_EVT_FIRST_ITERS, SLV_EVT_FIRST_CAUSE, SLV_EVT_FIRST_CRACKER,
    SLV_EVT_FIRST_TICK, SLV_EVT_FIRST_VALID, SLV_EVT_RESID_RESID, SLV_EVT_RESID_JOB, SLV_EVT_RESID_ROUND, SLV_EVT_RESID_VALID],
    ApartFrom (SlvFld k) (f.die k) := by
  intro f hf
  have h : ∀ f ∈ [SLV_EVT_FIRST_TENSOR, SLV_EVT_FIRST_BLOCK, SLV_EVT_FIRST_ITERS, SLV_EVT_FIRST_CAUSE, SLV_EVT_FIRST_CRACKER,
      SLV_EVT_FIRST_TICK, SLV_EVT_FIRST_VALID, SLV_EVT_RESID_RESID, SLV_EVT_RESID_JOB, SLV_EVT_RESID_ROUND, SLV_EVT_RESID_VALID],
      f.lo + f.wd ≤ 64 ∧ (f.base = SLV_EVT_FIRST_VALID.base ∨ f.base = SLV_EVT_RESID_VALID.base) := by decide
  obtain ⟨hw, hb⟩ := h f hf
  refine ⟨die_width k hw, fun g hg => apart_of_base ?_⟩
  obtain ⟨h1, h2⟩ := slvFlds_evt k hk g hg
  rcases hb with hb | hb
  · rwa [(die_base_inj f SLV_EVT_FIRST_VALID k).2 hb]
  · rwa [(die_base_inj f SLV_EVT_RESID_VALID k).2 hb]

end

theorem endRecorded_beside (s : State) (e : BitVec 1024) (cause iters resid : Nat) :
    Beside (SlvFld (slvDie e)) [.regs] s (endRecorded s e cause iters resid) := by
  unfold endRecorded
  refine .ite (.refl _ _ s) (beside_fsetAll s _ ?_)
  have h := evt_apart (slvDie_lt e)
  simp only [List.forall_mem_cons, List.not_mem_nil, false_implies, implies_true, and_true] at h ⊢
  exact h

/-- The counter and the status bit of a cause. -/
def endCnt (cause : Nat) : Fld := if cause = 0 then SLV_CNT1_DEADLINE_MISSES else if cause ≤ 2 then SLV_CNT1_REFUSED
  else if cause ≤ 6 then SLV_CNT1_SOFT_FAILS else SLV_CNT1_NOT_STARTED
def endSts (cause : Nat) : Fld := if cause = 0 then SLV_STS_DEADLINE_MISS else if cause ≤ 2 then SLV_STS_REFUSED
  else if cause ≤ 6 then SLV_STS_SOFT_FAIL else SLV_STS_NOT_STARTED

theorem endNoted_eq (s : State) (k : Nat) {cause : Nat} (h : cause ≤ 7) :
    endNoted s k cause = (s.fadd ((endCnt cause).die k) 1).setSts (16 + k) ((endSts cause).die k) := by
  unfold endNoted endCnt endSts
  simp only [beq_iff_eq]
  split_ifs with h0 h2 h6 h7
  · rfl
  · rfl
  · rfl
  · rfl
  · omega

theorem endNoted_other (s : State) (k : Nat) {cause : Nat} (h : 7 < cause) : endNoted s k cause = s := by
  unfold endNoted
  simp only [beq_iff_eq]
  rw [if_neg (by omega), if_neg (by omega), if_neg (by omega), if_neg (by omega)]

/-- The counter and the bit of a cause are among those read, and apart from the others of an end. -/
theorem endFlds_facts (cause : Nat) : endCnt cause ∈ slvDieFlds ∧ endSts cause ∈ slvDieFlds ∧ (endSts cause).wd = 1 ∧
    (endCnt cause).base ≠ (endSts cause).base ∧ (endCnt cause).base ≠ SLV_CNT2_BYPASSES.base ∧ endSts cause ≠ SLV_STS_BYPASS_SET ∧
    (endCnt cause).base ≠ SLV_STS_BYPASS_SET.base ∧ (endSts cause).base ≠ SLV_CNT2_BYPASSES.base ∧
    (endCnt cause).base ≠ SLV_CNT3_DATAPATH_FAULTS.base := by
  unfold endCnt endSts
  split_ifs <;> decide

theorem die_ne {f g : Fld} (k : Nat) (h : f.base ≠ g.base) : f.die k ≠ g.die k := fun e =>
  h ((die_base_inj f g k).1 (congrArg Fld.base e))

/-- The status bits of a die differ in their place. -/
theorem die_ne_of_sts {cause k : Nat} : (endSts cause).die k ≠ SLV_STS_BYPASS_SET.die k := by
  intro e
  have hlo := congrArg Fld.lo e
  rw [die_lo, die_lo] at hlo
  revert hlo
  unfold endSts
  split_ifs <;> decide

/-- The module's number is no field of a die. -/
theorem module_ne_die {f : Fld} (h : f ∈ slvDieFlds) {k : Nat} : ¬ HULL_ORCH_MODULE.base = (f.die k).base := by
  have hlow : ∀ f ∈ slvDieFlds, HULL_ORCH_MODULE.base < f.base := by decide
  rw [die_base]
  exact Nat.ne_of_lt ((hlow f h).trans_le (Nat.le_add_right _ _))

end Sys2Proof.Laws
end

section
/-! PROOFS. The end of a solver job, put together (R261 to R266, R269). -/

namespace Sys2Proof.Laws
open Sys2Proof.Machine Sys2Proof.Safety

/-- What a job's end without a publish leaves. -/
structure SlvEnded (f : ImageFile) (j : SlvJob) (cause at_ : Nat) (s t : State) : Prop where
  parts : OnlyParts [.regs, .fifos, .solver, .outbox] s t
  keeps : Keeps s t
  marks : TickMarks s t
  jobs : t.solver.jobs = s.solver.jobs.filter (fun q => q.ent != j.ent)
  carries : ∀ st d, s.slvEnts f j.ent = some (st, d) → t.solver.carries = s.solver.carries ++ [carryOf s f j st d (endDone j cause at_)]
  counted : cause ≤ 7 → Counts ((endCnt cause).die (slvDie j.ent)) 1 s t ∧ t.fbit ((endSts cause).die (slvDie j.ent)) = true
  bypassed : dscState j.prev = 1 → ¬ carryKeeps j →
    Counts (SLV_CNT2_BYPASSES.die (slvDie j.ent)) 1 s t ∧ t.fbit (SLV_STS_BYPASS_SET.die (slvDie j.ent)) = true
  others : 7 < cause → ∀ g, SlvBut (slvDie j.ent) (SLV_CNT2_BYPASSES.die (slvDie j.ent)) (SLV_STS_BYPASS_SET.die (slvDie j.ent)) g →
    t.fget g = s.fget g

section
variable {s : State} {k : Nat} (hk : k < 4) (hi : Inv s)
include hk hi

/-- The BYPASS of a carry is counted, where it sets one. -/
theorem endBypassed_stands (byp : Bool) :
    (byp = true → Counts (SLV_CNT2_BYPASSES.die k) 1 s (endBypassed s k byp) ∧ (endBypassed s k byp).fbit (SLV_STS_BYPASS_SET.die k) = true) ∧
      Beside (SlvBut k (SLV_CNT2_BYPASSES.die k) (SLV_STS_BYPASS_SET.die k)) [.regs, .outbox] s (endBypassed s k byp) := by
  obtain ⟨hc, hb, hbeside⟩ := slv_noted hk hi (mem_slvFlds k (f := SLV_CNT2_BYPASSES) (by decide)) (mem_slvFlds k (f := SLV_STS_BYPASS_SET) (by decide))
    (die_ne k (by decide)) (die_wd _ k) 1 (16 + k)
  unfold endBypassed
  cases byp with
  | true => exact ⟨fun _ => ⟨hc, hb⟩, hbeside⟩
  | false => exact ⟨fun h => (nomatch h), .refl _ _ s⟩

/-- The cause of an end is counted. -/
theorem endNoted_stands (cause : Nat) :
    (cause ≤ 7 → Counts ((endCnt cause).die k) 1 s (endNoted s k cause) ∧ (endNoted s k cause).fbit ((endSts cause).die k) = true) ∧
      Beside (SlvBut k ((endCnt cause).die k) ((endSts cause).die k)) [.regs, .outbox] s (endNoted s k cause) ∧
      (7 < cause → endNoted s k cause = s) := by
  obtain ⟨hcnt, hsts, hwd, hne, -⟩ := endFlds_facts cause
  obtain ⟨hc, hb, hbeside⟩ := slv_noted hk hi (mem_slvFlds k hcnt) (mem_slvFlds k hsts) (die_ne k hne.symm) ((die_wd _ k).trans hwd) 1 (16 + k)
  by_cases h : cause ≤ 7
  · rw [endNoted_eq s k h]
    exact ⟨fun _ => ⟨hc, hb⟩, hbeside, fun h' => absurd h (by omega)⟩
  · rw [endNoted_other s k (by omega)]
    exact ⟨fun h' => absurd h' h, .refl _ _ s, fun _ => rfl⟩

end

/-- A job's end before its count. -/
def endBegun (s : State) (j : SlvJob) (at_ : Nat) : State := endGang (endFreed s j) j.ent (endIters j at_)

theorem endBegun_beside (s : State) (j : SlvJob) (at_ : Nat) : Beside (SlvFld (slvDie j.ent)) [.regs, .solver] s (endBegun s j at_) :=
  ((endFreed_beside s j).mono (by decide) (fun _ => id)).then (crk_beside (slvDie_lt _) _ _ _) (by decide)

theorem endBegun_solver (s : State) (j : SlvJob) (at_ : Nat) :
    (endBegun s j at_).solver = { s.solver with jobs := s.solver.jobs.filter (fun q => q.ent != j.ent) } :=
  Eq.trans ((crk_beside (slvDie_lt j.ent) (gang j.ent) 6 (endIters j at_)).parts .solver (by decide)) rfl

theorem slvEnd_stands {s : State} (hi : Inv s) (f : ImageFile) (j : SlvJob) (cause at_ : Nat) : SlvEnded f j cause at_ s (s.slvEnd f j cause at_) := by
  have hk := slvDie_lt j.ent
  rw [slvEnd_eq]
  have hu := endBegun_beside s j at_
  have hus := endBegun_solver s j at_
  have hcounted : endCounted s j cause at_ = endNoted (endBegun s j at_) (slvDie j.ent) cause := rfl
  rw [hcounted]
  generalize endBegun s j at_ = u at *
  have hiu : Inv u := hu.keeps.inv hi
  obtain ⟨hvc, hv, hvn⟩ := endNoted_stands hk hiu cause
  generalize endNoted u (slvDie j.ent) cause = v at *
  have hiv : Inv v := hv.keeps.inv hiu
  have hw : Beside (SlvFld (slvDie j.ent)) [.solver] v (v.carry f j (endDone j cause at_)).1 :=
    .of_parts (carry_onlyParts v f j _) (carry_keeps v f j _ (.refl v)) (by decide)
  have hwj := carry_jobs v f j (endDone j cause at_)
  have hwb := fun h1 h2 => carry_bypasses_of (s := v) (f := f) (j := j) (done := endDone j cause at_) h1 h2
  have hwc := fun st d h => congrArg (fun x : State => x.solver.carries) (carry_eq (s := v) (f := f) (j := j) (st := st) (d := d) h (endDone j cause at_))
  generalize v.carry f j (endDone j cause at_) = r at *
  have hir : Inv r.1 := hw.keeps.inv hiv
  obtain ⟨hxc, hx⟩ := endBypassed_stands hk hir r.2.1
  generalize endBypassed r.1 (slvDie j.ent) r.2.1 = x at *
  have hix : Inv x := hx.keeps.inv hir
  have hy := endRecorded_beside x j.ent cause (endIters j at_) (endResid j at_)
  generalize endRecorded x j.ent cause (endIters j at_) (endResid j at_) = y at *
  have hiy : Inv y := hy.keeps.inv hix
  have hz := fun l => beside_event y (slvFlds_note (slvDie j.ent) hk) 3 y.evCtx l
  generalize hl : ([slvTensor j.ent * 2 ^ 48 + slvBlock j.ent * 2 ^ 68 + cause * 2 ^ 80 + slvDie j.ent * 2 ^ 84 + endIters j at_ * 2 ^ 88 + endResid j at_ * 2 ^ 96,
       slvJob j.ent * 2 ^ 16 + slvRound j.ent * 2 ^ 28 + r.2.2 * 2 ^ 40 + r.2.1.toNat * 2 ^ 48] : List Nat) = l
  have hz := hz l
  generalize y.event 3 y.evCtx l = t at *
  have hyz : Beside (SlvFld (slvDie j.ent)) [.regs, .fifos, .outbox] x t := (hy.mono (by decide) (fun _ => id)).then hz (by decide)
  have huv : OnlyParts [.regs, .solver, .outbox] s v := (hu.parts.mono (by decide)).then hv.parts (by decide)
  have hrt : OnlyParts [.regs, .fifos, .outbox] r.1 t := (hx.parts.mono (by decide)).then hyz.parts (by decide)
  have hall : OnlyParts [.regs, .fifos, .solver, .outbox] s t := ((huv.mono (by decide)).then hw.parts (by decide)).then hrt (by decide)
  have hvs : v.solver = u.solver := hv.parts .solver (by decide)
  have hts : t.solver = r.1.solver := hrt .solver (by decide)
  obtain ⟨hcm, hsm, -, -, hc2, -, hc3, hs3, -⟩ := endFlds_facts cause
  refine {
    parts := hall, keeps := hu.keeps.trans (hv.keeps.trans (hw.keeps.trans (hx.keeps.trans hyz.keeps)))
    marks := hu.marks.trans (hv.marks.trans (hw.marks.trans (hx.marks.trans hyz.marks)))
    jobs := by rw [hts, hwj, hvs, hus]
    carries := fun st d h => ?_, counted := fun hc => ?_, bypassed := fun h1 h2 => ?_, others := fun hc g hg => ?_ }
  · have hmod : v.fget HULL_ORCH_MODULE = s.fget HULL_ORCH_MODULE :=
      (hv.flds hiu _ ⟨.head _, fun e => absurd (congrArg Fld.base e) ?_, fun e => absurd (congrArg Fld.base e) ?_⟩).trans (hu.flds hi _ (.head _))
    · have hbase : v.writeBase d = s.writeBase d := writeBase_of_job (huv .ccr (by decide)) (huv .job (by decide)) d
      have hcar : carryOf v f j st d (endDone j cause at_) = carryOf s f j st d (endDone j cause at_) := by
        unfold carryOf
        rw [hbase]
      rw [hts, hwc st d ((slvEnts_of_module hmod f j.ent).trans h)]
      change v.solver.carries ++ [carryOf v f j st d (endDone j cause at_)] = _
      rw [hcar, hvs, hus]
    · exact module_ne_die hcm
    · exact module_ne_die hsm
  · obtain ⟨hcount, hshow⟩ := hvc hc
    have hvt {g : Fld} (hg : SlvBut (slvDie j.ent) (SLV_CNT2_BYPASSES.die (slvDie j.ent)) (SLV_STS_BYPASS_SET.die (slvDie j.ent)) g) :
        t.fget g = v.fget g := (hyz.flds hix _ hg.1).trans ((hx.flds hir _ hg).trans (hw.flds hiv _ hg.1))
    refine ⟨?_, (congrArg (fun x => x != 0) (hvt ⟨mem_slvFlds _ hsm, die_ne _ hs3, ?_⟩)).trans hshow⟩
    · unfold Counts at hcount ⊢
      rw [hvt ⟨mem_slvFlds _ hcm, die_ne _ hc2, die_ne _ hc3⟩, hcount, hu.flds hi _ (mem_slvFlds _ hcm)]
    · exact die_ne_of_sts
  · obtain ⟨hcount, hshow⟩ := hxc (hwb h1 h2)
    have hbm : SLV_CNT2_BYPASSES ∈ slvDieFlds := by decide
    have hsm' : SLV_STS_BYPASS_SET ∈ slvDieFlds := by decide
    refine ⟨?_, (congrArg (fun x => x != 0) (hyz.flds hix _ (mem_slvFlds _ hsm'))).trans hshow⟩
    unfold Counts at hcount ⊢
    rw [hyz.flds hix _ (mem_slvFlds _ hbm), hcount, hw.flds hiv _ (mem_slvFlds _ hbm),
      hv.flds hiu _ ⟨mem_slvFlds _ hbm, die_ne _ hc2.symm, die_ne _ hs3.symm⟩, hu.flds hi _ (mem_slvFlds _ hbm)]
  · rw [hvn hc] at hw
    exact (hyz.flds hix _ hg.1).trans ((hx.flds hir _ hg).trans ((hw.flds hiu _ hg.1).trans (hu.flds hi _ hg.1)))

end Sys2Proof.Laws
end

section
/-! PROOFS. What is under way, weighed: each thing that comes about leaves less behind (R27, R28). -/

namespace Sys2Proof.Laws
open Sys2Proof.Machine Sys2Proof.Safety

/-! ### Sums over lists -/

theorem sum_map_filter_add_le {α : Type} {g : α → Nat} {p : α → Bool} {a : α} : ∀ {l : List α}, a ∈ l → p a = false →
    g a + ((l.filter p).map g).sum ≤ (l.map g).sum
  | b :: l, h, hp => by
    have hsub : ((l.filter p).map g).sum ≤ (l.map g).sum := (List.filter_sublist.map g).sum_le_sum (fun _ _ => Nat.zero_le _)
    rcases List.mem_cons.1 h with rfl | h
    · rw [List.filter_cons_of_neg (by simp [hp]), List.map_cons, List.sum_cons]
      omega
    · have ih := sum_map_filter_add_le (g := g) h hp
      rw [List.map_cons, List.sum_cons]
      by_cases hb : p b = true
      · rw [List.filter_cons_of_pos hb, List.map_cons, List.sum_cons]
        omega
      · rw [List.filter_cons_of_neg hb]
        omega

theorem sum_flatMap {α : Type} (g : α → List Nat) : ∀ l : List α, (l.flatMap g).sum = (l.map (fun a => (g a).sum)).sum
  | [] => rfl
  | a :: l => by rw [List.flatMap_cons, List.sum_append_nat, sum_flatMap g l, List.map_cons, List.sum_cons]

theorem sum_map_mono {α : Type} {g h : α → Nat} {l : List α} (hl : ∀ a ∈ l, g a ≤ h a) : (l.map g).sum ≤ (l.map h).sum :=
  List.sum_le_sum hl

theorem sum_map_mono_add {α : Type} {g h : α → Nat} {a : α} {n : Nat} : ∀ {l : List α}, a ∈ l → (∀ b ∈ l, g b ≤ h b) → n + g a ≤ h a →
    n + (l.map g).sum ≤ (l.map h).sum
  | b :: l, hm, hl, ha => by
    rw [List.map_cons, List.map_cons, List.sum_cons, List.sum_cons]
    have hrest := sum_map_mono (l := l) (fun c hc => hl c (.tail _ hc))
    rcases List.mem_cons.1 hm with rfl | hm
    · omega
    · have ih := sum_map_mono_add hm (fun c hc => hl c (.tail _ hc)) ha
      have := hl b (.head _)
      omega

theorem sum_zip_range' (g : Nat × LinkSt → Nat) : ∀ (a n : Nat) (ls : List LinkSt),
    (((range' a n).zip ls).map g).sum = ∑ i ∈ Finset.range (min n ls.length), g (a + i, ls.getD i {})
  | a, 0, ls => by simp [range']
  | a, n + 1, [] => by simp
  | a, n + 1, k :: ls => by
    have ih := sum_zip_range' g (a + 1) n ls
    rw [range', List.zip_cons_cons, List.map_cons, List.sum_cons, ih, List.length_cons, Nat.add_min_add_right, Finset.sum_range_succ']
    simp only [List.getD_cons_succ, List.getD_cons_zero, Nat.add_zero]
    rw [Nat.add_comm]
    refine congrArg (· + _) (Finset.sum_congr rfl (fun i _ => ?_))
    rw [show a + 1 + i = a + (i + 1) by omega]

/-! ### The weight of what is under way -/

/-- The weight of what is due on a link, of what it holds. -/
def linkWeight (w : Nat → Bool → Nat) (s : State) (l : Nat) (k : LinkSt) : Nat :=
  (k.landing.map (fun x => w x.at_ false)).sum + (k.waiting.map (fun x => w (x.sent + s.lnkHop l) true)).sum

/-- Is it something that may bring another about: the end of a solver job its carry, a frame that waits its delivery? -/
def dueHeavy : Due → Bool
  | .slvEnd _ _ | .unanswered _ _ => true
  | _ => false

/-- The weight of what is due of a solver job. -/
def jobWeight (w : Nat → Bool → Nat) (s : State) (j : SlvJob) : Nat := ((s.jobDues j).map (fun d => w d.1 (dueHeavy d.2))).sum

/-- The weight of everything under way. -/
def weight (w : Nat → Bool → Nat) (s : State) : Nat := (s.dues.map (fun d => w d.1 (dueHeavy d.2))).sum

theorem weight_eq (w : Nat → Bool → Nat) (s : State) : weight w s =
    (s.tiles.flights.map (fun f => w (s.flightDue f) false)).sum +
      (s.solver.jobs.map (jobWeight w s)).sum +
      (s.solver.carries.map (fun c => w (s.cycAt c.at_) false)).sum + (s.hub.writes.map (fun x => w x.due false)).sum +
      (∑ l ∈ Finset.range (min 16 s.links.length), linkWeight w s l (s.link l)) +
      (s.run.treeDue.map (fun x => w x.1 false)).sum := by
  have hlink := sum_zip_range' (fun k => linkWeight w s k.1 k.2) 0 16 s.links
  simp only [Nat.zero_add] at hlink
  change _ = _ + _ + _ + _ + ∑ l ∈ Finset.range (min 16 s.links.length), linkWeight w s l (s.links.getD l {}) + _
  rw [← hlink]
  unfold weight State.dues linkWeight jobWeight
  simp only [List.map_append, List.sum_append_nat, List.map_map, List.map_flatMap, Function.comp_def, sum_flatMap, dueHeavy]

/-- What a cycle of something due depends on. -/
structure SameTimes (s t : State) : Prop where
  flight : ∀ f, t.flightDue f = s.flightDue f
  edge : t.job.firstEdge = s.job.firstEdge
  hop : ∀ l < 16, t.lnkHop l = s.lnkHop l

section
variable {s t u : State}

theorem SameTimes.refl (s : State) : SameTimes s s := ⟨fun _ => rfl, rfl, fun _ _ => rfl⟩

theorem SameTimes.trans (h : SameTimes s t) (g : SameTimes t u) : SameTimes s u :=
  ⟨fun f => (g.flight f).trans (h.flight f), g.edge.trans h.edge, fun l hl => (g.hop l hl).trans (h.hop l hl)⟩

theorem SameTimes.of_tiles (h : t.tiles = s.tiles) (hj : t.job.firstEdge = s.job.firstEdge) (hr : SameLinkRegs s t) : SameTimes s t :=
  ⟨flightDue_congr h, hj, fun _ hl => hr.lnkHop hl⟩

theorem SameTimes.cycAt (h : SameTimes s t) (c : Nat) : t.cycAt c = s.cycAt c := by simp only [State.cycAt, h.edge]

theorem SameTimes.jobWeight (h : SameTimes s t) (w : Nat → Bool → Nat) : jobWeight w t = jobWeight w s := by
  funext j
  unfold Laws.jobWeight
  rw [jobDues_congr h.edge]

/-- A link's weight stands where what it holds does. -/
theorem linkWeight_congr (h : SameTimes s t) (w : Nat → Bool → Nat) {l : Nat} (hl : l < 16) {a b : LinkSt} (hlan : b.landing = a.landing)
    (hwait : b.waiting = a.waiting) : linkWeight w t l b = linkWeight w s l a := by
  unfold linkWeight
  rw [hlan, hwait, h.hop l hl]

/-- What the links hold stands. -/
def SameLinks (s t : State) : Prop :=
  t.links.length = s.links.length ∧ ∀ l, (t.link l).landing = (s.link l).landing ∧ (t.link l).waiting = (s.link l).waiting

theorem SameLinks.of_links (h : t.links = s.links) : SameLinks s t :=
  ⟨congrArg List.length h, fun l => by unfold State.link; rw [h]; exact ⟨rfl, rfl⟩⟩

theorem SameLinks.trans (h : SameLinks s t) (g : SameLinks t u) : SameLinks s u :=
  ⟨g.1.trans h.1, fun l => ⟨(g.2 l).1.trans (h.2 l).1, (g.2 l).2.trans (h.2 l).2⟩⟩

theorem SameLinks.weight (h : SameLinks s t) (ht : SameTimes s t) (w : Nat → Bool → Nat) :
    ∑ l ∈ Finset.range (min 16 t.links.length), linkWeight w t l (t.link l) =
      ∑ l ∈ Finset.range (min 16 s.links.length), linkWeight w s l (s.link l) := by
  rw [h.1]
  refine Finset.sum_congr rfl (fun l hl => ?_)
  have hlt := Finset.mem_range.1 hl
  exact linkWeight_congr ht w (by omega) (h.2 l).1 (h.2 l).2

/-- What one link holds changes, and what the others hold stands. -/
theorem links_weight_one (ht : SameTimes s t) (w : Nat → Bool → Nat) (hlen : t.links.length = s.links.length) {l : Nat} (hl : l < 16)
    (hll : l < s.links.length) (hne : ∀ m, m ≠ l → (t.link m).landing = (s.link m).landing ∧ (t.link m).waiting = (s.link m).waiting)
    {x y : Nat} (hone : x + linkWeight w t l (t.link l) ≤ linkWeight w s l (s.link l) + y) :
    x + ∑ l ∈ Finset.range (min 16 t.links.length), linkWeight w t l (t.link l) ≤
      ∑ l ∈ Finset.range (min 16 s.links.length), linkWeight w s l (s.link l) + y := by
  have hm : l ∈ Finset.range (min 16 s.links.length) := Finset.mem_range.2 (by omega)
  rw [hlen, ← Finset.add_sum_erase _ _ hm, ← Finset.add_sum_erase _ _ hm]
  have hrest : ∑ m ∈ (Finset.range (min 16 s.links.length)).erase l, linkWeight w t m (t.link m) =
      ∑ m ∈ (Finset.range (min 16 s.links.length)).erase l, linkWeight w s m (s.link m) := by
    refine Finset.sum_congr rfl (fun m hmem => ?_)
    obtain ⟨hml, hmr⟩ := Finset.mem_erase.1 hmem
    have hlt := Finset.mem_range.1 hmr
    exact linkWeight_congr ht w (by omega) (hne m hml).1 (hne m hml).2
  rw [hrest]
  omega

end

end Sys2Proof.Laws
end

section
/-! PROOFS. What is due, by what is under way, and what a flight, a write and a solver event leave of it (R120, R247, R335). -/

namespace Sys2Proof.Laws
open Sys2Proof.Machine Sys2Proof.Safety

/-! ### Where something due comes from -/

/-- Something due, with what it is of. -/
inductive UnderWay (s : State) : Nat × Due → Prop
  | flight (f : Flight) (h : f ∈ s.tiles.flights) : UnderWay s (s.flightDue f, .flight f)
  | slvEvent (j : SlvJob) (v : SlvEv) (hj : j ∈ s.solver.jobs) (hv : v ∈ j.out.evs) (ht : j.start + v.off ≤ j.deadline) :
    UnderWay s (s.cycAt (j.start + v.off), .slvEvent j.ent v)
  | slvEnd (j : SlvJob) (c : Nat) (hj : j ∈ s.solver.jobs) (hm : (s.cycAt (j.start + j.out.off), Due.slvEnd j c) ∈ s.jobDues j) :
    UnderWay s (s.cycAt (j.start + j.out.off), .slvEnd j c)
  | carry (c : Carry) (h : c ∈ s.solver.carries) : UnderWay s (s.cycAt c.at_, .carry c)
  | write (x : HubWrite) (h : x ∈ s.hub.writes) : UnderWay s (x.due, .write x)
  | flit (l : Nat) (x : FlitDue) (hl : l < 16) (hll : l < s.links.length) (h : x ∈ (s.link l).landing) : UnderWay s (x.at_, .flit l x)
  | unanswered (l : Nat) (x : LinkWait) (hl : l < 16) (hll : l < s.links.length) (h : x ∈ (s.link l).waiting) :
    UnderWay s (x.sent + s.lnkHop l, .unanswered l x)
  | tree (x : Nat × TreeSend) (h : x ∈ s.run.treeDue) : UnderWay s (x.1, .tree x)

theorem mem_zip_links {a n : Nat} {ls : List LinkSt} {k : Nat × LinkSt} (h : k ∈ (range' a n).zip ls) :
    ∃ i, i < n ∧ i < ls.length ∧ k = (a + i, ls.getD i {}) := by
  induction n generalizing a ls with
  | zero => simp [range'] at h
  | succ n ih =>
    cases ls with
    | nil => simp at h
    | cons b ls =>
      rw [range', List.zip_cons_cons] at h
      rcases List.mem_cons.1 h with rfl | h
      · exact ⟨0, by omega, by simp, rfl⟩
      · obtain ⟨i, hi, hl, rfl⟩ := ih h
        exact ⟨i + 1, by omega, by simpa using hl, by rw [List.getD_cons_succ, show a + 1 + i = a + (i + 1) by omega]⟩

theorem underWay_jobDues {s : State} {j : SlvJob} (hj : j ∈ s.solver.jobs) {d : Nat × Due} (h : d ∈ s.jobDues j) : UnderWay s d := by
  have hd := h
  rcases List.mem_append.1 h with h | h
  · obtain ⟨v, hv, rfl⟩ := List.mem_map.1 h
    obtain ⟨hv, ht⟩ := List.mem_filter.1 hv
    exact .slvEvent j v hj hv (of_decide_eq_true ht)
  · split at h
    · split at h
      · obtain rfl := List.mem_singleton.1 h
        exact .slvEnd j _ hj hd
      · exact absurd h List.not_mem_nil
    · exact absurd h List.not_mem_nil

theorem underWay_of_due {s : State} {d : Nat × Due} (h : d ∈ s.dues) : UnderWay s d := by
  change d ∈ _ ++ _ ++ _ ++ _ ++ linkDues s ++ _ at h
  simp only [List.mem_append] at h
  rcases h with ((((h | h) | h) | h) | h) | h
  · obtain ⟨f, hf, rfl⟩ := List.mem_map.1 h
    exact .flight f hf
  · obtain ⟨j, hj, h⟩ := List.mem_flatMap.1 h
    exact underWay_jobDues hj h
  · obtain ⟨c, hc, rfl⟩ := List.mem_map.1 h
    exact .carry c hc
  · obtain ⟨x, hx, rfl⟩ := List.mem_map.1 h
    exact .write x hx
  · obtain ⟨k, hk, h⟩ := List.mem_flatMap.1 h
    obtain ⟨i, hi, hl, rfl⟩ := mem_zip_links hk
    rw [Nat.zero_add] at h
    rcases List.mem_append.1 h with h | h
    · obtain ⟨x, hx, rfl⟩ := List.mem_map.1 h
      exact .flit i x hi hl hx
    · obtain ⟨x, hx, rfl⟩ := List.mem_map.1 h
      exact .unanswered i x hi hl hx
  · obtain ⟨x, hx, rfl⟩ := List.mem_map.1 h
    exact .tree x hx

/-! ### What comes about -/

theorem weight_land (w : Nat → Bool → Nat) {s : State} {f : Flight} (h : f ∈ s.tiles.flights) :
    w (s.flightDue f) false + weight w (s.land f) ≤ weight w s := by
  have hl := lands_land s f
  have hoff : OnlyParts [.tiles] s (offAir s f) := withTiles_onlyParts s _
  have hregs : SameLinkRegs s (s.land f) := hl.regs.linkRegs (hl.parts .edgeAt (by decide))
  have hjob : (s.land f).job = s.job := hl.parts .job (by decide)
  have hsol : (s.land f).solver = s.solver := hl.parts .solver (by decide)
  have hhub : (s.land f).hub = s.hub := hl.parts .hub (by decide)
  have ht : SameTimes s (s.land f) := by
    refine ⟨fun g => ?_, by rw [hjob], fun _ hm => hregs.lnkHop hm⟩
    have htag : ∀ n l x, (s.land f).opTagAt n l x = s.opTagAt n l x := opTagAt_congr (by rw [hl.lines]; rfl) (by rw [hl.opTag]; rfl)
    simp only [State.flightDue, State.mismatchAt, htag]
  have hfl : (s.land f).tiles.flights = s.tiles.flights.filter (fun q => q != f) := hl.flights
  have htree : (s.land f).run.treeDue = s.run.treeDue := hl.tree
  rw [weight_eq, weight_eq w s, hfl, hsol, hhub, htree, (SameLinks.of_links (s := s) (hl.parts .links (by decide))).weight ht]
  simp only [ht.flight, ht.jobWeight, ht.cycAt]
  have := sum_map_filter_add_le (g := fun f => w (s.flightDue f) false) (p := fun q => q != f) h (by simp)
  omega

theorem weight_landWrite (w : Nat → Bool → Nat) {s : State} {x : HubWrite} (h : x ∈ s.hub.writes) :
    w x.due false + weight w (s.landWrite x) ≤ weight w s := by
  have hp := landWrite_onlyParts s x
  have hregs : SameLinkRegs s (s.landWrite x) :=
    ⟨hp .edgeAt (by decide), fun k hk => hubStore_regs (landed s x) _ _ _ k (poisonKey_linkKeys k hk)⟩
  have hjob : (s.landWrite x).job = s.job := hp .job (by decide)
  have hsol : (s.landWrite x).solver = s.solver := hp .solver (by decide)
  have htil : (s.landWrite x).tiles = s.tiles := hp .tiles (by decide)
  have hrun : (s.landWrite x).run = s.run := hp .run (by decide)
  have ht : SameTimes s (s.landWrite x) := .of_tiles htil (by rw [hjob]) hregs
  rw [weight_eq, weight_eq w s, landWrite_writes, hsol, htil, hrun, (SameLinks.of_links (hp .links (by decide))).weight ht]
  simp only [ht.flight, ht.jobWeight, ht.cycAt]
  have := sum_map_filter_add_le (g := fun x => w x.due false) (p := fun q => q != x) h (by simp)
  omega

/-! ### The registers of the solver dies -/

/-- The registers of solver dies, tiles and compute dies, and those of notes. -/
def slvKey (k : Nat) : Prop := 0x10000000 ≤ k ∨ k ∈ noteRegs

theorem slvKey_linkKeys : ∀ k ∈ linkKeys, ¬ slvKey k := by
  have h : ∀ k ∈ linkKeys, k < 0x10000000 ∧ k ∉ noteRegs := by decide
  rintro k hk (h1 | h1)
  · have := (h k hk).1
    omega
  · exact (h k hk).2 h1

theorem slvKey_die {f : Fld} (k : Nat) (h : 0x10000000 ≤ f.base) : slvKey (f.die k).base := by
  rw [die_base]
  exact .inl (by omega)

theorem slvKey_crk {f : Fld} (k c : Nat) (h : 0x10000000 ≤ f.base) : slvKey ((f.die k).ix c).base := by
  have e : ((f.die k).ix c).base = (f.die k).base + c * (f.die k).stride := rfl
  rw [e, die_base]
  exact .inl (by omega)

section
variable {s : State}

theorem slvWithin_fset (f : Fld) (x : Nat) (h : slvKey f.base) : RegsWithin slvKey s (s.fset f x) :=
  .of_only (only_fset (ks := [f.base]) s f x (.head _)) (by simpa using h)

theorem slvWithin_fadd (f : Fld) (n : Nat) (h : slvKey f.base) : RegsWithin slvKey s (s.fadd f n) :=
  .of_only (only_fadd (ks := [f.base]) s f n (.head _)) (by simpa using h)

theorem slvWithin_noted (f g : Fld) (n p : Nat) (hf : slvKey f.base) (hg : slvKey g.base) : RegsWithin slvKey s ((s.fadd f n).setSts p g) :=
  (slvWithin_fadd f n hf).trans (.of_only (only_setSts (ks := [g.base]) _ p g (.head _)) (by simpa using hg))

theorem slvWithin_fsetAll : ∀ (l : List (Fld × Nat)) (s : State), (∀ q ∈ l, slvKey q.1.base) → RegsWithin slvKey s (s.fsetAll l)
  | [], s, _ => .refl _ s
  | q :: l, s, h => (slvWithin_fset q.1 q.2 (h q (.head _))).trans (slvWithin_fsetAll l _ (fun r hr => h r (.tail _ hr)))

theorem slvWithin_foldl {α : Type} {g : State → α → State} (h : ∀ v a, RegsWithin slvKey v (g v a)) (l : List α) (s : State) :
    RegsWithin slvKey s (l.foldl g s) :=
  foldl_keeps_rel (RegsWithin.refl slvKey) (fun _ _ _ => RegsWithin.trans) (fun v a _ => h v a) s

theorem RegsWithin.slvLinks {t : State} (h : RegsWithin slvKey s t) (he : t.edgeAt = s.edgeAt) : SameLinkRegs s t :=
  ⟨he, fun k hk => h k (slvKey_linkKeys k hk)⟩

end

/-! ### An event within a solver job -/

theorem slvEvent_onlyParts (s : State) (e : BitVec 1024) (v : SlvEv) : OnlyParts [.regs, .outbox] s (s.slvEvent e v) := by
  have hn : ∀ (f g : Fld) (n p : Nat), OnlyParts [.regs, .outbox] s ((s.fadd f n).setSts p g) := fun f g n p =>
    ((fadd_onlyParts s f n).mono (by decide)).then (setSts_onlyParts _ p g) (by decide)
  unfold State.slvEvent
  dsimp only
  split
  · exact hn _ _ _ _
  · split
    · split
      · exact (hn _ _ _ _).then (fsetAll_onlyParts _ _) (by decide)
      · exact ((hn _ _ _ _).then (fadd_onlyParts _ _ _) (by decide)).then (setSts_onlyParts _ _ _) (by decide)
    · exact (fadd_onlyParts s _ _).mono (by decide)

theorem slvEvent_regs (s : State) (e : BitVec 1024) (v : SlvEv) : RegsWithin slvKey s (s.slvEvent e v) := by
  unfold State.slvEvent
  dsimp only
  have hd := fun (f : Fld) (h : 0x10000000 ≤ f.base) => slvKey_die (f := f) (slvDie e) h
  split
  · exact slvWithin_noted _ _ _ _ (hd _ (by decide)) (hd _ (by decide))
  · split
    · split
      · refine (slvWithin_noted _ _ _ _ (hd _ (by decide)) (hd _ (by decide))).trans (slvWithin_fsetAll _ _ ?_)
        simp only [List.forall_mem_cons, List.not_mem_nil, false_implies, implies_true, and_true]
        exact ⟨slvKey_crk _ _ (by decide), slvKey_crk _ _ (by decide), slvKey_crk _ _ (by decide), slvKey_crk _ _ (by decide),
          slvKey_crk _ _ (by decide), slvKey_crk _ _ (by decide), slvKey_crk _ _ (by decide), hd _ (by decide)⟩
      · exact (slvWithin_noted _ _ _ _ (hd _ (by decide)) (hd _ (by decide))).trans
          (slvWithin_noted _ _ _ _ (hd _ (by decide)) (hd _ (by decide)))
    · exact slvWithin_fadd _ _ (hd _ (by decide))

/-- The event leaves the jobs of its entry. -/
def evTaken (s : State) (e : BitVec 1024) (v : SlvEv) : State := s.withSolver (fun x => { x with jobs := x.jobs.map (fun j =>
  if j.ent == e then { j with out := { j.out with evs := j.out.evs.erase v } } else j) })

/-- The weight of a job's end without a publish. -/
def endWeight (w : Nat → Bool → Nat) (s : State) (j : SlvJob) : Nat :=
  match j.out.cause with
  | some _ => if j.start + j.out.off ≤ j.deadline then w (s.cycAt (j.start + j.out.off)) true else 0
  | none => 0

theorem jobWeight_eq (w : Nat → Bool → Nat) (s : State) (j : SlvJob) : jobWeight w s j =
    ((j.out.evs.filter (fun v => decide (j.start + v.off ≤ j.deadline))).map (fun v => w (s.cycAt (j.start + v.off)) false)).sum +
      endWeight w s j := by
  unfold jobWeight State.jobDues endWeight
  rw [List.map_append, List.sum_append_nat, List.map_map]
  refine congrArg (_ + ·) ?_
  cases j.out.cause with
  | none => rfl
  | some c =>
    by_cases h : j.start + j.out.off ≤ j.deadline
    · simp only [if_pos h]
      rfl
    · simp only [if_neg h]
      rfl

/-- A job without one of its events. -/
def evErased (j : SlvJob) (v : SlvEv) : SlvJob := { j with out := { j.out with evs := j.out.evs.erase v } }

theorem endWeight_evErased (w : Nat → Bool → Nat) (s : State) (j : SlvJob) (v : SlvEv) : endWeight w s (evErased j v) = endWeight w s j := rfl

theorem jobWeight_evErased_le (w : Nat → Bool → Nat) (s : State) (j : SlvJob) (v : SlvEv) : jobWeight w s (evErased j v) ≤ jobWeight w s j := by
  rw [jobWeight_eq, jobWeight_eq w s j, endWeight_evErased]
  exact Nat.add_le_add_right (((List.erase_sublist.filter _).map _).sum_le_sum (fun _ _ => Nat.zero_le _)) _

theorem jobWeight_evErased_add (w : Nat → Bool → Nat) (s : State) {j : SlvJob} {v : SlvEv} (hv : v ∈ j.out.evs) (ht : j.start + v.off ≤ j.deadline) :
    w (s.cycAt (j.start + v.off)) false + jobWeight w s (evErased j v) ≤ jobWeight w s j := by
  rw [jobWeight_eq, jobWeight_eq w s j, endWeight_evErased]
  have hp := ((((List.perm_cons_erase hv).filter (fun v => decide (j.start + v.off ≤ j.deadline))).map
    (fun v => w (s.cycAt (j.start + v.off)) false)).sum_eq)
  rw [List.filter_cons_of_pos (by simpa using ht), List.map_cons, List.sum_cons] at hp
  rw [hp, Nat.add_assoc]
  exact Nat.le_refl _

theorem weight_slvNext (w : Nat → Bool → Nat) {s : State} {j : SlvJob} {v : SlvEv} (hj : j ∈ s.solver.jobs) (hv : v ∈ j.out.evs)
    (hd : j.start + v.off ≤ j.deadline) :
    w (s.cycAt (j.start + v.off)) false + weight w (s.slvNext j.ent v) ≤ weight w s := by
  have hp := slvEvent_onlyParts (evTaken s j.ent v) j.ent v
  have hregs : SameLinkRegs s (s.slvNext j.ent v) := (slvEvent_regs (evTaken s j.ent v) j.ent v).slvLinks (hp .edgeAt (by decide))
  have htil : (s.slvNext j.ent v).tiles = s.tiles := hp .tiles (by decide)
  have hjob : (s.slvNext j.ent v).job = s.job := hp .job (by decide)
  have hrun : (s.slvNext j.ent v).run = s.run := hp .run (by decide)
  have hhub : (s.slvNext j.ent v).hub = s.hub := hp .hub (by decide)
  have hsol : (s.slvNext j.ent v).solver = (evTaken s j.ent v).solver := hp .solver (by decide)
  have hlinks : (s.slvNext j.ent v).links = s.links := hp .links (by decide)
  generalize s.slvNext j.ent v = t at *
  have ht : SameTimes s t := .of_tiles htil (by rw [hjob]) hregs
  rw [weight_eq, weight_eq w s, htil, hrun, hhub, hsol, (SameLinks.of_links hlinks).weight ht]
  simp only [ht.flight, ht.cycAt, ht.jobWeight]
  have hjobs : (evTaken s j.ent v).solver.jobs = s.solver.jobs.map (fun q =>
    if q.ent == j.ent then evErased q v else q) := rfl
  have hcar : (evTaken s j.ent v).solver.carries = s.solver.carries := rfl
  rw [hjobs, hcar, List.map_map]
  have hle := sum_map_mono_add (n := w (s.cycAt (j.start + v.off)) false) (l := s.solver.jobs)
    (g := (jobWeight w s) ∘ (fun q : SlvJob =>
      if q.ent == j.ent then evErased q v else q))
    (h := jobWeight w s) hj (fun q _ => ?_) ?_
  · omega
  · simp only [Function.comp_apply]
    split
    · exact jobWeight_evErased_le w s q v
    · exact Nat.le_refl _
  · simp only [Function.comp_apply, beq_self_eq_true, if_true]
    exact jobWeight_evErased_add w s hv hd

end Sys2Proof.Laws
end

section
/-! PROOFS. What a carry and the end of a solver job leave of what is under way (R261 to R266). -/

namespace Sys2Proof.Laws
open Sys2Proof.Machine Sys2Proof.Safety

/-! ### A carry that completes -/

theorem slvKey_raised (die : Nat) : slvKey (FAULT_CNT_C_RAISED.pageOf (16 + die)).base := by
  unfold Fld.pageOf
  split
  · rw [die_base]
    have : FAULT_CNT_C_RAISED.base = 0x3FF010 := rfl
    exact .inl (by omega)
  · refine .inl ?_
    change 0x10000000 ≤ FAULT_CNT_C_RAISED.base - 0x3C0000 + 0x14100000 + _ + _
    omega

theorem staleCheck_regs (s : State) (die stale limit : Nat) : RegsWithin slvKey s (s.staleCheck die stale limit) := by
  unfold State.staleCheck
  refine .ite ((slvWithin_fadd _ _ (slvKey_die die (by decide))).trans (.of_only (only_classC
    (ks := (SLV_STS_STALE_LIMIT.die die).base :: (FAULT_CNT_C_RAISED.pageOf (16 + die)).base :: noteRegs) _ _ _
    (fun _ h => .tail _ (.tail _ h)) (.head _) (.tail _ (.head _))) ?_)) (.refl _ s)
  simp only [List.forall_mem_cons]
  exact ⟨slvKey_die die (by decide), slvKey_raised die, fun k hk => .inr hk⟩

theorem staleCheck_onlyParts (s : State) (die stale limit : Nat) :
    OnlyParts [.regs, .run, .attend, .fifos, .cap, .outbox] s (s.staleCheck die stale limit) := by
  unfold State.staleCheck
  split
  · exact ((fadd_onlyParts s _ _).mono (by decide)).then (classC_onlyParts _ _ _) (by decide)
  · exact .refl _ s

theorem staleCheck_tree (s : State) (die stale limit : Nat) : (s.staleCheck die stale limit).run.treeDue = s.run.treeDue := by
  unfold State.staleCheck
  split
  · have hf : (s.fadd (SLV_CNT3_STALE_LIMITS.die die) 1).run = s.run := fadd_onlyParts s _ _ .run (by decide)
    rw [classC_run, hf]
    split <;> rfl
  · rfl

/-- The carry leaves what is under way. -/
def carryTaken (s : State) (c : Carry) : State := s.withSolver (fun x => { x with carries := x.carries.filter (fun q => q != c) })

/-- Its descriptor is written. -/
def carryWritten (s : State) (c : Carry) : State := (carryTaken s c).wrN c.addr 64 c.desc.toNat

theorem landCarry_eq (s : State) (c : Carry) : s.landCarry c = (range' c.c0 c.gang).foldl (fun s k =>
    s.fset ((SLV_CRK_STAGE.die c.die).ix k) 0) ((carryWritten s c).staleCheck c.die (dscStale c.desc) c.limit) := rfl

theorem carryWritten_onlyParts (s : State) (c : Carry) : OnlyParts [.mem, .solver] s (carryWritten s c) :=
  ((withSolver_onlyParts s _).mono (by decide)).then (wrN_onlyParts (carryTaken s c) _ _ _) (by decide)

theorem carryWritten_solver (s : State) (c : Carry) :
    (carryWritten s c).solver = { s.solver with carries := s.solver.carries.filter (fun q => q != c) } := by
  have h : (carryWritten s c).solver = (carryTaken s c).solver := by
    unfold carryWritten
    generalize carryTaken s c = u
    exact wrN_onlyParts u _ _ _ .solver (by decide)
  exact h.trans rfl

/-- The gang of a carry is idle. -/
theorem gangIdle_onlyParts (k : Nat) (l : List Nat) (s : State) :
    OnlyParts [.regs] s (l.foldl (fun s c => s.fset ((SLV_CRK_STAGE.die k).ix c) 0) s) :=
  foldl_keeps_rel (OnlyParts.refl _) (fun _ _ _ => OnlyParts.trans) (fun v _ _ => fset_onlyParts v _ _) s

theorem landCarry_onlyParts (s : State) (c : Carry) :
    OnlyParts [.regs, .mem, .run, .attend, .fifos, .cap, .solver, .outbox] s (s.landCarry c) :=
  (((carryWritten_onlyParts s c).mono (by decide)).then (staleCheck_onlyParts _ _ _ _) (by decide)).then (gangIdle_onlyParts _ _ _) (by decide)

theorem landCarry_solver (s : State) (c : Carry) :
    (s.landCarry c).solver = { s.solver with carries := s.solver.carries.filter (fun q => q != c) } := by
  rw [landCarry_eq, gangIdle_onlyParts _ _ _ .solver (by decide), staleCheck_onlyParts _ _ _ _ .solver (by decide), carryWritten_solver]

theorem landCarry_tree (s : State) (c : Carry) : (s.landCarry c).run.treeDue = s.run.treeDue := by
  rw [landCarry_eq, gangIdle_onlyParts _ _ _ .run (by decide), staleCheck_tree, carryWritten_onlyParts _ _ .run (by decide)]

theorem landCarry_regs (s : State) (c : Carry) : RegsWithin slvKey s (s.landCarry c) := by
  rw [landCarry_eq]
  refine (RegsWithin.of_parts (carryWritten_onlyParts s c) (by decide)).trans ((staleCheck_regs _ c.die (dscStale c.desc) c.limit).trans ?_)
  exact slvWithin_foldl (fun v k => slvWithin_fset _ _ (slvKey_crk c.die k (by decide))) _ _

/-- Only the solver's own changes of what is under way. -/
theorem weight_of_solver (w : Nat → Bool → Nat) {s t : State} {ps : List Part} (hp : OnlyParts ps s t)
    (hps : ps ⊆ [.now, .regs, .mem, .run, .attend, .fifos, .cap, .solver, .outbox]) (htree : t.run.treeDue = s.run.treeDue)
    (hregs : RegsWithin slvKey s t) {d x : Nat}
    (hsol : d + ((t.solver.jobs.map (jobWeight w s)).sum + (t.solver.carries.map (fun c => w (s.cycAt c.at_) false)).sum) ≤
      (s.solver.jobs.map (jobWeight w s)).sum + (s.solver.carries.map (fun c => w (s.cycAt c.at_) false)).sum + x) :
    d + weight w t ≤ weight w s + x := by
  have hp' := hp.mono hps
  have hjob : t.job = s.job := hp' .job (by decide)
  have htil : t.tiles = s.tiles := hp' .tiles (by decide)
  have hhub : t.hub = s.hub := hp' .hub (by decide)
  have ht : SameTimes s t := .of_tiles htil (by rw [hjob]) (hregs.slvLinks (hp' .edgeAt (by decide)))
  rw [weight_eq, weight_eq w s, htil, hhub, htree, (SameLinks.of_links (s := s) (hp' .links (by decide))).weight ht]
  simp only [ht.flight, ht.jobWeight, ht.cycAt]
  omega

theorem weight_landCarry (w : Nat → Bool → Nat) {s : State} {c : Carry} (h : c ∈ s.solver.carries) :
    w (s.cycAt c.at_) false + weight w (s.landCarry c) ≤ weight w s := by
  refine weight_of_solver w (x := 0) (landCarry_onlyParts s c) (by decide) (landCarry_tree s c) (landCarry_regs s c) ?_
  rw [show (s.landCarry c).solver.jobs = s.solver.jobs by rw [landCarry_solver],
    show (s.landCarry c).solver.carries = s.solver.carries.filter (fun q => q != c) by rw [landCarry_solver]]
  have := sum_map_filter_add_le (g := fun c => w (s.cycAt c.at_) false) (p := fun q => q != c) h (by simp)
  omega

/-! ### A job's end -/

theorem endBegun_onlyParts (s : State) (j : SlvJob) (at_ : Nat) : OnlyParts [.regs, .solver] s (endBegun s j at_) :=
  (endBegun_beside s j at_).parts

theorem endNoted_onlyParts (s : State) (k cause : Nat) : OnlyParts [.regs, .outbox] s (endNoted s k cause) := by
  by_cases h : cause ≤ 7
  · rw [endNoted_eq s k h]
    exact ((fadd_onlyParts s _ 1).mono (by decide)).then (setSts_onlyParts _ _ _) (by decide)
  · rw [endNoted_other s k (by omega)]
    exact .refl _ s

theorem endBypassed_onlyParts (s : State) (k : Nat) (b : Bool) : OnlyParts [.regs, .outbox] s (endBypassed s k b) := by
  unfold endBypassed
  split
  · exact ((fadd_onlyParts s _ 1).mono (by decide)).then (setSts_onlyParts _ _ _) (by decide)
  · exact .refl _ s

/-- What follows the carry of a job's end. -/
theorem slvEnd_after (s : State) (f : ImageFile) (j : SlvJob) (cause at_ : Nat) :
    OnlyParts [.regs, .fifos, .outbox] ((endCounted s j cause at_).carry f j (endDone j cause at_)).1 (s.slvEnd f j cause at_) := by
  rw [slvEnd_eq]
  exact (((endBypassed_onlyParts _ _ _).mono (by decide)).then (endRecorded_beside _ _ _ _ _).parts (by decide)).then (event_onlyParts _ _ _ _)
    (by decide)

theorem endCounted_solver (s : State) (j : SlvJob) (cause at_ : Nat) :
    (endCounted s j cause at_).solver = { s.solver with jobs := s.solver.jobs.filter (fun q => q.ent != j.ent) } :=
  Eq.trans (endNoted_onlyParts (endBegun s j at_) (slvDie j.ent) cause .solver (by decide)) (endBegun_solver s j at_)

theorem endCounted_onlyParts (s : State) (j : SlvJob) (cause at_ : Nat) : OnlyParts [.regs, .solver, .outbox] s (endCounted s j cause at_) :=
  ((endBegun_onlyParts s j at_).mono (by decide)).then (endNoted_onlyParts _ _ _) (by decide)

theorem slvEnd_onlyParts (s : State) (f : ImageFile) (j : SlvJob) (cause at_ : Nat) :
    OnlyParts [.regs, .fifos, .solver, .outbox] s (s.slvEnd f j cause at_) :=
  (((endCounted_onlyParts s j cause at_).mono (by decide)).then (carry_onlyParts _ f j _) (by decide)).then (slvEnd_after s f j cause at_) (by decide)

/-- The jobs lose those of the entry, and the carries may gain one that completes on the job's scyc. -/
theorem slvEnd_solver (s : State) (f : ImageFile) (j : SlvJob) (cause at_ : Nat) :
    (s.slvEnd f j cause at_).solver.jobs = s.solver.jobs.filter (fun q => q.ent != j.ent) ∧
      ((s.slvEnd f j cause at_).solver.carries = s.solver.carries ∨
        ∃ c : Carry, c.at_ = endDone j cause at_ ∧ (s.slvEnd f j cause at_).solver.carries = s.solver.carries ++ [c]) := by
  have hafter : (s.slvEnd f j cause at_).solver = ((endCounted s j cause at_).carry f j (endDone j cause at_)).1.solver :=
    slvEnd_after s f j cause at_ .solver (by decide)
  rw [hafter, carry_jobs, endCounted_solver]
  refine ⟨rfl, ?_⟩
  have hsol := endCounted_solver s j cause at_
  generalize endCounted s j cause at_ = u at *
  cases h : u.slvEnts f j.ent with
  | none =>
    refine .inl ?_
    have he : (u.carry f j (endDone j cause at_)).1 = u := by
      unfold State.carry
      dsimp only
      rw [h]
    rw [he, hsol]
  | some p =>
    refine .inr ⟨carryOf u f j p.1 p.2 (endDone j cause at_), rfl, ?_⟩
    rw [carry_eq (st := p.1) (d := p.2) h]
    change u.solver.carries ++ _ = _
    rw [hsol]

theorem slvWithin_endNoted (s : State) (k cause : Nat) : RegsWithin slvKey s (endNoted s k cause) := by
  by_cases h : cause ≤ 7
  · rw [endNoted_eq s k h]
    have hb : 0x10000000 ≤ (endCnt cause).base ∧ 0x10000000 ≤ (endSts cause).base := by
      unfold endCnt endSts
      split_ifs <;> decide
    exact slvWithin_noted _ _ _ _ (slvKey_die k hb.1) (slvKey_die k hb.2)
  · rw [endNoted_other s k (by omega)]
    exact .refl _ s

theorem slvEnd_regs (s : State) (f : ImageFile) (j : SlvJob) (cause at_ : Nat) : RegsWithin slvKey s (s.slvEnd f j cause at_) := by
  have hgang : RegsWithin slvKey s (endBegun s j at_) := by
    refine (RegsWithin.of_parts (t := endFreed s j) (withSolver_onlyParts s _) (by decide)).trans (slvWithin_foldl (fun v c => slvWithin_fsetAll _ _ ?_) _ _)
    simp only [List.forall_mem_cons, List.not_mem_nil, false_implies, implies_true, and_true]
    exact ⟨slvKey_crk _ c (by decide), slvKey_crk _ c (by decide)⟩
  have hcounted : RegsWithin slvKey s (endCounted s j cause at_) := hgang.trans (slvWithin_endNoted _ _ _)
  rw [slvEnd_eq]
  refine hcounted.trans ((RegsWithin.of_parts (carry_onlyParts _ f j (endDone j cause at_)) (by decide)).trans ?_)
  generalize (endCounted s j cause at_).carry f j (endDone j cause at_) = r
  have hbyp : RegsWithin slvKey r.1 (endBypassed r.1 (slvDie j.ent) r.2.1) := by
    unfold endBypassed
    exact .ite (slvWithin_noted _ _ _ _ (slvKey_die _ (by decide)) (slvKey_die _ (by decide))) (.refl _ _)
  generalize endBypassed r.1 (slvDie j.ent) r.2.1 = x at *
  have hrec : RegsWithin slvKey x (endRecorded x j.ent cause (endIters j at_) (endResid j at_)) := by
    unfold endRecorded
    have hd := fun (f : Fld) (h : 0x10000000 ≤ f.base) => slvKey_die (f := f) (slvDie j.ent) h
    refine .ite (.refl _ x) (slvWithin_fsetAll _ _ ?_)
    simp only [List.forall_mem_cons, List.not_mem_nil, false_implies, implies_true, and_true]
    exact ⟨hd _ (by decide), hd _ (by decide), hd _ (by decide), hd _ (by decide), hd _ (by decide), hd _ (by decide), hd _ (by decide),
      hd _ (by decide), hd _ (by decide), hd _ (by decide), hd _ (by decide)⟩
  exact hbyp.trans (hrec.trans (.of_only (only_event (ks := noteRegs) _ _ _ _ (fun _ h => h)) (fun k hk => .inr hk)))

/-- The weight of a job that ends holds that of its end. -/
theorem endWeight_le (w : Nat → Bool → Nat) (s : State) {j : SlvJob} {c : Nat} (h : (s.cycAt (j.start + j.out.off), Due.slvEnd j c) ∈ s.jobDues j) :
    w (s.cycAt (j.start + j.out.off)) true ≤ jobWeight w s j :=
  List.single_le_sum (fun _ _ => Nat.zero_le _) _ (List.mem_map.2 ⟨_, h, rfl⟩)

/-- The jobs of an entry leave, one of them with its end. -/
theorem jobsLeft_weight (w : Nat → Bool → Nat) {s : State} {j : SlvJob} {c : Nat} (hj : j ∈ s.solver.jobs)
    (h : (s.cycAt (j.start + j.out.off), Due.slvEnd j c) ∈ s.jobDues j) :
    w (s.cycAt (j.start + j.out.off)) true + ((s.solver.jobs.filter (fun q => q.ent != j.ent)).map (jobWeight w s)).sum ≤
      (s.solver.jobs.map (jobWeight w s)).sum := by
  have hsum := sum_map_filter_add_le (g := jobWeight w s) (p := fun q => q.ent != j.ent) hj (by simp)
  have hend := endWeight_le w s h
  omega

/-- A job's end may leave a carry, on the scyc of the job whose end it is. -/
theorem weight_slvEnd {s : State} (f : ImageFile) {j q : SlvJob} {c : Nat} (hj : j ∈ s.solver.jobs) (hq : q.ent = j.ent)
    (h : (s.cycAt (j.start + j.out.off), Due.slvEnd j c) ∈ s.jobDues j) (at_ : Nat) (w : Nat → Bool → Nat) :
    w (s.cycAt (j.start + j.out.off)) true + weight w (s.slvEnd f q c at_) ≤ weight w s + w (s.cycAt (endDone q c at_)) false := by
  have hp := slvEnd_onlyParts s f q c at_
  refine weight_of_solver w hp (by decide) (congrArg (·.treeDue) (hp .run (by decide))) (slvEnd_regs s f q c at_) ?_
  obtain ⟨hjobs, hcar⟩ := slvEnd_solver s f q c at_
  rw [hjobs, hq]
  have hleft := jobsLeft_weight w hj h
  rcases hcar with hcar | ⟨k, hk, hcar⟩
  · rw [hcar]
    omega
  · rw [hcar, List.map_append, List.sum_append_nat, List.map_singleton, List.sum_singleton, hk]
    omega

/-- A job whose record is gone leaves without a carry. -/
theorem weight_endFreed (w : Nat → Bool → Nat) {s : State} {j : SlvJob} {c : Nat} (hj : j ∈ s.solver.jobs)
    (h : (s.cycAt (j.start + j.out.off), Due.slvEnd j c) ∈ s.jobDues j) :
    w (s.cycAt (j.start + j.out.off)) true + weight w (endFreed s j) ≤ weight w s := by
  have hp : OnlyParts [.solver] s (endFreed s j) := withSolver_onlyParts s _
  refine weight_of_solver w (x := 0) hp (by decide) rfl (.of_parts hp (by decide)) ?_
  have hleft := jobsLeft_weight w hj h
  change _ + (((s.solver.jobs.filter (fun q => q.ent != j.ent)).map (jobWeight w s)).sum + (s.solver.carries.map _).sum) ≤ _
  omega

end Sys2Proof.Laws
end

section
/-! PROOFS. What a frame on its delivery cycle and a frame on the tree leave of what is under way (R372, R374, R392). -/

namespace Sys2Proof.Laws
open Sys2Proof.Machine Sys2Proof.Safety

/-! ### The number of links stands -/

theorem linkSend_length (s : State) (l c kind flit : Nat) : (s.linkSend l c kind flit).links.length = s.links.length := by
  unfold State.linkSend
  dsimp only
  rw [putFrame_links]
  simp only [State.withLink, modAt_length]

theorem sendFrames_length (c kind flit : Nat) : ∀ (links : List Nat) (s : State), (s.sendFrames links c kind flit).links.length = s.links.length
  | [], _ => rfl
  | l :: links, s => (sendFrames_length c kind flit links _).trans (linkSend_length s l c kind flit)

theorem useFlit_length (s : State) (use : FlitUse) (flit : Nat) : (s.useFlit use flit).links.length = s.links.length := by
  cases use with
  | port => rfl
  | gather a => exact congrArg List.length (wrGranule_onlyParts s a _ .links (by decide))
  | onward l => exact modAt_length _ _ _
  | count => rfl
  | total => exact sendFrames_length _ _ _ _ s
  | checksum tensor c a owner =>
    have hbad : s.checksumBad.links = s.links := (checksumBad_beside s).parts .links (by decide)
    unfold State.useFlit
    dsimp only
    split
    next =>
      split
      next => split <;> [exact congrArg List.length hbad; rfl]
      next => rfl
    next => rfl

theorem landFlit_length (s : State) {l : Nat} (hl : l < 16) (x : FlitDue) : (s.landFlit l x).links.length = s.links.length := by
  have htaken : (flitTaken s l x).links.length = s.links.length := modAt_length _ _ _
  rw [landFlit_eq s hl]
  split
  · exact (useFlit_length _ _ _).trans htaken
  · exact htaken

/-! ### One link's part of what is under way -/

theorem link_changed (s : State) {l : Nat} (hll : l < s.links.length) (f : LinkSt → LinkSt) : (s.withLink l f).link l = f (s.link l) :=
  getD_modAt_same f {} l s.links hll

/-- Only what one link holds has changed of what is under way. -/
theorem weight_of_link (w : Nat → Bool → Nat) {s t : State} {ps : List Part} (hp : OnlyParts ps s t)
    (hps : ps ⊆ [.now, .regs, .mem, .run, .fifos, .cap, .links, .outbox, .fresh]) (htree : t.run.treeDue = s.run.treeDue)
    (hregs : SameLinkRegs s t) (hlen : t.links.length = s.links.length) {l : Nat} (hl : l < 16) (hll : l < s.links.length)
    (hne : ∀ m, m ≠ l → (t.link m).landing = (s.link m).landing ∧ (t.link m).waiting = (s.link m).waiting) {d x : Nat}
    (hone : d + linkWeight w s l (t.link l) ≤ linkWeight w s l (s.link l) + x) : d + weight w t ≤ weight w s + x := by
  have hp' := hp.mono hps
  have hjob : t.job = s.job := hp' .job (by decide)
  have htil : t.tiles = s.tiles := hp' .tiles (by decide)
  have hhub : t.hub = s.hub := hp' .hub (by decide)
  have hsol : t.solver = s.solver := hp' .solver (by decide)
  have ht : SameTimes s t := .of_tiles htil (by rw [hjob]) hregs
  rw [← linkWeight_congr ht w hl (a := t.link l) rfl rfl] at hone
  have hlinks := links_weight_one ht w hlen hl hll hne hone
  rw [weight_eq, weight_eq w s, htil, hhub, htree, hsol]
  simp only [ht.flight, ht.jobWeight, ht.cycAt]
  omega

theorem sum_erase_add {α : Type} [BEq α] [LawfulBEq α] (g : α → Nat) {a : α} {l : List α} (h : a ∈ l) : g a + ((l.erase a).map g).sum = (l.map g).sum :=
  ((List.perm_cons_erase h).map g).sum_eq.symm

theorem weight_landFlit (w : Nat → Bool → Nat) {s : State} {l : Nat} {x : FlitDue} (hl : l < 16) (hll : l < s.links.length)
    (h : x ∈ (s.link l).landing) : w x.at_ false + weight w (s.landFlit l x) ≤ weight w s := by
  have huse := landFlit_stands (s := s) x hl
  have htaken := flitTaken_onlyParts (s := s) (l := l) x
  have hlink : (flitTaken s l x).link l = { s.link l with
      landing := (s.link l).landing.erase x, last := if x.kind == 1 then x.flit.map (fun v => (x.at_, v)) else (s.link l).last } :=
    link_changed s hll _
  have hrun : (flitTaken s l x).run = s.run := htaken .run (by decide)
  refine weight_of_link w (x := 0) ((htaken.mono (by decide)).trans huse.parts) (by decide) (huse.tree.trans (by rw [hrun]))
    ((flitTaken_regs x).trans huse.regs) (landFlit_length s hl x) hl hll (fun m hm => ?_) ?_
  · rw [huse.landing, huse.waiting, flitTaken_link_ne x hm]
    exact ⟨rfl, rfl⟩
  · unfold linkWeight
    rw [huse.landing, huse.waiting, hlink]
    have := sum_erase_add (fun x : FlitDue => w x.at_ false) h
    dsimp only
    omega

theorem frameOverrun_links {s : State} {l : Nat} (hl : l < 16) (c slot kind cause : Nat) (use : FlitUse) :
    ∃ y : FlitDue, y.at_ = c + (linkOverrun s l slot kind cause).lnkHop l ∧
      (s.frameOverrun l c slot kind cause use).links = modAt (fun k => { k with landing := k.landing ++ [y] }) l s.links := by
  have h : (linkOverrun s l slot kind cause).links = s.links := (linkOverrun_beside (s := s) hl slot kind cause).parts .links (by decide)
  rw [frameOverrun_eq, ← h]
  split
  · exact ⟨_, rfl, rfl⟩
  · exact ⟨_, rfl, rfl⟩

theorem frameOverrun_onlyParts {s : State} {l : Nat} (hl : l < 16) (c slot kind cause : Nat) (use : FlitUse) :
    OnlyParts [.regs, .run, .fifos, .cap, .links, .outbox, .fresh] s (s.frameOverrun l c slot kind cause use) := by
  have h := (linkOverrun_beside (s := s) hl slot kind cause).parts
  rw [frameOverrun_eq]
  split
  · exact ((h.mono (by decide)).then (withLink_onlyParts _ _ _) (by decide)).then (drawn_onlyParts _) (by decide)
  · exact (h.mono (by decide)).then (withLink_onlyParts _ _ _) (by decide)

theorem linkOverrun_lnkHop {s : State} {l : Nat} (hl : l < 16) (slot kind cause : Nat) : (linkOverrun s l slot kind cause).lnkHop l = s.lnkHop l := by
  have h := (frameOverrun_linkRegs (s := s) hl 0 slot kind cause .port).lnkHop hl
  have hr : (s.frameOverrun l 0 slot kind cause .port).regs = (linkOverrun s l slot kind cause).regs := frameOverrun_regs ..
  rw [← h]
  unfold State.lnkHop State.lnkLegacy State.fbit
  rw [fget_congr hr]

theorem weight_unanswered (w : Nat → Bool → Nat) {s : State} {l : Nat} {x : LinkWait} (hl : l < 16) (hll : l < s.links.length)
    (h : x ∈ (s.link l).waiting) :
    w (x.sent + s.lnkHop l) true + weight w (s.unanswered l x) ≤ weight w s + w (x.sent + s.lnkHop l) false := by
  have hp1 : OnlyParts [.links] s (s.withLink l (fun k => { k with waiting := k.waiting.erase x })) := withLink_onlyParts _ _ _
  have hr1 : SameLinkRegs s (s.withLink l (fun k => { k with waiting := k.waiting.erase x })) := sameLinkRegs_withLink _ _ _
  have hlink1 : (s.withLink l (fun k => { k with waiting := k.waiting.erase x })).link l = { s.link l with waiting := (s.link l).waiting.erase x } :=
    link_changed s hll _
  have hne1 : ∀ m, m ≠ l → (s.withLink l (fun k => { k with waiting := k.waiting.erase x })).link m = s.link m := fun m hm => link_withLink_ne _ _ hm
  have hlen1 : (s.withLink l (fun k => { k with waiting := k.waiting.erase x })).links.length = s.links.length := modAt_length _ _ _
  unfold State.unanswered
  generalize s.withLink l (fun k => { k with waiting := k.waiting.erase x }) = u at *
  obtain ⟨y, hy, hlinks⟩ := frameOverrun_links (s := u) hl x.sent x.slot x.kind 1 x.use
  rw [linkOverrun_lnkHop hl, hr1.lnkHop hl] at hy
  have hrun : u.run = s.run := hp1 .run (by decide)
  have hp2 : OnlyParts [.regs, .run, .fifos, .cap, .links, .outbox, .fresh] s (u.frameOverrun l x.sent x.slot x.kind 1 x.use) :=
    (hp1.mono (by decide)).then (frameOverrun_onlyParts hl _ _ _ _ _) (by decide)
  refine weight_of_link w hp2 (by decide) ((frameOverrun_tree hl _ _ _ _ _).trans (by rw [hrun])) (hr1.trans (frameOverrun_linkRegs hl _ _ _ _ _))
    (by rw [hlinks, modAt_length, hlen1]) hl hll (fun m hm => ?_) ?_
  · rw [frameOverrun_link_ne hl _ _ _ _ _ hm, hne1 m hm]
    exact ⟨rfl, rfl⟩
  · have hlink : (u.frameOverrun l x.sent x.slot x.kind 1 x.use).link l = { u.link l with landing := (u.link l).landing ++ [y] } := by
      unfold State.link
      rw [hlinks]
      exact getD_modAt_same _ {} l u.links (by rw [hlen1]; exact hll)
    have := sum_erase_add (fun x : LinkWait => w (x.sent + s.lnkHop l) true) h
    rw [hlink, hlink1]
    unfold linkWeight
    simp only [List.map_append, List.sum_append_nat, List.map_singleton, List.sum_singleton, hy]
    omega

/-! ### A frame on the tree -/

theorem treeSend_links (s : State) (x : Nat × TreeSend) : SameLinks s (s.treeSend x) ∧
    (s.treeSend x).run = { s.run with treeDue := s.run.treeDue.erase x } ∧ OnlyParts [.run, .job, .links, .outbox] s (s.treeSend x) ∧
    (s.treeSend x).job.firstEdge = s.job.firstEdge := by
  have hsend : ∀ (u : State) (links : List Nat) (flit : Nat), u.links = s.links → u.run = { s.run with treeDue := s.run.treeDue.erase x } →
      OnlyParts [.run, .job] s u → u.job.firstEdge = s.job.firstEdge →
      SameLinks s (u.sendFrames links x.1 2 flit) ∧ (u.sendFrames links x.1 2 flit).run = { s.run with treeDue := s.run.treeDue.erase x } ∧
      OnlyParts [.run, .job, .links, .outbox] s (u.sendFrames links x.1 2 flit) ∧ (u.sendFrames links x.1 2 flit).job.firstEdge = s.job.firstEdge := by
    intro u links flit hl hr hp hj
    have hs := useStands_sendFrames x.1 2 flit links u
    have hsp := sendFrames_onlyParts u links x.1 2 flit
    have hjob : (u.sendFrames links x.1 2 flit).job = u.job := hsp .job (by decide)
    exact ⟨(SameLinks.of_links hl).trans ⟨sendFrames_length _ _ _ links u, fun l => ⟨hs.landing l, hs.waiting l⟩⟩,
      Eq.trans (hsp .run (by decide)) hr, (hp.mono (by decide)).then hsp (by decide), by rw [hjob, hj]⟩
  have hrun : OnlyParts [.run] s (s.withRun (fun r => { r with treeDue := r.treeDue.erase x })) := withRun_onlyParts s _
  unfold State.treeSend
  dsimp only
  split
  · exact ⟨.of_links rfl, rfl, hrun.mono (by decide), rfl⟩
  · split
    · exact hsend _ _ _ rfl rfl ((hrun.mono (by decide)).then (withJob_onlyParts _ _) (by decide)) rfl
    · exact hsend _ _ _ rfl rfl (hrun.mono (by decide)) rfl
    · exact hsend _ _ _ rfl rfl (hrun.mono (by decide)) rfl

theorem weight_treeSend (w : Nat → Bool → Nat) {s : State} {x : Nat × TreeSend} (h : x ∈ s.run.treeDue) :
    w x.1 false + weight w (s.treeSend x) ≤ weight w s := by
  obtain ⟨hlinks, hrun, hp, hedge⟩ := treeSend_links s x
  have htil : (s.treeSend x).tiles = s.tiles := hp .tiles (by decide)
  have hhub : (s.treeSend x).hub = s.hub := hp .hub (by decide)
  have hsol : (s.treeSend x).solver = s.solver := hp .solver (by decide)
  have ht : SameTimes s (s.treeSend x) := .of_tiles htil hedge (.of_regs (hp .edgeAt (by decide)) (hp .regs (by decide)))
  rw [weight_eq, weight_eq w s, htil, hhub, hrun, hsol, hlinks.weight ht]
  simp only [ht.flight, ht.jobWeight, ht.cycAt]
  have := sum_erase_add (fun x : Nat × TreeSend => w x.1 false) h
  omega

end Sys2Proof.Laws
end

section
/-! PROOFS. All that is due by a cycle comes about (R27, R28). -/

namespace Sys2Proof.Laws
open Sys2Proof.Machine Sys2Proof.Safety

/-- What time can touch as things come about. -/
def dueParts : List Part := [.now, .regs, .mem, .run, .job, .tiles, .attend, .fifos, .cap, .hub, .links, .solver, .outbox, .fresh]

/-! ### One thing comes about -/

/-- A job's end comes about as its record says, or the job leaves where it has none. -/
theorem comeAbout_slvEnd (s : State) (x : Nat) (j : SlvJob) (c : Nat) :
    (∃ f q, s.image = some f ∧ s.solver.jobs.find? (fun q => q.ent == j.ent) = some q ∧
      s.comeAbout (x, .slvEnd j c) = (s.advance x).slvEnd f q c q.out.off) ∨
    s.comeAbout (x, .slvEnd j c) = endFreed (s.advance x) j := by
  have himg : (s.advance x).image = s.image := rfl
  have hsol : (s.advance x).solver = s.solver := rfl
  unfold State.comeAbout
  dsimp only
  rw [himg, hsol]
  cases s.image with
  | none => exact .inr rfl
  | some f =>
    cases s.solver.jobs.find? (fun q => q.ent == j.ent) with
    | none => exact .inr rfl
    | some q => exact .inl ⟨f, q, rfl, rfl, rfl⟩

/-- What comes about leaves less under way: of a job's end, its carry, and of a frame that waited, its delivery. -/
theorem comeAbout_weight {s : State} {d : Nat × Due} (hdue : d ∈ s.dues) : ∃ x, ∀ w : Nat → Bool → Nat,
    w d.1 (dueHeavy d.2) + weight w (s.comeAbout d) ≤ weight w s + if dueHeavy d.2 then w x false else 0 := by
  cases underWay_of_due hdue with
  | flight f h => exact ⟨0, fun w => weight_land w (s := s.advance (s.flightDue f)) h⟩
  | slvEvent j v hj hv ht => exact ⟨0, fun w => weight_slvNext w (s := s.advance (s.cycAt (j.start + v.off))) hj hv ht⟩
  | slvEnd j c hj hm =>
    rcases comeAbout_slvEnd s (s.cycAt (j.start + j.out.off)) j c with ⟨f, q, -, hq, he⟩ | he
    · refine ⟨s.cycAt (endDone q c q.out.off), fun w => ?_⟩
      have hent : q.ent = j.ent := beq_iff_eq.mp (List.find?_some (p := fun q : SlvJob => q.ent == j.ent) hq)
      rw [he]
      exact weight_slvEnd (s := s.advance (s.cycAt (j.start + j.out.off))) f hj hent hm q.out.off w
    · refine ⟨0, fun w => ?_⟩
      rw [he]
      exact (weight_endFreed w (s := s.advance (s.cycAt (j.start + j.out.off))) hj hm).trans (Nat.le_add_right _ _)
  | carry c h => exact ⟨0, fun w => weight_landCarry w (s := s.advance (s.cycAt c.at_)) h⟩
  | write x h => exact ⟨0, fun w => weight_landWrite w (s := s.advance x.due) h⟩
  | flit l x hl hll h => exact ⟨0, fun w => weight_landFlit w (s := s.advance x.at_) hl hll h⟩
  | unanswered l x hl hll h => exact ⟨x.sent + s.lnkHop l, fun w => weight_unanswered w (s := s.advance (x.sent + s.lnkHop l)) hl hll h⟩
  | tree x h => exact ⟨0, fun w => weight_treeSend w (s := s.advance x.1) h⟩

/-- What comes about touches what time can touch, but not the clock. -/
theorem comeAbout_onlyParts {s : State} {d : Nat × Due} (hdue : d ∈ s.dues) :
    OnlyParts [.regs, .mem, .run, .job, .tiles, .attend, .fifos, .cap, .hub, .links, .solver, .outbox, .fresh] (s.advance d.1) (s.comeAbout d) := by
  cases underWay_of_due hdue with
  | flight f h => 
    have hoff : OnlyParts [.tiles] (s.advance (s.flightDue f)) (offAir (s.advance (s.flightDue f)) f) := withTiles_onlyParts _ _
    exact (hoff.mono (by decide)).then (lands_land (s.advance (s.flightDue f)) f).parts (by decide)
  | slvEvent j v hj hv ht =>
    exact (((withSolver_onlyParts (s.advance (s.cycAt (j.start + v.off))) _).mono (by decide)).then (slvEvent_onlyParts (evTaken (s.advance (s.cycAt (j.start + v.off))) j.ent v) j.ent v) (by decide))
  | slvEnd j c hj hm =>
    rcases comeAbout_slvEnd s (s.cycAt (j.start + j.out.off)) j c with ⟨f, q, -, -, he⟩ | he
    · rw [he]
      exact (slvEnd_onlyParts _ f q c _).mono (by decide)
    · rw [he]
      exact (withSolver_onlyParts _ _).mono (by decide)
  | carry c h => exact (landCarry_onlyParts (s.advance (s.cycAt c.at_)) c).mono (by decide)
  | write x h => exact (landWrite_onlyParts (s.advance x.due) x).mono (by decide)
  | flit l x hl hll h =>
    exact (((flitTaken_onlyParts (s := s.advance x.at_) (l := l) x).mono (by decide)).trans (landFlit_stands x hl).parts).mono (by decide)
  | unanswered l x hl hll h =>
    exact ((withLink_onlyParts (s.advance (x.sent + s.lnkHop l)) l _).mono (by decide)).then (frameOverrun_onlyParts hl _ _ _ _ _) (by decide)
  | tree x h => exact (treeSend_links (s.advance x.1) x).2.2.1.mono (by decide)

/-! ### All that is due comes about -/

theorem firstDue_cons (e : Nat × Due) (r : List (Nat × Due)) : firstDue (e :: r) = some e ∨ firstDue (e :: r) = firstDue r ∧ r ≠ [] := by
  cases hr : firstDue r with
  | none => exact .inl (by rw [firstDue, hr])
  | some f =>
    have hne : r ≠ [] := fun h => by rw [h] at hr; exact Option.some_ne_none f hr.symm
    rw [firstDue, hr]
    dsimp only
    split
    · exact .inl rfl
    · exact .inr ⟨rfl, hne⟩

theorem firstDue_mem {l : List (Nat × Due)} {d : Nat × Due} (h : firstDue l = some d) : d ∈ l := by
  induction l with
  | nil => exact absurd h (by simp [firstDue])
  | cons e r ih =>
    rcases firstDue_cons e r with he | ⟨he, -⟩ <;> rw [he] at h
    · exact Option.some.inj h ▸ .head _
    · exact .tail _ (ih h)

theorem firstDue_none {l : List (Nat × Due)} (h : firstDue l = none) : l = [] := by
  induction l with
  | nil => rfl
  | cons e r ih =>
    rcases firstDue_cons e r with he | ⟨he, hne⟩ <;> rw [he] at h
    · exact absurd h (Option.some_ne_none e)
    · exact absurd (ih h) hne

/-- The steps that what is due by a cycle may take: two for what may bring another about. -/
def stepsBy (c x : Nat) (heavy : Bool) : Nat := if x ≤ c then (if heavy then 2 else 1) else 0

theorem dueBy_nil_of_steps {s : State} {c : Nat} (h : weight (stepsBy c) s = 0) : s.dueBy c = [] := by
  refine List.filter_eq_nil_iff.2 (fun d hd hc => ?_)
  have hz : stepsBy c d.1 (dueHeavy d.2) ≤ 0 := h ▸ List.single_le_sum (fun _ _ => Nat.zero_le _) _ (List.mem_map.2 ⟨d, hd, rfl⟩)
  unfold stepsBy at hz
  rw [if_pos (of_decide_eq_true hc)] at hz
  split at hz <;> omega

theorem sum_stepsBy_le (c : Nat) : ∀ l : List (Nat × Due),
    (l.map (fun d => stepsBy c d.1 (dueHeavy d.2))).sum ≤ 2 * (l.filter (fun d => decide (d.1 ≤ c))).length
  | [] => Nat.le_refl _
  | d :: l => by
    have ih := sum_stepsBy_le c l
    rw [List.map_cons, List.sum_cons, List.filter_cons]
    unfold stepsBy at ih ⊢
    by_cases h : d.1 ≤ c
    · rw [if_pos h, if_pos (decide_eq_true h), List.length_cons]
      split <;> omega
    · rw [if_neg h, if_neg (by simpa using h)]
      omega

theorem steps_le (s : State) (c : Nat) : weight (stepsBy c) s ≤ 2 * (s.dueBy c).length := sum_stepsBy_le c s.dues

theorem comeAbout_steps {s : State} {d : Nat × Due} {c : Nat} (h : d ∈ s.dueBy c) : weight (stepsBy c) (s.comeAbout d) < weight (stepsBy c) s := by
  obtain ⟨hm, hc⟩ := List.mem_filter.1 h
  obtain ⟨x, hw⟩ := comeAbout_weight hm
  have hw := hw (stepsBy c)
  have hc : d.1 ≤ c := of_decide_eq_true hc
  have hone : stepsBy c x false ≤ 1 := by unfold stepsBy; split <;> simp
  cases hh : dueHeavy d.2 with
  | true =>
    have htwo : stepsBy c d.1 true = 2 := if_pos hc
    rw [hh, htwo, if_pos rfl] at hw
    omega
  | false =>
    have htwo : stepsBy c d.1 false = 1 := if_pos hc
    rw [hh, htwo, if_neg Bool.false_ne_true] at hw
    omega

theorem comeAbout_now {s : State} {d : Nat × Due} (h : d ∈ s.dues) : (s.comeAbout d).now = max s.now d.1 :=
  comeAbout_onlyParts h .now (by decide)

/-- With a step for each that may come, nothing due by the cycle is left. -/
theorem settle_stands (c : Nat) : ∀ (k : Nat) (s : State), weight (stepsBy c) s ≤ k →
    (State.settle c k s).dueBy c = [] ∧ max (State.settle c k s).now c = max s.now c ∧ OnlyParts dueParts s (State.settle c k s)
  | 0, s, h => ⟨dueBy_nil_of_steps (Nat.le_zero.1 h), rfl, .refl _ s⟩
  | k + 1, s, h => by
    rw [State.settle]
    cases hd : firstDue (s.dueBy c) with
    | none => exact ⟨firstDue_none hd, rfl, .refl _ s⟩
    | some d =>
      have hm := firstDue_mem hd
      obtain ⟨hmem, hc⟩ := List.mem_filter.1 hm
      have hlt := comeAbout_steps hm
      obtain ⟨h1, h2, h3⟩ := settle_stands c k (s.comeAbout d) (by omega)
      refine ⟨h1, h2.trans ?_, (((advance_onlyParts s d.1).mono (by decide)).then (comeAbout_onlyParts hmem) (by decide)).trans h3⟩
      rw [comeAbout_now hmem, max_assoc, max_eq_right (of_decide_eq_true hc : d.1 ≤ c)]

theorem upTo_stands (s : State) (c : Nat) : (s.upTo c).dueBy c = [] ∧ (s.upTo c).now = max s.now c ∧ OnlyParts dueParts s (s.upTo c) := by
  obtain ⟨h1, h2, h3⟩ := settle_stands c _ s (steps_le s c)
  exact ⟨h1, h2, h3.then (advance_onlyParts _ c) (by decide)⟩

/-- Time that has come to a cycle stays there. -/
theorem upTo_upTo (s : State) (c : Nat) : (s.upTo c).upTo c = s.upTo c := by
  obtain ⟨h1, h2, -⟩ := upTo_stands s c
  rw [upTo_settled _ _ h1]
  unfold State.advance
  rw [h2, max_assoc, max_self, ← h2]

end Sys2Proof.Laws
end

section
/-! PROOFS. Commands that name a cycle first let time come there (R27, R28, R113). -/

namespace Sys2Proof.Laws
open Sys2Proof.Machine Sys2Proof.Safety

section
variable {s : State} {c : Nat}

theorem upTo_halt (h : s.power.halt = .no) (c : Nat) : (s.upTo c).power.halt = .no := by
  have hp : (s.upTo c).power = s.power := (upTo_stands s c).2.2 .power (by decide)
  rw [hp, h]

/-- A command of a module that runs does the same from the cycle that it names. -/
theorem live_timed (h : s.power.halt = .no) (c : Nat) {op : State → State} (ho : op s = op (s.upTo c)) : s.live op = (s.upTo c).live op := by
  rw [live_runs h, live_runs (upTo_halt h c), ho]

theorem liveE_runs (h : s.power.halt = .no) (at_ cause window : Nat) (op : State → State) : s.liveE at_ cause window op = op s := by
  simp [State.liveE, State.runs, h]

theorem liveE_timed (h : s.power.halt = .no) (at_ : Nat) {cause cause' window : Nat} {op : State → State} (ho : op s = op (s.upTo at_)) :
    s.liveE at_ cause window op = (s.upTo at_).liveE at_ cause' window op := by
  rw [liveE_runs h, liveE_runs (upTo_halt h at_), ho]

/-- A timed command does the same from its cycle on; a class E condition is heard on the cycle of a stop too (R622). -/
theorem exec_timed (i : Instr) {at_ : Nat} (h : s.power.halt = .no) (ht : timedAt i = some at_) : exec i s = exec i (s.upTo at_) := by
  cases i
  case terminalStop | sag | overVoltage | overCurrent | railFault | thermalTerminal =>
    cases ht
    exact congrArg Host.Outcome.next (liveE_timed h at_ (by simp only [upTo_upTo]))
  all_goals cases ht
  all_goals exact congrArg Host.Outcome.next (live_timed h at_ (by simp only [upTo_upTo]))

/-! ### Stream words -/

theorem issueAbs_atIssue (s : State) (w : Word256) : (s.atIssue w).issueAbs w = s.issueAbs w := by
  have hp : (s.atIssue w).edgeAt = s.edgeAt := (upTo_stands s _).2.2 .edgeAt (by decide)
  unfold State.issueAbs
  rw [hp]

theorem atIssue_atIssue (s : State) (w : Word256) : (s.atIssue w).atIssue w = s.atIssue w := by
  have h : (s.atIssue w).atIssue w = (s.atIssue w).upTo ((s.atIssue w).issueAbs w) := rfl
  rw [h, issueAbs_atIssue]
  exact upTo_upTo s _

/-- A word whose stream runs on its issue does the same from there. -/
theorem issue_timed {i : Instr} {tile : Nat} {w : Word256} {op : Nat} {f : State → State}
    (he : ∀ s, exec i s = .next (if s.runsWord tile w op then f s else s)) (ho : wOpcode w = op) (h : s.streamRuns tile = true)
    (hi : (s.atIssue w).streamRuns tile = true) (hf : f s = f (s.atIssue w)) : exec i s = exec i (s.atIssue w) := by
  have hop : (wOpcode w == op) = true := beq_iff_eq.mpr ho
  rw [he, he]
  simp only [State.runsWord, h, hi, hop, Bool.and_self, if_true]
  rw [hf]

theorem exec_issued {q : Nat × Instr} {tile : Nat} {w : Word256} {arrival : List Word32} {loc : VeLoc} {a b : Nat} {x : Word32} {k : Bool}
    {aux : List UpdAux} (hq : q ∈ streamWords tile w arrival loc a b x k aux) (ho : wOpcode w = q.1) (h : s.streamRuns tile = true)
    (hi : (s.atIssue w).streamRuns tile = true) : exec q.2 s = exec q.2 (s.atIssue w) := by
  simp only [streamWords, List.mem_cons, List.not_mem_nil, or_false] at hq
  rcases hq with rfl | rfl | rfl | rfl | rfl | rfl | rfl | rfl | rfl | rfl | rfl | rfl | rfl | rfl | rfl | rfl
  all_goals
    refine issue_timed (fun _ => rfl) ho h hi ?_
    simp only [atIssue_atIssue, issueAbs_atIssue]

end

/-- Settles O2: each thing that comes about leaves less under way, what may bring another about counted twice. -/
theorem timePassesWithWhatIsDue : Obligations.TimePassesWithWhatIsDue := by
  unfold Obligations.TimePassesWithWhatIsDue
  refine ⟨fun s c => ?_, fun s h => step_passes h, fun i at_ s h ht => exec_timed i h ht,
    fun q s tile w arrival loc a b x k aux hq ho h hi => exec_issued hq ho h hi⟩
  obtain ⟨h1, h2, h3⟩ := upTo_stands s c
  refine ⟨h1, h2, fun hs => ?_, h3⟩
  rw [upTo_settled _ _ hs]
  exact ⟨rfl, advance_onlyParts s c⟩

end Sys2Proof.Laws
end

section
/-! PROOFS. A solver job that ends: by its deadline, or on its own scyc (R260 to R263, R269). -/

namespace Sys2Proof.Laws
open Sys2Proof.Machine Sys2Proof.Safety

/-! ### One thing is due -/

/-- One thing is due, and once it has come about nothing more is. -/
theorem upTo_last {s : State} {c : Nat} {d : Nat × Due} (hd : s.dueBy c = [d]) (hnone : (s.comeAbout d).dueBy c = []) :
    s.upTo c = (s.comeAbout d).advance c := by
  rw [State.upTo, hd]
  change (State.settle c 2 s).advance c = _
  rw [State.settle, hd, firstDue_single]
  exact congrArg (State.advance · c) (settle_settled _ c hnone 1)

/-- One for each thing due by a cycle. -/
def onceBy (c x : Nat) (_ : Bool) : Nat := if x ≤ c then 1 else 0

theorem weight_onceBy (s : State) (c : Nat) : weight (onceBy c) s = (s.dueBy c).length := by
  unfold weight State.dueBy
  induction s.dues with
  | nil => rfl
  | cons d l ih =>
    rw [List.map_cons, List.sum_cons, ih, List.filter_cons]
    unfold onceBy
    by_cases h : d.1 ≤ c
    · rw [if_pos h, if_pos (decide_eq_true h), List.length_cons, Nat.add_comm]
    · rw [if_neg h, if_neg (by simpa using h), Nat.zero_add]

/-- What brings nothing about is the last. -/
theorem upTo_light {s : State} {c : Nat} {d : Nat × Due} (hd : s.dueBy c = [d]) (hl : dueHeavy d.2 = false) :
    s.upTo c = (s.comeAbout d).advance c := by
  obtain ⟨hm, hc⟩ := dueBy_single hd
  obtain ⟨x, hw⟩ := comeAbout_weight hm
  have hw := hw (onceBy c)
  rw [weight_onceBy, weight_onceBy, hd, hl, if_neg Bool.false_ne_true] at hw
  have hone : onceBy c d.1 false = 1 := if_pos hc
  rw [hone, List.length_singleton] at hw
  exact upTo_last hd (List.length_eq_zero_iff.1 (by omega))

/-! ### What a job's end leaves, as its rule says -/

/-- The end of a job on a module that holds its statistic. -/
structure EndCarried (f : ImageFile) (j : SlvJob) (d st : TensorEnt) (done : Nat) (s t : State) : Prop where
  carries : t.solver.carries = s.solver.carries ++ [{
    die := slvDie j.ent, c0 := slvC0 j.ent, gang := slvGang j.ent, at_ := done, addr := s.writeBase d + descOff f st (slvBlock j.ent),
    desc := BitVec.ofNat 512 (putBits (putBits j.prev.toNat 8 8 (min (dscStale j.prev + 1) 255)) 0 2
      (if dscState j.prev = 1 ∧ dscUhash j.prev = slvUhash j.ent then 1 else 2)),
    limit := slvStaleLim j.ent }]
  bypass : dscState j.prev = 1 → ¬ (dscState j.prev = 1 ∧ dscUhash j.prev = slvUhash j.ent) →
    Counts (SLV_CNT2_BYPASSES.die (slvDie j.ent)) 1 s t ∧ t.fbit (SLV_STS_BYPASS_SET.die (slvDie j.ent)) = true
  ended : j ∉ t.solver.jobs
  mem : t.mem = s.mem

theorem carryOf_desc (j : SlvJob) (stale : Nat) :
    BitVec.ofNat 512 (putBits (putBits j.prev.toNat 8 8 stale) 0 2 (if dscState j.prev == 1 && dscUhash j.prev == slvUhash j.ent then 1 else 2)) =
      BitVec.ofNat 512 (putBits (putBits j.prev.toNat 8 8 stale) 0 2 (if dscState j.prev = 1 ∧ dscUhash j.prev = slvUhash j.ent then 1 else 2)) := by
  simp only [Bool.and_eq_true, beq_iff_eq]

theorem SlvEnded.carried {f : ImageFile} {j : SlvJob} {cause at_ done : Nat} {s t : State} (h : SlvEnded f j cause at_ s t) {d st : TensorEnt}
    (he : s.slvEnts f j.ent = some (st, d)) (hdone : endDone j cause at_ = done) : EndCarried f j d st done s t where
  carries := by
    rw [h.carries st d he, hdone]
    unfold carryOf
    rw [carryOf_desc]
  bypass := h.bypassed
  ended := by
    rw [h.jobs]
    exact fun hm => by simpa using (List.mem_filter.1 hm).2
  mem := h.parts .mem (by decide)

/-- A module whose clock alone has moved. -/
theorem EndCarried.of_advance {f : ImageFile} {j : SlvJob} {d st : TensorEnt} {done c x : Nat} {s t : State}
    (h : EndCarried f j d st done (s.advance c) t) : EndCarried f j d st done s (t.advance x) :=
  ⟨h.carries, h.bypass, h.ended, h.mem⟩

/-! ### A deadline -/

section
variable {s : State} {f : ImageFile} {p : PlanImg} (h : InTick f p s)
include h

theorem deadline_missed {j : SlvJob} {c0 : Nat} {d st : TensorEnt} (hon : s.slvOn (slvDie j.ent) c0 = some j)
    (he : s.slvEnts f j.ent = some (st, d)) (hm : j.misses = true) (hs : Settled s (s.cycAt (j.deadline + 1))) :
    ∃ t, exec (.deadlineMiss (slvDie j.ent) c0) s = .next t ∧ t.now = max s.now (s.cycAt (j.deadline + 1)) ∧
      Counts (SLV_CNT1_DEADLINE_MISSES.die (slvDie j.ent)) 1 s t ∧ t.fbit (SLV_STS_DEADLINE_MISS.die (slvDie j.ent)) = true ∧
      EndCarried f j d st (j.deadline + 41) s t ∧ OnlyParts [.now, .regs, .fifos, .solver, .outbox] s t := by
  obtain ⟨⟨hhalt, hi⟩, -, himg, -⟩ := h
  have hexec : exec (.deadlineMiss (slvDie j.ent) c0) s =
      .next ((s.advance (s.cycAt (j.deadline + 1))).slvEnd f j 0 (j.deadline - j.start)) :=
    congrArg Host.Outcome.next ((live_runs hhalt _).trans (by
      rw [himg, hon]
      dsimp only
      rw [if_pos hm, upTo_settled _ _ hs]))
  have hend := slvEnd_stands (s := s.advance (s.cycAt (j.deadline + 1))) hi f j 0 (j.deadline - j.start)
  obtain ⟨hcount, hsts⟩ := hend.counted (by omega)
  have hnow := hend.parts .now (by decide)
  have hparts : OnlyParts [.now, .regs, .fifos, .solver, .outbox] s ((s.advance (s.cycAt (j.deadline + 1))).slvEnd f j 0 (j.deadline - j.start)) :=
    ((advance_onlyParts s _).mono (by decide)).then hend.parts (by decide)
  have hcar := hend.carried (d := d) (st := st) he (done := j.deadline + 41) rfl
  generalize (s.advance (s.cycAt (j.deadline + 1))).slvEnd f j 0 (j.deadline - j.start) = t at *
  exact ⟨t, hexec, hnow, hcount, hsts, ⟨hcar.carries, hcar.bypass, hcar.ended, hcar.mem⟩, hparts⟩

end

/-! ### An end on its own scyc -/

theorem slvEnd_of_due {s : State} {x c : Nat} {j : SlvJob} (h : (x, Due.slvEnd j c) ∈ s.dues) :
    j ∈ s.solver.jobs ∧ x = s.cycAt (j.start + j.out.off) ∧ (s.cycAt (j.start + j.out.off), Due.slvEnd j c) ∈ s.jobDues j := by
  have hu := underWay_of_due h
  generalize hd : (x, Due.slvEnd j c) = d at hu
  cases hu with
  | slvEnd q k hj hm =>
    obtain ⟨hx, hq⟩ := Prod.mk.inj hd
    obtain ⟨rfl, rfl⟩ := Due.slvEnd.inj hq
    exact ⟨hj, hx, hm⟩
  | _ => exact absurd (Prod.mk.inj hd).2 (by simp)

section
variable {s : State} {f : ImageFile} {j : SlvJob} {cause x : Nat}

theorem upTo_slvEnd (himg : s.image = some f) (hd : s.dueBy x = [(x, .slvEnd j cause)])
    (hj : s.solver.jobs.find? (fun q => q.ent == j.ent) = some j) (h1 : 1 ≤ cause) (hx : x < s.cycAt (j.start + j.out.off + 40)) :
    s.upTo x = ((s.advance x).slvEnd f j cause j.out.off).advance x := by
  obtain ⟨hm, -⟩ := dueBy_single hd
  obtain ⟨hmem, hat, hend⟩ := slvEnd_of_due hm
  have hcome : s.comeAbout (x, .slvEnd j cause) = (s.advance x).slvEnd f j cause j.out.off := by
    rcases comeAbout_slvEnd s x j cause with ⟨g, q, hg, hq, he⟩ | he
    · obtain rfl := Option.some.inj (himg.symm.trans hg)
      obtain rfl := Option.some.inj (hj.symm.trans hq)
      exact he
    · unfold State.comeAbout at he ⊢
      dsimp only at he ⊢
      rw [show (s.advance x).image = some f from himg, show (s.advance x).solver.jobs.find? (fun q => q.ent == j.ent) = some j from hj]
  have hdone : endDone j cause j.out.off = j.start + j.out.off + 40 := by
    unfold endDone
    rw [if_neg (by simpa using Nat.ne_of_gt h1)]
  have hw := weight_slvEnd (s := s.advance x) f hmem rfl hend j.out.off (stepsBy x)
  have htwo : stepsBy x ((s.advance x).cycAt (j.start + j.out.off)) true = 2 := if_pos (Nat.le_of_eq hat.symm)
  have hlate : stepsBy x ((s.advance x).cycAt (endDone j cause j.out.off)) false = 0 := by
    rw [hdone]
    exact if_neg (Nat.not_le.2 hx)
  have hall : weight (stepsBy x) (s.advance x) ≤ 2 := by
    have := steps_le s x
    rw [hd] at this
    exact this
  rw [htwo, hlate] at hw
  rw [upTo_last hd (by rw [hcome]; exact dueBy_nil_of_steps (by omega)), hcome]

theorem ended_itself {p : PlanImg} (h : InTick f p s) (hd : s.dueBy x = [(x, .slvEnd j cause)])
    (hj : s.solver.jobs.find? (fun q => q.ent == j.ent) = some j) (h1 : 1 ≤ cause) (h7 : cause ≤ 7) {d st : TensorEnt}
    (he : s.slvEnts f j.ent = some (st, d)) (hx : x < s.cycAt (j.start + j.out.off + 40)) :
    Counts (if cause ≤ 2 then SLV_CNT1_REFUSED.die (slvDie j.ent) else if cause ≤ 6 then SLV_CNT1_SOFT_FAILS.die (slvDie j.ent)
      else SLV_CNT1_NOT_STARTED.die (slvDie j.ent)) 1 s (s.upTo x) ∧
    EndCarried f j d st (j.start + j.out.off + 40) s (s.upTo x) ∧ OnlyParts [.now, .regs, .fifos, .solver, .outbox] s (s.upTo x) := by
  obtain ⟨⟨-, hi⟩, -, himg, -⟩ := h
  rw [upTo_slvEnd himg hd hj h1 hx]
  have hend := slvEnd_stands (s := s.advance x) hi f j cause j.out.off
  have hcnt := (hend.counted h7).1
  have hfld : (endCnt cause).die (slvDie j.ent) = if cause ≤ 2 then SLV_CNT1_REFUSED.die (slvDie j.ent)
      else if cause ≤ 6 then SLV_CNT1_SOFT_FAILS.die (slvDie j.ent) else SLV_CNT1_NOT_STARTED.die (slvDie j.ent) := by
    unfold endCnt
    rw [if_neg (by omega)]
    split_ifs <;> rfl
  have hdone : endDone j cause j.out.off = j.start + j.out.off + 40 := by
    unfold endDone
    rw [if_neg (by simpa using Nat.ne_of_gt h1)]
  have hcar := hend.carried (d := d) (st := st) he hdone
  have hparts : OnlyParts [.now, .regs, .fifos, .solver, .outbox] s ((s.advance x).slvEnd f j cause j.out.off) :=
    ((advance_onlyParts s x).mono (by decide)).then hend.parts (by decide)
  generalize (s.advance x).slvEnd f j cause j.out.off = t at *
  exact ⟨hfld ▸ hcnt, hcar.of_advance, hparts.then (advance_onlyParts t x) (by decide)⟩

end

end Sys2Proof.Laws
end

section
/-! PROOFS. A carry that completes (R261, R265). -/

namespace Sys2Proof.Laws
open Sys2Proof.Machine Sys2Proof.Safety

theorem desc_toNat (d : BitVec 512) : d.toNat % 256 ^ 64 = d.toNat := by
  refine Nat.mod_eq_of_lt ?_
  have hp : ∀ k : Nat, (256 : Nat) ^ k = 2 ^ (8 * k) := fun k => by rw [Nat.pow_mul]
  rw [hp]
  exact d.isLt

/-! ### A STALE past its limit -/

/-- The fields of a die that a STALE past its limit leaves, but for its count. -/
abbrev SlvUnstale (k : Nat) (g : Fld) : Prop := g ∈ slvFlds k ∧ g ≠ SLV_STS_STALE_LIMIT.die k

theorem staleCheck_raises {s : State} (hi : Inv s) {die stale limit : Nat} (hk : die < 4) (h : limit < stale) :
    Counts (SLV_CNT3_STALE_LIMITS.die die) 1 s (s.staleCheck die stale limit) ∧
      (s.staleCheck die stale limit).fbit (SLV_STS_STALE_LIMIT.die die) = true ∧ RaisesC s (s.staleCheck die stale limit) := by
  have hcm : SLV_CNT3_STALE_LIMITS.die die ∈ slvFlds die := mem_slvFlds die (f := SLV_CNT3_STALE_LIMITS) (by decide)
  have hsm : SLV_STS_STALE_LIMIT.die die ∈ slvFlds die := mem_slvFlds die (f := SLV_STS_STALE_LIMIT) (by decide)
  obtain ⟨hcw, -⟩ := slvFlds_apart die hk _ hcm
  obtain ⟨hsw, hsa⟩ := slvFlds_apart die hk _ hsm
  have hi' : Inv (s.fadd (SLV_CNT3_STALE_LIMITS.die die) 1) := (fadd_keeps s _ 1 (.refl s)).inv hi
  have hcount := counts_fadd hi (SLV_CNT3_STALE_LIMITS.die die) 1 hcw
  have hrun : (s.fadd (SLV_CNT3_STALE_LIMITS.die die) 1).run = s.run := fadd_onlyParts s _ 1 .run (by decide)
  unfold State.staleCheck
  rw [if_pos h]
  generalize s.fadd (SLV_CNT3_STALE_LIMITS.die die) 1 = u at *
  have hbeside : Beside (SlvUnstale die) _ u (u.classC (16 + die) (SLV_STS_STALE_LIMIT.die die)) :=
    beside_classC u (fun g hg => slvFlds_note die hk g hg.1) (16 + die) _ ⟨hsw, fun g hg => hsa g hg.1 hg.2⟩
      (fun g hg => slvFlds_raised die hk g hg.1)
  refine ⟨?_, fbit_of_fget (fget_classCWith u _ _ 5 0 hi'.1.1 hsw (die_wd _ _) (slvFlds_note die hk _ hsm) (slvFlds_raised die hk _ hsm)),
    (TickMarks.of_run hrun).then_raisesC (classC_raisesC u _ _)⟩
  unfold Counts at hcount ⊢
  rw [hbeside.flds hi' _ ⟨hcm, die_ne die (by decide)⟩, hcount]

/-! ### The carry -/

section
variable {s : State} (hi : Inv s) (c : Carry)

include hi in
theorem carryWritten_inv : Inv (carryWritten s c) :=
  (wrN_keeps 64 c.addr c.desc.toNat (withSolver_keeps s _ (.refl s))).inv hi

theorem landCarry_after : OnlyParts [.regs, .run, .attend, .fifos, .cap, .outbox] (carryWritten s c) (s.landCarry c) := by
  rw [landCarry_eq]
  exact (staleCheck_onlyParts _ _ _ _).then (gangIdle_onlyParts _ _ _) (by decide)

include hi in
theorem landCarry_writes : (s.landCarry c).rdN c.addr 64 = c.desc.toNat := by
  have hmem : (s.landCarry c).mem = (carryWritten s c).mem := landCarry_after c .mem (by decide)
  rw [rdN_congr (fun a => rd8_congr hmem a)]
  unfold carryWritten
  rw [rdN_wrN 64 (carryTaken s c) c.addr c.desc.toNat hi.1.2.1]
  exact desc_toNat c.desc

theorem landCarry_onlyBytes : OnlyBytes c.addr 64 s (s.landCarry c) := by
  have hmem : (s.landCarry c).mem = (carryWritten s c).mem := landCarry_after c .mem (by decide)
  intro b hb
  rw [rd8_congr hmem]
  exact wrN_onlyBytes (carryTaken s c) c.addr 64 c.addr 64 c.desc.toNat (Nat.le_refl _) (Nat.le_refl _) b hb

include hi in
theorem landCarry_raises (hk : c.die < 4) (h : c.limit < dscStale c.desc) : Counts (SLV_CNT3_STALE_LIMITS.die c.die) 1 s (s.landCarry c) ∧
    (s.landCarry c).fbit (SLV_STS_STALE_LIMIT.die c.die) = true ∧ RaisesC s (s.landCarry c) := by
  have hregs : (carryWritten s c).regs = s.regs := carryWritten_onlyParts s c .regs (by decide)
  have hrun : (carryWritten s c).run = s.run := carryWritten_onlyParts s c .run (by decide)
  have hv := carryWritten_inv hi c
  rw [landCarry_eq]
  generalize carryWritten s c = v at *
  obtain ⟨hcount, hsts, hraise⟩ := staleCheck_raises hv hk h
  have hiu : Inv (v.staleCheck c.die (dscStale c.desc) c.limit) := (staleCheck_keeps v _ _ _ (.refl v)).inv hv
  generalize v.staleCheck c.die (dscStale c.desc) c.limit = u at *
  have hidle : Beside (SlvFld c.die) [.regs] u ((range' c.c0 c.gang).foldl (fun s k => s.fset ((SLV_CRK_STAGE.die c.die).ix k) 0) u) :=
    .foldl (fun v k _ => beside_fset v _ 0 (crk_apart (f := SLV_CRK_STAGE) hk rfl (by decide) k)) u
  have hidrun := hidle.parts .run (by decide)
  generalize (range' c.c0 c.gang).foldl (fun s k => s.fset ((SLV_CRK_STAGE.die c.die).ix k) 0) u = t at *
  have hcm : SLV_CNT3_STALE_LIMITS.die c.die ∈ slvFlds c.die := mem_slvFlds c.die (f := SLV_CNT3_STALE_LIMITS) (by decide)
  have hsm : SLV_STS_STALE_LIMIT.die c.die ∈ slvFlds c.die := mem_slvFlds c.die (f := SLV_STS_STALE_LIMIT) (by decide)
  refine ⟨?_, (congrArg (· != 0) (hidle.flds hiu _ hsm)).trans hsts, (TickMarks.of_run hrun).then_raisesC ?_⟩
  · unfold Counts at hcount ⊢
    rw [hidle.flds hiu _ hcm, hcount, fget_congr hregs]
  · unfold RaisesC at hraise ⊢
    rw [show t.run = u.run from hidrun]
    exact hraise

end

theorem carry_completes {s : State} {f : ImageFile} {p : PlanImg} (h : InTick f p s) {c : Carry} {x : Nat} (hd : s.dueBy x = [(x, .carry c)])
    (hk : c.die < 4) : (s.upTo x).rdN c.addr 64 = c.desc.toNat ∧ OnlyBytes c.addr 64 s (s.upTo x) ∧ c ∉ (s.upTo x).solver.carries ∧
      (c.limit < dscStale c.desc → Counts (SLV_CNT3_STALE_LIMITS.die c.die) 1 s (s.upTo x) ∧
        (s.upTo x).fbit (SLV_STS_STALE_LIMIT.die c.die) = true ∧ RaisesC s (s.upTo x)) ∧
      OnlyParts [.now, .regs, .mem, .run, .attend, .fifos, .cap, .solver, .outbox] s (s.upTo x) := by
  have hi : Inv (s.advance x) := h.1.2
  have hup : s.upTo x = ((s.advance x).landCarry c).advance x := upTo_light hd rfl
  have hw := landCarry_writes hi c
  have hb := landCarry_onlyBytes (s := s.advance x) c
  have hr := landCarry_raises hi c hk
  have hsol := congrArg SolverSt.carries (landCarry_solver (s.advance x) c)
  have hp : OnlyParts [.now, .regs, .mem, .run, .attend, .fifos, .cap, .solver, .outbox] s ((s.advance x).landCarry c) :=
    ((advance_onlyParts s x).mono (by decide)).then (landCarry_onlyParts _ c) (by decide)
  rw [hup]
  generalize (s.advance x).landCarry c = t at *
  have hcar : c ∉ t.solver.carries := by
    rw [hsol]
    exact fun hm => by simpa using (List.mem_filter.1 hm).2
  have hrd : ∀ a, (t.advance x).rd8 a = t.rd8 a := fun a => rd8_congr (s := t) (t := t.advance x) rfl a
  exact ⟨(rdN_congr hrd 64 c.addr).trans hw, fun b h => (hrd b).trans (hb b h), hcar, hr, hp.then (advance_onlyParts t x) (by decide)⟩

end Sys2Proof.Laws
end

section
/-! PROOFS. The sweep of a die, a datapath fault, and the pivot log (R260, R266, R269). -/

namespace Sys2Proof.Laws
open Sys2Proof.Machine Sys2Proof.Safety

/-! ### The sweep -/

/-- The home blocks of a die that no job of the round names, each with its statistic's entries. -/
def sweepHome (s : State) (f : ImageFile) (die : Nat) : List (TensorEnt × TensorEnt × Nat) :=
  let g := imgSeenBy f (s.fget HULL_ORCH_MODULE)
  (g.stateMap.filter (fun t => 4 ≤ t.role && t.role ≤ 7 && t.solver == die && owns t (s.fget HULL_ORCH_MODULE))).flatMap (fun t =>
    match imgTensor g t.tensor 8 with
    | none => []
    | some d => ((range' 0 (factorBlocks t)).filter (fun b =>
        !(s.roundJobs f).any (fun e => slvTensor e == t.tensor && slvBlock e == b + firstBlock g t))).map (fun b => (t, d, b)))

/-- Where a block's descriptor is read and written. -/
def sweepPlaces (s : State) (x : TensorEnt × TensorEnt × Nat) : Nat × Nat := (s.readBase x.2.1 + 64 * x.2.2, s.writeBase x.2.1 + 64 * x.2.2)

/-- The copy of a block's descriptor that the sweep issues. -/
def sweepCopy (s : State) (die start : Nat) (x : (TensorEnt × TensorEnt × Nat) × Nat) : Carry :=
  { die := die, c0 := 0, gang := 0, at_ := start + 404 + x.2, addr := s.writeBase x.1.2.1 + 64 * x.1.2.2,
    desc := s.descAt (s.readBase x.1.2.1 + 64 * x.1.2.2), limit := x.1.1.staleLim }

theorem carrySweep_eq (s : State) (f : ImageFile) (die start : Nat) : s.carrySweep f die start = s.withSolver (fun x =>
    { x with carries := x.carries ++ ((sweepHome s f die).zip (range' 0 (sweepHome s f die).length)).map (sweepCopy s die start) }) := by
  unfold State.carrySweep sweepHome sweepCopy
  dsimp only <;> rfl

theorem sweepPairs_eq (s : State) (f : ImageFile) (die : Nat) : sweepPairs s f die = (sweepHome s f die).map (sweepPlaces s) := by
  unfold sweepPairs sweepHome
  dsimp only
  rw [List.map_flatMap]
  refine List.flatMap_congr (fun t _ => ?_)
  generalize imgTensor (imgSeenBy f (s.fget HULL_ORCH_MODULE)) t.tensor 8 = o
  cases o with
  | none => rfl
  | some d =>
    dsimp only
    rw [List.map_map]
    rfl

theorem sweepCopies (s : State) (f : ImageFile) (die start : Nat) :
    (((sweepHome s f die).zip (range' 0 (sweepHome s f die).length)).map (sweepCopy s die start)).map (fun c => (c.addr, c.desc, c.at_)) =
      ((sweepPairs s f die).zip (range' 0 (sweepPairs s f die).length)).map (fun y => (y.1.2, s.descAt y.1.1, start + 404 + y.2)) := by
  rw [sweepPairs_eq, List.length_map, List.zip_map_left, List.map_map, List.map_map]
  rfl

section
variable {s : State} {f : ImageFile} {p : PlanImg} (h : InTick f p s)
include h

theorem sweeps {die : Nat} (hr : s.run.stepRuns = true) (hs : Settled s (s.cycAt (s.scycAt (s.edgeAt + s.sweepCycle f die)))) :
    ∃ t, exec (.carrySweep die) s = .next t ∧ t.now = max s.now (s.cycAt (s.scycAt (s.edgeAt + s.sweepCycle f die))) ∧
      (∃ cs, t.solver.carries = s.solver.carries ++ cs ∧ cs.map (fun c => (c.addr, c.desc, c.at_)) =
          ((sweepPairs s f die).zip (range' 0 (sweepPairs s f die).length)).map (fun y =>
            (y.1.2, s.descAt y.1.1, s.scycAt (s.edgeAt + s.sweepCycle f die) + 404 + y.2)) ∧
        ∀ c ∈ cs, c.die = die ∧ c.gang = 0) ∧
      OnlyParts [.now, .solver] s t := by
  obtain ⟨⟨hhalt, -⟩, -, himg, -⟩ := h
  generalize hstart : s.scycAt (s.edgeAt + s.sweepCycle f die) = start at hs ⊢
  have hexec : exec (.carrySweep die) s = .next ((s.advance (s.cycAt start)).carrySweep f die start) :=
    congrArg Host.Outcome.next ((live_runs hhalt _).trans (by
      rw [himg]
      dsimp only
      rw [if_pos hr, hstart, upTo_settled _ _ hs]))
  refine ⟨_, hexec, ?_⟩
  rw [carrySweep_eq]
  refine ⟨rfl, ⟨_, rfl, ?_, fun c hc => ?_⟩, ((advance_onlyParts s (s.cycAt start)).mono (by decide)).then (withSolver_onlyParts _ _) (by decide)⟩
  · have hd : ∀ a, (s.advance (s.cycAt start)).descAt a = s.descAt a := fun a =>
      congrArg (BitVec.ofNat 512) (rdN_congr (fun b => rd8_congr (s := s) (t := s.advance (s.cycAt start)) rfl b) 64 a)
    have hsp : sweepPairs (s.advance (s.cycAt start)) f die = sweepPairs s f die := rfl
    refine (sweepCopies (s.advance (s.cycAt start)) f die start).trans ?_
    simp only [hsp, hd]
  · obtain ⟨x, -, rfl⟩ := List.mem_map.1 hc
    exact ⟨rfl, rfl⟩

end

/-! ### A datapath fault -/

theorem die_not_note {f : Fld} (k : Nat) (h : 0x10000000 ≤ f.base) : (f.die k).base ∉ noteRegs := by
  have hlow : ∀ g ∈ noteRegs, g < 0x10000000 := by decide
  intro hm
  have := hlow _ hm
  rw [die_base] at this
  omega

/-- The count and the status bit of a datapath fault. -/
def faultNoted (s : State) (die : Nat) : State :=
  (s.fadd (SLV_CNT3_DATAPATH_FAULTS.die die) 1).classBSts (16 + die) (SLV_STS_DATAPATH_FAULT.die die)

theorem faultNoted_onlyParts (s : State) (die : Nat) : OnlyParts [.regs, .run, .fifos, .cap, .outbox] s (faultNoted s die) :=
  ((fadd_onlyParts s _ 1).mono (by decide)).then (classBSts_onlyParts _ _ _) (by decide)

theorem faultNoted_stands {s : State} (hi : Inv s) {die : Nat} (hk : die < 4) : Counts (SLV_CNT3_DATAPATH_FAULTS.die die) 1 s (faultNoted s die) ∧
    (faultNoted s die).fbit (SLV_STS_DATAPATH_FAULT.die die) = true ∧ RaisesB s (faultNoted s die) ∧ Inv (faultNoted s die) := by
  have hcm : SLV_CNT3_DATAPATH_FAULTS.die die ∈ slvFlds die := mem_slvFlds die (f := SLV_CNT3_DATAPATH_FAULTS) (by decide)
  have hsm : SLV_STS_DATAPATH_FAULT.die die ∈ slvFlds die := mem_slvFlds die (f := SLV_STS_DATAPATH_FAULT) (by decide)
  obtain ⟨hcw, -⟩ := slvFlds_apart die hk _ hcm
  obtain ⟨hsw, hsa⟩ := slvFlds_apart die hk _ hsm
  have hi' : Inv (s.fadd (SLV_CNT3_DATAPATH_FAULTS.die die) 1) := (fadd_keeps s _ 1 (.refl s)).inv hi
  have hcount := counts_fadd hi (SLV_CNT3_DATAPATH_FAULTS.die die) 1 hcw
  have hrun : (s.fadd (SLV_CNT3_DATAPATH_FAULTS.die die) 1).run = s.run := fadd_onlyParts s _ 1 .run (by decide)
  unfold faultNoted
  generalize s.fadd (SLV_CNT3_DATAPATH_FAULTS.die die) 1 = u at *
  have hbeside : Beside (fun g => g ∈ slvFlds die ∧ g ≠ SLV_STS_DATAPATH_FAULT.die die) _ u
      (u.classBSts (16 + die) (SLV_STS_DATAPATH_FAULT.die die)) :=
    beside_classBSts u (fun g hg => slvFlds_note die hk g hg.1) (16 + die) _ ⟨hsw, fun g hg => hsa g hg.1 hg.2⟩
  refine ⟨?_, fbit_classBSts u _ _ hi'.1.1 hsw (die_wd _ _) (slvFlds_note die hk _ hsm),
    (TickMarks.of_run hrun).then_raisesB (classBSts_raisesB u _ _), hbeside.keeps.inv hi'⟩
  unfold Counts at hcount ⊢
  rw [hbeside.flds hi' _ ⟨hcm, die_ne die (by decide)⟩, hcount]

/-- The cycle by which a fault hits a job. -/
def hitBy (j : SlvJob) : Nat := if j.publishes then j.start + j.out.off + 39 else j.deadline

/-- A fault that is not corrected is noted, and ends the job that it hits. -/
theorem solverFault_noted {s : State} {f : ImageFile} (himg : s.image = some f) (die : Nat) (c : Option Nat) :
    (s.solverFault die c false = faultNoted s die ∧
      ∀ j, c.bind (fun c => s.slvOn die c) = some j → ¬ s.scycAt s.now ≤ hitBy j) ∨
    ∃ j, c.bind (fun c => s.slvOn die c) = some j ∧
      s.solverFault die c false = (faultNoted s die).slvEnd f j 8 (s.scycAt s.now - j.start) := by
  have hp := faultNoted_onlyParts s die
  have hsol : (faultNoted s die).solver = s.solver := hp .solver (by decide)
  have hnow : (faultNoted s die).now = s.now := hp .now (by decide)
  have hjob : (faultNoted s die).job = s.job := hp .job (by decide)
  have himg' : (faultNoted s die).image = some f := (image_congr (congrArg (·.ctx) hjob) (hp .ctxs (by decide))).trans himg
  have hon : ∀ c, (faultNoted s die).slvOn die c = s.slvOn die c := fun c => by
    unfold State.slvOn
    rw [hsol]
  have hsc : (faultNoted s die).scycAt (faultNoted s die).now = s.scycAt s.now := by
    unfold State.scycAt
    rw [hnow, hjob]
  have he : s.solverFault die c false = (match (faultNoted s die).image, c.bind (fun c => (faultNoted s die).slvOn die c) with
    | some f, some j => if (faultNoted s die).scycAt (faultNoted s die).now ≤ hitBy j
        then (faultNoted s die).slvEnd f j 8 ((faultNoted s die).scycAt (faultNoted s die).now - j.start) else faultNoted s die
    | _, _ => faultNoted s die) := by
    unfold State.solverFault
    exact if_neg Bool.false_ne_true
  rw [he, himg', hsc]
  simp only [hon]
  cases hj : c.bind (fun c => s.slvOn die c) with
  | none => exact .inl ⟨rfl, fun j e => absurd e (by simp)⟩
  | some j =>
    dsimp only
    by_cases h : s.scycAt s.now ≤ hitBy j
    · exact .inr ⟨j, rfl, if_pos h⟩
    · refine .inl ⟨if_neg h, fun q hq => ?_⟩
      rw [← Option.some.inj hq]
      exact h

section
variable {s : State} {f : ImageFile} {p : PlanImg} (h : InTick f p s) {at_ die : Nat} (hk : die < 4) (hs : Settled s at_)
include h hk hs

theorem exec_datapathFault (c : Option Nat) (b : Bool) : exec (.solverDatapathFault at_ die c b) s = .next ((s.advance at_).solverFault die c b) :=
  congrArg Host.Outcome.next ((live_runs h.1.1 _).trans (by rw [if_pos hk, upTo_settled _ _ hs]))

theorem fault_corrected (c : Option Nat) : ∃ t, exec (.solverDatapathFault at_ die c true) s = .next t ∧ t.now = max s.now at_ ∧
    Counts (SLV_CNT4_ECC_CORRECTED.die die) 1 s t ∧ OnlyParts [.now, .regs, .cap, .outbox] s t ∧
    OnlyRegs ((SLV_CNT4_ECC_CORRECTED.die die).base :: noteRegs) s t := by
  have hi : Inv (s.advance at_) := h.1.2
  have hcount := counts_fadd hi (SLV_CNT4_ECC_CORRECTED.die die) 1 (die_width die (by decide))
  have hnote : OnlyRegs noteRegs _ _ := only_capFault ((s.advance at_).fadd (SLV_CNT4_ECC_CORRECTED.die die) 1) 0 (fun _ m => m)
  have hp1 := fadd_onlyParts (s.advance at_) (SLV_CNT4_ECC_CORRECTED.die die) 1
  have hp2 := capFault_onlyParts ((s.advance at_).fadd (SLV_CNT4_ECC_CORRECTED.die die) 1) 0
  have hr1 : OnlyRegs ((SLV_CNT4_ECC_CORRECTED.die die).base :: noteRegs) (s.advance at_) ((s.advance at_).fadd (SLV_CNT4_ECC_CORRECTED.die die) 1) :=
    only_fadd _ _ 1 (.head _)
  have hr2 : OnlyRegs ((SLV_CNT4_ECC_CORRECTED.die die).base :: noteRegs) ((s.advance at_).fadd (SLV_CNT4_ECC_CORRECTED.die die) 1) _ :=
    only_capFault _ 0 (fun _ m => .tail _ m)
  refine ⟨_, exec_datapathFault h hk hs c true, ?_⟩
  unfold State.solverFault
  rw [if_pos rfl]
  change _ ∧ _ ∧ _ ∧ _
  refine ⟨?_, ?_, (((advance_onlyParts s at_).mono (by decide)).then hp1 (by decide)).then hp2 (by decide), hr1.trans hr2⟩
  · exact Eq.trans (hp2 .now (by decide)) (hp1 .now (by decide))
  · exact (hnote.fget _ (die_not_note die (by decide))).trans hcount

theorem fault_ends (c : Option Nat) : ∃ t, exec (.solverDatapathFault at_ die c false) s = .next t ∧ t.now = max s.now at_ ∧
    Counts (SLV_CNT3_DATAPATH_FAULTS.die die) 1 s t ∧ t.fbit (SLV_STS_DATAPATH_FAULT.die die) = true ∧ RaisesB s t ∧
    (c = none → t.solver = s.solver) ∧ t.mem = s.mem ∧
    (∀ c1 j, c = some c1 → s.slvOn die c1 = some j → s.scycAt (max s.now at_) ≤ hitBy j → j ∉ t.solver.jobs) := by
  have hi : Inv (s.advance at_) := h.1.2
  obtain ⟨hcount, hsts, hraise, hiu⟩ := faultNoted_stands hi hk
  have hp := faultNoted_onlyParts (s.advance at_) die
  refine ⟨_, exec_datapathFault h hk hs c false, ?_⟩
  have hnow : (faultNoted (s.advance at_) die).now = max s.now at_ := hp .now (by decide)
  have hmem : (faultNoted (s.advance at_) die).mem = s.mem := hp .mem (by decide)
  have hsol : (faultNoted (s.advance at_) die).solver = s.solver := hp .solver (by decide)
  rcases solverFault_noted (s := s.advance at_) h.2.2.1 die c with ⟨he, hnot⟩ | ⟨j, hj, he⟩
  · rw [he]
    refine ⟨hnow, hcount, hsts, hraise, fun _ => hsol, hmem, fun c1 j hc hon hle => ?_⟩
    subst hc
    exact absurd hle (hnot j hon)
  · rw [he]
    generalize faultNoted (s.advance at_) die = u at *
    have hend := slvEnd_stands hiu f j 8 ((s.advance at_).scycAt (s.advance at_).now - j.start)
    generalize u.slvEnd f j 8 ((s.advance at_).scycAt (s.advance at_).now - j.start) = t at *
    obtain ⟨c1, hc, hon⟩ := Option.bind_eq_some_iff.1 hj
    have hdie : slvDie j.ent = die := by
      have := List.find?_some (p := fun j : SlvJob => slvDie j.ent == die && (gang j.ent).contains c1) hon
      exact beq_iff_eq.mp (Bool.and_eq_true_iff.1 this).1
    have hoth := hend.others (by decide)
    rw [hdie] at hoth
    have hcm : SLV_CNT3_DATAPATH_FAULTS.die die ∈ slvFlds die := mem_slvFlds die (f := SLV_CNT3_DATAPATH_FAULTS) (by decide)
    have hsm : SLV_STS_DATAPATH_FAULT.die die ∈ slvFlds die := mem_slvFlds die (f := SLV_STS_DATAPATH_FAULT) (by decide)
    have hlo : SLV_STS_DATAPATH_FAULT.die die ≠ SLV_STS_BYPASS_SET.die die := fun e => by
      have := congrArg Fld.lo e
      rw [die_lo, die_lo] at this
      exact absurd this (by decide)
    refine ⟨Eq.trans (hend.parts .now (by decide)) hnow, ?_, ?_, ?_, fun hn => absurd (hn.symm.trans hc) (by simp),
      Eq.trans (hend.parts .mem (by decide)) hmem, fun c2 q hc2 hon2 _ => ?_⟩
    · unfold Counts at hcount ⊢
      rw [hoth _ ⟨hcm, die_ne die (by decide), die_ne die (by decide)⟩, hcount]
      rfl
    · exact (congrArg (· != 0) (hoth _ ⟨hsm, die_ne die (by decide), hlo⟩)).trans hsts
    · unfold RaisesB at hraise ⊢
      rw [show t.run = u.run from hend.parts .run (by decide)]
      exact hraise
    · obtain rfl : c2 = c1 := Option.some.inj (hc2.symm.trans hc)
      obtain rfl : q = j := Option.some.inj (hon2.symm.trans hon)
      rw [hend.jobs]
      exact fun hm => by simpa using (List.mem_filter.1 hm).2

end

/-! ### The pivot log -/

/-- What CLEAR stores. -/
def pivotCleared (die : Nat) : List (Fld × Nat) :=
  (range' 0 16).map (fun i => ((SLV_PIVOT_LOG.die die).ix i, 0)) ++ [(SLV_PIVOT_PTR_COUNT.die die, 0), (SLV_PIVOT_PTR_LOST.die die, 0)]

theorem pivotCleared_apart : ∀ die < 4, FieldsApart ((pivotCleared die).map Prod.fst) := by
  unfold FieldsApart
  decide +kernel

theorem fsetAll_append : ∀ (l m : List (Fld × Nat)) (s : State), s.fsetAll (l ++ m) = (s.fsetAll l).fsetAll m
  | [], _, _ => rfl
  | q :: l, m, s => fsetAll_append l m (s.fset q.1 q.2)

theorem foldl_fset_eq (g : Nat → Fld) (x : Nat) : ∀ (l : List Nat) (s : State),
    l.foldl (fun s i => s.fset (g i) x) s = s.fsetAll (l.map (fun i => (g i, x)))
  | [], _ => rfl
  | i :: l, s => foldl_fset_eq g x l (s.fset (g i) x)

theorem pivotLogClear_eq (s : State) (die : Nat) : s.pivotLogClear die = s.fsetAll (pivotCleared die) := by
  unfold State.pivotLogClear pivotCleared
  rw [fsetAll_append, ← foldl_fset_eq (fun i => (SLV_PIVOT_LOG.die die).ix i) 0]

theorem pivot_cleared {s : State} (h : Awake s) {die : Nat} (hk : die < 4) :
    ∃ t, exec (.pivotLogClear die) s = .next t ∧ t.fget (SLV_PIVOT_PTR_COUNT.die die) = 0 ∧
      t.fget (SLV_PIVOT_PTR_LOST.die die) = 0 ∧ (∀ i, i < 16 → t.fbit ((SLV_PIVOT_LOG_VALID.die die).ix i) = false) ∧
      OnlyParts [.regs] s t ∧
      OnlyRegs ((SLV_PIVOT_PTR_COUNT.die die).base :: (range' 0 16).map (fun i => ((SLV_PIVOT_LOG.die die).ix i).base)) s t := by
  have hread : ∀ f, (f, 0) ∈ pivotCleared die → (s.fsetAll (pivotCleared die)).fget f = 0 := fun f hf =>
    (fget_fsetAll_mem _ s h.2.1.1 (pivotCleared_apart die hk) hf).trans (Nat.zero_mod _)
  refine ⟨_, congrArg Host.Outcome.next ((live_runs h.1 _).trans (if_pos hk)), ?_⟩
  rw [pivotLogClear_eq]
  refine ⟨hread _ (List.mem_append_right _ (.head _)), hread _ (List.mem_append_right _ (.tail _ (.head _))), fun i hi => ?_,
    fsetAll_onlyParts s _, only_fsetAll _ s (fun q hq => ?_)⟩
  · have hz := hread ((SLV_PIVOT_LOG.die die).ix i) (List.mem_append_left _ (List.mem_map.2 ⟨i, (mem_range' _ _ _).2 (by omega), rfl⟩))
    unfold State.fbit State.fget at *
    have hb : ((SLV_PIVOT_LOG_VALID.die die).ix i).base = ((SLV_PIVOT_LOG.die die).ix i).base := rfl
    rw [hb]
    generalize (s.fsetAll (pivotCleared die)).regGet ((SLV_PIVOT_LOG.die die).ix i).base = r at *
    have hr : r.toNat = 0 := by
      rw [ix_lo, ix_wd, die_lo, die_wd] at hz
      have : getBits r.toNat 0 64 = r.toNat := by
        unfold getBits
        rw [Nat.pow_zero, Nat.div_one]
        exact Nat.mod_eq_of_lt r.isLt
      exact this ▸ hz
    rw [hr]
    unfold getBits
    rw [Nat.zero_div, Nat.zero_mod]
    rfl
  · rcases List.mem_append.1 hq with hq | hq
    · obtain ⟨i, hi, rfl⟩ := List.mem_map.1 hq
      exact .tail _ (List.mem_map.2 ⟨i, hi, rfl⟩)
    · simp only [List.mem_cons, List.not_mem_nil, or_false] at hq
      rcases hq with rfl | rfl
      · exact .head _
      · exact .head _

/-! ### What O42 says -/

/-- Settles O42: the end of a job is taken apart into its count, its record and its carry, and time brings each about once. -/
theorem solverJobsEndWithTheirCarry : Obligations.SolverJobsEndWithTheirCarry := by
  intro s f p h
  refine ⟨fun j c0 d st hon he _ hm hs => ?_, fun j cause x d st hd hj h1 h7 _ he hx => ?_, fun c x hd hk _ => carry_completes h hd hk,
    fun die _ hr hs => sweeps h hr hs, fun at_ die hk => ⟨fun c hs => fault_corrected h hk hs c, fun c hs => ?_, pivot_cleared h.1 hk⟩⟩
  · obtain ⟨t, hexec, hnow, hcount, hsts, hcar, hparts⟩ := deadline_missed h hon he hm hs
    exact ⟨t, hexec, hnow, hcount, hsts, ⟨hcar.carries, hcar.bypass, hcar.ended, hcar.mem⟩, hparts⟩
  · obtain ⟨hcount, hcar, hparts⟩ := ended_itself h hd hj h1 h7 he hx
    exact ⟨hcount, ⟨hcar.carries, hcar.bypass, hcar.ended, hcar.mem⟩, hparts⟩
  · obtain ⟨t, hexec, hnow, hcount, hsts, hraise, hsol, hmem, hout⟩ := fault_ends h hk hs c
    exact ⟨t, hexec, hnow, hcount, hsts, hraise, hsol, hmem, fun c1 j hc hon _ hle => hout c1 j hc hon hle⟩

end Sys2Proof.Laws
end

section
/-! PROOFS. The descriptor read of a solver job, and its start (R239, R240, R255). -/

namespace Sys2Proof.Laws
open Sys2Proof.Machine Sys2Proof.Safety

/-! ### The descriptor read -/

theorem descAt_congr {s t : State} (h : t.mem = s.mem) (a : Nat) : t.descAt a = s.descAt a :=
  congrArg (BitVec.ofNat 512) (rdN_congr (fun b => rd8_congr h b) 64 a)

section
variable {s : State} {f : ImageFile} {p : PlanImg} (h : InTick f p s) {e : BitVec 1024} (hr : s.run.stepRuns = true)
  (hfind : s.slvFind f (slvJob e) = some e)
include h hr hfind

theorem onJob_runs (op : ImageFile → BitVec 1024 → State) : s.onJob (slvJob e) op = op f e := by
  unfold State.onJob
  rw [h.2.2.1]
  dsimp only
  rw [if_pos hr, hfind]

theorem desc_read {d st : TensorEnt} (he : s.slvEnts f e = some (st, d)) (hs : Settled s (s.descReadCycle e)) :
    ∃ t, exec (.solverDescRead (slvJob e)) s = .next t ∧
      t.now = max s.now (s.cycAt (s.scycAt (s.edgeAt + slvStart e) - 363)) ∧
      t.solver.landed = s.solver.landed ++ [(slvTensor e, slvBlock e, s.descAt (s.readBase d + descOff f st (slvBlock e)))] ∧
      t.solver.jobs = s.solver.jobs ∧ OnlyParts [.now, .solver] s t := by
  have hexec : exec (.solverDescRead (slvJob e)) s = .next ((s.advance (s.descReadCycle e)).solverDescRead f e) :=
    congrArg Host.Outcome.next ((live_runs h.1.1 _).trans (by rw [onJob_runs h hr hfind, upTo_settled _ _ hs]))
  have hread : (s.advance (s.descReadCycle e)).solverDescRead f e = (s.advance (s.descReadCycle e)).withSolver (fun x => { x with
      landed := x.landed ++ [(slvTensor e, slvBlock e, s.descAt (s.readBase d + descOff f st (slvBlock e)))] }) := by
    unfold State.solverDescRead
    rw [show (s.advance (s.descReadCycle e)).slvEnts f e = some (st, d) from he]
    dsimp only
    rw [descAt_congr (s := s) (t := s.advance (s.descReadCycle e)) rfl]
    rfl
  refine ⟨_, hexec.trans (congrArg _ hread), rfl, rfl, rfl, ?_⟩
  exact ((advance_onlyParts s _).mono (by decide)).then (withSolver_onlyParts _ _) (by decide)

end

/-! ### A gang that starts -/

/-- What the crackers of a gang show as its job starts. -/
def gangFlds (k c : Nat) : List Fld :=
  [(SLV_CRK_JOB.die k).ix c, (SLV_CRK_ROUND.die k).ix c, (SLV_CRK_STAGE.die k).ix c, (SLV_CRK_ITER.die k).ix c, (SLV_CRK_GANG.die k).ix c,
   (SLV_CRK_LEAD.die k).ix c]

def gangStart (e : BitVec 1024) (c : Nat) : List (Fld × Nat) :=
  let k := slvDie e
  [((SLV_CRK_JOB.die k).ix c, slvJob e), ((SLV_CRK_ROUND.die k).ix c, slvRound e), ((SLV_CRK_STAGE.die k).ix c, 1), ((SLV_CRK_ITER.die k).ix c, 0),
   ((SLV_CRK_GANG.die k).ix c, slvGangLog e), ((SLV_CRK_LEAD.die k).ix c, if c == slvC0 e then 1 else 0)]

theorem foldl_fsetAll (g : Nat → List (Fld × Nat)) : ∀ (l : List Nat) (s : State),
    l.foldl (fun s c => s.fsetAll (g c)) s = s.fsetAll (l.flatMap g)
  | [], _ => rfl
  | c :: l, s => by rw [List.flatMap_cons, fsetAll_append]; exact foldl_fsetAll g l _

theorem range'_eq : ∀ (lo n : Nat), range' lo n = List.range' lo n
  | _, 0 => rfl
  | lo, n + 1 => congrArg (lo :: ·) (range'_eq (lo + 1) n)

theorem gangFlds_apart : ∀ k < 4, FieldsApart ((range' 0 8).flatMap (gangFlds k)) := by
  unfold FieldsApart
  decide +kernel

theorem FieldsApart.sublist {l m : List Fld} (h : FieldsApart m) (hs : l.Sublist m) : FieldsApart l :=
  ⟨fun f hf => h.1 f (hs.subset hf), h.2.sublist hs⟩

/-- The gang's crackers are among the eight of the die. -/
theorem gang_apart {e : BitVec 1024} (h : slvC0 e + slvGang e ≤ 8) : FieldsApart (((gang e).flatMap (gangStart e)).map Prod.fst) := by
  refine (gangFlds_apart _ (slvDie_lt e)).sublist ?_
  have hall : range' 0 8 = range' 0 (slvC0 e) ++ (gang e ++ range' (slvC0 e + slvGang e) (8 - (slvC0 e + slvGang e))) := by
    unfold gang
    simp only [range'_eq]
    have h1 := List.range'_append_1 (s := slvC0 e) (m := slvGang e) (n := 8 - (slvC0 e + slvGang e))
    have h2 := List.range'_append_1 (s := 0) (m := slvC0 e) (n := slvGang e + (8 - (slvC0 e + slvGang e)))
    rw [Nat.zero_add] at h2
    rw [h1, h2]
    congr 1
    omega
  rw [hall, List.flatMap_append, List.flatMap_append, List.map_flatMap]
  exact (List.sublist_append_left _ _).trans (List.sublist_append_right _ _)

/-- The gang shows its job. -/
def gangShown (s : State) (e : BitVec 1024) : State := (gang e).foldl (fun s c => s.fsetAll (gangStart e c)) s

theorem gangShown_reads {s : State} (hi : Inv s) {e : BitVec 1024} (h : slvC0 e + slvGang e ≤ 8) {c : Nat} (hc : c ∈ gang e) {g : Fld} {x : Nat}
    (hm : (g, x) ∈ gangStart e c) : (gangShown s e).fget g = x % 2 ^ g.wd := by
  unfold gangShown
  rw [foldl_fsetAll]
  exact fget_fsetAll_mem _ s hi.1.1 (gang_apart h) (List.mem_flatMap.2 ⟨c, hc, hm⟩)

theorem gangShown_beside (s : State) (e : BitVec 1024) : Beside (SlvFld (slvDie e)) [.regs] s (gangShown s e) := by
  refine .foldl (fun v c _ => beside_fsetAll v _ ?_) s
  have h := fun (f : Fld) (hf : f.base = SLV_CRK_STAGE.base) (hw : f.lo + f.wd ≤ 64) => crk_apart (slvDie_lt e) hf hw c
  unfold gangStart
  simp only [List.forall_mem_cons, List.not_mem_nil, false_implies, implies_true, and_true]
  exact ⟨h SLV_CRK_JOB rfl (by decide), h SLV_CRK_ROUND rfl (by decide), h SLV_CRK_STAGE rfl (by decide), h SLV_CRK_ITER rfl (by decide),
    h SLV_CRK_GANG rfl (by decide), h SLV_CRK_LEAD rfl (by decide)⟩

end Sys2Proof.Laws
end

section
/-! PROOFS. A solver job that starts, and one whose window is below its budget (R239, R240, R255, R262). -/

namespace Sys2Proof.Laws
open Sys2Proof.Machine Sys2Proof.Safety

/-! ### The job that starts -/

/-- The descriptor that a job takes as it starts: the landed one, or that in memory. -/
def startPrev (s : State) (e : BitVec 1024) (a : Nat) : BitVec 512 :=
  match s.solver.landed.find? (fun l => l.1 == slvTensor e && l.2.1 == slvBlock e) with
  | some l => l.2.2
  | none => s.descAt a

/-- The course of a job from its start. -/
def startCourse (s : State) (f : ImageFile) (e : BitVec 1024) (t : TensorEnt) (start dead : Nat) (prev : BitVec 512) : SlvOut :=
  slvCourse e (dead - start) ((dscState prev == 1 && dscUhash prev == slvUhash e) && dscShash prev == slvShash e)
    (fun i j => f32 (s.rdN (s.readBase t + 4 * 2 ^ t.block * 2 ^ t.block * (slvBlock e - firstBlock f t) + 4 * (i * slvN e + j)) 4))
    (fun i j => bp32Val (s.rdN (dscBufAddr prev (dscBuf prev) + 4 * (i * slvN e + j)) 4))

def startedJob (s : State) (f : ImageFile) (e : BitVec 1024) (t : TensorEnt) (start dead : Nat) (prev : BitVec 512) : SlvJob :=
  { ent := e, start := start, deadline := dead, prev := prev, out := startCourse s f e t start dead prev }

/-- The job joins the solver and takes its landed descriptor. -/
def startTaken (s : State) (j : SlvJob) : State := s.withSolver (fun x =>
  { x with landed := x.landed.filter (fun l => !(l.1 == slvTensor j.ent && l.2.1 == slvBlock j.ent)), jobs := x.jobs ++ [j] })

/-- It is counted, and its gang shows it. -/
def jobStarted (s : State) (j : SlvJob) : State := gangShown ((startTaken s j).fadd (SLV_CNT0_STARTED.die (slvDie j.ent)) 1) j.ent

theorem solverStart_eq {s : State} {f : ImageFile} {e : BitVec 1024} {d st : TensorEnt} (hg : s.gangJobs e = [])
    (he : s.slvEnts f e = some (st, d)) : s.solverStart f e = jobStarted s (startedJob s f e st (s.scycAt (s.edgeAt + slvStart e))
      (s.scycAt (s.edgeAt + slvDeadline e)) (startPrev s e (s.readBase d + descOff f st (slvBlock e)))) := by
  have hfold : (((s.gangJobs e).filter (fun j => decide (j.deadline < s.scycAt (s.edgeAt + slvStart e)))).foldl
      (fun s j => s.slvExpire f j) s) = s := by rw [hg]; rfl
  unfold State.solverStart
  dsimp only
  rw [hfold, he]
  dsimp only
  rw [hg, if_neg (by simp)]
  rfl

/-- A job that needs the cold setup and whose window is below its budget does not start. -/
theorem slvCourse_short {e : BitVec 1024} {window : Nat} {warmable : Bool} (hk : slvKind e ≠ 2) (hw : slvCold e = true ∨ warmable = false)
    (hb : window < coldBudget e) (x y : Nat → Nat → FVal) : slvCourse e window warmable x y = ({} : SlvTr).stop 7 := by
  have hinv : (slvKind e == 2) = false := beq_eq_false_iff_ne.mpr hk
  have hwarm : (!(slvKind e == 2) && warmable && !slvCold e) = false := by
    rcases hw with h | h <;> rw [h] <;> simp
  have hcond : (!(slvKind e == 2) && !(!(slvKind e == 2) && warmable && !slvCold e) && decide (window < coldBudget e)) = true := by
    rw [hwarm, hinv]
    simpa using hb
  exact if_pos hcond

/-! ### What the start leaves -/

section
variable {s : State} (j : SlvJob)

theorem startTaken_onlyParts : OnlyParts [.solver] s (startTaken s j) := withSolver_onlyParts s _

theorem jobStarted_onlyParts : OnlyParts [.regs, .solver] s (jobStarted s j) :=
  (((startTaken_onlyParts j).mono (by decide)).then (fadd_onlyParts _ _ 1) (by decide)).then (gangShown_beside _ _).parts (by decide)

theorem jobStarted_solver : (jobStarted s j).solver = { s.solver with
    landed := s.solver.landed.filter (fun l => !(l.1 == slvTensor j.ent && l.2.1 == slvBlock j.ent)), jobs := s.solver.jobs ++ [j] } := by
  have h : (jobStarted s j).solver = ((startTaken s j).fadd (SLV_CNT0_STARTED.die (slvDie j.ent)) 1).solver :=
    (gangShown_beside _ j.ent).parts .solver (by decide)
  rw [h, fadd_onlyParts _ _ 1 .solver (by decide)]
  rfl

theorem jobStarted_regs : RegsWithin slvKey s (jobStarted s j) := by
  refine (RegsWithin.of_parts (startTaken_onlyParts (s := s) j) (by decide)).trans
    ((slvWithin_fadd _ 1 (slvKey_die (f := SLV_CNT0_STARTED) _ (by decide))).trans (slvWithin_foldl (fun v c => slvWithin_fsetAll _ _ ?_) _ _))
  unfold gangStart
  simp only [List.forall_mem_cons, List.not_mem_nil, false_implies, implies_true, and_true]
  exact ⟨slvKey_crk _ c (by decide), slvKey_crk _ c (by decide), slvKey_crk _ c (by decide), slvKey_crk _ c (by decide),
    slvKey_crk _ c (by decide), slvKey_crk _ c (by decide)⟩

variable (hi : Inv s)
include hi

theorem jobStarted_counts : Counts (SLV_CNT0_STARTED.die (slvDie j.ent)) 1 s (jobStarted s j) ∧
    (∀ g ∈ slvFlds (slvDie j.ent), g ≠ SLV_CNT0_STARTED.die (slvDie j.ent) → (jobStarted s j).fget g = s.fget g) ∧ Inv (jobStarted s j) := by
  have hm : SLV_CNT0_STARTED.die (slvDie j.ent) ∈ slvFlds (slvDie j.ent) := mem_slvFlds _ (f := SLV_CNT0_STARTED) (by decide)
  obtain ⟨hw, ha⟩ := slvFlds_apart _ (slvDie_lt j.ent) _ hm
  have hit : Inv (startTaken s j) := (withSolver_keeps s _ (.refl s)).inv hi
  have hreg : (startTaken s j).regs = s.regs := rfl
  have hcount := counts_fadd hit (SLV_CNT0_STARTED.die (slvDie j.ent)) 1 hw
  have hadd : Beside (fun g => g ∈ slvFlds (slvDie j.ent) ∧ g ≠ SLV_CNT0_STARTED.die (slvDie j.ent)) [.regs] (startTaken s j) _ :=
    beside_fadd (startTaken s j) (SLV_CNT0_STARTED.die (slvDie j.ent)) 1 ⟨hw, fun g hg => ha g hg.1 hg.2⟩
  unfold jobStarted
  generalize startTaken s j = v at *
  generalize v.fadd (SLV_CNT0_STARTED.die (slvDie j.ent)) 1 = u at *
  have hiu := hadd.keeps.inv hit
  have hgang := gangShown_beside u j.ent
  refine ⟨?_, fun g hg hne => ?_, hgang.keeps.inv hiu⟩
  · unfold Counts at hcount ⊢
    rw [hgang.flds hiu _ hm, hcount, fget_congr hreg]
  · rw [hgang.flds hiu _ hg, hadd.flds hit _ ⟨hg, hne⟩, fget_congr hreg]

theorem jobStarted_shows (h : slvC0 j.ent + slvGang j.ent ≤ 8) {c : Nat} (hc : c ∈ gang j.ent) {g : Fld} {x : Nat}
    (hm : (g, x) ∈ gangStart j.ent c) : (jobStarted s j).fget g = x % 2 ^ g.wd :=
  gangShown_reads ((fadd_keeps _ _ 1 (withSolver_keeps s _ (.refl s))).inv hi) h hc hm

end

theorem slvJob_lt (e : BitVec 1024) : slvJob e < 2 ^ 12 := Nat.mod_lt _ (by decide)

/-- The crackers of the gang show the job, its first stage, and which of them leads. -/
theorem gang_shows {s : State} (hi : Inv s) (j : SlvJob) (h : slvC0 j.ent + slvGang j.ent ≤ 8) {c : Nat} (hc : c ∈ gang j.ent) :
    (jobStarted s j).fget ((SLV_CRK_JOB.die (slvDie j.ent)).ix c) = slvJob j.ent ∧ (jobStarted s j).fget ((SLV_CRK_STAGE.die (slvDie j.ent)).ix c) = 1 ∧
      (jobStarted s j).fbit ((SLV_CRK_LEAD.die (slvDie j.ent)).ix c) = decide (c = slvC0 j.ent) := by
  refine ⟨?_, ?_, ?_⟩
  · rw [jobStarted_shows j hi h hc (x := slvJob j.ent) (.head _), ix_wd, die_wd]
    exact Nat.mod_eq_of_lt (slvJob_lt j.ent)
  · rw [jobStarted_shows j hi h hc (x := 1) (.tail _ (.tail _ (.head _))), ix_wd, die_wd]
    rfl
  · unfold State.fbit
    rw [jobStarted_shows j hi h hc (x := if c == slvC0 j.ent then 1 else 0) (.tail _ (.tail _ (.tail _ (.tail _ (.tail _ (.head _)))))), ix_wd, die_wd]
    by_cases hl : c = slvC0 j.ent
    · rw [if_pos (beq_iff_eq.mpr hl), decide_eq_true hl]
      rfl
    · rw [if_neg (by simpa using hl), decide_eq_false hl]
      rfl

end Sys2Proof.Laws
end

section
/-! PROOFS. The start edge of a solver job (R239, R240, R255, R262). -/

namespace Sys2Proof.Laws
open Sys2Proof.Machine Sys2Proof.Safety

/-! ### What is due once a job has joined -/

/-- What is due of a job that has joined a solver of which nothing is due. -/
theorem dueBy_joined {s u : State} {j : SlvJob} {c : Nat} (hs : Settled s c) (ht : SameTimes s u) (hregs : SameLinkRegs s u)
    (hp : OnlyParts [.now, .regs, .solver] s u) (hj : u.solver.jobs = s.solver.jobs ++ [j]) (hc : u.solver.carries = s.solver.carries) :
    u.dueBy c = (s.jobDues j).filter (fun d => decide (d.1 ≤ c)) := by
  have htil : u.tiles = s.tiles := hp .tiles (by decide)
  have hhub : u.hub = s.hub := hp .hub (by decide)
  have hrun : u.run = s.run := hp .run (by decide)
  have hlinks : linkDues u = linkDues s := linkDues_congr (hp .links (by decide)) hregs
  have hjd : ∀ q, u.jobDues q = s.jobDues q := jobDues_congr ht.edge
  have hs' : (s.tiles.flights.map (fun f => (s.flightDue f, Due.flight f)) ++ s.solver.jobs.flatMap (fun j => s.jobDues j) ++
    s.solver.carries.map (fun c => (s.cycAt c.at_, Due.carry c)) ++ s.hub.writes.map (fun w => (w.due, Due.write w)) ++
    linkDues s ++ s.run.treeDue.map (fun x => (x.1, Due.tree x))).filter (fun d => decide (d.1 ≤ c)) = [] := hs
  change (u.tiles.flights.map (fun f => (u.flightDue f, Due.flight f)) ++ u.solver.jobs.flatMap (fun j => u.jobDues j) ++
    u.solver.carries.map (fun c => (u.cycAt c.at_, Due.carry c)) ++ u.hub.writes.map (fun w => (w.due, Due.write w)) ++
    linkDues u ++ u.run.treeDue.map (fun x => (x.1, Due.tree x))).filter (fun d => decide (d.1 ≤ c)) = _
  rw [htil, hhub, hrun, hlinks, hj, hc]
  simp only [ht.flight, hjd, ht.cycAt, List.filter_append, List.append_eq_nil_iff, List.flatMap_append, List.flatMap_cons, List.flatMap_nil] at hs' ⊢
  obtain ⟨⟨⟨⟨⟨h1, h2⟩, h3⟩, h4⟩, h5⟩, h6⟩ := hs'
  rw [h1, h2, h3, h4, h5, h6]
  simp

/-! ### The start -/

theorem gang_nonempty (e : BitVec 1024) : slvC0 e ∈ gang e :=
  (mem_range' _ _ _).2 ⟨Nat.le_refl _, Nat.lt_add_of_pos_right (Nat.two_pow_pos _)⟩

/-- On a free gang no job of the entry is under way. -/
theorem ent_free {s : State} {e : BitVec 1024} (hg : s.gangJobs e = []) : ∀ q ∈ s.solver.jobs, q.ent ≠ e := by
  intro q hq he
  refine List.filter_eq_nil_iff.1 hg q hq ?_
  rw [he, beq_self_eq_true, Bool.true_and]
  exact List.any_eq_true.2 ⟨slvC0 e, gang_nonempty e, List.contains_iff_mem.2 (gang_nonempty e)⟩

section
variable {s : State} {f : ImageFile} {p : PlanImg} (h : InTick f p s) {e : BitVec 1024} (hr : s.run.stepRuns = true)
  (hfind : s.slvFind f (slvJob e) = some e) {d st : TensorEnt} (he : s.slvEnts f e = some (st, d)) (hs : Settled s (s.startCycle e))
  (hg : s.gangJobs e = [])

/-- The job that starts on the job's start edge. -/
def jobAtStart (s : State) (f : ImageFile) (e : BitVec 1024) (d st : TensorEnt) : SlvJob :=
  startedJob (s.advance (s.startCycle e)) f e st (s.scycAt (s.edgeAt + slvStart e)) (s.scycAt (s.edgeAt + slvDeadline e))
    (startPrev (s.advance (s.startCycle e)) e (s.readBase d + descOff f st (slvBlock e)))

theorem startPrev_advance (s : State) (c : Nat) (e : BitVec 1024) (a : Nat) : startPrev (s.advance c) e a = startPrev s e a := by
  unfold startPrev
  rw [descAt_congr (s := s) (t := s.advance c) rfl]
  rfl

theorem jobAtStart_prev (s : State) (f : ImageFile) (e : BitVec 1024) (d st : TensorEnt) :
    (jobAtStart s f e d st).prev = startPrev s e (s.readBase d + descOff f st (slvBlock e)) := startPrev_advance ..

include h hr hfind he hs hg in
theorem exec_jobStart : exec (.solverJobStart (slvJob e)) s =
    .next ((jobStarted (s.advance (s.startCycle e)) (jobAtStart s f e d st)).upTo (s.startCycle e)) :=
  congrArg Host.Outcome.next ((live_runs h.1.1 _).trans (by
    rw [onJob_runs h hr hfind, upTo_settled _ _ hs, solverStart_eq (s := s.advance (s.startCycle e)) hg he]
    rfl))

theorem jobAtStart_short (hk : slvKind e ≠ 2)
    (hw : slvCold e = true ∨ dscState (jobAtStart s f e d st).prev ≠ 1 ∨ dscUhash (jobAtStart s f e d st).prev ≠ slvUhash e ∨
      dscShash (jobAtStart s f e d st).prev ≠ slvShash e)
    (hb : s.scycAt (s.edgeAt + slvDeadline e) - s.scycAt (s.edgeAt + slvStart e) < coldBudget e) :
    (jobAtStart s f e d st).out = ({} : SlvTr).stop 7 := by
  refine slvCourse_short hk ?_ hb _ _
  rcases hw with hw | hw | hw | hw
  · exact .inl hw
  all_goals
    refine .inr ?_
    have hne := beq_eq_false_iff_ne.mpr hw
    simp only [jobAtStart, startedJob] at hne
    rw [hne]
    simp

theorem started_onlyParts : OnlyParts [.now, .regs, .solver] s (jobStarted (s.advance (s.startCycle e)) (jobAtStart s f e d st)) :=
  ((advance_onlyParts s _).mono (by decide)).then (jobStarted_onlyParts _) (by decide)

include h hr hfind he hs hg in
/-- What the start edge leaves before what ends the job on it. -/
theorem job_starts (hgang : slvC0 e + slvGang e ≤ 8) :
    let prev := startPrev s e (s.readBase d + descOff f st (slvBlock e))
    ∃ u j, exec (.solverJobStart (slvJob e)) s = .next (u.upTo (s.startCycle e)) ∧
      u.now = max s.now (s.cycAt (s.scycAt (s.edgeAt + slvStart e))) ∧ Counts (SLV_CNT0_STARTED.die (slvDie e)) 1 s u ∧
      u.solver.jobs = s.solver.jobs ++ [j] ∧ j.ent = e ∧ j.start = s.scycAt (s.edgeAt + slvStart e) ∧
      j.deadline = s.scycAt (s.edgeAt + slvDeadline e) ∧ j.prev = prev ∧
      (slvKind e ≠ 2 → slvCold e = true ∨ dscState prev ≠ 1 ∨ dscUhash prev ≠ slvUhash e ∨ dscShash prev ≠ slvShash e →
        s.scycAt (s.edgeAt + slvDeadline e) - s.scycAt (s.edgeAt + slvStart e) < coldBudget e → j.out.cause = some 7 ∧ j.out.off = 0) ∧
      (∀ l ∈ u.solver.landed, l ∈ s.solver.landed ∧ (l.1, l.2.1) ≠ (slvTensor e, slvBlock e)) ∧
      (∀ c ∈ gang e, u.fget ((SLV_CRK_JOB.die (slvDie e)).ix c) = slvJob e ∧ u.fget ((SLV_CRK_STAGE.die (slvDie e)).ix c) = 1 ∧
        u.fbit ((SLV_CRK_LEAD.die (slvDie e)).ix c) = decide (c = slvC0 e)) ∧
      OnlyParts [.now, .regs, .solver] s u := by
  intro prev
  have hi : Inv (s.advance (s.startCycle e)) := h.1.2
  have hsol := jobStarted_solver (s := s.advance (s.startCycle e)) (jobAtStart s f e d st)
  have hnow := jobStarted_onlyParts (s := s.advance (s.startCycle e)) (jobAtStart s f e d st) .now (by decide)
  have hcount := (jobStarted_counts (jobAtStart s f e d st) hi).1
  have hshow := fun c hc => gang_shows hi (jobAtStart s f e d st) hgang (c := c) hc
  have hshort := fun hk hw hb => jobAtStart_short (s := s) (f := f) (e := e) (d := d) (st := st) hk hw hb
  have hprev := jobAtStart_prev s f e d st
  refine ⟨_, jobAtStart s f e d st, exec_jobStart h hr hfind he hs hg, hnow, hcount, ?_, rfl, rfl, rfl, hprev, fun hk hw hb => ?_, fun l hl => ?_,
    hshow, started_onlyParts⟩
  · rw [hsol]
    rfl
  · rw [← show (jobAtStart s f e d st).prev = prev from hprev] at hw
    rw [hshort hk hw hb]
    exact ⟨rfl, rfl⟩
  · rw [hsol] at hl
    obtain ⟨hm, hne⟩ := List.mem_filter.1 hl
    refine ⟨hm, fun e' => ?_⟩
    obtain ⟨e1, e2⟩ := Prod.mk.inj e'
    rw [e1, e2] at hne
    revert hne
    change ¬ (!(slvTensor e == slvTensor e && slvBlock e == slvBlock e)) = true
    rw [beq_self_eq_true, beq_self_eq_true]
    decide

/-- The scyc after the 40 of a carry comes on a later cycle. -/
theorem cycAt_carry (s : State) (sc : Nat) : s.cycAt sc < s.cycAt (sc + 40) := by
  unfold State.cycAt ceilDiv
  omega

include h hr hfind he hs hg in
/-- A job that needs the cold setup in too short a window ends on its start edge. -/
theorem job_not_started (hk : slvKind e ≠ 2) (hcold : slvCold e = true)
    (hle : s.scycAt (s.edgeAt + slvStart e) ≤ s.scycAt (s.edgeAt + slvDeadline e))
    (hb : s.scycAt (s.edgeAt + slvDeadline e) - s.scycAt (s.edgeAt + slvStart e) < coldBudget e) :
    ∃ t, exec (.solverJobStart (slvJob e)) s = .next t ∧ Counts (SLV_CNT1_NOT_STARTED.die (slvDie e)) 1 s t ∧
      t.fbit (SLV_STS_NOT_STARTED.die (slvDie e)) = true ∧ (∀ j ∈ t.solver.jobs, j ∈ s.solver.jobs) ∧ t.mem = s.mem := by
  have hi : Inv (s.advance (s.startCycle e)) := h.1.2
  refine ⟨_, exec_jobStart h hr hfind he hs hg, ?_⟩
  have hout := jobAtStart_short (s := s) (f := f) (d := d) (st := st) hk (.inl hcold) hb
  have hent : (jobAtStart s f e d st).ent = e := rfl
  have hat : (jobAtStart s f e d st).start = s.scycAt (s.edgeAt + slvStart e) := rfl
  have hdead : (jobAtStart s f e d st).deadline = s.scycAt (s.edgeAt + slvDeadline e) := rfl
  have hp := started_onlyParts (s := s) (f := f) (e := e) (d := d) (st := st)
  have hsol := jobStarted_solver (s := s.advance (s.startCycle e)) (jobAtStart s f e d st)
  have hregs := jobStarted_regs (s := s.advance (s.startCycle e)) (jobAtStart s f e d st)
  obtain ⟨-, hflds, hiu⟩ := jobStarted_counts (jobAtStart s f e d st) hi
  generalize jobAtStart s f e d st = j at *
  subst hent
  generalize jobStarted (s.advance (s.startCycle j.ent)) j = u at *
  have hjobs : u.solver.jobs = s.solver.jobs ++ [j] := by rw [hsol]; rfl
  have hcars : u.solver.carries = s.solver.carries := by rw [hsol]; rfl
  have hlink : SameLinkRegs s u := RegsWithin.slvLinks (s := s) hregs (hp .edgeAt (by decide))
  have hjob : u.job = s.job := hp .job (by decide)
  have ht : SameTimes s u := .of_tiles (hp .tiles (by decide)) (by rw [hjob]) hlink
  have hend : s.jobDues j = [(s.startCycle j.ent, .slvEnd j 7)] := by
    unfold State.jobDues
    rw [hout]
    change [] ++ (if j.start + 0 ≤ j.deadline then [(s.cycAt (j.start + 0), Due.slvEnd j 7)] else []) = _
    rw [if_pos (by rw [hat, hdead]; exact hle), hat]
    rfl
  have hdue : u.dueBy (s.startCycle j.ent) = [(s.startCycle j.ent, .slvEnd j 7)] := by
    rw [dueBy_joined hs ht hlink hp hjobs hcars, hend]
    exact List.filter_cons_of_pos (decide_eq_true (Nat.le_refl _))
  have hfree : s.solver.jobs.find? (fun q => q.ent == j.ent) = none :=
    List.find?_eq_none.2 (fun q hq => by simpa using ent_free hg q hq)
  have hfound : u.solver.jobs.find? (fun q => q.ent == j.ent) = some j := by
    rw [hjobs, List.find?_append, hfree, Option.none_or]
    exact List.find?_cons_of_pos (p := fun q : SlvJob => q.ent == j.ent) (beq_self_eq_true j.ent)
  have himg : u.image = some f := (image_congr (congrArg (·.ctx) hjob) (hp .ctxs (by decide))).trans h.2.2.1
  have hlater : s.startCycle j.ent < u.cycAt (j.start + j.out.off + 40) := by
    rw [ht.cycAt, hat, hout]
    exact cycAt_carry s _
  rw [upTo_slvEnd himg hdue hfound (by decide) hlater]
  have hended := slvEnd_stands (s := u.advance (s.startCycle j.ent)) hiu f j 7 j.out.off
  obtain ⟨hcount, hsts⟩ := hended.counted (by decide)
  have hleft := hended.jobs
  have hmem := hended.parts .mem (by decide)
  generalize (u.advance (s.startCycle j.ent)).slvEnd f j 7 j.out.off = t at *
  refine ⟨?_, hsts, fun q hq => ?_, Eq.trans hmem (hp .mem (by decide))⟩
  · have hcm : SLV_CNT1_NOT_STARTED.die (slvDie j.ent) ∈ slvFlds (slvDie j.ent) := mem_slvFlds _ (f := SLV_CNT1_NOT_STARTED) (by decide)
    have hstand := hflds _ hcm (die_ne _ (by decide))
    have hcount' : t.fget (SLV_CNT1_NOT_STARTED.die (slvDie j.ent)) = min (u.fget (SLV_CNT1_NOT_STARTED.die (slvDie j.ent)) + 1) _ := hcount
    rw [hstand] at hcount'
    exact hcount'
  · have hq' : q ∈ u.solver.jobs.filter (fun q => q.ent != j.ent) := hleft ▸ hq
    obtain ⟨hm, hne⟩ := List.mem_filter.1 hq'
    rw [hjobs] at hm
    rcases List.mem_append.1 hm with hm | hm
    · exact hm
    · rw [List.mem_singleton.1 hm] at hne
      exact absurd hne (by simp)

end

end Sys2Proof.Laws
end

section
/-! PROOFS. The memory that a publish writes: the result and its descriptor (R258, R259). -/

namespace Sys2Proof.Laws
open Sys2Proof.Machine Sys2Proof.Safety

/-! ### The result -/

/-- What one element of a result is stored as. -/
def pubWord (ex q : Int) : Nat := (renormVal (sq64Val q ex)).bits

theorem pubElems_cons (s : State) (ex : Int) (a : Nat) (q : Int) (r : List Int) (x y : Nat) :
    ∃ x' y', s.pubElems ex a (q :: r) x y = (s.wrN a 4 (pubWord ex q)).pubElems ex (a + 4) r x' y' := ⟨_, _, rfl⟩

theorem pubElems_onlyParts (ex : Int) : ∀ (l : List Int) (s : State) (a x y : Nat), OnlyParts [.mem] s (s.pubElems ex a l x y).1
  | [], s, _, _, _ => .refl _ s
  | q :: l, s, a, x, y => by
    obtain ⟨x', y', he⟩ := pubElems_cons s ex a q l x y
    rw [he]
    exact (wrN_onlyParts s 4 a _).trans (pubElems_onlyParts ex l _ (a + 4) x' y')

theorem pubElems_wf (ex : Int) : ∀ (l : List Int) (s : State) (a x y : Nat), tabWf memDefault s.mem = true →
    tabWf memDefault (s.pubElems ex a l x y).1.mem = true
  | [], _, _, _, _, h => h
  | q :: l, s, a, x, y, h => by
    obtain ⟨x', y', he⟩ := pubElems_cons s ex a q l x y
    rw [he]
    exact pubElems_wf ex l _ (a + 4) x' y' (wf_wrN 4 s a _ h)

/-- Nothing outside the elements' place is written. -/
theorem pubElems_out (ex : Int) : ∀ (l : List Int) (s : State) (a x y b : Nat), (b < a ∨ a + 4 * l.length ≤ b) →
    (s.pubElems ex a l x y).1.rd8 b = s.rd8 b
  | [], _, _, _, _, _, _ => rfl
  | q :: l, s, a, x, y, b, h => by
    obtain ⟨x', y', he⟩ := pubElems_cons s ex a q l x y
    rw [List.length_cons] at h
    rw [he, pubElems_out ex l _ (a + 4) x' y' b (by omega)]
    exact wrN_onlyBytes s a 4 a 4 _ (Nat.le_refl _) (Nat.le_refl _) b (by omega)

/-- Each element stands in its place. -/
theorem pubElems_reads (ex : Int) {l : List Int} {s : State} {a x y i : Nat} (h : tabWf memDefault s.mem = true) (hi : i < l.length) :
    (s.pubElems ex a l x y).1.rdN (a + 4 * i) 4 = pubWord ex (l.getD i 0) % 256 ^ 4 := by
  induction l generalizing s a x y i with
  | nil => exact absurd hi (Nat.not_lt_zero i)
  | cons q l ih =>
    obtain ⟨x', y', he⟩ := pubElems_cons s ex a q l x y
    rw [he]
    have hwf := wf_wrN 4 s a (pubWord ex q) h
    have hread := rdN_wrN 4 s a (pubWord ex q) h
    generalize s.wrN a 4 (pubWord ex q) = u at *
    cases i with
    | zero =>
      rw [Nat.mul_zero, Nat.add_zero, List.getD_cons_zero]
      exact (rdN_congr_range 4 a (fun b h1 h2 => pubElems_out ex l u (a + 4) x' y' b (by omega))).trans hread
    | succ i =>
      rw [List.getD_cons_succ, show a + 4 * (i + 1) = a + 4 + 4 * i by omega]
      rw [List.length_cons] at hi
      exact ih hwf (by omega)

/-! ### The descriptor -/

/-- The seven writes of a descriptor. -/
def descWritten (s : State) (a w0 w1 w2 w3 w4 w5 : Nat) : State :=
  ((((((s.wrN a 8 w0).wrN (a + 8) 8 w1).wrN (a + 16) 8 w2).wrN (a + 24) 8 w3).wrN (a + 32) 8 w4).wrN (a + 40) 8 w5).wrN (a + 48) 16 0

section
variable (s : State) (a w0 w1 w2 w3 w4 w5 : Nat)

theorem descWritten_onlyParts : OnlyParts [.mem] s (descWritten s a w0 w1 w2 w3 w4 w5) := by
  unfold descWritten
  exact (((((((wrN_onlyParts s _ _ _).trans (wrN_onlyParts _ _ _ _)).trans (wrN_onlyParts _ _ _ _)).trans (wrN_onlyParts _ _ _ _)).trans
    (wrN_onlyParts _ _ _ _)).trans (wrN_onlyParts _ _ _ _)).trans (wrN_onlyParts _ _ _ _))

/-- Nothing outside the descriptor is written. -/
theorem descWritten_out : OnlyBytes a 64 s (descWritten s a w0 w1 w2 w3 w4 w5) := by
  have hw : ∀ (u : State) (k n v : Nat), k + n ≤ 64 → OnlyBytes a 64 u (u.wrN (a + k) n v) := fun u k n v h =>
    wrN_onlyBytes u (a + k) n a 64 v (by omega) (by omega)
  intro b hb
  unfold descWritten
  rw [hw _ 48 16 _ (by omega) b hb, hw _ 40 8 _ (by omega) b hb, hw _ 32 8 _ (by omega) b hb, hw _ 24 8 _ (by omega) b hb,
    hw _ 16 8 _ (by omega) b hb, hw _ 8 8 _ (by omega) b hb]
  exact hw s 0 8 w0 (by omega) b hb

/-- Each of its words reads back. -/
theorem descWritten_reads (h : tabWf memDefault s.mem = true) :
    let t := descWritten s a w0 w1 w2 w3 w4 w5
    t.rdN a 8 = w0 % 256 ^ 8 ∧ t.rdN (a + 8) 8 = w1 % 256 ^ 8 ∧ t.rdN (a + 16) 8 = w2 % 256 ^ 8 ∧ t.rdN (a + 32) 8 = w4 % 256 ^ 8 ∧
      t.rdN (a + 40) 8 = w5 % 256 ^ 8 ∧ t.rdN (a + 48) 16 = 0 := by
  intro t
  have h1 := wf_wrN 8 s a w0 h
  have h2 := wf_wrN 8 _ (a + 8) w1 h1
  have h3 := wf_wrN 8 _ (a + 16) w2 h2
  have h4 := wf_wrN 8 _ (a + 24) w3 h3
  have h5 := wf_wrN 8 _ (a + 32) w4 h4
  have h6 := wf_wrN 8 _ (a + 40) w5 h5
  have e1 := rdN_wrN 8 s a w0 h
  have e2 := rdN_wrN 8 _ (a + 8) w1 h1
  have e3 := rdN_wrN 8 _ (a + 16) w2 h2
  have e5 := rdN_wrN 8 _ (a + 32) w4 h4
  have e6 := rdN_wrN 8 _ (a + 40) w5 h5
  have e7 := rdN_wrN 16 _ (a + 48) 0 h6
  have hap : ∀ (u : State) (x n y m v : Nat), x + n ≤ y → (u.wrN y m v).rdN x n = u.rdN x n := fun u x n y m v hxy =>
    rdN_wrN_apart u x y n m v (.inl hxy)
  refine ⟨?_, ?_, ?_, ?_, ?_, e7⟩ <;> change (descWritten s a w0 w1 w2 w3 w4 w5).rdN _ _ = _ <;> unfold descWritten
  · rw [hap _ _ _ _ _ _ (by omega), hap _ _ _ _ _ _ (by omega), hap _ _ _ _ _ _ (by omega), hap _ _ _ _ _ _ (by omega),
      hap _ _ _ _ _ _ (by omega), hap _ _ _ _ _ _ (by omega), e1]
  · rw [hap _ _ _ _ _ _ (by omega), hap _ _ _ _ _ _ (by omega), hap _ _ _ _ _ _ (by omega), hap _ _ _ _ _ _ (by omega),
      hap _ _ _ _ _ _ (by omega), e2]
  · rw [hap _ _ _ _ _ _ (by omega), hap _ _ _ _ _ _ (by omega), hap _ _ _ _ _ _ (by omega), hap _ _ _ _ _ _ (by omega), e3]
  · rw [hap _ _ _ _ _ _ (by omega), hap _ _ _ _ _ _ (by omega), e5]
  · rw [hap _ _ _ _ _ _ (by omega), e6]

end

end Sys2Proof.Laws
end

section
/-! PROOFS. The publish of a solver job (R258, R259, R263). -/

namespace Sys2Proof.Laws
open Sys2Proof.Machine Sys2Proof.Safety

/-! ### The pieces of a publish -/

/-- The buffer that takes the result. -/
def pubBuf (j : SlvJob) : Nat := if dscState j.prev = 1 then 1 - dscBuf j.prev else 0

/-- The result, with how many elements saturated and how many were subnormal. -/
def pubResult (s : State) (j : SlvJob) : State × Nat × Nat := s.pubElems (slvEX j.ent) (dscBufAddr j.prev (pubBuf j)) j.out.result 0 0

/-- The subnormal elements of the die that are still to be counted. -/
def pubRem (s : State) (j : SlvJob) : Nat := (assocGet (pubResult s j).1.solver.subRem (slvDie j.ent)).getD 0 + (pubResult s j).2.2

def pubCounted (s : State) (j : SlvJob) : State :=
  ((pubResult s j).1.fadd (SLV_CNT4_PUB_SATURATED.die (slvDie j.ent)) (pubResult s j).2.1).fadd (SLV_CNT4_PUB_SUBNORMAL.die (slvDie j.ent))
    (pubRem s j / 65536)

/-- The first and second words of the new descriptor, and the one of its course. -/
def pubWord0 (j : SlvJob) : Nat :=
  1 + pubBuf j * 4 + slvN j.ent * 2 ^ 16 + slvKind j.ent * 2 ^ 28 + slvPcode j.ent * 2 ^ 30 + bvBits j.ent 104 8 * 2 ^ 32
def pubWord1 (j : SlvJob) : Nat := slvShash j.ent + slvUhash j.ent * 2 ^ 32
def pubWord3 (j : SlvJob) : Nat :=
  (if slvKind j.ent == 2 then 0 else j.out.resid) + j.out.iters * 2 ^ 32 + j.out.reg * 2 ^ 40 + j.out.rescales * 2 ^ 43

/-- The descriptor written at an address. -/
def pubDesc (u : State) (j : SlvJob) (a : Nat) : State :=
  descWritten u a (pubWord0 j) (pubWord1 j) u.ccr.t (pubWord3 j) (dscBufAddr j.prev 0) (dscBufAddr j.prev 1)

/-- The job leaves the solver. -/
def pubLeft (u : State) (j : SlvJob) (rem : Nat) : State :=
  u.withSolver (fun x => { x with jobs := x.jobs.filter (fun q => q.ent != j.ent), subRem := assocPut x.subRem (slvDie j.ent) (rem % 65536) })

/-- Its gang is idle, and the publish is counted. -/
def pubShown (u : State) (j : SlvJob) : State :=
  ((gang j.ent).foldl (fun s c => s.fsetAll [((SLV_CRK_STAGE.die (slvDie j.ent)).ix c, 0), ((SLV_CRK_ITER.die (slvDie j.ent)).ix c, j.out.iters)]) u).fadd
    (SLV_CNT0_PUBLISHED.die (slvDie j.ent)) 1

theorem publish_eq {s : State} {f : ImageFile} {j : SlvJob} {d st : TensorEnt} (he : s.slvEnts f j.ent = some (st, d)) :
    s.publish f j = pubShown (pubLeft (pubDesc (pubCounted s j) j ((pubCounted s j).writeBase d + descOff f st (slvBlock j.ent))) j (pubRem s j)) j := by
  have hbuf : (if dscState j.prev == 1 then 1 - dscBuf j.prev else 0) = pubBuf j := by simp only [pubBuf, beq_iff_eq]
  unfold State.publish
  dsimp only
  rw [he]
  dsimp only
  rw [hbuf]
  rfl

/-! ### What they leave -/

theorem pubCnt_apart : ∀ k < 4, ∀ g ∈ slvFlds k, apart (SLV_CNT4_PUB_SATURATED.die k) g = true ∧ apart (SLV_CNT4_PUB_SUBNORMAL.die k) g = true := by
  decide +kernel

section
variable {s : State} (hi : Inv s) (j : SlvJob)

theorem pubResult_beside : Beside (SlvFld (slvDie j.ent)) [.mem] s (pubResult s j).1 :=
  .of_parts (pubElems_onlyParts _ _ _ _ _ _) (pubElems_keeps _ _ _ _ _ _ (.refl s)) (by decide)

theorem pubCounted_beside : Beside (SlvFld (slvDie j.ent)) [.regs, .mem] s (pubCounted s j) := by
  have hk := slvDie_lt j.ent
  refine (((pubResult_beside j).mono (by decide) (fun _ => id)).then (beside_fadd _ _ _ ⟨die_width _ (by decide), fun g hg => ?_⟩) (by decide)).then
    (beside_fadd _ _ _ ⟨die_width _ (by decide), fun g hg => ?_⟩) (by decide)
  · exact (pubCnt_apart _ hk g hg).1
  · exact (pubCnt_apart _ hk g hg).2

theorem pubCounted_mem : (pubCounted s j).mem = (pubResult s j).1.mem := rfl

theorem pubDesc_keeps (u : State) (a : Nat) : Keeps u (pubDesc u j a) := by
  unfold pubDesc descWritten
  exact wrN_keeps _ _ _ (wrN_keeps _ _ _ (wrN_keeps _ _ _ (wrN_keeps _ _ _ (wrN_keeps _ _ _ (wrN_keeps _ _ _ (wrN_keeps _ _ _ (.refl u)))))))

theorem pubShown_stands {u : State} (hu : Inv u) : Counts (SLV_CNT0_PUBLISHED.die (slvDie j.ent)) 1 u (pubShown u j) ∧
    OnlyParts [.regs] u (pubShown u j) := by
  have hk := slvDie_lt j.ent
  have hgang : Beside (SlvFld (slvDie j.ent)) [.regs] u _ := crk_beside hk (gang j.ent) 0 j.out.iters
  have hm : SLV_CNT0_PUBLISHED.die (slvDie j.ent) ∈ slvFlds (slvDie j.ent) := mem_slvFlds _ (f := SLV_CNT0_PUBLISHED) (by decide)
  unfold pubShown
  generalize (gang j.ent).foldl _ u = v at *
  refine ⟨?_, hgang.parts.then (fadd_onlyParts v _ 1) (by decide)⟩
  have hcount := counts_fadd (hgang.keeps.inv hu) (SLV_CNT0_PUBLISHED.die (slvDie j.ent)) 1 (slvFlds_apart _ hk _ hm).1
  unfold Counts at hcount ⊢
  rw [hcount, hgang.flds hu _ hm]

end

/-! ### The words of a new descriptor -/

theorem bvBits_lt {n : Nat} (v : BitVec n) (lo wd : Nat) : bvBits v lo wd < 2 ^ wd := Nat.mod_lt _ (Nat.two_pow_pos wd)

theorem pubWord0_lt (j : SlvJob) : pubWord0 j < 256 ^ 8 := by
  have h1 : slvN j.ent < 2 ^ 12 := bvBits_lt _ _ _
  have h2 : slvKind j.ent < 2 ^ 2 := bvBits_lt _ _ _
  have h3 : slvPcode j.ent < 2 ^ 2 := bvBits_lt _ _ _
  have h4 : bvBits j.ent 104 8 < 2 ^ 8 := bvBits_lt _ _ _
  have h5 : pubBuf j ≤ 1 := by
    unfold pubBuf
    split <;> omega
  unfold pubWord0
  omega

theorem pubWord1_lt (j : SlvJob) : pubWord1 j < 256 ^ 8 := by
  have h1 : slvShash j.ent < 2 ^ 32 := bvBits_lt _ _ _
  have h2 : slvUhash j.ent < 2 ^ 32 := bvBits_lt _ _ _
  unfold pubWord1
  omega

theorem dscBufAddr_lt (d : BitVec 512) (k : Nat) : dscBufAddr d k < 256 ^ 8 :=
  (bvBits_lt d (256 + 64 * k) 57).trans (by decide)

/-! ### The publish -/

section
variable {s : State} {f : ImageFile} {p : PlanImg} (h : InTick f p s) {j : SlvJob} {c0 : Nat} {d st : TensorEnt}
  (hon : s.slvOn (slvDie j.ent) c0 = some j) (he : s.slvEnts f j.ent = some (st, d)) (hp : j.publishes = true)

/-- What a publish of job `j` at address `b` leaves. -/
structure Published (s : State) (j : SlvJob) (b : Nat) (t : State) : Prop where
  counted : Counts (SLV_CNT0_PUBLISHED.die (slvDie j.ent)) 1 s t
  left : j ∉ t.solver.jobs
  word0 : t.rdN b 8 = pubWord0 j
  word1 : t.rdN (b + 8) 8 = pubWord1 j
  tick : t.rdN (b + 16) 8 = s.ccr.t % 256 ^ 8
  buf0 : t.rdN (b + 32) 8 = dscBufAddr j.prev 0
  buf1 : t.rdN (b + 40) 8 = dscBufAddr j.prev 1
  zero : t.rdN (b + 48) 16 = 0
  result : Apart b 64 (dscBufAddr j.prev (pubBuf j)) (4 * j.out.result.length) → ∀ i, i < j.out.result.length →
    t.rdN (dscBufAddr j.prev (pubBuf j) + 4 * i) 4 = pubWord (slvEX j.ent) (j.out.result.getD i 0) % 256 ^ 4
  other : ∀ x, (x < b ∨ b + 64 ≤ x) →
    (x < dscBufAddr j.prev (pubBuf j) ∨ dscBufAddr j.prev (pubBuf j) + 4 * j.out.result.length ≤ x) → t.rd8 x = s.rd8 x
  parts : OnlyParts [.regs, .mem, .solver] s t

theorem publish_stands {s : State} (hi : Inv s) {f : ImageFile} {j : SlvJob} {d st : TensorEnt} (he : s.slvEnts f j.ent = some (st, d)) :
    Published s j (s.writeBase d + descOff f st (slvBlock j.ent)) (s.publish f j) := by
  have hv := pubCounted_beside (s := s) j
  have hvmem := pubCounted_mem (s := s) j
  have hout := fun x hx => pubElems_out (slvEX j.ent) j.out.result s (dscBufAddr j.prev (pubBuf j)) 0 0 x hx
  have hread := fun i hl => pubElems_reads (slvEX j.ent) (l := j.out.result) (s := s) (a := dscBufAddr j.prev (pubBuf j)) (x := 0) (y := 0) (i := i)
    hi.1.2.1 hl
  have hbase : (pubCounted s j).writeBase d = s.writeBase d := writeBase_of_job (hv.parts .ccr (by decide)) (hv.parts .job (by decide)) d
  rw [publish_eq he, hbase]
  generalize s.writeBase d + descOff f st (slvBlock j.ent) = b
  generalize pubRem s j = rem
  change ∀ x hx, (pubResult s j).1.rd8 x = s.rd8 x at hout
  change ∀ i hl, (pubResult s j).1.rdN (dscBufAddr j.prev (pubBuf j) + 4 * i) 4 = _ at hread
  generalize (pubResult s j).1 = r at *
  have hiv : Inv (pubCounted s j) := hv.keeps.inv hi
  generalize pubCounted s j = v at *
  have hvrd : ∀ x, v.rd8 x = r.rd8 x := fun x => rd8_congr hvmem x
  obtain ⟨r0, r1, r2, r4, r5, r6⟩ := descWritten_reads v b (pubWord0 j) (pubWord1 j) v.ccr.t (pubWord3 j) (dscBufAddr j.prev 0) (dscBufAddr j.prev 1)
    hiv.1.2.1
  have hdout := descWritten_out v b (pubWord0 j) (pubWord1 j) v.ccr.t (pubWord3 j) (dscBufAddr j.prev 0) (dscBufAddr j.prev 1)
  have hdp : OnlyParts [.mem] v (pubDesc v j b) := descWritten_onlyParts v b _ _ _ _ _ _
  have hiw : Inv (pubDesc v j b) := (pubDesc_keeps j v b).inv hiv
  change OnlyBytes b 64 v (pubDesc v j b) at hdout
  change (pubDesc v j b).rdN _ _ = _ at r0 r1 r2 r4 r5 r6
  have hdregs : (pubDesc v j b).regs = v.regs := hdp .regs (by decide)
  generalize pubDesc v j b = w at *
  have hxp : OnlyParts [.solver] w (pubLeft w j rem) := withSolver_onlyParts w _
  have hxj : (pubLeft w j rem).solver.jobs = w.solver.jobs.filter (fun q => q.ent != j.ent) := rfl
  have hix : Inv (pubLeft w j rem) := (withSolver_keeps w _ (.refl w)).inv hiw
  generalize pubLeft w j rem = x at *
  obtain ⟨hcount, hyp⟩ := pubShown_stands j hix
  generalize pubShown x j = t at *
  have hmem : t.mem = w.mem := Eq.trans (hyp .mem (by decide)) (hxp .mem (by decide))
  have hrd : ∀ a n, t.rdN a n = w.rdN a n := fun a n => rdN_congr (fun y => rd8_congr hmem y) n a
  have hccr : v.ccr = s.ccr := hv.parts .ccr (by decide)
  have hm : SLV_CNT0_PUBLISHED.die (slvDie j.ent) ∈ slvFlds (slvDie j.ent) := mem_slvFlds _ (f := SLV_CNT0_PUBLISHED) (by decide)
  have hxregs : x.regs = v.regs := Eq.trans (hxp .regs (by decide)) hdregs
  exact {
    counted := by
      unfold Counts at hcount ⊢
      rw [hcount, fget_congr hxregs, hv.flds hi _ hm]
    left := by
      rw [hyp .solver (by decide), hxj]
      exact fun hmem => by simpa using (List.mem_filter.1 hmem).2
    word0 := by rw [hrd, r0, Nat.mod_eq_of_lt (pubWord0_lt j)]
    word1 := by rw [hrd, r1, Nat.mod_eq_of_lt (pubWord1_lt j)]
    tick := by rw [hrd, r2, hccr]
    buf0 := by rw [hrd, r4, Nat.mod_eq_of_lt (dscBufAddr_lt _ _)]
    buf1 := by rw [hrd, r5, Nat.mod_eq_of_lt (dscBufAddr_lt _ _)]
    zero := by rw [hrd, r6]
    result := fun hap i hl => by
      rw [hrd, ← hread i hl]
      refine rdN_congr_range 4 _ (fun y h1 h2 => ?_)
      rw [hdout y (by omega), hvrd]
    other := fun y h1 h2 => by rw [rd8_congr hmem, hdout y h1, hvrd, hout y h2]
    parts := (((hv.parts.mono (by decide)).then hdp (by decide)).then hxp (by decide)).then hyp (by decide) }

include h hon hp in
theorem exec_publish (hs : Settled s (s.cycAt (j.start + j.out.off + 40))) : exec (.publish (slvDie j.ent) c0) s =
    .next ((s.advance (s.cycAt (j.start + j.out.off + 40))).publish f j) :=
  congrArg Host.Outcome.next ((live_runs h.1.1 _).trans (by
    rw [h.2.2.1, hon]
    dsimp only
    rw [if_pos hp, upTo_settled _ _ hs]))

end

/-! ### What O41 says -/

/-- Settles O41: the start edge fixes a job's course, and a publish writes its result and then its descriptor. -/
theorem solverJobsStartAndPublish : Obligations.SolverJobsStartAndPublish := by
  intro s f p e d st h he hgang
  refine ⟨fun hr hfind => ⟨fun hs => desc_read h hr hfind he hs, fun hs hg => ⟨job_starts h hr hfind he hs hg hgang,
    fun hk hcold hle hb => job_not_started h hr hfind he hs hg hk hcold hle hb⟩⟩, fun j c0 hon hent hp hs => ?_⟩
  subst hent
  have hi : Inv (s.advance (s.cycAt (j.start + j.out.off + 40))) := h.1.2
  have hpub := publish_stands hi (f := f) (j := j) (d := d) (st := st) he
  refine ⟨_, exec_publish h hon hp hs, ?_⟩
  have hnow := hpub.parts .now (by decide)
  generalize (s.advance (s.cycAt (j.start + j.out.off + 40))).publish f j = t at *
  have hw0 : pubWord0 j = 1 + 4 * pubBuf j + 2 ^ 16 * slvN j.ent + 2 ^ 28 * slvKind j.ent + 2 ^ 30 * slvPcode j.ent + 2 ^ 32 * bvBits j.ent 104 8 := by
    unfold pubWord0
    ring
  have hw1 : pubWord1 j = slvShash j.ent + 2 ^ 32 * slvUhash j.ent := by
    unfold pubWord1
    ring
  exact ⟨hnow, hpub.counted, hpub.left, hpub.word0.trans hw0, hpub.word1.trans hw1, hpub.tick, hpub.buf0, hpub.buf1, hpub.zero,
    hpub.result, hpub.other, ((advance_onlyParts s _).mono (by decide)).then hpub.parts (by decide)⟩

end Sys2Proof.Laws
end
